-- ==== Sys2Proof/Word.lean ====
section
/-!
DEFINITION. The words of the block, the numbers of its elements (R10), and the operand types of its commands.
-/

namespace Sys2Proof

abbrev Byte := BitVec 8
abbrev Word := BitVec 32
abbrev DWord := BitVec 64

/-! Physical numbers, R10. A VF of R275 is numbered 1 to 40; `VfId` holds that number less one. -/
abbrev ArrayId := Fin 40
abbrev FieldId := Fin 8
abbrev StackId := Fin 24
abbrev SiteId := Fin 8
abbrev PortId := Fin 2
abbrev VfId := Fin 40
abbrev QueueId := Fin 16
abbrev PanelId := Fin 40
abbrev PcId := Fin 64
abbrev BankId := Fin 64
abbrev AgentId := Fin 96
abbrev NiId := Fin 32
abbrev BindId := Fin 64
abbrev TintId := Fin 16

/-- A code word in flight: 64 data bytes and one poison mark (chapter Stored data integrity). -/
structure CodeWord where
  data : BitVec 512
  mark : Bool
  deriving DecidableEq, Repr

/-- Where a register access is aimed: the PF0 BAR0 window (R412) or one VF page (R419). -/
inductive RegAddr where
  | pf0 (off : BitVec 28)
  | vf (port : PortId) (v : VfId) (off : BitVec 16)
  deriving DecidableEq, Repr

/-- What a host request to a port names: a register of a window, or a word of a function's configuration space (R272):
PF0's, or a VF's. -/
inductive HostAddr where
  | reg (r : RegAddr)
  | cfg (vf : Option VfId) (off : BitVec 12)
  deriving DecidableEq, Repr

/-- A host's request of `size` bytes at a port; `tee` tells that it came on the interface's IDE stream with the T bit set
(R293). -/
structure HostReq where
  port : PortId
  addr : HostAddr
  size : Nat
  tee : Bool
  deriving DecidableEq, Repr

/-- What a host's write names, and its T bit. -/
structure HostAt where
  addr : HostAddr
  tee : Bool
  deriving DecidableEq, Repr

/-- An offset in a VF's BAR2, and the T bit of the request (R276, R293). -/
structure Bar2At where
  off : Word
  tee : Bool
  deriving DecidableEq, Repr

/-- A read or a write, of a size in bytes. -/
structure SizedAccess where
  write : Bool
  size : Nat
  deriving DecidableEq, Repr

/-- What a host read of R289 brought back: data, data with EP = 1, an error completion, or nothing in time. -/
inductive HostRead where
  | ok (bytes : List Byte)
  | poisoned (bytes : List Byte)
  | error
  | silent
  deriving DecidableEq, Repr, Inhabited

/-- Raw symbol errors met by a read of one code word: which word of the unit read, and the exclusive-or pattern
over the 68 symbols of R130 (data bytes 0 to 63 in bits 511:0, check bytes above). -/
structure RawError where
  index : Nat
  flips : BitVec 544
  deriving DecidableEq, Repr

/-- Who asks an array to halt: the debug halt of R102, or any other request of R48 and R93. -/
inductive HaltSource where
  | debug
  | other
  deriving DecidableEq, Repr

/-- A transaction ID, R205. -/
structure TxId where
  field : FieldId
  ni : NiId
  tag : BitVec 12
  deriving DecidableEq, Repr

/-- The four network atomics, R260. -/
inductive AtomicOp where
  | add32
  | add64
  | swap64
  | cas64
  deriving DecidableEq, Repr

/-- What a network request asks for (R205, R212). A signal names the NI it goes to; `slot` is the binding slot of a
signal to a site. -/
inductive ReqKind where
  | read (count : Nat)
  | write (words : List CodeWord)
  | atomic (op : AtomicOp) (off : Fin 64) (operand compare : DWord) (marked : Bool)
  | signal (field : FieldId) (ni : NiId) (sem : Fin 64) (inc : Byte) (slot : Fin 8)
  deriving DecidableEq, Repr

/-- A request as an NI is asked to inject it: where, under which tint, for which panel, what, and whether an array's
stream mover asks (R201). -/
structure NetReq where
  field : FieldId
  ni : NiId
  tint : TintId
  panel : Option PanelId
  pa : BitVec 52
  kind : ReqKind
  mover : Bool := false
  deriving DecidableEq, Repr

/-- The operations of the vector instruction classes of R68 that VECTOR_ISSUE carries out. The manual assigns no
opcodes, so the command names the operation that the issued opcode stands for. -/
inductive VecOp where
  | fadd | fsub | fmul | ffma | fmin | fmax | fcmpEq | fcmpLt | fcmpLe
  | iadd | isub | ishl | ishr | isar | iand | ior | ixor | icmpEq | icmpLt | select
  | cvtToBf16 | cvtToFp16 | cvtToE4m3 | cvtToE5m2 | cvtToInt32 | cvtToInt8
  | cvtFromBf16 | cvtFromFp16 | cvtFromE4m3 | cvtFromE5m2 | cvtFromInt32 | cvtFromInt8
  | exp2 | log2 | recip | rsqrt
  | shuffle | broadcast | reduceAdd | reduceMax
  | localLoad | localStore
  | branch | toSequencer | endContext
  | undefinedOp
  deriving DecidableEq, Repr

/-- The MX element formats that VMXQ produces, R70. -/
inductive MxFormat where
  | fp4e2m1 | fp6e2m3 | fp6e3m2 | fp8e4m3 | fp8e5m2 | mxint8
  deriving DecidableEq, Repr

/-- Which of the two register sets of R181 and R236 a command addresses: the VF page's or the operator mirror's. -/
inductive SetSel where
  | page (port : PortId) (v : VfId)
  | mirror (p : PanelId)
  deriving DecidableEq, Repr

/-- The part of an engine that asked for a walk (R167, R172): of an array its cubes, a vector context, a mover channel or
the sequencer; a site or an aperture asks as a whole. -/
inductive WalkUnit where
  | cube
  | context (core : Fin 16) (idx : Fin 64)
  | mover (channel : Fin 8)
  | sequencer
  | port
  deriving DecidableEq, Repr

/-- An engine that a translation unit serves (R172, R179). -/
inductive EngineSel where
  | array (a : ArrayId)
  | site (n : SiteId)
  | aperture (port : PortId)
  deriving DecidableEq, Repr

/-- Who asked for a walk: the engine, and the part of it. -/
structure WalkAsker where
  engine : EngineSel
  unit : WalkUnit
  deriving DecidableEq, Repr

/-- A coherence request of a hub agent: the address, and the tint it goes under (R197, R215). -/
structure CohAsk where
  pa : BitVec 52
  tint : TintId
  deriving DecidableEq, Repr

/-- An acknowledgement at a home (R223, R260): from inside the hub for the line of `pa`, or a native-profile agent's message
with its header. -/
inductive CohAckFrom where
  | hub (pa : BitVec 52)
  | native (n : SiteId) (j : Fin 6) (header : BitVec 128)
  deriving DecidableEq, Repr

/-- A site's adapter after some retry rounds (R240, R269). -/
structure SiteRetries where
  site : SiteId
  rounds : BitVec 16
  deriving DecidableEq, Repr

/-- A CXL.cache agent's answers to snoops (R231). -/
inductive CxlRsp where
  | rspIHitI | rspIHitSE | rspSHitSE | rspVHitV | rspSFwdM | rspIFwdM | rspVFwdV
  deriving DecidableEq, Repr

/-- CXL.cache requests of R231 that a chiplet sends. -/
inductive CxlReq where
  | rdCurr | rdShared | rdAny | rdOwn | rdOwnNoData | itoMWr | wrCur | clFlush | dirtyEvict
  | cleanEvict | cleanEvictNoData | woWrInv | woWrInvF | wrInv
  | snoopAnswer (rsp : CxlRsp) (crossing : Bool)
  deriving DecidableEq, Repr

/-- The CXL classes of R257. -/
inductive CxlClass where
  | io | cache | mem
  deriving DecidableEq, Repr

/-- The access kinds of a translation (R159, R172). -/
inductive Access where
  | read | write | atomic | fetch
  deriving DecidableEq, Repr

/-- SPDM requests to PF0 that the chapters Host ports and Panels and trust describe (R292, R293, R329, R332). -/
inductive SpdmReq where
  | getVersion
  | getCertificate (slot : Fin 8)
  | getMeasurement (index : BitVec 8)
  | tdispVersion (v : VfId)
  | tdispCapabilities (v : VfId)
  | interfaceState (v : VfId)
  | getInterfaceReport (v : VfId)
  | bindP2p (v : VfId)
  | setMmioAttribute (v : VfId)
  | startSession (id : BitVec 32) (peerKey : BitVec 776)
  | endSession (id : BitVec 32)
  | panelDestroy (panel : Byte) (counter : DWord) (mac : BitVec 128)
  deriving DecidableEq, Repr

/-- The ways the management bus of R409 assigns a dynamic address. -/
inductive I3cAssign where
  | setdasa | setaasa | entdaa
  deriving DecidableEq, Repr

/-- Instructions of the test access port of R410. -/
inductive TapInstr where
  | bypass | idcode | extest | sample | internalChain
  deriving DecidableEq, Repr

/-- The five hub power-good inputs of R407. -/
inductive PowerGood where
  | aux | io | hbm | sram | core
  deriving DecidableEq, Repr

/-- What loses lock under R398. -/
inductive PllSel where
  | core
  | hbm (f : FieldId)
  | pcie (p : PortId)
  | site (n : SiteId)
  | twin (k : PortId)
  deriving DecidableEq, Repr

/-- An event that moves a TDISP interface to ERROR (R293). -/
inductive TdiEvent where
  | barChange | memorySpaceEnable | busMasterEnable | msixCapability
  deriving DecidableEq, Repr

/-- Which way a lath link carries: from the lower-numbered field of its boundary to the higher, or back. -/
inductive LathDir where
  | up | down
  deriving DecidableEq, Repr

end Sys2Proof
end

