-- ==== Sys2Proof/Syntax.lean ====
section
/-!
DEFINITION. The commands of the block: one constructor for each row of spec/opcode_table.json, with the unit it
concerns and what its outside world brings to it (a value written, a measurement, a message, data of a host read).
-/

namespace Sys2Proof

/-- The commands and events of the UH9624, one per row of the table of operations and events, in its order. -/
inductive Instr where
  /-- CFOLD (R39). A fold-mode multiply issues and runs its Mt×Nt passes of K-steps into accumulator slots. -/
  | cfold (a : ArrayId) (corrected : Nat)
  /-- CSTREAM (R47). A stream-mode multiply issues and runs its row groups of A through a stationary slot. -/
  | cstream (a : ArrayId) (corrected : Nat)
  /-- CSLOAD (R45). A stationary load issues and starts filling a stationary slot at 256 B per TCLK. -/
  | csload (a : ArrayId) (corrected : Nat)
  /-- PASS_BOUNDARY (R48). A pass or row group ends, progress is counted, and any pending halt request takes effect. -/
  | passBoundary (a : ArrayId)
  /-- HALT_REQUEST (R93). A halt request reaches an array and takes effect at once when no pass is in progress. -/
  | haltRequest (a : ArrayId) (source : HaltSource)
  /-- DRAIN (R53). An accumulator slot is drained, converted and written to memory, or handed to the exchange buffer. -/
  | drain (a : ArrayId)
  /-- STATIONARY_SLOT_VALID (R45). The last byte of a stationary load arrives and the slot becomes valid. -/
  | stationarySlotValid (a : ArrayId) (slot : Fin 2)
  /-- CUBE_INSTRUCTION_RETIRE (R76). A cube instruction retires, in issue order, when its last write is acknowledged. -/
  | cubeInstructionRetire (a : ArrayId)
  /-- ARRAY_HARDWARE_FAULT (R58). A hardware fault 0x06-0x08 stops the array, which is retired and replaced by a wear spare. -/
  | arrayHardwareFault (a : ArrayId) (code : Byte) (info : BitVec 16)
  /-- SIGNAL_FORWARD_WINDOW_END (R367). 75,000 NCLK after the switch, the failed array's NI stops forwarding signals and is isolated. -/
  | signalForwardWindowEnd (a : ArrayId)
  /-- ARR_FAULT_READ (R63). A read of ARR_FAULT returns the first fault recorded and clears the record. -/
  | arrFaultRead (a : ArrayId)
  /-- SEQ_FAULT_READ (R63). A read of SEQ_FAULT returns the first sequencer fault recorded and clears the record. -/
  | seqFaultRead (a : ArrayId)
  /-- LOW_WORD_READ_LATCH (R64). A read of a 64-bit register's low word latches its high word for the next high-word read. -/
  | lowWordReadLatch (req : HostReq)
  /-- VECTOR_ISSUE (R66). A vector core issues one instruction from a ready context in round-robin order. -/
  | vectorIssue (a : ArrayId) (core : Fin 16) (op : VecOp)
  /-- VECTOR_LOAD (R71). A contiguous or gather load is issued through the vector memory port. -/
  | vectorLoad (a : ArrayId) (core : Fin 16) (gather : Bool)
  /-- VECTOR_STORE (R71). A contiguous store of whole code words is issued, or rejected with fault 0x20. -/
  | vectorStore (a : ArrayId) (core : Fin 16)
  /-- VATOM (R73). One network atomic is issued for each enabled lane of the context. -/
  | vatom (a : ArrayId) (core : Fin 16)
  /-- VMXQ (R70). Lanes are quantised to MX elements with an E8M0 scale per block of 32 lanes. -/
  | vmxq (a : ArrayId) (core : Fin 16) (fmt : MxFormat)
  /-- VTX (R74). A context loads 64 consecutive elements of an exchange tile into a vector register. -/
  | vtx (a : ArrayId) (core : Fin 16)
  /-- VTXDONE (R74). A context ends its work on a tile, and the slot is freed when every context has done so. -/
  | vtxdone (a : ArrayId) (core : Fin 16)
  /-- KERNEL_RETIRE (R72). A vector launch retires when all contexts have ended and all stores and atomics are answered. -/
  | kernelRetire (a : ArrayId) (launch : Nat)
  /-- SCHEDULE_FETCH (R76). The sequencer fetches the next schedule instruction through the schedule cache. -/
  | scheduleFetch (a : ArrayId)
  /-- STEP (R77). A step is entered and its wait list is evaluated once. -/
  | step (a : ArrayId)
  /-- STEPEND (R78). STEPEND waits for every instruction and write of the step before the step commits. -/
  | stepend (a : ArrayId)
  /-- STEP_COMMIT (R78). Once everything of the step has retired and been acknowledged, the step commits and sends its signals. -/
  | stepCommit (a : ArrayId)
  /-- SIGNAL (R82). SIGNAL sends further signal entries directly after STEPEND, or raises fault 0x12. -/
  | signal (a : ArrayId)
  /-- WAITC (R80). WAITC holds issue until the outstanding instructions of the named classes fall to the allowance. -/
  | waitc (a : ArrayId)
  /-- LOOP (R81). LOOP opens a loop of COUNT iterations. -/
  | loop (a : ArrayId)
  /-- ENDLOOP (R81). ENDLOOP repeats or closes the innermost loop, or raises fault 0x13. -/
  | endloop (a : ArrayId)
  /-- DLOAD (R83). Tile descriptors are copied from memory into the tile descriptor table. -/
  | dload (a : ArrayId)
  /-- KLOAD (R83). After vector launches drain, bytes are copied into the kernel code store. -/
  | kload (a : ArrayId)
  /-- VLAUNCH (R83). CTX contexts are started at ENTRY once enough contexts are free. -/
  | vlaunch (a : ArrayId)
  /-- MOVE (R84). A stream-mover transfer is started on a channel from its transfer descriptor. -/
  | move (a : ArrayId)
  /-- MOVE_RETIRE (R84). A move retires when every write of its transfer has been acknowledged. -/
  | moveRetire (a : ArrayId) (channel : Fin 8)
  /-- END (R97). An array's schedule reaches END for the invocation. -/
  | endSchedule (a : ArrayId)
  /-- NOP (R82). A schedule NOP issues and does nothing. -/
  | nop (a : ArrayId)
  /-- SEMAPHORE_SIGNAL (R79). A signal arrives at a target array and adds its increment to a step semaphore, once per transaction ID. -/
  | semaphoreSignal (id : TxId)
  /-- WATCHDOG_EXPIRY (R89). The step watchdog expires, fault 0x16 is raised and the step attempt ends. -/
  | watchdogExpiry (a : ArrayId)
  /-- LIVENESS_REPORT (R88). The sequencer sends a liveness report to its field controller. -/
  | livenessReport (a : ArrayId)
  /-- ARRAY_SILENT (R88). A field controller hears no report for 40 ms, declares the array silent and reports fault 0x19. -/
  | arraySilent (a : ArrayId)
  /-- STATE_CARRY_READ_TIMEOUT (R88). A state read of a silent array is not answered in 1,500 CCLK, and the invocation ends with status 0x03. -/
  | stateCarryReadTimeout (a : ArrayId)
  /-- STEP_RERUN (R89). A step is re-run from the instruction after STEP with loop counters restored. -/
  | stepRerun (a : ArrayId)
  /-- SEQ_HALT (R102). A write of HALT to SEQ_CONTROL requests a debug halt. -/
  | seqHalt (a : ArrayId)
  /-- SEQ_RESUME (R102). RESUME restarts the current step of a debug-halted array. -/
  | seqResume (a : ArrayId)
  /-- SEQ_STEP_ONE (R102). STEP_ONE issues one schedule instruction of a halted array and halts again. -/
  | seqStepOne (a : ArrayId)
  /-- INVOKE (R95). An INVOKE command reads and checks the operator descriptor and schedule table. -/
  | invoke (port : PortId) (v : VfId) (q : QueueId)
  /-- ABORT (R288). An ABORT command halts or cancels the named invocation in another queue. -/
  | abort (port : PortId) (v : VfId) (q : QueueId)
  /-- NOP_COMMAND (R285). A NOP command is taken and completed. -/
  | nopCommand (port : PortId) (v : VfId) (q : QueueId)
  /-- INVOCATION_START (R97). With its arrays free, an invocation clears semaphores, sets the argument base and PCs, and starts its timer. -/
  | invocationStart (port : PortId) (v : VfId) (q : QueueId)
  /-- INVOCATION_COMPLETE (R97). Once every array has ended or halted and all writes are acknowledged, the completion is written. -/
  | invocationComplete (port : PortId) (v : VfId) (q : QueueId)
  /-- INVOCATION_TIMEOUT (R98). The invocation timer expires, every array is halted and status 0x05 is written. -/
  | invocationTimeout (port : PortId) (v : VfId) (q : QueueId)
  /-- SITE_ENGINE_SIGNAL (R99). A signal from a site engine is applied only when its binding tag and array match. -/
  | siteEngineSignal (n : SiteId) (tag : Byte) (array : Fin 64) (sem : Fin 64) (inc : Byte)
  /-- HBM_READ (R116). A stack controller chooses and serves a read from a pseudo-channel's read queue. -/
  | hbmRead (stack : StackId) (pc : PcId) (pick : Nat) (errors : List RawError)
  /-- HBM_WRITE (R117). A write reaches a stack controller's write queue and is acknowledged. -/
  | hbmWrite (id : TxId)
  /-- HBM_WRITE_DRAIN (R116). The controller drains a batch of queued writes to the stack. -/
  | hbmWriteDrain (stack : StackId) (pc : PcId)
  /-- FAST_TIER_ACCESS (R118). A fast-tier bank serves the next chosen access of up to 128 B. -/
  | fastTierAccess (f : FieldId) (bank : BankId) (errors : List RawError)
  /-- NETWORK_ATOMIC_PERFORM (R135). A controller or bank performs an atomic as a read-modify-write of the whole code word. -/
  | networkAtomicPerform (id : TxId) (errors : List RawError)
  /-- CONDITIONAL_WRITE_BACK (R137). A hub repair or marking write takes effect only when no newer write has reached the word. -/
  | conditionalWriteBack (key : Nat)
  /-- REFRESH (R119). A refresh interval issues, postpones or makes up DRAM refresh. -/
  | refresh (stack : StackId) (pc : PcId) (bank : Nat) (postpone : Bool) (makeUp : Nat)
  /-- HBM_TEMP_READOUT (R121). Every 1 ms the stack temperature is read and the refresh rate, HOT and CRIT are updated. -/
  | hbmTempReadout (stack : StackId) (temp : Byte)
  /-- HBM_REPAIR (R122). A write of HBM_REPAIR with GO starts a soft repair of a DRAM row and can queue a hard repair. -/
  | hbmRepair (stack : StackId) (value : Word)
  /-- SOFT_REPAIR_DONE (R122). A soft repair ends, the strips are written back and RESULT is set. -/
  | softRepairDone (stack : StackId) (resourceLeft : Bool)
  /-- STACK_TRAINING_ATTEMPT (R123). A training attempt of a stack starts its stages. -/
  | stackTrainingAttempt (stack : StackId)
  /-- TRAINING_STAGE_DONE (R123). A stack training stage completes and the next stage starts, or the attempt fails. -/
  | trainingStageDone (stack : StackId) (passed : Bool) (failing : Word)
  /-- TRAINING_ATTEMPT_TIMEOUT (R123). A stack training attempt exceeds 80 ms. -/
  | trainingAttemptTimeout (stack : StackId)
  /-- STACK_FILL_DONE (R132). The unwritten-mark fill of a stack ends and the stack enters service. -/
  | stackFillDone (stack : StackId)
  /-- FAST_TIER_FILL_DONE (R132). A field's fast tier finishes its unwritten-mark fill and FT_STATUS.READY is set. -/
  | fastTierFillDone (f : FieldId)
  /-- HBM_RETIRE (R126). A write of HBM_RETIRE with key 0xC5 fences a channel at once and writes a patch record. -/
  | hbmRetire (stack : StackId) (value : Word)
  /-- HBM_TEST_RETRAIN (R129). RETRAIN takes a stack out of service and trains and fills it again. -/
  | hbmTestRetrain (stack : StackId) (value : Word)
  /-- HBM_TEST_SELFTEST (R129). SELFTEST takes a stack out of service and runs its self-test before retraining. -/
  | hbmTestSelftest (stack : StackId) (value : Word)
  /-- STACK_SELFTEST_DONE (R129). A stack self-test ends, RESULT is set and training starts. -/
  | stackSelftestDone (stack : StackId) (passed : Bool)
  /-- HBM_TEST_RATE_8G (R129). A write of RATE_8G in TEST_UNLOCKED selects 8.0 Gb/s for later trainings. -/
  | hbmTestRate8g (stack : StackId) (value : Word)
  /-- SKIM_HBM_STRIP (R141). Skim reads one strip of every active pseudo-channel of a stack and repairs what it finds. -/
  | skimHbmStrip (stack : StackId) (errors : List RawError)
  /-- SKIM_FT_ROW (R141). Skim reads one row of every logical bank of a field. -/
  | skimFtRow (f : FieldId) (errors : List RawError)
  /-- PRIMER_ZERO (R142). A primer pass writes zero data with no mark to every word of its range. -/
  | primerZero (slot : Fin 8) (value : Word) (words : Nat)
  /-- PRIMER_CHECK (R142). A primer pass reads every word, repairs it and counts the classes. -/
  | primerCheck (slot : Fin 8) (value : Word) (words : Nat) (errors : List RawError)
  /-- PRIMER_SUMMARISE (R142). A primer pass reads and counts every word without writing. -/
  | primerSummarise (slot : Fin 8) (value : Word) (words : Nat) (errors : List RawError)
  /-- PRIMER_MARK (R142). A primer pass writes the stored poison mark to every word, in TEST_UNLOCKED only. -/
  | primerMark (slot : Fin 8) (value : Word) (words : Nat)
  /-- PRIMER_ABORT (R145). ABORT stops a running primer pass after the current strip or row. -/
  | primerAbort (slot : Fin 8)
  /-- PRIMER_DONE (R145). Every word of the primer range has been done and STATE reads 2. -/
  | primerDone (slot : Fin 8)
  /-- RAS_MLOG_POP (R149). A write of RAS_MLOG_POP removes the oldest memory error log entries. -/
  | rasMlogPop (value : Word)
  /-- HBM_PAGE_RETIRE (R151). A page retirement starts copying a page into a spare page. -/
  | hbmPageRetire (stack : StackId) (value : Word)
  /-- PAGE_COPY_DONE (R151). The page copy ends, the page is redirected and the patch record is written. -/
  | pageCopyDone (stack : StackId)
  /-- FT_BANK_RETIRE (R152). A bank replacement starts copying a logical bank to a free physical bank. -/
  | ftBankRetire (f : FieldId) (value : Word)
  /-- BANK_COPY_DONE (R152). The bank copy ends, the map is switched and the patch record is written. -/
  | bankCopyDone (f : FieldId)
  /-- PAGE_WALK (R159). A translation unit starts a walk of the panel's page tables. -/
  | pageWalk (f : FieldId) (panel : PanelId) (va : BitVec 55) (access : Access) (asker : WalkAsker)
  /-- WALK_LEVEL_READ (R159). A page table entry read returns and the walk continues, finds a leaf or ends in a fault. -/
  | walkLevelRead (f : FieldId) (walk : Nat) (errors : List RawError)
  /-- MIDTILE_FAULT (R171). A tile meets a fault while it runs after an invalidation and stalls with MIDTILE = 1. -/
  | midtileFault (a : ArrayId) (va : BitVec 55)
  /-- FAULT_RECORD_WRITE (R174). The ring writer writes a fault record, assigns its TOKEN and sends MSI-X when armed. -/
  | faultRecordWrite (panel : PanelId)
  /-- FRING_HEAD_WRITE (R175). A write of FRING_HEAD frees ring space and lets held records be written. -/
  | fringHeadWrite (port : PortId) (v : VfId) (value : Word)
  /-- FRING_ENABLE (R178). Setting FRING_CONFIG.ENABLE takes up base and size, zeroes TAIL and HEAD, and writes held records. -/
  | fringEnable (port : PortId) (v : VfId) (value : Word)
  /-- FRING_ARM (R174). A write of 1 to FRING_ARM arms the next ring interrupt. -/
  | fringArm (port : PortId) (v : VfId) (value : Word)
  /-- FAULT_RESUME_RETRY (R176). FAULT_RESUME with ACTION 0 replays the stalled tile. -/
  | faultResumeRetry (port : PortId) (v : VfId) (value : Word)
  /-- FAULT_RESUME_ABORT (R176). FAULT_RESUME with ACTION 1 ends the step with fault 0x18. -/
  | faultResumeAbort (port : PortId) (v : VfId) (value : Word)
  /-- TR_ROOT_WRITE (R166). A write of TR_ROOT's high word applies the new root to later walks. -/
  | trRootWrite (port : PortId) (v : VfId) (high : Word)
  /-- INVALIDATION_GO (R179). An invalidation removes translations of the range and waits for every engine's acknowledgement. -/
  | invalidationGo (set : SetSel) (value : Word)
  /-- ENGINE_INVALIDATION_ACK (R179). An engine acknowledges an invalidation, which completes on the last acknowledgement. -/
  | engineInvalidationAck (set : SetSel) (engine : EngineSel)
  /-- INVALIDATION_FORCE (R180). After 1 ms without every acknowledgement, the invalidation completes by force. -/
  | invalidationForce (set : SetSel)
  /-- NETWORK_REQUEST_INJECT (R205). An NI injects a request under a transaction ID, counting it and demoting it against its budget. -/
  | networkRequestInject (req : NetReq)
  /-- NETWORK_DELIVERY (R190). The last router checks DFIELD and DNI and delivers the request. -/
  | networkDelivery (id : TxId)
  /-- NETWORK_RESPONSE (R204). A response reaches its initiator NI and is matched by tag. -/
  | networkResponse (id : TxId) (nclk : Nat)
  /-- ROUTER_DISCARD (R199). A packet that has waited 1,000 NCLK at one input is discarded and logged. -/
  | routerDiscard (id : TxId) (f : FieldId)
  /-- BUDGET_WINDOW_OPEN (R197). A budget point opens a new 1 µs window and its counters return to zero. -/
  | budgetWindowOpen (f : FieldId) (ni : NiId) (injection : Bool)
  /-- TRANSACTION_TIMEOUT (R207). A request without a response for 20 µs completes at the initiator with status 0x3. -/
  | transactionTimeout (id : TxId)
  /-- ATOMIC_RESEND (R208). An atomic or signal is resent at 6,000 and 12,000 NCLK with its transaction ID. -/
  | atomicResend (id : TxId)
  /-- DEDUP_ENTRY_EXPIRY (R208). A deduplication table entry expires 45,000 NCLK after its first copy arrived. -/
  | dedupEntryExpiry (f : FieldId) (ni : NiId) (id : TxId)
  /-- TAG_QUARANTINE_END (R207). A tag freed by a timeout becomes reusable after 75,000 NCLK. -/
  | tagQuarantineEnd (id : TxId)
  /-- TRUNK_HASH_CHANGE (R184). Once a trunk has drained after its link count changed, the router changes its hash. -/
  | trunkHashChange (boundary : Fin 10)
  /-- LATH_FLIT_RECEIVE (R191). A gate receives a lath flit, checks CRC and sequence and acknowledges it. -/
  | lathFlitReceive (boundary : Fin 10) (link : Fin 34) (dir : LathDir) (seq : BitVec 12) (crcOk : Bool)
  /-- LATH_REPLAY (R191). On a CRC error or a missing acknowledgement, the sender replays from the first unacknowledged flit. -/
  | lathReplay (boundary : Fin 10) (link : Fin 34) (dir : LathDir)
  /-- LATH_LINK_RETIRE (R192). A lath link that exhausts its replays is retired and a spare is trained. -/
  | lathLinkRetire (boundary : Fin 10) (link : Fin 34)
  /-- LATH_SPARE_IN_SERVICE (R192). A spare lath link finishes training and carries the replay buffer in sequence. -/
  | lathSpareInService (boundary : Fin 10) (link : Fin 34)
  /-- GROUT_SINK_ANSWER (R210). The grout sink answers a request to an isolated NI within 8 NCLK. -/
  | groutSinkAnswer (id : TxId)
  /-- TIMEOUT_ISOLATION (R211). Three timeouts naming one NI within 1 ms isolate it. -/
  | timeoutIsolation (f : FieldId) (ni : NiId)
  /-- NET_ISOLATE (R211). A keyed write of NET_ISOLATE isolates an NI behind the grout sink. -/
  | netIsolate (value : Word)
  /-- COH_RDS (R226). The home serves a shared read by directory state. -/
  | cohRds (agent : AgentId) (ask : CohAsk)
  /-- COH_RDX (R225). The home grants ownership with data after invalidating other agents. -/
  | cohRdx (agent : AgentId) (ask : CohAsk)
  /-- COH_UPG (R225). The home upgrades a sharer to ownership without data. -/
  | cohUpg (agent : AgentId) (ask : CohAsk)
  /-- COH_INVX (R225). The home grants E without data after invalidating others. -/
  | cohInvx (agent : AgentId) (ask : CohAsk)
  /-- COH_RDC (R225). A non-caching read is served by snooping the owner or from memory. -/
  | cohRdc (id : TxId) (pa : BitVec 52)
  /-- COH_WRL (R225). A non-caching whole-line write invalidates holders and writes memory. -/
  | cohWrl (id : TxId) (pa : BitVec 52) (word : CodeWord)
  /-- COH_FLUSHL (R225). A line is flushed to memory and its directory entry freed. -/
  | cohFlushl (id : TxId) (pa : BitVec 52)
  /-- COH_ATOMIC (R225). A coherent atomic invalidates holders and is performed at the controller. -/
  | cohAtomic (id : TxId) (pa : BitVec 52) (op : AtomicOp) (off : Fin 64) (operand : DWord) (compare : DWord)
  /-- COH_WB (R229). A write-back is accepted at the home point as stale, crossing or applied. -/
  | cohWb (agent : AgentId) (pa : BitVec 52) (tag : BitVec 12) (tint : TintId)
  /-- COH_EVC (R232). A CXL clean eviction clears the agent's presence bit. -/
  | cohEvc (agent : AgentId) (pa : BitVec 52)
  /-- CXL_DIRTY_EVICT (R232). A CXL DirtyEvict is answered with GO_WritePull or GO_WritePull_Drop. -/
  | cxlDirtyEvict (n : SiteId) (pa : BitVec 52) (word : CodeWord)
  /-- CXL_CACHE_REQUEST (R231). The site port maps a CXL.cache message to its native coherence message. -/
  | cxlCacheRequest (n : SiteId) (req : CxlReq) (pa : BitVec 52) (word : CodeWord) (tag : BitVec 12)
  /-- SNOOP_SNPS (R227). A caching agent answers SnpS from its current state. -/
  | snoopSnps (agent : AgentId) (pa : BitVec 52)
  /-- SNOOP_SNPI (R227). A caching agent answers SnpI and goes to I. -/
  | snoopSnpi (agent : AgentId) (pa : BitVec 52)
  /-- SNOOP_SNPC (R227). A caching agent answers SnpC and keeps its state. -/
  | snoopSnpc (agent : AgentId) (pa : BitVec 52)
  /-- SNOOP_RESPONSE (R227). The home receives a snoop response and updates the directory and stale list. -/
  | snoopResponse (agent : AgentId) (pa : BitVec 52)
  /-- COH_CMP_RECEIVE (R228). A requesting agent receives its completion, takes the granted state and sends Ack. -/
  | cohCmpReceive (agent : AgentId) (pa : BitVec 52)
  /-- COH_ACK (R223). The requester's Ack unblocks the line and the next queued request is taken. -/
  | cohAck (src : CohAckFrom)
  /-- COH_HOLD (R233). The home sends Hold every 7,500 NCLK to a waiting requester. -/
  | cohHold (pa : BitVec 52)
  /-- SNOOP_TIMEOUT (R233). A snoop unanswered for 30,000 NCLK treats the agent's copy as lost. -/
  | snoopTimeout (agent : AgentId) (pa : BitVec 52)
  /-- ACK_TIMEOUT (R233). With no Ack 30,000 NCLK after the Cmp, the line is unblocked. -/
  | ackTimeout (pa : BitVec 52)
  /-- STALE_ENTRY_EXPIRY (R229). A stale-list entry not removed within 45,000 NCLK is dropped and logged. -/
  | staleEntryExpiry (f : FieldId) (index : Nat)
  /-- AGENT_DEAD (R234). An isolated caching agent is marked dead and the homes answer its snoops at once. -/
  | agentDead (agent : AgentId)
  /-- COH_FLUSH_GO (R237). A range flush sends FlushL for every directory entry of the range. -/
  | cohFlushGo (set : SetSel) (value : Word)
  /-- COH_FLUSH_DONE (R237). A range flush ends, STATE reads 2 and the completion is signalled. -/
  | cohFlushDone (set : SetSel)
  /-- SITE_BRINGUP_ATTEMPT (R244). A site bring-up attempt starts with the sideband check. -/
  | siteBringupAttempt (n : SiteId) (answered : Bool)
  /-- SITE_LINK_TRAINED (R244). A site's UCIe link trains, and descriptor exchange begins. -/
  | siteLinkTrained (n : SiteId) (modules : Fin 17) (rate : Fin 3)
  /-- SITE_ATTEMPT_TIMEOUT (R244). A site bring-up attempt exceeds 80 ms. -/
  | siteAttemptTimeout (n : SiteId)
  /-- DESC (R241). A chiplet sends one descriptor word, and the 64th triggers the stage 3 checks. -/
  | desc (n : SiteId) (payload : DWord)
  /-- SITE_IN_SERVICE (R244). A site completes bring-up, leaves the grout sink and sets READY. -/
  | siteInService (n : SiteId)
  /-- LIVE (R241). A LIVE message is received, or a FATAL one kills the site. -/
  | live (n : SiteId) (payload : DWord)
  /-- LIVE_TIMEOUT (R268). No LIVE message arrives for 4 ms and the site dies. -/
  | liveTimeout (n : SiteId)
  /-- BIND (R267). The hub sends BIND for a new binding. -/
  | bind (n : SiteId) (tag : Byte)
  /-- BOUND (R267). A chiplet confirms a binding with BOUND. -/
  | bound (n : SiteId) (tag : Byte)
  /-- BOUND_TIMEOUT (R267). A BOUND does not arrive in 1 ms, the load fails and the bindings that answered are undone. -/
  | boundTimeout (n : SiteId) (tag : Byte)
  /-- UNBIND (R267). The hub sends UNBIND and answers the tag's messages with status 0x9. -/
  | unbind (n : SiteId) (tag : Byte)
  /-- CLEARED (R267). A chiplet answers UNBIND with CLEARED, freeing the tag. -/
  | cleared (n : SiteId) (tag : Byte)
  /-- CLEARED_TIMEOUT (R267). CLEARED is late by 1 ms and the site dies with FAIL_CODE 0x0A. -/
  | clearedTimeout (n : SiteId) (tag : Byte)
  /-- SITE_POWER_SAMPLE (R253). The rail monitor samples a site every 10 µs and throttles or faults it. -/
  | sitePowerSample (n : SiteId) (sample : BitVec 10) (average : BitVec 10)
  /-- SITE_ADAPTER_RETRY_TIMEOUT (R240). A flit unrecovered for 2 µs makes the site port retrain the link. -/
  | siteAdapterRetryTimeout (x : SiteRetries)
  /-- SITE_RETRAIN_DONE (R240). A site link retrain ends with the remaining modules, or fails. -/
  | siteRetrainDone (n : SiteId) (modules : Fin 17) (passed : Bool)
  /-- SITE_DEATH (R268). A dead site's NI is isolated, its agents are marked dead and its invocations are halted. -/
  | siteDeath (n : SiteId) (code : Byte)
  /-- SITE_RAIL_REMOVAL (R268). 10 ms after a site's death, its rail power is removed. -/
  | siteRailRemoval (n : SiteId)
  /-- CREDIT (R256). A CREDIT message adds to an endpoint's credit and releases held writes. -/
  | credit (n : SiteId) (header : BitVec 128)
  /-- ENDPOINT_WRITE (R256). A write to a stream endpoint is held until credit allows it. -/
  | endpointWrite (n : SiteId) (id : TxId) (endpoint : Fin 16) (offset : BitVec 20) (words : List CodeWord)
  /-- SITE_RD (R262). A site stream read from a chiplet is translated and injected. -/
  | siteRd (n : SiteId) (header : BitVec 128)
  /-- SITE_WR (R262). A site stream write from a chiplet is checked, translated and injected. -/
  | siteWr (n : SiteId) (header : BitVec 128) (words : List CodeWord)
  /-- SITE_AT (R260). A site stream atomic from a chiplet is translated and performed. -/
  | siteAt (n : SiteId) (header : BitVec 128) (operand : CodeWord) (compare : DWord)
  /-- SITE_SIG (R264). A chiplet SIG is sent into the network as a signal. -/
  | siteSig (n : SiteId) (header : BitVec 128)
  /-- SITE_SIGNAL_TO_ENGINE (R265). A schedule signal to a binding slot becomes one SIG message to the chiplet. -/
  | siteSignalToEngine (id : TxId)
  /-- SITE_RESPONSE (R261). A chiplet's response completes a hub request, with statuses 0x8-0xB mapped to 0x6. -/
  | siteResponse (n : SiteId) (header : BitVec 128) (words : List CodeWord)
  /-- SITE_REQUEST_TIMEOUT (R266). A request to the chiplet unanswered for 10 µs completes with status 0x3. -/
  | siteRequestTimeout (n : SiteId) (tag : BitVec 12)
  /-- COH_REQ (R260). A native-profile site agent sends a coherence request through the site port. -/
  | cohReq (n : SiteId) (agent : Fin 6) (header : BitVec 128) (word : CodeWord)
  /-- COH_RSP (R260). A site agent's snoop response reaches the home. -/
  | cohRsp (n : SiteId) (agent : Fin 6) (header : BitVec 128) (word : CodeWord)
  /-- CXL_UNSUPPORTED (R257). An unsupported CXL request is answered with UR, GO-Err or poison, and logged. -/
  | cxlUnsupported (n : SiteId) (cls : CxlClass)
  /-- LINK_TRAINING (R271). A host port trains and enters service at the highest common rate and width. -/
  | linkTraining (port : PortId) (rate : Fin 7) (width : Fin 17) (flit : Bool)
  /-- LINK_SPEED_REACHED (R271). The link reaches 32 GT/s or more, SLOW clears and memory requests are accepted. -/
  | linkSpeedReached (port : PortId) (rate : Fin 7)
  /-- LINK_DOWN (R279). The link goes down, host-memory requests are answered with status 0x3 and a reset follows. -/
  | linkDown (port : PortId)
  /-- INTA_LEVEL_CHANGE (R277). PF0's interrupt level changes and Assert or Deassert INTA is sent. -/
  | intaLevelChange (port : PortId)
  /-- MSI_X_SEND (R278). A VF sends an MSI-X message after the write it announces. -/
  | msiXSend (port : PortId) (v : VfId) (vector : Fin 32)
  /-- ASPM_L1_ENTRY (R279). After L1_IDLE µs of idle, the port requests L1. -/
  | aspmL1Entry (port : PortId) (substate : Fin 3)
  /-- L0P_NARROW (R279). Low utilisation for 10 µs narrows the link under L0p. -/
  | l0pNarrow (port : PortId)
  /-- LINK_PM_EXIT (R279). A TLP to send wakes or widens the link. -/
  | linkPmExit (port : PortId)
  /-- SQ_TAIL (R283). A doorbell write sets the SQ tail and fetching proceeds. -/
  | sqTail (port : PortId) (v : VfId) (q : QueueId) (value : Word)
  /-- CQ_HEAD (R283). A doorbell write sets the CQ head and lets a held completion be written. -/
  | cqHead (port : PortId) (v : VfId) (q : QueueId) (value : Word)
  /-- QUEUE_ENABLE (R282). A write of ENABLE = 1 resets the queue pointers, sequence number and history. -/
  | queueEnable (port : PortId) (v : VfId) (q : QueueId) (value : Word)
  /-- QUEUE_DISABLE (R282). A write of ENABLE = 0 stops fetching and halts the taken invocation. -/
  | queueDisable (port : PortId) (v : VfId) (q : QueueId) (value : Word)
  /-- COMMAND_TAKE (R285). A fetched command is checked for read errors, sequence number and fields, and then started. -/
  | commandTake (port : PortId) (v : VfId) (q : QueueId)
  /-- COMPLETION_WRITE (R286). A completion is written to the CQ tail and the tail advances. -/
  | completionWrite (port : PortId) (v : VfId) (q : QueueId)
  /-- HOST_READ_COMPLETION (R289). A PCIe completion answers a hub read of host memory. -/
  | hostReadCompletion (port : PortId) (read : Nat) (result : HostRead)
  /-- HOST_READ_TIMEOUT (R289). Without a completion in 16 µs, the port answers the request with status 0x3. -/
  | hostReadTimeout (port : PortId) (read : Nat)
  /-- COMMAND_READ_RETRY (R289). A failed command entry read is retried 16 µs after the previous one. -/
  | commandReadRetry (port : PortId) (v : VfId) (q : QueueId)
  /-- BAR2_READ (R276). A host read through BAR2 is translated and answered from whole code words. -/
  | bar2Read (port : PortId) (v : VfId) (place : Bar2At) (bytes : Nat)
  /-- BAR2_WRITE (R276). A host write through BAR2 is translated and written, or dropped. -/
  | bar2Write (port : PortId) (v : VfId) (place : Bar2At) (poisoned : Bool) (bytes : List Byte)
  /-- INBOUND_UNSUPPORTED (R290). A request outside every BAR or to a function in D3hot completes with UR. -/
  | inboundUnsupported (port : PortId) (posted : Bool)
  /-- SPDM_REQUEST (R292). PF0 answers an SPDM request through DOE. -/
  | spdmRequest (port : PortId) (req : SpdmReq)
  /-- IDE_KM (R291). IDE keys are delivered or refreshed over an SPDM session. -/
  | ideKm (port : PortId) (stream : Fin 9) (key : BitVec 256)
  /-- LOCK_INTERFACE (R328). LOCK_INTERFACE moves a VF's interface to CONFIG_LOCKED. -/
  | lockInterface (port : PortId) (v : VfId)
  /-- PANEL_KEY_SET (R328). A sealed panel receives its panel authority key once in CONFIG_LOCKED. -/
  | panelKeySet (port : PortId) (v : VfId) (key : BitVec 384)
  /-- START_INTERFACE (R328). START_INTERFACE moves the interface to RUN and the sealed panel to Live. -/
  | startInterface (port : PortId) (v : VfId)
  /-- STOP_INTERFACE (R293). STOP_INTERFACE returns the interface to CONFIG_UNLOCKED and places the panel in dust sheet. -/
  | stopInterface (port : PortId) (v : VfId)
  /-- TDI_ERROR (R293). A forbidden configuration change moves the interface to ERROR and halts the panel. -/
  | tdiError (port : PortId) (v : VfId) (event : TdiEvent)
  /-- FLR (R294). A function level reset of a VF starts the reset of R294. -/
  | flr (port : PortId) (v : VfId)
  /-- FUNCTION_RESET_COMPLETE (R294). With arrays halted and writes done, the VF page resets, FRS is sent and the panel enters dust sheet. -/
  | functionResetComplete (port : PortId) (v : VfId)
  /-- BME_CLEAR (R425). Clearing Bus Master Enable stops the VF's requests and starts a reset. -/
  | bmeClear (port : PortId) (v : VfId)
  /-- VF_ENABLE_CLEAR (R295). Clearing VF Enable resets every VF of the port. -/
  | vfEnableClear (port : PortId)
  /-- D3HOT_ENTRY (R295). A function put in D3hot is reset, or PF0 stops answering BAR0. -/
  | d3hotEntry (port : PortId) (vf : Option VfId)
  /-- PF0_FLR (R295). An FLR of PF0 resets every VF and PF0's configuration. -/
  | pf0Flr (port : PortId)
  /-- HOT_RESET (R295). A hot reset resets every function and the configuration space of the port. -/
  | hotReset (port : PortId)
  /-- NUMVFS_WRITE (R273). A write of NumVFs while VF Enable is 0 sets the VF count, capped at 40. -/
  | numvfsWrite (port : PortId) (value : BitVec 16)
  /-- IMG_GO (R310). An image load request is checked and the reading phase starts. -/
  | imgGo (value : Word)
  /-- IMAGE_READ_DONE (R311). The image is staged and the waiting or checking phase begins. -/
  | imageReadDone (result : HostRead)
  /-- IMAGE_WAIT_END (R312). Every named element has entered service or failed, or 3 s have passed, and checking begins. -/
  | imageWaitEnd (expired : Bool)
  /-- IMAGE_CHECK_DONE (R311). Checking ends and the image is refused or applying starts. -/
  | imageCheckDone
  /-- BASE_IMAGE_APPLY (R303). A base image writes elements in service, pools, stencils, tints and coherence. -/
  | baseImageApply
  /-- PANEL_CREATE_APPLY (R314). A create image assigns arrays, grants and ranges, sends BIND and binds the VF. -/
  | panelCreateApply
  /-- PANEL_DESTROY_APPLY (R316). A destroy image places the panel in dust sheet. -/
  | panelDestroyApply
  /-- PANEL_REBIND_APPLY (R317). A rebind image replaces the panel's site bindings. -/
  | panelRebindApply
  /-- IMAGE_BINDING_DONE (R311). Every BOUND has arrived and the load reaches STATE 6. -/
  | imageBindingDone
  /-- DUST_HALT_END (R322). The panel's arrays have halted and its writes completed, and unbinding starts. -/
  | dustHaltEnd (p : PanelId)
  /-- DUST_UNBIND_END (R322). Every binding has cleared and the twin binding is withdrawn, and flushing starts. -/
  | dustUnbindEnd (p : PanelId)
  /-- DUST_FLUSH_END (R322). The coherent ranges are flushed and translation entries discarded. -/
  | dustFlushEnd (p : PanelId)
  /-- DUST_KEYS_END (R322). Key ranges are removed and data keys destroyed, and zeroing starts. -/
  | dustKeysEnd (p : PanelId)
  /-- DUST_ZERO_END (R322). Every pool-portion grant and array store is zeroed. -/
  | dustZeroEnd (p : PanelId)
  /-- DUST_RELEASE_END (R322). The panel's resources are released and the panel becomes Free. -/
  | dustReleaseEnd (p : PanelId)
  /-- SEALED_FILL_DONE (R326). The zero fill of a sealed panel's HBM grants ends and FILL clears. -/
  | sealedFillDone (p : PanelId)
  /-- OPKEY_ROTATE (R334). The operator keys are installed from a checked key block. -/
  | opkeyRotate (block : HostRead)
  /-- PANEL_AUTH_SET (R334). The key of an unsealed panel's authority is set and its counter zeroed. -/
  | panelAuthSet
  /-- PANEL_DESTROY (R334). A panel-authority command places the panel in dust sheet. -/
  | panelDestroy
  /-- BUNDLE_LOAD (R336). A sealed weight bundle is unwrapped, deciphered and written to a panel grant or commons region. -/
  | bundleLoad (bundle : HostRead)
  /-- COMMONS_DEFINE (R337). A commons region is defined, its keys generated and its copies marked. -/
  | commonsDefine
  /-- COMMONS_RELEASE (R337). An ungranted commons region is zeroed, its keys destroyed and it returns to Undefined. -/
  | commonsRelease
  /-- DEBUG_ENABLE (R334). The vendor opens or closes silicon-level debug. -/
  | debugEnable
  /-- PANEL_WRITE (R338). Host bytes are digest-checked and written into a panel grant. -/
  | panelWrite (data : HostRead)
  /-- LIFE_CYCLE_MAILBOX_REQUEST (R334). A mailbox command with OP 0x0A ends with RESULT 0x04. -/
  | lifeCycleMailboxRequest
  /-- DEBUG_READ (R340). The debug window reads a location, enciphering owned data. -/
  | debugRead
  /-- DEBUG_WRITE (R340). The debug window writes a location, or is refused. -/
  | debugWrite
  /-- TRACE_ENABLE (R341). Enabling the trace ring takes up base and size and zeroes TAIL and HEAD. -/
  | traceEnable (value : Word)
  /-- LCS_GO (R353). A life-cycle transition request is read, checked and burned into fuses. -/
  | lcsGo (value : Word) (request : HostRead) (burnFails : Option Nat)
  /-- RAS_FLOG_POP (R363). A write of RAS_FLOG_POP removes the oldest fault log entries. -/
  | rasFlogPop (value : Word)
  /-- FLOG_SEVERE_CLEAR (R363). A W1C write of SEVERE clears it unless a package fault holds. -/
  | flogSevereClear (value : Word)
  /-- PATCH_STORE_WRITE (R366). A patch record is written to the non-volatile store within 1 ms. -/
  | patchStoreWrite
  /-- PACKAGE_FAULT (R361). A class 5 fault halts all work, sends FATAL heartbeats and asserts FAULT_N. -/
  | packageFault (source : BitVec 5) (code : Byte)
  /-- TWIN_TRAINING (R374). A twin port trains and comes up at the widest permitted width. -/
  | twinTraining (k : PortId) (lanes : BitVec 34)
  /-- TWIN_LANE_RETIRE (R374). A failing twin lane is retired and the port drops to the next width. -/
  | twinLaneRetire (k : PortId) (lane : Fin 34)
  /-- TWIN_SPARE_IN_SERVICE (R374). A spare twin lane finishes training and the port returns to full width. -/
  | twinSpareInService (k : PortId) (lane : Fin 34)
  /-- TWIN_PORT_DARK (R374). All lanes of a twin port lose signal for 1 ms and it reads dark. -/
  | twinPortDark (k : PortId)
  /-- TWIN_FLIT_RECEIVE (R375). A twin flit is received, checked and acknowledged. -/
  | twinFlitReceive (k : PortId) (seq : BitVec 12) (ack : BitVec 12) (crcOk : Bool)
  /-- TWIN_REPLAY (R375). On a CRC error or a missing acknowledgement, the twin sender replays. -/
  | twinReplay (k : PortId)
  /-- TWIN_RETRAIN (R375). A flit unacknowledged after four replays makes the port retrain. -/
  | twinRetrain (k : PortId)
  /-- TWIN_RD (R377). A remote read arrives, is checked against windows and injected locally. -/
  | twinRd (k : PortId) (header : BitVec 128)
  /-- TWIN_WR (R377). A remote write arrives, is checked and injected locally. -/
  | twinWr (k : PortId) (header : BitVec 128) (words : List CodeWord)
  /-- TWIN_AT (R377). A remote atomic arrives, is checked and injected locally. -/
  | twinAt (k : PortId) (header : BitVec 128) (operand : CodeWord) (compare : DWord)
  /-- TWIN_SIG (R377). A remote signal arrives and is applied to the binding's panel. -/
  | twinSig (k : PortId) (header : BitVec 128)
  /-- TWIN_RESPONSE (R377). A twin response reaches the initiator's port and answers the original request. -/
  | twinResponse (k : PortId) (header : BitVec 128) (words : List CodeWord)
  /-- TWIN_REMOTE_BOUND (R377). The receiving port answers status 0x3 when its local leg exceeds 10 µs. -/
  | twinRemoteBound (k : PortId) (id : TxId)
  /-- TWIN_LOCAL_BOUND (R377). The initiator's port answers status 0x3 after 16 µs without a response. -/
  | twinLocalBound (k : PortId) (id : TxId)
  /-- LEVEL (R378). A LEVEL message sets the partner identity and the negotiated twin level. -/
  | level (k : PortId) (payload : BitVec 512)
  /-- KEYX (R379). A KEYX message carries certificate and ECDH parts toward the secure session. -/
  | keyx (k : PortId) (part : BitVec 16) (last : Bool) (bytes : List Byte)
  /-- CKPT (R381). A shadow writes a checkpoint code word to its range. -/
  | ckpt (k : PortId) (header : BitVec 128) (words : List CodeWord)
  /-- CKPT_MARK (R382). A shadow receives an epoch mark and answers CKPT_ACK when earlier writes are acknowledged. -/
  | ckptMark (k : PortId) (header : BitVec 128) (epoch : DWord)
  /-- CKPT_ACK (R382). The primary receives an epoch acknowledgement and releases the held completion. -/
  | ckptAck (k : PortId) (header : BitVec 128) (epoch : DWord)
  /-- BIND_QUERY (R383). The partner answers a binding query with BIND_REPLY. -/
  | bindQuery (k : PortId) (header : BitVec 128) (payload : BitVec 512)
  /-- BIND_REPLY (R388). A reply completes a seed check, or with 0xFF returns the binding to unseeded. -/
  | bindReply (k : PortId) (header : BitVec 128) (payload : BitVec 512)
  /-- HEART (R385). A heartbeat arrives from the partner and clears SILENT. -/
  | heart (k : PortId) (fatal : Bool) (count : BitVec 16)
  /-- HEART_SEND (R385). Each twin port in service sends HEART every 10 ms. -/
  | heartSend (k : PortId)
  /-- HEART_SILENCE (R385). 100 ms without HEART sets SILENT and drives fencing and promotion. -/
  | heartSilence
  /-- TWIN_PORT_RETURN (R385). A port returns before silence and a DESYNC mark returns both sides to unseeded. -/
  | twinPortReturn (k : PortId)
  /-- SEED (R383). TWN_CONTROL SEED queries the shadow and starts mirroring and the seed scan. -/
  | seed (value : Word)
  /-- SEED_SCAN_DONE (R383). Every range has been read and a SEED mark with EPOCH 0 is sent. -/
  | seedScanDone (b : BindId)
  /-- SEED_QUERY_TIMEOUT (R387). The partner does not answer a seed query in 1 ms and the seed is refused. -/
  | seedQueryTimeout
  /-- PROMOTE (R387). TWN_CONTROL PROMOTE promotes a seeded shadow. -/
  | promote (value : Word)
  /-- UNFENCE (R387). TWN_CONTROL UNFENCE returns a fenced primary to state 6. -/
  | unfence (value : Word)
  /-- FENCE (R387). TWN_CONTROL FENCE halts the primary and fences it once marked epochs are acknowledged. -/
  | fence (value : Word)
  /-- PWRGD_RISE (R392). The last power-good input rises and the hub leaves reset. -/
  | pwrgdRise (pin : PowerGood)
  /-- PWRGD_FALL (R393). A power-good input falls, FATAL heartbeats are sent and the hub enters reset. -/
  | pwrgdFall (pin : PowerGood)
  /-- PKG_RESET_ASSERT (R395). PKG_RESET_N goes low and the package enters reset. -/
  | pkgResetAssert
  /-- PKG_RESET_RELEASE (R392). PKG_RESET_N is released and boot begins when power is good. -/
  | pkgResetRelease
  /-- PERST_ASSERT (R395). A PERST input goes low and resets its port. -/
  | perstAssert (port : PortId)
  /-- PERST_RELEASE (R395). A PERST input is released and its port trains. -/
  | perstRelease (port : PortId)
  /-- BOOT_STAGE_DONE (R396). A boot stage completes and the next stage starts. -/
  | bootStageDone (passed : Bool)
  /-- SITE_EN_SLOT (R394). At its 2 ms slot, the hub asserts SITE_EN for the next populated site. -/
  | siteEnSlot
  /-- SITE_PG_RISE (R394). SITE_PG rises and site bring-up starts. -/
  | sitePgRise (n : SiteId)
  /-- SITE_PG_WAIT_TIMEOUT (R394). 20 ms after SITE_EN, site bring-up starts anyway. -/
  | sitePgWaitTimeout (n : SiteId)
  /-- SITE_PG_FALL (R394). SITE_PG of a site in service falls and is logged. -/
  | sitePgFall (n : SiteId)
  /-- REFCLK_LOSS (R398). The reference stops or departs by 1,000 ppm, raising a package fault. -/
  | refclkLoss
  /-- PLL_LOCK_LOSS (R398). A synthesiser or PLL loses lock, faulting the package, a site or a twin port. -/
  | pllLockLoss (pll : PllSel)
  /-- POWER_SAMPLE (R402). Every 1 µs power is measured and the issue allowance D is adjusted. -/
  | powerSample (p1 : BitVec 13) (p10 : BitVec 13) (tenMicroseconds : Bool) (belowFor100 : Bool) (floorFor10ms : Bool)
  /-- TEMP_SAMPLE (R404). Every 1 µs the die sensors are read and TMAX is updated. -/
  | tempSample (sensors : Vector Byte 32) (hotFor1ms : Bool)
  /-- PWR_LIMIT_WRITE (R406). A write of PWR_LIMIT sets the limit, clamped to 1,500-4,300 W. -/
  | pwrLimitWrite (value : Word)
  /-- PWR_THERM_WRITE (R406). A write of THROT_C sets the throttle threshold, clamped to 80-105 °C. -/
  | pwrThermWrite (value : Word)
  /-- I3C_PRIVATE_WRITE (R409). An I3C private write sets a register offset or writes a permitted register. -/
  | i3cPrivateWrite (bytes : List Byte)
  /-- I3C_PRIVATE_READ (R409). An I3C private read returns the register at the set offset. -/
  | i3cPrivateRead
  /-- I3C_DYNAMIC_ADDRESS (R409). The target accepts a dynamic address by SETDASA, SETAASA or ENTDAA. -/
  | i3cDynamicAddress (method : I3cAssign) (address : BitVec 7)
  /-- TAP_INSTRUCTION (R410). The test access port loads an instruction, selecting BYPASS for closed chains. -/
  | tapInstruction (instr : TapInstr)
  /-- REGISTER_WRITE (R8). A write to a register with no row of its own acts by its access codes. -/
  | registerWrite (port : PortId) (place : HostAt) (size : Nat) (value : Word)
  /-- RESERVED_EXTENT_ACCESS (R413). An access to a reserved extent reads zero or is discarded, and is logged. -/
  | reservedExtentAccess (port : PortId) (off : BitVec 28) (kind : SizedAccess)
  /-- SPACE5_ACCESS (R414). A hub agent reaches a register through physical space 5. -/
  | space5Access (pa : BitVec 52) (write : Bool) (size : Nat) (value : Word)
  /-- TWIN_RETRAIN_DONE (R375). A twin port retrain ends, and the port returns to up or fails as a class 4 event. -/
  | twinRetrainDone (k : PortId) (passed : Bool)
  /-- FIELD_SELF_TEST_DONE (R400). A field's self-test of its arrays, field controller, translation unit and home slice ends, and GLB_READY.FIELD can be set. -/
  | fieldSelfTestDone (f : FieldId)
  /-- WBACK (R220). A caching agent receives WbAck and releases the line from its write-back buffer. -/
  | wback (agent : AgentId) (pa : BitVec 52)
  /-- CORE_HARDWARE_FAULT (R89). A vector core hardware fault 0x24 is served by the array's spare core, or retires the array, and the step is re-run. -/
  | coreHardwareFault (a : ArrayId) (core : Fin 17)
  /-- MOVER_HARDWARE_FAULT (R89). A stream mover hardware fault 0x33 retires the array, patches in a wear spare and re-runs the step. -/
  | moverHardwareFault (a : ArrayId) (channel : Fin 8)
  /-- BUS_MASTER_ENABLE_SET (R425). Bus Master Enable of a VF is set to 1, and the held command fetch, completion writes, fault records and MSI-X messages of the VF go ahead. -/
  | busMasterEnableSet (port : PortId) (v : VfId)
  /-- UNDEFINED_MAILBOX_OP (R335). A mailbox GO with an undefined OP, or with OP 0x01, ends with RESULT 0x03. -/
  | undefinedMailboxOp (value : Word)
  deriving DecidableEq, Repr

end Sys2Proof
end

