-- ==== Sys2Proof/Decode.lean ====
section
/-!
DEFINITION. The reading of a command from table bits. No row of spec/opcode_table.json gives bits: a command reaches
the block as an event, so no word spells one.
-/

namespace Sys2Proof

/-- The command a word of `nbits` bits spells by the table's bits: none, since no row gives any. -/
def decodeTableWord (_nbits _w : Nat) : Option Instr := none

end Sys2Proof
end

