-- ==== Sys2Proof/Machine/Bits.lean ====
section
/-!
DEFINITION. Bit fields, byte order, vectors by number, and the CRC-32 of the manual: the helpers that every family uses.
-/

namespace Sys2Proof.Machine

/-- Entry `i` of a vector replaced. -/
def vset {α : Type} {n : Nat} (v : Vector α n) (i : Fin n) (x : α) : Vector α n := v.set i.val x i.isLt

/-- Entry `i` of a vector changed by `f`. -/
def vmod {α : Type} {n : Nat} (v : Vector α n) (i : Fin n) (f : α → α) : Vector α n := vset v i (f v[i])

/-- Every number of an element type, in rising order. -/
def allFin (n : Nat) : List (Fin n) := List.ofFn fun i => i

/-- The field of `len` bits whose lowest bit is `lo`. -/
def fld (w lo len : Nat) : Nat := (w >>> lo) % 2 ^ len

/-- Bits `hi` down to `lo` of a word. -/
def slice {n : Nat} (w : BitVec n) (hi lo : Nat) : BitVec (hi + 1 - lo) := BitVec.ofNat _ (w.toNat >>> lo)

/-- One bit of a word. -/
def bit {n : Nat} (w : BitVec n) (i : Nat) : Bool := w.getLsbD i

/-- A Bool as a bit at place `i` of a number. -/
def flag (b : Bool) (i : Nat) : Nat := if b then 2 ^ i else 0

/-- Bit `i` of a word set to `b`. -/
def setBit {n : Nat} (w : BitVec n) (i : Nat) (b : Bool) : BitVec n :=
  if b then w ||| BitVec.ofNat n (2 ^ i) else w &&& ~~~BitVec.ofNat n (2 ^ i)

/-- How many bits of a word are 1. -/
def popCount {n : Nat} (w : BitVec n) : Nat := (List.range n).countP fun i => w.getLsbD i

/-- The numbers of the bits of a word that are 1, rising. -/
def onBits {n : Nat} (w : BitVec n) : List Nat := (List.range n).filter fun i => w.getLsbD i

/-- A counter that stays at its highest value. -/
def satAdd {n : Nat} (w : BitVec n) (k : Nat) : BitVec n := BitVec.ofNat n (min (w.toNat + k) (2 ^ n - 1))

/-- The `n` bytes of a number, lowest address first (the manual is little-endian throughout). -/
def bytesOf (n : Nat) (x : Nat) : List Byte :=
  match n with
  | 0 => []
  | k + 1 => BitVec.ofNat 8 x :: bytesOf k (x >>> 8)

/-- The number that bytes spell, lowest address first. -/
def natOf : List Byte → Nat
  | [] => 0
  | b :: bs => b.toNat + 256 * natOf bs

/-- The 64 data bytes of a code word. -/
def wordBytes (w : BitVec 512) : List Byte := bytesOf 64 w.toNat

/-- A code word's data from its bytes. -/
def bytesWord (bs : List Byte) : BitVec 512 := BitVec.ofNat 512 (natOf bs)

/-- `w` with `bs` stored from byte `off` on. -/
def putBytes (w : BitVec 512) (off : Nat) (bs : List Byte) : BitVec 512 :=
  bytesWord ((wordBytes w).take off ++ bs ++ (wordBytes w).drop (off + bs.length))

/-- Bytes cut into code words of 64, the last filled with zeros. -/
def toWords (n : Nat) (bs : List Byte) : List (BitVec 512) :=
  match n with
  | 0 => []
  | k + 1 => bytesWord (bs.take 64) :: toWords k (bs.drop 64)

/-- One bit of CRC-32, reflected, polynomial 0x04C11DB7. -/
def crcBit (c : Word) : Word := if c.getLsbD 0 then (c >>> 1) ^^^ 0xEDB88320#32 else c >>> 1

/-- One byte of CRC-32. -/
def crcByte (c : Word) (b : Byte) : Word :=
  crcBit (crcBit (crcBit (crcBit (crcBit (crcBit (crcBit (crcBit (c ^^^ b.setWidth 32))))))))

/-- CRC-32 as the manual uses it (R299): initial value and final exclusive-or all ones. -/
def crc32 (bs : List Byte) : Word := ~~~(bs.foldl crcByte 0xFFFFFFFF#32)

/-- Elements of a list dropped from the first that meets `p`; none where no element does. -/
def takeFirst {α : Type} (p : α → Bool) : List α → Option (α × List α)
  | [] => none
  | x :: xs => if p x then some (x, xs) else (takeFirst p xs).map fun r => (r.1, x :: r.2)

/-- The first element that meets `p` replaced by `f` of it. -/
def modFirst {α : Type} (p : α → Bool) (f : α → α) : List α → List α
  | [] => []
  | x :: xs => if p x then f x :: xs else x :: modFirst p f xs

/-- A Nat taken as an element number: its low residue. -/
def asFin (n : Nat) [NeZero n] (k : Nat) : Fin n := Fin.ofNat n k

end Sys2Proof.Machine
end

