-- ==== Sys2Proof/Config.lean ====
section
/-!
DEFINITION. What the manual leaves open (free values: constants without a body), and the published algorithms that
the manual names but does not spell out (uninterpreted functions; assumption log 3).
-/

namespace Sys2Proof.Config

/-- R130: what a read makes of a word (its data and mark pattern, then its symbol errors) with more symbols in error
than the manual answers for. `none`: the error is detected, and the word is uncorrectable. `some`: it is not, and the
word reads as that ordinary data, as clean or as corrected in the symbol named. -/
opaque multiError : BitVec 512 → BitVec 2 → BitVec 544 → Option (BitVec 512 × Option (Fin 68))

/-- R35: the fresh uniformly distributed 16-bit value of stochastic rounding, for a draw number. -/
opaque roundingBits : Nat → BitVec 16

/-- R164: which entry of a full translation cache makes room; the manual names no policy. -/
opaque cacheVictim : Nat → Nat

/-- R164: the set of the field TLB for a panel and page number; the manual gives no index. -/
opaque tlbSet : Nat → Nat → Nat

/-- R76, R164: which line or entry a cache gives up when it takes another; the manual names no policy. -/
opaque cacheDrop : Nat → Option Nat

/-- What an answer from outside the package carries when an engine's own command brings it: the 64 bytes, their mark,
whether it answered at all, and the status it gave (assumption log 8). -/
opaque outsideWord : Nat → BitVec 512
opaque outsideMark : Nat → Bool
opaque outsideAnswers : Nat → Bool
opaque outsideStatus : Nat → BitVec 4

/-- R227: how a site's agent answers a snoop within an engine's own command: whether its data is dirty, whether it holds the
line at all, and the write-back it answers from. -/
opaque outsideDirty : Nat → Bool
opaque outsideAbsent : Nat → Bool
opaque outsideWbTag : Nat → Option (BitVec 12)

/-- R218: the set of a field cache for a line; the manual gives no index. -/
opaque cacheSet : Nat → Nat

/-- R197: the tint of a home's own writes that no request caused; the manual gives none. -/
opaque homeTint : Fin 16

/-- R257: the sizes of the BARs that a chiplet's one function reports; the chiplet decides. -/
opaque barSizes : Fin 8 → List Nat

/-- R272: what the registers of the configuration space hold where neither the manual nor PCI Express gives a value (of a VF
or of PF0, by offset); the capability ID of the 128.0 GT/s physical layer; and the Device Serial Number. -/
opaque cfgWord : Bool → Nat → BitVec 32
opaque physicalLayer128 : BitVec 16
opaque serialNumber : BitVec 64

/-- What a read of host memory brings when a register write starts it, and the fuse burns that then fail (R334, R359,
assumption log 70). -/
opaque hostData : Nat → HostRead
opaque burnFails : Nat → Option Nat

/-- R222: the directory set of a line; the manual gives no index. -/
opaque dirSet : Nat → Nat

/-- R67: contents of a context's registers when a launch starts it; only s0 is given by R83. -/
opaque laneInit : Nat → Nat → Nat → BitVec 32
opaque scalarInit : Nat → Nat → BitVec 64
opaque predicateInit : Nat → Nat → BitVec 64

/-- Bytes of a local store or code store that nothing has written; the manual gives them no value. -/
opaque storeInit : Nat → BitVec 64

/-- R340: what the debug window finds in an array store whose layout the manual does not give. -/
opaque storeBytes : Nat → BitVec 512
opaque storeMarks : Nat → Bool

/-- R69: which of the results within 2 units in the last place of the exact one a special function gives; any value
where the manual states none. -/
opaque exp2 : BitVec 32 → BitVec 32
opaque log2 : BitVec 32 → BitVec 32
opaque recip : BitVec 32 → BitVec 32
opaque rsqrt : BitVec 32 → BitVec 32

/-- R69: results of the FP32 class that the manual does not state (min, max and compare with a NaN). -/
opaque fpOpen : BitVec 32 → BitVec 32 → BitVec 32

/-- R69: conversion of a NaN to a format without one. -/
opaque nanConvert : BitVec 32 → BitVec 32

/-- R68: a shift by 32 or more, and a sum over the lanes of a context, whose order of rounding is not given. -/
opaque shiftOpen : BitVec 32 → BitVec 32 → BitVec 32
opaque reduceAdd : List (BitVec 32) → BitVec 32

/-- R112: which DRAM banks and rows of a pseudo-channel hold its strips. -/
opaque dramBank : Nat → Nat
opaque dramRow : Nat → Nat

/-- R184: the hash of a code word's number that chooses a link of a trunk. -/
opaque linkHash : Nat → Nat

/-- R119: the number of refresh intervals JEDEC HBM4 permits to be postponed. -/
opaque refreshLimit : Nat

/-- R67, R71: lane and branch behaviour whose encoding the manual leaves to Scexel: the lane a shuffle takes from. -/
opaque shuffleLane : BitVec 64 → Nat → Nat

/-- R352, R345, R324: values of the security root's random source, for a draw number. -/
opaque random256 : Nat → BitVec 256
opaque randomKey : Nat → BitVec 512

/-- R405-R406: reference offset measured against the AUX oscillator. -/
opaque refPpm : Nat → BitVec 16

/-! Published cryptographic algorithms named by the manual (assumption log 3). -/
opaque sha384 : List Byte → BitVec 384
opaque hmacSha384 : BitVec 384 → List Byte → BitVec 384
opaque hkdf : (salt ikm info : List Byte) → BitVec 384
opaque ecdsaP384 : (pub : List Byte) → (digest : BitVec 384) → (sig : List Byte) → Bool
opaque mlDsa65 : (pub : List Byte) → (digest : BitVec 384) → (sig : List Byte) → Bool
opaque keyUnwrap : (key : BitVec 256) → (wrapped : List Byte) → Option (List Byte)
opaque gcmOpen : (key : BitVec 256) → (nonce aad body tag : List Byte) → Option (List Byte)
opaque xtsEncrypt : (keys : BitVec 512) → (unit : BitVec 128) → BitVec 512 → BitVec 512
opaque xtsDecrypt : (keys : BitVec 512) → (unit : BitVec 128) → BitVec 512 → BitVec 512
opaque ecdhX : (privateKey : BitVec 384) → (peer : List Byte) → BitVec 384
opaque chainValid : List Byte → Option (BitVec 256)

/-- R379: the certificate chain of slot 0 and the signed ephemeral key that a KEYX exchange sends, for a draw number. -/
opaque twinKeyx : Nat → List Byte

/-- R301, R350: the public keys fused or held in the boot ROM. -/
opaque lifeCycleEcdsaKey : List Byte
opaque lifeCycleMlDsaKey : List Byte

/-- R329, R409, R410: answers whose content lies outside the manual. -/
opaque certificate : Nat → List Byte
opaque tdispCapabilities : List Byte
opaque reportHead : List Byte
opaque reportingOffset : BitVec 64
opaque firmwareMeasurement : BitVec 384
opaque manufacturerCode : BitVec 11

end Sys2Proof.Config
end

