-- ==== Sys2Proof/Machine/State.lean ====
section
/-!
DEFINITION. The state of the UH9624: every register, store, queue, buffer and pin the manual gives it, as plain data,
and the machine right after reset.
-/

namespace Sys2Proof.Machine

/-! ## Shared records -/

/-- A fault record in the manner of ARR_FAULT and SEQ_FAULT (R63, R101). SOURCE is unused in ARR_FAULT. -/
structure FaultRec where
  valid : Bool := false
  overflow : Bool := false
  source : BitVec 3 := 0
  code : Byte := 0
  info : BitVec 16 := 0
  deriving DecidableEq, Repr

/-- What a stored code word holds besides symbol errors (R131). -/
inductive StoredClass where
  | plain | poison | unwritten
  deriving DecidableEq, Repr

/-- A code word as a tier stores it: data, mark, and the pattern of symbols in error (R130, R131). -/
structure StoredWord where
  data : BitVec 512
  cls : StoredClass
  err : BitVec 544
  deriving DecidableEq, Repr

/-- A 32-bit value with its poison mark: an accumulator, an exchange element, a vector lane, a raw operand element. -/
structure Elem where
  bits : Word
  mark : Bool
  deriving DecidableEq, Repr

/-- The valid rows and columns of a tile, row-major; masked rows and columns are left out (R40). -/
abbrev Tile := List (List Elem)

/-- A panel's submission queue: port, VF, queue. It names an invocation, since a queue runs one at a time (R96). -/
structure QRef where
  port : PortId
  vf : VfId
  q : QueueId
  deriving DecidableEq, Repr

/-! ## Translation faults, R172 to R178 -/

/-- The engine named in a fault record: words 1's fields. -/
structure EngineKey where
  engine : BitVec 4
  field : BitVec 3
  logical : BitVec 6
  phys : BitVec 6
  sub : BitVec 13
  deriving DecidableEq, Repr

/-- A translation fault on its way to the fault ring. -/
structure FaultInfo where
  key : EngineKey
  type : BitVec 4
  access : BitVec 4
  level : BitVec 4
  va : BitVec 55
  entry : DWord
  stepId : BitVec 24
  midtile : Bool
  held : Bool
  time : DWord
  stalls : Bool
  deriving DecidableEq, Repr

/-- A stalled engine: its fault, and its TOKEN once the record has been written (R172). -/
structure StallRec where
  info : FaultInfo
  token : Option (BitVec 16)
  deriving DecidableEq, Repr

/-- A panel's ring writer. -/
structure RingWriter where
  arrivals : List FaultInfo := []
  heldRecords : List FaultInfo := []
  stalled : List StallRec := []
  lastToken : BitVec 16 := 0
  stopped : Bool := false
  deriving DecidableEq, Repr

/-! ## Arrays: cube grid (chapter Cube arrays) -/

inductive SlotPhase where
  | free | running | queued
  deriving DecidableEq, Repr

/-- An accumulator slot (R23, R55). `rowBase` and `colBase` place the tile in C. -/
structure AccSlot where
  phase : SlotPhase := .free
  tile : Tile := []
  serial : Nat := 0
  rowBase : Nat := 0
  colBase : Nat := 0
  deriving DecidableEq, Repr

inductive StatPhase where
  | empty | filling | valid
  deriving DecidableEq, Repr

/-- A stationary slot (R45): the format, K and N of its load, and its elements by column with their block scales. -/
structure StatSlot where
  phase : StatPhase := .empty
  fmt : BitVec 4 := 0
  k : Nat := 0
  n : Nat := 0
  cols : List (List Elem) := []
  scales : List (List Elem) := []
  deriving DecidableEq, Repr

/-- A cube instruction issued and not retired, with the descriptors it read at issue (R51). `cut` tells that a halt
interrupted it and only its queued drains are left (R48). -/
structure CubeOp where
  serial : Nat
  word : BitVec 128
  aDesc : BitVec 256
  bDesc : BitVec 256
  cDesc : BitVec 256
  sDesc : BitVec 256
  passes : Nat
  started : Nat
  ended : Nat
  drained : Nat
  stalled : Bool
  cut : Bool
  pc : BitVec 55
  deriving DecidableEq, Repr

/-- An incomplete output code word of one row held in the merge buffer (R42), and the instruction whose row it is. -/
structure MergeEntry where
  serial : Nat
  row : Nat
  bytes : List Byte
  mark : Bool
  deriving DecidableEq, Repr

/-- An exchange slot (R74) and the contexts (core × 64 + context) that have ended their work on it. -/
structure ExchSlot where
  full : Bool := false
  order : Nat := 0
  tile : Tile := []
  doneBy : List Nat := []
  deriving DecidableEq, Repr

/-- What one half of an operand store holds (R23): the valid elements by row of A or column of B, and their scales. -/
structure Operand where
  rows : Tile := []
  scales : Tile := []
  deriving DecidableEq, Repr

/-- What a halt that has been asked for leaves the sequencer in: a debug halt (R102), any other request of R93, an
attempt that will be re-run (R89), a debug halt asked for while such an attempt ends, or a step ended by a fault
(R90). -/
inductive HaltKind where
  | debug | other | rerun | rerunDebug | fault
  deriving DecidableEq, Repr

/-- The cube grid of one array. `aHalf` and `bHalf` name the half of each operand store (R23) loaded last. -/
structure CubeState where
  halted : Bool := false
  stopped : Bool := false
  pass : BitVec 24 := 0
  passes : DWord := 0
  fault : FaultRec := {}
  numeric : BitVec 5 := 0
  descs : Vector (BitVec 256) 64 := Vector.replicate 64 0
  stat : Vector StatSlot 2 := Vector.replicate 2 {}
  acc : Vector AccSlot 4 := Vector.replicate 4 {}
  drainQ : List (Fin 4) := []
  merge : List MergeEntry := []
  ops : List CubeOp := []
  nextSerial : Nat := 0
  exch : Vector ExchSlot 4 := Vector.replicate 4 {}
  exchOrder : Nat := 0
  haltReq : Option HaltKind := none
  aStore : Vector Operand 2 := Vector.replicate 2 {}
  bStore : Vector Operand 2 := Vector.replicate 2 {}
  aHalf : Fin 2 := 0
  bHalf : Fin 2 := 0
  deriving DecidableEq, Repr

/-! ## Arrays: sequencer, vector cores, mover (chapter Vector cores, threads and schedules) -/

/-- An open loop: where its body starts and the iterations left, the current one included (R81). -/
structure LoopFrame where
  start : BitVec 55
  left : Nat
  inStep : Bool
  deriving DecidableEq, Repr

/-- The sequencer of one array. -/
structure SeqState where
  state : BitVec 4 := 0
  attempt : BitVec 2 := 0
  stepId : BitVec 24 := 0
  pc : BitVec 55 := 0
  ir : Option (BitVec 128) := none
  loops : List LoopFrame := []
  savedLoops : List LoopFrame := []
  stepPc : BitVec 55 := 0
  waits : DWord := 0
  waitIdx : Nat := 4
  stepOpen : Bool := false
  atomic : Bool := false
  atomicIssued : Bool := false
  afterStepend : Bool := false
  commitSignals : List Word := []
  inv : Option QRef := none
  argBase : BitVec 55 := 0
  sems : Vector (BitVec 16) 64 := Vector.replicate 64 0
  wdRunning : Bool := false
  wdRemain : Nat := 0
  wdSince : Nat := 0
  lastReport : Nat := 0
  singleStep : Bool := false
  stalled : Bool := false
  ended : Bool := false
  failStatus : Option (BitVec 3) := none
  fault : FaultRec := {}
  deriving DecidableEq, Repr

structure SReg where
  bits : DWord
  mark : Bool
  deriving DecidableEq, Repr

structure PReg where
  bits : DWord
  marks : DWord
  deriving DecidableEq, Repr

/-- An allocated hardware thread context (R67). Registers that a context has written since its launch are listed;
every other register holds the free initial value of Config. `owed` lists the lanes of registers that atomics in flight
will write (R68, R73); `starved` tells that its VTX found no tile (R66, R74). -/
structure Ctx where
  core : Fin 16
  idx : Fin 64
  pc : Nat
  launch : Nat
  birth : Nat
  v : List (Nat × Elem) := []
  sregs : List (Nat × SReg) := []
  p : List (Nat × PReg) := []
  ended : Bool := false
  stalled : Bool := false
  owed : List Nat := []
  starved : Bool := false
  deriving DecidableEq, Repr

/-- A vector launch issued and not retired (R83, R74). -/
structure Launch where
  serial : Nat
  trigger : Bool
  tilesLeft : Nat
  contexts : Nat
  pc : BitVec 55
  deriving DecidableEq, Repr

/-- A word of the kernel code store with its mark. -/
structure CodeEntry where
  bits : DWord
  mark : Bool
  deriving DecidableEq, Repr

/-- The vector cores of one array (R66, R67). Local stores and the code store list what has been written; `zeroed` says
that everything else in them is zero since dust sheet (R322). -/
structure VecState where
  active : BitVec 17
  spare : BitVec 5
  codeStore : List (Nat × CodeEntry) := []
  ctxs : List Ctx := []
  lastIssued : Vector (Fin 64) 16 := Vector.replicate 16 63
  localStore : List (Nat × Elem) := []
  launches : List Launch := []
  nextLaunch : Nat := 0
  zeroed : Bool := false
  deriving DecidableEq, Repr

/-- A move issued and not retired (R84). -/
structure MoveOp where
  serial : Nat
  channel : Fin 8
  desc : BitVec 512
  next : Nat
  done : Bool
  stalled : Bool
  pc : BitVec 55
  deriving DecidableEq, Repr

/-- One physical array. -/
structure ArrayState where
  st : BitVec 3 := 0
  panel : Option PanelId := none
  logical : BitVec 6 := 0x3F
  mode : Bool := false
  defaultMode : Bool := false
  patched : Bool := false
  corePatched : Bool := false
  selfTested : Bool := false
  cube : CubeState := {}
  seq : SeqState := {}
  vec : VecState := { active := 0xFFFF, spare := 16 }
  moves : List MoveOp := []
  nextMove : Nat := 0
  deriving DecidableEq, Repr

/-! ## Memory tiers (chapters Fast tier and HBM stacks, Stored data integrity) -/

/-- A network read waiting at a pseudo-channel or bank (R116, R118). `passed` counts younger reads served before it. -/
structure WaitingRead where
  id : TxId
  key : Nat
  count : Nat
  prio : Nat
  critical : Bool
  arrived : Nat
  passed : Nat
  deriving DecidableEq, Repr

/-- A code word in a write queue, not yet in the stack (R117). -/
structure QueuedWrite where
  key : Nat
  word : CodeWord
  deriving DecidableEq, Repr

/-- An access, or the part of one that lies in a row of the bank (R114), waiting at a fast-tier bank (R118): its address,
and which code word of the request comes first in it. -/
structure BankAccess where
  id : TxId
  key : Nat
  count : Nat
  words : List CodeWord
  isWrite : Bool
  prio : Nat
  critical : Bool
  arrived : Nat
  pa : BitVec 52
  first : Nat
  deriving DecidableEq, Repr

/-- A retired HBM page and the spare page that holds it (R151). -/
structure PageMap where
  pc : PcId
  page : Nat
  spare : Nat
  deriving DecidableEq, Repr

inductive TrainStage where
  | idle | portCheck | laneRepair | hardRepair | interface | channelCheck | fill | selfTest | done | failed
  deriving DecidableEq, Repr

/-- One stack and its controller (R128, R129, R150, R151). `mapped` tells that it counts in the mapping before a base image
is loaded: it has been in service, and has not failed (R124, R129). -/
structure StackState where
  ready : Bool := false
  mapped : Bool := false
  state : BitVec 3 := 0
  attempt : BitVec 2 := 0
  rate : BitVec 2 := 0
  failCode : Byte := 0
  stage : TrainStage := .idle
  pcActive : BitVec 7 := 0
  excluded : Word := 0
  fenced : Word := 0
  tempMax : Byte := 0
  tempCur : Byte := 0
  hot : Bool := false
  crit : Bool := false
  refreshRate : BitVec 2 := 0
  refreshMode : BitVec 2 := 0
  refreshNextRate : BitVec 2 := 0
  refreshNextMode : BitVec 2 := 0
  postponed : List (Nat × Nat) := []
  refreshesIssued : Nat := 0
  repairBusy : Bool := false
  repairResult : BitVec 3 := 0
  repairReq : Word := 0
  softCount : BitVec 16 := 0
  errs : Vector Word 32 := Vector.replicate 32 0
  pageBusy : Bool := false
  pageReq : Word := 0
  pageResult : BitVec 3 := 0
  pageReqPc : Option PcId := none
  pages : List PageMap := []
  skimInterval : BitVec 16 := 0x3E80
  skimPasses : BitVec 11 := 0
  skimStrip : Nat := 0
  testResult : BitVec 2 := 0
  rate8g : Bool := false
  readQ : List WaitingRead := []
  writeQ : List QueuedWrite := []
  deriving DecidableEq, Repr

/-- The fast tier of one field (R128, R150, R152). `bankMap` gives the physical bank behind each logical bank;
`lost` marks logical banks that are out of the mapping. -/
structure FtState where
  ready : Bool := false
  fenced : Bool := false
  fenceBank : BitVec 6 := 0
  fencedBanks : DWord := 0
  lost : DWord := 0
  bankMap : Vector (BitVec 7) 64 := Vector.ofFn fun i => BitVec.ofNat 7 i.val
  deadBanks : BitVec 66 := 0
  errs : Vector Word 64 := Vector.replicate 64 0
  skimInterval : BitVec 16 := 0x3A98
  skimPasses : BitVec 15 := 0
  skimRow : Nat := 0
  retireBusy : Bool := false
  retireResult : BitVec 3 := 0
  retireBank : BitVec 6 := 0
  newPhys : BitVec 7 := 0
  queue : List BankAccess := []
  deriving DecidableEq, Repr

/-! ## Translation units (chapter Addresses and translation) -/

/-- A cached leaf or pointer entry, tagged with its panel (R164): the level at which it was read. -/
structure TlbEntry where
  panel : PanelId
  level : Nat
  index : Nat
  pte : DWord
  deriving DecidableEq, Repr

/-- A page walk in progress (R159): the next level to read, the table it lies in, and the pointer entries found. -/
structure Walk where
  serial : Nat
  panel : PanelId
  va : BitVec 55
  access : Access
  engine : EngineSel
  asker : WalkUnit
  found : List TlbEntry
  level : Nat
  table : BitVec 52
  namer : DWord
  deriving DecidableEq, Repr

/-- One field's translation unit: its caches, walks, and the engines it refuses by R180. -/
structure TuState where
  arrayTlb : Vector (List TlbEntry) 5 := Vector.replicate 5 []
  siteTlb : List TlbEntry := []
  apertureTlb : List TlbEntry := []
  fieldTlb : List TlbEntry := []
  walkCache : List TlbEntry := []
  walks : List Walk := []
  nextWalk : Nat := 0
  refused : List EngineSel := []
  deriving DecidableEq, Repr

/-- One field. `selfTest` stands for its field controller, translation unit, home slice and arrays (R400). -/
structure FieldState where
  leftOut : Bool := false
  selfTest : Bool := false
  ft : FtState := {}
  tu : TuState := {}
  deriving DecidableEq, Repr

/-! ## Hub network (chapter The hub network and the timing promise) -/

/-- Where a transaction stands: injected, waiting at its target, answered, or answered by a response that a dead lath
boundary discarded (R194). -/
inductive TxStage where
  | inFlight | atTarget | answered | lost
  deriving DecidableEq, Repr

/-- The work of an array that a write belongs to, by its serial number (R53, R72, R84). -/
inductive Work where
  | cube (serial : Nat)
  | kernel (serial : Nat)
  | move (serial : Nat)
  | other
  deriving DecidableEq, Repr

/-- Who issued a transaction, and so what its response does (R209, R73, R261, R377). -/
inductive TxOwner where
  | none
  | arrayStep (a : ArrayId) (stepOpen : Bool) (work : Work)
  | commitSignal (a : ArrayId)
  | vectorLane (a : ArrayId) (core : Fin 16) (ctx : Fin 64) (dest : Nat) (wide : Bool) (launch : Nat)
  | site (n : SiteId) (tag : BitVec 12) (bind : Byte)
  | bar2 (port : PortId)
  | twin (k : PortId) (header : BitVec 128)
  deriving DecidableEq, Repr

/-- A request and, once answered, its response (R205, R212). `arrived` orders injections, and then arrivals at targets
(R117, R118, R204); `parts` holds what banks have served of it (first word, count, words read); `copies` counts resent
copies in flight and `dups` the further responses due (R208); `excused` tells that no promise is made for it (R201). -/
structure Txn where
  id : TxId
  tint : TintId
  panel : Option PanelId
  pa : BitVec 52
  kind : ReqKind
  owner : TxOwner
  stage : TxStage
  demoted : Bool
  promised : Bool
  resends : Nat
  injected : Nat
  status : BitVec 3
  data : List CodeWord
  traced : Bool
  late : Bool
  arrived : Nat := 0
  parts : List (Nat × Nat × List CodeWord) := []
  copies : Nat := 0
  dups : Nat := 0
  excused : Bool := false
  va : Option (BitVec 55) := none
  deriving DecidableEq, Repr

/-- A request that an NI holds for want of a tag (R205) or of room on a lath link (R184, R191). -/
structure HeldReq where
  field : FieldId
  ni : NiId
  tint : TintId
  panel : Option PanelId
  pa : BitVec 52
  kind : ReqKind
  owner : TxOwner
  deriving DecidableEq, Repr

/-- An entry of a target's deduplication table (R208). -/
structure DedupEntry where
  field : FieldId
  ni : NiId
  id : TxId
  status : BitVec 3
  data : List CodeWord
  deriving DecidableEq, Repr

/-- A budget point's counters for one tint (R197, R213). -/
structure BudgetCount where
  field : FieldId
  ni : NiId
  injection : Bool
  tint : TintId
  words : Nat
  lastWords : Nat
  isOver : Bool
  demotedWindows : BitVec 16
  misses : BitVec 16
  deriving DecidableEq, Repr

/-- One direction of a lath link (R191): the next sequence number to send, the flits in the replay buffer with the request
each carries, oldest first, the next number the receiver expects, and the rounds of replay of the oldest flit. -/
structure LathLane where
  link : Fin 34
  dir : LathDir
  nextSeq : BitVec 12
  buffer : List (BitVec 12 × TxId)
  expect : BitVec 12
  rounds : Nat
  deriving DecidableEq, Repr

/-- One lath boundary (R11, R12, R213). `hashSet` is the links that its trunk's hash spreads packets over (R184). -/
structure LathState where
  inService : BitVec 34
  spare : BitVec 34
  training : BitVec 34 := 0
  suspended : Bool := false
  replays : BitVec 16 := 0
  lanes : List LathLane := []
  hashSet : BitVec 34
  deriving DecidableEq, Repr

/-- Signals of a replaced array forwarded to its spare (R367 act 5); `silent` when the field controller carried the
state over (R88). -/
structure Forward where
  failed : ArrayId
  spare : ArrayId
  silent : Bool
  deriving DecidableEq, Repr

structure NetState where
  tableValid : Bool := false
  stencils : List (Nat × DWord) := []
  tints : Vector Word 16 := Vector.replicate 16 0
  sink : Vector Word 8 := Vector.replicate 8 0
  lath : Vector LathState 10
  timeouts : Word := 0
  dropsRouter : BitVec 16 := 0
  dropsLate : BitVec 16 := 0
  stSelect : Word := 0
  cntSelect : Word := 0
  flight : List Txn := []
  quarantine : List TxId := []
  dedup : List DedupEntry := []
  budgets : List BudgetCount := []
  timeoutHits : List (Nat × Nat) := []
  forwards : List Forward := []
  arrivals : Nat := 0
  heldReqs : List HeldReq := []
  deriving DecidableEq, Repr

/-! ## Coherence -/

inductive AgentLine where
  | m | o | e | f | s | i
  deriving DecidableEq, Repr

/-- A line a hub agent holds, or keeps in its write-back buffer under a tag (R218, R220). -/
structure CacheLine where
  agent : AgentId
  line : Nat
  state : AgentLine
  word : CodeWord
  wbTag : Option (BitVec 12)
  deriving DecidableEq, Repr

inductive DirState where
  | shared | exclusive | owned
  deriving DecidableEq, Repr

/-- A directory entry (R222). -/
structure DirEntry where
  line : Nat
  state : DirState
  present : BitVec 96
  owner : AgentId
  fHolder : Option AgentId
  deriving DecidableEq, Repr

inductive SnoopKind where
  | snpS | snpI | snpC
  deriving DecidableEq, Repr

/-- What a request to a home is, and who sent it (R225). `sharedOnly` is a CXL agent's RdShared (R231). -/
inductive CohReq where
  | rdS (agent : AgentId) (sharedOnly : Bool)
  | rdX (agent : AgentId)
  | upg (agent : AgentId)
  | invX (agent : AgentId)
  | rdC (id : TxId)
  | wrL (id : TxId) (word : CodeWord)
  | flushL (id : TxId)
  | atomic (id : TxId) (op : AtomicOp) (off : Fin 64) (operand compare : DWord)
  | recall
  | sweepFlush
  deriving DecidableEq, Repr

/-- A snoop's answer on its way to the home (R227). -/
structure SnoopAnswer where
  hasData : Bool
  dirty : Bool
  notPresent : Bool
  wbp : Option (BitVec 12)
  word : CodeWord
  deriving DecidableEq, Repr

/-- A snoop of a blocked line: who, which, and the answer once sent. -/
structure Snoop where
  agent : AgentId
  kind : SnoopKind
  answer : Option SnoopAnswer
  deriving DecidableEq, Repr

/-- What a request to a home brings with it: its tint (R195), and of a chiplet's request its tag, its binding tag and the site
whose CXL.cache port sent it (R231, R259). -/
structure CohFrom where
  tint : TintId
  tag : BitVec 12
  bind : Byte
  cxl : Option SiteId
  deriving DecidableEq, Repr

/-- A blocked line (R223): the request served, its snoops, dirty data gathered, and the completion once sent. -/
structure Blocked where
  line : Nat
  req : CohReq
  src : CohFrom
  snoops : List Snoop
  gotData : Option CodeWord
  gotDirty : Bool
  granted : Option AgentLine
  cmpData : Option CodeWord
  cmpTaken : Bool
  deriving DecidableEq, Repr

structure CohWait where
  line : Nat
  req : CohReq
  src : CohFrom
  deriving DecidableEq, Repr

/-- A stale-list entry: a write-back's transaction ID, or an agent and line for a CXL agent (R229, R232). -/
structure StaleEntry where
  agent : AgentId
  tag : Option (BitVec 12)
  line : Nat
  deriving DecidableEq, Repr

/-- A write-back held at the home because it crossed a snoop (R229 case 2). -/
structure HeldWb where
  agent : AgentId
  src : CohFrom
  tag : BitVec 12
  line : Nat
  word : CodeWord
  deriving DecidableEq, Repr

/-- One home slice; `dir` is in order of allocation, oldest first. -/
structure Slice where
  dir : List DirEntry := []
  blocked : List Blocked := []
  waiting : List CohWait := []
  stale : List StaleEntry := []
  heldWbs : List HeldWb := []
  snoops : Word := 0
  np : Word := 0
  staleCount : Word := 0
  recalls : Word := 0
  snoopTimeouts : BitVec 16 := 0
  ackTimeouts : BitVec 16 := 0
  deriving DecidableEq, Repr

structure CohState where
  tableValid : Bool := false
  homeMap : BitVec 24 := 0xFAC688
  owner : BitVec 96 := 0
  valid : BitVec 96 := 0
  dead : BitVec 96 := 0
  slices : Vector Slice 8 := Vector.replicate 8 {}
  caches : List CacheLine := []
  wbAcks : List (AgentId × Nat) := []
  deriving DecidableEq, Repr

/-! ## Chiplet sites -/

inductive BindPhase where
  | new | sent | bound | unbinding
  deriving DecidableEq, Repr

/-- A binding of a site's target to a panel's slot (R267, R309). -/
structure Binding where
  tag : Byte
  panel : PanelId
  slot : Fin 8
  target : BitVec 4
  tint : TintId
  regs : Bool
  devmem : Bool
  phase : BindPhase
  deriving DecidableEq, Repr

inductive SiteStage where
  | off | waitPower | sideband | training | descriptor | negotiated | done
  deriving DecidableEq, Repr

/-- A request the site port has sent to the chiplet (R266): its tag, the transaction it serves, and which code words
of it (R259: at most four a message). -/
structure SiteReq where
  tag : BitVec 12
  id : TxId
  first : Nat
  count : Nat
  deriving DecidableEq, Repr

/-- A write held for credit at a stream endpoint (R256). -/
structure HeldWrite where
  id : TxId
  endpoint : Fin 16
  offset : BitVec 20
  words : List CodeWord
  deriving DecidableEq, Repr

structure SiteState where
  ready : Bool := false
  state : BitVec 3 := 0
  attempt : BitVec 2 := 0
  failCode : Byte := 0
  modules : BitVec 5 := 0
  rate : BitVec 2 := 0
  double : BitVec 2 := 0
  stage : SiteStage := .off
  enabled : Bool := false
  power : Bool := false
  chipMax : Byte := 0
  chipMin : Byte := 0
  neg : Byte := 0
  granted : Word := 0
  masked : Word := 0
  throttle : Bool := false
  throttleSamples : Nat := 0
  belowSamples : Nat := 0
  maxW : BitVec 10 := 0
  avgW : BitVec 10 := 0
  retrainAt : List Nat := []
  replays : BitVec 16 := 0
  desc : Vector Word 64 := Vector.replicate 64 0
  descNext : Nat := 0
  trainedRate : BitVec 2 := 0
  live : BitVec 16 := 0
  liveSeen : Bool := false
  bindings : List Binding := []
  credit : Vector Nat 16 := Vector.replicate 16 0
  held : List HeldWrite := []
  requests : List SiteReq := []
  bars : List (Nat × Nat) := []
  deriving DecidableEq, Repr

/-! ## Host ports -/

/-- A completion as it is written to a CQ, less PHASE and SQ_HEAD, which are set when it is written (R286). -/
structure Completion where
  dup : Bool := false
  sqHead : BitVec 12 := 0
  cstatus : Byte := 0
  seq : Word := 0
  istatus : Byte := 0
  poisonCommits : Word := 0
  user : DWord := 0
  elapsed : Word := 0
  faultCode : Byte := 0
  faultArray : BitVec 6 := 0
  deriving DecidableEq, Repr

/-- A history entry of R285; `comp` is none until the original's completion is known. -/
structure HistEntry where
  seq : Word
  comp : Option Completion
  deriving DecidableEq, Repr

/-- A completion waiting to be written: held for ring space, or until an epoch is acknowledged (R287, R382). -/
structure PendingComp where
  comp : Completion
  epoch : Option Nat
  deriving DecidableEq, Repr

/-- An entry read ahead: its SQ index and, when it has come back, the 128 bytes with their EP flag, or a failure. -/
inductive Fetched where
  | reading (tries : Nat)
  | ready (bits : BitVec 1024)
  | bad (word1 : Word)
  deriving DecidableEq, Repr

structure Ahead where
  index : BitVec 12
  entry : Fetched
  deriving DecidableEq, Repr

inductive InvPhase where
  | accepted | waiting | running | ending
  deriving DecidableEq, Repr

/-- The command a queue has taken, and the invocation it starts (R94 to R98, R283). `former` lists the arrays that were
replaced or lost while it ran. -/
structure Taken where
  bits : BitVec 1024
  sqHead : BitVec 12
  phase : InvPhase := .accepted
  order : Nat := 0
  arrays : List (Fin 40) := []
  siteMask : Byte := 0
  tint : TintId := 0
  entries : List (BitVec 55) := []
  started : Option Nat := none
  timerOn : Bool := false
  status : Option Byte := none
  faultCode : Byte := 0
  faultArray : BitVec 6 := 0
  endedArrays : List (Fin 40) := []
  poisonCommits : Word := 0
  noCompletion : Bool := false
  former : List ArrayId := []
  deriving DecidableEq, Repr

structure QueueState where
  sqBase : DWord := 0
  cqBase : DWord := 0
  enable : Bool := false
  irq : Bool := false
  vector : BitVec 5 := 0
  cqLog : BitVec 4 := 8
  sqLog : BitVec 4 := 8
  cqTail : BitVec 12 := 0
  sqHead : BitVec 12 := 0
  sqTail : BitVec 12 := 0
  cqHead : BitVec 12 := 0
  phase : Bool := true
  seqReg : Word := 0
  expected : Word := 0
  dups : BitVec 16 := 0
  rejects : BitVec 16 := 0
  hist : List HistEntry := []
  ahead : List Ahead := []
  taken : Option Taken := none
  comps : List PendingComp := []
  stopping : Bool := false
  deriving DecidableEq, Repr

/-- The registers of one invalidation set (R182). -/
structure InvSet where
  base : DWord := 0
  length : DWord := 0
  vector : BitVec 5 := 0
  walk : Bool := false
  irq : Bool := false
  state : BitVec 4 := 0
  reason : BitVec 4 := 0
  forced : BitVec 6 := 0
  waitingFor : List EngineSel := []
  deriving DecidableEq, Repr

/-- The registers of one range-flush set (R236). -/
structure FlushSet where
  base : DWord := 0
  length : DWord := 0
  vector : BitVec 5 := 0
  irq : Bool := false
  state : BitVec 4 := 0
  reason : BitVec 4 := 0
  todo : List Nat := []
  deriving DecidableEq, Repr

structure MsixEntry where
  addr : DWord := 0
  data : Word := 0
  masked : Bool := true
  deriving DecidableEq, Repr

/-- One VF: its page and its configuration state (R272 to R276, R296). -/
structure VfState where
  bound : Option PanelId := none
  tint : TintId := 0
  bme : Bool := false
  d3hot : Bool := false
  resetting : Bool := false
  tdi : BitVec 3 := 0
  lockSession : Option (BitVec 32) := none
  msixEnable : Bool := false
  msixMask : Bool := false
  msix : Vector MsixEntry 32 := Vector.replicate 32 {}
  pba : BitVec 32 := 0
  waitingMsix : List (Fin 32) := []
  root : DWord := 0
  aperture : BitVec 23 := 0
  fringBase : DWord := 0
  fringEnable : Bool := false
  fringVector : BitVec 5 := 0
  fringLog : BitVec 4 := 0xC
  ringBase : DWord := 0
  ringLog : BitVec 4 := 0xC
  tail : Word := 0
  head : Word := 0
  overflow : Bool := false
  stale : Byte := 0
  overCount : Word := 0
  arm : Bool := true
  inv : InvSet := {}
  flush : FlushSet := {}
  queues : Vector QueueState 16 := Vector.replicate 16 {}
  deriving DecidableEq, Repr

/-- What a host read in flight serves (R289). -/
inductive ReadUse where
  | command (q : QRef) (index : BitVec 12)
  | image
  deriving DecidableEq, Repr

structure HostReadReq where
  serial : Nat
  use : ReadUse
  deriving DecidableEq, Repr

structure IdeStream where
  stream : Fin 9
  key : BitVec 256
  deriving DecidableEq, Repr

/-- The configuration registers of PF0 that are written, besides those of PortState (R270, R272, R273, R279, R290); `ideRegs`
are the control and association registers of the IDE capability (R291), from 0x408. -/
structure PfConfig where
  memEnable : Bool := false
  bme : Bool := false
  intLine : Byte := 0
  bar0 : DWord := 0
  mps : BitVec 3 := 0
  mrrs : BitVec 3 := 2
  aspmL1 : Bool := false
  l1ss : BitVec 4 := 0
  l0p : Bool := false
  vfMse : Bool := false
  ari : Bool := false
  pageSize : Word := 1
  vfBar0 : DWord := 0
  vfBar2 : DWord := 0
  ltr : Word := 0
  uncStatus : Word := 0
  uncMask : Word := 0x00400000
  uncSeverity : Word := 0x00462030
  corStatus : Word := 0
  corMask : Word := 0x00002000
  ideRegs : Vector Word 126 := Vector.replicate 126 0
  deriving DecidableEq, Repr

structure PortState where
  perst : Bool := false
  l0 : Bool := false
  slow : Bool := false
  flit : Bool := false
  rate : BitVec 3 := 0
  width : BitVec 5 := 0
  activeWidth : BitVec 5 := 0
  pm : BitVec 3 := 0
  irqStatus : Byte := 0
  irqEnable : Byte := 0
  intxDisable : Bool := false
  cfg : PfConfig := {}
  intaSent : Bool := false
  pf0D3hot : Bool := false
  frsSent : Bool := false
  vfEnable : Bool := false
  numVfs : BitVec 6 := 0
  l1Idle : BitVec 16 := 0x20
  vfs : Vector VfState 40 := Vector.replicate 40 {}
  reads : List HostReadReq := []
  nextRead : Nat := 0
  ide : List IdeStream := []
  session : Option (BitVec 32) := none
  deriving DecidableEq, Repr

/-! ## Image loader, panels and trust -/

structure ImgState where
  src : DWord := 0
  length : Word := 0
  commitSvn : Bool := false
  wait : Bool := false
  port : PortId := 0
  authCtr : DWord := 0
  mac : BitVec 128 := 0
  status : BitVec 4 := 0
  error : Byte := 0
  section_ : Byte := 0
  entry : BitVec 12 := 0
  held : BitVec 6 := 0
  ignored : BitVec 6 := 0
  kind : Byte := 0
  panel : Byte := 0
  baseId : DWord := 0
  loaded : Bool := false
  baseSvn : BitVec 16 := 0
  baseDigest : BitVec 384 := 0
  panelIds : Vector DWord 40 := Vector.replicate 40 0
  staging : List Byte := []
  fieldMask : Byte := 0
  stackMask : BitVec 24 := 0
  siteMask : Byte := 0
  h : BitVec 8 := 0
  x : BitVec 5 := 0
  newBinds : List (SiteId × Byte) := []
  oldBinds : List (SiteId × Byte) := []
  failing : Bool := false
  deriving DecidableEq, Repr

/-- A grant of a panel in the physical address space (R161, R307): first address, length, whether writable, and
whether it is a pool portion (KIND 0). -/
structure Grant where
  base : Nat
  length : Nat
  write : Bool
  pool : Bool
  region : Option (Fin 32)
  deriving DecidableEq, Repr

structure PaRange where
  base : Nat
  length : Nat
  deriving DecidableEq, Repr

/-- A panel (R320 to R328). `slotHold` marks the binding slots that a rebind in progress changes (R317). -/
structure PanelState where
  state : BitVec 3 := 0
  sealed_ : Bool := false
  authKey : Option (BitVec 384) := none
  fill : Bool := false
  phase : BitVec 3 := 0
  port : PortId := 0
  vf : Option VfId := none
  arrays : List (Option ArrayId) := []
  modes : BitVec 40 := 0
  grants : List Grant := []
  ranges : List PaRange := []
  slots : Vector (Option (SiteId × Byte)) 8 := Vector.replicate 8 none
  slotHold : Byte := 0
  lost : BitVec 40 := 0
  counter : DWord := 0
  keys : BitVec 512 := 0
  ring : RingWriter := {}
  inv : InvSet := {}
  flush : FlushSet := {}
  twin : Option BindId := none
  createDigest : BitVec 384 := 0
  rebindDigest : BitVec 384 := 0
  nextOrder : Nat := 0
  deriving DecidableEq, Repr

structure CommonsState where
  state : BitVec 3 := 0
  mirrored : Bool := false
  primary : Nat := 0
  mirror : Nat := 0
  length : Nat := 0
  bundle : DWord := 0
  keys : BitVec 512 := 0
  deriving DecidableEq, Repr

/-- A key range of R324: a physical range and the keys its words are stored under. -/
structure KeyRange where
  base : Nat
  length : Nat
  panel : Option PanelId
  region : Option (Fin 32)
  keys : BitVec 512
  deriving DecidableEq, Repr

structure PnlState where
  cmdPanel : Byte := 0
  cmdAuth : BitVec 2 := 0
  cmdOp : Byte := 0
  cmdState : BitVec 4 := 0
  result : Byte := 0
  ctr : DWord := 0
  mac : BitVec 128 := 0
  args : Vector Word 20 := Vector.replicate 20 0
  debug : Bool := false
  dbgTint : TintId := 0
  dustTint : TintId := 0
  panels : Vector PanelState 40 := Vector.replicate 40 {}
  commons : Vector CommonsState 32 := Vector.replicate 32 {}
  keyRanges : List KeyRange := []
  dbgLoc : DWord := 0
  dbgState : BitVec 4 := 0
  dbgEnciphered : Bool := false
  dbgMarked : Bool := false
  dbgOwner : Byte := 0
  dbgData : Vector Word 16 := Vector.replicate 16 0
  traceBase : DWord := 0
  traceEnable : Bool := false
  traceSched : Bool := false
  traceHdr : Bool := false
  tracePort : PortId := 0
  tracePanel : Byte := 0xFF
  traceRate : BitVec 4 := 0xA
  traceLog : BitVec 5 := 0x10
  traceRingBase : DWord := 0
  traceRingLog : BitVec 5 := 0x10
  traceTail : Word := 0
  traceHead : Word := 0
  traceLost : Word := 0
  traceSample : Nat := 0
  deriving DecidableEq, Repr

/-! ## RAS block, life cycle, twin ports, power -/

/-- A patch record, words 0 to 3 (R365), and whether it has reached the store (R366). -/
structure PatchRec where
  kind : BitVec 4
  code : Byte
  boot : BitVec 16
  failed : Word
  spare : Word
  stored : Bool
  deriving DecidableEq, Repr

structure PrimerSlot where
  base : DWord := 0
  length : DWord := 0
  tint : TintId := 0
  op : BitVec 3 := 0
  state : BitVec 4 := 0
  reason : BitVec 4 := 0
  progress : Nat := 0
  clean : Word := 0
  corrected : Word := 0
  uncorr : Word := 0
  marked : Word := 0
  unwritten : Word := 0
  firstBad : DWord := 0xFFFFFFFFFFFFFFFF
  runOp : BitVec 3 := 0
  runBase : Nat := 0
  runLength : Nat := 0
  deriving DecidableEq, Repr

/-- A conditional write of R137 on its way: the location and the word it would store. -/
structure PendingFix where
  key : Nat
  word : StoredWord
  deriving DecidableEq, Repr

structure RasState where
  mlog : List (BitVec 256) := []
  mlogNew : Bool := false
  mlogLost : BitVec 16 := 0
  damaged : Word := 0
  primers : Vector PrimerSlot 8 := Vector.replicate 8 {}
  flog : List (BitVec 256) := []
  flogSevere : Bool := false
  flogNew : Bool := false
  flogLost : BitVec 16 := 0
  pkgFault : Option (BitVec 5 × Byte) := none
  patches : List PatchRec := []
  patchBoot : BitVec 16 := 0
  patchSelect : BitVec 17 := 0
  storeCorrections : Nat := 0
  fixes : List PendingFix := []
  belowGrade : Bool := false
  deriving DecidableEq, Repr

/-- A slot of the marker area: three copies of a marker word (R354). -/
structure MarkerSlot where
  copies : Vector (BitVec 16) 3 := Vector.replicate 3 0
  deriving DecidableEq, Repr

/-- The life cycle (R359). `target` is the state of a transition that has completed (R357); `retiring` holds a checked
request for RETIRED that waits for the panels, and at which of its fuse bits verification fails. -/
structure LcsState where
  state : BitVec 3 := 0
  invalid : Bool := false
  bootAction : BitVec 2 := 0
  vote : BitVec 2 := 0
  resetRequired : Bool := false
  src : DWord := 0
  port : PortId := 0
  status : BitVec 4 := 0
  result : Byte := 0
  nonce : BitVec 256 := 0
  target : Option (BitVec 3) := none
  retiring : Option (Option Nat) := none
  deriving DecidableEq, Repr

/-- A binding (R378 to R389). `pendingWords` counts the words queued and not acknowledged; `marks` lists, oldest first, each
mark queued and not acknowledged and how many words were queued between the mark before it and it. -/
structure TwinBinding where
  valid : Bool := false
  role : BitVec 2 := 0
  auto : Bool := false
  port : PortId := 0
  alt : Bool := false
  panel : PanelId := 0
  tint : TintId := 0
  state : BitVec 4 := 0
  seeded : Bool := false
  pendingWords : Nat := 0
  epoch : DWord := 0
  nextEpoch : Nat := 1
  ranges : List PaRange := []
  windows : List Grant := []
  fencing : Bool := false
  marks : List (Nat × Nat) := []
  seedAt : Nat := 0
  deriving DecidableEq, Repr

/-- R375: a flit in the replay buffer of a twin port: part `part` of a message. -/
structure TwinFlit where
  seq : BitVec 12
  header : BitVec 128
  words : List CodeWord
  part : Nat
  deriving DecidableEq, Repr

/-- R375: the sending side of a twin port: the number of the next flit, the flits not yet acknowledged, oldest first, and the
messages that wait for a place among them. -/
structure TwinLine where
  nextSeq : BitVec 12 := 0
  buffer : List TwinFlit := []
  waiting : List (BitVec 128 × List CodeWord) := []
  deriving DecidableEq, Repr

/-- A message in a twin port's mirror queue (R381, R382). -/
inductive Mirror where
  | ckpt (b : BindId) (range : Nat) (off : Nat) (word : CodeWord)
  | mark (b : BindId) (seed desync : Bool) (epoch : Nat)
  deriving DecidableEq, Repr

/-- R377: a request of the partner, named by its IFIELD, INI and TAG, and the local ID it goes under. -/
structure TwinMap where
  remote : BitVec 20
  id : TxId
  deriving DecidableEq, Repr

structure TwinPort where
  state : BitVec 4 := 0
  width : BitVec 6 := 0
  lanes : BitVec 34 := 0
  spareLanes : BitVec 34 := 0x300000000
  level : BitVec 2 := 0
  secure : Bool := false
  replays : BitVec 16 := 0
  expect : BitVec 12 := 0
  rounds : Nat := 0
  queue : List Mirror := []
  levelSent : Bool := false
  keyParts : List Byte := []
  heartCount : BitVec 16 := 0
  maps : List TwinMap := []
  waits : List (TxId × Nat) := []
  training : BitVec 34 := 0
  deriving DecidableEq, Repr

structure TwinState where
  ports : Vector TwinPort 2 := Vector.replicate 2 {}
  peerStepping : Byte := 0
  peerMax : BitVec 2 := 0
  peerSchema : BitVec 16 := 0
  peerId : BitVec 256 := 0
  silent : Bool := false
  cause : BitVec 2 := 0
  lastHeart : Nat := 0
  fatalSeen : Bool := false
  ctlState : BitVec 4 := 0
  ctlReason : BitVec 4 := 0
  ctlBinding : BindId := 0
  bindings : Vector TwinBinding 64 := Vector.replicate 64 {}
  heartStopped : Bool := false
  deriving DecidableEq, Repr

structure PwrState where
  limit : BitVec 13 := 4300
  d : BitVec 7 := 64
  p1 : BitVec 13 := 0
  p1Max : BitVec 13 := 0
  tmax : Byte := 0
  throtC : Byte := 100
  evTherm : Bool := false
  evCapped : Bool := false
  evFloor : Bool := false
  thermEvent : Bool := false
  temps : Vector Byte 32 := Vector.replicate 32 0
  deriving DecidableEq, Repr

structure ClkState where
  coreLock : Bool := false
  twinLock : BitVec 2 := 0
  pcieLock : BitVec 2 := 0
  siteLock : Byte := 0
  hbmLock : Byte := 0
  deriving DecidableEq, Repr

/-- The package's input pins (R407); true is high. -/
structure Pins where
  pkgResetN : Bool := true
  perstN : Vector Bool 2 := Vector.replicate 2 true
  pwrgd : BitVec 5 := 0b11111
  sitePg : Byte := 0
  addrSel : BitVec 2 := 0
  deriving DecidableEq, Repr

/-- The management bus and the test access port, which live in the AUX domain (R409, R410). -/
structure Sideband where
  staticAddr : BitVec 7 := 0x30
  dynAddr : Option (BitVec 7) := none
  offset : Word := 0
  tap : TapInstr := .idcode
  deriving DecidableEq, Repr

/-- What fuses and the security root's stores hold; a reset leaves it (R20, R243, R321, R346, R347, R364). -/
structure Fuses where
  grade : BitVec 2
  disabled : BitVec 40
  wearSpare : BitVec 40
  sitePop : Byte
  siteIds : Vector (BitVec 96) 8
  doublePairs : Byte
  spareCore : Vector (BitVec 5) 40
  lathSpare : Vector (BitVec 34) 10
  bankSpare : Vector (BitVec 66) 8
  twinSpare : Vector (BitVec 34) 2
  identity : BitVec 256
  stateWords : Vector DWord 3
  markers : List MarkerSlot
  vendorKey : BitVec 384
  operatorKey : Option (BitVec 384)
  operatorEcdsa : List Byte
  operatorMlDsa : List Byte
  ctrVendor : DWord
  ctrOperator : DWord
  svnMin : BitVec 16
  patches : List PatchRec
  hardRepair : Vector (List (PcId × Nat)) 24
  deviceKey : Option (BitVec 384)
  bundleKey : Option (BitVec 384)
  bootCount : BitVec 16
  deriving DecidableEq, Repr

/-- What the hub sends out of the package, or answers: host writes, messages, register reads, pin changes. `vf` is the
requester ID of a host access: a VF's, or none for PF0's (R162, R289, R341). -/
inductive Out where
  | hostWrite (port : PortId) (vf : Option VfId) (addr : DWord) (bytes : List Byte)
  | hostWriteWord (port : PortId) (vf : Option VfId) (addr : DWord) (word : CodeWord)
  | hostRead (port : PortId) (vf : Option VfId) (serial : Nat) (addr : DWord) (length : Nat)
  | msix (port : PortId) (v : VfId) (vector : Fin 32)
  | assertInta (port : PortId)
  | deassertInta (port : PortId)
  | frs (port : PortId) (vf : Option VfId)
  | regRead (reg : RegAddr) (value : Word)
  | cfgRead (port : PortId) (vf : Option VfId) (off : BitVec 12) (value : Word)
  | speedChange (port : PortId)
  | bar2Data (port : PortId) (bytes : List Byte) (ep : Bool)
  | completerAbort (port : PortId)
  | unsupportedRequest (port : PortId)
  | retryStatus (port : PortId)
  | spdmAnswer (port : PortId) (bytes : List Byte)
  | spdmError (port : PortId)
  | siteMsg (n : SiteId) (code : Byte) (payload : DWord)
  | siteStream (n : SiteId) (header : BitVec 128) (words : List CodeWord)
  | cxlRequest (n : SiteId) (cls : CxlClass) (write : Bool) (off : Nat) (words : List CodeWord)
  | cxlConfig (n : SiteId) (write : Bool) (off : BitVec 12) (value : Word)
  | cxlAnswer (n : SiteId) (answer : Byte) (word : Option CodeWord)
  | twinMsg (k : PortId) (header : BitVec 128) (words : List CodeWord)
  | twinFlitAck (k : PortId) (seq : BitVec 12)
  | twinReplay (k : PortId) (seq : BitVec 12)
  | lathAck (boundary : Fin 10) (link : Fin 34) (dir : LathDir) (seq : BitVec 12)
  | lathReplay (boundary : Fin 10) (link : Fin 34) (dir : LathDir)
  | linkRequest (port : PortId) (pm : BitVec 3)
  | siteEnable (n : SiteId) (level : Bool)
  | faultN (asserted : Bool)
  | thermN (asserted : Bool)
  | i3cData (value : Word)
  | i3cIbi
  | tapSelected (instr : TapInstr)
  | tapIdcode (value : Word)
  | siteCoh (n : SiteId) (agent : AgentId) (header : BitVec 128) (words : List CodeWord)
  | cxlSnoop (n : SiteId) (kind : SnoopKind) (line : Nat)
  deriving DecidableEq, Repr

/-- The machine. `sclk` counts SCLK since the hub left reset (R399). `draws` numbers the free values taken so far,
`out` lists what the hub has sent, newest first, and `pending` is the queue of commands: these three are the model's
own (assumption log 1, 2 and 5). -/
structure State where
  fuse : Fuses
  inReset : Bool
  retired : Bool
  stage : BitVec 4
  bootMs : BitVec 16
  sclk : Nat
  pins : Pins
  side : Sideband
  siteSlot : Nat
  arrays : Vector ArrayState 40
  fields : Vector FieldState 8
  hbm : Vector StackState 24
  mem : List (Nat × StoredWord)
  net : NetState
  coh : CohState
  sites : Vector SiteState 8
  ports : Vector PortState 2
  img : ImgState
  pnl : PnlState
  lcs : LcsState
  ras : RasState
  twin : TwinState
  lines : Vector TwinLine 2
  clk : ClkState
  pwr : PwrState
  heldLow : List (RegAddr × Word)
  latched : List (RegAddr × Word)
  draws : Nat
  out : List Out
  pending : List Instr
  deriving DecidableEq, Repr

/-- Why a step can stop with a fault. -/
inductive Fault where
  /-- Raised by no command: every row of the table has an effect in the manual, and a command that is not due leaves
  the state alone (assumption log 4). Safe. -/
  | none
  deriving DecidableEq, Repr

/-- Why a command has no meaning. -/
inductive Refusal where
  /-- Raised by an arm of exec whose command has no meaning yet. Safe. -/
  | notModelled (mnemonic : String)
  deriving DecidableEq, Repr

/-! ## Reset -/

/-- R11: links of boundary `b`, in the order of R10: 34 within a column, 26 across. -/
def lathLinks (b : Fin 10) : BitVec 34 := if b.val < 6 then 0x3FFFFFFFF else 0x3FFFFFF

/-- The unit that State.reset describes: the manual's example UH9624-A-KKCCKCCC, BLANK, with no patch record, arrays
A36 to A39 as wear spares, and as delivered spares core 16 of each array, banks 64 and 65 of each field, lanes 32 and 33 of each twin port, and the two
highest links of each boundary: the manual fixes none (R10, R11; DESIGN CHOICE, assumption log 6). -/
def Fuses.unit : Fuses where
  grade := 0
  disabled := 0
  wearSpare := 0xF000000000
  sitePop := 0b00010011
  siteIds := Vector.replicate 8 0
  doublePairs := 0
  spareCore := Vector.replicate 40 16
  lathSpare := Vector.ofFn fun b => if b.val < 6 then 0x300000000 else 0x3000000
  bankSpare := Vector.replicate 8 (3 <<< 64)
  twinSpare := Vector.replicate 2 0x300000000
  identity := 0
  stateWords := Vector.replicate 3 0
  markers := List.replicate 48 {}
  vendorKey := 0
  operatorKey := none
  operatorEcdsa := []
  operatorMlDsa := []
  ctrVendor := 0
  ctrOperator := 0
  svnMin := 0
  patches := []
  hardRepair := Vector.replicate 24 []
  deviceKey := none
  bundleKey := none
  bootCount := 0

/-- R21, R20: an array's state from the fuses. -/
def Fuses.arrayState (f : Fuses) (a : ArrayId) : BitVec 3 :=
  if f.disabled.getLsbD a.val then 2 else if f.wearSpare.getLsbD a.val then 1 else 0

/-- R66, R101: the active cores of an array whose spare core is `c`. -/
def activeCores (c : BitVec 5) : BitVec 17 :=
  if c.toNat < 17 then 0x1FFFF &&& ~~~(1#17 <<< c.toNat) else 0x1FFFF

/-- An array as the fuses give it. -/
def ArrayState.fused (f : Fuses) (a : ArrayId) : ArrayState :=
  { st := f.arrayState a
    vec := { active := activeCores f.spareCore[a], spare := f.spareCore[a] } }

/-- R185: the NIs that are absent from field `f`, or reserved. -/
def absentNis (f : FieldId) : Word :=
  0xFF800000 ||| (if f.val = 0 ∨ f.val = 4 then 0 else 1 <<< 20)
    ||| (if f.val = 3 ∨ f.val = 7 then 0 else 1 <<< 21) ||| (if f.val = 1 then 0 else 1 <<< 22)

/-- R211, R213: what is isolated at reset: absent NIs, arrays not in service, stacks and sites not yet in service. -/
def resetSink (fu : Fuses) (f : FieldId) : Word :=
  absentNis f ||| 0x1E000 |||
    (List.range 5).foldl (fun w i =>
      if fu.arrayState (Fin.ofNat 40 (5 * f.val + i)) = 0 then w else w ||| (1 <<< i)) 0

/-- R10: the physical banks behind the logical banks of a field as delivered: those that are not its spares, in order. -/
def deliveredBanks (spare : BitVec 66) : Vector (BitVec 7) 64 :=
  let kept := (List.range 66).filter fun b => !(spare.getLsbD b)
  Vector.ofFn fun i => BitVec.ofNat 7 ((kept[i.val]?).getD 0)

/-- The machine at the moment the hub leaves reset, for given fuses, pins and sideband (R392, R396). -/
def State.leaving (fu : Fuses) (pins : Pins) (side : Sideband) : State where
  fuse := fu
  inReset := false
  retired := false
  stage := 0
  bootMs := 0
  sclk := 0
  pins := pins
  side := side
  siteSlot := 0
  arrays := Vector.ofFn (ArrayState.fused fu)
  fields := Vector.ofFn fun f => { ft := { bankMap := deliveredBanks fu.bankSpare[f] } }
  hbm := Vector.replicate 24 {}
  mem := []
  net := { sink := Vector.ofFn (resetSink fu)
           lath := Vector.ofFn fun b =>
             { inService := lathLinks b &&& ~~~fu.lathSpare[b], spare := fu.lathSpare[b] &&& lathLinks b
               hashSet := lathLinks b &&& ~~~fu.lathSpare[b] } }
  coh := {}
  sites := Vector.replicate 8 {}
  ports := Vector.ofFn fun p => { perst := !(pins.perstN[p]) }
  img := {}
  pnl := {}
  lcs := {}
  ras := {}
  twin := { ports := Vector.ofFn fun k => { lanes := ~~~fu.twinSpare[k], spareLanes := fu.twinSpare[k] } }
  lines := Vector.replicate 2 {}
  clk := {}
  pwr := {}
  heldLow := []
  latched := []
  draws := 0
  out := []
  pending := []

/-- The machine right after reset: the unit of `Fuses.unit` with every rail up and every reset input released, at
boot stage 0 (assumption log 6). -/
def State.reset : State := State.leaving Fuses.unit {} {}

end Sys2Proof.Machine
end

