-- ==== Sys2Proof/Machine/Ops.lean ====
section
/-!
DEFINITION. The named operations over State that every family shares: one updater per part, the two logs of the RAS
block, interrupts, and readiness.
-/

namespace Sys2Proof.Machine

/-! ## Updaters -/

def State.modArray (s : State) (a : ArrayId) (f : ArrayState → ArrayState) : State :=
  { s with arrays := vmod s.arrays a f }

def State.modCube (s : State) (a : ArrayId) (f : CubeState → CubeState) : State :=
  s.modArray a fun x => { x with cube := f x.cube }

def State.modSeq (s : State) (a : ArrayId) (f : SeqState → SeqState) : State :=
  s.modArray a fun x => { x with seq := f x.seq }

def State.modVec (s : State) (a : ArrayId) (f : VecState → VecState) : State :=
  s.modArray a fun x => { x with vec := f x.vec }

def State.modField (s : State) (i : FieldId) (f : FieldState → FieldState) : State :=
  { s with fields := vmod s.fields i f }

def State.modFt (s : State) (i : FieldId) (f : FtState → FtState) : State :=
  s.modField i fun x => { x with ft := f x.ft }

def State.modTu (s : State) (i : FieldId) (f : TuState → TuState) : State :=
  s.modField i fun x => { x with tu := f x.tu }

def State.modStack (s : State) (k : StackId) (f : StackState → StackState) : State :=
  { s with hbm := vmod s.hbm k f }

def State.modNet (s : State) (f : NetState → NetState) : State := { s with net := f s.net }

def State.modCoh (s : State) (f : CohState → CohState) : State := { s with coh := f s.coh }

def State.modSlice (s : State) (i : FieldId) (f : Slice → Slice) : State :=
  s.modCoh fun c => { c with slices := vmod c.slices i f }

def State.modSite (s : State) (n : SiteId) (f : SiteState → SiteState) : State :=
  { s with sites := vmod s.sites n f }

def State.modPort (s : State) (p : PortId) (f : PortState → PortState) : State :=
  { s with ports := vmod s.ports p f }

def State.modPorts (s : State) (f : PortState → PortState) : State := { s with ports := s.ports.map f }

def State.modVf (s : State) (p : PortId) (v : VfId) (f : VfState → VfState) : State :=
  s.modPort p fun x => { x with vfs := vmod x.vfs v f }

def State.modQueue (s : State) (p : PortId) (v : VfId) (q : QueueId) (f : QueueState → QueueState) : State :=
  s.modVf p v fun x => { x with queues := vmod x.queues q f }

def State.modImg (s : State) (f : ImgState → ImgState) : State := { s with img := f s.img }

def State.modPnl (s : State) (f : PnlState → PnlState) : State := { s with pnl := f s.pnl }

def State.modPanel (s : State) (p : PanelId) (f : PanelState → PanelState) : State :=
  s.modPnl fun x => { x with panels := vmod x.panels p f }

def State.modLcs (s : State) (f : LcsState → LcsState) : State := { s with lcs := f s.lcs }

def State.modRas (s : State) (f : RasState → RasState) : State := { s with ras := f s.ras }

def State.modPrimer (s : State) (n : Fin 8) (f : PrimerSlot → PrimerSlot) : State :=
  s.modRas fun r => { r with primers := vmod r.primers n f }

def State.modTwin (s : State) (f : TwinState → TwinState) : State := { s with twin := f s.twin }

/-- The sending side of a twin port. -/
def State.modLine (s : State) (k : PortId) (f : TwinLine → TwinLine) : State := { s with lines := vmod s.lines k f }
def State.modTwinPort (s : State) (k : PortId) (f : TwinPort → TwinPort) : State :=
  s.modTwin fun t => { t with ports := vmod t.ports k f }

def State.modBind (s : State) (b : BindId) (f : TwinBinding → TwinBinding) : State :=
  s.modTwin fun t => { t with bindings := vmod t.bindings b f }

def State.modClk (s : State) (f : ClkState → ClkState) : State := { s with clk := f s.clk }

def State.modPwr (s : State) (f : PwrState → PwrState) : State := { s with pwr := f s.pwr }

def State.modPins (s : State) (f : Pins → Pins) : State := { s with pins := f s.pins }

def State.modSide (s : State) (f : Sideband → Sideband) : State := { s with side := f s.side }

def State.modFuse (s : State) (f : Fuses → Fuses) : State := { s with fuse := f s.fuse }

/-- What the hub sends or answers, added to the record of it. -/
def State.emit (s : State) (o : Out) : State := { s with out := o :: s.out }

/-- The number of the next free value of Config. -/
def State.drawn (s : State) : State := { s with draws := s.draws + 1 }

/-! ## Elements and where they stand -/

/-- R9: the field of an array, a stack. -/
def fieldOfArray (a : ArrayId) : FieldId := Fin.ofNat 8 (a.val / 5)
def fieldOfStack (k : StackId) : FieldId := Fin.ofNat 8 (k.val / 3)

/-- R9, R185: the field of a host port, and of a twin port. -/
def fieldOfPort (p : PortId) : FieldId := Fin.ofNat 8 (4 * p.val)
def fieldOfTwin (k : PortId) : FieldId := Fin.ofNat 8 (3 + 4 * k.val)

/-- R22: the distance between two fields. -/
def distance (a b : FieldId) : Nat :=
  (max (a.val % 4) (b.val % 4) - min (a.val % 4) (b.val % 4)) + (if a.val / 4 = b.val / 4 then 0 else 1)

/-- R185: the NI of an array, a stack controller and a fast-tier bank's group. -/
def niOfArray (a : ArrayId) : NiId := Fin.ofNat 32 (a.val % 5)
def niOfStack (k : StackId) : NiId := Fin.ofNat 32 (13 + k.val % 3)
def niOfBank (b : Nat) : NiId := Fin.ofNat 32 (5 + b / 8)

/-- R185: the array behind NI `ni` of field `f`, if it is an array's. -/
def arrayOfNi (f : FieldId) (ni : NiId) : Option ArrayId :=
  if ni.val < 5 then some (Fin.ofNat 40 (5 * f.val + ni.val)) else none

/-- R211: an isolated NI. -/
def State.isolated (s : State) (f : FieldId) (ni : NiId) : Bool := s.net.sink[f].getLsbD ni.val

/-- R211: NI `ni` of field `f` goes behind the grout sink, or comes out. -/
def State.setSink (s : State) (f : FieldId) (ni : NiId) (b : Bool) : State :=
  s.modNet fun n => { n with sink := vmod n.sink f fun w => setBit w ni.val b }

/-! ## Words of records -/

/-- Words packed lowest first. -/
def packWords : List Word → Nat
  | [] => 0
  | w :: ws => w.toNat + 2 ^ 32 * packWords ws

/-- Word `k` of a packed record. -/
def wordOf {n : Nat} (r : BitVec n) (k : Nat) : Word := BitVec.ofNat 32 (r.toNat >>> (32 * k))

/-- The SCLK count of the RAS block's own timer. -/
def State.now (s : State) : DWord := BitVec.ofNat 64 s.sclk

/-! ## The fault log, R360 to R363 -/

/-- An event as it is logged (R362). -/
structure FaultEvent where
  cls : BitVec 3 := 0
  source : BitVec 5
  code : Byte := 0
  panel : Byte := 0xFF
  element : Word := 0
  info : Word := 0
  patch : Word := 0xFFFFFFFF
  deriving DecidableEq, Repr

/-- R362: a fault log entry. -/
def faultEntry (e : FaultEvent) (time : DWord) : BitVec 256 :=
  BitVec.ofNat 256 (packWords
    [BitVec.ofNat 32 (e.cls.toNat * 2 ^ 29 + e.source.toNat * 2 ^ 24 + e.code.toNat * 2 ^ 16 + e.panel.toNat * 2 ^ 8),
     e.element, e.info, e.patch, 0, 0, time.setWidth 32, (time >>> 32).setWidth 32])

/-- R362, R363, R409: an event is stored, or counted as lost; classes 4 and 5 set SEVERE, and with it FAULT_N. -/
def State.logFault (s : State) (e : FaultEvent) : State :=
  let severe := 4 ≤ e.cls.toNat
  let s1 := if severe && !s.ras.flogSevere then (s.emit (.faultN true)).emit .i3cIbi else s
  s1.modRas fun r =>
    let r := { r with flogSevere := r.flogSevere || severe }
    if r.flog.length < 1024 then { r with flog := r.flog ++ [faultEntry e s.now], flogNew := true }
    else { r with flogLost := satAdd r.flogLost 1 }

/-- A misuse noted against a package control block (R360 class 0). -/
def State.note (s : State) : State := s.logFault { source := 16 }

/-- A class 0 event of a host port, of a site, and of a twin port, by number (R360, R362). -/
def State.noteHost (s : State) (p : PortId) (code : Byte) : State :=
  s.logFault { source := 10, code := code, element := BitVec.ofNat 32 p.val }
def State.noteSite (s : State) (n : SiteId) (code : Byte) : State :=
  s.logFault { source := 9, code := code, element := BitVec.ofNat 32 n.val }
def State.noteTwin (s : State) (k : PortId) (code : Byte) : State :=
  s.logFault { source := 11, code := code, element := BitVec.ofNat 32 k.val }

/-- The panel number as a record's byte. -/
def panelByte : Option PanelId → Byte
  | none => 0xFF
  | some p => BitVec.ofNat 8 p.val

/-! ## The memory error log, R147 to R149, R424 -/

/-- On whose behalf an access is made: INIT_KIND, INIT_ID, the panel, and the field it stands in. -/
structure Agent where
  kind : BitVec 4
  id : BitVec 16
  panel : Option PanelId
  field : FieldId
  deriving DecidableEq, Repr

/-- No agent (R424). -/
def Agent.nobody : Agent := { kind := 15, id := 0, panel := none, field := 1 }

/-- R424: PANEL is 0xFF for skim, retirement copies, the debug window and no agent. -/
def Agent.panelByte (g : Agent) : Byte :=
  if g.kind = 6 ∨ g.kind = 9 ∨ g.kind = 12 ∨ g.kind = 15 then 0xFF else Machine.panelByte g.panel

/-- A memory event as it is logged. -/
structure MemEvent where
  cls : BitVec 5
  tier : BitVec 3 := 2
  pa : BitVec 52 := 0
  loc : Word := 0
  symbol : Byte := 0xFF
  physBank : Byte := 0
  word : BitVec 3 := 0
  agent : Agent := Agent.nobody
  deriving DecidableEq, Repr

/-- The entry of the table under R424. -/
def memEntry (e : MemEvent) (time : DWord) : BitVec 256 :=
  BitVec.ofNat 256 (packWords
    [BitVec.ofNat 32 (e.cls.toNat * 2 ^ 27 + e.tier.toNat * 2 ^ 24 + e.agent.panelByte.toNat * 2 ^ 16),
     e.pa.setWidth 32, (e.pa >>> 32).setWidth 32, e.loc,
     BitVec.ofNat 32 (e.symbol.toNat * 2 ^ 24 + e.physBank.toNat * 2 ^ 8 + e.word.toNat),
     BitVec.ofNat 32 (e.agent.kind.toNat * 2 ^ 28 + e.agent.id.toNat),
     time.setWidth 32, (time >>> 32).setWidth 32])

/-- R147, R148: a data event is stored, kept out, or counted as lost. -/
def State.logMem (s : State) (e : MemEvent) : State :=
  let soft := e.cls = 1 ∨ e.cls = 4
  s.modRas fun r =>
    if soft ∧ 512 ≤ r.mlog.length then r
    else if r.mlog.length < 1024 then
      { r with mlog := r.mlog ++ [memEntry e s.now], mlogNew := r.mlogNew || !decide soft }
    else { r with mlogLost := satAdd r.mlogLost 1 }

/-! ## Interrupts and readiness, R277, R400 -/

/-- Bits of HPC_IRQ_STATUS_p, R297. -/
abbrev irqReady : Nat := 1
abbrev irqImage : Nat := 2
abbrev irqLife : Nat := 3
abbrev irqSite : Nat := 4
abbrev irqTherm : Nat := 5
abbrev irqTwin : Nat := 6
abbrev irqMirror : Nat := 7

/-- A bit of HPC_IRQ_STATUS_p set on both ports. -/
def State.irq (s : State) (b : Nat) : State := s.modPorts fun p => { p with irqStatus := setBit p.irqStatus b true }

/-- R277: HPC_IRQ_STATUS_p as read; bit 0 is RAS_MLOG_STATUS.NEW. -/
def State.irqStatus (s : State) (p : PortId) : Byte := setBit s.ports[p].irqStatus 0 s.ras.mlogNew

/-- R400, R406: a field's bit of GLB_READY. -/
def State.fieldReady (s : State) (f : FieldId) : Bool :=
  let x := s.fields[f]
  !x.leftOut && x.ft.ready && x.selfTest

/-- R400, R406: a stack's, a site's, a host port's, a twin port's bit of GLB_READY, and the security root's. -/
def State.stackReady (s : State) (k : StackId) : Bool := s.hbm[k].ready && !s.fields[fieldOfStack k].leftOut
def State.siteReady (s : State) (n : SiteId) : Bool := s.sites[n].ready && !s.fields[n].leftOut
/-- R290: an error that PF0's AER capability records, at its bit of the Uncorrectable Error Status register. -/
def State.aer (s : State) (p : PortId) (n : Nat) : State :=
  s.modPort p fun x => { x with cfg := { x.cfg with uncStatus := setBit x.cfg.uncStatus n true } }

/-- R290: a request answered with Unsupported Request, or dropped for it, and one answered with Completer Abort. -/
def State.unsupported (s : State) (p : PortId) : State := (s.aer p 20).emit (.unsupportedRequest p)
/-- R324: a fresh key pair, whose two keys are never equal. -/
def freshKeys (draw : Nat) : BitVec 512 :=
  let k := Config.randomKey draw
  if k.extractLsb' 256 256 = k.extractLsb' 0 256 then k ^^^ 1 else k

/-- R290: what Unsupported Request comes to: a posted request has no completion. -/
def State.refusedRequest (s : State) (p : PortId) (posted : Bool) : State := if posted then s.aer p 20 else s.unsupported p
def State.abortRequest (s : State) (p : PortId) : State := (s.aer p 15).emit (.completerAbort p)

def State.portReady (s : State) (p : PortId) : Bool := s.ports[p].l0 && !s.ports[p].slow && s.stage = 4
/-- R375, R376: how many flits a message takes that starts a flit of its own (DESIGN CHOICE, assumption log 85). -/
def flitCount (m : BitVec 128 × List CodeWord) : Nat :=
  (16 + 64 * m.2.length + (if m.1.getLsbD 22 then 16 else 0) + 255) / 256

/-- R375: a message's flits enter the replay buffer, which has room for 128. -/
def TwinLine.room (x : TwinLine) (m : BitVec 128 × List CodeWord) : Bool := decide (x.buffer.length + flitCount m ≤ 128)
def TwinLine.send (x : TwinLine) (m : BitVec 128 × List CodeWord) : TwinLine :=
  { x with
    nextSeq := x.nextSeq + BitVec.ofNat 12 (flitCount m)
    buffer := x.buffer ++ (List.range (flitCount m)).map fun i =>
      { seq := x.nextSeq + BitVec.ofNat 12 i, header := m.1, words := m.2, part := i } }

/-- R375, R376: a message to the partner; it waits while the replay buffer has no room. ENC is bit 22 of word 0; the words are
shown as they are before they are enciphered. -/
def State.tellTwin (s : State) (k : PortId) (header : BitVec 128) (enc : Bool) (ws : List CodeWord) : State :=
  let m := (if enc then header ||| (1#128 <<< 22) else header, ws)
  if s.lines[k].waiting = [] ∧ s.lines[k].room m then (s.modLine k fun x => x.send m).emit (.twinMsg k m.1 m.2)
  else s.modLine k fun x => { x with waiting := x.waiting ++ [m] }

def State.twinUp (s : State) (k : PortId) : Bool := s.twin.ports[k].state = 2
def State.rootReady (s : State) : Bool := s.stage = 4 && !s.retired

/-- GLB_READY, R406. -/
def State.glbReady (s : State) : DWord :=
  BitVec.ofNat 64 (
    ((allFin 8).map fun f => flag (s.fieldReady f) f.val).sum +
    ((allFin 8).map fun n => flag (s.siteReady n) (8 + n.val)).sum +
    ((allFin 24).map fun k => flag (s.stackReady k) (16 + k.val)).sum +
    ((allFin 2).map fun p => flag (s.portReady p) (40 + p.val)).sum +
    ((allFin 2).map fun k => flag (s.twinUp k) (42 + k.val)).sum + flag s.rootReady 44)

/-- R400: a change of GLB_READY since `before` sets READY on both ports. -/
def State.readyFrom (s before : State) : State := if s.glbReady = before.glbReady then s else s.irq irqReady

/-- R343, R357: the hub's test-only functions. -/
def State.testUnlocked (s : State) : Bool := s.lcs.state = 1 && s.lcs.target.isNone

/-- R271, R295, R344, R361, R401: whether a port accepts memory requests for PF0's registers. -/
def State.pf0Open (s : State) (p : PortId) : Bool :=
  s.portReady p && !s.ports[p].pf0D3hot && s.ras.pkgFault.isNone && !s.retired

/-- A write of one of PF0's registers, which comes through either port. -/
def State.byPf0 (s : State) (f : State → State) : State := if s.pf0Open 0 || s.pf0Open 1 then f s else s

/-- R211: a timeout that names an NI reaches the RAS block. -/
def State.noteTimeout (s : State) (f : FieldId) (ni : NiId) : State :=
  s.modNet fun n => { n with timeoutHits := n.timeoutHits ++ [(32 * f.val + ni.val, s.sclk)] }

/-- R278: a message of a VF's vector is due, after the writes already made. -/
def State.raiseMsix (s : State) (p : PortId) (v : VfId) (vector : BitVec 5) : State :=
  s.modVf p v fun x => { x with waitingMsix := x.waitingMsix ++ [asFin 32 vector.toNat] }

/-- A panel's field relation: the physical array behind its logical array, R314. -/
def State.arrayOf (s : State) (p : PanelId) (logical : Nat) : Option ArrayId :=
  (s.pnl.panels[p].arrays[logical]?).join

end Sys2Proof.Machine
end

