-- ==== Sys2Proof/Machine/Map.lean ====
section
/-!
DEFINITION. The physical address map of chapter Fast tier and HBM stacks: pools, interleave functions, and the numbers
that stored code words are kept under.
-/

namespace Sys2Proof.Machine

/-- Where a code word lies, in physical stacks and strips, or in logical banks and rows (R110, R111). -/
inductive Loc where
  | hbm (stack : StackId) (pc : PcId) (strip : Nat) (word : Nat)
  | ft (field : FieldId) (bank : BankId) (row : Nat) (word : Nat)
  deriving DecidableEq, Repr

/-! ## What is in service -/

/-- R105, R107: a field counts in the mapping when the base image names it, or, before one is loaded, once its fast tier
is in service. -/
def State.fieldMapped (s : State) (f : FieldId) : Bool :=
  if s.img.loaded then bit s.img.fieldMask f.val else s.fields[f].ft.ready

/-- R107, R124, R129: a stack counts in the mapping when the base image names it, or, before one is loaded, from the time it
enters service. -/
def State.stackMapped (s : State) (k : StackId) : Bool :=
  if s.img.loaded then bit s.img.stackMask k.val && bit s.img.fieldMask (fieldOfStack k).val else s.hbm[k].mapped

def State.mappedFields (s : State) : List FieldId := (allFin 8).filter s.fieldMapped
def State.mappedStacks (s : State) : List StackId := (allFin 24).filter s.stackMapped

/-- The stacks in service in field `f`, rising. -/
def State.fieldStacks (s : State) (f : FieldId) : List StackId := s.mappedStacks.filter fun k => fieldOfStack k = f

/-! ## Pool sizes, R108 -/

/-- P(s), and the active pseudo-channels in ascending order. -/
def StackState.pcs (k : StackState) : List PcId := (allFin 64).filter fun p => !(bit k.excluded (p.val / 2))
def StackState.p (k : StackState) : Nat := k.pcs.length

/-- B(f), and the logical banks in the mapping in ascending order. -/
def FtState.banks (x : FtState) : List BankId := (allFin 64).filter fun b => !(bit x.lost b.val)
def FtState.b (x : FtState) : Nat := x.banks.length

/-- Hb: H in bytes. -/
def ImgState.hb (i : ImgState) : Nat := i.h.toNat * 268435456

/-- Rs(s): the first strip of a stack's near part. -/
def nearStart (hb p : Nat) : Nat := if p = 0 then 0 else (hb + 512 * p - 1) / (512 * p)

/-- L(s): a stack's near capacity. -/
def nearCapacity (hb p : Nat) : Nat := p * (1966080 - nearStart hb p) * 512

/-- The least of a list of numbers, 0 where it is empty. -/
def least : List Nat → Nat
  | [] => 0
  | [x] => x
  | x :: y :: r => min x (least (y :: r))

/-- Lmin(f). -/
def State.lmin (s : State) (f : FieldId) : Nat :=
  least ((s.fieldStacks f).map fun k => nearCapacity s.img.hb (s.hbm[k].p)) / 1048576 * 1048576

/-- Bmin. -/
def State.bmin (s : State) : Nat := least (s.mappedFields.map fun f => s.fields[f].ft.b)

def State.hbmSpreadSize (s : State) : Nat := s.mappedStacks.length * s.img.hb
def State.hbmNearSize (s : State) (f : FieldId) : Nat := (s.fieldStacks f).length * s.lmin f
def State.ftSpreadSize (s : State) : Nat := s.mappedFields.length * (s.bmin * s.img.x.toNat * 1048576)
def State.ftNearSize (s : State) (f : FieldId) : Nat := s.fields[f].ft.b * (16 - s.img.x.toNat) * 1048576

/-! ## Fields of a physical address, R103, R104 -/

def paPartner (pa : BitVec 52) : Bool := bit pa 51
def paSpace (pa : BitVec 52) : Nat := fld pa.toNat 48 3
def paField (pa : BitVec 52) : FieldId := Fin.ofNat 8 (fld pa.toNat 45 3)
def paWide (pa : BitVec 52) : Nat := fld pa.toNat 0 48
def paNear (pa : BitVec 52) : Nat := fld pa.toNat 0 45

/-- R105: how far a pool of spaces 0 to 3 is backed, for an address in it. -/
def State.backedSize (s : State) (pa : BitVec 52) : Nat :=
  match paSpace pa with
  | 0 => s.hbmSpreadSize
  | 1 => if s.fieldMapped (paField pa) then s.hbmNearSize (paField pa) else 0
  | 2 => s.ftSpreadSize
  | 3 => if s.fieldMapped (paField pa) then s.ftNearSize (paField pa) else 0
  | _ => 0

/-- The offset of an address in its pool. -/
def paOffset (pa : BitVec 52) : Nat := if paSpace pa = 1 ∨ paSpace pa = 3 then paNear pa else paWide pa

/-! ## Interleave functions, R110, R111 -/

/-- R110, place. -/
def placeStrip (k : StackState) (id : StackId) (lu base word : Nat) : Option Loc :=
  let p := k.p
  let r := lu / p
  (k.pcs[(lu + r) % p]?).map fun pc => .hbm id pc (base + r) word

/-- R111, bankplace. -/
def placeRow (x : FtState) (f : FieldId) (lo base : Nat) : Option Loc :=
  let b := x.b
  let g := lo / 128
  let r := g / b
  (x.banks[(g + r) % b]?).map fun bank => .ft f bank (base + r) (lo % 128 / 64)

/-- R110 and R111 on a backed address of this package's spaces 0 to 3; none where the address is unbacked (R105). -/
def State.locate (s : State) (pa : BitVec 52) : Option Loc :=
  if paPartner pa ∨ s.backedSize pa ≤ paOffset pa then none else
  match paSpace pa with
  | 0 =>
    let u := paWide pa / 512
    let n := s.mappedStacks.length
    (s.mappedStacks[u % n]?).bind fun k => placeStrip s.hbm[k] k (u / n) 0 (paWide pa % 512 / 64)
  | 1 =>
    let u := paNear pa / 512
    let ks := s.fieldStacks (paField pa)
    let m := ks.length
    (ks[u % m]?).bind fun k =>
      placeStrip s.hbm[k] k (u / m) (nearStart s.img.hb s.hbm[k].p) (paNear pa % 512 / 64)
  | 2 =>
    let c := paWide pa / 4096
    let n := s.mappedFields.length
    (s.mappedFields[c % n]?).bind fun f =>
      placeRow s.fields[f].ft f (c / n * 4096 + paWide pa % 4096) 0
  | 3 => placeRow s.fields[paField pa].ft (paField pa) (paNear pa) (s.img.x.toNat * 8192)
  | _ => none

/-- The place of an element in a list; the list's length where it is absent. -/
def indexIn {α : Type} [DecidableEq α] (x : α) : List α → Nat
  | [] => 0
  | y :: r => if y = x then 0 else 1 + indexIn x r

/-- The number the inverse of place gives: the `lu` whose strip is `r` of the `q`-th of `p`. -/
def unplace (p q r : Nat) : Nat := r * p + (q + p - r % p) % p

/-- R106: the physical address of a location; 0 where it lies in no pool (assumption log 7). -/
def State.paOf (s : State) (l : Loc) : BitVec 52 :=
  match l with
  | .hbm k pc strip w =>
    let x := s.hbm[k]
    let rs := nearStart s.img.hb x.p
    let q := indexIn pc x.pcs
    let spread := (unplace x.p q strip * s.mappedStacks.length + indexIn k s.mappedStacks) * 512 + w * 64
    let ks := s.fieldStacks (fieldOfStack k)
    let near := (unplace x.p q (strip - rs) * ks.length + indexIn k ks) * 512 + w * 64
    if strip < rs then (if spread < s.hbmSpreadSize then BitVec.ofNat 52 spread else 0)
    else if near < s.hbmNearSize (fieldOfStack k) then
      BitVec.ofNat 52 (2 ^ 48 + (fieldOfStack k).val * 2 ^ 45 + near)
    else 0
  | .ft f bank row w =>
    let x := s.fields[f].ft
    let base := s.img.x.toNat * 8192
    let q := indexIn bank x.banks
    let lo := unplace x.b q row * 128 + w * 64
    let spread := (lo / 4096 * s.mappedFields.length + indexIn f s.mappedFields) * 4096 + lo % 4096
    let near := unplace x.b q (row - base) * 128 + w * 64
    if row < base then (if spread < s.ftSpreadSize then BitVec.ofNat 52 (2 * 2 ^ 48 + spread) else 0)
    else if near < s.ftNearSize f then BitVec.ofNat 52 (3 * 2 ^ 48 + f.val * 2 ^ 45 + near) else 0

/-! ## Numbers of stored words -/

/-- R151: the strip that holds strip `strip`'s data, once its page may have been redirected to a spare page. -/
def StackState.physStrip (k : StackState) (pc : PcId) (strip : Nat) : Nat :=
  match k.pages.find? fun m => m.pc = pc ∧ m.page = strip / 128 with
  | some m => 1966080 + m.spare * 128 + strip % 128
  | none => strip

def hbmKey (k : StackId) (pc : PcId) (strip word : Nat) : Nat :=
  ((k.val * 64 + pc.val) * 2097152 + strip) * 8 + word

def ftKey (f : FieldId) (phys row word : Nat) : Nat :=
  2 ^ 40 + ((f.val * 66 + phys) * 131072 + row) * 2 + word

/-- R112: the DRAM bank of a strip of a pseudo-channel, and its row: consecutive strips lie in different banks. -/
def dramBank (strip : Nat) : Nat := 2 * Config.dramBank strip + strip % 2
def dramRow (strip : Nat) : Nat × Nat := (dramBank strip, Config.dramRow strip)

/-- R112: the strips of a pseudo-channel, spare pages among them, that share a DRAM row with one. -/
def rowStrips (strip : Nat) : List Nat := (List.range 1973760).filter fun n => dramRow n = dramRow strip

/-- The pseudo-channel and the physical strip that an HBM number names. -/
def pcOfKey (key : Nat) : PcId := asFin 64 (key / 16777216)
def stripOfKey (key : Nat) : Nat := key / 8 % 2097152

/-- Whether the numbers of two runs of words meet. -/
def runsMeet (k n j m : Nat) : Bool := decide (k < j + m ∧ j < k + n)

/-- R122, R151: a repair or a page copy that a word's requests wait on. -/
def StackState.keyHeld (k : StackState) (key : Nat) : Bool :=
  (k.repairBusy && decide (pcOfKey key = asFin 64 (fld k.repairReq.toNat 21 6))) ||
  (k.pageBusy && decide (pcOfKey key = asFin 64 (fld k.pageReq.toNat 14 6)) &&
    decide (stripOfKey key / 128 = fld k.pageReq.toNat 0 14))

/-- The number under which memory keeps a location's word. -/
def State.keyOf (s : State) : Loc → Nat
  | .hbm k pc strip w => hbmKey k pc (s.hbm[k].physStrip pc strip) w
  | .ft f bank row w => ftKey f (s.fields[f].ft.bankMap[bank].toNat) row w

/-- LOC of a memory error log entry. -/
def locWord : Loc → Word
  | .hbm k pc strip _ => BitVec.ofNat 32 (k.val * 2 ^ 27 + pc.val * 2 ^ 21 + strip)
  | .ft f bank row _ => BitVec.ofNat 32 (f.val * 2 ^ 29 + bank.val * 2 ^ 23 + row)

/-- TIER, the word within its strip or row, and PHYS_BANK of a log entry. -/
def locTier : Loc → BitVec 3
  | .hbm .. => 0
  | .ft .. => 1
def locIndex : Loc → BitVec 3
  | .hbm _ _ _ w => BitVec.ofNat 3 w
  | .ft _ _ _ w => BitVec.ofNat 3 w
def State.locPhys (s : State) : Loc → Byte
  | .hbm .. => 0
  | .ft f bank _ _ => (s.fields[f].ft.bankMap[bank]).setWidth 8

/-- R105, R126, R127: a location behind a fence. -/
def State.locFenced (s : State) : Loc → Bool
  | .hbm k pc _ _ => bit s.hbm[k].fenced (pc.val / 2)
  | .ft f bank _ _ => bit s.fields[f].ft.fencedBanks bank.val

/-- R185: the field and NI of a location. -/
def locNi : Loc → FieldId × NiId
  | .hbm k _ _ _ => (fieldOfStack k, niOfStack k)
  | .ft f bank _ _ => (f, niOfBank bank.val)

/-- R211: a location behind the grout sink. A fast tier that has not filled yet is not in service either. -/
def State.locSunk (s : State) (l : Loc) : Bool := s.isolated (locNi l).1 (locNi l).2

end Sys2Proof.Machine
end

