-- ==== Sys2Proof/Machine/Memory.lean ====
section
/-!
DEFINITION. Stored code words: the memory in its canonical form, the classes of a read, the write-backs, and whole-word
reads and writes at a physical address (chapter Stored data integrity).
-/

namespace Sys2Proof.Machine

/-! ## The memory -/

abbrev Mem := List (Nat × StoredWord)

/-- R132: what a location that nothing has written since it entered service holds. -/
def StoredWord.unwritten : StoredWord := { data := 0, cls := .unwritten, err := 0 }

/-- The word kept under a number. -/
def Mem.get (m : Mem) (k : Nat) : StoredWord :=
  match m with
  | [] => .unwritten
  | (j, w) :: r => if j = k then w else Mem.get r k

/-- An entry put before a list whose numbers are all higher; none is made for a word as an unlisted number reads. -/
def Mem.cons (k : Nat) (w : StoredWord) (m : Mem) : Mem := if w = .unwritten then m else (k, w) :: m

/-- The word under a number replaced; the form stays canonical. -/
def Mem.put (m : Mem) (k : Nat) (w : StoredWord) : Mem :=
  match m with
  | [] => Mem.cons k w []
  | (j, x) :: r => if k < j then Mem.cons k w ((j, x) :: r)
    else if k = j then Mem.cons k w r else (j, x) :: Mem.put r k w

/-- R132: every word from `lo` up to below `hi` back to the unwritten mark. -/
def Mem.clear (m : Mem) (lo hi : Nat) : Mem := m.filter fun e => e.1 < lo ∨ hi ≤ e.1

/-- Canonical: numbers strictly rising from above `lo`, and no entry that reads as an unlisted number does. -/
def Mem.wfFrom : Option Nat → Mem → Bool
  | _, [] => true
  | lo, (k, w) :: r => (match lo with | none => true | some j => decide (j < k)) && decide (w ≠ .unwritten) && Mem.wfFrom (some k) r

def Mem.wf (m : Mem) : Bool := Mem.wfFrom none m

/-! ## Classes of a stored word, R130, R131 -/

inductive WordClass where
  | clean | corrected | marked | unwritten | uncorrectable
  deriving DecidableEq, Repr

/-- A read's finding: its class, the code word delivered, and the symbol corrected. -/
structure Finding where
  cls : WordClass
  word : CodeWord
  symbol : Byte := 0xFF
  deriving DecidableEq, Repr

/-- The symbols in error. -/
def badSymbols (e : BitVec 544) : List Nat := (List.range 68).filter fun i => fld e.toNat (8 * i) 8 ≠ 0

/-- The data bytes as read. -/
def StoredWord.raw (w : StoredWord) : BitVec 512 := w.data ^^^ w.err.setWidth 512

/-- A word with more symbols in error than the manual answers for (R130: detection is not guaranteed). -/
def manySymbols (w : StoredWord) : Finding :=
  match Config.multiError w.data (if w.cls = .plain then 0 else if w.cls = .poison then 1 else 2) w.err with
  | none => { cls := .uncorrectable, word := { data := w.raw, mark := true } }
  | some (d, none) => { cls := .clean, word := { data := d, mark := false } }
  | some (d, some i) => { cls := .corrected, word := { data := d, mark := false }, symbol := BitVec.ofNat 8 i.val }

/-- R131, the table of classes. -/
def classify (w : StoredWord) : Finding :=
  let bad := badSymbols w.err
  match w.cls, bad with
  | .plain, [] => { cls := .clean, word := { data := w.data, mark := false } }
  | .plain, [i] => { cls := .corrected, word := { data := w.data, mark := false }, symbol := BitVec.ofNat 8 i }
  | .plain, [_, _] => { cls := .uncorrectable, word := { data := w.raw, mark := true } }
  | .poison, [] => { cls := .marked, word := { data := w.raw, mark := true } }
  | .poison, [_] => { cls := .marked, word := { data := w.raw, mark := true } }
  | .unwritten, [] => { cls := .unwritten, word := { data := 0, mark := true } }
  | .unwritten, [_] => { cls := .unwritten, word := { data := 0, mark := true } }
  | _, _ => manySymbols w

/-- R136: the word that a write-back after such a finding stores; none where the hub writes nothing. -/
def Finding.repair (f : Finding) : Option StoredWord :=
  match f.cls with
  | .corrected => some { data := f.word.data, cls := .plain, err := 0 }
  | .uncorrectable => some { data := f.word.data, cls := .poison, err := 0 }
  | _ => none

/-- R138: a code word as a tier stores it. -/
def stored (w : CodeWord) : StoredWord := { data := w.data, cls := if w.mark then .poison else .plain, err := 0 }

/-! ## Reading and writing a stored word -/

/-- R137: a write reaches a word; the hub's own pending writes to it are discarded. -/
def State.storeAt (s : State) (k : Nat) (w : StoredWord) : State :=
  { s with mem := Mem.put s.mem k w, ras := { s.ras with fixes := s.ras.fixes.filter fun x => x.key ≠ k } }

/-- R136, R137: a write of the hub's own to repair or mark a word, on its way. -/
def State.queueFix (s : State) (k : Nat) (w : StoredWord) : State :=
  s.modRas fun r => { r with fixes := r.fixes ++ [{ key := k, word := w }] }

/-- R150: a counter of corrected errors (15:0) and uncorrectable ones (31:16), each held at its highest value. -/
def bumpErr (w : Word) (uncorr : Bool) : Word :=
  if uncorr then (satAdd (slice w 31 16) 1).setWidth 32 <<< 16 ||| w &&& 0xFFFF
  else w &&& 0xFFFF0000 ||| (satAdd (slice w 15 0) 1).setWidth 32

/-- R150: the counter of a location's channel or logical bank. -/
def State.countErr (s : State) (l : Loc) (uncorr : Bool) : State :=
  match l with
  | .hbm k pc _ _ => s.modStack k fun x => { x with errs := vmod x.errs (asFin 32 (pc.val / 2)) fun w => bumpErr w uncorr }
  | .ft f bank _ _ => s.modFt f fun x => { x with errs := vmod x.errs bank fun w => bumpErr w uncorr }

/-- The event of a class at a location, for an agent. -/
def State.memEventAt (s : State) (cls : BitVec 5) (l : Loc) (g : Agent) (symbol : Byte := 0xFF) : MemEvent :=
  { cls := cls, tier := locTier l, pa := s.paOf l, loc := locWord l, symbol := symbol, physBank := s.locPhys l,
    word := locIndex l, agent := g }

/-- An event of a class about a code word's physical address: with its location where it has one. -/
def State.wordEvent (s : State) (cls : BitVec 5) (pa : BitVec 52) (g : Agent) : State :=
  match (if paPartner pa ∨ 4 ≤ paSpace pa then none else s.locate pa) with
  | some l => s.logMem { s.memEventAt cls l g with pa := pa &&& ~~~63#52 }
  | none => s.logMem { cls := cls, pa := pa &&& ~~~63#52, agent := g }

/-- Raw symbol errors that a read meets stay in the cells. -/
def State.strike (s : State) (k : Nat) (flips : BitVec 544) : State :=
  if flips = 0 then s else
  let w := Mem.get s.mem k
  { s with mem := Mem.put s.mem k { w with err := w.err ^^^ flips } }

/-- R131, R136, R150: what the hub does about a finding: it counts, logs, and starts the write-back. -/
def State.acted (s : State) (l : Loc) (k : Nat) (g : Agent) (f : Finding) : State :=
  match f.cls with
  | .clean | .marked => s
  | .unwritten => s.logMem (s.memEventAt 4 l g)
  | .corrected =>
    ((s.countErr l false).logMem (s.memEventAt 1 l g f.symbol)).queueFix k { data := f.word.data, cls := .plain, err := 0 }
  | .uncorrectable =>
    ((s.countErr l true).logMem (s.memEventAt 2 l g)).queueFix k { data := f.word.data, cls := .poison, err := 0 }

/-- R117: the youngest write to a word that waits in its stack controller's queue. -/
def StackState.queued (k : StackState) (key : Nat) : Option CodeWord :=
  (k.writeQ.reverse.find? fun w => w.key = key).map (·.word)

/-! ## Enciphered ranges, R324, R325 -/

/-- The keys under which a physical address is stored. -/
def State.keysAt (s : State) (pa : BitVec 52) : Option (BitVec 512) :=
  (s.pnl.keyRanges.find? fun r => r.base ≤ pa.toNat ∧ pa.toNat < r.base + r.length).map (·.keys)

/-- R325: the data unit number of a code word. -/
def dataUnit (pa : BitVec 52) : BitVec 128 := (pa >>> 6).setWidth 128

def State.encipher (s : State) (pa : BitVec 52) (w : CodeWord) : CodeWord :=
  match s.keysAt pa with
  | some k => { w with data := Config.xtsEncrypt k (dataUnit pa) w.data }
  | none => w

def State.decipher (s : State) (pa : BitVec 52) (w : CodeWord) : CodeWord :=
  match s.keysAt pa with
  | some k => { w with data := Config.xtsDecrypt k (dataUnit pa) w.data }
  | none => w

/-! ## Reads at a location, R117, R118 -/

/-- R118: the youngest write to a word that waits at its bank, as it will be stored. -/
def State.bankQueued (s : State) (f : FieldId) (key : Nat) : Option CodeWord :=
  (s.fields[f].ft.queue.reverse.find? fun r => r.isWrite && runsMeet r.key r.count key 1).bind fun r =>
    (r.words[key - r.key]?).map (s.encipher (r.pa + BitVec.ofNat 52 (64 * (key - r.key))))

/-- R117, R118: what a read meets: a write to the word that waits in its controller's queue, or at its bank when the read
comes after it, or the word as stored. `served` tells that the read itself has waited its turn at the bank. -/
def State.atLoc (s : State) (l : Loc) (served : Bool) : StoredWord :=
  let k := s.keyOf l
  match l with
  | .hbm st _ _ _ => ((s.hbm[st].queued k).map stored).getD (Mem.get s.mem k)
  | .ft f _ _ _ => (((if served then none else s.bankQueued f k)).map stored).getD (Mem.get s.mem k)

/-- R131: a location read and classified, with what the hub does about it. -/
def State.readLoc (s : State) (l : Loc) (g : Agent) (flips : BitVec 544) (served : Bool := false) : Finding × State :=
  let k := s.keyOf l
  let s1 := s.strike k flips
  let f := classify (s1.atLoc l served)
  (f, s1.acted l k g f)

/-- R117, R118, R122, R151: an access to a word that its controller or bank cannot take yet: a repair or a page copy is
under way, or, for a write, an earlier access to the word still waits. -/
def State.locHeld (s : State) (l : Loc) (write : Bool) : Bool :=
  let key := s.keyOf l
  match l with
  | .hbm k _ _ _ => s.hbm[k].keyHeld key || (write && s.hbm[k].readQ.any fun r => runsMeet r.key r.count key 1)
  | .ft f _ _ _ => write && s.fields[f].ft.queue.any fun r => runsMeet r.key r.count key 1

def State.paHeld (s : State) (pa : BitVec 52) (write : Bool) : Bool := (s.locate pa).any fun l => s.locHeld l write

/-- R381: the checkpoint range of a primary binding in state 3 or 4 that holds an address. -/
def TwinBinding.rangeOf (b : TwinBinding) (pa : Nat) : Option (Nat × Nat) :=
  ((List.range b.ranges.length).zip b.ranges).findSome? fun x =>
    if x.2.base ≤ pa ∧ pa < x.2.base + x.2.length then some (x.1, pa - x.2.base) else none

/-- R381: the binding, range and offset under which a write at an address is mirrored. -/
def State.mirrorOf (s : State) (pa : BitVec 52) : Option (BindId × Nat × Nat) :=
  (allFin 64).findSome? fun b =>
    let x := s.twin.bindings[b]
    if x.valid ∧ x.role = 1 ∧ (x.state = 3 ∨ x.state = 4) then
      (x.rangeOf pa.toNat).map fun r => (b, r.1, r.2)
    else none

/-- R381: how many more messages of one code word, of 80 bytes, a port's mirror queue of 2 MiB holds. -/
def State.mirrorRoom (s : State) (k : PortId) : Nat := (2 ^ 21 - 80 * s.twin.ports[k].queue.length) / 80

/-- R381: the copies of `n` code words written at an address do not fit into their mirror queue: the writes wait. -/
def State.mirrorShort (s : State) (pa : BitVec 52) (n : Nat) : Bool :=
  (s.mirrorOf pa).any fun m => decide (s.mirrorRoom s.twin.bindings[m.1].port < n)

/-- R424: the field of the controller or bank that holds an address. -/
def State.fieldOfPa (s : State) (pa : BitVec 52) : FieldId :=
  match s.locate pa with
  | some l => (locNi l).1
  | none => paField pa

/-! ## Commons regions, R153 to R156 -/

/-- The region whose copy holds an address: its number, whether the copy is the mirror, and the offset in it. -/
def State.commonsAt (s : State) (pa : BitVec 52) : Option (Fin 32 × Bool × Nat) :=
  (allFin 32).findSome? fun n =>
    let c := s.pnl.commons[n]
    if c.state = 0 then none
    else if c.primary ≤ pa.toNat ∧ pa.toNat < c.primary + c.length then some (n, false, pa.toNat - c.primary)
    else if c.mirrored ∧ c.mirror ≤ pa.toNat ∧ pa.toNat < c.mirror + c.length then some (n, true, pa.toNat - c.mirror)
    else none

/-- The address of a region's copy at an offset. -/
def CommonsState.copyPa (c : CommonsState) (mirror : Bool) (off : Nat) : BitVec 52 :=
  BitVec.ofNat 52 ((if mirror then c.mirror else c.primary) + off)

/-- R154: the address at which a field's read of a region goes to its nearer copy. -/
def State.nearCopy (s : State) (from_ : FieldId) (pa : BitVec 52) : BitVec 52 :=
  match s.commonsAt pa with
  | some (n, _, off) =>
    let c := s.pnl.commons[n]
    let p := c.copyPa false off
    let m := c.copyPa true off
    if c.mirrored && distance from_ (paField m) < distance from_ (paField p) then m else p
  | none => pa

/-- Whether a finding is good data. -/
def Finding.good (f : Finding) : Bool := f.cls = .clean || f.cls = .corrected

/-- R156: a word of region `n` is lost. -/
def State.commonsLost (s : State) (n : Fin 32) (l : Loc) (g : Agent) : State :=
  (s.logMem (s.memEventAt 0xB l g)).modRas fun r => { r with damaged := setBit r.damaged n.val true }

/-- R131, R133, R325: what a finding delivers: its bytes deciphered, or the zero bytes of an unwritten word. -/
def State.delivered (s : State) (pa : BitVec 52) (f : Finding) : CodeWord :=
  if f.cls = .unwritten then f.word else s.decipher pa f.word

/-- R136, R156: a copy that read unwritten gets the stored poison mark; the other findings have, or have been given, it. -/
def State.markLost (s : State) (l : Loc) (f : Finding) : State :=
  if f.cls = .unwritten then s.queueFix (s.keyOf l) { data := f.word.data, cls := .poison, err := 0 } else s

/-- R337: R154 to R156 govern the reads of a loaded region. -/
def State.loadedAt (s : State) (pa : BitVec 52) : Option (Fin 32 × Bool × Nat) :=
  (s.commonsAt pa).filter fun x => s.pnl.commons[x.1].state = 4

/-- The other copy of a commons word, read: none where nothing can be read there. -/
def State.readCopy (s : State) (other : BitVec 52) (g : Agent) : Option (Loc × Finding) × State :=
  match s.locate other with
  | none => (none, s)
  | some l =>
    if s.locSunk l || s.locFenced l then (none, s)
    else
      let r := s.readLoc l g 0
      (some (l, r.1), r.2)

/-- R155, R156: a read of address `pa` at `l` that found `f`: a bad copy of a word of a loaded region falls back to the
other. -/
def State.fallback (s : State) (pa : BitVec 52) (l : Loc) (g : Agent) (f : Finding) : CodeWord × State :=
  let mine := s.delivered pa f
  if f.good then (mine, s) else
  match s.loadedAt pa with
  | none => (mine, s)
  | some (n, mirror, off) =>
    let c := s.pnl.commons[n]
    if !c.mirrored then (mine, if f.cls = .uncorrectable then s.commonsLost n l g else s) else
    let other := c.copyPa (!mirror) off
    match s.readCopy other g with
    | (none, s1) => (mine, (s1.markLost l f).commonsLost n l g)
    | (some (l2, f2), s1) =>
      if f2.good then
        let w := s1.decipher other f2.word
        let s2 := s1.queueFix (s1.keyOf l) (stored (s1.encipher pa w))
        (w, s2.logMem (s2.memEventAt 0xA l g))
      else (mine, ((s1.markLost l f).markLost l2 f2).commonsLost n l g)

/-! ## Whole code words at a physical address -/

/-- What an access came back with: its response status (R212) and, for a read, the code word. -/
structure Reply where
  status : BitVec 3
  word : CodeWord
  deriving DecidableEq, Repr

/-- R105, R210: what a sink or an unbacked address delivers. -/
def poisonWord : CodeWord := { data := 0, mark := true }

/-- R105: an unbacked access, logged with its address and requester. -/
def State.unbackedEvent (s : State) (pa : BitVec 52) (g : Agent) : State := s.wordEvent 9 pa g

/-- R105, R131, R154 to R156, R210: a code word read at a physical address of spaces 0 to 3. -/
def State.readCode (s : State) (g : Agent) (pa0 : BitVec 52) (flips : BitVec 544 := 0) : Reply × State :=
  let pa := s.nearCopy g.field (pa0 &&& ~~~63#52)
  match s.locate pa with
  | none => ({ status := 2, word := poisonWord }, s.unbackedEvent pa g)
  | some l =>
    if s.locSunk l then ({ status := 1, word := poisonWord }, s)
    else if s.locFenced l then ({ status := 2, word := poisonWord }, s.unbackedEvent pa g)
    else
      let r := s.readLoc l g flips
      let w := r.2.fallback pa l g r.1
      ({ status := 0, word := w.1 }, w.2)

/-- R381: a write's copy enters the mirror queue of the binding's port. -/
def State.mirror (s : State) (pa : BitVec 52) (w : CodeWord) : State :=
  match s.mirrorOf pa with
  | none => s
  | some (b, range, off) =>
    (s.modTwinPort s.twin.bindings[b].port fun t => { t with queue := t.queue ++ [.ckpt b range off w] }).modBind b
      fun x => { x with pendingWords := x.pendingWords + 1 }

/-- R134, R138, R325, R381: a code word stored at a location that takes it, with its copy for a shadow. -/
def State.putCode (s : State) (pa : BitVec 52) (l : Loc) (w : CodeWord) : State :=
  let k := s.keyOf l
  let x := s.encipher pa w
  let s1 := match l with
    | .hbm st _ _ _ => s.modStack st fun y => { y with writeQ := y.writeQ.filter fun q => q.key ≠ k }
    | .ft .. => s
  (s1.storeAt k (stored x)).mirror pa w

/-- R105, R210: a code word written at a physical address of spaces 0 to 3; the status it is answered with. -/
def State.writeCode (s : State) (g : Agent) (pa0 : BitVec 52) (w : CodeWord) : BitVec 3 × State :=
  let pa := pa0 &&& ~~~63#52
  match s.locate pa with
  | none => (2, s.unbackedEvent pa g)
  | some l =>
    if s.locSunk l then (1, s)
    else if s.locFenced l then (2, s.unbackedEvent pa g)
    else (0, s.putCode pa l w)

/-- Consecutive code words written from an address; the first status that is not 0. -/
def State.writeCodes (s : State) (g : Agent) (pa : BitVec 52) : List CodeWord → BitVec 3 × State
  | [] => (0, s)
  | w :: ws =>
    let r := s.writeCode g pa w
    let t := State.writeCodes r.2 g (pa + 64) ws
    (if r.1 = 0 then t.1 else r.1, t.2)

/-- Consecutive code words read from an address. -/
def State.readCodes (s : State) (g : Agent) (pa : BitVec 52) : Nat → List Reply × State
  | 0 => ([], s)
  | n + 1 =>
    let r := s.readCode g pa
    let t := State.readCodes r.2 g (pa + 64) n
    (r.1 :: t.1, t.2)

end Sys2Proof.Machine
end

