-- ==== Sys2Proof/Machine/Atomic.lean ====
section
/-!
DEFINITION. Network atomics at their target (R73, R135, R260), and the answering of a transaction.
-/

namespace Sys2Proof.Machine

/-- The operand size of an atomic in bytes. -/
def atomicSize : AtomicOp → Nat
  | .add32 => 4
  | .add64 => 8
  | .swap64 => 8
  | .cas64 => 8

/-- R260: the operation of an opcode. -/
def atomicOfCode : Nat → Option AtomicOp
  | 0 => some .add32
  | 1 => some .add64
  | 2 => some .swap64
  | 3 => some .cas64
  | _ => none

def atomicCode : AtomicOp → Nat
  | .add32 => 0
  | .add64 => 1
  | .swap64 => 2
  | .cas64 => 3

/-- What an atomic stores in place of `old`; none where a compare fails. -/
def atomicResult (op : AtomicOp) (old operand compare : Nat) : Option Nat :=
  match op with
  | .add32 => some ((old + operand) % 2 ^ 32)
  | .add64 => some ((old + operand) % 2 ^ 64)
  | .swap64 => some operand
  | .cas64 => if old = compare then some operand else none

/-- The value of an atomic's operand field in a code word. -/
def atomicOld (op : AtomicOp) (off : Nat) (w : BitVec 512) : Nat := fld w.toNat (8 * off) (8 * (atomicSize op))

/-- The code word an atomic leaves. -/
def atomicNew (op : AtomicOp) (off operand compare : Nat) (w : BitVec 512) : BitVec 512 :=
  match atomicResult op (atomicOld op off w) operand compare with
  | some v => putBytes w off (bytesOf (atomicSize op) v)
  | none => w

/-- The old value at the operand's offset, in a code word of its own. -/
def atomicReturn (op : AtomicOp) (off : Nat) (w : BitVec 512) : BitVec 512 :=
  BitVec.ofNat 512 (atomicOld op off w * 2 ^ (8 * off))

/-- R135: an atomic performed at a location, on a word that reads as data; a marked operand marks the result (R73). -/
def State.atomicLoc (s : State) (g : Agent) (pa : BitVec 52) (l : Loc) (op : AtomicOp) (off operand compare : Nat)
    (marked : Bool) (flips : BitVec 544) : Reply × State :=
  let r := s.readLoc l g flips true
  let w := r.2.decipher pa r.1.word
  if !r.1.good then ({ status := 0, word := { data := atomicReturn op off w.data, mark := true } }, r.2)
  else
    let old : CodeWord := { data := atomicReturn op off w.data, mark := marked }
    match atomicResult op (atomicOld op off w.data) operand compare with
    | none => ({ status := 0, word := old }, r.2)
    | some _ =>
      ({ status := 0, word := old }, r.2.putCode pa l { data := atomicNew op off operand compare w.data, mark := marked })

/-- R105, R135, R210: an atomic performed at an address. -/
def State.atomicAt (s : State) (g : Agent) (pa0 : BitVec 52) (op : AtomicOp) (off operand compare : Nat) (marked : Bool)
    (flips : BitVec 544) : Reply × State :=
  let pa := pa0 &&& ~~~63#52
  match s.locate pa with
  | none => ({ status := 2, word := poisonWord }, s.unbackedEvent pa g)
  | some l =>
    if s.locSunk l then ({ status := 1, word := poisonWord }, s)
    else if s.locFenced l then ({ status := 2, word := poisonWord }, s.unbackedEvent pa g)
    else s.atomicLoc g pa l op off operand compare marked flips

/-- A transaction answered at its target: the response travels back to its initiator. -/
def State.answerTxn (s : State) (id : TxId) (status : BitVec 3) (data : List CodeWord) : State :=
  let f := fun (t : Txn) => { t with stage := .answered, status := status, data := data }
  s.modNet fun n => { n with flight := modFirst (fun t => t.id = id) f n.flight }

def State.txn (s : State) (id : TxId) : Option Txn := s.net.flight.find? fun t => t.id = id

/-! ## Deduplication, R208 -/

def State.dedupOf (s : State) (f : FieldId) (ni : NiId) (id : TxId) : Option DedupEntry :=
  s.net.dedup.find? fun e => e.field = f ∧ e.ni = ni ∧ e.id = id

/-- R208: a target's table has room for a request of an initiator's field: it keeps 1,024 entries for each. -/
def State.tableRoom (s : State) (g : FieldId) (mi : NiId) (id : TxId) : Bool :=
  decide ((s.net.dedup.countP fun e => e.field = g ∧ e.ni = mi ∧ e.id.field = id.field) < 1024)

/-- The response of a performed atomic or signal kept at its target. -/
def State.remember (s : State) (f : FieldId) (ni : NiId) (id : TxId) (status : BitVec 3) (data : List CodeWord) : State :=
  s.modNet fun n => { n with dedup := n.dedup ++ [{ field := f, ni := ni, id := id, status := status, data := data }] }

end Sys2Proof.Machine
end

