-- ==== Sys2Proof/Machine/Route.lean ====
section
/-!
DEFINITION. Routes of the hub network, its budget points, and a request's way from one NI to another and back (chapter The
hub network and the timing promise).
-/

namespace Sys2Proof.Machine

/-! ## Routers, R183 to R188 -/

/-- A router: one of a field's twelve stations, or a gate: 0 top, 1 bottom, 2 across. -/
inductive Router where
  | station (f : FieldId) (k : Fin 12)
  | gate (f : FieldId) (g : Fin 3)
  deriving DecidableEq, Repr

/-- Where an output port leads. -/
inductive Hop where
  | go (r : Router) (crossed : Option (Fin 10))
  | exit (f : FieldId) (ni : NiId)
  | absent
  deriving DecidableEq, Repr

/-- The ring's order of stations. -/
def ringNext (k : Fin 12) : Fin 12 :=
  if k.val < 5 then asFin 12 (k.val + 1) else if k.val = 5 then 11 else if k.val = 6 then 0 else asFin 12 (k.val - 1)

def ringPrev (k : Fin 12) : Fin 12 :=
  if k.val = 0 then 6 else if k.val < 6 then asFin 12 (k.val - 1) else if k.val = 11 then 5 else asFin 12 (k.val + 1)

/-- R185: the station and local port of an NI. -/
def niStation (ni : NiId) : Fin 12 :=
  asFin 12 (if ni.val < 5 then 7 + ni.val else if ni.val < 13 then ni.val - 5 else if ni.val < 16 then 2 * (ni.val - 13)
    else if ni.val = 16 then 8 else if ni.val = 17 then 3 else if ni.val = 18 then 1 else if ni.val = 20 then 0
    else if ni.val = 22 then 2 else 5)

def niPort (ni : NiId) : Nat :=
  if ni.val < 5 then 6 else if ni.val < 13 then 7 else if ni.val < 16 then 6 else if ni.val = 21 then 9 else 8

/-- R185: links of an NI. -/
def niLinks (ni : NiId) : Nat :=
  if ni.val < 13 then 12 else if ni.val < 16 then 16 else if ni.val = 16 then 21 else if ni.val = 17 then 4
  else if ni.val = 19 then 1 else if ni.val = 21 then 3 else 2

/-- R365: the element word of an NI. -/
def niElement (f : FieldId) (ni : NiId) : Word := BitVec.ofNat 32 (f.val * 256 + ni.val)

/-- R185: whether field `f` has an NI. -/
def niPresent (f : FieldId) (ni : NiId) : Bool := !(bit (absentNis f) ni.val)

/-- The NI on a station's local port. -/
def niAt (f : FieldId) (k : Fin 12) (port : Nat) : Option NiId :=
  (allFin 32).find? fun ni => niPresent f ni && niStation ni = k && niPort ni = port

/-- Whether a field has a gate. -/
def gateIn (f : FieldId) (g : Fin 3) : Bool :=
  if g.val = 0 then f.val % 4 ≠ 0 else if g.val = 1 then f.val % 4 ≠ 3 else true

/-- R10: the boundary behind a gate, and the field beyond it. -/
def boundaryOf (f : FieldId) (g : Fin 3) : Fin 10 :=
  if g.val = 2 then asFin 10 (6 + f.val % 4) else asFin 10 (3 * (f.val / 4) + f.val % 4 - (if g.val = 0 then 1 else 0))

def beyond (f : FieldId) (g : Fin 3) : FieldId :=
  if g.val = 2 then asFin 8 ((f.val + 4) % 8) else if g.val = 0 then asFin 8 (f.val - 1) else asFin 8 (f.val + 1)

/-- The gate that a crossing arrives at. -/
def farGate (g : Fin 3) : Fin 3 := if g.val = 0 then 1 else if g.val = 1 then 0 else 2

def toGate (f : FieldId) (g : Fin 3) : Hop := if gateIn f g then .go (.gate f g) none else .absent

/-- R188: where output port `p` of a router leads. -/
def hop : Router → Nat → Hop
  | .station f k, p =>
    if p = 0 then .go (.station f (ringNext k)) none
    else if p = 1 then .go (.station f (ringPrev k)) none
    else if p = 2 then
      (if 1 ≤ k.val ∧ k.val ≤ 4 then .go (.station f (asFin 12 (k.val + 6))) none
       else if 7 ≤ k.val ∧ k.val ≤ 10 then .go (.station f (asFin 12 (k.val - 6))) none else .absent)
    else if p < 6 then toGate f (asFin 3 (p - 3))
    else match niAt f k p with
      | some ni => .exit f ni
      | none => .absent
  | .gate f g, p =>
    if p = 0 then .go (.gate (beyond f g) (farGate g)) (some (boundaryOf f g))
    else if p < 4 then (if p = g.val + 1 then .absent else toGate f (asFin 3 (p - 1)))
    else .go (.station f (asFin 12 (p - 4))) none

/-! ## Stencils, R186, R187 -/

/-- The place of a stencil among those loaded. -/
def stencilKey (f : FieldId) (ni : NiId) (index : Nat) : Nat := (32 * f.val + ni.val) * 256 + index

def State.stencil (s : State) (f : FieldId) (ni : NiId) (index : Nat) : DWord :=
  ((s.net.stencils.find? fun e => e.1 = stencilKey f ni index).map (·.2)).getD 0

def stencilValid (e : DWord) : Bool := bit e 31
def stencilHops (e : DWord) : List Nat :=
  ((List.range 12).take (fld e.toNat 27 4)).map fun i => fld e.toNat (if i < 6 then 4 * i else 32 + 4 * (i - 6)) 4
def stencilField (e : DWord) : FieldId := asFin 8 (fld e.toNat 24 3)
def stencilNi (e : DWord) : NiId := asFin 32 (fld e.toNat 56 5)

/-- A route followed to its end: the routers it takes, the boundaries it crosses, and the NI it leaves by. -/
structure RouteEnd where
  routers : List Router
  crossed : List (Fin 10)
  field : FieldId
  ni : NiId
  deriving DecidableEq, Repr

def walkRoute (r : Router) : List Nat → Option RouteEnd
  | [] => none
  | p :: ps =>
    match hop r p with
    | .absent => none
    | .exit f ni => if ps = [] then some { routers := [r], crossed := [], field := f, ni := ni } else none
    | .go r2 c => (walkRoute r2 ps).map fun e => { e with routers := r :: e.routers, crossed := c.toList ++ e.crossed }

/-- What becomes of a packet from one NI to another (R186, R190, R194). -/
inductive RouteOut where
  | ok (crossed : List (Fin 10))
  | sink
  | misroute
  deriving DecidableEq, Repr

def State.route (s : State) (f : FieldId) (ni : NiId) (g : FieldId) (mi : NiId) : RouteOut :=
  if !s.net.tableValid then (if f = g then .ok [] else .sink)
  else
    let e := s.stencil f ni (32 * g.val + mi.val)
    if !stencilValid e then .sink
    else match walkRoute (.station f (niStation ni)) (stencilHops e) with
      | none => .sink
      | some r =>
        if r.crossed.any fun b => s.net.lath[b].inService = 0 then .sink
        else if r.field = g ∧ r.ni = mi then .ok r.crossed else .misroute

/-! ## Targets, R185 -/

/-- R377: the twin port that serves a panel's partner addresses, if one is up. -/
def State.twinPortOf (s : State) (p : PanelId) : Option PortId :=
  s.pnl.panels[p].twin.bind fun b =>
    let x := s.twin.bindings[b]
    let other : PortId := if x.port = 0 then 1 else 0
    if s.twinUp x.port then some x.port else if x.alt ∧ s.twinUp other then some other else none

/-- The NI that a physical address resolves to for a panel; none for an unbacked address. -/
def State.targetNi (s : State) (panel : Option PanelId) (pa : BitVec 52) : Option (FieldId × NiId) :=
  if paPartner pa then
    let k := (panel.bind s.twinPortOf).getD ((panel.bind fun p => s.pnl.panels[p].twin.map fun b => s.twin.bindings[b].port).getD 0)
    some (fieldOfTwin k, 21)
  else if paSpace pa < 4 then (s.locate pa).map locNi
  else if paSpace pa = 4 then some (paField pa, 16)
  else if paSpace pa = 5 then
    (let o := pa.toNat % 2 ^ 48
     if o < 0x1000000 then some (1, 22) else if o < 0x9000000 then some (asFin 8 (o / 0x1000000 - 1), 19) else none)
  else none

/-! ## Budget points, R195 to R198 -/

def State.tintPrio (s : State) (t : TintId) : Nat := fld s.net.tints[t].toNat 24 2
def State.tintPromise (s : State) (t : TintId) : Bool := bit s.net.tints[t] 31

/-- R196: the capacity of a budget point in code words per window. -/
def State.capacity (s : State) (f : FieldId) (ni : NiId) (injection : Bool) : Nat :=
  if injection then niLinks ni * 3000
  else if 13 ≤ ni.val ∧ ni.val < 16 then 48000
  else if 5 ≤ ni.val ∧ ni.val < 13 then 36000
  else if ni.val = 16 then
    let x := s.sites[f]
    min 63000 (x.modules.toNat * (if x.rate = 0 then 16 else if x.rate = 1 then 24 else 32) * 125)
  else if ni.val = 17 then 12000
  else 0

/-- R196: whether an NI is a target point. -/
def targetPoint (ni : NiId) : Bool := 5 ≤ ni.val && ni.val < 18

def State.budget (s : State) (f : FieldId) (ni : NiId) (injection : Bool) (t : TintId) : Nat :=
  let w := s.net.tints[t].toNat
  (if injection then fld w 8 8 else fld w 16 8) * s.capacity f ni injection / 256

def isCount (f : FieldId) (ni : NiId) (injection : Bool) (t : TintId) (c : BudgetCount) : Bool :=
  c.field = f && c.ni = ni && c.injection = injection && c.tint = t

/-- A point's counters for a tint. -/
def State.countOf (s : State) (f : FieldId) (ni : NiId) (injection : Bool) (t : TintId) : BudgetCount :=
  (s.net.budgets.find? (isCount f ni injection t)).getD
    { field := f, ni := ni, injection := injection, tint := t, words := 0, lastWords := 0, isOver := false,
      demotedWindows := 0, misses := 0 }

def State.setCount (s : State) (c : BudgetCount) : State :=
  s.modNet fun n =>
    if n.budgets.any (isCount c.field c.ni c.injection c.tint) then
      { n with budgets := modFirst (isCount c.field c.ni c.injection c.tint) (fun _ => c) n.budgets }
    else { n with budgets := n.budgets ++ [c] }

/-- R197: code words counted at a point; whether the request was in budget there. -/
def State.tally (s : State) (f : FieldId) (ni : NiId) (injection : Bool) (t : TintId) (n : Nat) : Bool × State :=
  let c := s.countOf f ni injection t
  let ok := decide (c.words < s.budget f ni injection t)
  let c1 := { c with words := c.words + n }
  (ok, s.setCount (if ok ∨ c.isOver then c1 else
    { c1 with isOver := true, demotedWindows := satAdd c.demotedWindows 1 }))

/-! ## Ways between two NIs -/

/-- R186, R190, R194, R210: a request refused on its way from one NI to another, with the status it is answered with. -/
def State.wayOut (s : State) (src dst : FieldId × NiId) : Option (BitVec 3) :=
  if s.isolated dst.1 dst.2 then some 1
  else match s.route src.1 src.2 dst.1 dst.2 with
    | .ok _ => none
    | .sink => some 1
    | .misroute => some 4

/-- R186, R190, R194: what becomes of the response on its way back: 0x0 when it arrives. -/
def State.wayHome (s : State) (src dst : FieldId × NiId) : BitVec 3 :=
  match s.route dst.1 dst.2 src.1 src.2 with
  | .ok _ => 0
  | .sink => 3
  | .misroute => 4

/-- R207: a request that no response answers within its time: counted, logged, and counted towards isolation. -/
def State.timedOut (s : State) (p : Option PanelId) (dst : FieldId × NiId) : State :=
  ((s.modNet fun n => { n with timeouts := satAdd n.timeouts 1 }).logFault
    { source := 8, code := 3, panel := panelByte p, element := niElement dst.1 dst.2 }).noteTimeout dst.1 dst.2

/-- R190, R207: what the hub records of a request that its way, there or back, ended. -/
def State.wayLog (s : State) (p : Option PanelId) (dst : FieldId × NiId) (st : BitVec 3) : State :=
  if st = 4 then s.logFault { source := 8, code := 4, panel := panelByte p, element := niElement dst.1 dst.2 }
  else if st = 3 then s.timedOut p dst else s

/-- R197: a request counted at both its points. -/
def State.counted (s : State) (src dst : FieldId × NiId) (t : TintId) (n : Nat) : State :=
  let s1 := (s.tally src.1 src.2 true t n).2
  if targetPoint dst.2 then (s1.tally dst.1 dst.2 false t n).2 else s1

/-- A code word read at a physical address of spaces 0 to 3 from an NI, under a tint: counted, carried there, read, and
carried back (R186, R190, R194, R197). -/
def State.fetchCode (s0 : State) (g : Agent) (ni : NiId) (t : TintId) (pa : BitVec 52) (flips : BitVec 544) : Reply × State :=
  let src := (g.field, ni)
  match s0.targetNi none pa with
  | none => s0.readCode g pa flips
  | some dst =>
    let s := s0.counted src dst t 1
    match s.wayOut src dst with
    | some st => ({ status := st, word := poisonWord }, s.wayLog g.panel dst st)
    | none =>
      let r := s.readCode g pa flips
      let st := s.wayHome src dst
      if st = 0 then r else ({ status := st, word := poisonWord }, r.2.wayLog g.panel dst st)

/-- A code word written the same way. -/
def State.storeCode (s0 : State) (g : Agent) (ni : NiId) (t : TintId) (pa : BitVec 52) (w : CodeWord) : BitVec 3 × State :=
  let src := (g.field, ni)
  match s0.targetNi none pa with
  | none => s0.writeCode g pa w
  | some dst =>
    let s := s0.counted src dst t 1
    match s.wayOut src dst with
    | some st => (st, s.wayLog g.panel dst st)
    | none =>
      let r := s.writeCode g pa w
      let st := s.wayHome src dst
      if st = 0 then r else (st, r.2.wayLog g.panel dst st)

end Sys2Proof.Machine
end

