-- ==== Sys2Proof/Machine/Homes.lean ====
section
/-!
DEFINITION. Home slices and hub caching agents: what a request, a snoop, an answer and a write-back do (chapter
Coherence). The commands over them stand in Coherence.lean.
-/

namespace Sys2Proof.Machine

/-! ## Lines and homes, R214, R221 -/

def lineOf (pa : BitVec 52) : Nat := fld pa.toNat 6 45
def lineAddr (line : Nat) : BitVec 52 := BitVec.ofNat 52 (line * 64)

/-- R221: the exclusive-or of the fifteen groups. -/
def homeGroup (pa : BitVec 52) : Nat := (List.range 15).foldl (fun g i => g ^^^ fld pa.toNat (6 + 3 * i) 3) 0

/-- R221: the home slice of an address. -/
def State.homeOf (s : State) (pa : BitVec 52) : FieldId := Fin.ofNat 8 (fld s.coh.homeMap.toNat (3 * homeGroup pa) 3)

/-- R214: the panel whose coherent range holds an address. -/
def State.coherentPanel (s : State) (pa : BitVec 52) : Option PanelId :=
  (allFin 40).find? fun p => s.pnl.panels[p].ranges.any fun r => r.base ≤ pa.toNat ∧ pa.toNat < r.base + r.length

/-- R424: the home slice as the agent of its own reads and writes. -/
def State.homeAgent (s : State) (f : FieldId) (pa : BitVec 52) : Agent :=
  { kind := 8, id := BitVec.ofNat 16 f.val, panel := s.coherentPanel pa, field := f }

/-! ## Agents, R218, R219 -/

/-- The site of an agent's number, and its place there. -/
def agentSite (a : AgentId) : SiteId := Fin.ofNat 8 ((a.val - 48) / 6)
def agentSlot (a : AgentId) : Nat := (a.val - 48) % 6

/-- R242: NATIVE_AGENTS of a site's descriptor. -/
def SiteState.nativeAgents (x : SiteState) : Nat := fld (x.desc[5]).toNat 22 3

/-- R218: the CXL.cache agent of a site. -/
def State.isCxl (s : State) (a : AgentId) : Bool :=
  48 ≤ a.val && bit (s.sites[agentSite a]).desc[5] 25 && agentSlot a = (s.sites[agentSite a]).nativeAgents

def State.ownerCapable (s : State) (a : AgentId) : Bool := bit s.coh.owner a.val
def State.agentDead (s : State) (a : AgentId) : Bool := bit s.coh.dead a.val

/-- R185: the NI of an agent. -/
def agentNi (a : AgentId) : FieldId × NiId :=
  if a.val < 40 then (Fin.ofNat 8 (a.val / 5), Fin.ofNat 32 (a.val % 5))
  else if a.val < 48 then (Fin.ofNat 8 (a.val - 40), 17)
  else (agentSite a, 16)

/-- R205, R225: whether an address lies in a coherent range of this package. -/
def State.coherentAt (s : State) (pa : BitVec 52) : Bool :=
  !paPartner pa && decide (paSpace pa < 4) && (s.coherentPanel pa).isSome

/-! ## Messages to a site's agents, R231, R259, R260 -/

/-- R259: a site stream header. -/
def siteHeader (type count poison status tag addr binding arg : Nat) : BitVec 128 :=
  BitVec.ofNat 128 (packWords
    [BitVec.ofNat 32 (type * 2 ^ 26 + count * 2 ^ 23 + poison * 2 ^ 18 + status * 2 ^ 14 + tag), BitVec.ofNat 32 addr,
     BitVec.ofNat 32 (binding * 2 ^ 24 + addr / 2 ^ 32), BitVec.ofNat 32 arg])

/-- The POISON bits of a payload. -/
def poisonBits (ws : List CodeWord) : Nat := ((List.range ws.length).zip ws).foldl (fun n x => n + flag x.2.mark x.1) 0

/-- Answers of the site port on CXL.cache, in the order of R231: GO-Err, GO with I, S, E, M, GO_WritePull,
GO_WritePull_Drop (the model's numbers, assumption log 11). -/
abbrev cxlGoErr : Byte := 0
abbrev cxlGoI : Byte := 1
abbrev cxlWritePull : Byte := 5
abbrev cxlWritePullDrop : Byte := 6

/-- R231: GO with a granted state. -/
def cxlGo : AgentLine → Byte
  | .i => 1
  | .s | .f => 2
  | .e => 3
  | .m | .o => 4

/-- R260: the ARG of COH_CMP and of COH_SNP. -/
def cmpArg : AgentLine → Nat
  | .i => 0
  | .s => 1
  | .f => 2
  | .e => 3
  | .m => 4
  | .o => 5

def snpArg : SnoopKind → Nat
  | .snpS => 0
  | .snpI => 1
  | .snpC => 2

/-- R259, R260: a coherent message to a native-profile agent. -/
def State.tellNative (s : State) (a : AgentId) (type status tag : Nat) (bind : Byte) (line arg : Nat) (ws : List CodeWord) : State :=
  s.emit (.siteCoh (agentSite a) a (siteHeader type ws.length (poisonBits ws) status tag (line * 64) bind.toNat arg) ws)

/-- COH_CMP, or GO on CXL.cache; a hub agent's completion stays inside. -/
def State.tellCmp (s : State) (a : AgentId) (src : CohFrom) (line : Nat) (st : AgentLine) (w : Option CodeWord) : State :=
  if a.val < 48 then s
  else if s.isCxl a then s.emit (.cxlAnswer (agentSite a) (cxlGo st) w)
  else s.tellNative a 0x11 0 src.tag.toNat src.bind line (cmpArg st) w.toList

/-- COH_SNP, or a snoop on CXL.cache. -/
def State.tellSnoop (s : State) (a : AgentId) (line : Nat) (k : SnoopKind) : State :=
  if a.val < 48 then s
  else if s.isCxl a then s.emit (.cxlSnoop (agentSite a) k line)
  else s.tellNative a 0x12 0 0 0 line (snpArg k) []

/-- COH_WBACK; on CXL.cache GO_WritePull has answered the DirtyEvict. -/
def State.tellWbAck (s : State) (a : AgentId) (src : CohFrom) (line : Nat) : State :=
  if a.val < 48 ∨ s.isCxl a then s else s.tellNative a 0x15 0 src.tag.toNat src.bind line 0 []

/-- COH_HOLD; CXL.cache has no such message. -/
def State.tellHold (s : State) (a : AgentId) (src : CohFrom) (line : Nat) : State :=
  if a.val < 48 ∨ s.isCxl a then s else s.tellNative a 0x16 0 src.tag.toNat 0 line 0 []

/-! ## Hub caches -/

def State.cached (s : State) (a : AgentId) (line : Nat) : Option CacheLine :=
  s.coh.caches.find? fun c => c.agent = a ∧ c.line = line

def State.modCached (s : State) (a : AgentId) (line : Nat) (f : CacheLine → CacheLine) : State :=
  s.modCoh fun c => { c with caches := modFirst (fun x => x.agent = a ∧ x.line = line) f c.caches }

def State.dropCached (s : State) (a : AgentId) (line : Nat) : State :=
  s.modCoh fun c => { c with caches := c.caches.filter fun x => !(x.agent = a ∧ x.line = line) }

/-- R205: the lowest tag for a write-back that an agent has none outstanding under. -/
def State.freeWbTag (s : State) (a : AgentId) : BitVec 12 :=
  BitVec.ofNat 12 (((List.range 3072).find? fun t =>
    s.coh.caches.all fun c => !(c.agent = a ∧ c.wbTag = some (BitVec.ofNat 12 t))).getD 0)

/-- R220: write-backs that an agent has outstanding to the home slice of a line. -/
def State.wbsOut (s : State) (a : AgentId) (line : Nat) : Nat :=
  s.coh.caches.countP fun c => c.agent = a && c.wbTag.isSome && s.homeOf (lineAddr c.line) = s.homeOf (lineAddr line)

/-- R220: whether a line may be given up now: a dirty one only while its home has fewer than two write-backs of the agent
outstanding. -/
def State.mayEvict (s : State) (c : CacheLine) : Bool :=
  match c.state with
  | .m | .o => decide (s.wbsOut c.agent c.line < 2)
  | _ => true

/-- R220, R224: a hub cache gives up a line: a dirty one goes to the write-back buffer, another is dropped unsaid. -/
def State.evict (s : State) (c : CacheLine) : State :=
  match c.state with
  | .m | .o => let t := s.freeWbTag c.agent
    s.modCached c.agent c.line fun x => { x with wbTag := some t }
  | _ => s.dropCached c.agent c.line

/-- R217, R218: the lines that share a place with a line: of the 1,024 of a control cache all, of a field cache those of its
set, one of 4,096. -/
def sharesSet (a : AgentId) (x y : Nat) : Bool := a.val < 40 || Config.cacheSet x % 4096 = Config.cacheSet y % 4096
def cacheWays (a : AgentId) : Nat := if a.val < 40 then 1024 else 16

/-- The lines that a cache could give up to make room for a line. -/
def State.peersOf (s : State) (a : AgentId) (line : Nat) : List CacheLine :=
  s.coh.caches.filter fun c => c.agent = a && c.line ≠ line && c.wbTag.isNone && sharesSet a c.line line

/-- R217, R218, R220: whether a hub cache has no room for a line and may give none up yet. -/
def State.cacheFull (s : State) (a : AgentId) (line : Nat) : Bool :=
  decide (cacheWays a ≤ (s.peersOf a line).length) && !((s.peersOf a line).any s.mayEvict)

/-- A hub cache takes a line in a state; which line it gives up for it, and whether it gives one up while it has room, is
the hub's choice. -/
def State.takeLine (s : State) (a : AgentId) (line : Nat) (st : AgentLine) (w : CodeWord) : State :=
  let s1 := (s.dropCached a line).modCoh fun c =>
    { c with caches := c.caches ++ [{ agent := a, line := line, state := st, word := w, wbTag := none }] }
  let peers := s1.peersOf a line
  let mine := peers.filter s1.mayEvict
  let pick := if cacheWays a ≤ peers.length then mine[Config.cacheVictim s1.draws % mine.length]?
    else (Config.cacheDrop s1.draws).bind fun i => mine[i]?
  match pick with
  | some c => (s1.evict c).drawn
  | none => s1.drawn

/-- R227: a hub agent's answer to a snoop, and what it keeps. -/
def State.hubAnswer (s : State) (a : AgentId) (line : Nat) (k : SnoopKind) : SnoopAnswer × State :=
  let none_ : SnoopAnswer := { hasData := false, dirty := false, notPresent := false, wbp := none, word := poisonWord }
  match s.cached a line with
  | none => ({ none_ with notPresent := true }, s)
  | some c =>
    match c.wbTag, c.state with
    | _, .i => ({ none_ with notPresent := true }, s)
    | some t, _ =>
      ({ hasData := true, dirty := true, notPresent := false, wbp := some t, word := c.word },
        s.modCached a line fun x => { x with state := .i })
    | none, st =>
      let data : SnoopAnswer := { hasData := true, dirty := st = .m ∨ st = .o, notPresent := false, wbp := none, word := c.word }
      match k, st with
      | .snpC, .m | .snpC, .o | .snpC, .e | .snpC, .f => (data, s)
      | .snpC, _ => (none_, s)
      | .snpS, .m => (data, s.modCached a line fun x => { x with state := if s.ownerCapable a then .o else .s })
      | .snpS, .o => (data, s)
      | .snpS, .e | .snpS, .f => (data, s.modCached a line fun x => { x with state := .s })
      | .snpS, _ => (none_, s)
      | .snpI, .m | .snpI, .o => (data, s.dropCached a line)
      | .snpI, _ => (none_, s.dropCached a line)

/-! ## The directory, R222 -/

def Slice.entry (x : Slice) (line : Nat) : Option DirEntry := x.dir.find? fun e => e.line = line

def Slice.drop (x : Slice) (line : Nat) : Slice := { x with dir := x.dir.filter fun e => e.line ≠ line }

/-- An entry put in its place, or allocated youngest. -/
def Slice.put (x : Slice) (e : DirEntry) : Slice :=
  if x.dir.any fun y => y.line = e.line then { x with dir := modFirst (fun y => y.line = e.line) (fun _ => e) x.dir }
  else { x with dir := x.dir ++ [e] }

/-- An agent no longer recorded: an owner's line becomes Shared without an F holder; an empty entry is freed. -/
def DirEntry.without (e : DirEntry) (a : AgentId) : Option DirEntry :=
  let p := setBit e.present a.val false
  if p = 0 then none
  else some { e with
    present := p
    state := if e.state ≠ .shared ∧ e.owner = a then .shared else e.state
    fHolder := if e.fHolder = some a ∨ (e.state ≠ .shared ∧ e.owner = a) then none else e.fHolder }

def Slice.remove (x : Slice) (line : Nat) (a : AgentId) : Slice :=
  match x.entry line with
  | none => x
  | some e =>
    match e.without a with
    | none => x.drop line
    | some e' => x.put e'

def Slice.blockedAt (x : Slice) (line : Nat) : Option Blocked := x.blocked.find? fun b => b.line = line

def Slice.modBlocked (x : Slice) (line : Nat) (f : Blocked → Blocked) : Slice :=
  { x with blocked := modFirst (fun b => b.line = line) f x.blocked }

/-- Agents that an entry records. -/
def DirEntry.agents (e : DirEntry) : List AgentId := (allFin 96).filter fun a => bit e.present a.val

/-! ## Requests, R225, R226 -/

/-- The caching agent behind a request. -/
def CohReq.agent : CohReq → Option AgentId
  | .rdS a _ => some a
  | .rdX a => some a
  | .upg a => some a
  | .invX a => some a
  | _ => none

/-- R225, R226: the snoops a request needs. A requester that the directory itself names as owner or F holder has dropped the
line; it is snooped like another, and answers RspNP (R224). -/
def snoopsFor (e : Option DirEntry) (req : CohReq) : List (AgentId × SnoopKind) :=
  match e with
  | none => []
  | some e =>
    match req with
    | .rdS _ _ =>
      match e.state with
      | .shared => match e.fHolder with
        | some h => [(h, .snpS)]
        | none => []
      | _ => [(e.owner, .snpS)]
    | .rdX a | .upg a | .invX a => (e.agents.filter fun x => x ≠ a).map fun x => (x, .snpI)
    | .rdC _ =>
      match e.state with
      | .shared => match e.fHolder with
        | some h => [(h, .snpC)]
        | none => []
      | _ => [(e.owner, .snpC)]
    | .wrL _ _ | .flushL _ | .atomic .. | .recall | .sweepFlush => e.agents.map fun x => (x, .snpI)

/-- Whether a slice records an agent as the owner of a line. -/
def Slice.ownedBy (x : Slice) (line : Nat) (a : AgentId) : Bool :=
  (x.entry line).any fun e => e.state ≠ .shared && e.owner = a

/-- A home's read and write of a line in memory, from NI 17 of its field. -/
def State.homeRead (s : State) (f : FieldId) (t : TintId) (line : Nat) : Reply × State :=
  s.fetchCode (s.homeAgent f (lineAddr line)) 17 t (lineAddr line) 0

def State.homeWrite (s : State) (f : FieldId) (t : TintId) (line : Nat) (w : CodeWord) : BitVec 3 × State :=
  s.storeCode (s.homeAgent f (lineAddr line)) 17 t (lineAddr line) w

/-- R233, R234: the stored poison mark written to a line in memory; its data bytes stay (assumption log 10). -/
def State.markLine (s : State) (f : FieldId) (t : TintId) (line : Nat) : State :=
  let r := s.homeRead f t line
  (r.2.homeWrite f t line { data := r.1.word.data, mark := true }).2

/-- R233: a copy that is lost: an owner's line is written with the poison mark, another's counts as RspI. -/
def State.lostCopy (s : State) (f : FieldId) (t : TintId) (line : Nat) (a : AgentId) : State :=
  (if s.coh.slices[f].ownedBy line a then s.markLine f t line else s).modSlice f fun x => x.remove line a

/-- R234: the same for a dead agent, or one that no way leads to: a line marked is logged. -/
def State.deadCopy (s : State) (f : FieldId) (t : TintId) (line : Nat) (a : AgentId) : State :=
  let s1 := s.lostCopy f t line a
  if s.coh.slices[f].ownedBy line a then s1.logFault { source := 13, element := BitVec.ofNat 32 f.val } else s1

/-- R226, R231: what a requester of an uncached line receives under RdS. -/
def State.uncachedGrant (s : State) (a : AgentId) (sharedOnly : Bool) : AgentLine :=
  if a.val < 40 then .f
  else if s.isCxl a then (if sharedOnly then .s else .e)
  else .e

/-- The directory entry of a line that one agent alone holds. -/
def soleEntry (line : Nat) (a : AgentId) (st : AgentLine) : DirEntry :=
  { line := line, state := if st = .e ∨ st = .m then .exclusive else .shared, present := setBit 0 a.val true, owner := a,
    fHolder := if st = .f then some a else none }

/-- R226: the completion of RdS once its snoops are in: the state granted, the entry left, and whether dirty data goes
to memory. `e` is the entry without the agents that answered that they hold nothing. -/
def State.rdsGrant (s : State) (line : Nat) (a : AgentId) (sharedOnly : Bool) (e : Option DirEntry) (dirty : Bool) :
    AgentLine × DirEntry × Bool :=
  match e with
  | none => let st := s.uncachedGrant a sharedOnly
    (st, soleEntry line a st, dirty)
  | some e =>
    let e' := { e with present := setBit e.present a.val true }
    let st : AgentLine := if s.isCxl a then .s else .f
    let shared := { e' with state := .shared, fHolder := if st = .f then some a else e.fHolder }
    match e.state with
    | .owned => (.s, e', false)
    | .exclusive =>
      if dirty ∧ s.ownerCapable e.owner then (.s, { e' with state := .owned, fHolder := none }, false)
      else (st, { shared with fHolder := if st = .f then some a else none }, dirty)
    | .shared => (st, shared, dirty)

/-- R226: a former F holder keeps F when the requester may not hold it. -/
def State.keepF (s : State) (line : Nat) (st : AgentLine) (e : Option DirEntry) : State :=
  match st, e.bind fun x => if x.state = .shared then x.fHolder else none with
  | .f, _ => s
  | _, some h => s.modCached h line fun c => if c.state = .s ∧ c.wbTag = none then { c with state := .f } else c
  | _, none => s

/-- The line's data for a completion: what the snoops brought, or memory. -/
def State.homeData (s : State) (f : FieldId) (line : Nat) (b : Blocked) : CodeWord × State :=
  match b.gotData with
  | some w => (w, s)
  | none => let r := s.homeRead f b.src.tint line
    (r.1.word, r.2)

/-- Data that the snoops brought, written to memory when it is dirty. -/
def State.homeStore (s : State) (f : FieldId) (line : Nat) (b : Blocked) : State :=
  match b.gotData, b.gotDirty with
  | some w, true => (s.homeWrite f b.src.tint line w).2
  | _, _ => s

/-- R225, R135: an atomic passed to the line's stack controller or bank. -/
def State.homeAtomic (s0 : State) (f : FieldId) (t : TintId) (line : Nat) (op : AtomicOp) (off operand cmp : Nat)
    (marked : Bool) : Reply × State :=
  let pa := lineAddr line
  match s0.targetNi none pa with
  | none => s0.atomicAt (s0.homeAgent f pa) pa op off operand cmp marked 0
  | some dst =>
    let s := s0.counted (f, 17) dst t 1
    match s.wayOut (f, 17) dst with
    | some st => ({ status := st, word := poisonWord }, s.wayLog (s.coherentPanel pa) dst st)
    | none =>
      let r := s.atomicAt (s.homeAgent f pa) pa op off operand cmp marked 0
      let st := s.wayHome (f, 17) dst
      if st = 0 then r else ({ status := st, word := poisonWord }, r.2.wayLog (s.coherentPanel pa) dst st)

/-- A line no longer blocked. -/
def State.unblock (s : State) (f : FieldId) (line : Nat) : State :=
  s.modSlice f fun x => { x with blocked := x.blocked.filter fun b => b.line ≠ line }

/-- A completion to a caching agent. One that has died gets nothing: its copy is lost at once (R234). -/
def State.complete (s : State) (f : FieldId) (line : Nat) (a : AgentId) (b : Blocked) (st : AgentLine) (w : Option CodeWord)
    (e : DirEntry) : State :=
  let s1 := s.modSlice f fun x => x.put e
  if s.agentDead a then (s1.deadCopy f b.src.tint line a).unblock f line
  else (s1.modSlice f fun x => x.modBlocked line fun b => { b with granted := some st, cmpData := w }).tellCmp a b.src line st w

/-- A completion to a requester that holds no state: the answer of its transaction, or GO on CXL.cache. -/
def State.completePlain (s : State) (f : FieldId) (line : Nat) (b : Blocked) (id : TxId) (status : BitVec 3)
    (w : List CodeWord) : State :=
  let s1 := s.modSlice f fun x => x.modBlocked line fun b => { b with cmpTaken := true, cmpData := w.head? }
  match b.src.cxl with
  | some n => s1.emit (.cxlAnswer n cxlGoI w.head?)
  | none => s1.answerTxn id status w

/-- R225: the home's action once every snoop of a request is answered. -/
def State.finishCoh (s : State) (f : FieldId) (line : Nat) : State :=
  match s.coh.slices[f].blockedAt line with
  | none => s
  | some b =>
    let e := s.coh.slices[f].entry line
    match b.req with
    | .rdS a sh =>
      let r := s.homeData f line b
      let g := s.rdsGrant line a sh e b.gotDirty
      let s1 := if g.2.2 then r.2.homeStore f line b else r.2
      (s1.keepF line g.1 e).complete f line a b g.1 (some r.1) g.2.1
    | .rdX a =>
      let r := s.homeData f line b
      let st : AgentLine := if b.gotDirty then .m else .e
      r.2.complete f line a b st (some r.1) (soleEntry line a st)
    | .upg a =>
      match e.map fun e => (bit e.present a.val, decide (e.state = .owned ∧ e.owner = a)) with
      | some (true, own) =>
        let st : AgentLine := if own then .m else .e
        (s.homeStore f line b).complete f line a b st none (soleEntry line a st)
      | _ =>
        let r := s.homeData f line b
        let st : AgentLine := if b.gotDirty then .m else .e
        r.2.complete f line a b st (some r.1) (soleEntry line a st)
    | .invX a => (s.homeStore f line b).complete f line a b .e none (soleEntry line a .e)
    | .rdC id =>
      let r := s.homeData f line b
      r.2.completePlain f line b id 0 [r.1]
    | .wrL id w =>
      let r := s.homeWrite f b.src.tint line w
      (r.2.modSlice f fun x => x.drop line).completePlain f line b id r.1 []
    | .flushL id => ((s.homeStore f line b).modSlice f fun x => x.drop line).completePlain f line b id 0 []
    | .atomic id op off operand cmp =>
      let s1 := (s.homeStore f line b).modSlice f fun x => x.drop line
      let marked := (s1.txn id).any fun t => match t.kind with | .atomic _ _ _ _ m => m | _ => false
      let r := s1.homeAtomic f b.src.tint line op off.val operand.toNat cmp.toNat marked
      ((r.2.completePlain f line b id r.1.status [r.1.word]).remember f 17 id r.1.status [r.1.word]).unblock f line
    | .recall => ((s.homeStore f line b).modSlice f fun x => { x.drop line with recalls := satAdd x.recalls 1 }).unblock f line
    | .sweepFlush => ((s.homeStore f line b).modSlice f fun x => x.drop line).unblock f line

/-- The line's request is finished once no snoop is outstanding. -/
def State.settle (s : State) (f : FieldId) (line : Nat) : State :=
  match s.coh.slices[f].blockedAt line with
  | some b => if b.snoops = [] ∧ b.granted = none ∧ !b.cmpTaken then s.finishCoh f line else s
  | none => s

/-- One snoop of a request: sent, or answered by the home itself for a dead agent, or one that no way leads to (R194, R234). -/
def State.sendSnoop (s : State) (f : FieldId) (line : Nat) (t : TintId) (a : AgentId) (k : SnoopKind) : State :=
  if s.agentDead a ∨ (s.wayOut (f, 17) (agentNi a)).isSome then s.deadCopy f t line a
  else
    ((s.modSlice f fun x => { x with snoops := satAdd x.snoops 1 }).modSlice f fun x =>
      x.modBlocked line fun b => { b with snoops := b.snoops ++ [{ agent := a, kind := k, answer := none }] }).tellSnoop a line k

/-- A request served: its line is blocked and its snoops go out. -/
def State.serveCoh (s : State) (f : FieldId) (line : Nat) (req : CohReq) (src : CohFrom) : State :=
  let needs := snoopsFor (s.coh.slices[f].entry line) req
  let b : Blocked := { line := line, req := req, src := src, snoops := [], gotData := none, gotDirty := false, granted := none,
                       cmpData := none, cmpTaken := false }
  let s1 := s.modSlice f fun x => { x with blocked := x.blocked ++ [b] }
  (needs.foldl (fun x n => x.sendSnoop f line src.tint n.1 n.2) s1).settle f line

/-- R222: the directory set of a line, one of 16,384. -/
def dirSetOf (line : Nat) : Nat := Config.dirSet line % 16384

/-- R222: the line that a request's new entry displaces: the oldest of a full set. -/
def Slice.victim (x : Slice) (line : Nat) (req : CohReq) : Option Nat :=
  if req.agent.isNone || (x.entry line).isSome then none
  else
    let set := x.dir.filter fun e => dirSetOf e.line = dirSetOf line
    if set.length < 16 then none else set.head?.map (·.line)

/-- R223: a request at the home point: it waits for its line, behind others that wait for it, or for a recall, or is served. -/
def State.takeCoh (s : State) (f : FieldId) (line : Nat) (req : CohReq) (src : CohFrom) : State :=
  let x := s.coh.slices[f]
  let wait := fun (t : State) => t.modSlice f fun y => { y with waiting := y.waiting ++ [{ line := line, req := req, src := src }] }
  if (x.blockedAt line).isSome ∨ (x.waiting.any fun w => w.line = line) then wait s
  else
    match x.victim line req with
    | none => s.serveCoh f line req src
    | some v => if (x.blockedAt v).isSome then wait s else wait (s.serveCoh f v .recall src)

/-- R223: requests that wait are taken up again in home-point order. -/
def State.pump (s : State) (f : FieldId) : State :=
  let w := s.coh.slices[f].waiting
  w.foldl (fun t r => t.takeCoh f r.line r.req r.src) (s.modSlice f fun x => { x with waiting := [] })

/-- A request that passes the home point. -/
def State.requestCoh (s : State) (f : FieldId) (line : Nat) (req : CohReq) (src : CohFrom) : State :=
  (s.takeCoh f line req src).pump f

/-- R229: WbAck to a writer. -/
def State.sendWbAck (s : State) (a : AgentId) (src : CohFrom) (line : Nat) : State :=
  (if a.val < 48 then s.modCoh fun c => { c with wbAcks := c.wbAcks ++ [(a, line)] } else s).tellWbAck a src line

/-- R229: an entry of the stale list, which holds 128: the oldest of a full list gives way, and is logged like one that has
expired (DESIGN CHOICE, assumption log 86). -/
def State.addStale (s : State) (f : FieldId) (e : StaleEntry) : State :=
  let full := decide (128 ≤ s.coh.slices[f].stale.length)
  let s1 := s.modSlice f fun x => { x with stale := (if full then x.stale.drop 1 else x.stale) ++ [e] }
  if full then s1.logFault { source := 13, element := BitVec.ofNat 32 f.val } else s1

/-- R229 case 2, R232: a write-back of an agent that the home holds for a line. -/
def State.heldWb (s : State) (f : FieldId) (a : AgentId) (line : Nat) : Option HeldWb :=
  s.coh.slices[f].heldWbs.find? fun h => h.agent = a ∧ h.line = line

/-- R227, R229, R230: an answer reaches the home. Dirty data from a write-back buffer goes to memory at once when the request
is a plain read, since the write-back itself is then stale. -/
def State.takeAnswer (s : State) (f : FieldId) (line : Nat) (a : AgentId) (ans : SnoopAnswer) : State :=
  let at_ := s.coh.slices[f].blockedAt line
  match at_, (at_.bind fun b => b.snoops.find? fun n => n.agent = a).map (·.kind) with
  | some b, some k =>
    let wbp : Option (BitVec 12) := match ans.wbp with
      | some t => some t
      | none => if s.isCxl a then (s.heldWb f a line).map (·.tag) else none
    let gone := ans.notPresent || wbp.isSome || k = .snpI
    let s0 := if decide (k = .snpC) && wbp.isSome && ans.hasData then (s.homeWrite f b.src.tint line ans.word).2 else s
    let s1 := s0.modSlice f fun x =>
      let x := if ans.notPresent then { x with np := satAdd x.np 1 } else x
      let x := if gone then x.remove line a else x
      x.modBlocked line fun b => { b with
        snoops := b.snoops.filter fun n => n.agent ≠ a
        gotData := if ans.hasData then some ans.word else b.gotData
        gotDirty := b.gotDirty || (ans.hasData && ans.dirty) }
    let s2 := match wbp with
      | none => s1
      | some t =>
        match s1.heldWb f a line with
        | some h =>
          let dropHeld := fun (x : Slice) => { x with
            heldWbs := x.heldWbs.filter fun h => !(h.agent = a ∧ h.line = line), staleCount := satAdd x.staleCount 1 }
          (s1.modSlice f dropHeld).sendWbAck a h.src line
        | none => s1.addStale f { agent := a, tag := if s1.isCxl a then none else some t, line := line }
    s2.settle f line
  | _, _ => s

/-- R233: an event of a home, logged, that counts towards the isolation of an agent's NI. -/
def State.homeTimeout (s : State) (f : FieldId) (a : AgentId) : State :=
  (s.logFault { source := 13, code := 3, element := BitVec.ofNat 32 f.val }).noteTimeout (agentNi a).1 (agentNi a).2

/-- R233: a snoop that nothing answers in time: the agent's copy is lost. -/
def State.snoopLost (s : State) (f : FieldId) (t : TintId) (line : Nat) (a : AgentId) : State :=
  let s1 := (s.lostCopy f t line a).modSlice f fun x =>
    { x.modBlocked line (fun b => { b with snoops := b.snoops.filter fun n => n.agent ≠ a }) with
      snoopTimeouts := satAdd x.snoopTimeouts 1 }
  (s1.homeTimeout f a).settle f line

/-- R227: an answer that comes from outside the package within an engine's own command (assumption log 8): RspNP, an answer
from a write-back buffer, or what the snoop asks of a copy. -/
def State.outsideAnswer (s : State) (k : SnoopKind) : SnoopAnswer × State :=
  let d := s.draws
  let word : CodeWord := { data := Config.outsideWord d, mark := Config.outsideMark d }
  let dirty := Config.outsideDirty d
  (if Config.outsideAbsent d then { hasData := false, dirty := false, notPresent := true, wbp := none, word := word }
   else match Config.outsideWbTag d with
    | some t => { hasData := true, dirty := true, notPresent := false, wbp := some t, word := word }
    | none => { hasData := dirty || decide (k ≠ .snpI), dirty := dirty, notPresent := false, wbp := none, word := word },
   s.drawn)

/-- R194: whether an agent's answers reach a home. -/
def State.answerComes (s : State) (f : FieldId) (a : AgentId) : Bool := s.wayHome (f, 17) (agentNi a) = 0

/-- Every outstanding snoop of a blocked line answered, or lost on its way. -/
def State.answerAll (s : State) (f : FieldId) (line : Nat) : State :=
  match s.coh.slices[f].blockedAt line with
  | none => s
  | some b => b.snoops.foldl (fun t n =>
      let r := if n.agent.val < 48 then t.hubAnswer n.agent line n.kind else t.outsideAnswer n.kind
      if t.answerComes f n.agent then r.2.takeAnswer f line n.agent r.1 else r.2.snoopLost f b.src.tint line n.agent) s

/-- A whole coherent transaction of a hub requester: its request, the snoops' answers, the completion and the Ack. -/
def State.runCoh (s : State) (line : Nat) (req : CohReq) (tint : TintId) : Option (AgentLine × CodeWord) × State :=
  let f := s.homeOf (lineAddr line)
  let s1 := s.requestCoh f line req { tint := tint, tag := 0, bind := 0, cxl := none }
  let recalls := (s1.coh.slices[f].blocked.filter fun b => b.req = .recall).map (·.line)
  let s2 := (recalls.foldl (fun t l => t.answerAll f l) s1).pump f
  let s3 := s2.answerAll f line
  match s3.coh.slices[f].blockedAt line with
  | none => (none, s3)
  | some b => (some (b.granted.getD .i, b.cmpData.getD poisonWord), (s3.unblock f line).pump f)

/-- Whether a line must be waited for. -/
def State.lineBlocked (s : State) (pa : BitVec 52) : Bool :=
  let x := s.coh.slices[s.homeOf pa]
  (x.blockedAt (lineOf pa)).isSome || x.waiting.any fun w => w.line = lineOf pa

/-- R222: a line whose new directory entry must displace one that is blocked. -/
def State.victimBlocked (s : State) (a : AgentId) (pa : BitVec 52) : Bool :=
  let x := s.coh.slices[s.homeOf pa]
  (x.victim (lineOf pa) (.rdS a false)).any fun v => (x.blockedAt v).isSome

/-- R220, R222, R223: whether an agent's access to a line waits: for the line, for a directory entry, for its own write-back
of it, or for room in its cache. -/
def State.mustWait (s : State) (a : AgentId) (pa : BitVec 52) : Bool :=
  s.lineBlocked pa || s.victimBlocked a pa || ((s.cached a (lineOf pa)).any fun c => c.wbTag.isSome) || s.cacheFull a (lineOf pa)

/-- R215: an access that an agent's own copy of a line serves. -/
def State.ownCopy (s : State) (a : AgentId) (pa : BitVec 52) (write : Bool) : Bool :=
  (s.cached a (lineOf pa)).any fun c => !write || (c.wbTag.isNone && (c.state = .m || c.state = .e))

/-- R215: a code word read through a hub agent's cache. -/
def State.cohRead (s : State) (a : AgentId) (tint : TintId) (pa : BitVec 52) : CodeWord × State :=
  match s.cached a (lineOf pa) with
  | some c => (c.word, s)
  | none =>
    let r := s.runCoh (lineOf pa) (.rdS a false) tint
    match r.1 with
    | none => (poisonWord, r.2)
    | some (st, w) => (w, r.2.takeLine a (lineOf pa) st w)

/-- R215, R72: a whole code word written through a field cache: it owns the line first. -/
def State.cohWrite (s : State) (a : AgentId) (tint : TintId) (pa : BitVec 52) (w : CodeWord) : State :=
  let line := lineOf pa
  let own : Bool := match s.cached a line with
    | some c => decide (c.wbTag = none ∧ (c.state = .m ∨ c.state = .e))
    | none => false
  if own then s.modCached a line fun c => { c with state := .m, word := w }
  else ((s.runCoh line (.invX a) tint).2).takeLine a line .m w

/-- The transaction that stands for a requester without one of its own. -/
def noTxn : TxId := { field := 0, ni := 31, tag := 0 }

/-- R215, R197: a non-caching read through the home, from an NI of a panel's requester under a tint. -/
def State.cohReadPlain (s0 : State) (src : FieldId × NiId) (p : PanelId) (t : TintId) (pa : BitVec 52) : Reply × State :=
  let dst := (s0.homeOf pa, (17 : NiId))
  let s := s0.counted src dst t 1
  match s.wayOut src dst with
  | some st => ({ status := st, word := poisonWord }, s.wayLog (some p) dst st)
  | none =>
    let r := s.runCoh (lineOf pa) (.rdC noTxn) t
    let st := s.wayHome src dst
    if st = 0 then ({ status := 0, word := (r.1.map (·.2)).getD poisonWord }, r.2)
    else ({ status := st, word := poisonWord }, r.2.wayLog (some p) dst st)

/-- The same for a whole line written. -/
def State.cohWritePlain (s0 : State) (src : FieldId × NiId) (p : PanelId) (t : TintId) (pa : BitVec 52) (w : CodeWord) :
    BitVec 3 × State :=
  let dst := (s0.homeOf pa, (17 : NiId))
  let s := s0.counted src dst t 1
  match s.wayOut src dst with
  | some st => (st, s.wayLog (some p) dst st)
  | none =>
    let r := s.runCoh (lineOf pa) (.wrL noTxn w) t
    let st := s.wayHome src dst
    (st, r.2.wayLog (some p) dst st)

/-- Whole lines written one after another; the first status that is not 0. -/
def State.cohWriteRun (s : State) (src : FieldId × NiId) (p : PanelId) (t : TintId) (pa : BitVec 52) :
    List CodeWord → BitVec 3 × State
  | [] => (0, s)
  | w :: ws =>
    let r := s.cohWritePlain src p t pa w
    let q := State.cohWriteRun r.2 src p t (pa + 64) ws
    (if r.1 = 0 then q.1 else r.1, q.2)

end Sys2Proof.Machine
end

