-- ==== Sys2Proof/Machine/Net.lean ====
section
/-!
DEFINITION. The hub network: transactions at their NIs, and the trace ring that samples them (chapter The hub network and
the timing promise, R341).
-/

namespace Sys2Proof.Machine

/-! ## Transactions, R205 to R208 -/

/-- R197: the code words that a request counts. -/
def reqWords : ReqKind → Nat
  | .read n => n
  | .write ws => ws.length
  | .atomic .. => 1
  | .signal .. => 1

/-- R205: whether a request uses a tag of the upper range. -/
def reqHigh : ReqKind → Bool
  | .read _ => false
  | .write _ => false
  | .atomic .. => true
  | .signal .. => true

/-- The code of a request in a trace record, R341. -/
def reqCode : ReqKind → Nat
  | .read _ => 0
  | .write _ => 1
  | .atomic .. => 2
  | .signal .. => 3

/-- R204: the code words of a request, by number; none for a signal. -/
def reqRun : ReqKind → Option Nat
  | .read n => some n
  | .write ws => some ws.length
  | .atomic .. => some 1
  | .signal .. => none

/-- R117, R118, R204: two requests to one code word whose order matters. -/
def Txn.meets (t x : Txn) : Bool :=
  match t.kind, x.kind with
  | .read _, .read _ => false
  | _, _ =>
    match reqRun t.kind, reqRun x.kind with
    | some n, some m => runsMeet (t.pa.toNat / 64) n (x.pa.toNat / 64) m
    | _, _ => false

/-- R204: an earlier request of the same NI to one of the code words is still on its way. -/
def State.olderComing (s : State) (t : Txn) : Bool :=
  (s.net.flight.takeWhile fun x => x.id ≠ t.id).any fun x =>
    x.stage = .inFlight && x.id.field = t.id.field && x.id.ni = t.id.ni && x.meets t

/-- R117, R118: an access to one of the code words that reached the target earlier still waits there. -/
def State.olderMeets (s : State) (t : Txn) : Bool :=
  s.net.flight.any fun x => x.id ≠ t.id && x.stage = .atTarget && decide (x.arrived < t.arrived) && x.meets t

/-- R205: the lowest free tag of a request's range, if there is one. -/
def State.freeTag (s : State) (f : FieldId) (ni : NiId) (high : Bool) : Option (BitVec 12) :=
  let used := (s.net.flight.map (·.id) ++ s.net.quarantine).filter fun i => i.field = f ∧ i.ni = ni
  ((List.range (if high then 1024 else 3072)).find? fun t =>
    used.all fun i => i.tag ≠ BitVec.ofNat 12 (t + (if high then 3072 else 0))).map
      fun t => BitVec.ofNat 12 (t + (if high then 3072 else 0))

/-- R341: whether the traced panel is this one. -/
def PnlState.traces (x : PnlState) (p : Option PanelId) : Bool :=
  x.traceEnable && (x.tracePanel = 0xFF || x.tracePanel = panelByte p)

/-- R200: the bound of a read on a path of the table, in NCLK. -/
def promiseBound (f : FieldId) (ni : NiId) (g : FieldId) (mi : NiId) : Option Nat :=
  let ft := 5 ≤ mi.val && mi.val < 13
  let st := 13 ≤ mi.val && mi.val < 16
  if ni.val < 5 then
    (if ft then some (if f = g then 37 else 90) else if st then some (if f = g then 675 else 1050) else none)
  else if ni.val = 16 && ft && f = g then some 60 else none

/-- R341: one request in every 2^RATE_LOG2 of the traced panels is sampled. -/
def State.sample (s : State) (panel : Option PanelId) : Bool × State :=
  if s.pnl.traces panel && s.pnl.traceHdr then
    let n := s.pnl.traceSample + 1
    (n % 2 ^ s.pnl.traceRate.toNat = 0, s.modPnl fun x => { x with traceSample := n })
  else (false, s)

/-- Where a transaction goes. -/
def State.txTarget (s : State) (t : Txn) : Option (FieldId × NiId) :=
  match t.kind with
  | .signal f ni _ _ _ => some (f, ni)
  | _ => s.targetNi t.panel t.pa

/-- R215, R225: a request that goes to the home of its line. -/
def State.homeBound (s : State) (t : Txn) : Bool :=
  match t.kind with
  | .signal .. => false
  | .atomic .. => s.coherentAt t.pa
  | _ => s.coherentAt t.pa && 16 ≤ t.id.ni.val

/-- Where a transaction goes. -/
def State.txDest (s : State) (t : Txn) : Option (FieldId × NiId) :=
  if s.homeBound t then some (s.homeOf t.pa, 17) else s.txTarget t

/-! ## Lath links, R184, R191, R192 -/

def State.modLath (s : State) (b : Fin 10) (f : LathState → LathState) : State :=
  s.modNet fun n => { n with lath := vmod n.lath b f }

def isLane (link : Fin 34) (dir : LathDir) (x : LathLane) : Bool := x.link = link && x.dir = dir

def LathState.lane (x : LathState) (link : Fin 34) (dir : LathDir) : LathLane :=
  (x.lanes.find? (isLane link dir)).getD { link := link, dir := dir, nextSeq := 0, buffer := [], expect := 0, rounds := 0 }

def LathState.setLane (x : LathState) (l : LathLane) : LathState :=
  if x.lanes.any (isLane l.link l.dir) then { x with lanes := modFirst (isLane l.link l.dir) (fun _ => l) x.lanes }
  else { x with lanes := x.lanes ++ [l] }

/-- R10: the two fields of a boundary, the lower-numbered first. -/
def boundaryEnds (b : Fin 10) : FieldId × FieldId :=
  if b.val < 6 then (asFin 8 (b.val / 3 * 4 + b.val % 3), asFin 8 (b.val / 3 * 4 + b.val % 3 + 1))
  else (asFin 8 (b.val - 6), asFin 8 (b.val - 2))

/-- The boundaries that a route crosses, each with its direction, from field `f` on. -/
def crossDirs (f : FieldId) : List (Fin 10) → List (Fin 10 × LathDir)
  | [] => []
  | b :: bs =>
    if f = (boundaryEnds b).1 then (b, .up) :: crossDirs (boundaryEnds b).2 bs
    else (b, .down) :: crossDirs (boundaryEnds b).1 bs

/-- The crossings of a request on its way to its target. -/
def State.txnCrossings (s : State) (t : Txn) : List (Fin 10 × LathDir) :=
  match s.txDest t with
  | none => []
  | some (g, mi) =>
    match s.route t.id.field t.id.ni g mi with
    | .ok bs => crossDirs t.id.field bs
    | _ => []

/-- R184: the link of a trunk that the hash gives a code word. -/
def LathState.linkFor (x : LathState) (pa : BitVec 52) : Fin 34 :=
  asFin 34 (((onBits x.hashSet)[Config.linkHash (pa.toNat / 64) % popCount x.hashSet]?).getD 0)

/-- R184, R191: a trunk takes a packet unless it waits to change its hash, or the link's replay buffer is full. -/
def State.trunkTakes (s : State) (pa : BitVec 52) (c : Fin 10 × LathDir) : Bool :=
  let x := s.net.lath[c.1]
  x.hashSet = x.inService && decide ((x.lane (x.linkFor pa) c.2).buffer.length < 96)

/-- R191: the flit of a request kept in the replay buffer of its link. -/
def LathLane.send (l : LathLane) (id : TxId) : LathLane :=
  { l with nextSeq := l.nextSeq + 1, buffer := l.buffer ++ [(l.nextSeq, id)] }

def State.sendFlit (s : State) (t : Txn) (c : Fin 10 × LathDir) : State :=
  s.modLath c.1 fun x => x.setLane ((x.lane (x.linkFor t.pa) c.2).send t.id)

/-- R191: a flit of a request that a receiving gate has not acknowledged. -/
def State.flitWaits (s : State) (id : TxId) : Bool :=
  (allFin 10).any fun b => s.net.lath[b].lanes.any fun l => l.buffer.any fun x => x.2 = id

/-! ## Injection -/

/-- R184, R191, R197, R198, R200, R205: a request injected at an NI under a free tag; it is held while none is free, or
while a trunk on its way does not take it. -/
def State.inject (s : State) (f : FieldId) (ni : NiId) (tint : TintId) (panel : Option PanelId) (pa : BitVec 52)
    (kind : ReqKind) (owner : TxOwner) (va : Option (BitVec 55) := none) : Option (TxId × State) :=
  (s.freeTag f ni (reqHigh kind)).bind fun tag =>
    let id : TxId := { field := f, ni := ni, tag := tag }
    let r := s.tally f ni true tint (reqWords kind)
    let sm := r.2.sample panel
    let isRead := match kind with | .read _ => true | _ => false
    let t : Txn :=
      { id := id, tint := tint, panel := panel, pa := pa, kind := kind, owner := owner, stage := .inFlight,
        demoted := !r.1, promised := r.1 && isRead && s.tintPromise tint, resends := 0, injected := s.sclk,
        status := 0, data := [], traced := sm.1, late := false, arrived := s.net.arrivals, va := va }
    if (s.txnCrossings t).all (s.trunkTakes pa) then
      some (id, (s.txnCrossings t).foldl (fun x c => x.sendFlit t c)
        (sm.2.modNet fun n => { n with flight := n.flight ++ [t], arrivals := n.arrivals + 1 }))
    else none

/-- R205: a request held at its NI. -/
def State.holdReq (s : State) (h : HeldReq) : State := s.modNet fun n => { n with heldReqs := n.heldReqs ++ [h] }

/-- R205: a request injected, or held until it can be. -/
def State.injectOrHold (s : State) (h : HeldReq) : State :=
  match s.inject h.field h.ni h.tint h.panel h.pa h.kind h.owner with
  | some r => r.2
  | none => s.holdReq h

/-- R205: the held requests that can be injected now are, in their order. -/
def State.releaseReqs (s : State) : State :=
  s.net.heldReqs.foldl State.injectOrHold (s.modNet fun n => { n with heldReqs := [] })

/-- A transaction as it stands now. -/
def State.txnNow (s : State) (t : Txn) : Txn := (s.txn t.id).getD t

/-- R117, R118: a request's place in the order of arrival at targets. -/
def State.stamp (s : State) (id : TxId) : State :=
  s.modNet fun n => { n with
    flight := modFirst (fun t => t.id = id) (fun t => { t with arrived := n.arrivals }) n.flight, arrivals := n.arrivals + 1 }

def State.modTxn (s : State) (id : TxId) (f : Txn → Txn) : State :=
  s.modNet fun n => { n with flight := modFirst (fun t => t.id = id) f n.flight }

def State.dropTxn (s : State) (id : TxId) : State :=
  s.modNet fun n => { n with flight := n.flight.filter fun t => t.id ≠ id }

/-- The code words that a refused or sunk request is answered with (R210). -/
def refusedData : ReqKind → List CodeWord
  | .read n => List.replicate n poisonWord
  | .write _ => []
  | .atomic .. => [poisonWord]
  | .signal .. => []

/-- R210, R212: a request answered with a status and nothing but the poison mark. -/
def State.refuseTxn (s : State) (t : Txn) (status : BitVec 3) : State := s.answerTxn t.id status (refusedData t.kind)

/-! ## The trace ring, R341 -/

/-- A record written to the trace ring, or dropped. -/
def State.traceRecord (s : State) (rec_ : List Word) : State :=
  let x := s.pnl
  if 2 ^ x.traceRingLog.toNat ≤ (x.traceTail - x.traceHead).toNat then
    s.modPnl fun y => { y with traceLost := satAdd y.traceLost 1 }
  else
    let addr := x.traceRingBase + BitVec.ofNat 64 (32 * (x.traceTail.toNat % 2 ^ x.traceRingLog.toNat))
    (s.emit (.hostWrite x.tracePort none addr (bytesOf 32 (packWords rec_)))).modPnl fun y => { y with traceTail := y.traceTail + 1 }

/-- A schedule record: an instruction of array `a` at `pc` that retires. -/
def State.traceSchedule (s : State) (a : ArrayId) (opcode : Nat) (pc : BitVec 55) : State :=
  let x := s.arrays[a]
  if s.pnl.traces x.panel && s.pnl.traceSched then
    s.traceRecord [BitVec.ofNat 32 (2 ^ 28 + (panelByte x.panel).toNat * 2 ^ 20 + a.val * 2 ^ 8 + opcode),
      BitVec.ofNat 32 (x.seq.attempt.toNat * 2 ^ 24 + x.seq.stepId.toNat),
      BitVec.ofNat 32 pc.toNat, BitVec.ofNat 32 (pc.toNat / 2 ^ 32), 0, 0, s.now.setWidth 32, (s.now >>> 32).setWidth 32]
  else s

/-- A network header record of a sampled request that has been answered after `nclk`. -/
def State.traceHeader (s : State) (t : Txn) (status : BitVec 3) (nclk : Nat) : State :=
  if t.traced then
    let g := (s.txTarget t).getD (t.id.field, t.id.ni)
    s.traceRecord [BitVec.ofNat 32 (2 * 2 ^ 28 + (panelByte t.panel).toNat * 2 ^ 20 + t.id.field.val * 2 ^ 8 + t.id.ni.val),
      BitVec.ofNat 32 (t.tint.val * 2 ^ 28 + status.toNat * 2 ^ 25 + flag t.demoted 24 + reqCode t.kind * 2 ^ 20
        + reqWords t.kind % 256),
      t.pa.setWidth 32, (t.pa >>> 32).setWidth 32,
      BitVec.ofNat 32 (g.2.val * 2 ^ 24 + nclk % 2 ^ 24), BitVec.ofNat 32 (g.1.val),
      s.now.setWidth 32, (s.now >>> 32).setWidth 32]
  else s

end Sys2Proof.Machine
end

