-- ==== Sys2Proof/Machine/Coherence.lean ====
section
/-!
DEFINITION. The commands of chapter Coherence.
-/

namespace Sys2Proof.Machine

/-- R225: a caching agent may send a request for a line: it is enabled, alive, and has no write-back of it outstanding. -/
def State.agentMaySend (s : State) (a : AgentId) (pa : BitVec 52) : Bool :=
  bit s.coh.valid a.val && !s.agentDead a && (s.coherentPanel pa).isSome &&
    !((s.cached a (lineOf pa)).any fun c => c.wbTag.isSome)

/-- R225: whether a hub agent has what a request is sent for: nothing of the line for RdS and RdX, a shared copy for Upg. -/
def State.wants (s : State) (a : AgentId) (pa : BitVec 52) (req : CohReq) : Bool :=
  48 ≤ a.val || (match req with
    | .rdS .. | .rdX _ => (s.cached a (lineOf pa)).isNone
    | .upg _ => (s.cached a (lineOf pa)).any fun c => c.state = .s || c.state = .f || c.state = .o
    | _ => true)

/-- R197: the code words that a request of a caching agent counts. -/
def cohWords : CohReq → Nat
  | .upg _ => 0
  | .invX _ => 0
  | _ => 1

/-- What a chiplet hears of a request that does not come to its home: on CXL.cache GO-Err, else COH_CMP with the status. -/
def State.cohRefused (s : State) (a : AgentId) (pa : BitVec 52) (src : CohFrom) (st : BitVec 3) : State :=
  if a.val < 48 then s
  else if s.isCxl a then s.emit (.cxlAnswer (agentSite a) cxlGoErr none)
  else s.tellNative a 0x11 st.toNat src.tag.toNat src.bind (lineOf pa) 0 []

/-- A request of a caching agent on its way to the home of its line, and taken there (R186, R194, R197, R210). -/
def State.agentRequest (s0 : State) (a : AgentId) (pa : BitVec 52) (req : CohReq) (src : CohFrom) : State :=
  if s0.agentMaySend a pa && s0.wants a pa req then
    let dst := (s0.homeOf pa, (17 : NiId))
    let s := s0.counted (agentNi a) dst src.tint (cohWords req)
    match s.wayOut (agentNi a) dst with
    | some st => (s.wayLog (s.coherentPanel pa) dst st).cohRefused a pa src st
    | none => s.requestCoh dst.1 (lineOf pa) req src
  else s0

/-- What a hub agent's message brings. -/
def hubFrom (tint : TintId) : CohFrom := { tint := tint, tag := 0, bind := 0, cxl := none }

/-- The agents that COH_RDS and the commands beside it speak for: those of the hub; a chiplet's come as COH_REQ or on
CXL.cache. -/
def State.hubRequest (s : State) (a : AgentId) (pa : BitVec 52) (req : CohReq) (tint : TintId) : State :=
  if a.val < 48 then s.agentRequest a pa req (hubFrom tint) else s

/-- COH_RDS, R226. -/
def execCohRds (agent : AgentId) (ask : CohAsk) (s : State) : Host.Outcome State Fault Refusal :=
  .next (s.hubRequest agent ask.pa (.rdS agent false) ask.tint)

/-- R225: RdX, Upg and InvX come from field caches and site agents; an array control cache sends none. -/
def State.ownerRequest (s : State) (a : AgentId) (pa : BitVec 52) (req : CohReq) (tint : TintId) : State :=
  if a.val < 40 then s else s.hubRequest a pa req tint

/-- COH_RDX, R225. -/
def execCohRdx (agent : AgentId) (ask : CohAsk) (s : State) : Host.Outcome State Fault Refusal :=
  .next (s.ownerRequest agent ask.pa (.rdX agent) ask.tint)

/-- COH_UPG, R225. -/
def execCohUpg (agent : AgentId) (ask : CohAsk) (s : State) : Host.Outcome State Fault Refusal :=
  .next (s.ownerRequest agent ask.pa (.upg agent) ask.tint)

/-- COH_INVX, R225. -/
def execCohInvx (agent : AgentId) (ask : CohAsk) (s : State) : Host.Outcome State Fault Refusal :=
  .next (s.ownerRequest agent ask.pa (.invX agent) ask.tint)

/-- The tint of a request without a caching agent: its transaction's; a home's own otherwise. -/
def State.plainFrom (s : State) (id : TxId) : CohFrom := hubFrom (((s.txn id).map (·.tint)).getD Config.homeTint)

/-- A request of a non-caching requester at the home, inside a coherent range only; an isolated home answers as its grout
sink (R210). -/
def State.plainRequest (s : State) (id : TxId) (pa : BitVec 52) (req : CohReq) (src : CohFrom) : State :=
  if s.isolated (s.homeOf pa) 17 then
    (match src.cxl with
      | some n => s.emit (.cxlAnswer n cxlGoErr none)
      | none => match s.txn id with
        | some t => s.refuseTxn t 1
        | none => s)
  else if (s.coherentPanel pa).isSome then s.requestCoh (s.homeOf pa) (lineOf pa) req src else s

/-- COH_RDC, R225. -/
def execCohRdc (id : TxId) (pa : BitVec 52) (s : State) : Host.Outcome State Fault Refusal :=
  .next (s.plainRequest id pa (.rdC id) (s.plainFrom id))

/-- COH_WRL, R225. -/
def execCohWrl (id : TxId) (pa : BitVec 52) (word : CodeWord) (s : State) : Host.Outcome State Fault Refusal :=
  .next (s.plainRequest id pa (.wrL id word) (s.plainFrom id))

/-- COH_FLUSHL, R225. -/
def execCohFlushl (id : TxId) (pa : BitVec 52) (s : State) : Host.Outcome State Fault Refusal :=
  .next (s.plainRequest id pa (.flushL id) (s.plainFrom id))

/-- COH_ATOMIC, R225. A copy of an atomic that the home has performed is answered from its table (R208). -/
def execCohAtomic (id : TxId) (pa : BitVec 52) (op : AtomicOp) (off : Fin 64) (operand compare : DWord) (s : State) :
    Host.Outcome State Fault Refusal :=
  .next (match s.dedupOf (s.homeOf pa) 17 id with
    | some e => s.answerTxn id e.status e.data
    | none => s.plainRequest id pa (.atomic id op off operand compare) (s.plainFrom id))

/-- R229: a write-back accepted at the home point: stale, crossing, or applied. A crossing one waits in front of the home
while its 256 write-back buffers are taken (R223). -/
def State.acceptWb (s : State) (a : AgentId) (pa : BitVec 52) (tag : BitVec 12) (w : CodeWord) (src : CohFrom) : State :=
  let f := s.homeOf pa
  let line := lineOf pa
  let x := s.coh.slices[f]
  let key : StaleEntry := { agent := a, tag := if s.isCxl a then none else some tag, line := line }
  if key ∈ x.stale then
    (s.modSlice f fun y => { y with stale := y.stale.erase key, staleCount := satAdd y.staleCount 1 }).sendWbAck a src line
  else if (x.blockedAt line).any fun b => b.snoops.any fun n => n.agent = a then
    (if x.heldWbs.length < 256 then
      s.modSlice f fun y => { y with heldWbs := y.heldWbs ++ [{ agent := a, src := src, tag := tag, line := line, word := w }] }
     else s)
  else
    (((s.homeWrite f src.tint line w).2).modSlice f fun y => y.remove line a).sendWbAck a src line

/-- A write-back on its way to the home (R186, R194, R197, R210): one that its way ends is lost. -/
def State.sendWb (s0 : State) (a : AgentId) (pa : BitVec 52) (tag : BitVec 12) (w : CodeWord) (src : CohFrom) : State :=
  let dst := (s0.homeOf pa, (17 : NiId))
  let s := s0.counted (agentNi a) dst src.tint 1
  match s.wayOut (agentNi a) dst with
  | some st => (s.wayLog (s.coherentPanel pa) dst st).cohRefused a pa src st
  | none => s.acceptWb a pa tag w src

/-- COH_WB, R229: a hub agent's write-back carries the line of its write-back buffer, under that line's tag. -/
def execCohWb (agent : AgentId) (pa : BitVec 52) (tag : BitVec 12) (tint : TintId) (s : State) :
    Host.Outcome State Fault Refusal :=
  .next (
    if agent.val < 48 then
      match s.cached agent (lineOf pa) with
      | some c => if c.wbTag = some tag then s.sendWb agent pa tag c.word (hubFrom tint) else s
      | none => s
    else s)

/-- The CXL.cache agent of a site, R218. -/
def State.cxlAgent (s : State) (n : SiteId) : AgentId := asFin 96 (48 + 6 * n.val + s.sites[n].nativeAgents)

/-- The binding of a site's CXL.cache agent. -/
def State.cxlBinding (s : State) (n : SiteId) : Option Binding :=
  s.sites[n].bindings.find? fun b => b.target = 0xF && b.phase = .bound

/-- R249, R258: CXL.cache is granted, and the request's line lies in a coherent range of
the panel its agent is bound to. -/
def State.cxlMay (s : State) (n : SiteId) (pa : BitVec 52) : Bool :=
  bit s.sites[n].granted 8 && (s.coherentPanel pa).any fun p => (s.cxlBinding n).any fun b => b.panel = p

/-- What a message on CXL.cache brings: the tint of the agent's binding. -/
def State.cxlFrom (s : State) (n : SiteId) (tag : BitVec 12) : CohFrom :=
  { tint := ((s.cxlBinding n).map (·.tint)).getD 0, tag := tag, bind := 0, cxl := some n }

/-- R258: a request outside the bound panel's coherent ranges. -/
def State.cxlReject (s : State) (n : SiteId) : State :=
  (s.emit (.cxlAnswer n cxlGoErr none)).logFault { source := 9, element := BitVec.ofNat 32 n.val }

/-- R232: a DirtyEvict of a CXL agent. -/
def State.dirtyEvict (s : State) (n : SiteId) (pa : BitVec 52) (w : CodeWord) : State :=
  let a := s.cxlAgent n
  let f := s.homeOf pa
  let key : StaleEntry := { agent := a, tag := none, line := lineOf pa }
  if key ∈ s.coh.slices[f].stale then
    (s.modSlice f fun y => { y with stale := y.stale.erase key, staleCount := satAdd y.staleCount 1 }).emit
      (.cxlAnswer n cxlWritePullDrop none)
  else (s.emit (.cxlAnswer n cxlWritePull none)).sendWb a pa 0 w (s.cxlFrom n 0)

/-- R225, R232: a clean eviction of a CXL agent. -/
def State.cleanEvict (s : State) (a : AgentId) (pa : BitVec 52) : State :=
  s.modSlice (s.homeOf pa) fun x => x.remove (lineOf pa) a

/-- COH_EVC, R232: a CXL agent's clean eviction, for a line of its panel only (R258). -/
def execCohEvc (agent : AgentId) (pa : BitVec 52) (s : State) : Host.Outcome State Fault Refusal :=
  .next (if s.isCxl agent && s.sites[agentSite agent].state = 3 && s.cxlMay (agentSite agent) pa then s.cleanEvict agent pa else s)

/-- CXL_DIRTY_EVICT, R232. -/
def execCxlDirtyEvict (n : SiteId) (pa : BitVec 52) (word : CodeWord) (s : State) : Host.Outcome State Fault Refusal :=
  .next (
    if s.sites[n].state ≠ 3 then s
    else if s.cxlMay n pa then s.dirtyEvict n pa word else s.cxlReject n)

/-- R231: a CXL agent's answer to a snoop as the home takes it; `crossing` says that a DirtyEvict of the line is on its way
(R227, R232). -/
def cxlRspAnswer (r : CxlRsp) (crossing : Bool) (w : CodeWord) : SnoopAnswer :=
  let wbp : Option (BitVec 12) := if crossing then some 0 else none
  match r with
  | .rspIHitI => { hasData := false, dirty := false, notPresent := true, wbp := wbp, word := w }
  | .rspIHitSE | .rspSHitSE | .rspVHitV => { hasData := false, dirty := false, notPresent := false, wbp := wbp, word := w }
  | .rspSFwdM | .rspIFwdM => { hasData := true, dirty := true, notPresent := false, wbp := wbp, word := w }
  | .rspVFwdV => { hasData := true, dirty := false, notPresent := false, wbp := wbp, word := w }

/-- R231: a CXL agent's answer at the home. -/
def State.cxlTake (s : State) (n : SiteId) (pa : BitVec 52) (r : CxlRsp) (crossing : Bool) (w : CodeWord) : State :=
  let f := s.homeOf pa
  (s.takeAnswer f (lineOf pa) (s.cxlAgent n) (cxlRspAnswer r crossing w)).pump f

/-- CXL_CACHE_REQUEST, R231, R240, R257, R258, R268: a request, or an answer to a snoop, of a site in service. -/
def execCxlCacheRequest (n : SiteId) (req : CxlReq) (pa : BitVec 52) (word : CodeWord) (tag : BitVec 12) (s : State) :
    Host.Outcome State Fault Refusal :=
  let a := s.cxlAgent n
  let id : TxId := { field := n, ni := 16, tag := tag }
  let src := s.cxlFrom n tag
  .next (
    if s.sites[n].state ≠ 3 then s
    else if !s.cxlMay n pa then s.cxlReject n
    else match req with
      | .snoopAnswer r crossing => s.cxlTake n pa r crossing word
      | .rdCurr => s.plainRequest id pa (.rdC id) src
      | .rdShared => s.agentRequest a pa (.rdS a true) src
      | .rdAny => s.agentRequest a pa (.rdS a false) src
      | .rdOwn => s.agentRequest a pa (.rdX a) src
      | .rdOwnNoData => s.agentRequest a pa (.invX a) src
      | .itoMWr | .wrCur => s.plainRequest id pa (.wrL id word) src
      | .clFlush => s.plainRequest id pa (.flushL id) src
      | .dirtyEvict => s.dirtyEvict n pa word
      | .cleanEvict => (s.cleanEvict a pa).emit (.cxlAnswer n cxlWritePullDrop none)
      | .cleanEvictNoData => (s.cleanEvict a pa).emit (.cxlAnswer n cxlGoI none)
      | .woWrInv | .woWrInvF | .wrInv => s.cxlReject n)

/-- R227: a hub agent that has been sent a snoop of a kind answers it. -/
def State.answerSnoop (s : State) (a : AgentId) (pa : BitVec 52) (k : SnoopKind) : State :=
  let f := s.homeOf pa
  let line := lineOf pa
  let asked := (s.coh.slices[f].blockedAt line).any fun b => b.snoops.any fun n =>
    n.agent = a && n.kind = k && n.answer = none
  if asked && a.val < 48 then
    let r := s.hubAnswer a line k
    r.2.modSlice f fun x => x.modBlocked line fun b => { b with
      snoops := modFirst (fun n => n.agent = a) (fun n => { n with answer := some r.1 }) b.snoops }
  else s

/-- SNOOP_SNPS, R227. -/
def execSnoopSnps (agent : AgentId) (pa : BitVec 52) (s : State) : Host.Outcome State Fault Refusal :=
  .next (s.answerSnoop agent pa .snpS)

/-- SNOOP_SNPI, R227. -/
def execSnoopSnpi (agent : AgentId) (pa : BitVec 52) (s : State) : Host.Outcome State Fault Refusal :=
  .next (s.answerSnoop agent pa .snpI)

/-- SNOOP_SNPC, R227. -/
def execSnoopSnpc (agent : AgentId) (pa : BitVec 52) (s : State) : Host.Outcome State Fault Refusal :=
  .next (s.answerSnoop agent pa .snpC)

/-- The answer that a snooped agent has sent. -/
def State.sentAnswer (s : State) (a : AgentId) (pa : BitVec 52) : Option SnoopAnswer :=
  ((s.coh.slices[s.homeOf pa].blockedAt (lineOf pa)).bind fun b => b.snoops.find? fun n => n.agent = a).bind (·.answer)

/-- SNOOP_RESPONSE, R224, R227, R229: the home receives it, when its way leads there (R194). -/
def execSnoopResponse (agent : AgentId) (pa : BitVec 52) (s : State) : Host.Outcome State Fault Refusal :=
  .next (match s.sentAnswer agent pa with
    | some ans =>
      if s.answerComes (s.homeOf pa) agent then (s.takeAnswer (s.homeOf pa) (lineOf pa) agent ans).pump (s.homeOf pa) else s
    | none => s)

/-- The completion a hub agent has been sent for a line. -/
def State.sentCmp (s : State) (a : AgentId) (pa : BitVec 52) : Option (AgentLine × Option CodeWord) :=
  (s.coh.slices[s.homeOf pa].blockedAt (lineOf pa)).bind fun b =>
    if b.req.agent = some a ∧ !b.cmpTaken then b.granted.map fun g => (g, b.cmpData) else none

/-- COH_CMP_RECEIVE, R228: the agent takes the granted state; its Ack is on its way. -/
def execCohCmpReceive (agent : AgentId) (pa : BitVec 52) (s : State) : Host.Outcome State Fault Refusal :=
  let line := lineOf pa
  .next (match s.sentCmp agent pa with
    | none => s
    | some (st, w) =>
      let had := ((s.cached agent line).map (·.word)).getD poisonWord
      let s1 := if agent.val < 48 then s.takeLine agent line st (w.getD had) else s
      if agent.val < 48 && s.cacheFull agent line then s else
      s1.modSlice (s.homeOf pa) fun x => x.modBlocked line fun b => { b with cmpTaken := true })

/-- R223: the Ack of a completed request, from a native-profile agent or from inside the hub (a CXL agent's comes from its site
port): the line is unblocked, and the next request for it is taken. -/
def State.ackLine (s : State) (pa : BitVec 52) (native : Option AgentId) : State :=
  let f := s.homeOf pa
  match s.coh.slices[f].blockedAt (lineOf pa) with
  | none => s
  | some b =>
    let acked := match native with
      | some a => b.granted.isSome && b.req.agent = some a
      | none => b.cmpTaken || (b.granted.isSome && b.req.agent.any s.isCxl)
    if acked then (s.unblock f (lineOf pa)).pump f else s

/-- R233: the requester of a waiting request hears Hold. -/
def State.holdAgent (s : State) (line : Nat) (x : CohReq × CohFrom) : State :=
  match x.1.agent with
  | some a => s.tellHold a x.2 line
  | none => s

/-- COH_HOLD, R233: every requester that waits for the line, or whose snoops are out, hears Hold. -/
def execCohHold (pa : BitVec 52) (s : State) : Host.Outcome State Fault Refusal :=
  let x := s.coh.slices[s.homeOf pa]
  let line := lineOf pa
  let mine := (x.blockedAt line).toList.filterMap fun b => if b.granted.isSome || b.cmpTaken then none else some (b.req, b.src)
  let others := x.waiting.filterMap fun w => if w.line = line then some (w.req, w.src) else none
  .next ((mine ++ others).foldl (fun t y => t.holdAgent line y) s)

/-- SNOOP_TIMEOUT, R233. -/
def execSnoopTimeout (agent : AgentId) (pa : BitVec 52) (s : State) : Host.Outcome State Fault Refusal :=
  let f := s.homeOf pa
  let line := lineOf pa
  .next (match s.coh.slices[f].blockedAt line with
    | none => s
    | some b =>
      if b.snoops.any fun n => n.agent = agent && (n.answer = none || !s.answerComes f agent) then
        (s.snoopLost f b.src.tint line agent).pump f
      else s)

/-- R225: the NI of a request's sender: a caching agent's, a transaction's, or that of the site whose CXL port sent it. -/
def Blocked.senderNi (b : Blocked) : FieldId × NiId :=
  match b.req.agent, b.src.cxl, b.req with
  | some a, _, _ => agentNi a
  | none, some n, _ => (n, 16)
  | none, none, .rdC id | none, none, .wrL id _ | none, none, .flushL id | none, none, .atomic id .. => (id.field, id.ni)
  | none, none, _ => (0, 31)

/-- ACK_TIMEOUT, R233: the directory stays as granted; the event counts towards the isolation of the sender's NI. -/
def execAckTimeout (pa : BitVec 52) (s : State) : Host.Outcome State Fault Refusal :=
  let f := s.homeOf pa
  .next (match s.coh.slices[f].blockedAt (lineOf pa) with
    | none => s
    | some b =>
      if b.granted.isSome || b.cmpTaken then
        let s1 := s.modSlice f fun x => { x with ackTimeouts := satAdd x.ackTimeouts 1 }
        let s2 := (s1.logFault { source := 13, code := 3, element := BitVec.ofNat 32 f.val }).noteTimeout b.senderNi.1 b.senderNi.2
        (s2.unblock f (lineOf pa)).pump f
      else s)

/-- STALE_ENTRY_EXPIRY, R229. -/
def execStaleEntryExpiry (f : FieldId) (index : Nat) (s : State) : Host.Outcome State Fault Refusal :=
  .next (
    if index < s.coh.slices[f].stale.length then
      (s.modSlice f fun x => { x with stale := x.stale.eraseIdx index }).logFault
        { source := 13, element := BitVec.ofNat 32 f.val }
    else s)

/-- R234: one slice swept for a dead agent: its presence cleared, the lines it owned marked and logged. -/
def State.sweepDead (s : State) (a : AgentId) (f : FieldId) : State :=
  s.coh.slices[f].dir.foldl (fun t e => if bit e.present a.val then t.deadCopy f Config.homeTint e.line a else t) s

/-- R234: the snoops outstanding to a dead agent are answered by the home. -/
def State.answerDead (s : State) (a : AgentId) (f : FieldId) : State :=
  s.coh.slices[f].blocked.foldl (fun t b =>
    if b.snoops.any fun n => n.agent = a then
      ((t.deadCopy f b.src.tint b.line a).modSlice f fun x => x.modBlocked b.line fun y =>
        { y with snoops := y.snoops.filter fun n => n.agent ≠ a }).settle f b.line
    else t) s

/-- R233, R234: lines whose granted requester has died are unblocked, since no Ack can come. -/
def State.freeDead (s : State) (a : AgentId) (f : FieldId) : State :=
  s.modSlice f fun x => { x with blocked := x.blocked.filter fun b => !(b.granted.isSome && b.req.agent = some a) }

/-- R234: a caching agent marked dead. -/
def State.killAgent (s : State) (a : AgentId) : State :=
  if s.agentDead a then s else
  let s1 := s.modCoh fun c => { c with dead := setBit c.dead a.val true, caches := c.caches.filter fun x => x.agent ≠ a }
  (allFin 8).foldl (fun t f => (((t.answerDead a f).freeDead a f).sweepDead a f).pump f) s1

/-- AGENT_DEAD, R234: for an agent whose NI is isolated. -/
def execAgentDead (agent : AgentId) (s : State) : Host.Outcome State Fault Refusal :=
  .next (if s.isolated (agentNi agent).1 (agentNi agent).2 then s.killAgent agent else s)

/-! ## Range flushes, R236, R237 -/

/-- The panel and flush set behind a selection. -/
def State.flushOf (s : State) : SetSel → Option (PanelId × FlushSet)
  | .page p v => (s.ports[p].vfs[v].bound).map fun n => (n, s.ports[p].vfs[v].flush)
  | .mirror n => some (n, s.pnl.panels[n].flush)

def State.setFlush (s : State) (sel : SetSel) (x : FlushSet) : State :=
  match sel with
  | .page p v => s.modVf p v fun y => { y with flush := x }
  | .mirror n => s.modPanel n fun y => { y with flush := x }

/-- How many bytes of `[base, base + length)` a range covers. -/
def overlapLen (base length : Nat) (r : PaRange) : Nat := min (base + length) (r.base + r.length) - max base r.base

/-- Whether a range lies wholly inside ranges that do not overlap. -/
def coveredBy (rs : List PaRange) (base length : Nat) : Bool := (rs.map (overlapLen base length)).sum = length

/-- The lines of a range that have a directory entry. -/
def State.linesIn (s : State) (base length : Nat) : List Nat :=
  ((allFin 8).flatMap fun f => s.coh.slices[f].dir.map (·.line)).filter fun l => base ≤ l * 64 ∧ l * 64 < base + length

/-- R237: FlushL sent to the home of every line of a list, under a panel's tint. -/
def State.flushLines (s : State) (tint : TintId) (ls : List Nat) : State :=
  ls.foldl (fun t l => t.requestCoh (t.homeOf (lineAddr l)) l .sweepFlush (hubFrom tint)) s

/-- The tint of a range flush: that of the panel's VF (DESIGN CHOICE, assumption log 86). -/
def State.flushTint (s : State) (p : PanelId) : TintId :=
  match s.pnl.panels[p].vf with
  | some v => s.ports[s.pnl.panels[p].port].vfs[v].tint
  | none => Config.homeTint

/-- Whether a line still waits for its FlushL. -/
def State.flushing (s : State) (l : Nat) : Bool :=
  let x := s.coh.slices[s.homeOf (lineAddr l)]
  (x.blocked.any fun b => b.line = l && b.req = .sweepFlush) || x.waiting.any fun w => w.line = l && w.req = .sweepFlush

/-- COH_FLUSH_DONE, R237. -/
def execCohFlushDone (set : SetSel) (s : State) : Host.Outcome State Fault Refusal :=
  .next (match s.flushOf set with
    | none => s
    | some (_, x) =>
      if x.state = 1 ∧ !(x.todo.any s.flushing) then
        let s1 := s.setFlush set { x with state := 2, todo := [] }
        match set with
        | .page p v => if x.irq then s1.raiseMsix p v x.vector else s1
        | .mirror _ => s1.irq irqMirror
      else s)

/-- WBACK, R220: the agent releases the line from its write-back buffer. -/
def execWback (agent : AgentId) (pa : BitVec 52) (s : State) : Host.Outcome State Fault Refusal :=
  .next (
    if (agent, lineOf pa) ∈ s.coh.wbAcks then
      (s.dropCached agent (lineOf pa)).modCoh fun c => { c with wbAcks := c.wbAcks.erase (agent, lineOf pa) }
    else s)

end Sys2Proof.Machine
end

