-- ==== Sys2Proof/Machine/Num.lean ====
section
/-!
DEFINITION. Numbers: element formats, exact sums and products, and rounding (R25 to R36, R69, R70).
-/

namespace Sys2Proof.Machine

/-- A number as the array forms it exactly: NaN, an infinity, or ±m·2^e; zero keeps its sign. -/
inductive Num where
  | nan
  | inf (neg : Bool)
  | fin (neg : Bool) (m : Nat) (e : Int)
  deriving DecidableEq, Repr

/-- What the highest exponent code of a format stands for. -/
inductive TopCode where
  | ieee      -- infinity and NaN
  | nanOnly   -- FP8 E4M3: the last code is NaN
  | finite    -- numbers only
  deriving DecidableEq, Repr

/-- A floating format: exponent bits, fraction bits, bias, top code. -/
structure FloatFmt where
  eb : Nat
  mb : Nat
  bias : Nat
  top : TopCode
  deriving DecidableEq, Repr

abbrev fmtFp32 : FloatFmt := { eb := 8, mb := 23, bias := 127, top := .ieee }
abbrev fmtBf16 : FloatFmt := { eb := 8, mb := 7, bias := 127, top := .ieee }
abbrev fmtFp16 : FloatFmt := { eb := 5, mb := 10, bias := 15, top := .ieee }
abbrev fmtE4m3 : FloatFmt := { eb := 4, mb := 3, bias := 7, top := .nanOnly }
abbrev fmtE5m2 : FloatFmt := { eb := 5, mb := 2, bias := 15, top := .ieee }
abbrev fmtE2m1 : FloatFmt := { eb := 2, mb := 1, bias := 1, top := .finite }
abbrev fmtE2m3 : FloatFmt := { eb := 2, mb := 3, bias := 1, top := .finite }
abbrev fmtE3m2 : FloatFmt := { eb := 3, mb := 2, bias := 3, top := .finite }

/-- The exponent of a format's smallest step. -/
def FloatFmt.qmin (f : FloatFmt) : Int := 1 - (f.bias : Int) - f.mb

/-- The first magnitude code that is no finite number. -/
def FloatFmt.limit (f : FloatFmt) : Nat :=
  match f.top with
  | .ieee => (2 ^ f.eb - 1) * 2 ^ f.mb
  | .nanOnly => 2 ^ (f.eb + f.mb) - 1
  | .finite => 2 ^ (f.eb + f.mb)

/-- The value of a code of a format. -/
def FloatFmt.decode (f : FloatFmt) (x : Nat) : Num :=
  let mag := x % 2 ^ (f.eb + f.mb)
  let neg := x / 2 ^ (f.eb + f.mb) % 2 = 1
  let ex := mag / 2 ^ f.mb
  let fr := mag % 2 ^ f.mb
  if f.limit ≤ mag then (if f.top = .ieee ∧ mag = f.limit then .inf neg else .nan)
  else if ex = 0 then .fin neg fr f.qmin
  else .fin neg (2 ^ f.mb + fr) (f.qmin + (ex - 1))

/-- `m` divided by 2^`k`, rounded to nearest even. -/
def rneShift (m k : Nat) : Nat :=
  let q := m / 2 ^ k
  let r := m % 2 ^ k * 2
  if r < 2 ^ k then q else if r = 2 ^ k then q + q % 2 else q + 1

/-- Where the last place of a number of magnitude m·2^e lies in a format. -/
def FloatFmt.place (f : FloatFmt) (m : Nat) (e : Int) : Int := max (Nat.log2 m + e - f.mb) f.qmin

/-- The magnitude code of m·2^e rounded to nearest even; a code of `limit` or more has overflowed. -/
def FloatFmt.roundNear (f : FloatFmt) (m : Nat) (e : Int) : Nat :=
  if m = 0 then 0 else
  let q := f.place m e
  let sig := if q ≤ e then m * 2 ^ (e - q).toNat else rneShift m (q - e).toNat
  (q - f.qmin).toNat * 2 ^ f.mb + sig

/-- R35: the magnitude code of m·2^e with a 16-bit value added to the 16 bits below the last place, then truncated. -/
def FloatFmt.roundStochastic (f : FloatFmt) (m : Nat) (e : Int) (r : Nat) : Nat :=
  if m = 0 then 0 else
  let q := f.place m e
  let ext := if q - 16 ≤ e then m * 2 ^ (e - (q - 16)).toNat else m / 2 ^ ((q - 16) - e).toNat
  (q - f.qmin).toNat * 2 ^ f.mb + (ext + r) / 65536

/-- The sign bit of a format's code. -/
def FloatFmt.signed (f : FloatFmt) (neg : Bool) (mag : Nat) : Nat := (if neg then 2 ^ (f.eb + f.mb) else 0) + mag

/-- R36: a format's canonical NaN. -/
def FloatFmt.nan (f : FloatFmt) : Nat :=
  match f.top with
  | .ieee => f.limit + 2 ^ (f.mb - 1)
  | .nanOnly => f.limit
  | .finite => 0

/-! ## Exact arithmetic -/

/-- An exact signed sum. -/
def numOfInt (x : Int) (e : Int) : Num := .fin (x < 0) x.natAbs e

/-- A finite number's signed magnitude at exponent `q`, at or below its own. -/
def signedAt (neg : Bool) (m : Nat) (e q : Int) : Int :=
  let v : Int := m * 2 ^ (e - q).toNat
  if neg then -v else v

/-- R31: an exact sum; a zero sum is −0 only when both terms are −0. -/
def Num.add : Num → Num → Num
  | .nan, _ => .nan
  | _, .nan => .nan
  | .inf a, .inf b => if a = b then .inf a else .nan
  | .inf a, .fin .. => .inf a
  | .fin .., .inf b => .inf b
  | .fin a m e, .fin b n f =>
    let q := min e f
    let s := signedAt a m e q + signedAt b n f q
    if s = 0 then .fin (a && b && m = 0 && n = 0) 0 q else numOfInt s q

/-- An exact product (R31, R34). -/
def Num.mul : Num → Num → Num
  | .nan, _ => .nan
  | _, .nan => .nan
  | .inf a, .inf b => .inf (a != b)
  | .inf a, .fin b n _ => if n = 0 then .nan else .inf (a != b)
  | .fin a m _, .inf b => if m = 0 then .nan else .inf (a != b)
  | .fin a m e, .fin b n f => .fin (a != b) (m * n) (e + f)

def Num.neg : Num → Num
  | .nan => .nan
  | .inf a => .inf (!a)
  | .fin a m e => .fin (!a) m e

/-- R31: −0 never comes out of a masked factor. -/
def plusZero : Num := .fin false 0 0

/-- R34: a number rounded once to FP32, to nearest even. -/
def Num.toFp32 : Num → Word
  | .nan => 0x7FC00000
  | .inf a => if a then 0xFF800000 else 0x7F800000
  | .fin a m e => BitVec.ofNat 32 (fmtFp32.signed a (min (fmtFp32.roundNear m e) fmtFp32.limit))

def fp32 (w : Word) : Num := fmtFp32.decode w.toNat

/-! ## Element formats, R25 -/

/-- Bits per element of a format code. -/
def fmtBits (c : Nat) : Nat :=
  if c ≤ 1 then 4 else if c = 8 ∨ c = 9 then 6 else if c ≤ 7 then 8 else if c ≤ 0xB then 16 else 32

/-- The five rate classes of R26 and R27. -/
inductive RateClass where
  | int4 | float4 | int8 | float8 | float16
  deriving DecidableEq, Repr

/-- R25: the rate class of an input format; none where the code is no input. -/
def rateClass (c : Nat) : Option RateClass :=
  match c with
  | 0x0 => some .int4
  | 0x1 => some .float4
  | 0x2 => some .int8
  | 0x3 | 0x4 | 0x5 | 0x6 | 0x7 | 0x8 | 0x9 => some .float8
  | 0xA | 0xB => some .float16
  | _ => none

def RateClass.isInt (c : RateClass) : Bool := c = .int4 || c = .int8

/-- R26: K per step. -/
def RateClass.perStep : RateClass → Nat
  | .int4 | .float4 => 8
  | .int8 | .float8 => 4
  | .float16 => 2

/-- The MX formats carry block scales. -/
def isMx (c : Nat) : Bool := c = 1 || c = 3 || (6 ≤ c && c ≤ 9)

/-- A two's complement code of `n` bits. -/
def signedCode (n x : Nat) : Int := if x < 2 ^ (n - 1) then x else (x : Int) - 2 ^ n

/-- R25: the value of an element's code. -/
def elemNum (c x : Nat) : Num :=
  match c with
  | 0x0 => numOfInt (signedCode 4 x) 0
  | 0x1 => fmtE2m1.decode x
  | 0x2 => numOfInt (signedCode 8 x) 0
  | 0x3 => numOfInt (signedCode 8 x) (-6)
  | 0x4 | 0x6 => fmtE4m3.decode x
  | 0x5 | 0x7 => fmtE5m2.decode x
  | 0x8 => fmtE2m3.decode x
  | 0x9 => fmtE3m2.decode x
  | 0xA => fmtBf16.decode x
  | 0xB => fmtFp16.decode x
  | _ => fmtFp32.decode x

/-- The integer value of an integer element. -/
def elemInt (c x : Nat) : Int := signedCode (fmtBits c) x

/-- R32: an E8M0 block scale; 0xFF is NaN (R34). -/
def scaleNum (x : Nat) : Num := if x = 0xFF then .nan else .fin false 1 ((x : Int) - 127)

/-! ## Accumulation, R30 to R33 -/

/-- R30: a step of an integer pair: the exact result held at the INT32 limits, and whether it was held. -/
def intStep (acc : Word) (products : List Int) : Word × Bool :=
  let s := acc.toInt + products.sum
  if 2147483647 < s then (0x7FFFFFFF, true)
  else if s < -2147483648 then (0x80000000, true)
  else (BitVec.ofInt 32 s, false)

/-- R31: a step of a float pair without block scales: one exact sum, rounded once. -/
def floatStep (acc : Word) (products : List Num) : Word := (products.foldl Num.add (fp32 acc)).toFp32

/-- R32: a block of an MX pair: the block sum scaled, and added with one rounding; a zero block sum is +0. -/
def mxBlock (acc : Word) (products : List Num) (sa sb : Num) : Word :=
  let sum := products.foldl Num.add plusZero
  let scaled := (sum.mul sa).mul sb
  ((fp32 acc).add scaled).toFp32

/-! ## Output conversion, R35, R36 -/

/-- What a conversion reports. -/
structure OutFlags where
  satOut : Bool := false
  infOut : Bool := false
  nanOut : Bool := false
  deriving DecidableEq, Repr

/-- R36: an accumulator converted to a floating output format. `rnd` is the random value of R35, when RND is 1. -/
def convertOut (f : FloatFmt) (rnd : Option Nat) (sat : Bool) (acc : Word) : Nat × OutFlags :=
  match fp32 acc with
  | .nan => (f.nan, { nanOut := true })
  | .inf a => if f.top = .ieee then (f.signed a f.limit, { infOut := true }) else (f.nan, { nanOut := true })
  | .fin a m e =>
    let mag := match rnd with
      | some r => f.roundStochastic m e r
      | none => f.roundNear m e
    if mag < f.limit then (f.signed a mag, {})
    else if sat then (f.signed a (f.limit - 1), { satOut := true })
    else if f.top = .ieee then (f.signed a f.limit, { infOut := true })
    else (f.nan, { nanOut := true })

/-- R27: the floating output format of a code; none for INT32. -/
def outFmt (c : Nat) : Option FloatFmt :=
  match c with
  | 0x4 => some fmtE4m3
  | 0x5 => some fmtE5m2
  | 0xA => some fmtBf16
  | 0xB => some fmtFp16
  | 0xC => some fmtFp32
  | _ => none

/-- R35, R36: an accumulator converted to the output format of a code; FP32 and INT32 pass unrounded. -/
def outputOf (c : Nat) (rnd : Option Nat) (sat : Bool) (acc : Word) : Nat × OutFlags :=
  match outFmt c with
  | none => (acc.toNat, {})
  | some f =>
    if c = 0xC then
      (match fp32 acc with
        | .nan => (f.nan, { nanOut := true })
        | .inf _ => (acc.toNat, { infOut := true })
        | .fin .. => (acc.toNat, {}))
    else convertOut f rnd sat acc

/-- R50, CINIT 0b10: a value of the output format widened exactly to an accumulator. -/
def widenIn (c x : Nat) : Word :=
  match outFmt c with
  | none => BitVec.ofNat 32 x
  | some f => if c = 0xC then BitVec.ofNat 32 x else (f.decode x).toFp32

end Sys2Proof.Machine
end

