-- ==== Sys2Proof/Machine/Translate.lean ====
section
/-!
DEFINITION. Translation: page table entries, the walk, the caches, the grant check and the fault record (chapter
Addresses and translation).
-/

namespace Sys2Proof.Machine

/-! ## Registers of a panel's VF -/

/-- The VF page of a panel, if one is bound. -/
def State.vfOf (s : State) (p : PanelId) : Option VfState :=
  let x := s.pnl.panels[p]
  x.vf.map fun v => s.ports[x.port].vfs[v]

/-- A change to the VF page of a panel. -/
def State.modVfOf (s : State) (p : PanelId) (f : VfState → VfState) : State :=
  let x := s.pnl.panels[p]
  match x.vf with
  | some v => s.modVf x.port v f
  | none => s

/-! ## Page table entries, R157, R158 -/

def pteV (e : DWord) : Bool := bit e 0
def pteLeaf (e : DWord) : Bool := bit e 1
def pteR (e : DWord) : Bool := bit e 2
def pteW (e : DWord) : Bool := bit e 3
def pteX (e : DWord) : Bool := bit e 4
def pteHost (e : DWord) : Bool := bit e 5
def pteAddr (e : DWord) : Nat := fld e.toNat 16 36 * 65536
def pteReserved (e : DWord) : Bool := fld e.toNat 52 12 ≠ 0 || fld e.toNat 12 4 ≠ 0 || fld e.toNat 6 2 ≠ 0

/-- R157: how many low bits of a virtual address lie below the index of a level. -/
def levelShift (level : Nat) : Nat := 16 + 13 * level

/-- R159, type 0x3, for a valid entry read at a level. -/
def malformed (e : DWord) (level : Nat) : Bool :=
  pteReserved e || (!pteLeaf e && (pteHost e || pteX e || pteW e || pteR e)) || (level = 0 && !pteLeaf e) ||
    (pteLeaf e && fld e.toNat 16 (13 * level) ≠ 0)

/-- R159, type 0x2: whether a leaf permits an access. -/
def permits (e : DWord) : Access → Bool
  | .read => pteR e
  | .write => pteW e
  | .atomic => pteW e
  | .fetch => pteX e

/-- Types of a translation fault, R172. -/
structure TransFault where
  type : BitVec 4
  level : BitVec 4
  entry : DWord
  deriving DecidableEq, Repr

/-- Where a translated access goes. -/
inductive Target where
  | pa (a : BitVec 52)
  | host (addr : DWord)
  | refused
  deriving DecidableEq, Repr

/-! ## Site apertures, R255 -/

/-- A place in a site aperture. -/
inductive ApertureAt where
  | window (e : Fin 8) (off : Nat)
  | endpoint (p : Fin 16) (off : BitVec 20)
  | regs (off : Nat)
  | device (off : Nat)
  | unbacked
  deriving DecidableEq, Repr

/-- R242: engines, endpoints and device memory that a site's descriptor declares. -/
def SiteState.engines (x : SiteState) : Nat := fld x.desc[5].toNat 13 4
def SiteState.endpoints (x : SiteState) : Nat := fld x.desc[5].toNat 17 5
def SiteState.winSize (x : SiteState) (e : Nat) : Nat := 2 ^ (fld (x.desc[9 + 2 * (e % 8)]!).toNat 28 4 + 12)
def SiteState.hdmSize (x : SiteState) : Nat := x.desc[40].toNat + 2 ^ 32 * x.desc[41].toNat

/-- R255, the table. -/
def SiteState.aperture (x : SiteState) (off : Nat) : ApertureAt :=
  if off < 0x8000000 then
    let e := off / 0x1000000
    if e < x.engines ∧ off % 0x1000000 < x.winSize e then .window (asFin 8 e) (off % 0x1000000) else .unbacked
  else if off < 0x10000000 then
    let p := (off - 0x8000000) / 0x100000
    if p < 16 ∧ p < x.endpoints then .endpoint (asFin 16 p) (BitVec.ofNat 20 off) else .unbacked
  else if off < 0x20000000 then .regs (off - 0x10000000)
  else if 0x10000000000 ≤ off ∧ off < 0x10000000000 + x.hdmSize then .device (off - 0x10000000000)
  else .unbacked

/-- R241, R309: engine `e` of a binding's target, when it is one. -/
def Binding.engine (b : Binding) : Option Nat := if b.target.toNat < 8 then some b.target.toNat else none

/-- R242: the engine that a descriptor assigns a stream endpoint to. -/
def SiteState.endpointEngine (x : SiteState) (p : Nat) : Nat := fld (x.desc[24 + p % 16]!).toNat 28 4

/-! ## Grants, R161, R163 -/

/-- Whether `[base, base + length)` lies in a range. -/
def within (base length lo len : Nat) : Bool := lo ≤ base && base + length ≤ lo + len

/-- The ranges a grant opens: its own, or both copies of its commons region. -/
def State.grantRanges (s : State) (g : Grant) : List PaRange :=
  match g.region with
  | none => [{ base := g.base, length := g.length }]
  | some n =>
    let c := s.pnl.commons[n]
    { base := c.primary, length := c.length } :: (if c.mirrored then [{ base := c.mirror, length := c.length }] else [])

/-- R161, R309: the aperture ranges that one binding grants: the engine's work window, in whole 64 KiB parts, and its stream
endpoints; and the register region and device memory where it says so. -/
def SiteState.bindGrants (x : SiteState) (n : SiteId) (b : Binding) : List PaRange :=
  let base := 4 * 2 ^ 48 + n.val * 2 ^ 45
  (match b.engine with
    | none => []
    | some e =>
      { base := base + e * 0x1000000, length := max 65536 (x.winSize e) } ::
        ((List.range x.endpoints).filter fun p => x.endpointEngine p = e).map fun p =>
          { base := base + 0x8000000 + p * 0x100000, length := 0x100000 }) ++
    (if b.regs then [{ base := base + 0x10000000, length := 0x10000000 }] else []) ++
    (if b.devmem then [{ base := base + 0x10000000000, length := x.hdmSize }] else [])

/-- R161: the aperture ranges of a panel's bound sites. -/
def State.apertureGrants (s : State) (p : PanelId) : List PaRange :=
  (allFin 8).flatMap fun n =>
    (s.sites[n].bindings.filter fun b => b.panel = p && b.phase ≠ .unbinding).flatMap fun b => s.sites[n].bindGrants n b

/-- R161: whether a panel may make an access to the 64 KiB part that holds a physical address. -/
def State.granted (s : State) (p : PanelId) (pa : BitVec 52) (acc : Access) : Bool :=
  let part := pa.toNat / 65536 * 65536
  if paPartner pa then s.pnl.panels[p].twin.isSome
  else if 5 ≤ paSpace pa then false
  else if paSpace pa = 4 then (s.apertureGrants p).any fun r => within part 65536 r.base r.length
  else s.pnl.panels[p].grants.any fun g =>
    (s.grantRanges g).any (fun r => within part 65536 r.base r.length) &&
      (match acc with | .write | .atomic => g.write | .read | .fetch => true)

/-- R159: a table must lie wholly in one of the panel's own HBM grants. -/
def State.tableGranted (s : State) (p : PanelId) (table : BitVec 52) : Bool :=
  !paPartner table && paSpace table < 2 &&
    s.pnl.panels[p].grants.any fun g => g.pool && within table.toNat 65536 g.base g.length

/-! ## One level of a walk, R159 -/

inductive WalkOut where
  | fault (f : TransFault)
  | leaf (pte : DWord)
  | pointer (pte : DWord)
  deriving DecidableEq, Repr

/-- R159: entry `pte`, read at a level, judged. -/
def judge (pte : DWord) (level : Nat) (poisoned : Bool) : WalkOut :=
  let l := BitVec.ofNat 4 level
  if poisoned then .fault { type := 5, level := l, entry := 0 }
  else if !pteV pte then .fault { type := 1, level := l, entry := pte }
  else if malformed pte level then .fault { type := 3, level := l, entry := pte }
  else if pteLeaf pte then .leaf pte else .pointer pte

/-- R159: a table's entry for an address read and judged; `namer` named the table. The read leaves from NI 18 of the
translation unit's field under the tint of the request that caused it. A poisoned entry is a control consumption (R139). -/
def State.walkLevel (s : State) (g : Agent) (p : PanelId) (tint : TintId) (va : BitVec 55) (level : Nat) (table : BitVec 52)
    (namer : DWord) (flips : BitVec 544) : WalkOut × State :=
  if !s.tableGranted p table then (.fault { type := 4, level := BitVec.ofNat 4 level, entry := namer }, s) else
  let idx := fld va.toNat (levelShift level) 13
  let pa := table + BitVec.ofNat 52 (idx * 8)
  let r := s.fetchCode g 18 tint pa flips
  let w := r.1.word
  let pte := BitVec.ofNat 64 (fld w.data.toNat (64 * (idx % 8)) 64)
  (judge pte level w.mark, if w.mark then r.2.wordEvent 6 pa g else r.2)

/-! ## Caches, R164 -/

def tlbFind (c : List TlbEntry) (p : PanelId) (va : BitVec 55) : Option TlbEntry :=
  c.find? fun e => e.panel = p ∧ e.index = va.toNat >>> levelShift e.level

def pointerFind (c : List TlbEntry) (p : PanelId) (va : BitVec 55) (level : Nat) : Option TlbEntry :=
  c.find? fun e => e.panel = p ∧ e.level = level ∧ e.index = va.toNat >>> levelShift level

/-- An entry taken up by a cache of `cap` entries; which one gives way is the hub's choice. -/
def cacheAdd {α : Type} [DecidableEq α] (cap draw : Nat) (c : List α) (e : α) : List α :=
  if e ∈ c then c
  else if c.length < cap then c ++ [e]
  else c.eraseIdx (Config.cacheVictim draw % cap) ++ [e]

/-- R164: the field TLB takes up an entry in its set of eight ways; which one gives way is the hub's choice. -/
def fieldTlbAdd (draw : Nat) (c : List TlbEntry) (e : TlbEntry) : List TlbEntry :=
  let set := c.filter fun x => Config.tlbSet x.panel.val x.index % 1024 = Config.tlbSet e.panel.val e.index % 1024
  if e ∈ c then c
  else if set.length < 8 then c ++ [e]
  else match set[Config.cacheVictim draw % 8]? with
    | some v => c.erase v ++ [e]
    | none => c ++ [e]

def tuField : EngineSel → FieldId
  | .array a => fieldOfArray a
  | .site n => n
  | .aperture p => fieldOfPort p

/-- The cache of leaves that is an engine's own. -/
def TuState.own (t : TuState) : EngineSel → List TlbEntry
  | .array a => t.arrayTlb[asFin 5 (a.val % 5)]
  | .site _ => t.siteTlb
  | .aperture _ => t.apertureTlb

def TuState.setOwn (t : TuState) (e : EngineSel) (c : List TlbEntry) : TuState :=
  match e with
  | .array a => { t with arrayTlb := vset t.arrayTlb (asFin 5 (a.val % 5)) c }
  | .site _ => { t with siteTlb := c }
  | .aperture _ => { t with apertureTlb := c }

def ownCap : EngineSel → Nat
  | .array _ => 128
  | .site _ => 64
  | .aperture _ => 64

/-- A leaf found: the engine's cache and the field TLB hold it from now on. -/
def State.cacheLeaf (s : State) (eng : EngineSel) (e : TlbEntry) : State :=
  let d := s.draws
  (s.modTu (tuField eng) fun t =>
    let t := t.setOwn eng (cacheAdd (ownCap eng) d (t.own eng) e)
    let kept := match Config.cacheDrop d with
      | some i => if e ∈ t.fieldTlb then t.fieldTlb else t.fieldTlb.eraseIdx i
      | none => t.fieldTlb
    { t with fieldTlb := fieldTlbAdd d kept e }).drawn

/-- A pointer entry found on a walk that ended in a leaf. -/
def State.cachePointer (s : State) (f : FieldId) (e : TlbEntry) : State :=
  (s.modTu f fun t => { t with walkCache := cacheAdd 512 s.draws t.walkCache e }).drawn

/-! ## Translation -/

/-- R161 to R163: a leaf applied to an access. -/
def State.useLeaf (s : State) (p : PanelId) (va : BitVec 55) (acc : Access) (level : Nat) (pte : DWord) :
    Except TransFault Target :=
  let addr := pteAddr pte + va.toNat % 2 ^ levelShift level
  if !permits pte acc then .error { type := 2, level := BitVec.ofNat 4 level, entry := pte }
  else if pteHost pte then .ok (.host (BitVec.ofNat 64 addr))
  else if s.granted p (BitVec.ofNat 52 addr) acc then .ok (.pa (BitVec.ofNat 52 addr))
  else .error { type := 4, level := 0xF, entry := pte }

/-- R159: a walk from `level` down, with the pointer entries it found; fuel covers the three levels. -/
def State.walk (s : State) (g : Agent) (p : PanelId) (tint : TintId) (va : BitVec 55) (acc : Access) (eng : EngineSel)
    (fuel level : Nat) (table : BitVec 52) (namer : DWord) (found : List TlbEntry) : Except TransFault Target × State :=
  match fuel with
  | 0 => (.error { type := 3, level := 0, entry := namer }, s)
  | n + 1 =>
    match s.walkLevel g p tint va level table namer 0 with
    | (.fault f, s1) => (.error f, s1)
    | (.pointer pte, s1) =>
      State.walk s1 g p tint va acc eng n (level - 1) (BitVec.ofNat 52 (pteAddr pte)) pte
        (found ++ [{ panel := p, level := level, index := va.toNat >>> levelShift level, pte := pte }])
    | (.leaf pte, s1) =>
      match s1.useLeaf p va acc level pte with
      | .error f => (.error f, s1)
      | .ok t =>
        let s2 := found.foldl (fun x e => x.cachePointer (tuField eng) e) s1
        (.ok t, s2.cacheLeaf eng { panel := p, level := level, index := va.toNat >>> levelShift level, pte := pte })

/-- R159, R166: where a walk starts: below the deepest pointer entry held, or at the root; type 0x6 when the root is not
enabled, whatever the walk cache holds. -/
def State.walkStart (s : State) (p : PanelId) (va : BitVec 55) (f : FieldId) :
    Except TransFault (Nat × BitVec 52 × DWord) :=
  let wc := s.fields[f].tu.walkCache
  let root := ((s.vfOf p).map (·.root)).getD 0
  if !bit root 0 then .error { type := 6, level := 0xF, entry := 0 } else
  match pointerFind wc p va 1 with
  | some e => .ok (0, BitVec.ofNat 52 (pteAddr e.pte), e.pte)
  | none =>
    match pointerFind wc p va 2 with
    | some e => .ok (1, BitVec.ofNat 52 (pteAddr e.pte), e.pte)
    | none => .ok (2, BitVec.ofNat 52 (pteAddr root), 0)

/-- A virtual address translated for an engine, through its caches or by a walk (R159 to R166, R180). -/
def State.translate (s : State) (g : Agent) (eng : EngineSel) (p : PanelId) (tint : TintId) (va : BitVec 55) (acc : Access) :
    Except TransFault Target × State :=
  let f := tuField eng
  let t := s.fields[f].tu
  if eng ∈ t.refused then (.ok .refused, s) else
  match tlbFind (t.own eng) p va with
  | some e => (s.useLeaf p va acc e.level e.pte, s)
  | none =>
    match tlbFind t.fieldTlb p va with
    | some e =>
      match s.useLeaf p va acc e.level e.pte with
      | .error x => (.error x, s)
      | .ok x => (.ok x, s.cacheLeaf eng e)
    | none =>
      match s.walkStart p va f with
      | .error x => (.error x, s)
      | .ok (level, table, namer) => s.walk g p tint va acc eng 3 level table namer []

/-! ## Fault records and the ring, R172 to R178 -/

/-- R172: a record with its PHASE, TOKEN and HELD, as 64 bytes. -/
def faultRecord (i : FaultInfo) (phase : Bool) (token : BitVec 16) : List Byte :=
  bytesOf 64 (packWords
    [BitVec.ofNat 32 (flag phase 31 + i.type.toNat * 2 ^ 24 + i.access.toNat * 2 ^ 20 + i.level.toNat * 2 ^ 16 + token.toNat),
     BitVec.ofNat 32 (i.key.engine.toNat * 2 ^ 28 + i.key.field.toNat * 2 ^ 25 + i.key.logical.toNat * 2 ^ 19
       + i.key.phys.toNat * 2 ^ 13 + i.key.sub.toNat),
     BitVec.ofNat 32 (i.va.toNat / 65536 * 65536), BitVec.ofNat 32 (i.va.toNat / 2 ^ 32),
     BitVec.ofNat 32 i.va.toNat, BitVec.ofNat 32 (i.va.toNat / 2 ^ 32),
     i.entry.setWidth 32, (i.entry >>> 32).setWidth 32,
     BitVec.ofNat 32 i.stepId.toNat, BitVec.ofNat 32 (flag i.held 1 + flag i.midtile 0),
     i.time.setWidth 32, (i.time >>> 32).setWidth 32])

def accessCode : Access → BitVec 4
  | .read => 0
  | .write => 1
  | .atomic => 2
  | .fetch => 3

/-- A fault on its way to a panel's ring writer. -/
def State.arrive (s : State) (p : PanelId) (i : FaultInfo) : State :=
  s.modPanel p fun x => { x with ring := { x.ring with arrivals := x.ring.arrivals ++ [i] } }

/-- R173: the number of records a ring holds, and its size. -/
def VfState.ringHeld (v : VfState) : Nat := (v.tail - v.head).toNat
def VfState.ringSize (v : VfState) : Nat := 2 ^ v.ringLog.toNat

/-- R172: TOKEN counts up from 1, skips 0, and passes over those that stalled engines hold. -/
def nextToken (held : List (BitVec 16)) (fuel : Nat) (t : BitVec 16) : BitVec 16 :=
  let u := if t + 1 = 0 then 1 else t + 1
  match fuel with
  | 0 => u
  | n + 1 => if u ∈ held then nextToken held n u else u

/-- The key of an array's engine in a record. -/
def State.arrayKey (s : State) (a : ArrayId) (engine : BitVec 4) (sub : BitVec 13) : EngineKey :=
  { engine := engine, field := BitVec.ofNat 3 (a.val / 5), logical := s.arrays[a].logical,
    phys := BitVec.ofNat 6 a.val, sub := sub }

/-- The fault information of an access that could not be translated. -/
def State.faultInfo (s : State) (key : EngineKey) (f : TransFault) (acc : Access) (va : BitVec 55) (stepId : BitVec 24)
    (midtile stalls : Bool) : FaultInfo :=
  { key := key, type := f.type, access := accessCode acc, level := f.level, va := va, entry := f.entry, stepId := stepId,
    midtile := midtile, held := false, time := s.now, stalls := stalls }

end Sys2Proof.Machine
end

