-- ==== Sys2Proof/Machine/Access.lean ====
section
/-!
DEFINITION. The accesses that an engine makes within its own command: a code word read or written at a virtual address,
in this package's tiers, at a site, at the partner or in host memory (R71, R105, R140, R167, R168, R215, R255, R289).
Answers that come from outside the package within such a command are free values (assumption log 8).
-/

namespace Sys2Proof.Machine

/-! ## Site apertures, R249, R256 -/

/-- R247: the feature that a region needs. -/
def ApertureAt.feature : ApertureAt → Nat
  | .window .. => 0
  | .endpoint .. => 4
  | .regs _ => 5
  | .device _ => 6
  | .unbacked => 0

/-- R105, R210, R240, R249, R256: a hub request to a site, refused with a status or let through. -/
def State.siteVerdict (s : State) (n : SiteId) (off : Nat) (write : Bool) : Except (BitVec 3) ApertureAt :=
  let x := s.sites[n]
  let at_ := x.aperture off
  if s.isolated n 16 then .error 1
  else if x.state = 4 then .error 3
  else if at_ = .unbacked then .error 2
  else if !bit x.granted at_.feature then .error 6
  else match at_, write with
    | .endpoint .., false => .error 6
    | _, _ => .ok at_

/-- R376: a twin message header. -/
def twinHeader (type count poison status tag addr binding range field ni arg : Nat) : BitVec 128 :=
  BitVec.ofNat 128 (packWords
    [BitVec.ofNat 32 (type * 2 ^ 26 + count * 2 ^ 23 + poison * 2 ^ 18 + status * 2 ^ 14 + tag), BitVec.ofNat 32 addr,
     BitVec.ofNat 32 (binding * 2 ^ 26 + range * 2 ^ 20 + addr / 2 ^ 32 % 2 ^ 20),
     BitVec.ofNat 32 (field * 2 ^ 29 + ni * 2 ^ 24 + arg)])

/-! ## Engines -/

/-- An engine as a requester: the agent of its log entries, the engine of its translations, its NI and tint, the
caching agent it reaches coherent ranges through (R215), the owner of the transactions it leaves behind, and the virtual
address they were translated from (R179). -/
structure Eng where
  agent : Agent
  sel : EngineSel
  panel : PanelId
  tint : TintId
  ni : NiId
  cache : Option AgentId
  owner : TxOwner
  va : Option (BitVec 55) := none
  deriving DecidableEq, Repr

/-- The same engine at a piece of its array's work. -/
def Eng.at (e : Eng) (w : Work) : Eng :=
  match e.owner with
  | .arrayStep a open_ _ => { e with owner := .arrayStep a open_ w }
  | _ => e

/-- R162, R279, R294, R425: the port and VF under which a panel's requests reach host memory, when they do. -/
def State.hostPath (s : State) (p : PanelId) : Option (PortId × VfId) :=
  let x := s.pnl.panels[p]
  x.vf.bind fun v =>
    if s.ports[x.port].l0 ∧ s.ports[x.port].vfs[v].bme then some (x.port, v) else none

/-- R279, R289, R425: a host-memory access answered with status 0x3, logged as class 0. -/
def State.hostRefused (s : State) (p : PanelId) : State :=
  s.logFault { source := 10, code := 3, panel := panelByte (some p), element := BitVec.ofNat 32 (s.pnl.panels[p].port).val }

/-- R261: a status of the site stream as the network carries it. -/
def siteStatus (st : Nat) : BitVec 3 := if 8 ≤ st then 6 else BitVec.ofNat 3 st

/-- R207, R261, R266: an answer from a site or from the partner: its status with the word it brings, or none in time. -/
def State.outsideReply (s : State) (p : PanelId) (dst : FieldId × NiId) : Reply × State :=
  let d := s.draws
  if Config.outsideAnswers d then
    let st := siteStatus (Config.outsideStatus d).toNat
    ({ status := st, word := if st = 0 then { data := Config.outsideWord d, mark := Config.outsideMark d } else poisonWord }, s.drawn)
  else ({ status := 3, word := poisonWord }, s.drawn.timedOut (some p) dst)

/-- R289: an answer from host memory: status 0x0 with the word it brings; an error completion, or none in time, is status
0x3 and logged. -/
def State.hostReply (s : State) (p : PanelId) : Reply × State :=
  let d := s.draws
  if Config.outsideAnswers d then
    ({ status := 0, word := { data := Config.outsideWord d, mark := Config.outsideMark d } }, s.drawn)
  else ({ status := 3, word := poisonWord }, s.drawn.hostRefused p)

/-- The NI that an engine's requests leave by. -/
def Eng.src (e : Eng) : FieldId × NiId := (e.agent.field, e.ni)

/-- R186, R190, R194, R210: an access refused on its way, with the status it is answered with. -/
def State.wayRefused (s : State) (e : Eng) (dst : FieldId × NiId) : Option (BitVec 3) := s.wayOut e.src dst

/-- R186, R190, R194: what becomes of the response on its way back: 0x0 when it arrives. -/
def State.wayBack (s : State) (e : Eng) (dst : FieldId × NiId) : BitVec 3 := s.wayHome e.src dst

/-- R190, R207: what the hub records of an access that its way, there or back, ended. -/
def State.wayLogged (s : State) (e : Eng) (dst : FieldId × NiId) (st : BitVec 3) : State := s.wayLog (some e.panel) dst st

/-- R197: an access counted at both its points. -/
def State.tallied (s : State) (e : Eng) (dst : FieldId × NiId) (n : Nat) : State := s.counted e.src dst e.tint n

/-- R185, R215: where an engine's access goes: the home of a coherent line that it reaches through a cache, or the NI of the
address; none for an unbacked one. -/
def State.engDest (s : State) (e : Eng) (pa : BitVec 52) : Option (FieldId × NiId) :=
  if e.cache.isSome && s.coherentAt pa then some (s.homeOf pa, 17) else s.targetNi (some e.panel) pa

/-- R215: whether the engine's own cache serves an access. -/
def State.engOwns (s : State) (e : Eng) (pa : BitVec 52) (write : Bool) : Bool :=
  s.coherentAt pa && e.cache.any fun a => s.ownCopy a pa write

/-- A code word read where its address leads, once the request has come there. -/
def State.readAt (s : State) (e : Eng) (pa : BitVec 52) (dst : FieldId × NiId) : Reply × State :=
  if paPartner pa then
    match s.twinPortOf e.panel with
    | none => ({ status := 3, word := poisonWord }, s)
    | some k =>
      let b := ((s.pnl.panels[e.panel].twin).map Fin.val).getD 0
      let sealed_ := s.pnl.panels[e.panel].sealed_
      if sealed_ && !s.twin.ports[k].secure then ({ status := 1, word := poisonWord }, s)
      else (s.tellTwin k (twinHeader 1 1 0 0 0 (pa.toNat % 2 ^ 51) b 0 e.agent.field.val e.ni.val 0) sealed_ []).outsideReply e.panel dst
  else if paSpace pa = 4 then
    match s.siteVerdict (paField pa) (paNear pa) false with
    | .error st => ({ status := st, word := poisonWord }, if st = 2 then s.unbackedEvent pa e.agent else s)
    | .ok (.regs o) => (s.emit (.cxlRequest (paField pa) .io false o [])).outsideReply e.panel dst
    | .ok (.device o) => (s.emit (.cxlRequest (paField pa) .mem false o [])).outsideReply e.panel dst
    | .ok _ => (s.emit (.siteStream (paField pa) (siteHeader 1 1 0 0 0 (paNear pa) 0 0) [])).outsideReply e.panel dst
  else
    match e.cache, s.coherentPanel pa with
    | some a, some _ => let r := s.cohRead a e.tint pa
      ({ status := 0, word := r.1 }, r.2)
    | _, _ => s.readCode e.agent pa

/-- A code word read at a physical address for an engine: counted, carried there, read, and carried back. -/
def State.readPa (s0 : State) (e : Eng) (pa : BitVec 52) : Reply × State :=
  if s0.engOwns e pa false then s0.readAt e pa (e.agent.field, e.ni)
  else match s0.engDest e pa with
    | none => ({ status := 2, word := poisonWord }, s0.unbackedEvent pa e.agent)
    | some dst =>
      let s := s0.tallied e dst 1
      match s.wayRefused e dst with
      | some st => ({ status := st, word := poisonWord }, s.wayLogged e dst st)
      | none =>
        let r := s.readAt e pa dst
        let st := s.wayBack e dst
        if st = 0 then r else ({ status := st, word := poisonWord }, r.2.wayLogged e dst st)

/-- A code word read where a translation leads. -/
def State.readTarget (s : State) (e : Eng) : Target → Reply × State
  | .refused => ({ status := 1, word := poisonWord }, s)
  | .host addr =>
    match s.hostPath e.panel with
    | none => ({ status := 3, word := poisonWord }, s.hostRefused e.panel)
    | some (p, v) =>
      let dst := (fieldOfPort p, (20 : NiId))
      let s1 := s.tallied e dst 1
      match s1.wayRefused e dst with
      | some st => ({ status := st, word := poisonWord }, s1.wayLogged e dst st)
      | none =>
        let r := (s1.emit (.hostRead p (some v) s.ports[p].nextRead addr 64)).hostReply e.panel
        let st := s1.wayBack e dst
        if st = 0 then r else ({ status := st, word := poisonWord }, r.2.wayLogged e dst st)
  | .pa a => s.readPa e a

/-- R205, R117, R118, R122, R151, R381: an engine's access that is held: its NI has no free tag, the controller or bank cannot
take one of the words yet, or the mirror queue has no room for the copies. -/
def State.engHeld (s : State) (e : Eng) (write : Bool) (pas : List (BitVec 52)) : Bool :=
  (s.freeTag e.agent.field e.ni false).isNone || (write && pas.any fun pa => s.mirrorShort pa pas.length) ||
    pas.any fun pa => !paPartner pa && decide (paSpace pa < 4) && !(e.cache.isSome && s.coherentAt pa) && s.paHeld pa write

/-- The addresses of consecutive code words. -/
def runPas (pa : BitVec 52) (n : Nat) : List (BitVec 52) := (List.range n).map fun i => pa + BitVec.ofNat 52 (64 * i)

/-- Code words written where their address leads, once the request has come there. -/
def State.writeAt (s : State) (e : Eng) (pa : BitVec 52) (ws : List CodeWord) : BitVec 3 × State :=
  match e.cache, s.coherentPanel pa with
  | some a, some _ =>
    (0, ((List.range ws.length).zip ws).foldl (fun t x => t.cohWrite a e.tint (pa + BitVec.ofNat 52 (64 * x.1)) x.2) s)
  | _, _ => s.writeCodes e.agent pa ws

/-- Up to 1,024 code words of one 64 KiB page written at a physical address for an engine: the status of those answered
within the command; none while the request is held. Writes to a site or to the partner leave as a transaction. -/
def State.writePa (s0 : State) (e : Eng) (pa : BitVec 52) (ws : List CodeWord) : Option (BitVec 3 × State) :=
  if paPartner pa ∨ paSpace pa = 4 then
    (s0.inject e.agent.field e.ni e.tint (some e.panel) pa (.write ws) e.owner e.va).map fun r => (0, r.2)
  else if s0.engHeld e true (runPas pa ws.length) then none
  else if (runPas pa ws.length).all fun x => s0.engOwns e x true then some (s0.writeAt e pa ws)
  else match s0.engDest e pa with
    | none => some (s0.writeCodes e.agent pa ws)
    | some dst =>
      let s := s0.tallied e dst ws.length
      match s.wayRefused e dst with
      | some st => some (st, s.wayLogged e dst st)
      | none =>
        let r := s.writeAt e pa ws
        let st := s.wayBack e dst
        some (if st = 0 then r else (st, r.2.wayLogged e dst st))

/-- R424: an event of a class about an access, with the physical address it led to where that lies in the hub. -/
def State.accessEvent (s : State) (cls : BitVec 5) (g : Agent) (t : Option Target) : State :=
  match t with
  | some (.pa pa) => s.wordEvent cls pa g
  | _ => s.logMem { cls := cls, agent := g }

/-- R139, R140: each marked word that leaves to host memory is a consumption of its own. -/
def State.egress (s : State) (g : Agent) (ws : List (Option Target × CodeWord)) : State :=
  (ws.filter (·.2.mark)).foldl (fun t x => t.accessEvent 7 g x.1) s

/-- Code words written where a translation leads. -/
def State.writeTarget (s : State) (e : Eng) (t : Target) (ws : List CodeWord) : Option (BitVec 3 × State) :=
  match t with
  | .refused => some (1, s)
  | .host addr =>
    match s.hostPath e.panel with
    | none => some (3, s.hostRefused e.panel)
    | some (p, v) =>
      let dst := (fieldOfPort p, (20 : NiId))
      let s1 := s.tallied e dst ws.length
      match s1.wayRefused e dst with
      | some st => some (st, s1.wayLogged e dst st)
      | none =>
        let s2 := (((List.range ws.length).zip ws).foldl (fun t x =>
          t.emit (.hostWriteWord p (some v) (addr + BitVec.ofNat 64 (64 * x.1)) x.2)) s1).egress e.agent (ws.map fun w => (none, w))
        let st := s1.wayBack e dst
        some (st, s2.wayLogged e dst st)
  | .pa a => s.writePa e a ws

/-! ## Virtual addresses -/

/-- A translation that failed, and the address it failed at. -/
structure VaFault where
  fault : TransFault
  va : BitVec 55
  access : Access
  deriving DecidableEq, Repr

/-- R168: the first of the addresses that does not translate for an access. -/
def State.checkVas (s : State) (e : Eng) (acc : Access) : List (BitVec 55) → Option VaFault × State
  | [] => (none, s)
  | va :: vas =>
    match s.translate e.agent e.sel e.panel e.tint va acc with
    | (.error f, s1) => (some { fault := f, va := va, access := acc }, s1)
    | (.ok _, s1) => State.checkVas s1 e acc vas

/-- Where an address leads for an engine, when it translates. -/
def State.leadsTo (s : State) (e : Eng) (acc : Access) (va : BitVec 55) : Option Target :=
  match (s.translate e.agent e.sel e.panel e.tint va acc).1 with
  | .ok t => some t
  | .error _ => none

/-- A code word read at a virtual address. -/
def State.readVa (s : State) (e : Eng) (acc : Access) (va : BitVec 55) : Except VaFault Reply × State :=
  match s.translate e.agent e.sel e.panel e.tint va acc with
  | (.error f, s1) => (.error { fault := f, va := va, access := acc }, s1)
  | (.ok t, s1) =>
    let r := s1.readTarget e t
    (.ok r.1, r.2)

/-- R205, R220, R223: addresses that an engine's access must wait for: a coherent line that its cache waits for, or a
request that is held. -/
def State.linesBusy (s : State) (e : Eng) (acc : Access) (vas : List (BitVec 55)) : Bool :=
  vas.any fun va =>
    match (s.translate e.agent e.sel e.panel e.tint va acc).1 with
    | .ok (.pa pa) => s.engHeld e (acc = .write) [pa] || (s.coherentAt pa && e.cache.any fun a => s.mustWait a pa)
    | _ => false

/-- Code words read at consecutive virtual addresses. -/
def State.readRun (s : State) (e : Eng) (acc : Access) (va : BitVec 55) : Nat → Except VaFault (List CodeWord) × State
  | 0 => (.ok [], s)
  | n + 1 =>
    match s.readVa e acc va with
    | (.error f, s1) => (.error f, s1)
    | (.ok r, s1) =>
      match State.readRun s1 e acc (va + 64) n with
      | (.error f, s2) => (.error f, s2)
      | (.ok ws, s2) => (.ok (r.word :: ws), s2)

/-- What a run of writes came to. -/
inductive SendOut where
  | done (status : BitVec 3)
  | held
  | fault (f : VaFault)
  deriving DecidableEq, Repr

/-- Code words written at consecutive virtual addresses, page by page; the first status that is not 0. -/
def State.sendRun (fuel : Nat) (s : State) (e : Eng) (va : BitVec 55) (ws : List CodeWord) : SendOut × State :=
  match fuel, ws with
  | 0, _ => (.done 0, s)
  | _, [] => (.done 0, s)
  | n + 1, ws =>
    let here := 1024 - va.toNat % 65536 / 64
    match s.translate e.agent e.sel e.panel e.tint va .write with
    | (.error f, s1) => (.fault { fault := f, va := va, access := .write }, s1)
    | (.ok t, s1) =>
      match s1.writeTarget { e with va := some va } t (ws.take here) with
      | none => (.held, s1)
      | some (st, s2) =>
        match State.sendRun n s2 e (va + BitVec.ofNat 55 (64 * here)) (ws.drop here) with
        | (.done st2, s3) => (.done (if st = 0 then st2 else st), s3)
        | r => r

/-- The bytes that lie at an address, of the code words from the one that holds it. -/
def bytesAt (va : BitVec 55) (n : Nat) (ws : List CodeWord) : List Byte :=
  ((ws.flatMap fun w => wordBytes w.data).drop (va.toNat % 64)).take n

/-- How many code words `n` bytes from an address touch. -/
def spanWords (va : BitVec 55) (n : Nat) : Nat := if n = 0 then 0 else (va.toNat % 64 + n + 63) / 64

/-- The code word that holds an address. -/
def wordVa (va : BitVec 55) : BitVec 55 := va &&& ~~~63#55

/-- Addresses put into rising order, each once. -/
def insertVa (v : BitVec 55) : List (BitVec 55) → List (BitVec 55)
  | [] => [v]
  | x :: xs => if v.toNat < x.toNat then v :: x :: xs else if v = x then x :: xs else x :: insertVa v xs

def sortVas (vs : List (BitVec 55)) : List (BitVec 55) := vs.foldr insertVa []

/-- The first marked word of a run read from an address. -/
def markedVa (va : BitVec 55) (ws : List CodeWord) : BitVec 55 :=
  wordVa va + BitVec.ofNat 55 (64 * (ws.findIdx (·.mark)))

/-- The code words that `n` bytes from an address touch. -/
def coverVas (va : BitVec 55) (n : Nat) : List (BitVec 55) :=
  (List.range (spanWords va n)).map fun i => wordVa va + BitVec.ofNat 55 (64 * i)

end Sys2Proof.Machine
end

