-- ==== Sys2Proof/Machine/Arrays.lean ====
section
/-!
DEFINITION. What every engine of an array shares: invocations, the step watchdog, fault records, halts, failed attempts
and translation stalls (R48, R58, R63, R87 to R93, R97, R102, R178, R209).
-/

namespace Sys2Proof.Machine

/-! ## Invocations -/

def State.queue (s : State) (q : QRef) : QueueState := s.ports[q.port].vfs[q.vf].queues[q.q]
def State.taken (s : State) (q : QRef) : Option Taken := (s.queue q).taken
def State.modTaken (s : State) (q : QRef) (f : Taken → Taken) : State :=
  s.modQueue q.port q.vf q.q fun x => { x with taken := x.taken.map f }
def State.qPanel (s : State) (q : QRef) : Option PanelId := s.ports[q.port].vfs[q.vf].bound

/-- The physical arrays of an invocation. -/
def State.invArrays (s : State) (q : QRef) : List ArrayId :=
  match s.qPanel q, s.taken q with
  | some p, some t => t.arrays.filterMap fun n => s.arrayOf p n.val
  | _, _ => []

def State.tintOf (s : State) (a : ArrayId) : TintId :=
  ((s.arrays[a].seq.inv.bind s.taken).map (·.tint)).getD 0

/-- Sequencer states, SEQ_STATUS.STATE of R101. -/
abbrev seqIdle : BitVec 4 := 0
abbrev seqWaiting : BitVec 4 := 1
abbrev seqRunning : BitVec 4 := 2
abbrev seqCommitting : BitVec 4 := 3
abbrev seqRerun : BitVec 4 := 4
abbrev seqDebug : BitVec 4 := 5
abbrev seqFaulted : BitVec 4 := 6
abbrev seqHalted : BitVec 4 := 7

/-! ## The four engines of an array -/

/-- R424: the array as an agent: INIT_KIND 0 for the array, 1 a vector core, 2 the mover. -/
def State.arrayAgent (s : State) (a : ArrayId) (kind : BitVec 4) : Agent :=
  { kind := kind, id := BitVec.ofNat 16 a.val, panel := s.arrays[a].panel, field := fieldOfArray a }

def State.arrayEng (s : State) (a : ArrayId) (p : PanelId) (kind : BitVec 4) (cache : Option AgentId) : Eng :=
  { agent := s.arrayAgent a kind, sel := .array a, panel := p, tint := s.tintOf a, ni := niOfArray a, cache := cache,
    owner := .arrayStep a s.arrays[a].seq.stepOpen .other }

def State.cubeEng (s : State) (a : ArrayId) (p : PanelId) : Eng := s.arrayEng a p 0 none
def State.moverEng (s : State) (a : ArrayId) (p : PanelId) : Eng := s.arrayEng a p 2 none
/-- R215: the vector memory port goes through the field cache, the sequencer through the array control cache. -/
def State.vectorEng (s : State) (a : ArrayId) (p : PanelId) : Eng :=
  s.arrayEng a p 1 (some (asFin 96 (40 + a.val / 5)))
def State.seqEng (s : State) (a : ArrayId) (p : PanelId) : Eng := s.arrayEng a p 0 (some (asFin 96 a.val))

/-! ## The step watchdog, R87 -/

/-- R88: a liveness report leaves the sequencer. -/
def SeqState.report (x : SeqState) (now : Nat) : SeqState := { x with lastReport := now }

def State.wdLoad (s : State) (a : ArrayId) : State :=
  s.modSeq a fun x => { x with wdRunning := true, wdRemain := 937500, wdSince := s.sclk, lastReport := s.sclk }

/-- What is left of the watchdog. -/
def SeqState.wdLeft (x : SeqState) (now : Nat) : Nat :=
  if x.wdRunning then x.wdRemain - (now - x.wdSince) else x.wdRemain

def State.wdStop (s : State) (a : ArrayId) : State :=
  s.modSeq a fun x => { x with wdRemain := x.wdLeft s.sclk, wdRunning := false }

def State.wdResume (s : State) (a : ArrayId) : State :=
  s.modSeq a fun x => { x with wdSince := s.sclk, wdRunning := true }

/-- R87: a progress event reloads a running watchdog. -/
def State.progress (s : State) (a : ArrayId) : State := if s.arrays[a].seq.wdRunning then s.wdLoad a else s

/-- Whether an engine of the array is stalled on a translation fault. -/
def ArrayState.anyStall (x : ArrayState) : Bool :=
  x.seq.stalled || x.cube.ops.any (·.stalled) || x.vec.ctxs.any (·.stalled) || x.moves.any (·.stalled)

/-! ## Fault records, R63, R101, R360 -/

def FaultRec.add (r : FaultRec) (source : BitVec 3) (code : Byte) (info : BitVec 16) : FaultRec :=
  if r.valid then { r with overflow := true }
  else { valid := true, overflow := r.overflow, source := source, code := code, info := info }

/-- SEQ_FAULT takes a fault: SOURCE 0 sequencer, 1 cube array, 2 vector core, 3 mover. -/
def State.seqFault (s : State) (a : ArrayId) (source : BitVec 3) (code : Byte) (info : BitVec 16) : State :=
  s.modSeq a fun x => { x with fault := x.fault.add source code info }

/-- ARR_FAULT takes a fault. -/
def State.arrFault (s : State) (a : ArrayId) (code : Byte) (info : BitVec 16) : State :=
  s.modCube a fun x => { x with fault := x.fault.add 0 code info }

/-- The fault log's SOURCE for SEQ_FAULT's. -/
def logSource (source : BitVec 3) : BitVec 5 :=
  if source = 0 then 3 else if source = 1 then 0 else if source = 2 then 1 else 2

/-- R66: the physical core behind a logical core of an array: the active ones in ascending order. -/
def VecState.physCore (v : VecState) (logical : Nat) : Nat := ((onBits v.active)[logical]?).getD 16

/-- R365: an element of KIND 1, or of KIND 2 with the physical core that INFO names, or whose logical number it
holds. -/
def State.arrayElement (s : State) (a : ArrayId) (source : BitVec 3) (code : Byte) (info : BitVec 16) : Word :=
  if source = 2 then
    BitVec.ofNat 32 (a.val * 256 +
      (if code = 0x24 then info.toNat else s.arrays[a].vec.physCore (info.toNat / 16 % 16)))
  else BitVec.ofNat 32 a.val

/-- R360: a fault of an array's engine in the fault log. -/
def State.logArray (s : State) (a : ArrayId) (cls : BitVec 3) (source : BitVec 3) (code : Byte) (info : BitVec 16)
    (patch : Word := 0xFFFFFFFF) : State :=
  s.logFault { cls := cls, source := logSource source, code := code, panel := panelByte s.arrays[a].panel,
               element := s.arrayElement a source code info, info := info.setWidth 32, patch := patch }

/-! ## Halts, R48, R93, R178 -/

/-- R178: the stalls of a halted array are cancelled; its records that are held, or on their way, are discarded. One that a full
ring held was counted then, and stays counted. -/
def State.cancelStalls (s : State) (a : ArrayId) : State :=
  match s.arrays[a].panel with
  | none => s
  | some p =>
    let mine := fun (i : FaultInfo) => decide (i.key.engine.toNat < 4 ∧ i.key.phys = BitVec.ofNat 6 a.val)
    s.modPanel p fun x => { x with ring := { x.ring with
      stalled := x.ring.stalled.filter fun t => !mine t.info
      heldRecords := x.ring.heldRecords.filter fun i => !mine i
      arrivals := x.ring.arrivals.filter fun i => !mine i } }

/-- DEST of a cube instruction (R50). -/
def CubeOp.dest (o : CubeOp) : Bool := bit o.word 9

/-- The instruction that an accumulator slot belongs to goes to memory. -/
def CubeState.toMemory (x : CubeState) (t : AccSlot) : Bool :=
  (x.ops.find? fun o => o.serial = t.serial).any fun o => !o.dest

/-- R48: what a halt leaves of the cube grid. Drains queued for DEST = 0 stay, with the instructions they belong to. -/
def CubeState.halt (x : CubeState) (mark : Bool) : CubeState :=
  let keep := x.drainQ.filter fun i => x.toMemory x.acc[i]
  let live := keep.map fun i => x.acc[i].serial
  { x with
    halted := x.halted || mark
    haltReq := none
    drainQ := keep
    acc := Vector.ofFn fun i => if i ∈ keep then x.acc[i] else {}
    merge := x.merge.filter fun m => m.serial ∈ live
    ops := (x.ops.filter fun o => o.serial ∈ live).map fun o => { o with passes := o.started, stalled := false, cut := true }
    exch := Vector.replicate 4 {}
    stat := x.stat.map fun t => if t.phase = .filling then {} else t }

/-- The state a halt leaves the sequencer in. -/
def haltState : HaltKind → BitVec 4
  | .debug => seqDebug
  | .other => seqHalted
  | .rerun => seqRerun
  | .rerunDebug => seqDebug
  | .fault => seqFaulted

/-- R89, R102: whether a halt leaves a debug halt in the place of a re-run that was due: that attempt is counted. -/
def HaltKind.counts (k : HaltKind) (x : SeqState) : Bool := k = .rerunDebug || (k = .debug && x.state = seqRerun)

/-- R48, R93: a halt takes effect. HALTED (R62) is set by the halt requests that R48 and R93 name, and not by the stop for a
re-run or after a fault: the manual does not say which set it (DESIGN CHOICE, assumption log 80). -/
def State.haltEffect (s : State) (a : ArrayId) (k : HaltKind) : State :=
  (((s.cancelStalls a).wdStop a).modCube a fun x => x.halt (k = .debug || k = .rerunDebug || k = .other)).modArray a fun x =>
    { x with
      vec := { x.vec with ctxs := [], launches := [] }
      moves := []
      seq := { x.seq with
        state := haltState k, pc := if x.seq.ir.isSome then x.seq.pc - 16 else x.seq.pc, ir := none, stalled := false, commitSignals := [], singleStep := false,
        attempt := if k.counts x.seq then x.seq.attempt + 1 else x.seq.attempt
        wdRemain := if k.counts x.seq then 937500 else x.seq.wdRemain
        stepOpen := x.seq.stepOpen && (k = .debug || k = .rerun || k = .rerunDebug) } }

def haltRank : HaltKind → Nat
  | .debug => 0
  | .rerun => 1
  | .rerunDebug => 2
  | .fault => 3
  | .other => 4

/-- Two requests that wait for one boundary: both a debug halt and the end of an attempt take effect there; otherwise
the one that ends more. -/
def HaltKind.with (k k2 : HaltKind) : HaltKind :=
  if (k = .debug ∧ k2 = .rerun) ∨ (k = .rerun ∧ k2 = .debug) then .rerunDebug
  else if haltRank k2 < haltRank k then k else k2

/-- R48: a halt request waits for the end of a pass, and takes effect at once where none is in progress. -/
def State.haltArray (s : State) (a : ArrayId) (k : HaltKind) : State :=
  let x := s.arrays[a].cube
  if x.acc.any fun t => t.phase = .running then
    s.modCube a fun y => { y with haltReq :=
      match y.haltReq with
      | some k2 => some (k.with k2)
      | none => some k }
  else s.haltEffect a k

/-- R58: a hardware fault stops the array at once: the tile in progress is given up. -/
def State.stopAt (s : State) (a : ArrayId) (k : HaltKind) : State :=
  (s.modCube a fun x => { x with acc := x.acc.map fun t => if t.phase = .running then {} else t }).haltEffect a k

/-! ## The end of an invocation, R97 -/

/-- The first array to end an invocation fixes its status; every other array of it is halted. -/
def State.endInv (s : State) (q : QRef) (status : Byte) (code : Byte) (a : Option ArrayId) : State :=
  match s.taken q with
  | none => s
  | some t =>
    if t.status.isSome then s else
    let s1 := s.modTaken q fun t => { t with
      status := some status, faultCode := code, phase := .ending,
      faultArray := match a with | some a => s.arrays[a].logical | none => 0 }
    (s.invArrays q).foldl (fun x b => if some b = a then x else
      (if x.arrays[b].seq.state = seqIdle then x else x.haltArray b .other)) s1

/-- The invocation of an array ends with a status. -/
def State.endInvOf (s : State) (a : ArrayId) (status : Byte) (code : Byte) : State :=
  match s.arrays[a].seq.inv with
  | some q => s.endInv q status code (some a)
  | none => s

/-- R90: the status that a fault without a re-run ends the invocation with. -/
def faultStatus (code : Byte) : Byte := if code = 0x17 ∨ code = 0x22 ∨ code = 0x31 then 2 else 1

/-- R90: a fault ends the step without its signals; SOURCE as in SEQ_FAULT. -/
def State.endStep (s : State) (a : ArrayId) (source : BitVec 3) (code : Byte) (info : BitVec 16) (status : Byte) : State :=
  let s1 := (s.seqFault a source code info).logArray a 0 source code info
  let s2 := if source = 1 then s1.arrFault a code info else s1
  (s2.haltArray a .fault).endInvOf a status code

/-- R139: a control consumption ends the step with fault 0x17, 0x22 or 0x31. -/
def State.consumed (s : State) (a : ArrayId) (kind : BitVec 4) (source : BitVec 3) (code : Byte) (info : BitVec 16)
    (t : Option Target := none) : State :=
  (s.accessEvent 6 (s.arrayAgent a kind) t).endStep a source code info 2

/-- R89, R92: an attempt of the step ends: it is re-run, unless it was the third or may not be repeated. -/
def State.attemptEnds (s : State) (a : ArrayId) (source : BitVec 3) (code : Byte) (info : BitVec 16) : State :=
  let x := s.arrays[a].seq
  let s1 := s.seqFault a source code info
  if x.atomic && x.atomicIssued then
    (((s1.logArray a 0 source code info).haltArray a .fault).endInvOf a 4 code)
  else if x.attempt = 3 then ((s1.logArray a 0 source code info).haltArray a .fault).endInvOf a 3 code
  else (s1.logArray a 1 source code info).haltArray a .rerun

/-- R209: a write, atomic or signal of an array that completed with a status. `open_` tells whether a step was open. -/
def State.writeDone (s : State) (a : ArrayId) (open_ : Bool) (status : BitVec 3) : State :=
  if status = 0 then s
  else if open_ then s.attemptEnds a 0 0x16 (BitVec.ofNat 16 (2 ^ 15 + status.toNat * 2 ^ 12))
  else (s.haltArray a .fault).endInvOf a 3 0

/-! ## Translation stalls, R169, R172 -/

/-- An engine of an array stalls on a translation fault; the watchdog stops. -/
def State.stall (s : State) (a : ArrayId) (p : PanelId) (key : EngineKey) (f : VaFault) (midtile : Bool) : State :=
  (s.arrive p (s.faultInfo key f.fault f.access f.va s.arrays[a].seq.stepId midtile true)).wdStop a

/-- R139: a marked page table entry is a control consumption, logged where the walk met it; nothing more is due. -/
def VaFault.poisoned (f : VaFault) : Bool := f.fault.type = 5

/-! ## Poison commits, R140 -/

/-- Marked words that a drain or a vector store commits are counted for the invocation. -/
def State.countCommits (s : State) (a : ArrayId) (n : Nat) : State :=
  match s.arrays[a].seq.inv with
  | some q => s.modTaken q fun t => { t with poisonCommits := satAdd t.poisonCommits n }
  | none => s

end Sys2Proof.Machine
end

