-- ==== Sys2Proof/Machine/Patch.lean ====
section
/-!
DEFINITION. Patch records, the choice of a wear spare, and the retirement and patching of arrays (R16 to R19, R88, R89,
R365 to R368).
-/

namespace Sys2Proof.Machine

/-! ## Patch records, R365, R366 -/

/-- A record made: it is in the working copy at once, and in the store by PATCH_STORE_WRITE. -/
def State.addPatch (s : State) (kind : BitVec 4) (code : Byte) (failed spare : Word) : State :=
  s.modRas fun r => { r with patches := r.patches ++
    [{ kind := kind, code := code, boot := r.patchBoot, failed := failed, spare := spare, stored := false }] }

/-- The index of the record that comes next, as a fault log entry names it. -/
def State.nextPatch (s : State) : Word := BitVec.ofNat 32 s.ras.patches.length

abbrev noSpare : Word := 0xFFFFFFFF

/-! ## Wear spares, R16 to R19 -/

/-- R16: how far a wear spare stands in the order of choice for a failed array: own field, own column, other column. -/
def spareRank (failed spare : ArrayId) : Nat :=
  let f := fieldOfArray failed
  let g := fieldOfArray spare
  if f = g then 0 else if f.val / 4 = g.val / 4 then 100 + distance f g else 200 + distance f g

/-- R16: the first wear spare in the order; equal ranks go to the lowest number. -/
def bestSpare (failed : ArrayId) : List ArrayId → Option ArrayId
  | [] => none
  | a :: r =>
    match bestSpare failed r with
    | none => some a
    | some b => if spareRank failed b < spareRank failed a then some b else some a

def State.wearSpares (s : State) : List ArrayId := (allFin 40).filter fun a => s.arrays[a].st = 1
/-- R16: the wear spare that an array's failure brings in. One in a field that the base image left out stays a wear spare and
may be chosen: the manual does not say (DESIGN CHOICE, assumption log 78). -/
def State.chooseSpare (s : State) (failed : ArrayId) : Option ArrayId := bestSpare failed s.wearSpares

/-- R19: the guaranteed number of arrays of a grade. -/
def guaranteed (grade : BitVec 2) : Nat := if grade = 0 then 36 else if grade = 1 then 30 else 24

/-- R19: arrays in service together with those held out of service by the image. -/
def State.working (s : State) : Nat := (allFin 40).countP fun a => s.arrays[a].st = 0 || s.arrays[a].st = 4

def State.checkGrade (s : State) : State :=
  s.modRas fun r => { r with belowGrade := r.belowGrade || decide (s.working < guaranteed s.fuse.grade) }

/-! ## Replacing an array, R61, R367, R368 -/

/-- R61, R367 act 3: what the spare takes over. The cube grid starts empty but for the tile descriptor table. -/
def ArrayState.takeOver (spare failed : ArrayState) : ArrayState :=
  { spare with
    st := 0
    panel := failed.panel
    logical := failed.logical
    mode := failed.mode
    patched := true
    cube := { descs := failed.cube.descs }
    seq := { failed.seq with
      ir := none, loops := failed.seq.savedLoops, wdRunning := false, stalled := false, fault := {}
      singleStep := false, commitSignals := [] }
    vec := { spare.vec with codeStore := failed.vec.codeStore, ctxs := [], launches := [], localStore := [] }
    moves := [] }

/-- An array that has been retired (R21, R60). -/
def ArrayState.retired (x : ArrayState) : ArrayState :=
  { x with st := 3, panel := none, logical := 0x3F, cube := {}, seq := {},
           vec := { active := x.vec.active, spare := x.vec.spare }, moves := [] }

/-- R367 act 5: the spare's deduplication table starts as a copy of the failed array's. -/
def copyDedup (f : ArrayId) (t : ArrayId) (d : List DedupEntry) : List DedupEntry :=
  d ++ (d.filter fun e => e.field = fieldOfArray f ∧ e.ni = niOfArray f).map fun e =>
    { e with field := fieldOfArray t, ni := niOfArray t }

/-- A wear spare brought into service behind its own NI, with nothing of a panel. -/
def State.enlist (s : State) (b : ArrayId) : State :=
  (s.modArray b fun x => { x with st := 0, patched := true }).setSink (fieldOfArray b) (niOfArray b) false

/-- R323: whether a panel is in dust sheet. -/
def State.inDust (s : State) (p : PanelId) : Bool := s.pnl.panels[p].state = 5

/-- R89, R92: whether a step that is in progress on a failed array may be re-run; the status otherwise. -/
def SeqState.rerunStatus (x : SeqState) : Option Byte :=
  if x.atomic && x.atomicIssued then some 4 else if x.attempt = 3 then some 3 else none

/-- R97: the invocation of an array that leaves service remembers it, for its writes still in flight. -/
def State.leaveInv (s : State) (a : ArrayId) : State :=
  match s.arrays[a].seq.inv with
  | some q => s.modTaken q fun t => { t with former := t.former ++ [a] }
  | none => s

/-- R367: a panel's array is replaced by spare `b`: the state carried over, the NIs switched, signals forwarded. -/
def State.replaceArray (s : State) (a b : ArrayId) (p : PanelId) (silent : Bool) : State :=
  let old := s.arrays[a]
  let s1 := ((s.leaveInv a).modArray b fun x => x.takeOver old).setSink (fieldOfArray b) (niOfArray b) false
  let s2 := s1.modArray a ArrayState.retired
  let s3 := s2.modPanel p fun x => { x with arrays := x.arrays.set old.logical.toNat (some b) }
  s3.modNet fun n => { n with
    forwards := n.forwards ++ [{ failed := a, spare := b, silent := silent }]
    dedup := copyDedup a b n.dedup }

/-- R368: a panel's logical array is left with no physical array behind it. -/
def State.loseArray (s : State) (a : ArrayId) (p : PanelId) : State :=
  let old := s.arrays[a]
  ((s.leaveInv a).modPanel p fun x => { x with
    arrays := x.arrays.set old.logical.toNat none
    lost := x.lost ||| (1 <<< old.logical.toNat) }).modArray a ArrayState.retired

/-- R89: the sequencer of a patched array continues: an open step awaits its re-run, unless R89 or R92 forbids it or the
panel is in dust sheet; a wait list goes on. -/
def State.continueOn (s : State) (b : ArrayId) (p : PanelId) (code : Byte) : State :=
  let x := s.arrays[b].seq
  if x.inv.isNone then s.modSeq b fun y => { y with state := seqIdle }
  else if s.inDust p then s.modSeq b fun y => { y with state := seqHalted, stepOpen := false }
  else if x.state = seqHalted ∨ x.state = seqFaulted ∨ x.state = seqWaiting ∨ x.state = seqDebug then s
  else if x.stepOpen then
    match x.rerunStatus with
    | none => s.modSeq b fun y => { y with state := seqRerun }
    | some st => (s.modSeq b fun y => { y with state := seqFaulted, stepOpen := false }).endInvOf b st code
  else s

/-- R16, R17, R89, R367, R368: an array is retired for a hardware fault, and a wear spare patched in where one remains.
`source`, `code` and `info` are SEQ_FAULT's. -/
def State.retireArray (s : State) (a : ArrayId) (source : BitVec 3) (code : Byte) (info : BitVec 16) : State :=
  if s.arrays[a].st ≠ 0 then s.logArray a 0 source code info
  else
    let s0 := s.stopAt a .fault
    let s1 := s0.modSeq a fun y => { y with state := s.arrays[a].seq.state, stepOpen := s.arrays[a].seq.stepOpen }
    let f := fieldOfArray a
    let el := BitVec.ofNat 32 a.val
    match s.chooseSpare a, s.arrays[a].panel with
    | some b, none =>
      let s2 := ((s1.logArray a 2 source code info s1.nextPatch).addPatch 1 code el (BitVec.ofNat 32 b.val)).enlist b
      ((s2.modArray a ArrayState.retired).setSink f (niOfArray a) true).checkGrade
    | some b, some p =>
      let s2 := (s1.logArray a 2 source code info s1.nextPatch).addPatch 1 code el (BitVec.ofNat 32 b.val)
      ((s2.replaceArray a b p (code = 0x19)).checkGrade).continueOn b p code
    | none, none =>
      let s2 := (s1.logArray a 4 source code info s1.nextPatch).addPatch 1 code el noSpare
      ((s2.modArray a ArrayState.retired).setSink f (niOfArray a) true).checkGrade
    | none, some p =>
      let s2 := ((s1.logArray a 4 source code info s1.nextPatch).addPatch 1 code el noSpare).endInvOf a 8 code
      ((s2.loseArray a p).setSink f (niOfArray a) true).checkGrade

/-- R88: a silent array's state could not be carried over: the invocation ends without a re-run. -/
def State.carryLost (s : State) (a : ArrayId) : State :=
  match s.net.forwards.find? fun f => f.failed = a ∧ f.silent with
  | none => s
  | some f =>
    let b := f.spare
    let s1 := s.modSeq b fun y => { y with
      state := if y.inv.isSome then seqFaulted else seqIdle, stepOpen := false, sems := Vector.replicate 64 0 }
    (s1.modVec b fun v => { v with codeStore := [] }).endInvOf b 3 0x19

/-- R89: a vector core's hardware fault 0x24: the spare core serves it while it is unused, and the step is re-run on the
same array; otherwise the array is retired. -/
def State.retireCore (s : State) (a : ArrayId) (core : Fin 17) : State :=
  let x := s.arrays[a]
  let info := BitVec.ofNat 16 core.val
  if x.st ≠ 0 then s.logArray a 0 2 0x24 info
  else if x.vec.spare ≠ 0x1F then
    let s0 := s.logArray a 2 2 0x24 info s.nextPatch
    let s1 := (s0.seqFault a 2 0x24 info).addPatch 2 0x24 (BitVec.ofNat 32 (a.val * 256 + core.val))
      (BitVec.ofNat 32 (a.val * 256 + x.vec.spare.toNat))
    let s2 := s1.modArray a fun y => { y with
      corePatched := true
      vec := { y.vec with active := setBit (setBit y.vec.active core.val false) y.vec.spare.toNat true, spare := 0x1F } }
    if x.seq.inv.isNone || !x.seq.stepOpen then s2
    else match x.seq.rerunStatus with
      | none => s2.stopAt a .rerun
      | some st => (s2.stopAt a .fault).endInvOf a st 0x24
  else (s.seqFault a 2 0x24 info).retireArray a 2 0x24 info

end Sys2Proof.Machine
end

