-- ==== Sys2Proof/Machine/Grid.lean ====
section
/-!
DEFINITION. The cube grid: fields and checks of cube instructions, footprints, operand reads, the arithmetic of a pass,
and the words of a drain (R25 to R57, R167, R168, R423).
-/

namespace Sys2Proof.Machine

/-! ## Fields of a cube instruction, R50, and of a tile descriptor, R51 -/

/-- `len` bits of word `k` of an instruction, from bit `lo`. -/
def insField {n : Nat} (w : BitVec n) (k lo len : Nat) : Nat := fld (wordOf w k).toNat lo len

abbrev opFold : Nat := 0x20
abbrev opStream : Nat := 0x21
abbrev opSload : Nat := 0x22

def descBase (d : BitVec 256) : BitVec 55 := BitVec.ofNat 55 (fld d.toNat 0 55)
def descStride (d : BitVec 256) : Nat := insField d 2 0 32
def descScale (d : BitVec 256) : BitVec 55 := BitVec.ofNat 55 (fld d.toNat 96 55)
def descScaleStride (d : BitVec 256) : Nat := insField d 5 0 32
def descLayout (d : BitVec 256) : Nat := insField d 6 0 1

/-- The numbers of a cube instruction: rows and columns of C, K, and the three formats. -/
structure Shape where
  m : Nat
  n : Nat
  k : Nat
  afmt : Nat
  bfmt : Nat
  ofmt : Nat
  deriving DecidableEq, Repr

def foldShape (w : BitVec 128) : Shape :=
  { m := insField w 1 0 12 + 1, n := insField w 1 12 12 + 1, k := insField w 2 0 13 + 1,
    afmt := insField w 0 22 4, bfmt := insField w 0 18 4, ofmt := insField w 0 14 4 }

def slotOf (w : BitVec 128) : Fin 2 := asFin 2 (insField w 0 21 1)

/-- The numbers of a CSTREAM, by its slot. An empty slot shows format 0, as at reset: the manual names no load for it (DESIGN
CHOICE, assumption log 81). -/
def streamShape (w : BitVec 128) (t : StatSlot) : Shape :=
  { m := insField w 1 0 32 + 1, n := t.n, k := t.k, afmt := insField w 0 22 4, bfmt := t.fmt.toNat,
    ofmt := insField w 0 14 4 }

def sloadShape (w : BitVec 128) : Shape :=
  { m := 0, n := insField w 1 11 7 + 1, k := insField w 1 0 11 + 1, afmt := 0, bfmt := insField w 0 22 4, ofmt := 0 }

def CubeState.shape (x : CubeState) (w : BitVec 128) : Shape :=
  if insField w 0 26 6 = opFold then foldShape w
  else if insField w 0 26 6 = opStream then streamShape w x.stat[slotOf w] else sloadShape w

/-- K per step, R26. -/
def Shape.step (h : Shape) : Nat := ((rateClass h.bfmt).map RateClass.perStep).getD 1

def ceilDiv (a b : Nat) : Nat := (a + b - 1) / b

/-- Tiles of 96 rows or columns. -/
def tiles96 (n : Nat) : Nat := ceilDiv n 96

/-! ## Instruction faults, R27, R29, R38, R41, R44, R46, R50, R52, R423 -/

/-- The lowest set bit of a field, as the place of a reserved bit that breaks R50. -/
def lowReserved (w : BitVec 128) (k lo len : Nat) : Option (Nat × Nat) :=
  ((List.range len).find? fun i => bit (wordOf w k) (lo + i)).map fun i => (k, lo + i)

def badIf (b : Bool) (k lo : Nat) : Option (Nat × Nat) := if b then some (k, lo) else none

def reservedFmt (c : Nat) : Bool := 14 ≤ c

/-- INFO of fault 0x03 for the first place found. -/
def firstBad (l : List (Option (Nat × Nat))) : Option (BitVec 16) :=
  (l.findSome? id).map fun x => BitVec.ofNat 16 (x.1 * 2 ^ 12 + x.2)

/-- R50, R423: places that break a CFOLD, in word and bit order. -/
def foldBad (w : BitVec 128) (h : Shape) : Option (BitVec 16) :=
  firstBad [lowReserved w 0 0 9, badIf (insField w 0 10 2 = 3) 0 10, badIf (reservedFmt h.ofmt) 0 14,
    badIf (reservedFmt h.bfmt) 0 18, badIf (reservedFmt h.afmt) 0 22, lowReserved w 1 24 8,
    badIf ((isMx h.afmt || isMx h.bfmt) && h.k % 32 ≠ 0) 2 0, lowReserved w 2 31 1, lowReserved w 3 6 26]

def streamBad (w : BitVec 128) (h : Shape) (known : Bool) : Option (BitVec 16) :=
  firstBad [lowReserved w 0 0 9, badIf (insField w 0 10 2 = 3) 0 10, badIf (reservedFmt h.ofmt) 0 14,
    lowReserved w 0 18 3, badIf (reservedFmt h.afmt || (known && isMx h.afmt && h.k % 32 ≠ 0)) 0 22,
    lowReserved w 2 0 13, lowReserved w 2 19 6, lowReserved w 2 31 1, lowReserved w 3 6 26]

/-- R44: the largest K of a stationary load. -/
def sloadLimit (c : Nat) : Nat :=
  match rateClass c with
  | some .int4 | some .float4 => 2048
  | some .int8 | some .float8 => 1024
  | some .float16 => 512
  | none => 0

def sloadBad (w : BitVec 128) (h : Shape) : Option (BitVec 16) :=
  firstBad [lowReserved w 0 0 21, badIf (reservedFmt h.bfmt || (rateClass h.bfmt).isNone) 0 22,
    badIf (sloadLimit h.bfmt < h.k || (isMx h.bfmt && h.k % 32 ≠ 0)) 1 0, badIf (96 < h.n) 1 11, lowReserved w 1 24 8,
    lowReserved w 2 0 32, lowReserved w 3 0 32]

/-- R27: an output format for a rate class. -/
def outputFits (c : RateClass) (o : Nat) : Bool := if c.isInt then o = 0xD else (outFmt o).isSome

/-- R27: whether a format pair and output format are permitted; a CSTREAM's pair is judged by R46. -/
def pairBad (a b o : Nat) (pair : Bool) : Bool :=
  match rateClass a with
  | none => true
  | some c => (pair && rateClass b ≠ some c) || !outputFits c o

def fmtInfo (h : Shape) : BitVec 16 := BitVec.ofNat 16 (h.afmt * 256 + h.bfmt * 16 + h.ofmt)

/-- R52: whether a descriptor fits an A or B operand. -/
def operandBad (d : BitVec 256) (fmt k : Nat) : Bool :=
  (descBase d).toNat % 16 ≠ 0 || descStride d % 16 ≠ 0 ||
    (descLayout d = 1 && (fmtBits fmt ≠ 8 && fmtBits fmt ≠ 16)) || (isMx fmt && descScaleStride d < k / 32)

/-- R41, R52: whether a descriptor fits C (64) or a C source (16). -/
def resultBad (d : BitVec 256) (align : Nat) : Bool :=
  (descBase d).toNat % align ≠ 0 || descStride d % align ≠ 0 || descLayout d = 1

/-- INFO of fault 0x04: the first descriptor that breaks its rule. -/
def firstDesc (l : List (Bool × Nat)) : Option (BitVec 16) := (l.find? (·.1)).map fun x => BitVec.ofNat 16 x.2

def cInit (w : BitVec 128) : Nat := insField w 0 10 2
def destBit (w : BitVec 128) : Bool := insField w 0 9 1 = 1

/-- Numbers of the descriptors named, and the descriptors themselves. -/
def adescNo (w : BitVec 128) : Fin 64 := asFin 64 (insField w 2 13 6)
def bdescNo (w : BitVec 128) : Fin 64 :=
  asFin 64 (if insField w 0 26 6 = opSload then insField w 1 18 6 else insField w 2 19 6)
def cdescNo (w : BitVec 128) : Fin 64 := asFin 64 (insField w 2 25 6)
def sdescNo (w : BitVec 128) : Fin 64 := asFin 64 (insField w 3 0 6)

/-- The faults 0x01 to 0x05 of an instruction: code and INFO; none where it may run. An instruction with a reserved format code
gets 0x03 and is not held to the pairs of R27 besides: the manual gives no order between the two (DESIGN CHOICE, assumption
log 79). -/
def CubeState.reject (x : CubeState) (mode : Bool) (w : BitVec 128) : Option (Byte × BitVec 16) :=
  let op := insField w 0 26 6
  let h := x.shape w
  let a := x.descs[adescNo w]
  let b := x.descs[bdescNo w]
  let tail := fun (l : List (Bool × Nat)) => (firstDesc (l ++
    [(cInit w ≠ 0 && resultBad x.descs[sdescNo w] 16, (sdescNo w).val),
     (!destBit w && resultBad x.descs[cdescNo w] 64, (cdescNo w).val)])).map fun i => ((4 : Byte), i)
  if op = opFold then
    if mode then some (1, BitVec.ofNat 16 op) else
    let resv := reservedFmt h.afmt || reservedFmt h.bfmt || reservedFmt h.ofmt
    if !resv && pairBad h.afmt h.bfmt h.ofmt true then some (2, fmtInfo h) else
    match foldBad w h with
    | some i => some (3, i)
    | none => tail [(operandBad a h.afmt h.k, (adescNo w).val), (operandBad b h.bfmt h.k, (bdescNo w).val)]
  else if !mode then some (1, BitVec.ofNat 16 op)
  else if op = opStream then
    let t := x.stat[slotOf w]
    let known := t.phase ≠ .empty
    let resv := reservedFmt h.afmt || reservedFmt h.ofmt
    if !resv && pairBad h.afmt h.bfmt h.ofmt false then some (2, fmtInfo h) else
    match streamBad w h known with
    | some i => some (3, i)
    | none =>
      match tail [(operandBad a h.afmt h.k, (adescNo w).val)] with
      | some f => some f
      | none => if !known || rateClass h.afmt ≠ rateClass h.bfmt then some (5, BitVec.ofNat 16 (slotOf w).val) else none
  else
    match sloadBad w h with
    | some i => some (3, i)
    | none => (firstDesc [(operandBad b h.bfmt h.k, (bdescNo w).val)]).map fun i => (4, i)

/-! ## Footprints, R167 -/

/-- A part of a footprint: how it is accessed, and its code words in ascending order. -/
structure Part where
  access : Access
  vas : List (BitVec 55)
  deriving DecidableEq, Repr

/-- The code words that the parts read. -/
def readVas (l : List Part) : List (BitVec 55) := l.flatMap fun q => if q.access = .read then q.vas else []

def rowVa (base : BitVec 55) (stride row off : Nat) : BitVec 55 := base + BitVec.ofNat 55 (row * stride + off)

/-- Rows `r0` up to `r0 + rows` of `bytes` bytes each, from byte `off`. -/
def rowsPart (acc : Access) (base : BitVec 55) (stride r0 rows off bytes : Nat) : Part :=
  { access := acc, vas := sortVas ((List.range rows).flatMap fun i => coverVas (rowVa base stride (r0 + i) off) bytes) }

def packBytes (n bits : Nat) : Nat := (n * bits + 7) / 8

/-- Elements of rows `r0` on of an operand with K elements a row, in either layout. -/
def operandPart (d : BitVec 256) (fmt r0 rows k : Nat) : Part :=
  let b := fmtBits fmt
  if descLayout d = 1 then rowsPart .read (descBase d) (descStride d) 0 k (r0 * (b / 8)) (rows * (b / 8))
  else rowsPart .read (descBase d) (descStride d) r0 rows 0 (packBytes k b)

def scalePart (d : BitVec 256) (fmt r0 rows k : Nat) : Part :=
  if isMx fmt then rowsPart .read (descScale d) (descScaleStride d) r0 rows 0 (k / 32) else { access := .read, vas := [] }

/-- Bytes of one element of a C source. -/
def sourceSize (w : BitVec 128) (ofmt : Nat) : Nat := if cInit w = 1 then 4 else fmtBits ofmt / 8

def sourcePart (o : CubeOp) (h : Shape) (r0 rows : Nat) : Part :=
  if cInit o.word = 0 then { access := .read, vas := [] }
  else rowsPart .read (descBase o.sDesc) (descStride o.sDesc) r0 rows 0 (h.n * sourceSize o.word h.ofmt)

def resultPart (o : CubeOp) (h : Shape) (r0 rows : Nat) : Part :=
  if o.dest then { access := .write, vas := [] }
  else rowsPart .write (descBase o.cDesc) (descStride o.cDesc) r0 rows 0 (h.n * (fmtBits h.ofmt / 8))

/-- R167: the footprint of a tile: the whole of a CFOLD or CSLOAD, one row group of a CSTREAM. -/
def CubeOp.parts (o : CubeOp) (h : Shape) (group : Nat) : List Part :=
  let op := insField o.word 0 26 6
  if op = opFold then
    [operandPart o.aDesc h.afmt 0 h.m h.k, scalePart o.aDesc h.afmt 0 h.m h.k, operandPart o.bDesc h.bfmt 0 h.n h.k,
     scalePart o.bDesc h.bfmt 0 h.n h.k, sourcePart o h 0 h.m, resultPart o h 0 h.m]
  else if op = opStream then
    let r0 := 96 * group
    let rows := min 96 (h.m - r0)
    [operandPart o.aDesc h.afmt r0 rows h.k, scalePart o.aDesc h.afmt r0 rows h.k, sourcePart o h r0 rows, resultPart o h r0 rows]
  else [operandPart o.bDesc h.bfmt 0 h.n h.k, scalePart o.bDesc h.bfmt 0 h.n h.k]

/-- R168: the first failing page in check order, with the number of its part. -/
def State.checkParts (s : State) (e : Eng) (i : Nat) : List Part → Option (Nat × VaFault) × State
  | [] => (none, s)
  | p :: ps =>
    match s.checkVas e p.access p.vas with
    | (some f, s1) => (some (i, f), s1)
    | (none, s1) => State.checkParts s1 e (i + 1) ps

/-! ## Operand reads -/

/-- `n` elements of `bits` bits from an address, each with the mark of the code words it comes from (R28, R56). -/
def unpack (va : BitVec 55) (n bits : Nat) (ws : List CodeWord) : List Elem :=
  let off := va.toNat % 64
  let num := natOf (ws.flatMap fun w => wordBytes w.data)
  (List.range n).map fun j =>
    let lo := 8 * off + j * bits
    let m := fun i => ((ws[i]?).map (·.mark)).getD false
    { bits := BitVec.ofNat 32 (fld num lo bits), mark := m (lo / 512) || m ((lo + bits - 1) / 512) }

/-- A row of elements read from memory. -/
def State.readRow (s : State) (e : Eng) (bits n : Nat) (va : BitVec 55) : Except VaFault (List Elem) × State :=
  match s.readRun e .read (wordVa va) (spanWords va (packBytes n bits)) with
  | (.error f, s1) => (.error f, s1)
  | (.ok ws, s1) => (.ok (unpack va n bits ws), s1)

/-- Rows of `n` elements read at addresses. -/
def State.readRows (s : State) (e : Eng) (bits n : Nat) : List (BitVec 55) → Except VaFault Tile × State
  | [] => (.ok [], s)
  | va :: vas =>
    match s.readRow e bits n va with
    | (.error f, s1) => (.error f, s1)
    | (.ok r, s1) =>
      match State.readRows s1 e bits n vas with
      | (.error f, s2) => (.error f, s2)
      | (.ok rs, s2) => (.ok (r :: rs), s2)

/-- Columns of a list of rows, `n` of them. -/
def transpose (n : Nat) (rows : Tile) : Tile :=
  (List.range n).map fun j => rows.map fun r => r[j]?.getD { bits := 0, mark := false }

/-- Rows `r0` on of an operand, with their scales. -/
def State.readOperand (s : State) (e : Eng) (d : BitVec 256) (fmt r0 rows k : Nat) : Except VaFault Operand × State :=
  let b := fmtBits fmt
  let elems := if descLayout d = 1 then
      (match s.readRows e b rows ((List.range k).map fun i => rowVa (descBase d) (descStride d) i (r0 * (b / 8))) with
        | (.error f, s1) => (.error f, s1)
        | (.ok t, s1) => (.ok (transpose rows t), s1))
    else s.readRows e b k ((List.range rows).map fun i => rowVa (descBase d) (descStride d) (r0 + i) 0)
  match elems with
  | (.error f, s1) => (.error f, s1)
  | (.ok t, s1) =>
    if isMx fmt then
      match s1.readRows e 8 (k / 32) ((List.range rows).map fun i => rowVa (descScale d) (descScaleStride d) (r0 + i) 0) with
      | (.error f, s2) => (.error f, s2)
      | (.ok c, s2) => (.ok { rows := t, scales := c }, s2)
    else (.ok { rows := t, scales := [] }, s1)

/-! ## A pass, R30 to R34, R39, R40, R56 -/

/-- A list cut into runs of `n`; the last may be shorter. -/
def runsOf {α : Type} (n fuel : Nat) (l : List α) : List (List α) :=
  match fuel with
  | 0 => []
  | f + 1 => if l = [] then [] else l.take n :: runsOf n f (l.drop n)

/-- One output element: the accumulator after every step of a pass, and whether it was held at a limit. -/
def dotProduct (h : Shape) (init : Word) (a b : List Elem) (sa sb : List Elem) : Word × Bool :=
  let steps := (a.zip b)
  match rateClass h.bfmt with
  | none => (init, false)
  | some c =>
    if c.isInt then
      (runsOf c.perStep steps.length steps).foldl (fun acc r =>
        let x := intStep acc.1 (r.map fun p => elemInt h.afmt p.1.bits.toNat * elemInt h.bfmt p.2.bits.toNat)
        (x.1, acc.2 || x.2)) (init, false)
    else
      let prod := fun (p : Elem × Elem) => (elemNum h.afmt p.1.bits.toNat).mul (elemNum h.bfmt p.2.bits.toNat)
      if isMx h.afmt || isMx h.bfmt then
        let one := fun (l : List Elem) (i : Nat) => ((l[i]?).map fun e => scaleNum e.bits.toNat).getD (.fin false 1 0)
        let blocks := runsOf 32 steps.length steps
        (((List.range blocks.length).zip blocks).foldl (fun acc r =>
          mxBlock acc (r.2.map prod) (one sa r.1) (one sb r.1)) init, false)
      else
        ((runsOf c.perStep steps.length steps).foldl (fun acc r =>
          floatStep acc (r.map prod ++ List.replicate (c.perStep - r.length) plusZero)) init, false)

/-- R56: whether an accumulator is marked. -/
def anyMark (l : List Elem) : Bool := l.any (·.mark)

/-- A tile after a pass, from its initial values; and whether an INT32 accumulator was held at a limit. -/
def passTile (h : Shape) (init : Tile) (a b : Operand) : Tile × Bool :=
  let cell := fun (i j : Nat) =>
    let ra := a.rows[i]?.getD []
    let cb := b.rows[j]?.getD []
    let sa := a.scales[i]?.getD []
    let sb := b.scales[j]?.getD []
    let c0 := ((init[i]?).bind fun r => r[j]?).getD { bits := 0, mark := false }
    let r := dotProduct h c0.bits ra cb sa sb
    (({ bits := r.1, mark := c0.mark || anyMark ra || anyMark cb || anyMark sa || anyMark sb } : Elem), r.2)
  let cells := (List.range a.rows.length).map fun i => (List.range b.rows.length).map fun j => cell i j
  (cells.map fun r => r.map (·.1), cells.any fun r => r.any (·.2))

/-- R50: the initial values of an accumulator slot, by CINIT. -/
def State.readInit (s : State) (e : Eng) (o : CubeOp) (h : Shape) (r0 rows c0 cols : Nat) : Except VaFault Tile × State :=
  if cInit o.word = 0 then (.ok [], s) else
  let size := sourceSize o.word h.ofmt
  match s.readRows e (8 * size) cols ((List.range rows).map fun i => rowVa (descBase o.sDesc) (descStride o.sDesc) (r0 + i) (c0 * size)) with
  | (.error f, s1) => (.error f, s1)
  | (.ok t, s1) =>
    (.ok (if cInit o.word = 1 then t
      else t.map fun r => r.map fun x => { x with bits := widenIn h.ofmt x.bits.toNat }), s1)

/-! ## The drain, R35, R36, R42, R43 -/

/-- What a drain reports over a tile. -/
def OutFlags.or (a b : OutFlags) : OutFlags :=
  { satOut := a.satOut || b.satOut, infOut := a.infOut || b.infOut, nanOut := a.nanOut || b.nanOut }

/-- A row converted: its bytes, each with its element's mark, and the flags. Random values are drawn from `draw` on. -/
def convertRow (w : BitVec 128) (ofmt draw : Nat) (row : List Elem) : List (Byte × Bool) × OutFlags :=
  let rnd := insField w 0 13 1 = 1
  let sat := insField w 0 12 1 = 1
  let outs := ((List.range row.length).zip row).map fun x =>
    (outputOf ofmt (if rnd then some (Config.roundingBits (draw + x.1)).toNat else none) sat x.2.bits, x.2.mark)
  (outs.flatMap fun x => (bytesOf (fmtBits ofmt / 8) x.1.1).map fun b => (b, x.2),
    outs.foldl (fun f x => f.or x.1.2) {})

/-- Marked bytes cut into whole code words. -/
def markedWords (bs : List (Byte × Bool)) : List CodeWord :=
  (runsOf 64 bs.length bs).map fun r => { data := bytesWord (r.map (·.1)), mark := r.any (·.2) }

/-- A row of C to be sent: where, its whole code words, and what stays in the merge buffer. -/
structure DrainRow where
  va : BitVec 55
  words : List CodeWord
  keep : Option MergeEntry
  deriving DecidableEq, Repr

/-- R42, R43: a drained row, with what the merge buffer held of it. `last` tells that no more columns follow. -/
def drainRow (o : CubeOp) (h : Shape) (row colBase : Nat) (held : Option MergeEntry) (bs : List (Byte × Bool)) (last : Bool) :
    DrainRow :=
  let start := colBase * (fmtBits h.ofmt / 8) / 64 * 64
  let pre := match held with
    | some m => m.bytes.map fun b => (b, m.mark)
    | none => []
  let all := pre ++ bs
  let va := rowVa (descBase o.cDesc) (descStride o.cDesc) row start
  if last then
    { va := va, words := markedWords (all ++ List.replicate ((64 - all.length % 64) % 64) (0, false)), keep := none }
  else
    let whole := all.length / 64 * 64
    let rest := all.drop whole
    { va := va, words := markedWords (all.take whole),
      keep := if rest = [] then none else some { serial := o.serial, row := row, bytes := rest.map (·.1), mark := rest.any (·.2) } }

end Sys2Proof.Machine
end

