-- ==== Sys2Proof/Machine/Cube.lean ====
section
/-!
DEFINITION. The commands of chapter Cube arrays.
-/

namespace Sys2Proof.Machine

/-! ## Issue and retirement, R76, R101, R102 -/

/-- The instruction that an array's sequencer is about to issue, when its opcode is `op` and the sequencer runs. -/
def State.toIssue (s : State) (a : ArrayId) (op : Nat) : Option (PanelId × BitVec 128) :=
  let x := s.arrays[a]
  match x.panel, x.seq.ir with
  | some p, some w =>
    if x.st = 0 ∧ x.seq.state = seqRunning ∧ !x.seq.stalled ∧ insField w 0 26 6 = op then some (p, w) else none
  | _, _ => none

/-- The address of the instruction in hand. -/
def State.insPc (s : State) (a : ArrayId) : BitVec 55 := s.arrays[a].seq.pc - 16

/-- The instruction has left the sequencer. -/
def State.issued (s : State) (a : ArrayId) : State := s.modSeq a fun x => { x with ir := none, afterStepend := false }

/-- An instruction retires: it is traced, and a single step ends (R102, R341). -/
def State.insRetired (s : State) (a : ArrayId) (op : Nat) (pc : BitVec 55) : State :=
  let s1 := s.traceSchedule a op pc
  if s1.arrays[a].seq.singleStep ∧ s1.arrays[a].seq.state = seqRunning then
    (s1.wdStop a).modSeq a fun x => { x with state := seqDebug }
  else s1

/-- An instruction that holds issue has completed. -/
def State.insDone (s : State) (a : ArrayId) (op : Nat) : State := (s.issued a).insRetired a op (s.insPc a)

/-! ## Passes -/

/-- The instruction whose pass comes next: the first with passes left, none before it waiting or stalled. -/
def CubeState.nextOp (x : CubeState) : Option CubeOp :=
  match x.ops.find? fun o => o.started < o.passes ∨ o.stalled with
  | some o => if o.stalled then none else some o
  | none => none

def CubeState.freeAcc (x : CubeState) : Option (Fin 4) := (allFin 4).find? fun i => x.acc[i].phase = .free

def CubeState.modOp (x : CubeState) (serial : Nat) (f : CubeOp → CubeOp) : CubeState :=
  { x with ops := modFirst (fun o => o.serial = serial) f x.ops }

/-- R167, R170, R171: an instruction's tile given up, to be replayed from its beginning: the row group `group` of a CSTREAM and
those after it, or, from 0, a whole instruction. -/
def CubeState.rewind (x : CubeState) (serial : Nat) (group : Nat) : CubeState :=
  let y := x.modOp serial fun o => { o with
    stalled := true, started := min o.started group, ended := min o.ended group, drained := min o.drained group }
  let gone := fun (t : AccSlot) => t.phase ≠ .free && t.serial = serial && decide (96 * group ≤ t.rowBase)
  { y with
    acc := y.acc.map fun t => if gone t then {} else t
    drainQ := y.drainQ.filter fun i => !gone x.acc[i]
    merge := y.merge.filter fun m => m.serial ≠ serial || decide (m.row < 96 * group) }

/-- R167: the tile of an instruction that pass `i` belongs to: its row group of a CSTREAM, else the whole instruction. -/
def CubeOp.tileOf (o : CubeOp) (i : Nat) : Nat := if insField o.word 0 26 6 = opStream then i else 0

/-- A cube instruction stalls on a translation fault met by pass `i`, R169, R171. -/
def State.stallOp (s : State) (a : ArrayId) (p : PanelId) (o : CubeOp) (i part : Nat) (f : VaFault) (midtile : Bool) : State :=
  (s.modCube a fun x => x.rewind o.serial (o.tileOf i)).stall a p (s.arrayKey a 0 (BitVec.ofNat 13 part)) f midtile

/-- Whether two addresses lie in one 64 KiB page. -/
def samePage (x y : BitVec 55) : Bool := x.toNat / 65536 = y.toNat / 65536

/-- R171, R172: pass `i` met a fault while it ran, in one of the parts `lo` and `lo + 1` of its tile: the record names the part
that holds the page, and its first footprint byte there. -/
def State.stallMid (s : State) (a : ArrayId) (p : PanelId) (o : CubeOp) (i lo : Nat) (f : VaFault) : State :=
  let parts := o.parts (s.arrays[a].cube.shape o.word) i
  let has := fun (j : Nat) => ((parts[j]?).map fun q => q.vas.find? (samePage f.va)).getD none
  match has lo with
  | some va => s.stallOp a p o i lo { f with va := va } true
  | none => s.stallOp a p o i (lo + 1) { f with va := (has (lo + 1)).getD f.va } true

/-- Where the tile of a pass stands: its first row and column, and its valid rows and columns (R39, R40, R47). -/
structure PassAt where
  row : Nat
  col : Nat
  rows : Nat
  cols : Nat
  deriving DecidableEq, Repr

def CubeOp.passAt (o : CubeOp) (h : Shape) (i : Nat) : PassAt :=
  let nt := tiles96 h.n
  let r := if insField o.word 0 26 6 = opFold then 96 * (i / nt) else 96 * i
  let c := if insField o.word 0 26 6 = opFold then 96 * (i % nt) else 0
  { row := r, col := c, rows := min 96 (h.m - r), cols := min 96 (h.n - c) }

/-- The operands of a pass: A comes from its store when the row tile is resident, B from memory or from its slot. A fault comes
with the number of the operand's first part. -/
def State.passOperands (s : State) (a : ArrayId) (e : Eng) (o : CubeOp) (h : Shape) (at_ : PassAt) :
    Except (Nat × VaFault) (Operand × Operand) × State :=
  let x := s.arrays[a].cube
  let fold := insField o.word 0 26 6 = opFold
  let ra := if fold ∧ at_.col ≠ 0 then (.ok x.aStore[x.aHalf], s)
    else s.readOperand e o.aDesc h.afmt at_.row at_.rows h.k
  match ra with
  | (.error f, s1) => (.error (0, f), s1)
  | (.ok av, s1) =>
    let ah : Fin 2 := if fold ∧ at_.col ≠ 0 then x.aHalf else if x.aHalf = 0 then 1 else 0
    let s2 := s1.modCube a fun y => { y with aStore := vset y.aStore ah av, aHalf := ah }
    if fold then
      match s2.readOperand e o.bDesc h.bfmt at_.col at_.cols h.k with
      | (.error f, s3) => (.error (2, f), s3)
      | (.ok bv, s3) =>
        let bh : Fin 2 := if x.bHalf = 0 then 1 else 0
        (.ok (av, bv), s3.modCube a fun y => { y with bStore := vset y.bStore bh bv, bHalf := bh })
    else
      let t := x.stat[slotOf o.word]
      (.ok (av, { rows := t.cols, scales := t.scales }), s2)

/-- R39, R47, R55: the next pass starts in the lowest free accumulator slot, when one may. -/
def State.startPass (s : State) (a : ArrayId) : State :=
  let x := s.arrays[a]
  let c := x.cube
  if c.haltReq.isSome ∨ c.acc.any (fun t => t.phase = .running) ∨
      !(x.seq.state = seqRunning ∨ x.seq.state = seqWaiting ∨ x.seq.state = seqCommitting) ∨ x.st ≠ 0 then s else
  match x.panel, c.nextOp, c.freeAcc with
  | some p, some o, some slot =>
    let stream := insField o.word 0 26 6 = opStream
    if stream ∧ c.stat[slotOf o.word].phase ≠ .valid then s else
    let h := c.shape o.word
    let e := s.cubeEng a p
    if s.linesBusy e .read (readVas (o.parts h o.started)) then s else
    let chk := if stream ∧ o.started ≠ 0 then s.checkParts e 0 (o.parts h o.started) else (none, s)
    match chk with
    | (some (part, f), s1) => s1.stallOp a p o o.started part f false
    | (none, s1) =>
      let at_ := o.passAt h o.started
      match s1.readInit e o h at_.row at_.rows at_.col at_.cols with
      | (.error f, s2) => s2.stallMid a p o o.started (if stream then 2 else 4) f
      | (.ok init, s2) =>
        match s2.passOperands a e o h at_ with
        | (.error (lo, f), s3) => s3.stallMid a p o o.started lo f
        | (.ok (av, bv), s3) =>
          let r := passTile h init av bv
          s3.modCube a fun y =>
            let y1 := y.modOp o.serial fun q => { q with started := q.started + 1 }
            { y1 with
              acc := vset y1.acc slot
                { phase := .running, tile := r.1, serial := o.serial, rowBase := at_.row, colBase := at_.col }
              numeric := if r.2 then setBit y1.numeric 3 true else y1.numeric }
  | _, _, _ => s

/-! ## Issue of cube instructions -/

/-- R39, R47: passes of an instruction; none for a stationary load. -/
def passCount (w : BitVec 128) (h : Shape) : Nat :=
  if insField w 0 26 6 = opFold then tiles96 h.m * tiles96 h.n
  else if insField w 0 26 6 = opStream then tiles96 h.m else 0

/-- An instruction with the descriptors it reads at issue (R51). -/
def CubeState.makeOp (x : CubeState) (w : BitVec 128) (pc : BitVec 55) : CubeOp :=
  { serial := x.nextSerial, word := w, aDesc := x.descs[adescNo w], bDesc := x.descs[bdescNo w],
    cDesc := x.descs[cdescNo w], sDesc := x.descs[sdescNo w], passes := passCount w (x.shape w), started := 0, ended := 0,
    drained := 0, stalled := false, cut := false, pc := pc }

/-- R59: correctable errors of the operand and stationary stores are corrected and counted. -/
def State.storeEcc (s : State) (n : Nat) : State := s.modRas fun r => { r with storeCorrections := r.storeCorrections + n }

/-- R45: a checked stationary load fills its slot. -/
def State.fillSlot (s : State) (a : ArrayId) (p : PanelId) (o : CubeOp) : State :=
  let h := sloadShape o.word
  match s.readOperand (s.cubeEng a p) o.bDesc h.bfmt 0 h.n h.k with
  | (.error f, s1) => s1.stallMid a p o 0 0 f
  | (.ok b, s1) =>
    let t : StatSlot :=
      { phase := .filling, fmt := BitVec.ofNat 4 h.bfmt, k := h.k, n := h.n, cols := b.rows, scales := b.scales }
    s1.modCube a fun x => { x with stat := vset x.stat (slotOf o.word) t }

/-- R168: an issued instruction's tile is checked, and then it starts. -/
def State.launchOp (s : State) (a : ArrayId) (p : PanelId) (o : CubeOp) : State :=
  let h := s.arrays[a].cube.shape o.word
  match s.checkParts (s.cubeEng a p) 0 (o.parts h o.started) with
  | (some (part, f), s1) => s1.stallOp a p o o.started part f false
  | (none, s1) => if insField o.word 0 26 6 = opSload then s1.fillSlot a p o else s1.startPass a

/-- R46: a stationary load waits while an earlier instruction still needs its slot. -/
def CubeState.slotBusy (x : CubeState) (w : BitVec 128) : Bool :=
  insField w 0 26 6 = opSload && x.ops.any fun o =>
    slotOf o.word = slotOf w && (if insField o.word 0 26 6 = opStream then
        decide (o.ended < o.passes) else insField o.word 0 26 6 = opSload && x.stat[slotOf w].phase ≠ .valid)

/-- An issued instruction joins the array's instructions in flight. -/
def State.queueOp (s : State) (a : ArrayId) (o : CubeOp) : State :=
  (s.issued a).modCube a fun y => { y with ops := y.ops ++ [o], nextSerial := y.nextSerial + 1 }

/-- R53, R55: an instruction that accumulates waits at issue until an accumulator slot is free. -/
def CubeState.slotWanting (x : CubeState) (op : Nat) : Bool := op ≠ opSload && x.freeAcc.isNone

/-- R38 to R58, R76, R169: a cube instruction issues. A stalled one before it holds it. -/
def State.issueCube (s : State) (a : ArrayId) (op corrected : Nat) : State :=
  match s.toIssue a op with
  | none => s
  | some (p, w) =>
    let x := s.arrays[a].cube
    let vas := readVas ((x.makeOp w (s.insPc a)).parts (x.shape w) 0)
    if x.ops.any (·.stalled) ∨ x.slotBusy w ∨ x.slotWanting op ∨ s.linesBusy (s.cubeEng a p) .read vas then s else
    match x.reject s.arrays[a].mode w with
    | some (code, info) => (s.issued a).endStep a 1 code info 1
    | none =>
      let o := x.makeOp w (s.insPc a)
      ((s.queueOp a o).launchOp a p o).storeEcc corrected

/-- CFOLD, R39. -/
def execCfold (a : ArrayId) (corrected : Nat) (s : State) : Host.Outcome State Fault Refusal :=
  .next (s.issueCube a opFold corrected)

/-- CSTREAM, R47. -/
def execCstream (a : ArrayId) (corrected : Nat) (s : State) : Host.Outcome State Fault Refusal :=
  .next (s.issueCube a opStream corrected)

/-- CSLOAD, R45. -/
def execCsload (a : ArrayId) (corrected : Nat) (s : State) : Host.Outcome State Fault Refusal :=
  .next (s.issueCube a opSload corrected)

/-- STATIONARY_SLOT_VALID, R45: the slot may be streamed through. -/
def execStationarySlotValid (a : ArrayId) (slot : Fin 2) (s : State) : Host.Outcome State Fault Refusal :=
  .next (
    if s.arrays[a].cube.stat[slot].phase = .filling then
      (s.modCube a fun x => { x with stat := vmod x.stat slot fun t => { t with phase := .valid } }).startPass a
    else s)

/-! ## Pass boundaries and halts, R48, R93, R102 -/

/-- A halt that was waiting for the boundary takes effect. -/
def State.haltPending (s : State) (a : ArrayId) : State :=
  match s.arrays[a].cube.haltReq with
  | some k => s.haltEffect a k
  | none => s

/-- PASS_BOUNDARY, R48, R55, R62, R87: where no pass runs, one that was held may start. -/
def execPassBoundary (a : ArrayId) (s : State) : Host.Outcome State Fault Refusal :=
  .next (
    let x := s.arrays[a].cube
    match (allFin 4).find? fun i => x.acc[i].phase = .running with
    | none => s.startPass a
    | some i =>
      let n := ((x.ops.find? fun o => o.serial = x.acc[i].serial).map (·.ended)).getD 0 + 1
      let s1 := s.modCube a fun y =>
        let y1 := y.modOp x.acc[i].serial fun o => { o with ended := o.ended + 1 }
        { y1 with
          acc := vmod y1.acc i fun t => { t with phase := .queued }
          drainQ := y1.drainQ ++ [i], pass := BitVec.ofNat 24 (min n 0xFFFFFF), passes := y1.passes + 1 }
      ((s1.progress a).haltPending a).startPass a)

/-- HALT_REQUEST, R93: a request reaches an array in service. -/
def execHaltRequest (a : ArrayId) (source : HaltSource) (s : State) : Host.Outcome State Fault Refusal :=
  .next (
    if s.arrays[a].st ≠ 0 then s
    else match source with
      | .debug => s.haltArray a .debug
      | .other => s.haltArray a .other)

/-! ## Drains, R53, R57 -/

/-- R74: the exchange slot that a DEST = 1 tile goes to. -/
def CubeState.freeExch (x : CubeState) : Option (Fin 4) := (allFin 4).find? fun i => !x.exch[i].full

/-- The head of the drain queue leaves its accumulator slot. -/
def CubeState.drainedSlot (x : CubeState) (i : Fin 4) : CubeState :=
  let y := x.modOp x.acc[i].serial fun o => { o with drained := o.drained + 1 }
  { y with acc := vset y.acc i {}, drainQ := y.drainQ.drop 1 }

/-- Rows sent one after another: the first status that is not 0, or none when one is held. -/
def State.sendRows (s : State) (e : Eng) : List DrainRow → Except VaFault (Option (BitVec 3)) × State
  | [] => (.ok (some 0), s)
  | r :: rs =>
    match s.sendRun (r.words.length + 1) e r.va r.words with
    | (.fault f, s1) => (.error f, s1)
    | (.held, s1) => (.ok none, s1)
    | (.done st, s1) =>
      match State.sendRows s1 e rs with
      | (.ok (some st2), s2) => (.ok (some (if st = 0 then st2 else st)), s2)
      | x => x

/-- The rows of a slot as they leave. -/
def CubeState.drainRows (x : CubeState) (o : CubeOp) (t : AccSlot) (draw : Nat) : List (DrainRow × OutFlags) :=
  let h := x.shape o.word
  ((List.range t.tile.length).zip t.tile).map fun r =>
    let c := convertRow o.word h.ofmt (draw + 96 * r.1) r.2
    let row := t.rowBase + r.1
    (drainRow o h row t.colBase (x.merge.find? fun m => m.serial = o.serial && m.row = row) c.1 (decide (h.n ≤ t.colBase + r.2.length)), c.2)

/-- R36: the bits of ARR_NUMERIC that a drain sets. -/
def numericBits (f : OutFlags) (poison : Bool) : BitVec 5 :=
  BitVec.ofNat 5 (flag f.nanOut 0 + flag f.infOut 1 + flag f.satOut 2 + flag poison 4)

/-- R57, R140: what a drain that wrote marked words records. -/
def State.poisonDrain (s : State) (a : ArrayId) (p : PanelId) (slot : Fin 4) (rows : List DrainRow) : State :=
  let words := (rows.flatMap fun r => r.words)
  let n := words.countP (·.mark)
  if n = 0 then s else
  let first := (rows.findSome? fun r => (((List.range r.words.length).zip r.words).find? fun x => x.2.mark).map fun x =>
    r.va + BitVec.ofNat 55 (64 * x.1)).getD 0
  let e := s.cubeEng a p
  (((s.arrFault a 9 (BitVec.ofNat 16 slot.val)).logArray a 0 1 9 (BitVec.ofNat 16 slot.val)).countCommits a n).accessEvent
    5 e.agent (s.leadsTo e .write first)

/-- A tile drained to memory. -/
def State.drainToMemory (s : State) (a : ArrayId) (p : PanelId) (o : CubeOp) (i : Fin 4) : State :=
  let x := s.arrays[a].cube
  let t := x.acc[i]
  let rows := x.drainRows o t s.draws
  let s0 := { s with draws := s.draws + 96 * 96 }
  match s0.sendRows ((s.cubeEng a p).at (.cube o.serial)) (rows.map (·.1)) with
  | (.error f, s1) => s1.stallMid a p o o.drained (if insField o.word 0 26 6 = opFold then 5 else 3) f
  | (.ok none, _) => s
  | (.ok (some st), s1) =>
    let fl := rows.foldl (fun f r => f.or r.2) ({} : OutFlags)
    let marked := rows.any fun r => r.1.words.any (·.mark)
    let s2 := s1.modCube a fun y => { (y.drainedSlot i) with
      merge := rows.filterMap fun r => r.1.keep
      numeric := y.numeric ||| numericBits fl (marked || rows.any fun r => r.1.keep.any (·.mark)) }
    ((s2.poisonDrain a p i (rows.map (·.1))).writeDone a s.arrays[a].seq.stepOpen st).startPass a

/-- R66, R74: the contexts whose VTX found no tile are ready to try again. -/
def State.feed (s : State) (a : ArrayId) : State :=
  s.modVec a fun v => { v with ctxs := v.ctxs.map fun c => { c with starved := false } }

/-- A tile handed to the exchange buffer; it waits while no slot is free. -/
def State.drainToExchange (s : State) (a : ArrayId) (i : Fin 4) : State :=
  let x := s.arrays[a].cube
  match x.freeExch with
  | none => s
  | some e =>
    (s.modCube a fun y => { (y.drainedSlot i) with
      exch := vset y.exch e { full := true, order := y.exchOrder, tile := x.acc[i].tile, doneBy := [] }
      exchOrder := y.exchOrder + 1 }).feed a |>.startPass a

/-- DRAIN, R36, R42, R43, R53, R57, R74. -/
def execDrain (a : ArrayId) (s : State) : Host.Outcome State Fault Refusal :=
  .next (
    let x := s.arrays[a]
    match x.cube.drainQ, x.panel with
    | i :: _, some p =>
      (match x.cube.ops.find? fun o => o.serial = x.cube.acc[i].serial with
        | some o => if o.dest then s.drainToExchange a i else s.drainToMemory a p o i
        | none => s)
    | _, _ => s)

/-- Whether a write, atomic or signal of an array's step is unanswered. -/
def State.arrayOwes (s : State) (a : ArrayId) : Bool :=
  s.net.flight.any fun t => match t.owner with
    | .arrayStep b _ _ => b = a && !t.late
    | .vectorLane b _ _ _ _ _ => b = a && !t.late
    | _ => false

/-- R53, R72, R84: whether a write or atomic of one piece of an array's work is unanswered. -/
def State.workOwes (s : State) (a : ArrayId) (w : Work) : Bool :=
  s.net.flight.any fun t => match t.owner with
    | .arrayStep b _ x => b = a && x = w && !t.late
    | .vectorLane b _ _ _ _ l => b = a && w = .kernel l && !t.late
    | _ => false

/-- A cube instruction has done all its work. -/
def CubeState.opDone (x : CubeState) (o : CubeOp) : Bool :=
  !o.stalled && (if insField o.word 0 26 6 = opSload then x.stat[slotOf o.word].phase = .valid
    else o.passes ≤ o.drained)

/-- CUBE_INSTRUCTION_RETIRE, R76, R87: the oldest instruction retires. One that a halt interrupted only leaves. -/
def execCubeInstructionRetire (a : ArrayId) (s : State) : Host.Outcome State Fault Refusal :=
  .next (
    let x := s.arrays[a]
    match x.cube.ops with
    | [] => s
    | o :: rest =>
      if x.cube.opDone o ∧ !s.workOwes a (.cube o.serial) then
        let s1 := s.modCube a fun y => { y with ops := rest }
        if !o.cut ∧ (x.seq.state = seqRunning ∨ x.seq.state = seqWaiting ∨ x.seq.state = seqCommitting) then
          (s1.progress a).insRetired a (insField o.word 0 26 6) o.pc
        else s1
      else s)

/-! ## Hardware faults and fault registers -/

/-- ARRAY_HARDWARE_FAULT, R58, R89, R367, R368. -/
def execArrayHardwareFault (a : ArrayId) (code : Byte) (info : BitVec 16) (s : State) : Host.Outcome State Fault Refusal :=
  .next (
    if code = 6 ∨ code = 7 ∨ code = 8 then ((s.arrFault a code info).seqFault a 1 code info).retireArray a 1 code info
    else s)

/-- SIGNAL_FORWARD_WINDOW_END, R367 act 5. -/
def execSignalForwardWindowEnd (a : ArrayId) (s : State) : Host.Outcome State Fault Refusal :=
  .next (
    if s.net.forwards.any fun f => f.failed = a then
      (s.modNet fun n => { n with
        forwards := n.forwards.filter fun f => f.failed ≠ a
        dedup := n.dedup.filter fun e => !(e.field = fieldOfArray a ∧ e.ni = niOfArray a) }).setSink (fieldOfArray a) (niOfArray a) true
    else s)

/-- R60, R63: a read of a fault register of an array in service returns the record and clears it. -/
def faultWord (r : FaultRec) : Word :=
  BitVec.ofNat 32 (flag r.valid 31 + flag r.overflow 30 + r.source.toNat * 2 ^ 27 + r.code.toNat * 2 ^ 16 + r.info.toNat)

/-- The PF0 offset of a register of an array's block (R412, R415). -/
def arrayReg (a : ArrayId) (off : Nat) : RegAddr :=
  .pf0 (BitVec.ofNat 28 (0x1000000 + a.val / 5 * 0x1000000 + a.val % 5 * 0x100000 + off))

/-- ARR_FAULT_READ, R63. -/
def execArrFaultRead (a : ArrayId) (s : State) : Host.Outcome State Fault Refusal :=
  .next (s.byPf0 fun s =>
    if s.arrays[a].st = 0 then
      (s.emit (.regRead (arrayReg a 8) (faultWord s.arrays[a].cube.fault))).modCube a fun x => { x with fault := {} }
    else s.emit (.regRead (arrayReg a 8) 0))

/-- SEQ_FAULT_READ, R63, R101. -/
def execSeqFaultRead (a : ArrayId) (s : State) : Host.Outcome State Fault Refusal :=
  .next (s.byPf0 fun s =>
    if s.arrays[a].st = 0 then
      (s.emit (.regRead (arrayReg a 0x2008) (faultWord s.arrays[a].seq.fault))).modSeq a fun x => { x with fault := {} }
    else s.emit (.regRead (arrayReg a 0x2008) 0))

end Sys2Proof.Machine
end

