-- ==== Sys2Proof/Machine/Sequencer.lean ====
section
/-!
DEFINITION. The sequencer and the stream mover: schedule fetch, steps, loops, loads, launches, moves, semaphores, the
watchdog and debug halts (chapter Vector cores, threads and schedules).
-/

namespace Sys2Proof.Machine

/-! ## Reads through the array control cache, R215, R217 -/

/-- A code word that the sequencer reads; lines outside coherent ranges stay in the control cache until the next
invocation starts. -/
def State.readControl (s : State) (a : ArrayId) (p : PanelId) (acc : Access) (va : BitVec 55) :
    Except VaFault CodeWord × State :=
  let e := s.seqEng a p
  let agent : AgentId := asFin 96 a.val
  match s.translate e.agent e.sel p e.tint va acc with
  | (.error f, s1) => (.error { fault := f, va := va, access := acc }, s1)
  | (.ok (.pa pa), s1) =>
    if paPartner pa || 4 ≤ paSpace pa || (s1.coherentPanel pa).isSome then
      let r := s1.readPa e pa
      (.ok r.1.word, r.2)
    else
      match s1.cached agent (lineOf pa) with
      | some c => (.ok c.word, s1)
      | none =>
        let r := s1.readPa e pa
        (.ok r.1.word, if r.1.status = 0 then r.2.takeLine agent (lineOf pa) .s r.1.word else r.2)
  | (.ok t, s1) =>
    let r := s1.readTarget e t
    (.ok r.1.word, r.2)

/-- Code words that the sequencer reads at addresses, in order. -/
def State.readControls (s : State) (a : ArrayId) (p : PanelId) (acc : Access) :
    List (BitVec 55) → Except VaFault (List CodeWord) × State
  | [] => (.ok [], s)
  | va :: vas =>
    match s.readControl a p acc va with
    | (.error f, s1) => (.error f, s1)
    | (.ok w, s1) =>
      match State.readControls s1 a p acc vas with
      | (.error f, s2) => (.error f, s2)
      | (.ok ws, s2) => (.ok (w :: ws), s2)

/-- R167, R168: `n` bytes checked as one tile and then read, with the code words they lie in. -/
def State.readTile (s : State) (a : ArrayId) (p : PanelId) (acc : Access) (va : BitVec 55) (n : Nat) :
    Except VaFault (List CodeWord) × State :=
  match s.checkVas (s.seqEng a p) acc (coverVas va n) with
  | (some f, s1) => (.error f, s1)
  | (none, s1) => s1.readControls a p acc (coverVas va n)

/-- The sequencer stalls on a translation fault (R169). -/
def State.stallSeq (s : State) (a : ArrayId) (p : PanelId) (f : VaFault) : State :=
  (s.modSeq a fun x => { x with stalled := true }).stall a p (s.arrayKey a 3 0) f false

/-- A mark on any code word that `n` bytes from `va + off` touch. -/
def markAt (va : BitVec 55) (off n : Nat) (ws : List CodeWord) : Bool :=
  let lo := va.toNat % 64 + off
  ((List.range ws.length).zip ws).any fun x => x.2.mark && decide (64 * x.1 < lo + n ∧ lo < 64 * x.1 + 64)

/-! ## Schedule instructions, R82 -/

abbrev opNop : Nat := 0x00
abbrev opStep : Nat := 0x01
abbrev opStepend : Nat := 0x02
abbrev opSignal : Nat := 0x03
abbrev opWaitc : Nat := 0x04
abbrev opLoop : Nat := 0x05
abbrev opEndloop : Nat := 0x06
abbrev opDload : Nat := 0x08
abbrev opKload : Nat := 0x09
abbrev opVlaunch : Nat := 0x10
abbrev opMove : Nat := 0x18
abbrev opEnd : Nat := 0x3F

def definedOpcode (op : Nat) : Bool :=
  op ≤ 6 || op = opDload || op = opKload || op = opVlaunch || op = opMove || (opFold ≤ op && op ≤ opSload) || op = opEnd

def restZero (w : BitVec 128) : List (Option (Nat × Nat)) :=
  [lowReserved w 1 0 32, lowReserved w 2 0 32, lowReserved w 3 0 32]

/-- R82: what breaks a signal entry that is VALID. -/
def signalBad (w : BitVec 128) (k : Nat) : List (Option (Nat × Nat)) :=
  if insField w k 31 1 = 0 then []
  else
    let t := insField w k 24 7
    [badIf (insField w k 0 8 = 0) k 0, lowReserved w k 8 10, badIf (!(t < 40 || (64 ≤ t && t < 72))) k 24]

/-- R82, R83: fault 0x11, the first reserved bit set or field out of range. -/
def scheduleBad (w : BitVec 128) : Option (BitVec 16) :=
  let op := insField w 0 26 6
  firstBad (
    if op = opNop ∨ op = opEndloop ∨ op = opEnd then lowReserved w 0 0 26 :: restZero w
    else if op = opStep then [lowReserved w 0 24 1, lowReserved w 3 0 32]
    else if op = opStepend ∨ op = opSignal then lowReserved w 0 0 26 :: (signalBad w 1 ++ signalBad w 2 ++ signalBad w 3)
    else if op = opWaitc then lowReserved w 0 16 7 :: restZero w
    else if op = opLoop then badIf (insField w 0 0 24 = 0) 0 0 :: lowReserved w 0 24 2 :: restZero w
    else if op = opDload then
      [badIf (64 < insField w 0 0 6 + insField w 0 6 6 + 1) 0 0, lowReserved w 0 12 13, lowReserved w 2 23 9, lowReserved w 3 0 32]
    else if op = opKload then
      [badIf (131072 < insField w 0 0 14 * 8 + insField w 3 0 32 ∧ insField w 3 0 32 ≤ 131072) 0 0, lowReserved w 0 14 11,
       lowReserved w 2 23 9, badIf (insField w 3 0 32 % 8 ≠ 0 ∨ 131072 < insField w 3 0 32) 3 0]
    else if op = opVlaunch then
      [lowReserved w 2 23 9, if insField w 0 25 1 = 0 then lowReserved w 3 0 32 else none]
    else if op = opMove then [lowReserved w 0 3 22, lowReserved w 2 23 9, lowReserved w 3 0 32]
    else [])

/-- The address of an instruction's words 1 and 2, with the argument base when its ARGREL bit is 1. -/
def SeqState.address (x : SeqState) (w : BitVec 128) (argrel : Nat) : BitVec 55 :=
  BitVec.ofNat 55 (fld w.toNat 32 55) + (if insField w 0 argrel 1 = 1 then x.argBase else 0)

/-- Whether nothing that a single step issued is outstanding. -/
def ArrayState.quiet (x : ArrayState) : Bool := x.cube.ops = [] && x.vec.launches = [] && x.moves = []

/-- SCHEDULE_FETCH, R76, R82, R139. -/
def execScheduleFetch (a : ArrayId) (s : State) : Host.Outcome State Fault Refusal :=
  .next (
    let x := s.arrays[a]
    match x.panel with
    | none => s
    | some p =>
      if x.st ≠ 0 ∨ x.seq.state ≠ seqRunning ∨ x.seq.ir.isSome ∨ x.seq.stalled ∨ (x.seq.singleStep ∧ !x.quiet) then s
      else
        if s.linesBusy (s.seqEng a p) .fetch (coverVas x.seq.pc 16) then s else
        match s.readTile a p .fetch x.seq.pc 16 with
        | (.error f, s1) => s1.stallSeq a p f
        | (.ok ws, s1) =>
          let w : BitVec 128 := BitVec.ofNat 128 (natOf (bytesAt x.seq.pc 16 ws))
          let s2 := s1.modSeq a fun y => { y with ir := some w, pc := y.pc + 16 }
          if markAt x.seq.pc 0 16 ws then s2.consumed a 0 0 0x17 0x40 (s.leadsTo (s.seqEng a p) .fetch (markedVa x.seq.pc ws))
          else if !definedOpcode (insField w 0 26 6) then s2.endStep a 0 0x10 (BitVec.ofNat 16 (insField w 0 26 6)) 1
          else match scheduleBad w with
            | some i => s2.endStep a 0 0x11 i 1
            | none => s2)

/-! ## Steps, R77, R78, R81 -/

/-- The wait list of a step: entry `i` as semaphore and count. -/
def waitEntry (waits : DWord) (i : Nat) : Fin 64 × Nat :=
  (asFin 64 (fld waits.toNat (16 * i + 10) 6), fld waits.toNat (16 * i) 10)

/-- R77: entries taken in order while each is satisfied. -/
def SeqState.takeWaits (fuel : Nat) (x : SeqState) : SeqState :=
  match fuel with
  | 0 => x
  | n + 1 =>
    if 4 ≤ x.waitIdx then x
    else
      let e := waitEntry x.waits x.waitIdx
      if e.2 ≤ x.sems[e.1].toNat then
        SeqState.takeWaits n { x with sems := vmod x.sems e.1 (fun v => v - BitVec.ofNat 16 e.2), waitIdx := x.waitIdx + 1 }
      else x

/-- A step whose wait list is passed is open; the watchdog is loaded (R87). -/
def State.evalWaits (s : State) (a : ArrayId) : State :=
  if s.arrays[a].seq.state ≠ seqWaiting then s else
  let s1 := s.modSeq a fun x => x.takeWaits 5
  if s1.arrays[a].seq.waitIdx < 4 then s1
  else ((s1.modSeq a fun x => { x with state := seqRunning, stepOpen := true }).wdLoad a).insRetired a opStep (s1.insPc a)

/-- STEP, R77, R81, R82. -/
def execStep (a : ArrayId) (s : State) : Host.Outcome State Fault Refusal :=
  .next (
    match s.toIssue a opStep with
    | none => s
    | some (_, w) =>
      if s.arrays[a].seq.loops.any (·.inStep) then
        (s.issued a).endStep a 0 0x13 (BitVec.ofNat 16 s.arrays[a].seq.loops.length) 1
      else
        ((((s.issued a).wdStop a).modSeq a fun x => { x with
          state := seqWaiting, attempt := 1, stepId := BitVec.ofNat 24 (insField w 0 0 24), atomic := insField w 0 25 1 = 1,
          atomicIssued := false, stepOpen := false, waits := BitVec.ofNat 64 (fld w.toNat 32 64), waitIdx := 0,
          savedLoops := x.loops, stepPc := x.pc })).evalWaits a)

/-- Where a signal entry goes: the NI of a logical array of the invocation, or of a site with a bound engine. `none`
where R82 makes it fault 0x14. -/
def State.signalTarget (s : State) (a : ArrayId) (t : Nat) : Option (Option (FieldId × NiId) × Fin 8) :=
  match s.arrays[a].panel, s.arrays[a].seq.inv.bind s.taken with
  | some p, some inv =>
    if t < 40 then
      if (asFin 40 t) ∈ inv.arrays then some ((s.arrayOf p t).map fun b => (fieldOfArray b, niOfArray b), 0) else none
    else
      let slot := asFin 8 t
      if !bit inv.siteMask slot.val then none
      else match s.pnl.panels[p].slots[slot] with
        | none => none
        | some (n, tag) =>
          if s.sites[n].bindings.any fun b => b.tag = tag && b.panel = p && b.target.toNat < 8 then
            some (some (n, 16), slot) else none
  | _, _ => none

/-- The VALID entries of an instruction that carries signals. -/
def signalEntries (w : BitVec 128) : List Word := ([1, 2, 3].map fun k => wordOf w k).filter fun e => bit e 31

/-- R82: the TARGET of the first entry that names no target of the invocation. -/
def State.signalFault (s : State) (a : ArrayId) (es : List Word) : Option (BitVec 16) :=
  (es.find? fun e => (s.signalTarget a (fld e.toNat 24 7)).isNone).map fun e => BitVec.ofNat 16 (fld e.toNat 24 7)

/-- A signal sent as a network transaction of a step that has committed; none while a tag is wanting. -/
def State.sendSignal (s : State) (a : ArrayId) (e : Word) : Option State :=
  match s.arrays[a].panel, s.signalTarget a (fld e.toNat 24 7) with
  | some p, some (some (f, ni), slot) =>
    (s.inject (fieldOfArray a) (niOfArray a) (s.tintOf a) (some p) 0
      (.signal f ni (asFin 64 (fld e.toNat 18 6)) (BitVec.ofNat 8 e.toNat) slot) (.commitSignal a)).map (·.2)
  | _, _ => some (s.endInvOf a 3 0)

/-- The signals of a list, in order; none while a tag is wanting. -/
def State.sendSignals (s : State) (a : ArrayId) : List Word → Option State
  | [] => some s
  | e :: es => (s.sendSignal a e).bind fun t => State.sendSignals t a es

/-- STEPEND, R78, R81, R82: the step starts to commit. -/
def execStepend (a : ArrayId) (s : State) : Host.Outcome State Fault Refusal :=
  .next (
    match s.toIssue a opStepend with
    | none => s
    | some (_, w) =>
      let es := signalEntries w
      let s1 := s.issued a
      if s.arrays[a].seq.loops.any (·.inStep) then
        s1.endStep a 0 0x13 (BitVec.ofNat 16 s.arrays[a].seq.loops.length) 1
      else match s.signalFault a es with
        | some i => s1.endStep a 0 0x14 i 1
        | none => s1.modSeq a fun x => { x with state := seqCommitting, commitSignals := es })

/-- STEP_COMMIT, R78. -/
def execStepCommit (a : ArrayId) (s : State) : Host.Outcome State Fault Refusal :=
  .next (
    let x := s.arrays[a]
    if x.seq.state = seqCommitting ∧ x.quiet ∧ !s.arrayOwes a then
      let s1 := s.modSeq a fun y => { y with state := seqRunning, stepOpen := false, commitSignals := [], afterStepend := true }
      match s1.sendSignals a x.seq.commitSignals with
      | some s2 => s2.insRetired a opStepend (s.insPc a)
      | none => s
    else s)

/-- SIGNAL, R82. -/
def execSignal (a : ArrayId) (s : State) : Host.Outcome State Fault Refusal :=
  .next (
    match s.toIssue a opSignal with
    | none => s
    | some (_, w) =>
      let es := signalEntries w
      if !s.arrays[a].seq.afterStepend then (s.issued a).endStep a 0 0x12 0 1
      else match s.signalFault a es with
        | some i => (s.issued a).endStep a 0 0x14 i 1
        | none =>
          match s.sendSignals a es with
          | some s1 => (s1.insDone a opSignal).modSeq a fun x => { x with afterStepend := true }
          | none => s)

/-- WAITC, R80. -/
def execWaitc (a : ArrayId) (s : State) : Host.Outcome State Fault Refusal :=
  .next (
    match s.toIssue a opWaitc with
    | none => s
    | some (_, w) =>
      let x := s.arrays[a]
      let allow := insField w 0 0 16
      let ok := fun (b n : Nat) => insField w 0 b 1 = 0 ∨ n ≤ allow
      if ok 25 x.cube.ops.length ∧ ok 24 x.vec.launches.length ∧ ok 23 x.moves.length then s.insDone a opWaitc else s)

/-- LOOP, R81: a fifth level is fault 0x13. -/
def execLoop (a : ArrayId) (s : State) : Host.Outcome State Fault Refusal :=
  .next (
    match s.toIssue a opLoop with
    | none => s
    | some (_, w) =>
      let x := s.arrays[a].seq
      if 4 ≤ x.loops.length then (s.issued a).endStep a 0 0x13 (BitVec.ofNat 16 (x.loops.length + 1)) 1
      else
        let fr : LoopFrame := { start := x.pc, left := insField w 0 0 24, inStep := x.stepOpen }
        (s.insDone a opLoop).modSeq a fun y => { y with loops := fr :: y.loops })

/-- ENDLOOP, R81. -/
def execEndloop (a : ArrayId) (s : State) : Host.Outcome State Fault Refusal :=
  .next (
    match s.toIssue a opEndloop with
    | none => s
    | some _ =>
      let x := s.arrays[a].seq
      match x.loops with
      | [] => (s.issued a).endStep a 0 0x13 0 1
      | fr :: rest =>
        if fr.inStep ≠ x.stepOpen then (s.issued a).endStep a 0 0x13 (BitVec.ofNat 16 x.loops.length) 1
        else if 1 < fr.left then
          (s.insDone a opEndloop).modSeq a fun y => { y with loops := { fr with left := fr.left - 1 } :: rest, pc := fr.start }
        else (s.insDone a opEndloop).modSeq a fun y => { y with loops := rest })

/-- NOP, R82. -/
def execNop (a : ArrayId) (s : State) : Host.Outcome State Fault Refusal :=
  .next (if (s.toIssue a opNop).isSome then s.insDone a opNop else s)

/-! ## Loads and launches, R83 -/

/-- DLOAD, R83, R87, R139. -/
def execDload (a : ArrayId) (s : State) : Host.Outcome State Fault Refusal :=
  .next (
    match s.toIssue a opDload with
    | none => s
    | some (p, w) =>
      let va := s.arrays[a].seq.address w 25
      let n := insField w 0 6 6 + 1
      let first := insField w 0 0 6
      if s.linesBusy (s.seqEng a p) .read (coverVas va (32 * n)) then s else
      match s.readTile a p .read va (32 * n) with
      | (.error f, s1) => s1.stallSeq a p f
      | (.ok ws, s1) =>
        match (List.range n).find? fun i => markAt va (32 * i) 32 ws with
        | some i => (s1.issued a).consumed a 0 0 0x17 (BitVec.ofNat 16 (first + i))
            (s.leadsTo (s.seqEng a p) .read (markedVa va ws))
        | none =>
          let bs := bytesAt va (32 * n) ws
          let put := fun (x : CubeState) (i : Nat) =>
            { x with descs := vset x.descs (asFin 64 (first + i)) (BitVec.ofNat 256 (natOf ((bs.drop (32 * i)).take 32))) }
          ((s1.modCube a fun x => (List.range n).foldl put x).progress a).insDone a opDload)

/-- An entry of a sparse store replaced. -/
def putEntry {α : Type} (k : Nat) (x : α) (l : List (Nat × α)) : List (Nat × α) := (k, x) :: l.filter fun e => e.1 ≠ k

/-- KLOAD, R83, R87, R139: bytes from marked code words keep their mark in the code store. -/
def execKload (a : ArrayId) (s : State) : Host.Outcome State Fault Refusal :=
  .next (
    match s.toIssue a opKload with
    | none => s
    | some (p, w) =>
      if s.arrays[a].vec.launches ≠ [] then s else
      let va := s.arrays[a].seq.address w 25
      let size := insField w 3 0 32
      let off := insField w 0 0 14
      if s.linesBusy (s.seqEng a p) .read (coverVas va size) then s else
      match s.readTile a p .read va size with
      | (.error f, s1) => s1.stallSeq a p f
      | (.ok ws, s1) =>
        let bs := bytesAt va size ws
        let put := fun (c : List (Nat × CodeEntry)) (i : Nat) =>
          putEntry (off + i)
            ({ bits := BitVec.ofNat 64 (natOf ((bs.drop (8 * i)).take 8)), mark := markAt va (8 * i) 8 ws } : CodeEntry) c
        ((s1.modVec a fun v => { v with codeStore := (List.range (size / 8)).foldl put v.codeStore }).progress a).insDone a opKload)

/-- R83: the lowest free context of a core. -/
def VecState.freeCtx (v : VecState) (core : Fin 16) : Option (Fin 64) :=
  (allFin 64).find? fun i => v.ctxs.all fun c => !(c.core = core ∧ c.idx = i)

/-- R83: `n` contexts started over the cores in turn, from core `from_`. -/
def VecState.startCtxs (fuel : Nat) (v : VecState) (n from_ entry serial : Nat) (arg : DWord) : VecState :=
  match fuel, n with
  | 0, _ => v
  | _, 0 => v
  | f + 1, k + 1 =>
    let core := asFin 16 from_
    match v.freeCtx core with
    | none => VecState.startCtxs f v (k + 1) (from_ + 1) entry serial arg
    | some i =>
      VecState.startCtxs f { v with ctxs := v.ctxs ++
        [{ core := core, idx := i, pc := entry, launch := serial, birth := serial,
           sregs := [(0, { bits := arg, mark := false })] }] } k (from_ + 1) entry serial arg

/-- VLAUNCH, R83, R74: it waits until enough contexts are free. -/
def execVlaunch (a : ArrayId) (s : State) : Host.Outcome State Fault Refusal :=
  .next (
    match s.toIssue a opVlaunch with
    | none => s
    | some (_, w) =>
      let x := s.arrays[a]
      let n := insField w 0 0 10 + 1
      if 1024 < x.vec.ctxs.length + n then s else
      let arg := (x.seq.address w 24).setWidth 64
      let trig := insField w 0 25 1 = 1
      let l : Launch := { serial := x.vec.nextLaunch, trigger := trig, tilesLeft := if trig then insField w 3 0 32 else 0,
                          contexts := n, pc := s.insPc a }
      (s.issued a).modVec a fun v =>
        let v1 := { v with launches := v.launches ++ [l], nextLaunch := v.nextLaunch + 1 }
        v1.startCtxs 2048 n 0 (insField w 0 10 14) l.serial arg)

/-! ## The stream mover, R84 to R86 -/

/-- R85: the word of a transfer descriptor that breaks a rule. Reserved bits are not looked at: the rule's checks do not name
them (DESIGN CHOICE, assumption log 82). -/
def moveBad (d : BitVec 512) : Option Nat :=
  if insField d 0 0 4 ≠ 0 then some 0
  else if insField d 2 0 6 ≠ 0 then some 2
  else if insField d 4 0 6 ≠ 0 ∨ insField d 4 0 32 < 64 ∨ 16777216 < insField d 4 0 32 then some 4
  else if insField d 6 0 4 ≠ 0 then some 6
  else if insField d 7 0 6 ≠ 0 then some 7 else none

/-- A tile of a transfer: a row, or 1 MiB of a longer row (R167). -/
structure MoveTile where
  src : BitVec 55
  dst : BitVec 55
  words : Nat
  deriving DecidableEq, Repr

def moveTiles (d : BitVec 512) : Nat := (insField d 5 0 20 + 1) * ceilDiv (insField d 4 0 32) 1048576

def moveTile (d : BitVec 512) (i : Nat) : MoveTile :=
  let bytes := insField d 4 0 32
  let per := ceilDiv bytes 1048576
  let row := i / per
  let off := i % per * 1048576
  { src := BitVec.ofNat 55 (fld d.toNat 0 55 + row * insField d 6 0 32 + off)
    dst := BitVec.ofNat 55 (fld d.toNat 64 55 + row * insField d 7 0 32 + off)
    words := (min 1048576 (bytes - off)) / 64 }

def moveZero (d : BitVec 512) : Bool := insField d 8 0 1 = 1

/-- R86: the code words of a row as they are written: source bytes in place, each word marked as its sources are. -/
def moveWords (src : BitVec 55) (n : Nat) (ws : List CodeWord) : List CodeWord :=
  let bs := bytesAt src (64 * n) ws
  (List.range n).map fun i =>
    { data := bytesWord ((bs.drop (64 * i)).take 64), mark := markAt src (64 * i) 64 ws }

/-- R92, R247: whether a virtual address leads to an engine's work window, where a site operation is started. -/
def State.toSite (s : State) (a : ArrayId) (p : PanelId) (va : BitVec 55) : Bool :=
  match (s.translate (s.arrayAgent a 2) (.array a) p (s.tintOf a) va .write).1 with
  | .ok (.pa pa) => !paPartner pa && paSpace pa = 4 &&
      (match s.sites[paField pa].aperture (paNear pa) with
        | .window .. => true
        | _ => false)
  | _ => false

/-- What a tile of a transfer came to. -/
inductive MoveOut where
  | done (status : BitVec 3)
  | held
  | fault (f : VaFault) (midtile : Bool)
  deriving DecidableEq, Repr

/-- R167, R168: a tile checked, source and then destination, read and written. -/
def State.runTile (s : State) (a : ArrayId) (p : PanelId) (serial : Nat) (zero : Bool) (t : MoveTile) : MoveOut × State :=
  let e := (s.moverEng a p).at (.move serial)
  let src := if zero then [] else coverVas t.src (64 * t.words)
  if s.linesBusy e .read src then (.held, s) else
  match s.checkVas e .read src with
  | (some f, s1) => (.fault f false, s1)
  | (none, s1) =>
    match s1.checkVas e .write (coverVas t.dst (64 * t.words)) with
    | (some f, s2) => (.fault f false, s2)
    | (none, s2) =>
      let rd : Except VaFault (List CodeWord) × State := if zero then (.ok (List.replicate t.words { data := 0, mark := false }), s2)
        else match s2.readRun e .read (wordVa t.src) src.length with
          | (.error f, s3) => (.error f, s3)
          | (.ok ws, s3) => (.ok (moveWords t.src t.words ws), s3)
      match rd with
      | (.error f, s3) => (.fault f true, s3)
      | (.ok ws, s3) =>
        let s4 := if s3.toSite a p t.dst then s3.modSeq a fun x => { x with atomicIssued := x.atomicIssued || x.atomic } else s3
        match s4.sendRun (t.words + 1) e t.dst ws with
        | (.fault f, s5) => (.fault f true, s5)
        | (.held, s5) => (.held, s5)
        | (.done st, s5) => (.done st, s5)

def isMove (c : Fin 8) (desc : BitVec 512) (m : MoveOp) : Bool := m.channel = c && m.desc = desc && !m.done

def State.modMove (s : State) (a : ArrayId) (c : Fin 8) (f : MoveOp → MoveOp) : State :=
  s.modArray a fun x => { x with moves := modFirst (fun m => m.channel = c && !m.done) f x.moves }

/-- R84: a channel's transfer in hand goes on, tile by tile, until it is done, held or stalled. -/
def State.runMove (fuel : Nat) (s : State) (a : ArrayId) (p : PanelId) (c : Fin 8) : State :=
  match fuel with
  | 0 => s
  | n + 1 =>
    match s.arrays[a].moves.find? fun m => m.channel = c && !m.done with
    | none => s
    | some m =>
      if m.stalled then s
      else if moveTiles m.desc ≤ m.next then State.runMove n (s.modMove a c fun y => { y with done := true }) a p c
      else match s.runTile a p m.serial (moveZero m.desc) (moveTile m.desc m.next) with
        | (.fault f mid, s1) =>
          (s1.modMove a c fun y => { y with stalled := true }).stall a p (s.arrayKey a 2 (BitVec.ofNat 13 c.val)) f mid
        | (.held, _) => s
        | (.done st, s1) =>
          let s2 := s1.modMove a c fun y => { y with next := y.next + 1 }
          if st = 0 then State.runMove n s2 a p c else s2.writeDone a s.arrays[a].seq.stepOpen st

/-- Enough for every tile of every transfer on a channel. -/
def State.moveFuel (s : State) (a : ArrayId) : Nat := (s.arrays[a].moves.map fun m => moveTiles m.desc + 2).sum + 1

/-- MOVE, R84, R85, R139. -/
def execMove (a : ArrayId) (s : State) : Host.Outcome State Fault Refusal :=
  .next (
    match s.toIssue a opMove with
    | none => s
    | some (p, w) =>
      let va := s.arrays[a].seq.address w 25
      let c := asFin 8 (insField w 0 0 3)
      let info := fun (k : Nat) => BitVec.ofNat 16 (c.val * 32 + k)
      if va.toNat % 64 ≠ 0 then (s.issued a).endStep a 3 0x30 (info 0) 1
      else if s.linesBusy (s.seqEng a p) .read (coverVas va 64) then s
      else match s.readTile a p .read va 64 with
        | (.error f, s1) => s1.stallSeq a p f
        | (.ok ws, s1) =>
          let d : BitVec 512 := bytesWord (bytesAt va 64 ws)
          if markAt va 0 64 ws then (s1.issued a).consumed a 2 3 0x31 (info 0) (s.leadsTo (s.seqEng a p) .read (markedVa va ws))
          else match moveBad d with
            | some k => (s1.issued a).endStep a 3 0x30 (info k) 1
            | none =>
              let m : MoveOp :=
                { serial := s.arrays[a].nextMove, channel := c, desc := d, next := 0, done := false, stalled := false, pc := s.insPc a }
              let s2 := (s1.issued a).modArray a fun x => { x with moves := x.moves ++ [m], nextMove := x.nextMove + 1 }
              s2.runMove (s2.moveFuel a) a p c)

/-- MOVE_RETIRE, R84, R87: the channel's transfer goes on where it was held, and retires once its writes are
acknowledged. -/
def execMoveRetire (a : ArrayId) (channel : Fin 8) (s : State) : Host.Outcome State Fault Refusal :=
  .next (
    match s.arrays[a].panel with
    | none => s
    | some p =>
      let s1 := s.runMove (s.moveFuel a) a p channel
      match s1.arrays[a].moves.find? fun m => m.channel = channel with
      | some m =>
        if m.done ∧ !s1.workOwes a (.move m.serial) then
          let s2 := s1.modArray a fun x => { x with moves := x.moves.eraseP fun y => y.channel = channel }
          (s2.progress a).insRetired a opMove m.pc
        else s1
      | none => s1)

/-! ## The end of a schedule -/

/-- END, R97: the array has executed END once nothing it issued is outstanding. -/
def execEndSchedule (a : ArrayId) (s : State) : Host.Outcome State Fault Refusal :=
  .next (
    match s.toIssue a opEnd with
    | none => s
    | some _ =>
      if !s.arrays[a].quiet ∨ s.arrayOwes a then s else
      let s1 := ((s.issued a).traceSchedule a opEnd (s.insPc a)).wdStop a
      let s2 := s1.modSeq a fun x => { x with state := seqIdle, attempt := 0, ended := true, stepOpen := false, singleStep := false }
      match s.arrays[a].seq.inv with
      | some q => s2.modTaken q fun t => { t with endedArrays := t.endedArrays ++ [asFin 40 s.arrays[a].logical.toNat] }
      | none => s2)

/-! ## Semaphores, R79 -/

/-- R367 act 5: the array that answers for a signal's target. -/
def State.signalArray (s : State) (f : FieldId) (ni : NiId) : Option ArrayId :=
  (arrayOfNi f ni).map fun a => ((s.net.forwards.find? fun w => w.failed = a).map (·.spare)).getD a

/-- R79: an increment of a step semaphore; a wait list may then go on. -/
def State.addSem (s : State) (a : ArrayId) (sem : Fin 64) (inc : Byte) : State :=
  let v := s.arrays[a].seq.sems[sem].toNat + inc.toNat
  let s1 := s.modSeq a fun x => { x with sems := vset x.sems sem (BitVec.ofNat 16 (min v 65535)) }
  if 65535 < v then s1.endStep a 0 0x15 (BitVec.ofNat 16 sem.val) 1 else s1.evalWaits a

/-- SEMAPHORE_SIGNAL, R79, R208: performed once for a transaction ID. -/
def execSemaphoreSignal (id : TxId) (s : State) : Host.Outcome State Fault Refusal :=
  .next (
    match s.txn id with
    | none => s
    | some t =>
      match t.kind, t.stage with
      | .signal f ni sem inc _, .atTarget =>
        (match s.signalArray f ni with
          | none => s
          | some a =>
            let g := fieldOfArray a
            let m := niOfArray a
            if s.isolated f ni ∨ s.arrays[a].st ≠ 0 then s
            else match s.dedupOf g m id with
              | some e => s.answerTxn id e.status e.data
              | none => if !s.tableRoom g m id then s else ((s.addSem a sem inc).remember g m id 0 []).answerTxn id 0 [])
      | _, _ => s)

/-! ## Watchdog, liveness, re-runs, R87 to R92 -/

/-- WATCHDOG_EXPIRY, R89. -/
def execWatchdogExpiry (a : ArrayId) (s : State) : Host.Outcome State Fault Refusal :=
  .next (
    let x := s.arrays[a].seq
    if x.wdRunning ∧ x.stepOpen then
      (s.modSeq a fun y => { y with wdRemain := 0, wdRunning := false, lastReport := s.sclk }).attemptEnds a 0 0x16
        (x.attempt.setWidth 16)
    else s)

/-- LIVENESS_REPORT, R88. -/
def execLivenessReport (a : ArrayId) (s : State) : Host.Outcome State Fault Refusal :=
  .next (if s.arrays[a].st = 0 then s.modSeq a fun x => { x with lastReport := s.sclk } else s)

/-- ARRAY_SILENT, R88, R367, R368. -/
def execArraySilent (a : ArrayId) (s : State) : Host.Outcome State Fault Refusal :=
  .next ((if s.arrays[a].st = 0 then s.seqFault a 0 0x19 0 else s).retireArray a 0 0x19 0)

/-- STATE_CARRY_READ_TIMEOUT, R88. -/
def execStateCarryReadTimeout (a : ArrayId) (s : State) : Host.Outcome State Fault Refusal := .next (s.carryLost a)

/-- A step restarts at the instruction after STEP, with its loops restored (R81, R89). -/
def SeqState.restart (x : SeqState) : SeqState :=
  { x with state := seqRunning, pc := x.stepPc, loops := x.savedLoops, ir := none, stepOpen := true, afterStepend := false }

/-- STEP_RERUN, R89, R81: the drains that the halt kept, and the writes already issued, complete first. -/
def execStepRerun (a : ArrayId) (s : State) : Host.Outcome State Fault Refusal :=
  .next (
    if s.arrays[a].st = 0 ∧ s.arrays[a].seq.state = seqRerun ∧ s.arrays[a].quiet ∧ !s.arrayOwes a then
      (s.modSeq a fun x => { x.restart with attempt := x.attempt + 1 }).wdLoad a
    else s)

/-- CORE_HARDWARE_FAULT, R89. -/
def execCoreHardwareFault (a : ArrayId) (core : Fin 17) (s : State) : Host.Outcome State Fault Refusal :=
  .next (s.retireCore a core)

/-- MOVER_HARDWARE_FAULT, R89, R367, R368. -/
def execMoverHardwareFault (a : ArrayId) (channel : Fin 8) (s : State) : Host.Outcome State Fault Refusal :=
  .next (
    let info := BitVec.ofNat 16 (channel.val * 32)
    (if s.arrays[a].st = 0 then s.seqFault a 3 0x33 info else s).retireArray a 3 0x33 info)

/-! ## Debug halt, R102 -/

/-- A HALT written to SEQ_CONTROL of an array in service; an invocation that has ended on it stays as it is. -/
def State.debugHalt (s : State) (a : ArrayId) : State :=
  let x := s.arrays[a]
  if x.st ≠ 0 ∨ x.seq.state = seqFaulted ∨ x.seq.state = seqHalted ∨ x.seq.state = seqDebug then s else s.haltArray a .debug

/-- SEQ_HALT, R102, R93. -/
def execSeqHalt (a : ArrayId) (s : State) : Host.Outcome State Fault Refusal :=
  .next (s.byPf0 fun s => s.debugHalt a)

/-- The sequencer leaves a debug halt: its step starts again, or its wait list, or the schedule, goes on. -/
def State.leaveHalt (s : State) (a : ArrayId) : State :=
  let x := s.arrays[a].seq
  if x.inv.isNone then s.modSeq a fun y => { y with state := seqIdle }
  else if x.stepOpen then s.modSeq a SeqState.restart
  else if x.waitIdx < 4 then (s.modSeq a fun y => { y with state := seqWaiting }).evalWaits a
  else s.modSeq a fun y => { y with state := seqRunning }

/-- The write that SEQ_RESUME makes. -/
def State.seqResume (s : State) (a : ArrayId) : State :=
  if s.arrays[a].st = 0 ∧ s.arrays[a].seq.state = seqDebug then
    let s1 := (s.modSeq a fun x => { x with singleStep := false }).leaveHalt a
    if s1.arrays[a].seq.stepOpen then s1.wdResume a else s1
  else s

/-- SEQ_RESUME, R102. -/
def execSeqResume (a : ArrayId) (s : State) : Host.Outcome State Fault Refusal :=
  .next (s.byPf0 fun s => s.seqResume a)

/-- The write that SEQ_STEP_ONE makes. -/
def State.seqStepOne (s : State) (a : ArrayId) : State :=
  let x := s.arrays[a].seq
  if s.arrays[a].st = 0 ∧ x.state = seqDebug then
    if x.singleStep then s.modSeq a fun y => { y with state := seqRunning }
    else (s.modSeq a fun y => { y with singleStep := true }).leaveHalt a
  else s

/-- SEQ_STEP_ONE, R102: the first single step after a halt issues the instruction after STEP. -/
def execSeqStepOne (a : ArrayId) (s : State) : Host.Outcome State Fault Refusal :=
  .next (s.byPf0 fun s => s.seqStepOne a)

end Sys2Proof.Machine
end

