-- ==== Sys2Proof/Machine/Lanes.lean ====
section
/-!
DEFINITION. The vector cores' registers and arithmetic: contexts, lanes, marks, and the operations of the instruction
classes (R66 to R70, R75). The places of operands that the manual leaves to Scexel are the model's (assumption log 12).
-/

namespace Sys2Proof.Machine

/-! ## Contexts and registers, R67 -/

/-- A context's number among those of all launches, for its initial values. -/
def Ctx.born (c : Ctx) : Nat := c.birth * 1024 + c.core.val * 64 + c.idx.val

def Ctx.lane (c : Ctx) (r l : Nat) : Elem :=
  ((c.v.find? fun e => e.1 = r * 64 + l).map (·.2)).getD { bits := Config.laneInit c.born r l, mark := false }

def Ctx.sreg (c : Ctx) (r : Nat) : SReg :=
  ((c.sregs.find? fun e => e.1 = r).map (·.2)).getD { bits := Config.scalarInit c.born r, mark := false }

def Ctx.preg (c : Ctx) (r : Nat) : PReg :=
  ((c.p.find? fun e => e.1 = r).map (·.2)).getD { bits := Config.predicateInit c.born r, marks := 0 }

/-- The places in a context's registers that an atomic of a lane writes: one, or a pair's two (R73). -/
def laneKeys (dest : Nat) (wide : Bool) : List Nat :=
  if wide then [dest, (dest / 64 + 1) % 32 * 64 + dest % 64] else [dest]

def Ctx.setLane (c : Ctx) (r l : Nat) (x : Elem) : Ctx := { c with v := putEntry (r * 64 + l) x c.v }
def Ctx.setSreg (c : Ctx) (r : Nat) (x : SReg) : Ctx := { c with sregs := putEntry r x c.sregs }
def Ctx.setPreg (c : Ctx) (r : Nat) (x : PReg) : Ctx := { c with p := putEntry r x c.p }

/-- Fields of a vector instruction. -/
structure VIns where
  dest : Nat
  src1 : Nat
  src2 : Nat
  src3 : Nat
  pred : Nat
  type : Nat
  imm : Nat
  deriving DecidableEq, Repr

def vins (w : DWord) : VIns :=
  let n := w.toNat
  { dest := fld n 51 5, src1 := fld n 46 5, src2 := fld n 41 5, src3 := fld n 36 5, pred := fld n 33 3, type := fld n 31 2,
    imm := fld n 0 31 }

/-- The lanes that an instruction's predicate enables. -/
def Ctx.enabled (c : Ctx) (i : VIns) : List Nat := onBits (c.preg i.pred).bits

/-- A marked predicate bit enables a lane. -/
def Ctx.enableMarked (c : Ctx) (i : VIns) : Bool := (c.preg i.pred).bits &&& (c.preg i.pred).marks ≠ 0

/-! ## FP32 and integer operations, R69 -/

def fpAdd (a b : Word) : Word := ((fp32 a).add (fp32 b)).toFp32
def fpSub (a b : Word) : Word := ((fp32 a).add (fp32 b).neg).toFp32
def fpMul (a b : Word) : Word := ((fp32 a).mul (fp32 b)).toFp32
def fpFma (a b c : Word) : Word := (((fp32 a).mul (fp32 b)).add (fp32 c)).toFp32

/-- Signed order of two numbers; none where one is a NaN. -/
def numLt : Num → Num → Option Bool
  | .nan, _ => none
  | _, .nan => none
  | .inf a, .inf b => some (a && !b)
  | .inf a, .fin .. => some a
  | .fin .., .inf b => some (!b)
  | .fin a m e, .fin b n f => some (decide (signedAt a m e (min e f) < signedAt b n f (min e f)))

def fpMin (a b : Word) : Word :=
  match numLt (fp32 a) (fp32 b), numLt (fp32 b) (fp32 a) with
  | some true, _ => a
  | _, some true => b
  | some _, some _ => if a = b then a else Config.fpOpen a b
  | _, _ => Config.fpOpen a b

def fpMax (a b : Word) : Word :=
  match numLt (fp32 a) (fp32 b), numLt (fp32 b) (fp32 a) with
  | some true, _ => b
  | _, some true => a
  | some _, some _ => if a = b then a else Config.fpOpen a b
  | _, _ => Config.fpOpen a b

/-- Compares by IEEE 754: with a NaN they are false. -/
def fpLt (a b : Word) : Bool := numLt (fp32 a) (fp32 b) = some true
def fpEq (a b : Word) : Bool := numLt (fp32 a) (fp32 b) = some false && numLt (fp32 b) (fp32 a) = some false

def shiftBy (f : Word → Nat → Word) (a b : Word) : Word := if b.toNat < 32 then f a b.toNat else Config.shiftOpen a b

/-- R69: conversion to a narrower float format, saturating. -/
def toFloat (f : FloatFmt) (a : Word) : Word :=
  match fp32 a with
  | .nan => Config.nanConvert a
  | .inf n => BitVec.ofNat 32 (f.signed n (f.limit - 1))
  | .fin n m e => BitVec.ofNat 32 (f.signed n (min (f.roundNear m e) (f.limit - 1)))

/-- A number rounded to nearest even and held within `lo` to `hi`. -/
def toIntRange (lo hi : Int) (a : Word) : Word :=
  match fp32 a with
  | .nan => Config.nanConvert a
  | .inf n => BitVec.ofInt 32 (if n then lo else hi)
  | .fin n m e =>
    let mag : Int := if 0 ≤ e then m * 2 ^ e.toNat else rneShift m (-e).toNat
    BitVec.ofInt 32 (max lo (min hi (if n then -mag else mag)))

def fromInt (n : Nat) (a : Word) : Word := (numOfInt (signedCode n (a.toNat % 2 ^ n)) 0).toFp32

/-! ## Special functions, R69 -/

/-- The value of a finite number. -/
def ratOf : Num → Option ℚ
  | .fin n m e => some ((if n then -1 else 1) * (m : ℚ) * (2 : ℚ) ^ e)
  | _ => none

/-- The unit in the last place of an FP32 number. -/
def ulpOf (w : Word) : ℚ := (2 : ℚ) ^ (((max (fld w.toNat 23 8) 1 : Nat) : Int) - 150)

/-- R69: whether `y` lies within 2 units in its last place of the exact result of a special function on `x`; false where
the exact result is no number. Powers and roots are compared as powers of rationals. -/
def specialFits (op : VecOp) (x y : Word) : Bool :=
  match ratOf (fp32 x), ratOf (fp32 y) with
  | some a, some b =>
    let lo := b - 2 * ulpOf y
    let hi := b + 2 * ulpOf y
    (match op with
      | .recip => decide (a ≠ 0 ∧ lo ≤ 1 / a ∧ 1 / a ≤ hi)
      | .rsqrt => decide (0 < a ∧ (lo ≤ 0 ∨ lo ^ 2 * a ≤ 1) ∧ 0 ≤ hi ∧ 1 ≤ hi ^ 2 * a)
      | .exp2 => decide ((lo ≤ 0 ∨ lo ^ a.den ≤ (2 : ℚ) ^ a.num) ∧ 0 < hi ∧ (2 : ℚ) ^ a.num ≤ hi ^ a.den)
      | .log2 => decide (0 < a ∧ (2 : ℚ) ^ lo.num ≤ a ^ lo.den ∧ a ^ hi.den ≤ (2 : ℚ) ^ hi.num)
      | _ => false)
  | _, _ => false

/-- The free value where it fits; another that does where it does not; the free value where none does. -/
def special (op : VecOp) (free x : Word) : Word :=
  if specialFits op x free then free
  else (((List.range (2 ^ 32)).find? fun n => specialFits op x (BitVec.ofNat 32 n)).map (BitVec.ofNat 32)).getD free

/-- One lane of the operations that take up to three lanes and write a lane. -/
def laneOp (op : VecOp) (a b c : Word) : Option Word :=
  match op with
  | .fadd => some (fpAdd a b)
  | .fsub => some (fpSub a b)
  | .fmul => some (fpMul a b)
  | .ffma => some (fpFma a b c)
  | .fmin => some (fpMin a b)
  | .fmax => some (fpMax a b)
  | .iadd => some (a + b)
  | .isub => some (a - b)
  | .ishl => some (shiftBy (fun x n => x <<< n) a b)
  | .ishr => some (shiftBy (fun x n => x >>> n) a b)
  | .isar => some (shiftBy (fun x n => x.sshiftRight n) a b)
  | .iand => some (a &&& b)
  | .ior => some (a ||| b)
  | .ixor => some (a ^^^ b)
  | .cvtToBf16 => some (toFloat fmtBf16 a)
  | .cvtToFp16 => some (toFloat fmtFp16 a)
  | .cvtToE4m3 => some (toFloat fmtE4m3 a)
  | .cvtToE5m2 => some (toFloat fmtE5m2 a)
  | .cvtToInt32 => some (toIntRange (-2147483648) 2147483647 a)
  | .cvtToInt8 => some (toIntRange (-128) 127 a)
  | .cvtFromBf16 => some (fmtBf16.decode (a.toNat % 2 ^ 16)).toFp32
  | .cvtFromFp16 => some (fmtFp16.decode (a.toNat % 2 ^ 16)).toFp32
  | .cvtFromE4m3 => some (fmtE4m3.decode (a.toNat % 2 ^ 8)).toFp32
  | .cvtFromE5m2 => some (fmtE5m2.decode (a.toNat % 2 ^ 8)).toFp32
  | .cvtFromInt32 => some (fromInt 32 a)
  | .cvtFromInt8 => some (fromInt 8 a)
  | .exp2 => some (special .exp2 (Config.exp2 a) a)
  | .log2 => some (special .log2 (Config.log2 a) a)
  | .recip => some (special .recip (Config.recip a) a)
  | .rsqrt => some (special .rsqrt (Config.rsqrt a) a)
  | _ => none

/-- Lanes that an operation reads: one, two or three sources. -/
def sourceCount (op : VecOp) : Nat :=
  match op with
  | .ffma => 3
  | .fadd | .fsub | .fmul | .fmin | .fmax | .iadd | .isub | .ishl | .ishr | .isar | .iand | .ior | .ixor => 2
  | _ => 1

/-- A compare of two lanes. -/
def laneCmp (op : VecOp) (a b : Word) : Option Bool :=
  match op with
  | .fcmpEq => some (fpEq a b)
  | .fcmpLt => some (fpLt a b)
  | .fcmpLe => some (fpLt a b || fpEq a b)
  | .icmpEq => some (a = b)
  | .icmpLt => some (a.toInt < b.toInt)
  | _ => none

/-! ## Instructions on a context -/

/-- Every enabled lane given a value by `f`. -/
def Ctx.mapLanes (c : Ctx) (i : VIns) (f : Nat → Elem) : Ctx :=
  (c.enabled i).foldl (fun x l => x.setLane i.dest l (f l)) c

def Ctx.runLanes (c : Ctx) (op : VecOp) (i : VIns) : Ctx :=
  c.mapLanes i fun l =>
    let a := c.lane i.src1 l
    let b := c.lane i.src2 l
    let d := c.lane i.src3 l
    { bits := (laneOp op a.bits b.bits d.bits).getD 0
      mark := a.mark || (2 ≤ sourceCount op && b.mark) || (3 ≤ sourceCount op && d.mark) }

def Ctx.runCmp (c : Ctx) (op : VecOp) (i : VIns) : Ctx :=
  let r := i.dest % 8
  (c.enabled i).foldl (fun x l =>
    let a := c.lane i.src1 l
    let b := c.lane i.src2 l
    let old := x.preg r
    x.setPreg r { bits := setBit old.bits l ((laneCmp op a.bits b.bits).getD false), marks := setBit old.marks l (a.mark || b.mark) }) c

/-- A lane of the first source where the third predicate's bit is 1, of the second elsewhere. -/
def Ctx.runSelect (c : Ctx) (i : VIns) : Ctx :=
  let q := c.preg (i.src3 % 8)
  c.mapLanes i fun l =>
    let a := c.lane i.src1 l
    let b := c.lane i.src2 l
    { bits := if bit q.bits l then a.bits else b.bits, mark := a.mark || b.mark || bit q.marks l }

/-- Lanes taken from others of the same context. -/
def Ctx.runShuffle (c : Ctx) (w : DWord) (i : VIns) (all : Bool) : Ctx :=
  c.mapLanes i fun l => c.lane i.src1 (Config.shuffleLane w (if all then 0 else l) % 64)

/-- A reduction over the enabled lanes into a scalar. -/
def Ctx.runReduce (c : Ctx) (i : VIns) (f : List Word → Word) : Ctx :=
  let ls := (c.enabled i).map fun l => c.lane i.src1 l
  c.setSreg (i.dest % 16) { bits := (f (ls.map (·.bits))).setWidth 64, mark := anyMark ls }

def maxOf : List Word → Word
  | [] => 0
  | [a] => a
  | a :: b :: r => fpMax a (maxOf (b :: r))

/-! ## MX quantisation, R70 -/

def mxFmt : MxFormat → Option (FloatFmt × Int)
  | .fp4e2m1 => some (fmtE2m1, 2)
  | .fp6e2m3 => some (fmtE2m3, 2)
  | .fp6e3m2 => some (fmtE3m2, 4)
  | .fp8e4m3 => some (fmtE4m3, 8)
  | .fp8e5m2 => some (fmtE5m2, 15)
  | .mxint8 => none

def emaxOf (f : MxFormat) : Int := ((mxFmt f).map (·.2)).getD 0

/-- ⌊log2⌋ of a magnitude; none for zero. -/
def log2Of : Num → Option Int
  | .fin _ m e => if m = 0 then none else some (Nat.log2 m + e)
  | _ => none

def maxInt : List Int → Option Int
  | [] => none
  | x :: r => some ((maxInt r).elim x fun y => max x y)

/-- R70: the scale of a block; X is above 127 where a lane is infinite. -/
def mxScale (f : MxFormat) (lanes : List Word) : Nat :=
  let ns := lanes.map fp32
  if ns.any (· = .nan) then 0xFF
  else if ns.any fun n => n = .inf true || n = .inf false then 0xFE
  else match maxInt (ns.filterMap log2Of) with
    | none => 0
    | some x =>
      let y := x - emaxOf f
      if y < -127 then 0 else if 127 < y then 0xFE else (y + 127).toNat

/-- R70: an element of a block with a scale. A negative MXINT8 element saturates at -128, the largest in magnitude that
its 8 bits hold (DESIGN CHOICE, assumption log 76); an infinite lane takes the largest finite element of its sign. -/
def mxElement (f : MxFormat) (scale : Nat) (x : Word) : Nat :=
  if scale = 0xFF then 0 else
  match fp32 x with
  | .fin n m e =>
    let e2 := e - ((scale : Int) - 127)
    (match mxFmt f with
      | some (fmt, _) => fmt.signed n (min (fmt.roundNear m e2) (fmt.limit - 1))
      | none =>
        let e6 := e2 + 6
        let mag : Int := if 0 ≤ e6 then m * 2 ^ e6.toNat else rneShift m (-e6).toNat
        (BitVec.ofInt 8 (max (-128) (min 127 (if n then -mag else mag)))).toNat)
  | .inf n =>
    (match mxFmt f with
      | some (fmt, _) => fmt.signed n (fmt.limit - 1)
      | none => if n then 0x80 else 0x7F)
  | .nan => 0

/-- VMXQ on a context: elements to the destination, the block's scale to the register after it. -/
def Ctx.runVmxq (c : Ctx) (f : MxFormat) (i : VIns) : Ctx :=
  let blk := fun (l : Nat) => (List.range 32).map fun k => c.lane i.src1 (l / 32 * 32 + k)
  (c.enabled i).foldl (fun x l =>
    let b := blk l
    let sc := mxScale f (b.map (·.bits))
    let el := BitVec.ofNat 32 (mxElement f sc (c.lane i.src1 l).bits)
    (x.setLane i.dest l { bits := el, mark := anyMark b }).setLane ((i.dest + 1) % 32) l
      { bits := BitVec.ofNat 32 sc, mark := anyMark b }) c

end Sys2Proof.Machine
end

