-- ==== Sys2Proof/Machine/Vector.lean ====
section
/-!
DEFINITION. The commands of the vector cores (chapter Vector cores, threads and schedules).
-/

namespace Sys2Proof.Machine

/-! ## Issue, R66 -/

def isCtx (core : Fin 16) (idx : Fin 64) (c : Ctx) : Bool := c.core = core && c.idx = idx

def State.modCtx (s : State) (a : ArrayId) (core : Fin 16) (idx : Fin 64) (f : Ctx → Ctx) : State :=
  s.modVec a fun v => { v with ctxs := modFirst (isCtx core idx) f v.ctxs }

def VecState.codeAt (v : VecState) (pc : Nat) : CodeEntry :=
  ((v.codeStore.find? fun e => e.1 = pc).map (·.2)).getD { bits := if v.zeroed then 0 else Config.storeInit pc, mark := false }

/-- R68: the vector registers that an instruction may name: its destination, its sources, and the second register of each
pair. The manual assigns no opcodes, so every register field counts (assumption log 12). -/
def VIns.regs (i : VIns) : List Nat := [i.dest, i.src1, i.src2, i.src3].flatMap fun r => [r, (r + 1) % 32]

/-- R66, R68: a context is ready when its next instruction waits for no atomic's return value and for no tile. -/
def VecState.isReady (v : VecState) (c : Ctx) : Bool :=
  !c.ended && !c.stalled && !c.starved &&
    (c.owed = [] || (vins (v.codeAt c.pc).bits).regs.all fun r => c.owed.all fun k => k / 64 ≠ r)

/-- R66: the ready context whose turn it is: the first after the one that issued last. -/
def VecState.turn (v : VecState) (core : Fin 16) : Option Ctx :=
  (List.range 64).findSome? fun k =>
    v.ctxs.find? fun c => isCtx core (asFin 64 (v.lastIssued[core].val + 1 + k)) c && v.isReady c

/-- A context issues and changes; it goes on at its next instruction. -/
def State.vecIssued (s : State) (a : ArrayId) (c : Ctx) (f : Ctx → Ctx) : State :=
  (s.modCtx a c.core c.idx fun y => f { y with pc := y.pc + 1 }).modVec a fun v =>
    { v with lastIssued := vset v.lastIssued c.core c.idx }

def coreInfo (core : Fin 16) : BitVec 16 := BitVec.ofNat 16 (16 * core.val)

def State.vecFault (s : State) (a : ArrayId) (core : Fin 16) (code : Byte) : State := s.endStep a 2 code (coreInfo core) 1

/-- R75: a mark that reaches an address, an enable, a branch or the sequencer. -/
def State.vecPoison (s : State) (a : ArrayId) (core : Fin 16) : State := s.consumed a 1 2 0x22 (coreInfo core)

/-- The context of a core that issues next, while the array's sequencer lets its cores issue. -/
def State.toRun (s : State) (a : ArrayId) (core : Fin 16) : Option (PanelId × Ctx) :=
  let x := s.arrays[a]
  match x.panel, x.vec.turn core with
  | some p, some c =>
    if x.st ≠ 0 ∨ !(x.seq.state = seqRunning ∨ x.seq.state = seqWaiting ∨ x.seq.state = seqCommitting) then none else some (p, c)
  | _, _ => none

/-- The next instruction of a core's next context given to its meaning. -/
def State.vecStep (s : State) (a : ArrayId) (core : Fin 16) (run : PanelId → Ctx → VIns → DWord → State) : State :=
  match s.toRun a core with
  | none => s
  | some (p, c) =>
    if 16384 ≤ c.pc then s.vecFault a core 0x23
    else
      let w := s.arrays[a].vec.codeAt c.pc
      if w.mark then s.consumed a 1 0 0x17 0x41 else run p c (vins w.bits) w.bits

/-! ## Local stores, R67 -/

/-- The place of an address in a core's 256 KiB local store. The manual states no alignment and no bound: an address beyond
the store wraps, and its low two bits are ignored (DESIGN CHOICE, assumption log 76). -/
def localKey (core : Fin 16) (addr : Nat) : Nat := core.val * 65536 + addr / 4 % 65536

def VecState.localAt (v : VecState) (key : Nat) : Elem :=
  ((v.localStore.find? fun e => e.1 = key).map (·.2)).getD
    { bits := if v.zeroed then 0 else (Config.storeInit (1048576 + key)).setWidth 32, mark := false }

/-- The address that an enabled lane gives to its local store. -/
def Ctx.localAddr (c : Ctx) (i : VIns) (l : Nat) : Nat := (c.lane i.src1 l).bits.toNat + i.imm

/-- A mark on an address lane or on the predicate bit that enables it. -/
def Ctx.addressMarked (c : Ctx) (i : VIns) : Bool :=
  c.enableMarked i || (c.enabled i).any fun l => (c.lane i.src1 l).mark

def State.localLoad (s : State) (a : ArrayId) (core : Fin 16) (c : Ctx) (i : VIns) : State :=
  if (c.enabled i).any fun l => (c.lane i.src1 l).mark then s.vecPoison a core
  else
    let v := s.arrays[a].vec
    s.vecIssued a c fun y => y.mapLanes i fun l => v.localAt (localKey core (c.localAddr i l))

def State.localStore (s : State) (a : ArrayId) (core : Fin 16) (c : Ctx) (i : VIns) : State :=
  if c.addressMarked i then s.vecPoison a core
  else (s.vecIssued a c id).modVec a fun v => { v with
    localStore := (c.enabled i).foldl (fun m l => putEntry (localKey core (c.localAddr i l)) (c.lane i.src2 l) m) v.localStore }

/-- A branch of a whole context, on a scalar or on a reduction of a predicate register. -/
def State.vecBranch (s : State) (a : ArrayId) (core : Fin 16) (c : Ctx) (i : VIns) : State :=
  let sc := c.sreg (i.src1 % 16)
  let q := c.preg (i.src1 % 8)
  let marked := if i.type % 2 = 0 then sc.mark else q.marks ≠ 0
  let taken := if i.type % 2 = 0 then sc.bits ≠ 0 else q.bits ≠ 0
  if marked then s.vecPoison a core
  else s.vecIssued a c fun y => if taken then { y with pc := i.imm } else y

/-- VECTOR_ISSUE, R66, R68, R69, R75. -/
def execVectorIssue (a : ArrayId) (core : Fin 16) (op : VecOp) (s : State) : Host.Outcome State Fault Refusal :=
  .next (s.vecStep a core fun _ c i w =>
    match op with
    | .undefinedOp => s.vecFault a core 0x23
    | .fcmpEq | .fcmpLt | .fcmpLe | .icmpEq | .icmpLt => s.vecIssued a c fun y => y.runCmp op i
    | .select => s.vecIssued a c fun y => y.runSelect i
    | .shuffle => s.vecIssued a c fun y => y.runShuffle w i false
    | .broadcast => s.vecIssued a c fun y => y.runShuffle w i true
    | .reduceAdd => s.vecIssued a c fun y => y.runReduce i Config.reduceAdd
    | .reduceMax => s.vecIssued a c fun y => y.runReduce i maxOf
    | .localLoad => s.localLoad a core c i
    | .localStore => s.localStore a core c i
    | .branch => s.vecBranch a core c i
    | .toSequencer => if (c.sreg (i.src1 % 16)).mark then s.vecPoison a core else s.vecIssued a c id
    | .endContext => (s.vecIssued a c id).modVec a fun v => { v with ctxs := v.ctxs.filter fun y => !isCtx c.core c.idx y }
    | _ => s.vecIssued a c fun y => y.runLanes op i)

/-! ## The vector memory port, R71, R72, R75 -/

/-- The scalar and signed offset that a memory instruction's address starts from. -/
def Ctx.memBase (c : Ctx) (i : VIns) : SReg := c.sreg (i.imm / 2 ^ 27 % 16)
def Ctx.memStart (c : Ctx) (i : VIns) : BitVec 55 :=
  ((c.memBase i).bits + BitVec.ofInt 64 (signedCode 27 (i.imm % 2 ^ 27))).setWidth 55

/-- The address of a lane, in a contiguous access or through the first source. -/
def Ctx.laneVa (c : Ctx) (i : VIns) (indexed : Bool) (l : Nat) : BitVec 55 :=
  c.memStart i + (if indexed then (c.lane i.src1 l).bits.setWidth 55 else BitVec.ofNat 55 (4 * l))

/-- R75: a mark on the address of a memory instruction. -/
def Ctx.memMarked (c : Ctx) (i : VIns) (indexed : Bool) : Bool :=
  (c.memBase i).mark || (indexed && (c.enabled i).any fun l => (c.lane i.src1 l).mark)

/-- A context stalls on a translation fault (R169). -/
def State.stallCtx (s : State) (a : ArrayId) (p : PanelId) (c : Ctx) (f : VaFault) (midtile : Bool) : State :=
  (s.modCtx a c.core c.idx fun y => { y with stalled := true }).stall a p
    (s.arrayKey a 1 (BitVec.ofNat 13 (c.core.val * 64 + c.idx.val))) f midtile

/-- Code words read one by one, each with its address. -/
def State.readWords (s : State) (e : Eng) : List (BitVec 55) → Except VaFault (List (BitVec 55 × CodeWord)) × State
  | [] => (.ok [], s)
  | va :: vas =>
    match s.readVa e .read va with
    | (.error f, s1) => (.error f, s1)
    | (.ok r, s1) =>
      match State.readWords s1 e vas with
      | (.error f, s2) => (.error f, s2)
      | (.ok ws, s2) => (.ok ((va, r.word) :: ws), s2)

/-- R75: the 4 bytes of a lane, marked as their code word is. -/
def laneFrom (ws : List (BitVec 55 × CodeWord)) (va : BitVec 55) : Elem :=
  let w := ((ws.find? fun x => x.1 = wordVa va).map (·.2)).getD poisonWord
  { bits := BitVec.ofNat 32 (fld w.data.toNat (8 * (va.toNat % 64)) 32), mark := w.mark }

/-- R72, R204: whether an unanswered request of a context goes to one of the code words: a later access of the context to
it waits. -/
def State.laneOwes (s : State) (a : ArrayId) (p : PanelId) (c : Ctx) (acc : Access) (vas : List (BitVec 55)) : Bool :=
  vas.any fun va =>
    match (s.translate (s.arrayAgent a 1) (.array a) p (s.tintOf a) va acc).1 with
    | .ok (.pa pa) => s.net.flight.any fun t => t.pa.toNat / 64 = pa.toNat / 64 && !t.late &&
        (match t.owner with
          | .vectorLane b core ctx _ _ _ => b = a && core = c.core && ctx = c.idx
          | .arrayStep b _ (.kernel l) => b = a && l = c.launch
          | _ => false)
    | _ => false

/-- VECTOR_LOAD, R71, R75, R168. -/
def execVectorLoad (a : ArrayId) (core : Fin 16) (gather : Bool) (s : State) : Host.Outcome State Fault Refusal :=
  .next (s.vecStep a core fun p c i _ =>
    let lanes := c.enabled i
    let e := s.vectorEng a p
    let vas := sortVas (lanes.map fun l => wordVa (c.laneVa i gather l))
    if c.memMarked i gather then s.vecPoison a core
    else if (!gather && (c.memStart i).toNat % 4 ≠ 0) || lanes.any fun l => (c.laneVa i gather l).toNat % 4 ≠ 0 then
      s.vecFault a core 0x21
    else if s.linesBusy e .read vas || s.laneOwes a p c .read vas then s
    else match s.checkVas e .read vas with
      | (some f, s1) => s1.stallCtx a p c f false
      | (none, s1) =>
        match s1.readWords e vas with
        | (.error f, s2) => s2.stallCtx a p c f true
        | (.ok ws, s2) => s2.vecIssued a c fun y => y.mapLanes i fun l => laneFrom ws (c.laneVa i gather l))

/-- What a vector store sends: the code words whose sixteen lanes are enabled. `none` where some lanes of a word are
enabled and others are not (R71). -/
def Ctx.storeWords (c : Ctx) (i : VIns) : Option (List (BitVec 55 × CodeWord)) :=
  let on := c.enabled i
  let word := fun (k : Nat) =>
    let ls := (List.range 16).map fun j => c.lane i.src1 (16 * k + j)
    (c.memStart i + BitVec.ofNat 55 (64 * k),
      ({ data := bytesWord (ls.flatMap fun x => bytesOf 4 x.bits.toNat), mark := anyMark ls } : CodeWord))
  let count := fun (k : Nat) => on.countP fun l => l / 16 = k
  if (List.range 4).any fun k => count k ≠ 0 ∧ count k ≠ 16 then none
  else some (((List.range 4).filter fun k => count k = 16).map word)

/-- Code words of a store sent one after another. -/
def State.sendWords (s : State) (e : Eng) : List (BitVec 55 × CodeWord) → SendOut × State
  | [] => (.done 0, s)
  | (va, w) :: ws =>
    match s.sendRun 2 e va [w] with
    | (.done st, s1) =>
      match State.sendWords s1 e ws with
      | (.done st2, s2) => (.done (if st = 0 then st2 else st), s2)
      | r => r
    | r => r

/-- R75, R140: a store that wrote marked words is counted and logged once, with the first of them. -/
def State.poisonStore (s : State) (a : ArrayId) (p : PanelId) (ws : List (BitVec 55 × CodeWord)) : State :=
  match ws.find? fun x => x.2.mark with
  | none => s
  | some x =>
    let e := s.vectorEng a p
    (s.countCommits a (ws.countP fun x => x.2.mark)).accessEvent 5 e.agent (s.leadsTo e .write x.1)

/-- R92: a write into a site's aperture of a step that carries ATOMIC counts as its first atomic. -/
def State.siteWrites (s : State) (a : ArrayId) (p : PanelId) (vas : List (BitVec 55)) : State :=
  if vas.any fun va => s.toSite a p va then
    s.modSeq a fun x => { x with atomicIssued := x.atomicIssued || x.atomic }
  else s

/-- VECTOR_STORE, R71, R72, R75, R140. -/
def execVectorStore (a : ArrayId) (core : Fin 16) (s : State) : Host.Outcome State Fault Refusal :=
  .next (s.vecStep a core fun p c i _ =>
    let e := (s.vectorEng a p).at (.kernel c.launch)
    if c.memMarked i false || c.enableMarked i then s.vecPoison a core
    else if (c.memStart i).toNat % 64 ≠ 0 then s.vecFault a core 0x20
    else match c.storeWords i with
      | none => s.vecFault a core 0x20
      | some ws =>
        let vas := ws.map (·.1)
        if s.linesBusy e .write vas || s.laneOwes a p c .write vas then s
        else match s.checkVas e .write vas with
          | (some f, s1) => s1.stallCtx a p c f false
          | (none, s1) =>
            match (s1.siteWrites a p vas).sendWords e ws with
            | (.fault f, s2) => s2.stallCtx a p c f true
            | (.held, _) => s
            | (.done st, s2) => ((s2.vecIssued a c id).poisonStore a p ws).writeDone a s.arrays[a].seq.stepOpen st)

/-! ## VATOM, R73 -/

def vatomOp (type : Nat) : AtomicOp := (atomicOfCode (type % 4)).getD .add32

/-- The value of a lane of a register, or of a register pair. -/
def Ctx.operand (c : Ctx) (wide : Bool) (r l : Nat) : DWord :=
  if wide then (c.lane ((r + 1) % 32) l).bits.setWidth 64 <<< 32 ||| (c.lane r l).bits.setWidth 64
  else (c.lane r l).bits.setWidth 64

def Ctx.operandMark (c : Ctx) (wide : Bool) (r l : Nat) : Bool :=
  (c.lane r l).mark || (wide && (c.lane ((r + 1) % 32) l).mark)

/-- The request of one lane. -/
def Ctx.laneAtomic (c : Ctx) (i : VIns) (l : Nat) : ReqKind :=
  let op := vatomOp i.type
  let wide := atomicSize op = 8
  .atomic op (asFin 64 ((c.laneVa i true l).toNat % 64)) (c.operand wide i.src2 l)
    (if op = .cas64 then c.operand true i.src3 l else 0)
    (c.operandMark wide i.src2 l || (op = .cas64 && c.operandMark true i.src3 l))

/-- The atomic of one lane; none while a tag is wanting. A lane that leads outside the package's network is
answered at once with a status, and its destination with the mark (assumption log 13). -/
def State.sendLane (s : State) (a : ArrayId) (p : PanelId) (c : Ctx) (i : VIns) (e : Eng) (l : Nat) : Option (BitVec 3 × State) :=
  let wide := atomicSize (vatomOp i.type) = 8
  match (s.translate e.agent e.sel p e.tint (c.laneVa i true l) .atomic).1 with
  | .ok (.pa pa) =>
    (s.inject e.agent.field e.ni e.tint (some p) pa (c.laneAtomic i l)
      (.vectorLane a c.core c.idx (i.dest * 64 + l) wide c.launch) (some (c.laneVa i true l))).map fun r =>
        (0, r.2.modCtx a c.core c.idx fun y => { y with owed := y.owed ++ laneKeys (i.dest * 64 + l) wide })
  | .ok t =>
    let bad := fun (y : Ctx) =>
      let z := y.setLane i.dest l { bits := 0, mark := true }
      if wide then z.setLane ((i.dest + 1) % 32) l { bits := 0, mark := true } else z
    some (if t = .refused then 1 else 3, (if t = .refused then s else s.hostRefused p).modCtx a c.core c.idx bad)
  | .error _ => some (0, s)

/-- The atomics of a list of lanes, in order, and the first status that is not 0; none while a tag is wanting. -/
def State.sendLanes (s : State) (a : ArrayId) (p : PanelId) (c : Ctx) (i : VIns) (e : Eng) : List Nat → Option (BitVec 3 × State)
  | [] => some (0, s)
  | l :: ls => (s.sendLane a p c i e l).bind fun r =>
      (State.sendLanes r.2 a p c i e ls).map fun x => (if r.1 = 0 then x.1 else r.1, x.2)

/-- VATOM, R73, R91, R92, R168. -/
def execVatom (a : ArrayId) (core : Fin 16) (s : State) : Host.Outcome State Fault Refusal :=
  .next (s.vecStep a core fun p c i _ =>
    let lanes := c.enabled i
    let e := s.vectorEng a p
    let size := atomicSize (vatomOp i.type)
    if c.memMarked i true || c.enableMarked i then s.vecPoison a core
    else if lanes.any fun l => (c.laneVa i true l).toNat % size ≠ 0 then s.vecFault a core 0x21
    else match s.checkVas e .atomic (sortVas (lanes.map fun l => wordVa (c.laneVa i true l))) with
      | (some f, s1) => s1.stallCtx a p c f false
      | (none, s1) =>
        let s2 := (s1.modSeq a fun x => { x with atomicIssued := x.atomicIssued || (x.atomic && lanes ≠ []) }).vecIssued a c id
        match s2.sendLanes a p c i e lanes with
        | none => s
        | some (st, s3) => s3.writeDone a s.arrays[a].seq.stepOpen st)

/-! ## VMXQ, R70 -/

/-- VMXQ, R70, R75. -/
def execVmxq (a : ArrayId) (core : Fin 16) (fmt : MxFormat) (s : State) : Host.Outcome State Fault Refusal :=
  .next (s.vecStep a core fun _ c i _ => s.vecIssued a c fun y => y.runVmxq fmt i)

/-! ## Tiles from the cubes, R74 -/

/-- The triggered launch that takes tiles: the oldest that has tiles left. -/
def VecState.taker (v : VecState) : Option Launch := v.launches.find? fun l => l.trigger && 0 < l.tilesLeft

/-- A context's number among the array's. -/
def Ctx.number (c : Ctx) : Nat := c.core.val * 64 + c.idx.val

/-- The tile that a context works on: the first in drain order that it has not ended its work on. -/
def CubeState.tileFor (x : CubeState) (c : Ctx) : Option (Fin 4) :=
  let mine := (allFin 4).filter fun i => x.exch[i].full && !decide (c.number ∈ x.exch[i].doneBy)
  mine.find? fun i => mine.all fun j => x.exch[i].order ≤ x.exch[j].order

/-- An element of a tile in row-major order of its 96 columns; a place outside the valid rows and columns holds a free
value. -/
def tileElem (t : Tile) (draw k : Nat) : Elem :=
  match (t[k / 96]?).bind fun r => r[k % 96]? with
  | some e => e
  | none => { bits := Config.laneInit draw 96 k, mark := false }

/-- R66: a context whose VTX finds no tile is not ready until the exchange buffer changes. -/
def State.starve (s : State) (a : ArrayId) (c : Ctx) : State :=
  s.modCtx a c.core c.idx fun y => { y with starved := true }

/-- VTX, R74, R75. -/
def execVtx (a : ArrayId) (core : Fin 16) (s : State) : Host.Outcome State Fault Refusal :=
  .next (s.vecStep a core fun _ c i _ =>
    let x := s.arrays[a]
    let sc := c.sreg (i.src1 % 16)
    match x.cube.tileFor c with
    | none => s.starve a c
    | some k =>
      if (x.vec.taker.map (·.serial)) ≠ some c.launch then s.starve a c
      else if sc.mark then s.vecPoison a core
      else
        let first := sc.bits.toNat + i.imm
        (s.vecIssued a c fun y => y.mapLanes i fun l => tileElem x.cube.exch[k].tile s.draws (first + l)).drawn)

/-- VTXDONE, R74. -/
def execVtxdone (a : ArrayId) (core : Fin 16) (s : State) : Host.Outcome State Fault Refusal :=
  .next (s.vecStep a core fun _ c _ _ =>
    let x := s.arrays[a]
    match x.cube.tileFor c, x.vec.taker with
    | some k, some l =>
      if l.serial ≠ c.launch then s
      else
        let done := x.cube.exch[k].doneBy ++ [c.number]
        let s1 := s.vecIssued a c id
        if l.contexts ≤ done.length then
          ((s1.modCube a fun y => { y with exch := vset y.exch k {} }).modVec a fun v =>
            { v with launches := modFirst (fun m => m.serial = l.serial) (fun m => { m with tilesLeft := m.tilesLeft - 1 }) v.launches }).feed a
        else s1.modCube a fun y => { y with exch := vmod y.exch k fun t => { t with doneBy := done } }
    | _, _ => s)

/-- KERNEL_RETIRE, R72, R74, R76, R87. -/
def execKernelRetire (a : ArrayId) (launch : Nat) (s : State) : Host.Outcome State Fault Refusal :=
  .next (
    let v := s.arrays[a].vec
    match v.launches.find? fun l => l.serial = launch with
    | none => s
    | some l =>
      if l.tilesLeft = 0 ∧ (v.ctxs.all fun c => c.launch ≠ launch) ∧ !s.workOwes a (.kernel launch) then
        let s1 := s.modVec a fun x => { x with launches := x.launches.filter fun m => m.serial ≠ launch }
        (s1.progress a).insRetired a opVlaunch l.pc
      else s)

end Sys2Proof.Machine
end

