-- ==== Sys2Proof/Machine/Queues.lean ====
section
/-!
DEFINITION. Submission and completion queues: doorbells, fetching, taking commands, and writing completions (chapter
Host ports, R281 to R289).
-/

namespace Sys2Proof.Machine

/-! ## Access to a VF page, R271, R273, R274, R294, R361 -/

def State.vf (s : State) (p : PortId) (v : VfId) : VfState := s.ports[p].vfs[v]

/-- Whether memory requests to the BARs of a VF are accepted. -/
def State.vfLive (s : State) (p : PortId) (v : VfId) : Bool :=
  let x := s.ports[p]
  s.portReady p && x.vfEnable && decide (v.val < x.numVfs.toNat) && !x.vfs[v].d3hot && !x.vfs[v].resetting &&
    s.ras.pkgFault.isNone

/-- R323: whether the VF's panel is in dust sheet. -/
def State.vfDust (s : State) (p : PortId) (v : VfId) : Bool := (s.vf p v).bound.any s.inDust

/-- A write to a VF page's register: dropped and logged where the VF takes no requests, discarded where it is unbound. -/
def State.pageWrite (s : State) (p : PortId) (v : VfId) (f : State → State) : State :=
  if !s.vfLive p v || s.vfDust p v then s.noteHost p 0 else if (s.vf p v).bound.isNone then s else f s

/-! ## Sizes and holds -/

def QueueState.sqSize (x : QueueState) : Nat := 2 ^ x.sqLog.toNat
def QueueState.cqSize (x : QueueState) : Nat := 2 ^ x.cqLog.toNat

/-- R287: a full CQ has its tail one entry behind its head. -/
def QueueState.cqFull (x : QueueState) : Bool := (x.cqTail.toNat + 1) % x.cqSize = x.cqHead.toNat

/-- R384, R387: the queues of a shadow that has not been promoted, and of a fenced primary, are held. -/
def State.twinHeld (s : State) (p : PanelId) : Bool :=
  (s.pnl.panels[p].twin).any fun b =>
    let x := s.twin.bindings[b]
    (x.role = 2 && x.state ≠ 8) || x.state = 7 || x.fencing

/-- R293, R294, R320: the queues of a panel that awaits admission, or whose fetch has been stopped, are held. -/
def State.panelHeld (s : State) (p : PanelId) : Bool := s.pnl.panels[p].state = 2 || s.pnl.panels[p].ring.stopped

def State.queuesHeld (s : State) (q : QRef) : Bool :=
  (s.vf q.port q.vf).resetting || (s.qPanel q).any (fun p => s.twinHeld p || s.panelHeld p) || s.ras.pkgFault.isSome

/-- R279, R425: whether the VF may send requests to the host. -/
def State.maySend (s : State) (q : QRef) : Bool := (s.vf q.port q.vf).bme && s.ports[q.port].l0

def State.modQ (s : State) (q : QRef) (f : QueueState → QueueState) : State := s.modQueue q.port q.vf q.q f

/-! ## Fetching, R283, R289 -/

/-- A read of host memory sent on a port. -/
def State.issueRead (s : State) (p : PortId) (v : Option VfId) (use : ReadUse) (addr : DWord) (len : Nat) : State :=
  let n := s.ports[p].nextRead
  (s.emit (.hostRead p v n addr len)).modPort p fun x =>
    { x with reads := x.reads ++ [{ serial := n, use := use }], nextRead := n + 1 }

def State.readEntry (s : State) (q : QRef) (index : BitVec 12) : State :=
  s.issueRead q.port (some q.vf) (.command q index) ((s.queue q).sqBase + BitVec.ofNat 64 (128 * index.toNat)) 128

/-- R270: a port has up to 4,096 requests outstanding. -/
def State.mayRead (s : State) (p : PortId) : Bool := decide (s.ports[p].reads.length < 4096)

/-- The next entry read ahead, when there is one to read. -/
def State.fetchOne (s : State) (q : QRef) : State :=
  let x := s.queue q
  let next := BitVec.ofNat 12 ((x.sqHead.toNat + x.ahead.length) % x.sqSize)
  if x.enable && !s.queuesHeld q && s.maySend q && s.mayRead q.port && decide (x.ahead.length < 8) && next ≠ x.sqTail then
    (s.modQ q fun y => { y with ahead := y.ahead ++ [{ index := next, entry := .reading 0 }] }).readEntry q next
  else s

/-- R283: entries from the head up to the tail are read, up to eight of them. -/
def State.fetchAhead (s : State) (q : QRef) : State := (List.range 8).foldl (fun t _ => t.fetchOne q) s

def State.vfQueues (p : PortId) (v : VfId) : List QRef := (allFin 16).map fun q => { port := p, vf := v, q := q }

/-- Fetching goes on in every queue of a VF. -/
def State.fetchVf (s : State) (p : PortId) (v : VfId) : State := (State.vfQueues p v).foldl State.fetchAhead s

/-- R285, R289: what an entry's read came to; the third failure is final. -/
def entryRead (tries : Nat) : HostRead → Fetched
  | .ok bs => .ready (BitVec.ofNat 1024 (natOf (bs.take 128)))
  | .poisoned bs => if 2 ≤ tries then .bad (BitVec.ofNat 32 (natOf ((bs.drop 4).take 4))) else .reading (tries + 1)
  | .error => if 2 ≤ tries then .bad 0 else .reading (tries + 1)
  | .silent => if 2 ≤ tries then .bad 0 else .reading (tries + 1)

def Ahead.readDone (x : Ahead) (r : HostRead) : Ahead :=
  match x.entry with
  | .reading n => { x with entry := entryRead n r }
  | _ => x

/-- R289: an error completion, and a read that was not answered, are logged. -/
def State.noteRead (s : State) (p : PortId) : HostRead → State
  | .ok _ => s
  | .poisoned _ => s
  | .error => s.noteHost p 3
  | .silent => s.noteHost p 3

def State.commandRead (s : State) (q : QRef) (index : BitVec 12) (r : HostRead) : State :=
  (s.noteRead q.port r).modQ q fun x => { x with ahead := modFirst (fun y => y.index = index) (fun y => y.readDone r) x.ahead }

/-- Whether an entry's read is in flight. -/
def State.entryInFlight (s : State) (q : QRef) (index : BitVec 12) : Bool :=
  s.ports[q.port].reads.any fun r => r.use = .command q index

/-- COMMAND_READ_RETRY, R289. -/
def execCommandReadRetry (port : PortId) (v : VfId) (q : QueueId) (s : State) : Host.Outcome State Fault Refusal :=
  .next (
    let r : QRef := { port := port, vf := v, q := q }
    let due := fun (y : Ahead) => (match y.entry with
      | .reading n => decide (0 < n)
      | _ => false) && !s.entryInFlight r y.index
    match (s.queue r).ahead.find? due with
    | some y => if s.queuesHeld r || !s.maySend r || !s.mayRead port then s else s.readEntry r y.index
    | none => s)

/-! ## Doorbells and enabling, R282, R283 -/

/-- The write that SQ_TAIL makes. -/
def State.sqTailWrite (s : State) (port : PortId) (v : VfId) (q : QueueId) (value : Word) : State :=
  let r : QRef := { port := port, vf := v, q := q }
  let x := s.queue r
  let t : BitVec 12 := value.setWidth 12
  if x.sqSize ≤ t.toNat then s.noteHost port 0
  else (s.modQ r fun y => { y with sqTail := t }).fetchAhead r

/-- SQ_TAIL, R283, R384. -/
def execSqTail (port : PortId) (v : VfId) (q : QueueId) (value : Word) (s : State) : Host.Outcome State Fault Refusal :=
  .next (s.pageWrite port v fun s => s.sqTailWrite port v q value)

/-- The write that CQ_HEAD makes. -/
def State.cqHeadWrite (s : State) (port : PortId) (v : VfId) (q : QueueId) (value : Word) : State :=
  let r : QRef := { port := port, vf := v, q := q }
  let x := s.queue r
  let t : BitVec 12 := value.setWidth 12
  if x.cqSize ≤ t.toNat then s.noteHost port 0 else s.modQ r fun y => { y with cqHead := t }

/-- CQ_HEAD, R283, R287. -/
def execCqHead (port : PortId) (v : VfId) (q : QueueId) (value : Word) (s : State) : Host.Outcome State Fault Refusal :=
  .next (s.pageWrite port v fun s => s.cqHeadWrite port v q value)

/-- R296: the fields of a Q_CONFIG write. -/
def QueueState.configure (x : QueueState) (value : Word) : QueueState :=
  let ok := fun (n : Nat) => 4 ≤ n ∧ n ≤ 12
  { x with
    irq := bit value 13
    vector := slice value 12 8
    cqLog := if ok (fld value.toNat 4 4) then slice value 7 4 else x.cqLog
    sqLog := if ok (fld value.toNat 0 4) then slice value 3 0 else x.sqLog }

/-- R282: a queue as a write of ENABLE = 1 leaves it. -/
def QueueState.start (x : QueueState) : QueueState :=
  { x with enable := true, sqHead := 0, sqTail := 0, cqTail := 0, cqHead := 0, expected := x.seqReg, phase := true, hist := [] }

/-- The write that QUEUE_ENABLE makes. -/
def State.queueEnable (s : State) (port : PortId) (v : VfId) (q : QueueId) (value : Word) : State :=
  s.modQueue port v q fun x => if x.enable || !bit value 31 then x else (x.configure value).start

/-- QUEUE_ENABLE, R282: a write of ENABLE = 1; while ENABLE is 1 it changes nothing. -/
def execQueueEnable (port : PortId) (v : VfId) (q : QueueId) (value : Word) (s : State) : Host.Outcome State Fault Refusal :=
  .next (s.pageWrite port v fun s => s.queueEnable port v q value)

/-! ## Completions, R285 to R287, R382 -/

/-- R286: a completion as it is written. -/
def completionBytes (q : QueueId) (phase : Bool) (c : Completion) : List Byte :=
  bytesOf 32 (packWords
    [BitVec.ofNat 32 (flag phase 31 + flag c.dup 30 + q.val * 2 ^ 24 + c.sqHead.toNat * 2 ^ 12 + c.cstatus.toNat),
     c.seq, BitVec.ofNat 32 c.istatus.toNat, c.poisonCommits, c.user.setWidth 32, (c.user >>> 32).setWidth 32, c.elapsed,
     BitVec.ofNat 32 (c.faultCode.toNat * 2 ^ 16 + c.faultArray.toNat)])

/-- The completion of a command that has done nothing yet. -/
def Taken.base (t : Taken) : Completion :=
  { sqHead := t.sqHead, seq := wordOf t.bits 1, user := BitVec.ofNat 64 (fld t.bits.toNat 64 64) }

/-- The newest history entry of a sequence number takes its completion. -/
def histSet (c : Completion) (l : List HistEntry) : List HistEntry :=
  (modFirst (fun e => e.seq = c.seq && e.comp.isNone) (fun e => { e with comp := some c }) l.reverse).reverse

/-- R285: an accepted command enters the history of the last 256. -/
def histAdd (e : HistEntry) (l : List HistEntry) : List HistEntry := (l ++ [e]).drop ((l.length + 1) - 256)

/-- A taken command has completed; its completion waits to be written. -/
def State.finishCmd (s : State) (q : QRef) (c : Completion) (epoch : Option Nat) : State :=
  let drop := (s.taken q).any (·.noCompletion)
  (s.modQ q fun x => { x with
    taken := none, stopping := false, hist := histSet c x.hist
    comps := if drop then x.comps else x.comps ++ [{ comp := c, epoch := epoch }] }).fetchAhead q

/-- R385, R386: completions of a panel's VF held for epochs that `p` names are released. -/
def State.releaseComps (s : State) (port : PortId) (v : VfId) (p : Nat → Bool) : State :=
  s.modVf port v fun x => { x with queues := x.queues.map fun y => { y with
    comps := y.comps.map fun c => if c.epoch.any p then { c with epoch := none } else c } }

/-- Where a duplicate's completion goes: directly after its original's while that one waits, and at the end otherwise. -/
def placeDup (c : Completion) : List PendingComp → List PendingComp
  | [] => [{ comp := c, epoch := none }]
  | x :: xs =>
    if x.comp.seq = c.seq ∧ xs.all fun y => y.comp.seq ≠ c.seq then x :: { comp := c, epoch := x.epoch } :: xs
    else x :: placeDup c xs

/-- R288: ABORT commands of the VF whose target's completion has been written complete. -/
def State.abortsDone (s : State) (q : QRef) (seq : Word) : State :=
  (State.vfQueues q.port q.vf).foldl (fun t r =>
    match t.taken r with
    | some x =>
      if wordOf x.bits 0 >>> 24 = 2 ∧ x.phase = .waiting ∧ fld x.bits.toNat 288 4 = q.q.val ∧ wordOf x.bits 10 = seq then
        t.finishCmd r x.base none
      else t
    | none => t) s

/-- COMPLETION_WRITE, R286, R287, R281, R425: the oldest completion, unless it is held. -/
def execCompletionWrite (port : PortId) (v : VfId) (q : QueueId) (s : State) : Host.Outcome State Fault Refusal :=
  .next (
    let r : QRef := { port := port, vf := v, q := q }
    let x := s.queue r
    match x.comps with
    | [] => s
    | c :: rest =>
      if c.epoch.isSome || x.cqFull || !s.maySend r || (s.vf port v).resetting then s
      else
        let last := x.cqTail.toNat + 1 = x.cqSize
        let s1 := s.emit (.hostWrite port (some v) (x.cqBase + BitVec.ofNat 64 (32 * x.cqTail.toNat)) (completionBytes q x.phase c.comp))
        let s2 := s1.modQ r fun y => { y with
          comps := rest, cqTail := BitVec.ofNat 12 ((y.cqTail.toNat + 1) % y.cqSize), phase := y.phase != last }
        let s3 := if x.irq then s2.raiseMsix port v x.vector else s2
        if c.comp.dup then s3 else s3.abortsDone r c.comp.seq)

/-! ## Taking a command, R283 to R285 -/

abbrev opInvoke : Nat := 1
abbrev opAbort : Nat := 2
abbrev opNopCmd : Nat := 3

def cmdOp (b : BitVec 1024) : Nat := fld b.toNat 24 8

def anyBits (b : BitVec 1024) (lo n : Nat) : Bool := fld b.toNat lo n ≠ 0

/-- R285: the CSTATUS that an accepted command is rejected with. -/
def commandBad (b : BitVec 1024) (open_ : Bool) : Option Byte :=
  let op := cmdOp b
  let tint := anyBits b 19 5
  let inv := anyBits b 128 160
  let abort := anyBits b 288 4 || anyBits b 320 32
  if anyBits b 0 19 || anyBits b 292 28 || anyBits b 352 672 then some 3
  else if op ≠ opInvoke ∧ op ≠ opAbort ∧ op ≠ opNopCmd then some 1
  else if op = opInvoke ∧ (abort || anyBits b 183 9 || anyBits b 247 9) then some 3
  else if op = opAbort ∧ (tint || inv) then some 3
  else if op = opNopCmd ∧ (tint || inv || abort) then some 3
  else if !open_ then some 5 else none

/-- What taking the entry at the head comes to: the queue after it. `free` tells that the VF is bound and its panel out of
dust sheet; `order` numbers the commands of the panel as they are taken. -/
def QueueState.take (x : QueueState) (e : Fetched) (free : Bool) (order : Nat) : QueueState :=
  let head := BitVec.ofNat 12 ((x.sqHead.toNat + 1) % x.sqSize)
  let y := { x with sqHead := head, ahead := x.ahead.drop 1 }
  match e with
  | .reading _ => x
  | .bad w =>
    let c : Completion := { sqHead := head, cstatus := 4, seq := w }
    { y with rejects := satAdd y.rejects 1, comps := y.comps ++ [{ comp := c, epoch := none }] }
  | .ready b =>
    let t : Taken := { bits := b, sqHead := head, order := order }
    let seq := wordOf b 1
    let past := (x.expected - seq).toNat
    if past = 0 then
      match commandBad b free with
      | some st =>
        let c := { t.base with cstatus := st }
        { y with expected := y.expected + 1, rejects := satAdd y.rejects 1, hist := histAdd { seq := seq, comp := some c } y.hist
                 comps := y.comps ++ [{ comp := c, epoch := none }] }
      | none =>
        { y with expected := y.expected + 1, hist := histAdd { seq := seq, comp := none } y.hist, taken := some t }
    else
      match (if past ≤ 256 then (x.hist.find? fun h => h.seq = seq).bind (·.comp) else none) with
      | some c =>
        let d := { c with dup := true, sqHead := head }
        { y with dups := satAdd y.dups 1, comps := placeDup d y.comps }
      | none =>
        let c := { t.base with cstatus := 2 }
        { y with rejects := satAdd y.rejects 1, comps := y.comps ++ [{ comp := c, epoch := none }] }

/-- R283, R287: whether the entry at the head may be taken: the command before it has completed, and no completion waits
for ring space. -/
def QueueState.mayTake (x : QueueState) : Bool :=
  x.enable && x.taken.isNone && (match x.comps with
    | [] => true
    | c :: _ => c.epoch.isSome)

/-- Whether a VF is bound, to a panel that is not in dust sheet. -/
def State.vfOpen (s : State) (p : PortId) (v : VfId) : Bool :=
  match (s.vf p v).bound with
  | some q => !s.inDust q
  | none => false

/-- COMMAND_TAKE, R283 to R285. -/
def execCommandTake (port : PortId) (v : VfId) (q : QueueId) (s : State) : Host.Outcome State Fault Refusal :=
  .next (
    let r : QRef := { port := port, vf := v, q := q }
    let x := s.queue r
    match x.ahead.head? with
    | none => s
    | some e =>
      if !x.mayTake || s.queuesHeld r then s
      else
        let order := ((s.qPanel r).map fun p => s.pnl.panels[p].nextOrder).getD 0
        let s1 := match s.qPanel r with
          | some p => s.modPanel p fun y => { y with nextOrder := y.nextOrder + 1 }
          | none => s
        (s1.modQ r fun y => y.take e.entry (s.vfOpen port v) order).fetchAhead r)

end Sys2Proof.Machine
end

