-- ==== Sys2Proof/Machine/Invoke.lean ====
section
/-!
DEFINITION. Operator invocations: the commands of R94 to R99, ABORT and NOP (R285, R288), and the disabling of a queue.
-/

namespace Sys2Proof.Machine

/-! ## Reads made for a host port, R215, R424 -/

/-- A host port as an engine: its aperture path, its NI, and no cache of its own. -/
def portEng (p : PortId) (panel : PanelId) (tint : TintId) : Eng :=
  { agent := { kind := 4, id := BitVec.ofNat 16 p.val, panel := some panel, field := fieldOfPort p }
    sel := .aperture p, panel := panel, tint := tint, ni := 20, cache := none, owner := .none }

/-- R215, R223: addresses that an access must wait for: a coherent line, or a request that is held. -/
def State.plainBusy (s : State) (e : Eng) (acc : Access) (vas : List (BitVec 55)) : Bool :=
  vas.any fun va =>
    match (s.translate e.agent e.sel e.panel e.tint va acc).1 with
    | .ok (.pa pa) =>
      (s.coherentAt pa && (match e.cache with
        | none => s.lineBlocked pa
        | some a => s.mustWait a pa)) || (!paPartner pa && decide (paSpace pa < 4) && s.paHeld pa (acc = .write))
    | _ => false

/-- R215: a code word read where a translation leads: a coherent one, by an engine without a cache, through its home. -/
def State.readPlain (s : State) (e : Eng) (t : Target) : Reply × State :=
  match t with
  | .pa pa =>
    if s.coherentAt pa && e.cache.isNone then s.cohReadPlain e.src e.panel e.tint pa else s.readPa e pa
  | t => s.readTarget e t

def State.readPlainVas (s : State) (e : Eng) (acc : Access) : List (BitVec 55) → Except VaFault (List Reply) × State
  | [] => (.ok [], s)
  | va :: vas =>
    match s.translate e.agent e.sel e.panel e.tint va acc with
    | (.error f, s1) => (.error { fault := f, va := va, access := acc }, s1)
    | (.ok t, s1) =>
      let r := s1.readPlain e t
      match State.readPlainVas r.2 e acc vas with
      | (.error f, s2) => (.error f, s2)
      | (.ok rs, s2) => (.ok (r.1 :: rs), s2)

/-- R177: the record of a fault that stalls nothing. -/
def State.plainFault (s : State) (p : PanelId) (engine : BitVec 4) (field : FieldId) (sub : BitVec 13) (f : VaFault) : State :=
  let key : EngineKey := { engine := engine, field := BitVec.ofNat 3 field.val, logical := 0x3F, phys := 0x3F, sub := sub }
  s.arrive p (s.faultInfo key f.fault f.access f.va 0 false false)

/-! ## Completing a command -/

/-- R286: µs between two counts of SCLK (93.75 MHz), held at the highest value. -/
def elapsedUs (from_ to_ : Nat) : Word := BitVec.ofNat 32 (min ((to_ - from_) * 4 / 375) 0xFFFFFFFF)

/-- R382, R383: a mark enters the mirror queue of a binding's port, behind every word queued so far. -/
def State.queueMark (s : State) (b : BindId) (seed : Bool) (epoch : Nat) : State :=
  (s.modBind b fun y => { y with
      marks := y.marks ++ [(epoch, y.pendingWords - (y.marks.map Prod.snd).sum)] }).modTwinPort s.twin.bindings[b].port
    fun t => { t with queue := t.queue ++ [.mark b seed false epoch] }

/-- R382, R385: the epoch that a completed invocation closes, and that holds its completion. -/
def State.closeEpoch (s : State) (p : PanelId) : Option Nat × State :=
  match s.pnl.panels[p].twin with
  | none => (none, s)
  | some b =>
    let x := s.twin.bindings[b]
    if x.role ≠ 1 ∨ (x.state ≠ 4 ∧ x.state ≠ 5) then (none, s)
    else if x.state = 4 then
      (some x.nextEpoch, (s.modBind b fun y => { y with nextEpoch := y.nextEpoch + 1 }).queueMark b false x.nextEpoch)
    else (some x.nextEpoch, s.modBind b fun y => { y with nextEpoch := y.nextEpoch + 1 })

/-- R97, R286: an invocation completes with a status. -/
def State.finishInv (s : State) (q : QRef) (status : Byte) : State :=
  match s.taken q with
  | none => s
  | some t =>
    let c := { t.base with
      istatus := status, poisonCommits := t.poisonCommits
      elapsed := (t.started.map fun n => elapsedUs n s.sclk).getD 0
      faultCode := if status = 1 then t.faultCode else 0
      faultArray := if status = 1 then t.faultArray else 0 }
    match t.started, s.qPanel q with
    | some _, some p =>
      let r := s.closeEpoch p
      r.2.finishCmd q c r.1
    | _, _ => s.finishCmd q c none

/-! ## INVOKE, R94, R95 -/

/-- The arrays of ARRAY_MASK, ascending. -/
def maskArrays (d : BitVec 1024) : List (Fin 40) := (allFin 40).filter fun n => bit d (32 + n.val)

/-- R95 case 4. -/
def opdescBad (d : BitVec 1024) : Bool :=
  fld d.toNat 16 16 ≠ 1 || anyBits d 4 4 || anyBits d 72 24 || anyBits d 136 24 || anyBits d 215 9 || anyBits d 224 800

/-- R95 case 7: whether a panel's binding slot is bound to an engine in service. -/
def State.engineSlot (s : State) (p : PanelId) (b : Fin 8) : Bool :=
  match s.pnl.panels[p].slots[b] with
  | none => false
  | some (n, tag) =>
    s.sites[n].ready && !s.isolated n 16 &&
      s.sites[n].bindings.any fun x => x.tag = tag && x.panel = p && decide (x.target.toNat < 8) && x.phase = .bound

/-- R95 cases 4 to 8: the status that ends an invocation with this operator descriptor. -/
def State.opdescStatus (s : State) (p : PanelId) (d : BitVec 1024) : Option Byte :=
  let x := s.pnl.panels[p]
  let arrays := maskArrays d
  if opdescBad d then some 7
  else if arrays = [] ∨ arrays.any (fun n => decide (x.arrays.length ≤ n.val)) then some 7
  else if arrays.any fun n => bit d (96 + n.val) ≠ bit x.modes n.val then some 7
  else if (allFin 8).any fun b => bit d (8 + b.val) && !s.engineSlot p b then some 9
  else if arrays.any fun n => (s.arrayOf p n.val).isNone then some 8 else none

/-- Status 0x02 for a type 0x5 fault, 0x07 for another. -/
def startFault (f : VaFault) : Byte := if f.fault.type = 5 then 2 else 7

/-- What a read of R95 brought: a translation fault's status, a poison mark, or the bytes. -/
inductive StartOut where
  | fault (status : Byte)
  | marked
  | bytes (bs : List Byte)
  deriving DecidableEq, Repr

/-- A read of R95. -/
def State.startRead (s : State) (e : Eng) (p : PanelId) (va : BitVec 55) (n : Nat) : StartOut × State :=
  match s.readPlainVas e .read (coverVas va n) with
  | (.error f, s1) => (.fault (startFault f), s1.plainFault p 6 e.agent.field 0 f)
  | (.ok rs, s1) =>
    let ws := rs.map (·.word)
    if markAt va 0 n ws then (.marked, s1.accessEvent 6 e.agent (s.leadsTo e .read (markedVa va ws))) else (.bytes (bytesAt va n ws), s1)

/-- The schedule table entries of the arrays named, each read whatever the others brought. -/
def State.readEntries (s : State) (e : Eng) (p : PanelId) : List (BitVec 55) → List StartOut × State
  | [] => ([], s)
  | va :: vas =>
    let r := s.startRead e p va 16
    let t := State.readEntries r.2 e p vas
    (r.1 :: t.1, t.2)

/-- R95 cases 9 to 11: the status that the entries end the invocation with, or their numbers. -/
def entriesOut (rs : List StartOut) : Except Byte (List Nat) :=
  match rs.findSome? fun r => match r with | .fault st => some st | _ => none with
  | some st => .error st
  | none =>
    if rs.any fun r => r = .marked then .error 2
    else
      let ns := rs.map fun r => match r with | .bytes bs => natOf bs | _ => 0
      if ns.any fun n => n / 2 ^ 55 ≠ 0 then .error 7 else .ok ns

/-- R215: who reads the operator descriptor and the schedule table: the array control cache of the panel's first array, under
the invocation's tint; a panel without an array reads through its port (DEDUCED, assumption log 31). -/
def State.startEng (s : State) (port : PortId) (p : PanelId) (tint : TintId) : Eng :=
  match s.pnl.panels[p].arrays.findSome? id with
  | some a => { (s.seqEng a p) with tint := tint }
  | none => portEng port p tint

/-- The command that a queue has taken, when it is of an opcode and has not been looked at yet. -/
def State.fresh (s : State) (q : QRef) (op : Nat) : Option Taken :=
  (s.taken q).filter fun t => cmdOp t.bits = op && t.phase = .accepted

/-- R94, R95: the operator descriptor is read, then the schedule table; the invocation then waits for its arrays. -/
def State.invoke (s : State) (q : QRef) (p : PanelId) (t : Taken) : State :=
  let opdesc : BitVec 55 := BitVec.ofNat 55 (fld t.bits.toNat 128 55)
  let args := fld t.bits.toNat 192 55
  let e := s.startEng q.port p (asFin 16 (fld t.bits.toNat 19 4))
  if opdesc.toNat % 128 ≠ 0 ∨ args % 64 ≠ 0 then s.finishInv q 7
  else if s.plainBusy e .read (coverVas opdesc 128) then s
  else match s.startRead e p opdesc 128 with
    | (.fault st, s1) => s1.finishInv q st
    | (.marked, s1) => s1.finishInv q 2
    | (.bytes bs, s1) =>
      let d : BitVec 1024 := BitVec.ofNat 1024 (natOf bs)
      match s1.opdescStatus p d with
      | some st => s1.finishInv q st
      | none =>
        let table : BitVec 55 := BitVec.ofNat 55 (fld d.toNat 160 55)
        let vas := (List.range (maskArrays d).length).map fun i => table + BitVec.ofNat 55 (16 * i)
        if s1.plainBusy e .read (coverVas table (16 * vas.length)) then s
        else
          let r := s1.readEntries e p vas
          match entriesOut r.1 with
          | .error st => r.2.finishInv q st
          | .ok ns => r.2.modTaken q fun y => { y with
              phase := .waiting, arrays := maskArrays d, siteMask := BitVec.ofNat 8 (fld d.toNat 8 8)
              tint := if bit t.bits 23 then asFin 16 (fld t.bits.toNat 19 4) else asFin 16 (fld d.toNat 0 4)
              entries := ns.map (BitVec.ofNat 55) }

/-- INVOKE, R94, R95, R139. -/
def execInvoke (port : PortId) (v : VfId) (q : QueueId) (s : State) : Host.Outcome State Fault Refusal :=
  .next (
    let r : QRef := { port := port, vf := v, q := q }
    match s.fresh r opInvoke, s.qPanel r with
    | some t, some p => if s.queuesHeld r then s else s.invoke r p t
    | _, _ => s)

/-! ## Start and end, R96 to R98 -/

/-- Whether an address lies in a coherent range of an array's panel. -/
def State.inOwnRange (s : State) (a : ArrayId) (pa : BitVec 52) : Bool :=
  s.arrays[a].panel.any fun p => s.pnl.panels[p].ranges.any fun r => decide (r.base ≤ pa.toNat ∧ pa.toNat < r.base + r.length)

/-- R217: the array control cache gives up its lines outside the coherent ranges of its panel. -/
def State.dropControl (s : State) (a : ArrayId) : State :=
  s.modCoh fun c => { c with caches := c.caches.filter fun x =>
    !(x.agent = asFin 96 a.val && !s.inOwnRange a (lineAddr x.line)) }

/-- R97: an array starts on an invocation. -/
def SeqState.begin (x : SeqState) (q : QRef) (args entry : BitVec 55) : SeqState :=
  { x with
    sems := Vector.replicate 64 0, argBase := args, pc := entry, inv := some q, ir := none, loops := [], savedLoops := []
    state := if x.state = seqDebug then seqDebug else seqRunning, attempt := 0, waitIdx := 4, stepOpen := false
    atomic := false, atomicIssued := false, afterStepend := false, commitSignals := [], wdRunning := false
    stalled := false, ended := false, failStatus := none }

def State.startArray (s : State) (q : QRef) (args : BitVec 55) (x : ArrayId × BitVec 55) : State :=
  ((s.dropControl x.1).modSeq x.1 fun y => y.begin q args x.2).modCube x.1 fun c =>
    { c with halted := c.halted && s.arrays[x.1].seq.state = seqDebug, pass := 0 }

/-- R96: an invocation of the same panel that was taken earlier, waits, and names one of these arrays, or whose arrays are
not known yet. -/
def State.earlierWaits (s : State) (q : QRef) (t : Taken) : Bool :=
  (State.vfQueues q.port q.vf).any fun r => (s.taken r).any fun x =>
    cmdOp x.bits = opInvoke && decide (x.order < t.order) &&
      (x.phase = .accepted || (x.phase = .waiting && x.arrays.any fun n => decide (n ∈ t.arrays)))

/-- INVOCATION_START, R96, R97, R98, R368. -/
def execInvocationStart (port : PortId) (v : VfId) (q : QueueId) (s : State) : Host.Outcome State Fault Refusal :=
  .next (
    let r : QRef := { port := port, vf := v, q := q }
    match s.taken r, s.qPanel r with
    | some t, some p =>
      let arrays := t.arrays.filterMap fun n => s.arrayOf p n.val
      if cmdOp t.bits ≠ opInvoke ∨ t.phase ≠ .waiting ∨ s.queuesHeld r ∨ s.inDust p then s
      else if arrays.length ≠ t.arrays.length then s.finishInv r 8
      else if (arrays.any fun a => s.arrays[a].seq.inv.isSome || s.arrays[a].st ≠ 0) || s.earlierWaits r t ||
          (t.siteMask &&& s.pnl.panels[p].slotHold) ≠ 0 then s
      else
        let args : BitVec 55 := BitVec.ofNat 55 (fld t.bits.toNat 192 55)
        let s1 := (arrays.zip t.entries).foldl (fun x y => x.startArray r args y) s
        s1.modTaken r fun y => { y with phase := .running, started := some s.sclk, timerOn := true }
    | _, _ => s)

/-- R97: an array of an invocation that has executed END, or has halted and drained. -/
def State.arrayOver (s : State) (t : Taken) (a : ArrayId) : Bool :=
  let x := s.arrays[a]
  let halted := (x.seq.state = seqFaulted || x.seq.state = seqHalted || x.seq.state = seqIdle) && x.cube.haltReq.isNone
  (decide (asFin 40 x.logical.toNat ∈ t.endedArrays) || (t.status.isSome && halted)) && x.cube.drainQ = [] &&
    !(x.cube.acc.any fun y => y.phase = .running)

/-- A write or signal of the invocation that is not yet answered. -/
def State.arrayWrites (s : State) (a : ArrayId) : Bool :=
  s.arrayOwes a || s.net.flight.any fun t => t.owner = .commitSignal a && !t.late

/-- An array is free of its invocation. -/
def SeqState.free (x : SeqState) : SeqState := { x with inv := none, stepOpen := false, attempt := 0 }

/-- INVOCATION_COMPLETE, R97, R140, R281, R382. -/
def execInvocationComplete (port : PortId) (v : VfId) (q : QueueId) (s : State) : Host.Outcome State Fault Refusal :=
  .next (
    let r : QRef := { port := port, vf := v, q := q }
    match s.taken r with
    | none => s
    | some t =>
      let arrays := s.invArrays r
      if !(t.phase = .running ∨ t.phase = .ending) ∨ arrays.any (fun a => !s.arrayOver t a || s.arrayWrites a) ∨
          t.former.any s.arrayWrites then s
      else
        let s1 := arrays.foldl (fun x a => x.modSeq a SeqState.free) s
        s1.finishInv r (t.status.getD 0))

/-- INVOCATION_TIMEOUT, R98. -/
def execInvocationTimeout (port : PortId) (v : VfId) (q : QueueId) (s : State) : Host.Outcome State Fault Refusal :=
  .next (
    let r : QRef := { port := port, vf := v, q := q }
    match s.taken r with
    | some t => if t.phase = .running ∧ t.timerOn then s.endInv r 5 0 none else s
    | none => s)

/-! ## ABORT, NOP and disabling, R282, R285, R288 -/

/-- A taken INVOKE is halted with status 0x06; one that has not started completes at once. -/
def State.abortInv (s : State) (q : QRef) : State :=
  match s.taken q with
  | none => s
  | some t => if t.started.isSome then s.endInv q 6 0 none else s.finishInv q 6

/-- ABORT, R288. -/
def execAbort (port : PortId) (v : VfId) (q : QueueId) (s : State) : Host.Outcome State Fault Refusal :=
  .next (
    let r : QRef := { port := port, vf := v, q := q }
    match s.fresh r opAbort with
    | none => s
    | some t =>
      let tgt : QRef := { r with q := asFin 16 (fld t.bits.toNat 288 4) }
      let found := (s.taken tgt).any fun x => cmdOp x.bits = opInvoke && wordOf x.bits 1 = wordOf t.bits 10
      if found then (s.modTaken r fun y => { y with phase := .waiting }).abortInv tgt
      else s.finishCmd r { t.base with cstatus := 6 } none)

/-- NOP_COMMAND, R285. -/
def execNopCommand (port : PortId) (v : VfId) (q : QueueId) (s : State) : Host.Outcome State Fault Refusal :=
  .next (
    let r : QRef := { port := port, vf := v, q := q }
    match s.fresh r opNopCmd with
    | some t => s.finishCmd r t.base none
    | none => s)

/-- The write that QUEUE_DISABLE makes. -/
def State.queueDisable (s : State) (port : PortId) (v : VfId) (q : QueueId) (value : Word) : State :=
  let r : QRef := { port := port, vf := v, q := q }
  let x := s.queue r
  if bit value 31 then s
  else if !x.enable then s.modQ r fun y => y.configure value
  else
    let s1 := s.modQ r fun y => { y with enable := false, ahead := [], stopping := y.taken.isSome }
    if (s.taken r).any fun t => cmdOp t.bits = opInvoke then s1.abortInv r else s1

/-- QUEUE_DISABLE, R282: a write of ENABLE = 0. While ENABLE is 0 it sets the other fields. -/
def execQueueDisable (port : PortId) (v : VfId) (q : QueueId) (value : Word) (s : State) : Host.Outcome State Fault Refusal :=
  .next (s.pageWrite port v fun s => s.queueDisable port v q value)

/-! ## Signals of site engines, R99 -/

/-- The binding behind a tag of a site; none once UNBIND has been sent (R267), or its panel's work has been stopped
(R294). -/
def State.bindingOf (s : State) (n : SiteId) (tag : Byte) : Option Binding :=
  s.sites[n].bindings.find? fun b => b.tag = tag && b.phase = .bound && !s.pnl.panels[b.panel].ring.stopped

/-- SITE_ENGINE_SIGNAL, R99, R79. -/
def execSiteEngineSignal (n : SiteId) (tag : Byte) (array : Fin 64) (sem : Fin 64) (inc : Byte) (s : State) :
    Host.Outcome State Fault Refusal :=
  .next (
    match (s.bindingOf n tag).bind fun b => s.arrayOf b.panel array.val with
    | some a => s.addSem a sem inc
    | none => s.noteSite n 0)

end Sys2Proof.Machine
end

