-- ==== Sys2Proof/Machine/Stacks.lean ====
section
/-!
DEFINITION. Stack controllers and fast-tier banks: their queues, refresh, temperature, repair, training, fences and
tests (chapter Fast tier and HBM stacks), and the conditional writes of R137.
-/

namespace Sys2Proof.Machine

/-! ## What waits where -/

/-- R185, R424: the agent behind an NI. -/
def txnAgent (t : Txn) : Agent :=
  let ni := t.id.ni.val
  let f := t.id.field
  let kind : Nat := if ni < 5 then (match t.owner with
      | .vectorLane .. => 1
      | _ => 0)
    else if ni = 16 then 3 else if ni = 17 then 8 else if ni = 20 then 4 else if ni = 21 then 5 else 15
  let num : Nat := if ni < 5 then 5 * f.val + ni else if ni = 20 ∨ ni = 21 then f.val / 4 else if kind = 15 then 0 else f.val
  { kind := BitVec.ofNat 4 kind, id := BitVec.ofNat 16 num, panel := t.panel, field := f }

/-- The raw errors that a command brings for word `i` of what it reads. -/
def flipsAt (errors : List RawError) (i : Nat) : BitVec 544 :=
  (errors.filter fun e => e.index = i).foldl (fun x e => x ^^^ e.flips) 0

/-- R155, R201: whether a read falls back to the other copy of a commons word. -/
def State.fallsBack (s : State) (pa : BitVec 52) (f : Finding) : Bool :=
  !f.good && (s.commonsAt pa).any fun c => s.pnl.commons[c.1].mirrored

/-- R126, R131, R155: a code word that a controller reads for request `id`, which it has accepted. -/
def State.readServed (s : State) (id : TxId) (g : Agent) (pa : BitVec 52) (flips : BitVec 544) : CodeWord × State :=
  match s.locate pa with
  | none => (poisonWord, s)
  | some l =>
    let r := s.readLoc l g flips true
    let s1 := if r.2.fallsBack pa r.1 then r.2.modTxn id fun t => { t with excused := true } else r.2
    s1.fallback pa l g r.1

/-- The code words of a read from word `i` of it on. -/
def State.serveWords (s : State) (id : TxId) (g : Agent) (pa : BitVec 52) (errors : List RawError) (i : Nat) :
    Nat → List CodeWord × State
  | 0 => ([], s)
  | n + 1 =>
    let r := s.readServed id g pa (flipsAt errors i)
    let t := State.serveWords r.2 id g (pa + 64) errors (i + 1) n
    (r.1 :: t.1, t.2)

/-- A read of a transaction served and answered. -/
def State.serveRead (s : State) (t : Txn) (errors : List RawError) : State :=
  match t.kind with
  | .read n =>
    let r := s.serveWords t.id (txnAgent t) (t.pa &&& ~~~63#52) errors 0 n
    r.2.answerTxn t.id 0 r.1
  | _ => s

/-! ## HBM reads, R116 -/

/-- R116: whether a read has waited 2,250 NCLK. -/
def hbmLate (now : Nat) (r : WaitingRead) : Bool := decide (2250 ≤ 16 * (now - r.arrived))

/-- The highest of a list of priorities. -/
def topPrio (l : List WaitingRead) : Nat := l.foldl (fun m r => max m r.prio) 0

/-- R116: the read that is served next; `pick` is the controller's choice within a priority. -/
def chooseRead (now pick : Nat) (l : List WaitingRead) : Option WaitingRead :=
  match l.find? (hbmLate now) with
  | some r => some r
  | none =>
    match l.find? (·.critical) with
    | some r => some r
    | none =>
      let same := l.filter fun r => r.prio = topPrio l
      match same.find? fun r => 16 ≤ r.passed with
      | some _ => same.head?
      | none => (same[pick]?).or same.head?

/-- R116: the older reads of its priority are passed by the read chosen. -/
def passOlder (r : WaitingRead) : List WaitingRead → List WaitingRead
  | [] => []
  | x :: xs => if x.id = r.id then xs else (if x.prio = r.prio ∧ pcOfKey x.key = pcOfKey r.key then
      { x with passed := x.passed + 1 } else x) :: passOlder r xs

/-- R117: whether a read waits for an access to one of its words that reached the controller earlier. -/
def State.readBehind (s : State) (id : TxId) : Bool := (s.txn id).any s.olderMeets

/-- A read that leaves its queue and is served. -/
def State.serveWaiting (s : State) (stack : StackId) (errors : List RawError) (r : WaitingRead) : State :=
  let s1 := s.modStack stack fun x => { x with readQ := passOlder r x.readQ }
  match s.txn r.id with
  | some t => s1.serveRead t errors
  | none => s1

/-- HBM_READ, R113, R116, R117, R131: the read chosen, and with it the other reads of its strip that wait. -/
def execHbmRead (stack : StackId) (pc : PcId) (pick : Nat) (errors : List RawError) (s : State) :
    Host.Outcome State Fault Refusal :=
  .next (
    let k := s.hbm[stack]
    let l := k.readQ.filter fun r => pcOfKey r.key = pc && !k.keyHeld r.key && !s.readBehind r.id
    if s.isolated (fieldOfStack stack) (niOfStack stack) then s
    else match chooseRead s.sclk pick l with
      | none => s
      | some r =>
        let same := l.filter fun x => x.id ≠ r.id && stripOfKey x.key = stripOfKey r.key
        same.foldl (fun t x => t.serveWaiting stack [] x) (s.serveWaiting stack errors r))

/-! ## HBM writes, R116, R117 -/

/-- The stack behind a location. -/
def locStack : Loc → Option StackId
  | .hbm k _ _ _ => some k
  | .ft .. => none

/-- The locations that a run of code words takes. -/
def State.locsOf (s : State) (pa : BitVec 52) (n : Nat) : List Loc :=
  (List.range n).filterMap fun i => s.locate ((pa &&& ~~~63#52) + BitVec.ofNat 52 (64 * i))

/-- R117, R137, R325, R381: a word enters the write queue of its controller. -/
def State.enqueueWrite (s : State) (stack : StackId) (pa : BitVec 52) (w : CodeWord) : State :=
  match s.locate pa with
  | none => s
  | some l =>
    let key := s.keyOf l
    let x := s.encipher pa w
    let s1 := s.modRas fun r => { r with fixes := r.fixes.filter fun f => f.key ≠ key }
    (s1.modStack stack fun k => { k with writeQ := k.writeQ ++ [{ key := key, word := x }] }).mirror pa w

def State.enqueueWrites (s : State) (stack : StackId) (pa : BitVec 52) : List CodeWord → State
  | [] => s
  | w :: ws => State.enqueueWrites (s.enqueueWrite stack pa w) stack (pa + 64) ws

/-- How many code words wait in a pseudo-channel's write queue. -/
def StackState.queuedWords (k : StackState) (pc : PcId) : Nat := k.writeQ.countP fun w => pcOfKey w.key = pc

/-- HBM_WRITE, R116, R117, R381. -/
def execHbmWrite (id : TxId) (s : State) : Host.Outcome State Fault Refusal :=
  .next (match s.txn id with
    | none => s
    | some t =>
      match t.kind, (s.locate (t.pa &&& ~~~63#52)) with
      | .write ws, some l =>
        match locStack l with
        | none => s
        | some k =>
          let x := s.hbm[k]
          let key := s.keyOf l
          if t.stage ≠ .atTarget ∨ s.locSunk l ∨ x.keyHeld key ∨ s.olderMeets t ∨ s.mirrorShort (t.pa &&& ~~~63#52) ws.length ∨
              128 < x.queuedWords (pcOfKey key) + ws.length then s
          else (s.enqueueWrites k (t.pa &&& ~~~63#52) ws).answerTxn id 0 []
      | _, _ => s)

/-- R113: the strips of queued words, the one queued first in front, and the bursts that the words of a strip take
together. -/
def strips (l : List QueuedWrite) : List Nat := (l.map fun w => stripOfKey w.key).eraseDups
def stripBursts (l : List QueuedWrite) (n : Nat) : Nat :=
  let k := min 8 ((l.filter fun w => stripOfKey w.key = n).map (·.key)).eraseDups.length
  2 * k + (if k < 8 then 2 else 1)

/-- R113, R116: strips in their order while they fit a number of bursts, each with all of its words that wait. -/
def takeStrips (l : List QueuedWrite) (room : Nat) : List Nat → List Nat
  | [] => []
  | n :: ns => if stripBursts l n ≤ room then n :: takeStrips l (room - stripBursts l n) ns else []

/-- R116: whether a queued word belongs to the next batch of at most 32 bursts. -/
def inBatch (l : List QueuedWrite) (w : QueuedWrite) : Bool := decide (stripOfKey w.key ∈ takeStrips l 32 (strips l))

/-- HBM_WRITE_DRAIN, R116. -/
def execHbmWriteDrain (stack : StackId) (pc : PcId) (s : State) : Host.Outcome State Fault Refusal :=
  .next (
    let k := s.hbm[stack]
    let mine := k.writeQ.filter fun w => pcOfKey w.key = pc
    let due := 96 ≤ mine.length ∨ !(k.readQ.any fun r => pcOfKey r.key = pc)
    if !due ∨ mine = [] ∨ (k.repairBusy ∧ pc = asFin 64 (fld k.repairReq.toNat 21 6)) then s
    else
      let s1 := s.modStack stack fun x => { x with writeQ := x.writeQ.filter fun w => pcOfKey w.key ≠ pc || !inBatch mine w }
      (mine.filter (inBatch mine)).foldl (fun t w => t.storeAt w.key (stored w.word)) s1)

/-! ## Fast-tier banks, R114, R118 -/

/-- The field and physical bank of a fast-tier number. -/
def bankOfKey (key : Nat) : Nat := (key - 2 ^ 40) / 262144 % 66

/-- R118: whether an access has waited 64 TCLK. -/
def bankLate (now : Nat) (r : BankAccess) : Bool := decide (64 ≤ 24 * (now - r.arrived))

/-- R118: the order of choice, of accesses in their order of arrival. -/
def chooseAccess (now : Nat) (l : List BankAccess) : Option BankAccess :=
  match l.find? (bankLate now) with
  | some r => some r
  | none =>
    match l.find? (·.critical) with
    | some r => some r
    | none => l.find? fun r => r.prio = l.foldl (fun m x => max m x.prio) 0

/-- R118: the accesses that no older one to the same code word holds back. -/
def freeAccesses : List BankAccess → List BankAccess → List BankAccess
  | _, [] => []
  | older, x :: xs =>
    if older.any fun y => runsMeet x.key x.count y.key y.count then freeAccesses (older ++ [x]) xs
    else x :: freeAccesses (older ++ [x]) xs

/-- Code words stored where a bank serves a write. -/
def State.putWords (s : State) (pa : BitVec 52) : List CodeWord → State
  | [] => s
  | w :: ws =>
    match s.locate pa with
    | some l => State.putWords (s.putCode pa l w) (pa + 64) ws
    | none => State.putWords s (pa + 64) ws

/-- R114: a part of a request has been served: its first word, its words, and what was read. Once every word has been,
the request is answered. -/
def State.partServed (s : State) (t : Txn) (first count : Nat) (ws : List CodeWord) : State :=
  let parts := t.parts ++ [(first, count, ws)]
  if (reqRun t.kind).getD 0 ≤ (parts.map fun x => x.2.1).sum then
    s.answerTxn t.id 0 ((List.range ((reqRun t.kind).getD 0)).flatMap fun i =>
      (parts.filter fun x => x.1 = i).flatMap fun x => x.2.2)
  else s.modTxn t.id fun x => { x with parts := parts }

/-- FAST_TIER_ACCESS, R114, R118, R131, R381: one access, within one row, for each command. -/
def execFastTierAccess (f : FieldId) (bank : BankId) (errors : List RawError) (s : State) :
    Host.Outcome State Fault Refusal :=
  .next (
    let x := s.fields[f].ft
    let mine := x.queue.filter fun r => bankOfKey r.key = x.bankMap[bank].toNat && !s.readBehind r.id
    if s.isolated f (niOfBank bank.val) then s
    else match chooseAccess s.sclk (freeAccesses [] mine) with
      | none => s
      | some r =>
        let s1 := s.modFt f fun y => { y with queue := y.queue.filter fun z => !(z.id = r.id && z.key = r.key) }
        match s.txn r.id with
        | none => s1
        | some t =>
          if r.isWrite && s.mirrorShort r.pa r.words.length then s
          else if r.isWrite then (s1.putWords r.pa r.words).partServed t r.first r.count []
          else
            let w := s1.serveWords t.id (txnAgent t) r.pa errors 0 r.count
            w.2.partServed (w.2.txnNow t) r.first r.count w.1)

/-! ## Atomics, R135, and conditional writes, R137 -/

/-- NETWORK_ATOMIC_PERFORM, R117, R118, R135, R208, R381. -/
def execNetworkAtomicPerform (id : TxId) (errors : List RawError) (s : State) : Host.Outcome State Fault Refusal :=
  .next (match s.txn id with
    | none => s
    | some t =>
      let pa := t.pa &&& ~~~63#52
      match t.kind, s.locate pa with
      | .atomic op off operand compare marked, some l =>
        if t.stage ≠ .atTarget ∨ s.coherentAt pa ∨ s.locSunk l ∨ s.olderMeets t ∨ s.locHeld l false ∨ s.mirrorShort pa 1 then s
        else
          let at_ := locNi l
          match s.dedupOf at_.1 at_.2 id with
          | some e => s.answerTxn id e.status e.data
          | none =>
            if !s.tableRoom at_.1 at_.2 id then s else
            let r := s.atomicLoc (txnAgent t) pa l op off.val operand.toNat compare.toNat marked (flipsAt errors 0)
            (r.2.remember at_.1 at_.2 id r.1.status [r.1.word]).answerTxn id r.1.status [r.1.word]
      | _, _ => s)

/-- CONDITIONAL_WRITE_BACK, R136, R137. -/
def execConditionalWriteBack (key : Nat) (s : State) : Host.Outcome State Fault Refusal :=
  .next (match s.ras.fixes.find? fun x => x.key = key with
    | none => s
    | some x => { s with mem := Mem.put s.mem key x.word, ras := { s.ras with fixes := s.ras.fixes.erase x } })

/-! ## Refresh and temperature, R119 to R121 -/

/-- R119, R120: whether reads wait for a bank of a pseudo-channel, or for any of its banks under all-bank refresh. -/
def StackState.bankReads (k : StackState) (pc : PcId) (bank : Nat) (p : WaitingRead → Bool) : Bool :=
  k.readQ.any fun r => pcOfKey r.key = pc && (k.refreshMode = 1 || dramBank (stripOfKey r.key) = bank) && p r

/-- R120: the number under which a refresh of a bank is kept: the pseudo-channel's own under all-bank refresh. -/
def StackState.refreshUnit (k : StackState) (pc : PcId) (bank : Nat) : Nat :=
  if k.refreshMode = 1 then pc.val else pc.val + 64 * (bank + 1)

/-- A bank's refreshes postponed. -/
def StackState.postponedOf (k : StackState) (bank : Nat) : Nat :=
  ((k.postponed.find? fun x => x.1 = bank).map (·.2)).getD 0

def StackState.setPostponed (k : StackState) (bank n : Nat) : StackState :=
  let rest := k.postponed.filter fun x => x.1 ≠ bank
  { k with postponed := if n = 0 then rest else (bank, n) :: rest }

/-- R119: a refresh interval of a bank. -/
def StackState.refreshed (k : StackState) (pc : PcId) (bank : Nat) (postpone : Bool) (makeUp : Nat) : StackState :=
  let k := { k with refreshRate := k.refreshNextRate, refreshMode := k.refreshNextMode }
  let unit := k.refreshUnit pc bank
  let n := k.postponedOf unit
  if postpone && k.bankReads pc bank (·.critical) && decide (n < Config.refreshLimit) then k.setPostponed unit (n + 1)
  else if k.bankReads pc bank (fun _ => true) then { k with refreshesIssued := k.refreshesIssued + 1 }
  else { k.setPostponed unit (n - makeUp) with refreshesIssued := k.refreshesIssued + 1 + min n makeUp }

/-- REFRESH, R119 to R121; `postpone` is the controller's choice where R119 gives it one, and `makeUp` how many postponed
refreshes it has time to make up (DESIGN CHOICE, assumption log 89). -/
def execRefresh (stack : StackId) (pc : PcId) (bank : Nat) (postpone : Bool) (makeUp : Nat) (s : State) :
    Host.Outcome State Fault Refusal :=
  .next (if s.hbm[stack].state = 4 then s.modStack stack fun k => k.refreshed pc bank postpone makeUp else s)

/-- R405: whether a thermal event holds. -/
def State.thermalHolds (s : State) : Bool :=
  decide (110 ≤ s.pwr.tmax.toNat) || (allFin 24).any fun k => s.hbm[k].crit && !s.fields[fieldOfStack k].leftOut

/-- R405, R409: a thermal event begins or ends. -/
def State.thermal (s : State) : State :=
  if s.thermalHolds && !s.pwr.thermEvent then
    ((((s.emit (.thermN true)).emit .i3cIbi).modPwr fun x => { x with thermEvent := true, evTherm := true }).irq irqTherm).logFault
      { source := 17 }
  else if !s.thermalHolds && s.pwr.thermEvent then
    (s.emit (.thermN false)).modPwr fun x => { x with thermEvent := false }
  else s

/-- R124, R360: a stack fails and is isolated. -/
def State.failStack (s : State) (k : StackId) (code : Byte) : State :=
  let s1 := s.modStack k fun x => { x with
    ready := false, mapped := false, state := 5, failCode := code, stage := .failed, readQ := [], writeQ := [], repairBusy := false
    pageBusy := false }
  (((s1.setSink (fieldOfStack k) (niOfStack k) true).logFault
    { cls := 4, source := 5, code := code, element := BitVec.ofNat 32 k.val }).readyFrom s).thermal

/-- R123: whether a training attempt is under way. -/
def StackState.inAttempt (k : StackState) : Bool :=
  match k.stage with
  | .portCheck | .laneRepair | .hardRepair | .interface | .channelCheck | .fill => true
  | .idle | .selfTest | .done | .failed => false

/-- R123, R124: whether the stack is training: an attempt is under way, or the next one is due. -/
def StackState.training (k : StackState) : Bool := k.inAttempt || (k.stage = .idle && k.attempt ≠ 0)

/-- R121: a reading of the hottest die. -/
def StackState.readTemp (k : StackState) (t : Byte) : StackState :=
  { k with
    tempCur := t
    tempMax := if k.tempMax.toNat < t.toNat then t else k.tempMax
    hot := decide (85 ≤ t.toNat)
    crit := decide (105 ≤ t.toNat)
    refreshNextRate := if 85 ≤ t.toNat then 1 else 0 }

/-- HBM_TEMP_READOUT, R121, R124, R405. -/
def execHbmTempReadout (stack : StackId) (temp : Byte) (s : State) : Host.Outcome State Fault Refusal :=
  .next (
    let s1 := s.modStack stack fun k => k.readTemp temp
    if s.hbm[stack].training && decide (105 ≤ temp.toNat) then (s1.failStack stack 4).thermal else s1.thermal)

/-! ## Writes of a stack controller's registers -/

/-- R128: a stack whose registers, but for a few, read zero and discard writes. -/
def State.stackOut (s : State) (k : StackId) : Bool :=
  s.fields[fieldOfStack k].leftOut || s.hbm[k].state = 5 || (s.img.loaded && !(bit s.img.stackMask k.val))

/-- A misuse of a stack controller's register. -/
def State.noteStack (s : State) (k : StackId) : State := s.logFault { source := 5, element := BitVec.ofNat 32 k.val }

/-- Whether a pseudo-channel is in the mapping. -/
def StackState.pcActiveAt (k : StackState) (pc : Nat) : Bool := !(bit k.excluded (pc / 2))

/-! ## Repair, R122 -/

/-- Whether a request waits in a stack's queues for a repair or a page copy. -/
def StackState.idHeld (k : StackState) (id : TxId) : Bool := k.readQ.any fun r => r.id = id && k.keyHeld r.key

/-- R201: the reads that wait on a repair or a page copy are promised nothing. -/
def State.excuseHeld (s : State) (k : StackId) : State :=
  let f := fun (t : Txn) => if s.hbm[k].idHeld t.id then { t with excused := true } else t
  s.modNet fun n => { n with flight := n.flight.map f }

/-- The write that HBM_REPAIR makes. -/
def State.hbmRepairWrite (s : State) (stack : StackId) (value : Word) : State :=
  let k := s.hbm[stack]
  if s.stackOut stack || !bit value 31 then s
  else if k.repairBusy then s.noteStack stack
  else if !k.pcActiveAt (fld value.toNat 21 6) ∨ 1966080 ≤ fld value.toNat 0 21 then
    s.modStack stack fun x => { x with repairResult := 4 }
  else (s.modStack stack fun x => { x with repairBusy := true, repairReq := value }).excuseHeld stack

/-- HBM_REPAIR, R122. -/
def execHbmRepair (stack : StackId) (value : Word) (s : State) : Host.Outcome State Fault Refusal :=
  .next (s.byPf0 fun s => s.hbmRepairWrite stack value)

/-- A strip read and written back with its marks. -/
def State.rewriteStrip (s : State) (k : StackId) (pc : PcId) (strip : Nat) : State :=
  (List.range 8).foldl (fun t w =>
    let l : Loc := .hbm k pc strip w
    let r := t.readLoc l Agent.nobody 0
    match r.1.repair with
    | some x => r.2.storeAt (t.keyOf l) x
    | none => r.2) s

/-- R122: every strip of the DRAM row that holds a strip, read and written back. -/
def State.rewriteRow (s : State) (k : StackId) (pc : PcId) (strip : Nat) : State :=
  (rowStrips strip).foldl (fun t n => t.rewriteStrip k pc n) s

/-- SOFT_REPAIR_DONE, R122. -/
def execSoftRepairDone (stack : StackId) (resourceLeft : Bool) (s : State) : Host.Outcome State Fault Refusal :=
  .next (
    let k := s.hbm[stack]
    let pc : PcId := asFin 64 (fld k.repairReq.toNat 21 6)
    let strip := fld k.repairReq.toNat 0 21
    if !k.repairBusy then s
    else if !resourceLeft then s.modStack stack fun x => { x with repairBusy := false, repairResult := 3 }
    else
      let hard := bit k.repairReq 30
      let room := decide (s.fuse.hardRepair[stack].length < 16)
      let s1 := (s.rewriteRow stack pc strip).modStack stack fun x => { x with
        repairBusy := false, softCount := satAdd x.softCount 1
        repairResult := if !hard then 1 else if room then 2 else 5 }
      if hard && room then s1.modFuse fun f => { f with hardRepair := vmod f.hardRepair stack fun l => l ++ [(pc, strip)] }
      else s1)

/-! ## Training, R123 to R125, R132 -/

/-- R396, R344: stage 2 of the boot has ended, and the package is not RETIRED. -/
def State.elementsMayStart (s : State) : Bool := !s.inReset && !s.retired && (s.stage = 3 || s.stage = 4 || s.stage = 5)

/-- STACK_TRAINING_ATTEMPT, R123. -/
def execStackTrainingAttempt (stack : StackId) (s : State) : Host.Outcome State Fault Refusal :=
  .next (
    let k := s.hbm[stack]
    if s.elementsMayStart && k.stage = .idle && k.attempt ≠ 3 then
      s.modStack stack fun x => { x with attempt := x.attempt + 1, state := 1, stage := .portCheck }
    else s)

/-- R123, R124: an attempt fails. -/
def State.attemptFails (s : State) (k : StackId) (code : Byte) : State :=
  if s.hbm[k].attempt = 3 then s.failStack k code else s.modStack k fun x => { x with stage := .idle }

/-- R365: the element word of an HBM channel. -/
def channelElement (k : StackId) (c : Nat) : Word := BitVec.ofNat 32 (k.val * 2 ^ 27 + c)

/-- R125: a channel is retired at stage 5. -/
def State.excludeChannel (s : State) (k : StackId) (c : Nat) : State :=
  if bit s.hbm[k].excluded c then s
  else
    let el := channelElement k c
    ((s.logFault { cls := 3, source := 6, code := 2, element := el, patch := s.nextPatch }).addPatch 5 2 el noSpare).modStack k
      fun x => { x with excluded := setBit x.excluded c true }

/-- R123, R124: the channel check of stage 5. -/
def State.channelCheck (s : State) (k : StackId) (failing : Word) : State :=
  let s1 := (onBits failing).foldl (fun t c => t.excludeChannel k c) s
  if popCount s1.hbm[k].excluded > 4 then s1.failStack k 3 else s1.modStack k fun x => { x with stage := .fill }

/-- TRAINING_STAGE_DONE, R123 to R125. -/
def execTrainingStageDone (stack : StackId) (passed : Bool) (failing : Word) (s : State) :
    Host.Outcome State Fault Refusal :=
  .next (match s.hbm[stack].stage with
    | .portCheck => if passed then s.modStack stack fun x => { x with stage := .laneRepair } else s.attemptFails stack 1
    | .laneRepair => s.modStack stack fun x => { x with stage := .hardRepair, state := 2 }
    | .hardRepair =>
      (s.modFuse fun f => { f with hardRepair := vset f.hardRepair stack [] }).modStack stack fun x =>
        { x with stage := .interface, state := 3 }
    | .interface =>
      if passed then s.modStack stack fun x => { x with
        stage := .channelCheck, rate := if x.rate8g ∧ s.testUnlocked then 1 else 0 }
      else s.attemptFails stack 2
    | .channelCheck => s.channelCheck stack failing
    | .idle | .fill | .selfTest | .done | .failed => s)

/-- TRAINING_ATTEMPT_TIMEOUT, R123, R124. -/
def execTrainingAttemptTimeout (stack : StackId) (s : State) : Host.Outcome State Fault Refusal :=
  .next (if s.hbm[stack].inAttempt then s.attemptFails stack 5 else s)

/-- R312: whether a stack that is ready is in service as well. -/
def State.stackNamed (s : State) (k : StackId) : Bool := !s.img.loaded || bit s.img.stackMask k.val

/-- R137: the hub's pending writes into a range of numbers are dropped. -/
def RasState.dropFixes (r : RasState) (lo hi : Nat) : RasState :=
  { r with fixes := r.fixes.filter fun f => f.key < lo ∨ hi ≤ f.key }

/-- R132: every word of a range of numbers takes the unwritten mark. -/
def State.fillUnwritten (s : State) (lo hi : Nat) : State :=
  { s with mem := Mem.clear s.mem lo hi, ras := s.ras.dropFixes lo hi }

/-- The first number of a stack, and of a field's fast tier. -/
def stackKeys (k : Nat) : Nat := hbmKey 0 0 0 0 + k * 1073741824
def tierKeys (f : Nat) : Nat := 2 ^ 40 + f * 17301504

/-- STACK_FILL_DONE, R123, R132. -/
def execStackFillDone (stack : StackId) (s : State) : Host.Outcome State Fault Refusal :=
  .next (
    if s.hbm[stack].stage = .fill then
      let s1 := (s.fillUnwritten (stackKeys stack.val) (stackKeys (stack.val + 1))).modStack stack fun x => { x with
        ready := true, mapped := true, state := 4, stage := .done, failCode := 0, softCount := 0, pcActive := BitVec.ofNat 7 x.p
        readQ := [], writeQ := [] }
      let s2 := if s.stackNamed stack then s1.setSink (fieldOfStack stack) (niOfStack stack) false else s1
      s2.readyFrom s
    else s)

/-- FAST_TIER_FILL_DONE, R132. -/
def execFastTierFillDone (f : FieldId) (s : State) : Host.Outcome State Fault Refusal :=
  .next (
    if s.elementsMayStart && !s.fields[f].ft.ready then
      ((s.fillUnwritten (tierKeys f.val) (tierKeys (f.val + 1))).modFt f fun x => { x with ready := true }).readyFrom s
    else s)

/-! ## Fences, R126 -/

/-- The write that HBM_RETIRE makes. -/
def State.hbmRetireWrite (s : State) (stack : StackId) (value : Word) : State :=
  let k := s.hbm[stack]
  let c := fld value.toNat 0 5
  if s.stackOut stack then s
  else if value >>> 24 ≠ 0xC5 then s.noteStack stack
  else if bit k.fenced c || bit k.excluded c then s
  else
    let el := channelElement stack c
    let s1 := (s.logFault { cls := 3, source := 6, element := el, patch := s.nextPatch }).addPatch 5 0 el noSpare
    (s1.logMem { cls := 0xE, tier := 0, loc := BitVec.ofNat 32 (stack.val * 2 ^ 27 + 2 * c * 2 ^ 21) }).modStack stack
      fun x => { x with fenced := setBit x.fenced c true }

/-- HBM_RETIRE, R126, R365. -/
def execHbmRetire (stack : StackId) (value : Word) (s : State) : Host.Outcome State Fault Refusal :=
  .next (s.byPf0 fun s => s.hbmRetireWrite stack value)

/-! ## HBM_TEST, R129 -/

/-- R129: a stack that is training or testing, or has training before it. -/
def StackState.busyTraining (k : StackState) : Bool := k.stage ≠ .done && k.stage ≠ .failed

/-- R129: a stack is taken out of service, to train again from `stage`. -/
def State.stackTakenOut (s : State) (k : StackId) (stage : TrainStage) (st : BitVec 3) : State :=
  ((s.modStack k fun x => { x with
    ready := false, state := st, stage := stage, attempt := 0, failCode := 0, readQ := [], writeQ := [], repairBusy := false
    pageBusy := false }).setSink (fieldOfStack k) (niOfStack k) true).readyFrom s

/-- R129: a write of HBM_TEST. -/
def State.hbmTestWrite (s : State) (k : StackId) (value : Word) : State :=
  if s.fields[fieldOfStack k].leftOut then s
  else if !s.testUnlocked then s.noteStack k
  else if (bit value 31 || bit value 30) && s.hbm[k].busyTraining then s.modStack k fun x => { x with testResult := 3 }
  else
    let s1 := s.modStack k fun x => { x with rate8g := bit value 0 }
    if bit value 31 then s1.stackTakenOut k .selfTest 1
    else if bit value 30 then s1.stackTakenOut k .idle 0
    else s1

/-- HBM_TEST_RETRAIN, R129. -/
def execHbmTestRetrain (stack : StackId) (value : Word) (s : State) : Host.Outcome State Fault Refusal :=
  .next (s.byPf0 fun s => s.hbmTestWrite stack value)

/-- HBM_TEST_SELFTEST, R129. -/
def execHbmTestSelftest (stack : StackId) (value : Word) (s : State) : Host.Outcome State Fault Refusal :=
  .next (s.byPf0 fun s => s.hbmTestWrite stack value)

/-- STACK_SELFTEST_DONE, R129. -/
def execStackSelftestDone (stack : StackId) (passed : Bool) (s : State) : Host.Outcome State Fault Refusal :=
  .next (if s.hbm[stack].stage = .selfTest then
      s.modStack stack fun x => { x with testResult := if passed then 1 else 2, stage := .idle, state := 0 }
    else s)

/-- HBM_TEST_RATE_8G, R129. -/
def execHbmTestRate8g (stack : StackId) (value : Word) (s : State) : Host.Outcome State Fault Refusal :=
  .next (s.byPf0 fun s => s.hbmTestWrite stack value)

end Sys2Proof.Machine
end

