-- ==== Sys2Proof/Machine/Integrity.lean ====
section
/-!
DEFINITION. Skim, primer passes, the memory error log, and the retirement of HBM pages and fast-tier banks (chapter
Stored data integrity, R141 to R152).
-/

namespace Sys2Proof.Machine

/-! ## Skim, R141 -/

/-- R424: the skim engine of a field. -/
def skimAgent (f : FieldId) : Agent := { kind := 6, id := BitVec.ofNat 16 f.val, panel := none, field := f }

/-- R141, R155: a word read by skim; a commons word that reads bad is repaired from its other copy. -/
def State.skimWord (s : State) (f : FieldId) (l : Loc) (flips : BitVec 544) : State :=
  let g := skimAgent f
  let r := s.readLoc l g flips
  let pa := r.2.paOf l
  if r.2.locate pa = some l then (r.2.fallback pa l g r.1).2 else r.2

/-- The words of a list of locations, with the raw errors numbered from `i`. -/
def State.skimWords (s : State) (f : FieldId) (errors : List RawError) (i : Nat) : List Loc → State
  | [] => s
  | l :: ls => State.skimWords (s.skimWord f l (flipsAt errors i)) f errors (i + 1) ls

/-- A strip counter's next value, and the count of full passes. -/
def StackState.skimNext (k : StackState) : StackState :=
  if k.skimStrip + 1 = 1966080 then { k with skimStrip := 0, skimPasses := satAdd k.skimPasses 1 }
  else { k with skimStrip := k.skimStrip + 1 }

def FtState.skimNext (x : FtState) : FtState :=
  if x.skimRow + 1 = 131072 then { x with skimRow := 0, skimPasses := satAdd x.skimPasses 1 }
  else { x with skimRow := x.skimRow + 1 }

/-- SKIM_HBM_STRIP, R141: one strip of every active pseudo-channel that is not fenced. -/
def execSkimHbmStrip (stack : StackId) (errors : List RawError) (s : State) : Host.Outcome State Fault Refusal :=
  .next (
    let k := s.hbm[stack]
    if k.state ≠ 4 ∨ s.stackOut stack ∨ k.skimInterval = 0 then s
    else
      let pcs := k.pcs.filter fun p => !(bit k.fenced (p.val / 2))
      let ls := pcs.flatMap fun p => (List.range 8).map fun w => Loc.hbm stack p k.skimStrip w
      (s.skimWords (fieldOfStack stack) errors 0 ls).modStack stack StackState.skimNext)

/-- SKIM_FT_ROW, R141: one row of every logical bank in the mapping that is not fenced. -/
def execSkimFtRow (f : FieldId) (errors : List RawError) (s : State) : Host.Outcome State Fault Refusal :=
  .next (
    let x := s.fields[f].ft
    if !x.ready ∨ s.fields[f].leftOut ∨ x.skimInterval = 0 then s
    else
      let banks := x.banks.filter fun b => !(bit x.fencedBanks b.val)
      let ls := banks.flatMap fun b => [Loc.ft f b x.skimRow 0, Loc.ft f b x.skimRow 1]
      (s.skimWords f errors 0 ls).modFt f FtState.skimNext)

/-! ## Primer passes, R142 to R146 -/

/-- R424: a primer slot. -/
def primerAgent (n : Fin 8) : Agent := { kind := 7, id := BitVec.ofNat 16 n.val, panel := none, field := 1 }

/-- R143: why a pass is rejected at GO. -/
def State.primerReason (s : State) (x : PrimerSlot) (op : BitVec 3) : Option (BitVec 4) :=
  let base : BitVec 52 := x.base.setWidth 52
  let len := x.length.toNat
  let near := paSpace base = 1 ∨ paSpace base = 3
  let room := if near then 2 ^ 45 - paNear base else 2 ^ 48 - paWide base
  if base.toNat % 4096 ≠ 0 ∨ len % 4096 ≠ 0 ∨ len = 0 then some 1
  else if paPartner base ∨ 4 ≤ paSpace base then some 2
  else if 4 ≤ op.toNat ∨ (op = 3 ∧ !s.testUnlocked) then some 3
  else if room < len then some 4
  else if s.backedSize base < paOffset base + len then some 2
  else none

/-- R143, R146: a write of PRM_CONTROL with GO. -/
def State.primerGo (s : State) (n : Fin 8) (value : Word) : State :=
  let x := s.ras.primers[n]
  if x.state = 1 then s.note
  else
    let op : BitVec 3 := slice value 2 0
    let y := { x with op := op, tint := asFin 16 (fld value.toNat 24 4) }
    match s.primerReason x op with
    | some r => s.modPrimer n fun _ => { y with state := 3, reason := r }
    | none => s.modPrimer n fun _ =>
      { y with
        state := 1, reason := 0, progress := 0, clean := 0, corrected := 0, uncorr := 0, marked := 0, unwritten := 0
        firstBad := 0xFFFFFFFFFFFFFFFF, runOp := op, runBase := x.base.toNat % 2 ^ 52, runLength := x.length.toNat }

/-- Where a primer's word lies, when its controller or bank can be reached. -/
def State.primerLoc (s : State) (pa : BitVec 52) : Option Loc :=
  (s.locate pa).filter fun l => !s.locSunk l && !s.locFenced l

/-- R144, R197: a primer's word counted against its tint at its target. -/
def State.primerTally (s : State) (n : Fin 8) (l : Loc) : State :=
  (s.tally (locNi l).1 (locNi l).2 false s.ras.primers[n].tint 1).2

/-- ZERO and MARK: a word written. -/
def State.primerWrite (s : State) (n : Fin 8) (pa : BitVec 52) (w : CodeWord) : State :=
  match s.primerLoc pa with
  | none => s
  | some l => (s.primerTally n l).putCode pa l w

/-- R145: the counts take a finding. -/
def PrimerSlot.found (x : PrimerSlot) (pa : BitVec 52) (c : WordClass) : PrimerSlot :=
  let bad := if pa.toNat < x.firstBad.toNat then { x with firstBad := pa.setWidth 64 } else x
  match c with
  | .clean => { x with clean := satAdd x.clean 1 }
  | .corrected => { x with corrected := satAdd x.corrected 1 }
  | .marked => { bad with marked := satAdd x.marked 1 }
  | .unwritten => { bad with unwritten := satAdd x.unwritten 1 }
  | .uncorrectable => { bad with uncorr := satAdd x.uncorr 1 }

/-- R142, R155: a word read by CHECK, which repairs and logs, or by SUMMARISE, which only counts. -/
def State.primerRead (s : State) (n : Fin 8) (pa : BitVec 52) (check : Bool) (flips : BitVec 544) : State :=
  match s.primerLoc pa with
  | none => s
  | some l =>
    let s1 := (s.primerTally n l).strike (s.keyOf l) flips
    let f := classify (s1.atLoc l false)
    let s2 := s1.modPrimer n fun x => x.found pa f.cls
    let g := primerAgent n
    if check then
      let s3 := if f.cls = .unwritten then s2 else s2.acted l (s.keyOf l) g f
      (s3.fallback pa l g f).2
    else match f.cls with
      | .corrected => s2.countErr l false
      | .uncorrectable => s2.countErr l true
      | _ => s2

/-- The code words of a strip of an HBM pool, or of a row of a fast-tier pool. -/
def unitWords (pa : BitVec 52) : Nat := if paSpace pa < 2 then 8 else 2

/-- R144, R145: the next words of a running pass, which ends only after a whole strip or row: an ABORT finds none in
progress. -/
def State.primerRun (s : State) (n : Fin 8) (words : Nat) (f : State → BitVec 52 → Nat → State) : State :=
  let x := s.ras.primers[n]
  let unit := unitWords (BitVec.ofNat 52 x.runBase)
  let m := min ((words + unit - 1) / unit * unit) ((x.runLength - x.progress) / 64)
  let s1 := (List.range m).foldl (fun t i => f t (BitVec.ofNat 52 (x.runBase + x.progress + 64 * i)) i) s
  s1.modPrimer n fun y => { y with progress := x.progress + 64 * m }

/-- A slot that runs an operation. -/
def State.primerRuns (s : State) (n : Fin 8) (op : BitVec 3) : Bool :=
  s.ras.primers[n].state = 1 && s.ras.primers[n].runOp = op

/-- PRIMER_ZERO, R142 to R144: the write of PRM_CONTROL with GO, or the next `words` words of the pass. -/
def execPrimerZero (slot : Fin 8) (value : Word) (words : Nat) (s : State) : Host.Outcome State Fault Refusal :=
  .next (
    if bit value 31 then s.byPf0 fun s => s.primerGo slot value
    else if s.primerRuns slot 0 then
      s.primerRun slot words fun t pa _ => t.primerWrite slot pa { data := 0, mark := false }
    else s)

/-- PRIMER_CHECK, R142 to R145, R155. -/
def execPrimerCheck (slot : Fin 8) (value : Word) (words : Nat) (errors : List RawError) (s : State) :
    Host.Outcome State Fault Refusal :=
  .next (
    if bit value 31 then s.byPf0 fun s => s.primerGo slot value
    else if s.primerRuns slot 1 then
      s.primerRun slot words fun t pa i => t.primerRead slot pa true (flipsAt errors i)
    else s)

/-- PRIMER_SUMMARISE, R142 to R145. -/
def execPrimerSummarise (slot : Fin 8) (value : Word) (words : Nat) (errors : List RawError) (s : State) :
    Host.Outcome State Fault Refusal :=
  .next (
    if bit value 31 then s.byPf0 fun s => s.primerGo slot value
    else if s.primerRuns slot 2 then
      s.primerRun slot words fun t pa i => t.primerRead slot pa false (flipsAt errors i)
    else s)

/-- PRIMER_MARK, R142 to R144. -/
def execPrimerMark (slot : Fin 8) (value : Word) (words : Nat) (s : State) : Host.Outcome State Fault Refusal :=
  .next (
    if bit value 31 then s.byPf0 fun s => s.primerGo slot value
    else if s.primerRuns slot 3 then
      s.primerRun slot words fun t pa _ => t.primerWrite slot pa { data := 0, mark := true }
    else s)

/-- The write that PRIMER_ABORT makes. -/
def State.primerAbort (s : State) (slot : Fin 8) : State :=
  if s.ras.primers[slot].state = 1 then s.modPrimer slot fun x => { x with state := 4 } else s

/-- PRIMER_ABORT, R145. -/
def execPrimerAbort (slot : Fin 8) (s : State) : Host.Outcome State Fault Refusal :=
  .next (s.byPf0 fun s => s.primerAbort slot)

/-- PRIMER_DONE, R145. -/
def execPrimerDone (slot : Fin 8) (s : State) : Host.Outcome State Fault Refusal :=
  .next (
    let x := s.ras.primers[slot]
    if x.state = 1 ∧ x.runLength ≤ x.progress then s.modPrimer slot fun y => { y with state := 2 } else s)

/-! ## The memory error log, R149 -/

/-- The write that RAS_MLOG_POP makes. -/
def State.mlogPop (s : State) (value : Word) : State :=
  s.modRas fun r => { r with mlog := r.mlog.drop (fld value.toNat 0 11) }

/-- RAS_MLOG_POP, R149. -/
def execRasMlogPop (value : Word) (s : State) : Host.Outcome State Fault Refusal :=
  .next (s.byPf0 fun s => s.mlogPop value)

/-! ## Copies made for a retirement, R137, R151, R152 -/

/-- R424: a retirement copy in a field. -/
def copyAgent (f : FieldId) : Agent := { kind := 9, id := BitVec.ofNat 16 f.val, panel := none, field := f }

/-- A word as a copy stores it: data without its corrected error, or its mark. -/
def Finding.copied (f : Finding) : StoredWord :=
  match f.cls with
  | .clean | .corrected => { data := f.word.data, cls := .plain, err := 0 }
  | .marked | .uncorrectable => { data := f.word.data, cls := .poison, err := 0 }
  | .unwritten => .unwritten

/-- A location's word read and stored under a new number. -/
def State.copyWord (s : State) (g : Agent) (x : Loc × Nat) : State :=
  let r := s.readLoc x.1 g 0
  { r.2 with mem := Mem.put r.2.mem x.2 r.1.copied }

/-- A run of numbers moved. -/
def moveKey (old new len key : Nat) : Nat := if old ≤ key ∧ key < old + len then key - old + new else key

/-- The write that HBM_PAGE_RETIRE makes. -/
def State.pageRetire (s : State) (stack : StackId) (value : Word) : State :=
  let k := s.hbm[stack]
  let pc : PcId := asFin 64 (fld value.toNat 14 6)
  let page := fld value.toNat 0 14
  let done := fun (r : BitVec 3) => s.modStack stack fun x => { x with pageResult := r, pageReqPc := some pc }
  if s.stackOut stack then s
  else if value >>> 24 ≠ 0xC5 ∨ k.pageBusy then s.noteStack stack
  else if !k.pcActiveAt pc.val ∨ 15360 ≤ page then done 4
  else if k.pages.any fun m => m.pc = pc ∧ m.page = page then done 2
  else if 60 ≤ k.pages.countP fun m => m.pc = pc then
    (done 3).logMem { cls := 0xF, tier := 0, agent := copyAgent (fieldOfStack stack),
                      loc := BitVec.ofNat 32 (stack.val * 2 ^ 27 + pc.val * 2 ^ 21 + page * 128) }
  else s.modStack stack fun x => { x with pageBusy := true, pageReq := value, pageReqPc := some pc }

/-- HBM_PAGE_RETIRE, R151. -/
def execHbmPageRetire (stack : StackId) (value : Word) (s : State) : Host.Outcome State Fault Refusal :=
  .next (s.byPf0 fun s => s.pageRetire stack value)

/-- R151: the spare pages left in the pseudo-channel of the last request; 0 before any. -/
def StackState.spareLeft (k : StackState) : Nat :=
  match k.pageReqPc with
  | some pc => 60 - k.pages.countP fun m => m.pc = pc
  | none => 0

/-- R151: the lowest-numbered free spare page of a pseudo-channel. -/
def StackState.freePage (k : StackState) (pc : PcId) : Nat :=
  ((List.range 60).find? fun n => !(k.pages.any fun m => m.pc = pc ∧ m.spare = n)).getD 0

/-- R151: the copy of a page, its redirection and its records. -/
def State.retirePage (s : State) (k : StackId) (pc : PcId) (page : Nat) : State :=
  let spare := s.hbm[k].freePage pc
  let old := hbmKey k pc (page * 128) 0
  let new := hbmKey k pc (1966080 + spare * 128) 0
  let words := (List.range 1024).map fun i => (Loc.hbm k pc (page * 128 + i / 8) (i % 8), new + i)
  let queued := s.hbm[k].writeQ.filter fun w => old ≤ w.key ∧ w.key < old + 1024
  let s1 := queued.foldl (fun t w => t.storeAt w.key (stored w.word)) s
  let s2 := s1.modStack k fun x => { x with writeQ := x.writeQ.filter fun w => w.key < old ∨ old + 1024 ≤ w.key }
  let s3 := words.foldl (fun t x => t.copyWord (copyAgent (fieldOfStack k)) x) s2
  let s4 := s3.modRas fun r => r.dropFixes old (old + 1024)
  let failed := BitVec.ofNat 32 (k.val * 2 ^ 27 + pc.val * 2 ^ 21 + page)
  let s5 := (s4.logFault { cls := 2, source := 5, element := failed, patch := s4.nextPatch }).addPatch 4 0 failed
    (BitVec.ofNat 32 spare)
  (s5.logMem { cls := 0xC, tier := 0, agent := copyAgent (fieldOfStack k),
               loc := BitVec.ofNat 32 (k.val * 2 ^ 27 + pc.val * 2 ^ 21 + page * 128) }).modStack k fun x => { x with
    pages := x.pages ++ [{ pc := pc, page := page, spare := spare }]
    pageBusy := false, pageResult := 1
    readQ := x.readQ.map fun r => { r with key := moveKey old new 1024 r.key } }

/-- PAGE_COPY_DONE, R151. -/
def execPageCopyDone (stack : StackId) (s : State) : Host.Outcome State Fault Refusal :=
  .next (
    let k := s.hbm[stack]
    if k.pageBusy then s.retirePage stack (asFin 64 (fld k.pageReq.toNat 14 6)) (fld k.pageReq.toNat 0 14) else s)

/-- R152: the lowest-numbered physical bank of a field that is neither mapped, fenced nor retired. -/
def FtState.freeBank (x : FtState) : Option Nat :=
  (List.range 66).find? fun b => !(bit x.deadBanks b) && !(x.banks.any fun l => x.bankMap[l].toNat = b)

/-- R365: the element words of a bank. -/
def bankFailed (f : FieldId) (phys logical : Nat) : Word := BitVec.ofNat 32 (logical * 2 ^ 16 + f.val * 66 + phys)

/-- The memory error log entry of a bank's replacement or fence. -/
def bankEvent (f : FieldId) (phys logical : Nat) : MemEvent :=
  { cls := 0xD, tier := 1, loc := BitVec.ofNat 32 (f.val * 2 ^ 29 + logical * 2 ^ 23), physBank := BitVec.ofNat 8 phys,
    agent := copyAgent f }

/-- R127, R152: a logical bank fenced for want of a spare. -/
def State.fenceBank (s : State) (f : FieldId) (b : BankId) : State :=
  let phys := s.fields[f].ft.bankMap[b].toNat
  let el := bankFailed f phys b.val
  (((s.logFault { cls := 3, source := 4, element := el, patch := s.nextPatch }).addPatch 3 0 el noSpare).logMem
    (bankEvent f phys b.val)).modFt f fun x => { x with
      fenced := true, fenceBank := BitVec.ofNat 6 b.val, fencedBanks := setBit x.fencedBanks b.val true
      deadBanks := setBit x.deadBanks phys true, retireResult := 2 }

/-- The write that FT_BANK_RETIRE makes. -/
def State.bankRetire (s : State) (f : FieldId) (value : Word) : State :=
  let x := s.fields[f].ft
  let b : BankId := asFin 64 (fld value.toNat 0 6)
  if s.fields[f].leftOut then s
  else if value >>> 24 ≠ 0xC5 ∨ x.retireBusy then s.logFault { source := 4, element := BitVec.ofNat 32 (f.val * 66) }
  else if bit x.lost b.val then s.modFt f fun y => { y with retireResult := 3 }
  else if bit x.fencedBanks b.val then s
  else match x.freeBank with
    | none => s.fenceBank f b
    | some _ => s.modFt f fun y => { y with retireBusy := true, retireBank := BitVec.ofNat 6 b.val }

/-- FT_BANK_RETIRE, R152. -/
def execFtBankRetire (f : FieldId) (value : Word) (s : State) : Host.Outcome State Fault Refusal :=
  .next (s.byPf0 fun s => s.bankRetire f value)

/-- R152: the copy of a bank, the switch of its map, and its records. -/
def State.replaceBank (s : State) (f : FieldId) (b : BankId) (new : Nat) : State :=
  let phys := s.fields[f].ft.bankMap[b].toNat
  let old := ftKey f phys 0 0
  let to_ := ftKey f new 0 0
  let words := (List.range 262144).map fun i => (Loc.ft f b (i / 2) (i % 2), to_ + i)
  let s1 := words.foldl (fun t x => t.copyWord (copyAgent f) x) s
  let s2 := s1.modRas fun r => r.dropFixes old (old + 262144)
  let el := bankFailed f phys b.val
  let s3 := (s2.logFault { cls := 2, source := 4, element := el, patch := s2.nextPatch }).addPatch 3 0 el
    (BitVec.ofNat 32 (f.val * 66 + new))
  (s3.logMem (bankEvent f phys b.val)).modFt f fun x => { x with
    bankMap := vset x.bankMap b (BitVec.ofNat 7 new), deadBanks := setBit x.deadBanks phys true
    retireBusy := false, retireResult := 1, newPhys := BitVec.ofNat 7 new
    queue := x.queue.map fun r => { r with key := moveKey old to_ 262144 r.key } }

/-- BANK_COPY_DONE, R152. -/
def execBankCopyDone (f : FieldId) (s : State) : Host.Outcome State Fault Refusal :=
  .next (
    let x := s.fields[f].ft
    match x.retireBusy, x.freeBank with
    | true, some new => s.replaceBank f (asFin 64 x.retireBank.toNat) new
    | _, _ => s)

end Sys2Proof.Machine
end

