-- ==== Sys2Proof/Machine/SitePort.lean ====
section
/-!
DEFINITION. What the site ports and the isolation of an NI share: the death and refusal of a site, requests sent to a
chiplet, and requests sent to the twin partner (R210, R211, R250, R255, R256, R266, R268, R377).
-/

namespace Sys2Proof.Machine

/-! ## Every invocation, R93 -/

def allQueues : List QRef :=
  (allFin 2).flatMap fun p => (allFin 40).flatMap fun v => (allFin 16).map fun q => { port := p, vf := v, q := q }

/-- R100: running invocations that meet a test are halted, and end with a status. -/
def State.haltInvs (s : State) (status : Byte) (p : QRef → Taken → Bool) : State :=
  allQueues.foldl (fun t q =>
    match t.taken q with
    | some x => if x.phase = .running ∧ p q x then t.endInv q status 0 none else t
    | none => t) s

/-- R100: an invocation whose SITE_MASK names a slot bound to site `n`. -/
def State.usesSite (s : State) (n : SiteId) (q : QRef) (t : Taken) : Bool :=
  match s.qPanel q with
  | none => false
  | some p => (allFin 8).any fun b => bit t.siteMask b.val && (s.pnl.panels[p].slots[b]).any fun x => x.1 = n

/-- R268: invocations that name a dead site's slot and have not started end with status 0x09. -/
def State.endWaiting (s : State) (n : SiteId) : State :=
  allQueues.foldl (fun t q =>
    match t.taken q with
    | some x => if x.phase = .waiting ∧ cmdOp x.bits = opInvoke ∧ t.usesSite n q x then t.finishInv q 9 else t
    | none => t) s

/-! ## Death and refusal, R244, R250, R268 -/

/-- Site messages of R241. -/
def State.tellSite (s : State) (n : SiteId) (code : Byte) (payload : Nat) : State :=
  s.emit (.siteMsg n code (BitVec.ofNat 64 payload))

/-- R3: whether sites `i` and `i + 1` are fused as a double site; sites 3 and 4 never are. -/
def State.pairFused (s : State) (i : Nat) : Bool := decide (i < 7) && i ≠ 3 && bit s.fuse.doublePairs i

/-- R3, R243: the other half of a fused double site; bit `i` of the fuses pairs sites `i` and `i + 1`. -/
def State.otherHalf (s : State) (n : SiteId) : Option SiteId :=
  if s.pairFused n.val then some (asFin 8 (n.val + 1))
  else if 0 < n.val ∧ s.pairFused (n.val - 1) then some (asFin 8 (n.val - 1)) else none

/-- The numbers of a site's agents (R218). -/
def siteAgents (n : SiteId) : List AgentId := (List.range 6).map fun j => asFin 96 (48 + 6 * n.val + j)

/-- R362: a class 4 event of a site, and SITE of HPC_IRQ_STATUS. -/
def State.siteSevere (s : State) (n : SiteId) (code : Byte) : State :=
  (s.logFault { cls := 4, source := 9, code := code, element := BitVec.ofNat 32 n.val }).irq irqSite

/-- R268: a site in service dies. -/
def State.killHalf (s : State) (n : SiteId) (code : Byte) : State :=
  let s1 := (s.modSite n fun x => { x with ready := false, state := 5, failCode := code, live := 0 }).setSink n 16 true
  let s2 := (siteAgents n).foldl State.killAgent s1
  (((s2.haltInvs 9 (s2.usesSite n)).endWaiting n).siteSevere n code).readyFrom s

/-- R244: a site is refused; its NI stays behind the grout sink. -/
def State.refuseHalf (s : State) (n : SiteId) (code : Byte) : State :=
  ((s.modSite n fun x => { x with ready := false, state := 6, failCode := code, stage := .done }).tellSite n 3
    code.toNat).siteSevere n code

/-- R250: whether a site is up, or has neither come up nor ended. -/
def SiteState.inService (x : SiteState) : Bool := x.state = 3 || x.state = 4
def SiteState.comingUp (x : SiteState) : Bool := x.state.toNat < 3

/-- R250: a half that dies or is refused, also before its first attempt, and the other treated in the same way. -/
def State.endHalf (s : State) (n : SiteId) (code : Byte) : State :=
  if s.sites[n].inService then s.killHalf n code
  else if s.sites[n].comingUp && bit s.fuse.sitePop n.val then s.refuseHalf n code else s

def State.endSite (s : State) (n : SiteId) (code : Byte) : State :=
  let s1 := s.endHalf n code
  match s.otherHalf n with
  | some m => s1.endHalf m 6
  | none => s1

/-- R268: the death of a site in service. -/
def State.killSite (s : State) (n : SiteId) (code : Byte) : State :=
  if s.sites[n].inService then s.endSite n code else s

/-! ## Isolation of an NI, R211 -/

/-- A stack whose NI is isolated. -/
def State.stackSunk (s : State) (f : FieldId) (ni : NiId) : State :=
  if 13 ≤ ni.val ∧ ni.val < 16 then s.modStack (asFin 24 (3 * f.val + (ni.val - 13))) fun x => { x with ready := false } else s

/-- R17, R211: an NI is isolated by timeouts or by the operator; for an array that is not in service the report is only
logged, as class 0. -/
def State.isolateNi (s : State) (f : FieldId) (ni : NiId) : State :=
  match arrayOfNi f ni with
  | some a => if s.arrays[a].st = 0 then (s.seqFault a 0 0x19 1).retireArray a 0 0x19 1 else (s.retireArray a 0 0x19 1).setSink f ni true
  | none =>
    if s.isolated f ni then s
    else if ni = 16 ∧ s.sites[f].inService then s.killSite f 0xA
    else (((s.setSink f ni true).stackSunk f ni).logFault { cls := 4, source := 8, element := niElement f ni }).readyFrom s

/-! ## Requests to a chiplet, R255, R256, R259, R261, R266 -/

/-- A run of code words cut into messages of at most four within a 256-byte block: first word and count. -/
def chunks (fuel off first left : Nat) : List (Nat × Nat) :=
  match fuel with
  | 0 => []
  | n + 1 =>
    if left = 0 then []
    else
      let c := min left (4 - off / 64 % 4)
      (first, c) :: chunks n (off + 64 * c) (first + c) (left - c)

/-- R260: the lowest tag that no request to the chiplet holds. -/
def SiteState.freeTag (x : SiteState) (high : Bool) : Option Nat :=
  let lo := if high then 3072 else 0
  ((List.range (if high then 1024 else 3072)).find? fun t => x.requests.all fun r => r.tag ≠ BitVec.ofNat 12 (lo + t)).map
    fun t => lo + t

/-- How a request to an aperture travels. -/
def siteOut (n : SiteId) (at_ : ApertureAt) (write : Bool) (tag off count : Nat) (ws : List CodeWord) : Out :=
  match at_ with
  | .regs o => .cxlRequest n .io write o ws
  | .device o => .cxlRequest n .mem write o ws
  | _ => .siteStream n (siteHeader (if write then 2 else 1) count (poisonBits ws) 0 tag off 0 0) ws

/-- A message of a read or write sent to the chiplet; none while no tag is free. -/
def State.siteSend (s : State) (n : SiteId) (id : TxId) (write : Bool) (off : Nat) (ws : List CodeWord) (c : Nat × Nat) :
    Option State :=
  let o := off + 64 * c.1
  (s.sites[n].freeTag false).map fun tag =>
    (s.emit (siteOut n (s.sites[n].aperture o) write tag o c.2 (if write then (ws.drop c.1).take c.2 else []))).modSite n
      fun x => { x with requests := x.requests ++ [{ tag := BitVec.ofNat 12 tag, id := id, first := c.1, count := c.2 }] }

def State.siteSendAll (s : State) (n : SiteId) (id : TxId) (write : Bool) (off : Nat) (ws : List CodeWord) :
    List (Nat × Nat) → Option State
  | [] => some s
  | c :: cs => (s.siteSend n id write off ws c).bind fun t => State.siteSendAll t n id write off ws cs

/-- CXL requests carry one code word each. -/
def siteChunks (at_ : ApertureAt) (off n : Nat) : List (Nat × Nat) :=
  match at_ with
  | .regs _ => (List.range n).map fun i => (i, 1)
  | .device _ => (List.range n).map fun i => (i, 1)
  | _ => chunks n off 0 n

/-- R105, R255: the aperture's verdict over a run of code words. -/
def State.siteRun (s : State) (n : SiteId) (off words : Nat) (write : Bool) : Except (BitVec 3) ApertureAt :=
  match s.siteVerdict n off write, s.siteVerdict n (off + 64 * (words - 1)) write with
  | .error e, _ => .error e
  | _, .error e => .error e
  | .ok a, .ok _ => .ok a

/-- A transaction waits at its target for an answer of `n` code words. -/
def State.awaitTxn (s : State) (id : TxId) (n : Nat) : State :=
  s.modTxn id fun t => { t with stage := .atTarget, status := 0, data := List.replicate n poisonWord }

/-- A refusal at the site port. -/
def State.siteRefuse (s : State) (t : Txn) (st : BitVec 3) : State :=
  (if st = 2 then s.unbackedEvent t.pa (txnAgent t) else s).refuseTxn t st

/-- R134, R240, R249, R255, R256, R265: a network request that reaches a site port; a link that retrains completes each with
status 0x3. -/
def State.siteDeliver (s : State) (t : Txn) (n : SiteId) : State :=
  let off := paNear t.pa
  if s.sites[n].state = 4 then s.siteRefuse t 3 else
  match t.kind with
  | .read c =>
    (match s.siteRun n off c false with
    | .error st => s.siteRefuse t st
    | .ok a => ((s.awaitTxn t.id c).siteSendAll n t.id false off [] (siteChunks a off c)).getD s)
  | .write ws =>
    if off % 64 ≠ 0 then (s.logMem { cls := 8, pa := t.pa, agent := txnAgent t }).refuseTxn t 5
    else (match s.siteRun n off ws.length true with
    | .error st => s.siteRefuse t st
    | .ok (.endpoint ..) => s.awaitTxn t.id 0
    | .ok a => ((s.awaitTxn t.id 0).siteSendAll n t.id true off ws (siteChunks a off ws.length)).getD s)
  | .atomic .. => s.siteRefuse t 6
  | .signal .. => s.awaitTxn t.id 0

/-- Code words put into place among those of an answer. -/
def placeWords (data : List CodeWord) (first : Nat) (ws : List CodeWord) : List CodeWord :=
  data.take first ++ ws ++ data.drop (first + ws.length)

/-- R208, R265: the table of a site port keeps what it answered a signal with. -/
def State.siteRemember (s : State) (n : SiteId) (id : TxId) (status : BitVec 3) : State :=
  match s.txn id with
  | some t =>
    match t.kind with
    | .signal .. => s.remember n 16 id status []
    | _ => s
  | none => s

/-- The last message of a transaction has been answered. -/
def State.siteSettle (s : State) (n : SiteId) (id : TxId) : State :=
  if s.sites[n].requests.any fun r => r.id = id then s
  else
    match s.txn id with
    | some t => (s.modTxn id fun x => { x with stage := .answered }).siteRemember n id t.status
    | none => s

/-- R261, R266: an answer to one message. -/
def State.siteAnswered (s : State) (n : SiteId) (r : SiteReq) (status : BitVec 3) (ws : List CodeWord) : State :=
  let s1 := s.modSite n fun x => { x with requests := x.requests.filter fun q => q.tag ≠ r.tag }
  (s1.modTxn r.id fun t => { t with
    status := if t.status = 0 then status else t.status
    data := match t.kind with
      | .read _ => placeWords t.data r.first (ws.take r.count)
      | _ => t.data }).siteSettle n r.id

/-- R240, R266: a transaction at a site port ends with status 0x3, and later answers to it are discarded. -/
def State.siteGiveUp (s : State) (n : SiteId) (id : TxId) : State :=
  let s1 := s.modSite n fun x => { x with
    requests := x.requests.filter fun r => r.id ≠ id, held := x.held.filter fun h => h.id ≠ id }
  match s1.txn id with
  | some t => s1.refuseTxn t 3
  | none => s1

/-- R256: held writes that their endpoint's credit now covers are sent, oldest first. -/
def State.releaseHeld (s : State) (n : SiteId) (p : Fin 16) (fuel : Nat) : State :=
  match fuel with
  | 0 => s
  | k + 1 =>
    match s.sites[n].held.find? fun h => h.endpoint = p with
    | none => s
    | some h =>
      if s.sites[n].credit[p] < h.words.length then s
      else
        let off := 0x8000000 + p.val * 0x100000 + h.offset.toNat
        let s1 := s.modSite n fun x => { x with
          credit := vmod x.credit p fun c => c - h.words.length, held := x.held.filter fun y => y.id ≠ h.id }
        match s1.siteSendAll n h.id true off h.words (chunks h.words.length off 0 h.words.length) with
        | some s2 => State.releaseHeld s2 n p k
        | none => s

/-- R256: the credits of the endpoints of an engine return to zero. -/
def SiteState.zeroCredit (x : SiteState) (engine : Nat) : SiteState :=
  { x with credit := Vector.ofFn fun p =>
      if fld (x.desc[24 + p.val]!).toNat 28 4 = engine then 0 else x.credit[p] }

/-! ## Requests to the twin partner, R376, R377 -/

/-- A panel's binding number, as messages carry it. -/
def State.bindNo (s : State) (p : Option PanelId) : Nat := ((p.bind fun q => s.pnl.panels[q].twin).map Fin.val).getD 0

/-- The header of a request of a transaction. -/
def State.twinReq (s : State) (t : Txn) (type count poison pa arg : Nat) : BitVec 128 :=
  twinHeader type count poison 0 t.id.tag.toNat (pa % 2 ^ 51) (s.bindNo t.panel) 0 t.id.field.val t.id.ni.val arg

/-- R377: a request sent to the partner in as many messages as its words need. -/
def State.twinSend (s : State) (t : Txn) (k : PortId) (enc : Bool) : State :=
  match t.kind with
  | .read n => (s.tellTwin k (s.twinReq t 1 n 0 t.pa.toNat 0) enc []).awaitTxn t.id n
  | .write ws =>
    (chunks ws.length t.pa.toNat 0 ws.length).foldl (fun x c =>
      let part := (ws.drop c.1).take c.2
      x.tellTwin k (s.twinReq t 2 c.2 (poisonBits part) (t.pa.toNat + 64 * c.1) 0) enc part) (s.awaitTxn t.id 0)
  | .atomic op off operand compare m =>
    let word := fun (v : DWord) => ({ data := putBytes 0 off.val (bytesOf (atomicSize op) v.toNat), mark := m } : CodeWord)
    let ws := if op = .cas64 then [word operand, word compare] else [word operand]
    (s.tellTwin k (s.twinReq t 3 ws.length (poisonBits ws) t.pa.toNat (atomicCode op * 2 ^ 20 + off.val)) enc ws).awaitTxn t.id 1
  | .signal .. => s.refuseTxn t 4

/-- How many answers a request to the partner awaits. -/
def twinParts (t : Txn) : Nat :=
  match t.kind with
  | .write ws => (chunks ws.length t.pa.toNat 0 ws.length).length
  | _ => 1

/-- R377, R379: a network request that reaches a twin port. -/
def State.twinDeliver (s : State) (t : Txn) (k : PortId) : State :=
  match t.panel with
  | none => s.refuseTxn t 3
  | some p =>
    let sealed_ := s.pnl.panels[p].sealed_
    if (s.twinPortOf p) ≠ some k then s.refuseTxn t 3
    else if sealed_ && !s.twin.ports[k].secure then s.refuseTxn t 1
    else match t.kind with
      | .write _ => if t.pa.toNat % 64 ≠ 0 then s.refuseTxn t 5
          else (s.twinSend t k sealed_).modTwinPort k fun x => { x with waits := x.waits ++ [(t.id, twinParts t)] }
      | _ => (s.twinSend t k sealed_).modTwinPort k fun x => { x with waits := x.waits ++ [(t.id, twinParts t)] }

end Sys2Proof.Machine
end

