-- ==== Sys2Proof/Machine/Network.lean ====
section
/-!
DEFINITION. The commands of chapter The hub network and the timing promise.
-/

namespace Sys2Proof.Machine

/-! ## Injection, R205 -/

/-- R73, R161: the access that a request makes. -/
def reqAccess : ReqKind → Access
  | .read _ => .read
  | .write _ => .write
  | .atomic .. => .atomic
  | .signal .. => .write

/-- Whether a run of code words stays within what one target serves as one request: a strip, a fast-tier chunk (R200),
four words to the partner, or an aperture page (DESIGN CHOICE, assumption log 14). -/
def oneTarget (pa : BitVec 52) (n : Nat) : Bool :=
  let block := if paPartner pa then 256 else if paSpace pa < 2 then 512 else if paSpace pa < 4 then 4096 else 65536
  0 < n && decide (pa.toNat % block + 64 * n ≤ block) && (paPartner pa || decide (4 ≤ paSpace pa) || decide (n ≤ 8))

/-- Whether an NI may inject a request. -/
def State.mayInject (s : State) (r : NetReq) : Bool :=
  niPresent r.field r.ni && !s.isolated r.field r.ni &&
    (match r.kind with
    | .signal _ ni _ _ _ => decide (ni.val < 5 ∨ ni = 16)
    | .read n => (paPartner r.pa || paSpace r.pa ≠ 5) && r.pa.toNat % 64 = 0 && oneTarget r.pa n && r.panel.all fun p => s.granted p r.pa .read
    | .write ws => (paPartner r.pa || paSpace r.pa ≠ 5) && oneTarget (r.pa &&& ~~~63#52) ws.length && r.panel.all fun p => s.granted p r.pa .write
    | .atomic .. => (paPartner r.pa || paSpace r.pa ≠ 5) && r.panel.all fun p => s.granted p r.pa .atomic)

/-- R73, R209: who a request of an NI belongs to. -/
def State.ownerOf (s : State) (r : NetReq) : TxOwner :=
  match arrayOfNi r.field r.ni, r.kind with
  | some _, .read _ => .none
  | some a, _ => .arrayStep a s.arrays[a].seq.stepOpen .other
  | none, _ => .none

/-- NETWORK_REQUEST_INJECT, R154, R184, R201, R197, R198, R200, R205, R341. -/
def execNetworkRequestInject (req : NetReq) (s : State) : Host.Outcome State Fault Refusal :=
  .next (
    if s.mayInject req then
      let pa := match req.kind with
        | .read _ => s.nearCopy req.field req.pa
        | _ => req.pa
      let h : HeldReq :=
        { field := req.field, ni := req.ni, tint := req.tint, panel := req.panel, pa := pa, kind := req.kind, owner := s.ownerOf req }
      match s.inject req.field req.ni req.tint req.panel pa req.kind (s.ownerOf req) with
      | some r => if req.mover then r.2.modTxn r.1 fun t => { t with promised := false } else r.2
      | none => s.holdReq h
    else s)

/-! ## Delivery, R190 -/

/-- R197, R198, R200: a request counted at its target point, and demoted there when it is over budget. -/
def State.tallyTarget (s : State) (t : Txn) (g : FieldId) (mi : NiId) : State :=
  if !targetPoint mi then s
  else
    let r := s.tally g mi false t.tint (reqWords t.kind)
    if r.1 then r.2 else r.2.modTxn t.id fun x => { x with demoted := true, promised := false }

/-- R115, R198: priority and criticality at a controller or bank. -/
def State.servePrio (s : State) (t : Txn) : Nat := if t.demoted then 0 else s.tintPrio t.tint
def State.critical (s : State) (t : Txn) : Bool :=
  !t.demoted && s.tintPrio t.tint = 3 && s.tintPromise t.tint

/-- R114: the rows that a run of `n` code words from an address touches: in each, its first word and how many. -/
def rowRuns (fuel : Nat) (pa : BitVec 52) (first n : Nat) : List (Nat × Nat) :=
  match fuel with
  | 0 => []
  | k + 1 =>
    if n = 0 then []
    else
      let here := min n (2 - (pa.toNat / 64 + first) % 2)
      (first, here) :: rowRuns k pa (first + here) (n - here)

/-- R114: the part of a request in one row, as it waits at its bank. -/
def State.rowAccess (s : State) (t : Txn) (words : List CodeWord) (isWrite : Bool) (r : Nat × Nat) : Option (FieldId × BankAccess) :=
  let pa := (t.pa &&& ~~~63#52) + BitVec.ofNat 52 (64 * r.1)
  match s.locate pa with
  | some (.ft f b row w) => some (f,
      { id := t.id, key := s.keyOf (.ft f b row w), count := r.2, words := (words.drop r.1).take r.2, isWrite := isWrite,
        prio := s.servePrio t, critical := !isWrite && s.critical t, arrived := s.sclk, pa := pa, first := r.1 })
  | _ => none

/-- R116: whether a pseudo-channel's read queue is full. -/
def StackState.readFull (k : StackState) (pc : PcId) : Bool := decide (64 ≤ k.readQ.countP fun r => pcOfKey r.key = pc)

/-- R116: a read that its pseudo-channel cannot take yet. -/
def State.queueFull (s : State) (t : Txn) : Bool :=
  match t.kind, s.locate (t.pa &&& ~~~63#52) with
  | .read _, some (.hbm k pc _ _) => s.hbm[k].readFull pc
  | _, _ => false

/-- A request taken up by the controller or bank of its location. -/
def State.queueAtLoc (s : State) (t : Txn) (l : Loc) : State :=
  let key := s.keyOf l
  let waits := s.modTxn t.id fun x => { x with stage := .atTarget }
  let rows := fun (words : List CodeWord) (n : Nat) (isWrite : Bool) =>
    ((rowRuns 9 t.pa 0 n).filterMap (s.rowAccess t words isWrite)).foldl (fun x r =>
      x.modFt r.1 fun y => { y with queue := y.queue ++ [r.2] }) waits
  match l, t.kind with
  | .hbm k _ _ _, .read n =>
    (waits.modStack k fun x => { x with readQ := x.readQ ++
      [{ id := t.id, key := key, count := n, prio := s.servePrio t, critical := s.critical t, arrived := s.sclk, passed := 0 }] }).modTxn
        t.id fun x => { x with excused := x.excused || s.hbm[k].keyHeld key }
  | .ft .., .read n => rows [] n false
  | .ft .., .write ws => rows ws ws.length true
  | _, _ => waits

/-- R105, R134: a request that reaches a stack controller or a fast-tier group. -/
def State.deliverMemory (s : State) (t : Txn) : State :=
  let pa := t.pa &&& ~~~63#52
  match s.locate pa with
  | none => (s.unbackedEvent t.pa (txnAgent t)).refuseTxn t 2
  | some l =>
    if s.locFenced l then (s.unbackedEvent t.pa (txnAgent t)).refuseTxn t 2
    else match t.kind with
      | .write _ => if t.pa ≠ pa then (s.logMem (s.memEventAt 8 l (txnAgent t))).refuseTxn t 5 else s.queueAtLoc t l
      | _ => s.queueAtLoc t l

/-- R208: the response that a target keeps for an atomic or signal. -/
def State.storedAnswer (s : State) (t : Txn) (g : FieldId) (mi : NiId) : Option DedupEntry :=
  if reqHigh t.kind then s.dedupOf g mi t.id else none

/-- A request at the local port of its target. -/
def State.deliverAt (s : State) (t : Txn) (g : FieldId) (mi : NiId) : State :=
  let waits := s.modTxn t.id fun x => { x with stage := .atTarget }
  if s.isolated g mi then waits
  else match s.storedAnswer t g mi with
    | some e => s.answerTxn t.id e.status e.data
    | none =>
      match t.kind with
      | .signal .. => if mi = 16 then s.siteDeliver t g else waits
      | _ =>
        if mi = 17 then waits
        else if mi = 16 then s.siteDeliver t g
        else if mi = 21 then s.twinDeliver t (asFin 2 (g.val / 4))
        else s.deliverMemory t

/-- R184, R191, R204: a request that cannot reach its target yet: a flit of it is not acknowledged, or an earlier request of
its NI to one of its code words is still on the way. -/
def State.heldBack (s : State) (t : Txn) : Bool := s.flitWaits t.id || s.olderComing t

/-- NETWORK_DELIVERY, R105, R186, R190, R194, R197, R198, R204, R208. A resent copy that finds its request at the target, or
answered, brings one more response. -/
def execNetworkDelivery (id : TxId) (s : State) : Host.Outcome State Fault Refusal :=
  .next (match s.txn id with
    | none => s
    | some t =>
      if t.stage ≠ .inFlight then
        (if 0 < t.copies ∧ (t.stage = .atTarget ∨ t.stage = .answered) then
          s.modTxn id fun x => { x with copies := x.copies - 1, dups := x.dups + 1 } else s)
      else if s.heldBack t ∨ s.queueFull t then s
      else match s.txDest t with
        | none => (s.unbackedEvent t.pa (txnAgent t)).refuseTxn t 2
        | some (g, mi) =>
          match s.route t.id.field t.id.ni g mi with
          | .sink => s.refuseTxn t 1
          | .misroute => (s.refuseTxn t 4).logFault { source := 8, code := 4, panel := panelByte t.panel, element := niElement g mi }
          | .ok _ =>
            let s1 := (s.tallyTarget t g mi).stamp id
            s1.deliverAt (s1.txnNow t) g mi)

/-! ## Responses, R200, R203, R204, R207, R209 -/

/-- R259: the type of a response on the site stream and on a twin link. -/
def answerType : ReqKind → Nat
  | .read _ => 8
  | .write _ => 9
  | .atomic .. => 10
  | .signal .. => 9

/-- R259, R261: a response to a chiplet, with the tag and the binding tag of its request. -/
def State.answerSite (s : State) (n : SiteId) (kind : ReqKind) (tag : Nat) (bind : Byte) (status : Nat) (ws : List CodeWord) : State :=
  s.emit (.siteStream n (siteHeader (answerType kind) ws.length (poisonBits ws) status tag 0 bind.toNat 0) ws)

/-- R376, R377: a response to the partner, for the request of a header; the mapping of its tag stays. -/
def State.answerTwin (s : State) (k : PortId) (h : BitVec 128) (kind : ReqKind) (status : Nat) (ws : List CodeWord) : State :=
  let n := h.toNat
  let enc := (s.twin.bindings[asFin 64 (fld n 90 6)]).valid &&
    (s.pnl.panels[s.twin.bindings[asFin 64 (fld n 90 6)].panel]).sealed_
  s.tellTwin k (twinHeader (answerType kind) ws.length (poisonBits ws) status (fld n 0 12)
    (fld n 32 32 + fld n 64 20 * 2 ^ 32) (fld n 90 6) 0 (fld n 125 3) (fld n 120 5) 0) enc ws

/-- R73: an atomic's old value in the lane that issued it. -/
def Ctx.takeOld (c : Ctx) (t : Txn) (dest : Nat) (wide : Bool) (w : CodeWord) : Ctx :=
  match t.kind with
  | .atomic op off _ _ _ =>
    let v := atomicOld op off.val w.data
    let lo : Elem := { bits := BitVec.ofNat 32 v, mark := w.mark }
    let hi : Elem := { bits := BitVec.ofNat 32 (v / 2 ^ 32), mark := w.mark }
    let c1 := { (c.setLane (dest / 64) (dest % 64) lo) with owed := (laneKeys dest wide).foldl List.erase c.owed }
    if wide then c1.setLane ((dest / 64 + 1) % 32) (dest % 64) hi else c1
  | _ => c

/-- What a completed transaction does at its initiator. -/
def State.ownerDone (s : State) (t : Txn) (status : BitVec 3) (data : List CodeWord) : State :=
  match t.owner with
  | .none => s
  | .arrayStep a open_ _ => s.writeDone a open_ status
  | .commitSignal a => s.writeDone a false status
  | .vectorLane a core ctx dest wide launch =>
    (s.modCtx a core ctx fun c =>
      if c.launch = launch then c.takeOld t dest wide (data.head?.getD poisonWord) else c).writeDone a s.arrays[a].seq.stepOpen status
  | .site n tag bind => s.answerSite n t.kind tag.toNat bind status.toNat data
  | .bar2 port => if status = 0 then s else s.noteHost port (status.setWidth 8)
  | .twin k h => s.answerTwin k h t.kind status.toNat data

/-- R193, R201, R203: whether a promised read is held to its bound on its route. -/
def State.promiseHolds (s : State) (t : Txn) (g : FieldId) (mi : NiId) : Bool :=
  t.promised && !t.excused && t.status = 0 && (match s.route t.id.field t.id.ni g mi with
    | .ok crossed => crossed.all fun b => !s.net.lath[b].suspended
    | _ => false)

/-- R203: a promised read over its bound is counted and logged. -/
def State.checkPromise (s : State) (t : Txn) (nclk : Nat) : State :=
  match s.txDest t with
  | none => s
  | some (g, mi) =>
    match promiseBound t.id.field t.id.ni g mi with
    | none => s
    | some b =>
      if s.promiseHolds t g mi && decide (b < nclk) then
        let c := s.countOf t.id.field t.id.ni true t.tint
        (s.setCount { c with misses := satAdd c.misses 1 }).logFault
          { cls := 1, source := 8, panel := panelByte t.panel, element := niElement t.id.field t.id.ni }
      else s

/-- R208: the tag of an atomic or signal stays out of use. -/
def State.retireTag (s : State) (t : Txn) : State :=
  if reqHigh t.kind then s.modNet fun n => { n with quarantine := n.quarantine ++ [t.id] } else s

/-- R207, R208: a response has come: the transaction leaves its NI, but for the further responses of resent copies. -/
def State.closeTxn (s : State) (t : Txn) : State :=
  if 0 < t.dups then s.modTxn t.id fun x => { x with dups := x.dups - 1, late := true } else s.dropTxn t.id

/-- NETWORK_RESPONSE, R194, R203, R204, R207, R208, R209, R341. -/
def execNetworkResponse (id : TxId) (nclk : Nat) (s : State) : Host.Outcome State Fault Refusal :=
  .next (match s.txn id with
    | none => s
    | some t =>
      if t.stage ≠ .answered then s
      else if t.late then
        ((s.closeTxn t).modNet fun n => { n with dropsLate := satAdd n.dropsLate 1 }).releaseReqs
      else
        let g := (s.txDest t).getD (id.field, id.ni)
        match s.route g.1 g.2 id.field id.ni with
        | .ok _ =>
          let s1 := ((s.checkPromise t nclk).traceHeader t t.status nclk).retireTag t
          ((s1.closeTxn t).ownerDone t t.status t.data).releaseReqs
        | _ => s.modTxn id fun x => { x with stage := .lost })

/-- ROUTER_DISCARD, R199. -/
def execRouterDiscard (id : TxId) (f : FieldId) (s : State) : Host.Outcome State Fault Refusal :=
  .next (match s.txn id with
    | none => s
    | some t =>
      if t.stage = .inFlight ∨ t.stage = .answered then
        ((s.modTxn id fun x => { x with stage := .lost }).modNet fun n => { n with dropsRouter := satAdd n.dropsRouter 1 }).logFault
          { source := 8, panel := panelByte t.panel, element := BitVec.ofNat 32 (f.val * 256) }
      else s)

/-- TRANSACTION_TIMEOUT, R207, R209. -/
def execTransactionTimeout (id : TxId) (s : State) : Host.Outcome State Fault Refusal :=
  .next (match s.txn id with
    | none => s
    | some t =>
      if t.late then s
      else
        let g := (s.txDest t).getD (id.field, id.ni)
        let s1 := s.modNet fun n => { n with timeouts := satAdd n.timeouts 1, quarantine := n.quarantine ++ [id] }
        let s2 := (s1.logFault { source := 8, code := 3, panel := panelByte t.panel, element := niElement g.1 g.2 }).noteTimeout g.1 g.2
        let s3 := if t.stage = .lost then s2.dropTxn id else s2.modTxn id fun x => { x with late := true }
        s3.ownerDone t 3 (refusedData t.kind))

/-- ATOMIC_RESEND, R208: one more copy under the same transaction ID, which takes the place of one that was lost. -/
def execAtomicResend (id : TxId) (s : State) : Host.Outcome State Fault Refusal :=
  .next (match s.txn id with
    | none => s
    | some t =>
      if reqHigh t.kind && decide (t.resends < 2) && !t.late then
        s.modTxn id fun x => { x with
          resends := x.resends + 1, stage := if x.stage = .lost then .inFlight else x.stage
          copies := if x.stage = .lost then x.copies else x.copies + 1 }
      else s)

/-- DEDUP_ENTRY_EXPIRY, R208. -/
def execDedupEntryExpiry (f : FieldId) (ni : NiId) (id : TxId) (s : State) : Host.Outcome State Fault Refusal :=
  .next (s.modNet fun n => { n with dedup := n.dedup.filter fun e => !(e.field = f ∧ e.ni = ni ∧ e.id = id) })

/-- TAG_QUARANTINE_END, R207, R208. -/
def execTagQuarantineEnd (id : TxId) (s : State) : Host.Outcome State Fault Refusal :=
  .next (if id ∈ s.net.quarantine then
      (s.modNet fun n => { n with
        quarantine := n.quarantine.filter fun i => i ≠ id, flight := n.flight.filter fun t => !(t.id = id ∧ t.late) }).releaseReqs
    else s)

/-- BUDGET_WINDOW_OPEN, R197, R213. -/
def execBudgetWindowOpen (f : FieldId) (ni : NiId) (injection : Bool) (s : State) : Host.Outcome State Fault Refusal :=
  .next (s.modNet fun n => { n with budgets := n.budgets.map fun c =>
    if c.field = f ∧ c.ni = ni ∧ c.injection = injection then { c with lastWords := c.words, words := 0, isOver := false } else c })

/-! ## Lath links, R184, R191 to R194 -/

/-- TRUNK_HASH_CHANGE, R184: once every packet that the trunk has accepted has left it, its hash takes the links that are in
service, and the packets held for it go on. -/
def execTrunkHashChange (boundary : Fin 10) (s : State) : Host.Outcome State Fault Refusal :=
  .next (if s.net.lath[boundary].lanes.all fun l => l.buffer = [] then
      (s.modLath boundary fun x => { x with hashSet := x.inService }).releaseReqs
    else s)

/-- LATH_FLIT_RECEIVE, R191: a flit in sequence is accepted and acknowledged, and leaves the replay buffer; any other is
discarded. -/
def execLathFlitReceive (boundary : Fin 10) (link : Fin 34) (dir : LathDir) (seq : BitVec 12) (crcOk : Bool) (s : State) :
    Host.Outcome State Fault Refusal :=
  .next (
    let x := s.net.lath[boundary]
    let l := x.lane link dir
    if !bit x.inService link.val || !crcOk || seq ≠ l.expect || !(l.buffer.any fun e => e.1 = seq) then s
    else
      ((s.modLath boundary fun y => y.setLane { l with
        expect := seq + 1, buffer := l.buffer.filter fun e => e.1 ≠ seq, rounds := 0 }).emit
          (.lathAck boundary link dir seq)).releaseReqs)

/-- LATH_REPLAY, R191, R201: the flits of the replay buffer are sent again, at most eight times. -/
def execLathReplay (boundary : Fin 10) (link : Fin 34) (dir : LathDir) (s : State) : Host.Outcome State Fault Refusal :=
  .next (
    let x := s.net.lath[boundary]
    let l := x.lane link dir
    if !bit x.inService link.val || 8 ≤ l.rounds || l.buffer = [] then s
    else
      let f := fun (t : Txn) => if l.buffer.any (fun e => e.2 = t.id) then { t with excused := true } else t
      ((s.modLath boundary fun y => { y.setLane { l with rounds := l.rounds + 1 } with replays := satAdd y.replays 1 }).modNet
        fun n => { n with flight := n.flight.map f }).emit (.lathReplay boundary link dir))

/-- R11: the number of links that a boundary is meant to have in service. -/
def lathFull (b : Fin 10) : Nat := if b.val < 6 then 32 else 24

/-- R365: the element word of a lath link. -/
def lathElement (b : Fin 10) (link : Nat) : Word := BitVec.ofNat 32 (b.val * 256 + link)

/-- R193: a boundary below strength has its promises suspended. A spare in training counts with the links in service: the
manual gives it 1,500 NCLK to take its place (DESIGN CHOICE, assumption log 77). -/
def LathState.judge (x : LathState) (b : Fin 10) : LathState :=
  if popCount x.inService + popCount x.training < lathFull b then { x with suspended := true } else x

/-- R192: the flits of a link that leaves without a spare go to the lowest link that is left, behind its own; where none is
left they are given up (R194). -/
def LathState.dropLink (x : LathState) (link : Fin 34) : LathState :=
  let gone := x.lanes.filter fun l => l.link = link
  let y := { x with inService := setBit x.inService link.val false, lanes := x.lanes.filter fun l => l.link ≠ link }
  match (onBits y.inService).head? with
  | none => y
  | some to_ => gone.foldl (fun z l => l.buffer.foldl (fun z e => z.setLane ((z.lane (asFin 34 to_) l.dir).send e.2)) z) y

/-- LATH_LINK_RETIRE, R11, R12, R192 to R194. -/
def execLathLinkRetire (boundary : Fin 10) (link : Fin 34) (s : State) : Host.Outcome State Fault Refusal :=
  .next (
    let x := s.net.lath[boundary]
    let worn := x.lanes.any fun l => l.link = link && decide (8 ≤ l.rounds)
    if !bit x.inService link.val || !worn then s
    else
      let el := lathElement boundary link.val
      let left := setBit x.inService link.val false
      match (onBits x.spare).head? with
      | some sp =>
        let s1 := (s.logFault { cls := 2, source := 7, element := el, patch := s.nextPatch }).addPatch 6 0 el (lathElement boundary sp)
        s1.modLath boundary fun y => { y with
          inService := left, spare := setBit y.spare sp false, training := setBit y.training sp true
          lanes := y.lanes.map fun l => if l.link = link then { l with link := asFin 34 sp, rounds := 0 } else l }
      | none =>
        let cls : BitVec 3 := if left = 0 ∧ x.training = 0 then 4 else 3
        let s1 := (s.logFault { cls := cls, source := 7, element := el, patch := s.nextPatch }).addPatch 6 0 el noSpare
        s1.modLath boundary fun y => (y.dropLink link).judge boundary)

/-- LATH_SPARE_IN_SERVICE, R192. -/
def execLathSpareInService (boundary : Fin 10) (link : Fin 34) (s : State) : Host.Outcome State Fault Refusal :=
  .next (if bit s.net.lath[boundary].training link.val then
      s.modLath boundary fun x => { x with
        training := setBit x.training link.val false, inService := setBit x.inService link.val true }
    else s)

/-! ## The grout sink and isolation, R210, R211 -/

/-- The transaction that a request to a home answers. -/
def CohReq.txn : CohReq → Option TxId
  | .rdC id => some id
  | .wrL id _ => some id
  | .flushL id => some id
  | .atomic id .. => some id
  | _ => none

/-- A request leaves every queue it waits in at its target. -/
def State.unqueue (s : State) (id : TxId) : State :=
  let calm := fun (x : Slice) => { x with waiting := x.waiting.filter fun w => w.req.txn ≠ some id }
  { s with
    coh := { s.coh with slices := s.coh.slices.map calm }
    hbm := s.hbm.map fun x => if x.readQ.any fun r => r.id = id then { x with readQ := x.readQ.filter fun r => r.id ≠ id } else x
    fields := s.fields.map fun x =>
      if x.ft.queue.any fun r => r.id = id then { x with ft := { x.ft with queue := x.ft.queue.filter fun r => r.id ≠ id } } else x
    sites := s.sites.map fun x => { x with
      requests := x.requests.filter fun r => r.id ≠ id, held := x.held.filter fun h => h.id ≠ id } }

/-- GROUT_SINK_ANSWER, R210. -/
def execGroutSinkAnswer (id : TxId) (s : State) : Host.Outcome State Fault Refusal :=
  .next (match s.txn id with
    | none => s
    | some t =>
      match t.stage, s.txDest t with
      | .inFlight, some (g, mi) => if s.isolated g mi then s.refuseTxn t 1 else s
      | .atTarget, some (g, mi) => if s.isolated g mi then (s.unqueue id).refuseTxn t 1 else s
      | _, _ => s)

/-- R211: three timeouts within 93,750 SCLK that name an NI. -/
def State.timeoutsDue (s : State) (f : FieldId) (ni : NiId) : Bool :=
  decide (3 ≤ s.net.timeoutHits.countP fun h => h.1 = 32 * f.val + ni.val ∧ s.sclk ≤ h.2 + 93750)

/-- TIMEOUT_ISOLATION, R211. -/
def execTimeoutIsolation (f : FieldId) (ni : NiId) (s : State) : Host.Outcome State Fault Refusal :=
  .next (if s.timeoutsDue f ni then
      (s.modNet fun n => { n with timeoutHits := n.timeoutHits.filter fun h => h.1 ≠ 32 * f.val + ni.val }).isolateNi f ni
    else s)

/-- The write that NET_ISOLATE makes. -/
def State.netIsolateWrite (s : State) (value : Word) : State :=
  let f : FieldId := asFin 8 (fld value.toNat 8 3)
  let ni : NiId := asFin 32 (fld value.toNat 0 5)
  if value >>> 24 ≠ 0xC5 ∨ (19 ≤ ni.val ∧ ni.val ≤ 22) then s.note
  else s.isolateNi f ni

/-- NET_ISOLATE, R211, R213. -/
def execNetIsolate (value : Word) (s : State) : Host.Outcome State Fault Refusal :=
  .next (s.byPf0 fun s => s.netIsolateWrite value)

end Sys2Proof.Machine
end

