-- ==== Sys2Proof/Machine/Faulting.lean ====
section
/-!
DEFINITION. The commands of chapter Addresses and translation: walks, the fault ring, resumes and invalidations.
-/

namespace Sys2Proof.Machine

/-! ## The fault ring, R173 to R175, R178 -/

/-- The VF of a panel whose ring can be written: its port, its number and its page. -/
def State.ringOf (s : State) (p : PanelId) : Option (PortId × VfId) :=
  let x := s.pnl.panels[p]
  x.vf.map fun v => (x.port, v)

/-- R173, R174: a record written at the tail, a TOKEN for an engine that stalls, and the interrupt when armed. -/
def State.writeRecord (s : State) (p : PanelId) (port : PortId) (v : VfId) (i : FaultInfo) : State :=
  let y := s.vf port v
  let r := s.pnl.panels[p].ring
  let held := r.stalled.filterMap (·.token)
  let token := if i.stalls then nextToken held (held.length + 1) r.lastToken else 0
  let phase := decide (y.tail.toNat / y.ringSize % 2 = 0)
  let s1 := s.emit (.hostWrite port (some v) (y.ringBase + BitVec.ofNat 64 (64 * (y.tail.toNat % y.ringSize))) (faultRecord i phase token))
  let s2 := s1.modPanel p fun x => { x with ring := { x.ring with
    lastToken := if i.stalls then token else x.ring.lastToken
    stalled := if i.stalls then x.ring.stalled ++ [{ info := i, token := some token }] else x.ring.stalled } }
  let s3 := s2.modVf port v fun z => { z with tail := z.tail + 1, arm := false }
  if y.arm then s3.raiseMsix port v y.fringVector else s3

/-- R279, R425: whether records may be sent to the host. -/
def State.ringSends (s : State) (port : PortId) (v : VfId) : Bool := (s.vf port v).bme && s.ports[port].l0

/-- R175, R178: held records written in their order while the ring is enabled and has space. -/
def State.writeHeld (fuel : Nat) (s : State) (p : PanelId) (port : PortId) (v : VfId) : State :=
  match fuel with
  | 0 => s
  | n + 1 =>
    let y := s.vf port v
    match s.pnl.panels[p].ring.heldRecords with
    | [] => s
    | i :: rest =>
      if !y.fringEnable || decide (y.ringSize ≤ y.ringHeld) || !s.ringSends port v then s
      else
        let s1 := s.modPanel p fun x => { x with ring := { x.ring with heldRecords := rest } }
        State.writeHeld n (s1.writeRecord p port v { i with held := true }) p port v

def State.releaseRecords (s : State) (p : PanelId) (port : PortId) (v : VfId) : State :=
  s.writeHeld (s.pnl.panels[p].ring.heldRecords.length) p port v

/-- A fault taken by the ring writer: written, held, or counted. -/
def State.takeFault (s : State) (p : PanelId) (port : PortId) (v : VfId) (i : FaultInfo) : State :=
  let y := s.vf port v
  let hold := fun (t : State) => if i.stalls then
      t.modPanel p fun x => { x with ring := { x.ring with heldRecords := x.ring.heldRecords ++ [i] } } else t
  if !y.fringEnable then hold s
  else if y.ringSize ≤ y.ringHeld then
    hold (s.modVf port v fun z => { z with overflow := true, overCount := satAdd z.overCount 1 })
  else s.writeRecord p port v i

/-- FAULT_RECORD_WRITE, R174, R175, R177, R178: the next fault that has reached a panel's ring writer. -/
def execFaultRecordWrite (panel : PanelId) (s : State) : Host.Outcome State Fault Refusal :=
  .next (
    let r := s.pnl.panels[panel].ring
    match r.arrivals with
    | [] => s
    | i :: rest =>
      let s1 := s.modPanel panel fun x => { x with ring := { x.ring with arrivals := rest } }
      if r.stopped then s1
      else match s.ringOf panel with
        | none => s1
        | some (port, v) => if s.ringSends port v then s1.takeFault panel port v i else s)

/-- The write that FRING_HEAD_WRITE makes. -/
def State.fringHead (s : State) (port : PortId) (v : VfId) (value : Word) : State :=
  let y := s.vf port v
  if y.ringSize < (y.tail - value).toNat then s.noteHost port 0
  else
    let s1 := s.modVf port v fun z => { z with head := value }
    match y.bound with
    | some p => s1.releaseRecords p port v
    | none => s1

/-- FRING_HEAD_WRITE, R173, R175. -/
def execFringHeadWrite (port : PortId) (v : VfId) (value : Word) (s : State) : Host.Outcome State Fault Refusal :=
  .next (s.pageWrite port v fun s => s.fringHead port v value)

/-- R182: the fields of a FRING_CONFIG write. -/
def VfState.configRing (y : VfState) (value : Word) : VfState :=
  let log : BitVec 4 := slice value 3 0
  let y1 := { y with fringVector := slice value 12 8 }
  if y.fringEnable then { y1 with fringEnable := bit value 31 }
  else
    let y2 := { y1 with fringLog := if 6 ≤ log.toNat ∧ log.toNat ≤ 12 then log else y.fringLog }
    if bit value 31 then
      { y2 with fringEnable := true, ringBase := y2.fringBase, ringLog := y2.fringLog, tail := 0, head := 0 }
    else y2

/-- The write that FRING_ENABLE makes. -/
def State.fringConfig (s : State) (port : PortId) (v : VfId) (value : Word) : State :=
  let s1 := s.modVf port v fun y => y.configRing value
  match (s.vf port v).bound with
  | some p => s1.releaseRecords p port v
  | none => s1

/-- FRING_ENABLE, R178: a write of FRING_CONFIG. -/
def execFringEnable (port : PortId) (v : VfId) (value : Word) (s : State) : Host.Outcome State Fault Refusal :=
  .next (s.pageWrite port v fun s => s.fringConfig port v value)

/-- FRING_ARM, R174. -/
def execFringArm (port : PortId) (v : VfId) (value : Word) (s : State) : Host.Outcome State Fault Refusal :=
  .next (s.pageWrite port v fun s => s.modVf port v fun y => { y with arm := y.arm || bit value 0 })

/-! ## Resuming a stalled engine, R170, R176 -/

/-- R87, R102: the watchdog runs again once no engine of the array is stalled; a single step keeps it stopped. -/
def State.stallOver (s : State) (a : ArrayId) : State :=
  if s.arrays[a].anyStall ∨ !s.arrays[a].seq.stepOpen ∨ s.arrays[a].seq.wdRunning ∨ s.arrays[a].seq.singleStep then s
  else s.wdResume a

/-- The stalled engine that a record names goes on: a cube instruction and a move replay their tile at once, the
sequencer and a context when they issue next. -/
def State.replayTile (s : State) (p : PanelId) (i : FaultInfo) : State :=
  let a : ArrayId := asFin 40 i.key.phys.toNat
  let sub := i.key.sub.toNat
  if i.key.engine = 0 then
    (match s.arrays[a].cube.ops.find? (·.stalled) with
      | none => s
      | some o =>
        let s1 := s.modCube a fun x => x.modOp o.serial fun q => { q with stalled := false }
        (s1.stallOver a).launchOp a p { o with stalled := false })
  else if i.key.engine = 1 then
    (s.modCtx a (asFin 16 (sub / 64)) (asFin 64 sub) fun c => { c with stalled := false }).stallOver a
  else if i.key.engine = 2 then
    let s1 := (s.modMove a (asFin 8 sub) fun m => { m with stalled := false }).stallOver a
    s1.runMove (s1.moveFuel a) a p (asFin 8 sub)
  else (s.modSeq a fun x => { x with stalled := false }).stallOver a

/-- R176: the action of FAULT_RESUME on one engine, if it is still stalled under this TOKEN. -/
def State.resumeOne (s : State) (p : PanelId) (abort : Bool) (token : BitVec 16) : State :=
  match s.pnl.panels[p].ring.stalled.find? fun t => t.token = some token with
  | none => s
  | some t =>
    let s1 := s.modPanel p fun x => { x with ring := { x.ring with
      stalled := x.ring.stalled.filter fun u => u.token ≠ some token } }
    if abort then
      s1.endStep (asFin 40 t.info.key.phys.toNat) 0 0x18 token (if t.info.type = 5 then 2 else 1)
    else s1.replayTile p t.info

/-- A write of FAULT_RESUME. -/
def State.faultResume (s : State) (port : PortId) (v : VfId) (value : Word) : State :=
  match (s.vf port v).bound with
  | none => s
  | some p =>
    let action := fld value.toNat 16 2
    let token : BitVec 16 := slice value 15 0
    let named := (s.pnl.panels[p].ring.stalled.filterMap (·.token)).filter fun t => bit value 31 || t = token
    if 2 ≤ action then s
    else if named = [] ∧ !bit value 31 then s.modVf port v fun y => { y with stale := satAdd y.stale 1 }
    else named.foldl (fun t k => t.resumeOne p (action = 1) k) s

/-- FAULT_RESUME_RETRY, R176. -/
def execFaultResumeRetry (port : PortId) (v : VfId) (value : Word) (s : State) : Host.Outcome State Fault Refusal :=
  .next (s.pageWrite port v fun s => s.faultResume port v value)

/-- FAULT_RESUME_ABORT, R176. -/
def execFaultResumeAbort (port : PortId) (v : VfId) (value : Word) (s : State) : Host.Outcome State Fault Refusal :=
  .next (s.pageWrite port v fun s => s.faultResume port v value)

/-! ## The root, R166 -/

/-- R6: the low word held for a 64-bit register; zero where none has been. -/
def State.lowHeld (s : State) (r : RegAddr) : Word := ((s.heldLow.find? fun x => x.1 = r).map (·.2)).getD 0

/-- R6: a low word held. -/
def State.holdLow (s : State) (r : RegAddr) (w : Word) : State :=
  { s with heldLow := (r, w) :: s.heldLow.filter fun x => x.1 ≠ r }

/-- Both words of a 64-bit register. -/
def both (hi lo : Word) : DWord := hi ++ lo

/-- R182: the fields that TR_ROOT holds. -/
def State.writeRoot (s : State) (port : PortId) (v : VfId) (w : DWord) : State :=
  s.modVf port v fun y => { y with root := w &&& 0xFFFFFFFFF0001 }

/-- TR_ROOT_WRITE, R166, R6. -/
def execTrRootWrite (port : PortId) (v : VfId) (high : Word) (s : State) : Host.Outcome State Fault Refusal :=
  .next (s.pageWrite port v fun s => s.writeRoot port v (both high (s.lowHeld (.vf port v 0xE000))))

/-! ## Walks, R159, R164 -/

/-- The agent of an engine's walks. -/
def State.walkAgent (s : State) (p : PanelId) (e : EngineSel) (asker : WalkUnit) : Agent :=
  match e with
  | .array a => s.arrayAgent a (match asker with | .context .. => 1 | .mover _ => 2 | _ => 0)
  | .site n => { kind := 3, id := BitVec.ofNat 16 n.val, panel := some p, field := n }
  | .aperture q => { kind := 4, id := BitVec.ofNat 16 q.val, panel := some p, field := fieldOfPort q }

/-- The binding of a panel at a site. -/
def State.panelBinding (s : State) (n : SiteId) (p : PanelId) : Option Binding := s.sites[n].bindings.find? fun b => b.panel = p

/-- The tint of the request that caused a walk. -/
def State.walkTint (s : State) (p : PanelId) (e : EngineSel) : TintId :=
  match e with
  | .array a => s.tintOf a
  | .site n => ((s.panelBinding n p).map (·.tint)).getD 0
  | .aperture q => ((s.pnl.panels[p].vf).map fun v => (s.ports[q].vfs[v]).tint).getD 0

/-- R55, R168: the cube instruction whose tile is being checked, and the tile: the first with work left, when none before it
is stalled. -/
def CubeState.checking (x : CubeState) : Option CubeOp :=
  match x.ops.find? fun o => o.stalled || decide (o.started < o.passes) ||
      (insField o.word 0 26 6 = opSload && x.stat[slotOf o.word].phase ≠ .valid) with
  | some o => if o.stalled then none else some o
  | none => none

/-- R169, R172: the cube instruction that asked for a walk stalls on the first part of its tile that holds the page. -/
def State.stallCube (s : State) (a : ArrayId) (p : PanelId) (f : VaFault) : State :=
  let x := s.arrays[a].cube
  match x.checking with
  | none => s
  | some o =>
    let parts := o.parts (x.shape o.word) o.started
    let here := ((List.range parts.length).zip parts).findSome? fun q =>
      if q.2.access = f.access then (q.2.vas.find? (samePage f.va)).map fun va => (q.1, va) else none
    match here with
    | some (part, va) => s.stallOp a p o o.started part { f with va := va } (o.tileOf o.started < o.started)
    | none => s

/-- R169: the part of an array that asked for a walk stalls on its fault. -/
def State.stallFor (s : State) (a : ArrayId) (p : PanelId) (asker : WalkUnit) (f : VaFault) : State :=
  let x := s.arrays[a]
  match asker with
  | .cube => s.stallCube a p f
  | .context core idx =>
    (match x.vec.ctxs.find? fun c => c.core = core && c.idx = idx && !c.ended && !c.stalled with
      | some c => s.stallCtx a p c f false
      | none => s)
  | .mover ch =>
    (match x.moves.find? fun m => m.channel = ch && !m.done && !m.stalled with
      | some m => (s.modMove a m.channel fun y => { y with stalled := true }).stall a p
          (s.arrayKey a 2 (BitVec.ofNat 13 m.channel.val)) f false
      | none => s)
  | .sequencer => if x.seq.state = seqRunning ∧ !x.seq.stalled then s.stallSeq a p f else s
  | .port => s

/-- R169, R177: a walk that ended in a fault. -/
def State.walkFault (s : State) (w : Walk) (f : TransFault) : State :=
  let vf : VaFault := { fault := f, va := w.va, access := w.access }
  match w.engine with
  | .array a => s.stallFor a w.panel w.asker vf
  | .site n =>
    let slot := ((s.panelBinding n w.panel).map (·.slot)).getD 0
    s.plainFault w.panel 4 n (BitVec.ofNat 13 slot.val) vf
  | .aperture q => s.plainFault w.panel 5 (fieldOfPort q) 0 vf

/-- PAGE_WALK, R159, R164: a walk starts below the deepest pointer entry held, unless 32 are running. -/
def execPageWalk (f : FieldId) (panel : PanelId) (va : BitVec 55) (access : Access) (asker : WalkAsker) (s : State) :
    Host.Outcome State Fault Refusal :=
  .next (
    let t := s.fields[f].tu
    if tuField asker.engine ≠ f ∨ 32 ≤ t.walks.length then s
    else
      let w := fun (level : Nat) (table : BitVec 52) (namer : DWord) => (
        { serial := t.nextWalk, panel := panel, va := va, access := access, engine := asker.engine, asker := asker.unit, found := [], level := level,
          table := table, namer := namer } : Walk)
      match s.walkStart panel va f with
      | .error e => s.walkFault (w 2 0 0) e
      | .ok (level, table, namer) =>
        s.modTu f fun u => { u with walks := u.walks ++ [w level table namer], nextWalk := u.nextWalk + 1 })

/-- WALK_LEVEL_READ, R159, R164: the entry's code word has come back. A walk that ends in a leaf that serves the access leaves
that leaf and its pointer entries cached; one that ends in a fault leaves nothing. -/
def execWalkLevelRead (f : FieldId) (walk : Nat) (errors : List RawError) (s : State) : Host.Outcome State Fault Refusal :=
  .next (
    match s.fields[f].tu.walks.find? fun w => w.serial = walk with
    | none => s
    | some w =>
      let r := s.walkLevel (s.walkAgent w.panel w.engine w.asker) w.panel (s.walkTint w.panel w.engine) w.va w.level w.table w.namer (flipsAt errors 0)
      let s1 := r.2
      let s2 := s1.modTu f fun u => { u with walks := u.walks.filter fun y => y.serial ≠ walk }
      let entry := fun (pte : DWord) => (
        { panel := w.panel, level := w.level, index := w.va.toNat >>> levelShift w.level, pte := pte } : TlbEntry)
      match r.1 with
      | .fault e => s2.walkFault w e
      | .pointer pte =>
        let next := fun (y : Walk) => { y with
          level := y.level - 1, table := BitVec.ofNat 52 (pteAddr pte), namer := pte, found := y.found ++ [entry pte] }
        s1.modTu f fun u => { u with walks := modFirst (fun y => y.serial = walk) next u.walks }
      | .leaf pte =>
        match s2.useLeaf w.panel w.va w.access w.level pte with
        | .error e => s2.walkFault w e
        | .ok _ => (w.found.foldl (fun t e => t.cachePointer f e) s2).cacheLeaf w.engine (entry pte))

/-- MIDTILE_FAULT, R171: a page of a cube tile in progress no longer translates. -/
def execMidtileFault (a : ArrayId) (va : BitVec 55) (s : State) : Host.Outcome State Fault Refusal :=
  .next (
    let x := s.arrays[a]
    match x.panel, x.cube.ops.find? fun o => o.drained < o.started with
    | some p, some o =>
      let parts := o.parts (x.cube.shape o.word) o.drained
      let here := ((List.range parts.length).zip parts).find? fun y => y.2.vas.any fun w => w.toNat / 65536 = va.toNat / 65536
      (match here with
        | none => s
        | some (i, part) =>
          let first := ((part.vas.find? fun w => w.toNat / 65536 = va.toNat / 65536)).getD va
          match s.translate (s.arrayAgent a 0) (.array a) p (s.tintOf a) first part.access with
          | (.error f, s1) => s1.stallOp a p o o.drained i { fault := f, va := first, access := part.access } true
          | (.ok _, s1) => s1)
    | _, _ => s)

/-! ## Invalidation, R179 to R182 -/

/-- A register set of R181: its panel, and the set. -/
def State.setPanel (s : State) : SetSel → Option PanelId
  | .page port v => (s.vf port v).bound
  | .mirror p => some p

def State.invSet (s : State) : SetSel → InvSet
  | .page port v => (s.vf port v).inv
  | .mirror p => s.pnl.panels[p].inv

def State.modInv (s : State) (e : SetSel) (f : InvSet → InvSet) : State :=
  match e with
  | .page port v => s.modVf port v fun y => { y with inv := f y.inv }
  | .mirror p => s.modPanel p fun x => { x with inv := f x.inv }

/-- An entry whose range overlaps `[lo, lo + len)`. -/
def TlbEntry.overlaps (e : TlbEntry) (lo len : Nat) : Bool :=
  decide (e.index * 2 ^ levelShift e.level < lo + len ∧ lo < (e.index + 1) * 2 ^ levelShift e.level)

/-- R179: what an invalidation leaves of one translation unit. -/
def TuState.invalidate (t : TuState) (p : PanelId) (lo len : Nat) (walk : Bool) : TuState :=
  let keep := fun (c : List TlbEntry) => c.filter fun e => !(e.panel = p && e.overlaps lo len)
  { t with
    arrayTlb := t.arrayTlb.map keep, siteTlb := keep t.siteTlb, apertureTlb := keep t.apertureTlb, fieldTlb := keep t.fieldTlb
    walkCache := if walk then t.walkCache.filter fun e => e.panel ≠ p else t.walkCache
    walks := t.walks.filter fun w => w.panel ≠ p }

/-- The engines of a panel: its arrays by physical number (R17), its bound sites, and the aperture path of its VF's port. -/
def State.panelEngines (s : State) (p : PanelId) : List EngineSel :=
  let x := s.pnl.panels[p]
  ((allFin 40).filter fun a => some a ∈ x.arrays).map EngineSel.array ++
    (((allFin 8).filter fun n => s.sites[n].bindings.any fun b => b.panel = p).map EngineSel.site) ++
    (match x.vf with
      | some _ => [.aperture x.port]
      | none => [])

/-- Whether the code words of a transaction lie in a range of virtual addresses that they were translated from. -/
def Txn.ofRange (t : Txn) (lo len : Nat) : Bool :=
  t.va.any fun va => decide (va.toNat < lo + len ∧ lo < va.toNat + 64 * ((reqRun t.kind).getD 1))

/-- Whether an engine of a panel issued a transaction. -/
def Txn.byEngine (t : Txn) (p : PanelId) (e : EngineSel) : Bool :=
  match e, t.owner with
  | .array a, .arrayStep b _ _ => b = a
  | .array a, .vectorLane b _ _ _ _ _ => b = a
  | .site n, .site m _ _ => m = n && t.panel = some p
  | .aperture q, .bar2 r => r = q && t.panel = some p
  | _, _ => false

/-- R179: whether an access that an engine issued for a panel with a translation of a range is unanswered. -/
def State.engineOwes (s : State) (p : PanelId) (e : EngineSel) (x : InvSet) : Bool :=
  s.net.flight.any fun t => t.byEngine p e && !t.late && t.ofRange x.base.toNat x.length.toNat

/-- R179: a stalled, idle or debug-halted engine acknowledges at once. -/
def State.acksAtOnce (s : State) (p : PanelId) (e : EngineSel) (x : InvSet) : Bool :=
  match e with
  | .array a =>
    let q := s.arrays[a].seq
    s.arrays[a].anyStall || q.state = seqIdle || q.state = seqDebug || q.state = seqFaulted || q.state = seqHalted ||
      !s.engineOwes p (.array a) x
  | e => !s.engineOwes p e x

/-- Completion of an invalidation, R179, R182. -/
def State.invDone (s : State) (e : SetSel) (state : BitVec 4) : State :=
  let s1 := s.modInv e fun x => { x with state := state, waitingFor := [] }
  match e with
  | .page port v => if (s.vf port v).inv.irq then s1.raiseMsix port v (s.vf port v).inv.vector else s1
  | .mirror _ => s1.irq irqMirror

/-- R181: why GO is rejected. -/
def InvSet.reject (x : InvSet) : Option (BitVec 4) :=
  if x.base.toNat % 65536 ≠ 0 ∨ x.length.toNat % 65536 ≠ 0 then some 1
  else if x.length = 0 ∨ 2 ^ 55 < x.base.toNat + x.length.toNat then some 2 else none

/-- The fields of an INV_CONTROL write; VECTOR and IRQ only in a VF page. -/
def InvSet.control (x : InvSet) (e : SetSel) (value : Word) : InvSet :=
  match e with
  | .page .. => { x with vector := slice value 12 8, walk := bit value 1, irq := bit value 0 }
  | .mirror _ => { x with walk := bit value 1 }

/-- A write of INV_CONTROL. -/
def State.invControl (s : State) (e : SetSel) (value : Word) : State :=
  let x := s.invSet e
  if !bit value 31 then s.modInv e fun y => y.control e value
  else if x.state = 1 then s.note
  else
    let s1 := s.modInv e fun y => { (y.control e value) with reason := 0, forced := 0 }
    match (s1.invSet e).reject, s.setPanel e with
    | some r, _ => s1.modInv e fun y => { y with state := 4, reason := r }
    | none, none => s1
    | none, some p =>
      let y := s1.invSet e
      let s2 := (allFin 8).foldl (fun t f => t.modTu f fun u => u.invalidate p y.base.toNat y.length.toNat y.walk) s1
      let left := (s2.panelEngines p).filter fun g => !s2.acksAtOnce p g y
      let s3 := s2.modInv e fun z => { z with state := 1, waitingFor := left }
      if left = [] then s3.invDone e 2 else s3

/-- INVALIDATION_GO, R179, R181, R182. -/
def execInvalidationGo (set : SetSel) (value : Word) (s : State) : Host.Outcome State Fault Refusal :=
  .next (
    match set with
    | .page port v => s.pageWrite port v fun s => s.invControl set value
    | .mirror _ => s.byPf0 fun s => s.invControl set value)

/-- ENGINE_INVALIDATION_ACK, R179: every access that the engine issued has completed. -/
def execEngineInvalidationAck (set : SetSel) (engine : EngineSel) (s : State) : Host.Outcome State Fault Refusal :=
  .next (
    let x := s.invSet set
    match s.setPanel set with
    | none => s
    | some p =>
      if x.state ≠ 1 ∨ engine ∉ x.waitingFor ∨ !s.acksAtOnce p engine x then s
      else
        let s1 := s.modInv set fun y => { y with waitingFor := y.waitingFor.filter fun e => e ≠ engine }
        if (s1.invSet set).waitingFor = [] then s1.invDone set 2 else s1)

/-- R180: an engine that has not acknowledged is refused from now on, and reported as a hardware fault. -/
def State.forceEngine (s : State) (e : EngineSel) : State :=
  let s1 := s.modTu (tuField e) fun t => { t with refused := if e ∈ t.refused then t.refused else t.refused ++ [e] }
  match e with
  | .array a => (s1.seqFault a 0 0x19 1).retireArray a 0 0x19 1
  | .site n => s1.killSite n 0xA
  | .aperture q => s1.logFault { cls := 4, source := 10, element := BitVec.ofNat 32 q.val }

/-- INVALIDATION_FORCE, R180. -/
def execInvalidationForce (set : SetSel) (s : State) : Host.Outcome State Fault Refusal :=
  .next (
    let x := s.invSet set
    if x.state ≠ 1 then s
    else
      let s1 := x.waitingFor.foldl State.forceEngine s
      (s1.modInv set fun y => { y with forced := BitVec.ofNat 6 (min 63 x.waitingFor.length) }).invDone set 3)

/-! ## Range flushes, R236, R237 -/

/-- A write of COH_FLUSH_CONTROL; VECTOR and IRQ only in a VF page. -/
def State.flushControl (s : State) (set : SetSel) (value : Word) : State :=
  match s.flushOf set with
  | none => s
  | some (n, x) =>
    let x1 := match set with
      | .page _ _ => { x with vector := slice value 12 8, irq := bit value 0 }
      | .mirror _ => x
    let base := x.base.toNat % 2 ^ 52
    let len := x.length.toNat
    if !bit value 31 then s.setFlush set x1
    else if x.state = 1 then s.note
    else if base % 65536 ≠ 0 ∨ len % 65536 ≠ 0 ∨ len = 0 then s.setFlush set { x1 with state := 3, reason := 1 }
    else if !coveredBy s.pnl.panels[n].ranges base len then s.setFlush set { x1 with state := 3, reason := 2 }
    else
      let ls := s.linesIn base len
      (s.setFlush set { x1 with state := 1, reason := 0, todo := ls }).flushLines (s.flushTint n) ls

/-- COH_FLUSH_GO, R236, R237. -/
def execCohFlushGo (set : SetSel) (value : Word) (s : State) : Host.Outcome State Fault Refusal :=
  .next (
    match set with
    | .page port v => s.pageWrite port v fun s => s.flushControl set value
    | .mirror _ => s.byPf0 fun s => s.flushControl set value)

end Sys2Proof.Machine
end

