-- ==== Sys2Proof/Machine/SiteLife.lean ====
section
/-!
DEFINITION. The life of a chiplet site: bring-up, its descriptor and feature level, liveness, power, retrains and death
(chapter Chiplet sites, R239 to R254, R268).
-/

namespace Sys2Proof.Machine

/-! ## Bring-up, R244 -/

/-- R244: an attempt fails; the third failure refuses the site. -/
def State.siteAttemptFails (s : State) (n : SiteId) (code : Byte) : State :=
  if s.sites[n].attempt = 3 then s.endSite n code
  else s.modSite n fun x => { x with stage := .sideband, state := 1 }

/-- SITE_BRINGUP_ATTEMPT, R244 stage 1. -/
def execSiteBringupAttempt (n : SiteId) (answered : Bool) (s : State) : Host.Outcome State Fault Refusal :=
  .next (
    if s.sites[n].stage ≠ .sideband ∨ s.sites[n].attempt = 3 then s
    else
      let s1 := s.modSite n fun x => { x with attempt := x.attempt + 1, state := 1, stage := .training, descNext := 0 }
      if answered then s1 else s1.siteAttemptFails n 1)

/-- SITE_LINK_TRAINED, R244 stage 2. -/
def execSiteLinkTrained (n : SiteId) (modules : Fin 17) (rate : Fin 3) (s : State) : Host.Outcome State Fault Refusal :=
  .next (
    if s.sites[n].stage ≠ .training then s
    else if modules = 0 then s.siteAttemptFails n 2
    else s.modSite n fun x => { x with
      stage := .descriptor, state := 2, modules := BitVec.ofNat 5 modules.val, rate := BitVec.ofNat 2 rate.val
      trainedRate := BitVec.ofNat 2 rate.val, descNext := 0 })

/-- SITE_ATTEMPT_TIMEOUT, R244: a failure in stage 3 or 4 is not retried. -/
def execSiteAttemptTimeout (n : SiteId) (s : State) : Host.Outcome State Fault Refusal :=
  .next (
    match s.sites[n].stage with
    | .training => s.siteAttemptFails n 2
    | .descriptor => s.endSite n 3
    | .negotiated => s.endSite n 2
    | _ => s)

/-! ## The descriptor, R242, R243, R252, R253 -/

abbrev Desc := Vector Word 64

def dfield (d : Desc) (w : Fin 64) (lo len : Nat) : Nat := fld d[w].toNat lo len

/-- R242: the reserved bits. -/
def descReserved (d : Desc) : Bool :=
  dfield d 2 10 14 ≠ 0 || dfield d 2 5 3 ≠ 0 || dfield d 4 25 7 ≠ 0 || dfield d 5 0 13 ≠ 0 ||
    ((allFin 8).any fun e => dfield d (asFin 64 (9 + 2 * e.val)) 0 28 ≠ 0) ||
    ((allFin 16).any fun p => dfield d (asFin 64 (24 + p.val)) 0 28 ≠ 0) ||
    ((allFin 21).any fun i => d[asFin 64 (42 + i.val)] ≠ 0)

/-- R242: the ranges of the fields, and the entries of engines and endpoints that are absent. -/
def descRanges (d : Desc) : Bool :=
  let hdm := d[(40 : Fin 64)].toNat + 2 ^ 32 * d[(41 : Fin 64)].toNat
  decide (1 ≤ dfield d 0 8 8) && decide (1 ≤ dfield d 0 0 8) && decide (dfield d 0 0 8 ≤ dfield d 0 8 8) &&
    dfield d 2 8 2 ≠ 3 && decide (1 ≤ dfield d 2 0 5) && decide (dfield d 2 0 5 ≤ 16) && decide (dfield d 4 8 8 ≤ 64) &&
    decide (dfield d 5 22 3 ≤ (if dfield d 5 25 1 = 1 then 5 else 6)) && decide (dfield d 5 17 5 ≤ 16) &&
    decide (dfield d 5 13 4 ≤ 8) && hdm % 1073741824 = 0 && decide (hdm ≤ 8796093022208) &&
    ((allFin 8).all fun e => decide (dfield d (asFin 64 (9 + 2 * e.val)) 28 4 ≤ 12)) &&
    ((allFin 8).all fun e => decide (e.val < dfield d 5 13 4) ||
      (d[asFin 64 (8 + 2 * e.val)] = 0 && d[asFin 64 (9 + 2 * e.val)] = 0)) &&
    ((allFin 16).all fun p => decide (p.val < dfield d 5 17 5) || d[asFin 64 (24 + p.val)] = 0)

/-- The CRC of word 63. -/
def descCrc (d : Desc) : Bool := crc32 ((d.toList.take 63).flatMap fun w => bytesOf 4 w.toNat) = d[(63 : Fin 64)]

/-- R243: MAKER and PART above SERIAL. -/
def descIdentity (d : Desc) : BitVec 96 := BitVec.ofNat 96 (d[(1 : Fin 64)].toNat * 2 ^ 64 + d[(7 : Fin 64)].toNat * 2 ^ 32 + d[(6 : Fin 64)].toNat)

def descDouble (d : Desc) : Nat := dfield d 2 8 2
def descPower (d : Desc) : Nat := dfield d 4 16 9

/-- R244 stage 3: the checks of a descriptor on its own. -/
def State.descCheck (s : State) (n : SiteId) (d : Desc) : Option Byte :=
  if dfield d 0 16 16 ≠ 1 || !descCrc d || descReserved d || !descRanges d then some 3
  else if descIdentity d ≠ s.fuse.siteIds[n] then some 4
  else if (s.otherHalf n).isSome ≠ decide (descDouble d ≠ 0) then some 6
  else if (if descDouble d = 0 then 180 else 216) < descPower d then some 0xB
  else if !bit d[(3 : Fin 64)] 0 then some 3 else none

/-- R252, R253: the two descriptors of a double site together; `lo` is the lower-numbered half. -/
def pairCheck (lo hi : Desc) : Option Byte :=
  if descIdentity lo ≠ descIdentity hi ∨ descDouble lo ≠ 1 ∨ descDouble hi ≠ 2 then some 6
  else if 360 < descPower lo + descPower hi then some 0xB else none

/-! ## Feature levels, R247, R248 -/

/-- R247: the feature bits that a level includes. -/
def levelBits (level : Nat) : Word := if 3 ≤ level then 0x7FF else if level = 2 then 0xFF else if level = 1 then 0x3 else 0

/-- R248: a site negotiated: its level, its features and its rate; none where no level is common. -/
def SiteState.negotiate (x : SiteState) : Option SiteState :=
  let neg := min 3 (dfield x.desc 0 8 8)
  if neg < dfield x.desc 0 0 8 then none
  else
    let feats := x.desc[(3 : Fin 64)]
    let granted := feats &&& levelBits neg
    let rate : BitVec 2 := if bit granted 2 ∧ x.trainedRate = 2 then 2 else if bit granted 1 ∧ 1 ≤ x.trainedRate.toNat then 1 else 0
    some { x with
      neg := BitVec.ofNat 8 neg, granted := granted, masked := feats &&& ~~~granted, rate := rate
      double := BitVec.ofNat 2 (descDouble x.desc), stage := .negotiated }

/-- ACCEPT of R241. -/
def State.sendAccept (s : State) (n : SiteId) : State :=
  let x := s.sites[n]
  s.tellSite n 2 (x.neg.toNat * 2 ^ 56 + x.rate.toNat * 2 ^ 54 + x.masked.toNat)

/-- R248, R250: stage 4 of a site, and for a double site of both halves. -/
def State.negotiateSite (s : State) (n : SiteId) : State :=
  match s.sites[n].negotiate with
  | none => s.endSite n 5
  | some y =>
    if y.double ≠ 0 ∧ !bit y.granted 7 then s.endSite n 6
    else (s.modSite n fun _ => y).sendAccept n

/-- R241, R247, R248: the halves of a double site, lower site number first, once both descriptors have come: the pair's
check has failed by a code, or both are negotiated. -/
def State.negotiatePair (s : State) (n lo hi : SiteId) (failed : Option Byte) : State :=
  match failed with
  | some c => s.endSite n c
  | none =>
    let s1 := s.negotiateSite lo
    if s1.sites[lo].stage = .negotiated then s1.negotiateSite hi else s1

/-- Stage 3 once every word of a descriptor has come. A half of a double site waits for the other's. -/
def State.stageThree (s : State) (n : SiteId) : State :=
  match s.descCheck n s.sites[n].desc with
  | some c => s.endSite n c
  | none =>
    match s.otherHalf n with
    | none => s.negotiateSite n
    | some m =>
      if s.sites[m].stage ≠ .descriptor ∨ s.sites[m].descNext < 64 then s
      else
        let lo := if n.val < m.val then n else m
        let hi := if n.val < m.val then m else n
        s.negotiatePair n lo hi (pairCheck s.sites[lo].desc s.sites[hi].desc)

/-- DESC, R241, R242, R244. -/
def execDesc (n : SiteId) (payload : DWord) (s : State) : Host.Outcome State Fault Refusal :=
  .next (
    let x := s.sites[n]
    let i := fld payload.toNat 58 6
    if x.stage ≠ .descriptor then s
    else if x.descNext ≠ i then s.endSite n 3
    else
      let s1 := s.modSite n fun y => { y with
        desc := vset y.desc (asFin 64 i) (payload.setWidth 32), descNext := i + 1
        chipMax := if i = 0 then slice payload 15 8 else y.chipMax, chipMin := if i = 0 then slice payload 7 0 else y.chipMin }
      if i = 63 then s1.stageThree n else s1)

/-- R257: the BARs of a chiplet's function placed one after another in its 256 MiB register region, each at a multiple of its
size: base and size, or a size of 0 for one that is absent or does not fit. -/
def placeBars (from_ : Nat) : List Nat → List (Nat × Nat)
  | [] => []
  | z :: zs =>
    let b := (from_ + z - 1) / z * z
    if z = 0 ∨ 2 ^ 28 < b + z then (0, 0) :: placeBars from_ zs else (b, z) :: placeBars (b + z) zs

/-- R257: the Type 0 configuration accesses by which the site port enumerates a chiplet's one function and assigns its BARs:
its identity is read, each BAR is sized and written, and its Memory Space Enable is set. -/
def State.enumerate (s : State) (n : SiteId) : State :=
  let bars := placeBars 0 ((Config.barSizes n).take 6)
  let one := fun (t : State) (x : Nat × (Nat × Nat)) =>
    let o : BitVec 12 := BitVec.ofNat 12 (0x10 + 4 * x.1)
    let sized := (t.emit (.cxlConfig n true o 0xFFFFFFFF)).emit (.cxlConfig n false o 0)
    if x.2.2 = 0 then sized else sized.emit (.cxlConfig n true o (BitVec.ofNat 32 x.2.1))
  let s1 := ((List.range bars.length).zip bars).foldl one (s.emit (.cxlConfig n false 0 0))
  (s1.emit (.cxlConfig n true 4 2)).modSite n fun x => { x with bars := bars }

/-- SITE_IN_SERVICE, R244 stage 5, R245, R257, R312. -/
def execSiteInService (n : SiteId) (s : State) : Host.Outcome State Fault Refusal :=
  .next (
    if s.sites[n].stage ≠ .negotiated then s
    else
      let s1 := s.modSite n fun x => { x with
        stage := .done, state := 3, ready := !s.fields[n].leftOut, failCode := 0, credit := Vector.replicate 16 0 }
      let named := !s.img.loaded || bit s.img.siteMask n.val
      let s2 := if bit s.sites[n].granted 5 then s1.enumerate n else s1
      (if named then s2.setSink n 16 false else s2).readyFrom s)

/-! ## Liveness, R241, R268 -/

/-- LIVE, R241, R268. -/
def execLive (n : SiteId) (payload : DWord) (s : State) : Host.Outcome State Fault Refusal :=
  .next (
    let x := s.sites[n]
    if !(x.state = 2 ∨ x.inService) then s
    else
      let s1 := s.modSite n fun y => { y with live := payload.setWidth 16, liveSeen := true }
      if bit payload 63 then s1.killSite n 8 else s1)

/-- LIVE_TIMEOUT, R268. -/
def execLiveTimeout (n : SiteId) (s : State) : Host.Outcome State Fault Refusal := .next (s.killSite n 8)

/-! ## Power, R253 -/

/-- R253: rail power removed from a site, and from the other half of a double site. -/
def State.dropRail (s : State) (n : SiteId) : State :=
  if s.sites[n].enabled then (s.modSite n fun x => { x with enabled := false }).emit (.siteEnable n false) else s

def State.powerFault (s : State) (n : SiteId) : State :=
  let s1 := (s.endSite n 7).dropRail n
  match s.otherHalf n with
  | some m => if s.sites[n].double ≠ 0 then s1.dropRail m else s1
  | none => s1

/-- THROTTLE sent to a site. -/
def State.throttleHalf (s : State) (n : SiteId) (on : Bool) : State :=
  (s.tellSite n 9 (if on then 1 else 0)).modSite n fun x => { x with throttle := on, throttleSamples := 0, belowSamples := 0 }

/-- The other half that shares a site's budget. -/
def State.sharedHalf (s : State) (n : SiteId) : Option SiteId :=
  if s.sites[n].double ≠ 0 then s.otherHalf n else none

def State.throttleSite (s : State) (n : SiteId) (on : Bool) : State :=
  let s1 := s.throttleHalf n on
  match s.sharedHalf n with
  | some m => s1.throttleHalf m on
  | none => s1

/-- SITE_POWER_SAMPLE, R253: every 10 µs, so that 100 samples make 1 ms. -/
def execSitePowerSample (n : SiteId) (sample average : BitVec 10) (s : State) : Host.Outcome State Fault Refusal :=
  .next (
    if !s.sites[n].enabled then s
    else
      let s1 := s.modSite n fun x => { x with avgW := average, maxW := if x.maxW.toNat < average.toNat then average else x.maxW }
      let half := s1.sharedHalf n
      let total := average.toNat + (match half with
        | some m => s1.sites[m].avgW.toNat
        | none => 0)
      let limit := if half.isSome then 360 else 180
      let x := s1.sites[n]
      let late := x.throttle && x.throttleSamples = 99 && decide (limit < total)
      if 216 < sample.toNat ∨ limit * 11 ≤ total * 10 ∨ late then s1.powerFault n
      else
        let below := if total < limit then x.belowSamples + 1 else 0
        let s2 := s1.modSite n fun y => { y with
          throttleSamples := if y.throttle then y.throttleSamples + 1 else 0, belowSamples := below }
        if limit < total ∧ !x.throttle then s2.throttleSite n true
        else if x.throttle ∧ 100 ≤ below then s2.throttleSite n false
        else s2)

/-! ## Retrains, R240 -/

/-- Retrains within the last 93,750,000 SCLK. -/
def State.recentRetrains (s : State) (n : SiteId) : List Nat :=
  s.sites[n].retrainAt.filter fun t => decide (s.sclk < t + 93750000)

/-- Transactions at a site's port, sent to the chiplet or still waiting there. -/
def State.siteTxns (s : State) (n : SiteId) : List TxId :=
  (s.net.flight.filter fun t => t.stage = .atTarget && s.txDest t = some (n, 16)).map (·.id)

/-- SITE_ADAPTER_RETRY_TIMEOUT, R240, R269: after some retry rounds the link retrains, or the third retrain in 1 s ends the site. -/
def execSiteAdapterRetryTimeout (x : SiteRetries) (s : State) : Host.Outcome State Fault Refusal :=
  .next (
    let n := x.site
    if s.sites[n].state ≠ 3 then s
    else
      let recent := s.recentRetrains n
      let s1 := s.modSite n fun y => { y with replays := satAdd y.replays x.rounds.toNat, retrainAt := recent ++ [s.sclk] }
      if 2 ≤ recent.length then s1.killSite n 9
      else
        let s2 := (s1.modSite n fun y => { y with state := 4 }).logFault
          { cls := 1, source := 9, element := BitVec.ofNat 32 n.val }
        (s.siteTxns n).foldl (fun t i => t.siteGiveUp n i) s2)

/-- SITE_RETRAIN_DONE, R240. -/
def execSiteRetrainDone (n : SiteId) (modules : Fin 17) (passed : Bool) (s : State) : Host.Outcome State Fault Refusal :=
  .next (
    let x := s.sites[n]
    if x.state ≠ 4 then s
    else if !passed ∨ modules = 0 then s.killSite n 9
    else
      let m := min modules.val x.modules.toNat
      let s1 := s.modSite n fun y => { y with state := 3, modules := BitVec.ofNat 5 m }
      if m < x.modules.toNat then s1.logFault { cls := 3, source := 9, element := BitVec.ofNat 32 n.val } else s1)

/-! ## Death, R268 -/

/-- SITE_DEATH, R268: for a cause of the rule. -/
def execSiteDeath (n : SiteId) (code : Byte) (s : State) : Host.Outcome State Fault Refusal :=
  .next (if 7 ≤ code.toNat ∧ code.toNat ≤ 0xA then s.killSite n code else s)

/-- SITE_RAIL_REMOVAL, R268, R394. -/
def execSiteRailRemoval (n : SiteId) (s : State) : Host.Outcome State Fault Refusal :=
  .next (if s.sites[n].state = 5 then s.dropRail n else s)

end Sys2Proof.Machine
end

