-- ==== Sys2Proof/Machine/SiteStream.lean ====
section
/-!
DEFINITION. The site stream: requests, responses, credits and coherence messages of a chiplet (chapter Chiplet sites,
R255 to R266).
-/

namespace Sys2Proof.Machine

/-! ## Headers, R259 -/

structure SiteMsg where
  type : Nat
  count : Nat
  poison : Nat
  status : Nat
  tag : BitVec 12
  va : BitVec 55
  binding : Byte
  arg : Nat
  reserved : Bool
  deriving DecidableEq, Repr

/-- R259: a header taken apart. -/
def siteMsg (h : BitVec 128) : SiteMsg :=
  let n := h.toNat
  { type := fld n 26 6, count := fld n 23 3, poison := fld n 18 4, status := fld n 14 4, tag := BitVec.ofNat 12 n
    va := BitVec.ofNat 55 (fld n 32 32 + fld n 64 23 * 2 ^ 32), binding := BitVec.ofNat 8 (fld n 88 8), arg := fld n 96 32
    reserved := fld n 22 1 ≠ 0 || fld n 12 2 ≠ 0 || fld n 87 1 ≠ 0 }

/-- R263: payload words with the marks that the header gives them. -/
def SiteMsg.words (m : SiteMsg) (ws : List CodeWord) : List CodeWord :=
  ((List.range m.count).zip ws).map fun x => { data := x.2.data, mark := x.2.mark || Nat.testBit m.poison x.1 }

/-! ## Requests of a chiplet, R260 to R264, R267 -/

/-- What a response to a chiplet is: RDATA, WACK or ATRESP. -/
def State.replySite (s : State) (n : SiteId) (kind : ReqKind) (m : SiteMsg) (status : Nat) (ws : List CodeWord) : State :=
  s.answerSite n kind m.tag.toNat m.binding status ws

/-- A site's request logged against it and answered with a status. -/
def State.rejectSite (s : State) (n : SiteId) (kind : ReqKind) (m : SiteMsg) (status : Nat) : State :=
  (s.noteSite n (BitVec.ofNat 8 status)).replySite n kind m status (refusedData kind)

/-- R267, R249, R261: a message's binding, or the status that it is answered with. -/
def State.siteAdmit (s : State) (n : SiteId) (m : SiteMsg) (feature : Nat) (bad : Bool) : Except Nat Binding :=
  match s.bindingOf n m.binding with
  | none => .error 9
  | some b => if !bit s.sites[n].granted feature then .error 0xA else if bad then .error 0xB else .ok b

/-- The site port as an engine of a binding's panel. -/
def siteEng (n : SiteId) (b : Binding) (tag : BitVec 12) : Eng :=
  { agent := { kind := 3, id := BitVec.ofNat 16 n.val, panel := some b.panel, field := n }
    sel := .site n, panel := b.panel, tint := b.tint, ni := 16, cache := none, owner := .site n tag b.tag }

/-- The addresses of `n` code words. -/
def runVas (va : BitVec 55) (n : Nat) : List (BitVec 55) := (List.range n).map fun i => va + BitVec.ofNat 55 (64 * i)

/-- R177: a request whose address does not translate. -/
def State.siteFault (s : State) (n : SiteId) (b : Binding) (kind : ReqKind) (m : SiteMsg) (f : VaFault) : State :=
  (s.plainFault b.panel 4 n (BitVec.ofNat 13 b.slot.val) f).replySite n kind m 8 (refusedData kind)

/-- The virtual address a request names: a signal names none. -/
def askedVa (kind : ReqKind) (m : SiteMsg) : Option (BitVec 55) :=
  match kind with
  | .signal .. => none
  | _ => some m.va

/-- R262: a request sent into the network under the tint of its binding; it waits while no tag is free. -/
def State.siteInject (s s0 : State) (n : SiteId) (b : Binding) (pa : BitVec 52) (kind : ReqKind) (m : SiteMsg) : State :=
  match s.inject n 16 b.tint (some b.panel) pa kind (.site n m.tag b.tag) (askedVa kind m) with
  | some r => r.2
  | none => s0

/-- The worst status of replies. -/
def worstStatus (rs : List Reply) : BitVec 3 := rs.foldl (fun st r => if st = 0 then r.status else st) 0

/-- R260: the tags of reads and writes, and those of atomics and signals; a tag of the other range is malformed (DEDUCED,
assumption log 87). -/
def SiteMsg.tagWrong (m : SiteMsg) : Bool := if m.type = 1 ∨ m.type = 2 then decide (0xC00 ≤ m.tag.toNat) else decide (m.tag.toNat < 0xC00)

/-- R260: the types of messages that a chiplet may send. -/
def siteTypes : List Nat := [1, 2, 3, 4, 5, 8, 9, 10, 0x10, 0x13, 0x14]

/-- R261: a message of a type that is not defined is answered with status 0xB, in a WACK (DEDUCED, assumption log 87). -/
def State.siteUndefined (s : State) (n : SiteId) (m : SiteMsg) : State :=
  s.rejectSite n (.write []) m 0xB

/-- SITE_RD, R134, R177, R215, R261, R262. -/
def execSiteRd (n : SiteId) (header : BitVec 128) (s : State) : Host.Outcome State Fault Refusal :=
  .next (
    let m := siteMsg header
    let kind : ReqKind := .read m.count
    let bad := m.reserved || m.status ≠ 0 || m.poison ≠ 0 || m.arg ≠ 0 || m.count = 0 || decide (4 < m.count) ||
      m.va.toNat % 64 ≠ 0 || decide (256 < m.va.toNat % 256 + 64 * m.count)
    if s.sites[n].state ≠ 3 then s
    else if m.type ∉ siteTypes then s.siteUndefined n m
    else if m.type ≠ 1 then s
    else match s.siteAdmit n m 0 (bad || m.tagWrong) with
      | .error st => s.rejectSite n kind m st
      | .ok b =>
        let e := siteEng n b m.tag
        let vas := runVas m.va m.count
        if s.plainBusy e .read vas then s
        else match s.translate e.agent e.sel e.panel e.tint m.va .read with
          | (.error f, s1) => s1.siteFault n b kind m { fault := f, va := m.va, access := .read }
          | (.ok .refused, s1) => s1.replySite n kind m 1 (refusedData kind)
          | (.ok (.host _), s1) =>
            (match s1.readPlainVas e .read vas with
              | (.error f, s2) => s2.siteFault n b kind m f
              | (.ok rs, s2) => s2.replySite n kind m (worstStatus rs).toNat (rs.map (·.word)))
          | (.ok (.pa pa), s1) =>
            if s1.coherentAt pa then
              match s1.readPlainVas e .read vas with
              | (.error f, s2) => s2.siteFault n b kind m f
              | (.ok rs, s2) => s2.replySite n kind m (worstStatus rs).toNat (rs.map (·.word))
            else s1.siteInject s n b (s1.nearCopy n pa) kind m)

/-- SITE_WR, R134, R177, R215, R262, R263. -/
def execSiteWr (n : SiteId) (header : BitVec 128) (words : List CodeWord) (s : State) : Host.Outcome State Fault Refusal :=
  .next (
    let m := siteMsg header
    let ws := m.words words
    let kind : ReqKind := .write ws
    let bad := m.reserved || m.status ≠ 0 || m.arg ≠ 0
    let broken := m.va.toNat % 64 ≠ 0 || m.count = 0 || decide (4 < m.count) || decide (256 < m.va.toNat % 256 + 64 * m.count)
    if s.sites[n].state ≠ 3 ∨ m.type ≠ 2 ∨ words.length < m.count then s
    else match s.siteAdmit n m 0 (bad || m.tagWrong) with
      | .error st => s.rejectSite n kind m st
      | .ok b =>
        let e := siteEng n b m.tag
        if broken then (s.accessEvent 8 e.agent (s.leadsTo e .write (wordVa m.va))).replySite n kind m 5 []
        else if s.plainBusy e .write (runVas m.va m.count) then s
        else match s.translate e.agent e.sel e.panel e.tint m.va .write with
          | (.error f, s1) => s1.siteFault n b kind m { fault := f, va := m.va, access := .write }
          | (.ok .refused, s1) => s1.replySite n kind m 1 []
          | (.ok (.host a), s1) =>
            (match s1.writeTarget e (.host a) ws with
              | some (st, s2) => s2.replySite n kind m st.toNat []
              | none => s)
          | (.ok (.pa pa), s1) =>
            if s1.coherentAt pa then
              (let r := s1.cohWriteRun e.src e.panel e.tint pa ws
               r.2.replySite n kind m r.1.toNat [])
            else s1.siteInject s n b pa kind m)

/-- SITE_AT, R73, R135, R177, R260: host memory takes no network atomic. -/
def execSiteAt (n : SiteId) (header : BitVec 128) (operand : CodeWord) (compare : DWord) (s : State) :
    Host.Outcome State Fault Refusal :=
  .next (
    let m := siteMsg header
    let op := atomicOfCode (m.arg / 2 ^ 28)
    let off := m.arg % 64
    let size := (op.map atomicSize).getD 8
    let o := BitVec.ofNat 64 (fld operand.data.toNat (8 * off) (8 * size))
    let kind : ReqKind := .atomic (op.getD .add32) (asFin 64 off) o compare (operand.mark || Nat.testBit m.poison 0)
    let bad := m.reserved || m.status ≠ 0 || op.isNone || off % size ≠ 0 || fld m.arg 6 22 ≠ 0 ||
      !(m.count = 1 || (m.count = 2 && op = some .cas64))
    if s.sites[n].state ≠ 3 ∨ m.type ≠ 3 then s
    else match s.siteAdmit n m 3 (bad || m.tagWrong) with
      | .error st => s.rejectSite n kind m st
      | .ok b =>
        let e := siteEng n b m.tag
        match s.translate e.agent e.sel e.panel e.tint (wordVa m.va) .atomic with
        | (.error f, s1) => s1.siteFault n b kind m { fault := f, va := wordVa m.va, access := .atomic }
        | (.ok .refused, s1) => s1.replySite n kind m 1 (refusedData kind)
        | (.ok (.host _), s1) => (s1.hostRefused b.panel).replySite n kind m 3 (refusedData kind)
        | (.ok (.pa pa), s1) => s1.siteInject s n b pa kind m)

/-- SITE_SIG, R99, R264. A signal for an array that is not the panel's is dropped, and logged against the site. -/
def execSiteSig (n : SiteId) (header : BitVec 128) (s : State) : Host.Outcome State Fault Refusal :=
  .next (
    let m := siteMsg header
    let sem : Fin 64 := asFin 64 (fld m.arg 20 6)
    let inc : Byte := BitVec.ofNat 8 m.arg
    let kind : ReqKind := .signal n 16 sem inc 0
    let bad := m.reserved || m.status ≠ 0 || m.count ≠ 0 || m.poison ≠ 0 || m.va ≠ 0 || fld m.arg 8 12 ≠ 0 || inc = 0
    if s.sites[n].state ≠ 3 ∨ m.type ≠ 4 then s
    else match s.siteAdmit n m 0 (bad || m.tagWrong) with
      | .error st => s.rejectSite n kind m st
      | .ok b =>
        match s.arrayOf b.panel (fld m.arg 26 6) with
        | none => s.rejectSite n kind m 6
        | some a => s.siteInject s n b 0 (.signal (fieldOfArray a) (niOfArray a) sem inc 0) m)

/-! ## Credits and endpoints, R256 -/

/-- CREDIT, R256, R249. -/
def execCredit (n : SiteId) (header : BitVec 128) (s : State) : Host.Outcome State Fault Refusal :=
  .next (
    let m := siteMsg header
    let p := m.arg / 2 ^ 28
    let bad := m.reserved || m.status ≠ 0 || m.count ≠ 0 || m.poison ≠ 0 || fld m.arg 16 12 ≠ 0 ||
      decide (s.sites[n].endpoints ≤ p)
    if s.sites[n].state ≠ 3 ∨ m.type ≠ 5 then s
    else match s.siteAdmit n m 4 bad with
      | .error st => s.noteSite n (BitVec.ofNat 8 st)
      | .ok _ =>
        let e : Fin 16 := asFin 16 p
        let sum := s.sites[n].credit[e] + m.arg % 65536
        let s1 := s.modSite n fun x => { x with credit := vset x.credit e (min sum 16384) }
        let s2 := if 16384 < sum then s1.noteSite n 0 else s1
        s2.releaseHeld n e s2.sites[n].held.length)

/-- ENDPOINT_WRITE, R256: a write that has reached the site port is held until credit covers it. -/
def execEndpointWrite (n : SiteId) (id : TxId) (endpoint : Fin 16) (offset : BitVec 20) (words : List CodeWord) (s : State) :
    Host.Outcome State Fault Refusal :=
  .next (
    let x := s.sites[n]
    let asked := x.held.any (fun h => h.id = id) || x.requests.any fun r => r.id = id
    match s.txn id with
    | none => s
    | some t =>
      if x.state = 4 then s else
      let here := !paPartner t.pa && paSpace t.pa = 4 && paField t.pa = n &&
        paNear t.pa = 0x8000000 + endpoint.val * 0x100000 + offset.toNat
      if t.kind ≠ .write words ∨ t.stage ≠ .atTarget ∨ asked ∨ !here then s
      else
        let h : HeldWrite := { id := id, endpoint := endpoint, offset := offset, words := words }
        (s.modSite n fun y => { y with held := y.held ++ [h] }).releaseHeld n endpoint (x.held.length + 1))

/-! ## Signals to an engine, responses and timeouts, R261, R265, R266 -/

/-- SITE_SIGNAL_TO_ENGINE, R208, R265. -/
def execSiteSignalToEngine (id : TxId) (s : State) : Host.Outcome State Fault Refusal :=
  .next (
    match s.txn id with
    | none => s
    | some t =>
      match t.kind, t.stage with
      | .signal n ni sem inc slot, .atTarget =>
        let x := s.sites[n]
        if ni ≠ 16 ∨ s.isolated n 16 ∨ x.state ≠ 3 ∨ x.requests.any fun r => r.id = id then s
        else match s.dedupOf n 16 id with
          | some e => s.answerTxn id e.status e.data
          | none =>
            match (t.panel.bind fun p => s.pnl.panels[p].slots[slot]).bind fun y => s.bindingOf n y.2 with
            | none => (s.refuseTxn t 6).remember n 16 id 6 []
            | some b =>
              match x.freeTag true with
              | none => s
              | some tag =>
                let arg := b.target.toNat * 2 ^ 28 + sem.val * 2 ^ 20 + inc.toNat
                (s.emit (.siteStream n (siteHeader 4 0 0 0 tag 0 b.tag.toNat arg) [])).modSite n fun y =>
                  { y with requests := y.requests ++ [{ tag := BitVec.ofNat 12 tag, id := id, first := 0, count := 0 }] }
      | _, _ => s)

/-- SITE_RESPONSE, R257, R261, R266: a late answer is discarded. -/
def execSiteResponse (n : SiteId) (header : BitVec 128) (words : List CodeWord) (s : State) :
    Host.Outcome State Fault Refusal :=
  .next (
    let m := siteMsg header
    if s.sites[n].state ≠ 3 ∨ !(m.type = 8 ∨ m.type = 9 ∨ m.type = 10) then s
    else match s.sites[n].requests.find? fun r => r.tag = m.tag with
      | none => s
      | some r => s.siteAnswered n r (siteStatus m.status) (m.words words))

/-- SITE_REQUEST_TIMEOUT, R266, R207, R211. -/
def execSiteRequestTimeout (n : SiteId) (tag : BitVec 12) (s : State) : Host.Outcome State Fault Refusal :=
  .next (
    match s.sites[n].requests.find? fun r => r.tag = tag with
    | none => s
    | some r => (s.siteGiveUp n r.id).timedOut ((s.txn r.id).bind (·.panel)) (n, 16))

/-! ## Native coherence messages, R258, R260 -/

/-- R218: native agent `j` of a site. -/
def nativeAgent (n : SiteId) (j : Fin 6) : AgentId := asFin 96 (48 + 6 * n.val + j.val)

/-- R249, R258, R260: a coherence message of a native agent: admitted for a line of the panel it is bound to. -/
def State.cohAdmit (s : State) (n : SiteId) (j : Fin 6) (m : SiteMsg) : Except Nat (BitVec 52 × CohFrom) :=
  let pa : BitVec 52 := m.va.setWidth 52 &&& ~~~63#52
  match s.siteAdmit n m 9 (m.reserved || m.status ≠ 0 || decide (s.sites[n].nativeAgents ≤ j.val)) with
  | .error st => .error st
  | .ok b =>
    if b.target = BitVec.ofNat 4 (8 + j.val) ∧ s.coherentPanel pa = some b.panel then
      .ok (pa, { tint := b.tint, tag := m.tag, bind := m.binding, cxl := none })
    else .error 9

/-- A coherence request turned away: COH_CMP with a status. -/
def State.cohReject (s : State) (n : SiteId) (m : SiteMsg) (status : Nat) : State :=
  (s.noteSite n (BitVec.ofNat 8 status)).emit
    (.siteStream n (siteHeader 0x11 0 0 status m.tag.toNat m.va.toNat m.binding.toNat 0) [])

/-- COH_REQ, R219, R225, R229, R260. -/
def execCohReq (n : SiteId) (agent : Fin 6) (header : BitVec 128) (word : CodeWord) (s : State) :
    Host.Outcome State Fault Refusal :=
  .next (
    let m := siteMsg header
    let a := nativeAgent n agent
    if s.sites[n].state ≠ 3 ∨ m.type ≠ 0x10 then s
    else match s.cohAdmit n agent m with
      | .error st => s.cohReject n m st
      | .ok (pa, src) =>
        let w : CodeWord := { data := word.data, mark := word.mark || Nat.testBit m.poison 0 }
        let k := m.arg % 16
        if k = 0 then s.agentRequest a pa (.rdS a false) src
        else if k = 1 then s.agentRequest a pa (.rdX a) src
        else if k = 2 then s.agentRequest a pa (.upg a) src
        else if k = 3 then s.agentRequest a pa (.invX a) src
        else if k = 4 then s.sendWb a pa (BitVec.ofNat 12 (fld m.arg 16 12)) w src
        else s.cohReject n m 0xB)

/-- The answer that a COH_RSP carries. -/
def SiteMsg.snoopAnswer (m : SiteMsg) (word : CodeWord) : SnoopAnswer :=
  let r := m.arg % 8
  { hasData := r = 2, dirty := r = 2 && Nat.testBit m.arg 4, notPresent := r = 3
    wbp := if Nat.testBit m.arg 5 then some (BitVec.ofNat 12 (fld m.arg 16 12)) else none
    word := { data := word.data, mark := word.mark || Nat.testBit m.poison 0 } }

/-- COH_RSP, R227, R260. -/
def execCohRsp (n : SiteId) (agent : Fin 6) (header : BitVec 128) (word : CodeWord) (s : State) :
    Host.Outcome State Fault Refusal :=
  .next (
    let m := siteMsg header
    if s.sites[n].state ≠ 3 ∨ m.type ≠ 0x13 then s
    else match s.cohAdmit n agent m with
      | .error st => s.noteSite n (BitVec.ofNat 8 st)
      | .ok (pa, _) =>
        let f := s.homeOf pa
        (s.takeAnswer f (lineOf pa) (nativeAgent n agent) (m.snoopAnswer word)).pump f)

/-- COH_ACK, R223, R260: from inside the hub, or a native-profile agent's message. -/
def execCohAck (src : CohAckFrom) (s : State) : Host.Outcome State Fault Refusal :=
  .next (
    match src with
    | .hub pa => s.ackLine pa none
    | .native n j header =>
      let m := siteMsg header
      if s.sites[n].state ≠ 3 ∨ m.type ≠ 0x14 then s
      else match s.cohAdmit n j m with
        | .error st => s.noteSite n (BitVec.ofNat 8 st)
        | .ok (at_, _) => if m.arg ≠ 0 ∨ m.count ≠ 0 then s.noteSite n 0xB else s.ackLine at_ (some (nativeAgent n j)))

/-! ## CXL, R257 -/

/-- The model's numbers for an answer to an unsupported request: GO-Err, Unsupported Request, NDR or DRS with poison
(assumption log 11). -/
def cxlRefusal : CxlClass → Byte
  | .cache => cxlGoErr
  | .io => 7
  | .mem => 8

/-- CXL_UNSUPPORTED, R257. -/
def execCxlUnsupported (n : SiteId) (cls : CxlClass) (s : State) : Host.Outcome State Fault Refusal :=
  .next (
    if s.sites[n].state ≠ 3 then s
    else (s.emit (.cxlAnswer n (cxlRefusal cls) (if cls = .mem then some poisonWord else none))).noteSite n 0)

end Sys2Proof.Machine
end

