-- ==== Sys2Proof/Machine/TwinPair.lean ====
section
/-!
DEFINITION. Twinned panels: checkpoint streams, seeds, fencing and promotion (chapter Faults, spares and twins, R380 to
R388).
-/

namespace Sys2Proof.Machine

/-! ## Messages, R376 -/

structure TwinMsg where
  type : Nat
  count : Nat
  enc : Bool
  poison : Nat
  status : Nat
  tag : BitVec 12
  addr : Nat
  binding : BindId
  range : Nat
  field : FieldId
  ni : NiId
  arg : Nat
  reserved : Bool
  deriving DecidableEq, Repr

/-- R376: a header taken apart. -/
def twinMsg (h : BitVec 128) : TwinMsg :=
  let n := h.toNat
  { type := fld n 26 6, count := fld n 23 3, enc := Nat.testBit n 22, poison := fld n 18 4, status := fld n 14 4
    tag := BitVec.ofNat 12 n, addr := fld n 32 32 + fld n 64 20 * 2 ^ 32, binding := asFin 64 (fld n 90 6)
    range := fld n 84 2, field := asFin 8 (fld n 125 3), ni := asFin 32 (fld n 120 5), arg := fld n 96 24
    reserved := fld n 12 2 ≠ 0 || fld n 86 4 ≠ 0 }

/-- R377: payload words with the marks that the header gives them. -/
def TwinMsg.words (m : TwinMsg) (ws : List CodeWord) : List CodeWord :=
  ((List.range m.count).zip ws).map fun x => { data := x.2.data, mark := x.2.mark || Nat.testBit m.poison x.1 }

/-! ## Bindings and their ports -/

def State.bindPanel (s : State) (b : BindId) : PanelState := s.pnl.panels[s.twin.bindings[b].panel]

def otherPort (k : PortId) : PortId := if k = 0 then 1 else 0

/-- R377, R385: the port a binding's messages use: its own, or with ALT the other, when up. -/
def State.bindPort (s : State) (b : BindId) : Option PortId :=
  let x := s.twin.bindings[b]
  if s.twinUp x.port then some x.port else if x.alt && s.twinUp (otherPort x.port) then some (otherPort x.port) else none

/-- A message about a binding, with a payload of at most one code word; not sent while no port of the binding is up. -/
def State.tellBind (s : State) (b : BindId) (type arg : Nat) (payload : Option (BitVec 512)) : State :=
  match s.bindPort b with
  | none => s
  | some k => s.tellTwin k (twinHeader type payload.toList.length 0 0 0 0 b.val 0 0 0 arg) (s.bindPanel b).sealed_
      (payload.toList.map fun d => { data := d, mark := false })

/-- R376, R383: the payload of BIND_QUERY and BIND_REPLY. -/
def State.bindPayload (s : State) (b : BindId) : BitVec 512 :=
  let x := s.twin.bindings[b]
  bytesWord ([BitVec.ofNat 8 x.role.toNat, BitVec.ofNat 8 (flag (s.bindPanel b).sealed_ 0), 0, 0, 0, 0, 0, 0] ++
    (List.range 4).flatMap fun i => bytesOf 8 (((x.ranges[i]?).map (·.length)).getD 0))

/-- R376: the payload of BIND_REPLY for a binding that is absent. -/
abbrev absentPayload : BitVec 512 := 0xFF

/-- R388: BIND_REPLY for a binding that this package does not hold, on the port that was asked. -/
def State.replyAbsent (s : State) (k : PortId) (b : BindId) : State :=
  s.tellTwin k (twinHeader 0x29 1 0 0 0 0 b.val 0 0 0 0) false [{ data := absentPayload, mark := false }]

def mirrorIs (b : BindId) : Mirror → Bool
  | .ckpt c _ _ _ => c = b
  | .mark c _ _ _ => c = b

/-- R385, R388: a binding's mirror queue is emptied. -/
def State.emptyMirror (s : State) (b : BindId) : State :=
  (s.modTwin fun t => { t with ports := t.ports.map fun x => { x with queue := x.queue.filter fun m => !mirrorIs b m } }).modBind b
    fun x => { x with pendingWords := 0, marks := [] }

/-- R385, R388: the held completions of a binding's panel are released. -/
def State.releasePanel (s : State) (p : PanelId) : State :=
  match s.pnl.panels[p].vf with
  | none => s
  | some v => s.releaseComps s.pnl.panels[p].port v fun _ => true

/-- Fetching goes on in the queues of a panel's VF. -/
def State.fetchPanel (s : State) (p : PanelId) : State :=
  match s.pnl.panels[p].vf with
  | none => s
  | some v => s.fetchVf s.pnl.panels[p].port v

/-- A binding changes its state. -/
def State.bindTo (s : State) (b : BindId) (st : BitVec 4) : State := s.modBind b fun x => { x with state := st }

/-! ## Halting a panel's invocations, R93, R385, R387 -/

/-- R93: a started invocation is halted, and no completion of it is written. -/
def State.haltSilent (s : State) (q : QRef) : State :=
  match s.taken q with
  | some t =>
    if t.started.isSome then (s.modQ q fun x => { x with taken := x.taken.map fun y => { y with noCompletion := true } }).endInv q 6 0 none
    else s
  | none => s

def State.panelQueues (s : State) (p : PanelId) : List QRef :=
  match s.pnl.panels[p].vf with
  | none => []
  | some v => State.vfQueues s.pnl.panels[p].port v

def State.haltPanel (s : State) (p : PanelId) : State := (s.panelQueues p).foldl State.haltSilent s

/-- R385: a panel's held completions are discarded. -/
def State.discardComps (s : State) (p : PanelId) : State :=
  (s.panelQueues p).foldl (fun t q => t.modQ q fun x => { x with comps := x.comps.filter fun c => c.epoch.isNone }) s

/-- R387: a fence is complete once every marked epoch has been acknowledged, or when no port is up. -/
def State.fenceDone (s : State) (b : BindId) : State :=
  let x := s.twin.bindings[b]
  if x.fencing && (x.marks = [] || (s.bindPort b).isNone) then
    (s.modBind b fun y => { y with fencing := false, state := 7 }).modTwin fun t => { t with ctlState := 2, ctlReason := 0 }
  else s

/-! ## Suspension and return, R385 -/

/-- R385: a synchronised primary with no usable port is suspended. -/
def State.suspendOne (s : State) (b : BindId) : State :=
  let x := s.twin.bindings[b]
  if x.valid && x.role = 1 && x.state = 4 && (s.bindPort b).isNone then
    ((s.emptyMirror b).bindTo b 5).fenceDone b
  else s

def State.suspendTwins (s : State) : State := (allFin 64).foldl State.suspendOne s

/-- R385: a suspended primary whose port has returned before SILENT. -/
def State.resumeTwin (s : State) (b : BindId) : State :=
  let x := s.twin.bindings[b]
  if x.valid && x.role = 1 && x.state = 5 && (s.bindPort b).isSome then
    ((s.modTwinPort x.port fun t => { t with queue := t.queue ++ [.mark b false true (x.nextEpoch - 1)] }).releasePanel
      x.panel).bindTo b 2
  else s

def State.resumeTwins (s : State) : State :=
  if s.twin.silent then s else (allFin 64).foldl State.resumeTwin s

/-! ## Promotion and silence, R385, R386 -/

/-- R386. -/
def State.promoteBind (s : State) (b : BindId) : State :=
  let x := s.twin.bindings[b]
  let s1 := s.bindTo b 8
  ((s1.fetchPanel x.panel).irq irqTwin).logFault
    { source := 11, panel := panelByte (some x.panel), element := BitVec.ofNat 32 x.port.val }

/-- R385: a binding loses its partner and goes on without it. -/
def State.partnerLost (s : State) (b : BindId) : State :=
  let x := s.twin.bindings[b]
  let s1 := (s.emptyMirror b).bindTo b 6
  if x.role = 1 then s1.releasePanel x.panel else s1

/-- R385: what SILENT does to a binding; fenced and promoted bindings keep their states. -/
def State.silenceOne (hung : Bool) (s : State) (b : BindId) : State :=
  let x := s.twin.bindings[b]
  if !x.valid || x.role = 0 || x.state = 7 || x.state = 8 then s
  else if x.role = 1 && x.auto && (x.state = 4 || x.state = 5) && hung then
    (((s.emptyMirror b).bindTo b 7).haltPanel x.panel).discardComps x.panel
  else if x.role = 2 && x.auto && x.state = 4 then s.promoteBind b
  else s.partnerLost b

/-- R385: CAUSE of a silence. -/
def State.silenceCause (s : State) : BitVec 2 :=
  if s.twin.fatalSeen then 1 else if s.twin.ports[0].state = 5 ∧ s.twin.ports[1].state = 5 then 2 else 3

/-- HEART_SILENCE, R385, R386. -/
def execHeartSilence (s : State) : Host.Outcome State Fault Refusal :=
  .next (
    if s.twin.silent then s
    else
      let c := s.silenceCause
      let s1 := (s.modTwin fun t => { t with silent := true, cause := c }).irq irqTwin
      (allFin 64).foldl (State.silenceOne (c = 3)) s1)

/-- R385: a binding in state 6 returns to state 2. -/
def State.heartOne (s : State) (b : BindId) : State :=
  if s.twin.bindings[b].valid && s.twin.bindings[b].state = 6 then s.bindTo b 2 else s

/-- HEART, R385. -/
def execHeart (k : PortId) (fatal : Bool) (_count : BitVec 16) (s : State) : Host.Outcome State Fault Refusal :=
  .next (
    if !s.twinUp k then s
    else
      let s1 := s.modTwin fun t => { t with lastHeart := s.sclk, fatalSeen := fatal, silent := false, cause := 0 }
      let s2 := if s.twin.silent then s1.irq irqTwin else s1
      (allFin 64).foldl State.heartOne s2)

/-- A heartbeat of a port in service (R385, R361, R393). -/
def State.sendHeart (s : State) (k : PortId) (fatal : Bool) : State :=
  if !s.twinUp k then s
  else
    (s.tellTwin k (twinHeader 0x30 0 0 0 0 0 0 0 0 0 (flag fatal 23 + s.twin.ports[k].heartCount.toNat)) false []).modTwinPort k
      fun x => { x with heartCount := x.heartCount + 1 }

/-- HEART_SEND, R385; none after a package fault (R361). -/
def execHeartSend (k : PortId) (s : State) : Host.Outcome State Fault Refusal :=
  .next (if s.twin.heartStopped then s else s.sendHeart k false)

/-! ## Checkpoint streams, R381, R382 -/

/-- A message of a sealed binding must be enciphered, on a secure port (R379). -/
def State.twinSecret (s : State) (k : PortId) (b : BindId) (m : TwinMsg) : Bool :=
  !(s.bindPanel b).sealed_ || (s.twin.ports[k].secure && m.enc)

/-- R424: the twin port as an agent of its binding's panel. -/
def twinAgent (k : PortId) (panel : PanelId) : Agent :=
  { kind := 5, id := BitVec.ofNat 16 k.val, panel := some panel, field := fieldOfTwin k }

/-- R215, R381: code words written under a binding's tint, through their homes where the range is coherent. -/
def State.twinStore (s : State) (g : Agent) (p : PanelId) (t : TintId) (pa : BitVec 52) : List CodeWord → State
  | [] => s
  | w :: ws =>
    State.twinStore (if s.coherentAt pa then (s.cohWritePlain (g.field, 21) p t pa w).2 else (s.storeCode g 21 t pa w).2) g p t
      (pa + 64) ws

/-- CKPT, R381, R386, R388. -/
def execCkpt (k : PortId) (header : BitVec 128) (words : List CodeWord) (s : State) : Host.Outcome State Fault Refusal :=
  .next (
    let m := twinMsg header
    let x := s.twin.bindings[m.binding]
    if !s.twinUp k || m.type ≠ 0x20 || words.length < m.count then s
    else if !x.valid then s.replyAbsent k m.binding
    else if x.role ≠ 2 || x.state = 8 || s.twin.ports[k].level < 2 then s
    else match x.ranges[m.range]? with
      | none => s.noteTwin k 1
      | some r =>
        if !s.twinSecret k m.binding m || m.addr % 64 ≠ 0 || r.length < m.addr + 64 * m.count then s.noteTwin k 1
        else s.twinStore (twinAgent k x.panel) x.panel x.tint (BitVec.ofNat 52 (r.base + m.addr)) (m.words words))

/-- The payload of CKPT_MARK and CKPT_ACK. -/
def epochWord (e : Nat) : BitVec 512 := BitVec.ofNat 512 (e % 2 ^ 64)

/-- CKPT_MARK, R382, R383, R385, R386, R388: what came before the mark has been written when it is met. -/
def execCkptMark (k : PortId) (header : BitVec 128) (epoch : DWord) (s : State) : Host.Outcome State Fault Refusal :=
  .next (
    let m := twinMsg header
    let b := m.binding
    let x := s.twin.bindings[b]
    if !s.twinUp k || m.type ≠ 0x21 then s
    else if !x.valid then s.replyAbsent k b
    else if x.role ≠ 2 || x.state = 8 || s.twin.ports[k].level < 2 || !s.twinSecret k b m then s
    else if Nat.testBit m.arg 1 then s.bindTo b 2
    else
      let s1 := s.modBind b fun y => { y with epoch := epoch }
      let s2 := if Nat.testBit m.arg 0 then s1.modBind b fun y => { y with state := 4, seeded := true } else s1
      s2.tellBind b 0x22 0 (some (epochWord epoch.toNat)))

/-- Marks up to and with that of an epoch leave the binding, with the words that came before them. -/
def TwinBinding.ack (x : TwinBinding) (e : Nat) : TwinBinding :=
  match x.marks with
  | [] => x
  | _ =>
    let done := (x.marks.takeWhile fun m => m.1 ≠ e).length + 1
    { x with
      marks := x.marks.drop done
      pendingWords := x.pendingWords - ((x.marks.take done).map Prod.snd).sum
      epoch := BitVec.ofNat 64 e }

/-- CKPT_ACK, R382, R383, R387. -/
def execCkptAck (k : PortId) (header : BitVec 128) (epoch : DWord) (s : State) : Host.Outcome State Fault Refusal :=
  .next (
    let m := twinMsg header
    let b := m.binding
    let x := s.twin.bindings[b]
    let e := epoch.toNat
    if !s.twinUp k || m.type ≠ 0x22 || !x.valid || x.role ≠ 1 || !s.twinSecret k b m || !(x.marks.any fun n => n.1 = e) then s
    else
      let s1 := s.modBind b fun y => y.ack e
      let s2 := if x.state = 3 ∧ e = 0 then s1.modBind b fun y => { y with state := 4, seeded := true, nextEpoch := 1 } else s1
      let s3 := match s.pnl.panels[x.panel].vf with
        | some v => s2.releaseComps s.pnl.panels[x.panel].port v fun n => n ≤ e
        | none => s2
      s3.fenceDone b)

/-- R381: the oldest message of a port's mirror queue is sent. -/
def State.sendMirror (s : State) (k : PortId) : State :=
  match s.twin.ports[k].queue with
  | [] => s
  | m :: rest =>
    let s1 := s.modTwinPort k fun x => { x with queue := rest }
    match m with
    | .ckpt b range off w =>
      (match s.bindPort b with
      | none => s
      | some j => s1.tellTwin j (twinHeader 0x20 1 (poisonBits [w]) 0 0 off b.val range 0 0 0) (s.bindPanel b).sealed_ [w])
    | .mark b seed desync epoch =>
      if (s.bindPort b).isNone then s else s1.tellBind b 0x21 (flag seed 0 + flag desync 1) (some (epochWord epoch))

/-- R381: what a tick sends of both mirror queues: one message for each lane in use. -/
def State.drainMirrors (s : State) : State :=
  (allFin 2).foldl (fun t k => (List.range t.twin.ports[k].width.toNat).foldl (fun u _ => u.sendMirror k) t) s

/-! ## Seeds, R383 -/

def State.ctlRefuse (s : State) (reason : BitVec 4) : State := s.modTwin fun t => { t with ctlState := 3, ctlReason := reason }
def State.ctlDone (s : State) : State := s.modTwin fun t => { t with ctlState := 2, ctlReason := 0 }

/-- R387: a SEED action that waits for its reply. -/
def State.seedWaits (s : State) (b : BindId) : Bool :=
  s.twin.ctlState = 1 && s.twin.ctlBinding = b && !s.twin.bindings[b].fencing

/-- R378: whether ROLE 1 and ROLE 2 bindings of a port work. -/
def State.pairWorks (s : State) (k : PortId) : Bool := s.twin.ports[k].level = 2 && s.twin.peerSchema = 1

/-- BIND_QUERY, R383. -/
def execBindQuery (k : PortId) (header : BitVec 128) (payload : BitVec 512) (s : State) : Host.Outcome State Fault Refusal :=
  .next (
    let m := twinMsg header
    if !s.twinUp k || m.type ≠ 0x28 || payload.toNat % 256 = 0xFF then s
    else if !s.twin.bindings[m.binding].valid then s.replyAbsent k m.binding
    else s.tellTwin k (twinHeader 0x29 1 0 0 0 0 m.binding.val 0 0 0 0) (s.bindPanel m.binding).sealed_
      [{ data := s.bindPayload m.binding, mark := false }])

/-- R388: the partner has withdrawn a binding. -/
def State.withdrawn (s : State) (b : BindId) : State :=
  let x := s.twin.bindings[b]
  let s0 := if s.seedWaits b then s.ctlRefuse 3 else s
  if (x.role = 1 || x.role = 2) && 3 ≤ x.state.toNat && x.state.toNat ≤ 6 then
    (((s0.emptyMirror b).releasePanel x.panel).modBind b fun y => { y with state := 2, seeded := false }).fenceDone b
  else s0

/-- R383: the checks of a seed's reply. -/
def State.seedReply (s : State) (b : BindId) (payload : BitVec 512) : State :=
  let mine := s.bindPayload b
  let k := (s.bindPort b).getD s.twin.bindings[b].port
  if payload.toNat % 256 ≠ 2 then s.ctlRefuse 3
  else if payload.toNat / 256 % 2 ^ 312 ≠ mine.toNat / 256 % 2 ^ 312 then s.ctlRefuse 3
  else if !s.pairWorks k then s.ctlRefuse 2
  else (s.modBind b fun y => { y with state := 3, pendingWords := 0, marks := [], seedAt := 0 }).ctlDone

/-- BIND_REPLY, R383, R388. -/
def execBindReply (k : PortId) (header : BitVec 128) (payload : BitVec 512) (s : State) : Host.Outcome State Fault Refusal :=
  .next (
    let m := twinMsg header
    let b := m.binding
    if !s.twinUp k || m.type ≠ 0x29 || !s.twin.bindings[b].valid then s
    else if payload.toNat % 256 = 0xFF then s.withdrawn b
    else if s.seedWaits b then s.seedReply b payload
    else s)

/-- R424: the seed engine. -/
def State.seedAgent (s : State) (p : PanelId) (pa : BitVec 52) : Agent :=
  let f := s.fieldOfPa pa
  { kind := 13, id := BitVec.ofNat 16 f.val, panel := some p, field := f }

/-- R383: code word `n` of a list of ranges: its range from `i`, its offset there, and its address. -/
def rangeWord (i : Nat) : List PaRange → Nat → Option (Nat × Nat × Nat)
  | [], _ => none
  | r :: rs, n => if n < r.length / 64 then some (i, 64 * n, r.base + 64 * n) else rangeWord (i + 1) rs (n - r.length / 64)

/-- R383: the next code word of a binding's ranges, read and queued. -/
def State.seedOne (b : BindId) (s : State) : State :=
  let x := s.twin.bindings[b]
  match rangeWord 0 x.ranges x.seedAt with
  | none => s
  | some (i, off, at_) =>
    let pa : BitVec 52 := BitVec.ofNat 52 at_
    let got := s.readCode (s.seedAgent x.panel pa) pa
    (got.2.modTwinPort x.port fun y => { y with queue := y.queue ++ [.ckpt b i off got.1.word] }).modBind b
      fun y => { y with pendingWords := y.pendingWords + 1, seedAt := y.seedAt + 1 }

/-- R381, R383: as many code words as the mirror queue takes. -/
def State.seedSome (s : State) (b : BindId) : State :=
  (List.range (s.mirrorRoom s.twin.bindings[b].port)).foldl (fun t _ => t.seedOne b) s

/-- SEED_SCAN_DONE, R381, R383: the scan goes on while the mirror queue has room, and the mark follows the last word. -/
def execSeedScanDone (b : BindId) (s : State) : Host.Outcome State Fault Refusal :=
  .next (
    let x := s.twin.bindings[b]
    if !x.valid || x.role ≠ 1 || x.state ≠ 3 || x.marks ≠ [] then s
    else
      let s1 := s.seedSome b
      if (rangeWord 0 x.ranges s1.twin.bindings[b].seedAt).isNone then s1.queueMark b true 0 else s1)

/-- SEED_QUERY_TIMEOUT, R387. -/
def execSeedQueryTimeout (s : State) : Host.Outcome State Fault Refusal :=
  .next (if s.seedWaits s.twin.ctlBinding then s.ctlRefuse 4 else s)

/-! ## TWN_CONTROL, R387 -/

/-- SEED. -/
def State.seedBind (s : State) (b : BindId) : State :=
  let x := s.twin.bindings[b]
  if x.valid && x.role = 1 && x.state = 2 then
    (s.modTwin fun t => { t with ctlState := 1, ctlReason := 0, ctlBinding := b }).tellBind b 0x28 0 (some (s.bindPayload b))
  else s.ctlRefuse 1

/-- PROMOTE. -/
def State.promoteAction (s : State) (b : BindId) : State :=
  let x := s.twin.bindings[b]
  if x.valid && x.role = 2 && (x.state = 4 || x.state = 6) && x.seeded then (s.promoteBind b).ctlDone else s.ctlRefuse 1

/-- UNFENCE. -/
def State.unfenceBind (s : State) (b : BindId) : State :=
  let x := s.twin.bindings[b]
  if x.valid && x.role = 1 && x.state = 7 then (((s.bindTo b 6).fetchPanel x.panel).releasePanel x.panel).ctlDone else s.ctlRefuse 1

/-- FENCE. -/
def State.fenceBind (s : State) (b : BindId) : State :=
  let x := s.twin.bindings[b]
  if x.valid && x.role = 1 && 4 ≤ x.state.toNat && x.state.toNat ≤ 6 then
    (((s.modTwin fun t => { t with ctlState := 1, ctlReason := 0, ctlBinding := b }).modBind b fun y => { y with fencing := true }).haltPanel
      x.panel).fenceDone b
  else s.ctlRefuse 1

/-- R387: a write of TWN_CONTROL. -/
def State.twinControl (s : State) (value : Word) : State :=
  let b : BindId := asFin 64 (fld value.toNat 0 6)
  if fld value.toNat 24 8 ≠ 0xC5 || s.twin.ctlState = 1 then s.note
  else if fld value.toNat 8 2 = 0 then s.seedBind b
  else if fld value.toNat 8 2 = 1 then s.promoteAction b
  else if fld value.toNat 8 2 = 2 then s.unfenceBind b
  else s.fenceBind b

/-- SEED, R383, R387: a write of TWN_CONTROL, which acts by its ACTION. -/
def execSeed (value : Word) (s : State) : Host.Outcome State Fault Refusal :=
  .next (s.byPf0 fun s => s.twinControl value)

/-- PROMOTE, R386, R387: a write of TWN_CONTROL, which acts by its ACTION. -/
def execPromote (value : Word) (s : State) : Host.Outcome State Fault Refusal :=
  .next (s.byPf0 fun s => s.twinControl value)

/-- UNFENCE, R387: a write of TWN_CONTROL, which acts by its ACTION. -/
def execUnfence (value : Word) (s : State) : Host.Outcome State Fault Refusal :=
  .next (s.byPf0 fun s => s.twinControl value)

/-- FENCE, R387: a write of TWN_CONTROL, which acts by its ACTION. -/
def execFence (value : Word) (s : State) : Host.Outcome State Fault Refusal :=
  .next (s.byPf0 fun s => s.twinControl value)

/-! ## Withdrawal, R388 -/

/-- R388: a panel in dust sheet withdraws its binding; its number is released with the panel. -/
def State.withdrawTwin (s : State) (p : PanelId) : State :=
  match s.pnl.panels[p].twin with
  | none => s
  | some b =>
    let s1 := ((s.emptyMirror b).modBind b fun x => { x with ranges := [] }).fenceDone b
    match s.bindPort b with
    | some k => s1.replyAbsent k b
    | none => s1

/-- R388: the binding number is free again. -/
def State.freeTwin (s : State) (p : PanelId) : State :=
  match s.pnl.panels[p].twin with
  | none => s
  | some b => (s.modBind b fun _ => {}).modPanel p fun x => { x with twin := none }

end Sys2Proof.Machine
end

