-- ==== Sys2Proof/Machine/TwinLink.lean ====
section
/-!
DEFINITION. The twin links: training and lanes, flits, the partner's identity and session, and remote requests (chapter
Faults, spares and twins, R373 to R379).
-/

namespace Sys2Proof.Machine

/-! ## Lanes, R373, R374 -/

/-- R373: the widest permitted width of `n` lanes. -/
def twinWidth (n : Nat) : Nat := if 32 ≤ n then 32 else if 24 ≤ n then 24 else if 16 ≤ n then 16 else 0

/-- R365: a twin lane as a patch record names it. -/
def twinLaneNo (k : PortId) (lane : Nat) : Word := BitVec.ofNat 32 (k.val * 256 + lane)

def TwinPort.setWidth (x : TwinPort) : TwinPort := { x with width := BitVec.ofNat 6 (twinWidth (popCount x.lanes)) }

/-- R360, R374: a lane out of service, with the spare that replaces it or none. -/
def State.logLane (s : State) (k : PortId) (lane : Nat) (spare : Option Nat) : State :=
  (s.logFault { cls := if spare.isSome then 2 else 3, source := 12, element := twinLaneNo k lane, patch := s.nextPatch }).addPatch 7 0
    (twinLaneNo k lane) ((spare.map (twinLaneNo k)).getD noSpare)

/-- A lane that failed training, replaced by the lowest spare lane that trained. -/
def State.failLane (k : PortId) (trained : BitVec 34) (s : State) (lane : Nat) : State :=
  let x := s.twin.ports[k]
  let spare := (onBits (x.spareLanes &&& trained)).head?
  (s.logLane k lane spare).modTwinPort k fun y =>
    let l := setBit y.lanes lane false
    match spare with
    | none => { y with lanes := l }
    | some n => { y with lanes := setBit l n true, spareLanes := setBit y.spareLanes n false }

/-- A port fails, R374, R375. -/
def State.twinFails (s : State) (k : PortId) : State :=
  let s1 := (s.modTwinPort k fun x => { x with state := 4, width := 0, secure := false }).logFault
    { cls := 4, source := 11, element := BitVec.ofNat 32 k.val }
  ((s1.suspendTwins).irq irqTwin).readyFrom s

/-! ## Identity and level, R378 -/

/-- R376: the payload of LEVEL. -/
def State.levelPayload (s : State) : BitVec 512 :=
  bytesWord (bytesOf 32 s.fuse.identity.toNat ++ [0xB0, 2, 1, 0])

def State.sendLevel (s : State) (k : PortId) : State :=
  (s.tellTwin k (twinHeader 0x31 1 0 0 0 0 0 0 0 0 0) false [{ data := s.levelPayload, mark := false }]).modTwinPort k
    fun x => { x with levelSent := true }

/-- A port that has trained: its link starts afresh, with a LEVEL message. -/
def State.twinStarts (s : State) (k : PortId) : State :=
  ((s.modLine k fun _ => {}).modTwinPort k fun x => { x with
    state := 2, expect := 0, rounds := 0, secure := false, keyParts := [] }).sendLevel k

/-- TWIN_TRAINING, R374, R400: `lanes` are the lanes that trained. -/
def execTwinTraining (k : PortId) (lanes : BitVec 34) (s : State) : Host.Outcome State Fault Refusal :=
  .next (
    let x := s.twin.ports[k]
    if x.state ≠ 0 ∧ x.state ≠ 1 ∧ x.state ≠ 5 ∨ !s.elementsMayStart then s
    else
      let s2 := (onBits (x.lanes &&& ~~~lanes)).foldl (State.failLane k lanes) s
      let s3 := s2.modTwinPort k TwinPort.setWidth
      if s3.twin.ports[k].width = 0 then s3.twinFails k
      else (((s3.twinStarts k).resumeTwins).irq irqTwin).readyFrom s)

/-- TWIN_LANE_RETIRE, R374. -/
def execTwinLaneRetire (k : PortId) (lane : Fin 34) (s : State) : Host.Outcome State Fault Refusal :=
  .next (
    let x := s.twin.ports[k]
    if x.state ≠ 2 || !bit x.lanes lane.val then s
    else
      let spare := (onBits x.spareLanes).head?
      let s1 := (s.logLane k lane.val spare).modTwinPort k fun y =>
        let z := { y with lanes := setBit y.lanes lane.val false }.setWidth
        match spare with
        | none => z
        | some n => { z with spareLanes := setBit z.spareLanes n false, training := setBit z.training n true }
      if s1.twin.ports[k].width = 0 then s1.twinFails k else s1)

/-- TWIN_SPARE_IN_SERVICE, R374. -/
def execTwinSpareInService (k : PortId) (lane : Fin 34) (s : State) : Host.Outcome State Fault Refusal :=
  .next (
    if bit s.twin.ports[k].training lane.val then
      s.modTwinPort k fun x =>
        let y := { x with lanes := setBit x.lanes lane.val true, training := setBit x.training lane.val false }
        if x.state = 2 then y.setWidth else y
    else s)

/-- TWIN_PORT_DARK, R374, R385. -/
def execTwinPortDark (k : PortId) (s : State) : Host.Outcome State Fault Refusal :=
  .next (
    let x := s.twin.ports[k]
    if x.state = 1 ∨ x.state = 2 ∨ x.state = 3 then
      (((s.modTwinPort k fun y => { y with state := 5 }).suspendTwins).irq irqTwin).readyFrom s
    else s)

/-- TWIN_PORT_RETURN, R385: the partner's lanes carry signal again. -/
def execTwinPortReturn (k : PortId) (s : State) : Host.Outcome State Fault Refusal :=
  .next (
    let x := s.twin.ports[k]
    if x.state = 5 ∧ x.width ≠ 0 then (((s.twinStarts k).resumeTwins).irq irqTwin).readyFrom s else s)

/-! ## Flits, R375 -/

/-- R375: the flits up to the one that the partner acknowledges leave the replay buffer. -/
def TwinLine.acked (x : TwinLine) (ack : BitVec 12) : TwinLine :=
  if x.buffer.any fun f => f.seq = ack then { x with buffer := (x.buffer.dropWhile fun f => f.seq ≠ ack).drop 1 } else x

/-- R375: waiting messages are sent while the replay buffer has room. -/
def State.pumpTwin (fuel : Nat) (s : State) (k : PortId) : State :=
  match fuel, s.lines[k].waiting with
  | 0, _ => s
  | _, [] => s
  | n + 1, m :: rest =>
    if s.lines[k].room m then
      State.pumpTwin n ((s.modLine k fun x => ({ x with waiting := rest } : TwinLine).send m).emit (.twinMsg k m.1 m.2)) k
    else s

/-- TWIN_FLIT_RECEIVE, R375: a flit in sequence is accepted and acknowledged; `ack` frees the replay buffer. -/
def execTwinFlitReceive (k : PortId) (seq : BitVec 12) (ack : BitVec 12) (crcOk : Bool) (s : State) :
    Host.Outcome State Fault Refusal :=
  .next (
    let x := s.twin.ports[k]
    if (x.state ≠ 2 ∧ x.state ≠ 3) || !crcOk || seq ≠ x.expect then s
    else
      let frees := s.lines[k].buffer.any fun f => f.seq = ack
      let s1 := s.modTwinPort k fun y => { y with expect := seq + 1, rounds := if frees then 0 else y.rounds }
      let s2 := s1.modLine k fun y => y.acked ack
      (State.pumpTwin s.lines[k].waiting.length s2 k).emit (.twinFlitAck k seq))

/-- TWIN_REPLAY, R375: from the first unacknowledged flit, at most four rounds. -/
def execTwinReplay (k : PortId) (s : State) : Host.Outcome State Fault Refusal :=
  .next (
    let x := s.twin.ports[k]
    match s.lines[k].buffer with
    | [] => s
    | f :: _ =>
      if x.state ≠ 2 ∨ 4 ≤ x.rounds then s
      else (s.modTwinPort k fun y => { y with rounds := y.rounds + 1, replays := satAdd y.replays 1 }).emit (.twinReplay k f.seq))

/-- TWIN_RETRAIN, R375, R385. -/
def execTwinRetrain (k : PortId) (s : State) : Host.Outcome State Fault Refusal :=
  .next (
    let x := s.twin.ports[k]
    if x.state = 2 ∧ 4 ≤ x.rounds then
      ((s.modTwinPort k fun y => { y with state := 3, rounds := 0 }).suspendTwins).readyFrom s
    else s)

/-- TWIN_RETRAIN_DONE, R360, R375, R385. -/
def execTwinRetrainDone (k : PortId) (passed : Bool) (s : State) : Host.Outcome State Fault Refusal :=
  .next (
    if s.twin.ports[k].state ≠ 3 then s
    else if !passed then s.twinFails k
    else
      let s1 := (s.modTwinPort k fun x => { x with state := 2 }).logFault
        { cls := 1, source := 11, element := BitVec.ofNat 32 k.val }
      ((s1.resumeTwins).irq irqTwin).readyFrom s)

/-! ## LEVEL and KEYX, R378, R379 -/

/-- R379: the life-cycle states in which the ports authenticate each other. -/
def State.twinKeyed (s : State) : Bool := s.lcs.state = 3 || s.lcs.state = 4

/-- R376: a part of a KEYX exchange: its number, whether it is the last, and its bytes. -/
def keyParts (fuel part : Nat) (bs : List Byte) : List (Nat × Bool × List Byte) :=
  match fuel with
  | 0 => []
  | n + 1 =>
    if bs.length ≤ 256 then [(part, true, bs)]
    else (part, false, bs.take 256) :: keyParts n (part + 1) (bs.drop 256)

def State.sendKeys (s : State) (k : PortId) : State :=
  let bs := Config.twinKeyx s.draws
  (keyParts (bs.length + 1) 0 bs).foldl (fun t p =>
    let n := (p.2.2.length + 63) / 64
    t.tellTwin k (twinHeader 0x38 n 0 0 0 0 0 0 0 0 (flag p.2.1 23 + p.1)) false
      ((toWords n p.2.2).map fun d => { data := d, mark := false })) s.drawn

/-- LEVEL, R378, R379. -/
def execLevel (k : PortId) (payload : BitVec 512) (s : State) : Host.Outcome State Fault Refusal :=
  .next (
    if !s.twinUp k then s
    else
      let n := payload.toNat
      let mine := min 2 (fld n 264 8)
      let other := s.twin.ports[otherPort k].level.toNat
      let l : BitVec 2 := BitVec.ofNat 2 (if other = 0 then mine else min mine other)
      let s1 := s.modTwin fun t => { t with
        peerId := BitVec.ofNat 256 n, peerStepping := BitVec.ofNat 8 (fld n 256 8)
        peerMax := BitVec.ofNat 2 (min 3 (fld n 264 8)), peerSchema := BitVec.ofNat 16 (fld n 272 16) }
      let s2 := (s1.modTwinPort k fun x => { x with level := l }).modTwinPort (otherPort k)
        fun x => if x.level = 0 then x else { x with level := l }
      let s3 := if s.twin.ports[k].levelSent then s2 else s2.sendLevel k
      if s.twinKeyed then s3.sendKeys k else s3)

/-- KEYX, R379: the last part completes the check of the partner's chain and identity. -/
def execKeyx (k : PortId) (part : BitVec 16) (last : Bool) (bytes : List Byte) (s : State) :
    Host.Outcome State Fault Refusal :=
  .next (
    if !s.twinUp k || !s.twinKeyed || s.twin.ports[k].level = 0 then s
    else
      let got := (if part = 0 then [] else s.twin.ports[k].keyParts) ++ bytes
      if !last then s.modTwinPort k fun x => { x with keyParts := got }
      else if Config.chainValid got = some s.twin.peerId then s.modTwinPort k fun x => { x with secure := true, keyParts := [] }
      else (s.modTwinPort k fun x => { x with keyParts := [] }).noteTwin k 0)

/-! ## Remote requests, R377 -/

/-- R377: a refusal, answered with status 0x1 and logged. -/
def State.twinRefuse (s : State) (k : PortId) (header : BitVec 128) (kind : ReqKind) : State :=
  (s.noteTwin k 1).answerTwin k header kind 1 (refusedData kind)

/-- R377, R379: whether the receiving side admits a request of a binding. -/
def State.twinAdmits (s : State) (k : PortId) (m : TwinMsg) : Bool :=
  s.twin.bindings[m.binding].valid && s.twinSecret k m.binding m && !m.reserved && m.range = 0 && m.status = 0

/-- R377: whether code words lie in one of a binding's windows. -/
def TwinBinding.exports (x : TwinBinding) (addr count : Nat) (write : Bool) : Bool :=
  x.windows.any fun g => within addr (64 * count) g.base g.length && (g.write || !write)

/-- R377: the requester's ID: IFIELD, INI and TAG. -/
def TwinMsg.remote (m : TwinMsg) : BitVec 20 := BitVec.ofNat 20 (m.field.val * 2 ^ 17 + m.ni.val * 2 ^ 12 + m.tag.toNat)

/-- R377: the local ID that a request of the partner went under, while its tag has not come back into use. -/
def State.twinMapped (s : State) (k : PortId) (m : TwinMsg) : Option TxId :=
  ((s.twin.ports[k].maps.find? fun e => e.remote = m.remote).map (·.id)).filter fun i =>
    (s.txn i).isSome || s.net.quarantine.any fun q => q = i

/-- R377: a request injected as initiator NI 21 under the binding's tint; it waits while no tag is free. -/
def State.twinInject (s : State) (k : PortId) (header : BitVec 128) (pa : BitVec 52) (kind : ReqKind) : State :=
  let m := twinMsg header
  let x := s.twin.bindings[m.binding]
  match s.inject (fieldOfTwin k) 21 x.tint (some x.panel) pa kind (.twin k header) with
  | none => s
  | some r => r.2.modTwinPort k fun y => { y with
      maps := (y.maps.filter fun e => e.remote ≠ m.remote) ++ [{ remote := m.remote, id := r.1 }] }

/-- R208, R377: an atomic or signal; a resend arrives with the same local ID. -/
def State.twinInjectOnce (s : State) (k : PortId) (header : BitVec 128) (pa : BitVec 52) (kind : ReqKind) : State :=
  let m := twinMsg header
  match s.twinMapped k m with
  | none => s.twinInject k header pa kind
  | some i =>
    if (s.txn i).isSome then s
    else
      let x := s.twin.bindings[m.binding]
      match s.inject (fieldOfTwin k) 21 x.tint (some x.panel) pa kind (.twin k header) with
      | none => s
      | some r => r.2.modTxn r.1 fun t => { t with id := i }

/-- TWIN_RD, R377. -/
def execTwinRd (k : PortId) (header : BitVec 128) (s : State) : Host.Outcome State Fault Refusal :=
  .next (
    let m := twinMsg header
    let kind : ReqKind := .read m.count
    if !s.twinUp k || s.twin.ports[k].level = 0 || m.type ≠ 1 then s
    else if s.twinAdmits k m && m.arg = 0 && 0 < m.count && m.count ≤ 4 && m.addr % 64 = 0 &&
        s.twin.bindings[m.binding].exports m.addr m.count false then
      s.twinInject k header (BitVec.ofNat 52 m.addr) kind
    else s.twinRefuse k header kind)

/-- TWIN_WR, R377. -/
def execTwinWr (k : PortId) (header : BitVec 128) (words : List CodeWord) (s : State) : Host.Outcome State Fault Refusal :=
  .next (
    let m := twinMsg header
    let ws := m.words words
    let kind : ReqKind := .write ws
    if !s.twinUp k || s.twin.ports[k].level = 0 || m.type ≠ 2 || words.length < m.count then s
    else if s.twinAdmits k m && m.arg = 0 && 0 < m.count && m.count ≤ 4 &&
        s.twin.bindings[m.binding].exports m.addr m.count true then
      s.twinInject k header (BitVec.ofNat 52 m.addr) kind
    else s.twinRefuse k header kind)

/-- TWIN_AT, R135, R377. -/
def execTwinAt (k : PortId) (header : BitVec 128) (operand : CodeWord) (compare : DWord) (s : State) :
    Host.Outcome State Fault Refusal :=
  .next (
    let m := twinMsg header
    let op := atomicOfCode (m.arg / 2 ^ 20)
    let off := m.arg % 64
    let size := (op.map atomicSize).getD 8
    let o := BitVec.ofNat 64 (fld operand.data.toNat (8 * off) (8 * size))
    let kind : ReqKind := .atomic (op.getD .add32) (asFin 64 off) o compare (operand.mark || Nat.testBit m.poison 0)
    if !s.twinUp k || s.twin.ports[k].level = 0 || m.type ≠ 3 then s
    else if s.twinAdmits k m && op.isSome && off % size = 0 && fld m.arg 6 14 = 0 &&
        s.twin.bindings[m.binding].exports (m.addr / 64 * 64) 1 true then
      s.twinInjectOnce k header (BitVec.ofNat 52 (m.addr / 64 * 64)) kind
    else s.twinRefuse k header kind)

/-- TWIN_SIG, R99, R377. -/
def execTwinSig (k : PortId) (header : BitVec 128) (s : State) : Host.Outcome State Fault Refusal :=
  .next (
    let m := twinMsg header
    let sem : Fin 64 := asFin 64 (fld m.arg 12 6)
    let inc : Byte := BitVec.ofNat 8 m.arg
    if !s.twinUp k || s.twin.ports[k].level = 0 || m.type ≠ 4 then s
    else match (if s.twinAdmits k m && inc ≠ 0 && fld m.arg 8 4 = 0 then
          s.arrayOf s.twin.bindings[m.binding].panel (fld m.arg 18 6) else none) with
      | none => s.twinRefuse k header (.signal (fieldOfTwin k) 21 sem inc 0)
      | some a => s.twinInjectOnce k header 0 (.signal (fieldOfArray a) (niOfArray a) sem inc 0))

/-! ## Responses and bounds, R377 -/

/-- R377: an answer of the partner to one message of a request. -/
def State.twinAnswered (s : State) (k : PortId) (t : Txn) (left : Nat) (status : BitVec 3) (ws : List CodeWord) : State :=
  let st := if t.status = 0 then status else t.status
  let data := match t.kind with
    | .read n => (ws ++ List.replicate n poisonWord).take n
    | .write _ => []
    | .atomic .. => [ws.head?.getD poisonWord]
    | .signal .. => []
  if left ≤ 1 then
    (s.modTwinPort k fun x => { x with waits := x.waits.filter fun w => w.1 ≠ t.id }).answerTxn t.id st data
  else
    (s.modTwinPort k fun x => { x with waits := x.waits.map fun w => if w.1 = t.id then (w.1, left - 1) else w }).modTxn t.id
      fun y => { y with status := st }

/-- TWIN_RESPONSE, R377: a late response is discarded. -/
def execTwinResponse (k : PortId) (header : BitVec 128) (words : List CodeWord) (s : State) :
    Host.Outcome State Fault Refusal :=
  .next (
    let m := twinMsg header
    let id : TxId := { field := m.field, ni := m.ni, tag := m.tag }
    if !s.twinUp k then s
    else match s.twin.ports[k].waits.find? fun w => w.1 = id, s.txn id with
      | some w, some t =>
        if m.type = answerType t.kind then s.twinAnswered k t w.2 (BitVec.ofNat 3 m.status) (m.words words) else s
      | _, _ => s)

/-- TWIN_REMOTE_BOUND, R377: the partner is answered with status 0x3, and what the local leg brings is discarded. -/
def execTwinRemoteBound (k : PortId) (id : TxId) (s : State) : Host.Outcome State Fault Refusal :=
  .next (
    match s.txn id with
    | none => s
    | some t =>
      match t.owner with
      | .twin j h =>
        if j = k then (s.modTxn id fun x => { x with owner := .none }).answerTwin k h t.kind 3 (refusedData t.kind) else s
      | _ => s)

/-- TWIN_LOCAL_BOUND, R377. -/
def execTwinLocalBound (k : PortId) (id : TxId) (s : State) : Host.Outcome State Fault Refusal :=
  .next (
    match s.twin.ports[k].waits.find? fun w => w.1 = id, s.txn id with
    | some _, some t =>
      (s.modTwinPort k fun x => { x with waits := x.waits.filter fun w => w.1 ≠ id }).refuseTxn t 3
    | _, _ => s)

end Sys2Proof.Machine
end

