-- ==== Sys2Proof/Machine/HostPort.lean ====
section
/-!
DEFINITION. The host ports: links, interrupts, link power, BAR2 and inbound requests (chapter Host ports, R270 to R280,
R290, R291, R293).
-/

namespace Sys2Proof.Machine

/-! ## Links, R270, R271, R279 -/

/-- R270: the widths of a port. -/
def linkWidth (w : Nat) : Bool := w = 1 || w = 2 || w = 4 || w = 8 || w = 16

/-- R270: flit mode at every rate; above 32 GT/s no other. -/
def flitAt (rate : Nat) (flit : Bool) : Bool := flit || decide (rate ≤ 4)

/-- R401: PF0's Function Readiness Status message, once the hub has booted and the link is up. -/
def State.readyMessage (s : State) (p : PortId) : State :=
  if s.stage = 4 && s.ports[p].l0 && !s.ports[p].frsSent then
    (s.modPort p fun x => { x with frsSent := true }).emit (.frs p none)
  else s

/-- LINK_TRAINING, R270, R271, R277, R401: as soon as the link first reaches L0, the port requests the change to the highest
rate that both ends support. -/
def execLinkTraining (port : PortId) (rate : Fin 7) (width : Fin 17) (flit : Bool) (s : State) :
    Host.Outcome State Fault Refusal :=
  .next (
    let x := s.ports[port]
    if s.inReset || x.perst || x.l0 || !linkWidth width.val || !flitAt rate.val flit then s
    else (((s.modPort port fun y => { y with
      l0 := true, slow := decide (rate.val < 4), flit := flit, rate := BitVec.ofNat 3 rate.val
      width := BitVec.ofNat 5 width.val, activeWidth := BitVec.ofNat 5 width.val, pm := 0 }).emit (.speedChange port)).readyMessage
      port).readyFrom s)

/-- LINK_SPEED_REACHED, R271, R400. -/
def execLinkSpeedReached (port : PortId) (rate : Fin 7) (s : State) : Host.Outcome State Fault Refusal :=
  .next (
    if !s.ports[port].l0 || !flitAt rate.val s.ports[port].flit then s
    else ((s.modPort port fun y => { y with rate := BitVec.ofNat 3 rate.val, slow := decide (rate.val < 4) }).readyMessage
      port).readyFrom s)

/-- R279: whether the host has enabled L1, or one of its substates. -/
def PfConfig.mayL1 (x : PfConfig) (substate : Nat) : Bool :=
  x.aspmL1 && (substate = 0 || (substate = 1 && bit x.l1ss 3) || (substate = 2 && bit x.l1ss 2))

/-- ASPM_L1_ENTRY, R279: L1, or one of its substates, where the host has enabled it. -/
def execAspmL1Entry (port : PortId) (substate : Fin 3) (s : State) : Host.Outcome State Fault Refusal :=
  .next (
    let x := s.ports[port]
    let pm : BitVec 3 := BitVec.ofNat 3 (2 + substate.val)
    if !x.l0 || x.slow || !x.cfg.mayL1 substate.val || pm.toNat ≤ x.pm.toNat then s
    else (s.modPort port fun y => { y with pm := pm }).emit (.linkRequest port pm))

/-- L0P_NARROW, R279: to x8, then x4. -/
def execL0pNarrow (port : PortId) (s : State) : Host.Outcome State Fault Refusal :=
  .next (
    let x := s.ports[port]
    let w := x.activeWidth.toNat
    if !x.l0 || x.slow || !x.flit || !x.cfg.l0p || 2 ≤ x.pm.toNat || w ≤ 4 then s
    else (s.modPort port fun y => { y with pm := 1, activeWidth := if 8 < w then 8 else 4 }).emit (.linkRequest port 1))

/-- LINK_PM_EXIT, R279. -/
def execLinkPmExit (port : PortId) (s : State) : Host.Outcome State Fault Refusal :=
  .next (
    let x := s.ports[port]
    if !x.l0 || x.pm = 0 then s
    else (s.modPort port fun y => { y with pm := 0, activeWidth := y.width }).emit (.linkRequest port 0))

/-! ## Interrupts, R277, R278 -/

/-- R277: the level of INTA. -/
def State.intaLevel (s : State) (p : PortId) : Bool :=
  (s.irqStatus p &&& s.ports[p].irqEnable) ≠ 0 && !s.ports[p].intxDisable

/-- INTA_LEVEL_CHANGE, R277. -/
def execIntaLevelChange (port : PortId) (s : State) : Host.Outcome State Fault Refusal :=
  .next (
    let l := s.intaLevel port
    if !s.ports[port].l0 || l = s.ports[port].intaSent then s
    else (s.modPort port fun x => { x with intaSent := l }).emit (if l then .assertInta port else .deassertInta port))

/-- MSI_X_SEND, R274, R278, R294, R425: a message of a masked vector becomes pending. -/
def execMsiXSend (port : PortId) (v : VfId) (vector : Fin 32) (s : State) : Host.Outcome State Fault Refusal :=
  .next (
    let x := s.vf port v
    if vector ∉ x.waitingMsix ∨ !x.bme ∨ !x.msixEnable ∨ !s.ports[port].l0 ∨ x.bound.isNone ∨ x.resetting then s
    else
      let s1 := s.modVf port v fun y => { y with waitingMsix := y.waitingMsix.erase vector }
      if x.msixMask ∨ x.msix[vector].masked then s1.modVf port v fun y => { y with pba := setBit y.pba vector.val true }
      else s1.emit (.msix port v vector))

/-! ## BAR2, R166, R274, R276, R290 -/

/-- R166: the virtual address of a BAR2 offset. -/
def VfState.apertureVa (x : VfState) (off : Word) : BitVec 55 :=
  BitVec.ofNat 55 (x.aperture.toNat * 2 ^ 32 + off.toNat)

/-- R276: what a read through BAR2 is answered with, by the replies its code words got. -/
def State.bar2Answer (s : State) (port : PortId) (e : Eng) (va : BitVec 55) (n : Nat) (rs : List Reply) : State :=
  if worstStatus rs ≠ 0 then s.emit (.bar2Data port (List.replicate n 0) true)
  else
    let ws := rs.map (·.word)
    (s.egress e.agent (((coverVas va n).map (s.leadsTo e .read)).zip ws)).emit (.bar2Data port (bytesAt va n ws) (ws.any (·.mark)))

/-- R293: a request to a TEE range of an interface in RUN that does not come on its IDE stream with the T bit set. -/
def State.teeRefused (s : State) (port : PortId) (v : VfId) (tee : Bool) : Bool := (s.vf port v).tdi = 2 && !tee

/-- R280: a write through BAR2 that has not taken effect yet: what the port received after it waits. -/
def State.postedWaits (s : State) (port : PortId) : Bool := s.net.flight.any fun t => t.owner = .bar2 port && !t.late

/-- BAR2_READ, R139, R166, R177, R276, R280, R290, R294. -/
def execBar2Read (port : PortId) (v : VfId) (place : Bar2At) (bytes : Nat) (s : State) : Host.Outcome State Fault Refusal :=
  .next (
    let x := s.vf port v
    if !s.ports[port].l0 ∨ bytes = 0 ∨ 4096 < bytes ∨ 2 ^ 32 < place.off.toNat + bytes then s
    else if !s.vfLive port v || s.vfDust port v || s.teeRefused port v place.tee then (s.noteHost port 0).unsupported port
    else match x.bound with
      | none => (s.noteHost port 0).abortRequest port
      | some p =>
        let e := portEng port p x.tint
        let va := x.apertureVa place.off
        let vas := coverVas va bytes
        if s.plainBusy e .read vas || s.postedWaits port then s
        else match s.readPlainVas e .read vas with
          | (.error f, s1) => ((s1.plainFault p 5 (fieldOfPort port) 0 f).noteHost port 0).abortRequest port
          | (.ok rs, s1) => s1.bar2Answer port e va bytes rs)

/-- R384: whether an address lies in a checkpoint range of a shadow that has not been promoted. -/
def State.shadowRange (s : State) (p : PanelId) (pa : BitVec 52) : Bool :=
  s.pnl.panels[p].twin.any fun b =>
    let x := s.twin.bindings[b]
    x.role = 2 && x.state ≠ 8 && (x.rangeOf pa.toNat).isSome

/-- One code word of a write through BAR2 at its translated address; none while the port holds it for want of a tag. -/
def State.bar2Word (s : State) (port : PortId) (e : Eng) (va : BitVec 55) (t : Target) (w : CodeWord) : Option State :=
  let logged := fun (r : BitVec 3 × State) => if r.1 = 0 then r.2 else r.2.noteHost port (r.1.setWidth 8)
  let store := (s.writeTarget { e with owner := .bar2 port, va := some va } t [w]).map logged
  match t with
  | .pa pa =>
    if s.shadowRange e.panel pa then some (s.noteHost port 0)
    else if s.coherentAt pa then some (logged (s.cohWritePlain e.src e.panel e.tint pa w)) else store
  | _ => store

/-- R276, R280: the code words of a write, in order; a translation fault drops what is left. -/
def State.bar2Words (s : State) (port : PortId) (p : PanelId) (e : Eng) : List (BitVec 55 × CodeWord) → Option State
  | [] => some s
  | (va, w) :: r =>
    match s.translate e.agent e.sel e.panel e.tint va .write with
    | (.error f, s1) => some (((s1.plainFault p 5 (fieldOfPort port) 0 { fault := f, va := va, access := .write }).noteHost port 0).aer port 15)
    | (.ok t, s1) => (s1.bar2Word port e va t w).bind fun s2 => State.bar2Words s2 port p e r

/-- BAR2_WRITE, R134, R166, R177, R274, R276, R280, R384. -/
def execBar2Write (port : PortId) (v : VfId) (place : Bar2At) (poisoned : Bool) (bytes : List Byte) (s : State) :
    Host.Outcome State Fault Refusal :=
  .next (
    let x := s.vf port v
    let n := bytes.length
    if !s.ports[port].l0 ∨ n = 0 ∨ 512 < n ∨ 2 ^ 32 < place.off.toNat + n then s
    else if !s.vfLive port v || s.vfDust port v then (s.noteHost port 0).aer port 20
    else if s.teeRefused port v place.tee then s.noteHost port 0
    else match x.bound with
      | none => (s.noteHost port 0).aer port 15
      | some p =>
        let e := portEng port p x.tint
        let va := x.apertureVa place.off
        if place.off.toNat % 64 ≠ 0 ∨ n % 64 ≠ 0 then s.accessEvent 8 e.agent (s.leadsTo e .write (wordVa va))
        else
          let ws := (toWords (n / 64) bytes).map fun d => ({ data := d, mark := poisoned } : CodeWord)
          let vas := runVas va (n / 64)
          if s.plainBusy e .write vas || s.postedWaits port then s else (s.bar2Words port p e (vas.zip ws)).getD s)

/-- INBOUND_UNSUPPORTED, R290. -/
def execInboundUnsupported (port : PortId) (posted : Bool) (s : State) : Host.Outcome State Fault Refusal :=
  .next (
    if !s.ports[port].l0 then s
    else
      let s1 := s.noteHost port 0
      s1.refusedRequest port posted)

/-! ## IDE, R291 -/

/-- IDE_KM, R291: keys come over a secure session. -/
def execIdeKm (port : PortId) (stream : Fin 9) (key : BitVec 256) (s : State) : Host.Outcome State Fault Refusal :=
  .next (
    if !s.ports[port].l0 || s.ports[port].session.isNone then s
    else s.modPort port fun x => { x with
      ide := (x.ide.filter fun i => i.stream ≠ stream) ++ [{ stream := stream, key := key }] })

end Sys2Proof.Machine
end

