-- ==== Sys2Proof/Machine/Fuse.lean ====
section
/-!
DEFINITION. The fuses of the life cycle: the state word and its vote, the marker slots, burning, and the end of a
transition (chapter Life cycle, R346 to R357).
-/

namespace Sys2Proof.Machine

/-! ## Burning, R353 -/

/-- A fuse bit of a copy of the state word, or of a copy of a marker slot. -/
inductive FuseBit where
  | word (copy : Fin 3) (i : Nat)
  | marker (slot : Nat) (copy : Fin 3) (i : Nat)
  deriving DecidableEq, Repr

def Fuses.slot (f : Fuses) (k : Nat) : MarkerSlot := f.markers[k]?.getD {}

def Fuses.isSet (f : Fuses) : FuseBit → Bool
  | .word c i => bit f.stateWords[c] i
  | .marker k c i => bit (f.slot k).copies[c] i

def MarkerSlot.set (m : MarkerSlot) (c : Fin 3) (i : Nat) : MarkerSlot :=
  { m with copies := vmod m.copies c fun w => setBit w i true }

def Fuses.set (f : Fuses) : FuseBit → Fuses
  | .word c i => { f with stateWords := vmod f.stateWords c fun w => setBit w i true }
  | .marker k c i => { f with markers := f.markers.modify k fun m => m.set c i }

/-- R353: bits burned in order; one that is set already needs no burning. `fails` counts the burns that verify before one
does not; the answer says how many are left, and whether every bit verified. -/
def Fuses.burn (f : Fuses) (fails : Option Nat) : List FuseBit → Fuses × Option Nat × Bool
  | [] => (f, fails, true)
  | b :: bs =>
    if f.isSet b then f.burn fails bs
    else match fails with
      | none => (f.set b).burn none bs
      | some 0 => (f, some 0, false)
      | some (n + 1) => (f.set b).burn (some n) bs

/-- The set bits of a word, lowest first. -/
def bitsOf {n : Nat} (w : BitVec n) : List Nat := (List.range n).filter fun i => bit w i

/-- A bit in copies 0, 1 and 2. -/
def inCopies (f : Fin 3 → List FuseBit) : List FuseBit := (allFin 3).flatMap f

/-! ## The state word, R347, R348 -/

/-- R347: the code of STAGE for a state of R343. -/
def stageCode (state : Nat) : Nat :=
  if state = 0 then 0x00 else if state ≤ 2 then 0x03 else if state = 3 then 0x0F else if state = 4 then 0x3F else 0xFF

/-- R347: the word with a state's STAGE and `n` steps of SEQ. -/
def stateWord (state n : Nat) : DWord := BitVec.ofNat 64 (stageCode state + (2 ^ n - 1) * 2 ^ 8)

/-- R348: each bit as at least two copies hold it. -/
def Fuses.voted (f : Fuses) : DWord :=
  let a := f.stateWords[0]
  let b := f.stateWords[1]
  let c := f.stateWords[2]
  (a &&& b) ||| (a &&& c) ||| (b &&& c)

def wordSteps (w : DWord) : Nat := popCount (slice w 40 8 : BitVec 33)
def wordTokens (w : DWord) : Nat := popCount (slice w 56 41 : BitVec 16)

/-- No set bit above a clear bit. -/
def thermometer (n : Nat) : Bool := Nat.land n (n + 1) = 0

/-- R348: whether a voted word is valid. -/
def wordValid (w : DWord) : Bool :=
  let stage := fld w.toNat 0 8
  let n := wordSteps w
  (stage = 0x00 || stage = 0x03 || stage = 0x0F || stage = 0x3F || stage = 0xFF) && thermometer (fld w.toNat 8 33) &&
    thermometer (fld w.toNat 41 16) && fld w.toNat 57 7 = 0 && (stage ≠ 0 || n = 0) && decide (n / 2 ≤ wordTokens w) &&
    ((stage ≠ 0x0F && stage ≠ 0x3F) || n % 2 = 1)

/-- R348: the state that a valid word names. -/
def wordState (w : DWord) : BitVec 3 :=
  let stage := fld w.toNat 0 8
  if stage = 0x00 then 0 else if stage = 0x03 then (if wordSteps w % 2 = 0 then 1 else 2)
  else if stage = 0x0F then 3 else if stage = 0x3F then 4 else 5

/-- R349: the copies that differ from the voted word. -/
def Fuses.differing (f : Fuses) : Nat := (allFin 3).countP fun c => f.stateWords[c] ≠ f.voted

/-! ## Marker slots, R354, R356 -/

def markerTarget (w : BitVec 16) : Nat := fld w.toNat 0 3
def markerSteps (w : BitVec 16) : Nat := fld w.toNat 6 6

/-- R354: a marker word of a transition to `target` with `n` steps after it. -/
def markerWord (target n : Nat) : BitVec 16 := BitVec.ofNat 16 (target + (7 - target) * 8 + n * 64 + 2 ^ 15)

def markerValid (w : BitVec 16) : Bool := bit w 15 && fld w.toNat 3 3 = 7 - markerTarget w

def MarkerSlot.free (m : MarkerSlot) : Bool := (allFin 3).all fun c => m.copies[c] = 0

/-- A bit set in two or more copies. -/
def MarkerSlot.agreed (m : MarkerSlot) (i : Nat) : Bool := decide (2 ≤ (allFin 3).countP fun c => bit m.copies[c] i)

/-- R356: a pending slot. -/
def MarkerSlot.pending (m : MarkerSlot) : Bool := !m.free && !m.agreed 13 && !m.agreed 14

/-- R356: what two valid copies of a slot agree on: the target and the steps after it. -/
def MarkerSlot.complete (m : MarkerSlot) : Option (Nat × Nat) :=
  let same := fun (c d : Fin 3) => markerValid m.copies[c] && markerValid m.copies[d] &&
    markerTarget m.copies[c] = markerTarget m.copies[d] && markerSteps m.copies[c] = markerSteps m.copies[d]
  let got := fun (c : Fin 3) => some (markerTarget m.copies[c], markerSteps m.copies[c])
  if same 0 1 || same 0 2 then got 0 else if same 1 2 then got 1 else none

def Fuses.freeSlots (f : Fuses) : List Nat := (List.range f.markers.length).filter fun k => (f.slot k).free

/-- Bits of a word in the three copies of the state word. -/
def wordBits (w : DWord) : List FuseBit := inCopies fun c => (bitsOf w).map fun i => .word c i

/-- A bit in the three copies of a slot. -/
def slotBit (k i : Nat) : List FuseBit := inCopies fun c => [.marker k c i]

/-- PENDING_MARKER_RESOLVE, R356: the fuses after the boot ROM's check, and BOOT_ACTION. -/
def Fuses.resolve (f : Fuses) : Fuses × BitVec 2 :=
  match (List.range f.markers.length).find? fun k => (f.slot k).pending with
  | none => (f, 0)
  | some k =>
    match (f.slot k).complete with
    | some (target, n) => ((f.burn none (wordBits (stateWord target n) ++ slotBit k 13)).1, 1)
    | none => ((f.burn none (slotBit k 14)).1, 2)

/-! ## The end of a request, R352, R353, R357 -/

/-- R352: a fresh nonce. -/
def State.freshNonce (s : State) : State := (s.modLcs fun l => { l with nonce := Config.random256 s.draws }).drawn

/-- A request ends. -/
def State.lcsEnd (s : State) (status : BitVec 4) (result : Byte) : State :=
  ((s.modLcs fun l => { l with status := status, result := result }).freshNonce).irq irqLife

def State.lcsRefused (s : State) (result : Byte) : State := s.lcsEnd 5 result

/-- R357: every key that RETIRED destroys. -/
def State.destroyKeys (s : State) : State :=
  let gone := Config.randomKey s.draws
  let s1 := s.modFuse fun f =>
    { f with deviceKey := none, bundleKey := none, operatorKey := none, operatorEcdsa := [], operatorMlDsa := [] }
  (s1.modPnl fun x => { x with
    commons := x.commons.map fun c => { c with keys := 0 }
    keyRanges := x.keyRanges.map fun r => if r.region.isSome then { r with keys := gone } else r }).drawn

/-- R357: a completed transition withdraws at once what its state does not grant. -/
def State.lcsTakes (s : State) (target : Nat) : State :=
  let s1 := s.modLcs fun l => { l with resetRequired := true, target := some (BitVec.ofNat 3 target) }
  let s2 := if target = 2 ∨ target = 4 ∨ target = 5 then s1.modPnl fun x => { x with debug := false } else s1
  if target = 5 then s2.destroyKeys else s2

/-- R353: the fuse bits of acts 4 to 6. -/
def transitionBits (k target n : Nat) : List FuseBit :=
  let m := markerWord target n
  inCopies (fun c => (bitsOf m).map fun i => .marker k c i) ++ wordBits (stateWord target n) ++ slotBit k 13

/-- R353, R354: the steps of SEQ after a transition. -/
def Fuses.stepsAfter (f : Fuses) (current target : Nat) : Nat :=
  let n := wordSteps f.voted
  if (current = 1 ∧ target = 2) ∨ (current = 2 ∧ target = 1) then n + 1 else n

/-- R353, acts 4 to 6. -/
def State.lcsBurn (s : State) (target : Nat) (fails : Option Nat) : State :=
  match s.fuse.freeSlots with
  | [] => s.lcsRefused 0x0B
  | k :: _ =>
    let r := s.fuse.burn fails (transitionBits k target (s.fuse.stepsAfter s.lcs.state.toNat target))
    let s1 := s.modFuse fun _ => r.1
    if r.2.2 then (s1.lcsTakes target).lcsEnd 4 0 else s1.lcsRefused 0x0C

/-- R357: a request for RETIRED that waits for the panels goes on once every panel is Free. -/
def State.settleRetire (s : State) : State :=
  match s.lcs.retiring with
  | none => s
  | some fails =>
    if (allFin 40).all fun p => s.pnl.panels[p].state = 0 then
      (s.modLcs fun l => { l with retiring := none }).lcsBurn 5 fails
    else s

end Sys2Proof.Machine
end

