-- ==== Sys2Proof/Machine/Dust.lean ====
section
/-!
DEFINITION. Dust sheet: how a panel ends, and the fill of a sealed panel (chapter Panels and trust, R320 to R326).
-/

namespace Sys2Proof.Machine

/-! ## The start of a reset, R294 acts 1 to 5 -/

/-- Act 1: no entry is fetched any more, and commands that have not started are dropped. -/
def QueueState.dropWaiting (x : QueueState) : QueueState :=
  { x with ahead := [], taken := x.taken.filter fun t => t.started.isSome, comps := [] }

/-- R294: the hub reads that serve a VF's queues are absorbed. -/
def PortState.absorb (x : PortState) (v : VfId) : PortState :=
  { x with reads := x.reads.filter fun r => match r.use with
      | .command q _ => q.vf ≠ v
      | .image => true }

/-- Acts 1, 2 and 5 for a VF. -/
def State.quiesceVf (s : State) (port : PortId) (v : VfId) : State :=
  let s1 := (State.vfQueues port v).foldl State.haltSilent s
  (s1.modVf port v fun x => { x with queues := x.queues.map QueueState.dropWaiting, waitingMsix := [] }).modPort port
    fun x => x.absorb v

/-- Acts 3 and 4 for a panel: while its ring writer is stopped, its binding tags are answered with status 0x9. -/
def State.stopRing (s : State) (p : PanelId) : State :=
  s.modPanel p fun x => { x with ring := { x.ring with arrivals := [], heldRecords := [], stalled := [], stopped := true } }

/-- Acts 1 to 5. -/
def State.quiesce (s : State) (port : PortId) (v : VfId) : State :=
  let s1 := s.quiesceVf port v
  match (s.vf port v).bound with
  | some p => s1.stopRing p
  | none => s1

/-- R294, R322: every array of the panel has halted, and no write that it injected is left unanswered. -/
def State.panelStill (s : State) (p : PanelId) : Bool :=
  (s.pnl.panels[p].arrays.filterMap id).all fun a =>
    let x := s.arrays[a]
    (x.seq.state = seqFaulted || x.seq.state = seqHalted || x.seq.state = seqIdle) && x.cube.haltReq.isNone &&
      x.cube.drainQ = [] && !(x.cube.acc.any fun y => y.phase = .running) && !s.arrayWrites a

/-! ## Entering dust sheet -/

/-- R322 phase 1: a panel that is not Free enters dust sheet. -/
def State.enterDust (s : State) (p : PanelId) : State :=
  let x := s.pnl.panels[p]
  if x.state = 0 ∨ x.state = 5 then s
  else
    let s1 := match x.vf with
      | some v => s.quiesceVf x.port v
      | none => s
    (s1.stopRing p).modPanel p fun y => { y with state := 5, phase := 1, fill := false }

/-- Whether a panel is in a phase of dust sheet. -/
def State.dustAt (s : State) (p : PanelId) (phase : BitVec 3) : Bool :=
  s.pnl.panels[p].state = 5 && s.pnl.panels[p].phase = phase

def State.toPhase (s : State) (p : PanelId) (phase : BitVec 3) : State := s.modPanel p fun x => { x with phase := phase }

/-- The invocations of a panel's VF that were halted are over. -/
def State.endHalted (s : State) (p : PanelId) : State :=
  let s1 := (s.panelQueues p).foldl (fun t q => t.modQ q fun x => { x with taken := none, stopping := false }) s
  (s.pnl.panels[p].arrays.filterMap id).foldl (fun t a => t.modSeq a SeqState.free) s1

/-- DUST_HALT_END, R322 phases 1 and 2, R388: the twin binding is withdrawn, and every binding may be undone. -/
def execDustHaltEnd (p : PanelId) (s : State) : Host.Outcome State Fault Refusal :=
  .next (
    if s.dustAt p 1 && s.panelStill p then ((s.endHalted p).withdrawTwin p).toPhase p 2 else s)

/-- The lines of every coherent range of a panel that have a directory entry. -/
def State.panelLines (s : State) (p : PanelId) : List Nat :=
  s.pnl.panels[p].ranges.flatMap fun r => s.linesIn r.base r.length

/-- DUST_UNBIND_END, R322 phases 2 and 3: a site that has died counts as having answered (R323). -/
def execDustUnbindEnd (p : PanelId) (s : State) : Host.Outcome State Fault Refusal :=
  .next (
    let bound := (allFin 8).any fun n => s.sites[n].inService && s.sites[n].bindings.any fun b => b.panel = p
    if s.dustAt p 2 && !bound then (s.flushLines (s.flushTint p) (s.panelLines p)).toPhase p 3 else s)

/-- R322 phase 3: every translation entry of a panel is discarded. -/
def TuState.forget (t : TuState) (p : PanelId) : TuState :=
  let keep := fun (c : List TlbEntry) => c.filter fun e => e.panel ≠ p
  { t with
    arrayTlb := t.arrayTlb.map keep, siteTlb := keep t.siteTlb, apertureTlb := keep t.apertureTlb, fieldTlb := keep t.fieldTlb
    walkCache := keep t.walkCache, walks := t.walks.filter fun w => w.panel ≠ p }

/-- DUST_FLUSH_END, R322 phases 3 and 4. -/
def execDustFlushEnd (p : PanelId) (s : State) : Host.Outcome State Fault Refusal :=
  .next (
    if s.dustAt p 3 && !((s.panelLines p).any s.flushing) then
      ((allFin 8).foldl (fun t f => t.modTu f fun u => u.forget p) s).toPhase p 4
    else s)

/-- R322 phase 4, R324: the panel's key ranges and data keys. -/
def State.dropKeys (s : State) (p : PanelId) : State :=
  (s.modPnl fun x => { x with keyRanges := x.keyRanges.filter fun k => k.panel ≠ some p }).modPanel p fun x => { x with keys := 0 }

/-- DUST_KEYS_END, R322 phases 4 and 5. -/
def execDustKeysEnd (p : PanelId) (s : State) : Host.Outcome State Fault Refusal :=
  .next (if s.dustAt p 4 then (s.dropKeys p).toPhase p 5 else s)

/-- R424: a dust engine. -/
def State.dustAgent (s : State) (p : PanelId) (pa : BitVec 52) : Agent :=
  let f := s.fieldOfPa pa
  { kind := 10, id := BitVec.ofNat 16 f.val, panel := some p, field := f }

/-- R322, R326: every code word of a range written with zero bytes and no mark. -/
def State.zeroRange (s : State) (p : PanelId) (base length : Nat) : State :=
  (List.range (length / 64)).foldl (fun t i =>
    let pa : BitVec 52 := BitVec.ofNat 52 (base + 64 * i)
    (t.writeCode (t.dustAgent p pa) pa { data := 0, mark := false }).2) s

def State.zeroGrants (s : State) (p : PanelId) (pick : Grant → Bool) : State :=
  (s.pnl.panels[p].grants.filter pick).foldl (fun t g => t.zeroRange p g.base g.length) s

/-- R322 phase 5: the stores of an array. -/
def ArrayState.zeroStores (x : ArrayState) : ArrayState :=
  { x with
    cube := { x.cube with
      descs := Vector.replicate 64 0, stat := Vector.replicate 2 {}, acc := Vector.replicate 4 {}, drainQ := [], merge := []
      ops := [], exch := Vector.replicate 4 {}, aStore := Vector.replicate 2 {}, bStore := Vector.replicate 2 {}
      aHalf := 0, bHalf := 0 }
    vec := { x.vec with codeStore := [], ctxs := [], localStore := [], launches := [], zeroed := true }
    moves := [] }

/-- R217, R322 phase 5: the schedule cache of an array, and what else its control cache holds. -/
def State.zeroArray (s : State) (a : ArrayId) : State :=
  (s.modCoh fun c => { c with caches := c.caches.filter fun x => x.agent ≠ asFin 96 a.val }).modArray a ArrayState.zeroStores

/-- DUST_ZERO_END, R322 phases 5 and 6. -/
def execDustZeroEnd (p : PanelId) (s : State) : Host.Outcome State Fault Refusal :=
  .next (
    if s.dustAt p 5 then
      let s1 := s.zeroGrants p fun g => g.pool
      ((s.pnl.panels[p].arrays.filterMap id).foldl State.zeroArray s1).toPhase p 6
    else s)

/-! ## Release -/

/-- An array returned by its panel. -/
def ArrayState.release (x : ArrayState) : ArrayState :=
  { x with panel := none, logical := 0x3F, mode := x.defaultMode, seq := { fault := x.seq.fault } }

/-- R294: the registers of a VF page at their reset values; the VF keeps its configuration state. -/
def VfState.resetPage (x : VfState) : VfState :=
  { bound := x.bound, tint := x.tint, bme := x.bme, d3hot := x.d3hot, resetting := x.resetting, tdi := x.tdi
    lockSession := x.lockSession, msixEnable := x.msixEnable, msixMask := x.msixMask }

/-- R322 phase 6: the VF of a panel is released. -/
def State.freeVf (s : State) (p : PanelId) : State :=
  match s.pnl.panels[p].vf with
  | none => s
  | some v => s.modVf s.pnl.panels[p].port v fun x => { x.resetPage with bound := none, tint := 0, tdi := 0, lockSession := none }

/-- R322 phase 6: everything that the panel holds is released, and its number is Free. -/
def State.freePanel (s : State) (p : PanelId) : State :=
  let s1 := (s.pnl.panels[p].arrays.filterMap id).foldl (fun t a => t.modArray a ArrayState.release) ((s.freeVf p).freeTwin p)
  let s2 := (allFin 8).foldl (fun t n => t.modSite n fun x => { x with bindings := x.bindings.filter fun b => b.panel ≠ p }) s1
  ((s2.dropKeys p).modPanel p fun _ => {}).modImg fun i => { i with panelIds := vset i.panelIds p 0 }

/-- DUST_RELEASE_END, R322 phase 6, R357, R388. -/
def execDustReleaseEnd (p : PanelId) (s : State) : Host.Outcome State Fault Refusal :=
  .next (if s.dustAt p 6 then (s.freePanel p).settleRetire else s)

/-! ## The fill of a sealed panel, R326 -/

/-- SEALED_FILL_DONE, R326: the HBM grants are zeroed under the panel's keys. -/
def execSealedFillDone (p : PanelId) (s : State) : Host.Outcome State Fault Refusal :=
  .next (
    if s.pnl.panels[p].fill then
      (s.zeroGrants p fun g => g.pool && decide (paSpace (BitVec.ofNat 52 g.base) < 2)).modPanel p fun x => { x with fill := false }
    else s)

end Sys2Proof.Machine
end

