-- ==== Sys2Proof/Machine/Critical.lean ====
section
/-!
DEFINITION. The keyed check and counter of critical commands (chapter Panels and trust, R330 to R333).
-/

namespace Sys2Proof.Machine

/-- R331: the message that a keyed check covers. -/
def critMessage (identity : BitVec 256) (auth op : Nat) (panel : Byte) (ctr : DWord) (args : List Byte) : List Byte :=
  [BitVec.ofNat 8 auth, BitVec.ofNat 8 op, panel, 0] ++ bytesOf 32 identity.toNat ++ bytesOf 8 ctr.toNat ++ args

/-- R331: the first 16 bytes of the HMAC, byte 0 in bits 7:0. -/
def critMac (key : BitVec 384) (message : List Byte) : BitVec 128 := (Config.hmacSha384 key message).setWidth 128

/-- R348's states by number, as LCS_STATUS reads them. -/
abbrev lcsBlank : BitVec 3 := 0
abbrev lcsTestUnlocked : BitVec 3 := 1
abbrev lcsTestLocked : BitVec 3 := 2
abbrev lcsPersonalized : BitVec 3 := 3
abbrev lcsFielded : BitVec 3 := 4
abbrev lcsRetired : BitVec 3 := 5

/-- PERSONALIZED and FIELDED. -/
def State.guarded (s : State) : Bool := s.lcs.state = lcsPersonalized || s.lcs.state = lcsFielded

/-- R343, R357: TEST_LOCKED and RETIRED, as the state or as the state that a completed transition has moved to. -/
def State.closed (s : State) : Bool :=
  s.lcs.state = lcsTestLocked || s.lcs.state = lcsRetired || s.lcs.target = some lcsTestLocked || s.lcs.target = some lcsRetired

/-- A critical command as it arrives. -/
structure Critical where
  auth : Nat
  op : Nat
  panel : Byte
  ctr : DWord
  mac : BitVec 128
  args : List Byte
  deriving DecidableEq, Repr

/-- The panel that a command names. -/
def panelNamed (b : Byte) : Option PanelId := if b.toNat < 40 then some (asFin 40 b.toNat) else none

/-- R330, R333: the authority that checks a command, with its key and stored counter, or the result that refuses it. -/
def State.authorityOf (s : State) (c : Critical) : Except Byte (Nat × BitVec 384 × DWord) :=
  if c.auth = 1 then .ok (1, s.fuse.vendorKey, s.fuse.ctrVendor)
  else if c.auth = 2 then
    match s.fuse.operatorKey with
    | some k => .ok (2, k, s.fuse.ctrOperator)
    | none => if c.op = 2 then .ok (1, s.fuse.vendorKey, s.fuse.ctrVendor) else .error 0x0C
  else match panelNamed c.panel with
    | none => .error 7
    | some p =>
      let x := s.pnl.panels[p]
      if x.state = 0 ∨ x.state = 1 ∨ x.state = 5 then .error 7
      else match x.authKey with
        | some k => .ok (3, k, x.counter)
        | none => .error 0x0C

/-- R332: an authority's stored counter is set to an accepted command's. -/
def State.setCounter (s : State) (auth : Nat) (panel : Byte) (ctr : DWord) : State :=
  if auth = 1 then s.modFuse fun f => { f with ctrVendor := ctr }
  else if auth = 2 then s.modFuse fun f => { f with ctrOperator := ctr }
  else match panelNamed panel with
    | some p => s.modPanel p fun x => { x with counter := ctr }
    | none => s

/-- R331 to R333: a command accepted, with its counter stored, or the result that refuses it. -/
def State.accept (s : State) (c : Critical) : Except Byte State :=
  if s.closed then .error 6
  else match s.authorityOf c with
    | .error r => .error r
    | .ok (auth, key, stored) =>
      if auth ≠ 3 ∧ !s.guarded then .ok s
      else if c.mac ≠ critMac key (critMessage s.fuse.identity c.auth c.op c.panel c.ctr c.args) then .error 1
      else if c.ctr.toNat ≤ stored.toNat then .error 2
      else .ok (s.setCounter auth c.panel c.ctr)

/-- PANEL_DESTROY as a critical command, from the mailbox or inside an SPDM session: its result, R332, R334. -/
def State.destroyPanel (s : State) (panel : Byte) (ctr : DWord) (mac : BitVec 128) (args : List Byte) : Byte × State :=
  match s.accept { auth := 3, op := 4, panel := panel, ctr := ctr, mac := mac, args := args } with
  | .error r => (r, s)
  | .ok s1 => if args.any fun b => b ≠ 0 then (5, s1) else (0, s1.enterDust (asFin 40 panel.toNat))

end Sys2Proof.Machine
end

