-- ==== Sys2Proof/Machine/Image.lean ====
section
/-!
DEFINITION. The hub image: its format and every check of the checking phase (chapter The hub image, R298 to R309, R313).
-/

namespace Sys2Proof.Machine

/-! ## Errors, R313 -/

structure ImgErr where
  error : Byte
  sect : Byte := 0
  entry : BitVec 12 := 0
  deriving DecidableEq, Repr

/-- R313: ENTRY of an index. -/
def entryNo (n : Nat) : BitVec 12 := BitVec.ofNat 12 (if 4094 < n then 0xFFF else n)

def imgErr {α : Type} (error : Byte) (sect : Nat := 0) (entry : Nat := 0) : Except ImgErr α :=
  .error { error := error, sect := BitVec.ofNat 8 sect, entry := entryNo entry }

/-- A check that must hold. -/
def need (ok : Bool) (error : Byte) (sect : Nat := 0) (entry : Nat := 0) : Except ImgErr Unit :=
  if ok then .ok () else imgErr error sect entry

/-- A check of every element of a list, in order, with its index. -/
def needAll {α : Type} (l : List α) (f : Nat → α → Except ImgErr Unit) : Except ImgErr Unit :=
  ((List.range l.length).zip l).forM fun x => f x.1 x.2

/-! ## Header and directory, R299, R300 -/

/-- The 32-bit word `i` of a run of bytes. -/
def wordAt (bs : List Byte) (i : Nat) : Nat := natOf ((bs.drop (4 * i)).take 4)

/-- The 64-bit quantity at words `i` and `i + 1`. -/
def pairAt (bs : List Byte) (i : Nat) : Nat := wordAt bs i + 2 ^ 32 * wordAt bs (i + 1)

structure Header where
  kind : Nat
  length : Nat
  svn : BitVec 16
  sections : Nat
  signed : Bool
  imageId : DWord
  baseId : DWord
  panel : Nat
  sigOffset : Nat
  deriving DecidableEq, Repr

abbrev sigLength : Nat := 3456

/-- R299, R311: the header of an image of which `asked` bytes were requested. -/
def parseHeader (bs : List Byte) (asked : Nat) : Except ImgErr Header :=
  let w := wordAt bs
  let h : Header :=
    { kind := fld (w 1) 8 8, length := w 2, svn := BitVec.ofNat 16 (fld (w 3) 16 16), sections := fld (w 3) 8 8, signed := Nat.testBit (w 3) 0
      imageId := BitVec.ofNat 64 (pairAt bs 4), baseId := BitVec.ofNat 64 (pairAt bs 6), panel := fld (w 8) 0 8, sigOffset := w 9 }
  let tail := if h.signed then h.length - sigLength else h.length
  let plain := w 0 = 0x55484947 && fld (w 1) 16 16 = 1 && h.length % 64 = 0 && h.length ≤ 4194304 && h.length = asked &&
    bs.length = asked && h.sections ≤ 32 && fld (w 3) 1 7 = 0 && fld (w 8) 8 24 = 0 &&
    ((List.range 6).all fun i => w (10 + i) = 0) && h.sigOffset = (if h.signed then tail else 0) &&
    (!h.signed || sigLength ≤ h.length) && 64 + 16 * h.sections ≤ tail
  if !plain then imgErr 3
  else if fld (w 1) 0 8 ≠ 0xB0 then imgErr 4
  else if h.kind < 1 ∨ 4 < h.kind then imgErr 5
  else .ok h

structure Section where
  type : Nat
  body : List Byte
  off : Nat
  deriving DecidableEq, Repr

/-- R300: whether a section type may stand in an image kind. -/
def sectionIn (kind type : Nat) : Bool :=
  if kind = 1 then 1 ≤ type && type ≤ 6
  else if kind = 2 then 0x10 ≤ type && type ≤ 0x14
  else kind = 4 && type = 0x13

/-- Whether `[a, a + n)` and `[b, b + m)` share a byte. -/
def overlap (a n b m : Nat) : Bool := decide (max a b < min (a + n) (b + m))

/-- R300: one directory entry, after the sections before it. -/
def parseEntry (bs : List Byte) (h : Header) (before : List Section) (i : Nat) : Except ImgErr Section :=
  let w := fun j => wordAt bs (16 + 4 * i + j)
  let type := fld (w 0) 16 16
  let off := w 1
  let n := w 2
  let body := (bs.drop off).take n
  let dir := 64 + 16 * h.sections
  let clash := overlap off n 0 dir || (h.signed && overlap off n h.sigOffset sigLength) ||
    before.any fun x => overlap off n x.off x.body.length
  if (before.any fun x => type ≤ x.type) || !sectionIn h.kind type || off % 64 ≠ 0 || h.length < off + n || clash then imgErr 6 0 i
  else if fld (w 0) 0 16 ≠ 1 ∨ (crc32 body).toNat ≠ w 3 then imgErr 6 type i
  else .ok { type := type, body := body, off := off }

def parseEntries (bs : List Byte) (h : Header) : Nat → Nat → List Section → Except ImgErr (List Section)
  | 0, _, acc => .ok acc
  | n + 1, i, acc =>
    match parseEntry bs h acc i with
    | .error e => .error e
    | .ok x => parseEntries bs h n (i + 1) (acc ++ [x])

/-- The body of a section, if the image has it. -/
def bodyOf (ss : List Section) (type : Nat) : Option (List Byte) := (ss.find? fun x => x.type = type).map (·.body)

/-- An image taken apart. -/
structure Image where
  header : Header
  sections : List Section
  deriving DecidableEq, Repr

def Image.body (i : Image) (type : Nat) : List Byte := (bodyOf i.sections type).getD []

def parseImage (bs : List Byte) (asked : Nat) : Except ImgErr Image :=
  match parseHeader bs asked with
  | .error e => .error e
  | .ok h =>
    match parseEntries bs h h.sections 0 [] with
    | .error e => .error e
    | .ok ss => .ok { header := h, sections := ss }

/-! ## Life cycle, signature, versions: R298, R301, R302 -/

/-- R301: both signatures over the digest of what lies before the signature block. -/
def State.signatureValid (s : State) (bs : List Byte) (h : Header) : Bool :=
  let digest := Config.sha384 (bs.take h.sigOffset)
  let block := (bs.drop h.sigOffset).take sigLength
  s.fuse.operatorKey.isSome && Config.ecdsaP384 s.fuse.operatorEcdsa digest (block.take 96) &&
    Config.mlDsa65 s.fuse.operatorMlDsa digest ((block.drop 96).take 3309) && ((block.drop 3405).all fun b => b = 0)

def State.checkRights (s : State) (bs : List Byte) (h : Header) : Except ImgErr Unit := do
  need ((h.kind = 1) ≠ s.img.loaded) 5
  need (!s.closed) 0x18
  need (if h.signed then s.signatureValid bs h else !s.guarded) 7
  need (s.fuse.svnMin.toNat ≤ h.svn.toNat) 8
  need (h.kind = 1 || h.baseId = s.img.baseId) 9
  need (if h.kind = 1 then h.panel = 0xFF && h.baseId = 0 else h.panel < 40) 0x0A

/-- R300: the sections that a kind requires. -/
def required (kind : Nat) : List Nat :=
  if kind = 1 then [1, 3, 4, 5, 6] else if kind = 2 then [0x10, 0x11] else if kind = 4 then [0x13] else []

/-- R300: the size of a section. -/
def sizeOk (type n : Nat) : Bool :=
  if type = 1 then n = 32 else if type = 2 then n = 80 else if type = 3 then n = 4
  else if type = 4 then n % 16 = 0 && n ≤ 16 * 47104 else if type = 5 then n = 64 else if type = 6 then n = 28
  else if type = 0x10 then n = 64 else if type = 0x11 then n % 16 = 0 && 16 ≤ n && n ≤ 512
  else if type = 0x12 then n % 16 = 0 && 16 ≤ n && n ≤ 64 else if type = 0x13 then n % 8 = 0 && n ≤ 64 else true

def checkSizes (i : Image) : Except ImgErr Unit := do
  (required i.header.kind).forM fun t => need (bodyOf i.sections t).isSome 0x0A t
  i.sections.forM fun x => need (sizeOk x.type x.body.length) 0x0A x.type

/-! ## Base image, R303 to R305 -/

/-- What a base image sets. -/
structure Base where
  fields : Byte
  sites : Byte
  dies : BitVec 24
  arrays : BitVec 40
  modes : BitVec 40
  lath : List (BitVec 34)
  h : Nat
  x : Nat
  stencils : List (Nat × DWord)
  tints : List Word
  homes : BitVec 24
  owner : BitVec 96
  valid : BitVec 96
  deriving DecidableEq, Repr

/-- R303: the position of the lowest reserved bit of INSERVICE that is set. -/
def inserviceReserved (n : Nat) : Option Nat :=
  (List.range 256).find? fun i => Nat.testBit n i && ((16 ≤ i && i < 32) || (56 ≤ i && i < 64) || (104 ≤ i && i < 128) || 168 ≤ i)

/-- The masks of LATH, or none held. -/
def lathMasks (i : Image) : List (BitVec 34) :=
  match bodyOf i.sections 2 with
  | none => List.replicate 10 0
  | some b => (List.range 10).map fun k => BitVec.ofNat 34 (pairAt b (2 * k))

def parseBase (i : Image) : Base :=
  let v := i.body 1
  let c := i.body 6
  let st := i.body 4
  { fields := BitVec.ofNat 8 (wordAt v 0), sites := BitVec.ofNat 8 (fld (wordAt v 0) 8 8), dies := BitVec.ofNat 24 (wordAt v 1)
    arrays := BitVec.ofNat 40 (pairAt v 2), modes := BitVec.ofNat 40 (pairAt v 4), lath := lathMasks i
    h := fld (wordAt (i.body 3) 0) 0 8, x := fld (wordAt (i.body 3) 0) 8 5
    stencils := (List.range (st.length / 16)).map fun k =>
      let w := wordAt st (4 * k)
      (stencilKey (asFin 8 (fld w 24 3)) (asFin 32 (fld w 16 5)) (fld w 0 8), BitVec.ofNat 64 (pairAt st (4 * k + 2)))
    tints := (List.range 16).map fun t => BitVec.ofNat 32 (wordAt (i.body 5) t)
    homes := BitVec.ofNat 24 (wordAt c 0)
    owner := BitVec.ofNat 96 (natOf ((c.drop 4).take 12)), valid := BitVec.ofNat 96 (natOf ((c.drop 16).take 12)) }

/-- R303, R312: every element that INSERVICE names is in service, in the order of their positions. -/
def State.checkNamed (s : State) (b : Base) : Except ImgErr Unit := do
  (allFin 8).forM fun f => need (!bit b.fields f.val || s.fieldReady f) 0x0B 1 f.val
  (allFin 8).forM fun n =>
    need (!bit b.sites n.val || (bit b.fields n.val && s.siteReady n && s.sites[n].inService)) 0x0B 1 (8 + n.val)
  (allFin 24).forM fun k =>
    need (!bit b.dies k.val || (bit b.fields (k.val / 3) && s.stackReady k)) 0x0B 1 (32 + k.val)
  (allFin 40).forM fun a => need (!(bit b.arrays a.val && s.arrays[a].st = 1)) 0x0B 1 (64 + a.val)

/-- R10: the fields on the two sides of a boundary. -/
def boundarySides (k : Nat) : Nat × Nat :=
  if k < 6 then (4 * (k / 3) + k % 3, 4 * (k / 3) + k % 3 + 1) else (k - 6, k - 2)

/-- R304. -/
def State.checkLath (s : State) (i : Image) (b : Base) : Except ImgErr Unit :=
  match bodyOf i.sections 2 with
  | none => .ok ()
  | some body => needAll b.lath fun k m => do
      need (pairAt body (2 * k) < 2 ^ 34 && (m &&& ~~~lathLinks (asFin 10 k)) = 0) 0x0A 2 k
      let cur := s.net.lath[asFin 10 k].inService
      let near := bit b.fields (boundarySides k).1 || bit b.fields (boundarySides k).2
      need (!(near && cur ≠ 0 && (cur &&& ~~~m) = 0)) 0x0A 2 k

/-- R107, R109: the data capacity of a stack. -/
def State.stackCapacity (s : State) (k : StackId) : Nat := s.hbm[k].p * 1966080 * 512

def State.checkPools (s : State) (i : Image) (b : Base) : Except ImgErr Unit := do
  need (fld (wordAt (i.body 3) 0) 13 19 = 0) 0x0A 3
  need (b.h ≤ 240 && b.x ≤ 16) 0x0C 3
  need ((allFin 24).all fun k => !bit b.dies k.val || decide (b.h * 268435456 ≤ s.stackCapacity k)) 0x0C 3

/-- R189: a crossing's direction: down or up a column, or across. -/
def crossDir : Router → Nat
  | .gate _ g => g.val
  | .station _ _ => 3

/-- R189: the gates whose boundary a route crosses, in order. -/
def crossings (r : Router) : List Nat → List Nat
  | [] => []
  | p :: ps =>
    match hop r p with
    | .go r2 c => (if c.isSome then [crossDir r] else []) ++ crossings r2 ps
    | _ => []

def noRepeat {α : Type} [DecidableEq α] : List α → Bool
  | [] => true
  | x :: xs => !(decide (x ∈ xs)) && noRepeat xs

/-- R189: whether a stencil's route is accepted; `held` are the links that the image holds out of service. -/
def State.routeOk (s : State) (held : List (BitVec 34)) (f : FieldId) (ni : NiId) (e : DWord) : Bool :=
  let start := Router.station f (niStation ni)
  match walkRoute start (stencilHops e) with
  | none => false
  | some r =>
    let dirs := crossings start (stencilHops e)
    r.field = stencilField e && r.ni = stencilNi e && noRepeat r.routers && dirs.count 2 ≤ 1 &&
      !(dirs.contains 0 && dirs.contains 1) &&
      r.crossed.all fun b => (s.net.lath[b].inService &&& ~~~(held[b.val]?.getD 0)) ≠ 0

/-- R186, R187, R305: one stencil record. -/
def State.checkStencil (s : State) (held : List (BitVec 34)) (w0 w1 : Nat) (e : DWord) (k : Nat) : Except ImgErr Unit := do
  need (fld w0 27 5 = 0 && fld w0 21 3 = 0 && fld w0 8 8 = 0 && w1 = 0 && fld e.toNat 61 3 = 0) 0x0A 4 k
  let f : FieldId := asFin 8 (fld w0 24 3)
  let ni : NiId := asFin 32 (fld w0 16 5)
  let hops := fld e.toNat 27 4
  let high := fld e.toNat 0 24 + 2 ^ 24 * fld e.toNat 32 24
  need (niPresent f ni && niPresent (stencilField e) (stencilNi e) && stencilValid e &&
    fld w0 0 8 = 32 * (stencilField e).val + (stencilNi e).val && 1 ≤ hops && hops ≤ 12 && high / 16 ^ hops = 0 &&
    s.routeOk held f ni e) 0x0D 4 k

def State.checkStencils (s : State) (i : Image) (b : Base) : Except ImgErr Unit :=
  needAll b.stencils fun k x => s.checkStencil b.lath (wordAt (i.body 4) (4 * k)) (wordAt (i.body 4) (4 * k + 1)) x.2 k

/-- R195, R202. -/
def checkTints (b : Base) : Except ImgErr Unit := do
  needAll b.tints fun t w => need (fld w.toNat 26 5 = 0 && fld w.toNat 0 8 = 0) 0x0A 5 t
  needAll b.tints fun t w => need (!bit w 31 || fld w.toNat 24 2 = 3) 0x0E 5 t
  let promised := b.tints.filter fun w => bit w 31
  need ((promised.map fun w => fld w.toNat 16 8).sum ≤ 192 && (promised.map fun w => fld w.toNat 8 8).sum ≤ 192) 0x0E 5

/-- R249, R305: whether a site declares an agent that may be marked valid. -/
def State.agentDeclared (s : State) (a : AgentId) : Bool :=
  let x := s.sites[agentSite a]
  let j := agentSlot a
  (j < x.nativeAgents && bit x.granted 9) || (j = x.nativeAgents && fld x.desc[5].toNat 25 1 = 1 && bit x.granted 8)

/-- R219: an agent certified for owner-capable operation. -/
def State.agentCertified (s : State) (a : AgentId) : Bool :=
  let x := s.sites[agentSite a]
  agentSlot a < x.nativeAgents && Nat.testBit x.desc[5].toNat (26 + agentSlot a) && bit x.granted 10

/-- R218, R219, R221, R305. -/
def State.checkCoherence (s : State) (i : Image) (b : Base) : Except ImgErr Unit := do
  need (fld (wordAt (i.body 6) 0) 24 8 = 0) 0x0A 6
  need ((List.range 8).all fun g => bit b.fields (fld b.homes.toNat (3 * g) 3)) 0x0F 6
  (allFin 96).forM fun a =>
    need (!bit b.owner a.val || (bit b.valid a.val && (if a.val < 40 then false else if a.val < 48 then true else s.agentCertified a)))
      0x0F 6 (1 + a.val / 32)
  (allFin 96).forM fun a =>
    need (!bit b.valid a.val || a.val < 48 || (bit b.sites (agentSite a).val && s.agentDeclared a)) 0x0F 6 (4 + a.val / 32)

def State.checkBase (s : State) (i : Image) : Except ImgErr Unit := do
  let b := parseBase i
  match inserviceReserved (natOf (i.body 1)) with
  | some n => imgErr 0x0A 1 n
  | none => .ok ()
  s.checkNamed b
  s.checkLath i b
  s.checkPools i b
  s.checkStencils i b
  checkTints b
  s.checkCoherence i b

/-! ## Bindings, R309 -/

/-- A BINDINGS entry. -/
structure BindEntry where
  tag : Byte
  slot : Fin 8
  site : SiteId
  target : BitVec 4
  tint : TintId
  regs : Bool
  devmem : Bool
  deriving DecidableEq, Repr

def parseBind (w : Nat) : BindEntry :=
  { tag := BitVec.ofNat 8 w, slot := asFin 8 (fld w 8 3), site := asFin 8 (fld w 11 3), target := BitVec.ofNat 4 (fld w 14 4)
    tint := asFin 16 (fld w 18 4), regs := Nat.testBit w 23, devmem := Nat.testBit w 22 }

def Image.bindEntries (i : Image) : List BindEntry :=
  (List.range ((i.body 0x13).length / 8)).map fun k => parseBind (wordAt (i.body 0x13) (2 * k))

/-- A binding that an entry is identical to. -/
def BindEntry.same (e : BindEntry) (n : SiteId) (p : PanelId) (b : Binding) : Bool :=
  e.site = n && b.panel = p && b.tag = e.tag && b.slot = e.slot && b.target = e.target && b.tint = e.tint && b.regs = e.regs &&
    b.devmem = e.devmem && b.phase = .bound

def State.keptBind (s : State) (p : PanelId) (e : BindEntry) : Bool := s.sites[e.site].bindings.any fun b => e.same e.site p b

/-- R242, R249: whether the entry's target is declared, with its feature granted; an engine's stream endpoints need theirs. -/
def State.targetDeclared (s : State) (e : BindEntry) : Bool :=
  let x := s.sites[e.site]
  let t := e.target.toNat
  (if t < 8 then t < x.engines && bit x.granted 0 &&
      (bit x.granted 4 || (List.range x.endpoints).all fun q => x.endpointEngine q ≠ t)
   else if t < 14 then t - 8 < x.nativeAgents && bit x.granted 9 && bit s.coh.valid (48 + 6 * e.site.val + (t - 8))
   else t = 15 && fld x.desc[5].toNat 25 1 = 1 && bit x.granted 8 && bit s.coh.valid (48 + 6 * e.site.val + x.nativeAgents)) &&
  (!e.regs || bit x.granted (ApertureAt.regs 0).feature) && (!e.devmem || (bit x.granted (ApertureAt.device 0).feature && x.hdmSize ≠ 0))

/-- What another binding of the same site holds that an entry claims. -/
def BindEntry.clash (e : BindEntry) (p : PanelId) (b : Binding) : Bool :=
  b.tag = e.tag || (b.target = e.target && b.panel ≠ p) || (e.regs && b.regs && b.panel ≠ p) ||
    (e.devmem && b.devmem && b.panel ≠ p)

def BindEntry.clashEntry (e f : BindEntry) : Bool :=
  f.slot = e.slot || (f.site = e.site && (f.tag = e.tag || f.target = e.target))

/-- R309: the entries of a BINDINGS section for a panel. -/
def State.checkBindings (s : State) (i : Image) (p : PanelId) : Except ImgErr Unit :=
  let es := i.bindEntries
  needAll es fun k e => do
    let w := wordAt (i.body 0x13) (2 * k)
    need (fld w 24 8 = 0 && wordAt (i.body 0x13) (2 * k + 1) = 0 && e.tag ≠ 0 && e.target ≠ 14) 0x0A 0x13 k
    need (s.keptBind p e || (s.siteReady e.site && s.sites[e.site].inService && bit s.img.siteMask e.site.val && s.targetDeclared e))
      0x14 0x13 k
    need (!((es.take k).any fun f => e.clashEntry f)) 0x10 0x13 k
    need (s.keptBind p e || !(s.sites[e.site].bindings.any fun b => e.clash p b)) 0x10 0x13 k

/-! ## Panel create, R306 to R308, R324, R327, R380 -/

/-- The PANEL section. -/
structure PanelSect where
  twin : Bool
  sealed_ : Bool
  tint : TintId
  port : PortId
  vf : Nat
  arrays : List Nat
  modes : BitVec 40
  deriving DecidableEq, Repr

def parsePanel (i : Image) : PanelSect :=
  let b := i.body 0x10
  let w := wordAt b 0
  { twin := Nat.testBit w 25, sealed_ := Nat.testBit w 24, tint := asFin 16 (fld w 16 4), port := asFin 2 (fld w 8 1)
    vf := fld w 0 6, arrays := ((b.drop 4).take 40).map (·.toNat), modes := BitVec.ofNat 40 (pairAt b 11) }

/-- The arrays that it names. -/
def PanelSect.named (x : PanelSect) : List Nat := x.arrays.takeWhile fun a => a ≠ 0xFF

def State.checkPanel (s : State) (i : Image) (p : PanelId) : Except ImgErr Unit := do
  let b := i.body 0x10
  let x := parsePanel i
  let w := wordAt b
  need (fld (w 0) 26 6 = 0 && fld (w 0) 20 4 = 0 && fld (w 0) 9 7 = 0 && fld (w 0) 6 2 = 0) 0x0A 0x10 0
  need (!x.twin || (bodyOf i.sections 0x14).isSome) 0x0A 0x10 0
  need (!x.sealed_ || (s.guarded && !s.pnl.debug)) 5 0x10 0
  need (1 ≤ x.vf && x.vf ≤ 40) 0x0A 0x10 0
  need (x.vf ≤ s.ports[x.port].numVfs.toNat && s.ports[x.port].vfEnable) 0x0B 0x10 0
  need (s.vf x.port (asFin 40 (x.vf - 1))).bound.isNone 0x10 0x10 0
  needAll x.arrays fun k a => need (a = 0xFF || (a < 40 && k < x.named.length)) 0x0A 0x10 (1 + k / 4)
  need (x.named ≠ []) 0x0A 0x10 1
  needAll x.named fun k a => do
    need (s.arrays[asFin 40 a].st = 0 && !s.fields[fieldOfArray (asFin 40 a)].leftOut) 0x0B 0x10 (1 + k / 4)
    need (s.arrays[asFin 40 a].panel.isNone && !((x.named.take k).contains a)) 0x10 0x10 (1 + k / 4)
  need (fld (w 12) 8 24 = 0) 0x0A 0x10 12
  need (w 13 = 0) 0x0A 0x10 13
  need (w 14 = 0) 0x0A 0x10 14
  need (w 15 = 0) 0x0A 0x10 15
  need (s.pnl.panels[p].state = 0) 0x10

/-- A GRANTS entry. -/
structure GrantEntry where
  kind : Nat
  region : Nat
  write : Bool
  base : Nat
  length : Nat
  reserved : Bool
  deriving DecidableEq, Repr

def parseGrant (b : List Byte) (k : Nat) : GrantEntry :=
  let w0 := wordAt b (4 * k)
  let w1 := wordAt b (4 * k + 1)
  { kind := fld w0 1 3, region := fld w0 4 8, write := Nat.testBit w0 0, base := w0 / 65536 * 65536 + fld w1 0 20 * 2 ^ 32
    length := pairAt b (4 * k + 2), reserved := fld w0 12 4 ≠ 0 || fld w1 20 12 ≠ 0 }

def Image.grantEntries (i : Image) : List GrantEntry :=
  (List.range ((i.body 0x11).length / 16)).map (parseGrant (i.body 0x11))

/-- R307: a pool portion lies in one pool, below its backed size. -/
def State.poolPortion (s : State) (base length : Nat) : Bool :=
  let pa : BitVec 52 := BitVec.ofNat 52 base
  let last : BitVec 52 := BitVec.ofNat 52 (base + length - 1)
  base % 65536 = 0 && length % 65536 = 0 && length ≠ 0 && base + length ≤ 2 ^ 51 && paSpace pa < 4 && paSpace pa = paSpace last &&
    (if paSpace pa = 1 ∨ paSpace pa = 3 then paField pa = paField last && s.fieldMapped (paField pa) else true) &&
    decide (paOffset pa + length ≤ s.backedSize pa)

/-- R307: pool portions of other panels, and the copies of commons regions. -/
def State.takenRanges (s : State) (p : PanelId) : List PaRange :=
  ((allFin 40).filter fun q => q ≠ p).flatMap (fun q =>
    (s.pnl.panels[q].grants.filter fun g => g.pool).map fun g => { base := g.base, length := g.length }) ++
  (allFin 32).flatMap fun n =>
    let c := s.pnl.commons[n]
    if c.state = 0 then [] else
      [{ base := c.primary, length := c.length }] ++ (if c.mirrored then [{ base := c.mirror, length := c.length }] else [])

/-- R153: the copies of a region lie in two fields. -/
def CommonsState.apart (c : CommonsState) : Bool :=
  !c.mirrored || paField (BitVec.ofNat 52 c.primary) ≠ paField (BitVec.ofNat 52 c.mirror)

def State.checkGrants (s : State) (i : Image) (p : PanelId) : Except ImgErr Unit :=
  let gs := i.grantEntries
  let others := s.takenRanges p
  needAll gs fun k g => do
    need (!g.reserved) 0x0A 0x11 k
    need (g.kind < 2) 0x11 0x11 k
    if g.kind = 1 then
      need (g.base = 0 && g.length = 0 && !g.write) 0x11 0x11 k
      need (g.region < 32) 0x12 0x11 k
      let c := s.pnl.commons[asFin 32 g.region]
      need ((c.state = 2 || c.state = 3 || c.state = 4) && c.apart) 0x12 0x11 k
      need (!((gs.take k).any fun h => h.kind = 1 && h.region = g.region)) 0x11 0x11 k
    else
      need (g.region = 0 && s.poolPortion g.base g.length) 0x11 0x11 k
      need (!(others.any fun r => overlap g.base g.length r.base r.length)) 0x11 0x11 k
      need (!((gs.take k).any fun h => h.kind = 0 && overlap g.base g.length h.base h.length)) 0x11 0x11 k

/-- Whether a range lies within the pool portions of an image. -/
def Image.granted (i : Image) (base length : Nat) (write : Bool) : Bool :=
  coveredBy ((i.grantEntries.filter fun g => g.kind = 0 && (g.write || !write)).map fun g => { base := g.base, length := g.length }) base length

/-- R214, R308. -/
def Image.cohEntries (i : Image) : List PaRange :=
  let b := i.body 0x12
  (List.range (b.length / 16)).map fun k => { base := pairAt b (4 * k), length := pairAt b (4 * k + 2) }

def checkCoherent (i : Image) : Except ImgErr Unit :=
  let rs := i.cohEntries
  needAll rs fun k r => do
    need (r.base < 2 ^ 52) 0x0A 0x12 k
    need (r.base % 65536 = 0 && r.length % 65536 = 0 && r.length ≠ 0 && i.granted r.base r.length true) 0x13 0x12 k
    need (!((rs.take k).any fun q => overlap r.base r.length q.base q.length)) 0x13 0x12 k

/-- R324: the HBM pool portions of a sealed panel need key ranges. -/
def Image.hbmGrants (i : Image) : List GrantEntry :=
  i.grantEntries.filter fun g => g.kind = 0 && paSpace (BitVec.ofNat 52 g.base) < 2

/-- The TWIN section, R380. -/
structure TwinSect where
  binding : BindId
  role : Nat
  auto : Bool
  alt : Bool
  port : PortId
  tint : TintId
  ranges : List PaRange
  windows : List Grant
  reserved : Bool
  deriving DecidableEq, Repr

def parseTwin (b : List Byte) : TwinSect :=
  let w := wordAt b 0
  let n := fld w 16 3
  let m := fld w 8 4
  { binding := asFin 64 (fld w 26 6), role := fld w 24 2, auto := Nat.testBit w 23, alt := Nat.testBit w 22
    port := asFin 2 (fld w 21 1), tint := asFin 16 (fld w 12 4)
    ranges := (List.range n).map fun k => { base := pairAt b (4 + 4 * k), length := pairAt b (6 + 4 * k) }
    windows := (List.range m).map fun k =>
      let g := parseGrant (b.drop (16 + 16 * n)) k
      { base := g.base, length := g.length, write := g.write, pool := true, region := none }
    reserved := fld w 19 2 ≠ 0 || fld w 0 8 ≠ 0 || wordAt b 1 ≠ 0 || wordAt b 2 ≠ 0 || wordAt b 3 ≠ 0 ||
      b.length ≠ 16 + 16 * (n + m) || decide (4 < n) || decide (8 < m) ||
      (List.range m).any fun k =>
        let g := parseGrant (b.drop (16 + 16 * n)) k
        g.reserved || g.kind ≠ 0 || g.region ≠ 0 }

def State.checkTwin (s : State) (i : Image) : Except ImgErr Unit :=
  match bodyOf i.sections 0x14 with
  | none => .ok ()
  | some b =>
    let x := parseTwin b
    let pair := x.role = 1 || x.role = 2
    let up := s.twin.ports[x.port].level ≠ 0
    let ranges := needAll x.ranges fun k r => need (r.base % 65536 = 0 && r.length % 65536 = 0 && r.length ≠ 0 &&
      i.granted r.base r.length true && !((x.ranges.take k).any fun q => overlap r.base r.length q.base q.length)) 0x19 0x14 k
    let windows := needAll x.windows fun k g =>
      need (g.length ≠ 0 && i.granted g.base g.length g.write) 0x19 0x14 k
    do
      need (!x.reserved && x.role < 3 && !(x.role = 0 && x.ranges ≠ [])) 0x19 0x14 0
      need (!s.twin.bindings[x.binding].valid) 0x19 0x14 0
      need (!pair || (up && s.pairWorks x.port)) 0x19 0x14 0
      ranges
      windows

def State.checkCreate (s : State) (i : Image) (p : PanelId) : Except ImgErr Unit := do
  s.checkPanel i p
  s.checkGrants i p
  checkCoherent i
  s.checkBindings i p
  s.checkTwin i
  need (!(parsePanel i).sealed_ || decide (s.pnl.keyRanges.length + i.hbmGrants.length ≤ 256)) 0x10 0x11 0

/-! ## Destroy and rebind, R316, R317 -/

/-- R317: the slots that a rebind would change. -/
def State.changedSlots (s : State) (i : Image) (p : PanelId) : Byte :=
  BitVec.ofNat 8 (((allFin 8).map fun k =>
    let now := s.pnl.panels[p].slots[k]
    let new := i.bindEntries.find? fun e => e.slot = k
    let same := match now, new with
      | none, none => true
      | some _, some e => s.keptBind p e
      | _, _ => false
    flag (!same) k.val).sum)

/-- R317: an invocation accepted or running whose SITE_MASK names one of the slots. -/
def State.slotsInUse (s : State) (p : PanelId) (m : Byte) : Bool :=
  (s.panelQueues p).any fun q => (s.taken q).any fun t => cmdOp t.bits = opInvoke && (t.siteMask &&& m) ≠ 0

def State.checkExisting (s : State) (p : PanelId) : Except ImgErr Unit :=
  need (s.pnl.panels[p].state ≠ 0 && s.pnl.panels[p].state ≠ 1 && s.pnl.panels[p].state ≠ 5) 0x16

def State.checkRebind (s : State) (i : Image) (p : PanelId) : Except ImgErr Unit := do
  s.checkExisting p
  s.checkBindings i p
  need (!s.slotsInUse p (s.changedSlots i p)) 0x17 0x13

/-! ## The checking phase, R311 -/

def imagePanel (h : Header) : PanelId := asFin 40 h.panel

/-- R311: every check, in the order of the table. -/
def State.checkImage (s : State) : Except ImgErr Image := do
  let bs := s.img.staging
  let i ← parseImage bs s.img.length.toNat
  s.checkRights bs i.header
  checkSizes i
  let p := imagePanel i.header
  if i.header.kind = 1 then s.checkBase i
  else if i.header.kind = 2 then s.checkCreate i p
  else if i.header.kind = 3 then s.checkExisting p
  else s.checkRebind i p
  return i

end Sys2Proof.Machine
end

