-- ==== Sys2Proof/Machine/ImageLoad.lean ====
section
/-!
DEFINITION. Image loads and site bindings (chapter The hub image, R310 to R319; chapter Chiplet sites, R267).
-/

namespace Sys2Proof.Machine

/-! ## Outcomes of a load, R311, R313 -/

def State.imageEnd (s : State) (st : BitVec 4) (e : ImgErr) : State :=
  (s.modImg fun i => { i with status := st, error := e.error, section_ := e.sect, entry := e.entry }).irq irqImage

/-- The load is in effect. -/
def State.imageDone (s : State) : State := s.imageEnd 6 { error := 0 }

/-- The load is refused: a panel number that was Creating is Free again, and a rebind holds no slot. -/
def State.imageRefused (s : State) (e : ImgErr) : State :=
  let p : PanelId := asFin 40 s.img.panel.toNat
  let s1 := if s.img.kind = 2 ∧ s.pnl.panels[p].state = 1 then s.freePanel p else s
  let s2 := if s.img.kind = 4 then s1.modPanel p fun x => { x with slotHold := 0 } else s1
  s2.imageEnd 7 e

/-! ## The request, R310, R311 -/

/-- R310, R331: the request as a critical command of the operator. -/
def State.imageCommand (s : State) (value : Word) : Critical :=
  let i := s.img
  { auth := 2, op := 1, panel := 0xFF, ctr := i.authCtr, mac := i.mac
    args := bytesOf 8 i.src.toNat ++ bytesOf 4 i.length.toNat ++ bytesOf 4 value.toNat }

/-- A request of PF0 for the image; a port whose link is down answers it at once (R279). -/
def State.requestImage (s : State) : State :=
  let i := s.img
  let s1 := s.modImg fun j => { j with status := 1, error := 0, section_ := 0, entry := 0, staging := [], newBinds := [], failing := false }
  if s.ports[i.port].l0 then s1.issueRead i.port none .image (i.src &&& 0x000FFFFFFFFFFFC0) i.length.toNat
  else (s1.noteHost i.port 3).imageRefused { error := 2 }

def badLength (n : Nat) : Bool := n = 0 || 4194304 < n || n % 64 ≠ 0

/-- The write that IMG_GO makes. -/
def State.imgControl (s : State) (value : Word) : State :=
  if bit value 31 && decide (1 ≤ s.img.status.toNat ∧ s.img.status.toNat ≤ 5) then s.note
  else
    let s1 := s.modImg fun i => { i with commitSvn := bit value 2, wait := bit value 1, port := asFin 2 (fld value.toNat 0 1) }
    if !bit value 31 then s1
    else
      let s2 := s1.modImg fun i => { i with kind := 0, panel := 0 }
      let checked : Except Byte State := if s.guarded then s2.accept (s2.imageCommand value) else .ok s2
      match checked with
      | .error _ => s2.imageRefused { error := 1 }
      | .ok s3 => if badLength s3.img.length.toNat then s3.imageRefused { error := 3 } else s3.requestImage

/-- IMG_GO, R310, R311: a write of IMG_CONTROL. -/
def execImgGo (value : Word) (s : State) : Host.Outcome State Fault Refusal :=
  .next (s.byPf0 fun s => s.imgControl value)

/-- R311: the image has been read into the staging store, or the read has failed. -/
def State.imageRead (s : State) (r : HostRead) : State :=
  let s1 := s.modPort s.img.port fun x => { x with reads := x.reads.filter fun y => y.use ≠ .image }
  match r with
  | .ok bs =>
    if bs.length ≠ s.img.length.toNat then s1.imageRefused { error := 2 }
    else
      let kind := fld (wordAt bs 1) 8 8
      s1.modImg fun i => { i with
        staging := bs, kind := BitVec.ofNat 8 kind, panel := BitVec.ofNat 8 (wordAt bs 8)
        status := if kind = 1 ∧ i.wait then 2 else 3 }
  | .poisoned _ => s1.imageRefused { error := 2 }
  | r => (s1.noteRead s.img.port r).imageRefused { error := 2 }

/-- IMAGE_READ_DONE, R311, R312. -/
def execImageReadDone (result : HostRead) (s : State) : Host.Outcome State Fault Refusal :=
  .next (if s.img.status = 1 then s.imageRead result else s)

/-- R270, R289: what a host read of the hub came to; where the port had no further tag, fetching goes on. -/
def State.readAnswered (s : State) (port : PortId) (read : Nat) (r : HostRead) : State :=
  match s.ports[port].reads.find? fun x => x.serial = read with
  | none => s
  | some x =>
    let s1 := s.modPort port fun y => { y with reads := y.reads.filter fun z => z.serial ≠ read }
    let s2 := match x.use with
      | .command q index => s1.commandRead q index r
      | .image => if s.img.status = 1 then s1.imageRead r else s1
    if s.mayRead port then s2 else (allFin 40).foldl (fun t v => t.fetchVf port v) s2

/-- HOST_READ_COMPLETION, R285, R289, R311: one that comes after the port has answered is discarded. -/
def execHostReadCompletion (port : PortId) (read : Nat) (result : HostRead) (s : State) : Host.Outcome State Fault Refusal :=
  .next (if s.ports[port].l0 then s.readAnswered port read result else s)

/-- HOST_READ_TIMEOUT, R289. -/
def execHostReadTimeout (port : PortId) (read : Nat) (s : State) : Host.Outcome State Fault Refusal :=
  .next (s.readAnswered port read .silent)

/-! ## Waiting and checking, R311, R312 -/

/-- R312: every element that INSERVICE names has entered service or failed. -/
def State.namedSettled (s : State) : Bool :=
  match parseImage s.img.staging s.img.length.toNat with
  | .error _ => true
  | .ok i =>
    let b := parseBase i
    (allFin 8).all (fun f => !bit b.fields f.val || s.fieldReady f) &&
    (allFin 8).all (fun n => !bit b.sites n.val || s.siteReady n || !s.sites[n].comingUp) &&
    (allFin 24).all fun k => !bit b.dies k.val || s.stackReady k || s.hbm[k].stage = .failed

/-- IMAGE_WAIT_END, R312. -/
def execImageWaitEnd (expired : Bool) (s : State) : Host.Outcome State Fault Refusal :=
  .next (if s.img.status = 2 && (expired || s.namedSettled) then s.modImg fun i => { i with status := 3 } else s)

/-- IMAGE_CHECK_DONE, R298 to R309, R311, R313, R317, R320. -/
def execImageCheckDone (s : State) : Host.Outcome State Fault Refusal :=
  .next (
    if s.img.status ≠ 3 then s
    else match s.checkImage with
      | .error e => s.imageRefused e
      | .ok i =>
        let p := imagePanel i.header
        let s1 := s.modImg fun j => { j with status := 4 }
        if i.header.kind = 2 then s1.modPanel p fun _ => { state := 1 }
        else if i.header.kind = 4 then s1.modPanel p fun x => { x with slotHold := s.changedSlots i p }
        else s1)

/-! ## Applying a base image, R303 to R305 -/

/-- R303: whether a base image keeps an array in service; one of a field left out is held as well. -/
def Base.keeps (b : Base) (a : ArrayId) : Bool := bit b.arrays a.val && bit b.fields (fieldOfArray a).val

/-- R15, R60, R303: an array held out of service, or kept. -/
def State.holdArray (b : Base) (s : State) (a : ArrayId) : State :=
  let s1 := s.modArray a fun x =>
    let y := { x with defaultMode := bit b.modes a.val }
    if y.panel.isNone then { y with mode := y.defaultMode } else y
  if s.arrays[a].st = 0 ∧ !b.keeps a then
    (s1.modArray a fun x => { x with st := 4 }).setSink (fieldOfArray a) (niOfArray a) true
  else s1

/-- R303: the fast tier, stacks, site, home and translation unit of a field left out. -/
def State.leaveOut (b : Base) (s : State) (f : FieldId) : State :=
  if bit b.fields f.val then s
  else
    (((List.range 14).foldl (fun t k => t.setSink f (asFin 32 (5 + k)) true) s).modField f fun x => { x with leftOut := true }).modSite f
      fun x => { x with ready := false }

/-- R211, R303, R312: a stack and a site of a named field that the image does not name stay out of service until reset. -/
def State.unnamed (s : State) (b : Base) : State :=
  let s1 := ((allFin 24).filter fun k => !bit b.dies k.val).foldl (fun t k => t.setSink (fieldOfStack k) (niOfStack k) true) s
  ((allFin 8).filter fun n => !bit b.sites n.val).foldl (fun t n => t.setSink n 16 true) s1

/-- R12, R193, R304: links held out of service. -/
def State.holdLinks (b : Base) (s : State) (k : Fin 10) : State :=
  let m := b.lath[k.val]?.getD 0
  if m = 0 then s
  else s.modLath k fun x => ({ x with inService := x.inService &&& ~~~m, spare := x.spare &&& ~~~m } : LathState).judge k

def State.applyBase (s : State) (i : Image) : State :=
  let b := parseBase i
  let held := (allFin 40).countP fun a => s.arrays[a].st = 0 && !b.keeps a
  let ignored := (allFin 40).countP fun a => bit b.arrays a.val && (s.arrays[a].st = 2 || s.arrays[a].st = 3)
  let s1 := (allFin 40).foldl (State.holdArray b) s
  let s2 := ((allFin 8).foldl (State.leaveOut b) s1).unnamed b
  let s3 := (allFin 10).foldl (State.holdLinks b) s2
  let s4 := s3.modNet fun n => { n with
    tableValid := true, stencils := b.stencils, tints := Vector.ofFn fun t => b.tints[t.val]?.getD 0 }
  let s5 := s4.modCoh fun c => { c with tableValid := true, homeMap := b.homes, owner := b.owner, valid := b.valid }
  let s6 := s5.modImg fun g => { g with
    loaded := true, baseId := i.header.imageId, baseSvn := i.header.svn
    baseDigest := Config.sha384 s.img.staging, fieldMask := b.fields
    stackMask := b.dies, siteMask := b.sites, h := BitVec.ofNat 8 b.h, x := BitVec.ofNat 5 b.x
    held := BitVec.ofNat 6 held, ignored := BitVec.ofNat 6 ignored }
  let s7 := if s.img.commitSvn then s6.modFuse fun f => { f with svnMin := if f.svnMin.toNat < i.header.svn.toNat then i.header.svn else f.svnMin } else s6
  s7.imageDone.readyFrom s

/-- BASE_IMAGE_APPLY, R302 to R305, R312, R400. -/
def execBaseImageApply (s : State) : Host.Outcome State Fault Refusal :=
  .next (
    if s.img.status ≠ 4 ∨ s.img.kind ≠ 1 then s
    else match s.checkImage with
      | .error e => s.imageRefused e
      | .ok i => s.applyBase i)

/-! ## Applying a create image, R314 -/

/-- R65: an array newly assigned to a panel. -/
def ArrayState.assign (x : ArrayState) (p : PanelId) (logical : Nat) (mode : Bool) : ArrayState :=
  { x with
    panel := some p, logical := BitVec.ofNat 6 logical, mode := mode
    cube := { x.cube with
      halted := false, numeric := 0, pass := 0, passes := 0, stat := Vector.replicate 2 {}, ops := [], drainQ := [], merge := [],
      acc := Vector.replicate 4 {} } }

def grantOf (g : GrantEntry) : Grant :=
  { base := g.base, length := g.length, write := g.write, pool := g.kind = 0
    region := if g.kind = 1 then some (asFin 32 g.region) else none }

/-- R324: the key ranges of a sealed panel. -/
def Image.keyRanges (i : Image) (p : PanelId) (keys : BitVec 512) : List KeyRange :=
  if (parsePanel i).sealed_ then
    i.hbmGrants.map fun g => { base := g.base, length := g.length, panel := some p, region := none, keys := keys }
  else []

/-- R380: the twin binding of a create image. -/
def State.makeTwin (s : State) (i : Image) (p : PanelId) : State :=
  match bodyOf i.sections 0x14 with
  | none => s
  | some b =>
    let x := parseTwin b
    (s.modBind x.binding fun _ =>
      { valid := true, role := BitVec.ofNat 2 x.role, auto := x.auto, port := x.port, alt := x.alt, panel := p, tint := x.tint
        state := if x.role = 0 then 1 else 2, ranges := x.ranges, windows := x.windows }).modPanel p
      fun y => { y with twin := some x.binding }

/-- R309: a binding made, whose BIND is yet to be sent. -/
def State.addBind (p : PanelId) (s : State) (e : BindEntry) : State :=
  (s.modSite e.site fun x => { x with bindings := x.bindings ++
    [{ tag := e.tag, panel := p, slot := e.slot, target := e.target, tint := e.tint, regs := e.regs, devmem := e.devmem, phase := .new }] }).modImg
    fun i => { i with newBinds := i.newBinds ++ [(e.site, e.tag)] }

def State.applyCreate (s : State) (i : Image) (p : PanelId) : State :=
  let x := parsePanel i
  let keys := freshKeys s.draws
  let s1 := ((List.range x.named.length).zip x.named).foldl (fun t y =>
    t.modArray (asFin 40 y.2) fun a => a.assign p y.1 (bit x.modes y.1)) s
  let s2 := s1.modPanel p fun _ =>
    { state := 1, sealed_ := x.sealed_, port := x.port, arrays := x.named.map fun a => some (asFin 40 a), modes := x.modes
      grants := i.grantEntries.map grantOf, ranges := i.cohEntries, keys := if x.sealed_ then keys else 0
      createDigest := Config.sha384 s.img.staging }
  let s3 := (s2.modPnl fun y => { y with keyRanges := y.keyRanges ++ i.keyRanges p keys }).makeTwin i p
  let s4 := i.bindEntries.foldl (State.addBind p) (if x.sealed_ then s3.drawn else s3)
  s4.modImg fun g => { g with status := 5 }

/-- PANEL_CREATE_APPLY, R65, R314, R320, R324, R380: the claims are checked against the state as it is now. -/
def execPanelCreateApply (s : State) : Host.Outcome State Fault Refusal :=
  .next (
    let p : PanelId := asFin 40 s.img.panel.toNat
    if s.img.status ≠ 4 ∨ s.img.kind ≠ 2 then s
    else match (s.modPanel p fun x => { x with state := 0 }).checkImage with
      | .error e => s.imageRefused e
      | .ok i => s.applyCreate i p)

/-- PANEL_DESTROY_APPLY, R316, R322, R323. -/
def execPanelDestroyApply (s : State) : Host.Outcome State Fault Refusal :=
  .next (
    if s.img.status ≠ 4 ∨ s.img.kind ≠ 3 then s
    else match s.checkImage with
      | .error e => s.imageRefused e
      | .ok i => (s.enterDust (imagePanel i.header)).imageDone)

/-- PANEL_REBIND_APPLY, R317. -/
def execPanelRebindApply (s : State) : Host.Outcome State Fault Refusal :=
  .next (
    if s.img.status ≠ 4 ∨ s.img.kind ≠ 4 then s
    else match s.checkImage with
      | .error e => s.imageRefused e
      | .ok i =>
        let p := imagePanel i.header
        ((i.bindEntries.filter fun e => !s.keptBind p e).foldl (State.addBind p) s).modImg fun g => { g with status := 5 })

/-! ## The binding phase, R267, R311, R314, R317 -/

/-- The slots of a panel as its BINDINGS section gives them. -/
def Image.slots (i : Image) : Vector (Option (SiteId × Byte)) 8 :=
  Vector.ofFn fun k => (i.bindEntries.find? fun e => e.slot = k).map fun e => (e.site, e.tag)

/-- R314 act 4, R320, R326: the VF is bound, and the panel is Live or awaits admission. -/
def State.finishCreate (s : State) (i : Image) (p : PanelId) : State :=
  let x := parsePanel i
  let v : VfId := asFin 40 (x.vf - 1)
  let s1 := s.modPanel p fun y => { y with
    state := if x.sealed_ then 2 else 3, vf := some v, slots := i.slots, fill := x.sealed_ }
  (s1.modVf x.port v fun y => { y with bound := some p, tint := x.tint }).modImg fun g =>
    { g with panelIds := vset g.panelIds p i.header.imageId }

/-- R317: the bindings that a rebind removes: those to a dead site go without a message. -/
def State.finishRebind (s : State) (i : Image) (p : PanelId) : State :=
  let gone := ((allFin 8).filterMap fun k => s.pnl.panels[p].slots[k]).filter fun o =>
    !(i.bindEntries.any fun e => e.site = o.1 && e.tag = o.2)
  let dead := gone.filter fun o => !s.sites[o.1].inService
  let s1 := dead.foldl (fun t o => t.modSite o.1 fun x => { x with bindings := x.bindings.filter fun b => b.tag ≠ o.2 }) s
  (s1.modPanel p fun x => { x with slots := i.slots, slotHold := 0, rebindDigest := Config.sha384 s.img.staging }).modImg fun g =>
    { g with
      oldBinds := g.oldBinds ++ gone.filter fun o => s.sites[o.1].inService
      panelIds := vset g.panelIds p i.header.imageId }

/-- A binding by its site and tag. -/
def State.bindingAt (s : State) (n : SiteId) (tag : Byte) : Option Binding := s.sites[n].bindings.find? fun b => b.tag = tag

def State.modBinding (s : State) (n : SiteId) (tag : Byte) (f : Binding → Binding) : State :=
  s.modSite n fun x => { x with bindings := x.bindings.map fun b => if b.tag = tag then f b else b }

/-- A binding removed from its site and from the loader's lists. -/
def State.dropBinding (s : State) (n : SiteId) (tag : Byte) : State :=
  (s.modSite n fun x => { x with bindings := x.bindings.filter fun b => b.tag ≠ tag }).modImg fun i => { i with
    newBinds := i.newBinds.filter fun y => y ≠ (n, tag), oldBinds := i.oldBinds.filter fun y => y ≠ (n, tag) }

/-- R267, R311: a load that fails in its binding phase is refused once every binding of it has been undone. -/
def State.settleLoad (s : State) : State :=
  if s.img.status = 5 ∧ s.img.failing ∧ s.img.newBinds = [] then s.imageRefused { error := 0x15, sect := 0x13 } else s

/-- A load begins to fail: bindings whose BIND has not been sent, or whose site has died, go at once. -/
def State.failLoad (s : State) : State :=
  let gone := s.img.newBinds.filter fun y =>
    !s.sites[y.1].inService || (s.bindingAt y.1 y.2).all fun b => b.phase = .new
  (gone.foldl (fun t y => t.dropBinding y.1 y.2) (s.modImg fun i => { i with failing := true })).settleLoad

/-- IMAGE_BINDING_DONE, R267, R311, R313, R314, R317, R320, R326. -/
def execImageBindingDone (s : State) : Host.Outcome State Fault Refusal :=
  .next (
    let i := s.img
    if i.status ≠ 5 ∨ i.failing then s
    else if i.newBinds.any fun y => !s.sites[y.1].inService then s.failLoad
    else if i.newBinds.any fun y => (s.bindingAt y.1 y.2).all fun b => b.phase ≠ .bound then s
    else match parseImage i.staging i.length.toNat with
      | .error _ => s
      | .ok im =>
        let p := imagePanel im.header
        ((if im.header.kind = 2 then s.finishCreate im p else s.finishRebind im p).modImg fun g => { g with newBinds := [] }).imageDone)

/-- BIND, R241, R256, R267. -/
def execBind (n : SiteId) (tag : Byte) (s : State) : Host.Outcome State Fault Refusal :=
  .next (
    match s.bindingAt n tag with
    | none => s
    | some b =>
      if b.phase ≠ .new ∨ s.sites[n].state ≠ 3 ∨ s.img.failing then s
      else
        let payload := tag.toNat + b.slot.val * 2 ^ 8 + b.target.toNat * 2 ^ 12 + flag s.pnl.panels[b.panel].sealed_ 16
        (s.modBinding n tag fun y => { y with phase := .sent }).tellSite n 5 payload)

/-- R256: the credit of a newly bound engine's endpoints starts from zero. -/
def State.clearCredit (s : State) (n : SiteId) (b : Binding) : State :=
  if b.target.toNat < 8 then s.modSite n fun x => x.zeroCredit b.target.toNat else s

/-- BOUND, R241, R256, R267. -/
def execBound (n : SiteId) (tag : Byte) (s : State) : Host.Outcome State Fault Refusal :=
  .next (
    match s.bindingAt n tag with
    | none => s.noteSite n 0
    | some b =>
      if b.phase ≠ .sent ∨ !s.sites[n].inService then s.noteSite n 0
      else (s.modBinding n tag fun y => { y with phase := .bound }).clearCredit n b)

/-- BOUND_TIMEOUT, R267, R311, R313. -/
def execBoundTimeout (n : SiteId) (tag : Byte) (s : State) : Host.Outcome State Fault Refusal :=
  .next (
    match s.bindingAt n tag with
    | none => s
    | some b =>
      if b.phase ≠ .sent ∨ (n, tag) ∉ s.img.newBinds ∨ s.img.status ≠ 5 then s
      else (s.dropBinding n tag).failLoad)

/-- R267, R317, R322: whether the UNBIND of a binding is due. -/
def State.unbindDue (s : State) (n : SiteId) (b : Binding) : Bool :=
  b.phase = .bound && s.sites[n].state = 3 &&
    (s.dustAt b.panel 2 || (s.img.failing && decide ((n, b.tag) ∈ s.img.newBinds)) || decide ((n, b.tag) ∈ s.img.oldBinds))

/-- UNBIND, R241, R256, R267. -/
def execUnbind (n : SiteId) (tag : Byte) (s : State) : Host.Outcome State Fault Refusal :=
  .next (
    match s.bindingAt n tag with
    | none => s
    | some b =>
      if s.unbindDue n b then
        ((s.modBinding n tag fun y => { y with phase := .unbinding }).clearCredit n b).tellSite n 7 tag.toNat
      else s)

/-- CLEARED, R241, R267. -/
def execCleared (n : SiteId) (tag : Byte) (s : State) : Host.Outcome State Fault Refusal :=
  .next (
    match s.bindingAt n tag with
    | none => s.noteSite n 0
    | some b => if b.phase = .unbinding then (s.dropBinding n tag).settleLoad else s.noteSite n 0)

/-- CLEARED_TIMEOUT, R267, R268. -/
def execClearedTimeout (n : SiteId) (tag : Byte) (s : State) : Host.Outcome State Fault Refusal :=
  .next (
    match s.bindingAt n tag with
    | none => s
    | some b => if b.phase = .unbinding then ((s.killSite n 0xA).dropBinding n tag).settleLoad else s)

end Sys2Proof.Machine
end

