-- ==== Sys2Proof/Machine/Resets.lean ====
section
/-!
DEFINITION. Resets of functions and ports, TDISP and SPDM (chapter Host ports, R273, R292 to R295, R425; chapter Panels
and trust, R328, R329; chapter Bring-up, clocks and pins, R395).
-/

namespace Sys2Proof.Machine

/-! ## Resets of a VF, R294, R295 -/

/-- R401: a configuration request as a port serves it: not while its link is down, and with Request Retry Status until the
hub has booted. -/
def State.byConfig (s : State) (port : PortId) (f : State → State) : State :=
  if !s.ports[port].l0 then s else if s.stage ≠ 4 then s.emit (.retryStatus port) else f s

/-- Whether a VF exists, and its port answers configuration requests. -/
def State.vfThere (s : State) (port : PortId) (v : VfId) : Bool :=
  let x := s.ports[port]
  x.l0 && x.vfEnable && decide (v.val < x.numVfs.toNat)

/-- R294: a reset of a VF starts; one that is running, or a panel in dust sheet, adds nothing (R295, R323). -/
def State.startReset (s : State) (port : PortId) (v : VfId) : State :=
  if (s.vf port v).resetting || s.vfDust port v then s
  else (s.quiesce port v).modVf port v fun x => { x with resetting := true }

/-- A VF's configuration registers at their reset values, and its interface unlocked (R293). -/
def VfState.resetConfig (x : VfState) : VfState := { x with bme := false, d3hot := false, tdi := 0, lockSession := none, msixEnable := false, msixMask := false }

/-- An FLR of a VF. -/
def State.flrVf (s : State) (port : PortId) (v : VfId) : State :=
  if s.vfThere port v then (s.startReset port v).modVf port v VfState.resetConfig else s

/-- FLR, R293 to R295. -/
def execFlr (port : PortId) (v : VfId) (s : State) : Host.Outcome State Fault Refusal :=
  .next (s.byConfig port fun s => s.flrVf port v)

/-- R293: a change that a locked or running interface may not see moves it to ERROR: its panel is halted as in R294, and a
sealed one awaiting admission or live is in Interface error (R320). -/
def State.tdiError (s : State) (port : PortId) (v : VfId) : State :=
  let x := s.vf port v
  if !s.vfThere port v || !(x.tdi = 1 || x.tdi = 2) then s
  else
    let s1 := (s.quiesce port v).modVf port v fun y => { y with tdi := 3 }
    match x.bound with
    | some p =>
      let y := s.pnl.panels[p]
      if y.sealed_ && (y.state = 2 || y.state = 3) then s1.modPanel p fun z => { z with state := 4 } else s1
    | none => s1

/-- FUNCTION_RESET_COMPLETE, R294, R322. -/
def execFunctionResetComplete (port : PortId) (v : VfId) (s : State) : Host.Outcome State Fault Refusal :=
  .next (
    let x := s.vf port v
    if !x.resetting || !(x.bound.all s.panelStill) then s
    else
      let s1 := match x.bound with
        | some p => s.endHalted p
        | none => s
      let s2 := s1.modVf port v fun y => { y.resetPage with resetting := false }
      let s3 := if s.ports[port].l0 then s2.emit (.frs port (some v)) else s2
      match x.bound with
      | some p => s3.enterDust p
      | none => s3)

/-- A configuration write to a VF: none where it does not exist, and Request Retry Status while it is reset. -/
def State.vfConfig (s : State) (port : PortId) (v : VfId) (f : State → State) : State :=
  if !s.vfThere port v then s.unsupported port
  else if (s.vf port v).resetting then s.emit (.retryStatus port)
  else f s

/-- Bus Master Enable of a VF written 0. -/
def State.clearBme (s : State) (port : PortId) (v : VfId) : State :=
  if !(s.vf port v).bme then s
  else ((s.tdiError port v).startReset port v).modVf port v fun x => { x with bme := false }

/-- BME_CLEAR, R293, R295, R425. -/
def execBmeClear (port : PortId) (v : VfId) (s : State) : Host.Outcome State Fault Refusal :=
  .next (s.byConfig port fun s => s.vfConfig port v fun s => s.clearBme port v)

/-- Resets of every VF of a port. -/
def State.resetAll (s : State) (port : PortId) : State := (allFin 40).foldl (fun t v => t.startReset port v) s

/-- VF Enable written 0. -/
def State.clearVfEnable (s : State) (port : PortId) : State :=
  if !s.ports[port].vfEnable then s else (s.resetAll port).modPort port fun x => { x with vfEnable := false }

/-- VF_ENABLE_CLEAR, R295. -/
def execVfEnableClear (port : PortId) (s : State) : Host.Outcome State Fault Refusal :=
  .next (s.byConfig port fun s => s.clearVfEnable port)

/-- A VF put in D3hot. -/
def State.sleepVf (s : State) (port : PortId) (v : VfId) : State :=
  if (s.vf port v).d3hot then s else (s.startReset port v).modVf port v fun x => { x with d3hot := true }

/-- D3HOT_ENTRY, R295: PF0 in D3hot stops answering BAR0. -/
def execD3hotEntry (port : PortId) (vf : Option VfId) (s : State) : Host.Outcome State Fault Refusal :=
  .next (s.byConfig port fun s =>
    match vf with
    | none => s.modPort port fun x => { x with pf0D3hot := true }
    | some v => s.vfConfig port v fun s => s.sleepVf port v)

/-- PF0's configuration registers, and those of every VF, at their reset values. -/
def PortState.resetConfig (x : PortState) : PortState :=
  { x with
    intxDisable := false, cfg := {}, pf0D3hot := false, vfEnable := false, numVfs := 0, ide := [], session := none
    vfs := x.vfs.map VfState.resetConfig }

/-- An FLR of PF0. -/
def State.flrPf0 (s : State) (port : PortId) : State := (s.resetAll port).modPort port PortState.resetConfig

/-- PF0_FLR, R295. -/
def execPf0Flr (port : PortId) (s : State) : Host.Outcome State Fault Refusal :=
  .next (s.byConfig port fun s => s.flrPf0 port)

/-! ## Resets of a port, R279, R295, R395 -/

/-- A port whose link is down: every function is reset, its configuration space is at its reset values, its reads are
answered at once, and an image being read through it is refused (R311). -/
def State.portReset (s : State) (port : PortId) : State :=
  let s1 := (s.resetAll port).modPort port fun x => { x.resetConfig with
    l0 := false, slow := false, flit := false, rate := 0, width := 0, activeWidth := 0, pm := 0, intaSent := false
    frsSent := false, reads := [] }
  let s2 := if s.img.status = 1 ∧ s.img.port = port then (s1.noteHost port 3).imageRefused { error := 2 } else s1
  s2.readyFrom s

/-- HOT_RESET, R295. -/
def execHotReset (port : PortId) (s : State) : Host.Outcome State Fault Refusal :=
  .next (if s.ports[port].l0 then s.portReset port else s)

/-- LINK_DOWN, R279, R295. -/
def execLinkDown (port : PortId) (s : State) : Host.Outcome State Fault Refusal :=
  .next (if s.ports[port].l0 then s.portReset port else s)

/-- PERST_ASSERT, R295, R395. -/
def execPerstAssert (port : PortId) (s : State) : Host.Outcome State Fault Refusal :=
  .next (
    if !s.pins.perstN[port] then s
    else
      let s1 := s.modPins fun x => { x with perstN := vset x.perstN port false }
      if s.inReset then s1 else (s1.portReset port).modPort port fun x => { x with perst := true })

/-- PERST_RELEASE, R395, R401. -/
def execPerstRelease (port : PortId) (s : State) : Host.Outcome State Fault Refusal :=
  .next (
    if s.pins.perstN[port] then s
    else (s.modPins fun x => { x with perstN := vset x.perstN port true }).modPort port fun x => { x with perst := false })

/-! ## Configuration writes, R273, R425 -/

/-- NumVFs written, while VF Enable is 0; a larger value is taken as 40. -/
def State.writeNumVfs (s : State) (port : PortId) (value : BitVec 16) : State :=
  if s.ports[port].vfEnable then s else s.modPort port fun x => { x with numVfs := BitVec.ofNat 6 (min 40 value.toNat) }

/-- NUMVFS_WRITE, R273. -/
def execNumvfsWrite (port : PortId) (value : BitVec 16) (s : State) : Host.Outcome State Fault Refusal :=
  .next (s.byConfig port fun s => s.writeNumVfs port value)

/-- Bus Master Enable of a VF written 1: what waited for the bit goes on. -/
def State.setBme (s : State) (port : PortId) (v : VfId) : State :=
  if (s.vf port v).bme then s
  else
    let s1 := (s.tdiError port v).modVf port v fun y => { y with bme := true }
    let s2 := match (s.vf port v).bound with
      | some p => s1.releaseRecords p port v
      | none => s1
    s2.fetchVf port v

/-- BUS_MASTER_ENABLE_SET, R174, R283, R293, R425. -/
def execBusMasterEnableSet (port : PortId) (v : VfId) (s : State) : Host.Outcome State Fault Refusal :=
  .next (s.byConfig port fun s => s.vfConfig port v fun s => s.setBme port v)

/-! ## TDISP, R293, R328 -/

/-- TDI_ERROR, R293, R320. -/
def execTdiError (port : PortId) (v : VfId) (_event : TdiEvent) (s : State) : Host.Outcome State Fault Refusal :=
  .next (s.byConfig port fun s => s.tdiError port v)

/-- STOP_INTERFACE, R293, R322. -/
def execStopInterface (port : PortId) (v : VfId) (s : State) : Host.Outcome State Fault Refusal :=
  .next (
    if !s.vfThere port v then s
    else
      let s1 := s.modVf port v fun y => { y with tdi := 0, lockSession := none }
      match (s.vf port v).bound with
      | some p => s1.enterDust p
      | none => s1)

/-- LOCK_INTERFACE, R293, R328. -/
def execLockInterface (port : PortId) (v : VfId) (s : State) : Host.Outcome State Fault Refusal :=
  .next (
    let x := s.vf port v
    if !s.vfThere port v then s
    else if s.ports[port].session.isNone || x.tdi ≠ 0 || x.bound.isNone || x.resetting || s.vfDust port v then s.emit (.spdmError port)
    else (s.modVf port v fun y => { y with tdi := 1, lockSession := s.ports[port].session }).emit (.spdmAnswer port []))

/-- PANEL_KEY_SET, R328. -/
def execPanelKeySet (port : PortId) (v : VfId) (key : BitVec 384) (s : State) : Host.Outcome State Fault Refusal :=
  .next (
    let x := s.vf port v
    if !s.vfThere port v then s
    else if s.ports[port].session.isNone || x.lockSession ≠ s.ports[port].session || x.tdi ≠ 1 then s.emit (.spdmError port)
    else match x.bound with
      | none => s.emit (.spdmError port)
      | some p =>
        if (s.pnl.panels[p].authKey).isSome || !s.pnl.panels[p].sealed_ then s.emit (.spdmError port)
        else (s.modPanel p fun y => { y with authKey := some key, counter := 0 }).emit (.spdmAnswer port []))

/-- START_INTERFACE, R320, R326, R328. -/
def execStartInterface (port : PortId) (v : VfId) (s : State) : Host.Outcome State Fault Refusal :=
  .next (
    let x := s.vf port v
    let ready := x.bound.any fun p => (s.pnl.panels[p].authKey).isSome && !s.pnl.panels[p].fill
    if !s.vfThere port v then s
    else if s.ports[port].session.isNone || x.lockSession ≠ s.ports[port].session || x.tdi ≠ 1 || !ready then s.emit (.spdmError port)
    else
      let s1 := s.modVf port v fun y => { y with tdi := 2 }
      let s2 := match x.bound with
        | some p => if s.pnl.panels[p].state = 2 then s1.modPanel p fun y => { y with state := 3 } else s1
        | none => s1
      (s2.emit (.spdmAnswer port [])).fetchVf port v)

/-! ## SPDM, R292, R329 -/

/-- GLB_INVENTORY, R20. -/
def State.glbInventory (s : State) : Word :=
  let n := fun (st : BitVec 3) => (allFin 40).countP fun a => s.arrays[a].st = st
  BitVec.ofNat 32 (s.fuse.sitePop.toNat * 2 ^ 24 + n 2 * 2 ^ 16 + flag s.ras.belowGrade 14 + n 1 * 2 ^ 8 +
    s.fuse.grade.toNat * 2 ^ 6 + n 0)

def digestBytes (b : List Byte) : List Byte := bytesOf 48 (Config.sha384 b).toNat

/-- The descriptor of a site, as bytes. -/
def SiteState.descBytes (x : SiteState) : List Byte := x.desc.toList.flatMap fun w => bytesOf 4 w.toNat

/-- R329: a measurement. -/
def State.measurement (s : State) (index : Nat) : Option (List Byte) :=
  if index = 1 then some (bytesOf 48 Config.firmwareMeasurement.toNat)
  else if index = 2 then some [s.lcs.state.setWidth 8, BitVec.ofNat 8 (flag s.pnl.debug 0)]
  else if index = 3 then some (bytesOf 48 s.img.baseDigest.toNat)
  else if index = 4 then some (bytesOf 4 s.glbInventory.toNat ++ [0xB0] ++ bytesOf 2 s.fuse.svnMin.toNat)
  else if 5 ≤ index ∧ index ≤ 12 then
    let x := s.sites[asFin 8 (index - 5)]
    some (if x.state = 0 ∨ x.state = 6 then List.replicate 48 0 else digestBytes x.descBytes)
  else if index = 13 then some (digestBytes (s.fuse.operatorEcdsa ++ s.fuse.operatorMlDsa))
  else none

def grantBytes (g : Grant) : List Byte :=
  bytesOf 8 g.base ++ bytesOf 8 g.length ++ [BitVec.ofNat 8 (flag g.write 0 + flag (!g.pool) 1), BitVec.ofNat 8 ((g.region.map Fin.val).getD 0)]

/-- R329: the device-specific part of an interface report, its items in the order of the rule. -/
def State.deviceReport (s : State) (p : PanelId) : List Byte :=
  let x := s.pnl.panels[p]
  [BitVec.ofNat 8 p.val] ++ bytesOf 8 s.img.panelIds[p].toNat ++ bytesOf 48 x.createDigest.toNat ++ bytesOf 48 x.rebindDigest.toNat ++
    ((x.arrays.filterMap id).map fun a => BitVec.ofNat 8 a.val) ++ x.grants.flatMap grantBytes ++
    (((allFin 8).filterMap fun k => x.slots[k]).flatMap fun o =>
      let d := s.sites[o.1].desc
      bytesOf 4 d[1].toNat ++ bytesOf 1 (fld d[2].toNat 24 8) ++ bytesOf 4 d[6].toNat ++ bytesOf 4 d[7].toNat)

/-- R293: a range of an interface report: its first 4 KiB page, its pages, its attributes and its number. -/
def rangeBytes (base : DWord) (pages attr id : Nat) : List Byte :=
  bytesOf 8 ((base + Config.reportingOffset).toNat / 4096) ++ bytesOf 4 pages ++ bytesOf 2 attr ++ bytesOf 2 id

/-- R293, R329: an interface report: the VF page, which holds the MSI-X table and the pending bit array, and BAR2 (the layout
is TDISP's, PRESUMED, assumption log 90). -/
def State.interfaceReport (s : State) (port : PortId) (v : VfId) (p : PanelId) : List Byte :=
  let x := s.ports[port].cfg
  let own := s.deviceReport p
  Config.reportHead ++ bytesOf 4 2 ++ rangeBytes (x.vfBar0 + BitVec.ofNat 64 (65536 * v.val)) 16 3 0 ++
    rangeBytes (x.vfBar2 + BitVec.ofNat 64 (2 ^ 32 * v.val)) (2 ^ 20) 0 2 ++ bytesOf 4 own.length ++ own

/-- What an SPDM request is answered with; none for an error. -/
def State.spdmReply (s : State) (port : PortId) : SpdmReq → Option (List Byte)
  | .getVersion => some [0x12, 0x13]
  | .getCertificate slot => if slot.val < 2 then some (Config.certificate slot.val) else none
  | .getMeasurement index => s.measurement index.toNat
  | .tdispVersion v => if s.vfThere port v then some [0x10] else none
  | .tdispCapabilities v => if s.vfThere port v then some Config.tdispCapabilities else none
  | .interfaceState v => if s.vfThere port v then some [(s.vf port v).tdi.setWidth 8] else none
  | .getInterfaceReport v =>
    if s.vfThere port v && (s.vf port v).tdi ≠ 0 then ((s.vf port v).bound).map (s.interfaceReport port v) else none
  | .bindP2p _ => none
  | .setMmioAttribute _ => none
  | .startSession _ _ => some []
  | .endSession id => if s.ports[port].session = some id then some [] else none
  | .panelDestroy panel counter mac => if s.ports[port].session.isSome then some [(s.destroyPanel panel counter mac (List.replicate 80 0)).1] else none

/-- SPDM_REQUEST, R292, R293, R329. -/
def execSpdmRequest (port : PortId) (req : SpdmReq) (s : State) : Host.Outcome State Fault Refusal :=
  .next (
    if !s.ports[port].l0 || s.stage ≠ 4 then s
    else match s.spdmReply port req with
      | none => s.emit (.spdmError port)
      | some bs =>
        let s1 := match req with
          | .startSession id _ => s.modPort port fun x => { x with session := some id }
          | .endSession _ => s.modPort port fun x => { x with session := none }
          | .panelDestroy panel counter mac => (s.destroyPanel panel counter mac (List.replicate 80 0)).2
          | _ => s
        s1.emit (.spdmAnswer port bs))

end Sys2Proof.Machine
end

