-- ==== Sys2Proof/Machine/Mailbox.lean ====
section
/-!
DEFINITION. The mailbox of critical commands, sealed weight bundles, commons regions, the debug window and the trace
control (chapter Panels and trust, R334 to R341).
-/

namespace Sys2Proof.Machine

/-! ## Running a mailbox command, R334, R335 -/

/-- R335: a command ends with a result; LIFE is set on both ports. -/
def State.mailEnd (s : State) (result : Byte) : State :=
  (s.modPnl fun x => { x with cmdState := if result = 0 then 3 else 4, result := result }).irq irqLife

/-- The command that the mailbox registers hold. -/
def State.mailCommand (s : State) : Critical :=
  let x := s.pnl
  { auth := x.cmdAuth.toNat, op := x.cmdOp.toNat, panel := x.cmdPanel, ctr := x.ctr, mac := x.mac
    args := x.args.toList.flatMap fun w => bytesOf 4 w.toNat }

/-- R334: argument word `i`, and the 64-bit quantity at words `i` and `i + 1`. -/
def State.arg (s : State) (i : Nat) : Word := (s.pnl.args.toList[i]?).getD 0
def State.argPair (s : State) (i : Nat) : Nat := (s.arg i).toNat + 2 ^ 32 * (s.arg (i + 1)).toNat
def State.argBytes (s : State) (i n : Nat) : List Byte := (List.range n).flatMap fun k => bytesOf 4 (s.arg (i + k)).toNat

/-- R334: whether every argument word but those named is zero. -/
def State.restZero (s : State) (used : Nat → Bool) : Bool := (List.range 20).all fun i => used i || s.arg i = 0

/-- R330 to R335: a command written with GO. `named` says whether an authority may give it, and `used` which argument
words it uses; `run` answers its result. One that finds the mailbox at work is discarded and logged. -/
def State.mailRun (s : State) (op : Byte) (named : Nat → Bool) (used : Nat → Bool) (run : State → Byte × State) : State :=
  if s.pnl.cmdState = 1 ∨ s.pnl.cmdState = 2 then s.note
  else
    let s1 := s.modPnl fun x => { x with cmdOp := op }
    if s1.closed then s1.mailEnd 6
    else if !named s1.pnl.cmdAuth.toNat then s1.mailEnd 4
    else match s1.accept s1.mailCommand with
      | .error r => s1.mailEnd r
      | .ok s2 =>
        if !s2.restZero used then s2.mailEnd 5
        else
          let r := run s2
          r.2.mailEnd r.1

def isVendor (auth : Nat) : Bool := auth = 1
def isOperator (auth : Nat) : Bool := auth = 2
def isPanel (auth : Nat) : Bool := auth = 3

/-- R289, R334: a host read of a mailbox command through PF0 of a port: its bytes, or none where it fails. -/
def State.mailRead (s : State) (port : PortId) (addr len : Nat) (r : HostRead) : Option (List Byte) × State :=
  let n := s.ports[port].nextRead
  let s1 := (s.emit (.hostRead port none n (BitVec.ofNat 64 addr) len)).modPort port fun x => { x with nextRead := n + 1 }
  if !s.ports[port].l0 then (none, s.noteHost port 3)
  else match r with
    | .ok bs => if bs.length = len then (some bs, s1) else (none, s1.noteHost port 3)
    | r => (none, s1.noteRead port r)

/-! ## Keys, R330, R334 -/

/-- The bytes of an ASCII string. -/
def asciiBytes (t : String) : List Byte := t.toList.map fun c => BitVec.ofNat 8 c.toNat

/-- R334: the key under which a new operator key is wrapped. -/
def operatorWrapKey (current : BitVec 384) : BitVec 256 :=
  (Config.hkdf [] (bytesOf 48 current.toNat) (asciiBytes "UH9624 operator key")).setWidth 256

/-- R333: the key of the authority that checked an OPKEY_ROTATE. -/
def State.rotateKey (s : State) : BitVec 384 :=
  if s.pnl.cmdAuth = 2 then s.fuse.operatorKey.getD s.fuse.vendorKey else s.fuse.vendorKey

/-- R334: the key block's keys are installed. -/
def State.installKeys (s : State) (bs : List Byte) : Byte × State :=
  if Config.sha384 bs ≠ BitVec.ofNat 384 (natOf (s.argBytes 3 12)) then (0x0A, s)
  else match Config.keyUnwrap (operatorWrapKey s.rotateKey) ((bs.drop 2080).take 56) with
    | none => (0x0A, s)
    | some k => (0, s.modFuse fun f =>
        { f with operatorKey := some (BitVec.ofNat 384 (natOf k)), operatorEcdsa := bs.take 97, operatorMlDsa := (bs.drop 128).take 1952 })

/-- The command that OPKEY_ROTATE gives. -/
def State.opkeyRotate (s : State) (block : HostRead) : State :=
  s.mailRun 2 (fun a => isOperator a || (isVendor a && s.fuse.operatorKey.isNone)) (fun i => decide (i < 15)) fun t =>
    let len := fld (t.arg 2).toNat 0 12
    if len ≠ 2136 then (5, t)
    else
      let r := t.mailRead (asFin 2 (fld (t.arg 2).toNat 31 1)) (t.argPair 0) len block
      match r.1 with
      | none => (8, r.2)
      | some bs => r.2.installKeys bs

/-- OPKEY_ROTATE, R330, R333, R334. -/
def execOpkeyRotate (block : HostRead) (s : State) : Host.Outcome State Fault Refusal :=
  .next (s.byPf0 fun s => s.opkeyRotate block)

/-- The command that PANEL_AUTH_SET gives. -/
def State.panelAuthSet (s : State) : State :=
  s.mailRun 3 isOperator (fun i => decide (i < 12)) fun t =>
    match panelNamed t.pnl.cmdPanel with
    | none => (7, t)
    | some p =>
      let x := t.pnl.panels[p]
      if x.state = 0 ∨ x.state = 1 ∨ x.state = 5 then (7, t)
      else if x.sealed_ then (6, t)
      else (0, t.modPanel p fun y => { y with authKey := some (BitVec.ofNat 384 (natOf (t.argBytes 0 12))), counter := 0 })

/-- PANEL_AUTH_SET, R330, R334. -/
def execPanelAuthSet (s : State) : Host.Outcome State Fault Refusal :=
  .next (s.byPf0 fun s => s.panelAuthSet)

/-- The command that PANEL_DESTROY gives. -/
def State.panelDestroy (s : State) : State :=
  s.mailRun 4 isPanel (fun _ => false) fun t => (0, t.enterDust (asFin 40 t.pnl.cmdPanel.toNat))

/-- PANEL_DESTROY, R322, R334. -/
def execPanelDestroy (s : State) : Host.Outcome State Fault Refusal :=
  .next (s.byPf0 fun s => s.panelDestroy)

/-- A sealed panel in states 1 to 5 (PNL_SECURITY.SEALED). -/
def State.sealedPanels (s : State) : Nat := (allFin 40).countP fun p => s.pnl.panels[p].sealed_ && s.pnl.panels[p].state ≠ 0

/-- The command that DEBUG_ENABLE gives. -/
def State.debugEnable (s : State) : State :=
  s.mailRun 8 isVendor (fun i => i = 0) fun t =>
    let opens := bit (t.arg 0) 0
    if (t.lcs.state ≠ lcsTestUnlocked ∧ t.lcs.state ≠ lcsPersonalized) ∨ t.lcs.target = some lcsFielded ∨
        (opens ∧ 0 < t.sealedPanels) then (6, t)
    else (0, t.modPnl fun x => { x with debug := opens })

/-- DEBUG_ENABLE, R334, R358. -/
def execDebugEnable (s : State) : Host.Outcome State Fault Refusal :=
  .next (s.byPf0 fun s => s.debugEnable)

/-- The write that LIFE_CYCLE_MAILBOX_REQUEST makes. -/
def State.lifeCycleRequest (s : State) : State :=
  if s.pnl.cmdState = 1 ∨ s.pnl.cmdState = 2 then s.note
  else (s.modPnl fun x => { x with cmdOp := 0x0A }).mailEnd 4

/-- LIFE_CYCLE_MAILBOX_REQUEST, R334, R353. -/
def execLifeCycleMailboxRequest (s : State) : Host.Outcome State Fault Refusal :=
  .next (s.byPf0 fun s => s.lifeCycleRequest)

/-- The fields of PNL_CMD_OP as a write leaves them. -/
def State.writeCmdOp (s : State) (value : Word) : State :=
  s.modPnl fun x => { x with cmdPanel := slice value 23 16, cmdAuth := slice value 9 8, cmdOp := slice value 7 0 }

/-- The write that UNDEFINED_MAILBOX_OP makes. -/
def State.undefinedOp (s : State) (value : Word) : State :=
  let op := fld value.toNat 0 8
  if !bit value 31 || (2 ≤ op && op ≤ 0x0A) then s
  else if s.pnl.cmdState = 1 ∨ s.pnl.cmdState = 2 then s.note
  else (s.writeCmdOp value).mailEnd 3

/-- UNDEFINED_MAILBOX_OP, R335: a write of PNL_CMD_OP with GO whose OP names no command of the mailbox. -/
def execUndefinedMailboxOp (value : Word) (s : State) : Host.Outcome State Fault Refusal :=
  .next (s.byPf0 fun s => s.undefinedOp value)

/-! ## Writes into a panel's grant, R336, R338 -/

/-- Whether a range lies in one read-and-write pool grant of a panel. -/
def State.inOwnGrant (s : State) (p : PanelId) (base length : Nat) : Bool :=
  s.pnl.panels[p].grants.any fun g => g.pool && g.write && decide (g.base ≤ base ∧ base + length ≤ g.base + g.length)

/-- Bytes as whole code words. -/
def codeWords (bs : List Byte) : List CodeWord :=
  (List.range (bs.length / 64)).map fun i => { data := BitVec.ofNat 512 (natOf ((bs.drop (64 * i)).take 64)), mark := false }

/-- R424: the bundle engine, for a panel or for none. -/
def bundleAgent (p : Option PanelId) (pa : Nat) : Agent := { kind := 11, id := 0, panel := p, field := paField (BitVec.ofNat 52 pa) }

def State.storeWords (s : State) (g : Agent) (base : Nat) (ws : List CodeWord) : State := (s.writeCodes g (BitVec.ofNat 52 base) ws).2

/-- Code words of zeros, and of the stored poison mark. -/
def zeroWords (length : Nat) : List CodeWord := List.replicate (length / 64) { data := 0, mark := false }
def poisonWords (length : Nat) : List CodeWord := List.replicate (length / 64) poisonWord

/-- The command that PANEL_WRITE gives. -/
def State.panelWrite (s : State) (data : HostRead) : State :=
  s.mailRun 9 isPanel (fun i => decide (i < 17)) fun t =>
    let p : PanelId := asFin 40 t.pnl.cmdPanel.toNat
    let port : PortId := asFin 2 (fld (t.arg 2).toNat 31 1)
    let len := fld (t.arg 2).toNat 0 25
    let dest := t.argPair 3
    if len % 64 ≠ 0 ∨ 16777216 < len ∨ dest % 64 ≠ 0 ∨ !t.inOwnGrant p dest len then (5, t)
    else
      let r := t.mailRead port (t.argPair 0) len data
      match r.1 with
      | none => (8, r.2)
      | some bs =>
        if Config.sha384 bs ≠ BitVec.ofNat 384 (natOf (t.argBytes 5 12)) then (0x0A, r.2)
        else (0, r.2.storeWords { kind := 4, id := BitVec.ofNat 16 port.val, panel := some p, field := fieldOfPort port } dest (codeWords bs))

/-- PANEL_WRITE, R338. -/
def execPanelWrite (data : HostRead) (s : State) : Host.Outcome State Fault Refusal :=
  .next (s.byPf0 fun s => s.panelWrite data)

/-! ## Sealed weight bundles, R336 -/

/-- A bundle taken apart. -/
structure Bundle where
  id : DWord
  nonce : List Byte
  peer : List Byte
  members : List (List Byte × List Byte)
  aad : List Byte
  body : List Byte
  tag : List Byte
  deriving DecidableEq, Repr

/-- R336: where a bundle's body starts. -/
def bodyOffset (members : Nat) : Nat := (0xC0 + 80 * members + 63) / 64 * 64

/-- R336: the layout of a bundle of which `length` bytes were named. -/
def parseBundle (bs : List Byte) (length : Nat) : Except Byte Bundle :=
  let n := natOf ((bs.drop 6).take 1)
  let len := natOf ((bs.drop 0x10).take 8)
  let off := bodyOffset n
  let zero := fun (i k : Nat) => ((bs.drop i).take k).all fun b => b = 0
  if natOf (bs.take 4) ≠ 0x55485742 ∨ natOf ((bs.drop 4).take 2) ≠ 1 ∨ n < 1 ∨ 64 < n ∨ len % 64 ≠ 0 ∨ len < 64 ∨
      !(zero 7 1 && zero 0x24 28 && zero (0x40 + 97) 31) then .error 0x0A
  else if length ≠ off + len + 64 then .error 5
  else .ok
    { id := BitVec.ofNat 64 (natOf ((bs.drop 8).take 8)), nonce := (bs.drop 0x18).take 12, peer := (bs.drop 0x40).take 97
      members := (List.range n).map fun i => ((bs.drop (0xC0 + 80 * i)).take 32, (bs.drop (0xC0 + 80 * i + 32)).take 40)
      aad := bs.take off, body := (bs.drop off).take len, tag := (bs.drop (off + len)).take 16 }

/-- R336, acts 2 to 4: the content key that a member entry carries for this unit. -/
def State.contentKey (s : State) (b : Bundle) (wrapped : List Byte) : Option (BitVec 256) :=
  match s.fuse.bundleKey with
  | none => none
  | some key =>
    let shared := Config.ecdhX key b.peer
    let kek := Config.hkdf (bytesOf 8 b.id.toNat) (bytesOf 48 shared.toNat) (asciiBytes "UH9624 bundle" ++ bytesOf 32 s.fuse.identity.toNat)
    (Config.keyUnwrap (kek.setWidth 256) wrapped).map fun k => BitVec.ofNat 256 (natOf k)

/-- The wrapped key of this unit's member entry. -/
def State.ownEntry (s : State) (b : Bundle) : Option (List Byte) :=
  (b.members.find? fun m => m.1 = bytesOf 32 s.fuse.identity.toNat).map (·.2)

/-- R336, act 5: the plaintext, or why there is none; `none` where the tag fails. -/
def State.openBundle (s : State) (b : Bundle) : Except Byte (Option (List Byte)) :=
  match s.ownEntry b with
  | none => .error 9
  | some w =>
    match s.contentKey b w with
    | none => .error 0x0A
    | some k => .ok (Config.gcmOpen k b.nonce b.aad b.body b.tag)

/-- R336: a body opened into a panel's grant, or zeros where the tag failed. -/
def State.loadPanel (s : State) (p : PanelId) (dest : Nat) (b : Bundle) : Byte × State :=
  if dest % 64 ≠ 0 ∨ !s.inOwnGrant p dest b.body.length then (5, s)
  else match s.openBundle b with
    | .error r => (r, s)
    | .ok none => (0x0A, s.storeWords (bundleAgent (some p) dest) dest (zeroWords b.body.length))
    | .ok (some bs) => (0, s.storeWords (bundleAgent (some p) dest) dest (codeWords bs))

/-- Code words written to both copies of a region. -/
def State.putRegion (s : State) (n : Fin 32) (g : Nat → Agent) (ws : List CodeWord) : State :=
  let c := s.pnl.commons[n]
  let s1 := s.storeWords (g c.primary) c.primary ws
  if c.mirrored then s1.storeWords (g c.mirror) c.mirror ws else s1

def State.modCommons (s : State) (n : Fin 32) (f : CommonsState → CommonsState) : State :=
  s.modPnl fun x => { x with commons := vmod x.commons n f }

/-- R336, R337: a body opened into a commons region; where the tag failed, every word of the region gets the stored poison
mark and the region is Empty. -/
def State.loadRegion (s : State) (n : Fin 32) (b : Bundle) : Byte × State :=
  let c := s.pnl.commons[n]
  if c.state ≠ 2 ∧ c.state ≠ 4 then (0x0B, s)
  else if c.length < b.body.length then (5, s)
  else match s.openBundle b with
    | .error r => (r, s)
    | .ok none => (0x0A, (s.putRegion n (bundleAgent none) (poisonWords c.length)).modCommons n fun x => { x with state := 2 })
    | .ok (some bs) =>
      (0, (s.putRegion n (bundleAgent none) (codeWords bs)).modCommons n fun x => { x with state := 4, bundle := b.id })

/-- The command that BUNDLE_LOAD gives: under the operator for a commons region, and under a panel for its own grant. -/
def State.bundleLoad (s : State) (bundle : HostRead) : State :=
  let commons := bit (s.arg 4) 31
  s.mailRun 5 (if commons then isOperator else isPanel) (fun i => decide (i < 5) || (!commons && decide (i < 7))) fun t =>
    let len := t.argPair 2
    let r := t.mailRead (asFin 2 (fld (t.arg 4).toNat 8 1)) (t.argPair 0) len bundle
    match r.1 with
    | none => (8, r.2)
    | some bs =>
      match parseBundle bs len with
      | .error e => (e, r.2)
      | .ok b =>
        if commons then r.2.loadRegion (asFin 32 (fld (t.arg 4).toNat 0 5)) b
        else r.2.loadPanel (asFin 40 t.pnl.cmdPanel.toNat) (t.argPair 5) b

/-- BUNDLE_LOAD, R334, R336, R337. -/
def execBundleLoad (bundle : HostRead) (s : State) : Host.Outcome State Fault Refusal :=
  .next (s.byPf0 fun s => s.bundleLoad bundle)

/-! ## Commons regions, R337 -/

/-- Pool-portion grants of panels, and the copies of regions. -/
def State.claimed (s : State) : List PaRange :=
  ((allFin 40).flatMap fun q =>
    (s.pnl.panels[q].grants.filter fun g => g.pool).map fun g => ({ base := g.base, length := g.length } : PaRange)) ++
  (allFin 32).flatMap fun n =>
    let c := s.pnl.commons[n]
    if c.state = 0 then []
    else ({ base := c.primary, length := c.length } : PaRange) ::
      (if c.mirrored then [({ base := c.mirror, length := c.length } : PaRange)] else [])

/-- R153, R337: a copy of a region lies in the HBM near pool of one field, below its backed size. -/
def State.copyOk (s : State) (base length : Nat) : Bool :=
  s.poolPortion base length && paSpace (BitVec.ofNat 52 base) = 1

/-- R153, R337: a mirror lies in the near pool of another field than the primary. -/
def State.mirrorOk (s : State) (primary mirror length : Nat) : Bool :=
  s.copyOk mirror length && paField (BitVec.ofNat 52 mirror) ≠ paField (BitVec.ofNat 52 primary)

/-- R424: the dust engines, acting for no panel. -/
def dustEngine (pa : Nat) : Agent :=
  let f := paField (BitVec.ofNat 52 pa)
  { kind := 10, id := BitVec.ofNat 16 f.val, panel := none, field := f }

/-- A region defined: its keys, its key ranges, and the stored poison mark in every word of its copies. -/
def State.defineRegion (s : State) (n : Fin 32) (primary mirror length : Nat) : State :=
  let keys := freshKeys s.draws
  let both := mirror ≠ 0
  let entry := fun (base : Nat) => ({ base := base, length := length, panel := none, region := some n, keys := keys } : KeyRange)
  let s1 := s.drawn.modCommons n fun _ =>
    { state := 2, mirrored := both, primary := primary, mirror := mirror, length := length, keys := keys }
  let s2 := s1.modPnl fun x => { x with keyRanges := x.keyRanges ++ entry primary :: (if both then [entry mirror] else []) }
  s2.putRegion n dustEngine (poisonWords length)

/-- The command that COMMONS_DEFINE gives. -/
def State.commonsDefine (s : State) : State :=
  s.mailRun 6 isOperator (fun i => decide (i < 7)) fun t =>
    let n := (t.arg 0).toNat
    let primary := t.argPair 1
    let mirror := t.argPair 3
    let length := t.argPair 5
    let clash := t.claimed.any fun r => overlap primary length r.base r.length || (mirror ≠ 0 && overlap mirror length r.base r.length)
    if 32 ≤ n then (5, t)
    else if t.pnl.commons[asFin 32 n].state ≠ 0 then (0x0B, t)
    else if !t.copyOk primary length || (mirror ≠ 0 && !t.mirrorOk primary mirror length) || clash then (5, t)
    else if 256 < t.pnl.keyRanges.length + (if mirror = 0 then 1 else 2) then (0x0D, t)
    else (0, t.defineRegion (asFin 32 n) primary mirror length)

/-- COMMONS_DEFINE, R153, R324, R337. -/
def execCommonsDefine (s : State) : Host.Outcome State Fault Refusal :=
  .next (s.byPf0 fun s => s.commonsDefine)

/-- PNL_CM_STATUS_n.GRANTS: the panels that grant a region. -/
def State.regionGrants (s : State) (n : Fin 32) : Nat :=
  (allFin 40).countP fun p => s.pnl.panels[p].state ≠ 0 && s.pnl.panels[p].grants.any fun g => g.region = some n

/-- A region released: its key ranges and keys go, and both copies are zeroed without encryption. -/
def State.releaseRegion (s : State) (n : Fin 32) : State :=
  let s1 := s.modPnl fun x => { x with keyRanges := x.keyRanges.filter fun r => r.region ≠ some n }
  (s1.putRegion n dustEngine (zeroWords s.pnl.commons[n].length)).modCommons n fun _ => {}

/-- The command that COMMONS_RELEASE gives. -/
def State.commonsRelease (s : State) : State :=
  s.mailRun 7 isOperator (fun i => i = 0) fun t =>
    let n := (t.arg 0).toNat
    if 32 ≤ n then (5, t)
    else
      let c := t.pnl.commons[asFin 32 n]
      if (c.state ≠ 2 ∧ c.state ≠ 4) ∨ 0 < t.regionGrants (asFin 32 n) then (0x0B, t)
      else (0, t.releaseRegion (asFin 32 n))

/-- COMMONS_RELEASE, R337. -/
def execCommonsRelease (s : State) : Host.Outcome State Fault Refusal :=
  .next (s.byPf0 fun s => s.commonsRelease)

/-! ## The debug window, R340 -/

/-- PNL_DBG_STATUS.OWNER of a physical address: the panel whose pool grant holds it. -/
def State.ownerAt (s : State) (pa : Nat) : Option PanelId :=
  (allFin 40).find? fun p => s.pnl.panels[p].grants.any fun g => g.pool && decide (g.base ≤ pa ∧ pa < g.base + g.length)

/-- What PNL_DBG_LOC names. -/
inductive DbgLoc where
  | word (pa : BitVec 52)
  | store (a : ArrayId) (store core byte : Nat)
  | bad
  deriving DecidableEq, Repr

def dbgLoc (w : DWord) : DbgLoc :=
  let n := w.toNat
  if fld n 62 2 = 0 then
    let pa : BitVec 52 := BitVec.ofNat 52 (fld n 6 46 * 64)
    if paSpace pa < 4 then .word pa else .bad
  else if fld n 62 2 = 1 ∧ fld n 56 6 < 40 ∧ fld n 52 4 < 7 then
    .store (asFin 40 (fld n 56 6)) (fld n 52 4) (fld n 47 5) (fld n 6 41 * 64)
  else .bad

/-- What a debug read delivers. -/
structure DbgData where
  data : BitVec 512
  mark : Bool
  owner : Byte
  enciphered : Bool
  deriving DecidableEq, Repr

def debugAgent (pa : BitVec 52) : Agent := { kind := 12, id := 0, panel := none, field := paField pa }

/-- R340: a code word in a key range as it is stored, from the copy that the address names. -/
def State.debugStored (s : State) (pa : BitVec 52) : CodeWord × State :=
  match s.locate pa with
  | none => (poisonWord, s.unbackedEvent pa (debugAgent pa))
  | some l =>
    if s.locSunk l then (poisonWord, s)
    else if s.locFenced l then (poisonWord, s.unbackedEvent pa (debugAgent pa))
    else
      let r := s.readLoc l (debugAgent pa) 0
      (r.1.word, r.2)

/-- R340: KIND 0. -/
def State.debugWord (s : State) (pa : BitVec 52) : DbgData × State :=
  let commons := (s.commonsAt pa).isSome
  let owner := s.ownerAt pa.toNat
  let byte := if commons then 0xFE else panelByte owner
  if (s.keysAt pa).isSome then
    let r := s.debugStored pa
    ({ data := r.1.data, mark := r.1.mark, owner := byte, enciphered := true }, r.2)
  else
    let r := s.readCode (debugAgent pa) pa
    match owner with
    | some p =>
      if s.pnl.panels[p].sealed_ then
        ({ data := Config.xtsEncrypt s.pnl.panels[p].keys (dataUnit pa) r.1.word.data, mark := r.1.word.mark, owner := byte, enciphered := true }, r.2)
      else ({ data := r.1.word.data, mark := r.1.word.mark, owner := byte, enciphered := false }, r.2)
    | none => ({ data := r.1.word.data, mark := r.1.word.mark, owner := byte, enciphered := false }, r.2)

/-- The local store that a physical core serves: cores out of use have none of the model's. -/
def VecState.slotOf (v : VecState) (core : Nat) : Option (Fin 16) :=
  let i := (List.range core).countP fun c => bit v.active c
  if bit v.active core ∧ i < 16 then some (asFin 16 i) else none

/-- Sixteen words of a local store. -/
def VecState.localWords (v : VecState) (core : Fin 16) (byte : Nat) : CodeWord :=
  let es := (List.range 16).map fun i => v.localAt (localKey core (byte + 4 * i))
  { data := BitVec.ofNat 512 (packWords (es.map (·.bits))), mark := es.any (·.mark) }

/-- R340: KIND 1. A local store is read by its bytes; the manual lays out no other store, and what is found there is free. -/
def State.storeWord (s : State) (a : ArrayId) (store core byte : Nat) : CodeWord × State :=
  let v := s.arrays[a].vec
  let open_ : CodeWord × State := ({ data := Config.storeBytes s.draws, mark := Config.storeMarks s.draws }, s.drawn)
  if store = 4 ∧ byte < 262144 then
    match v.slotOf core with
    | some c => (v.localWords c byte, s)
    | none => open_
  else open_

def State.debugStore (s : State) (a : ArrayId) (store core byte : Nat) : DbgData × State :=
  let r := s.storeWord a store core byte
  let owner := s.arrays[a].panel
  match owner with
  | some p =>
    if s.pnl.panels[p].sealed_ then
      let unit : BitVec 128 := BitVec.ofNat 128 (2 ^ 127 + fld s.pnl.dbgLoc.toNat 6 56)
      ({ data := Config.xtsEncrypt s.pnl.panels[p].keys unit r.1.data, mark := r.1.mark, owner := panelByte owner, enciphered := true }, r.2)
    else ({ data := r.1.data, mark := r.1.mark, owner := panelByte owner, enciphered := false }, r.2)
  | none => ({ data := r.1.data, mark := r.1.mark, owner := 0xFF, enciphered := false }, r.2)

def State.dbgEnd (s : State) (state : BitVec 4) (d : DbgData) : State :=
  s.modPnl fun x => { x with dbgState := state, dbgEnciphered := d.enciphered, dbgMarked := d.mark, dbgOwner := d.owner }

def dbgNone : DbgData := { data := 0, mark := false, owner := 0, enciphered := false }

/-- The write that DEBUG_READ makes. -/
def State.debugRead (s : State) : State :=
  let done := fun (r : DbgData × State) =>
    (r.2.dbgEnd 2 r.1).modPnl fun x => { x with dbgData := Vector.ofFn fun i => wordOf r.1.data i.val }
  match dbgLoc s.pnl.dbgLoc with
  | .bad => s.dbgEnd 3 dbgNone
  | .word pa => done (s.debugWord pa)
  | .store a store core byte => done (s.debugStore a store core byte)

/-- DEBUG_READ, R339, R340. -/
def execDebugRead (s : State) : Host.Outcome State Fault Refusal :=
  .next (s.byPf0 fun s => s.debugRead)

/-- The bytes of the debug window's data registers. -/
def PnlState.dbgWord (x : PnlState) : BitVec 512 := BitVec.ofNat 512 (packWords x.dbgData.toList)

/-- R340: a write into a store of an array that is not in service; where the manual lays out no bytes, what is read there
afterwards is free as before. -/
def State.writeStore (s : State) (a : ArrayId) (store core byte : Nat) (data : BitVec 512) : State :=
  if store = 4 ∧ byte < 262144 then
    match s.arrays[a].vec.slotOf core with
    | some c => s.modVec a fun v => { v with
        localStore := (List.range 16).foldl (fun m i => putEntry (localKey c (byte + 4 * i)) { bits := wordOf data i, mark := false } m) v.localStore }
    | none => s
  else s

/-- The write that DEBUG_WRITE makes. -/
def State.debugWrite (s : State) : State :=
  match dbgLoc s.pnl.dbgLoc with
  | .bad => s.dbgEnd 3 dbgNone
  | .word pa =>
    let owner := s.ownerAt pa.toNat
    let byte := if (s.commonsAt pa).isSome then 0xFE else panelByte owner
    if (s.commonsAt pa).isSome || owner.any fun p => s.pnl.panels[p].sealed_ then s.dbgEnd 3 { dbgNone with owner := byte }
    else (s.writeCode (debugAgent pa) pa { data := s.pnl.dbgWord, mark := false }).2.dbgEnd 2 { dbgNone with owner := byte }
  | .store a store core byte =>
    let d := { dbgNone with owner := panelByte s.arrays[a].panel }
    if s.arrays[a].st = 0 ∨ s.arrays[a].panel.any fun p => s.pnl.panels[p].sealed_ then s.dbgEnd 3 d
    else (s.writeStore a store core byte s.pnl.dbgWord).dbgEnd 2 d

/-- DEBUG_WRITE, R340: refused for what a sealed panel owns, for commons regions, and for arrays in service. -/
def execDebugWrite (s : State) : Host.Outcome State Fault Refusal :=
  .next (s.byPf0 fun s => s.debugWrite)

/-! ## Traces, R341 -/

/-- R342: PNL_TRACE_CONTROL as a write leaves it. -/
def State.writeTrace (s : State) (value : Word) : State :=
  let size : BitVec 5 := slice value 4 0
  let log := if 10 ≤ size.toNat ∧ size.toNat ≤ 24 then size else s.pnl.traceLog
  let s1 := s.modPnl fun x =>
    { x with traceSched := bit value 30, traceHdr := bit value 29, tracePort := asFin 2 (fld value.toNat 28 1)
             tracePanel := slice value 27 20, traceRate := slice value 19 16, traceLog := log, traceEnable := bit value 31 }
  if bit value 31 && !s.pnl.traceEnable then
    s1.modPnl fun x => { x with traceRingBase := x.traceBase, traceRingLog := log, traceTail := 0, traceHead := 0 }
  else s1

/-- TRACE_ENABLE, R341, R342. -/
def execTraceEnable (value : Word) (s : State) : Host.Outcome State Fault Refusal :=
  .next (s.byPf0 fun s => s.writeTrace value)

end Sys2Proof.Machine
end

