-- ==== Sys2Proof/Machine/Ras.lean ====
section
/-!
DEFINITION. Package faults, the fault log's registers and the patch store (chapter Faults, spares and the twin pair,
R360 to R366), and the transition requests of the life cycle (chapter Life cycle, R350 to R357).
-/

namespace Sys2Proof.Machine

/-! ## Package faults, R361 -/

/-- R361: a class 5 fault. All work stops with no completion, the partner is told, and the first fault is kept. -/
def State.packageFault (s : State) (source : BitVec 5) (code : Byte) : State :=
  let s1 := s.logFault { cls := 5, source := source, code := code }
  let s2 := s1.modRas fun r => { r with pkgFault := match r.pkgFault with
    | some f => some f
    | none => some (source, code) }
  let s3 := allQueues.foldl State.haltSilent s2
  let hearts := if s.twin.heartStopped then s3 else (s3.sendHeart 0 true).sendHeart 1 true
  hearts.modTwin fun t => { t with heartStopped := true }

/-- PACKAGE_FAULT, R360 to R362. -/
def execPackageFault (source : BitVec 5) (code : Byte) (s : State) : Host.Outcome State Fault Refusal :=
  .next (if s.inReset then s else s.packageFault source code)

/-! ## The fault log, R362, R363 -/

/-- The write that RAS_FLOG_POP makes. -/
def State.flogPop (s : State) (value : Word) : State :=
  s.modRas fun r => { r with flog := r.flog.drop (fld value.toNat 0 11) }

/-- RAS_FLOG_POP, R363. -/
def execRasFlogPop (value : Word) (s : State) : Host.Outcome State Fault Refusal :=
  .next (s.byPf0 fun s => s.flogPop value)

/-- R361, R363: SEVERE cleared, and FAULT_N with it; not while a package fault holds. -/
def State.clearSevere (s : State) : State :=
  if s.ras.flogSevere && s.ras.pkgFault.isNone then
    (s.modRas fun r => { r with flogSevere := false }).emit (.faultN false)
  else s

/-- R363: a write of RAS_FLOG_STATUS. -/
def State.writeFlogStatus (s : State) (value : Word) : State :=
  let s1 := if bit value 30 then s.clearSevere else s
  if bit value 29 then s1.modRas fun r => { r with flogNew := false } else s1

/-- FLOG_SEVERE_CLEAR, R361, R363. -/
def execFlogSevereClear (value : Word) (s : State) : Host.Outcome State Fault Refusal :=
  .next (s.byPf0 fun s => s.writeFlogStatus value)

/-! ## The patch store, R364 to R366 -/

/-- The first of the records that has not been written to the store is written. -/
def storeFirst : List PatchRec → List PatchRec × Option PatchRec
  | [] => ([], none)
  | r :: rs =>
    if r.stored then
      let t := storeFirst rs
      (r :: t.1, t.2)
    else ({ r with stored := true } :: rs, some { r with stored := true })

/-- PATCH_STORE_WRITE, R366. -/
def execPatchStoreWrite (s : State) : Host.Outcome State Fault Refusal :=
  .next (
    if s.inReset then s
    else
      let t := storeFirst s.ras.patches
      match t.2 with
      | none => s
      | some r => (s.modRas fun x => { x with patches := t.1 }).modFuse fun f => { f with patches := f.patches ++ [r] })

/-! ## Transition requests, R350 to R353 -/

/-- R350: whether a signer may move the unit between two states; none where the pair is not permitted. -/
def transitionSigners (from_ to_ : Nat) : List Nat :=
  if (from_, to_) ∈ [(0, 1), (1, 2), (2, 1), (2, 3), (0, 5), (1, 5), (2, 5)] then [1]
  else if (from_, to_) ∈ [(3, 4), (3, 5), (4, 5)] then [1, 2] else []

/-- R351: a transition request taken apart. -/
structure Transition where
  form : Bool
  from_ : Nat
  to_ : Nat
  signer : Nat
  identity : Nat
  nonce : Nat
  signed : List Byte
  ecdsa : List Byte
  mlDsa : List Byte
  deriving DecidableEq, Repr

def parseTransition (bs : List Byte) : Transition :=
  let part := fun (i n : Nat) => (bs.drop i).take n
  let zero := fun (i n : Nat) => (part i n).all fun b => b = 0
  { form := natOf (part 0 4) = 0x55484C43 && natOf (part 4 2) = 1 && zero 9 7 && zero 0x50 48 && zero 0xDCD 51
    from_ := natOf (part 6 1), to_ := natOf (part 7 1), signer := natOf (part 8 1)
    identity := natOf (part 0x10 32), nonce := natOf (part 0x30 32), signed := part 0 0x80
    ecdsa := part 0x80 96, mlDsa := part 0xE0 3309 }

/-- R350: both signatures verify under the signer's keys. -/
def State.transitionSigned (s : State) (t : Transition) : Bool :=
  let digest := Config.sha384 t.signed
  if t.signer = 1 then Config.ecdsaP384 Config.lifeCycleEcdsaKey digest t.ecdsa && Config.mlDsa65 Config.lifeCycleMlDsaKey digest t.mlDsa
  else Config.ecdsaP384 s.fuse.operatorEcdsa digest t.ecdsa && Config.mlDsa65 s.fuse.operatorMlDsa digest t.mlDsa

/-- R353 act 3: the result of the first check that fails. -/
def State.checkTransition (s : State) (t : Transition) : Option Byte :=
  let signers := transitionSigners t.from_ t.to_
  if !t.form then some 2
  else if t.from_ ≠ s.lcs.state.toNat then some 3
  else if signers = [] then some 4
  else if t.identity ≠ s.fuse.identity.toNat then some 5
  else if t.nonce ≠ s.lcs.nonce.toNat then some 6
  else if t.signer ∉ signers || (t.signer = 2 && s.fuse.operatorKey.isNone) then some 8
  else if t.from_ = 3 && t.to_ = 4 && s.pnl.debug then some 0x0A
  else if s.fuse.freeSlots = [] then some 0x0B
  else if !s.transitionSigned t then some 9
  else none

/-- TEST_TOKEN_BURN, R353 act 2: the fuse bits of the next token. -/
def tokenBits (used : Nat) : List FuseBit := inCopies fun c => [.word c (41 + used)]

/-- R353 acts 3 to 6, R357: a request for RETIRED waits for the panels. -/
def State.runTransition (s : State) (t : Transition) (fails : Option Nat) : State :=
  match s.checkTransition t with
  | some r => s.lcsRefused r
  | none =>
    if t.to_ = 5 then
      let s1 := (allFin 40).foldl State.enterDust s
      (s1.modLcs fun l => { l with status := 2, retiring := some fails }).settleRetire
    else s.lcsBurn t.to_ fails

/-- R353 acts 2 to 6 for a request that has been read. -/
def State.takeTransition (s : State) (bs : List Byte) (fails : Option Nat) : State :=
  let t := parseTransition bs
  if s.lcs.state = lcsTestLocked ∧ t.to_ = 1 then
    let used := wordTokens s.fuse.voted
    if 16 ≤ used then s.lcsRefused 7
    else
      let r := s.fuse.burn fails (tokenBits used)
      let s1 := s.modFuse fun _ => r.1
      if r.2.2 then s1.runTransition t r.2.1 else s1.lcsRefused 0x0C
  else s.runTransition t fails

/-- R359: LCS_CONTROL as a write leaves it, and the request that GO starts. -/
def State.lcsControl (s : State) (value : Word) (request : HostRead) (fails : Option Nat) : State :=
  if bit value 31 && decide (1 ≤ s.lcs.status.toNat ∧ s.lcs.status.toNat ≤ 3) then s.note
  else
    let s1 := s.modLcs fun l => { l with port := asFin 2 (fld value.toNat 0 1) }
    if !bit value 31 then s1
    else if s1.lcs.invalid then s1.lcsRefused 0x0E
    else if s1.lcs.target.isSome then s1.lcsRefused 0x0D
    else
      let r := s1.mailRead s1.lcs.port (fld s1.lcs.src.toNat 6 46 * 64) 3584 request
      match r.1 with
      | none => r.2.lcsRefused 1
      | some bs => r.2.takeTransition bs fails

/-- R344, R361: whether a port accepts memory requests for the LCS block, which the boot ROM serves in every state. -/
def State.lcsOpen (s : State) : Bool :=
  s.ras.pkgFault.isNone && (allFin 2).any fun p => s.portReady p && !s.ports[p].pf0D3hot

/-- LCS_GO, R350 to R357. -/
def execLcsGo (value : Word) (request : HostRead) (burnFails : Option Nat) (s : State) : Host.Outcome State Fault Refusal :=
  .next (if s.lcsOpen then s.lcsControl value request burnFails else s)

end Sys2Proof.Machine
end

