-- ==== Sys2Proof/Machine/Boot.lean ====
section
/-!
DEFINITION. Resets of the package and its boot, site rails, clocks, power and temperature (chapter Bring-up, clocks,
power and pins, R390 to R406).
-/

namespace Sys2Proof.Machine

/-! ## Reset, R321, R392, R393, R395 -/

/-- The hub's state at reset with fuses, pins and the AUX domain as they are; the model's own records go on. -/
def State.atReset (s : State) : State :=
  { State.leaving s.fuse s.pins s.side with draws := s.draws, out := s.out, pending := s.pending }

/-- R408: outputs that were asserted are released. -/
def State.releasePins (s : State) : State :=
  let s1 := if s.ras.flogSevere then s.emit (.faultN false) else s
  let s2 := if s.pwr.thermEvent then s1.emit (.thermN false) else s1
  (allFin 8).foldl (fun t n => if s.sites[n].enabled then t.emit (.siteEnable n false) else t) s2

/-- R392: the hub enters reset. -/
def State.enterReset (s : State) : State := { s.releasePins.atReset with inReset := true }

/-- R392: the six inputs are high. -/
def Pins.allGood (p : Pins) : Bool := p.pkgResetN && p.pwrgd = 0b11111

/-- R392: the hub leaves reset once the last of the six inputs is high. -/
def State.maybeLeave (s : State) : State := if s.inReset && s.pins.allGood then s.atReset else s

/-- R407: the bit of a power-good input. -/
def goodBit : PowerGood → Nat
  | .aux => 0
  | .io => 1
  | .hbm => 2
  | .sram => 3
  | .core => 4

/-- R409, R410: the AUX domain as its rail comes up: the straps are sampled, and no address or test instruction is held. -/
def State.auxUp (s : State) : State :=
  s.modSide fun _ => { staticAddr := 0x30 + s.pins.addrSel.setWidth 7 }

/-- PWRGD_RISE, R390, R392, R409. -/
def execPwrgdRise (pin : PowerGood) (s : State) : Host.Outcome State Fault Refusal :=
  .next (
    let i := goodBit pin
    if bit s.pins.pwrgd i then s
    else
      let s1 := s.modPins fun p => { p with pwrgd := setBit p.pwrgd i true }
      (if pin = .aux then s1.auxUp else s1).maybeLeave)

/-- PWRGD_FALL, R392, R393. -/
def execPwrgdFall (pin : PowerGood) (s : State) : Host.Outcome State Fault Refusal :=
  .next (
    let i := goodBit pin
    if !bit s.pins.pwrgd i then s
    else
      let s1 := s.modPins fun p => { p with pwrgd := setBit p.pwrgd i false }
      if s.inReset then s1 else ((s1.sendHeart 0 true).sendHeart 1 true).enterReset)

/-- PKG_RESET_ASSERT, R392, R395. -/
def execPkgResetAssert (s : State) : Host.Outcome State Fault Refusal :=
  .next (
    let s1 := s.modPins fun p => { p with pkgResetN := false }
    if s.inReset then s1 else s1.enterReset)

/-- PKG_RESET_RELEASE, R392, R395. -/
def execPkgResetRelease (s : State) : Host.Outcome State Fault Refusal :=
  .next (s.modPins fun p => { p with pkgResetN := true }).maybeLeave

/-! ## Patch records applied at boot, R366 -/

/-- An array that a record retires or brings in. -/
def State.bootArray (s : State) (a : ArrayId) (st : BitVec 3) : State :=
  (s.modArray a fun x => { x with st := st, patched := st = 0 }).setSink (fieldOfArray a) (niOfArray a) (st ≠ 0)

/-- A vector core that a record takes out of service, with the core it brings in. -/
def ArrayState.bootCore (x : ArrayState) (failed spare : Nat) : ArrayState :=
  { x with corePatched := true, vec := { x.vec with active := setBit (setBit x.vec.active failed false) spare true, spare := 0x1F } }

/-- A fast-tier bank that a record takes out of service: its logical bank gets the spare, or leaves the mapping (R127). -/
def FtState.bootBank (x : FtState) (logical : BankId) (failed : Nat) (spare : Option Nat) : FtState :=
  match spare with
  | some b => { x with bankMap := vset x.bankMap logical (BitVec.ofNat 7 b), deadBanks := setBit x.deadBanks failed true }
  | none => { x with lost := setBit x.lost logical.val true, deadBanks := setBit x.deadBanks failed true }

/-- R193: a lath link that a record takes out of service; a boundary left below strength has its promises suspended. -/
def LathState.bootLink (x : LathState) (b : Fin 10) (failed : Nat) (spare : Option Nat) : LathState :=
  let y := { x with inService := setBit x.inService failed false, spare := setBit x.spare failed false }
  let z := match spare with
    | some l => { y with inService := setBit y.inService l true, spare := setBit y.spare l false }
    | none => y
  { z with hashSet := z.inService }.judge b

def TwinPort.bootLane (x : TwinPort) (failed : Nat) (spare : Option Nat) : TwinPort :=
  let y := { x with lanes := setBit x.lanes failed false, spareLanes := setBit x.spareLanes failed false }
  match spare with
  | some k => { y with lanes := setBit y.lanes k true, spareLanes := setBit y.spareLanes k false }
  | none => y

/-- R365, R366: one record applied. -/
def State.applyPatch (s : State) (r : PatchRec) : State :=
  let f := r.failed.toNat
  let spare := fun (lo n : Nat) => if r.spare = noSpare then none else some (fld r.spare.toNat lo n)
  if r.kind = 1 then
    let s1 := s.bootArray (asFin 40 (fld f 0 6)) 3
    match spare 0 6 with
    | some b => s1.bootArray (asFin 40 b) 0
    | none => s1
  else if r.kind = 2 then s.modArray (asFin 40 (fld f 8 6)) fun x => x.bootCore (fld f 0 5) (fld r.spare.toNat 0 5)
  else if r.kind = 3 then
    s.modFt (asFin 8 (fld f 0 10 / 66)) fun x => x.bootBank (asFin 64 (fld f 16 6)) (fld f 0 10 % 66) ((spare 0 10).map fun b => b % 66)
  else if r.kind = 4 then
    s.modStack (asFin 24 (fld f 27 5)) fun x =>
      { x with pages := x.pages ++ [{ pc := asFin 64 (fld f 21 6), page := fld f 0 14, spare := fld r.spare.toNat 0 6 }] }
  else if r.kind = 5 then s.modStack (asFin 24 (fld f 27 5)) fun x => { x with excluded := setBit x.excluded (fld f 0 5) true }
  else if r.kind = 6 then
    let b : Fin 10 := asFin 10 (fld f 8 4)
    s.modLath b fun x => x.bootLink b (fld f 0 6) (spare 0 6)
  else if r.kind = 7 then s.modTwinPort (asFin 2 (fld f 8 1)) fun x => x.bootLane (fld f 0 6) (spare 0 6)
  else s

/-! ## Boot stages, R345, R348, R349, R352, R356, R396 -/

/-- Stage 1: a pending marker is resolved, the copies are voted, and a nonce is drawn. -/
def State.vote (s : State) : State :=
  let r := s.fuse.resolve
  let w := r.1.voted
  let valid := wordValid w
  let st := if valid then wordState w else lcsRetired
  let s1 := { s.modFuse fun _ => r.1 with retired := st = lcsRetired }
  (s1.modLcs fun l => { l with
    state := st, invalid := !valid, bootAction := r.2, vote := BitVec.ofNat 2 r.1.differing }).freshNonce

/-- Stage 2: the boot is counted, and every record is applied in store order. -/
def State.applyStore (s : State) : State :=
  let boot := satAdd s.fuse.bootCount 1
  let s1 := (s.modFuse fun f => { f with bootCount := boot }).modRas fun r => { r with patchBoot := boot, patches := s.fuse.patches }
  (s.fuse.patches.foldl State.applyPatch s1).checkGrade

/-- BOOT_MS: whole milliseconds since the hub left reset, at 93,750 SCLK each. -/
def State.bootTime (s : State) : BitVec 16 := BitVec.ofNat 16 (min 0xFFFF (s.sclk / 93750))

/-- R396, R401: the boot is done. -/
def State.bootDone (s : State) : State :=
  let s1 := { s with stage := 4, bootMs := s.bootTime }
  ((s1.readyMessage 0).readyMessage 1).readyFrom s

/-- R345: the keys that the security root makes at the first boot in PERSONALIZED. -/
def State.makeKeys (s : State) : State :=
  if s.lcs.state = lcsPersonalized && s.fuse.bundleKey.isNone then
    let k := Config.randomKey s.draws
    let j := Config.randomKey (s.draws + 1)
    s.drawn.drawn.modFuse fun f => { f with deviceKey := some (k.setWidth 384), bundleKey := some (j.setWidth 384) }
  else s

/-- BOOT_STAGE_DONE, R344, R345, R348, R349, R352, R356, R366, R396, R401. -/
def execBootStageDone (passed : Bool) (s : State) : Host.Outcome State Fault Refusal :=
  .next (
    if s.inReset then s
    else if s.stage = 0 then
      if passed then
        { s.modClk fun _ => { coreLock := true, twinLock := 3, pcieLock := 3, siteLock := s.fuse.sitePop, hbmLock := 0xFF } with stage := 1 }
      else s
    else if s.stage = 1 then { s.vote with stage := 2 }
    else if s.stage = 2 then
      let s1 := s.applyStore
      if s.retired then s1.bootDone else { s1 with stage := 3 }
    else if s.stage = 3 then
      if passed then s.makeKeys.bootDone else ({ s with stage := 5 } : State).packageFault 15 0
    else s)

/-- FIELD_SELF_TEST_DONE, R396, R400. -/
def execFieldSelfTestDone (f : FieldId) (s : State) : Host.Outcome State Fault Refusal :=
  .next (
    if !s.elementsMayStart || s.fields[f].selfTest then s
    else
      let s1 := (List.range 5).foldl (fun t i => t.modArray (asFin 40 (5 * f.val + i)) fun x => { x with selfTested := true }) s
      (s1.modField f fun x => { x with selfTest := true }).readyFrom s)

/-! ## Site rails, R394 -/

/-- The populated site whose slot comes next. -/
def State.nextSite (s : State) : Option SiteId := (allFin 8).find? fun n => decide (s.siteSlot ≤ n.val) && bit s.fuse.sitePop n.val

def State.raiseSite (s : State) (n : SiteId) : State :=
  (s.modSite n fun x => { x with enabled := true, stage := .waitPower }).emit (.siteEnable n true)

/-- SITE_EN_SLOT, R394: the two halves of a double site together. -/
def execSiteEnSlot (s : State) : Host.Outcome State Fault Refusal :=
  .next (
    if !s.elementsMayStart then s
    else match s.nextSite with
      | none => s
      | some n =>
        let s1 := s.raiseSite n
        if s.pairFused n.val then { s1.raiseSite (asFin 8 (n.val + 1)) with siteSlot := n.val + 2 }
        else { s1 with siteSlot := n.val + 1 })

/-- Stage 1 of R244 starts for a site that waits for its power. -/
def State.siteBegins (s : State) (n : SiteId) : State :=
  if s.sites[n].stage = .waitPower then s.modSite n fun x => { x with stage := .sideband } else s

/-- SITE_PG_RISE, R394. -/
def execSitePgRise (n : SiteId) (s : State) : Host.Outcome State Fault Refusal :=
  .next (
    if bit s.pins.sitePg n.val then s
    else
      let s1 := s.modPins fun p => { p with sitePg := setBit p.sitePg n.val true }
      if s.inReset then s1 else (s1.modSite n fun x => { x with power := true }).siteBegins n)

/-- SITE_PG_WAIT_TIMEOUT, R394. -/
def execSitePgWaitTimeout (n : SiteId) (s : State) : Host.Outcome State Fault Refusal :=
  .next (s.siteBegins n)

/-- SITE_PG_FALL, R394. -/
def execSitePgFall (n : SiteId) (s : State) : Host.Outcome State Fault Refusal :=
  .next (
    if !bit s.pins.sitePg n.val then s
    else
      let s1 := s.modPins fun p => { p with sitePg := setBit p.sitePg n.val false }
      if s.inReset then s1
      else
        let s2 := s1.modSite n fun x => { x with power := false }
        if s.sites[n].inService then s2.noteSite n 0 else s2)

/-! ## Clocks, R398 -/

/-- REFCLK_LOSS, R361, R398. -/
def execRefclkLoss (s : State) : Host.Outcome State Fault Refusal :=
  .next (if s.inReset then s else s.packageFault 17 1)

/-- PLL_LOCK_LOSS, R240, R268, R361, R374, R398: of a synthesiser or PLL that is locked. -/
def execPllLockLoss (pll : PllSel) (s : State) : Host.Outcome State Fault Refusal :=
  .next (
    match pll with
    | .core => if s.clk.coreLock then (s.modClk fun c => { c with coreLock := false }).packageFault 17 2 else s
    | .hbm f =>
      if bit s.clk.hbmLock f.val then (s.modClk fun c => { c with hbmLock := setBit c.hbmLock f.val false }).packageFault 17 2 else s
    | .pcie p =>
      if bit s.clk.pcieLock p.val then (s.modClk fun c => { c with pcieLock := setBit c.pcieLock p.val false }).packageFault 17 2 else s
    | .site n =>
      if bit s.clk.siteLock n.val then (s.modClk fun c => { c with siteLock := setBit c.siteLock n.val false }).killSite n 9 else s
    | .twin k =>
      if bit s.clk.twinLock k.val then (s.modClk fun c => { c with twinLock := setBit c.twinLock k.val false }).twinFails k else s)

/-! ## Power and temperature, R402 to R406 -/

/-- R404: whether the limit is lowered. -/
def PwrState.thermalCap (x : PwrState) : Bool := decide (x.throtC.toNat ≤ x.tmax.toNat)

/-- R402, R404: the effective limit in quarters of a watt. -/
def PwrState.limit4 (x : PwrState) : Nat := x.limit.toNat * (if x.thermalCap then 3 else 4)

/-- R402: the next issue allowance. `ten` says that a step of 10 µs has come, and `below` that P1 has been below
0.98 × L for 100 µs. -/
def PwrState.nextD (x : PwrState) (p1 p10 : Nat) (ten below : Bool) : Nat :=
  let d := x.d.toNat
  if 11 * x.limit4 < 40 * p10 then max 8 (d / 2)
  else if x.limit4 < 4 * p1 then (if ten then max 8 (d - 4) else d)
  else if 400 * p1 < 98 * x.limit4 ∧ below ∧ ten then min 64 (d + 1)
  else d

/-- POWER_SAMPLE, R402, R403, R406. -/
def execPowerSample (p1 p10 : BitVec 13) (tenMicroseconds belowFor100 floorFor10ms : Bool) (s : State) :
    Host.Outcome State Fault Refusal :=
  .next (
    if s.inReset then s
    else
      let d := s.pwr.nextD p1.toNat p10.toNat tenMicroseconds belowFor100
      let s1 := s.modPwr fun x => { x with
        p1 := p1, d := BitVec.ofNat 7 d, p1Max := if x.p1Max.toNat < p1.toNat then p1 else x.p1Max
        evCapped := x.evCapped || decide (d < 64), evFloor := x.evFloor || decide (d = 8) }
      if 4300 < p1.toNat ∧ floorFor10ms ∧ s.pwr.d = 8 then s1.packageFault 17 3 else s1)

/-- R404: the highest reading. -/
def hottest (t : Vector Byte 32) : Byte := BitVec.ofNat 8 ((t.toList.map (·.toNat)).foldl max 0)

/-- TEMP_SAMPLE, R404, R405. -/
def execTempSample (sensors : Vector Byte 32) (hotFor1ms : Bool) (s : State) : Host.Outcome State Fault Refusal :=
  .next (
    if s.inReset then s
    else
      let s1 := (s.modPwr fun x => { x with temps := sensors, tmax := hottest sensors }).thermal
      if hotFor1ms ∧ 120 ≤ (hottest sensors).toNat then s1.packageFault 17 4 else s1)

/-- R406: PWR_LIMIT.WATTS and PWR_THERM.THROT_C as a write leaves them. -/
def State.writeLimit (s : State) (value : Word) : State :=
  s.modPwr fun x => { x with limit := BitVec.ofNat 13 (max 1500 (min 4300 (fld value.toNat 0 13))) }
def State.writeTherm (s : State) (value : Word) : State :=
  s.modPwr fun x => { x with throtC := BitVec.ofNat 8 (max 80 (min 105 (fld value.toNat 0 8))) }

/-- PWR_LIMIT_WRITE, R406. -/
def execPwrLimitWrite (value : Word) (s : State) : Host.Outcome State Fault Refusal :=
  .next (s.byPf0 fun s => s.writeLimit value)

/-- PWR_THERM_WRITE, R406. -/
def execPwrThermWrite (value : Word) (s : State) : Host.Outcome State Fault Refusal :=
  .next (s.byPf0 fun s => s.writeTherm value)

end Sys2Proof.Machine
end

