-- ==== Sys2Proof/Machine/RegMap.lean ====
section
/-!
DEFINITION. Where every register lies and what a read of it returns (chapter Register map, R412 to R419, and the register
tables of every chapter).
-/

namespace Sys2Proof.Machine

/-! ## Words -/

def word (n : Nat) : Word := BitVec.ofNat 32 n
def lowWord (w : DWord) : Word := w.setWidth 32
def highWord (w : DWord) : Word := (w >>> 32).setWidth 32

/-- Bits `hi` to `lo` of a word, in their places; the others zero (R7). -/
def keepBits {n : Nat} (w : BitVec n) (hi lo : Nat) : BitVec n := BitVec.ofNat n (fld w.toNat lo (hi + 1 - lo) * 2 ^ lo)

/-- The extents that R412 and R415 reserve. -/
def reservedExtent (off : Nat) : Bool :=
  let inField := (off - 0x1000000) % 0x1000000
  decide (0x80C000 ≤ off ∧ off < 0x1000000) || decide (0x9000000 ≤ off) ||
    decide (0x1000000 ≤ off ∧ off < 0x9000000 ∧ 0xB00000 ≤ inField ∧ inField < 0xF00000)

/-! ## GLB, R20, R406, R416 -/

/-- R20: spare fast-tier banks: neither behind a logical bank nor dead. -/
def FtState.spareBanks (x : FtState) : Nat :=
  (List.range 66).countP fun b => !(bit x.deadBanks b) && !((allFin 64).any fun i => x.bankMap[i].toNat = b)

/-- GLB_SPARE_COUNT. -/
def State.spareCount (s : State) : Word :=
  let cores := (allFin 40).countP fun a => decide (s.arrays[a].st.toNat < 2) && s.arrays[a].vec.spare ≠ 0x1F
  let twins := ((allFin 2).map fun k => popCount s.twin.ports[k].spareLanes).sum
  let laths := ((allFin 10).map fun b => popCount s.net.lath[b].spare).sum
  let banks := ((allFin 8).map fun f => s.fields[f].ft.spareBanks).sum
  word (cores * 2 ^ 24 + twins * 2 ^ 16 + laths * 2 ^ 8 + banks)

/-- GLB_ARRAY_MAP_f. -/
def State.arrayMap (s : State) (f : FieldId) : Word :=
  word ((List.range 5).map fun i => (s.arrays[asFin 40 (5 * f.val + i)]).st.toNat * 2 ^ (3 * i)).sum

def State.glbWord (s : State) (o : Nat) : Word :=
  if o = 0 then 0x9624B001
  else if o = 0x10 then s.glbInventory
  else if o = 0x14 then s.spareCount
  else if 0x20 ≤ o ∧ o < 0x40 then s.arrayMap (asFin 8 ((o - 0x20) / 4))
  else if o = 0x108 then word (s.stage.toNat * 2 ^ 28 + s.bootMs.toNat)
  else 0

def State.glbWide (s : State) (o : Nat) : Option DWord := if o = 0x100 then some s.glbReady else none

/-! ## HPC, R297 -/

/-- HPC_LINK_p. -/
def PortState.linkWord (x : PortState) : Word :=
  word (flag x.l0 31 + flag x.slow 30 + flag x.flit 29 + x.rate.toNat * 2 ^ 26 + x.width.toNat * 2 ^ 21 +
    x.activeWidth.toNat * 2 ^ 16 + x.pm.toNat * 2 ^ 13)

/-- HPC_VF_MAP_p_v. -/
def State.vfMap (s : State) (p : PortId) (v : VfId) : Word :=
  let x := s.ports[p].vfs[v]
  match x.bound with
  | some n => word (2 ^ 31 + flag s.pnl.panels[n].sealed_ 30 + x.tdi.toNat * 2 ^ 27 + n.val * 2 ^ 16 + x.tint.val)
  | none => word (x.tdi.toNat * 2 ^ 27)

def State.hpcPort (s : State) (p : PortId) (o : Nat) : Word :=
  let x := s.ports[p]
  if o = 0 then x.linkWord
  else if o = 4 then (s.irqStatus p).setWidth 32
  else if o = 8 then x.irqEnable.setWidth 32
  else if o = 0xC then word (flag x.vfEnable 31 + x.numVfs.toNat)
  else if o = 0x10 then x.l1Idle.setWidth 32
  else 0

def State.hpcWord (s : State) (o : Nat) : Word :=
  if o < 0x200 then s.hpcPort (asFin 2 (o / 0x100)) (o % 0x100)
  else if 0x1000 ≤ o ∧ o < 0x1200 ∧ o % 0x100 < 160 then s.vfMap (asFin 2 (o / 0x100)) (asFin 40 (o % 0x100 / 4))
  else 0

/-! ## IMG, R319 -/

def State.imgWord (s : State) (o : Nat) : Word :=
  let x := s.img
  if o = 8 then x.length
  else if o = 0xC then word (flag x.commitSvn 2 + flag x.wait 1 + x.port.val)
  else if o = 0x30 then word (x.status.toNat * 2 ^ 28 + x.error.toNat * 2 ^ 20 + x.section_.toNat * 2 ^ 12 + x.entry.toNat)
  else if o = 0x34 then word (x.held.toNat * 2 ^ 24 + x.ignored.toNat * 2 ^ 16 + x.kind.toNat * 2 ^ 8 + x.panel.toNat)
  else if o = 0x48 then word (flag x.loaded 31 + x.baseSvn.toNat)
  else if o = 0x4C then s.fuse.svnMin.setWidth 32
  else 0

def State.imgWide (s : State) (o : Nat) : Option DWord :=
  if o = 0 then some s.img.src
  else if o = 0x10 then some s.img.authCtr
  else if o = 0x40 then some s.img.baseId
  else if 0x100 ≤ o ∧ o < 0x240 then some s.img.panelIds[asFin 40 ((o - 0x100) / 8)]
  else none

/-! ## PNL, R342 -/

/-- R343, R357: whether the internal scan chains, and silicon-level debug with them, are open. -/
def State.debugOpen (s : State) : Bool :=
  !s.inReset && decide (2 ≤ s.stage.toNat) && !(s.lcs.target.any fun t => t = 2 || t = 4 || t = 5) &&
    (s.lcs.state = 0 || s.lcs.state = 1 || (s.lcs.state = 3 && s.pnl.debug))

/-- PNL_STATE_p. -/
def PanelState.word (x : PanelState) : Word :=
  Machine.word (x.state.toNat * 2 ^ 29 + flag x.sealed_ 28 + flag x.authKey.isSome 27 + flag x.fill 26 + x.phase.toNat * 2 ^ 23 +
    x.port.val * 2 ^ 8 + (match x.vf with
      | some v => v.val + 1
      | none => 0))

/-- PNL_CM_STATUS_n. -/
def State.commonsStatus (s : State) (n : Fin 32) : Word :=
  let x := s.pnl.commons[n]
  word (x.state.toNat * 2 ^ 29 + flag x.mirrored 28 + s.regionGrants n * 2 ^ 16)

/-- PNL_TRACE_CONTROL. -/
def PnlState.traceWord (x : PnlState) : Word :=
  word (flag x.traceEnable 31 + flag x.traceSched 30 + flag x.traceHdr 29 + x.tracePort.val * 2 ^ 28 + x.tracePanel.toNat * 2 ^ 20 +
    x.traceRate.toNat * 2 ^ 16 + x.traceLog.toNat)

def State.pnlWord (s : State) (o : Nat) : Word :=
  let x := s.pnl
  if o = 0 then word (x.cmdPanel.toNat * 2 ^ 16 + x.cmdAuth.toNat * 2 ^ 8 + x.cmdOp.toNat)
  else if o = 4 then word (x.cmdState.toNat * 2 ^ 28 + x.result.toNat * 2 ^ 20)
  else if 0x40 ≤ o ∧ o < 0x90 then x.args[asFin 20 ((o - 0x40) / 4)]
  else if o = 0x110 then
    word (flag s.fuse.operatorKey.isSome 31 + flag s.debugOpen 30 + x.keyRanges.length * 2 ^ 16 + s.sealedPanels * 2 ^ 8)
  else if o = 0x114 then word (x.dbgTint.val * 2 ^ 4 + x.dustTint.val)
  else if 0x200 ≤ o ∧ o < 0x2A0 then x.panels[asFin 40 ((o - 0x200) / 4)].word
  else if 0x1000 ≤ o ∧ o < 0x1800 ∧ o % 0x40 = 0x20 then s.commonsStatus (asFin 32 ((o - 0x1000) / 0x40))
  else if o = 0x180C then
    word (x.dbgState.toNat * 2 ^ 28 + flag x.dbgEnciphered 27 + flag x.dbgMarked 26 + x.dbgOwner.toNat * 2 ^ 16)
  else if 0x1840 ≤ o ∧ o < 0x1880 then x.dbgData[asFin 16 ((o - 0x1840) / 4)]
  else if o = 0x1908 then x.traceWord
  else if o = 0x190C then x.traceTail
  else if o = 0x1910 then x.traceHead
  else if o = 0x1914 then x.traceLost
  else 0

def State.pnlWide (s : State) (o : Nat) : Option DWord :=
  let x := s.pnl
  if o = 8 then some x.ctr
  else if o = 0x100 then some s.fuse.ctrVendor
  else if o = 0x108 then some s.fuse.ctrOperator
  else if 0x400 ≤ o ∧ o < 0x540 then some x.panels[asFin 40 ((o - 0x400) / 8)].counter
  else if 0x600 ≤ o ∧ o < 0x740 then some (x.panels[asFin 40 ((o - 0x600) / 8)].lost.setWidth 64)
  else if 0x1000 ≤ o ∧ o < 0x1800 ∧ o % 0x40 < 0x20 then
    let c := x.commons[asFin 32 ((o - 0x1000) / 0x40)]
    some (if o % 0x40 = 0 then BitVec.ofNat 64 c.primary else if o % 0x40 = 8 then BitVec.ofNat 64 c.mirror
      else if o % 0x40 = 0x10 then BitVec.ofNat 64 c.length else c.bundle)
  else if o = 0x1800 then some x.dbgLoc
  else if o = 0x1900 then some x.traceBase
  else none

/-! ## LCS, R359 -/

/-- LCS_STATE. -/
def State.lcsWord0 (s : State) : Word :=
  let x := s.lcs
  let left := if s.stage.toNat < 2 then 0 else 16 - min 16 (wordTokens s.fuse.voted)
  word ((if x.invalid then 5 else x.state.toNat) * 2 ^ 29 + flag x.invalid 28 + x.bootAction.toNat * 2 ^ 26 + flag s.debugOpen 24 +
    x.vote.toNat * 2 ^ 22 + flag x.resetRequired 21 + left * 2 ^ 16 + s.fuse.freeSlots.length * 2 ^ 10)

def State.lcsWord (s : State) (o : Nat) : Word :=
  let x := s.lcs
  if o = 0 then s.lcsWord0
  else if o = 0x18 then word x.port.val
  else if o = 0x1C then word (x.status.toNat * 2 ^ 28 + x.result.toNat * 2 ^ 20)
  else if 0x40 ≤ o ∧ o < 0x60 then wordOf s.fuse.identity ((o - 0x40) / 4)
  else if 0x60 ≤ o ∧ o < 0x80 then wordOf x.nonce ((o - 0x60) / 4)
  else 0

def State.lcsWide (s : State) (o : Nat) : Option DWord :=
  if o = 0x10 then some s.lcs.src
  else if 0x100 ≤ o ∧ o < 0x118 then some s.fuse.stateWords[asFin 3 ((o - 0x100) / 8)]
  else none

/-! ## RAS, R146, R149, R363 -/

/-- Word `k` of entry `i` of a log; entries beyond those held read zero. -/
def logWord (l : List (BitVec 256)) (o : Nat) : Word :=
  match l[o / 32]? with
  | some e => wordOf e (o % 32 / 4)
  | none => 0

/-- R365: the words of a patch record. -/
def PatchRec.wordAt (r : PatchRec) (k : Nat) : Word :=
  if k = 0 then word (r.kind.toNat * 2 ^ 28 + r.code.toNat * 2 ^ 16 + r.boot.toNat) else if k = 1 then r.failed else if k = 2 then r.spare else 0

/-- The records that have reached the store. -/
def RasState.stored (x : RasState) : List PatchRec := x.patches.filter (·.stored)

def PrimerSlot.wordAt (x : PrimerSlot) (o : Nat) : Word :=
  if o = 0x10 then word (x.tint.val * 2 ^ 24 + x.op.toNat)
  else if o = 0x14 then word (x.state.toNat * 2 ^ 28 + x.reason.toNat * 2 ^ 24)
  else if o = 0x20 then x.clean
  else if o = 0x24 then x.corrected
  else if o = 0x28 then x.uncorr
  else if o = 0x2C then x.marked
  else if o = 0x30 then x.unwritten
  else 0

def PrimerSlot.wideAt (x : PrimerSlot) (o : Nat) : Option DWord :=
  if o = 0 then some x.base else if o = 8 then some x.length
  else if o = 0x18 then some (BitVec.ofNat 64 x.progress) else if o = 0x38 then some x.firstBad else none

def RasState.wordAt (x : RasState) (o : Nat) : Word :=
  let n := x.mlog.length
  let m := x.flog.length
  if o = 0x10000 then
    word (flag (1024 ≤ n) 31 + flag (512 ≤ n) 30 + flag x.mlogNew 29 + n * 2 ^ 16 + x.mlogLost.toNat)
  else if o = 0x10008 then x.damaged
  else if 0x11000 ≤ o ∧ o < 0x19000 then logWord x.mlog (o - 0x11000)
  else if 0x20000 ≤ o ∧ o < 0x20200 then (x.primers[asFin 8 ((o - 0x20000) / 0x40)]).wordAt (o % 0x40)
  else if o = 0x30000 then
    word (flag (1024 ≤ m) 31 + flag x.flogSevere 30 + flag x.flogNew 29 + m * 2 ^ 16 + x.flogLost.toNat)
  else if o = 0x30008 then
    (match x.pkgFault with
      | some f => word (2 ^ 31 + f.1.toNat * 2 ^ 24 + f.2.toNat * 2 ^ 16)
      | none => 0)
  else if 0x31000 ≤ o ∧ o < 0x39000 then logWord x.flog (o - 0x31000)
  else if o = 0x40000 then word (flag (x.patches.any fun r => !r.stored) 31 + x.stored.length)
  else if o = 0x40004 then x.patchBoot.setWidth 32
  else if o = 0x40008 then x.patchSelect.setWidth 32
  else if 0x40010 ≤ o ∧ o < 0x40020 then
    (match x.stored[x.patchSelect.toNat]? with
      | some r => r.wordAt ((o - 0x40010) / 4)
      | none => 0)
  else 0

def RasState.wideAt (x : RasState) (o : Nat) : Option DWord :=
  if 0x20000 ≤ o ∧ o < 0x20200 then (x.primers[asFin 8 ((o - 0x20000) / 0x40)]).wideAt (o % 0x40) else none

/-! ## NET, R213 -/

/-- The NI that a select register names; none where it is absent. -/
def selectedNi (f ni : Nat) : Option (FieldId × NiId) :=
  if bit (absentNis (asFin 8 f)) (ni % 32) then none else some (asFin 8 f, asFin 32 ni)

def State.selectedStencil (s : State) : DWord :=
  let w := s.net.stSelect.toNat
  match selectedNi (fld w 18 3) (fld w 13 5) with
  | some n => s.stencil n.1 n.2 (fld w 0 8)
  | none => 0

/-- The counters that NET_CNT_SELECT names. -/
def State.selectedCount (s : State) : Option BudgetCount :=
  let w := s.net.cntSelect.toNat
  (selectedNi (fld w 9 3) (fld w 4 5)).map fun n => s.countOf n.1 n.2 (w.testBit 12) (asFin 16 (fld w 0 4))

/-- NET_LATH_b. -/
def LathState.word (x : LathState) : Word :=
  Machine.word (popCount x.inService * 2 ^ 20 + popCount x.spare * 2 ^ 18 + flag x.suspended 17 + x.replays.toNat)

def State.netWord (s : State) (o : Nat) : Word :=
  let x := s.net
  if o = 0 then word (flag x.tableValid 31 + ((allFin 10).map fun b => flag x.lath[b].suspended b.val).sum)
  else if o = 4 then x.timeouts
  else if o = 8 then word (x.dropsRouter.toNat * 2 ^ 16 + x.dropsLate.toNat)
  else if o = 0x10 then x.stSelect
  else if o = 0x14 then lowWord s.selectedStencil
  else if o = 0x18 then highWord s.selectedStencil
  else if o = 0x1C then x.cntSelect
  else if o = 0x20 then word ((s.selectedCount.map (·.lastWords)).getD 0)
  else if o = 0x24 then (s.selectedCount.map fun c => word (c.demotedWindows.toNat * 2 ^ 16 + c.misses.toNat)).getD 0
  else if 0x100 ≤ o ∧ o < 0x140 then x.tints[asFin 16 ((o - 0x100) / 4)]
  else if 0x200 ≤ o ∧ o < 0x220 then x.sink[asFin 8 ((o - 0x200) / 4)]
  else if 0x300 ≤ o ∧ o < 0x328 then (x.lath[asFin 10 ((o - 0x300) / 4)]).word
  else 0

/-! ## COH, R235 -/

def Slice.wordAt (x : Slice) (o : Nat) : Word :=
  if o = 0 then word x.dir.length else if o = 4 then x.snoops else if o = 8 then x.np else if o = 0xC then x.staleCount
  else if o = 0x10 then x.recalls else if o = 0x14 then word (x.snoopTimeouts.toNat * 2 ^ 16 + x.ackTimeouts.toNat) else 0

def State.cohWord (s : State) (o : Nat) : Word :=
  let x := s.coh
  if o = 0 then word (flag x.tableValid 31 + ((allFin 8).map fun f => flag (s.fieldReady f) f.val).sum)
  else if o = 4 then x.homeMap.setWidth 32
  else if 0x10 ≤ o ∧ o < 0x1C then wordOf x.owner ((o - 0x10) / 4)
  else if 0x20 ≤ o ∧ o < 0x2C then wordOf x.valid ((o - 0x20) / 4)
  else if 0x30 ≤ o ∧ o < 0x3C then wordOf x.dead ((o - 0x30) / 4)
  else if 0x100 ≤ o ∧ o < 0x200 then (x.slices[asFin 8 ((o - 0x100) / 0x20)]).wordAt (o % 0x20)
  else 0

/-! ## TWN, R389 -/

def TwinPort.word (x : TwinPort) : Word :=
  Machine.word (x.state.toNat * 2 ^ 28 + x.width.toNat * 2 ^ 22 + popCount x.spareLanes * 2 ^ 20 + x.level.toNat * 2 ^ 18 +
    flag x.secure 17 + x.replays.toNat)

def State.bindWord (s : State) (b : BindId) (o : Nat) : Word :=
  let x := s.twin.bindings[b]
  if !x.valid then 0
  else if o = 0 then
    word (2 ^ 31 + x.role.toNat * 2 ^ 29 + flag x.auto 28 + x.port.val * 2 ^ 27 + flag x.alt 26 +
      flag s.pnl.panels[x.panel].sealed_ 25 + x.panel.val * 2 ^ 16)
  else if o = 4 then word (x.state.toNat * 2 ^ 28 + flag x.seeded 27 + min 0xFFFF (x.pendingWords / 16))
  else 0

def State.twnWord (s : State) (o : Nat) : Word :=
  let x := s.twin
  if o = 0 then x.ports[(0 : PortId)].word
  else if o = 0x40 then x.ports[(1 : PortId)].word
  else if o = 0x80 then word (x.peerStepping.toNat * 2 ^ 24 + x.peerMax.toNat * 2 ^ 22 + x.peerSchema.toNat)
  else if o = 0x84 then
    word (flag x.silent 31 + x.cause.toNat * 2 ^ 29 + min 0xFFFF ((s.sclk - x.lastHeart) / 93750))
  else if o = 0x8C then word (x.ctlState.toNat * 2 ^ 28 + x.ctlReason.toNat * 2 ^ 24)
  else if 0xA0 ≤ o ∧ o < 0xC0 then wordOf x.peerId ((o - 0xA0) / 4)
  else if 0x1000 ≤ o ∧ o < 0x1400 then s.bindWord (asFin 64 ((o - 0x1000) / 0x10)) (o % 0x10)
  else 0

def State.twnWide (s : State) (o : Nat) : Option DWord :=
  if 0x1000 ≤ o ∧ o < 0x1400 ∧ o % 0x10 = 8 then
    let x := s.twin.bindings[asFin 64 ((o - 0x1000) / 0x10)]
    some (if x.valid then x.epoch else 0)
  else none

/-! ## CLK and PWR, R406 -/

def State.clkWord (s : State) (o : Nat) : Word :=
  let x := s.clk
  if o = 0 then
    word (flag x.coreLock 31 + x.twinLock.toNat * 2 ^ 29 + x.pcieLock.toNat * 2 ^ 27 + x.siteLock.toNat * 2 ^ 8 + x.hbmLock.toNat)
  else if o = 4 then (Config.refPpm s.draws).setWidth 32
  else 0

def State.pwrWord (s : State) (o : Nat) : Word :=
  let x := s.pwr
  if o = 0 then x.limit.setWidth 32
  else if o = 4 then
    word (flag (x.d.toNat < 64) 31 + flag x.thermalCap 30 + x.d.toNat * 2 ^ 23 + x.p1.toNat)
  else if o = 8 then x.p1Max.setWidth 32
  else if o = 0xC then word (x.tmax.toNat * 2 ^ 24 + x.throtC.toNat)
  else if o = 0x10 then word (flag x.evTherm 2 + flag x.evCapped 1 + flag x.evFloor 0)
  else if 0x20 ≤ o ∧ o < 0x40 then
    let f := (o - 0x20) / 4
    word ((List.range 4).map fun i => (x.temps[asFin 32 (4 * f + i)]).toNat * 2 ^ (8 * i)).sum
  else 0

/-! ## Field blocks, R60, R62, R101, R128, R150, R269, R418 -/

def ArrayState.configWord (x : ArrayState) (a : ArrayId) : Word :=
  word (a.val * 2 ^ 26 + x.logical.toNat * 2 ^ 20 + x.st.toNat * 2 ^ 17 + flag x.mode 16 + flag x.patched 15 + flag x.corePatched 14)

def CubeState.statusWord (x : CubeState) : Word :=
  word (flag (x.ops ≠ []) 31 + flag x.halted 30 + flag (x.stat[(1 : Fin 2)].phase = .valid) 29 + flag (x.stat[(0 : Fin 2)].phase = .valid) 28 +
    ((allFin 4).map fun i => flag (x.acc[i].phase ≠ .free) (24 + i.val)).sum + x.pass.toNat)

/-- SEQ_STATUS. Its counts hold at 255: the manual says nothing of more (DESIGN CHOICE, assumption log 83). -/
def ArrayState.seqWord (x : ArrayState) : Word :=
  word (x.seq.state.toNat * 2 ^ 28 + x.seq.attempt.toNat * 2 ^ 26 + min 3 x.seq.loops.length * 2 ^ 24 +
    min 255 x.cube.ops.length * 2 ^ 16 + min 255 x.vec.launches.length * 2 ^ 8 + min 255 x.moves.length)

def ArrayState.vecWord (x : ArrayState) : Word :=
  word (x.vec.ctxs.length * 2 ^ 16 + min 255 x.vec.launches.length * 2 ^ 8 + ((allFin 4).countP fun i => x.cube.exch[i].full) * 2 ^ 4)

def ArrayState.moveWord (x : ArrayState) : Word :=
  word ((allFin 8).map fun c => flag (x.moves.any fun m => m.channel = c) c.val).sum

/-- R60: of an array that is not in service only ARR_CONFIG is read. -/
def State.arrayWord (s : State) (a : ArrayId) (o : Nat) : Word :=
  let x := s.arrays[a]
  if o = 0 then x.configWord a
  else if x.st ≠ 0 then 0
  else if o = 4 then x.cube.statusWord
  else if o = 8 then faultWord x.cube.fault
  else if o = 0xC then x.cube.numeric.setWidth 32
  else if 0x1000 ≤ o ∧ o < 0x1800 then wordOf x.cube.descs[asFin 64 ((o - 0x1000) / 32)] (o % 32 / 4)
  else if o = 0x2004 then x.seqWord
  else if o = 0x2008 then faultWord x.seq.fault
  else if o = 0x200C then x.seq.stepId.setWidth 32
  else if o = 0x2018 then word (x.seq.wdLeft s.sclk)
  else if 0x2100 ≤ o ∧ o < 0x2200 then (x.seq.sems[asFin 64 ((o - 0x2100) / 4)]).setWidth 32
  else if o = 0x3000 then word (x.vec.spare.toNat * 2 ^ 17 + x.vec.active.toNat)
  else if o = 0x3004 then x.vecWord
  else if o = 0x3800 then x.moveWord
  else 0

def State.arrayWide (s : State) (a : ArrayId) (o : Nat) : Option DWord :=
  let x := s.arrays[a]
  if o = 0x10 then some (if x.st = 0 then x.cube.passes else 0)
  else if o = 0x2010 then some (if x.st = 0 then x.seq.pc.setWidth 64 else 0)
  else none

/-- R128: the fast-tier block of a field that the base image leaves out reads zero. -/
def State.ftWord (s : State) (f : FieldId) (o : Nat) : Word :=
  let x := s.fields[f].ft
  let x16 := s.img.x.toNat
  if s.fields[f].leftOut then 0
  else if o = 0 then
    (if s.fieldMapped f then word (flag (0 < x16) 16 + s.ftNearSize f / 1048576 * 2 ^ 5 + x16) else word x16)
  else if o = 4 then word (flag x.ready 31 + flag x.fenced 30 + x.fenceBank.toNat * 2 ^ 8 + x.b)
  else if o = 8 then x.skimInterval.setWidth 32
  else if o = 0xC then word (x.skimPasses.toNat * 2 ^ 17 + x.skimRow)
  else if o = 0x14 then word (flag x.retireBusy 31 + x.retireResult.toNat * 2 ^ 28 + x.newPhys.toNat)
  else if 0x100 ≤ o ∧ o < 0x200 then x.errs[asFin 64 ((o - 0x100) / 4)]
  else if 0x200 ≤ o ∧ o < 0x300 then (x.bankMap[asFin 64 ((o - 0x200) / 4)]).setWidth 32
  else 0

/-- HBM_CONFIG and HBM_NEAR_MIB. -/
def State.stackConfig (s : State) (k : StackId) : Word :=
  word (s.hbm[k].pcActive.toNat * 2 ^ 16 + flag (s.stackMapped k && 0 < s.img.h.toNat) 15 + s.img.h.toNat)

def State.stackNear (s : State) (k : StackId) : Word :=
  if s.stackMapped k then
    let l := s.lmin (fieldOfStack k)
    word ((nearCapacity s.img.hb s.hbm[k].p - l) / 1048576 * 2 ^ 16 + l / 1048576)
  else 0

def StackState.tempWord (x : StackState) : Word :=
  word (x.tempMax.toNat * 2 ^ 16 + x.tempCur.toNat * 2 ^ 8 + flag x.crit 1 + flag x.hot 0)

/-- R128: which registers of a stack controller can be reached. -/
def State.stackSeen (s : State) (k : StackId) (o : Nat) : Bool :=
  !s.fields[fieldOfStack k].leftOut && (!s.stackOut k || o = 4 || o = 8 || o = 0x14 || o = 0x38)

def State.stackWord (s : State) (k : StackId) (o : Nat) : Word :=
  let x := s.hbm[k]
  if !s.stackSeen k o then 0
  else if o = 0 then s.stackConfig k
  else if o = 4 then
    word (flag x.ready 31 + x.state.toNat * 2 ^ 28 + x.attempt.toNat * 2 ^ 26 + x.rate.toNat * 2 ^ 24 + x.failCode.toNat * 2 ^ 16)
  else if o = 8 then x.excluded
  else if o = 0xC then x.fenced
  else if o = 0x14 then x.tempWord
  else if o = 0x18 then word (x.refreshRate.toNat * 2 ^ 2 + x.refreshNextMode.toNat)
  else if o = 0x20 then
    word (flag x.repairBusy 31 + x.repairResult.toNat * 2 ^ 28 + s.fuse.hardRepair[k].length * 2 ^ 16 + x.softCount.toNat)
  else if o = 0x24 then s.stackNear k
  else if o = 0x28 then x.skimInterval.setWidth 32
  else if o = 0x2C then word (x.skimPasses.toNat * 2 ^ 21 + x.skimStrip)
  else if o = 0x34 then
    word (flag x.pageBusy 31 + x.pageResult.toNat * 2 ^ 28 + x.spareLeft * 2 ^ 16 + x.pages.length)
  else if o = 0x38 then word (x.testResult.toNat * 2 ^ 28 + flag (x.rate8g && s.testUnlocked) 0)
  else if 0x100 ≤ o ∧ o < 0x180 then x.errs[asFin 32 ((o - 0x100) / 4)]
  else 0

/-- R269: a capped site reads zero but for SITE_LEVEL.HUB_MAX. -/
def State.siteWord (s : State) (n : SiteId) (o : Nat) : Word :=
  let x := s.sites[n]
  if !(bit s.fuse.sitePop n.val) then (if o = 4 then 0x300 else 0)
  else if o = 0 then
    word (flag x.ready 31 + x.state.toNat * 2 ^ 28 + x.attempt.toNat * 2 ^ 26 + x.failCode.toNat * 2 ^ 16 + x.modules.toNat * 2 ^ 11 +
      x.rate.toNat * 2 ^ 9 + x.double.toNat * 2 ^ 7)
  else if o = 4 then word (x.chipMax.toNat * 2 ^ 24 + x.chipMin.toNat * 2 ^ 16 + 0x300 + x.neg.toNat)
  else if o = 8 then x.granted
  else if o = 0xC then x.masked
  else if o = 0x10 then word (flag x.throttle 31 + x.maxW.toNat * 2 ^ 18 + x.avgW.toNat)
  else if o = 0x14 then word (min 2 (s.recentRetrains n).length * 2 ^ 30 + x.replays.toNat)
  else if 0x100 ≤ o ∧ o < 0x200 then x.desc[asFin 64 ((o - 0x100) / 4)]
  else 0

/-- R415: an offset in a field block. -/
def State.fieldWord (s : State) (f : FieldId) (o : Nat) : Word :=
  let k := o / 0x100000
  let x := o % 0x100000
  if k < 5 then s.arrayWord (asFin 40 (5 * f.val + k)) x
  else if k = 5 then s.ftWord f x
  else if k < 9 then s.stackWord (asFin 24 (3 * f.val + (k - 6))) x
  else if k = 0xA then s.siteWord f x
  else 0

/-! ## PF0's window, R412 -/

/-- What a 32-bit register at a BAR0 offset of PF0 reads; zero where there is none (R7). -/
def State.pf0Word (s : State) (off : Nat) : Word :=
  let o := off % 0x100000
  match off / 0x100000 with
  | 0 => s.glbWord o
  | 1 => s.hpcWord o
  | 2 => s.imgWord o
  | 3 => s.pnlWord o
  | 4 => s.lcsWord o
  | 5 => s.ras.wordAt o
  | 6 => s.netWord o
  | 7 => s.cohWord o
  | 8 => if o < 0x4000 then s.twnWord o else if o < 0x8000 then s.clkWord (o - 0x4000) else s.pwrWord (o - 0x8000)
  | _ => if 0x1000000 ≤ off ∧ off < 0x9000000 then s.fieldWord (asFin 8 (off / 0x1000000 - 1)) (off % 0x1000000) else 0

/-- The 64-bit register whose low word lies at a BAR0 offset of PF0. -/
def State.pf0Wide (s : State) (off : Nat) : Option DWord :=
  let o := off % 0x100000
  match off / 0x100000 with
  | 0 => s.glbWide o
  | 2 => s.imgWide o
  | 3 => s.pnlWide o
  | 4 => s.lcsWide o
  | 5 => s.ras.wideAt o
  | 8 => if o < 0x4000 then s.twnWide o else none
  | _ =>
    if 0x1000000 ≤ off ∧ off < 0x9000000 ∧ off % 0x1000000 < 0x500000 then
      s.arrayWide (asFin 40 (5 * (off / 0x1000000 - 1) + off % 0x1000000 / 0x100000)) o
    else none

/-! ## A VF page, R182, R236, R274, R275, R296, R419 -/

def InvSet.controlWord (x : InvSet) : Word := word (x.vector.toNat * 2 ^ 8 + flag x.walk 1 + flag x.irq 0)
def InvSet.statusWord (x : InvSet) : Word := word (x.state.toNat * 2 ^ 28 + x.reason.toNat * 2 ^ 24 + x.forced.toNat)
def FlushSet.controlWord (x : FlushSet) : Word := word (x.vector.toNat * 2 ^ 8 + flag x.irq 0)
def FlushSet.statusWord (x : FlushSet) : Word := word (x.state.toNat * 2 ^ 28 + x.reason.toNat * 2 ^ 24)

/-- Q_STATUS_q. -/
def QueueState.statusWord (x : QueueState) : Word :=
  let st := if !x.enable && !x.stopping then 0 else if x.cqFull && x.comps ≠ [] then 2 else 1
  word (st * 2 ^ 28 + x.cqTail.toNat * 2 ^ 12 + x.sqHead.toNat)

def QueueState.configWord (x : QueueState) : Word :=
  word (flag x.enable 31 + flag x.irq 13 + x.vector.toNat * 2 ^ 8 + x.cqLog.toNat * 2 ^ 4 + x.sqLog.toNat)

def QueueState.wordAt (x : QueueState) (o : Nat) : Word :=
  if o = 0x10 then x.configWord
  else if o = 0x14 then x.statusWord
  else if o = 0x18 then (if x.enable then x.expected else x.seqReg)
  else if o = 0x1C then word (x.dups.toNat * 2 ^ 16 + x.rejects.toNat)
  else 0

/-- VF_ID. -/
def State.vfIdWord (s : State) (p : PortId) (v : VfId) : Word :=
  word ((match (s.vf p v).bound with
    | some n => 2 ^ 31 + flag (s.inDust n) 30 + n.val * 2 ^ 16
    | none => 0) + p.val * 2 ^ 8 + v.val + 1)

def MsixEntry.wordAt (x : MsixEntry) (k : Nat) : Word :=
  if k = 0 then lowWord x.addr else if k = 1 then highWord x.addr else if k = 2 then x.data else word (flag x.masked 0)

/-- The fault ring's registers. -/
def State.ringWord (s : State) (p : PortId) (v : VfId) (o : Nat) : Word :=
  let x := s.vf p v
  let held := (x.bound.map fun n => s.pnl.panels[n].ring.heldRecords.length).getD 0
  if o = 0xE018 then word (flag x.fringEnable 31 + x.fringVector.toNat * 2 ^ 8 + x.fringLog.toNat)
  else if o = 0xE01C then x.tail
  else if o = 0xE020 then x.head
  else if o = 0xE024 then word (flag x.overflow 31 + x.stale.toNat * 2 ^ 16 + held)
  else if o = 0xE028 then x.overCount
  else if o = 0xE02C then word (flag x.arm 0)
  else 0

/-- R274: of a VF that is not bound only VF_ID is read. -/
def State.vfWord (s : State) (p : PortId) (v : VfId) (o : Nat) : Word :=
  let x := s.vf p v
  if o = 0 then s.vfIdWord p v
  else if x.bound.isNone then 0
  else if 0x1000 ≤ o ∧ o < 0x1400 then (x.queues[asFin 16 ((o - 0x1000) / 0x40)]).wordAt (o % 0x40)
  else if 0x2000 ≤ o ∧ o < 0x2080 then
    let q := x.queues[asFin 16 ((o - 0x2000) / 8)]
    if o % 8 = 0 then q.sqTail.setWidth 32 else q.cqHead.setWidth 32
  else if 0x8000 ≤ o ∧ o < 0x8200 then (x.msix[asFin 32 ((o - 0x8000) / 16)]).wordAt (o % 16 / 4)
  else if o = 0x9000 then x.pba
  else if o = 0xE008 then x.aperture.setWidth 32
  else if o = 0xE050 then x.inv.controlWord
  else if o = 0xE054 then x.inv.statusWord
  else if o = 0xE090 then x.flush.controlWord
  else if o = 0xE094 then x.flush.statusWord
  else s.ringWord p v o

/-- COH_RANGE_BASE_k and COH_RANGE_LENGTH_k of a panel. -/
def PanelState.rangeWide (x : PanelState) (o : Nat) : DWord :=
  match x.ranges[(o - 0xE0C0) / 16]? with
  | some r => if o % 16 = 0 then BitVec.ofNat 64 r.base else BitVec.ofNat 64 r.length
  | none => 0

def State.vfWide (s : State) (p : PortId) (v : VfId) (o : Nat) : Option DWord :=
  let x := s.vf p v
  let got := fun (w : DWord) => if x.bound.isNone then some 0 else some w
  if 0x1000 ≤ o ∧ o < 0x1400 ∧ o % 0x40 < 0x10 ∧ o % 8 = 0 then
    let q := x.queues[asFin 16 ((o - 0x1000) / 0x40)]
    got (if o % 0x40 = 0 then q.sqBase else q.cqBase)
  else if o = 0xE000 then got x.root
  else if o = 0xE010 then got x.fringBase
  else if o = 0xE040 then got x.inv.base
  else if o = 0xE048 then got x.inv.length
  else if o = 0xE080 then got x.flush.base
  else if o = 0xE088 then got x.flush.length
  else if 0xE0C0 ≤ o ∧ o < 0xE100 ∧ o % 8 = 0 then got ((x.bound.map fun n => s.pnl.panels[n].rangeWide o).getD 0)
  else none

/-! ## The operator mirrors, R182, R236 -/

/-- The panel and the VF page offset that an offset of PF0 mirrors. -/
def mirrorAt (off : Nat) : Option (PanelId × Nat) :=
  if 0x310000 ≤ off ∧ off < 0x310000 + 40 * 0x100 then some (asFin 40 ((off - 0x310000) / 0x100), 0xE000 + off % 0x100) else none

/-- The registers of the operator's own sets. -/
def ownSet (o : Nat) : Bool := decide (0xE040 ≤ o ∧ o < 0xE058) || decide (0xE080 ≤ o ∧ o < 0xE098)

def PanelState.ownWord (x : PanelState) (o : Nat) : Word :=
  if o = 0xE050 then x.inv.controlWord else if o = 0xE054 then x.inv.statusWord
  else if o = 0xE090 then x.flush.controlWord else if o = 0xE094 then x.flush.statusWord else 0

def PanelState.ownWide (x : PanelState) (o : Nat) : Option DWord :=
  if o = 0xE040 then some x.inv.base else if o = 0xE048 then some x.inv.length
  else if o = 0xE080 then some x.flush.base else if o = 0xE088 then some x.flush.length else none

/-- The register that an address reaches: a mirrored register of a panel is the one in its VF page, but for the operator's
own sets. -/
def State.aim (s : State) (r : RegAddr) : RegAddr :=
  match r with
  | .vf .. => r
  | .pf0 off =>
    match mirrorAt off.toNat with
    | some (p, o) =>
      (match s.pnl.panels[p].vf with
        | some v => if ownSet o then r else .vf s.pnl.panels[p].port v (BitVec.ofNat 16 o)
        | none => r)
    | none => r

/-- What a 32-bit register reads. -/
def State.regWord (s : State) (r : RegAddr) : Word :=
  match r with
  | .vf p v o => s.vfWord p v o.toNat
  | .pf0 off =>
    match mirrorAt off.toNat with
    | some (p, o) => s.pnl.panels[p].ownWord o
    | none => s.pf0Word off.toNat

/-- The 64-bit register whose low word lies at an address. -/
def State.regWide (s : State) (r : RegAddr) : Option DWord :=
  match r with
  | .vf p v o => s.vfWide p v o.toNat
  | .pf0 off =>
    match mirrorAt off.toNat with
    | some (p, o) => s.pnl.panels[p].ownWide o
    | none => s.pf0Wide off.toNat

/-- The low word's address of a register whose high word lies at an address. -/
def lowOf : RegAddr → RegAddr
  | .pf0 off => .pf0 (off - 4)
  | .vf p v o => .vf p v (o - 4)

/-- The low 32 bits of an address, as a number, by which alignment is judged. -/
def regOffset : RegAddr → Nat
  | .pf0 off => off.toNat
  | .vf _ _ o => o.toNat

end Sys2Proof.Machine
end

