-- ==== Sys2Proof/Machine/ConfigSpace.lean ====
section
/-!
DEFINITION. The configuration space of PF0 and of the VFs: the capabilities at their fixed offsets, the SR-IOV capability,
the BARs, and reads and writes of them (chapter Host ports, R270, R272, R273, R279, R290, R293, R295, R401). The manual
takes the registers inside a capability from PCI Express; their places here are that standard's (PRESUMED, assumption
log 90), and what neither gives a value is a free value.
-/

namespace Sys2Proof.Machine

/-! ## Capabilities, R272 -/

/-- The capabilities of PF0 below 0x100, each with its offset and its capability ID, in the order of their chain. -/
def pfCaps : List (Nat × Nat) := [(0x40, 0x01), (0x70, 0x10)]

/-- PF0's extended capabilities; the ID of the last physical layer is a free value. -/
def pfExtCaps : List (Nat × Nat) :=
  [(0x100, 0x0001), (0x150, 0x0003), (0x160, 0x000E), (0x170, 0x0010), (0x1B0, 0x0019), (0x1E0, 0x0025), (0x200, 0x0026),
   (0x240, 0x002A), (0x280, 0x0031), (0x2C0, Config.physicalLayer128.toNat), (0x300, 0x0027), (0x350, 0x001E),
   (0x360, 0x002E), (0x400, 0x0030), (0x600, 0x002F), (0x610, 0x0018)]

/-- A VF's capabilities. -/
def vfCaps : List (Nat × Nat) := [(0x40, 0x01), (0x50, 0x11), (0x70, 0x10)]
def vfExtCaps : List (Nat × Nat) := [(0x100, 0x000E)]

/-- The capability ID at an offset, and the pointer to the next capability of the chain: 0 at its end. -/
def capAt (l : List (Nat × Nat)) (off : Nat) : Option (Nat × Nat) :=
  match l with
  | [] => none
  | (o, id) :: r => if o = off then some (id, (r.head?.map (·.1)).getD 0) else capAt r off

/-- What a function's configuration space holds where the manual gives no value: bits `n` up from `lo` of a word. -/
def cfgOpen (vf : Bool) (off lo n : Nat) : Nat := fld (Config.cfgWord vf off).toNat lo n * 2 ^ lo

/-- The first word of a capability: its ID and its next pointer, with `upper` in bits 31:16. -/
def capWord (c : Nat × Nat) (upper : Nat) : Word := BitVec.ofNat 32 (c.1 + c.2 * 2 ^ 8 + upper)
/-- The first word of an extended capability; its version is a free value. -/
def extWord (c : Nat × Nat) (version : Nat) : Word := BitVec.ofNat 32 (c.1 + version + c.2 * 2 ^ 20)

/-! ## Reads -/

/-- R277: the Interrupt Status bit of PF0's Status register follows the level before Interrupt Disable. -/
def State.intxPending (s : State) (p : PortId) : Bool := (s.irqStatus p &&& s.ports[p].irqEnable) ≠ 0

/-- The Type 0 header of PF0 below its capability pointer, and the rest of it. -/
def State.pfHeader (s : State) (p : PortId) (o : Nat) : Word :=
  let x := s.ports[p]
  if o = 4 then
    word (flag x.cfg.memEnable 1 + flag x.cfg.bme 2 + flag x.intxDisable 10 + flag (s.intxPending p) 19 + 2 ^ 20)
  else if o = 0xC then word (cfgOpen false 0xC 0 16)
  else if o = 0x10 then lowWord x.cfg.bar0 ||| 4
  else if o = 0x14 then highWord x.cfg.bar0
  else if 0x18 ≤ o ∧ o < 0x2C ∨ o = 0x30 ∨ o = 0x38 then 0
  else if o = 0x34 then 0x40
  else if o = 0x3C then word (2 ^ 8 + x.cfg.intLine.toNat)
  else Config.cfgWord false o

/-- PCI Express, Endpoint, at 0x070. -/
def PortState.pcieWord (x : PortState) (o : Nat) : Word :=
  if o = 0x74 then word (cfgOpen false 0x74 3 28 + 2)
  else if o = 0x78 then word (x.cfg.mps.toNat * 2 ^ 5 + x.cfg.mrrs.toNat * 2 ^ 12)
  else if o = 0x80 then word (flag x.cfg.aspmL1 1 + x.rate.toNat.succ * 2 ^ 16 + x.width.toNat * 2 ^ 20)
  else Config.cfgWord false o

/-- Advanced Error Reporting, at 0x100. -/
def PfConfig.aerWord (x : PfConfig) (o : Nat) : Word :=
  if o = 0x104 then x.uncStatus else if o = 0x108 then x.uncMask else if o = 0x10C then x.uncSeverity
  else if o = 0x110 then x.corStatus else if o = 0x114 then x.corMask else Config.cfgWord false o

/-- R273: the SR-IOV capability, at 0x170. -/
def PortState.sriovWord (x : PortState) (o : Nat) : Word :=
  if o = 0x178 then word (flag x.vfEnable 0 + flag x.cfg.vfMse 3 + flag x.cfg.ari 4)
  else if o = 0x17C then word (40 * 2 ^ 16 + 40)
  else if o = 0x180 then word x.numVfs.toNat
  else if o = 0x184 then word (2 ^ 16 + 1)
  else if o = 0x18C then 0x00000011
  else if o = 0x190 then x.cfg.pageSize
  else if o = 0x194 then lowWord x.cfg.vfBar0 ||| 4
  else if o = 0x198 then highWord x.cfg.vfBar0
  else if o = 0x19C then 0xC
  else if o = 0x1A0 then highWord x.cfg.vfBar2
  else if o = 0x1A4 ∨ o = 0x1A8 then 0
  else Config.cfgWord false o

/-- R272: a word of PF0's configuration space. -/
def State.pfConfigWord (s : State) (p : PortId) (o : Nat) : Word :=
  let x := s.ports[p]
  match capAt pfCaps o, capAt pfExtCaps o with
  | some c, _ => capWord c (if o = 0x70 then cfgOpen false o 16 4 + cfgOpen false o 24 8 else cfgOpen false o 16 16)
  | none, some c => extWord c (cfgOpen false o 16 4)
  | none, none =>
    if o < 0x40 then s.pfHeader p o
    else if o = 0x44 then word (flag x.pf0D3hot 0 + flag x.pf0D3hot 1 + 2 ^ 3)
    else if o < 0x100 then x.pcieWord o
    else if o < 0x150 then x.cfg.aerWord o
    else if o = 0x154 then lowWord Config.serialNumber
    else if o = 0x158 then highWord Config.serialNumber
    else if 0x170 ≤ o ∧ o < 0x1B0 then x.sriovWord o
    else if o = 0x358 then word x.cfg.l1ss.toNat
    else if 0x408 ≤ o ∧ o < 0x600 then x.cfg.ideRegs[asFin 126 ((o - 0x408) / 4)]
    else if o = 0x608 then word (flag x.cfg.l0p 3)
    else if o = 0x614 then x.cfg.ltr
    else Config.cfgWord false o

/-- R272: a word of a VF's configuration space; its BARs are in PF0's SR-IOV capability. -/
def State.vfConfigWord (s : State) (p : PortId) (v : VfId) (o : Nat) : Word :=
  let x := s.vf p v
  match capAt vfCaps o, capAt vfExtCaps o with
  | some c, _ =>
    capWord c (if o = 0x50 then 31 * 2 ^ 16 + flag x.msixMask 30 + flag x.msixEnable 31
      else if o = 0x70 then cfgOpen true o 16 4 + cfgOpen true o 24 8 else cfgOpen true o 16 16)
  | none, some c => extWord c (cfgOpen true o 16 4)
  | none, none =>
    if o = 4 then word (flag x.bme 2 + 2 ^ 20)
    else if o = 0 then 0xFFFFFFFF
    else if o = 0xC then word (cfgOpen true 0xC 0 16)
    else if 0x10 ≤ o ∧ o < 0x28 ∨ o = 0x30 ∨ o = 0x3C then 0
    else if o = 0x34 then 0x40
    else if o = 0x44 then word (flag x.d3hot 0 + flag x.d3hot 1 + cfgOpen true 0x44 3 1)
    else if o = 0x54 then 0x8000
    else if o = 0x58 then 0x9000
    else Config.cfgWord true o

/-- R272, R294, R401: a read of the configuration space, of the aligned word that holds an offset. -/
def State.configRead (s : State) (p : PortId) (vf : Option VfId) (off : BitVec 12) : State :=
  s.byConfig p fun s =>
    let o := off.toNat / 4 * 4
    match vf with
    | none => s.emit (.cfgRead p none off (s.pfConfigWord p o))
    | some v => s.vfConfig p v fun s => s.emit (.cfgRead p (some v) off (s.vfConfigWord p v o))

/-! ## Writes -/

/-- A word with the `size` bytes from `lane` up replaced by those of a value given from bit 0. -/
def mergeBytes (old : Word) (lane size : Nat) (value : Word) : Word :=
  let m : Word := (BitVec.ofNat 32 (2 ^ (8 * size) - 1)) <<< (8 * lane)
  (old &&& ~~~m) ||| ((value <<< (8 * lane)) &&& m)

def State.modCfg (s : State) (p : PortId) (f : PfConfig → PfConfig) : State := s.modPort p fun x => { x with cfg := f x.cfg }

/-- R293: a change of what every VF of a port shares is seen by each locked or running interface. -/
def State.tdiErrors (s : State) (p : PortId) : State := (allFin 40).foldl (fun t v => t.tdiError p v) s

/-- VF Enable, VF Memory Space Enable and ARI Capable Hierarchy. -/
def State.writeSriov (s : State) (p : PortId) (w : Word) : State :=
  let s1 := if bit w 3 ≠ s.ports[p].cfg.vfMse then s.tdiErrors p else s
  let s2 := s1.modCfg p fun x => { x with vfMse := bit w 3, ari := bit w 4 }
  if bit w 0 then s2.modPort p fun x => { x with vfEnable := true } else s2.clearVfEnable p

/-- A VF BAR of the SR-IOV capability. -/
def State.writeVfBar (s : State) (p : PortId) (f : PfConfig → PfConfig) : State :=
  let s1 := s.modCfg p f
  if s1.ports[p].cfg = s.ports[p].cfg then s else s1.tdiErrors p

/-- R273: one supported page size, chosen while VF Enable is 0. -/
def State.writePageSize (s : State) (p : PortId) (w : Word) : State :=
  if s.ports[p].vfEnable ∨ (w ≠ 1 ∧ w ≠ 0x10) then s else s.modCfg p fun x => { x with pageSize := w }

/-- R270: a payload or read request size that the port does not support leaves its field as it is. -/
def PfConfig.writeDevice (x : PfConfig) (w : Word) : PfConfig :=
  let m := fld w.toNat 5 3
  let r := fld w.toNat 12 3
  { x with mps := if m ≤ 2 then BitVec.ofNat 3 m else x.mps, mrrs := if r ≤ 5 then BitVec.ofNat 3 r else x.mrrs }

/-- AER: the status registers are cleared by ones, the others are written. -/
def PfConfig.writeAer (x : PfConfig) (o : Nat) (w ones : Word) : PfConfig :=
  if o = 0x104 then { x with uncStatus := x.uncStatus &&& ~~~ones } else if o = 0x108 then { x with uncMask := w }
  else if o = 0x10C then { x with uncSeverity := w } else if o = 0x110 then { x with corStatus := x.corStatus &&& ~~~ones }
  else if o = 0x114 then { x with corMask := w } else x

/-- A word of PF0's configuration space written: `w` with the bytes that the write leaves alone, `ones` without them. -/
def State.pfConfigWrite (s : State) (p : PortId) (o : Nat) (w ones : Word) : State :=
  if o = 4 then
    (s.modCfg p fun x => { x with memEnable := bit w 1, bme := bit w 2 }).modPort p fun x => { x with intxDisable := bit w 10 }
  else if o = 0x10 then s.modCfg p fun x => { x with bar0 := both (highWord x.bar0) (w &&& 0xF0000000) }
  else if o = 0x14 then s.modCfg p fun x => { x with bar0 := both w (lowWord x.bar0) }
  else if o = 0x3C then s.modCfg p fun x => { x with intLine := w.setWidth 8 }
  else if o = 0x44 then
    (if fld w.toNat 0 2 = 3 then s.modPort p fun x => { x with pf0D3hot := true }
      else if fld w.toNat 0 2 = 0 then s.modPort p fun x => { x with pf0D3hot := false } else s)
  else if o = 0x78 then (if bit ones 15 then s.flrPf0 p else s.modCfg p fun x => x.writeDevice w)
  else if o = 0x80 then s.modCfg p fun x => { x with aspmL1 := bit w 1 }
  else if 0x104 ≤ o ∧ o < 0x118 then s.modCfg p fun x => x.writeAer o w ones
  else if o = 0x178 then s.writeSriov p w
  else if o = 0x180 then s.writeNumVfs p (w.setWidth 16)
  else if o = 0x190 then s.writePageSize p w
  else if o = 0x194 then s.writeVfBar p fun x => { x with vfBar0 := both (highWord x.vfBar0) (w &&& 0xFFFF0000) }
  else if o = 0x198 then s.writeVfBar p fun x => { x with vfBar0 := both w (lowWord x.vfBar0) }
  else if o = 0x1A0 then s.writeVfBar p fun x => { x with vfBar2 := both w 0 }
  else if o = 0x358 then s.modCfg p fun x => { x with l1ss := slice w 3 0 }
  else if 0x408 ≤ o ∧ o < 0x600 then s.modCfg p fun x => { x with ideRegs := vset x.ideRegs (asFin 126 ((o - 0x408) / 4)) w }
  else if o = 0x608 then s.modCfg p fun x => { x with l0p := bit w 3 }
  else if o = 0x614 then s.modCfg p fun x => { x with ltr := w }
  else s

/-- R278, R293: MSI-X Enable and Function Mask; where both let a vector send, its pending message goes. -/
def State.writeMsixControl (s : State) (p : PortId) (v : VfId) (w : Word) : State :=
  let x := s.vf p v
  let s1 := if x.msixEnable = bit w 31 ∧ x.msixMask = bit w 30 then s else s.tdiError p v
  s1.modVf p v fun y =>
    let go := (allFin 32).filter fun i => !bit w 30 && bit y.pba i.val && !y.msix[i].masked
    { y with
      msixEnable := bit w 31, msixMask := bit w 30, waitingMsix := y.waitingMsix ++ go
      pba := go.foldl (fun b i => setBit b i.val false) y.pba }

/-- A word of a VF's configuration space written. -/
def State.vfConfigWrite (s : State) (p : PortId) (v : VfId) (o : Nat) (w ones : Word) : State :=
  if o = 4 then (if bit w 2 then s.setBme p v else s.clearBme p v)
  else if o = 0x44 then
    (if fld w.toNat 0 2 = 3 then s.sleepVf p v else if fld w.toNat 0 2 = 0 then s.modVf p v fun x => { x with d3hot := false } else s)
  else if o = 0x50 then s.writeMsixControl p v w
  else if o = 0x78 ∧ bit ones 15 then s.flrVf p v
  else s

/-- R272, R273, R293 to R295, R401, R425: a write of one, two or four bytes of the configuration space. -/
def State.configWrite (s : State) (p : PortId) (vf : Option VfId) (off : BitVec 12) (size : Nat) (value : Word) : State :=
  s.byConfig p fun s =>
    let o := off.toNat / 4 * 4
    let lane := off.toNat % 4
    let put := fun (old : Word) => mergeBytes old lane size value
    if (size ≠ 1 ∧ size ≠ 2 ∧ size ≠ 4) ∨ 4 < lane + size then s
    else match vf with
      | none => s.pfConfigWrite p o (put (s.pfConfigWord p o)) (put 0)
      | some v =>
        if s.vfThere p v && (s.vf p v).resetting && o = 0x78 then s
        else s.vfConfig p v fun s => s.vfConfigWrite p v o (put (s.vfConfigWord p v o)) (put 0)

end Sys2Proof.Machine
end

