-- ==== Sys2Proof/Machine/RegAccess.lean ====
section
/-!
DEFINITION. Reads and writes of registers by their access codes (R5 to R8, R64, R413, R420, R421), and the ways to them
that have rows of their own: the host ports, space 5, the management bus, and the test access port (R409, R410, R414).
-/

namespace Sys2Proof.Machine

/-! ## Reads, R8, R64 -/

def Slice.clearAt (x : Slice) (o : Nat) : Slice :=
  if o = 4 then { x with snoops := 0 } else if o = 8 then { x with np := 0 } else if o = 0xC then { x with staleCount := 0 }
  else if o = 0x10 then { x with recalls := 0 } else if o = 0x14 then { x with snoopTimeouts := 0, ackTimeouts := 0 } else x

/-- The NET block's fields that a read clears. -/
def State.netClear (s : State) (o : Nat) : State :=
  if o = 4 then s.modNet fun n => { n with timeouts := 0 }
  else if o = 8 then s.modNet fun n => { n with dropsRouter := 0, dropsLate := 0 }
  else if o = 0x24 then
    (match s.selectedCount with
      | some c => s.setCount { c with demotedWindows := 0, misses := 0 }
      | none => s)
  else if 0x300 ≤ o ∧ o < 0x328 then
    s.modNet fun n => { n with lath := vmod n.lath (asFin 10 ((o - 0x300) / 4)) fun x => { x with replays := 0 } }
  else s

def State.arrayClear (s : State) (a : ArrayId) (o : Nat) : State :=
  if s.arrays[a].st ≠ 0 then s
  else if o = 8 then s.modCube a fun x => { x with fault := {} }
  else if o = 0x2008 then s.modSeq a fun x => { x with fault := {} }
  else s

def State.stackClear (s : State) (k : StackId) (o : Nat) : State :=
  if !s.stackSeen k o then s
  else if o = 0x14 then s.modStack k fun x => { x with tempMax := 0 }
  else if o = 0x20 then s.modStack k fun x => { x with repairResult := 0 }
  else if o = 0x34 then s.modStack k fun x => { x with pageResult := 0 }
  else s

def State.siteClear (s : State) (n : SiteId) (o : Nat) : State :=
  if o = 0x10 then s.modSite n fun x => { x with maxW := 0 }
  else if o = 0x14 then s.modSite n fun x => { x with replays := 0 }
  else s

def State.fieldClear (s : State) (f : FieldId) (o : Nat) : State :=
  let k := o / 0x100000
  let x := o % 0x100000
  if k < 5 then s.arrayClear (asFin 40 (5 * f.val + k)) x
  else if k = 5 then (if x = 0x14 ∧ !s.fields[f].leftOut then s.modFt f fun y => { y with retireResult := 0 } else s)
  else if k < 9 then s.stackClear (asFin 24 (3 * f.val + (k - 6))) x
  else if k = 0xA then s.siteClear f x
  else s

/-- The fields of access code RC that a read of PF0's window clears; a read of CLK_REF takes a new measurement. -/
def State.pf0Clear (s : State) (off : Nat) : State :=
  let o := off % 0x100000
  match off / 0x100000 with
  | 3 => if o = 0x1914 then s.modPnl fun x => { x with traceLost := 0 } else s
  | 5 =>
    if o = 0x10000 then s.modRas fun x => { x with mlogLost := 0 }
    else if o = 0x30000 then s.modRas fun x => { x with flogLost := 0 } else s
  | 6 => s.netClear o
  | 7 => if 0x100 ≤ o ∧ o < 0x200 then s.modSlice (asFin 8 ((o - 0x100) / 0x20)) fun x => x.clearAt (o % 0x20) else s
  | 8 =>
    if o = 0 ∨ o = 0x40 then s.modTwinPort (asFin 2 (o / 0x40)) fun x => { x with replays := 0 }
    else if o = 0x4004 then s.drawn
    else if o = 0x8008 then s.modPwr fun x => { x with p1Max := 0 }
    else s
  | _ => if 0x1000000 ≤ off ∧ off < 0x9000000 then s.fieldClear (asFin 8 (off / 0x1000000 - 1)) (off % 0x1000000) else s

/-- The fields of access code RC that a read of a VF page clears. -/
def State.vfClear (s : State) (p : PortId) (v : VfId) (o : Nat) : State :=
  if (s.vf p v).bound.isNone then s
  else if 0x1000 ≤ o ∧ o < 0x1400 ∧ o % 0x40 = 0x1C then
    s.modQueue p v (asFin 16 ((o - 0x1000) / 0x40)) fun x => { x with dups := 0, rejects := 0 }
  else if o = 0xE024 then s.modVf p v fun x => { x with stale := 0 }
  else if o = 0xE028 then s.modVf p v fun x => { x with overCount := 0 }
  else s

def State.regClear (s : State) (r : RegAddr) : State :=
  match r with
  | .vf p v o => s.vfClear p v o.toNat
  | .pf0 off => s.pf0Clear off.toNat

/-- R64: the high word latched for a 64-bit register. -/
def State.latchedHigh (s : State) (r : RegAddr) : Option Word := (s.latched.find? fun x => x.1 = r).map (·.2)

def State.latch (s : State) (r : RegAddr) (w : Word) : State :=
  { s with latched := (r, w) :: s.latched.filter fun x => x.1 ≠ r }

def State.unlatch (s : State) (r : RegAddr) : State := { s with latched := s.latched.filter fun x => x.1 ≠ r }

/-- R8, R64: an aligned read of a register, and what it leaves. -/
def State.regRead (s : State) (r : RegAddr) : Word × State :=
  match s.regWide r with
  | some w => (lowWord w, s.latch r (highWord w))
  | none =>
    match s.regWide (lowOf r) with
    | some w => ((s.latchedHigh (lowOf r)).getD (highWord w), s.unlatch (lowOf r))
    | none => (s.regWord r, s.regClear r)

/-- R413: an access that breaks R5, and one to a reserved extent. -/
def State.noteAccess (s : State) (code : Byte) (off : Nat) : State :=
  s.logFault { source := 16, code := code, info := BitVec.ofNat 32 off }

/-- R344: what PF0's window shows in RETIRED. -/
def State.hiddenNow (s : State) : RegAddr → Bool
  | .pf0 off => s.retired && off.toNat / 0x100000 ≠ 0 && off.toNat / 0x100000 ≠ 4
  | .vf .. => false

def isReserved : RegAddr → Bool
  | .pf0 off => reservedExtent off.toNat
  | .vf .. => false

/-- R5, R7, R64, R344, R413: a read as the register interface serves it. -/
def State.busRead (s : State) (r : RegAddr) (size : Nat) : Word × State :=
  if size ≠ 4 ∨ regOffset r % 4 ≠ 0 then (0xFFFFFFFF, s.noteAccess 1 (regOffset r))
  else if isReserved r then (0, s.noteAccess 2 (regOffset r))
  else if s.hiddenNow r then (0, s)
  else s.regRead (s.aim r)

/-! ## Writes of 32-bit registers -/

def State.hpcWrite (s : State) (o : Nat) (value : Word) : State :=
  let p : PortId := asFin 2 (o / 0x100)
  if 0x200 ≤ o then s
  else if o % 0x100 = 4 then s.modPort p fun x => { x with irqStatus := x.irqStatus &&& ~~~(value.setWidth 8 &&& 0xFE) }
  else if o % 0x100 = 8 then s.modPort p fun x => { x with irqEnable := value.setWidth 8 }
  else if o % 0x100 = 0x10 ∧ value.setWidth 16 ≠ 0#16 then s.modPort p fun x => { x with l1Idle := value.setWidth 16 }
  else s

/-- Word `k` of a keyed check. -/
def setMac (m : BitVec 128) (k : Nat) (w : Word) : BitVec 128 :=
  (m &&& ~~~(0xFFFFFFFF#128 <<< (32 * k))) ||| (w.setWidth 128 <<< (32 * k))

def State.imgWrite (s : State) (o : Nat) (value : Word) : State :=
  if o = 8 then s.modImg fun x => { x with length := value }
  else if o = 0xC then s.imgControl value
  else if 0x18 ≤ o ∧ o < 0x28 then s.modImg fun x => { x with mac := setMac x.mac ((o - 0x18) / 4) value }
  else s

/-- A write of PNL_CMD_OP. What the host memory that a command reads holds is a free value here; the commands' own rows
bring it (assumption log 70). -/
def State.cmdWrite (s : State) (value : Word) : State :=
  let data := Config.hostData s.draws
  if !bit value 31 then s.writeCmdOp value
  else
    match fld value.toNat 0 8 with
    | 2 => (s.writeCmdOp value).drawn.opkeyRotate data
    | 3 => (s.writeCmdOp value).panelAuthSet
    | 4 => (s.writeCmdOp value).panelDestroy
    | 5 => (s.writeCmdOp value).drawn.bundleLoad data
    | 6 => (s.writeCmdOp value).commonsDefine
    | 7 => (s.writeCmdOp value).commonsRelease
    | 8 => (s.writeCmdOp value).debugEnable
    | 9 => (s.writeCmdOp value).drawn.panelWrite data
    | 0xA => (s.writeCmdOp value).lifeCycleRequest
    | _ => s.undefinedOp value

/-- A write of PNL_DBG_CONTROL; READ goes before WRITE. -/
def State.dbgWrite (s : State) (value : Word) : State :=
  let s1 := if bit value 31 then s.debugRead else s
  if bit value 30 then s1.debugWrite else s1

/-- R341: a write of PNL_TRACE_HEAD, by R173. -/
def State.traceHeadWrite (s : State) (value : Word) : State :=
  if 2 ^ s.pnl.traceRingLog.toNat < (s.pnl.traceTail - value).toNat then s.note
  else s.modPnl fun x => { x with traceHead := value }

def State.pnlWrite (s : State) (o : Nat) (value : Word) : State :=
  if o = 0 then s.cmdWrite value
  else if 0x10 ≤ o ∧ o < 0x20 then s.modPnl fun x => { x with mac := setMac x.mac ((o - 0x10) / 4) value }
  else if 0x40 ≤ o ∧ o < 0x90 then s.modPnl fun x => { x with args := vset x.args (asFin 20 ((o - 0x40) / 4)) value }
  else if o = 0x114 then s.modPnl fun x => { x with dbgTint := asFin 16 (fld value.toNat 4 4), dustTint := asFin 16 (fld value.toNat 0 4) }
  else if o = 0x1808 then s.dbgWrite value
  else if 0x1840 ≤ o ∧ o < 0x1880 then s.modPnl fun x => { x with dbgData := vset x.dbgData (asFin 16 ((o - 0x1840) / 4)) value }
  else if o = 0x1908 then s.writeTrace value
  else if o = 0x1910 then s.traceHeadWrite value
  else s

/-- A write of PRM_CONTROL; GO goes before ABORT. -/
def State.primerWriteControl (s : State) (n : Fin 8) (value : Word) : State :=
  let s1 :=
    if bit value 31 then s.primerGo n value
    else s.modPrimer n fun x => { x with op := slice value 2 0, tint := asFin 16 (fld value.toNat 24 4) }
  if bit value 30 then s1.primerAbort n else s1

def State.rasWrite (s : State) (o : Nat) (value : Word) : State :=
  if o = 0x10000 then (if bit value 29 then s.modRas fun x => { x with mlogNew := false } else s)
  else if o = 0x10004 then s.mlogPop value
  else if o = 0x10008 then s.modRas fun x => { x with damaged := x.damaged &&& ~~~value }
  else if 0x20000 ≤ o ∧ o < 0x20200 ∧ o % 0x40 = 0x10 then s.primerWriteControl (asFin 8 ((o - 0x20000) / 0x40)) value
  else if o = 0x30000 then s.writeFlogStatus value
  else if o = 0x30004 then s.flogPop value
  else if o = 0x40008 then s.modRas fun x => { x with patchSelect := slice value 16 0 }
  else s

def State.netWrite (s : State) (o : Nat) (value : Word) : State :=
  if o = 0xC then s.netIsolateWrite value
  else if o = 0x10 then s.modNet fun n => { n with stSelect := value &&& 0x1FE0FF }
  else if o = 0x1C then s.modNet fun n => { n with cntSelect := value &&& 0x1FFF }
  else s

def State.pwrWrite (s : State) (o : Nat) (value : Word) : State :=
  if o = 0 then s.writeLimit value
  else if o = 0xC then s.writeTherm value
  else if o = 0x10 then
    s.modPwr fun x => { x with evTherm := x.evTherm && !bit value 2, evCapped := x.evCapped && !bit value 1, evFloor := x.evFloor && !bit value 0 }
  else s

/-- R101: a write of SEQ_CONTROL: HALT acts before RESUME, and RESUME before STEP_ONE; one of them acts. -/
def State.seqControl (s : State) (a : ArrayId) (value : Word) : State :=
  if bit value 0 then s.debugHalt a else if bit value 1 then s.seqResume a else if bit value 2 then s.seqStepOne a else s

def State.arrayWrite (s : State) (a : ArrayId) (o : Nat) (value : Word) : State :=
  if s.arrays[a].st ≠ 0 then s
  else if o = 0xC then s.modCube a fun x => { x with numeric := x.numeric &&& ~~~(value.setWidth 5) }
  else if o = 0x2000 then s.seqControl a value
  else s

def State.ftWrite (s : State) (f : FieldId) (o : Nat) (value : Word) : State :=
  if s.fields[f].leftOut then s
  else if o = 8 then s.modFt f fun x => { x with skimInterval := value.setWidth 16 }
  else if o = 0x10 then s.bankRetire f value
  else s

def State.stackWrite (s : State) (k : StackId) (o : Nat) (value : Word) : State :=
  if !s.stackSeen k o then s
  else if o = 0x10 then s.hbmRetireWrite k value
  else if o = 0x18 then (if bit value 1 then s else s.modStack k fun x => { x with refreshNextMode := slice value 1 0 })
  else if o = 0x1C then s.hbmRepairWrite k value
  else if o = 0x28 then s.modStack k fun x => { x with skimInterval := value.setWidth 16 }
  else if o = 0x30 then s.pageRetire k value
  else if o = 0x38 then s.hbmTestWrite k value
  else s

def State.fieldWrite (s : State) (f : FieldId) (o : Nat) (value : Word) : State :=
  let k := o / 0x100000
  let x := o % 0x100000
  if k < 5 then s.arrayWrite (asFin 40 (5 * f.val + k)) x value
  else if k = 5 then s.ftWrite f x value
  else if k < 9 then s.stackWrite (asFin 24 (3 * f.val + (k - 6))) x value
  else s

/-- A write of LCS_CONTROL. The request that a GO reads, and the fuses that fail to burn, are free values here; the row LCS_GO
brings them (assumption log 70). -/
def State.lcsWrite (s : State) (o : Nat) (value : Word) : State :=
  if o = 0x18 then s.drawn.lcsControl value (Config.hostData s.draws) (Config.burnFails s.draws) else s

def State.pf0Write (s : State) (off : Nat) (value : Word) : State :=
  let o := off % 0x100000
  match off / 0x100000 with
  | 1 => s.hpcWrite o value
  | 2 => s.imgWrite o value
  | 3 => s.pnlWrite o value
  | 4 => s.lcsWrite o value
  | 5 => s.rasWrite o value
  | 6 => s.netWrite o value
  | 8 => if o = 0x88 then s.twinControl value else if 0x8000 ≤ o then s.pwrWrite (o - 0x8000) value else s
  | _ => if 0x1000000 ≤ off ∧ off < 0x9000000 then s.fieldWrite (asFin 8 (off / 0x1000000 - 1)) (off % 0x1000000) value else s

/-- A word of an MSI-X table entry written. -/
def MsixEntry.write (x : MsixEntry) (k : Nat) (value : Word) : MsixEntry :=
  if k = 0 then { x with addr := both (highWord x.addr) (value &&& 0xFFFFFFFC) }
  else if k = 1 then { x with addr := both value (lowWord x.addr) }
  else if k = 2 then { x with data := value }
  else { x with masked := bit value 0 }

/-- R278: a write of the MSI-X table; a vector that is unmasked while its message is pending sends it. -/
def VfState.msixWrite (x : VfState) (i : Fin 32) (k : Nat) (value : Word) : VfState :=
  let y := { x with msix := vmod x.msix i fun e => e.write k value }
  if bit y.pba i.val && !y.msix[i].masked then { y with pba := setBit y.pba i.val false, waitingMsix := y.waitingMsix ++ [i] } else y

/-- A write of a queue's 32-bit register. -/
def State.queueWrite (s : State) (p : PortId) (v : VfId) (q : QueueId) (o : Nat) (value : Word) : State :=
  if o = 0x10 then (if bit value 31 then s.queueEnable p v q value else s.queueDisable p v q value)
  else if o = 0x18 then s.modQueue p v q fun x => if x.enable then x else { x with seqReg := value }
  else s

def State.vfWrite (s : State) (p : PortId) (v : VfId) (o : Nat) (value : Word) : State :=
  if 0x1000 ≤ o ∧ o < 0x1400 then s.queueWrite p v (asFin 16 ((o - 0x1000) / 0x40)) (o % 0x40) value
  else if 0x2000 ≤ o ∧ o < 0x2080 then
    let q : QueueId := asFin 16 ((o - 0x2000) / 8)
    if o % 8 = 0 then s.sqTailWrite p v q value else s.cqHeadWrite p v q value
  else if 0x8000 ≤ o ∧ o < 0x8200 then s.modVf p v fun x => x.msixWrite (asFin 32 ((o - 0x8000) / 16)) (o % 16 / 4) value
  else if o = 0xE008 then s.modVf p v fun x => { x with aperture := slice value 22 0 }
  else if o = 0xE018 then s.fringConfig p v value
  else if o = 0xE020 then s.fringHead p v value
  else if o = 0xE024 then s.modVf p v fun x => { x with overflow := x.overflow && !bit value 31 }
  else if o = 0xE02C then s.modVf p v fun x => { x with arm := x.arm || bit value 0 }
  else if o = 0xE030 then s.faultResume p v value
  else if o = 0xE050 then s.invControl (.page p v) value
  else if o = 0xE090 then s.flushControl (.page p v) value
  else s

def State.mirrorWrite (s : State) (p : PanelId) (o : Nat) (value : Word) : State :=
  if o = 0xE050 then s.invControl (.mirror p) value else if o = 0xE090 then s.flushControl (.mirror p) value else s

/-! ## Writes of 64-bit registers, R6 -/

/-- The fields that INV_BASE, INV_LENGTH, COH_FLUSH_BASE and COH_FLUSH_LENGTH hold. -/
def InvSet.setWide (x : InvSet) (o : Nat) (w : DWord) : InvSet :=
  if o = 0xE040 then { x with base := keepBits w 54 0 } else if o = 0xE048 then { x with length := keepBits w 55 0 } else x
def FlushSet.setWide (x : FlushSet) (o : Nat) (w : DWord) : FlushSet :=
  if o = 0xE080 then { x with base := keepBits w 51 0 } else if o = 0xE088 then { x with length := w } else x

/-- R182, R282: the bases of a VF's rings; discarded while the ring is enabled. -/
def VfState.setWide (x : VfState) (o : Nat) (w : DWord) : VfState :=
  if o = 0xE010 then (if x.fringEnable then x else { x with fringBase := keepBits w 63 12 })
  else { x with inv := x.inv.setWide o w, flush := x.flush.setWide o w }

def QueueState.setWide (x : QueueState) (o : Nat) (w : DWord) : QueueState :=
  if x.enable then x else if o = 0 then { x with sqBase := keepBits w 63 12 } else { x with cqBase := keepBits w 63 12 }

/-- Both words of a 64-bit register applied. -/
def State.wideWrite (s : State) (r : RegAddr) (w : DWord) : State :=
  match r with
  | .vf p v off =>
    let o := off.toNat
    if o < 0x1400 then s.modQueue p v (asFin 16 ((o - 0x1000) / 0x40)) fun x => x.setWide (o % 0x40) w
    else if o = 0xE000 then s.writeRoot p v w
    else s.modVf p v fun x => x.setWide o w
  | .pf0 off =>
    match mirrorAt off.toNat with
    | some (p, o) => s.modPanel p fun x => { x with inv := x.inv.setWide o w, flush := x.flush.setWide o w }
    | none =>
      let o := off.toNat % 0x100000
      match off.toNat / 0x100000 with
      | 2 =>
        if o = 0 then s.modImg fun x => { x with src := keepBits w 51 6 }
        else if o = 0x10 then s.modImg fun x => { x with authCtr := w } else s
      | 3 =>
        if o = 8 then s.modPnl fun x => { x with ctr := w }
        else if o = 0x1800 then s.modPnl fun x => { x with dbgLoc := w }
        else if o = 0x1900 then s.modPnl fun x => { x with traceBase := keepBits w 63 12 } else s
      | 4 => if o = 0x10 then s.modLcs fun x => { x with src := keepBits w 51 6 } else s
      | 5 =>
        let n : Fin 8 := asFin 8 ((o - 0x20000) / 0x40)
        if o % 0x40 = 0 then s.modPrimer n fun x => { x with base := keepBits w 51 0 }
        else if o % 0x40 = 8 then s.modPrimer n fun x => { x with length := w } else s
      | _ => s

/-- Whether an address reaches a register of a VF page through an operator mirror, where it is read only (R182, R236). -/
def viaMirror : RegAddr → RegAddr → Bool
  | .pf0 _, .vf .. => true
  | _, _ => false

/-- R6, R8: an aligned write of a register. -/
def State.regWrite (s : State) (r : RegAddr) (value : Word) : State :=
  if (s.regWide r).isSome then s.holdLow r value
  else if (s.regWide (lowOf r)).isSome then s.wideWrite (lowOf r) (both value (s.lowHeld (lowOf r)))
  else match r with
    | .vf p v o => s.vfWrite p v o.toNat value
    | .pf0 off =>
      match mirrorAt off.toNat with
      | some (p, o) => s.mirrorWrite p o value
      | none => s.pf0Write off.toNat value

/-- Whether a register lies in the page of a VF that is not bound, where writes are discarded (R274). -/
def State.unboundPage (s : State) : RegAddr → Bool
  | .vf p v _ => (s.vf p v).bound.isNone
  | .pf0 _ => false

/-- R5, R7, R274, R344, R413: a write as the register interface serves it. -/
def State.busWrite (s : State) (r : RegAddr) (size : Nat) (value : Word) : State :=
  if size ≠ 4 ∨ regOffset r % 4 ≠ 0 then s.noteAccess 1 (regOffset r)
  else if isReserved r then s.noteAccess 2 (regOffset r)
  else if s.hiddenNow r || s.unboundPage r || viaMirror r (s.aim r) then s
  else s.regWrite r value

/-! ## Through the host ports, R271, R294, R295, R361, R401 -/

/-- R361: the blocks that a package fault leaves readable. -/
def faultReadable (off : Nat) : Bool := off / 0x100000 = 0 || off / 0x100000 = 4 || off / 0x100000 = 5

/-- A read's value sent back. -/
def State.readBack (s : State) (r : RegAddr) (size : Nat) : State :=
  let x := s.busRead r size
  x.2.emit (.regRead r x.1)

/-- R271, R280, R401: a memory request as a port serves it: not while its link is down or before the hub has booted, with
Unsupported Request while the link is slow, and not before the posted writes that came first. -/
def State.byMemory (s : State) (port : PortId) (posted : Bool) (f : State → State) : State :=
  if !s.ports[port].l0 then s
  else if s.ports[port].slow then s.refusedRequest port posted
  else if s.stage ≠ 4 || s.postedWaits port then s
  else f s

/-- R293: a request to a VF page's TEE ranges that an interface in RUN refuses: the MSI-X table and the pending bit array are
not of them. -/
def State.pageRefused (s : State) (p : PortId) (v : VfId) (off : Nat) (tee : Bool) : Bool :=
  s.teeRefused p v tee && !(decide (0x8000 ≤ off ∧ off < 0x8200) || decide (0x9000 ≤ off ∧ off < 0x9004))

/-- A host read of a register. -/
def State.portRead (s : State) (port : PortId) (r : RegAddr) (size : Nat) (tee : Bool) : State :=
  s.byMemory port false fun s => match r with
    | .vf p v o =>
      if p ≠ port then s
      else if !s.vfLive p v || s.pageRefused p v o.toNat tee then (s.noteHost p 0).unsupported p
      else s.readBack r size
    | .pf0 off =>
      if s.ports[port].pf0D3hot || (s.ras.pkgFault.isSome && !faultReadable off.toNat) then (s.noteHost port 0).unsupported port
      else s.readBack r size

/-- LOW_WORD_READ_LATCH, R5, R64, R271, R272, R276, R293, R295, R401, R421: a host read of a register or of the configuration
space. A read of a low word latches the high word; every other register is read by its access code. `tee` tells that the
request came on the interface's IDE stream with the T bit set. -/
def execLowWordReadLatch (req : HostReq) (s : State) : Host.Outcome State Fault Refusal :=
  .next (match req.addr with
    | .reg r => s.portRead req.port r req.size req.tee
    | .cfg vf off => s.configRead req.port vf off)

/-- A host write of a register. -/
def State.portWrite (s : State) (port : PortId) (r : RegAddr) (size : Nat) (tee : Bool) (value : Word) : State :=
  s.byMemory port true fun s => match r with
    | .vf p v o =>
      if p ≠ port then s
      else if !s.vfLive p v || s.vfDust p v then (s.noteHost p 0).aer p 20
      else if s.pageRefused p v o.toNat tee then s.noteHost p 0
      else s.busWrite r size value
    | .pf0 _ =>
      if s.ports[port].pf0D3hot || s.ras.pkgFault.isSome then (s.noteHost port 0).aer port 20 else s.busWrite r size value

/-- REGISTER_WRITE, R5 to R8, R60, R128, R182, R236, R269, R272 to R274, R293, R413, R420. -/
def execRegisterWrite (port : PortId) (place : HostAt) (size : Nat) (value : Word) (s : State) :
    Host.Outcome State Fault Refusal :=
  .next (match place.addr with
    | .reg r => s.portWrite port r size place.tee value
    | .cfg vf off => s.configWrite port vf off size value)

/-- RESERVED_EXTENT_ACCESS, R5, R413. -/
def execReservedExtentAccess (port : PortId) (off : BitVec 28) (kind : SizedAccess) (s : State) :
    Host.Outcome State Fault Refusal :=
  .next (
    if !reservedExtent off.toNat then s
    else if kind.write then s.portWrite port (.pf0 off) kind.size true 0 else s.portRead port (.pf0 off) kind.size true)

/-! ## Through space 5, R414 -/

/-- SPACE5_ACCESS, R5, R6, R105, R414. -/
def execSpace5Access (pa : BitVec 52) (write : Bool) (size : Nat) (value : Word) (s : State) : Host.Outcome State Fault Refusal :=
  .next (
    let r : RegAddr := .pf0 (pa.setWidth 28)
    if s.inReset || paPartner pa || paSpace pa ≠ 5 then s
    else if fld pa.toNat 28 20 ≠ 0 then s.unbackedEvent pa Agent.nobody
    else if write then s.busWrite r size value
    else s.readBack r size)

/-! ## The management bus, R409 -/

/-- R409: the target answers on the bus once it has its address. -/
def State.i3cLive (s : State) : Bool := bit s.pins.pwrgd 0 && s.side.dynAddr.isSome

/-- I3C_DYNAMIC_ADDRESS, R409. -/
def execI3cDynamicAddress (method : I3cAssign) (address : BitVec 7) (s : State) : Host.Outcome State Fault Refusal :=
  .next (
    if !bit s.pins.pwrgd 0 then s
    else s.modSide fun x => { x with dynAddr := some (match method with
      | .setdasa => address
      | .entdaa => address
      | .setaasa => x.staticAddr) })

/-- R409: what the management bus may read. -/
def i3cReadable (off : Nat) : Bool :=
  let k := off / 0x100000
  decide (k = 0 ∨ k = 4 ∨ k = 5) || decide (0x804000 ≤ off ∧ off < 0x80C000) ||
    decide (0x1000000 ≤ off ∧ off < 0x9000000 ∧ 0x600000 ≤ off % 0x1000000 ∧ off % 0x1000000 < 0x900000 ∧ off % 0x100000 = 0x14)

/-- I3C_PRIVATE_WRITE, R406, R409: of 4 bytes, an offset; of 8 bytes, a register and its value. -/
def execI3cPrivateWrite (bytes : List Byte) (s : State) : Host.Outcome State Fault Refusal :=
  .next (
    let off := natOf (bytes.take 4)
    let value := BitVec.ofNat 32 (natOf (bytes.drop 4))
    if !s.i3cLive then s
    else if bytes.length = 4 then s.modSide fun x => { x with offset := BitVec.ofNat 32 off }
    else if bytes.length ≠ 8 || s.inReset then s
    else if off = 0x808000 then s.writeLimit value
    else if off = 0x80800C then s.writeTherm value
    else s.note)

/-- I3C_PRIVATE_READ, R409. -/
def execI3cPrivateRead (s : State) : Host.Outcome State Fault Refusal :=
  .next (
    let off := s.side.offset.toNat
    if !s.i3cLive then s
    else if s.inReset || decide (s.stage.toNat < 2) || !i3cReadable off then s.emit (.i3cData 0xFFFFFFFF)
    else
      let x := s.busRead (.pf0 (BitVec.ofNat 28 off)) 4
      x.2.emit (.i3cData x.1))

/-! ## The test access port, R410 -/

/-- R410: version 1, part 0x9624, the manufacturer's code, and the 1 that IEEE 1149.1 puts in bit 0. -/
def idcode : Word := word (2 ^ 28 + 0x9624 * 2 ^ 12 + Config.manufacturerCode.toNat * 2 + 1)

/-- TAP_INSTRUCTION, R343, R410. -/
def execTapInstruction (instr : TapInstr) (s : State) : Host.Outcome State Fault Refusal :=
  .next (
    if !bit s.pins.pwrgd 0 then s
    else
      let i := match instr with
        | .internalChain => if s.debugOpen then TapInstr.internalChain else .bypass
        | .bypass => .bypass
        | .idcode => .idcode
        | .extest => .extest
        | .sample => .sample
      let s1 := (s.modSide fun x => { x with tap := i }).emit (.tapSelected i)
      if i = .idcode then s1.emit (.tapIdcode idcode) else s1)

end Sys2Proof.Machine
end

