-- ==== Sys2Proof/Machine/Dispatch.lean ====
section
/-!
DEFINITION. The one dispatch: each command to its meaning.
-/

namespace Sys2Proof.Machine

def exec (i : Instr) (s : State) : Host.Outcome State Fault Refusal :=
  match i with
  | .cfold a corrected => Sys2Proof.Machine.execCfold a corrected s
  | .cstream a corrected => Sys2Proof.Machine.execCstream a corrected s
  | .csload a corrected => Sys2Proof.Machine.execCsload a corrected s
  | .passBoundary a => Sys2Proof.Machine.execPassBoundary a s
  | .haltRequest a source => Sys2Proof.Machine.execHaltRequest a source s
  | .drain a => Sys2Proof.Machine.execDrain a s
  | .stationarySlotValid a slot => Sys2Proof.Machine.execStationarySlotValid a slot s
  | .cubeInstructionRetire a => Sys2Proof.Machine.execCubeInstructionRetire a s
  | .arrayHardwareFault a code info => Sys2Proof.Machine.execArrayHardwareFault a code info s
  | .signalForwardWindowEnd a => Sys2Proof.Machine.execSignalForwardWindowEnd a s
  | .arrFaultRead a => Sys2Proof.Machine.execArrFaultRead a s
  | .seqFaultRead a => Sys2Proof.Machine.execSeqFaultRead a s
  | .lowWordReadLatch req => Sys2Proof.Machine.execLowWordReadLatch req s
  | .vectorIssue a core op => Sys2Proof.Machine.execVectorIssue a core op s
  | .vectorLoad a core gather => Sys2Proof.Machine.execVectorLoad a core gather s
  | .vectorStore a core => Sys2Proof.Machine.execVectorStore a core s
  | .vatom a core => Sys2Proof.Machine.execVatom a core s
  | .vmxq a core fmt => Sys2Proof.Machine.execVmxq a core fmt s
  | .vtx a core => Sys2Proof.Machine.execVtx a core s
  | .vtxdone a core => Sys2Proof.Machine.execVtxdone a core s
  | .kernelRetire a launch => Sys2Proof.Machine.execKernelRetire a launch s
  | .scheduleFetch a => Sys2Proof.Machine.execScheduleFetch a s
  | .step a => Sys2Proof.Machine.execStep a s
  | .stepend a => Sys2Proof.Machine.execStepend a s
  | .stepCommit a => Sys2Proof.Machine.execStepCommit a s
  | .signal a => Sys2Proof.Machine.execSignal a s
  | .waitc a => Sys2Proof.Machine.execWaitc a s
  | .loop a => Sys2Proof.Machine.execLoop a s
  | .endloop a => Sys2Proof.Machine.execEndloop a s
  | .dload a => Sys2Proof.Machine.execDload a s
  | .kload a => Sys2Proof.Machine.execKload a s
  | .vlaunch a => Sys2Proof.Machine.execVlaunch a s
  | .move a => Sys2Proof.Machine.execMove a s
  | .moveRetire a channel => Sys2Proof.Machine.execMoveRetire a channel s
  | .endSchedule a => Sys2Proof.Machine.execEndSchedule a s
  | .nop a => Sys2Proof.Machine.execNop a s
  | .semaphoreSignal id => Sys2Proof.Machine.execSemaphoreSignal id s
  | .watchdogExpiry a => Sys2Proof.Machine.execWatchdogExpiry a s
  | .livenessReport a => Sys2Proof.Machine.execLivenessReport a s
  | .arraySilent a => Sys2Proof.Machine.execArraySilent a s
  | .stateCarryReadTimeout a => Sys2Proof.Machine.execStateCarryReadTimeout a s
  | .stepRerun a => Sys2Proof.Machine.execStepRerun a s
  | .seqHalt a => Sys2Proof.Machine.execSeqHalt a s
  | .seqResume a => Sys2Proof.Machine.execSeqResume a s
  | .seqStepOne a => Sys2Proof.Machine.execSeqStepOne a s
  | .invoke port v q => Sys2Proof.Machine.execInvoke port v q s
  | .abort port v q => Sys2Proof.Machine.execAbort port v q s
  | .nopCommand port v q => Sys2Proof.Machine.execNopCommand port v q s
  | .invocationStart port v q => Sys2Proof.Machine.execInvocationStart port v q s
  | .invocationComplete port v q => Sys2Proof.Machine.execInvocationComplete port v q s
  | .invocationTimeout port v q => Sys2Proof.Machine.execInvocationTimeout port v q s
  | .siteEngineSignal n tag array sem inc => Sys2Proof.Machine.execSiteEngineSignal n tag array sem inc s
  | .hbmRead stack pc pick errors => Sys2Proof.Machine.execHbmRead stack pc pick errors s
  | .hbmWrite id => Sys2Proof.Machine.execHbmWrite id s
  | .hbmWriteDrain stack pc => Sys2Proof.Machine.execHbmWriteDrain stack pc s
  | .fastTierAccess f bank errors => Sys2Proof.Machine.execFastTierAccess f bank errors s
  | .networkAtomicPerform id errors => Sys2Proof.Machine.execNetworkAtomicPerform id errors s
  | .conditionalWriteBack key => Sys2Proof.Machine.execConditionalWriteBack key s
  | .refresh stack pc bank postpone makeUp => Sys2Proof.Machine.execRefresh stack pc bank postpone makeUp s
  | .hbmTempReadout stack temp => Sys2Proof.Machine.execHbmTempReadout stack temp s
  | .hbmRepair stack value => Sys2Proof.Machine.execHbmRepair stack value s
  | .softRepairDone stack resourceLeft => Sys2Proof.Machine.execSoftRepairDone stack resourceLeft s
  | .stackTrainingAttempt stack => Sys2Proof.Machine.execStackTrainingAttempt stack s
  | .trainingStageDone stack passed failing => Sys2Proof.Machine.execTrainingStageDone stack passed failing s
  | .trainingAttemptTimeout stack => Sys2Proof.Machine.execTrainingAttemptTimeout stack s
  | .stackFillDone stack => Sys2Proof.Machine.execStackFillDone stack s
  | .fastTierFillDone f => Sys2Proof.Machine.execFastTierFillDone f s
  | .hbmRetire stack value => Sys2Proof.Machine.execHbmRetire stack value s
  | .hbmTestRetrain stack value => Sys2Proof.Machine.execHbmTestRetrain stack value s
  | .hbmTestSelftest stack value => Sys2Proof.Machine.execHbmTestSelftest stack value s
  | .stackSelftestDone stack passed => Sys2Proof.Machine.execStackSelftestDone stack passed s
  | .hbmTestRate8g stack value => Sys2Proof.Machine.execHbmTestRate8g stack value s
  | .skimHbmStrip stack errors => Sys2Proof.Machine.execSkimHbmStrip stack errors s
  | .skimFtRow f errors => Sys2Proof.Machine.execSkimFtRow f errors s
  | .primerZero slot value words => Sys2Proof.Machine.execPrimerZero slot value words s
  | .primerCheck slot value words errors => Sys2Proof.Machine.execPrimerCheck slot value words errors s
  | .primerSummarise slot value words errors => Sys2Proof.Machine.execPrimerSummarise slot value words errors s
  | .primerMark slot value words => Sys2Proof.Machine.execPrimerMark slot value words s
  | .primerAbort slot => Sys2Proof.Machine.execPrimerAbort slot s
  | .primerDone slot => Sys2Proof.Machine.execPrimerDone slot s
  | .rasMlogPop value => Sys2Proof.Machine.execRasMlogPop value s
  | .hbmPageRetire stack value => Sys2Proof.Machine.execHbmPageRetire stack value s
  | .pageCopyDone stack => Sys2Proof.Machine.execPageCopyDone stack s
  | .ftBankRetire f value => Sys2Proof.Machine.execFtBankRetire f value s
  | .bankCopyDone f => Sys2Proof.Machine.execBankCopyDone f s
  | .pageWalk f panel va access asker => Sys2Proof.Machine.execPageWalk f panel va access asker s
  | .walkLevelRead f walk errors => Sys2Proof.Machine.execWalkLevelRead f walk errors s
  | .midtileFault a va => Sys2Proof.Machine.execMidtileFault a va s
  | .faultRecordWrite panel => Sys2Proof.Machine.execFaultRecordWrite panel s
  | .fringHeadWrite port v value => Sys2Proof.Machine.execFringHeadWrite port v value s
  | .fringEnable port v value => Sys2Proof.Machine.execFringEnable port v value s
  | .fringArm port v value => Sys2Proof.Machine.execFringArm port v value s
  | .faultResumeRetry port v value => Sys2Proof.Machine.execFaultResumeRetry port v value s
  | .faultResumeAbort port v value => Sys2Proof.Machine.execFaultResumeAbort port v value s
  | .trRootWrite port v high => Sys2Proof.Machine.execTrRootWrite port v high s
  | .invalidationGo set value => Sys2Proof.Machine.execInvalidationGo set value s
  | .engineInvalidationAck set engine => Sys2Proof.Machine.execEngineInvalidationAck set engine s
  | .invalidationForce set => Sys2Proof.Machine.execInvalidationForce set s
  | .networkRequestInject req => Sys2Proof.Machine.execNetworkRequestInject req s
  | .networkDelivery id => Sys2Proof.Machine.execNetworkDelivery id s
  | .networkResponse id nclk => Sys2Proof.Machine.execNetworkResponse id nclk s
  | .routerDiscard id f => Sys2Proof.Machine.execRouterDiscard id f s
  | .budgetWindowOpen f ni injection => Sys2Proof.Machine.execBudgetWindowOpen f ni injection s
  | .transactionTimeout id => Sys2Proof.Machine.execTransactionTimeout id s
  | .atomicResend id => Sys2Proof.Machine.execAtomicResend id s
  | .dedupEntryExpiry f ni id => Sys2Proof.Machine.execDedupEntryExpiry f ni id s
  | .tagQuarantineEnd id => Sys2Proof.Machine.execTagQuarantineEnd id s
  | .trunkHashChange boundary => Sys2Proof.Machine.execTrunkHashChange boundary s
  | .lathFlitReceive boundary link dir seq crcOk => Sys2Proof.Machine.execLathFlitReceive boundary link dir seq crcOk s
  | .lathReplay boundary link dir => Sys2Proof.Machine.execLathReplay boundary link dir s
  | .lathLinkRetire boundary link => Sys2Proof.Machine.execLathLinkRetire boundary link s
  | .lathSpareInService boundary link => Sys2Proof.Machine.execLathSpareInService boundary link s
  | .groutSinkAnswer id => Sys2Proof.Machine.execGroutSinkAnswer id s
  | .timeoutIsolation f ni => Sys2Proof.Machine.execTimeoutIsolation f ni s
  | .netIsolate value => Sys2Proof.Machine.execNetIsolate value s
  | .cohRds agent ask => Sys2Proof.Machine.execCohRds agent ask s
  | .cohRdx agent ask => Sys2Proof.Machine.execCohRdx agent ask s
  | .cohUpg agent ask => Sys2Proof.Machine.execCohUpg agent ask s
  | .cohInvx agent ask => Sys2Proof.Machine.execCohInvx agent ask s
  | .cohRdc id pa => Sys2Proof.Machine.execCohRdc id pa s
  | .cohWrl id pa word => Sys2Proof.Machine.execCohWrl id pa word s
  | .cohFlushl id pa => Sys2Proof.Machine.execCohFlushl id pa s
  | .cohAtomic id pa op off operand compare => Sys2Proof.Machine.execCohAtomic id pa op off operand compare s
  | .cohWb agent pa tag tint => Sys2Proof.Machine.execCohWb agent pa tag tint s
  | .cohEvc agent pa => Sys2Proof.Machine.execCohEvc agent pa s
  | .cxlDirtyEvict n pa word => Sys2Proof.Machine.execCxlDirtyEvict n pa word s
  | .cxlCacheRequest n req pa word tag => Sys2Proof.Machine.execCxlCacheRequest n req pa word tag s
  | .snoopSnps agent pa => Sys2Proof.Machine.execSnoopSnps agent pa s
  | .snoopSnpi agent pa => Sys2Proof.Machine.execSnoopSnpi agent pa s
  | .snoopSnpc agent pa => Sys2Proof.Machine.execSnoopSnpc agent pa s
  | .snoopResponse agent pa => Sys2Proof.Machine.execSnoopResponse agent pa s
  | .cohCmpReceive agent pa => Sys2Proof.Machine.execCohCmpReceive agent pa s
  | .cohAck src => Sys2Proof.Machine.execCohAck src s
  | .cohHold pa => Sys2Proof.Machine.execCohHold pa s
  | .snoopTimeout agent pa => Sys2Proof.Machine.execSnoopTimeout agent pa s
  | .ackTimeout pa => Sys2Proof.Machine.execAckTimeout pa s
  | .staleEntryExpiry f index => Sys2Proof.Machine.execStaleEntryExpiry f index s
  | .agentDead agent => Sys2Proof.Machine.execAgentDead agent s
  | .cohFlushGo set value => Sys2Proof.Machine.execCohFlushGo set value s
  | .cohFlushDone set => Sys2Proof.Machine.execCohFlushDone set s
  | .siteBringupAttempt n answered => Sys2Proof.Machine.execSiteBringupAttempt n answered s
  | .siteLinkTrained n modules rate => Sys2Proof.Machine.execSiteLinkTrained n modules rate s
  | .siteAttemptTimeout n => Sys2Proof.Machine.execSiteAttemptTimeout n s
  | .desc n payload => Sys2Proof.Machine.execDesc n payload s
  | .siteInService n => Sys2Proof.Machine.execSiteInService n s
  | .live n payload => Sys2Proof.Machine.execLive n payload s
  | .liveTimeout n => Sys2Proof.Machine.execLiveTimeout n s
  | .bind n tag => Sys2Proof.Machine.execBind n tag s
  | .bound n tag => Sys2Proof.Machine.execBound n tag s
  | .boundTimeout n tag => Sys2Proof.Machine.execBoundTimeout n tag s
  | .unbind n tag => Sys2Proof.Machine.execUnbind n tag s
  | .cleared n tag => Sys2Proof.Machine.execCleared n tag s
  | .clearedTimeout n tag => Sys2Proof.Machine.execClearedTimeout n tag s
  | .sitePowerSample n sample average => Sys2Proof.Machine.execSitePowerSample n sample average s
  | .siteAdapterRetryTimeout x => Sys2Proof.Machine.execSiteAdapterRetryTimeout x s
  | .siteRetrainDone n modules passed => Sys2Proof.Machine.execSiteRetrainDone n modules passed s
  | .siteDeath n code => Sys2Proof.Machine.execSiteDeath n code s
  | .siteRailRemoval n => Sys2Proof.Machine.execSiteRailRemoval n s
  | .credit n header => Sys2Proof.Machine.execCredit n header s
  | .endpointWrite n id endpoint offset words => Sys2Proof.Machine.execEndpointWrite n id endpoint offset words s
  | .siteRd n header => Sys2Proof.Machine.execSiteRd n header s
  | .siteWr n header words => Sys2Proof.Machine.execSiteWr n header words s
  | .siteAt n header operand compare => Sys2Proof.Machine.execSiteAt n header operand compare s
  | .siteSig n header => Sys2Proof.Machine.execSiteSig n header s
  | .siteSignalToEngine id => Sys2Proof.Machine.execSiteSignalToEngine id s
  | .siteResponse n header words => Sys2Proof.Machine.execSiteResponse n header words s
  | .siteRequestTimeout n tag => Sys2Proof.Machine.execSiteRequestTimeout n tag s
  | .cohReq n agent header word => Sys2Proof.Machine.execCohReq n agent header word s
  | .cohRsp n agent header word => Sys2Proof.Machine.execCohRsp n agent header word s
  | .cxlUnsupported n cls => Sys2Proof.Machine.execCxlUnsupported n cls s
  | .linkTraining port rate width flit => Sys2Proof.Machine.execLinkTraining port rate width flit s
  | .linkSpeedReached port rate => Sys2Proof.Machine.execLinkSpeedReached port rate s
  | .linkDown port => Sys2Proof.Machine.execLinkDown port s
  | .intaLevelChange port => Sys2Proof.Machine.execIntaLevelChange port s
  | .msiXSend port v vector => Sys2Proof.Machine.execMsiXSend port v vector s
  | .aspmL1Entry port substate => Sys2Proof.Machine.execAspmL1Entry port substate s
  | .l0pNarrow port => Sys2Proof.Machine.execL0pNarrow port s
  | .linkPmExit port => Sys2Proof.Machine.execLinkPmExit port s
  | .sqTail port v q value => Sys2Proof.Machine.execSqTail port v q value s
  | .cqHead port v q value => Sys2Proof.Machine.execCqHead port v q value s
  | .queueEnable port v q value => Sys2Proof.Machine.execQueueEnable port v q value s
  | .queueDisable port v q value => Sys2Proof.Machine.execQueueDisable port v q value s
  | .commandTake port v q => Sys2Proof.Machine.execCommandTake port v q s
  | .completionWrite port v q => Sys2Proof.Machine.execCompletionWrite port v q s
  | .hostReadCompletion port read result => Sys2Proof.Machine.execHostReadCompletion port read result s
  | .hostReadTimeout port read => Sys2Proof.Machine.execHostReadTimeout port read s
  | .commandReadRetry port v q => Sys2Proof.Machine.execCommandReadRetry port v q s
  | .bar2Read port v place bytes => Sys2Proof.Machine.execBar2Read port v place bytes s
  | .bar2Write port v place poisoned bytes => Sys2Proof.Machine.execBar2Write port v place poisoned bytes s
  | .inboundUnsupported port posted => Sys2Proof.Machine.execInboundUnsupported port posted s
  | .spdmRequest port req => Sys2Proof.Machine.execSpdmRequest port req s
  | .ideKm port stream key => Sys2Proof.Machine.execIdeKm port stream key s
  | .lockInterface port v => Sys2Proof.Machine.execLockInterface port v s
  | .panelKeySet port v key => Sys2Proof.Machine.execPanelKeySet port v key s
  | .startInterface port v => Sys2Proof.Machine.execStartInterface port v s
  | .stopInterface port v => Sys2Proof.Machine.execStopInterface port v s
  | .tdiError port v event => Sys2Proof.Machine.execTdiError port v event s
  | .flr port v => Sys2Proof.Machine.execFlr port v s
  | .functionResetComplete port v => Sys2Proof.Machine.execFunctionResetComplete port v s
  | .bmeClear port v => Sys2Proof.Machine.execBmeClear port v s
  | .vfEnableClear port => Sys2Proof.Machine.execVfEnableClear port s
  | .d3hotEntry port vf => Sys2Proof.Machine.execD3hotEntry port vf s
  | .pf0Flr port => Sys2Proof.Machine.execPf0Flr port s
  | .hotReset port => Sys2Proof.Machine.execHotReset port s
  | .numvfsWrite port value => Sys2Proof.Machine.execNumvfsWrite port value s
  | .imgGo value => Sys2Proof.Machine.execImgGo value s
  | .imageReadDone result => Sys2Proof.Machine.execImageReadDone result s
  | .imageWaitEnd expired => Sys2Proof.Machine.execImageWaitEnd expired s
  | .imageCheckDone => Sys2Proof.Machine.execImageCheckDone s
  | .baseImageApply => Sys2Proof.Machine.execBaseImageApply s
  | .panelCreateApply => Sys2Proof.Machine.execPanelCreateApply s
  | .panelDestroyApply => Sys2Proof.Machine.execPanelDestroyApply s
  | .panelRebindApply => Sys2Proof.Machine.execPanelRebindApply s
  | .imageBindingDone => Sys2Proof.Machine.execImageBindingDone s
  | .dustHaltEnd p => Sys2Proof.Machine.execDustHaltEnd p s
  | .dustUnbindEnd p => Sys2Proof.Machine.execDustUnbindEnd p s
  | .dustFlushEnd p => Sys2Proof.Machine.execDustFlushEnd p s
  | .dustKeysEnd p => Sys2Proof.Machine.execDustKeysEnd p s
  | .dustZeroEnd p => Sys2Proof.Machine.execDustZeroEnd p s
  | .dustReleaseEnd p => Sys2Proof.Machine.execDustReleaseEnd p s
  | .sealedFillDone p => Sys2Proof.Machine.execSealedFillDone p s
  | .opkeyRotate block => Sys2Proof.Machine.execOpkeyRotate block s
  | .panelAuthSet => Sys2Proof.Machine.execPanelAuthSet s
  | .panelDestroy => Sys2Proof.Machine.execPanelDestroy s
  | .bundleLoad bundle => Sys2Proof.Machine.execBundleLoad bundle s
  | .commonsDefine => Sys2Proof.Machine.execCommonsDefine s
  | .commonsRelease => Sys2Proof.Machine.execCommonsRelease s
  | .debugEnable => Sys2Proof.Machine.execDebugEnable s
  | .panelWrite data => Sys2Proof.Machine.execPanelWrite data s
  | .lifeCycleMailboxRequest => Sys2Proof.Machine.execLifeCycleMailboxRequest s
  | .debugRead => Sys2Proof.Machine.execDebugRead s
  | .debugWrite => Sys2Proof.Machine.execDebugWrite s
  | .traceEnable value => Sys2Proof.Machine.execTraceEnable value s
  | .lcsGo value request burnFails => Sys2Proof.Machine.execLcsGo value request burnFails s
  | .rasFlogPop value => Sys2Proof.Machine.execRasFlogPop value s
  | .flogSevereClear value => Sys2Proof.Machine.execFlogSevereClear value s
  | .patchStoreWrite => Sys2Proof.Machine.execPatchStoreWrite s
  | .packageFault source code => Sys2Proof.Machine.execPackageFault source code s
  | .twinTraining k lanes => Sys2Proof.Machine.execTwinTraining k lanes s
  | .twinLaneRetire k lane => Sys2Proof.Machine.execTwinLaneRetire k lane s
  | .twinSpareInService k lane => Sys2Proof.Machine.execTwinSpareInService k lane s
  | .twinPortDark k => Sys2Proof.Machine.execTwinPortDark k s
  | .twinFlitReceive k seq ack crcOk => Sys2Proof.Machine.execTwinFlitReceive k seq ack crcOk s
  | .twinReplay k => Sys2Proof.Machine.execTwinReplay k s
  | .twinRetrain k => Sys2Proof.Machine.execTwinRetrain k s
  | .twinRd k header => Sys2Proof.Machine.execTwinRd k header s
  | .twinWr k header words => Sys2Proof.Machine.execTwinWr k header words s
  | .twinAt k header operand compare => Sys2Proof.Machine.execTwinAt k header operand compare s
  | .twinSig k header => Sys2Proof.Machine.execTwinSig k header s
  | .twinResponse k header words => Sys2Proof.Machine.execTwinResponse k header words s
  | .twinRemoteBound k id => Sys2Proof.Machine.execTwinRemoteBound k id s
  | .twinLocalBound k id => Sys2Proof.Machine.execTwinLocalBound k id s
  | .level k payload => Sys2Proof.Machine.execLevel k payload s
  | .keyx k part last bytes => Sys2Proof.Machine.execKeyx k part last bytes s
  | .ckpt k header words => Sys2Proof.Machine.execCkpt k header words s
  | .ckptMark k header epoch => Sys2Proof.Machine.execCkptMark k header epoch s
  | .ckptAck k header epoch => Sys2Proof.Machine.execCkptAck k header epoch s
  | .bindQuery k header payload => Sys2Proof.Machine.execBindQuery k header payload s
  | .bindReply k header payload => Sys2Proof.Machine.execBindReply k header payload s
  | .heart k fatal count => Sys2Proof.Machine.execHeart k fatal count s
  | .heartSend k => Sys2Proof.Machine.execHeartSend k s
  | .heartSilence => Sys2Proof.Machine.execHeartSilence s
  | .twinPortReturn k => Sys2Proof.Machine.execTwinPortReturn k s
  | .seed value => Sys2Proof.Machine.execSeed value s
  | .seedScanDone b => Sys2Proof.Machine.execSeedScanDone b s
  | .seedQueryTimeout => Sys2Proof.Machine.execSeedQueryTimeout s
  | .promote value => Sys2Proof.Machine.execPromote value s
  | .unfence value => Sys2Proof.Machine.execUnfence value s
  | .fence value => Sys2Proof.Machine.execFence value s
  | .pwrgdRise pin => Sys2Proof.Machine.execPwrgdRise pin s
  | .pwrgdFall pin => Sys2Proof.Machine.execPwrgdFall pin s
  | .pkgResetAssert => Sys2Proof.Machine.execPkgResetAssert s
  | .pkgResetRelease => Sys2Proof.Machine.execPkgResetRelease s
  | .perstAssert port => Sys2Proof.Machine.execPerstAssert port s
  | .perstRelease port => Sys2Proof.Machine.execPerstRelease port s
  | .bootStageDone passed => Sys2Proof.Machine.execBootStageDone passed s
  | .siteEnSlot => Sys2Proof.Machine.execSiteEnSlot s
  | .sitePgRise n => Sys2Proof.Machine.execSitePgRise n s
  | .sitePgWaitTimeout n => Sys2Proof.Machine.execSitePgWaitTimeout n s
  | .sitePgFall n => Sys2Proof.Machine.execSitePgFall n s
  | .refclkLoss => Sys2Proof.Machine.execRefclkLoss s
  | .pllLockLoss pll => Sys2Proof.Machine.execPllLockLoss pll s
  | .powerSample p1 p10 tenMicroseconds belowFor100 floorFor10ms => Sys2Proof.Machine.execPowerSample p1 p10 tenMicroseconds belowFor100 floorFor10ms s
  | .tempSample sensors hotFor1ms => Sys2Proof.Machine.execTempSample sensors hotFor1ms s
  | .pwrLimitWrite value => Sys2Proof.Machine.execPwrLimitWrite value s
  | .pwrThermWrite value => Sys2Proof.Machine.execPwrThermWrite value s
  | .i3cPrivateWrite bytes => Sys2Proof.Machine.execI3cPrivateWrite bytes s
  | .i3cPrivateRead => Sys2Proof.Machine.execI3cPrivateRead s
  | .i3cDynamicAddress method address => Sys2Proof.Machine.execI3cDynamicAddress method address s
  | .tapInstruction instr => Sys2Proof.Machine.execTapInstruction instr s
  | .registerWrite port place size value => Sys2Proof.Machine.execRegisterWrite port place size value s
  | .reservedExtentAccess port off kind => Sys2Proof.Machine.execReservedExtentAccess port off kind s
  | .space5Access pa write size value => Sys2Proof.Machine.execSpace5Access pa write size value s
  | .twinRetrainDone k passed => Sys2Proof.Machine.execTwinRetrainDone k passed s
  | .fieldSelfTestDone f => Sys2Proof.Machine.execFieldSelfTestDone f s
  | .wback agent pa => Sys2Proof.Machine.execWback agent pa s
  | .coreHardwareFault a core => Sys2Proof.Machine.execCoreHardwareFault a core s
  | .moverHardwareFault a channel => Sys2Proof.Machine.execMoverHardwareFault a channel s
  | .busMasterEnableSet port v => Sys2Proof.Machine.execBusMasterEnableSet port v s
  | .undefinedMailboxOp value => Sys2Proof.Machine.execUndefinedMailboxOp value s

end Sys2Proof.Machine
end

