-- ==== Sys2Proof/Machine/Tick.lean ====
section
/-!
DEFINITION. What the block does when no command waits (assumption log 1).
-/

namespace Sys2Proof.Machine

/-- DESIGN CHOICE (assumption log 1): one period of SCLK. The free-running count advances, and the mirror queues of the
twin ports drain (R381, R399); in reset nothing runs. -/
def State.tick (s : State) : State := if s.inReset then s else { s.drainMirrors with sclk := s.sclk + 1 }

end Sys2Proof.Machine
end

