-- ==== Sys2Proof/Safety.lean ====
section
/-!
DEFINITION. What holds of a sound state, and what every step of the machine keeps.
-/

namespace Sys2Proof.Machine

/-- R402, R406: the power limit, the throttle threshold and the issue allowance stay in the manual's ranges. -/
def PwrState.InRange (x : PwrState) : Prop :=
  1500 ≤ x.limit.toNat ∧ x.limit.toNat ≤ 4300 ∧ 80 ≤ x.throtC.toNat ∧ x.throtC.toNat ≤ 105 ∧ 8 ≤ x.d.toNat ∧ x.d.toNat ≤ 64

/-- R147, R362: neither log of the RAS block holds more than 1,024 entries. -/
def RasState.InRange (x : RasState) : Prop := x.mlog.length ≤ 1024 ∧ x.flog.length ≤ 1024

/-- A sound state: the stored words are in their canonical form, and the two parts above are in range. -/
structure State.Sound (s : State) : Prop where
  mem : Mem.wf s.mem = true
  pwr : s.pwr.InRange
  ras : s.ras.InRange

/-- R302, R332, R346, R347, R364: what fuses and monotonic stores never lose: a burned bit, a counter's value, the lowest
SVN accepted, a stored patch record, and the identity. -/
structure Fuses.Rises (f g : Fuses) : Prop where
  bits : ∀ b : FuseBit, f.isSet b = true → g.isSet b = true
  vendor : f.ctrVendor.toNat ≤ g.ctrVendor.toNat
  operator : f.ctrOperator.toNat ≤ g.ctrOperator.toNat
  svn : f.svnMin.toNat ≤ g.svnMin.toNat
  patches : f.patches <+: g.patches
  identity : g.identity = f.identity

/-- The parts of a state that commands change: its fields, with those of the boot sequencer as one part. -/
inductive Piece where
  | fuse | boot | sclk | pins | side | siteSlot | arrays | fields | hbm | mem | net | coh | sites | ports | img | pnl
  | lcs | ras | twin | lines | clk | pwr | heldLow | latched | draws | out
  deriving DecidableEq, Repr

/-- Piece `p` stands in `t` as in `s`. -/
def State.Same (s : State) (p : Piece) (t : State) : Prop :=
  match p with
  | .fuse => t.fuse = s.fuse
  | .boot => t.inReset = s.inReset ∧ t.retired = s.retired ∧ t.stage = s.stage ∧ t.bootMs = s.bootMs
  | .sclk => t.sclk = s.sclk
  | .pins => t.pins = s.pins
  | .side => t.side = s.side
  | .siteSlot => t.siteSlot = s.siteSlot
  | .arrays => t.arrays = s.arrays
  | .fields => t.fields = s.fields
  | .hbm => t.hbm = s.hbm
  | .mem => t.mem = s.mem
  | .net => t.net = s.net
  | .coh => t.coh = s.coh
  | .sites => t.sites = s.sites
  | .ports => t.ports = s.ports
  | .img => t.img = s.img
  | .pnl => t.pnl = s.pnl
  | .lcs => t.lcs = s.lcs
  | .ras => t.ras = s.ras
  | .twin => t.twin = s.twin
  | .lines => t.lines = s.lines
  | .clk => t.clk = s.clk
  | .pwr => t.pwr = s.pwr
  | .heldLow => t.heldLow = s.heldLow
  | .latched => t.latched = s.latched
  | .draws => t.draws = s.draws
  | .out => t.out = s.out

/-- What stands between a state and a state that a command leaves: no part outside `P` has changed, the queue of commands
is untouched, nothing that has been sent is taken back, soundness is kept, and fuses only rise. -/
structure State.Leads (s : State) (P : Piece → Prop) (t : State) : Prop where
  parts : ∀ p, ¬ P p → s.Same p t
  queue : t.pending = s.pending
  sent : s.out <:+ t.out
  fuse : s.fuse.Rises t.fuse
  mem : Mem.wf s.mem = true → Mem.wf t.mem = true
  pwr : s.pwr.InRange → t.pwr.InRange
  ras : s.ras.InRange → t.ras.InRange

end Sys2Proof.Machine
end

