-- ==== Sys2Proof/Frames.lean ====
section
/-!
DEFINITION. The frame of every command: the parts of the state that it may change.
-/

namespace Sys2Proof.Machine

/-- Which parts of the state each command may change. -/
def touches : Instr → List Piece
  | .cfold .. | .cstream .. | .csload .. | .drain .. | .vectorLoad .. | .scheduleFetch .. | .dload ..
  | .move .. | .moveRetire .. | .faultResumeRetry .. | .faultResumeAbort .. =>
    [.arrays, .fields, .hbm, .mem, .net, .coh, .ports, .pnl, .ras, .twin, .lines, .draws, .out]
  | .passBoundary .. | .stationarySlotValid .. | .kload .. =>
    [.arrays, .fields, .hbm, .mem, .net, .coh, .pnl, .ras, .twin, .lines, .draws, .out]
  | .haltRequest .. | .seqHalt .. => [.arrays, .pnl]
  | .cubeInstructionRetire .. | .kernelRetire .. | .waitc .. | .nop .. | .seqResume .. | .seqStepOne .. =>
    [.arrays, .pnl, .out]
  | .arrayHardwareFault .. | .signal .. | .semaphoreSignal .. | .arraySilent .. | .coreHardwareFault ..
  | .moverHardwareFault .. => [.arrays, .net, .ports, .pnl, .ras, .out]
  | .signalForwardWindowEnd .. | .budgetWindowOpen .. | .atomicResend .. | .dedupEntryExpiry ..
  | .lathSpareInService .. => [.net]
  | .arrFaultRead .. | .seqFaultRead .. => [.arrays, .out]
  | .lowWordReadLatch .. | .i3cPrivateRead =>
    [.arrays, .fields, .hbm, .net, .coh, .sites, .ports, .pnl, .ras, .twin, .pwr, .latched, .draws, .out]
  | .vectorIssue .. | .vmxq .. | .vtxdone .. | .step .. | .stepend .. | .loop .. | .endloop ..
  | .watchdogExpiry .. | .siteEngineSignal .. => [.arrays, .ports, .pnl, .ras, .out]
  | .vectorStore .. => [.arrays, .fields, .hbm, .mem, .net, .coh, .ports, .pnl, .ras, .twin, .draws, .out]
  | .vatom .. => [.arrays, .fields, .hbm, .mem, .net, .ports, .pnl, .ras, .draws, .out]
  | .vtx .. => [.arrays, .ports, .pnl, .ras, .draws, .out]
  | .stepCommit .. => [.arrays, .net, .ports, .pnl, .out]
  | .vlaunch .. | .livenessReport .. | .stepRerun .. => [.arrays]
  | .endSchedule .. | .tdiError .. | .flr .. | .functionResetComplete .. | .bmeClear .. | .vfEnableClear ..
  | .d3hotEntry .. | .pf0Flr .. | .busMasterEnableSet .. => [.arrays, .ports, .pnl, .out]
  | .stateCarryReadTimeout .. | .invocationTimeout .. | .stopInterface .. => [.arrays, .ports, .pnl]
  | .invoke .. | .bar2Read .. => [.fields, .hbm, .mem, .net, .coh, .ports, .pnl, .ras, .twin, .lines, .draws, .out]
  | .abort .. => [.arrays, .ports, .pnl, .twin, .out]
  | .nopCommand .. | .linkTraining .. | .linkSpeedReached .. | .intaLevelChange .. | .msiXSend ..
  | .aspmL1Entry .. | .l0pNarrow .. | .linkPmExit .. | .completionWrite .. | .commandReadRetry ..
  | .lockInterface .. | .numvfsWrite .. => [.ports, .out]
  | .invocationStart .. => [.arrays, .coh, .ports, .twin, .out]
  | .invocationComplete .. => [.arrays, .ports, .twin, .out]
  | .hbmRead .. => [.fields, .hbm, .mem, .net, .ras]
  | .hbmWrite .. => [.hbm, .net, .ras, .twin]
  | .hbmWriteDrain .. => [.hbm, .mem, .ras]
  | .fastTierAccess .. | .networkAtomicPerform .. => [.fields, .hbm, .mem, .net, .ras, .twin]
  | .conditionalWriteBack .. => [.mem, .ras]
  | .refresh .. | .stackTrainingAttempt .. | .stackSelftestDone .. => [.hbm]
  | .hbmTempReadout .. | .trainingAttemptTimeout .. => [.hbm, .net, .ports, .ras, .pwr, .out]
  | .hbmRepair .. => [.hbm, .net, .ras, .out]
  | .softRepairDone .. => [.fuse, .fields, .hbm, .mem, .ras]
  | .trainingStageDone .. => [.fuse, .hbm, .net, .ports, .ras, .pwr, .out]
  | .stackFillDone .. => [.hbm, .mem, .net, .ports, .ras]
  | .fastTierFillDone .. => [.fields, .mem, .ports, .ras]
  | .hbmRetire .. | .hbmPageRetire .. => [.hbm, .ras, .out]
  | .hbmTestRetrain .. | .hbmTestSelftest .. | .hbmTestRate8g .. => [.hbm, .net, .ports, .ras, .out]
  | .skimHbmStrip .. | .skimFtRow .. => [.fields, .hbm, .mem, .ras]
  | .primerZero .. | .primerMark .. => [.hbm, .mem, .net, .ras, .twin, .out]
  | .primerCheck .. | .primerSummarise .. => [.fields, .hbm, .mem, .net, .ras, .out]
  | .primerAbort .. | .primerDone .. | .rasMlogPop .. | .rasFlogPop .. => [.ras]
  | .pageCopyDone .. | .bankCopyDone .. => [.fields, .hbm, .mem, .ras, .out]
  | .ftBankRetire .. => [.fields, .ras, .out]
  | .pageWalk .. => [.arrays, .fields, .pnl]
  | .walkLevelRead .. | .midtileFault .. => [.arrays, .fields, .hbm, .mem, .net, .pnl, .ras, .draws, .out]
  | .faultRecordWrite .. | .commandTake .. | .startInterface .. => [.ports, .pnl, .out]
  | .fringHeadWrite .. | .fringEnable .. | .lifeCycleMailboxRequest | .undefinedMailboxOp .. =>
    [.ports, .pnl, .ras, .out]
  | .fringArm .. | .trRootWrite .. | .sqTail .. | .cqHead .. | .queueEnable .. | .inboundUnsupported .. =>
    [.ports, .ras, .out]
  | .invalidationGo .. => [.fields, .ports, .pnl, .ras, .out]
  | .engineInvalidationAck .. | .cohFlushDone .. => [.ports, .pnl]
  | .invalidationForce .. | .timeoutIsolation .. | .netIsolate .. | .siteBringupAttempt ..
  | .siteLinkTrained .. | .siteAttemptTimeout .. | .desc .. | .live .. | .liveTimeout .. | .sitePowerSample ..
  | .siteAdapterRetryTimeout .. | .siteRetrainDone .. | .siteDeath .. =>
    [.arrays, .fields, .hbm, .mem, .net, .coh, .sites, .ports, .pnl, .ras, .twin, .out]
  | .networkRequestInject .. | .tagQuarantineEnd .. | .trunkHashChange .. => [.net, .pnl]
  | .networkDelivery .. => [.fields, .hbm, .net, .sites, .ras, .twin, .lines, .out]
  | .networkResponse .. | .transactionTimeout .. => [.arrays, .net, .ports, .pnl, .ras, .lines, .out]
  | .routerDiscard .. | .lathLinkRetire .. => [.net, .ras, .out]
  | .lathFlitReceive .. => [.net, .pnl, .out]
  | .lathReplay .. => [.net, .out]
  | .groutSinkAnswer .. => [.fields, .hbm, .net, .coh, .sites]
  | .cohRds .. | .cohRdx .. | .cohUpg .. | .cohInvx .. | .cohRdc .. | .cohWrl .. | .cohFlushl ..
  | .cohAtomic .. | .cxlCacheRequest .. | .snoopResponse .. | .cohAck .. | .snoopTimeout .. | .ackTimeout ..
  | .agentDead .. | .cohReq .. | .cohRsp .. => [.fields, .hbm, .mem, .net, .coh, .ras, .twin, .out]
  | .cohWb .. | .cxlDirtyEvict .. => [.hbm, .mem, .net, .coh, .ras, .twin, .out]
  | .cohEvc .. | .snoopSnps .. | .snoopSnpi .. | .snoopSnpc .. | .wback .. => [.coh]
  | .cohCmpReceive .. => [.coh, .draws]
  | .cohHold .. => [.out]
  | .staleEntryExpiry .. => [.coh, .ras, .out]
  | .cohFlushGo .. => [.fields, .hbm, .mem, .net, .coh, .ports, .pnl, .ras, .twin, .out]
  | .siteInService .. => [.net, .sites, .ports, .out]
  | .bind .. | .unbind .. | .siteRailRemoval .. | .endpointWrite .. => [.sites, .out]
  | .bound .. | .credit .. => [.sites, .ras, .out]
  | .boundTimeout .. | .imageCheckDone | .panelDestroyApply | .panelRebindApply | .imageBindingDone =>
    [.arrays, .sites, .ports, .img, .pnl, .twin]
  | .cleared .. | .linkDown .. | .hostReadCompletion .. | .hostReadTimeout .. | .hotReset ..
  | .imageReadDone .. => [.arrays, .sites, .ports, .img, .pnl, .ras, .twin, .out]
  | .clearedTimeout .. => [.arrays, .fields, .hbm, .mem, .net, .coh, .sites, .ports, .img, .pnl, .ras, .twin, .out]
  | .siteRd .. => [.fields, .hbm, .mem, .net, .coh, .pnl, .ras, .twin, .lines, .draws, .out]
  | .siteWr .. => [.fields, .hbm, .mem, .net, .coh, .pnl, .ras, .twin, .draws, .out]
  | .siteAt .. => [.fields, .hbm, .mem, .net, .pnl, .ras, .draws, .out]
  | .siteSig .. => [.net, .pnl, .ras, .out]
  | .siteSignalToEngine .. => [.net, .sites, .out]
  | .siteResponse .. => [.net, .sites]
  | .siteRequestTimeout .. => [.net, .sites, .ras, .out]
  | .cxlUnsupported .. | .flogSevereClear .. => [.ras, .out]
  | .queueDisable .. | .heartSilence => [.arrays, .ports, .pnl, .ras, .twin, .out]
  | .bar2Write .. => [.fields, .hbm, .mem, .net, .coh, .ports, .pnl, .ras, .twin, .draws, .out]
  | .spdmRequest .. => [.fuse, .arrays, .ports, .pnl, .out]
  | .ideKm .. => [.ports]
  | .panelKeySet .. => [.pnl, .out]
  | .imgGo .. => [.fuse, .arrays, .sites, .ports, .img, .pnl, .ras, .twin, .out]
  | .imageWaitEnd .. => [.img]
  | .baseImageApply => [.fuse, .arrays, .fields, .net, .coh, .sites, .ports, .img, .pnl, .twin]
  | .panelCreateApply => [.arrays, .sites, .ports, .img, .pnl, .twin, .draws]
  | .dustHaltEnd .. => [.arrays, .ports, .pnl, .twin, .lines, .out]
  | .dustUnbindEnd .. => [.fields, .hbm, .mem, .net, .coh, .pnl, .ras, .twin, .out]
  | .dustFlushEnd .. => [.fields, .pnl]
  | .dustKeysEnd .. | .traceEnable .. => [.pnl]
  | .dustZeroEnd .. => [.arrays, .hbm, .mem, .coh, .pnl, .ras, .twin]
  | .dustReleaseEnd .. => [.fuse, .arrays, .sites, .ports, .img, .pnl, .lcs, .twin, .draws]
  | .sealedFillDone .. => [.hbm, .mem, .pnl, .ras, .twin]
  | .opkeyRotate .. | .panelAuthSet | .debugEnable => [.fuse, .ports, .pnl, .ras, .out]
  | .panelDestroy => [.fuse, .arrays, .ports, .pnl, .ras, .out]
  | .bundleLoad .. | .commonsRelease | .panelWrite .. => [.fuse, .hbm, .mem, .ports, .pnl, .ras, .twin, .out]
  | .commonsDefine => [.fuse, .hbm, .mem, .ports, .pnl, .ras, .twin, .draws, .out]
  | .debugRead => [.fields, .hbm, .mem, .pnl, .ras, .draws]
  | .debugWrite => [.arrays, .hbm, .mem, .pnl, .ras, .twin]
  | .lcsGo .. => [.fuse, .arrays, .ports, .pnl, .lcs, .ras, .draws, .out]
  | .patchStoreWrite => [.fuse, .ras]
  | .packageFault .. | .seed .. | .promote .. | .unfence .. | .fence .. | .refclkLoss =>
    [.arrays, .ports, .pnl, .ras, .twin, .lines, .out]
  | .twinTraining .. => [.ports, .ras, .twin, .lines, .out]
  | .twinLaneRetire .. | .twinRetrainDone .. => [.ports, .ras, .twin, .out]
  | .twinSpareInService .. | .seedQueryTimeout => [.twin]
  | .twinPortDark .. | .twinRetrain .. | .ckptAck .. | .bindReply .. | .heart .. => [.ports, .twin]
  | .twinFlitReceive .. | .ckptMark .. | .heartSend .. => [.twin, .lines, .out]
  | .twinReplay .. => [.twin, .out]
  | .twinRd .. | .twinWr .. | .twinAt .. | .twinSig .. => [.net, .pnl, .ras, .twin, .lines, .out]
  | .twinResponse .. | .twinLocalBound .. => [.net, .twin]
  | .twinRemoteBound .. => [.net, .lines, .out]
  | .level .. => [.twin, .lines, .draws, .out]
  | .keyx .. => [.ras, .twin, .out]
  | .ckpt .. => [.fields, .hbm, .mem, .net, .coh, .ras, .twin, .lines, .draws, .out]
  | .bindQuery .. => [.lines, .out]
  | .twinPortReturn .. => [.ports, .twin, .lines, .out]
  | .seedScanDone .. => [.fields, .hbm, .mem, .ras, .twin]
  | .pwrgdRise .. =>
    [.boot, .sclk, .pins, .side, .siteSlot, .arrays, .fields, .hbm, .mem, .net, .coh, .sites, .ports, .img, .pnl,
     .lcs, .ras, .twin, .lines, .clk, .pwr, .heldLow, .latched]
  | .pwrgdFall .. | .pkgResetAssert =>
    [.boot, .sclk, .pins, .siteSlot, .arrays, .fields, .hbm, .mem, .net, .coh, .sites, .ports, .img, .pnl, .lcs,
     .ras, .twin, .lines, .clk, .pwr, .heldLow, .latched, .out]
  | .pkgResetRelease =>
    [.boot, .sclk, .pins, .siteSlot, .arrays, .fields, .hbm, .mem, .net, .coh, .sites, .ports, .img, .pnl, .lcs,
     .ras, .twin, .lines, .clk, .pwr, .heldLow, .latched]
  | .perstAssert .. => [.pins, .arrays, .sites, .ports, .img, .pnl, .ras, .twin, .out]
  | .perstRelease .. => [.pins, .ports]
  | .bootStageDone .. =>
    [.fuse, .boot, .arrays, .fields, .hbm, .net, .ports, .pnl, .lcs, .ras, .twin, .lines, .clk, .draws, .out]
  | .siteEnSlot => [.siteSlot, .sites, .out]
  | .sitePgRise .. => [.pins, .sites]
  | .sitePgWaitTimeout .. => [.sites]
  | .sitePgFall .. => [.pins, .sites, .ras, .out]
  | .pllLockLoss .. =>
    [.arrays, .fields, .hbm, .mem, .net, .coh, .sites, .ports, .pnl, .ras, .twin, .lines, .clk, .out]
  | .powerSample .. | .tempSample .. => [.arrays, .ports, .pnl, .ras, .twin, .lines, .pwr, .out]
  | .pwrLimitWrite .. | .pwrThermWrite .. => [.pwr]
  | .i3cPrivateWrite .. => [.side, .ras, .pwr, .out]
  | .i3cDynamicAddress .. => [.side]
  | .tapInstruction .. => [.side, .out]
  | .registerWrite .. =>
    [.fuse, .arrays, .fields, .hbm, .mem, .net, .coh, .sites, .ports, .img, .pnl, .lcs, .ras, .twin, .lines, .pwr,
     .heldLow, .draws, .out]
  | .reservedExtentAccess .. | .space5Access .. =>
    [.fuse, .arrays, .fields, .hbm, .mem, .net, .coh, .sites, .ports, .img, .pnl, .lcs, .ras, .twin, .lines, .pwr,
     .heldLow, .latched, .draws, .out]
  | .fieldSelfTestDone .. => [.arrays, .fields, .ports]

end Sys2Proof.Machine
end

