-- ==== Sys2Proof/Terms.lean ====
section
/-!
DEFINITION. Situations that the statements name.
-/

namespace Sys2Proof.Machine

/-- A line at its home that nothing blocks, nothing waits for and no agent holds, whose new entry displaces none. -/
def State.clearLine (s : State) (f : FieldId) (line : Nat) (req : CohReq) : Bool :=
  decide (s.coh.slices[f].waiting = [] ∧ s.coh.slices[f].blockedAt line = none ∧ s.coh.slices[f].entry line = none ∧
    s.coh.slices[f].victim line req = none)

/-- A line blocked for a request that needs no snoop. -/
def freshBlocked (line : Nat) (req : CohReq) (src : CohFrom) : Blocked :=
  { line := line, req := req, src := src, snoops := [], gotData := none, gotDirty := false, granted := none, cmpData := none, cmpTaken := false }

/-- A home that has taken up such a request. -/
def State.blockLine (s : State) (f : FieldId) (line : Nat) (req : CohReq) (src : CohFrom) : State :=
  s.modSlice f fun x => { x with blocked := x.blocked ++ [freshBlocked line req src] }

/-- A mailbox command that is run: the mailbox is free, the command's authority may give it, it is accepted, leaving `z`,
and the argument words it does not use are zero. -/
def State.mailAccepted (s : State) (op : Byte) (named : Nat → Bool) (used : Nat → Bool) (z : State) : Prop :=
  (s.pnl.cmdState ≠ 1 ∧ s.pnl.cmdState ≠ 2) ∧ s.closed = false ∧ named s.pnl.cmdAuth.toNat = true ∧
    (s.modPnl fun x => { x with cmdOp := op }).accept (s.modPnl fun x => { x with cmdOp := op }).mailCommand = .ok z ∧
    z.restZero used = true

/-- Where the window of PF0 holds the register at offset `k` of an array's block (R64, R413). -/
def arrayOff (a : ArrayId) (k : Nat) : BitVec 28 := BitVec.ofNat 28 (0x1000000 * (a.val / 5 + 1) + 0x100000 * (a.val % 5) + k)

/-- The two words of ARR_PASSES of an array. -/
def passesLow (a : ArrayId) : RegAddr := .pf0 (arrayOff a 0x10)
def passesHigh (a : ArrayId) : RegAddr := .pf0 (arrayOff a 0x14)

/-- How many code words a primer slot's next `m` come to: whole strips or rows, as far as its pass reaches (R142, R145). -/
def State.primerSpan (s : State) (n : Fin 8) (m : Nat) : Nat :=
  let x := s.ras.primers[n]
  let unit := unitWords (BitVec.ofNat 52 x.runBase)
  min ((m + unit - 1) / unit * unit) ((x.runLength - x.progress) / 64)

/-- A twin port that sends a message at once: none waits in front of it, and the replay buffer has room for it (R375). -/
def State.twinSends (s : State) (k : PortId) (header : BitVec 128) (ws : List CodeWord) : Bool :=
  s.lines[k].waiting = [] && s.lines[k].room (header, ws)

/-- A port that takes a host's memory requests at once: its link is in L0 at its rate, the package has booted, and no write
through BAR2 is still on its way (R271, R280). -/
def State.takesMemory (s : State) (p : PortId) : Bool :=
  s.ports[p].l0 && !s.ports[p].slow && s.stage = 4 && !s.postedWaits p

/-- A port that takes a host's accesses to PF0's registers: PF0 is in D0, and there is no package fault (R294, R361). -/
def State.pf0Takes (s : State) (p : PortId) : Bool := s.takesMemory p && !s.ports[p].pf0D3hot && s.ras.pkgFault.isNone

/-- An access to the register at an offset is logged as one of the wrong size or alignment, and nothing else is left of it
but what is sent (R5, R413). -/
def State.AccessNoted (s : State) (off : Nat) (u : State) : Prop :=
  u.ras.flog = s.ras.flog ++ [faultEntry { source := 16, code := 1, info := BitVec.ofNat 32 off } s.now] ∧
    ∀ p : Piece, p ≠ .ras → p ≠ .out → s.Same p u

end Sys2Proof.Machine
end

