-- ==== Sys2Proof/Certificates/Slice0/Obligations.lean ====
section
/-!
DEFINITION. The statements about the block, for the provers.
-/

set_option autoImplicit false
set_option linter.unusedVariables false

section

open Sys2Proof Sys2Proof.Machine

/-- When a command stands at the front of the queue, a step is that command executed on the state with the rest of the
queue. -/
def Obligations.StepRunsFrontCommand : Prop :=
  ∀ (c : Instr) (s : State) (rest : List Instr), s.pending = c :: rest → step s = exec c { s with pending := rest }

/-- The choice of assumption log 1: on an empty queue a step counts one SCLK and drains the mirrors of the twin ports, and
changes nothing else; in reset it changes nothing. -/
def Obligations.IdleBlockTicks : Prop :=
  ∀ s : State, s.pending = [] →
    (s.inReset = true → step s = .next s) ∧
    (s.inReset = false → ∃ t, step s = .next t ∧ t.sclk = s.sclk + 1 ∧ t.pending = [] ∧
      ∀ p : Piece, p ≠ .sclk → p ≠ .twin → p ≠ .lines → p ≠ .out → s.Same p t)

/-- Right after reset the stored words are in their canonical form, the power limit, the throttle threshold and the issue
allowance are in their ranges, and neither log holds more than 1,024 entries. The choices of the model in it are those
of assumption logs 6 and 16. -/
def Obligations.ResetStateIsSound : Prop :=
  State.reset.Sound

/-- Right after reset: the power limit is 4,300 W, the throttle threshold 100 degrees and the issue allowance 64; boot is
at stage 0; no field is in service of an image, no panel, queue or site is live, both logs and the coherence
directories are empty, no twin port is in service, and nothing is stored. The choices of the model in it are those of
assumption logs 6 and 16. -/
def Obligations.ResetLeavesRegisterValues : Prop :=
  State.reset.pwr.limit = 4300 ∧ State.reset.pwr.throtC = 100 ∧ State.reset.pwr.d = 64 ∧ State.reset.stage = 0 ∧ State.reset.bootMs = 0 ∧ State.reset.glbReady = 0 ∧
  State.reset.ras.mlog = [] ∧ State.reset.ras.flog = [] ∧ State.reset.ras.pkgFault = none ∧ (∀ k : PortId, State.reset.twinUp k = false) ∧ (∀ p : PanelId, State.reset.pnl.panels[p].state = 0) ∧
  (∀ n : SiteId, State.reset.sites[n].state = 0 ∧ State.reset.sites[n].enabled = false) ∧ (∀ f : FieldId, State.reset.coh.slices[f].waiting = [] ∧ State.reset.coh.slices[f].blocked = []) ∧ State.reset.mem = [] ∧ State.reset.pending = []

/-- From every sound state, whatever command is at the front of the queue and also on an empty queue, a step that answers
a next state answers a sound one: the stored words stay in their canonical form, the power registers stay in their
ranges, and neither log outgrows 1,024 entries. -/
def Obligations.StepsKeepSoundness : Prop :=
  ∀ s t : State, s.Sound → step s = .next t → t.Sound

/-- The frame of every command: whatever a command leaves, each part of the state that the table `touches` does not list
for it stands as before. A command that stores nothing leaves every stored word as it was. -/
def Obligations.CommandsTouchOnlyTheirParts : Prop :=
  ∀ (c : Instr) (s t : State), exec c s = .next t → ∀ p : Piece, p ∉ touches c → s.Same p t

/-- Whatever a command leaves, the commands that wait still wait in their order, and everything that had been sent stays
sent, in its order. The record of what is sent is the model's own (assumption log 5). -/
def Obligations.CommandsKeepQueueAndOutputs : Prop :=
  ∀ (c : Instr) (s t : State), exec c s = .next t → t.pending = s.pending ∧ s.out <:+ t.out

/-- Whatever a step does: a burned fuse bit stays burned, neither counter and no lowest accepted SVN falls, stored patch
records stay in their order before new ones, and the identity of the unit stands. -/
def Obligations.FusesOnlyRise : Prop :=
  ∀ s t : State, step s = .next t → s.fuse.Rises t.fuse

/-- No command faults or is refused, whatever the state: what the manual turns away, ignores or reports is an effect of
its own. The choices of the model in it are those of assumption log 4. -/
def Obligations.EveryCommandCompletes : Prop :=
  ∀ (c : Instr) (s : State), ∃ t, exec c s = .next t

/-- Every step, from a state in which the hub is in reset exactly while PKG_RESET_N or one of the five power-good inputs
is low, leads to such a state; the state right after reset is one; and a step by which the hub leaves reset leaves it
at the beginning of the boot, stage 0. Drawn from R392. -/
def Obligations.ResetFollowsTheSixInputs : Prop :=
  (State.reset.inReset = !State.reset.pins.allGood) ∧
  (∀ p : Pins, p.allGood = true ↔ p.pkgResetN = true ∧ bit p.pwrgd 0 = true ∧ bit p.pwrgd 1 = true ∧ bit p.pwrgd 2 = true ∧ bit p.pwrgd 3 = true ∧ bit p.pwrgd 4 = true) ∧
  (∀ s t : State, s.inReset = (!s.pins.allGood) → step s = .next t → t.inReset = (!t.pins.allGood) ∧
    (s.inReset = true → t.inReset = false → t.stage = 0 ∧ t.bootMs = 0))

/-- A read of a register that is not 4 bytes wide and naturally aligned returns 0xFFFF_FFFF and is logged in the RAS
block; such a write is discarded and logged, and nothing but the RAS block changes. It is said of accesses through
space 5, of those of a host to the register window and of those of a host to the page of a VF, each where the block
takes them. Drawn from R5. -/
def Obligations.AccessesOfOtherSizesAreLogged : Prop :=
  (∀ (s : State) (pa : BitVec 52) (size : Nat) (value : Word), s.inReset = false → paPartner pa = false → paSpace pa = 5 → fld pa.toNat 28 20 = 0 →
    size ≠ 4 ∨ pa.toNat % 4 ≠ 0 → s.ras.flog.length < 1024 →
    (∃ u, exec (.space5Access pa false size value) s = .next u ∧ u.out = .regRead (.pf0 (pa.setWidth 28)) 0xFFFFFFFF :: s.out ∧ s.AccessNoted (pa.toNat % 2 ^ 28) u) ∧
    (∃ u, exec (.space5Access pa true size value) s = .next u ∧ u.out = s.out ∧ s.AccessNoted (pa.toNat % 2 ^ 28) u)) ∧
  (∀ (s : State) (p : PortId) (off : BitVec 28) (size : Nat) (tee : Bool) (value : Word), s.pf0Takes p = true →
    size ≠ 4 ∨ off.toNat % 4 ≠ 0 → s.ras.flog.length < 1024 →
    (∃ u, exec (.lowWordReadLatch ⟨p, .reg (.pf0 off), size, tee⟩) s = .next u ∧ u.out = .regRead (.pf0 off) 0xFFFFFFFF :: s.out ∧ s.AccessNoted off.toNat u) ∧
    (∃ u, exec (.registerWrite p ⟨.reg (.pf0 off), tee⟩ size value) s = .next u ∧ u.out = s.out ∧ s.AccessNoted off.toNat u)) ∧
  (∀ (s : State) (p : PortId) (v : VfId) (o : BitVec 16) (size : Nat) (tee : Bool) (value : Word), s.takesMemory p = true → s.vfLive p v = true →
    s.vfDust p v = false → s.pageRefused p v o.toNat tee = false → size ≠ 4 ∨ o.toNat % 4 ≠ 0 → s.ras.flog.length < 1024 →
    (∃ u, exec (.lowWordReadLatch ⟨p, .reg (.vf p v o), size, tee⟩) s = .next u ∧ u.out = .regRead (.vf p v o) 0xFFFFFFFF :: s.out ∧ s.AccessNoted o.toNat u) ∧
    (∃ u, exec (.registerWrite p ⟨.reg (.vf p v o), tee⟩ size value) s = .next u ∧ u.out = s.out ∧ s.AccessNoted o.toNat u))

/-- Over a port that serves reads of the register window, a read of the low word of ARR_PASSES of an array in service
returns the low word of the pass count and latches the high word; a read of the high word returns what is latched, and
is the last to do so; with nothing latched it returns the current high word. Drawn from R64. -/
def Obligations.PassCountReadsLatchTheirHighWord : Prop :=
  ∀ (s : State) (p : PortId) (tee : Bool) (a : ArrayId), s.pf0Takes p = true → s.retired = false → s.arrays[a].st = 0 →
    (∃ u, exec (.lowWordReadLatch ⟨p, .reg (passesLow a), 4, tee⟩) s = .next u ∧ u.out = .regRead (passesLow a) (lowWord s.arrays[a].cube.passes) :: s.out ∧
      u.latchedHigh (passesLow a) = some (highWord s.arrays[a].cube.passes)) ∧
    (∃ u, exec (.lowWordReadLatch ⟨p, .reg (passesHigh a), 4, tee⟩) s = .next u ∧
      u.out = .regRead (passesHigh a) ((s.latchedHigh (passesLow a)).getD (highWord s.arrays[a].cube.passes)) :: s.out ∧ u.latchedHigh (passesLow a) = none)

/-- A sample in which P1 exceeds 4,300 W while the issue allowance has been at 8 for 10 ms raises a class 5 fault with
SOURCE 17 and CODE 0x03; the site rails stand as they are. Drawn from R403. -/
def Obligations.PowerAboveTheFloorIsAPackageFault : Prop :=
  ∀ (s : State) (p1 p10 : BitVec 13) (ten below : Bool), s.inReset = false → s.pwr.d = 8 → 4300 < p1.toNat → s.ras.flog.length < 1024 →
    ∃ u, exec (.powerSample p1 p10 ten below true) s = .next u ∧
      u.ras.flog = s.ras.flog ++ [faultEntry { cls := 5, source := 17, code := 3 } s.now] ∧ u.ras.flogSevere = true ∧
      u.ras.pkgFault = some (s.ras.pkgFault.getD (17, 3)) ∧ u.sites = s.sites

/-- Each clause names a command and says, of every state and operands that meet its hypotheses and of nothing else, that
exec answers a next state (`exec c s = .next t`), and what it holds. A CFOLD, CSTREAM or CSLOAD that its checks accept
joins the instructions in flight of its array, in issue order, with the descriptors it reads at issue, and leaves the
sequencer. A CFOLD, or a CSTREAM with its stationary slot, whose footprint translates and that no other pass keeps
waiting starts its first pass in the lowest free accumulator slot, which takes the product of its operands; a CSLOAD
fills its stationary slot. Completes, with a next state of its own effect: cfold, cstream, csload. The choices of the
model in it are those of assumption logs 20, 21, 36, 79 and 81. Drawn from R39, R45, R47, R76, R169. -/
def Obligations.CubeIssue : Prop :=
  (∀ (s : State) (a : ArrayId) (n : Nat) (p : PanelId) (w : BitVec 128),
      s.toIssue a opFold = some (p, w) →
      (s.arrays[a].cube.ops.any fun o => o.stalled) = false →
      s.arrays[a].cube.freeAcc.isSome = true →
      s.arrays[a].cube.reject s.arrays[a].mode w = none →
      s.linesBusy (s.cubeEng a p) .read (readVas ((s.arrays[a].cube.makeOp w (s.insPc a)).parts (s.arrays[a].cube.shape w) 0)) = false →
      ∃ t, exec (.cfold a n) s = .next t ∧
        t.arrays[a].cube.ops.map (fun o => (o.word, o.aDesc, o.bDesc)) = s.arrays[a].cube.ops.map (fun o => (o.word, o.aDesc, o.bDesc)) ++
          [(w, s.arrays[a].cube.descs[adescNo w], s.arrays[a].cube.descs[bdescNo w])] ∧
        t.arrays[a].seq.ir = none) ∧
  (∀ (s : State) (a : ArrayId) (n : Nat) (p : PanelId) (w : BitVec 128),
      s.toIssue a opStream = some (p, w) →
      (s.arrays[a].cube.ops.any fun o => o.stalled) = false →
      s.arrays[a].cube.freeAcc.isSome = true →
      s.arrays[a].cube.reject s.arrays[a].mode w = none →
      s.linesBusy (s.cubeEng a p) .read (readVas ((s.arrays[a].cube.makeOp w (s.insPc a)).parts (s.arrays[a].cube.shape w) 0)) = false →
      ∃ t, exec (.cstream a n) s = .next t ∧
        t.arrays[a].cube.ops.map (fun o => (o.word, o.aDesc, o.bDesc)) = s.arrays[a].cube.ops.map (fun o => (o.word, o.aDesc, o.bDesc)) ++
          [(w, s.arrays[a].cube.descs[adescNo w], s.arrays[a].cube.descs[bdescNo w])] ∧
        t.arrays[a].seq.ir = none) ∧
  (∀ (s : State) (a : ArrayId) (n : Nat) (p : PanelId) (w : BitVec 128),
      s.toIssue a opSload = some (p, w) →
      (s.arrays[a].cube.ops.any fun o => o.stalled) = false →
      s.arrays[a].cube.slotBusy w = false →
      s.arrays[a].cube.reject s.arrays[a].mode w = none →
      s.linesBusy (s.cubeEng a p) .read (readVas ((s.arrays[a].cube.makeOp w (s.insPc a)).parts (s.arrays[a].cube.shape w) 0)) = false →
      ∃ t, exec (.csload a n) s = .next t ∧
        t.arrays[a].cube.ops.map (fun o => (o.word, o.aDesc, o.bDesc)) = s.arrays[a].cube.ops.map (fun o => (o.word, o.aDesc, o.bDesc)) ++
          [(w, s.arrays[a].cube.descs[adescNo w], s.arrays[a].cube.descs[bdescNo w])] ∧
        t.arrays[a].seq.ir = none) ∧
  (∀ (s s₁ s₂ s₃ : State) (a : ArrayId) (n : Nat) (p : PanelId) (w : BitVec 128) (o : CubeOp)
      (slot : Fin 4) (init : Tile) (x y : Operand),
      s.toIssue a opFold = some (p, w) →
      (s.arrays[a].cube.ops.all fun q => decide (q.passes ≤ q.started) && !q.stalled) = true →
      s.arrays[a].cube.reject s.arrays[a].mode w = none →
      o = s.arrays[a].cube.makeOp w (s.insPc a) →
      0 < o.passes →
      s.arrays[a].cube.haltReq = none →
      s.linesBusy (s.cubeEng a p) .read (readVas (o.parts (s.arrays[a].cube.shape w) 0)) = false →
      (s.arrays[a].cube.acc.any fun t => decide (t.phase = .running)) = false →
      s.arrays[a].cube.freeAcc = some slot →
      (s.queueOp a o).checkParts (s.cubeEng a p) 0 (o.parts (s.arrays[a].cube.shape w) 0) = (none, s₁) →
      s₁.readInit (s.cubeEng a p) o (s.arrays[a].cube.shape w) (o.passAt (s.arrays[a].cube.shape w) 0).row
        (o.passAt (s.arrays[a].cube.shape w) 0).rows (o.passAt (s.arrays[a].cube.shape w) 0).col
        (o.passAt (s.arrays[a].cube.shape w) 0).cols = (.ok init, s₂) →
      s₂.passOperands a (s.cubeEng a p) o (s.arrays[a].cube.shape w) (o.passAt (s.arrays[a].cube.shape w) 0) = (.ok (x, y), s₃) →
      s₁.linesBusy (s.cubeEng a p) .read (readVas (o.parts (s.arrays[a].cube.shape w) 0)) = false →
      ∃ t, exec (.cfold a n) s = .next t ∧
        t.arrays[a].cube.acc[slot] = ⟨.running, (passTile (s.arrays[a].cube.shape w) init x y).1, o.serial,
          (o.passAt (s.arrays[a].cube.shape w) 0).row, (o.passAt (s.arrays[a].cube.shape w) 0).col⟩) ∧
  (∀ (s s₁ s₂ s₃ : State) (a : ArrayId) (n : Nat) (p : PanelId) (w : BitVec 128) (o : CubeOp)
      (slot : Fin 4) (init : Tile) (x y : Operand),
      s.toIssue a opStream = some (p, w) →
      (s.arrays[a].cube.ops.all fun q => decide (q.passes ≤ q.started) && !q.stalled) = true →
      s.arrays[a].cube.reject s.arrays[a].mode w = none →
      o = s.arrays[a].cube.makeOp w (s.insPc a) →
      0 < o.passes →
      s.arrays[a].cube.haltReq = none →
      s.linesBusy (s.cubeEng a p) .read (readVas (o.parts (s.arrays[a].cube.shape w) 0)) = false →
      (s.arrays[a].cube.acc.any fun t => decide (t.phase = .running)) = false →
      s.arrays[a].cube.freeAcc = some slot →
      s.arrays[a].cube.stat[slotOf w].phase = .valid →
      (s.queueOp a o).checkParts (s.cubeEng a p) 0 (o.parts (s.arrays[a].cube.shape w) 0) = (none, s₁) →
      s₁.readInit (s.cubeEng a p) o (s.arrays[a].cube.shape w) (o.passAt (s.arrays[a].cube.shape w) 0).row
        (o.passAt (s.arrays[a].cube.shape w) 0).rows (o.passAt (s.arrays[a].cube.shape w) 0).col
        (o.passAt (s.arrays[a].cube.shape w) 0).cols = (.ok init, s₂) →
      s₂.passOperands a (s.cubeEng a p) o (s.arrays[a].cube.shape w) (o.passAt (s.arrays[a].cube.shape w) 0) = (.ok (x, y), s₃) →
      s₁.linesBusy (s.cubeEng a p) .read (readVas (o.parts (s.arrays[a].cube.shape w) 0)) = false →
      ∃ t, exec (.cstream a n) s = .next t ∧
        t.arrays[a].cube.acc[slot] = ⟨.running, (passTile (s.arrays[a].cube.shape w) init x y).1, o.serial,
          (o.passAt (s.arrays[a].cube.shape w) 0).row, (o.passAt (s.arrays[a].cube.shape w) 0).col⟩) ∧
  (∀ (s s₁ s₂ : State) (a : ArrayId) (n : Nat) (p : PanelId) (w : BitVec 128) (o : CubeOp) (x : Operand),
      s.toIssue a opSload = some (p, w) →
      (s.arrays[a].cube.ops.any fun o => o.stalled) = false →
      s.arrays[a].cube.slotBusy w = false →
      s.arrays[a].cube.reject s.arrays[a].mode w = none →
      o = s.arrays[a].cube.makeOp w (s.insPc a) →
      s.linesBusy (s.cubeEng a p) .read (readVas (o.parts (s.arrays[a].cube.shape w) 0)) = false →
      (s.queueOp a o).checkParts (s.cubeEng a p) 0 (o.parts (sloadShape w) 0) = (none, s₁) →
      s₁.readOperand (s.cubeEng a p) o.bDesc (sloadShape w).bfmt 0 (sloadShape w).n (sloadShape w).k = (.ok x, s₂) →
      ∃ t, exec (.csload a n) s = .next t ∧
        t.arrays[a].cube.stat[slotOf w] = ⟨.filling, BitVec.ofNat 4 (sloadShape w).bfmt, (sloadShape w).k,
          (sloadShape w).n, x.rows, x.scales⟩)

/-- Each clause names a command and says, of every state and operands that meet its hypotheses and of nothing else, that
exec answers a next state (`exec c s = .next t`), and what it holds. What the end of a pass, a halt request, a drain
to the exchange buffer, the end of a stationary load, and the retirement of the oldest instruction do to an array.
Completes, with a next state of its own effect: passBoundary, haltRequest, drain, stationarySlotValid,
cubeInstructionRetire. The choices of the model in it are those of assumption log 36. Drawn from R45, R48, R53, R74,
R76, R93. -/
def Obligations.CubePasses : Prop :=
  (∀ (s : State) (a : ArrayId) (i : Fin 4),
      ((allFin 4).find? fun i => decide (s.arrays[a].cube.acc[i].phase = .running)) = some i →
      s.arrays[a].cube.haltReq = none →
      (s.arrays[a].cube.ops.all fun q => decide (q.passes ≤ q.started) && !q.stalled) = true →
      ∃ t, exec (.passBoundary a) s = .next t ∧
        t.arrays[a].cube.drainQ = s.arrays[a].cube.drainQ ++ [i] ∧ t.arrays[a].cube.acc[i].phase = .queued ∧
        t.arrays[a].cube.acc[i].tile = s.arrays[a].cube.acc[i].tile ∧ t.arrays[a].cube.passes = s.arrays[a].cube.passes + 1) ∧
  (∀ (s : State) (a : ArrayId) (i : Fin 4) (k : HaltKind),
      ((allFin 4).find? fun i => decide (s.arrays[a].cube.acc[i].phase = .running)) = some i →
      s.arrays[a].cube.haltReq = some k →
      ∃ t, exec (.passBoundary a) s = .next t ∧
        t.arrays[a].seq.state = haltState k ∧ t.arrays[a].cube.haltReq = none ∧ t.arrays[a].cube.passes = s.arrays[a].cube.passes + 1 ∧
        t.arrays[a].vec.ctxs = [] ∧ t.arrays[a].moves = []) ∧
  (∀ (s : State) (a : ArrayId),
      s.arrays[a].st = 0 →
      (s.arrays[a].cube.acc.any fun t => decide (t.phase = .running)) = false →
      ∃ t, exec (.haltRequest a .other) s = .next t ∧
        t.arrays[a].seq.state = seqHalted ∧ t.arrays[a].cube.halted = true ∧ t.arrays[a].seq.stepOpen = false ∧
        t.arrays[a].vec.ctxs = [] ∧ t.arrays[a].moves = [] ∧ t.arrays[a].cube.stat = s.arrays[a].cube.stat.map (fun t => if t.phase = .filling then {} else t)) ∧
  (∀ (s : State) (a : ArrayId) (x : HaltSource),
      s.arrays[a].st = 0 →
      (s.arrays[a].cube.acc.any fun t => decide (t.phase = .running)) = true →
      s.arrays[a].cube.haltReq = none →
      ∃ t, exec (.haltRequest a x) s = .next t ∧
        t.arrays[a].cube.haltReq = some (match x with | .debug => .debug | .other => .other) ∧ t.arrays[a].cube.acc = s.arrays[a].cube.acc ∧
        t.arrays[a].seq = s.arrays[a].seq) ∧
  (∀ (s : State) (a : ArrayId) (i e : Fin 4) (r : List (Fin 4)) (p : PanelId) (o : CubeOp),
      s.arrays[a].cube.drainQ = i :: r →
      s.arrays[a].panel = some p →
      (s.arrays[a].cube.ops.find? fun q => decide (q.serial = s.arrays[a].cube.acc[i].serial)) = some o →
      o.dest = true →
      s.arrays[a].cube.freeExch = some e →
      (s.arrays[a].cube.ops.all fun q => decide (q.passes ≤ q.started) && !q.stalled) = true →
      ∃ t, exec (.drain a) s = .next t ∧
        t.arrays[a].cube.exch[e] = ⟨true, s.arrays[a].cube.exchOrder, s.arrays[a].cube.acc[i].tile, []⟩ ∧
        t.arrays[a].cube.drainQ = r ∧ t.arrays[a].cube.acc[i] = {}) ∧
  (∀ (s s₁ : State) (a : ArrayId) (i : Fin 4) (r : List (Fin 4)) (p : PanelId) (o : CubeOp) (rows : List (DrainRow × OutFlags)),
      s.arrays[a].cube.drainQ = i :: r →
      s.arrays[a].panel = some p →
      (s.arrays[a].cube.ops.find? fun q => decide (q.serial = s.arrays[a].cube.acc[i].serial)) = some o →
      o.dest = false →
      rows = s.arrays[a].cube.drainRows o s.arrays[a].cube.acc[i] s.draws →
      (State.sendRows { s with draws := s.draws + 96 * 96 } ((s.cubeEng a p).at (.cube o.serial)) (rows.map fun x => x.1)) = (.ok (some 0), s₁) →
      (rows.all fun x => x.1.words.all fun w => !w.mark) = true →
      (s.arrays[a].cube.ops.all fun q => decide (q.passes ≤ q.started) && !q.stalled) = true →
      ∃ t, exec (.drain a) s = .next t ∧
        t.arrays[a].cube.drainQ = r ∧ t.arrays[a].cube.acc[i] = {} ∧ t.arrays[a].cube.merge = rows.filterMap (fun x => x.1.keep) ∧ t.mem = s₁.mem ∧ t.net = s₁.net) ∧
  (∀ (s : State) (a : ArrayId) (k : Fin 2),
      s.arrays[a].cube.stat[k].phase = .filling →
      ∃ t, exec (.stationarySlotValid a k) s = .next t ∧
        t.arrays[a].cube.stat[k] = { s.arrays[a].cube.stat[k] with phase := .valid } ∧ t.arrays[a].seq.ir = s.arrays[a].seq.ir) ∧
  (∀ (s : State) (a : ArrayId) (o : CubeOp) (r : List CubeOp),
      s.arrays[a].cube.ops = o :: r →
      s.arrays[a].cube.opDone o = true →
      s.workOwes a (.cube o.serial) = false →
      ∃ t, exec (.cubeInstructionRetire a) s = .next t ∧
        t.arrays[a].cube.ops = r ∧ t.arrays[a].cube.acc = s.arrays[a].cube.acc)

/-- Each clause names a command and says, of every state and operands that meet its hypotheses and of nothing else, that
exec answers a next state (`exec c s = .next t`), and what it holds. An array retired for a hardware fault, the spare
that takes its place, a vector core replaced by its spare core, the end of the forwarding window, a state carry that
was not answered, and the reads of the two fault registers. Completes, with a next state of its own effect:
arrayHardwareFault, moverHardwareFault, arraySilent, coreHardwareFault, signalForwardWindowEnd, stateCarryReadTimeout,
arrFaultRead, seqFaultRead. The choices of the model in it are those of assumption logs 60 and 80. Drawn from R16,
R17, R58, R63, R88, R89, R365 to R368. -/
def Obligations.ArrayFaults : Prop :=
  (∀ (s : State) (a : ArrayId) (code : Byte) (info : BitVec 16),
      6 ≤ code.toNat ∧ code.toNat ≤ 8 →
      s.arrays[a].st = 0 →
      ∃ t, exec (.arrayHardwareFault a code info) s = .next t ∧
        t.arrays[a].st = 3 ∧ t.arrays[a].panel = none ∧ t.ras.patches = s.ras.patches ++
          [⟨1, code, s.ras.patchBoot, BitVec.ofNat 32 a.val, ((s.chooseSpare a).map fun b => BitVec.ofNat 32 b.val).getD noSpare, false⟩]) ∧
  (∀ (s : State) (a : ArrayId) (c : Fin 8),
      s.arrays[a].st = 0 →
      ∃ t, exec (.moverHardwareFault a c) s = .next t ∧
        t.arrays[a].st = 3 ∧ t.arrays[a].panel = none ∧ t.ras.patches = s.ras.patches ++
          [⟨1, 0x33, s.ras.patchBoot, BitVec.ofNat 32 a.val, ((s.chooseSpare a).map fun b => BitVec.ofNat 32 b.val).getD noSpare, false⟩]) ∧
  (∀ (s : State) (a : ArrayId),
      s.arrays[a].st = 0 →
      ∃ t, exec (.arraySilent a) s = .next t ∧
        t.arrays[a].st = 3 ∧ t.arrays[a].panel = none ∧ t.ras.patches = s.ras.patches ++
          [⟨1, 0x19, s.ras.patchBoot, BitVec.ofNat 32 a.val, ((s.chooseSpare a).map fun b => BitVec.ofNat 32 b.val).getD noSpare, false⟩]) ∧
  (∀ (s : State) (a b : ArrayId) (p : PanelId),
      s.arrays[a].st = 0 →
      s.chooseSpare a = some b →
      s.arrays[a].panel = some p →
      s.arrays[a].seq.inv = none →
      ∃ t, exec (.arraySilent a) s = .next t ∧
        t.arrays[b].st = 0 ∧ t.arrays[b].panel = some p ∧ t.arrays[b].logical = s.arrays[a].logical ∧ t.arrays[b].mode = s.arrays[a].mode ∧
        t.arrays[b].cube.descs = s.arrays[a].cube.descs ∧ t.arrays[b].vec.codeStore = s.arrays[a].vec.codeStore ∧
        t.arrays[b].seq.sems = s.arrays[a].seq.sems ∧ t.pnl.panels[p].arrays = s.pnl.panels[p].arrays.set s.arrays[a].logical.toNat (some b)) ∧
  (∀ (s : State) (a : ArrayId) (c : Fin 17),
      s.arrays[a].st = 0 →
      s.arrays[a].vec.spare ≠ 0x1F →
      ∃ t, exec (.coreHardwareFault a c) s = .next t ∧
        t.arrays[a].vec.spare = 0x1F ∧ t.arrays[a].corePatched = true ∧ t.arrays[a].st = 0 ∧
        t.arrays[a].vec.active = setBit (setBit s.arrays[a].vec.active c.val false) s.arrays[a].vec.spare.toNat true ∧
        t.ras.patches = s.ras.patches ++ [⟨2, 0x24, s.ras.patchBoot, BitVec.ofNat 32 (a.val * 256 + c.val),
          BitVec.ofNat 32 (a.val * 256 + s.arrays[a].vec.spare.toNat), false⟩]) ∧
  (∀ (s : State) (a : ArrayId),
      (s.net.forwards.any fun f => decide (f.failed = a)) = true →
      ∃ t, exec (.signalForwardWindowEnd a) s = .next t ∧
        t.net.forwards = s.net.forwards.filter (fun f => f.failed ≠ a) ∧ t.isolated (fieldOfArray a) (niOfArray a) = true ∧
        t.net.dedup = s.net.dedup.filter (fun e => !(e.field = fieldOfArray a ∧ e.ni = niOfArray a))) ∧
  (∀ (s : State) (a : ArrayId) (f : Forward) (q : QRef) (x : Taken),
      (s.net.forwards.find? fun f => decide (f.failed = a ∧ f.silent = true)) = some f →
      s.arrays[f.spare].seq.inv = some q →
      s.taken q = some x →
      x.status = none →
      ∃ t, exec (.stateCarryReadTimeout a) s = .next t ∧
        t.arrays[f.spare].seq.state = seqFaulted ∧ t.arrays[f.spare].seq.sems = Vector.replicate 64 0 ∧ t.arrays[f.spare].vec.codeStore = [] ∧
        (t.taken q).map (fun y => (y.status, y.faultCode)) = some (some 3, 0x19)) ∧
  (∀ (s : State) (a : ArrayId),
      (s.pf0Open 0 || s.pf0Open 1) = true →
      s.arrays[a].st = 0 →
      ∃ t, exec (.arrFaultRead a) s = .next t ∧
        t.out = .regRead (arrayReg a 0x8) (faultWord s.arrays[a].cube.fault) :: s.out ∧ t.arrays[a].cube.fault = {}) ∧
  (∀ (s : State) (a : ArrayId),
      (s.pf0Open 0 || s.pf0Open 1) = true →
      s.arrays[a].st ≠ 0 →
      ∃ t, exec (.arrFaultRead a) s = .next t ∧
        t.out = .regRead (arrayReg a 0x8) 0 :: s.out ∧ t.arrays = s.arrays) ∧
  (∀ (s : State) (a : ArrayId),
      (s.pf0Open 0 || s.pf0Open 1) = true →
      s.arrays[a].st = 0 →
      ∃ t, exec (.seqFaultRead a) s = .next t ∧
        t.out = .regRead (arrayReg a 0x2008) (faultWord s.arrays[a].seq.fault) :: s.out ∧ t.arrays[a].seq.fault = {}) ∧
  (∀ (s : State) (a : ArrayId),
      (s.pf0Open 0 || s.pf0Open 1) = true →
      s.arrays[a].st ≠ 0 →
      ∃ t, exec (.seqFaultRead a) s = .next t ∧
        t.out = .regRead (arrayReg a 0x2008) 0 :: s.out ∧ t.arrays = s.arrays)

/-- Each clause names a command and says, of every state and operands that meet its hypotheses and of nothing else, that
exec answers a next state (`exec c s = .next t`), and what it holds. A context whose turn it is issues one
instruction: its enabled lanes take the results of the operation with the marks of their sources, every other lane
keeps its value, and the context goes on at its next instruction. A branch, an exit, a store to the local store, and
an undefined opcode are stated apart. Completes, with a next state of its own effect: vectorIssue, vmxq. The choices
of the model in it are those of assumption logs 9, 12 and 76. Drawn from R66, R68, R70, R75. -/
def Obligations.VectorIssue : Prop :=
  (∀ (s : State) (a : ArrayId) (core : Fin 16) (p : PanelId) (c : Ctx) (w : DWord) (op : VecOp),
      s.toRun a core = some (p, c) →
      c.pc < 16384 →
      s.arrays[a].vec.codeAt c.pc = ⟨w, false⟩ →
      (s.arrays[a].vec.ctxs.find? fun x => isCtx c.core c.idx x) = some c →
      (laneOp op 0 0 0).isSome = true →
      ∃ t, exec (.vectorIssue a core op) s = .next t ∧
        ∃ d, (t.arrays[a].vec.ctxs.find? fun x => isCtx c.core c.idx x) = some d ∧ d.pc = c.pc + 1 ∧
          (∀ l, l < 64 → d.lane (vins w).dest l = if bit (c.preg (vins w).pred).bits l then
            ⟨(laneOp op (c.lane (vins w).src1 l).bits (c.lane (vins w).src2 l).bits (c.lane (vins w).src3 l).bits).getD 0,
              (c.lane (vins w).src1 l).mark || (decide (2 ≤ sourceCount op) && (c.lane (vins w).src2 l).mark) ||
                (decide (3 ≤ sourceCount op) && (c.lane (vins w).src3 l).mark)⟩ else c.lane (vins w).dest l) ∧
          (∀ r l, l < 64 → r ≠ (vins w).dest → d.lane r l = c.lane r l)) ∧
  (∀ (s : State) (a : ArrayId) (core : Fin 16) (p : PanelId) (c : Ctx) (w : DWord),
      s.toRun a core = some (p, c) →
      c.pc < 16384 →
      s.arrays[a].vec.codeAt c.pc = ⟨w, false⟩ →
      (s.arrays[a].vec.ctxs.find? fun x => isCtx c.core c.idx x) = some c →
      (vins w).type % 2 = 0 →
      (c.sreg ((vins w).src1 % 16)).mark = false →
      ∃ t, exec (.vectorIssue a core .branch) s = .next t ∧
        (t.arrays[a].vec.ctxs.find? fun x => isCtx c.core c.idx x) = some (Ctx.mk c.core c.idx (if (c.sreg ((vins w).src1 % 16)).bits = 0 then c.pc + 1 else (vins w).imm) c.launch c.birth c.v c.sregs c.p c.ended c.stalled c.owed c.starved) ∧
        t.arrays[a].vec.lastIssued[c.core] = c.idx) ∧
  (∀ (s : State) (a : ArrayId) (core : Fin 16) (p : PanelId) (c : Ctx) (w : DWord),
      s.toRun a core = some (p, c) →
      c.pc < 16384 →
      s.arrays[a].vec.codeAt c.pc = ⟨w, false⟩ →
      ∃ t, exec (.vectorIssue a core .endContext) s = .next t ∧
        t.arrays[a].vec.ctxs.all (fun x => !isCtx c.core c.idx x) = true ∧ t.arrays[a].vec.launches = s.arrays[a].vec.launches) ∧
  (∀ (s : State) (a : ArrayId) (core : Fin 16) (p : PanelId) (c : Ctx) (w : DWord),
      s.toRun a core = some (p, c) →
      c.pc < 16384 →
      s.arrays[a].vec.codeAt c.pc = ⟨w, false⟩ →
      c.addressMarked (vins w) = false →
      c.enabled (vins w) = [] →
      ∃ t, exec (.vectorIssue a core .localStore) s = .next t ∧
        t.arrays[a].vec.localStore = s.arrays[a].vec.localStore ∧ t.arrays[a].vec.lastIssued[c.core] = c.idx) ∧
  (∀ (s : State) (a : ArrayId) (core : Fin 16) (p : PanelId) (c : Ctx) (w : DWord) (l : Nat),
      s.toRun a core = some (p, c) →
      c.pc < 16384 →
      s.arrays[a].vec.codeAt c.pc = ⟨w, false⟩ →
      c.addressMarked (vins w) = false →
      c.enabled (vins w) = [l] →
      ∃ t, exec (.vectorIssue a core .localStore) s = .next t ∧
        t.arrays[a].vec.localAt (localKey core (c.localAddr (vins w) l)) = c.lane (vins w).src2 l) ∧
  (∀ (s : State) (a : ArrayId) (core : Fin 16) (p : PanelId) (c : Ctx) (w : DWord),
      s.toRun a core = some (p, c) →
      c.pc < 16384 →
      s.arrays[a].vec.codeAt c.pc = ⟨w, false⟩ →
      s.arrays[a].seq.fault.valid = false →
      ∃ t, exec (.vectorIssue a core .undefinedOp) s = .next t ∧
        t.arrays[a].seq.fault = ⟨true, s.arrays[a].seq.fault.overflow, 2, 0x23, BitVec.ofNat 16 (16 * core.val)⟩) ∧
  (∀ (s : State) (a : ArrayId) (core : Fin 16) (p : PanelId) (c : Ctx) (w : DWord) (op : VecOp),
      s.toRun a core = some (p, c) →
      c.pc < 16384 →
      s.arrays[a].vec.codeAt c.pc = ⟨w, false⟩ →
      (s.arrays[a].vec.ctxs.find? fun x => isCtx c.core c.idx x) = some c →
      op ∈ [VecOp.fcmpEq, .fcmpLt, .fcmpLe, .icmpEq, .icmpLt] →
      ∃ t, exec (.vectorIssue a core op) s = .next t ∧
        (t.arrays[a].vec.ctxs.find? fun x => isCtx c.core c.idx x) = some (Ctx.runCmp { c with pc := c.pc + 1 } op (vins w)) ∧ t.arrays[a].vec.lastIssued[c.core] = c.idx) ∧
  (∀ (s : State) (a : ArrayId) (core : Fin 16) (p : PanelId) (c : Ctx) (w : DWord) (op : VecOp),
      s.toRun a core = some (p, c) →
      c.pc < 16384 →
      s.arrays[a].vec.codeAt c.pc = ⟨w, false⟩ →
      (s.arrays[a].vec.ctxs.find? fun x => isCtx c.core c.idx x) = some c →
      op = .select →
      ∃ t, exec (.vectorIssue a core op) s = .next t ∧
        (t.arrays[a].vec.ctxs.find? fun x => isCtx c.core c.idx x) = some (Ctx.runSelect { c with pc := c.pc + 1 } (vins w)) ∧ t.arrays[a].vec.lastIssued[c.core] = c.idx) ∧
  (∀ (s : State) (a : ArrayId) (core : Fin 16) (p : PanelId) (c : Ctx) (w : DWord) (op : VecOp),
      s.toRun a core = some (p, c) →
      c.pc < 16384 →
      s.arrays[a].vec.codeAt c.pc = ⟨w, false⟩ →
      (s.arrays[a].vec.ctxs.find? fun x => isCtx c.core c.idx x) = some c →
      op = .shuffle →
      ∃ t, exec (.vectorIssue a core op) s = .next t ∧
        (t.arrays[a].vec.ctxs.find? fun x => isCtx c.core c.idx x) = some (Ctx.runShuffle { c with pc := c.pc + 1 } w (vins w) false) ∧ t.arrays[a].vec.lastIssued[c.core] = c.idx) ∧
  (∀ (s : State) (a : ArrayId) (core : Fin 16) (p : PanelId) (c : Ctx) (w : DWord) (op : VecOp),
      s.toRun a core = some (p, c) →
      c.pc < 16384 →
      s.arrays[a].vec.codeAt c.pc = ⟨w, false⟩ →
      (s.arrays[a].vec.ctxs.find? fun x => isCtx c.core c.idx x) = some c →
      op = .broadcast →
      ∃ t, exec (.vectorIssue a core op) s = .next t ∧
        (t.arrays[a].vec.ctxs.find? fun x => isCtx c.core c.idx x) = some (Ctx.runShuffle { c with pc := c.pc + 1 } w (vins w) true) ∧ t.arrays[a].vec.lastIssued[c.core] = c.idx) ∧
  (∀ (s : State) (a : ArrayId) (core : Fin 16) (p : PanelId) (c : Ctx) (w : DWord) (op : VecOp),
      s.toRun a core = some (p, c) →
      c.pc < 16384 →
      s.arrays[a].vec.codeAt c.pc = ⟨w, false⟩ →
      (s.arrays[a].vec.ctxs.find? fun x => isCtx c.core c.idx x) = some c →
      op = .reduceAdd →
      ∃ t, exec (.vectorIssue a core op) s = .next t ∧
        (t.arrays[a].vec.ctxs.find? fun x => isCtx c.core c.idx x) = some (Ctx.runReduce { c with pc := c.pc + 1 } (vins w) Config.reduceAdd) ∧ t.arrays[a].vec.lastIssued[c.core] = c.idx) ∧
  (∀ (s : State) (a : ArrayId) (core : Fin 16) (p : PanelId) (c : Ctx) (w : DWord) (op : VecOp),
      s.toRun a core = some (p, c) →
      c.pc < 16384 →
      s.arrays[a].vec.codeAt c.pc = ⟨w, false⟩ →
      (s.arrays[a].vec.ctxs.find? fun x => isCtx c.core c.idx x) = some c →
      op = .reduceMax →
      ∃ t, exec (.vectorIssue a core op) s = .next t ∧
        (t.arrays[a].vec.ctxs.find? fun x => isCtx c.core c.idx x) = some (Ctx.runReduce { c with pc := c.pc + 1 } (vins w) maxOf) ∧ t.arrays[a].vec.lastIssued[c.core] = c.idx) ∧
  (∀ (s : State) (a : ArrayId) (core : Fin 16) (p : PanelId) (c : Ctx) (w : DWord),
      s.toRun a core = some (p, c) →
      c.pc < 16384 →
      s.arrays[a].vec.codeAt c.pc = ⟨w, false⟩ →
      (s.arrays[a].vec.ctxs.find? fun x => isCtx c.core c.idx x) = some c →
      ((c.enabled (vins w)).any fun l => (c.lane (vins w).src1 l).mark) = false →
      ∃ t, exec (.vectorIssue a core .localLoad) s = .next t ∧
        ∃ d, (t.arrays[a].vec.ctxs.find? fun x => isCtx c.core c.idx x) = some d ∧ d.pc = c.pc + 1 ∧
          ∀ l, l < 64 → d.lane (vins w).dest l = if bit (c.preg (vins w).pred).bits l then s.arrays[a].vec.localAt (localKey core (c.localAddr (vins w) l)) else c.lane (vins w).dest l) ∧
  (∀ (s : State) (a : ArrayId) (core : Fin 16) (p : PanelId) (c : Ctx) (w : DWord),
      s.toRun a core = some (p, c) →
      c.pc < 16384 →
      s.arrays[a].vec.codeAt c.pc = ⟨w, false⟩ →
      (s.arrays[a].vec.ctxs.find? fun x => isCtx c.core c.idx x) = some c →
      (c.sreg ((vins w).src1 % 16)).mark = false →
      ∃ t, exec (.vectorIssue a core .toSequencer) s = .next t ∧
        (t.arrays[a].vec.ctxs.find? fun x => isCtx c.core c.idx x) = some { c with pc := c.pc + 1 } ∧ t.arrays[a].vec.lastIssued[c.core] = c.idx) ∧
  (∀ (s : State) (a : ArrayId) (core : Fin 16) (p : PanelId) (c : Ctx) (w : DWord) (f : MxFormat),
      s.toRun a core = some (p, c) →
      c.pc < 16384 →
      s.arrays[a].vec.codeAt c.pc = ⟨w, false⟩ →
      (s.arrays[a].vec.ctxs.find? fun x => isCtx c.core c.idx x) = some c →
      ∃ t, exec (.vmxq a core f) s = .next t ∧
        (t.arrays[a].vec.ctxs.find? fun x => isCtx c.core c.idx x) = some (Ctx.runVmxq { c with pc := c.pc + 1 } f (vins w)) ∧ t.arrays[a].vec.lastIssued[c.core] = c.idx)

/-- Each clause names a command and says, of every state and operands that meet its hypotheses and of nothing else, that
exec answers a next state (`exec c s = .next t`), and what it holds. Loads, stores and atomics of a context whose
addresses are aligned, unmarked and translate; the two misalignment faults; a tile element taken from the exchange
buffer; the end of the work on a tile; and the retirement of a launch. Completes, with a next state of its own effect:
vectorLoad, vectorStore, vatom, vtx, vtxdone, kernelRetire. The choices of the model in it are those of assumption
logs 12, 13 and 36. Drawn from R71 to R75. -/
def Obligations.VectorMemory : Prop :=
  (∀ (s s₁ s₂ : State) (a : ArrayId) (core : Fin 16) (p : PanelId) (c : Ctx) (w : DWord) (g : Bool) (ws : List (BitVec 55 × CodeWord)) (vas : List (BitVec 55)),
      s.toRun a core = some (p, c) →
      c.pc < 16384 →
      s.arrays[a].vec.codeAt c.pc = ⟨w, false⟩ →
      (s.arrays[a].vec.ctxs.find? fun x => isCtx c.core c.idx x) = some c →
      c.memMarked (vins w) g = false →
      (g = true ∨ (c.memStart (vins w)).toNat % 4 = 0) →
      ((c.enabled (vins w)).all fun l => decide ((c.laneVa (vins w) g l).toNat % 4 = 0)) = true →
      vas = sortVas ((c.enabled (vins w)).map fun l => wordVa (c.laneVa (vins w) g l)) →
      s.linesBusy (s.vectorEng a p) .read vas = false →
      s.laneOwes a p c .read vas = false →
      s.checkVas (s.vectorEng a p) .read vas = (none, s₁) →
      s₁.readWords (s.vectorEng a p) vas = (.ok ws, s₂) →
      ∃ t, exec (.vectorLoad a core g) s = .next t ∧
        ∃ d, (t.arrays[a].vec.ctxs.find? fun x => isCtx c.core c.idx x) = some d ∧ d.pc = c.pc + 1 ∧
          ∀ l, l < 64 → d.lane (vins w).dest l = if bit (c.preg (vins w).pred).bits l then laneFrom ws (c.laneVa (vins w) g l) else c.lane (vins w).dest l) ∧
  (∀ (s : State) (a : ArrayId) (core : Fin 16) (p : PanelId) (c : Ctx) (w : DWord) (g : Bool),
      s.toRun a core = some (p, c) →
      c.pc < 16384 →
      s.arrays[a].vec.codeAt c.pc = ⟨w, false⟩ →
      c.memMarked (vins w) g = false →
      ((g = false ∧ (c.memStart (vins w)).toNat % 4 ≠ 0) ∨ ((c.enabled (vins w)).any fun l => decide ((c.laneVa (vins w) g l).toNat % 4 ≠ 0)) = true) →
      s.arrays[a].seq.fault.valid = false →
      ∃ t, exec (.vectorLoad a core g) s = .next t ∧
        t.arrays[a].seq.fault = ⟨true, s.arrays[a].seq.fault.overflow, 2, 0x21, BitVec.ofNat 16 (16 * core.val)⟩) ∧
  (∀ (s s₁ s₂ : State) (a : ArrayId) (core : Fin 16) (p : PanelId) (c : Ctx) (w : DWord) (ws : List (BitVec 55 × CodeWord)),
      s.toRun a core = some (p, c) →
      c.pc < 16384 →
      s.arrays[a].vec.codeAt c.pc = ⟨w, false⟩ →
      (s.arrays[a].vec.ctxs.find? fun x => isCtx c.core c.idx x) = some c →
      c.memMarked (vins w) false = false →
      c.enableMarked (vins w) = false →
      (c.memStart (vins w)).toNat % 64 = 0 →
      c.storeWords (vins w) = some ws →
      (ws.all fun x => !x.2.mark) = true →
      s.linesBusy ((s.vectorEng a p).at (.kernel c.launch)) .write (ws.map fun x => x.1) = false →
      s.laneOwes a p c .write (ws.map fun x => x.1) = false →
      s.checkVas ((s.vectorEng a p).at (.kernel c.launch)) .write (ws.map fun x => x.1) = (none, s₁) →
      (s₁.siteWrites a p (ws.map fun x => x.1)).sendWords ((s.vectorEng a p).at (.kernel c.launch)) ws = (.done 0, s₂) →
      ∃ t, exec (.vectorStore a core) s = .next t ∧
        (t.arrays[a].vec.ctxs.find? fun x => isCtx c.core c.idx x) = some { c with pc := c.pc + 1 } ∧ t.mem = s₂.mem ∧ t.net = s₂.net ∧ t.out = s₂.out) ∧
  (∀ (s : State) (a : ArrayId) (core : Fin 16) (p : PanelId) (c : Ctx) (w : DWord),
      s.toRun a core = some (p, c) →
      c.pc < 16384 →
      s.arrays[a].vec.codeAt c.pc = ⟨w, false⟩ →
      c.memMarked (vins w) false = false →
      c.enableMarked (vins w) = false →
      (c.memStart (vins w)).toNat % 64 ≠ 0 ∨ c.storeWords (vins w) = none →
      s.arrays[a].seq.fault.valid = false →
      ∃ t, exec (.vectorStore a core) s = .next t ∧
        t.arrays[a].seq.fault = ⟨true, s.arrays[a].seq.fault.overflow, 2, 0x20, BitVec.ofNat 16 (16 * core.val)⟩ ∧ t.mem = s.mem) ∧
  (∀ (s s₁ s₃ : State) (a : ArrayId) (core : Fin 16) (p : PanelId) (c : Ctx) (w : DWord),
      s.toRun a core = some (p, c) →
      c.pc < 16384 →
      s.arrays[a].vec.codeAt c.pc = ⟨w, false⟩ →
      c.memMarked (vins w) true = false →
      c.enableMarked (vins w) = false →
      ((c.enabled (vins w)).all fun l => decide ((c.laneVa (vins w) true l).toNat % atomicSize (vatomOp (vins w).type) = 0)) = true →
      s.checkVas (s.vectorEng a p) .atomic (sortVas ((c.enabled (vins w)).map fun l => wordVa (c.laneVa (vins w) true l))) = (none, s₁) →
      ((s₁.modSeq a fun x => { x with atomicIssued := x.atomicIssued || (x.atomic && c.enabled (vins w) ≠ []) }).vecIssued a c id).sendLanes a p c (vins w) (s.vectorEng a p) (c.enabled (vins w)) = some (0, s₃) →
      ∃ t, exec (.vatom a core) s = .next t ∧
        t = s₃) ∧
  (∀ (s : State) (a : ArrayId) (core : Fin 16) (p : PanelId) (c : Ctx) (w : DWord) (k : Fin 4),
      s.toRun a core = some (p, c) →
      c.pc < 16384 →
      s.arrays[a].vec.codeAt c.pc = ⟨w, false⟩ →
      (s.arrays[a].vec.ctxs.find? fun x => isCtx c.core c.idx x) = some c →
      s.arrays[a].cube.tileFor c = some k →
      s.arrays[a].vec.taker.map (fun l => l.serial) = some c.launch →
      (c.sreg ((vins w).src1 % 16)).mark = false →
      ∃ t, exec (.vtx a core) s = .next t ∧
        ∃ d, (t.arrays[a].vec.ctxs.find? fun x => isCtx c.core c.idx x) = some d ∧ d.pc = c.pc + 1 ∧
          ∀ l, l < 64 → d.lane (vins w).dest l = if bit (c.preg (vins w).pred).bits l then
            tileElem s.arrays[a].cube.exch[k].tile s.draws ((c.sreg ((vins w).src1 % 16)).bits.toNat + (vins w).imm + l) else c.lane (vins w).dest l) ∧
  (∀ (s : State) (a : ArrayId) (core : Fin 16) (p : PanelId) (c : Ctx) (w : DWord) (k : Fin 4) (l : Launch),
      s.toRun a core = some (p, c) →
      c.pc < 16384 →
      s.arrays[a].vec.codeAt c.pc = ⟨w, false⟩ →
      s.arrays[a].cube.tileFor c = some k →
      s.arrays[a].vec.taker = some l →
      l.serial = c.launch →
      s.arrays[a].cube.exch[k].doneBy.length + 1 < l.contexts →
      ∃ t, exec (.vtxdone a core) s = .next t ∧
        t.arrays[a].cube.exch[k] = { s.arrays[a].cube.exch[k] with doneBy := s.arrays[a].cube.exch[k].doneBy ++ [c.number] } ∧
        t.arrays[a].vec.launches = s.arrays[a].vec.launches) ∧
  (∀ (s : State) (a : ArrayId) (core : Fin 16) (p : PanelId) (c : Ctx) (w : DWord) (k : Fin 4) (l : Launch),
      s.toRun a core = some (p, c) →
      c.pc < 16384 →
      s.arrays[a].vec.codeAt c.pc = ⟨w, false⟩ →
      s.arrays[a].cube.tileFor c = some k →
      s.arrays[a].vec.taker = some l →
      l.serial = c.launch →
      l.contexts ≤ s.arrays[a].cube.exch[k].doneBy.length + 1 →
      ∃ t, exec (.vtxdone a core) s = .next t ∧
        t.arrays[a].cube.exch[k] = {} ∧ t.arrays[a].vec.launches = modFirst (fun m => decide (m.serial = l.serial)) (fun m => { m with tilesLeft := m.tilesLeft - 1 }) s.arrays[a].vec.launches) ∧
  (∀ (s : State) (a : ArrayId) (n : Nat) (l : Launch),
      (s.arrays[a].vec.launches.find? fun l => decide (l.serial = n)) = some l →
      l.tilesLeft = 0 →
      (s.arrays[a].vec.ctxs.all fun c => decide (c.launch ≠ n)) = true →
      s.workOwes a (.kernel n) = false →
      ∃ t, exec (.kernelRetire a n) s = .next t ∧
        t.arrays[a].vec.launches = s.arrays[a].vec.launches.filter (fun m => m.serial ≠ n) ∧ t.arrays[a].vec.ctxs = s.arrays[a].vec.ctxs)

/-- Each clause names a command and says, of every state and operands that meet its hypotheses and of nothing else, that
exec answers a next state (`exec c s = .next t`), and what it holds. The fetch of an instruction; STEP, with its wait
list met or not; STEPEND, the commit, SIGNAL, WAITC, LOOP, ENDLOOP, NOP and END; a fifth loop level, an ENDLOOP
without a loop, and a SIGNAL out of place are faults. Completes, with a next state of its own effect: scheduleFetch,
step, stepend, stepCommit, signal, waitc, loop, endloop, nop, endSchedule. The choices of the model in it are those of
assumption logs 22 and 25. Drawn from R76 to R82, R97. -/
def Obligations.ScheduleFlow : Prop :=
  (∀ (s s₁ : State) (a : ArrayId) (p : PanelId) (ws : List CodeWord) (w : BitVec 128),
      s.arrays[a].panel = some p →
      s.arrays[a].st = 0 →
      s.arrays[a].seq.state = seqRunning →
      s.arrays[a].seq.ir = none →
      s.arrays[a].seq.stalled = false →
      s.arrays[a].seq.singleStep = false →
      s.linesBusy (s.seqEng a p) .fetch (coverVas s.arrays[a].seq.pc 16) = false →
      s.readTile a p .fetch s.arrays[a].seq.pc 16 = (.ok ws, s₁) →
      markAt s.arrays[a].seq.pc 0 16 ws = false →
      w = BitVec.ofNat 128 (natOf (bytesAt s.arrays[a].seq.pc 16 ws)) →
      definedOpcode (insField w 0 26 6) = true →
      scheduleBad w = none →
      ∃ t, exec (.scheduleFetch a) s = .next t ∧
        t.arrays[a].seq = { s.arrays[a].seq with ir := some w, pc := s.arrays[a].seq.pc + 16 }) ∧
  (∀ (s : State) (a : ArrayId) (p : PanelId) (w : BitVec 128),
      s.toIssue a opStep = some (p, w) →
      (s.arrays[a].seq.loops.any fun l => l.inStep) = false →
      ∃ t, exec (.step a) s = .next t ∧
        t.arrays[a].seq.attempt = 1 ∧ t.arrays[a].seq.stepId = BitVec.ofNat 24 (insField w 0 0 24) ∧ t.arrays[a].seq.atomic = decide (insField w 0 25 1 = 1) ∧
        t.arrays[a].seq.stepPc = s.arrays[a].seq.pc ∧ t.arrays[a].seq.savedLoops = s.arrays[a].seq.loops ∧ t.arrays[a].seq.ir = none) ∧
  (∀ (s : State) (a : ArrayId) (p : PanelId) (w : BitVec 128),
      s.toIssue a opStep = some (p, w) →
      (s.arrays[a].seq.loops.any fun l => l.inStep) = false →
      s.arrays[a].seq.sems[(waitEntry (BitVec.ofNat 64 (fld w.toNat 32 64)) 0).1].toNat < (waitEntry (BitVec.ofNat 64 (fld w.toNat 32 64)) 0).2 →
      ∃ t, exec (.step a) s = .next t ∧
        t.arrays[a].seq.state = seqWaiting ∧ t.arrays[a].seq.stepOpen = false ∧ t.arrays[a].seq.waitIdx = 0 ∧ t.arrays[a].seq.sems = s.arrays[a].seq.sems ∧ t.arrays[a].seq.wdRunning = false) ∧
  (∀ (s : State) (a : ArrayId) (p : PanelId) (w : BitVec 128),
      s.toIssue a opStep = some (p, w) →
      (s.arrays[a].seq.loops.any fun l => l.inStep) = false →
      fld w.toNat 32 64 = 0 →
      s.arrays[a].seq.singleStep = false →
      ∃ t, exec (.step a) s = .next t ∧
        t.arrays[a].seq.state = seqRunning ∧ t.arrays[a].seq.stepOpen = true ∧ t.arrays[a].seq.sems = s.arrays[a].seq.sems ∧
        t.arrays[a].seq.wdRunning = true ∧ t.arrays[a].seq.wdRemain = 937500) ∧
  (∀ (s : State) (a : ArrayId) (p : PanelId) (w : BitVec 128),
      s.toIssue a opStepend = some (p, w) →
      (s.arrays[a].seq.loops.any fun l => l.inStep) = false →
      s.signalFault a (signalEntries w) = none →
      ∃ t, exec (.stepend a) s = .next t ∧
        t.arrays[a].seq.state = seqCommitting ∧ t.arrays[a].seq.commitSignals = signalEntries w ∧ t.arrays[a].seq.ir = none ∧ t.arrays[a].seq.stepOpen = s.arrays[a].seq.stepOpen) ∧
  (∀ (s s₂ : State) (a : ArrayId),
      s.arrays[a].seq.state = seqCommitting →
      s.arrays[a].quiet = true →
      s.arrayOwes a = false →
      (s.modSeq a fun y => { y with state := seqRunning, stepOpen := false, commitSignals := [], afterStepend := true }).sendSignals a s.arrays[a].seq.commitSignals = some s₂ →
      ∃ t, exec (.stepCommit a) s = .next t ∧
        t.net = s₂.net ∧ t.arrays[a].cube = s₂.arrays[a].cube) ∧
  (∀ (s : State) (a : ArrayId),
      s.arrays[a].seq.state = seqCommitting →
      s.arrays[a].quiet = true →
      s.arrayOwes a = false →
      s.arrays[a].seq.commitSignals = [] →
      s.arrays[a].seq.singleStep = false →
      ∃ t, exec (.stepCommit a) s = .next t ∧
        t.arrays[a].seq.state = seqRunning ∧ t.arrays[a].seq.stepOpen = false ∧ t.arrays[a].seq.afterStepend = true) ∧
  (∀ (s s₁ : State) (a : ArrayId) (p : PanelId) (w : BitVec 128),
      s.toIssue a opSignal = some (p, w) →
      s.arrays[a].seq.afterStepend = true →
      s.signalFault a (signalEntries w) = none →
      s.sendSignals a (signalEntries w) = some s₁ →
      ∃ t, exec (.signal a) s = .next t ∧
        t.arrays[a].seq.afterStepend = true ∧ t.arrays[a].seq.ir = none ∧ t.net = s₁.net) ∧
  (∀ (s : State) (a : ArrayId) (p : PanelId) (w : BitVec 128),
      s.toIssue a opSignal = some (p, w) →
      s.arrays[a].seq.afterStepend = false →
      s.arrays[a].seq.fault.valid = false →
      ∃ t, exec (.signal a) s = .next t ∧
        t.arrays[a].seq.fault = ⟨true, s.arrays[a].seq.fault.overflow, 0, 0x12, 0⟩ ∧ t.net = s.net) ∧
  (∀ (s : State) (a : ArrayId) (p : PanelId) (w : BitVec 128),
      s.toIssue a opWaitc = some (p, w) →
      insField w 0 25 1 = 0 ∨ s.arrays[a].cube.ops.length ≤ insField w 0 0 16 →
      insField w 0 24 1 = 0 ∨ s.arrays[a].vec.launches.length ≤ insField w 0 0 16 →
      insField w 0 23 1 = 0 ∨ s.arrays[a].moves.length ≤ insField w 0 0 16 →
      ∃ t, exec (.waitc a) s = .next t ∧
        t.arrays[a].seq.ir = none ∧ t.arrays[a].seq.pc = s.arrays[a].seq.pc ∧ t.arrays[a].seq.afterStepend = false) ∧
  (∀ (s : State) (a : ArrayId) (p : PanelId) (w : BitVec 128),
      s.toIssue a opWaitc = some (p, w) →
      insField w 0 25 1 = 1 →
      insField w 0 0 16 < s.arrays[a].cube.ops.length →
      ∃ t, exec (.waitc a) s = .next t ∧
        t = s) ∧
  (∀ (s : State) (a : ArrayId) (p : PanelId) (w : BitVec 128),
      s.toIssue a opLoop = some (p, w) →
      s.arrays[a].seq.loops.length < 4 →
      ∃ t, exec (.loop a) s = .next t ∧
        t.arrays[a].seq.loops = ⟨s.arrays[a].seq.pc, insField w 0 0 24, s.arrays[a].seq.stepOpen⟩ :: s.arrays[a].seq.loops ∧ t.arrays[a].seq.ir = none) ∧
  (∀ (s : State) (a : ArrayId) (p : PanelId) (w : BitVec 128),
      s.toIssue a opLoop = some (p, w) →
      4 ≤ s.arrays[a].seq.loops.length →
      s.arrays[a].seq.fault.valid = false →
      ∃ t, exec (.loop a) s = .next t ∧
        t.arrays[a].seq.fault = ⟨true, s.arrays[a].seq.fault.overflow, 0, 0x13, BitVec.ofNat 16 (s.arrays[a].seq.loops.length + 1)⟩) ∧
  (∀ (s : State) (a : ArrayId) (p : PanelId) (w : BitVec 128) (fr : LoopFrame) (r : List LoopFrame),
      s.toIssue a opEndloop = some (p, w) →
      s.arrays[a].seq.loops = fr :: r →
      fr.inStep = s.arrays[a].seq.stepOpen →
      1 < fr.left →
      ∃ t, exec (.endloop a) s = .next t ∧
        t.arrays[a].seq.loops = { fr with left := fr.left - 1 } :: r ∧ t.arrays[a].seq.pc = fr.start) ∧
  (∀ (s : State) (a : ArrayId) (p : PanelId) (w : BitVec 128) (fr : LoopFrame) (r : List LoopFrame),
      s.toIssue a opEndloop = some (p, w) →
      s.arrays[a].seq.loops = fr :: r →
      fr.inStep = s.arrays[a].seq.stepOpen →
      fr.left ≤ 1 →
      ∃ t, exec (.endloop a) s = .next t ∧
        t.arrays[a].seq.loops = r ∧ t.arrays[a].seq.pc = s.arrays[a].seq.pc) ∧
  (∀ (s : State) (a : ArrayId) (p : PanelId) (w : BitVec 128),
      s.toIssue a opEndloop = some (p, w) →
      s.arrays[a].seq.loops = [] →
      s.arrays[a].seq.fault.valid = false →
      ∃ t, exec (.endloop a) s = .next t ∧
        t.arrays[a].seq.fault = ⟨true, s.arrays[a].seq.fault.overflow, 0, 0x13, 0⟩) ∧
  (∀ (s : State) (a : ArrayId) (p : PanelId) (w : BitVec 128),
      s.toIssue a opNop = some (p, w) →
      s.arrays[a].seq.singleStep = false →
      ∃ t, exec (.nop a) s = .next t ∧
        t.arrays[a].seq = { s.arrays[a].seq with ir := none, afterStepend := false } ∧ t.arrays[a].cube = s.arrays[a].cube ∧ t.arrays[a].vec = s.arrays[a].vec) ∧
  (∀ (s : State) (a : ArrayId) (p : PanelId) (w : BitVec 128) (q : QRef) (x : Taken),
      s.toIssue a opEnd = some (p, w) →
      s.arrays[a].quiet = true →
      s.arrayOwes a = false →
      s.arrays[a].seq.inv = some q →
      s.taken q = some x →
      ∃ t, exec (.endSchedule a) s = .next t ∧
        t.arrays[a].seq.state = seqIdle ∧ t.arrays[a].seq.ended = true ∧ t.arrays[a].seq.wdRunning = false ∧
        (t.taken q).map (fun y => y.endedArrays) = some (x.endedArrays ++ [asFin 40 s.arrays[a].logical.toNat]))

/-- Each clause names a command and says, of every state and operands that meet its hypotheses and of nothing else, that
exec answers a next state (`exec c s = .next t`), and what it holds. DLOAD writes tile descriptors, KLOAD the kernel
code store, VLAUNCH starts contexts with their argument, MOVE starts a transfer whose descriptor its checks accept,
and a transfer with all its tiles written and acknowledged retires; a transfer descriptor out of place is fault 0x30.
Completes, with a next state of its own effect: dload, kload, vlaunch, move, moveRetire. The choices of the model in
it are those of assumption logs 23, 24 and 36. Drawn from R83 to R85. -/
def Obligations.ScheduleLoads : Prop :=
  (∀ (s s₁ : State) (a : ArrayId) (p : PanelId) (w : BitVec 128) (va : BitVec 55) (ws : List CodeWord) (j : Fin 64),
      s.toIssue a opDload = some (p, w) →
      va = s.arrays[a].seq.address w 25 →
      s.linesBusy (s.seqEng a p) .read (coverVas va (32 * (insField w 0 6 6 + 1))) = false →
      s.readTile a p .read va (32 * (insField w 0 6 6 + 1)) = (.ok ws, s₁) →
      ((List.range (insField w 0 6 6 + 1)).find? fun i => markAt va (32 * i) 32 ws) = none →
      insField w 0 0 6 + insField w 0 6 6 < 64 →
      ∃ t, exec (.dload a) s = .next t ∧
        t.arrays[a].cube.descs[j] = (if insField w 0 0 6 ≤ j.val ∧ j.val ≤ insField w 0 0 6 + insField w 0 6 6 then
          BitVec.ofNat 256 (natOf (((bytesAt va (32 * (insField w 0 6 6 + 1)) ws).drop (32 * (j.val - insField w 0 0 6))).take 32)) else s.arrays[a].cube.descs[j]) ∧ t.arrays[a].seq.ir = none) ∧
  (∀ (s s₁ : State) (a : ArrayId) (p : PanelId) (w : BitVec 128) (va : BitVec 55) (ws : List CodeWord) (j : Nat),
      s.toIssue a opKload = some (p, w) →
      s.arrays[a].vec.launches = [] →
      va = s.arrays[a].seq.address w 25 →
      s.linesBusy (s.seqEng a p) .read (coverVas va (insField w 3 0 32)) = false →
      s.readTile a p .read va (insField w 3 0 32) = (.ok ws, s₁) →
      ∃ t, exec (.kload a) s = .next t ∧
        t.arrays[a].vec.codeAt j = (if insField w 0 0 14 ≤ j ∧ j < insField w 0 0 14 + insField w 3 0 32 / 8 then
          ⟨BitVec.ofNat 64 (natOf (((bytesAt va (insField w 3 0 32) ws).drop (8 * (j - insField w 0 0 14))).take 8)), markAt va (8 * (j - insField w 0 0 14)) 8 ws⟩
          else s.arrays[a].vec.codeAt j) ∧ t.arrays[a].seq.ir = none) ∧
  (∀ (s : State) (a : ArrayId) (p : PanelId) (w : BitVec 128),
      s.toIssue a opVlaunch = some (p, w) →
      s.arrays[a].vec.ctxs = [] →
      insField w 0 0 10 = 0 →
      ∃ t, exec (.vlaunch a) s = .next t ∧
        t.arrays[a].vec.ctxs = [⟨0, 0, insField w 0 10 14, s.arrays[a].vec.nextLaunch, s.arrays[a].vec.nextLaunch, [],
          [(0, ⟨(s.arrays[a].seq.address w 24).setWidth 64, false⟩)], [], false, false, [], false⟩] ∧ t.arrays[a].seq.ir = none) ∧
  (∀ (s : State) (a : ArrayId) (p : PanelId) (w : BitVec 128),
      s.toIssue a opVlaunch = some (p, w) →
      s.arrays[a].vec.ctxs.length + (insField w 0 0 10 + 1) ≤ 1024 →
      ∃ t, exec (.vlaunch a) s = .next t ∧
        t.arrays[a].vec.launches = s.arrays[a].vec.launches ++ [⟨s.arrays[a].vec.nextLaunch, decide (insField w 0 25 1 = 1),
          if insField w 0 25 1 = 1 then insField w 3 0 32 else 0, insField w 0 0 10 + 1, s.insPc a⟩]) ∧
  (∀ (s s₁ : State) (a : ArrayId) (p : PanelId) (w : BitVec 128) (va : BitVec 55) (ws : List CodeWord) (d : BitVec 512) (s₃ : State),
      s.toIssue a opMove = some (p, w) →
      va = s.arrays[a].seq.address w 25 →
      va.toNat % 64 = 0 →
      s.linesBusy (s.seqEng a p) .read (coverVas va 64) = false →
      s.readTile a p .read va 64 = (.ok ws, s₁) →
      markAt va 0 64 ws = false →
      d = bytesWord (bytesAt va 64 ws) →
      moveBad d = none →
      s.arrays[a].moves = [] →
      moveTiles d = 1 →
      State.runTile ((s₁.issued a).modArray a fun x => { x with moves := [⟨s.arrays[a].nextMove, asFin 8 (insField w 0 0 3), d, 0, false, false, s.insPc a⟩], nextMove := x.nextMove + 1 }) a p s.arrays[a].nextMove (moveZero d) (moveTile d 0) = (.done 0, s₃) →
      ∃ t, exec (.move a) s = .next t ∧
        t.arrays[a].seq.ir = none ∧ t.arrays[a].moves = [⟨s.arrays[a].nextMove, asFin 8 (insField w 0 0 3), d, 1, true, false, s.insPc a⟩] ∧ t.mem = s₃.mem ∧ t.net = s₃.net) ∧
  (∀ (s s₁ : State) (a : ArrayId) (p : PanelId) (w : BitVec 128) (va : BitVec 55) (ws : List CodeWord) (d : BitVec 512) (k : Nat),
      s.toIssue a opMove = some (p, w) →
      va = s.arrays[a].seq.address w 25 →
      va.toNat % 64 = 0 →
      s.linesBusy (s.seqEng a p) .read (coverVas va 64) = false →
      s.readTile a p .read va 64 = (.ok ws, s₁) →
      markAt va 0 64 ws = false →
      d = bytesWord (bytesAt va 64 ws) →
      moveBad d = some k →
      s.arrays[a].seq.fault.valid = false →
      ∃ t, exec (.move a) s = .next t ∧
        t.arrays[a].seq.fault = ⟨true, s.arrays[a].seq.fault.overflow, 3, 0x30, BitVec.ofNat 16 ((asFin 8 (insField w 0 0 3)).val * 32 + k)⟩) ∧
  (∀ (s : State) (a : ArrayId) (c : Fin 8) (p : PanelId) (m : MoveOp),
      s.arrays[a].panel = some p →
      (s.arrays[a].moves.find? fun m => decide (m.channel = c)) = some m →
      (s.arrays[a].moves.all fun m => decide (m.channel ≠ c) || m.done) = true →
      s.workOwes a (.move m.serial) = false →
      ∃ t, exec (.moveRetire a c) s = .next t ∧
        t.arrays[a].moves = s.arrays[a].moves.eraseP (fun y => y.channel = c) ∧ t.mem = s.mem)

/-- Each clause names a command and says, of every state and operands that meet its hypotheses and of nothing else, that
exec answers a next state (`exec c s = .next t`), and what it holds. A signal adds its increment once for a
transaction ID, and holds a semaphore at 65,535 with fault 0x15; an expired watchdog ends the attempt; a liveness
report; a re-run restarts the step from the instruction after STEP; the three functions of SEQ_CONTROL. Completes,
with a next state of its own effect: semaphoreSignal, watchdogExpiry, livenessReport, stepRerun, seqHalt, seqResume,
seqStepOne. The choices of the model in it are those of assumption logs 19, 28 and 84. Drawn from R79, R87 to R89,
R93, R102. -/
def Obligations.ScheduleControl : Prop :=
  (∀ (s : State) (id : TxId) (x : Txn) (f : FieldId) (ni : NiId) (sem : Fin 64) (inc : Byte) (slot : Fin 8) (a : ArrayId),
      s.txn id = some x →
      x.kind = .signal f ni sem inc slot →
      x.stage = .atTarget →
      s.signalArray f ni = some a →
      s.isolated f ni = false →
      s.arrays[a].st = 0 →
      s.dedupOf (fieldOfArray a) (niOfArray a) id = none →
      s.tableRoom (fieldOfArray a) (niOfArray a) id = true →
      s.arrays[a].seq.state ≠ seqWaiting →
      s.arrays[a].seq.sems[sem].toNat + inc.toNat ≤ 65535 →
      ∃ t, exec (.semaphoreSignal id) s = .next t ∧
        t.arrays[a].seq.sems[sem].toNat = s.arrays[a].seq.sems[sem].toNat + inc.toNat ∧ (∀ k, k ≠ sem → t.arrays[a].seq.sems[k] = s.arrays[a].seq.sems[k])) ∧
  (∀ (s : State) (id : TxId) (x : Txn) (f : FieldId) (ni : NiId) (sem : Fin 64) (inc : Byte) (slot : Fin 8) (a : ArrayId) (e : DedupEntry),
      s.txn id = some x →
      x.kind = .signal f ni sem inc slot →
      x.stage = .atTarget →
      s.signalArray f ni = some a →
      s.isolated f ni = false →
      s.arrays[a].st = 0 →
      s.dedupOf (fieldOfArray a) (niOfArray a) id = some e →
      ∃ t, exec (.semaphoreSignal id) s = .next t ∧
        t.arrays[a].seq.sems = s.arrays[a].seq.sems) ∧
  (∀ (s : State) (id : TxId) (x : Txn) (f : FieldId) (ni : NiId) (sem : Fin 64) (inc : Byte) (slot : Fin 8) (a : ArrayId),
      s.txn id = some x →
      x.kind = .signal f ni sem inc slot →
      x.stage = .atTarget →
      s.signalArray f ni = some a →
      s.isolated f ni = false →
      s.arrays[a].st = 0 →
      s.dedupOf (fieldOfArray a) (niOfArray a) id = none →
      s.tableRoom (fieldOfArray a) (niOfArray a) id = true →
      65535 < s.arrays[a].seq.sems[sem].toNat + inc.toNat →
      s.arrays[a].seq.fault.valid = false →
      ∃ t, exec (.semaphoreSignal id) s = .next t ∧
        t.arrays[a].seq.sems[sem] = 0xFFFF ∧ t.arrays[a].seq.fault = ⟨true, s.arrays[a].seq.fault.overflow, 0, 0x15, BitVec.ofNat 16 sem.val⟩) ∧
  (∀ (s : State) (a : ArrayId),
      s.arrays[a].seq.wdRunning = true →
      s.arrays[a].seq.stepOpen = true →
      s.arrays[a].seq.attempt ≠ 3 →
      (s.arrays[a].seq.atomic && s.arrays[a].seq.atomicIssued) = false →
      (s.arrays[a].cube.acc.any fun t => decide (t.phase = .running)) = false →
      s.arrays[a].seq.fault.valid = false →
      ∃ t, exec (.watchdogExpiry a) s = .next t ∧
        t.arrays[a].seq.state = seqRerun ∧ t.arrays[a].seq.stepOpen = true ∧ t.arrays[a].seq.wdRunning = false ∧ t.arrays[a].seq.fault = ⟨true, s.arrays[a].seq.fault.overflow, 0, 0x16, s.arrays[a].seq.attempt.setWidth 16⟩) ∧
  (∀ (s : State) (a : ArrayId) (q : QRef) (x : Taken),
      s.arrays[a].seq.wdRunning = true →
      s.arrays[a].seq.stepOpen = true →
      s.arrays[a].seq.attempt = 3 →
      (s.arrays[a].seq.atomic && s.arrays[a].seq.atomicIssued) = false →
      s.arrays[a].seq.inv = some q →
      s.taken q = some x →
      x.status = none →
      ∃ t, exec (.watchdogExpiry a) s = .next t ∧
        (t.taken q).map (fun y => (y.status, y.faultCode)) = some (some 3, 0x16)) ∧
  (∀ (s : State) (a : ArrayId),
      s.arrays[a].st = 0 →
      ∃ t, exec (.livenessReport a) s = .next t ∧
        t.arrays[a].seq = { s.arrays[a].seq with lastReport := s.sclk }) ∧
  (∀ (s : State) (a : ArrayId),
      s.arrays[a].st = 0 →
      s.arrays[a].seq.state = seqRerun →
      s.arrays[a].quiet = true →
      s.arrayOwes a = false →
      ∃ t, exec (.stepRerun a) s = .next t ∧
        t.arrays[a].seq.state = seqRunning ∧ t.arrays[a].seq.attempt = s.arrays[a].seq.attempt + 1 ∧ t.arrays[a].seq.pc = s.arrays[a].seq.stepPc ∧
        t.arrays[a].seq.loops = s.arrays[a].seq.savedLoops ∧ t.arrays[a].seq.stepOpen = true ∧ t.arrays[a].seq.wdRemain = 937500 ∧ t.arrays[a].seq.wdRunning = true) ∧
  (∀ (s : State) (a : ArrayId),
      (s.pf0Open 0 || s.pf0Open 1) = true →
      s.arrays[a].st = 0 →
      s.arrays[a].seq.state = seqRunning →
      (s.arrays[a].cube.acc.any fun t => decide (t.phase = .running)) = false →
      ∃ t, exec (.seqHalt a) s = .next t ∧
        t.arrays[a].seq.state = seqDebug ∧ t.arrays[a].cube.halted = true ∧ t.arrays[a].seq.stepOpen = s.arrays[a].seq.stepOpen) ∧
  (∀ (s : State) (a : ArrayId),
      (s.pf0Open 0 || s.pf0Open 1) = true →
      s.arrays[a].st = 0 →
      s.arrays[a].seq.state = seqDebug →
      s.arrays[a].seq.inv.isSome = true →
      s.arrays[a].seq.stepOpen = true →
      ∃ t, exec (.seqResume a) s = .next t ∧
        t.arrays[a].seq.state = seqRunning ∧ t.arrays[a].seq.pc = s.arrays[a].seq.stepPc ∧ t.arrays[a].seq.loops = s.arrays[a].seq.savedLoops ∧ t.arrays[a].seq.wdRunning = true ∧ t.arrays[a].seq.singleStep = false) ∧
  (∀ (s : State) (a : ArrayId),
      (s.pf0Open 0 || s.pf0Open 1) = true →
      s.arrays[a].st = 0 →
      s.arrays[a].seq.state = seqDebug →
      s.arrays[a].seq.inv.isSome = true →
      s.arrays[a].seq.stepOpen = true →
      s.arrays[a].seq.singleStep = false →
      ∃ t, exec (.seqStepOne a) s = .next t ∧
        t.arrays[a].seq.state = seqRunning ∧ t.arrays[a].seq.pc = s.arrays[a].seq.stepPc ∧ t.arrays[a].seq.singleStep = true)

/-- Each clause names a command and says, of every state and operands that meet its hypotheses and of nothing else, that
exec answers a next state (`exec c s = .next t`), and what it holds. What a link leaves when it trains, changes speed,
goes down or changes its power state; the level of INTA; an MSI-X message sent, and one of a masked vector kept in the
pending bit array. Completes, with a next state of its own effect: linkTraining, linkSpeedReached, linkDown, hotReset,
aspmL1Entry, l0pNarrow, linkPmExit, intaLevelChange, msiXSend. The choices of the model in it are those of assumption
logs 35 and 56. Drawn from R270, R271, R277 to R279, R295, R395. -/
def Obligations.HostLinks : Prop :=
  (∀ (s : State) (port : PortId) (rate : Fin 7) (width : Fin 17) (flit : Bool),
      s.inReset = false →
      s.ports[port].perst = false →
      s.ports[port].l0 = false →
      linkWidth width.val = true →
      flitAt rate.val flit = true →
      ∃ t, exec (.linkTraining port rate width flit) s = .next t ∧
        t.ports[port].l0 = true ∧ t.ports[port].rate = BitVec.ofNat 3 rate.val ∧ t.ports[port].width = BitVec.ofNat 5 width.val ∧
        t.ports[port].activeWidth = BitVec.ofNat 5 width.val ∧ t.ports[port].pm = 0 ∧ t.ports[port].slow = decide (rate.val < 4) ∧ t.ports[port].flit = flit) ∧
  (∀ (s : State) (port : PortId) (rate : Fin 7),
      s.ports[port].l0 = true →
      flitAt rate.val s.ports[port].flit = true →
      ∃ t, exec (.linkSpeedReached port rate) s = .next t ∧
        t.ports[port].rate = BitVec.ofNat 3 rate.val ∧ t.ports[port].slow = decide (rate.val < 4) ∧ t.ports[port].width = s.ports[port].width) ∧
  (∀ (s : State) (port : PortId),
      s.ports[port].l0 = true →
      s.img.status ≠ 1 →
      ∃ t, exec (.linkDown port) s = .next t ∧
        t.ports[port].l0 = false ∧ t.ports[port].vfEnable = false ∧ t.ports[port].numVfs = 0 ∧ t.ports[port].session = none ∧ t.ports[port].reads = [] ∧
        t.ports[port].pm = 0) ∧
  (∀ (s : State) (port : PortId),
      s.ports[port].l0 = true →
      s.img.status ≠ 1 →
      ∃ t, exec (.hotReset port) s = .next t ∧
        t.ports[port].l0 = false ∧ t.ports[port].vfEnable = false ∧ t.ports[port].numVfs = 0 ∧ t.ports[port].session = none ∧ t.ports[port].reads = [] ∧
        t.ports[port].pm = 0) ∧
  (∀ (s : State) (port : PortId) (k : Fin 3),
      s.ports[port].l0 = true →
      s.ports[port].slow = false →
      s.ports[port].cfg.mayL1 k.val = true →
      s.ports[port].pm.toNat < 2 + k.val →
      ∃ t, exec (.aspmL1Entry port k) s = .next t ∧
        t.ports[port] = { s.ports[port] with pm := BitVec.ofNat 3 (2 + k.val) } ∧ t.out = .linkRequest port (BitVec.ofNat 3 (2 + k.val)) :: s.out) ∧
  (∀ (s : State) (port : PortId),
      s.ports[port].l0 = true →
      s.ports[port].slow = false →
      s.ports[port].flit = true →
      s.ports[port].cfg.l0p = true →
      s.ports[port].pm.toNat < 2 →
      4 < s.ports[port].activeWidth.toNat →
      ∃ t, exec (.l0pNarrow port) s = .next t ∧
        t.ports[port].activeWidth = (if 8 < s.ports[port].activeWidth.toNat then 8 else 4) ∧ t.ports[port].pm = 1 ∧ t.ports[port].width = s.ports[port].width ∧ t.out = .linkRequest port 1 :: s.out) ∧
  (∀ (s : State) (port : PortId),
      s.ports[port].l0 = true →
      s.ports[port].pm ≠ 0 →
      ∃ t, exec (.linkPmExit port) s = .next t ∧
        t.ports[port] = { s.ports[port] with pm := 0, activeWidth := s.ports[port].width } ∧ t.out = .linkRequest port 0 :: s.out) ∧
  (∀ (s : State) (port : PortId),
      s.ports[port].l0 = true →
      s.intaLevel port ≠ s.ports[port].intaSent →
      ∃ t, exec (.intaLevelChange port) s = .next t ∧
        t.ports[port].intaSent = s.intaLevel port ∧ t.out = (if s.intaLevel port then .assertInta port else .deassertInta port) :: s.out) ∧
  (∀ (s : State) (port : PortId) (v : VfId) (k : Fin 32),
      k ∈ s.ports[port].vfs[v].waitingMsix →
      s.ports[port].vfs[v].bme = true →
      s.ports[port].l0 = true →
      s.ports[port].vfs[v].bound.isSome = true →
      s.ports[port].vfs[v].resetting = false →
      s.ports[port].vfs[v].msixEnable = true →
      s.ports[port].vfs[v].msixMask = false →
      s.ports[port].vfs[v].msix[k].masked = false →
      ∃ t, exec (.msiXSend port v k) s = .next t ∧
        t.out = .msix port v k :: s.out ∧ t.ports[port].vfs[v].waitingMsix = s.ports[port].vfs[v].waitingMsix.erase k ∧ t.ports[port].vfs[v].pba = s.ports[port].vfs[v].pba) ∧
  (∀ (s : State) (port : PortId) (v : VfId) (k : Fin 32),
      k ∈ s.ports[port].vfs[v].waitingMsix →
      s.ports[port].vfs[v].bme = true →
      s.ports[port].l0 = true →
      s.ports[port].vfs[v].bound.isSome = true →
      s.ports[port].vfs[v].resetting = false →
      s.ports[port].vfs[v].msixEnable = true →
      s.ports[port].vfs[v].msixMask = true ∨ s.ports[port].vfs[v].msix[k].masked = true →
      ∃ t, exec (.msiXSend port v k) s = .next t ∧
        t.out = s.out ∧ t.ports[port].vfs[v].waitingMsix = s.ports[port].vfs[v].waitingMsix.erase k ∧ t.ports[port].vfs[v].pba = setBit s.ports[port].vfs[v].pba k.val true)

/-- Each clause names a command and says, of every state and operands that meet its hypotheses and of nothing else, that
exec answers a next state (`exec c s = .next t`), and what it holds. A read through the memory aperture answered from
the addresses it translates to, a write carried out code word by code word, a write that is not of whole code words
dropped with a memory log entry, and the answers to requests that are not taken. Completes, with a next state of its
own effect: bar2Read, bar2Write, inboundUnsupported. The choices of the model in it are those of assumption logs 8, 55
and 91. Drawn from R166, R274, R276, R280, R290. -/
def Obligations.HostAccess : Prop :=
  (∀ (s s₁ : State) (port : PortId) (v : VfId) (off : Word) (tee : Bool) (n : Nat) (p : PanelId) (rs : List Reply),
      s.ports[port].l0 = true →
      s.vfLive port v = true →
      s.vfDust port v = false →
      s.teeRefused port v tee = false →
      s.postedWaits port = false →
      0 < n ∧ n ≤ 4096 ∧ off.toNat + n ≤ 2 ^ 32 →
      s.ports[port].vfs[v].bound = some p →
      s.plainBusy (portEng port p s.ports[port].vfs[v].tint) .read (coverVas (s.ports[port].vfs[v].apertureVa off) n) = false →
      s.readPlainVas (portEng port p s.ports[port].vfs[v].tint) .read (coverVas (s.ports[port].vfs[v].apertureVa off) n) = (.ok rs, s₁) →
      worstStatus rs = 0 →
      ∃ t, exec (.bar2Read port v ⟨off, tee⟩ n) s = .next t ∧
        t.out = .bar2Data port (bytesAt (s.ports[port].vfs[v].apertureVa off) n (rs.map fun r => r.word)) ((rs.map fun r => r.word).any fun w => w.mark) :: s₁.out ∧ t.mem = s₁.mem) ∧
  (∀ (s : State) (port : PortId) (v : VfId) (off : Word) (tee : Bool) (n : Nat),
      s.ports[port].l0 = true →
      0 < n ∧ n ≤ 4096 ∧ off.toNat + n ≤ 2 ^ 32 →
      (s.vfLive port v && !s.vfDust port v && !s.teeRefused port v tee) = false →
      ∃ t, exec (.bar2Read port v ⟨off, tee⟩ n) s = .next t ∧
        t.out.head? = some (.unsupportedRequest port) ∧ t.mem = s.mem) ∧
  (∀ (s s₁ : State) (port : PortId) (v : VfId) (off : Word) (tee mark : Bool) (bs : List Byte) (p : PanelId),
      s.ports[port].l0 = true →
      s.vfLive port v = true →
      s.vfDust port v = false →
      s.teeRefused port v tee = false →
      s.postedWaits port = false →
      0 < bs.length ∧ bs.length ≤ 512 ∧ off.toNat + bs.length ≤ 2 ^ 32 →
      off.toNat % 64 = 0 ∧ bs.length % 64 = 0 →
      s.ports[port].vfs[v].bound = some p →
      s.plainBusy (portEng port p s.ports[port].vfs[v].tint) .write (runVas (s.ports[port].vfs[v].apertureVa off) (bs.length / 64)) = false →
      s.bar2Words port p (portEng port p s.ports[port].vfs[v].tint) ((runVas (s.ports[port].vfs[v].apertureVa off) (bs.length / 64)).zip ((toWords (bs.length / 64) bs).map fun d => ⟨d, mark⟩)) = some s₁ →
      ∃ t, exec (.bar2Write port v ⟨off, tee⟩ mark bs) s = .next t ∧
        t = s₁) ∧
  (∀ (s : State) (port : PortId) (v : VfId) (off : Word) (tee mark : Bool) (bs : List Byte) (p : PanelId),
      s.ports[port].l0 = true →
      s.vfLive port v = true →
      s.vfDust port v = false →
      s.teeRefused port v tee = false →
      s.postedWaits port = false →
      0 < bs.length ∧ bs.length ≤ 512 ∧ off.toNat + bs.length ≤ 2 ^ 32 →
      off.toNat % 64 ≠ 0 ∨ bs.length % 64 ≠ 0 →
      s.ports[port].vfs[v].bound = some p →
      s.ras.mlog.length < 1024 →
      ∃ t, exec (.bar2Write port v ⟨off, tee⟩ mark bs) s = .next t ∧
        t.mem = s.mem ∧ ∃ e : MemEvent, e.cls = 8 ∧ e.agent = (portEng port p s.ports[port].vfs[v].tint).agent ∧ t.ras.mlog = s.ras.mlog ++ [memEntry e s.now]) ∧
  (∀ (s : State) (port : PortId) (posted : Bool),
      s.ports[port].l0 = true →
      s.ras.flog.length < 1024 →
      ∃ t, exec (.inboundUnsupported port posted) s = .next t ∧
        t.ports[port] = { s.ports[port] with cfg := { s.ports[port].cfg with uncStatus := setBit s.ports[port].cfg.uncStatus 20 true } } ∧ t.out = (if posted then [] else [.unsupportedRequest port]) ++ s.out ∧
        t.ras.flog = s.ras.flog ++ [faultEntry { source := 10, element := BitVec.ofNat 32 port.val } s.now])

/-- Each clause names a command and says, of every state and operands that meet its hypotheses and of nothing else, that
exec answers a next state (`exec c s = .next t`), and what it holds. What each reset, and each configuration write,
leaves of the functions of a port. Completes, with a next state of its own effect: flr, functionResetComplete,
bmeClear, busMasterEnableSet, vfEnableClear, d3hotEntry, pf0Flr, numvfsWrite, perstAssert, perstRelease. The choices
of the model in it are those of assumption logs 15, 56 and 57. Drawn from R273, R294, R295, R395, R401, R425. -/
def Obligations.HostResets : Prop :=
  (∀ (s : State) (port : PortId) (v : VfId),
      s.stage = 4 →
      s.vfThere port v = true →
      ∃ t, exec (.flr port v) s = .next t ∧
        t.ports[port].vfs[v].bme = false ∧ t.ports[port].vfs[v].tdi = 0 ∧ t.ports[port].vfs[v].d3hot = false ∧ t.ports[port].vfs[v].lockSession = none) ∧
  (∀ (s : State) (port : PortId) (v : VfId),
      s.stage = 4 →
      s.vfThere port v = true →
      s.ports[port].vfs[v].resetting = false →
      s.vfDust port v = false →
      ∃ t, exec (.flr port v) s = .next t ∧
        t.ports[port].vfs[v].resetting = true ∧ t.ports[port].vfs[v].waitingMsix = [] ∧ ∀ q : QueueId, t.ports[port].vfs[v].queues[q].ahead = [] ∧ t.ports[port].vfs[v].queues[q].comps = []) ∧
  (∀ (s : State) (port : PortId) (v : VfId),
      s.ports[port].vfs[v].resetting = true →
      s.ports[port].vfs[v].bound = none →
      ∃ t, exec (.functionResetComplete port v) s = .next t ∧
        t.ports[port].vfs[v] = { s.ports[port].vfs[v].resetPage with resetting := false } ∧ t.out = (if s.ports[port].l0 then [.frs port (some v)] else []) ++ s.out) ∧
  (∀ (s : State) (port : PortId) (v : VfId) (p : PanelId),
      s.ports[port].vfs[v].resetting = true →
      s.ports[port].vfs[v].bound = some p →
      s.panelStill p = true →
      s.pnl.panels[p].state = 3 →
      ∃ t, exec (.functionResetComplete port v) s = .next t ∧
        t.pnl.panels[p].state = 5 ∧ t.pnl.panels[p].phase = 1) ∧
  (∀ (s : State) (port : PortId) (v : VfId),
      s.stage = 4 →
      s.vfThere port v = true →
      s.ports[port].vfs[v].resetting = false →
      s.ports[port].vfs[v].bme = true →
      s.vfDust port v = false →
      ∃ t, exec (.bmeClear port v) s = .next t ∧
        t.ports[port].vfs[v].bme = false ∧ t.ports[port].vfs[v].resetting = true) ∧
  (∀ (s : State) (port : PortId) (v : VfId),
      s.stage = 4 →
      s.vfThere port v = true →
      s.ports[port].vfs[v].resetting = false →
      s.ports[port].vfs[v].bme = false →
      ∃ t, exec (.busMasterEnableSet port v) s = .next t ∧
        t.ports[port].vfs[v].bme = true) ∧
  (∀ (s : State) (port : PortId) (v : VfId),
      s.stage = 4 →
      s.vfThere port v = true →
      s.ports[port].vfs[v].resetting = true →
      ∃ t, exec (.busMasterEnableSet port v) s = .next t ∧
        t = s.emit (.retryStatus port)) ∧
  (∀ (s : State) (port : PortId),
      s.ports[port].l0 = true →
      s.stage = 4 →
      s.ports[port].vfEnable = true →
      ∃ t, exec (.vfEnableClear port) s = .next t ∧
        t.ports[port].vfEnable = false ∧ t.ports[port].numVfs = s.ports[port].numVfs ∧ ∀ v : VfId, s.vfDust port v = false → t.ports[port].vfs[v].resetting = true) ∧
  (∀ (s : State) (port : PortId),
      s.ports[port].l0 = true →
      s.stage = 4 →
      ∃ t, exec (.d3hotEntry port none) s = .next t ∧
        t.ports[port] = { s.ports[port] with pf0D3hot := true }) ∧
  (∀ (s : State) (port : PortId) (v : VfId),
      s.stage = 4 →
      s.vfThere port v = true →
      s.ports[port].vfs[v].resetting = false →
      s.ports[port].vfs[v].d3hot = false →
      s.vfDust port v = false →
      ∃ t, exec (.d3hotEntry port (some v)) s = .next t ∧
        t.ports[port].vfs[v].d3hot = true ∧ t.ports[port].vfs[v].resetting = true) ∧
  (∀ (s : State) (port : PortId),
      s.ports[port].l0 = true →
      s.stage = 4 →
      ∃ t, exec (.pf0Flr port) s = .next t ∧
        t.ports[port].l0 = true ∧ t.ports[port].vfEnable = false ∧ t.ports[port].numVfs = 0 ∧ t.ports[port].intxDisable = false ∧ t.ports[port].pf0D3hot = false ∧ t.ports[port].session = none ∧ t.ports[port].ide = []) ∧
  (∀ (s : State) (port : PortId) (n : BitVec 16),
      s.ports[port].l0 = true →
      s.stage = 4 →
      s.ports[port].vfEnable = false →
      ∃ t, exec (.numvfsWrite port n) s = .next t ∧
        t.ports[port] = { s.ports[port] with numVfs := BitVec.ofNat 6 (min 40 n.toNat) }) ∧
  (∀ (s : State) (port : PortId),
      s.pins.perstN[port] = true →
      s.inReset = false →
      s.img.status ≠ 1 →
      ∃ t, exec (.perstAssert port) s = .next t ∧
        t.pins.perstN[port] = false ∧ t.ports[port].perst = true ∧ t.ports[port].l0 = false ∧ t.ports[port].vfEnable = false ∧ t.ports[port].numVfs = 0) ∧
  (∀ (s : State) (port : PortId),
      s.pins.perstN[port] = false →
      ∃ t, exec (.perstRelease port) s = .next t ∧
        t.pins.perstN[port] = true ∧ t.ports[port].perst = false)

/-- Each clause names a command and says, of every state and operands that meet its hypotheses and of nothing else, that
exec answers a next state (`exec c s = .next t`), and what it holds. The keys of a link stream; the SPDM answers; and
the states of a TDISP interface, from LOCK through the panel key to RUN, to ERROR, and back to unlocked with the panel
in dust sheet. Completes, with a next state of its own effect: ideKm, spdmRequest, lockInterface, panelKeySet,
startInterface, tdiError, stopInterface. The choices of the model in it are those of assumption logs 3, 57 and 65.
Drawn from R291 to R293, R320, R326, R328, R329. -/
def Obligations.HostSecurity : Prop :=
  (∀ (s : State) (port : PortId) (k : Fin 9) (key : BitVec 256),
      s.ports[port].l0 = true →
      s.ports[port].session.isSome = true →
      ∃ t, exec (.ideKm port k key) s = .next t ∧
        t.ports[port].ide = s.ports[port].ide.filter (fun i => i.stream ≠ k) ++ [⟨k, key⟩]) ∧
  (∀ (s : State) (port : PortId) (req : SpdmReq) (bs : List Byte),
      s.ports[port].l0 = true →
      s.stage = 4 →
      s.spdmReply port req = some bs →
      ∃ t, exec (.spdmRequest port req) s = .next t ∧
        t.out.head? = some (.spdmAnswer port bs)) ∧
  (∀ (s : State) (port : PortId) (id : BitVec 32) (key : BitVec 776),
      s.ports[port].l0 = true →
      s.stage = 4 →
      ∃ t, exec (.spdmRequest port (.startSession id key)) s = .next t ∧
        t.ports[port].session = some id ∧ t.out = .spdmAnswer port [] :: s.out) ∧
  (∀ (s : State) (port : PortId) (req : SpdmReq),
      s.ports[port].l0 = true →
      s.stage = 4 →
      s.spdmReply port req = none →
      ∃ t, exec (.spdmRequest port req) s = .next t ∧
        t = s.emit (.spdmError port)) ∧
  (∀ (s : State) (port : PortId) (v : VfId),
      s.vfThere port v = true →
      s.ports[port].session.isSome = true →
      s.ports[port].vfs[v].tdi = 0 →
      s.ports[port].vfs[v].bound.isSome = true →
      s.ports[port].vfs[v].resetting = false →
      s.vfDust port v = false →
      ∃ t, exec (.lockInterface port v) s = .next t ∧
        t.ports[port].vfs[v] = { s.ports[port].vfs[v] with tdi := 1, lockSession := s.ports[port].session } ∧ t.out = .spdmAnswer port [] :: s.out) ∧
  (∀ (s : State) (port : PortId) (v : VfId) (key : BitVec 384) (p : PanelId),
      s.vfThere port v = true →
      s.ports[port].session.isSome = true →
      s.ports[port].vfs[v].lockSession = s.ports[port].session →
      s.ports[port].vfs[v].tdi = 1 →
      s.ports[port].vfs[v].bound = some p →
      s.pnl.panels[p].authKey = none →
      s.pnl.panels[p].sealed_ = true →
      ∃ t, exec (.panelKeySet port v key) s = .next t ∧
        t.pnl.panels[p] = { s.pnl.panels[p] with authKey := some key, counter := 0 } ∧ t.out = .spdmAnswer port [] :: s.out) ∧
  (∀ (s : State) (port : PortId) (v : VfId) (p : PanelId),
      s.vfThere port v = true →
      s.ports[port].session.isSome = true →
      s.ports[port].vfs[v].lockSession = s.ports[port].session →
      s.ports[port].vfs[v].tdi = 1 →
      s.ports[port].vfs[v].bound = some p →
      s.pnl.panels[p].authKey.isSome = true →
      s.pnl.panels[p].fill = false →
      s.pnl.panels[p].state = 2 →
      ∃ t, exec (.startInterface port v) s = .next t ∧
        t.ports[port].vfs[v].tdi = 2 ∧ t.pnl.panels[p].state = 3) ∧
  (∀ (s : State) (port : PortId) (v : VfId),
      s.vfThere port v = true →
      s.ports[port].session = none →
      ∃ t, exec (.startInterface port v) s = .next t ∧
        t = s.emit (.spdmError port)) ∧
  (∀ (s : State) (port : PortId) (v : VfId) (e : TdiEvent) (p : PanelId),
      s.stage = 4 →
      s.vfThere port v = true →
      s.ports[port].vfs[v].tdi = 1 ∨ s.ports[port].vfs[v].tdi = 2 →
      s.ports[port].vfs[v].bound = some p →
      s.pnl.panels[p].sealed_ = true →
      s.pnl.panels[p].state = 2 ∨ s.pnl.panels[p].state = 3 →
      ∃ t, exec (.tdiError port v e) s = .next t ∧
        t.ports[port].vfs[v].tdi = 3 ∧ t.pnl.panels[p].state = 4 ∧ t.pnl.panels[p].ring.stopped = true) ∧
  (∀ (s : State) (port : PortId) (v : VfId) (p : PanelId),
      s.vfThere port v = true →
      s.ports[port].vfs[v].bound = some p →
      s.pnl.panels[p].state = 3 →
      ∃ t, exec (.stopInterface port v) s = .next t ∧
        t.ports[port].vfs[v].tdi = 0 ∧ t.ports[port].vfs[v].lockSession = none ∧ t.pnl.panels[p].state = 5 ∧ t.pnl.panels[p].phase = 1)

/-- Each clause names a command and says, of every state and operands that meet its hypotheses and of nothing else, that
exec answers a next state (`exec c s = .next t`), and what it holds. A submission doorbell moves the tail, or is
dropped and logged when it is out of range; a completion doorbell moves the head; a queue is enabled once with its
configuration and disabled when no command is taken. Completes, with a next state of its own effect: sqTail, cqHead,
queueEnable, queueDisable. The choices of the model in it are those of assumption log 16. Drawn from R282, R283, R425. -/
def Obligations.HostQueues : Prop :=
  (∀ (s : State) (port : PortId) (v : VfId) (q : QueueId) (x : Word),
      s.vfLive port v = true →
      s.vfDust port v = false →
      s.ports[port].vfs[v].bound.isSome = true →
      (x.setWidth 12 : BitVec 12).toNat < s.ports[port].vfs[v].queues[q].sqSize →
      ∃ t, exec (.sqTail port v q x) s = .next t ∧
        t.ports[port].vfs[v].queues[q].sqTail = x.setWidth 12 ∧ t.ports[port].vfs[v].queues[q].sqHead = s.ports[port].vfs[v].queues[q].sqHead ∧ t.ports[port].vfs[v].queues[q].taken = s.ports[port].vfs[v].queues[q].taken) ∧
  (∀ (s : State) (port : PortId) (v : VfId) (q : QueueId) (x : Word),
      s.vfLive port v = true →
      s.vfDust port v = false →
      s.ports[port].vfs[v].bound.isSome = true →
      s.ports[port].vfs[v].queues[q].sqSize ≤ (x.setWidth 12 : BitVec 12).toNat →
      s.ras.flog.length < 1024 →
      ∃ t, exec (.sqTail port v q x) s = .next t ∧
        t.ports = s.ports ∧ t.ras.flog = s.ras.flog ++ [faultEntry { source := 10, element := BitVec.ofNat 32 port.val } s.now]) ∧
  (∀ (s : State) (port : PortId) (v : VfId) (q : QueueId) (x : Word),
      s.vfLive port v = true →
      s.vfDust port v = false →
      s.ports[port].vfs[v].bound.isSome = true →
      (x.setWidth 12 : BitVec 12).toNat < s.ports[port].vfs[v].queues[q].cqSize →
      ∃ t, exec (.cqHead port v q x) s = .next t ∧
        t.ports[port].vfs[v].queues[q] = { s.ports[port].vfs[v].queues[q] with cqHead := x.setWidth 12 }) ∧
  (∀ (s : State) (port : PortId) (v : VfId) (q : QueueId) (x : Word),
      s.vfLive port v = true →
      s.vfDust port v = false →
      s.ports[port].vfs[v].bound.isSome = true →
      s.ports[port].vfs[v].queues[q].enable = false →
      bit x 31 = true →
      ∃ t, exec (.queueEnable port v q x) s = .next t ∧
        t.ports[port].vfs[v].queues[q] = (s.ports[port].vfs[v].queues[q].configure x).start) ∧
  (∀ (s : State) (port : PortId) (v : VfId) (q : QueueId) (x : Word),
      s.vfLive port v = true →
      s.vfDust port v = false →
      s.ports[port].vfs[v].bound.isSome = true →
      s.ports[port].vfs[v].queues[q].enable = true →
      ∃ t, exec (.queueEnable port v q x) s = .next t ∧
        t.ports[port].vfs[v].queues[q] = s.ports[port].vfs[v].queues[q]) ∧
  (∀ (s : State) (port : PortId) (v : VfId) (q : QueueId) (x : Word),
      s.vfLive port v = true →
      s.vfDust port v = false →
      s.ports[port].vfs[v].bound.isSome = true →
      s.ports[port].vfs[v].queues[q].enable = true →
      bit x 31 = false →
      s.ports[port].vfs[v].queues[q].taken = none →
      ∃ t, exec (.queueDisable port v q x) s = .next t ∧
        t.ports[port].vfs[v].queues[q] = { s.ports[port].vfs[v].queues[q] with enable := false, ahead := [], stopping := false }) ∧
  (∀ (s : State) (port : PortId) (v : VfId) (q : QueueId) (x : Word),
      s.vfLive port v = true →
      s.vfDust port v = false →
      s.ports[port].vfs[v].bound.isSome = true →
      s.ports[port].vfs[v].queues[q].enable = false →
      bit x 31 = false →
      ∃ t, exec (.queueDisable port v q x) s = .next t ∧
        t.ports[port].vfs[v].queues[q] = s.ports[port].vfs[v].queues[q].configure x)

/-- Each clause names a command and says, of every state and operands that meet its hypotheses and of nothing else, that
exec answers a next state (`exec c s = .next t`), and what it holds. A command accepted in sequence, rejected with a
CSTATUS, out of sequence, or answered as a duplicate; a completion written to its ring; and a command entry read
again. Completes, with a next state of its own effect: commandTake, completionWrite, commandReadRetry. The choices of
the model in it are those of assumption logs 31, 32 and 33. Drawn from R284 to R287, R289. -/
def Obligations.QueueCommands : Prop :=
  (∀ (s : State) (port : PortId) (v : VfId) (q : QueueId) (e : Ahead) (r : List Ahead) (b : BitVec 1024),
      e :: r = s.ports[port].vfs[v].queues[q].ahead →
      s.ports[port].vfs[v].queues[q].mayTake = true →
      s.queuesHeld ⟨port, v, q⟩ = false →
      e.entry = .ready b →
      wordOf b 1 = s.ports[port].vfs[v].queues[q].expected →
      commandBad b (s.vfOpen port v) = none →
      ∃ t, exec (.commandTake port v q) s = .next t ∧
        t.ports[port].vfs[v].queues[q].taken.map (fun x => (x.bits, x.phase)) = some (b, .accepted) ∧ t.ports[port].vfs[v].queues[q].sqHead = BitVec.ofNat 12 ((s.ports[port].vfs[v].queues[q].sqHead.toNat + 1) % s.ports[port].vfs[v].queues[q].sqSize) ∧ t.ports[port].vfs[v].queues[q].expected = s.ports[port].vfs[v].queues[q].expected + 1 ∧ t.ports[port].vfs[v].queues[q].comps = s.ports[port].vfs[v].queues[q].comps) ∧
  (∀ (s : State) (port : PortId) (v : VfId) (q : QueueId) (e : Ahead) (r : List Ahead) (b : BitVec 1024) (st : Byte),
      e :: r = s.ports[port].vfs[v].queues[q].ahead →
      s.ports[port].vfs[v].queues[q].mayTake = true →
      s.queuesHeld ⟨port, v, q⟩ = false →
      e.entry = .ready b →
      wordOf b 1 = s.ports[port].vfs[v].queues[q].expected →
      commandBad b (s.vfOpen port v) = some st →
      ∃ t, exec (.commandTake port v q) s = .next t ∧
        t.ports[port].vfs[v].queues[q].taken = none ∧ t.ports[port].vfs[v].queues[q].sqHead = BitVec.ofNat 12 ((s.ports[port].vfs[v].queues[q].sqHead.toNat + 1) % s.ports[port].vfs[v].queues[q].sqSize) ∧ t.ports[port].vfs[v].queues[q].expected = s.ports[port].vfs[v].queues[q].expected + 1 ∧ t.ports[port].vfs[v].queues[q].rejects = satAdd s.ports[port].vfs[v].queues[q].rejects 1 ∧
        t.ports[port].vfs[v].queues[q].comps.map (fun c => (c.comp.cstatus, c.comp.seq)) = s.ports[port].vfs[v].queues[q].comps.map (fun c => (c.comp.cstatus, c.comp.seq)) ++ [(st, wordOf b 1)]) ∧
  (∀ (s : State) (port : PortId) (v : VfId) (q : QueueId) (e : Ahead) (r : List Ahead) (b : BitVec 1024),
      e :: r = s.ports[port].vfs[v].queues[q].ahead →
      s.ports[port].vfs[v].queues[q].mayTake = true →
      s.queuesHeld ⟨port, v, q⟩ = false →
      e.entry = .ready b →
      256 < (s.ports[port].vfs[v].queues[q].expected - wordOf b 1).toNat →
      ∃ t, exec (.commandTake port v q) s = .next t ∧
        t.ports[port].vfs[v].queues[q].taken = none ∧ t.ports[port].vfs[v].queues[q].sqHead = BitVec.ofNat 12 ((s.ports[port].vfs[v].queues[q].sqHead.toNat + 1) % s.ports[port].vfs[v].queues[q].sqSize) ∧ t.ports[port].vfs[v].queues[q].expected = s.ports[port].vfs[v].queues[q].expected ∧ t.ports[port].vfs[v].queues[q].rejects = satAdd s.ports[port].vfs[v].queues[q].rejects 1 ∧
        t.ports[port].vfs[v].queues[q].comps.map (fun c => (c.comp.cstatus, c.comp.seq)) = s.ports[port].vfs[v].queues[q].comps.map (fun c => (c.comp.cstatus, c.comp.seq)) ++ [(2, wordOf b 1)]) ∧
  (∀ (s : State) (port : PortId) (v : VfId) (q : QueueId) (e : Ahead) (r : List Ahead) (b : BitVec 1024) (h : HistEntry) (c : Completion),
      e :: r = s.ports[port].vfs[v].queues[q].ahead →
      s.ports[port].vfs[v].queues[q].mayTake = true →
      s.queuesHeld ⟨port, v, q⟩ = false →
      e.entry = .ready b →
      0 < (s.ports[port].vfs[v].queues[q].expected - wordOf b 1).toNat ∧ (s.ports[port].vfs[v].queues[q].expected - wordOf b 1).toNat ≤ 256 →
      (s.ports[port].vfs[v].queues[q].hist.find? fun h => decide (h.seq = wordOf b 1)) = some h →
      h.comp = some c →
      s.ports[port].vfs[v].queues[q].comps = [] →
      ∃ t, exec (.commandTake port v q) s = .next t ∧
        t.ports[port].vfs[v].queues[q].taken = none ∧ t.ports[port].vfs[v].queues[q].expected = s.ports[port].vfs[v].queues[q].expected ∧ t.ports[port].vfs[v].queues[q].dups = satAdd s.ports[port].vfs[v].queues[q].dups 1 ∧ t.ports[port].vfs[v].queues[q].comps = [⟨{ c with dup := true, sqHead := BitVec.ofNat 12 ((s.ports[port].vfs[v].queues[q].sqHead.toNat + 1) % s.ports[port].vfs[v].queues[q].sqSize) }, none⟩]) ∧
  (∀ (s : State) (port : PortId) (v : VfId) (q : QueueId) (c : PendingComp) (r : List PendingComp),
      s.ports[port].vfs[v].queues[q].comps = c :: r →
      c.epoch = none →
      s.ports[port].vfs[v].queues[q].cqFull = false →
      s.maySend ⟨port, v, q⟩ = true →
      s.ports[port].vfs[v].resetting = false →
      ∃ t, exec (.completionWrite port v q) s = .next t ∧
        (∃ l, t.out = l ++ .hostWrite port (some v) (s.ports[port].vfs[v].queues[q].cqBase + BitVec.ofNat 64 (32 * s.ports[port].vfs[v].queues[q].cqTail.toNat)) (completionBytes q s.ports[port].vfs[v].queues[q].phase c.comp) :: s.out) ∧
        t.ports[port].vfs[v].queues[q].cqTail = BitVec.ofNat 12 ((s.ports[port].vfs[v].queues[q].cqTail.toNat + 1) % s.ports[port].vfs[v].queues[q].cqSize) ∧ t.ports[port].vfs[v].queues[q].phase = (s.ports[port].vfs[v].queues[q].phase != decide (s.ports[port].vfs[v].queues[q].cqTail.toNat + 1 = s.ports[port].vfs[v].queues[q].cqSize))) ∧
  (∀ (s : State) (port : PortId) (v : VfId) (q : QueueId) (y : Ahead),
      s.ports[port].vfs[v].queues[q].ahead = [y] →
      y.entry = .reading 1 →
      s.entryInFlight ⟨port, v, q⟩ y.index = false →
      s.queuesHeld ⟨port, v, q⟩ = false →
      s.maySend ⟨port, v, q⟩ = true →
      s.mayRead port = true →
      ∃ t, exec (.commandReadRetry port v q) s = .next t ∧
        t.out = .hostRead port (some v) s.ports[port].nextRead (s.ports[port].vfs[v].queues[q].sqBase + BitVec.ofNat 64 (128 * y.index.toNat)) 128 :: s.out ∧
        t.ports[port].reads = s.ports[port].reads ++ [⟨s.ports[port].nextRead, .command ⟨port, v, q⟩ y.index⟩])

/-- Each clause names a command and says, of every state and operands that meet its hypotheses and of nothing else, that
exec answers a next state (`exec c s = .next t`), and what it holds. INVOKE reads its descriptor and schedule table
and waits for its arrays; an invocation starts on its arrays, completes with its status, and its timer ends it with
status 5; ABORT ends the invocation it names with status 6, or completes with CSTATUS 6; NOP completes; a signal of a
site engine adds to a semaphore. Completes, with a next state of its own effect: invoke, invocationStart,
invocationComplete, invocationTimeout, abort, nopCommand, siteEngineSignal. The choices of the model in it are those
of assumption logs 19, 31, 32 and 33. Drawn from R94 to R99, R285, R286, R288. -/
def Obligations.Invocations : Prop :=
  (∀ (s s₁ s₂ : State) (port : PortId) (v : VfId) (q : QueueId) (x : Taken) (p : PanelId) (e : Eng) (a tb : BitVec 55) (bs : List Byte) (d : BitVec 1024) (rs : List StartOut) (ns : List Nat),
      s.fresh ⟨port, v, q⟩ opInvoke = some x →
      s.qPanel ⟨port, v, q⟩ = some p →
      s.queuesHeld ⟨port, v, q⟩ = false →
      a = BitVec.ofNat 55 (fld x.bits.toNat 128 55) →
      e = s.startEng port p (asFin 16 (fld x.bits.toNat 19 4)) →
      a.toNat % 128 = 0 ∧ fld x.bits.toNat 192 55 % 64 = 0 →
      s.plainBusy e .read (coverVas a 128) = false →
      s.startRead e p a 128 = (.bytes bs, s₁) →
      d = BitVec.ofNat 1024 (natOf bs) →
      s₁.opdescStatus p d = none →
      tb = BitVec.ofNat 55 (fld d.toNat 160 55) →
      s₁.plainBusy e .read (coverVas tb (16 * (maskArrays d).length)) = false →
      s₁.readEntries e p ((List.range (maskArrays d).length).map fun i => tb + BitVec.ofNat 55 (16 * i)) = (rs, s₂) →
      entriesOut rs = .ok ns →
      s₂.taken ⟨port, v, q⟩ = some x →
      ∃ t, exec (.invoke port v q) s = .next t ∧
        t.taken ⟨port, v, q⟩ = some { x with phase := .waiting, arrays := maskArrays d, siteMask := BitVec.ofNat 8 (fld d.toNat 8 8), tint := if bit x.bits 23 then asFin 16 (fld x.bits.toNat 19 4) else asFin 16 (fld d.toNat 0 4), entries := ns.map (BitVec.ofNat 55) }) ∧
  (∀ (s : State) (port : PortId) (v : VfId) (q : QueueId) (x : Taken) (p : PanelId),
      s.fresh ⟨port, v, q⟩ opInvoke = some x →
      s.qPanel ⟨port, v, q⟩ = some p →
      s.queuesHeld ⟨port, v, q⟩ = false →
      fld x.bits.toNat 128 55 % 128 ≠ 0 ∨ fld x.bits.toNat 192 55 % 64 ≠ 0 →
      x.started = none →
      x.noCompletion = false →
      ∃ t, exec (.invoke port v q) s = .next t ∧
        t.ports[port].vfs[v].queues[q].taken = none ∧ t.ports[port].vfs[v].queues[q].comps = s.ports[port].vfs[v].queues[q].comps ++
          [⟨{ x.base with istatus := 7, poisonCommits := x.poisonCommits }, none⟩]) ∧
  (∀ (s : State) (port : PortId) (v : VfId) (q : QueueId) (x : Taken) (p : PanelId) (n : Fin 40) (a : ArrayId) (pc : BitVec 55),
      s.taken ⟨port, v, q⟩ = some x →
      s.qPanel ⟨port, v, q⟩ = some p →
      cmdOp x.bits = opInvoke →
      x.phase = .waiting →
      s.queuesHeld ⟨port, v, q⟩ = false →
      s.inDust p = false →
      x.arrays = [n] →
      x.entries = [pc] →
      s.arrayOf p n.val = some a →
      s.arrays[a].seq.inv = none →
      s.arrays[a].st = 0 →
      s.earlierWaits ⟨port, v, q⟩ x = false →
      x.siteMask &&& s.pnl.panels[p].slotHold = 0 →
      ∃ t, exec (.invocationStart port v q) s = .next t ∧
        t.taken ⟨port, v, q⟩ = some { x with phase := .running, started := some s.sclk, timerOn := true } ∧ t.arrays[a].seq.inv = some ⟨port, v, q⟩ ∧ t.arrays[a].seq.pc = pc ∧
        t.arrays[a].seq.sems = Vector.replicate 64 0 ∧ t.arrays[a].seq.argBase = BitVec.ofNat 55 (fld x.bits.toNat 192 55) ∧
        t.arrays[a].seq.state = (if s.arrays[a].seq.state = seqDebug then seqDebug else seqRunning)) ∧
  (∀ (s : State) (port : PortId) (v : VfId) (q : QueueId) (x : Taken) (p : PanelId) (n : Nat),
      s.taken ⟨port, v, q⟩ = some x →
      s.qPanel ⟨port, v, q⟩ = some p →
      s.pnl.panels[p].twin = none →
      x.phase = .running ∨ x.phase = .ending →
      x.started = some n →
      x.noCompletion = false →
      ((s.invArrays ⟨port, v, q⟩).any fun a => !s.arrayOver x a || s.arrayWrites a) = false →
      x.former.any s.arrayWrites = false →
      ∃ t, exec (.invocationComplete port v q) s = .next t ∧
        t.ports[port].vfs[v].queues[q].taken = none ∧ (∀ a, a ∈ s.invArrays ⟨port, v, q⟩ → t.arrays[a].seq.inv = none) ∧
        t.ports[port].vfs[v].queues[q].comps = s.ports[port].vfs[v].queues[q].comps ++
          [⟨{ x.base with istatus := x.status.getD 0, poisonCommits := x.poisonCommits, elapsed := elapsedUs n s.sclk, faultCode := if x.status.getD 0 = 1 then x.faultCode else 0, faultArray := if x.status.getD 0 = 1 then x.faultArray else 0 }, none⟩]) ∧
  (∀ (s : State) (port : PortId) (v : VfId) (q : QueueId) (x : Taken),
      s.taken ⟨port, v, q⟩ = some x →
      x.phase = .running →
      x.timerOn = true →
      x.status = none →
      ∃ t, exec (.invocationTimeout port v q) s = .next t ∧
        (t.taken ⟨port, v, q⟩).map (fun y => (y.status, y.faultCode)) = some (some 5, 0)) ∧
  (∀ (s : State) (port : PortId) (v : VfId) (q : QueueId) (x y : Taken) (k : QueueId) (n : Nat),
      s.fresh ⟨port, v, q⟩ opAbort = some x →
      k = asFin 16 (fld x.bits.toNat 288 4) →
      k ≠ q →
      s.taken ⟨port, v, k⟩ = some y →
      cmdOp y.bits = opInvoke →
      wordOf y.bits 1 = wordOf x.bits 10 →
      y.started = some n →
      y.status = none →
      ∃ t, exec (.abort port v q) s = .next t ∧
        (t.taken ⟨port, v, k⟩).map (fun z => z.status) = some (some 6) ∧ (t.taken ⟨port, v, q⟩).map (fun z => z.phase) = some .waiting) ∧
  (∀ (s : State) (port : PortId) (v : VfId) (q : QueueId) (x : Taken),
      s.fresh ⟨port, v, q⟩ opAbort = some x →
      (s.taken ⟨port, v, asFin 16 (fld x.bits.toNat 288 4)⟩).all (fun y => decide (cmdOp y.bits ≠ opInvoke) || decide (wordOf y.bits 1 ≠ wordOf x.bits 10)) = true →
      x.noCompletion = false →
      ∃ t, exec (.abort port v q) s = .next t ∧
        t.ports[port].vfs[v].queues[q].taken = none ∧ t.ports[port].vfs[v].queues[q].comps = s.ports[port].vfs[v].queues[q].comps ++ [⟨{ x.base with cstatus := 6 }, none⟩]) ∧
  (∀ (s : State) (port : PortId) (v : VfId) (q : QueueId) (x : Taken),
      s.fresh ⟨port, v, q⟩ opNopCmd = some x →
      x.noCompletion = false →
      ∃ t, exec (.nopCommand port v q) s = .next t ∧
        t.ports[port].vfs[v].queues[q].taken = none ∧ t.ports[port].vfs[v].queues[q].comps = s.ports[port].vfs[v].queues[q].comps ++ [⟨x.base, none⟩]) ∧
  (∀ (s : State) (n : SiteId) (tag : Byte) (m : Fin 64) (sem : Fin 64) (inc : Byte) (b : Binding) (a : ArrayId),
      s.bindingOf n tag = some b →
      s.arrayOf b.panel m.val = some a →
      s.arrays[a].seq.state ≠ seqWaiting →
      s.arrays[a].seq.sems[sem].toNat + inc.toNat ≤ 65535 →
      ∃ t, exec (.siteEngineSignal n tag m sem inc) s = .next t ∧
        t.arrays[a].seq = { s.arrays[a].seq with sems := vset s.arrays[a].seq.sems sem (BitVec.ofNat 16 (s.arrays[a].seq.sems[sem].toNat + inc.toNat)) })

/-- Each clause names a command and says, of every state and operands that meet its hypotheses and of nothing else, that
exec answers a next state (`exec c s = .next t`), and what it holds. A fault of a tile in progress reaches the panel's
ring writer; a record is written at the tail and its engine stalls under a TOKEN; the registers of the ring; a resume
lets the stalled engine go on, an abort ends its step with fault 0x18, and a TOKEN that no engine holds is counted.
Completes, with a next state of its own effect: midtileFault, faultRecordWrite, fringHeadWrite, fringEnable, fringArm,
faultResumeRetry, faultResumeAbort. The choices of the model in it are those of assumption logs 19 and 44. Drawn from
R171 to R178. -/
def Obligations.FaultRing : Prop :=
  (∀ (s s₁ : State) (a : ArrayId) (va : BitVec 55) (p : PanelId) (o : CubeOp) (i : Nat) (x : Part) (w : BitVec 55) (f : TransFault),
      s.arrays[a].panel = some p →
      (s.arrays[a].cube.ops.find? fun o => decide (o.drained < o.started)) = some o →
      ((List.range (o.parts (s.arrays[a].cube.shape o.word) o.drained).length).zip (o.parts (s.arrays[a].cube.shape o.word) o.drained)).find? (fun y => y.2.vas.any fun w => decide (w.toNat / 65536 = va.toNat / 65536)) = some (i, x) →
      (x.vas.find? fun w => decide (w.toNat / 65536 = va.toNat / 65536)) = some w →
      s.translate (s.arrayAgent a 0) (.array a) p (s.tintOf a) w x.access = (.error f, s₁) →
      ∃ t, exec (.midtileFault a va) s = .next t ∧
        t.pnl.panels[p].ring.arrivals = s.pnl.panels[p].ring.arrivals ++ [s₁.faultInfo (s.arrayKey a 0 (BitVec.ofNat 13 i)) f x.access w s.arrays[a].seq.stepId true true] ∧ t.mem = s₁.mem) ∧
  (∀ (s : State) (p : PanelId) (port : PortId) (v : VfId) (i : FaultInfo) (r : List FaultInfo),
      s.pnl.panels[p].ring.arrivals = i :: r →
      s.pnl.panels[p].ring.stopped = false →
      s.ringOf p = some (port, v) →
      s.ringSends port v = true →
      s.ports[port].vfs[v].fringEnable = true →
      s.ports[port].vfs[v].ringHeld < s.ports[port].vfs[v].ringSize →
      i.stalls = false →
      ∃ t, exec (.faultRecordWrite p) s = .next t ∧
        t.out = .hostWrite port (some v) (s.ports[port].vfs[v].ringBase + BitVec.ofNat 64 (64 * (s.ports[port].vfs[v].tail.toNat % s.ports[port].vfs[v].ringSize))) (faultRecord i (decide (s.ports[port].vfs[v].tail.toNat / s.ports[port].vfs[v].ringSize % 2 = 0)) 0) :: s.out ∧
        t.ports[port].vfs[v].tail = s.ports[port].vfs[v].tail + 1 ∧ t.ports[port].vfs[v].arm = false ∧ t.pnl.panels[p].ring.arrivals = r) ∧
  (∀ (s : State) (p : PanelId) (port : PortId) (v : VfId) (i : FaultInfo) (r : List FaultInfo) (k : BitVec 16),
      s.pnl.panels[p].ring.arrivals = i :: r →
      s.pnl.panels[p].ring.stopped = false →
      s.ringOf p = some (port, v) →
      s.ringSends port v = true →
      s.ports[port].vfs[v].fringEnable = true →
      s.ports[port].vfs[v].ringHeld < s.ports[port].vfs[v].ringSize →
      i.stalls = true →
      k = nextToken (s.pnl.panels[p].ring.stalled.filterMap (fun x => x.token)) ((s.pnl.panels[p].ring.stalled.filterMap (fun x => x.token)).length + 1) s.pnl.panels[p].ring.lastToken →
      ∃ t, exec (.faultRecordWrite p) s = .next t ∧
        t.out = .hostWrite port (some v) (s.ports[port].vfs[v].ringBase + BitVec.ofNat 64 (64 * (s.ports[port].vfs[v].tail.toNat % s.ports[port].vfs[v].ringSize))) (faultRecord i (decide (s.ports[port].vfs[v].tail.toNat / s.ports[port].vfs[v].ringSize % 2 = 0)) k) :: s.out ∧
        t.pnl.panels[p].ring.stalled = s.pnl.panels[p].ring.stalled ++ [⟨i, some k⟩] ∧ t.pnl.panels[p].ring.lastToken = k) ∧
  (∀ (s : State) (port : PortId) (v : VfId) (x : Word) (p : PanelId),
      s.vfLive port v = true →
      s.vfDust port v = false →
      s.ports[port].vfs[v].bound = some p →
      s.pnl.panels[p].ring.heldRecords = [] →
      (s.ports[port].vfs[v].tail - x).toNat ≤ s.ports[port].vfs[v].ringSize →
      ∃ t, exec (.fringHeadWrite port v x) s = .next t ∧
        t.ports[port].vfs[v] = { s.ports[port].vfs[v] with head := x }) ∧
  (∀ (s : State) (port : PortId) (v : VfId) (x : Word) (p : PanelId),
      s.vfLive port v = true →
      s.vfDust port v = false →
      s.ports[port].vfs[v].bound = some p →
      s.pnl.panels[p].ring.heldRecords = [] →
      s.ports[port].vfs[v].fringEnable = false →
      bit x 31 = true →
      ∃ t, exec (.fringEnable port v x) s = .next t ∧
        t.ports[port].vfs[v].fringEnable = true ∧ t.ports[port].vfs[v].tail = 0 ∧ t.ports[port].vfs[v].head = 0 ∧ t.ports[port].vfs[v].ringBase = s.ports[port].vfs[v].fringBase ∧
        t.ports[port].vfs[v].fringVector = slice x 12 8 ∧ t.ports[port].vfs[v].ringLog = t.ports[port].vfs[v].fringLog) ∧
  (∀ (s : State) (port : PortId) (v : VfId) (x : Word),
      s.vfLive port v = true →
      s.vfDust port v = false →
      s.ports[port].vfs[v].bound.isSome = true →
      ∃ t, exec (.fringArm port v x) s = .next t ∧
        t.ports[port].vfs[v] = { s.ports[port].vfs[v] with arm := s.ports[port].vfs[v].arm || bit x 0 }) ∧
  (∀ (s : State) (port : PortId) (v : VfId) (x : Word) (p : PanelId) (i : FaultInfo) (a : ArrayId),
      s.vfLive port v = true →
      s.vfDust port v = false →
      s.ports[port].vfs[v].bound = some p →
      bit x 31 = false →
      fld x.toNat 16 2 = 0 →
      s.pnl.panels[p].ring.stalled = [⟨i, some (slice x 15 0)⟩] →
      i.key.engine = 3 →
      a = asFin 40 i.key.phys.toNat →
      ∃ t, exec (.faultResumeRetry port v x) s = .next t ∧
        t.pnl.panels[p].ring.stalled = [] ∧ t.arrays[a].seq.stalled = false ∧ t.arrays[a].seq.pc = s.arrays[a].seq.pc) ∧
  (∀ (s : State) (port : PortId) (v : VfId) (x : Word) (p : PanelId) (i : FaultInfo) (a : ArrayId),
      s.vfLive port v = true →
      s.vfDust port v = false →
      s.ports[port].vfs[v].bound = some p →
      bit x 31 = false →
      fld x.toNat 16 2 = 1 →
      s.pnl.panels[p].ring.stalled = [⟨i, some (slice x 15 0)⟩] →
      a = asFin 40 i.key.phys.toNat →
      s.arrays[a].seq.fault.valid = false →
      ∃ t, exec (.faultResumeAbort port v x) s = .next t ∧
        t.arrays[a].seq.fault = ⟨true, s.arrays[a].seq.fault.overflow, 0, 0x18, slice x 15 0⟩) ∧
  (∀ (s : State) (port : PortId) (v : VfId) (x : Word) (p : PanelId),
      s.vfLive port v = true →
      s.vfDust port v = false →
      s.ports[port].vfs[v].bound = some p →
      bit x 31 = false →
      fld x.toNat 16 2 = 1 →
      s.pnl.panels[p].ring.stalled = [] →
      ∃ t, exec (.faultResumeAbort port v x) s = .next t ∧
        t.ports[port].vfs[v] = { s.ports[port].vfs[v] with stale := satAdd s.ports[port].vfs[v].stale 1 })

/-- Each clause names a command and says, of every state and operands that meet its hypotheses and of nothing else, that
exec answers a next state (`exec c s = .next t`), and what it holds. A walk starts below the deepest pointer entry
held, goes down a level at a pointer, and leaves its leaf in the engine's own cache; a root is written; an
invalidation empties the translation units of its range, waits for the engines that have not acknowledged, refuses by
force those that do not, and a range flush sends FlushL for the lines of its range. Completes, with a next state of
its own effect: pageWalk, walkLevelRead, trRootWrite, invalidationGo, engineInvalidationAck, invalidationForce,
cohFlushGo. The choices of the model in it are those of assumption logs 43 and 44. Drawn from R159, R164, R166, R179
to R182, R236, R237. -/
def Obligations.Translation : Prop :=
  (∀ (s : State) (f : FieldId) (p : PanelId) (va : BitVec 55) (acc : Access) (e : EngineSel) (ask : WalkUnit) (n : Nat) (tb : BitVec 52) (nm : DWord),
      tuField e = f →
      s.fields[f].tu.walks.length < 32 →
      s.walkStart p va f = .ok (n, tb, nm) →
      ∃ t, exec (.pageWalk f p va acc ⟨e, ask⟩) s = .next t ∧
        t.fields[f].tu = { s.fields[f].tu with walks := s.fields[f].tu.walks ++ [⟨s.fields[f].tu.nextWalk, p, va, acc, e, ask, [], n, tb, nm⟩], nextWalk := s.fields[f].tu.nextWalk + 1 }) ∧
  (∀ (s s₁ : State) (f : FieldId) (k : Nat) (er : List RawError) (w : Walk) (pte : DWord),
      (s.fields[f].tu.walks.find? fun w => decide (w.serial = k)) = some w →
      s.walkLevel (s.walkAgent w.panel w.engine w.asker) w.panel (s.walkTint w.panel w.engine) w.va w.level w.table w.namer (flipsAt er 0) = (.pointer pte, s₁) →
      ∃ t, exec (.walkLevelRead f k er) s = .next t ∧
        t.fields[f].tu.walks = modFirst (fun y => decide (y.serial = k)) (fun y => { y with level := y.level - 1, table := BitVec.ofNat 52 (pteAddr pte), namer := pte, found := y.found ++ [⟨w.panel, w.level, w.va.toNat >>> levelShift w.level, pte⟩] }) s₁.fields[f].tu.walks ∧
        t.fields[f].tu.walkCache = s₁.fields[f].tu.walkCache) ∧
  (∀ (s s₁ : State) (f : FieldId) (k : Nat) (er : List RawError) (w : Walk) (pte : DWord) (g : Target),
      (s.fields[f].tu.walks.find? fun w => decide (w.serial = k)) = some w →
      s.walkLevel (s.walkAgent w.panel w.engine w.asker) w.panel (s.walkTint w.panel w.engine) w.va w.level w.table w.namer (flipsAt er 0) = (.leaf pte, s₁) →
      tuField w.engine = f →
      w.found = [] →
      (s₁.modTu f fun u => { u with walks := u.walks.filter fun y => decide (y.serial ≠ k) }).useLeaf w.panel w.va w.access w.level pte = .ok g →
      ∃ t, exec (.walkLevelRead f k er) s = .next t ∧
        t.fields[f].tu.walks = s₁.fields[f].tu.walks.filter (fun y => decide (y.serial ≠ k)) ∧
        ⟨w.panel, w.level, w.va.toNat >>> levelShift w.level, pte⟩ ∈ t.fields[f].tu.own w.engine ∧ t.draws = s₁.draws + 1) ∧
  (∀ (s : State) (port : PortId) (v : VfId) (x : Word),
      s.vfLive port v = true →
      s.vfDust port v = false →
      s.ports[port].vfs[v].bound.isSome = true →
      ∃ t, exec (.trRootWrite port v x) s = .next t ∧
        t.ports[port].vfs[v] = { s.ports[port].vfs[v] with root := both x (s.lowHeld (.vf port v 0xE000)) &&& 0xFFFFFFFFF0001 }) ∧
  (∀ (s : State) (port : PortId) (v : VfId) (x : Word) (p : PanelId),
      s.vfLive port v = true →
      s.vfDust port v = false →
      s.ports[port].vfs[v].bound = some p →
      bit x 31 = true →
      s.ports[port].vfs[v].inv.state ≠ 1 →
      s.ports[port].vfs[v].inv.reject = none →
      ∃ t, exec (.invalidationGo (.page port v) x) s = .next t ∧
        ∀ f : FieldId, t.fields[f].tu = s.fields[f].tu.invalidate p s.ports[port].vfs[v].inv.base.toNat s.ports[port].vfs[v].inv.length.toNat (bit x 1)) ∧
  (∀ (s : State) (port : PortId) (v : VfId) (x : Word) (p : PanelId) (r : BitVec 4),
      s.vfLive port v = true →
      s.vfDust port v = false →
      s.ports[port].vfs[v].bound = some p →
      bit x 31 = true →
      s.ports[port].vfs[v].inv.state ≠ 1 →
      s.ports[port].vfs[v].inv.reject = some r →
      ∃ t, exec (.invalidationGo (.page port v) x) s = .next t ∧
        t.fields = s.fields ∧ t.ports[port].vfs[v].inv.state = 4 ∧ t.ports[port].vfs[v].inv.reason = r) ∧
  (∀ (s : State) (port : PortId) (v : VfId) (e : EngineSel) (p : PanelId),
      s.ports[port].vfs[v].bound = some p →
      s.ports[port].vfs[v].inv.state = 1 →
      s.ports[port].vfs[v].inv.waitingFor = [e] →
      s.acksAtOnce p e s.ports[port].vfs[v].inv = true →
      ∃ t, exec (.engineInvalidationAck (.page port v) e) s = .next t ∧
        t.ports[port].vfs[v].inv.state = 2 ∧ t.ports[port].vfs[v].inv.waitingFor = []) ∧
  (∀ (s : State) (port q : PortId) (v : VfId),
      s.ports[port].vfs[v].inv.state = 1 →
      s.ports[port].vfs[v].inv.waitingFor = [.aperture q] →
      ∃ t, exec (.invalidationForce (.page port v)) s = .next t ∧
        t.ports[port].vfs[v].inv.state = 3 ∧ t.ports[port].vfs[v].inv.forced = 1 ∧ .aperture q ∈ t.fields[fieldOfPort q].tu.refused) ∧
  (∀ (s : State) (port : PortId) (v : VfId) (x : Word) (p : PanelId) (b n : Nat),
      s.vfLive port v = true →
      s.vfDust port v = false →
      s.ports[port].vfs[v].bound = some p →
      bit x 31 = true →
      s.ports[port].vfs[v].flush.state ≠ 1 →
      b = s.ports[port].vfs[v].flush.base.toNat % 2 ^ 52 →
      n = s.ports[port].vfs[v].flush.length.toNat →
      b % 65536 = 0 ∧ n % 65536 = 0 ∧ 0 < n →
      coveredBy s.pnl.panels[p].ranges b n = true →
      ∃ t, exec (.cohFlushGo (.page port v) x) s = .next t ∧
        t.ports[port].vfs[v].flush.state = 1 ∧ t.ports[port].vfs[v].flush.todo = s.linesIn b n)

/-- Each clause names a command and says, of every state and operands that meet its hypotheses and of nothing else, that
exec answers a next state (`exec c s = .next t`), and what it holds. A read is served and answered with its code
words, a write is answered when it is queued and reaches memory when its batch drains, a bank serves the access it
chooses, a network atomic is performed once, and a conditional write-back stores the repaired word. Completes, with a
next state of its own effect: hbmRead, hbmWrite, hbmWriteDrain, fastTierAccess, networkAtomicPerform,
conditionalWriteBack. The choices of the model in it are those of assumption logs 36, 40 and 88. Drawn from R114, R116
to R118, R131, R134 to R137, R208. -/
def Obligations.StackRequests : Prop :=
  (∀ (s : State) (k : StackId) (pc : PcId) (n m : Nat) (er : List RawError) (r : WaitingRead) (x : Txn),
      s.isolated (fieldOfStack k) (niOfStack k) = false →
      chooseRead s.sclk n (s.hbm[k].readQ.filter fun r => decide (pcOfKey r.key = pc) && !s.hbm[k].keyHeld r.key && !s.readBehind r.id) = some r →
      s.txn r.id = some x →
      x.kind = .read m →
      ∃ u, exec (.hbmRead k pc n er) s = .next u ∧
        (u.txn r.id).map (fun y => (y.stage, y.status, y.data)) = some (.answered, 0, ((s.modStack k fun y => { y with readQ := passOlder r y.readQ }).serveWords x.id (txnAgent x) (x.pa &&& ~~~63#52) er 0 m).1)) ∧
  (∀ (s : State) (k : StackId) (pc : PcId) (n m : Nat) (er : List RawError) (r : WaitingRead) (x : Txn),
      s.isolated (fieldOfStack k) (niOfStack k) = false →
      chooseRead s.sclk n (s.hbm[k].readQ.filter fun r => decide (pcOfKey r.key = pc) && !s.hbm[k].keyHeld r.key && !s.readBehind r.id) = some r →
      s.txn r.id = some x →
      x.kind = .read m →
      ((s.hbm[k].readQ.filter fun r => decide (pcOfKey r.key = pc) && !s.hbm[k].keyHeld r.key && !s.readBehind r.id).filter fun y => decide (y.id ≠ r.id) && decide (stripOfKey y.key = stripOfKey r.key)) = [] →
      ∃ u, exec (.hbmRead k pc n er) s = .next u ∧
        u.hbm = ((s.modStack k fun y => { y with readQ := passOlder r y.readQ }).serveWords x.id (txnAgent x) (x.pa &&& ~~~63#52) er 0 m).2.hbm ∧ u.mem = ((s.modStack k fun y => { y with readQ := passOlder r y.readQ }).serveWords x.id (txnAgent x) (x.pa &&& ~~~63#52) er 0 m).2.mem) ∧
  (∀ (s : State) (i : TxId) (x : Txn) (w : CodeWord) (k : StackId) (pc : PcId) (sn wn : Nat),
      s.txn i = some x →
      x.kind = .write [w] →
      s.locate (x.pa &&& ~~~63#52) = some (.hbm k pc sn wn) →
      x.stage = .atTarget →
      s.locSunk (.hbm k pc sn wn) = false →
      s.hbm[k].keyHeld (s.keyOf (.hbm k pc sn wn)) = false →
      s.olderMeets x = false →
      s.mirrorShort (x.pa &&& ~~~63#52) 1 = false →
      s.hbm[k].queuedWords (pcOfKey (s.keyOf (.hbm k pc sn wn))) + 1 ≤ 128 →
      ∃ u, exec (.hbmWrite i) s = .next u ∧
        u.txn i = some { x with stage := .answered, status := 0, data := [] } ∧ u.mem = s.mem ∧ u.hbm[k].writeQ = s.hbm[k].writeQ ++ [⟨s.keyOf (.hbm k pc sn wn), s.encipher (x.pa &&& ~~~63#52) w⟩]) ∧
  (∀ (s : State) (k : StackId) (pc : PcId) (w : QueuedWrite),
      s.hbm[k].writeQ.filter (fun w => decide (pcOfKey w.key = pc)) = [w] →
      (s.hbm[k].readQ.any fun r => decide (pcOfKey r.key = pc)) = false →
      (s.hbm[k].repairBusy && decide (pc = asFin 64 (fld s.hbm[k].repairReq.toNat 21 6))) = false →
      ∃ u, exec (.hbmWriteDrain k pc) s = .next u ∧
        u.mem = Mem.put s.mem w.key (stored w.word) ∧ u.hbm[k].writeQ = s.hbm[k].writeQ.filter (fun w => decide (pcOfKey w.key ≠ pc))) ∧
  (∀ (s : State) (f : FieldId) (b : BankId) (er : List RawError) (r : BankAccess) (x : Txn) (ws : List CodeWord),
      s.isolated f (niOfBank b.val) = false →
      chooseAccess s.sclk (freeAccesses [] (s.fields[f].ft.queue.filter fun r => decide (bankOfKey r.key = s.fields[f].ft.bankMap[b].toNat) && !s.readBehind r.id)) = some r →
      s.txn r.id = some x →
      x.parts = [] →
      r.first = 0 →
      x.kind = .write ws →
      r.isWrite = true →
      r.words = ws →
      r.count = ws.length →
      s.mirrorShort r.pa ws.length = false →
      ∃ u, exec (.fastTierAccess f b er) s = .next u ∧
        u.txn x.id = some { x with stage := .answered, status := 0, data := [] } ∧ u.mem = ((s.modFt f fun y => { y with queue := y.queue.filter fun z => !(decide (z.id = r.id) && decide (z.key = r.key)) }).putWords r.pa ws).mem ∧
        u.fields[f].ft.queue = s.fields[f].ft.queue.filter (fun z => !(decide (z.id = r.id) && decide (z.key = r.key)))) ∧
  (∀ (s : State) (f : FieldId) (b : BankId) (er : List RawError) (r : BankAccess) (x : Txn) (m : Nat),
      s.isolated f (niOfBank b.val) = false →
      chooseAccess s.sclk (freeAccesses [] (s.fields[f].ft.queue.filter fun r => decide (bankOfKey r.key = s.fields[f].ft.bankMap[b].toNat) && !s.readBehind r.id)) = some r →
      s.txn r.id = some x →
      x.parts = [] →
      r.first = 0 →
      x.kind = .read m →
      r.isWrite = false →
      r.count = m →
      ∃ u, exec (.fastTierAccess f b er) s = .next u ∧
        (u.txn x.id).map (fun y => (y.stage, y.status)) = some (.answered, 0) ∧ u.mem = ((s.modFt f fun y => { y with queue := y.queue.filter fun z => !(decide (z.id = r.id) && decide (z.key = r.key)) }).serveWords x.id (txnAgent x) r.pa er 0 m).2.mem) ∧
  (∀ (s s₂ : State) (i : TxId) (er : List RawError) (x : Txn) (op : AtomicOp) (off : Fin 64) (a c : DWord) (m : Bool) (l : Loc) (r : Reply),
      s.txn i = some x →
      x.kind = .atomic op off a c m →
      s.locate (x.pa &&& ~~~63#52) = some l →
      x.stage = .atTarget →
      s.coherentAt (x.pa &&& ~~~63#52) = false →
      s.locSunk l = false →
      s.olderMeets x = false →
      s.locHeld l false = false →
      s.mirrorShort (x.pa &&& ~~~63#52) 1 = false →
      s.tableRoom (locNi l).1 (locNi l).2 i = true →
      s.dedupOf (locNi l).1 (locNi l).2 i = none →
      s.atomicLoc (txnAgent x) (x.pa &&& ~~~63#52) l op off.val a.toNat c.toNat m (flipsAt er 0) = (r, s₂) →
      ∃ u, exec (.networkAtomicPerform i er) s = .next u ∧
        u.txn i = some { x with stage := .answered, status := r.status, data := [r.word] } ∧ u.mem = s₂.mem ∧ u.dedupOf (locNi l).1 (locNi l).2 i = some ⟨(locNi l).1, (locNi l).2, i, r.status, [r.word]⟩) ∧
  (∀ (s : State) (key : Nat) (x : PendingFix),
      (s.ras.fixes.find? fun x => decide (x.key = key)) = some x →
      ∃ u, exec (.conditionalWriteBack key) s = .next u ∧
        u.mem = Mem.put s.mem key x.word ∧ u.ras = { s.ras with fixes := s.ras.fixes.erase x })

/-- Each clause names a command and says, of every state and operands that meet its hypotheses and of nothing else, that
exec answers a next state (`exec c s = .next t`), and what it holds. A refresh with those postponed, one put off
behind a critical read while the limit allows it, a temperature reading, soft repair, the fence of a channel, and the
test registers of an unlocked part. Completes, with a next state of its own effect: refresh, hbmTempReadout,
hbmRepair, softRepairDone, hbmRetire, hbmTestSelftest, hbmTestRetrain, hbmTestRate8g, stackSelftestDone. The choices
of the model in it are those of assumption logs 37, 40, 60, 88 and 89. Drawn from R119 to R122, R126, R129. -/
def Obligations.StackCare : Prop :=
  (∀ (s : State) (k : StackId) (pc : PcId) (b : Nat) (w : Bool) (n : Nat) (m : Nat),
      s.hbm[k].state = 4 →
      n = StackState.refreshUnit { s.hbm[k] with refreshRate := s.hbm[k].refreshNextRate, refreshMode := s.hbm[k].refreshNextMode } pc b →
      StackState.bankReads { s.hbm[k] with refreshRate := s.hbm[k].refreshNextRate, refreshMode := s.hbm[k].refreshNextMode } pc b (fun _ => true) = false →
      ∃ u, exec (.refresh k pc b w m) s = .next u ∧
        u.hbm[k].refreshesIssued = s.hbm[k].refreshesIssued + 1 + min (s.hbm[k].postponedOf n) m ∧ u.hbm[k].refreshRate = s.hbm[k].refreshNextRate ∧ u.hbm[k].refreshMode = s.hbm[k].refreshNextMode ∧ u.hbm[k].postponedOf n = s.hbm[k].postponedOf n - m) ∧
  (∀ (s : State) (k : StackId) (pc : PcId) (b : Nat) (n : Nat) (m : Nat),
      s.hbm[k].state = 4 →
      n = StackState.refreshUnit { s.hbm[k] with refreshRate := s.hbm[k].refreshNextRate, refreshMode := s.hbm[k].refreshNextMode } pc b →
      StackState.bankReads { s.hbm[k] with refreshRate := s.hbm[k].refreshNextRate, refreshMode := s.hbm[k].refreshNextMode } pc b (fun _ => true) = true →
      ∃ u, exec (.refresh k pc b false m) s = .next u ∧
        u.hbm[k].refreshesIssued = s.hbm[k].refreshesIssued + 1 ∧ u.hbm[k].postponed = s.hbm[k].postponed) ∧
  (∀ (s : State) (k : StackId) (pc : PcId) (b : Nat) (n : Nat) (m : Nat),
      s.hbm[k].state = 4 →
      n = StackState.refreshUnit { s.hbm[k] with refreshRate := s.hbm[k].refreshNextRate, refreshMode := s.hbm[k].refreshNextMode } pc b →
      StackState.bankReads { s.hbm[k] with refreshRate := s.hbm[k].refreshNextRate, refreshMode := s.hbm[k].refreshNextMode } pc b (fun r => r.critical) = true →
      ∃ u, exec (.refresh k pc b true m) s = .next u ∧
        (s.hbm[k].postponedOf n < Config.refreshLimit → u.hbm[k].refreshesIssued = s.hbm[k].refreshesIssued ∧ u.hbm[k].postponedOf n = s.hbm[k].postponedOf n + 1) ∧
        (Config.refreshLimit ≤ s.hbm[k].postponedOf n → u.hbm[k].refreshesIssued = s.hbm[k].refreshesIssued + 1 ∧ u.hbm[k].postponed = s.hbm[k].postponed)) ∧
  (∀ (s : State) (k : StackId) (x : Byte),
      s.hbm[k].training = false ∨ x.toNat < 105 →
      ∃ u, exec (.hbmTempReadout k x) s = .next u ∧
        u.hbm[k] = { s.hbm[k] with tempCur := x, tempMax := if s.hbm[k].tempMax.toNat < x.toNat then x else s.hbm[k].tempMax, hot := decide (85 ≤ x.toNat), crit := decide (105 ≤ x.toNat), refreshNextRate := if 85 ≤ x.toNat then 1 else 0 }) ∧
  (∀ (s : State) (k : StackId) (x : Byte),
      s.hbm[k].training = true →
      105 ≤ x.toNat →
      ∃ u, exec (.hbmTempReadout k x) s = .next u ∧
        u.hbm[k].state = 5 ∧ u.hbm[k].failCode = 4 ∧ u.hbm[k].stage = .failed ∧ u.hbm[k].ready = false ∧ u.hbm[k].tempCur = x) ∧
  (∀ (s : State) (k : StackId) (x : Word),
      (s.pf0Open 0 || s.pf0Open 1) = true →
      s.stackOut k = false →
      bit x 31 = true →
      s.hbm[k].repairBusy = false →
      s.hbm[k].pcActiveAt (fld x.toNat 21 6) = true →
      fld x.toNat 0 21 < 1966080 →
      ∃ u, exec (.hbmRepair k x) s = .next u ∧
        u.hbm[k] = { s.hbm[k] with repairBusy := true, repairReq := x }) ∧
  (∀ (s : State) (k : StackId),
      s.hbm[k].repairBusy = true →
      ∃ u, exec (.softRepairDone k false) s = .next u ∧
        u.hbm[k] = { s.hbm[k] with repairBusy := false, repairResult := 3 }) ∧
  (∀ (s : State) (k : StackId),
      s.hbm[k].repairBusy = true →
      ∃ u, exec (.softRepairDone k true) s = .next u ∧
        u.hbm[k].repairBusy = false ∧ u.hbm[k].repairResult = (if bit s.hbm[k].repairReq 30 = false then 1 else if s.fuse.hardRepair[k].length < 16 then 2 else 5) ∧
        (bit s.hbm[k].repairReq 30 = true → s.fuse.hardRepair[k].length < 16 →
          u.fuse.hardRepair[k] = s.fuse.hardRepair[k] ++ [(asFin 64 (fld s.hbm[k].repairReq.toNat 21 6), fld s.hbm[k].repairReq.toNat 0 21)])) ∧
  (∀ (s : State) (k : StackId) (x : Word),
      (s.pf0Open 0 || s.pf0Open 1) = true →
      s.stackOut k = false →
      x >>> 24 = 0xC5 →
      bit s.hbm[k].fenced (fld x.toNat 0 5) = false →
      bit s.hbm[k].excluded (fld x.toNat 0 5) = false →
      ∃ u, exec (.hbmRetire k x) s = .next u ∧
        u.hbm[k] = { s.hbm[k] with fenced := setBit s.hbm[k].fenced (fld x.toNat 0 5) true } ∧ u.mem = s.mem) ∧
  (∀ (s : State) (k : StackId) (x : Word),
      (s.pf0Open 0 || s.pf0Open 1) = true →
      s.fields[fieldOfStack k].leftOut = false →
      s.testUnlocked = true →
      s.hbm[k].busyTraining = false →
      bit x 31 = true →
      ∃ u, exec (.hbmTestSelftest k x) s = .next u ∧
        u.hbm[k].stage = .selfTest ∧ u.hbm[k].state = 1 ∧ u.hbm[k].ready = false ∧ u.hbm[k].attempt = 0 ∧ u.hbm[k].rate8g = bit x 0) ∧
  (∀ (s : State) (k : StackId) (x : Word),
      (s.pf0Open 0 || s.pf0Open 1) = true →
      s.fields[fieldOfStack k].leftOut = false →
      s.testUnlocked = true →
      s.hbm[k].busyTraining = false →
      bit x 31 = false →
      bit x 30 = true →
      ∃ u, exec (.hbmTestRetrain k x) s = .next u ∧
        u.hbm[k].stage = .idle ∧ u.hbm[k].state = 0 ∧ u.hbm[k].ready = false ∧ u.hbm[k].attempt = 0 ∧ u.hbm[k].rate8g = bit x 0) ∧
  (∀ (s : State) (k : StackId) (x : Word),
      (s.pf0Open 0 || s.pf0Open 1) = true →
      s.fields[fieldOfStack k].leftOut = false →
      s.testUnlocked = true →
      s.hbm[k].busyTraining = false →
      bit x 31 = false →
      bit x 30 = false →
      ∃ u, exec (.hbmTestRate8g k x) s = .next u ∧
        u.hbm[k] = { s.hbm[k] with rate8g := bit x 0 }) ∧
  (∀ (s : State) (k : StackId) (b : Bool),
      s.hbm[k].stage = .selfTest →
      ∃ u, exec (.stackSelftestDone k b) s = .next u ∧
        u.hbm[k] = { s.hbm[k] with testResult := if b then 1 else 2, stage := .idle, state := 0 })

/-- Each clause names a command and says, of every state and operands that meet its hypotheses and of nothing else, that
exec answers a next state (`exec c s = .next t`), and what it holds. The stages of a training attempt, its failures,
and the fills that leave every word of a stack or of a fast tier with the unwritten mark. Completes, with a next state
of its own effect: stackTrainingAttempt, trainingStageDone, trainingAttemptTimeout, stackFillDone, fastTierFillDone.
The choices of the model in it are those of assumption log 19. Drawn from R123 to R125, R132. -/
def Obligations.StackTraining : Prop :=
  (∀ (s : State) (k : StackId),
      s.elementsMayStart = true →
      s.hbm[k].stage = .idle →
      s.hbm[k].attempt ≠ 3 →
      ∃ u, exec (.stackTrainingAttempt k) s = .next u ∧
        u.hbm[k] = { s.hbm[k] with attempt := s.hbm[k].attempt + 1, state := 1, stage := .portCheck }) ∧
  (∀ (s : State) (k : StackId) (w : Word),
      s.hbm[k].stage = .portCheck →
      ∃ u, exec (.trainingStageDone k true w) s = .next u ∧
        u.hbm[k] = { s.hbm[k] with stage := .laneRepair }) ∧
  (∀ (s : State) (k : StackId) (b : Bool) (w : Word),
      s.hbm[k].stage = .laneRepair →
      ∃ u, exec (.trainingStageDone k b w) s = .next u ∧
        u.hbm[k] = { s.hbm[k] with stage := .hardRepair, state := 2 }) ∧
  (∀ (s : State) (k : StackId) (b : Bool) (w : Word),
      s.hbm[k].stage = .hardRepair →
      ∃ u, exec (.trainingStageDone k b w) s = .next u ∧
        u.hbm[k] = { s.hbm[k] with stage := .interface, state := 3 } ∧ u.fuse.hardRepair[k] = []) ∧
  (∀ (s : State) (k : StackId) (w : Word),
      s.hbm[k].stage = .interface →
      ∃ u, exec (.trainingStageDone k true w) s = .next u ∧
        u.hbm[k] = { s.hbm[k] with stage := .channelCheck, rate := if s.hbm[k].rate8g = true ∧ s.testUnlocked = true then 1 else 0 }) ∧
  (∀ (s : State) (k : StackId) (b : Bool),
      s.hbm[k].stage = .channelCheck →
      popCount s.hbm[k].excluded ≤ 4 →
      ∃ u, exec (.trainingStageDone k b 0) s = .next u ∧
        u.hbm[k] = { s.hbm[k] with stage := .fill }) ∧
  (∀ (s : State) (k : StackId) (w : Word),
      s.hbm[k].stage = .portCheck →
      s.hbm[k].attempt ≠ 3 →
      ∃ u, exec (.trainingStageDone k false w) s = .next u ∧
        u.hbm[k] = { s.hbm[k] with stage := .idle }) ∧
  (∀ (s : State) (k : StackId),
      s.hbm[k].inAttempt = true →
      s.hbm[k].attempt = 3 →
      ∃ u, exec (.trainingAttemptTimeout k) s = .next u ∧
        u.hbm[k].stage = .failed ∧ u.hbm[k].state = 5 ∧ u.hbm[k].failCode = 5 ∧ u.hbm[k].ready = false ∧ u.fields = s.fields) ∧
  (∀ (s : State) (k : StackId),
      s.hbm[k].stage = .fill →
      ∃ u, exec (.stackFillDone k) s = .next u ∧
        u.mem = Mem.clear s.mem (stackKeys k.val) (stackKeys (k.val + 1)) ∧ u.hbm[k].ready = true ∧ u.hbm[k].state = 4 ∧ u.hbm[k].stage = .done ∧ u.hbm[k].failCode = 0) ∧
  (∀ (s : State) (f : FieldId),
      s.elementsMayStart = true →
      s.fields[f].ft.ready = false →
      ∃ u, exec (.fastTierFillDone f) s = .next u ∧
        u.mem = Mem.clear s.mem (tierKeys f.val) (tierKeys (f.val + 1)) ∧ u.fields[f].ft.ready = true)

/-- Each clause names a command and says, of every state and operands that meet its hypotheses and of nothing else, that
exec answers a next state (`exec c s = .next t`), and what it holds. A skim step reads one strip or row and moves its
counter on; a primer slot is started, refused, runs its words, is aborted and ends; entries are popped; a page or a
bank is retired once its copy has been made. Completes, with a next state of its own effect: skimHbmStrip, skimFtRow,
primerZero, primerMark, primerCheck, primerSummarise, primerAbort, primerDone, rasMlogPop, hbmPageRetire,
pageCopyDone, ftBankRetire, bankCopyDone. The choices of the model in it are those of assumption logs 38 and 39. Drawn
from R141 to R146, R149, R151, R152. -/
def Obligations.Integrity : Prop :=
  (∀ (s s₂ : State) (k : StackId) (er : List RawError),
      s.hbm[k].state = 4 →
      s.stackOut k = false →
      s.hbm[k].skimInterval ≠ 0 →
      s.skimWords (fieldOfStack k) er 0 ((s.hbm[k].pcs.filter fun p => !(bit s.hbm[k].fenced (p.val / 2))).flatMap fun p => (List.range 8).map fun w => Loc.hbm k p s.hbm[k].skimStrip w) = s₂ →
      ∃ u, exec (.skimHbmStrip k er) s = .next u ∧
        u.hbm[k] = s₂.hbm[k].skimNext ∧ u.mem = s₂.mem ∧ u.ras = s₂.ras) ∧
  (∀ (s s₂ : State) (f : FieldId) (er : List RawError),
      s.fields[f].ft.ready = true →
      s.fields[f].leftOut = false →
      s.fields[f].ft.skimInterval ≠ 0 →
      s.skimWords f er 0 ((s.fields[f].ft.banks.filter fun b => !(bit s.fields[f].ft.fencedBanks b.val)).flatMap fun b => [Loc.ft f b s.fields[f].ft.skimRow 0, Loc.ft f b s.fields[f].ft.skimRow 1]) = s₂ →
      ∃ u, exec (.skimFtRow f er) s = .next u ∧
        u.fields[f].ft = s₂.fields[f].ft.skimNext ∧ u.mem = s₂.mem ∧ u.ras = s₂.ras) ∧
  (∀ (s : State) (n : Fin 8) (x : Word) (m : Nat),
      (s.pf0Open 0 || s.pf0Open 1) = true →
      bit x 31 = true →
      s.ras.primers[n].state ≠ 1 →
      s.primerReason s.ras.primers[n] (slice x 2 0) = none →
      ∃ u, exec (.primerZero n x m) s = .next u ∧
        u.ras.primers[n].state = 1 ∧ u.ras.primers[n].runOp = slice x 2 0 ∧ u.ras.primers[n].progress = 0 ∧ u.ras.primers[n].runBase = s.ras.primers[n].base.toNat % 2 ^ 52 ∧
        u.ras.primers[n].runLength = s.ras.primers[n].length.toNat ∧ u.ras.primers[n].uncorr = 0 ∧ u.ras.primers[n].firstBad = 0xFFFFFFFFFFFFFFFF) ∧
  (∀ (s : State) (n : Fin 8) (x : Word) (m : Nat) (r : BitVec 4),
      (s.pf0Open 0 || s.pf0Open 1) = true →
      bit x 31 = true →
      s.ras.primers[n].state ≠ 1 →
      s.primerReason s.ras.primers[n] (slice x 2 0) = some r →
      ∃ u, exec (.primerZero n x m) s = .next u ∧
        u.ras.primers[n].state = 3 ∧ u.ras.primers[n].reason = r ∧ u.mem = s.mem) ∧
  (∀ (s : State) (n : Fin 8) (x : Word) (m : Nat),
      bit x 31 = false →
      s.primerRuns n 0 = true →
      ∃ u, exec (.primerZero n x m) s = .next u ∧
        u.ras.primers[n].progress = s.ras.primers[n].progress + 64 * s.primerSpan n m ∧ u.mem = ((List.range (s.primerSpan n m)).foldl (fun t i => t.primerWrite n (BitVec.ofNat 52 (s.ras.primers[n].runBase + s.ras.primers[n].progress + 64 * i)) { data := 0, mark := false }) s).mem) ∧
  (∀ (s : State) (n : Fin 8) (x : Word) (m : Nat),
      bit x 31 = false →
      s.primerRuns n 3 = true →
      ∃ u, exec (.primerMark n x m) s = .next u ∧
        u.ras.primers[n].progress = s.ras.primers[n].progress + 64 * s.primerSpan n m ∧ u.mem = ((List.range (s.primerSpan n m)).foldl (fun t i => t.primerWrite n (BitVec.ofNat 52 (s.ras.primers[n].runBase + s.ras.primers[n].progress + 64 * i)) { data := 0, mark := true }) s).mem) ∧
  (∀ (s : State) (n : Fin 8) (x : Word) (m : Nat) (er : List RawError),
      bit x 31 = false →
      s.primerRuns n 1 = true →
      ∃ u, exec (.primerCheck n x m er) s = .next u ∧
        u.ras.primers[n].progress = s.ras.primers[n].progress + 64 * s.primerSpan n m ∧ u.mem = ((List.range (s.primerSpan n m)).foldl (fun t i => t.primerRead n (BitVec.ofNat 52 (s.ras.primers[n].runBase + s.ras.primers[n].progress + 64 * i)) true (flipsAt er i)) s).mem) ∧
  (∀ (s : State) (n : Fin 8) (x : Word) (m : Nat) (er : List RawError),
      bit x 31 = false →
      s.primerRuns n 2 = true →
      ∃ u, exec (.primerSummarise n x m er) s = .next u ∧
        u.ras.primers[n].progress = s.ras.primers[n].progress + 64 * s.primerSpan n m ∧ u.mem = ((List.range (s.primerSpan n m)).foldl (fun t i => t.primerRead n (BitVec.ofNat 52 (s.ras.primers[n].runBase + s.ras.primers[n].progress + 64 * i)) false (flipsAt er i)) s).mem) ∧
  (∀ (s s₂ : State) (n : Fin 8) (x : Word) (pa : BitVec 52) (l : Loc),
      bit x 31 = false →
      s.primerRuns n 0 = true →
      s.ras.primers[n].runLength = s.ras.primers[n].progress + 64 →
      pa = BitVec.ofNat 52 (s.ras.primers[n].runBase + s.ras.primers[n].progress) →
      s.primerLoc pa = some l →
      (s.primerTally n l).putCode pa l { data := 0, mark := false } = s₂ →
      ∃ u, exec (.primerZero n x 1) s = .next u ∧
        u.mem = s₂.mem ∧ u.ras.primers[n].progress = s.ras.primers[n].progress + 64) ∧
  (∀ (s s₂ : State) (n : Fin 8) (x : Word) (pa : BitVec 52) (l : Loc),
      bit x 31 = false →
      s.primerRuns n 3 = true →
      s.ras.primers[n].runLength = s.ras.primers[n].progress + 64 →
      pa = BitVec.ofNat 52 (s.ras.primers[n].runBase + s.ras.primers[n].progress) →
      s.primerLoc pa = some l →
      (s.primerTally n l).putCode pa l { data := 0, mark := true } = s₂ →
      ∃ u, exec (.primerMark n x 1) s = .next u ∧
        u.mem = s₂.mem ∧ u.ras.primers[n].progress = s.ras.primers[n].progress + 64) ∧
  (∀ (s s₂ : State) (n : Fin 8) (x : Word) (pa : BitVec 52) (er : List RawError),
      bit x 31 = false →
      s.primerRuns n 1 = true →
      s.ras.primers[n].runLength = s.ras.primers[n].progress + 64 →
      pa = BitVec.ofNat 52 (s.ras.primers[n].runBase + s.ras.primers[n].progress) →
      s.primerRead n pa true (flipsAt er 0) = s₂ →
      ∃ u, exec (.primerCheck n x 1 er) s = .next u ∧
        u.mem = s₂.mem ∧ u.ras.primers[n] = { s₂.ras.primers[n] with progress := s.ras.primers[n].progress + 64 } ∧ u.ras.fixes = s₂.ras.fixes ∧ u.ras.mlog = s₂.ras.mlog) ∧
  (∀ (s s₂ : State) (n : Fin 8) (x : Word) (pa : BitVec 52) (er : List RawError),
      bit x 31 = false →
      s.primerRuns n 2 = true →
      s.ras.primers[n].runLength = s.ras.primers[n].progress + 64 →
      pa = BitVec.ofNat 52 (s.ras.primers[n].runBase + s.ras.primers[n].progress) →
      s.primerRead n pa false (flipsAt er 0) = s₂ →
      ∃ u, exec (.primerSummarise n x 1 er) s = .next u ∧
        u.mem = s₂.mem ∧ u.ras.primers[n] = { s₂.ras.primers[n] with progress := s.ras.primers[n].progress + 64 } ∧ u.ras.fixes = s₂.ras.fixes ∧ u.ras.mlog = s₂.ras.mlog) ∧
  (∀ (s : State) (n : Fin 8),
      (s.pf0Open 0 || s.pf0Open 1) = true →
      s.ras.primers[n].state = 1 →
      ∃ u, exec (.primerAbort n) s = .next u ∧
        u.ras.primers[n] = { s.ras.primers[n] with state := 4 }) ∧
  (∀ (s : State) (n : Fin 8),
      s.ras.primers[n].state = 1 →
      s.ras.primers[n].runLength ≤ s.ras.primers[n].progress →
      ∃ u, exec (.primerDone n) s = .next u ∧
        u.ras.primers[n] = { s.ras.primers[n] with state := 2 }) ∧
  (∀ (s : State) (x : Word),
      (s.pf0Open 0 || s.pf0Open 1) = true →
      ∃ u, exec (.rasMlogPop x) s = .next u ∧
        u.ras = { s.ras with mlog := s.ras.mlog.drop (fld x.toNat 0 11) }) ∧
  (∀ (s : State) (k : StackId) (x : Word) (pc : PcId) (g : Nat),
      (s.pf0Open 0 || s.pf0Open 1) = true →
      s.stackOut k = false →
      x >>> 24 = 0xC5 →
      s.hbm[k].pageBusy = false →
      pc = asFin 64 (fld x.toNat 14 6) →
      g = fld x.toNat 0 14 →
      s.hbm[k].pcActiveAt pc.val = true →
      g < 15360 →
      (s.hbm[k].pages.any fun m => decide (m.pc = pc ∧ m.page = g)) = false →
      (s.hbm[k].pages.countP fun m => decide (m.pc = pc)) < 60 →
      ∃ u, exec (.hbmPageRetire k x) s = .next u ∧
        u.hbm[k] = { s.hbm[k] with pageBusy := true, pageReq := x, pageReqPc := pc } ∧ u.mem = s.mem) ∧
  (∀ (s : State) (k : StackId) (pc : PcId),
      s.hbm[k].pageBusy = true →
      pc = asFin 64 (fld s.hbm[k].pageReq.toNat 14 6) →
      ∃ u, exec (.pageCopyDone k) s = .next u ∧
        u.hbm[k].pageBusy = false ∧ u.hbm[k].pageResult = 1 ∧ ⟨pc, fld s.hbm[k].pageReq.toNat 0 14, s.hbm[k].freePage pc⟩ ∈ u.hbm[k].pages) ∧
  (∀ (s : State) (f : FieldId) (x : Word) (b : BankId) (n : Nat),
      (s.pf0Open 0 || s.pf0Open 1) = true →
      s.fields[f].leftOut = false →
      x >>> 24 = 0xC5 →
      s.fields[f].ft.retireBusy = false →
      b = asFin 64 (fld x.toNat 0 6) →
      bit s.fields[f].ft.lost b.val = false →
      bit s.fields[f].ft.fencedBanks b.val = false →
      s.fields[f].ft.freeBank = some n →
      ∃ u, exec (.ftBankRetire f x) s = .next u ∧
        u.fields[f].ft = { s.fields[f].ft with retireBusy := true, retireBank := BitVec.ofNat 6 b.val } ∧ u.mem = s.mem) ∧
  (∀ (s : State) (f : FieldId) (x : Word) (b : BankId),
      (s.pf0Open 0 || s.pf0Open 1) = true →
      s.fields[f].leftOut = false →
      x >>> 24 = 0xC5 →
      s.fields[f].ft.retireBusy = false →
      b = asFin 64 (fld x.toNat 0 6) →
      bit s.fields[f].ft.lost b.val = false →
      bit s.fields[f].ft.fencedBanks b.val = false →
      s.fields[f].ft.freeBank = none →
      ∃ u, exec (.ftBankRetire f x) s = .next u ∧
        u.fields[f].ft.fenced = true ∧ u.fields[f].ft.retireResult = 2 ∧ bit u.fields[f].ft.fencedBanks b.val = true ∧ u.mem = s.mem) ∧
  (∀ (s : State) (f : FieldId) (n : Nat) (b : BankId),
      s.fields[f].ft.retireBusy = true →
      s.fields[f].ft.freeBank = some n →
      b = asFin 64 s.fields[f].ft.retireBank.toNat →
      ∃ u, exec (.bankCopyDone f) s = .next u ∧
        u.fields[f].ft.bankMap[b] = BitVec.ofNat 7 n ∧ u.fields[f].ft.retireBusy = false ∧ u.fields[f].ft.retireResult = 1 ∧ u.fields[f].ft.newPhys = BitVec.ofNat 7 n)

/-- Each clause names a command and says, of every state and operands that meet its hypotheses and of nothing else, that
exec answers a next state (`exec c s = .next t`), and what it holds. An injected request takes a free tag and goes
into flight; at its target it waits for service; its response leaves the network and completes its owner; a discard, a
timeout, a resend, the end of a quarantine, of a kept answer and of a budget window each do what the rules say.
Completes, with a next state of its own effect: networkRequestInject, networkDelivery, networkResponse, routerDiscard,
transactionTimeout, atomicResend, dedupEntryExpiry, tagQuarantineEnd, budgetWindowOpen. The choices of the model in it
are those of assumption logs 14, 19, 41, 42, 88 and 93. Drawn from R197 to R200, R203, R205, R207 to R209. -/
def Obligations.Network : Prop :=
  (∀ (s : State) (req : NetReq) (tag : BitVec 12) (pa : BitVec 52),
      s.mayInject req = true →
      s.freeTag req.field req.ni (reqHigh req.kind) = some tag →
      pa = (match req.kind with | .read _ => s.nearCopy req.field req.pa | _ => req.pa) →
      (∀ c, s.trunkTakes pa c = true) →
      ∃ u, exec (.networkRequestInject req) s = .next u ∧
        u.net.flight.length = s.net.flight.length + 1) ∧
  (∀ (s : State) (req : NetReq) (tag : BitVec 12) (pa : BitVec 52),
      s.mayInject req = true →
      s.freeTag req.field req.ni (reqHigh req.kind) = some tag →
      pa = (match req.kind with | .read _ => s.nearCopy req.field req.pa | _ => req.pa) →
      (∀ c, s.trunkTakes pa c = true) →
      req.mover = false →
      ∃ u, exec (.networkRequestInject req) s = .next u ∧
        ∃ x : Txn, u.net.flight = s.net.flight ++ [x] ∧ x.id = ⟨req.field, req.ni, tag⟩ ∧ x.kind = req.kind ∧ x.pa = pa ∧ x.stage = .inFlight ∧ x.tint = req.tint ∧ x.panel = req.panel ∧
        x.demoted = !(s.tally req.field req.ni true req.tint (reqWords req.kind)).1 ∧ x.injected = s.sclk) ∧
  (∀ (s : State) (req : NetReq) (pa : BitVec 52),
      s.mayInject req = true →
      s.freeTag req.field req.ni (reqHigh req.kind) = none →
      pa = (match req.kind with | .read _ => s.nearCopy req.field req.pa | _ => req.pa) →
      ∃ u, exec (.networkRequestInject req) s = .next u ∧
        u.net.flight = s.net.flight ∧ u.net.heldReqs = s.net.heldReqs ++ [⟨req.field, req.ni, req.tint, req.panel, pa, req.kind, s.ownerOf req⟩]) ∧
  (∀ (s : State) (id : TxId) (x : Txn) (g : FieldId) (mi : NiId) (l : Loc) (n : Nat) (hops : List (Fin 10)),
      s.txn id = some x →
      x.stage = .inFlight →
      x.kind = .read n →
      s.txDest x = some (g, mi) →
      13 ≤ mi.val ∧ mi.val < 16 →
      s.route x.id.field x.id.ni g mi = .ok hops →
      s.isolated g mi = false →
      (s.tally g mi false x.tint n).1 = true →
      s.locate (x.pa &&& ~~~63#52) = some l →
      s.locFenced l = false →
      s.heldBack x = false →
      s.queueFull x = false →
      ∃ u, exec (.networkDelivery id) s = .next u ∧
        (u.txn id).map (fun t => t.stage) = some .atTarget) ∧
  (∀ (s : State) (id : TxId) (x : Txn) (g : FieldId) (mi : NiId) (k : StackId) (pc : PcId) (sn wn : Nat) (n : Nat) (hops : List (Fin 10)),
      s.txn id = some x →
      x.stage = .inFlight →
      x.kind = .read n →
      s.txDest x = some (g, mi) →
      13 ≤ mi.val ∧ mi.val < 16 →
      s.route x.id.field x.id.ni g mi = .ok hops →
      s.isolated g mi = false →
      (s.tally g mi false x.tint n).1 = true →
      s.locate (x.pa &&& ~~~63#52) = some (.hbm k pc sn wn) →
      s.locFenced (.hbm k pc sn wn) = false →
      s.heldBack x = false →
      s.queueFull x = false →
      ∃ u, exec (.networkDelivery id) s = .next u ∧
        ∃ r : WaitingRead, r.id = id ∧ r.key = s.keyOf (.hbm k pc sn wn) ∧ r.count = n ∧ r.arrived = s.sclk ∧ r.passed = 0 ∧ u.hbm[k].readQ = s.hbm[k].readQ ++ [r]) ∧
  (∀ (s : State) (id : TxId) (x : Txn) (nclk : Nat) (g : FieldId × NiId) (hops : List (Fin 10)),
      s.txn id = some x →
      x.stage = .answered →
      x.late = false →
      s.txDest x = some g →
      s.route g.1 g.2 id.field id.ni = .ok hops →
      x.owner = .none →
      x.dups = 0 →
      s.net.heldReqs = [] →
      ∃ u, exec (.networkResponse id nclk) s = .next u ∧
        u.txn id = none ∧ u.net.quarantine = if reqHigh x.kind then s.net.quarantine ++ [x.id] else s.net.quarantine) ∧
  (∀ (s : State) (id : TxId) (x : Txn) (f : FieldId),
      s.txn id = some x →
      x.stage = .inFlight ∨ x.stage = .answered →
      s.ras.flog.length < 1024 →
      ∃ u, exec (.routerDiscard id f) s = .next u ∧
        u.txn id = some { x with stage := .lost } ∧ u.net.dropsRouter = satAdd s.net.dropsRouter 1 ∧
        u.ras.flog = s.ras.flog ++ [faultEntry { source := 8, panel := panelByte x.panel, element := BitVec.ofNat 32 (f.val * 256) } s.now]) ∧
  (∀ (s : State) (id : TxId) (x : Txn),
      s.txn id = some x →
      x.late = false →
      x.stage ≠ .lost →
      x.owner = .none →
      s.ras.flog.length < 1024 →
      ∃ u, exec (.transactionTimeout id) s = .next u ∧
        u.txn id = some { x with late := true } ∧ u.net.timeouts = satAdd s.net.timeouts 1 ∧ u.net.quarantine = s.net.quarantine ++ [id] ∧
        u.ras.flog.length = s.ras.flog.length + 1) ∧
  (∀ (s : State) (id : TxId) (x : Txn),
      s.txn id = some x →
      reqHigh x.kind = true →
      x.resends < 2 →
      x.late = false →
      ∃ u, exec (.atomicResend id) s = .next u ∧
        u.txn id = some { x with resends := x.resends + 1, stage := if x.stage = .lost then .inFlight else x.stage, copies := if x.stage = .lost then x.copies else x.copies + 1 }) ∧
  (∀ (s : State) (f : FieldId) (ni : NiId) (id : TxId),
      ∃ u, exec (.dedupEntryExpiry f ni id) s = .next u ∧
        u.dedupOf f ni id = none ∧ (∀ e ∈ s.net.dedup, ¬ (e.field = f ∧ e.ni = ni ∧ e.id = id) → e ∈ u.net.dedup)) ∧
  (∀ (s : State) (id : TxId),
      id ∈ s.net.quarantine →
      s.net.heldReqs = [] →
      ∃ u, exec (.tagQuarantineEnd id) s = .next u ∧
        id ∉ u.net.quarantine ∧ (∀ i ∈ s.net.quarantine, i ≠ id → i ∈ u.net.quarantine) ∧ (∀ x ∈ s.net.flight, ¬ (x.id = id ∧ x.late = true) → x ∈ u.net.flight)) ∧
  (∀ (s : State) (f : FieldId) (ni : NiId) (injection : Bool) (c : BudgetCount),
      c ∈ s.net.budgets →
      c.field = f ∧ c.ni = ni ∧ c.injection = injection →
      ∃ u, exec (.budgetWindowOpen f ni injection) s = .next u ∧
        { c with lastWords := c.words, words := 0, isOver := false } ∈ u.net.budgets ∧ u.net.budgets.length = s.net.budgets.length)

/-- Each clause names a command and says, of every state and operands that meet its hypotheses and of nothing else, that
exec answers a next state (`exec c s = .next t`), and what it holds. A flit in sequence is accepted and acknowledged,
a replay round is counted, a link is retired onto a spare that trains and later carries its traffic; the grout sink
answers a request that reaches an isolated NI with status 1; three timeouts or the operator isolate an NI. Completes,
with a next state of its own effect: trunkHashChange, lathFlitReceive, lathReplay, lathLinkRetire, lathSpareInService,
groutSinkAnswer, timeoutIsolation, netIsolate. The choices of the model in it are those of assumption logs 42, 77 and
85. Drawn from R184, R191 to R194, R210, R211, R213. -/
def Obligations.LathLinks : Prop :=
  (∀ (s : State) (b : Fin 10),
      (s.net.lath[b].lanes.all fun l => decide (l.buffer = [])) = true →
      s.net.heldReqs = [] →
      ∃ u, exec (.trunkHashChange b) s = .next u ∧
        u.net.lath[b] = { s.net.lath[b] with hashSet := s.net.lath[b].inService }) ∧
  (∀ (s : State) (b : Fin 10) (link : Fin 34) (dir : LathDir) (seq : BitVec 12),
      bit s.net.lath[b].inService link.val = true →
      seq = (s.net.lath[b].lane link dir).expect →
      ((s.net.lath[b].lane link dir).buffer.any fun e => decide (e.1 = seq)) = true →
      s.net.heldReqs = [] →
      ∃ u, exec (.lathFlitReceive b link dir seq true) s = .next u ∧
        u.net.lath[b] = s.net.lath[b].setLane { s.net.lath[b].lane link dir with expect := seq + 1, buffer := (s.net.lath[b].lane link dir).buffer.filter (fun e => decide (e.1 ≠ seq)), rounds := 0 } ∧ u.out = .lathAck b link dir seq :: s.out) ∧
  (∀ (s : State) (b : Fin 10) (link : Fin 34) (dir : LathDir),
      bit s.net.lath[b].inService link.val = true →
      (s.net.lath[b].lane link dir).rounds < 8 →
      (s.net.lath[b].lane link dir).buffer ≠ [] →
      ∃ u, exec (.lathReplay b link dir) s = .next u ∧
        u.net.lath[b].replays = satAdd s.net.lath[b].replays 1 ∧ u.out = .lathReplay b link dir :: s.out) ∧
  (∀ (s : State) (b : Fin 10) (link : Fin 34) (sp : Nat),
      bit s.net.lath[b].inService link.val = true →
      (s.net.lath[b].lanes.any fun l => l.link = link && decide (8 ≤ l.rounds)) = true →
      (onBits s.net.lath[b].spare).head? = some sp →
      s.ras.flog.length < 1024 →
      ∃ u, exec (.lathLinkRetire b link) s = .next u ∧
        u.net.lath[b].inService = setBit s.net.lath[b].inService link.val false ∧ u.net.lath[b].spare = setBit s.net.lath[b].spare sp false ∧ u.net.lath[b].training = setBit s.net.lath[b].training sp true ∧
        u.ras.patches.length = s.ras.patches.length + 1 ∧ u.ras.flog = s.ras.flog ++ [faultEntry { cls := 2, source := 7, element := lathElement b link.val, patch := s.nextPatch } s.now]) ∧
  (∀ (s : State) (b : Fin 10) (link : Fin 34),
      bit s.net.lath[b].training link.val = true →
      ∃ u, exec (.lathSpareInService b link) s = .next u ∧
        u.net.lath[b] = { s.net.lath[b] with training := setBit s.net.lath[b].training link.val false, inService := setBit s.net.lath[b].inService link.val true }) ∧
  (∀ (s : State) (id : TxId) (x : Txn) (g : FieldId) (mi : NiId),
      s.txn id = some x →
      x.stage = .inFlight →
      s.txDest x = some (g, mi) →
      s.isolated g mi = true →
      ∃ u, exec (.groutSinkAnswer id) s = .next u ∧
        u.txn id = some { x with stage := .answered, status := 1, data := refusedData x.kind }) ∧
  (∀ (s : State) (f : FieldId) (ni : NiId),
      s.timeoutsDue f ni = true →
      s.isolated f ni = false →
      arrayOfNi f ni = none →
      ni ≠ 16 →
      s.ras.flog.length < 1024 →
      ∃ u, exec (.timeoutIsolation f ni) s = .next u ∧
        bit u.net.sink[f] ni.val = true ∧ u.ras.flog = s.ras.flog ++ [faultEntry { cls := 4, source := 8, element := niElement f ni } s.now] ∧ (∀ h ∈ u.net.timeoutHits, h.1 ≠ 32 * f.val + ni.val)) ∧
  (∀ (s : State) (value : Word) (f : FieldId) (ni : NiId),
      (s.pf0Open 0 || s.pf0Open 1) = true →
      value >>> 24 = 0xC5 →
      f = asFin 8 (fld value.toNat 8 3) →
      ni = asFin 32 (fld value.toNat 0 5) →
      ¬ (19 ≤ ni.val ∧ ni.val ≤ 22) →
      s.isolated f ni = false →
      arrayOfNi f ni = none →
      ni ≠ 16 →
      s.ras.flog.length < 1024 →
      ∃ u, exec (.netIsolate value) s = .next u ∧
        bit u.net.sink[f] ni.val = true ∧ u.ras.flog = s.ras.flog ++ [faultEntry { cls := 4, source := 8, element := niElement f ni } s.now])

/-- Each clause names a command and says, of every state and operands that meet its hypotheses and of nothing else, that
exec answers a next state (`exec c s = .next t`), and what it holds. The home of a line that nothing blocks and no
directory entry records serves a request at once: RdS, RdX, Upg and InvX leave the requester alone in the directory
with the state granted; RdC, WrL, FlushL and an atomic are answered; a clean eviction removes the agent. Completes,
with a next state of its own effect: cohRds, cohRdx, cohUpg, cohInvx, cohRdc, cohWrl, cohFlushl, cohAtomic, cohEvc,
cxlCacheRequest. The choices of the model in it are those of assumption logs 11 and 86. Drawn from R223, R225, R226,
R231, R232. -/
def Obligations.CoherenceRequests : Prop :=
  (∀ (s : State) (a : AgentId) (pa : BitVec 52) (tint : TintId),
      a.val < 48 →
      s.agentMaySend a pa = true →
      s.wants a pa (.rdS a false) = true →
      (s.counted (agentNi a) (s.homeOf pa, 17) tint 1).wayOut (agentNi a) (s.homeOf pa, 17) = none →
      s.clearLine (s.homeOf pa) (lineOf pa) (.rdS a false) = true →
      ∃ u, exec (.cohRds a ⟨pa, tint⟩) s = .next u ∧
        u.coh.slices[s.homeOf pa].entry (lineOf pa) = some (soleEntry (lineOf pa) a (s.uncachedGrant a false)) ∧ (u.coh.slices[s.homeOf pa].blockedAt (lineOf pa)).bind (·.granted) = some (s.uncachedGrant a false)) ∧
  (∀ (s : State) (a : AgentId) (pa : BitVec 52) (tint : TintId),
      ¬ a.val < 40 →
      a.val < 48 →
      s.agentMaySend a pa = true →
      s.wants a pa (.rdX a) = true →
      (s.counted (agentNi a) (s.homeOf pa, 17) tint 1).wayOut (agentNi a) (s.homeOf pa, 17) = none →
      s.clearLine (s.homeOf pa) (lineOf pa) (.rdX a) = true →
      ∃ u, exec (.cohRdx a ⟨pa, tint⟩) s = .next u ∧
        u.coh.slices[s.homeOf pa].entry (lineOf pa) = some (soleEntry (lineOf pa) a .e) ∧ (u.coh.slices[s.homeOf pa].blockedAt (lineOf pa)).bind (·.granted) = some .e) ∧
  (∀ (s : State) (a : AgentId) (pa : BitVec 52) (tint : TintId),
      ¬ a.val < 40 →
      a.val < 48 →
      s.agentMaySend a pa = true →
      s.wants a pa (.upg a) = true →
      (s.counted (agentNi a) (s.homeOf pa, 17) tint 0).wayOut (agentNi a) (s.homeOf pa, 17) = none →
      s.clearLine (s.homeOf pa) (lineOf pa) (.upg a) = true →
      ∃ u, exec (.cohUpg a ⟨pa, tint⟩) s = .next u ∧
        u.coh.slices[s.homeOf pa].entry (lineOf pa) = some (soleEntry (lineOf pa) a .e) ∧ (u.coh.slices[s.homeOf pa].blockedAt (lineOf pa)).bind (·.granted) = some .e) ∧
  (∀ (s : State) (a : AgentId) (pa : BitVec 52) (tint : TintId),
      ¬ a.val < 40 →
      a.val < 48 →
      s.agentMaySend a pa = true →
      s.wants a pa (.invX a) = true →
      (s.counted (agentNi a) (s.homeOf pa, 17) tint 0).wayOut (agentNi a) (s.homeOf pa, 17) = none →
      s.clearLine (s.homeOf pa) (lineOf pa) (.invX a) = true →
      ∃ u, exec (.cohInvx a ⟨pa, tint⟩) s = .next u ∧
        u.coh.slices[s.homeOf pa].entry (lineOf pa) = some (soleEntry (lineOf pa) a .e) ∧ (u.coh.slices[s.homeOf pa].blockedAt (lineOf pa)).bind (·.granted) = some .e) ∧
  (∀ (s : State) (id : TxId) (pa : BitVec 52) (x : Txn),
      s.isolated (s.homeOf pa) 17 = false →
      (s.coherentPanel pa).isSome = true →
      s.clearLine (s.homeOf pa) (lineOf pa) (.rdC id) = true →
      s.txn id = some x →
      ∃ u, exec (.cohRdc id pa) s = .next u ∧
        u.mem = ((s.blockLine (s.homeOf pa) (lineOf pa) (.rdC id) (hubFrom x.tint)).homeRead (s.homeOf pa) x.tint (lineOf pa)).2.mem ∧ u.txn id = some { x with stage := .answered, status := 0, data := [((s.blockLine (s.homeOf pa) (lineOf pa) (.rdC id) (hubFrom x.tint)).homeRead (s.homeOf pa) x.tint (lineOf pa)).1.word] }) ∧
  (∀ (s : State) (id : TxId) (pa : BitVec 52) (x : Txn) (w : CodeWord),
      s.isolated (s.homeOf pa) 17 = false →
      (s.coherentPanel pa).isSome = true →
      s.clearLine (s.homeOf pa) (lineOf pa) (.wrL id w) = true →
      s.txn id = some x →
      ∃ u, exec (.cohWrl id pa w) s = .next u ∧
        u.mem = ((s.blockLine (s.homeOf pa) (lineOf pa) (.wrL id w) (hubFrom x.tint)).homeWrite (s.homeOf pa) x.tint (lineOf pa) w).2.mem ∧ u.txn id = some { x with stage := .answered, status := ((s.blockLine (s.homeOf pa) (lineOf pa) (.wrL id w) (hubFrom x.tint)).homeWrite (s.homeOf pa) x.tint (lineOf pa) w).1, data := [] }) ∧
  (∀ (s : State) (id : TxId) (pa : BitVec 52) (x : Txn),
      s.isolated (s.homeOf pa) 17 = false →
      (s.coherentPanel pa).isSome = true →
      s.clearLine (s.homeOf pa) (lineOf pa) (.flushL id) = true →
      s.txn id = some x →
      ∃ u, exec (.cohFlushl id pa) s = .next u ∧
        u.mem = s.mem ∧ u.txn id = some { x with stage := .answered, status := 0, data := [] }) ∧
  (∀ (s : State) (id : TxId) (pa : BitVec 52) (op : AtomicOp) (off : Fin 64) (operand cmp : DWord) (x : Txn) (m : Bool),
      s.dedupOf (s.homeOf pa) 17 id = none →
      s.isolated (s.homeOf pa) 17 = false →
      (s.coherentPanel pa).isSome = true →
      s.clearLine (s.homeOf pa) (lineOf pa) (.atomic id op off operand cmp) = true →
      s.txn id = some x →
      x.kind = .atomic op off operand cmp m →
      ∃ u, exec (.cohAtomic id pa op off operand cmp) s = .next u ∧
        u.mem = (((s.blockLine (s.homeOf pa) (lineOf pa) (.atomic id op off operand cmp) (hubFrom x.tint)).modSlice (s.homeOf pa) fun x => x.drop (lineOf pa)).homeAtomic (s.homeOf pa) x.tint (lineOf pa) op off.val operand.toNat cmp.toNat m).2.mem ∧ u.txn id = some { x with stage := .answered, status := (((s.blockLine (s.homeOf pa) (lineOf pa) (.atomic id op off operand cmp) (hubFrom x.tint)).modSlice (s.homeOf pa) fun x => x.drop (lineOf pa)).homeAtomic (s.homeOf pa) x.tint (lineOf pa) op off.val operand.toNat cmp.toNat m).1.status, data := [(((s.blockLine (s.homeOf pa) (lineOf pa) (.atomic id op off operand cmp) (hubFrom x.tint)).modSlice (s.homeOf pa) fun x => x.drop (lineOf pa)).homeAtomic (s.homeOf pa) x.tint (lineOf pa) op off.val operand.toNat cmp.toNat m).1.word] } ∧ u.coh.slices[s.homeOf pa].blockedAt (lineOf pa) = none) ∧
  (∀ (s : State) (a : AgentId) (pa : BitVec 52),
      s.isCxl a = true →
      s.sites[agentSite a].state = 3 →
      s.cxlMay (agentSite a) pa = true →
      ∃ u, exec (.cohEvc a pa) s = .next u ∧
        u.coh.slices[s.homeOf pa] = s.coh.slices[s.homeOf pa].remove (lineOf pa) a) ∧
  (∀ (s : State) (n : SiteId) (pa : BitVec 52) (w : CodeWord) (tag : BitVec 12),
      s.sites[n].state = 3 →
      s.cxlMay n pa = true →
      ∃ u, exec (.cxlCacheRequest n .cleanEvict pa w tag) s = .next u ∧
        u.coh.slices[s.homeOf pa] = s.coh.slices[s.homeOf pa].remove (lineOf pa) (s.cxlAgent n) ∧ u.out = .cxlAnswer n cxlWritePullDrop none :: s.out)

/-- Each clause names a command and says, of every state and operands that meet its hypotheses and of nothing else, that
exec answers a next state (`exec c s = .next t`), and what it holds. A write-back reaches memory and frees the
directory; a snooped hub agent answers as its line stands; the home takes answers, completions and acknowledgements;
unanswered snoops and acknowledgements are counted; a dead agent loses its copies; a finished flush is shown.
Completes, with a next state of its own effect: cohWb, cxlDirtyEvict, snoopSnps, snoopSnpi, snoopSnpc, snoopResponse,
cohCmpReceive, cohAck, cohHold, snoopTimeout, ackTimeout, staleEntryExpiry, agentDead, cohFlushDone, wback. The
choices of the model in it are those of assumption logs 10, 19 and 86. Drawn from R220, R223, R227 to R229, R232 to
R234, R236, R237. -/
def Obligations.CoherenceAnswers : Prop :=
  (∀ (s : State) (a : AgentId) (pa : BitVec 52) (tag : BitVec 12) (tint : TintId) (c : CacheLine),
      a.val < 48 →
      s.cached a (lineOf pa) = some c →
      c.wbTag = some tag →
      (s.counted (agentNi a) (s.homeOf pa, 17) tint 1).wayOut (agentNi a) (s.homeOf pa, 17) = none →
      ({ agent := a, tag := some tag, line := lineOf pa } : StaleEntry) ∉ s.coh.slices[s.homeOf pa].stale →
      ((s.coh.slices[s.homeOf pa].blockedAt (lineOf pa)).any fun b => b.snoops.any fun m => m.agent = a) = false →
      ∃ u, exec (.cohWb a pa tag tint) s = .next u ∧
        u.mem = ((s.counted (agentNi a) (s.homeOf pa, 17) tint 1).homeWrite (s.homeOf pa) tint (lineOf pa) c.word).2.mem ∧ u.coh.slices[s.homeOf pa] = s.coh.slices[s.homeOf pa].remove (lineOf pa) a ∧ u.coh.wbAcks = s.coh.wbAcks ++ [(a, lineOf pa)]) ∧
  (∀ (s : State) (n : SiteId) (pa : BitVec 52) (w : CodeWord),
      s.sites[n].state = 3 →
      s.cxlMay n pa = true →
      s.isCxl (s.cxlAgent n) = true →
      ((s.emit (.cxlAnswer n cxlWritePull none)).counted (agentNi (s.cxlAgent n)) (s.homeOf pa, 17) (s.cxlFrom n 0).tint 1).wayOut (agentNi (s.cxlAgent n)) (s.homeOf pa, 17) = none →
      ({ agent := s.cxlAgent n, tag := none, line := lineOf pa } : StaleEntry) ∉ s.coh.slices[s.homeOf pa].stale →
      ((s.coh.slices[s.homeOf pa].blockedAt (lineOf pa)).any fun b => b.snoops.any fun m => m.agent = s.cxlAgent n) = false →
      ∃ u, exec (.cxlDirtyEvict n pa w) s = .next u ∧
        u.mem = (((s.emit (.cxlAnswer n cxlWritePull none)).counted (agentNi (s.cxlAgent n)) (s.homeOf pa, 17) (s.cxlFrom n 0).tint 1).homeWrite (s.homeOf pa) (s.cxlFrom n 0).tint (lineOf pa) w).2.mem ∧ u.coh.slices[s.homeOf pa] = s.coh.slices[s.homeOf pa].remove (lineOf pa) (s.cxlAgent n)) ∧
  (∀ (s : State) (a : AgentId) (pa : BitVec 52) (b : Blocked),
      s.coh.slices[s.homeOf pa].blockedAt (lineOf pa) = some b →
      (b.snoops.any fun n => n.agent = a && n.kind = .snpS && n.answer = none) = true →
      a.val < 48 →
      ∃ u, exec (.snoopSnps a pa) s = .next u ∧
        u.sentAnswer a pa = some (s.hubAnswer a (lineOf pa) .snpS).1 ∧ u.coh.caches = (s.hubAnswer a (lineOf pa) .snpS).2.coh.caches) ∧
  (∀ (s : State) (a : AgentId) (pa : BitVec 52) (b : Blocked),
      s.coh.slices[s.homeOf pa].blockedAt (lineOf pa) = some b →
      (b.snoops.any fun n => n.agent = a && n.kind = .snpI && n.answer = none) = true →
      a.val < 48 →
      ∃ u, exec (.snoopSnpi a pa) s = .next u ∧
        u.sentAnswer a pa = some (s.hubAnswer a (lineOf pa) .snpI).1 ∧ u.coh.caches = (s.hubAnswer a (lineOf pa) .snpI).2.coh.caches) ∧
  (∀ (s : State) (a : AgentId) (pa : BitVec 52) (b : Blocked),
      s.coh.slices[s.homeOf pa].blockedAt (lineOf pa) = some b →
      (b.snoops.any fun n => n.agent = a && n.kind = .snpC && n.answer = none) = true →
      a.val < 48 →
      ∃ u, exec (.snoopSnpc a pa) s = .next u ∧
        u.sentAnswer a pa = some (s.hubAnswer a (lineOf pa) .snpC).1 ∧ u.coh.caches = (s.hubAnswer a (lineOf pa) .snpC).2.coh.caches) ∧
  (∀ (s : State) (a : AgentId) (pa : BitVec 52) (b : Blocked) (n : Snoop) (ans : SnoopAnswer),
      s.coh.slices[s.homeOf pa].blockedAt (lineOf pa) = some b →
      (b.snoops.find? fun m => m.agent = a) = some n →
      n.answer = some ans →
      ans.wbp = none →
      s.isCxl a = false →
      s.answerComes (s.homeOf pa) a = true →
      (b.snoops.filter fun m => m.agent ≠ a) ≠ [] →
      s.coh.slices[s.homeOf pa].waiting = [] →
      ∃ u, exec (.snoopResponse a pa) s = .next u ∧
        u.coh.slices[s.homeOf pa].blockedAt (lineOf pa) = some { b with snoops := b.snoops.filter fun m => m.agent ≠ a, gotData := if ans.hasData then some ans.word else b.gotData, gotDirty := b.gotDirty || (ans.hasData && ans.dirty) }) ∧
  (∀ (s : State) (a : AgentId) (pa : BitVec 52) (b : Blocked) (st : AgentLine),
      s.coh.slices[s.homeOf pa].blockedAt (lineOf pa) = some b →
      b.req.agent = some a →
      b.cmpTaken = false →
      b.granted = some st →
      (decide (a.val < 48) && s.cacheFull a (lineOf pa)) = false →
      ∃ u, exec (.cohCmpReceive a pa) s = .next u ∧
        u.coh.slices[s.homeOf pa].blockedAt (lineOf pa) = some { b with cmpTaken := true }) ∧
  (∀ (s : State) (pa : BitVec 52) (b : Blocked),
      s.coh.slices[s.homeOf pa].blockedAt (lineOf pa) = some b →
      b.cmpTaken = true →
      s.coh.slices[s.homeOf pa].waiting = [] →
      ∃ u, exec (.cohAck (.hub pa)) s = .next u ∧
        u.coh.slices[s.homeOf pa].blockedAt (lineOf pa) = none) ∧
  (∀ (s : State) (a : AgentId) (pa : BitVec 52) (b : Blocked),
      s.coh.slices[s.homeOf pa].blockedAt (lineOf pa) = some b →
      b.req.agent = some a →
      b.cmpTaken = false →
      b.granted = none →
      s.coh.slices[s.homeOf pa].waiting = [] →
      ¬ a.val < 48 →
      s.isCxl a = false →
      ∃ u, exec (.cohHold pa) s = .next u ∧
        u.out = .siteCoh (agentSite a) a (siteHeader 0x16 0 0 0 b.src.tag.toNat ((lineOf pa) * 64) 0 0) [] :: s.out) ∧
  (∀ (s : State) (a : AgentId) (pa : BitVec 52) (b : Blocked),
      s.coh.slices[s.homeOf pa].blockedAt (lineOf pa) = some b →
      (b.snoops.any fun n => n.agent = a && n.answer = none) = true →
      (b.snoops.filter fun m => m.agent ≠ a) ≠ [] →
      s.coh.slices[s.homeOf pa].waiting = [] →
      ∃ u, exec (.snoopTimeout a pa) s = .next u ∧
        u.coh.slices[s.homeOf pa].blockedAt (lineOf pa) = some { b with snoops := b.snoops.filter fun m => m.agent ≠ a } ∧ u.coh.slices[s.homeOf pa].snoopTimeouts = satAdd s.coh.slices[s.homeOf pa].snoopTimeouts 1 ∧ u.coh.slices[s.homeOf pa].dir = (s.coh.slices[s.homeOf pa].remove (lineOf pa) a).dir) ∧
  (∀ (s : State) (pa : BitVec 52) (b : Blocked),
      s.coh.slices[s.homeOf pa].blockedAt (lineOf pa) = some b →
      b.granted.isSome = true →
      s.coh.slices[s.homeOf pa].waiting = [] →
      s.ras.flog.length < 1024 →
      ∃ u, exec (.ackTimeout pa) s = .next u ∧
        u.coh.slices[s.homeOf pa].blockedAt (lineOf pa) = none ∧ u.coh.slices[s.homeOf pa].ackTimeouts = satAdd s.coh.slices[s.homeOf pa].ackTimeouts 1 ∧ u.coh.slices[s.homeOf pa].dir = s.coh.slices[s.homeOf pa].dir ∧ u.ras.flog = s.ras.flog ++ [faultEntry { source := 13, code := 3, element := BitVec.ofNat 32 (s.homeOf pa).val } s.now] ∧ u.net.timeoutHits = s.net.timeoutHits ++ [(32 * b.senderNi.1.val + b.senderNi.2.val, s.sclk)]) ∧
  (∀ (s : State) (f : FieldId) (i : Nat),
      i < s.coh.slices[f].stale.length →
      s.ras.flog.length < 1024 →
      ∃ u, exec (.staleEntryExpiry f i) s = .next u ∧
        u.coh.slices[f] = { s.coh.slices[f] with stale := s.coh.slices[f].stale.eraseIdx i } ∧ u.ras.flog = s.ras.flog ++ [faultEntry { source := 13, element := BitVec.ofNat 32 f.val } s.now]) ∧
  (∀ (s : State) (a : AgentId),
      s.isolated (agentNi a).1 (agentNi a).2 = true →
      s.agentDead a = false →
      ∃ u, exec (.agentDead a) s = .next u ∧
        u.agentDead a = true) ∧
  (∀ (s : State) (p : PortId) (v : VfId) (n : PanelId),
      s.ports[p].vfs[v].bound = some n →
      s.ports[p].vfs[v].flush.state = 1 →
      (s.ports[p].vfs[v].flush.todo.any s.flushing) = false →
      s.ports[p].vfs[v].flush.irq = false →
      ∃ u, exec (.cohFlushDone (.page p v)) s = .next u ∧
        u.ports[p].vfs[v].flush = { s.ports[p].vfs[v].flush with state := 2, todo := [] }) ∧
  (∀ (s : State) (a : AgentId) (pa : BitVec 52),
      (a, lineOf pa) ∈ s.coh.wbAcks →
      ∃ u, exec (.wback a pa) s = .next u ∧
        u.cached a (lineOf pa) = none ∧ u.coh.wbAcks = s.coh.wbAcks.erase (a, lineOf pa))

/-- Each clause names a command and says, of every state and operands that meet its hypotheses and of nothing else, that
exec answers a next state (`exec c s = .next t`), and what it holds. An attempt trains the link, the descriptor comes
word by word, a site goes into service, reports, is sampled, retrains, dies and loses its rail. Completes, with a next
state of its own effect: siteBringupAttempt, siteLinkTrained, siteAttemptTimeout, desc, siteInService, live,
liveTimeout, sitePowerSample, siteAdapterRetryTimeout, siteRetrainDone, siteDeath, siteRailRemoval. The choices of the
model in it are those of assumption logs 43, 47, 48, 49 and 87. Drawn from R240 to R245, R248, R253, R268. -/
def Obligations.SiteLives : Prop :=
  (∀ (s : State) (n : SiteId),
      s.sites[n].stage = .sideband →
      s.sites[n].attempt ≠ 3 →
      ∃ u, exec (.siteBringupAttempt n true) s = .next u ∧
        u.sites[n] = { s.sites[n] with attempt := s.sites[n].attempt + 1, state := 1, stage := .training, descNext := 0 }) ∧
  (∀ (s : State) (n : SiteId) (m : Fin 17) (r : Fin 3),
      s.sites[n].stage = .training →
      m ≠ 0 →
      ∃ u, exec (.siteLinkTrained n m r) s = .next u ∧
        u.sites[n] = { s.sites[n] with stage := .descriptor, state := 2, modules := BitVec.ofNat 5 m.val, rate := BitVec.ofNat 2 r.val, trainedRate := BitVec.ofNat 2 r.val, descNext := 0 }) ∧
  (∀ (s : State) (n : SiteId),
      s.sites[n].stage = .descriptor →
      s.sites[n].state = 2 →
      s.otherHalf n = none →
      bit s.fuse.sitePop n.val = true →
      ∃ u, exec (.siteAttemptTimeout n) s = .next u ∧
        u.sites[n] = { s.sites[n] with ready := false, state := 6, failCode := 3, stage := .done }) ∧
  (∀ (s : State) (n : SiteId) (payload : DWord),
      s.sites[n].stage = .descriptor →
      s.sites[n].descNext = fld payload.toNat 58 6 →
      fld payload.toNat 58 6 ≠ 63 →
      ∃ u, exec (.desc n payload) s = .next u ∧
        u.sites[n].desc = vset s.sites[n].desc (asFin 64 (fld payload.toNat 58 6)) (payload.setWidth 32) ∧ u.sites[n].descNext = fld payload.toNat 58 6 + 1) ∧
  (∀ (s : State) (n : SiteId),
      s.sites[n].stage = .negotiated →
      bit s.sites[n].granted 5 = false →
      ∃ u, exec (.siteInService n) s = .next u ∧
        u.sites[n] = { s.sites[n] with stage := .done, state := 3, ready := !s.fields[n].leftOut, failCode := 0, credit := Vector.replicate 16 0 }) ∧
  (∀ (s : State) (n : SiteId) (payload : DWord),
      (s.sites[n].state = 2 ∨ s.sites[n].inService = true) →
      bit payload 63 = false →
      ∃ u, exec (.live n payload) s = .next u ∧
        u.sites[n] = { s.sites[n] with live := payload.setWidth 16, liveSeen := true }) ∧
  (∀ (s : State) (n : SiteId),
      s.sites[n].inService = true →
      s.otherHalf n = none →
      ∃ u, exec (.liveTimeout n) s = .next u ∧
        u.sites[n] = { s.sites[n] with ready := false, state := 5, failCode := 8, live := 0 }) ∧
  (∀ (s : State) (n : SiteId) (sample average : BitVec 10),
      s.sites[n].enabled = true →
      s.sites[n].double = 0 →
      s.sites[n].throttle = false →
      sample.toNat ≤ 216 →
      average.toNat ≤ 180 →
      ∃ u, exec (.sitePowerSample n sample average) s = .next u ∧
        u.sites[n] = { s.sites[n] with avgW := average, maxW := if s.sites[n].maxW.toNat < average.toNat then average else s.sites[n].maxW, throttleSamples := 0, belowSamples := if average.toNat < 180 then s.sites[n].belowSamples + 1 else 0 }) ∧
  (∀ (s : State) (n : SiteId) (r : BitVec 16),
      s.sites[n].state = 3 →
      (s.recentRetrains n).length < 2 →
      ∃ u, exec (.siteAdapterRetryTimeout ⟨n, r⟩) s = .next u ∧
        u.sites[n].state = 4 ∧ u.sites[n].replays = satAdd s.sites[n].replays r.toNat ∧ u.sites[n].retrainAt = s.recentRetrains n ++ [s.sclk]) ∧
  (∀ (s : State) (n : SiteId) (m : Fin 17),
      s.sites[n].state = 4 →
      m ≠ 0 →
      ∃ u, exec (.siteRetrainDone n m true) s = .next u ∧
        u.sites[n] = { s.sites[n] with state := 3, modules := BitVec.ofNat 5 (min m.val s.sites[n].modules.toNat) }) ∧
  (∀ (s : State) (n : SiteId) (code : Byte),
      7 ≤ code.toNat ∧ code.toNat ≤ 0xA →
      s.sites[n].inService = true →
      s.otherHalf n = none →
      ∃ u, exec (.siteDeath n code) s = .next u ∧
        u.sites[n] = { s.sites[n] with ready := false, state := 5, failCode := code, live := 0 }) ∧
  (∀ (s : State) (n : SiteId),
      s.sites[n].state = 5 →
      s.sites[n].enabled = true →
      ∃ u, exec (.siteRailRemoval n) s = .next u ∧
        u.sites[n] = { s.sites[n] with enabled := false } ∧ u.out = .siteEnable n false :: s.out)

/-- Each clause names a command and says, of every state and operands that meet its hypotheses and of nothing else, that
exec answers a next state (`exec c s = .next t`), and what it holds. Requests of a chiplet are sent into the network
under its binding; credit is added and releases what it covers; signals to an engine and responses travel the stream;
coherence requests and answers reach the home. Completes, with a next state of its own effect: credit, siteRd, siteWr,
siteAt, siteSig, endpointWrite, siteSignalToEngine, siteResponse, siteRequestTimeout, cohReq, cohRsp, cxlUnsupported.
The choices of the model in it are those of assumption logs 11, 45, 46 and 87. Drawn from R256 to R266. -/
def Obligations.SiteStream : Prop :=
  (∀ (s : State) (n : SiteId) (h : BitVec 128) (b : Binding) (e : Fin 16) (v : Nat),
      s.sites[n].state = 3 →
      (siteMsg h).type = 5 →
      s.bindingOf n (siteMsg h).binding = some b →
      bit s.sites[n].granted 4 = true →
      ((siteMsg h).reserved || (siteMsg h).status ≠ 0 || (siteMsg h).count ≠ 0 || (siteMsg h).poison ≠ 0) = false →
      (siteMsg h).arg = 268435456 * e.val + v →
      v < 65536 →
      e.val < s.sites[n].endpoints →
      s.sites[n].held = [] →
      ∃ u, exec (.credit n h) s = .next u ∧
        u.sites[n] = { s.sites[n] with credit := vset s.sites[n].credit e (min (s.sites[n].credit[e] + v) 16384) }) ∧
  (∀ (s : State) (n : SiteId) (h : BitVec 128) (b : Binding) (z : State) (pa : BitVec 52) (tag : BitVec 12),
      s.sites[n].state = 3 →
      (siteMsg h).type = 1 →
      s.siteAdmit n (siteMsg h) 0 ((siteMsg h).reserved || (siteMsg h).status ≠ 0 || (siteMsg h).poison ≠ 0 || (siteMsg h).arg ≠ 0 || (siteMsg h).count = 0 || decide (4 < (siteMsg h).count) || (siteMsg h).va.toNat % 64 ≠ 0 || decide (256 < (siteMsg h).va.toNat % 256 + 64 * (siteMsg h).count) || (siteMsg h).tagWrong) = .ok b →
      s.plainBusy (siteEng n b (siteMsg h).tag) .read (runVas (siteMsg h).va (siteMsg h).count) = false →
      s.translate (siteEng n b (siteMsg h).tag).agent (siteEng n b (siteMsg h).tag).sel (siteEng n b (siteMsg h).tag).panel (siteEng n b (siteMsg h).tag).tint (siteMsg h).va .read = (.ok (.pa pa), z) →
      z.coherentAt pa = false →
      z.freeTag n 16 false = some tag →
      (∀ c, z.trunkTakes (z.nearCopy n pa) c = true) →
      ∃ u, exec (.siteRd n h) s = .next u ∧
        u.net.flight.length = s.net.flight.length + 1 ∧ ∃ x : Txn, u.net.flight = s.net.flight ++ [x] ∧ x.id = ⟨n, 16, tag⟩ ∧ x.kind = .read (siteMsg h).count ∧ x.pa = z.nearCopy n pa ∧ x.owner = .site n (siteMsg h).tag b.tag ∧ x.tint = b.tint) ∧
  (∀ (s : State) (n : SiteId) (h : BitVec 128) (b : Binding) (ws : List CodeWord) (z : State) (pa : BitVec 52) (tag : BitVec 12),
      s.sites[n].state = 3 →
      (siteMsg h).type = 2 →
      (siteMsg h).count ≤ ws.length →
      s.siteAdmit n (siteMsg h) 0 ((siteMsg h).reserved || (siteMsg h).status ≠ 0 || (siteMsg h).arg ≠ 0 || (siteMsg h).tagWrong) = .ok b →
      ((siteMsg h).va.toNat % 64 ≠ 0 || (siteMsg h).count = 0 || decide (4 < (siteMsg h).count) || decide (256 < (siteMsg h).va.toNat % 256 + 64 * (siteMsg h).count)) = false →
      s.plainBusy (siteEng n b (siteMsg h).tag) .write (runVas (siteMsg h).va (siteMsg h).count) = false →
      s.translate (siteEng n b (siteMsg h).tag).agent (siteEng n b (siteMsg h).tag).sel (siteEng n b (siteMsg h).tag).panel (siteEng n b (siteMsg h).tag).tint (siteMsg h).va .write = (.ok (.pa pa), z) →
      z.coherentAt pa = false →
      z.freeTag n 16 false = some tag →
      (∀ c, z.trunkTakes pa c = true) →
      ∃ u, exec (.siteWr n h ws) s = .next u ∧
        u.net.flight.length = s.net.flight.length + 1 ∧ ∃ x : Txn, u.net.flight = s.net.flight ++ [x] ∧ x.id = ⟨n, 16, tag⟩ ∧ x.kind = .write ((siteMsg h).words ws) ∧ x.pa = pa ∧ x.owner = .site n (siteMsg h).tag b.tag ∧ x.tint = b.tint) ∧
  (∀ (s : State) (n : SiteId) (h : BitVec 128) (b : Binding) (opd : CodeWord) (cmp : DWord) (op : AtomicOp) (z : State) (pa : BitVec 52) (tag : BitVec 12),
      s.sites[n].state = 3 →
      (siteMsg h).type = 3 →
      atomicOfCode ((siteMsg h).arg / 2 ^ 28) = some op →
      s.siteAdmit n (siteMsg h) 3 ((siteMsg h).reserved || (siteMsg h).status ≠ 0 || ((siteMsg h).arg % 64) % atomicSize op ≠ 0 || fld (siteMsg h).arg 6 22 ≠ 0 || !((siteMsg h).count = 1 || ((siteMsg h).count = 2 && op = .cas64)) || (siteMsg h).tagWrong) = .ok b →
      s.translate (siteEng n b (siteMsg h).tag).agent (siteEng n b (siteMsg h).tag).sel (siteEng n b (siteMsg h).tag).panel (siteEng n b (siteMsg h).tag).tint (wordVa (siteMsg h).va) .atomic = (.ok (.pa pa), z) →
      z.freeTag n 16 true = some tag →
      (∀ c, z.trunkTakes pa c = true) →
      ∃ u, exec (.siteAt n h opd cmp) s = .next u ∧
        u.net.flight.length = s.net.flight.length + 1 ∧ ∃ x : Txn, u.net.flight = s.net.flight ++ [x] ∧ x.id = ⟨n, 16, tag⟩ ∧ x.kind = .atomic op (asFin 64 ((siteMsg h).arg % 64)) (BitVec.ofNat 64 (fld opd.data.toNat (8 * ((siteMsg h).arg % 64)) (8 * atomicSize op))) cmp (opd.mark || Nat.testBit (siteMsg h).poison 0) ∧ x.pa = pa ∧ x.owner = .site n (siteMsg h).tag b.tag ∧ x.tint = b.tint) ∧
  (∀ (s : State) (n : SiteId) (h : BitVec 128) (b : Binding) (a : ArrayId) (tag : BitVec 12),
      s.sites[n].state = 3 →
      (siteMsg h).type = 4 →
      s.siteAdmit n (siteMsg h) 0 ((siteMsg h).reserved || (siteMsg h).status ≠ 0 || (siteMsg h).count ≠ 0 || (siteMsg h).poison ≠ 0 || (siteMsg h).va ≠ 0 || fld (siteMsg h).arg 8 12 ≠ 0 || BitVec.ofNat 8 (siteMsg h).arg = 0 || (siteMsg h).tagWrong) = .ok b →
      s.arrayOf b.panel (fld (siteMsg h).arg 26 6) = some a →
      s.freeTag n 16 true = some tag →
      (∀ c, s.trunkTakes 0 c = true) →
      ∃ u, exec (.siteSig n h) s = .next u ∧
        u.net.flight.length = s.net.flight.length + 1 ∧ ∃ x : Txn, u.net.flight = s.net.flight ++ [x] ∧ x.id = ⟨n, 16, tag⟩ ∧ x.kind = .signal (fieldOfArray a) (niOfArray a) (asFin 64 (fld (siteMsg h).arg 20 6)) (BitVec.ofNat 8 (siteMsg h).arg) 0 ∧ x.pa = 0 ∧ x.owner = .site n (siteMsg h).tag b.tag ∧ x.tint = b.tint) ∧
  (∀ (s : State) (n : SiteId) (id : TxId) (e : Fin 16) (off : BitVec 20) (ws : List CodeWord) (x : Txn),
      s.txn id = some x →
      x.kind = .write ws →
      x.stage = .atTarget →
      s.sites[n].held = [] →
      (s.sites[n].requests.any fun r => r.id = id) = false →
      (paPartner x.pa = false ∧ paSpace x.pa = 4 ∧ paField x.pa = n ∧ paNear x.pa = 0x8000000 + e.val * 0x100000 + off.toNat) →
      s.sites[n].credit[e] < ws.length →
      s.sites[n].state ≠ 4 →
      ∃ u, exec (.endpointWrite n id e off ws) s = .next u ∧
        u.sites[n] = { s.sites[n] with held := [{ id := id, endpoint := e, offset := off, words := ws }] }) ∧
  (∀ (s : State) (id : TxId) (x : Txn) (n : SiteId) (sem : Fin 64) (inc : Byte) (slot : Fin 8) (p : PanelId) (y : SiteId × Byte) (b : Binding) (tag : Nat),
      s.txn id = some x →
      x.kind = .signal n 16 sem inc slot →
      x.stage = .atTarget →
      s.isolated n 16 = false →
      (s.sites[n].requests.any fun r => r.id = id) = false →
      s.dedupOf n 16 id = none →
      x.panel = some p →
      s.pnl.panels[p].slots[slot] = some y →
      s.bindingOf n y.2 = some b →
      s.sites[n].freeTag true = some tag →
      s.sites[n].state = 3 →
      ∃ u, exec (.siteSignalToEngine id) s = .next u ∧
        u.sites[n] = { s.sites[n] with requests := s.sites[n].requests ++ [{ tag := BitVec.ofNat 12 tag, id := id, first := 0, count := 0 }] } ∧ u.out = .siteStream n (siteHeader 4 0 0 0 tag 0 b.tag.toNat (b.target.toNat * 2 ^ 28 + sem.val * 2 ^ 20 + inc.toNat)) [] :: s.out) ∧
  (∀ (s : State) (n : SiteId) (h : BitVec 128) (ws : List CodeWord) (r : SiteReq),
      s.sites[n].state = 3 →
      ((siteMsg h).type = 8 ∨ (siteMsg h).type = 9 ∨ (siteMsg h).type = 10) →
      (s.sites[n].requests.find? fun r => r.tag = (siteMsg h).tag) = some r →
      ∃ u, exec (.siteResponse n h ws) s = .next u ∧
        u.sites[n] = { s.sites[n] with requests := s.sites[n].requests.filter fun q => q.tag ≠ r.tag }) ∧
  (∀ (s : State) (n : SiteId) (tag : BitVec 12) (r : SiteReq) (x : Txn),
      (s.sites[n].requests.find? fun r => r.tag = tag) = some r →
      s.txn r.id = some x →
      ∃ u, exec (.siteRequestTimeout n tag) s = .next u ∧
        u.txn r.id = some { x with stage := .answered, status := 3, data := refusedData x.kind } ∧ u.sites[n].requests = s.sites[n].requests.filter (fun q => q.id ≠ r.id) ∧ u.net.timeoutHits = s.net.timeoutHits ++ [(32 * n.val + 16, s.sclk)]) ∧
  (∀ (s : State) (n : SiteId) (j : Fin 6) (h : BitVec 128) (w : CodeWord) (pa : BitVec 52) (src : CohFrom),
      s.sites[n].state = 3 →
      (siteMsg h).type = 0x10 →
      s.cohAdmit n j (siteMsg h) = .ok (pa, src) →
      (siteMsg h).arg % 16 = 0 →
      s.agentMaySend (nativeAgent n j) pa = true →
      (s.counted (agentNi (nativeAgent n j)) (s.homeOf pa, 17) src.tint 1).wayOut (agentNi (nativeAgent n j)) (s.homeOf pa, 17) = none →
      s.clearLine (s.homeOf pa) (lineOf pa) (.rdS (nativeAgent n j) false) = true →
      ∃ u, exec (.cohReq n j h w) s = .next u ∧
        u.coh.slices[s.homeOf pa].entry (lineOf pa) = some (soleEntry (lineOf pa) (nativeAgent n j) (s.uncachedGrant (nativeAgent n j) false)) ∧ (u.coh.slices[s.homeOf pa].blockedAt (lineOf pa)).bind (·.granted) = some (s.uncachedGrant (nativeAgent n j) false)) ∧
  (∀ (s : State) (n : SiteId) (j : Fin 6) (h : BitVec 128) (w : CodeWord) (pa : BitVec 52) (src : CohFrom) (b : Blocked) (q : Snoop),
      s.sites[n].state = 3 →
      (siteMsg h).type = 0x13 →
      s.cohAdmit n j (siteMsg h) = .ok (pa, src) →
      s.coh.slices[s.homeOf pa].blockedAt (lineOf pa) = some b →
      (b.snoops.find? fun m => m.agent = nativeAgent n j) = some q →
      Nat.testBit (siteMsg h).arg 5 = false →
      s.isCxl (nativeAgent n j) = false →
      (b.snoops.filter fun m => m.agent ≠ nativeAgent n j) ≠ [] →
      s.coh.slices[s.homeOf pa].waiting = [] →
      ∃ u, exec (.cohRsp n j h w) s = .next u ∧
        u.coh.slices[s.homeOf pa].blockedAt (lineOf pa) = some { b with snoops := b.snoops.filter fun m => m.agent ≠ nativeAgent n j, gotData := if ((siteMsg h).snoopAnswer w).hasData then some ((siteMsg h).snoopAnswer w).word else b.gotData, gotDirty := b.gotDirty || (((siteMsg h).snoopAnswer w).hasData && ((siteMsg h).snoopAnswer w).dirty) }) ∧
  (∀ (s : State) (n : SiteId) (cls : CxlClass),
      s.sites[n].state = 3 →
      s.ras.flog.length < 1024 →
      ∃ u, exec (.cxlUnsupported n cls) s = .next u ∧
        u.out = .cxlAnswer n (cxlRefusal cls) (if cls = .mem then some poisonWord else none) :: s.out ∧ u.ras.flog = s.ras.flog ++ [faultEntry { source := 9, code := 0, element := BitVec.ofNat 32 n.val } s.now])

/-- Each clause names a command and says, of every state and operands that meet its hypotheses and of nothing else, that
exec answers a next state (`exec c s = .next t`), and what it holds. A request is issued, the image is read into the
staging store, awaited, checked and applied; a create image makes a panel, a destroy image sends it to dust, a rebind
image makes its bindings; a host read that goes unanswered refuses the load. Completes, with a next state of its own
effect: imgGo, imageReadDone, hostReadCompletion, hostReadTimeout, imageWaitEnd, imageCheckDone, baseImageApply,
panelCreateApply, panelDestroyApply, panelRebindApply, imageBindingDone. The choices of the model in it are those of
assumption logs 58, 59 and 60. Drawn from R289, R303 to R305, R310 to R317, R320. -/
def Obligations.ImageLoads : Prop :=
  (∀ (s : State) (v : Word),
      (s.pf0Open 0 || s.pf0Open 1) = true →
      bit v 31 = true →
      s.img.status = 0 →
      s.guarded = false →
      badLength s.img.length.toNat = false →
      (∀ p : PortId, s.ports[p].l0 = true) →
      ∃ u, exec (.imgGo v) s = .next u ∧
        u.img.status = 1 ∧ u.img.error = 0 ∧ u.img.wait = bit v 1 ∧ u.img.commitSvn = bit v 2 ∧ u.img.port = asFin 2 (fld v.toNat 0 1)) ∧
  (∀ (s : State) (bs : List Byte),
      s.img.status = 1 →
      bs.length = s.img.length.toNat →
      ∃ u, exec (.imageReadDone (.ok bs)) s = .next u ∧
        u.img.staging = bs ∧ u.img.kind = BitVec.ofNat 8 (fld (wordAt bs 1) 8 8) ∧ u.img.status = (if fld (wordAt bs 1) 8 8 = 1 ∧ s.img.wait = true then 2 else 3)) ∧
  (∀ (s : State) (bs : List Byte) (p : PortId) (n : Nat) (x : HostReadReq),
      s.ports[p].l0 = true →
      (s.ports[p].reads.find? fun x => x.serial = n) = some x →
      x.use = .image →
      s.img.status = 1 →
      bs.length = s.img.length.toNat →
      s.mayRead p = true →
      ∃ u, exec (.hostReadCompletion p n (.ok bs)) s = .next u ∧
        u.img.staging = bs ∧ u.img.kind = BitVec.ofNat 8 (fld (wordAt bs 1) 8 8) ∧ u.img.status = (if fld (wordAt bs 1) 8 8 = 1 ∧ s.img.wait = true then 2 else 3)) ∧
  (∀ (s : State) (p : PortId) (n : Nat) (x : HostReadReq),
      (s.ports[p].reads.find? fun x => x.serial = n) = some x →
      x.use = .image →
      s.img.status = 1 →
      s.mayRead p = true →
      ∃ u, exec (.hostReadTimeout p n) s = .next u ∧
        u.img.status = 7 ∧ u.img.error = 2) ∧
  (∀ (s : State),
      s.img.status = 2 →
      ∃ u, exec (.imageWaitEnd true) s = .next u ∧
        u.img = { s.img with status := 3 }) ∧
  (∀ (s : State) (i : Image),
      s.img.status = 3 →
      s.checkImage = .ok i →
      i.header.kind = 2 →
      ∃ u, exec (.imageCheckDone) s = .next u ∧
        u.img.status = 4 ∧ u.pnl.panels[imagePanel i.header].state = 1) ∧
  (∀ (s : State) (i : Image),
      s.img.status = 4 →
      s.img.kind = 1 →
      s.checkImage = .ok i →
      ∃ u, exec (.baseImageApply) s = .next u ∧
        u.img.status = 6 ∧ u.img.loaded = true ∧ u.img.baseId = i.header.imageId ∧ u.img.fieldMask = (parseBase i).fields ∧ u.net.tableValid = true ∧ u.net.stencils = (parseBase i).stencils ∧
        u.coh.tableValid = true ∧ u.coh.homeMap = (parseBase i).homes ∧ u.coh.owner = (parseBase i).owner ∧ u.coh.valid = (parseBase i).valid) ∧
  (∀ (s : State) (i : Image) (p : PanelId),
      s.img.status = 4 →
      s.img.kind = 2 →
      p = asFin 40 s.img.panel.toNat →
      (s.modPanel p fun x => { x with state := 0 }).checkImage = .ok i →
      ∃ u, exec (.panelCreateApply) s = .next u ∧
        u.img.status = 5 ∧ u.pnl.panels[p].state = 1 ∧ u.pnl.panels[p].sealed_ = (parsePanel i).sealed_ ∧ u.pnl.panels[p].arrays = (parsePanel i).named.map (fun a => some (asFin 40 a)) ∧
        u.pnl.panels[p].grants = i.grantEntries.map grantOf ∧ u.pnl.panels[p].ranges = i.cohEntries) ∧
  (∀ (s : State) (i : Image),
      s.img.status = 4 →
      s.img.kind = 3 →
      s.checkImage = .ok i →
      s.pnl.panels[imagePanel i.header].state ≠ 0 →
      s.pnl.panels[imagePanel i.header].state ≠ 5 →
      ∃ u, exec (.panelDestroyApply) s = .next u ∧
        u.img.status = 6 ∧ u.pnl.panels[imagePanel i.header].state = 5 ∧ u.pnl.panels[imagePanel i.header].phase = 1) ∧
  (∀ (s : State) (i : Image),
      s.img.status = 4 →
      s.img.kind = 4 →
      s.checkImage = .ok i →
      ∃ u, exec (.panelRebindApply) s = .next u ∧
        u.img.status = 5 ∧ u.pnl = s.pnl ∧ u.arrays = s.arrays) ∧
  (∀ (s : State) (i : Image),
      s.img.status = 5 →
      s.img.failing = false →
      (s.img.newBinds.any fun y => !s.sites[y.1].inService) = false →
      (s.img.newBinds.any fun y => (s.bindingAt y.1 y.2).all fun b => b.phase ≠ .bound) = false →
      parseImage s.img.staging s.img.length.toNat = .ok i →
      i.header.kind = 2 →
      ∃ u, exec (.imageBindingDone) s = .next u ∧
        u.img.status = 6 ∧ u.img.newBinds = [] ∧ u.pnl.panels[imagePanel i.header].state = (if (parsePanel i).sealed_ then 2 else 3) ∧ u.pnl.panels[imagePanel i.header].slots = i.slots ∧ u.pnl.panels[imagePanel i.header].vf = some (asFin 40 ((parsePanel i).vf - 1)))

/-- Each clause names a command and says, of every state and operands that meet its hypotheses and of nothing else, that
exec answers a next state (`exec c s = .next t`), and what it holds. A new binding is sent, acknowledged, withdrawn
and removed; one that is not acknowledged in time is removed and the load fails; one whose removal is not acknowledged
goes with its site. Completes, with a next state of its own effect: bind, bound, boundTimeout, unbind, cleared,
clearedTimeout. The choices of the model in it are those of assumption log 59. Drawn from R241, R256, R267, R311,
R313, R317. -/
def Obligations.SiteBindings : Prop :=
  (∀ (s : State) (n : SiteId) (tag : Byte) (b : Binding),
      s.bindingAt n tag = some b →
      b.phase = .new →
      s.sites[n].state = 3 →
      s.img.failing = false →
      ∃ u, exec (.bind n tag) s = .next u ∧
        u.bindingAt n tag = some { b with phase := .sent } ∧ u.out = .siteMsg n 5 (BitVec.ofNat 64 (tag.toNat + b.slot.val * 2 ^ 8 + b.target.toNat * 2 ^ 12 + flag s.pnl.panels[b.panel].sealed_ 16)) :: s.out) ∧
  (∀ (s : State) (n : SiteId) (tag : Byte) (b : Binding),
      s.bindingAt n tag = some b →
      b.phase = .sent →
      s.sites[n].inService = true →
      ∃ u, exec (.bound n tag) s = .next u ∧
        u.bindingAt n tag = some { b with phase := .bound }) ∧
  (∀ (s : State) (n : SiteId) (tag : Byte) (b : Binding),
      s.bindingAt n tag = some b →
      b.phase = .sent →
      (n, tag) ∈ s.img.newBinds →
      s.img.status = 5 →
      ∃ u, exec (.boundTimeout n tag) s = .next u ∧
        u.bindingAt n tag = none) ∧
  (∀ (s : State) (n : SiteId) (tag : Byte) (b : Binding),
      s.bindingAt n tag = some b →
      s.unbindDue n b = true →
      ∃ u, exec (.unbind n tag) s = .next u ∧
        u.bindingAt n tag = some { b with phase := .unbinding } ∧ (∃ z, u.out = .siteMsg n 7 (BitVec.ofNat 64 tag.toNat) :: z)) ∧
  (∀ (s : State) (n : SiteId) (tag : Byte) (b : Binding),
      s.bindingAt n tag = some b →
      b.phase = .unbinding →
      ∃ u, exec (.cleared n tag) s = .next u ∧
        u.bindingAt n tag = none) ∧
  (∀ (s : State) (n : SiteId) (tag : Byte) (b : Binding),
      s.bindingAt n tag = some b →
      b.phase = .unbinding →
      ∃ u, exec (.clearedTimeout n tag) s = .next u ∧
        u.bindingAt n tag = none)

/-- Each clause names a command and says, of every state and operands that meet its hypotheses and of nothing else, that
exec answers a next state (`exec c s = .next t`), and what it holds. A panel in dust sheet goes from phase to phase
once the phase is complete: halted, unbound, flushed and forgotten, keys dropped, memory and stores zeroed, released;
a sealed panel is filled before it is admitted. Completes, with a next state of its own effect: dustHaltEnd,
dustUnbindEnd, dustFlushEnd, dustKeysEnd, dustZeroEnd, dustReleaseEnd, sealedFillDone. The choices of the model in it
are those of assumption log 63. Drawn from R322, R323, R326. -/
def Obligations.DustSteps : Prop :=
  (∀ (s : State) (p : PanelId),
      s.dustAt p 1 = true →
      s.panelStill p = true →
      ∃ u, exec (.dustHaltEnd p) s = .next u ∧
        u.pnl.panels[p].phase = 2 ∧ u.pnl.panels[p].state = 5) ∧
  (∀ (s : State) (p : PanelId),
      s.dustAt p 2 = true →
      ((allFin 8).any fun n => s.sites[n].inService && s.sites[n].bindings.any fun b => b.panel = p) = false →
      ∃ u, exec (.dustUnbindEnd p) s = .next u ∧
        u.pnl.panels[p].phase = 3 ∧ u.pnl.panels[p].state = 5) ∧
  (∀ (s : State) (p : PanelId),
      s.dustAt p 3 = true →
      ((s.panelLines p).any s.flushing) = false →
      ∃ u, exec (.dustFlushEnd p) s = .next u ∧
        u.pnl.panels[p].phase = 4 ∧ u.pnl.panels[p].state = 5 ∧ ∀ f : FieldId, ∀ e ∈ u.fields[f].tu.siteTlb, e.panel ≠ p) ∧
  (∀ (s : State) (p : PanelId),
      s.dustAt p 4 = true →
      ∃ u, exec (.dustKeysEnd p) s = .next u ∧
        u.pnl.panels[p].phase = 5 ∧ u.pnl.panels[p].state = 5 ∧ u.pnl.panels[p].keys = 0 ∧ u.pnl.keyRanges = s.pnl.keyRanges.filter fun k => k.panel ≠ some p) ∧
  (∀ (s : State) (p : PanelId) (a : ArrayId),
      s.dustAt p 5 = true →
      a ∈ s.pnl.panels[p].arrays.filterMap id →
      ∃ u, exec (.dustZeroEnd p) s = .next u ∧
        u.pnl.panels[p].phase = 6 ∧ u.pnl.panels[p].state = 5 ∧ u.mem = (s.zeroGrants p fun g => g.pool).mem ∧ u.arrays[a].vec.localStore = [] ∧ u.arrays[a].vec.zeroed = true) ∧
  (∀ (s : State) (p : PanelId),
      s.dustAt p 6 = true →
      s.lcs.retiring = none →
      ∃ u, exec (.dustReleaseEnd p) s = .next u ∧
        u.pnl.panels[p] = {} ∧ u.img.panelIds[p] = 0) ∧
  (∀ (s : State) (p : PanelId),
      s.pnl.panels[p].fill = true →
      ∃ u, exec (.sealedFillDone p) s = .next u ∧
        u.pnl.panels[p] = { s.pnl.panels[p] with fill := false } ∧ u.mem = (s.zeroGrants p fun g => g.pool && decide (paSpace (BitVec.ofNat 52 g.base) < 2)).mem)

/-- Each clause names a command and says, of every state and operands that meet its hypotheses and of nothing else, that
exec answers a next state (`exec c s = .next t`), and what it holds. A command that its authority may give and that is
accepted is run and ends with result 0: keys are rotated, a panel gets its key or goes to dust, a bundle or host bytes
reach a panel, a commons region is defined and released, debug is opened; OP values without a command end with a
result of their own. OPKEY_ROTATE and PANEL_WRITE change nothing and end with 0x0A where the digest of what they read
is not the one in the arguments; OPKEY_ROTATE installs the keys where it is and the vendor wrapping opens; BUNDLE_LOAD
writes what the bundle gives a panel, and ends with 0 where its keys and tag open it. Completes, with a next state of
its own effect: opkeyRotate, panelAuthSet, panelDestroy, bundleLoad, commonsDefine, commonsRelease, debugEnable,
panelWrite, lifeCycleMailboxRequest, undefinedMailboxOp. The choices of the model in it are those of assumption logs
3, 60, 61 and 62. Drawn from R330, R334 to R338, R358. -/
def Obligations.MailboxCommands : Prop :=
  (∀ (s z : State) (w : State) (block : HostRead) (bs : List Byte),
      (s.pf0Open 0 || s.pf0Open 1) = true →
      s.mailAccepted 2 (fun a => isOperator a || (isVendor a && s.fuse.operatorKey.isNone)) (fun i => decide (i < 15)) z →
      fld (z.arg 2).toNat 0 12 = 2136 →
      z.mailRead (asFin 2 (fld (z.arg 2).toNat 31 1)) (z.argPair 0) 2136 block = (some bs, w) →
      ∃ u, exec (.opkeyRotate block) s = .next u ∧
        (Config.sha384 bs ≠ BitVec.ofNat 384 (natOf (w.argBytes 3 12)) → u.pnl.cmdState = 4 ∧ u.pnl.result = 0x0A ∧ u.fuse = w.fuse) ∧
        (∀ k, Config.sha384 bs = BitVec.ofNat 384 (natOf (w.argBytes 3 12)) → Config.keyUnwrap (operatorWrapKey w.rotateKey) ((bs.drop 2080).take 56) = some k →
          u.pnl.cmdState = 3 ∧ u.pnl.result = 0 ∧ u.fuse = { w.fuse with operatorKey := some (BitVec.ofNat 384 (natOf k)), operatorEcdsa := bs.take 97, operatorMlDsa := (bs.drop 128).take 1952 })) ∧
  (∀ (s z : State) (p : PanelId),
      (s.pf0Open 0 || s.pf0Open 1) = true →
      s.mailAccepted 3 (isOperator) (fun i => decide (i < 12)) z →
      panelNamed z.pnl.cmdPanel = some p →
      ¬ (z.pnl.panels[p].state = 0 ∨ z.pnl.panels[p].state = 1 ∨ z.pnl.panels[p].state = 5) →
      z.pnl.panels[p].sealed_ = false →
      ∃ u, exec (.panelAuthSet) s = .next u ∧
        u.pnl.cmdState = 3 ∧ u.pnl.result = 0 ∧ u.pnl.panels[p].authKey = some (BitVec.ofNat 384 (natOf (z.argBytes 0 12))) ∧ u.pnl.panels[p].counter = 0) ∧
  (∀ (s z : State) (p : PanelId),
      (s.pf0Open 0 || s.pf0Open 1) = true →
      s.mailAccepted 4 (isPanel) (fun _ => false) z →
      p = asFin 40 z.pnl.cmdPanel.toNat →
      z.pnl.panels[p].state ≠ 0 →
      z.pnl.panels[p].state ≠ 5 →
      ∃ u, exec (.panelDestroy) s = .next u ∧
        u.pnl.cmdState = 3 ∧ u.pnl.result = 0 ∧ u.pnl.panels[p].state = 5 ∧ u.pnl.panels[p].phase = 1) ∧
  (∀ (s z : State) (w : State) (bundle : HostRead) (bs : List Byte) (b : Bundle),
      (s.pf0Open 0 || s.pf0Open 1) = true →
      s.mailAccepted 5 (isPanel) (fun i => decide (i < 5) || decide (i < 7)) z →
      bit (s.arg 4) 31 = false →
      z.mailRead (asFin 2 (fld (z.arg 4).toNat 8 1)) (z.argPair 0) (z.argPair 2) bundle = (some bs, w) →
      parseBundle bs (z.argPair 2) = .ok b →
      ∃ u, exec (.bundleLoad bundle) s = .next u ∧
        u.mem = (w.loadPanel (asFin 40 z.pnl.cmdPanel.toNat) (z.argPair 5) b).2.mem ∧
        ((w.loadPanel (asFin 40 z.pnl.cmdPanel.toNat) (z.argPair 5) b).1 = 0 → u.pnl.cmdState = 3 ∧ u.pnl.result = 0)) ∧
  (∀ (s z : State) (n : Fin 32),
      (s.pf0Open 0 || s.pf0Open 1) = true →
      s.mailAccepted 6 (isOperator) (fun i => decide (i < 7)) z →
      (z.arg 0).toNat = n.val →
      z.pnl.commons[n].state = 0 →
      (!z.copyOk (z.argPair 1) (z.argPair 5) || (z.argPair 3 ≠ 0 && !z.mirrorOk (z.argPair 1) (z.argPair 3) (z.argPair 5)) || z.claimed.any fun r => overlap (z.argPair 1) (z.argPair 5) r.base r.length || (z.argPair 3 ≠ 0 && overlap (z.argPair 3) (z.argPair 5) r.base r.length)) = false →
      z.pnl.keyRanges.length + (if z.argPair 3 = 0 then 1 else 2) ≤ 256 →
      ∃ u, exec (.commonsDefine) s = .next u ∧
        u.pnl.cmdState = 3 ∧ u.pnl.result = 0 ∧ u.pnl.commons[n] = { state := 2, mirrored := z.argPair 3 ≠ 0, primary := z.argPair 1, mirror := z.argPair 3, length := z.argPair 5, keys := freshKeys z.draws }) ∧
  (∀ (s z : State) (n : Fin 32),
      (s.pf0Open 0 || s.pf0Open 1) = true →
      s.mailAccepted 7 (isOperator) (fun i => i = 0) z →
      (z.arg 0).toNat = n.val →
      (z.pnl.commons[n].state = 2 ∨ z.pnl.commons[n].state = 4) →
      z.regionGrants n = 0 →
      ∃ u, exec (.commonsRelease) s = .next u ∧
        u.pnl.cmdState = 3 ∧ u.pnl.result = 0 ∧ u.pnl.commons[n] = {} ∧ u.pnl.keyRanges = z.pnl.keyRanges.filter fun r => r.region ≠ some n) ∧
  (∀ (s z : State),
      (s.pf0Open 0 || s.pf0Open 1) = true →
      s.mailAccepted 8 (isVendor) (fun i => i = 0) z →
      (z.lcs.state = lcsTestUnlocked ∨ z.lcs.state = lcsPersonalized) →
      z.lcs.target ≠ some lcsFielded →
      (bit (z.arg 0) 0 = true → z.sealedPanels = 0) →
      ∃ u, exec (.debugEnable) s = .next u ∧
        u.pnl.cmdState = 3 ∧ u.pnl.result = 0 ∧ u.pnl.debug = bit (z.arg 0) 0) ∧
  (∀ (s z : State) (w : State) (data : HostRead) (bs : List Byte),
      (s.pf0Open 0 || s.pf0Open 1) = true →
      s.mailAccepted 9 (isPanel) (fun i => decide (i < 17)) z →
      ¬ (fld (z.arg 2).toNat 0 25 % 64 ≠ 0 ∨ 16777216 < fld (z.arg 2).toNat 0 25 ∨ z.argPair 3 % 64 ≠ 0 ∨ !z.inOwnGrant (asFin 40 z.pnl.cmdPanel.toNat) (z.argPair 3) (fld (z.arg 2).toNat 0 25)) →
      z.mailRead (asFin 2 (fld (z.arg 2).toNat 31 1)) (z.argPair 0) (fld (z.arg 2).toNat 0 25) data = (some bs, w) →
      ∃ u, exec (.panelWrite data) s = .next u ∧
        (Config.sha384 bs ≠ BitVec.ofNat 384 (natOf (z.argBytes 5 12)) → u.pnl.cmdState = 4 ∧ u.pnl.result = 0x0A ∧ u.mem = w.mem) ∧
        (Config.sha384 bs = BitVec.ofNat 384 (natOf (z.argBytes 5 12)) → u.pnl.cmdState = 3 ∧ u.pnl.result = 0 ∧ u.mem = (w.storeWords { kind := 4, id := BitVec.ofNat 16 (asFin 2 (fld (z.arg 2).toNat 31 1)).val, panel := some (asFin 40 z.pnl.cmdPanel.toNat), field := fieldOfPort (asFin 2 (fld (z.arg 2).toNat 31 1)) } (z.argPair 3) (codeWords bs)).mem)) ∧
  (∀ (s : State),
      (s.pf0Open 0 || s.pf0Open 1) = true →
      s.pnl.cmdState ≠ 1 →
      s.pnl.cmdState ≠ 2 →
      ∃ u, exec (.lifeCycleMailboxRequest) s = .next u ∧
        u.pnl.cmdState = 4 ∧ u.pnl.result = 4 ∧ u.pnl.cmdOp = 0x0A) ∧
  (∀ (s : State) (v : Word),
      (s.pf0Open 0 || s.pf0Open 1) = true →
      bit v 31 = true →
      ¬ (2 ≤ fld v.toNat 0 8 ∧ fld v.toNat 0 8 ≤ 0x0A) →
      s.pnl.cmdState ≠ 1 →
      s.pnl.cmdState ≠ 2 →
      ∃ u, exec (.undefinedMailboxOp v) s = .next u ∧
        u.pnl.cmdState = 4 ∧ u.pnl.result = 3 ∧ u.pnl.cmdOp = slice v 7 0)

/-- Each clause names a command and says, of every state and operands that meet its hypotheses and of nothing else, that
exec answers a next state (`exec c s = .next t`), and what it holds. The debug window reads and writes one word; the
trace ring starts; entries are popped and SEVERE is cleared; a record is written to the patch store; a package fault
is kept; a transition request that its checks let through is burnt into the fuses, and one that a check refuses ends
with that check's result and burns nothing. Completes, with a next state of its own effect: debugRead, debugWrite,
traceEnable, rasFlogPop, flogSevereClear, patchStoreWrite, packageFault, lcsGo. The choices of the model in it are
those of assumption logs 60, 63 and 64. Drawn from R339 to R342, R350 to R353, R361 to R366. -/
def Obligations.DebugAndFaultLog : Prop :=
  (∀ (s z : State) (pa : BitVec 52) (d : DbgData),
      (s.pf0Open 0 || s.pf0Open 1) = true →
      dbgLoc s.pnl.dbgLoc = .word pa →
      s.debugWord pa = (d, z) →
      ∃ u, exec (.debugRead) s = .next u ∧
        u.pnl.dbgState = 2 ∧ u.pnl.dbgData = (Vector.ofFn fun i => wordOf d.data i.val) ∧ u.pnl.dbgMarked = d.mark ∧ u.pnl.dbgOwner = d.owner ∧ u.pnl.dbgEnciphered = d.enciphered ∧ u.mem = z.mem) ∧
  (∀ (s : State) (pa : BitVec 52),
      (s.pf0Open 0 || s.pf0Open 1) = true →
      dbgLoc s.pnl.dbgLoc = .word pa →
      s.commonsAt pa = none →
      ((s.ownerAt pa.toNat).any fun p => s.pnl.panels[p].sealed_) = false →
      ∃ u, exec (.debugWrite) s = .next u ∧
        u.pnl.dbgState = 2 ∧ u.mem = (s.writeCode (debugAgent pa) pa { data := s.pnl.dbgWord, mark := false }).2.mem) ∧
  (∀ (s : State) (v : Word),
      (s.pf0Open 0 || s.pf0Open 1) = true →
      bit v 31 = true →
      s.pnl.traceEnable = false →
      ∃ u, exec (.traceEnable v) s = .next u ∧
        u.pnl.traceEnable = true ∧ u.pnl.traceHead = 0 ∧ u.pnl.traceTail = 0 ∧ u.pnl.traceRingBase = s.pnl.traceBase ∧ u.pnl.traceSched = bit v 30 ∧ u.pnl.traceHdr = bit v 29) ∧
  (∀ (s : State) (v : Word),
      (s.pf0Open 0 || s.pf0Open 1) = true →
      ∃ u, exec (.rasFlogPop v) s = .next u ∧
        u.ras = { s.ras with flog := s.ras.flog.drop (fld v.toNat 0 11) }) ∧
  (∀ (s : State) (v : Word),
      (s.pf0Open 0 || s.pf0Open 1) = true →
      bit v 30 = true →
      bit v 29 = true →
      s.ras.flogSevere = true →
      s.ras.pkgFault = none →
      ∃ u, exec (.flogSevereClear v) s = .next u ∧
        u.ras = { s.ras with flogSevere := false, flogNew := false } ∧ u.out = .faultN false :: s.out) ∧
  (∀ (s : State) (r : PatchRec) (l : List PatchRec),
      s.inReset = false →
      storeFirst s.ras.patches = (l, some r) →
      ∃ u, exec (.patchStoreWrite) s = .next u ∧
        u.ras.patches = l ∧ u.fuse.patches = s.fuse.patches ++ [r]) ∧
  (∀ (s : State) (source : BitVec 5) (code : Byte),
      s.inReset = false →
      s.ras.pkgFault = none →
      ∃ u, exec (.packageFault source code) s = .next u ∧
        u.ras.pkgFault = some (source, code) ∧ u.ras.flogSevere = true ∧ u.twin.heartStopped = true) ∧
  (∀ (s w : State) (v : Word) (request : HostRead) (fails : Option Nat) (bs : List Byte) (k : Nat) (ks : List Nat) (f2 : Fuses) (rest : Option Nat),
      s.lcsOpen = true →
      bit v 31 = true →
      s.lcs.status = 0 →
      s.lcs.invalid = false →
      s.lcs.target = none →
      (s.modLcs fun l => { l with port := asFin 2 (fld v.toNat 0 1) }).mailRead (asFin 2 (fld v.toNat 0 1)) (fld s.lcs.src.toNat 6 46 * 64) 3584 request = (some bs, w) →
      w.lcs.state ≠ lcsTestLocked →
      (parseTransition bs).to_ ≠ 5 →
      w.fuse.freeSlots = k :: ks →
      w.fuse.burn fails (transitionBits k (parseTransition bs).to_ (w.fuse.stepsAfter w.lcs.state.toNat (parseTransition bs).to_)) = (f2, rest, true) →
      ∃ u, exec (.lcsGo v request fails) s = .next u ∧
        (w.checkTransition (parseTransition bs) = none → u.fuse = f2 ∧ u.lcs.status = 4 ∧ u.lcs.result = 0 ∧ u.lcs.target = some (BitVec.ofNat 3 (parseTransition bs).to_) ∧ u.lcs.resetRequired = true) ∧
        (∀ r, w.checkTransition (parseTransition bs) = some r → u.fuse = w.fuse ∧ u.lcs.status = 5 ∧ u.lcs.result = r))

/-- Each clause names a command and says, of every state and operands that meet its hypotheses and of nothing else, that
exec answers a next state (`exec c s = .next t`), and what it holds. A port trains and comes up, loses a lane to a
spare, goes dark, returns and retrains; a flit in sequence is accepted; LEVEL records the partner and the level, and
KEYX makes the port secure. Completes, with a next state of its own effect: twinTraining, twinLaneRetire,
twinSpareInService, twinPortDark, twinPortReturn, twinFlitReceive, twinReplay, twinRetrain, twinRetrainDone, level,
keyx. The choices of the model in it are those of assumption logs 41, 54 and 85. Drawn from R373 to R375, R378, R379,
R385. -/
def Obligations.TwinLinks : Prop :=
  (∀ (s : State) (k : PortId) (lanes : BitVec 34),
      s.twin.ports[k].state = 1 →
      s.elementsMayStart = true →
      s.twin.ports[k].lanes &&& ~~~lanes = 0 →
      BitVec.ofNat 6 (twinWidth (popCount s.twin.ports[k].lanes)) ≠ 0 →
      ∃ u, exec (.twinTraining k lanes) s = .next u ∧
        u.twin.ports[k].state = 2 ∧ u.twin.ports[k].lanes = s.twin.ports[k].lanes ∧ u.twin.ports[k].width = BitVec.ofNat 6 (twinWidth (popCount s.twin.ports[k].lanes)) ∧ u.twin.ports[k].levelSent = true ∧ u.twin.ports[k].secure = false) ∧
  (∀ (s : State) (k : PortId) (lane : Fin 34) (n : Nat),
      s.twin.ports[k].state = 2 →
      bit s.twin.ports[k].lanes lane.val = true →
      (onBits s.twin.ports[k].spareLanes).head? = some n →
      BitVec.ofNat 6 (twinWidth (popCount (setBit s.twin.ports[k].lanes lane.val false))) ≠ 0 →
      ∃ u, exec (.twinLaneRetire k lane) s = .next u ∧
        u.twin.ports[k].lanes = setBit s.twin.ports[k].lanes lane.val false ∧ u.twin.ports[k].width = BitVec.ofNat 6 (twinWidth (popCount (setBit s.twin.ports[k].lanes lane.val false))) ∧ u.twin.ports[k].spareLanes = setBit s.twin.ports[k].spareLanes n false ∧ u.twin.ports[k].training = setBit s.twin.ports[k].training n true) ∧
  (∀ (s : State) (k : PortId) (lane : Fin 34),
      bit s.twin.ports[k].training lane.val = true →
      s.twin.ports[k].state = 2 →
      ∃ u, exec (.twinSpareInService k lane) s = .next u ∧
        u.twin.ports[k].lanes = setBit s.twin.ports[k].lanes lane.val true ∧ u.twin.ports[k].training = setBit s.twin.ports[k].training lane.val false ∧ u.twin.ports[k].width = BitVec.ofNat 6 (twinWidth (popCount (setBit s.twin.ports[k].lanes lane.val true)))) ∧
  (∀ (s : State) (k : PortId),
      (s.twin.ports[k].state = 1 ∨ s.twin.ports[k].state = 2 ∨ s.twin.ports[k].state = 3) →
      ∃ u, exec (.twinPortDark k) s = .next u ∧
        u.twin.ports[k].state = 5 ∧ u.twin.ports[k].lanes = s.twin.ports[k].lanes ∧ u.twin.ports[k].width = s.twin.ports[k].width) ∧
  (∀ (s : State) (k : PortId),
      s.twin.ports[k].state = 5 →
      s.twin.ports[k].width ≠ 0 →
      ∃ u, exec (.twinPortReturn k) s = .next u ∧
        u.twin.ports[k].state = 2 ∧ u.twin.ports[k].expect = 0 ∧ u.twin.ports[k].levelSent = true ∧ u.twin.ports[k].width = s.twin.ports[k].width) ∧
  (∀ (s : State) (k : PortId) (seq ack : BitVec 12),
      s.twin.ports[k].state = 2 →
      seq = s.twin.ports[k].expect →
      s.lines[k].waiting = [] →
      ∃ u, exec (.twinFlitReceive k seq ack true) s = .next u ∧
        u.twin.ports[k].expect = seq + 1 ∧ u.lines[k] = s.lines[k].acked ack ∧ u.out = .twinFlitAck k seq :: s.out) ∧
  (∀ (s : State) (k : PortId) (f : TwinFlit) (fs : List TwinFlit),
      s.twin.ports[k].state = 2 →
      s.twin.ports[k].rounds < 4 →
      s.lines[k].buffer = f :: fs →
      ∃ u, exec (.twinReplay k) s = .next u ∧
        u.twin.ports[k] = { s.twin.ports[k] with rounds := s.twin.ports[k].rounds + 1, replays := satAdd s.twin.ports[k].replays 1 } ∧ u.out = .twinReplay k f.seq :: s.out) ∧
  (∀ (s : State) (k : PortId),
      s.twin.ports[k].state = 2 →
      4 ≤ s.twin.ports[k].rounds →
      ∃ u, exec (.twinRetrain k) s = .next u ∧
        u.twin.ports[k].state = 3 ∧ u.twin.ports[k].rounds = 0 ∧ u.twin.ports[k].width = s.twin.ports[k].width) ∧
  (∀ (s : State) (k : PortId),
      s.twin.ports[k].state = 3 →
      ∃ u, exec (.twinRetrainDone k true) s = .next u ∧
        u.twin.ports[k].state = 2 ∧ u.twin.ports[k].width = s.twin.ports[k].width ∧ u.twin.ports[k].lanes = s.twin.ports[k].lanes) ∧
  (∀ (s : State) (k : PortId) (d : BitVec 512),
      s.twinUp k = true →
      s.twinKeyed = false →
      s.twin.ports[k].levelSent = true →
      s.twin.ports[otherPort k].level = 0 →
      ∃ u, exec (.level k d) s = .next u ∧
        u.twin.peerId = BitVec.ofNat 256 d.toNat ∧ u.twin.peerSchema = BitVec.ofNat 16 (fld d.toNat 272 16) ∧ u.twin.ports[k].level = BitVec.ofNat 2 (min 2 (fld d.toNat 264 8))) ∧
  (∀ (s : State) (k : PortId) (part : BitVec 16) (bytes : List Byte),
      s.twinUp k = true →
      s.twinKeyed = true →
      s.twin.ports[k].level ≠ 0 →
      ∃ u, exec (.keyx k part true bytes) s = .next u ∧
        (Config.chainValid ((if part = 0 then [] else s.twin.ports[k].keyParts) ++ bytes) = some s.twin.peerId → u.twin.ports[k] = { s.twin.ports[k] with secure := true, keyParts := [] }))

/-- Each clause names a command and says, of every state and operands that meet its hypotheses and of nothing else, that
exec answers a next state (`exec c s = .next t`), and what it holds. A read, a write, an atomic and a signal of the
partner are injected as initiator 21 under the tint of their binding; an answer, a remote bound and a local bound each
end their leg. Completes, with a next state of its own effect: twinRd, twinWr, twinAt, twinSig, twinResponse,
twinRemoteBound, twinLocalBound. The choices of the model in it are those of assumption log 54. Drawn from R377. -/
def Obligations.TwinRequests : Prop :=
  (∀ (s : State) (k : PortId) (h : BitVec 128) (tag : BitVec 12),
      s.twinUp k = true →
      s.twin.ports[k].level ≠ 0 →
      (twinMsg h).type = 1 →
      (s.twinAdmits k (twinMsg h) && (twinMsg h).arg = 0 && 0 < (twinMsg h).count && (twinMsg h).count ≤ 4 && (twinMsg h).addr % 64 = 0 && s.twin.bindings[(twinMsg h).binding].exports (twinMsg h).addr (twinMsg h).count false) = true →
      s.freeTag (fieldOfTwin k) 21 false = some tag →
      (∀ c, s.trunkTakes (BitVec.ofNat 52 (twinMsg h).addr) c = true) →
      ∃ u, exec (.twinRd k h) s = .next u ∧
        u.net.flight.length = s.net.flight.length + 1 ∧ ∃ x : Txn, u.net.flight = s.net.flight ++ [x] ∧ x.id = ⟨fieldOfTwin k, 21, tag⟩ ∧ x.kind = .read (twinMsg h).count ∧ x.pa = BitVec.ofNat 52 (twinMsg h).addr ∧ x.owner = .twin k h ∧ x.tint = s.twin.bindings[(twinMsg h).binding].tint ∧ x.stage = .inFlight) ∧
  (∀ (s : State) (k : PortId) (h : BitVec 128) (tag : BitVec 12) (ws : List CodeWord),
      s.twinUp k = true →
      s.twin.ports[k].level ≠ 0 →
      (twinMsg h).type = 2 →
      (twinMsg h).count ≤ ws.length →
      (s.twinAdmits k (twinMsg h) && (twinMsg h).arg = 0 && 0 < (twinMsg h).count && (twinMsg h).count ≤ 4 && s.twin.bindings[(twinMsg h).binding].exports (twinMsg h).addr (twinMsg h).count true) = true →
      s.freeTag (fieldOfTwin k) 21 false = some tag →
      (∀ c, s.trunkTakes (BitVec.ofNat 52 (twinMsg h).addr) c = true) →
      ∃ u, exec (.twinWr k h ws) s = .next u ∧
        u.net.flight.length = s.net.flight.length + 1 ∧ ∃ x : Txn, u.net.flight = s.net.flight ++ [x] ∧ x.id = ⟨fieldOfTwin k, 21, tag⟩ ∧ x.kind = .write ((twinMsg h).words ws) ∧ x.pa = BitVec.ofNat 52 (twinMsg h).addr ∧ x.owner = .twin k h ∧ x.tint = s.twin.bindings[(twinMsg h).binding].tint ∧ x.stage = .inFlight) ∧
  (∀ (s : State) (k : PortId) (h : BitVec 128) (tag : BitVec 12) (opd : CodeWord) (cmp : DWord) (op : AtomicOp),
      s.twinUp k = true →
      s.twin.ports[k].level ≠ 0 →
      (twinMsg h).type = 3 →
      atomicOfCode ((twinMsg h).arg / 2 ^ 20) = some op →
      (s.twinAdmits k (twinMsg h) && ((twinMsg h).arg % 64) % atomicSize op = 0 && fld (twinMsg h).arg 6 14 = 0 && s.twin.bindings[(twinMsg h).binding].exports ((twinMsg h).addr / 64 * 64) 1 true) = true →
      s.twinMapped k (twinMsg h) = none →
      s.freeTag (fieldOfTwin k) 21 true = some tag →
      (∀ c, s.trunkTakes (BitVec.ofNat 52 ((twinMsg h).addr / 64 * 64)) c = true) →
      ∃ u, exec (.twinAt k h opd cmp) s = .next u ∧
        u.net.flight.length = s.net.flight.length + 1 ∧ ∃ x : Txn, u.net.flight = s.net.flight ++ [x] ∧ x.id = ⟨fieldOfTwin k, 21, tag⟩ ∧ x.kind = .atomic op (asFin 64 ((twinMsg h).arg % 64)) (BitVec.ofNat 64 (fld opd.data.toNat (8 * ((twinMsg h).arg % 64)) (8 * atomicSize op))) cmp (opd.mark || Nat.testBit (twinMsg h).poison 0) ∧ x.pa = BitVec.ofNat 52 ((twinMsg h).addr / 64 * 64) ∧ x.owner = .twin k h ∧ x.tint = s.twin.bindings[(twinMsg h).binding].tint ∧ x.stage = .inFlight) ∧
  (∀ (s : State) (k : PortId) (h : BitVec 128) (tag : BitVec 12) (a : ArrayId),
      s.twinUp k = true →
      s.twin.ports[k].level ≠ 0 →
      (twinMsg h).type = 4 →
      (s.twinAdmits k (twinMsg h) && BitVec.ofNat 8 (twinMsg h).arg ≠ 0 && fld (twinMsg h).arg 8 4 = 0) = true →
      s.arrayOf s.twin.bindings[(twinMsg h).binding].panel (fld (twinMsg h).arg 18 6) = some a →
      s.twinMapped k (twinMsg h) = none →
      s.freeTag (fieldOfTwin k) 21 true = some tag →
      (∀ c, s.trunkTakes 0 c = true) →
      ∃ u, exec (.twinSig k h) s = .next u ∧
        u.net.flight.length = s.net.flight.length + 1 ∧ ∃ x : Txn, u.net.flight = s.net.flight ++ [x] ∧ x.id = ⟨fieldOfTwin k, 21, tag⟩ ∧ x.kind = .signal (fieldOfArray a) (niOfArray a) (asFin 64 (fld (twinMsg h).arg 12 6)) (BitVec.ofNat 8 (twinMsg h).arg) 0 ∧ x.pa = 0 ∧ x.owner = .twin k h ∧ x.tint = s.twin.bindings[(twinMsg h).binding].tint ∧ x.stage = .inFlight) ∧
  (∀ (s : State) (k : PortId) (h : BitVec 128) (ws : List CodeWord) (id : TxId) (w : TxId × Nat) (x : Txn) (n : Nat),
      s.twinUp k = true →
      id = ⟨(twinMsg h).field, (twinMsg h).ni, (twinMsg h).tag⟩ →
      (s.twin.ports[k].waits.find? fun w => w.1 = id) = some w →
      w.2 = 1 →
      s.txn id = some x →
      x.kind = .read n →
      (twinMsg h).type = 8 →
      x.status = 0 →
      ∃ u, exec (.twinResponse k h ws) s = .next u ∧
        u.txn id = some { x with stage := .answered, status := BitVec.ofNat 3 (twinMsg h).status, data := ((twinMsg h).words ws ++ List.replicate n poisonWord).take n } ∧ u.twin.ports[k].waits = s.twin.ports[k].waits.filter fun w => w.1 ≠ id) ∧
  (∀ (s : State) (k : PortId) (id : TxId) (h : BitVec 128) (x : Txn),
      s.txn id = some x →
      x.owner = .twin k h →
      ∃ u, exec (.twinRemoteBound k id) s = .next u ∧
        u.txn id = some { x with owner := .none }) ∧
  (∀ (s : State) (k : PortId) (id : TxId) (w : TxId × Nat) (x : Txn),
      (s.twin.ports[k].waits.find? fun w => w.1 = id) = some w →
      s.txn id = some x →
      ∃ u, exec (.twinLocalBound k id) s = .next u ∧
        u.txn id = some { x with stage := .answered, status := 3, data := refusedData x.kind } ∧ u.twin.ports[k].waits = s.twin.ports[k].waits.filter fun w => w.1 ≠ id)

/-- Each clause names a command and says, of every state and operands that meet its hypotheses and of nothing else, that
exec answers a next state (`exec c s = .next t`), and what it holds. A shadow stores and acknowledges epochs, a
primary takes acknowledgements, a seed is queried, replied to and scanned, heartbeats keep the partner alive and their
silence is recorded, and an operator seeds, promotes, fences and unfences a binding. Completes, with a next state of
its own effect: ckpt, ckptMark, ckptAck, bindQuery, bindReply, heart, heartSend, heartSilence, seed, promote, unfence,
fence, seedQueryTimeout, seedScanDone. The choices of the model in it are those of assumption logs 51, 52, 53 and 54.
Drawn from R380 to R383, R385 to R388. -/
def Obligations.TwinPairs : Prop :=
  (∀ (s : State) (k : PortId) (h : BitVec 128) (b : BindId) (w : CodeWord) (r : PaRange),
      s.twinUp k = true →
      (twinMsg h).type = 0x20 →
      (twinMsg h).count = 1 →
      b = (twinMsg h).binding →
      s.twin.bindings[b].valid = true →
      s.twin.bindings[b].role = 2 →
      s.twin.bindings[b].state ≠ 8 →
      2 ≤ s.twin.ports[k].level →
      s.twinSecret k b (twinMsg h) = true →
      s.twin.bindings[b].ranges[(twinMsg h).range]? = some r →
      (twinMsg h).addr % 64 = 0 →
      (twinMsg h).addr + 64 ≤ r.length →
      s.coherentAt (BitVec.ofNat 52 (r.base + (twinMsg h).addr)) = false →
      ∃ u, exec (.ckpt k h [w]) s = .next u ∧
        u.mem = (s.storeCode (twinAgent k s.twin.bindings[b].panel) 21 s.twin.bindings[b].tint (BitVec.ofNat 52 (r.base + (twinMsg h).addr)) { data := w.data, mark := w.mark || Nat.testBit (twinMsg h).poison 0 }).2.mem) ∧
  (∀ (s : State) (k : PortId) (h : BitVec 128) (b : BindId) (e : DWord),
      s.twinUp k = true →
      (twinMsg h).type = 0x21 →
      b = (twinMsg h).binding →
      s.twin.bindings[b].valid = true →
      s.twin.bindings[b].role = 2 →
      s.twin.bindings[b].state ≠ 8 →
      2 ≤ s.twin.ports[k].level →
      s.twinSecret k b (twinMsg h) = true →
      Nat.testBit (twinMsg h).arg 1 = false →
      ∃ u, exec (.ckptMark k h e) s = .next u ∧
        u.twin.bindings[b].epoch = e ∧ (Nat.testBit (twinMsg h).arg 0 = true → u.twin.bindings[b].state = 4 ∧ u.twin.bindings[b].seeded = true)) ∧
  (∀ (s : State) (k : PortId) (h : BitVec 128) (b : BindId) (e : DWord),
      s.twinUp k = true →
      (twinMsg h).type = 0x22 →
      b = (twinMsg h).binding →
      s.twin.bindings[b].valid = true →
      s.twin.bindings[b].role = 1 →
      s.twinSecret k b (twinMsg h) = true →
      (s.twin.bindings[b].marks.any fun n => n.1 = e.toNat) = true →
      s.twin.bindings[b].fencing = false →
      ∃ u, exec (.ckptAck k h e) s = .next u ∧
        u.twin.bindings[b] = (if s.twin.bindings[b].state = 3 ∧ e.toNat = 0 then { s.twin.bindings[b].ack e.toNat with state := 4, seeded := true, nextEpoch := 1 } else s.twin.bindings[b].ack e.toNat)) ∧
  (∀ (s : State) (k : PortId) (h : BitVec 128) (b : BindId) (d : BitVec 512),
      s.twinUp k = true →
      (twinMsg h).type = 0x28 →
      d.toNat % 256 ≠ 0xFF →
      b = (twinMsg h).binding →
      s.twin.bindings[b].valid = true →
      (s.bindPanel b).sealed_ = false →
      s.twinSends k (twinHeader 0x29 1 0 0 0 0 b.val 0 0 0 0) [{ data := s.bindPayload b, mark := false }] = true →
      ∃ u, exec (.bindQuery k h d) s = .next u ∧
        u.out = .twinMsg k (twinHeader 0x29 1 0 0 0 0 b.val 0 0 0 0) [{ data := s.bindPayload b, mark := false }] :: s.out) ∧
  (∀ (s : State) (k j : PortId) (h : BitVec 128) (b : BindId) (d : BitVec 512),
      s.twinUp k = true →
      (twinMsg h).type = 0x29 →
      b = (twinMsg h).binding →
      s.twin.bindings[b].valid = true →
      s.seedWaits b = true →
      d.toNat % 256 = 2 →
      d.toNat / 256 % 2 ^ 312 = (s.bindPayload b).toNat / 256 % 2 ^ 312 →
      s.bindPort b = some j →
      s.pairWorks j = true →
      ∃ u, exec (.bindReply k h d) s = .next u ∧
        u.twin.bindings[b] = { s.twin.bindings[b] with state := 3, pendingWords := 0, marks := [], seedAt := 0 } ∧ u.twin.ctlState = 2 ∧ u.twin.ctlReason = 0) ∧
  (∀ (s : State) (k : PortId) (fatal : Bool) (count : BitVec 16),
      s.twinUp k = true →
      ∃ u, exec (.heart k fatal count) s = .next u ∧
        u.twin.lastHeart = s.sclk ∧ u.twin.fatalSeen = fatal ∧ u.twin.silent = false ∧ u.twin.cause = 0) ∧
  (∀ (s : State) (k : PortId),
      s.twin.heartStopped = false →
      s.twinUp k = true →
      s.twinSends k (twinHeader 0x30 0 0 0 0 0 0 0 0 0 (flag false 23 + s.twin.ports[k].heartCount.toNat)) [] = true →
      ∃ u, exec (.heartSend k) s = .next u ∧
        u.twin.ports[k] = { s.twin.ports[k] with heartCount := s.twin.ports[k].heartCount + 1 } ∧ u.out = .twinMsg k (twinHeader 0x30 0 0 0 0 0 0 0 0 0 (flag false 23 + s.twin.ports[k].heartCount.toNat)) [] :: s.out) ∧
  (∀ (s : State),
      s.twin.silent = false →
      ∃ u, exec (.heartSilence) s = .next u ∧
        u.twin.silent = true ∧ u.twin.cause = s.silenceCause) ∧
  (∀ (s : State) (v : Word) (b : BindId),
      (s.pf0Open 0 || s.pf0Open 1) = true →
      fld v.toNat 24 8 = 0xC5 →
      s.twin.ctlState ≠ 1 →
      b = asFin 64 (fld v.toNat 0 6) →
      fld v.toNat 8 2 = 0 →
      s.twin.bindings[b].valid = true →
      s.twin.bindings[b].role = 1 →
      s.twin.bindings[b].state = 2 →
      ∃ u, exec (.seed v) s = .next u ∧
        u.twin.ctlState = 1 ∧ u.twin.ctlReason = 0 ∧ u.twin.ctlBinding = b) ∧
  (∀ (s : State) (v : Word) (b : BindId),
      (s.pf0Open 0 || s.pf0Open 1) = true →
      fld v.toNat 24 8 = 0xC5 →
      s.twin.ctlState ≠ 1 →
      b = asFin 64 (fld v.toNat 0 6) →
      fld v.toNat 8 2 = 1 →
      s.twin.bindings[b].valid = true →
      s.twin.bindings[b].role = 2 →
      (s.twin.bindings[b].state = 4 ∨ s.twin.bindings[b].state = 6) →
      s.twin.bindings[b].seeded = true →
      ∃ u, exec (.promote v) s = .next u ∧
        u.twin.bindings[b].state = 8 ∧ u.twin.ctlState = 2 ∧ u.twin.ctlReason = 0) ∧
  (∀ (s : State) (v : Word) (b : BindId),
      (s.pf0Open 0 || s.pf0Open 1) = true →
      fld v.toNat 24 8 = 0xC5 →
      s.twin.ctlState ≠ 1 →
      b = asFin 64 (fld v.toNat 0 6) →
      fld v.toNat 8 2 = 2 →
      s.twin.bindings[b].valid = true →
      s.twin.bindings[b].role = 1 →
      s.twin.bindings[b].state = 7 →
      ∃ u, exec (.unfence v) s = .next u ∧
        u.twin.bindings[b].state = 6 ∧ u.twin.ctlState = 2 ∧ u.twin.ctlReason = 0) ∧
  (∀ (s : State) (v : Word) (b : BindId),
      (s.pf0Open 0 || s.pf0Open 1) = true →
      fld v.toNat 24 8 = 0xC5 →
      s.twin.ctlState ≠ 1 →
      b = asFin 64 (fld v.toNat 0 6) →
      fld v.toNat 8 2 = 3 →
      s.twin.bindings[b].valid = true →
      s.twin.bindings[b].role = 1 →
      (s.twin.bindings[b].state = 4 ∨ s.twin.bindings[b].state = 5 ∨ s.twin.bindings[b].state = 6) →
      s.twin.bindings[b].marks = [] →
      ∃ u, exec (.fence v) s = .next u ∧
        u.twin.bindings[b] = { s.twin.bindings[b] with fencing := false, state := 7 } ∧ u.twin.ctlState = 2 ∧ u.twin.ctlReason = 0) ∧
  (∀ (s : State),
      s.seedWaits s.twin.ctlBinding = true →
      ∃ u, exec (.seedQueryTimeout) s = .next u ∧
        u.twin.ctlState = 3 ∧ u.twin.ctlReason = 4 ∧ u.twin.bindings = s.twin.bindings) ∧
  (∀ (s : State) (b : BindId),
      s.twin.bindings[b].valid = true →
      s.twin.bindings[b].role = 1 →
      s.twin.bindings[b].state = 3 →
      s.twin.bindings[b].marks = [] →
      ∃ u, exec (.seedScanDone b) s = .next u ∧
        u.twin.bindings[b].state = 3 ∧ ((rangeWord 0 s.twin.bindings[b].ranges (s.seedSome b).twin.bindings[b].seedAt).isNone = true → ∃ n, u.twin.bindings[b].marks = [(0, n)]) ∧ ((rangeWord 0 s.twin.bindings[b].ranges (s.seedSome b).twin.bindings[b].seedAt).isNone = false → u = s.seedSome b))

/-- Each clause names a command and says, of every state and operands that meet its hypotheses and of nothing else, that
exec answers a next state (`exec c s = .next t`), and what it holds. The hub resets when one of the six inputs falls,
sends a fatal HEART on each twin port in service when a power-good input falls, keeps fuses, pins and waiting
commands, boots when the last of the inputs is high, and ends each boot stage as its stage says. Completes, with a
next state of its own effect: pwrgdRise, pwrgdFall, pkgResetAssert, pkgResetRelease, bootStageDone, fieldSelfTestDone.
The choices of the model in it are those of assumption logs 2, 64 and 67. Drawn from R345, R392, R393, R396, R398. -/
def Obligations.Resets : Prop :=
  (∀ (s : State) (pin : PowerGood),
      s.inReset = true →
      bit s.pins.pwrgd (goodBit pin) = false →
      setBit s.pins.pwrgd (goodBit pin) true = 0b11111 →
      s.pins.pkgResetN = true →
      ∃ u, exec (.pwrgdRise pin) s = .next u ∧
        u.inReset = false ∧ u.stage = 0 ∧ u.mem = [] ∧ u.fuse = s.fuse ∧ u.pending = s.pending ∧
        (pin = .aux → u.side.staticAddr = 0x30 + s.pins.addrSel.setWidth 7 ∧ u.side.dynAddr = none)) ∧
  (∀ (s : State) (pin : PowerGood),
      s.inReset = false →
      bit s.pins.pwrgd (goodBit pin) = true →
      ∃ u, exec (.pwrgdFall pin) s = .next u ∧
        u.inReset = true ∧ u.mem = [] ∧ u.ras.flog = [] ∧ u.fuse = s.fuse ∧ u.pending = s.pending ∧ u.pins = { s.pins with pwrgd := setBit s.pins.pwrgd (goodBit pin) false } ∧
        ∀ k : PortId, s.twinUp k = true → s.twinSends k (twinHeader 0x30 0 0 0 0 0 0 0 0 0 (2 ^ 23 + s.twin.ports[k].heartCount.toNat)) [] = true → .twinMsg k (twinHeader 0x30 0 0 0 0 0 0 0 0 0 (2 ^ 23 + s.twin.ports[k].heartCount.toNat)) [] ∈ u.out) ∧
  (∀ (s : State),
      s.inReset = false →
      ∃ u, exec (.pkgResetAssert) s = .next u ∧
        u.inReset = true ∧ u.stage = 0 ∧ u.mem = [] ∧ u.fuse = s.fuse ∧ u.pending = s.pending ∧ u.pins = { s.pins with pkgResetN := false }) ∧
  (∀ (s : State),
      s.inReset = true →
      s.pins.pwrgd = 0b11111 →
      ∃ u, exec (.pkgResetRelease) s = .next u ∧
        u.inReset = false ∧ u.stage = 0 ∧ u.mem = [] ∧ u.fuse = s.fuse ∧ u.pending = s.pending ∧ u.pins.pkgResetN = true) ∧
  (∀ (s : State),
      s.inReset = false →
      s.stage = 0 →
      ∃ u, exec (.bootStageDone true) s = .next u ∧
        u.stage = 1 ∧ u.clk.coreLock = true ∧ u.clk.hbmLock = 0xFF ∧ u.clk.siteLock = s.fuse.sitePop) ∧
  (∀ (s : State) (passed : Bool),
      s.inReset = false →
      s.stage = 1 →
      ∃ u, exec (.bootStageDone passed) s = .next u ∧
        u.stage = 2 ∧ u.lcs.state = (if wordValid s.fuse.resolve.1.voted then wordState s.fuse.resolve.1.voted else lcsRetired) ∧ u.retired = decide (u.lcs.state = lcsRetired)) ∧
  (∀ (s : State) (passed : Bool),
      s.inReset = false →
      s.stage = 2 →
      s.retired = false →
      ∃ u, exec (.bootStageDone passed) s = .next u ∧
        u.stage = 3 ∧ u.fuse = { s.fuse with bootCount := satAdd s.fuse.bootCount 1 } ∧
        u.arrays = (s.fuse.patches.foldl State.applyPatch ((s.modFuse fun f => { f with bootCount := satAdd s.fuse.bootCount 1 }).modRas fun r => { r with patchBoot := satAdd s.fuse.bootCount 1, patches := s.fuse.patches })).arrays) ∧
  (∀ (s : State),
      s.inReset = false →
      s.stage = 3 →
      ∃ u, exec (.bootStageDone true) s = .next u ∧
        u.stage = 4 ∧ u.bootMs = BitVec.ofNat 16 (min 0xFFFF (s.sclk / 93750)) ∧
        (s.lcs.state = lcsPersonalized → u.fuse.bundleKey.isSome = true)) ∧
  (∀ (s : State),
      s.inReset = false →
      s.stage = 3 →
      s.ras.pkgFault = none →
      ∃ u, exec (.bootStageDone false) s = .next u ∧
        u.stage = 5 ∧ u.ras.pkgFault = some (15, 0)) ∧
  (∀ (s : State) (f : FieldId),
      s.elementsMayStart = true →
      s.fields[f].selfTest = false →
      ∃ u, exec (.fieldSelfTestDone f) s = .next u ∧
        u.fields[f] = { s.fields[f] with selfTest := true } ∧ ∀ i < 5, u.arrays[asFin 40 (5 * f.val + i)].selfTested = true)

/-- Each clause names a command and says, of every state and operands that meet its hypotheses and of nothing else, that
exec answers a next state (`exec c s = .next t`), and what it holds. The next populated site is enabled in its slot,
both halves of a double site together; bring-up begins when its power rises or has not come in time; a site whose
power falls only records it. Completes, with a next state of its own effect: siteEnSlot, sitePgRise,
sitePgWaitTimeout, sitePgFall. The choices of the model in it are those of assumption logs 19 and 67. Drawn from R268,
R394. -/
def Obligations.SiteRails : Prop :=
  (∀ (s : State) (n : SiteId),
      s.elementsMayStart = true →
      s.nextSite = some n →
      ∃ u, exec (.siteEnSlot) s = .next u ∧
        u.sites[n] = { s.sites[n] with enabled := true, stage := .waitPower } ∧
        (∀ m : SiteId, s.pairFused n.val = true → m.val = n.val + 1 → u.sites[m] = { s.sites[m] with enabled := true, stage := .waitPower }) ∧
        u.siteSlot = (if s.pairFused n.val = true then n.val + 2 else n.val + 1)) ∧
  (∀ (s : State) (n : SiteId),
      bit s.pins.sitePg n.val = false →
      s.inReset = false →
      s.sites[n].stage = .waitPower →
      ∃ u, exec (.sitePgRise n) s = .next u ∧
        u.sites[n] = { s.sites[n] with power := true, stage := .sideband } ∧ u.pins = { s.pins with sitePg := setBit s.pins.sitePg n.val true }) ∧
  (∀ (s : State) (n : SiteId),
      s.sites[n].stage = .waitPower →
      ∃ u, exec (.sitePgWaitTimeout n) s = .next u ∧
        u.sites[n] = { s.sites[n] with stage := .sideband }) ∧
  (∀ (s : State) (n : SiteId),
      bit s.pins.sitePg n.val = true →
      s.inReset = false →
      s.ras.flog.length < 1024 →
      ∃ u, exec (.sitePgFall n) s = .next u ∧
        u.sites[n] = { s.sites[n] with power := false } ∧ u.pins = { s.pins with sitePg := setBit s.pins.sitePg n.val false } ∧
        u.ras.flog = s.ras.flog ++ (if s.sites[n].inService = true then [faultEntry { source := 9, element := BitVec.ofNat 32 n.val } s.now] else []))

/-- Each clause names a command and says, of every state and operands that meet its hypotheses and of nothing else, that
exec answers a next state (`exec c s = .next t`), and what it holds. Losing the reference or a lock raises the package
fault, or fails the one site or twin port; each sample of power moves the issue allowance by its rule and keeps the
peak; the sensors give TMAX and a thermal event begins at 110 degrees; a write of the limits is clamped. Completes,
with a next state of its own effect: refclkLoss, pllLockLoss, powerSample, tempSample, pwrLimitWrite, pwrThermWrite.
The choices of the model in it are those of assumption logs 60, 66 and 67. Drawn from R240, R361, R374, R398, R402 to
R406. -/
def Obligations.PowerAndClocks : Prop :=
  (∀ (s : State),
      s.inReset = false →
      s.ras.pkgFault = none →
      ∃ u, exec (.refclkLoss) s = .next u ∧
        u.ras.pkgFault = some (17, 1) ∧ u.ras.flogSevere = true) ∧
  (∀ (s : State),
      s.clk.coreLock = true →
      s.ras.pkgFault = none →
      ∃ u, exec (.pllLockLoss .core) s = .next u ∧
        u.clk = { s.clk with coreLock := false } ∧ u.ras.pkgFault = some (17, 2)) ∧
  (∀ (s : State) (n : SiteId),
      bit s.clk.siteLock n.val = true →
      s.sites[n].inService = true →
      s.otherHalf n = none →
      ∃ u, exec (.pllLockLoss (.site n)) s = .next u ∧
        u.clk = { s.clk with siteLock := setBit s.clk.siteLock n.val false } ∧ u.sites[n] = { s.sites[n] with ready := false, state := 5, failCode := 9, live := 0 }) ∧
  (∀ (s : State) (k : PortId),
      bit s.clk.twinLock k.val = true →
      ∃ u, exec (.pllLockLoss (.twin k)) s = .next u ∧
        u.clk = { s.clk with twinLock := setBit s.clk.twinLock k.val false } ∧ u.twin.ports[k].state = 4 ∧ u.twinUp k = false) ∧
  (∀ (s : State) (p1 p10 : BitVec 13) (ten below floor : Bool),
      s.inReset = false →
      8 ≤ s.pwr.d.toNat →
      s.pwr.d.toNat ≤ 64 →
      ∃ u, exec (.powerSample p1 p10 ten below floor) s = .next u ∧
        u.pwr.p1 = p1 ∧ u.pwr.p1Max.toNat = max s.pwr.p1Max.toNat p1.toNat ∧
        (11 * s.pwr.limit4 < 40 * p10.toNat → u.pwr.d.toNat = max 8 (s.pwr.d.toNat / 2)) ∧
        (40 * p10.toNat ≤ 11 * s.pwr.limit4 → s.pwr.limit4 < 4 * p1.toNat → ten = true → u.pwr.d.toNat = max 8 (s.pwr.d.toNat - 4)) ∧
        (40 * p10.toNat ≤ 11 * s.pwr.limit4 → 400 * p1.toNat < 98 * s.pwr.limit4 → below = true → ten = true → u.pwr.d.toNat = min 64 (s.pwr.d.toNat + 1)) ∧
        (4300 < p1.toNat → s.pwr.d = 8 → floor = true → s.ras.pkgFault = none → u.ras.pkgFault = some (17, 3))) ∧
  (∀ (s : State) (sensors : Vector Byte 32) (hot : Bool),
      s.inReset = false →
      s.pwr.thermEvent = false →
      ∃ u, exec (.tempSample sensors hot) s = .next u ∧
        u.pwr.temps = sensors ∧ u.pwr.tmax = hottest sensors ∧
        (110 ≤ (hottest sensors).toNat → u.pwr.thermEvent = true ∧ u.pwr.evTherm = true ∧ .thermN true ∈ u.out) ∧
        (hot = true → 120 ≤ (hottest sensors).toNat → s.ras.pkgFault = none → u.ras.pkgFault = some (17, 4))) ∧
  (∀ (s : State) (value : Word),
      (s.pf0Open 0 || s.pf0Open 1) = true →
      ∃ u, exec (.pwrLimitWrite value) s = .next u ∧
        u.pwr = { s.pwr with limit := u.pwr.limit } ∧ u.pwr.limit.toNat = max 1500 (min 4300 (value.toNat % 2 ^ 13))) ∧
  (∀ (s : State) (value : Word),
      (s.pf0Open 0 || s.pf0Open 1) = true →
      ∃ u, exec (.pwrThermWrite value) s = .next u ∧
        u.pwr = { s.pwr with throtC := u.pwr.throtC } ∧ u.pwr.throtC.toNat = max 80 (min 105 (value.toNat % 2 ^ 8)))

/-- Each clause names a command and says, of every state and operands that meet its hypotheses and of nothing else, that
exec answers a next state (`exec c s = .next t`), and what it holds. A read answers the register, the low word of a
64-bit register latches its high word and the high word answers what is latched; an access that is not 4 bytes wide
and aligned is logged and does nothing; a low word is held until its high word is written, and both are then applied
together; a reserved extent reads zero and is logged. Completes, with a next state of its own effect:
lowWordReadLatch, registerWrite, reservedExtentAccess, space5Access. The choices of the model in it are those of
assumption logs 68, 70, 72, 75 and 91. Drawn from R5 to R8, R64, R406, R413, R414, R421. -/
def Obligations.Registers : Prop :=
  (∀ (s : State) (p : PortId) (off : BitVec 28) (tee : Bool) (w : DWord),
      s.pf0Takes p = true →
      s.retired = false →
      off.toNat % 4 = 0 →
      reservedExtent off.toNat = false →
      s.regWide (s.aim (.pf0 off)) = some w →
      ∃ u, exec (.lowWordReadLatch ⟨p, .reg (.pf0 off), 4, tee⟩) s = .next u ∧
        u.out = .regRead (.pf0 off) (lowWord w) :: s.out ∧ u.latchedHigh (s.aim (.pf0 off)) = some (highWord w)) ∧
  (∀ (s : State) (p : PortId) (off : BitVec 28) (tee : Bool) (w : DWord) (h : Word),
      s.pf0Takes p = true →
      s.retired = false →
      off.toNat % 4 = 0 →
      reservedExtent off.toNat = false →
      s.regWide (s.aim (.pf0 off)) = none →
      s.regWide (lowOf (s.aim (.pf0 off))) = some w →
      s.latchedHigh (lowOf (s.aim (.pf0 off))) = some h →
      ∃ u, exec (.lowWordReadLatch ⟨p, .reg (.pf0 off), 4, tee⟩) s = .next u ∧
        u.out = .regRead (.pf0 off) h :: s.out ∧ u.latchedHigh (lowOf (s.aim (.pf0 off))) = none) ∧
  (∀ (s : State) (p : PortId) (v : VfId) (o : BitVec 16) (tee : Bool),
      s.takesMemory p = true →
      s.vfLive p v = true →
      s.pageRefused p v o.toNat tee = false →
      o.toNat % 4 = 0 →
      s.regWide (.vf p v o) = none →
      s.regWide (lowOf (.vf p v o)) = none →
      ∃ u, exec (.lowWordReadLatch ⟨p, .reg (.vf p v o), 4, tee⟩) s = .next u ∧
        u.out = .regRead (.vf p v o) (s.regWord (.vf p v o)) :: s.out ∧ u.latched = s.latched) ∧
  (∀ (s : State) (p : PortId) (v : VfId) (o : BitVec 16) (size : Nat) (tee : Bool),
      s.takesMemory p = true →
      s.vfLive p v = true →
      s.pageRefused p v o.toNat tee = false →
      size ≠ 4 ∨ o.toNat % 4 ≠ 0 →
      s.ras.flog.length < 1024 →
      ∃ u, exec (.lowWordReadLatch ⟨p, .reg (.vf p v o), size, tee⟩) s = .next u ∧
        u.out = .regRead (.vf p v o) 0xFFFFFFFF :: s.out ∧ u.ras.flog = s.ras.flog ++ [faultEntry { source := 16, code := 1, info := BitVec.ofNat 32 o.toNat } s.now]) ∧
  (∀ (s : State) (p : PortId) (v : VfId) (o : BitVec 16) (size : Nat) (tee : Bool) (value : Word),
      s.takesMemory p = true →
      s.vfLive p v = true →
      s.vfDust p v = false →
      s.pageRefused p v o.toNat tee = false →
      size ≠ 4 ∨ o.toNat % 4 ≠ 0 →
      ∃ u, exec (.registerWrite p ⟨.reg (.vf p v o), tee⟩ size value) s = .next u ∧
        u = s.noteAccess 1 o.toNat) ∧
  (∀ (s : State) (p : PortId) (v : VfId) (tee : Bool) (value : Word),
      s.takesMemory p = true →
      s.vfLive p v = true →
      s.vfDust p v = false →
      s.pageRefused p v (BitVec.toNat (0xE040 : BitVec 16)) tee = false →
      (s.vf p v).bound.isNone = false →
      ∃ u, exec (.registerWrite p ⟨.reg (.vf p v 0xE040), tee⟩ 4 value) s = .next u ∧
        u = s.holdLow (.vf p v 0xE040) value ∧ u.lowHeld (.vf p v 0xE040) = value) ∧
  (∀ (s : State) (p : PortId) (v : VfId) (tee : Bool) (value : Word),
      s.takesMemory p = true →
      s.vfLive p v = true →
      s.vfDust p v = false →
      s.pageRefused p v (BitVec.toNat (0xE044 : BitVec 16)) tee = false →
      (s.vf p v).bound.isNone = false →
      ∃ u, exec (.registerWrite p ⟨.reg (.vf p v 0xE044), tee⟩ 4 value) s = .next u ∧
        u.ports[p].vfs[v].inv = { s.ports[p].vfs[v].inv with base := keepBits (both value (s.lowHeld (.vf p v 0xE040))) 54 0 }) ∧
  (∀ (s : State) (p : PortId) (tee : Bool) (value : Word),
      s.pf0Takes p = true →
      s.retired = false →
      ∃ u, exec (.registerWrite p ⟨.reg (.pf0 0x80800C), tee⟩ 4 value) s = .next u ∧
        u = s.writeTherm value ∧ u.pwr.throtC.toNat = max 80 (min 105 (value.toNat % 2 ^ 8))) ∧
  (∀ (s : State) (port : PortId) (off : BitVec 28) (write : Bool),
      s.pf0Takes port = true →
      reservedExtent off.toNat = true →
      off.toNat % 4 = 0 →
      s.ras.flog.length < 1024 →
      ∃ u, exec (.reservedExtentAccess port off ⟨write, 4⟩) s = .next u ∧
        u.out = (if write = true then s.out else .regRead (.pf0 off) 0 :: s.out) ∧ u.mem = s.mem ∧ u.pwr = s.pwr ∧
        u.ras.flog = s.ras.flog ++ [faultEntry { source := 16, code := 2, info := BitVec.ofNat 32 off.toNat } s.now]) ∧
  (∀ (s : State) (pa : BitVec 52) (value : Word),
      s.inReset = false →
      paPartner pa = false →
      paSpace pa = 5 →
      fld pa.toNat 28 20 = 0 →
      ∃ u, exec (.space5Access pa false 4 value) s = .next u ∧
        u = s.readBack (.pf0 (pa.setWidth 28)) 4 ∧ u.out.head? = some (.regRead (.pf0 (pa.setWidth 28)) (s.busRead (.pf0 (pa.setWidth 28)) 4).1)) ∧
  (∀ (s : State) (pa : BitVec 52) (size : Nat) (value : Word),
      s.inReset = false →
      paPartner pa = false →
      paSpace pa = 5 →
      fld pa.toNat 28 20 = 0 →
      ∃ u, exec (.space5Access pa true size value) s = .next u ∧
        u = s.busWrite (.pf0 (pa.setWidth 28)) size value)

/-- Each clause names a command and says, of every state and operands that meet its hypotheses and of nothing else, that
exec answers a next state (`exec c s = .next t`), and what it holds. A configuration read answers the word that holds
the offset; the capability pointers chain the capabilities at their offsets in the order of the table; TotalVFs,
InitialVFs, First VF Offset, VF Stride and Supported Page Sizes read as given; BAR0 keeps the bits that a window of
256 MiB leaves. Completes, with a next state of its own effect: lowWordReadLatch, registerWrite. The choices of the
model in it are those of assumption logs 68 and 90. Drawn from R270, R272, R273. -/
def Obligations.ConfigurationSpace : Prop :=
  (∀ (s : State) (p : PortId) (off : BitVec 12) (size : Nat) (tee : Bool),
      s.ports[p].l0 = true →
      s.stage = 4 →
      ∃ u, exec (.lowWordReadLatch ⟨p, .cfg none off, size, tee⟩) s = .next u ∧
        u = s.emit (.cfgRead p none off (s.pfConfigWord p (off.toNat / 4 * 4)))) ∧
  (∀ (s : State) (p : PortId) (v : VfId) (off : BitVec 12) (size : Nat) (tee : Bool),
      s.stage = 4 →
      s.vfThere p v = true →
      s.ports[p].vfs[v].resetting = false →
      ∃ u, exec (.lowWordReadLatch ⟨p, .cfg (some v) off, size, tee⟩) s = .next u ∧
        u = s.emit (.cfgRead p (some v) off (s.vfConfigWord p v (off.toNat / 4 * 4)))) ∧
  (∀ (s : State) (p : PortId) (tee : Bool) (value : Word),
      s.ports[p].l0 = true →
      s.stage = 4 →
      ∃ u, exec (.registerWrite p ⟨.cfg none 0x10, tee⟩ 4 value) s = .next u ∧
        u.ports[p] = { s.ports[p] with cfg := { s.ports[p].cfg with bar0 := both (highWord s.ports[p].cfg.bar0) (value &&& 0xF0000000) } }) ∧
  (∀ (s : State) (p : PortId) (v : VfId),
      fld (s.pfConfigWord p 0x34).toNat 0 8 = 0x40 ∧ fld (s.vfConfigWord p v 0x34).toNat 0 8 = 0x40 ∧
      fld (s.pfConfigWord p 0x3C).toNat 8 8 = 1 ∧ fld (s.vfConfigWord p v 0x3C).toNat 8 8 = 0 ∧
      (∀ c ∈ [(0x40, 0x70), (0x70, 0)], fld (s.pfConfigWord p c.1).toNat 8 8 = c.2) ∧
      (∀ c ∈ [(0x40, 0x50), (0x50, 0x70), (0x70, 0)], fld (s.vfConfigWord p v c.1).toNat 8 8 = c.2) ∧
      (∀ c ∈ [(0x100, 0x150), (0x150, 0x160), (0x160, 0x170), (0x170, 0x1B0), (0x1B0, 0x1E0), (0x1E0, 0x200), (0x200, 0x240),
        (0x240, 0x280), (0x280, 0x2C0), (0x2C0, 0x300), (0x300, 0x350), (0x350, 0x360), (0x360, 0x400), (0x400, 0x600), (0x600, 0x610), (0x610, 0)],
        fld (s.pfConfigWord p c.1).toNat 20 12 = c.2) ∧
      fld (s.vfConfigWord p v 0x100).toNat 20 12 = 0) ∧
  (∀ (s : State) (p : PortId),
      fld (s.pfConfigWord p 0x17C).toNat 0 16 = 40 ∧ fld (s.pfConfigWord p 0x17C).toNat 16 16 = 40 ∧
      fld (s.pfConfigWord p 0x184).toNat 0 16 = 1 ∧ fld (s.pfConfigWord p 0x184).toNat 16 16 = 1 ∧ s.pfConfigWord p 0x18C = 0x00000011)

/-- Each clause names a command and says, of every state and operands that meet its hypotheses and of nothing else, that
exec answers a next state (`exec c s = .next t`), and what it holds. The target takes the dynamic address that is
assigned, keeps the offset that a write of 4 bytes names, writes PWR_LIMIT and PWR_THERM alone, reads all ones before
boot stage 2 and outside its blocks, and the test port selects BYPASS in place of the internal chains while debug is
closed. Completes, with a next state of its own effect: i3cDynamicAddress, i3cPrivateWrite, i3cPrivateRead,
tapInstruction. The choices of the model in it are those of assumption logs 69, 73 and 74. Drawn from R343, R409,
R410. -/
def Obligations.ManagementAndTest : Prop :=
  (∀ (s : State) (method : I3cAssign) (address : BitVec 7),
      bit s.pins.pwrgd 0 = true →
      ∃ u, exec (.i3cDynamicAddress method address) s = .next u ∧
        u.side = { s.side with dynAddr := some (if method = .setaasa then s.side.staticAddr else address) }) ∧
  (∀ (s : State) (bytes : List Byte),
      s.i3cLive = true →
      bytes.length = 4 →
      ∃ u, exec (.i3cPrivateWrite bytes) s = .next u ∧
        u.side = { s.side with offset := BitVec.ofNat 32 (natOf bytes) } ∧ u.pwr = s.pwr) ∧
  (∀ (s : State) (bytes : List Byte),
      s.i3cLive = true →
      bytes.length = 8 →
      s.inReset = false →
      ∃ u, exec (.i3cPrivateWrite bytes) s = .next u ∧
        u.pwr = (if natOf (bytes.take 4) = 0x808000 then (s.writeLimit (BitVec.ofNat 32 (natOf (bytes.drop 4)))).pwr
          else if natOf (bytes.take 4) = 0x80800C then (s.writeTherm (BitVec.ofNat 32 (natOf (bytes.drop 4)))).pwr else s.pwr) ∧ u.side = s.side ∧ u.ports = s.ports) ∧
  (∀ (s : State),
      s.i3cLive = true →
      ∃ u, exec (.i3cPrivateRead) s = .next u ∧
        ((s.inReset = true ∨ s.stage.toNat < 2 ∨ i3cReadable s.side.offset.toNat = false) → u = s.emit (.i3cData 0xFFFFFFFF)) ∧
        (s.inReset = false → 2 ≤ s.stage.toNat → i3cReadable s.side.offset.toNat = true →
          u.out.head? = some (.i3cData (s.busRead (.pf0 (BitVec.ofNat 28 s.side.offset.toNat)) 4).1))) ∧
  (∀ (s : State) (instr : TapInstr),
      bit s.pins.pwrgd 0 = true →
      ∃ u, exec (.tapInstruction instr) s = .next u ∧
        u.side = { s.side with tap := if instr = .internalChain ∧ s.debugOpen = false then .bypass else instr } ∧
        (instr = .idcode → .tapIdcode idcode ∈ u.out))

end
end

