-- ==== Sys2Proof/Laws/Bits.lean ====
section
/-!
SUPPORT. Entries of a vector and bits of a word after a change.
-/

set_option Elab.async false

namespace Sys2Proof.Machine

@[simp] theorem vset_self {α : Type} {n : Nat} (v : Vector α n) (i : Fin n) (x : α) : (vset v i x)[i] = x := by
  simp [vset]

theorem vset_other {α : Type} {n : Nat} (v : Vector α n) {i j : Fin n} (x : α) (h : j ≠ i) : (vset v i x)[j] = v[j] := by
  have k : i.val ≠ j.val := fun e => h (Fin.ext e.symm)
  simp [vset, k]

@[simp] theorem vmod_self {α : Type} {n : Nat} (v : Vector α n) (i : Fin n) (f : α → α) : (vmod v i f)[i] = f v[i] :=
  vset_self _ _ _

theorem vmod_other {α : Type} {n : Nat} (v : Vector α n) {i j : Fin n} (f : α → α) (h : j ≠ i) : (vmod v i f)[j] = v[j] :=
  vset_other _ _ h

/-- The same laws where the number of the entry is written as a Nat, as simp leaves it. -/
@[simp] theorem vset_val {α : Type} {n : Nat} (v : Vector α n) (i : Fin n) (x : α) : (vset v i x)[i.val] = x := vset_self v i x

@[simp] theorem vmod_val {α : Type} {n : Nat} (v : Vector α n) (i : Fin n) (f : α → α) : (vmod v i f)[i.val] = f v[i.val] :=
  vset_self v i _

/-- An entry after a change, whichever entry was changed. -/
theorem vmod_get {α : Type} {n : Nat} (v : Vector α n) (i j : Fin n) (f : α → α) :
    (vmod v i f)[j] = if j = i then f v[j] else v[j] := by
  split
  · rename_i h; subst h; exact vmod_self _ _ _
  · rename_i h; exact vmod_other _ _ h

theorem bit_setBit_true {n : Nat} (w : BitVec n) (i j : Nat) (h : bit w j = true) : bit (setBit w i true) j = true := by
  unfold bit setBit at *
  simp [h]

end Sys2Proof.Machine
end

