-- ==== Sys2Proof/Laws/State.lean ====
section
/-!
SUPPORT. Each field of the state after each of the updaters of Machine/Ops.lean.
-/

set_option Elab.async false

namespace Sys2Proof.Machine

@[simp] theorem State.modArray_fuse (s : State) (a : ArrayId) (f : ArrayState → ArrayState) : (s.modArray a f).fuse = s.fuse := rfl
@[simp] theorem State.modArray_inReset (s : State) (a : ArrayId) (f : ArrayState → ArrayState) : (s.modArray a f).inReset = s.inReset := rfl
@[simp] theorem State.modArray_retired (s : State) (a : ArrayId) (f : ArrayState → ArrayState) : (s.modArray a f).retired = s.retired := rfl
@[simp] theorem State.modArray_stage (s : State) (a : ArrayId) (f : ArrayState → ArrayState) : (s.modArray a f).stage = s.stage := rfl
@[simp] theorem State.modArray_bootMs (s : State) (a : ArrayId) (f : ArrayState → ArrayState) : (s.modArray a f).bootMs = s.bootMs := rfl
@[simp] theorem State.modArray_sclk (s : State) (a : ArrayId) (f : ArrayState → ArrayState) : (s.modArray a f).sclk = s.sclk := rfl
@[simp] theorem State.modArray_pins (s : State) (a : ArrayId) (f : ArrayState → ArrayState) : (s.modArray a f).pins = s.pins := rfl
@[simp] theorem State.modArray_side (s : State) (a : ArrayId) (f : ArrayState → ArrayState) : (s.modArray a f).side = s.side := rfl
@[simp] theorem State.modArray_siteSlot (s : State) (a : ArrayId) (f : ArrayState → ArrayState) : (s.modArray a f).siteSlot = s.siteSlot := rfl
@[simp] theorem State.modArray_fields (s : State) (a : ArrayId) (f : ArrayState → ArrayState) : (s.modArray a f).fields = s.fields := rfl
@[simp] theorem State.modArray_hbm (s : State) (a : ArrayId) (f : ArrayState → ArrayState) : (s.modArray a f).hbm = s.hbm := rfl
@[simp] theorem State.modArray_mem (s : State) (a : ArrayId) (f : ArrayState → ArrayState) : (s.modArray a f).mem = s.mem := rfl
@[simp] theorem State.modArray_net (s : State) (a : ArrayId) (f : ArrayState → ArrayState) : (s.modArray a f).net = s.net := rfl
@[simp] theorem State.modArray_coh (s : State) (a : ArrayId) (f : ArrayState → ArrayState) : (s.modArray a f).coh = s.coh := rfl
@[simp] theorem State.modArray_sites (s : State) (a : ArrayId) (f : ArrayState → ArrayState) : (s.modArray a f).sites = s.sites := rfl
@[simp] theorem State.modArray_ports (s : State) (a : ArrayId) (f : ArrayState → ArrayState) : (s.modArray a f).ports = s.ports := rfl
@[simp] theorem State.modArray_img (s : State) (a : ArrayId) (f : ArrayState → ArrayState) : (s.modArray a f).img = s.img := rfl
@[simp] theorem State.modArray_pnl (s : State) (a : ArrayId) (f : ArrayState → ArrayState) : (s.modArray a f).pnl = s.pnl := rfl
@[simp] theorem State.modArray_lcs (s : State) (a : ArrayId) (f : ArrayState → ArrayState) : (s.modArray a f).lcs = s.lcs := rfl
@[simp] theorem State.modArray_ras (s : State) (a : ArrayId) (f : ArrayState → ArrayState) : (s.modArray a f).ras = s.ras := rfl
@[simp] theorem State.modArray_twin (s : State) (a : ArrayId) (f : ArrayState → ArrayState) : (s.modArray a f).twin = s.twin := rfl
@[simp] theorem State.modArray_lines (s : State) (a : ArrayId) (f : ArrayState → ArrayState) : (s.modArray a f).lines = s.lines := rfl
@[simp] theorem State.modArray_clk (s : State) (a : ArrayId) (f : ArrayState → ArrayState) : (s.modArray a f).clk = s.clk := rfl
@[simp] theorem State.modArray_pwr (s : State) (a : ArrayId) (f : ArrayState → ArrayState) : (s.modArray a f).pwr = s.pwr := rfl
@[simp] theorem State.modArray_heldLow (s : State) (a : ArrayId) (f : ArrayState → ArrayState) : (s.modArray a f).heldLow = s.heldLow := rfl
@[simp] theorem State.modArray_latched (s : State) (a : ArrayId) (f : ArrayState → ArrayState) : (s.modArray a f).latched = s.latched := rfl
@[simp] theorem State.modArray_draws (s : State) (a : ArrayId) (f : ArrayState → ArrayState) : (s.modArray a f).draws = s.draws := rfl
@[simp] theorem State.modArray_out (s : State) (a : ArrayId) (f : ArrayState → ArrayState) : (s.modArray a f).out = s.out := rfl
@[simp] theorem State.modArray_pending (s : State) (a : ArrayId) (f : ArrayState → ArrayState) : (s.modArray a f).pending = s.pending := rfl
@[simp] theorem State.modArray_arrays (s : State) (a : ArrayId) (f : ArrayState → ArrayState) : (s.modArray a f).arrays = vmod s.arrays a f := rfl

@[simp] theorem State.modCube_fuse (s : State) (a : ArrayId) (f : CubeState → CubeState) : (s.modCube a f).fuse = s.fuse := rfl
@[simp] theorem State.modCube_inReset (s : State) (a : ArrayId) (f : CubeState → CubeState) : (s.modCube a f).inReset = s.inReset := rfl
@[simp] theorem State.modCube_retired (s : State) (a : ArrayId) (f : CubeState → CubeState) : (s.modCube a f).retired = s.retired := rfl
@[simp] theorem State.modCube_stage (s : State) (a : ArrayId) (f : CubeState → CubeState) : (s.modCube a f).stage = s.stage := rfl
@[simp] theorem State.modCube_bootMs (s : State) (a : ArrayId) (f : CubeState → CubeState) : (s.modCube a f).bootMs = s.bootMs := rfl
@[simp] theorem State.modCube_sclk (s : State) (a : ArrayId) (f : CubeState → CubeState) : (s.modCube a f).sclk = s.sclk := rfl
@[simp] theorem State.modCube_pins (s : State) (a : ArrayId) (f : CubeState → CubeState) : (s.modCube a f).pins = s.pins := rfl
@[simp] theorem State.modCube_side (s : State) (a : ArrayId) (f : CubeState → CubeState) : (s.modCube a f).side = s.side := rfl
@[simp] theorem State.modCube_siteSlot (s : State) (a : ArrayId) (f : CubeState → CubeState) : (s.modCube a f).siteSlot = s.siteSlot := rfl
@[simp] theorem State.modCube_fields (s : State) (a : ArrayId) (f : CubeState → CubeState) : (s.modCube a f).fields = s.fields := rfl
@[simp] theorem State.modCube_hbm (s : State) (a : ArrayId) (f : CubeState → CubeState) : (s.modCube a f).hbm = s.hbm := rfl
@[simp] theorem State.modCube_mem (s : State) (a : ArrayId) (f : CubeState → CubeState) : (s.modCube a f).mem = s.mem := rfl
@[simp] theorem State.modCube_net (s : State) (a : ArrayId) (f : CubeState → CubeState) : (s.modCube a f).net = s.net := rfl
@[simp] theorem State.modCube_coh (s : State) (a : ArrayId) (f : CubeState → CubeState) : (s.modCube a f).coh = s.coh := rfl
@[simp] theorem State.modCube_sites (s : State) (a : ArrayId) (f : CubeState → CubeState) : (s.modCube a f).sites = s.sites := rfl
@[simp] theorem State.modCube_ports (s : State) (a : ArrayId) (f : CubeState → CubeState) : (s.modCube a f).ports = s.ports := rfl
@[simp] theorem State.modCube_img (s : State) (a : ArrayId) (f : CubeState → CubeState) : (s.modCube a f).img = s.img := rfl
@[simp] theorem State.modCube_pnl (s : State) (a : ArrayId) (f : CubeState → CubeState) : (s.modCube a f).pnl = s.pnl := rfl
@[simp] theorem State.modCube_lcs (s : State) (a : ArrayId) (f : CubeState → CubeState) : (s.modCube a f).lcs = s.lcs := rfl
@[simp] theorem State.modCube_ras (s : State) (a : ArrayId) (f : CubeState → CubeState) : (s.modCube a f).ras = s.ras := rfl
@[simp] theorem State.modCube_twin (s : State) (a : ArrayId) (f : CubeState → CubeState) : (s.modCube a f).twin = s.twin := rfl
@[simp] theorem State.modCube_lines (s : State) (a : ArrayId) (f : CubeState → CubeState) : (s.modCube a f).lines = s.lines := rfl
@[simp] theorem State.modCube_clk (s : State) (a : ArrayId) (f : CubeState → CubeState) : (s.modCube a f).clk = s.clk := rfl
@[simp] theorem State.modCube_pwr (s : State) (a : ArrayId) (f : CubeState → CubeState) : (s.modCube a f).pwr = s.pwr := rfl
@[simp] theorem State.modCube_heldLow (s : State) (a : ArrayId) (f : CubeState → CubeState) : (s.modCube a f).heldLow = s.heldLow := rfl
@[simp] theorem State.modCube_latched (s : State) (a : ArrayId) (f : CubeState → CubeState) : (s.modCube a f).latched = s.latched := rfl
@[simp] theorem State.modCube_draws (s : State) (a : ArrayId) (f : CubeState → CubeState) : (s.modCube a f).draws = s.draws := rfl
@[simp] theorem State.modCube_out (s : State) (a : ArrayId) (f : CubeState → CubeState) : (s.modCube a f).out = s.out := rfl
@[simp] theorem State.modCube_pending (s : State) (a : ArrayId) (f : CubeState → CubeState) : (s.modCube a f).pending = s.pending := rfl
@[simp] theorem State.modCube_arrays (s : State) (a : ArrayId) (f : CubeState → CubeState) : (s.modCube a f).arrays = vmod s.arrays a fun x => { x with cube := f x.cube } := rfl

@[simp] theorem State.modSeq_fuse (s : State) (a : ArrayId) (f : SeqState → SeqState) : (s.modSeq a f).fuse = s.fuse := rfl
@[simp] theorem State.modSeq_inReset (s : State) (a : ArrayId) (f : SeqState → SeqState) : (s.modSeq a f).inReset = s.inReset := rfl
@[simp] theorem State.modSeq_retired (s : State) (a : ArrayId) (f : SeqState → SeqState) : (s.modSeq a f).retired = s.retired := rfl
@[simp] theorem State.modSeq_stage (s : State) (a : ArrayId) (f : SeqState → SeqState) : (s.modSeq a f).stage = s.stage := rfl
@[simp] theorem State.modSeq_bootMs (s : State) (a : ArrayId) (f : SeqState → SeqState) : (s.modSeq a f).bootMs = s.bootMs := rfl
@[simp] theorem State.modSeq_sclk (s : State) (a : ArrayId) (f : SeqState → SeqState) : (s.modSeq a f).sclk = s.sclk := rfl
@[simp] theorem State.modSeq_pins (s : State) (a : ArrayId) (f : SeqState → SeqState) : (s.modSeq a f).pins = s.pins := rfl
@[simp] theorem State.modSeq_side (s : State) (a : ArrayId) (f : SeqState → SeqState) : (s.modSeq a f).side = s.side := rfl
@[simp] theorem State.modSeq_siteSlot (s : State) (a : ArrayId) (f : SeqState → SeqState) : (s.modSeq a f).siteSlot = s.siteSlot := rfl
@[simp] theorem State.modSeq_fields (s : State) (a : ArrayId) (f : SeqState → SeqState) : (s.modSeq a f).fields = s.fields := rfl
@[simp] theorem State.modSeq_hbm (s : State) (a : ArrayId) (f : SeqState → SeqState) : (s.modSeq a f).hbm = s.hbm := rfl
@[simp] theorem State.modSeq_mem (s : State) (a : ArrayId) (f : SeqState → SeqState) : (s.modSeq a f).mem = s.mem := rfl
@[simp] theorem State.modSeq_net (s : State) (a : ArrayId) (f : SeqState → SeqState) : (s.modSeq a f).net = s.net := rfl
@[simp] theorem State.modSeq_coh (s : State) (a : ArrayId) (f : SeqState → SeqState) : (s.modSeq a f).coh = s.coh := rfl
@[simp] theorem State.modSeq_sites (s : State) (a : ArrayId) (f : SeqState → SeqState) : (s.modSeq a f).sites = s.sites := rfl
@[simp] theorem State.modSeq_ports (s : State) (a : ArrayId) (f : SeqState → SeqState) : (s.modSeq a f).ports = s.ports := rfl
@[simp] theorem State.modSeq_img (s : State) (a : ArrayId) (f : SeqState → SeqState) : (s.modSeq a f).img = s.img := rfl
@[simp] theorem State.modSeq_pnl (s : State) (a : ArrayId) (f : SeqState → SeqState) : (s.modSeq a f).pnl = s.pnl := rfl
@[simp] theorem State.modSeq_lcs (s : State) (a : ArrayId) (f : SeqState → SeqState) : (s.modSeq a f).lcs = s.lcs := rfl
@[simp] theorem State.modSeq_ras (s : State) (a : ArrayId) (f : SeqState → SeqState) : (s.modSeq a f).ras = s.ras := rfl
@[simp] theorem State.modSeq_twin (s : State) (a : ArrayId) (f : SeqState → SeqState) : (s.modSeq a f).twin = s.twin := rfl
@[simp] theorem State.modSeq_lines (s : State) (a : ArrayId) (f : SeqState → SeqState) : (s.modSeq a f).lines = s.lines := rfl
@[simp] theorem State.modSeq_clk (s : State) (a : ArrayId) (f : SeqState → SeqState) : (s.modSeq a f).clk = s.clk := rfl
@[simp] theorem State.modSeq_pwr (s : State) (a : ArrayId) (f : SeqState → SeqState) : (s.modSeq a f).pwr = s.pwr := rfl
@[simp] theorem State.modSeq_heldLow (s : State) (a : ArrayId) (f : SeqState → SeqState) : (s.modSeq a f).heldLow = s.heldLow := rfl
@[simp] theorem State.modSeq_latched (s : State) (a : ArrayId) (f : SeqState → SeqState) : (s.modSeq a f).latched = s.latched := rfl
@[simp] theorem State.modSeq_draws (s : State) (a : ArrayId) (f : SeqState → SeqState) : (s.modSeq a f).draws = s.draws := rfl
@[simp] theorem State.modSeq_out (s : State) (a : ArrayId) (f : SeqState → SeqState) : (s.modSeq a f).out = s.out := rfl
@[simp] theorem State.modSeq_pending (s : State) (a : ArrayId) (f : SeqState → SeqState) : (s.modSeq a f).pending = s.pending := rfl
@[simp] theorem State.modSeq_arrays (s : State) (a : ArrayId) (f : SeqState → SeqState) : (s.modSeq a f).arrays = vmod s.arrays a fun x => { x with seq := f x.seq } := rfl

@[simp] theorem State.modVec_fuse (s : State) (a : ArrayId) (f : VecState → VecState) : (s.modVec a f).fuse = s.fuse := rfl
@[simp] theorem State.modVec_inReset (s : State) (a : ArrayId) (f : VecState → VecState) : (s.modVec a f).inReset = s.inReset := rfl
@[simp] theorem State.modVec_retired (s : State) (a : ArrayId) (f : VecState → VecState) : (s.modVec a f).retired = s.retired := rfl
@[simp] theorem State.modVec_stage (s : State) (a : ArrayId) (f : VecState → VecState) : (s.modVec a f).stage = s.stage := rfl
@[simp] theorem State.modVec_bootMs (s : State) (a : ArrayId) (f : VecState → VecState) : (s.modVec a f).bootMs = s.bootMs := rfl
@[simp] theorem State.modVec_sclk (s : State) (a : ArrayId) (f : VecState → VecState) : (s.modVec a f).sclk = s.sclk := rfl
@[simp] theorem State.modVec_pins (s : State) (a : ArrayId) (f : VecState → VecState) : (s.modVec a f).pins = s.pins := rfl
@[simp] theorem State.modVec_side (s : State) (a : ArrayId) (f : VecState → VecState) : (s.modVec a f).side = s.side := rfl
@[simp] theorem State.modVec_siteSlot (s : State) (a : ArrayId) (f : VecState → VecState) : (s.modVec a f).siteSlot = s.siteSlot := rfl
@[simp] theorem State.modVec_fields (s : State) (a : ArrayId) (f : VecState → VecState) : (s.modVec a f).fields = s.fields := rfl
@[simp] theorem State.modVec_hbm (s : State) (a : ArrayId) (f : VecState → VecState) : (s.modVec a f).hbm = s.hbm := rfl
@[simp] theorem State.modVec_mem (s : State) (a : ArrayId) (f : VecState → VecState) : (s.modVec a f).mem = s.mem := rfl
@[simp] theorem State.modVec_net (s : State) (a : ArrayId) (f : VecState → VecState) : (s.modVec a f).net = s.net := rfl
@[simp] theorem State.modVec_coh (s : State) (a : ArrayId) (f : VecState → VecState) : (s.modVec a f).coh = s.coh := rfl
@[simp] theorem State.modVec_sites (s : State) (a : ArrayId) (f : VecState → VecState) : (s.modVec a f).sites = s.sites := rfl
@[simp] theorem State.modVec_ports (s : State) (a : ArrayId) (f : VecState → VecState) : (s.modVec a f).ports = s.ports := rfl
@[simp] theorem State.modVec_img (s : State) (a : ArrayId) (f : VecState → VecState) : (s.modVec a f).img = s.img := rfl
@[simp] theorem State.modVec_pnl (s : State) (a : ArrayId) (f : VecState → VecState) : (s.modVec a f).pnl = s.pnl := rfl
@[simp] theorem State.modVec_lcs (s : State) (a : ArrayId) (f : VecState → VecState) : (s.modVec a f).lcs = s.lcs := rfl
@[simp] theorem State.modVec_ras (s : State) (a : ArrayId) (f : VecState → VecState) : (s.modVec a f).ras = s.ras := rfl
@[simp] theorem State.modVec_twin (s : State) (a : ArrayId) (f : VecState → VecState) : (s.modVec a f).twin = s.twin := rfl
@[simp] theorem State.modVec_lines (s : State) (a : ArrayId) (f : VecState → VecState) : (s.modVec a f).lines = s.lines := rfl
@[simp] theorem State.modVec_clk (s : State) (a : ArrayId) (f : VecState → VecState) : (s.modVec a f).clk = s.clk := rfl
@[simp] theorem State.modVec_pwr (s : State) (a : ArrayId) (f : VecState → VecState) : (s.modVec a f).pwr = s.pwr := rfl
@[simp] theorem State.modVec_heldLow (s : State) (a : ArrayId) (f : VecState → VecState) : (s.modVec a f).heldLow = s.heldLow := rfl
@[simp] theorem State.modVec_latched (s : State) (a : ArrayId) (f : VecState → VecState) : (s.modVec a f).latched = s.latched := rfl
@[simp] theorem State.modVec_draws (s : State) (a : ArrayId) (f : VecState → VecState) : (s.modVec a f).draws = s.draws := rfl
@[simp] theorem State.modVec_out (s : State) (a : ArrayId) (f : VecState → VecState) : (s.modVec a f).out = s.out := rfl
@[simp] theorem State.modVec_pending (s : State) (a : ArrayId) (f : VecState → VecState) : (s.modVec a f).pending = s.pending := rfl
@[simp] theorem State.modVec_arrays (s : State) (a : ArrayId) (f : VecState → VecState) : (s.modVec a f).arrays = vmod s.arrays a fun x => { x with vec := f x.vec } := rfl

@[simp] theorem State.modField_fuse (s : State) (i : FieldId) (f : FieldState → FieldState) : (s.modField i f).fuse = s.fuse := rfl
@[simp] theorem State.modField_inReset (s : State) (i : FieldId) (f : FieldState → FieldState) : (s.modField i f).inReset = s.inReset := rfl
@[simp] theorem State.modField_retired (s : State) (i : FieldId) (f : FieldState → FieldState) : (s.modField i f).retired = s.retired := rfl
@[simp] theorem State.modField_stage (s : State) (i : FieldId) (f : FieldState → FieldState) : (s.modField i f).stage = s.stage := rfl
@[simp] theorem State.modField_bootMs (s : State) (i : FieldId) (f : FieldState → FieldState) : (s.modField i f).bootMs = s.bootMs := rfl
@[simp] theorem State.modField_sclk (s : State) (i : FieldId) (f : FieldState → FieldState) : (s.modField i f).sclk = s.sclk := rfl
@[simp] theorem State.modField_pins (s : State) (i : FieldId) (f : FieldState → FieldState) : (s.modField i f).pins = s.pins := rfl
@[simp] theorem State.modField_side (s : State) (i : FieldId) (f : FieldState → FieldState) : (s.modField i f).side = s.side := rfl
@[simp] theorem State.modField_siteSlot (s : State) (i : FieldId) (f : FieldState → FieldState) : (s.modField i f).siteSlot = s.siteSlot := rfl
@[simp] theorem State.modField_arrays (s : State) (i : FieldId) (f : FieldState → FieldState) : (s.modField i f).arrays = s.arrays := rfl
@[simp] theorem State.modField_hbm (s : State) (i : FieldId) (f : FieldState → FieldState) : (s.modField i f).hbm = s.hbm := rfl
@[simp] theorem State.modField_mem (s : State) (i : FieldId) (f : FieldState → FieldState) : (s.modField i f).mem = s.mem := rfl
@[simp] theorem State.modField_net (s : State) (i : FieldId) (f : FieldState → FieldState) : (s.modField i f).net = s.net := rfl
@[simp] theorem State.modField_coh (s : State) (i : FieldId) (f : FieldState → FieldState) : (s.modField i f).coh = s.coh := rfl
@[simp] theorem State.modField_sites (s : State) (i : FieldId) (f : FieldState → FieldState) : (s.modField i f).sites = s.sites := rfl
@[simp] theorem State.modField_ports (s : State) (i : FieldId) (f : FieldState → FieldState) : (s.modField i f).ports = s.ports := rfl
@[simp] theorem State.modField_img (s : State) (i : FieldId) (f : FieldState → FieldState) : (s.modField i f).img = s.img := rfl
@[simp] theorem State.modField_pnl (s : State) (i : FieldId) (f : FieldState → FieldState) : (s.modField i f).pnl = s.pnl := rfl
@[simp] theorem State.modField_lcs (s : State) (i : FieldId) (f : FieldState → FieldState) : (s.modField i f).lcs = s.lcs := rfl
@[simp] theorem State.modField_ras (s : State) (i : FieldId) (f : FieldState → FieldState) : (s.modField i f).ras = s.ras := rfl
@[simp] theorem State.modField_twin (s : State) (i : FieldId) (f : FieldState → FieldState) : (s.modField i f).twin = s.twin := rfl
@[simp] theorem State.modField_lines (s : State) (i : FieldId) (f : FieldState → FieldState) : (s.modField i f).lines = s.lines := rfl
@[simp] theorem State.modField_clk (s : State) (i : FieldId) (f : FieldState → FieldState) : (s.modField i f).clk = s.clk := rfl
@[simp] theorem State.modField_pwr (s : State) (i : FieldId) (f : FieldState → FieldState) : (s.modField i f).pwr = s.pwr := rfl
@[simp] theorem State.modField_heldLow (s : State) (i : FieldId) (f : FieldState → FieldState) : (s.modField i f).heldLow = s.heldLow := rfl
@[simp] theorem State.modField_latched (s : State) (i : FieldId) (f : FieldState → FieldState) : (s.modField i f).latched = s.latched := rfl
@[simp] theorem State.modField_draws (s : State) (i : FieldId) (f : FieldState → FieldState) : (s.modField i f).draws = s.draws := rfl
@[simp] theorem State.modField_out (s : State) (i : FieldId) (f : FieldState → FieldState) : (s.modField i f).out = s.out := rfl
@[simp] theorem State.modField_pending (s : State) (i : FieldId) (f : FieldState → FieldState) : (s.modField i f).pending = s.pending := rfl
@[simp] theorem State.modField_fields (s : State) (i : FieldId) (f : FieldState → FieldState) : (s.modField i f).fields = vmod s.fields i f := rfl

@[simp] theorem State.modFt_fuse (s : State) (i : FieldId) (f : FtState → FtState) : (s.modFt i f).fuse = s.fuse := rfl
@[simp] theorem State.modFt_inReset (s : State) (i : FieldId) (f : FtState → FtState) : (s.modFt i f).inReset = s.inReset := rfl
@[simp] theorem State.modFt_retired (s : State) (i : FieldId) (f : FtState → FtState) : (s.modFt i f).retired = s.retired := rfl
@[simp] theorem State.modFt_stage (s : State) (i : FieldId) (f : FtState → FtState) : (s.modFt i f).stage = s.stage := rfl
@[simp] theorem State.modFt_bootMs (s : State) (i : FieldId) (f : FtState → FtState) : (s.modFt i f).bootMs = s.bootMs := rfl
@[simp] theorem State.modFt_sclk (s : State) (i : FieldId) (f : FtState → FtState) : (s.modFt i f).sclk = s.sclk := rfl
@[simp] theorem State.modFt_pins (s : State) (i : FieldId) (f : FtState → FtState) : (s.modFt i f).pins = s.pins := rfl
@[simp] theorem State.modFt_side (s : State) (i : FieldId) (f : FtState → FtState) : (s.modFt i f).side = s.side := rfl
@[simp] theorem State.modFt_siteSlot (s : State) (i : FieldId) (f : FtState → FtState) : (s.modFt i f).siteSlot = s.siteSlot := rfl
@[simp] theorem State.modFt_arrays (s : State) (i : FieldId) (f : FtState → FtState) : (s.modFt i f).arrays = s.arrays := rfl
@[simp] theorem State.modFt_hbm (s : State) (i : FieldId) (f : FtState → FtState) : (s.modFt i f).hbm = s.hbm := rfl
@[simp] theorem State.modFt_mem (s : State) (i : FieldId) (f : FtState → FtState) : (s.modFt i f).mem = s.mem := rfl
@[simp] theorem State.modFt_net (s : State) (i : FieldId) (f : FtState → FtState) : (s.modFt i f).net = s.net := rfl
@[simp] theorem State.modFt_coh (s : State) (i : FieldId) (f : FtState → FtState) : (s.modFt i f).coh = s.coh := rfl
@[simp] theorem State.modFt_sites (s : State) (i : FieldId) (f : FtState → FtState) : (s.modFt i f).sites = s.sites := rfl
@[simp] theorem State.modFt_ports (s : State) (i : FieldId) (f : FtState → FtState) : (s.modFt i f).ports = s.ports := rfl
@[simp] theorem State.modFt_img (s : State) (i : FieldId) (f : FtState → FtState) : (s.modFt i f).img = s.img := rfl
@[simp] theorem State.modFt_pnl (s : State) (i : FieldId) (f : FtState → FtState) : (s.modFt i f).pnl = s.pnl := rfl
@[simp] theorem State.modFt_lcs (s : State) (i : FieldId) (f : FtState → FtState) : (s.modFt i f).lcs = s.lcs := rfl
@[simp] theorem State.modFt_ras (s : State) (i : FieldId) (f : FtState → FtState) : (s.modFt i f).ras = s.ras := rfl
@[simp] theorem State.modFt_twin (s : State) (i : FieldId) (f : FtState → FtState) : (s.modFt i f).twin = s.twin := rfl
@[simp] theorem State.modFt_lines (s : State) (i : FieldId) (f : FtState → FtState) : (s.modFt i f).lines = s.lines := rfl
@[simp] theorem State.modFt_clk (s : State) (i : FieldId) (f : FtState → FtState) : (s.modFt i f).clk = s.clk := rfl
@[simp] theorem State.modFt_pwr (s : State) (i : FieldId) (f : FtState → FtState) : (s.modFt i f).pwr = s.pwr := rfl
@[simp] theorem State.modFt_heldLow (s : State) (i : FieldId) (f : FtState → FtState) : (s.modFt i f).heldLow = s.heldLow := rfl
@[simp] theorem State.modFt_latched (s : State) (i : FieldId) (f : FtState → FtState) : (s.modFt i f).latched = s.latched := rfl
@[simp] theorem State.modFt_draws (s : State) (i : FieldId) (f : FtState → FtState) : (s.modFt i f).draws = s.draws := rfl
@[simp] theorem State.modFt_out (s : State) (i : FieldId) (f : FtState → FtState) : (s.modFt i f).out = s.out := rfl
@[simp] theorem State.modFt_pending (s : State) (i : FieldId) (f : FtState → FtState) : (s.modFt i f).pending = s.pending := rfl
@[simp] theorem State.modFt_fields (s : State) (i : FieldId) (f : FtState → FtState) : (s.modFt i f).fields = vmod s.fields i fun x => { x with ft := f x.ft } := rfl

@[simp] theorem State.modTu_fuse (s : State) (i : FieldId) (f : TuState → TuState) : (s.modTu i f).fuse = s.fuse := rfl
@[simp] theorem State.modTu_inReset (s : State) (i : FieldId) (f : TuState → TuState) : (s.modTu i f).inReset = s.inReset := rfl
@[simp] theorem State.modTu_retired (s : State) (i : FieldId) (f : TuState → TuState) : (s.modTu i f).retired = s.retired := rfl
@[simp] theorem State.modTu_stage (s : State) (i : FieldId) (f : TuState → TuState) : (s.modTu i f).stage = s.stage := rfl
@[simp] theorem State.modTu_bootMs (s : State) (i : FieldId) (f : TuState → TuState) : (s.modTu i f).bootMs = s.bootMs := rfl
@[simp] theorem State.modTu_sclk (s : State) (i : FieldId) (f : TuState → TuState) : (s.modTu i f).sclk = s.sclk := rfl
@[simp] theorem State.modTu_pins (s : State) (i : FieldId) (f : TuState → TuState) : (s.modTu i f).pins = s.pins := rfl
@[simp] theorem State.modTu_side (s : State) (i : FieldId) (f : TuState → TuState) : (s.modTu i f).side = s.side := rfl
@[simp] theorem State.modTu_siteSlot (s : State) (i : FieldId) (f : TuState → TuState) : (s.modTu i f).siteSlot = s.siteSlot := rfl
@[simp] theorem State.modTu_arrays (s : State) (i : FieldId) (f : TuState → TuState) : (s.modTu i f).arrays = s.arrays := rfl
@[simp] theorem State.modTu_hbm (s : State) (i : FieldId) (f : TuState → TuState) : (s.modTu i f).hbm = s.hbm := rfl
@[simp] theorem State.modTu_mem (s : State) (i : FieldId) (f : TuState → TuState) : (s.modTu i f).mem = s.mem := rfl
@[simp] theorem State.modTu_net (s : State) (i : FieldId) (f : TuState → TuState) : (s.modTu i f).net = s.net := rfl
@[simp] theorem State.modTu_coh (s : State) (i : FieldId) (f : TuState → TuState) : (s.modTu i f).coh = s.coh := rfl
@[simp] theorem State.modTu_sites (s : State) (i : FieldId) (f : TuState → TuState) : (s.modTu i f).sites = s.sites := rfl
@[simp] theorem State.modTu_ports (s : State) (i : FieldId) (f : TuState → TuState) : (s.modTu i f).ports = s.ports := rfl
@[simp] theorem State.modTu_img (s : State) (i : FieldId) (f : TuState → TuState) : (s.modTu i f).img = s.img := rfl
@[simp] theorem State.modTu_pnl (s : State) (i : FieldId) (f : TuState → TuState) : (s.modTu i f).pnl = s.pnl := rfl
@[simp] theorem State.modTu_lcs (s : State) (i : FieldId) (f : TuState → TuState) : (s.modTu i f).lcs = s.lcs := rfl
@[simp] theorem State.modTu_ras (s : State) (i : FieldId) (f : TuState → TuState) : (s.modTu i f).ras = s.ras := rfl
@[simp] theorem State.modTu_twin (s : State) (i : FieldId) (f : TuState → TuState) : (s.modTu i f).twin = s.twin := rfl
@[simp] theorem State.modTu_lines (s : State) (i : FieldId) (f : TuState → TuState) : (s.modTu i f).lines = s.lines := rfl
@[simp] theorem State.modTu_clk (s : State) (i : FieldId) (f : TuState → TuState) : (s.modTu i f).clk = s.clk := rfl
@[simp] theorem State.modTu_pwr (s : State) (i : FieldId) (f : TuState → TuState) : (s.modTu i f).pwr = s.pwr := rfl
@[simp] theorem State.modTu_heldLow (s : State) (i : FieldId) (f : TuState → TuState) : (s.modTu i f).heldLow = s.heldLow := rfl
@[simp] theorem State.modTu_latched (s : State) (i : FieldId) (f : TuState → TuState) : (s.modTu i f).latched = s.latched := rfl
@[simp] theorem State.modTu_draws (s : State) (i : FieldId) (f : TuState → TuState) : (s.modTu i f).draws = s.draws := rfl
@[simp] theorem State.modTu_out (s : State) (i : FieldId) (f : TuState → TuState) : (s.modTu i f).out = s.out := rfl
@[simp] theorem State.modTu_pending (s : State) (i : FieldId) (f : TuState → TuState) : (s.modTu i f).pending = s.pending := rfl
@[simp] theorem State.modTu_fields (s : State) (i : FieldId) (f : TuState → TuState) : (s.modTu i f).fields = vmod s.fields i fun x => { x with tu := f x.tu } := rfl

@[simp] theorem State.modStack_fuse (s : State) (k : StackId) (f : StackState → StackState) : (s.modStack k f).fuse = s.fuse := rfl
@[simp] theorem State.modStack_inReset (s : State) (k : StackId) (f : StackState → StackState) : (s.modStack k f).inReset = s.inReset := rfl
@[simp] theorem State.modStack_retired (s : State) (k : StackId) (f : StackState → StackState) : (s.modStack k f).retired = s.retired := rfl
@[simp] theorem State.modStack_stage (s : State) (k : StackId) (f : StackState → StackState) : (s.modStack k f).stage = s.stage := rfl
@[simp] theorem State.modStack_bootMs (s : State) (k : StackId) (f : StackState → StackState) : (s.modStack k f).bootMs = s.bootMs := rfl
@[simp] theorem State.modStack_sclk (s : State) (k : StackId) (f : StackState → StackState) : (s.modStack k f).sclk = s.sclk := rfl
@[simp] theorem State.modStack_pins (s : State) (k : StackId) (f : StackState → StackState) : (s.modStack k f).pins = s.pins := rfl
@[simp] theorem State.modStack_side (s : State) (k : StackId) (f : StackState → StackState) : (s.modStack k f).side = s.side := rfl
@[simp] theorem State.modStack_siteSlot (s : State) (k : StackId) (f : StackState → StackState) : (s.modStack k f).siteSlot = s.siteSlot := rfl
@[simp] theorem State.modStack_arrays (s : State) (k : StackId) (f : StackState → StackState) : (s.modStack k f).arrays = s.arrays := rfl
@[simp] theorem State.modStack_fields (s : State) (k : StackId) (f : StackState → StackState) : (s.modStack k f).fields = s.fields := rfl
@[simp] theorem State.modStack_mem (s : State) (k : StackId) (f : StackState → StackState) : (s.modStack k f).mem = s.mem := rfl
@[simp] theorem State.modStack_net (s : State) (k : StackId) (f : StackState → StackState) : (s.modStack k f).net = s.net := rfl
@[simp] theorem State.modStack_coh (s : State) (k : StackId) (f : StackState → StackState) : (s.modStack k f).coh = s.coh := rfl
@[simp] theorem State.modStack_sites (s : State) (k : StackId) (f : StackState → StackState) : (s.modStack k f).sites = s.sites := rfl
@[simp] theorem State.modStack_ports (s : State) (k : StackId) (f : StackState → StackState) : (s.modStack k f).ports = s.ports := rfl
@[simp] theorem State.modStack_img (s : State) (k : StackId) (f : StackState → StackState) : (s.modStack k f).img = s.img := rfl
@[simp] theorem State.modStack_pnl (s : State) (k : StackId) (f : StackState → StackState) : (s.modStack k f).pnl = s.pnl := rfl
@[simp] theorem State.modStack_lcs (s : State) (k : StackId) (f : StackState → StackState) : (s.modStack k f).lcs = s.lcs := rfl
@[simp] theorem State.modStack_ras (s : State) (k : StackId) (f : StackState → StackState) : (s.modStack k f).ras = s.ras := rfl
@[simp] theorem State.modStack_twin (s : State) (k : StackId) (f : StackState → StackState) : (s.modStack k f).twin = s.twin := rfl
@[simp] theorem State.modStack_lines (s : State) (k : StackId) (f : StackState → StackState) : (s.modStack k f).lines = s.lines := rfl
@[simp] theorem State.modStack_clk (s : State) (k : StackId) (f : StackState → StackState) : (s.modStack k f).clk = s.clk := rfl
@[simp] theorem State.modStack_pwr (s : State) (k : StackId) (f : StackState → StackState) : (s.modStack k f).pwr = s.pwr := rfl
@[simp] theorem State.modStack_heldLow (s : State) (k : StackId) (f : StackState → StackState) : (s.modStack k f).heldLow = s.heldLow := rfl
@[simp] theorem State.modStack_latched (s : State) (k : StackId) (f : StackState → StackState) : (s.modStack k f).latched = s.latched := rfl
@[simp] theorem State.modStack_draws (s : State) (k : StackId) (f : StackState → StackState) : (s.modStack k f).draws = s.draws := rfl
@[simp] theorem State.modStack_out (s : State) (k : StackId) (f : StackState → StackState) : (s.modStack k f).out = s.out := rfl
@[simp] theorem State.modStack_pending (s : State) (k : StackId) (f : StackState → StackState) : (s.modStack k f).pending = s.pending := rfl
@[simp] theorem State.modStack_hbm (s : State) (k : StackId) (f : StackState → StackState) : (s.modStack k f).hbm = vmod s.hbm k f := rfl

@[simp] theorem State.modNet_fuse (s : State) (f : NetState → NetState) : (s.modNet f).fuse = s.fuse := rfl
@[simp] theorem State.modNet_inReset (s : State) (f : NetState → NetState) : (s.modNet f).inReset = s.inReset := rfl
@[simp] theorem State.modNet_retired (s : State) (f : NetState → NetState) : (s.modNet f).retired = s.retired := rfl
@[simp] theorem State.modNet_stage (s : State) (f : NetState → NetState) : (s.modNet f).stage = s.stage := rfl
@[simp] theorem State.modNet_bootMs (s : State) (f : NetState → NetState) : (s.modNet f).bootMs = s.bootMs := rfl
@[simp] theorem State.modNet_sclk (s : State) (f : NetState → NetState) : (s.modNet f).sclk = s.sclk := rfl
@[simp] theorem State.modNet_pins (s : State) (f : NetState → NetState) : (s.modNet f).pins = s.pins := rfl
@[simp] theorem State.modNet_side (s : State) (f : NetState → NetState) : (s.modNet f).side = s.side := rfl
@[simp] theorem State.modNet_siteSlot (s : State) (f : NetState → NetState) : (s.modNet f).siteSlot = s.siteSlot := rfl
@[simp] theorem State.modNet_arrays (s : State) (f : NetState → NetState) : (s.modNet f).arrays = s.arrays := rfl
@[simp] theorem State.modNet_fields (s : State) (f : NetState → NetState) : (s.modNet f).fields = s.fields := rfl
@[simp] theorem State.modNet_hbm (s : State) (f : NetState → NetState) : (s.modNet f).hbm = s.hbm := rfl
@[simp] theorem State.modNet_mem (s : State) (f : NetState → NetState) : (s.modNet f).mem = s.mem := rfl
@[simp] theorem State.modNet_coh (s : State) (f : NetState → NetState) : (s.modNet f).coh = s.coh := rfl
@[simp] theorem State.modNet_sites (s : State) (f : NetState → NetState) : (s.modNet f).sites = s.sites := rfl
@[simp] theorem State.modNet_ports (s : State) (f : NetState → NetState) : (s.modNet f).ports = s.ports := rfl
@[simp] theorem State.modNet_img (s : State) (f : NetState → NetState) : (s.modNet f).img = s.img := rfl
@[simp] theorem State.modNet_pnl (s : State) (f : NetState → NetState) : (s.modNet f).pnl = s.pnl := rfl
@[simp] theorem State.modNet_lcs (s : State) (f : NetState → NetState) : (s.modNet f).lcs = s.lcs := rfl
@[simp] theorem State.modNet_ras (s : State) (f : NetState → NetState) : (s.modNet f).ras = s.ras := rfl
@[simp] theorem State.modNet_twin (s : State) (f : NetState → NetState) : (s.modNet f).twin = s.twin := rfl
@[simp] theorem State.modNet_lines (s : State) (f : NetState → NetState) : (s.modNet f).lines = s.lines := rfl
@[simp] theorem State.modNet_clk (s : State) (f : NetState → NetState) : (s.modNet f).clk = s.clk := rfl
@[simp] theorem State.modNet_pwr (s : State) (f : NetState → NetState) : (s.modNet f).pwr = s.pwr := rfl
@[simp] theorem State.modNet_heldLow (s : State) (f : NetState → NetState) : (s.modNet f).heldLow = s.heldLow := rfl
@[simp] theorem State.modNet_latched (s : State) (f : NetState → NetState) : (s.modNet f).latched = s.latched := rfl
@[simp] theorem State.modNet_draws (s : State) (f : NetState → NetState) : (s.modNet f).draws = s.draws := rfl
@[simp] theorem State.modNet_out (s : State) (f : NetState → NetState) : (s.modNet f).out = s.out := rfl
@[simp] theorem State.modNet_pending (s : State) (f : NetState → NetState) : (s.modNet f).pending = s.pending := rfl
@[simp] theorem State.modNet_net (s : State) (f : NetState → NetState) : (s.modNet f).net = f s.net := rfl

@[simp] theorem State.modCoh_fuse (s : State) (f : CohState → CohState) : (s.modCoh f).fuse = s.fuse := rfl
@[simp] theorem State.modCoh_inReset (s : State) (f : CohState → CohState) : (s.modCoh f).inReset = s.inReset := rfl
@[simp] theorem State.modCoh_retired (s : State) (f : CohState → CohState) : (s.modCoh f).retired = s.retired := rfl
@[simp] theorem State.modCoh_stage (s : State) (f : CohState → CohState) : (s.modCoh f).stage = s.stage := rfl
@[simp] theorem State.modCoh_bootMs (s : State) (f : CohState → CohState) : (s.modCoh f).bootMs = s.bootMs := rfl
@[simp] theorem State.modCoh_sclk (s : State) (f : CohState → CohState) : (s.modCoh f).sclk = s.sclk := rfl
@[simp] theorem State.modCoh_pins (s : State) (f : CohState → CohState) : (s.modCoh f).pins = s.pins := rfl
@[simp] theorem State.modCoh_side (s : State) (f : CohState → CohState) : (s.modCoh f).side = s.side := rfl
@[simp] theorem State.modCoh_siteSlot (s : State) (f : CohState → CohState) : (s.modCoh f).siteSlot = s.siteSlot := rfl
@[simp] theorem State.modCoh_arrays (s : State) (f : CohState → CohState) : (s.modCoh f).arrays = s.arrays := rfl
@[simp] theorem State.modCoh_fields (s : State) (f : CohState → CohState) : (s.modCoh f).fields = s.fields := rfl
@[simp] theorem State.modCoh_hbm (s : State) (f : CohState → CohState) : (s.modCoh f).hbm = s.hbm := rfl
@[simp] theorem State.modCoh_mem (s : State) (f : CohState → CohState) : (s.modCoh f).mem = s.mem := rfl
@[simp] theorem State.modCoh_net (s : State) (f : CohState → CohState) : (s.modCoh f).net = s.net := rfl
@[simp] theorem State.modCoh_sites (s : State) (f : CohState → CohState) : (s.modCoh f).sites = s.sites := rfl
@[simp] theorem State.modCoh_ports (s : State) (f : CohState → CohState) : (s.modCoh f).ports = s.ports := rfl
@[simp] theorem State.modCoh_img (s : State) (f : CohState → CohState) : (s.modCoh f).img = s.img := rfl
@[simp] theorem State.modCoh_pnl (s : State) (f : CohState → CohState) : (s.modCoh f).pnl = s.pnl := rfl
@[simp] theorem State.modCoh_lcs (s : State) (f : CohState → CohState) : (s.modCoh f).lcs = s.lcs := rfl
@[simp] theorem State.modCoh_ras (s : State) (f : CohState → CohState) : (s.modCoh f).ras = s.ras := rfl
@[simp] theorem State.modCoh_twin (s : State) (f : CohState → CohState) : (s.modCoh f).twin = s.twin := rfl
@[simp] theorem State.modCoh_lines (s : State) (f : CohState → CohState) : (s.modCoh f).lines = s.lines := rfl
@[simp] theorem State.modCoh_clk (s : State) (f : CohState → CohState) : (s.modCoh f).clk = s.clk := rfl
@[simp] theorem State.modCoh_pwr (s : State) (f : CohState → CohState) : (s.modCoh f).pwr = s.pwr := rfl
@[simp] theorem State.modCoh_heldLow (s : State) (f : CohState → CohState) : (s.modCoh f).heldLow = s.heldLow := rfl
@[simp] theorem State.modCoh_latched (s : State) (f : CohState → CohState) : (s.modCoh f).latched = s.latched := rfl
@[simp] theorem State.modCoh_draws (s : State) (f : CohState → CohState) : (s.modCoh f).draws = s.draws := rfl
@[simp] theorem State.modCoh_out (s : State) (f : CohState → CohState) : (s.modCoh f).out = s.out := rfl
@[simp] theorem State.modCoh_pending (s : State) (f : CohState → CohState) : (s.modCoh f).pending = s.pending := rfl
@[simp] theorem State.modCoh_coh (s : State) (f : CohState → CohState) : (s.modCoh f).coh = f s.coh := rfl

@[simp] theorem State.modSlice_fuse (s : State) (i : FieldId) (f : Slice → Slice) : (s.modSlice i f).fuse = s.fuse := rfl
@[simp] theorem State.modSlice_inReset (s : State) (i : FieldId) (f : Slice → Slice) : (s.modSlice i f).inReset = s.inReset := rfl
@[simp] theorem State.modSlice_retired (s : State) (i : FieldId) (f : Slice → Slice) : (s.modSlice i f).retired = s.retired := rfl
@[simp] theorem State.modSlice_stage (s : State) (i : FieldId) (f : Slice → Slice) : (s.modSlice i f).stage = s.stage := rfl
@[simp] theorem State.modSlice_bootMs (s : State) (i : FieldId) (f : Slice → Slice) : (s.modSlice i f).bootMs = s.bootMs := rfl
@[simp] theorem State.modSlice_sclk (s : State) (i : FieldId) (f : Slice → Slice) : (s.modSlice i f).sclk = s.sclk := rfl
@[simp] theorem State.modSlice_pins (s : State) (i : FieldId) (f : Slice → Slice) : (s.modSlice i f).pins = s.pins := rfl
@[simp] theorem State.modSlice_side (s : State) (i : FieldId) (f : Slice → Slice) : (s.modSlice i f).side = s.side := rfl
@[simp] theorem State.modSlice_siteSlot (s : State) (i : FieldId) (f : Slice → Slice) : (s.modSlice i f).siteSlot = s.siteSlot := rfl
@[simp] theorem State.modSlice_arrays (s : State) (i : FieldId) (f : Slice → Slice) : (s.modSlice i f).arrays = s.arrays := rfl
@[simp] theorem State.modSlice_fields (s : State) (i : FieldId) (f : Slice → Slice) : (s.modSlice i f).fields = s.fields := rfl
@[simp] theorem State.modSlice_hbm (s : State) (i : FieldId) (f : Slice → Slice) : (s.modSlice i f).hbm = s.hbm := rfl
@[simp] theorem State.modSlice_mem (s : State) (i : FieldId) (f : Slice → Slice) : (s.modSlice i f).mem = s.mem := rfl
@[simp] theorem State.modSlice_net (s : State) (i : FieldId) (f : Slice → Slice) : (s.modSlice i f).net = s.net := rfl
@[simp] theorem State.modSlice_sites (s : State) (i : FieldId) (f : Slice → Slice) : (s.modSlice i f).sites = s.sites := rfl
@[simp] theorem State.modSlice_ports (s : State) (i : FieldId) (f : Slice → Slice) : (s.modSlice i f).ports = s.ports := rfl
@[simp] theorem State.modSlice_img (s : State) (i : FieldId) (f : Slice → Slice) : (s.modSlice i f).img = s.img := rfl
@[simp] theorem State.modSlice_pnl (s : State) (i : FieldId) (f : Slice → Slice) : (s.modSlice i f).pnl = s.pnl := rfl
@[simp] theorem State.modSlice_lcs (s : State) (i : FieldId) (f : Slice → Slice) : (s.modSlice i f).lcs = s.lcs := rfl
@[simp] theorem State.modSlice_ras (s : State) (i : FieldId) (f : Slice → Slice) : (s.modSlice i f).ras = s.ras := rfl
@[simp] theorem State.modSlice_twin (s : State) (i : FieldId) (f : Slice → Slice) : (s.modSlice i f).twin = s.twin := rfl
@[simp] theorem State.modSlice_lines (s : State) (i : FieldId) (f : Slice → Slice) : (s.modSlice i f).lines = s.lines := rfl
@[simp] theorem State.modSlice_clk (s : State) (i : FieldId) (f : Slice → Slice) : (s.modSlice i f).clk = s.clk := rfl
@[simp] theorem State.modSlice_pwr (s : State) (i : FieldId) (f : Slice → Slice) : (s.modSlice i f).pwr = s.pwr := rfl
@[simp] theorem State.modSlice_heldLow (s : State) (i : FieldId) (f : Slice → Slice) : (s.modSlice i f).heldLow = s.heldLow := rfl
@[simp] theorem State.modSlice_latched (s : State) (i : FieldId) (f : Slice → Slice) : (s.modSlice i f).latched = s.latched := rfl
@[simp] theorem State.modSlice_draws (s : State) (i : FieldId) (f : Slice → Slice) : (s.modSlice i f).draws = s.draws := rfl
@[simp] theorem State.modSlice_out (s : State) (i : FieldId) (f : Slice → Slice) : (s.modSlice i f).out = s.out := rfl
@[simp] theorem State.modSlice_pending (s : State) (i : FieldId) (f : Slice → Slice) : (s.modSlice i f).pending = s.pending := rfl
@[simp] theorem State.modSlice_coh (s : State) (i : FieldId) (f : Slice → Slice) : (s.modSlice i f).coh = { s.coh with slices := vmod s.coh.slices i f } := rfl

@[simp] theorem State.modSite_fuse (s : State) (n : SiteId) (f : SiteState → SiteState) : (s.modSite n f).fuse = s.fuse := rfl
@[simp] theorem State.modSite_inReset (s : State) (n : SiteId) (f : SiteState → SiteState) : (s.modSite n f).inReset = s.inReset := rfl
@[simp] theorem State.modSite_retired (s : State) (n : SiteId) (f : SiteState → SiteState) : (s.modSite n f).retired = s.retired := rfl
@[simp] theorem State.modSite_stage (s : State) (n : SiteId) (f : SiteState → SiteState) : (s.modSite n f).stage = s.stage := rfl
@[simp] theorem State.modSite_bootMs (s : State) (n : SiteId) (f : SiteState → SiteState) : (s.modSite n f).bootMs = s.bootMs := rfl
@[simp] theorem State.modSite_sclk (s : State) (n : SiteId) (f : SiteState → SiteState) : (s.modSite n f).sclk = s.sclk := rfl
@[simp] theorem State.modSite_pins (s : State) (n : SiteId) (f : SiteState → SiteState) : (s.modSite n f).pins = s.pins := rfl
@[simp] theorem State.modSite_side (s : State) (n : SiteId) (f : SiteState → SiteState) : (s.modSite n f).side = s.side := rfl
@[simp] theorem State.modSite_siteSlot (s : State) (n : SiteId) (f : SiteState → SiteState) : (s.modSite n f).siteSlot = s.siteSlot := rfl
@[simp] theorem State.modSite_arrays (s : State) (n : SiteId) (f : SiteState → SiteState) : (s.modSite n f).arrays = s.arrays := rfl
@[simp] theorem State.modSite_fields (s : State) (n : SiteId) (f : SiteState → SiteState) : (s.modSite n f).fields = s.fields := rfl
@[simp] theorem State.modSite_hbm (s : State) (n : SiteId) (f : SiteState → SiteState) : (s.modSite n f).hbm = s.hbm := rfl
@[simp] theorem State.modSite_mem (s : State) (n : SiteId) (f : SiteState → SiteState) : (s.modSite n f).mem = s.mem := rfl
@[simp] theorem State.modSite_net (s : State) (n : SiteId) (f : SiteState → SiteState) : (s.modSite n f).net = s.net := rfl
@[simp] theorem State.modSite_coh (s : State) (n : SiteId) (f : SiteState → SiteState) : (s.modSite n f).coh = s.coh := rfl
@[simp] theorem State.modSite_ports (s : State) (n : SiteId) (f : SiteState → SiteState) : (s.modSite n f).ports = s.ports := rfl
@[simp] theorem State.modSite_img (s : State) (n : SiteId) (f : SiteState → SiteState) : (s.modSite n f).img = s.img := rfl
@[simp] theorem State.modSite_pnl (s : State) (n : SiteId) (f : SiteState → SiteState) : (s.modSite n f).pnl = s.pnl := rfl
@[simp] theorem State.modSite_lcs (s : State) (n : SiteId) (f : SiteState → SiteState) : (s.modSite n f).lcs = s.lcs := rfl
@[simp] theorem State.modSite_ras (s : State) (n : SiteId) (f : SiteState → SiteState) : (s.modSite n f).ras = s.ras := rfl
@[simp] theorem State.modSite_twin (s : State) (n : SiteId) (f : SiteState → SiteState) : (s.modSite n f).twin = s.twin := rfl
@[simp] theorem State.modSite_lines (s : State) (n : SiteId) (f : SiteState → SiteState) : (s.modSite n f).lines = s.lines := rfl
@[simp] theorem State.modSite_clk (s : State) (n : SiteId) (f : SiteState → SiteState) : (s.modSite n f).clk = s.clk := rfl
@[simp] theorem State.modSite_pwr (s : State) (n : SiteId) (f : SiteState → SiteState) : (s.modSite n f).pwr = s.pwr := rfl
@[simp] theorem State.modSite_heldLow (s : State) (n : SiteId) (f : SiteState → SiteState) : (s.modSite n f).heldLow = s.heldLow := rfl
@[simp] theorem State.modSite_latched (s : State) (n : SiteId) (f : SiteState → SiteState) : (s.modSite n f).latched = s.latched := rfl
@[simp] theorem State.modSite_draws (s : State) (n : SiteId) (f : SiteState → SiteState) : (s.modSite n f).draws = s.draws := rfl
@[simp] theorem State.modSite_out (s : State) (n : SiteId) (f : SiteState → SiteState) : (s.modSite n f).out = s.out := rfl
@[simp] theorem State.modSite_pending (s : State) (n : SiteId) (f : SiteState → SiteState) : (s.modSite n f).pending = s.pending := rfl
@[simp] theorem State.modSite_sites (s : State) (n : SiteId) (f : SiteState → SiteState) : (s.modSite n f).sites = vmod s.sites n f := rfl

@[simp] theorem State.modPort_fuse (s : State) (p : PortId) (f : PortState → PortState) : (s.modPort p f).fuse = s.fuse := rfl
@[simp] theorem State.modPort_inReset (s : State) (p : PortId) (f : PortState → PortState) : (s.modPort p f).inReset = s.inReset := rfl
@[simp] theorem State.modPort_retired (s : State) (p : PortId) (f : PortState → PortState) : (s.modPort p f).retired = s.retired := rfl
@[simp] theorem State.modPort_stage (s : State) (p : PortId) (f : PortState → PortState) : (s.modPort p f).stage = s.stage := rfl
@[simp] theorem State.modPort_bootMs (s : State) (p : PortId) (f : PortState → PortState) : (s.modPort p f).bootMs = s.bootMs := rfl
@[simp] theorem State.modPort_sclk (s : State) (p : PortId) (f : PortState → PortState) : (s.modPort p f).sclk = s.sclk := rfl
@[simp] theorem State.modPort_pins (s : State) (p : PortId) (f : PortState → PortState) : (s.modPort p f).pins = s.pins := rfl
@[simp] theorem State.modPort_side (s : State) (p : PortId) (f : PortState → PortState) : (s.modPort p f).side = s.side := rfl
@[simp] theorem State.modPort_siteSlot (s : State) (p : PortId) (f : PortState → PortState) : (s.modPort p f).siteSlot = s.siteSlot := rfl
@[simp] theorem State.modPort_arrays (s : State) (p : PortId) (f : PortState → PortState) : (s.modPort p f).arrays = s.arrays := rfl
@[simp] theorem State.modPort_fields (s : State) (p : PortId) (f : PortState → PortState) : (s.modPort p f).fields = s.fields := rfl
@[simp] theorem State.modPort_hbm (s : State) (p : PortId) (f : PortState → PortState) : (s.modPort p f).hbm = s.hbm := rfl
@[simp] theorem State.modPort_mem (s : State) (p : PortId) (f : PortState → PortState) : (s.modPort p f).mem = s.mem := rfl
@[simp] theorem State.modPort_net (s : State) (p : PortId) (f : PortState → PortState) : (s.modPort p f).net = s.net := rfl
@[simp] theorem State.modPort_coh (s : State) (p : PortId) (f : PortState → PortState) : (s.modPort p f).coh = s.coh := rfl
@[simp] theorem State.modPort_sites (s : State) (p : PortId) (f : PortState → PortState) : (s.modPort p f).sites = s.sites := rfl
@[simp] theorem State.modPort_img (s : State) (p : PortId) (f : PortState → PortState) : (s.modPort p f).img = s.img := rfl
@[simp] theorem State.modPort_pnl (s : State) (p : PortId) (f : PortState → PortState) : (s.modPort p f).pnl = s.pnl := rfl
@[simp] theorem State.modPort_lcs (s : State) (p : PortId) (f : PortState → PortState) : (s.modPort p f).lcs = s.lcs := rfl
@[simp] theorem State.modPort_ras (s : State) (p : PortId) (f : PortState → PortState) : (s.modPort p f).ras = s.ras := rfl
@[simp] theorem State.modPort_twin (s : State) (p : PortId) (f : PortState → PortState) : (s.modPort p f).twin = s.twin := rfl
@[simp] theorem State.modPort_lines (s : State) (p : PortId) (f : PortState → PortState) : (s.modPort p f).lines = s.lines := rfl
@[simp] theorem State.modPort_clk (s : State) (p : PortId) (f : PortState → PortState) : (s.modPort p f).clk = s.clk := rfl
@[simp] theorem State.modPort_pwr (s : State) (p : PortId) (f : PortState → PortState) : (s.modPort p f).pwr = s.pwr := rfl
@[simp] theorem State.modPort_heldLow (s : State) (p : PortId) (f : PortState → PortState) : (s.modPort p f).heldLow = s.heldLow := rfl
@[simp] theorem State.modPort_latched (s : State) (p : PortId) (f : PortState → PortState) : (s.modPort p f).latched = s.latched := rfl
@[simp] theorem State.modPort_draws (s : State) (p : PortId) (f : PortState → PortState) : (s.modPort p f).draws = s.draws := rfl
@[simp] theorem State.modPort_out (s : State) (p : PortId) (f : PortState → PortState) : (s.modPort p f).out = s.out := rfl
@[simp] theorem State.modPort_pending (s : State) (p : PortId) (f : PortState → PortState) : (s.modPort p f).pending = s.pending := rfl
@[simp] theorem State.modPort_ports (s : State) (p : PortId) (f : PortState → PortState) : (s.modPort p f).ports = vmod s.ports p f := rfl

@[simp] theorem State.modPorts_fuse (s : State) (f : PortState → PortState) : (s.modPorts f).fuse = s.fuse := rfl
@[simp] theorem State.modPorts_inReset (s : State) (f : PortState → PortState) : (s.modPorts f).inReset = s.inReset := rfl
@[simp] theorem State.modPorts_retired (s : State) (f : PortState → PortState) : (s.modPorts f).retired = s.retired := rfl
@[simp] theorem State.modPorts_stage (s : State) (f : PortState → PortState) : (s.modPorts f).stage = s.stage := rfl
@[simp] theorem State.modPorts_bootMs (s : State) (f : PortState → PortState) : (s.modPorts f).bootMs = s.bootMs := rfl
@[simp] theorem State.modPorts_sclk (s : State) (f : PortState → PortState) : (s.modPorts f).sclk = s.sclk := rfl
@[simp] theorem State.modPorts_pins (s : State) (f : PortState → PortState) : (s.modPorts f).pins = s.pins := rfl
@[simp] theorem State.modPorts_side (s : State) (f : PortState → PortState) : (s.modPorts f).side = s.side := rfl
@[simp] theorem State.modPorts_siteSlot (s : State) (f : PortState → PortState) : (s.modPorts f).siteSlot = s.siteSlot := rfl
@[simp] theorem State.modPorts_arrays (s : State) (f : PortState → PortState) : (s.modPorts f).arrays = s.arrays := rfl
@[simp] theorem State.modPorts_fields (s : State) (f : PortState → PortState) : (s.modPorts f).fields = s.fields := rfl
@[simp] theorem State.modPorts_hbm (s : State) (f : PortState → PortState) : (s.modPorts f).hbm = s.hbm := rfl
@[simp] theorem State.modPorts_mem (s : State) (f : PortState → PortState) : (s.modPorts f).mem = s.mem := rfl
@[simp] theorem State.modPorts_net (s : State) (f : PortState → PortState) : (s.modPorts f).net = s.net := rfl
@[simp] theorem State.modPorts_coh (s : State) (f : PortState → PortState) : (s.modPorts f).coh = s.coh := rfl
@[simp] theorem State.modPorts_sites (s : State) (f : PortState → PortState) : (s.modPorts f).sites = s.sites := rfl
@[simp] theorem State.modPorts_img (s : State) (f : PortState → PortState) : (s.modPorts f).img = s.img := rfl
@[simp] theorem State.modPorts_pnl (s : State) (f : PortState → PortState) : (s.modPorts f).pnl = s.pnl := rfl
@[simp] theorem State.modPorts_lcs (s : State) (f : PortState → PortState) : (s.modPorts f).lcs = s.lcs := rfl
@[simp] theorem State.modPorts_ras (s : State) (f : PortState → PortState) : (s.modPorts f).ras = s.ras := rfl
@[simp] theorem State.modPorts_twin (s : State) (f : PortState → PortState) : (s.modPorts f).twin = s.twin := rfl
@[simp] theorem State.modPorts_lines (s : State) (f : PortState → PortState) : (s.modPorts f).lines = s.lines := rfl
@[simp] theorem State.modPorts_clk (s : State) (f : PortState → PortState) : (s.modPorts f).clk = s.clk := rfl
@[simp] theorem State.modPorts_pwr (s : State) (f : PortState → PortState) : (s.modPorts f).pwr = s.pwr := rfl
@[simp] theorem State.modPorts_heldLow (s : State) (f : PortState → PortState) : (s.modPorts f).heldLow = s.heldLow := rfl
@[simp] theorem State.modPorts_latched (s : State) (f : PortState → PortState) : (s.modPorts f).latched = s.latched := rfl
@[simp] theorem State.modPorts_draws (s : State) (f : PortState → PortState) : (s.modPorts f).draws = s.draws := rfl
@[simp] theorem State.modPorts_out (s : State) (f : PortState → PortState) : (s.modPorts f).out = s.out := rfl
@[simp] theorem State.modPorts_pending (s : State) (f : PortState → PortState) : (s.modPorts f).pending = s.pending := rfl
@[simp] theorem State.modPorts_ports (s : State) (f : PortState → PortState) : (s.modPorts f).ports = s.ports.map f := rfl

@[simp] theorem State.modVf_fuse (s : State) (p : PortId) (v : VfId) (f : VfState → VfState) : (s.modVf p v f).fuse = s.fuse := rfl
@[simp] theorem State.modVf_inReset (s : State) (p : PortId) (v : VfId) (f : VfState → VfState) : (s.modVf p v f).inReset = s.inReset := rfl
@[simp] theorem State.modVf_retired (s : State) (p : PortId) (v : VfId) (f : VfState → VfState) : (s.modVf p v f).retired = s.retired := rfl
@[simp] theorem State.modVf_stage (s : State) (p : PortId) (v : VfId) (f : VfState → VfState) : (s.modVf p v f).stage = s.stage := rfl
@[simp] theorem State.modVf_bootMs (s : State) (p : PortId) (v : VfId) (f : VfState → VfState) : (s.modVf p v f).bootMs = s.bootMs := rfl
@[simp] theorem State.modVf_sclk (s : State) (p : PortId) (v : VfId) (f : VfState → VfState) : (s.modVf p v f).sclk = s.sclk := rfl
@[simp] theorem State.modVf_pins (s : State) (p : PortId) (v : VfId) (f : VfState → VfState) : (s.modVf p v f).pins = s.pins := rfl
@[simp] theorem State.modVf_side (s : State) (p : PortId) (v : VfId) (f : VfState → VfState) : (s.modVf p v f).side = s.side := rfl
@[simp] theorem State.modVf_siteSlot (s : State) (p : PortId) (v : VfId) (f : VfState → VfState) : (s.modVf p v f).siteSlot = s.siteSlot := rfl
@[simp] theorem State.modVf_arrays (s : State) (p : PortId) (v : VfId) (f : VfState → VfState) : (s.modVf p v f).arrays = s.arrays := rfl
@[simp] theorem State.modVf_fields (s : State) (p : PortId) (v : VfId) (f : VfState → VfState) : (s.modVf p v f).fields = s.fields := rfl
@[simp] theorem State.modVf_hbm (s : State) (p : PortId) (v : VfId) (f : VfState → VfState) : (s.modVf p v f).hbm = s.hbm := rfl
@[simp] theorem State.modVf_mem (s : State) (p : PortId) (v : VfId) (f : VfState → VfState) : (s.modVf p v f).mem = s.mem := rfl
@[simp] theorem State.modVf_net (s : State) (p : PortId) (v : VfId) (f : VfState → VfState) : (s.modVf p v f).net = s.net := rfl
@[simp] theorem State.modVf_coh (s : State) (p : PortId) (v : VfId) (f : VfState → VfState) : (s.modVf p v f).coh = s.coh := rfl
@[simp] theorem State.modVf_sites (s : State) (p : PortId) (v : VfId) (f : VfState → VfState) : (s.modVf p v f).sites = s.sites := rfl
@[simp] theorem State.modVf_img (s : State) (p : PortId) (v : VfId) (f : VfState → VfState) : (s.modVf p v f).img = s.img := rfl
@[simp] theorem State.modVf_pnl (s : State) (p : PortId) (v : VfId) (f : VfState → VfState) : (s.modVf p v f).pnl = s.pnl := rfl
@[simp] theorem State.modVf_lcs (s : State) (p : PortId) (v : VfId) (f : VfState → VfState) : (s.modVf p v f).lcs = s.lcs := rfl
@[simp] theorem State.modVf_ras (s : State) (p : PortId) (v : VfId) (f : VfState → VfState) : (s.modVf p v f).ras = s.ras := rfl
@[simp] theorem State.modVf_twin (s : State) (p : PortId) (v : VfId) (f : VfState → VfState) : (s.modVf p v f).twin = s.twin := rfl
@[simp] theorem State.modVf_lines (s : State) (p : PortId) (v : VfId) (f : VfState → VfState) : (s.modVf p v f).lines = s.lines := rfl
@[simp] theorem State.modVf_clk (s : State) (p : PortId) (v : VfId) (f : VfState → VfState) : (s.modVf p v f).clk = s.clk := rfl
@[simp] theorem State.modVf_pwr (s : State) (p : PortId) (v : VfId) (f : VfState → VfState) : (s.modVf p v f).pwr = s.pwr := rfl
@[simp] theorem State.modVf_heldLow (s : State) (p : PortId) (v : VfId) (f : VfState → VfState) : (s.modVf p v f).heldLow = s.heldLow := rfl
@[simp] theorem State.modVf_latched (s : State) (p : PortId) (v : VfId) (f : VfState → VfState) : (s.modVf p v f).latched = s.latched := rfl
@[simp] theorem State.modVf_draws (s : State) (p : PortId) (v : VfId) (f : VfState → VfState) : (s.modVf p v f).draws = s.draws := rfl
@[simp] theorem State.modVf_out (s : State) (p : PortId) (v : VfId) (f : VfState → VfState) : (s.modVf p v f).out = s.out := rfl
@[simp] theorem State.modVf_pending (s : State) (p : PortId) (v : VfId) (f : VfState → VfState) : (s.modVf p v f).pending = s.pending := rfl
@[simp] theorem State.modVf_ports (s : State) (p : PortId) (v : VfId) (f : VfState → VfState) : (s.modVf p v f).ports = vmod s.ports p fun x => { x with vfs := vmod x.vfs v f } := rfl

@[simp] theorem State.modQueue_fuse (s : State) (p : PortId) (v : VfId) (q : QueueId) (f : QueueState → QueueState) : (s.modQueue p v q f).fuse = s.fuse := rfl
@[simp] theorem State.modQueue_inReset (s : State) (p : PortId) (v : VfId) (q : QueueId) (f : QueueState → QueueState) : (s.modQueue p v q f).inReset = s.inReset := rfl
@[simp] theorem State.modQueue_retired (s : State) (p : PortId) (v : VfId) (q : QueueId) (f : QueueState → QueueState) : (s.modQueue p v q f).retired = s.retired := rfl
@[simp] theorem State.modQueue_stage (s : State) (p : PortId) (v : VfId) (q : QueueId) (f : QueueState → QueueState) : (s.modQueue p v q f).stage = s.stage := rfl
@[simp] theorem State.modQueue_bootMs (s : State) (p : PortId) (v : VfId) (q : QueueId) (f : QueueState → QueueState) : (s.modQueue p v q f).bootMs = s.bootMs := rfl
@[simp] theorem State.modQueue_sclk (s : State) (p : PortId) (v : VfId) (q : QueueId) (f : QueueState → QueueState) : (s.modQueue p v q f).sclk = s.sclk := rfl
@[simp] theorem State.modQueue_pins (s : State) (p : PortId) (v : VfId) (q : QueueId) (f : QueueState → QueueState) : (s.modQueue p v q f).pins = s.pins := rfl
@[simp] theorem State.modQueue_side (s : State) (p : PortId) (v : VfId) (q : QueueId) (f : QueueState → QueueState) : (s.modQueue p v q f).side = s.side := rfl
@[simp] theorem State.modQueue_siteSlot (s : State) (p : PortId) (v : VfId) (q : QueueId) (f : QueueState → QueueState) : (s.modQueue p v q f).siteSlot = s.siteSlot := rfl
@[simp] theorem State.modQueue_arrays (s : State) (p : PortId) (v : VfId) (q : QueueId) (f : QueueState → QueueState) : (s.modQueue p v q f).arrays = s.arrays := rfl
@[simp] theorem State.modQueue_fields (s : State) (p : PortId) (v : VfId) (q : QueueId) (f : QueueState → QueueState) : (s.modQueue p v q f).fields = s.fields := rfl
@[simp] theorem State.modQueue_hbm (s : State) (p : PortId) (v : VfId) (q : QueueId) (f : QueueState → QueueState) : (s.modQueue p v q f).hbm = s.hbm := rfl
@[simp] theorem State.modQueue_mem (s : State) (p : PortId) (v : VfId) (q : QueueId) (f : QueueState → QueueState) : (s.modQueue p v q f).mem = s.mem := rfl
@[simp] theorem State.modQueue_net (s : State) (p : PortId) (v : VfId) (q : QueueId) (f : QueueState → QueueState) : (s.modQueue p v q f).net = s.net := rfl
@[simp] theorem State.modQueue_coh (s : State) (p : PortId) (v : VfId) (q : QueueId) (f : QueueState → QueueState) : (s.modQueue p v q f).coh = s.coh := rfl
@[simp] theorem State.modQueue_sites (s : State) (p : PortId) (v : VfId) (q : QueueId) (f : QueueState → QueueState) : (s.modQueue p v q f).sites = s.sites := rfl
@[simp] theorem State.modQueue_img (s : State) (p : PortId) (v : VfId) (q : QueueId) (f : QueueState → QueueState) : (s.modQueue p v q f).img = s.img := rfl
@[simp] theorem State.modQueue_pnl (s : State) (p : PortId) (v : VfId) (q : QueueId) (f : QueueState → QueueState) : (s.modQueue p v q f).pnl = s.pnl := rfl
@[simp] theorem State.modQueue_lcs (s : State) (p : PortId) (v : VfId) (q : QueueId) (f : QueueState → QueueState) : (s.modQueue p v q f).lcs = s.lcs := rfl
@[simp] theorem State.modQueue_ras (s : State) (p : PortId) (v : VfId) (q : QueueId) (f : QueueState → QueueState) : (s.modQueue p v q f).ras = s.ras := rfl
@[simp] theorem State.modQueue_twin (s : State) (p : PortId) (v : VfId) (q : QueueId) (f : QueueState → QueueState) : (s.modQueue p v q f).twin = s.twin := rfl
@[simp] theorem State.modQueue_lines (s : State) (p : PortId) (v : VfId) (q : QueueId) (f : QueueState → QueueState) : (s.modQueue p v q f).lines = s.lines := rfl
@[simp] theorem State.modQueue_clk (s : State) (p : PortId) (v : VfId) (q : QueueId) (f : QueueState → QueueState) : (s.modQueue p v q f).clk = s.clk := rfl
@[simp] theorem State.modQueue_pwr (s : State) (p : PortId) (v : VfId) (q : QueueId) (f : QueueState → QueueState) : (s.modQueue p v q f).pwr = s.pwr := rfl
@[simp] theorem State.modQueue_heldLow (s : State) (p : PortId) (v : VfId) (q : QueueId) (f : QueueState → QueueState) : (s.modQueue p v q f).heldLow = s.heldLow := rfl
@[simp] theorem State.modQueue_latched (s : State) (p : PortId) (v : VfId) (q : QueueId) (f : QueueState → QueueState) : (s.modQueue p v q f).latched = s.latched := rfl
@[simp] theorem State.modQueue_draws (s : State) (p : PortId) (v : VfId) (q : QueueId) (f : QueueState → QueueState) : (s.modQueue p v q f).draws = s.draws := rfl
@[simp] theorem State.modQueue_out (s : State) (p : PortId) (v : VfId) (q : QueueId) (f : QueueState → QueueState) : (s.modQueue p v q f).out = s.out := rfl
@[simp] theorem State.modQueue_pending (s : State) (p : PortId) (v : VfId) (q : QueueId) (f : QueueState → QueueState) : (s.modQueue p v q f).pending = s.pending := rfl
@[simp] theorem State.modQueue_ports (s : State) (p : PortId) (v : VfId) (q : QueueId) (f : QueueState → QueueState) : (s.modQueue p v q f).ports = vmod s.ports p fun x => { x with vfs := vmod x.vfs v fun y => { y with queues := vmod y.queues q f } } := rfl

@[simp] theorem State.modImg_fuse (s : State) (f : ImgState → ImgState) : (s.modImg f).fuse = s.fuse := rfl
@[simp] theorem State.modImg_inReset (s : State) (f : ImgState → ImgState) : (s.modImg f).inReset = s.inReset := rfl
@[simp] theorem State.modImg_retired (s : State) (f : ImgState → ImgState) : (s.modImg f).retired = s.retired := rfl
@[simp] theorem State.modImg_stage (s : State) (f : ImgState → ImgState) : (s.modImg f).stage = s.stage := rfl
@[simp] theorem State.modImg_bootMs (s : State) (f : ImgState → ImgState) : (s.modImg f).bootMs = s.bootMs := rfl
@[simp] theorem State.modImg_sclk (s : State) (f : ImgState → ImgState) : (s.modImg f).sclk = s.sclk := rfl
@[simp] theorem State.modImg_pins (s : State) (f : ImgState → ImgState) : (s.modImg f).pins = s.pins := rfl
@[simp] theorem State.modImg_side (s : State) (f : ImgState → ImgState) : (s.modImg f).side = s.side := rfl
@[simp] theorem State.modImg_siteSlot (s : State) (f : ImgState → ImgState) : (s.modImg f).siteSlot = s.siteSlot := rfl
@[simp] theorem State.modImg_arrays (s : State) (f : ImgState → ImgState) : (s.modImg f).arrays = s.arrays := rfl
@[simp] theorem State.modImg_fields (s : State) (f : ImgState → ImgState) : (s.modImg f).fields = s.fields := rfl
@[simp] theorem State.modImg_hbm (s : State) (f : ImgState → ImgState) : (s.modImg f).hbm = s.hbm := rfl
@[simp] theorem State.modImg_mem (s : State) (f : ImgState → ImgState) : (s.modImg f).mem = s.mem := rfl
@[simp] theorem State.modImg_net (s : State) (f : ImgState → ImgState) : (s.modImg f).net = s.net := rfl
@[simp] theorem State.modImg_coh (s : State) (f : ImgState → ImgState) : (s.modImg f).coh = s.coh := rfl
@[simp] theorem State.modImg_sites (s : State) (f : ImgState → ImgState) : (s.modImg f).sites = s.sites := rfl
@[simp] theorem State.modImg_ports (s : State) (f : ImgState → ImgState) : (s.modImg f).ports = s.ports := rfl
@[simp] theorem State.modImg_pnl (s : State) (f : ImgState → ImgState) : (s.modImg f).pnl = s.pnl := rfl
@[simp] theorem State.modImg_lcs (s : State) (f : ImgState → ImgState) : (s.modImg f).lcs = s.lcs := rfl
@[simp] theorem State.modImg_ras (s : State) (f : ImgState → ImgState) : (s.modImg f).ras = s.ras := rfl
@[simp] theorem State.modImg_twin (s : State) (f : ImgState → ImgState) : (s.modImg f).twin = s.twin := rfl
@[simp] theorem State.modImg_lines (s : State) (f : ImgState → ImgState) : (s.modImg f).lines = s.lines := rfl
@[simp] theorem State.modImg_clk (s : State) (f : ImgState → ImgState) : (s.modImg f).clk = s.clk := rfl
@[simp] theorem State.modImg_pwr (s : State) (f : ImgState → ImgState) : (s.modImg f).pwr = s.pwr := rfl
@[simp] theorem State.modImg_heldLow (s : State) (f : ImgState → ImgState) : (s.modImg f).heldLow = s.heldLow := rfl
@[simp] theorem State.modImg_latched (s : State) (f : ImgState → ImgState) : (s.modImg f).latched = s.latched := rfl
@[simp] theorem State.modImg_draws (s : State) (f : ImgState → ImgState) : (s.modImg f).draws = s.draws := rfl
@[simp] theorem State.modImg_out (s : State) (f : ImgState → ImgState) : (s.modImg f).out = s.out := rfl
@[simp] theorem State.modImg_pending (s : State) (f : ImgState → ImgState) : (s.modImg f).pending = s.pending := rfl
@[simp] theorem State.modImg_img (s : State) (f : ImgState → ImgState) : (s.modImg f).img = f s.img := rfl

@[simp] theorem State.modPnl_fuse (s : State) (f : PnlState → PnlState) : (s.modPnl f).fuse = s.fuse := rfl
@[simp] theorem State.modPnl_inReset (s : State) (f : PnlState → PnlState) : (s.modPnl f).inReset = s.inReset := rfl
@[simp] theorem State.modPnl_retired (s : State) (f : PnlState → PnlState) : (s.modPnl f).retired = s.retired := rfl
@[simp] theorem State.modPnl_stage (s : State) (f : PnlState → PnlState) : (s.modPnl f).stage = s.stage := rfl
@[simp] theorem State.modPnl_bootMs (s : State) (f : PnlState → PnlState) : (s.modPnl f).bootMs = s.bootMs := rfl
@[simp] theorem State.modPnl_sclk (s : State) (f : PnlState → PnlState) : (s.modPnl f).sclk = s.sclk := rfl
@[simp] theorem State.modPnl_pins (s : State) (f : PnlState → PnlState) : (s.modPnl f).pins = s.pins := rfl
@[simp] theorem State.modPnl_side (s : State) (f : PnlState → PnlState) : (s.modPnl f).side = s.side := rfl
@[simp] theorem State.modPnl_siteSlot (s : State) (f : PnlState → PnlState) : (s.modPnl f).siteSlot = s.siteSlot := rfl
@[simp] theorem State.modPnl_arrays (s : State) (f : PnlState → PnlState) : (s.modPnl f).arrays = s.arrays := rfl
@[simp] theorem State.modPnl_fields (s : State) (f : PnlState → PnlState) : (s.modPnl f).fields = s.fields := rfl
@[simp] theorem State.modPnl_hbm (s : State) (f : PnlState → PnlState) : (s.modPnl f).hbm = s.hbm := rfl
@[simp] theorem State.modPnl_mem (s : State) (f : PnlState → PnlState) : (s.modPnl f).mem = s.mem := rfl
@[simp] theorem State.modPnl_net (s : State) (f : PnlState → PnlState) : (s.modPnl f).net = s.net := rfl
@[simp] theorem State.modPnl_coh (s : State) (f : PnlState → PnlState) : (s.modPnl f).coh = s.coh := rfl
@[simp] theorem State.modPnl_sites (s : State) (f : PnlState → PnlState) : (s.modPnl f).sites = s.sites := rfl
@[simp] theorem State.modPnl_ports (s : State) (f : PnlState → PnlState) : (s.modPnl f).ports = s.ports := rfl
@[simp] theorem State.modPnl_img (s : State) (f : PnlState → PnlState) : (s.modPnl f).img = s.img := rfl
@[simp] theorem State.modPnl_lcs (s : State) (f : PnlState → PnlState) : (s.modPnl f).lcs = s.lcs := rfl
@[simp] theorem State.modPnl_ras (s : State) (f : PnlState → PnlState) : (s.modPnl f).ras = s.ras := rfl
@[simp] theorem State.modPnl_twin (s : State) (f : PnlState → PnlState) : (s.modPnl f).twin = s.twin := rfl
@[simp] theorem State.modPnl_lines (s : State) (f : PnlState → PnlState) : (s.modPnl f).lines = s.lines := rfl
@[simp] theorem State.modPnl_clk (s : State) (f : PnlState → PnlState) : (s.modPnl f).clk = s.clk := rfl
@[simp] theorem State.modPnl_pwr (s : State) (f : PnlState → PnlState) : (s.modPnl f).pwr = s.pwr := rfl
@[simp] theorem State.modPnl_heldLow (s : State) (f : PnlState → PnlState) : (s.modPnl f).heldLow = s.heldLow := rfl
@[simp] theorem State.modPnl_latched (s : State) (f : PnlState → PnlState) : (s.modPnl f).latched = s.latched := rfl
@[simp] theorem State.modPnl_draws (s : State) (f : PnlState → PnlState) : (s.modPnl f).draws = s.draws := rfl
@[simp] theorem State.modPnl_out (s : State) (f : PnlState → PnlState) : (s.modPnl f).out = s.out := rfl
@[simp] theorem State.modPnl_pending (s : State) (f : PnlState → PnlState) : (s.modPnl f).pending = s.pending := rfl
@[simp] theorem State.modPnl_pnl (s : State) (f : PnlState → PnlState) : (s.modPnl f).pnl = f s.pnl := rfl

@[simp] theorem State.modPanel_fuse (s : State) (p : PanelId) (f : PanelState → PanelState) : (s.modPanel p f).fuse = s.fuse := rfl
@[simp] theorem State.modPanel_inReset (s : State) (p : PanelId) (f : PanelState → PanelState) : (s.modPanel p f).inReset = s.inReset := rfl
@[simp] theorem State.modPanel_retired (s : State) (p : PanelId) (f : PanelState → PanelState) : (s.modPanel p f).retired = s.retired := rfl
@[simp] theorem State.modPanel_stage (s : State) (p : PanelId) (f : PanelState → PanelState) : (s.modPanel p f).stage = s.stage := rfl
@[simp] theorem State.modPanel_bootMs (s : State) (p : PanelId) (f : PanelState → PanelState) : (s.modPanel p f).bootMs = s.bootMs := rfl
@[simp] theorem State.modPanel_sclk (s : State) (p : PanelId) (f : PanelState → PanelState) : (s.modPanel p f).sclk = s.sclk := rfl
@[simp] theorem State.modPanel_pins (s : State) (p : PanelId) (f : PanelState → PanelState) : (s.modPanel p f).pins = s.pins := rfl
@[simp] theorem State.modPanel_side (s : State) (p : PanelId) (f : PanelState → PanelState) : (s.modPanel p f).side = s.side := rfl
@[simp] theorem State.modPanel_siteSlot (s : State) (p : PanelId) (f : PanelState → PanelState) : (s.modPanel p f).siteSlot = s.siteSlot := rfl
@[simp] theorem State.modPanel_arrays (s : State) (p : PanelId) (f : PanelState → PanelState) : (s.modPanel p f).arrays = s.arrays := rfl
@[simp] theorem State.modPanel_fields (s : State) (p : PanelId) (f : PanelState → PanelState) : (s.modPanel p f).fields = s.fields := rfl
@[simp] theorem State.modPanel_hbm (s : State) (p : PanelId) (f : PanelState → PanelState) : (s.modPanel p f).hbm = s.hbm := rfl
@[simp] theorem State.modPanel_mem (s : State) (p : PanelId) (f : PanelState → PanelState) : (s.modPanel p f).mem = s.mem := rfl
@[simp] theorem State.modPanel_net (s : State) (p : PanelId) (f : PanelState → PanelState) : (s.modPanel p f).net = s.net := rfl
@[simp] theorem State.modPanel_coh (s : State) (p : PanelId) (f : PanelState → PanelState) : (s.modPanel p f).coh = s.coh := rfl
@[simp] theorem State.modPanel_sites (s : State) (p : PanelId) (f : PanelState → PanelState) : (s.modPanel p f).sites = s.sites := rfl
@[simp] theorem State.modPanel_ports (s : State) (p : PanelId) (f : PanelState → PanelState) : (s.modPanel p f).ports = s.ports := rfl
@[simp] theorem State.modPanel_img (s : State) (p : PanelId) (f : PanelState → PanelState) : (s.modPanel p f).img = s.img := rfl
@[simp] theorem State.modPanel_lcs (s : State) (p : PanelId) (f : PanelState → PanelState) : (s.modPanel p f).lcs = s.lcs := rfl
@[simp] theorem State.modPanel_ras (s : State) (p : PanelId) (f : PanelState → PanelState) : (s.modPanel p f).ras = s.ras := rfl
@[simp] theorem State.modPanel_twin (s : State) (p : PanelId) (f : PanelState → PanelState) : (s.modPanel p f).twin = s.twin := rfl
@[simp] theorem State.modPanel_lines (s : State) (p : PanelId) (f : PanelState → PanelState) : (s.modPanel p f).lines = s.lines := rfl
@[simp] theorem State.modPanel_clk (s : State) (p : PanelId) (f : PanelState → PanelState) : (s.modPanel p f).clk = s.clk := rfl
@[simp] theorem State.modPanel_pwr (s : State) (p : PanelId) (f : PanelState → PanelState) : (s.modPanel p f).pwr = s.pwr := rfl
@[simp] theorem State.modPanel_heldLow (s : State) (p : PanelId) (f : PanelState → PanelState) : (s.modPanel p f).heldLow = s.heldLow := rfl
@[simp] theorem State.modPanel_latched (s : State) (p : PanelId) (f : PanelState → PanelState) : (s.modPanel p f).latched = s.latched := rfl
@[simp] theorem State.modPanel_draws (s : State) (p : PanelId) (f : PanelState → PanelState) : (s.modPanel p f).draws = s.draws := rfl
@[simp] theorem State.modPanel_out (s : State) (p : PanelId) (f : PanelState → PanelState) : (s.modPanel p f).out = s.out := rfl
@[simp] theorem State.modPanel_pending (s : State) (p : PanelId) (f : PanelState → PanelState) : (s.modPanel p f).pending = s.pending := rfl
@[simp] theorem State.modPanel_pnl (s : State) (p : PanelId) (f : PanelState → PanelState) : (s.modPanel p f).pnl = { s.pnl with panels := vmod s.pnl.panels p f } := rfl

@[simp] theorem State.modLcs_fuse (s : State) (f : LcsState → LcsState) : (s.modLcs f).fuse = s.fuse := rfl
@[simp] theorem State.modLcs_inReset (s : State) (f : LcsState → LcsState) : (s.modLcs f).inReset = s.inReset := rfl
@[simp] theorem State.modLcs_retired (s : State) (f : LcsState → LcsState) : (s.modLcs f).retired = s.retired := rfl
@[simp] theorem State.modLcs_stage (s : State) (f : LcsState → LcsState) : (s.modLcs f).stage = s.stage := rfl
@[simp] theorem State.modLcs_bootMs (s : State) (f : LcsState → LcsState) : (s.modLcs f).bootMs = s.bootMs := rfl
@[simp] theorem State.modLcs_sclk (s : State) (f : LcsState → LcsState) : (s.modLcs f).sclk = s.sclk := rfl
@[simp] theorem State.modLcs_pins (s : State) (f : LcsState → LcsState) : (s.modLcs f).pins = s.pins := rfl
@[simp] theorem State.modLcs_side (s : State) (f : LcsState → LcsState) : (s.modLcs f).side = s.side := rfl
@[simp] theorem State.modLcs_siteSlot (s : State) (f : LcsState → LcsState) : (s.modLcs f).siteSlot = s.siteSlot := rfl
@[simp] theorem State.modLcs_arrays (s : State) (f : LcsState → LcsState) : (s.modLcs f).arrays = s.arrays := rfl
@[simp] theorem State.modLcs_fields (s : State) (f : LcsState → LcsState) : (s.modLcs f).fields = s.fields := rfl
@[simp] theorem State.modLcs_hbm (s : State) (f : LcsState → LcsState) : (s.modLcs f).hbm = s.hbm := rfl
@[simp] theorem State.modLcs_mem (s : State) (f : LcsState → LcsState) : (s.modLcs f).mem = s.mem := rfl
@[simp] theorem State.modLcs_net (s : State) (f : LcsState → LcsState) : (s.modLcs f).net = s.net := rfl
@[simp] theorem State.modLcs_coh (s : State) (f : LcsState → LcsState) : (s.modLcs f).coh = s.coh := rfl
@[simp] theorem State.modLcs_sites (s : State) (f : LcsState → LcsState) : (s.modLcs f).sites = s.sites := rfl
@[simp] theorem State.modLcs_ports (s : State) (f : LcsState → LcsState) : (s.modLcs f).ports = s.ports := rfl
@[simp] theorem State.modLcs_img (s : State) (f : LcsState → LcsState) : (s.modLcs f).img = s.img := rfl
@[simp] theorem State.modLcs_pnl (s : State) (f : LcsState → LcsState) : (s.modLcs f).pnl = s.pnl := rfl
@[simp] theorem State.modLcs_ras (s : State) (f : LcsState → LcsState) : (s.modLcs f).ras = s.ras := rfl
@[simp] theorem State.modLcs_twin (s : State) (f : LcsState → LcsState) : (s.modLcs f).twin = s.twin := rfl
@[simp] theorem State.modLcs_lines (s : State) (f : LcsState → LcsState) : (s.modLcs f).lines = s.lines := rfl
@[simp] theorem State.modLcs_clk (s : State) (f : LcsState → LcsState) : (s.modLcs f).clk = s.clk := rfl
@[simp] theorem State.modLcs_pwr (s : State) (f : LcsState → LcsState) : (s.modLcs f).pwr = s.pwr := rfl
@[simp] theorem State.modLcs_heldLow (s : State) (f : LcsState → LcsState) : (s.modLcs f).heldLow = s.heldLow := rfl
@[simp] theorem State.modLcs_latched (s : State) (f : LcsState → LcsState) : (s.modLcs f).latched = s.latched := rfl
@[simp] theorem State.modLcs_draws (s : State) (f : LcsState → LcsState) : (s.modLcs f).draws = s.draws := rfl
@[simp] theorem State.modLcs_out (s : State) (f : LcsState → LcsState) : (s.modLcs f).out = s.out := rfl
@[simp] theorem State.modLcs_pending (s : State) (f : LcsState → LcsState) : (s.modLcs f).pending = s.pending := rfl
@[simp] theorem State.modLcs_lcs (s : State) (f : LcsState → LcsState) : (s.modLcs f).lcs = f s.lcs := rfl

@[simp] theorem State.modRas_fuse (s : State) (f : RasState → RasState) : (s.modRas f).fuse = s.fuse := rfl
@[simp] theorem State.modRas_inReset (s : State) (f : RasState → RasState) : (s.modRas f).inReset = s.inReset := rfl
@[simp] theorem State.modRas_retired (s : State) (f : RasState → RasState) : (s.modRas f).retired = s.retired := rfl
@[simp] theorem State.modRas_stage (s : State) (f : RasState → RasState) : (s.modRas f).stage = s.stage := rfl
@[simp] theorem State.modRas_bootMs (s : State) (f : RasState → RasState) : (s.modRas f).bootMs = s.bootMs := rfl
@[simp] theorem State.modRas_sclk (s : State) (f : RasState → RasState) : (s.modRas f).sclk = s.sclk := rfl
@[simp] theorem State.modRas_pins (s : State) (f : RasState → RasState) : (s.modRas f).pins = s.pins := rfl
@[simp] theorem State.modRas_side (s : State) (f : RasState → RasState) : (s.modRas f).side = s.side := rfl
@[simp] theorem State.modRas_siteSlot (s : State) (f : RasState → RasState) : (s.modRas f).siteSlot = s.siteSlot := rfl
@[simp] theorem State.modRas_arrays (s : State) (f : RasState → RasState) : (s.modRas f).arrays = s.arrays := rfl
@[simp] theorem State.modRas_fields (s : State) (f : RasState → RasState) : (s.modRas f).fields = s.fields := rfl
@[simp] theorem State.modRas_hbm (s : State) (f : RasState → RasState) : (s.modRas f).hbm = s.hbm := rfl
@[simp] theorem State.modRas_mem (s : State) (f : RasState → RasState) : (s.modRas f).mem = s.mem := rfl
@[simp] theorem State.modRas_net (s : State) (f : RasState → RasState) : (s.modRas f).net = s.net := rfl
@[simp] theorem State.modRas_coh (s : State) (f : RasState → RasState) : (s.modRas f).coh = s.coh := rfl
@[simp] theorem State.modRas_sites (s : State) (f : RasState → RasState) : (s.modRas f).sites = s.sites := rfl
@[simp] theorem State.modRas_ports (s : State) (f : RasState → RasState) : (s.modRas f).ports = s.ports := rfl
@[simp] theorem State.modRas_img (s : State) (f : RasState → RasState) : (s.modRas f).img = s.img := rfl
@[simp] theorem State.modRas_pnl (s : State) (f : RasState → RasState) : (s.modRas f).pnl = s.pnl := rfl
@[simp] theorem State.modRas_lcs (s : State) (f : RasState → RasState) : (s.modRas f).lcs = s.lcs := rfl
@[simp] theorem State.modRas_twin (s : State) (f : RasState → RasState) : (s.modRas f).twin = s.twin := rfl
@[simp] theorem State.modRas_lines (s : State) (f : RasState → RasState) : (s.modRas f).lines = s.lines := rfl
@[simp] theorem State.modRas_clk (s : State) (f : RasState → RasState) : (s.modRas f).clk = s.clk := rfl
@[simp] theorem State.modRas_pwr (s : State) (f : RasState → RasState) : (s.modRas f).pwr = s.pwr := rfl
@[simp] theorem State.modRas_heldLow (s : State) (f : RasState → RasState) : (s.modRas f).heldLow = s.heldLow := rfl
@[simp] theorem State.modRas_latched (s : State) (f : RasState → RasState) : (s.modRas f).latched = s.latched := rfl
@[simp] theorem State.modRas_draws (s : State) (f : RasState → RasState) : (s.modRas f).draws = s.draws := rfl
@[simp] theorem State.modRas_out (s : State) (f : RasState → RasState) : (s.modRas f).out = s.out := rfl
@[simp] theorem State.modRas_pending (s : State) (f : RasState → RasState) : (s.modRas f).pending = s.pending := rfl
@[simp] theorem State.modRas_ras (s : State) (f : RasState → RasState) : (s.modRas f).ras = f s.ras := rfl

@[simp] theorem State.modPrimer_fuse (s : State) (n : Fin 8) (f : PrimerSlot → PrimerSlot) : (s.modPrimer n f).fuse = s.fuse := rfl
@[simp] theorem State.modPrimer_inReset (s : State) (n : Fin 8) (f : PrimerSlot → PrimerSlot) : (s.modPrimer n f).inReset = s.inReset := rfl
@[simp] theorem State.modPrimer_retired (s : State) (n : Fin 8) (f : PrimerSlot → PrimerSlot) : (s.modPrimer n f).retired = s.retired := rfl
@[simp] theorem State.modPrimer_stage (s : State) (n : Fin 8) (f : PrimerSlot → PrimerSlot) : (s.modPrimer n f).stage = s.stage := rfl
@[simp] theorem State.modPrimer_bootMs (s : State) (n : Fin 8) (f : PrimerSlot → PrimerSlot) : (s.modPrimer n f).bootMs = s.bootMs := rfl
@[simp] theorem State.modPrimer_sclk (s : State) (n : Fin 8) (f : PrimerSlot → PrimerSlot) : (s.modPrimer n f).sclk = s.sclk := rfl
@[simp] theorem State.modPrimer_pins (s : State) (n : Fin 8) (f : PrimerSlot → PrimerSlot) : (s.modPrimer n f).pins = s.pins := rfl
@[simp] theorem State.modPrimer_side (s : State) (n : Fin 8) (f : PrimerSlot → PrimerSlot) : (s.modPrimer n f).side = s.side := rfl
@[simp] theorem State.modPrimer_siteSlot (s : State) (n : Fin 8) (f : PrimerSlot → PrimerSlot) : (s.modPrimer n f).siteSlot = s.siteSlot := rfl
@[simp] theorem State.modPrimer_arrays (s : State) (n : Fin 8) (f : PrimerSlot → PrimerSlot) : (s.modPrimer n f).arrays = s.arrays := rfl
@[simp] theorem State.modPrimer_fields (s : State) (n : Fin 8) (f : PrimerSlot → PrimerSlot) : (s.modPrimer n f).fields = s.fields := rfl
@[simp] theorem State.modPrimer_hbm (s : State) (n : Fin 8) (f : PrimerSlot → PrimerSlot) : (s.modPrimer n f).hbm = s.hbm := rfl
@[simp] theorem State.modPrimer_mem (s : State) (n : Fin 8) (f : PrimerSlot → PrimerSlot) : (s.modPrimer n f).mem = s.mem := rfl
@[simp] theorem State.modPrimer_net (s : State) (n : Fin 8) (f : PrimerSlot → PrimerSlot) : (s.modPrimer n f).net = s.net := rfl
@[simp] theorem State.modPrimer_coh (s : State) (n : Fin 8) (f : PrimerSlot → PrimerSlot) : (s.modPrimer n f).coh = s.coh := rfl
@[simp] theorem State.modPrimer_sites (s : State) (n : Fin 8) (f : PrimerSlot → PrimerSlot) : (s.modPrimer n f).sites = s.sites := rfl
@[simp] theorem State.modPrimer_ports (s : State) (n : Fin 8) (f : PrimerSlot → PrimerSlot) : (s.modPrimer n f).ports = s.ports := rfl
@[simp] theorem State.modPrimer_img (s : State) (n : Fin 8) (f : PrimerSlot → PrimerSlot) : (s.modPrimer n f).img = s.img := rfl
@[simp] theorem State.modPrimer_pnl (s : State) (n : Fin 8) (f : PrimerSlot → PrimerSlot) : (s.modPrimer n f).pnl = s.pnl := rfl
@[simp] theorem State.modPrimer_lcs (s : State) (n : Fin 8) (f : PrimerSlot → PrimerSlot) : (s.modPrimer n f).lcs = s.lcs := rfl
@[simp] theorem State.modPrimer_twin (s : State) (n : Fin 8) (f : PrimerSlot → PrimerSlot) : (s.modPrimer n f).twin = s.twin := rfl
@[simp] theorem State.modPrimer_lines (s : State) (n : Fin 8) (f : PrimerSlot → PrimerSlot) : (s.modPrimer n f).lines = s.lines := rfl
@[simp] theorem State.modPrimer_clk (s : State) (n : Fin 8) (f : PrimerSlot → PrimerSlot) : (s.modPrimer n f).clk = s.clk := rfl
@[simp] theorem State.modPrimer_pwr (s : State) (n : Fin 8) (f : PrimerSlot → PrimerSlot) : (s.modPrimer n f).pwr = s.pwr := rfl
@[simp] theorem State.modPrimer_heldLow (s : State) (n : Fin 8) (f : PrimerSlot → PrimerSlot) : (s.modPrimer n f).heldLow = s.heldLow := rfl
@[simp] theorem State.modPrimer_latched (s : State) (n : Fin 8) (f : PrimerSlot → PrimerSlot) : (s.modPrimer n f).latched = s.latched := rfl
@[simp] theorem State.modPrimer_draws (s : State) (n : Fin 8) (f : PrimerSlot → PrimerSlot) : (s.modPrimer n f).draws = s.draws := rfl
@[simp] theorem State.modPrimer_out (s : State) (n : Fin 8) (f : PrimerSlot → PrimerSlot) : (s.modPrimer n f).out = s.out := rfl
@[simp] theorem State.modPrimer_pending (s : State) (n : Fin 8) (f : PrimerSlot → PrimerSlot) : (s.modPrimer n f).pending = s.pending := rfl
@[simp] theorem State.modPrimer_ras (s : State) (n : Fin 8) (f : PrimerSlot → PrimerSlot) : (s.modPrimer n f).ras = { s.ras with primers := vmod s.ras.primers n f } := rfl

@[simp] theorem State.modTwin_fuse (s : State) (f : TwinState → TwinState) : (s.modTwin f).fuse = s.fuse := rfl
@[simp] theorem State.modTwin_inReset (s : State) (f : TwinState → TwinState) : (s.modTwin f).inReset = s.inReset := rfl
@[simp] theorem State.modTwin_retired (s : State) (f : TwinState → TwinState) : (s.modTwin f).retired = s.retired := rfl
@[simp] theorem State.modTwin_stage (s : State) (f : TwinState → TwinState) : (s.modTwin f).stage = s.stage := rfl
@[simp] theorem State.modTwin_bootMs (s : State) (f : TwinState → TwinState) : (s.modTwin f).bootMs = s.bootMs := rfl
@[simp] theorem State.modTwin_sclk (s : State) (f : TwinState → TwinState) : (s.modTwin f).sclk = s.sclk := rfl
@[simp] theorem State.modTwin_pins (s : State) (f : TwinState → TwinState) : (s.modTwin f).pins = s.pins := rfl
@[simp] theorem State.modTwin_side (s : State) (f : TwinState → TwinState) : (s.modTwin f).side = s.side := rfl
@[simp] theorem State.modTwin_siteSlot (s : State) (f : TwinState → TwinState) : (s.modTwin f).siteSlot = s.siteSlot := rfl
@[simp] theorem State.modTwin_arrays (s : State) (f : TwinState → TwinState) : (s.modTwin f).arrays = s.arrays := rfl
@[simp] theorem State.modTwin_fields (s : State) (f : TwinState → TwinState) : (s.modTwin f).fields = s.fields := rfl
@[simp] theorem State.modTwin_hbm (s : State) (f : TwinState → TwinState) : (s.modTwin f).hbm = s.hbm := rfl
@[simp] theorem State.modTwin_mem (s : State) (f : TwinState → TwinState) : (s.modTwin f).mem = s.mem := rfl
@[simp] theorem State.modTwin_net (s : State) (f : TwinState → TwinState) : (s.modTwin f).net = s.net := rfl
@[simp] theorem State.modTwin_coh (s : State) (f : TwinState → TwinState) : (s.modTwin f).coh = s.coh := rfl
@[simp] theorem State.modTwin_sites (s : State) (f : TwinState → TwinState) : (s.modTwin f).sites = s.sites := rfl
@[simp] theorem State.modTwin_ports (s : State) (f : TwinState → TwinState) : (s.modTwin f).ports = s.ports := rfl
@[simp] theorem State.modTwin_img (s : State) (f : TwinState → TwinState) : (s.modTwin f).img = s.img := rfl
@[simp] theorem State.modTwin_pnl (s : State) (f : TwinState → TwinState) : (s.modTwin f).pnl = s.pnl := rfl
@[simp] theorem State.modTwin_lcs (s : State) (f : TwinState → TwinState) : (s.modTwin f).lcs = s.lcs := rfl
@[simp] theorem State.modTwin_ras (s : State) (f : TwinState → TwinState) : (s.modTwin f).ras = s.ras := rfl
@[simp] theorem State.modTwin_lines (s : State) (f : TwinState → TwinState) : (s.modTwin f).lines = s.lines := rfl
@[simp] theorem State.modTwin_clk (s : State) (f : TwinState → TwinState) : (s.modTwin f).clk = s.clk := rfl
@[simp] theorem State.modTwin_pwr (s : State) (f : TwinState → TwinState) : (s.modTwin f).pwr = s.pwr := rfl
@[simp] theorem State.modTwin_heldLow (s : State) (f : TwinState → TwinState) : (s.modTwin f).heldLow = s.heldLow := rfl
@[simp] theorem State.modTwin_latched (s : State) (f : TwinState → TwinState) : (s.modTwin f).latched = s.latched := rfl
@[simp] theorem State.modTwin_draws (s : State) (f : TwinState → TwinState) : (s.modTwin f).draws = s.draws := rfl
@[simp] theorem State.modTwin_out (s : State) (f : TwinState → TwinState) : (s.modTwin f).out = s.out := rfl
@[simp] theorem State.modTwin_pending (s : State) (f : TwinState → TwinState) : (s.modTwin f).pending = s.pending := rfl
@[simp] theorem State.modTwin_twin (s : State) (f : TwinState → TwinState) : (s.modTwin f).twin = f s.twin := rfl

@[simp] theorem State.modTwinPort_fuse (s : State) (k : PortId) (f : TwinPort → TwinPort) : (s.modTwinPort k f).fuse = s.fuse := rfl
@[simp] theorem State.modTwinPort_inReset (s : State) (k : PortId) (f : TwinPort → TwinPort) : (s.modTwinPort k f).inReset = s.inReset := rfl
@[simp] theorem State.modTwinPort_retired (s : State) (k : PortId) (f : TwinPort → TwinPort) : (s.modTwinPort k f).retired = s.retired := rfl
@[simp] theorem State.modTwinPort_stage (s : State) (k : PortId) (f : TwinPort → TwinPort) : (s.modTwinPort k f).stage = s.stage := rfl
@[simp] theorem State.modTwinPort_bootMs (s : State) (k : PortId) (f : TwinPort → TwinPort) : (s.modTwinPort k f).bootMs = s.bootMs := rfl
@[simp] theorem State.modTwinPort_sclk (s : State) (k : PortId) (f : TwinPort → TwinPort) : (s.modTwinPort k f).sclk = s.sclk := rfl
@[simp] theorem State.modTwinPort_pins (s : State) (k : PortId) (f : TwinPort → TwinPort) : (s.modTwinPort k f).pins = s.pins := rfl
@[simp] theorem State.modTwinPort_side (s : State) (k : PortId) (f : TwinPort → TwinPort) : (s.modTwinPort k f).side = s.side := rfl
@[simp] theorem State.modTwinPort_siteSlot (s : State) (k : PortId) (f : TwinPort → TwinPort) : (s.modTwinPort k f).siteSlot = s.siteSlot := rfl
@[simp] theorem State.modTwinPort_arrays (s : State) (k : PortId) (f : TwinPort → TwinPort) : (s.modTwinPort k f).arrays = s.arrays := rfl
@[simp] theorem State.modTwinPort_fields (s : State) (k : PortId) (f : TwinPort → TwinPort) : (s.modTwinPort k f).fields = s.fields := rfl
@[simp] theorem State.modTwinPort_hbm (s : State) (k : PortId) (f : TwinPort → TwinPort) : (s.modTwinPort k f).hbm = s.hbm := rfl
@[simp] theorem State.modTwinPort_mem (s : State) (k : PortId) (f : TwinPort → TwinPort) : (s.modTwinPort k f).mem = s.mem := rfl
@[simp] theorem State.modTwinPort_net (s : State) (k : PortId) (f : TwinPort → TwinPort) : (s.modTwinPort k f).net = s.net := rfl
@[simp] theorem State.modTwinPort_coh (s : State) (k : PortId) (f : TwinPort → TwinPort) : (s.modTwinPort k f).coh = s.coh := rfl
@[simp] theorem State.modTwinPort_sites (s : State) (k : PortId) (f : TwinPort → TwinPort) : (s.modTwinPort k f).sites = s.sites := rfl
@[simp] theorem State.modTwinPort_ports (s : State) (k : PortId) (f : TwinPort → TwinPort) : (s.modTwinPort k f).ports = s.ports := rfl
@[simp] theorem State.modTwinPort_img (s : State) (k : PortId) (f : TwinPort → TwinPort) : (s.modTwinPort k f).img = s.img := rfl
@[simp] theorem State.modTwinPort_pnl (s : State) (k : PortId) (f : TwinPort → TwinPort) : (s.modTwinPort k f).pnl = s.pnl := rfl
@[simp] theorem State.modTwinPort_lcs (s : State) (k : PortId) (f : TwinPort → TwinPort) : (s.modTwinPort k f).lcs = s.lcs := rfl
@[simp] theorem State.modTwinPort_ras (s : State) (k : PortId) (f : TwinPort → TwinPort) : (s.modTwinPort k f).ras = s.ras := rfl
@[simp] theorem State.modTwinPort_lines (s : State) (k : PortId) (f : TwinPort → TwinPort) : (s.modTwinPort k f).lines = s.lines := rfl
@[simp] theorem State.modTwinPort_clk (s : State) (k : PortId) (f : TwinPort → TwinPort) : (s.modTwinPort k f).clk = s.clk := rfl
@[simp] theorem State.modTwinPort_pwr (s : State) (k : PortId) (f : TwinPort → TwinPort) : (s.modTwinPort k f).pwr = s.pwr := rfl
@[simp] theorem State.modTwinPort_heldLow (s : State) (k : PortId) (f : TwinPort → TwinPort) : (s.modTwinPort k f).heldLow = s.heldLow := rfl
@[simp] theorem State.modTwinPort_latched (s : State) (k : PortId) (f : TwinPort → TwinPort) : (s.modTwinPort k f).latched = s.latched := rfl
@[simp] theorem State.modTwinPort_draws (s : State) (k : PortId) (f : TwinPort → TwinPort) : (s.modTwinPort k f).draws = s.draws := rfl
@[simp] theorem State.modTwinPort_out (s : State) (k : PortId) (f : TwinPort → TwinPort) : (s.modTwinPort k f).out = s.out := rfl
@[simp] theorem State.modTwinPort_pending (s : State) (k : PortId) (f : TwinPort → TwinPort) : (s.modTwinPort k f).pending = s.pending := rfl
@[simp] theorem State.modTwinPort_twin (s : State) (k : PortId) (f : TwinPort → TwinPort) : (s.modTwinPort k f).twin = { s.twin with ports := vmod s.twin.ports k f } := rfl

@[simp] theorem State.modBind_fuse (s : State) (b : BindId) (f : TwinBinding → TwinBinding) : (s.modBind b f).fuse = s.fuse := rfl
@[simp] theorem State.modBind_inReset (s : State) (b : BindId) (f : TwinBinding → TwinBinding) : (s.modBind b f).inReset = s.inReset := rfl
@[simp] theorem State.modBind_retired (s : State) (b : BindId) (f : TwinBinding → TwinBinding) : (s.modBind b f).retired = s.retired := rfl
@[simp] theorem State.modBind_stage (s : State) (b : BindId) (f : TwinBinding → TwinBinding) : (s.modBind b f).stage = s.stage := rfl
@[simp] theorem State.modBind_bootMs (s : State) (b : BindId) (f : TwinBinding → TwinBinding) : (s.modBind b f).bootMs = s.bootMs := rfl
@[simp] theorem State.modBind_sclk (s : State) (b : BindId) (f : TwinBinding → TwinBinding) : (s.modBind b f).sclk = s.sclk := rfl
@[simp] theorem State.modBind_pins (s : State) (b : BindId) (f : TwinBinding → TwinBinding) : (s.modBind b f).pins = s.pins := rfl
@[simp] theorem State.modBind_side (s : State) (b : BindId) (f : TwinBinding → TwinBinding) : (s.modBind b f).side = s.side := rfl
@[simp] theorem State.modBind_siteSlot (s : State) (b : BindId) (f : TwinBinding → TwinBinding) : (s.modBind b f).siteSlot = s.siteSlot := rfl
@[simp] theorem State.modBind_arrays (s : State) (b : BindId) (f : TwinBinding → TwinBinding) : (s.modBind b f).arrays = s.arrays := rfl
@[simp] theorem State.modBind_fields (s : State) (b : BindId) (f : TwinBinding → TwinBinding) : (s.modBind b f).fields = s.fields := rfl
@[simp] theorem State.modBind_hbm (s : State) (b : BindId) (f : TwinBinding → TwinBinding) : (s.modBind b f).hbm = s.hbm := rfl
@[simp] theorem State.modBind_mem (s : State) (b : BindId) (f : TwinBinding → TwinBinding) : (s.modBind b f).mem = s.mem := rfl
@[simp] theorem State.modBind_net (s : State) (b : BindId) (f : TwinBinding → TwinBinding) : (s.modBind b f).net = s.net := rfl
@[simp] theorem State.modBind_coh (s : State) (b : BindId) (f : TwinBinding → TwinBinding) : (s.modBind b f).coh = s.coh := rfl
@[simp] theorem State.modBind_sites (s : State) (b : BindId) (f : TwinBinding → TwinBinding) : (s.modBind b f).sites = s.sites := rfl
@[simp] theorem State.modBind_ports (s : State) (b : BindId) (f : TwinBinding → TwinBinding) : (s.modBind b f).ports = s.ports := rfl
@[simp] theorem State.modBind_img (s : State) (b : BindId) (f : TwinBinding → TwinBinding) : (s.modBind b f).img = s.img := rfl
@[simp] theorem State.modBind_pnl (s : State) (b : BindId) (f : TwinBinding → TwinBinding) : (s.modBind b f).pnl = s.pnl := rfl
@[simp] theorem State.modBind_lcs (s : State) (b : BindId) (f : TwinBinding → TwinBinding) : (s.modBind b f).lcs = s.lcs := rfl
@[simp] theorem State.modBind_ras (s : State) (b : BindId) (f : TwinBinding → TwinBinding) : (s.modBind b f).ras = s.ras := rfl
@[simp] theorem State.modBind_lines (s : State) (b : BindId) (f : TwinBinding → TwinBinding) : (s.modBind b f).lines = s.lines := rfl
@[simp] theorem State.modBind_clk (s : State) (b : BindId) (f : TwinBinding → TwinBinding) : (s.modBind b f).clk = s.clk := rfl
@[simp] theorem State.modBind_pwr (s : State) (b : BindId) (f : TwinBinding → TwinBinding) : (s.modBind b f).pwr = s.pwr := rfl
@[simp] theorem State.modBind_heldLow (s : State) (b : BindId) (f : TwinBinding → TwinBinding) : (s.modBind b f).heldLow = s.heldLow := rfl
@[simp] theorem State.modBind_latched (s : State) (b : BindId) (f : TwinBinding → TwinBinding) : (s.modBind b f).latched = s.latched := rfl
@[simp] theorem State.modBind_draws (s : State) (b : BindId) (f : TwinBinding → TwinBinding) : (s.modBind b f).draws = s.draws := rfl
@[simp] theorem State.modBind_out (s : State) (b : BindId) (f : TwinBinding → TwinBinding) : (s.modBind b f).out = s.out := rfl
@[simp] theorem State.modBind_pending (s : State) (b : BindId) (f : TwinBinding → TwinBinding) : (s.modBind b f).pending = s.pending := rfl
@[simp] theorem State.modBind_twin (s : State) (b : BindId) (f : TwinBinding → TwinBinding) : (s.modBind b f).twin = { s.twin with bindings := vmod s.twin.bindings b f } := rfl

@[simp] theorem State.modLine_fuse (s : State) (k : PortId) (f : TwinLine → TwinLine) : (s.modLine k f).fuse = s.fuse := rfl
@[simp] theorem State.modLine_inReset (s : State) (k : PortId) (f : TwinLine → TwinLine) : (s.modLine k f).inReset = s.inReset := rfl
@[simp] theorem State.modLine_retired (s : State) (k : PortId) (f : TwinLine → TwinLine) : (s.modLine k f).retired = s.retired := rfl
@[simp] theorem State.modLine_stage (s : State) (k : PortId) (f : TwinLine → TwinLine) : (s.modLine k f).stage = s.stage := rfl
@[simp] theorem State.modLine_bootMs (s : State) (k : PortId) (f : TwinLine → TwinLine) : (s.modLine k f).bootMs = s.bootMs := rfl
@[simp] theorem State.modLine_sclk (s : State) (k : PortId) (f : TwinLine → TwinLine) : (s.modLine k f).sclk = s.sclk := rfl
@[simp] theorem State.modLine_pins (s : State) (k : PortId) (f : TwinLine → TwinLine) : (s.modLine k f).pins = s.pins := rfl
@[simp] theorem State.modLine_side (s : State) (k : PortId) (f : TwinLine → TwinLine) : (s.modLine k f).side = s.side := rfl
@[simp] theorem State.modLine_siteSlot (s : State) (k : PortId) (f : TwinLine → TwinLine) : (s.modLine k f).siteSlot = s.siteSlot := rfl
@[simp] theorem State.modLine_arrays (s : State) (k : PortId) (f : TwinLine → TwinLine) : (s.modLine k f).arrays = s.arrays := rfl
@[simp] theorem State.modLine_fields (s : State) (k : PortId) (f : TwinLine → TwinLine) : (s.modLine k f).fields = s.fields := rfl
@[simp] theorem State.modLine_hbm (s : State) (k : PortId) (f : TwinLine → TwinLine) : (s.modLine k f).hbm = s.hbm := rfl
@[simp] theorem State.modLine_mem (s : State) (k : PortId) (f : TwinLine → TwinLine) : (s.modLine k f).mem = s.mem := rfl
@[simp] theorem State.modLine_net (s : State) (k : PortId) (f : TwinLine → TwinLine) : (s.modLine k f).net = s.net := rfl
@[simp] theorem State.modLine_coh (s : State) (k : PortId) (f : TwinLine → TwinLine) : (s.modLine k f).coh = s.coh := rfl
@[simp] theorem State.modLine_sites (s : State) (k : PortId) (f : TwinLine → TwinLine) : (s.modLine k f).sites = s.sites := rfl
@[simp] theorem State.modLine_ports (s : State) (k : PortId) (f : TwinLine → TwinLine) : (s.modLine k f).ports = s.ports := rfl
@[simp] theorem State.modLine_img (s : State) (k : PortId) (f : TwinLine → TwinLine) : (s.modLine k f).img = s.img := rfl
@[simp] theorem State.modLine_pnl (s : State) (k : PortId) (f : TwinLine → TwinLine) : (s.modLine k f).pnl = s.pnl := rfl
@[simp] theorem State.modLine_lcs (s : State) (k : PortId) (f : TwinLine → TwinLine) : (s.modLine k f).lcs = s.lcs := rfl
@[simp] theorem State.modLine_ras (s : State) (k : PortId) (f : TwinLine → TwinLine) : (s.modLine k f).ras = s.ras := rfl
@[simp] theorem State.modLine_twin (s : State) (k : PortId) (f : TwinLine → TwinLine) : (s.modLine k f).twin = s.twin := rfl
@[simp] theorem State.modLine_clk (s : State) (k : PortId) (f : TwinLine → TwinLine) : (s.modLine k f).clk = s.clk := rfl
@[simp] theorem State.modLine_pwr (s : State) (k : PortId) (f : TwinLine → TwinLine) : (s.modLine k f).pwr = s.pwr := rfl
@[simp] theorem State.modLine_heldLow (s : State) (k : PortId) (f : TwinLine → TwinLine) : (s.modLine k f).heldLow = s.heldLow := rfl
@[simp] theorem State.modLine_latched (s : State) (k : PortId) (f : TwinLine → TwinLine) : (s.modLine k f).latched = s.latched := rfl
@[simp] theorem State.modLine_draws (s : State) (k : PortId) (f : TwinLine → TwinLine) : (s.modLine k f).draws = s.draws := rfl
@[simp] theorem State.modLine_out (s : State) (k : PortId) (f : TwinLine → TwinLine) : (s.modLine k f).out = s.out := rfl
@[simp] theorem State.modLine_pending (s : State) (k : PortId) (f : TwinLine → TwinLine) : (s.modLine k f).pending = s.pending := rfl
@[simp] theorem State.modLine_lines (s : State) (k : PortId) (f : TwinLine → TwinLine) : (s.modLine k f).lines = vmod s.lines k f := rfl

@[simp] theorem State.modClk_fuse (s : State) (f : ClkState → ClkState) : (s.modClk f).fuse = s.fuse := rfl
@[simp] theorem State.modClk_inReset (s : State) (f : ClkState → ClkState) : (s.modClk f).inReset = s.inReset := rfl
@[simp] theorem State.modClk_retired (s : State) (f : ClkState → ClkState) : (s.modClk f).retired = s.retired := rfl
@[simp] theorem State.modClk_stage (s : State) (f : ClkState → ClkState) : (s.modClk f).stage = s.stage := rfl
@[simp] theorem State.modClk_bootMs (s : State) (f : ClkState → ClkState) : (s.modClk f).bootMs = s.bootMs := rfl
@[simp] theorem State.modClk_sclk (s : State) (f : ClkState → ClkState) : (s.modClk f).sclk = s.sclk := rfl
@[simp] theorem State.modClk_pins (s : State) (f : ClkState → ClkState) : (s.modClk f).pins = s.pins := rfl
@[simp] theorem State.modClk_side (s : State) (f : ClkState → ClkState) : (s.modClk f).side = s.side := rfl
@[simp] theorem State.modClk_siteSlot (s : State) (f : ClkState → ClkState) : (s.modClk f).siteSlot = s.siteSlot := rfl
@[simp] theorem State.modClk_arrays (s : State) (f : ClkState → ClkState) : (s.modClk f).arrays = s.arrays := rfl
@[simp] theorem State.modClk_fields (s : State) (f : ClkState → ClkState) : (s.modClk f).fields = s.fields := rfl
@[simp] theorem State.modClk_hbm (s : State) (f : ClkState → ClkState) : (s.modClk f).hbm = s.hbm := rfl
@[simp] theorem State.modClk_mem (s : State) (f : ClkState → ClkState) : (s.modClk f).mem = s.mem := rfl
@[simp] theorem State.modClk_net (s : State) (f : ClkState → ClkState) : (s.modClk f).net = s.net := rfl
@[simp] theorem State.modClk_coh (s : State) (f : ClkState → ClkState) : (s.modClk f).coh = s.coh := rfl
@[simp] theorem State.modClk_sites (s : State) (f : ClkState → ClkState) : (s.modClk f).sites = s.sites := rfl
@[simp] theorem State.modClk_ports (s : State) (f : ClkState → ClkState) : (s.modClk f).ports = s.ports := rfl
@[simp] theorem State.modClk_img (s : State) (f : ClkState → ClkState) : (s.modClk f).img = s.img := rfl
@[simp] theorem State.modClk_pnl (s : State) (f : ClkState → ClkState) : (s.modClk f).pnl = s.pnl := rfl
@[simp] theorem State.modClk_lcs (s : State) (f : ClkState → ClkState) : (s.modClk f).lcs = s.lcs := rfl
@[simp] theorem State.modClk_ras (s : State) (f : ClkState → ClkState) : (s.modClk f).ras = s.ras := rfl
@[simp] theorem State.modClk_twin (s : State) (f : ClkState → ClkState) : (s.modClk f).twin = s.twin := rfl
@[simp] theorem State.modClk_lines (s : State) (f : ClkState → ClkState) : (s.modClk f).lines = s.lines := rfl
@[simp] theorem State.modClk_pwr (s : State) (f : ClkState → ClkState) : (s.modClk f).pwr = s.pwr := rfl
@[simp] theorem State.modClk_heldLow (s : State) (f : ClkState → ClkState) : (s.modClk f).heldLow = s.heldLow := rfl
@[simp] theorem State.modClk_latched (s : State) (f : ClkState → ClkState) : (s.modClk f).latched = s.latched := rfl
@[simp] theorem State.modClk_draws (s : State) (f : ClkState → ClkState) : (s.modClk f).draws = s.draws := rfl
@[simp] theorem State.modClk_out (s : State) (f : ClkState → ClkState) : (s.modClk f).out = s.out := rfl
@[simp] theorem State.modClk_pending (s : State) (f : ClkState → ClkState) : (s.modClk f).pending = s.pending := rfl
@[simp] theorem State.modClk_clk (s : State) (f : ClkState → ClkState) : (s.modClk f).clk = f s.clk := rfl

@[simp] theorem State.modPwr_fuse (s : State) (f : PwrState → PwrState) : (s.modPwr f).fuse = s.fuse := rfl
@[simp] theorem State.modPwr_inReset (s : State) (f : PwrState → PwrState) : (s.modPwr f).inReset = s.inReset := rfl
@[simp] theorem State.modPwr_retired (s : State) (f : PwrState → PwrState) : (s.modPwr f).retired = s.retired := rfl
@[simp] theorem State.modPwr_stage (s : State) (f : PwrState → PwrState) : (s.modPwr f).stage = s.stage := rfl
@[simp] theorem State.modPwr_bootMs (s : State) (f : PwrState → PwrState) : (s.modPwr f).bootMs = s.bootMs := rfl
@[simp] theorem State.modPwr_sclk (s : State) (f : PwrState → PwrState) : (s.modPwr f).sclk = s.sclk := rfl
@[simp] theorem State.modPwr_pins (s : State) (f : PwrState → PwrState) : (s.modPwr f).pins = s.pins := rfl
@[simp] theorem State.modPwr_side (s : State) (f : PwrState → PwrState) : (s.modPwr f).side = s.side := rfl
@[simp] theorem State.modPwr_siteSlot (s : State) (f : PwrState → PwrState) : (s.modPwr f).siteSlot = s.siteSlot := rfl
@[simp] theorem State.modPwr_arrays (s : State) (f : PwrState → PwrState) : (s.modPwr f).arrays = s.arrays := rfl
@[simp] theorem State.modPwr_fields (s : State) (f : PwrState → PwrState) : (s.modPwr f).fields = s.fields := rfl
@[simp] theorem State.modPwr_hbm (s : State) (f : PwrState → PwrState) : (s.modPwr f).hbm = s.hbm := rfl
@[simp] theorem State.modPwr_mem (s : State) (f : PwrState → PwrState) : (s.modPwr f).mem = s.mem := rfl
@[simp] theorem State.modPwr_net (s : State) (f : PwrState → PwrState) : (s.modPwr f).net = s.net := rfl
@[simp] theorem State.modPwr_coh (s : State) (f : PwrState → PwrState) : (s.modPwr f).coh = s.coh := rfl
@[simp] theorem State.modPwr_sites (s : State) (f : PwrState → PwrState) : (s.modPwr f).sites = s.sites := rfl
@[simp] theorem State.modPwr_ports (s : State) (f : PwrState → PwrState) : (s.modPwr f).ports = s.ports := rfl
@[simp] theorem State.modPwr_img (s : State) (f : PwrState → PwrState) : (s.modPwr f).img = s.img := rfl
@[simp] theorem State.modPwr_pnl (s : State) (f : PwrState → PwrState) : (s.modPwr f).pnl = s.pnl := rfl
@[simp] theorem State.modPwr_lcs (s : State) (f : PwrState → PwrState) : (s.modPwr f).lcs = s.lcs := rfl
@[simp] theorem State.modPwr_ras (s : State) (f : PwrState → PwrState) : (s.modPwr f).ras = s.ras := rfl
@[simp] theorem State.modPwr_twin (s : State) (f : PwrState → PwrState) : (s.modPwr f).twin = s.twin := rfl
@[simp] theorem State.modPwr_lines (s : State) (f : PwrState → PwrState) : (s.modPwr f).lines = s.lines := rfl
@[simp] theorem State.modPwr_clk (s : State) (f : PwrState → PwrState) : (s.modPwr f).clk = s.clk := rfl
@[simp] theorem State.modPwr_heldLow (s : State) (f : PwrState → PwrState) : (s.modPwr f).heldLow = s.heldLow := rfl
@[simp] theorem State.modPwr_latched (s : State) (f : PwrState → PwrState) : (s.modPwr f).latched = s.latched := rfl
@[simp] theorem State.modPwr_draws (s : State) (f : PwrState → PwrState) : (s.modPwr f).draws = s.draws := rfl
@[simp] theorem State.modPwr_out (s : State) (f : PwrState → PwrState) : (s.modPwr f).out = s.out := rfl
@[simp] theorem State.modPwr_pending (s : State) (f : PwrState → PwrState) : (s.modPwr f).pending = s.pending := rfl
@[simp] theorem State.modPwr_pwr (s : State) (f : PwrState → PwrState) : (s.modPwr f).pwr = f s.pwr := rfl

@[simp] theorem State.modPins_fuse (s : State) (f : Pins → Pins) : (s.modPins f).fuse = s.fuse := rfl
@[simp] theorem State.modPins_inReset (s : State) (f : Pins → Pins) : (s.modPins f).inReset = s.inReset := rfl
@[simp] theorem State.modPins_retired (s : State) (f : Pins → Pins) : (s.modPins f).retired = s.retired := rfl
@[simp] theorem State.modPins_stage (s : State) (f : Pins → Pins) : (s.modPins f).stage = s.stage := rfl
@[simp] theorem State.modPins_bootMs (s : State) (f : Pins → Pins) : (s.modPins f).bootMs = s.bootMs := rfl
@[simp] theorem State.modPins_sclk (s : State) (f : Pins → Pins) : (s.modPins f).sclk = s.sclk := rfl
@[simp] theorem State.modPins_side (s : State) (f : Pins → Pins) : (s.modPins f).side = s.side := rfl
@[simp] theorem State.modPins_siteSlot (s : State) (f : Pins → Pins) : (s.modPins f).siteSlot = s.siteSlot := rfl
@[simp] theorem State.modPins_arrays (s : State) (f : Pins → Pins) : (s.modPins f).arrays = s.arrays := rfl
@[simp] theorem State.modPins_fields (s : State) (f : Pins → Pins) : (s.modPins f).fields = s.fields := rfl
@[simp] theorem State.modPins_hbm (s : State) (f : Pins → Pins) : (s.modPins f).hbm = s.hbm := rfl
@[simp] theorem State.modPins_mem (s : State) (f : Pins → Pins) : (s.modPins f).mem = s.mem := rfl
@[simp] theorem State.modPins_net (s : State) (f : Pins → Pins) : (s.modPins f).net = s.net := rfl
@[simp] theorem State.modPins_coh (s : State) (f : Pins → Pins) : (s.modPins f).coh = s.coh := rfl
@[simp] theorem State.modPins_sites (s : State) (f : Pins → Pins) : (s.modPins f).sites = s.sites := rfl
@[simp] theorem State.modPins_ports (s : State) (f : Pins → Pins) : (s.modPins f).ports = s.ports := rfl
@[simp] theorem State.modPins_img (s : State) (f : Pins → Pins) : (s.modPins f).img = s.img := rfl
@[simp] theorem State.modPins_pnl (s : State) (f : Pins → Pins) : (s.modPins f).pnl = s.pnl := rfl
@[simp] theorem State.modPins_lcs (s : State) (f : Pins → Pins) : (s.modPins f).lcs = s.lcs := rfl
@[simp] theorem State.modPins_ras (s : State) (f : Pins → Pins) : (s.modPins f).ras = s.ras := rfl
@[simp] theorem State.modPins_twin (s : State) (f : Pins → Pins) : (s.modPins f).twin = s.twin := rfl
@[simp] theorem State.modPins_lines (s : State) (f : Pins → Pins) : (s.modPins f).lines = s.lines := rfl
@[simp] theorem State.modPins_clk (s : State) (f : Pins → Pins) : (s.modPins f).clk = s.clk := rfl
@[simp] theorem State.modPins_pwr (s : State) (f : Pins → Pins) : (s.modPins f).pwr = s.pwr := rfl
@[simp] theorem State.modPins_heldLow (s : State) (f : Pins → Pins) : (s.modPins f).heldLow = s.heldLow := rfl
@[simp] theorem State.modPins_latched (s : State) (f : Pins → Pins) : (s.modPins f).latched = s.latched := rfl
@[simp] theorem State.modPins_draws (s : State) (f : Pins → Pins) : (s.modPins f).draws = s.draws := rfl
@[simp] theorem State.modPins_out (s : State) (f : Pins → Pins) : (s.modPins f).out = s.out := rfl
@[simp] theorem State.modPins_pending (s : State) (f : Pins → Pins) : (s.modPins f).pending = s.pending := rfl
@[simp] theorem State.modPins_pins (s : State) (f : Pins → Pins) : (s.modPins f).pins = f s.pins := rfl

@[simp] theorem State.modSide_fuse (s : State) (f : Sideband → Sideband) : (s.modSide f).fuse = s.fuse := rfl
@[simp] theorem State.modSide_inReset (s : State) (f : Sideband → Sideband) : (s.modSide f).inReset = s.inReset := rfl
@[simp] theorem State.modSide_retired (s : State) (f : Sideband → Sideband) : (s.modSide f).retired = s.retired := rfl
@[simp] theorem State.modSide_stage (s : State) (f : Sideband → Sideband) : (s.modSide f).stage = s.stage := rfl
@[simp] theorem State.modSide_bootMs (s : State) (f : Sideband → Sideband) : (s.modSide f).bootMs = s.bootMs := rfl
@[simp] theorem State.modSide_sclk (s : State) (f : Sideband → Sideband) : (s.modSide f).sclk = s.sclk := rfl
@[simp] theorem State.modSide_pins (s : State) (f : Sideband → Sideband) : (s.modSide f).pins = s.pins := rfl
@[simp] theorem State.modSide_siteSlot (s : State) (f : Sideband → Sideband) : (s.modSide f).siteSlot = s.siteSlot := rfl
@[simp] theorem State.modSide_arrays (s : State) (f : Sideband → Sideband) : (s.modSide f).arrays = s.arrays := rfl
@[simp] theorem State.modSide_fields (s : State) (f : Sideband → Sideband) : (s.modSide f).fields = s.fields := rfl
@[simp] theorem State.modSide_hbm (s : State) (f : Sideband → Sideband) : (s.modSide f).hbm = s.hbm := rfl
@[simp] theorem State.modSide_mem (s : State) (f : Sideband → Sideband) : (s.modSide f).mem = s.mem := rfl
@[simp] theorem State.modSide_net (s : State) (f : Sideband → Sideband) : (s.modSide f).net = s.net := rfl
@[simp] theorem State.modSide_coh (s : State) (f : Sideband → Sideband) : (s.modSide f).coh = s.coh := rfl
@[simp] theorem State.modSide_sites (s : State) (f : Sideband → Sideband) : (s.modSide f).sites = s.sites := rfl
@[simp] theorem State.modSide_ports (s : State) (f : Sideband → Sideband) : (s.modSide f).ports = s.ports := rfl
@[simp] theorem State.modSide_img (s : State) (f : Sideband → Sideband) : (s.modSide f).img = s.img := rfl
@[simp] theorem State.modSide_pnl (s : State) (f : Sideband → Sideband) : (s.modSide f).pnl = s.pnl := rfl
@[simp] theorem State.modSide_lcs (s : State) (f : Sideband → Sideband) : (s.modSide f).lcs = s.lcs := rfl
@[simp] theorem State.modSide_ras (s : State) (f : Sideband → Sideband) : (s.modSide f).ras = s.ras := rfl
@[simp] theorem State.modSide_twin (s : State) (f : Sideband → Sideband) : (s.modSide f).twin = s.twin := rfl
@[simp] theorem State.modSide_lines (s : State) (f : Sideband → Sideband) : (s.modSide f).lines = s.lines := rfl
@[simp] theorem State.modSide_clk (s : State) (f : Sideband → Sideband) : (s.modSide f).clk = s.clk := rfl
@[simp] theorem State.modSide_pwr (s : State) (f : Sideband → Sideband) : (s.modSide f).pwr = s.pwr := rfl
@[simp] theorem State.modSide_heldLow (s : State) (f : Sideband → Sideband) : (s.modSide f).heldLow = s.heldLow := rfl
@[simp] theorem State.modSide_latched (s : State) (f : Sideband → Sideband) : (s.modSide f).latched = s.latched := rfl
@[simp] theorem State.modSide_draws (s : State) (f : Sideband → Sideband) : (s.modSide f).draws = s.draws := rfl
@[simp] theorem State.modSide_out (s : State) (f : Sideband → Sideband) : (s.modSide f).out = s.out := rfl
@[simp] theorem State.modSide_pending (s : State) (f : Sideband → Sideband) : (s.modSide f).pending = s.pending := rfl
@[simp] theorem State.modSide_side (s : State) (f : Sideband → Sideband) : (s.modSide f).side = f s.side := rfl

@[simp] theorem State.modFuse_inReset (s : State) (f : Fuses → Fuses) : (s.modFuse f).inReset = s.inReset := rfl
@[simp] theorem State.modFuse_retired (s : State) (f : Fuses → Fuses) : (s.modFuse f).retired = s.retired := rfl
@[simp] theorem State.modFuse_stage (s : State) (f : Fuses → Fuses) : (s.modFuse f).stage = s.stage := rfl
@[simp] theorem State.modFuse_bootMs (s : State) (f : Fuses → Fuses) : (s.modFuse f).bootMs = s.bootMs := rfl
@[simp] theorem State.modFuse_sclk (s : State) (f : Fuses → Fuses) : (s.modFuse f).sclk = s.sclk := rfl
@[simp] theorem State.modFuse_pins (s : State) (f : Fuses → Fuses) : (s.modFuse f).pins = s.pins := rfl
@[simp] theorem State.modFuse_side (s : State) (f : Fuses → Fuses) : (s.modFuse f).side = s.side := rfl
@[simp] theorem State.modFuse_siteSlot (s : State) (f : Fuses → Fuses) : (s.modFuse f).siteSlot = s.siteSlot := rfl
@[simp] theorem State.modFuse_arrays (s : State) (f : Fuses → Fuses) : (s.modFuse f).arrays = s.arrays := rfl
@[simp] theorem State.modFuse_fields (s : State) (f : Fuses → Fuses) : (s.modFuse f).fields = s.fields := rfl
@[simp] theorem State.modFuse_hbm (s : State) (f : Fuses → Fuses) : (s.modFuse f).hbm = s.hbm := rfl
@[simp] theorem State.modFuse_mem (s : State) (f : Fuses → Fuses) : (s.modFuse f).mem = s.mem := rfl
@[simp] theorem State.modFuse_net (s : State) (f : Fuses → Fuses) : (s.modFuse f).net = s.net := rfl
@[simp] theorem State.modFuse_coh (s : State) (f : Fuses → Fuses) : (s.modFuse f).coh = s.coh := rfl
@[simp] theorem State.modFuse_sites (s : State) (f : Fuses → Fuses) : (s.modFuse f).sites = s.sites := rfl
@[simp] theorem State.modFuse_ports (s : State) (f : Fuses → Fuses) : (s.modFuse f).ports = s.ports := rfl
@[simp] theorem State.modFuse_img (s : State) (f : Fuses → Fuses) : (s.modFuse f).img = s.img := rfl
@[simp] theorem State.modFuse_pnl (s : State) (f : Fuses → Fuses) : (s.modFuse f).pnl = s.pnl := rfl
@[simp] theorem State.modFuse_lcs (s : State) (f : Fuses → Fuses) : (s.modFuse f).lcs = s.lcs := rfl
@[simp] theorem State.modFuse_ras (s : State) (f : Fuses → Fuses) : (s.modFuse f).ras = s.ras := rfl
@[simp] theorem State.modFuse_twin (s : State) (f : Fuses → Fuses) : (s.modFuse f).twin = s.twin := rfl
@[simp] theorem State.modFuse_lines (s : State) (f : Fuses → Fuses) : (s.modFuse f).lines = s.lines := rfl
@[simp] theorem State.modFuse_clk (s : State) (f : Fuses → Fuses) : (s.modFuse f).clk = s.clk := rfl
@[simp] theorem State.modFuse_pwr (s : State) (f : Fuses → Fuses) : (s.modFuse f).pwr = s.pwr := rfl
@[simp] theorem State.modFuse_heldLow (s : State) (f : Fuses → Fuses) : (s.modFuse f).heldLow = s.heldLow := rfl
@[simp] theorem State.modFuse_latched (s : State) (f : Fuses → Fuses) : (s.modFuse f).latched = s.latched := rfl
@[simp] theorem State.modFuse_draws (s : State) (f : Fuses → Fuses) : (s.modFuse f).draws = s.draws := rfl
@[simp] theorem State.modFuse_out (s : State) (f : Fuses → Fuses) : (s.modFuse f).out = s.out := rfl
@[simp] theorem State.modFuse_pending (s : State) (f : Fuses → Fuses) : (s.modFuse f).pending = s.pending := rfl
@[simp] theorem State.modFuse_fuse (s : State) (f : Fuses → Fuses) : (s.modFuse f).fuse = f s.fuse := rfl

@[simp] theorem State.emit_fuse (s : State) (o : Out) : (s.emit o).fuse = s.fuse := rfl
@[simp] theorem State.emit_inReset (s : State) (o : Out) : (s.emit o).inReset = s.inReset := rfl
@[simp] theorem State.emit_retired (s : State) (o : Out) : (s.emit o).retired = s.retired := rfl
@[simp] theorem State.emit_stage (s : State) (o : Out) : (s.emit o).stage = s.stage := rfl
@[simp] theorem State.emit_bootMs (s : State) (o : Out) : (s.emit o).bootMs = s.bootMs := rfl
@[simp] theorem State.emit_sclk (s : State) (o : Out) : (s.emit o).sclk = s.sclk := rfl
@[simp] theorem State.emit_pins (s : State) (o : Out) : (s.emit o).pins = s.pins := rfl
@[simp] theorem State.emit_side (s : State) (o : Out) : (s.emit o).side = s.side := rfl
@[simp] theorem State.emit_siteSlot (s : State) (o : Out) : (s.emit o).siteSlot = s.siteSlot := rfl
@[simp] theorem State.emit_arrays (s : State) (o : Out) : (s.emit o).arrays = s.arrays := rfl
@[simp] theorem State.emit_fields (s : State) (o : Out) : (s.emit o).fields = s.fields := rfl
@[simp] theorem State.emit_hbm (s : State) (o : Out) : (s.emit o).hbm = s.hbm := rfl
@[simp] theorem State.emit_mem (s : State) (o : Out) : (s.emit o).mem = s.mem := rfl
@[simp] theorem State.emit_net (s : State) (o : Out) : (s.emit o).net = s.net := rfl
@[simp] theorem State.emit_coh (s : State) (o : Out) : (s.emit o).coh = s.coh := rfl
@[simp] theorem State.emit_sites (s : State) (o : Out) : (s.emit o).sites = s.sites := rfl
@[simp] theorem State.emit_ports (s : State) (o : Out) : (s.emit o).ports = s.ports := rfl
@[simp] theorem State.emit_img (s : State) (o : Out) : (s.emit o).img = s.img := rfl
@[simp] theorem State.emit_pnl (s : State) (o : Out) : (s.emit o).pnl = s.pnl := rfl
@[simp] theorem State.emit_lcs (s : State) (o : Out) : (s.emit o).lcs = s.lcs := rfl
@[simp] theorem State.emit_ras (s : State) (o : Out) : (s.emit o).ras = s.ras := rfl
@[simp] theorem State.emit_twin (s : State) (o : Out) : (s.emit o).twin = s.twin := rfl
@[simp] theorem State.emit_lines (s : State) (o : Out) : (s.emit o).lines = s.lines := rfl
@[simp] theorem State.emit_clk (s : State) (o : Out) : (s.emit o).clk = s.clk := rfl
@[simp] theorem State.emit_pwr (s : State) (o : Out) : (s.emit o).pwr = s.pwr := rfl
@[simp] theorem State.emit_heldLow (s : State) (o : Out) : (s.emit o).heldLow = s.heldLow := rfl
@[simp] theorem State.emit_latched (s : State) (o : Out) : (s.emit o).latched = s.latched := rfl
@[simp] theorem State.emit_draws (s : State) (o : Out) : (s.emit o).draws = s.draws := rfl
@[simp] theorem State.emit_pending (s : State) (o : Out) : (s.emit o).pending = s.pending := rfl
@[simp] theorem State.emit_out (s : State) (o : Out) : (s.emit o).out = o :: s.out := rfl

@[simp] theorem State.drawn_fuse (s : State) : s.drawn.fuse = s.fuse := rfl
@[simp] theorem State.drawn_inReset (s : State) : s.drawn.inReset = s.inReset := rfl
@[simp] theorem State.drawn_retired (s : State) : s.drawn.retired = s.retired := rfl
@[simp] theorem State.drawn_stage (s : State) : s.drawn.stage = s.stage := rfl
@[simp] theorem State.drawn_bootMs (s : State) : s.drawn.bootMs = s.bootMs := rfl
@[simp] theorem State.drawn_sclk (s : State) : s.drawn.sclk = s.sclk := rfl
@[simp] theorem State.drawn_pins (s : State) : s.drawn.pins = s.pins := rfl
@[simp] theorem State.drawn_side (s : State) : s.drawn.side = s.side := rfl
@[simp] theorem State.drawn_siteSlot (s : State) : s.drawn.siteSlot = s.siteSlot := rfl
@[simp] theorem State.drawn_arrays (s : State) : s.drawn.arrays = s.arrays := rfl
@[simp] theorem State.drawn_fields (s : State) : s.drawn.fields = s.fields := rfl
@[simp] theorem State.drawn_hbm (s : State) : s.drawn.hbm = s.hbm := rfl
@[simp] theorem State.drawn_mem (s : State) : s.drawn.mem = s.mem := rfl
@[simp] theorem State.drawn_net (s : State) : s.drawn.net = s.net := rfl
@[simp] theorem State.drawn_coh (s : State) : s.drawn.coh = s.coh := rfl
@[simp] theorem State.drawn_sites (s : State) : s.drawn.sites = s.sites := rfl
@[simp] theorem State.drawn_ports (s : State) : s.drawn.ports = s.ports := rfl
@[simp] theorem State.drawn_img (s : State) : s.drawn.img = s.img := rfl
@[simp] theorem State.drawn_pnl (s : State) : s.drawn.pnl = s.pnl := rfl
@[simp] theorem State.drawn_lcs (s : State) : s.drawn.lcs = s.lcs := rfl
@[simp] theorem State.drawn_ras (s : State) : s.drawn.ras = s.ras := rfl
@[simp] theorem State.drawn_twin (s : State) : s.drawn.twin = s.twin := rfl
@[simp] theorem State.drawn_lines (s : State) : s.drawn.lines = s.lines := rfl
@[simp] theorem State.drawn_clk (s : State) : s.drawn.clk = s.clk := rfl
@[simp] theorem State.drawn_pwr (s : State) : s.drawn.pwr = s.pwr := rfl
@[simp] theorem State.drawn_heldLow (s : State) : s.drawn.heldLow = s.heldLow := rfl
@[simp] theorem State.drawn_latched (s : State) : s.drawn.latched = s.latched := rfl
@[simp] theorem State.drawn_out (s : State) : s.drawn.out = s.out := rfl
@[simp] theorem State.drawn_pending (s : State) : s.drawn.pending = s.pending := rfl
@[simp] theorem State.drawn_draws (s : State) : s.drawn.draws = s.draws + 1 := rfl

end Sys2Proof.Machine
end

