-- ==== Sys2Proof/Laws/Memory.lean ====
section
/-!
SUPPORT. Laws of the memory: a read after a write, and that every operation keeps the canonical form.
-/

set_option Elab.async false

namespace Sys2Proof.Machine

theorem Mem.wfFrom_weaken {m : Mem} : ∀ {j k : Nat}, j ≤ k → Mem.wfFrom (some k) m = true → Mem.wfFrom (some j) m = true := by
  cases m with
  | nil => intros; rfl
  | cons e r =>
    intro j k hjk h
    simp only [Mem.wfFrom, Bool.and_eq_true, decide_eq_true_eq] at h ⊢
    exact ⟨⟨by omega, h.1.2⟩, h.2⟩

theorem Mem.wfFrom_none {m : Mem} {k : Nat} (h : Mem.wfFrom (some k) m = true) : Mem.wfFrom none m = true := by
  cases m with
  | nil => rfl
  | cons e r =>
    simp only [Mem.wfFrom, Bool.and_eq_true, decide_eq_true_eq] at h ⊢
    exact ⟨⟨trivial, h.1.2⟩, h.2⟩

theorem Mem.wfFrom_cons {m : Mem} {k : Nat} (w : StoredWord) (h : Mem.wfFrom (some k) m = true) (lo : Option Nat)
    (hl : ∀ j, lo = some j → j < k) : Mem.wfFrom lo (Mem.cons k w m) = true := by
  unfold Mem.cons
  split
  · cases lo with
    | none => exact Mem.wfFrom_none h
    | some j => exact Mem.wfFrom_weaken (Nat.le_of_lt (hl j rfl)) h
  · rename_i hw
    cases lo with
    | none => simp [Mem.wfFrom, hw, h]
    | some j => simp [Mem.wfFrom, hw, h, hl j rfl]

theorem Mem.wfFrom_put (k : Nat) (w : StoredWord) : ∀ (m : Mem) (lo : Option Nat), (∀ j, lo = some j → j < k) →
    Mem.wfFrom lo m = true → Mem.wfFrom lo (Mem.put m k w) = true := by
  intro m
  induction m with
  | nil => intro lo hl _; exact Mem.wfFrom_cons w rfl lo hl
  | cons e r ih =>
    intro lo hl h
    obtain ⟨j, x⟩ := e
    simp only [Mem.wfFrom, Bool.and_eq_true, decide_eq_true_eq] at h
    unfold Mem.put
    split
    · rename_i hk
      apply Mem.wfFrom_cons _ _ lo hl
      simp only [Mem.wfFrom, Bool.and_eq_true, decide_eq_true_eq]
      exact ⟨⟨hk, h.1.2⟩, h.2⟩
    · split
      · rename_i _ hk
        subst hk
        exact Mem.wfFrom_cons w h.2 lo hl
      · simp only [Mem.wfFrom, Bool.and_eq_true, decide_eq_true_eq]
        exact ⟨h.1, ih (some j) (by rintro i ⟨rfl⟩; omega) h.2⟩

/-- A write keeps the canonical form. -/
theorem Mem.wf_put {m : Mem} (h : Mem.wf m = true) (k : Nat) (w : StoredWord) : Mem.wf (Mem.put m k w) = true :=
  Mem.wfFrom_put k w m none (by simp) h

theorem Mem.wfFrom_filter (p : Nat × StoredWord → Bool) : ∀ (m : Mem) (lo : Option Nat),
    Mem.wfFrom lo m = true → Mem.wfFrom lo (m.filter p) = true := by
  intro m
  induction m with
  | nil => intros; rfl
  | cons e r ih =>
    intro lo h
    obtain ⟨j, x⟩ := e
    simp only [Mem.wfFrom, Bool.and_eq_true, decide_eq_true_eq] at h
    rw [List.filter_cons]
    split
    · simp only [Mem.wfFrom, Bool.and_eq_true, decide_eq_true_eq]
      exact ⟨h.1, ih _ h.2⟩
    · have h2 := ih _ h.2
      cases lo with
      | none => exact Mem.wfFrom_none h2
      | some i => exact Mem.wfFrom_weaken (Nat.le_of_lt (by simpa using h.1.1)) h2

/-- A cleared range keeps the canonical form. -/
theorem Mem.wf_clear {m : Mem} (h : Mem.wf m = true) (lo hi : Nat) : Mem.wf (Mem.clear m lo hi) = true :=
  Mem.wfFrom_filter _ m none h

theorem Mem.get_cons_self (k : Nat) (w : StoredWord) {m : Mem} (h : Mem.get m k = .unwritten) : Mem.get (Mem.cons k w m) k = w := by
  unfold Mem.cons
  split
  · rename_i hw; rw [h, hw]
  · simp [Mem.get]

theorem Mem.get_cons_other {k j : Nat} (hk : j ≠ k) (w : StoredWord) (m : Mem) : Mem.get (Mem.cons k w m) j = Mem.get m j := by
  unfold Mem.cons
  split
  · rfl
  · simp [Mem.get, Ne.symm hk]

/-- Numbers below every entry of a canonical list read as unlisted. -/
theorem Mem.get_below : ∀ (m : Mem) (k : Nat), Mem.wfFrom (some k) m = true → ∀ j, j ≤ k → Mem.get m j = .unwritten := by
  intro m
  induction m with
  | nil => intros; rfl
  | cons e r ih =>
    intro k h j hj
    obtain ⟨i, x⟩ := e
    simp only [Mem.wfFrom, Bool.and_eq_true, decide_eq_true_eq] at h
    have hne : i ≠ j := by omega
    simp only [Mem.get, if_neg hne]
    exact ih i h.2 j (by omega)

/-- A read after a write to the same number gives the word written. -/
theorem Mem.get_put_self : ∀ (m : Mem) (lo : Option Nat) (k : Nat) (w : StoredWord), Mem.wfFrom lo m = true →
    Mem.get (Mem.put m k w) k = w := by
  intro m
  induction m with
  | nil => intro lo k w _; exact Mem.get_cons_self k w rfl
  | cons e r ih =>
    intro lo k w h
    obtain ⟨j, x⟩ := e
    simp only [Mem.wfFrom, Bool.and_eq_true, decide_eq_true_eq] at h
    unfold Mem.put
    split
    · rename_i hk
      apply Mem.get_cons_self
      have hne : j ≠ k := by omega
      simp only [Mem.get, if_neg hne]
      exact Mem.get_below r j h.2 k (by omega)
    · split
      · rename_i _ hk
        subst hk
        exact Mem.get_cons_self _ _ (Mem.get_below r k h.2 k (Nat.le_refl _))
      · rename_i _ hk
        simp only [Mem.get, if_neg (Ne.symm hk)]
        exact ih (some j) k w h.2

/-- A write leaves every other number alone. -/
theorem Mem.get_put_other {k j : Nat} (hk : j ≠ k) (w : StoredWord) : ∀ m : Mem, Mem.get (Mem.put m k w) j = Mem.get m j := by
  intro m
  induction m with
  | nil => exact Mem.get_cons_other hk w []
  | cons e r ih =>
    obtain ⟨i, x⟩ := e
    unfold Mem.put
    split
    · exact Mem.get_cons_other hk w _
    · split
      · rename_i _ hi
        subst hi
        rw [Mem.get_cons_other hk]
        simp [Mem.get, Ne.symm hk]
      · simp only [Mem.get, ih]

end Sys2Proof.Machine
end

