-- ==== Sys2Proof/Laws/Leads.lean ====
section
/-!
SUPPORT. What every operation keeps (State.Leads): the updaters of one part each, and the folds over lists.
-/

set_option Elab.async false

namespace Sys2Proof.Machine

theorem Fuses.Rises.same (f : Fuses) : f.Rises f :=
  ⟨fun _ h => h, Nat.le_refl _, Nat.le_refl _, Nat.le_refl _, List.prefix_refl _, rfl⟩

theorem Fuses.Rises.trans {f g k : Fuses} (a : f.Rises g) (b : g.Rises k) : f.Rises k :=
  ⟨fun x h => b.bits x (a.bits x h), Nat.le_trans a.vendor b.vendor, Nat.le_trans a.operator b.operator,
    Nat.le_trans a.svn b.svn, a.patches.trans b.patches, b.identity.trans a.identity⟩

theorem State.Same.trans {s t u : State} {p : Piece} (a : s.Same p t) (b : t.Same p u) : s.Same p u := by
  cases p with
  | boot => exact ⟨b.1.trans a.1, b.2.1.trans a.2.1, b.2.2.1.trans a.2.2.1, b.2.2.2.trans a.2.2.2⟩
  | _ => exact Eq.trans b a

theorem State.Same.self (s : State) (p : Piece) : s.Same p s := by
  cases p with
  | boot => exact ⟨rfl, rfl, rfl, rfl⟩
  | _ => exact rfl

theorem State.Leads.same (s : State) (P : Piece → Prop) : s.Leads P s :=
  ⟨fun p _ => .self s p, rfl, List.suffix_refl _, Fuses.Rises.same _, fun h => h, fun h => h, fun h => h⟩

theorem State.Leads.trans {s t u : State} {P : Piece → Prop} (a : s.Leads P t) (b : t.Leads P u) : s.Leads P u :=
  ⟨fun p n => (a.parts p n).trans (b.parts p n), b.queue.trans a.queue, a.sent.trans b.sent, a.fuse.trans b.fuse,
    fun h => b.mem (a.mem h), fun h => b.pwr (a.pwr h), fun h => b.ras (a.ras h)⟩

/-- What leads on keeps soundness. -/
theorem State.Leads.sound {s t : State} {P : Piece → Prop} (a : s.Leads P t) (h : s.Sound) : t.Sound :=
  ⟨a.mem h.mem, a.pwr h.pwr, a.ras h.ras⟩

/-- A change of parts in `P` that keeps what Leads asks of them. -/
theorem State.Leads.stores {P : Piece → Prop} {s₀ s t : State} (h : s₀.Leads P s) (q : t.pending = s.pending)
    (o : t.out = s.out) (f : t.fuse = s.fuse) (m : Mem.wf s.mem = true → Mem.wf t.mem = true) (w : t.pwr = s.pwr)
    (r : s.ras.InRange → t.ras.InRange)
    (e : ∀ p, ¬ P p → s.Same p t := by
      intro p n; cases p <;> first | exact absurd Fact.out n | exact rfl | exact ⟨rfl, rfl, rfl, rfl⟩) : s₀.Leads P t :=
  ⟨fun p n => (h.parts p n).trans (e p n), q ▸ h.queue, o ▸ h.sent, f ▸ h.fuse, fun x => m (h.mem x), w ▸ h.pwr,
    fun x => r (h.ras x)⟩

/-- A change of parts in `P` that Leads asks nothing else of. -/
theorem State.Leads.untouched {P : Piece → Prop} {s₀ s t : State} (h : s₀.Leads P s) (q : t.pending = s.pending)
    (o : t.out = s.out) (f : t.fuse = s.fuse) (m : t.mem = s.mem) (w : t.pwr = s.pwr) (r : t.ras = s.ras)
    (e : ∀ p, ¬ P p → s.Same p t := by
      intro p n; cases p <;> first | exact absurd Fact.out n | exact rfl | exact ⟨rfl, rfl, rfl, rfl⟩) : s₀.Leads P t :=
  h.stores q o f (fun x => m ▸ x) w (fun x => r ▸ x) e

theorem State.Leads.staged {P : Piece → Prop} [Fact (P .boot)] {s₀ s : State} (h : s₀.Leads P s) (st : BitVec 4) :
    s₀.Leads P { s with stage := st } :=
  h.untouched rfl rfl rfl rfl rfl rfl

theorem RasState.dropFixes_inRange {r : RasState} (h : r.InRange) (lo hi : Nat) : (r.dropFixes lo hi).InRange := h

theorem Fuses.Rises.repaired (f : Fuses) (x : Vector (List (PcId × Nat)) 24) : f.Rises { f with hardRepair := x } :=
  ⟨fun _ h => h, Nat.le_refl _, Nat.le_refl _, Nat.le_refl _, List.prefix_refl _, rfl⟩

theorem State.modRas_leads {P : Piece → Prop} [Fact (P .ras)] {s₀ s : State} (h : s₀.Leads P s) (f : RasState → RasState)
    (k : s.ras.InRange → (f s.ras).InRange) : s₀.Leads P (s.modRas f) :=
  h.stores rfl rfl rfl (fun x => x) rfl k

theorem State.modPwr_leads {P : Piece → Prop} [Fact (P .pwr)] {s₀ s : State} (h : s₀.Leads P s) (f : PwrState → PwrState)
    (k : s.pwr.InRange → (f s.pwr).InRange) : s₀.Leads P (s.modPwr f) :=
  ⟨fun p n => (h.parts p n).trans (by cases p <;> first | exact absurd Fact.out n | exact rfl | exact ⟨rfl, rfl, rfl, rfl⟩),
    h.queue, h.sent, h.fuse, h.mem, fun x => k (h.pwr x), h.ras⟩

theorem State.modFuse_leads {P : Piece → Prop} [Fact (P .fuse)] {s₀ s : State} (h : s₀.Leads P s) (f : Fuses → Fuses)
    (k : s.fuse.Rises (f s.fuse)) : s₀.Leads P (s.modFuse f) :=
  ⟨fun p n => (h.parts p n).trans (by cases p <;> first | exact absurd Fact.out n | exact rfl | exact ⟨rfl, rfl, rfl, rfl⟩),
    h.queue, h.sent, h.fuse.trans k, h.mem, h.pwr, h.ras⟩

theorem State.emit_leads {P : Piece → Prop} [Fact (P .out)] {s₀ s : State} (h : s₀.Leads P s) (o : Out) :
    s₀.Leads P (s.emit o) :=
  ⟨fun p n => (h.parts p n).trans (by cases p <;> first | exact absurd Fact.out n | exact rfl | exact ⟨rfl, rfl, rfl, rfl⟩),
    h.queue, h.sent.trans (List.suffix_cons _ _), h.fuse, h.mem, h.pwr, h.ras⟩

theorem ite_leads {P : Piece → Prop} {s₀ s t : State} {c : Prop} [Decidable c] (h : s₀.Leads P s) (k : s₀.Leads P t) :
    s₀.Leads P (if c then s else t) := by
  split <;> assumption

theorem snd_leads {P : Piece → Prop} {α : Type} {s₀ s : State} {p : α × State} {a : α} (e : p = (a, s))
    (h : s₀.Leads P p.2) : s₀.Leads P s := by
  rw [e] at h; exact h

theorem getD_leads {P : Piece → Prop} {s₀ s : State} {o : Option State} (h : s₀.Leads P s)
    (k : ∀ t, o = some t → s₀.Leads P t) : s₀.Leads P (o.getD s) := by
  cases o with
  | none => exact h
  | some t => exact k t rfl

theorem foldl_leads {P : Piece → Prop} {α : Type} {s₀ : State} {f : State → α → State}
    (k : ∀ t x, s₀.Leads P t → s₀.Leads P (f t x)) :
    ∀ (l : List α) {s : State}, s₀.Leads P s → s₀.Leads P (l.foldl f s)
  | [], _, h => h
  | x :: xs, s, h => foldl_leads k xs (k s x h)

theorem foldl_leads_snd {P : Piece → Prop} {α β : Type} {s₀ : State} {f : β × State → α → β × State}
    (k : ∀ t x, s₀.Leads P t.2 → s₀.Leads P (f t x).2) :
    ∀ (l : List α) {s : β × State}, s₀.Leads P s.2 → s₀.Leads P (l.foldl f s).2
  | [], _, h => h
  | x :: xs, s, h => foldl_leads_snd k xs (k s x h)

theorem State.modArray_leads {P : Piece → Prop} [Fact (P .arrays)] {s₀ s : State} (h : s₀.Leads P s) (a : ArrayId) 
    (f : ArrayState → ArrayState) : s₀.Leads P (s.modArray a f) :=
  h.untouched rfl rfl rfl rfl rfl rfl

theorem State.modCube_leads {P : Piece → Prop} [Fact (P .arrays)] {s₀ s : State} (h : s₀.Leads P s) (a : ArrayId) 
    (f : CubeState → CubeState) : s₀.Leads P (s.modCube a f) :=
  h.untouched rfl rfl rfl rfl rfl rfl

theorem State.modSeq_leads {P : Piece → Prop} [Fact (P .arrays)] {s₀ s : State} (h : s₀.Leads P s) (a : ArrayId) 
    (f : SeqState → SeqState) : s₀.Leads P (s.modSeq a f) :=
  h.untouched rfl rfl rfl rfl rfl rfl

theorem State.modVec_leads {P : Piece → Prop} [Fact (P .arrays)] {s₀ s : State} (h : s₀.Leads P s) (a : ArrayId) 
    (f : VecState → VecState) : s₀.Leads P (s.modVec a f) :=
  h.untouched rfl rfl rfl rfl rfl rfl

theorem State.modField_leads {P : Piece → Prop} [Fact (P .fields)] {s₀ s : State} (h : s₀.Leads P s) (i : FieldId) 
    (f : FieldState → FieldState) : s₀.Leads P (s.modField i f) :=
  h.untouched rfl rfl rfl rfl rfl rfl

theorem State.modFt_leads {P : Piece → Prop} [Fact (P .fields)] {s₀ s : State} (h : s₀.Leads P s) (i : FieldId) 
    (f : FtState → FtState) : s₀.Leads P (s.modFt i f) :=
  h.untouched rfl rfl rfl rfl rfl rfl

theorem State.modTu_leads {P : Piece → Prop} [Fact (P .fields)] {s₀ s : State} (h : s₀.Leads P s) (i : FieldId) 
    (f : TuState → TuState) : s₀.Leads P (s.modTu i f) :=
  h.untouched rfl rfl rfl rfl rfl rfl

theorem State.modStack_leads {P : Piece → Prop} [Fact (P .hbm)] {s₀ s : State} (h : s₀.Leads P s) (k : StackId) 
    (f : StackState → StackState) : s₀.Leads P (s.modStack k f) :=
  h.untouched rfl rfl rfl rfl rfl rfl

theorem State.modNet_leads {P : Piece → Prop} [Fact (P .net)] {s₀ s : State} (h : s₀.Leads P s) 
    (f : NetState → NetState) : s₀.Leads P (s.modNet f) :=
  h.untouched rfl rfl rfl rfl rfl rfl

theorem State.modCoh_leads {P : Piece → Prop} [Fact (P .coh)] {s₀ s : State} (h : s₀.Leads P s) 
    (f : CohState → CohState) : s₀.Leads P (s.modCoh f) :=
  h.untouched rfl rfl rfl rfl rfl rfl

theorem State.modSlice_leads {P : Piece → Prop} [Fact (P .coh)] {s₀ s : State} (h : s₀.Leads P s) (i : FieldId) 
    (f : Slice → Slice) : s₀.Leads P (s.modSlice i f) :=
  h.untouched rfl rfl rfl rfl rfl rfl

theorem State.modSite_leads {P : Piece → Prop} [Fact (P .sites)] {s₀ s : State} (h : s₀.Leads P s) (n : SiteId) 
    (f : SiteState → SiteState) : s₀.Leads P (s.modSite n f) :=
  h.untouched rfl rfl rfl rfl rfl rfl

theorem State.modPort_leads {P : Piece → Prop} [Fact (P .ports)] {s₀ s : State} (h : s₀.Leads P s) (p : PortId) 
    (f : PortState → PortState) : s₀.Leads P (s.modPort p f) :=
  h.untouched rfl rfl rfl rfl rfl rfl

theorem State.modPorts_leads {P : Piece → Prop} [Fact (P .ports)] {s₀ s : State} (h : s₀.Leads P s) 
    (f : PortState → PortState) : s₀.Leads P (s.modPorts f) :=
  h.untouched rfl rfl rfl rfl rfl rfl

theorem State.modVf_leads {P : Piece → Prop} [Fact (P .ports)] {s₀ s : State} (h : s₀.Leads P s) (p : PortId) (v : VfId) 
    (f : VfState → VfState) : s₀.Leads P (s.modVf p v f) :=
  h.untouched rfl rfl rfl rfl rfl rfl

theorem State.modQueue_leads {P : Piece → Prop} [Fact (P .ports)] {s₀ s : State} (h : s₀.Leads P s) (p : PortId) (v : VfId) (q : QueueId) 
    (f : QueueState → QueueState) : s₀.Leads P (s.modQueue p v q f) :=
  h.untouched rfl rfl rfl rfl rfl rfl

theorem State.modImg_leads {P : Piece → Prop} [Fact (P .img)] {s₀ s : State} (h : s₀.Leads P s) 
    (f : ImgState → ImgState) : s₀.Leads P (s.modImg f) :=
  h.untouched rfl rfl rfl rfl rfl rfl

theorem State.modPnl_leads {P : Piece → Prop} [Fact (P .pnl)] {s₀ s : State} (h : s₀.Leads P s) 
    (f : PnlState → PnlState) : s₀.Leads P (s.modPnl f) :=
  h.untouched rfl rfl rfl rfl rfl rfl

theorem State.modPanel_leads {P : Piece → Prop} [Fact (P .pnl)] {s₀ s : State} (h : s₀.Leads P s) (p : PanelId) 
    (f : PanelState → PanelState) : s₀.Leads P (s.modPanel p f) :=
  h.untouched rfl rfl rfl rfl rfl rfl

theorem State.modLcs_leads {P : Piece → Prop} [Fact (P .lcs)] {s₀ s : State} (h : s₀.Leads P s) 
    (f : LcsState → LcsState) : s₀.Leads P (s.modLcs f) :=
  h.untouched rfl rfl rfl rfl rfl rfl

theorem State.modTwin_leads {P : Piece → Prop} [Fact (P .twin)] {s₀ s : State} (h : s₀.Leads P s) 
    (f : TwinState → TwinState) : s₀.Leads P (s.modTwin f) :=
  h.untouched rfl rfl rfl rfl rfl rfl

theorem State.modTwinPort_leads {P : Piece → Prop} [Fact (P .twin)] {s₀ s : State} (h : s₀.Leads P s) (k : PortId) 
    (f : TwinPort → TwinPort) : s₀.Leads P (s.modTwinPort k f) :=
  h.untouched rfl rfl rfl rfl rfl rfl

theorem State.modBind_leads {P : Piece → Prop} [Fact (P .twin)] {s₀ s : State} (h : s₀.Leads P s) (b : BindId) 
    (f : TwinBinding → TwinBinding) : s₀.Leads P (s.modBind b f) :=
  h.untouched rfl rfl rfl rfl rfl rfl

theorem State.modLine_leads {P : Piece → Prop} [Fact (P .lines)] {s₀ s : State} (h : s₀.Leads P s) (k : PortId)
    (f : TwinLine → TwinLine) : s₀.Leads P (s.modLine k f) :=
  h.untouched rfl rfl rfl rfl rfl rfl

theorem State.modClk_leads {P : Piece → Prop} [Fact (P .clk)] {s₀ s : State} (h : s₀.Leads P s) 
    (f : ClkState → ClkState) : s₀.Leads P (s.modClk f) :=
  h.untouched rfl rfl rfl rfl rfl rfl

theorem State.modPins_leads {P : Piece → Prop} [Fact (P .pins)] {s₀ s : State} (h : s₀.Leads P s) 
    (f : Pins → Pins) : s₀.Leads P (s.modPins f) :=
  h.untouched rfl rfl rfl rfl rfl rfl

theorem State.modSide_leads {P : Piece → Prop} [Fact (P .side)] {s₀ s : State} (h : s₀.Leads P s) 
    (f : Sideband → Sideband) : s₀.Leads P (s.modSide f) :=
  h.untouched rfl rfl rfl rfl rfl rfl

theorem State.modPrimer_leads {P : Piece → Prop} [Fact (P .ras)] {s₀ s : State} (h : s₀.Leads P s) (n : Fin 8) 
    (f : PrimerSlot → PrimerSlot) : s₀.Leads P (s.modPrimer n f) :=
  State.modRas_leads h _ fun x => x

theorem State.drawn_leads {P : Piece → Prop} [Fact (P .draws)] {s₀ s : State} (h : s₀.Leads P s) : s₀.Leads P s.drawn :=
  h.untouched rfl rfl rfl rfl rfl rfl

end Sys2Proof.Machine
end

