-- ==== Sys2Proof/Laws/Kept.lean ====
section
/-!
SUPPORT. Fuses only rise (R353), an authority's counter (R332), and the range of the issue allowance (R403).
-/

set_option Elab.async false

namespace Sys2Proof.Machine

/-- R353: burning a bit clears none. -/
theorem Fuses.set_isSet (f : Fuses) (b c : FuseBit) (h : f.isSet b = true) : (f.set c).isSet b = true := by
  cases b with
  | word x i =>
    cases c with
    | word y j =>
      simp only [Fuses.isSet, Fuses.set, vmod_get] at *
      split
      · exact bit_setBit_true _ _ _ h
      · exact h
    | marker k y j => exact h
  | marker l x i =>
    cases c with
    | word y j => exact h
    | marker k y j =>
      simp only [Fuses.isSet, Fuses.set, Fuses.slot, List.getElem?_modify] at *
      have key : ∀ o : Option MarkerSlot, bit (o.getD {}).copies[x] i = true →
          bit (((fun a => if k = l then a.set y j else a) <$> o).getD {}).copies[x] i = true := by
        intro o g
        cases o with
        | none => exact g
        | some m =>
          simp only [Option.map_eq_map, Option.map_some, Option.getD_some] at *
          split
          · simp only [MarkerSlot.set, vmod_get]
            split
            · exact bit_setBit_true _ _ _ g
            · exact g
          · exact g
      exact key _ h

theorem Fuses.set_rises (f : Fuses) (b : FuseBit) : f.Rises (f.set b) := by
  refine ⟨fun c h => f.set_isSet c b h, ?_, ?_, ?_, ?_, ?_⟩ <;> cases b <;> simp [Fuses.set]

theorem Fuses.burn_rises : ∀ (bs : List FuseBit) (f : Fuses) (fails : Option Nat), f.Rises (f.burn fails bs).1 := by
  intro bs
  induction bs with
  | nil => intro f _; exact Fuses.Rises.same f
  | cons b bs ih =>
    intro f fails
    unfold Fuses.burn
    split
    · exact ih f fails
    · split
      · exact (f.set_rises b).trans (ih _ _)
      · exact Fuses.Rises.same f
      · exact (f.set_rises b).trans (ih _ _)

theorem Fuses.resolve_rises (f : Fuses) : f.Rises f.resolve.1 := by
  unfold Fuses.resolve
  split
  · exact Fuses.Rises.same f
  · split
    · exact Fuses.burn_rises _ f none
    · exact Fuses.burn_rises _ f none

theorem State.authorityOf_counter {s : State} {c : Critical} {auth : Nat} {key : BitVec 384} {stored : DWord}
    (e : s.authorityOf c = .ok (auth, key, stored)) :
    (auth = 1 → stored = s.fuse.ctrVendor) ∧ (auth = 2 → stored = s.fuse.ctrOperator) := by
  unfold State.authorityOf at e
  repeat' (first | (dsimp only at e; split at e) | split at e)
  all_goals cases e
  all_goals simp

theorem PwrState.nextD_range {x : PwrState} (h : x.InRange) (p1 p10 : Nat) (ten below : Bool) :
    8 ≤ x.nextD p1 p10 ten below ∧ x.nextD p1 p10 ten below ≤ 64 := by
  obtain ⟨-, -, -, -, h8, h64⟩ := h
  unfold PwrState.nextD
  dsimp only
  split
  · omega
  · split
    · split <;> omega
    · split <;> omega
end Sys2Proof.Machine
end

