-- ==== Sys2Proof/Laws/LeadsOps.lean ====
section
/-!
SUPPORT. What the operations of Machine/Ops.lean keep (State.Leads).
-/

set_option linter.unusedTactic false
set_option linter.unreachableTactic false
set_option linter.unusedVariables false

set_option Elab.async false

namespace Sys2Proof.Machine

theorem State.setSink_leads {P : Piece → Prop} [Fact (P .net)] {s₀ s : State} (h : s₀.Leads P s) (f : FieldId) (ni : NiId) (b : Bool) :
    s₀.Leads P (State.setSink s f ni b) := by
  unfold State.setSink
  with_reducible repeat' (first | assumption | apply ite_leads | apply State.modNet_leads | split)

theorem State.logFault_leads {P : Piece → Prop} [Fact (P .ras)] [Fact (P .out)] {s₀ s : State} (h : s₀.Leads P s) (e : FaultEvent) :
    s₀.Leads P (State.logFault s e) := by
  unfold State.logFault
  (try dsimp only)
  with_reducible repeat' (first | assumption | apply ite_leads | apply State.emit_leads | apply State.modRas_leads | split)
  all_goals first | exact fun k => k | exact fun k => ⟨k.1, by dsimp only; rw [List.length_append]; exact Nat.succ_le_of_lt ‹_›⟩

theorem State.note_leads {P : Piece → Prop} [Fact (P .ras)] [Fact (P .out)] {s₀ s : State} (h : s₀.Leads P s)  :
    s₀.Leads P (State.note s) := by
  unfold State.note
  with_reducible repeat' (first | assumption | apply ite_leads | apply State.logFault_leads | split)

theorem State.noteHost_leads {P : Piece → Prop} [Fact (P .ras)] [Fact (P .out)] {s₀ s : State} (h : s₀.Leads P s) (p : PortId) (code : Byte) :
    s₀.Leads P (State.noteHost s p code) := by
  unfold State.noteHost
  with_reducible repeat' (first | assumption | apply ite_leads | apply State.logFault_leads | split)

theorem State.noteSite_leads {P : Piece → Prop} [Fact (P .ras)] [Fact (P .out)] {s₀ s : State} (h : s₀.Leads P s) (n : SiteId) (code : Byte) :
    s₀.Leads P (State.noteSite s n code) := by
  unfold State.noteSite
  with_reducible repeat' (first | assumption | apply ite_leads | apply State.logFault_leads | split)

theorem State.noteTwin_leads {P : Piece → Prop} [Fact (P .ras)] [Fact (P .out)] {s₀ s : State} (h : s₀.Leads P s) (k : PortId) (code : Byte) :
    s₀.Leads P (State.noteTwin s k code) := by
  unfold State.noteTwin
  with_reducible repeat' (first | assumption | apply ite_leads | apply State.logFault_leads | split)

theorem State.logMem_leads {P : Piece → Prop} [Fact (P .ras)] {s₀ s : State} (h : s₀.Leads P s) (e : MemEvent) :
    s₀.Leads P (State.logMem s e) := by
  unfold State.logMem
  (try dsimp only)
  with_reducible repeat' (first | assumption | apply ite_leads | apply State.modRas_leads | split)
  all_goals first | exact fun k => k | exact fun k => ⟨by dsimp only; rw [List.length_append]; exact Nat.succ_le_of_lt ‹_›, k.2⟩

theorem State.irq_leads {P : Piece → Prop} [Fact (P .ports)] {s₀ s : State} (h : s₀.Leads P s) (b : Nat) :
    s₀.Leads P (State.irq s b) := by
  unfold State.irq
  with_reducible repeat' (first | assumption | apply ite_leads | apply State.modPorts_leads | split)

theorem State.aer_leads {P : Piece → Prop} [Fact (P .ports)] {s₀ s : State} (h : s₀.Leads P s) (p : PortId) (n : Nat) :
    s₀.Leads P (State.aer s p n) := by
  unfold State.aer
  with_reducible repeat' (first | assumption | apply ite_leads | apply State.modPort_leads | split)

theorem State.unsupported_leads {P : Piece → Prop} [Fact (P .ports)] [Fact (P .out)] {s₀ s : State} (h : s₀.Leads P s) (p : PortId) :
    s₀.Leads P (State.unsupported s p) := by
  unfold State.unsupported
  with_reducible repeat' (first | assumption | apply ite_leads | apply State.aer_leads | apply State.emit_leads | split)

theorem State.refusedRequest_leads {P : Piece → Prop} [Fact (P .ports)] [Fact (P .out)] {s₀ s : State} (h : s₀.Leads P s) (p : PortId) (posted : Bool) :
    s₀.Leads P (State.refusedRequest s p posted) := by
  unfold State.refusedRequest
  with_reducible repeat' (first | assumption | apply ite_leads | apply State.unsupported_leads | apply State.aer_leads | split)

theorem State.abortRequest_leads {P : Piece → Prop} [Fact (P .ports)] [Fact (P .out)] {s₀ s : State} (h : s₀.Leads P s) (p : PortId) :
    s₀.Leads P (State.abortRequest s p) := by
  unfold State.abortRequest
  with_reducible repeat' (first | assumption | apply ite_leads | apply State.aer_leads | apply State.emit_leads | split)

theorem State.tellTwin_leads {P : Piece → Prop} [Fact (P .lines)] [Fact (P .out)] {s₀ s : State} (h : s₀.Leads P s) (k : PortId) (header : BitVec 128) (enc : Bool) (ws : List CodeWord) :
    s₀.Leads P (State.tellTwin s k header enc ws) := by
  unfold State.tellTwin
  (try dsimp only)
  with_reducible repeat' (first | assumption | apply ite_leads | apply State.emit_leads | apply State.modLine_leads | split)

theorem State.readyFrom_leads {P : Piece → Prop} [Fact (P .ports)] {s₀ s : State} (h : s₀.Leads P s) (before : State) :
    s₀.Leads P (State.readyFrom s before) := by
  unfold State.readyFrom
  with_reducible repeat' (first | assumption | apply ite_leads | apply State.irq_leads | split)

theorem State.byPf0_leads {P : Piece → Prop} {s₀ s : State} (h : s₀.Leads P s) (f : State → State) (kf : ∀ x0, s₀.Leads P x0 → s₀.Leads P (f x0)) :
    s₀.Leads P (State.byPf0 s f) := by
  unfold State.byPf0
  with_reducible repeat' (first | intro _ | assumption | apply ite_leads | apply kf | split)

theorem State.noteTimeout_leads {P : Piece → Prop} [Fact (P .net)] {s₀ s : State} (h : s₀.Leads P s) (f : FieldId) (ni : NiId) :
    s₀.Leads P (State.noteTimeout s f ni) := by
  unfold State.noteTimeout
  with_reducible repeat' (first | assumption | apply ite_leads | apply State.modNet_leads | split)

theorem State.raiseMsix_leads {P : Piece → Prop} [Fact (P .ports)] {s₀ s : State} (h : s₀.Leads P s) (p : PortId) (v : VfId) (vector : BitVec 5) :
    s₀.Leads P (State.raiseMsix s p v vector) := by
  unfold State.raiseMsix
  with_reducible repeat' (first | assumption | apply ite_leads | apply State.modVf_leads | split)

end Sys2Proof.Machine
end

