-- ==== Sys2Proof/Laws/LeadsMemory.lean ====
section
/-!
SUPPORT. What the operations of Machine/Memory.lean keep (State.Leads).
-/

set_option linter.unusedTactic false
set_option linter.unreachableTactic false
set_option linter.unusedVariables false

set_option Elab.async false

namespace Sys2Proof.Machine

theorem State.storeAt_leads {P : Piece → Prop} [Fact (P .mem)] [Fact (P .ras)] {s₀ s : State} (h : s₀.Leads P s) (k : Nat) (w : StoredWord) : s₀.Leads P (s.storeAt k w) :=
  h.stores rfl rfl rfl (fun x => Mem.wf_put x k w) rfl (fun x => x)

theorem State.queueFix_leads {P : Piece → Prop} [Fact (P .ras)] {s₀ s : State} (h : s₀.Leads P s) (k : Nat) (w : StoredWord) :
    s₀.Leads P (State.queueFix s k w) := by
  unfold State.queueFix
  with_reducible repeat' (first | assumption | apply ite_leads | apply State.modRas_leads | split)
  all_goals first | assumption | exact fun h => h

theorem State.countErr_leads {P : Piece → Prop} [Fact (P .fields)] [Fact (P .hbm)] {s₀ s : State} (h : s₀.Leads P s) (l : Loc) (uncorr : Bool) :
    s₀.Leads P (State.countErr s l uncorr) := by
  unfold State.countErr
  with_reducible repeat' (first | assumption | apply ite_leads | apply State.modStack_leads | apply State.modFt_leads | refine snd_leads (by assumption) ?_ | split)

theorem State.wordEvent_leads {P : Piece → Prop} [Fact (P .ras)] {s₀ s : State} (h : s₀.Leads P s) (cls : BitVec 5) (pa : BitVec 52) (g : Agent) :
    s₀.Leads P (State.wordEvent s cls pa g) := by
  unfold State.wordEvent
  with_reducible repeat' (first | assumption | apply ite_leads | apply State.logMem_leads | refine snd_leads (by assumption) ?_ | split)

theorem State.strike_leads {P : Piece → Prop} [Fact (P .mem)] {s₀ s : State} (h : s₀.Leads P s) (k : Nat) (flips : BitVec 544) : s₀.Leads P (s.strike k flips) :=
  ite_leads h (h.stores rfl rfl rfl (fun x => Mem.wf_put x k _) rfl (fun x => x))

theorem State.acted_leads {P : Piece → Prop} [Fact (P .fields)] [Fact (P .hbm)] [Fact (P .ras)] {s₀ s : State} (h : s₀.Leads P s) (l : Loc) (k : Nat) (g : Agent) (f : Finding) :
    s₀.Leads P (State.acted s l k g f) := by
  unfold State.acted
  with_reducible repeat' (first | assumption | apply ite_leads | apply State.countErr_leads | apply State.queueFix_leads | apply State.logMem_leads | refine snd_leads (by assumption) ?_ | split)

theorem State.readLoc_leads {P : Piece → Prop} [Fact (P .fields)] [Fact (P .hbm)] [Fact (P .mem)] [Fact (P .ras)] {s₀ s : State} (h : s₀.Leads P s) (l : Loc) (g : Agent) (flips : BitVec 544) (served : Bool) :
    s₀.Leads P (State.readLoc s l g flips served).2 := by
  unfold State.readLoc
  (try dsimp only)
  with_reducible repeat' (first | assumption | apply ite_leads | apply State.acted_leads | apply State.strike_leads | split)

theorem State.commonsLost_leads {P : Piece → Prop} [Fact (P .ras)] {s₀ s : State} (h : s₀.Leads P s) (n : Fin 32) (l : Loc) (g : Agent) :
    s₀.Leads P (State.commonsLost s n l g) := by
  unfold State.commonsLost
  with_reducible repeat' (first | assumption | apply ite_leads | apply State.logMem_leads | apply State.modRas_leads | split)
  all_goals first | assumption | exact fun h => h

theorem State.markLost_leads {P : Piece → Prop} [Fact (P .ras)] {s₀ s : State} (h : s₀.Leads P s) (l : Loc) (f : Finding) :
    s₀.Leads P (State.markLost s l f) := by
  unfold State.markLost
  with_reducible repeat' (first | assumption | apply ite_leads | apply State.queueFix_leads | split)

theorem State.readCopy_leads {P : Piece → Prop} [Fact (P .fields)] [Fact (P .hbm)] [Fact (P .mem)] [Fact (P .ras)] {s₀ s : State} (h : s₀.Leads P s) (other : BitVec 52) (g : Agent) :
    s₀.Leads P (State.readCopy s other g).2 := by
  unfold State.readCopy
  (try dsimp only)
  with_reducible repeat' (first | assumption | apply ite_leads | apply State.readLoc_leads | refine snd_leads (by assumption) ?_ | split)

theorem State.fallback_leads {P : Piece → Prop} [Fact (P .fields)] [Fact (P .hbm)] [Fact (P .mem)] [Fact (P .ras)] {s₀ s : State} (h : s₀.Leads P s) (pa : BitVec 52) (l : Loc) (g : Agent) (f : Finding) :
    s₀.Leads P (State.fallback s pa l g f).2 := by
  unfold State.fallback
  (try dsimp only)
  with_reducible repeat' (first | assumption | apply ite_leads | apply State.readCopy_leads | apply State.markLost_leads | apply State.commonsLost_leads | apply State.queueFix_leads | apply State.logMem_leads | refine snd_leads (by assumption) ?_ | split)

theorem State.unbackedEvent_leads {P : Piece → Prop} [Fact (P .ras)] {s₀ s : State} (h : s₀.Leads P s) (pa : BitVec 52) (g : Agent) :
    s₀.Leads P (State.unbackedEvent s pa g) := by
  unfold State.unbackedEvent
  with_reducible repeat' (first | assumption | apply ite_leads | apply State.wordEvent_leads | split)

theorem State.readCode_leads {P : Piece → Prop} [Fact (P .fields)] [Fact (P .hbm)] [Fact (P .mem)] [Fact (P .ras)] {s₀ s : State} (h : s₀.Leads P s) (g : Agent) (pa0 : BitVec 52) (flips : BitVec 544) :
    s₀.Leads P (State.readCode s g pa0 flips).2 := by
  unfold State.readCode
  (try dsimp only)
  with_reducible repeat' (first | assumption | apply ite_leads | apply State.unbackedEvent_leads | apply State.fallback_leads | apply State.readLoc_leads | refine snd_leads (by assumption) ?_ | split)

theorem State.mirror_leads {P : Piece → Prop} [Fact (P .twin)] {s₀ s : State} (h : s₀.Leads P s) (pa : BitVec 52) (w : CodeWord) :
    s₀.Leads P (State.mirror s pa w) := by
  unfold State.mirror
  with_reducible repeat' (first | intro _ | assumption | apply ite_leads | apply State.modBind_leads | apply State.modTwinPort_leads | refine snd_leads (by assumption) ?_ | split)

theorem State.putCode_leads {P : Piece → Prop} [Fact (P .hbm)] [Fact (P .mem)] [Fact (P .ras)] [Fact (P .twin)] {s₀ s : State} (h : s₀.Leads P s) (pa : BitVec 52) (l : Loc) (w : CodeWord) :
    s₀.Leads P (State.putCode s pa l w) := by
  unfold State.putCode
  (try dsimp only)
  with_reducible repeat' (first | assumption | apply ite_leads | apply State.mirror_leads | apply State.storeAt_leads | apply State.modStack_leads | refine snd_leads (by assumption) ?_ | split)

theorem State.writeCode_leads {P : Piece → Prop} [Fact (P .hbm)] [Fact (P .mem)] [Fact (P .ras)] [Fact (P .twin)] {s₀ s : State} (h : s₀.Leads P s) (g : Agent) (pa0 : BitVec 52) (w : CodeWord) :
    s₀.Leads P (State.writeCode s g pa0 w).2 := by
  unfold State.writeCode
  (try dsimp only)
  with_reducible repeat' (first | assumption | apply ite_leads | apply State.putCode_leads | apply State.unbackedEvent_leads | refine snd_leads (by assumption) ?_ | split)

theorem State.writeCodes_leads {P : Piece → Prop} [Fact (P .hbm)] [Fact (P .mem)] [Fact (P .ras)] [Fact (P .twin)] {s₀ : State} : ∀ (x : List CodeWord) (g : Agent) (pa : BitVec 52) {s : State}, s₀.Leads P s → s₀.Leads P (State.writeCodes s g pa x).2 := by
  intro x
  induction x with
  | nil =>
    intro g pa s h
    unfold State.writeCodes; (try dsimp only)
    with_reducible repeat' (first | assumption | apply ite_leads | apply State.writeCode_leads | apply ih | refine snd_leads (by assumption) ?_ | split)
  | cons y ys ih =>
    intro g pa s h
    unfold State.writeCodes; (try dsimp only)
    with_reducible repeat' (first | assumption | apply ite_leads | apply State.writeCode_leads | apply ih | refine snd_leads (by assumption) ?_ | split)

theorem State.readCodes_leads {P : Piece → Prop} [Fact (P .fields)] [Fact (P .hbm)] [Fact (P .mem)] [Fact (P .ras)] {s₀ : State} : ∀ (x : Nat) (g : Agent) (pa : BitVec 52) {s : State}, s₀.Leads P s → s₀.Leads P (State.readCodes s g pa x).2 := by
  intro x
  induction x with
  | zero =>
    intro g pa s h
    unfold State.readCodes; (try dsimp only)
    with_reducible repeat' (first | assumption | apply ite_leads | apply State.readCode_leads | apply ih | refine snd_leads (by assumption) ?_ | split)
  | succ k ih =>
    intro g pa s h
    unfold State.readCodes; (try dsimp only)
    with_reducible repeat' (first | assumption | apply ite_leads | apply State.readCode_leads | apply ih | refine snd_leads (by assumption) ?_ | split)

end Sys2Proof.Machine
end

