-- ==== Sys2Proof/Laws/LeadsAtomic.lean ====
section
/-!
SUPPORT. What the operations of Machine/Atomic.lean keep (State.Leads).
-/

set_option linter.unusedTactic false
set_option linter.unreachableTactic false
set_option linter.unusedVariables false

set_option Elab.async false

namespace Sys2Proof.Machine

theorem State.atomicLoc_leads {P : Piece → Prop} [Fact (P .fields)] [Fact (P .hbm)] [Fact (P .mem)] [Fact (P .ras)] [Fact (P .twin)] {s₀ s : State} (h : s₀.Leads P s) (g : Agent) (pa : BitVec 52) (l : Loc) (op : AtomicOp) (off operand compare : Nat) (marked : Bool) (flips : BitVec 544) :
    s₀.Leads P (State.atomicLoc s g pa l op off operand compare marked flips).2 := by
  unfold State.atomicLoc
  (try dsimp only)
  with_reducible repeat' (first | assumption | apply ite_leads | apply State.putCode_leads | apply State.readLoc_leads | refine snd_leads (by assumption) ?_ | split)

theorem State.atomicAt_leads {P : Piece → Prop} [Fact (P .fields)] [Fact (P .hbm)] [Fact (P .mem)] [Fact (P .ras)] [Fact (P .twin)] {s₀ s : State} (h : s₀.Leads P s) (g : Agent) (pa0 : BitVec 52) (op : AtomicOp) (off operand compare : Nat) (marked : Bool) (flips : BitVec 544) :
    s₀.Leads P (State.atomicAt s g pa0 op off operand compare marked flips).2 := by
  unfold State.atomicAt
  (try dsimp only)
  with_reducible repeat' (first | assumption | apply ite_leads | apply State.atomicLoc_leads | apply State.unbackedEvent_leads | refine snd_leads (by assumption) ?_ | split)

theorem State.answerTxn_leads {P : Piece → Prop} [Fact (P .net)] {s₀ s : State} (h : s₀.Leads P s) (id : TxId) (status : BitVec 3) (data : List CodeWord) :
    s₀.Leads P (State.answerTxn s id status data) := by
  unfold State.answerTxn
  (try dsimp only)
  with_reducible repeat' (first | intro _ | assumption | apply ite_leads | apply State.modNet_leads | split)

theorem State.remember_leads {P : Piece → Prop} [Fact (P .net)] {s₀ s : State} (h : s₀.Leads P s) (f : FieldId) (ni : NiId) (id : TxId) (status : BitVec 3) (data : List CodeWord) :
    s₀.Leads P (State.remember s f ni id status data) := by
  unfold State.remember
  with_reducible repeat' (first | assumption | apply ite_leads | apply State.modNet_leads | split)

end Sys2Proof.Machine
end

