-- ==== Sys2Proof/Laws/LeadsRoute.lean ====
section
/-!
SUPPORT. What the operations of Machine/Route.lean keep (State.Leads).
-/

set_option linter.unusedTactic false
set_option linter.unreachableTactic false
set_option linter.unusedVariables false

set_option Elab.async false

namespace Sys2Proof.Machine

theorem State.setCount_leads {P : Piece → Prop} [Fact (P .net)] {s₀ s : State} (h : s₀.Leads P s) (c : BudgetCount) :
    s₀.Leads P (State.setCount s c) := by
  unfold State.setCount
  with_reducible repeat' (first | assumption | apply ite_leads | apply State.modNet_leads | split)

theorem State.tally_leads {P : Piece → Prop} [Fact (P .net)] {s₀ s : State} (h : s₀.Leads P s) (f : FieldId) (ni : NiId) (injection : Bool) (t : TintId) (n : Nat) :
    s₀.Leads P (State.tally s f ni injection t n).2 := by
  unfold State.tally
  (try dsimp only)
  with_reducible repeat' (first | assumption | apply ite_leads | apply State.setCount_leads | split)

theorem State.timedOut_leads {P : Piece → Prop} [Fact (P .net)] [Fact (P .ras)] [Fact (P .out)] {s₀ s : State} (h : s₀.Leads P s) (p : Option PanelId) (dst : FieldId × NiId) :
    s₀.Leads P (State.timedOut s p dst) := by
  unfold State.timedOut
  with_reducible repeat' (first | assumption | apply ite_leads | apply State.noteTimeout_leads | apply State.logFault_leads | apply State.modNet_leads | split)

theorem State.wayLog_leads {P : Piece → Prop} [Fact (P .net)] [Fact (P .ras)] [Fact (P .out)] {s₀ s : State} (h : s₀.Leads P s) (p : Option PanelId) (dst : FieldId × NiId) (st : BitVec 3) :
    s₀.Leads P (State.wayLog s p dst st) := by
  unfold State.wayLog
  with_reducible repeat' (first | assumption | apply ite_leads | apply State.timedOut_leads | apply State.logFault_leads | split)

theorem State.counted_leads {P : Piece → Prop} [Fact (P .net)] {s₀ s : State} (h : s₀.Leads P s) (src dst : FieldId × NiId) (t : TintId) (n : Nat) :
    s₀.Leads P (State.counted s src dst t n) := by
  unfold State.counted
  (try dsimp only)
  with_reducible repeat' (first | assumption | apply ite_leads | apply State.tally_leads | split)

theorem State.fetchCode_leads {P : Piece → Prop} [Fact (P .fields)] [Fact (P .hbm)] [Fact (P .mem)] [Fact (P .net)] [Fact (P .ras)] [Fact (P .out)] {s₀ s0 : State} (h : s₀.Leads P s0) (g : Agent) (ni : NiId) (t : TintId) (pa : BitVec 52) (flips : BitVec 544) :
    s₀.Leads P (State.fetchCode s0 g ni t pa flips).2 := by
  unfold State.fetchCode
  (try dsimp only)
  with_reducible repeat' (first | assumption | apply ite_leads | apply State.counted_leads | apply State.wayLog_leads | apply State.readCode_leads | refine snd_leads (by assumption) ?_ | split)

theorem State.storeCode_leads {P : Piece → Prop} [Fact (P .hbm)] [Fact (P .mem)] [Fact (P .net)] [Fact (P .ras)] [Fact (P .twin)] [Fact (P .out)] {s₀ s0 : State} (h : s₀.Leads P s0) (g : Agent) (ni : NiId) (t : TintId) (pa : BitVec 52) (w : CodeWord) :
    s₀.Leads P (State.storeCode s0 g ni t pa w).2 := by
  unfold State.storeCode
  (try dsimp only)
  with_reducible repeat' (first | assumption | apply ite_leads | apply State.counted_leads | apply State.wayLog_leads | apply State.writeCode_leads | refine snd_leads (by assumption) ?_ | split)

end Sys2Proof.Machine
end

