-- ==== Sys2Proof/Laws/LeadsHomes.lean ====
section
/-!
SUPPORT. What the operations of Machine/Homes.lean keep (State.Leads).
-/

set_option linter.unusedTactic false
set_option linter.unreachableTactic false
set_option linter.unusedVariables false

set_option Elab.async false

namespace Sys2Proof.Machine

theorem State.tellNative_leads {P : Piece → Prop} [Fact (P .out)] {s₀ s : State} (h : s₀.Leads P s) (a : AgentId) (type status tag : Nat) (bind : Byte) (line arg : Nat) (ws : List CodeWord) :
    s₀.Leads P (State.tellNative s a type status tag bind line arg ws) := by
  unfold State.tellNative
  with_reducible repeat' (first | assumption | apply ite_leads | apply State.emit_leads | split)

theorem State.tellCmp_leads {P : Piece → Prop} [Fact (P .out)] {s₀ s : State} (h : s₀.Leads P s) (a : AgentId) (src : CohFrom) (line : Nat) (st : AgentLine) (w : Option CodeWord) :
    s₀.Leads P (State.tellCmp s a src line st w) := by
  unfold State.tellCmp
  with_reducible repeat' (first | assumption | apply ite_leads | apply State.tellNative_leads | apply State.emit_leads | split)

theorem State.tellSnoop_leads {P : Piece → Prop} [Fact (P .out)] {s₀ s : State} (h : s₀.Leads P s) (a : AgentId) (line : Nat) (k : SnoopKind) :
    s₀.Leads P (State.tellSnoop s a line k) := by
  unfold State.tellSnoop
  with_reducible repeat' (first | assumption | apply ite_leads | apply State.tellNative_leads | apply State.emit_leads | split)

theorem State.tellWbAck_leads {P : Piece → Prop} [Fact (P .out)] {s₀ s : State} (h : s₀.Leads P s) (a : AgentId) (src : CohFrom) (line : Nat) :
    s₀.Leads P (State.tellWbAck s a src line) := by
  unfold State.tellWbAck
  with_reducible repeat' (first | assumption | apply ite_leads | apply State.tellNative_leads | split)

theorem State.tellHold_leads {P : Piece → Prop} [Fact (P .out)] {s₀ s : State} (h : s₀.Leads P s) (a : AgentId) (src : CohFrom) (line : Nat) :
    s₀.Leads P (State.tellHold s a src line) := by
  unfold State.tellHold
  with_reducible repeat' (first | assumption | apply ite_leads | apply State.tellNative_leads | split)

theorem State.modCached_leads {P : Piece → Prop} [Fact (P .coh)] {s₀ s : State} (h : s₀.Leads P s) (a : AgentId) (line : Nat) (f : CacheLine → CacheLine) :
    s₀.Leads P (State.modCached s a line f) := by
  unfold State.modCached
  with_reducible repeat' (first | assumption | apply ite_leads | apply State.modCoh_leads | split)

theorem State.dropCached_leads {P : Piece → Prop} [Fact (P .coh)] {s₀ s : State} (h : s₀.Leads P s) (a : AgentId) (line : Nat) :
    s₀.Leads P (State.dropCached s a line) := by
  unfold State.dropCached
  with_reducible repeat' (first | assumption | apply ite_leads | apply State.modCoh_leads | split)

theorem State.evict_leads {P : Piece → Prop} [Fact (P .coh)] {s₀ s : State} (h : s₀.Leads P s) (c : CacheLine) :
    s₀.Leads P (State.evict s c) := by
  unfold State.evict
  (try dsimp only)
  with_reducible repeat' (first | assumption | apply ite_leads | apply State.dropCached_leads | apply State.modCached_leads | refine snd_leads (by assumption) ?_ | split)

theorem State.takeLine_leads {P : Piece → Prop} [Fact (P .coh)] [Fact (P .draws)] {s₀ s : State} (h : s₀.Leads P s) (a : AgentId) (line : Nat) (st : AgentLine) (w : CodeWord) :
    s₀.Leads P (State.takeLine s a line st w) := by
  unfold State.takeLine
  (try dsimp only)
  with_reducible repeat' (first | assumption | apply ite_leads | apply State.evict_leads | apply State.dropCached_leads | apply State.drawn_leads | apply State.modCoh_leads | refine snd_leads (by assumption) ?_ | split)

theorem State.hubAnswer_leads {P : Piece → Prop} [Fact (P .coh)] {s₀ s : State} (h : s₀.Leads P s) (a : AgentId) (line : Nat) (k : SnoopKind) :
    s₀.Leads P (State.hubAnswer s a line k).2 := by
  unfold State.hubAnswer
  (try dsimp only)
  with_reducible repeat' (first | assumption | apply ite_leads | apply State.dropCached_leads | apply State.modCached_leads | refine snd_leads (by assumption) ?_ | split)

theorem State.homeRead_leads {P : Piece → Prop} [Fact (P .fields)] [Fact (P .hbm)] [Fact (P .mem)] [Fact (P .net)] [Fact (P .ras)] [Fact (P .out)] {s₀ s : State} (h : s₀.Leads P s) (f : FieldId) (t : TintId) (line : Nat) :
    s₀.Leads P (State.homeRead s f t line).2 := by
  unfold State.homeRead
  with_reducible repeat' (first | assumption | apply ite_leads | apply State.fetchCode_leads | split)

theorem State.homeWrite_leads {P : Piece → Prop} [Fact (P .hbm)] [Fact (P .mem)] [Fact (P .net)] [Fact (P .ras)] [Fact (P .twin)] [Fact (P .out)] {s₀ s : State} (h : s₀.Leads P s) (f : FieldId) (t : TintId) (line : Nat) (w : CodeWord) :
    s₀.Leads P (State.homeWrite s f t line w).2 := by
  unfold State.homeWrite
  with_reducible repeat' (first | assumption | apply ite_leads | apply State.storeCode_leads | split)

theorem State.markLine_leads {P : Piece → Prop} [Fact (P .fields)] [Fact (P .hbm)] [Fact (P .mem)] [Fact (P .net)] [Fact (P .ras)] [Fact (P .twin)] [Fact (P .out)] {s₀ s : State} (h : s₀.Leads P s) (f : FieldId) (t : TintId) (line : Nat) :
    s₀.Leads P (State.markLine s f t line) := by
  unfold State.markLine
  (try dsimp only)
  with_reducible repeat' (first | assumption | apply ite_leads | apply State.homeWrite_leads | apply State.homeRead_leads | split)

theorem State.lostCopy_leads {P : Piece → Prop} [Fact (P .fields)] [Fact (P .hbm)] [Fact (P .mem)] [Fact (P .net)] [Fact (P .coh)] [Fact (P .ras)] [Fact (P .twin)] [Fact (P .out)] {s₀ s : State} (h : s₀.Leads P s) (f : FieldId) (t : TintId) (line : Nat) (a : AgentId) :
    s₀.Leads P (State.lostCopy s f t line a) := by
  unfold State.lostCopy
  with_reducible repeat' (first | assumption | apply ite_leads | apply State.markLine_leads | apply State.modSlice_leads | split)

theorem State.deadCopy_leads {P : Piece → Prop} [Fact (P .fields)] [Fact (P .hbm)] [Fact (P .mem)] [Fact (P .net)] [Fact (P .coh)] [Fact (P .ras)] [Fact (P .twin)] [Fact (P .out)] {s₀ s : State} (h : s₀.Leads P s) (f : FieldId) (t : TintId) (line : Nat) (a : AgentId) :
    s₀.Leads P (State.deadCopy s f t line a) := by
  unfold State.deadCopy
  (try dsimp only)
  with_reducible repeat' (first | assumption | apply ite_leads | apply State.lostCopy_leads | apply State.logFault_leads | split)

theorem State.keepF_leads {P : Piece → Prop} [Fact (P .coh)] {s₀ s : State} (h : s₀.Leads P s) (line : Nat) (st : AgentLine) (e : Option DirEntry) :
    s₀.Leads P (State.keepF s line st e) := by
  unfold State.keepF
  with_reducible repeat' (first | assumption | apply ite_leads | apply State.modCached_leads | refine snd_leads (by assumption) ?_ | split)

theorem State.homeData_leads {P : Piece → Prop} [Fact (P .fields)] [Fact (P .hbm)] [Fact (P .mem)] [Fact (P .net)] [Fact (P .ras)] [Fact (P .out)] {s₀ s : State} (h : s₀.Leads P s) (f : FieldId) (line : Nat) (b : Blocked) :
    s₀.Leads P (State.homeData s f line b).2 := by
  unfold State.homeData
  (try dsimp only)
  with_reducible repeat' (first | assumption | apply ite_leads | apply State.homeRead_leads | refine snd_leads (by assumption) ?_ | split)

theorem State.homeStore_leads {P : Piece → Prop} [Fact (P .hbm)] [Fact (P .mem)] [Fact (P .net)] [Fact (P .ras)] [Fact (P .twin)] [Fact (P .out)] {s₀ s : State} (h : s₀.Leads P s) (f : FieldId) (line : Nat) (b : Blocked) :
    s₀.Leads P (State.homeStore s f line b) := by
  unfold State.homeStore
  with_reducible repeat' (first | assumption | apply ite_leads | apply State.homeWrite_leads | refine snd_leads (by assumption) ?_ | split)

theorem State.homeAtomic_leads {P : Piece → Prop} [Fact (P .fields)] [Fact (P .hbm)] [Fact (P .mem)] [Fact (P .net)] [Fact (P .ras)] [Fact (P .twin)] [Fact (P .out)] {s₀ s0 : State} (h : s₀.Leads P s0) (f : FieldId) (t : TintId) (line : Nat) (op : AtomicOp) (off operand cmp : Nat) (marked : Bool) :
    s₀.Leads P (State.homeAtomic s0 f t line op off operand cmp marked).2 := by
  unfold State.homeAtomic
  (try dsimp only)
  with_reducible repeat' (first | assumption | apply ite_leads | apply State.counted_leads | apply State.wayLog_leads | apply State.atomicAt_leads | refine snd_leads (by assumption) ?_ | split)

theorem State.unblock_leads {P : Piece → Prop} [Fact (P .coh)] {s₀ s : State} (h : s₀.Leads P s) (f : FieldId) (line : Nat) :
    s₀.Leads P (State.unblock s f line) := by
  unfold State.unblock
  with_reducible repeat' (first | assumption | apply ite_leads | apply State.modSlice_leads | split)

theorem State.complete_leads {P : Piece → Prop} [Fact (P .fields)] [Fact (P .hbm)] [Fact (P .mem)] [Fact (P .net)] [Fact (P .coh)] [Fact (P .ras)] [Fact (P .twin)] [Fact (P .out)] {s₀ s : State} (h : s₀.Leads P s) (f : FieldId) (line : Nat) (a : AgentId) (b : Blocked) (st : AgentLine) (w : Option CodeWord) (e : DirEntry) :
    s₀.Leads P (State.complete s f line a b st w e) := by
  unfold State.complete
  (try dsimp only)
  with_reducible repeat' (first | assumption | apply ite_leads | apply State.unblock_leads | apply State.deadCopy_leads | apply State.tellCmp_leads | apply State.modSlice_leads | split)

theorem State.completePlain_leads {P : Piece → Prop} [Fact (P .net)] [Fact (P .coh)] [Fact (P .out)] {s₀ s : State} (h : s₀.Leads P s) (f : FieldId) (line : Nat) (b : Blocked) (id : TxId) (status : BitVec 3) (w : List CodeWord) :
    s₀.Leads P (State.completePlain s f line b id status w) := by
  unfold State.completePlain
  (try dsimp only)
  with_reducible repeat' (first | assumption | apply ite_leads | apply State.answerTxn_leads | apply State.emit_leads | apply State.modSlice_leads | refine snd_leads (by assumption) ?_ | split)

theorem State.finishCoh_leads {P : Piece → Prop} [Fact (P .fields)] [Fact (P .hbm)] [Fact (P .mem)] [Fact (P .net)] [Fact (P .coh)] [Fact (P .ras)] [Fact (P .twin)] [Fact (P .out)] {s₀ s : State} (h : s₀.Leads P s) (f : FieldId) (line : Nat) :
    s₀.Leads P (State.finishCoh s f line) := by
  unfold State.finishCoh
  (try dsimp only)
  with_reducible repeat' (first | intro _ | assumption | apply ite_leads | apply State.completePlain_leads | apply State.complete_leads | apply State.unblock_leads | apply State.homeAtomic_leads | apply State.homeStore_leads | apply State.homeData_leads | apply State.keepF_leads | apply State.homeWrite_leads | apply State.remember_leads | apply State.modSlice_leads | refine snd_leads (by assumption) ?_ | split)

theorem State.settle_leads {P : Piece → Prop} [Fact (P .fields)] [Fact (P .hbm)] [Fact (P .mem)] [Fact (P .net)] [Fact (P .coh)] [Fact (P .ras)] [Fact (P .twin)] [Fact (P .out)] {s₀ s : State} (h : s₀.Leads P s) (f : FieldId) (line : Nat) :
    s₀.Leads P (State.settle s f line) := by
  unfold State.settle
  with_reducible repeat' (first | assumption | apply ite_leads | apply State.finishCoh_leads | refine snd_leads (by assumption) ?_ | split)

theorem State.sendSnoop_leads {P : Piece → Prop} [Fact (P .fields)] [Fact (P .hbm)] [Fact (P .mem)] [Fact (P .net)] [Fact (P .coh)] [Fact (P .ras)] [Fact (P .twin)] [Fact (P .out)] {s₀ s : State} (h : s₀.Leads P s) (f : FieldId) (line : Nat) (t : TintId) (a : AgentId) (k : SnoopKind) :
    s₀.Leads P (State.sendSnoop s f line t a k) := by
  unfold State.sendSnoop
  with_reducible repeat' (first | assumption | apply ite_leads | apply State.deadCopy_leads | apply State.tellSnoop_leads | apply State.modSlice_leads | split)

theorem State.serveCoh_leads {P : Piece → Prop} [Fact (P .fields)] [Fact (P .hbm)] [Fact (P .mem)] [Fact (P .net)] [Fact (P .coh)] [Fact (P .ras)] [Fact (P .twin)] [Fact (P .out)] {s₀ s : State} (h : s₀.Leads P s) (f : FieldId) (line : Nat) (req : CohReq) (src : CohFrom) :
    s₀.Leads P (State.serveCoh s f line req src) := by
  unfold State.serveCoh
  (try dsimp only)
  with_reducible repeat' (first | intro _ | assumption | apply ite_leads | apply State.sendSnoop_leads | apply State.settle_leads | apply State.modSlice_leads | apply foldl_leads | apply foldl_leads_snd | split)

theorem State.takeCoh_leads {P : Piece → Prop} [Fact (P .fields)] [Fact (P .hbm)] [Fact (P .mem)] [Fact (P .net)] [Fact (P .coh)] [Fact (P .ras)] [Fact (P .twin)] [Fact (P .out)] {s₀ s : State} (h : s₀.Leads P s) (f : FieldId) (line : Nat) (req : CohReq) (src : CohFrom) :
    s₀.Leads P (State.takeCoh s f line req src) := by
  unfold State.takeCoh
  (try dsimp only)
  with_reducible repeat' (first | assumption | apply ite_leads | apply State.serveCoh_leads | apply State.modSlice_leads | refine snd_leads (by assumption) ?_ | split)

theorem State.pump_leads {P : Piece → Prop} [Fact (P .fields)] [Fact (P .hbm)] [Fact (P .mem)] [Fact (P .net)] [Fact (P .coh)] [Fact (P .ras)] [Fact (P .twin)] [Fact (P .out)] {s₀ s : State} (h : s₀.Leads P s) (f : FieldId) :
    s₀.Leads P (State.pump s f) := by
  unfold State.pump
  (try dsimp only)
  with_reducible repeat' (first | intro _ | assumption | apply ite_leads | apply State.takeCoh_leads | apply State.modSlice_leads | apply foldl_leads | apply foldl_leads_snd | split)

theorem State.requestCoh_leads {P : Piece → Prop} [Fact (P .fields)] [Fact (P .hbm)] [Fact (P .mem)] [Fact (P .net)] [Fact (P .coh)] [Fact (P .ras)] [Fact (P .twin)] [Fact (P .out)] {s₀ s : State} (h : s₀.Leads P s) (f : FieldId) (line : Nat) (req : CohReq) (src : CohFrom) :
    s₀.Leads P (State.requestCoh s f line req src) := by
  unfold State.requestCoh
  with_reducible repeat' (first | assumption | apply ite_leads | apply State.pump_leads | apply State.takeCoh_leads | split)

theorem State.sendWbAck_leads {P : Piece → Prop} [Fact (P .coh)] [Fact (P .out)] {s₀ s : State} (h : s₀.Leads P s) (a : AgentId) (src : CohFrom) (line : Nat) :
    s₀.Leads P (State.sendWbAck s a src line) := by
  unfold State.sendWbAck
  with_reducible repeat' (first | assumption | apply ite_leads | apply State.tellWbAck_leads | apply State.modCoh_leads | split)

theorem State.addStale_leads {P : Piece → Prop} [Fact (P .coh)] [Fact (P .ras)] [Fact (P .out)] {s₀ s : State} (h : s₀.Leads P s) (f : FieldId) (e : StaleEntry) :
    s₀.Leads P (State.addStale s f e) := by
  unfold State.addStale
  (try dsimp only)
  with_reducible repeat' (first | assumption | apply ite_leads | apply State.logFault_leads | apply State.modSlice_leads | split)

theorem State.takeAnswer_leads {P : Piece → Prop} [Fact (P .fields)] [Fact (P .hbm)] [Fact (P .mem)] [Fact (P .net)] [Fact (P .coh)] [Fact (P .ras)] [Fact (P .twin)] [Fact (P .out)] {s₀ s : State} (h : s₀.Leads P s) (f : FieldId) (line : Nat) (a : AgentId) (ans : SnoopAnswer) :
    s₀.Leads P (State.takeAnswer s f line a ans) := by
  unfold State.takeAnswer
  (try dsimp only)
  with_reducible repeat' (first | assumption | apply ite_leads | apply State.addStale_leads | apply State.sendWbAck_leads | apply State.settle_leads | apply State.homeWrite_leads | apply State.modSlice_leads | refine snd_leads (by assumption) ?_ | split)

theorem State.homeTimeout_leads {P : Piece → Prop} [Fact (P .net)] [Fact (P .ras)] [Fact (P .out)] {s₀ s : State} (h : s₀.Leads P s) (f : FieldId) (a : AgentId) :
    s₀.Leads P (State.homeTimeout s f a) := by
  unfold State.homeTimeout
  with_reducible repeat' (first | assumption | apply ite_leads | apply State.noteTimeout_leads | apply State.logFault_leads | split)

theorem State.snoopLost_leads {P : Piece → Prop} [Fact (P .fields)] [Fact (P .hbm)] [Fact (P .mem)] [Fact (P .net)] [Fact (P .coh)] [Fact (P .ras)] [Fact (P .twin)] [Fact (P .out)] {s₀ s : State} (h : s₀.Leads P s) (f : FieldId) (t : TintId) (line : Nat) (a : AgentId) :
    s₀.Leads P (State.snoopLost s f t line a) := by
  unfold State.snoopLost
  (try dsimp only)
  with_reducible repeat' (first | assumption | apply ite_leads | apply State.homeTimeout_leads | apply State.settle_leads | apply State.lostCopy_leads | apply State.modSlice_leads | split)

theorem State.outsideAnswer_leads {P : Piece → Prop} [Fact (P .draws)] {s₀ s : State} (h : s₀.Leads P s) (k : SnoopKind) :
    s₀.Leads P (State.outsideAnswer s k).2 := by
  unfold State.outsideAnswer
  (try dsimp only)
  with_reducible repeat' (first | assumption | apply ite_leads | apply State.drawn_leads | refine snd_leads (by assumption) ?_ | split)

theorem State.answerAll_leads {P : Piece → Prop} [Fact (P .fields)] [Fact (P .hbm)] [Fact (P .mem)] [Fact (P .net)] [Fact (P .coh)] [Fact (P .ras)] [Fact (P .twin)] [Fact (P .draws)] [Fact (P .out)] {s₀ s : State} (h : s₀.Leads P s) (f : FieldId) (line : Nat) :
    s₀.Leads P (State.answerAll s f line) := by
  unfold State.answerAll
  (try dsimp only)
  with_reducible repeat' (first | intro _ | assumption | apply ite_leads | apply State.outsideAnswer_leads | apply State.snoopLost_leads | apply State.takeAnswer_leads | apply State.hubAnswer_leads | apply foldl_leads | apply foldl_leads_snd | refine snd_leads (by assumption) ?_ | split)

theorem State.runCoh_leads {P : Piece → Prop} [Fact (P .fields)] [Fact (P .hbm)] [Fact (P .mem)] [Fact (P .net)] [Fact (P .coh)] [Fact (P .ras)] [Fact (P .twin)] [Fact (P .draws)] [Fact (P .out)] {s₀ s : State} (h : s₀.Leads P s) (line : Nat) (req : CohReq) (tint : TintId) :
    s₀.Leads P (State.runCoh s line req tint).2 := by
  unfold State.runCoh
  (try dsimp only)
  with_reducible repeat' (first | intro _ | assumption | apply ite_leads | apply State.answerAll_leads | apply State.requestCoh_leads | apply State.pump_leads | apply State.unblock_leads | apply foldl_leads | apply foldl_leads_snd | refine snd_leads (by assumption) ?_ | split)

theorem State.cohRead_leads {P : Piece → Prop} [Fact (P .fields)] [Fact (P .hbm)] [Fact (P .mem)] [Fact (P .net)] [Fact (P .coh)] [Fact (P .ras)] [Fact (P .twin)] [Fact (P .draws)] [Fact (P .out)] {s₀ s : State} (h : s₀.Leads P s) (a : AgentId) (tint : TintId) (pa : BitVec 52) :
    s₀.Leads P (State.cohRead s a tint pa).2 := by
  unfold State.cohRead
  (try dsimp only)
  with_reducible repeat' (first | assumption | apply ite_leads | apply State.runCoh_leads | apply State.takeLine_leads | refine snd_leads (by assumption) ?_ | split)

theorem State.cohWrite_leads {P : Piece → Prop} [Fact (P .fields)] [Fact (P .hbm)] [Fact (P .mem)] [Fact (P .net)] [Fact (P .coh)] [Fact (P .ras)] [Fact (P .twin)] [Fact (P .draws)] [Fact (P .out)] {s₀ s : State} (h : s₀.Leads P s) (a : AgentId) (tint : TintId) (pa : BitVec 52) (w : CodeWord) :
    s₀.Leads P (State.cohWrite s a tint pa w) := by
  unfold State.cohWrite
  (try dsimp only)
  with_reducible repeat' (first | assumption | apply ite_leads | apply State.runCoh_leads | apply State.takeLine_leads | apply State.modCached_leads | refine snd_leads (by assumption) ?_ | split)

theorem State.cohReadPlain_leads {P : Piece → Prop} [Fact (P .fields)] [Fact (P .hbm)] [Fact (P .mem)] [Fact (P .net)] [Fact (P .coh)] [Fact (P .ras)] [Fact (P .twin)] [Fact (P .draws)] [Fact (P .out)] {s₀ s0 : State} (h : s₀.Leads P s0) (src : FieldId × NiId) (p : PanelId) (t : TintId) (pa : BitVec 52) :
    s₀.Leads P (State.cohReadPlain s0 src p t pa).2 := by
  unfold State.cohReadPlain
  (try dsimp only)
  with_reducible repeat' (first | assumption | apply ite_leads | apply State.runCoh_leads | apply State.counted_leads | apply State.wayLog_leads | refine snd_leads (by assumption) ?_ | split)

theorem State.cohWritePlain_leads {P : Piece → Prop} [Fact (P .fields)] [Fact (P .hbm)] [Fact (P .mem)] [Fact (P .net)] [Fact (P .coh)] [Fact (P .ras)] [Fact (P .twin)] [Fact (P .draws)] [Fact (P .out)] {s₀ s0 : State} (h : s₀.Leads P s0) (src : FieldId × NiId) (p : PanelId) (t : TintId) (pa : BitVec 52) (w : CodeWord) :
    s₀.Leads P (State.cohWritePlain s0 src p t pa w).2 := by
  unfold State.cohWritePlain
  (try dsimp only)
  with_reducible repeat' (first | assumption | apply ite_leads | apply State.runCoh_leads | apply State.counted_leads | apply State.wayLog_leads | refine snd_leads (by assumption) ?_ | split)

theorem State.cohWriteRun_leads {P : Piece → Prop} [Fact (P .fields)] [Fact (P .hbm)] [Fact (P .mem)] [Fact (P .net)] [Fact (P .coh)] [Fact (P .ras)] [Fact (P .twin)] [Fact (P .draws)] [Fact (P .out)] {s₀ : State} : ∀ (x : List CodeWord) (src : FieldId × NiId) (p : PanelId) (t : TintId) (pa : BitVec 52) {s : State}, s₀.Leads P s → s₀.Leads P (State.cohWriteRun s src p t pa x).2 := by
  intro x
  induction x with
  | nil =>
    intro src p t pa s h
    unfold State.cohWriteRun; (try dsimp only)
    with_reducible repeat' (first | assumption | apply ite_leads | apply State.cohWritePlain_leads | apply ih | refine snd_leads (by assumption) ?_ | split)
  | cons y ys ih =>
    intro src p t pa s h
    unfold State.cohWriteRun; (try dsimp only)
    with_reducible repeat' (first | assumption | apply ite_leads | apply State.cohWritePlain_leads | apply ih | refine snd_leads (by assumption) ?_ | split)

end Sys2Proof.Machine
end

