-- ==== Sys2Proof/Laws/LeadsNet.lean ====
section
/-!
SUPPORT. What the operations of Machine/Net.lean keep (State.Leads).
-/

set_option linter.unusedTactic false
set_option linter.unreachableTactic false
set_option linter.unusedVariables false

set_option Elab.async false

namespace Sys2Proof.Machine

theorem State.sample_leads {P : Piece → Prop} [Fact (P .pnl)] {s₀ s : State} (h : s₀.Leads P s) (panel : Option PanelId) :
    s₀.Leads P (State.sample s panel).2 := by
  unfold State.sample
  (try dsimp only)
  with_reducible repeat' (first | assumption | apply ite_leads | apply State.modPnl_leads | split)

theorem State.modLath_leads {P : Piece → Prop} [Fact (P .net)] {s₀ s : State} (h : s₀.Leads P s) (b : Fin 10) (f : LathState → LathState) :
    s₀.Leads P (State.modLath s b f) := by
  unfold State.modLath
  with_reducible repeat' (first | assumption | apply ite_leads | apply State.modNet_leads | split)

theorem State.sendFlit_leads {P : Piece → Prop} [Fact (P .net)] {s₀ s : State} (h : s₀.Leads P s) (t : Txn) (c : Fin 10 × LathDir) :
    s₀.Leads P (State.sendFlit s t c) := by
  unfold State.sendFlit
  with_reducible repeat' (first | assumption | apply ite_leads | apply State.modLath_leads | split)

theorem State.inject_leads {P : Piece → Prop} [Fact (P .net)] [Fact (P .pnl)] {s₀ s : State} (h : s₀.Leads P s) (f : FieldId) (ni : NiId) (tint : TintId) (panel : Option PanelId) (pa : BitVec 52) (kind : ReqKind) (owner : TxOwner) (va : Option (BitVec 55)) {b₀} {u : State} (e : State.inject s f ni tint panel pa kind owner va = some (b₀, u)) :
    s₀.Leads P u := by
  unfold State.inject at e
  obtain ⟨tag, -, e⟩ := Option.bind_eq_some_iff.mp e
  dsimp only at e
  repeat' split at e
  all_goals first
    | (cases e; done)
    | (rw [Option.some.injEq, Prod.mk.injEq] at e
       exact e.2 ▸ foldl_leads (fun t x k => State.sendFlit_leads k _ _) _
         (State.modNet_leads (State.sample_leads (State.tally_leads h _ _ _ _ _) _) _))

theorem State.holdReq_leads {P : Piece → Prop} [Fact (P .net)] {s₀ s : State} (h : s₀.Leads P s) (h : HeldReq) :
    s₀.Leads P (State.holdReq s h) := by
  unfold State.holdReq
  with_reducible repeat' (first | assumption | apply ite_leads | apply State.modNet_leads | split)

theorem State.injectOrHold_leads {P : Piece → Prop} [Fact (P .net)] [Fact (P .pnl)] {s₀ s : State} (h : s₀.Leads P s) (h : HeldReq) :
    s₀.Leads P (State.injectOrHold s h) := by
  unfold State.injectOrHold
  with_reducible repeat' (first | assumption | apply ite_leads | apply State.holdReq_leads | refine State.inject_leads ?_ _ _ _ _ _ _ _ _ (by assumption) | refine snd_leads (by assumption) ?_ | split)

theorem State.releaseReqs_leads {P : Piece → Prop} [Fact (P .net)] [Fact (P .pnl)] {s₀ s : State} (h : s₀.Leads P s)  :
    s₀.Leads P (State.releaseReqs s) := by
  unfold State.releaseReqs
  with_reducible repeat' (first | intro _ | assumption | apply ite_leads | apply State.injectOrHold_leads | apply State.modNet_leads | apply foldl_leads | apply foldl_leads_snd | split)

theorem State.stamp_leads {P : Piece → Prop} [Fact (P .net)] {s₀ s : State} (h : s₀.Leads P s) (id : TxId) :
    s₀.Leads P (State.stamp s id) := by
  unfold State.stamp
  with_reducible repeat' (first | intro _ | assumption | apply ite_leads | apply State.modNet_leads | split)

theorem State.modTxn_leads {P : Piece → Prop} [Fact (P .net)] {s₀ s : State} (h : s₀.Leads P s) (id : TxId) (f : Txn → Txn) :
    s₀.Leads P (State.modTxn s id f) := by
  unfold State.modTxn
  with_reducible repeat' (first | intro _ | assumption | apply ite_leads | apply State.modNet_leads | split)

theorem State.dropTxn_leads {P : Piece → Prop} [Fact (P .net)] {s₀ s : State} (h : s₀.Leads P s) (id : TxId) :
    s₀.Leads P (State.dropTxn s id) := by
  unfold State.dropTxn
  with_reducible repeat' (first | intro _ | assumption | apply ite_leads | apply State.modNet_leads | split)

theorem State.refuseTxn_leads {P : Piece → Prop} [Fact (P .net)] {s₀ s : State} (h : s₀.Leads P s) (t : Txn) (status : BitVec 3) :
    s₀.Leads P (State.refuseTxn s t status) := by
  unfold State.refuseTxn
  with_reducible repeat' (first | assumption | apply ite_leads | apply State.answerTxn_leads | split)

theorem State.traceRecord_leads {P : Piece → Prop} [Fact (P .pnl)] [Fact (P .out)] {s₀ s : State} (h : s₀.Leads P s) (rec_ : List Word) :
    s₀.Leads P (State.traceRecord s rec_) := by
  unfold State.traceRecord
  (try dsimp only)
  with_reducible repeat' (first | assumption | apply ite_leads | apply State.emit_leads | apply State.modPnl_leads | split)

theorem State.traceSchedule_leads {P : Piece → Prop} [Fact (P .pnl)] [Fact (P .out)] {s₀ s : State} (h : s₀.Leads P s) (a : ArrayId) (opcode : Nat) (pc : BitVec 55) :
    s₀.Leads P (State.traceSchedule s a opcode pc) := by
  unfold State.traceSchedule
  (try dsimp only)
  with_reducible repeat' (first | assumption | apply ite_leads | apply State.traceRecord_leads | split)

theorem State.traceHeader_leads {P : Piece → Prop} [Fact (P .pnl)] [Fact (P .out)] {s₀ s : State} (h : s₀.Leads P s) (t : Txn) (status : BitVec 3) (nclk : Nat) :
    s₀.Leads P (State.traceHeader s t status nclk) := by
  unfold State.traceHeader
  (try dsimp only)
  with_reducible repeat' (first | assumption | apply ite_leads | apply State.traceRecord_leads | split)

end Sys2Proof.Machine
end

