-- ==== Sys2Proof/Laws/LeadsTranslate.lean ====
section
/-!
SUPPORT. What the operations of Machine/Translate.lean keep (State.Leads).
-/

set_option linter.unusedTactic false
set_option linter.unreachableTactic false
set_option linter.unusedVariables false

set_option Elab.async false

namespace Sys2Proof.Machine

theorem State.modVfOf_leads {P : Piece → Prop} [Fact (P .ports)] {s₀ s : State} (h : s₀.Leads P s) (p : PanelId) (f : VfState → VfState) :
    s₀.Leads P (State.modVfOf s p f) := by
  unfold State.modVfOf
  (try dsimp only)
  with_reducible repeat' (first | assumption | apply ite_leads | apply State.modVf_leads | refine snd_leads (by assumption) ?_ | split)

theorem State.walkLevel_leads {P : Piece → Prop} [Fact (P .fields)] [Fact (P .hbm)] [Fact (P .mem)] [Fact (P .net)] [Fact (P .ras)] [Fact (P .out)] {s₀ s : State} (h : s₀.Leads P s) (g : Agent) (p : PanelId) (tint : TintId) (va : BitVec 55) (level : Nat) (table : BitVec 52) (namer : DWord) (flips : BitVec 544) :
    s₀.Leads P (State.walkLevel s g p tint va level table namer flips).2 := by
  unfold State.walkLevel
  (try dsimp only)
  with_reducible repeat' (first | assumption | apply ite_leads | apply State.fetchCode_leads | apply State.wordEvent_leads | split)

theorem State.cacheLeaf_leads {P : Piece → Prop} [Fact (P .fields)] [Fact (P .draws)] {s₀ s : State} (h : s₀.Leads P s) (eng : EngineSel) (e : TlbEntry) :
    s₀.Leads P (State.cacheLeaf s eng e) := by
  unfold State.cacheLeaf
  (try dsimp only)
  with_reducible repeat' (first | intro _ | assumption | apply ite_leads | apply State.drawn_leads | apply State.modTu_leads | refine snd_leads (by assumption) ?_ | split)

theorem State.cachePointer_leads {P : Piece → Prop} [Fact (P .fields)] [Fact (P .draws)] {s₀ s : State} (h : s₀.Leads P s) (f : FieldId) (e : TlbEntry) :
    s₀.Leads P (State.cachePointer s f e) := by
  unfold State.cachePointer
  with_reducible repeat' (first | intro _ | assumption | apply ite_leads | apply State.drawn_leads | apply State.modTu_leads | split)

theorem State.walk_leads {P : Piece → Prop} [Fact (P .fields)] [Fact (P .hbm)] [Fact (P .mem)] [Fact (P .net)] [Fact (P .ras)] [Fact (P .draws)] [Fact (P .out)] {s₀ : State} : ∀ (fuel : Nat) {s : State}, s₀.Leads P s → ∀ (g : Agent) (p : PanelId) (tint : TintId) (va : BitVec 55) (acc : Access) (eng : EngineSel) (level : Nat) (table : BitVec 52) (namer : DWord) (found : List TlbEntry), s₀.Leads P (s.walk g p tint va acc eng fuel level table namer found).2 := by
  intro fuel
  induction fuel with
  | zero => intro s h g p tint va acc eng level table namer found; unfold State.walk; exact h
  | succ n ih =>
    intro s h g p tint va acc eng level table namer found
    have w := State.walkLevel_leads h g p tint va level table namer 0
    unfold State.walk
    dsimp only
    split
    · exact snd_leads ‹_› w
    · exact ih (snd_leads ‹_› w) _ _ _ _ _ _ _ _ _ _
    · have v := snd_leads ‹_ = (WalkOut.leaf _, _)› w
      split
      · exact v
      · exact State.cacheLeaf_leads (foldl_leads (fun t x k => State.cachePointer_leads k _ _) _ v) _ _

theorem State.translate_leads {P : Piece → Prop} [Fact (P .fields)] [Fact (P .hbm)] [Fact (P .mem)] [Fact (P .net)] [Fact (P .ras)] [Fact (P .draws)] [Fact (P .out)] {s₀ s : State} (h : s₀.Leads P s) (g : Agent) (eng : EngineSel) (p : PanelId) (tint : TintId) (va : BitVec 55) (acc : Access) :
    s₀.Leads P (State.translate s g eng p tint va acc).2 := by
  unfold State.translate
  (try dsimp only)
  with_reducible repeat' (first | assumption | apply ite_leads | apply State.walk_leads | apply State.cacheLeaf_leads | refine snd_leads (by assumption) ?_ | split)

theorem State.arrive_leads {P : Piece → Prop} [Fact (P .pnl)] {s₀ s : State} (h : s₀.Leads P s) (p : PanelId) (i : FaultInfo) :
    s₀.Leads P (State.arrive s p i) := by
  unfold State.arrive
  with_reducible repeat' (first | assumption | apply ite_leads | apply State.modPanel_leads | split)

end Sys2Proof.Machine
end

