-- ==== Sys2Proof/Laws/LeadsAccess.lean ====
section
/-!
SUPPORT. What the operations of Machine/Access.lean keep (State.Leads).
-/

set_option linter.unusedTactic false
set_option linter.unreachableTactic false
set_option linter.unusedVariables false

set_option Elab.async false

namespace Sys2Proof.Machine

theorem State.hostRefused_leads {P : Piece → Prop} [Fact (P .ras)] [Fact (P .out)] {s₀ s : State} (h : s₀.Leads P s) (p : PanelId) :
    s₀.Leads P (State.hostRefused s p) := by
  unfold State.hostRefused
  with_reducible repeat' (first | assumption | apply ite_leads | apply State.logFault_leads | split)

theorem State.outsideReply_leads {P : Piece → Prop} [Fact (P .net)] [Fact (P .ras)] [Fact (P .draws)] [Fact (P .out)] {s₀ s : State} (h : s₀.Leads P s) (p : PanelId) (dst : FieldId × NiId) :
    s₀.Leads P (State.outsideReply s p dst).2 := by
  unfold State.outsideReply
  (try dsimp only)
  with_reducible repeat' (first | assumption | apply ite_leads | apply State.timedOut_leads | apply State.drawn_leads | split)

theorem State.hostReply_leads {P : Piece → Prop} [Fact (P .ras)] [Fact (P .draws)] [Fact (P .out)] {s₀ s : State} (h : s₀.Leads P s) (p : PanelId) :
    s₀.Leads P (State.hostReply s p).2 := by
  unfold State.hostReply
  (try dsimp only)
  with_reducible repeat' (first | assumption | apply ite_leads | apply State.hostRefused_leads | apply State.drawn_leads | split)

theorem State.wayLogged_leads {P : Piece → Prop} [Fact (P .net)] [Fact (P .ras)] [Fact (P .out)] {s₀ s : State} (h : s₀.Leads P s) (e : Eng) (dst : FieldId × NiId) (st : BitVec 3) :
    s₀.Leads P (State.wayLogged s e dst st) := by
  unfold State.wayLogged
  with_reducible repeat' (first | assumption | apply ite_leads | apply State.wayLog_leads | split)

theorem State.tallied_leads {P : Piece → Prop} [Fact (P .net)] {s₀ s : State} (h : s₀.Leads P s) (e : Eng) (dst : FieldId × NiId) (n : Nat) :
    s₀.Leads P (State.tallied s e dst n) := by
  unfold State.tallied
  with_reducible repeat' (first | assumption | apply ite_leads | apply State.counted_leads | split)

theorem State.readAt_leads {P : Piece → Prop} [Fact (P .fields)] [Fact (P .hbm)] [Fact (P .mem)] [Fact (P .net)] [Fact (P .coh)] [Fact (P .ras)] [Fact (P .twin)] [Fact (P .lines)] [Fact (P .draws)] [Fact (P .out)] {s₀ s : State} (h : s₀.Leads P s) (e : Eng) (pa : BitVec 52) (dst : FieldId × NiId) :
    s₀.Leads P (State.readAt s e pa dst).2 := by
  unfold State.readAt
  (try dsimp only)
  with_reducible repeat' (first | assumption | apply ite_leads | apply State.outsideReply_leads | apply State.cohRead_leads | apply State.readCode_leads | apply State.unbackedEvent_leads | apply State.tellTwin_leads | apply State.emit_leads | refine snd_leads (by assumption) ?_ | split)

theorem State.readPa_leads {P : Piece → Prop} [Fact (P .fields)] [Fact (P .hbm)] [Fact (P .mem)] [Fact (P .net)] [Fact (P .coh)] [Fact (P .ras)] [Fact (P .twin)] [Fact (P .lines)] [Fact (P .draws)] [Fact (P .out)] {s₀ s0 : State} (h : s₀.Leads P s0) (e : Eng) (pa : BitVec 52) :
    s₀.Leads P (State.readPa s0 e pa).2 := by
  unfold State.readPa
  (try dsimp only)
  with_reducible repeat' (first | assumption | apply ite_leads | apply State.readAt_leads | apply State.tallied_leads | apply State.wayLogged_leads | apply State.unbackedEvent_leads | refine snd_leads (by assumption) ?_ | split)

theorem State.readTarget_leads {P : Piece → Prop} [Fact (P .fields)] [Fact (P .hbm)] [Fact (P .mem)] [Fact (P .net)] [Fact (P .coh)] [Fact (P .ras)] [Fact (P .twin)] [Fact (P .lines)] [Fact (P .draws)] [Fact (P .out)] {s₀ : State} : ∀ (x : Target) (e : Eng) {s : State}, s₀.Leads P s → s₀.Leads P (State.readTarget s e x).2 := by
  intro x
  intro e s h
  cases x <;> (unfold State.readTarget; (try dsimp only))
  all_goals with_reducible repeat' (first | assumption | apply ite_leads | apply State.readPa_leads | apply State.tallied_leads | apply State.wayLogged_leads | apply State.hostReply_leads | apply State.hostRefused_leads | apply State.emit_leads | refine snd_leads (by assumption) ?_ | split)

theorem State.writeAt_leads {P : Piece → Prop} [Fact (P .fields)] [Fact (P .hbm)] [Fact (P .mem)] [Fact (P .net)] [Fact (P .coh)] [Fact (P .ras)] [Fact (P .twin)] [Fact (P .draws)] [Fact (P .out)] {s₀ s : State} (h : s₀.Leads P s) (e : Eng) (pa : BitVec 52) (ws : List CodeWord) :
    s₀.Leads P (State.writeAt s e pa ws).2 := by
  unfold State.writeAt
  with_reducible repeat' (first | intro _ | assumption | apply ite_leads | apply State.cohWrite_leads | apply State.writeCodes_leads | apply foldl_leads | apply foldl_leads_snd | refine snd_leads (by assumption) ?_ | split)

theorem State.writePa_leads {P : Piece → Prop} [Fact (P .fields)] [Fact (P .hbm)] [Fact (P .mem)] [Fact (P .net)] [Fact (P .coh)] [Fact (P .pnl)] [Fact (P .ras)] [Fact (P .twin)] [Fact (P .draws)] [Fact (P .out)] {s₀ s0 : State} (h : s₀.Leads P s0) (e : Eng) (pa : BitVec 52) (ws : List CodeWord) {b₀} {u : State} (e1 : s0.writePa e pa ws = some (b₀, u)) :
    s₀.Leads P u := by
  unfold State.writePa at e1
  dsimp only at e1
  split at e1
  · obtain ⟨r, k, j⟩ := Option.map_eq_some_iff.mp e1
    rw [Prod.mk.injEq] at j
    exact j.2 ▸ State.inject_leads h _ _ _ _ _ _ _ _ k
  · split at e1
    · cases e1
    · split at e1
      · rw [Option.some.injEq] at e1
        have k := State.writeAt_leads h e pa ws
        rw [e1] at k
        exact k
      · split at e1
        · rw [Option.some.injEq] at e1
          have k := State.writeCodes_leads ws e.agent pa h
          rw [e1] at k
          exact k
        · rename_i dst _
          have t := State.tallied_leads h e dst ws.length
          split at e1
          · rw [Option.some.injEq, Prod.mk.injEq] at e1
            exact e1.2 ▸ State.wayLogged_leads t _ _ _
          · have k := State.writeAt_leads t e pa ws
            rw [Option.some.injEq] at e1
            split at e1
            · rw [e1] at k
              exact k
            · rw [Prod.mk.injEq] at e1
              exact e1.2 ▸ State.wayLogged_leads k _ _ _

theorem State.accessEvent_leads {P : Piece → Prop} [Fact (P .ras)] {s₀ s : State} (h : s₀.Leads P s) (cls : BitVec 5) (g : Agent) (t : Option Target) :
    s₀.Leads P (State.accessEvent s cls g t) := by
  unfold State.accessEvent
  with_reducible repeat' (first | assumption | apply ite_leads | apply State.wordEvent_leads | apply State.logMem_leads | refine snd_leads (by assumption) ?_ | split)

theorem State.egress_leads {P : Piece → Prop} [Fact (P .ras)] {s₀ s : State} (h : s₀.Leads P s) (g : Agent) (ws : List (Option Target × CodeWord)) :
    s₀.Leads P (State.egress s g ws) := by
  unfold State.egress
  with_reducible repeat' (first | intro _ | assumption | apply ite_leads | apply State.accessEvent_leads | apply foldl_leads | apply foldl_leads_snd | split)

theorem State.writeTarget_leads {P : Piece → Prop} [Fact (P .fields)] [Fact (P .hbm)] [Fact (P .mem)] [Fact (P .net)] [Fact (P .coh)] [Fact (P .pnl)] [Fact (P .ras)] [Fact (P .twin)] [Fact (P .draws)] [Fact (P .out)] {s₀ s : State} (h : s₀.Leads P s) (e : Eng) (t : Target) (ws : List CodeWord) {b₀} {u : State} (e : State.writeTarget s e t ws = some (b₀, u)) :
    s₀.Leads P u := by
  unfold State.writeTarget at e
  (try dsimp only at e); repeat' (first | (cases e; done) | (rw [Option.map_eq_some_iff] at e; obtain ⟨_, e1, e⟩ := e; cases e) | cases e | split at e)
  all_goals with_reducible repeat' (first | intro _ | assumption | apply ite_leads | apply State.egress_leads | refine State.writePa_leads ?_ _ _ _ (by assumption) | apply State.tallied_leads | apply State.wayLogged_leads | apply State.hostRefused_leads | apply State.emit_leads | apply foldl_leads | apply foldl_leads_snd | refine snd_leads (by assumption) ?_ | split)

theorem State.checkVas_leads {P : Piece → Prop} [Fact (P .fields)] [Fact (P .hbm)] [Fact (P .mem)] [Fact (P .net)] [Fact (P .ras)] [Fact (P .draws)] [Fact (P .out)] {s₀ : State} : ∀ (x : List (BitVec 55)) (e : Eng) (acc : Access) {s : State}, s₀.Leads P s → s₀.Leads P (State.checkVas s e acc x).2 := by
  intro x
  induction x with
  | nil =>
    intro e acc s h
    unfold State.checkVas; (try dsimp only)
    with_reducible repeat' (first | assumption | apply ite_leads | apply State.translate_leads | apply ih | refine snd_leads (by assumption) ?_ | split)
  | cons y ys ih =>
    intro e acc s h
    unfold State.checkVas; (try dsimp only)
    with_reducible repeat' (first | assumption | apply ite_leads | apply State.translate_leads | apply ih | refine snd_leads (by assumption) ?_ | split)

theorem State.readVa_leads {P : Piece → Prop} [Fact (P .fields)] [Fact (P .hbm)] [Fact (P .mem)] [Fact (P .net)] [Fact (P .coh)] [Fact (P .ras)] [Fact (P .twin)] [Fact (P .lines)] [Fact (P .draws)] [Fact (P .out)] {s₀ s : State} (h : s₀.Leads P s) (e : Eng) (acc : Access) (va : BitVec 55) :
    s₀.Leads P (State.readVa s e acc va).2 := by
  unfold State.readVa
  (try dsimp only)
  with_reducible repeat' (first | assumption | apply ite_leads | apply State.readTarget_leads | apply State.translate_leads | refine snd_leads (by assumption) ?_ | split)

theorem State.readRun_leads {P : Piece → Prop} [Fact (P .fields)] [Fact (P .hbm)] [Fact (P .mem)] [Fact (P .net)] [Fact (P .coh)] [Fact (P .ras)] [Fact (P .twin)] [Fact (P .lines)] [Fact (P .draws)] [Fact (P .out)] {s₀ : State} : ∀ (x : Nat) (e : Eng) (acc : Access) (va : BitVec 55) {s : State}, s₀.Leads P s → s₀.Leads P (State.readRun s e acc va x).2 := by
  intro x
  induction x with
  | zero =>
    intro e acc va s h
    unfold State.readRun; (try dsimp only)
    with_reducible repeat' (first | assumption | apply ite_leads | apply State.readVa_leads | apply ih | refine snd_leads (by assumption) ?_ | split)
  | succ k ih =>
    intro e acc va s h
    unfold State.readRun; (try dsimp only)
    with_reducible repeat' (first | assumption | apply ite_leads | apply State.readVa_leads | apply ih | refine snd_leads (by assumption) ?_ | split)

theorem State.sendRun_leads {P : Piece → Prop} [Fact (P .fields)] [Fact (P .hbm)] [Fact (P .mem)] [Fact (P .net)] [Fact (P .coh)] [Fact (P .pnl)] [Fact (P .ras)] [Fact (P .twin)] [Fact (P .draws)] [Fact (P .out)] {s₀ : State} : ∀ (fuel : Nat) {s : State}, s₀.Leads P s → ∀ (e : Eng) (va : BitVec 55) (ws : List CodeWord), s₀.Leads P (State.sendRun fuel s e va ws).2 := by
  intro fuel
  induction fuel with
  | zero => intro s h e va ws; unfold State.sendRun; exact h
  | succ n ih =>
    intro s h e va ws
    cases ws with
    | nil => unfold State.sendRun; exact h
    | cons w ws =>
    unfold State.sendRun
    (try dsimp only)
    with_reducible repeat' (first | intro _ | assumption | apply ite_leads | apply ih | refine State.writeTarget_leads ?_ _ _ _ (by assumption) | apply State.translate_leads | refine snd_leads (by assumption) ?_ | split)

end Sys2Proof.Machine
end

