-- ==== Sys2Proof/Laws/LeadsArrays.lean ====
section
/-!
SUPPORT. What the operations of Machine/Arrays.lean keep (State.Leads).
-/

set_option linter.unusedTactic false
set_option linter.unreachableTactic false
set_option linter.unusedVariables false

set_option Elab.async false

namespace Sys2Proof.Machine

theorem State.modTaken_leads {P : Piece → Prop} [Fact (P .ports)] {s₀ s : State} (h : s₀.Leads P s) (q : QRef) (f : Taken → Taken) :
    s₀.Leads P (State.modTaken s q f) := by
  unfold State.modTaken
  with_reducible repeat' (first | assumption | apply ite_leads | apply State.modQueue_leads | split)

theorem State.wdLoad_leads {P : Piece → Prop} [Fact (P .arrays)] {s₀ s : State} (h : s₀.Leads P s) (a : ArrayId) :
    s₀.Leads P (State.wdLoad s a) := by
  unfold State.wdLoad
  with_reducible repeat' (first | assumption | apply ite_leads | apply State.modSeq_leads | split)

theorem State.wdStop_leads {P : Piece → Prop} [Fact (P .arrays)] {s₀ s : State} (h : s₀.Leads P s) (a : ArrayId) :
    s₀.Leads P (State.wdStop s a) := by
  unfold State.wdStop
  with_reducible repeat' (first | assumption | apply ite_leads | apply State.modSeq_leads | split)

theorem State.wdResume_leads {P : Piece → Prop} [Fact (P .arrays)] {s₀ s : State} (h : s₀.Leads P s) (a : ArrayId) :
    s₀.Leads P (State.wdResume s a) := by
  unfold State.wdResume
  with_reducible repeat' (first | assumption | apply ite_leads | apply State.modSeq_leads | split)

theorem State.progress_leads {P : Piece → Prop} [Fact (P .arrays)] {s₀ s : State} (h : s₀.Leads P s) (a : ArrayId) :
    s₀.Leads P (State.progress s a) := by
  unfold State.progress
  with_reducible repeat' (first | assumption | apply ite_leads | apply State.wdLoad_leads | split)

theorem State.seqFault_leads {P : Piece → Prop} [Fact (P .arrays)] {s₀ s : State} (h : s₀.Leads P s) (a : ArrayId) (source : BitVec 3) (code : Byte) (info : BitVec 16) :
    s₀.Leads P (State.seqFault s a source code info) := by
  unfold State.seqFault
  with_reducible repeat' (first | assumption | apply ite_leads | apply State.modSeq_leads | split)

theorem State.arrFault_leads {P : Piece → Prop} [Fact (P .arrays)] {s₀ s : State} (h : s₀.Leads P s) (a : ArrayId) (code : Byte) (info : BitVec 16) :
    s₀.Leads P (State.arrFault s a code info) := by
  unfold State.arrFault
  with_reducible repeat' (first | assumption | apply ite_leads | apply State.modCube_leads | split)

theorem State.logArray_leads {P : Piece → Prop} [Fact (P .ras)] [Fact (P .out)] {s₀ s : State} (h : s₀.Leads P s) (a : ArrayId) (cls : BitVec 3) (source : BitVec 3) (code : Byte) (info : BitVec 16) (patch : Word) :
    s₀.Leads P (State.logArray s a cls source code info patch) := by
  unfold State.logArray
  with_reducible repeat' (first | assumption | apply ite_leads | apply State.logFault_leads | split)

theorem State.cancelStalls_leads {P : Piece → Prop} [Fact (P .pnl)] {s₀ s : State} (h : s₀.Leads P s) (a : ArrayId) :
    s₀.Leads P (State.cancelStalls s a) := by
  unfold State.cancelStalls
  (try dsimp only)
  with_reducible repeat' (first | intro _ | assumption | apply ite_leads | apply State.modPanel_leads | refine snd_leads (by assumption) ?_ | split)

theorem State.haltEffect_leads {P : Piece → Prop} [Fact (P .arrays)] [Fact (P .pnl)] {s₀ s : State} (h : s₀.Leads P s) (a : ArrayId) (k : HaltKind) :
    s₀.Leads P (State.haltEffect s a k) := by
  unfold State.haltEffect
  with_reducible repeat' (first | assumption | apply ite_leads | apply State.cancelStalls_leads | apply State.wdStop_leads | apply State.modCube_leads | apply State.modArray_leads | split)

theorem State.haltArray_leads {P : Piece → Prop} [Fact (P .arrays)] [Fact (P .pnl)] {s₀ s : State} (h : s₀.Leads P s) (a : ArrayId) (k : HaltKind) :
    s₀.Leads P (State.haltArray s a k) := by
  unfold State.haltArray
  (try dsimp only)
  with_reducible repeat' (first | intro _ | assumption | apply ite_leads | apply State.haltEffect_leads | apply State.modCube_leads | refine snd_leads (by assumption) ?_ | split)

theorem State.stopAt_leads {P : Piece → Prop} [Fact (P .arrays)] [Fact (P .pnl)] {s₀ s : State} (h : s₀.Leads P s) (a : ArrayId) (k : HaltKind) :
    s₀.Leads P (State.stopAt s a k) := by
  unfold State.stopAt
  with_reducible repeat' (first | intro _ | assumption | apply ite_leads | apply State.haltEffect_leads | apply State.modCube_leads | split)

theorem State.endInv_leads {P : Piece → Prop} [Fact (P .arrays)] [Fact (P .ports)] [Fact (P .pnl)] {s₀ s : State} (h : s₀.Leads P s) (q : QRef) (status : Byte) (code : Byte) (a : Option ArrayId) :
    s₀.Leads P (State.endInv s q status code a) := by
  unfold State.endInv
  (try dsimp only)
  with_reducible repeat' (first | intro _ | assumption | apply ite_leads | apply State.haltArray_leads | apply State.modTaken_leads | apply foldl_leads | apply foldl_leads_snd | refine snd_leads (by assumption) ?_ | split)

theorem State.endInvOf_leads {P : Piece → Prop} [Fact (P .arrays)] [Fact (P .ports)] [Fact (P .pnl)] {s₀ s : State} (h : s₀.Leads P s) (a : ArrayId) (status : Byte) (code : Byte) :
    s₀.Leads P (State.endInvOf s a status code) := by
  unfold State.endInvOf
  with_reducible repeat' (first | assumption | apply ite_leads | apply State.endInv_leads | refine snd_leads (by assumption) ?_ | split)

theorem State.endStep_leads {P : Piece → Prop} [Fact (P .arrays)] [Fact (P .ports)] [Fact (P .pnl)] [Fact (P .ras)] [Fact (P .out)] {s₀ s : State} (h : s₀.Leads P s) (a : ArrayId) (source : BitVec 3) (code : Byte) (info : BitVec 16) (status : Byte) :
    s₀.Leads P (State.endStep s a source code info status) := by
  unfold State.endStep
  (try dsimp only)
  with_reducible repeat' (first | assumption | apply ite_leads | apply State.endInvOf_leads | apply State.haltArray_leads | apply State.logArray_leads | apply State.arrFault_leads | apply State.seqFault_leads | split)

theorem State.consumed_leads {P : Piece → Prop} [Fact (P .arrays)] [Fact (P .ports)] [Fact (P .pnl)] [Fact (P .ras)] [Fact (P .out)] {s₀ s : State} (h : s₀.Leads P s) (a : ArrayId) (kind : BitVec 4) (source : BitVec 3) (code : Byte) (info : BitVec 16) (t : Option Target) :
    s₀.Leads P (State.consumed s a kind source code info t) := by
  unfold State.consumed
  with_reducible repeat' (first | assumption | apply ite_leads | apply State.endStep_leads | apply State.accessEvent_leads | split)

theorem State.attemptEnds_leads {P : Piece → Prop} [Fact (P .arrays)] [Fact (P .ports)] [Fact (P .pnl)] [Fact (P .ras)] [Fact (P .out)] {s₀ s : State} (h : s₀.Leads P s) (a : ArrayId) (source : BitVec 3) (code : Byte) (info : BitVec 16) :
    s₀.Leads P (State.attemptEnds s a source code info) := by
  unfold State.attemptEnds
  (try dsimp only)
  with_reducible repeat' (first | assumption | apply ite_leads | apply State.endInvOf_leads | apply State.haltArray_leads | apply State.logArray_leads | apply State.seqFault_leads | split)

theorem State.writeDone_leads {P : Piece → Prop} [Fact (P .arrays)] [Fact (P .ports)] [Fact (P .pnl)] [Fact (P .ras)] [Fact (P .out)] {s₀ s : State} (h : s₀.Leads P s) (a : ArrayId) (open_ : Bool) (status : BitVec 3) :
    s₀.Leads P (State.writeDone s a open_ status) := by
  unfold State.writeDone
  with_reducible repeat' (first | assumption | apply ite_leads | apply State.attemptEnds_leads | apply State.endInvOf_leads | apply State.haltArray_leads | split)

theorem State.stall_leads {P : Piece → Prop} [Fact (P .arrays)] [Fact (P .pnl)] {s₀ s : State} (h : s₀.Leads P s) (a : ArrayId) (p : PanelId) (key : EngineKey) (f : VaFault) (midtile : Bool) :
    s₀.Leads P (State.stall s a p key f midtile) := by
  unfold State.stall
  with_reducible repeat' (first | assumption | apply ite_leads | apply State.wdStop_leads | apply State.arrive_leads | split)

theorem State.countCommits_leads {P : Piece → Prop} [Fact (P .ports)] {s₀ s : State} (h : s₀.Leads P s) (a : ArrayId) (n : Nat) :
    s₀.Leads P (State.countCommits s a n) := by
  unfold State.countCommits
  with_reducible repeat' (first | intro _ | assumption | apply ite_leads | apply State.modTaken_leads | refine snd_leads (by assumption) ?_ | split)

end Sys2Proof.Machine
end

