-- ==== Sys2Proof/Laws/LeadsCoherence.lean ====
section
/-!
SUPPORT. What the operations of Machine/Coherence.lean keep (State.Leads).
-/

set_option linter.unusedTactic false
set_option linter.unreachableTactic false
set_option linter.unusedVariables false

set_option Elab.async false

namespace Sys2Proof.Machine

theorem State.cohRefused_leads {P : Piece → Prop} [Fact (P .out)] {s₀ s : State} (h : s₀.Leads P s) (a : AgentId) (pa : BitVec 52) (src : CohFrom) (st : BitVec 3) :
    s₀.Leads P (State.cohRefused s a pa src st) := by
  unfold State.cohRefused
  with_reducible repeat' (first | assumption | apply ite_leads | apply State.tellNative_leads | apply State.emit_leads | split)

theorem State.agentRequest_leads {P : Piece → Prop} [Fact (P .fields)] [Fact (P .hbm)] [Fact (P .mem)] [Fact (P .net)] [Fact (P .coh)] [Fact (P .ras)] [Fact (P .twin)] [Fact (P .out)] {s₀ s0 : State} (h : s₀.Leads P s0) (a : AgentId) (pa : BitVec 52) (req : CohReq) (src : CohFrom) :
    s₀.Leads P (State.agentRequest s0 a pa req src) := by
  unfold State.agentRequest
  (try dsimp only)
  with_reducible repeat' (first | assumption | apply ite_leads | apply State.cohRefused_leads | apply State.requestCoh_leads | apply State.counted_leads | apply State.wayLog_leads | refine snd_leads (by assumption) ?_ | split)

theorem State.hubRequest_leads {P : Piece → Prop} [Fact (P .fields)] [Fact (P .hbm)] [Fact (P .mem)] [Fact (P .net)] [Fact (P .coh)] [Fact (P .ras)] [Fact (P .twin)] [Fact (P .out)] {s₀ s : State} (h : s₀.Leads P s) (a : AgentId) (pa : BitVec 52) (req : CohReq) (tint : TintId) :
    s₀.Leads P (State.hubRequest s a pa req tint) := by
  unfold State.hubRequest
  with_reducible repeat' (first | assumption | apply ite_leads | apply State.agentRequest_leads | split)

theorem execCohRds_leads {P : Piece → Prop} {s₀ s : State} (h : s₀.Leads P s) (agent : AgentId) (ask : CohAsk) {t : State} (e : execCohRds agent ask s = .next t)
    (pFields : P .fields) (pHbm : P .hbm) (pMem : P .mem) (pNet : P .net) (pCoh : P .coh) (pRas : P .ras) (pTwin : P .twin) (pOut : P .out) :
    s₀.Leads P t := by
  have _ : Fact (P .fields) := ⟨pFields⟩
  have _ : Fact (P .hbm) := ⟨pHbm⟩
  have _ : Fact (P .mem) := ⟨pMem⟩
  have _ : Fact (P .net) := ⟨pNet⟩
  have _ : Fact (P .coh) := ⟨pCoh⟩
  have _ : Fact (P .ras) := ⟨pRas⟩
  have _ : Fact (P .twin) := ⟨pTwin⟩
  have _ : Fact (P .out) := ⟨pOut⟩
  unfold execCohRds at e
  cases e
  with_reducible repeat' (first | assumption | apply ite_leads | apply State.hubRequest_leads | split)

theorem State.ownerRequest_leads {P : Piece → Prop} [Fact (P .fields)] [Fact (P .hbm)] [Fact (P .mem)] [Fact (P .net)] [Fact (P .coh)] [Fact (P .ras)] [Fact (P .twin)] [Fact (P .out)] {s₀ s : State} (h : s₀.Leads P s) (a : AgentId) (pa : BitVec 52) (req : CohReq) (tint : TintId) :
    s₀.Leads P (State.ownerRequest s a pa req tint) := by
  unfold State.ownerRequest
  with_reducible repeat' (first | assumption | apply ite_leads | apply State.hubRequest_leads | split)

theorem execCohRdx_leads {P : Piece → Prop} {s₀ s : State} (h : s₀.Leads P s) (agent : AgentId) (ask : CohAsk) {t : State} (e : execCohRdx agent ask s = .next t)
    (pFields : P .fields) (pHbm : P .hbm) (pMem : P .mem) (pNet : P .net) (pCoh : P .coh) (pRas : P .ras) (pTwin : P .twin) (pOut : P .out) :
    s₀.Leads P t := by
  have _ : Fact (P .fields) := ⟨pFields⟩
  have _ : Fact (P .hbm) := ⟨pHbm⟩
  have _ : Fact (P .mem) := ⟨pMem⟩
  have _ : Fact (P .net) := ⟨pNet⟩
  have _ : Fact (P .coh) := ⟨pCoh⟩
  have _ : Fact (P .ras) := ⟨pRas⟩
  have _ : Fact (P .twin) := ⟨pTwin⟩
  have _ : Fact (P .out) := ⟨pOut⟩
  unfold execCohRdx at e
  cases e
  with_reducible repeat' (first | assumption | apply ite_leads | apply State.ownerRequest_leads | split)

theorem execCohUpg_leads {P : Piece → Prop} {s₀ s : State} (h : s₀.Leads P s) (agent : AgentId) (ask : CohAsk) {t : State} (e : execCohUpg agent ask s = .next t)
    (pFields : P .fields) (pHbm : P .hbm) (pMem : P .mem) (pNet : P .net) (pCoh : P .coh) (pRas : P .ras) (pTwin : P .twin) (pOut : P .out) :
    s₀.Leads P t := by
  have _ : Fact (P .fields) := ⟨pFields⟩
  have _ : Fact (P .hbm) := ⟨pHbm⟩
  have _ : Fact (P .mem) := ⟨pMem⟩
  have _ : Fact (P .net) := ⟨pNet⟩
  have _ : Fact (P .coh) := ⟨pCoh⟩
  have _ : Fact (P .ras) := ⟨pRas⟩
  have _ : Fact (P .twin) := ⟨pTwin⟩
  have _ : Fact (P .out) := ⟨pOut⟩
  unfold execCohUpg at e
  cases e
  with_reducible repeat' (first | assumption | apply ite_leads | apply State.ownerRequest_leads | split)

theorem execCohInvx_leads {P : Piece → Prop} {s₀ s : State} (h : s₀.Leads P s) (agent : AgentId) (ask : CohAsk) {t : State} (e : execCohInvx agent ask s = .next t)
    (pFields : P .fields) (pHbm : P .hbm) (pMem : P .mem) (pNet : P .net) (pCoh : P .coh) (pRas : P .ras) (pTwin : P .twin) (pOut : P .out) :
    s₀.Leads P t := by
  have _ : Fact (P .fields) := ⟨pFields⟩
  have _ : Fact (P .hbm) := ⟨pHbm⟩
  have _ : Fact (P .mem) := ⟨pMem⟩
  have _ : Fact (P .net) := ⟨pNet⟩
  have _ : Fact (P .coh) := ⟨pCoh⟩
  have _ : Fact (P .ras) := ⟨pRas⟩
  have _ : Fact (P .twin) := ⟨pTwin⟩
  have _ : Fact (P .out) := ⟨pOut⟩
  unfold execCohInvx at e
  cases e
  with_reducible repeat' (first | assumption | apply ite_leads | apply State.ownerRequest_leads | split)

theorem State.plainRequest_leads {P : Piece → Prop} [Fact (P .fields)] [Fact (P .hbm)] [Fact (P .mem)] [Fact (P .net)] [Fact (P .coh)] [Fact (P .ras)] [Fact (P .twin)] [Fact (P .out)] {s₀ s : State} (h : s₀.Leads P s) (id : TxId) (pa : BitVec 52) (req : CohReq) (src : CohFrom) :
    s₀.Leads P (State.plainRequest s id pa req src) := by
  unfold State.plainRequest
  with_reducible repeat' (first | assumption | apply ite_leads | apply State.refuseTxn_leads | apply State.requestCoh_leads | apply State.emit_leads | refine snd_leads (by assumption) ?_ | split)

theorem execCohRdc_leads {P : Piece → Prop} {s₀ s : State} (h : s₀.Leads P s) (id : TxId) (pa : BitVec 52) {t : State} (e : execCohRdc id pa s = .next t)
    (pFields : P .fields) (pHbm : P .hbm) (pMem : P .mem) (pNet : P .net) (pCoh : P .coh) (pRas : P .ras) (pTwin : P .twin) (pOut : P .out) :
    s₀.Leads P t := by
  have _ : Fact (P .fields) := ⟨pFields⟩
  have _ : Fact (P .hbm) := ⟨pHbm⟩
  have _ : Fact (P .mem) := ⟨pMem⟩
  have _ : Fact (P .net) := ⟨pNet⟩
  have _ : Fact (P .coh) := ⟨pCoh⟩
  have _ : Fact (P .ras) := ⟨pRas⟩
  have _ : Fact (P .twin) := ⟨pTwin⟩
  have _ : Fact (P .out) := ⟨pOut⟩
  unfold execCohRdc at e
  cases e
  with_reducible repeat' (first | assumption | apply ite_leads | apply State.plainRequest_leads | split)

theorem execCohWrl_leads {P : Piece → Prop} {s₀ s : State} (h : s₀.Leads P s) (id : TxId) (pa : BitVec 52) (word : CodeWord) {t : State} (e : execCohWrl id pa word s = .next t)
    (pFields : P .fields) (pHbm : P .hbm) (pMem : P .mem) (pNet : P .net) (pCoh : P .coh) (pRas : P .ras) (pTwin : P .twin) (pOut : P .out) :
    s₀.Leads P t := by
  have _ : Fact (P .fields) := ⟨pFields⟩
  have _ : Fact (P .hbm) := ⟨pHbm⟩
  have _ : Fact (P .mem) := ⟨pMem⟩
  have _ : Fact (P .net) := ⟨pNet⟩
  have _ : Fact (P .coh) := ⟨pCoh⟩
  have _ : Fact (P .ras) := ⟨pRas⟩
  have _ : Fact (P .twin) := ⟨pTwin⟩
  have _ : Fact (P .out) := ⟨pOut⟩
  unfold execCohWrl at e
  cases e
  with_reducible repeat' (first | assumption | apply ite_leads | apply State.plainRequest_leads | split)

theorem execCohFlushl_leads {P : Piece → Prop} {s₀ s : State} (h : s₀.Leads P s) (id : TxId) (pa : BitVec 52) {t : State} (e : execCohFlushl id pa s = .next t)
    (pFields : P .fields) (pHbm : P .hbm) (pMem : P .mem) (pNet : P .net) (pCoh : P .coh) (pRas : P .ras) (pTwin : P .twin) (pOut : P .out) :
    s₀.Leads P t := by
  have _ : Fact (P .fields) := ⟨pFields⟩
  have _ : Fact (P .hbm) := ⟨pHbm⟩
  have _ : Fact (P .mem) := ⟨pMem⟩
  have _ : Fact (P .net) := ⟨pNet⟩
  have _ : Fact (P .coh) := ⟨pCoh⟩
  have _ : Fact (P .ras) := ⟨pRas⟩
  have _ : Fact (P .twin) := ⟨pTwin⟩
  have _ : Fact (P .out) := ⟨pOut⟩
  unfold execCohFlushl at e
  cases e
  with_reducible repeat' (first | assumption | apply ite_leads | apply State.plainRequest_leads | split)

theorem execCohAtomic_leads {P : Piece → Prop} {s₀ s : State} (h : s₀.Leads P s) (id : TxId) (pa : BitVec 52) (op : AtomicOp) (off : Fin 64) (operand compare : DWord) {t : State} (e : execCohAtomic id pa op off operand compare s = .next t)
    (pFields : P .fields) (pHbm : P .hbm) (pMem : P .mem) (pNet : P .net) (pCoh : P .coh) (pRas : P .ras) (pTwin : P .twin) (pOut : P .out) :
    s₀.Leads P t := by
  have _ : Fact (P .fields) := ⟨pFields⟩
  have _ : Fact (P .hbm) := ⟨pHbm⟩
  have _ : Fact (P .mem) := ⟨pMem⟩
  have _ : Fact (P .net) := ⟨pNet⟩
  have _ : Fact (P .coh) := ⟨pCoh⟩
  have _ : Fact (P .ras) := ⟨pRas⟩
  have _ : Fact (P .twin) := ⟨pTwin⟩
  have _ : Fact (P .out) := ⟨pOut⟩
  unfold execCohAtomic at e
  cases e
  with_reducible repeat' (first | assumption | apply ite_leads | apply State.plainRequest_leads | apply State.answerTxn_leads | refine snd_leads (by assumption) ?_ | split)

theorem State.acceptWb_leads {P : Piece → Prop} [Fact (P .hbm)] [Fact (P .mem)] [Fact (P .net)] [Fact (P .coh)] [Fact (P .ras)] [Fact (P .twin)] [Fact (P .out)] {s₀ s : State} (h : s₀.Leads P s) (a : AgentId) (pa : BitVec 52) (tag : BitVec 12) (w : CodeWord) (src : CohFrom) :
    s₀.Leads P (State.acceptWb s a pa tag w src) := by
  unfold State.acceptWb
  (try dsimp only)
  with_reducible repeat' (first | assumption | apply ite_leads | apply State.sendWbAck_leads | apply State.homeWrite_leads | apply State.modSlice_leads | split)

theorem State.sendWb_leads {P : Piece → Prop} [Fact (P .hbm)] [Fact (P .mem)] [Fact (P .net)] [Fact (P .coh)] [Fact (P .ras)] [Fact (P .twin)] [Fact (P .out)] {s₀ s0 : State} (h : s₀.Leads P s0) (a : AgentId) (pa : BitVec 52) (tag : BitVec 12) (w : CodeWord) (src : CohFrom) :
    s₀.Leads P (State.sendWb s0 a pa tag w src) := by
  unfold State.sendWb
  (try dsimp only)
  with_reducible repeat' (first | assumption | apply ite_leads | apply State.acceptWb_leads | apply State.cohRefused_leads | apply State.counted_leads | apply State.wayLog_leads | refine snd_leads (by assumption) ?_ | split)

theorem execCohWb_leads {P : Piece → Prop} {s₀ s : State} (h : s₀.Leads P s) (agent : AgentId) (pa : BitVec 52) (tag : BitVec 12) (tint : TintId) {t : State} (e : execCohWb agent pa tag tint s = .next t)
    (pHbm : P .hbm) (pMem : P .mem) (pNet : P .net) (pCoh : P .coh) (pRas : P .ras) (pTwin : P .twin) (pOut : P .out) :
    s₀.Leads P t := by
  have _ : Fact (P .hbm) := ⟨pHbm⟩
  have _ : Fact (P .mem) := ⟨pMem⟩
  have _ : Fact (P .net) := ⟨pNet⟩
  have _ : Fact (P .coh) := ⟨pCoh⟩
  have _ : Fact (P .ras) := ⟨pRas⟩
  have _ : Fact (P .twin) := ⟨pTwin⟩
  have _ : Fact (P .out) := ⟨pOut⟩
  unfold execCohWb at e
  cases e
  with_reducible repeat' (first | assumption | apply ite_leads | apply State.sendWb_leads | refine snd_leads (by assumption) ?_ | split)

theorem State.cxlReject_leads {P : Piece → Prop} [Fact (P .ras)] [Fact (P .out)] {s₀ s : State} (h : s₀.Leads P s) (n : SiteId) :
    s₀.Leads P (State.cxlReject s n) := by
  unfold State.cxlReject
  with_reducible repeat' (first | assumption | apply ite_leads | apply State.logFault_leads | apply State.emit_leads | split)

theorem State.dirtyEvict_leads {P : Piece → Prop} [Fact (P .hbm)] [Fact (P .mem)] [Fact (P .net)] [Fact (P .coh)] [Fact (P .ras)] [Fact (P .twin)] [Fact (P .out)] {s₀ s : State} (h : s₀.Leads P s) (n : SiteId) (pa : BitVec 52) (w : CodeWord) :
    s₀.Leads P (State.dirtyEvict s n pa w) := by
  unfold State.dirtyEvict
  (try dsimp only)
  with_reducible repeat' (first | assumption | apply ite_leads | apply State.sendWb_leads | apply State.emit_leads | apply State.modSlice_leads | split)

theorem State.cleanEvict_leads {P : Piece → Prop} [Fact (P .coh)] {s₀ s : State} (h : s₀.Leads P s) (a : AgentId) (pa : BitVec 52) :
    s₀.Leads P (State.cleanEvict s a pa) := by
  unfold State.cleanEvict
  with_reducible repeat' (first | assumption | apply ite_leads | apply State.modSlice_leads | split)

theorem execCohEvc_leads {P : Piece → Prop} {s₀ s : State} (h : s₀.Leads P s) (agent : AgentId) (pa : BitVec 52) {t : State} (e : execCohEvc agent pa s = .next t)
    (pCoh : P .coh) :
    s₀.Leads P t := by
  have _ : Fact (P .coh) := ⟨pCoh⟩
  unfold execCohEvc at e
  cases e
  with_reducible repeat' (first | assumption | apply ite_leads | apply State.cleanEvict_leads | split)

theorem execCxlDirtyEvict_leads {P : Piece → Prop} {s₀ s : State} (h : s₀.Leads P s) (n : SiteId) (pa : BitVec 52) (word : CodeWord) {t : State} (e : execCxlDirtyEvict n pa word s = .next t)
    (pHbm : P .hbm) (pMem : P .mem) (pNet : P .net) (pCoh : P .coh) (pRas : P .ras) (pTwin : P .twin) (pOut : P .out) :
    s₀.Leads P t := by
  have _ : Fact (P .hbm) := ⟨pHbm⟩
  have _ : Fact (P .mem) := ⟨pMem⟩
  have _ : Fact (P .net) := ⟨pNet⟩
  have _ : Fact (P .coh) := ⟨pCoh⟩
  have _ : Fact (P .ras) := ⟨pRas⟩
  have _ : Fact (P .twin) := ⟨pTwin⟩
  have _ : Fact (P .out) := ⟨pOut⟩
  unfold execCxlDirtyEvict at e
  cases e
  with_reducible repeat' (first | assumption | apply ite_leads | apply State.dirtyEvict_leads | apply State.cxlReject_leads | split)

theorem State.cxlTake_leads {P : Piece → Prop} [Fact (P .fields)] [Fact (P .hbm)] [Fact (P .mem)] [Fact (P .net)] [Fact (P .coh)] [Fact (P .ras)] [Fact (P .twin)] [Fact (P .out)] {s₀ s : State} (h : s₀.Leads P s) (n : SiteId) (pa : BitVec 52) (r : CxlRsp) (crossing : Bool) (w : CodeWord) :
    s₀.Leads P (State.cxlTake s n pa r crossing w) := by
  unfold State.cxlTake
  (try dsimp only)
  with_reducible repeat' (first | assumption | apply ite_leads | apply State.takeAnswer_leads | apply State.pump_leads | split)

theorem execCxlCacheRequest_leads {P : Piece → Prop} {s₀ s : State} (h : s₀.Leads P s) (n : SiteId) (req : CxlReq) (pa : BitVec 52) (word : CodeWord) (tag : BitVec 12) {t : State} (e : execCxlCacheRequest n req pa word tag s = .next t)
    (pFields : P .fields) (pHbm : P .hbm) (pMem : P .mem) (pNet : P .net) (pCoh : P .coh) (pRas : P .ras) (pTwin : P .twin) (pOut : P .out) :
    s₀.Leads P t := by
  have _ : Fact (P .fields) := ⟨pFields⟩
  have _ : Fact (P .hbm) := ⟨pHbm⟩
  have _ : Fact (P .mem) := ⟨pMem⟩
  have _ : Fact (P .net) := ⟨pNet⟩
  have _ : Fact (P .coh) := ⟨pCoh⟩
  have _ : Fact (P .ras) := ⟨pRas⟩
  have _ : Fact (P .twin) := ⟨pTwin⟩
  have _ : Fact (P .out) := ⟨pOut⟩
  unfold execCxlCacheRequest at e
  cases e
  (try dsimp only)
  with_reducible repeat' (first | assumption | apply ite_leads | apply State.cxlTake_leads | apply State.cleanEvict_leads | apply State.dirtyEvict_leads | apply State.cxlReject_leads | apply State.plainRequest_leads | apply State.agentRequest_leads | apply State.emit_leads | refine snd_leads (by assumption) ?_ | split)

theorem State.answerSnoop_leads {P : Piece → Prop} [Fact (P .coh)] {s₀ s : State} (h : s₀.Leads P s) (a : AgentId) (pa : BitVec 52) (k : SnoopKind) :
    s₀.Leads P (State.answerSnoop s a pa k) := by
  unfold State.answerSnoop
  (try dsimp only)
  with_reducible repeat' (first | assumption | apply ite_leads | apply State.hubAnswer_leads | apply State.modSlice_leads | split)

theorem execSnoopSnps_leads {P : Piece → Prop} {s₀ s : State} (h : s₀.Leads P s) (agent : AgentId) (pa : BitVec 52) {t : State} (e : execSnoopSnps agent pa s = .next t)
    (pCoh : P .coh) :
    s₀.Leads P t := by
  have _ : Fact (P .coh) := ⟨pCoh⟩
  unfold execSnoopSnps at e
  cases e
  with_reducible repeat' (first | assumption | apply ite_leads | apply State.answerSnoop_leads | split)

theorem execSnoopSnpi_leads {P : Piece → Prop} {s₀ s : State} (h : s₀.Leads P s) (agent : AgentId) (pa : BitVec 52) {t : State} (e : execSnoopSnpi agent pa s = .next t)
    (pCoh : P .coh) :
    s₀.Leads P t := by
  have _ : Fact (P .coh) := ⟨pCoh⟩
  unfold execSnoopSnpi at e
  cases e
  with_reducible repeat' (first | assumption | apply ite_leads | apply State.answerSnoop_leads | split)

theorem execSnoopSnpc_leads {P : Piece → Prop} {s₀ s : State} (h : s₀.Leads P s) (agent : AgentId) (pa : BitVec 52) {t : State} (e : execSnoopSnpc agent pa s = .next t)
    (pCoh : P .coh) :
    s₀.Leads P t := by
  have _ : Fact (P .coh) := ⟨pCoh⟩
  unfold execSnoopSnpc at e
  cases e
  with_reducible repeat' (first | assumption | apply ite_leads | apply State.answerSnoop_leads | split)

theorem execSnoopResponse_leads {P : Piece → Prop} {s₀ s : State} (h : s₀.Leads P s) (agent : AgentId) (pa : BitVec 52) {t : State} (e : execSnoopResponse agent pa s = .next t)
    (pFields : P .fields) (pHbm : P .hbm) (pMem : P .mem) (pNet : P .net) (pCoh : P .coh) (pRas : P .ras) (pTwin : P .twin) (pOut : P .out) :
    s₀.Leads P t := by
  have _ : Fact (P .fields) := ⟨pFields⟩
  have _ : Fact (P .hbm) := ⟨pHbm⟩
  have _ : Fact (P .mem) := ⟨pMem⟩
  have _ : Fact (P .net) := ⟨pNet⟩
  have _ : Fact (P .coh) := ⟨pCoh⟩
  have _ : Fact (P .ras) := ⟨pRas⟩
  have _ : Fact (P .twin) := ⟨pTwin⟩
  have _ : Fact (P .out) := ⟨pOut⟩
  unfold execSnoopResponse at e
  cases e
  with_reducible repeat' (first | assumption | apply ite_leads | apply State.takeAnswer_leads | apply State.pump_leads | refine snd_leads (by assumption) ?_ | split)

theorem execCohCmpReceive_leads {P : Piece → Prop} {s₀ s : State} (h : s₀.Leads P s) (agent : AgentId) (pa : BitVec 52) {t : State} (e : execCohCmpReceive agent pa s = .next t)
    (pCoh : P .coh) (pDraws : P .draws) :
    s₀.Leads P t := by
  have _ : Fact (P .coh) := ⟨pCoh⟩
  have _ : Fact (P .draws) := ⟨pDraws⟩
  unfold execCohCmpReceive at e
  cases e
  (try dsimp only)
  with_reducible repeat' (first | assumption | apply ite_leads | apply State.takeLine_leads | apply State.modSlice_leads | refine snd_leads (by assumption) ?_ | split)

theorem State.ackLine_leads {P : Piece → Prop} [Fact (P .fields)] [Fact (P .hbm)] [Fact (P .mem)] [Fact (P .net)] [Fact (P .coh)] [Fact (P .ras)] [Fact (P .twin)] [Fact (P .out)] {s₀ s : State} (h : s₀.Leads P s) (pa : BitVec 52) (native : Option AgentId) :
    s₀.Leads P (State.ackLine s pa native) := by
  unfold State.ackLine
  (try dsimp only)
  with_reducible repeat' (first | assumption | apply ite_leads | apply State.pump_leads | apply State.unblock_leads | refine snd_leads (by assumption) ?_ | split)

theorem State.holdAgent_leads {P : Piece → Prop} [Fact (P .out)] {s₀ s : State} (h : s₀.Leads P s) (line : Nat) (x : CohReq × CohFrom) :
    s₀.Leads P (State.holdAgent s line x) := by
  unfold State.holdAgent
  with_reducible repeat' (first | assumption | apply ite_leads | apply State.tellHold_leads | refine snd_leads (by assumption) ?_ | split)

theorem execCohHold_leads {P : Piece → Prop} {s₀ s : State} (h : s₀.Leads P s) (pa : BitVec 52) {t : State} (e : execCohHold pa s = .next t)
    (pOut : P .out) :
    s₀.Leads P t := by
  have _ : Fact (P .out) := ⟨pOut⟩
  unfold execCohHold at e
  cases e
  (try dsimp only)
  with_reducible repeat' (first | intro _ | assumption | apply ite_leads | apply State.holdAgent_leads | apply foldl_leads | apply foldl_leads_snd | split)

theorem execSnoopTimeout_leads {P : Piece → Prop} {s₀ s : State} (h : s₀.Leads P s) (agent : AgentId) (pa : BitVec 52) {t : State} (e : execSnoopTimeout agent pa s = .next t)
    (pFields : P .fields) (pHbm : P .hbm) (pMem : P .mem) (pNet : P .net) (pCoh : P .coh) (pRas : P .ras) (pTwin : P .twin) (pOut : P .out) :
    s₀.Leads P t := by
  have _ : Fact (P .fields) := ⟨pFields⟩
  have _ : Fact (P .hbm) := ⟨pHbm⟩
  have _ : Fact (P .mem) := ⟨pMem⟩
  have _ : Fact (P .net) := ⟨pNet⟩
  have _ : Fact (P .coh) := ⟨pCoh⟩
  have _ : Fact (P .ras) := ⟨pRas⟩
  have _ : Fact (P .twin) := ⟨pTwin⟩
  have _ : Fact (P .out) := ⟨pOut⟩
  unfold execSnoopTimeout at e
  cases e
  (try dsimp only)
  with_reducible repeat' (first | assumption | apply ite_leads | apply State.snoopLost_leads | apply State.pump_leads | refine snd_leads (by assumption) ?_ | split)

theorem execAckTimeout_leads {P : Piece → Prop} {s₀ s : State} (h : s₀.Leads P s) (pa : BitVec 52) {t : State} (e : execAckTimeout pa s = .next t)
    (pFields : P .fields) (pHbm : P .hbm) (pMem : P .mem) (pNet : P .net) (pCoh : P .coh) (pRas : P .ras) (pTwin : P .twin) (pOut : P .out) :
    s₀.Leads P t := by
  have _ : Fact (P .fields) := ⟨pFields⟩
  have _ : Fact (P .hbm) := ⟨pHbm⟩
  have _ : Fact (P .mem) := ⟨pMem⟩
  have _ : Fact (P .net) := ⟨pNet⟩
  have _ : Fact (P .coh) := ⟨pCoh⟩
  have _ : Fact (P .ras) := ⟨pRas⟩
  have _ : Fact (P .twin) := ⟨pTwin⟩
  have _ : Fact (P .out) := ⟨pOut⟩
  unfold execAckTimeout at e
  cases e
  (try dsimp only)
  with_reducible repeat' (first | assumption | apply ite_leads | apply State.pump_leads | apply State.unblock_leads | apply State.noteTimeout_leads | apply State.logFault_leads | apply State.modSlice_leads | refine snd_leads (by assumption) ?_ | split)

theorem execStaleEntryExpiry_leads {P : Piece → Prop} {s₀ s : State} (h : s₀.Leads P s) (f : FieldId) (index : Nat) {t : State} (e : execStaleEntryExpiry f index s = .next t)
    (pCoh : P .coh) (pRas : P .ras) (pOut : P .out) :
    s₀.Leads P t := by
  have _ : Fact (P .coh) := ⟨pCoh⟩
  have _ : Fact (P .ras) := ⟨pRas⟩
  have _ : Fact (P .out) := ⟨pOut⟩
  unfold execStaleEntryExpiry at e
  cases e
  with_reducible repeat' (first | assumption | apply ite_leads | apply State.logFault_leads | apply State.modSlice_leads | split)

theorem State.sweepDead_leads {P : Piece → Prop} [Fact (P .fields)] [Fact (P .hbm)] [Fact (P .mem)] [Fact (P .net)] [Fact (P .coh)] [Fact (P .ras)] [Fact (P .twin)] [Fact (P .out)] {s₀ s : State} (h : s₀.Leads P s) (a : AgentId) (f : FieldId) :
    s₀.Leads P (State.sweepDead s a f) := by
  unfold State.sweepDead
  with_reducible repeat' (first | intro _ | assumption | apply ite_leads | apply State.deadCopy_leads | apply foldl_leads | apply foldl_leads_snd | split)

theorem State.answerDead_leads {P : Piece → Prop} [Fact (P .fields)] [Fact (P .hbm)] [Fact (P .mem)] [Fact (P .net)] [Fact (P .coh)] [Fact (P .ras)] [Fact (P .twin)] [Fact (P .out)] {s₀ s : State} (h : s₀.Leads P s) (a : AgentId) (f : FieldId) :
    s₀.Leads P (State.answerDead s a f) := by
  unfold State.answerDead
  with_reducible repeat' (first | intro _ | assumption | apply ite_leads | apply State.settle_leads | apply State.deadCopy_leads | apply State.modSlice_leads | apply foldl_leads | apply foldl_leads_snd | split)

theorem State.freeDead_leads {P : Piece → Prop} [Fact (P .coh)] {s₀ s : State} (h : s₀.Leads P s) (a : AgentId) (f : FieldId) :
    s₀.Leads P (State.freeDead s a f) := by
  unfold State.freeDead
  with_reducible repeat' (first | assumption | apply ite_leads | apply State.modSlice_leads | split)

theorem State.killAgent_leads {P : Piece → Prop} [Fact (P .fields)] [Fact (P .hbm)] [Fact (P .mem)] [Fact (P .net)] [Fact (P .coh)] [Fact (P .ras)] [Fact (P .twin)] [Fact (P .out)] {s₀ s : State} (h : s₀.Leads P s) (a : AgentId) :
    s₀.Leads P (State.killAgent s a) := by
  unfold State.killAgent
  (try dsimp only)
  with_reducible repeat' (first | intro _ | assumption | apply ite_leads | apply State.freeDead_leads | apply State.answerDead_leads | apply State.sweepDead_leads | apply State.pump_leads | apply State.modCoh_leads | apply foldl_leads | apply foldl_leads_snd | split)

theorem execAgentDead_leads {P : Piece → Prop} {s₀ s : State} (h : s₀.Leads P s) (agent : AgentId) {t : State} (e : execAgentDead agent s = .next t)
    (pFields : P .fields) (pHbm : P .hbm) (pMem : P .mem) (pNet : P .net) (pCoh : P .coh) (pRas : P .ras) (pTwin : P .twin) (pOut : P .out) :
    s₀.Leads P t := by
  have _ : Fact (P .fields) := ⟨pFields⟩
  have _ : Fact (P .hbm) := ⟨pHbm⟩
  have _ : Fact (P .mem) := ⟨pMem⟩
  have _ : Fact (P .net) := ⟨pNet⟩
  have _ : Fact (P .coh) := ⟨pCoh⟩
  have _ : Fact (P .ras) := ⟨pRas⟩
  have _ : Fact (P .twin) := ⟨pTwin⟩
  have _ : Fact (P .out) := ⟨pOut⟩
  unfold execAgentDead at e
  cases e
  with_reducible repeat' (first | assumption | apply ite_leads | apply State.killAgent_leads | split)

theorem State.setFlush_leads {P : Piece → Prop} [Fact (P .ports)] [Fact (P .pnl)] {s₀ s : State} (h : s₀.Leads P s) (sel : SetSel) (x : FlushSet) :
    s₀.Leads P (State.setFlush s sel x) := by
  unfold State.setFlush
  with_reducible repeat' (first | assumption | apply ite_leads | apply State.modPanel_leads | apply State.modVf_leads | refine snd_leads (by assumption) ?_ | split)

theorem State.flushLines_leads {P : Piece → Prop} [Fact (P .fields)] [Fact (P .hbm)] [Fact (P .mem)] [Fact (P .net)] [Fact (P .coh)] [Fact (P .ras)] [Fact (P .twin)] [Fact (P .out)] {s₀ s : State} (h : s₀.Leads P s) (tint : TintId) (ls : List Nat) :
    s₀.Leads P (State.flushLines s tint ls) := by
  unfold State.flushLines
  with_reducible repeat' (first | intro _ | assumption | apply ite_leads | apply State.requestCoh_leads | apply foldl_leads | apply foldl_leads_snd | split)

theorem execCohFlushDone_leads {P : Piece → Prop} {s₀ s : State} (h : s₀.Leads P s) (set : SetSel) {t : State} (e : execCohFlushDone set s = .next t)
    (pPorts : P .ports) (pPnl : P .pnl) :
    s₀.Leads P t := by
  have _ : Fact (P .ports) := ⟨pPorts⟩
  have _ : Fact (P .pnl) := ⟨pPnl⟩
  unfold execCohFlushDone at e
  cases e
  (try dsimp only)
  with_reducible repeat' (first | assumption | apply ite_leads | apply State.setFlush_leads | apply State.raiseMsix_leads | apply State.irq_leads | refine snd_leads (by assumption) ?_ | split)

theorem execWback_leads {P : Piece → Prop} {s₀ s : State} (h : s₀.Leads P s) (agent : AgentId) (pa : BitVec 52) {t : State} (e : execWback agent pa s = .next t)
    (pCoh : P .coh) :
    s₀.Leads P t := by
  have _ : Fact (P .coh) := ⟨pCoh⟩
  unfold execWback at e
  cases e
  with_reducible repeat' (first | assumption | apply ite_leads | apply State.dropCached_leads | apply State.modCoh_leads | split)

end Sys2Proof.Machine
end

