-- ==== Sys2Proof/Laws/LeadsPatch.lean ====
section
/-!
SUPPORT. What the operations of Machine/Patch.lean keep (State.Leads).
-/

set_option linter.unusedTactic false
set_option linter.unreachableTactic false
set_option linter.unusedVariables false

set_option Elab.async false

namespace Sys2Proof.Machine

theorem State.addPatch_leads {P : Piece → Prop} [Fact (P .ras)] {s₀ s : State} (h : s₀.Leads P s) (kind : BitVec 4) (code : Byte) (failed spare : Word) :
    s₀.Leads P (State.addPatch s kind code failed spare) := by
  unfold State.addPatch
  with_reducible repeat' (first | assumption | apply ite_leads | apply State.modRas_leads | split)
  all_goals first | assumption | exact fun h => h

theorem State.checkGrade_leads {P : Piece → Prop} [Fact (P .ras)] {s₀ s : State} (h : s₀.Leads P s)  :
    s₀.Leads P (State.checkGrade s) := by
  unfold State.checkGrade
  with_reducible repeat' (first | assumption | apply ite_leads | apply State.modRas_leads | split)
  all_goals first | assumption | exact fun h => h

theorem State.enlist_leads {P : Piece → Prop} [Fact (P .arrays)] [Fact (P .net)] {s₀ s : State} (h : s₀.Leads P s) (b : ArrayId) :
    s₀.Leads P (State.enlist s b) := by
  unfold State.enlist
  with_reducible repeat' (first | assumption | apply ite_leads | apply State.setSink_leads | apply State.modArray_leads | split)

theorem State.leaveInv_leads {P : Piece → Prop} [Fact (P .ports)] {s₀ s : State} (h : s₀.Leads P s) (a : ArrayId) :
    s₀.Leads P (State.leaveInv s a) := by
  unfold State.leaveInv
  with_reducible repeat' (first | intro _ | assumption | apply ite_leads | apply State.modTaken_leads | refine snd_leads (by assumption) ?_ | split)

theorem State.replaceArray_leads {P : Piece → Prop} [Fact (P .arrays)] [Fact (P .net)] [Fact (P .ports)] [Fact (P .pnl)] {s₀ s : State} (h : s₀.Leads P s) (a b : ArrayId) (p : PanelId) (silent : Bool) :
    s₀.Leads P (State.replaceArray s a b p silent) := by
  unfold State.replaceArray
  (try dsimp only)
  with_reducible repeat' (first | assumption | apply ite_leads | apply State.leaveInv_leads | apply State.setSink_leads | apply State.modPanel_leads | apply State.modNet_leads | apply State.modArray_leads | split)

theorem State.loseArray_leads {P : Piece → Prop} [Fact (P .arrays)] [Fact (P .ports)] [Fact (P .pnl)] {s₀ s : State} (h : s₀.Leads P s) (a : ArrayId) (p : PanelId) :
    s₀.Leads P (State.loseArray s a p) := by
  unfold State.loseArray
  (try dsimp only)
  with_reducible repeat' (first | assumption | apply ite_leads | apply State.leaveInv_leads | apply State.modPanel_leads | apply State.modArray_leads | split)

theorem State.continueOn_leads {P : Piece → Prop} [Fact (P .arrays)] [Fact (P .ports)] [Fact (P .pnl)] {s₀ s : State} (h : s₀.Leads P s) (b : ArrayId) (p : PanelId) (code : Byte) :
    s₀.Leads P (State.continueOn s b p code) := by
  unfold State.continueOn
  (try dsimp only)
  with_reducible repeat' (first | assumption | apply ite_leads | apply State.endInvOf_leads | apply State.modSeq_leads | refine snd_leads (by assumption) ?_ | split)

theorem State.retireArray_leads {P : Piece → Prop} [Fact (P .arrays)] [Fact (P .net)] [Fact (P .ports)] [Fact (P .pnl)] [Fact (P .ras)] [Fact (P .out)] {s₀ s : State} (h : s₀.Leads P s) (a : ArrayId) (source : BitVec 3) (code : Byte) (info : BitVec 16) :
    s₀.Leads P (State.retireArray s a source code info) := by
  unfold State.retireArray
  (try dsimp only)
  with_reducible repeat' (first | assumption | apply ite_leads | apply State.continueOn_leads | apply State.loseArray_leads | apply State.replaceArray_leads | apply State.enlist_leads | apply State.checkGrade_leads | apply State.addPatch_leads | apply State.endInvOf_leads | apply State.stopAt_leads | apply State.logArray_leads | apply State.setSink_leads | apply State.modSeq_leads | apply State.modArray_leads | refine snd_leads (by assumption) ?_ | split)

theorem State.carryLost_leads {P : Piece → Prop} [Fact (P .arrays)] [Fact (P .ports)] [Fact (P .pnl)] {s₀ s : State} (h : s₀.Leads P s) (a : ArrayId) :
    s₀.Leads P (State.carryLost s a) := by
  unfold State.carryLost
  (try dsimp only)
  with_reducible repeat' (first | assumption | apply ite_leads | apply State.endInvOf_leads | apply State.modVec_leads | apply State.modSeq_leads | refine snd_leads (by assumption) ?_ | split)

theorem State.retireCore_leads {P : Piece → Prop} [Fact (P .arrays)] [Fact (P .net)] [Fact (P .ports)] [Fact (P .pnl)] [Fact (P .ras)] [Fact (P .out)] {s₀ s : State} (h : s₀.Leads P s) (a : ArrayId) (core : Fin 17) :
    s₀.Leads P (State.retireCore s a core) := by
  unfold State.retireCore
  (try dsimp only)
  with_reducible repeat' (first | assumption | apply ite_leads | apply State.retireArray_leads | apply State.addPatch_leads | apply State.endInvOf_leads | apply State.stopAt_leads | apply State.logArray_leads | apply State.seqFault_leads | apply State.modArray_leads | refine snd_leads (by assumption) ?_ | split)

end Sys2Proof.Machine
end

