-- ==== Sys2Proof/Laws/LeadsGrid.lean ====
section
/-!
SUPPORT. What the operations of Machine/Grid.lean keep (State.Leads).
-/

set_option linter.unusedTactic false
set_option linter.unreachableTactic false
set_option linter.unusedVariables false

set_option Elab.async false

namespace Sys2Proof.Machine

theorem State.checkParts_leads {P : Piece → Prop} [Fact (P .fields)] [Fact (P .hbm)] [Fact (P .mem)] [Fact (P .net)] [Fact (P .ras)] [Fact (P .draws)] [Fact (P .out)] {s₀ : State} : ∀ (x : List Part) (e : Eng) (i : Nat) {s : State}, s₀.Leads P s → s₀.Leads P (State.checkParts s e i x).2 := by
  intro x
  induction x with
  | nil =>
    intro e i s h
    unfold State.checkParts; (try dsimp only)
    with_reducible repeat' (first | assumption | apply ite_leads | apply State.checkVas_leads | apply ih | refine snd_leads (by assumption) ?_ | split)
  | cons y ys ih =>
    intro e i s h
    unfold State.checkParts; (try dsimp only)
    with_reducible repeat' (first | assumption | apply ite_leads | apply State.checkVas_leads | apply ih | refine snd_leads (by assumption) ?_ | split)

theorem State.readRow_leads {P : Piece → Prop} [Fact (P .fields)] [Fact (P .hbm)] [Fact (P .mem)] [Fact (P .net)] [Fact (P .coh)] [Fact (P .ras)] [Fact (P .twin)] [Fact (P .lines)] [Fact (P .draws)] [Fact (P .out)] {s₀ s : State} (h : s₀.Leads P s) (e : Eng) (bits n : Nat) (va : BitVec 55) :
    s₀.Leads P (State.readRow s e bits n va).2 := by
  unfold State.readRow
  with_reducible repeat' (first | assumption | apply ite_leads | apply State.readRun_leads | refine snd_leads (by assumption) ?_ | split)

theorem State.readRows_leads {P : Piece → Prop} [Fact (P .fields)] [Fact (P .hbm)] [Fact (P .mem)] [Fact (P .net)] [Fact (P .coh)] [Fact (P .ras)] [Fact (P .twin)] [Fact (P .lines)] [Fact (P .draws)] [Fact (P .out)] {s₀ : State} : ∀ (x : List (BitVec 55)) (e : Eng) (bits n : Nat) {s : State}, s₀.Leads P s → s₀.Leads P (State.readRows s e bits n x).2 := by
  intro x
  induction x with
  | nil =>
    intro e bits n s h
    unfold State.readRows; (try dsimp only)
    with_reducible repeat' (first | assumption | apply ite_leads | apply State.readRow_leads | apply ih | refine snd_leads (by assumption) ?_ | split)
  | cons y ys ih =>
    intro e bits n s h
    unfold State.readRows; (try dsimp only)
    with_reducible repeat' (first | assumption | apply ite_leads | apply State.readRow_leads | apply ih | refine snd_leads (by assumption) ?_ | split)

theorem State.readOperand_leads {P : Piece → Prop} [Fact (P .fields)] [Fact (P .hbm)] [Fact (P .mem)] [Fact (P .net)] [Fact (P .coh)] [Fact (P .ras)] [Fact (P .twin)] [Fact (P .lines)] [Fact (P .draws)] [Fact (P .out)] {s₀ s : State} (h : s₀.Leads P s) (e : Eng) (d : BitVec 256) (fmt r0 rows k : Nat) :
    s₀.Leads P (State.readOperand s e d fmt r0 rows k).2 := by
  unfold State.readOperand
  (try dsimp only)
  with_reducible repeat' (first | assumption | apply ite_leads | apply State.readRows_leads | refine snd_leads (by assumption) ?_ | split)

theorem State.readInit_leads {P : Piece → Prop} [Fact (P .fields)] [Fact (P .hbm)] [Fact (P .mem)] [Fact (P .net)] [Fact (P .coh)] [Fact (P .ras)] [Fact (P .twin)] [Fact (P .lines)] [Fact (P .draws)] [Fact (P .out)] {s₀ s : State} (h : s₀.Leads P s) (e : Eng) (o : CubeOp) (h : Shape) (r0 rows c0 cols : Nat) :
    s₀.Leads P (State.readInit s e o h r0 rows c0 cols).2 := by
  unfold State.readInit
  (try dsimp only)
  with_reducible repeat' (first | assumption | apply ite_leads | apply State.readRows_leads | refine snd_leads (by assumption) ?_ | split)

end Sys2Proof.Machine
end

