-- ==== Sys2Proof/Laws/LeadsCube.lean ====
section
/-!
SUPPORT. What the operations of Machine/Cube.lean keep (State.Leads).
-/

set_option linter.unusedTactic false
set_option linter.unreachableTactic false
set_option linter.unusedVariables false

set_option Elab.async false

namespace Sys2Proof.Machine

theorem State.issued_leads {P : Piece → Prop} [Fact (P .arrays)] {s₀ s : State} (h : s₀.Leads P s) (a : ArrayId) :
    s₀.Leads P (State.issued s a) := by
  unfold State.issued
  with_reducible repeat' (first | assumption | apply ite_leads | apply State.modSeq_leads | split)

theorem State.insRetired_leads {P : Piece → Prop} [Fact (P .arrays)] [Fact (P .pnl)] [Fact (P .out)] {s₀ s : State} (h : s₀.Leads P s) (a : ArrayId) (op : Nat) (pc : BitVec 55) :
    s₀.Leads P (State.insRetired s a op pc) := by
  unfold State.insRetired
  (try dsimp only)
  with_reducible repeat' (first | assumption | apply ite_leads | apply State.wdStop_leads | apply State.traceSchedule_leads | apply State.modSeq_leads | split)

theorem State.insDone_leads {P : Piece → Prop} [Fact (P .arrays)] [Fact (P .pnl)] [Fact (P .out)] {s₀ s : State} (h : s₀.Leads P s) (a : ArrayId) (op : Nat) :
    s₀.Leads P (State.insDone s a op) := by
  unfold State.insDone
  with_reducible repeat' (first | assumption | apply ite_leads | apply State.insRetired_leads | apply State.issued_leads | split)

theorem State.stallOp_leads {P : Piece → Prop} [Fact (P .arrays)] [Fact (P .pnl)] {s₀ s : State} (h : s₀.Leads P s) (a : ArrayId) (p : PanelId) (o : CubeOp) (i part : Nat) (f : VaFault) (midtile : Bool) :
    s₀.Leads P (State.stallOp s a p o i part f midtile) := by
  unfold State.stallOp
  with_reducible repeat' (first | assumption | apply ite_leads | apply State.stall_leads | apply State.modCube_leads | split)

theorem State.stallMid_leads {P : Piece → Prop} [Fact (P .arrays)] [Fact (P .pnl)] {s₀ s : State} (h : s₀.Leads P s) (a : ArrayId) (p : PanelId) (o : CubeOp) (i lo : Nat) (f : VaFault) :
    s₀.Leads P (State.stallMid s a p o i lo f) := by
  unfold State.stallMid
  (try dsimp only)
  with_reducible repeat' (first | assumption | apply ite_leads | apply State.stallOp_leads | refine snd_leads (by assumption) ?_ | split)

theorem State.passOperands_leads {P : Piece → Prop} [Fact (P .arrays)] [Fact (P .fields)] [Fact (P .hbm)] [Fact (P .mem)] [Fact (P .net)] [Fact (P .coh)] [Fact (P .ras)] [Fact (P .twin)] [Fact (P .lines)] [Fact (P .draws)] [Fact (P .out)] {s₀ s : State} (h : s₀.Leads P s) (a : ArrayId) (e : Eng) (o : CubeOp) (h : Shape) (at_ : PassAt) :
    s₀.Leads P (State.passOperands s a e o h at_).2 := by
  unfold State.passOperands
  (try dsimp only)
  with_reducible repeat' (first | assumption | apply ite_leads | apply State.readOperand_leads | apply State.modCube_leads | refine snd_leads (by assumption) ?_ | split)

theorem State.startPass_leads {P : Piece → Prop} [Fact (P .arrays)] [Fact (P .fields)] [Fact (P .hbm)] [Fact (P .mem)] [Fact (P .net)] [Fact (P .coh)] [Fact (P .pnl)] [Fact (P .ras)] [Fact (P .twin)] [Fact (P .lines)] [Fact (P .draws)] [Fact (P .out)] {s₀ s : State} (h : s₀.Leads P s) (a : ArrayId) :
    s₀.Leads P (State.startPass s a) := by
  unfold State.startPass
  (try dsimp only)
  with_reducible repeat' (first | intro _ | assumption | apply ite_leads | apply State.passOperands_leads | apply State.stallMid_leads | apply State.stallOp_leads | apply State.readInit_leads | apply State.checkParts_leads | apply State.modCube_leads | refine snd_leads (by assumption) ?_ | split)

theorem State.storeEcc_leads {P : Piece → Prop} [Fact (P .ras)] {s₀ s : State} (h : s₀.Leads P s) (n : Nat) :
    s₀.Leads P (State.storeEcc s n) := by
  unfold State.storeEcc
  with_reducible repeat' (first | assumption | apply ite_leads | apply State.modRas_leads | split)
  all_goals first | assumption | exact fun h => h

theorem State.fillSlot_leads {P : Piece → Prop} [Fact (P .arrays)] [Fact (P .fields)] [Fact (P .hbm)] [Fact (P .mem)] [Fact (P .net)] [Fact (P .coh)] [Fact (P .pnl)] [Fact (P .ras)] [Fact (P .twin)] [Fact (P .lines)] [Fact (P .draws)] [Fact (P .out)] {s₀ s : State} (h : s₀.Leads P s) (a : ArrayId) (p : PanelId) (o : CubeOp) :
    s₀.Leads P (State.fillSlot s a p o) := by
  unfold State.fillSlot
  (try dsimp only)
  with_reducible repeat' (first | assumption | apply ite_leads | apply State.stallMid_leads | apply State.readOperand_leads | apply State.modCube_leads | refine snd_leads (by assumption) ?_ | split)

theorem State.launchOp_leads {P : Piece → Prop} [Fact (P .arrays)] [Fact (P .fields)] [Fact (P .hbm)] [Fact (P .mem)] [Fact (P .net)] [Fact (P .coh)] [Fact (P .pnl)] [Fact (P .ras)] [Fact (P .twin)] [Fact (P .lines)] [Fact (P .draws)] [Fact (P .out)] {s₀ s : State} (h : s₀.Leads P s) (a : ArrayId) (p : PanelId) (o : CubeOp) :
    s₀.Leads P (State.launchOp s a p o) := by
  unfold State.launchOp
  (try dsimp only)
  with_reducible repeat' (first | assumption | apply ite_leads | apply State.fillSlot_leads | apply State.startPass_leads | apply State.stallOp_leads | apply State.checkParts_leads | refine snd_leads (by assumption) ?_ | split)

theorem State.queueOp_leads {P : Piece → Prop} [Fact (P .arrays)] {s₀ s : State} (h : s₀.Leads P s) (a : ArrayId) (o : CubeOp) :
    s₀.Leads P (State.queueOp s a o) := by
  unfold State.queueOp
  with_reducible repeat' (first | assumption | apply ite_leads | apply State.issued_leads | apply State.modCube_leads | split)

theorem State.issueCube_leads {P : Piece → Prop} [Fact (P .arrays)] [Fact (P .fields)] [Fact (P .hbm)] [Fact (P .mem)] [Fact (P .net)] [Fact (P .coh)] [Fact (P .ports)] [Fact (P .pnl)] [Fact (P .ras)] [Fact (P .twin)] [Fact (P .lines)] [Fact (P .draws)] [Fact (P .out)] {s₀ s : State} (h : s₀.Leads P s) (a : ArrayId) (op corrected : Nat) :
    s₀.Leads P (State.issueCube s a op corrected) := by
  unfold State.issueCube
  (try dsimp only)
  with_reducible repeat' (first | assumption | apply ite_leads | apply State.queueOp_leads | apply State.launchOp_leads | apply State.storeEcc_leads | apply State.issued_leads | apply State.endStep_leads | refine snd_leads (by assumption) ?_ | split)

theorem execCfold_leads {P : Piece → Prop} {s₀ s : State} (h : s₀.Leads P s) (a : ArrayId) (corrected : Nat) {t : State} (e : execCfold a corrected s = .next t)
    (pArrays : P .arrays) (pFields : P .fields) (pHbm : P .hbm) (pMem : P .mem) (pNet : P .net) (pCoh : P .coh) (pPorts : P .ports) (pPnl : P .pnl) (pRas : P .ras) (pTwin : P .twin) (pLines : P .lines) (pDraws : P .draws) (pOut : P .out) :
    s₀.Leads P t := by
  have _ : Fact (P .arrays) := ⟨pArrays⟩
  have _ : Fact (P .fields) := ⟨pFields⟩
  have _ : Fact (P .hbm) := ⟨pHbm⟩
  have _ : Fact (P .mem) := ⟨pMem⟩
  have _ : Fact (P .net) := ⟨pNet⟩
  have _ : Fact (P .coh) := ⟨pCoh⟩
  have _ : Fact (P .ports) := ⟨pPorts⟩
  have _ : Fact (P .pnl) := ⟨pPnl⟩
  have _ : Fact (P .ras) := ⟨pRas⟩
  have _ : Fact (P .twin) := ⟨pTwin⟩
  have _ : Fact (P .lines) := ⟨pLines⟩
  have _ : Fact (P .draws) := ⟨pDraws⟩
  have _ : Fact (P .out) := ⟨pOut⟩
  unfold execCfold at e
  cases e
  with_reducible repeat' (first | assumption | apply ite_leads | apply State.issueCube_leads | split)

theorem execCstream_leads {P : Piece → Prop} {s₀ s : State} (h : s₀.Leads P s) (a : ArrayId) (corrected : Nat) {t : State} (e : execCstream a corrected s = .next t)
    (pArrays : P .arrays) (pFields : P .fields) (pHbm : P .hbm) (pMem : P .mem) (pNet : P .net) (pCoh : P .coh) (pPorts : P .ports) (pPnl : P .pnl) (pRas : P .ras) (pTwin : P .twin) (pLines : P .lines) (pDraws : P .draws) (pOut : P .out) :
    s₀.Leads P t := by
  have _ : Fact (P .arrays) := ⟨pArrays⟩
  have _ : Fact (P .fields) := ⟨pFields⟩
  have _ : Fact (P .hbm) := ⟨pHbm⟩
  have _ : Fact (P .mem) := ⟨pMem⟩
  have _ : Fact (P .net) := ⟨pNet⟩
  have _ : Fact (P .coh) := ⟨pCoh⟩
  have _ : Fact (P .ports) := ⟨pPorts⟩
  have _ : Fact (P .pnl) := ⟨pPnl⟩
  have _ : Fact (P .ras) := ⟨pRas⟩
  have _ : Fact (P .twin) := ⟨pTwin⟩
  have _ : Fact (P .lines) := ⟨pLines⟩
  have _ : Fact (P .draws) := ⟨pDraws⟩
  have _ : Fact (P .out) := ⟨pOut⟩
  unfold execCstream at e
  cases e
  with_reducible repeat' (first | assumption | apply ite_leads | apply State.issueCube_leads | split)

theorem execCsload_leads {P : Piece → Prop} {s₀ s : State} (h : s₀.Leads P s) (a : ArrayId) (corrected : Nat) {t : State} (e : execCsload a corrected s = .next t)
    (pArrays : P .arrays) (pFields : P .fields) (pHbm : P .hbm) (pMem : P .mem) (pNet : P .net) (pCoh : P .coh) (pPorts : P .ports) (pPnl : P .pnl) (pRas : P .ras) (pTwin : P .twin) (pLines : P .lines) (pDraws : P .draws) (pOut : P .out) :
    s₀.Leads P t := by
  have _ : Fact (P .arrays) := ⟨pArrays⟩
  have _ : Fact (P .fields) := ⟨pFields⟩
  have _ : Fact (P .hbm) := ⟨pHbm⟩
  have _ : Fact (P .mem) := ⟨pMem⟩
  have _ : Fact (P .net) := ⟨pNet⟩
  have _ : Fact (P .coh) := ⟨pCoh⟩
  have _ : Fact (P .ports) := ⟨pPorts⟩
  have _ : Fact (P .pnl) := ⟨pPnl⟩
  have _ : Fact (P .ras) := ⟨pRas⟩
  have _ : Fact (P .twin) := ⟨pTwin⟩
  have _ : Fact (P .lines) := ⟨pLines⟩
  have _ : Fact (P .draws) := ⟨pDraws⟩
  have _ : Fact (P .out) := ⟨pOut⟩
  unfold execCsload at e
  cases e
  with_reducible repeat' (first | assumption | apply ite_leads | apply State.issueCube_leads | split)

theorem execStationarySlotValid_leads {P : Piece → Prop} {s₀ s : State} (h : s₀.Leads P s) (a : ArrayId) (slot : Fin 2) {t : State} (e : execStationarySlotValid a slot s = .next t)
    (pArrays : P .arrays) (pFields : P .fields) (pHbm : P .hbm) (pMem : P .mem) (pNet : P .net) (pCoh : P .coh) (pPnl : P .pnl) (pRas : P .ras) (pTwin : P .twin) (pLines : P .lines) (pDraws : P .draws) (pOut : P .out) :
    s₀.Leads P t := by
  have _ : Fact (P .arrays) := ⟨pArrays⟩
  have _ : Fact (P .fields) := ⟨pFields⟩
  have _ : Fact (P .hbm) := ⟨pHbm⟩
  have _ : Fact (P .mem) := ⟨pMem⟩
  have _ : Fact (P .net) := ⟨pNet⟩
  have _ : Fact (P .coh) := ⟨pCoh⟩
  have _ : Fact (P .pnl) := ⟨pPnl⟩
  have _ : Fact (P .ras) := ⟨pRas⟩
  have _ : Fact (P .twin) := ⟨pTwin⟩
  have _ : Fact (P .lines) := ⟨pLines⟩
  have _ : Fact (P .draws) := ⟨pDraws⟩
  have _ : Fact (P .out) := ⟨pOut⟩
  unfold execStationarySlotValid at e
  cases e
  with_reducible repeat' (first | intro _ | assumption | apply ite_leads | apply State.startPass_leads | apply State.modCube_leads | split)

theorem State.haltPending_leads {P : Piece → Prop} [Fact (P .arrays)] [Fact (P .pnl)] {s₀ s : State} (h : s₀.Leads P s) (a : ArrayId) :
    s₀.Leads P (State.haltPending s a) := by
  unfold State.haltPending
  with_reducible repeat' (first | assumption | apply ite_leads | apply State.haltEffect_leads | refine snd_leads (by assumption) ?_ | split)

theorem execPassBoundary_leads {P : Piece → Prop} {s₀ s : State} (h : s₀.Leads P s) (a : ArrayId) {t : State} (e : execPassBoundary a s = .next t)
    (pArrays : P .arrays) (pFields : P .fields) (pHbm : P .hbm) (pMem : P .mem) (pNet : P .net) (pCoh : P .coh) (pPnl : P .pnl) (pRas : P .ras) (pTwin : P .twin) (pLines : P .lines) (pDraws : P .draws) (pOut : P .out) :
    s₀.Leads P t := by
  have _ : Fact (P .arrays) := ⟨pArrays⟩
  have _ : Fact (P .fields) := ⟨pFields⟩
  have _ : Fact (P .hbm) := ⟨pHbm⟩
  have _ : Fact (P .mem) := ⟨pMem⟩
  have _ : Fact (P .net) := ⟨pNet⟩
  have _ : Fact (P .coh) := ⟨pCoh⟩
  have _ : Fact (P .pnl) := ⟨pPnl⟩
  have _ : Fact (P .ras) := ⟨pRas⟩
  have _ : Fact (P .twin) := ⟨pTwin⟩
  have _ : Fact (P .lines) := ⟨pLines⟩
  have _ : Fact (P .draws) := ⟨pDraws⟩
  have _ : Fact (P .out) := ⟨pOut⟩
  unfold execPassBoundary at e
  cases e
  (try dsimp only)
  with_reducible repeat' (first | intro _ | assumption | apply ite_leads | apply State.haltPending_leads | apply State.startPass_leads | apply State.progress_leads | apply State.modCube_leads | refine snd_leads (by assumption) ?_ | split)

theorem execHaltRequest_leads {P : Piece → Prop} {s₀ s : State} (h : s₀.Leads P s) (a : ArrayId) (source : HaltSource) {t : State} (e : execHaltRequest a source s = .next t)
    (pArrays : P .arrays) (pPnl : P .pnl) :
    s₀.Leads P t := by
  have _ : Fact (P .arrays) := ⟨pArrays⟩
  have _ : Fact (P .pnl) := ⟨pPnl⟩
  unfold execHaltRequest at e
  cases e
  with_reducible repeat' (first | assumption | apply ite_leads | apply State.haltArray_leads | refine snd_leads (by assumption) ?_ | split)

theorem State.sendRows_leads {P : Piece → Prop} [Fact (P .fields)] [Fact (P .hbm)] [Fact (P .mem)] [Fact (P .net)] [Fact (P .coh)] [Fact (P .pnl)] [Fact (P .ras)] [Fact (P .twin)] [Fact (P .draws)] [Fact (P .out)] {s₀ : State} : ∀ (x : List DrainRow) (e : Eng) {s : State}, s₀.Leads P s → s₀.Leads P (State.sendRows s e x).2 := by
  intro x
  induction x with
  | nil =>
    intro e s h
    unfold State.sendRows; (try dsimp only)
    with_reducible repeat' (first | assumption | apply ite_leads | apply State.sendRun_leads | apply ih | refine snd_leads (by assumption) ?_ | split)
  | cons y ys ih =>
    intro e s h
    unfold State.sendRows; (try dsimp only)
    with_reducible repeat' (first | assumption | apply ite_leads | apply State.sendRun_leads | apply ih | refine snd_leads (by assumption) ?_ | split)

theorem State.poisonDrain_leads {P : Piece → Prop} [Fact (P .arrays)] [Fact (P .ports)] [Fact (P .ras)] [Fact (P .out)] {s₀ s : State} (h : s₀.Leads P s) (a : ArrayId) (p : PanelId) (slot : Fin 4) (rows : List DrainRow) :
    s₀.Leads P (State.poisonDrain s a p slot rows) := by
  unfold State.poisonDrain
  (try dsimp only)
  with_reducible repeat' (first | assumption | apply ite_leads | apply State.countCommits_leads | apply State.logArray_leads | apply State.arrFault_leads | apply State.accessEvent_leads | split)

theorem State.drainToMemory_leads {P : Piece → Prop} [Fact (P .arrays)] [Fact (P .fields)] [Fact (P .hbm)] [Fact (P .mem)] [Fact (P .net)] [Fact (P .coh)] [Fact (P .ports)] [Fact (P .pnl)] [Fact (P .ras)] [Fact (P .twin)] [Fact (P .lines)] [Fact (P .draws)] [Fact (P .out)] {s₀ s : State} (h : s₀.Leads P s) (a : ArrayId) (p : PanelId) (o : CubeOp) (i : Fin 4) :
    s₀.Leads P (State.drainToMemory s a p o i) := by
  unfold State.drainToMemory
  (try dsimp only)
  with_reducible repeat' (first | intro _ | assumption | apply ite_leads | apply State.poisonDrain_leads | apply State.sendRows_leads | apply State.startPass_leads | apply State.stallMid_leads | apply State.writeDone_leads | apply State.modCube_leads | apply foldl_leads | apply foldl_leads_snd | refine snd_leads (by assumption) ?_ | split)
  all_goals exact h.untouched rfl rfl rfl rfl rfl rfl

theorem State.feed_leads {P : Piece → Prop} [Fact (P .arrays)] {s₀ s : State} (h : s₀.Leads P s) (a : ArrayId) :
    s₀.Leads P (State.feed s a) := by
  unfold State.feed
  with_reducible repeat' (first | assumption | apply ite_leads | apply State.modVec_leads | split)

theorem State.drainToExchange_leads {P : Piece → Prop} [Fact (P .arrays)] [Fact (P .fields)] [Fact (P .hbm)] [Fact (P .mem)] [Fact (P .net)] [Fact (P .coh)] [Fact (P .pnl)] [Fact (P .ras)] [Fact (P .twin)] [Fact (P .lines)] [Fact (P .draws)] [Fact (P .out)] {s₀ s : State} (h : s₀.Leads P s) (a : ArrayId) (i : Fin 4) :
    s₀.Leads P (State.drainToExchange s a i) := by
  unfold State.drainToExchange
  (try dsimp only)
  with_reducible repeat' (first | assumption | apply ite_leads | apply State.feed_leads | apply State.startPass_leads | apply State.modCube_leads | refine snd_leads (by assumption) ?_ | split)

theorem execDrain_leads {P : Piece → Prop} {s₀ s : State} (h : s₀.Leads P s) (a : ArrayId) {t : State} (e : execDrain a s = .next t)
    (pArrays : P .arrays) (pFields : P .fields) (pHbm : P .hbm) (pMem : P .mem) (pNet : P .net) (pCoh : P .coh) (pPorts : P .ports) (pPnl : P .pnl) (pRas : P .ras) (pTwin : P .twin) (pLines : P .lines) (pDraws : P .draws) (pOut : P .out) :
    s₀.Leads P t := by
  have _ : Fact (P .arrays) := ⟨pArrays⟩
  have _ : Fact (P .fields) := ⟨pFields⟩
  have _ : Fact (P .hbm) := ⟨pHbm⟩
  have _ : Fact (P .mem) := ⟨pMem⟩
  have _ : Fact (P .net) := ⟨pNet⟩
  have _ : Fact (P .coh) := ⟨pCoh⟩
  have _ : Fact (P .ports) := ⟨pPorts⟩
  have _ : Fact (P .pnl) := ⟨pPnl⟩
  have _ : Fact (P .ras) := ⟨pRas⟩
  have _ : Fact (P .twin) := ⟨pTwin⟩
  have _ : Fact (P .lines) := ⟨pLines⟩
  have _ : Fact (P .draws) := ⟨pDraws⟩
  have _ : Fact (P .out) := ⟨pOut⟩
  unfold execDrain at e
  cases e
  (try dsimp only)
  with_reducible repeat' (first | assumption | apply ite_leads | apply State.drainToExchange_leads | apply State.drainToMemory_leads | refine snd_leads (by assumption) ?_ | split)

theorem execCubeInstructionRetire_leads {P : Piece → Prop} {s₀ s : State} (h : s₀.Leads P s) (a : ArrayId) {t : State} (e : execCubeInstructionRetire a s = .next t)
    (pArrays : P .arrays) (pPnl : P .pnl) (pOut : P .out) :
    s₀.Leads P t := by
  have _ : Fact (P .arrays) := ⟨pArrays⟩
  have _ : Fact (P .pnl) := ⟨pPnl⟩
  have _ : Fact (P .out) := ⟨pOut⟩
  unfold execCubeInstructionRetire at e
  cases e
  (try dsimp only)
  with_reducible repeat' (first | assumption | apply ite_leads | apply State.insRetired_leads | apply State.progress_leads | apply State.modCube_leads | refine snd_leads (by assumption) ?_ | split)

theorem execArrayHardwareFault_leads {P : Piece → Prop} {s₀ s : State} (h : s₀.Leads P s) (a : ArrayId) (code : Byte) (info : BitVec 16) {t : State} (e : execArrayHardwareFault a code info s = .next t)
    (pArrays : P .arrays) (pNet : P .net) (pPorts : P .ports) (pPnl : P .pnl) (pRas : P .ras) (pOut : P .out) :
    s₀.Leads P t := by
  have _ : Fact (P .arrays) := ⟨pArrays⟩
  have _ : Fact (P .net) := ⟨pNet⟩
  have _ : Fact (P .ports) := ⟨pPorts⟩
  have _ : Fact (P .pnl) := ⟨pPnl⟩
  have _ : Fact (P .ras) := ⟨pRas⟩
  have _ : Fact (P .out) := ⟨pOut⟩
  unfold execArrayHardwareFault at e
  cases e
  with_reducible repeat' (first | assumption | apply ite_leads | apply State.retireArray_leads | apply State.arrFault_leads | apply State.seqFault_leads | split)

theorem execSignalForwardWindowEnd_leads {P : Piece → Prop} {s₀ s : State} (h : s₀.Leads P s) (a : ArrayId) {t : State} (e : execSignalForwardWindowEnd a s = .next t)
    (pNet : P .net) :
    s₀.Leads P t := by
  have _ : Fact (P .net) := ⟨pNet⟩
  unfold execSignalForwardWindowEnd at e
  cases e
  with_reducible repeat' (first | assumption | apply ite_leads | apply State.setSink_leads | apply State.modNet_leads | split)

theorem execArrFaultRead_leads {P : Piece → Prop} {s₀ s : State} (h : s₀.Leads P s) (a : ArrayId) {t : State} (e : execArrFaultRead a s = .next t)
    (pArrays : P .arrays) (pOut : P .out) :
    s₀.Leads P t := by
  have _ : Fact (P .arrays) := ⟨pArrays⟩
  have _ : Fact (P .out) := ⟨pOut⟩
  unfold execArrFaultRead at e
  cases e
  with_reducible repeat' (first | intro _ | assumption | apply ite_leads | apply State.byPf0_leads | apply State.emit_leads | apply State.modCube_leads | split)

theorem execSeqFaultRead_leads {P : Piece → Prop} {s₀ s : State} (h : s₀.Leads P s) (a : ArrayId) {t : State} (e : execSeqFaultRead a s = .next t)
    (pArrays : P .arrays) (pOut : P .out) :
    s₀.Leads P t := by
  have _ : Fact (P .arrays) := ⟨pArrays⟩
  have _ : Fact (P .out) := ⟨pOut⟩
  unfold execSeqFaultRead at e
  cases e
  with_reducible repeat' (first | intro _ | assumption | apply ite_leads | apply State.byPf0_leads | apply State.emit_leads | apply State.modSeq_leads | split)

end Sys2Proof.Machine
end

