-- ==== Sys2Proof/Laws/LeadsSequencer.lean ====
section
/-!
SUPPORT. What the operations of Machine/Sequencer.lean keep (State.Leads).
-/

set_option linter.unusedTactic false
set_option linter.unreachableTactic false
set_option linter.unusedVariables false

set_option Elab.async false

namespace Sys2Proof.Machine

theorem State.readControl_leads {P : Piece → Prop} [Fact (P .fields)] [Fact (P .hbm)] [Fact (P .mem)] [Fact (P .net)] [Fact (P .coh)] [Fact (P .ras)] [Fact (P .twin)] [Fact (P .lines)] [Fact (P .draws)] [Fact (P .out)] {s₀ s : State} (h : s₀.Leads P s) (a : ArrayId) (p : PanelId) (acc : Access) (va : BitVec 55) :
    s₀.Leads P (State.readControl s a p acc va).2 := by
  unfold State.readControl
  (try dsimp only)
  with_reducible repeat' (first | assumption | apply ite_leads | apply State.readTarget_leads | apply State.readPa_leads | apply State.translate_leads | apply State.takeLine_leads | refine snd_leads (by assumption) ?_ | split)

theorem State.readControls_leads {P : Piece → Prop} [Fact (P .fields)] [Fact (P .hbm)] [Fact (P .mem)] [Fact (P .net)] [Fact (P .coh)] [Fact (P .ras)] [Fact (P .twin)] [Fact (P .lines)] [Fact (P .draws)] [Fact (P .out)] {s₀ : State} : ∀ (x : List (BitVec 55)) (a : ArrayId) (p : PanelId) (acc : Access) {s : State}, s₀.Leads P s → s₀.Leads P (State.readControls s a p acc x).2 := by
  intro x
  induction x with
  | nil =>
    intro a p acc s h
    unfold State.readControls; (try dsimp only)
    with_reducible repeat' (first | assumption | apply ite_leads | apply State.readControl_leads | apply ih | refine snd_leads (by assumption) ?_ | split)
  | cons y ys ih =>
    intro a p acc s h
    unfold State.readControls; (try dsimp only)
    with_reducible repeat' (first | assumption | apply ite_leads | apply State.readControl_leads | apply ih | refine snd_leads (by assumption) ?_ | split)

theorem State.readTile_leads {P : Piece → Prop} [Fact (P .fields)] [Fact (P .hbm)] [Fact (P .mem)] [Fact (P .net)] [Fact (P .coh)] [Fact (P .ras)] [Fact (P .twin)] [Fact (P .lines)] [Fact (P .draws)] [Fact (P .out)] {s₀ s : State} (h : s₀.Leads P s) (a : ArrayId) (p : PanelId) (acc : Access) (va : BitVec 55) (n : Nat) :
    s₀.Leads P (State.readTile s a p acc va n).2 := by
  unfold State.readTile
  with_reducible repeat' (first | assumption | apply ite_leads | apply State.readControls_leads | apply State.checkVas_leads | refine snd_leads (by assumption) ?_ | split)

theorem State.stallSeq_leads {P : Piece → Prop} [Fact (P .arrays)] [Fact (P .pnl)] {s₀ s : State} (h : s₀.Leads P s) (a : ArrayId) (p : PanelId) (f : VaFault) :
    s₀.Leads P (State.stallSeq s a p f) := by
  unfold State.stallSeq
  with_reducible repeat' (first | assumption | apply ite_leads | apply State.stall_leads | apply State.modSeq_leads | split)

theorem execScheduleFetch_leads {P : Piece → Prop} {s₀ s : State} (h : s₀.Leads P s) (a : ArrayId) {t : State} (e : execScheduleFetch a s = .next t)
    (pArrays : P .arrays) (pFields : P .fields) (pHbm : P .hbm) (pMem : P .mem) (pNet : P .net) (pCoh : P .coh) (pPorts : P .ports) (pPnl : P .pnl) (pRas : P .ras) (pTwin : P .twin) (pLines : P .lines) (pDraws : P .draws) (pOut : P .out) :
    s₀.Leads P t := by
  have _ : Fact (P .arrays) := ⟨pArrays⟩
  have _ : Fact (P .fields) := ⟨pFields⟩
  have _ : Fact (P .hbm) := ⟨pHbm⟩
  have _ : Fact (P .mem) := ⟨pMem⟩
  have _ : Fact (P .net) := ⟨pNet⟩
  have _ : Fact (P .coh) := ⟨pCoh⟩
  have _ : Fact (P .ports) := ⟨pPorts⟩
  have _ : Fact (P .pnl) := ⟨pPnl⟩
  have _ : Fact (P .ras) := ⟨pRas⟩
  have _ : Fact (P .twin) := ⟨pTwin⟩
  have _ : Fact (P .lines) := ⟨pLines⟩
  have _ : Fact (P .draws) := ⟨pDraws⟩
  have _ : Fact (P .out) := ⟨pOut⟩
  unfold execScheduleFetch at e
  cases e
  (try dsimp only)
  with_reducible repeat' (first | assumption | apply ite_leads | apply State.stallSeq_leads | apply State.readTile_leads | apply State.consumed_leads | apply State.endStep_leads | apply State.modSeq_leads | refine snd_leads (by assumption) ?_ | split)

theorem State.evalWaits_leads {P : Piece → Prop} [Fact (P .arrays)] [Fact (P .pnl)] [Fact (P .out)] {s₀ s : State} (h : s₀.Leads P s) (a : ArrayId) :
    s₀.Leads P (State.evalWaits s a) := by
  unfold State.evalWaits
  (try dsimp only)
  with_reducible repeat' (first | assumption | apply ite_leads | apply State.insRetired_leads | apply State.wdLoad_leads | apply State.modSeq_leads | split)

theorem execStep_leads {P : Piece → Prop} {s₀ s : State} (h : s₀.Leads P s) (a : ArrayId) {t : State} (e : execStep a s = .next t)
    (pArrays : P .arrays) (pPorts : P .ports) (pPnl : P .pnl) (pRas : P .ras) (pOut : P .out) :
    s₀.Leads P t := by
  have _ : Fact (P .arrays) := ⟨pArrays⟩
  have _ : Fact (P .ports) := ⟨pPorts⟩
  have _ : Fact (P .pnl) := ⟨pPnl⟩
  have _ : Fact (P .ras) := ⟨pRas⟩
  have _ : Fact (P .out) := ⟨pOut⟩
  unfold execStep at e
  cases e
  with_reducible repeat' (first | assumption | apply ite_leads | apply State.evalWaits_leads | apply State.issued_leads | apply State.endStep_leads | apply State.wdStop_leads | apply State.modSeq_leads | refine snd_leads (by assumption) ?_ | split)

theorem State.sendSignal_leads {P : Piece → Prop} [Fact (P .arrays)] [Fact (P .net)] [Fact (P .ports)] [Fact (P .pnl)] {s₀ s : State} (h : s₀.Leads P s) (a : ArrayId) (e : Word) {u : State}
    (k : s.sendSignal a e = some u) : s₀.Leads P u := by
  unfold State.sendSignal at k
  split at k
  · obtain ⟨r, m, j⟩ := Option.map_eq_some_iff.mp k
    exact j ▸ State.inject_leads h _ _ _ _ _ _ _ _ m
  · rw [Option.some.injEq] at k; exact k ▸ State.endInvOf_leads h a 3 0

theorem State.sendSignals_leads {P : Piece → Prop} [Fact (P .arrays)] [Fact (P .net)] [Fact (P .ports)] [Fact (P .pnl)] {s₀ : State} : ∀ (x : List Word) (a : ArrayId) {s : State}, s₀.Leads P s →
    ∀ {u : State}, State.sendSignals s a x = some u → s₀.Leads P u := by
  intro x
  induction x with
  | nil => intro a s h u e; unfold State.sendSignals at e; rw [Option.some.injEq] at e; exact e ▸ h
  | cons y ys ih =>
    intro a s h u e
    unfold State.sendSignals at e
    obtain ⟨t, m, j⟩ := Option.bind_eq_some_iff.mp e
    exact ih a (State.sendSignal_leads h a y m) j

theorem execStepend_leads {P : Piece → Prop} {s₀ s : State} (h : s₀.Leads P s) (a : ArrayId) {t : State} (e : execStepend a s = .next t)
    (pArrays : P .arrays) (pPorts : P .ports) (pPnl : P .pnl) (pRas : P .ras) (pOut : P .out) :
    s₀.Leads P t := by
  have _ : Fact (P .arrays) := ⟨pArrays⟩
  have _ : Fact (P .ports) := ⟨pPorts⟩
  have _ : Fact (P .pnl) := ⟨pPnl⟩
  have _ : Fact (P .ras) := ⟨pRas⟩
  have _ : Fact (P .out) := ⟨pOut⟩
  unfold execStepend at e
  cases e
  (try dsimp only)
  with_reducible repeat' (first | assumption | apply ite_leads | apply State.issued_leads | apply State.endStep_leads | apply State.modSeq_leads | refine snd_leads (by assumption) ?_ | split)

theorem execStepCommit_leads {P : Piece → Prop} {s₀ s : State} (h : s₀.Leads P s) (a : ArrayId) {t : State} (e : execStepCommit a s = .next t)
    (pArrays : P .arrays) (pNet : P .net) (pPorts : P .ports) (pPnl : P .pnl) (pOut : P .out) :
    s₀.Leads P t := by
  have _ : Fact (P .arrays) := ⟨pArrays⟩
  have _ : Fact (P .net) := ⟨pNet⟩
  have _ : Fact (P .ports) := ⟨pPorts⟩
  have _ : Fact (P .pnl) := ⟨pPnl⟩
  have _ : Fact (P .out) := ⟨pOut⟩
  unfold execStepCommit at e
  cases e
  (try dsimp only)
  with_reducible repeat' (first | assumption | apply ite_leads | refine State.sendSignals_leads _ _ ?_ (by assumption) | apply State.insRetired_leads | apply State.modSeq_leads | refine snd_leads (by assumption) ?_ | split)

theorem execSignal_leads {P : Piece → Prop} {s₀ s : State} (h : s₀.Leads P s) (a : ArrayId) {t : State} (e : execSignal a s = .next t)
    (pArrays : P .arrays) (pNet : P .net) (pPorts : P .ports) (pPnl : P .pnl) (pRas : P .ras) (pOut : P .out) :
    s₀.Leads P t := by
  have _ : Fact (P .arrays) := ⟨pArrays⟩
  have _ : Fact (P .net) := ⟨pNet⟩
  have _ : Fact (P .ports) := ⟨pPorts⟩
  have _ : Fact (P .pnl) := ⟨pPnl⟩
  have _ : Fact (P .ras) := ⟨pRas⟩
  have _ : Fact (P .out) := ⟨pOut⟩
  unfold execSignal at e
  cases e
  (try dsimp only)
  with_reducible repeat' (first | assumption | apply ite_leads | refine State.sendSignals_leads _ _ ?_ (by assumption) | apply State.insDone_leads | apply State.issued_leads | apply State.endStep_leads | apply State.modSeq_leads | refine snd_leads (by assumption) ?_ | split)

theorem execWaitc_leads {P : Piece → Prop} {s₀ s : State} (h : s₀.Leads P s) (a : ArrayId) {t : State} (e : execWaitc a s = .next t)
    (pArrays : P .arrays) (pPnl : P .pnl) (pOut : P .out) :
    s₀.Leads P t := by
  have _ : Fact (P .arrays) := ⟨pArrays⟩
  have _ : Fact (P .pnl) := ⟨pPnl⟩
  have _ : Fact (P .out) := ⟨pOut⟩
  unfold execWaitc at e
  cases e
  (try dsimp only)
  with_reducible repeat' (first | assumption | apply ite_leads | apply State.insDone_leads | refine snd_leads (by assumption) ?_ | split)

theorem execLoop_leads {P : Piece → Prop} {s₀ s : State} (h : s₀.Leads P s) (a : ArrayId) {t : State} (e : execLoop a s = .next t)
    (pArrays : P .arrays) (pPorts : P .ports) (pPnl : P .pnl) (pRas : P .ras) (pOut : P .out) :
    s₀.Leads P t := by
  have _ : Fact (P .arrays) := ⟨pArrays⟩
  have _ : Fact (P .ports) := ⟨pPorts⟩
  have _ : Fact (P .pnl) := ⟨pPnl⟩
  have _ : Fact (P .ras) := ⟨pRas⟩
  have _ : Fact (P .out) := ⟨pOut⟩
  unfold execLoop at e
  cases e
  (try dsimp only)
  with_reducible repeat' (first | assumption | apply ite_leads | apply State.insDone_leads | apply State.issued_leads | apply State.endStep_leads | apply State.modSeq_leads | refine snd_leads (by assumption) ?_ | split)

theorem execEndloop_leads {P : Piece → Prop} {s₀ s : State} (h : s₀.Leads P s) (a : ArrayId) {t : State} (e : execEndloop a s = .next t)
    (pArrays : P .arrays) (pPorts : P .ports) (pPnl : P .pnl) (pRas : P .ras) (pOut : P .out) :
    s₀.Leads P t := by
  have _ : Fact (P .arrays) := ⟨pArrays⟩
  have _ : Fact (P .ports) := ⟨pPorts⟩
  have _ : Fact (P .pnl) := ⟨pPnl⟩
  have _ : Fact (P .ras) := ⟨pRas⟩
  have _ : Fact (P .out) := ⟨pOut⟩
  unfold execEndloop at e
  cases e
  (try dsimp only)
  with_reducible repeat' (first | assumption | apply ite_leads | apply State.insDone_leads | apply State.issued_leads | apply State.endStep_leads | apply State.modSeq_leads | refine snd_leads (by assumption) ?_ | split)

theorem execNop_leads {P : Piece → Prop} {s₀ s : State} (h : s₀.Leads P s) (a : ArrayId) {t : State} (e : execNop a s = .next t)
    (pArrays : P .arrays) (pPnl : P .pnl) (pOut : P .out) :
    s₀.Leads P t := by
  have _ : Fact (P .arrays) := ⟨pArrays⟩
  have _ : Fact (P .pnl) := ⟨pPnl⟩
  have _ : Fact (P .out) := ⟨pOut⟩
  unfold execNop at e
  cases e
  with_reducible repeat' (first | assumption | apply ite_leads | apply State.insDone_leads | split)

theorem execDload_leads {P : Piece → Prop} {s₀ s : State} (h : s₀.Leads P s) (a : ArrayId) {t : State} (e : execDload a s = .next t)
    (pArrays : P .arrays) (pFields : P .fields) (pHbm : P .hbm) (pMem : P .mem) (pNet : P .net) (pCoh : P .coh) (pPorts : P .ports) (pPnl : P .pnl) (pRas : P .ras) (pTwin : P .twin) (pLines : P .lines) (pDraws : P .draws) (pOut : P .out) :
    s₀.Leads P t := by
  have _ : Fact (P .arrays) := ⟨pArrays⟩
  have _ : Fact (P .fields) := ⟨pFields⟩
  have _ : Fact (P .hbm) := ⟨pHbm⟩
  have _ : Fact (P .mem) := ⟨pMem⟩
  have _ : Fact (P .net) := ⟨pNet⟩
  have _ : Fact (P .coh) := ⟨pCoh⟩
  have _ : Fact (P .ports) := ⟨pPorts⟩
  have _ : Fact (P .pnl) := ⟨pPnl⟩
  have _ : Fact (P .ras) := ⟨pRas⟩
  have _ : Fact (P .twin) := ⟨pTwin⟩
  have _ : Fact (P .lines) := ⟨pLines⟩
  have _ : Fact (P .draws) := ⟨pDraws⟩
  have _ : Fact (P .out) := ⟨pOut⟩
  unfold execDload at e
  cases e
  (try dsimp only)
  with_reducible repeat' (first | intro _ | assumption | apply ite_leads | apply State.stallSeq_leads | apply State.readTile_leads | apply State.insDone_leads | apply State.issued_leads | apply State.consumed_leads | apply State.progress_leads | apply State.modCube_leads | apply foldl_leads | apply foldl_leads_snd | refine snd_leads (by assumption) ?_ | split)

theorem execKload_leads {P : Piece → Prop} {s₀ s : State} (h : s₀.Leads P s) (a : ArrayId) {t : State} (e : execKload a s = .next t)
    (pArrays : P .arrays) (pFields : P .fields) (pHbm : P .hbm) (pMem : P .mem) (pNet : P .net) (pCoh : P .coh) (pPnl : P .pnl) (pRas : P .ras) (pTwin : P .twin) (pLines : P .lines) (pDraws : P .draws) (pOut : P .out) :
    s₀.Leads P t := by
  have _ : Fact (P .arrays) := ⟨pArrays⟩
  have _ : Fact (P .fields) := ⟨pFields⟩
  have _ : Fact (P .hbm) := ⟨pHbm⟩
  have _ : Fact (P .mem) := ⟨pMem⟩
  have _ : Fact (P .net) := ⟨pNet⟩
  have _ : Fact (P .coh) := ⟨pCoh⟩
  have _ : Fact (P .pnl) := ⟨pPnl⟩
  have _ : Fact (P .ras) := ⟨pRas⟩
  have _ : Fact (P .twin) := ⟨pTwin⟩
  have _ : Fact (P .lines) := ⟨pLines⟩
  have _ : Fact (P .draws) := ⟨pDraws⟩
  have _ : Fact (P .out) := ⟨pOut⟩
  unfold execKload at e
  cases e
  (try dsimp only)
  with_reducible repeat' (first | intro _ | assumption | apply ite_leads | apply State.stallSeq_leads | apply State.readTile_leads | apply State.insDone_leads | apply State.progress_leads | apply State.modVec_leads | apply foldl_leads | apply foldl_leads_snd | refine snd_leads (by assumption) ?_ | split)

theorem execVlaunch_leads {P : Piece → Prop} {s₀ s : State} (h : s₀.Leads P s) (a : ArrayId) {t : State} (e : execVlaunch a s = .next t)
    (pArrays : P .arrays) :
    s₀.Leads P t := by
  have _ : Fact (P .arrays) := ⟨pArrays⟩
  unfold execVlaunch at e
  cases e
  (try dsimp only)
  with_reducible repeat' (first | assumption | apply ite_leads | apply State.issued_leads | apply State.modVec_leads | refine snd_leads (by assumption) ?_ | split)

theorem State.runTile_leads {P : Piece → Prop} [Fact (P .arrays)] [Fact (P .fields)] [Fact (P .hbm)] [Fact (P .mem)] [Fact (P .net)] [Fact (P .coh)] [Fact (P .pnl)] [Fact (P .ras)] [Fact (P .twin)] [Fact (P .lines)] [Fact (P .draws)] [Fact (P .out)] {s₀ s : State} (h : s₀.Leads P s) (a : ArrayId) (p : PanelId) (serial : Nat) (zero : Bool) (t : MoveTile) :
    s₀.Leads P (State.runTile s a p serial zero t).2 := by
  unfold State.runTile
  (try dsimp only)
  with_reducible repeat' (first | assumption | apply ite_leads | apply State.sendRun_leads | apply State.readRun_leads | apply State.checkVas_leads | apply State.modSeq_leads | refine snd_leads (by assumption) ?_ | split)

theorem State.modMove_leads {P : Piece → Prop} [Fact (P .arrays)] {s₀ s : State} (h : s₀.Leads P s) (a : ArrayId) (c : Fin 8) (f : MoveOp → MoveOp) :
    s₀.Leads P (State.modMove s a c f) := by
  unfold State.modMove
  with_reducible repeat' (first | assumption | apply ite_leads | apply State.modArray_leads | split)

theorem State.runMove_leads {P : Piece → Prop} [Fact (P .arrays)] [Fact (P .fields)] [Fact (P .hbm)] [Fact (P .mem)] [Fact (P .net)] [Fact (P .coh)] [Fact (P .ports)] [Fact (P .pnl)] [Fact (P .ras)] [Fact (P .twin)] [Fact (P .lines)] [Fact (P .draws)] [Fact (P .out)] {s₀ : State} : ∀ (fuel : Nat) {s : State}, s₀.Leads P s → ∀ (a : ArrayId) (p : PanelId) (c : Fin 8), s₀.Leads P (State.runMove fuel s a p c) := by
  intro fuel
  induction fuel with
  | zero => intro s h a p c; unfold State.runMove; exact h
  | succ n ih =>
    intro s h a p c
    unfold State.runMove
    (try dsimp only)
    with_reducible repeat' (first | intro _ | assumption | apply ite_leads | apply ih | apply State.modMove_leads | apply State.runTile_leads | apply State.stall_leads | apply State.writeDone_leads | refine snd_leads (by assumption) ?_ | split)

theorem execMove_leads {P : Piece → Prop} {s₀ s : State} (h : s₀.Leads P s) (a : ArrayId) {t : State} (e : execMove a s = .next t)
    (pArrays : P .arrays) (pFields : P .fields) (pHbm : P .hbm) (pMem : P .mem) (pNet : P .net) (pCoh : P .coh) (pPorts : P .ports) (pPnl : P .pnl) (pRas : P .ras) (pTwin : P .twin) (pLines : P .lines) (pDraws : P .draws) (pOut : P .out) :
    s₀.Leads P t := by
  have _ : Fact (P .arrays) := ⟨pArrays⟩
  have _ : Fact (P .fields) := ⟨pFields⟩
  have _ : Fact (P .hbm) := ⟨pHbm⟩
  have _ : Fact (P .mem) := ⟨pMem⟩
  have _ : Fact (P .net) := ⟨pNet⟩
  have _ : Fact (P .coh) := ⟨pCoh⟩
  have _ : Fact (P .ports) := ⟨pPorts⟩
  have _ : Fact (P .pnl) := ⟨pPnl⟩
  have _ : Fact (P .ras) := ⟨pRas⟩
  have _ : Fact (P .twin) := ⟨pTwin⟩
  have _ : Fact (P .lines) := ⟨pLines⟩
  have _ : Fact (P .draws) := ⟨pDraws⟩
  have _ : Fact (P .out) := ⟨pOut⟩
  unfold execMove at e
  cases e
  (try dsimp only)
  with_reducible repeat' (first | assumption | apply ite_leads | apply State.runMove_leads | apply State.stallSeq_leads | apply State.readTile_leads | apply State.issued_leads | apply State.consumed_leads | apply State.endStep_leads | apply State.modArray_leads | refine snd_leads (by assumption) ?_ | split)

theorem execMoveRetire_leads {P : Piece → Prop} {s₀ s : State} (h : s₀.Leads P s) (a : ArrayId) (channel : Fin 8) {t : State} (e : execMoveRetire a channel s = .next t)
    (pArrays : P .arrays) (pFields : P .fields) (pHbm : P .hbm) (pMem : P .mem) (pNet : P .net) (pCoh : P .coh) (pPorts : P .ports) (pPnl : P .pnl) (pRas : P .ras) (pTwin : P .twin) (pLines : P .lines) (pDraws : P .draws) (pOut : P .out) :
    s₀.Leads P t := by
  have _ : Fact (P .arrays) := ⟨pArrays⟩
  have _ : Fact (P .fields) := ⟨pFields⟩
  have _ : Fact (P .hbm) := ⟨pHbm⟩
  have _ : Fact (P .mem) := ⟨pMem⟩
  have _ : Fact (P .net) := ⟨pNet⟩
  have _ : Fact (P .coh) := ⟨pCoh⟩
  have _ : Fact (P .ports) := ⟨pPorts⟩
  have _ : Fact (P .pnl) := ⟨pPnl⟩
  have _ : Fact (P .ras) := ⟨pRas⟩
  have _ : Fact (P .twin) := ⟨pTwin⟩
  have _ : Fact (P .lines) := ⟨pLines⟩
  have _ : Fact (P .draws) := ⟨pDraws⟩
  have _ : Fact (P .out) := ⟨pOut⟩
  unfold execMoveRetire at e
  cases e
  (try dsimp only)
  with_reducible repeat' (first | assumption | apply ite_leads | apply State.runMove_leads | apply State.insRetired_leads | apply State.progress_leads | apply State.modArray_leads | refine snd_leads (by assumption) ?_ | split)

theorem execEndSchedule_leads {P : Piece → Prop} {s₀ s : State} (h : s₀.Leads P s) (a : ArrayId) {t : State} (e : execEndSchedule a s = .next t)
    (pArrays : P .arrays) (pPorts : P .ports) (pPnl : P .pnl) (pOut : P .out) :
    s₀.Leads P t := by
  have _ : Fact (P .arrays) := ⟨pArrays⟩
  have _ : Fact (P .ports) := ⟨pPorts⟩
  have _ : Fact (P .pnl) := ⟨pPnl⟩
  have _ : Fact (P .out) := ⟨pOut⟩
  unfold execEndSchedule at e
  cases e
  (try dsimp only)
  with_reducible repeat' (first | intro _ | assumption | apply ite_leads | apply State.issued_leads | apply State.wdStop_leads | apply State.modTaken_leads | apply State.traceSchedule_leads | apply State.modSeq_leads | refine snd_leads (by assumption) ?_ | split)

theorem State.addSem_leads {P : Piece → Prop} [Fact (P .arrays)] [Fact (P .ports)] [Fact (P .pnl)] [Fact (P .ras)] [Fact (P .out)] {s₀ s : State} (h : s₀.Leads P s) (a : ArrayId) (sem : Fin 64) (inc : Byte) :
    s₀.Leads P (State.addSem s a sem inc) := by
  unfold State.addSem
  (try dsimp only)
  with_reducible repeat' (first | assumption | apply ite_leads | apply State.evalWaits_leads | apply State.endStep_leads | apply State.modSeq_leads | split)

theorem execSemaphoreSignal_leads {P : Piece → Prop} {s₀ s : State} (h : s₀.Leads P s) (id : TxId) {t : State} (e : execSemaphoreSignal id s = .next t)
    (pArrays : P .arrays) (pNet : P .net) (pPorts : P .ports) (pPnl : P .pnl) (pRas : P .ras) (pOut : P .out) :
    s₀.Leads P t := by
  have _ : Fact (P .arrays) := ⟨pArrays⟩
  have _ : Fact (P .net) := ⟨pNet⟩
  have _ : Fact (P .ports) := ⟨pPorts⟩
  have _ : Fact (P .pnl) := ⟨pPnl⟩
  have _ : Fact (P .ras) := ⟨pRas⟩
  have _ : Fact (P .out) := ⟨pOut⟩
  unfold execSemaphoreSignal at e
  cases e
  (try dsimp only)
  with_reducible repeat' (first | assumption | apply ite_leads | apply State.addSem_leads | apply State.remember_leads | apply State.answerTxn_leads | refine snd_leads (by assumption) ?_ | split)

theorem execWatchdogExpiry_leads {P : Piece → Prop} {s₀ s : State} (h : s₀.Leads P s) (a : ArrayId) {t : State} (e : execWatchdogExpiry a s = .next t)
    (pArrays : P .arrays) (pPorts : P .ports) (pPnl : P .pnl) (pRas : P .ras) (pOut : P .out) :
    s₀.Leads P t := by
  have _ : Fact (P .arrays) := ⟨pArrays⟩
  have _ : Fact (P .ports) := ⟨pPorts⟩
  have _ : Fact (P .pnl) := ⟨pPnl⟩
  have _ : Fact (P .ras) := ⟨pRas⟩
  have _ : Fact (P .out) := ⟨pOut⟩
  unfold execWatchdogExpiry at e
  cases e
  (try dsimp only)
  with_reducible repeat' (first | assumption | apply ite_leads | apply State.attemptEnds_leads | apply State.modSeq_leads | split)

theorem execLivenessReport_leads {P : Piece → Prop} {s₀ s : State} (h : s₀.Leads P s) (a : ArrayId) {t : State} (e : execLivenessReport a s = .next t)
    (pArrays : P .arrays) :
    s₀.Leads P t := by
  have _ : Fact (P .arrays) := ⟨pArrays⟩
  unfold execLivenessReport at e
  cases e
  with_reducible repeat' (first | assumption | apply ite_leads | apply State.modSeq_leads | split)

theorem execArraySilent_leads {P : Piece → Prop} {s₀ s : State} (h : s₀.Leads P s) (a : ArrayId) {t : State} (e : execArraySilent a s = .next t)
    (pArrays : P .arrays) (pNet : P .net) (pPorts : P .ports) (pPnl : P .pnl) (pRas : P .ras) (pOut : P .out) :
    s₀.Leads P t := by
  have _ : Fact (P .arrays) := ⟨pArrays⟩
  have _ : Fact (P .net) := ⟨pNet⟩
  have _ : Fact (P .ports) := ⟨pPorts⟩
  have _ : Fact (P .pnl) := ⟨pPnl⟩
  have _ : Fact (P .ras) := ⟨pRas⟩
  have _ : Fact (P .out) := ⟨pOut⟩
  unfold execArraySilent at e
  cases e
  with_reducible repeat' (first | assumption | apply ite_leads | apply State.retireArray_leads | apply State.seqFault_leads | split)

theorem execStateCarryReadTimeout_leads {P : Piece → Prop} {s₀ s : State} (h : s₀.Leads P s) (a : ArrayId) {t : State} (e : execStateCarryReadTimeout a s = .next t)
    (pArrays : P .arrays) (pPorts : P .ports) (pPnl : P .pnl) :
    s₀.Leads P t := by
  have _ : Fact (P .arrays) := ⟨pArrays⟩
  have _ : Fact (P .ports) := ⟨pPorts⟩
  have _ : Fact (P .pnl) := ⟨pPnl⟩
  unfold execStateCarryReadTimeout at e
  cases e
  with_reducible repeat' (first | assumption | apply ite_leads | apply State.carryLost_leads | split)

theorem execStepRerun_leads {P : Piece → Prop} {s₀ s : State} (h : s₀.Leads P s) (a : ArrayId) {t : State} (e : execStepRerun a s = .next t)
    (pArrays : P .arrays) :
    s₀.Leads P t := by
  have _ : Fact (P .arrays) := ⟨pArrays⟩
  unfold execStepRerun at e
  cases e
  with_reducible repeat' (first | assumption | apply ite_leads | apply State.wdLoad_leads | apply State.modSeq_leads | split)

theorem execCoreHardwareFault_leads {P : Piece → Prop} {s₀ s : State} (h : s₀.Leads P s) (a : ArrayId) (core : Fin 17) {t : State} (e : execCoreHardwareFault a core s = .next t)
    (pArrays : P .arrays) (pNet : P .net) (pPorts : P .ports) (pPnl : P .pnl) (pRas : P .ras) (pOut : P .out) :
    s₀.Leads P t := by
  have _ : Fact (P .arrays) := ⟨pArrays⟩
  have _ : Fact (P .net) := ⟨pNet⟩
  have _ : Fact (P .ports) := ⟨pPorts⟩
  have _ : Fact (P .pnl) := ⟨pPnl⟩
  have _ : Fact (P .ras) := ⟨pRas⟩
  have _ : Fact (P .out) := ⟨pOut⟩
  unfold execCoreHardwareFault at e
  cases e
  with_reducible repeat' (first | assumption | apply ite_leads | apply State.retireCore_leads | split)

theorem execMoverHardwareFault_leads {P : Piece → Prop} {s₀ s : State} (h : s₀.Leads P s) (a : ArrayId) (channel : Fin 8) {t : State} (e : execMoverHardwareFault a channel s = .next t)
    (pArrays : P .arrays) (pNet : P .net) (pPorts : P .ports) (pPnl : P .pnl) (pRas : P .ras) (pOut : P .out) :
    s₀.Leads P t := by
  have _ : Fact (P .arrays) := ⟨pArrays⟩
  have _ : Fact (P .net) := ⟨pNet⟩
  have _ : Fact (P .ports) := ⟨pPorts⟩
  have _ : Fact (P .pnl) := ⟨pPnl⟩
  have _ : Fact (P .ras) := ⟨pRas⟩
  have _ : Fact (P .out) := ⟨pOut⟩
  unfold execMoverHardwareFault at e
  cases e
  (try dsimp only)
  with_reducible repeat' (first | assumption | apply ite_leads | apply State.retireArray_leads | apply State.seqFault_leads | split)

theorem State.debugHalt_leads {P : Piece → Prop} [Fact (P .arrays)] [Fact (P .pnl)] {s₀ s : State} (h : s₀.Leads P s) (a : ArrayId) :
    s₀.Leads P (State.debugHalt s a) := by
  unfold State.debugHalt
  (try dsimp only)
  with_reducible repeat' (first | assumption | apply ite_leads | apply State.haltArray_leads | split)

theorem execSeqHalt_leads {P : Piece → Prop} {s₀ s : State} (h : s₀.Leads P s) (a : ArrayId) {t : State} (e : execSeqHalt a s = .next t)
    (pArrays : P .arrays) (pPnl : P .pnl) :
    s₀.Leads P t := by
  have _ : Fact (P .arrays) := ⟨pArrays⟩
  have _ : Fact (P .pnl) := ⟨pPnl⟩
  unfold execSeqHalt at e
  cases e
  with_reducible repeat' (first | intro _ | assumption | apply ite_leads | apply State.debugHalt_leads | apply State.byPf0_leads | split)

theorem State.leaveHalt_leads {P : Piece → Prop} [Fact (P .arrays)] [Fact (P .pnl)] [Fact (P .out)] {s₀ s : State} (h : s₀.Leads P s) (a : ArrayId) :
    s₀.Leads P (State.leaveHalt s a) := by
  unfold State.leaveHalt
  (try dsimp only)
  with_reducible repeat' (first | assumption | apply ite_leads | apply State.evalWaits_leads | apply State.modSeq_leads | split)

theorem State.seqResume_leads {P : Piece → Prop} [Fact (P .arrays)] [Fact (P .pnl)] [Fact (P .out)] {s₀ s : State} (h : s₀.Leads P s) (a : ArrayId) :
    s₀.Leads P (State.seqResume s a) := by
  unfold State.seqResume
  (try dsimp only)
  with_reducible repeat' (first | assumption | apply ite_leads | apply State.leaveHalt_leads | apply State.wdResume_leads | apply State.modSeq_leads | split)

theorem execSeqResume_leads {P : Piece → Prop} {s₀ s : State} (h : s₀.Leads P s) (a : ArrayId) {t : State} (e : execSeqResume a s = .next t)
    (pArrays : P .arrays) (pPnl : P .pnl) (pOut : P .out) :
    s₀.Leads P t := by
  have _ : Fact (P .arrays) := ⟨pArrays⟩
  have _ : Fact (P .pnl) := ⟨pPnl⟩
  have _ : Fact (P .out) := ⟨pOut⟩
  unfold execSeqResume at e
  cases e
  with_reducible repeat' (first | intro _ | assumption | apply ite_leads | apply State.seqResume_leads | apply State.byPf0_leads | split)

theorem State.seqStepOne_leads {P : Piece → Prop} [Fact (P .arrays)] [Fact (P .pnl)] [Fact (P .out)] {s₀ s : State} (h : s₀.Leads P s) (a : ArrayId) :
    s₀.Leads P (State.seqStepOne s a) := by
  unfold State.seqStepOne
  (try dsimp only)
  with_reducible repeat' (first | assumption | apply ite_leads | apply State.leaveHalt_leads | apply State.modSeq_leads | split)

theorem execSeqStepOne_leads {P : Piece → Prop} {s₀ s : State} (h : s₀.Leads P s) (a : ArrayId) {t : State} (e : execSeqStepOne a s = .next t)
    (pArrays : P .arrays) (pPnl : P .pnl) (pOut : P .out) :
    s₀.Leads P t := by
  have _ : Fact (P .arrays) := ⟨pArrays⟩
  have _ : Fact (P .pnl) := ⟨pPnl⟩
  have _ : Fact (P .out) := ⟨pOut⟩
  unfold execSeqStepOne at e
  cases e
  with_reducible repeat' (first | intro _ | assumption | apply ite_leads | apply State.seqStepOne_leads | apply State.byPf0_leads | split)

end Sys2Proof.Machine
end

