-- ==== Sys2Proof/Laws/LeadsVector.lean ====
section
/-!
SUPPORT. What the operations of Machine/Vector.lean keep (State.Leads).
-/

set_option linter.unusedTactic false
set_option linter.unreachableTactic false
set_option linter.unusedVariables false

set_option Elab.async false

namespace Sys2Proof.Machine

theorem State.modCtx_leads {P : Piece → Prop} [Fact (P .arrays)] {s₀ s : State} (h : s₀.Leads P s) (a : ArrayId) (core : Fin 16) (idx : Fin 64) (f : Ctx → Ctx) :
    s₀.Leads P (State.modCtx s a core idx f) := by
  unfold State.modCtx
  with_reducible repeat' (first | assumption | apply ite_leads | apply State.modVec_leads | split)

theorem State.vecIssued_leads {P : Piece → Prop} [Fact (P .arrays)] {s₀ s : State} (h : s₀.Leads P s) (a : ArrayId) (c : Ctx) (f : Ctx → Ctx) :
    s₀.Leads P (State.vecIssued s a c f) := by
  unfold State.vecIssued
  with_reducible repeat' (first | assumption | apply ite_leads | apply State.modCtx_leads | apply State.modVec_leads | split)

theorem State.vecFault_leads {P : Piece → Prop} [Fact (P .arrays)] [Fact (P .ports)] [Fact (P .pnl)] [Fact (P .ras)] [Fact (P .out)] {s₀ s : State} (h : s₀.Leads P s) (a : ArrayId) (core : Fin 16) (code : Byte) :
    s₀.Leads P (State.vecFault s a core code) := by
  unfold State.vecFault
  with_reducible repeat' (first | assumption | apply ite_leads | apply State.endStep_leads | split)

theorem State.vecPoison_leads {P : Piece → Prop} [Fact (P .arrays)] [Fact (P .ports)] [Fact (P .pnl)] [Fact (P .ras)] [Fact (P .out)] {s₀ s : State} (h : s₀.Leads P s) (a : ArrayId) (core : Fin 16) :
    s₀.Leads P (State.vecPoison s a core) := by
  unfold State.vecPoison
  with_reducible repeat' (first | assumption | apply ite_leads | apply State.consumed_leads | split)

theorem State.vecStep_leads {P : Piece → Prop} [Fact (P .arrays)] [Fact (P .ports)] [Fact (P .pnl)] [Fact (P .ras)] [Fact (P .out)] {s₀ s : State} (h : s₀.Leads P s) (a : ArrayId) (core : Fin 16) (run : PanelId → Ctx → VIns → DWord → State) (krun : ∀ x0 x1 x2 x3, s₀.Leads P (run x0 x1 x2 x3)) :
    s₀.Leads P (State.vecStep s a core run) := by
  unfold State.vecStep
  (try dsimp only)
  with_reducible repeat' (first | intro _ | assumption | apply ite_leads | apply State.vecFault_leads | apply State.consumed_leads | apply krun | refine snd_leads (by assumption) ?_ | split)

theorem State.localLoad_leads {P : Piece → Prop} [Fact (P .arrays)] [Fact (P .ports)] [Fact (P .pnl)] [Fact (P .ras)] [Fact (P .out)] {s₀ s : State} (h : s₀.Leads P s) (a : ArrayId) (core : Fin 16) (c : Ctx) (i : VIns) :
    s₀.Leads P (State.localLoad s a core c i) := by
  unfold State.localLoad
  (try dsimp only)
  with_reducible repeat' (first | assumption | apply ite_leads | apply State.vecPoison_leads | apply State.vecIssued_leads | split)

theorem State.localStore_leads {P : Piece → Prop} [Fact (P .arrays)] [Fact (P .ports)] [Fact (P .pnl)] [Fact (P .ras)] [Fact (P .out)] {s₀ s : State} (h : s₀.Leads P s) (a : ArrayId) (core : Fin 16) (c : Ctx) (i : VIns) :
    s₀.Leads P (State.localStore s a core c i) := by
  unfold State.localStore
  with_reducible repeat' (first | intro _ | assumption | apply ite_leads | apply State.vecPoison_leads | apply State.vecIssued_leads | apply State.modVec_leads | apply foldl_leads | apply foldl_leads_snd | split)

theorem State.vecBranch_leads {P : Piece → Prop} [Fact (P .arrays)] [Fact (P .ports)] [Fact (P .pnl)] [Fact (P .ras)] [Fact (P .out)] {s₀ s : State} (h : s₀.Leads P s) (a : ArrayId) (core : Fin 16) (c : Ctx) (i : VIns) :
    s₀.Leads P (State.vecBranch s a core c i) := by
  unfold State.vecBranch
  (try dsimp only)
  with_reducible repeat' (first | assumption | apply ite_leads | apply State.vecPoison_leads | apply State.vecIssued_leads | split)

theorem execVectorIssue_leads {P : Piece → Prop} {s₀ s : State} (h : s₀.Leads P s) (a : ArrayId) (core : Fin 16) (op : VecOp) {t : State} (e : execVectorIssue a core op s = .next t)
    (pArrays : P .arrays) (pPorts : P .ports) (pPnl : P .pnl) (pRas : P .ras) (pOut : P .out) :
    s₀.Leads P t := by
  have _ : Fact (P .arrays) := ⟨pArrays⟩
  have _ : Fact (P .ports) := ⟨pPorts⟩
  have _ : Fact (P .pnl) := ⟨pPnl⟩
  have _ : Fact (P .ras) := ⟨pRas⟩
  have _ : Fact (P .out) := ⟨pOut⟩
  unfold execVectorIssue at e
  cases e
  with_reducible repeat' (first | intro _ | assumption | apply ite_leads | apply State.vecBranch_leads | apply State.localStore_leads | apply State.localLoad_leads | apply State.vecStep_leads | apply State.vecPoison_leads | apply State.vecFault_leads | apply State.vecIssued_leads | apply State.modVec_leads | refine snd_leads (by assumption) ?_ | split)

theorem State.stallCtx_leads {P : Piece → Prop} [Fact (P .arrays)] [Fact (P .pnl)] {s₀ s : State} (h : s₀.Leads P s) (a : ArrayId) (p : PanelId) (c : Ctx) (f : VaFault) (midtile : Bool) :
    s₀.Leads P (State.stallCtx s a p c f midtile) := by
  unfold State.stallCtx
  with_reducible repeat' (first | assumption | apply ite_leads | apply State.modCtx_leads | apply State.stall_leads | split)

theorem State.readWords_leads {P : Piece → Prop} [Fact (P .fields)] [Fact (P .hbm)] [Fact (P .mem)] [Fact (P .net)] [Fact (P .coh)] [Fact (P .ras)] [Fact (P .twin)] [Fact (P .lines)] [Fact (P .draws)] [Fact (P .out)] {s₀ : State} : ∀ (x : List (BitVec 55)) (e : Eng) {s : State}, s₀.Leads P s → s₀.Leads P (State.readWords s e x).2 := by
  intro x
  induction x with
  | nil =>
    intro e s h
    unfold State.readWords; (try dsimp only)
    with_reducible repeat' (first | assumption | apply ite_leads | apply State.readVa_leads | apply ih | refine snd_leads (by assumption) ?_ | split)
  | cons y ys ih =>
    intro e s h
    unfold State.readWords; (try dsimp only)
    with_reducible repeat' (first | assumption | apply ite_leads | apply State.readVa_leads | apply ih | refine snd_leads (by assumption) ?_ | split)

theorem execVectorLoad_leads {P : Piece → Prop} {s₀ s : State} (h : s₀.Leads P s) (a : ArrayId) (core : Fin 16) (gather : Bool) {t : State} (e : execVectorLoad a core gather s = .next t)
    (pArrays : P .arrays) (pFields : P .fields) (pHbm : P .hbm) (pMem : P .mem) (pNet : P .net) (pCoh : P .coh) (pPorts : P .ports) (pPnl : P .pnl) (pRas : P .ras) (pTwin : P .twin) (pLines : P .lines) (pDraws : P .draws) (pOut : P .out) :
    s₀.Leads P t := by
  have _ : Fact (P .arrays) := ⟨pArrays⟩
  have _ : Fact (P .fields) := ⟨pFields⟩
  have _ : Fact (P .hbm) := ⟨pHbm⟩
  have _ : Fact (P .mem) := ⟨pMem⟩
  have _ : Fact (P .net) := ⟨pNet⟩
  have _ : Fact (P .coh) := ⟨pCoh⟩
  have _ : Fact (P .ports) := ⟨pPorts⟩
  have _ : Fact (P .pnl) := ⟨pPnl⟩
  have _ : Fact (P .ras) := ⟨pRas⟩
  have _ : Fact (P .twin) := ⟨pTwin⟩
  have _ : Fact (P .lines) := ⟨pLines⟩
  have _ : Fact (P .draws) := ⟨pDraws⟩
  have _ : Fact (P .out) := ⟨pOut⟩
  unfold execVectorLoad at e
  cases e
  (try dsimp only)
  with_reducible repeat' (first | intro _ | assumption | apply ite_leads | apply State.readWords_leads | apply State.stallCtx_leads | apply State.vecStep_leads | apply State.vecPoison_leads | apply State.vecFault_leads | apply State.vecIssued_leads | apply State.checkVas_leads | refine snd_leads (by assumption) ?_ | split)

theorem State.sendWords_leads {P : Piece → Prop} [Fact (P .fields)] [Fact (P .hbm)] [Fact (P .mem)] [Fact (P .net)] [Fact (P .coh)] [Fact (P .pnl)] [Fact (P .ras)] [Fact (P .twin)] [Fact (P .draws)] [Fact (P .out)] {s₀ : State} : ∀ (x : List (BitVec 55 × CodeWord)) (e : Eng) {s : State}, s₀.Leads P s → s₀.Leads P (State.sendWords s e x).2 := by
  intro x
  induction x with
  | nil =>
    intro e s h
    unfold State.sendWords; (try dsimp only)
    with_reducible repeat' (first | assumption | apply ite_leads | apply State.sendRun_leads | apply ih | refine snd_leads (by assumption) ?_ | split)
  | cons y ys ih =>
    intro e s h
    unfold State.sendWords; (try dsimp only)
    with_reducible repeat' (first | assumption | apply ite_leads | apply State.sendRun_leads | apply ih | refine snd_leads (by assumption) ?_ | split)

theorem State.poisonStore_leads {P : Piece → Prop} [Fact (P .ports)] [Fact (P .ras)] {s₀ s : State} (h : s₀.Leads P s) (a : ArrayId) (p : PanelId) (ws : List (BitVec 55 × CodeWord)) :
    s₀.Leads P (State.poisonStore s a p ws) := by
  unfold State.poisonStore
  (try dsimp only)
  with_reducible repeat' (first | assumption | apply ite_leads | apply State.countCommits_leads | apply State.accessEvent_leads | refine snd_leads (by assumption) ?_ | split)

theorem State.siteWrites_leads {P : Piece → Prop} [Fact (P .arrays)] {s₀ s : State} (h : s₀.Leads P s) (a : ArrayId) (p : PanelId) (vas : List (BitVec 55)) :
    s₀.Leads P (State.siteWrites s a p vas) := by
  unfold State.siteWrites
  with_reducible repeat' (first | assumption | apply ite_leads | apply State.modSeq_leads | split)

theorem execVectorStore_leads {P : Piece → Prop} {s₀ s : State} (h : s₀.Leads P s) (a : ArrayId) (core : Fin 16) {t : State} (e : execVectorStore a core s = .next t)
    (pArrays : P .arrays) (pFields : P .fields) (pHbm : P .hbm) (pMem : P .mem) (pNet : P .net) (pCoh : P .coh) (pPorts : P .ports) (pPnl : P .pnl) (pRas : P .ras) (pTwin : P .twin) (pDraws : P .draws) (pOut : P .out) :
    s₀.Leads P t := by
  have _ : Fact (P .arrays) := ⟨pArrays⟩
  have _ : Fact (P .fields) := ⟨pFields⟩
  have _ : Fact (P .hbm) := ⟨pHbm⟩
  have _ : Fact (P .mem) := ⟨pMem⟩
  have _ : Fact (P .net) := ⟨pNet⟩
  have _ : Fact (P .coh) := ⟨pCoh⟩
  have _ : Fact (P .ports) := ⟨pPorts⟩
  have _ : Fact (P .pnl) := ⟨pPnl⟩
  have _ : Fact (P .ras) := ⟨pRas⟩
  have _ : Fact (P .twin) := ⟨pTwin⟩
  have _ : Fact (P .draws) := ⟨pDraws⟩
  have _ : Fact (P .out) := ⟨pOut⟩
  unfold execVectorStore at e
  cases e
  (try dsimp only)
  with_reducible repeat' (first | intro _ | assumption | apply ite_leads | apply State.siteWrites_leads | apply State.poisonStore_leads | apply State.sendWords_leads | apply State.stallCtx_leads | apply State.vecStep_leads | apply State.vecPoison_leads | apply State.vecFault_leads | apply State.vecIssued_leads | apply State.writeDone_leads | apply State.checkVas_leads | refine snd_leads (by assumption) ?_ | split)

theorem State.sendLane_leads {P : Piece → Prop} [Fact (P .arrays)] [Fact (P .fields)] [Fact (P .hbm)] [Fact (P .mem)] [Fact (P .net)] [Fact (P .pnl)] [Fact (P .ras)] [Fact (P .draws)] [Fact (P .out)] {s₀ s : State} (h : s₀.Leads P s) (a : ArrayId) (p : PanelId) (c : Ctx) (i : VIns) (e : Eng) (l : Nat)
    {b₀} {u : State} (k : s.sendLane a p c i e l = some (b₀, u)) : s₀.Leads P u := by
  unfold State.sendLane at k
  dsimp only at k
  split at k
  · obtain ⟨r, m, j⟩ := Option.map_eq_some_iff.mp k
    rw [Prod.mk.injEq] at j
    exact j.2 ▸ State.modCtx_leads (State.inject_leads h _ _ _ _ _ _ _ _ m) _ _ _ _
  · rw [Option.some.injEq, Prod.mk.injEq] at k
    exact k.2 ▸ State.modCtx_leads (ite_leads h (State.hostRefused_leads h p)) _ _ _ _
  · rw [Option.some.injEq, Prod.mk.injEq] at k; exact k.2 ▸ h

theorem State.sendLanes_leads {P : Piece → Prop} [Fact (P .arrays)] [Fact (P .fields)] [Fact (P .hbm)] [Fact (P .mem)] [Fact (P .net)] [Fact (P .pnl)] [Fact (P .ras)] [Fact (P .draws)] [Fact (P .out)] {s₀ : State} : ∀ (x : List Nat) (a : ArrayId) (p : PanelId) (c : Ctx) (i : VIns) (e : Eng)
    {s : State}, s₀.Leads P s → ∀ {b₀} {u : State}, State.sendLanes s a p c i e x = some (b₀, u) → s₀.Leads P u := by
  intro x
  induction x with
  | nil =>
    intro a p c i e s h b₀ u k
    unfold State.sendLanes at k; rw [Option.some.injEq, Prod.mk.injEq] at k; exact k.2 ▸ h
  | cons y ys ih =>
    intro a p c i e s h b₀ u k
    unfold State.sendLanes at k
    obtain ⟨r, m, j⟩ := Option.bind_eq_some_iff.mp k
    obtain ⟨v, w, z⟩ := Option.map_eq_some_iff.mp j
    rw [Prod.mk.injEq] at z
    exact z.2 ▸ ih a p c i e (State.sendLane_leads h a p c i e y m) w

theorem execVatom_leads {P : Piece → Prop} {s₀ s : State} (h : s₀.Leads P s) (a : ArrayId) (core : Fin 16) {t : State} (e : execVatom a core s = .next t)
    (pArrays : P .arrays) (pFields : P .fields) (pHbm : P .hbm) (pMem : P .mem) (pNet : P .net) (pPorts : P .ports) (pPnl : P .pnl) (pRas : P .ras) (pDraws : P .draws) (pOut : P .out) :
    s₀.Leads P t := by
  have _ : Fact (P .arrays) := ⟨pArrays⟩
  have _ : Fact (P .fields) := ⟨pFields⟩
  have _ : Fact (P .hbm) := ⟨pHbm⟩
  have _ : Fact (P .mem) := ⟨pMem⟩
  have _ : Fact (P .net) := ⟨pNet⟩
  have _ : Fact (P .ports) := ⟨pPorts⟩
  have _ : Fact (P .pnl) := ⟨pPnl⟩
  have _ : Fact (P .ras) := ⟨pRas⟩
  have _ : Fact (P .draws) := ⟨pDraws⟩
  have _ : Fact (P .out) := ⟨pOut⟩
  unfold execVatom at e
  cases e
  (try dsimp only)
  with_reducible repeat' (first | intro _ | assumption | apply ite_leads | refine State.sendLanes_leads _ _ _ _ _ _ ?_ (by assumption) | apply State.stallCtx_leads | apply State.vecStep_leads | apply State.vecPoison_leads | apply State.vecFault_leads | apply State.vecIssued_leads | apply State.writeDone_leads | apply State.checkVas_leads | apply State.modSeq_leads | refine snd_leads (by assumption) ?_ | split)

theorem execVmxq_leads {P : Piece → Prop} {s₀ s : State} (h : s₀.Leads P s) (a : ArrayId) (core : Fin 16) (fmt : MxFormat) {t : State} (e : execVmxq a core fmt s = .next t)
    (pArrays : P .arrays) (pPorts : P .ports) (pPnl : P .pnl) (pRas : P .ras) (pOut : P .out) :
    s₀.Leads P t := by
  have _ : Fact (P .arrays) := ⟨pArrays⟩
  have _ : Fact (P .ports) := ⟨pPorts⟩
  have _ : Fact (P .pnl) := ⟨pPnl⟩
  have _ : Fact (P .ras) := ⟨pRas⟩
  have _ : Fact (P .out) := ⟨pOut⟩
  unfold execVmxq at e
  cases e
  with_reducible repeat' (first | intro _ | assumption | apply ite_leads | apply State.vecStep_leads | apply State.vecIssued_leads | split)

theorem State.starve_leads {P : Piece → Prop} [Fact (P .arrays)] {s₀ s : State} (h : s₀.Leads P s) (a : ArrayId) (c : Ctx) :
    s₀.Leads P (State.starve s a c) := by
  unfold State.starve
  with_reducible repeat' (first | assumption | apply ite_leads | apply State.modCtx_leads | split)

theorem execVtx_leads {P : Piece → Prop} {s₀ s : State} (h : s₀.Leads P s) (a : ArrayId) (core : Fin 16) {t : State} (e : execVtx a core s = .next t)
    (pArrays : P .arrays) (pPorts : P .ports) (pPnl : P .pnl) (pRas : P .ras) (pDraws : P .draws) (pOut : P .out) :
    s₀.Leads P t := by
  have _ : Fact (P .arrays) := ⟨pArrays⟩
  have _ : Fact (P .ports) := ⟨pPorts⟩
  have _ : Fact (P .pnl) := ⟨pPnl⟩
  have _ : Fact (P .ras) := ⟨pRas⟩
  have _ : Fact (P .draws) := ⟨pDraws⟩
  have _ : Fact (P .out) := ⟨pOut⟩
  unfold execVtx at e
  cases e
  (try dsimp only)
  with_reducible repeat' (first | intro _ | assumption | apply ite_leads | apply State.starve_leads | apply State.vecStep_leads | apply State.vecPoison_leads | apply State.vecIssued_leads | apply State.drawn_leads | refine snd_leads (by assumption) ?_ | split)

theorem execVtxdone_leads {P : Piece → Prop} {s₀ s : State} (h : s₀.Leads P s) (a : ArrayId) (core : Fin 16) {t : State} (e : execVtxdone a core s = .next t)
    (pArrays : P .arrays) (pPorts : P .ports) (pPnl : P .pnl) (pRas : P .ras) (pOut : P .out) :
    s₀.Leads P t := by
  have _ : Fact (P .arrays) := ⟨pArrays⟩
  have _ : Fact (P .ports) := ⟨pPorts⟩
  have _ : Fact (P .pnl) := ⟨pPnl⟩
  have _ : Fact (P .ras) := ⟨pRas⟩
  have _ : Fact (P .out) := ⟨pOut⟩
  unfold execVtxdone at e
  cases e
  (try dsimp only)
  with_reducible repeat' (first | intro _ | assumption | apply ite_leads | apply State.vecStep_leads | apply State.vecIssued_leads | apply State.feed_leads | apply State.modVec_leads | apply State.modCube_leads | refine snd_leads (by assumption) ?_ | split)

theorem execKernelRetire_leads {P : Piece → Prop} {s₀ s : State} (h : s₀.Leads P s) (a : ArrayId) (launch : Nat) {t : State} (e : execKernelRetire a launch s = .next t)
    (pArrays : P .arrays) (pPnl : P .pnl) (pOut : P .out) :
    s₀.Leads P t := by
  have _ : Fact (P .arrays) := ⟨pArrays⟩
  have _ : Fact (P .pnl) := ⟨pPnl⟩
  have _ : Fact (P .out) := ⟨pOut⟩
  unfold execKernelRetire at e
  cases e
  (try dsimp only)
  with_reducible repeat' (first | assumption | apply ite_leads | apply State.insRetired_leads | apply State.progress_leads | apply State.modVec_leads | refine snd_leads (by assumption) ?_ | split)

end Sys2Proof.Machine
end

