-- ==== Sys2Proof/Laws/LeadsQueues.lean ====
section
/-!
SUPPORT. What the operations of Machine/Queues.lean keep (State.Leads).
-/

set_option linter.unusedTactic false
set_option linter.unreachableTactic false
set_option linter.unusedVariables false

set_option Elab.async false

namespace Sys2Proof.Machine

theorem State.pageWrite_leads {P : Piece → Prop} [Fact (P .ras)] [Fact (P .out)] {s₀ s : State} (h : s₀.Leads P s) (p : PortId) (v : VfId) (f : State → State) (kf : ∀ x0, s₀.Leads P x0 → s₀.Leads P (f x0)) :
    s₀.Leads P (State.pageWrite s p v f) := by
  unfold State.pageWrite
  with_reducible repeat' (first | intro _ | assumption | apply ite_leads | apply State.noteHost_leads | apply kf | split)

theorem State.modQ_leads {P : Piece → Prop} [Fact (P .ports)] {s₀ s : State} (h : s₀.Leads P s) (q : QRef) (f : QueueState → QueueState) :
    s₀.Leads P (State.modQ s q f) := by
  unfold State.modQ
  with_reducible repeat' (first | assumption | apply ite_leads | apply State.modQueue_leads | split)

theorem State.issueRead_leads {P : Piece → Prop} [Fact (P .ports)] [Fact (P .out)] {s₀ s : State} (h : s₀.Leads P s) (p : PortId) (v : Option VfId) (use : ReadUse) (addr : DWord) (len : Nat) :
    s₀.Leads P (State.issueRead s p v use addr len) := by
  unfold State.issueRead
  (try dsimp only)
  with_reducible repeat' (first | assumption | apply ite_leads | apply State.emit_leads | apply State.modPort_leads | split)

theorem State.readEntry_leads {P : Piece → Prop} [Fact (P .ports)] [Fact (P .out)] {s₀ s : State} (h : s₀.Leads P s) (q : QRef) (index : BitVec 12) :
    s₀.Leads P (State.readEntry s q index) := by
  unfold State.readEntry
  with_reducible repeat' (first | assumption | apply ite_leads | apply State.issueRead_leads | split)

theorem State.fetchOne_leads {P : Piece → Prop} [Fact (P .ports)] [Fact (P .out)] {s₀ s : State} (h : s₀.Leads P s) (q : QRef) :
    s₀.Leads P (State.fetchOne s q) := by
  unfold State.fetchOne
  (try dsimp only)
  with_reducible repeat' (first | assumption | apply ite_leads | apply State.readEntry_leads | apply State.modQ_leads | split)

theorem State.fetchAhead_leads {P : Piece → Prop} [Fact (P .ports)] [Fact (P .out)] {s₀ s : State} (h : s₀.Leads P s) (q : QRef) :
    s₀.Leads P (State.fetchAhead s q) := by
  unfold State.fetchAhead
  with_reducible repeat' (first | intro _ | assumption | apply ite_leads | apply State.fetchOne_leads | apply foldl_leads | apply foldl_leads_snd | split)

theorem State.fetchVf_leads {P : Piece → Prop} [Fact (P .ports)] [Fact (P .out)] {s₀ s : State} (h : s₀.Leads P s) (p : PortId) (v : VfId) :
    s₀.Leads P (State.fetchVf s p v) := by
  unfold State.fetchVf
  with_reducible repeat' (first | intro _ | assumption | apply ite_leads | apply State.fetchAhead_leads | apply foldl_leads | apply foldl_leads_snd | split)

theorem State.noteRead_leads {P : Piece → Prop} [Fact (P .ras)] [Fact (P .out)] {s₀ : State} : ∀ (x : HostRead) (p : PortId) {s : State}, s₀.Leads P s → s₀.Leads P (State.noteRead s p x) := by
  intro x
  intro p s h
  cases x <;> (unfold State.noteRead; (try dsimp only))
  all_goals with_reducible repeat' (first | assumption | apply ite_leads | apply State.noteHost_leads | refine snd_leads (by assumption) ?_ | split)

theorem State.commandRead_leads {P : Piece → Prop} [Fact (P .ports)] [Fact (P .ras)] [Fact (P .out)] {s₀ s : State} (h : s₀.Leads P s) (q : QRef) (index : BitVec 12) (r : HostRead) :
    s₀.Leads P (State.commandRead s q index r) := by
  unfold State.commandRead
  with_reducible repeat' (first | assumption | apply ite_leads | apply State.noteRead_leads | apply State.modQ_leads | split)

theorem execCommandReadRetry_leads {P : Piece → Prop} {s₀ s : State} (h : s₀.Leads P s) (port : PortId) (v : VfId) (q : QueueId) {t : State} (e : execCommandReadRetry port v q s = .next t)
    (pPorts : P .ports) (pOut : P .out) :
    s₀.Leads P t := by
  have _ : Fact (P .ports) := ⟨pPorts⟩
  have _ : Fact (P .out) := ⟨pOut⟩
  unfold execCommandReadRetry at e
  cases e
  (try dsimp only)
  with_reducible repeat' (first | assumption | apply ite_leads | apply State.readEntry_leads | refine snd_leads (by assumption) ?_ | split)

theorem State.sqTailWrite_leads {P : Piece → Prop} [Fact (P .ports)] [Fact (P .ras)] [Fact (P .out)] {s₀ s : State} (h : s₀.Leads P s) (port : PortId) (v : VfId) (q : QueueId) (value : Word) :
    s₀.Leads P (State.sqTailWrite s port v q value) := by
  unfold State.sqTailWrite
  (try dsimp only)
  with_reducible repeat' (first | assumption | apply ite_leads | apply State.fetchAhead_leads | apply State.modQ_leads | apply State.noteHost_leads | split)

theorem execSqTail_leads {P : Piece → Prop} {s₀ s : State} (h : s₀.Leads P s) (port : PortId) (v : VfId) (q : QueueId) (value : Word) {t : State} (e : execSqTail port v q value s = .next t)
    (pPorts : P .ports) (pRas : P .ras) (pOut : P .out) :
    s₀.Leads P t := by
  have _ : Fact (P .ports) := ⟨pPorts⟩
  have _ : Fact (P .ras) := ⟨pRas⟩
  have _ : Fact (P .out) := ⟨pOut⟩
  unfold execSqTail at e
  cases e
  with_reducible repeat' (first | intro _ | assumption | apply ite_leads | apply State.sqTailWrite_leads | apply State.pageWrite_leads | split)

theorem State.cqHeadWrite_leads {P : Piece → Prop} [Fact (P .ports)] [Fact (P .ras)] [Fact (P .out)] {s₀ s : State} (h : s₀.Leads P s) (port : PortId) (v : VfId) (q : QueueId) (value : Word) :
    s₀.Leads P (State.cqHeadWrite s port v q value) := by
  unfold State.cqHeadWrite
  (try dsimp only)
  with_reducible repeat' (first | assumption | apply ite_leads | apply State.modQ_leads | apply State.noteHost_leads | split)

theorem execCqHead_leads {P : Piece → Prop} {s₀ s : State} (h : s₀.Leads P s) (port : PortId) (v : VfId) (q : QueueId) (value : Word) {t : State} (e : execCqHead port v q value s = .next t)
    (pPorts : P .ports) (pRas : P .ras) (pOut : P .out) :
    s₀.Leads P t := by
  have _ : Fact (P .ports) := ⟨pPorts⟩
  have _ : Fact (P .ras) := ⟨pRas⟩
  have _ : Fact (P .out) := ⟨pOut⟩
  unfold execCqHead at e
  cases e
  with_reducible repeat' (first | intro _ | assumption | apply ite_leads | apply State.cqHeadWrite_leads | apply State.pageWrite_leads | split)

theorem State.queueEnable_leads {P : Piece → Prop} [Fact (P .ports)] {s₀ s : State} (h : s₀.Leads P s) (port : PortId) (v : VfId) (q : QueueId) (value : Word) :
    s₀.Leads P (State.queueEnable s port v q value) := by
  unfold State.queueEnable
  with_reducible repeat' (first | assumption | apply ite_leads | apply State.modQueue_leads | split)

theorem execQueueEnable_leads {P : Piece → Prop} {s₀ s : State} (h : s₀.Leads P s) (port : PortId) (v : VfId) (q : QueueId) (value : Word) {t : State} (e : execQueueEnable port v q value s = .next t)
    (pPorts : P .ports) (pRas : P .ras) (pOut : P .out) :
    s₀.Leads P t := by
  have _ : Fact (P .ports) := ⟨pPorts⟩
  have _ : Fact (P .ras) := ⟨pRas⟩
  have _ : Fact (P .out) := ⟨pOut⟩
  unfold execQueueEnable at e
  cases e
  with_reducible repeat' (first | intro _ | assumption | apply ite_leads | apply State.queueEnable_leads | apply State.pageWrite_leads | split)

theorem State.finishCmd_leads {P : Piece → Prop} [Fact (P .ports)] [Fact (P .out)] {s₀ s : State} (h : s₀.Leads P s) (q : QRef) (c : Completion) (epoch : Option Nat) :
    s₀.Leads P (State.finishCmd s q c epoch) := by
  unfold State.finishCmd
  (try dsimp only)
  with_reducible repeat' (first | assumption | apply ite_leads | apply State.fetchAhead_leads | apply State.modQ_leads | split)

theorem State.releaseComps_leads {P : Piece → Prop} [Fact (P .ports)] {s₀ s : State} (h : s₀.Leads P s) (port : PortId) (v : VfId) (p : Nat → Bool) :
    s₀.Leads P (State.releaseComps s port v p) := by
  unfold State.releaseComps
  with_reducible repeat' (first | assumption | apply ite_leads | apply State.modVf_leads | split)

theorem State.abortsDone_leads {P : Piece → Prop} [Fact (P .ports)] [Fact (P .out)] {s₀ s : State} (h : s₀.Leads P s) (q : QRef) (seq : Word) :
    s₀.Leads P (State.abortsDone s q seq) := by
  unfold State.abortsDone
  with_reducible repeat' (first | intro _ | assumption | apply ite_leads | apply State.finishCmd_leads | apply foldl_leads | apply foldl_leads_snd | refine snd_leads (by assumption) ?_ | split)

theorem execCompletionWrite_leads {P : Piece → Prop} {s₀ s : State} (h : s₀.Leads P s) (port : PortId) (v : VfId) (q : QueueId) {t : State} (e : execCompletionWrite port v q s = .next t)
    (pPorts : P .ports) (pOut : P .out) :
    s₀.Leads P t := by
  have _ : Fact (P .ports) := ⟨pPorts⟩
  have _ : Fact (P .out) := ⟨pOut⟩
  unfold execCompletionWrite at e
  cases e
  (try dsimp only)
  with_reducible repeat' (first | assumption | apply ite_leads | apply State.abortsDone_leads | apply State.modQ_leads | apply State.raiseMsix_leads | apply State.emit_leads | refine snd_leads (by assumption) ?_ | split)

theorem execCommandTake_leads {P : Piece → Prop} {s₀ s : State} (h : s₀.Leads P s) (port : PortId) (v : VfId) (q : QueueId) {t : State} (e : execCommandTake port v q s = .next t)
    (pPorts : P .ports) (pPnl : P .pnl) (pOut : P .out) :
    s₀.Leads P t := by
  have _ : Fact (P .ports) := ⟨pPorts⟩
  have _ : Fact (P .pnl) := ⟨pPnl⟩
  have _ : Fact (P .out) := ⟨pOut⟩
  unfold execCommandTake at e
  cases e
  (try dsimp only)
  with_reducible repeat' (first | assumption | apply ite_leads | apply State.fetchAhead_leads | apply State.modQ_leads | apply State.modPanel_leads | refine snd_leads (by assumption) ?_ | split)

end Sys2Proof.Machine
end

