-- ==== Sys2Proof/Laws/LeadsInvoke.lean ====
section
/-!
SUPPORT. What the operations of Machine/Invoke.lean keep (State.Leads).
-/

set_option linter.unusedTactic false
set_option linter.unreachableTactic false
set_option linter.unusedVariables false

set_option Elab.async false

namespace Sys2Proof.Machine

theorem State.readPlain_leads {P : Piece → Prop} [Fact (P .fields)] [Fact (P .hbm)] [Fact (P .mem)] [Fact (P .net)] [Fact (P .coh)] [Fact (P .ras)] [Fact (P .twin)] [Fact (P .lines)] [Fact (P .draws)] [Fact (P .out)] {s₀ s : State} (h : s₀.Leads P s) (e : Eng) (t : Target) :
    s₀.Leads P (State.readPlain s e t).2 := by
  unfold State.readPlain
  with_reducible repeat' (first | assumption | apply ite_leads | apply State.readTarget_leads | apply State.readPa_leads | apply State.cohReadPlain_leads | refine snd_leads (by assumption) ?_ | split)

theorem State.readPlainVas_leads {P : Piece → Prop} [Fact (P .fields)] [Fact (P .hbm)] [Fact (P .mem)] [Fact (P .net)] [Fact (P .coh)] [Fact (P .ras)] [Fact (P .twin)] [Fact (P .lines)] [Fact (P .draws)] [Fact (P .out)] {s₀ : State} : ∀ (x : List (BitVec 55)) (e : Eng) (acc : Access) {s : State}, s₀.Leads P s → s₀.Leads P (State.readPlainVas s e acc x).2 := by
  intro x
  induction x with
  | nil =>
    intro e acc s h
    unfold State.readPlainVas; (try dsimp only)
    with_reducible repeat' (first | assumption | apply ite_leads | apply State.readPlain_leads | apply State.translate_leads | apply ih | refine snd_leads (by assumption) ?_ | split)
  | cons y ys ih =>
    intro e acc s h
    unfold State.readPlainVas; (try dsimp only)
    with_reducible repeat' (first | assumption | apply ite_leads | apply State.readPlain_leads | apply State.translate_leads | apply ih | refine snd_leads (by assumption) ?_ | split)

theorem State.plainFault_leads {P : Piece → Prop} [Fact (P .pnl)] {s₀ s : State} (h : s₀.Leads P s) (p : PanelId) (engine : BitVec 4) (field : FieldId) (sub : BitVec 13) (f : VaFault) :
    s₀.Leads P (State.plainFault s p engine field sub f) := by
  unfold State.plainFault
  (try dsimp only)
  with_reducible repeat' (first | assumption | apply ite_leads | apply State.arrive_leads | split)

theorem State.queueMark_leads {P : Piece → Prop} [Fact (P .twin)] {s₀ s : State} (h : s₀.Leads P s) (b : BindId) (seed : Bool) (epoch : Nat) :
    s₀.Leads P (State.queueMark s b seed epoch) := by
  unfold State.queueMark
  with_reducible repeat' (first | intro _ | assumption | apply ite_leads | apply State.modBind_leads | apply State.modTwinPort_leads | split)

theorem State.closeEpoch_leads {P : Piece → Prop} [Fact (P .twin)] {s₀ s : State} (h : s₀.Leads P s) (p : PanelId) :
    s₀.Leads P (State.closeEpoch s p).2 := by
  unfold State.closeEpoch
  (try dsimp only)
  with_reducible repeat' (first | assumption | apply ite_leads | apply State.queueMark_leads | apply State.modBind_leads | refine snd_leads (by assumption) ?_ | split)

theorem State.finishInv_leads {P : Piece → Prop} [Fact (P .ports)] [Fact (P .twin)] [Fact (P .out)] {s₀ s : State} (h : s₀.Leads P s) (q : QRef) (status : Byte) :
    s₀.Leads P (State.finishInv s q status) := by
  unfold State.finishInv
  (try dsimp only)
  with_reducible repeat' (first | assumption | apply ite_leads | apply State.closeEpoch_leads | apply State.finishCmd_leads | refine snd_leads (by assumption) ?_ | split)

theorem State.startRead_leads {P : Piece → Prop} [Fact (P .fields)] [Fact (P .hbm)] [Fact (P .mem)] [Fact (P .net)] [Fact (P .coh)] [Fact (P .pnl)] [Fact (P .ras)] [Fact (P .twin)] [Fact (P .lines)] [Fact (P .draws)] [Fact (P .out)] {s₀ s : State} (h : s₀.Leads P s) (e : Eng) (p : PanelId) (va : BitVec 55) (n : Nat) :
    s₀.Leads P (State.startRead s e p va n).2 := by
  unfold State.startRead
  (try dsimp only)
  with_reducible repeat' (first | assumption | apply ite_leads | apply State.plainFault_leads | apply State.readPlainVas_leads | apply State.accessEvent_leads | refine snd_leads (by assumption) ?_ | split)

theorem State.readEntries_leads {P : Piece → Prop} [Fact (P .fields)] [Fact (P .hbm)] [Fact (P .mem)] [Fact (P .net)] [Fact (P .coh)] [Fact (P .pnl)] [Fact (P .ras)] [Fact (P .twin)] [Fact (P .lines)] [Fact (P .draws)] [Fact (P .out)] {s₀ : State} : ∀ (x : List (BitVec 55)) (e : Eng) (p : PanelId) {s : State}, s₀.Leads P s → s₀.Leads P (State.readEntries s e p x).2 := by
  intro x
  induction x with
  | nil =>
    intro e p s h
    unfold State.readEntries; (try dsimp only)
    with_reducible repeat' (first | assumption | apply ite_leads | apply State.startRead_leads | apply ih | refine snd_leads (by assumption) ?_ | split)
  | cons y ys ih =>
    intro e p s h
    unfold State.readEntries; (try dsimp only)
    with_reducible repeat' (first | assumption | apply ite_leads | apply State.startRead_leads | apply ih | refine snd_leads (by assumption) ?_ | split)

theorem State.invoke_leads {P : Piece → Prop} [Fact (P .fields)] [Fact (P .hbm)] [Fact (P .mem)] [Fact (P .net)] [Fact (P .coh)] [Fact (P .ports)] [Fact (P .pnl)] [Fact (P .ras)] [Fact (P .twin)] [Fact (P .lines)] [Fact (P .draws)] [Fact (P .out)] {s₀ s : State} (h : s₀.Leads P s) (q : QRef) (p : PanelId) (t : Taken) :
    s₀.Leads P (State.invoke s q p t) := by
  unfold State.invoke
  (try dsimp only)
  with_reducible repeat' (first | assumption | apply ite_leads | apply State.readEntries_leads | apply State.startRead_leads | apply State.finishInv_leads | apply State.modTaken_leads | refine snd_leads (by assumption) ?_ | split)

theorem execInvoke_leads {P : Piece → Prop} {s₀ s : State} (h : s₀.Leads P s) (port : PortId) (v : VfId) (q : QueueId) {t : State} (e : execInvoke port v q s = .next t)
    (pFields : P .fields) (pHbm : P .hbm) (pMem : P .mem) (pNet : P .net) (pCoh : P .coh) (pPorts : P .ports) (pPnl : P .pnl) (pRas : P .ras) (pTwin : P .twin) (pLines : P .lines) (pDraws : P .draws) (pOut : P .out) :
    s₀.Leads P t := by
  have _ : Fact (P .fields) := ⟨pFields⟩
  have _ : Fact (P .hbm) := ⟨pHbm⟩
  have _ : Fact (P .mem) := ⟨pMem⟩
  have _ : Fact (P .net) := ⟨pNet⟩
  have _ : Fact (P .coh) := ⟨pCoh⟩
  have _ : Fact (P .ports) := ⟨pPorts⟩
  have _ : Fact (P .pnl) := ⟨pPnl⟩
  have _ : Fact (P .ras) := ⟨pRas⟩
  have _ : Fact (P .twin) := ⟨pTwin⟩
  have _ : Fact (P .lines) := ⟨pLines⟩
  have _ : Fact (P .draws) := ⟨pDraws⟩
  have _ : Fact (P .out) := ⟨pOut⟩
  unfold execInvoke at e
  cases e
  (try dsimp only)
  with_reducible repeat' (first | assumption | apply ite_leads | apply State.invoke_leads | refine snd_leads (by assumption) ?_ | split)

theorem State.dropControl_leads {P : Piece → Prop} [Fact (P .coh)] {s₀ s : State} (h : s₀.Leads P s) (a : ArrayId) :
    s₀.Leads P (State.dropControl s a) := by
  unfold State.dropControl
  with_reducible repeat' (first | assumption | apply ite_leads | apply State.modCoh_leads | split)

theorem State.startArray_leads {P : Piece → Prop} [Fact (P .arrays)] [Fact (P .coh)] {s₀ s : State} (h : s₀.Leads P s) (q : QRef) (args : BitVec 55) (x : ArrayId × BitVec 55) :
    s₀.Leads P (State.startArray s q args x) := by
  unfold State.startArray
  with_reducible repeat' (first | assumption | apply ite_leads | apply State.dropControl_leads | apply State.modSeq_leads | apply State.modCube_leads | split)

theorem execInvocationStart_leads {P : Piece → Prop} {s₀ s : State} (h : s₀.Leads P s) (port : PortId) (v : VfId) (q : QueueId) {t : State} (e : execInvocationStart port v q s = .next t)
    (pArrays : P .arrays) (pCoh : P .coh) (pPorts : P .ports) (pTwin : P .twin) (pOut : P .out) :
    s₀.Leads P t := by
  have _ : Fact (P .arrays) := ⟨pArrays⟩
  have _ : Fact (P .coh) := ⟨pCoh⟩
  have _ : Fact (P .ports) := ⟨pPorts⟩
  have _ : Fact (P .twin) := ⟨pTwin⟩
  have _ : Fact (P .out) := ⟨pOut⟩
  unfold execInvocationStart at e
  cases e
  (try dsimp only)
  with_reducible repeat' (first | intro _ | assumption | apply ite_leads | apply State.startArray_leads | apply State.finishInv_leads | apply State.modTaken_leads | apply foldl_leads | apply foldl_leads_snd | refine snd_leads (by assumption) ?_ | split)

theorem execInvocationComplete_leads {P : Piece → Prop} {s₀ s : State} (h : s₀.Leads P s) (port : PortId) (v : VfId) (q : QueueId) {t : State} (e : execInvocationComplete port v q s = .next t)
    (pArrays : P .arrays) (pPorts : P .ports) (pTwin : P .twin) (pOut : P .out) :
    s₀.Leads P t := by
  have _ : Fact (P .arrays) := ⟨pArrays⟩
  have _ : Fact (P .ports) := ⟨pPorts⟩
  have _ : Fact (P .twin) := ⟨pTwin⟩
  have _ : Fact (P .out) := ⟨pOut⟩
  unfold execInvocationComplete at e
  cases e
  (try dsimp only)
  with_reducible repeat' (first | intro _ | assumption | apply ite_leads | apply State.finishInv_leads | apply State.modSeq_leads | apply foldl_leads | apply foldl_leads_snd | refine snd_leads (by assumption) ?_ | split)

theorem execInvocationTimeout_leads {P : Piece → Prop} {s₀ s : State} (h : s₀.Leads P s) (port : PortId) (v : VfId) (q : QueueId) {t : State} (e : execInvocationTimeout port v q s = .next t)
    (pArrays : P .arrays) (pPorts : P .ports) (pPnl : P .pnl) :
    s₀.Leads P t := by
  have _ : Fact (P .arrays) := ⟨pArrays⟩
  have _ : Fact (P .ports) := ⟨pPorts⟩
  have _ : Fact (P .pnl) := ⟨pPnl⟩
  unfold execInvocationTimeout at e
  cases e
  (try dsimp only)
  with_reducible repeat' (first | assumption | apply ite_leads | apply State.endInv_leads | refine snd_leads (by assumption) ?_ | split)

theorem State.abortInv_leads {P : Piece → Prop} [Fact (P .arrays)] [Fact (P .ports)] [Fact (P .pnl)] [Fact (P .twin)] [Fact (P .out)] {s₀ s : State} (h : s₀.Leads P s) (q : QRef) :
    s₀.Leads P (State.abortInv s q) := by
  unfold State.abortInv
  with_reducible repeat' (first | assumption | apply ite_leads | apply State.finishInv_leads | apply State.endInv_leads | refine snd_leads (by assumption) ?_ | split)

theorem execAbort_leads {P : Piece → Prop} {s₀ s : State} (h : s₀.Leads P s) (port : PortId) (v : VfId) (q : QueueId) {t : State} (e : execAbort port v q s = .next t)
    (pArrays : P .arrays) (pPorts : P .ports) (pPnl : P .pnl) (pTwin : P .twin) (pOut : P .out) :
    s₀.Leads P t := by
  have _ : Fact (P .arrays) := ⟨pArrays⟩
  have _ : Fact (P .ports) := ⟨pPorts⟩
  have _ : Fact (P .pnl) := ⟨pPnl⟩
  have _ : Fact (P .twin) := ⟨pTwin⟩
  have _ : Fact (P .out) := ⟨pOut⟩
  unfold execAbort at e
  cases e
  (try dsimp only)
  with_reducible repeat' (first | assumption | apply ite_leads | apply State.abortInv_leads | apply State.finishCmd_leads | apply State.modTaken_leads | refine snd_leads (by assumption) ?_ | split)

theorem execNopCommand_leads {P : Piece → Prop} {s₀ s : State} (h : s₀.Leads P s) (port : PortId) (v : VfId) (q : QueueId) {t : State} (e : execNopCommand port v q s = .next t)
    (pPorts : P .ports) (pOut : P .out) :
    s₀.Leads P t := by
  have _ : Fact (P .ports) := ⟨pPorts⟩
  have _ : Fact (P .out) := ⟨pOut⟩
  unfold execNopCommand at e
  cases e
  (try dsimp only)
  with_reducible repeat' (first | assumption | apply ite_leads | apply State.finishCmd_leads | refine snd_leads (by assumption) ?_ | split)

theorem State.queueDisable_leads {P : Piece → Prop} [Fact (P .arrays)] [Fact (P .ports)] [Fact (P .pnl)] [Fact (P .twin)] [Fact (P .out)] {s₀ s : State} (h : s₀.Leads P s) (port : PortId) (v : VfId) (q : QueueId) (value : Word) :
    s₀.Leads P (State.queueDisable s port v q value) := by
  unfold State.queueDisable
  (try dsimp only)
  with_reducible repeat' (first | intro _ | assumption | apply ite_leads | apply State.abortInv_leads | apply State.modQ_leads | split)

theorem execQueueDisable_leads {P : Piece → Prop} {s₀ s : State} (h : s₀.Leads P s) (port : PortId) (v : VfId) (q : QueueId) (value : Word) {t : State} (e : execQueueDisable port v q value s = .next t)
    (pArrays : P .arrays) (pPorts : P .ports) (pPnl : P .pnl) (pRas : P .ras) (pTwin : P .twin) (pOut : P .out) :
    s₀.Leads P t := by
  have _ : Fact (P .arrays) := ⟨pArrays⟩
  have _ : Fact (P .ports) := ⟨pPorts⟩
  have _ : Fact (P .pnl) := ⟨pPnl⟩
  have _ : Fact (P .ras) := ⟨pRas⟩
  have _ : Fact (P .twin) := ⟨pTwin⟩
  have _ : Fact (P .out) := ⟨pOut⟩
  unfold execQueueDisable at e
  cases e
  with_reducible repeat' (first | intro _ | assumption | apply ite_leads | apply State.queueDisable_leads | apply State.pageWrite_leads | split)

theorem execSiteEngineSignal_leads {P : Piece → Prop} {s₀ s : State} (h : s₀.Leads P s) (n : SiteId) (tag : Byte) (array : Fin 64) (sem : Fin 64) (inc : Byte) {t : State} (e : execSiteEngineSignal n tag array sem inc s = .next t)
    (pArrays : P .arrays) (pPorts : P .ports) (pPnl : P .pnl) (pRas : P .ras) (pOut : P .out) :
    s₀.Leads P t := by
  have _ : Fact (P .arrays) := ⟨pArrays⟩
  have _ : Fact (P .ports) := ⟨pPorts⟩
  have _ : Fact (P .pnl) := ⟨pPnl⟩
  have _ : Fact (P .ras) := ⟨pRas⟩
  have _ : Fact (P .out) := ⟨pOut⟩
  unfold execSiteEngineSignal at e
  cases e
  with_reducible repeat' (first | assumption | apply ite_leads | apply State.addSem_leads | apply State.noteSite_leads | refine snd_leads (by assumption) ?_ | split)

end Sys2Proof.Machine
end

