-- ==== Sys2Proof/Laws/LeadsStacks.lean ====
section
/-!
SUPPORT. What the operations of Machine/Stacks.lean keep (State.Leads).
-/

set_option linter.unusedTactic false
set_option linter.unreachableTactic false
set_option linter.unusedVariables false

set_option Elab.async false

namespace Sys2Proof.Machine

theorem State.readServed_leads {P : Piece → Prop} [Fact (P .fields)] [Fact (P .hbm)] [Fact (P .mem)] [Fact (P .net)] [Fact (P .ras)] {s₀ s : State} (h : s₀.Leads P s) (id : TxId) (g : Agent) (pa : BitVec 52) (flips : BitVec 544) :
    s₀.Leads P (State.readServed s id g pa flips).2 := by
  unfold State.readServed
  (try dsimp only)
  with_reducible repeat' (first | intro _ | assumption | apply ite_leads | apply State.modTxn_leads | apply State.fallback_leads | apply State.readLoc_leads | refine snd_leads (by assumption) ?_ | split)

theorem State.serveWords_leads {P : Piece → Prop} [Fact (P .fields)] [Fact (P .hbm)] [Fact (P .mem)] [Fact (P .net)] [Fact (P .ras)] {s₀ : State} : ∀ (x : Nat) (id : TxId) (g : Agent) (pa : BitVec 52) (errors : List RawError) (i : Nat) {s : State}, s₀.Leads P s → s₀.Leads P (State.serveWords s id g pa errors i x).2 := by
  intro x
  induction x with
  | zero =>
    intro id g pa errors i s h
    unfold State.serveWords; (try dsimp only)
    with_reducible repeat' (first | assumption | apply ite_leads | apply State.readServed_leads | apply ih | refine snd_leads (by assumption) ?_ | split)
  | succ k ih =>
    intro id g pa errors i s h
    unfold State.serveWords; (try dsimp only)
    with_reducible repeat' (first | assumption | apply ite_leads | apply State.readServed_leads | apply ih | refine snd_leads (by assumption) ?_ | split)

theorem State.serveRead_leads {P : Piece → Prop} [Fact (P .fields)] [Fact (P .hbm)] [Fact (P .mem)] [Fact (P .net)] [Fact (P .ras)] {s₀ s : State} (h : s₀.Leads P s) (t : Txn) (errors : List RawError) :
    s₀.Leads P (State.serveRead s t errors) := by
  unfold State.serveRead
  (try dsimp only)
  with_reducible repeat' (first | assumption | apply ite_leads | apply State.serveWords_leads | apply State.answerTxn_leads | refine snd_leads (by assumption) ?_ | split)

theorem State.serveWaiting_leads {P : Piece → Prop} [Fact (P .fields)] [Fact (P .hbm)] [Fact (P .mem)] [Fact (P .net)] [Fact (P .ras)] {s₀ s : State} (h : s₀.Leads P s) (stack : StackId) (errors : List RawError) (r : WaitingRead) :
    s₀.Leads P (State.serveWaiting s stack errors r) := by
  unfold State.serveWaiting
  (try dsimp only)
  with_reducible repeat' (first | assumption | apply ite_leads | apply State.serveRead_leads | apply State.modStack_leads | refine snd_leads (by assumption) ?_ | split)

theorem execHbmRead_leads {P : Piece → Prop} {s₀ s : State} (h : s₀.Leads P s) (stack : StackId) (pc : PcId) (pick : Nat) (errors : List RawError) {t : State} (e : execHbmRead stack pc pick errors s = .next t)
    (pFields : P .fields) (pHbm : P .hbm) (pMem : P .mem) (pNet : P .net) (pRas : P .ras) :
    s₀.Leads P t := by
  have _ : Fact (P .fields) := ⟨pFields⟩
  have _ : Fact (P .hbm) := ⟨pHbm⟩
  have _ : Fact (P .mem) := ⟨pMem⟩
  have _ : Fact (P .net) := ⟨pNet⟩
  have _ : Fact (P .ras) := ⟨pRas⟩
  unfold execHbmRead at e
  cases e
  (try dsimp only)
  with_reducible repeat' (first | intro _ | assumption | apply ite_leads | apply State.serveWaiting_leads | apply foldl_leads | apply foldl_leads_snd | refine snd_leads (by assumption) ?_ | split)

theorem State.enqueueWrite_leads {P : Piece → Prop} [Fact (P .hbm)] [Fact (P .ras)] [Fact (P .twin)] {s₀ s : State} (h : s₀.Leads P s) (stack : StackId) (pa : BitVec 52) (w : CodeWord) :
    s₀.Leads P (State.enqueueWrite s stack pa w) := by
  unfold State.enqueueWrite
  (try dsimp only)
  with_reducible repeat' (first | assumption | apply ite_leads | apply State.mirror_leads | apply State.modRas_leads | apply State.modStack_leads | refine snd_leads (by assumption) ?_ | split)
  all_goals first | assumption | exact fun h => h

theorem State.enqueueWrites_leads {P : Piece → Prop} [Fact (P .hbm)] [Fact (P .ras)] [Fact (P .twin)] {s₀ : State} : ∀ (x : List CodeWord) (stack : StackId) (pa : BitVec 52) {s : State}, s₀.Leads P s → s₀.Leads P (State.enqueueWrites s stack pa x) := by
  intro x
  induction x with
  | nil =>
    intro stack pa s h
    unfold State.enqueueWrites; (try dsimp only)
    with_reducible repeat' (first | assumption | apply ite_leads | apply State.enqueueWrite_leads | apply ih | refine snd_leads (by assumption) ?_ | split)
  | cons y ys ih =>
    intro stack pa s h
    unfold State.enqueueWrites; (try dsimp only)
    with_reducible repeat' (first | assumption | apply ite_leads | apply State.enqueueWrite_leads | apply ih | refine snd_leads (by assumption) ?_ | split)

theorem execHbmWrite_leads {P : Piece → Prop} {s₀ s : State} (h : s₀.Leads P s) (id : TxId) {t : State} (e : execHbmWrite id s = .next t)
    (pHbm : P .hbm) (pNet : P .net) (pRas : P .ras) (pTwin : P .twin) :
    s₀.Leads P t := by
  have _ : Fact (P .hbm) := ⟨pHbm⟩
  have _ : Fact (P .net) := ⟨pNet⟩
  have _ : Fact (P .ras) := ⟨pRas⟩
  have _ : Fact (P .twin) := ⟨pTwin⟩
  unfold execHbmWrite at e
  cases e
  (try dsimp only)
  with_reducible repeat' (first | assumption | apply ite_leads | apply State.enqueueWrites_leads | apply State.answerTxn_leads | refine snd_leads (by assumption) ?_ | split)

theorem execHbmWriteDrain_leads {P : Piece → Prop} {s₀ s : State} (h : s₀.Leads P s) (stack : StackId) (pc : PcId) {t : State} (e : execHbmWriteDrain stack pc s = .next t)
    (pHbm : P .hbm) (pMem : P .mem) (pRas : P .ras) :
    s₀.Leads P t := by
  have _ : Fact (P .hbm) := ⟨pHbm⟩
  have _ : Fact (P .mem) := ⟨pMem⟩
  have _ : Fact (P .ras) := ⟨pRas⟩
  unfold execHbmWriteDrain at e
  cases e
  (try dsimp only)
  with_reducible repeat' (first | intro _ | assumption | apply ite_leads | apply State.storeAt_leads | apply State.modStack_leads | apply foldl_leads | apply foldl_leads_snd | split)

theorem State.putWords_leads {P : Piece → Prop} [Fact (P .hbm)] [Fact (P .mem)] [Fact (P .ras)] [Fact (P .twin)] {s₀ : State} : ∀ (x : List CodeWord) (pa : BitVec 52) {s : State}, s₀.Leads P s → s₀.Leads P (State.putWords s pa x) := by
  intro x
  induction x with
  | nil =>
    intro pa s h
    unfold State.putWords; (try dsimp only)
    with_reducible repeat' (first | assumption | apply ite_leads | apply State.putCode_leads | apply ih | refine snd_leads (by assumption) ?_ | split)
  | cons y ys ih =>
    intro pa s h
    unfold State.putWords; (try dsimp only)
    with_reducible repeat' (first | assumption | apply ite_leads | apply State.putCode_leads | apply ih | refine snd_leads (by assumption) ?_ | split)

theorem State.partServed_leads {P : Piece → Prop} [Fact (P .net)] {s₀ s : State} (h : s₀.Leads P s) (t : Txn) (first count : Nat) (ws : List CodeWord) :
    s₀.Leads P (State.partServed s t first count ws) := by
  unfold State.partServed
  (try dsimp only)
  with_reducible repeat' (first | assumption | apply ite_leads | apply State.modTxn_leads | apply State.answerTxn_leads | split)

theorem execFastTierAccess_leads {P : Piece → Prop} {s₀ s : State} (h : s₀.Leads P s) (f : FieldId) (bank : BankId) (errors : List RawError) {t : State} (e : execFastTierAccess f bank errors s = .next t)
    (pFields : P .fields) (pHbm : P .hbm) (pMem : P .mem) (pNet : P .net) (pRas : P .ras) (pTwin : P .twin) :
    s₀.Leads P t := by
  have _ : Fact (P .fields) := ⟨pFields⟩
  have _ : Fact (P .hbm) := ⟨pHbm⟩
  have _ : Fact (P .mem) := ⟨pMem⟩
  have _ : Fact (P .net) := ⟨pNet⟩
  have _ : Fact (P .ras) := ⟨pRas⟩
  have _ : Fact (P .twin) := ⟨pTwin⟩
  unfold execFastTierAccess at e
  cases e
  (try dsimp only)
  with_reducible repeat' (first | assumption | apply ite_leads | apply State.partServed_leads | apply State.putWords_leads | apply State.serveWords_leads | apply State.modFt_leads | refine snd_leads (by assumption) ?_ | split)

theorem execNetworkAtomicPerform_leads {P : Piece → Prop} {s₀ s : State} (h : s₀.Leads P s) (id : TxId) (errors : List RawError) {t : State} (e : execNetworkAtomicPerform id errors s = .next t)
    (pFields : P .fields) (pHbm : P .hbm) (pMem : P .mem) (pNet : P .net) (pRas : P .ras) (pTwin : P .twin) :
    s₀.Leads P t := by
  have _ : Fact (P .fields) := ⟨pFields⟩
  have _ : Fact (P .hbm) := ⟨pHbm⟩
  have _ : Fact (P .mem) := ⟨pMem⟩
  have _ : Fact (P .net) := ⟨pNet⟩
  have _ : Fact (P .ras) := ⟨pRas⟩
  have _ : Fact (P .twin) := ⟨pTwin⟩
  unfold execNetworkAtomicPerform at e
  cases e
  (try dsimp only)
  with_reducible repeat' (first | assumption | apply ite_leads | apply State.remember_leads | apply State.answerTxn_leads | apply State.atomicLoc_leads | refine snd_leads (by assumption) ?_ | split)

theorem execConditionalWriteBack_leads {P : Piece → Prop} {s₀ s : State} (h : s₀.Leads P s) (key : Nat) {t : State} (e : execConditionalWriteBack key s = .next t)
    (pMem : P .mem) (pRas : P .ras) :
    s₀.Leads P t := by
  have _ : Fact (P .mem) := ⟨pMem⟩
  have _ : Fact (P .ras) := ⟨pRas⟩
  unfold execConditionalWriteBack at e
  cases e
  with_reducible repeat' (first | assumption | apply ite_leads | refine snd_leads (by assumption) ?_ | split)
  all_goals exact h.stores rfl rfl rfl (fun x => Mem.wf_put x _ _) rfl (fun x => x)

theorem execRefresh_leads {P : Piece → Prop} {s₀ s : State} (h : s₀.Leads P s) (stack : StackId) (pc : PcId) (bank : Nat) (postpone : Bool) (makeUp : Nat) {t : State} (e : execRefresh stack pc bank postpone makeUp s = .next t)
    (pHbm : P .hbm) :
    s₀.Leads P t := by
  have _ : Fact (P .hbm) := ⟨pHbm⟩
  unfold execRefresh at e
  cases e
  with_reducible repeat' (first | assumption | apply ite_leads | apply State.modStack_leads | split)

theorem State.thermal_leads {P : Piece → Prop} [Fact (P .ports)] [Fact (P .ras)] [Fact (P .pwr)] [Fact (P .out)] {s₀ s : State} (h : s₀.Leads P s)  :
    s₀.Leads P (State.thermal s) := by
  unfold State.thermal
  with_reducible repeat' (first | assumption | apply ite_leads | apply State.irq_leads | apply State.logFault_leads | apply State.emit_leads | apply State.modPwr_leads | split)
  all_goals first | assumption | exact fun h => h

theorem State.failStack_leads {P : Piece → Prop} [Fact (P .hbm)] [Fact (P .net)] [Fact (P .ports)] [Fact (P .ras)] [Fact (P .pwr)] [Fact (P .out)] {s₀ s : State} (h : s₀.Leads P s) (k : StackId) (code : Byte) :
    s₀.Leads P (State.failStack s k code) := by
  unfold State.failStack
  (try dsimp only)
  with_reducible repeat' (first | assumption | apply ite_leads | apply State.thermal_leads | apply State.readyFrom_leads | apply State.logFault_leads | apply State.setSink_leads | apply State.modStack_leads | split)

theorem execHbmTempReadout_leads {P : Piece → Prop} {s₀ s : State} (h : s₀.Leads P s) (stack : StackId) (temp : Byte) {t : State} (e : execHbmTempReadout stack temp s = .next t)
    (pHbm : P .hbm) (pNet : P .net) (pPorts : P .ports) (pRas : P .ras) (pPwr : P .pwr) (pOut : P .out) :
    s₀.Leads P t := by
  have _ : Fact (P .hbm) := ⟨pHbm⟩
  have _ : Fact (P .net) := ⟨pNet⟩
  have _ : Fact (P .ports) := ⟨pPorts⟩
  have _ : Fact (P .ras) := ⟨pRas⟩
  have _ : Fact (P .pwr) := ⟨pPwr⟩
  have _ : Fact (P .out) := ⟨pOut⟩
  unfold execHbmTempReadout at e
  cases e
  (try dsimp only)
  with_reducible repeat' (first | assumption | apply ite_leads | apply State.failStack_leads | apply State.thermal_leads | apply State.modStack_leads | split)

theorem State.noteStack_leads {P : Piece → Prop} [Fact (P .ras)] [Fact (P .out)] {s₀ s : State} (h : s₀.Leads P s) (k : StackId) :
    s₀.Leads P (State.noteStack s k) := by
  unfold State.noteStack
  with_reducible repeat' (first | assumption | apply ite_leads | apply State.logFault_leads | split)

theorem State.excuseHeld_leads {P : Piece → Prop} [Fact (P .net)] {s₀ s : State} (h : s₀.Leads P s) (k : StackId) :
    s₀.Leads P (State.excuseHeld s k) := by
  unfold State.excuseHeld
  (try dsimp only)
  with_reducible repeat' (first | assumption | apply ite_leads | apply State.modNet_leads | split)

theorem State.hbmRepairWrite_leads {P : Piece → Prop} [Fact (P .hbm)] [Fact (P .net)] [Fact (P .ras)] [Fact (P .out)] {s₀ s : State} (h : s₀.Leads P s) (stack : StackId) (value : Word) :
    s₀.Leads P (State.hbmRepairWrite s stack value) := by
  unfold State.hbmRepairWrite
  (try dsimp only)
  with_reducible repeat' (first | assumption | apply ite_leads | apply State.excuseHeld_leads | apply State.noteStack_leads | apply State.modStack_leads | split)

theorem execHbmRepair_leads {P : Piece → Prop} {s₀ s : State} (h : s₀.Leads P s) (stack : StackId) (value : Word) {t : State} (e : execHbmRepair stack value s = .next t)
    (pHbm : P .hbm) (pNet : P .net) (pRas : P .ras) (pOut : P .out) :
    s₀.Leads P t := by
  have _ : Fact (P .hbm) := ⟨pHbm⟩
  have _ : Fact (P .net) := ⟨pNet⟩
  have _ : Fact (P .ras) := ⟨pRas⟩
  have _ : Fact (P .out) := ⟨pOut⟩
  unfold execHbmRepair at e
  cases e
  with_reducible repeat' (first | intro _ | assumption | apply ite_leads | apply State.hbmRepairWrite_leads | apply State.byPf0_leads | split)

theorem State.rewriteStrip_leads {P : Piece → Prop} [Fact (P .fields)] [Fact (P .hbm)] [Fact (P .mem)] [Fact (P .ras)] {s₀ s : State} (h : s₀.Leads P s) (k : StackId) (pc : PcId) (strip : Nat) :
    s₀.Leads P (State.rewriteStrip s k pc strip) := by
  unfold State.rewriteStrip
  (try dsimp only)
  with_reducible repeat' (first | intro _ | assumption | apply ite_leads | apply State.readLoc_leads | apply State.storeAt_leads | apply foldl_leads | apply foldl_leads_snd | refine snd_leads (by assumption) ?_ | split)

theorem State.rewriteRow_leads {P : Piece → Prop} [Fact (P .fields)] [Fact (P .hbm)] [Fact (P .mem)] [Fact (P .ras)] {s₀ s : State} (h : s₀.Leads P s) (k : StackId) (pc : PcId) (strip : Nat) :
    s₀.Leads P (State.rewriteRow s k pc strip) := by
  unfold State.rewriteRow
  with_reducible repeat' (first | intro _ | assumption | apply ite_leads | apply State.rewriteStrip_leads | apply foldl_leads | apply foldl_leads_snd | split)

theorem execSoftRepairDone_leads {P : Piece → Prop} {s₀ s : State} (h : s₀.Leads P s) (stack : StackId) (resourceLeft : Bool) {t : State}
    (e : execSoftRepairDone stack resourceLeft s = .next t)
    (pFuse : P .fuse) (pFields : P .fields) (pHbm : P .hbm) (pMem : P .mem) (pRas : P .ras) :
    s₀.Leads P t := by
  have _ : Fact (P .fuse) := ⟨pFuse⟩
  have _ : Fact (P .fields) := ⟨pFields⟩
  have _ : Fact (P .hbm) := ⟨pHbm⟩
  have _ : Fact (P .mem) := ⟨pMem⟩
  have _ : Fact (P .ras) := ⟨pRas⟩
  unfold execSoftRepairDone at e
  injection e with e
  rw [← e]
  refine ite_leads h (ite_leads (State.modStack_leads h _ _) ?_)
  have m := fun a b f => State.modStack_leads (State.rewriteRow_leads h stack a b) stack f
  exact ite_leads (State.modFuse_leads (m _ _ _) _ (Fuses.Rises.repaired _ _)) (m _ _ _)

theorem execStackTrainingAttempt_leads {P : Piece → Prop} {s₀ s : State} (h : s₀.Leads P s) (stack : StackId) {t : State} (e : execStackTrainingAttempt stack s = .next t)
    (pHbm : P .hbm) :
    s₀.Leads P t := by
  have _ : Fact (P .hbm) := ⟨pHbm⟩
  unfold execStackTrainingAttempt at e
  cases e
  (try dsimp only)
  with_reducible repeat' (first | assumption | apply ite_leads | apply State.modStack_leads | split)

theorem State.attemptFails_leads {P : Piece → Prop} [Fact (P .hbm)] [Fact (P .net)] [Fact (P .ports)] [Fact (P .ras)] [Fact (P .pwr)] [Fact (P .out)] {s₀ s : State} (h : s₀.Leads P s) (k : StackId) (code : Byte) :
    s₀.Leads P (State.attemptFails s k code) := by
  unfold State.attemptFails
  with_reducible repeat' (first | assumption | apply ite_leads | apply State.failStack_leads | apply State.modStack_leads | split)

theorem State.excludeChannel_leads {P : Piece → Prop} [Fact (P .hbm)] [Fact (P .ras)] [Fact (P .out)] {s₀ s : State} (h : s₀.Leads P s) (k : StackId) (c : Nat) :
    s₀.Leads P (State.excludeChannel s k c) := by
  unfold State.excludeChannel
  (try dsimp only)
  with_reducible repeat' (first | assumption | apply ite_leads | apply State.addPatch_leads | apply State.logFault_leads | apply State.modStack_leads | split)

theorem State.channelCheck_leads {P : Piece → Prop} [Fact (P .hbm)] [Fact (P .net)] [Fact (P .ports)] [Fact (P .ras)] [Fact (P .pwr)] [Fact (P .out)] {s₀ s : State} (h : s₀.Leads P s) (k : StackId) (failing : Word) :
    s₀.Leads P (State.channelCheck s k failing) := by
  unfold State.channelCheck
  (try dsimp only)
  with_reducible repeat' (first | intro _ | assumption | apply ite_leads | apply State.excludeChannel_leads | apply State.failStack_leads | apply State.modStack_leads | apply foldl_leads | apply foldl_leads_snd | split)

theorem execTrainingStageDone_leads {P : Piece → Prop} {s₀ s : State} (h : s₀.Leads P s) (stack : StackId) (passed : Bool) (failing : Word) {t : State} (e : execTrainingStageDone stack passed failing s = .next t)
    (pFuse : P .fuse) (pHbm : P .hbm) (pNet : P .net) (pPorts : P .ports) (pRas : P .ras) (pPwr : P .pwr) (pOut : P .out) :
    s₀.Leads P t := by
  have _ : Fact (P .fuse) := ⟨pFuse⟩
  have _ : Fact (P .hbm) := ⟨pHbm⟩
  have _ : Fact (P .net) := ⟨pNet⟩
  have _ : Fact (P .ports) := ⟨pPorts⟩
  have _ : Fact (P .ras) := ⟨pRas⟩
  have _ : Fact (P .pwr) := ⟨pPwr⟩
  have _ : Fact (P .out) := ⟨pOut⟩
  unfold execTrainingStageDone at e
  cases e
  with_reducible repeat' (first | assumption | apply ite_leads | apply State.channelCheck_leads | apply State.attemptFails_leads | apply State.modFuse_leads | apply State.modStack_leads | refine snd_leads (by assumption) ?_ | split)
  all_goals first | assumption | exact fun h => h | exact ⟨fun _ h => h, Nat.le_refl _, Nat.le_refl _, Nat.le_refl _, List.prefix_refl _, rfl⟩

theorem execTrainingAttemptTimeout_leads {P : Piece → Prop} {s₀ s : State} (h : s₀.Leads P s) (stack : StackId) {t : State} (e : execTrainingAttemptTimeout stack s = .next t)
    (pHbm : P .hbm) (pNet : P .net) (pPorts : P .ports) (pRas : P .ras) (pPwr : P .pwr) (pOut : P .out) :
    s₀.Leads P t := by
  have _ : Fact (P .hbm) := ⟨pHbm⟩
  have _ : Fact (P .net) := ⟨pNet⟩
  have _ : Fact (P .ports) := ⟨pPorts⟩
  have _ : Fact (P .ras) := ⟨pRas⟩
  have _ : Fact (P .pwr) := ⟨pPwr⟩
  have _ : Fact (P .out) := ⟨pOut⟩
  unfold execTrainingAttemptTimeout at e
  cases e
  with_reducible repeat' (first | assumption | apply ite_leads | apply State.attemptFails_leads | split)

theorem State.fillUnwritten_leads {P : Piece → Prop} [Fact (P .mem)] [Fact (P .ras)] {s₀ s : State} (h : s₀.Leads P s) (lo hi : Nat) :
    s₀.Leads P (State.fillUnwritten s lo hi) := by
  unfold State.fillUnwritten
  with_reducible repeat' (first | assumption | apply ite_leads | split)
  all_goals exact h.stores rfl rfl rfl (fun x => Mem.wf_clear x _ _) rfl (fun x => x)

theorem execStackFillDone_leads {P : Piece → Prop} {s₀ s : State} (h : s₀.Leads P s) (stack : StackId) {t : State} (e : execStackFillDone stack s = .next t)
    (pHbm : P .hbm) (pMem : P .mem) (pNet : P .net) (pPorts : P .ports) (pRas : P .ras) :
    s₀.Leads P t := by
  have _ : Fact (P .hbm) := ⟨pHbm⟩
  have _ : Fact (P .mem) := ⟨pMem⟩
  have _ : Fact (P .net) := ⟨pNet⟩
  have _ : Fact (P .ports) := ⟨pPorts⟩
  have _ : Fact (P .ras) := ⟨pRas⟩
  unfold execStackFillDone at e
  cases e
  (try dsimp only)
  with_reducible repeat' (first | assumption | apply ite_leads | apply State.fillUnwritten_leads | apply State.readyFrom_leads | apply State.setSink_leads | apply State.modStack_leads | split)

theorem execFastTierFillDone_leads {P : Piece → Prop} {s₀ s : State} (h : s₀.Leads P s) (f : FieldId) {t : State} (e : execFastTierFillDone f s = .next t)
    (pFields : P .fields) (pMem : P .mem) (pPorts : P .ports) (pRas : P .ras) :
    s₀.Leads P t := by
  have _ : Fact (P .fields) := ⟨pFields⟩
  have _ : Fact (P .mem) := ⟨pMem⟩
  have _ : Fact (P .ports) := ⟨pPorts⟩
  have _ : Fact (P .ras) := ⟨pRas⟩
  unfold execFastTierFillDone at e
  cases e
  with_reducible repeat' (first | assumption | apply ite_leads | apply State.fillUnwritten_leads | apply State.readyFrom_leads | apply State.modFt_leads | split)

theorem State.hbmRetireWrite_leads {P : Piece → Prop} [Fact (P .hbm)] [Fact (P .ras)] [Fact (P .out)] {s₀ s : State} (h : s₀.Leads P s) (stack : StackId) (value : Word) :
    s₀.Leads P (State.hbmRetireWrite s stack value) := by
  unfold State.hbmRetireWrite
  (try dsimp only)
  with_reducible repeat' (first | assumption | apply ite_leads | apply State.noteStack_leads | apply State.addPatch_leads | apply State.logMem_leads | apply State.logFault_leads | apply State.modStack_leads | split)

theorem execHbmRetire_leads {P : Piece → Prop} {s₀ s : State} (h : s₀.Leads P s) (stack : StackId) (value : Word) {t : State} (e : execHbmRetire stack value s = .next t)
    (pHbm : P .hbm) (pRas : P .ras) (pOut : P .out) :
    s₀.Leads P t := by
  have _ : Fact (P .hbm) := ⟨pHbm⟩
  have _ : Fact (P .ras) := ⟨pRas⟩
  have _ : Fact (P .out) := ⟨pOut⟩
  unfold execHbmRetire at e
  cases e
  with_reducible repeat' (first | intro _ | assumption | apply ite_leads | apply State.hbmRetireWrite_leads | apply State.byPf0_leads | split)

theorem State.stackTakenOut_leads {P : Piece → Prop} [Fact (P .hbm)] [Fact (P .net)] [Fact (P .ports)] {s₀ s : State} (h : s₀.Leads P s) (k : StackId) (stage : TrainStage) (st : BitVec 3) :
    s₀.Leads P (State.stackTakenOut s k stage st) := by
  unfold State.stackTakenOut
  with_reducible repeat' (first | assumption | apply ite_leads | apply State.readyFrom_leads | apply State.setSink_leads | apply State.modStack_leads | split)

theorem State.hbmTestWrite_leads {P : Piece → Prop} [Fact (P .hbm)] [Fact (P .net)] [Fact (P .ports)] [Fact (P .ras)] [Fact (P .out)] {s₀ s : State} (h : s₀.Leads P s) (k : StackId) (value : Word) :
    s₀.Leads P (State.hbmTestWrite s k value) := by
  unfold State.hbmTestWrite
  (try dsimp only)
  with_reducible repeat' (first | assumption | apply ite_leads | apply State.stackTakenOut_leads | apply State.noteStack_leads | apply State.modStack_leads | split)

theorem execHbmTestRetrain_leads {P : Piece → Prop} {s₀ s : State} (h : s₀.Leads P s) (stack : StackId) (value : Word) {t : State} (e : execHbmTestRetrain stack value s = .next t)
    (pHbm : P .hbm) (pNet : P .net) (pPorts : P .ports) (pRas : P .ras) (pOut : P .out) :
    s₀.Leads P t := by
  have _ : Fact (P .hbm) := ⟨pHbm⟩
  have _ : Fact (P .net) := ⟨pNet⟩
  have _ : Fact (P .ports) := ⟨pPorts⟩
  have _ : Fact (P .ras) := ⟨pRas⟩
  have _ : Fact (P .out) := ⟨pOut⟩
  unfold execHbmTestRetrain at e
  cases e
  with_reducible repeat' (first | intro _ | assumption | apply ite_leads | apply State.hbmTestWrite_leads | apply State.byPf0_leads | split)

theorem execHbmTestSelftest_leads {P : Piece → Prop} {s₀ s : State} (h : s₀.Leads P s) (stack : StackId) (value : Word) {t : State} (e : execHbmTestSelftest stack value s = .next t)
    (pHbm : P .hbm) (pNet : P .net) (pPorts : P .ports) (pRas : P .ras) (pOut : P .out) :
    s₀.Leads P t := by
  have _ : Fact (P .hbm) := ⟨pHbm⟩
  have _ : Fact (P .net) := ⟨pNet⟩
  have _ : Fact (P .ports) := ⟨pPorts⟩
  have _ : Fact (P .ras) := ⟨pRas⟩
  have _ : Fact (P .out) := ⟨pOut⟩
  unfold execHbmTestSelftest at e
  cases e
  with_reducible repeat' (first | intro _ | assumption | apply ite_leads | apply State.hbmTestWrite_leads | apply State.byPf0_leads | split)

theorem execStackSelftestDone_leads {P : Piece → Prop} {s₀ s : State} (h : s₀.Leads P s) (stack : StackId) (passed : Bool) {t : State} (e : execStackSelftestDone stack passed s = .next t)
    (pHbm : P .hbm) :
    s₀.Leads P t := by
  have _ : Fact (P .hbm) := ⟨pHbm⟩
  unfold execStackSelftestDone at e
  cases e
  with_reducible repeat' (first | assumption | apply ite_leads | apply State.modStack_leads | split)

theorem execHbmTestRate8g_leads {P : Piece → Prop} {s₀ s : State} (h : s₀.Leads P s) (stack : StackId) (value : Word) {t : State} (e : execHbmTestRate8g stack value s = .next t)
    (pHbm : P .hbm) (pNet : P .net) (pPorts : P .ports) (pRas : P .ras) (pOut : P .out) :
    s₀.Leads P t := by
  have _ : Fact (P .hbm) := ⟨pHbm⟩
  have _ : Fact (P .net) := ⟨pNet⟩
  have _ : Fact (P .ports) := ⟨pPorts⟩
  have _ : Fact (P .ras) := ⟨pRas⟩
  have _ : Fact (P .out) := ⟨pOut⟩
  unfold execHbmTestRate8g at e
  cases e
  with_reducible repeat' (first | intro _ | assumption | apply ite_leads | apply State.hbmTestWrite_leads | apply State.byPf0_leads | split)

end Sys2Proof.Machine
end

