-- ==== Sys2Proof/Laws/LeadsIntegrity.lean ====
section
/-!
SUPPORT. What the operations of Machine/Integrity.lean keep (State.Leads).
-/

set_option linter.unusedTactic false
set_option linter.unreachableTactic false
set_option linter.unusedVariables false

set_option Elab.async false

namespace Sys2Proof.Machine

theorem State.skimWord_leads {P : Piece → Prop} [Fact (P .fields)] [Fact (P .hbm)] [Fact (P .mem)] [Fact (P .ras)] {s₀ s : State} (h : s₀.Leads P s) (f : FieldId) (l : Loc) (flips : BitVec 544) :
    s₀.Leads P (State.skimWord s f l flips) := by
  unfold State.skimWord
  (try dsimp only)
  with_reducible repeat' (first | assumption | apply ite_leads | apply State.fallback_leads | apply State.readLoc_leads | split)

theorem State.skimWords_leads {P : Piece → Prop} [Fact (P .fields)] [Fact (P .hbm)] [Fact (P .mem)] [Fact (P .ras)] {s₀ : State} : ∀ (x : List Loc) (f : FieldId) (errors : List RawError) (i : Nat) {s : State}, s₀.Leads P s → s₀.Leads P (State.skimWords s f errors i x) := by
  intro x
  induction x with
  | nil =>
    intro f errors i s h
    unfold State.skimWords; (try dsimp only)
    with_reducible repeat' (first | assumption | apply ite_leads | apply State.skimWord_leads | apply ih | refine snd_leads (by assumption) ?_ | split)
  | cons y ys ih =>
    intro f errors i s h
    unfold State.skimWords; (try dsimp only)
    with_reducible repeat' (first | assumption | apply ite_leads | apply State.skimWord_leads | apply ih | refine snd_leads (by assumption) ?_ | split)

theorem execSkimHbmStrip_leads {P : Piece → Prop} {s₀ s : State} (h : s₀.Leads P s) (stack : StackId) (errors : List RawError) {t : State} (e : execSkimHbmStrip stack errors s = .next t)
    (pFields : P .fields) (pHbm : P .hbm) (pMem : P .mem) (pRas : P .ras) :
    s₀.Leads P t := by
  have _ : Fact (P .fields) := ⟨pFields⟩
  have _ : Fact (P .hbm) := ⟨pHbm⟩
  have _ : Fact (P .mem) := ⟨pMem⟩
  have _ : Fact (P .ras) := ⟨pRas⟩
  unfold execSkimHbmStrip at e
  cases e
  (try dsimp only)
  with_reducible repeat' (first | assumption | apply ite_leads | apply State.skimWords_leads | apply State.modStack_leads | split)

theorem execSkimFtRow_leads {P : Piece → Prop} {s₀ s : State} (h : s₀.Leads P s) (f : FieldId) (errors : List RawError) {t : State} (e : execSkimFtRow f errors s = .next t)
    (pFields : P .fields) (pHbm : P .hbm) (pMem : P .mem) (pRas : P .ras) :
    s₀.Leads P t := by
  have _ : Fact (P .fields) := ⟨pFields⟩
  have _ : Fact (P .hbm) := ⟨pHbm⟩
  have _ : Fact (P .mem) := ⟨pMem⟩
  have _ : Fact (P .ras) := ⟨pRas⟩
  unfold execSkimFtRow at e
  cases e
  (try dsimp only)
  with_reducible repeat' (first | assumption | apply ite_leads | apply State.skimWords_leads | apply State.modFt_leads | split)

theorem State.primerGo_leads {P : Piece → Prop} [Fact (P .ras)] [Fact (P .out)] {s₀ s : State} (h : s₀.Leads P s) (n : Fin 8) (value : Word) :
    s₀.Leads P (State.primerGo s n value) := by
  unfold State.primerGo
  (try dsimp only)
  with_reducible repeat' (first | assumption | apply ite_leads | apply State.note_leads | apply State.modPrimer_leads | refine snd_leads (by assumption) ?_ | split)

theorem State.primerTally_leads {P : Piece → Prop} [Fact (P .net)] {s₀ s : State} (h : s₀.Leads P s) (n : Fin 8) (l : Loc) :
    s₀.Leads P (State.primerTally s n l) := by
  unfold State.primerTally
  with_reducible repeat' (first | assumption | apply ite_leads | apply State.tally_leads | split)

theorem State.primerWrite_leads {P : Piece → Prop} [Fact (P .hbm)] [Fact (P .mem)] [Fact (P .net)] [Fact (P .ras)] [Fact (P .twin)] {s₀ s : State} (h : s₀.Leads P s) (n : Fin 8) (pa : BitVec 52) (w : CodeWord) :
    s₀.Leads P (State.primerWrite s n pa w) := by
  unfold State.primerWrite
  with_reducible repeat' (first | assumption | apply ite_leads | apply State.primerTally_leads | apply State.putCode_leads | refine snd_leads (by assumption) ?_ | split)

theorem State.primerRead_leads {P : Piece → Prop} [Fact (P .fields)] [Fact (P .hbm)] [Fact (P .mem)] [Fact (P .net)] [Fact (P .ras)] {s₀ s : State} (h : s₀.Leads P s) (n : Fin 8) (pa : BitVec 52) (check : Bool) (flips : BitVec 544) :
    s₀.Leads P (State.primerRead s n pa check flips) := by
  unfold State.primerRead
  (try dsimp only)
  with_reducible repeat' (first | assumption | apply ite_leads | apply State.primerTally_leads | apply State.fallback_leads | apply State.acted_leads | apply State.strike_leads | apply State.countErr_leads | apply State.modPrimer_leads | refine snd_leads (by assumption) ?_ | split)

theorem State.primerRun_leads {P : Piece → Prop} [Fact (P .ras)] {s₀ s : State} (h : s₀.Leads P s) (n : Fin 8) (words : Nat) (f : State → BitVec 52 → Nat → State) (kf : ∀ x0 x1 x2, s₀.Leads P x0 → s₀.Leads P (f x0 x1 x2)) :
    s₀.Leads P (State.primerRun s n words f) := by
  unfold State.primerRun
  (try dsimp only)
  with_reducible repeat' (first | intro _ | assumption | apply ite_leads | apply State.modPrimer_leads | apply kf | apply foldl_leads | apply foldl_leads_snd | split)

theorem execPrimerZero_leads {P : Piece → Prop} {s₀ s : State} (h : s₀.Leads P s) (slot : Fin 8) (value : Word) (words : Nat) {t : State} (e : execPrimerZero slot value words s = .next t)
    (pHbm : P .hbm) (pMem : P .mem) (pNet : P .net) (pRas : P .ras) (pTwin : P .twin) (pOut : P .out) :
    s₀.Leads P t := by
  have _ : Fact (P .hbm) := ⟨pHbm⟩
  have _ : Fact (P .mem) := ⟨pMem⟩
  have _ : Fact (P .net) := ⟨pNet⟩
  have _ : Fact (P .ras) := ⟨pRas⟩
  have _ : Fact (P .twin) := ⟨pTwin⟩
  have _ : Fact (P .out) := ⟨pOut⟩
  unfold execPrimerZero at e
  cases e
  with_reducible repeat' (first | intro _ | assumption | apply ite_leads | apply State.primerRun_leads | apply State.primerWrite_leads | apply State.primerGo_leads | apply State.byPf0_leads | split)

theorem execPrimerCheck_leads {P : Piece → Prop} {s₀ s : State} (h : s₀.Leads P s) (slot : Fin 8) (value : Word) (words : Nat) (errors : List RawError) {t : State} (e : execPrimerCheck slot value words errors s = .next t)
    (pFields : P .fields) (pHbm : P .hbm) (pMem : P .mem) (pNet : P .net) (pRas : P .ras) (pOut : P .out) :
    s₀.Leads P t := by
  have _ : Fact (P .fields) := ⟨pFields⟩
  have _ : Fact (P .hbm) := ⟨pHbm⟩
  have _ : Fact (P .mem) := ⟨pMem⟩
  have _ : Fact (P .net) := ⟨pNet⟩
  have _ : Fact (P .ras) := ⟨pRas⟩
  have _ : Fact (P .out) := ⟨pOut⟩
  unfold execPrimerCheck at e
  cases e
  with_reducible repeat' (first | intro _ | assumption | apply ite_leads | apply State.primerRun_leads | apply State.primerRead_leads | apply State.primerGo_leads | apply State.byPf0_leads | split)

theorem execPrimerSummarise_leads {P : Piece → Prop} {s₀ s : State} (h : s₀.Leads P s) (slot : Fin 8) (value : Word) (words : Nat) (errors : List RawError) {t : State} (e : execPrimerSummarise slot value words errors s = .next t)
    (pFields : P .fields) (pHbm : P .hbm) (pMem : P .mem) (pNet : P .net) (pRas : P .ras) (pOut : P .out) :
    s₀.Leads P t := by
  have _ : Fact (P .fields) := ⟨pFields⟩
  have _ : Fact (P .hbm) := ⟨pHbm⟩
  have _ : Fact (P .mem) := ⟨pMem⟩
  have _ : Fact (P .net) := ⟨pNet⟩
  have _ : Fact (P .ras) := ⟨pRas⟩
  have _ : Fact (P .out) := ⟨pOut⟩
  unfold execPrimerSummarise at e
  cases e
  with_reducible repeat' (first | intro _ | assumption | apply ite_leads | apply State.primerRun_leads | apply State.primerRead_leads | apply State.primerGo_leads | apply State.byPf0_leads | split)

theorem execPrimerMark_leads {P : Piece → Prop} {s₀ s : State} (h : s₀.Leads P s) (slot : Fin 8) (value : Word) (words : Nat) {t : State} (e : execPrimerMark slot value words s = .next t)
    (pHbm : P .hbm) (pMem : P .mem) (pNet : P .net) (pRas : P .ras) (pTwin : P .twin) (pOut : P .out) :
    s₀.Leads P t := by
  have _ : Fact (P .hbm) := ⟨pHbm⟩
  have _ : Fact (P .mem) := ⟨pMem⟩
  have _ : Fact (P .net) := ⟨pNet⟩
  have _ : Fact (P .ras) := ⟨pRas⟩
  have _ : Fact (P .twin) := ⟨pTwin⟩
  have _ : Fact (P .out) := ⟨pOut⟩
  unfold execPrimerMark at e
  cases e
  with_reducible repeat' (first | intro _ | assumption | apply ite_leads | apply State.primerRun_leads | apply State.primerWrite_leads | apply State.primerGo_leads | apply State.byPf0_leads | split)

theorem State.primerAbort_leads {P : Piece → Prop} [Fact (P .ras)] {s₀ s : State} (h : s₀.Leads P s) (slot : Fin 8) :
    s₀.Leads P (State.primerAbort s slot) := by
  unfold State.primerAbort
  with_reducible repeat' (first | assumption | apply ite_leads | apply State.modPrimer_leads | split)

theorem execPrimerAbort_leads {P : Piece → Prop} {s₀ s : State} (h : s₀.Leads P s) (slot : Fin 8) {t : State} (e : execPrimerAbort slot s = .next t)
    (pRas : P .ras) :
    s₀.Leads P t := by
  have _ : Fact (P .ras) := ⟨pRas⟩
  unfold execPrimerAbort at e
  cases e
  with_reducible repeat' (first | intro _ | assumption | apply ite_leads | apply State.primerAbort_leads | apply State.byPf0_leads | split)

theorem execPrimerDone_leads {P : Piece → Prop} {s₀ s : State} (h : s₀.Leads P s) (slot : Fin 8) {t : State} (e : execPrimerDone slot s = .next t)
    (pRas : P .ras) :
    s₀.Leads P t := by
  have _ : Fact (P .ras) := ⟨pRas⟩
  unfold execPrimerDone at e
  cases e
  (try dsimp only)
  with_reducible repeat' (first | assumption | apply ite_leads | apply State.modPrimer_leads | split)

theorem State.mlogPop_leads {P : Piece → Prop} [Fact (P .ras)] {s₀ s : State} (h : s₀.Leads P s) (value : Word) :
    s₀.Leads P (State.mlogPop s value) := by
  unfold State.mlogPop
  with_reducible repeat' (first | assumption | apply ite_leads | apply State.modRas_leads | split)
  all_goals exact fun k => ⟨by dsimp only; rw [List.length_drop]; exact Nat.le_trans (Nat.sub_le _ _) k.1, k.2⟩

theorem execRasMlogPop_leads {P : Piece → Prop} {s₀ s : State} (h : s₀.Leads P s) (value : Word) {t : State} (e : execRasMlogPop value s = .next t)
    (pRas : P .ras) :
    s₀.Leads P t := by
  have _ : Fact (P .ras) := ⟨pRas⟩
  unfold execRasMlogPop at e
  cases e
  with_reducible repeat' (first | intro _ | assumption | apply ite_leads | apply State.mlogPop_leads | apply State.byPf0_leads | split)

theorem State.copyWord_leads {P : Piece → Prop} [Fact (P .fields)] [Fact (P .hbm)] [Fact (P .mem)] [Fact (P .ras)] {s₀ s : State} (h : s₀.Leads P s) (g : Agent) (x : Loc × Nat) : s₀.Leads P (s.copyWord g x) :=
  (State.readLoc_leads h x.1 g 0 _).stores rfl rfl rfl (fun y => Mem.wf_put y _ _) rfl (fun y => y)

theorem State.pageRetire_leads {P : Piece → Prop} [Fact (P .hbm)] [Fact (P .ras)] [Fact (P .out)] {s₀ s : State} (h : s₀.Leads P s) (stack : StackId) (value : Word) :
    s₀.Leads P (State.pageRetire s stack value) := by
  unfold State.pageRetire
  (try dsimp only)
  with_reducible repeat' (first | assumption | apply ite_leads | apply State.noteStack_leads | apply State.logMem_leads | apply State.modStack_leads | split)

theorem execHbmPageRetire_leads {P : Piece → Prop} {s₀ s : State} (h : s₀.Leads P s) (stack : StackId) (value : Word) {t : State} (e : execHbmPageRetire stack value s = .next t)
    (pHbm : P .hbm) (pRas : P .ras) (pOut : P .out) :
    s₀.Leads P t := by
  have _ : Fact (P .hbm) := ⟨pHbm⟩
  have _ : Fact (P .ras) := ⟨pRas⟩
  have _ : Fact (P .out) := ⟨pOut⟩
  unfold execHbmPageRetire at e
  cases e
  with_reducible repeat' (first | intro _ | assumption | apply ite_leads | apply State.pageRetire_leads | apply State.byPf0_leads | split)

theorem State.retirePage_leads {P : Piece → Prop} [Fact (P .fields)] [Fact (P .hbm)] [Fact (P .mem)] [Fact (P .ras)] [Fact (P .out)] {s₀ s : State} (h : s₀.Leads P s) (k : StackId) (pc : PcId) (page : Nat) :
    s₀.Leads P (s.retirePage k pc page) := by
  unfold State.retirePage
  refine State.modStack_leads (State.logMem_leads (State.addPatch_leads (State.logFault_leads (State.modRas_leads ?_ _ fun h => RasState.dropFixes_inRange h _ _) _) _ _ _ _) _) _ _
  refine foldl_leads (fun t x m => State.copyWord_leads m _ _) _ (State.modStack_leads ?_ _ _)
  exact foldl_leads (fun t x m => State.storeAt_leads m _ _) _ h

theorem execPageCopyDone_leads {P : Piece → Prop} {s₀ s : State} (h : s₀.Leads P s) (stack : StackId) {t : State} (e : execPageCopyDone stack s = .next t)
    (pFields : P .fields) (pHbm : P .hbm) (pMem : P .mem) (pRas : P .ras) (pOut : P .out) :
    s₀.Leads P t := by
  have _ : Fact (P .fields) := ⟨pFields⟩
  have _ : Fact (P .hbm) := ⟨pHbm⟩
  have _ : Fact (P .mem) := ⟨pMem⟩
  have _ : Fact (P .ras) := ⟨pRas⟩
  have _ : Fact (P .out) := ⟨pOut⟩
  unfold execPageCopyDone at e
  cases e
  (try dsimp only)
  with_reducible repeat' (first | assumption | apply ite_leads | apply State.retirePage_leads | split)

theorem State.fenceBank_leads {P : Piece → Prop} [Fact (P .fields)] [Fact (P .ras)] [Fact (P .out)] {s₀ s : State} (h : s₀.Leads P s) (f : FieldId) (b : BankId) :
    s₀.Leads P (State.fenceBank s f b) := by
  unfold State.fenceBank
  (try dsimp only)
  with_reducible repeat' (first | assumption | apply ite_leads | apply State.addPatch_leads | apply State.logMem_leads | apply State.logFault_leads | apply State.modFt_leads | split)

theorem State.bankRetire_leads {P : Piece → Prop} [Fact (P .fields)] [Fact (P .ras)] [Fact (P .out)] {s₀ s : State} (h : s₀.Leads P s) (f : FieldId) (value : Word) :
    s₀.Leads P (State.bankRetire s f value) := by
  unfold State.bankRetire
  (try dsimp only)
  with_reducible repeat' (first | assumption | apply ite_leads | apply State.fenceBank_leads | apply State.logFault_leads | apply State.modFt_leads | refine snd_leads (by assumption) ?_ | split)

theorem execFtBankRetire_leads {P : Piece → Prop} {s₀ s : State} (h : s₀.Leads P s) (f : FieldId) (value : Word) {t : State} (e : execFtBankRetire f value s = .next t)
    (pFields : P .fields) (pRas : P .ras) (pOut : P .out) :
    s₀.Leads P t := by
  have _ : Fact (P .fields) := ⟨pFields⟩
  have _ : Fact (P .ras) := ⟨pRas⟩
  have _ : Fact (P .out) := ⟨pOut⟩
  unfold execFtBankRetire at e
  cases e
  with_reducible repeat' (first | intro _ | assumption | apply ite_leads | apply State.bankRetire_leads | apply State.byPf0_leads | split)

theorem State.replaceBank_leads {P : Piece → Prop} [Fact (P .fields)] [Fact (P .hbm)] [Fact (P .mem)] [Fact (P .ras)] [Fact (P .out)] {s₀ s : State} (h : s₀.Leads P s) (f : FieldId) (b : BankId) (new : Nat) :
    s₀.Leads P (s.replaceBank f b new) := by
  unfold State.replaceBank
  refine State.modFt_leads (State.logMem_leads (State.addPatch_leads (State.logFault_leads (State.modRas_leads ?_ _ fun h => RasState.dropFixes_inRange h _ _) _) _ _ _ _) _) _ _
  exact foldl_leads (fun t x m => State.copyWord_leads m _ _) _ h

theorem execBankCopyDone_leads {P : Piece → Prop} {s₀ s : State} (h : s₀.Leads P s) (f : FieldId) {t : State} (e : execBankCopyDone f s = .next t)
    (pFields : P .fields) (pHbm : P .hbm) (pMem : P .mem) (pRas : P .ras) (pOut : P .out) :
    s₀.Leads P t := by
  have _ : Fact (P .fields) := ⟨pFields⟩
  have _ : Fact (P .hbm) := ⟨pHbm⟩
  have _ : Fact (P .mem) := ⟨pMem⟩
  have _ : Fact (P .ras) := ⟨pRas⟩
  have _ : Fact (P .out) := ⟨pOut⟩
  unfold execBankCopyDone at e
  cases e
  (try dsimp only)
  with_reducible repeat' (first | assumption | apply ite_leads | apply State.replaceBank_leads | refine snd_leads (by assumption) ?_ | split)

end Sys2Proof.Machine
end

