-- ==== Sys2Proof/Laws/LeadsSitePort.lean ====
section
/-!
SUPPORT. What the operations of Machine/SitePort.lean keep (State.Leads).
-/

set_option linter.unusedTactic false
set_option linter.unreachableTactic false
set_option linter.unusedVariables false

set_option Elab.async false

namespace Sys2Proof.Machine

theorem State.haltInvs_leads {P : Piece → Prop} [Fact (P .arrays)] [Fact (P .ports)] [Fact (P .pnl)] {s₀ s : State} (h : s₀.Leads P s) (status : Byte) (p : QRef → Taken → Bool) :
    s₀.Leads P (State.haltInvs s status p) := by
  unfold State.haltInvs
  with_reducible repeat' (first | intro _ | assumption | apply ite_leads | apply State.endInv_leads | apply foldl_leads | apply foldl_leads_snd | refine snd_leads (by assumption) ?_ | split)

theorem State.endWaiting_leads {P : Piece → Prop} [Fact (P .ports)] [Fact (P .twin)] [Fact (P .out)] {s₀ s : State} (h : s₀.Leads P s) (n : SiteId) :
    s₀.Leads P (State.endWaiting s n) := by
  unfold State.endWaiting
  with_reducible repeat' (first | intro _ | assumption | apply ite_leads | apply State.finishInv_leads | apply foldl_leads | apply foldl_leads_snd | refine snd_leads (by assumption) ?_ | split)

theorem State.tellSite_leads {P : Piece → Prop} [Fact (P .out)] {s₀ s : State} (h : s₀.Leads P s) (n : SiteId) (code : Byte) (payload : Nat) :
    s₀.Leads P (State.tellSite s n code payload) := by
  unfold State.tellSite
  with_reducible repeat' (first | assumption | apply ite_leads | apply State.emit_leads | split)

theorem State.siteSevere_leads {P : Piece → Prop} [Fact (P .ports)] [Fact (P .ras)] [Fact (P .out)] {s₀ s : State} (h : s₀.Leads P s) (n : SiteId) (code : Byte) :
    s₀.Leads P (State.siteSevere s n code) := by
  unfold State.siteSevere
  with_reducible repeat' (first | assumption | apply ite_leads | apply State.irq_leads | apply State.logFault_leads | split)

theorem State.killHalf_leads {P : Piece → Prop} [Fact (P .arrays)] [Fact (P .fields)] [Fact (P .hbm)] [Fact (P .mem)] [Fact (P .net)] [Fact (P .coh)] [Fact (P .sites)] [Fact (P .ports)] [Fact (P .pnl)] [Fact (P .ras)] [Fact (P .twin)] [Fact (P .out)] {s₀ s : State} (h : s₀.Leads P s) (n : SiteId) (code : Byte) :
    s₀.Leads P (State.killHalf s n code) := by
  unfold State.killHalf
  (try dsimp only)
  with_reducible repeat' (first | intro _ | assumption | apply ite_leads | apply State.siteSevere_leads | apply State.endWaiting_leads | apply State.haltInvs_leads | apply State.killAgent_leads | apply State.readyFrom_leads | apply State.setSink_leads | apply State.modSite_leads | apply foldl_leads | apply foldl_leads_snd | split)

theorem State.refuseHalf_leads {P : Piece → Prop} [Fact (P .sites)] [Fact (P .ports)] [Fact (P .ras)] [Fact (P .out)] {s₀ s : State} (h : s₀.Leads P s) (n : SiteId) (code : Byte) :
    s₀.Leads P (State.refuseHalf s n code) := by
  unfold State.refuseHalf
  with_reducible repeat' (first | assumption | apply ite_leads | apply State.siteSevere_leads | apply State.tellSite_leads | apply State.modSite_leads | split)

theorem State.endHalf_leads {P : Piece → Prop} [Fact (P .arrays)] [Fact (P .fields)] [Fact (P .hbm)] [Fact (P .mem)] [Fact (P .net)] [Fact (P .coh)] [Fact (P .sites)] [Fact (P .ports)] [Fact (P .pnl)] [Fact (P .ras)] [Fact (P .twin)] [Fact (P .out)] {s₀ s : State} (h : s₀.Leads P s) (n : SiteId) (code : Byte) :
    s₀.Leads P (State.endHalf s n code) := by
  unfold State.endHalf
  with_reducible repeat' (first | assumption | apply ite_leads | apply State.refuseHalf_leads | apply State.killHalf_leads | split)

theorem State.endSite_leads {P : Piece → Prop} [Fact (P .arrays)] [Fact (P .fields)] [Fact (P .hbm)] [Fact (P .mem)] [Fact (P .net)] [Fact (P .coh)] [Fact (P .sites)] [Fact (P .ports)] [Fact (P .pnl)] [Fact (P .ras)] [Fact (P .twin)] [Fact (P .out)] {s₀ s : State} (h : s₀.Leads P s) (n : SiteId) (code : Byte) :
    s₀.Leads P (State.endSite s n code) := by
  unfold State.endSite
  (try dsimp only)
  with_reducible repeat' (first | assumption | apply ite_leads | apply State.endHalf_leads | refine snd_leads (by assumption) ?_ | split)

theorem State.killSite_leads {P : Piece → Prop} [Fact (P .arrays)] [Fact (P .fields)] [Fact (P .hbm)] [Fact (P .mem)] [Fact (P .net)] [Fact (P .coh)] [Fact (P .sites)] [Fact (P .ports)] [Fact (P .pnl)] [Fact (P .ras)] [Fact (P .twin)] [Fact (P .out)] {s₀ s : State} (h : s₀.Leads P s) (n : SiteId) (code : Byte) :
    s₀.Leads P (State.killSite s n code) := by
  unfold State.killSite
  with_reducible repeat' (first | assumption | apply ite_leads | apply State.endSite_leads | split)

theorem State.stackSunk_leads {P : Piece → Prop} [Fact (P .hbm)] {s₀ s : State} (h : s₀.Leads P s) (f : FieldId) (ni : NiId) :
    s₀.Leads P (State.stackSunk s f ni) := by
  unfold State.stackSunk
  with_reducible repeat' (first | assumption | apply ite_leads | apply State.modStack_leads | split)

theorem State.isolateNi_leads {P : Piece → Prop} [Fact (P .arrays)] [Fact (P .fields)] [Fact (P .hbm)] [Fact (P .mem)] [Fact (P .net)] [Fact (P .coh)] [Fact (P .sites)] [Fact (P .ports)] [Fact (P .pnl)] [Fact (P .ras)] [Fact (P .twin)] [Fact (P .out)] {s₀ s : State} (h : s₀.Leads P s) (f : FieldId) (ni : NiId) :
    s₀.Leads P (State.isolateNi s f ni) := by
  unfold State.isolateNi
  with_reducible repeat' (first | assumption | apply ite_leads | apply State.stackSunk_leads | apply State.killSite_leads | apply State.retireArray_leads | apply State.seqFault_leads | apply State.readyFrom_leads | apply State.logFault_leads | apply State.setSink_leads | refine snd_leads (by assumption) ?_ | split)

theorem State.siteSend_leads {P : Piece → Prop} [Fact (P .sites)] [Fact (P .out)] {s₀ s : State} (h : s₀.Leads P s) (n : SiteId) (id : TxId) (write : Bool) (off : Nat) (ws : List CodeWord)
    (c : Nat × Nat) {u : State} (e : s.siteSend n id write off ws c = some u) : s₀.Leads P u := by
  unfold State.siteSend at e
  obtain ⟨r, -, j⟩ := Option.map_eq_some_iff.mp e
  exact j ▸ State.modSite_leads (State.emit_leads h _) _ _

theorem State.siteSendAll_leads {P : Piece → Prop} [Fact (P .sites)] [Fact (P .out)] {s₀ : State} : ∀ (x : List (Nat × Nat)) (n : SiteId) (id : TxId) (write : Bool) (off : Nat)
    (ws : List CodeWord) {s : State}, s₀.Leads P s → ∀ {u : State}, s.siteSendAll n id write off ws x = some u → s₀.Leads P u := by
  intro x
  induction x with
  | nil => intro n id write off ws s h u e; unfold State.siteSendAll at e; rw [Option.some.injEq] at e; exact e ▸ h
  | cons y ys ih =>
    intro n id write off ws s h u e
    unfold State.siteSendAll at e
    obtain ⟨t, k, j⟩ := Option.bind_eq_some_iff.mp e
    exact ih n id write off ws (State.siteSend_leads h n id write off ws y k) j

theorem State.awaitTxn_leads {P : Piece → Prop} [Fact (P .net)] {s₀ s : State} (h : s₀.Leads P s) (id : TxId) (n : Nat) :
    s₀.Leads P (State.awaitTxn s id n) := by
  unfold State.awaitTxn
  with_reducible repeat' (first | intro _ | assumption | apply ite_leads | apply State.modTxn_leads | split)

theorem State.siteRefuse_leads {P : Piece → Prop} [Fact (P .net)] [Fact (P .ras)] {s₀ s : State} (h : s₀.Leads P s) (t : Txn) (st : BitVec 3) :
    s₀.Leads P (State.siteRefuse s t st) := by
  unfold State.siteRefuse
  with_reducible repeat' (first | assumption | apply ite_leads | apply State.refuseTxn_leads | apply State.unbackedEvent_leads | split)

theorem State.siteDeliver_leads {P : Piece → Prop} [Fact (P .net)] [Fact (P .sites)] [Fact (P .ras)] [Fact (P .out)] {s₀ s : State} (h : s₀.Leads P s) (t : Txn) (n : SiteId) : s₀.Leads P (s.siteDeliver t n) := by
  unfold State.siteDeliver
  dsimp only
  refine ite_leads (State.siteRefuse_leads h _ _) ?_
  split
  · split
    · exact State.siteRefuse_leads h _ _
    · exact getD_leads h fun u e => State.siteSendAll_leads _ _ _ _ _ _ (State.awaitTxn_leads h _ _) e
  · split
    · exact State.refuseTxn_leads (State.logMem_leads h _) _ _
    · split
      · exact State.siteRefuse_leads h _ _
      · exact State.awaitTxn_leads h _ _
      · exact getD_leads h fun u e => State.siteSendAll_leads _ _ _ _ _ _ (State.awaitTxn_leads h _ _) e
  · exact State.siteRefuse_leads h _ _
  · exact State.awaitTxn_leads h _ _

theorem State.siteRemember_leads {P : Piece → Prop} [Fact (P .net)] {s₀ s : State} (h : s₀.Leads P s) (n : SiteId) (id : TxId) (status : BitVec 3) :
    s₀.Leads P (State.siteRemember s n id status) := by
  unfold State.siteRemember
  with_reducible repeat' (first | assumption | apply ite_leads | apply State.remember_leads | refine snd_leads (by assumption) ?_ | split)

theorem State.siteSettle_leads {P : Piece → Prop} [Fact (P .net)] {s₀ s : State} (h : s₀.Leads P s) (n : SiteId) (id : TxId) :
    s₀.Leads P (State.siteSettle s n id) := by
  unfold State.siteSettle
  with_reducible repeat' (first | assumption | apply ite_leads | apply State.siteRemember_leads | apply State.modTxn_leads | refine snd_leads (by assumption) ?_ | split)

theorem State.siteAnswered_leads {P : Piece → Prop} [Fact (P .net)] [Fact (P .sites)] {s₀ s : State} (h : s₀.Leads P s) (n : SiteId) (r : SiteReq) (status : BitVec 3) (ws : List CodeWord) :
    s₀.Leads P (State.siteAnswered s n r status ws) := by
  unfold State.siteAnswered
  (try dsimp only)
  with_reducible repeat' (first | intro _ | assumption | apply ite_leads | apply State.siteSettle_leads | apply State.modTxn_leads | apply State.modSite_leads | refine snd_leads (by assumption) ?_ | split)

theorem State.siteGiveUp_leads {P : Piece → Prop} [Fact (P .net)] [Fact (P .sites)] {s₀ s : State} (h : s₀.Leads P s) (n : SiteId) (id : TxId) :
    s₀.Leads P (State.siteGiveUp s n id) := by
  unfold State.siteGiveUp
  (try dsimp only)
  with_reducible repeat' (first | assumption | apply ite_leads | apply State.refuseTxn_leads | apply State.modSite_leads | refine snd_leads (by assumption) ?_ | split)

theorem State.releaseHeld_leads {P : Piece → Prop} [Fact (P .sites)] [Fact (P .out)] {s₀ : State} : ∀ (fuel : Nat) {s : State}, s₀.Leads P s → ∀ (n : SiteId) (p : Fin 16), s₀.Leads P (s.releaseHeld n p fuel) := by
  intro fuel
  induction fuel with
  | zero => intro s h n p; unfold State.releaseHeld; exact h
  | succ n ih =>
    intro s h n p
    unfold State.releaseHeld
    (try dsimp only)
    with_reducible repeat' (first | intro _ | assumption | apply ite_leads | apply ih | refine State.siteSendAll_leads _ _ _ _ _ _ ?_ (by assumption) | apply State.modSite_leads | refine snd_leads (by assumption) ?_ | split)

theorem State.twinSend_leads {P : Piece → Prop} [Fact (P .net)] [Fact (P .lines)] [Fact (P .out)] {s₀ s : State} (h : s₀.Leads P s) (t : Txn) (k : PortId) (enc : Bool) :
    s₀.Leads P (State.twinSend s t k enc) := by
  unfold State.twinSend
  (try dsimp only)
  with_reducible repeat' (first | intro _ | assumption | apply ite_leads | apply State.awaitTxn_leads | apply State.refuseTxn_leads | apply State.tellTwin_leads | apply foldl_leads | apply foldl_leads_snd | refine snd_leads (by assumption) ?_ | split)

theorem State.twinDeliver_leads {P : Piece → Prop} [Fact (P .net)] [Fact (P .twin)] [Fact (P .lines)] [Fact (P .out)] {s₀ s : State} (h : s₀.Leads P s) (t : Txn) (k : PortId) :
    s₀.Leads P (State.twinDeliver s t k) := by
  unfold State.twinDeliver
  (try dsimp only)
  with_reducible repeat' (first | assumption | apply ite_leads | apply State.twinSend_leads | apply State.refuseTxn_leads | apply State.modTwinPort_leads | refine snd_leads (by assumption) ?_ | split)

end Sys2Proof.Machine
end

