-- ==== Sys2Proof/Laws/LeadsNetwork.lean ====
section
/-!
SUPPORT. What the operations of Machine/Network.lean keep (State.Leads).
-/

set_option linter.unusedTactic false
set_option linter.unreachableTactic false
set_option linter.unusedVariables false

set_option Elab.async false

namespace Sys2Proof.Machine

theorem execNetworkRequestInject_leads {P : Piece → Prop} {s₀ s : State} (h : s₀.Leads P s) (req : NetReq) {t : State} (e : execNetworkRequestInject req s = .next t)
    (pNet : P .net) (pPnl : P .pnl) :
    s₀.Leads P t := by
  have _ : Fact (P .net) := ⟨pNet⟩
  have _ : Fact (P .pnl) := ⟨pPnl⟩
  unfold execNetworkRequestInject at e
  cases e
  (try dsimp only)
  with_reducible repeat' (first | intro _ | assumption | apply ite_leads | apply State.modTxn_leads | apply State.holdReq_leads | refine State.inject_leads ?_ _ _ _ _ _ _ _ _ (by assumption) | refine snd_leads (by assumption) ?_ | split)

theorem State.tallyTarget_leads {P : Piece → Prop} [Fact (P .net)] {s₀ s : State} (h : s₀.Leads P s) (t : Txn) (g : FieldId) (mi : NiId) :
    s₀.Leads P (State.tallyTarget s t g mi) := by
  unfold State.tallyTarget
  (try dsimp only)
  with_reducible repeat' (first | assumption | apply ite_leads | apply State.modTxn_leads | apply State.tally_leads | split)

theorem State.queueAtLoc_leads {P : Piece → Prop} [Fact (P .fields)] [Fact (P .hbm)] [Fact (P .net)] {s₀ s : State} (h : s₀.Leads P s) (t : Txn) (l : Loc) :
    s₀.Leads P (State.queueAtLoc s t l) := by
  unfold State.queueAtLoc
  (try dsimp only)
  with_reducible repeat' (first | intro _ | assumption | apply ite_leads | apply State.modTxn_leads | apply State.modStack_leads | apply State.modFt_leads | apply foldl_leads | apply foldl_leads_snd | refine snd_leads (by assumption) ?_ | split)

theorem State.deliverMemory_leads {P : Piece → Prop} [Fact (P .fields)] [Fact (P .hbm)] [Fact (P .net)] [Fact (P .ras)] {s₀ s : State} (h : s₀.Leads P s) (t : Txn) :
    s₀.Leads P (State.deliverMemory s t) := by
  unfold State.deliverMemory
  (try dsimp only)
  with_reducible repeat' (first | assumption | apply ite_leads | apply State.queueAtLoc_leads | apply State.refuseTxn_leads | apply State.unbackedEvent_leads | apply State.logMem_leads | refine snd_leads (by assumption) ?_ | split)

theorem State.deliverAt_leads {P : Piece → Prop} [Fact (P .fields)] [Fact (P .hbm)] [Fact (P .net)] [Fact (P .sites)] [Fact (P .ras)] [Fact (P .twin)] [Fact (P .lines)] [Fact (P .out)] {s₀ s : State} (h : s₀.Leads P s) (t : Txn) (g : FieldId) (mi : NiId) :
    s₀.Leads P (State.deliverAt s t g mi) := by
  unfold State.deliverAt
  (try dsimp only)
  with_reducible repeat' (first | assumption | apply ite_leads | apply State.deliverMemory_leads | apply State.twinDeliver_leads | apply State.siteDeliver_leads | apply State.modTxn_leads | apply State.answerTxn_leads | refine snd_leads (by assumption) ?_ | split)

theorem execNetworkDelivery_leads {P : Piece → Prop} {s₀ s : State} (h : s₀.Leads P s) (id : TxId) {t : State} (e : execNetworkDelivery id s = .next t)
    (pFields : P .fields) (pHbm : P .hbm) (pNet : P .net) (pSites : P .sites) (pRas : P .ras) (pTwin : P .twin) (pLines : P .lines) (pOut : P .out) :
    s₀.Leads P t := by
  have _ : Fact (P .fields) := ⟨pFields⟩
  have _ : Fact (P .hbm) := ⟨pHbm⟩
  have _ : Fact (P .net) := ⟨pNet⟩
  have _ : Fact (P .sites) := ⟨pSites⟩
  have _ : Fact (P .ras) := ⟨pRas⟩
  have _ : Fact (P .twin) := ⟨pTwin⟩
  have _ : Fact (P .lines) := ⟨pLines⟩
  have _ : Fact (P .out) := ⟨pOut⟩
  unfold execNetworkDelivery at e
  cases e
  (try dsimp only)
  with_reducible repeat' (first | assumption | apply ite_leads | apply State.deliverAt_leads | apply State.tallyTarget_leads | apply State.refuseTxn_leads | apply State.modTxn_leads | apply State.stamp_leads | apply State.unbackedEvent_leads | apply State.logFault_leads | refine snd_leads (by assumption) ?_ | split)

theorem State.answerSite_leads {P : Piece → Prop} [Fact (P .out)] {s₀ s : State} (h : s₀.Leads P s) (n : SiteId) (kind : ReqKind) (tag : Nat) (bind : Byte) (status : Nat) (ws : List CodeWord) :
    s₀.Leads P (State.answerSite s n kind tag bind status ws) := by
  unfold State.answerSite
  with_reducible repeat' (first | assumption | apply ite_leads | apply State.emit_leads | split)

theorem State.answerTwin_leads {P : Piece → Prop} [Fact (P .lines)] [Fact (P .out)] {s₀ s : State} (h : s₀.Leads P s) (k : PortId) (h : BitVec 128) (kind : ReqKind) (status : Nat) (ws : List CodeWord) :
    s₀.Leads P (State.answerTwin s k h kind status ws) := by
  unfold State.answerTwin
  (try dsimp only)
  with_reducible repeat' (first | assumption | apply ite_leads | apply State.tellTwin_leads | split)

theorem State.ownerDone_leads {P : Piece → Prop} [Fact (P .arrays)] [Fact (P .ports)] [Fact (P .pnl)] [Fact (P .ras)] [Fact (P .lines)] [Fact (P .out)] {s₀ s : State} (h : s₀.Leads P s) (t : Txn) (status : BitVec 3) (data : List CodeWord) :
    s₀.Leads P (State.ownerDone s t status data) := by
  unfold State.ownerDone
  with_reducible repeat' (first | assumption | apply ite_leads | apply State.answerTwin_leads | apply State.answerSite_leads | apply State.modCtx_leads | apply State.writeDone_leads | apply State.noteHost_leads | refine snd_leads (by assumption) ?_ | split)

theorem State.checkPromise_leads {P : Piece → Prop} [Fact (P .net)] [Fact (P .ras)] [Fact (P .out)] {s₀ s : State} (h : s₀.Leads P s) (t : Txn) (nclk : Nat) :
    s₀.Leads P (State.checkPromise s t nclk) := by
  unfold State.checkPromise
  (try dsimp only)
  with_reducible repeat' (first | assumption | apply ite_leads | apply State.setCount_leads | apply State.logFault_leads | refine snd_leads (by assumption) ?_ | split)

theorem State.retireTag_leads {P : Piece → Prop} [Fact (P .net)] {s₀ s : State} (h : s₀.Leads P s) (t : Txn) :
    s₀.Leads P (State.retireTag s t) := by
  unfold State.retireTag
  with_reducible repeat' (first | assumption | apply ite_leads | apply State.modNet_leads | split)

theorem State.closeTxn_leads {P : Piece → Prop} [Fact (P .net)] {s₀ s : State} (h : s₀.Leads P s) (t : Txn) :
    s₀.Leads P (State.closeTxn s t) := by
  unfold State.closeTxn
  with_reducible repeat' (first | assumption | apply ite_leads | apply State.dropTxn_leads | apply State.modTxn_leads | split)

theorem execNetworkResponse_leads {P : Piece → Prop} {s₀ s : State} (h : s₀.Leads P s) (id : TxId) (nclk : Nat) {t : State} (e : execNetworkResponse id nclk s = .next t)
    (pArrays : P .arrays) (pNet : P .net) (pPorts : P .ports) (pPnl : P .pnl) (pRas : P .ras) (pLines : P .lines) (pOut : P .out) :
    s₀.Leads P t := by
  have _ : Fact (P .arrays) := ⟨pArrays⟩
  have _ : Fact (P .net) := ⟨pNet⟩
  have _ : Fact (P .ports) := ⟨pPorts⟩
  have _ : Fact (P .pnl) := ⟨pPnl⟩
  have _ : Fact (P .ras) := ⟨pRas⟩
  have _ : Fact (P .lines) := ⟨pLines⟩
  have _ : Fact (P .out) := ⟨pOut⟩
  unfold execNetworkResponse at e
  cases e
  (try dsimp only)
  with_reducible repeat' (first | assumption | apply ite_leads | apply State.closeTxn_leads | apply State.retireTag_leads | apply State.checkPromise_leads | apply State.ownerDone_leads | apply State.traceHeader_leads | apply State.modTxn_leads | apply State.releaseReqs_leads | apply State.modNet_leads | refine snd_leads (by assumption) ?_ | split)

theorem execRouterDiscard_leads {P : Piece → Prop} {s₀ s : State} (h : s₀.Leads P s) (id : TxId) (f : FieldId) {t : State} (e : execRouterDiscard id f s = .next t)
    (pNet : P .net) (pRas : P .ras) (pOut : P .out) :
    s₀.Leads P t := by
  have _ : Fact (P .net) := ⟨pNet⟩
  have _ : Fact (P .ras) := ⟨pRas⟩
  have _ : Fact (P .out) := ⟨pOut⟩
  unfold execRouterDiscard at e
  cases e
  with_reducible repeat' (first | assumption | apply ite_leads | apply State.modTxn_leads | apply State.logFault_leads | apply State.modNet_leads | refine snd_leads (by assumption) ?_ | split)

theorem execTransactionTimeout_leads {P : Piece → Prop} {s₀ s : State} (h : s₀.Leads P s) (id : TxId) {t : State} (e : execTransactionTimeout id s = .next t)
    (pArrays : P .arrays) (pNet : P .net) (pPorts : P .ports) (pPnl : P .pnl) (pRas : P .ras) (pLines : P .lines) (pOut : P .out) :
    s₀.Leads P t := by
  have _ : Fact (P .arrays) := ⟨pArrays⟩
  have _ : Fact (P .net) := ⟨pNet⟩
  have _ : Fact (P .ports) := ⟨pPorts⟩
  have _ : Fact (P .pnl) := ⟨pPnl⟩
  have _ : Fact (P .ras) := ⟨pRas⟩
  have _ : Fact (P .lines) := ⟨pLines⟩
  have _ : Fact (P .out) := ⟨pOut⟩
  unfold execTransactionTimeout at e
  cases e
  (try dsimp only)
  with_reducible repeat' (first | assumption | apply ite_leads | apply State.ownerDone_leads | apply State.dropTxn_leads | apply State.modTxn_leads | apply State.noteTimeout_leads | apply State.logFault_leads | apply State.modNet_leads | refine snd_leads (by assumption) ?_ | split)

theorem execAtomicResend_leads {P : Piece → Prop} {s₀ s : State} (h : s₀.Leads P s) (id : TxId) {t : State} (e : execAtomicResend id s = .next t)
    (pNet : P .net) :
    s₀.Leads P t := by
  have _ : Fact (P .net) := ⟨pNet⟩
  unfold execAtomicResend at e
  cases e
  with_reducible repeat' (first | assumption | apply ite_leads | apply State.modTxn_leads | refine snd_leads (by assumption) ?_ | split)

theorem execDedupEntryExpiry_leads {P : Piece → Prop} {s₀ s : State} (h : s₀.Leads P s) (f : FieldId) (ni : NiId) (id : TxId) {t : State} (e : execDedupEntryExpiry f ni id s = .next t)
    (pNet : P .net) :
    s₀.Leads P t := by
  have _ : Fact (P .net) := ⟨pNet⟩
  unfold execDedupEntryExpiry at e
  cases e
  with_reducible repeat' (first | assumption | apply ite_leads | apply State.modNet_leads | split)

theorem execTagQuarantineEnd_leads {P : Piece → Prop} {s₀ s : State} (h : s₀.Leads P s) (id : TxId) {t : State} (e : execTagQuarantineEnd id s = .next t)
    (pNet : P .net) (pPnl : P .pnl) :
    s₀.Leads P t := by
  have _ : Fact (P .net) := ⟨pNet⟩
  have _ : Fact (P .pnl) := ⟨pPnl⟩
  unfold execTagQuarantineEnd at e
  cases e
  with_reducible repeat' (first | intro _ | assumption | apply ite_leads | apply State.releaseReqs_leads | apply State.modNet_leads | split)

theorem execBudgetWindowOpen_leads {P : Piece → Prop} {s₀ s : State} (h : s₀.Leads P s) (f : FieldId) (ni : NiId) (injection : Bool) {t : State} (e : execBudgetWindowOpen f ni injection s = .next t)
    (pNet : P .net) :
    s₀.Leads P t := by
  have _ : Fact (P .net) := ⟨pNet⟩
  unfold execBudgetWindowOpen at e
  cases e
  with_reducible repeat' (first | assumption | apply ite_leads | apply State.modNet_leads | split)

theorem execTrunkHashChange_leads {P : Piece → Prop} {s₀ s : State} (h : s₀.Leads P s) (boundary : Fin 10) {t : State} (e : execTrunkHashChange boundary s = .next t)
    (pNet : P .net) (pPnl : P .pnl) :
    s₀.Leads P t := by
  have _ : Fact (P .net) := ⟨pNet⟩
  have _ : Fact (P .pnl) := ⟨pPnl⟩
  unfold execTrunkHashChange at e
  cases e
  with_reducible repeat' (first | assumption | apply ite_leads | apply State.releaseReqs_leads | apply State.modLath_leads | split)

theorem execLathFlitReceive_leads {P : Piece → Prop} {s₀ s : State} (h : s₀.Leads P s) (boundary : Fin 10) (link : Fin 34) (dir : LathDir) (seq : BitVec 12) (crcOk : Bool) {t : State} (e : execLathFlitReceive boundary link dir seq crcOk s = .next t)
    (pNet : P .net) (pPnl : P .pnl) (pOut : P .out) :
    s₀.Leads P t := by
  have _ : Fact (P .net) := ⟨pNet⟩
  have _ : Fact (P .pnl) := ⟨pPnl⟩
  have _ : Fact (P .out) := ⟨pOut⟩
  unfold execLathFlitReceive at e
  cases e
  (try dsimp only)
  with_reducible repeat' (first | assumption | apply ite_leads | apply State.releaseReqs_leads | apply State.modLath_leads | apply State.emit_leads | split)

theorem execLathReplay_leads {P : Piece → Prop} {s₀ s : State} (h : s₀.Leads P s) (boundary : Fin 10) (link : Fin 34) (dir : LathDir) {t : State} (e : execLathReplay boundary link dir s = .next t)
    (pNet : P .net) (pOut : P .out) :
    s₀.Leads P t := by
  have _ : Fact (P .net) := ⟨pNet⟩
  have _ : Fact (P .out) := ⟨pOut⟩
  unfold execLathReplay at e
  cases e
  (try dsimp only)
  with_reducible repeat' (first | assumption | apply ite_leads | apply State.modLath_leads | apply State.emit_leads | apply State.modNet_leads | split)

theorem execLathLinkRetire_leads {P : Piece → Prop} {s₀ s : State} (h : s₀.Leads P s) (boundary : Fin 10) (link : Fin 34) {t : State} (e : execLathLinkRetire boundary link s = .next t)
    (pNet : P .net) (pRas : P .ras) (pOut : P .out) :
    s₀.Leads P t := by
  have _ : Fact (P .net) := ⟨pNet⟩
  have _ : Fact (P .ras) := ⟨pRas⟩
  have _ : Fact (P .out) := ⟨pOut⟩
  unfold execLathLinkRetire at e
  cases e
  (try dsimp only)
  with_reducible repeat' (first | assumption | apply ite_leads | apply State.addPatch_leads | apply State.modLath_leads | apply State.logFault_leads | refine snd_leads (by assumption) ?_ | split)

theorem execLathSpareInService_leads {P : Piece → Prop} {s₀ s : State} (h : s₀.Leads P s) (boundary : Fin 10) (link : Fin 34) {t : State} (e : execLathSpareInService boundary link s = .next t)
    (pNet : P .net) :
    s₀.Leads P t := by
  have _ : Fact (P .net) := ⟨pNet⟩
  unfold execLathSpareInService at e
  cases e
  with_reducible repeat' (first | assumption | apply ite_leads | apply State.modLath_leads | split)

theorem State.unqueue_leads {P : Piece → Prop} [Fact (P .fields)] [Fact (P .hbm)] [Fact (P .net)] [Fact (P .coh)] [Fact (P .sites)] {s₀ s : State} (h : s₀.Leads P s) (id : TxId) :
    s₀.Leads P (State.unqueue s id) := by
  unfold State.unqueue
  (try dsimp only)
  with_reducible repeat' (first | assumption | apply ite_leads | split)
  all_goals exact h.untouched rfl rfl rfl rfl rfl rfl

theorem execGroutSinkAnswer_leads {P : Piece → Prop} {s₀ s : State} (h : s₀.Leads P s) (id : TxId) {t : State} (e : execGroutSinkAnswer id s = .next t)
    (pFields : P .fields) (pHbm : P .hbm) (pNet : P .net) (pCoh : P .coh) (pSites : P .sites) :
    s₀.Leads P t := by
  have _ : Fact (P .fields) := ⟨pFields⟩
  have _ : Fact (P .hbm) := ⟨pHbm⟩
  have _ : Fact (P .net) := ⟨pNet⟩
  have _ : Fact (P .coh) := ⟨pCoh⟩
  have _ : Fact (P .sites) := ⟨pSites⟩
  unfold execGroutSinkAnswer at e
  cases e
  with_reducible repeat' (first | assumption | apply ite_leads | apply State.unqueue_leads | apply State.refuseTxn_leads | refine snd_leads (by assumption) ?_ | split)

theorem execTimeoutIsolation_leads {P : Piece → Prop} {s₀ s : State} (h : s₀.Leads P s) (f : FieldId) (ni : NiId) {t : State} (e : execTimeoutIsolation f ni s = .next t)
    (pArrays : P .arrays) (pFields : P .fields) (pHbm : P .hbm) (pMem : P .mem) (pNet : P .net) (pCoh : P .coh) (pSites : P .sites) (pPorts : P .ports) (pPnl : P .pnl) (pRas : P .ras) (pTwin : P .twin) (pOut : P .out) :
    s₀.Leads P t := by
  have _ : Fact (P .arrays) := ⟨pArrays⟩
  have _ : Fact (P .fields) := ⟨pFields⟩
  have _ : Fact (P .hbm) := ⟨pHbm⟩
  have _ : Fact (P .mem) := ⟨pMem⟩
  have _ : Fact (P .net) := ⟨pNet⟩
  have _ : Fact (P .coh) := ⟨pCoh⟩
  have _ : Fact (P .sites) := ⟨pSites⟩
  have _ : Fact (P .ports) := ⟨pPorts⟩
  have _ : Fact (P .pnl) := ⟨pPnl⟩
  have _ : Fact (P .ras) := ⟨pRas⟩
  have _ : Fact (P .twin) := ⟨pTwin⟩
  have _ : Fact (P .out) := ⟨pOut⟩
  unfold execTimeoutIsolation at e
  cases e
  with_reducible repeat' (first | assumption | apply ite_leads | apply State.isolateNi_leads | apply State.modNet_leads | split)

theorem State.netIsolateWrite_leads {P : Piece → Prop} [Fact (P .arrays)] [Fact (P .fields)] [Fact (P .hbm)] [Fact (P .mem)] [Fact (P .net)] [Fact (P .coh)] [Fact (P .sites)] [Fact (P .ports)] [Fact (P .pnl)] [Fact (P .ras)] [Fact (P .twin)] [Fact (P .out)] {s₀ s : State} (h : s₀.Leads P s) (value : Word) :
    s₀.Leads P (State.netIsolateWrite s value) := by
  unfold State.netIsolateWrite
  (try dsimp only)
  with_reducible repeat' (first | assumption | apply ite_leads | apply State.isolateNi_leads | apply State.note_leads | split)

theorem execNetIsolate_leads {P : Piece → Prop} {s₀ s : State} (h : s₀.Leads P s) (value : Word) {t : State} (e : execNetIsolate value s = .next t)
    (pArrays : P .arrays) (pFields : P .fields) (pHbm : P .hbm) (pMem : P .mem) (pNet : P .net) (pCoh : P .coh) (pSites : P .sites) (pPorts : P .ports) (pPnl : P .pnl) (pRas : P .ras) (pTwin : P .twin) (pOut : P .out) :
    s₀.Leads P t := by
  have _ : Fact (P .arrays) := ⟨pArrays⟩
  have _ : Fact (P .fields) := ⟨pFields⟩
  have _ : Fact (P .hbm) := ⟨pHbm⟩
  have _ : Fact (P .mem) := ⟨pMem⟩
  have _ : Fact (P .net) := ⟨pNet⟩
  have _ : Fact (P .coh) := ⟨pCoh⟩
  have _ : Fact (P .sites) := ⟨pSites⟩
  have _ : Fact (P .ports) := ⟨pPorts⟩
  have _ : Fact (P .pnl) := ⟨pPnl⟩
  have _ : Fact (P .ras) := ⟨pRas⟩
  have _ : Fact (P .twin) := ⟨pTwin⟩
  have _ : Fact (P .out) := ⟨pOut⟩
  unfold execNetIsolate at e
  cases e
  with_reducible repeat' (first | intro _ | assumption | apply ite_leads | apply State.netIsolateWrite_leads | apply State.byPf0_leads | split)

end Sys2Proof.Machine
end

