-- ==== Sys2Proof/Laws/LeadsFaulting.lean ====
section
/-!
SUPPORT. What the operations of Machine/Faulting.lean keep (State.Leads).
-/

set_option linter.unusedTactic false
set_option linter.unreachableTactic false
set_option linter.unusedVariables false

set_option Elab.async false

namespace Sys2Proof.Machine

theorem State.writeRecord_leads {P : Piece → Prop} [Fact (P .ports)] [Fact (P .pnl)] [Fact (P .out)] {s₀ s : State} (h : s₀.Leads P s) (p : PanelId) (port : PortId) (v : VfId) (i : FaultInfo) :
    s₀.Leads P (State.writeRecord s p port v i) := by
  unfold State.writeRecord
  (try dsimp only)
  with_reducible repeat' (first | assumption | apply ite_leads | apply State.raiseMsix_leads | apply State.emit_leads | apply State.modPanel_leads | apply State.modVf_leads | split)

theorem State.writeHeld_leads {P : Piece → Prop} [Fact (P .ports)] [Fact (P .pnl)] [Fact (P .out)] {s₀ : State} : ∀ (fuel : Nat) {s : State}, s₀.Leads P s → ∀ (p : PanelId) (port : PortId) (v : VfId), s₀.Leads P (State.writeHeld fuel s p port v) := by
  intro fuel
  induction fuel with
  | zero => intro s h p port v; unfold State.writeHeld; exact h
  | succ n ih =>
    intro s h p port v
    unfold State.writeHeld
    (try dsimp only)
    with_reducible repeat' (first | intro _ | assumption | apply ite_leads | apply ih | apply State.writeRecord_leads | apply State.modPanel_leads | refine snd_leads (by assumption) ?_ | split)

theorem State.releaseRecords_leads {P : Piece → Prop} [Fact (P .ports)] [Fact (P .pnl)] [Fact (P .out)] {s₀ s : State} (h : s₀.Leads P s) (p : PanelId) (port : PortId) (v : VfId) :
    s₀.Leads P (State.releaseRecords s p port v) := by
  unfold State.releaseRecords
  with_reducible repeat' (first | assumption | apply ite_leads | apply State.writeHeld_leads | split)

theorem State.takeFault_leads {P : Piece → Prop} [Fact (P .ports)] [Fact (P .pnl)] [Fact (P .out)] {s₀ s : State} (h : s₀.Leads P s) (p : PanelId) (port : PortId) (v : VfId) (i : FaultInfo) :
    s₀.Leads P (State.takeFault s p port v i) := by
  unfold State.takeFault
  (try dsimp only)
  with_reducible repeat' (first | assumption | apply ite_leads | apply State.writeRecord_leads | apply State.modPanel_leads | apply State.modVf_leads | split)

theorem execFaultRecordWrite_leads {P : Piece → Prop} {s₀ s : State} (h : s₀.Leads P s) (panel : PanelId) {t : State} (e : execFaultRecordWrite panel s = .next t)
    (pPorts : P .ports) (pPnl : P .pnl) (pOut : P .out) :
    s₀.Leads P t := by
  have _ : Fact (P .ports) := ⟨pPorts⟩
  have _ : Fact (P .pnl) := ⟨pPnl⟩
  have _ : Fact (P .out) := ⟨pOut⟩
  unfold execFaultRecordWrite at e
  cases e
  (try dsimp only)
  with_reducible repeat' (first | assumption | apply ite_leads | apply State.takeFault_leads | apply State.modPanel_leads | refine snd_leads (by assumption) ?_ | split)

theorem State.fringHead_leads {P : Piece → Prop} [Fact (P .ports)] [Fact (P .pnl)] [Fact (P .ras)] [Fact (P .out)] {s₀ s : State} (h : s₀.Leads P s) (port : PortId) (v : VfId) (value : Word) :
    s₀.Leads P (State.fringHead s port v value) := by
  unfold State.fringHead
  (try dsimp only)
  with_reducible repeat' (first | assumption | apply ite_leads | apply State.releaseRecords_leads | apply State.noteHost_leads | apply State.modVf_leads | refine snd_leads (by assumption) ?_ | split)

theorem execFringHeadWrite_leads {P : Piece → Prop} {s₀ s : State} (h : s₀.Leads P s) (port : PortId) (v : VfId) (value : Word) {t : State} (e : execFringHeadWrite port v value s = .next t)
    (pPorts : P .ports) (pPnl : P .pnl) (pRas : P .ras) (pOut : P .out) :
    s₀.Leads P t := by
  have _ : Fact (P .ports) := ⟨pPorts⟩
  have _ : Fact (P .pnl) := ⟨pPnl⟩
  have _ : Fact (P .ras) := ⟨pRas⟩
  have _ : Fact (P .out) := ⟨pOut⟩
  unfold execFringHeadWrite at e
  cases e
  with_reducible repeat' (first | intro _ | assumption | apply ite_leads | apply State.fringHead_leads | apply State.pageWrite_leads | split)

theorem State.fringConfig_leads {P : Piece → Prop} [Fact (P .ports)] [Fact (P .pnl)] [Fact (P .out)] {s₀ s : State} (h : s₀.Leads P s) (port : PortId) (v : VfId) (value : Word) :
    s₀.Leads P (State.fringConfig s port v value) := by
  unfold State.fringConfig
  (try dsimp only)
  with_reducible repeat' (first | assumption | apply ite_leads | apply State.releaseRecords_leads | apply State.modVf_leads | refine snd_leads (by assumption) ?_ | split)

theorem execFringEnable_leads {P : Piece → Prop} {s₀ s : State} (h : s₀.Leads P s) (port : PortId) (v : VfId) (value : Word) {t : State} (e : execFringEnable port v value s = .next t)
    (pPorts : P .ports) (pPnl : P .pnl) (pRas : P .ras) (pOut : P .out) :
    s₀.Leads P t := by
  have _ : Fact (P .ports) := ⟨pPorts⟩
  have _ : Fact (P .pnl) := ⟨pPnl⟩
  have _ : Fact (P .ras) := ⟨pRas⟩
  have _ : Fact (P .out) := ⟨pOut⟩
  unfold execFringEnable at e
  cases e
  with_reducible repeat' (first | intro _ | assumption | apply ite_leads | apply State.fringConfig_leads | apply State.pageWrite_leads | split)

theorem execFringArm_leads {P : Piece → Prop} {s₀ s : State} (h : s₀.Leads P s) (port : PortId) (v : VfId) (value : Word) {t : State} (e : execFringArm port v value s = .next t)
    (pPorts : P .ports) (pRas : P .ras) (pOut : P .out) :
    s₀.Leads P t := by
  have _ : Fact (P .ports) := ⟨pPorts⟩
  have _ : Fact (P .ras) := ⟨pRas⟩
  have _ : Fact (P .out) := ⟨pOut⟩
  unfold execFringArm at e
  cases e
  with_reducible repeat' (first | intro _ | assumption | apply ite_leads | apply State.pageWrite_leads | apply State.modVf_leads | split)

theorem State.stallOver_leads {P : Piece → Prop} [Fact (P .arrays)] {s₀ s : State} (h : s₀.Leads P s) (a : ArrayId) :
    s₀.Leads P (State.stallOver s a) := by
  unfold State.stallOver
  with_reducible repeat' (first | assumption | apply ite_leads | apply State.wdResume_leads | split)

theorem State.replayTile_leads {P : Piece → Prop} [Fact (P .arrays)] [Fact (P .fields)] [Fact (P .hbm)] [Fact (P .mem)] [Fact (P .net)] [Fact (P .coh)] [Fact (P .ports)] [Fact (P .pnl)] [Fact (P .ras)] [Fact (P .twin)] [Fact (P .lines)] [Fact (P .draws)] [Fact (P .out)] {s₀ s : State} (h : s₀.Leads P s) (p : PanelId) (i : FaultInfo) :
    s₀.Leads P (State.replayTile s p i) := by
  unfold State.replayTile
  (try dsimp only)
  with_reducible repeat' (first | assumption | apply ite_leads | apply State.stallOver_leads | apply State.modCtx_leads | apply State.runMove_leads | apply State.modMove_leads | apply State.launchOp_leads | apply State.modSeq_leads | apply State.modCube_leads | refine snd_leads (by assumption) ?_ | split)

theorem State.resumeOne_leads {P : Piece → Prop} [Fact (P .arrays)] [Fact (P .fields)] [Fact (P .hbm)] [Fact (P .mem)] [Fact (P .net)] [Fact (P .coh)] [Fact (P .ports)] [Fact (P .pnl)] [Fact (P .ras)] [Fact (P .twin)] [Fact (P .lines)] [Fact (P .draws)] [Fact (P .out)] {s₀ s : State} (h : s₀.Leads P s) (p : PanelId) (abort : Bool) (token : BitVec 16) :
    s₀.Leads P (State.resumeOne s p abort token) := by
  unfold State.resumeOne
  (try dsimp only)
  with_reducible repeat' (first | intro _ | assumption | apply ite_leads | apply State.replayTile_leads | apply State.endStep_leads | apply State.modPanel_leads | refine snd_leads (by assumption) ?_ | split)

theorem State.faultResume_leads {P : Piece → Prop} [Fact (P .arrays)] [Fact (P .fields)] [Fact (P .hbm)] [Fact (P .mem)] [Fact (P .net)] [Fact (P .coh)] [Fact (P .ports)] [Fact (P .pnl)] [Fact (P .ras)] [Fact (P .twin)] [Fact (P .lines)] [Fact (P .draws)] [Fact (P .out)] {s₀ s : State} (h : s₀.Leads P s) (port : PortId) (v : VfId) (value : Word) :
    s₀.Leads P (State.faultResume s port v value) := by
  unfold State.faultResume
  (try dsimp only)
  with_reducible repeat' (first | intro _ | assumption | apply ite_leads | apply State.resumeOne_leads | apply State.modVf_leads | apply foldl_leads | apply foldl_leads_snd | refine snd_leads (by assumption) ?_ | split)

theorem execFaultResumeRetry_leads {P : Piece → Prop} {s₀ s : State} (h : s₀.Leads P s) (port : PortId) (v : VfId) (value : Word) {t : State} (e : execFaultResumeRetry port v value s = .next t)
    (pArrays : P .arrays) (pFields : P .fields) (pHbm : P .hbm) (pMem : P .mem) (pNet : P .net) (pCoh : P .coh) (pPorts : P .ports) (pPnl : P .pnl) (pRas : P .ras) (pTwin : P .twin) (pLines : P .lines) (pDraws : P .draws) (pOut : P .out) :
    s₀.Leads P t := by
  have _ : Fact (P .arrays) := ⟨pArrays⟩
  have _ : Fact (P .fields) := ⟨pFields⟩
  have _ : Fact (P .hbm) := ⟨pHbm⟩
  have _ : Fact (P .mem) := ⟨pMem⟩
  have _ : Fact (P .net) := ⟨pNet⟩
  have _ : Fact (P .coh) := ⟨pCoh⟩
  have _ : Fact (P .ports) := ⟨pPorts⟩
  have _ : Fact (P .pnl) := ⟨pPnl⟩
  have _ : Fact (P .ras) := ⟨pRas⟩
  have _ : Fact (P .twin) := ⟨pTwin⟩
  have _ : Fact (P .lines) := ⟨pLines⟩
  have _ : Fact (P .draws) := ⟨pDraws⟩
  have _ : Fact (P .out) := ⟨pOut⟩
  unfold execFaultResumeRetry at e
  cases e
  with_reducible repeat' (first | intro _ | assumption | apply ite_leads | apply State.faultResume_leads | apply State.pageWrite_leads | split)

theorem execFaultResumeAbort_leads {P : Piece → Prop} {s₀ s : State} (h : s₀.Leads P s) (port : PortId) (v : VfId) (value : Word) {t : State} (e : execFaultResumeAbort port v value s = .next t)
    (pArrays : P .arrays) (pFields : P .fields) (pHbm : P .hbm) (pMem : P .mem) (pNet : P .net) (pCoh : P .coh) (pPorts : P .ports) (pPnl : P .pnl) (pRas : P .ras) (pTwin : P .twin) (pLines : P .lines) (pDraws : P .draws) (pOut : P .out) :
    s₀.Leads P t := by
  have _ : Fact (P .arrays) := ⟨pArrays⟩
  have _ : Fact (P .fields) := ⟨pFields⟩
  have _ : Fact (P .hbm) := ⟨pHbm⟩
  have _ : Fact (P .mem) := ⟨pMem⟩
  have _ : Fact (P .net) := ⟨pNet⟩
  have _ : Fact (P .coh) := ⟨pCoh⟩
  have _ : Fact (P .ports) := ⟨pPorts⟩
  have _ : Fact (P .pnl) := ⟨pPnl⟩
  have _ : Fact (P .ras) := ⟨pRas⟩
  have _ : Fact (P .twin) := ⟨pTwin⟩
  have _ : Fact (P .lines) := ⟨pLines⟩
  have _ : Fact (P .draws) := ⟨pDraws⟩
  have _ : Fact (P .out) := ⟨pOut⟩
  unfold execFaultResumeAbort at e
  cases e
  with_reducible repeat' (first | intro _ | assumption | apply ite_leads | apply State.faultResume_leads | apply State.pageWrite_leads | split)

theorem State.holdLow_leads {P : Piece → Prop} [Fact (P .heldLow)] {s₀ s : State} (h : s₀.Leads P s) (r : RegAddr) (w : Word) :
    s₀.Leads P (State.holdLow s r w) := by
  unfold State.holdLow
  with_reducible repeat' (first | assumption | apply ite_leads | split)
  all_goals exact h.untouched rfl rfl rfl rfl rfl rfl

theorem State.writeRoot_leads {P : Piece → Prop} [Fact (P .ports)] {s₀ s : State} (h : s₀.Leads P s) (port : PortId) (v : VfId) (w : DWord) :
    s₀.Leads P (State.writeRoot s port v w) := by
  unfold State.writeRoot
  with_reducible repeat' (first | assumption | apply ite_leads | apply State.modVf_leads | split)

theorem execTrRootWrite_leads {P : Piece → Prop} {s₀ s : State} (h : s₀.Leads P s) (port : PortId) (v : VfId) (high : Word) {t : State} (e : execTrRootWrite port v high s = .next t)
    (pPorts : P .ports) (pRas : P .ras) (pOut : P .out) :
    s₀.Leads P t := by
  have _ : Fact (P .ports) := ⟨pPorts⟩
  have _ : Fact (P .ras) := ⟨pRas⟩
  have _ : Fact (P .out) := ⟨pOut⟩
  unfold execTrRootWrite at e
  cases e
  with_reducible repeat' (first | intro _ | assumption | apply ite_leads | apply State.writeRoot_leads | apply State.pageWrite_leads | split)

theorem State.stallCube_leads {P : Piece → Prop} [Fact (P .arrays)] [Fact (P .pnl)] {s₀ s : State} (h : s₀.Leads P s) (a : ArrayId) (p : PanelId) (f : VaFault) :
    s₀.Leads P (State.stallCube s a p f) := by
  unfold State.stallCube
  (try dsimp only)
  with_reducible repeat' (first | assumption | apply ite_leads | apply State.stallOp_leads | refine snd_leads (by assumption) ?_ | split)

theorem State.stallFor_leads {P : Piece → Prop} [Fact (P .arrays)] [Fact (P .pnl)] {s₀ s : State} (h : s₀.Leads P s) (a : ArrayId) (p : PanelId) (asker : WalkUnit) (f : VaFault) :
    s₀.Leads P (State.stallFor s a p asker f) := by
  unfold State.stallFor
  (try dsimp only)
  with_reducible repeat' (first | assumption | apply ite_leads | apply State.stallCube_leads | apply State.stallCtx_leads | apply State.modMove_leads | apply State.stallSeq_leads | apply State.stall_leads | refine snd_leads (by assumption) ?_ | split)

theorem State.walkFault_leads {P : Piece → Prop} [Fact (P .arrays)] [Fact (P .pnl)] {s₀ s : State} (h : s₀.Leads P s) (w : Walk) (f : TransFault) :
    s₀.Leads P (State.walkFault s w f) := by
  unfold State.walkFault
  (try dsimp only)
  with_reducible repeat' (first | assumption | apply ite_leads | apply State.stallFor_leads | apply State.plainFault_leads | refine snd_leads (by assumption) ?_ | split)

theorem execPageWalk_leads {P : Piece → Prop} {s₀ s : State} (h : s₀.Leads P s) (f : FieldId) (panel : PanelId) (va : BitVec 55) (access : Access) (asker : WalkAsker) {t : State} (e : execPageWalk f panel va access asker s = .next t)
    (pArrays : P .arrays) (pFields : P .fields) (pPnl : P .pnl) :
    s₀.Leads P t := by
  have _ : Fact (P .arrays) := ⟨pArrays⟩
  have _ : Fact (P .fields) := ⟨pFields⟩
  have _ : Fact (P .pnl) := ⟨pPnl⟩
  unfold execPageWalk at e
  cases e
  (try dsimp only)
  with_reducible repeat' (first | assumption | apply ite_leads | apply State.walkFault_leads | apply State.modTu_leads | refine snd_leads (by assumption) ?_ | split)

theorem execWalkLevelRead_leads {P : Piece → Prop} {s₀ s : State} (h : s₀.Leads P s) (f : FieldId) (walk : Nat) (errors : List RawError) {t : State} (e : execWalkLevelRead f walk errors s = .next t)
    (pArrays : P .arrays) (pFields : P .fields) (pHbm : P .hbm) (pMem : P .mem) (pNet : P .net) (pPnl : P .pnl) (pRas : P .ras) (pDraws : P .draws) (pOut : P .out) :
    s₀.Leads P t := by
  have _ : Fact (P .arrays) := ⟨pArrays⟩
  have _ : Fact (P .fields) := ⟨pFields⟩
  have _ : Fact (P .hbm) := ⟨pHbm⟩
  have _ : Fact (P .mem) := ⟨pMem⟩
  have _ : Fact (P .net) := ⟨pNet⟩
  have _ : Fact (P .pnl) := ⟨pPnl⟩
  have _ : Fact (P .ras) := ⟨pRas⟩
  have _ : Fact (P .draws) := ⟨pDraws⟩
  have _ : Fact (P .out) := ⟨pOut⟩
  unfold execWalkLevelRead at e
  cases e
  (try dsimp only)
  with_reducible repeat' (first | intro _ | assumption | apply ite_leads | apply State.walkFault_leads | apply State.cachePointer_leads | apply State.cacheLeaf_leads | apply State.walkLevel_leads | apply State.modTu_leads | apply foldl_leads | apply foldl_leads_snd | refine snd_leads (by assumption) ?_ | split)

theorem execMidtileFault_leads {P : Piece → Prop} {s₀ s : State} (h : s₀.Leads P s) (a : ArrayId) (va : BitVec 55) {t : State} (e : execMidtileFault a va s = .next t)
    (pArrays : P .arrays) (pFields : P .fields) (pHbm : P .hbm) (pMem : P .mem) (pNet : P .net) (pPnl : P .pnl) (pRas : P .ras) (pDraws : P .draws) (pOut : P .out) :
    s₀.Leads P t := by
  have _ : Fact (P .arrays) := ⟨pArrays⟩
  have _ : Fact (P .fields) := ⟨pFields⟩
  have _ : Fact (P .hbm) := ⟨pHbm⟩
  have _ : Fact (P .mem) := ⟨pMem⟩
  have _ : Fact (P .net) := ⟨pNet⟩
  have _ : Fact (P .pnl) := ⟨pPnl⟩
  have _ : Fact (P .ras) := ⟨pRas⟩
  have _ : Fact (P .draws) := ⟨pDraws⟩
  have _ : Fact (P .out) := ⟨pOut⟩
  unfold execMidtileFault at e
  cases e
  (try dsimp only)
  with_reducible repeat' (first | assumption | apply ite_leads | apply State.stallOp_leads | apply State.translate_leads | refine snd_leads (by assumption) ?_ | split)

theorem State.modInv_leads {P : Piece → Prop} [Fact (P .ports)] [Fact (P .pnl)] {s₀ s : State} (h : s₀.Leads P s) (e : SetSel) (f : InvSet → InvSet) :
    s₀.Leads P (State.modInv s e f) := by
  unfold State.modInv
  with_reducible repeat' (first | assumption | apply ite_leads | apply State.modPanel_leads | apply State.modVf_leads | refine snd_leads (by assumption) ?_ | split)

theorem State.invDone_leads {P : Piece → Prop} [Fact (P .ports)] [Fact (P .pnl)] {s₀ s : State} (h : s₀.Leads P s) (e : SetSel) (state : BitVec 4) :
    s₀.Leads P (State.invDone s e state) := by
  unfold State.invDone
  (try dsimp only)
  with_reducible repeat' (first | assumption | apply ite_leads | apply State.modInv_leads | apply State.raiseMsix_leads | apply State.irq_leads | refine snd_leads (by assumption) ?_ | split)

theorem State.invControl_leads {P : Piece → Prop} [Fact (P .fields)] [Fact (P .ports)] [Fact (P .pnl)] [Fact (P .ras)] [Fact (P .out)] {s₀ s : State} (h : s₀.Leads P s) (e : SetSel) (value : Word) :
    s₀.Leads P (State.invControl s e value) := by
  unfold State.invControl
  (try dsimp only)
  with_reducible repeat' (first | intro _ | assumption | apply ite_leads | apply State.invDone_leads | apply State.modInv_leads | apply State.note_leads | apply State.modTu_leads | apply foldl_leads | apply foldl_leads_snd | refine snd_leads (by assumption) ?_ | split)

theorem execInvalidationGo_leads {P : Piece → Prop} {s₀ s : State} (h : s₀.Leads P s) (set : SetSel) (value : Word) {t : State} (e : execInvalidationGo set value s = .next t)
    (pFields : P .fields) (pPorts : P .ports) (pPnl : P .pnl) (pRas : P .ras) (pOut : P .out) :
    s₀.Leads P t := by
  have _ : Fact (P .fields) := ⟨pFields⟩
  have _ : Fact (P .ports) := ⟨pPorts⟩
  have _ : Fact (P .pnl) := ⟨pPnl⟩
  have _ : Fact (P .ras) := ⟨pRas⟩
  have _ : Fact (P .out) := ⟨pOut⟩
  unfold execInvalidationGo at e
  cases e
  with_reducible repeat' (first | intro _ | assumption | apply ite_leads | apply State.invControl_leads | apply State.pageWrite_leads | apply State.byPf0_leads | refine snd_leads (by assumption) ?_ | split)

theorem execEngineInvalidationAck_leads {P : Piece → Prop} {s₀ s : State} (h : s₀.Leads P s) (set : SetSel) (engine : EngineSel) {t : State} (e : execEngineInvalidationAck set engine s = .next t)
    (pPorts : P .ports) (pPnl : P .pnl) :
    s₀.Leads P t := by
  have _ : Fact (P .ports) := ⟨pPorts⟩
  have _ : Fact (P .pnl) := ⟨pPnl⟩
  unfold execEngineInvalidationAck at e
  cases e
  (try dsimp only)
  with_reducible repeat' (first | assumption | apply ite_leads | apply State.invDone_leads | apply State.modInv_leads | refine snd_leads (by assumption) ?_ | split)

theorem State.forceEngine_leads {P : Piece → Prop} [Fact (P .arrays)] [Fact (P .fields)] [Fact (P .hbm)] [Fact (P .mem)] [Fact (P .net)] [Fact (P .coh)] [Fact (P .sites)] [Fact (P .ports)] [Fact (P .pnl)] [Fact (P .ras)] [Fact (P .twin)] [Fact (P .out)] {s₀ s : State} (h : s₀.Leads P s) (e : EngineSel) :
    s₀.Leads P (State.forceEngine s e) := by
  unfold State.forceEngine
  (try dsimp only)
  with_reducible repeat' (first | intro _ | assumption | apply ite_leads | apply State.killSite_leads | apply State.retireArray_leads | apply State.seqFault_leads | apply State.logFault_leads | apply State.modTu_leads | refine snd_leads (by assumption) ?_ | split)

theorem execInvalidationForce_leads {P : Piece → Prop} {s₀ s : State} (h : s₀.Leads P s) (set : SetSel) {t : State} (e : execInvalidationForce set s = .next t)
    (pArrays : P .arrays) (pFields : P .fields) (pHbm : P .hbm) (pMem : P .mem) (pNet : P .net) (pCoh : P .coh) (pSites : P .sites) (pPorts : P .ports) (pPnl : P .pnl) (pRas : P .ras) (pTwin : P .twin) (pOut : P .out) :
    s₀.Leads P t := by
  have _ : Fact (P .arrays) := ⟨pArrays⟩
  have _ : Fact (P .fields) := ⟨pFields⟩
  have _ : Fact (P .hbm) := ⟨pHbm⟩
  have _ : Fact (P .mem) := ⟨pMem⟩
  have _ : Fact (P .net) := ⟨pNet⟩
  have _ : Fact (P .coh) := ⟨pCoh⟩
  have _ : Fact (P .sites) := ⟨pSites⟩
  have _ : Fact (P .ports) := ⟨pPorts⟩
  have _ : Fact (P .pnl) := ⟨pPnl⟩
  have _ : Fact (P .ras) := ⟨pRas⟩
  have _ : Fact (P .twin) := ⟨pTwin⟩
  have _ : Fact (P .out) := ⟨pOut⟩
  unfold execInvalidationForce at e
  cases e
  (try dsimp only)
  with_reducible repeat' (first | intro _ | assumption | apply ite_leads | apply State.forceEngine_leads | apply State.invDone_leads | apply State.modInv_leads | apply foldl_leads | apply foldl_leads_snd | split)

theorem State.flushControl_leads {P : Piece → Prop} [Fact (P .fields)] [Fact (P .hbm)] [Fact (P .mem)] [Fact (P .net)] [Fact (P .coh)] [Fact (P .ports)] [Fact (P .pnl)] [Fact (P .ras)] [Fact (P .twin)] [Fact (P .out)] {s₀ s : State} (h : s₀.Leads P s) (set : SetSel) (value : Word) :
    s₀.Leads P (State.flushControl s set value) := by
  unfold State.flushControl
  (try dsimp only)
  with_reducible repeat' (first | assumption | apply ite_leads | apply State.flushLines_leads | apply State.setFlush_leads | apply State.note_leads | refine snd_leads (by assumption) ?_ | split)

theorem execCohFlushGo_leads {P : Piece → Prop} {s₀ s : State} (h : s₀.Leads P s) (set : SetSel) (value : Word) {t : State} (e : execCohFlushGo set value s = .next t)
    (pFields : P .fields) (pHbm : P .hbm) (pMem : P .mem) (pNet : P .net) (pCoh : P .coh) (pPorts : P .ports) (pPnl : P .pnl) (pRas : P .ras) (pTwin : P .twin) (pOut : P .out) :
    s₀.Leads P t := by
  have _ : Fact (P .fields) := ⟨pFields⟩
  have _ : Fact (P .hbm) := ⟨pHbm⟩
  have _ : Fact (P .mem) := ⟨pMem⟩
  have _ : Fact (P .net) := ⟨pNet⟩
  have _ : Fact (P .coh) := ⟨pCoh⟩
  have _ : Fact (P .ports) := ⟨pPorts⟩
  have _ : Fact (P .pnl) := ⟨pPnl⟩
  have _ : Fact (P .ras) := ⟨pRas⟩
  have _ : Fact (P .twin) := ⟨pTwin⟩
  have _ : Fact (P .out) := ⟨pOut⟩
  unfold execCohFlushGo at e
  cases e
  with_reducible repeat' (first | intro _ | assumption | apply ite_leads | apply State.flushControl_leads | apply State.pageWrite_leads | apply State.byPf0_leads | refine snd_leads (by assumption) ?_ | split)

end Sys2Proof.Machine
end

