-- ==== Sys2Proof/Laws/LeadsSiteLife.lean ====
section
/-!
SUPPORT. What the operations of Machine/SiteLife.lean keep (State.Leads).
-/

set_option linter.unusedTactic false
set_option linter.unreachableTactic false
set_option linter.unusedVariables false

set_option Elab.async false

namespace Sys2Proof.Machine

theorem State.siteAttemptFails_leads {P : Piece → Prop} [Fact (P .arrays)] [Fact (P .fields)] [Fact (P .hbm)] [Fact (P .mem)] [Fact (P .net)] [Fact (P .coh)] [Fact (P .sites)] [Fact (P .ports)] [Fact (P .pnl)] [Fact (P .ras)] [Fact (P .twin)] [Fact (P .out)] {s₀ s : State} (h : s₀.Leads P s) (n : SiteId) (code : Byte) :
    s₀.Leads P (State.siteAttemptFails s n code) := by
  unfold State.siteAttemptFails
  with_reducible repeat' (first | assumption | apply ite_leads | apply State.endSite_leads | apply State.modSite_leads | split)

theorem execSiteBringupAttempt_leads {P : Piece → Prop} {s₀ s : State} (h : s₀.Leads P s) (n : SiteId) (answered : Bool) {t : State} (e : execSiteBringupAttempt n answered s = .next t)
    (pArrays : P .arrays) (pFields : P .fields) (pHbm : P .hbm) (pMem : P .mem) (pNet : P .net) (pCoh : P .coh) (pSites : P .sites) (pPorts : P .ports) (pPnl : P .pnl) (pRas : P .ras) (pTwin : P .twin) (pOut : P .out) :
    s₀.Leads P t := by
  have _ : Fact (P .arrays) := ⟨pArrays⟩
  have _ : Fact (P .fields) := ⟨pFields⟩
  have _ : Fact (P .hbm) := ⟨pHbm⟩
  have _ : Fact (P .mem) := ⟨pMem⟩
  have _ : Fact (P .net) := ⟨pNet⟩
  have _ : Fact (P .coh) := ⟨pCoh⟩
  have _ : Fact (P .sites) := ⟨pSites⟩
  have _ : Fact (P .ports) := ⟨pPorts⟩
  have _ : Fact (P .pnl) := ⟨pPnl⟩
  have _ : Fact (P .ras) := ⟨pRas⟩
  have _ : Fact (P .twin) := ⟨pTwin⟩
  have _ : Fact (P .out) := ⟨pOut⟩
  unfold execSiteBringupAttempt at e
  cases e
  (try dsimp only)
  with_reducible repeat' (first | assumption | apply ite_leads | apply State.siteAttemptFails_leads | apply State.modSite_leads | split)

theorem execSiteLinkTrained_leads {P : Piece → Prop} {s₀ s : State} (h : s₀.Leads P s) (n : SiteId) (modules : Fin 17) (rate : Fin 3) {t : State} (e : execSiteLinkTrained n modules rate s = .next t)
    (pArrays : P .arrays) (pFields : P .fields) (pHbm : P .hbm) (pMem : P .mem) (pNet : P .net) (pCoh : P .coh) (pSites : P .sites) (pPorts : P .ports) (pPnl : P .pnl) (pRas : P .ras) (pTwin : P .twin) (pOut : P .out) :
    s₀.Leads P t := by
  have _ : Fact (P .arrays) := ⟨pArrays⟩
  have _ : Fact (P .fields) := ⟨pFields⟩
  have _ : Fact (P .hbm) := ⟨pHbm⟩
  have _ : Fact (P .mem) := ⟨pMem⟩
  have _ : Fact (P .net) := ⟨pNet⟩
  have _ : Fact (P .coh) := ⟨pCoh⟩
  have _ : Fact (P .sites) := ⟨pSites⟩
  have _ : Fact (P .ports) := ⟨pPorts⟩
  have _ : Fact (P .pnl) := ⟨pPnl⟩
  have _ : Fact (P .ras) := ⟨pRas⟩
  have _ : Fact (P .twin) := ⟨pTwin⟩
  have _ : Fact (P .out) := ⟨pOut⟩
  unfold execSiteLinkTrained at e
  cases e
  with_reducible repeat' (first | assumption | apply ite_leads | apply State.siteAttemptFails_leads | apply State.modSite_leads | split)

theorem execSiteAttemptTimeout_leads {P : Piece → Prop} {s₀ s : State} (h : s₀.Leads P s) (n : SiteId) {t : State} (e : execSiteAttemptTimeout n s = .next t)
    (pArrays : P .arrays) (pFields : P .fields) (pHbm : P .hbm) (pMem : P .mem) (pNet : P .net) (pCoh : P .coh) (pSites : P .sites) (pPorts : P .ports) (pPnl : P .pnl) (pRas : P .ras) (pTwin : P .twin) (pOut : P .out) :
    s₀.Leads P t := by
  have _ : Fact (P .arrays) := ⟨pArrays⟩
  have _ : Fact (P .fields) := ⟨pFields⟩
  have _ : Fact (P .hbm) := ⟨pHbm⟩
  have _ : Fact (P .mem) := ⟨pMem⟩
  have _ : Fact (P .net) := ⟨pNet⟩
  have _ : Fact (P .coh) := ⟨pCoh⟩
  have _ : Fact (P .sites) := ⟨pSites⟩
  have _ : Fact (P .ports) := ⟨pPorts⟩
  have _ : Fact (P .pnl) := ⟨pPnl⟩
  have _ : Fact (P .ras) := ⟨pRas⟩
  have _ : Fact (P .twin) := ⟨pTwin⟩
  have _ : Fact (P .out) := ⟨pOut⟩
  unfold execSiteAttemptTimeout at e
  cases e
  with_reducible repeat' (first | assumption | apply ite_leads | apply State.siteAttemptFails_leads | apply State.endSite_leads | refine snd_leads (by assumption) ?_ | split)

theorem State.sendAccept_leads {P : Piece → Prop} [Fact (P .out)] {s₀ s : State} (h : s₀.Leads P s) (n : SiteId) :
    s₀.Leads P (State.sendAccept s n) := by
  unfold State.sendAccept
  (try dsimp only)
  with_reducible repeat' (first | assumption | apply ite_leads | apply State.tellSite_leads | split)

theorem State.negotiateSite_leads {P : Piece → Prop} [Fact (P .arrays)] [Fact (P .fields)] [Fact (P .hbm)] [Fact (P .mem)] [Fact (P .net)] [Fact (P .coh)] [Fact (P .sites)] [Fact (P .ports)] [Fact (P .pnl)] [Fact (P .ras)] [Fact (P .twin)] [Fact (P .out)] {s₀ s : State} (h : s₀.Leads P s) (n : SiteId) :
    s₀.Leads P (State.negotiateSite s n) := by
  unfold State.negotiateSite
  with_reducible repeat' (first | assumption | apply ite_leads | apply State.sendAccept_leads | apply State.endSite_leads | apply State.modSite_leads | refine snd_leads (by assumption) ?_ | split)

theorem State.negotiatePair_leads {P : Piece → Prop} [Fact (P .arrays)] [Fact (P .fields)] [Fact (P .hbm)] [Fact (P .mem)] [Fact (P .net)] [Fact (P .coh)] [Fact (P .sites)] [Fact (P .ports)] [Fact (P .pnl)] [Fact (P .ras)] [Fact (P .twin)] [Fact (P .out)] {s₀ s : State} (h : s₀.Leads P s) (n lo hi : SiteId) (failed : Option Byte) :
    s₀.Leads P (State.negotiatePair s n lo hi failed) := by
  unfold State.negotiatePair
  (try dsimp only)
  with_reducible repeat' (first | assumption | apply ite_leads | apply State.negotiateSite_leads | apply State.endSite_leads | refine snd_leads (by assumption) ?_ | split)

theorem State.stageThree_leads {P : Piece → Prop} [Fact (P .arrays)] [Fact (P .fields)] [Fact (P .hbm)] [Fact (P .mem)] [Fact (P .net)] [Fact (P .coh)] [Fact (P .sites)] [Fact (P .ports)] [Fact (P .pnl)] [Fact (P .ras)] [Fact (P .twin)] [Fact (P .out)] {s₀ s : State} (h : s₀.Leads P s) (n : SiteId) :
    s₀.Leads P (State.stageThree s n) := by
  unfold State.stageThree
  (try dsimp only)
  with_reducible repeat' (first | assumption | apply ite_leads | apply State.negotiatePair_leads | apply State.negotiateSite_leads | apply State.endSite_leads | refine snd_leads (by assumption) ?_ | split)

theorem execDesc_leads {P : Piece → Prop} {s₀ s : State} (h : s₀.Leads P s) (n : SiteId) (payload : DWord) {t : State} (e : execDesc n payload s = .next t)
    (pArrays : P .arrays) (pFields : P .fields) (pHbm : P .hbm) (pMem : P .mem) (pNet : P .net) (pCoh : P .coh) (pSites : P .sites) (pPorts : P .ports) (pPnl : P .pnl) (pRas : P .ras) (pTwin : P .twin) (pOut : P .out) :
    s₀.Leads P t := by
  have _ : Fact (P .arrays) := ⟨pArrays⟩
  have _ : Fact (P .fields) := ⟨pFields⟩
  have _ : Fact (P .hbm) := ⟨pHbm⟩
  have _ : Fact (P .mem) := ⟨pMem⟩
  have _ : Fact (P .net) := ⟨pNet⟩
  have _ : Fact (P .coh) := ⟨pCoh⟩
  have _ : Fact (P .sites) := ⟨pSites⟩
  have _ : Fact (P .ports) := ⟨pPorts⟩
  have _ : Fact (P .pnl) := ⟨pPnl⟩
  have _ : Fact (P .ras) := ⟨pRas⟩
  have _ : Fact (P .twin) := ⟨pTwin⟩
  have _ : Fact (P .out) := ⟨pOut⟩
  unfold execDesc at e
  cases e
  (try dsimp only)
  with_reducible repeat' (first | assumption | apply ite_leads | apply State.stageThree_leads | apply State.endSite_leads | apply State.modSite_leads | split)

theorem State.enumerate_leads {P : Piece → Prop} [Fact (P .sites)] [Fact (P .out)] {s₀ s : State} (h : s₀.Leads P s) (n : SiteId) :
    s₀.Leads P (State.enumerate s n) := by
  unfold State.enumerate
  (try dsimp only)
  with_reducible repeat' (first | intro _ | assumption | apply ite_leads | apply State.emit_leads | apply State.modSite_leads | apply foldl_leads | apply foldl_leads_snd | split)

theorem execSiteInService_leads {P : Piece → Prop} {s₀ s : State} (h : s₀.Leads P s) (n : SiteId) {t : State} (e : execSiteInService n s = .next t)
    (pNet : P .net) (pSites : P .sites) (pPorts : P .ports) (pOut : P .out) :
    s₀.Leads P t := by
  have _ : Fact (P .net) := ⟨pNet⟩
  have _ : Fact (P .sites) := ⟨pSites⟩
  have _ : Fact (P .ports) := ⟨pPorts⟩
  have _ : Fact (P .out) := ⟨pOut⟩
  unfold execSiteInService at e
  cases e
  (try dsimp only)
  with_reducible repeat' (first | assumption | apply ite_leads | apply State.enumerate_leads | apply State.readyFrom_leads | apply State.setSink_leads | apply State.modSite_leads | split)

theorem execLive_leads {P : Piece → Prop} {s₀ s : State} (h : s₀.Leads P s) (n : SiteId) (payload : DWord) {t : State} (e : execLive n payload s = .next t)
    (pArrays : P .arrays) (pFields : P .fields) (pHbm : P .hbm) (pMem : P .mem) (pNet : P .net) (pCoh : P .coh) (pSites : P .sites) (pPorts : P .ports) (pPnl : P .pnl) (pRas : P .ras) (pTwin : P .twin) (pOut : P .out) :
    s₀.Leads P t := by
  have _ : Fact (P .arrays) := ⟨pArrays⟩
  have _ : Fact (P .fields) := ⟨pFields⟩
  have _ : Fact (P .hbm) := ⟨pHbm⟩
  have _ : Fact (P .mem) := ⟨pMem⟩
  have _ : Fact (P .net) := ⟨pNet⟩
  have _ : Fact (P .coh) := ⟨pCoh⟩
  have _ : Fact (P .sites) := ⟨pSites⟩
  have _ : Fact (P .ports) := ⟨pPorts⟩
  have _ : Fact (P .pnl) := ⟨pPnl⟩
  have _ : Fact (P .ras) := ⟨pRas⟩
  have _ : Fact (P .twin) := ⟨pTwin⟩
  have _ : Fact (P .out) := ⟨pOut⟩
  unfold execLive at e
  cases e
  (try dsimp only)
  with_reducible repeat' (first | assumption | apply ite_leads | apply State.killSite_leads | apply State.modSite_leads | split)

theorem execLiveTimeout_leads {P : Piece → Prop} {s₀ s : State} (h : s₀.Leads P s) (n : SiteId) {t : State} (e : execLiveTimeout n s = .next t)
    (pArrays : P .arrays) (pFields : P .fields) (pHbm : P .hbm) (pMem : P .mem) (pNet : P .net) (pCoh : P .coh) (pSites : P .sites) (pPorts : P .ports) (pPnl : P .pnl) (pRas : P .ras) (pTwin : P .twin) (pOut : P .out) :
    s₀.Leads P t := by
  have _ : Fact (P .arrays) := ⟨pArrays⟩
  have _ : Fact (P .fields) := ⟨pFields⟩
  have _ : Fact (P .hbm) := ⟨pHbm⟩
  have _ : Fact (P .mem) := ⟨pMem⟩
  have _ : Fact (P .net) := ⟨pNet⟩
  have _ : Fact (P .coh) := ⟨pCoh⟩
  have _ : Fact (P .sites) := ⟨pSites⟩
  have _ : Fact (P .ports) := ⟨pPorts⟩
  have _ : Fact (P .pnl) := ⟨pPnl⟩
  have _ : Fact (P .ras) := ⟨pRas⟩
  have _ : Fact (P .twin) := ⟨pTwin⟩
  have _ : Fact (P .out) := ⟨pOut⟩
  unfold execLiveTimeout at e
  cases e
  with_reducible repeat' (first | assumption | apply ite_leads | apply State.killSite_leads | split)

theorem State.dropRail_leads {P : Piece → Prop} [Fact (P .sites)] [Fact (P .out)] {s₀ s : State} (h : s₀.Leads P s) (n : SiteId) :
    s₀.Leads P (State.dropRail s n) := by
  unfold State.dropRail
  with_reducible repeat' (first | assumption | apply ite_leads | apply State.emit_leads | apply State.modSite_leads | split)

theorem State.powerFault_leads {P : Piece → Prop} [Fact (P .arrays)] [Fact (P .fields)] [Fact (P .hbm)] [Fact (P .mem)] [Fact (P .net)] [Fact (P .coh)] [Fact (P .sites)] [Fact (P .ports)] [Fact (P .pnl)] [Fact (P .ras)] [Fact (P .twin)] [Fact (P .out)] {s₀ s : State} (h : s₀.Leads P s) (n : SiteId) :
    s₀.Leads P (State.powerFault s n) := by
  unfold State.powerFault
  (try dsimp only)
  with_reducible repeat' (first | assumption | apply ite_leads | apply State.dropRail_leads | apply State.endSite_leads | refine snd_leads (by assumption) ?_ | split)

theorem State.throttleHalf_leads {P : Piece → Prop} [Fact (P .sites)] [Fact (P .out)] {s₀ s : State} (h : s₀.Leads P s) (n : SiteId) (on : Bool) :
    s₀.Leads P (State.throttleHalf s n on) := by
  unfold State.throttleHalf
  with_reducible repeat' (first | assumption | apply ite_leads | apply State.tellSite_leads | apply State.modSite_leads | split)

theorem State.throttleSite_leads {P : Piece → Prop} [Fact (P .sites)] [Fact (P .out)] {s₀ s : State} (h : s₀.Leads P s) (n : SiteId) (on : Bool) :
    s₀.Leads P (State.throttleSite s n on) := by
  unfold State.throttleSite
  (try dsimp only)
  with_reducible repeat' (first | assumption | apply ite_leads | apply State.throttleHalf_leads | refine snd_leads (by assumption) ?_ | split)

theorem execSitePowerSample_leads {P : Piece → Prop} {s₀ s : State} (h : s₀.Leads P s) (n : SiteId) (sample average : BitVec 10) {t : State} (e : execSitePowerSample n sample average s = .next t)
    (pArrays : P .arrays) (pFields : P .fields) (pHbm : P .hbm) (pMem : P .mem) (pNet : P .net) (pCoh : P .coh) (pSites : P .sites) (pPorts : P .ports) (pPnl : P .pnl) (pRas : P .ras) (pTwin : P .twin) (pOut : P .out) :
    s₀.Leads P t := by
  have _ : Fact (P .arrays) := ⟨pArrays⟩
  have _ : Fact (P .fields) := ⟨pFields⟩
  have _ : Fact (P .hbm) := ⟨pHbm⟩
  have _ : Fact (P .mem) := ⟨pMem⟩
  have _ : Fact (P .net) := ⟨pNet⟩
  have _ : Fact (P .coh) := ⟨pCoh⟩
  have _ : Fact (P .sites) := ⟨pSites⟩
  have _ : Fact (P .ports) := ⟨pPorts⟩
  have _ : Fact (P .pnl) := ⟨pPnl⟩
  have _ : Fact (P .ras) := ⟨pRas⟩
  have _ : Fact (P .twin) := ⟨pTwin⟩
  have _ : Fact (P .out) := ⟨pOut⟩
  unfold execSitePowerSample at e
  cases e
  (try dsimp only)
  with_reducible repeat' (first | assumption | apply ite_leads | apply State.throttleSite_leads | apply State.powerFault_leads | apply State.modSite_leads | refine snd_leads (by assumption) ?_ | split)

theorem execSiteAdapterRetryTimeout_leads {P : Piece → Prop} {s₀ s : State} (h : s₀.Leads P s) (x : SiteRetries) {t : State} (e : execSiteAdapterRetryTimeout x s = .next t)
    (pArrays : P .arrays) (pFields : P .fields) (pHbm : P .hbm) (pMem : P .mem) (pNet : P .net) (pCoh : P .coh) (pSites : P .sites) (pPorts : P .ports) (pPnl : P .pnl) (pRas : P .ras) (pTwin : P .twin) (pOut : P .out) :
    s₀.Leads P t := by
  have _ : Fact (P .arrays) := ⟨pArrays⟩
  have _ : Fact (P .fields) := ⟨pFields⟩
  have _ : Fact (P .hbm) := ⟨pHbm⟩
  have _ : Fact (P .mem) := ⟨pMem⟩
  have _ : Fact (P .net) := ⟨pNet⟩
  have _ : Fact (P .coh) := ⟨pCoh⟩
  have _ : Fact (P .sites) := ⟨pSites⟩
  have _ : Fact (P .ports) := ⟨pPorts⟩
  have _ : Fact (P .pnl) := ⟨pPnl⟩
  have _ : Fact (P .ras) := ⟨pRas⟩
  have _ : Fact (P .twin) := ⟨pTwin⟩
  have _ : Fact (P .out) := ⟨pOut⟩
  unfold execSiteAdapterRetryTimeout at e
  cases e
  (try dsimp only)
  with_reducible repeat' (first | intro _ | assumption | apply ite_leads | apply State.siteGiveUp_leads | apply State.killSite_leads | apply State.logFault_leads | apply State.modSite_leads | apply foldl_leads | apply foldl_leads_snd | split)

theorem execSiteRetrainDone_leads {P : Piece → Prop} {s₀ s : State} (h : s₀.Leads P s) (n : SiteId) (modules : Fin 17) (passed : Bool) {t : State} (e : execSiteRetrainDone n modules passed s = .next t)
    (pArrays : P .arrays) (pFields : P .fields) (pHbm : P .hbm) (pMem : P .mem) (pNet : P .net) (pCoh : P .coh) (pSites : P .sites) (pPorts : P .ports) (pPnl : P .pnl) (pRas : P .ras) (pTwin : P .twin) (pOut : P .out) :
    s₀.Leads P t := by
  have _ : Fact (P .arrays) := ⟨pArrays⟩
  have _ : Fact (P .fields) := ⟨pFields⟩
  have _ : Fact (P .hbm) := ⟨pHbm⟩
  have _ : Fact (P .mem) := ⟨pMem⟩
  have _ : Fact (P .net) := ⟨pNet⟩
  have _ : Fact (P .coh) := ⟨pCoh⟩
  have _ : Fact (P .sites) := ⟨pSites⟩
  have _ : Fact (P .ports) := ⟨pPorts⟩
  have _ : Fact (P .pnl) := ⟨pPnl⟩
  have _ : Fact (P .ras) := ⟨pRas⟩
  have _ : Fact (P .twin) := ⟨pTwin⟩
  have _ : Fact (P .out) := ⟨pOut⟩
  unfold execSiteRetrainDone at e
  cases e
  (try dsimp only)
  with_reducible repeat' (first | assumption | apply ite_leads | apply State.killSite_leads | apply State.logFault_leads | apply State.modSite_leads | split)

theorem execSiteDeath_leads {P : Piece → Prop} {s₀ s : State} (h : s₀.Leads P s) (n : SiteId) (code : Byte) {t : State} (e : execSiteDeath n code s = .next t)
    (pArrays : P .arrays) (pFields : P .fields) (pHbm : P .hbm) (pMem : P .mem) (pNet : P .net) (pCoh : P .coh) (pSites : P .sites) (pPorts : P .ports) (pPnl : P .pnl) (pRas : P .ras) (pTwin : P .twin) (pOut : P .out) :
    s₀.Leads P t := by
  have _ : Fact (P .arrays) := ⟨pArrays⟩
  have _ : Fact (P .fields) := ⟨pFields⟩
  have _ : Fact (P .hbm) := ⟨pHbm⟩
  have _ : Fact (P .mem) := ⟨pMem⟩
  have _ : Fact (P .net) := ⟨pNet⟩
  have _ : Fact (P .coh) := ⟨pCoh⟩
  have _ : Fact (P .sites) := ⟨pSites⟩
  have _ : Fact (P .ports) := ⟨pPorts⟩
  have _ : Fact (P .pnl) := ⟨pPnl⟩
  have _ : Fact (P .ras) := ⟨pRas⟩
  have _ : Fact (P .twin) := ⟨pTwin⟩
  have _ : Fact (P .out) := ⟨pOut⟩
  unfold execSiteDeath at e
  cases e
  with_reducible repeat' (first | assumption | apply ite_leads | apply State.killSite_leads | split)

theorem execSiteRailRemoval_leads {P : Piece → Prop} {s₀ s : State} (h : s₀.Leads P s) (n : SiteId) {t : State} (e : execSiteRailRemoval n s = .next t)
    (pSites : P .sites) (pOut : P .out) :
    s₀.Leads P t := by
  have _ : Fact (P .sites) := ⟨pSites⟩
  have _ : Fact (P .out) := ⟨pOut⟩
  unfold execSiteRailRemoval at e
  cases e
  with_reducible repeat' (first | assumption | apply ite_leads | apply State.dropRail_leads | split)

end Sys2Proof.Machine
end

