-- ==== Sys2Proof/Laws/LeadsSiteStream.lean ====
section
/-!
SUPPORT. What the operations of Machine/SiteStream.lean keep (State.Leads).
-/

set_option linter.unusedTactic false
set_option linter.unreachableTactic false
set_option linter.unusedVariables false

set_option Elab.async false

namespace Sys2Proof.Machine

theorem State.replySite_leads {P : Piece → Prop} [Fact (P .out)] {s₀ s : State} (h : s₀.Leads P s) (n : SiteId) (kind : ReqKind) (m : SiteMsg) (status : Nat) (ws : List CodeWord) :
    s₀.Leads P (State.replySite s n kind m status ws) := by
  unfold State.replySite
  with_reducible repeat' (first | assumption | apply ite_leads | apply State.answerSite_leads | split)

theorem State.rejectSite_leads {P : Piece → Prop} [Fact (P .ras)] [Fact (P .out)] {s₀ s : State} (h : s₀.Leads P s) (n : SiteId) (kind : ReqKind) (m : SiteMsg) (status : Nat) :
    s₀.Leads P (State.rejectSite s n kind m status) := by
  unfold State.rejectSite
  with_reducible repeat' (first | assumption | apply ite_leads | apply State.replySite_leads | apply State.noteSite_leads | split)

theorem State.siteFault_leads {P : Piece → Prop} [Fact (P .pnl)] [Fact (P .out)] {s₀ s : State} (h : s₀.Leads P s) (n : SiteId) (b : Binding) (kind : ReqKind) (m : SiteMsg) (f : VaFault) :
    s₀.Leads P (State.siteFault s n b kind m f) := by
  unfold State.siteFault
  with_reducible repeat' (first | assumption | apply ite_leads | apply State.replySite_leads | apply State.plainFault_leads | split)

theorem State.siteInject_leads {P : Piece → Prop} [Fact (P .net)] [Fact (P .pnl)] {s₀ s : State} (h : s₀.Leads P s) {s0 : State} (h0 : s₀.Leads P s0) (n : SiteId) (b : Binding)
    (pa : BitVec 52) (kind : ReqKind) (m : SiteMsg) : s₀.Leads P (s.siteInject s0 n b pa kind m) := by
  unfold State.siteInject
  split
  · exact State.inject_leads h _ _ _ _ _ _ _ _ ‹_›
  · exact h0

theorem State.siteUndefined_leads {P : Piece → Prop} [Fact (P .ras)] [Fact (P .out)] {s₀ s : State} (h : s₀.Leads P s) (n : SiteId) (m : SiteMsg) :
    s₀.Leads P (State.siteUndefined s n m) := by
  unfold State.siteUndefined
  with_reducible repeat' (first | assumption | apply ite_leads | apply State.rejectSite_leads | split)

theorem execSiteRd_leads {P : Piece → Prop} {s₀ s : State} (h : s₀.Leads P s) (n : SiteId) (header : BitVec 128) {t : State} (e : execSiteRd n header s = .next t)
    (pFields : P .fields) (pHbm : P .hbm) (pMem : P .mem) (pNet : P .net) (pCoh : P .coh) (pPnl : P .pnl) (pRas : P .ras) (pTwin : P .twin) (pLines : P .lines) (pDraws : P .draws) (pOut : P .out) :
    s₀.Leads P t := by
  have _ : Fact (P .fields) := ⟨pFields⟩
  have _ : Fact (P .hbm) := ⟨pHbm⟩
  have _ : Fact (P .mem) := ⟨pMem⟩
  have _ : Fact (P .net) := ⟨pNet⟩
  have _ : Fact (P .coh) := ⟨pCoh⟩
  have _ : Fact (P .pnl) := ⟨pPnl⟩
  have _ : Fact (P .ras) := ⟨pRas⟩
  have _ : Fact (P .twin) := ⟨pTwin⟩
  have _ : Fact (P .lines) := ⟨pLines⟩
  have _ : Fact (P .draws) := ⟨pDraws⟩
  have _ : Fact (P .out) := ⟨pOut⟩
  unfold execSiteRd at e
  cases e
  (try dsimp only)
  with_reducible repeat' (first | assumption | apply ite_leads | apply State.siteUndefined_leads | apply State.siteInject_leads | apply State.siteFault_leads | apply State.rejectSite_leads | apply State.replySite_leads | apply State.readPlainVas_leads | apply State.translate_leads | refine snd_leads (by assumption) ?_ | split)

theorem execSiteWr_leads {P : Piece → Prop} {s₀ s : State} (h : s₀.Leads P s) (n : SiteId) (header : BitVec 128) (words : List CodeWord) {t : State} (e : execSiteWr n header words s = .next t)
    (pFields : P .fields) (pHbm : P .hbm) (pMem : P .mem) (pNet : P .net) (pCoh : P .coh) (pPnl : P .pnl) (pRas : P .ras) (pTwin : P .twin) (pDraws : P .draws) (pOut : P .out) :
    s₀.Leads P t := by
  have _ : Fact (P .fields) := ⟨pFields⟩
  have _ : Fact (P .hbm) := ⟨pHbm⟩
  have _ : Fact (P .mem) := ⟨pMem⟩
  have _ : Fact (P .net) := ⟨pNet⟩
  have _ : Fact (P .coh) := ⟨pCoh⟩
  have _ : Fact (P .pnl) := ⟨pPnl⟩
  have _ : Fact (P .ras) := ⟨pRas⟩
  have _ : Fact (P .twin) := ⟨pTwin⟩
  have _ : Fact (P .draws) := ⟨pDraws⟩
  have _ : Fact (P .out) := ⟨pOut⟩
  unfold execSiteWr at e
  cases e
  (try dsimp only)
  with_reducible repeat' (first | assumption | apply ite_leads | apply State.siteInject_leads | apply State.siteFault_leads | apply State.rejectSite_leads | apply State.replySite_leads | refine State.writeTarget_leads ?_ _ _ _ (by assumption) | apply State.accessEvent_leads | apply State.translate_leads | apply State.cohWriteRun_leads | refine snd_leads (by assumption) ?_ | split)

theorem execSiteAt_leads {P : Piece → Prop} {s₀ s : State} (h : s₀.Leads P s) (n : SiteId) (header : BitVec 128) (operand : CodeWord) (compare : DWord) {t : State} (e : execSiteAt n header operand compare s = .next t)
    (pFields : P .fields) (pHbm : P .hbm) (pMem : P .mem) (pNet : P .net) (pPnl : P .pnl) (pRas : P .ras) (pDraws : P .draws) (pOut : P .out) :
    s₀.Leads P t := by
  have _ : Fact (P .fields) := ⟨pFields⟩
  have _ : Fact (P .hbm) := ⟨pHbm⟩
  have _ : Fact (P .mem) := ⟨pMem⟩
  have _ : Fact (P .net) := ⟨pNet⟩
  have _ : Fact (P .pnl) := ⟨pPnl⟩
  have _ : Fact (P .ras) := ⟨pRas⟩
  have _ : Fact (P .draws) := ⟨pDraws⟩
  have _ : Fact (P .out) := ⟨pOut⟩
  unfold execSiteAt at e
  cases e
  (try dsimp only)
  with_reducible repeat' (first | assumption | apply ite_leads | apply State.siteInject_leads | apply State.siteFault_leads | apply State.rejectSite_leads | apply State.replySite_leads | apply State.hostRefused_leads | apply State.translate_leads | refine snd_leads (by assumption) ?_ | split)

theorem execSiteSig_leads {P : Piece → Prop} {s₀ s : State} (h : s₀.Leads P s) (n : SiteId) (header : BitVec 128) {t : State} (e : execSiteSig n header s = .next t)
    (pNet : P .net) (pPnl : P .pnl) (pRas : P .ras) (pOut : P .out) :
    s₀.Leads P t := by
  have _ : Fact (P .net) := ⟨pNet⟩
  have _ : Fact (P .pnl) := ⟨pPnl⟩
  have _ : Fact (P .ras) := ⟨pRas⟩
  have _ : Fact (P .out) := ⟨pOut⟩
  unfold execSiteSig at e
  cases e
  (try dsimp only)
  with_reducible repeat' (first | assumption | apply ite_leads | apply State.siteInject_leads | apply State.rejectSite_leads | refine snd_leads (by assumption) ?_ | split)

theorem execCredit_leads {P : Piece → Prop} {s₀ s : State} (h : s₀.Leads P s) (n : SiteId) (header : BitVec 128) {t : State} (e : execCredit n header s = .next t)
    (pSites : P .sites) (pRas : P .ras) (pOut : P .out) :
    s₀.Leads P t := by
  have _ : Fact (P .sites) := ⟨pSites⟩
  have _ : Fact (P .ras) := ⟨pRas⟩
  have _ : Fact (P .out) := ⟨pOut⟩
  unfold execCredit at e
  cases e
  (try dsimp only)
  with_reducible repeat' (first | assumption | apply ite_leads | apply State.releaseHeld_leads | apply State.noteSite_leads | apply State.modSite_leads | refine snd_leads (by assumption) ?_ | split)

theorem execEndpointWrite_leads {P : Piece → Prop} {s₀ s : State} (h : s₀.Leads P s) (n : SiteId) (id : TxId) (endpoint : Fin 16) (offset : BitVec 20) (words : List CodeWord) {t : State} (e : execEndpointWrite n id endpoint offset words s = .next t)
    (pSites : P .sites) (pOut : P .out) :
    s₀.Leads P t := by
  have _ : Fact (P .sites) := ⟨pSites⟩
  have _ : Fact (P .out) := ⟨pOut⟩
  unfold execEndpointWrite at e
  cases e
  (try dsimp only)
  with_reducible repeat' (first | assumption | apply ite_leads | apply State.releaseHeld_leads | apply State.modSite_leads | refine snd_leads (by assumption) ?_ | split)

theorem execSiteSignalToEngine_leads {P : Piece → Prop} {s₀ s : State} (h : s₀.Leads P s) (id : TxId) {t : State} (e : execSiteSignalToEngine id s = .next t)
    (pNet : P .net) (pSites : P .sites) (pOut : P .out) :
    s₀.Leads P t := by
  have _ : Fact (P .net) := ⟨pNet⟩
  have _ : Fact (P .sites) := ⟨pSites⟩
  have _ : Fact (P .out) := ⟨pOut⟩
  unfold execSiteSignalToEngine at e
  cases e
  (try dsimp only)
  with_reducible repeat' (first | assumption | apply ite_leads | apply State.refuseTxn_leads | apply State.remember_leads | apply State.answerTxn_leads | apply State.emit_leads | apply State.modSite_leads | refine snd_leads (by assumption) ?_ | split)

theorem execSiteResponse_leads {P : Piece → Prop} {s₀ s : State} (h : s₀.Leads P s) (n : SiteId) (header : BitVec 128) (words : List CodeWord) {t : State} (e : execSiteResponse n header words s = .next t)
    (pNet : P .net) (pSites : P .sites) :
    s₀.Leads P t := by
  have _ : Fact (P .net) := ⟨pNet⟩
  have _ : Fact (P .sites) := ⟨pSites⟩
  unfold execSiteResponse at e
  cases e
  (try dsimp only)
  with_reducible repeat' (first | assumption | apply ite_leads | apply State.siteAnswered_leads | refine snd_leads (by assumption) ?_ | split)

theorem execSiteRequestTimeout_leads {P : Piece → Prop} {s₀ s : State} (h : s₀.Leads P s) (n : SiteId) (tag : BitVec 12) {t : State} (e : execSiteRequestTimeout n tag s = .next t)
    (pNet : P .net) (pSites : P .sites) (pRas : P .ras) (pOut : P .out) :
    s₀.Leads P t := by
  have _ : Fact (P .net) := ⟨pNet⟩
  have _ : Fact (P .sites) := ⟨pSites⟩
  have _ : Fact (P .ras) := ⟨pRas⟩
  have _ : Fact (P .out) := ⟨pOut⟩
  unfold execSiteRequestTimeout at e
  cases e
  with_reducible repeat' (first | assumption | apply ite_leads | apply State.siteGiveUp_leads | apply State.timedOut_leads | refine snd_leads (by assumption) ?_ | split)

theorem State.cohReject_leads {P : Piece → Prop} [Fact (P .ras)] [Fact (P .out)] {s₀ s : State} (h : s₀.Leads P s) (n : SiteId) (m : SiteMsg) (status : Nat) :
    s₀.Leads P (State.cohReject s n m status) := by
  unfold State.cohReject
  with_reducible repeat' (first | assumption | apply ite_leads | apply State.noteSite_leads | apply State.emit_leads | split)

theorem execCohReq_leads {P : Piece → Prop} {s₀ s : State} (h : s₀.Leads P s) (n : SiteId) (agent : Fin 6) (header : BitVec 128) (word : CodeWord) {t : State} (e : execCohReq n agent header word s = .next t)
    (pFields : P .fields) (pHbm : P .hbm) (pMem : P .mem) (pNet : P .net) (pCoh : P .coh) (pRas : P .ras) (pTwin : P .twin) (pOut : P .out) :
    s₀.Leads P t := by
  have _ : Fact (P .fields) := ⟨pFields⟩
  have _ : Fact (P .hbm) := ⟨pHbm⟩
  have _ : Fact (P .mem) := ⟨pMem⟩
  have _ : Fact (P .net) := ⟨pNet⟩
  have _ : Fact (P .coh) := ⟨pCoh⟩
  have _ : Fact (P .ras) := ⟨pRas⟩
  have _ : Fact (P .twin) := ⟨pTwin⟩
  have _ : Fact (P .out) := ⟨pOut⟩
  unfold execCohReq at e
  cases e
  (try dsimp only)
  with_reducible repeat' (first | assumption | apply ite_leads | apply State.cohReject_leads | apply State.sendWb_leads | apply State.agentRequest_leads | refine snd_leads (by assumption) ?_ | split)

theorem execCohRsp_leads {P : Piece → Prop} {s₀ s : State} (h : s₀.Leads P s) (n : SiteId) (agent : Fin 6) (header : BitVec 128) (word : CodeWord) {t : State} (e : execCohRsp n agent header word s = .next t)
    (pFields : P .fields) (pHbm : P .hbm) (pMem : P .mem) (pNet : P .net) (pCoh : P .coh) (pRas : P .ras) (pTwin : P .twin) (pOut : P .out) :
    s₀.Leads P t := by
  have _ : Fact (P .fields) := ⟨pFields⟩
  have _ : Fact (P .hbm) := ⟨pHbm⟩
  have _ : Fact (P .mem) := ⟨pMem⟩
  have _ : Fact (P .net) := ⟨pNet⟩
  have _ : Fact (P .coh) := ⟨pCoh⟩
  have _ : Fact (P .ras) := ⟨pRas⟩
  have _ : Fact (P .twin) := ⟨pTwin⟩
  have _ : Fact (P .out) := ⟨pOut⟩
  unfold execCohRsp at e
  cases e
  (try dsimp only)
  with_reducible repeat' (first | assumption | apply ite_leads | apply State.takeAnswer_leads | apply State.pump_leads | apply State.noteSite_leads | refine snd_leads (by assumption) ?_ | split)

theorem execCohAck_leads {P : Piece → Prop} {s₀ s : State} (h : s₀.Leads P s) (src : CohAckFrom) {t : State} (e : execCohAck src s = .next t)
    (pFields : P .fields) (pHbm : P .hbm) (pMem : P .mem) (pNet : P .net) (pCoh : P .coh) (pRas : P .ras) (pTwin : P .twin) (pOut : P .out) :
    s₀.Leads P t := by
  have _ : Fact (P .fields) := ⟨pFields⟩
  have _ : Fact (P .hbm) := ⟨pHbm⟩
  have _ : Fact (P .mem) := ⟨pMem⟩
  have _ : Fact (P .net) := ⟨pNet⟩
  have _ : Fact (P .coh) := ⟨pCoh⟩
  have _ : Fact (P .ras) := ⟨pRas⟩
  have _ : Fact (P .twin) := ⟨pTwin⟩
  have _ : Fact (P .out) := ⟨pOut⟩
  unfold execCohAck at e
  cases e
  (try dsimp only)
  with_reducible repeat' (first | assumption | apply ite_leads | apply State.ackLine_leads | apply State.noteSite_leads | refine snd_leads (by assumption) ?_ | split)

theorem execCxlUnsupported_leads {P : Piece → Prop} {s₀ s : State} (h : s₀.Leads P s) (n : SiteId) (cls : CxlClass) {t : State} (e : execCxlUnsupported n cls s = .next t)
    (pRas : P .ras) (pOut : P .out) :
    s₀.Leads P t := by
  have _ : Fact (P .ras) := ⟨pRas⟩
  have _ : Fact (P .out) := ⟨pOut⟩
  unfold execCxlUnsupported at e
  cases e
  with_reducible repeat' (first | assumption | apply ite_leads | apply State.noteSite_leads | apply State.emit_leads | split)

end Sys2Proof.Machine
end

