-- ==== Sys2Proof/Laws/LeadsTwinPair.lean ====
section
/-!
SUPPORT. What the operations of Machine/TwinPair.lean keep (State.Leads).
-/

set_option linter.unusedTactic false
set_option linter.unreachableTactic false
set_option linter.unusedVariables false

set_option Elab.async false

namespace Sys2Proof.Machine

theorem State.tellBind_leads {P : Piece → Prop} [Fact (P .lines)] [Fact (P .out)] {s₀ s : State} (h : s₀.Leads P s) (b : BindId) (type arg : Nat) (payload : Option (BitVec 512)) :
    s₀.Leads P (State.tellBind s b type arg payload) := by
  unfold State.tellBind
  with_reducible repeat' (first | assumption | apply ite_leads | apply State.tellTwin_leads | refine snd_leads (by assumption) ?_ | split)

theorem State.replyAbsent_leads {P : Piece → Prop} [Fact (P .lines)] [Fact (P .out)] {s₀ s : State} (h : s₀.Leads P s) (k : PortId) (b : BindId) :
    s₀.Leads P (State.replyAbsent s k b) := by
  unfold State.replyAbsent
  with_reducible repeat' (first | assumption | apply ite_leads | apply State.tellTwin_leads | split)

theorem State.emptyMirror_leads {P : Piece → Prop} [Fact (P .twin)] {s₀ s : State} (h : s₀.Leads P s) (b : BindId) :
    s₀.Leads P (State.emptyMirror s b) := by
  unfold State.emptyMirror
  with_reducible repeat' (first | intro _ | assumption | apply ite_leads | apply State.modBind_leads | apply State.modTwin_leads | split)

theorem State.releasePanel_leads {P : Piece → Prop} [Fact (P .ports)] {s₀ s : State} (h : s₀.Leads P s) (p : PanelId) :
    s₀.Leads P (State.releasePanel s p) := by
  unfold State.releasePanel
  with_reducible repeat' (first | assumption | apply ite_leads | apply State.releaseComps_leads | refine snd_leads (by assumption) ?_ | split)

theorem State.fetchPanel_leads {P : Piece → Prop} [Fact (P .ports)] [Fact (P .out)] {s₀ s : State} (h : s₀.Leads P s) (p : PanelId) :
    s₀.Leads P (State.fetchPanel s p) := by
  unfold State.fetchPanel
  with_reducible repeat' (first | assumption | apply ite_leads | apply State.fetchVf_leads | refine snd_leads (by assumption) ?_ | split)

theorem State.bindTo_leads {P : Piece → Prop} [Fact (P .twin)] {s₀ s : State} (h : s₀.Leads P s) (b : BindId) (st : BitVec 4) :
    s₀.Leads P (State.bindTo s b st) := by
  unfold State.bindTo
  with_reducible repeat' (first | assumption | apply ite_leads | apply State.modBind_leads | split)

theorem State.haltSilent_leads {P : Piece → Prop} [Fact (P .arrays)] [Fact (P .ports)] [Fact (P .pnl)] {s₀ s : State} (h : s₀.Leads P s) (q : QRef) :
    s₀.Leads P (State.haltSilent s q) := by
  unfold State.haltSilent
  with_reducible repeat' (first | assumption | apply ite_leads | apply State.modQ_leads | apply State.endInv_leads | refine snd_leads (by assumption) ?_ | split)

theorem State.haltPanel_leads {P : Piece → Prop} [Fact (P .arrays)] [Fact (P .ports)] [Fact (P .pnl)] {s₀ s : State} (h : s₀.Leads P s) (p : PanelId) :
    s₀.Leads P (State.haltPanel s p) := by
  unfold State.haltPanel
  with_reducible repeat' (first | intro _ | assumption | apply ite_leads | apply State.haltSilent_leads | apply foldl_leads | apply foldl_leads_snd | split)

theorem State.discardComps_leads {P : Piece → Prop} [Fact (P .ports)] {s₀ s : State} (h : s₀.Leads P s) (p : PanelId) :
    s₀.Leads P (State.discardComps s p) := by
  unfold State.discardComps
  with_reducible repeat' (first | intro _ | assumption | apply ite_leads | apply State.modQ_leads | apply foldl_leads | apply foldl_leads_snd | split)

theorem State.fenceDone_leads {P : Piece → Prop} [Fact (P .twin)] {s₀ s : State} (h : s₀.Leads P s) (b : BindId) :
    s₀.Leads P (State.fenceDone s b) := by
  unfold State.fenceDone
  (try dsimp only)
  with_reducible repeat' (first | intro _ | assumption | apply ite_leads | apply State.modBind_leads | apply State.modTwin_leads | split)

theorem State.suspendOne_leads {P : Piece → Prop} [Fact (P .twin)] {s₀ s : State} (h : s₀.Leads P s) (b : BindId) :
    s₀.Leads P (State.suspendOne s b) := by
  unfold State.suspendOne
  (try dsimp only)
  with_reducible repeat' (first | assumption | apply ite_leads | apply State.fenceDone_leads | apply State.bindTo_leads | apply State.emptyMirror_leads | split)

theorem State.suspendTwins_leads {P : Piece → Prop} [Fact (P .twin)] {s₀ s : State} (h : s₀.Leads P s)  :
    s₀.Leads P (State.suspendTwins s) := by
  unfold State.suspendTwins
  with_reducible repeat' (first | intro _ | assumption | apply ite_leads | apply State.suspendOne_leads | apply foldl_leads | apply foldl_leads_snd | split)

theorem State.resumeTwin_leads {P : Piece → Prop} [Fact (P .ports)] [Fact (P .twin)] {s₀ s : State} (h : s₀.Leads P s) (b : BindId) :
    s₀.Leads P (State.resumeTwin s b) := by
  unfold State.resumeTwin
  (try dsimp only)
  with_reducible repeat' (first | intro _ | assumption | apply ite_leads | apply State.bindTo_leads | apply State.releasePanel_leads | apply State.modTwinPort_leads | split)

theorem State.resumeTwins_leads {P : Piece → Prop} [Fact (P .ports)] [Fact (P .twin)] {s₀ s : State} (h : s₀.Leads P s)  :
    s₀.Leads P (State.resumeTwins s) := by
  unfold State.resumeTwins
  with_reducible repeat' (first | intro _ | assumption | apply ite_leads | apply State.resumeTwin_leads | apply foldl_leads | apply foldl_leads_snd | split)

theorem State.promoteBind_leads {P : Piece → Prop} [Fact (P .ports)] [Fact (P .ras)] [Fact (P .twin)] [Fact (P .out)] {s₀ s : State} (h : s₀.Leads P s) (b : BindId) :
    s₀.Leads P (State.promoteBind s b) := by
  unfold State.promoteBind
  (try dsimp only)
  with_reducible repeat' (first | assumption | apply ite_leads | apply State.bindTo_leads | apply State.fetchPanel_leads | apply State.irq_leads | apply State.logFault_leads | split)

theorem State.partnerLost_leads {P : Piece → Prop} [Fact (P .ports)] [Fact (P .twin)] {s₀ s : State} (h : s₀.Leads P s) (b : BindId) :
    s₀.Leads P (State.partnerLost s b) := by
  unfold State.partnerLost
  (try dsimp only)
  with_reducible repeat' (first | assumption | apply ite_leads | apply State.bindTo_leads | apply State.releasePanel_leads | apply State.emptyMirror_leads | split)

theorem State.silenceOne_leads {P : Piece → Prop} [Fact (P .arrays)] [Fact (P .ports)] [Fact (P .pnl)] [Fact (P .ras)] [Fact (P .twin)] [Fact (P .out)] {s₀ s : State} (h : s₀.Leads P s) (hung : Bool) (b : BindId) :
    s₀.Leads P (State.silenceOne hung s b) := by
  unfold State.silenceOne
  (try dsimp only)
  with_reducible repeat' (first | assumption | apply ite_leads | apply State.partnerLost_leads | apply State.promoteBind_leads | apply State.discardComps_leads | apply State.haltPanel_leads | apply State.bindTo_leads | apply State.emptyMirror_leads | split)

theorem execHeartSilence_leads {P : Piece → Prop} {s₀ s : State} (h : s₀.Leads P s)  {t : State} (e : execHeartSilence s = .next t)
    (pArrays : P .arrays) (pPorts : P .ports) (pPnl : P .pnl) (pRas : P .ras) (pTwin : P .twin) (pOut : P .out) :
    s₀.Leads P t := by
  have _ : Fact (P .arrays) := ⟨pArrays⟩
  have _ : Fact (P .ports) := ⟨pPorts⟩
  have _ : Fact (P .pnl) := ⟨pPnl⟩
  have _ : Fact (P .ras) := ⟨pRas⟩
  have _ : Fact (P .twin) := ⟨pTwin⟩
  have _ : Fact (P .out) := ⟨pOut⟩
  unfold execHeartSilence at e
  cases e
  (try dsimp only)
  with_reducible repeat' (first | intro _ | assumption | apply ite_leads | apply State.silenceOne_leads | apply State.irq_leads | apply State.modTwin_leads | apply foldl_leads | apply foldl_leads_snd | split)

theorem State.heartOne_leads {P : Piece → Prop} [Fact (P .twin)] {s₀ s : State} (h : s₀.Leads P s) (b : BindId) :
    s₀.Leads P (State.heartOne s b) := by
  unfold State.heartOne
  with_reducible repeat' (first | assumption | apply ite_leads | apply State.bindTo_leads | split)

theorem execHeart_leads {P : Piece → Prop} {s₀ s : State} (h : s₀.Leads P s) (k : PortId) (fatal : Bool) (_count : BitVec 16) {t : State} (e : execHeart k fatal _count s = .next t)
    (pPorts : P .ports) (pTwin : P .twin) :
    s₀.Leads P t := by
  have _ : Fact (P .ports) := ⟨pPorts⟩
  have _ : Fact (P .twin) := ⟨pTwin⟩
  unfold execHeart at e
  cases e
  (try dsimp only)
  with_reducible repeat' (first | intro _ | assumption | apply ite_leads | apply State.heartOne_leads | apply State.irq_leads | apply State.modTwin_leads | apply foldl_leads | apply foldl_leads_snd | split)

theorem State.sendHeart_leads {P : Piece → Prop} [Fact (P .twin)] [Fact (P .lines)] [Fact (P .out)] {s₀ s : State} (h : s₀.Leads P s) (k : PortId) (fatal : Bool) :
    s₀.Leads P (State.sendHeart s k fatal) := by
  unfold State.sendHeart
  with_reducible repeat' (first | assumption | apply ite_leads | apply State.tellTwin_leads | apply State.modTwinPort_leads | split)

theorem execHeartSend_leads {P : Piece → Prop} {s₀ s : State} (h : s₀.Leads P s) (k : PortId) {t : State} (e : execHeartSend k s = .next t)
    (pTwin : P .twin) (pLines : P .lines) (pOut : P .out) :
    s₀.Leads P t := by
  have _ : Fact (P .twin) := ⟨pTwin⟩
  have _ : Fact (P .lines) := ⟨pLines⟩
  have _ : Fact (P .out) := ⟨pOut⟩
  unfold execHeartSend at e
  cases e
  with_reducible repeat' (first | assumption | apply ite_leads | apply State.sendHeart_leads | split)

theorem State.twinStore_leads {P : Piece → Prop} [Fact (P .fields)] [Fact (P .hbm)] [Fact (P .mem)] [Fact (P .net)] [Fact (P .coh)] [Fact (P .ras)] [Fact (P .twin)] [Fact (P .draws)] [Fact (P .out)] {s₀ : State} : ∀ (x : List CodeWord) (g : Agent) (p : PanelId) (t : TintId) (pa : BitVec 52) {s : State}, s₀.Leads P s → s₀.Leads P (State.twinStore s g p t pa x) := by
  intro x
  induction x with
  | nil =>
    intro g p t pa s h
    unfold State.twinStore; (try dsimp only)
    with_reducible repeat' (first | assumption | apply ite_leads | apply State.cohWritePlain_leads | apply State.storeCode_leads | apply ih | refine snd_leads (by assumption) ?_ | split)
  | cons y ys ih =>
    intro g p t pa s h
    unfold State.twinStore; (try dsimp only)
    with_reducible repeat' (first | assumption | apply ite_leads | apply State.cohWritePlain_leads | apply State.storeCode_leads | apply ih | refine snd_leads (by assumption) ?_ | split)

theorem execCkpt_leads {P : Piece → Prop} {s₀ s : State} (h : s₀.Leads P s) (k : PortId) (header : BitVec 128) (words : List CodeWord) {t : State} (e : execCkpt k header words s = .next t)
    (pFields : P .fields) (pHbm : P .hbm) (pMem : P .mem) (pNet : P .net) (pCoh : P .coh) (pRas : P .ras) (pTwin : P .twin) (pLines : P .lines) (pDraws : P .draws) (pOut : P .out) :
    s₀.Leads P t := by
  have _ : Fact (P .fields) := ⟨pFields⟩
  have _ : Fact (P .hbm) := ⟨pHbm⟩
  have _ : Fact (P .mem) := ⟨pMem⟩
  have _ : Fact (P .net) := ⟨pNet⟩
  have _ : Fact (P .coh) := ⟨pCoh⟩
  have _ : Fact (P .ras) := ⟨pRas⟩
  have _ : Fact (P .twin) := ⟨pTwin⟩
  have _ : Fact (P .lines) := ⟨pLines⟩
  have _ : Fact (P .draws) := ⟨pDraws⟩
  have _ : Fact (P .out) := ⟨pOut⟩
  unfold execCkpt at e
  cases e
  (try dsimp only)
  with_reducible repeat' (first | assumption | apply ite_leads | apply State.twinStore_leads | apply State.replyAbsent_leads | apply State.noteTwin_leads | refine snd_leads (by assumption) ?_ | split)

theorem execCkptMark_leads {P : Piece → Prop} {s₀ s : State} (h : s₀.Leads P s) (k : PortId) (header : BitVec 128) (epoch : DWord) {t : State} (e : execCkptMark k header epoch s = .next t)
    (pTwin : P .twin) (pLines : P .lines) (pOut : P .out) :
    s₀.Leads P t := by
  have _ : Fact (P .twin) := ⟨pTwin⟩
  have _ : Fact (P .lines) := ⟨pLines⟩
  have _ : Fact (P .out) := ⟨pOut⟩
  unfold execCkptMark at e
  cases e
  (try dsimp only)
  with_reducible repeat' (first | assumption | apply ite_leads | apply State.bindTo_leads | apply State.replyAbsent_leads | apply State.tellBind_leads | apply State.modBind_leads | split)

theorem execCkptAck_leads {P : Piece → Prop} {s₀ s : State} (h : s₀.Leads P s) (k : PortId) (header : BitVec 128) (epoch : DWord) {t : State} (e : execCkptAck k header epoch s = .next t)
    (pPorts : P .ports) (pTwin : P .twin) :
    s₀.Leads P t := by
  have _ : Fact (P .ports) := ⟨pPorts⟩
  have _ : Fact (P .twin) := ⟨pTwin⟩
  unfold execCkptAck at e
  cases e
  (try dsimp only)
  with_reducible repeat' (first | assumption | apply ite_leads | apply State.fenceDone_leads | apply State.releaseComps_leads | apply State.modBind_leads | refine snd_leads (by assumption) ?_ | split)

theorem State.sendMirror_leads {P : Piece → Prop} [Fact (P .twin)] [Fact (P .lines)] [Fact (P .out)] {s₀ s : State} (h : s₀.Leads P s) (k : PortId) :
    s₀.Leads P (State.sendMirror s k) := by
  unfold State.sendMirror
  (try dsimp only)
  with_reducible repeat' (first | assumption | apply ite_leads | apply State.tellBind_leads | apply State.tellTwin_leads | apply State.modTwinPort_leads | refine snd_leads (by assumption) ?_ | split)

theorem State.drainMirrors_leads {P : Piece → Prop} [Fact (P .twin)] [Fact (P .lines)] [Fact (P .out)] {s₀ s : State} (h : s₀.Leads P s)  :
    s₀.Leads P (State.drainMirrors s) := by
  unfold State.drainMirrors
  with_reducible repeat' (first | intro _ | assumption | apply ite_leads | apply State.sendMirror_leads | apply foldl_leads | apply foldl_leads_snd | split)

theorem State.ctlRefuse_leads {P : Piece → Prop} [Fact (P .twin)] {s₀ s : State} (h : s₀.Leads P s) (reason : BitVec 4) :
    s₀.Leads P (State.ctlRefuse s reason) := by
  unfold State.ctlRefuse
  with_reducible repeat' (first | intro _ | assumption | apply ite_leads | apply State.modTwin_leads | split)

theorem State.ctlDone_leads {P : Piece → Prop} [Fact (P .twin)] {s₀ s : State} (h : s₀.Leads P s)  :
    s₀.Leads P (State.ctlDone s) := by
  unfold State.ctlDone
  with_reducible repeat' (first | intro _ | assumption | apply ite_leads | apply State.modTwin_leads | split)

theorem execBindQuery_leads {P : Piece → Prop} {s₀ s : State} (h : s₀.Leads P s) (k : PortId) (header : BitVec 128) (payload : BitVec 512) {t : State} (e : execBindQuery k header payload s = .next t)
    (pLines : P .lines) (pOut : P .out) :
    s₀.Leads P t := by
  have _ : Fact (P .lines) := ⟨pLines⟩
  have _ : Fact (P .out) := ⟨pOut⟩
  unfold execBindQuery at e
  cases e
  (try dsimp only)
  with_reducible repeat' (first | assumption | apply ite_leads | apply State.replyAbsent_leads | apply State.tellTwin_leads | split)

theorem State.withdrawn_leads {P : Piece → Prop} [Fact (P .ports)] [Fact (P .twin)] {s₀ s : State} (h : s₀.Leads P s) (b : BindId) :
    s₀.Leads P (State.withdrawn s b) := by
  unfold State.withdrawn
  (try dsimp only)
  with_reducible repeat' (first | assumption | apply ite_leads | apply State.ctlRefuse_leads | apply State.fenceDone_leads | apply State.releasePanel_leads | apply State.emptyMirror_leads | apply State.modBind_leads | split)

theorem State.seedReply_leads {P : Piece → Prop} [Fact (P .twin)] {s₀ s : State} (h : s₀.Leads P s) (b : BindId) (payload : BitVec 512) :
    s₀.Leads P (State.seedReply s b payload) := by
  unfold State.seedReply
  (try dsimp only)
  with_reducible repeat' (first | assumption | apply ite_leads | apply State.ctlDone_leads | apply State.ctlRefuse_leads | apply State.modBind_leads | split)

theorem execBindReply_leads {P : Piece → Prop} {s₀ s : State} (h : s₀.Leads P s) (k : PortId) (header : BitVec 128) (payload : BitVec 512) {t : State} (e : execBindReply k header payload s = .next t)
    (pPorts : P .ports) (pTwin : P .twin) :
    s₀.Leads P t := by
  have _ : Fact (P .ports) := ⟨pPorts⟩
  have _ : Fact (P .twin) := ⟨pTwin⟩
  unfold execBindReply at e
  cases e
  (try dsimp only)
  with_reducible repeat' (first | assumption | apply ite_leads | apply State.seedReply_leads | apply State.withdrawn_leads | split)

theorem State.seedOne_leads {P : Piece → Prop} [Fact (P .fields)] [Fact (P .hbm)] [Fact (P .mem)] [Fact (P .ras)] [Fact (P .twin)] {s₀ s : State} (h : s₀.Leads P s) (b : BindId) :
    s₀.Leads P (State.seedOne b s) := by
  unfold State.seedOne
  (try dsimp only)
  with_reducible repeat' (first | assumption | apply ite_leads | apply State.readCode_leads | apply State.modBind_leads | apply State.modTwinPort_leads | refine snd_leads (by assumption) ?_ | split)

theorem State.seedSome_leads {P : Piece → Prop} [Fact (P .fields)] [Fact (P .hbm)] [Fact (P .mem)] [Fact (P .ras)] [Fact (P .twin)] {s₀ s : State} (h : s₀.Leads P s) (b : BindId) :
    s₀.Leads P (State.seedSome s b) := by
  unfold State.seedSome
  with_reducible repeat' (first | intro _ | assumption | apply ite_leads | apply State.seedOne_leads | apply foldl_leads | apply foldl_leads_snd | split)

theorem execSeedScanDone_leads {P : Piece → Prop} {s₀ s : State} (h : s₀.Leads P s) (b : BindId) {t : State} (e : execSeedScanDone b s = .next t)
    (pFields : P .fields) (pHbm : P .hbm) (pMem : P .mem) (pRas : P .ras) (pTwin : P .twin) :
    s₀.Leads P t := by
  have _ : Fact (P .fields) := ⟨pFields⟩
  have _ : Fact (P .hbm) := ⟨pHbm⟩
  have _ : Fact (P .mem) := ⟨pMem⟩
  have _ : Fact (P .ras) := ⟨pRas⟩
  have _ : Fact (P .twin) := ⟨pTwin⟩
  unfold execSeedScanDone at e
  cases e
  (try dsimp only)
  with_reducible repeat' (first | assumption | apply ite_leads | apply State.seedSome_leads | apply State.queueMark_leads | split)

theorem execSeedQueryTimeout_leads {P : Piece → Prop} {s₀ s : State} (h : s₀.Leads P s)  {t : State} (e : execSeedQueryTimeout s = .next t)
    (pTwin : P .twin) :
    s₀.Leads P t := by
  have _ : Fact (P .twin) := ⟨pTwin⟩
  unfold execSeedQueryTimeout at e
  cases e
  with_reducible repeat' (first | assumption | apply ite_leads | apply State.ctlRefuse_leads | split)

theorem State.seedBind_leads {P : Piece → Prop} [Fact (P .twin)] [Fact (P .lines)] [Fact (P .out)] {s₀ s : State} (h : s₀.Leads P s) (b : BindId) :
    s₀.Leads P (State.seedBind s b) := by
  unfold State.seedBind
  (try dsimp only)
  with_reducible repeat' (first | intro _ | assumption | apply ite_leads | apply State.ctlRefuse_leads | apply State.tellBind_leads | apply State.modTwin_leads | split)

theorem State.promoteAction_leads {P : Piece → Prop} [Fact (P .ports)] [Fact (P .ras)] [Fact (P .twin)] [Fact (P .out)] {s₀ s : State} (h : s₀.Leads P s) (b : BindId) :
    s₀.Leads P (State.promoteAction s b) := by
  unfold State.promoteAction
  (try dsimp only)
  with_reducible repeat' (first | assumption | apply ite_leads | apply State.ctlDone_leads | apply State.ctlRefuse_leads | apply State.promoteBind_leads | split)

theorem State.unfenceBind_leads {P : Piece → Prop} [Fact (P .ports)] [Fact (P .twin)] [Fact (P .out)] {s₀ s : State} (h : s₀.Leads P s) (b : BindId) :
    s₀.Leads P (State.unfenceBind s b) := by
  unfold State.unfenceBind
  (try dsimp only)
  with_reducible repeat' (first | assumption | apply ite_leads | apply State.ctlDone_leads | apply State.ctlRefuse_leads | apply State.bindTo_leads | apply State.fetchPanel_leads | apply State.releasePanel_leads | split)

theorem State.fenceBind_leads {P : Piece → Prop} [Fact (P .arrays)] [Fact (P .ports)] [Fact (P .pnl)] [Fact (P .twin)] {s₀ s : State} (h : s₀.Leads P s) (b : BindId) :
    s₀.Leads P (State.fenceBind s b) := by
  unfold State.fenceBind
  (try dsimp only)
  with_reducible repeat' (first | intro _ | assumption | apply ite_leads | apply State.ctlRefuse_leads | apply State.fenceDone_leads | apply State.haltPanel_leads | apply State.modBind_leads | apply State.modTwin_leads | split)

theorem State.twinControl_leads {P : Piece → Prop} [Fact (P .arrays)] [Fact (P .ports)] [Fact (P .pnl)] [Fact (P .ras)] [Fact (P .twin)] [Fact (P .lines)] [Fact (P .out)] {s₀ s : State} (h : s₀.Leads P s) (value : Word) :
    s₀.Leads P (State.twinControl s value) := by
  unfold State.twinControl
  (try dsimp only)
  with_reducible repeat' (first | assumption | apply ite_leads | apply State.fenceBind_leads | apply State.unfenceBind_leads | apply State.promoteAction_leads | apply State.seedBind_leads | apply State.note_leads | split)

theorem execSeed_leads {P : Piece → Prop} {s₀ s : State} (h : s₀.Leads P s) (value : Word) {t : State} (e : execSeed value s = .next t)
    (pArrays : P .arrays) (pPorts : P .ports) (pPnl : P .pnl) (pRas : P .ras) (pTwin : P .twin) (pLines : P .lines) (pOut : P .out) :
    s₀.Leads P t := by
  have _ : Fact (P .arrays) := ⟨pArrays⟩
  have _ : Fact (P .ports) := ⟨pPorts⟩
  have _ : Fact (P .pnl) := ⟨pPnl⟩
  have _ : Fact (P .ras) := ⟨pRas⟩
  have _ : Fact (P .twin) := ⟨pTwin⟩
  have _ : Fact (P .lines) := ⟨pLines⟩
  have _ : Fact (P .out) := ⟨pOut⟩
  unfold execSeed at e
  cases e
  with_reducible repeat' (first | intro _ | assumption | apply ite_leads | apply State.twinControl_leads | apply State.byPf0_leads | split)

theorem execPromote_leads {P : Piece → Prop} {s₀ s : State} (h : s₀.Leads P s) (value : Word) {t : State} (e : execPromote value s = .next t)
    (pArrays : P .arrays) (pPorts : P .ports) (pPnl : P .pnl) (pRas : P .ras) (pTwin : P .twin) (pLines : P .lines) (pOut : P .out) :
    s₀.Leads P t := by
  have _ : Fact (P .arrays) := ⟨pArrays⟩
  have _ : Fact (P .ports) := ⟨pPorts⟩
  have _ : Fact (P .pnl) := ⟨pPnl⟩
  have _ : Fact (P .ras) := ⟨pRas⟩
  have _ : Fact (P .twin) := ⟨pTwin⟩
  have _ : Fact (P .lines) := ⟨pLines⟩
  have _ : Fact (P .out) := ⟨pOut⟩
  unfold execPromote at e
  cases e
  with_reducible repeat' (first | intro _ | assumption | apply ite_leads | apply State.twinControl_leads | apply State.byPf0_leads | split)

theorem execUnfence_leads {P : Piece → Prop} {s₀ s : State} (h : s₀.Leads P s) (value : Word) {t : State} (e : execUnfence value s = .next t)
    (pArrays : P .arrays) (pPorts : P .ports) (pPnl : P .pnl) (pRas : P .ras) (pTwin : P .twin) (pLines : P .lines) (pOut : P .out) :
    s₀.Leads P t := by
  have _ : Fact (P .arrays) := ⟨pArrays⟩
  have _ : Fact (P .ports) := ⟨pPorts⟩
  have _ : Fact (P .pnl) := ⟨pPnl⟩
  have _ : Fact (P .ras) := ⟨pRas⟩
  have _ : Fact (P .twin) := ⟨pTwin⟩
  have _ : Fact (P .lines) := ⟨pLines⟩
  have _ : Fact (P .out) := ⟨pOut⟩
  unfold execUnfence at e
  cases e
  with_reducible repeat' (first | intro _ | assumption | apply ite_leads | apply State.twinControl_leads | apply State.byPf0_leads | split)

theorem execFence_leads {P : Piece → Prop} {s₀ s : State} (h : s₀.Leads P s) (value : Word) {t : State} (e : execFence value s = .next t)
    (pArrays : P .arrays) (pPorts : P .ports) (pPnl : P .pnl) (pRas : P .ras) (pTwin : P .twin) (pLines : P .lines) (pOut : P .out) :
    s₀.Leads P t := by
  have _ : Fact (P .arrays) := ⟨pArrays⟩
  have _ : Fact (P .ports) := ⟨pPorts⟩
  have _ : Fact (P .pnl) := ⟨pPnl⟩
  have _ : Fact (P .ras) := ⟨pRas⟩
  have _ : Fact (P .twin) := ⟨pTwin⟩
  have _ : Fact (P .lines) := ⟨pLines⟩
  have _ : Fact (P .out) := ⟨pOut⟩
  unfold execFence at e
  cases e
  with_reducible repeat' (first | intro _ | assumption | apply ite_leads | apply State.twinControl_leads | apply State.byPf0_leads | split)

theorem State.withdrawTwin_leads {P : Piece → Prop} [Fact (P .twin)] [Fact (P .lines)] [Fact (P .out)] {s₀ s : State} (h : s₀.Leads P s) (p : PanelId) :
    s₀.Leads P (State.withdrawTwin s p) := by
  unfold State.withdrawTwin
  (try dsimp only)
  with_reducible repeat' (first | assumption | apply ite_leads | apply State.fenceDone_leads | apply State.emptyMirror_leads | apply State.replyAbsent_leads | apply State.modBind_leads | refine snd_leads (by assumption) ?_ | split)

theorem State.freeTwin_leads {P : Piece → Prop} [Fact (P .pnl)] [Fact (P .twin)] {s₀ s : State} (h : s₀.Leads P s) (p : PanelId) :
    s₀.Leads P (State.freeTwin s p) := by
  unfold State.freeTwin
  with_reducible repeat' (first | assumption | apply ite_leads | apply State.modBind_leads | apply State.modPanel_leads | refine snd_leads (by assumption) ?_ | split)

end Sys2Proof.Machine
end

