-- ==== Sys2Proof/Laws/LeadsTwinLink.lean ====
section
/-!
SUPPORT. What the operations of Machine/TwinLink.lean keep (State.Leads).
-/

set_option linter.unusedTactic false
set_option linter.unreachableTactic false
set_option linter.unusedVariables false

set_option Elab.async false

namespace Sys2Proof.Machine

theorem State.logLane_leads {P : Piece → Prop} [Fact (P .ras)] [Fact (P .out)] {s₀ s : State} (h : s₀.Leads P s) (k : PortId) (lane : Nat) (spare : Option Nat) :
    s₀.Leads P (State.logLane s k lane spare) := by
  unfold State.logLane
  with_reducible repeat' (first | assumption | apply ite_leads | apply State.addPatch_leads | apply State.logFault_leads | split)

theorem State.failLane_leads {P : Piece → Prop} [Fact (P .ras)] [Fact (P .twin)] [Fact (P .out)] {s₀ s : State} (h : s₀.Leads P s) (k : PortId) (trained : BitVec 34) (lane : Nat) :
    s₀.Leads P (State.failLane k trained s lane) := by
  unfold State.failLane
  (try dsimp only)
  with_reducible repeat' (first | assumption | apply ite_leads | apply State.logLane_leads | apply State.modTwinPort_leads | refine snd_leads (by assumption) ?_ | split)

theorem State.twinFails_leads {P : Piece → Prop} [Fact (P .ports)] [Fact (P .ras)] [Fact (P .twin)] [Fact (P .out)] {s₀ s : State} (h : s₀.Leads P s) (k : PortId) :
    s₀.Leads P (State.twinFails s k) := by
  unfold State.twinFails
  (try dsimp only)
  with_reducible repeat' (first | assumption | apply ite_leads | apply State.suspendTwins_leads | apply State.readyFrom_leads | apply State.irq_leads | apply State.logFault_leads | apply State.modTwinPort_leads | split)

theorem State.sendLevel_leads {P : Piece → Prop} [Fact (P .twin)] [Fact (P .lines)] [Fact (P .out)] {s₀ s : State} (h : s₀.Leads P s) (k : PortId) :
    s₀.Leads P (State.sendLevel s k) := by
  unfold State.sendLevel
  with_reducible repeat' (first | assumption | apply ite_leads | apply State.tellTwin_leads | apply State.modTwinPort_leads | split)

theorem State.twinStarts_leads {P : Piece → Prop} [Fact (P .twin)] [Fact (P .lines)] [Fact (P .out)] {s₀ s : State} (h : s₀.Leads P s) (k : PortId) :
    s₀.Leads P (State.twinStarts s k) := by
  unfold State.twinStarts
  with_reducible repeat' (first | assumption | apply ite_leads | apply State.sendLevel_leads | apply State.modTwinPort_leads | apply State.modLine_leads | split)

theorem execTwinTraining_leads {P : Piece → Prop} {s₀ s : State} (h : s₀.Leads P s) (k : PortId) (lanes : BitVec 34) {t : State} (e : execTwinTraining k lanes s = .next t)
    (pPorts : P .ports) (pRas : P .ras) (pTwin : P .twin) (pLines : P .lines) (pOut : P .out) :
    s₀.Leads P t := by
  have _ : Fact (P .ports) := ⟨pPorts⟩
  have _ : Fact (P .ras) := ⟨pRas⟩
  have _ : Fact (P .twin) := ⟨pTwin⟩
  have _ : Fact (P .lines) := ⟨pLines⟩
  have _ : Fact (P .out) := ⟨pOut⟩
  unfold execTwinTraining at e
  cases e
  (try dsimp only)
  with_reducible repeat' (first | intro _ | assumption | apply ite_leads | apply State.twinStarts_leads | apply State.twinFails_leads | apply State.failLane_leads | apply State.resumeTwins_leads | apply State.readyFrom_leads | apply State.irq_leads | apply State.modTwinPort_leads | apply foldl_leads | apply foldl_leads_snd | split)

theorem execTwinLaneRetire_leads {P : Piece → Prop} {s₀ s : State} (h : s₀.Leads P s) (k : PortId) (lane : Fin 34) {t : State} (e : execTwinLaneRetire k lane s = .next t)
    (pPorts : P .ports) (pRas : P .ras) (pTwin : P .twin) (pOut : P .out) :
    s₀.Leads P t := by
  have _ : Fact (P .ports) := ⟨pPorts⟩
  have _ : Fact (P .ras) := ⟨pRas⟩
  have _ : Fact (P .twin) := ⟨pTwin⟩
  have _ : Fact (P .out) := ⟨pOut⟩
  unfold execTwinLaneRetire at e
  cases e
  (try dsimp only)
  with_reducible repeat' (first | assumption | apply ite_leads | apply State.twinFails_leads | apply State.logLane_leads | apply State.modTwinPort_leads | refine snd_leads (by assumption) ?_ | split)

theorem execTwinSpareInService_leads {P : Piece → Prop} {s₀ s : State} (h : s₀.Leads P s) (k : PortId) (lane : Fin 34) {t : State} (e : execTwinSpareInService k lane s = .next t)
    (pTwin : P .twin) :
    s₀.Leads P t := by
  have _ : Fact (P .twin) := ⟨pTwin⟩
  unfold execTwinSpareInService at e
  cases e
  (try dsimp only)
  with_reducible repeat' (first | assumption | apply ite_leads | apply State.modTwinPort_leads | split)

theorem execTwinPortDark_leads {P : Piece → Prop} {s₀ s : State} (h : s₀.Leads P s) (k : PortId) {t : State} (e : execTwinPortDark k s = .next t)
    (pPorts : P .ports) (pTwin : P .twin) :
    s₀.Leads P t := by
  have _ : Fact (P .ports) := ⟨pPorts⟩
  have _ : Fact (P .twin) := ⟨pTwin⟩
  unfold execTwinPortDark at e
  cases e
  (try dsimp only)
  with_reducible repeat' (first | assumption | apply ite_leads | apply State.suspendTwins_leads | apply State.readyFrom_leads | apply State.irq_leads | apply State.modTwinPort_leads | split)

theorem execTwinPortReturn_leads {P : Piece → Prop} {s₀ s : State} (h : s₀.Leads P s) (k : PortId) {t : State} (e : execTwinPortReturn k s = .next t)
    (pPorts : P .ports) (pTwin : P .twin) (pLines : P .lines) (pOut : P .out) :
    s₀.Leads P t := by
  have _ : Fact (P .ports) := ⟨pPorts⟩
  have _ : Fact (P .twin) := ⟨pTwin⟩
  have _ : Fact (P .lines) := ⟨pLines⟩
  have _ : Fact (P .out) := ⟨pOut⟩
  unfold execTwinPortReturn at e
  cases e
  (try dsimp only)
  with_reducible repeat' (first | assumption | apply ite_leads | apply State.twinStarts_leads | apply State.resumeTwins_leads | apply State.readyFrom_leads | apply State.irq_leads | split)

theorem State.pumpTwin_leads {P : Piece → Prop} [Fact (P .lines)] [Fact (P .out)] {s₀ : State} : ∀ (fuel : Nat) {s : State}, s₀.Leads P s → ∀ (k : PortId), s₀.Leads P (s.pumpTwin fuel k) := by
  intro fuel
  induction fuel with
  | zero => intro s h k; unfold State.pumpTwin; exact h
  | succ n ih =>
    intro s h k
    unfold State.pumpTwin
    cases s.lines[k].waiting
    · exact h
    · exact ite_leads (ih (State.emit_leads (State.modLine_leads h _ _) _) _) h

theorem execTwinFlitReceive_leads {P : Piece → Prop} {s₀ s : State} (h : s₀.Leads P s) (k : PortId) (seq : BitVec 12) (ack : BitVec 12) (crcOk : Bool) {t : State} (e : execTwinFlitReceive k seq ack crcOk s = .next t)
    (pTwin : P .twin) (pLines : P .lines) (pOut : P .out) :
    s₀.Leads P t := by
  have _ : Fact (P .twin) := ⟨pTwin⟩
  have _ : Fact (P .lines) := ⟨pLines⟩
  have _ : Fact (P .out) := ⟨pOut⟩
  unfold execTwinFlitReceive at e
  cases e
  (try dsimp only)
  with_reducible repeat' (first | assumption | apply ite_leads | apply State.pumpTwin_leads | apply State.emit_leads | apply State.modTwinPort_leads | apply State.modLine_leads | split)

theorem execTwinReplay_leads {P : Piece → Prop} {s₀ s : State} (h : s₀.Leads P s) (k : PortId) {t : State} (e : execTwinReplay k s = .next t)
    (pTwin : P .twin) (pOut : P .out) :
    s₀.Leads P t := by
  have _ : Fact (P .twin) := ⟨pTwin⟩
  have _ : Fact (P .out) := ⟨pOut⟩
  unfold execTwinReplay at e
  cases e
  (try dsimp only)
  with_reducible repeat' (first | assumption | apply ite_leads | apply State.emit_leads | apply State.modTwinPort_leads | refine snd_leads (by assumption) ?_ | split)

theorem execTwinRetrain_leads {P : Piece → Prop} {s₀ s : State} (h : s₀.Leads P s) (k : PortId) {t : State} (e : execTwinRetrain k s = .next t)
    (pPorts : P .ports) (pTwin : P .twin) :
    s₀.Leads P t := by
  have _ : Fact (P .ports) := ⟨pPorts⟩
  have _ : Fact (P .twin) := ⟨pTwin⟩
  unfold execTwinRetrain at e
  cases e
  (try dsimp only)
  with_reducible repeat' (first | assumption | apply ite_leads | apply State.suspendTwins_leads | apply State.readyFrom_leads | apply State.modTwinPort_leads | split)

theorem execTwinRetrainDone_leads {P : Piece → Prop} {s₀ s : State} (h : s₀.Leads P s) (k : PortId) (passed : Bool) {t : State} (e : execTwinRetrainDone k passed s = .next t)
    (pPorts : P .ports) (pRas : P .ras) (pTwin : P .twin) (pOut : P .out) :
    s₀.Leads P t := by
  have _ : Fact (P .ports) := ⟨pPorts⟩
  have _ : Fact (P .ras) := ⟨pRas⟩
  have _ : Fact (P .twin) := ⟨pTwin⟩
  have _ : Fact (P .out) := ⟨pOut⟩
  unfold execTwinRetrainDone at e
  cases e
  (try dsimp only)
  with_reducible repeat' (first | assumption | apply ite_leads | apply State.twinFails_leads | apply State.resumeTwins_leads | apply State.readyFrom_leads | apply State.irq_leads | apply State.logFault_leads | apply State.modTwinPort_leads | split)

theorem State.sendKeys_leads {P : Piece → Prop} [Fact (P .lines)] [Fact (P .draws)] [Fact (P .out)] {s₀ s : State} (h : s₀.Leads P s) (k : PortId) :
    s₀.Leads P (State.sendKeys s k) := by
  unfold State.sendKeys
  (try dsimp only)
  with_reducible repeat' (first | intro _ | assumption | apply ite_leads | apply State.tellTwin_leads | apply State.drawn_leads | apply foldl_leads | apply foldl_leads_snd | split)

theorem execLevel_leads {P : Piece → Prop} {s₀ s : State} (h : s₀.Leads P s) (k : PortId) (payload : BitVec 512) {t : State} (e : execLevel k payload s = .next t)
    (pTwin : P .twin) (pLines : P .lines) (pDraws : P .draws) (pOut : P .out) :
    s₀.Leads P t := by
  have _ : Fact (P .twin) := ⟨pTwin⟩
  have _ : Fact (P .lines) := ⟨pLines⟩
  have _ : Fact (P .draws) := ⟨pDraws⟩
  have _ : Fact (P .out) := ⟨pOut⟩
  unfold execLevel at e
  cases e
  (try dsimp only)
  with_reducible repeat' (first | intro _ | assumption | apply ite_leads | apply State.sendKeys_leads | apply State.sendLevel_leads | apply State.modTwinPort_leads | apply State.modTwin_leads | split)

theorem execKeyx_leads {P : Piece → Prop} {s₀ s : State} (h : s₀.Leads P s) (k : PortId) (part : BitVec 16) (last : Bool) (bytes : List Byte) {t : State} (e : execKeyx k part last bytes s = .next t)
    (pRas : P .ras) (pTwin : P .twin) (pOut : P .out) :
    s₀.Leads P t := by
  have _ : Fact (P .ras) := ⟨pRas⟩
  have _ : Fact (P .twin) := ⟨pTwin⟩
  have _ : Fact (P .out) := ⟨pOut⟩
  unfold execKeyx at e
  cases e
  (try dsimp only)
  with_reducible repeat' (first | assumption | apply ite_leads | apply State.noteTwin_leads | apply State.modTwinPort_leads | split)

theorem State.twinRefuse_leads {P : Piece → Prop} [Fact (P .ras)] [Fact (P .lines)] [Fact (P .out)] {s₀ s : State} (h : s₀.Leads P s) (k : PortId) (header : BitVec 128) (kind : ReqKind) :
    s₀.Leads P (State.twinRefuse s k header kind) := by
  unfold State.twinRefuse
  with_reducible repeat' (first | assumption | apply ite_leads | apply State.answerTwin_leads | apply State.noteTwin_leads | split)

theorem State.twinInject_leads {P : Piece → Prop} [Fact (P .net)] [Fact (P .pnl)] [Fact (P .twin)] {s₀ s : State} (h : s₀.Leads P s) (k : PortId) (header : BitVec 128) (pa : BitVec 52) (kind : ReqKind) :
    s₀.Leads P (State.twinInject s k header pa kind) := by
  unfold State.twinInject
  (try dsimp only)
  with_reducible repeat' (first | assumption | apply ite_leads | refine State.inject_leads ?_ _ _ _ _ _ _ _ _ (by assumption) | apply State.modTwinPort_leads | refine snd_leads (by assumption) ?_ | split)

theorem State.twinInjectOnce_leads {P : Piece → Prop} [Fact (P .net)] [Fact (P .pnl)] [Fact (P .twin)] {s₀ s : State} (h : s₀.Leads P s) (k : PortId) (header : BitVec 128) (pa : BitVec 52) (kind : ReqKind) :
    s₀.Leads P (State.twinInjectOnce s k header pa kind) := by
  unfold State.twinInjectOnce
  (try dsimp only)
  with_reducible repeat' (first | intro _ | assumption | apply ite_leads | apply State.twinInject_leads | apply State.modTxn_leads | refine State.inject_leads ?_ _ _ _ _ _ _ _ _ (by assumption) | refine snd_leads (by assumption) ?_ | split)

theorem execTwinRd_leads {P : Piece → Prop} {s₀ s : State} (h : s₀.Leads P s) (k : PortId) (header : BitVec 128) {t : State} (e : execTwinRd k header s = .next t)
    (pNet : P .net) (pPnl : P .pnl) (pRas : P .ras) (pTwin : P .twin) (pLines : P .lines) (pOut : P .out) :
    s₀.Leads P t := by
  have _ : Fact (P .net) := ⟨pNet⟩
  have _ : Fact (P .pnl) := ⟨pPnl⟩
  have _ : Fact (P .ras) := ⟨pRas⟩
  have _ : Fact (P .twin) := ⟨pTwin⟩
  have _ : Fact (P .lines) := ⟨pLines⟩
  have _ : Fact (P .out) := ⟨pOut⟩
  unfold execTwinRd at e
  cases e
  (try dsimp only)
  with_reducible repeat' (first | assumption | apply ite_leads | apply State.twinInject_leads | apply State.twinRefuse_leads | split)

theorem execTwinWr_leads {P : Piece → Prop} {s₀ s : State} (h : s₀.Leads P s) (k : PortId) (header : BitVec 128) (words : List CodeWord) {t : State} (e : execTwinWr k header words s = .next t)
    (pNet : P .net) (pPnl : P .pnl) (pRas : P .ras) (pTwin : P .twin) (pLines : P .lines) (pOut : P .out) :
    s₀.Leads P t := by
  have _ : Fact (P .net) := ⟨pNet⟩
  have _ : Fact (P .pnl) := ⟨pPnl⟩
  have _ : Fact (P .ras) := ⟨pRas⟩
  have _ : Fact (P .twin) := ⟨pTwin⟩
  have _ : Fact (P .lines) := ⟨pLines⟩
  have _ : Fact (P .out) := ⟨pOut⟩
  unfold execTwinWr at e
  cases e
  (try dsimp only)
  with_reducible repeat' (first | assumption | apply ite_leads | apply State.twinInject_leads | apply State.twinRefuse_leads | split)

theorem execTwinAt_leads {P : Piece → Prop} {s₀ s : State} (h : s₀.Leads P s) (k : PortId) (header : BitVec 128) (operand : CodeWord) (compare : DWord) {t : State} (e : execTwinAt k header operand compare s = .next t)
    (pNet : P .net) (pPnl : P .pnl) (pRas : P .ras) (pTwin : P .twin) (pLines : P .lines) (pOut : P .out) :
    s₀.Leads P t := by
  have _ : Fact (P .net) := ⟨pNet⟩
  have _ : Fact (P .pnl) := ⟨pPnl⟩
  have _ : Fact (P .ras) := ⟨pRas⟩
  have _ : Fact (P .twin) := ⟨pTwin⟩
  have _ : Fact (P .lines) := ⟨pLines⟩
  have _ : Fact (P .out) := ⟨pOut⟩
  unfold execTwinAt at e
  cases e
  (try dsimp only)
  with_reducible repeat' (first | assumption | apply ite_leads | apply State.twinInjectOnce_leads | apply State.twinRefuse_leads | split)

theorem execTwinSig_leads {P : Piece → Prop} {s₀ s : State} (h : s₀.Leads P s) (k : PortId) (header : BitVec 128) {t : State} (e : execTwinSig k header s = .next t)
    (pNet : P .net) (pPnl : P .pnl) (pRas : P .ras) (pTwin : P .twin) (pLines : P .lines) (pOut : P .out) :
    s₀.Leads P t := by
  have _ : Fact (P .net) := ⟨pNet⟩
  have _ : Fact (P .pnl) := ⟨pPnl⟩
  have _ : Fact (P .ras) := ⟨pRas⟩
  have _ : Fact (P .twin) := ⟨pTwin⟩
  have _ : Fact (P .lines) := ⟨pLines⟩
  have _ : Fact (P .out) := ⟨pOut⟩
  unfold execTwinSig at e
  cases e
  (try dsimp only)
  with_reducible repeat' (first | assumption | apply ite_leads | apply State.twinInjectOnce_leads | apply State.twinRefuse_leads | refine snd_leads (by assumption) ?_ | split)

theorem State.twinAnswered_leads {P : Piece → Prop} [Fact (P .net)] [Fact (P .twin)] {s₀ s : State} (h : s₀.Leads P s) (k : PortId) (t : Txn) (left : Nat) (status : BitVec 3) (ws : List CodeWord) :
    s₀.Leads P (State.twinAnswered s k t left status ws) := by
  unfold State.twinAnswered
  (try dsimp only)
  with_reducible repeat' (first | assumption | apply ite_leads | apply State.modTxn_leads | apply State.answerTxn_leads | apply State.modTwinPort_leads | refine snd_leads (by assumption) ?_ | split)

theorem execTwinResponse_leads {P : Piece → Prop} {s₀ s : State} (h : s₀.Leads P s) (k : PortId) (header : BitVec 128) (words : List CodeWord) {t : State} (e : execTwinResponse k header words s = .next t)
    (pNet : P .net) (pTwin : P .twin) :
    s₀.Leads P t := by
  have _ : Fact (P .net) := ⟨pNet⟩
  have _ : Fact (P .twin) := ⟨pTwin⟩
  unfold execTwinResponse at e
  cases e
  (try dsimp only)
  with_reducible repeat' (first | assumption | apply ite_leads | apply State.twinAnswered_leads | refine snd_leads (by assumption) ?_ | split)

theorem execTwinRemoteBound_leads {P : Piece → Prop} {s₀ s : State} (h : s₀.Leads P s) (k : PortId) (id : TxId) {t : State} (e : execTwinRemoteBound k id s = .next t)
    (pNet : P .net) (pLines : P .lines) (pOut : P .out) :
    s₀.Leads P t := by
  have _ : Fact (P .net) := ⟨pNet⟩
  have _ : Fact (P .lines) := ⟨pLines⟩
  have _ : Fact (P .out) := ⟨pOut⟩
  unfold execTwinRemoteBound at e
  cases e
  with_reducible repeat' (first | assumption | apply ite_leads | apply State.answerTwin_leads | apply State.modTxn_leads | refine snd_leads (by assumption) ?_ | split)

theorem execTwinLocalBound_leads {P : Piece → Prop} {s₀ s : State} (h : s₀.Leads P s) (k : PortId) (id : TxId) {t : State} (e : execTwinLocalBound k id s = .next t)
    (pNet : P .net) (pTwin : P .twin) :
    s₀.Leads P t := by
  have _ : Fact (P .net) := ⟨pNet⟩
  have _ : Fact (P .twin) := ⟨pTwin⟩
  unfold execTwinLocalBound at e
  cases e
  with_reducible repeat' (first | assumption | apply ite_leads | apply State.refuseTxn_leads | apply State.modTwinPort_leads | refine snd_leads (by assumption) ?_ | split)

end Sys2Proof.Machine
end

