-- ==== Sys2Proof/Laws/LeadsHostPort.lean ====
section
/-!
SUPPORT. What the operations of Machine/HostPort.lean keep (State.Leads).
-/

set_option linter.unusedTactic false
set_option linter.unreachableTactic false
set_option linter.unusedVariables false

set_option Elab.async false

namespace Sys2Proof.Machine

theorem State.readyMessage_leads {P : Piece → Prop} [Fact (P .ports)] [Fact (P .out)] {s₀ s : State} (h : s₀.Leads P s) (p : PortId) :
    s₀.Leads P (State.readyMessage s p) := by
  unfold State.readyMessage
  with_reducible repeat' (first | assumption | apply ite_leads | apply State.emit_leads | apply State.modPort_leads | split)

theorem execLinkTraining_leads {P : Piece → Prop} {s₀ s : State} (h : s₀.Leads P s) (port : PortId) (rate : Fin 7) (width : Fin 17) (flit : Bool) {t : State} (e : execLinkTraining port rate width flit s = .next t)
    (pPorts : P .ports) (pOut : P .out) :
    s₀.Leads P t := by
  have _ : Fact (P .ports) := ⟨pPorts⟩
  have _ : Fact (P .out) := ⟨pOut⟩
  unfold execLinkTraining at e
  cases e
  (try dsimp only)
  with_reducible repeat' (first | assumption | apply ite_leads | apply State.readyMessage_leads | apply State.readyFrom_leads | apply State.emit_leads | apply State.modPort_leads | split)

theorem execLinkSpeedReached_leads {P : Piece → Prop} {s₀ s : State} (h : s₀.Leads P s) (port : PortId) (rate : Fin 7) {t : State} (e : execLinkSpeedReached port rate s = .next t)
    (pPorts : P .ports) (pOut : P .out) :
    s₀.Leads P t := by
  have _ : Fact (P .ports) := ⟨pPorts⟩
  have _ : Fact (P .out) := ⟨pOut⟩
  unfold execLinkSpeedReached at e
  cases e
  with_reducible repeat' (first | assumption | apply ite_leads | apply State.readyMessage_leads | apply State.readyFrom_leads | apply State.modPort_leads | split)

theorem execAspmL1Entry_leads {P : Piece → Prop} {s₀ s : State} (h : s₀.Leads P s) (port : PortId) (substate : Fin 3) {t : State} (e : execAspmL1Entry port substate s = .next t)
    (pPorts : P .ports) (pOut : P .out) :
    s₀.Leads P t := by
  have _ : Fact (P .ports) := ⟨pPorts⟩
  have _ : Fact (P .out) := ⟨pOut⟩
  unfold execAspmL1Entry at e
  cases e
  (try dsimp only)
  with_reducible repeat' (first | assumption | apply ite_leads | apply State.emit_leads | apply State.modPort_leads | split)

theorem execL0pNarrow_leads {P : Piece → Prop} {s₀ s : State} (h : s₀.Leads P s) (port : PortId) {t : State} (e : execL0pNarrow port s = .next t)
    (pPorts : P .ports) (pOut : P .out) :
    s₀.Leads P t := by
  have _ : Fact (P .ports) := ⟨pPorts⟩
  have _ : Fact (P .out) := ⟨pOut⟩
  unfold execL0pNarrow at e
  cases e
  (try dsimp only)
  with_reducible repeat' (first | assumption | apply ite_leads | apply State.emit_leads | apply State.modPort_leads | split)

theorem execLinkPmExit_leads {P : Piece → Prop} {s₀ s : State} (h : s₀.Leads P s) (port : PortId) {t : State} (e : execLinkPmExit port s = .next t)
    (pPorts : P .ports) (pOut : P .out) :
    s₀.Leads P t := by
  have _ : Fact (P .ports) := ⟨pPorts⟩
  have _ : Fact (P .out) := ⟨pOut⟩
  unfold execLinkPmExit at e
  cases e
  (try dsimp only)
  with_reducible repeat' (first | assumption | apply ite_leads | apply State.emit_leads | apply State.modPort_leads | split)

theorem execIntaLevelChange_leads {P : Piece → Prop} {s₀ s : State} (h : s₀.Leads P s) (port : PortId) {t : State} (e : execIntaLevelChange port s = .next t)
    (pPorts : P .ports) (pOut : P .out) :
    s₀.Leads P t := by
  have _ : Fact (P .ports) := ⟨pPorts⟩
  have _ : Fact (P .out) := ⟨pOut⟩
  unfold execIntaLevelChange at e
  cases e
  (try dsimp only)
  with_reducible repeat' (first | assumption | apply ite_leads | apply State.emit_leads | apply State.modPort_leads | split)

theorem execMsiXSend_leads {P : Piece → Prop} {s₀ s : State} (h : s₀.Leads P s) (port : PortId) (v : VfId) (vector : Fin 32) {t : State} (e : execMsiXSend port v vector s = .next t)
    (pPorts : P .ports) (pOut : P .out) :
    s₀.Leads P t := by
  have _ : Fact (P .ports) := ⟨pPorts⟩
  have _ : Fact (P .out) := ⟨pOut⟩
  unfold execMsiXSend at e
  cases e
  (try dsimp only)
  with_reducible repeat' (first | assumption | apply ite_leads | apply State.emit_leads | apply State.modVf_leads | split)

theorem State.bar2Answer_leads {P : Piece → Prop} [Fact (P .ras)] [Fact (P .out)] {s₀ s : State} (h : s₀.Leads P s) (port : PortId) (e : Eng) (va : BitVec 55) (n : Nat) (rs : List Reply) :
    s₀.Leads P (State.bar2Answer s port e va n rs) := by
  unfold State.bar2Answer
  (try dsimp only)
  with_reducible repeat' (first | assumption | apply ite_leads | apply State.egress_leads | apply State.emit_leads | split)

theorem execBar2Read_leads {P : Piece → Prop} {s₀ s : State} (h : s₀.Leads P s) (port : PortId) (v : VfId) (place : Bar2At) (bytes : Nat) {t : State} (e : execBar2Read port v place bytes s = .next t)
    (pFields : P .fields) (pHbm : P .hbm) (pMem : P .mem) (pNet : P .net) (pCoh : P .coh) (pPorts : P .ports) (pPnl : P .pnl) (pRas : P .ras) (pTwin : P .twin) (pLines : P .lines) (pDraws : P .draws) (pOut : P .out) :
    s₀.Leads P t := by
  have _ : Fact (P .fields) := ⟨pFields⟩
  have _ : Fact (P .hbm) := ⟨pHbm⟩
  have _ : Fact (P .mem) := ⟨pMem⟩
  have _ : Fact (P .net) := ⟨pNet⟩
  have _ : Fact (P .coh) := ⟨pCoh⟩
  have _ : Fact (P .ports) := ⟨pPorts⟩
  have _ : Fact (P .pnl) := ⟨pPnl⟩
  have _ : Fact (P .ras) := ⟨pRas⟩
  have _ : Fact (P .twin) := ⟨pTwin⟩
  have _ : Fact (P .lines) := ⟨pLines⟩
  have _ : Fact (P .draws) := ⟨pDraws⟩
  have _ : Fact (P .out) := ⟨pOut⟩
  unfold execBar2Read at e
  cases e
  (try dsimp only)
  with_reducible repeat' (first | assumption | apply ite_leads | apply State.bar2Answer_leads | apply State.plainFault_leads | apply State.readPlainVas_leads | apply State.abortRequest_leads | apply State.unsupported_leads | apply State.noteHost_leads | refine snd_leads (by assumption) ?_ | split)

theorem State.bar2Word_leads {P : Piece → Prop} [Fact (P .fields)] [Fact (P .hbm)] [Fact (P .mem)] [Fact (P .net)] [Fact (P .coh)] [Fact (P .pnl)] [Fact (P .ras)] [Fact (P .twin)] [Fact (P .draws)] [Fact (P .out)] {s₀ s : State} (h : s₀.Leads P s) (port : PortId) (e : Eng) (va : BitVec 55) (t : Target) (w : CodeWord) {u : State}
    (k : s.bar2Word port e va t w = some u) : s₀.Leads P u := by
  have logged : ∀ {r : BitVec 3 × State}, s₀.Leads P r.2 →
      s₀.Leads P (if r.1 = 0 then r.2 else r.2.noteHost port (r.1.setWidth 8)) :=
    fun l => ite_leads l (State.noteHost_leads l _ _)
  have store : ∀ {u}, ((s.writeTarget { e with owner := .bar2 port, va := some va } t [w]).map
      fun r => if r.1 = 0 then r.2 else r.2.noteHost port (r.1.setWidth 8)) = some u → s₀.Leads P u := by
    intro u k
    obtain ⟨r, m, j⟩ := Option.map_eq_some_iff.mp k
    exact j ▸ logged (State.writeTarget_leads h _ t [w] (b₀ := r.1) (u := r.2) m)
  unfold State.bar2Word at k
  dsimp only at k
  split at k
  · split at k
    · rw [Option.some.injEq] at k; exact k ▸ State.noteHost_leads h _ _
    · split at k
      · rw [Option.some.injEq] at k; exact k ▸ logged (State.cohWritePlain_leads h _ _ _ _ _)
      · exact store k
  · exact store k

theorem State.bar2Words_leads {P : Piece → Prop} [Fact (P .fields)] [Fact (P .hbm)] [Fact (P .mem)] [Fact (P .net)] [Fact (P .coh)] [Fact (P .ports)] [Fact (P .pnl)] [Fact (P .ras)] [Fact (P .twin)] [Fact (P .draws)] [Fact (P .out)] {s₀ : State} : ∀ (x : List (BitVec 55 × CodeWord)) (port : PortId) (p : PanelId) (e : Eng) {s : State},
    s₀.Leads P s → ∀ {u : State}, s.bar2Words port p e x = some u → s₀.Leads P u := by
  intro x
  induction x with
  | nil => intro port p e s h u k; unfold State.bar2Words at k; rw [Option.some.injEq] at k; exact k ▸ h
  | cons y ys ih =>
    intro port p e s h u k
    have w := State.translate_leads h e.agent e.sel e.panel e.tint y.1 .write
    unfold State.bar2Words at k
    split at k
    · rw [Option.some.injEq] at k; exact k ▸ State.aer_leads (State.noteHost_leads (State.plainFault_leads (snd_leads ‹_› w) _ _ _ _ _) _ _) _ _
    · obtain ⟨t, m, j⟩ := Option.bind_eq_some_iff.mp k
      exact ih port p e (State.bar2Word_leads (snd_leads ‹_› w) _ _ _ _ _ m) j

theorem execBar2Write_leads {P : Piece → Prop} {s₀ s : State} (h : s₀.Leads P s) (port : PortId) (v : VfId) (place : Bar2At) (poisoned : Bool) (bytes : List Byte)
    {t : State} (e : execBar2Write port v place poisoned bytes s = .next t)
    (pFields : P .fields) (pHbm : P .hbm) (pMem : P .mem) (pNet : P .net) (pCoh : P .coh) (pPorts : P .ports) (pPnl : P .pnl) (pRas : P .ras) (pTwin : P .twin) (pDraws : P .draws) (pOut : P .out) :
    s₀.Leads P t := by
  have _ : Fact (P .fields) := ⟨pFields⟩
  have _ : Fact (P .hbm) := ⟨pHbm⟩
  have _ : Fact (P .mem) := ⟨pMem⟩
  have _ : Fact (P .net) := ⟨pNet⟩
  have _ : Fact (P .coh) := ⟨pCoh⟩
  have _ : Fact (P .ports) := ⟨pPorts⟩
  have _ : Fact (P .pnl) := ⟨pPnl⟩
  have _ : Fact (P .ras) := ⟨pRas⟩
  have _ : Fact (P .twin) := ⟨pTwin⟩
  have _ : Fact (P .draws) := ⟨pDraws⟩
  have _ : Fact (P .out) := ⟨pOut⟩
  unfold execBar2Write at e
  injection e with e
  rw [← e]
  dsimp only
  refine ite_leads h (ite_leads (State.aer_leads (State.noteHost_leads h _ _) _ _) (ite_leads (State.noteHost_leads h _ _) ?_))
  split
  · exact State.aer_leads (State.noteHost_leads h _ _) _ _
  · refine ite_leads (State.accessEvent_leads h _ _ _) (ite_leads h ?_)
    exact getD_leads h fun u k => State.bar2Words_leads _ _ _ _ h k

theorem execInboundUnsupported_leads {P : Piece → Prop} {s₀ s : State} (h : s₀.Leads P s) (port : PortId) (posted : Bool) {t : State} (e : execInboundUnsupported port posted s = .next t)
    (pPorts : P .ports) (pRas : P .ras) (pOut : P .out) :
    s₀.Leads P t := by
  have _ : Fact (P .ports) := ⟨pPorts⟩
  have _ : Fact (P .ras) := ⟨pRas⟩
  have _ : Fact (P .out) := ⟨pOut⟩
  unfold execInboundUnsupported at e
  cases e
  (try dsimp only)
  with_reducible repeat' (first | assumption | apply ite_leads | apply State.refusedRequest_leads | apply State.noteHost_leads | split)

theorem execIdeKm_leads {P : Piece → Prop} {s₀ s : State} (h : s₀.Leads P s) (port : PortId) (stream : Fin 9) (key : BitVec 256) {t : State} (e : execIdeKm port stream key s = .next t)
    (pPorts : P .ports) :
    s₀.Leads P t := by
  have _ : Fact (P .ports) := ⟨pPorts⟩
  unfold execIdeKm at e
  cases e
  with_reducible repeat' (first | assumption | apply ite_leads | apply State.modPort_leads | split)

end Sys2Proof.Machine
end

