-- ==== Sys2Proof/Laws/LeadsFuse.lean ====
section
/-!
SUPPORT. What the operations of Machine/Fuse.lean keep (State.Leads).
-/

set_option linter.unusedTactic false
set_option linter.unreachableTactic false
set_option linter.unusedVariables false

set_option Elab.async false

namespace Sys2Proof.Machine

theorem State.freshNonce_leads {P : Piece → Prop} [Fact (P .lcs)] [Fact (P .draws)] {s₀ s : State} (h : s₀.Leads P s)  :
    s₀.Leads P (State.freshNonce s) := by
  unfold State.freshNonce
  with_reducible repeat' (first | assumption | apply ite_leads | apply State.drawn_leads | apply State.modLcs_leads | split)

theorem State.lcsEnd_leads {P : Piece → Prop} [Fact (P .ports)] [Fact (P .lcs)] [Fact (P .draws)] {s₀ s : State} (h : s₀.Leads P s) (status : BitVec 4) (result : Byte) :
    s₀.Leads P (State.lcsEnd s status result) := by
  unfold State.lcsEnd
  with_reducible repeat' (first | assumption | apply ite_leads | apply State.freshNonce_leads | apply State.irq_leads | apply State.modLcs_leads | split)

theorem State.lcsRefused_leads {P : Piece → Prop} [Fact (P .ports)] [Fact (P .lcs)] [Fact (P .draws)] {s₀ s : State} (h : s₀.Leads P s) (result : Byte) :
    s₀.Leads P (State.lcsRefused s result) := by
  unfold State.lcsRefused
  with_reducible repeat' (first | assumption | apply ite_leads | apply State.lcsEnd_leads | split)

theorem State.destroyKeys_leads {P : Piece → Prop} [Fact (P .fuse)] [Fact (P .pnl)] [Fact (P .draws)] {s₀ s : State} (h : s₀.Leads P s)  :
    s₀.Leads P (State.destroyKeys s) := by
  unfold State.destroyKeys
  (try dsimp only)
  with_reducible repeat' (first | assumption | apply ite_leads | apply State.drawn_leads | apply State.modFuse_leads | apply State.modPnl_leads | split)
  all_goals first | assumption | exact fun h => h | exact ⟨fun _ h => h, Nat.le_refl _, Nat.le_refl _, Nat.le_refl _, List.prefix_refl _, rfl⟩

theorem State.lcsTakes_leads {P : Piece → Prop} [Fact (P .fuse)] [Fact (P .pnl)] [Fact (P .lcs)] [Fact (P .draws)] {s₀ s : State} (h : s₀.Leads P s) (target : Nat) :
    s₀.Leads P (State.lcsTakes s target) := by
  unfold State.lcsTakes
  (try dsimp only)
  with_reducible repeat' (first | assumption | apply ite_leads | apply State.destroyKeys_leads | apply State.modLcs_leads | apply State.modPnl_leads | split)

theorem State.lcsBurn_leads {P : Piece → Prop} [Fact (P .fuse)] [Fact (P .ports)] [Fact (P .pnl)] [Fact (P .lcs)] [Fact (P .draws)] {s₀ s : State} (h : s₀.Leads P s) (target : Nat) (fails : Option Nat) :
    s₀.Leads P (State.lcsBurn s target fails) := by
  unfold State.lcsBurn
  (try dsimp only)
  with_reducible repeat' (first | assumption | apply ite_leads | apply State.lcsTakes_leads | apply State.lcsRefused_leads | apply State.lcsEnd_leads | apply State.modFuse_leads | refine snd_leads (by assumption) ?_ | split)
  all_goals exact Fuses.burn_rises _ _ _

theorem State.settleRetire_leads {P : Piece → Prop} [Fact (P .fuse)] [Fact (P .ports)] [Fact (P .pnl)] [Fact (P .lcs)] [Fact (P .draws)] {s₀ s : State} (h : s₀.Leads P s)  :
    s₀.Leads P (State.settleRetire s) := by
  unfold State.settleRetire
  with_reducible repeat' (first | assumption | apply ite_leads | apply State.lcsBurn_leads | apply State.modLcs_leads | refine snd_leads (by assumption) ?_ | split)

end Sys2Proof.Machine
end

