-- ==== Sys2Proof/Laws/LeadsDust.lean ====
section
/-!
SUPPORT. What the operations of Machine/Dust.lean keep (State.Leads).
-/

set_option linter.unusedTactic false
set_option linter.unreachableTactic false
set_option linter.unusedVariables false

set_option Elab.async false

namespace Sys2Proof.Machine

theorem State.quiesceVf_leads {P : Piece → Prop} [Fact (P .arrays)] [Fact (P .ports)] [Fact (P .pnl)] {s₀ s : State} (h : s₀.Leads P s) (port : PortId) (v : VfId) :
    s₀.Leads P (State.quiesceVf s port v) := by
  unfold State.quiesceVf
  (try dsimp only)
  with_reducible repeat' (first | intro _ | assumption | apply ite_leads | apply State.haltSilent_leads | apply State.modVf_leads | apply State.modPort_leads | apply foldl_leads | apply foldl_leads_snd | split)

theorem State.stopRing_leads {P : Piece → Prop} [Fact (P .pnl)] {s₀ s : State} (h : s₀.Leads P s) (p : PanelId) :
    s₀.Leads P (State.stopRing s p) := by
  unfold State.stopRing
  with_reducible repeat' (first | assumption | apply ite_leads | apply State.modPanel_leads | split)

theorem State.quiesce_leads {P : Piece → Prop} [Fact (P .arrays)] [Fact (P .ports)] [Fact (P .pnl)] {s₀ s : State} (h : s₀.Leads P s) (port : PortId) (v : VfId) :
    s₀.Leads P (State.quiesce s port v) := by
  unfold State.quiesce
  (try dsimp only)
  with_reducible repeat' (first | assumption | apply ite_leads | apply State.stopRing_leads | apply State.quiesceVf_leads | refine snd_leads (by assumption) ?_ | split)

theorem State.enterDust_leads {P : Piece → Prop} [Fact (P .arrays)] [Fact (P .ports)] [Fact (P .pnl)] {s₀ s : State} (h : s₀.Leads P s) (p : PanelId) :
    s₀.Leads P (State.enterDust s p) := by
  unfold State.enterDust
  (try dsimp only)
  with_reducible repeat' (first | assumption | apply ite_leads | apply State.stopRing_leads | apply State.quiesceVf_leads | apply State.modPanel_leads | refine snd_leads (by assumption) ?_ | split)

theorem State.toPhase_leads {P : Piece → Prop} [Fact (P .pnl)] {s₀ s : State} (h : s₀.Leads P s) (p : PanelId) (phase : BitVec 3) :
    s₀.Leads P (State.toPhase s p phase) := by
  unfold State.toPhase
  with_reducible repeat' (first | assumption | apply ite_leads | apply State.modPanel_leads | split)

theorem State.endHalted_leads {P : Piece → Prop} [Fact (P .arrays)] [Fact (P .ports)] {s₀ s : State} (h : s₀.Leads P s) (p : PanelId) :
    s₀.Leads P (State.endHalted s p) := by
  unfold State.endHalted
  (try dsimp only)
  with_reducible repeat' (first | intro _ | assumption | apply ite_leads | apply State.modQ_leads | apply State.modSeq_leads | apply foldl_leads | apply foldl_leads_snd | split)

theorem execDustHaltEnd_leads {P : Piece → Prop} {s₀ s : State} (h : s₀.Leads P s) (p : PanelId) {t : State} (e : execDustHaltEnd p s = .next t)
    (pArrays : P .arrays) (pPorts : P .ports) (pPnl : P .pnl) (pTwin : P .twin) (pLines : P .lines) (pOut : P .out) :
    s₀.Leads P t := by
  have _ : Fact (P .arrays) := ⟨pArrays⟩
  have _ : Fact (P .ports) := ⟨pPorts⟩
  have _ : Fact (P .pnl) := ⟨pPnl⟩
  have _ : Fact (P .twin) := ⟨pTwin⟩
  have _ : Fact (P .lines) := ⟨pLines⟩
  have _ : Fact (P .out) := ⟨pOut⟩
  unfold execDustHaltEnd at e
  cases e
  with_reducible repeat' (first | assumption | apply ite_leads | apply State.endHalted_leads | apply State.toPhase_leads | apply State.withdrawTwin_leads | split)

theorem execDustUnbindEnd_leads {P : Piece → Prop} {s₀ s : State} (h : s₀.Leads P s) (p : PanelId) {t : State} (e : execDustUnbindEnd p s = .next t)
    (pFields : P .fields) (pHbm : P .hbm) (pMem : P .mem) (pNet : P .net) (pCoh : P .coh) (pPnl : P .pnl) (pRas : P .ras) (pTwin : P .twin) (pOut : P .out) :
    s₀.Leads P t := by
  have _ : Fact (P .fields) := ⟨pFields⟩
  have _ : Fact (P .hbm) := ⟨pHbm⟩
  have _ : Fact (P .mem) := ⟨pMem⟩
  have _ : Fact (P .net) := ⟨pNet⟩
  have _ : Fact (P .coh) := ⟨pCoh⟩
  have _ : Fact (P .pnl) := ⟨pPnl⟩
  have _ : Fact (P .ras) := ⟨pRas⟩
  have _ : Fact (P .twin) := ⟨pTwin⟩
  have _ : Fact (P .out) := ⟨pOut⟩
  unfold execDustUnbindEnd at e
  cases e
  (try dsimp only)
  with_reducible repeat' (first | assumption | apply ite_leads | apply State.toPhase_leads | apply State.flushLines_leads | split)

theorem execDustFlushEnd_leads {P : Piece → Prop} {s₀ s : State} (h : s₀.Leads P s) (p : PanelId) {t : State} (e : execDustFlushEnd p s = .next t)
    (pFields : P .fields) (pPnl : P .pnl) :
    s₀.Leads P t := by
  have _ : Fact (P .fields) := ⟨pFields⟩
  have _ : Fact (P .pnl) := ⟨pPnl⟩
  unfold execDustFlushEnd at e
  cases e
  with_reducible repeat' (first | intro _ | assumption | apply ite_leads | apply State.toPhase_leads | apply State.modTu_leads | apply foldl_leads | apply foldl_leads_snd | split)

theorem State.dropKeys_leads {P : Piece → Prop} [Fact (P .pnl)] {s₀ s : State} (h : s₀.Leads P s) (p : PanelId) :
    s₀.Leads P (State.dropKeys s p) := by
  unfold State.dropKeys
  with_reducible repeat' (first | assumption | apply ite_leads | apply State.modPanel_leads | apply State.modPnl_leads | split)

theorem execDustKeysEnd_leads {P : Piece → Prop} {s₀ s : State} (h : s₀.Leads P s) (p : PanelId) {t : State} (e : execDustKeysEnd p s = .next t)
    (pPnl : P .pnl) :
    s₀.Leads P t := by
  have _ : Fact (P .pnl) := ⟨pPnl⟩
  unfold execDustKeysEnd at e
  cases e
  with_reducible repeat' (first | assumption | apply ite_leads | apply State.dropKeys_leads | apply State.toPhase_leads | split)

theorem State.zeroRange_leads {P : Piece → Prop} [Fact (P .hbm)] [Fact (P .mem)] [Fact (P .ras)] [Fact (P .twin)] {s₀ s : State} (h : s₀.Leads P s) (p : PanelId) (base length : Nat) :
    s₀.Leads P (State.zeroRange s p base length) := by
  unfold State.zeroRange
  (try dsimp only)
  with_reducible repeat' (first | intro _ | assumption | apply ite_leads | apply State.writeCode_leads | apply foldl_leads | apply foldl_leads_snd | split)

theorem State.zeroGrants_leads {P : Piece → Prop} [Fact (P .hbm)] [Fact (P .mem)] [Fact (P .ras)] [Fact (P .twin)] {s₀ s : State} (h : s₀.Leads P s) (p : PanelId) (pick : Grant → Bool) :
    s₀.Leads P (State.zeroGrants s p pick) := by
  unfold State.zeroGrants
  with_reducible repeat' (first | intro _ | assumption | apply ite_leads | apply State.zeroRange_leads | apply foldl_leads | apply foldl_leads_snd | split)

theorem State.zeroArray_leads {P : Piece → Prop} [Fact (P .arrays)] [Fact (P .coh)] {s₀ s : State} (h : s₀.Leads P s) (a : ArrayId) :
    s₀.Leads P (State.zeroArray s a) := by
  unfold State.zeroArray
  with_reducible repeat' (first | assumption | apply ite_leads | apply State.modCoh_leads | apply State.modArray_leads | split)

theorem execDustZeroEnd_leads {P : Piece → Prop} {s₀ s : State} (h : s₀.Leads P s) (p : PanelId) {t : State} (e : execDustZeroEnd p s = .next t)
    (pArrays : P .arrays) (pHbm : P .hbm) (pMem : P .mem) (pCoh : P .coh) (pPnl : P .pnl) (pRas : P .ras) (pTwin : P .twin) :
    s₀.Leads P t := by
  have _ : Fact (P .arrays) := ⟨pArrays⟩
  have _ : Fact (P .hbm) := ⟨pHbm⟩
  have _ : Fact (P .mem) := ⟨pMem⟩
  have _ : Fact (P .coh) := ⟨pCoh⟩
  have _ : Fact (P .pnl) := ⟨pPnl⟩
  have _ : Fact (P .ras) := ⟨pRas⟩
  have _ : Fact (P .twin) := ⟨pTwin⟩
  unfold execDustZeroEnd at e
  cases e
  (try dsimp only)
  with_reducible repeat' (first | intro _ | assumption | apply ite_leads | apply State.zeroArray_leads | apply State.zeroGrants_leads | apply State.toPhase_leads | apply foldl_leads | apply foldl_leads_snd | split)

theorem State.freeVf_leads {P : Piece → Prop} [Fact (P .ports)] {s₀ s : State} (h : s₀.Leads P s) (p : PanelId) :
    s₀.Leads P (State.freeVf s p) := by
  unfold State.freeVf
  with_reducible repeat' (first | assumption | apply ite_leads | apply State.modVf_leads | refine snd_leads (by assumption) ?_ | split)

theorem State.freePanel_leads {P : Piece → Prop} [Fact (P .arrays)] [Fact (P .sites)] [Fact (P .ports)] [Fact (P .img)] [Fact (P .pnl)] [Fact (P .twin)] {s₀ s : State} (h : s₀.Leads P s) (p : PanelId) :
    s₀.Leads P (State.freePanel s p) := by
  unfold State.freePanel
  (try dsimp only)
  with_reducible repeat' (first | intro _ | assumption | apply ite_leads | apply State.freeVf_leads | apply State.dropKeys_leads | apply State.freeTwin_leads | apply State.modPanel_leads | apply State.modImg_leads | apply State.modSite_leads | apply State.modArray_leads | apply foldl_leads | apply foldl_leads_snd | split)

theorem execDustReleaseEnd_leads {P : Piece → Prop} {s₀ s : State} (h : s₀.Leads P s) (p : PanelId) {t : State} (e : execDustReleaseEnd p s = .next t)
    (pFuse : P .fuse) (pArrays : P .arrays) (pSites : P .sites) (pPorts : P .ports) (pImg : P .img) (pPnl : P .pnl) (pLcs : P .lcs) (pTwin : P .twin) (pDraws : P .draws) :
    s₀.Leads P t := by
  have _ : Fact (P .fuse) := ⟨pFuse⟩
  have _ : Fact (P .arrays) := ⟨pArrays⟩
  have _ : Fact (P .sites) := ⟨pSites⟩
  have _ : Fact (P .ports) := ⟨pPorts⟩
  have _ : Fact (P .img) := ⟨pImg⟩
  have _ : Fact (P .pnl) := ⟨pPnl⟩
  have _ : Fact (P .lcs) := ⟨pLcs⟩
  have _ : Fact (P .twin) := ⟨pTwin⟩
  have _ : Fact (P .draws) := ⟨pDraws⟩
  unfold execDustReleaseEnd at e
  cases e
  with_reducible repeat' (first | assumption | apply ite_leads | apply State.freePanel_leads | apply State.settleRetire_leads | split)

theorem execSealedFillDone_leads {P : Piece → Prop} {s₀ s : State} (h : s₀.Leads P s) (p : PanelId) {t : State} (e : execSealedFillDone p s = .next t)
    (pHbm : P .hbm) (pMem : P .mem) (pPnl : P .pnl) (pRas : P .ras) (pTwin : P .twin) :
    s₀.Leads P t := by
  have _ : Fact (P .hbm) := ⟨pHbm⟩
  have _ : Fact (P .mem) := ⟨pMem⟩
  have _ : Fact (P .pnl) := ⟨pPnl⟩
  have _ : Fact (P .ras) := ⟨pRas⟩
  have _ : Fact (P .twin) := ⟨pTwin⟩
  unfold execSealedFillDone at e
  cases e
  with_reducible repeat' (first | assumption | apply ite_leads | apply State.zeroGrants_leads | apply State.modPanel_leads | split)

end Sys2Proof.Machine
end

