-- ==== Sys2Proof/Laws/LeadsCritical.lean ====
section
/-!
SUPPORT. What the operations of Machine/Critical.lean keep (State.Leads).
-/

set_option linter.unusedTactic false
set_option linter.unreachableTactic false
set_option linter.unusedVariables false

set_option Elab.async false

namespace Sys2Proof.Machine

/-- A counter is only ever set to a higher value. -/
theorem State.setCounter_leads {P : Piece → Prop} [Fact (P .fuse)] [Fact (P .pnl)] {s₀ s : State} (h : s₀.Leads P s) (auth : Nat) (panel : Byte) (ctr : DWord)
    (v : auth = 1 → s.fuse.ctrVendor.toNat ≤ ctr.toNat) (o : auth = 2 → s.fuse.ctrOperator.toNat ≤ ctr.toNat) :
    s₀.Leads P (s.setCounter auth panel ctr) := by
  unfold State.setCounter
  split
  · exact State.modFuse_leads h _ ⟨fun _ h => h, v ‹_›, Nat.le_refl _, Nat.le_refl _, List.prefix_refl _, rfl⟩
  · split
    · exact State.modFuse_leads h _ ⟨fun _ h => h, Nat.le_refl _, o ‹_›, Nat.le_refl _, List.prefix_refl _, rfl⟩
    · split
      · exact State.modPanel_leads h _ _
      · exact h

theorem State.accept_leads {P : Piece → Prop} [Fact (P .fuse)] [Fact (P .pnl)] {s₀ s : State} (h : s₀.Leads P s) (c : Critical) {u : State} (e : s.accept c = .ok u) :
    s₀.Leads P u := by
  unfold State.accept at e
  split at e
  · cases e
  · split at e
    · cases e
    · rename_i auth key stored k
      have w := State.authorityOf_counter k
      split at e
      · cases e; exact h
      · split at e
        · cases e
        · split at e
          · cases e
          · rename_i n
            cases e
            exact State.setCounter_leads h _ _ _ (fun a => w.1 a ▸ Nat.le_of_not_le n) (fun a => w.2 a ▸ Nat.le_of_not_le n)

theorem State.destroyPanel_leads {P : Piece → Prop} [Fact (P .fuse)] [Fact (P .arrays)] [Fact (P .ports)] [Fact (P .pnl)] {s₀ s : State} (h : s₀.Leads P s) (panel : Byte) (ctr : DWord) (mac : BitVec 128) (args : List Byte) :
    s₀.Leads P (State.destroyPanel s panel ctr mac args).2 := by
  unfold State.destroyPanel
  with_reducible repeat' (first | assumption | apply ite_leads | refine State.accept_leads ?_ _ (by assumption) | apply State.enterDust_leads | refine snd_leads (by assumption) ?_ | split)

end Sys2Proof.Machine
end

