-- ==== Sys2Proof/Laws/LeadsImageLoad.lean ====
section
/-!
SUPPORT. What the operations of Machine/ImageLoad.lean keep (State.Leads).
-/

set_option linter.unusedTactic false
set_option linter.unreachableTactic false
set_option linter.unusedVariables false

set_option Elab.async false

namespace Sys2Proof.Machine

theorem State.imageEnd_leads {P : Piece → Prop} [Fact (P .ports)] [Fact (P .img)] {s₀ s : State} (h : s₀.Leads P s) (st : BitVec 4) (e : ImgErr) :
    s₀.Leads P (State.imageEnd s st e) := by
  unfold State.imageEnd
  with_reducible repeat' (first | assumption | apply ite_leads | apply State.irq_leads | apply State.modImg_leads | split)

theorem State.imageDone_leads {P : Piece → Prop} [Fact (P .ports)] [Fact (P .img)] {s₀ s : State} (h : s₀.Leads P s)  :
    s₀.Leads P (State.imageDone s) := by
  unfold State.imageDone
  with_reducible repeat' (first | assumption | apply ite_leads | apply State.imageEnd_leads | split)

theorem State.imageRefused_leads {P : Piece → Prop} [Fact (P .arrays)] [Fact (P .sites)] [Fact (P .ports)] [Fact (P .img)] [Fact (P .pnl)] [Fact (P .twin)] {s₀ s : State} (h : s₀.Leads P s) (e : ImgErr) :
    s₀.Leads P (State.imageRefused s e) := by
  unfold State.imageRefused
  (try dsimp only)
  with_reducible repeat' (first | assumption | apply ite_leads | apply State.imageEnd_leads | apply State.freePanel_leads | apply State.modPanel_leads | split)

theorem State.requestImage_leads {P : Piece → Prop} [Fact (P .arrays)] [Fact (P .sites)] [Fact (P .ports)] [Fact (P .img)] [Fact (P .pnl)] [Fact (P .ras)] [Fact (P .twin)] [Fact (P .out)] {s₀ s : State} (h : s₀.Leads P s)  :
    s₀.Leads P (State.requestImage s) := by
  unfold State.requestImage
  (try dsimp only)
  with_reducible repeat' (first | assumption | apply ite_leads | apply State.imageRefused_leads | apply State.issueRead_leads | apply State.noteHost_leads | apply State.modImg_leads | split)

theorem State.imgControl_leads {P : Piece → Prop} [Fact (P .fuse)] [Fact (P .arrays)] [Fact (P .sites)] [Fact (P .ports)] [Fact (P .img)] [Fact (P .pnl)] [Fact (P .ras)] [Fact (P .twin)] [Fact (P .out)] {s₀ s : State} (h : s₀.Leads P s) (value : Word) : s₀.Leads P (s.imgControl value) := by
  unfold State.imgControl
  refine ite_leads (State.note_leads h) ?_
  have m := State.modImg_leads h fun i => { i with commitSvn := bit value 2, wait := bit value 1, port := asFin 2 (fld value.toNat 0 1) }
  refine ite_leads m ?_
  have n := State.modImg_leads m fun i => { i with kind := 0, panel := 0 }
  dsimp only
  split
  · exact State.imageRefused_leads n _
  · rename_i e
    split at e
    · have w := State.accept_leads n _ e
      exact ite_leads (State.imageRefused_leads w _) (State.requestImage_leads w)
    · cases e
      exact ite_leads (State.imageRefused_leads n _) (State.requestImage_leads n)

theorem execImgGo_leads {P : Piece → Prop} {s₀ s : State} (h : s₀.Leads P s) (value : Word) {t : State} (e : execImgGo value s = .next t)
    (pFuse : P .fuse) (pArrays : P .arrays) (pSites : P .sites) (pPorts : P .ports) (pImg : P .img) (pPnl : P .pnl) (pRas : P .ras) (pTwin : P .twin) (pOut : P .out) :
    s₀.Leads P t := by
  have _ : Fact (P .fuse) := ⟨pFuse⟩
  have _ : Fact (P .arrays) := ⟨pArrays⟩
  have _ : Fact (P .sites) := ⟨pSites⟩
  have _ : Fact (P .ports) := ⟨pPorts⟩
  have _ : Fact (P .img) := ⟨pImg⟩
  have _ : Fact (P .pnl) := ⟨pPnl⟩
  have _ : Fact (P .ras) := ⟨pRas⟩
  have _ : Fact (P .twin) := ⟨pTwin⟩
  have _ : Fact (P .out) := ⟨pOut⟩
  unfold execImgGo at e
  cases e
  with_reducible repeat' (first | intro _ | assumption | apply ite_leads | apply State.imgControl_leads | apply State.byPf0_leads | split)

theorem State.imageRead_leads {P : Piece → Prop} [Fact (P .arrays)] [Fact (P .sites)] [Fact (P .ports)] [Fact (P .img)] [Fact (P .pnl)] [Fact (P .ras)] [Fact (P .twin)] [Fact (P .out)] {s₀ s : State} (h : s₀.Leads P s) (r : HostRead) :
    s₀.Leads P (State.imageRead s r) := by
  unfold State.imageRead
  (try dsimp only)
  with_reducible repeat' (first | assumption | apply ite_leads | apply State.imageRefused_leads | apply State.noteRead_leads | apply State.modImg_leads | apply State.modPort_leads | refine snd_leads (by assumption) ?_ | split)

theorem execImageReadDone_leads {P : Piece → Prop} {s₀ s : State} (h : s₀.Leads P s) (result : HostRead) {t : State} (e : execImageReadDone result s = .next t)
    (pArrays : P .arrays) (pSites : P .sites) (pPorts : P .ports) (pImg : P .img) (pPnl : P .pnl) (pRas : P .ras) (pTwin : P .twin) (pOut : P .out) :
    s₀.Leads P t := by
  have _ : Fact (P .arrays) := ⟨pArrays⟩
  have _ : Fact (P .sites) := ⟨pSites⟩
  have _ : Fact (P .ports) := ⟨pPorts⟩
  have _ : Fact (P .img) := ⟨pImg⟩
  have _ : Fact (P .pnl) := ⟨pPnl⟩
  have _ : Fact (P .ras) := ⟨pRas⟩
  have _ : Fact (P .twin) := ⟨pTwin⟩
  have _ : Fact (P .out) := ⟨pOut⟩
  unfold execImageReadDone at e
  cases e
  with_reducible repeat' (first | assumption | apply ite_leads | apply State.imageRead_leads | split)

theorem State.readAnswered_leads {P : Piece → Prop} [Fact (P .arrays)] [Fact (P .sites)] [Fact (P .ports)] [Fact (P .img)] [Fact (P .pnl)] [Fact (P .ras)] [Fact (P .twin)] [Fact (P .out)] {s₀ s : State} (h : s₀.Leads P s) (port : PortId) (read : Nat) (r : HostRead) :
    s₀.Leads P (State.readAnswered s port read r) := by
  unfold State.readAnswered
  (try dsimp only)
  with_reducible repeat' (first | intro _ | assumption | apply ite_leads | apply State.imageRead_leads | apply State.commandRead_leads | apply State.fetchVf_leads | apply State.modPort_leads | apply foldl_leads | apply foldl_leads_snd | refine snd_leads (by assumption) ?_ | split)

theorem execHostReadCompletion_leads {P : Piece → Prop} {s₀ s : State} (h : s₀.Leads P s) (port : PortId) (read : Nat) (result : HostRead) {t : State} (e : execHostReadCompletion port read result s = .next t)
    (pArrays : P .arrays) (pSites : P .sites) (pPorts : P .ports) (pImg : P .img) (pPnl : P .pnl) (pRas : P .ras) (pTwin : P .twin) (pOut : P .out) :
    s₀.Leads P t := by
  have _ : Fact (P .arrays) := ⟨pArrays⟩
  have _ : Fact (P .sites) := ⟨pSites⟩
  have _ : Fact (P .ports) := ⟨pPorts⟩
  have _ : Fact (P .img) := ⟨pImg⟩
  have _ : Fact (P .pnl) := ⟨pPnl⟩
  have _ : Fact (P .ras) := ⟨pRas⟩
  have _ : Fact (P .twin) := ⟨pTwin⟩
  have _ : Fact (P .out) := ⟨pOut⟩
  unfold execHostReadCompletion at e
  cases e
  with_reducible repeat' (first | assumption | apply ite_leads | apply State.readAnswered_leads | split)

theorem execHostReadTimeout_leads {P : Piece → Prop} {s₀ s : State} (h : s₀.Leads P s) (port : PortId) (read : Nat) {t : State} (e : execHostReadTimeout port read s = .next t)
    (pArrays : P .arrays) (pSites : P .sites) (pPorts : P .ports) (pImg : P .img) (pPnl : P .pnl) (pRas : P .ras) (pTwin : P .twin) (pOut : P .out) :
    s₀.Leads P t := by
  have _ : Fact (P .arrays) := ⟨pArrays⟩
  have _ : Fact (P .sites) := ⟨pSites⟩
  have _ : Fact (P .ports) := ⟨pPorts⟩
  have _ : Fact (P .img) := ⟨pImg⟩
  have _ : Fact (P .pnl) := ⟨pPnl⟩
  have _ : Fact (P .ras) := ⟨pRas⟩
  have _ : Fact (P .twin) := ⟨pTwin⟩
  have _ : Fact (P .out) := ⟨pOut⟩
  unfold execHostReadTimeout at e
  cases e
  with_reducible repeat' (first | assumption | apply ite_leads | apply State.readAnswered_leads | split)

theorem execImageWaitEnd_leads {P : Piece → Prop} {s₀ s : State} (h : s₀.Leads P s) (expired : Bool) {t : State} (e : execImageWaitEnd expired s = .next t)
    (pImg : P .img) :
    s₀.Leads P t := by
  have _ : Fact (P .img) := ⟨pImg⟩
  unfold execImageWaitEnd at e
  cases e
  with_reducible repeat' (first | assumption | apply ite_leads | apply State.modImg_leads | split)

theorem execImageCheckDone_leads {P : Piece → Prop} {s₀ s : State} (h : s₀.Leads P s)  {t : State} (e : execImageCheckDone s = .next t)
    (pArrays : P .arrays) (pSites : P .sites) (pPorts : P .ports) (pImg : P .img) (pPnl : P .pnl) (pTwin : P .twin) :
    s₀.Leads P t := by
  have _ : Fact (P .arrays) := ⟨pArrays⟩
  have _ : Fact (P .sites) := ⟨pSites⟩
  have _ : Fact (P .ports) := ⟨pPorts⟩
  have _ : Fact (P .img) := ⟨pImg⟩
  have _ : Fact (P .pnl) := ⟨pPnl⟩
  have _ : Fact (P .twin) := ⟨pTwin⟩
  unfold execImageCheckDone at e
  cases e
  (try dsimp only)
  with_reducible repeat' (first | assumption | apply ite_leads | apply State.imageRefused_leads | apply State.modPanel_leads | apply State.modImg_leads | refine snd_leads (by assumption) ?_ | split)

theorem State.holdArray_leads {P : Piece → Prop} [Fact (P .arrays)] [Fact (P .net)] {s₀ s : State} (h : s₀.Leads P s) (b : Base) (a : ArrayId) :
    s₀.Leads P (State.holdArray b s a) := by
  unfold State.holdArray
  (try dsimp only)
  with_reducible repeat' (first | assumption | apply ite_leads | apply State.setSink_leads | apply State.modArray_leads | split)

theorem State.leaveOut_leads {P : Piece → Prop} [Fact (P .fields)] [Fact (P .net)] [Fact (P .sites)] {s₀ s : State} (h : s₀.Leads P s) (b : Base) (f : FieldId) :
    s₀.Leads P (State.leaveOut b s f) := by
  unfold State.leaveOut
  with_reducible repeat' (first | intro _ | assumption | apply ite_leads | apply State.setSink_leads | apply State.modSite_leads | apply State.modField_leads | apply foldl_leads | apply foldl_leads_snd | split)

theorem State.unnamed_leads {P : Piece → Prop} [Fact (P .net)] {s₀ s : State} (h : s₀.Leads P s) (b : Base) :
    s₀.Leads P (State.unnamed s b) := by
  unfold State.unnamed
  (try dsimp only)
  with_reducible repeat' (first | intro _ | assumption | apply ite_leads | apply State.setSink_leads | apply foldl_leads | apply foldl_leads_snd | split)

theorem State.holdLinks_leads {P : Piece → Prop} [Fact (P .net)] {s₀ s : State} (h : s₀.Leads P s) (b : Base) (k : Fin 10) :
    s₀.Leads P (State.holdLinks b s k) := by
  unfold State.holdLinks
  (try dsimp only)
  with_reducible repeat' (first | assumption | apply ite_leads | apply State.modLath_leads | split)

theorem State.applyBase_leads {P : Piece → Prop} [Fact (P .fuse)] [Fact (P .arrays)] [Fact (P .fields)] [Fact (P .net)] [Fact (P .coh)] [Fact (P .sites)] [Fact (P .ports)] [Fact (P .img)] {s₀ s : State} (h : s₀.Leads P s) (i : Image) : s₀.Leads P (s.applyBase i) := by
  unfold State.applyBase
  refine State.readyFrom_leads (State.imageDone_leads ?_) _
  have m := foldl_leads (fun t a k => State.holdLinks_leads k (parseBase i) a) (allFin 10)
    (State.unnamed_leads (foldl_leads (fun t a k => State.leaveOut_leads k (parseBase i) a) (allFin 8)
      (foldl_leads (fun t a k => State.holdArray_leads k (parseBase i) a) (allFin 40) h)) (parseBase i))
  refine ite_leads (State.modFuse_leads ?_ _ ⟨fun _ h => h, Nat.le_refl _, Nat.le_refl _, ?_, List.prefix_refl _, rfl⟩) ?_
  · exact State.modImg_leads (State.modCoh_leads (State.modNet_leads m _) _) _
  · dsimp only; split <;> omega
  · exact State.modImg_leads (State.modCoh_leads (State.modNet_leads m _) _) _

theorem execBaseImageApply_leads {P : Piece → Prop} {s₀ s : State} (h : s₀.Leads P s)  {t : State} (e : execBaseImageApply s = .next t)
    (pFuse : P .fuse) (pArrays : P .arrays) (pFields : P .fields) (pNet : P .net) (pCoh : P .coh) (pSites : P .sites) (pPorts : P .ports) (pImg : P .img) (pPnl : P .pnl) (pTwin : P .twin) :
    s₀.Leads P t := by
  have _ : Fact (P .fuse) := ⟨pFuse⟩
  have _ : Fact (P .arrays) := ⟨pArrays⟩
  have _ : Fact (P .fields) := ⟨pFields⟩
  have _ : Fact (P .net) := ⟨pNet⟩
  have _ : Fact (P .coh) := ⟨pCoh⟩
  have _ : Fact (P .sites) := ⟨pSites⟩
  have _ : Fact (P .ports) := ⟨pPorts⟩
  have _ : Fact (P .img) := ⟨pImg⟩
  have _ : Fact (P .pnl) := ⟨pPnl⟩
  have _ : Fact (P .twin) := ⟨pTwin⟩
  unfold execBaseImageApply at e
  cases e
  with_reducible repeat' (first | assumption | apply ite_leads | apply State.applyBase_leads | apply State.imageRefused_leads | refine snd_leads (by assumption) ?_ | split)

theorem State.makeTwin_leads {P : Piece → Prop} [Fact (P .pnl)] [Fact (P .twin)] {s₀ s : State} (h : s₀.Leads P s) (i : Image) (p : PanelId) :
    s₀.Leads P (State.makeTwin s i p) := by
  unfold State.makeTwin
  (try dsimp only)
  with_reducible repeat' (first | assumption | apply ite_leads | apply State.modBind_leads | apply State.modPanel_leads | refine snd_leads (by assumption) ?_ | split)

theorem State.addBind_leads {P : Piece → Prop} [Fact (P .sites)] [Fact (P .img)] {s₀ s : State} (h : s₀.Leads P s) (p : PanelId) (e : BindEntry) :
    s₀.Leads P (State.addBind p s e) := by
  unfold State.addBind
  with_reducible repeat' (first | assumption | apply ite_leads | apply State.modImg_leads | apply State.modSite_leads | split)

theorem State.applyCreate_leads {P : Piece → Prop} [Fact (P .arrays)] [Fact (P .sites)] [Fact (P .img)] [Fact (P .pnl)] [Fact (P .twin)] [Fact (P .draws)] {s₀ s : State} (h : s₀.Leads P s) (i : Image) (p : PanelId) :
    s₀.Leads P (State.applyCreate s i p) := by
  unfold State.applyCreate
  (try dsimp only)
  with_reducible repeat' (first | intro _ | assumption | apply ite_leads | apply State.addBind_leads | apply State.makeTwin_leads | apply State.drawn_leads | apply State.modPanel_leads | apply State.modPnl_leads | apply State.modImg_leads | apply State.modArray_leads | apply foldl_leads | apply foldl_leads_snd | split)

theorem execPanelCreateApply_leads {P : Piece → Prop} {s₀ s : State} (h : s₀.Leads P s)  {t : State} (e : execPanelCreateApply s = .next t)
    (pArrays : P .arrays) (pSites : P .sites) (pPorts : P .ports) (pImg : P .img) (pPnl : P .pnl) (pTwin : P .twin) (pDraws : P .draws) :
    s₀.Leads P t := by
  have _ : Fact (P .arrays) := ⟨pArrays⟩
  have _ : Fact (P .sites) := ⟨pSites⟩
  have _ : Fact (P .ports) := ⟨pPorts⟩
  have _ : Fact (P .img) := ⟨pImg⟩
  have _ : Fact (P .pnl) := ⟨pPnl⟩
  have _ : Fact (P .twin) := ⟨pTwin⟩
  have _ : Fact (P .draws) := ⟨pDraws⟩
  unfold execPanelCreateApply at e
  cases e
  (try dsimp only)
  with_reducible repeat' (first | assumption | apply ite_leads | apply State.applyCreate_leads | apply State.imageRefused_leads | apply State.modPanel_leads | refine snd_leads (by assumption) ?_ | split)

theorem execPanelDestroyApply_leads {P : Piece → Prop} {s₀ s : State} (h : s₀.Leads P s)  {t : State} (e : execPanelDestroyApply s = .next t)
    (pArrays : P .arrays) (pSites : P .sites) (pPorts : P .ports) (pImg : P .img) (pPnl : P .pnl) (pTwin : P .twin) :
    s₀.Leads P t := by
  have _ : Fact (P .arrays) := ⟨pArrays⟩
  have _ : Fact (P .sites) := ⟨pSites⟩
  have _ : Fact (P .ports) := ⟨pPorts⟩
  have _ : Fact (P .img) := ⟨pImg⟩
  have _ : Fact (P .pnl) := ⟨pPnl⟩
  have _ : Fact (P .twin) := ⟨pTwin⟩
  unfold execPanelDestroyApply at e
  cases e
  with_reducible repeat' (first | assumption | apply ite_leads | apply State.imageRefused_leads | apply State.imageDone_leads | apply State.enterDust_leads | refine snd_leads (by assumption) ?_ | split)

theorem execPanelRebindApply_leads {P : Piece → Prop} {s₀ s : State} (h : s₀.Leads P s)  {t : State} (e : execPanelRebindApply s = .next t)
    (pArrays : P .arrays) (pSites : P .sites) (pPorts : P .ports) (pImg : P .img) (pPnl : P .pnl) (pTwin : P .twin) :
    s₀.Leads P t := by
  have _ : Fact (P .arrays) := ⟨pArrays⟩
  have _ : Fact (P .sites) := ⟨pSites⟩
  have _ : Fact (P .ports) := ⟨pPorts⟩
  have _ : Fact (P .img) := ⟨pImg⟩
  have _ : Fact (P .pnl) := ⟨pPnl⟩
  have _ : Fact (P .twin) := ⟨pTwin⟩
  unfold execPanelRebindApply at e
  cases e
  (try dsimp only)
  with_reducible repeat' (first | intro _ | assumption | apply ite_leads | apply State.addBind_leads | apply State.imageRefused_leads | apply State.modImg_leads | apply foldl_leads | apply foldl_leads_snd | refine snd_leads (by assumption) ?_ | split)

theorem State.finishCreate_leads {P : Piece → Prop} [Fact (P .ports)] [Fact (P .img)] [Fact (P .pnl)] {s₀ s : State} (h : s₀.Leads P s) (i : Image) (p : PanelId) :
    s₀.Leads P (State.finishCreate s i p) := by
  unfold State.finishCreate
  (try dsimp only)
  with_reducible repeat' (first | assumption | apply ite_leads | apply State.modPanel_leads | apply State.modImg_leads | apply State.modVf_leads | split)

theorem State.finishRebind_leads {P : Piece → Prop} [Fact (P .sites)] [Fact (P .img)] [Fact (P .pnl)] {s₀ s : State} (h : s₀.Leads P s) (i : Image) (p : PanelId) :
    s₀.Leads P (State.finishRebind s i p) := by
  unfold State.finishRebind
  (try dsimp only)
  with_reducible repeat' (first | intro _ | assumption | apply ite_leads | apply State.modPanel_leads | apply State.modImg_leads | apply State.modSite_leads | apply foldl_leads | apply foldl_leads_snd | split)

theorem State.modBinding_leads {P : Piece → Prop} [Fact (P .sites)] {s₀ s : State} (h : s₀.Leads P s) (n : SiteId) (tag : Byte) (f : Binding → Binding) :
    s₀.Leads P (State.modBinding s n tag f) := by
  unfold State.modBinding
  with_reducible repeat' (first | assumption | apply ite_leads | apply State.modSite_leads | split)

theorem State.dropBinding_leads {P : Piece → Prop} [Fact (P .sites)] [Fact (P .img)] {s₀ s : State} (h : s₀.Leads P s) (n : SiteId) (tag : Byte) :
    s₀.Leads P (State.dropBinding s n tag) := by
  unfold State.dropBinding
  with_reducible repeat' (first | assumption | apply ite_leads | apply State.modImg_leads | apply State.modSite_leads | split)

theorem State.settleLoad_leads {P : Piece → Prop} [Fact (P .arrays)] [Fact (P .sites)] [Fact (P .ports)] [Fact (P .img)] [Fact (P .pnl)] [Fact (P .twin)] {s₀ s : State} (h : s₀.Leads P s)  :
    s₀.Leads P (State.settleLoad s) := by
  unfold State.settleLoad
  with_reducible repeat' (first | assumption | apply ite_leads | apply State.imageRefused_leads | split)

theorem State.failLoad_leads {P : Piece → Prop} [Fact (P .arrays)] [Fact (P .sites)] [Fact (P .ports)] [Fact (P .img)] [Fact (P .pnl)] [Fact (P .twin)] {s₀ s : State} (h : s₀.Leads P s)  :
    s₀.Leads P (State.failLoad s) := by
  unfold State.failLoad
  (try dsimp only)
  with_reducible repeat' (first | intro _ | assumption | apply ite_leads | apply State.settleLoad_leads | apply State.dropBinding_leads | apply State.modImg_leads | apply foldl_leads | apply foldl_leads_snd | split)

theorem execImageBindingDone_leads {P : Piece → Prop} {s₀ s : State} (h : s₀.Leads P s)  {t : State} (e : execImageBindingDone s = .next t)
    (pArrays : P .arrays) (pSites : P .sites) (pPorts : P .ports) (pImg : P .img) (pPnl : P .pnl) (pTwin : P .twin) :
    s₀.Leads P t := by
  have _ : Fact (P .arrays) := ⟨pArrays⟩
  have _ : Fact (P .sites) := ⟨pSites⟩
  have _ : Fact (P .ports) := ⟨pPorts⟩
  have _ : Fact (P .img) := ⟨pImg⟩
  have _ : Fact (P .pnl) := ⟨pPnl⟩
  have _ : Fact (P .twin) := ⟨pTwin⟩
  unfold execImageBindingDone at e
  cases e
  (try dsimp only)
  with_reducible repeat' (first | assumption | apply ite_leads | apply State.failLoad_leads | apply State.finishRebind_leads | apply State.finishCreate_leads | apply State.imageDone_leads | apply State.modImg_leads | refine snd_leads (by assumption) ?_ | split)

theorem execBind_leads {P : Piece → Prop} {s₀ s : State} (h : s₀.Leads P s) (n : SiteId) (tag : Byte) {t : State} (e : execBind n tag s = .next t)
    (pSites : P .sites) (pOut : P .out) :
    s₀.Leads P t := by
  have _ : Fact (P .sites) := ⟨pSites⟩
  have _ : Fact (P .out) := ⟨pOut⟩
  unfold execBind at e
  cases e
  (try dsimp only)
  with_reducible repeat' (first | assumption | apply ite_leads | apply State.modBinding_leads | apply State.tellSite_leads | refine snd_leads (by assumption) ?_ | split)

theorem State.clearCredit_leads {P : Piece → Prop} [Fact (P .sites)] {s₀ s : State} (h : s₀.Leads P s) (n : SiteId) (b : Binding) :
    s₀.Leads P (State.clearCredit s n b) := by
  unfold State.clearCredit
  with_reducible repeat' (first | assumption | apply ite_leads | apply State.modSite_leads | split)

theorem execBound_leads {P : Piece → Prop} {s₀ s : State} (h : s₀.Leads P s) (n : SiteId) (tag : Byte) {t : State} (e : execBound n tag s = .next t)
    (pSites : P .sites) (pRas : P .ras) (pOut : P .out) :
    s₀.Leads P t := by
  have _ : Fact (P .sites) := ⟨pSites⟩
  have _ : Fact (P .ras) := ⟨pRas⟩
  have _ : Fact (P .out) := ⟨pOut⟩
  unfold execBound at e
  cases e
  with_reducible repeat' (first | assumption | apply ite_leads | apply State.clearCredit_leads | apply State.modBinding_leads | apply State.noteSite_leads | refine snd_leads (by assumption) ?_ | split)

theorem execBoundTimeout_leads {P : Piece → Prop} {s₀ s : State} (h : s₀.Leads P s) (n : SiteId) (tag : Byte) {t : State} (e : execBoundTimeout n tag s = .next t)
    (pArrays : P .arrays) (pSites : P .sites) (pPorts : P .ports) (pImg : P .img) (pPnl : P .pnl) (pTwin : P .twin) :
    s₀.Leads P t := by
  have _ : Fact (P .arrays) := ⟨pArrays⟩
  have _ : Fact (P .sites) := ⟨pSites⟩
  have _ : Fact (P .ports) := ⟨pPorts⟩
  have _ : Fact (P .img) := ⟨pImg⟩
  have _ : Fact (P .pnl) := ⟨pPnl⟩
  have _ : Fact (P .twin) := ⟨pTwin⟩
  unfold execBoundTimeout at e
  cases e
  with_reducible repeat' (first | assumption | apply ite_leads | apply State.failLoad_leads | apply State.dropBinding_leads | refine snd_leads (by assumption) ?_ | split)

theorem execUnbind_leads {P : Piece → Prop} {s₀ s : State} (h : s₀.Leads P s) (n : SiteId) (tag : Byte) {t : State} (e : execUnbind n tag s = .next t)
    (pSites : P .sites) (pOut : P .out) :
    s₀.Leads P t := by
  have _ : Fact (P .sites) := ⟨pSites⟩
  have _ : Fact (P .out) := ⟨pOut⟩
  unfold execUnbind at e
  cases e
  with_reducible repeat' (first | assumption | apply ite_leads | apply State.clearCredit_leads | apply State.modBinding_leads | apply State.tellSite_leads | refine snd_leads (by assumption) ?_ | split)

theorem execCleared_leads {P : Piece → Prop} {s₀ s : State} (h : s₀.Leads P s) (n : SiteId) (tag : Byte) {t : State} (e : execCleared n tag s = .next t)
    (pArrays : P .arrays) (pSites : P .sites) (pPorts : P .ports) (pImg : P .img) (pPnl : P .pnl) (pRas : P .ras) (pTwin : P .twin) (pOut : P .out) :
    s₀.Leads P t := by
  have _ : Fact (P .arrays) := ⟨pArrays⟩
  have _ : Fact (P .sites) := ⟨pSites⟩
  have _ : Fact (P .ports) := ⟨pPorts⟩
  have _ : Fact (P .img) := ⟨pImg⟩
  have _ : Fact (P .pnl) := ⟨pPnl⟩
  have _ : Fact (P .ras) := ⟨pRas⟩
  have _ : Fact (P .twin) := ⟨pTwin⟩
  have _ : Fact (P .out) := ⟨pOut⟩
  unfold execCleared at e
  cases e
  with_reducible repeat' (first | assumption | apply ite_leads | apply State.settleLoad_leads | apply State.dropBinding_leads | apply State.noteSite_leads | refine snd_leads (by assumption) ?_ | split)

theorem execClearedTimeout_leads {P : Piece → Prop} {s₀ s : State} (h : s₀.Leads P s) (n : SiteId) (tag : Byte) {t : State} (e : execClearedTimeout n tag s = .next t)
    (pArrays : P .arrays) (pFields : P .fields) (pHbm : P .hbm) (pMem : P .mem) (pNet : P .net) (pCoh : P .coh) (pSites : P .sites) (pPorts : P .ports) (pImg : P .img) (pPnl : P .pnl) (pRas : P .ras) (pTwin : P .twin) (pOut : P .out) :
    s₀.Leads P t := by
  have _ : Fact (P .arrays) := ⟨pArrays⟩
  have _ : Fact (P .fields) := ⟨pFields⟩
  have _ : Fact (P .hbm) := ⟨pHbm⟩
  have _ : Fact (P .mem) := ⟨pMem⟩
  have _ : Fact (P .net) := ⟨pNet⟩
  have _ : Fact (P .coh) := ⟨pCoh⟩
  have _ : Fact (P .sites) := ⟨pSites⟩
  have _ : Fact (P .ports) := ⟨pPorts⟩
  have _ : Fact (P .img) := ⟨pImg⟩
  have _ : Fact (P .pnl) := ⟨pPnl⟩
  have _ : Fact (P .ras) := ⟨pRas⟩
  have _ : Fact (P .twin) := ⟨pTwin⟩
  have _ : Fact (P .out) := ⟨pOut⟩
  unfold execClearedTimeout at e
  cases e
  with_reducible repeat' (first | assumption | apply ite_leads | apply State.settleLoad_leads | apply State.dropBinding_leads | apply State.killSite_leads | refine snd_leads (by assumption) ?_ | split)

end Sys2Proof.Machine
end

