-- ==== Sys2Proof/Laws/LeadsResets.lean ====
section
/-!
SUPPORT. What the operations of Machine/Resets.lean keep (State.Leads).
-/

set_option linter.unusedTactic false
set_option linter.unreachableTactic false
set_option linter.unusedVariables false

set_option Elab.async false

namespace Sys2Proof.Machine

theorem State.byConfig_leads {P : Piece → Prop} [Fact (P .out)] {s₀ s : State} (h : s₀.Leads P s) (port : PortId) (f : State → State) (kf : ∀ x0, s₀.Leads P x0 → s₀.Leads P (f x0)) :
    s₀.Leads P (State.byConfig s port f) := by
  unfold State.byConfig
  with_reducible repeat' (first | intro _ | assumption | apply ite_leads | apply State.emit_leads | apply kf | split)

theorem State.startReset_leads {P : Piece → Prop} [Fact (P .arrays)] [Fact (P .ports)] [Fact (P .pnl)] {s₀ s : State} (h : s₀.Leads P s) (port : PortId) (v : VfId) :
    s₀.Leads P (State.startReset s port v) := by
  unfold State.startReset
  with_reducible repeat' (first | assumption | apply ite_leads | apply State.quiesce_leads | apply State.modVf_leads | split)

theorem State.flrVf_leads {P : Piece → Prop} [Fact (P .arrays)] [Fact (P .ports)] [Fact (P .pnl)] {s₀ s : State} (h : s₀.Leads P s) (port : PortId) (v : VfId) :
    s₀.Leads P (State.flrVf s port v) := by
  unfold State.flrVf
  with_reducible repeat' (first | assumption | apply ite_leads | apply State.startReset_leads | apply State.modVf_leads | split)

theorem execFlr_leads {P : Piece → Prop} {s₀ s : State} (h : s₀.Leads P s) (port : PortId) (v : VfId) {t : State} (e : execFlr port v s = .next t)
    (pArrays : P .arrays) (pPorts : P .ports) (pPnl : P .pnl) (pOut : P .out) :
    s₀.Leads P t := by
  have _ : Fact (P .arrays) := ⟨pArrays⟩
  have _ : Fact (P .ports) := ⟨pPorts⟩
  have _ : Fact (P .pnl) := ⟨pPnl⟩
  have _ : Fact (P .out) := ⟨pOut⟩
  unfold execFlr at e
  cases e
  with_reducible repeat' (first | intro _ | assumption | apply ite_leads | apply State.flrVf_leads | apply State.byConfig_leads | split)

theorem State.tdiError_leads {P : Piece → Prop} [Fact (P .arrays)] [Fact (P .ports)] [Fact (P .pnl)] {s₀ s : State} (h : s₀.Leads P s) (port : PortId) (v : VfId) :
    s₀.Leads P (State.tdiError s port v) := by
  unfold State.tdiError
  (try dsimp only)
  with_reducible repeat' (first | assumption | apply ite_leads | apply State.quiesce_leads | apply State.modPanel_leads | apply State.modVf_leads | refine snd_leads (by assumption) ?_ | split)

theorem execFunctionResetComplete_leads {P : Piece → Prop} {s₀ s : State} (h : s₀.Leads P s) (port : PortId) (v : VfId) {t : State} (e : execFunctionResetComplete port v s = .next t)
    (pArrays : P .arrays) (pPorts : P .ports) (pPnl : P .pnl) (pOut : P .out) :
    s₀.Leads P t := by
  have _ : Fact (P .arrays) := ⟨pArrays⟩
  have _ : Fact (P .ports) := ⟨pPorts⟩
  have _ : Fact (P .pnl) := ⟨pPnl⟩
  have _ : Fact (P .out) := ⟨pOut⟩
  unfold execFunctionResetComplete at e
  cases e
  (try dsimp only)
  with_reducible repeat' (first | assumption | apply ite_leads | apply State.endHalted_leads | apply State.enterDust_leads | apply State.emit_leads | apply State.modVf_leads | refine snd_leads (by assumption) ?_ | split)

theorem State.vfConfig_leads {P : Piece → Prop} [Fact (P .ports)] [Fact (P .out)] {s₀ s : State} (h : s₀.Leads P s) (port : PortId) (v : VfId) (f : State → State) (kf : ∀ x0, s₀.Leads P x0 → s₀.Leads P (f x0)) :
    s₀.Leads P (State.vfConfig s port v f) := by
  unfold State.vfConfig
  with_reducible repeat' (first | intro _ | assumption | apply ite_leads | apply State.unsupported_leads | apply State.emit_leads | apply kf | split)

theorem State.clearBme_leads {P : Piece → Prop} [Fact (P .arrays)] [Fact (P .ports)] [Fact (P .pnl)] {s₀ s : State} (h : s₀.Leads P s) (port : PortId) (v : VfId) :
    s₀.Leads P (State.clearBme s port v) := by
  unfold State.clearBme
  with_reducible repeat' (first | assumption | apply ite_leads | apply State.tdiError_leads | apply State.startReset_leads | apply State.modVf_leads | split)

theorem execBmeClear_leads {P : Piece → Prop} {s₀ s : State} (h : s₀.Leads P s) (port : PortId) (v : VfId) {t : State} (e : execBmeClear port v s = .next t)
    (pArrays : P .arrays) (pPorts : P .ports) (pPnl : P .pnl) (pOut : P .out) :
    s₀.Leads P t := by
  have _ : Fact (P .arrays) := ⟨pArrays⟩
  have _ : Fact (P .ports) := ⟨pPorts⟩
  have _ : Fact (P .pnl) := ⟨pPnl⟩
  have _ : Fact (P .out) := ⟨pOut⟩
  unfold execBmeClear at e
  cases e
  with_reducible repeat' (first | intro _ | assumption | apply ite_leads | apply State.clearBme_leads | apply State.vfConfig_leads | apply State.byConfig_leads | split)

theorem State.resetAll_leads {P : Piece → Prop} [Fact (P .arrays)] [Fact (P .ports)] [Fact (P .pnl)] {s₀ s : State} (h : s₀.Leads P s) (port : PortId) :
    s₀.Leads P (State.resetAll s port) := by
  unfold State.resetAll
  with_reducible repeat' (first | intro _ | assumption | apply ite_leads | apply State.startReset_leads | apply foldl_leads | apply foldl_leads_snd | split)

theorem State.clearVfEnable_leads {P : Piece → Prop} [Fact (P .arrays)] [Fact (P .ports)] [Fact (P .pnl)] {s₀ s : State} (h : s₀.Leads P s) (port : PortId) :
    s₀.Leads P (State.clearVfEnable s port) := by
  unfold State.clearVfEnable
  with_reducible repeat' (first | assumption | apply ite_leads | apply State.resetAll_leads | apply State.modPort_leads | split)

theorem execVfEnableClear_leads {P : Piece → Prop} {s₀ s : State} (h : s₀.Leads P s) (port : PortId) {t : State} (e : execVfEnableClear port s = .next t)
    (pArrays : P .arrays) (pPorts : P .ports) (pPnl : P .pnl) (pOut : P .out) :
    s₀.Leads P t := by
  have _ : Fact (P .arrays) := ⟨pArrays⟩
  have _ : Fact (P .ports) := ⟨pPorts⟩
  have _ : Fact (P .pnl) := ⟨pPnl⟩
  have _ : Fact (P .out) := ⟨pOut⟩
  unfold execVfEnableClear at e
  cases e
  with_reducible repeat' (first | intro _ | assumption | apply ite_leads | apply State.clearVfEnable_leads | apply State.byConfig_leads | split)

theorem State.sleepVf_leads {P : Piece → Prop} [Fact (P .arrays)] [Fact (P .ports)] [Fact (P .pnl)] {s₀ s : State} (h : s₀.Leads P s) (port : PortId) (v : VfId) :
    s₀.Leads P (State.sleepVf s port v) := by
  unfold State.sleepVf
  with_reducible repeat' (first | assumption | apply ite_leads | apply State.startReset_leads | apply State.modVf_leads | split)

theorem execD3hotEntry_leads {P : Piece → Prop} {s₀ s : State} (h : s₀.Leads P s) (port : PortId) (vf : Option VfId) {t : State} (e : execD3hotEntry port vf s = .next t)
    (pArrays : P .arrays) (pPorts : P .ports) (pPnl : P .pnl) (pOut : P .out) :
    s₀.Leads P t := by
  have _ : Fact (P .arrays) := ⟨pArrays⟩
  have _ : Fact (P .ports) := ⟨pPorts⟩
  have _ : Fact (P .pnl) := ⟨pPnl⟩
  have _ : Fact (P .out) := ⟨pOut⟩
  unfold execD3hotEntry at e
  cases e
  with_reducible repeat' (first | intro _ | assumption | apply ite_leads | apply State.sleepVf_leads | apply State.vfConfig_leads | apply State.byConfig_leads | apply State.modPort_leads | refine snd_leads (by assumption) ?_ | split)

theorem State.flrPf0_leads {P : Piece → Prop} [Fact (P .arrays)] [Fact (P .ports)] [Fact (P .pnl)] {s₀ s : State} (h : s₀.Leads P s) (port : PortId) :
    s₀.Leads P (State.flrPf0 s port) := by
  unfold State.flrPf0
  with_reducible repeat' (first | assumption | apply ite_leads | apply State.resetAll_leads | apply State.modPort_leads | split)

theorem execPf0Flr_leads {P : Piece → Prop} {s₀ s : State} (h : s₀.Leads P s) (port : PortId) {t : State} (e : execPf0Flr port s = .next t)
    (pArrays : P .arrays) (pPorts : P .ports) (pPnl : P .pnl) (pOut : P .out) :
    s₀.Leads P t := by
  have _ : Fact (P .arrays) := ⟨pArrays⟩
  have _ : Fact (P .ports) := ⟨pPorts⟩
  have _ : Fact (P .pnl) := ⟨pPnl⟩
  have _ : Fact (P .out) := ⟨pOut⟩
  unfold execPf0Flr at e
  cases e
  with_reducible repeat' (first | intro _ | assumption | apply ite_leads | apply State.flrPf0_leads | apply State.byConfig_leads | split)

theorem State.portReset_leads {P : Piece → Prop} [Fact (P .arrays)] [Fact (P .sites)] [Fact (P .ports)] [Fact (P .img)] [Fact (P .pnl)] [Fact (P .ras)] [Fact (P .twin)] [Fact (P .out)] {s₀ s : State} (h : s₀.Leads P s) (port : PortId) :
    s₀.Leads P (State.portReset s port) := by
  unfold State.portReset
  (try dsimp only)
  with_reducible repeat' (first | assumption | apply ite_leads | apply State.resetAll_leads | apply State.imageRefused_leads | apply State.readyFrom_leads | apply State.noteHost_leads | apply State.modPort_leads | split)

theorem execHotReset_leads {P : Piece → Prop} {s₀ s : State} (h : s₀.Leads P s) (port : PortId) {t : State} (e : execHotReset port s = .next t)
    (pArrays : P .arrays) (pSites : P .sites) (pPorts : P .ports) (pImg : P .img) (pPnl : P .pnl) (pRas : P .ras) (pTwin : P .twin) (pOut : P .out) :
    s₀.Leads P t := by
  have _ : Fact (P .arrays) := ⟨pArrays⟩
  have _ : Fact (P .sites) := ⟨pSites⟩
  have _ : Fact (P .ports) := ⟨pPorts⟩
  have _ : Fact (P .img) := ⟨pImg⟩
  have _ : Fact (P .pnl) := ⟨pPnl⟩
  have _ : Fact (P .ras) := ⟨pRas⟩
  have _ : Fact (P .twin) := ⟨pTwin⟩
  have _ : Fact (P .out) := ⟨pOut⟩
  unfold execHotReset at e
  cases e
  with_reducible repeat' (first | assumption | apply ite_leads | apply State.portReset_leads | split)

theorem execLinkDown_leads {P : Piece → Prop} {s₀ s : State} (h : s₀.Leads P s) (port : PortId) {t : State} (e : execLinkDown port s = .next t)
    (pArrays : P .arrays) (pSites : P .sites) (pPorts : P .ports) (pImg : P .img) (pPnl : P .pnl) (pRas : P .ras) (pTwin : P .twin) (pOut : P .out) :
    s₀.Leads P t := by
  have _ : Fact (P .arrays) := ⟨pArrays⟩
  have _ : Fact (P .sites) := ⟨pSites⟩
  have _ : Fact (P .ports) := ⟨pPorts⟩
  have _ : Fact (P .img) := ⟨pImg⟩
  have _ : Fact (P .pnl) := ⟨pPnl⟩
  have _ : Fact (P .ras) := ⟨pRas⟩
  have _ : Fact (P .twin) := ⟨pTwin⟩
  have _ : Fact (P .out) := ⟨pOut⟩
  unfold execLinkDown at e
  cases e
  with_reducible repeat' (first | assumption | apply ite_leads | apply State.portReset_leads | split)

theorem execPerstAssert_leads {P : Piece → Prop} {s₀ s : State} (h : s₀.Leads P s) (port : PortId) {t : State} (e : execPerstAssert port s = .next t)
    (pPins : P .pins) (pArrays : P .arrays) (pSites : P .sites) (pPorts : P .ports) (pImg : P .img) (pPnl : P .pnl) (pRas : P .ras) (pTwin : P .twin) (pOut : P .out) :
    s₀.Leads P t := by
  have _ : Fact (P .pins) := ⟨pPins⟩
  have _ : Fact (P .arrays) := ⟨pArrays⟩
  have _ : Fact (P .sites) := ⟨pSites⟩
  have _ : Fact (P .ports) := ⟨pPorts⟩
  have _ : Fact (P .img) := ⟨pImg⟩
  have _ : Fact (P .pnl) := ⟨pPnl⟩
  have _ : Fact (P .ras) := ⟨pRas⟩
  have _ : Fact (P .twin) := ⟨pTwin⟩
  have _ : Fact (P .out) := ⟨pOut⟩
  unfold execPerstAssert at e
  cases e
  (try dsimp only)
  with_reducible repeat' (first | assumption | apply ite_leads | apply State.portReset_leads | apply State.modPins_leads | apply State.modPort_leads | split)

theorem execPerstRelease_leads {P : Piece → Prop} {s₀ s : State} (h : s₀.Leads P s) (port : PortId) {t : State} (e : execPerstRelease port s = .next t)
    (pPins : P .pins) (pPorts : P .ports) :
    s₀.Leads P t := by
  have _ : Fact (P .pins) := ⟨pPins⟩
  have _ : Fact (P .ports) := ⟨pPorts⟩
  unfold execPerstRelease at e
  cases e
  with_reducible repeat' (first | assumption | apply ite_leads | apply State.modPins_leads | apply State.modPort_leads | split)

theorem State.writeNumVfs_leads {P : Piece → Prop} [Fact (P .ports)] {s₀ s : State} (h : s₀.Leads P s) (port : PortId) (value : BitVec 16) :
    s₀.Leads P (State.writeNumVfs s port value) := by
  unfold State.writeNumVfs
  with_reducible repeat' (first | assumption | apply ite_leads | apply State.modPort_leads | split)

theorem execNumvfsWrite_leads {P : Piece → Prop} {s₀ s : State} (h : s₀.Leads P s) (port : PortId) (value : BitVec 16) {t : State} (e : execNumvfsWrite port value s = .next t)
    (pPorts : P .ports) (pOut : P .out) :
    s₀.Leads P t := by
  have _ : Fact (P .ports) := ⟨pPorts⟩
  have _ : Fact (P .out) := ⟨pOut⟩
  unfold execNumvfsWrite at e
  cases e
  with_reducible repeat' (first | intro _ | assumption | apply ite_leads | apply State.writeNumVfs_leads | apply State.byConfig_leads | split)

theorem State.setBme_leads {P : Piece → Prop} [Fact (P .arrays)] [Fact (P .ports)] [Fact (P .pnl)] [Fact (P .out)] {s₀ s : State} (h : s₀.Leads P s) (port : PortId) (v : VfId) :
    s₀.Leads P (State.setBme s port v) := by
  unfold State.setBme
  (try dsimp only)
  with_reducible repeat' (first | assumption | apply ite_leads | apply State.tdiError_leads | apply State.releaseRecords_leads | apply State.fetchVf_leads | apply State.modVf_leads | refine snd_leads (by assumption) ?_ | split)

theorem execBusMasterEnableSet_leads {P : Piece → Prop} {s₀ s : State} (h : s₀.Leads P s) (port : PortId) (v : VfId) {t : State} (e : execBusMasterEnableSet port v s = .next t)
    (pArrays : P .arrays) (pPorts : P .ports) (pPnl : P .pnl) (pOut : P .out) :
    s₀.Leads P t := by
  have _ : Fact (P .arrays) := ⟨pArrays⟩
  have _ : Fact (P .ports) := ⟨pPorts⟩
  have _ : Fact (P .pnl) := ⟨pPnl⟩
  have _ : Fact (P .out) := ⟨pOut⟩
  unfold execBusMasterEnableSet at e
  cases e
  with_reducible repeat' (first | intro _ | assumption | apply ite_leads | apply State.setBme_leads | apply State.vfConfig_leads | apply State.byConfig_leads | split)

theorem execTdiError_leads {P : Piece → Prop} {s₀ s : State} (h : s₀.Leads P s) (port : PortId) (v : VfId) (_event : TdiEvent) {t : State} (e : execTdiError port v _event s = .next t)
    (pArrays : P .arrays) (pPorts : P .ports) (pPnl : P .pnl) (pOut : P .out) :
    s₀.Leads P t := by
  have _ : Fact (P .arrays) := ⟨pArrays⟩
  have _ : Fact (P .ports) := ⟨pPorts⟩
  have _ : Fact (P .pnl) := ⟨pPnl⟩
  have _ : Fact (P .out) := ⟨pOut⟩
  unfold execTdiError at e
  cases e
  with_reducible repeat' (first | intro _ | assumption | apply ite_leads | apply State.tdiError_leads | apply State.byConfig_leads | split)

theorem execStopInterface_leads {P : Piece → Prop} {s₀ s : State} (h : s₀.Leads P s) (port : PortId) (v : VfId) {t : State} (e : execStopInterface port v s = .next t)
    (pArrays : P .arrays) (pPorts : P .ports) (pPnl : P .pnl) :
    s₀.Leads P t := by
  have _ : Fact (P .arrays) := ⟨pArrays⟩
  have _ : Fact (P .ports) := ⟨pPorts⟩
  have _ : Fact (P .pnl) := ⟨pPnl⟩
  unfold execStopInterface at e
  cases e
  (try dsimp only)
  with_reducible repeat' (first | assumption | apply ite_leads | apply State.enterDust_leads | apply State.modVf_leads | refine snd_leads (by assumption) ?_ | split)

theorem execLockInterface_leads {P : Piece → Prop} {s₀ s : State} (h : s₀.Leads P s) (port : PortId) (v : VfId) {t : State} (e : execLockInterface port v s = .next t)
    (pPorts : P .ports) (pOut : P .out) :
    s₀.Leads P t := by
  have _ : Fact (P .ports) := ⟨pPorts⟩
  have _ : Fact (P .out) := ⟨pOut⟩
  unfold execLockInterface at e
  cases e
  (try dsimp only)
  with_reducible repeat' (first | assumption | apply ite_leads | apply State.emit_leads | apply State.modVf_leads | split)

theorem execPanelKeySet_leads {P : Piece → Prop} {s₀ s : State} (h : s₀.Leads P s) (port : PortId) (v : VfId) (key : BitVec 384) {t : State} (e : execPanelKeySet port v key s = .next t)
    (pPnl : P .pnl) (pOut : P .out) :
    s₀.Leads P t := by
  have _ : Fact (P .pnl) := ⟨pPnl⟩
  have _ : Fact (P .out) := ⟨pOut⟩
  unfold execPanelKeySet at e
  cases e
  (try dsimp only)
  with_reducible repeat' (first | assumption | apply ite_leads | apply State.emit_leads | apply State.modPanel_leads | refine snd_leads (by assumption) ?_ | split)

theorem execStartInterface_leads {P : Piece → Prop} {s₀ s : State} (h : s₀.Leads P s) (port : PortId) (v : VfId) {t : State} (e : execStartInterface port v s = .next t)
    (pPorts : P .ports) (pPnl : P .pnl) (pOut : P .out) :
    s₀.Leads P t := by
  have _ : Fact (P .ports) := ⟨pPorts⟩
  have _ : Fact (P .pnl) := ⟨pPnl⟩
  have _ : Fact (P .out) := ⟨pOut⟩
  unfold execStartInterface at e
  cases e
  (try dsimp only)
  with_reducible repeat' (first | assumption | apply ite_leads | apply State.fetchVf_leads | apply State.emit_leads | apply State.modPanel_leads | apply State.modVf_leads | refine snd_leads (by assumption) ?_ | split)

theorem execSpdmRequest_leads {P : Piece → Prop} {s₀ s : State} (h : s₀.Leads P s) (port : PortId) (req : SpdmReq) {t : State} (e : execSpdmRequest port req s = .next t)
    (pFuse : P .fuse) (pArrays : P .arrays) (pPorts : P .ports) (pPnl : P .pnl) (pOut : P .out) :
    s₀.Leads P t := by
  have _ : Fact (P .fuse) := ⟨pFuse⟩
  have _ : Fact (P .arrays) := ⟨pArrays⟩
  have _ : Fact (P .ports) := ⟨pPorts⟩
  have _ : Fact (P .pnl) := ⟨pPnl⟩
  have _ : Fact (P .out) := ⟨pOut⟩
  unfold execSpdmRequest at e
  cases e
  (try dsimp only)
  with_reducible repeat' (first | assumption | apply ite_leads | apply State.destroyPanel_leads | apply State.emit_leads | apply State.modPort_leads | refine snd_leads (by assumption) ?_ | split)

end Sys2Proof.Machine
end

