-- ==== Sys2Proof/Laws/LeadsMailbox.lean ====
section
/-!
SUPPORT. What the operations of Machine/Mailbox.lean keep (State.Leads).
-/

set_option linter.unusedTactic false
set_option linter.unreachableTactic false
set_option linter.unusedVariables false

set_option Elab.async false

namespace Sys2Proof.Machine

theorem State.mailEnd_leads {P : Piece → Prop} [Fact (P .ports)] [Fact (P .pnl)] {s₀ s : State} (h : s₀.Leads P s) (result : Byte) :
    s₀.Leads P (State.mailEnd s result) := by
  unfold State.mailEnd
  with_reducible repeat' (first | assumption | apply ite_leads | apply State.irq_leads | apply State.modPnl_leads | split)

theorem State.mailRun_leads {P : Piece → Prop} [Fact (P .fuse)] [Fact (P .ports)] [Fact (P .pnl)] [Fact (P .ras)] [Fact (P .out)] {s₀ s : State} (h : s₀.Leads P s) (op : Byte) (named used : Nat → Bool) (run : State → Byte × State)
    (k : ∀ t, s₀.Leads P t → s₀.Leads P (run t).2) : s₀.Leads P (s.mailRun op named used run) := by
  unfold State.mailRun
  refine ite_leads (State.note_leads h) ?_
  have m := State.modPnl_leads h (fun x => { x with cmdOp := op })
  refine ite_leads (State.mailEnd_leads m _) (ite_leads (State.mailEnd_leads m _) ?_)
  split
  · exact State.mailEnd_leads m _
  · have w := State.accept_leads m _ ‹_›
    exact ite_leads (State.mailEnd_leads w _) (State.mailEnd_leads (k _ w) _)

theorem State.mailRead_leads {P : Piece → Prop} [Fact (P .ports)] [Fact (P .ras)] [Fact (P .out)] {s₀ s : State} (h : s₀.Leads P s) (port : PortId) (addr len : Nat) (r : HostRead) :
    s₀.Leads P (State.mailRead s port addr len r).2 := by
  unfold State.mailRead
  (try dsimp only)
  with_reducible repeat' (first | assumption | apply ite_leads | apply State.noteRead_leads | apply State.noteHost_leads | apply State.emit_leads | apply State.modPort_leads | refine snd_leads (by assumption) ?_ | split)

theorem State.installKeys_leads {P : Piece → Prop} [Fact (P .fuse)] {s₀ s : State} (h : s₀.Leads P s) (bs : List Byte) :
    s₀.Leads P (State.installKeys s bs).2 := by
  unfold State.installKeys
  with_reducible repeat' (first | assumption | apply ite_leads | apply State.modFuse_leads | refine snd_leads (by assumption) ?_ | split)
  all_goals first | assumption | exact fun h => h | exact ⟨fun _ h => h, Nat.le_refl _, Nat.le_refl _, Nat.le_refl _, List.prefix_refl _, rfl⟩

theorem State.opkeyRotate_leads {P : Piece → Prop} [Fact (P .fuse)] [Fact (P .ports)] [Fact (P .pnl)] [Fact (P .ras)] [Fact (P .out)] {s₀ s : State} (h : s₀.Leads P s) (block : HostRead) :
    s₀.Leads P (State.opkeyRotate s block) := by
  unfold State.opkeyRotate
  (try dsimp only)
  with_reducible repeat' (first | intro _ | assumption | apply ite_leads | apply State.installKeys_leads | apply State.mailRead_leads | apply State.mailRun_leads | refine snd_leads (by assumption) ?_ | split)

theorem execOpkeyRotate_leads {P : Piece → Prop} {s₀ s : State} (h : s₀.Leads P s) (block : HostRead) {t : State} (e : execOpkeyRotate block s = .next t)
    (pFuse : P .fuse) (pPorts : P .ports) (pPnl : P .pnl) (pRas : P .ras) (pOut : P .out) :
    s₀.Leads P t := by
  have _ : Fact (P .fuse) := ⟨pFuse⟩
  have _ : Fact (P .ports) := ⟨pPorts⟩
  have _ : Fact (P .pnl) := ⟨pPnl⟩
  have _ : Fact (P .ras) := ⟨pRas⟩
  have _ : Fact (P .out) := ⟨pOut⟩
  unfold execOpkeyRotate at e
  cases e
  with_reducible repeat' (first | intro _ | assumption | apply ite_leads | apply State.opkeyRotate_leads | apply State.byPf0_leads | split)

theorem State.panelAuthSet_leads {P : Piece → Prop} [Fact (P .fuse)] [Fact (P .ports)] [Fact (P .pnl)] [Fact (P .ras)] [Fact (P .out)] {s₀ s : State} (h : s₀.Leads P s)  :
    s₀.Leads P (State.panelAuthSet s) := by
  unfold State.panelAuthSet
  (try dsimp only)
  with_reducible repeat' (first | intro _ | assumption | apply ite_leads | apply State.mailRun_leads | apply State.modPanel_leads | refine snd_leads (by assumption) ?_ | split)

theorem execPanelAuthSet_leads {P : Piece → Prop} {s₀ s : State} (h : s₀.Leads P s)  {t : State} (e : execPanelAuthSet s = .next t)
    (pFuse : P .fuse) (pPorts : P .ports) (pPnl : P .pnl) (pRas : P .ras) (pOut : P .out) :
    s₀.Leads P t := by
  have _ : Fact (P .fuse) := ⟨pFuse⟩
  have _ : Fact (P .ports) := ⟨pPorts⟩
  have _ : Fact (P .pnl) := ⟨pPnl⟩
  have _ : Fact (P .ras) := ⟨pRas⟩
  have _ : Fact (P .out) := ⟨pOut⟩
  unfold execPanelAuthSet at e
  cases e
  with_reducible repeat' (first | intro _ | assumption | apply ite_leads | apply State.panelAuthSet_leads | apply State.byPf0_leads | split)

theorem State.panelDestroy_leads {P : Piece → Prop} [Fact (P .fuse)] [Fact (P .arrays)] [Fact (P .ports)] [Fact (P .pnl)] [Fact (P .ras)] [Fact (P .out)] {s₀ s : State} (h : s₀.Leads P s)  :
    s₀.Leads P (State.panelDestroy s) := by
  unfold State.panelDestroy
  with_reducible repeat' (first | intro _ | assumption | apply ite_leads | apply State.mailRun_leads | apply State.enterDust_leads | split)

theorem execPanelDestroy_leads {P : Piece → Prop} {s₀ s : State} (h : s₀.Leads P s)  {t : State} (e : execPanelDestroy s = .next t)
    (pFuse : P .fuse) (pArrays : P .arrays) (pPorts : P .ports) (pPnl : P .pnl) (pRas : P .ras) (pOut : P .out) :
    s₀.Leads P t := by
  have _ : Fact (P .fuse) := ⟨pFuse⟩
  have _ : Fact (P .arrays) := ⟨pArrays⟩
  have _ : Fact (P .ports) := ⟨pPorts⟩
  have _ : Fact (P .pnl) := ⟨pPnl⟩
  have _ : Fact (P .ras) := ⟨pRas⟩
  have _ : Fact (P .out) := ⟨pOut⟩
  unfold execPanelDestroy at e
  cases e
  with_reducible repeat' (first | intro _ | assumption | apply ite_leads | apply State.panelDestroy_leads | apply State.byPf0_leads | split)

theorem State.debugEnable_leads {P : Piece → Prop} [Fact (P .fuse)] [Fact (P .ports)] [Fact (P .pnl)] [Fact (P .ras)] [Fact (P .out)] {s₀ s : State} (h : s₀.Leads P s)  :
    s₀.Leads P (State.debugEnable s) := by
  unfold State.debugEnable
  (try dsimp only)
  with_reducible repeat' (first | intro _ | assumption | apply ite_leads | apply State.mailRun_leads | apply State.modPnl_leads | split)

theorem execDebugEnable_leads {P : Piece → Prop} {s₀ s : State} (h : s₀.Leads P s)  {t : State} (e : execDebugEnable s = .next t)
    (pFuse : P .fuse) (pPorts : P .ports) (pPnl : P .pnl) (pRas : P .ras) (pOut : P .out) :
    s₀.Leads P t := by
  have _ : Fact (P .fuse) := ⟨pFuse⟩
  have _ : Fact (P .ports) := ⟨pPorts⟩
  have _ : Fact (P .pnl) := ⟨pPnl⟩
  have _ : Fact (P .ras) := ⟨pRas⟩
  have _ : Fact (P .out) := ⟨pOut⟩
  unfold execDebugEnable at e
  cases e
  with_reducible repeat' (first | intro _ | assumption | apply ite_leads | apply State.debugEnable_leads | apply State.byPf0_leads | split)

theorem State.lifeCycleRequest_leads {P : Piece → Prop} [Fact (P .ports)] [Fact (P .pnl)] [Fact (P .ras)] [Fact (P .out)] {s₀ s : State} (h : s₀.Leads P s)  :
    s₀.Leads P (State.lifeCycleRequest s) := by
  unfold State.lifeCycleRequest
  with_reducible repeat' (first | assumption | apply ite_leads | apply State.mailEnd_leads | apply State.note_leads | apply State.modPnl_leads | split)

theorem execLifeCycleMailboxRequest_leads {P : Piece → Prop} {s₀ s : State} (h : s₀.Leads P s)  {t : State} (e : execLifeCycleMailboxRequest s = .next t)
    (pPorts : P .ports) (pPnl : P .pnl) (pRas : P .ras) (pOut : P .out) :
    s₀.Leads P t := by
  have _ : Fact (P .ports) := ⟨pPorts⟩
  have _ : Fact (P .pnl) := ⟨pPnl⟩
  have _ : Fact (P .ras) := ⟨pRas⟩
  have _ : Fact (P .out) := ⟨pOut⟩
  unfold execLifeCycleMailboxRequest at e
  cases e
  with_reducible repeat' (first | intro _ | assumption | apply ite_leads | apply State.lifeCycleRequest_leads | apply State.byPf0_leads | split)

theorem State.writeCmdOp_leads {P : Piece → Prop} [Fact (P .pnl)] {s₀ s : State} (h : s₀.Leads P s) (value : Word) :
    s₀.Leads P (State.writeCmdOp s value) := by
  unfold State.writeCmdOp
  with_reducible repeat' (first | assumption | apply ite_leads | apply State.modPnl_leads | split)

theorem State.undefinedOp_leads {P : Piece → Prop} [Fact (P .ports)] [Fact (P .pnl)] [Fact (P .ras)] [Fact (P .out)] {s₀ s : State} (h : s₀.Leads P s) (value : Word) :
    s₀.Leads P (State.undefinedOp s value) := by
  unfold State.undefinedOp
  (try dsimp only)
  with_reducible repeat' (first | assumption | apply ite_leads | apply State.writeCmdOp_leads | apply State.mailEnd_leads | apply State.note_leads | split)

theorem execUndefinedMailboxOp_leads {P : Piece → Prop} {s₀ s : State} (h : s₀.Leads P s) (value : Word) {t : State} (e : execUndefinedMailboxOp value s = .next t)
    (pPorts : P .ports) (pPnl : P .pnl) (pRas : P .ras) (pOut : P .out) :
    s₀.Leads P t := by
  have _ : Fact (P .ports) := ⟨pPorts⟩
  have _ : Fact (P .pnl) := ⟨pPnl⟩
  have _ : Fact (P .ras) := ⟨pRas⟩
  have _ : Fact (P .out) := ⟨pOut⟩
  unfold execUndefinedMailboxOp at e
  cases e
  with_reducible repeat' (first | intro _ | assumption | apply ite_leads | apply State.undefinedOp_leads | apply State.byPf0_leads | split)

theorem State.storeWords_leads {P : Piece → Prop} [Fact (P .hbm)] [Fact (P .mem)] [Fact (P .ras)] [Fact (P .twin)] {s₀ s : State} (h : s₀.Leads P s) (g : Agent) (base : Nat) (ws : List CodeWord) :
    s₀.Leads P (State.storeWords s g base ws) := by
  unfold State.storeWords
  with_reducible repeat' (first | assumption | apply ite_leads | apply State.writeCodes_leads | split)

theorem State.panelWrite_leads {P : Piece → Prop} [Fact (P .fuse)] [Fact (P .hbm)] [Fact (P .mem)] [Fact (P .ports)] [Fact (P .pnl)] [Fact (P .ras)] [Fact (P .twin)] [Fact (P .out)] {s₀ s : State} (h : s₀.Leads P s) (data : HostRead) :
    s₀.Leads P (State.panelWrite s data) := by
  unfold State.panelWrite
  (try dsimp only)
  with_reducible repeat' (first | intro _ | assumption | apply ite_leads | apply State.storeWords_leads | apply State.mailRead_leads | apply State.mailRun_leads | refine snd_leads (by assumption) ?_ | split)

theorem execPanelWrite_leads {P : Piece → Prop} {s₀ s : State} (h : s₀.Leads P s) (data : HostRead) {t : State} (e : execPanelWrite data s = .next t)
    (pFuse : P .fuse) (pHbm : P .hbm) (pMem : P .mem) (pPorts : P .ports) (pPnl : P .pnl) (pRas : P .ras) (pTwin : P .twin) (pOut : P .out) :
    s₀.Leads P t := by
  have _ : Fact (P .fuse) := ⟨pFuse⟩
  have _ : Fact (P .hbm) := ⟨pHbm⟩
  have _ : Fact (P .mem) := ⟨pMem⟩
  have _ : Fact (P .ports) := ⟨pPorts⟩
  have _ : Fact (P .pnl) := ⟨pPnl⟩
  have _ : Fact (P .ras) := ⟨pRas⟩
  have _ : Fact (P .twin) := ⟨pTwin⟩
  have _ : Fact (P .out) := ⟨pOut⟩
  unfold execPanelWrite at e
  cases e
  with_reducible repeat' (first | intro _ | assumption | apply ite_leads | apply State.panelWrite_leads | apply State.byPf0_leads | split)

theorem State.loadPanel_leads {P : Piece → Prop} [Fact (P .hbm)] [Fact (P .mem)] [Fact (P .ras)] [Fact (P .twin)] {s₀ s : State} (h : s₀.Leads P s) (p : PanelId) (dest : Nat) (b : Bundle) :
    s₀.Leads P (State.loadPanel s p dest b).2 := by
  unfold State.loadPanel
  with_reducible repeat' (first | assumption | apply ite_leads | apply State.storeWords_leads | refine snd_leads (by assumption) ?_ | split)

theorem State.putRegion_leads {P : Piece → Prop} [Fact (P .hbm)] [Fact (P .mem)] [Fact (P .ras)] [Fact (P .twin)] {s₀ s : State} (h : s₀.Leads P s) (n : Fin 32) (g : Nat → Agent) (ws : List CodeWord) :
    s₀.Leads P (State.putRegion s n g ws) := by
  unfold State.putRegion
  (try dsimp only)
  with_reducible repeat' (first | assumption | apply ite_leads | apply State.storeWords_leads | split)

theorem State.modCommons_leads {P : Piece → Prop} [Fact (P .pnl)] {s₀ s : State} (h : s₀.Leads P s) (n : Fin 32) (f : CommonsState → CommonsState) :
    s₀.Leads P (State.modCommons s n f) := by
  unfold State.modCommons
  with_reducible repeat' (first | assumption | apply ite_leads | apply State.modPnl_leads | split)

theorem State.loadRegion_leads {P : Piece → Prop} [Fact (P .hbm)] [Fact (P .mem)] [Fact (P .pnl)] [Fact (P .ras)] [Fact (P .twin)] {s₀ s : State} (h : s₀.Leads P s) (n : Fin 32) (b : Bundle) :
    s₀.Leads P (State.loadRegion s n b).2 := by
  unfold State.loadRegion
  (try dsimp only)
  with_reducible repeat' (first | assumption | apply ite_leads | apply State.modCommons_leads | apply State.putRegion_leads | refine snd_leads (by assumption) ?_ | split)

theorem State.bundleLoad_leads {P : Piece → Prop} [Fact (P .fuse)] [Fact (P .hbm)] [Fact (P .mem)] [Fact (P .ports)] [Fact (P .pnl)] [Fact (P .ras)] [Fact (P .twin)] [Fact (P .out)] {s₀ s : State} (h : s₀.Leads P s) (bundle : HostRead) :
    s₀.Leads P (State.bundleLoad s bundle) := by
  unfold State.bundleLoad
  (try dsimp only)
  with_reducible repeat' (first | intro _ | assumption | apply ite_leads | apply State.loadRegion_leads | apply State.loadPanel_leads | apply State.mailRead_leads | apply State.mailRun_leads | refine snd_leads (by assumption) ?_ | split)

theorem execBundleLoad_leads {P : Piece → Prop} {s₀ s : State} (h : s₀.Leads P s) (bundle : HostRead) {t : State} (e : execBundleLoad bundle s = .next t)
    (pFuse : P .fuse) (pHbm : P .hbm) (pMem : P .mem) (pPorts : P .ports) (pPnl : P .pnl) (pRas : P .ras) (pTwin : P .twin) (pOut : P .out) :
    s₀.Leads P t := by
  have _ : Fact (P .fuse) := ⟨pFuse⟩
  have _ : Fact (P .hbm) := ⟨pHbm⟩
  have _ : Fact (P .mem) := ⟨pMem⟩
  have _ : Fact (P .ports) := ⟨pPorts⟩
  have _ : Fact (P .pnl) := ⟨pPnl⟩
  have _ : Fact (P .ras) := ⟨pRas⟩
  have _ : Fact (P .twin) := ⟨pTwin⟩
  have _ : Fact (P .out) := ⟨pOut⟩
  unfold execBundleLoad at e
  cases e
  with_reducible repeat' (first | intro _ | assumption | apply ite_leads | apply State.bundleLoad_leads | apply State.byPf0_leads | split)

theorem State.defineRegion_leads {P : Piece → Prop} [Fact (P .hbm)] [Fact (P .mem)] [Fact (P .pnl)] [Fact (P .ras)] [Fact (P .twin)] [Fact (P .draws)] {s₀ s : State} (h : s₀.Leads P s) (n : Fin 32) (primary mirror length : Nat) :
    s₀.Leads P (State.defineRegion s n primary mirror length) := by
  unfold State.defineRegion
  (try dsimp only)
  with_reducible repeat' (first | assumption | apply ite_leads | apply State.modCommons_leads | apply State.putRegion_leads | apply State.drawn_leads | apply State.modPnl_leads | split)

theorem State.commonsDefine_leads {P : Piece → Prop} [Fact (P .fuse)] [Fact (P .hbm)] [Fact (P .mem)] [Fact (P .ports)] [Fact (P .pnl)] [Fact (P .ras)] [Fact (P .twin)] [Fact (P .draws)] [Fact (P .out)] {s₀ s : State} (h : s₀.Leads P s)  :
    s₀.Leads P (State.commonsDefine s) := by
  unfold State.commonsDefine
  (try dsimp only)
  with_reducible repeat' (first | intro _ | assumption | apply ite_leads | apply State.defineRegion_leads | apply State.mailRun_leads | split)

theorem execCommonsDefine_leads {P : Piece → Prop} {s₀ s : State} (h : s₀.Leads P s)  {t : State} (e : execCommonsDefine s = .next t)
    (pFuse : P .fuse) (pHbm : P .hbm) (pMem : P .mem) (pPorts : P .ports) (pPnl : P .pnl) (pRas : P .ras) (pTwin : P .twin) (pDraws : P .draws) (pOut : P .out) :
    s₀.Leads P t := by
  have _ : Fact (P .fuse) := ⟨pFuse⟩
  have _ : Fact (P .hbm) := ⟨pHbm⟩
  have _ : Fact (P .mem) := ⟨pMem⟩
  have _ : Fact (P .ports) := ⟨pPorts⟩
  have _ : Fact (P .pnl) := ⟨pPnl⟩
  have _ : Fact (P .ras) := ⟨pRas⟩
  have _ : Fact (P .twin) := ⟨pTwin⟩
  have _ : Fact (P .draws) := ⟨pDraws⟩
  have _ : Fact (P .out) := ⟨pOut⟩
  unfold execCommonsDefine at e
  cases e
  with_reducible repeat' (first | intro _ | assumption | apply ite_leads | apply State.commonsDefine_leads | apply State.byPf0_leads | split)

theorem State.releaseRegion_leads {P : Piece → Prop} [Fact (P .hbm)] [Fact (P .mem)] [Fact (P .pnl)] [Fact (P .ras)] [Fact (P .twin)] {s₀ s : State} (h : s₀.Leads P s) (n : Fin 32) :
    s₀.Leads P (State.releaseRegion s n) := by
  unfold State.releaseRegion
  (try dsimp only)
  with_reducible repeat' (first | assumption | apply ite_leads | apply State.modCommons_leads | apply State.putRegion_leads | apply State.modPnl_leads | split)

theorem State.commonsRelease_leads {P : Piece → Prop} [Fact (P .fuse)] [Fact (P .hbm)] [Fact (P .mem)] [Fact (P .ports)] [Fact (P .pnl)] [Fact (P .ras)] [Fact (P .twin)] [Fact (P .out)] {s₀ s : State} (h : s₀.Leads P s)  :
    s₀.Leads P (State.commonsRelease s) := by
  unfold State.commonsRelease
  (try dsimp only)
  with_reducible repeat' (first | intro _ | assumption | apply ite_leads | apply State.releaseRegion_leads | apply State.mailRun_leads | split)

theorem execCommonsRelease_leads {P : Piece → Prop} {s₀ s : State} (h : s₀.Leads P s)  {t : State} (e : execCommonsRelease s = .next t)
    (pFuse : P .fuse) (pHbm : P .hbm) (pMem : P .mem) (pPorts : P .ports) (pPnl : P .pnl) (pRas : P .ras) (pTwin : P .twin) (pOut : P .out) :
    s₀.Leads P t := by
  have _ : Fact (P .fuse) := ⟨pFuse⟩
  have _ : Fact (P .hbm) := ⟨pHbm⟩
  have _ : Fact (P .mem) := ⟨pMem⟩
  have _ : Fact (P .ports) := ⟨pPorts⟩
  have _ : Fact (P .pnl) := ⟨pPnl⟩
  have _ : Fact (P .ras) := ⟨pRas⟩
  have _ : Fact (P .twin) := ⟨pTwin⟩
  have _ : Fact (P .out) := ⟨pOut⟩
  unfold execCommonsRelease at e
  cases e
  with_reducible repeat' (first | intro _ | assumption | apply ite_leads | apply State.commonsRelease_leads | apply State.byPf0_leads | split)

theorem State.debugStored_leads {P : Piece → Prop} [Fact (P .fields)] [Fact (P .hbm)] [Fact (P .mem)] [Fact (P .ras)] {s₀ s : State} (h : s₀.Leads P s) (pa : BitVec 52) :
    s₀.Leads P (State.debugStored s pa).2 := by
  unfold State.debugStored
  (try dsimp only)
  with_reducible repeat' (first | assumption | apply ite_leads | apply State.unbackedEvent_leads | apply State.readLoc_leads | refine snd_leads (by assumption) ?_ | split)

theorem State.debugWord_leads {P : Piece → Prop} [Fact (P .fields)] [Fact (P .hbm)] [Fact (P .mem)] [Fact (P .ras)] {s₀ s : State} (h : s₀.Leads P s) (pa : BitVec 52) :
    s₀.Leads P (State.debugWord s pa).2 := by
  unfold State.debugWord
  (try dsimp only)
  with_reducible repeat' (first | assumption | apply ite_leads | apply State.debugStored_leads | apply State.readCode_leads | refine snd_leads (by assumption) ?_ | split)

theorem State.storeWord_leads {P : Piece → Prop} [Fact (P .draws)] {s₀ s : State} (h : s₀.Leads P s) (a : ArrayId) (store core byte : Nat) :
    s₀.Leads P (State.storeWord s a store core byte).2 := by
  unfold State.storeWord
  (try dsimp only)
  with_reducible repeat' (first | assumption | apply ite_leads | apply State.drawn_leads | refine snd_leads (by assumption) ?_ | split)

theorem State.debugStore_leads {P : Piece → Prop} [Fact (P .draws)] {s₀ s : State} (h : s₀.Leads P s) (a : ArrayId) (store core byte : Nat) :
    s₀.Leads P (State.debugStore s a store core byte).2 := by
  unfold State.debugStore
  (try dsimp only)
  with_reducible repeat' (first | assumption | apply ite_leads | apply State.storeWord_leads | refine snd_leads (by assumption) ?_ | split)

theorem State.dbgEnd_leads {P : Piece → Prop} [Fact (P .pnl)] {s₀ s : State} (h : s₀.Leads P s) (state : BitVec 4) (d : DbgData) :
    s₀.Leads P (State.dbgEnd s state d) := by
  unfold State.dbgEnd
  with_reducible repeat' (first | assumption | apply ite_leads | apply State.modPnl_leads | split)

theorem State.debugRead_leads {P : Piece → Prop} [Fact (P .fields)] [Fact (P .hbm)] [Fact (P .mem)] [Fact (P .pnl)] [Fact (P .ras)] [Fact (P .draws)] {s₀ s : State} (h : s₀.Leads P s)  :
    s₀.Leads P (State.debugRead s) := by
  unfold State.debugRead
  (try dsimp only)
  with_reducible repeat' (first | assumption | apply ite_leads | apply State.dbgEnd_leads | apply State.debugStore_leads | apply State.debugWord_leads | apply State.modPnl_leads | refine snd_leads (by assumption) ?_ | split)

theorem execDebugRead_leads {P : Piece → Prop} {s₀ s : State} (h : s₀.Leads P s)  {t : State} (e : execDebugRead s = .next t)
    (pFields : P .fields) (pHbm : P .hbm) (pMem : P .mem) (pPnl : P .pnl) (pRas : P .ras) (pDraws : P .draws) :
    s₀.Leads P t := by
  have _ : Fact (P .fields) := ⟨pFields⟩
  have _ : Fact (P .hbm) := ⟨pHbm⟩
  have _ : Fact (P .mem) := ⟨pMem⟩
  have _ : Fact (P .pnl) := ⟨pPnl⟩
  have _ : Fact (P .ras) := ⟨pRas⟩
  have _ : Fact (P .draws) := ⟨pDraws⟩
  unfold execDebugRead at e
  cases e
  with_reducible repeat' (first | intro _ | assumption | apply ite_leads | apply State.debugRead_leads | apply State.byPf0_leads | split)

theorem State.writeStore_leads {P : Piece → Prop} [Fact (P .arrays)] {s₀ s : State} (h : s₀.Leads P s) (a : ArrayId) (store core byte : Nat) (data : BitVec 512) :
    s₀.Leads P (State.writeStore s a store core byte data) := by
  unfold State.writeStore
  with_reducible repeat' (first | intro _ | assumption | apply ite_leads | apply State.modVec_leads | apply foldl_leads | apply foldl_leads_snd | refine snd_leads (by assumption) ?_ | split)

theorem State.debugWrite_leads {P : Piece → Prop} [Fact (P .arrays)] [Fact (P .hbm)] [Fact (P .mem)] [Fact (P .pnl)] [Fact (P .ras)] [Fact (P .twin)] {s₀ s : State} (h : s₀.Leads P s)  :
    s₀.Leads P (State.debugWrite s) := by
  unfold State.debugWrite
  (try dsimp only)
  with_reducible repeat' (first | assumption | apply ite_leads | apply State.writeStore_leads | apply State.dbgEnd_leads | apply State.writeCode_leads | refine snd_leads (by assumption) ?_ | split)

theorem execDebugWrite_leads {P : Piece → Prop} {s₀ s : State} (h : s₀.Leads P s)  {t : State} (e : execDebugWrite s = .next t)
    (pArrays : P .arrays) (pHbm : P .hbm) (pMem : P .mem) (pPnl : P .pnl) (pRas : P .ras) (pTwin : P .twin) :
    s₀.Leads P t := by
  have _ : Fact (P .arrays) := ⟨pArrays⟩
  have _ : Fact (P .hbm) := ⟨pHbm⟩
  have _ : Fact (P .mem) := ⟨pMem⟩
  have _ : Fact (P .pnl) := ⟨pPnl⟩
  have _ : Fact (P .ras) := ⟨pRas⟩
  have _ : Fact (P .twin) := ⟨pTwin⟩
  unfold execDebugWrite at e
  cases e
  with_reducible repeat' (first | intro _ | assumption | apply ite_leads | apply State.debugWrite_leads | apply State.byPf0_leads | split)

theorem State.writeTrace_leads {P : Piece → Prop} [Fact (P .pnl)] {s₀ s : State} (h : s₀.Leads P s) (value : Word) :
    s₀.Leads P (State.writeTrace s value) := by
  unfold State.writeTrace
  (try dsimp only)
  with_reducible repeat' (first | assumption | apply ite_leads | apply State.modPnl_leads | split)

theorem execTraceEnable_leads {P : Piece → Prop} {s₀ s : State} (h : s₀.Leads P s) (value : Word) {t : State} (e : execTraceEnable value s = .next t)
    (pPnl : P .pnl) :
    s₀.Leads P t := by
  have _ : Fact (P .pnl) := ⟨pPnl⟩
  unfold execTraceEnable at e
  cases e
  with_reducible repeat' (first | intro _ | assumption | apply ite_leads | apply State.writeTrace_leads | apply State.byPf0_leads | split)

end Sys2Proof.Machine
end

