-- ==== Sys2Proof/Laws/LeadsRas.lean ====
section
/-!
SUPPORT. What the operations of Machine/Ras.lean keep (State.Leads).
-/

set_option linter.unusedTactic false
set_option linter.unreachableTactic false
set_option linter.unusedVariables false

set_option Elab.async false

namespace Sys2Proof.Machine

theorem State.packageFault_leads {P : Piece → Prop} [Fact (P .arrays)] [Fact (P .ports)] [Fact (P .pnl)] [Fact (P .ras)] [Fact (P .twin)] [Fact (P .lines)] [Fact (P .out)] {s₀ s : State} (h : s₀.Leads P s) (source : BitVec 5) (code : Byte) :
    s₀.Leads P (State.packageFault s source code) := by
  unfold State.packageFault
  (try dsimp only)
  with_reducible repeat' (first | intro _ | assumption | apply ite_leads | apply State.sendHeart_leads | apply State.haltSilent_leads | apply State.logFault_leads | apply State.modTwin_leads | apply State.modRas_leads | apply foldl_leads | apply foldl_leads_snd | refine snd_leads (by assumption) ?_ | split)
  all_goals first | assumption | exact fun h => h

theorem execPackageFault_leads {P : Piece → Prop} {s₀ s : State} (h : s₀.Leads P s) (source : BitVec 5) (code : Byte) {t : State} (e : execPackageFault source code s = .next t)
    (pArrays : P .arrays) (pPorts : P .ports) (pPnl : P .pnl) (pRas : P .ras) (pTwin : P .twin) (pLines : P .lines) (pOut : P .out) :
    s₀.Leads P t := by
  have _ : Fact (P .arrays) := ⟨pArrays⟩
  have _ : Fact (P .ports) := ⟨pPorts⟩
  have _ : Fact (P .pnl) := ⟨pPnl⟩
  have _ : Fact (P .ras) := ⟨pRas⟩
  have _ : Fact (P .twin) := ⟨pTwin⟩
  have _ : Fact (P .lines) := ⟨pLines⟩
  have _ : Fact (P .out) := ⟨pOut⟩
  unfold execPackageFault at e
  cases e
  with_reducible repeat' (first | assumption | apply ite_leads | apply State.packageFault_leads | split)

theorem State.flogPop_leads {P : Piece → Prop} [Fact (P .ras)] {s₀ s : State} (h : s₀.Leads P s) (value : Word) :
    s₀.Leads P (State.flogPop s value) := by
  unfold State.flogPop
  with_reducible repeat' (first | assumption | apply ite_leads | apply State.modRas_leads | split)
  all_goals exact fun k => ⟨k.1, by dsimp only; rw [List.length_drop]; exact Nat.le_trans (Nat.sub_le _ _) k.2⟩

theorem execRasFlogPop_leads {P : Piece → Prop} {s₀ s : State} (h : s₀.Leads P s) (value : Word) {t : State} (e : execRasFlogPop value s = .next t)
    (pRas : P .ras) :
    s₀.Leads P t := by
  have _ : Fact (P .ras) := ⟨pRas⟩
  unfold execRasFlogPop at e
  cases e
  with_reducible repeat' (first | intro _ | assumption | apply ite_leads | apply State.flogPop_leads | apply State.byPf0_leads | split)

theorem State.clearSevere_leads {P : Piece → Prop} [Fact (P .ras)] [Fact (P .out)] {s₀ s : State} (h : s₀.Leads P s)  :
    s₀.Leads P (State.clearSevere s) := by
  unfold State.clearSevere
  with_reducible repeat' (first | assumption | apply ite_leads | apply State.emit_leads | apply State.modRas_leads | split)
  all_goals first | assumption | exact fun h => h

theorem State.writeFlogStatus_leads {P : Piece → Prop} [Fact (P .ras)] [Fact (P .out)] {s₀ s : State} (h : s₀.Leads P s) (value : Word) :
    s₀.Leads P (State.writeFlogStatus s value) := by
  unfold State.writeFlogStatus
  (try dsimp only)
  with_reducible repeat' (first | assumption | apply ite_leads | apply State.clearSevere_leads | apply State.modRas_leads | split)
  all_goals first | assumption | exact fun h => h

theorem execFlogSevereClear_leads {P : Piece → Prop} {s₀ s : State} (h : s₀.Leads P s) (value : Word) {t : State} (e : execFlogSevereClear value s = .next t)
    (pRas : P .ras) (pOut : P .out) :
    s₀.Leads P t := by
  have _ : Fact (P .ras) := ⟨pRas⟩
  have _ : Fact (P .out) := ⟨pOut⟩
  unfold execFlogSevereClear at e
  cases e
  with_reducible repeat' (first | intro _ | assumption | apply ite_leads | apply State.writeFlogStatus_leads | apply State.byPf0_leads | split)

theorem execPatchStoreWrite_leads {P : Piece → Prop} {s₀ s : State} (h : s₀.Leads P s)  {t : State} (e : execPatchStoreWrite s = .next t)
    (pFuse : P .fuse) (pRas : P .ras) :
    s₀.Leads P t := by
  have _ : Fact (P .fuse) := ⟨pFuse⟩
  have _ : Fact (P .ras) := ⟨pRas⟩
  unfold execPatchStoreWrite at e
  cases e
  (try dsimp only)
  with_reducible repeat' (first | assumption | apply ite_leads | apply State.modFuse_leads | apply State.modRas_leads | refine snd_leads (by assumption) ?_ | split)
  all_goals first | exact fun h => h | exact ⟨fun _ h => h, Nat.le_refl _, Nat.le_refl _, Nat.le_refl _, List.prefix_append _ _, rfl⟩

theorem State.runTransition_leads {P : Piece → Prop} [Fact (P .fuse)] [Fact (P .arrays)] [Fact (P .ports)] [Fact (P .pnl)] [Fact (P .lcs)] [Fact (P .draws)] {s₀ s : State} (h : s₀.Leads P s) (t : Transition) (fails : Option Nat) :
    s₀.Leads P (State.runTransition s t fails) := by
  unfold State.runTransition
  (try dsimp only)
  with_reducible repeat' (first | intro _ | assumption | apply ite_leads | apply State.enterDust_leads | apply State.settleRetire_leads | apply State.lcsBurn_leads | apply State.lcsRefused_leads | apply State.modLcs_leads | apply foldl_leads | apply foldl_leads_snd | refine snd_leads (by assumption) ?_ | split)

theorem State.takeTransition_leads {P : Piece → Prop} [Fact (P .fuse)] [Fact (P .arrays)] [Fact (P .ports)] [Fact (P .pnl)] [Fact (P .lcs)] [Fact (P .draws)] {s₀ s : State} (h : s₀.Leads P s) (bs : List Byte) (fails : Option Nat) :
    s₀.Leads P (State.takeTransition s bs fails) := by
  unfold State.takeTransition
  (try dsimp only)
  with_reducible repeat' (first | assumption | apply ite_leads | apply State.runTransition_leads | apply State.lcsRefused_leads | apply State.modFuse_leads | split)
  all_goals exact Fuses.burn_rises _ _ _

theorem State.lcsControl_leads {P : Piece → Prop} [Fact (P .fuse)] [Fact (P .arrays)] [Fact (P .ports)] [Fact (P .pnl)] [Fact (P .lcs)] [Fact (P .ras)] [Fact (P .draws)] [Fact (P .out)] {s₀ s : State} (h : s₀.Leads P s) (value : Word) (request : HostRead) (fails : Option Nat) :
    s₀.Leads P (State.lcsControl s value request fails) := by
  unfold State.lcsControl
  (try dsimp only)
  with_reducible repeat' (first | assumption | apply ite_leads | apply State.takeTransition_leads | apply State.mailRead_leads | apply State.lcsRefused_leads | apply State.note_leads | apply State.modLcs_leads | refine snd_leads (by assumption) ?_ | split)

theorem execLcsGo_leads {P : Piece → Prop} {s₀ s : State} (h : s₀.Leads P s) (value : Word) (request : HostRead) (burnFails : Option Nat) {t : State} (e : execLcsGo value request burnFails s = .next t)
    (pFuse : P .fuse) (pArrays : P .arrays) (pPorts : P .ports) (pPnl : P .pnl) (pLcs : P .lcs) (pRas : P .ras) (pDraws : P .draws) (pOut : P .out) :
    s₀.Leads P t := by
  have _ : Fact (P .fuse) := ⟨pFuse⟩
  have _ : Fact (P .arrays) := ⟨pArrays⟩
  have _ : Fact (P .ports) := ⟨pPorts⟩
  have _ : Fact (P .pnl) := ⟨pPnl⟩
  have _ : Fact (P .lcs) := ⟨pLcs⟩
  have _ : Fact (P .ras) := ⟨pRas⟩
  have _ : Fact (P .draws) := ⟨pDraws⟩
  have _ : Fact (P .out) := ⟨pOut⟩
  unfold execLcsGo at e
  cases e
  with_reducible repeat' (first | assumption | apply ite_leads | apply State.lcsControl_leads | split)

end Sys2Proof.Machine
end

