-- ==== Sys2Proof/Laws/LeadsBoot.lean ====
section
/-!
SUPPORT. What the operations of Machine/Boot.lean keep (State.Leads).
-/

set_option linter.unusedTactic false
set_option linter.unreachableTactic false
set_option linter.unusedVariables false

set_option Elab.async false

namespace Sys2Proof.Machine

theorem State.atReset_leads {P : Piece → Prop} [Fact (P .boot)] [Fact (P .sclk)] [Fact (P .siteSlot)] [Fact (P .arrays)] [Fact (P .fields)] [Fact (P .hbm)] [Fact (P .mem)] [Fact (P .net)] [Fact (P .coh)] [Fact (P .sites)] [Fact (P .ports)] [Fact (P .img)] [Fact (P .pnl)] [Fact (P .lcs)] [Fact (P .ras)] [Fact (P .twin)] [Fact (P .lines)] [Fact (P .clk)] [Fact (P .pwr)] [Fact (P .heldLow)] [Fact (P .latched)] {s₀ s : State} (h : s₀.Leads P s) : s₀.Leads P s.atReset :=
  ⟨fun p n => (h.parts p n).trans (by cases p <;> first | exact absurd Fact.out n | exact rfl | exact ⟨rfl, rfl, rfl, rfl⟩),
    h.queue, h.sent, h.fuse, fun _ => rfl, fun _ => by simp [State.atReset, State.leaving, PwrState.InRange],
    fun _ => ⟨Nat.zero_le _, Nat.zero_le _⟩⟩

theorem State.releasePins_leads {P : Piece → Prop} [Fact (P .out)] {s₀ s : State} (h : s₀.Leads P s)  :
    s₀.Leads P (State.releasePins s) := by
  unfold State.releasePins
  (try dsimp only)
  with_reducible repeat' (first | intro _ | assumption | apply ite_leads | apply State.emit_leads | apply foldl_leads | apply foldl_leads_snd | split)

theorem State.enterReset_leads {P : Piece → Prop} [Fact (P .boot)] [Fact (P .sclk)] [Fact (P .siteSlot)] [Fact (P .arrays)] [Fact (P .fields)] [Fact (P .hbm)] [Fact (P .mem)] [Fact (P .net)] [Fact (P .coh)] [Fact (P .sites)] [Fact (P .ports)] [Fact (P .img)] [Fact (P .pnl)] [Fact (P .lcs)] [Fact (P .ras)] [Fact (P .twin)] [Fact (P .lines)] [Fact (P .clk)] [Fact (P .pwr)] [Fact (P .heldLow)] [Fact (P .latched)] [Fact (P .out)] {s₀ s : State} (h : s₀.Leads P s) : s₀.Leads P s.enterReset :=
  (State.atReset_leads (State.releasePins_leads h)).untouched rfl rfl rfl rfl rfl rfl

theorem State.maybeLeave_leads {P : Piece → Prop} [Fact (P .boot)] [Fact (P .sclk)] [Fact (P .siteSlot)] [Fact (P .arrays)] [Fact (P .fields)] [Fact (P .hbm)] [Fact (P .mem)] [Fact (P .net)] [Fact (P .coh)] [Fact (P .sites)] [Fact (P .ports)] [Fact (P .img)] [Fact (P .pnl)] [Fact (P .lcs)] [Fact (P .ras)] [Fact (P .twin)] [Fact (P .lines)] [Fact (P .clk)] [Fact (P .pwr)] [Fact (P .heldLow)] [Fact (P .latched)] {s₀ s : State} (h : s₀.Leads P s)  :
    s₀.Leads P (State.maybeLeave s) := by
  unfold State.maybeLeave
  with_reducible repeat' (first | assumption | apply ite_leads | apply State.atReset_leads | split)

theorem State.auxUp_leads {P : Piece → Prop} [Fact (P .side)] {s₀ s : State} (h : s₀.Leads P s)  :
    s₀.Leads P (State.auxUp s) := by
  unfold State.auxUp
  with_reducible repeat' (first | assumption | apply ite_leads | apply State.modSide_leads | split)

theorem execPwrgdRise_leads {P : Piece → Prop} {s₀ s : State} (h : s₀.Leads P s) (pin : PowerGood) {t : State} (e : execPwrgdRise pin s = .next t)
    (pBoot : P .boot) (pSclk : P .sclk) (pPins : P .pins) (pSide : P .side) (pSiteSlot : P .siteSlot) (pArrays : P .arrays) (pFields : P .fields) (pHbm : P .hbm) (pMem : P .mem) (pNet : P .net) (pCoh : P .coh) (pSites : P .sites) (pPorts : P .ports) (pImg : P .img) (pPnl : P .pnl) (pLcs : P .lcs) (pRas : P .ras) (pTwin : P .twin) (pLines : P .lines) (pClk : P .clk) (pPwr : P .pwr) (pHeldLow : P .heldLow) (pLatched : P .latched) :
    s₀.Leads P t := by
  have _ : Fact (P .boot) := ⟨pBoot⟩
  have _ : Fact (P .sclk) := ⟨pSclk⟩
  have _ : Fact (P .pins) := ⟨pPins⟩
  have _ : Fact (P .side) := ⟨pSide⟩
  have _ : Fact (P .siteSlot) := ⟨pSiteSlot⟩
  have _ : Fact (P .arrays) := ⟨pArrays⟩
  have _ : Fact (P .fields) := ⟨pFields⟩
  have _ : Fact (P .hbm) := ⟨pHbm⟩
  have _ : Fact (P .mem) := ⟨pMem⟩
  have _ : Fact (P .net) := ⟨pNet⟩
  have _ : Fact (P .coh) := ⟨pCoh⟩
  have _ : Fact (P .sites) := ⟨pSites⟩
  have _ : Fact (P .ports) := ⟨pPorts⟩
  have _ : Fact (P .img) := ⟨pImg⟩
  have _ : Fact (P .pnl) := ⟨pPnl⟩
  have _ : Fact (P .lcs) := ⟨pLcs⟩
  have _ : Fact (P .ras) := ⟨pRas⟩
  have _ : Fact (P .twin) := ⟨pTwin⟩
  have _ : Fact (P .lines) := ⟨pLines⟩
  have _ : Fact (P .clk) := ⟨pClk⟩
  have _ : Fact (P .pwr) := ⟨pPwr⟩
  have _ : Fact (P .heldLow) := ⟨pHeldLow⟩
  have _ : Fact (P .latched) := ⟨pLatched⟩
  unfold execPwrgdRise at e
  cases e
  (try dsimp only)
  with_reducible repeat' (first | assumption | apply ite_leads | apply State.auxUp_leads | apply State.maybeLeave_leads | apply State.modPins_leads | split)

theorem execPwrgdFall_leads {P : Piece → Prop} {s₀ s : State} (h : s₀.Leads P s) (pin : PowerGood) {t : State} (e : execPwrgdFall pin s = .next t)
    (pBoot : P .boot) (pSclk : P .sclk) (pPins : P .pins) (pSiteSlot : P .siteSlot) (pArrays : P .arrays) (pFields : P .fields) (pHbm : P .hbm) (pMem : P .mem) (pNet : P .net) (pCoh : P .coh) (pSites : P .sites) (pPorts : P .ports) (pImg : P .img) (pPnl : P .pnl) (pLcs : P .lcs) (pRas : P .ras) (pTwin : P .twin) (pLines : P .lines) (pClk : P .clk) (pPwr : P .pwr) (pHeldLow : P .heldLow) (pLatched : P .latched) (pOut : P .out) :
    s₀.Leads P t := by
  have _ : Fact (P .boot) := ⟨pBoot⟩
  have _ : Fact (P .sclk) := ⟨pSclk⟩
  have _ : Fact (P .pins) := ⟨pPins⟩
  have _ : Fact (P .siteSlot) := ⟨pSiteSlot⟩
  have _ : Fact (P .arrays) := ⟨pArrays⟩
  have _ : Fact (P .fields) := ⟨pFields⟩
  have _ : Fact (P .hbm) := ⟨pHbm⟩
  have _ : Fact (P .mem) := ⟨pMem⟩
  have _ : Fact (P .net) := ⟨pNet⟩
  have _ : Fact (P .coh) := ⟨pCoh⟩
  have _ : Fact (P .sites) := ⟨pSites⟩
  have _ : Fact (P .ports) := ⟨pPorts⟩
  have _ : Fact (P .img) := ⟨pImg⟩
  have _ : Fact (P .pnl) := ⟨pPnl⟩
  have _ : Fact (P .lcs) := ⟨pLcs⟩
  have _ : Fact (P .ras) := ⟨pRas⟩
  have _ : Fact (P .twin) := ⟨pTwin⟩
  have _ : Fact (P .lines) := ⟨pLines⟩
  have _ : Fact (P .clk) := ⟨pClk⟩
  have _ : Fact (P .pwr) := ⟨pPwr⟩
  have _ : Fact (P .heldLow) := ⟨pHeldLow⟩
  have _ : Fact (P .latched) := ⟨pLatched⟩
  have _ : Fact (P .out) := ⟨pOut⟩
  unfold execPwrgdFall at e
  cases e
  (try dsimp only)
  with_reducible repeat' (first | assumption | apply ite_leads | apply State.enterReset_leads | apply State.sendHeart_leads | apply State.modPins_leads | split)

theorem execPkgResetAssert_leads {P : Piece → Prop} {s₀ s : State} (h : s₀.Leads P s)  {t : State} (e : execPkgResetAssert s = .next t)
    (pBoot : P .boot) (pSclk : P .sclk) (pPins : P .pins) (pSiteSlot : P .siteSlot) (pArrays : P .arrays) (pFields : P .fields) (pHbm : P .hbm) (pMem : P .mem) (pNet : P .net) (pCoh : P .coh) (pSites : P .sites) (pPorts : P .ports) (pImg : P .img) (pPnl : P .pnl) (pLcs : P .lcs) (pRas : P .ras) (pTwin : P .twin) (pLines : P .lines) (pClk : P .clk) (pPwr : P .pwr) (pHeldLow : P .heldLow) (pLatched : P .latched) (pOut : P .out) :
    s₀.Leads P t := by
  have _ : Fact (P .boot) := ⟨pBoot⟩
  have _ : Fact (P .sclk) := ⟨pSclk⟩
  have _ : Fact (P .pins) := ⟨pPins⟩
  have _ : Fact (P .siteSlot) := ⟨pSiteSlot⟩
  have _ : Fact (P .arrays) := ⟨pArrays⟩
  have _ : Fact (P .fields) := ⟨pFields⟩
  have _ : Fact (P .hbm) := ⟨pHbm⟩
  have _ : Fact (P .mem) := ⟨pMem⟩
  have _ : Fact (P .net) := ⟨pNet⟩
  have _ : Fact (P .coh) := ⟨pCoh⟩
  have _ : Fact (P .sites) := ⟨pSites⟩
  have _ : Fact (P .ports) := ⟨pPorts⟩
  have _ : Fact (P .img) := ⟨pImg⟩
  have _ : Fact (P .pnl) := ⟨pPnl⟩
  have _ : Fact (P .lcs) := ⟨pLcs⟩
  have _ : Fact (P .ras) := ⟨pRas⟩
  have _ : Fact (P .twin) := ⟨pTwin⟩
  have _ : Fact (P .lines) := ⟨pLines⟩
  have _ : Fact (P .clk) := ⟨pClk⟩
  have _ : Fact (P .pwr) := ⟨pPwr⟩
  have _ : Fact (P .heldLow) := ⟨pHeldLow⟩
  have _ : Fact (P .latched) := ⟨pLatched⟩
  have _ : Fact (P .out) := ⟨pOut⟩
  unfold execPkgResetAssert at e
  cases e
  (try dsimp only)
  with_reducible repeat' (first | assumption | apply ite_leads | apply State.enterReset_leads | apply State.modPins_leads | split)

theorem execPkgResetRelease_leads {P : Piece → Prop} {s₀ s : State} (h : s₀.Leads P s)  {t : State} (e : execPkgResetRelease s = .next t)
    (pBoot : P .boot) (pSclk : P .sclk) (pPins : P .pins) (pSiteSlot : P .siteSlot) (pArrays : P .arrays) (pFields : P .fields) (pHbm : P .hbm) (pMem : P .mem) (pNet : P .net) (pCoh : P .coh) (pSites : P .sites) (pPorts : P .ports) (pImg : P .img) (pPnl : P .pnl) (pLcs : P .lcs) (pRas : P .ras) (pTwin : P .twin) (pLines : P .lines) (pClk : P .clk) (pPwr : P .pwr) (pHeldLow : P .heldLow) (pLatched : P .latched) :
    s₀.Leads P t := by
  have _ : Fact (P .boot) := ⟨pBoot⟩
  have _ : Fact (P .sclk) := ⟨pSclk⟩
  have _ : Fact (P .pins) := ⟨pPins⟩
  have _ : Fact (P .siteSlot) := ⟨pSiteSlot⟩
  have _ : Fact (P .arrays) := ⟨pArrays⟩
  have _ : Fact (P .fields) := ⟨pFields⟩
  have _ : Fact (P .hbm) := ⟨pHbm⟩
  have _ : Fact (P .mem) := ⟨pMem⟩
  have _ : Fact (P .net) := ⟨pNet⟩
  have _ : Fact (P .coh) := ⟨pCoh⟩
  have _ : Fact (P .sites) := ⟨pSites⟩
  have _ : Fact (P .ports) := ⟨pPorts⟩
  have _ : Fact (P .img) := ⟨pImg⟩
  have _ : Fact (P .pnl) := ⟨pPnl⟩
  have _ : Fact (P .lcs) := ⟨pLcs⟩
  have _ : Fact (P .ras) := ⟨pRas⟩
  have _ : Fact (P .twin) := ⟨pTwin⟩
  have _ : Fact (P .lines) := ⟨pLines⟩
  have _ : Fact (P .clk) := ⟨pClk⟩
  have _ : Fact (P .pwr) := ⟨pPwr⟩
  have _ : Fact (P .heldLow) := ⟨pHeldLow⟩
  have _ : Fact (P .latched) := ⟨pLatched⟩
  unfold execPkgResetRelease at e
  cases e
  with_reducible repeat' (first | assumption | apply ite_leads | apply State.maybeLeave_leads | apply State.modPins_leads | split)

theorem State.bootArray_leads {P : Piece → Prop} [Fact (P .arrays)] [Fact (P .net)] {s₀ s : State} (h : s₀.Leads P s) (a : ArrayId) (st : BitVec 3) :
    s₀.Leads P (State.bootArray s a st) := by
  unfold State.bootArray
  with_reducible repeat' (first | assumption | apply ite_leads | apply State.setSink_leads | apply State.modArray_leads | split)

theorem State.applyPatch_leads {P : Piece → Prop} [Fact (P .arrays)] [Fact (P .fields)] [Fact (P .hbm)] [Fact (P .net)] [Fact (P .twin)] {s₀ s : State} (h : s₀.Leads P s) (r : PatchRec) :
    s₀.Leads P (State.applyPatch s r) := by
  unfold State.applyPatch
  (try dsimp only)
  with_reducible repeat' (first | assumption | apply ite_leads | apply State.bootArray_leads | apply State.modLath_leads | apply State.modTwinPort_leads | apply State.modStack_leads | apply State.modFt_leads | apply State.modArray_leads | refine snd_leads (by assumption) ?_ | split)

theorem State.vote_leads {P : Piece → Prop} [Fact (P .fuse)] [Fact (P .boot)] [Fact (P .lcs)] [Fact (P .draws)] {s₀ s : State} (h : s₀.Leads P s) : s₀.Leads P s.vote := by
  unfold State.vote
  refine State.freshNonce_leads (State.modLcs_leads ?_ _)
  exact (State.modFuse_leads h (fun _ => s.fuse.resolve.1) (Fuses.resolve_rises _)).untouched rfl rfl rfl rfl rfl rfl

theorem State.applyStore_leads {P : Piece → Prop} [Fact (P .fuse)] [Fact (P .arrays)] [Fact (P .fields)] [Fact (P .hbm)] [Fact (P .net)] [Fact (P .ras)] [Fact (P .twin)] {s₀ s : State} (h : s₀.Leads P s)  :
    s₀.Leads P (State.applyStore s) := by
  unfold State.applyStore
  (try dsimp only)
  with_reducible repeat' (first | intro _ | assumption | apply ite_leads | apply State.applyPatch_leads | apply State.checkGrade_leads | apply State.modFuse_leads | apply State.modRas_leads | apply foldl_leads | apply foldl_leads_snd | split)
  all_goals first | assumption | exact fun h => h | exact ⟨fun _ h => h, Nat.le_refl _, Nat.le_refl _, Nat.le_refl _, List.prefix_refl _, rfl⟩

theorem State.bootDone_leads {P : Piece → Prop} [Fact (P .boot)] [Fact (P .ports)] [Fact (P .out)] {s₀ s : State} (h : s₀.Leads P s) : s₀.Leads P s.bootDone := by
  unfold State.bootDone
  refine State.readyFrom_leads (State.readyMessage_leads (State.readyMessage_leads ?_ _) _) _
  exact h.untouched rfl rfl rfl rfl rfl rfl

theorem State.makeKeys_leads {P : Piece → Prop} [Fact (P .fuse)] [Fact (P .draws)] {s₀ s : State} (h : s₀.Leads P s)  :
    s₀.Leads P (State.makeKeys s) := by
  unfold State.makeKeys
  (try dsimp only)
  with_reducible repeat' (first | assumption | apply ite_leads | apply State.drawn_leads | apply State.modFuse_leads | split)
  all_goals first | assumption | exact fun h => h | exact ⟨fun _ h => h, Nat.le_refl _, Nat.le_refl _, Nat.le_refl _, List.prefix_refl _, rfl⟩

theorem execBootStageDone_leads {P : Piece → Prop} {s₀ s : State} (h : s₀.Leads P s) (passed : Bool) {t : State} (e : execBootStageDone passed s = .next t)
    (pFuse : P .fuse) (pBoot : P .boot) (pArrays : P .arrays) (pFields : P .fields) (pHbm : P .hbm) (pNet : P .net) (pPorts : P .ports) (pPnl : P .pnl) (pLcs : P .lcs) (pRas : P .ras) (pTwin : P .twin) (pLines : P .lines) (pClk : P .clk) (pDraws : P .draws) (pOut : P .out) :
    s₀.Leads P t := by
  have _ : Fact (P .fuse) := ⟨pFuse⟩
  have _ : Fact (P .boot) := ⟨pBoot⟩
  have _ : Fact (P .arrays) := ⟨pArrays⟩
  have _ : Fact (P .fields) := ⟨pFields⟩
  have _ : Fact (P .hbm) := ⟨pHbm⟩
  have _ : Fact (P .net) := ⟨pNet⟩
  have _ : Fact (P .ports) := ⟨pPorts⟩
  have _ : Fact (P .pnl) := ⟨pPnl⟩
  have _ : Fact (P .lcs) := ⟨pLcs⟩
  have _ : Fact (P .ras) := ⟨pRas⟩
  have _ : Fact (P .twin) := ⟨pTwin⟩
  have _ : Fact (P .lines) := ⟨pLines⟩
  have _ : Fact (P .clk) := ⟨pClk⟩
  have _ : Fact (P .draws) := ⟨pDraws⟩
  have _ : Fact (P .out) := ⟨pOut⟩
  unfold execBootStageDone at e
  injection e with e
  rw [← e]
  refine ite_leads h (ite_leads (ite_leads ?_ h) (ite_leads ?_ (ite_leads ?_ (ite_leads (ite_leads ?_ ?_) h))))
  · exact (State.modClk_leads h _).staged 1
  · exact (State.vote_leads h).staged 2
  · exact ite_leads (State.bootDone_leads (State.applyStore_leads h)) ((State.applyStore_leads h).staged 3)
  · exact State.bootDone_leads (State.makeKeys_leads h)
  · exact State.packageFault_leads (h.staged 5) _ _

theorem execFieldSelfTestDone_leads {P : Piece → Prop} {s₀ s : State} (h : s₀.Leads P s) (f : FieldId) {t : State} (e : execFieldSelfTestDone f s = .next t)
    (pArrays : P .arrays) (pFields : P .fields) (pPorts : P .ports) :
    s₀.Leads P t := by
  have _ : Fact (P .arrays) := ⟨pArrays⟩
  have _ : Fact (P .fields) := ⟨pFields⟩
  have _ : Fact (P .ports) := ⟨pPorts⟩
  unfold execFieldSelfTestDone at e
  cases e
  (try dsimp only)
  with_reducible repeat' (first | intro _ | assumption | apply ite_leads | apply State.readyFrom_leads | apply State.modField_leads | apply State.modArray_leads | apply foldl_leads | apply foldl_leads_snd | split)

theorem State.raiseSite_leads {P : Piece → Prop} [Fact (P .sites)] [Fact (P .out)] {s₀ s : State} (h : s₀.Leads P s) (n : SiteId) :
    s₀.Leads P (State.raiseSite s n) := by
  unfold State.raiseSite
  with_reducible repeat' (first | assumption | apply ite_leads | apply State.emit_leads | apply State.modSite_leads | split)

theorem execSiteEnSlot_leads {P : Piece → Prop} {s₀ s : State} (h : s₀.Leads P s) {t : State} (e : execSiteEnSlot s = .next t)
    (pSiteSlot : P .siteSlot) (pSites : P .sites) (pOut : P .out) :
    s₀.Leads P t := by
  have _ : Fact (P .siteSlot) := ⟨pSiteSlot⟩
  have _ : Fact (P .sites) := ⟨pSites⟩
  have _ : Fact (P .out) := ⟨pOut⟩
  unfold execSiteEnSlot at e
  injection e with e
  rw [← e]
  refine ite_leads h ?_
  split
  · exact h
  · have m := State.raiseSite_leads h
    exact ite_leads ((State.raiseSite_leads (m _) _).untouched rfl rfl rfl rfl rfl rfl) ((m _).untouched rfl rfl rfl rfl rfl rfl)

theorem State.siteBegins_leads {P : Piece → Prop} [Fact (P .sites)] {s₀ s : State} (h : s₀.Leads P s) (n : SiteId) :
    s₀.Leads P (State.siteBegins s n) := by
  unfold State.siteBegins
  with_reducible repeat' (first | assumption | apply ite_leads | apply State.modSite_leads | split)

theorem execSitePgRise_leads {P : Piece → Prop} {s₀ s : State} (h : s₀.Leads P s) (n : SiteId) {t : State} (e : execSitePgRise n s = .next t)
    (pPins : P .pins) (pSites : P .sites) :
    s₀.Leads P t := by
  have _ : Fact (P .pins) := ⟨pPins⟩
  have _ : Fact (P .sites) := ⟨pSites⟩
  unfold execSitePgRise at e
  cases e
  (try dsimp only)
  with_reducible repeat' (first | assumption | apply ite_leads | apply State.siteBegins_leads | apply State.modPins_leads | apply State.modSite_leads | split)

theorem execSitePgWaitTimeout_leads {P : Piece → Prop} {s₀ s : State} (h : s₀.Leads P s) (n : SiteId) {t : State} (e : execSitePgWaitTimeout n s = .next t)
    (pSites : P .sites) :
    s₀.Leads P t := by
  have _ : Fact (P .sites) := ⟨pSites⟩
  unfold execSitePgWaitTimeout at e
  cases e
  with_reducible repeat' (first | assumption | apply ite_leads | apply State.siteBegins_leads | split)

theorem execSitePgFall_leads {P : Piece → Prop} {s₀ s : State} (h : s₀.Leads P s) (n : SiteId) {t : State} (e : execSitePgFall n s = .next t)
    (pPins : P .pins) (pSites : P .sites) (pRas : P .ras) (pOut : P .out) :
    s₀.Leads P t := by
  have _ : Fact (P .pins) := ⟨pPins⟩
  have _ : Fact (P .sites) := ⟨pSites⟩
  have _ : Fact (P .ras) := ⟨pRas⟩
  have _ : Fact (P .out) := ⟨pOut⟩
  unfold execSitePgFall at e
  cases e
  (try dsimp only)
  with_reducible repeat' (first | assumption | apply ite_leads | apply State.noteSite_leads | apply State.modPins_leads | apply State.modSite_leads | split)

theorem execRefclkLoss_leads {P : Piece → Prop} {s₀ s : State} (h : s₀.Leads P s)  {t : State} (e : execRefclkLoss s = .next t)
    (pArrays : P .arrays) (pPorts : P .ports) (pPnl : P .pnl) (pRas : P .ras) (pTwin : P .twin) (pLines : P .lines) (pOut : P .out) :
    s₀.Leads P t := by
  have _ : Fact (P .arrays) := ⟨pArrays⟩
  have _ : Fact (P .ports) := ⟨pPorts⟩
  have _ : Fact (P .pnl) := ⟨pPnl⟩
  have _ : Fact (P .ras) := ⟨pRas⟩
  have _ : Fact (P .twin) := ⟨pTwin⟩
  have _ : Fact (P .lines) := ⟨pLines⟩
  have _ : Fact (P .out) := ⟨pOut⟩
  unfold execRefclkLoss at e
  cases e
  with_reducible repeat' (first | assumption | apply ite_leads | apply State.packageFault_leads | split)

theorem execPllLockLoss_leads {P : Piece → Prop} {s₀ s : State} (h : s₀.Leads P s) (pll : PllSel) {t : State} (e : execPllLockLoss pll s = .next t)
    (pArrays : P .arrays) (pFields : P .fields) (pHbm : P .hbm) (pMem : P .mem) (pNet : P .net) (pCoh : P .coh) (pSites : P .sites) (pPorts : P .ports) (pPnl : P .pnl) (pRas : P .ras) (pTwin : P .twin) (pLines : P .lines) (pClk : P .clk) (pOut : P .out) :
    s₀.Leads P t := by
  have _ : Fact (P .arrays) := ⟨pArrays⟩
  have _ : Fact (P .fields) := ⟨pFields⟩
  have _ : Fact (P .hbm) := ⟨pHbm⟩
  have _ : Fact (P .mem) := ⟨pMem⟩
  have _ : Fact (P .net) := ⟨pNet⟩
  have _ : Fact (P .coh) := ⟨pCoh⟩
  have _ : Fact (P .sites) := ⟨pSites⟩
  have _ : Fact (P .ports) := ⟨pPorts⟩
  have _ : Fact (P .pnl) := ⟨pPnl⟩
  have _ : Fact (P .ras) := ⟨pRas⟩
  have _ : Fact (P .twin) := ⟨pTwin⟩
  have _ : Fact (P .lines) := ⟨pLines⟩
  have _ : Fact (P .clk) := ⟨pClk⟩
  have _ : Fact (P .out) := ⟨pOut⟩
  unfold execPllLockLoss at e
  cases e
  with_reducible repeat' (first | assumption | apply ite_leads | apply State.packageFault_leads | apply State.twinFails_leads | apply State.killSite_leads | apply State.modClk_leads | refine snd_leads (by assumption) ?_ | split)

theorem execPowerSample_leads {P : Piece → Prop} {s₀ s : State} (h : s₀.Leads P s) (p1 p10 : BitVec 13) (tenMicroseconds belowFor100 floorFor10ms : Bool) {t : State} (e : execPowerSample p1 p10 tenMicroseconds belowFor100 floorFor10ms s = .next t)
    (pArrays : P .arrays) (pPorts : P .ports) (pPnl : P .pnl) (pRas : P .ras) (pTwin : P .twin) (pLines : P .lines) (pPwr : P .pwr) (pOut : P .out) :
    s₀.Leads P t := by
  have _ : Fact (P .arrays) := ⟨pArrays⟩
  have _ : Fact (P .ports) := ⟨pPorts⟩
  have _ : Fact (P .pnl) := ⟨pPnl⟩
  have _ : Fact (P .ras) := ⟨pRas⟩
  have _ : Fact (P .twin) := ⟨pTwin⟩
  have _ : Fact (P .lines) := ⟨pLines⟩
  have _ : Fact (P .pwr) := ⟨pPwr⟩
  have _ : Fact (P .out) := ⟨pOut⟩
  unfold execPowerSample at e
  cases e
  (try dsimp only)
  with_reducible repeat' (first | assumption | apply ite_leads | apply State.packageFault_leads | apply State.modPwr_leads | split)
  all_goals exact fun k => ⟨k.1, k.2.1, k.2.2.1, k.2.2.2.1, by have w := PwrState.nextD_range k p1.toNat p10.toNat tenMicroseconds belowFor100; simp only [BitVec.toNat_ofNat]; omega⟩

theorem execTempSample_leads {P : Piece → Prop} {s₀ s : State} (h : s₀.Leads P s) (sensors : Vector Byte 32) (hotFor1ms : Bool) {t : State} (e : execTempSample sensors hotFor1ms s = .next t)
    (pArrays : P .arrays) (pPorts : P .ports) (pPnl : P .pnl) (pRas : P .ras) (pTwin : P .twin) (pLines : P .lines) (pPwr : P .pwr) (pOut : P .out) :
    s₀.Leads P t := by
  have _ : Fact (P .arrays) := ⟨pArrays⟩
  have _ : Fact (P .ports) := ⟨pPorts⟩
  have _ : Fact (P .pnl) := ⟨pPnl⟩
  have _ : Fact (P .ras) := ⟨pRas⟩
  have _ : Fact (P .twin) := ⟨pTwin⟩
  have _ : Fact (P .lines) := ⟨pLines⟩
  have _ : Fact (P .pwr) := ⟨pPwr⟩
  have _ : Fact (P .out) := ⟨pOut⟩
  unfold execTempSample at e
  cases e
  (try dsimp only)
  with_reducible repeat' (first | assumption | apply ite_leads | apply State.packageFault_leads | apply State.thermal_leads | apply State.modPwr_leads | split)
  all_goals first | assumption | exact fun h => h

theorem State.writeLimit_leads {P : Piece → Prop} [Fact (P .pwr)] {s₀ s : State} (h : s₀.Leads P s) (value : Word) :
    s₀.Leads P (State.writeLimit s value) := by
  unfold State.writeLimit
  with_reducible repeat' (first | assumption | apply ite_leads | apply State.modPwr_leads | split)
  all_goals exact fun k => ⟨by simp only [BitVec.toNat_ofNat]; omega, by simp only [BitVec.toNat_ofNat]; omega, k.2.2⟩

theorem State.writeTherm_leads {P : Piece → Prop} [Fact (P .pwr)] {s₀ s : State} (h : s₀.Leads P s) (value : Word) :
    s₀.Leads P (State.writeTherm s value) := by
  unfold State.writeTherm
  with_reducible repeat' (first | assumption | apply ite_leads | apply State.modPwr_leads | split)
  all_goals exact fun k => ⟨k.1, k.2.1, by simp only [BitVec.toNat_ofNat]; omega, by simp only [BitVec.toNat_ofNat]; omega, k.2.2.2.2⟩

theorem execPwrLimitWrite_leads {P : Piece → Prop} {s₀ s : State} (h : s₀.Leads P s) (value : Word) {t : State} (e : execPwrLimitWrite value s = .next t)
    (pPwr : P .pwr) :
    s₀.Leads P t := by
  have _ : Fact (P .pwr) := ⟨pPwr⟩
  unfold execPwrLimitWrite at e
  cases e
  with_reducible repeat' (first | intro _ | assumption | apply ite_leads | apply State.writeLimit_leads | apply State.byPf0_leads | split)

theorem execPwrThermWrite_leads {P : Piece → Prop} {s₀ s : State} (h : s₀.Leads P s) (value : Word) {t : State} (e : execPwrThermWrite value s = .next t)
    (pPwr : P .pwr) :
    s₀.Leads P t := by
  have _ : Fact (P .pwr) := ⟨pPwr⟩
  unfold execPwrThermWrite at e
  cases e
  with_reducible repeat' (first | intro _ | assumption | apply ite_leads | apply State.writeTherm_leads | apply State.byPf0_leads | split)

end Sys2Proof.Machine
end

