-- ==== Sys2Proof/Laws/LeadsConfigSpace.lean ====
section
/-!
SUPPORT. What the operations of Machine/ConfigSpace.lean keep (State.Leads).
-/

set_option linter.unusedTactic false
set_option linter.unreachableTactic false
set_option linter.unusedVariables false

set_option Elab.async false

namespace Sys2Proof.Machine

theorem State.configRead_leads {P : Piece → Prop} [Fact (P .ports)] [Fact (P .out)] {s₀ s : State} (h : s₀.Leads P s) (p : PortId) (vf : Option VfId) (off : BitVec 12) :
    s₀.Leads P (State.configRead s p vf off) := by
  unfold State.configRead
  (try dsimp only)
  with_reducible repeat' (first | intro _ | assumption | apply ite_leads | apply State.vfConfig_leads | apply State.byConfig_leads | apply State.emit_leads | refine snd_leads (by assumption) ?_ | split)

theorem State.modCfg_leads {P : Piece → Prop} [Fact (P .ports)] {s₀ s : State} (h : s₀.Leads P s) (p : PortId) (f : PfConfig → PfConfig) :
    s₀.Leads P (State.modCfg s p f) := by
  unfold State.modCfg
  with_reducible repeat' (first | assumption | apply ite_leads | apply State.modPort_leads | split)

theorem State.tdiErrors_leads {P : Piece → Prop} [Fact (P .arrays)] [Fact (P .ports)] [Fact (P .pnl)] {s₀ s : State} (h : s₀.Leads P s) (p : PortId) :
    s₀.Leads P (State.tdiErrors s p) := by
  unfold State.tdiErrors
  with_reducible repeat' (first | intro _ | assumption | apply ite_leads | apply State.tdiError_leads | apply foldl_leads | apply foldl_leads_snd | split)

theorem State.writeSriov_leads {P : Piece → Prop} [Fact (P .arrays)] [Fact (P .ports)] [Fact (P .pnl)] {s₀ s : State} (h : s₀.Leads P s) (p : PortId) (w : Word) :
    s₀.Leads P (State.writeSriov s p w) := by
  unfold State.writeSriov
  (try dsimp only)
  with_reducible repeat' (first | assumption | apply ite_leads | apply State.tdiErrors_leads | apply State.modCfg_leads | apply State.clearVfEnable_leads | apply State.modPort_leads | split)

theorem State.writeVfBar_leads {P : Piece → Prop} [Fact (P .arrays)] [Fact (P .ports)] [Fact (P .pnl)] {s₀ s : State} (h : s₀.Leads P s) (p : PortId) (f : PfConfig → PfConfig) :
    s₀.Leads P (State.writeVfBar s p f) := by
  unfold State.writeVfBar
  (try dsimp only)
  with_reducible repeat' (first | assumption | apply ite_leads | apply State.tdiErrors_leads | apply State.modCfg_leads | split)

theorem State.writePageSize_leads {P : Piece → Prop} [Fact (P .ports)] {s₀ s : State} (h : s₀.Leads P s) (p : PortId) (w : Word) :
    s₀.Leads P (State.writePageSize s p w) := by
  unfold State.writePageSize
  with_reducible repeat' (first | assumption | apply ite_leads | apply State.modCfg_leads | split)

theorem State.pfConfigWrite_leads {P : Piece → Prop} [Fact (P .arrays)] [Fact (P .ports)] [Fact (P .pnl)] {s₀ s : State} (h : s₀.Leads P s) (p : PortId) (o : Nat) (w ones : Word) :
    s₀.Leads P (State.pfConfigWrite s p o w ones) := by
  unfold State.pfConfigWrite
  with_reducible repeat' (first | assumption | apply ite_leads | apply State.writePageSize_leads | apply State.writeVfBar_leads | apply State.writeSriov_leads | apply State.modCfg_leads | apply State.writeNumVfs_leads | apply State.flrPf0_leads | apply State.modPort_leads | split)

theorem State.writeMsixControl_leads {P : Piece → Prop} [Fact (P .arrays)] [Fact (P .ports)] [Fact (P .pnl)] {s₀ s : State} (h : s₀.Leads P s) (p : PortId) (v : VfId) (w : Word) :
    s₀.Leads P (State.writeMsixControl s p v w) := by
  unfold State.writeMsixControl
  (try dsimp only)
  with_reducible repeat' (first | intro _ | assumption | apply ite_leads | apply State.tdiError_leads | apply State.modVf_leads | apply foldl_leads | apply foldl_leads_snd | split)

theorem State.vfConfigWrite_leads {P : Piece → Prop} [Fact (P .arrays)] [Fact (P .ports)] [Fact (P .pnl)] [Fact (P .out)] {s₀ s : State} (h : s₀.Leads P s) (p : PortId) (v : VfId) (o : Nat) (w ones : Word) :
    s₀.Leads P (State.vfConfigWrite s p v o w ones) := by
  unfold State.vfConfigWrite
  with_reducible repeat' (first | assumption | apply ite_leads | apply State.writeMsixControl_leads | apply State.setBme_leads | apply State.sleepVf_leads | apply State.clearBme_leads | apply State.flrVf_leads | apply State.modVf_leads | split)

theorem State.configWrite_leads {P : Piece → Prop} [Fact (P .arrays)] [Fact (P .ports)] [Fact (P .pnl)] [Fact (P .out)] {s₀ s : State} (h : s₀.Leads P s) (p : PortId) (vf : Option VfId) (off : BitVec 12) (size : Nat) (value : Word) :
    s₀.Leads P (State.configWrite s p vf off size value) := by
  unfold State.configWrite
  (try dsimp only)
  with_reducible repeat' (first | intro _ | assumption | apply ite_leads | apply State.vfConfigWrite_leads | apply State.pfConfigWrite_leads | apply State.vfConfig_leads | apply State.byConfig_leads | refine snd_leads (by assumption) ?_ | split)

end Sys2Proof.Machine
end

