-- ==== Sys2Proof/Laws/LeadsRegAccess.lean ====
section
/-!
SUPPORT. What the operations of Machine/RegAccess.lean keep (State.Leads).
-/

set_option linter.unusedTactic false
set_option linter.unreachableTactic false
set_option linter.unusedVariables false

set_option Elab.async false

namespace Sys2Proof.Machine

theorem State.netClear_leads {P : Piece → Prop} [Fact (P .net)] {s₀ s : State} (h : s₀.Leads P s) (o : Nat) :
    s₀.Leads P (State.netClear s o) := by
  unfold State.netClear
  with_reducible repeat' (first | assumption | apply ite_leads | apply State.setCount_leads | apply State.modNet_leads | refine snd_leads (by assumption) ?_ | split)

theorem State.arrayClear_leads {P : Piece → Prop} [Fact (P .arrays)] {s₀ s : State} (h : s₀.Leads P s) (a : ArrayId) (o : Nat) :
    s₀.Leads P (State.arrayClear s a o) := by
  unfold State.arrayClear
  with_reducible repeat' (first | assumption | apply ite_leads | apply State.modSeq_leads | apply State.modCube_leads | split)

theorem State.stackClear_leads {P : Piece → Prop} [Fact (P .hbm)] {s₀ s : State} (h : s₀.Leads P s) (k : StackId) (o : Nat) :
    s₀.Leads P (State.stackClear s k o) := by
  unfold State.stackClear
  with_reducible repeat' (first | assumption | apply ite_leads | apply State.modStack_leads | split)

theorem State.siteClear_leads {P : Piece → Prop} [Fact (P .sites)] {s₀ s : State} (h : s₀.Leads P s) (n : SiteId) (o : Nat) :
    s₀.Leads P (State.siteClear s n o) := by
  unfold State.siteClear
  with_reducible repeat' (first | assumption | apply ite_leads | apply State.modSite_leads | split)

theorem State.fieldClear_leads {P : Piece → Prop} [Fact (P .arrays)] [Fact (P .fields)] [Fact (P .hbm)] [Fact (P .sites)] {s₀ s : State} (h : s₀.Leads P s) (f : FieldId) (o : Nat) :
    s₀.Leads P (State.fieldClear s f o) := by
  unfold State.fieldClear
  (try dsimp only)
  with_reducible repeat' (first | assumption | apply ite_leads | apply State.siteClear_leads | apply State.stackClear_leads | apply State.arrayClear_leads | apply State.modFt_leads | split)

theorem State.pf0Clear_leads {P : Piece → Prop} [Fact (P .arrays)] [Fact (P .fields)] [Fact (P .hbm)] [Fact (P .net)] [Fact (P .coh)] [Fact (P .sites)] [Fact (P .pnl)] [Fact (P .ras)] [Fact (P .twin)] [Fact (P .pwr)] [Fact (P .draws)] {s₀ s : State} (h : s₀.Leads P s) (off : Nat) :
    s₀.Leads P (State.pf0Clear s off) := by
  unfold State.pf0Clear
  (try dsimp only)
  with_reducible repeat' (first | assumption | apply ite_leads | apply State.fieldClear_leads | apply State.netClear_leads | apply State.drawn_leads | apply State.modPwr_leads | apply State.modTwinPort_leads | apply State.modRas_leads | apply State.modPnl_leads | apply State.modSlice_leads | refine snd_leads (by assumption) ?_ | split)
  all_goals first | assumption | exact fun h => h

theorem State.vfClear_leads {P : Piece → Prop} [Fact (P .ports)] {s₀ s : State} (h : s₀.Leads P s) (p : PortId) (v : VfId) (o : Nat) :
    s₀.Leads P (State.vfClear s p v o) := by
  unfold State.vfClear
  with_reducible repeat' (first | assumption | apply ite_leads | apply State.modQueue_leads | apply State.modVf_leads | split)

theorem State.regClear_leads {P : Piece → Prop} [Fact (P .arrays)] [Fact (P .fields)] [Fact (P .hbm)] [Fact (P .net)] [Fact (P .coh)] [Fact (P .sites)] [Fact (P .ports)] [Fact (P .pnl)] [Fact (P .ras)] [Fact (P .twin)] [Fact (P .pwr)] [Fact (P .draws)] {s₀ s : State} (h : s₀.Leads P s) (r : RegAddr) :
    s₀.Leads P (State.regClear s r) := by
  unfold State.regClear
  with_reducible repeat' (first | assumption | apply ite_leads | apply State.vfClear_leads | apply State.pf0Clear_leads | refine snd_leads (by assumption) ?_ | split)

theorem State.latch_leads {P : Piece → Prop} [Fact (P .latched)] {s₀ s : State} (h : s₀.Leads P s) (r : RegAddr) (w : Word) :
    s₀.Leads P (State.latch s r w) := by
  unfold State.latch
  with_reducible repeat' (first | assumption | apply ite_leads | split)
  all_goals exact h.untouched rfl rfl rfl rfl rfl rfl

theorem State.unlatch_leads {P : Piece → Prop} [Fact (P .latched)] {s₀ s : State} (h : s₀.Leads P s) (r : RegAddr) :
    s₀.Leads P (State.unlatch s r) := by
  unfold State.unlatch
  with_reducible repeat' (first | assumption | apply ite_leads | split)
  all_goals exact h.untouched rfl rfl rfl rfl rfl rfl

theorem State.regRead_leads {P : Piece → Prop} [Fact (P .arrays)] [Fact (P .fields)] [Fact (P .hbm)] [Fact (P .net)] [Fact (P .coh)] [Fact (P .sites)] [Fact (P .ports)] [Fact (P .pnl)] [Fact (P .ras)] [Fact (P .twin)] [Fact (P .pwr)] [Fact (P .latched)] [Fact (P .draws)] {s₀ s : State} (h : s₀.Leads P s) (r : RegAddr) :
    s₀.Leads P (State.regRead s r).2 := by
  unfold State.regRead
  with_reducible repeat' (first | assumption | apply ite_leads | apply State.unlatch_leads | apply State.latch_leads | apply State.regClear_leads | refine snd_leads (by assumption) ?_ | split)

theorem State.noteAccess_leads {P : Piece → Prop} [Fact (P .ras)] [Fact (P .out)] {s₀ s : State} (h : s₀.Leads P s) (code : Byte) (off : Nat) :
    s₀.Leads P (State.noteAccess s code off) := by
  unfold State.noteAccess
  with_reducible repeat' (first | assumption | apply ite_leads | apply State.logFault_leads | split)

theorem State.busRead_leads {P : Piece → Prop} [Fact (P .arrays)] [Fact (P .fields)] [Fact (P .hbm)] [Fact (P .net)] [Fact (P .coh)] [Fact (P .sites)] [Fact (P .ports)] [Fact (P .pnl)] [Fact (P .ras)] [Fact (P .twin)] [Fact (P .pwr)] [Fact (P .latched)] [Fact (P .draws)] [Fact (P .out)] {s₀ s : State} (h : s₀.Leads P s) (r : RegAddr) (size : Nat) :
    s₀.Leads P (State.busRead s r size).2 := by
  unfold State.busRead
  with_reducible repeat' (first | assumption | apply ite_leads | apply State.noteAccess_leads | apply State.regRead_leads | split)

theorem State.hpcWrite_leads {P : Piece → Prop} [Fact (P .ports)] {s₀ s : State} (h : s₀.Leads P s) (o : Nat) (value : Word) :
    s₀.Leads P (State.hpcWrite s o value) := by
  unfold State.hpcWrite
  (try dsimp only)
  with_reducible repeat' (first | assumption | apply ite_leads | apply State.modPort_leads | split)

theorem State.imgWrite_leads {P : Piece → Prop} [Fact (P .fuse)] [Fact (P .arrays)] [Fact (P .sites)] [Fact (P .ports)] [Fact (P .img)] [Fact (P .pnl)] [Fact (P .ras)] [Fact (P .twin)] [Fact (P .out)] {s₀ s : State} (h : s₀.Leads P s) (o : Nat) (value : Word) :
    s₀.Leads P (State.imgWrite s o value) := by
  unfold State.imgWrite
  with_reducible repeat' (first | assumption | apply ite_leads | apply State.imgControl_leads | apply State.modImg_leads | split)

theorem State.cmdWrite_leads {P : Piece → Prop} [Fact (P .fuse)] [Fact (P .arrays)] [Fact (P .hbm)] [Fact (P .mem)] [Fact (P .ports)] [Fact (P .pnl)] [Fact (P .ras)] [Fact (P .twin)] [Fact (P .draws)] [Fact (P .out)] {s₀ s : State} (h : s₀.Leads P s) (value : Word) :
    s₀.Leads P (State.cmdWrite s value) := by
  unfold State.cmdWrite
  (try dsimp only)
  with_reducible repeat' (first | assumption | apply ite_leads | apply State.commonsRelease_leads | apply State.commonsDefine_leads | apply State.bundleLoad_leads | apply State.panelWrite_leads | apply State.undefinedOp_leads | apply State.writeCmdOp_leads | apply State.lifeCycleRequest_leads | apply State.debugEnable_leads | apply State.panelDestroy_leads | apply State.panelAuthSet_leads | apply State.opkeyRotate_leads | apply State.drawn_leads | refine snd_leads (by assumption) ?_ | split)

theorem State.dbgWrite_leads {P : Piece → Prop} [Fact (P .arrays)] [Fact (P .fields)] [Fact (P .hbm)] [Fact (P .mem)] [Fact (P .pnl)] [Fact (P .ras)] [Fact (P .twin)] [Fact (P .draws)] {s₀ s : State} (h : s₀.Leads P s) (value : Word) :
    s₀.Leads P (State.dbgWrite s value) := by
  unfold State.dbgWrite
  (try dsimp only)
  with_reducible repeat' (first | assumption | apply ite_leads | apply State.debugWrite_leads | apply State.debugRead_leads | split)

theorem State.traceHeadWrite_leads {P : Piece → Prop} [Fact (P .pnl)] [Fact (P .ras)] [Fact (P .out)] {s₀ s : State} (h : s₀.Leads P s) (value : Word) :
    s₀.Leads P (State.traceHeadWrite s value) := by
  unfold State.traceHeadWrite
  with_reducible repeat' (first | assumption | apply ite_leads | apply State.note_leads | apply State.modPnl_leads | split)

theorem State.pnlWrite_leads {P : Piece → Prop} [Fact (P .fuse)] [Fact (P .arrays)] [Fact (P .fields)] [Fact (P .hbm)] [Fact (P .mem)] [Fact (P .ports)] [Fact (P .pnl)] [Fact (P .ras)] [Fact (P .twin)] [Fact (P .draws)] [Fact (P .out)] {s₀ s : State} (h : s₀.Leads P s) (o : Nat) (value : Word) :
    s₀.Leads P (State.pnlWrite s o value) := by
  unfold State.pnlWrite
  with_reducible repeat' (first | assumption | apply ite_leads | apply State.traceHeadWrite_leads | apply State.dbgWrite_leads | apply State.cmdWrite_leads | apply State.writeTrace_leads | apply State.modPnl_leads | split)

theorem State.primerWriteControl_leads {P : Piece → Prop} [Fact (P .ras)] [Fact (P .out)] {s₀ s : State} (h : s₀.Leads P s) (n : Fin 8) (value : Word) :
    s₀.Leads P (State.primerWriteControl s n value) := by
  unfold State.primerWriteControl
  (try dsimp only)
  with_reducible repeat' (first | assumption | apply ite_leads | apply State.primerAbort_leads | apply State.primerGo_leads | apply State.modPrimer_leads | split)

theorem State.rasWrite_leads {P : Piece → Prop} [Fact (P .ras)] [Fact (P .out)] {s₀ s : State} (h : s₀.Leads P s) (o : Nat) (value : Word) :
    s₀.Leads P (State.rasWrite s o value) := by
  unfold State.rasWrite
  with_reducible repeat' (first | assumption | apply ite_leads | apply State.primerWriteControl_leads | apply State.writeFlogStatus_leads | apply State.flogPop_leads | apply State.mlogPop_leads | apply State.modRas_leads | split)
  all_goals first | assumption | exact fun h => h

theorem State.netWrite_leads {P : Piece → Prop} [Fact (P .arrays)] [Fact (P .fields)] [Fact (P .hbm)] [Fact (P .mem)] [Fact (P .net)] [Fact (P .coh)] [Fact (P .sites)] [Fact (P .ports)] [Fact (P .pnl)] [Fact (P .ras)] [Fact (P .twin)] [Fact (P .out)] {s₀ s : State} (h : s₀.Leads P s) (o : Nat) (value : Word) :
    s₀.Leads P (State.netWrite s o value) := by
  unfold State.netWrite
  with_reducible repeat' (first | assumption | apply ite_leads | apply State.netIsolateWrite_leads | apply State.modNet_leads | split)

theorem State.pwrWrite_leads {P : Piece → Prop} [Fact (P .pwr)] {s₀ s : State} (h : s₀.Leads P s) (o : Nat) (value : Word) :
    s₀.Leads P (State.pwrWrite s o value) := by
  unfold State.pwrWrite
  with_reducible repeat' (first | assumption | apply ite_leads | apply State.writeTherm_leads | apply State.writeLimit_leads | apply State.modPwr_leads | split)
  all_goals first | assumption | exact fun h => h

theorem State.seqControl_leads {P : Piece → Prop} [Fact (P .arrays)] [Fact (P .pnl)] [Fact (P .out)] {s₀ s : State} (h : s₀.Leads P s) (a : ArrayId) (value : Word) :
    s₀.Leads P (State.seqControl s a value) := by
  unfold State.seqControl
  with_reducible repeat' (first | assumption | apply ite_leads | apply State.seqStepOne_leads | apply State.seqResume_leads | apply State.debugHalt_leads | split)

theorem State.arrayWrite_leads {P : Piece → Prop} [Fact (P .arrays)] [Fact (P .pnl)] [Fact (P .out)] {s₀ s : State} (h : s₀.Leads P s) (a : ArrayId) (o : Nat) (value : Word) :
    s₀.Leads P (State.arrayWrite s a o value) := by
  unfold State.arrayWrite
  with_reducible repeat' (first | assumption | apply ite_leads | apply State.seqControl_leads | apply State.modCube_leads | split)

theorem State.ftWrite_leads {P : Piece → Prop} [Fact (P .fields)] [Fact (P .ras)] [Fact (P .out)] {s₀ s : State} (h : s₀.Leads P s) (f : FieldId) (o : Nat) (value : Word) :
    s₀.Leads P (State.ftWrite s f o value) := by
  unfold State.ftWrite
  with_reducible repeat' (first | assumption | apply ite_leads | apply State.bankRetire_leads | apply State.modFt_leads | split)

theorem State.stackWrite_leads {P : Piece → Prop} [Fact (P .hbm)] [Fact (P .net)] [Fact (P .ports)] [Fact (P .ras)] [Fact (P .out)] {s₀ s : State} (h : s₀.Leads P s) (k : StackId) (o : Nat) (value : Word) :
    s₀.Leads P (State.stackWrite s k o value) := by
  unfold State.stackWrite
  with_reducible repeat' (first | assumption | apply ite_leads | apply State.pageRetire_leads | apply State.hbmTestWrite_leads | apply State.hbmRetireWrite_leads | apply State.hbmRepairWrite_leads | apply State.modStack_leads | split)

theorem State.fieldWrite_leads {P : Piece → Prop} [Fact (P .arrays)] [Fact (P .fields)] [Fact (P .hbm)] [Fact (P .net)] [Fact (P .ports)] [Fact (P .pnl)] [Fact (P .ras)] [Fact (P .out)] {s₀ s : State} (h : s₀.Leads P s) (f : FieldId) (o : Nat) (value : Word) :
    s₀.Leads P (State.fieldWrite s f o value) := by
  unfold State.fieldWrite
  (try dsimp only)
  with_reducible repeat' (first | assumption | apply ite_leads | apply State.stackWrite_leads | apply State.ftWrite_leads | apply State.arrayWrite_leads | split)

theorem State.lcsWrite_leads {P : Piece → Prop} [Fact (P .fuse)] [Fact (P .arrays)] [Fact (P .ports)] [Fact (P .pnl)] [Fact (P .lcs)] [Fact (P .ras)] [Fact (P .draws)] [Fact (P .out)] {s₀ s : State} (h : s₀.Leads P s) (o : Nat) (value : Word) :
    s₀.Leads P (State.lcsWrite s o value) := by
  unfold State.lcsWrite
  with_reducible repeat' (first | assumption | apply ite_leads | apply State.lcsControl_leads | apply State.drawn_leads | split)

theorem State.pf0Write_leads {P : Piece → Prop} [Fact (P .fuse)] [Fact (P .arrays)] [Fact (P .fields)] [Fact (P .hbm)] [Fact (P .mem)] [Fact (P .net)] [Fact (P .coh)] [Fact (P .sites)] [Fact (P .ports)] [Fact (P .img)] [Fact (P .pnl)] [Fact (P .lcs)] [Fact (P .ras)] [Fact (P .twin)] [Fact (P .lines)] [Fact (P .pwr)] [Fact (P .draws)] [Fact (P .out)] {s₀ s : State} (h : s₀.Leads P s) (off : Nat) (value : Word) :
    s₀.Leads P (State.pf0Write s off value) := by
  unfold State.pf0Write
  (try dsimp only)
  with_reducible repeat' (first | assumption | apply ite_leads | apply State.lcsWrite_leads | apply State.fieldWrite_leads | apply State.pwrWrite_leads | apply State.netWrite_leads | apply State.rasWrite_leads | apply State.pnlWrite_leads | apply State.imgWrite_leads | apply State.hpcWrite_leads | apply State.twinControl_leads | refine snd_leads (by assumption) ?_ | split)

theorem State.queueWrite_leads {P : Piece → Prop} [Fact (P .arrays)] [Fact (P .ports)] [Fact (P .pnl)] [Fact (P .twin)] [Fact (P .out)] {s₀ s : State} (h : s₀.Leads P s) (p : PortId) (v : VfId) (q : QueueId) (o : Nat) (value : Word) :
    s₀.Leads P (State.queueWrite s p v q o value) := by
  unfold State.queueWrite
  with_reducible repeat' (first | assumption | apply ite_leads | apply State.queueDisable_leads | apply State.queueEnable_leads | apply State.modQueue_leads | split)

theorem State.vfWrite_leads {P : Piece → Prop} [Fact (P .arrays)] [Fact (P .fields)] [Fact (P .hbm)] [Fact (P .mem)] [Fact (P .net)] [Fact (P .coh)] [Fact (P .ports)] [Fact (P .pnl)] [Fact (P .ras)] [Fact (P .twin)] [Fact (P .lines)] [Fact (P .draws)] [Fact (P .out)] {s₀ s : State} (h : s₀.Leads P s) (p : PortId) (v : VfId) (o : Nat) (value : Word) :
    s₀.Leads P (State.vfWrite s p v o value) := by
  unfold State.vfWrite
  (try dsimp only)
  with_reducible repeat' (first | assumption | apply ite_leads | apply State.queueWrite_leads | apply State.flushControl_leads | apply State.invControl_leads | apply State.faultResume_leads | apply State.fringConfig_leads | apply State.fringHead_leads | apply State.cqHeadWrite_leads | apply State.sqTailWrite_leads | apply State.modVf_leads | split)

theorem State.mirrorWrite_leads {P : Piece → Prop} [Fact (P .fields)] [Fact (P .hbm)] [Fact (P .mem)] [Fact (P .net)] [Fact (P .coh)] [Fact (P .ports)] [Fact (P .pnl)] [Fact (P .ras)] [Fact (P .twin)] [Fact (P .out)] {s₀ s : State} (h : s₀.Leads P s) (p : PanelId) (o : Nat) (value : Word) :
    s₀.Leads P (State.mirrorWrite s p o value) := by
  unfold State.mirrorWrite
  with_reducible repeat' (first | assumption | apply ite_leads | apply State.flushControl_leads | apply State.invControl_leads | split)

theorem State.wideWrite_leads {P : Piece → Prop} [Fact (P .ports)] [Fact (P .img)] [Fact (P .pnl)] [Fact (P .lcs)] [Fact (P .ras)] {s₀ s : State} (h : s₀.Leads P s) (r : RegAddr) (w : DWord) :
    s₀.Leads P (State.wideWrite s r w) := by
  unfold State.wideWrite
  (try dsimp only)
  with_reducible repeat' (first | assumption | apply ite_leads | apply State.writeRoot_leads | apply State.modPrimer_leads | apply State.modLcs_leads | apply State.modPanel_leads | apply State.modPnl_leads | apply State.modImg_leads | apply State.modQueue_leads | apply State.modVf_leads | refine snd_leads (by assumption) ?_ | split)

theorem State.regWrite_leads {P : Piece → Prop} [Fact (P .fuse)] [Fact (P .arrays)] [Fact (P .fields)] [Fact (P .hbm)] [Fact (P .mem)] [Fact (P .net)] [Fact (P .coh)] [Fact (P .sites)] [Fact (P .ports)] [Fact (P .img)] [Fact (P .pnl)] [Fact (P .lcs)] [Fact (P .ras)] [Fact (P .twin)] [Fact (P .lines)] [Fact (P .pwr)] [Fact (P .heldLow)] [Fact (P .draws)] [Fact (P .out)] {s₀ s : State} (h : s₀.Leads P s) (r : RegAddr) (value : Word) :
    s₀.Leads P (State.regWrite s r value) := by
  unfold State.regWrite
  with_reducible repeat' (first | assumption | apply ite_leads | apply State.wideWrite_leads | apply State.mirrorWrite_leads | apply State.vfWrite_leads | apply State.pf0Write_leads | apply State.holdLow_leads | refine snd_leads (by assumption) ?_ | split)

theorem State.busWrite_leads {P : Piece → Prop} [Fact (P .fuse)] [Fact (P .arrays)] [Fact (P .fields)] [Fact (P .hbm)] [Fact (P .mem)] [Fact (P .net)] [Fact (P .coh)] [Fact (P .sites)] [Fact (P .ports)] [Fact (P .img)] [Fact (P .pnl)] [Fact (P .lcs)] [Fact (P .ras)] [Fact (P .twin)] [Fact (P .lines)] [Fact (P .pwr)] [Fact (P .heldLow)] [Fact (P .draws)] [Fact (P .out)] {s₀ s : State} (h : s₀.Leads P s) (r : RegAddr) (size : Nat) (value : Word) :
    s₀.Leads P (State.busWrite s r size value) := by
  unfold State.busWrite
  with_reducible repeat' (first | assumption | apply ite_leads | apply State.regWrite_leads | apply State.noteAccess_leads | split)

theorem State.readBack_leads {P : Piece → Prop} [Fact (P .arrays)] [Fact (P .fields)] [Fact (P .hbm)] [Fact (P .net)] [Fact (P .coh)] [Fact (P .sites)] [Fact (P .ports)] [Fact (P .pnl)] [Fact (P .ras)] [Fact (P .twin)] [Fact (P .pwr)] [Fact (P .latched)] [Fact (P .draws)] [Fact (P .out)] {s₀ s : State} (h : s₀.Leads P s) (r : RegAddr) (size : Nat) :
    s₀.Leads P (State.readBack s r size) := by
  unfold State.readBack
  (try dsimp only)
  with_reducible repeat' (first | assumption | apply ite_leads | apply State.busRead_leads | apply State.emit_leads | split)

theorem State.byMemory_leads {P : Piece → Prop} [Fact (P .ports)] [Fact (P .out)] {s₀ s : State} (h : s₀.Leads P s) (port : PortId) (posted : Bool) (f : State → State) (kf : ∀ x0, s₀.Leads P x0 → s₀.Leads P (f x0)) :
    s₀.Leads P (State.byMemory s port posted f) := by
  unfold State.byMemory
  with_reducible repeat' (first | intro _ | assumption | apply ite_leads | apply State.refusedRequest_leads | apply kf | split)

theorem State.portRead_leads {P : Piece → Prop} [Fact (P .arrays)] [Fact (P .fields)] [Fact (P .hbm)] [Fact (P .net)] [Fact (P .coh)] [Fact (P .sites)] [Fact (P .ports)] [Fact (P .pnl)] [Fact (P .ras)] [Fact (P .twin)] [Fact (P .pwr)] [Fact (P .latched)] [Fact (P .draws)] [Fact (P .out)] {s₀ s : State} (h : s₀.Leads P s) (port : PortId) (r : RegAddr) (size : Nat) (tee : Bool) :
    s₀.Leads P (State.portRead s port r size tee) := by
  unfold State.portRead
  with_reducible repeat' (first | intro _ | assumption | apply ite_leads | apply State.byMemory_leads | apply State.readBack_leads | apply State.unsupported_leads | apply State.noteHost_leads | refine snd_leads (by assumption) ?_ | split)

theorem execLowWordReadLatch_leads {P : Piece → Prop} {s₀ s : State} (h : s₀.Leads P s) (req : HostReq) {t : State} (e : execLowWordReadLatch req s = .next t)
    (pArrays : P .arrays) (pFields : P .fields) (pHbm : P .hbm) (pNet : P .net) (pCoh : P .coh) (pSites : P .sites) (pPorts : P .ports) (pPnl : P .pnl) (pRas : P .ras) (pTwin : P .twin) (pPwr : P .pwr) (pLatched : P .latched) (pDraws : P .draws) (pOut : P .out) :
    s₀.Leads P t := by
  have _ : Fact (P .arrays) := ⟨pArrays⟩
  have _ : Fact (P .fields) := ⟨pFields⟩
  have _ : Fact (P .hbm) := ⟨pHbm⟩
  have _ : Fact (P .net) := ⟨pNet⟩
  have _ : Fact (P .coh) := ⟨pCoh⟩
  have _ : Fact (P .sites) := ⟨pSites⟩
  have _ : Fact (P .ports) := ⟨pPorts⟩
  have _ : Fact (P .pnl) := ⟨pPnl⟩
  have _ : Fact (P .ras) := ⟨pRas⟩
  have _ : Fact (P .twin) := ⟨pTwin⟩
  have _ : Fact (P .pwr) := ⟨pPwr⟩
  have _ : Fact (P .latched) := ⟨pLatched⟩
  have _ : Fact (P .draws) := ⟨pDraws⟩
  have _ : Fact (P .out) := ⟨pOut⟩
  unfold execLowWordReadLatch at e
  cases e
  with_reducible repeat' (first | assumption | apply ite_leads | apply State.portRead_leads | apply State.configRead_leads | refine snd_leads (by assumption) ?_ | split)

theorem State.portWrite_leads {P : Piece → Prop} [Fact (P .fuse)] [Fact (P .arrays)] [Fact (P .fields)] [Fact (P .hbm)] [Fact (P .mem)] [Fact (P .net)] [Fact (P .coh)] [Fact (P .sites)] [Fact (P .ports)] [Fact (P .img)] [Fact (P .pnl)] [Fact (P .lcs)] [Fact (P .ras)] [Fact (P .twin)] [Fact (P .lines)] [Fact (P .pwr)] [Fact (P .heldLow)] [Fact (P .draws)] [Fact (P .out)] {s₀ s : State} (h : s₀.Leads P s) (port : PortId) (r : RegAddr) (size : Nat) (tee : Bool) (value : Word) :
    s₀.Leads P (State.portWrite s port r size tee value) := by
  unfold State.portWrite
  with_reducible repeat' (first | intro _ | assumption | apply ite_leads | apply State.byMemory_leads | apply State.busWrite_leads | apply State.aer_leads | apply State.noteHost_leads | refine snd_leads (by assumption) ?_ | split)

theorem execRegisterWrite_leads {P : Piece → Prop} {s₀ s : State} (h : s₀.Leads P s) (port : PortId) (place : HostAt) (size : Nat) (value : Word) {t : State} (e : execRegisterWrite port place size value s = .next t)
    (pFuse : P .fuse) (pArrays : P .arrays) (pFields : P .fields) (pHbm : P .hbm) (pMem : P .mem) (pNet : P .net) (pCoh : P .coh) (pSites : P .sites) (pPorts : P .ports) (pImg : P .img) (pPnl : P .pnl) (pLcs : P .lcs) (pRas : P .ras) (pTwin : P .twin) (pLines : P .lines) (pPwr : P .pwr) (pHeldLow : P .heldLow) (pDraws : P .draws) (pOut : P .out) :
    s₀.Leads P t := by
  have _ : Fact (P .fuse) := ⟨pFuse⟩
  have _ : Fact (P .arrays) := ⟨pArrays⟩
  have _ : Fact (P .fields) := ⟨pFields⟩
  have _ : Fact (P .hbm) := ⟨pHbm⟩
  have _ : Fact (P .mem) := ⟨pMem⟩
  have _ : Fact (P .net) := ⟨pNet⟩
  have _ : Fact (P .coh) := ⟨pCoh⟩
  have _ : Fact (P .sites) := ⟨pSites⟩
  have _ : Fact (P .ports) := ⟨pPorts⟩
  have _ : Fact (P .img) := ⟨pImg⟩
  have _ : Fact (P .pnl) := ⟨pPnl⟩
  have _ : Fact (P .lcs) := ⟨pLcs⟩
  have _ : Fact (P .ras) := ⟨pRas⟩
  have _ : Fact (P .twin) := ⟨pTwin⟩
  have _ : Fact (P .lines) := ⟨pLines⟩
  have _ : Fact (P .pwr) := ⟨pPwr⟩
  have _ : Fact (P .heldLow) := ⟨pHeldLow⟩
  have _ : Fact (P .draws) := ⟨pDraws⟩
  have _ : Fact (P .out) := ⟨pOut⟩
  unfold execRegisterWrite at e
  cases e
  with_reducible repeat' (first | assumption | apply ite_leads | apply State.portWrite_leads | apply State.configWrite_leads | refine snd_leads (by assumption) ?_ | split)

theorem execReservedExtentAccess_leads {P : Piece → Prop} {s₀ s : State} (h : s₀.Leads P s) (port : PortId) (off : BitVec 28) (kind : SizedAccess) {t : State} (e : execReservedExtentAccess port off kind s = .next t)
    (pFuse : P .fuse) (pArrays : P .arrays) (pFields : P .fields) (pHbm : P .hbm) (pMem : P .mem) (pNet : P .net) (pCoh : P .coh) (pSites : P .sites) (pPorts : P .ports) (pImg : P .img) (pPnl : P .pnl) (pLcs : P .lcs) (pRas : P .ras) (pTwin : P .twin) (pLines : P .lines) (pPwr : P .pwr) (pHeldLow : P .heldLow) (pLatched : P .latched) (pDraws : P .draws) (pOut : P .out) :
    s₀.Leads P t := by
  have _ : Fact (P .fuse) := ⟨pFuse⟩
  have _ : Fact (P .arrays) := ⟨pArrays⟩
  have _ : Fact (P .fields) := ⟨pFields⟩
  have _ : Fact (P .hbm) := ⟨pHbm⟩
  have _ : Fact (P .mem) := ⟨pMem⟩
  have _ : Fact (P .net) := ⟨pNet⟩
  have _ : Fact (P .coh) := ⟨pCoh⟩
  have _ : Fact (P .sites) := ⟨pSites⟩
  have _ : Fact (P .ports) := ⟨pPorts⟩
  have _ : Fact (P .img) := ⟨pImg⟩
  have _ : Fact (P .pnl) := ⟨pPnl⟩
  have _ : Fact (P .lcs) := ⟨pLcs⟩
  have _ : Fact (P .ras) := ⟨pRas⟩
  have _ : Fact (P .twin) := ⟨pTwin⟩
  have _ : Fact (P .lines) := ⟨pLines⟩
  have _ : Fact (P .pwr) := ⟨pPwr⟩
  have _ : Fact (P .heldLow) := ⟨pHeldLow⟩
  have _ : Fact (P .latched) := ⟨pLatched⟩
  have _ : Fact (P .draws) := ⟨pDraws⟩
  have _ : Fact (P .out) := ⟨pOut⟩
  unfold execReservedExtentAccess at e
  cases e
  with_reducible repeat' (first | assumption | apply ite_leads | apply State.portWrite_leads | apply State.portRead_leads | split)

theorem execSpace5Access_leads {P : Piece → Prop} {s₀ s : State} (h : s₀.Leads P s) (pa : BitVec 52) (write : Bool) (size : Nat) (value : Word) {t : State} (e : execSpace5Access pa write size value s = .next t)
    (pFuse : P .fuse) (pArrays : P .arrays) (pFields : P .fields) (pHbm : P .hbm) (pMem : P .mem) (pNet : P .net) (pCoh : P .coh) (pSites : P .sites) (pPorts : P .ports) (pImg : P .img) (pPnl : P .pnl) (pLcs : P .lcs) (pRas : P .ras) (pTwin : P .twin) (pLines : P .lines) (pPwr : P .pwr) (pHeldLow : P .heldLow) (pLatched : P .latched) (pDraws : P .draws) (pOut : P .out) :
    s₀.Leads P t := by
  have _ : Fact (P .fuse) := ⟨pFuse⟩
  have _ : Fact (P .arrays) := ⟨pArrays⟩
  have _ : Fact (P .fields) := ⟨pFields⟩
  have _ : Fact (P .hbm) := ⟨pHbm⟩
  have _ : Fact (P .mem) := ⟨pMem⟩
  have _ : Fact (P .net) := ⟨pNet⟩
  have _ : Fact (P .coh) := ⟨pCoh⟩
  have _ : Fact (P .sites) := ⟨pSites⟩
  have _ : Fact (P .ports) := ⟨pPorts⟩
  have _ : Fact (P .img) := ⟨pImg⟩
  have _ : Fact (P .pnl) := ⟨pPnl⟩
  have _ : Fact (P .lcs) := ⟨pLcs⟩
  have _ : Fact (P .ras) := ⟨pRas⟩
  have _ : Fact (P .twin) := ⟨pTwin⟩
  have _ : Fact (P .lines) := ⟨pLines⟩
  have _ : Fact (P .pwr) := ⟨pPwr⟩
  have _ : Fact (P .heldLow) := ⟨pHeldLow⟩
  have _ : Fact (P .latched) := ⟨pLatched⟩
  have _ : Fact (P .draws) := ⟨pDraws⟩
  have _ : Fact (P .out) := ⟨pOut⟩
  unfold execSpace5Access at e
  cases e
  (try dsimp only)
  with_reducible repeat' (first | assumption | apply ite_leads | apply State.readBack_leads | apply State.busWrite_leads | apply State.unbackedEvent_leads | split)

theorem execI3cDynamicAddress_leads {P : Piece → Prop} {s₀ s : State} (h : s₀.Leads P s) (method : I3cAssign) (address : BitVec 7) {t : State} (e : execI3cDynamicAddress method address s = .next t)
    (pSide : P .side) :
    s₀.Leads P t := by
  have _ : Fact (P .side) := ⟨pSide⟩
  unfold execI3cDynamicAddress at e
  cases e
  with_reducible repeat' (first | assumption | apply ite_leads | apply State.modSide_leads | refine snd_leads (by assumption) ?_ | split)

theorem execI3cPrivateWrite_leads {P : Piece → Prop} {s₀ s : State} (h : s₀.Leads P s) (bytes : List Byte) {t : State} (e : execI3cPrivateWrite bytes s = .next t)
    (pSide : P .side) (pRas : P .ras) (pPwr : P .pwr) (pOut : P .out) :
    s₀.Leads P t := by
  have _ : Fact (P .side) := ⟨pSide⟩
  have _ : Fact (P .ras) := ⟨pRas⟩
  have _ : Fact (P .pwr) := ⟨pPwr⟩
  have _ : Fact (P .out) := ⟨pOut⟩
  unfold execI3cPrivateWrite at e
  cases e
  (try dsimp only)
  with_reducible repeat' (first | assumption | apply ite_leads | apply State.writeTherm_leads | apply State.writeLimit_leads | apply State.note_leads | apply State.modSide_leads | split)

theorem execI3cPrivateRead_leads {P : Piece → Prop} {s₀ s : State} (h : s₀.Leads P s)  {t : State} (e : execI3cPrivateRead s = .next t)
    (pArrays : P .arrays) (pFields : P .fields) (pHbm : P .hbm) (pNet : P .net) (pCoh : P .coh) (pSites : P .sites) (pPorts : P .ports) (pPnl : P .pnl) (pRas : P .ras) (pTwin : P .twin) (pPwr : P .pwr) (pLatched : P .latched) (pDraws : P .draws) (pOut : P .out) :
    s₀.Leads P t := by
  have _ : Fact (P .arrays) := ⟨pArrays⟩
  have _ : Fact (P .fields) := ⟨pFields⟩
  have _ : Fact (P .hbm) := ⟨pHbm⟩
  have _ : Fact (P .net) := ⟨pNet⟩
  have _ : Fact (P .coh) := ⟨pCoh⟩
  have _ : Fact (P .sites) := ⟨pSites⟩
  have _ : Fact (P .ports) := ⟨pPorts⟩
  have _ : Fact (P .pnl) := ⟨pPnl⟩
  have _ : Fact (P .ras) := ⟨pRas⟩
  have _ : Fact (P .twin) := ⟨pTwin⟩
  have _ : Fact (P .pwr) := ⟨pPwr⟩
  have _ : Fact (P .latched) := ⟨pLatched⟩
  have _ : Fact (P .draws) := ⟨pDraws⟩
  have _ : Fact (P .out) := ⟨pOut⟩
  unfold execI3cPrivateRead at e
  cases e
  (try dsimp only)
  with_reducible repeat' (first | assumption | apply ite_leads | apply State.busRead_leads | apply State.emit_leads | split)

theorem execTapInstruction_leads {P : Piece → Prop} {s₀ s : State} (h : s₀.Leads P s) (instr : TapInstr) {t : State} (e : execTapInstruction instr s = .next t)
    (pSide : P .side) (pOut : P .out) :
    s₀.Leads P t := by
  have _ : Fact (P .side) := ⟨pSide⟩
  have _ : Fact (P .out) := ⟨pOut⟩
  unfold execTapInstruction at e
  cases e
  (try dsimp only)
  with_reducible repeat' (first | assumption | apply ite_leads | apply State.emit_leads | apply State.modSide_leads | refine snd_leads (by assumption) ?_ | split)

end Sys2Proof.Machine
end

