-- ==== Sys2Proof/Laws/Steady.lean ====
section
/-!
SUPPORT. Parts of the state that shared operations leave alone.
-/

set_option linter.unusedVariables false

set_option Elab.async false

namespace Sys2Proof.Machine

@[simp] theorem State.checkParts_arrays (s : State) (x : List Part) (e : Eng) (i : Nat) :
    ((State.checkParts s e i x).2).arrays = s.arrays := by
  have _ : Fact (Piece.fields ≠ .arrays) := ⟨by decide⟩
  have _ : Fact (Piece.hbm ≠ .arrays) := ⟨by decide⟩
  have _ : Fact (Piece.mem ≠ .arrays) := ⟨by decide⟩
  have _ : Fact (Piece.net ≠ .arrays) := ⟨by decide⟩
  have _ : Fact (Piece.ras ≠ .arrays) := ⟨by decide⟩
  have _ : Fact (Piece.draws ≠ .arrays) := ⟨by decide⟩
  have _ : Fact (Piece.out ≠ .arrays) := ⟨by decide⟩
  exact ((State.checkParts_leads (P := fun p => p ≠ .arrays) x e i (.same s _)).parts .arrays (by simp))

@[simp] theorem State.checkParts_ports (s : State) (x : List Part) (e : Eng) (i : Nat) :
    ((State.checkParts s e i x).2).ports = s.ports := by
  have _ : Fact (Piece.fields ≠ .ports) := ⟨by decide⟩
  have _ : Fact (Piece.hbm ≠ .ports) := ⟨by decide⟩
  have _ : Fact (Piece.mem ≠ .ports) := ⟨by decide⟩
  have _ : Fact (Piece.net ≠ .ports) := ⟨by decide⟩
  have _ : Fact (Piece.ras ≠ .ports) := ⟨by decide⟩
  have _ : Fact (Piece.draws ≠ .ports) := ⟨by decide⟩
  have _ : Fact (Piece.out ≠ .ports) := ⟨by decide⟩
  exact ((State.checkParts_leads (P := fun p => p ≠ .ports) x e i (.same s _)).parts .ports (by simp))

@[simp] theorem State.readInit_arrays (s : State) (e : Eng) (o : CubeOp) (h : Shape) (r0 rows c0 cols : Nat) :
    ((State.readInit s e o h r0 rows c0 cols).2).arrays = s.arrays := by
  have _ : Fact (Piece.fields ≠ .arrays) := ⟨by decide⟩
  have _ : Fact (Piece.hbm ≠ .arrays) := ⟨by decide⟩
  have _ : Fact (Piece.mem ≠ .arrays) := ⟨by decide⟩
  have _ : Fact (Piece.net ≠ .arrays) := ⟨by decide⟩
  have _ : Fact (Piece.coh ≠ .arrays) := ⟨by decide⟩
  have _ : Fact (Piece.ras ≠ .arrays) := ⟨by decide⟩
  have _ : Fact (Piece.twin ≠ .arrays) := ⟨by decide⟩
  have _ : Fact (Piece.lines ≠ .arrays) := ⟨by decide⟩
  have _ : Fact (Piece.draws ≠ .arrays) := ⟨by decide⟩
  have _ : Fact (Piece.out ≠ .arrays) := ⟨by decide⟩
  exact ((State.readInit_leads (P := fun p => p ≠ .arrays) (.same s _) e o h r0 rows c0 cols).parts .arrays (by simp))

@[simp] theorem State.readOperand_arrays (s : State) (e : Eng) (d : BitVec 256) (fmt r0 rows k : Nat) :
    ((State.readOperand s e d fmt r0 rows k).2).arrays = s.arrays := by
  have _ : Fact (Piece.fields ≠ .arrays) := ⟨by decide⟩
  have _ : Fact (Piece.hbm ≠ .arrays) := ⟨by decide⟩
  have _ : Fact (Piece.mem ≠ .arrays) := ⟨by decide⟩
  have _ : Fact (Piece.net ≠ .arrays) := ⟨by decide⟩
  have _ : Fact (Piece.coh ≠ .arrays) := ⟨by decide⟩
  have _ : Fact (Piece.ras ≠ .arrays) := ⟨by decide⟩
  have _ : Fact (Piece.twin ≠ .arrays) := ⟨by decide⟩
  have _ : Fact (Piece.lines ≠ .arrays) := ⟨by decide⟩
  have _ : Fact (Piece.draws ≠ .arrays) := ⟨by decide⟩
  have _ : Fact (Piece.out ≠ .arrays) := ⟨by decide⟩
  exact ((State.readOperand_leads (P := fun p => p ≠ .arrays) (.same s _) e d fmt r0 rows k).parts .arrays (by simp))

@[simp] theorem State.traceSchedule_arrays (s : State) (a : ArrayId) (opcode : Nat) (pc : BitVec 55) :
    ((State.traceSchedule s a opcode pc)).arrays = s.arrays := by
  have _ : Fact (Piece.pnl ≠ .arrays) := ⟨by decide⟩
  have _ : Fact (Piece.out ≠ .arrays) := ⟨by decide⟩
  exact ((State.traceSchedule_leads (P := fun p => p ≠ .arrays) (.same s _) a opcode pc).parts .arrays (by simp))

@[simp] theorem State.traceSchedule_mem (s : State) (a : ArrayId) (opcode : Nat) (pc : BitVec 55) :
    ((State.traceSchedule s a opcode pc)).mem = s.mem := by
  have _ : Fact (Piece.pnl ≠ .mem) := ⟨by decide⟩
  have _ : Fact (Piece.out ≠ .mem) := ⟨by decide⟩
  exact ((State.traceSchedule_leads (P := fun p => p ≠ .mem) (.same s _) a opcode pc).parts .mem (by simp))

@[simp] theorem State.traceSchedule_net (s : State) (a : ArrayId) (opcode : Nat) (pc : BitVec 55) :
    ((State.traceSchedule s a opcode pc)).net = s.net := by
  have _ : Fact (Piece.pnl ≠ .net) := ⟨by decide⟩
  have _ : Fact (Piece.out ≠ .net) := ⟨by decide⟩
  exact ((State.traceSchedule_leads (P := fun p => p ≠ .net) (.same s _) a opcode pc).parts .net (by simp))

@[simp] theorem State.traceSchedule_ras (s : State) (a : ArrayId) (opcode : Nat) (pc : BitVec 55) :
    ((State.traceSchedule s a opcode pc)).ras = s.ras := by
  have _ : Fact (Piece.pnl ≠ .ras) := ⟨by decide⟩
  have _ : Fact (Piece.out ≠ .ras) := ⟨by decide⟩
  exact ((State.traceSchedule_leads (P := fun p => p ≠ .ras) (.same s _) a opcode pc).parts .ras (by simp))

@[simp] theorem State.traceSchedule_ports (s : State) (a : ArrayId) (opcode : Nat) (pc : BitVec 55) :
    ((State.traceSchedule s a opcode pc)).ports = s.ports := by
  have _ : Fact (Piece.pnl ≠ .ports) := ⟨by decide⟩
  have _ : Fact (Piece.out ≠ .ports) := ⟨by decide⟩
  exact ((State.traceSchedule_leads (P := fun p => p ≠ .ports) (.same s _) a opcode pc).parts .ports (by simp))

@[simp] theorem State.logFault_arrays (s : State) (e : FaultEvent) :
    ((State.logFault s e)).arrays = s.arrays := by
  have _ : Fact (Piece.ras ≠ .arrays) := ⟨by decide⟩
  have _ : Fact (Piece.out ≠ .arrays) := ⟨by decide⟩
  exact ((State.logFault_leads (P := fun p => p ≠ .arrays) (.same s _) e).parts .arrays (by simp))

@[simp] theorem State.logFault_pnl (s : State) (e : FaultEvent) :
    ((State.logFault s e)).pnl = s.pnl := by
  have _ : Fact (Piece.ras ≠ .pnl) := ⟨by decide⟩
  have _ : Fact (Piece.out ≠ .pnl) := ⟨by decide⟩
  exact ((State.logFault_leads (P := fun p => p ≠ .pnl) (.same s _) e).parts .pnl (by simp))

@[simp] theorem State.logFault_mem (s : State) (e : FaultEvent) :
    ((State.logFault s e)).mem = s.mem := by
  have _ : Fact (Piece.ras ≠ .mem) := ⟨by decide⟩
  have _ : Fact (Piece.out ≠ .mem) := ⟨by decide⟩
  exact ((State.logFault_leads (P := fun p => p ≠ .mem) (.same s _) e).parts .mem (by simp))

@[simp] theorem State.logFault_net (s : State) (e : FaultEvent) :
    ((State.logFault s e)).net = s.net := by
  have _ : Fact (Piece.ras ≠ .net) := ⟨by decide⟩
  have _ : Fact (Piece.out ≠ .net) := ⟨by decide⟩
  exact ((State.logFault_leads (P := fun p => p ≠ .net) (.same s _) e).parts .net (by simp))

@[simp] theorem State.logFault_ports (s : State) (e : FaultEvent) :
    ((State.logFault s e)).ports = s.ports := by
  have _ : Fact (Piece.ras ≠ .ports) := ⟨by decide⟩
  have _ : Fact (Piece.out ≠ .ports) := ⟨by decide⟩
  exact ((State.logFault_leads (P := fun p => p ≠ .ports) (.same s _) e).parts .ports (by simp))

@[simp] theorem State.logFault_fields (s : State) (e : FaultEvent) :
    ((State.logFault s e)).fields = s.fields := by
  have _ : Fact (Piece.ras ≠ .fields) := ⟨by decide⟩
  have _ : Fact (Piece.out ≠ .fields) := ⟨by decide⟩
  exact ((State.logFault_leads (P := fun p => p ≠ .fields) (.same s _) e).parts .fields (by simp))

@[simp] theorem State.logFault_hbm (s : State) (e : FaultEvent) :
    ((State.logFault s e)).hbm = s.hbm := by
  have _ : Fact (Piece.ras ≠ .hbm) := ⟨by decide⟩
  have _ : Fact (Piece.out ≠ .hbm) := ⟨by decide⟩
  exact ((State.logFault_leads (P := fun p => p ≠ .hbm) (.same s _) e).parts .hbm (by simp))

@[simp] theorem State.logFault_coh (s : State) (e : FaultEvent) :
    ((State.logFault s e)).coh = s.coh := by
  have _ : Fact (Piece.ras ≠ .coh) := ⟨by decide⟩
  have _ : Fact (Piece.out ≠ .coh) := ⟨by decide⟩
  exact ((State.logFault_leads (P := fun p => p ≠ .coh) (.same s _) e).parts .coh (by simp))

@[simp] theorem State.logFault_sites (s : State) (e : FaultEvent) :
    ((State.logFault s e)).sites = s.sites := by
  have _ : Fact (Piece.ras ≠ .sites) := ⟨by decide⟩
  have _ : Fact (Piece.out ≠ .sites) := ⟨by decide⟩
  exact ((State.logFault_leads (P := fun p => p ≠ .sites) (.same s _) e).parts .sites (by simp))

@[simp] theorem State.logFault_twin (s : State) (e : FaultEvent) :
    ((State.logFault s e)).twin = s.twin := by
  have _ : Fact (Piece.ras ≠ .twin) := ⟨by decide⟩
  have _ : Fact (Piece.out ≠ .twin) := ⟨by decide⟩
  exact ((State.logFault_leads (P := fun p => p ≠ .twin) (.same s _) e).parts .twin (by simp))

@[simp] theorem State.logFault_pwr (s : State) (e : FaultEvent) :
    ((State.logFault s e)).pwr = s.pwr := by
  have _ : Fact (Piece.ras ≠ .pwr) := ⟨by decide⟩
  have _ : Fact (Piece.out ≠ .pwr) := ⟨by decide⟩
  exact ((State.logFault_leads (P := fun p => p ≠ .pwr) (.same s _) e).parts .pwr (by simp))

@[simp] theorem State.logMem_arrays (s : State) (e : MemEvent) :
    ((State.logMem s e)).arrays = s.arrays := by
  have _ : Fact (Piece.ras ≠ .arrays) := ⟨by decide⟩
  exact ((State.logMem_leads (P := fun p => p ≠ .arrays) (.same s _) e).parts .arrays (by simp))

@[simp] theorem State.logMem_pnl (s : State) (e : MemEvent) :
    ((State.logMem s e)).pnl = s.pnl := by
  have _ : Fact (Piece.ras ≠ .pnl) := ⟨by decide⟩
  exact ((State.logMem_leads (P := fun p => p ≠ .pnl) (.same s _) e).parts .pnl (by simp))

@[simp] theorem State.logMem_mem (s : State) (e : MemEvent) :
    ((State.logMem s e)).mem = s.mem := by
  have _ : Fact (Piece.ras ≠ .mem) := ⟨by decide⟩
  exact ((State.logMem_leads (P := fun p => p ≠ .mem) (.same s _) e).parts .mem (by simp))

@[simp] theorem State.logMem_net (s : State) (e : MemEvent) :
    ((State.logMem s e)).net = s.net := by
  have _ : Fact (Piece.ras ≠ .net) := ⟨by decide⟩
  exact ((State.logMem_leads (P := fun p => p ≠ .net) (.same s _) e).parts .net (by simp))

@[simp] theorem State.logMem_ports (s : State) (e : MemEvent) :
    ((State.logMem s e)).ports = s.ports := by
  have _ : Fact (Piece.ras ≠ .ports) := ⟨by decide⟩
  exact ((State.logMem_leads (P := fun p => p ≠ .ports) (.same s _) e).parts .ports (by simp))

@[simp] theorem State.logMem_hbm (s : State) (e : MemEvent) :
    ((State.logMem s e)).hbm = s.hbm := by
  have _ : Fact (Piece.ras ≠ .hbm) := ⟨by decide⟩
  exact ((State.logMem_leads (P := fun p => p ≠ .hbm) (.same s _) e).parts .hbm (by simp))

@[simp] theorem State.sendRows_arrays (s : State) (x : List DrainRow) (e : Eng) :
    ((State.sendRows s e x).2).arrays = s.arrays := by
  have _ : Fact (Piece.fields ≠ .arrays) := ⟨by decide⟩
  have _ : Fact (Piece.hbm ≠ .arrays) := ⟨by decide⟩
  have _ : Fact (Piece.mem ≠ .arrays) := ⟨by decide⟩
  have _ : Fact (Piece.net ≠ .arrays) := ⟨by decide⟩
  have _ : Fact (Piece.coh ≠ .arrays) := ⟨by decide⟩
  have _ : Fact (Piece.pnl ≠ .arrays) := ⟨by decide⟩
  have _ : Fact (Piece.ras ≠ .arrays) := ⟨by decide⟩
  have _ : Fact (Piece.twin ≠ .arrays) := ⟨by decide⟩
  have _ : Fact (Piece.draws ≠ .arrays) := ⟨by decide⟩
  have _ : Fact (Piece.out ≠ .arrays) := ⟨by decide⟩
  exact ((State.sendRows_leads (P := fun p => p ≠ .arrays) x e (.same s _)).parts .arrays (by simp))

@[simp] theorem State.cancelStalls_arrays (s : State) (a : ArrayId) :
    ((State.cancelStalls s a)).arrays = s.arrays := by
  have _ : Fact (Piece.pnl ≠ .arrays) := ⟨by decide⟩
  exact ((State.cancelStalls_leads (P := fun p => p ≠ .arrays) (.same s _) a).parts .arrays (by simp))

@[simp] theorem State.modTaken_arrays (s : State) (q : QRef) (f : Taken → Taken) :
    ((State.modTaken s q f)).arrays = s.arrays := by
  have _ : Fact (Piece.ports ≠ .arrays) := ⟨by decide⟩
  exact ((State.modTaken_leads (P := fun p => p ≠ .arrays) (.same s _) q f).parts .arrays (by simp))

@[simp] theorem State.stopAt_ras (s : State) (a : ArrayId) (k : HaltKind) :
    ((State.stopAt s a k)).ras = s.ras := by
  have _ : Fact (Piece.arrays ≠ .ras) := ⟨by decide⟩
  have _ : Fact (Piece.pnl ≠ .ras) := ⟨by decide⟩
  exact ((State.stopAt_leads (P := fun p => p ≠ .ras) (.same s _) a k).parts .ras (by simp))

@[simp] theorem State.endInvOf_ras (s : State) (a : ArrayId) (status : Byte) (code : Byte) :
    ((State.endInvOf s a status code)).ras = s.ras := by
  have _ : Fact (Piece.arrays ≠ .ras) := ⟨by decide⟩
  have _ : Fact (Piece.ports ≠ .ras) := ⟨by decide⟩
  have _ : Fact (Piece.pnl ≠ .ras) := ⟨by decide⟩
  exact ((State.endInvOf_leads (P := fun p => p ≠ .ras) (.same s _) a status code).parts .ras (by simp))

@[simp] theorem State.endInvOf_net (s : State) (a : ArrayId) (status : Byte) (code : Byte) :
    ((State.endInvOf s a status code)).net = s.net := by
  have _ : Fact (Piece.arrays ≠ .net) := ⟨by decide⟩
  have _ : Fact (Piece.ports ≠ .net) := ⟨by decide⟩
  have _ : Fact (Piece.pnl ≠ .net) := ⟨by decide⟩
  exact ((State.endInvOf_leads (P := fun p => p ≠ .net) (.same s _) a status code).parts .net (by simp))

@[simp] theorem State.endInvOf_mem (s : State) (a : ArrayId) (status : Byte) (code : Byte) :
    ((State.endInvOf s a status code)).mem = s.mem := by
  have _ : Fact (Piece.arrays ≠ .mem) := ⟨by decide⟩
  have _ : Fact (Piece.ports ≠ .mem) := ⟨by decide⟩
  have _ : Fact (Piece.pnl ≠ .mem) := ⟨by decide⟩
  exact ((State.endInvOf_leads (P := fun p => p ≠ .mem) (.same s _) a status code).parts .mem (by simp))

@[simp] theorem State.endInv_ras (s : State) (q : QRef) (status : Byte) (code : Byte) (a : Option ArrayId) :
    ((State.endInv s q status code a)).ras = s.ras := by
  have _ : Fact (Piece.arrays ≠ .ras) := ⟨by decide⟩
  have _ : Fact (Piece.ports ≠ .ras) := ⟨by decide⟩
  have _ : Fact (Piece.pnl ≠ .ras) := ⟨by decide⟩
  exact ((State.endInv_leads (P := fun p => p ≠ .ras) (.same s _) q status code a).parts .ras (by simp))

@[simp] theorem State.endInv_net (s : State) (q : QRef) (status : Byte) (code : Byte) (a : Option ArrayId) :
    ((State.endInv s q status code a)).net = s.net := by
  have _ : Fact (Piece.arrays ≠ .net) := ⟨by decide⟩
  have _ : Fact (Piece.ports ≠ .net) := ⟨by decide⟩
  have _ : Fact (Piece.pnl ≠ .net) := ⟨by decide⟩
  exact ((State.endInv_leads (P := fun p => p ≠ .net) (.same s _) q status code a).parts .net (by simp))

@[simp] theorem State.endInv_mem (s : State) (q : QRef) (status : Byte) (code : Byte) (a : Option ArrayId) :
    ((State.endInv s q status code a)).mem = s.mem := by
  have _ : Fact (Piece.arrays ≠ .mem) := ⟨by decide⟩
  have _ : Fact (Piece.ports ≠ .mem) := ⟨by decide⟩
  have _ : Fact (Piece.pnl ≠ .mem) := ⟨by decide⟩
  exact ((State.endInv_leads (P := fun p => p ≠ .mem) (.same s _) q status code a).parts .mem (by simp))

@[simp] theorem State.haltArray_ras (s : State) (a : ArrayId) (k : HaltKind) :
    ((State.haltArray s a k)).ras = s.ras := by
  have _ : Fact (Piece.arrays ≠ .ras) := ⟨by decide⟩
  have _ : Fact (Piece.pnl ≠ .ras) := ⟨by decide⟩
  exact ((State.haltArray_leads (P := fun p => p ≠ .ras) (.same s _) a k).parts .ras (by simp))

@[simp] theorem State.haltArray_net (s : State) (a : ArrayId) (k : HaltKind) :
    ((State.haltArray s a k)).net = s.net := by
  have _ : Fact (Piece.arrays ≠ .net) := ⟨by decide⟩
  have _ : Fact (Piece.pnl ≠ .net) := ⟨by decide⟩
  exact ((State.haltArray_leads (P := fun p => p ≠ .net) (.same s _) a k).parts .net (by simp))

@[simp] theorem State.haltArray_mem (s : State) (a : ArrayId) (k : HaltKind) :
    ((State.haltArray s a k)).mem = s.mem := by
  have _ : Fact (Piece.arrays ≠ .mem) := ⟨by decide⟩
  have _ : Fact (Piece.pnl ≠ .mem) := ⟨by decide⟩
  exact ((State.haltArray_leads (P := fun p => p ≠ .mem) (.same s _) a k).parts .mem (by simp))

@[simp] theorem State.continueOn_ras (s : State) (b : ArrayId) (p : PanelId) (code : Byte) :
    ((State.continueOn s b p code)).ras = s.ras := by
  have _ : Fact (Piece.arrays ≠ .ras) := ⟨by decide⟩
  have _ : Fact (Piece.ports ≠ .ras) := ⟨by decide⟩
  have _ : Fact (Piece.pnl ≠ .ras) := ⟨by decide⟩
  exact ((State.continueOn_leads (P := fun p => p ≠ .ras) (.same s _) b p code).parts .ras (by simp))

@[simp] theorem State.checkVas_arrays (s : State) (x : List (BitVec 55)) (e : Eng) (acc : Access) :
    ((State.checkVas s e acc x).2).arrays = s.arrays := by
  have _ : Fact (Piece.fields ≠ .arrays) := ⟨by decide⟩
  have _ : Fact (Piece.hbm ≠ .arrays) := ⟨by decide⟩
  have _ : Fact (Piece.mem ≠ .arrays) := ⟨by decide⟩
  have _ : Fact (Piece.net ≠ .arrays) := ⟨by decide⟩
  have _ : Fact (Piece.ras ≠ .arrays) := ⟨by decide⟩
  have _ : Fact (Piece.draws ≠ .arrays) := ⟨by decide⟩
  have _ : Fact (Piece.out ≠ .arrays) := ⟨by decide⟩
  exact ((State.checkVas_leads (P := fun p => p ≠ .arrays) x e acc (.same s _)).parts .arrays (by simp))

@[simp] theorem State.checkVas_ports (s : State) (x : List (BitVec 55)) (e : Eng) (acc : Access) :
    ((State.checkVas s e acc x).2).ports = s.ports := by
  have _ : Fact (Piece.fields ≠ .ports) := ⟨by decide⟩
  have _ : Fact (Piece.hbm ≠ .ports) := ⟨by decide⟩
  have _ : Fact (Piece.mem ≠ .ports) := ⟨by decide⟩
  have _ : Fact (Piece.net ≠ .ports) := ⟨by decide⟩
  have _ : Fact (Piece.ras ≠ .ports) := ⟨by decide⟩
  have _ : Fact (Piece.draws ≠ .ports) := ⟨by decide⟩
  have _ : Fact (Piece.out ≠ .ports) := ⟨by decide⟩
  exact ((State.checkVas_leads (P := fun p => p ≠ .ports) x e acc (.same s _)).parts .ports (by simp))

@[simp] theorem State.readWords_arrays (s : State) (x : List (BitVec 55)) (e : Eng) :
    ((State.readWords s e x).2).arrays = s.arrays := by
  have _ : Fact (Piece.fields ≠ .arrays) := ⟨by decide⟩
  have _ : Fact (Piece.hbm ≠ .arrays) := ⟨by decide⟩
  have _ : Fact (Piece.mem ≠ .arrays) := ⟨by decide⟩
  have _ : Fact (Piece.net ≠ .arrays) := ⟨by decide⟩
  have _ : Fact (Piece.coh ≠ .arrays) := ⟨by decide⟩
  have _ : Fact (Piece.ras ≠ .arrays) := ⟨by decide⟩
  have _ : Fact (Piece.twin ≠ .arrays) := ⟨by decide⟩
  have _ : Fact (Piece.lines ≠ .arrays) := ⟨by decide⟩
  have _ : Fact (Piece.draws ≠ .arrays) := ⟨by decide⟩
  have _ : Fact (Piece.out ≠ .arrays) := ⟨by decide⟩
  exact ((State.readWords_leads (P := fun p => p ≠ .arrays) x e (.same s _)).parts .arrays (by simp))

@[simp] theorem State.readWords_ports (s : State) (x : List (BitVec 55)) (e : Eng) :
    ((State.readWords s e x).2).ports = s.ports := by
  have _ : Fact (Piece.fields ≠ .ports) := ⟨by decide⟩
  have _ : Fact (Piece.hbm ≠ .ports) := ⟨by decide⟩
  have _ : Fact (Piece.mem ≠ .ports) := ⟨by decide⟩
  have _ : Fact (Piece.net ≠ .ports) := ⟨by decide⟩
  have _ : Fact (Piece.coh ≠ .ports) := ⟨by decide⟩
  have _ : Fact (Piece.ras ≠ .ports) := ⟨by decide⟩
  have _ : Fact (Piece.twin ≠ .ports) := ⟨by decide⟩
  have _ : Fact (Piece.lines ≠ .ports) := ⟨by decide⟩
  have _ : Fact (Piece.draws ≠ .ports) := ⟨by decide⟩
  have _ : Fact (Piece.out ≠ .ports) := ⟨by decide⟩
  exact ((State.readWords_leads (P := fun p => p ≠ .ports) x e (.same s _)).parts .ports (by simp))

@[simp] theorem State.sendWords_arrays (s : State) (x : List (BitVec 55 × CodeWord)) (e : Eng) :
    ((State.sendWords s e x).2).arrays = s.arrays := by
  have _ : Fact (Piece.fields ≠ .arrays) := ⟨by decide⟩
  have _ : Fact (Piece.hbm ≠ .arrays) := ⟨by decide⟩
  have _ : Fact (Piece.mem ≠ .arrays) := ⟨by decide⟩
  have _ : Fact (Piece.net ≠ .arrays) := ⟨by decide⟩
  have _ : Fact (Piece.coh ≠ .arrays) := ⟨by decide⟩
  have _ : Fact (Piece.pnl ≠ .arrays) := ⟨by decide⟩
  have _ : Fact (Piece.ras ≠ .arrays) := ⟨by decide⟩
  have _ : Fact (Piece.twin ≠ .arrays) := ⟨by decide⟩
  have _ : Fact (Piece.draws ≠ .arrays) := ⟨by decide⟩
  have _ : Fact (Piece.out ≠ .arrays) := ⟨by decide⟩
  exact ((State.sendWords_leads (P := fun p => p ≠ .arrays) x e (.same s _)).parts .arrays (by simp))

@[simp] theorem State.endStep_mem (s : State) (a : ArrayId) (source : BitVec 3) (code : Byte) (info : BitVec 16) (status : Byte) :
    ((State.endStep s a source code info status)).mem = s.mem := by
  have _ : Fact (Piece.arrays ≠ .mem) := ⟨by decide⟩
  have _ : Fact (Piece.ports ≠ .mem) := ⟨by decide⟩
  have _ : Fact (Piece.pnl ≠ .mem) := ⟨by decide⟩
  have _ : Fact (Piece.ras ≠ .mem) := ⟨by decide⟩
  have _ : Fact (Piece.out ≠ .mem) := ⟨by decide⟩
  exact ((State.endStep_leads (P := fun p => p ≠ .mem) (.same s _) a source code info status).parts .mem (by simp))

@[simp] theorem State.endStep_net (s : State) (a : ArrayId) (source : BitVec 3) (code : Byte) (info : BitVec 16) (status : Byte) :
    ((State.endStep s a source code info status)).net = s.net := by
  have _ : Fact (Piece.arrays ≠ .net) := ⟨by decide⟩
  have _ : Fact (Piece.ports ≠ .net) := ⟨by decide⟩
  have _ : Fact (Piece.pnl ≠ .net) := ⟨by decide⟩
  have _ : Fact (Piece.ras ≠ .net) := ⟨by decide⟩
  have _ : Fact (Piece.out ≠ .net) := ⟨by decide⟩
  exact ((State.endStep_leads (P := fun p => p ≠ .net) (.same s _) a source code info status).parts .net (by simp))

@[simp] theorem State.readTile_arrays (s : State) (a : ArrayId) (p : PanelId) (acc : Access) (va : BitVec 55) (n : Nat) :
    ((State.readTile s a p acc va n).2).arrays = s.arrays := by
  have _ : Fact (Piece.fields ≠ .arrays) := ⟨by decide⟩
  have _ : Fact (Piece.hbm ≠ .arrays) := ⟨by decide⟩
  have _ : Fact (Piece.mem ≠ .arrays) := ⟨by decide⟩
  have _ : Fact (Piece.net ≠ .arrays) := ⟨by decide⟩
  have _ : Fact (Piece.coh ≠ .arrays) := ⟨by decide⟩
  have _ : Fact (Piece.ras ≠ .arrays) := ⟨by decide⟩
  have _ : Fact (Piece.twin ≠ .arrays) := ⟨by decide⟩
  have _ : Fact (Piece.lines ≠ .arrays) := ⟨by decide⟩
  have _ : Fact (Piece.draws ≠ .arrays) := ⟨by decide⟩
  have _ : Fact (Piece.out ≠ .arrays) := ⟨by decide⟩
  exact ((State.readTile_leads (P := fun p => p ≠ .arrays) (.same s _) a p acc va n).parts .arrays (by simp))

@[simp] theorem State.readRun_arrays (s : State) (x : Nat) (e : Eng) (acc : Access) (va : BitVec 55) :
    ((State.readRun s e acc va x).2).arrays = s.arrays := by
  have _ : Fact (Piece.fields ≠ .arrays) := ⟨by decide⟩
  have _ : Fact (Piece.hbm ≠ .arrays) := ⟨by decide⟩
  have _ : Fact (Piece.mem ≠ .arrays) := ⟨by decide⟩
  have _ : Fact (Piece.net ≠ .arrays) := ⟨by decide⟩
  have _ : Fact (Piece.coh ≠ .arrays) := ⟨by decide⟩
  have _ : Fact (Piece.ras ≠ .arrays) := ⟨by decide⟩
  have _ : Fact (Piece.twin ≠ .arrays) := ⟨by decide⟩
  have _ : Fact (Piece.lines ≠ .arrays) := ⟨by decide⟩
  have _ : Fact (Piece.draws ≠ .arrays) := ⟨by decide⟩
  have _ : Fact (Piece.out ≠ .arrays) := ⟨by decide⟩
  exact ((State.readRun_leads (P := fun p => p ≠ .arrays) x e acc va (.same s _)).parts .arrays (by simp))

@[simp] theorem State.sendRun_arrays (s : State) (fuel : Nat) (e : Eng) (va : BitVec 55) (ws : List CodeWord) :
    ((State.sendRun fuel s e va ws).2).arrays = s.arrays := by
  have _ : Fact (Piece.fields ≠ .arrays) := ⟨by decide⟩
  have _ : Fact (Piece.hbm ≠ .arrays) := ⟨by decide⟩
  have _ : Fact (Piece.mem ≠ .arrays) := ⟨by decide⟩
  have _ : Fact (Piece.net ≠ .arrays) := ⟨by decide⟩
  have _ : Fact (Piece.coh ≠ .arrays) := ⟨by decide⟩
  have _ : Fact (Piece.pnl ≠ .arrays) := ⟨by decide⟩
  have _ : Fact (Piece.ras ≠ .arrays) := ⟨by decide⟩
  have _ : Fact (Piece.twin ≠ .arrays) := ⟨by decide⟩
  have _ : Fact (Piece.draws ≠ .arrays) := ⟨by decide⟩
  have _ : Fact (Piece.out ≠ .arrays) := ⟨by decide⟩
  exact ((State.sendRun_leads (P := fun p => p ≠ .arrays) fuel (.same s _) e va ws).parts .arrays (by simp))

@[simp] theorem State.answerTxn_arrays (s : State) (id : TxId) (status : BitVec 3) (data : List CodeWord) :
    ((State.answerTxn s id status data)).arrays = s.arrays := by
  have _ : Fact (Piece.net ≠ .arrays) := ⟨by decide⟩
  exact ((State.answerTxn_leads (P := fun p => p ≠ .arrays) (.same s _) id status data).parts .arrays (by simp))

@[simp] theorem State.answerTxn_hbm (s : State) (id : TxId) (status : BitVec 3) (data : List CodeWord) :
    ((State.answerTxn s id status data)).hbm = s.hbm := by
  have _ : Fact (Piece.net ≠ .hbm) := ⟨by decide⟩
  exact ((State.answerTxn_leads (P := fun p => p ≠ .hbm) (.same s _) id status data).parts .hbm (by simp))

@[simp] theorem State.answerTxn_mem (s : State) (id : TxId) (status : BitVec 3) (data : List CodeWord) :
    ((State.answerTxn s id status data)).mem = s.mem := by
  have _ : Fact (Piece.net ≠ .mem) := ⟨by decide⟩
  exact ((State.answerTxn_leads (P := fun p => p ≠ .mem) (.same s _) id status data).parts .mem (by simp))

@[simp] theorem State.answerTxn_fields (s : State) (id : TxId) (status : BitVec 3) (data : List CodeWord) :
    ((State.answerTxn s id status data)).fields = s.fields := by
  have _ : Fact (Piece.net ≠ .fields) := ⟨by decide⟩
  exact ((State.answerTxn_leads (P := fun p => p ≠ .fields) (.same s _) id status data).parts .fields (by simp))

@[simp] theorem State.answerTxn_ras (s : State) (id : TxId) (status : BitVec 3) (data : List CodeWord) :
    ((State.answerTxn s id status data)).ras = s.ras := by
  have _ : Fact (Piece.net ≠ .ras) := ⟨by decide⟩
  exact ((State.answerTxn_leads (P := fun p => p ≠ .ras) (.same s _) id status data).parts .ras (by simp))

@[simp] theorem State.answerTxn_coh (s : State) (id : TxId) (status : BitVec 3) (data : List CodeWord) :
    ((State.answerTxn s id status data)).coh = s.coh := by
  have _ : Fact (Piece.net ≠ .coh) := ⟨by decide⟩
  exact ((State.answerTxn_leads (P := fun p => p ≠ .coh) (.same s _) id status data).parts .coh (by simp))

@[simp] theorem State.remember_arrays (s : State) (f : FieldId) (ni : NiId) (id : TxId) (status : BitVec 3) (data : List CodeWord) :
    ((State.remember s f ni id status data)).arrays = s.arrays := by
  have _ : Fact (Piece.net ≠ .arrays) := ⟨by decide⟩
  exact ((State.remember_leads (P := fun p => p ≠ .arrays) (.same s _) f ni id status data).parts .arrays (by simp))

@[simp] theorem State.remember_coh (s : State) (f : FieldId) (ni : NiId) (id : TxId) (status : BitVec 3) (data : List CodeWord) :
    ((State.remember s f ni id status data)).coh = s.coh := by
  have _ : Fact (Piece.net ≠ .coh) := ⟨by decide⟩
  exact ((State.remember_leads (P := fun p => p ≠ .coh) (.same s _) f ni id status data).parts .coh (by simp))

@[simp] theorem State.remember_mem (s : State) (f : FieldId) (ni : NiId) (id : TxId) (status : BitVec 3) (data : List CodeWord) :
    ((State.remember s f ni id status data)).mem = s.mem := by
  have _ : Fact (Piece.net ≠ .mem) := ⟨by decide⟩
  exact ((State.remember_leads (P := fun p => p ≠ .mem) (.same s _) f ni id status data).parts .mem (by simp))

@[simp] theorem State.resetAll_pins (s : State) (port : PortId) :
    ((State.resetAll s port)).pins = s.pins := by
  have _ : Fact (Piece.arrays ≠ .pins) := ⟨by decide⟩
  have _ : Fact (Piece.ports ≠ .pins) := ⟨by decide⟩
  have _ : Fact (Piece.pnl ≠ .pins) := ⟨by decide⟩
  exact ((State.resetAll_leads (P := fun p => p ≠ .pins) (.same s _) port).parts .pins (by simp))

@[simp] theorem State.noteHost_ports (s : State) (p : PortId) (code : Byte) :
    ((State.noteHost s p code)).ports = s.ports := by
  have _ : Fact (Piece.ras ≠ .ports) := ⟨by decide⟩
  have _ : Fact (Piece.out ≠ .ports) := ⟨by decide⟩
  exact ((State.noteHost_leads (P := fun p => p ≠ .ports) (.same s _) p code).parts .ports (by simp))

@[simp] theorem State.noteHost_mem (s : State) (p : PortId) (code : Byte) :
    ((State.noteHost s p code)).mem = s.mem := by
  have _ : Fact (Piece.ras ≠ .mem) := ⟨by decide⟩
  have _ : Fact (Piece.out ≠ .mem) := ⟨by decide⟩
  exact ((State.noteHost_leads (P := fun p => p ≠ .mem) (.same s _) p code).parts .mem (by simp))

@[simp] theorem State.noteHost_img (s : State) (p : PortId) (code : Byte) :
    ((State.noteHost s p code)).img = s.img := by
  have _ : Fact (Piece.ras ≠ .img) := ⟨by decide⟩
  have _ : Fact (Piece.out ≠ .img) := ⟨by decide⟩
  exact ((State.noteHost_leads (P := fun p => p ≠ .img) (.same s _) p code).parts .img (by simp))

@[simp] theorem State.egress_out (s : State) (g : Agent) (ws : List (Option Target × CodeWord)) :
    ((State.egress s g ws)).out = s.out := by
  have _ : Fact (Piece.ras ≠ .out) := ⟨by decide⟩
  exact ((State.egress_leads (P := fun p => p ≠ .out) (.same s _) g ws).parts .out (by simp))

@[simp] theorem State.egress_mem (s : State) (g : Agent) (ws : List (Option Target × CodeWord)) :
    ((State.egress s g ws)).mem = s.mem := by
  have _ : Fact (Piece.ras ≠ .mem) := ⟨by decide⟩
  exact ((State.egress_leads (P := fun p => p ≠ .mem) (.same s _) g ws).parts .mem (by simp))

@[simp] theorem State.flushLines_ports (s : State) (tint : TintId) (ls : List Nat) :
    ((State.flushLines s tint ls)).ports = s.ports := by
  have _ : Fact (Piece.fields ≠ .ports) := ⟨by decide⟩
  have _ : Fact (Piece.hbm ≠ .ports) := ⟨by decide⟩
  have _ : Fact (Piece.mem ≠ .ports) := ⟨by decide⟩
  have _ : Fact (Piece.net ≠ .ports) := ⟨by decide⟩
  have _ : Fact (Piece.coh ≠ .ports) := ⟨by decide⟩
  have _ : Fact (Piece.ras ≠ .ports) := ⟨by decide⟩
  have _ : Fact (Piece.twin ≠ .ports) := ⟨by decide⟩
  have _ : Fact (Piece.out ≠ .ports) := ⟨by decide⟩
  exact ((State.flushLines_leads (P := fun p => p ≠ .ports) (.same s _) tint ls).parts .ports (by simp))

@[simp] theorem State.flushLines_pnl (s : State) (tint : TintId) (ls : List Nat) :
    ((State.flushLines s tint ls)).pnl = s.pnl := by
  have _ : Fact (Piece.fields ≠ .pnl) := ⟨by decide⟩
  have _ : Fact (Piece.hbm ≠ .pnl) := ⟨by decide⟩
  have _ : Fact (Piece.mem ≠ .pnl) := ⟨by decide⟩
  have _ : Fact (Piece.net ≠ .pnl) := ⟨by decide⟩
  have _ : Fact (Piece.coh ≠ .pnl) := ⟨by decide⟩
  have _ : Fact (Piece.ras ≠ .pnl) := ⟨by decide⟩
  have _ : Fact (Piece.twin ≠ .pnl) := ⟨by decide⟩
  have _ : Fact (Piece.out ≠ .pnl) := ⟨by decide⟩
  exact ((State.flushLines_leads (P := fun p => p ≠ .pnl) (.same s _) tint ls).parts .pnl (by simp))

@[simp] theorem State.walkLevel_ports (s : State) (g : Agent) (p : PanelId) (tint : TintId) (va : BitVec 55) (level : Nat) (table : BitVec 52) (namer : DWord) (flips : BitVec 544) :
    ((State.walkLevel s g p tint va level table namer flips).2).ports = s.ports := by
  have _ : Fact (Piece.fields ≠ .ports) := ⟨by decide⟩
  have _ : Fact (Piece.hbm ≠ .ports) := ⟨by decide⟩
  have _ : Fact (Piece.mem ≠ .ports) := ⟨by decide⟩
  have _ : Fact (Piece.net ≠ .ports) := ⟨by decide⟩
  have _ : Fact (Piece.ras ≠ .ports) := ⟨by decide⟩
  have _ : Fact (Piece.out ≠ .ports) := ⟨by decide⟩
  exact ((State.walkLevel_leads (P := fun p => p ≠ .ports) (.same s _) g p tint va level table namer flips).parts .ports (by simp))

@[simp] theorem State.walkLevel_pnl (s : State) (g : Agent) (p : PanelId) (tint : TintId) (va : BitVec 55) (level : Nat) (table : BitVec 52) (namer : DWord) (flips : BitVec 544) :
    ((State.walkLevel s g p tint va level table namer flips).2).pnl = s.pnl := by
  have _ : Fact (Piece.fields ≠ .pnl) := ⟨by decide⟩
  have _ : Fact (Piece.hbm ≠ .pnl) := ⟨by decide⟩
  have _ : Fact (Piece.mem ≠ .pnl) := ⟨by decide⟩
  have _ : Fact (Piece.net ≠ .pnl) := ⟨by decide⟩
  have _ : Fact (Piece.ras ≠ .pnl) := ⟨by decide⟩
  have _ : Fact (Piece.out ≠ .pnl) := ⟨by decide⟩
  exact ((State.walkLevel_leads (P := fun p => p ≠ .pnl) (.same s _) g p tint va level table namer flips).parts .pnl (by simp))

@[simp] theorem State.walkLevel_arrays (s : State) (g : Agent) (p : PanelId) (tint : TintId) (va : BitVec 55) (level : Nat) (table : BitVec 52) (namer : DWord) (flips : BitVec 544) :
    ((State.walkLevel s g p tint va level table namer flips).2).arrays = s.arrays := by
  have _ : Fact (Piece.fields ≠ .arrays) := ⟨by decide⟩
  have _ : Fact (Piece.hbm ≠ .arrays) := ⟨by decide⟩
  have _ : Fact (Piece.mem ≠ .arrays) := ⟨by decide⟩
  have _ : Fact (Piece.net ≠ .arrays) := ⟨by decide⟩
  have _ : Fact (Piece.ras ≠ .arrays) := ⟨by decide⟩
  have _ : Fact (Piece.out ≠ .arrays) := ⟨by decide⟩
  exact ((State.walkLevel_leads (P := fun p => p ≠ .arrays) (.same s _) g p tint va level table namer flips).parts .arrays (by simp))

@[simp] theorem State.translate_pnl (s : State) (g : Agent) (eng : EngineSel) (p : PanelId) (tint : TintId) (va : BitVec 55) (acc : Access) :
    ((State.translate s g eng p tint va acc).2).pnl = s.pnl := by
  have _ : Fact (Piece.fields ≠ .pnl) := ⟨by decide⟩
  have _ : Fact (Piece.hbm ≠ .pnl) := ⟨by decide⟩
  have _ : Fact (Piece.mem ≠ .pnl) := ⟨by decide⟩
  have _ : Fact (Piece.net ≠ .pnl) := ⟨by decide⟩
  have _ : Fact (Piece.ras ≠ .pnl) := ⟨by decide⟩
  have _ : Fact (Piece.draws ≠ .pnl) := ⟨by decide⟩
  have _ : Fact (Piece.out ≠ .pnl) := ⟨by decide⟩
  exact ((State.translate_leads (P := fun p => p ≠ .pnl) (.same s _) g eng p tint va acc).parts .pnl (by simp))

@[simp] theorem State.translate_arrays (s : State) (g : Agent) (eng : EngineSel) (p : PanelId) (tint : TintId) (va : BitVec 55) (acc : Access) :
    ((State.translate s g eng p tint va acc).2).arrays = s.arrays := by
  have _ : Fact (Piece.fields ≠ .arrays) := ⟨by decide⟩
  have _ : Fact (Piece.hbm ≠ .arrays) := ⟨by decide⟩
  have _ : Fact (Piece.mem ≠ .arrays) := ⟨by decide⟩
  have _ : Fact (Piece.net ≠ .arrays) := ⟨by decide⟩
  have _ : Fact (Piece.ras ≠ .arrays) := ⟨by decide⟩
  have _ : Fact (Piece.draws ≠ .arrays) := ⟨by decide⟩
  have _ : Fact (Piece.out ≠ .arrays) := ⟨by decide⟩
  exact ((State.translate_leads (P := fun p => p ≠ .arrays) (.same s _) g eng p tint va acc).parts .arrays (by simp))

@[simp] theorem State.translate_sites (s : State) (g : Agent) (eng : EngineSel) (p : PanelId) (tint : TintId) (va : BitVec 55) (acc : Access) :
    ((State.translate s g eng p tint va acc).2).sites = s.sites := by
  have _ : Fact (Piece.fields ≠ .sites) := ⟨by decide⟩
  have _ : Fact (Piece.hbm ≠ .sites) := ⟨by decide⟩
  have _ : Fact (Piece.mem ≠ .sites) := ⟨by decide⟩
  have _ : Fact (Piece.net ≠ .sites) := ⟨by decide⟩
  have _ : Fact (Piece.ras ≠ .sites) := ⟨by decide⟩
  have _ : Fact (Piece.draws ≠ .sites) := ⟨by decide⟩
  have _ : Fact (Piece.out ≠ .sites) := ⟨by decide⟩
  exact ((State.translate_leads (P := fun p => p ≠ .sites) (.same s _) g eng p tint va acc).parts .sites (by simp))

@[simp] theorem State.addPatch_hbm (s : State) (kind : BitVec 4) (code : Byte) (failed spare : Word) :
    ((State.addPatch s kind code failed spare)).hbm = s.hbm := by
  have _ : Fact (Piece.ras ≠ .hbm) := ⟨by decide⟩
  exact ((State.addPatch_leads (P := fun p => p ≠ .hbm) (.same s _) kind code failed spare).parts .hbm (by simp))

@[simp] theorem State.addPatch_mem (s : State) (kind : BitVec 4) (code : Byte) (failed spare : Word) :
    ((State.addPatch s kind code failed spare)).mem = s.mem := by
  have _ : Fact (Piece.ras ≠ .mem) := ⟨by decide⟩
  exact ((State.addPatch_leads (P := fun p => p ≠ .mem) (.same s _) kind code failed spare).parts .mem (by simp))

@[simp] theorem State.addPatch_fuse (s : State) (kind : BitVec 4) (code : Byte) (failed spare : Word) :
    ((State.addPatch s kind code failed spare)).fuse = s.fuse := by
  have _ : Fact (Piece.ras ≠ .fuse) := ⟨by decide⟩
  exact ((State.addPatch_leads (P := fun p => p ≠ .fuse) (.same s _) kind code failed spare).parts .fuse (by simp))

@[simp] theorem State.addPatch_twin (s : State) (kind : BitVec 4) (code : Byte) (failed spare : Word) :
    ((State.addPatch s kind code failed spare)).twin = s.twin := by
  have _ : Fact (Piece.ras ≠ .twin) := ⟨by decide⟩
  exact ((State.addPatch_leads (P := fun p => p ≠ .twin) (.same s _) kind code failed spare).parts .twin (by simp))

@[simp] theorem State.thermal_hbm (s : State)  :
    ((State.thermal s)).hbm = s.hbm := by
  have _ : Fact (Piece.ports ≠ .hbm) := ⟨by decide⟩
  have _ : Fact (Piece.ras ≠ .hbm) := ⟨by decide⟩
  have _ : Fact (Piece.pwr ≠ .hbm) := ⟨by decide⟩
  have _ : Fact (Piece.out ≠ .hbm) := ⟨by decide⟩
  exact ((State.thermal_leads (P := fun p => p ≠ .hbm) (.same s _) ).parts .hbm (by simp))

@[simp] theorem State.readyFrom_hbm (s : State) (before : State) :
    ((State.readyFrom s before)).hbm = s.hbm := by
  have _ : Fact (Piece.ports ≠ .hbm) := ⟨by decide⟩
  exact ((State.readyFrom_leads (P := fun p => p ≠ .hbm) (.same s _) before).parts .hbm (by simp))

@[simp] theorem State.readyFrom_mem (s : State) (before : State) :
    ((State.readyFrom s before)).mem = s.mem := by
  have _ : Fact (Piece.ports ≠ .mem) := ⟨by decide⟩
  exact ((State.readyFrom_leads (P := fun p => p ≠ .mem) (.same s _) before).parts .mem (by simp))

@[simp] theorem State.readyFrom_fields (s : State) (before : State) :
    ((State.readyFrom s before)).fields = s.fields := by
  have _ : Fact (Piece.ports ≠ .fields) := ⟨by decide⟩
  exact ((State.readyFrom_leads (P := fun p => p ≠ .fields) (.same s _) before).parts .fields (by simp))

@[simp] theorem State.readyFrom_sites (s : State) (before : State) :
    ((State.readyFrom s before)).sites = s.sites := by
  have _ : Fact (Piece.ports ≠ .sites) := ⟨by decide⟩
  exact ((State.readyFrom_leads (P := fun p => p ≠ .sites) (.same s _) before).parts .sites (by simp))

@[simp] theorem State.readyFrom_img (s : State) (before : State) :
    ((State.readyFrom s before)).img = s.img := by
  have _ : Fact (Piece.ports ≠ .img) := ⟨by decide⟩
  exact ((State.readyFrom_leads (P := fun p => p ≠ .img) (.same s _) before).parts .img (by simp))

@[simp] theorem State.readyFrom_net (s : State) (before : State) :
    ((State.readyFrom s before)).net = s.net := by
  have _ : Fact (Piece.ports ≠ .net) := ⟨by decide⟩
  exact ((State.readyFrom_leads (P := fun p => p ≠ .net) (.same s _) before).parts .net (by simp))

@[simp] theorem State.readyFrom_coh (s : State) (before : State) :
    ((State.readyFrom s before)).coh = s.coh := by
  have _ : Fact (Piece.ports ≠ .coh) := ⟨by decide⟩
  exact ((State.readyFrom_leads (P := fun p => p ≠ .coh) (.same s _) before).parts .coh (by simp))

@[simp] theorem State.readyFrom_fuse (s : State) (before : State) :
    ((State.readyFrom s before)).fuse = s.fuse := by
  have _ : Fact (Piece.ports ≠ .fuse) := ⟨by decide⟩
  exact ((State.readyFrom_leads (P := fun p => p ≠ .fuse) (.same s _) before).parts .fuse (by simp))

@[simp] theorem State.readyFrom_twin (s : State) (before : State) :
    ((State.readyFrom s before)).twin = s.twin := by
  have _ : Fact (Piece.ports ≠ .twin) := ⟨by decide⟩
  exact ((State.readyFrom_leads (P := fun p => p ≠ .twin) (.same s _) before).parts .twin (by simp))

@[simp] theorem State.readyFrom_stage (s : State) (before : State) :
    ((State.readyFrom s before)).stage = s.stage := by
  have _ : Fact (Piece.ports ≠ .boot) := ⟨by decide⟩
  exact ((State.readyFrom_leads (P := fun p => p ≠ .boot) (.same s _) before).parts .boot (by simp)).2.2.1

@[simp] theorem State.readyFrom_bootMs (s : State) (before : State) :
    ((State.readyFrom s before)).bootMs = s.bootMs := by
  have _ : Fact (Piece.ports ≠ .boot) := ⟨by decide⟩
  exact ((State.readyFrom_leads (P := fun p => p ≠ .boot) (.same s _) before).parts .boot (by simp)).2.2.2

@[simp] theorem State.readyFrom_lcs (s : State) (before : State) :
    ((State.readyFrom s before)).lcs = s.lcs := by
  have _ : Fact (Piece.ports ≠ .lcs) := ⟨by decide⟩
  exact ((State.readyFrom_leads (P := fun p => p ≠ .lcs) (.same s _) before).parts .lcs (by simp))

@[simp] theorem State.readyFrom_pwr (s : State) (before : State) :
    ((State.readyFrom s before)).pwr = s.pwr := by
  have _ : Fact (Piece.ports ≠ .pwr) := ⟨by decide⟩
  exact ((State.readyFrom_leads (P := fun p => p ≠ .pwr) (.same s _) before).parts .pwr (by simp))

@[simp] theorem State.readyFrom_arrays (s : State) (before : State) :
    ((State.readyFrom s before)).arrays = s.arrays := by
  have _ : Fact (Piece.ports ≠ .arrays) := ⟨by decide⟩
  exact ((State.readyFrom_leads (P := fun p => p ≠ .arrays) (.same s _) before).parts .arrays (by simp))

@[simp] theorem State.readyFrom_inReset (s : State) (before : State) :
    ((State.readyFrom s before)).inReset = s.inReset := by
  have _ : Fact (Piece.ports ≠ .boot) := ⟨by decide⟩
  exact ((State.readyFrom_leads (P := fun p => p ≠ .boot) (.same s _) before).parts .boot (by simp)).1

@[simp] theorem State.failStack_fields (s : State) (k : StackId) (code : Byte) :
    ((State.failStack s k code)).fields = s.fields := by
  have _ : Fact (Piece.hbm ≠ .fields) := ⟨by decide⟩
  have _ : Fact (Piece.net ≠ .fields) := ⟨by decide⟩
  have _ : Fact (Piece.ports ≠ .fields) := ⟨by decide⟩
  have _ : Fact (Piece.ras ≠ .fields) := ⟨by decide⟩
  have _ : Fact (Piece.pwr ≠ .fields) := ⟨by decide⟩
  have _ : Fact (Piece.out ≠ .fields) := ⟨by decide⟩
  exact ((State.failStack_leads (P := fun p => p ≠ .fields) (.same s _) k code).parts .fields (by simp))

@[simp] theorem State.enqueueWrites_mem (s : State) (x : List CodeWord) (stack : StackId) (pa : BitVec 52) :
    ((State.enqueueWrites s stack pa x)).mem = s.mem := by
  have _ : Fact (Piece.hbm ≠ .mem) := ⟨by decide⟩
  have _ : Fact (Piece.ras ≠ .mem) := ⟨by decide⟩
  have _ : Fact (Piece.twin ≠ .mem) := ⟨by decide⟩
  exact ((State.enqueueWrites_leads (P := fun p => p ≠ .mem) x stack pa (.same s _)).parts .mem (by simp))

@[simp] theorem State.enqueueWrites_net (s : State) (x : List CodeWord) (stack : StackId) (pa : BitVec 52) :
    ((State.enqueueWrites s stack pa x)).net = s.net := by
  have _ : Fact (Piece.hbm ≠ .net) := ⟨by decide⟩
  have _ : Fact (Piece.ras ≠ .net) := ⟨by decide⟩
  have _ : Fact (Piece.twin ≠ .net) := ⟨by decide⟩
  exact ((State.enqueueWrites_leads (P := fun p => p ≠ .net) x stack pa (.same s _)).parts .net (by simp))

@[simp] theorem State.putWords_net (s : State) (x : List CodeWord) (pa : BitVec 52) :
    ((State.putWords s pa x)).net = s.net := by
  have _ : Fact (Piece.hbm ≠ .net) := ⟨by decide⟩
  have _ : Fact (Piece.mem ≠ .net) := ⟨by decide⟩
  have _ : Fact (Piece.ras ≠ .net) := ⟨by decide⟩
  have _ : Fact (Piece.twin ≠ .net) := ⟨by decide⟩
  exact ((State.putWords_leads (P := fun p => p ≠ .net) x pa (.same s _)).parts .net (by simp))

@[simp] theorem State.putWords_fields (s : State) (x : List CodeWord) (pa : BitVec 52) :
    ((State.putWords s pa x)).fields = s.fields := by
  have _ : Fact (Piece.hbm ≠ .fields) := ⟨by decide⟩
  have _ : Fact (Piece.mem ≠ .fields) := ⟨by decide⟩
  have _ : Fact (Piece.ras ≠ .fields) := ⟨by decide⟩
  have _ : Fact (Piece.twin ≠ .fields) := ⟨by decide⟩
  exact ((State.putWords_leads (P := fun p => p ≠ .fields) x pa (.same s _)).parts .fields (by simp))

@[simp] theorem State.storeAt_hbm (s : State) (k : Nat) (w : StoredWord) :
    ((s.storeAt k w)).hbm = s.hbm := by
  have _ : Fact (Piece.mem ≠ .hbm) := ⟨by decide⟩
  have _ : Fact (Piece.ras ≠ .hbm) := ⟨by decide⟩
  exact ((State.storeAt_leads (P := fun p => p ≠ .hbm) (.same s _) k w).parts .hbm (by simp))

@[simp] theorem State.atomicLoc_net (s : State) (g : Agent) (pa : BitVec 52) (l : Loc) (op : AtomicOp) (off operand compare : Nat) (marked : Bool) (flips : BitVec 544) :
    ((State.atomicLoc s g pa l op off operand compare marked flips).2).net = s.net := by
  have _ : Fact (Piece.fields ≠ .net) := ⟨by decide⟩
  have _ : Fact (Piece.hbm ≠ .net) := ⟨by decide⟩
  have _ : Fact (Piece.mem ≠ .net) := ⟨by decide⟩
  have _ : Fact (Piece.ras ≠ .net) := ⟨by decide⟩
  have _ : Fact (Piece.twin ≠ .net) := ⟨by decide⟩
  exact ((State.atomicLoc_leads (P := fun p => p ≠ .net) (.same s _) g pa l op off operand compare marked flips).parts .net (by simp))

@[simp] theorem State.rewriteStrip_fuse (s : State) (k : StackId) (pc : PcId) (strip : Nat) :
    ((State.rewriteStrip s k pc strip)).fuse = s.fuse := by
  have _ : Fact (Piece.fields ≠ .fuse) := ⟨by decide⟩
  have _ : Fact (Piece.hbm ≠ .fuse) := ⟨by decide⟩
  have _ : Fact (Piece.mem ≠ .fuse) := ⟨by decide⟩
  have _ : Fact (Piece.ras ≠ .fuse) := ⟨by decide⟩
  exact ((State.rewriteStrip_leads (P := fun p => p ≠ .fuse) (.same s _) k pc strip).parts .fuse (by simp))

@[simp] theorem State.mirror_hbm (s : State) (pa : BitVec 52) (w : CodeWord) :
    ((State.mirror s pa w)).hbm = s.hbm := by
  have _ : Fact (Piece.twin ≠ .hbm) := ⟨by decide⟩
  exact ((State.mirror_leads (P := fun p => p ≠ .hbm) (.same s _) pa w).parts .hbm (by simp))

@[simp] theorem State.setSink_hbm (s : State) (f : FieldId) (ni : NiId) (b : Bool) :
    ((State.setSink s f ni b)).hbm = s.hbm := by
  have _ : Fact (Piece.net ≠ .hbm) := ⟨by decide⟩
  exact ((State.setSink_leads (P := fun p => p ≠ .hbm) (.same s _) f ni b).parts .hbm (by simp))

@[simp] theorem State.setSink_ras (s : State) (f : FieldId) (ni : NiId) (b : Bool) :
    ((State.setSink s f ni b)).ras = s.ras := by
  have _ : Fact (Piece.net ≠ .ras) := ⟨by decide⟩
  exact ((State.setSink_leads (P := fun p => p ≠ .ras) (.same s _) f ni b).parts .ras (by simp))

@[simp] theorem State.setSink_mem (s : State) (f : FieldId) (ni : NiId) (b : Bool) :
    ((State.setSink s f ni b)).mem = s.mem := by
  have _ : Fact (Piece.net ≠ .mem) := ⟨by decide⟩
  exact ((State.setSink_leads (P := fun p => p ≠ .mem) (.same s _) f ni b).parts .mem (by simp))

@[simp] theorem State.setSink_fields (s : State) (f : FieldId) (ni : NiId) (b : Bool) :
    ((State.setSink s f ni b)).fields = s.fields := by
  have _ : Fact (Piece.net ≠ .fields) := ⟨by decide⟩
  exact ((State.setSink_leads (P := fun p => p ≠ .fields) (.same s _) f ni b).parts .fields (by simp))

@[simp] theorem State.setSink_sites (s : State) (f : FieldId) (ni : NiId) (b : Bool) :
    ((State.setSink s f ni b)).sites = s.sites := by
  have _ : Fact (Piece.net ≠ .sites) := ⟨by decide⟩
  exact ((State.setSink_leads (P := fun p => p ≠ .sites) (.same s _) f ni b).parts .sites (by simp))

@[simp] theorem State.readCode_coh (s : State) (g : Agent) (pa0 : BitVec 52) (flips : BitVec 544) :
    ((State.readCode s g pa0 flips).2).coh = s.coh := by
  have _ : Fact (Piece.fields ≠ .coh) := ⟨by decide⟩
  have _ : Fact (Piece.hbm ≠ .coh) := ⟨by decide⟩
  have _ : Fact (Piece.mem ≠ .coh) := ⟨by decide⟩
  have _ : Fact (Piece.ras ≠ .coh) := ⟨by decide⟩
  exact ((State.readCode_leads (P := fun p => p ≠ .coh) (.same s _) g pa0 flips).parts .coh (by simp))

@[simp] theorem State.readCode_net (s : State) (g : Agent) (pa0 : BitVec 52) (flips : BitVec 544) :
    ((State.readCode s g pa0 flips).2).net = s.net := by
  have _ : Fact (Piece.fields ≠ .net) := ⟨by decide⟩
  have _ : Fact (Piece.hbm ≠ .net) := ⟨by decide⟩
  have _ : Fact (Piece.mem ≠ .net) := ⟨by decide⟩
  have _ : Fact (Piece.ras ≠ .net) := ⟨by decide⟩
  exact ((State.readCode_leads (P := fun p => p ≠ .net) (.same s _) g pa0 flips).parts .net (by simp))

@[simp] theorem State.readCode_sclk (s : State) (g : Agent) (pa0 : BitVec 52) (flips : BitVec 544) :
    ((State.readCode s g pa0 flips).2).sclk = s.sclk := by
  have _ : Fact (Piece.fields ≠ .sclk) := ⟨by decide⟩
  have _ : Fact (Piece.hbm ≠ .sclk) := ⟨by decide⟩
  have _ : Fact (Piece.mem ≠ .sclk) := ⟨by decide⟩
  have _ : Fact (Piece.ras ≠ .sclk) := ⟨by decide⟩
  exact ((State.readCode_leads (P := fun p => p ≠ .sclk) (.same s _) g pa0 flips).parts .sclk (by simp))

@[simp] theorem State.readCode_pnl (s : State) (g : Agent) (pa0 : BitVec 52) (flips : BitVec 544) :
    ((State.readCode s g pa0 flips).2).pnl = s.pnl := by
  have _ : Fact (Piece.fields ≠ .pnl) := ⟨by decide⟩
  have _ : Fact (Piece.hbm ≠ .pnl) := ⟨by decide⟩
  have _ : Fact (Piece.mem ≠ .pnl) := ⟨by decide⟩
  have _ : Fact (Piece.ras ≠ .pnl) := ⟨by decide⟩
  exact ((State.readCode_leads (P := fun p => p ≠ .pnl) (.same s _) g pa0 flips).parts .pnl (by simp))

@[simp] theorem State.readCode_twin (s : State) (g : Agent) (pa0 : BitVec 52) (flips : BitVec 544) :
    ((State.readCode s g pa0 flips).2).twin = s.twin := by
  have _ : Fact (Piece.fields ≠ .twin) := ⟨by decide⟩
  have _ : Fact (Piece.hbm ≠ .twin) := ⟨by decide⟩
  have _ : Fact (Piece.mem ≠ .twin) := ⟨by decide⟩
  have _ : Fact (Piece.ras ≠ .twin) := ⟨by decide⟩
  exact ((State.readCode_leads (P := fun p => p ≠ .twin) (.same s _) g pa0 flips).parts .twin (by simp))

@[simp] theorem State.writeCode_coh (s : State) (g : Agent) (pa0 : BitVec 52) (w : CodeWord) :
    ((State.writeCode s g pa0 w).2).coh = s.coh := by
  have _ : Fact (Piece.hbm ≠ .coh) := ⟨by decide⟩
  have _ : Fact (Piece.mem ≠ .coh) := ⟨by decide⟩
  have _ : Fact (Piece.ras ≠ .coh) := ⟨by decide⟩
  have _ : Fact (Piece.twin ≠ .coh) := ⟨by decide⟩
  exact ((State.writeCode_leads (P := fun p => p ≠ .coh) (.same s _) g pa0 w).parts .coh (by simp))

@[simp] theorem State.writeCode_net (s : State) (g : Agent) (pa0 : BitVec 52) (w : CodeWord) :
    ((State.writeCode s g pa0 w).2).net = s.net := by
  have _ : Fact (Piece.hbm ≠ .net) := ⟨by decide⟩
  have _ : Fact (Piece.mem ≠ .net) := ⟨by decide⟩
  have _ : Fact (Piece.ras ≠ .net) := ⟨by decide⟩
  have _ : Fact (Piece.twin ≠ .net) := ⟨by decide⟩
  exact ((State.writeCode_leads (P := fun p => p ≠ .net) (.same s _) g pa0 w).parts .net (by simp))

@[simp] theorem State.writeCode_sclk (s : State) (g : Agent) (pa0 : BitVec 52) (w : CodeWord) :
    ((State.writeCode s g pa0 w).2).sclk = s.sclk := by
  have _ : Fact (Piece.hbm ≠ .sclk) := ⟨by decide⟩
  have _ : Fact (Piece.mem ≠ .sclk) := ⟨by decide⟩
  have _ : Fact (Piece.ras ≠ .sclk) := ⟨by decide⟩
  have _ : Fact (Piece.twin ≠ .sclk) := ⟨by decide⟩
  exact ((State.writeCode_leads (P := fun p => p ≠ .sclk) (.same s _) g pa0 w).parts .sclk (by simp))

@[simp] theorem State.writeCode_pnl (s : State) (g : Agent) (pa0 : BitVec 52) (w : CodeWord) :
    ((State.writeCode s g pa0 w).2).pnl = s.pnl := by
  have _ : Fact (Piece.hbm ≠ .pnl) := ⟨by decide⟩
  have _ : Fact (Piece.mem ≠ .pnl) := ⟨by decide⟩
  have _ : Fact (Piece.ras ≠ .pnl) := ⟨by decide⟩
  have _ : Fact (Piece.twin ≠ .pnl) := ⟨by decide⟩
  exact ((State.writeCode_leads (P := fun p => p ≠ .pnl) (.same s _) g pa0 w).parts .pnl (by simp))

@[simp] theorem State.atomicAt_coh (s : State) (g : Agent) (pa0 : BitVec 52) (op : AtomicOp) (off operand compare : Nat) (marked : Bool) (flips : BitVec 544) :
    ((State.atomicAt s g pa0 op off operand compare marked flips).2).coh = s.coh := by
  have _ : Fact (Piece.fields ≠ .coh) := ⟨by decide⟩
  have _ : Fact (Piece.hbm ≠ .coh) := ⟨by decide⟩
  have _ : Fact (Piece.mem ≠ .coh) := ⟨by decide⟩
  have _ : Fact (Piece.ras ≠ .coh) := ⟨by decide⟩
  have _ : Fact (Piece.twin ≠ .coh) := ⟨by decide⟩
  exact ((State.atomicAt_leads (P := fun p => p ≠ .coh) (.same s _) g pa0 op off operand compare marked flips).parts .coh (by simp))

@[simp] theorem State.atomicAt_net (s : State) (g : Agent) (pa0 : BitVec 52) (op : AtomicOp) (off operand compare : Nat) (marked : Bool) (flips : BitVec 544) :
    ((State.atomicAt s g pa0 op off operand compare marked flips).2).net = s.net := by
  have _ : Fact (Piece.fields ≠ .net) := ⟨by decide⟩
  have _ : Fact (Piece.hbm ≠ .net) := ⟨by decide⟩
  have _ : Fact (Piece.mem ≠ .net) := ⟨by decide⟩
  have _ : Fact (Piece.ras ≠ .net) := ⟨by decide⟩
  have _ : Fact (Piece.twin ≠ .net) := ⟨by decide⟩
  exact ((State.atomicAt_leads (P := fun p => p ≠ .net) (.same s _) g pa0 op off operand compare marked flips).parts .net (by simp))

@[simp] theorem State.tellCmp_coh (s : State) (a : AgentId) (src : CohFrom) (line : Nat) (st : AgentLine) (w : Option CodeWord) :
    ((State.tellCmp s a src line st w)).coh = s.coh := by
  have _ : Fact (Piece.out ≠ .coh) := ⟨by decide⟩
  exact ((State.tellCmp_leads (P := fun p => p ≠ .coh) (.same s _) a src line st w).parts .coh (by simp))

@[simp] theorem State.tellCmp_net (s : State) (a : AgentId) (src : CohFrom) (line : Nat) (st : AgentLine) (w : Option CodeWord) :
    ((State.tellCmp s a src line st w)).net = s.net := by
  have _ : Fact (Piece.out ≠ .net) := ⟨by decide⟩
  exact ((State.tellCmp_leads (P := fun p => p ≠ .net) (.same s _) a src line st w).parts .net (by simp))

@[simp] theorem State.tellCmp_mem (s : State) (a : AgentId) (src : CohFrom) (line : Nat) (st : AgentLine) (w : Option CodeWord) :
    ((State.tellCmp s a src line st w)).mem = s.mem := by
  have _ : Fact (Piece.out ≠ .mem) := ⟨by decide⟩
  exact ((State.tellCmp_leads (P := fun p => p ≠ .mem) (.same s _) a src line st w).parts .mem (by simp))

@[simp] theorem State.tellCmp_ras (s : State) (a : AgentId) (src : CohFrom) (line : Nat) (st : AgentLine) (w : Option CodeWord) :
    ((State.tellCmp s a src line st w)).ras = s.ras := by
  have _ : Fact (Piece.out ≠ .ras) := ⟨by decide⟩
  exact ((State.tellCmp_leads (P := fun p => p ≠ .ras) (.same s _) a src line st w).parts .ras (by simp))

@[simp] theorem State.tellCmp_ports (s : State) (a : AgentId) (src : CohFrom) (line : Nat) (st : AgentLine) (w : Option CodeWord) :
    ((State.tellCmp s a src line st w)).ports = s.ports := by
  have _ : Fact (Piece.out ≠ .ports) := ⟨by decide⟩
  exact ((State.tellCmp_leads (P := fun p => p ≠ .ports) (.same s _) a src line st w).parts .ports (by simp))

@[simp] theorem State.tellCmp_pnl (s : State) (a : AgentId) (src : CohFrom) (line : Nat) (st : AgentLine) (w : Option CodeWord) :
    ((State.tellCmp s a src line st w)).pnl = s.pnl := by
  have _ : Fact (Piece.out ≠ .pnl) := ⟨by decide⟩
  exact ((State.tellCmp_leads (P := fun p => p ≠ .pnl) (.same s _) a src line st w).parts .pnl (by simp))

@[simp] theorem State.tellSnoop_coh (s : State) (a : AgentId) (line : Nat) (k : SnoopKind) :
    ((State.tellSnoop s a line k)).coh = s.coh := by
  have _ : Fact (Piece.out ≠ .coh) := ⟨by decide⟩
  exact ((State.tellSnoop_leads (P := fun p => p ≠ .coh) (.same s _) a line k).parts .coh (by simp))

@[simp] theorem State.tellSnoop_net (s : State) (a : AgentId) (line : Nat) (k : SnoopKind) :
    ((State.tellSnoop s a line k)).net = s.net := by
  have _ : Fact (Piece.out ≠ .net) := ⟨by decide⟩
  exact ((State.tellSnoop_leads (P := fun p => p ≠ .net) (.same s _) a line k).parts .net (by simp))

@[simp] theorem State.tellSnoop_mem (s : State) (a : AgentId) (line : Nat) (k : SnoopKind) :
    ((State.tellSnoop s a line k)).mem = s.mem := by
  have _ : Fact (Piece.out ≠ .mem) := ⟨by decide⟩
  exact ((State.tellSnoop_leads (P := fun p => p ≠ .mem) (.same s _) a line k).parts .mem (by simp))

@[simp] theorem State.tellSnoop_ras (s : State) (a : AgentId) (line : Nat) (k : SnoopKind) :
    ((State.tellSnoop s a line k)).ras = s.ras := by
  have _ : Fact (Piece.out ≠ .ras) := ⟨by decide⟩
  exact ((State.tellSnoop_leads (P := fun p => p ≠ .ras) (.same s _) a line k).parts .ras (by simp))

@[simp] theorem State.tellSnoop_ports (s : State) (a : AgentId) (line : Nat) (k : SnoopKind) :
    ((State.tellSnoop s a line k)).ports = s.ports := by
  have _ : Fact (Piece.out ≠ .ports) := ⟨by decide⟩
  exact ((State.tellSnoop_leads (P := fun p => p ≠ .ports) (.same s _) a line k).parts .ports (by simp))

@[simp] theorem State.tellSnoop_pnl (s : State) (a : AgentId) (line : Nat) (k : SnoopKind) :
    ((State.tellSnoop s a line k)).pnl = s.pnl := by
  have _ : Fact (Piece.out ≠ .pnl) := ⟨by decide⟩
  exact ((State.tellSnoop_leads (P := fun p => p ≠ .pnl) (.same s _) a line k).parts .pnl (by simp))

@[simp] theorem State.tellWbAck_coh (s : State) (a : AgentId) (src : CohFrom) (line : Nat) :
    ((State.tellWbAck s a src line)).coh = s.coh := by
  have _ : Fact (Piece.out ≠ .coh) := ⟨by decide⟩
  exact ((State.tellWbAck_leads (P := fun p => p ≠ .coh) (.same s _) a src line).parts .coh (by simp))

@[simp] theorem State.tellWbAck_net (s : State) (a : AgentId) (src : CohFrom) (line : Nat) :
    ((State.tellWbAck s a src line)).net = s.net := by
  have _ : Fact (Piece.out ≠ .net) := ⟨by decide⟩
  exact ((State.tellWbAck_leads (P := fun p => p ≠ .net) (.same s _) a src line).parts .net (by simp))

@[simp] theorem State.tellWbAck_mem (s : State) (a : AgentId) (src : CohFrom) (line : Nat) :
    ((State.tellWbAck s a src line)).mem = s.mem := by
  have _ : Fact (Piece.out ≠ .mem) := ⟨by decide⟩
  exact ((State.tellWbAck_leads (P := fun p => p ≠ .mem) (.same s _) a src line).parts .mem (by simp))

@[simp] theorem State.tellWbAck_ras (s : State) (a : AgentId) (src : CohFrom) (line : Nat) :
    ((State.tellWbAck s a src line)).ras = s.ras := by
  have _ : Fact (Piece.out ≠ .ras) := ⟨by decide⟩
  exact ((State.tellWbAck_leads (P := fun p => p ≠ .ras) (.same s _) a src line).parts .ras (by simp))

@[simp] theorem State.tellWbAck_ports (s : State) (a : AgentId) (src : CohFrom) (line : Nat) :
    ((State.tellWbAck s a src line)).ports = s.ports := by
  have _ : Fact (Piece.out ≠ .ports) := ⟨by decide⟩
  exact ((State.tellWbAck_leads (P := fun p => p ≠ .ports) (.same s _) a src line).parts .ports (by simp))

@[simp] theorem State.tellWbAck_pnl (s : State) (a : AgentId) (src : CohFrom) (line : Nat) :
    ((State.tellWbAck s a src line)).pnl = s.pnl := by
  have _ : Fact (Piece.out ≠ .pnl) := ⟨by decide⟩
  exact ((State.tellWbAck_leads (P := fun p => p ≠ .pnl) (.same s _) a src line).parts .pnl (by simp))

@[simp] theorem State.tellHold_coh (s : State) (a : AgentId) (src : CohFrom) (line : Nat) :
    ((State.tellHold s a src line)).coh = s.coh := by
  have _ : Fact (Piece.out ≠ .coh) := ⟨by decide⟩
  exact ((State.tellHold_leads (P := fun p => p ≠ .coh) (.same s _) a src line).parts .coh (by simp))

@[simp] theorem State.tellHold_net (s : State) (a : AgentId) (src : CohFrom) (line : Nat) :
    ((State.tellHold s a src line)).net = s.net := by
  have _ : Fact (Piece.out ≠ .net) := ⟨by decide⟩
  exact ((State.tellHold_leads (P := fun p => p ≠ .net) (.same s _) a src line).parts .net (by simp))

@[simp] theorem State.tellHold_mem (s : State) (a : AgentId) (src : CohFrom) (line : Nat) :
    ((State.tellHold s a src line)).mem = s.mem := by
  have _ : Fact (Piece.out ≠ .mem) := ⟨by decide⟩
  exact ((State.tellHold_leads (P := fun p => p ≠ .mem) (.same s _) a src line).parts .mem (by simp))

@[simp] theorem State.homeTimeout_coh (s : State) (f : FieldId) (a : AgentId) :
    ((State.homeTimeout s f a)).coh = s.coh := by
  have _ : Fact (Piece.net ≠ .coh) := ⟨by decide⟩
  have _ : Fact (Piece.ras ≠ .coh) := ⟨by decide⟩
  have _ : Fact (Piece.out ≠ .coh) := ⟨by decide⟩
  exact ((State.homeTimeout_leads (P := fun p => p ≠ .coh) (.same s _) f a).parts .coh (by simp))

@[simp] theorem State.noteTimeout_coh (s : State) (f : FieldId) (ni : NiId) :
    ((State.noteTimeout s f ni)).coh = s.coh := by
  have _ : Fact (Piece.net ≠ .coh) := ⟨by decide⟩
  exact ((State.noteTimeout_leads (P := fun p => p ≠ .coh) (.same s _) f ni).parts .coh (by simp))

@[simp] theorem State.noteTimeout_sites (s : State) (f : FieldId) (ni : NiId) :
    ((State.noteTimeout s f ni)).sites = s.sites := by
  have _ : Fact (Piece.net ≠ .sites) := ⟨by decide⟩
  exact ((State.noteTimeout_leads (P := fun p => p ≠ .sites) (.same s _) f ni).parts .sites (by simp))

@[simp] theorem State.raiseMsix_coh (s : State) (p : PortId) (v : VfId) (vector : BitVec 5) :
    ((State.raiseMsix s p v vector)).coh = s.coh := by
  have _ : Fact (Piece.ports ≠ .coh) := ⟨by decide⟩
  exact ((State.raiseMsix_leads (P := fun p => p ≠ .coh) (.same s _) p v vector).parts .coh (by simp))

@[simp] theorem State.raiseMsix_pnl (s : State) (p : PortId) (v : VfId) (vector : BitVec 5) :
    ((State.raiseMsix s p v vector)).pnl = s.pnl := by
  have _ : Fact (Piece.ports ≠ .pnl) := ⟨by decide⟩
  exact ((State.raiseMsix_leads (P := fun p => p ≠ .pnl) (.same s _) p v vector).parts .pnl (by simp))

@[simp] theorem State.irq_coh (s : State) (b : Nat) :
    ((State.irq s b)).coh = s.coh := by
  have _ : Fact (Piece.ports ≠ .coh) := ⟨by decide⟩
  exact ((State.irq_leads (P := fun p => p ≠ .coh) (.same s _) b).parts .coh (by simp))

@[simp] theorem State.irq_pnl (s : State) (b : Nat) :
    ((State.irq s b)).pnl = s.pnl := by
  have _ : Fact (Piece.ports ≠ .pnl) := ⟨by decide⟩
  exact ((State.irq_leads (P := fun p => p ≠ .pnl) (.same s _) b).parts .pnl (by simp))

@[simp] theorem State.irq_sites (s : State) (b : Nat) :
    ((State.irq s b)).sites = s.sites := by
  have _ : Fact (Piece.ports ≠ .sites) := ⟨by decide⟩
  exact ((State.irq_leads (P := fun p => p ≠ .sites) (.same s _) b).parts .sites (by simp))

@[simp] theorem State.irq_img (s : State) (b : Nat) :
    ((State.irq s b)).img = s.img := by
  have _ : Fact (Piece.ports ≠ .img) := ⟨by decide⟩
  exact ((State.irq_leads (P := fun p => p ≠ .img) (.same s _) b).parts .img (by simp))

@[simp] theorem State.irq_fuse (s : State) (b : Nat) :
    ((State.irq s b)).fuse = s.fuse := by
  have _ : Fact (Piece.ports ≠ .fuse) := ⟨by decide⟩
  exact ((State.irq_leads (P := fun p => p ≠ .fuse) (.same s _) b).parts .fuse (by simp))

@[simp] theorem State.irq_mem (s : State) (b : Nat) :
    ((State.irq s b)).mem = s.mem := by
  have _ : Fact (Piece.ports ≠ .mem) := ⟨by decide⟩
  exact ((State.irq_leads (P := fun p => p ≠ .mem) (.same s _) b).parts .mem (by simp))

@[simp] theorem State.irq_lcs (s : State) (b : Nat) :
    ((State.irq s b)).lcs = s.lcs := by
  have _ : Fact (Piece.ports ≠ .lcs) := ⟨by decide⟩
  exact ((State.irq_leads (P := fun p => p ≠ .lcs) (.same s _) b).parts .lcs (by simp))

@[simp] theorem State.irq_twin (s : State) (b : Nat) :
    ((State.irq s b)).twin = s.twin := by
  have _ : Fact (Piece.ports ≠ .twin) := ⟨by decide⟩
  exact ((State.irq_leads (P := fun p => p ≠ .twin) (.same s _) b).parts .twin (by simp))

@[simp] theorem State.irq_pwr (s : State) (b : Nat) :
    ((State.irq s b)).pwr = s.pwr := by
  have _ : Fact (Piece.ports ≠ .pwr) := ⟨by decide⟩
  exact ((State.irq_leads (P := fun p => p ≠ .pwr) (.same s _) b).parts .pwr (by simp))

@[simp] theorem State.killAgent_sites (s : State) (a : AgentId) :
    ((State.killAgent s a)).sites = s.sites := by
  have _ : Fact (Piece.fields ≠ .sites) := ⟨by decide⟩
  have _ : Fact (Piece.hbm ≠ .sites) := ⟨by decide⟩
  have _ : Fact (Piece.mem ≠ .sites) := ⟨by decide⟩
  have _ : Fact (Piece.net ≠ .sites) := ⟨by decide⟩
  have _ : Fact (Piece.coh ≠ .sites) := ⟨by decide⟩
  have _ : Fact (Piece.ras ≠ .sites) := ⟨by decide⟩
  have _ : Fact (Piece.twin ≠ .sites) := ⟨by decide⟩
  have _ : Fact (Piece.out ≠ .sites) := ⟨by decide⟩
  exact ((State.killAgent_leads (P := fun p => p ≠ .sites) (.same s _) a).parts .sites (by simp))

@[simp] theorem State.haltInvs_sites (s : State) (status : Byte) (p : QRef → Taken → Bool) :
    ((State.haltInvs s status p)).sites = s.sites := by
  have _ : Fact (Piece.arrays ≠ .sites) := ⟨by decide⟩
  have _ : Fact (Piece.ports ≠ .sites) := ⟨by decide⟩
  have _ : Fact (Piece.pnl ≠ .sites) := ⟨by decide⟩
  exact ((State.haltInvs_leads (P := fun p => p ≠ .sites) (.same s _) status p).parts .sites (by simp))

@[simp] theorem State.siteSevere_sites (s : State) (n : SiteId) (code : Byte) :
    ((State.siteSevere s n code)).sites = s.sites := by
  have _ : Fact (Piece.ports ≠ .sites) := ⟨by decide⟩
  have _ : Fact (Piece.ras ≠ .sites) := ⟨by decide⟩
  have _ : Fact (Piece.out ≠ .sites) := ⟨by decide⟩
  exact ((State.siteSevere_leads (P := fun p => p ≠ .sites) (.same s _) n code).parts .sites (by simp))

@[simp] theorem State.siteSevere_clk (s : State) (n : SiteId) (code : Byte) :
    ((State.siteSevere s n code)).clk = s.clk := by
  have _ : Fact (Piece.ports ≠ .clk) := ⟨by decide⟩
  have _ : Fact (Piece.ras ≠ .clk) := ⟨by decide⟩
  have _ : Fact (Piece.out ≠ .clk) := ⟨by decide⟩
  exact ((State.siteSevere_leads (P := fun p => p ≠ .clk) (.same s _) n code).parts .clk (by simp))

@[simp] theorem State.tellSite_sites (s : State) (n : SiteId) (code : Byte) (payload : Nat) :
    ((State.tellSite s n code payload)).sites = s.sites := by
  have _ : Fact (Piece.out ≠ .sites) := ⟨by decide⟩
  exact ((State.tellSite_leads (P := fun p => p ≠ .sites) (.same s _) n code payload).parts .sites (by simp))

@[simp] theorem State.refuseTxn_sites (s : State) (t : Txn) (status : BitVec 3) :
    ((State.refuseTxn s t status)).sites = s.sites := by
  have _ : Fact (Piece.net ≠ .sites) := ⟨by decide⟩
  exact ((State.refuseTxn_leads (P := fun p => p ≠ .sites) (.same s _) t status).parts .sites (by simp))

@[simp] theorem State.refuseTxn_twin (s : State) (t : Txn) (status : BitVec 3) :
    ((State.refuseTxn s t status)).twin = s.twin := by
  have _ : Fact (Piece.net ≠ .twin) := ⟨by decide⟩
  exact ((State.refuseTxn_leads (P := fun p => p ≠ .twin) (.same s _) t status).parts .twin (by simp))

@[simp] theorem State.sendAccept_sites (s : State) (n : SiteId) :
    ((State.sendAccept s n)).sites = s.sites := by
  have _ : Fact (Piece.out ≠ .sites) := ⟨by decide⟩
  exact ((State.sendAccept_leads (P := fun p => p ≠ .sites) (.same s _) n).parts .sites (by simp))

@[simp] theorem State.noteSite_sites (s : State) (n : SiteId) (code : Byte) :
    ((State.noteSite s n code)).sites = s.sites := by
  have _ : Fact (Piece.ras ≠ .sites) := ⟨by decide⟩
  have _ : Fact (Piece.out ≠ .sites) := ⟨by decide⟩
  exact ((State.noteSite_leads (P := fun p => p ≠ .sites) (.same s _) n code).parts .sites (by simp))

@[simp] theorem State.noteSite_net (s : State) (n : SiteId) (code : Byte) :
    ((State.noteSite s n code)).net = s.net := by
  have _ : Fact (Piece.ras ≠ .net) := ⟨by decide⟩
  have _ : Fact (Piece.out ≠ .net) := ⟨by decide⟩
  exact ((State.noteSite_leads (P := fun p => p ≠ .net) (.same s _) n code).parts .net (by simp))

@[simp] theorem State.noteSite_img (s : State) (n : SiteId) (code : Byte) :
    ((State.noteSite s n code)).img = s.img := by
  have _ : Fact (Piece.ras ≠ .img) := ⟨by decide⟩
  have _ : Fact (Piece.out ≠ .img) := ⟨by decide⟩
  exact ((State.noteSite_leads (P := fun p => p ≠ .img) (.same s _) n code).parts .img (by simp))

@[simp] theorem State.noteSite_pins (s : State) (n : SiteId) (code : Byte) :
    ((State.noteSite s n code)).pins = s.pins := by
  have _ : Fact (Piece.ras ≠ .pins) := ⟨by decide⟩
  have _ : Fact (Piece.out ≠ .pins) := ⟨by decide⟩
  exact ((State.noteSite_leads (P := fun p => p ≠ .pins) (.same s _) n code).parts .pins (by simp))

@[simp] theorem State.freeVf_sites (s : State) (p : PanelId) :
    ((State.freeVf s p)).sites = s.sites := by
  have _ : Fact (Piece.ports ≠ .sites) := ⟨by decide⟩
  exact ((State.freeVf_leads (P := fun p => p ≠ .sites) (.same s _) p).parts .sites (by simp))

@[simp] theorem State.freeVf_img (s : State) (p : PanelId) :
    ((State.freeVf s p)).img = s.img := by
  have _ : Fact (Piece.ports ≠ .img) := ⟨by decide⟩
  exact ((State.freeVf_leads (P := fun p => p ≠ .img) (.same s _) p).parts .img (by simp))

@[simp] theorem State.freeTwin_sites (s : State) (p : PanelId) :
    ((State.freeTwin s p)).sites = s.sites := by
  have _ : Fact (Piece.pnl ≠ .sites) := ⟨by decide⟩
  have _ : Fact (Piece.twin ≠ .sites) := ⟨by decide⟩
  exact ((State.freeTwin_leads (P := fun p => p ≠ .sites) (.same s _) p).parts .sites (by simp))

@[simp] theorem State.freeTwin_img (s : State) (p : PanelId) :
    ((State.freeTwin s p)).img = s.img := by
  have _ : Fact (Piece.pnl ≠ .img) := ⟨by decide⟩
  have _ : Fact (Piece.twin ≠ .img) := ⟨by decide⟩
  exact ((State.freeTwin_leads (P := fun p => p ≠ .img) (.same s _) p).parts .img (by simp))

@[simp] theorem State.dropKeys_sites (s : State) (p : PanelId) :
    ((State.dropKeys s p)).sites = s.sites := by
  have _ : Fact (Piece.pnl ≠ .sites) := ⟨by decide⟩
  exact ((State.dropKeys_leads (P := fun p => p ≠ .sites) (.same s _) p).parts .sites (by simp))

@[simp] theorem State.dropKeys_img (s : State) (p : PanelId) :
    ((State.dropKeys s p)).img = s.img := by
  have _ : Fact (Piece.pnl ≠ .img) := ⟨by decide⟩
  exact ((State.dropKeys_leads (P := fun p => p ≠ .img) (.same s _) p).parts .img (by simp))

@[simp] theorem State.clearCredit_img (s : State) (n : SiteId) (b : Binding) :
    ((State.clearCredit s n b)).img = s.img := by
  have _ : Fact (Piece.sites ≠ .img) := ⟨by decide⟩
  exact ((State.clearCredit_leads (P := fun p => p ≠ .img) (.same s _) n b).parts .img (by simp))

@[simp] theorem State.noteRead_img (s : State) (x : HostRead) (p : PortId) :
    ((State.noteRead s p x)).img = s.img := by
  have _ : Fact (Piece.ras ≠ .img) := ⟨by decide⟩
  have _ : Fact (Piece.out ≠ .img) := ⟨by decide⟩
  exact ((State.noteRead_leads (P := fun p => p ≠ .img) x p (.same s _)).parts .img (by simp))

@[simp] theorem State.noteRead_pnl (s : State) (x : HostRead) (p : PortId) :
    ((State.noteRead s p x)).pnl = s.pnl := by
  have _ : Fact (Piece.ras ≠ .pnl) := ⟨by decide⟩
  have _ : Fact (Piece.out ≠ .pnl) := ⟨by decide⟩
  exact ((State.noteRead_leads (P := fun p => p ≠ .pnl) x p (.same s _)).parts .pnl (by simp))

@[simp] theorem State.imageEnd_sites (s : State) (st : BitVec 4) (e : ImgErr) :
    ((State.imageEnd s st e)).sites = s.sites := by
  have _ : Fact (Piece.ports ≠ .sites) := ⟨by decide⟩
  have _ : Fact (Piece.img ≠ .sites) := ⟨by decide⟩
  exact ((State.imageEnd_leads (P := fun p => p ≠ .sites) (.same s _) st e).parts .sites (by simp))

@[simp] theorem State.imageEnd_net (s : State) (st : BitVec 4) (e : ImgErr) :
    ((State.imageEnd s st e)).net = s.net := by
  have _ : Fact (Piece.ports ≠ .net) := ⟨by decide⟩
  have _ : Fact (Piece.img ≠ .net) := ⟨by decide⟩
  exact ((State.imageEnd_leads (P := fun p => p ≠ .net) (.same s _) st e).parts .net (by simp))

@[simp] theorem State.imageEnd_coh (s : State) (st : BitVec 4) (e : ImgErr) :
    ((State.imageEnd s st e)).coh = s.coh := by
  have _ : Fact (Piece.ports ≠ .coh) := ⟨by decide⟩
  have _ : Fact (Piece.img ≠ .coh) := ⟨by decide⟩
  exact ((State.imageEnd_leads (P := fun p => p ≠ .coh) (.same s _) st e).parts .coh (by simp))

@[simp] theorem State.imageEnd_pnl (s : State) (st : BitVec 4) (e : ImgErr) :
    ((State.imageEnd s st e)).pnl = s.pnl := by
  have _ : Fact (Piece.ports ≠ .pnl) := ⟨by decide⟩
  have _ : Fact (Piece.img ≠ .pnl) := ⟨by decide⟩
  exact ((State.imageEnd_leads (P := fun p => p ≠ .pnl) (.same s _) st e).parts .pnl (by simp))

@[simp] theorem State.issueRead_img (s : State) (p : PortId) (v : Option VfId) (use : ReadUse) (addr : DWord) (len : Nat) :
    ((State.issueRead s p v use addr len)).img = s.img := by
  have _ : Fact (Piece.ports ≠ .img) := ⟨by decide⟩
  have _ : Fact (Piece.out ≠ .img) := ⟨by decide⟩
  exact ((State.issueRead_leads (P := fun p => p ≠ .img) (.same s _) p v use addr len).parts .img (by simp))

@[simp] theorem State.imageDone_sites (s : State)  :
    ((State.imageDone s)).sites = s.sites := by
  have _ : Fact (Piece.ports ≠ .sites) := ⟨by decide⟩
  have _ : Fact (Piece.img ≠ .sites) := ⟨by decide⟩
  exact ((State.imageDone_leads (P := fun p => p ≠ .sites) (.same s _) ).parts .sites (by simp))

@[simp] theorem State.imageDone_net (s : State)  :
    ((State.imageDone s)).net = s.net := by
  have _ : Fact (Piece.ports ≠ .net) := ⟨by decide⟩
  have _ : Fact (Piece.img ≠ .net) := ⟨by decide⟩
  exact ((State.imageDone_leads (P := fun p => p ≠ .net) (.same s _) ).parts .net (by simp))

@[simp] theorem State.imageDone_coh (s : State)  :
    ((State.imageDone s)).coh = s.coh := by
  have _ : Fact (Piece.ports ≠ .coh) := ⟨by decide⟩
  have _ : Fact (Piece.img ≠ .coh) := ⟨by decide⟩
  exact ((State.imageDone_leads (P := fun p => p ≠ .coh) (.same s _) ).parts .coh (by simp))

@[simp] theorem State.imageDone_pnl (s : State)  :
    ((State.imageDone s)).pnl = s.pnl := by
  have _ : Fact (Piece.ports ≠ .pnl) := ⟨by decide⟩
  have _ : Fact (Piece.img ≠ .pnl) := ⟨by decide⟩
  exact ((State.imageDone_leads (P := fun p => p ≠ .pnl) (.same s _) ).parts .pnl (by simp))

@[simp] theorem State.enterDust_img (s : State) (p : PanelId) :
    ((State.enterDust s p)).img = s.img := by
  have _ : Fact (Piece.arrays ≠ .img) := ⟨by decide⟩
  have _ : Fact (Piece.ports ≠ .img) := ⟨by decide⟩
  have _ : Fact (Piece.pnl ≠ .img) := ⟨by decide⟩
  exact ((State.enterDust_leads (P := fun p => p ≠ .img) (.same s _) p).parts .img (by simp))

@[simp] theorem State.makeTwin_img (s : State) (i : Image) (p : PanelId) :
    ((State.makeTwin s i p)).img = s.img := by
  have _ : Fact (Piece.pnl ≠ .img) := ⟨by decide⟩
  have _ : Fact (Piece.twin ≠ .img) := ⟨by decide⟩
  exact ((State.makeTwin_leads (P := fun p => p ≠ .img) (.same s _) i p).parts .img (by simp))

@[simp] theorem State.storeWords_pnl (s : State) (g : Agent) (base : Nat) (ws : List CodeWord) :
    ((State.storeWords s g base ws)).pnl = s.pnl := by
  have _ : Fact (Piece.hbm ≠ .pnl) := ⟨by decide⟩
  have _ : Fact (Piece.mem ≠ .pnl) := ⟨by decide⟩
  have _ : Fact (Piece.ras ≠ .pnl) := ⟨by decide⟩
  have _ : Fact (Piece.twin ≠ .pnl) := ⟨by decide⟩
  exact ((State.storeWords_leads (P := fun p => p ≠ .pnl) (.same s _) g base ws).parts .pnl (by simp))

@[simp] theorem State.putRegion_pnl (s : State) (n : Fin 32) (g : Nat → Agent) (ws : List CodeWord) :
    ((State.putRegion s n g ws)).pnl = s.pnl := by
  have _ : Fact (Piece.hbm ≠ .pnl) := ⟨by decide⟩
  have _ : Fact (Piece.mem ≠ .pnl) := ⟨by decide⟩
  have _ : Fact (Piece.ras ≠ .pnl) := ⟨by decide⟩
  have _ : Fact (Piece.twin ≠ .pnl) := ⟨by decide⟩
  exact ((State.putRegion_leads (P := fun p => p ≠ .pnl) (.same s _) n g ws).parts .pnl (by simp))

@[simp] theorem State.withdrawTwin_pnl (s : State) (p : PanelId) :
    ((State.withdrawTwin s p)).pnl = s.pnl := by
  have _ : Fact (Piece.twin ≠ .pnl) := ⟨by decide⟩
  have _ : Fact (Piece.lines ≠ .pnl) := ⟨by decide⟩
  have _ : Fact (Piece.out ≠ .pnl) := ⟨by decide⟩
  exact ((State.withdrawTwin_leads (P := fun p => p ≠ .pnl) (.same s _) p).parts .pnl (by simp))

@[simp] theorem State.zeroGrants_pnl (s : State) (p : PanelId) (pick : Grant → Bool) :
    ((State.zeroGrants s p pick)).pnl = s.pnl := by
  have _ : Fact (Piece.hbm ≠ .pnl) := ⟨by decide⟩
  have _ : Fact (Piece.mem ≠ .pnl) := ⟨by decide⟩
  have _ : Fact (Piece.ras ≠ .pnl) := ⟨by decide⟩
  have _ : Fact (Piece.twin ≠ .pnl) := ⟨by decide⟩
  exact ((State.zeroGrants_leads (P := fun p => p ≠ .pnl) (.same s _) p pick).parts .pnl (by simp))

@[simp] theorem State.zeroGrants_arrays (s : State) (p : PanelId) (pick : Grant → Bool) :
    ((State.zeroGrants s p pick)).arrays = s.arrays := by
  have _ : Fact (Piece.hbm ≠ .arrays) := ⟨by decide⟩
  have _ : Fact (Piece.mem ≠ .arrays) := ⟨by decide⟩
  have _ : Fact (Piece.ras ≠ .arrays) := ⟨by decide⟩
  have _ : Fact (Piece.twin ≠ .arrays) := ⟨by decide⟩
  exact ((State.zeroGrants_leads (P := fun p => p ≠ .arrays) (.same s _) p pick).parts .arrays (by simp))

@[simp] theorem State.sendHeart_ras (s : State) (k : PortId) (fatal : Bool) :
    ((State.sendHeart s k fatal)).ras = s.ras := by
  have _ : Fact (Piece.twin ≠ .ras) := ⟨by decide⟩
  have _ : Fact (Piece.lines ≠ .ras) := ⟨by decide⟩
  have _ : Fact (Piece.out ≠ .ras) := ⟨by decide⟩
  exact ((State.sendHeart_leads (P := fun p => p ≠ .ras) (.same s _) k fatal).parts .ras (by simp))

@[simp] theorem State.sendHeart_fuse (s : State) (k : PortId) (fatal : Bool) :
    ((State.sendHeart s k fatal)).fuse = s.fuse := by
  have _ : Fact (Piece.twin ≠ .fuse) := ⟨by decide⟩
  have _ : Fact (Piece.lines ≠ .fuse) := ⟨by decide⟩
  have _ : Fact (Piece.out ≠ .fuse) := ⟨by decide⟩
  exact ((State.sendHeart_leads (P := fun p => p ≠ .fuse) (.same s _) k fatal).parts .fuse (by simp))

@[simp] theorem State.sendHeart_pins (s : State) (k : PortId) (fatal : Bool) :
    ((State.sendHeart s k fatal)).pins = s.pins := by
  have _ : Fact (Piece.twin ≠ .pins) := ⟨by decide⟩
  have _ : Fact (Piece.lines ≠ .pins) := ⟨by decide⟩
  have _ : Fact (Piece.out ≠ .pins) := ⟨by decide⟩
  exact ((State.sendHeart_leads (P := fun p => p ≠ .pins) (.same s _) k fatal).parts .pins (by simp))

@[simp] theorem State.sendHeart_pending (s : State) (k : PortId) (fatal : Bool) :
    ((State.sendHeart s k fatal)).pending = s.pending := by
  have _ : Fact True := ⟨trivial⟩
  have _ : Fact True := ⟨trivial⟩
  have _ : Fact True := ⟨trivial⟩
  exact (State.sendHeart_leads (P := fun _ => True) (.same s _) k fatal).queue

@[simp] theorem State.haltSilent_ras (s : State) (q : QRef) :
    ((State.haltSilent s q)).ras = s.ras := by
  have _ : Fact (Piece.arrays ≠ .ras) := ⟨by decide⟩
  have _ : Fact (Piece.ports ≠ .ras) := ⟨by decide⟩
  have _ : Fact (Piece.pnl ≠ .ras) := ⟨by decide⟩
  exact ((State.haltSilent_leads (P := fun p => p ≠ .ras) (.same s _) q).parts .ras (by simp))

@[simp] theorem State.haltSilent_twin (s : State) (q : QRef) :
    ((State.haltSilent s q)).twin = s.twin := by
  have _ : Fact (Piece.arrays ≠ .twin) := ⟨by decide⟩
  have _ : Fact (Piece.ports ≠ .twin) := ⟨by decide⟩
  have _ : Fact (Piece.pnl ≠ .twin) := ⟨by decide⟩
  exact ((State.haltSilent_leads (P := fun p => p ≠ .twin) (.same s _) q).parts .twin (by simp))

@[simp] theorem State.mailRead_fuse (s : State) (port : PortId) (addr len : Nat) (r : HostRead) :
    ((State.mailRead s port addr len r).2).fuse = s.fuse := by
  have _ : Fact (Piece.ports ≠ .fuse) := ⟨by decide⟩
  have _ : Fact (Piece.ras ≠ .fuse) := ⟨by decide⟩
  have _ : Fact (Piece.out ≠ .fuse) := ⟨by decide⟩
  exact ((State.mailRead_leads (P := fun p => p ≠ .fuse) (.same s _) port addr len r).parts .fuse (by simp))

@[simp] theorem State.mailRead_lcs (s : State) (port : PortId) (addr len : Nat) (r : HostRead) :
    ((State.mailRead s port addr len r).2).lcs = s.lcs := by
  have _ : Fact (Piece.ports ≠ .lcs) := ⟨by decide⟩
  have _ : Fact (Piece.ras ≠ .lcs) := ⟨by decide⟩
  have _ : Fact (Piece.out ≠ .lcs) := ⟨by decide⟩
  exact ((State.mailRead_leads (P := fun p => p ≠ .lcs) (.same s _) port addr len r).parts .lcs (by simp))

@[simp] theorem State.mailRead_pnl (s : State) (port : PortId) (addr len : Nat) (r : HostRead) :
    ((State.mailRead s port addr len r).2).pnl = s.pnl := by
  have _ : Fact (Piece.ports ≠ .pnl) := ⟨by decide⟩
  have _ : Fact (Piece.ras ≠ .pnl) := ⟨by decide⟩
  have _ : Fact (Piece.out ≠ .pnl) := ⟨by decide⟩
  exact ((State.mailRead_leads (P := fun p => p ≠ .pnl) (.same s _) port addr len r).parts .pnl (by simp))

@[simp] theorem State.loadPanel_pnl (s : State) (p : PanelId) (dest : Nat) (b : Bundle) :
    ((State.loadPanel s p dest b).2).pnl = s.pnl := by
  have _ : Fact (Piece.hbm ≠ .pnl) := ⟨by decide⟩
  have _ : Fact (Piece.mem ≠ .pnl) := ⟨by decide⟩
  have _ : Fact (Piece.ras ≠ .pnl) := ⟨by decide⟩
  have _ : Fact (Piece.twin ≠ .pnl) := ⟨by decide⟩
  exact ((State.loadPanel_leads (P := fun p => p ≠ .pnl) (.same s _) p dest b).parts .pnl (by simp))

@[simp] theorem State.mailEnd_fuse (s : State) (result : Byte) :
    ((State.mailEnd s result)).fuse = s.fuse := by
  have _ : Fact (Piece.ports ≠ .fuse) := ⟨by decide⟩
  have _ : Fact (Piece.pnl ≠ .fuse) := ⟨by decide⟩
  exact ((State.mailEnd_leads (P := fun p => p ≠ .fuse) (.same s _) result).parts .fuse (by simp))

@[simp] theorem State.mailEnd_mem (s : State) (result : Byte) :
    ((State.mailEnd s result)).mem = s.mem := by
  have _ : Fact (Piece.ports ≠ .mem) := ⟨by decide⟩
  have _ : Fact (Piece.pnl ≠ .mem) := ⟨by decide⟩
  exact ((State.mailEnd_leads (P := fun p => p ≠ .mem) (.same s _) result).parts .mem (by simp))

@[simp] theorem State.mailEnd_lcs (s : State) (result : Byte) :
    ((State.mailEnd s result)).lcs = s.lcs := by
  have _ : Fact (Piece.ports ≠ .lcs) := ⟨by decide⟩
  have _ : Fact (Piece.pnl ≠ .lcs) := ⟨by decide⟩
  exact ((State.mailEnd_leads (P := fun p => p ≠ .lcs) (.same s _) result).parts .lcs (by simp))

@[simp] theorem State.mailEnd_arrays (s : State) (result : Byte) :
    ((State.mailEnd s result)).arrays = s.arrays := by
  have _ : Fact (Piece.ports ≠ .arrays) := ⟨by decide⟩
  have _ : Fact (Piece.pnl ≠ .arrays) := ⟨by decide⟩
  exact ((State.mailEnd_leads (P := fun p => p ≠ .arrays) (.same s _) result).parts .arrays (by simp))

@[simp] theorem State.freePanel_lcs (s : State) (p : PanelId) :
    ((State.freePanel s p)).lcs = s.lcs := by
  have _ : Fact (Piece.arrays ≠ .lcs) := ⟨by decide⟩
  have _ : Fact (Piece.sites ≠ .lcs) := ⟨by decide⟩
  have _ : Fact (Piece.ports ≠ .lcs) := ⟨by decide⟩
  have _ : Fact (Piece.img ≠ .lcs) := ⟨by decide⟩
  have _ : Fact (Piece.pnl ≠ .lcs) := ⟨by decide⟩
  have _ : Fact (Piece.twin ≠ .lcs) := ⟨by decide⟩
  exact ((State.freePanel_leads (P := fun p => p ≠ .lcs) (.same s _) p).parts .lcs (by simp))

@[simp] theorem State.zeroRange_pnl (s : State) (p : PanelId) (base length : Nat) :
    ((State.zeroRange s p base length)).pnl = s.pnl := by
  have _ : Fact (Piece.hbm ≠ .pnl) := ⟨by decide⟩
  have _ : Fact (Piece.mem ≠ .pnl) := ⟨by decide⟩
  have _ : Fact (Piece.ras ≠ .pnl) := ⟨by decide⟩
  have _ : Fact (Piece.twin ≠ .pnl) := ⟨by decide⟩
  exact ((State.zeroRange_leads (P := fun p => p ≠ .pnl) (.same s _) p base length).parts .pnl (by simp))

@[simp] theorem State.lcsEnd_pnl (s : State) (status : BitVec 4) (result : Byte) :
    ((State.lcsEnd s status result)).pnl = s.pnl := by
  have _ : Fact (Piece.ports ≠ .pnl) := ⟨by decide⟩
  have _ : Fact (Piece.lcs ≠ .pnl) := ⟨by decide⟩
  have _ : Fact (Piece.draws ≠ .pnl) := ⟨by decide⟩
  exact ((State.lcsEnd_leads (P := fun p => p ≠ .pnl) (.same s _) status result).parts .pnl (by simp))

@[simp] theorem State.lcsEnd_fuse (s : State) (status : BitVec 4) (result : Byte) :
    ((State.lcsEnd s status result)).fuse = s.fuse := by
  have _ : Fact (Piece.ports ≠ .fuse) := ⟨by decide⟩
  have _ : Fact (Piece.lcs ≠ .fuse) := ⟨by decide⟩
  have _ : Fact (Piece.draws ≠ .fuse) := ⟨by decide⟩
  exact ((State.lcsEnd_leads (P := fun p => p ≠ .fuse) (.same s _) status result).parts .fuse (by simp))

@[simp] theorem State.releasePanel_twin (s : State) (p : PanelId) :
    ((State.releasePanel s p)).twin = s.twin := by
  have _ : Fact (Piece.ports ≠ .twin) := ⟨by decide⟩
  exact ((State.releasePanel_leads (P := fun p => p ≠ .twin) (.same s _) p).parts .twin (by simp))

@[simp] theorem State.tellTwin_twin (s : State) (k : PortId) (header : BitVec 128) (enc : Bool) (ws : List CodeWord) :
    ((State.tellTwin s k header enc ws)).twin = s.twin := by
  have _ : Fact (Piece.lines ≠ .twin) := ⟨by decide⟩
  have _ : Fact (Piece.out ≠ .twin) := ⟨by decide⟩
  exact ((State.tellTwin_leads (P := fun p => p ≠ .twin) (.same s _) k header enc ws).parts .twin (by simp))

@[simp] theorem State.tellTwin_net (s : State) (k : PortId) (header : BitVec 128) (enc : Bool) (ws : List CodeWord) :
    ((State.tellTwin s k header enc ws)).net = s.net := by
  have _ : Fact (Piece.lines ≠ .net) := ⟨by decide⟩
  have _ : Fact (Piece.out ≠ .net) := ⟨by decide⟩
  exact ((State.tellTwin_leads (P := fun p => p ≠ .net) (.same s _) k header enc ws).parts .net (by simp))

@[simp] theorem State.tellTwin_mem (s : State) (k : PortId) (header : BitVec 128) (enc : Bool) (ws : List CodeWord) :
    ((State.tellTwin s k header enc ws)).mem = s.mem := by
  have _ : Fact (Piece.lines ≠ .mem) := ⟨by decide⟩
  have _ : Fact (Piece.out ≠ .mem) := ⟨by decide⟩
  exact ((State.tellTwin_leads (P := fun p => p ≠ .mem) (.same s _) k header enc ws).parts .mem (by simp))

@[simp] theorem State.fetchPanel_twin (s : State) (p : PanelId) :
    ((State.fetchPanel s p)).twin = s.twin := by
  have _ : Fact (Piece.ports ≠ .twin) := ⟨by decide⟩
  have _ : Fact (Piece.out ≠ .twin) := ⟨by decide⟩
  exact ((State.fetchPanel_leads (P := fun p => p ≠ .twin) (.same s _) p).parts .twin (by simp))

@[simp] theorem State.haltPanel_twin (s : State) (p : PanelId) :
    ((State.haltPanel s p)).twin = s.twin := by
  have _ : Fact (Piece.arrays ≠ .twin) := ⟨by decide⟩
  have _ : Fact (Piece.ports ≠ .twin) := ⟨by decide⟩
  have _ : Fact (Piece.pnl ≠ .twin) := ⟨by decide⟩
  exact ((State.haltPanel_leads (P := fun p => p ≠ .twin) (.same s _) p).parts .twin (by simp))

@[simp] theorem State.discardComps_twin (s : State) (p : PanelId) :
    ((State.discardComps s p)).twin = s.twin := by
  have _ : Fact (Piece.ports ≠ .twin) := ⟨by decide⟩
  exact ((State.discardComps_leads (P := fun p => p ≠ .twin) (.same s _) p).parts .twin (by simp))

@[simp] theorem State.noteTwin_twin (s : State) (k : PortId) (code : Byte) :
    ((State.noteTwin s k code)).twin = s.twin := by
  have _ : Fact (Piece.ras ≠ .twin) := ⟨by decide⟩
  have _ : Fact (Piece.out ≠ .twin) := ⟨by decide⟩
  exact ((State.noteTwin_leads (P := fun p => p ≠ .twin) (.same s _) k code).parts .twin (by simp))

@[simp] theorem State.releaseComps_twin (s : State) (port : PortId) (v : VfId) (p : Nat → Bool) :
    ((State.releaseComps s port v p)).twin = s.twin := by
  have _ : Fact (Piece.ports ≠ .twin) := ⟨by decide⟩
  exact ((State.releaseComps_leads (P := fun p => p ≠ .twin) (.same s _) port v p).parts .twin (by simp))

@[simp] theorem State.answerTwin_twin (s : State) (k : PortId) (h : BitVec 128) (kind : ReqKind) (status : Nat) (ws : List CodeWord) :
    ((State.answerTwin s k h kind status ws)).twin = s.twin := by
  have _ : Fact (Piece.lines ≠ .twin) := ⟨by decide⟩
  have _ : Fact (Piece.out ≠ .twin) := ⟨by decide⟩
  exact ((State.answerTwin_leads (P := fun p => p ≠ .twin) (.same s _) k h kind status ws).parts .twin (by simp))

@[simp] theorem State.answerTwin_net (s : State) (k : PortId) (h : BitVec 128) (kind : ReqKind) (status : Nat) (ws : List CodeWord) :
    ((State.answerTwin s k h kind status ws)).net = s.net := by
  have _ : Fact (Piece.lines ≠ .net) := ⟨by decide⟩
  have _ : Fact (Piece.out ≠ .net) := ⟨by decide⟩
  exact ((State.answerTwin_leads (P := fun p => p ≠ .net) (.same s _) k h kind status ws).parts .net (by simp))

@[simp] theorem State.suspendTwins_net (s : State)  :
    ((State.suspendTwins s)).net = s.net := by
  have _ : Fact (Piece.twin ≠ .net) := ⟨by decide⟩
  exact ((State.suspendTwins_leads (P := fun p => p ≠ .net) (.same s _) ).parts .net (by simp))

@[simp] theorem State.suspendTwins_ras (s : State)  :
    ((State.suspendTwins s)).ras = s.ras := by
  have _ : Fact (Piece.twin ≠ .ras) := ⟨by decide⟩
  exact ((State.suspendTwins_leads (P := fun p => p ≠ .ras) (.same s _) ).parts .ras (by simp))

@[simp] theorem State.sendKeys_twin (s : State) (k : PortId) :
    ((State.sendKeys s k)).twin = s.twin := by
  have _ : Fact (Piece.lines ≠ .twin) := ⟨by decide⟩
  have _ : Fact (Piece.draws ≠ .twin) := ⟨by decide⟩
  have _ : Fact (Piece.out ≠ .twin) := ⟨by decide⟩
  exact ((State.sendKeys_leads (P := fun p => p ≠ .twin) (.same s _) k).parts .twin (by simp))

@[simp] theorem State.applyPatch_fuse (s : State) (r : PatchRec) :
    ((State.applyPatch s r)).fuse = s.fuse := by
  have _ : Fact (Piece.arrays ≠ .fuse) := ⟨by decide⟩
  have _ : Fact (Piece.fields ≠ .fuse) := ⟨by decide⟩
  have _ : Fact (Piece.hbm ≠ .fuse) := ⟨by decide⟩
  have _ : Fact (Piece.net ≠ .fuse) := ⟨by decide⟩
  have _ : Fact (Piece.twin ≠ .fuse) := ⟨by decide⟩
  exact ((State.applyPatch_leads (P := fun p => p ≠ .fuse) (.same s _) r).parts .fuse (by simp))

@[simp] theorem State.applyPatch_stage (s : State) (r : PatchRec) :
    ((State.applyPatch s r)).stage = s.stage := by
  have _ : Fact (Piece.arrays ≠ .boot) := ⟨by decide⟩
  have _ : Fact (Piece.fields ≠ .boot) := ⟨by decide⟩
  have _ : Fact (Piece.hbm ≠ .boot) := ⟨by decide⟩
  have _ : Fact (Piece.net ≠ .boot) := ⟨by decide⟩
  have _ : Fact (Piece.twin ≠ .boot) := ⟨by decide⟩
  exact ((State.applyPatch_leads (P := fun p => p ≠ .boot) (.same s _) r).parts .boot (by simp)).2.2.1

@[simp] theorem State.applyPatch_retired (s : State) (r : PatchRec) :
    ((State.applyPatch s r)).retired = s.retired := by
  have _ : Fact (Piece.arrays ≠ .boot) := ⟨by decide⟩
  have _ : Fact (Piece.fields ≠ .boot) := ⟨by decide⟩
  have _ : Fact (Piece.hbm ≠ .boot) := ⟨by decide⟩
  have _ : Fact (Piece.net ≠ .boot) := ⟨by decide⟩
  have _ : Fact (Piece.twin ≠ .boot) := ⟨by decide⟩
  exact ((State.applyPatch_leads (P := fun p => p ≠ .boot) (.same s _) r).parts .boot (by simp)).2.1

@[simp] theorem State.checkGrade_fuse (s : State)  :
    ((State.checkGrade s)).fuse = s.fuse := by
  have _ : Fact (Piece.ras ≠ .fuse) := ⟨by decide⟩
  exact ((State.checkGrade_leads (P := fun p => p ≠ .fuse) (.same s _) ).parts .fuse (by simp))

@[simp] theorem State.checkGrade_stage (s : State)  :
    ((State.checkGrade s)).stage = s.stage := by
  have _ : Fact (Piece.ras ≠ .boot) := ⟨by decide⟩
  exact ((State.checkGrade_leads (P := fun p => p ≠ .boot) (.same s _) ).parts .boot (by simp)).2.2.1

@[simp] theorem State.checkGrade_retired (s : State)  :
    ((State.checkGrade s)).retired = s.retired := by
  have _ : Fact (Piece.ras ≠ .boot) := ⟨by decide⟩
  exact ((State.checkGrade_leads (P := fun p => p ≠ .boot) (.same s _) ).parts .boot (by simp)).2.1

@[simp] theorem State.bootDone_fuse (s : State)  :
    (s.bootDone).fuse = s.fuse := by
  have _ : Fact (Piece.boot ≠ .fuse) := ⟨by decide⟩
  have _ : Fact (Piece.ports ≠ .fuse) := ⟨by decide⟩
  have _ : Fact (Piece.out ≠ .fuse) := ⟨by decide⟩
  exact ((State.bootDone_leads (P := fun p => p ≠ .fuse) (.same s _) ).parts .fuse (by simp))

@[simp] theorem State.bootDone_lcs (s : State)  :
    (s.bootDone).lcs = s.lcs := by
  have _ : Fact (Piece.boot ≠ .lcs) := ⟨by decide⟩
  have _ : Fact (Piece.ports ≠ .lcs) := ⟨by decide⟩
  have _ : Fact (Piece.out ≠ .lcs) := ⟨by decide⟩
  exact ((State.bootDone_leads (P := fun p => p ≠ .lcs) (.same s _) ).parts .lcs (by simp))

@[simp] theorem State.readyMessage_stage (s : State) (p : PortId) :
    ((State.readyMessage s p)).stage = s.stage := by
  have _ : Fact (Piece.ports ≠ .boot) := ⟨by decide⟩
  have _ : Fact (Piece.out ≠ .boot) := ⟨by decide⟩
  exact ((State.readyMessage_leads (P := fun p => p ≠ .boot) (.same s _) p).parts .boot (by simp)).2.2.1

@[simp] theorem State.readyMessage_bootMs (s : State) (p : PortId) :
    ((State.readyMessage s p)).bootMs = s.bootMs := by
  have _ : Fact (Piece.ports ≠ .boot) := ⟨by decide⟩
  have _ : Fact (Piece.out ≠ .boot) := ⟨by decide⟩
  exact ((State.readyMessage_leads (P := fun p => p ≠ .boot) (.same s _) p).parts .boot (by simp)).2.2.2

@[simp] theorem State.readyMessage_fuse (s : State) (p : PortId) :
    ((State.readyMessage s p)).fuse = s.fuse := by
  have _ : Fact (Piece.ports ≠ .fuse) := ⟨by decide⟩
  have _ : Fact (Piece.out ≠ .fuse) := ⟨by decide⟩
  exact ((State.readyMessage_leads (P := fun p => p ≠ .fuse) (.same s _) p).parts .fuse (by simp))

@[simp] theorem State.readyMessage_lcs (s : State) (p : PortId) :
    ((State.readyMessage s p)).lcs = s.lcs := by
  have _ : Fact (Piece.ports ≠ .lcs) := ⟨by decide⟩
  have _ : Fact (Piece.out ≠ .lcs) := ⟨by decide⟩
  exact ((State.readyMessage_leads (P := fun p => p ≠ .lcs) (.same s _) p).parts .lcs (by simp))

@[simp] theorem State.readyMessage_inReset (s : State) (p : PortId) :
    ((State.readyMessage s p)).inReset = s.inReset := by
  have _ : Fact (Piece.ports ≠ .boot) := ⟨by decide⟩
  have _ : Fact (Piece.out ≠ .boot) := ⟨by decide⟩
  exact ((State.readyMessage_leads (P := fun p => p ≠ .boot) (.same s _) p).parts .boot (by simp)).1

@[simp] theorem State.packageFault_stage (s : State) (source : BitVec 5) (code : Byte) :
    ((State.packageFault s source code)).stage = s.stage := by
  have _ : Fact (Piece.arrays ≠ .boot) := ⟨by decide⟩
  have _ : Fact (Piece.ports ≠ .boot) := ⟨by decide⟩
  have _ : Fact (Piece.pnl ≠ .boot) := ⟨by decide⟩
  have _ : Fact (Piece.ras ≠ .boot) := ⟨by decide⟩
  have _ : Fact (Piece.twin ≠ .boot) := ⟨by decide⟩
  have _ : Fact (Piece.lines ≠ .boot) := ⟨by decide⟩
  have _ : Fact (Piece.out ≠ .boot) := ⟨by decide⟩
  exact ((State.packageFault_leads (P := fun p => p ≠ .boot) (.same s _) source code).parts .boot (by simp)).2.2.1

@[simp] theorem State.packageFault_fuse (s : State) (source : BitVec 5) (code : Byte) :
    ((State.packageFault s source code)).fuse = s.fuse := by
  have _ : Fact (Piece.arrays ≠ .fuse) := ⟨by decide⟩
  have _ : Fact (Piece.ports ≠ .fuse) := ⟨by decide⟩
  have _ : Fact (Piece.pnl ≠ .fuse) := ⟨by decide⟩
  have _ : Fact (Piece.ras ≠ .fuse) := ⟨by decide⟩
  have _ : Fact (Piece.twin ≠ .fuse) := ⟨by decide⟩
  have _ : Fact (Piece.lines ≠ .fuse) := ⟨by decide⟩
  have _ : Fact (Piece.out ≠ .fuse) := ⟨by decide⟩
  exact ((State.packageFault_leads (P := fun p => p ≠ .fuse) (.same s _) source code).parts .fuse (by simp))

@[simp] theorem State.packageFault_clk (s : State) (source : BitVec 5) (code : Byte) :
    ((State.packageFault s source code)).clk = s.clk := by
  have _ : Fact (Piece.arrays ≠ .clk) := ⟨by decide⟩
  have _ : Fact (Piece.ports ≠ .clk) := ⟨by decide⟩
  have _ : Fact (Piece.pnl ≠ .clk) := ⟨by decide⟩
  have _ : Fact (Piece.ras ≠ .clk) := ⟨by decide⟩
  have _ : Fact (Piece.twin ≠ .clk) := ⟨by decide⟩
  have _ : Fact (Piece.lines ≠ .clk) := ⟨by decide⟩
  have _ : Fact (Piece.out ≠ .clk) := ⟨by decide⟩
  exact ((State.packageFault_leads (P := fun p => p ≠ .clk) (.same s _) source code).parts .clk (by simp))

@[simp] theorem State.packageFault_pwr (s : State) (source : BitVec 5) (code : Byte) :
    ((State.packageFault s source code)).pwr = s.pwr := by
  have _ : Fact (Piece.arrays ≠ .pwr) := ⟨by decide⟩
  have _ : Fact (Piece.ports ≠ .pwr) := ⟨by decide⟩
  have _ : Fact (Piece.pnl ≠ .pwr) := ⟨by decide⟩
  have _ : Fact (Piece.ras ≠ .pwr) := ⟨by decide⟩
  have _ : Fact (Piece.twin ≠ .pwr) := ⟨by decide⟩
  have _ : Fact (Piece.lines ≠ .pwr) := ⟨by decide⟩
  have _ : Fact (Piece.out ≠ .pwr) := ⟨by decide⟩
  exact ((State.packageFault_leads (P := fun p => p ≠ .pwr) (.same s _) source code).parts .pwr (by simp))

@[simp] theorem State.packageFault_inReset (s : State) (source : BitVec 5) (code : Byte) :
    ((State.packageFault s source code)).inReset = s.inReset := by
  have _ : Fact (Piece.arrays ≠ .boot) := ⟨by decide⟩
  have _ : Fact (Piece.ports ≠ .boot) := ⟨by decide⟩
  have _ : Fact (Piece.pnl ≠ .boot) := ⟨by decide⟩
  have _ : Fact (Piece.ras ≠ .boot) := ⟨by decide⟩
  have _ : Fact (Piece.twin ≠ .boot) := ⟨by decide⟩
  have _ : Fact (Piece.lines ≠ .boot) := ⟨by decide⟩
  have _ : Fact (Piece.out ≠ .boot) := ⟨by decide⟩
  exact ((State.packageFault_leads (P := fun p => p ≠ .boot) (.same s _) source code).parts .boot (by simp)).1

@[simp] theorem State.packageFault_sites (s : State) (source : BitVec 5) (code : Byte) :
    ((State.packageFault s source code)).sites = s.sites := by
  have _ : Fact (Piece.arrays ≠ .sites) := ⟨by decide⟩
  have _ : Fact (Piece.ports ≠ .sites) := ⟨by decide⟩
  have _ : Fact (Piece.pnl ≠ .sites) := ⟨by decide⟩
  have _ : Fact (Piece.ras ≠ .sites) := ⟨by decide⟩
  have _ : Fact (Piece.twin ≠ .sites) := ⟨by decide⟩
  have _ : Fact (Piece.lines ≠ .sites) := ⟨by decide⟩
  have _ : Fact (Piece.out ≠ .sites) := ⟨by decide⟩
  exact ((State.packageFault_leads (P := fun p => p ≠ .sites) (.same s _) source code).parts .sites (by simp))

@[simp] theorem State.siteBegins_pins (s : State) (n : SiteId) :
    ((State.siteBegins s n)).pins = s.pins := by
  have _ : Fact (Piece.sites ≠ .pins) := ⟨by decide⟩
  exact ((State.siteBegins_leads (P := fun p => p ≠ .pins) (.same s _) n).parts .pins (by simp))

@[simp] theorem State.releasePins_fuse (s : State)  :
    ((State.releasePins s)).fuse = s.fuse := by
  have _ : Fact (Piece.out ≠ .fuse) := ⟨by decide⟩
  exact ((State.releasePins_leads (P := fun p => p ≠ .fuse) (.same s _) ).parts .fuse (by simp))

@[simp] theorem State.releasePins_pins (s : State)  :
    ((State.releasePins s)).pins = s.pins := by
  have _ : Fact (Piece.out ≠ .pins) := ⟨by decide⟩
  exact ((State.releasePins_leads (P := fun p => p ≠ .pins) (.same s _) ).parts .pins (by simp))

@[simp] theorem State.releasePins_side (s : State)  :
    ((State.releasePins s)).side = s.side := by
  have _ : Fact (Piece.out ≠ .side) := ⟨by decide⟩
  exact ((State.releasePins_leads (P := fun p => p ≠ .side) (.same s _) ).parts .side (by simp))

@[simp] theorem State.releasePins_pending (s : State)  :
    ((State.releasePins s)).pending = s.pending := by
  have _ : Fact True := ⟨trivial⟩
  exact (State.releasePins_leads (P := fun _ => True) (.same s _) ).queue

@[simp] theorem State.releasePins_draws (s : State)  :
    ((State.releasePins s)).draws = s.draws := by
  have _ : Fact (Piece.out ≠ .draws) := ⟨by decide⟩
  exact ((State.releasePins_leads (P := fun p => p ≠ .draws) (.same s _) ).parts .draws (by simp))

@[simp] theorem State.raiseSite_siteSlot (s : State) (n : SiteId) :
    ((State.raiseSite s n)).siteSlot = s.siteSlot := by
  have _ : Fact (Piece.sites ≠ .siteSlot) := ⟨by decide⟩
  have _ : Fact (Piece.out ≠ .siteSlot) := ⟨by decide⟩
  exact ((State.raiseSite_leads (P := fun p => p ≠ .siteSlot) (.same s _) n).parts .siteSlot (by simp))

@[simp] theorem State.killSite_clk (s : State) (n : SiteId) (code : Byte) :
    ((State.killSite s n code)).clk = s.clk := by
  have _ : Fact (Piece.arrays ≠ .clk) := ⟨by decide⟩
  have _ : Fact (Piece.fields ≠ .clk) := ⟨by decide⟩
  have _ : Fact (Piece.hbm ≠ .clk) := ⟨by decide⟩
  have _ : Fact (Piece.mem ≠ .clk) := ⟨by decide⟩
  have _ : Fact (Piece.net ≠ .clk) := ⟨by decide⟩
  have _ : Fact (Piece.coh ≠ .clk) := ⟨by decide⟩
  have _ : Fact (Piece.sites ≠ .clk) := ⟨by decide⟩
  have _ : Fact (Piece.ports ≠ .clk) := ⟨by decide⟩
  have _ : Fact (Piece.pnl ≠ .clk) := ⟨by decide⟩
  have _ : Fact (Piece.ras ≠ .clk) := ⟨by decide⟩
  have _ : Fact (Piece.twin ≠ .clk) := ⟨by decide⟩
  have _ : Fact (Piece.out ≠ .clk) := ⟨by decide⟩
  exact ((State.killSite_leads (P := fun p => p ≠ .clk) (.same s _) n code).parts .clk (by simp))

@[simp] theorem State.twinFails_clk (s : State) (k : PortId) :
    ((State.twinFails s k)).clk = s.clk := by
  have _ : Fact (Piece.ports ≠ .clk) := ⟨by decide⟩
  have _ : Fact (Piece.ras ≠ .clk) := ⟨by decide⟩
  have _ : Fact (Piece.twin ≠ .clk) := ⟨by decide⟩
  have _ : Fact (Piece.out ≠ .clk) := ⟨by decide⟩
  exact ((State.twinFails_leads (P := fun p => p ≠ .clk) (.same s _) k).parts .clk (by simp))

@[simp] theorem State.makeKeys_stage (s : State)  :
    ((State.makeKeys s)).stage = s.stage := by
  have _ : Fact (Piece.fuse ≠ .boot) := ⟨by decide⟩
  have _ : Fact (Piece.draws ≠ .boot) := ⟨by decide⟩
  exact ((State.makeKeys_leads (P := fun p => p ≠ .boot) (.same s _) ).parts .boot (by simp)).2.2.1

@[simp] theorem State.makeKeys_inReset (s : State)  :
    ((State.makeKeys s)).inReset = s.inReset := by
  have _ : Fact (Piece.fuse ≠ .boot) := ⟨by decide⟩
  have _ : Fact (Piece.draws ≠ .boot) := ⟨by decide⟩
  exact ((State.makeKeys_leads (P := fun p => p ≠ .boot) (.same s _) ).parts .boot (by simp)).1

@[simp] theorem State.noteAccess_pwr (s : State) (code : Byte) (off : Nat) :
    ((State.noteAccess s code off)).pwr = s.pwr := by
  have _ : Fact (Piece.ras ≠ .pwr) := ⟨by decide⟩
  have _ : Fact (Piece.out ≠ .pwr) := ⟨by decide⟩
  exact ((State.noteAccess_leads (P := fun p => p ≠ .pwr) (.same s _) code off).parts .pwr (by simp))

@[simp] theorem State.noteAccess_side (s : State) (code : Byte) (off : Nat) :
    ((State.noteAccess s code off)).side = s.side := by
  have _ : Fact (Piece.ras ≠ .side) := ⟨by decide⟩
  have _ : Fact (Piece.out ≠ .side) := ⟨by decide⟩
  exact ((State.noteAccess_leads (P := fun p => p ≠ .side) (.same s _) code off).parts .side (by simp))

@[simp] theorem State.noteAccess_mem (s : State) (code : Byte) (off : Nat) :
    ((State.noteAccess s code off)).mem = s.mem := by
  have _ : Fact (Piece.ras ≠ .mem) := ⟨by decide⟩
  have _ : Fact (Piece.out ≠ .mem) := ⟨by decide⟩
  exact ((State.noteAccess_leads (P := fun p => p ≠ .mem) (.same s _) code off).parts .mem (by simp))

@[simp] theorem State.note_pwr (s : State)  :
    ((State.note s)).pwr = s.pwr := by
  have _ : Fact (Piece.ras ≠ .pwr) := ⟨by decide⟩
  have _ : Fact (Piece.out ≠ .pwr) := ⟨by decide⟩
  exact ((State.note_leads (P := fun p => p ≠ .pwr) (.same s _) ).parts .pwr (by simp))

@[simp] theorem State.note_side (s : State)  :
    ((State.note s)).side = s.side := by
  have _ : Fact (Piece.ras ≠ .side) := ⟨by decide⟩
  have _ : Fact (Piece.out ≠ .side) := ⟨by decide⟩
  exact ((State.note_leads (P := fun p => p ≠ .side) (.same s _) ).parts .side (by simp))

@[simp] theorem State.note_ports (s : State)  :
    ((State.note s)).ports = s.ports := by
  have _ : Fact (Piece.ras ≠ .ports) := ⟨by decide⟩
  have _ : Fact (Piece.out ≠ .ports) := ⟨by decide⟩
  exact ((State.note_leads (P := fun p => p ≠ .ports) (.same s _) ).parts .ports (by simp))

@[simp] theorem State.portReset_pins (s : State) (port : PortId) :
    ((State.portReset s port)).pins = s.pins := by
  have _ : Fact (Piece.arrays ≠ .pins) := ⟨by decide⟩
  have _ : Fact (Piece.sites ≠ .pins) := ⟨by decide⟩
  have _ : Fact (Piece.ports ≠ .pins) := ⟨by decide⟩
  have _ : Fact (Piece.img ≠ .pins) := ⟨by decide⟩
  have _ : Fact (Piece.pnl ≠ .pins) := ⟨by decide⟩
  have _ : Fact (Piece.ras ≠ .pins) := ⟨by decide⟩
  have _ : Fact (Piece.twin ≠ .pins) := ⟨by decide⟩
  have _ : Fact (Piece.out ≠ .pins) := ⟨by decide⟩
  exact ((State.portReset_leads (P := fun p => p ≠ .pins) (.same s _) port).parts .pins (by simp))

@[simp] theorem State.applyStore_inReset (s : State)  :
    ((State.applyStore s)).inReset = s.inReset := by
  have _ : Fact (Piece.fuse ≠ .boot) := ⟨by decide⟩
  have _ : Fact (Piece.arrays ≠ .boot) := ⟨by decide⟩
  have _ : Fact (Piece.fields ≠ .boot) := ⟨by decide⟩
  have _ : Fact (Piece.hbm ≠ .boot) := ⟨by decide⟩
  have _ : Fact (Piece.net ≠ .boot) := ⟨by decide⟩
  have _ : Fact (Piece.ras ≠ .boot) := ⟨by decide⟩
  have _ : Fact (Piece.twin ≠ .boot) := ⟨by decide⟩
  exact ((State.applyStore_leads (P := fun p => p ≠ .boot) (.same s _) ).parts .boot (by simp)).1

@[simp] theorem State.vote_pins (s : State)  :
    (s.vote).pins = s.pins := by
  have _ : Fact (Piece.fuse ≠ .pins) := ⟨by decide⟩
  have _ : Fact (Piece.boot ≠ .pins) := ⟨by decide⟩
  have _ : Fact (Piece.lcs ≠ .pins) := ⟨by decide⟩
  have _ : Fact (Piece.draws ≠ .pins) := ⟨by decide⟩
  exact ((State.vote_leads (P := fun p => p ≠ .pins) (.same s _) ).parts .pins (by simp))

@[simp] theorem State.leaveInv_ras (s : State) (a : ArrayId) :
    ((State.leaveInv s a)).ras = s.ras := by
  have _ : Fact (Piece.ports ≠ .ras) := ⟨by decide⟩
  exact ((State.leaveInv_leads (P := fun p => p ≠ .ras) (.same s _) a).parts .ras (by simp))

@[simp] theorem State.leaveInv_arrays (s : State) (a : ArrayId) :
    ((State.leaveInv s a)).arrays = s.arrays := by
  have _ : Fact (Piece.ports ≠ .arrays) := ⟨by decide⟩
  exact ((State.leaveInv_leads (P := fun p => p ≠ .arrays) (.same s _) a).parts .arrays (by simp))

@[simp] theorem State.leaveInv_pnl (s : State) (a : ArrayId) :
    ((State.leaveInv s a)).pnl = s.pnl := by
  have _ : Fact (Piece.ports ≠ .pnl) := ⟨by decide⟩
  exact ((State.leaveInv_leads (P := fun p => p ≠ .pnl) (.same s _) a).parts .pnl (by simp))

@[simp] theorem State.leaveInv_net (s : State) (a : ArrayId) :
    ((State.leaveInv s a)).net = s.net := by
  have _ : Fact (Piece.ports ≠ .net) := ⟨by decide⟩
  exact ((State.leaveInv_leads (P := fun p => p ≠ .net) (.same s _) a).parts .net (by simp))

@[simp] theorem State.leaveInv_mem (s : State) (a : ArrayId) :
    ((State.leaveInv s a)).mem = s.mem := by
  have _ : Fact (Piece.ports ≠ .mem) := ⟨by decide⟩
  exact ((State.leaveInv_leads (P := fun p => p ≠ .mem) (.same s _) a).parts .mem (by simp))

@[simp] theorem State.homeRead_coh (s : State) (f : FieldId) (t : TintId) (line : Nat) :
    ((State.homeRead s f t line).2).coh = s.coh := by
  have _ : Fact (Piece.fields ≠ .coh) := ⟨by decide⟩
  have _ : Fact (Piece.hbm ≠ .coh) := ⟨by decide⟩
  have _ : Fact (Piece.mem ≠ .coh) := ⟨by decide⟩
  have _ : Fact (Piece.net ≠ .coh) := ⟨by decide⟩
  have _ : Fact (Piece.ras ≠ .coh) := ⟨by decide⟩
  have _ : Fact (Piece.out ≠ .coh) := ⟨by decide⟩
  exact ((State.homeRead_leads (P := fun p => p ≠ .coh) (.same s _) f t line).parts .coh (by simp))

@[simp] theorem State.homeWrite_coh (s : State) (f : FieldId) (t : TintId) (line : Nat) (w : CodeWord) :
    ((State.homeWrite s f t line w).2).coh = s.coh := by
  have _ : Fact (Piece.hbm ≠ .coh) := ⟨by decide⟩
  have _ : Fact (Piece.mem ≠ .coh) := ⟨by decide⟩
  have _ : Fact (Piece.net ≠ .coh) := ⟨by decide⟩
  have _ : Fact (Piece.ras ≠ .coh) := ⟨by decide⟩
  have _ : Fact (Piece.twin ≠ .coh) := ⟨by decide⟩
  have _ : Fact (Piece.out ≠ .coh) := ⟨by decide⟩
  exact ((State.homeWrite_leads (P := fun p => p ≠ .coh) (.same s _) f t line w).parts .coh (by simp))

@[simp] theorem State.homeAtomic_coh (s : State) (f : FieldId) (t : TintId) (line : Nat) (op : AtomicOp) (off operand cmp : Nat) (marked : Bool) :
    ((State.homeAtomic s f t line op off operand cmp marked).2).coh = s.coh := by
  have _ : Fact (Piece.fields ≠ .coh) := ⟨by decide⟩
  have _ : Fact (Piece.hbm ≠ .coh) := ⟨by decide⟩
  have _ : Fact (Piece.mem ≠ .coh) := ⟨by decide⟩
  have _ : Fact (Piece.net ≠ .coh) := ⟨by decide⟩
  have _ : Fact (Piece.ras ≠ .coh) := ⟨by decide⟩
  have _ : Fact (Piece.twin ≠ .coh) := ⟨by decide⟩
  have _ : Fact (Piece.out ≠ .coh) := ⟨by decide⟩
  exact ((State.homeAtomic_leads (P := fun p => p ≠ .coh) (.same s _) f t line op off operand cmp marked).parts .coh (by simp))

@[simp] theorem State.counted_coh (s : State) (src dst : FieldId × NiId) (t : TintId) (n : Nat) :
    ((State.counted s src dst t n)).coh = s.coh := by
  have _ : Fact (Piece.net ≠ .coh) := ⟨by decide⟩
  exact ((State.counted_leads (P := fun p => p ≠ .coh) (.same s _) src dst t n).parts .coh (by simp))

@[simp] theorem State.counted_mem (s : State) (src dst : FieldId × NiId) (t : TintId) (n : Nat) :
    ((State.counted s src dst t n)).mem = s.mem := by
  have _ : Fact (Piece.net ≠ .mem) := ⟨by decide⟩
  exact ((State.counted_leads (P := fun p => p ≠ .mem) (.same s _) src dst t n).parts .mem (by simp))

@[simp] theorem State.counted_pnl (s : State) (src dst : FieldId × NiId) (t : TintId) (n : Nat) :
    ((State.counted s src dst t n)).pnl = s.pnl := by
  have _ : Fact (Piece.net ≠ .pnl) := ⟨by decide⟩
  exact ((State.counted_leads (P := fun p => p ≠ .pnl) (.same s _) src dst t n).parts .pnl (by simp))

@[simp] theorem State.counted_ports (s : State) (src dst : FieldId × NiId) (t : TintId) (n : Nat) :
    ((State.counted s src dst t n)).ports = s.ports := by
  have _ : Fact (Piece.net ≠ .ports) := ⟨by decide⟩
  exact ((State.counted_leads (P := fun p => p ≠ .ports) (.same s _) src dst t n).parts .ports (by simp))

@[simp] theorem State.counted_ras (s : State) (src dst : FieldId × NiId) (t : TintId) (n : Nat) :
    ((State.counted s src dst t n)).ras = s.ras := by
  have _ : Fact (Piece.net ≠ .ras) := ⟨by decide⟩
  exact ((State.counted_leads (P := fun p => p ≠ .ras) (.same s _) src dst t n).parts .ras (by simp))

@[simp] theorem State.counted_arrays (s : State) (src dst : FieldId × NiId) (t : TintId) (n : Nat) :
    ((State.counted s src dst t n)).arrays = s.arrays := by
  have _ : Fact (Piece.net ≠ .arrays) := ⟨by decide⟩
  exact ((State.counted_leads (P := fun p => p ≠ .arrays) (.same s _) src dst t n).parts .arrays (by simp))

@[simp] theorem State.wayLog_coh (s : State) (p : Option PanelId) (dst : FieldId × NiId) (st : BitVec 3) :
    ((State.wayLog s p dst st)).coh = s.coh := by
  have _ : Fact (Piece.net ≠ .coh) := ⟨by decide⟩
  have _ : Fact (Piece.ras ≠ .coh) := ⟨by decide⟩
  have _ : Fact (Piece.out ≠ .coh) := ⟨by decide⟩
  exact ((State.wayLog_leads (P := fun p => p ≠ .coh) (.same s _) p dst st).parts .coh (by simp))

@[simp] theorem State.wayLog_mem (s : State) (p : Option PanelId) (dst : FieldId × NiId) (st : BitVec 3) :
    ((State.wayLog s p dst st)).mem = s.mem := by
  have _ : Fact (Piece.net ≠ .mem) := ⟨by decide⟩
  have _ : Fact (Piece.ras ≠ .mem) := ⟨by decide⟩
  have _ : Fact (Piece.out ≠ .mem) := ⟨by decide⟩
  exact ((State.wayLog_leads (P := fun p => p ≠ .mem) (.same s _) p dst st).parts .mem (by simp))

@[simp] theorem State.endWaiting_sites (s : State) (n : SiteId) :
    ((State.endWaiting s n)).sites = s.sites := by
  have _ : Fact (Piece.ports ≠ .sites) := ⟨by decide⟩
  have _ : Fact (Piece.twin ≠ .sites) := ⟨by decide⟩
  have _ : Fact (Piece.out ≠ .sites) := ⟨by decide⟩
  exact ((State.endWaiting_leads (P := fun p => p ≠ .sites) (.same s _) n).parts .sites (by simp))

end Sys2Proof.Machine
end

