-- ==== Sys2Proof/Laws/CubeOps.lean ====
section
/-!
SUPPORT. The cube array: passes, queues and drains.
-/

set_option linter.unusedSimpArgs false
set_option linter.unusedVariables false

set_option Elab.async false

namespace Sys2Proof.Machine

theorem toIssue_op {s : State} {a : ArrayId} {op : Nat} {p : PanelId} {w : BitVec 128} (h : s.toIssue a op = some (p, w)) :
    insField w 0 26 6 = op := by
  unfold State.toIssue at h
  dsimp only at h
  split at h
  · split at h
    · cases h; rename_i k; exact k.2.2.2
    · cases h
  · cases h

theorem toIssue_run {s : State} {a : ArrayId} {op : Nat} {p : PanelId} {w : BitVec 128} (h : s.toIssue a op = some (p, w)) :
    s.arrays[a].panel = some p ∧ s.arrays[a].seq.ir = some w ∧ s.arrays[a].st = 0 ∧ s.arrays[a].seq.state = seqRunning ∧
      s.arrays[a].seq.stalled = false := by
  unfold State.toIssue at h
  dsimp only at h
  split at h
  · split at h
    · cases h; rename_i h1 h2 k; exact ⟨h1, h2, k.1, k.2.1, by simpa using k.2.2.1⟩
    · cases h
  · cases h

theorem slotBusy_not_sload (x : CubeState) (w : BitVec 128) (h : insField w 0 26 6 ≠ opSload) : x.slotBusy w = false := by
  simp [CubeState.slotBusy, h]

def opKey (o : CubeOp) := (o.word, o.aDesc, o.bDesc)

theorem modFirst_map {α β : Type} (g : α → β) (p : α → Bool) (f : α → α) (h : ∀ x, g (f x) = g x) (l : List α) :
    (modFirst p f l).map g = l.map g := by
  induction l with
  | nil => rfl
  | cons x xs ih => unfold modFirst; split <;> simp [h, ih]

@[simp] theorem rewind_key (x : CubeState) (n g : Nat) : (x.rewind n g).ops.map opKey = x.ops.map opKey := by
  exact modFirst_map opKey (fun o => o.serial = n)
    (fun o => { o with stalled := true, started := min o.started g, ended := min o.ended g, drained := min o.drained g })
    (fun _ => rfl) x.ops

/-- What the operations of a pass leave of an array: its instructions in flight, the word in hand. -/
def passKey (s : State) (a : ArrayId) := (s.arrays[a].cube.ops.map opKey, s.arrays[a].seq.ir, s.arrays[a].cube.stat)

theorem passKey_arrays {s t : State} (h : t.arrays = s.arrays) (a : ArrayId) : passKey t a = passKey s a := by
  simp [passKey, h]

@[simp] theorem passKey_stallOp (s : State) (a : ArrayId) (p : PanelId) (o : CubeOp) (i n : Nat) (f : VaFault) (m : Bool) :
    passKey (s.stallOp a p o i n f m) a = passKey s a := by
  have h := rewind_key s.arrays[a].cube o.serial (o.tileOf i)
  simp only [passKey, State.stallOp, State.stall, State.arrive, State.wdStop, State.modSeq_arrays, State.modPanel_arrays, State.modCube_arrays, vmod_self, h]
  rfl

@[simp] theorem passKey_stallMid (s : State) (a : ArrayId) (p : PanelId) (o : CubeOp) (i n : Nat) (f : VaFault) :
    passKey (s.stallMid a p o i n f) a = passKey s a := by
  unfold State.stallMid
  dsimp only
  split <;> exact passKey_stallOp _ _ _ _ _ _ _ _

theorem passKey_modCube (s : State) (a : ArrayId) (f : CubeState → CubeState) (h : (f s.arrays[a].cube).ops.map opKey = s.arrays[a].cube.ops.map opKey)
    (k : (f s.arrays[a].cube).stat = s.arrays[a].cube.stat) : passKey (s.modCube a f) a = passKey s a := by
  simp [-Fin.getElem_fin, passKey, h, k]

theorem passKey_passOperands (s : State) (a : ArrayId) (e : Eng) (o : CubeOp) (h : Shape) (x : PassAt) :
    passKey (s.passOperands a e o h x).2 a = passKey s a := by
  unfold State.passOperands
  dsimp only
  have k : ∀ (r : Except VaFault Operand × State), r.2.arrays = s.arrays → True := fun _ _ => trivial
  split
  · rename_i h1
    split at h1
    · cases h1
    · have := congrArg Prod.snd h1; dsimp only at this; rw [← this]; exact passKey_arrays (State.readOperand_arrays _ _ _ _ _ _ _) a
  · rename_i h1
    have ha : (‹State› : State).arrays = s.arrays := by
      split at h1
      · have := congrArg Prod.snd h1; dsimp only at this; rw [← this]
      · have := congrArg Prod.snd h1; dsimp only at this; rw [← this]; exact State.readOperand_arrays _ _ _ _ _ _ _
    have hk := passKey_arrays ha a
    split
    · split
      · rename_i h2
        have := congrArg Prod.snd h2; dsimp only at this; rw [← this]
        rw [passKey_arrays (State.readOperand_arrays _ _ _ _ _ _ _) a, ← hk]
        exact passKey_modCube _ _ _ rfl rfl
      · rename_i h2
        have := congrArg Prod.snd h2; dsimp only at this; rw [← this]
        dsimp only
        rw [passKey_modCube _ _ _ rfl rfl, passKey_arrays (State.readOperand_arrays _ _ _ _ _ _ _) a, ← hk]
        exact passKey_modCube _ _ _ rfl rfl
    · rw [← hk]
      exact passKey_modCube _ _ _ rfl rfl

theorem passKey_startPass (s : State) (a : ArrayId) : passKey (s.startPass a) a = passKey s a := by
  unfold State.startPass
  dsimp only
  split
  · rfl
  split
  · split
    · rfl
    split
    · rfl
    have hc : ∀ (c : Prop) [Decidable c] (x y : Option (Nat × VaFault) × State), x.2.arrays = s.arrays →
        (if c then x else (none, s)) = y → y.2.arrays = s.arrays := by
      intro c _ x y hx h
      split at h
      · rw [← h]; exact hx
      · rw [← h]
    split
    · rename_i h1; have hc := hc _ _ _ (State.checkParts_arrays s _ _ _) h1; rw [passKey_stallOp]; exact passKey_arrays hc a
    · rename_i h1; have hc := hc _ _ _ (State.checkParts_arrays s _ _ _) h1
      dsimp only at hc
      split
      · rename_i h2
        have e := congrArg (fun x => x.2.arrays) h2; dsimp only at e; rw [State.readInit_arrays] at e
        rw [passKey_stallMid]; exact passKey_arrays (e.symm.trans hc) a
      · rename_i h2
        have e := congrArg (fun x => x.2.arrays) h2; dsimp only at e; rw [State.readInit_arrays] at e
        have e1 := passKey_arrays (e.symm.trans hc) a
        split
        · rename_i h3
          have e2 := congrArg (fun x => passKey x.2 a) h3; dsimp only at e2; rw [passKey_passOperands] at e2
          rw [passKey_stallMid, ← e2, e1]
        · rename_i h3
          have e2 := congrArg (fun x => passKey x.2 a) h3; dsimp only at e2; rw [passKey_passOperands] at e2
          rw [passKey_modCube, ← e2, e1]
          · rename_i o _ _ _ _ _ _ _ _ _ _ _ _ _ _ _ _ _ _
            exact modFirst_map opKey _ (fun q => { q with started := q.started + 1 }) (fun _ => rfl) _
          · rfl
  · rfl

theorem passKey_launchOp (s : State) (a : ArrayId) (p : PanelId) (o : CubeOp) :
    (passKey (s.launchOp a p o) a).1 = (passKey s a).1 ∧ (passKey (s.launchOp a p o) a).2.1 = (passKey s a).2.1 := by
  unfold State.launchOp
  dsimp only
  split
  · rename_i h1
    have e := congrArg (fun x => x.2.arrays) h1; dsimp only at e; rw [State.checkParts_arrays] at e
    rw [passKey_stallOp, passKey_arrays e.symm a]; exact ⟨rfl, rfl⟩
  · rename_i h1
    have e := congrArg (fun x => x.2.arrays) h1; dsimp only at e; rw [State.checkParts_arrays] at e
    have e := passKey_arrays e.symm a
    split
    · unfold State.fillSlot
      dsimp only
      split
      · rename_i h2
        have e2 := congrArg (fun x => x.2.arrays) h2; dsimp only at e2; rw [State.readOperand_arrays] at e2
        rw [passKey_stallMid, passKey_arrays e2.symm a, e]; exact ⟨rfl, rfl⟩
      · rename_i h2
        have e2 := congrArg (fun x => x.2.arrays) h2; dsimp only at e2; rw [State.readOperand_arrays] at e2
        have e2 := passKey_arrays e2.symm a
        rw [e] at e2
        rw [← e2]
        simp [-Fin.getElem_fin, passKey]
    · rw [passKey_startPass, e]; exact ⟨rfl, rfl⟩

theorem taken_ports {s t : State} (h : t.ports = s.ports) : t.taken = s.taken := by
  funext q; simp [State.taken, State.queue, h]

theorem cubeEng_congr {s t : State} (a : ArrayId) (p : PanelId) (h : t.ports = s.ports)
    (h1 : t.arrays[a].panel = s.arrays[a].panel) (h2 : t.arrays[a].seq.inv = s.arrays[a].seq.inv)
    (h3 : t.arrays[a].seq.stepOpen = s.arrays[a].seq.stepOpen) : t.cubeEng a p = s.cubeEng a p := by
  simp only [State.cubeEng, State.arrayEng, State.arrayAgent, State.tintOf, taken_ports h, h1, h2, h3]

theorem cubeEng_queueOp (s : State) (a : ArrayId) (p : PanelId) (o : CubeOp) : (s.queueOp a o).cubeEng a p = s.cubeEng a p :=
  cubeEng_congr a p rfl (by simp [-Fin.getElem_fin, State.queueOp, State.issued]) (by simp [-Fin.getElem_fin, State.queueOp, State.issued])
    (by simp [-Fin.getElem_fin, State.queueOp, State.issued])

theorem all_done_next (l : List CubeOp) (o : CubeOp) (h : (l.all fun q => decide (q.passes ≤ q.started) && !q.stalled) = true)
    (k : o.started < o.passes) :
    (l ++ [o]).find? (fun o => decide (o.started < o.passes ∨ o.stalled = true)) = some o := by
  rw [List.find?_append, List.find?_eq_none.mpr]
  · simp [k]
  · intro x hx
    have := List.all_eq_true.mp h x hx
    simp at this ⊢
    exact this

theorem startPass_starts (s s₁ s₂ s₃ : State) (a : ArrayId) (p : PanelId) (o : CubeOp) (slot : Fin 4) (init : Tile) (x y : Operand)
    (h1 : s.arrays[a].cube.haltReq = none) (h2 : (s.arrays[a].cube.acc.any fun t => decide (t.phase = .running)) = false)
    (h3 : s.arrays[a].seq.state = seqRunning) (h4 : s.arrays[a].st = 0) (h5 : s.arrays[a].panel = some p)
    (h6 : s.arrays[a].cube.nextOp = some o) (h7 : s.arrays[a].cube.freeAcc = some slot)
    (h8 : insField o.word 0 26 6 = opStream → s.arrays[a].cube.stat[slotOf o.word].phase = .valid) (h9 : o.started = 0)
    (h10 : s.readInit (s.cubeEng a p) o (s.arrays[a].cube.shape o.word) (o.passAt (s.arrays[a].cube.shape o.word) 0).row
      (o.passAt (s.arrays[a].cube.shape o.word) 0).rows (o.passAt (s.arrays[a].cube.shape o.word) 0).col
      (o.passAt (s.arrays[a].cube.shape o.word) 0).cols = (.ok init, s₂))
    (h11 : s₂.passOperands a (s.cubeEng a p) o (s.arrays[a].cube.shape o.word) (o.passAt (s.arrays[a].cube.shape o.word) 0) = (.ok (x, y), s₃))
    (h12 : s.linesBusy (s.cubeEng a p) .read (readVas (o.parts (s.arrays[a].cube.shape o.word) 0)) = false) :
    (s.startPass a).arrays[a].cube.acc[slot] = ⟨.running, (passTile (s.arrays[a].cube.shape o.word) init x y).1, o.serial,
          (o.passAt (s.arrays[a].cube.shape o.word) 0).row, (o.passAt (s.arrays[a].cube.shape o.word) 0).col⟩ := by
  unfold State.startPass
  dsimp only
  split
  · rename_i k; simp only [h1, h2, h3, h4] at k; exact absurd k (by decide)
  rw [h5, h6, h7]
  dsimp only
  split
  · rename_i k; exact absurd (h8 k.1) k.2
  rw [h9] at *
  rw [if_neg (by rw [h12]; decide)]
  simp only [ne_eq, not_true, and_false, if_false, h10, h11]
  simp [-Fin.getElem_fin]

end Sys2Proof.Machine
end

