-- ==== Sys2Proof/Laws/CubeRun.lean ====
section
/-!
SUPPORT. What halts and passes leave of the cube array.
-/

set_option linter.unusedSimpArgs false
set_option linter.unusedVariables false

set_option Elab.async false

namespace Sys2Proof.Machine

theorem startPass_done (s : State) (a : ArrayId)
    (h : (s.arrays[a].cube.ops.all fun q => decide (q.passes ≤ q.started) && !q.stalled) = true) : s.startPass a = s := by
  have n : s.arrays[a].cube.nextOp = none := by
    unfold CubeState.nextOp
    rw [List.find?_eq_none.mpr]
    intro x hx
    have := List.all_eq_true.mp h x hx
    simp at this ⊢
    exact this
  unfold State.startPass
  simp only [n]
  split
  · rfl
  · split <;> simp_all

theorem modOp_done (x : CubeState) (n : Nat) (f : CubeOp → CubeOp) (hf : ∀ o, (f o).passes = o.passes ∧ (f o).started = o.started ∧ (f o).stalled = o.stalled)
    (h : (x.ops.all fun q => decide (q.passes ≤ q.started) && !q.stalled) = true) :
    ((x.modOp n f).ops.all fun q => decide (q.passes ≤ q.started) && !q.stalled) = true := by
  unfold CubeState.modOp
  dsimp only
  generalize x.ops = l at *
  induction l with
  | nil => exact h
  | cons y ys ih =>
    rw [List.all_cons, Bool.and_eq_true] at h
    unfold modFirst
    split
    · rw [List.all_cons, Bool.and_eq_true]; refine ⟨?_, h.2⟩
      rw [(hf y).1, (hf y).2.1, (hf y).2.2]; exact h.1
    · rw [List.all_cons, Bool.and_eq_true]; exact ⟨h.1, ih h.2⟩

theorem progress_cube (s : State) (a : ArrayId) : (s.progress a).arrays[a].cube = s.arrays[a].cube := by
  unfold State.progress State.wdLoad
  split <;> simp [-Fin.getElem_fin]

theorem haltEffect_array (s : State) (a : ArrayId) (k : HaltKind) :
    (s.haltEffect a k).arrays[a].cube = s.arrays[a].cube.halt (k = .debug || k = .rerunDebug || k = .other) ∧
      (s.haltEffect a k).arrays[a].seq.state = haltState k ∧ (s.haltEffect a k).arrays[a].vec.ctxs = [] ∧ (s.haltEffect a k).arrays[a].moves = [] ∧
      (s.haltEffect a k).arrays[a].seq.stepOpen = (s.arrays[a].seq.stepOpen && (k = .debug || k = .rerun || k = .rerunDebug)) ∧
      (s.haltEffect a k).arrays[a].seq.ir = none := by
  simp [-Fin.getElem_fin, State.haltEffect, State.wdStop]

theorem halt_done (x : CubeState) (m : Bool) : ((x.halt m).ops.all fun q => decide (q.passes ≤ q.started) && !q.stalled) = true := by
  simp [CubeState.halt]

theorem insRetired_cube (s : State) (a : ArrayId) (op : Nat) (pc : BitVec 55) : (s.insRetired a op pc).arrays[a].cube = s.arrays[a].cube := by
  unfold State.insRetired State.wdStop
  dsimp only
  split <;> simp [-Fin.getElem_fin]

theorem feed_cube (s : State) (a : ArrayId) : (s.feed a).arrays[a].cube = s.arrays[a].cube := by
  unfold State.feed
  simp only [State.modVec_arrays, vmod_self]

end Sys2Proof.Machine
end

