-- ==== Sys2Proof/Laws/Halts.lean ====
section
/-!
SUPPORT. What halts, faults and the end of an invocation leave alone.
-/

set_option linter.unusedSimpArgs false
set_option linter.unusedVariables false

set_option Elab.async false

namespace Sys2Proof.Machine

/-- What a halt leaves of an array. -/
def arrKey (x : ArrayState) := (x.st, x.panel, x.logical, x.mode, x.corePatched, x.vec.codeStore, x.vec.active, x.vec.spare, x.seq.fault, x.seq.sems, x.seq.inv, x.cube.descs)

theorem haltEffect_key (s : State) (a b : ArrayId) (k : HaltKind) : arrKey (s.haltEffect a k).arrays[b] = arrKey s.arrays[b] := by
  by_cases h : b = a
  · subst h
    simp [-Fin.getElem_fin, State.haltEffect, State.wdStop, arrKey, CubeState.halt]
  · simp only [State.haltEffect, State.wdStop, State.modArray_arrays, State.modCube_arrays, State.modSeq_arrays, State.cancelStalls_arrays, vmod_other _ _ h]

theorem haltArray_key (s : State) (a b : ArrayId) (k : HaltKind) : arrKey (s.haltArray a k).arrays[b] = arrKey s.arrays[b] := by
  unfold State.haltArray
  dsimp only
  split
  · by_cases h : b = a
    · subst h; simp only [State.modCube_arrays, vmod_self, arrKey]
    · simp only [State.modCube_arrays, vmod_other _ _ h]
  · exact haltEffect_key _ _ _ _

theorem vset_map {α β : Type} {n : Nat} (g : α → β) (v : Vector α n) (i j : Fin n) (x : α) (h : g x = g v[i]) : g (vset v i x)[j] = g v[j] := by
  by_cases e : j = i
  · subst e; rw [vset_self, h]
  · rw [vset_other _ _ e]

theorem modVf_taken (s : State) (p : PortId) (v : VfId) (f : VfState → VfState) (h : ∀ x, (f x).queues = x.queues) (q : QRef) :
    (s.modVf p v f).taken q = s.taken q := by
  unfold State.taken State.queue State.modVf State.modPort
  dsimp only
  have : (vmod s.ports p fun x => { x with vfs := vmod x.vfs v f })[q.port].vfs[q.vf].queues = s.ports[q.port].vfs[q.vf].queues := by
    by_cases e : q.port = p
    · subst e; rw [vmod_self]
      dsimp only
      by_cases g : q.vf = v
      · subst g; rw [vmod_self]; exact h _
      · rw [vmod_other _ _ g]
    · rw [vmod_other _ _ e]
  rw [this]

theorem cancelStalls_taken (s : State) (a : ArrayId) (q : QRef) : (s.cancelStalls a).taken q = s.taken q := by
  unfold State.cancelStalls
  split
  · rfl
  · rfl

theorem haltArray_taken (s : State) (a : ArrayId) (k : HaltKind) (q : QRef) : (s.haltArray a k).taken q = s.taken q := by
  unfold State.haltArray State.haltEffect
  dsimp only
  split
  · rfl
  · show ((s.cancelStalls a)).taken q = _
    exact cancelStalls_taken s a q

theorem foldl_keep {α β : Type} (g : State → β) (f : State → α → State) (h : ∀ t x, g (f t x) = g t) (l : List α) (s : State) :
    g (l.foldl f s) = g s := by
  induction l generalizing s with
  | nil => rfl
  | cons x xs ih => rw [List.foldl_cons, ih, h]

theorem modTaken_self (s : State) (q : QRef) (f : Taken → Taken) : (s.modTaken q f).taken q = (s.taken q).map f := by
  unfold State.taken State.queue State.modTaken State.modQueue State.modVf State.modPort
  dsimp only
  simp only [vmod_self]

theorem endInv_key (s : State) (q : QRef) (st c : Byte) (o : Option ArrayId) (b : ArrayId) :
    arrKey (s.endInv q st c o).arrays[b] = arrKey s.arrays[b] := by
  unfold State.endInv
  split
  · rfl
  · split
    · rfl
    · dsimp only
      rw [foldl_keep (fun t => arrKey t.arrays[b])]
      · rfl
      · intro t x
        split
        · rfl
        · split
          · rfl
          · exact haltArray_key _ _ _ _

theorem endInv_status (s : State) (q : QRef) (st c : Byte) (o : Option ArrayId) (x : Taken) (h : s.taken q = some x) (k : x.status = none) :
    ((s.endInv q st c o).taken q).map (fun y => (y.status, y.faultCode)) = some (some st, c) := by
  unfold State.endInv
  rw [h]
  dsimp only
  rw [if_neg (by rw [k]; decide), foldl_keep (fun t => (t.taken q).map (fun y => (y.status, y.faultCode)))]
  · rw [modTaken_self, h]; rfl
  · intro t b
    split
    · rfl
    · split
      · rfl
      · rw [haltArray_taken]

theorem endInvOf_key (s : State) (a : ArrayId) (st c : Byte) (b : ArrayId) : arrKey (s.endInvOf a st c).arrays[b] = arrKey s.arrays[b] := by
  unfold State.endInvOf
  split
  · exact endInv_key _ _ _ _ _ _
  · rfl

theorem stopAt_key (s : State) (a b : ArrayId) (k : HaltKind) : arrKey (s.stopAt a k).arrays[b] = arrKey s.arrays[b] := by
  unfold State.stopAt
  rw [haltEffect_key]
  by_cases h : b = a
  · subst h; simp only [State.modCube_arrays, vmod_self, arrKey]
  · simp only [State.modCube_arrays, vmod_other _ _ h]

theorem key_st {x y : ArrayState} (h : arrKey x = arrKey y) : x.st = y.st ∧ x.panel = y.panel ∧ x.logical = y.logical ∧ x.mode = y.mode ∧ x.corePatched = y.corePatched ∧
    x.vec.codeStore = y.vec.codeStore ∧ x.vec.active = y.vec.active ∧ x.vec.spare = y.vec.spare ∧ x.seq.fault = y.seq.fault ∧ x.seq.sems = y.seq.sems ∧ x.seq.inv = y.seq.inv ∧ x.cube.descs = y.cube.descs := by
  simp only [arrKey, Prod.mk.injEq] at h; exact h

theorem continueOn_key (s : State) (b a : ArrayId) (p : PanelId) (code : Byte) :
    arrKey (s.continueOn b p code).arrays[a] = arrKey s.arrays[a] := by
  have e : ∀ (f : SeqState → SeqState), (∀ x, (f x).fault = x.fault ∧ (f x).sems = x.sems ∧ (f x).inv = x.inv) → arrKey (s.modSeq b f).arrays[a] = arrKey s.arrays[a] := by
    intro f hf
    by_cases h : a = b
    · subst h; simp only [State.modSeq_arrays, vmod_self, arrKey, (hf _).1, (hf _).2.1, (hf _).2.2]
    · simp only [State.modSeq_arrays, vmod_other _ _ h]
  unfold State.continueOn
  dsimp only
  split
  · exact e _ (fun _ => ⟨rfl, rfl, rfl⟩)
  split
  · exact e _ (fun _ => ⟨rfl, rfl, rfl⟩)
  split
  · rfl
  split
  · split
    · exact e _ (fun _ => ⟨rfl, rfl, rfl⟩)
    · rw [endInvOf_key]; exact e _ (fun _ => ⟨rfl, rfl, rfl⟩)
  · rfl

theorem logArray_patches (s : State) (a : ArrayId) (c x : BitVec 3) (code : Byte) (i : BitVec 16) (p : Word) :
    (s.logArray a c x code i p).ras.patches = s.ras.patches ∧ (s.logArray a c x code i p).ras.patchBoot = s.ras.patchBoot := by
  unfold State.logArray State.logFault
  dsimp only
  split <;> (simp only [State.modRas_ras, State.emit_ras]; by_cases hl : s.ras.flog.length < 1024 <;> simp [hl])

theorem chooseSpare_congr {s t : State} (h : ∀ a : ArrayId, t.arrays[a].st = s.arrays[a].st) (a : ArrayId) : t.chooseSpare a = s.chooseSpare a := by
  unfold State.chooseSpare State.wearSpares
  congr 1
  apply List.filter_congr
  intro x _
  rw [h x]

theorem bestSpare_mem (f : ArrayId) (l : List ArrayId) (b : ArrayId) (h : bestSpare f l = some b) : b ∈ l := by
  induction l generalizing b with
  | nil => cases h
  | cons x xs ih =>
    unfold bestSpare at h
    split at h
    · cases h; exact List.mem_cons_self
    · split at h
      · cases h; exact List.mem_cons_of_mem _ (ih _ (by assumption))
      · cases h; exact List.mem_cons_self

theorem chooseSpare_st {s : State} {a b : ArrayId} (h : s.chooseSpare a = some b) : s.arrays[b].st = 1 := by
  have := bestSpare_mem _ _ _ h
  unfold State.wearSpares at this
  have := (List.mem_filter.mp this).2
  simpa [-Fin.getElem_fin] using this

@[simp] theorem checkGrade_arrays (s : State) : s.checkGrade.arrays = s.arrays := rfl
@[simp] theorem checkGrade_pnl (s : State) : s.checkGrade.pnl = s.pnl := rfl
@[simp] theorem checkGrade_patches (s : State) : s.checkGrade.ras.patches = s.ras.patches := rfl
@[simp] theorem addPatch_arrays (s : State) (k : BitVec 4) (c : Byte) (f g : Word) : (s.addPatch k c f g).arrays = s.arrays := rfl
@[simp] theorem addPatch_pnl (s : State) (k : BitVec 4) (c : Byte) (f g : Word) : (s.addPatch k c f g).pnl = s.pnl := rfl
@[simp] theorem addPatch_patches (s : State) (k : BitVec 4) (c : Byte) (f g : Word) :
    (s.addPatch k c f g).ras.patches = s.ras.patches ++ [⟨k, c, s.ras.patchBoot, f, g, false⟩] := rfl
@[simp] theorem setSink_arrays (s : State) (f : FieldId) (n : NiId) (b : Bool) : (s.setSink f n b).arrays = s.arrays := rfl
@[simp] theorem setSink_ras (s : State) (f : FieldId) (n : NiId) (b : Bool) : (s.setSink f n b).ras = s.ras := rfl
@[simp] theorem enlist_ras (s : State) (b : ArrayId) : (s.enlist b).ras = s.ras := rfl
@[simp] theorem loseArray_ras (s : State) (a : ArrayId) (p : PanelId) : (s.loseArray a p).ras = s.ras := State.leaveInv_ras s a
@[simp] theorem replaceArray_ras (s : State) (a b : ArrayId) (p : PanelId) (x : Bool) : (s.replaceArray a b p x).ras = s.ras := by
  simp only [State.replaceArray, State.modNet_ras, State.modPanel_ras, State.modArray_ras, setSink_ras, State.leaveInv_ras]
@[simp] theorem loseArray_self (s : State) (a : ArrayId) (p : PanelId) : (s.loseArray a p).arrays[a] = s.arrays[a].retired := by
  simp only [State.loseArray, State.modArray_arrays, State.modPanel_arrays, State.leaveInv_arrays, vmod_self]
theorem replaceArray_old (s : State) (a b : ArrayId) (p : PanelId) (x : Bool) (h : a ≠ b) :
    (s.replaceArray a b p x).arrays[a] = s.arrays[a].retired := by
  simp only [State.replaceArray, State.modNet_arrays, State.modArray_arrays, State.modPanel_arrays, setSink_arrays, State.leaveInv_arrays, vmod_self, vmod_other _ _ h]
theorem replaceArray_new (s : State) (a b : ArrayId) (p : PanelId) (x : Bool) (h : b ≠ a) :
    (s.replaceArray a b p x).arrays[b] = s.arrays[b].takeOver s.arrays[a] := by
  simp only [State.replaceArray, State.modNet_arrays, State.modArray_arrays, State.modPanel_arrays, setSink_arrays, State.leaveInv_arrays, vmod_self, vmod_other _ _ h]
theorem replaceArray_panel (s : State) (a b : ArrayId) (p : PanelId) (x : Bool) :
    (s.replaceArray a b p x).pnl.panels[p].arrays = s.pnl.panels[p].arrays.set s.arrays[a].logical.toNat (some b) := by
  simp only [State.replaceArray, State.modNet_pnl, State.modArray_pnl, State.modPanel_pnl, State.setSink, State.leaveInv_pnl, vmod_self]

/-- The state of an array that is about to be retired. -/
def retireStart (s : State) (a : ArrayId) : State :=
  (s.stopAt a .fault).modSeq a fun y => { y with state := s.arrays[a].seq.state, stepOpen := s.arrays[a].seq.stepOpen }

theorem retireStart_ras (s : State) (a : ArrayId) : (retireStart s a).ras = s.ras := State.stopAt_ras s a .fault

theorem retireStart_key (s : State) (a b : ArrayId) : arrKey (retireStart s a).arrays[b] = arrKey s.arrays[b] := by
  rw [← stopAt_key s a b .fault]
  unfold retireStart
  by_cases h : b = a
  · subst h; simp only [State.modSeq_arrays, vmod_self, arrKey]
  · simp only [State.modSeq_arrays, vmod_other _ _ h]

theorem logArray_arrays (s : State) (a : ArrayId) (c x : BitVec 3) (code : Byte) (i : BitVec 16) (p : Word) :
    (s.logArray a c x code i p).arrays = s.arrays := State.logFault_arrays _ _

theorem retire_st (s : State) (a : ArrayId) (src : BitVec 3) (code : Byte) (info : BitVec 16) (h : s.arrays[a].st = 0) :
    (s.retireArray a src code info).arrays[a].st = 3 ∧ (s.retireArray a src code info).arrays[a].panel = none ∧
    (s.retireArray a src code info).ras.patches = s.ras.patches ++
      [⟨1, code, s.ras.patchBoot, BitVec.ofNat 32 a.val, ((s.chooseSpare a).map fun b => BitVec.ofNat 32 b.val).getD noSpare, false⟩] := by
  have lp := fun (s : State) (c : BitVec 3) (p : Word) => (logArray_patches s a c src code info p).1
  have lb := fun (s : State) (c : BitVec 3) (p : Word) => (logArray_patches s a c src code info p).2
  unfold State.retireArray
  rw [if_neg (fun k => k h)]
  dsimp only
  split
  · rename_i b h1 h2
    have hb : a ≠ b := by intro e; have := chooseSpare_st h1; rw [← e, h] at this; exact absurd this (by decide)
    simp only [h1, checkGrade_arrays, setSink_arrays, State.modArray_arrays, vmod_self, ArrayState.retired, checkGrade_patches, setSink_ras, State.modArray_ras,
      enlist_ras, addPatch_patches, lp, lb]
    exact ⟨trivial, trivial, by rw [← retireStart_ras s a]; rfl⟩
  · rename_i b _ h1 h2
    have hb : a ≠ b := by intro e; have := chooseSpare_st h1; rw [← e, h] at this; exact absurd this (by decide)
    refine ⟨?_, ?_, ?_⟩
    · rw [(key_st (continueOn_key _ _ a _ _)).1, checkGrade_arrays, replaceArray_old _ _ _ _ _ hb]; rfl
    · rw [(key_st (continueOn_key _ _ a _ _)).2.1, checkGrade_arrays, replaceArray_old _ _ _ _ _ hb]; rfl
    · rw [State.continueOn_ras, checkGrade_patches, replaceArray_ras, addPatch_patches, lp, lb, h1, ← retireStart_ras s a]; rfl
  · rename_i h1 h2
    simp only [h1, checkGrade_arrays, setSink_arrays, State.modArray_arrays, vmod_self, ArrayState.retired, checkGrade_patches, setSink_ras, State.modArray_ras,
      addPatch_patches, lp, lb]
    exact ⟨trivial, trivial, by rw [← retireStart_ras s a]; rfl⟩
  · rename_i h1 h2
    simp only [h1, checkGrade_arrays, setSink_arrays, loseArray_self, ArrayState.retired, checkGrade_patches, setSink_ras, loseArray_ras,
      State.endInvOf_ras, addPatch_patches, lp, lb]
    exact ⟨trivial, trivial, by rw [← retireStart_ras s a]; rfl⟩

theorem seqFault_key (s : State) (a b : ArrayId) (src : BitVec 3) (code : Byte) (info : BitVec 16) :
    (s.seqFault a src code info).arrays[b].st = s.arrays[b].st := by
  by_cases h : b = a
  · subst h; simp only [State.seqFault, State.modSeq_arrays, vmod_self]
  · simp only [State.seqFault, State.modSeq_arrays, vmod_other _ _ h]

theorem arrFault_st (s : State) (a b : ArrayId) (code : Byte) (info : BitVec 16) :
    (s.arrFault a code info).arrays[b].st = s.arrays[b].st := by
  by_cases h : b = a
  · subst h; simp only [State.arrFault, State.modCube_arrays, vmod_self]
  · simp only [State.arrFault, State.modCube_arrays, vmod_other _ _ h]

theorem logArray_pnl (s : State) (a : ArrayId) (c x : BitVec 3) (code : Byte) (i : BitVec 16) (p : Word) :
    (s.logArray a c x code i p).pnl = s.pnl := State.logFault_pnl _ _

theorem modVfOf_pnl (s : State) (p : PanelId) (f : VfState → VfState) : (s.modVfOf p f).pnl = s.pnl := by
  unfold State.modVfOf; dsimp only; split <;> rfl

theorem cancelStalls_panelArrays (s : State) (a : ArrayId) (p : PanelId) : (s.cancelStalls a).pnl.panels[p].arrays = s.pnl.panels[p].arrays := by
  unfold State.cancelStalls
  split
  · rfl
  · rename_i q _
    by_cases h : p = q
    · subst h; simp only [State.modPanel_pnl, vmod_self]
    · simp only [State.modPanel_pnl, vmod_other _ _ h]

theorem haltEffect_panelArrays (s : State) (a : ArrayId) (k : HaltKind) (p : PanelId) : (s.haltEffect a k).pnl.panels[p].arrays = s.pnl.panels[p].arrays :=
  cancelStalls_panelArrays s a p

theorem haltArray_panelArrays (s : State) (a : ArrayId) (k : HaltKind) (p : PanelId) : (s.haltArray a k).pnl.panels[p].arrays = s.pnl.panels[p].arrays := by
  unfold State.haltArray; dsimp only; split
  · rfl
  · exact haltEffect_panelArrays _ _ _ _

theorem stopAt_panelArrays (s : State) (a : ArrayId) (k : HaltKind) (p : PanelId) : (s.stopAt a k).pnl.panels[p].arrays = s.pnl.panels[p].arrays :=
  haltEffect_panelArrays _ _ _ _

theorem endInvOf_panelArrays (s : State) (a : ArrayId) (st c : Byte) (p : PanelId) : (s.endInvOf a st c).pnl.panels[p].arrays = s.pnl.panels[p].arrays := by
  unfold State.endInvOf
  split
  · unfold State.endInv
    split
    · rfl
    · split
      · rfl
      · dsimp only
        rw [foldl_keep (fun t => t.pnl.panels[p].arrays)]
        · rfl
        · intro t x
          split
          · rfl
          · split
            · rfl
            · exact haltArray_panelArrays _ _ _ _
  · rfl

theorem continueOn_panelArrays (s : State) (b : ArrayId) (p q : PanelId) (code : Byte) :
    (s.continueOn b p code).pnl.panels[q].arrays = s.pnl.panels[q].arrays := by
  unfold State.continueOn
  dsimp only
  split
  · rfl
  split
  · rfl
  split
  · rfl
  split
  · split
    · rfl
    · rw [endInvOf_panelArrays]; rfl
  · rfl

theorem getLsbD_or_bit (w : Word) (i : Nat) (h : i < 32 := by omega) : (w ||| BitVec.ofNat 32 (2 ^ i)).getLsbD i = true := by
  rw [BitVec.getLsbD_or, BitVec.getLsbD_ofNat]; simp [h, Nat.testBit_two_pow_self]

theorem haltEffect_other (s : State) (a b : ArrayId) (k : HaltKind) (h : b ≠ a) : (s.haltEffect a k).arrays[b] = s.arrays[b] := by
  simp only [State.haltEffect, State.wdStop, State.modArray_arrays, State.modCube_arrays, State.modSeq_arrays, State.cancelStalls_arrays, vmod_other _ _ h]

theorem haltArray_other (s : State) (a b : ArrayId) (k : HaltKind) (h : b ≠ a) : (s.haltArray a k).arrays[b] = s.arrays[b] := by
  unfold State.haltArray
  dsimp only
  split
  · simp only [State.modCube_arrays, vmod_other _ _ h]
  · exact haltEffect_other _ _ _ _ h

theorem endInv_self (s : State) (q : QRef) (st c : Byte) (a : ArrayId) : (s.endInv q st c (some a)).arrays[a] = s.arrays[a] := by
  unfold State.endInv
  split
  · rfl
  · split
    · rfl
    · dsimp only
      rw [foldl_keep (fun t => t.arrays[a])]
      · rfl
      · intro t x
        split
        · rfl
        · rename_i e
          split
          · rfl
          · exact haltArray_other _ _ _ _ (fun k => e (by rw [k]))

theorem endInv_state (s : State) (q : QRef) (st c : Byte) (a : ArrayId) : (s.endInv q st c (some a)).arrays[a].seq.state = s.arrays[a].seq.state := by
  rw [endInv_self]

theorem endInvOf_self (s : State) (a : ArrayId) (st c : Byte) : (s.endInvOf a st c).arrays[a] = s.arrays[a] := by
  unfold State.endInvOf
  split
  · exact endInv_self _ _ _ _ _
  · rfl

end Sys2Proof.Machine
end

