-- ==== Sys2Proof/Laws/VectorOps.lean ====
section
/-!
SUPPORT. The vector core: contexts, lanes and launches.
-/

set_option linter.unusedSimpArgs false
set_option linter.unusedVariables false

set_option Elab.async false

namespace Sys2Proof.Machine

theorem vecStep_run (s : State) (a : ArrayId) (core : Fin 16) (p : PanelId) (c : Ctx) (w : DWord) (h1 : s.toRun a core = some (p, c))
    (h2 : c.pc < 16384) (h3 : s.arrays[a].vec.codeAt c.pc = ⟨w, false⟩) (run : PanelId → Ctx → VIns → DWord → State) :
    s.vecStep a core run = run p c (vins w) w := by
  unfold State.vecStep
  rw [h1]
  dsimp only
  rw [if_neg (by omega), h3]
  rfl

theorem modFirst_find {α : Type} (p : α → Bool) (f : α → α) (hf : ∀ x, p x = true → p (f x) = true) (l : List α) (c : α)
    (h : l.find? p = some c) : (modFirst p f l).find? p = some (f c) := by
  induction l with
  | nil => cases h
  | cons x xs ih =>
    unfold modFirst
    by_cases k : p x = true
    · rw [if_pos k]
      rw [List.find?_cons_of_pos k] at h
      cases h
      rw [List.find?_cons_of_pos (hf _ k)]
    · rw [if_neg k, List.find?_cons_of_neg k]
      rw [List.find?_cons_of_neg k] at h
      exact ih h

theorem vecIssued_find (s : State) (a : ArrayId) (c : Ctx) (f : Ctx → Ctx) (h : (s.arrays[a].vec.ctxs.find? fun x => isCtx c.core c.idx x) = some c)
    (hf : ∀ y, (f y).core = y.core ∧ (f y).idx = y.idx) :
    ((s.vecIssued a c f).arrays[a].vec.ctxs.find? fun x => isCtx c.core c.idx x) = some (f { c with pc := c.pc + 1 }) := by
  simp only [State.vecIssued, State.modCtx, State.modVec_arrays, vmod_self]
  exact modFirst_find (isCtx c.core c.idx) (fun y => f { y with pc := y.pc + 1 })
    (fun x k => by unfold isCtx at *; rw [(hf _).1, (hf _).2]; exact k) _ c h

theorem setLane_ids (c : Ctx) (r l : Nat) (x : Elem) : (c.setLane r l x).core = c.core ∧ (c.setLane r l x).idx = c.idx ∧ (c.setLane r l x).pc = c.pc :=
  ⟨rfl, rfl, rfl⟩

theorem foldCtx_keep {β α : Type} (g : Ctx → β) (f : Ctx → α → Ctx) (h : ∀ t x, g (f t x) = g t) (l : List α) (s : Ctx) :
    g (l.foldl f s) = g s := by
  induction l generalizing s with
  | nil => rfl
  | cons x xs ih => rw [List.foldl_cons, ih, h]

theorem mapLanes_ids (c : Ctx) (i : VIns) (f : Nat → Elem) : (c.mapLanes i f).core = c.core ∧ (c.mapLanes i f).idx = c.idx :=
  ⟨foldCtx_keep (·.core) (fun x l => x.setLane i.dest l (f l)) (fun _ _ => rfl) _ _, foldCtx_keep (·.idx) (fun x l => x.setLane i.dest l (f l)) (fun _ _ => rfl) _ _⟩
theorem mapLanes_pc (c : Ctx) (i : VIns) (f : Nat → Elem) : (c.mapLanes i f).pc = c.pc := foldCtx_keep (·.pc) (fun x l => x.setLane i.dest l (f l)) (fun _ _ => rfl) _ _
theorem runLanes_ids (c : Ctx) (op : VecOp) (i : VIns) : (c.runLanes op i).core = c.core ∧ (c.runLanes op i).idx = c.idx := mapLanes_ids _ _ _
theorem runLanes_pc (c : Ctx) (op : VecOp) (i : VIns) : (c.runLanes op i).pc = c.pc := mapLanes_pc _ _ _
theorem runSelect_ids (c : Ctx) (i : VIns) : (c.runSelect i).core = c.core ∧ (c.runSelect i).idx = c.idx := mapLanes_ids _ _ _
theorem runShuffle_ids (c : Ctx) (w : DWord) (i : VIns) (b : Bool) : (c.runShuffle w i b).core = c.core ∧ (c.runShuffle w i b).idx = c.idx :=
  mapLanes_ids _ _ _
theorem runReduce_ids (c : Ctx) (i : VIns) (f : List Word → Word) : (c.runReduce i f).core = c.core ∧ (c.runReduce i f).idx = c.idx := ⟨rfl, rfl⟩
theorem runCmp_ids (c : Ctx) (op : VecOp) (i : VIns) : (c.runCmp op i).core = c.core ∧ (c.runCmp op i).idx = c.idx := by
  unfold Ctx.runCmp
  dsimp only
  constructor
  · rw [foldCtx_keep (·.core)]; intro _ _; rfl
  · rw [foldCtx_keep (·.idx)]; intro _ _; rfl
theorem runVmxq_ids (c : Ctx) (f : MxFormat) (i : VIns) : (c.runVmxq f i).core = c.core ∧ (c.runVmxq f i).idx = c.idx := by
  unfold Ctx.runVmxq
  dsimp only
  constructor
  · rw [foldCtx_keep (·.core)]; intro _ _; rfl
  · rw [foldCtx_keep (·.idx)]; intro _ _; rfl

theorem find_putEntry {α : Type} (k j : Nat) (x : α) (l : List (Nat × α)) :
    ((putEntry k x l).find? fun e => e.1 = j) = if j = k then some (k, x) else l.find? fun e => e.1 = j := by
  unfold putEntry
  by_cases h : j = k
  · subst h; simp
  · rw [if_neg h, List.find?_cons_of_neg (by simpa using fun e => h e.symm)]
    induction l with
    | nil => rfl
    | cons y ys ih =>
      by_cases e : y.1 = k
      · rw [List.filter_cons_of_neg (by simp [e]), ih, List.find?_cons_of_neg (by simp [e]; exact fun q => h q.symm)]
      · rw [List.filter_cons_of_pos (by simp [e])]
        by_cases g : y.1 = j
        · rw [List.find?_cons_of_pos (by simp [g]), List.find?_cons_of_pos (by simp [g])]
        · rw [List.find?_cons_of_neg (by simp [g]), List.find?_cons_of_neg (by simp [g]), ih]

theorem born_setLane (c : Ctx) (r l : Nat) (x : Elem) : (c.setLane r l x).born = c.born := rfl

theorem lane_setLane (c : Ctx) (r l r2 l2 : Nat) (x : Elem) (h : l < 64) (h2 : l2 < 64) :
    (c.setLane r l x).lane r2 l2 = if r2 = r ∧ l2 = l then x else c.lane r2 l2 := by
  have e : (c.setLane r l x).lane r2 l2 = (((putEntry (r * 64 + l) x c.v).find? fun e => e.1 = r2 * 64 + l2).map (·.2)).getD
    { bits := Config.laneInit c.born r2 l2, mark := false } := rfl
  rw [e, find_putEntry]
  have : (r2 * 64 + l2 = r * 64 + l) ↔ (r2 = r ∧ l2 = l) := by omega
  by_cases k : r2 = r ∧ l2 = l
  · rw [if_pos (this.mpr k), if_pos k]; rfl
  · rw [if_neg (fun q => k (this.mp q)), if_neg k]; rfl

theorem foldLane (f : Nat → Elem) (d r l : Nat) (hl : l < 64) (ls : List Nat) (hs : ∀ x ∈ ls, x < 64) (c : Ctx) :
    (ls.foldl (fun x l => x.setLane d l (f l)) c).lane r l = if r = d ∧ l ∈ ls then f l else c.lane r l := by
  induction ls generalizing c with
  | nil => simp
  | cons y ys ih =>
    rw [List.foldl_cons, ih (fun x hx => hs x (List.mem_cons_of_mem _ hx)), lane_setLane _ _ _ _ _ _ (hs y List.mem_cons_self) hl]
    by_cases a : r = d
    · by_cases b : l ∈ ys
      · simp [a, b]
      · by_cases e : l = y
        · subst e; simp [a, b]
        · simp [a, b, e]
    · simp [a]

theorem onBits_lt {n : Nat} (w : BitVec n) : ∀ x ∈ onBits w, x < n := by
  intro x hx; exact List.mem_range.mp (List.mem_filter.mp hx).1

theorem mapLanes_lane (c : Ctx) (i : VIns) (f : Nat → Elem) (l : Nat) (hl : l < 64) :
    (c.mapLanes i f).lane i.dest l = if l ∈ c.enabled i then f l else c.lane i.dest l := by
  unfold Ctx.mapLanes
  rw [foldLane f i.dest i.dest l hl (c.enabled i) (onBits_lt _)]
  simp

theorem mapLanes_other (c : Ctx) (i : VIns) (f : Nat → Elem) (r l : Nat) (hl : l < 64) (hr : r ≠ i.dest) :
    (c.mapLanes i f).lane r l = c.lane r l := by
  unfold Ctx.mapLanes
  rw [foldLane f i.dest r l hl (c.enabled i) (onBits_lt _)]
  simp [hr]

theorem enabled_mem (c : Ctx) (i : VIns) (l : Nat) (hl : l < 64) : (l ∈ c.enabled i) = (bit (c.preg i.pred).bits l = true) := by
  simp [Ctx.enabled, onBits, bit, hl]


theorem insRetired_vec (s : State) (a : ArrayId) (op : Nat) (pc : BitVec 55) : (s.insRetired a op pc).arrays[a].vec = s.arrays[a].vec := by
  unfold State.insRetired State.wdStop
  dsimp only
  split <;> simp [-Fin.getElem_fin]

theorem progress_vec (s : State) (a : ArrayId) : (s.progress a).arrays[a].vec = s.arrays[a].vec := by
  unfold State.progress State.wdLoad
  split <;> simp [-Fin.getElem_fin]

theorem siteWrites_vec (s : State) (a : ArrayId) (p : PanelId) (l : List (BitVec 55)) : (s.siteWrites a p l).arrays[a].vec = s.arrays[a].vec := by
  unfold State.siteWrites
  split <;> simp [-Fin.getElem_fin]

theorem endStep_fault (s : State) (a : ArrayId) (src : BitVec 3) (code : Byte) (info : BitVec 16) (st : Byte) (h : s.arrays[a].seq.fault.valid = false) :
    (s.endStep a src code info st).arrays[a].seq.fault = ⟨true, s.arrays[a].seq.fault.overflow, src, code, info⟩ := by
  unfold State.endStep
  dsimp only
  rw [endInvOf_self, (key_st (haltArray_key _ a a _)).2.2.2.2.2.2.2.2.1]
  have e : ((s.seqFault a src code info).logArray a 0 src code info).arrays[a].seq.fault = ⟨true, s.arrays[a].seq.fault.overflow, src, code, info⟩ := by
    rw [logArray_arrays]
    simp only [State.seqFault, State.modSeq_arrays, vmod_self, FaultRec.add, h, Bool.false_eq_true, if_false]
  split
  · rw [← e]; simp only [State.arrFault, State.modCube_arrays, vmod_self]
  · exact e

end Sys2Proof.Machine
end

