-- ==== Sys2Proof/Laws/ScheduleOps.lean ====
section
/-!
SUPPORT. The sequencer: retired instructions, waits, loads and moves.
-/

set_option linter.unusedSimpArgs false
set_option linter.unusedVariables false

set_option Elab.async false

namespace Sys2Proof.Machine

theorem insRetired_same (s : State) (a : ArrayId) (op : Nat) (pc : BitVec 55) (h : s.arrays[a].seq.singleStep = false) :
    (s.insRetired a op pc).arrays[a] = s.arrays[a] := by
  unfold State.insRetired
  dsimp only
  rw [if_neg (by rw [State.traceSchedule_arrays, h]; exact fun k => absurd k.1 (by decide)), State.traceSchedule_arrays]

theorem insRetired_keep (s : State) (a : ArrayId) (op : Nat) (pc : BitVec 55) :
    (s.insRetired a op pc).arrays[a].seq.loops = s.arrays[a].seq.loops ∧ (s.insRetired a op pc).arrays[a].seq.pc = s.arrays[a].seq.pc ∧
    (s.insRetired a op pc).arrays[a].seq.ir = s.arrays[a].seq.ir ∧ (s.insRetired a op pc).arrays[a].seq.afterStepend = s.arrays[a].seq.afterStepend ∧
    (s.insRetired a op pc).arrays[a].seq.attempt = s.arrays[a].seq.attempt ∧ (s.insRetired a op pc).arrays[a].seq.stepId = s.arrays[a].seq.stepId ∧
    (s.insRetired a op pc).arrays[a].seq.atomic = s.arrays[a].seq.atomic ∧ (s.insRetired a op pc).arrays[a].seq.stepPc = s.arrays[a].seq.stepPc ∧
    (s.insRetired a op pc).arrays[a].seq.savedLoops = s.arrays[a].seq.savedLoops := by
  unfold State.insRetired State.wdStop
  dsimp only
  split <;> simp [-Fin.getElem_fin]

theorem insDone_keep (s : State) (a : ArrayId) (op : Nat) :
    (s.insDone a op).arrays[a].seq.loops = s.arrays[a].seq.loops ∧ (s.insDone a op).arrays[a].seq.pc = s.arrays[a].seq.pc ∧
    (s.insDone a op).arrays[a].seq.ir = none ∧ (s.insDone a op).arrays[a].seq.afterStepend = false := by
  have k := insRetired_keep (s.issued a) a op (s.insPc a)
  unfold State.insDone
  rw [k.1, k.2.1, k.2.2.1, k.2.2.2.1]
  simp only [State.issued, State.modSeq_arrays, vmod_self]
  exact ⟨trivial, trivial, trivial, trivial⟩

theorem takeWaits_keep (n : Nat) (x : SeqState) : (x.takeWaits n).attempt = x.attempt ∧ (x.takeWaits n).stepId = x.stepId ∧ (x.takeWaits n).atomic = x.atomic ∧
    (x.takeWaits n).stepPc = x.stepPc ∧ (x.takeWaits n).savedLoops = x.savedLoops ∧ (x.takeWaits n).ir = x.ir := by
  induction n generalizing x with
  | zero => exact ⟨rfl, rfl, rfl, rfl, rfl, rfl⟩
  | succ n ih =>
    unfold SeqState.takeWaits
    dsimp only
    split
    · exact ⟨rfl, rfl, rfl, rfl, rfl, rfl⟩
    · split
      · exact ih _
      · exact ⟨rfl, rfl, rfl, rfl, rfl, rfl⟩

theorem evalWaits_keep (s : State) (a : ArrayId) : (s.evalWaits a).arrays[a].seq.attempt = s.arrays[a].seq.attempt ∧ (s.evalWaits a).arrays[a].seq.stepId = s.arrays[a].seq.stepId ∧
    (s.evalWaits a).arrays[a].seq.atomic = s.arrays[a].seq.atomic ∧ (s.evalWaits a).arrays[a].seq.stepPc = s.arrays[a].seq.stepPc ∧
    (s.evalWaits a).arrays[a].seq.savedLoops = s.arrays[a].seq.savedLoops ∧ (s.evalWaits a).arrays[a].seq.ir = s.arrays[a].seq.ir := by
  have w := takeWaits_keep 5 s.arrays[a].seq
  unfold State.evalWaits
  split
  · exact ⟨rfl, rfl, rfl, rfl, rfl, rfl⟩
  · dsimp only
    split
    · simp only [State.modSeq_arrays, vmod_self]; exact w
    · have k := insRetired_keep ((((s.modSeq a fun x => x.takeWaits 5).modSeq a fun x => { x with state := seqRunning, stepOpen := true }).wdLoad a)) a opStep
        ((s.modSeq a fun x => x.takeWaits 5).insPc a)
      refine ⟨k.2.2.2.2.1.trans ?_, k.2.2.2.2.2.1.trans ?_, k.2.2.2.2.2.2.1.trans ?_, k.2.2.2.2.2.2.2.1.trans ?_, k.2.2.2.2.2.2.2.2.trans ?_, k.2.2.1.trans ?_⟩ <;>
        simp only [State.wdLoad, State.modSeq_arrays, vmod_self, w.1, w.2.1, w.2.2.1, w.2.2.2.1, w.2.2.2.2.1, w.2.2.2.2.2]

theorem insDone_cube (s : State) (a : ArrayId) (op : Nat) : (s.insDone a op).arrays[a].cube = s.arrays[a].cube := by
  unfold State.insDone; rw [insRetired_cube]; simp only [State.issued, State.modSeq_arrays, vmod_self]
theorem insDone_vec (s : State) (a : ArrayId) (op : Nat) : (s.insDone a op).arrays[a].vec = s.arrays[a].vec := by
  unfold State.insDone; rw [insRetired_vec]; simp only [State.issued, State.modSeq_arrays, vmod_self]

theorem putDescs (first : Nat) (g : Nat → BitVec 256) (n : Nat) (h : n + first ≤ 64) (x : CubeState) (j : Fin 64) :
    ((List.range n).foldl (fun (x : CubeState) i => { x with descs := vset x.descs (asFin 64 (first + i)) (g i) }) x).descs[j] =
      if first ≤ j.val ∧ j.val < first + n then g (j.val - first) else x.descs[j] := by
  induction n with
  | zero => rw [if_neg (by omega)]; rfl
  | succ n ih =>
    rw [List.range_succ, List.foldl_append, List.foldl_cons, List.foldl_nil]
    have ih := ih (by omega)
    have v : (asFin 64 (first + n)).val = first + n := by simp [asFin, Fin.ofNat]; omega
    by_cases e : j = asFin 64 (first + n)
    · have : j.val = first + n := by rw [e, v]
      rw [if_pos (by omega)]
      have : j.val - first = n := by omega
      rw [this]
      subst e
      rw [vset_self]
    · have : j.val ≠ first + n := fun k => e (Fin.ext (k.trans v.symm))
      rw [vset_other _ _ e, ih]
      by_cases k : first ≤ j.val ∧ j.val < first + n
      · rw [if_pos k, if_pos (by omega)]
      · rw [if_neg k, if_neg (by omega)]

theorem putCodes (off : Nat) (g : Nat → CodeEntry) (n : Nat) (l : List (Nat × CodeEntry)) (j : Nat) :
    (((List.range n).foldl (fun c i => putEntry (off + i) (g i) c) l).find? fun e => e.1 = j) =
      if off ≤ j ∧ j < off + n then some (j, g (j - off)) else l.find? fun e => e.1 = j := by
  induction n with
  | zero => rw [if_neg (by omega)]; rfl
  | succ n ih =>
    rw [List.range_succ, List.foldl_append, List.foldl_cons, List.foldl_nil, find_putEntry, ih]
    by_cases e : j = off + n
    · subst e; rw [if_pos rfl, if_pos (by omega)]; simp
    · rw [if_neg e]
      by_cases k : off ≤ j ∧ j < off + n
      · rw [if_pos k, if_pos (by omega)]
      · rw [if_neg k, if_neg (by omega)]

theorem startCtxs_launches (f : Nat) (v : VecState) (n k e sr : Nat) (arg : DWord) : (v.startCtxs f n k e sr arg).launches = v.launches := by
  induction f generalizing v n k with
  | zero => cases n <;> rfl
  | succ f ih =>
    cases n with
    | zero => rfl
    | succ n =>
      unfold VecState.startCtxs
      dsimp only
      split
      · exact ih _ _ _
      · exact ih _ _ _

theorem runTile_keep (s : State) (a : ArrayId) (p : PanelId) (n : Nat) (z : Bool) (m : MoveTile) :
    (s.runTile a p n z m).2.arrays[a].moves = s.arrays[a].moves ∧ (s.runTile a p n z m).2.arrays[a].seq.ir = s.arrays[a].seq.ir := by
  unfold State.runTile
  dsimp only
  generalize (if z = true then [] else coverVas m.src (64 * m.words)) = src
  by_cases q : s.linesBusy ((s.moverEng a p).at (.move n)) .read src = true
  · rw [if_pos q]; exact ⟨rfl, rfl⟩
  rw [if_neg q]
  split
  · rename_i h; have := congrArg (fun x => x.2.arrays) h; dsimp only at this; rw [State.checkVas_arrays] at this; rw [← this]; exact ⟨rfl, rfl⟩
  rename_i s1 h
  have c1 : s1.arrays = s.arrays := by have := congrArg (fun x => x.2.arrays) h; dsimp only at this; rw [State.checkVas_arrays] at this; exact this.symm
  split
  · rename_i h2; have := congrArg (fun x => x.2.arrays) h2; dsimp only at this; rw [State.checkVas_arrays] at this; rw [← this, c1]; exact ⟨rfl, rfl⟩
  rename_i s2 h2
  have c2 : s2.arrays = s.arrays := by have := congrArg (fun x => x.2.arrays) h2; dsimp only at this; rw [State.checkVas_arrays] at this; exact this.symm.trans c1
  split
  · rename_i s3 h3
    have c3 : s3.arrays = s.arrays := by
      split at h3
      · cases h3
      · split at h3
        · rename_i h4; have := congrArg (fun x => x.2.arrays) h4; dsimp only at this; rw [State.readRun_arrays] at this; cases h3; exact this.symm.trans c2
        · cases h3
    rw [c3]; exact ⟨rfl, rfl⟩
  · rename_i s3 h3
    have c3 : s3.arrays = s.arrays := by
      split at h3
      · cases h3; exact c2
      · split at h3
        · cases h3
        · rename_i h4; have := congrArg (fun x => x.2.arrays) h4; dsimp only at this; rw [State.readRun_arrays] at this; cases h3; exact this.symm.trans c2
    have fin : ∀ X : State, X.arrays[a].moves = s.arrays[a].moves → X.arrays[a].seq.ir = s.arrays[a].seq.ir → ∀ n e v ws,
        (State.sendRun n X e v ws).2.arrays[a].moves = s.arrays[a].moves ∧ (State.sendRun n X e v ws).2.arrays[a].seq.ir = s.arrays[a].seq.ir := by
      intro X h1 h2 n e v ws; rw [State.sendRun_arrays]; exact ⟨h1, h2⟩
    have f2 := fin (if s3.toSite a p m.dst then s3.modSeq a fun x => { x with atomicIssued := x.atomicIssued || x.atomic } else s3)
      (by by_cases hs : s3.toSite a p m.dst = true
          · simp only [if_pos hs, State.modSeq_arrays, vmod_self, c3]
          · simp only [hs, Bool.false_eq_true, if_false, c3])
      (by by_cases hs : s3.toSite a p m.dst = true
          · simp only [if_pos hs, State.modSeq_arrays, vmod_self, c3]
          · simp only [hs, Bool.false_eq_true, if_false, c3])
    split
    all_goals (rename_i h5; rw [← congrArg Prod.snd h5]; exact f2 _ _ _ _)

theorem insRetired_moves (s : State) (a : ArrayId) (op : Nat) (pc : BitVec 55) : (s.insRetired a op pc).arrays[a].moves = s.arrays[a].moves := by
  unfold State.insRetired State.wdStop
  dsimp only
  split <;> simp [-Fin.getElem_fin]
theorem progress_moves (s : State) (a : ArrayId) : (s.progress a).arrays[a].moves = s.arrays[a].moves := by
  unfold State.progress State.wdLoad
  split <;> simp [-Fin.getElem_fin]
theorem insRetired_mem (s : State) (a : ArrayId) (op : Nat) (pc : BitVec 55) : (s.insRetired a op pc).mem = s.mem := by
  unfold State.insRetired State.wdStop
  dsimp only
  split
  · show (s.traceSchedule a op pc).mem = _; rw [State.traceSchedule_mem]
  · rw [State.traceSchedule_mem]
theorem progress_mem (s : State) (a : ArrayId) : (s.progress a).mem = s.mem := by
  unfold State.progress State.wdLoad
  split <;> rfl

theorem endStep_sems (s : State) (a : ArrayId) (src : BitVec 3) (code : Byte) (info : BitVec 16) (st : Byte) :
    (s.endStep a src code info st).arrays[a].seq.sems = s.arrays[a].seq.sems := by
  unfold State.endStep
  dsimp only
  rw [endInvOf_self, (key_st (haltArray_key _ a a _)).2.2.2.2.2.2.2.2.2.1]
  have e : ((s.seqFault a src code info).logArray a 0 src code info).arrays[a].seq.sems = s.arrays[a].seq.sems := by
    rw [logArray_arrays]; simp only [State.seqFault, State.modSeq_arrays, vmod_self]
  split
  · rw [← e]; simp only [State.arrFault, State.modCube_arrays, vmod_self]
  · exact e

theorem haltEffect_wd (s : State) (a : ArrayId) (k : HaltKind) : (s.haltEffect a k).arrays[a].seq.wdRunning = false := by
  simp [-Fin.getElem_fin, State.haltEffect, State.wdStop]

theorem logArray_ports (s : State) (a : ArrayId) (c x : BitVec 3) (code : Byte) (i : BitVec 16) (p : Word) :
    (s.logArray a c x code i p).ports = s.ports := State.logFault_ports _ _

theorem leaveHalt_open (s : State) (a : ArrayId) (h1 : s.arrays[a].seq.inv.isSome = true) (h2 : s.arrays[a].seq.stepOpen = true) :
    s.leaveHalt a = s.modSeq a SeqState.restart := by
  have h : s.arrays[a].seq.inv.isNone = false := by cases k : s.arrays[a].seq.inv <;> simp_all
  unfold State.leaveHalt
  simp only [h, h2, Bool.false_eq_true, if_false, if_true]

end Sys2Proof.Machine
end

