-- ==== Sys2Proof/Laws/HostOps.lean ====
section
/-!
SUPPORT. Host ports: resets, queues and what they leave alone.
-/

set_option linter.unusedSimpArgs false
set_option linter.unusedVariables false

set_option Elab.async false

namespace Sys2Proof.Machine

theorem map_vmod {α β : Type} {n : Nat} (g : α → β) (f : α → α) (v : Vector α n) (i : Fin n) (h : ∀ x, g (f x) = g x) : (vmod v i f).map g = v.map g := by
  apply Vector.ext; intro j hj
  simp only [Vector.getElem_map]
  by_cases e : (⟨j, hj⟩ : Fin n) = i
  · subst e; exact (congrArg g (vmod_val v ⟨j, hj⟩ f)).trans (h _)
  · exact congrArg g (vmod_other v (i := i) (j := ⟨j, hj⟩) f e)

def vfKey (x : VfState) : VfState := { x with queues := Vector.replicate 16 {}, waitingMsix := [], overCount := 0 }
def portKey (x : PortState) : PortState := { x with vfs := x.vfs.map vfKey, reads := [], nextRead := 0 }
def panelKey (x : PanelState) : PanelState := { x with ring := {}, nextOrder := 0 }
def hostKey (s : State) := (s.ports.map portKey, s.pnl.panels.map panelKey)

theorem hostKey_arrays (s : State) (v : Vector ArrayState 40) : hostKey { s with arrays := v } = hostKey s := rfl
theorem hostKey_port (s : State) (p : PortId) (f : PortState → PortState) (h : ∀ x, portKey (f x) = portKey x) : hostKey (s.modPort p f) = hostKey s := by
  unfold hostKey State.modPort; dsimp only; rw [map_vmod _ _ _ _ h]
theorem hostKey_vf (s : State) (p : PortId) (v : VfId) (f : VfState → VfState) (h : ∀ x, vfKey (f x) = vfKey x) : hostKey (s.modVf p v f) = hostKey s := by
  refine hostKey_port _ _ _ fun x => ?_
  unfold portKey; dsimp only; rw [map_vmod _ _ _ _ h]
theorem hostKey_q (s : State) (p : PortId) (v : VfId) (q : QueueId) (f : QueueState → QueueState) : hostKey (s.modQueue p v q f) = hostKey s :=
  hostKey_vf _ _ _ _ fun _ => rfl
theorem hostKey_panel (s : State) (p : PanelId) (f : PanelState → PanelState) (h : ∀ x, panelKey (f x) = panelKey x) : hostKey (s.modPanel p f) = hostKey s := by
  unfold hostKey State.modPanel State.modPnl; dsimp only; rw [map_vmod _ _ _ _ h]
theorem hostKey_cancel (s : State) (a : ArrayId) : hostKey (s.cancelStalls a) = hostKey s := by
  unfold State.cancelStalls
  split
  · rfl
  · exact hostKey_panel _ _ _ (by intro x; rfl)
theorem hostKey_halt (s : State) (a : ArrayId) (k : HaltKind) : hostKey (s.haltArray a k) = hostKey s := by
  unfold State.haltArray State.haltEffect
  dsimp only
  split
  · rfl
  · exact hostKey_cancel s a
theorem hostKey_endInv (s : State) (q : QRef) (st c : Byte) (o : Option ArrayId) : hostKey (s.endInv q st c o) = hostKey s := by
  unfold State.endInv
  split
  · rfl
  · split
    · rfl
    · dsimp only
      rw [foldl_keep hostKey]
      · exact hostKey_q _ _ _ _ _
      · intro t x
        split
        · rfl
        · split
          · rfl
          · exact hostKey_halt _ _ _
theorem hostKey_silent (s : State) (q : QRef) : hostKey (s.haltSilent q) = hostKey s := by
  unfold State.haltSilent
  split
  · split
    · exact (hostKey_endInv _ _ _ _ _).trans (hostKey_q _ _ _ _ _)
    · rfl
  · rfl
theorem hostKey_quiesceVf (s : State) (p : PortId) (v : VfId) : hostKey (s.quiesceVf p v) = hostKey s := by
  unfold State.quiesceVf
  dsimp only
  rw [hostKey_port _ _ _ (by intro x; rfl), hostKey_vf _ _ _ _ (by intro x; rfl)]
  exact foldl_keep hostKey _ hostKey_silent _ _
theorem hostKey_stopRing (s : State) (p : PanelId) : hostKey (s.stopRing p) = hostKey s := hostKey_panel _ _ _ fun _ => rfl
theorem hostKey_quiesce (s : State) (p : PortId) (v : VfId) : hostKey (s.quiesce p v) = hostKey s := by
  unfold State.quiesce
  dsimp only
  split
  · exact (hostKey_stopRing _ _).trans (hostKey_quiesceVf _ _ _)
  · exact hostKey_quiesceVf _ _ _
theorem hostKey_read (s : State) (p : PortId) (v : Option VfId) (u : ReadUse) (a : DWord) (n : Nat) : hostKey (s.issueRead p v u a n) = hostKey s := by
  unfold State.issueRead
  dsimp only
  rw [hostKey_port _ _ _ (by intro x; rfl)]
  rfl
theorem hostKey_fetchOne (s : State) (q : QRef) : hostKey (s.fetchOne q) = hostKey s := by
  unfold State.fetchOne
  dsimp only
  split
  · exact (hostKey_read _ _ _ _ _ _).trans (hostKey_q _ _ _ _ _)
  · rfl
theorem hostKey_fetchAhead (s : State) (q : QRef) : hostKey (s.fetchAhead q) = hostKey s := foldl_keep hostKey _ (fun t _ => hostKey_fetchOne t q) _ _
theorem hostKey_fetchVf (s : State) (p : PortId) (v : VfId) : hostKey (s.fetchVf p v) = hostKey s := foldl_keep hostKey _ hostKey_fetchAhead _ _

theorem map_fin {α β : Type} {n : Nat} (f : α → β) (v : Vector α n) (i : Fin n) : (v.map f)[i] = f v[i] := by simp

theorem hostKey_get {s t : State} (h : hostKey s = hostKey t) (p : PortId) : portKey s.ports[p] = portKey t.ports[p] := by
  have := congrArg (fun x => x.1[p]) h
  simpa only [hostKey, map_fin] using this
theorem hostKey_getVf {s t : State} (h : hostKey s = hostKey t) (p : PortId) (v : VfId) : vfKey s.ports[p].vfs[v] = vfKey t.ports[p].vfs[v] := by
  have := congrArg (fun x => x.vfs[v]) (hostKey_get h p)
  simpa only [portKey, map_fin] using this
theorem hostKey_getPanel {s t : State} (h : hostKey s = hostKey t) (p : PanelId) : panelKey s.pnl.panels[p] = panelKey t.pnl.panels[p] := by
  have := congrArg (fun x => x.2[p]) h
  simpa only [hostKey, map_fin] using this

theorem irq_key (s : State) (i : Nat) (p : PortId) : (s.irq i).ports[p] = { s.ports[p] with irqStatus := setBit s.ports[p].irqStatus i true } := by
  unfold State.irq State.modPorts
  simp only [map_fin]
theorem noteHost_flog (s : State) (p : PortId) (c : Byte) (h : s.ras.flog.length < 1024) :
    (s.noteHost p c).ras.flog = s.ras.flog ++ [faultEntry { source := 10, code := c, element := BitVec.ofNat 32 p.val } s.now] ∧ (s.noteHost p c).out = s.out := by
  unfold State.noteHost State.logFault
  simp [h, State.modRas]

theorem quiesceVf_vf (s : State) (p : PortId) (v : VfId) : (s.quiesceVf p v).ports[p].vfs[v].waitingMsix = [] ∧
    ∀ q : QueueId, (s.quiesceVf p v).ports[p].vfs[v].queues[q].ahead = [] ∧ (s.quiesceVf p v).ports[p].vfs[v].queues[q].comps = [] := by
  unfold State.quiesceVf
  simp only [State.modPort_ports, State.modVf, vmod_self, PortState.absorb, map_fin, QueueState.dropWaiting]
  exact ⟨trivial, fun q => ⟨trivial, trivial⟩⟩
theorem quiesce_vf (s : State) (p : PortId) (v : VfId) : (s.quiesce p v).ports[p].vfs[v].waitingMsix = [] ∧
    ∀ q : QueueId, (s.quiesce p v).ports[p].vfs[v].queues[q].ahead = [] ∧ (s.quiesce p v).ports[p].vfs[v].queues[q].comps = [] := by
  unfold State.quiesce
  dsimp only
  split
  · exact quiesceVf_vf s p v
  · exact quiesceVf_vf s p v
theorem enterDust_key (s : State) (p : PanelId) : (hostKey (s.enterDust p)).1 = (hostKey s).1 := by
  unfold State.enterDust
  dsimp only
  split
  · rfl
  · have k : ∀ X : State, (hostKey ((X.stopRing p).modPanel p fun y => { y with state := 5, phase := 1, fill := false })).1 = (hostKey X).1 := fun X => rfl
    rw [k]
    split
    · rw [hostKey_quiesceVf]
    · rfl
theorem enterDust_vf (s : State) (p : PanelId) (q : PortId) (v : VfId) : vfKey (s.enterDust p).ports[q].vfs[v] = vfKey s.ports[q].vfs[v] := by
  have k := congrArg (fun x : Vector PortState 2 => x[q].vfs[v]) (enterDust_key s p)
  simpa only [hostKey, portKey, map_fin] using k
theorem enterDust_panel (s : State) (p : PanelId) (h1 : s.pnl.panels[p].state ≠ 0) (h2 : s.pnl.panels[p].state ≠ 5) :
    (s.enterDust p).pnl.panels[p].state = 5 ∧ (s.enterDust p).pnl.panels[p].phase = 1 := by
  unfold State.enterDust
  dsimp only
  rw [if_neg (by rintro (k | k) <;> simp_all)]
  simp [-Fin.getElem_fin]
theorem endHalted_pnl (s : State) (p : PanelId) : (s.endHalted p).pnl = s.pnl := by
  unfold State.endHalted
  dsimp only
  rw [foldl_keep State.pnl _ (by intros; rfl), foldl_keep State.pnl _ (by intros; rfl)]
theorem fetchVf_keep (s : State) (p : PortId) (v : VfId) (q : PanelId) (x : BitVec 3) (h1 : s.ports[p].vfs[v].tdi = 2) (h2 : s.pnl.panels[q].state = x) :
    (s.fetchVf p v).ports[p].vfs[v].tdi = 2 ∧ (s.fetchVf p v).pnl.panels[q].state = x := by
  have k1 := congrArg VfState.tdi (hostKey_getVf (hostKey_fetchVf s p v) p v)
  have k2 := congrArg PanelState.state (hostKey_getPanel (hostKey_fetchVf s p v) q)
  simp only [vfKey, panelKey] at k1 k2
  exact ⟨k1.trans h1, k2.trans h2⟩

/-- What resets leave alone. -/
def resetKey (s : State) := (s.ports.map fun (p : PortState) => { portKey p with vfs := (portKey p).vfs.map fun (v : VfState) => { v with resetting := false } }, s.pnl.panels.map panelKey)
theorem resetKey_of {s t : State} (h : hostKey s = hostKey t) : resetKey s = resetKey t := by
  have h1 : s.ports.map portKey = t.ports.map portKey := congrArg Prod.fst h
  have h2 : s.pnl.panels.map panelKey = t.pnl.panels.map panelKey := congrArg Prod.snd h
  unfold resetKey
  rw [h2]
  have := congrArg (Vector.map fun (p : PortState) => { p with vfs := p.vfs.map fun (v : VfState) => { v with resetting := false } }) h1
  simp only [Vector.map_map] at this
  exact congrArg (fun x => (x, t.pnl.panels.map panelKey)) this
theorem startReset_key (s : State) (p : PortId) (v : VfId) : resetKey (s.startReset p v) = resetKey s := by
  unfold State.startReset
  split
  · rfl
  · rw [← resetKey_of (hostKey_quiesce s p v)]
    unfold resetKey State.modVf State.modPort
    dsimp only
    rw [map_vmod]
    intro x
    unfold portKey
    dsimp only
    simp only [Vector.map_map]
    rw [map_vmod]
    intro y; rfl
theorem resetKey_get {s t : State} (h : resetKey s = resetKey t) (p : PortId) : s.ports[p].l0 = t.ports[p].l0 ∧ s.ports[p].numVfs = t.ports[p].numVfs ∧ s.vfDust p = t.vfDust p := by
  have k := congrArg (fun x => x.1[p]) h
  simp only [resetKey, map_fin] at k
  refine ⟨by have := congrArg PortState.l0 k; exact this, by have := congrArg PortState.numVfs k; exact this, funext fun v => ?_⟩
  have k2 := congrArg (fun x => x.vfs[v]) k
  simp only [portKey, map_fin] at k2
  unfold State.vfDust State.vf State.inDust
  have b := congrArg VfState.bound k2
  simp only [vfKey] at b
  rw [b]
  congr 1
  funext x
  have k3 := congrArg (fun y => y.2[x]) h
  simp only [resetKey, map_fin] at k3
  have := congrArg PanelState.state k3
  simp only [panelKey] at this
  rw [this]
theorem startReset_mono (s : State) (p : PortId) (v w : VfId) (h : s.ports[p].vfs[w].resetting = true ∨ s.vfDust p w = true) :
    (s.startReset p v).ports[p].vfs[w].resetting = true ∨ (s.startReset p v).vfDust p w = true := by
  rcases h with h | h
  · left
    unfold State.startReset
    split
    · exact h
    · by_cases e : w = v
      · subst e; simp only [State.modVf, State.modPort_ports, vmod_self]
      · simp only [State.modVf, State.modPort_ports, vmod_self, vmod_other _ _ e]
        exact (congrArg VfState.resetting (hostKey_getVf (hostKey_quiesce s p v) p w)).trans h
  · right; rw [(resetKey_get (startReset_key s p v) p).2.2]; exact h
theorem startReset_self (s : State) (p : PortId) (v : VfId) : (s.startReset p v).ports[p].vfs[v].resetting = true ∨ (s.startReset p v).vfDust p v = true := by
  unfold State.startReset
  split
  · rename_i h; simpa [-Fin.getElem_fin, State.vf] using h
  · left; simp only [State.modVf, State.modPort_ports, vmod_self]
theorem resetAll_vf (s : State) (p : PortId) : (s.resetAll p).ports[p].numVfs = s.ports[p].numVfs ∧ ∀ v : VfId, (s.resetAll p).ports[p].vfs[v].resetting = true ∨ s.vfDust p v = true := by
  have k : resetKey (s.resetAll p) = resetKey s := foldl_keep resetKey _ (fun t v => startReset_key t p v) _ _
  refine ⟨(resetKey_get k p).2.1, fun v => ?_⟩
  rw [← (resetKey_get k p).2.2]
  unfold State.resetAll
  have mono : ∀ (l : List VfId) (t : State), (t.ports[p].vfs[v].resetting = true ∨ t.vfDust p v = true) →
      ((l.foldl (fun t v => t.startReset p v) t).ports[p].vfs[v].resetting = true ∨ (l.foldl (fun t v => t.startReset p v) t).vfDust p v = true) := by
    intro l
    induction l with
    | nil => intro t h; exact h
    | cons x xs ih => intro t h; exact ih _ (startReset_mono t p x v h)
  have all : ∀ (l : List VfId) (t : State), v ∈ l →
      ((l.foldl (fun t v => t.startReset p v) t).ports[p].vfs[v].resetting = true ∨ (l.foldl (fun t v => t.startReset p v) t).vfDust p v = true) := by
    intro l
    induction l with
    | nil => intro t h; cases h
    | cons x xs ih =>
      intro t h
      rcases List.mem_cons.mp h with e | e
      · subst e; exact mono xs _ (startReset_self t p v)
      · exact ih _ e
  exact all _ s (List.mem_ofFn.mpr ⟨v, rfl⟩)
theorem resetAll_l0 (s : State) (p : PortId) : (s.resetAll p).ports[p].l0 = s.ports[p].l0 :=
  (resetKey_get (foldl_keep resetKey _ (fun t v => startReset_key t p v) _ _ : resetKey (s.resetAll p) = resetKey s) p).1
theorem writeRecord_bme (s : State) (p : PanelId) (port : PortId) (v : VfId) (i : FaultInfo) :
    ((s.writeRecord p port v i).ports[port].vfs[v].bme, (s.writeRecord p port v i).ports[port].vfEnable) = (s.ports[port].vfs[v].bme, s.ports[port].vfEnable) := by
  unfold State.writeRecord
  dsimp only
  split <;> simp [-Fin.getElem_fin, State.modVf, State.raiseMsix, State.emit]
theorem writeHeld_keep {β : Type} (g : State → β) (p : PanelId) (port : PortId) (v : VfId) (h1 : ∀ s f, g (s.modPanel p f) = g s)
    (h2 : ∀ s i, g (s.writeRecord p port v i) = g s) (n : Nat) (s : State) : g (s.writeHeld n p port v) = g s := by
  induction n generalizing s with
  | zero => rfl
  | succ n ih =>
    unfold State.writeHeld
    dsimp only
    split
    · rfl
    · split
      · rfl
      · rw [ih, h2, h1]
theorem writeHeld_bme (n : Nat) (s : State) (p : PanelId) (port : PortId) (v : VfId) :
    ((s.writeHeld n p port v).ports[port].vfs[v].bme, (s.writeHeld n p port v).ports[port].vfEnable) = (s.ports[port].vfs[v].bme, s.ports[port].vfEnable) :=
  writeHeld_keep (fun t => (t.ports[port].vfs[v].bme, t.ports[port].vfEnable)) p port v (fun _ _ => rfl) (fun s i => writeRecord_bme s p port v i) n s
theorem releaseRecords_bme (s : State) (p : PanelId) (port : PortId) (v : VfId) :
    (s.releaseRecords p port v).ports[port].vfs[v].bme = s.ports[port].vfs[v].bme ∧ (s.releaseRecords p port v).ports[port].vfEnable = s.ports[port].vfEnable :=
  ⟨congrArg Prod.fst (writeHeld_bme _ s p port v), congrArg Prod.snd (writeHeld_bme _ s p port v)⟩
theorem logMem_grow (s : State) (e : MemEvent) (h1 : ¬ (e.cls = 1 ∨ e.cls = 4)) (h2 : s.ras.mlog.length < 1024) :
    (s.logMem e).ras.mlog = s.ras.mlog ++ [memEntry e s.now] := by
  unfold State.logMem State.modRas
  dsimp only
  rw [if_neg (fun k => h1 k.1), if_pos h2]
theorem modQ_queue (s : State) (port : PortId) (v : VfId) (q : QueueId) (f : QueueState → QueueState) :
    (s.modQ ⟨port, v, q⟩ f).ports[port].vfs[v].queues[q] = f s.ports[port].vfs[v].queues[q] := by
  simp only [State.modQ, State.modQueue, State.modVf, State.modPort_ports, vmod_self]

def qKey (x : QueueState) : QueueState := { x with ahead := [] }
def qKeys {β : Type} (g : QueueState → β) (s : State) := s.ports.map fun p => p.vfs.map fun v => v.queues.map g
theorem qk_port {β : Type} (g : QueueState → β) (s : State) (p : PortId) (f : PortState → PortState) (h : ∀ x, (f x).vfs = x.vfs) : qKeys g (s.modPort p f) = qKeys g s := by
  unfold qKeys State.modPort; dsimp only; rw [map_vmod]; intro x; rw [h]
theorem qk_vf {β : Type} (g : QueueState → β) (s : State) (p : PortId) (v : VfId) (f : VfState → VfState) (h : ∀ x, (f x).queues = x.queues) : qKeys g (s.modVf p v f) = qKeys g s := by
  unfold qKeys State.modVf State.modPort; dsimp only; rw [map_vmod]; intro x; dsimp only; rw [map_vmod]; intro y; rw [h]
theorem qk_q {β : Type} (g : QueueState → β) (s : State) (r : QRef) (f : QueueState → QueueState) (h : ∀ x, g (f x) = g x) : qKeys g (s.modQ r f) = qKeys g s := by
  unfold qKeys State.modQ State.modQueue State.modVf State.modPort; dsimp only; rw [map_vmod]; intro x; dsimp only; rw [map_vmod]; intro y; dsimp only; rw [map_vmod _ _ _ _ h]
theorem qk_read {β : Type} (g : QueueState → β) (s : State) (p : PortId) (v : Option VfId) (u : ReadUse) (a : DWord) (n : Nat) : qKeys g (s.issueRead p v u a n) = qKeys g s := by
  unfold State.issueRead
  dsimp only
  rw [qk_port _ _ _ _ (by intro x; rfl)]
  rfl
theorem qk_fetchOne {β : Type} (g : QueueState → β) (h : ∀ (x : QueueState) l, g { x with ahead := l } = g x) (s : State) (q : QRef) : qKeys g (s.fetchOne q) = qKeys g s := by
  unfold State.fetchOne
  dsimp only
  split
  · unfold State.readEntry
    rw [qk_read, qk_q _ _ _ _ (by intro x; exact h _ _)]
  · rfl
theorem qk_fetch {β : Type} (g : QueueState → β) (h : ∀ (x : QueueState) l, g { x with ahead := l } = g x) (s : State) (q : QRef) : qKeys g (s.fetchAhead q) = qKeys g s :=
  foldl_keep (qKeys g) _ (fun t _ => qk_fetchOne g h t q) _ _
theorem qk_fetchAhead (s : State) (q : QRef) : qKeys qKey (s.fetchAhead q) = qKeys qKey s := qk_fetch _ (fun _ _ => rfl) _ _
theorem qk_get {β : Type} {g : QueueState → β} {s t : State} (h : qKeys g s = qKeys g t) (p : PortId) (v : VfId) (q : QueueId) :
    g s.ports[p].vfs[v].queues[q] = g t.ports[p].vfs[v].queues[q] := by
  have k := congrArg (fun x => x[p][v][q]) h
  simpa only [qKeys, map_fin] using k
theorem qk_finish {β : Type} (g : QueueState → β) (h : ∀ (x : QueueState) l, g { x with ahead := l } = g x)
    (h2 : ∀ (x : QueueState) t st hi co, g { x with taken := t, stopping := st, hist := hi, comps := co } = g x) (s : State) (q : QRef) (c : Completion) (e : Option Nat) :
    qKeys g (s.finishCmd q c e) = qKeys g s := by
  unfold State.finishCmd
  dsimp only
  rw [qk_fetch g h, qk_q _ _ _ _ (by intro x; exact h2 _ _ _ _ _)]
theorem abortsDone_ring (s : State) (r : QRef) (w : Word) (p : PortId) (v : VfId) (q : QueueId) :
    ((s.abortsDone r w).ports[p].vfs[v].queues[q].cqTail, (s.abortsDone r w).ports[p].vfs[v].queues[q].phase) = (s.ports[p].vfs[v].queues[q].cqTail, s.ports[p].vfs[v].queues[q].phase) := by
  refine qk_get (g := fun x => (x.cqTail, x.phase)) ?_ p v q
  unfold State.abortsDone
  refine foldl_keep (qKeys _) _ ?_ _ _
  intro t x
  split
  · split
    · exact qk_finish _ (fun _ _ => rfl) (fun _ _ _ _ _ => rfl) _ _ _ _
    · rfl
  · rfl

theorem byConfig_open (s : State) (port : PortId) (f : State → State) (h1 : s.ports[port].l0 = true) (h2 : s.stage = 4) :
    s.byConfig port f = f s := by
  unfold State.byConfig
  rw [if_neg (by rw [h1]; decide), if_neg (fun k => k h2)]

theorem vfConfig_open (s : State) (port : PortId) (v : VfId) (f : State → State) (h1 : s.vfThere port v = true)
    (h2 : s.ports[port].vfs[v].resetting = false) : s.vfConfig port v f = f s := by
  unfold State.vfConfig
  rw [if_neg (by rw [h1]; decide), if_neg (show ¬ (s.vf port v).resetting = true by rw [show (s.vf port v).resetting = false from h2]; decide)]

theorem vfThere_l0 {s : State} {port : PortId} {v : VfId} (h : s.vfThere port v = true) : s.ports[port].l0 = true := by
  unfold State.vfThere at h
  simp only [Bool.and_eq_true] at h
  exact h.1.1

theorem tdiError_reset (s : State) (port : PortId) (v : VfId) :
    (s.tdiError port v).ports[port].vfs[v].resetting = s.ports[port].vfs[v].resetting ∧ (s.tdiError port v).vfDust port v = s.vfDust port v := by
  have kv := hostKey_getVf (hostKey_quiesce s port v) port v
  have k1 := congrArg VfState.resetting kv
  have k2 := congrArg VfState.bound kv
  have k3 := fun q => congrArg PanelState.state (hostKey_getPanel (hostKey_quiesce s port v) q)
  simp only [vfKey, panelKey] at k1 k2 k3
  unfold State.tdiError State.vf
  dsimp only
  split
  · exact ⟨rfl, rfl⟩
  · cases hb : s.ports[port].vfs[v].bound with
    | none =>
      dsimp only
      refine ⟨by simp only [State.modVf, State.modPort_ports, vmod_self]; exact k1, ?_⟩
      unfold State.vfDust State.vf
      simp only [State.modVf, State.modPort_ports, vmod_self]
      rw [k2, hb]; rfl
    | some q =>
      dsimp only
      split
      · rename_i c
        refine ⟨by simp only [State.modVf, State.modPanel_ports, State.modPort_ports, vmod_self]; exact k1, ?_⟩
        unfold State.vfDust State.vf State.inDust
        simp only [State.modVf, State.modPanel_ports, State.modPort_ports, vmod_self]
        rw [k2, hb]
        simp only [Option.any_some, State.modPanel_pnl, State.modVf, State.modPort_pnl, vmod_self]
        simp only [Bool.and_eq_true, Bool.or_eq_true, decide_eq_true_eq] at c
        rcases c.2 with e | e <;> rw [e] <;> rfl
      · refine ⟨by simp only [State.modVf, State.modPort_ports, vmod_self]; exact k1, ?_⟩
        unfold State.vfDust State.vf State.inDust
        simp only [State.modVf, State.modPort_ports, vmod_self]
        rw [k2, hb]
        simp only [Option.any_some, State.modVf, State.modPort_pnl, k3]

theorem accessEvent_hard (s : State) (cls : BitVec 5) (g : Agent) (r : Option Target) (h1 : ¬ (cls = 1 ∨ cls = 4)) (h2 : s.ras.mlog.length < 1024) :
    (s.accessEvent cls g r).mem = s.mem ∧
      ∃ e : MemEvent, e.cls = cls ∧ e.agent = g ∧ (s.accessEvent cls g r).ras.mlog = s.ras.mlog ++ [memEntry e s.now] := by
  unfold State.accessEvent
  split
  · unfold State.wordEvent
    split
    · exact ⟨State.logMem_mem _ _, _, rfl, rfl, logMem_grow _ _ h1 h2⟩
    · exact ⟨State.logMem_mem _ _, _, rfl, rfl, logMem_grow _ _ h1 h2⟩
  · exact ⟨State.logMem_mem _ _, _, rfl, rfl, logMem_grow _ _ h1 h2⟩

end Sys2Proof.Machine
end

