-- ==== Sys2Proof/Laws/InvokeOps.lean ====
section
/-!
SUPPORT. Completions and invocations.
-/

set_option linter.unusedSimpArgs false
set_option linter.unusedVariables false

set_option Elab.async false

namespace Sys2Proof.Machine

theorem finishCmd_queue (s : State) (port : PortId) (v : VfId) (q : QueueId) (c : Completion) (e : Option Nat) :
    (s.finishCmd ⟨port, v, q⟩ c e).ports[port].vfs[v].queues[q].taken = none ∧
      (s.finishCmd ⟨port, v, q⟩ c e).ports[port].vfs[v].queues[q].comps =
        (if (s.taken ⟨port, v, q⟩).any (fun t => t.noCompletion) then s.ports[port].vfs[v].queues[q].comps else s.ports[port].vfs[v].queues[q].comps ++ [⟨c, e⟩]) := by
  unfold State.finishCmd
  dsimp only
  have k := qk_get (qk_fetch (fun x => (x.taken, x.comps)) (fun _ _ => rfl)
    (s.modQ ⟨port, v, q⟩ fun x => { x with
    taken := none, stopping := false, hist := histSet c x.hist
    comps := if (s.taken ⟨port, v, q⟩).any (fun t => t.noCompletion) then x.comps else x.comps ++ [{ comp := c, epoch := e }] }) ⟨port, v, q⟩) port v q
  rw [modQ_queue] at k
  have k1 := congrArg Prod.fst k
  have k2 := congrArg Prod.snd k
  dsimp only at k1 k2
  exact ⟨k1, k2⟩

theorem fresh_some {s : State} {q : QRef} {op : Nat} {t : Taken} (h : s.fresh q op = some t) : s.taken q = some t ∧ cmdOp t.bits = op ∧ t.phase = .accepted := by
  unfold State.fresh at h
  rw [Option.filter_eq_some_iff] at h
  simp at h
  exact ⟨h.1, h.2.1, h.2.2⟩

theorem finishInv_plain (s : State) (q : QRef) (st : Byte) (t : Taken) (h1 : s.taken q = some t) (h2 : t.started = none) :
    s.finishInv q st = s.finishCmd q { t.base with
      istatus := st, poisonCommits := t.poisonCommits, elapsed := 0, faultCode := if st = 1 then t.faultCode else 0, faultArray := if st = 1 then t.faultArray else 0 } none := by
  unfold State.finishInv
  rw [h1]
  dsimp only
  rw [h2]
  rfl

theorem modTaken_other (s : State) (q r : QRef) (f : Taken → Taken) (h : q ≠ r) : (s.modTaken r f).taken q = s.taken q := by
  obtain ⟨p1, v1, q1⟩ := q
  obtain ⟨p2, v2, q2⟩ := r
  unfold State.taken State.queue State.modTaken State.modQueue State.modVf State.modPort
  dsimp only
  by_cases e : p1 = p2
  · subst e
    simp only [vmod_self]
    by_cases e2 : v1 = v2
    · subst e2
      simp only [vmod_self]
      simp only [vmod_other _ _ (fun k => h (by rw [k]) : q1 ≠ q2)]
    · simp only [vmod_other _ _ e2]
  · simp only [vmod_other _ _ e]

theorem evalWaits_idle (s : State) (a : ArrayId) (h : s.arrays[a].seq.state ≠ seqWaiting) : s.evalWaits a = s := by
  unfold State.evalWaits
  rw [if_pos h]

theorem free_all (l : List ArrayId) (s : State) (a : ArrayId) (h : a ∈ l ∨ s.arrays[a].seq.inv = none) :
    (l.foldl (fun x a => x.modSeq a SeqState.free) s).arrays[a].seq.inv = none := by
  induction l generalizing s with
  | nil => rcases h with h | h; cases h; exact h
  | cons b l ih =>
    rw [List.foldl_cons]
    apply ih
    by_cases e : a = b
    · right; subst e; simp only [State.modSeq_arrays, vmod_self, SeqState.free]
    · rcases h with h | h
      · left; exact (List.mem_cons.mp h).resolve_left e
      · right; simp only [State.modSeq_arrays, vmod_other _ _ e]; exact h
theorem finishCmd_arrays (s : State) (q : QRef) (c : Completion) (e : Option Nat) : (s.finishCmd q c e).arrays = s.arrays := by
  have _ : Fact (Piece.ports ≠ .arrays) := ⟨by decide⟩
  have _ : Fact (Piece.out ≠ .arrays) := ⟨by decide⟩
  exact (State.finishCmd_leads (P := fun p => p ≠ .arrays) (.same s _) q c e).parts .arrays (by simp)

end Sys2Proof.Machine
end

