-- ==== Sys2Proof/Laws/FaultOps.lean ====
section
/-!
SUPPORT. Function pages, fault records and caches of the translation unit.
-/

set_option linter.unusedSimpArgs false
set_option linter.unusedVariables false

set_option Elab.async false

namespace Sys2Proof.Machine

theorem pageWrite_live (s : State) (port : PortId) (v : VfId) (f : State → State) (h1 : s.vfLive port v = true) (h2 : s.vfDust port v = false)
    (h3 : s.ports[port].vfs[v].bound.isSome = true) : s.pageWrite port v f = f s := by
  have hb : (s.vf port v).bound.isNone = false := by
    have k : (s.vf port v).bound.isSome = true := h3
    cases e : (s.vf port v).bound <;> simp_all
  unfold State.pageWrite
  rw [if_neg (by rw [h1, h2]; decide), if_neg (by rw [hb]; decide)]

theorem releaseRecords_none (s : State) (p : PanelId) (port : PortId) (v : VfId) (h : s.pnl.panels[p].ring.heldRecords = []) : s.releaseRecords p port v = s := by
  unfold State.releaseRecords
  rw [h]
  rfl

theorem cacheAdd_mem {α : Type} [DecidableEq α] (cap d : Nat) (c : List α) (e : α) : e ∈ cacheAdd cap d c e := by
  unfold cacheAdd
  split
  · assumption
  · split <;> simp

theorem own_setOwn (t : TuState) (g : EngineSel) (c : List TlbEntry) : (t.setOwn g c).own g = c := by
  cases g <;> simp [-Fin.getElem_fin, TuState.setOwn, TuState.own]

theorem modTu_fields (s : State) (f g : FieldId) (h : TuState → TuState) : (s.modTu f h).fields[g].tu = if g = f then h s.fields[g].tu else s.fields[g].tu := by
  by_cases e : g = f
  · subst e; simp [-Fin.getElem_fin, State.modTu]
  · simp only [State.modTu, State.modField_fields, if_neg e, vmod_other _ _ e]

theorem fold_modTu (h : TuState → TuState) (hi : ∀ t, h (h t) = h t) (l : List FieldId) (s : State) (g : FieldId) :
    (l.foldl (fun t f => t.modTu f h) s).fields[g].tu = if g ∈ l then h s.fields[g].tu else s.fields[g].tu := by
  induction l generalizing s with
  | nil => simp
  | cons x xs ih =>
    rw [List.foldl_cons, ih, modTu_fields]
    by_cases e : g = x
    · subst e; simp only [if_true, List.mem_cons, true_or, hi, ite_self]
    · simp only [if_neg e, List.mem_cons, e, false_or, if_false]

theorem invalidate_twice (t : TuState) (p : PanelId) (lo len : Nat) (w : Bool) : (t.invalidate p lo len w).invalidate p lo len w = t.invalidate p lo len w := by
  unfold TuState.invalidate
  cases w <;> simp [List.filter_filter, Vector.map_map, Function.comp_def]

theorem mem_allFin {n : Nat} (i : Fin n) : i ∈ allFin n := List.mem_ofFn.mpr ⟨i, rfl⟩
theorem modInv_fields (s : State) (e : SetSel) (f : InvSet → InvSet) : (s.modInv e f).fields = s.fields := by cases e <;> rfl
theorem invDone_fields (s : State) (e : SetSel) (x : BitVec 4) : (s.invDone e x).fields = s.fields := by
  unfold State.invDone
  cases e
  · dsimp only; split <;> rfl
  · rfl

end Sys2Proof.Machine
end

