-- ==== Sys2Proof/Laws/StackOps.lean ====
section
/-!
SUPPORT. Network transactions and the end of a stack.
-/

set_option linter.unusedSimpArgs false
set_option linter.unusedVariables false

set_option Elab.async false

namespace Sys2Proof.Machine

theorem txn_net {s t : State} (h : t.net = s.net) : t.txn = s.txn := by funext i; unfold State.txn; rw [h]
theorem txn_id {s : State} {i : TxId} {x : Txn} (h : s.txn i = some x) : x.id = i := by
  unfold State.txn at h
  simpa using List.find?_some h
theorem answerTxn_txn (s : State) (i : TxId) (st : BitVec 3) (d : List CodeWord) (x : Txn) (h : s.txn i = some x) :
    (s.answerTxn i st d).txn i = some { x with stage := .answered, status := st, data := d } := by
  unfold State.txn State.answerTxn at *
  simp only [State.modNet_net]
  exact modFirst_find _ _ (by intro y hy; exact hy) _ _ h
theorem inBatch_one (w : QueuedWrite) : inBatch [w] w = true := by
  have : stripBursts [w] (stripOfKey w.key) = 4 := by
    simp [stripBursts, List.eraseDups, List.eraseDupsBy, List.eraseDupsBy.loop]
  simp [inBatch, strips, takeStrips, this, List.eraseDups, List.eraseDupsBy, List.eraseDupsBy.loop]
theorem thermal_hbmFail (s : State) (k : StackId) (c : Byte) : (s.failStack k c).hbm[k] = { s.hbm[k] with
    ready := false, mapped := false, state := 5, failCode := c, stage := .failed, readQ := [], writeQ := [], repairBusy := false, pageBusy := false } := by
  unfold State.failStack
  simp only [State.thermal_hbm, State.readyFrom_hbm, State.logFault_hbm, State.setSink_hbm, State.modStack_hbm, vmod_self]
theorem modFirst_txn (i j : TxId) (f : Txn → Txn) (hf : ∀ y, (f y).id = y.id) (l : List Txn) :
    (modFirst (fun t => decide (t.id = i)) f l).find? (fun t => decide (t.id = j)) =
      if j = i then (l.find? fun t => decide (t.id = j)).map f else l.find? fun t => decide (t.id = j) := by
  induction l with
  | nil => simp [modFirst]
  | cons x xs ih =>
    unfold modFirst
    by_cases e : x.id = i
    · rw [if_pos (decide_eq_true e)]
      by_cases g : j = i
      · subst g; simp [hf, e]
      · rw [if_neg g, List.find?_cons_of_neg (by rw [hf, e]; simpa using fun q => g q.symm), List.find?_cons_of_neg (by rw [e]; simpa using fun q => g q.symm)]
    · rw [if_neg (by simpa using e)]
      by_cases g : x.id = j
      · rw [List.find?_cons_of_pos (by simpa using g), List.find?_cons_of_pos (by simpa using g), if_neg (fun q => e (g.trans q))]
      · rw [List.find?_cons_of_neg (by simpa using g), List.find?_cons_of_neg (by simpa using g), ih]
theorem modTxn_find (s : State) (i j : TxId) (f : Txn → Txn) (hf : ∀ y, (f y).id = y.id) :
    (s.modTxn i f).txn j = if j = i then (s.txn j).map f else s.txn j := modFirst_txn i j f hf _

theorem fallback_net (s : State) (pa : BitVec 52) (l : Loc) (g : Agent) (f : Finding) : (s.fallback pa l g f).2.net = s.net := by
  have _ : Fact (Piece.fields ≠ .net) := ⟨by decide⟩
  have _ : Fact (Piece.hbm ≠ .net) := ⟨by decide⟩
  have _ : Fact (Piece.mem ≠ .net) := ⟨by decide⟩
  have _ : Fact (Piece.ras ≠ .net) := ⟨by decide⟩
  exact (State.fallback_leads (P := fun p => p ≠ .net) (.same s _) pa l g f).parts .net (by simp)
theorem readLoc_net (s : State) (l : Loc) (g : Agent) (e : BitVec 544) (b : Bool) : (s.readLoc l g e b).2.net = s.net := by
  have _ : Fact (Piece.fields ≠ .net) := ⟨by decide⟩
  have _ : Fact (Piece.hbm ≠ .net) := ⟨by decide⟩
  have _ : Fact (Piece.mem ≠ .net) := ⟨by decide⟩
  have _ : Fact (Piece.ras ≠ .net) := ⟨by decide⟩
  exact (State.readLoc_leads (P := fun p => p ≠ .net) (.same s _) l g e b).parts .net (by simp)
theorem readServed_txn (s : State) (id : TxId) (g : Agent) (pa : BitVec 52) (e : BitVec 544) (j : TxId) :
    (s.readServed id g pa e).2.txn j = s.txn j ∨ (j = id ∧ (s.readServed id g pa e).2.txn j = (s.txn j).map fun t => { t with excused := true }) := by
  unfold State.readServed
  split
  · exact Or.inl rfl
  · dsimp only
    rw [txn_net (fallback_net _ _ _ _ _)]
    rename_i l _
    have n : (s.readLoc l g e true).2.txn = s.txn := txn_net (readLoc_net s l g e true)
    split
    · rw [modTxn_find _ id j (fun t => { t with excused := true }) (fun _ => rfl), n]
      by_cases q : j = id
      · rw [if_pos q]; exact Or.inr ⟨q, rfl⟩
      · rw [if_neg q]; exact Or.inl rfl
    · rw [n]; exact Or.inl rfl
theorem serveWords_kind (n : Nat) : ∀ (s : State) (id : TxId) (g : Agent) (pa : BitVec 52) (e : List RawError) (i : Nat) (j : TxId),
    ((s.serveWords id g pa e i n).2.txn j).map (fun y => (y.id, y.parts, y.kind)) = (s.txn j).map fun y => (y.id, y.parts, y.kind) := by
  induction n with
  | zero => intros; rfl
  | succ n ih =>
    intro s id g pa e i j
    unfold State.serveWords
    dsimp only
    rw [ih]
    rcases readServed_txn s id g pa (flipsAt e i) j with h | ⟨_, h⟩
    · rw [h]
    · rw [h, Option.map_map]; rfl
theorem serveWords_txn (n : Nat) : ∀ (s : State) (id : TxId) (g : Agent) (pa : BitVec 52) (e : List RawError) (i : Nat) (j : TxId),
    ((s.serveWords id g pa e i n).2.txn j).isSome = (s.txn j).isSome ∧ (j ≠ id → (s.serveWords id g pa e i n).2.txn j = s.txn j) := by
  induction n with
  | zero => intros; exact ⟨rfl, fun _ => rfl⟩
  | succ n ih =>
    intro s id g pa e i j
    unfold State.serveWords
    dsimp only
    have k := ih (s.readServed id g pa (flipsAt e i)).2 id g (pa + 64) e (i + 1) j
    rcases readServed_txn s id g pa (flipsAt e i) j with h | ⟨q, h⟩
    · rw [h] at k; exact k
    · refine ⟨k.1.trans (by rw [h, Option.isSome_map]), fun z => absurd q z⟩
theorem serveWaiting_other (s : State) (k : StackId) (er : List RawError) (r : WaitingRead) (j : TxId) (h : j ≠ r.id) :
    (s.serveWaiting k er r).txn j = s.txn j := by
  unfold State.serveWaiting State.serveRead
  dsimp only
  split
  · rename_i x hx
    have i := txn_id hx
    split
    · rename_i m _
      have a := modTxn_find ((s.modStack k fun x => { x with readQ := passOlder r x.readQ }).serveWords x.id (txnAgent x) (x.pa &&& ~~~63#52) er 0 m).2 x.id j
        (fun t => { t with stage := .answered, status := 0, data := ((s.modStack k fun x => { x with readQ := passOlder r x.readQ }).serveWords x.id (txnAgent x) (x.pa &&& ~~~63#52) er 0 m).1 }) (fun _ => rfl)
      rw [if_neg (by rw [i]; exact h)] at a
      exact a.trans ((serveWords_txn m _ _ _ _ _ _ j).2 (by rw [i]; exact h))
    · rfl
  · rfl
theorem foldl_serve_other (k : StackId) (er : List RawError) (j : TxId) (l : List WaitingRead) (s : State) (h : ∀ y ∈ l, j ≠ y.id) :
    (l.foldl (fun t x => t.serveWaiting k er x) s).txn j = s.txn j := by
  induction l generalizing s with
  | nil => rfl
  | cons y ys ih =>
    rw [List.foldl_cons, ih _ (fun z hz => h z (List.mem_cons_of_mem _ hz)), serveWaiting_other _ _ _ _ _ (h y List.mem_cons_self)]
theorem noReads_critical {k : StackState} {pc : PcId} {b : Nat} (h : k.bankReads pc b (fun _ => true) = false) : k.bankReads pc b (fun r => r.critical) = false := by
  unfold StackState.bankReads at *
  rw [List.any_eq_false] at *
  intro x hx q
  refine h x hx ?_
  simp only [Bool.and_eq_true] at q ⊢
  exact ⟨q.1, trivial⟩
theorem setPostponed_zero (k : StackState) (n : Nat) : (k.setPostponed n 0).postponedOf n = 0 := by
  unfold StackState.setPostponed StackState.postponedOf
  dsimp only
  rw [if_pos rfl, List.find?_eq_none.mpr]
  · rfl
  · intro y hy; have := (List.mem_filter.mp hy).2; simpa using this
theorem setPostponed_some (k : StackState) (n m : Nat) : (k.setPostponed n (m + 1)).postponedOf n = m + 1 := by
  unfold StackState.setPostponed StackState.postponedOf
  dsimp only
  rw [if_neg (Nat.succ_ne_zero m), List.find?_cons_of_pos (by simp)]
  rfl
theorem setPostponed_at (k : StackState) (n m : Nat) : (k.setPostponed n m).postponedOf n = m := by
  cases m with
  | zero => exact setPostponed_zero k n
  | succ m => exact setPostponed_some k n m
theorem rewriteRow_fuse (s : State) (k : StackId) (pc : PcId) (n : Nat) : (s.rewriteRow k pc n).fuse = s.fuse :=
  foldl_keep State.fuse _ (by intro t m; exact State.rewriteStrip_fuse t k pc m) _ s

end Sys2Proof.Machine
end

