-- ==== Sys2Proof/Laws/BitOps.lean ====
section
/-!
SUPPORT. A bit that is set.
-/

set_option linter.unusedSimpArgs false
set_option linter.unusedVariables false

set_option Elab.async false

namespace Sys2Proof.Machine

theorem bit_setBit_self {n : Nat} (w : BitVec n) (i : Nat) (h : i < n) : bit (setBit w i true) i = true := by
  unfold bit setBit
  simp only [if_true, BitVec.getLsbD_or, BitVec.getLsbD_ofNat]
  simp [h, Nat.testBit_two_pow_self]

theorem unitWords_pos (pa : BitVec 52) : 0 < unitWords pa := by unfold unitWords; split <;> decide
theorem lastWord (pa : BitVec 52) (n : Nat) : min ((1 + unitWords pa - 1) / unitWords pa * unitWords pa) ((n + 64 - n) / 64) = 1 := by
  have h := unitWords_pos pa
  rw [show 1 + unitWords pa - 1 = unitWords pa by omega, Nat.div_self h, Nat.one_mul, show n + 64 - n = 64 by omega]
  exact Nat.min_eq_right h

end Sys2Proof.Machine
end

