-- ==== Sys2Proof/Laws/NetworkOps.lean ====
section
/-!
SUPPORT. The fault log, transactions and the isolation of an NI.
-/

set_option linter.unusedSimpArgs false
set_option linter.unusedVariables false

set_option Elab.async false

namespace Sys2Proof.Machine

theorem logFault_flog (s : State) (e : FaultEvent) (h : s.ras.flog.length < 1024) : (s.logFault e).ras.flog = s.ras.flog ++ [faultEntry e s.now] := by
  unfold State.logFault
  simp only [State.modRas_ras]
  have k : ∀ b : Bool, ((if b then (s.emit (.faultN true)).emit .i3cIbi else s) : State).ras = s.ras := by intro b; cases b <;> rfl
  rw [k, if_pos h]
theorem logFault_patches (s : State) (e : FaultEvent) : (s.logFault e).ras.patches = s.ras.patches := by
  unfold State.logFault
  simp only [State.modRas_ras]
  have k : ∀ b : Bool, ((if b then (s.emit (.faultN true)).emit .i3cIbi else s) : State).ras = s.ras := by intro b; cases b <;> rfl
  rw [k]
  split <;> rfl
theorem setCount_flight (s : State) (c : BudgetCount) : (s.setCount c).net.flight = s.net.flight := by
  unfold State.setCount
  simp only [State.modNet_net]
  split <;> rfl
theorem tally_flight (s : State) (f : FieldId) (ni : NiId) (b : Bool) (t : TintId) (n : Nat) : (s.tally f ni b t n).2.net.flight = s.net.flight := by
  unfold State.tally
  exact setCount_flight _ _
theorem sample_net (s : State) (p : Option PanelId) : (s.sample p).2.net = s.net := by
  unfold State.sample
  split <;> rfl
theorem modTxn_txn (s : State) (i : TxId) (f : Txn → Txn) (x : Txn) (hf : ∀ y, (f y).id = y.id) (h : s.txn i = some x) :
    (s.modTxn i f).txn i = some (f x) := by
  unfold State.txn State.modTxn at *
  simp only [State.modNet_net]
  exact modFirst_find _ _ (by intro y hy; rw [hf]; exact hy) _ _ h
theorem txn_flight {s t : State} (h : t.net.flight = s.net.flight) : t.txn = s.txn := by funext i; unfold State.txn; rw [h]
theorem dropTxn_txn (s : State) (i : TxId) : (s.dropTxn i).txn i = none := by
  unfold State.txn State.dropTxn
  simp [List.find?_eq_none]

theorem readyFrom_net (s b : State) : (s.readyFrom b).net = s.net := by unfold State.readyFrom; split <;> rfl
theorem stackSunk_net (s : State) (f : FieldId) (ni : NiId) : (s.stackSunk f ni).net = s.net := by unfold State.stackSunk; split <;> rfl
theorem stackSunk_ras (s : State) (f : FieldId) (ni : NiId) : (s.stackSunk f ni).ras = s.ras := by unfold State.stackSunk; split <;> rfl
theorem stackSunk_sclk (s : State) (f : FieldId) (ni : NiId) : (s.stackSunk f ni).sclk = s.sclk := by unfold State.stackSunk; split <;> rfl
theorem readyFrom_flog (s b : State) : (s.readyFrom b).ras = s.ras := by unfold State.readyFrom; split <;> rfl
theorem isolate_net (s b : State) (f : FieldId) (ni : NiId) (e : FaultEvent) : ((((s.setSink f ni true).stackSunk f ni).logFault e).readyFrom b).net = (s.setSink f ni true).net := by
  rw [readyFrom_net, State.logFault_net, stackSunk_net]
theorem isolate_bit (s : State) (f : FieldId) (ni : NiId) {b : State} {e : FaultEvent} : bit ((((s.setSink f ni true).stackSunk f ni).logFault e).readyFrom b).net.sink[f] ni.val = true := by
  rw [isolate_net]
  simp only [State.setSink, State.modNet_net, vmod_self]
  exact bit_setBit_self _ _ ni.isLt
theorem isolate_hits (s b : State) (f : FieldId) (ni : NiId) (e : FaultEvent) : ((((s.setSink f ni true).stackSunk f ni).logFault e).readyFrom b).net.timeoutHits = s.net.timeoutHits := by
  rw [isolate_net]; rfl
theorem isolate_flog (s z : State) (f : FieldId) (ni : NiId) (hz : z.ras = s.ras ∧ z.sclk = s.sclk) {b : State} {e : FaultEvent} (h : s.ras.flog.length < 1024) :
    ((((z.setSink f ni true).stackSunk f ni).logFault e).readyFrom b).ras.flog = s.ras.flog ++ [faultEntry e s.now] := by
  rw [readyFrom_flog, logFault_flog]
  · unfold State.now
    rw [stackSunk_ras, stackSunk_sclk]
    show z.ras.flog ++ [faultEntry e (BitVec.ofNat 64 z.sclk)] = _
    rw [hz.1, hz.2]
  · rw [stackSunk_ras]
    show z.ras.flog.length < 1024
    rw [hz.1]; exact h
theorem sendFlits_flight (t : Txn) (l : List (Fin 10 × LathDir)) (s : State) :
    (l.foldl (fun x c => x.sendFlit t c) s).net.flight = s.net.flight := by
  induction l generalizing s with
  | nil => rfl
  | cons c cs ih => rw [List.foldl_cons, ih]; rfl
theorem inject_some (s : State) (f : FieldId) (ni : NiId) (tint : TintId) (p : Option PanelId) (pa : BitVec 52) (k : ReqKind) (o : TxOwner) (tag : BitVec 12)
    (h : s.freeTag f ni (reqHigh k) = some tag) (hc : ∀ c, s.trunkTakes pa c = true) (va : Option (BitVec 55) := none) :
    ∃ r, s.inject f ni tint p pa k o va = some r ∧ r.2.net.flight.length = s.net.flight.length + 1 ∧
      ∃ x, r.2.net.flight = s.net.flight ++ [x] ∧ x.id = ⟨f, ni, tag⟩ ∧ x.kind = k ∧ x.pa = pa ∧ x.owner = o ∧ x.tint = tint ∧ x.stage = .inFlight ∧
        x.panel = p ∧ x.demoted = !(s.tally f ni true tint (reqWords k)).1 ∧ x.injected = s.sclk := by
  unfold State.inject
  rw [h, Option.bind_some]
  dsimp only
  rw [if_pos (by rw [List.all_eq_true]; intro c _; exact hc c)]
  refine ⟨_, rfl, ?_⟩
  dsimp only
  rw [sendFlits_flight]
  simp only [State.modNet_net, sample_net, tally_flight]
  exact ⟨by simp, _, rfl, rfl, rfl, rfl, rfl, rfl, rfl, rfl, rfl, rfl⟩
theorem releaseReqs_none (s : State) (h : s.net.heldReqs = []) : s.releaseReqs = s.modNet fun n => { n with heldReqs := [] } := by
  unfold State.releaseReqs
  rw [h]
  rfl
theorem foldFt_net (l : List (FieldId × BankAccess)) (s : State) :
    (l.foldl (fun x r => x.modFt r.1 fun y => { y with queue := y.queue ++ [r.2] }) s).net = s.net := by
  induction l generalizing s with
  | nil => rfl
  | cons c cs ih => rw [List.foldl_cons, ih]; rfl
theorem queueAtLoc_stage (z : State) (y : Txn) (l : Loc) (h : z.txn y.id = some y) : ((z.queueAtLoc y l).txn y.id).map (fun t => t.stage) = some .atTarget := by
  have w : (z.modTxn y.id fun x => { x with stage := .atTarget }).txn y.id = some { y with stage := .atTarget } :=
    modTxn_txn z y.id (fun x => { x with stage := .atTarget }) y (fun _ => rfl) h
  unfold State.queueAtLoc
  dsimp only
  split
  · refine (congrArg (Option.map fun t : Txn => t.stage) (modTxn_find _ _ _ _ ?_)).trans ?_
    · intro _; rfl
    rw [if_pos rfl]
    show Option.map _ (Option.map _ ((z.modTxn y.id fun x => { x with stage := .atTarget }).txn y.id)) = _
    rw [w]
    rfl
  · rw [txn_net (foldFt_net _ _), w]; rfl
  · rw [txn_net (foldFt_net _ _), w]; rfl
  · rw [w]; rfl
theorem queueAtLoc_hbm (z : State) (y : Txn) (k : StackId) (pc : PcId) (sn wn n : Nat) (h : y.kind = .read n) :
    ∃ r : WaitingRead, r.id = y.id ∧ r.key = z.keyOf (.hbm k pc sn wn) ∧ r.count = n ∧ r.arrived = z.sclk ∧ r.passed = 0 ∧
      (z.queueAtLoc y (.hbm k pc sn wn)).hbm[k].readQ = z.hbm[k].readQ ++ [r] := by
  refine ⟨{ id := y.id, key := z.keyOf (.hbm k pc sn wn), count := n, prio := z.servePrio y, critical := z.critical y, arrived := z.sclk, passed := 0 }, rfl, rfl, rfl, rfl, rfl, ?_⟩
  unfold State.queueAtLoc
  dsimp only
  rw [h]
  show (State.modStack _ k _).hbm[k].readQ = _
  rw [State.modStack_hbm, vmod_self]
  rfl
theorem modFirst_length {α : Type} (p : α → Bool) (f : α → α) (l : List α) : (modFirst p f l).length = l.length := by
  induction l with
  | nil => rfl
  | cons x xs ih => unfold modFirst; split <;> simp [ih]

end Sys2Proof.Machine
end

