-- ==== Sys2Proof/Laws/CohOps.lean ====
section
/-!
SUPPORT. Home slices: lines, directory entries and completions.
-/

set_option linter.unusedSimpArgs false
set_option linter.unusedVariables false

set_option Elab.async false

namespace Sys2Proof.Machine

theorem modSlice_nop (s : State) (f : FieldId) (h : Slice → Slice) (e : h s.coh.slices[f] = s.coh.slices[f]) : s.modSlice f h = s := by
  have k : vmod s.coh.slices f h = s.coh.slices := by
    apply Vector.ext
    intro i hi
    by_cases c : f = ⟨i, hi⟩
    · subst c; exact (vmod_self s.coh.slices ⟨i, hi⟩ h).trans e
    · exact vmod_other (i := f) (j := ⟨i, hi⟩) s.coh.slices h (fun q => c q.symm)
  unfold State.modSlice State.modCoh
  dsimp only
  rw [k]
theorem pump_nil (s : State) (f : FieldId) (h : s.coh.slices[f].waiting = []) : s.pump f = s := by
  unfold State.pump
  rw [h]
  exact modSlice_nop s f _ (by rw [← h])
@[simp] theorem modSlice_self (s : State) (f : FieldId) (h : Slice → Slice) : (s.modSlice f h).coh.slices[f] = h s.coh.slices[f] := by
  simp only [State.modSlice, State.modCoh_coh, vmod_self]
theorem blockedAt_append (x : Slice) (b : Blocked) (h : x.blockedAt b.line = none) : ({ x with blocked := x.blocked ++ [b] } : Slice).blockedAt b.line = some b := by
  unfold Slice.blockedAt at *
  simp only [List.find?_append, h]
  simp
theorem blockedAt_mod (x : Slice) (line : Nat) (g : Blocked → Blocked) (b : Blocked) (hg : ∀ y, (g y).line = y.line) (h : x.blockedAt line = some b) :
    (x.modBlocked line g).blockedAt line = some (g b) := by
  unfold Slice.blockedAt Slice.modBlocked at *
  exact modFirst_find _ _ (by intro y hy; rw [hg]; exact hy) _ _ h
theorem blockedAt_line {x : Slice} {line : Nat} {b : Blocked} (h : x.blockedAt line = some b) : b.line = line := by
  unfold Slice.blockedAt at h
  simpa using List.find?_some h
theorem blockedAt_drop (x : Slice) (line : Nat) : ({ x with blocked := x.blocked.filter fun b => b.line ≠ line } : Slice).blockedAt line = none := by
  unfold Slice.blockedAt
  simp [List.find?_eq_none]
theorem put_entry (x : Slice) (e : DirEntry) (h : x.entry e.line = none) : (x.put e).entry e.line = some e := by
  unfold Slice.put Slice.entry at *
  rw [if_neg (by simpa [List.find?_eq_none] using h)]
  simp only [List.find?_append, h]
  simp
theorem put_blocked (x : Slice) (e : DirEntry) : (x.put e).blockedAt = x.blockedAt := by unfold Slice.put; split <;> rfl
theorem put_waiting (x : Slice) (e : DirEntry) : (x.put e).waiting = x.waiting := by unfold Slice.put; split <;> rfl

theorem clear_parts {s : State} {f : FieldId} {line : Nat} {req : CohReq} (h : s.clearLine f line req = true) :
    s.coh.slices[f].waiting = [] ∧ s.coh.slices[f].blockedAt line = none ∧ s.coh.slices[f].entry line = none ∧ s.coh.slices[f].victim line req = none := by
  unfold State.clearLine at h
  exact of_decide_eq_true h
theorem requestCoh_clear (s : State) (f : FieldId) (line : Nat) (req : CohReq) (src : CohFrom) (h : s.clearLine f line req = true) :
    s.requestCoh f line req src = ((s.blockLine f line req src).finishCoh f line).pump f := by
  obtain ⟨h1, h2, h3, h4⟩ := clear_parts h
  unfold State.requestCoh State.takeCoh
  dsimp only
  rw [h1, h2, h4, if_neg (by simp)]
  dsimp only
  unfold State.serveCoh
  dsimp only
  rw [h3]
  have q : (s.modSlice f fun x => { x with blocked := x.blocked ++ [freshBlocked line req src] }).settle f line = (s.blockLine f line req src).finishCoh f line := by
    unfold State.settle
    rw [modSlice_self]
    have e := blockedAt_append _ (freshBlocked line req src) h2
    dsimp only [freshBlocked] at e ⊢
    rw [e]
    dsimp only
    rw [if_pos ⟨rfl, rfl, rfl⟩]
    rfl
  rw [← q]
  rfl
theorem blockLine_at (s : State) (f : FieldId) (line : Nat) (req : CohReq) (src : CohFrom) (h : s.clearLine f line req = true) :
    (s.blockLine f line req src).coh.slices[f].blockedAt line = some (freshBlocked line req src) := by
  unfold State.blockLine
  rw [modSlice_self]
  exact blockedAt_append _ (freshBlocked line req src) (clear_parts h).2.1
theorem blockLine_entry (s : State) (f : FieldId) (line : Nat) (req : CohReq) (src : CohFrom) (h : s.clearLine f line req = true) :
    (s.blockLine f line req src).coh.slices[f].entry line = none := by
  unfold State.blockLine
  rw [modSlice_self]
  exact (clear_parts h).2.2.1
theorem blockLine_waiting (s : State) (f : FieldId) (line : Nat) (req : CohReq) (src : CohFrom) (h : s.clearLine f line req = true) :
    (s.blockLine f line req src).coh.slices[f].waiting = [] := by
  unfold State.blockLine
  rw [modSlice_self]
  exact (clear_parts h).1
theorem clearLine_coh {s z : State} (h : z.coh = s.coh) (f : FieldId) (line : Nat) (req : CohReq) : z.clearLine f line req = s.clearLine f line req := by
  unfold State.clearLine; rw [h]
theorem agentDead_coh {s z : State} (h : z.coh = s.coh) (a : AgentId) : z.agentDead a = s.agentDead a := by
  unfold State.agentDead; rw [h]
theorem blockLine_dead (s : State) (f : FieldId) (line : Nat) (req : CohReq) (src : CohFrom) (a : AgentId) :
    (s.blockLine f line req src).agentDead a = s.agentDead a := rfl
/-- What a completion leaves at the home. -/
theorem complete_slice (s z : State) (f : FieldId) (line : Nat) (req : CohReq) (src : CohFrom) (a : AgentId) (b : Blocked) (st : AgentLine) (w : Option CodeWord)
    (e : DirEntry) (he : e.line = line) (h : s.clearLine f line req = true) (hd : s.agentDead a = false) (hz : z.coh = (s.blockLine f line req src).coh) :
    ((z.complete f line a b st w e).pump f).coh.slices[f].entry line = some e ∧
    ((z.complete f line a b st w e).pump f).coh.slices[f].blockedAt line = some { freshBlocked line req src with granted := some st, cmpData := w } := by
  have zs : z.coh.slices[f] = (s.blockLine f line req src).coh.slices[f] := by rw [hz]
  have zd : z.agentDead a = false := (agentDead_coh hz a).trans ((blockLine_dead s f line req src a).trans hd)
  have sl : (z.complete f line a b st w e).coh.slices[f] = (((s.blockLine f line req src).coh.slices[f]).put e).modBlocked line fun b => { b with granted := some st, cmpData := w } := by
    unfold State.complete
    rw [if_neg (by rw [zd]; decide), State.tellCmp_coh, modSlice_self, modSlice_self, zs]
  rw [pump_nil]
  · rw [sl]
    refine ⟨?_, ?_⟩
    · subst he
      exact put_entry _ _ (blockLine_entry s f e.line req src h)
    · refine blockedAt_mod _ _ (fun b => { b with granted := some st, cmpData := w }) _ ?_ ?_
      · intro y; rfl
      · rw [put_blocked]; exact blockLine_at s f line req src h
  · rw [sl]
    show (Slice.put _ e).waiting = []
    rw [put_waiting]
    exact blockLine_waiting s f line req src h
/-- A request of a caching agent for a line that no agent holds. -/
theorem request_granted (s : State) (f : FieldId) (line : Nat) (req : CohReq) (src : CohFrom) (a : AgentId) (st : AgentLine) (h : s.clearLine f line req = true)
    (hd : s.agentDead a = false)
    (hf : ∃ (z : State) (b : Blocked) (w : Option CodeWord), z.coh = (s.blockLine f line req src).coh ∧ (s.blockLine f line req src).finishCoh f line = z.complete f line a b st w (soleEntry line a st)) :
    ∃ t, s.requestCoh f line req src = t ∧ t.coh.slices[f].entry line = some (soleEntry line a st) ∧ (t.coh.slices[f].blockedAt line).bind (·.granted) = some st := by
  obtain ⟨z, b, w, hz, e⟩ := hf
  refine ⟨_, rfl, ?_⟩
  rw [requestCoh_clear s f line req src h, e]
  have c := complete_slice s z f line req src a b st w (soleEntry line a st) rfl h hd hz
  rw [c.1, c.2]
  exact ⟨rfl, rfl⟩
theorem agentRequest_home {s0 : State} {a : AgentId} {pa : BitVec 52} {req : CohReq} (src : CohFrom) (h1 : s0.agentMaySend a pa = true) (h2 : s0.wants a pa req = true)
    (h3 : (s0.counted (agentNi a) (s0.homeOf pa, 17) src.tint (cohWords req)).wayOut (agentNi a) (s0.homeOf pa, 17) = none) :
    s0.agentRequest a pa req src = (s0.counted (agentNi a) (s0.homeOf pa, 17) src.tint (cohWords req)).requestCoh (s0.homeOf pa) (lineOf pa) req src := by
  unfold State.agentRequest
  rw [if_pos (by rw [h1, h2]; rfl)]
  dsimp only
  rw [h3]
theorem maySend_alive {s : State} {a : AgentId} {pa : BitVec 52} (h : s.agentMaySend a pa = true) : s.agentDead a = false := by
  unfold State.agentMaySend at h
  simp only [Bool.and_eq_true] at h
  simpa using h.1.1.2

theorem answer_plain (s : State) (f : FieldId) (line : Nat) (b : Blocked) (id : TxId) (st : BitVec 3) (d : List CodeWord) (h : b.src.cxl = none) :
    s.completePlain f line b id st d = (s.modSlice f fun x => x.modBlocked line fun b => { b with cmpTaken := true, cmpData := d.head? }).answerTxn id st d := by
  unfold State.completePlain
  rw [h]
theorem completePlain_slice (s : State) (f : FieldId) (line : Nat) (b : Blocked) (id : TxId) (st : BitVec 3) (d : List CodeWord) (x : Txn) (hb : b.src.cxl = none)
    (hw : s.coh.slices[f].waiting = []) (hx : s.txn id = some x) :
    ((s.completePlain f line b id st d).pump f).txn id = some { x with stage := .answered, status := st, data := d } ∧ ((s.completePlain f line b id st d).pump f).mem = s.mem := by
  have e : (s.completePlain f line b id st d).coh.slices[f].waiting = [] := by
    rw [answer_plain _ _ _ _ _ _ _ hb, State.answerTxn_coh, modSlice_self]
    exact hw
  rw [pump_nil _ _ e, answer_plain _ _ _ _ _ _ _ hb]
  refine ⟨answerTxn_txn _ id st d x hx, ?_⟩
  rw [State.answerTxn_mem]
  rfl
theorem noteTimeout_flight (s : State) (f : FieldId) (ni : NiId) : (s.noteTimeout f ni).net.flight = s.net.flight := by
  unfold State.noteTimeout
  rfl
theorem wayLog_flight (s : State) (p : Option PanelId) (dst : FieldId × NiId) (st : BitVec 3) : (s.wayLog p dst st).net.flight = s.net.flight := by
  unfold State.wayLog
  split
  · rw [State.logFault_net]
  · split
    · unfold State.timedOut
      rw [noteTimeout_flight, State.logFault_net]
      rfl
    · rfl
theorem counted_flight (s : State) (src dst : FieldId × NiId) (t : TintId) (n : Nat) : (s.counted src dst t n).net.flight = s.net.flight := by
  unfold State.counted
  dsimp only
  split
  · rw [tally_flight, tally_flight]
  · rw [tally_flight]
theorem fetchCode_flight (s : State) (g : Agent) (ni : NiId) (t : TintId) (pa : BitVec 52) (x : BitVec 544) : (s.fetchCode g ni t pa x).2.net.flight = s.net.flight := by
  unfold State.fetchCode
  dsimp only
  split
  · rw [State.readCode_net]
  · split
    · rw [wayLog_flight, counted_flight]
    · split
      · rw [State.readCode_net, counted_flight]
      · rw [wayLog_flight, State.readCode_net, counted_flight]
theorem storeCode_flight (s : State) (g : Agent) (ni : NiId) (t : TintId) (pa : BitVec 52) (w : CodeWord) : (s.storeCode g ni t pa w).2.net.flight = s.net.flight := by
  unfold State.storeCode
  dsimp only
  split
  · rw [State.writeCode_net]
  · split
    · rw [wayLog_flight, counted_flight]
    · split
      · rw [State.writeCode_net, counted_flight]
      · rw [wayLog_flight, State.writeCode_net, counted_flight]
theorem homeAtomic_flight (s : State) (f : FieldId) (t : TintId) (line : Nat) (op : AtomicOp) (off operand cmp : Nat) (m : Bool) :
    (s.homeAtomic f t line op off operand cmp m).2.net.flight = s.net.flight := by
  unfold State.homeAtomic
  dsimp only
  split
  · rw [State.atomicAt_net]
  · split
    · rw [wayLog_flight, counted_flight]
    · split
      · rw [State.atomicAt_net, counted_flight]
      · rw [wayLog_flight, State.atomicAt_net, counted_flight]
theorem answered_snoop (l : List Snoop) (a : AgentId) (ans : SnoopAnswer) (h : l.any (fun n => n.agent = a) = true) :
    ((modFirst (fun n => n.agent = a) (fun n => { n with answer := some ans }) l).find? fun n => n.agent = a).bind (·.answer) = some ans := by
  obtain ⟨c, hc⟩ : ∃ c, l.find? (fun n => n.agent = a) = some c := by
    rw [← Option.isSome_iff_exists, List.find?_isSome]
    simpa using h
  rw [modFirst_find _ (fun n => { n with answer := some ans }) (fun x k => k) l c hc]
  rfl
theorem any_mono {α : Type} (l : List α) (p q : α → Bool) (h : ∀ x, p x = true → q x = true) (k : l.any p = true) : l.any q = true := by
  rw [List.any_eq_true] at *
  obtain ⟨x, hx, e⟩ := k
  exact ⟨x, hx, h x e⟩
theorem modCached_coh (s : State) (a : AgentId) (line : Nat) (f : CacheLine → CacheLine) : (s.modCached a line f).coh.slices = s.coh.slices ∧ (s.modCached a line f).coh.homeMap = s.coh.homeMap := ⟨rfl, rfl⟩
theorem hubAnswer_slices (s : State) (a : AgentId) (line : Nat) (k : SnoopKind) : (s.hubAnswer a line k).2.coh.slices = s.coh.slices ∧ (s.hubAnswer a line k).2.coh.homeMap = s.coh.homeMap := by
  unfold State.hubAnswer
  dsimp only
  repeat' split
  all_goals exact ⟨rfl, rfl⟩
theorem homeOf_eq {s t : State} (h : t.coh.homeMap = s.coh.homeMap) : t.homeOf = s.homeOf := by funext pa; unfold State.homeOf; rw [h]
theorem evict_slices (s : State) (c : CacheLine) : (s.evict c).coh.slices = s.coh.slices := by
  unfold State.evict
  split <;> rfl
theorem takeLine_slices (s : State) (a : AgentId) (line : Nat) (st : AgentLine) (w : CodeWord) : (s.takeLine a line st w).coh.slices = s.coh.slices := by
  unfold State.takeLine
  dsimp only
  split
  · show (State.evict _ _).coh.slices = _
    rw [evict_slices]; rfl
  · rfl
theorem markLine_coh (s : State) (f : FieldId) (t : TintId) (line : Nat) : (s.markLine f t line).coh = s.coh := by
  unfold State.markLine
  exact (State.homeWrite_coh _ _ _ _ _).trans (State.homeRead_coh _ _ _ _)
theorem lostCopy_slices (s : State) (f : FieldId) (t : TintId) (line : Nat) (a : AgentId) : (s.lostCopy f t line a).coh.slices[f] = s.coh.slices[f].remove line a := by
  unfold State.lostCopy
  rw [modSlice_self]
  split
  · exact congrArg (fun c : CohState => c.slices[f].remove line a) (markLine_coh _ _ _ _)
  · rfl
theorem remove_blocked (x : Slice) (line : Nat) (a : AgentId) : (x.remove line a).blocked = x.blocked ∧ (x.remove line a).waiting = x.waiting ∧ (x.remove line a).snoopTimeouts = x.snoopTimeouts ∧ (x.remove line a).ackTimeouts = x.ackTimeouts := by
  unfold Slice.remove
  split
  · exact ⟨rfl, rfl, rfl, rfl⟩
  · split
    · exact ⟨rfl, rfl, rfl, rfl⟩
    · unfold Slice.put; split <;> exact ⟨rfl, rfl, rfl, rfl⟩

theorem takeAnswer_more (s : State) (f : FieldId) (line : Nat) (a : AgentId) (ans : SnoopAnswer) (b : Blocked) (n : Snoop)
    (h1 : s.coh.slices[f].blockedAt line = some b) (h2 : (b.snoops.find? fun m => m.agent = a) = some n) (h3 : ans.wbp = none) (hx : s.isCxl a = false)
    (h4 : (b.snoops.filter fun m => m.agent ≠ a) ≠ []) :
    (s.takeAnswer f line a ans).coh.slices[f].blockedAt line = some { b with snoops := b.snoops.filter fun m => m.agent ≠ a, gotData := if ans.hasData then some ans.word else b.gotData, gotDirty := b.gotDirty || (ans.hasData && ans.dirty) } ∧
    (s.takeAnswer f line a ans).coh.slices[f].waiting = s.coh.slices[f].waiting ∧ (s.takeAnswer f line a ans).coh.homeMap = s.coh.homeMap := by
  unfold State.takeAnswer
  rw [h1]
  dsimp only [Option.bind_some]
  rw [h2]
  dsimp only [Option.map_some]
  rw [h3, if_neg (show ¬ s.isCxl a = true by rw [hx]; decide)]
  dsimp only
  rw [if_neg (by simp)]
  have key : ∀ g : Slice → Slice, (g s.coh.slices[f]).blockedAt line = some { b with snoops := b.snoops.filter fun m => m.agent ≠ a, gotData := if ans.hasData then some ans.word else b.gotData, gotDirty := b.gotDirty || (ans.hasData && ans.dirty) } → (s.modSlice f g).settle f line = s.modSlice f g := by
    intro g hg
    unfold State.settle
    rw [modSlice_self, hg]
    dsimp only
    rw [if_neg (fun c => h4 c.1)]
  have bl : ∀ x : Slice, x.blocked = s.coh.slices[f].blocked → (x.modBlocked line fun b => { b with snoops := b.snoops.filter fun n => n.agent ≠ a, gotData := if ans.hasData then some ans.word else b.gotData, gotDirty := b.gotDirty || (ans.hasData && ans.dirty) }).blockedAt line = some { b with snoops := b.snoops.filter fun m => m.agent ≠ a, gotData := if ans.hasData then some ans.word else b.gotData, gotDirty := b.gotDirty || (ans.hasData && ans.dirty) } := by
    intro x hx
    refine blockedAt_mod x line _ b (fun _ => rfl) ?_
    unfold Slice.blockedAt at *
    rw [hx]; exact h1
  rw [key]
  · rw [modSlice_self]
    refine ⟨?_, ?_, rfl⟩
    · refine bl _ ?_
      split <;> split <;> (first | rfl | rw [(remove_blocked _ _ _).1])
    · show Slice.waiting (ite _ _ _) = _
      split <;> split <;> (first | rfl | rw [(remove_blocked _ _ _).2.1])
  · refine bl _ ?_
    split <;> split <;> (first | rfl | rw [(remove_blocked _ _ _).1])

theorem answerSnoop_sent (s z : State) (a : AgentId) (pa : BitVec 52) (b : Blocked) (ans : SnoopAnswer) (h1 : s.coh.slices[s.homeOf pa].blockedAt (lineOf pa) = some b)
    (h2 : (b.snoops.any fun n => n.agent = a) = true) (hs : z.coh.slices = s.coh.slices ∧ z.coh.homeMap = s.coh.homeMap) :
    (z.modSlice (s.homeOf pa) fun x => x.modBlocked (lineOf pa) fun b => { b with snoops := modFirst (fun n => n.agent = a) (fun n => { n with answer := some ans }) b.snoops }).sentAnswer a pa = some ans := by
  obtain ⟨w, hw⟩ : ∃ w, w = z.modSlice (s.homeOf pa) fun x => x.modBlocked (lineOf pa) fun b => { b with snoops := modFirst (fun n => n.agent = a) (fun n => { n with answer := some ans }) b.snoops } := ⟨_, rfl⟩
  rw [← hw]
  have wh : w.homeOf = s.homeOf := homeOf_eq (by rw [hw]; exact hs.2)
  have ws : w.coh.slices[s.homeOf pa] = s.coh.slices[s.homeOf pa].modBlocked (lineOf pa) fun b => { b with snoops := modFirst (fun n => n.agent = a) (fun n => { n with answer := some ans }) b.snoops } := by
    rw [hw, modSlice_self, hs.1]
  unfold State.sentAnswer
  generalize lineOf pa = L at *
  have wb := blockedAt_mod s.coh.slices[s.homeOf pa] L (fun b => { b with snoops := modFirst (fun n => n.agent = a) (fun n => { n with answer := some ans }) b.snoops }) b (fun _ => rfl) h1
  have e : w.coh.slices[w.homeOf pa].blockedAt L = some { b with snoops := modFirst (fun n => n.agent = a) (fun n => { n with answer := some ans }) b.snoops } :=
    (congrArg (fun g : BitVec 52 → FieldId => w.coh.slices[g pa].blockedAt L) wh).trans ((congrArg (fun y : Slice => y.blockedAt L) ws).trans wb)
  rw [e]
  exact answered_snoop _ _ _ h2

theorem acceptWb_plain (z : State) (a : AgentId) (pa : BitVec 52) (tag : BitVec 12) (w : CodeWord) (src : CohFrom)
    (k1 : ({ agent := a, tag := if z.isCxl a then none else some tag, line := lineOf pa } : StaleEntry) ∉ z.coh.slices[z.homeOf pa].stale)
    (k2 : ((z.coh.slices[z.homeOf pa].blockedAt (lineOf pa)).any fun b => b.snoops.any fun m => m.agent = a) = false) :
    z.acceptWb a pa tag w src = (((z.homeWrite (z.homeOf pa) src.tint (lineOf pa) w).2).modSlice (z.homeOf pa) fun y => y.remove (lineOf pa) a).sendWbAck a src (lineOf pa) := by
  unfold State.acceptWb
  dsimp only
  rw [if_neg k1, if_neg (by rw [k2]; decide)]

theorem modSlice_dead (s : State) (f : FieldId) (g : Slice → Slice) : (s.modSlice f g).coh.dead = s.coh.dead := rfl
theorem modCached_dead (s : State) (a : AgentId) (line : Nat) (g : CacheLine → CacheLine) : (s.modCached a line g).coh.dead = s.coh.dead := rfl
theorem lostCopy_dead (s : State) (f : FieldId) (t : TintId) (line : Nat) (a : AgentId) : (s.lostCopy f t line a).coh.dead = s.coh.dead := by
  unfold State.lostCopy
  rw [modSlice_dead]
  split
  · rw [markLine_coh]
  · rfl
theorem deadCopy_dead (s : State) (f : FieldId) (t : TintId) (line : Nat) (a : AgentId) : (s.deadCopy f t line a).coh.dead = s.coh.dead := by
  unfold State.deadCopy
  dsimp only
  split
  · rw [State.logFault_coh, lostCopy_dead]
  · exact lostCopy_dead _ _ _ _ _
theorem sendSnoop_dead (s : State) (f : FieldId) (line : Nat) (t : TintId) (a : AgentId) (k : SnoopKind) : (s.sendSnoop f line t a k).coh.dead = s.coh.dead := by
  unfold State.sendSnoop
  split
  · exact deadCopy_dead _ _ _ _ _
  · rw [State.tellSnoop_coh]; rfl
theorem unblock_dead (s : State) (f : FieldId) (line : Nat) : (s.unblock f line).coh.dead = s.coh.dead := rfl
theorem complete_dead (s : State) (f : FieldId) (line : Nat) (a : AgentId) (b : Blocked) (st : AgentLine) (w : Option CodeWord) (e : DirEntry) : (s.complete f line a b st w e).coh.dead = s.coh.dead := by
  unfold State.complete
  dsimp only
  split
  · rw [unblock_dead, deadCopy_dead]; rfl
  · rw [State.tellCmp_coh]; rfl
theorem completePlain_dead (s : State) (f : FieldId) (line : Nat) (b : Blocked) (id : TxId) (st : BitVec 3) (d : List CodeWord) : (s.completePlain f line b id st d).coh.dead = s.coh.dead := by
  unfold State.completePlain
  dsimp only
  split
  · rfl
  · rw [State.answerTxn_coh]; rfl
theorem homeData_dead (s : State) (f : FieldId) (line : Nat) (b : Blocked) : (s.homeData f line b).2.coh = s.coh := by
  unfold State.homeData
  split
  · rfl
  · dsimp only; exact State.homeRead_coh _ _ _ _
theorem homeStore_dead (s : State) (f : FieldId) (line : Nat) (b : Blocked) : (s.homeStore f line b).coh = s.coh := by
  unfold State.homeStore
  split
  · exact State.homeWrite_coh _ _ _ _ _
  · rfl
theorem keepF_dead (s : State) (line : Nat) (st : AgentLine) (e : Option DirEntry) : (s.keepF line st e).coh.dead = s.coh.dead := by
  unfold State.keepF
  split <;> rfl
theorem finishCoh_dead (s : State) (f : FieldId) (line : Nat) : (s.finishCoh f line).coh.dead = s.coh.dead := by
  unfold State.finishCoh
  split
  · rfl
  · dsimp only
    split
    · rw [complete_dead, keepF_dead]
      split
      · rw [homeStore_dead, homeData_dead]
      · rw [homeData_dead]
    · rw [complete_dead, homeData_dead]
    · split
      · rw [complete_dead, homeStore_dead]
      · rw [complete_dead, homeData_dead]
    · rw [complete_dead, homeStore_dead]
    · rw [completePlain_dead, homeData_dead]
    · rw [completePlain_dead, modSlice_dead, State.homeWrite_coh]
    · rw [completePlain_dead, modSlice_dead, homeStore_dead]
    · rw [unblock_dead, State.remember_coh, completePlain_dead, State.homeAtomic_coh, modSlice_dead, homeStore_dead]
    · rw [unblock_dead, modSlice_dead, homeStore_dead]
    · rw [unblock_dead, modSlice_dead, homeStore_dead]
theorem settle_dead (s : State) (f : FieldId) (line : Nat) : (s.settle f line).coh.dead = s.coh.dead := by
  unfold State.settle
  split
  · split
    · exact finishCoh_dead _ _ _
    · rfl
  · rfl
theorem fold_dead {α : Type} (g : State → α → State) (hg : ∀ s x, (g s x).coh.dead = s.coh.dead) (l : List α) (s : State) : (l.foldl g s).coh.dead = s.coh.dead := by
  induction l generalizing s with
  | nil => rfl
  | cons x xs ih => rw [List.foldl_cons, ih, hg]
theorem serveCoh_dead (s : State) (f : FieldId) (line : Nat) (req : CohReq) (src : CohFrom) : (s.serveCoh f line req src).coh.dead = s.coh.dead := by
  unfold State.serveCoh
  dsimp only
  rw [settle_dead]
  exact (fold_dead _ (fun s (x : AgentId × SnoopKind) => sendSnoop_dead s f line src.tint x.1 x.2) _ _).trans rfl
theorem takeCoh_dead (s : State) (f : FieldId) (line : Nat) (req : CohReq) (src : CohFrom) : (s.takeCoh f line req src).coh.dead = s.coh.dead := by
  unfold State.takeCoh
  dsimp only
  split
  · rfl
  · split
    · exact serveCoh_dead _ _ _ _ _
    · split
      · rfl
      · rw [modSlice_dead, serveCoh_dead]
theorem pump_dead (s : State) (f : FieldId) : (s.pump f).coh.dead = s.coh.dead := by
  unfold State.pump
  dsimp only
  exact (fold_dead _ (fun s (r : CohWait) => takeCoh_dead s f r.line r.req r.src) _ _).trans rfl
theorem answerDead_dead (s : State) (a : AgentId) (f : FieldId) : (s.answerDead a f).coh.dead = s.coh.dead := by
  unfold State.answerDead
  refine fold_dead _ ?_ _ _
  intro t b
  split
  · rw [settle_dead, modSlice_dead, deadCopy_dead]
  · rfl
theorem freeDead_dead (s : State) (a : AgentId) (f : FieldId) : (s.freeDead a f).coh.dead = s.coh.dead := rfl
theorem sweepDead_dead (s : State) (a : AgentId) (f : FieldId) : (s.sweepDead a f).coh.dead = s.coh.dead := by
  unfold State.sweepDead
  refine fold_dead _ ?_ _ _
  intro t e
  split
  · exact deadCopy_dead _ _ _ _ _
  · rfl
theorem killFold_dead (s : State) (a : AgentId) : ((allFin 8).foldl (fun t f => (((t.answerDead a f).freeDead a f).sweepDead a f).pump f) s).coh.dead = s.coh.dead :=
  fold_dead _ (fun t f => by rw [pump_dead, sweepDead_dead, freeDead_dead, answerDead_dead]) _ _
/-- R226: what a requester that is no CXL agent with a shared-only request receives does not depend on the state. -/
theorem uncachedGrant_any (s t : State) (a : AgentId) : s.uncachedGrant a false = t.uncachedGrant a false := by
  unfold State.uncachedGrant
  split
  · rfl
  · simp only [Bool.false_eq_true, if_false, ite_self]
theorem keepF_none (s : State) (line : Nat) (st : AgentLine) : s.keepF line st none = s := by
  unfold State.keepF
  split <;> simp_all
theorem isCxl_sites {s z : State} (h : z.sites = s.sites) (a : AgentId) : z.isCxl a = s.isCxl a := by
  unfold State.isCxl; rw [h]
theorem isCxl_hub (s : State) {a : AgentId} (h : a.val < 48) : s.isCxl a = false := by
  unfold State.isCxl
  rw [decide_eq_false (by omega)]
  rfl
theorem sendWbAck_mem (s : State) (a : AgentId) (src : CohFrom) (line : Nat) : (s.sendWbAck a src line).mem = s.mem := by
  unfold State.sendWbAck
  rw [State.tellWbAck_mem]
  split <;> rfl
theorem sendWbAck_slices (s : State) (a : AgentId) (src : CohFrom) (line : Nat) : (s.sendWbAck a src line).coh.slices = s.coh.slices := by
  unfold State.sendWbAck
  rw [State.tellWbAck_coh]
  split <;> rfl
theorem sendWbAck_hub (s : State) (a : AgentId) (src : CohFrom) (line : Nat) (h : a.val < 48) :
    (s.sendWbAck a src line).coh.wbAcks = s.coh.wbAcks ++ [(a, line)] := by
  unfold State.sendWbAck
  rw [State.tellWbAck_coh, if_pos h]
  rfl
theorem counted_sites (s : State) (src dst : FieldId × NiId) (t : TintId) (n : Nat) : (s.counted src dst t n).sites = s.sites := by
  have _ : Fact (Piece.net ≠ .sites) := ⟨by decide⟩
  exact ((State.counted_leads (P := fun p => p ≠ .sites) (.same s _) src dst t n).parts .sites (by simp))
theorem logFault_sclk (s : State) (e : FaultEvent) : (s.logFault e).sclk = s.sclk := by
  have _ : Fact (Piece.ras ≠ .sclk) := ⟨by decide⟩
  have _ : Fact (Piece.out ≠ .sclk) := ⟨by decide⟩
  exact ((State.logFault_leads (P := fun p => p ≠ .sclk) (.same s _) e).parts .sclk (by simp))
/-- A write-back whose way leads to its home, where no stale entry and no snoop awaits it. -/
theorem sendWb_home (s z : State) (a : AgentId) (pa : BitVec 52) (tag : BitVec 12) (w : CodeWord) (src : CohFrom)
    (hz : s.counted (agentNi a) (s.homeOf pa, 17) src.tint 1 = z) (hc : z.coh = s.coh) (h : z.wayOut (agentNi a) (s.homeOf pa, 17) = none)
    (k1 : ({ agent := a, tag := if z.isCxl a then none else some tag, line := lineOf pa } : StaleEntry) ∉ s.coh.slices[s.homeOf pa].stale)
    (k2 : ((s.coh.slices[s.homeOf pa].blockedAt (lineOf pa)).any fun b => b.snoops.any fun m => m.agent = a) = false) :
    (s.sendWb a pa tag w src).mem = (z.homeWrite (s.homeOf pa) src.tint (lineOf pa) w).2.mem ∧
    (s.sendWb a pa tag w src).coh.slices[s.homeOf pa] = s.coh.slices[s.homeOf pa].remove (lineOf pa) a ∧
    (a.val < 48 → (s.sendWb a pa tag w src).coh.wbAcks = s.coh.wbAcks ++ [(a, lineOf pa)]) := by
  have hh : z.homeOf pa = s.homeOf pa := congrFun (homeOf_eq (congrArg (·.homeMap) hc)) pa
  have e : s.sendWb a pa tag w src = z.acceptWb a pa tag w src := by
    unfold State.sendWb
    dsimp only
    rw [hz, h]
  have hs : z.coh.slices[z.homeOf pa] = s.coh.slices[s.homeOf pa] :=
    (congrArg (fun c : CohState => c.slices[z.homeOf pa]) hc).trans (congrArg (fun f : FieldId => s.coh.slices[f]) hh)
  have j1 : ({ agent := a, tag := if z.isCxl a then none else some tag, line := lineOf pa } : StaleEntry) ∉ z.coh.slices[z.homeOf pa].stale :=
    fun m => k1 ((congrArg (fun x : Slice => _ ∈ x.stale) hs).mp m)
  have j2 := (congrArg (fun x : Slice => (x.blockedAt (lineOf pa)).any fun b => b.snoops.any fun m => m.agent = a) hs).trans k2
  have r := acceptWb_plain z a pa tag w src j1 j2
  rw [hh] at r
  rw [e, r]
  refine ⟨?_, ?_, ?_⟩
  · rw [sendWbAck_mem]; rfl
  · rw [sendWbAck_slices, modSlice_self, State.homeWrite_coh, hc]
  · intro ha
    rw [sendWbAck_hub _ _ _ _ ha]
    show (z.homeWrite _ _ _ _).2.coh.wbAcks ++ _ = _
    rw [State.homeWrite_coh, hc]
theorem snoopLost_more (s : State) (f : FieldId) (t : TintId) (line : Nat) (a : AgentId) (b : Blocked)
    (h1 : s.coh.slices[f].blockedAt line = some b) (h3 : (b.snoops.filter fun m => m.agent ≠ a) ≠ []) (h4 : s.coh.slices[f].waiting = []) :
    (s.snoopLost f t line a).pump f = s.snoopLost f t line a ∧
    (s.snoopLost f t line a).coh.slices[f].blockedAt line = some { b with snoops := b.snoops.filter fun m => m.agent ≠ a } ∧
    (s.snoopLost f t line a).coh.slices[f].snoopTimeouts = satAdd s.coh.slices[f].snoopTimeouts 1 ∧
    (s.snoopLost f t line a).coh.slices[f].dir = (s.coh.slices[f].remove line a).dir := by
  have key : ∀ z : State, z.coh = ((s.lostCopy f t line a).modSlice f fun x =>
        { x.modBlocked line (fun b => { b with snoops := b.snoops.filter fun n => n.agent ≠ a }) with
          snoopTimeouts := satAdd x.snoopTimeouts 1 }).coh →
      z.settle f line = z ∧ z.pump f = z ∧
      z.coh.slices[f].blockedAt line = some { b with snoops := b.snoops.filter fun m => m.agent ≠ a } ∧
      z.coh.slices[f].snoopTimeouts = satAdd s.coh.slices[f].snoopTimeouts 1 ∧
      z.coh.slices[f].dir = (s.coh.slices[f].remove line a).dir := by
    intro z hz
    have sl := (congrArg (fun c : CohState => c.slices[f]) hz).trans (modSlice_self _ _ _)
    rw [lostCopy_slices] at sl
    have rb := remove_blocked s.coh.slices[f] line a
    have bl : z.coh.slices[f].blockedAt line = some { b with snoops := b.snoops.filter fun m => m.agent ≠ a } := by
      dsimp only at sl
      rw [sl]
      refine blockedAt_mod (s.coh.slices[f].remove line a) line (fun b => { b with snoops := b.snoops.filter fun n => n.agent ≠ a }) b (fun _ => rfl) ?_
      unfold Slice.blockedAt at *
      rw [rb.1]; exact h1
    dsimp only at sl
    refine ⟨?_, pump_nil _ _ ?_, bl, ?_, ?_⟩
    · unfold State.settle
      rw [bl]
      dsimp only
      rw [if_neg (fun c => h3 c.1)]
    · rw [sl]; exact rb.2.1.trans h4
    · rw [sl]; exact congrArg (fun n => satAdd n 1) rb.2.2.1
    · rw [sl]; rfl
  have k := key (((s.lostCopy f t line a).modSlice f fun x =>
        { x.modBlocked line (fun b => { b with snoops := b.snoops.filter fun n => n.agent ≠ a }) with
          snoopTimeouts := satAdd x.snoopTimeouts 1 }).homeTimeout f a) (State.homeTimeout_coh _ _ _)
  have e : s.snoopLost f t line a = ((s.lostCopy f t line a).modSlice f fun x =>
        { x.modBlocked line (fun b => { b with snoops := b.snoops.filter fun n => n.agent ≠ a }) with
          snoopTimeouts := satAdd x.snoopTimeouts 1 }).homeTimeout f a := k.1
  rw [e]
  exact k.2

end Sys2Proof.Machine
end

