-- ==== Sys2Proof/Laws/SiteOps.lean ====
section
/-!
SUPPORT. Sites: death, refusal and requests given up.
-/

set_option linter.unusedSimpArgs false
set_option linter.unusedVariables false

set_option Elab.async false

namespace Sys2Proof.Machine

theorem modSite_self (s : State) (n : SiteId) (g : SiteState → SiteState) : (s.modSite n g).sites[n] = g s.sites[n] := by
  unfold State.modSite
  exact vmod_self _ _ _
theorem foldAgents_sites (l : List AgentId) (s : State) : (l.foldl State.killAgent s).sites = s.sites := by
  induction l generalizing s with
  | nil => rfl
  | cons x xs ih => rw [List.foldl_cons, ih, State.killAgent_sites]
theorem killHalf_sites (s : State) (n : SiteId) (code : Byte) : (s.killHalf n code).sites = (s.modSite n fun x => { x with ready := false, state := 5, failCode := code, live := 0 }).sites := by
  unfold State.killHalf
  refine (State.readyFrom_sites _ _).trans ?_
  refine (State.siteSevere_sites _ _ _).trans ?_
  refine (State.endWaiting_sites _ _).trans ?_
  refine (State.haltInvs_sites _ _ _).trans ?_
  refine (foldAgents_sites _ _).trans ?_
  exact State.setSink_sites _ _ _ _
theorem killHalf_site (s : State) (n : SiteId) (code : Byte) : (s.killHalf n code).sites[n] = { s.sites[n] with ready := false, state := 5, failCode := code, live := 0 } :=
  (congrArg (fun v : Vector SiteState 8 => v[n]) (killHalf_sites s n code)).trans (modSite_self s n _)
theorem sites_at {s t : State} (n : SiteId) (h : t.sites = s.sites) : t.sites[n] = s.sites[n] := congrArg (fun v : Vector SiteState 8 => v[n]) h
theorem refuseHalf_site (s : State) (n : SiteId) (code : Byte) : (s.refuseHalf n code).sites[n] = { s.sites[n] with ready := false, state := 6, failCode := code, stage := .done } := by
  unfold State.refuseHalf
  simp only [State.siteSevere_sites, State.tellSite_sites, modSite_self]
theorem endSite_alone (s : State) (n : SiteId) (code : Byte) (h : s.otherHalf n = none) : s.endSite n code = s.endHalf n code := by
  unfold State.endSite
  rw [h]
theorem killSite_site (s : State) (n : SiteId) (code : Byte) (h1 : s.sites[n].inService = true) (h2 : s.otherHalf n = none) :
    (s.killSite n code).sites[n] = { s.sites[n] with ready := false, state := 5, failCode := code, live := 0 } := by
  unfold State.killSite
  rw [if_pos h1, endSite_alone _ _ _ h2]
  unfold State.endHalf
  rw [if_pos h1]
  exact killHalf_site s n code
theorem refuse_site (s : State) (n : SiteId) (code : Byte) (h1 : s.sites[n].comingUp = true) (h3 : bit s.fuse.sitePop n.val = true) (h2 : s.otherHalf n = none) :
    (s.endSite n code).sites[n] = { s.sites[n] with ready := false, state := 6, failCode := code, stage := .done } := by
  rw [endSite_alone _ _ _ h2]
  unfold State.endHalf
  rw [if_neg, if_pos (by rw [h1, h3]; rfl)]
  · exact refuseHalf_site s n code
  · unfold SiteState.inService SiteState.comingUp at *
    intro c
    have k := of_decide_eq_true h1
    simp [-Fin.getElem_fin] at c
    rcases c with c | c <;> rw [c] at k <;> exact absurd k (by decide)
theorem siteGiveUp_keep (s : State) (n : SiteId) (i : TxId) : (s.siteGiveUp n i).sites[n].state = s.sites[n].state ∧ (s.siteGiveUp n i).sites[n].replays = s.sites[n].replays ∧ (s.siteGiveUp n i).sites[n].retrainAt = s.sites[n].retrainAt := by
  unfold State.siteGiveUp
  dsimp only
  split
  · simp only [State.refuseTxn_sites, modSite_self]; exact ⟨trivial, trivial, trivial⟩
  · simp only [modSite_self]; exact ⟨trivial, trivial, trivial⟩
theorem giveUps_keep (n : SiteId) (l : List TxId) (s : State) : (l.foldl (fun t i => t.siteGiveUp n i) s).sites[n].state = s.sites[n].state ∧ (l.foldl (fun t i => t.siteGiveUp n i) s).sites[n].replays = s.sites[n].replays ∧ (l.foldl (fun t i => t.siteGiveUp n i) s).sites[n].retrainAt = s.sites[n].retrainAt := by
  induction l generalizing s with
  | nil => exact ⟨rfl, rfl, rfl⟩
  | cons x xs ih =>
    rw [List.foldl_cons]
    have a := ih (s.siteGiveUp n x)
    have b := siteGiveUp_keep s n x
    exact ⟨a.1.trans b.1, a.2.1.trans b.2.1, a.2.2.trans b.2.2⟩
theorem credit_add (s : State) (n : SiteId) (m : SiteMsg) (b : Binding) (e : Fin 16) (v : Nat) (_h2 : m.type = 5) (h3 : s.bindingOf n m.binding = some b)
    (h4 : bit s.sites[n].granted 4 = true) (h5 : (m.reserved || m.status ≠ 0 || m.count ≠ 0 || m.poison ≠ 0) = false) (h6 : m.arg = 268435456 * e.val + v)
    (h7 : v < 65536) (h8 : e.val < s.sites[n].endpoints) (_h9 : s.sites[n].held = []) :
    s.siteAdmit n m 4 (m.reserved || m.status ≠ 0 || m.count ≠ 0 || m.poison ≠ 0 || fld m.arg 16 12 ≠ 0 || decide (s.sites[n].endpoints ≤ m.arg / 2 ^ 28)) = .ok b ∧
    asFin 16 (m.arg / 2 ^ 28) = e ∧ m.arg % 65536 = v ∧ True := by
  have d1 : m.arg / 2 ^ 28 = e.val := by rw [h6]; omega
  have d2 : fld m.arg 16 12 = 0 := by unfold fld; rw [h6]; omega
  refine ⟨?_, ?_, by rw [h6]; omega, trivial⟩
  · unfold State.siteAdmit
    rw [h3]
    dsimp only
    rw [if_neg (by rw [h4]; decide), h5, d1, d2, if_neg]
    have k : ¬ (s.sites[n].endpoints ≤ e.val) := by omega
    rw [decide_eq_false k]
    decide
  · rw [d1]
    apply Fin.ext
    unfold asFin
    simp
theorem nativeAgent_high (n : SiteId) (j : Fin 6) : 48 ≤ (nativeAgent n j).val := by
  unfold nativeAgent asFin
  have h1 := n.isLt
  have h2 := j.isLt
  show 48 ≤ (48 + 6 * n.val + j.val) % 96
  omega
theorem cacheLeaf_flight (s : State) (e : EngineSel) (x : TlbEntry) : (s.cacheLeaf e x).net = s.net := by
  unfold State.cacheLeaf
  rfl
theorem cachePointers_flight (l : List TlbEntry) (f : FieldId) (s : State) : (l.foldl (fun x e => x.cachePointer f e) s).net = s.net := by
  induction l generalizing s with
  | nil => rfl
  | cons x xs ih => rw [List.foldl_cons, ih]; rfl
theorem wordEvent_net (s : State) (cls : BitVec 5) (pa : BitVec 52) (g : Agent) : (s.wordEvent cls pa g).net = s.net := by
  unfold State.wordEvent
  split <;> rfl
theorem walkLevel_flight (s : State) (g : Agent) (p : PanelId) (t : TintId) (va : BitVec 55) (level : Nat) (table : BitVec 52) (namer : DWord) (x : BitVec 544) :
    (s.walkLevel g p t va level table namer x).2.net.flight = s.net.flight := by
  unfold State.walkLevel
  split
  · rfl
  · dsimp only
    split
    · rw [wordEvent_net, fetchCode_flight]
    · exact fetchCode_flight _ _ _ _ _ _
theorem walk_flight (g : Agent) (p : PanelId) (t : TintId) (va : BitVec 55) (acc : Access) (eng : EngineSel) (fuel : Nat) :
    ∀ (s : State) (level : Nat) (table : BitVec 52) (namer : DWord) (found : List TlbEntry),
      (s.walk g p t va acc eng fuel level table namer found).2.net.flight = s.net.flight := by
  induction fuel with
  | zero => intros; rfl
  | succ n ih =>
    intro s level table namer found
    have h := walkLevel_flight s g p t va level table namer 0
    unfold State.walk
    split
    · rename_i e; rw [e] at h; exact h
    · rename_i e; rw [e] at h; rw [ih]; exact h
    · rename_i e
      rw [e] at h
      split
      · exact h
      · dsimp only
        rw [cacheLeaf_flight, cachePointers_flight]
        exact h
/-- A translation adds and takes no transaction. -/
theorem translate_flight (s : State) (g : Agent) (eng : EngineSel) (p : PanelId) (t : TintId) (va : BitVec 55) (acc : Access) :
    (s.translate g eng p t va acc).2.net.flight = s.net.flight := by
  unfold State.translate
  dsimp only
  split
  · rfl
  · split
    · rfl
    · split
      · split
        · rfl
        · dsimp only; rw [cacheLeaf_flight]
      · split
        · rfl
        · exact walk_flight _ _ _ _ _ _ _ _ _ _ _ _
theorem timedOut_sites (s : State) (p : Option PanelId) (d : FieldId × NiId) : (s.timedOut p d).sites = s.sites := by
  unfold State.timedOut
  exact (State.noteTimeout_sites _ _ _).trans (State.logFault_sites _ _)

end Sys2Proof.Machine
end

