-- ==== Sys2Proof/Laws/ImageOps.lean ====
section
/-!
SUPPORT. Bindings, refused loads and new panels.
-/

set_option linter.unusedSimpArgs false
set_option linter.unusedVariables false

set_option Elab.async false

namespace Sys2Proof.Machine

theorem modBinding_at (s : State) (n : SiteId) (tag : Byte) (f : Binding → Binding) (b : Binding) (hf : ∀ y, (f y).tag = y.tag) (h : s.bindingAt n tag = some b) :
    (s.modBinding n tag f).bindingAt n tag = some (f b) := by
  unfold State.bindingAt State.modBinding at *
  rw [modSite_self]
  dsimp only
  generalize s.sites[n].bindings = l at *
  induction l with
  | nil => cases h
  | cons x xs ih =>
    rw [List.map_cons, List.find?_cons]
    rw [List.find?_cons] at h
    by_cases c : x.tag = tag
    · rw [decide_eq_true c] at h
      injection h with h
      subst h
      rw [if_pos c, hf, decide_eq_true c]
    · rw [decide_eq_false c] at h
      rw [if_neg c, decide_eq_false c]
      exact ih h
theorem dropBinding_at (s : State) (n : SiteId) (tag : Byte) : (s.dropBinding n tag).bindingAt n tag = none := by
  unfold State.bindingAt State.dropBinding
  show ((s.modSite n _).sites[n].bindings.find? _) = none
  rw [modSite_self]
  simp [List.find?_eq_none]
theorem modSite_other (s : State) (n m : SiteId) (g : SiteState → SiteState) (h : m ≠ n) : (s.modSite n g).sites[m] = s.sites[m] := by
  unfold State.modSite
  exact vmod_other _ _ h
theorem filter_none (s : State) (n m : SiteId) (tag : Byte) (p : Binding → Bool) (h : s.bindingAt n tag = none) :
    (s.modSite m fun x => { x with bindings := x.bindings.filter p }).bindingAt n tag = none := by
  unfold State.bindingAt at *
  by_cases c : n = m
  · subst c
    rw [modSite_self]
    rw [List.find?_eq_none] at *
    intro x hx
    exact h x (List.mem_filter.mp hx).1
  · rw [modSite_other _ _ _ _ c]
    exact h
theorem bindingAt_sites {s t : State} (h : t.sites = s.sites) : t.bindingAt = s.bindingAt := by
  funext n tag
  unfold State.bindingAt
  exact congrArg (fun v : Vector SiteState 8 => v[n].bindings.find? fun b => b.tag = tag) h
theorem foldArrays_sites (l : List ArrayId) (s : State) : (l.foldl (fun t a => t.modArray a ArrayState.release) s).sites = s.sites := by
  induction l generalizing s with
  | nil => rfl
  | cons x xs ih => rw [List.foldl_cons, ih]; rfl
theorem freePanel_none (s : State) (p : PanelId) (n : SiteId) (tag : Byte) (h : s.bindingAt n tag = none) : (s.freePanel p).bindingAt n tag = none := by
  unfold State.freePanel
  dsimp only
  have k : ∀ (l : List SiteId) (z : State), z.bindingAt n tag = none → (l.foldl (fun t m => t.modSite m fun x => { x with bindings := x.bindings.filter fun b => b.panel ≠ p }) z).bindingAt n tag = none := by
    intro l
    induction l with
    | nil => exact fun z hz => hz
    | cons x xs ih => intro z hz; rw [List.foldl_cons]; exact ih _ (filter_none z n x tag _ hz)
  have e : ∀ z : State, z.bindingAt n tag = none → (((z.dropKeys p).modPanel p fun _ => {}).modImg fun i => { i with panelIds := vset i.panelIds p 0 }).bindingAt n tag = none := by
    intro z hz
    rw [bindingAt_sites (s := z)]
    · exact hz
    · exact State.dropKeys_sites z p
  refine e _ (k _ _ ?_)
  rw [bindingAt_sites (s := s)]
  · exact h
  · rw [foldArrays_sites, State.freeTwin_sites, State.freeVf_sites]
theorem settleLoad_none (s : State) (n : SiteId) (tag : Byte) (h : s.bindingAt n tag = none) : s.settleLoad.bindingAt n tag = none := by
  unfold State.settleLoad
  split
  · unfold State.imageRefused
    dsimp only
    rw [bindingAt_sites (State.imageEnd_sites _ _ _)]
    have a : (if s.img.kind = 2 ∧ s.pnl.panels[asFin 40 s.img.panel.toNat].state = 1 then s.freePanel (asFin 40 s.img.panel.toNat) else s).bindingAt n tag = none := by
      split
      · exact freePanel_none _ _ _ _ h
      · exact h
    split
    · exact a
    · exact a
  · exact h
theorem dropBinding_none (s : State) (n m : SiteId) (tag tg : Byte) (h : s.bindingAt n tag = none) : (s.dropBinding m tg).bindingAt n tag = none :=
  filter_none s n m tag (fun b => b.tag ≠ tg) h
theorem failLoad_none (s : State) (n : SiteId) (tag : Byte) (h : s.bindingAt n tag = none) : s.failLoad.bindingAt n tag = none := by
  unfold State.failLoad
  dsimp only
  refine settleLoad_none _ _ _ ?_
  have k : ∀ (l : List (SiteId × Byte)) (z : State), z.bindingAt n tag = none → (l.foldl (fun t y => t.dropBinding y.1 y.2) z).bindingAt n tag = none := by
    intro l
    induction l with
    | nil => exact fun z hz => hz
    | cons x xs ih => intro z hz; rw [List.foldl_cons]; exact ih _ (dropBinding_none z n x.1 tag x.2 hz)
  exact k _ _ h
theorem imageEnd_img (s : State) (st : BitVec 4) (e : ImgErr) : (s.imageEnd st e).img = { s.img with status := st, error := e.error, section_ := e.sect, entry := e.entry } := by
  unfold State.imageEnd
  rw [State.irq_img]
  rfl
theorem imageRefused_status (s : State) (e : ImgErr) : (s.imageRefused e).img.status = 7 ∧ (s.imageRefused e).img.error = e.error := by
  unfold State.imageRefused
  dsimp only
  rw [imageEnd_img]
  exact ⟨rfl, rfl⟩
theorem foldBind_keep (p : PanelId) (l : List BindEntry) (s : State) : (l.foldl (State.addBind p) s).pnl = s.pnl ∧ (l.foldl (State.addBind p) s).arrays = s.arrays := by
  induction l generalizing s with
  | nil => exact ⟨rfl, rfl⟩
  | cons x xs ih => rw [List.foldl_cons]; exact ⟨(ih _).1.trans rfl, (ih _).2.trans rfl⟩
theorem makeTwin_panel (s : State) (i : Image) (p : PanelId) : ∃ w, (s.makeTwin i p).pnl.panels[p] = { s.pnl.panels[p] with twin := w } := by
  unfold State.makeTwin
  split
  · exact ⟨_, rfl⟩
  · dsimp only
    simp only [State.modPanel, State.modPnl_pnl, vmod_self]
    exact ⟨_, rfl⟩
theorem clearCredit_at (s : State) (n m : SiteId) (tag : Byte) (b : Binding) : (s.clearCredit m b).bindingAt n tag = s.bindingAt n tag := by
  unfold State.clearCredit
  split
  · unfold State.bindingAt
    by_cases c : n = m
    · subst c
      rw [modSite_self]; rfl
    · rw [modSite_other _ _ _ _ c]
  · rfl

theorem create_panel (z : State) (x : PanelState) (g : List KeyRange → List KeyRange) (i : Image) (p : PanelId) :
    (((z.modPanel p fun _ => x).modPnl fun y => { y with keyRanges := g y.keyRanges }).makeTwin i p).pnl.panels[p].state = x.state ∧
    (((z.modPanel p fun _ => x).modPnl fun y => { y with keyRanges := g y.keyRanges }).makeTwin i p).pnl.panels[p].sealed_ = x.sealed_ ∧
    (((z.modPanel p fun _ => x).modPnl fun y => { y with keyRanges := g y.keyRanges }).makeTwin i p).pnl.panels[p].arrays = x.arrays ∧
    (((z.modPanel p fun _ => x).modPnl fun y => { y with keyRanges := g y.keyRanges }).makeTwin i p).pnl.panels[p].grants = x.grants ∧
    (((z.modPanel p fun _ => x).modPnl fun y => { y with keyRanges := g y.keyRanges }).makeTwin i p).pnl.panels[p].ranges = x.ranges := by
  obtain ⟨w, hw⟩ := makeTwin_panel ((z.modPanel p fun _ => x).modPnl fun y => { y with keyRanges := g y.keyRanges }) i p
  rw [hw]
  simp only [State.modPanel, State.modPnl_pnl, vmod_self]
  exact ⟨trivial, trivial, trivial, trivial, trivial⟩

end Sys2Proof.Machine
end

