-- ==== Sys2Proof/Laws/MailboxOps.lean ====
section
/-!
SUPPORT. Mailbox commands, zeroed stores and package faults.
-/

set_option linter.unusedSimpArgs false
set_option linter.unusedVariables false

set_option Elab.async false

namespace Sys2Proof.Machine

theorem mailRun_ok (s : State) (op : Byte) (named : Nat → Bool) (used : Nat → Bool) (run : State → Byte × State) (z : State) (h : s.mailAccepted op named used z) :
    s.mailRun op named used run = (run z).2.mailEnd (run z).1 := by
  obtain ⟨⟨h1, h1'⟩, h2, h3, h4, h5⟩ := h
  unfold State.mailRun
  rw [if_neg (by rintro (c | c); exact h1 c; exact h1' c)]
  dsimp only
  rw [if_neg (by intro c; exact absurd (c.symm.trans h2) (by decide)), if_neg (by intro c; rw [show (s.modPnl fun x => { x with cmdOp := op }).pnl.cmdAuth = s.pnl.cmdAuth from rfl, h3] at c; exact absurd c (by decide)), h4]
  dsimp only
  rw [if_neg (by rw [h5]; decide)]
theorem mailEnd_ok (s : State) (r : Byte) : (s.mailEnd r).pnl = { s.pnl with cmdState := if r = 0 then 3 else 4, result := r } := by
  unfold State.mailEnd
  rw [State.irq_pnl]
  rfl
theorem zeroStores_fold (l : List ArrayId) (s : State) : (l.foldl State.zeroArray s).pnl = s.pnl := by
  induction l generalizing s with
  | nil => rfl
  | cons x xs ih => rw [List.foldl_cons, ih]; rfl
theorem zeroStores_at (a : ArrayId) (l : List ArrayId) (s : State) (h : a ∈ l) : (l.foldl State.zeroArray s).arrays[a].vec.localStore = [] ∧ (l.foldl State.zeroArray s).arrays[a].vec.zeroed = true := by
  have key : ∀ (l : List ArrayId) (s : State), (s.arrays[a].vec.localStore = [] ∧ s.arrays[a].vec.zeroed = true) → ((l.foldl State.zeroArray s).arrays[a].vec.localStore = [] ∧ (l.foldl State.zeroArray s).arrays[a].vec.zeroed = true) := by
    intro l
    induction l with
    | nil => exact fun s h => h
    | cons x xs ih =>
      intro s h
      rw [List.foldl_cons]
      refine ih _ ?_
      by_cases e : a = x
      · subst e
        simp only [State.zeroArray, State.modArray, State.modCoh_arrays, vmod_self]
        exact ⟨rfl, rfl⟩
      · simp only [State.zeroArray, State.modArray, State.modCoh_arrays, vmod_other _ _ e]
        exact h
  induction l generalizing s with
  | nil => cases h
  | cons x xs ih =>
    rw [List.foldl_cons]
    by_cases e : a = x
    · subst e
      refine key _ _ ?_
      simp only [State.zeroArray, State.modArray, State.modCoh_arrays, vmod_self]
      exact ⟨rfl, rfl⟩
    · exact ih _ ((List.mem_cons.mp h).resolve_left e)
theorem toPhase_at (s : State) (p : PanelId) (ph : BitVec 3) : (s.toPhase p ph).pnl.panels[p] = { s.pnl.panels[p] with phase := ph } := by
  unfold State.toPhase
  simp only [State.modPanel, State.modPnl_pnl, vmod_self]

theorem haltSilents_ras (l : List QRef) (s : State) : (l.foldl State.haltSilent s).ras = s.ras ∧ (l.foldl State.haltSilent s).twin = s.twin := by
  induction l generalizing s with
  | nil => exact ⟨rfl, rfl⟩
  | cons x xs ih => rw [List.foldl_cons]; exact ⟨(ih _).1.trans (State.haltSilent_ras s x), (ih _).2.trans (State.haltSilent_twin s x)⟩
theorem logFault_rest (s : State) (e : FaultEvent) : (s.logFault e).ras.pkgFault = s.ras.pkgFault ∧ (s.logFault e).ras.flogSevere = (s.ras.flogSevere || decide (4 ≤ e.cls.toNat)) := by
  unfold State.logFault
  simp only [State.modRas_ras]
  have k : ∀ b : Bool, ((if b then (s.emit (.faultN true)).emit .i3cIbi else s) : State).ras = s.ras := by intro b; cases b <;> rfl
  rw [k]
  split <;> exact ⟨rfl, rfl⟩
theorem pkg_ras (s : State) (source : BitVec 5) (code : Byte) (h : s.ras.pkgFault = none) :
    (s.packageFault source code).ras.pkgFault = some (source, code) ∧ (s.packageFault source code).ras.flogSevere = true := by
  have l := logFault_rest s { cls := 5, source := source, code := code }
  have e : (s.packageFault source code).ras = ((s.logFault { cls := 5, source := source, code := code }).modRas fun r => { r with pkgFault := match r.pkgFault with
    | some f => some f
    | none => some (source, code) }).ras := by
    unfold State.packageFault
    dsimp only
    show (ite _ _ _ : State).ras = _
    split
    · exact (haltSilents_ras _ _).1
    · rw [State.sendHeart_ras, State.sendHeart_ras]
      exact (haltSilents_ras _ _).1
  rw [e, State.modRas_ras]
  dsimp only
  rw [l.1, l.2, h]
  exact ⟨rfl, by simp⟩

end Sys2Proof.Machine
end

