-- ==== Sys2Proof/Laws/TwinOps.lean ====
section
/-!
SUPPORT. Twin ports and requests of the partner.
-/

set_option linter.unusedSimpArgs false
set_option linter.unusedVariables false

set_option Elab.async false

namespace Sys2Proof.Machine

theorem modTwinPort_self (s : State) (k : PortId) (g : TwinPort → TwinPort) : (s.modTwinPort k g).twin.ports[k] = g s.twin.ports[k] := by
  unfold State.modTwinPort State.modTwin
  exact vmod_self _ _ _
theorem modBind_self (s : State) (b : BindId) (g : TwinBinding → TwinBinding) : (s.modBind b g).twin.bindings[b] = g s.twin.bindings[b] := by
  unfold State.modBind State.modTwin
  exact vmod_self _ _ _
theorem ports_at {s t : State} (k : PortId) (h : t.twin = s.twin) : t.twin.ports[k] = s.twin.ports[k] := congrArg (fun x : TwinState => x.ports[k]) h
theorem binds_at {s t : State} (b : BindId) (h : t.twin = s.twin) : t.twin.bindings[b] = s.twin.bindings[b] := congrArg (fun x : TwinState => x.bindings[b]) h
/-- A port but for its mirror queue. -/
def TwinPort.bare (x : TwinPort) : TwinPort := { x with queue := [] }
theorem emptyMirror_bare (s : State) (b : BindId) (k : PortId) : (s.emptyMirror b).twin.ports[k].bare = s.twin.ports[k].bare := by
  unfold State.emptyMirror State.modBind
  simp only [State.modTwin, Fin.getElem_fin, Vector.getElem_map]
  rfl
theorem fenceDone_ports (s : State) (b : BindId) : (s.fenceDone b).twin.ports = s.twin.ports := by
  unfold State.fenceDone
  dsimp only
  split <;> rfl
theorem suspendOne_bare (s : State) (b : BindId) (k : PortId) : (s.suspendOne b).twin.ports[k].bare = s.twin.ports[k].bare := by
  unfold State.suspendOne
  dsimp only
  split
  · exact (congrArg (fun v : Vector TwinPort 2 => v[k].bare) (fenceDone_ports _ b)).trans (emptyMirror_bare s b k)
  · rfl
theorem suspendTwins_bare (s : State) (k : PortId) : s.suspendTwins.twin.ports[k].bare = s.twin.ports[k].bare := by
  unfold State.suspendTwins
  generalize allFin 64 = l
  induction l generalizing s with
  | nil => rfl
  | cons x xs ih => rw [List.foldl_cons, ih]; exact suspendOne_bare s x k
theorem resumeTwin_bare (s : State) (b : BindId) (k : PortId) : (s.resumeTwin b).twin.ports[k].bare = s.twin.ports[k].bare := by
  unfold State.resumeTwin
  dsimp only
  split
  · show (State.releasePanel _ _).twin.ports[k].bare = _
    rw [State.releasePanel_twin]
    by_cases c : k = s.twin.bindings[b].port
    · rw [← c, modTwinPort_self]; rfl
    · unfold State.modTwinPort State.modTwin
      dsimp only
      rw [vmod_other _ _ c]
  · rfl
theorem resumeTwins_bare (s : State) (k : PortId) : s.resumeTwins.twin.ports[k].bare = s.twin.ports[k].bare := by
  unfold State.resumeTwins
  split
  · rfl
  · have key : ∀ (l : List BindId) (z : State), (l.foldl State.resumeTwin z).twin.ports[k].bare = z.twin.ports[k].bare := by
      intro l
      induction l with
      | nil => exact fun _ => rfl
      | cons x xs ih => intro z; rw [List.foldl_cons, ih]; exact resumeTwin_bare z x k
    exact key _ _
theorem bare_fields {x y : TwinPort} (h : x.bare = y.bare) : x.state = y.state ∧ x.lanes = y.lanes ∧ x.width = y.width ∧ x.levelSent = y.levelSent ∧ x.secure = y.secure ∧
    x.expect = y.expect ∧ x.rounds = y.rounds := by
  have k : ∀ z : TwinPort, z.bare.state = z.state ∧ z.bare.lanes = z.lanes ∧ z.bare.width = z.width ∧ z.bare.levelSent = z.levelSent ∧ z.bare.secure = z.secure ∧ z.bare.expect = z.expect ∧ z.bare.rounds = z.rounds :=
    fun z => ⟨rfl, rfl, rfl, rfl, rfl, rfl, rfl⟩
  have a := k x
  rw [h] at a
  have b := k y
  exact ⟨a.1.symm.trans b.1, a.2.1.symm.trans b.2.1, a.2.2.1.symm.trans b.2.2.1, a.2.2.2.1.symm.trans b.2.2.2.1, a.2.2.2.2.1.symm.trans b.2.2.2.2.1,
    a.2.2.2.2.2.1.symm.trans b.2.2.2.2.2.1, a.2.2.2.2.2.2.symm.trans b.2.2.2.2.2.2⟩
theorem logLane_twin (s : State) (k : PortId) (l : Nat) (o : Option Nat) : (s.logLane k l o).twin = s.twin := by
  unfold State.logLane
  rw [State.addPatch_twin, State.logFault_twin]
theorem twinInject_some (s : State) (k : PortId) (h : BitVec 128) (pa : BitVec 52) (kind : ReqKind) (tag : BitVec 12) (ht : s.freeTag (fieldOfTwin k) 21 (reqHigh kind) = some tag)
    (hc : ∀ c, s.trunkTakes pa c = true) :
    (s.twinInject k h pa kind).net.flight.length = s.net.flight.length + 1 ∧ ∃ x, (s.twinInject k h pa kind).net.flight = s.net.flight ++ [x] ∧ x.id = ⟨fieldOfTwin k, 21, tag⟩ ∧ x.kind = kind ∧ x.pa = pa ∧ x.owner = .twin k h ∧
      x.tint = s.twin.bindings[(twinMsg h).binding].tint ∧ x.stage = .inFlight := by
  obtain ⟨r, hr, a1, a2⟩ := inject_some s (fieldOfTwin k) 21 s.twin.bindings[(twinMsg h).binding].tint (some s.twin.bindings[(twinMsg h).binding].panel) pa kind (.twin k h) tag ht hc
  unfold State.twinInject
  dsimp only
  rw [hr]
  obtain ⟨x, b⟩ := a2
  exact ⟨a1, x, b.1, b.2.1, b.2.2.1, b.2.2.2.1, b.2.2.2.2.1, b.2.2.2.2.2.1, b.2.2.2.2.2.2.1⟩

theorem twinStarts_port (z : State) (k : PortId) : (z.twinStarts k).twin.ports[k] = { z.twin.ports[k] with state := 2, expect := 0, rounds := 0, secure := false, keyParts := [], levelSent := true } := by
  unfold State.twinStarts State.sendLevel
  rw [modTwinPort_self, ports_at k (State.tellTwin_twin _ _ _ _ _), modTwinPort_self]
  rfl
theorem modLine_self (s : State) (k : PortId) (f : TwinLine → TwinLine) : (s.modLine k f).lines[k] = f s.lines[k] := by
  unfold State.modLine
  exact vmod_self _ _ _
theorem answered_own (s : State) (id : TxId) (x : Txn) (st : BitVec 3) (d : List CodeWord) (h : s.txn id = some x) :
    (s.answerTxn x.id st d).txn id = some { x with stage := .answered, status := st, data := d } := by
  have e : s.answerTxn x.id st d = s.answerTxn id st d := by rw [txn_id h]
  rw [e]
  exact answerTxn_txn s id st d x h

end Sys2Proof.Machine
end

