-- ==== Sys2Proof/Laws/PairOps.lean ====
section
/-!
SUPPORT. Twin bindings, heartbeats and seeds.
-/

set_option linter.unusedSimpArgs false
set_option linter.unusedVariables false

set_option Elab.async false

namespace Sys2Proof.Machine

theorem heartOne_keep (s : State) (b : BindId) : (s.heartOne b).twin.lastHeart = s.twin.lastHeart ∧ (s.heartOne b).twin.silent = s.twin.silent ∧ (s.heartOne b).twin.fatalSeen = s.twin.fatalSeen ∧ (s.heartOne b).twin.cause = s.twin.cause := by
  unfold State.heartOne
  split <;> exact ⟨rfl, rfl, rfl, rfl⟩
theorem hearts_keep (l : List BindId) (s : State) : (l.foldl State.heartOne s).twin.lastHeart = s.twin.lastHeart ∧ (l.foldl State.heartOne s).twin.silent = s.twin.silent ∧ (l.foldl State.heartOne s).twin.fatalSeen = s.twin.fatalSeen ∧ (l.foldl State.heartOne s).twin.cause = s.twin.cause := by
  induction l generalizing s with
  | nil => exact ⟨rfl, rfl, rfl, rfl⟩
  | cons x xs ih =>
    rw [List.foldl_cons]
    have a := ih (s.heartOne x)
    have b := heartOne_keep s x
    exact ⟨a.1.trans b.1, a.2.1.trans b.2.1, a.2.2.1.trans b.2.2.1, a.2.2.2.trans b.2.2.2⟩
/-- SILENT and CAUSE. -/
def hush (s : State) : Bool × BitVec 2 := (s.twin.silent, s.twin.cause)
theorem hush_eq {s t : State} (h : t.twin = s.twin) : hush t = hush s := by unfold hush; rw [h]
theorem emptyMirror_hush (s : State) (b : BindId) (st : BitVec 4) : hush ((s.emptyMirror b).bindTo b st) = hush s := rfl
theorem promoteBind_hush (s : State) (b : BindId) : hush (s.promoteBind b) = hush s := by
  unfold State.promoteBind
  dsimp only
  rw [hush_eq (State.logFault_twin _ _), hush_eq (State.irq_twin _ _), hush_eq (State.fetchPanel_twin _ _)]
  rfl
theorem partnerLost_hush (s : State) (b : BindId) : hush (s.partnerLost b) = hush s := by
  unfold State.partnerLost
  dsimp only
  split
  · rw [hush_eq (State.releasePanel_twin _ _)]
    exact emptyMirror_hush s b 6
  · exact emptyMirror_hush s b 6
theorem silenceOne_hush (u : Bool) (s : State) (b : BindId) : hush (State.silenceOne u s b) = hush s := by
  unfold State.silenceOne
  dsimp only
  split
  · rfl
  · split
    · rw [hush_eq (State.discardComps_twin _ _), hush_eq (State.haltPanel_twin _ _)]
      exact emptyMirror_hush s b 7
    · split
      · exact promoteBind_hush s b
      · exact partnerLost_hush s b
theorem silence_hush (u : Bool) (l : List BindId) (s : State) : hush (l.foldl (State.silenceOne u) s) = hush s := by
  induction l generalizing s with
  | nil => rfl
  | cons x xs ih => rw [List.foldl_cons, ih, silenceOne_hush]
theorem fenceDone_idle (s : State) (b : BindId) (h : s.twin.bindings[b].fencing = false) : s.fenceDone b = s := by
  unfold State.fenceDone
  dsimp only
  rw [h, if_neg (by simp)]
theorem tellBind_twin (s : State) (b : BindId) (t a : Nat) (p : Option (BitVec 512)) : (s.tellBind b t a p).twin = s.twin := by
  unfold State.tellBind
  split
  · rfl
  · exact State.tellTwin_twin _ _ _ _ _
theorem fold_marks (b : BindId) (step : State → Nat → State) (hs : ∀ z n, (step z n).twin.bindings[b].marks = z.twin.bindings[b].marks ∧ (step z n).twin.bindings[b].state = z.twin.bindings[b].state) (l : List Nat) (z : State) :
    (l.foldl step z).twin.bindings[b].marks = z.twin.bindings[b].marks ∧ (l.foldl step z).twin.bindings[b].state = z.twin.bindings[b].state := by
  induction l generalizing z with
  | nil => exact ⟨rfl, rfl⟩
  | cons x xs ih =>
    rw [List.foldl_cons]
    exact ⟨(ih _).1.trans (hs z x).1, (ih _).2.trans (hs z x).2⟩
theorem seedOne_valid (s : State) (b : BindId) : (s.seedOne b).twin.bindings[b].marks = s.twin.bindings[b].marks ∧
    (s.seedOne b).twin.bindings[b].state = s.twin.bindings[b].state := by
  unfold State.seedOne
  dsimp only
  split
  · exact ⟨rfl, rfl⟩
  · rw [modBind_self]
    have q : ∀ (w : State) (p : PortId) (g : TwinPort → TwinPort), (w.modTwinPort p g).twin.bindings[b] = w.twin.bindings[b] := fun _ _ _ => rfl
    rw [q, binds_at (s := s) b (State.readCode_twin s _ _ _)]
    exact ⟨rfl, rfl⟩
theorem seedSome_valid (s : State) (b : BindId) : (s.seedSome b).twin.bindings[b].marks = s.twin.bindings[b].marks ∧
    (s.seedSome b).twin.bindings[b].state = s.twin.bindings[b].state := by
  unfold State.seedSome
  exact fold_marks b _ (fun z _ => seedOne_valid z b) _ s

theorem twinStore_one (s : State) (g : Agent) (p : PanelId) (t : TintId) (pa : BitVec 52) (w : CodeWord) (h : s.coherentAt pa = false) :
    s.twinStore g p t pa [w] = (s.storeCode g 21 t pa w).2 := by
  simp only [State.twinStore, h, Bool.false_eq_true, if_false]
theorem tellTwin_out (s : State) (k : PortId) (h : BitVec 128) (ws : List CodeWord) (f : s.twinSends k h ws = true) :
    (s.tellTwin k h false ws).out = .twinMsg k h ws :: s.out := by
  unfold State.twinSends at f
  simp only [Bool.and_eq_true, decide_eq_true_eq] at f
  unfold State.tellTwin
  dsimp only
  rw [if_pos (by simpa using f)]
  rfl
theorem heart_out (s : State) (k : PortId) (fatal : Bool) (h : s.twinUp k = true)
    (f : s.twinSends k (twinHeader 0x30 0 0 0 0 0 0 0 0 0 (flag fatal 23 + s.twin.ports[k].heartCount.toNat)) [] = true) :
    (s.sendHeart k fatal).out = .twinMsg k (twinHeader 0x30 0 0 0 0 0 0 0 0 0 (flag fatal 23 + s.twin.ports[k].heartCount.toNat)) [] :: s.out := by
  unfold State.sendHeart
  rw [if_neg (by rw [h]; decide)]
  exact tellTwin_out _ _ _ _ f

end Sys2Proof.Machine
end

