-- ==== Sys2Proof/Laws/BootOps.lean ====
section
/-!
SUPPORT. Site rails, power samples, patch records and resets.
-/

set_option linter.unusedSimpArgs false
set_option linter.unusedVariables false

set_option Elab.async false

namespace Sys2Proof.Machine

theorem limit_clamped (s : State) (value : Word) : (s.writeLimit value).pwr.limit.toNat = max 1500 (min 4300 (value.toNat % 2 ^ 13)) := by
  unfold State.writeLimit State.modPwr fld
  simp only [BitVec.toNat_ofNat]
  rw [Nat.mod_eq_of_lt (by omega)]
  simp
theorem therm_clamped (s : State) (value : Word) : (s.writeTherm value).pwr.throtC.toNat = max 80 (min 105 (value.toNat % 2 ^ 8)) := by
  unfold State.writeTherm State.modPwr fld
  simp only [BitVec.toNat_ofNat]
  rw [Nat.mod_eq_of_lt (by omega)]
  simp
theorem patches_fuse (l : List PatchRec) (s : State) : (l.foldl State.applyPatch s).fuse = s.fuse := by
  induction l generalizing s with
  | nil => rfl
  | cons x xs ih => rw [List.foldl_cons, ih]; exact State.applyPatch_fuse _ _
theorem selfTested_fields (g : Nat → ArrayId) (l : List Nat) (s : State) :
    (l.foldl (fun t i => t.modArray (g i) fun x => { x with selfTested := true }) s).fields = s.fields := by
  induction l generalizing s with
  | nil => rfl
  | cons x xs ih => rw [List.foldl_cons, ih]; rfl
theorem selfTested_at (g : Nat → ArrayId) (l : List Nat) (s : State) (i : Nat) (h : i ∈ l) :
    (l.foldl (fun t i => t.modArray (g i) fun x => { x with selfTested := true }) s).arrays[g i].selfTested = true := by
  have key : ∀ (a : ArrayId) (l : List Nat) (s : State), s.arrays[a].selfTested = true →
      (l.foldl (fun t i => t.modArray (g i) fun x => { x with selfTested := true }) s).arrays[a].selfTested = true := by
    intro a l
    induction l with
    | nil => exact fun _ h => h
    | cons x xs ih =>
      intro s h
      rw [List.foldl_cons]
      refine ih _ ?_
      by_cases e : a = g x
      · rw [e]; simp only [State.modArray, vmod_self]
      · simp only [State.modArray, vmod_other _ _ e]
        exact h
  induction l generalizing s with
  | nil => cases h
  | cons x xs ih =>
    rw [List.foldl_cons]
    by_cases e : i = x
    · subst e
      refine key _ _ _ ?_
      simp only [State.modArray, vmod_self]
    · exact ih _ ((List.mem_cons.mp h).resolve_left e)
theorem heart_grows (s : State) (k : PortId) (fatal : Bool) : s.out <:+ (s.sendHeart k fatal).out := by
  have _ : Fact True := ⟨trivial⟩
  exact (State.sendHeart_leads (P := fun _ => True) (.same s _) k fatal).sent
theorem heart_twin (s : State) (j k : PortId) (fatal : Bool) (h : k ≠ j) : (s.sendHeart j fatal).twin.ports[k] = s.twin.ports[k] := by
  unfold State.sendHeart
  split
  · rfl
  · unfold State.modTwinPort State.modTwin
    exact (vmod_other _ _ h).trans (congrArg (fun x : TwinState => x.ports[k]) (State.tellTwin_twin _ _ _ _ _))
theorem ite_keep {β : Type} (g : State → β) {c : Prop} [Decidable c] {x y : State} {v : β} (h1 : g x = v) (h2 : g y = v) :
    g (if c then x else y) = v := by
  split
  · exact h1
  · exact h2
theorem tellTwin_line (s : State) (j k : PortId) (m : BitVec 128) (e : Bool) (ws : List CodeWord) (h : k ≠ j) :
    (s.tellTwin j m e ws).lines[k] = s.lines[k] := by
  unfold State.tellTwin
  exact ite_keep (fun z => z.lines[k]) (vmod_other _ _ h) (vmod_other _ _ h)
theorem heart_line (s : State) (j k : PortId) (fatal : Bool) (h : k ≠ j) : (s.sendHeart j fatal).lines[k] = s.lines[k] := by
  unfold State.sendHeart
  split
  · rfl
  · exact tellTwin_line _ _ _ _ _ _ h
theorem foldEmit_mem {α : Type} (g : α → Bool) (e : α → Out) (o : Out) (l : List α) (t : State) (h : o ∈ t.out) :
    o ∈ (l.foldl (fun (t : State) n => if g n = true then t.emit (e n) else t) t).out := by
  induction l generalizing t with
  | nil => exact h
  | cons x xs ih =>
    rw [List.foldl_cons]
    refine ih _ ?_
    split
    · exact List.mem_cons_of_mem _ h
    · exact h
theorem reset_keeps_out (t : State) (o : Out) (h : o ∈ t.out) : o ∈ t.enterReset.out := by
  have k : o ∈ t.releasePins.out := by
    unfold State.releasePins
    dsimp only
    refine foldEmit_mem _ _ _ _ _ ?_
    have h1 : o ∈ (if t.ras.flogSevere then t.emit (.faultN false) else t : State).out := by
      split
      · exact List.mem_cons_of_mem _ h
      · exact h
    split
    · exact List.mem_cons_of_mem _ h1
    · exact h1
  exact k
theorem fatal_hearts (s : State) (k : PortId) (h : s.twinUp k = true)
    (f : s.twinSends k (twinHeader 0x30 0 0 0 0 0 0 0 0 0 (2 ^ 23 + s.twin.ports[k].heartCount.toNat)) [] = true) :
    .twinMsg k (twinHeader 0x30 0 0 0 0 0 0 0 0 0 (2 ^ 23 + s.twin.ports[k].heartCount.toNat)) [] ∈ ((s.sendHeart 0 true).sendHeart 1 true).enterReset.out := by
  refine reset_keeps_out _ _ ?_
  by_cases e : k = 0
  · subst e
    refine (heart_grows _ 1 true).mem ?_
    rw [heart_out s 0 true h f]
    exact List.mem_cons_self
  · have e1 : k = 1 := (by decide : ∀ j : PortId, j ≠ 0 → j = 1) k e
    subst e1
    have t : (s.sendHeart 0 true).twin.ports[(1 : PortId)] = s.twin.ports[(1 : PortId)] := heart_twin s 0 1 true (by decide)
    have l : (s.sendHeart 0 true).lines[(1 : PortId)] = s.lines[(1 : PortId)] := heart_line s 0 1 true (by decide)
    have w : (s.sendHeart 0 true).twinUp 1 = true := by
      unfold State.twinUp at h ⊢
      rw [t]
      exact h
    rw [heart_out _ 1 true w (by unfold State.twinSends at f ⊢; rw [l, t]; exact f), t]
    exact List.mem_cons_self
theorem next_half (n : SiteId) (h : n.val < 7) : n ≠ asFin 8 (n.val + 1) := by
  intro c
  have k := congrArg Fin.val c
  unfold asFin at k
  rw [show (Fin.ofNat 8 (n.val + 1)).val = (n.val + 1) % 8 from rfl, Nat.mod_eq_of_lt (by omega)] at k
  omega
theorem raiseSite_other (s : State) (m n : SiteId) (h : n ≠ m) : (s.raiseSite m).sites[n] = s.sites[n] := by
  unfold State.raiseSite State.modSite
  exact vmod_other _ _ h
theorem logged_out (s : State) (e : FaultEvent) (o : Out) (h : o ∈ s.out) : o ∈ (s.logFault e).out := by
  have _ : Fact True := ⟨trivial⟩
  exact (State.logFault_leads (P := fun _ => True) (.same s _) e).sent.mem h
theorem pkg_out (s : State) (a : BitVec 5) (b : Byte) (o : Out) (h : o ∈ s.out) : o ∈ (s.packageFault a b).out := by
  have _ : Fact True := ⟨trivial⟩
  exact (State.packageFault_leads (P := fun _ => True) (.same s _) a b).sent.mem h
theorem thermal_keeps (s : State) : s.thermal.pwr.temps = s.pwr.temps ∧ s.thermal.pwr.tmax = s.pwr.tmax ∧ s.thermal.ras.pkgFault = s.ras.pkgFault := by
  unfold State.thermal
  split
  · rw [State.logFault_pwr, State.irq_pwr, (logFault_rest _ _).1]
    exact ⟨rfl, rfl, rfl⟩
  · split <;> exact ⟨rfl, rfl, rfl⟩
theorem thermal_begins (s : State) (h : 110 ≤ s.pwr.tmax.toNat) (h' : s.pwr.thermEvent = false) :
    s.thermal.pwr.thermEvent = true ∧ s.thermal.pwr.evTherm = true ∧ .thermN true ∈ s.thermal.out := by
  unfold State.thermal
  have k : s.thermalHolds = true := by unfold State.thermalHolds; rw [decide_eq_true h]; rfl
  rw [if_pos (by rw [k, h']; rfl)]
  rw [State.logFault_pwr, State.irq_pwr]
  refine ⟨rfl, rfl, ?_⟩
  exact logged_out _ _ _ (List.mem_cons_of_mem _ List.mem_cons_self)
theorem suspend_state (s : State) (k : PortId) : s.suspendTwins.twin.ports[k].state = s.twin.ports[k].state := by
  have h := suspendTwins_bare s k
  revert h
  generalize s.suspendTwins.twin.ports[k] = a
  generalize s.twin.ports[k] = b
  intro h
  exact (show a.bare.state = b.bare.state by rw [h])
theorem twinFails_state (s : State) (k : PortId) : (s.twinFails k).twin.ports[k].state = 4 := by
  unfold State.twinFails
  dsimp only
  generalize hz : ((s.modTwinPort k fun x => { x with state := 4, width := 0, secure := false }).logFault { cls := 4, source := 11, element := BitVec.ofNat 32 k.val }) = z
  have hk : z.twin.ports[k].state = 4 := by
    rw [← hz, State.logFault_twin]
    have m := modTwinPort_self s k fun x => { x with state := 4, width := 0, secure := false }
    exact (congrArg TwinPort.state m).trans rfl
  generalize hy : z.suspendTwins = y
  have hj : y.twin.ports[k].state = 4 := by rw [← hy, suspend_state]; exact hk
  have e := State.readyFrom_twin (y.irq irqTwin) s
  have f := State.irq_twin y irqTwin
  rw [e, f]
  exact hj
theorem pairFused_lt (s : State) (i : Nat) (h : s.pairFused i = true) : i < 7 := by
  unfold State.pairFused at h
  simp only [Bool.and_eq_true, decide_eq_true_eq] at h
  exact h.1.1

end Sys2Proof.Machine
end

