-- ==== Sys2Proof/Laws/LeadsTick.lean ====
section
/-!
SUPPORT. What the operations of Machine/Tick.lean keep (State.Leads).
-/

set_option linter.unusedTactic false
set_option linter.unreachableTactic false
set_option linter.unusedVariables false

set_option Elab.async false

namespace Sys2Proof.Machine

theorem State.tick_leads {P : Piece → Prop} [Fact (P .sclk)] [Fact (P .twin)] [Fact (P .lines)] [Fact (P .out)] {s₀ s : State} (h : s₀.Leads P s) : s₀.Leads P s.tick :=
  ite_leads h ((State.drainMirrors_leads h).untouched rfl rfl rfl rfl rfl rfl)

end Sys2Proof.Machine
end

