-- ==== Sys2Proof/Laws/RegOps.lean ====
section
/-!
SUPPORT. Reads and writes of registers.
-/

set_option linter.unusedSimpArgs false
set_option linter.unusedVariables false

set_option Elab.async false

namespace Sys2Proof.Machine

theorem latched_here (s : State) (r : RegAddr) (w : Word) : (s.latch r w).latchedHigh r = some w := by
  unfold State.latchedHigh State.latch
  simp
theorem unlatched_here (s : State) (r : RegAddr) : (s.unlatch r).latchedHigh r = none := by
  unfold State.latchedHigh State.unlatch
  rw [List.find?_eq_none.mpr]
  · rfl
  · intro x hx c
    exact absurd (of_decide_eq_true (List.mem_filter.mp hx).2) (by simpa using c)
theorem held_here (s : State) (r : RegAddr) (w : Word) : (s.holdLow r w).lowHeld r = w := by
  unfold State.holdLow State.lowHeld
  simp
theorem note_out (s : State) (e : FaultEvent) (h : decide (4 ≤ e.cls.toNat) = false) : (s.logFault e).out = s.out := by
  unfold State.logFault
  simp only [h, Bool.false_and]
  rfl
theorem vfClear_rest (s : State) (p : PortId) (v : VfId) (o : Nat) : (s.vfClear p v o).out = s.out ∧ (s.vfClear p v o).latched = s.latched := by
  unfold State.vfClear
  repeat' split
  all_goals exact ⟨rfl, rfl⟩
theorem invHigh (s : State) (p : PortId) (v : VfId) : ¬ (s.regWide (.vf p v 0xE044)).isSome = true := by
  unfold State.regWide State.vfWide
  simp
theorem invWide (s : State) (p : PortId) (v : VfId) : (s.regWide (.vf p v 0xE040)).isSome = true := by
  unfold State.regWide State.vfWide
  simp
  split <;> rfl
theorem wide_inv (s : State) (p : PortId) (v : VfId) (w x : Word) : (s.wideWrite (lowOf (.vf p v 0xE044)) (both w x)).ports[p].vfs[v].inv = { s.ports[p].vfs[v].inv with base := keepBits (both w x) 54 0 } := by
  have e : s.wideWrite (lowOf (.vf p v 0xE044)) (both w x) = s.modVf p v fun y => { y with inv := { y.inv with base := keepBits (both w x) 54 0 } } := rfl
  rw [e]
  unfold State.modVf State.modPort
  simp only [vmod_self]
theorem therm_aim (s : State) : s.aim (.pf0 0x80800C) = .pf0 0x80800C := by
  unfold State.aim
  dsimp only
  rw [show mirrorAt (BitVec.toNat (0x80800C : BitVec 28)) = none by decide]
theorem therm_narrow (s : State) : s.regWide (.pf0 0x80800C) = none := by
  unfold State.regWide
  dsimp only
  rw [show mirrorAt (BitVec.toNat (0x80800C : BitVec 28)) = none by decide]
  rw [show BitVec.toNat (0x80800C : BitVec 28) = 0x80800C by decide]
  unfold State.pf0Wide
  simp
theorem therm_narrow' (s : State) : s.regWide (lowOf (.pf0 0x80800C)) = none := by
  rw [show lowOf (.pf0 0x80800C) = .pf0 0x808008 by decide]
  unfold State.regWide
  dsimp only
  rw [show mirrorAt (BitVec.toNat (0x808008 : BitVec 28)) = none by decide]
  rw [show BitVec.toNat (0x808008 : BitVec 28) = 0x808008 by decide]
  unfold State.pf0Wide
  simp
theorem therm_write (s : State) (value : Word) (h : s.retired = false) : s.busWrite (.pf0 0x80800C) 4 value = s.writeTherm value := by
  unfold State.busWrite State.hiddenNow
  rw [if_neg (by decide), if_neg (by decide), therm_aim, h, if_neg (by rw [show s.unboundPage (.pf0 0x80800C) = false from rfl]; decide)]
  unfold State.regWrite
  rw [if_neg (by rw [therm_narrow]; decide), if_neg (by rw [therm_narrow']; decide)]
  dsimp only
  rw [show mirrorAt (BitVec.toNat (0x80800C : BitVec 28)) = none by decide]
  rw [show BitVec.toNat (0x80800C : BitVec 28) = 0x80800C by decide]
  unfold State.pf0Write
  simp
  unfold State.pwrWrite
  simp
theorem fld_lt (n lo w : Nat) : fld n lo w < 2 ^ w := Nat.mod_lt _ (Nat.two_pow_pos w)
theorem open_mid (vf : Bool) (o : Nat) : ∃ k, cfgOpen vf o 16 4 = k * 2 ^ 16 ∧ k < 2 ^ 4 := ⟨_, rfl, fld_lt _ _ _⟩
theorem open_high (vf : Bool) (o n : Nat) : ∃ k, cfgOpen vf o 16 n = k * 2 ^ 16 := ⟨_, rfl⟩
theorem open_parts (vf : Bool) (o : Nat) : ∃ k, cfgOpen vf o 16 4 + cfgOpen vf o 24 8 = k * 2 ^ 16 :=
  ⟨fld (Config.cfgWord vf o).toNat 16 4 + fld (Config.cfgWord vf o).toNat 24 8 * 2 ^ 8, by unfold cfgOpen; omega⟩
theorem msix_high (a b : Bool) : ∃ k, 31 * 2 ^ 16 + flag a 30 + flag b 31 = k * 2 ^ 16 := by
  cases a <;> cases b
  · exact ⟨31, by decide⟩
  · exact ⟨31 + 2 ^ 15, by decide⟩
  · exact ⟨31 + 2 ^ 14, by decide⟩
  · exact ⟨31 + 2 ^ 14 + 2 ^ 15, by decide⟩
theorem cap_next (id next upper : Nat) (h1 : id < 2 ^ 8) (h2 : next < 2 ^ 8) (h3 : ∃ k, upper = k * 2 ^ 16) :
    fld (capWord (id, next) upper).toNat 8 8 = next := by
  obtain ⟨k, rfl⟩ := h3
  unfold capWord fld
  rw [BitVec.toNat_ofNat]
  omega
theorem ext_next (id next version : Nat) (h1 : id < 2 ^ 16) (h2 : next < 2 ^ 12) (h3 : ∃ k, version = k * 2 ^ 16 ∧ k < 2 ^ 4) :
    fld (extWord (id, next) version).toNat 20 12 = next := by
  obtain ⟨k, rfl, hk⟩ := h3
  unfold extWord fld
  rw [BitVec.toNat_ofNat]
  dsimp only
  omega
theorem intPin_read (n : Byte) : fld (word (2 ^ 8 + n.toNat)).toNat 8 8 = 1 := by
  have h := n.isLt
  unfold word fld
  rw [BitVec.toNat_ofNat]
  omega

end Sys2Proof.Machine
end

