-- ==== Sys2Proof/Laws/MachineOps.lean ====
section
/-!
SUPPORT. The inputs that hold the hub in reset, and far registers.
-/

set_option linter.unusedSimpArgs false
set_option linter.unusedVariables false

set_option Elab.async false

namespace Sys2Proof.Machine

theorem good_iff (p : Pins) : p.allGood = true ↔ p.pkgResetN = true ∧ bit p.pwrgd 0 = true ∧ bit p.pwrgd 1 = true ∧ bit p.pwrgd 2 = true ∧ bit p.pwrgd 3 = true ∧ bit p.pwrgd 4 = true := by
  unfold Pins.allGood
  simp only [Bool.and_eq_true, decide_eq_true_eq]
  refine and_congr_right fun _ => ?_
  generalize p.pwrgd = w
  revert w
  decide
theorem good_bit (p : Pins) (pin : PowerGood) (h : p.allGood = true) : bit p.pwrgd (goodBit pin) = true := by
  have k := (good_iff p).mp h
  cases pin
  · exact k.2.1
  · exact k.2.2.1
  · exact k.2.2.2.1
  · exact k.2.2.2.2.1
  · exact k.2.2.2.2.2
theorem leave_ok (s : State) (h : s.inReset = true) : s.maybeLeave.inReset = (!s.maybeLeave.pins.allGood) ∧ (s.maybeLeave.inReset = false → s.maybeLeave.stage = 0 ∧ s.maybeLeave.bootMs = 0) := by
  unfold State.maybeLeave
  rw [h]
  cases g : s.pins.allGood
  · exact ⟨h.trans (by rw [show (if (true && false) = true then s.atReset else s) = s from rfl, g]; rfl), fun c => by
      have c' : s.inReset = false := c
      rw [h] at c'
      exact absurd c' (by decide)⟩
  · refine ⟨?_, fun _ => ⟨rfl, rfl⟩⟩
    have e : (if (true && true) = true then s.atReset else s).pins = s.pins := rfl
    rw [e, g]
    rfl
theorem enter_pins (s : State) : s.enterReset.pins = s.pins := by
  unfold State.enterReset State.atReset State.leaving
  exact State.releasePins_pins s
def ResetKept (s t : State) : Prop :=
  t.inReset = (!t.pins.allGood) ∧ (s.inReset = true → t.inReset = false → t.stage = 0 ∧ t.bootMs = 0)
theorem kept_same (s t : State) (h : s.inReset = (!s.pins.allGood)) (r : t.inReset = s.inReset) (p : t.pins.allGood = s.pins.allGood) : ResetKept s t :=
  ⟨by rw [r, p]; exact h, fun a b => by rw [r, a] at b; exact absurd b (by decide)⟩
theorem kept_rise (s : State) (pin : PowerGood) (t : State) (h : s.inReset = (!s.pins.allGood)) (e : execPwrgdRise pin s = .next t) : ResetKept s t := by
  unfold execPwrgdRise at e
  injection e with e
  subst e
  dsimp only
  by_cases b : bit s.pins.pwrgd (goodBit pin) = true
  · rw [if_pos b]
    exact kept_same s s h rfl rfl
  · rw [if_neg b]
    have r : s.inReset = true := by
      rw [h]
      cases g : s.pins.allGood
      · rfl
      · exact absurd (good_bit _ pin g) b
    have l := leave_ok (if pin = .aux then (s.modPins fun p => { p with pwrgd := setBit p.pwrgd (goodBit pin) true }).auxUp else (s.modPins fun p => { p with pwrgd := setBit p.pwrgd (goodBit pin) true })) (by split <;> exact r)
    exact ⟨l.1, fun _ => l.2⟩
theorem clear_bad (p : Pins) (pin : PowerGood) : ({ p with pwrgd := setBit p.pwrgd (goodBit pin) false } : Pins).allGood = false := by
  unfold Pins.allGood
  have k : ∀ (w : BitVec 5), decide (setBit w (goodBit pin) false = 0b11111) = false := by
    cases pin <;> decide
  dsimp only
  rw [k, Bool.and_false]
theorem kept_fall (s : State) (pin : PowerGood) (t : State) (h : s.inReset = (!s.pins.allGood)) (e : execPwrgdFall pin s = .next t) : ResetKept s t := by
  unfold execPwrgdFall at e
  injection e with e
  subst e
  dsimp only
  by_cases b : (!bit s.pins.pwrgd (goodBit pin)) = true
  · rw [if_pos b]
    exact kept_same s s h rfl rfl
  · rw [if_neg b]
    cases r : s.inReset
    · rw [if_neg (by decide)]
      refine ⟨?_, fun a => absurd (r.symm.trans a) (by decide)⟩
      rw [enter_pins, State.sendHeart_pins, State.sendHeart_pins]
      refine Eq.trans ?_ (congrArg Bool.not (clear_bad s.pins pin)).symm
      rfl
    · rw [if_pos rfl]
      refine ⟨?_, fun _ c => ?_⟩
      · refine Eq.trans ?_ (congrArg Bool.not (clear_bad s.pins pin)).symm
        exact r
      · exact absurd (r.symm.trans c) (by decide)
theorem low_bad (p : Pins) : ({ p with pkgResetN := false } : Pins).allGood = false := rfl
theorem kept_assert (s t : State) (e : execPkgResetAssert s = .next t) : ResetKept s t := by
  unfold execPkgResetAssert at e
  injection e with e
  subst e
  dsimp only
  cases r : s.inReset
  · rw [if_neg (by decide)]
    refine ⟨?_, fun a => absurd (r.symm.trans a) (by decide)⟩
    rw [enter_pins]
    rfl
  · rw [if_pos rfl]
    exact ⟨r, fun _ c => absurd (r.symm.trans c) (by decide)⟩
theorem kept_release (s t : State) (h : s.inReset = (!s.pins.allGood)) (e : execPkgResetRelease s = .next t) : ResetKept s t := by
  unfold execPkgResetRelease at e
  injection e with e
  subst e
  cases r : s.inReset
  · have g : s.pins.allGood = true := by
      rw [r] at h
      cases g : s.pins.allGood
      · rw [g] at h; exact absurd h (by decide)
      · rfl
    have m : (s.modPins fun p => { p with pkgResetN := true }).maybeLeave = s.modPins fun p => { p with pkgResetN := true } := by
      unfold State.maybeLeave
      rw [show (s.modPins fun p => { p with pkgResetN := true }).inReset = s.inReset from rfl, r]
      rfl
    rw [m]
    refine kept_same s _ h rfl ?_
    rw [g]
    exact (good_iff _).mpr ⟨rfl, ((good_iff _).mp g).2⟩
  · have l := leave_ok (s.modPins fun p => { p with pkgResetN := true }) r
    exact ⟨l.1, fun _ => l.2⟩
theorem bootDone_inReset (s : State) : s.bootDone.inReset = s.inReset := by
  unfold State.bootDone
  rw [State.readyFrom_inReset, State.readyMessage_inReset, State.readyMessage_inReset]
theorem boot_inReset (passed : Bool) (s t : State) (e : execBootStageDone passed s = .next t) : t.inReset = s.inReset := by
  unfold execBootStageDone at e
  injection e with e
  subst e
  repeat' split
  all_goals first
    | rfl
    | (rw [State.packageFault_inReset])
    | (rw [bootDone_inReset, State.applyStore_inReset])
    | (rw [bootDone_inReset, State.makeKeys_inReset])
    | (show State.inReset (State.applyStore _) = _; rw [State.applyStore_inReset])
theorem fold28 (pa : BitVec 52) : (pa.setWidth 28).toNat = pa.toNat % 2 ^ 28 := BitVec.toNat_setWidth _ _
theorem far_aim (s : State) (off : BitVec 28) (h : 0x1000000 ≤ off.toNat) : s.aim (.pf0 off) = .pf0 off := by
  unfold State.aim mirrorAt
  dsimp only
  rw [if_neg (by omega)]
theorem far_wide (s : State) (off : BitVec 28) (a : ArrayId) (h1 : 0x1000000 ≤ off.toNat) (h2 : off.toNat < 0x9000000) (h3 : off.toNat % 0x1000000 < 0x500000)
    (h4 : asFin 40 (5 * (off.toNat / 0x1000000 - 1) + off.toNat % 0x1000000 / 0x100000) = a) : s.regWide (.pf0 off) = s.arrayWide a (off.toNat % 0x100000) := by
  unfold State.regWide mirrorAt
  dsimp only
  generalize off.toNat = n at *
  rw [if_neg (by omega)]
  unfold State.pf0Wide
  dsimp only
  have hd' : 16 ≤ n / 0x100000 := by omega
  generalize n / 0x100000 = d at *
  split
  all_goals first
    | omega
    | skip
  rw [if_pos ⟨h1, h2, h3⟩, h4]
theorem byMemory_open {s : State} {p : PortId} (posted : Bool) (f : State → State) (h : s.takesMemory p = true) : s.byMemory p posted f = f s := by
  unfold State.takesMemory at h
  simp only [Bool.and_eq_true, Bool.not_eq_true'] at h
  obtain ⟨⟨⟨h1, h2⟩, h3⟩, h4⟩ := h
  unfold State.byMemory
  rw [h1, h2, h4, of_decide_eq_true h3]
  rfl
theorem pf0Takes_parts {s : State} {p : PortId} (h : s.pf0Takes p = true) : s.takesMemory p = true ∧ s.ports[p].pf0D3hot = false ∧ s.ras.pkgFault = none := by
  unfold State.pf0Takes at h
  simp only [Bool.and_eq_true, Bool.not_eq_true', Option.isNone_iff_eq_none] at h
  exact ⟨h.1.1, h.1.2, h.2⟩
theorem pf0_read {s : State} {p : PortId} {off : BitVec 28} (size : Nat) (tee : Bool) (h : s.pf0Takes p = true) :
    s.portRead p (.pf0 off) size tee = s.readBack (.pf0 off) size := by
  obtain ⟨h1, h2, h3⟩ := pf0Takes_parts h
  unfold State.portRead
  rw [byMemory_open false _ h1]
  dsimp only
  rw [h2, h3, if_neg (by rw [show (false || (none : Option (BitVec 5 × Byte)).isSome && !faultReadable off.toNat) = false from rfl]; decide)]
theorem pf0_write {s : State} {p : PortId} {off : BitVec 28} (size : Nat) (tee : Bool) (value : Word) (h : s.pf0Takes p = true) :
    s.portWrite p (.pf0 off) size tee value = s.busWrite (.pf0 off) size value := by
  obtain ⟨h1, h2, h3⟩ := pf0Takes_parts h
  unfold State.portWrite
  rw [byMemory_open true _ h1]
  dsimp only
  rw [h2, h3, if_neg (by decide)]
theorem far_read (s : State) (p : PortId) (off : BitVec 28) (tee : Bool) (h : 0x1000000 ≤ off.toNat) (h4 : off.toNat % 4 = 0) (hx : reservedExtent off.toNat = false) (h1 : s.pf0Takes p = true) (hr : s.retired = false) :
    s.portRead p (.pf0 off) 4 tee = (s.regRead (.pf0 off)).2.emit (.regRead (.pf0 off) (s.regRead (.pf0 off)).1) := by
  have b : s.busRead (.pf0 off) 4 = s.regRead (.pf0 off) := by
    unfold State.busRead regOffset isReserved State.hiddenNow
    dsimp only
    rw [if_neg (by omega), if_neg (by rw [hx]; decide), hr, if_neg (by rw [Bool.false_and, Bool.false_and]; decide), far_aim s off h]
  rw [pf0_read 4 tee h1]
  unfold State.readBack
  rw [b]
theorem pkg_flog (s : State) (source : BitVec 5) (code : Byte) (h : s.ras.flog.length < 1024) :
    (s.packageFault source code).ras.flog = s.ras.flog ++ [faultEntry { cls := 5, source := source, code := code } s.now] ∧ (s.packageFault source code).ras.flogSevere = true ∧ (s.packageFault source code).ras.pkgFault = some (s.ras.pkgFault.getD (source, code)) := by
  have l := logFault_rest s { cls := 5, source := source, code := code }
  have m := logFault_flog s { cls := 5, source := source, code := code } h
  have e : (s.packageFault source code).ras = ((s.logFault { cls := 5, source := source, code := code }).modRas fun r => { r with pkgFault := match r.pkgFault with
    | some f => some f
    | none => some (source, code) }).ras := by
    unfold State.packageFault
    dsimp only
    show (ite _ _ _ : State).ras = _
    split
    · exact (haltSilents_ras _ _).1
    · rw [State.sendHeart_ras, State.sendHeart_ras]
      exact (haltSilents_ras _ _).1
  rw [e, State.modRas_ras]
  dsimp only
  rw [l.1, l.2, m]
  refine ⟨rfl, by simp, ?_⟩
  cases s.ras.pkgFault <;> rfl
theorem low_step (s : State) (p : PortId) (tee : Bool) (r : RegAddr) (w : DWord) (h : s.regWide r = some w)
    (hp : s.portRead p r 4 tee = (s.regRead r).2.emit (.regRead r (s.regRead r).1)) :
    (s.portRead p r 4 tee).out = .regRead r (lowWord w) :: s.out ∧ (s.portRead p r 4 tee).latchedHigh r = some (highWord w) := by
  rw [hp]
  unfold State.regRead
  rw [h]
  exact ⟨rfl, latched_here s _ _⟩
theorem high_step (s : State) (p : PortId) (tee : Bool) (r l : RegAddr) (w : DWord) (hl : lowOf r = l) (h : s.regWide r = none) (h' : s.regWide l = some w)
    (hp : s.portRead p r 4 tee = (s.regRead r).2.emit (.regRead r (s.regRead r).1)) :
    (s.portRead p r 4 tee).out = .regRead r ((s.latchedHigh l).getD (highWord w)) :: s.out ∧ (s.portRead p r 4 tee).latchedHigh l = none := by
  rw [hp]
  unfold State.regRead
  rw [h, hl, h']
  exact ⟨rfl, unlatched_here s _⟩
theorem page_read {s : State} {p : PortId} {v : VfId} {o : BitVec 16} (size : Nat) (tee : Bool) (h1 : s.takesMemory p = true) (h2 : s.vfLive p v = true)
    (h3 : s.pageRefused p v o.toNat tee = false) : s.portRead p (.vf p v o) size tee = s.readBack (.vf p v o) size := by
  unfold State.portRead
  rw [byMemory_open false _ h1]
  dsimp only
  rw [if_neg (fun c => c rfl), h2, h3, if_neg (by decide)]
theorem page_write {s : State} {p : PortId} {v : VfId} {o : BitVec 16} (size : Nat) (tee : Bool) (value : Word) (h1 : s.takesMemory p = true) (h2 : s.vfLive p v = true)
    (h3 : s.vfDust p v = false) (h4 : s.pageRefused p v o.toNat tee = false) : s.portWrite p (.vf p v o) size tee value = s.busWrite (.vf p v o) size value := by
  unfold State.portWrite
  rw [byMemory_open true _ h1]
  dsimp only
  rw [if_neg (fun c => c rfl), h2, h3, h4, if_neg (by decide), if_neg (by decide)]
theorem odd_access (s : State) (r : RegAddr) (size : Nat) (value : Word) (h : size ≠ 4 ∨ regOffset r % 4 ≠ 0) (h6 : s.ras.flog.length < 1024) :
    ((s.readBack r size).out = .regRead r 0xFFFFFFFF :: s.out ∧ s.AccessNoted (regOffset r) (s.readBack r size)) ∧
    (s.busWrite r size value).out = s.out ∧ s.AccessNoted (regOffset r) (s.busWrite r size value) := by
  have o : (s.noteAccess 1 (regOffset r)).out = s.out := note_out s _ rfl
  have fr : ∀ p : Piece, p ≠ .ras → p ≠ .out → s.Same p (s.noteAccess 1 (regOffset r)) := by
    intro p hp q
    have f1 : Fact ((fun p : Piece => p = .ras ∨ p = .out) .ras) := ⟨.inl rfl⟩
    have f2 : Fact ((fun p : Piece => p = .ras ∨ p = .out) .out) := ⟨.inr rfl⟩
    exact (State.noteAccess_leads (P := fun p : Piece => p = .ras ∨ p = .out) (.same s _) 1 _).parts p (by rintro (x | x); exact hp x; exact q x)
  have g : (s.noteAccess 1 (regOffset r)).ras.flog = _ := logFault_flog s _ h6
  have w : s.busWrite r size value = s.noteAccess 1 (regOffset r) := by unfold State.busWrite; rw [if_pos h]
  have b : s.readBack r size = (s.noteAccess 1 (regOffset r)).emit (.regRead r 0xFFFFFFFF) := by unfold State.readBack State.busRead; rw [if_pos h]
  rw [w, b]
  refine ⟨⟨congrArg (List.cons _) o, g, fun p hp q => ?_⟩, o, g, fr⟩
  have k := fr p hp q
  cases p <;> first | exact k | exact absurd rfl q

end Sys2Proof.Machine
end

