-- ==== Sys2Proof/WellFormed.lean ====
section
/-!
DEFINITION. Which commands are well formed: operands that their types admit and the manual's own ranges do not are ruled
out here. exec is total all the same.
-/

namespace Sys2Proof

/-- R11: the links of a lath boundary: 34 within a column (boundaries 0 to 5 in the order of R10), 26 across. -/
def linkOn (boundary : Fin 10) (link : Fin 34) : Bool := decide (link.val < if boundary.val < 6 then 34 else 26)

/-- R185: an NI number that a field has; 23 to 31 are reserved. -/
def niExists (ni : NiId) : Bool := decide (ni.val < 23)

/-- R130: the eight code words of a strip. -/
def errorsInStrip (es : List RawError) : Bool := es.all fun e => decide (e.index < 8)

/-- R259, R376: a stream message carries at most four code words, and as many as its COUNT, bits 25:23 of word 0, says. -/
def streamWords (header : BitVec 128) (words : List CodeWord) : Bool :=
  decide (words.length ≤ 4 ∧ words.length = header.toNat / 2 ^ 23 % 8)

/-- R409: a management bus write is of an offset, or of an offset and a value. -/
def i3cLength (bytes : List Byte) : Bool := decide (bytes.length = 4 ∨ bytes.length = 8)

/-- R412, R415: the reserved extents of PF0's window. -/
def inReservedExtent (off : BitVec 28) : Bool :=
  let o := off.toNat
  decide ((0x80C000 ≤ o ∧ o < 0x1000000) ∨ 0x9000000 ≤ o ∨
    (0x1000000 ≤ o ∧ 0xB00000 ≤ o % 0x1000000 ∧ o % 0x1000000 < 0xF00000))

/-- R103: an address of space 5 of this package. -/
def inSpace5 (pa : BitVec 52) : Bool := decide (pa.toNat / 2 ^ 48 = 5)

/-- R56, R58: the codes of a hardware fault of an array. -/
def hardwareCode (code : Byte) : Bool := decide (6 ≤ code.toNat ∧ code.toNat ≤ 8)

/-- The well-formed commands. -/
def Instr.wf : Instr → Bool
  | .arrayHardwareFault _ code _ => hardwareCode code
  | .hbmRead _ _ _ errors => errorsInStrip errors
  | .skimHbmStrip _ errors => errorsInStrip errors
  | .networkRequestInject req => niExists req.ni
  | .timeoutIsolation _ ni => niExists ni
  | .lathFlitReceive b l _ _ _ => linkOn b l
  | .lathReplay b l _ => linkOn b l
  | .lathLinkRetire b l => linkOn b l
  | .lathSpareInService b l => linkOn b l
  | .siteWr _ header words => streamWords header words
  | .twinWr _ header words => streamWords header words
  | .i3cPrivateWrite bytes => i3cLength bytes
  | .reservedExtentAccess _ off _ => inReservedExtent off
  | .space5Access pa _ _ _ => inSpace5 pa
  | _ => true

end Sys2Proof
end

