-- ==== Sys2Proof/Tests/Slice0.lean ====
section
/-!
SUPPORT. Tests: what the well-formedness check refuses, steps computed by hand from the manual, and a state and operands
that meet the hypotheses of each statement.
-/

set_option linter.unusedVariables false

set_option Elab.async false

namespace Sys2Proof.Tests

open Sys2Proof Sys2Proof.Machine

/-! ## Ill-formed commands -/

theorem test_wf_hardware_code : (Instr.arrayHardwareFault 0 5 0).wf = false ∧ (Instr.arrayHardwareFault 0 6 0).wf = true := by decide
theorem test_wf_strip_of_eight_words : (Instr.hbmRead 0 0 0 [⟨8, 1⟩]).wf = false ∧ (Instr.hbmRead 0 0 0 [⟨7, 1⟩]).wf = true := by decide
theorem test_wf_skim_of_eight_words : (Instr.skimHbmStrip 0 [⟨8, 1⟩]).wf = false := by decide
theorem test_wf_ni_of_request : (Instr.networkRequestInject ⟨0, 23, 0, none, 0, .read 1, false⟩).wf = false := by decide
theorem test_wf_ni_of_isolation : (Instr.timeoutIsolation 0 23).wf = false ∧ (Instr.timeoutIsolation 0 22).wf = true := by decide
theorem test_wf_links_of_a_boundary : (Instr.lathLinkRetire 6 26).wf = false ∧ (Instr.lathLinkRetire 6 25).wf = true ∧ (Instr.lathLinkRetire 5 33).wf = true := by decide
theorem test_wf_link_of_a_replay (d : LathDir) : (Instr.lathReplay 6 26 d).wf = false := rfl
theorem test_wf_link_of_a_flit (d : LathDir) : (Instr.lathFlitReceive 6 26 d 0 true).wf = false := rfl
theorem test_wf_link_of_a_spare : (Instr.lathSpareInService 6 26).wf = false := by decide
theorem test_wf_words_of_a_site_write : (Instr.siteWr 0 (2 ^ 23) []).wf = false ∧ (Instr.siteWr 0 (2 ^ 23) [⟨0, false⟩]).wf = true := by decide
theorem test_wf_words_of_a_twin_write : (Instr.twinWr 0 (2 ^ 23) []).wf = false := by decide
theorem test_wf_length_on_the_management_bus : (Instr.i3cPrivateWrite [0, 0, 0]).wf = false ∧ (Instr.i3cPrivateWrite [0, 0, 0, 0]).wf = true := by decide
theorem test_wf_reserved_extent : (Instr.reservedExtentAccess 0 0x80BFFC ⟨false, 4⟩).wf = false ∧ (Instr.reservedExtentAccess 0 0x80C000 ⟨false, 4⟩).wf = true := by decide
theorem test_wf_space5 : (Instr.space5Access 0 false 4 0).wf = false ∧ (Instr.space5Access 0x5000000000000 false 4 0).wf = true := by decide

/-! ## Situations of the witnesses -/

/-- What an operation that succeeded answers. -/
def okOf {ε α : Type} (d : α) : Except ε α → α
  | .ok x => x
  | .error _ => d
def isOkay {ε α : Type} : Except ε α → Bool
  | .ok _ => true
  | .error _ => false
theorem ok_of {ε α : Type} (d : α) (x : Except ε α) (h : isOkay x = true) : x = .ok (okOf d x) := by
  cases x with
  | ok y => rfl
  | error y => exact absurd h Bool.false_ne_true
theorem ok_pair {ε α β : Type} (d : α) (x : Except ε α × β) (h : isOkay x.1 = true) : x = (.ok (okOf d x.1), x.2) :=
  Prod.ext (ok_of _ _ h) rfl
theorem pair_of {α β : Type} {x : α × β} {a : α} (h : x.1 = a) : x = (a, x.2) := Prod.ext h rfl
theorem some_of {α : Type} {x : Option α} {y : α} (h : x.isSome = true) (e : x.getD y = y) : x = some y := by
  cases x with
  | none => exact absurd h Bool.false_ne_true
  | some z => exact congrArg some e

/-- Array 0 of the reset state, changed. -/
def arr (f : ArrayState → ArrayState) : State := State.reset.modArray 0 f

/-- Array 0 with panel 0 and a running schedule that has fetched `w`. -/
def fetched (w : BitVec 128) (f : ArrayState → ArrayState) : State :=
  arr fun x => f { x with panel := some 0, seq := { x.seq with state := seqRunning, ir := some w } }

/-- A cube instruction word with formats `a`, `b` and `o` and a shape of one row, one column and one step. -/
def cubeWord (op a b o : Nat) : BitVec 128 := BitVec.ofNat 128 (op * 2 ^ 26 + a * 2 ^ 22 + b * 2 ^ 18 + o * 2 ^ 14)
def wFold : BitVec 128 := cubeWord opFold 2 2 13
def wStream : BitVec 128 := cubeWord opStream 2 0 13
def wSload : BitVec 128 := cubeWord opSload 2 0 0

/-- An engine whose accesses an invalidation has refused. -/
def refuse (s : State) (f : FieldId) (e : EngineSel) : State := s.modTu f fun t => { t with refused := [e] }
def folds : State := let s := fetched wFold id; refuse s 0 (s.cubeEng 0 0).sel
def validSlot (x : ArrayState) : ArrayState :=
  { x with mode := true, cube := { x.cube with stat := vset x.cube.stat 0 { phase := .valid, fmt := 2, k := 1, n := 1 } } }
def streams : State := let s := fetched wStream validSlot; refuse s 0 (s.cubeEng 0 0).sel
def sloads : State := let s := fetched wSload fun x => { x with mode := true }; refuse s 0 (s.cubeEng 0 0).sel
def opAt (s : State) (w : BitVec 128) : CubeOp := s.arrays[0].cube.makeOp w (s.insPc 0)
def partsOf (s : State) (w : BitVec 128) : Option (Nat × VaFault) × State :=
  (s.queueOp 0 (opAt s w)).checkParts (s.cubeEng 0 0) 0 ((opAt s w).parts (s.arrays[0].cube.shape w) 0)
def initOf (s : State) (w : BitVec 128) : Except VaFault Tile × State :=
  let p := (opAt s w).passAt (s.arrays[0].cube.shape w) 0
  (partsOf s w).2.readInit (s.cubeEng 0 0) (opAt s w) (s.arrays[0].cube.shape w) p.row p.rows p.col p.cols
def operandsOf (s : State) (w : BitVec 128) : Except (Nat × VaFault) (Operand × Operand) × State :=
  (initOf s w).2.passOperands 0 (s.cubeEng 0 0) (opAt s w) (s.arrays[0].cube.shape w) ((opAt s w).passAt (s.arrays[0].cube.shape w) 0)
def slotOperand (s : State) (w : BitVec 128) : Except VaFault Operand × State :=
  (partsOf s w).2.readOperand (s.cubeEng 0 0) (opAt s w).bDesc (sloadShape w).bfmt 0 (sloadShape w).n (sloadShape w).k

/-- The cube of array 0 of the reset state, changed. -/
def cub (f : CubeState → CubeState) : State := arr fun x => { x with panel := some 0, cube := f x.cube }
/-- A cube instruction that has started all its passes. -/
def opOf (w : BitVec 128) : CubeOp :=
  { serial := 0, word := w, aDesc := 0, bDesc := 0, cDesc := 0, sDesc := 0, passes := 1, started := 1, ended := 1, drained := 1,
    stalled := false, cut := false, pc := 0 }
def runningCube : State := cub fun x => { x with acc := vset x.acc 0 { phase := .running } }
def haltingCube : State := cub fun x => { x with acc := vset x.acc 0 { phase := .running }, haltReq := some .other }
def drains (w : BitVec 128) : State := cub fun x => { x with drainQ := [0], ops := [opOf w] }
/-- The wear spare A36 takes over from an array that is gone: array 0's invocation runs on A36. -/
def forwarded (silent : Bool) : State :=
  let s := State.reset.modNet fun n => { n with forwards := [⟨0, 36, silent⟩] }
  let s1 := s.modArray 36 fun x => { x with seq := { x.seq with inv := some ⟨0, 1, 0⟩ } }
  s1.modQueue 0 1 0 fun x => { x with taken := some { bits := 0, sqHead := 0 } }
/-- A port that accepts memory requests for PF0. -/
def hostOpen : State := { (State.reset.modPort 0 fun x => { x with l0 := true, slow := false }) with stage := 4 }

/-- A context of core 0 whose predicate enables the lanes `on`, with all its scalars listed that the words read. -/
def ctxOn (on : DWord) : Ctx := { core := 0, idx := 0, pc := 0, launch := 0, birth := 0, sregs := [(0, ⟨0, false⟩)], p := [(0, ⟨on, 0⟩)] }
def ctx0 : Ctx := ctxOn 0
/-- Array 0 runs a kernel of the one word `w`, with the context `c`. -/
def kern (w : DWord) (c : Ctx) (f : ArrayState → ArrayState) : State :=
  arr fun x => f { x with panel := some 0, seq := { x.seq with state := seqRunning }, vec := { x.vec with codeStore := [(0, ⟨w, false⟩)], ctxs := [c] } }
def kern0 : State := kern 0 ctx0 id
/-- The same with a tile in exchange slot 0 and a launch of `n` contexts that takes tiles. -/
def tiled (n : Nat) : State :=
  kern 0 ctx0 fun x => { x with
    cube := { x.cube with exch := vset x.cube.exch 0 { full := true } }
    vec := { x.vec with launches := [{ serial := 0, trigger := true, tilesLeft := 1, contexts := n, pc := 0 }] } }
def atomics (s : State) (c : Ctx) : State :=
  (s.modSeq 0 fun x => { x with atomicIssued := x.atomicIssued || (x.atomic && c.enabled (vins 0) ≠ []) }).vecIssued 0 c id

/-- The first page of field 0's fast tier in service, mapped at address 0 for panel 0, with `d` in its first code word. -/
def mapped (d : BitVec 512) (s : State) : State :=
  let s1 := (s.modField 0 fun x => { x with ft := { x.ft with ready := true } }).modNet fun n => { n with sink := vset n.sink 0 0 }
  let s2 := s1.modPanel 0 fun x => { x with grants := [{ base := 3 * 2 ^ 48, length := 65536, write := true, pool := true, region := none }] }
  let s3 := s2.modTu 0 fun t => { t with arrayTlb := vset t.arrayTlb 0 [{ panel := 0, level := 0, index := 0, pte := 0x300000000001F }] }
  { s3 with mem := Mem.put s3.mem (ftKey 0 0 0 0) { data := d, cls := .plain, err := 0 } }
/-- Array 0 runs a schedule of panel 0. -/
def sched (f : SeqState → SeqState) : State := arr fun x => { x with panel := some 0, seq := f { x.seq with state := seqRunning } }
/-- The same with the word `w` fetched. -/
def issues (w : Nat) (f : SeqState → SeqState) : State := sched fun x => f { x with ir := some (BitVec.ofNat 128 w) }
def opw (op : Nat) : Nat := op * 2 ^ 26
/-- Word 0 of an instruction with opcode `op`, as a word. -/
def iw (n : Nat) : BitVec 128 := BitVec.ofNat 128 n
/-- Invocation 0 of queue 0 of the first VF of port 0, which array 0 runs. -/
def invoked (s : State) : State :=
  (s.modSeq 0 fun x => { x with inv := some ⟨0, 0, 0⟩ }).modQueue 0 0 0 fun x => { x with taken := some { bits := 0, sqHead := 0 } }
def movesOn (d : BitVec 512) : State :=
  (mapped d (issues (opw opMove) id)).modCoh fun c => { c with caches := [{ agent := 0, line := 3 * 2 ^ 42, state := .s, word := ⟨d, false⟩, wbTag := none }] }
/-- A transfer of one word of zeros to offset 4096 of the page. -/
def wMove : BitVec 512 := BitVec.ofNat 512 (4096 * 2 ^ 64 + 64 * 2 ^ 128 + 2 ^ 256)
def txId : TxId := ⟨0, 0, 0⟩
def txnOf (kind : ReqKind) (stage : TxStage) : Txn :=
  { id := txId, tint := 0, panel := some 0, pa := 0, kind := kind, owner := .none, stage := stage, demoted := false, promised := false,
    resends := 0, injected := 0, status := 0, data := [], traced := false, late := false }
def withTxn (x : Txn) (s : State) : State := s.modNet fun n => { n with flight := [x] }
def aSignal (inc : Byte) : Txn := txnOf (.signal 0 0 0 inc 0) .atTarget
def hostOpens (s : State) : State := { (s.modPort 0 fun x => { x with l0 := true, slow := false }) with stage := 4 }

/-- Port 0, trained and ready after boot, changed. -/
def port (f : PortState → PortState) : State := (hostOpens State.reset).modPort 0 f
/-- The first VF of port 0, enabled and bound to panel 0. -/
def vfUp (f : VfState → VfState) : State :=
  port fun x => { x with vfEnable := true, numVfs := 40, vfs := vset x.vfs 0 (f { bound := some 0 }) }
/-- The queue 0 of that VF. -/
def queueUp (f : QueueState → QueueState) : State := vfUp fun v => { v with queues := vset v.queues 0 (f {}) }
/-- Panel 0. -/
def panelAs (f : PanelState → PanelState) (s : State) : State := s.modPanel 0 f
def aperture0 : State := mapped 0 ((vfUp id).modTu 0 fun t => { t with apertureTlb := [{ panel := 0, level := 0, index := 0, pte := 0x300000000001F }] })
def aperEng : Eng := portEng 0 0 0
def apReads : Except VaFault (List Reply) × State := aperture0.readPlainVas aperEng .read (coverVas 0 64)
def apWrites : Option State := aperture0.bar2Words 0 0 aperEng ((runVas 0 1).zip ((toWords 1 (List.replicate 64 1)).map fun d => ⟨d, false⟩))

theorem some_getD {α : Type} (x : Option α) (d : α) (h : x.isSome = true) : x = some (x.getD d) := by
  cases x with
  | none => exact absurd h Bool.false_ne_true
  | some z => rfl

/-- Queue 0 of the first VF, which may send, and the command `b` read ahead. -/
def ahead (b : BitVec 1024) (f : QueueState → QueueState) : State :=
  vfUp fun v => { v with bme := true, queues := vset v.queues 0 (f { enable := true, ahead := [{ index := 0, entry := .ready b }] }) }
def entry (b : BitVec 1024) : Ahead := { index := 0, entry := .ready b }
/-- Queue 0 has taken the command `x`. -/
def taking (x : Taken) : State := queueUp fun q => { q with enable := true, taken := some x }
def cmdWith (op n : Nat) : BitVec 1024 := BitVec.ofNat 1024 (op * 2 ^ 24 + n)
def cmdWord (op : Nat) : BitVec 1024 := cmdWith op 0
def taken0 (op : Nat) : Taken := { bits := cmdWord op, sqHead := 0 }
/-- An operator descriptor that names array 0 and the table at address 128. -/
def wOpdesc : BitVec 512 := BitVec.ofNat 512 (2 ^ 16 + 2 ^ 32 + 128 * 2 ^ 160)
def putAt (pa : BitVec 52) (d : BitVec 512) (s : State) : State :=
  match s.locate pa with
  | some l => { s with mem := Mem.put s.mem (s.keyOf l) { data := d, cls := .plain, err := 0 } }
  | none => s
def invoking : State :=
  putAt 0x3000000000080 0 (putAt 0x3000000000040 0 (mapped wOpdesc (panelAs (fun x => { x with arrays := [some 0] }) (taking (taken0 opInvoke)))))
def invEng : Eng := invoking.startEng 0 0 0
def opdescRead : StartOut × State := invoking.startRead invEng 0 0 128
def startBytes : StartOut → List Byte
  | .bytes b => b
  | _ => []
theorem opdesc_read : invoking.startRead invEng 0 0 128 = (.bytes (startBytes opdescRead.1), opdescRead.2) :=
  pair_of (x := opdescRead) (by decide +kernel)
def opdesc0 : BitVec 1024 := BitVec.ofNat 1024 (2 ^ 16 + 2 ^ 32 + 128 * 2 ^ 160)
def entriesRead : List StartOut × State := opdescRead.2.readEntries invEng 0 ((List.range (maskArrays opdesc0).length).map fun i => (128 : BitVec 55) + BitVec.ofNat 55 (16 * i))
theorem entries_read : opdescRead.2.readEntries invEng 0 ((List.range (maskArrays opdesc0).length).map fun i => (128 : BitVec 55) + BitVec.ofNat 55 (16 * i)) =
    (entriesRead.1, entriesRead.2) := pair_of (x := entriesRead) rfl
def waiting0 : Taken := { bits := cmdWord opInvoke, sqHead := 0, phase := .waiting, arrays := [0], entries := [0] }
def running0 : Taken := { bits := cmdWord opInvoke, sqHead := 0, phase := .running, started := some 0, timerOn := true }
def aborting (same : Bool) : State :=
  (queueUp fun q => { q with taken := some { bits := cmdWith opAbort (2 ^ 288), sqHead := 0 } }).modQueue 0 0 1 fun q =>
    { q with taken := if same then some running0 else none }
def engineBound : Binding := { tag := 1, panel := 0, slot := 0, target := 0, tint := 0, regs := false, devmem := false, phase := .bound }
/-- Site 0's engine bound to panel 0, which holds array 0. -/
def bound0 (s : State) : State :=
  panelAs (fun x => { x with arrays := [some 0] }) (s.modSite 0 fun x => { x with bindings := [engineBound] })

def part0 (o : CubeOp) (s : State) : Part := (o.parts (s.arrays[0].cube.shape o.word) 0).headD { access := .read, vas := [] }
def midOp : CubeOp := { opOf wFold with drained := 0 }
def midOps : State := arr fun x => { x with panel := some 0, cube := { x.cube with ops := [midOp] } }
def faultOf (stalls : Bool) (engine : BitVec 4) : FaultInfo :=
  { key := { engine := engine, field := 0, logical := 0, phys := 0, sub := 0 }, type := 2, access := 0, level := 0, va := 0, entry := 0,
    stepId := 0, midtile := false, held := false, time := 0, stalls := stalls }
/-- The fault ring of panel 0, which the first VF keeps. -/
def ringUp (r : RingWriter) : State :=
  panelAs (fun x => { x with vf := some 0, ring := r }) (vfUp fun v => { v with bme := true, fringEnable := true })

/-- Panel 0's table in the near pool of field 0, whose one stack is in service, with the entry `pte` at its start. -/
def tabled (pte : DWord) (s : State) : State :=
  let s1 := (((s.modFt 0 fun x => { x with ready := true }).modStack 0 fun k => { k with ready := true, mapped := true }).modNet fun n => { n with sink := Vector.replicate 8 0 })
  let s2 := panelAs (fun x => { x with vf := some 0, grants := [{ base := 2 ^ 48, length := 65536, write := true, pool := true, region := none }] }) s1
  let s3 := s2.modVf 0 0 fun v => { v with root := 2 ^ 48 + 1 }
  putAt (2 ^ 48) (pte.setWidth 512) s3
def walkOf (level : Nat) : Walk :=
  { serial := 0, panel := 0, va := 0, access := .read, engine := .array 0, asker := .cube, found := [], level := level, table := 2 ^ 48, namer := 0 }
def walks (pte : DWord) (level : Nat) : State := (tabled pte (vfUp id)).modTu 0 fun t => { t with walks := [walkOf level], nextWalk := 1 }
def levelRead (s : State) (level : Nat) : WalkOut × State :=
  s.walkLevel (s.walkAgent 0 (.array 0) .cube) 0 (s.walkTint 0 (.array 0)) 0 level (2 ^ 48) 0 (flipsAt [] 0)
/-- A leaf that lets panel 0 read its own page, and a pointer to it. -/
def aLeaf : DWord := 2 ^ 48 + 0x1F
def aPointer : DWord := 2 ^ 48 + 1

/-- Stack 0 (of field 0) in service, in its field, reached by the network, with PF0 of port 0 open. -/
def stackUp (f : StackState → StackState) : State :=
  let s := tabled 0 (vfUp id)
  s.modStack 0 fun k => f { k with state := 4, stage := .done }
/-- A request of NI 0 of field 0 to the near pool of that field, waiting there. -/
def nearTxn (kind : ReqKind) : Txn := { txnOf kind .atTarget with pa := 2 ^ 48 }
def readWaiting : WaitingRead := { id := txId, key := 0, count := 1, prio := 0, critical := true, arrived := 0, passed := 0 }
def aWord : CodeWord := ⟨1, false⟩
/-- The fast tier of field 0 in service, with one access waiting. -/
def bankUp (r : BankAccess) (x : Txn) : State :=
  withTxn x ((mapped 0 (vfUp id)).modFt 0 fun t => { t with queue := [r] })
def bankAcc (w : Bool) : BankAccess :=
  { id := txId, key := 0, count := 1, words := if w then [aWord] else [], isWrite := w, prio := 0, critical := false, arrived := 0, pa := 0x3000000000000, first := 0 }
def ftTxn (kind : ReqKind) : Txn := { txnOf kind .atTarget with pa := 0x3000000000000 }

def atomTxn : Txn := ftTxn (.atomic .add32 0 1 0 false)
def atomUp : State := withTxn atomTxn (mapped 0 (vfUp id))
def atomLoc : Loc := .ft 0 0 0 0
def atomOut : Reply × State := atomUp.atomicLoc (txnAgent atomTxn) 0x3000000000000 atomLoc .add32 0 1 0 false (flipsAt [] 0)
theorem atom_out : atomUp.atomicLoc (txnAgent atomTxn) 0x3000000000000 atomLoc .add32 0 1 0 false (flipsAt [] 0) = (atomOut.1, atomOut.2) :=
  pair_of (x := atomOut) rfl

/-- A primer slot over the page of field 0's near fast tier, running `op`. -/
def priming (op : BitVec 3) (st : BitVec 4) (n : Nat) : State :=
  (mapped 0 (vfUp id)).modPrimer 0 fun x =>
    { x with base := 0x3000000000000, length := 4096, state := st, runOp := op, runBase := 0x3000000000000, runLength := n }

/-- A request of NI 0 of field 0 to the fast tier of that field. -/
def ftReq (kind : ReqKind) : NetReq := { field := 0, ni := 0, tint := 0, panel := none, pa := 0x3000000000000, kind := kind }
def netUp : State := (mapped 0 (vfUp id)).modNet fun n => { n with tints := vset n.tints 0 0xFFFFFF }
/-- Every tag that a request other than an atomic may have is in use or in quarantine. -/
def quarantined (l : List TxId) : State := netUp.modNet fun n => { n with quarantine := l }
def noTags : State := quarantined ((List.range 3072).map fun t => ⟨0, 0, BitVec.ofNat 12 t⟩)
theorem quarantined_all (l : List TxId) : (quarantined l).net.quarantine = l := rfl
theorem no_tag_of (l : List TxId) (a : ∀ t ∈ List.range 3072, (⟨0, 0, BitVec.ofNat 12 t⟩ : TxId) ∈ l) : (quarantined l).freeTag 0 0 false = none := by
  unfold State.freeTag
  rw [Option.map_eq_none_iff, List.find?_eq_none]
  intro t h c
  rw [if_neg Bool.false_ne_true] at h
  rw [List.all_eq_true] at c
  have e := List.mem_append_right ((quarantined l).net.flight.map (·.id)) (quarantined_all l ▸ a t h)
  exact of_decide_eq_true (c _ (List.mem_filter.mpr ⟨e, decide_eq_true ⟨rfl, rfl⟩⟩)) rfl
theorem no_tag : noTags.freeTag 0 0 false = none := no_tag_of _ fun _ h => List.mem_map_of_mem h
def coming (x : Txn) : Txn := { x with stage := .inFlight }
def nearUp : State := (stackUp id).modNet fun n => { n with tints := vset n.tints 0 0xFFFFFF }
def answered : Txn := { ftTxn (.read 1) with stage := .answered }
def lathUp (f : LathState → LathState) : State := State.reset.modNet fun n => { n with lath := vset n.lath 0 (f { n.lath[0] with inService := 3, spare := 12, hashSet := 3 }) }
def laneOf (b : List (BitVec 12 × TxId)) (rounds : Nat) : LathLane := { link := 0, dir := .up, nextSeq := 1, buffer := b, expect := 0, rounds := rounds }

/-- The page of field 0's near fast tier is coherent for panel 0, its home is slice 0, and every agent is enabled. -/
def cohUp (f : CohState → CohState) : State :=
  (panelAs (fun x => { x with ranges := [{ base := 0x3000000000000, length := 65536 }] }) (mapped 0 (vfUp id))).modCoh
    fun c => f { c with homeMap := 0, valid := BitVec.allOnes 96 }
def lineA : BitVec 52 := 0x3000000000000
def blockedBy (req : CohReq) (snoops : List Snoop) : Blocked :=
  { line := lineOf lineA, req := req, src := { tint := 0, tag := 0, bind := 0, cxl := none }, snoops := snoops, gotData := none,
    gotDirty := false, granted := none, cmpData := none, cmpTaken := false }
def blockedAs (b : Blocked) : State := cohUp fun c => { c with slices := vset c.slices 0 { c.slices[0] with blocked := [b] } }
def snoopOf (a : AgentId) (k : SnoopKind) (r : Option SnoopAnswer) : Snoop := { agent := a, kind := k, answer := r }
def anAnswer : SnoopAnswer := { hasData := false, dirty := false, notPresent := false, wbp := none, word := ⟨0, false⟩ }
def cxlBound : Binding := { tag := 1, panel := 0, slot := 0, target := 0xF, tint := 0, regs := false, devmem := false, phase := .bound }
def nativeBound : Binding := { cxlBound with target := 8 }
/-- Site 0 up with every feature granted, with the bindings `b`; word 5 of its descriptor is `d`. -/
def siteOn (b : List Binding) (d : Word) (s : State) : State :=
  s.modSite 0 fun x => { x with state := 3, ready := true, enabled := true, granted := BitVec.allOnes 32, desc := vset x.desc 5 d, bindings := b }
def cxlUp : State := siteOn [cxlBound] (2 ^ 25) (cohUp id)
def cleanC (a : AgentId) (st : AgentLine) (t : Option (BitVec 12)) : CacheLine := { agent := a, line := lineOf lineA, state := st, word := ⟨0, false⟩, wbTag := t }
def cohTxn (k : ReqKind) : Txn := ftTxn k

/-- Site 0's engine bound to panel 0, whose page its port's cache maps; the descriptor names two endpoints and one native agent. -/
def portUp (b : Binding) : State :=
  siteOn [b] (2 ^ 18 + 2 ^ 22) ((panelAs (fun x => { x with arrays := [some 0] }) (mapped 0 (vfUp id))).modTu 0
    fun t => { t with siteTlb := [{ panel := 0, level := 0, index := 0, pte := 0x300000000001F }] })
def head (type count addr arg : Nat) : BitVec 128 := siteHeader type count 0 0 (if type = 3 ∨ type = 4 then 3072 else 0) addr 1 arg
def nativeUp (b : List Blocked) : State :=
  siteOn [nativeBound] (2 ^ 22) (cohUp fun c => { c with slices := vset c.slices 0 { c.slices[0] with blocked := b } })
def nativeFrom : CohFrom := { tint := 0, tag := 0, bind := 1, cxl := none }

/-- The words of a list, lowest byte first. -/
def wordsOf (l : List Nat) : List Byte := l.flatMap (bytesOf 4)
/-- An unsigned image with the sections `ss`, each of at most 64 bytes. -/
def image (kind panel : Nat) (ss : List (Nat × List Byte)) : List Byte :=
  let n := ss.length
  let dir := (List.range n).flatMap fun k =>
    let x := ss[k]?.getD (0, [])
    wordsOf [x.1 * 65536 + 1, 192 + 64 * k, x.2.length, (crc32 x.2).toNat]
  let head := wordsOf ([0x55484947, 0x10000 + kind * 256 + 0xB0, 192 + 64 * n, n * 256, 0, 0, 0, 0, panel] ++ List.replicate 7 0)
  (head ++ dir ++ List.replicate (128 - 16 * n) 0) ++ ss.flatMap fun x => x.2 ++ List.replicate (64 - x.2.length) 0
def imgs (kind panel : Nat) (ss : List (Nat × List Byte)) (s : State) (f : ImgState → ImgState) : State :=
  s.modImg fun x => f { x with staging := image kind panel ss, length := BitVec.ofNat 32 (image kind panel ss).length,
                               kind := BitVec.ofNat 8 kind, panel := BitVec.ofNat 8 panel, loaded := kind ≠ 1, fieldMask := 1 }
def noImage : Image := { header := { kind := 0, length := 0, svn := 0, sections := 0, signed := false, imageId := 0, baseId := 0, panel := 0, sigOffset := 0 }, sections := [] }
def imageOf (s : State) : Image := okOf noImage s.checkImage
/-- Field 0 alone, with its near fast tier. -/
def baseUp : State := imgs 1 0xFF [(1, wordsOf [1, 0, 0, 0, 0, 0, 0, 0]), (3, wordsOf [0]), (4, []), (5, List.replicate 64 0), (6, List.replicate 28 0)] ((mapped 0 (vfUp id)).modField 0 fun x => { x with selfTest := true }) id
def vfFree : State := panelAs (fun x => { x with grants := [] }) (mapped 0 (port fun x => { x with vfEnable := true, numVfs := 40 }))
/-- Panel 0 of array 0 and the first page of field 0's near fast tier, kept by the first VF of port 0. -/
def createBody : List (Nat × List Byte) :=
  [(0x10, wordsOf [1, 0xFFFFFF00] ++ List.replicate 36 0xFF ++ List.replicate 20 0), (0x11, wordsOf [1, 0x30000, 65536, 0])]
def createUp (st : BitVec 4) : State := imgs 2 0 createBody vfFree fun x => { x with status := st }
def panelUp (kind : Nat) (ss : List (Nat × List Byte)) : State :=
  imgs kind 0 ss (panelAs (fun x => { x with state := 2 }) (vfUp id)) fun x => { x with status := 4 }
def imgRead : HostReadReq := { serial := 0, use := .image }
def reading : State := (port fun x => { x with reads := [imgRead] }).modImg fun x => { x with status := 1, length := 64 }
def bindingOn (p : BindPhase) (f : State → State) : State := f (siteOn [{ engineBound with phase := p }] 0 (vfUp id))
def dust (k : BitVec 3) : State := panelAs (fun x => { x with state := 5, phase := k, arrays := [some 0] }) (vfUp id)

/-- The mailbox holds a command of the authority `auth` with the arguments `args`. -/
def mail (auth : BitVec 2) (args : List Word) (s : State) : State :=
  s.modPnl fun x => { x with cmdAuth := auth, args := Vector.ofFn fun i => (args[i.val]?).getD 0 }
def mailed (op : Byte) (s : State) : State := okOf s ((s.modPnl fun x => { x with cmdOp := op }).accept (s.modPnl fun x => { x with cmdOp := op }).mailCommand)
theorem mail_of (s : State) (op : Byte) (named used : Nat → Bool)
    (h : (decide (s.pnl.cmdState ≠ 1 ∧ s.pnl.cmdState ≠ 2) && !s.closed && named s.pnl.cmdAuth.toNat &&
      isOkay ((s.modPnl fun x => { x with cmdOp := op }).accept (s.modPnl fun x => { x with cmdOp := op }).mailCommand) && (mailed op s).restZero used) = true) :
    s.mailAccepted op named used (mailed op s) := by
  simp only [Bool.and_eq_true] at h
  exact ⟨of_decide_eq_true h.1.1.1.1, Bool.not_eq_true' _ ▸ h.1.1.1.2, h.1.1.2, ok_of _ _ h.1.2, h.2⟩
theorem accept_keyed (s : State) (c : Critical) (key : BitVec 384) (k : DWord) (h1 : s.closed = false) (h2 : s.authorityOf c = .ok (3, key, k))
    (h3 : c.mac = critMac key (critMessage s.fuse.identity c.auth c.op c.panel c.ctr c.args)) (h4 : k.toNat < c.ctr.toNat) :
    s.accept c = .ok (s.setCounter 3 c.panel c.ctr) := by
  unfold State.accept
  rw [if_neg (by rw [h1]; decide), h2]
  dsimp only
  rw [if_neg (fun x => x.1 rfl), if_neg (fun x => x h3), if_neg (Nat.not_le.mpr h4)]
/-- The MAC that key 0 gives the command of panel 0 with counter 1 that the mailbox holds. -/
def keyIn (op : Byte) (s : State) : State :=
  s.modPnl fun x => { x with mac := critMac 0 (critMessage s.fuse.identity 3 op.toNat 0 1 s.mailCommand.args) }
theorem keyIn_mac (op : Byte) (s : State) (h1 : s.pnl.cmdAuth = 3) (h2 : s.pnl.cmdPanel = 0) (h3 : s.pnl.ctr = 1) :
    ((keyIn op s).modPnl fun x => { x with cmdOp := op }).mailCommand.mac = critMac 0 (critMessage ((keyIn op s).modPnl fun x => { x with cmdOp := op }).fuse.identity
      ((keyIn op s).modPnl fun x => { x with cmdOp := op }).mailCommand.auth ((keyIn op s).modPnl fun x => { x with cmdOp := op }).mailCommand.op
      ((keyIn op s).modPnl fun x => { x with cmdOp := op }).mailCommand.panel ((keyIn op s).modPnl fun x => { x with cmdOp := op }).mailCommand.ctr
      ((keyIn op s).modPnl fun x => { x with cmdOp := op }).mailCommand.args) := by
  show _ = critMac 0 (critMessage s.fuse.identity s.pnl.cmdAuth.toNat op.toNat s.pnl.cmdPanel s.pnl.ctr s.mailCommand.args)
  rw [h1, h2, h3]
  rfl
/-- The mailbox holds a command of panel 0. -/
def keying (args : List Word) : State :=
  (mail 3 args (panelAs (fun x => { x with state := 2, authKey := some 0, arrays := [some 0] }) (mapped 0 (vfUp id)))).modPnl fun x => { x with ctr := 1 }
def keyed (op : Byte) (args : List Word) : State := keyIn op (keying args)
def keyedOut (op : Byte) (args : List Word) : State := ((keyed op args).modPnl fun x => { x with cmdOp := op }).setCounter 3 0 1

def bundle0 : List Byte := wordsOf [0x55485742, 0x10001, 0, 0, 64, 0] ++ List.replicate 424 0
def bundleOf : Bundle := okOf { id := 0, nonce := [], peer := [], members := [], aad := [], body := [], tag := [] } (parseBundle bundle0 448)

def debugging : State := (mapped 0 (vfUp id)).modPnl (fun x => { x with dbgLoc := 0x3000000000000 })

def lcsReq : List Byte := List.replicate 3584 0
def lcsUp : State := { vfUp id with lcs := { (vfUp id).lcs with state := 1 } }
def lcsRead : Option (List Byte) × State :=
  (lcsUp.modLcs fun l => { l with port := asFin 2 (fld (2 ^ 31 : Word).toNat 0 1) }).mailRead (asFin 2 (fld (2 ^ 31 : Word).toNat 0 1)) (fld lcsUp.lcs.src.toNat 6 46 * 64) 3584 (.ok lcsReq)
def lcsTo : State := lcsRead.2
theorem lcs_read : lcsRead = (some lcsReq, lcsTo) := pair_of (by decide +kernel)
def lcsBits : List FuseBit := transitionBits (lcsTo.fuse.freeSlots.headD 0) 0 (lcsTo.fuse.stepsAfter lcsTo.lcs.state.toNat 0)
def lcsBurnt : Fuses × Option Nat × Bool := lcsTo.fuse.burn none lcsBits

/-- Twin port 0 up at level 2, with the other side of its line and binding 0. -/
def twinOn (f : TwinPort → TwinPort) (g : TwinBinding → TwinBinding) (s : State) : State :=
  ((s.modTwin fun x => { x with peerSchema := 1 }).modTwinPort 0 fun x => f { x with state := 2, level := 2, width := 32, lanes := 0xFFFFFFFF }).modBind 0
    fun b => g { b with valid := true, role := 1, windows := [{ base := 0x3000000000000, length := 65536, write := true, pool := true, region := none }] }
def twins (f : TwinPort → TwinPort) (g : TwinBinding → TwinBinding) : State := twinOn f g (panelAs (fun x => { x with arrays := [some 0] }) (mapped 0 (vfUp id)))
def thead (type count addr arg : Nat) : BitVec 128 := twinHeader type count 0 0 0 addr 0 0 0 0 arg
def twinTxn : Txn := { txnOf (.read 1) .inFlight with owner := .twin 0 (thead 1 1 0 0) }

/-! ## Witnesses of the statements about every command -/

def resetHeld : State := { State.reset with inReset := true, pins := { State.reset.pins with pkgResetN := false }, pending := [.pkgResetRelease] }
/-- The state that a step which goes on leaves. -/
def nextOf (s : State) : State :=
  match step s with
  | .next t => t
  | _ => s

theorem witness_StepRunsFrontCommand : ∃ (c : Instr) (s : State) (rest : List Instr), s.pending = c :: rest :=
  ⟨.pkgResetRelease, resetHeld, [], rfl⟩
theorem witness_IdleBlockTicks :
    (∃ s : State, s.pending = [] ∧ s.inReset = true) ∧ (∃ s : State, s.pending = [] ∧ s.inReset = false) ∧
    (∃ p : Piece, p ≠ .sclk ∧ p ≠ .twin ∧ p ≠ .lines ∧ p ≠ .out) :=
  ⟨⟨{ State.reset with inReset := true }, rfl, rfl⟩, ⟨State.reset, rfl, rfl⟩, ⟨.mem, by decide⟩⟩
theorem witness_StepsKeepSoundness : ∃ s t : State, s.Sound ∧ step s = .next t :=
  ⟨resetHeld, nextOf resetHeld, ⟨by decide +kernel, ⟨by decide +kernel, by decide +kernel, by decide +kernel, by decide +kernel, by decide +kernel, by decide +kernel⟩,
    ⟨by decide +kernel, by decide +kernel⟩⟩, rfl⟩
theorem witness_CommandsTouchOnlyTheirParts : ∃ (c : Instr) (s t : State) (p : Piece), exec c s = .next t ∧ p ∉ touches c :=
  ⟨.pwrLimitWrite 4000, State.reset, _, .mem, rfl, by decide⟩
theorem witness_CommandsKeepQueueAndOutputs : ∃ (c : Instr) (s t : State), exec c s = .next t := ⟨.pwrLimitWrite 4000, State.reset, _, rfl⟩
theorem witness_FusesOnlyRise : ∃ s t : State, step s = .next t := ⟨resetHeld, nextOf resetHeld, rfl⟩
theorem witness_ResetFollowsTheSixInputs :
    (∃ p : Pins, p.allGood = true) ∧
    (∃ s t : State, s.inReset = (!s.pins.allGood) ∧ step s = .next t ∧ s.inReset = true ∧ t.inReset = false) :=
  ⟨⟨{}, rfl⟩, ⟨resetHeld, nextOf resetHeld, by decide +kernel, rfl, rfl, by decide +kernel⟩⟩
theorem witness_AccessesOfOtherSizesAreLogged :
    (∃ (s : State) (pa : BitVec 52) (size : Nat), s.inReset = false ∧ paPartner pa = false ∧ paSpace pa = 5 ∧ fld pa.toNat 28 20 = 0 ∧
      (size ≠ 4 ∨ pa.toNat % 4 ≠ 0) ∧ s.ras.flog.length < 1024) ∧
    (∃ (s : State) (p : PortId) (off : BitVec 28) (size : Nat), s.pf0Takes p = true ∧ (size ≠ 4 ∨ off.toNat % 4 ≠ 0) ∧ s.ras.flog.length < 1024) ∧
    (∃ (s : State) (p : PortId) (v : VfId) (o : BitVec 16) (size : Nat) (tee : Bool), s.takesMemory p = true ∧ s.vfLive p v = true ∧ s.vfDust p v = false ∧
      s.pageRefused p v o.toNat tee = false ∧ (size ≠ 4 ∨ o.toNat % 4 ≠ 0) ∧ s.ras.flog.length < 1024) :=
  ⟨⟨State.reset, 0x5000001000002, 4, by decide +kernel⟩, ⟨vfUp id, 0, 0xFFFFFFC, 8, by decide +kernel⟩, ⟨vfUp id, 0, 0, 0xFFFE, 2, false, by decide +kernel⟩⟩
theorem witness_PassCountReadsLatchTheirHighWord : ∃ (s : State) (p : PortId) (a : ArrayId), s.pf0Takes p = true ∧ s.retired = false ∧ s.arrays[a].st = 0 :=
  ⟨vfUp id, 0, 0, by decide +kernel⟩
theorem witness_PowerAboveTheFloorIsAPackageFault :
    ∃ (s : State) (p1 : BitVec 13), s.inReset = false ∧ s.pwr.d = 8 ∧ 4300 < p1.toNat ∧ s.ras.flog.length < 1024 :=
  ⟨{ State.reset with pwr := { State.reset.pwr with d := 8 } }, 4301, by decide +kernel⟩

/-! ## Witnesses of the families' statements, one for each clause with hypotheses -/

theorem witness_CubeIssue :
    (∃ (s : State) (a : ArrayId) (n : Nat) (p : PanelId) (w : BitVec 128), (s.toIssue a opFold = some (p, w)) ∧ ((s.arrays[a].cube.ops.any fun o => o.stalled) = false) ∧ (s.arrays[a].cube.freeAcc.isSome = true) ∧ (s.arrays[a].cube.reject s.arrays[a].mode w = none) ∧ (s.linesBusy (s.cubeEng a p) .read (readVas ((s.arrays[a].cube.makeOp w (s.insPc a)).parts (s.arrays[a].cube.shape w) 0)) = false)) ∧
    (∃ (s : State) (a : ArrayId) (n : Nat) (p : PanelId) (w : BitVec 128), (s.toIssue a opStream = some (p, w)) ∧ ((s.arrays[a].cube.ops.any fun o => o.stalled) = false) ∧ (s.arrays[a].cube.freeAcc.isSome = true) ∧ (s.arrays[a].cube.reject s.arrays[a].mode w = none) ∧ (s.linesBusy (s.cubeEng a p) .read (readVas ((s.arrays[a].cube.makeOp w (s.insPc a)).parts (s.arrays[a].cube.shape w) 0)) = false)) ∧
    (∃ (s : State) (a : ArrayId) (n : Nat) (p : PanelId) (w : BitVec 128), (s.toIssue a opSload = some (p, w)) ∧ ((s.arrays[a].cube.ops.any fun o => o.stalled) = false) ∧ (s.arrays[a].cube.slotBusy w = false) ∧ (s.arrays[a].cube.reject s.arrays[a].mode w = none) ∧ (s.linesBusy (s.cubeEng a p) .read (readVas ((s.arrays[a].cube.makeOp w (s.insPc a)).parts (s.arrays[a].cube.shape w) 0)) = false)) ∧
    (∃ (s s₁ s₂ s₃ : State) (a : ArrayId) (n : Nat) (p : PanelId) (w : BitVec 128) (o : CubeOp)
      (slot : Fin 4) (init : Tile) (x y : Operand), (s.toIssue a opFold = some (p, w)) ∧ ((s.arrays[a].cube.ops.all fun q => decide (q.passes ≤ q.started) && !q.stalled) = true) ∧ (s.arrays[a].cube.reject s.arrays[a].mode w = none) ∧ (o = s.arrays[a].cube.makeOp w (s.insPc a)) ∧ (0 < o.passes) ∧ (s.arrays[a].cube.haltReq = none) ∧ (s.linesBusy (s.cubeEng a p) .read (readVas (o.parts (s.arrays[a].cube.shape w) 0)) = false) ∧ ((s.arrays[a].cube.acc.any fun t => decide (t.phase = .running)) = false) ∧ (s.arrays[a].cube.freeAcc = some slot) ∧ ((s.queueOp a o).checkParts (s.cubeEng a p) 0 (o.parts (s.arrays[a].cube.shape w) 0) = (none, s₁)) ∧ (s₁.readInit (s.cubeEng a p) o (s.arrays[a].cube.shape w) (o.passAt (s.arrays[a].cube.shape w) 0).row         (o.passAt (s.arrays[a].cube.shape w) 0).rows (o.passAt (s.arrays[a].cube.shape w) 0).col         (o.passAt (s.arrays[a].cube.shape w) 0).cols = (.ok init, s₂)) ∧ (s₂.passOperands a (s.cubeEng a p) o (s.arrays[a].cube.shape w) (o.passAt (s.arrays[a].cube.shape w) 0) = (.ok (x, y), s₃)) ∧ (s₁.linesBusy (s.cubeEng a p) .read (readVas (o.parts (s.arrays[a].cube.shape w) 0)) = false)) ∧
    (∃ (s s₁ s₂ s₃ : State) (a : ArrayId) (n : Nat) (p : PanelId) (w : BitVec 128) (o : CubeOp)
      (slot : Fin 4) (init : Tile) (x y : Operand), (s.toIssue a opStream = some (p, w)) ∧ ((s.arrays[a].cube.ops.all fun q => decide (q.passes ≤ q.started) && !q.stalled) = true) ∧ (s.arrays[a].cube.reject s.arrays[a].mode w = none) ∧ (o = s.arrays[a].cube.makeOp w (s.insPc a)) ∧ (0 < o.passes) ∧ (s.arrays[a].cube.haltReq = none) ∧ (s.linesBusy (s.cubeEng a p) .read (readVas (o.parts (s.arrays[a].cube.shape w) 0)) = false) ∧ ((s.arrays[a].cube.acc.any fun t => decide (t.phase = .running)) = false) ∧ (s.arrays[a].cube.freeAcc = some slot) ∧ (s.arrays[a].cube.stat[slotOf w].phase = .valid) ∧ ((s.queueOp a o).checkParts (s.cubeEng a p) 0 (o.parts (s.arrays[a].cube.shape w) 0) = (none, s₁)) ∧ (s₁.readInit (s.cubeEng a p) o (s.arrays[a].cube.shape w) (o.passAt (s.arrays[a].cube.shape w) 0).row         (o.passAt (s.arrays[a].cube.shape w) 0).rows (o.passAt (s.arrays[a].cube.shape w) 0).col         (o.passAt (s.arrays[a].cube.shape w) 0).cols = (.ok init, s₂)) ∧ (s₂.passOperands a (s.cubeEng a p) o (s.arrays[a].cube.shape w) (o.passAt (s.arrays[a].cube.shape w) 0) = (.ok (x, y), s₃)) ∧ (s₁.linesBusy (s.cubeEng a p) .read (readVas (o.parts (s.arrays[a].cube.shape w) 0)) = false)) ∧
    (∃ (s s₁ s₂ : State) (a : ArrayId) (n : Nat) (p : PanelId) (w : BitVec 128) (o : CubeOp) (x : Operand), (s.toIssue a opSload = some (p, w)) ∧ ((s.arrays[a].cube.ops.any fun o => o.stalled) = false) ∧ (s.arrays[a].cube.slotBusy w = false) ∧ (s.arrays[a].cube.reject s.arrays[a].mode w = none) ∧ (o = s.arrays[a].cube.makeOp w (s.insPc a)) ∧ (s.linesBusy (s.cubeEng a p) .read (readVas (o.parts (s.arrays[a].cube.shape w) 0)) = false) ∧ ((s.queueOp a o).checkParts (s.cubeEng a p) 0 (o.parts (sloadShape w) 0) = (none, s₁)) ∧ (s₁.readOperand (s.cubeEng a p) o.bDesc (sloadShape w).bfmt 0 (sloadShape w).n (sloadShape w).k = (.ok x, s₂))) :=
  ⟨⟨folds, 0, 0, 0, wFold, by decide +kernel, by decide +kernel, by decide +kernel, by decide +kernel, by decide +kernel⟩,
   ⟨streams, 0, 0, 0, wStream, by decide +kernel, by decide +kernel, by decide +kernel, by decide +kernel, by decide +kernel⟩,
   ⟨sloads, 0, 0, 0, wSload, by decide +kernel, by decide +kernel, by decide +kernel, by decide +kernel, by decide +kernel⟩,
   ⟨folds, (partsOf folds wFold).2, (initOf folds wFold).2, (operandsOf folds wFold).2, 0, 0, 0, wFold, opAt folds wFold, 0, okOf [] (initOf folds wFold).1, (okOf (({}, {}) : Operand × Operand) (operandsOf folds wFold).1).1, (okOf (({}, {}) : Operand × Operand) (operandsOf folds wFold).1).2, by decide +kernel, by decide +kernel, by decide +kernel, rfl, by decide +kernel, by decide +kernel, by decide +kernel, by decide +kernel, by decide +kernel, Prod.ext (by decide +kernel) rfl, ok_pair [] _ (by decide +kernel), ok_pair (({}, {}) : Operand × Operand) (operandsOf folds wFold) (by decide +kernel), by decide +kernel⟩,
   ⟨streams, (partsOf streams wStream).2, (initOf streams wStream).2, (operandsOf streams wStream).2, 0, 0, 0, wStream, opAt streams wStream, 0, okOf [] (initOf streams wStream).1, (okOf (({}, {}) : Operand × Operand) (operandsOf streams wStream).1).1, (okOf (({}, {}) : Operand × Operand) (operandsOf streams wStream).1).2, by decide +kernel, by decide +kernel, by decide +kernel, rfl, by decide +kernel, by decide +kernel, by decide +kernel, by decide +kernel, by decide +kernel, by decide +kernel, Prod.ext (by decide +kernel) rfl, ok_pair [] _ (by decide +kernel), ok_pair (({}, {}) : Operand × Operand) (operandsOf streams wStream) (by decide +kernel), by decide +kernel⟩,
   ⟨sloads, (partsOf sloads wSload).2, (slotOperand sloads wSload).2, 0, 0, 0, wSload, opAt sloads wSload, okOf {} (slotOperand sloads wSload).1, by decide +kernel, by decide +kernel, by decide +kernel, by decide +kernel, rfl, by decide +kernel, Prod.ext (by decide +kernel) rfl, ok_pair {} (slotOperand sloads wSload) (by decide +kernel)⟩⟩

theorem witness_CubePasses :
    (∃ (s : State) (a : ArrayId) (i : Fin 4), (((allFin 4).find? fun i => decide (s.arrays[a].cube.acc[i].phase = .running)) = some i) ∧ (s.arrays[a].cube.haltReq = none) ∧ ((s.arrays[a].cube.ops.all fun q => decide (q.passes ≤ q.started) && !q.stalled) = true)) ∧
    (∃ (s : State) (a : ArrayId) (i : Fin 4) (k : HaltKind), (((allFin 4).find? fun i => decide (s.arrays[a].cube.acc[i].phase = .running)) = some i) ∧ (s.arrays[a].cube.haltReq = some k)) ∧
    (∃ (s : State) (a : ArrayId), (s.arrays[a].st = 0) ∧ ((s.arrays[a].cube.acc.any fun t => decide (t.phase = .running)) = false)) ∧
    (∃ (s : State) (a : ArrayId) (x : HaltSource), (s.arrays[a].st = 0) ∧ ((s.arrays[a].cube.acc.any fun t => decide (t.phase = .running)) = true) ∧ (s.arrays[a].cube.haltReq = none)) ∧
    (∃ (s : State) (a : ArrayId) (i e : Fin 4) (r : List (Fin 4)) (p : PanelId) (o : CubeOp), (s.arrays[a].cube.drainQ = i :: r) ∧ (s.arrays[a].panel = some p) ∧ ((s.arrays[a].cube.ops.find? fun q => decide (q.serial = s.arrays[a].cube.acc[i].serial)) = some o) ∧ (o.dest = true) ∧ (s.arrays[a].cube.freeExch = some e) ∧ ((s.arrays[a].cube.ops.all fun q => decide (q.passes ≤ q.started) && !q.stalled) = true)) ∧
    (∃ (s s₁ : State) (a : ArrayId) (i : Fin 4) (r : List (Fin 4)) (p : PanelId) (o : CubeOp) (rows : List (DrainRow × OutFlags)), (s.arrays[a].cube.drainQ = i :: r) ∧ (s.arrays[a].panel = some p) ∧ ((s.arrays[a].cube.ops.find? fun q => decide (q.serial = s.arrays[a].cube.acc[i].serial)) = some o) ∧ (o.dest = false) ∧ (rows = s.arrays[a].cube.drainRows o s.arrays[a].cube.acc[i] s.draws) ∧ ((State.sendRows { s with draws := s.draws + 96 * 96 } ((s.cubeEng a p).at (.cube o.serial)) (rows.map fun x => x.1)) = (.ok (some 0), s₁)) ∧ ((rows.all fun x => x.1.words.all fun w => !w.mark) = true) ∧ ((s.arrays[a].cube.ops.all fun q => decide (q.passes ≤ q.started) && !q.stalled) = true)) ∧
    (∃ (s : State) (a : ArrayId) (k : Fin 2), (s.arrays[a].cube.stat[k].phase = .filling)) ∧
    (∃ (s : State) (a : ArrayId) (o : CubeOp) (r : List CubeOp), (s.arrays[a].cube.ops = o :: r) ∧ (s.arrays[a].cube.opDone o = true) ∧ (s.workOwes a (.cube o.serial) = false)) :=
  ⟨⟨runningCube, 0, 0, by decide +kernel, by decide +kernel, by decide +kernel⟩,
   ⟨haltingCube, 0, 0, .other, by decide +kernel, by decide +kernel⟩,
   ⟨State.reset, 0, by decide +kernel, by decide +kernel⟩,
   ⟨runningCube, 0, .other, by decide +kernel, by decide +kernel, by decide +kernel⟩,
   ⟨drains (cubeWord opFold 2 2 13 ||| 0x200#128), 0, 0, 0, [], 0, opOf (cubeWord opFold 2 2 13 ||| 0x200#128), by decide +kernel, by decide +kernel, by decide +kernel, by decide +kernel, by decide +kernel, by decide +kernel⟩,
   ⟨drains wFold, { drains wFold with draws := (drains wFold).draws + 96 * 96 }, 0, 0, [], 0, opOf wFold, [], by decide +kernel, by decide +kernel, by decide +kernel, by decide +kernel, by decide +kernel, rfl, by decide +kernel, by decide +kernel⟩,
   ⟨cub fun x => { x with stat := vset x.stat 0 { phase := .filling } }, 0, 0, by decide +kernel⟩,
   ⟨cub fun x => { x with ops := [opOf wFold] }, 0, opOf wFold, [], by decide +kernel, by decide +kernel, by decide +kernel⟩⟩

theorem witness_ArrayFaults :
    (∃ (s : State) (a : ArrayId) (code : Byte) (info : BitVec 16), (6 ≤ code.toNat ∧ code.toNat ≤ 8) ∧ (s.arrays[a].st = 0)) ∧
    (∃ (s : State) (a : ArrayId) (c : Fin 8), (s.arrays[a].st = 0)) ∧
    (∃ (s : State) (a : ArrayId), (s.arrays[a].st = 0)) ∧
    (∃ (s : State) (a b : ArrayId) (p : PanelId), (s.arrays[a].st = 0) ∧ (s.chooseSpare a = some b) ∧ (s.arrays[a].panel = some p) ∧ (s.arrays[a].seq.inv = none)) ∧
    (∃ (s : State) (a : ArrayId) (c : Fin 17), (s.arrays[a].st = 0) ∧ (s.arrays[a].vec.spare ≠ 0x1F)) ∧
    (∃ (s : State) (a : ArrayId), ((s.net.forwards.any fun f => decide (f.failed = a)) = true)) ∧
    (∃ (s : State) (a : ArrayId) (f : Forward) (q : QRef) (x : Taken), ((s.net.forwards.find? fun f => decide (f.failed = a ∧ f.silent = true)) = some f) ∧ (s.arrays[f.spare].seq.inv = some q) ∧ (s.taken q = some x) ∧ (x.status = none)) ∧
    (∃ (s : State) (a : ArrayId), ((s.pf0Open 0 || s.pf0Open 1) = true) ∧ (s.arrays[a].st = 0)) ∧
    (∃ (s : State) (a : ArrayId), ((s.pf0Open 0 || s.pf0Open 1) = true) ∧ (s.arrays[a].st ≠ 0)) ∧
    (∃ (s : State) (a : ArrayId), ((s.pf0Open 0 || s.pf0Open 1) = true) ∧ (s.arrays[a].st = 0)) ∧
    (∃ (s : State) (a : ArrayId), ((s.pf0Open 0 || s.pf0Open 1) = true) ∧ (s.arrays[a].st ≠ 0)) :=
  ⟨⟨State.reset, 0, 6, 0, by decide +kernel, by decide +kernel⟩,
   ⟨State.reset, 0, 0, by decide +kernel⟩,
   ⟨State.reset, 0, by decide +kernel⟩,
   ⟨arr fun x => { x with panel := some 0 }, 0, 36, 0, by decide +kernel, by decide +kernel, by decide +kernel, by decide +kernel⟩,
   ⟨State.reset, 0, 3, by decide +kernel, by decide +kernel⟩,
   ⟨forwarded false, 0, by decide +kernel⟩,
   ⟨forwarded true, 0, ⟨0, 36, true⟩, ⟨0, 1, 0⟩, { bits := 0, sqHead := 0 }, by decide +kernel, by decide +kernel, by decide +kernel, by decide +kernel⟩,
   ⟨hostOpen, 0, by decide +kernel, by decide +kernel⟩,
   ⟨hostOpen, 36, by decide +kernel, by decide +kernel⟩,
   ⟨hostOpen, 0, by decide +kernel, by decide +kernel⟩,
   ⟨hostOpen, 36, by decide +kernel, by decide +kernel⟩⟩

theorem witness_VectorIssue :
    (∃ (s : State) (a : ArrayId) (core : Fin 16) (p : PanelId) (c : Ctx) (w : DWord) (op : VecOp), (s.toRun a core = some (p, c)) ∧ (c.pc < 16384) ∧ (s.arrays[a].vec.codeAt c.pc = ⟨w, false⟩) ∧ ((s.arrays[a].vec.ctxs.find? fun x => isCtx c.core c.idx x) = some c) ∧ ((laneOp op 0 0 0).isSome = true)) ∧
    (∃ (s : State) (a : ArrayId) (core : Fin 16) (p : PanelId) (c : Ctx) (w : DWord), (s.toRun a core = some (p, c)) ∧ (c.pc < 16384) ∧ (s.arrays[a].vec.codeAt c.pc = ⟨w, false⟩) ∧ ((s.arrays[a].vec.ctxs.find? fun x => isCtx c.core c.idx x) = some c) ∧ ((vins w).type % 2 = 0) ∧ ((c.sreg ((vins w).src1 % 16)).mark = false)) ∧
    (∃ (s : State) (a : ArrayId) (core : Fin 16) (p : PanelId) (c : Ctx) (w : DWord), (s.toRun a core = some (p, c)) ∧ (c.pc < 16384) ∧ (s.arrays[a].vec.codeAt c.pc = ⟨w, false⟩)) ∧
    (∃ (s : State) (a : ArrayId) (core : Fin 16) (p : PanelId) (c : Ctx) (w : DWord), (s.toRun a core = some (p, c)) ∧ (c.pc < 16384) ∧ (s.arrays[a].vec.codeAt c.pc = ⟨w, false⟩) ∧ (c.addressMarked (vins w) = false) ∧ (c.enabled (vins w) = [])) ∧
    (∃ (s : State) (a : ArrayId) (core : Fin 16) (p : PanelId) (c : Ctx) (w : DWord) (l : Nat), (s.toRun a core = some (p, c)) ∧ (c.pc < 16384) ∧ (s.arrays[a].vec.codeAt c.pc = ⟨w, false⟩) ∧ (c.addressMarked (vins w) = false) ∧ (c.enabled (vins w) = [l])) ∧
    (∃ (s : State) (a : ArrayId) (core : Fin 16) (p : PanelId) (c : Ctx) (w : DWord), (s.toRun a core = some (p, c)) ∧ (c.pc < 16384) ∧ (s.arrays[a].vec.codeAt c.pc = ⟨w, false⟩) ∧ (s.arrays[a].seq.fault.valid = false)) ∧
    (∃ (s : State) (a : ArrayId) (core : Fin 16) (p : PanelId) (c : Ctx) (w : DWord) (op : VecOp), (s.toRun a core = some (p, c)) ∧ (c.pc < 16384) ∧ (s.arrays[a].vec.codeAt c.pc = ⟨w, false⟩) ∧ ((s.arrays[a].vec.ctxs.find? fun x => isCtx c.core c.idx x) = some c) ∧ (op ∈ [VecOp.fcmpEq, .fcmpLt, .fcmpLe, .icmpEq, .icmpLt])) ∧
    (∃ (s : State) (a : ArrayId) (core : Fin 16) (p : PanelId) (c : Ctx) (w : DWord) (op : VecOp), (s.toRun a core = some (p, c)) ∧ (c.pc < 16384) ∧ (s.arrays[a].vec.codeAt c.pc = ⟨w, false⟩) ∧ ((s.arrays[a].vec.ctxs.find? fun x => isCtx c.core c.idx x) = some c) ∧ (op = .select)) ∧
    (∃ (s : State) (a : ArrayId) (core : Fin 16) (p : PanelId) (c : Ctx) (w : DWord) (op : VecOp), (s.toRun a core = some (p, c)) ∧ (c.pc < 16384) ∧ (s.arrays[a].vec.codeAt c.pc = ⟨w, false⟩) ∧ ((s.arrays[a].vec.ctxs.find? fun x => isCtx c.core c.idx x) = some c) ∧ (op = .shuffle)) ∧
    (∃ (s : State) (a : ArrayId) (core : Fin 16) (p : PanelId) (c : Ctx) (w : DWord) (op : VecOp), (s.toRun a core = some (p, c)) ∧ (c.pc < 16384) ∧ (s.arrays[a].vec.codeAt c.pc = ⟨w, false⟩) ∧ ((s.arrays[a].vec.ctxs.find? fun x => isCtx c.core c.idx x) = some c) ∧ (op = .broadcast)) ∧
    (∃ (s : State) (a : ArrayId) (core : Fin 16) (p : PanelId) (c : Ctx) (w : DWord) (op : VecOp), (s.toRun a core = some (p, c)) ∧ (c.pc < 16384) ∧ (s.arrays[a].vec.codeAt c.pc = ⟨w, false⟩) ∧ ((s.arrays[a].vec.ctxs.find? fun x => isCtx c.core c.idx x) = some c) ∧ (op = .reduceAdd)) ∧
    (∃ (s : State) (a : ArrayId) (core : Fin 16) (p : PanelId) (c : Ctx) (w : DWord) (op : VecOp), (s.toRun a core = some (p, c)) ∧ (c.pc < 16384) ∧ (s.arrays[a].vec.codeAt c.pc = ⟨w, false⟩) ∧ ((s.arrays[a].vec.ctxs.find? fun x => isCtx c.core c.idx x) = some c) ∧ (op = .reduceMax)) ∧
    (∃ (s : State) (a : ArrayId) (core : Fin 16) (p : PanelId) (c : Ctx) (w : DWord), (s.toRun a core = some (p, c)) ∧ (c.pc < 16384) ∧ (s.arrays[a].vec.codeAt c.pc = ⟨w, false⟩) ∧ ((s.arrays[a].vec.ctxs.find? fun x => isCtx c.core c.idx x) = some c) ∧ (((c.enabled (vins w)).any fun l => (c.lane (vins w).src1 l).mark) = false)) ∧
    (∃ (s : State) (a : ArrayId) (core : Fin 16) (p : PanelId) (c : Ctx) (w : DWord), (s.toRun a core = some (p, c)) ∧ (c.pc < 16384) ∧ (s.arrays[a].vec.codeAt c.pc = ⟨w, false⟩) ∧ ((s.arrays[a].vec.ctxs.find? fun x => isCtx c.core c.idx x) = some c) ∧ ((c.sreg ((vins w).src1 % 16)).mark = false)) ∧
    (∃ (s : State) (a : ArrayId) (core : Fin 16) (p : PanelId) (c : Ctx) (w : DWord) (f : MxFormat), (s.toRun a core = some (p, c)) ∧ (c.pc < 16384) ∧ (s.arrays[a].vec.codeAt c.pc = ⟨w, false⟩) ∧ ((s.arrays[a].vec.ctxs.find? fun x => isCtx c.core c.idx x) = some c)) :=
  ⟨⟨kern0, 0, 0, 0, ctx0, 0, .iadd, by decide +kernel, by decide +kernel, by decide +kernel, by decide +kernel, by decide +kernel⟩,
   ⟨kern0, 0, 0, 0, ctx0, 0, by decide +kernel, by decide +kernel, by decide +kernel, by decide +kernel, by decide +kernel, by decide +kernel⟩,
   ⟨kern0, 0, 0, 0, ctx0, 0, by decide +kernel, by decide +kernel, by decide +kernel⟩,
   ⟨kern0, 0, 0, 0, ctx0, 0, by decide +kernel, by decide +kernel, by decide +kernel, by decide +kernel, by decide +kernel⟩,
   ⟨kern 0 (ctxOn 1) id, 0, 0, 0, ctxOn 1, 0, 0, by decide +kernel, by decide +kernel, by decide +kernel, by decide +kernel, by decide +kernel⟩,
   ⟨kern0, 0, 0, 0, ctx0, 0, by decide +kernel, by decide +kernel, by decide +kernel, by decide +kernel⟩,
   ⟨kern0, 0, 0, 0, ctx0, 0, .fcmpEq, by decide +kernel, by decide +kernel, by decide +kernel, by decide +kernel, by decide +kernel⟩,
   ⟨kern0, 0, 0, 0, ctx0, 0, .select, by decide +kernel, by decide +kernel, by decide +kernel, by decide +kernel, rfl⟩,
   ⟨kern0, 0, 0, 0, ctx0, 0, .shuffle, by decide +kernel, by decide +kernel, by decide +kernel, by decide +kernel, rfl⟩,
   ⟨kern0, 0, 0, 0, ctx0, 0, .broadcast, by decide +kernel, by decide +kernel, by decide +kernel, by decide +kernel, rfl⟩,
   ⟨kern0, 0, 0, 0, ctx0, 0, .reduceAdd, by decide +kernel, by decide +kernel, by decide +kernel, by decide +kernel, rfl⟩,
   ⟨kern0, 0, 0, 0, ctx0, 0, .reduceMax, by decide +kernel, by decide +kernel, by decide +kernel, by decide +kernel, rfl⟩,
   ⟨kern0, 0, 0, 0, ctx0, 0, by decide +kernel, by decide +kernel, by decide +kernel, by decide +kernel, by decide +kernel⟩,
   ⟨kern0, 0, 0, 0, ctx0, 0, by decide +kernel, by decide +kernel, by decide +kernel, by decide +kernel, by decide +kernel⟩,
   ⟨kern0, 0, 0, 0, ctx0, 0, .fp8e4m3, by decide +kernel, by decide +kernel, by decide +kernel, by decide +kernel⟩⟩

theorem witness_VectorMemory :
    (∃ (s s₁ s₂ : State) (a : ArrayId) (core : Fin 16) (p : PanelId) (c : Ctx) (w : DWord) (g : Bool) (ws : List (BitVec 55 × CodeWord)) (vas : List (BitVec 55)), (s.toRun a core = some (p, c)) ∧ (c.pc < 16384) ∧ (s.arrays[a].vec.codeAt c.pc = ⟨w, false⟩) ∧ ((s.arrays[a].vec.ctxs.find? fun x => isCtx c.core c.idx x) = some c) ∧ (c.memMarked (vins w) g = false) ∧ ((g = true ∨ (c.memStart (vins w)).toNat % 4 = 0)) ∧ (((c.enabled (vins w)).all fun l => decide ((c.laneVa (vins w) g l).toNat % 4 = 0)) = true) ∧ (vas = sortVas ((c.enabled (vins w)).map fun l => wordVa (c.laneVa (vins w) g l))) ∧ (s.linesBusy (s.vectorEng a p) .read vas = false) ∧ (s.laneOwes a p c .read vas = false) ∧ (s.checkVas (s.vectorEng a p) .read vas = (none, s₁)) ∧ (s₁.readWords (s.vectorEng a p) vas = (.ok ws, s₂))) ∧
    (∃ (s : State) (a : ArrayId) (core : Fin 16) (p : PanelId) (c : Ctx) (w : DWord) (g : Bool), (s.toRun a core = some (p, c)) ∧ (c.pc < 16384) ∧ (s.arrays[a].vec.codeAt c.pc = ⟨w, false⟩) ∧ (c.memMarked (vins w) g = false) ∧ (((g = false ∧ (c.memStart (vins w)).toNat % 4 ≠ 0) ∨ ((c.enabled (vins w)).any fun l => decide ((c.laneVa (vins w) g l).toNat % 4 ≠ 0)) = true)) ∧ (s.arrays[a].seq.fault.valid = false)) ∧
    (∃ (s s₁ s₂ : State) (a : ArrayId) (core : Fin 16) (p : PanelId) (c : Ctx) (w : DWord) (ws : List (BitVec 55 × CodeWord)), (s.toRun a core = some (p, c)) ∧ (c.pc < 16384) ∧ (s.arrays[a].vec.codeAt c.pc = ⟨w, false⟩) ∧ ((s.arrays[a].vec.ctxs.find? fun x => isCtx c.core c.idx x) = some c) ∧ (c.memMarked (vins w) false = false) ∧ (c.enableMarked (vins w) = false) ∧ ((c.memStart (vins w)).toNat % 64 = 0) ∧ (c.storeWords (vins w) = some ws) ∧ ((ws.all fun x => !x.2.mark) = true) ∧ (s.linesBusy ((s.vectorEng a p).at (.kernel c.launch)) .write (ws.map fun x => x.1) = false) ∧ (s.laneOwes a p c .write (ws.map fun x => x.1) = false) ∧ (s.checkVas ((s.vectorEng a p).at (.kernel c.launch)) .write (ws.map fun x => x.1) = (none, s₁)) ∧ ((s₁.siteWrites a p (ws.map fun x => x.1)).sendWords ((s.vectorEng a p).at (.kernel c.launch)) ws = (.done 0, s₂))) ∧
    (∃ (s : State) (a : ArrayId) (core : Fin 16) (p : PanelId) (c : Ctx) (w : DWord), (s.toRun a core = some (p, c)) ∧ (c.pc < 16384) ∧ (s.arrays[a].vec.codeAt c.pc = ⟨w, false⟩) ∧ (c.memMarked (vins w) false = false) ∧ (c.enableMarked (vins w) = false) ∧ ((c.memStart (vins w)).toNat % 64 ≠ 0 ∨ c.storeWords (vins w) = none) ∧ (s.arrays[a].seq.fault.valid = false)) ∧
    (∃ (s s₁ s₃ : State) (a : ArrayId) (core : Fin 16) (p : PanelId) (c : Ctx) (w : DWord), (s.toRun a core = some (p, c)) ∧ (c.pc < 16384) ∧ (s.arrays[a].vec.codeAt c.pc = ⟨w, false⟩) ∧ (c.memMarked (vins w) true = false) ∧ (c.enableMarked (vins w) = false) ∧ (((c.enabled (vins w)).all fun l => decide ((c.laneVa (vins w) true l).toNat % atomicSize (vatomOp (vins w).type) = 0)) = true) ∧ (s.checkVas (s.vectorEng a p) .atomic (sortVas ((c.enabled (vins w)).map fun l => wordVa (c.laneVa (vins w) true l))) = (none, s₁)) ∧ (((s₁.modSeq a fun x => { x with atomicIssued := x.atomicIssued || (x.atomic && c.enabled (vins w) ≠ []) }).vecIssued a c id).sendLanes a p c (vins w) (s.vectorEng a p) (c.enabled (vins w)) = some (0, s₃))) ∧
    (∃ (s : State) (a : ArrayId) (core : Fin 16) (p : PanelId) (c : Ctx) (w : DWord) (k : Fin 4), (s.toRun a core = some (p, c)) ∧ (c.pc < 16384) ∧ (s.arrays[a].vec.codeAt c.pc = ⟨w, false⟩) ∧ ((s.arrays[a].vec.ctxs.find? fun x => isCtx c.core c.idx x) = some c) ∧ (s.arrays[a].cube.tileFor c = some k) ∧ (s.arrays[a].vec.taker.map (fun l => l.serial) = some c.launch) ∧ ((c.sreg ((vins w).src1 % 16)).mark = false)) ∧
    (∃ (s : State) (a : ArrayId) (core : Fin 16) (p : PanelId) (c : Ctx) (w : DWord) (k : Fin 4) (l : Launch), (s.toRun a core = some (p, c)) ∧ (c.pc < 16384) ∧ (s.arrays[a].vec.codeAt c.pc = ⟨w, false⟩) ∧ (s.arrays[a].cube.tileFor c = some k) ∧ (s.arrays[a].vec.taker = some l) ∧ (l.serial = c.launch) ∧ (s.arrays[a].cube.exch[k].doneBy.length + 1 < l.contexts)) ∧
    (∃ (s : State) (a : ArrayId) (core : Fin 16) (p : PanelId) (c : Ctx) (w : DWord) (k : Fin 4) (l : Launch), (s.toRun a core = some (p, c)) ∧ (c.pc < 16384) ∧ (s.arrays[a].vec.codeAt c.pc = ⟨w, false⟩) ∧ (s.arrays[a].cube.tileFor c = some k) ∧ (s.arrays[a].vec.taker = some l) ∧ (l.serial = c.launch) ∧ (l.contexts ≤ s.arrays[a].cube.exch[k].doneBy.length + 1)) ∧
    (∃ (s : State) (a : ArrayId) (n : Nat) (l : Launch), ((s.arrays[a].vec.launches.find? fun l => decide (l.serial = n)) = some l) ∧ (l.tilesLeft = 0) ∧ ((s.arrays[a].vec.ctxs.all fun c => decide (c.launch ≠ n)) = true) ∧ (s.workOwes a (.kernel n) = false)) :=
  ⟨⟨kern0, kern0, kern0, 0, 0, 0, ctx0, 0, false, [], [], by decide +kernel, by decide +kernel, by decide +kernel, by decide +kernel, by decide +kernel, by decide +kernel, by decide +kernel, rfl, by decide +kernel, by decide +kernel, rfl, rfl⟩,
   ⟨kern 1 ctx0 id, 0, 0, 0, ctx0, 1, false, by decide +kernel, by decide +kernel, by decide +kernel, by decide +kernel, by decide +kernel, by decide +kernel⟩,
   ⟨kern0, kern0, (kern0.siteWrites 0 0 []), 0, 0, 0, ctx0, 0, [], by decide +kernel, by decide +kernel, by decide +kernel, by decide +kernel, by decide +kernel, by decide +kernel, by decide +kernel, by decide +kernel, by decide +kernel, by decide +kernel, by decide +kernel, rfl, rfl⟩,
   ⟨kern 1 ctx0 id, 0, 0, 0, ctx0, 1, by decide +kernel, by decide +kernel, by decide +kernel, by decide +kernel, by decide +kernel, by decide +kernel, by decide +kernel⟩,
   ⟨kern0, kern0, atomics kern0 ctx0, 0, 0, 0, ctx0, 0, by decide +kernel, by decide +kernel, by decide +kernel, by decide +kernel, by decide +kernel, by decide +kernel, by rw [show ctx0.enabled (vins 0) = [] by decide +kernel]; rfl, by rw [show ctx0.enabled (vins 0) = [] by decide +kernel]; rfl⟩,
   ⟨tiled 2, 0, 0, 0, ctx0, 0, 0, by decide +kernel, by decide +kernel, by decide +kernel, by decide +kernel, by decide +kernel, by decide +kernel, by decide +kernel⟩,
   ⟨tiled 2, 0, 0, 0, ctx0, 0, 0, { serial := 0, trigger := true, tilesLeft := 1, contexts := 2, pc := 0 }, by decide +kernel, by decide +kernel, by decide +kernel, by decide +kernel, by decide +kernel, by decide +kernel, by decide +kernel⟩,
   ⟨tiled 1, 0, 0, 0, ctx0, 0, 0, { serial := 0, trigger := true, tilesLeft := 1, contexts := 1, pc := 0 }, by decide +kernel, by decide +kernel, by decide +kernel, by decide +kernel, by decide +kernel, by decide +kernel, by decide +kernel⟩,
   ⟨kern0.modArray 0 fun x => { x with vec := { x.vec with ctxs := [], launches := [{ serial := 0, trigger := true, tilesLeft := 0, contexts := 1, pc := 0 }] } }, 0, 0, { serial := 0, trigger := true, tilesLeft := 0, contexts := 1, pc := 0 }, by decide +kernel, by decide +kernel, by decide +kernel, by decide +kernel⟩⟩

theorem witness_ScheduleFlow :
    (∃ (s s₁ : State) (a : ArrayId) (p : PanelId) (ws : List CodeWord) (w : BitVec 128), (s.arrays[a].panel = some p) ∧ (s.arrays[a].st = 0) ∧ (s.arrays[a].seq.state = seqRunning) ∧ (s.arrays[a].seq.ir = none) ∧ (s.arrays[a].seq.stalled = false) ∧ (s.arrays[a].seq.singleStep = false) ∧ (s.linesBusy (s.seqEng a p) .fetch (coverVas s.arrays[a].seq.pc 16) = false) ∧ (s.readTile a p .fetch s.arrays[a].seq.pc 16 = (.ok ws, s₁)) ∧ (markAt s.arrays[a].seq.pc 0 16 ws = false) ∧ (w = BitVec.ofNat 128 (natOf (bytesAt s.arrays[a].seq.pc 16 ws))) ∧ (definedOpcode (insField w 0 26 6) = true) ∧ (scheduleBad w = none)) ∧
    (∃ (s : State) (a : ArrayId) (p : PanelId) (w : BitVec 128), (s.toIssue a opStep = some (p, w)) ∧ ((s.arrays[a].seq.loops.any fun l => l.inStep) = false)) ∧
    (∃ (s : State) (a : ArrayId) (p : PanelId) (w : BitVec 128), (s.toIssue a opStep = some (p, w)) ∧ ((s.arrays[a].seq.loops.any fun l => l.inStep) = false) ∧ (s.arrays[a].seq.sems[(waitEntry (BitVec.ofNat 64 (fld w.toNat 32 64)) 0).1].toNat < (waitEntry (BitVec.ofNat 64 (fld w.toNat 32 64)) 0).2)) ∧
    (∃ (s : State) (a : ArrayId) (p : PanelId) (w : BitVec 128), (s.toIssue a opStep = some (p, w)) ∧ ((s.arrays[a].seq.loops.any fun l => l.inStep) = false) ∧ (fld w.toNat 32 64 = 0) ∧ (s.arrays[a].seq.singleStep = false)) ∧
    (∃ (s : State) (a : ArrayId) (p : PanelId) (w : BitVec 128), (s.toIssue a opStepend = some (p, w)) ∧ ((s.arrays[a].seq.loops.any fun l => l.inStep) = false) ∧ (s.signalFault a (signalEntries w) = none)) ∧
    (∃ (s s₂ : State) (a : ArrayId), (s.arrays[a].seq.state = seqCommitting) ∧ (s.arrays[a].quiet = true) ∧ (s.arrayOwes a = false) ∧ ((s.modSeq a fun y => { y with state := seqRunning, stepOpen := false, commitSignals := [], afterStepend := true }).sendSignals a s.arrays[a].seq.commitSignals = some s₂)) ∧
    (∃ (s : State) (a : ArrayId), (s.arrays[a].seq.state = seqCommitting) ∧ (s.arrays[a].quiet = true) ∧ (s.arrayOwes a = false) ∧ (s.arrays[a].seq.commitSignals = []) ∧ (s.arrays[a].seq.singleStep = false)) ∧
    (∃ (s s₁ : State) (a : ArrayId) (p : PanelId) (w : BitVec 128), (s.toIssue a opSignal = some (p, w)) ∧ (s.arrays[a].seq.afterStepend = true) ∧ (s.signalFault a (signalEntries w) = none) ∧ (s.sendSignals a (signalEntries w) = some s₁)) ∧
    (∃ (s : State) (a : ArrayId) (p : PanelId) (w : BitVec 128), (s.toIssue a opSignal = some (p, w)) ∧ (s.arrays[a].seq.afterStepend = false) ∧ (s.arrays[a].seq.fault.valid = false)) ∧
    (∃ (s : State) (a : ArrayId) (p : PanelId) (w : BitVec 128), (s.toIssue a opWaitc = some (p, w)) ∧ (insField w 0 25 1 = 0 ∨ s.arrays[a].cube.ops.length ≤ insField w 0 0 16) ∧ (insField w 0 24 1 = 0 ∨ s.arrays[a].vec.launches.length ≤ insField w 0 0 16) ∧ (insField w 0 23 1 = 0 ∨ s.arrays[a].moves.length ≤ insField w 0 0 16)) ∧
    (∃ (s : State) (a : ArrayId) (p : PanelId) (w : BitVec 128), (s.toIssue a opWaitc = some (p, w)) ∧ (insField w 0 25 1 = 1) ∧ (insField w 0 0 16 < s.arrays[a].cube.ops.length)) ∧
    (∃ (s : State) (a : ArrayId) (p : PanelId) (w : BitVec 128), (s.toIssue a opLoop = some (p, w)) ∧ (s.arrays[a].seq.loops.length < 4)) ∧
    (∃ (s : State) (a : ArrayId) (p : PanelId) (w : BitVec 128), (s.toIssue a opLoop = some (p, w)) ∧ (4 ≤ s.arrays[a].seq.loops.length) ∧ (s.arrays[a].seq.fault.valid = false)) ∧
    (∃ (s : State) (a : ArrayId) (p : PanelId) (w : BitVec 128) (fr : LoopFrame) (r : List LoopFrame), (s.toIssue a opEndloop = some (p, w)) ∧ (s.arrays[a].seq.loops = fr :: r) ∧ (fr.inStep = s.arrays[a].seq.stepOpen) ∧ (1 < fr.left)) ∧
    (∃ (s : State) (a : ArrayId) (p : PanelId) (w : BitVec 128) (fr : LoopFrame) (r : List LoopFrame), (s.toIssue a opEndloop = some (p, w)) ∧ (s.arrays[a].seq.loops = fr :: r) ∧ (fr.inStep = s.arrays[a].seq.stepOpen) ∧ (fr.left ≤ 1)) ∧
    (∃ (s : State) (a : ArrayId) (p : PanelId) (w : BitVec 128), (s.toIssue a opEndloop = some (p, w)) ∧ (s.arrays[a].seq.loops = []) ∧ (s.arrays[a].seq.fault.valid = false)) ∧
    (∃ (s : State) (a : ArrayId) (p : PanelId) (w : BitVec 128), (s.toIssue a opNop = some (p, w)) ∧ (s.arrays[a].seq.singleStep = false)) ∧
    (∃ (s : State) (a : ArrayId) (p : PanelId) (w : BitVec 128) (q : QRef) (x : Taken), (s.toIssue a opEnd = some (p, w)) ∧ (s.arrays[a].quiet = true) ∧ (s.arrayOwes a = false) ∧ (s.arrays[a].seq.inv = some q) ∧ (s.taken q = some x)) :=
  ⟨⟨mapped 0 (sched id), ((mapped 0 (sched id)).readTile 0 0 .fetch 0 16).2, 0, 0, okOf [] ((mapped 0 (sched id)).readTile 0 0 .fetch 0 16).1, 0, by decide +kernel, by decide +kernel, by decide +kernel, by decide +kernel, by decide +kernel, by decide +kernel, by decide +kernel, ok_pair [] _ (by decide +kernel), by decide +kernel, by decide +kernel, by decide +kernel, by decide +kernel⟩,
   ⟨issues (opw opStep + 0) (id), 0, 0, iw (opw opStep + 0), by decide +kernel, by decide +kernel⟩,
   ⟨issues (opw opStep + (2 ^ 32 + 2 ^ 38)) (id), 0, 0, iw (opw opStep + (2 ^ 32 + 2 ^ 38)), by decide +kernel, by decide +kernel, by decide +kernel⟩,
   ⟨issues (opw opStep + 0) (id), 0, 0, iw (opw opStep + 0), by decide +kernel, by decide +kernel, by decide +kernel, by decide +kernel⟩,
   ⟨issues (opw opStepend + 0) (id), 0, 0, iw (opw opStepend + 0), by decide +kernel, by decide +kernel, by decide +kernel⟩,
   ⟨sched fun x => { x with state := seqCommitting }, (sched fun x => { x with state := seqCommitting }).modSeq 0 fun y => { y with state := seqRunning, stepOpen := false, commitSignals := [], afterStepend := true }, 0, by decide +kernel, by decide +kernel, by decide +kernel, rfl⟩,
   ⟨sched fun x => { x with state := seqCommitting }, 0, by decide +kernel, by decide +kernel, by decide +kernel, by decide +kernel, by decide +kernel⟩,
   ⟨issues (opw opSignal + 0) (fun x => { x with afterStepend := true }), issues (opw opSignal + 0) (fun x => { x with afterStepend := true }), 0, 0, iw (opw opSignal + 0), by decide +kernel, by decide +kernel, by decide +kernel, rfl⟩,
   ⟨issues (opw opSignal + 0) (id), 0, 0, iw (opw opSignal + 0), by decide +kernel, by decide +kernel, by decide +kernel⟩,
   ⟨issues (opw opWaitc + 0) (id), 0, 0, iw (opw opWaitc + 0), by decide +kernel, by decide +kernel, by decide +kernel, by decide +kernel⟩,
   ⟨(issues (opw opWaitc + 2 ^ 25) (id)).modArray 0 fun x => { x with cube := { x.cube with ops := [opOf wFold] } }, 0, 0, iw (opw opWaitc + 2 ^ 25), by decide +kernel, by decide +kernel, by decide +kernel⟩,
   ⟨issues (opw opLoop + 1) (id), 0, 0, iw (opw opLoop + 1), by decide +kernel, by decide +kernel⟩,
   ⟨issues (opw opLoop + 1) (fun x => { x with loops := List.replicate 4 { start := 0, left := 1, inStep := false } }), 0, 0, iw (opw opLoop + 1), by decide +kernel, by decide +kernel, by decide +kernel⟩,
   ⟨issues (opw opEndloop + 0) (fun x => { x with loops := [{ start := 0, left := 2, inStep := false }] }), 0, 0, iw (opw opEndloop + 0), { start := 0, left := 2, inStep := false }, [], by decide +kernel, by decide +kernel, by decide +kernel, by decide +kernel⟩,
   ⟨issues (opw opEndloop + 0) (fun x => { x with loops := [{ start := 0, left := 1, inStep := false }] }), 0, 0, iw (opw opEndloop + 0), { start := 0, left := 1, inStep := false }, [], by decide +kernel, by decide +kernel, by decide +kernel, by decide +kernel⟩,
   ⟨issues (opw opEndloop + 0) (id), 0, 0, iw (opw opEndloop + 0), by decide +kernel, by decide +kernel, by decide +kernel⟩,
   ⟨issues (opw opNop + 0) (id), 0, 0, iw (opw opNop + 0), by decide +kernel, by decide +kernel⟩,
   ⟨invoked (issues (opw opEnd + 0) (id)), 0, 0, iw (opw opEnd + 0), ⟨0, 0, 0⟩, { bits := 0, sqHead := 0 }, by decide +kernel, by decide +kernel, by decide +kernel, by decide +kernel, by decide +kernel⟩⟩

theorem witness_ScheduleLoads :
    (∃ (s s₁ : State) (a : ArrayId) (p : PanelId) (w : BitVec 128) (va : BitVec 55) (ws : List CodeWord) (j : Fin 64), (s.toIssue a opDload = some (p, w)) ∧ (va = s.arrays[a].seq.address w 25) ∧ (s.linesBusy (s.seqEng a p) .read (coverVas va (32 * (insField w 0 6 6 + 1))) = false) ∧ (s.readTile a p .read va (32 * (insField w 0 6 6 + 1)) = (.ok ws, s₁)) ∧ (((List.range (insField w 0 6 6 + 1)).find? fun i => markAt va (32 * i) 32 ws) = none) ∧ (insField w 0 0 6 + insField w 0 6 6 < 64)) ∧
    (∃ (s s₁ : State) (a : ArrayId) (p : PanelId) (w : BitVec 128) (va : BitVec 55) (ws : List CodeWord) (j : Nat), (s.toIssue a opKload = some (p, w)) ∧ (s.arrays[a].vec.launches = []) ∧ (va = s.arrays[a].seq.address w 25) ∧ (s.linesBusy (s.seqEng a p) .read (coverVas va (insField w 3 0 32)) = false) ∧ (s.readTile a p .read va (insField w 3 0 32) = (.ok ws, s₁))) ∧
    (∃ (s : State) (a : ArrayId) (p : PanelId) (w : BitVec 128), (s.toIssue a opVlaunch = some (p, w)) ∧ (s.arrays[a].vec.ctxs = []) ∧ (insField w 0 0 10 = 0)) ∧
    (∃ (s : State) (a : ArrayId) (p : PanelId) (w : BitVec 128), (s.toIssue a opVlaunch = some (p, w)) ∧ (s.arrays[a].vec.ctxs.length + (insField w 0 0 10 + 1) ≤ 1024)) ∧
    (∃ (s s₁ : State) (a : ArrayId) (p : PanelId) (w : BitVec 128) (va : BitVec 55) (ws : List CodeWord) (d : BitVec 512) (s₃ : State), (s.toIssue a opMove = some (p, w)) ∧ (va = s.arrays[a].seq.address w 25) ∧ (va.toNat % 64 = 0) ∧ (s.linesBusy (s.seqEng a p) .read (coverVas va 64) = false) ∧ (s.readTile a p .read va 64 = (.ok ws, s₁)) ∧ (markAt va 0 64 ws = false) ∧ (d = bytesWord (bytesAt va 64 ws)) ∧ (moveBad d = none) ∧ (s.arrays[a].moves = []) ∧ (moveTiles d = 1) ∧ (State.runTile ((s₁.issued a).modArray a fun x => { x with moves := [⟨s.arrays[a].nextMove, asFin 8 (insField w 0 0 3), d, 0, false, false, s.insPc a⟩], nextMove := x.nextMove + 1 }) a p s.arrays[a].nextMove (moveZero d) (moveTile d 0) = (.done 0, s₃))) ∧
    (∃ (s s₁ : State) (a : ArrayId) (p : PanelId) (w : BitVec 128) (va : BitVec 55) (ws : List CodeWord) (d : BitVec 512) (k : Nat), (s.toIssue a opMove = some (p, w)) ∧ (va = s.arrays[a].seq.address w 25) ∧ (va.toNat % 64 = 0) ∧ (s.linesBusy (s.seqEng a p) .read (coverVas va 64) = false) ∧ (s.readTile a p .read va 64 = (.ok ws, s₁)) ∧ (markAt va 0 64 ws = false) ∧ (d = bytesWord (bytesAt va 64 ws)) ∧ (moveBad d = some k) ∧ (s.arrays[a].seq.fault.valid = false)) ∧
    (∃ (s : State) (a : ArrayId) (c : Fin 8) (p : PanelId) (m : MoveOp), (s.arrays[a].panel = some p) ∧ ((s.arrays[a].moves.find? fun m => decide (m.channel = c)) = some m) ∧ ((s.arrays[a].moves.all fun m => decide (m.channel ≠ c) || m.done) = true) ∧ (s.workOwes a (.move m.serial) = false)) :=
  ⟨⟨(mapped 0 (issues (opw opDload + 0) (id))), ((mapped 0 (issues (opw opDload + 0) (id))).readTile 0 0 .read 0 (32 * (insField (iw (opw opDload + 0)) 0 6 6 + 1))).2, 0, 0, iw (opw opDload + 0), 0, okOf [] ((mapped 0 (issues (opw opDload + 0) (id))).readTile 0 0 .read 0 (32 * (insField (iw (opw opDload + 0)) 0 6 6 + 1))).1, 0, by decide +kernel, by decide +kernel, by decide +kernel, ok_pair [] _ (by decide +kernel), by decide +kernel, by decide +kernel⟩,
   ⟨(mapped 0 (issues (opw opKload + 0) (id))), ((mapped 0 (issues (opw opKload + 0) (id))).readTile 0 0 .read 0 (insField (iw (opw opKload + 0)) 3 0 32)).2, 0, 0, iw (opw opKload + 0), 0, okOf [] ((mapped 0 (issues (opw opKload + 0) (id))).readTile 0 0 .read 0 (insField (iw (opw opKload + 0)) 3 0 32)).1, 0, by decide +kernel, by decide +kernel, by decide +kernel, by decide +kernel, ok_pair [] _ (by decide +kernel)⟩,
   ⟨issues (opw opVlaunch + 0) (id), 0, 0, iw (opw opVlaunch + 0), by decide +kernel, by decide +kernel, by decide +kernel⟩,
   ⟨issues (opw opVlaunch + 0) (id), 0, 0, iw (opw opVlaunch + 0), by decide +kernel, by decide +kernel⟩,
   ⟨movesOn wMove, ((movesOn wMove).readTile 0 0 .read 0 64).2, 0, 0, iw (opw opMove), 0, okOf [] ((movesOn wMove).readTile 0 0 .read 0 64).1, wMove, _, by decide +kernel, by decide +kernel, by decide +kernel, by decide +kernel, ok_pair [] _ (by decide +kernel), by decide +kernel, by decide +kernel, by decide +kernel, by decide +kernel, by decide +kernel, pair_of (by decide +kernel)⟩,
   ⟨movesOn 0, ((movesOn 0).readTile 0 0 .read 0 64).2, 0, 0, iw (opw opMove), 0, okOf [] ((movesOn 0).readTile 0 0 .read 0 64).1, 0, 4, by decide +kernel, by decide +kernel, by decide +kernel, by decide +kernel, ok_pair [] _ (by decide +kernel), by decide +kernel, by decide +kernel, by decide +kernel, by decide +kernel⟩,
   ⟨(sched id).modArray 0 fun x => { x with moves := [⟨0, 0, 0, 0, true, false, 0⟩] }, 0, 0, 0, ⟨0, 0, 0, 0, true, false, 0⟩, by decide +kernel, by decide +kernel, by decide +kernel, by decide +kernel⟩⟩

theorem witness_ScheduleControl :
    (∃ (s : State) (id : TxId) (x : Txn) (f : FieldId) (ni : NiId) (sem : Fin 64) (inc : Byte) (slot : Fin 8) (a : ArrayId), (s.txn id = some x) ∧ (x.kind = .signal f ni sem inc slot) ∧ (x.stage = .atTarget) ∧ (s.signalArray f ni = some a) ∧ (s.isolated f ni = false) ∧ (s.arrays[a].st = 0) ∧ (s.dedupOf (fieldOfArray a) (niOfArray a) id = none) ∧ (s.tableRoom (fieldOfArray a) (niOfArray a) id = true) ∧ (s.arrays[a].seq.state ≠ seqWaiting) ∧ (s.arrays[a].seq.sems[sem].toNat + inc.toNat ≤ 65535)) ∧
    (∃ (s : State) (id : TxId) (x : Txn) (f : FieldId) (ni : NiId) (sem : Fin 64) (inc : Byte) (slot : Fin 8) (a : ArrayId) (e : DedupEntry), (s.txn id = some x) ∧ (x.kind = .signal f ni sem inc slot) ∧ (x.stage = .atTarget) ∧ (s.signalArray f ni = some a) ∧ (s.isolated f ni = false) ∧ (s.arrays[a].st = 0) ∧ (s.dedupOf (fieldOfArray a) (niOfArray a) id = some e)) ∧
    (∃ (s : State) (id : TxId) (x : Txn) (f : FieldId) (ni : NiId) (sem : Fin 64) (inc : Byte) (slot : Fin 8) (a : ArrayId), (s.txn id = some x) ∧ (x.kind = .signal f ni sem inc slot) ∧ (x.stage = .atTarget) ∧ (s.signalArray f ni = some a) ∧ (s.isolated f ni = false) ∧ (s.arrays[a].st = 0) ∧ (s.dedupOf (fieldOfArray a) (niOfArray a) id = none) ∧ (s.tableRoom (fieldOfArray a) (niOfArray a) id = true) ∧ (65535 < s.arrays[a].seq.sems[sem].toNat + inc.toNat) ∧ (s.arrays[a].seq.fault.valid = false)) ∧
    (∃ (s : State) (a : ArrayId), (s.arrays[a].seq.wdRunning = true) ∧ (s.arrays[a].seq.stepOpen = true) ∧ (s.arrays[a].seq.attempt ≠ 3) ∧ ((s.arrays[a].seq.atomic && s.arrays[a].seq.atomicIssued) = false) ∧ ((s.arrays[a].cube.acc.any fun t => decide (t.phase = .running)) = false) ∧ (s.arrays[a].seq.fault.valid = false)) ∧
    (∃ (s : State) (a : ArrayId) (q : QRef) (x : Taken), (s.arrays[a].seq.wdRunning = true) ∧ (s.arrays[a].seq.stepOpen = true) ∧ (s.arrays[a].seq.attempt = 3) ∧ ((s.arrays[a].seq.atomic && s.arrays[a].seq.atomicIssued) = false) ∧ (s.arrays[a].seq.inv = some q) ∧ (s.taken q = some x) ∧ (x.status = none)) ∧
    (∃ (s : State) (a : ArrayId), (s.arrays[a].st = 0)) ∧
    (∃ (s : State) (a : ArrayId), (s.arrays[a].st = 0) ∧ (s.arrays[a].seq.state = seqRerun) ∧ (s.arrays[a].quiet = true) ∧ (s.arrayOwes a = false)) ∧
    (∃ (s : State) (a : ArrayId), ((s.pf0Open 0 || s.pf0Open 1) = true) ∧ (s.arrays[a].st = 0) ∧ (s.arrays[a].seq.state = seqRunning) ∧ ((s.arrays[a].cube.acc.any fun t => decide (t.phase = .running)) = false)) ∧
    (∃ (s : State) (a : ArrayId), ((s.pf0Open 0 || s.pf0Open 1) = true) ∧ (s.arrays[a].st = 0) ∧ (s.arrays[a].seq.state = seqDebug) ∧ (s.arrays[a].seq.inv.isSome = true) ∧ (s.arrays[a].seq.stepOpen = true)) ∧
    (∃ (s : State) (a : ArrayId), ((s.pf0Open 0 || s.pf0Open 1) = true) ∧ (s.arrays[a].st = 0) ∧ (s.arrays[a].seq.state = seqDebug) ∧ (s.arrays[a].seq.inv.isSome = true) ∧ (s.arrays[a].seq.stepOpen = true) ∧ (s.arrays[a].seq.singleStep = false)) :=
  ⟨⟨withTxn (aSignal 1) State.reset, txId, aSignal 1, 0, 0, 0, 1, 0, 0, by decide +kernel, by decide +kernel, by decide +kernel, by decide +kernel, by decide +kernel, by decide +kernel, by decide +kernel, by decide +kernel, by decide +kernel, by decide +kernel⟩,
   ⟨(withTxn (aSignal 1) State.reset).modNet fun n => { n with dedup := [{ field := 0, ni := 0, id := txId, status := 0, data := [] }] }, txId, aSignal 1, 0, 0, 0, 1, 0, 0, { field := 0, ni := 0, id := txId, status := 0, data := [] }, by decide +kernel, by decide +kernel, by decide +kernel, by decide +kernel, by decide +kernel, by decide +kernel, by decide +kernel⟩,
   ⟨(withTxn (aSignal 1) State.reset).modSeq 0 fun x => { x with sems := vset x.sems 0 65535 }, txId, aSignal 1, 0, 0, 0, 1, 0, 0, by decide +kernel, by decide +kernel, by decide +kernel, by decide +kernel, by decide +kernel, by decide +kernel, by decide +kernel, by decide +kernel, by decide +kernel, by decide +kernel⟩,
   ⟨sched fun x => { x with wdRunning := true, stepOpen := true }, 0, by decide +kernel, by decide +kernel, by decide +kernel, by decide +kernel, by decide +kernel, by decide +kernel⟩,
   ⟨invoked (sched fun x => { x with wdRunning := true, stepOpen := true, attempt := 3 }), 0, ⟨0, 0, 0⟩, { bits := 0, sqHead := 0 }, by decide +kernel, by decide +kernel, by decide +kernel, by decide +kernel, by decide +kernel, by decide +kernel, by decide +kernel⟩,
   ⟨State.reset, 0, by decide +kernel⟩,
   ⟨sched fun x => { x with state := seqRerun }, 0, by decide +kernel, by decide +kernel, by decide +kernel, by decide +kernel⟩,
   ⟨hostOpens (sched id), 0, by decide +kernel, by decide +kernel, by decide +kernel, by decide +kernel⟩,
   ⟨hostOpens (invoked (sched fun x => { x with state := seqDebug, stepOpen := true })), 0, by decide +kernel, by decide +kernel, by decide +kernel, by decide +kernel, by decide +kernel⟩,
   ⟨hostOpens (invoked (sched fun x => { x with state := seqDebug, stepOpen := true })), 0, by decide +kernel, by decide +kernel, by decide +kernel, by decide +kernel, by decide +kernel, by decide +kernel⟩⟩

theorem witness_HostLinks :
    (∃ (s : State) (port : PortId) (rate : Fin 7) (width : Fin 17) (flit : Bool), (s.inReset = false) ∧ (s.ports[port].perst = false) ∧ (s.ports[port].l0 = false) ∧ (linkWidth width.val = true) ∧ (flitAt rate.val flit = true)) ∧
    (∃ (s : State) (port : PortId) (rate : Fin 7), (s.ports[port].l0 = true) ∧ (flitAt rate.val s.ports[port].flit = true)) ∧
    (∃ (s : State) (port : PortId), (s.ports[port].l0 = true) ∧ (s.img.status ≠ 1)) ∧
    (∃ (s : State) (port : PortId), (s.ports[port].l0 = true) ∧ (s.img.status ≠ 1)) ∧
    (∃ (s : State) (port : PortId) (k : Fin 3), (s.ports[port].l0 = true) ∧ (s.ports[port].slow = false) ∧ (s.ports[port].cfg.mayL1 k.val = true) ∧ (s.ports[port].pm.toNat < 2 + k.val)) ∧
    (∃ (s : State) (port : PortId), (s.ports[port].l0 = true) ∧ (s.ports[port].slow = false) ∧ (s.ports[port].flit = true) ∧ (s.ports[port].cfg.l0p = true) ∧ (s.ports[port].pm.toNat < 2) ∧ (4 < s.ports[port].activeWidth.toNat)) ∧
    (∃ (s : State) (port : PortId), (s.ports[port].l0 = true) ∧ (s.ports[port].pm ≠ 0)) ∧
    (∃ (s : State) (port : PortId), (s.ports[port].l0 = true) ∧ (s.intaLevel port ≠ s.ports[port].intaSent)) ∧
    (∃ (s : State) (port : PortId) (v : VfId) (k : Fin 32), (k ∈ s.ports[port].vfs[v].waitingMsix) ∧ (s.ports[port].vfs[v].bme = true) ∧ (s.ports[port].l0 = true) ∧ (s.ports[port].vfs[v].bound.isSome = true) ∧ (s.ports[port].vfs[v].resetting = false) ∧ (s.ports[port].vfs[v].msixEnable = true) ∧ (s.ports[port].vfs[v].msixMask = false) ∧ (s.ports[port].vfs[v].msix[k].masked = false)) ∧
    (∃ (s : State) (port : PortId) (v : VfId) (k : Fin 32), (k ∈ s.ports[port].vfs[v].waitingMsix) ∧ (s.ports[port].vfs[v].bme = true) ∧ (s.ports[port].l0 = true) ∧ (s.ports[port].vfs[v].bound.isSome = true) ∧ (s.ports[port].vfs[v].resetting = false) ∧ (s.ports[port].vfs[v].msixEnable = true) ∧ (s.ports[port].vfs[v].msixMask = true ∨ s.ports[port].vfs[v].msix[k].masked = true)) :=
  ⟨⟨State.reset, 0, 6, 16, true, by decide +kernel, by decide +kernel, by decide +kernel, by decide +kernel, by decide +kernel⟩,
   ⟨port fun x => { x with flit := true }, 0, 6, by decide +kernel, by decide +kernel⟩,
   ⟨port id, 0, by decide +kernel, by decide +kernel⟩,
   ⟨port id, 0, by decide +kernel, by decide +kernel⟩,
   ⟨port fun x => { x with cfg := { x.cfg with aspmL1 := true } }, 0, 0, by decide +kernel, by decide +kernel, by decide +kernel, by decide +kernel⟩,
   ⟨port fun x => { x with flit := true, cfg := { x.cfg with l0p := true }, activeWidth := 16 }, 0, by decide +kernel, by decide +kernel, by decide +kernel, by decide +kernel, by decide +kernel, by decide +kernel⟩,
   ⟨port fun x => { x with pm := 1 }, 0, by decide +kernel, by decide +kernel⟩,
   ⟨port fun x => { x with irqStatus := 2, irqEnable := 2 }, 0, by decide +kernel, by decide +kernel⟩,
   ⟨vfUp fun v => { v with bme := true, waitingMsix := [0], msixEnable := true, msix := vset v.msix 0 { v.msix[0] with masked := false } }, 0, 0, 0, by decide +kernel, by decide +kernel, by decide +kernel, by decide +kernel, by decide +kernel, by decide +kernel, by decide +kernel, by decide +kernel⟩,
   ⟨vfUp fun v => { v with bme := true, waitingMsix := [0], msixEnable := true, msix := vset v.msix 0 { v.msix[0] with masked := true } }, 0, 0, 0, by decide +kernel, by decide +kernel, by decide +kernel, by decide +kernel, by decide +kernel, by decide +kernel, by decide +kernel⟩⟩

theorem witness_HostAccess :
    (∃ (s s₁ : State) (port : PortId) (v : VfId) (off : Word) (tee : Bool) (n : Nat) (p : PanelId) (rs : List Reply), (s.ports[port].l0 = true) ∧ (s.vfLive port v = true) ∧ (s.vfDust port v = false) ∧ (s.teeRefused port v tee = false) ∧ (s.postedWaits port = false) ∧ (0 < n ∧ n ≤ 4096 ∧ off.toNat + n ≤ 2 ^ 32) ∧ (s.ports[port].vfs[v].bound = some p) ∧ (s.plainBusy (portEng port p s.ports[port].vfs[v].tint) .read (coverVas (s.ports[port].vfs[v].apertureVa off) n) = false) ∧ (s.readPlainVas (portEng port p s.ports[port].vfs[v].tint) .read (coverVas (s.ports[port].vfs[v].apertureVa off) n) = (.ok rs, s₁)) ∧ (worstStatus rs = 0)) ∧
    (∃ (s : State) (port : PortId) (v : VfId) (off : Word) (tee : Bool) (n : Nat), (s.ports[port].l0 = true) ∧ (0 < n ∧ n ≤ 4096 ∧ off.toNat + n ≤ 2 ^ 32) ∧ ((s.vfLive port v && !s.vfDust port v && !s.teeRefused port v tee) = false)) ∧
    (∃ (s s₁ : State) (port : PortId) (v : VfId) (off : Word) (tee mark : Bool) (bs : List Byte) (p : PanelId), (s.ports[port].l0 = true) ∧ (s.vfLive port v = true) ∧ (s.vfDust port v = false) ∧ (s.teeRefused port v tee = false) ∧ (s.postedWaits port = false) ∧ (0 < bs.length ∧ bs.length ≤ 512 ∧ off.toNat + bs.length ≤ 2 ^ 32) ∧ (off.toNat % 64 = 0 ∧ bs.length % 64 = 0) ∧ (s.ports[port].vfs[v].bound = some p) ∧ (s.plainBusy (portEng port p s.ports[port].vfs[v].tint) .write (runVas (s.ports[port].vfs[v].apertureVa off) (bs.length / 64)) = false) ∧ (s.bar2Words port p (portEng port p s.ports[port].vfs[v].tint) ((runVas (s.ports[port].vfs[v].apertureVa off) (bs.length / 64)).zip ((toWords (bs.length / 64) bs).map fun d => ⟨d, mark⟩)) = some s₁)) ∧
    (∃ (s : State) (port : PortId) (v : VfId) (off : Word) (tee mark : Bool) (bs : List Byte) (p : PanelId), (s.ports[port].l0 = true) ∧ (s.vfLive port v = true) ∧ (s.vfDust port v = false) ∧ (s.teeRefused port v tee = false) ∧ (s.postedWaits port = false) ∧ (0 < bs.length ∧ bs.length ≤ 512 ∧ off.toNat + bs.length ≤ 2 ^ 32) ∧ (off.toNat % 64 ≠ 0 ∨ bs.length % 64 ≠ 0) ∧ (s.ports[port].vfs[v].bound = some p) ∧ (s.ras.mlog.length < 1024)) ∧
    (∃ (s : State) (port : PortId) (posted : Bool), (s.ports[port].l0 = true) ∧ (s.ras.flog.length < 1024)) :=
  ⟨⟨aperture0, apReads.2, 0, 0, 0, false, 64, 0, okOf [] apReads.1, by decide +kernel, by decide +kernel, by decide +kernel, by decide +kernel, by decide +kernel, by decide +kernel, by decide +kernel, by decide +kernel, ok_pair [] apReads (by decide +kernel), by decide +kernel⟩,
   ⟨port id, 0, 0, 0, false, 64, by decide +kernel, by decide +kernel, by decide +kernel⟩,
   ⟨aperture0, apWrites.getD aperture0, 0, 0, 0, false, false, List.replicate 64 1, 0, by decide +kernel, by decide +kernel, by decide +kernel, by decide +kernel, by decide +kernel, by decide +kernel, by decide +kernel, by decide +kernel, by decide +kernel, some_getD _ _ (by decide +kernel)⟩,
   ⟨vfUp id, 0, 0, 0, false, false, [1], 0, by decide +kernel, by decide +kernel, by decide +kernel, by decide +kernel, by decide +kernel, by decide +kernel, by decide +kernel, by decide +kernel, by decide +kernel⟩,
   ⟨port id, 0, true, by decide +kernel, by decide +kernel⟩⟩

theorem witness_HostResets :
    (∃ (s : State) (port : PortId) (v : VfId), (s.stage = 4) ∧ (s.vfThere port v = true)) ∧
    (∃ (s : State) (port : PortId) (v : VfId), (s.stage = 4) ∧ (s.vfThere port v = true) ∧ (s.ports[port].vfs[v].resetting = false) ∧ (s.vfDust port v = false)) ∧
    (∃ (s : State) (port : PortId) (v : VfId), (s.ports[port].vfs[v].resetting = true) ∧ (s.ports[port].vfs[v].bound = none)) ∧
    (∃ (s : State) (port : PortId) (v : VfId) (p : PanelId), (s.ports[port].vfs[v].resetting = true) ∧ (s.ports[port].vfs[v].bound = some p) ∧ (s.panelStill p = true) ∧ (s.pnl.panels[p].state = 3)) ∧
    (∃ (s : State) (port : PortId) (v : VfId), (s.stage = 4) ∧ (s.vfThere port v = true) ∧ (s.ports[port].vfs[v].resetting = false) ∧ (s.ports[port].vfs[v].bme = true) ∧ (s.vfDust port v = false)) ∧
    (∃ (s : State) (port : PortId) (v : VfId), (s.stage = 4) ∧ (s.vfThere port v = true) ∧ (s.ports[port].vfs[v].resetting = false) ∧ (s.ports[port].vfs[v].bme = false)) ∧
    (∃ (s : State) (port : PortId) (v : VfId), (s.stage = 4) ∧ (s.vfThere port v = true) ∧ (s.ports[port].vfs[v].resetting = true)) ∧
    (∃ (s : State) (port : PortId), (s.ports[port].l0 = true) ∧ (s.stage = 4) ∧ (s.ports[port].vfEnable = true)) ∧
    (∃ (s : State) (port : PortId), (s.ports[port].l0 = true) ∧ (s.stage = 4)) ∧
    (∃ (s : State) (port : PortId) (v : VfId), (s.stage = 4) ∧ (s.vfThere port v = true) ∧ (s.ports[port].vfs[v].resetting = false) ∧ (s.ports[port].vfs[v].d3hot = false) ∧ (s.vfDust port v = false)) ∧
    (∃ (s : State) (port : PortId), (s.ports[port].l0 = true) ∧ (s.stage = 4)) ∧
    (∃ (s : State) (port : PortId) (n : BitVec 16), (s.ports[port].l0 = true) ∧ (s.stage = 4) ∧ (s.ports[port].vfEnable = false)) ∧
    (∃ (s : State) (port : PortId), (s.pins.perstN[port] = true) ∧ (s.inReset = false) ∧ (s.img.status ≠ 1)) ∧
    (∃ (s : State) (port : PortId), (s.pins.perstN[port] = false)) :=
  ⟨⟨vfUp id, 0, 0, by decide +kernel, by decide +kernel⟩,
   ⟨vfUp id, 0, 0, by decide +kernel, by decide +kernel, by decide +kernel, by decide +kernel⟩,
   ⟨port fun x => { x with vfs := vset x.vfs 0 { resetting := true } }, 0, 0, by decide +kernel, by decide +kernel⟩,
   ⟨panelAs (fun x => { x with state := 3 }) (vfUp fun v => { v with resetting := true }), 0, 0, 0, by decide +kernel, by decide +kernel, by decide +kernel, by decide +kernel⟩,
   ⟨vfUp fun v => { v with bme := true }, 0, 0, by decide +kernel, by decide +kernel, by decide +kernel, by decide +kernel, by decide +kernel⟩,
   ⟨vfUp id, 0, 0, by decide +kernel, by decide +kernel, by decide +kernel, by decide +kernel⟩,
   ⟨vfUp fun v => { v with resetting := true }, 0, 0, by decide +kernel, by decide +kernel, by decide +kernel⟩,
   ⟨vfUp id, 0, by decide +kernel, by decide +kernel, by decide +kernel⟩,
   ⟨port id, 0, by decide +kernel, by decide +kernel⟩,
   ⟨vfUp id, 0, 0, by decide +kernel, by decide +kernel, by decide +kernel, by decide +kernel, by decide +kernel⟩,
   ⟨port id, 0, by decide +kernel, by decide +kernel⟩,
   ⟨port id, 0, 3, by decide +kernel, by decide +kernel, by decide +kernel⟩,
   ⟨State.reset, 0, by decide +kernel, by decide +kernel, by decide +kernel⟩,
   ⟨{ State.reset with pins := { State.reset.pins with perstN := vset State.reset.pins.perstN 0 false } }, 0, by decide +kernel⟩⟩

theorem witness_HostSecurity :
    (∃ (s : State) (port : PortId) (k : Fin 9) (key : BitVec 256), (s.ports[port].l0 = true) ∧ (s.ports[port].session.isSome = true)) ∧
    (∃ (s : State) (port : PortId) (req : SpdmReq) (bs : List Byte), (s.ports[port].l0 = true) ∧ (s.stage = 4) ∧ (s.spdmReply port req = some bs)) ∧
    (∃ (s : State) (port : PortId) (id : BitVec 32) (key : BitVec 776), (s.ports[port].l0 = true) ∧ (s.stage = 4)) ∧
    (∃ (s : State) (port : PortId) (req : SpdmReq), (s.ports[port].l0 = true) ∧ (s.stage = 4) ∧ (s.spdmReply port req = none)) ∧
    (∃ (s : State) (port : PortId) (v : VfId), (s.vfThere port v = true) ∧ (s.ports[port].session.isSome = true) ∧ (s.ports[port].vfs[v].tdi = 0) ∧ (s.ports[port].vfs[v].bound.isSome = true) ∧ (s.ports[port].vfs[v].resetting = false) ∧ (s.vfDust port v = false)) ∧
    (∃ (s : State) (port : PortId) (v : VfId) (key : BitVec 384) (p : PanelId), (s.vfThere port v = true) ∧ (s.ports[port].session.isSome = true) ∧ (s.ports[port].vfs[v].lockSession = s.ports[port].session) ∧ (s.ports[port].vfs[v].tdi = 1) ∧ (s.ports[port].vfs[v].bound = some p) ∧ (s.pnl.panels[p].authKey = none) ∧ (s.pnl.panels[p].sealed_ = true)) ∧
    (∃ (s : State) (port : PortId) (v : VfId) (p : PanelId), (s.vfThere port v = true) ∧ (s.ports[port].session.isSome = true) ∧ (s.ports[port].vfs[v].lockSession = s.ports[port].session) ∧ (s.ports[port].vfs[v].tdi = 1) ∧ (s.ports[port].vfs[v].bound = some p) ∧ (s.pnl.panels[p].authKey.isSome = true) ∧ (s.pnl.panels[p].fill = false) ∧ (s.pnl.panels[p].state = 2)) ∧
    (∃ (s : State) (port : PortId) (v : VfId), (s.vfThere port v = true) ∧ (s.ports[port].session = none)) ∧
    (∃ (s : State) (port : PortId) (v : VfId) (e : TdiEvent) (p : PanelId), (s.stage = 4) ∧ (s.vfThere port v = true) ∧ (s.ports[port].vfs[v].tdi = 1 ∨ s.ports[port].vfs[v].tdi = 2) ∧ (s.ports[port].vfs[v].bound = some p) ∧ (s.pnl.panels[p].sealed_ = true) ∧ (s.pnl.panels[p].state = 2 ∨ s.pnl.panels[p].state = 3)) ∧
    (∃ (s : State) (port : PortId) (v : VfId) (p : PanelId), (s.vfThere port v = true) ∧ (s.ports[port].vfs[v].bound = some p) ∧ (s.pnl.panels[p].state = 3)) :=
  ⟨⟨port fun x => { x with session := some 1 }, 0, 0, 5, by decide +kernel, by decide +kernel⟩,
   ⟨port id, 0, .getVersion, [0x12, 0x13], by decide +kernel, by decide +kernel, by decide +kernel⟩,
   ⟨port id, 0, 1, 0, by decide +kernel, by decide +kernel⟩,
   ⟨port id, 0, .endSession 1, by decide +kernel, by decide +kernel, by decide +kernel⟩,
   ⟨port fun x => { x with session := some 1, vfEnable := true, numVfs := 40, vfs := vset x.vfs 0 { bound := some 0, tdi := 0 } }, 0, 0, by decide +kernel, by decide +kernel, by decide +kernel, by decide +kernel, by decide +kernel, by decide +kernel⟩,
   ⟨panelAs (fun x => { x with sealed_ := true }) (port fun x => { x with session := some 1, vfEnable := true, numVfs := 40, vfs := vset x.vfs 0 { bound := some 0, lockSession := some 1, tdi := 1 } }), 0, 0, 5, 0, by decide +kernel, by decide +kernel, by decide +kernel, by decide +kernel, by decide +kernel, by decide +kernel, by decide +kernel⟩,
   ⟨panelAs (fun x => { x with authKey := some 5, state := 2 }) (port fun x => { x with session := some 1, vfEnable := true, numVfs := 40, vfs := vset x.vfs 0 { bound := some 0, lockSession := some 1, tdi := 1 } }), 0, 0, 0, by decide +kernel, by decide +kernel, by decide +kernel, by decide +kernel, by decide +kernel, by decide +kernel, by decide +kernel, by decide +kernel⟩,
   ⟨vfUp id, 0, 0, by decide +kernel, by decide +kernel⟩,
   ⟨panelAs (fun x => { x with sealed_ := true, state := 2 }) (port fun x => { x with session := some 1, vfEnable := true, numVfs := 40, vfs := vset x.vfs 0 { bound := some 0, lockSession := some 1, tdi := 1 } }), 0, 0, .barChange, 0, by decide +kernel, by decide +kernel, by decide +kernel, by decide +kernel, by decide +kernel, by decide +kernel⟩,
   ⟨panelAs (fun x => { x with state := 3 }) (vfUp id), 0, 0, 0, by decide +kernel, by decide +kernel, by decide +kernel⟩⟩

theorem witness_HostQueues :
    (∃ (s : State) (port : PortId) (v : VfId) (q : QueueId) (x : Word), (s.vfLive port v = true) ∧ (s.vfDust port v = false) ∧ (s.ports[port].vfs[v].bound.isSome = true) ∧ ((x.setWidth 12 : BitVec 12).toNat < s.ports[port].vfs[v].queues[q].sqSize)) ∧
    (∃ (s : State) (port : PortId) (v : VfId) (q : QueueId) (x : Word), (s.vfLive port v = true) ∧ (s.vfDust port v = false) ∧ (s.ports[port].vfs[v].bound.isSome = true) ∧ (s.ports[port].vfs[v].queues[q].sqSize ≤ (x.setWidth 12 : BitVec 12).toNat) ∧ (s.ras.flog.length < 1024)) ∧
    (∃ (s : State) (port : PortId) (v : VfId) (q : QueueId) (x : Word), (s.vfLive port v = true) ∧ (s.vfDust port v = false) ∧ (s.ports[port].vfs[v].bound.isSome = true) ∧ ((x.setWidth 12 : BitVec 12).toNat < s.ports[port].vfs[v].queues[q].cqSize)) ∧
    (∃ (s : State) (port : PortId) (v : VfId) (q : QueueId) (x : Word), (s.vfLive port v = true) ∧ (s.vfDust port v = false) ∧ (s.ports[port].vfs[v].bound.isSome = true) ∧ (s.ports[port].vfs[v].queues[q].enable = false) ∧ (bit x 31 = true)) ∧
    (∃ (s : State) (port : PortId) (v : VfId) (q : QueueId) (x : Word), (s.vfLive port v = true) ∧ (s.vfDust port v = false) ∧ (s.ports[port].vfs[v].bound.isSome = true) ∧ (s.ports[port].vfs[v].queues[q].enable = true)) ∧
    (∃ (s : State) (port : PortId) (v : VfId) (q : QueueId) (x : Word), (s.vfLive port v = true) ∧ (s.vfDust port v = false) ∧ (s.ports[port].vfs[v].bound.isSome = true) ∧ (s.ports[port].vfs[v].queues[q].enable = true) ∧ (bit x 31 = false) ∧ (s.ports[port].vfs[v].queues[q].taken = none)) ∧
    (∃ (s : State) (port : PortId) (v : VfId) (q : QueueId) (x : Word), (s.vfLive port v = true) ∧ (s.vfDust port v = false) ∧ (s.ports[port].vfs[v].bound.isSome = true) ∧ (s.ports[port].vfs[v].queues[q].enable = false) ∧ (bit x 31 = false)) :=
  ⟨⟨queueUp id, 0, 0, 0, 1, by decide +kernel, by decide +kernel, by decide +kernel, by decide +kernel⟩,
   ⟨queueUp id, 0, 0, 0, 4095, by decide +kernel, by decide +kernel, by decide +kernel, by decide +kernel, by decide +kernel⟩,
   ⟨queueUp id, 0, 0, 0, 1, by decide +kernel, by decide +kernel, by decide +kernel, by decide +kernel⟩,
   ⟨queueUp id, 0, 0, 0, 2 ^ 31, by decide +kernel, by decide +kernel, by decide +kernel, by decide +kernel, by decide +kernel⟩,
   ⟨queueUp fun q => { q with enable := true }, 0, 0, 0, 2 ^ 31, by decide +kernel, by decide +kernel, by decide +kernel, by decide +kernel⟩,
   ⟨queueUp fun q => { q with enable := true }, 0, 0, 0, 0, by decide +kernel, by decide +kernel, by decide +kernel, by decide +kernel, by decide +kernel, by decide +kernel⟩,
   ⟨queueUp id, 0, 0, 0, 0, by decide +kernel, by decide +kernel, by decide +kernel, by decide +kernel, by decide +kernel⟩⟩

theorem witness_QueueCommands :
    (∃ (s : State) (port : PortId) (v : VfId) (q : QueueId) (e : Ahead) (r : List Ahead) (b : BitVec 1024), (e :: r = s.ports[port].vfs[v].queues[q].ahead) ∧ (s.ports[port].vfs[v].queues[q].mayTake = true) ∧ (s.queuesHeld ⟨port, v, q⟩ = false) ∧ (e.entry = .ready b) ∧ (wordOf b 1 = s.ports[port].vfs[v].queues[q].expected) ∧ (commandBad b (s.vfOpen port v) = none)) ∧
    (∃ (s : State) (port : PortId) (v : VfId) (q : QueueId) (e : Ahead) (r : List Ahead) (b : BitVec 1024) (st : Byte), (e :: r = s.ports[port].vfs[v].queues[q].ahead) ∧ (s.ports[port].vfs[v].queues[q].mayTake = true) ∧ (s.queuesHeld ⟨port, v, q⟩ = false) ∧ (e.entry = .ready b) ∧ (wordOf b 1 = s.ports[port].vfs[v].queues[q].expected) ∧ (commandBad b (s.vfOpen port v) = some st)) ∧
    (∃ (s : State) (port : PortId) (v : VfId) (q : QueueId) (e : Ahead) (r : List Ahead) (b : BitVec 1024), (e :: r = s.ports[port].vfs[v].queues[q].ahead) ∧ (s.ports[port].vfs[v].queues[q].mayTake = true) ∧ (s.queuesHeld ⟨port, v, q⟩ = false) ∧ (e.entry = .ready b) ∧ (256 < (s.ports[port].vfs[v].queues[q].expected - wordOf b 1).toNat)) ∧
    (∃ (s : State) (port : PortId) (v : VfId) (q : QueueId) (e : Ahead) (r : List Ahead) (b : BitVec 1024) (h : HistEntry) (c : Completion), (e :: r = s.ports[port].vfs[v].queues[q].ahead) ∧ (s.ports[port].vfs[v].queues[q].mayTake = true) ∧ (s.queuesHeld ⟨port, v, q⟩ = false) ∧ (e.entry = .ready b) ∧ (0 < (s.ports[port].vfs[v].queues[q].expected - wordOf b 1).toNat ∧ (s.ports[port].vfs[v].queues[q].expected - wordOf b 1).toNat ≤ 256) ∧ ((s.ports[port].vfs[v].queues[q].hist.find? fun h => decide (h.seq = wordOf b 1)) = some h) ∧ (h.comp = some c) ∧ (s.ports[port].vfs[v].queues[q].comps = [])) ∧
    (∃ (s : State) (port : PortId) (v : VfId) (q : QueueId) (c : PendingComp) (r : List PendingComp), (s.ports[port].vfs[v].queues[q].comps = c :: r) ∧ (c.epoch = none) ∧ (s.ports[port].vfs[v].queues[q].cqFull = false) ∧ (s.maySend ⟨port, v, q⟩ = true) ∧ (s.ports[port].vfs[v].resetting = false)) ∧
    (∃ (s : State) (port : PortId) (v : VfId) (q : QueueId) (y : Ahead), (s.ports[port].vfs[v].queues[q].ahead = [y]) ∧ (y.entry = .reading 1) ∧ (s.entryInFlight ⟨port, v, q⟩ y.index = false) ∧ (s.queuesHeld ⟨port, v, q⟩ = false) ∧ (s.maySend ⟨port, v, q⟩ = true) ∧ (s.mayRead port = true)) :=
  ⟨⟨ahead (cmdWord opNopCmd) id, 0, 0, 0, entry (cmdWord opNopCmd), [], cmdWord opNopCmd, by decide +kernel, by decide +kernel, by decide +kernel, by decide +kernel, by decide +kernel, by decide +kernel⟩,
   ⟨ahead (cmdWord 0xEE) id, 0, 0, 0, entry (cmdWord 0xEE), [], cmdWord 0xEE, 1, by decide +kernel, by decide +kernel, by decide +kernel, by decide +kernel, by decide +kernel, by decide +kernel⟩,
   ⟨ahead (cmdWith 0 (2 ^ 32)) id, 0, 0, 0, entry (cmdWith 0 (2 ^ 32)), [], cmdWith 0 (2 ^ 32), by decide +kernel, by decide +kernel, by decide +kernel, by decide +kernel, by decide +kernel⟩,
   ⟨ahead 0 (fun q => { q with expected := 1, hist := [{ seq := 0, comp := some { cstatus := 0 } }] }), 0, 0, 0, entry 0, [], 0, { seq := 0, comp := some { cstatus := 0 } }, { cstatus := 0 }, by decide +kernel, by decide +kernel, by decide +kernel, by decide +kernel, by decide +kernel, by decide +kernel, by decide +kernel, by decide +kernel⟩,
   ⟨vfUp fun v => { v with bme := true, queues := vset v.queues 0 { comps := [{ comp := { cstatus := 0 }, epoch := none }] } }, 0, 0, 0, { comp := { cstatus := 0 }, epoch := none }, [], by decide +kernel, by decide +kernel, by decide +kernel, by decide +kernel, by decide +kernel⟩,
   ⟨vfUp fun v => { v with bme := true, queues := vset v.queues 0 { ahead := [{ index := 0, entry := .reading 1 }] } }, 0, 0, 0, { index := 0, entry := .reading 1 }, by decide +kernel, by decide +kernel, by decide +kernel, by decide +kernel, by decide +kernel, by decide +kernel⟩⟩

theorem witness_Invocations :
    (∃ (s s₁ s₂ : State) (port : PortId) (v : VfId) (q : QueueId) (x : Taken) (p : PanelId) (e : Eng) (a tb : BitVec 55) (bs : List Byte) (d : BitVec 1024) (rs : List StartOut) (ns : List Nat), (s.fresh ⟨port, v, q⟩ opInvoke = some x) ∧ (s.qPanel ⟨port, v, q⟩ = some p) ∧ (s.queuesHeld ⟨port, v, q⟩ = false) ∧ (a = BitVec.ofNat 55 (fld x.bits.toNat 128 55)) ∧ (e = s.startEng port p (asFin 16 (fld x.bits.toNat 19 4))) ∧ (a.toNat % 128 = 0 ∧ fld x.bits.toNat 192 55 % 64 = 0) ∧ (s.plainBusy e .read (coverVas a 128) = false) ∧ (s.startRead e p a 128 = (.bytes bs, s₁)) ∧ (d = BitVec.ofNat 1024 (natOf bs)) ∧ (s₁.opdescStatus p d = none) ∧ (tb = BitVec.ofNat 55 (fld d.toNat 160 55)) ∧ (s₁.plainBusy e .read (coverVas tb (16 * (maskArrays d).length)) = false) ∧ (s₁.readEntries e p ((List.range (maskArrays d).length).map fun i => tb + BitVec.ofNat 55 (16 * i)) = (rs, s₂)) ∧ (entriesOut rs = .ok ns) ∧ (s₂.taken ⟨port, v, q⟩ = some x)) ∧
    (∃ (s : State) (port : PortId) (v : VfId) (q : QueueId) (x : Taken) (p : PanelId), (s.fresh ⟨port, v, q⟩ opInvoke = some x) ∧ (s.qPanel ⟨port, v, q⟩ = some p) ∧ (s.queuesHeld ⟨port, v, q⟩ = false) ∧ (fld x.bits.toNat 128 55 % 128 ≠ 0 ∨ fld x.bits.toNat 192 55 % 64 ≠ 0) ∧ (x.started = none) ∧ (x.noCompletion = false)) ∧
    (∃ (s : State) (port : PortId) (v : VfId) (q : QueueId) (x : Taken) (p : PanelId) (n : Fin 40) (a : ArrayId) (pc : BitVec 55), (s.taken ⟨port, v, q⟩ = some x) ∧ (s.qPanel ⟨port, v, q⟩ = some p) ∧ (cmdOp x.bits = opInvoke) ∧ (x.phase = .waiting) ∧ (s.queuesHeld ⟨port, v, q⟩ = false) ∧ (s.inDust p = false) ∧ (x.arrays = [n]) ∧ (x.entries = [pc]) ∧ (s.arrayOf p n.val = some a) ∧ (s.arrays[a].seq.inv = none) ∧ (s.arrays[a].st = 0) ∧ (s.earlierWaits ⟨port, v, q⟩ x = false) ∧ (x.siteMask &&& s.pnl.panels[p].slotHold = 0)) ∧
    (∃ (s : State) (port : PortId) (v : VfId) (q : QueueId) (x : Taken) (p : PanelId) (n : Nat), (s.taken ⟨port, v, q⟩ = some x) ∧ (s.qPanel ⟨port, v, q⟩ = some p) ∧ (s.pnl.panels[p].twin = none) ∧ (x.phase = .running ∨ x.phase = .ending) ∧ (x.started = some n) ∧ (x.noCompletion = false) ∧ (((s.invArrays ⟨port, v, q⟩).any fun a => !s.arrayOver x a || s.arrayWrites a) = false) ∧ (x.former.any s.arrayWrites = false)) ∧
    (∃ (s : State) (port : PortId) (v : VfId) (q : QueueId) (x : Taken), (s.taken ⟨port, v, q⟩ = some x) ∧ (x.phase = .running) ∧ (x.timerOn = true) ∧ (x.status = none)) ∧
    (∃ (s : State) (port : PortId) (v : VfId) (q : QueueId) (x y : Taken) (k : QueueId) (n : Nat), (s.fresh ⟨port, v, q⟩ opAbort = some x) ∧ (k = asFin 16 (fld x.bits.toNat 288 4)) ∧ (k ≠ q) ∧ (s.taken ⟨port, v, k⟩ = some y) ∧ (cmdOp y.bits = opInvoke) ∧ (wordOf y.bits 1 = wordOf x.bits 10) ∧ (y.started = some n) ∧ (y.status = none)) ∧
    (∃ (s : State) (port : PortId) (v : VfId) (q : QueueId) (x : Taken), (s.fresh ⟨port, v, q⟩ opAbort = some x) ∧ ((s.taken ⟨port, v, asFin 16 (fld x.bits.toNat 288 4)⟩).all (fun y => decide (cmdOp y.bits ≠ opInvoke) || decide (wordOf y.bits 1 ≠ wordOf x.bits 10)) = true) ∧ (x.noCompletion = false)) ∧
    (∃ (s : State) (port : PortId) (v : VfId) (q : QueueId) (x : Taken), (s.fresh ⟨port, v, q⟩ opNopCmd = some x) ∧ (x.noCompletion = false)) ∧
    (∃ (s : State) (n : SiteId) (tag : Byte) (m : Fin 64) (sem : Fin 64) (inc : Byte) (b : Binding) (a : ArrayId), (s.bindingOf n tag = some b) ∧ (s.arrayOf b.panel m.val = some a) ∧ (s.arrays[a].seq.state ≠ seqWaiting) ∧ (s.arrays[a].seq.sems[sem].toNat + inc.toNat ≤ 65535)) :=
  ⟨⟨invoking, opdescRead.2, entriesRead.2, 0, 0, 0, taken0 opInvoke, 0, invEng, 0, 128, startBytes opdescRead.1, opdesc0, entriesRead.1, [0], by decide +kernel, by decide +kernel, by decide +kernel, by decide +kernel, by decide +kernel, by decide +kernel, by decide +kernel, opdesc_read, by decide +kernel, by decide +kernel, by decide +kernel, by decide +kernel, entries_read, by decide +kernel, by decide +kernel⟩,
   ⟨taking { bits := cmdWith opInvoke (2 ^ 128), sqHead := 0 }, 0, 0, 0, { bits := cmdWith opInvoke (2 ^ 128), sqHead := 0 }, 0, by decide +kernel, by decide +kernel, by decide +kernel, by decide +kernel, by decide +kernel, by decide +kernel⟩,
   ⟨panelAs (fun x => { x with arrays := [some 0] }) (taking waiting0), 0, 0, 0, waiting0, 0, 0, 0, 0, by decide +kernel, by decide +kernel, by decide +kernel, by decide +kernel, by decide +kernel, by decide +kernel, by decide +kernel, by decide +kernel, by decide +kernel, by decide +kernel, by decide +kernel, by decide +kernel, by decide +kernel⟩,
   ⟨taking running0, 0, 0, 0, running0, 0, 0, by decide +kernel, by decide +kernel, by decide +kernel, by decide +kernel, by decide +kernel, by decide +kernel, by decide +kernel, by decide +kernel⟩,
   ⟨taking running0, 0, 0, 0, running0, by decide +kernel, by decide +kernel, by decide +kernel, by decide +kernel⟩,
   ⟨aborting true, 0, 0, 0, { bits := cmdWith opAbort (2 ^ 288), sqHead := 0 }, running0, 1, 0, by decide +kernel, by decide +kernel, by decide +kernel, by decide +kernel, by decide +kernel, by decide +kernel, by decide +kernel, by decide +kernel⟩,
   ⟨aborting false, 0, 0, 0, { bits := cmdWith opAbort (2 ^ 288), sqHead := 0 }, by decide +kernel, by decide +kernel, by decide +kernel⟩,
   ⟨taking (taken0 opNopCmd), 0, 0, 0, taken0 opNopCmd, by decide +kernel, by decide +kernel⟩,
   ⟨bound0 State.reset, 0, 1, 0, 0, 1, engineBound, 0, by decide +kernel, by decide +kernel, by decide +kernel, by decide +kernel⟩⟩

theorem witness_FaultRing :
    (∃ (s s₁ : State) (a : ArrayId) (va : BitVec 55) (p : PanelId) (o : CubeOp) (i : Nat) (x : Part) (w : BitVec 55) (f : TransFault), (s.arrays[a].panel = some p) ∧ ((s.arrays[a].cube.ops.find? fun o => decide (o.drained < o.started)) = some o) ∧ (((List.range (o.parts (s.arrays[a].cube.shape o.word) o.drained).length).zip (o.parts (s.arrays[a].cube.shape o.word) o.drained)).find? (fun y => y.2.vas.any fun w => decide (w.toNat / 65536 = va.toNat / 65536)) = some (i, x)) ∧ ((x.vas.find? fun w => decide (w.toNat / 65536 = va.toNat / 65536)) = some w) ∧ (s.translate (s.arrayAgent a 0) (.array a) p (s.tintOf a) w x.access = (.error f, s₁))) ∧
    (∃ (s : State) (p : PanelId) (port : PortId) (v : VfId) (i : FaultInfo) (r : List FaultInfo), (s.pnl.panels[p].ring.arrivals = i :: r) ∧ (s.pnl.panels[p].ring.stopped = false) ∧ (s.ringOf p = some (port, v)) ∧ (s.ringSends port v = true) ∧ (s.ports[port].vfs[v].fringEnable = true) ∧ (s.ports[port].vfs[v].ringHeld < s.ports[port].vfs[v].ringSize) ∧ (i.stalls = false)) ∧
    (∃ (s : State) (p : PanelId) (port : PortId) (v : VfId) (i : FaultInfo) (r : List FaultInfo) (k : BitVec 16), (s.pnl.panels[p].ring.arrivals = i :: r) ∧ (s.pnl.panels[p].ring.stopped = false) ∧ (s.ringOf p = some (port, v)) ∧ (s.ringSends port v = true) ∧ (s.ports[port].vfs[v].fringEnable = true) ∧ (s.ports[port].vfs[v].ringHeld < s.ports[port].vfs[v].ringSize) ∧ (i.stalls = true) ∧ (k = nextToken (s.pnl.panels[p].ring.stalled.filterMap (fun x => x.token)) ((s.pnl.panels[p].ring.stalled.filterMap (fun x => x.token)).length + 1) s.pnl.panels[p].ring.lastToken)) ∧
    (∃ (s : State) (port : PortId) (v : VfId) (x : Word) (p : PanelId), (s.vfLive port v = true) ∧ (s.vfDust port v = false) ∧ (s.ports[port].vfs[v].bound = some p) ∧ (s.pnl.panels[p].ring.heldRecords = []) ∧ ((s.ports[port].vfs[v].tail - x).toNat ≤ s.ports[port].vfs[v].ringSize)) ∧
    (∃ (s : State) (port : PortId) (v : VfId) (x : Word) (p : PanelId), (s.vfLive port v = true) ∧ (s.vfDust port v = false) ∧ (s.ports[port].vfs[v].bound = some p) ∧ (s.pnl.panels[p].ring.heldRecords = []) ∧ (s.ports[port].vfs[v].fringEnable = false) ∧ (bit x 31 = true)) ∧
    (∃ (s : State) (port : PortId) (v : VfId) (x : Word), (s.vfLive port v = true) ∧ (s.vfDust port v = false) ∧ (s.ports[port].vfs[v].bound.isSome = true)) ∧
    (∃ (s : State) (port : PortId) (v : VfId) (x : Word) (p : PanelId) (i : FaultInfo) (a : ArrayId), (s.vfLive port v = true) ∧ (s.vfDust port v = false) ∧ (s.ports[port].vfs[v].bound = some p) ∧ (bit x 31 = false) ∧ (fld x.toNat 16 2 = 0) ∧ (s.pnl.panels[p].ring.stalled = [⟨i, some (slice x 15 0)⟩]) ∧ (i.key.engine = 3) ∧ (a = asFin 40 i.key.phys.toNat)) ∧
    (∃ (s : State) (port : PortId) (v : VfId) (x : Word) (p : PanelId) (i : FaultInfo) (a : ArrayId), (s.vfLive port v = true) ∧ (s.vfDust port v = false) ∧ (s.ports[port].vfs[v].bound = some p) ∧ (bit x 31 = false) ∧ (fld x.toNat 16 2 = 1) ∧ (s.pnl.panels[p].ring.stalled = [⟨i, some (slice x 15 0)⟩]) ∧ (a = asFin 40 i.key.phys.toNat) ∧ (s.arrays[a].seq.fault.valid = false)) ∧
    (∃ (s : State) (port : PortId) (v : VfId) (x : Word) (p : PanelId), (s.vfLive port v = true) ∧ (s.vfDust port v = false) ∧ (s.ports[port].vfs[v].bound = some p) ∧ (bit x 31 = false) ∧ (fld x.toNat 16 2 = 1) ∧ (s.pnl.panels[p].ring.stalled = [])) :=
  ⟨⟨midOps, midOps, 0, 0, 0, midOp, 0, part0 midOp midOps, 0, { type := 6, level := 0xF, entry := 0 }, by decide +kernel, by decide +kernel, by decide +kernel, by decide +kernel, by rfl⟩,
   ⟨ringUp { arrivals := [faultOf false 0] }, 0, 0, 0, faultOf false 0, [], by decide +kernel, by decide +kernel, by decide +kernel, by decide +kernel, by decide +kernel, by decide +kernel, by decide +kernel⟩,
   ⟨ringUp { arrivals := [faultOf true 0] }, 0, 0, 0, faultOf true 0, [], _, by decide +kernel, by decide +kernel, by decide +kernel, by decide +kernel, by decide +kernel, by decide +kernel, by decide +kernel, rfl⟩,
   ⟨ringUp {}, 0, 0, 0, 0, by decide +kernel, by decide +kernel, by decide +kernel, by decide +kernel, by decide +kernel⟩,
   ⟨vfUp id, 0, 0, 2 ^ 31, 0, by decide +kernel, by decide +kernel, by decide +kernel, by decide +kernel, by decide +kernel, by decide +kernel⟩,
   ⟨ringUp {}, 0, 0, 0, by decide +kernel, by decide +kernel, by decide +kernel⟩,
   ⟨ringUp { stalled := [⟨faultOf true 3, some 0⟩] }, 0, 0, 0, 0, faultOf true 3, _, by decide +kernel, by decide +kernel, by decide +kernel, by decide +kernel, by decide +kernel, by decide +kernel, by decide +kernel, rfl⟩,
   ⟨ringUp { stalled := [⟨faultOf true 0, some 0⟩] }, 0, 0, 2 ^ 16, 0, faultOf true 0, _, by decide +kernel, by decide +kernel, by decide +kernel, by decide +kernel, by decide +kernel, by decide +kernel, rfl, by decide +kernel⟩,
   ⟨ringUp {}, 0, 0, 2 ^ 16, 0, by decide +kernel, by decide +kernel, by decide +kernel, by decide +kernel, by decide +kernel, by decide +kernel⟩⟩

theorem witness_Translation :
    (∃ (s : State) (f : FieldId) (p : PanelId) (va : BitVec 55) (acc : Access) (e : EngineSel) (ask : WalkUnit) (n : Nat) (tb : BitVec 52) (nm : DWord), (tuField e = f) ∧ (s.fields[f].tu.walks.length < 32) ∧ (s.walkStart p va f = .ok (n, tb, nm))) ∧
    (∃ (s s₁ : State) (f : FieldId) (k : Nat) (er : List RawError) (w : Walk) (pte : DWord), ((s.fields[f].tu.walks.find? fun w => decide (w.serial = k)) = some w) ∧ (s.walkLevel (s.walkAgent w.panel w.engine w.asker) w.panel (s.walkTint w.panel w.engine) w.va w.level w.table w.namer (flipsAt er 0) = (.pointer pte, s₁))) ∧
    (∃ (s s₁ : State) (f : FieldId) (k : Nat) (er : List RawError) (w : Walk) (pte : DWord) (g : Target), ((s.fields[f].tu.walks.find? fun w => decide (w.serial = k)) = some w) ∧ (s.walkLevel (s.walkAgent w.panel w.engine w.asker) w.panel (s.walkTint w.panel w.engine) w.va w.level w.table w.namer (flipsAt er 0) = (.leaf pte, s₁)) ∧ (tuField w.engine = f) ∧ (w.found = []) ∧ ((s₁.modTu f fun u => { u with walks := u.walks.filter fun y => decide (y.serial ≠ k) }).useLeaf w.panel w.va w.access w.level pte = .ok g)) ∧
    (∃ (s : State) (port : PortId) (v : VfId) (x : Word), (s.vfLive port v = true) ∧ (s.vfDust port v = false) ∧ (s.ports[port].vfs[v].bound.isSome = true)) ∧
    (∃ (s : State) (port : PortId) (v : VfId) (x : Word) (p : PanelId), (s.vfLive port v = true) ∧ (s.vfDust port v = false) ∧ (s.ports[port].vfs[v].bound = some p) ∧ (bit x 31 = true) ∧ (s.ports[port].vfs[v].inv.state ≠ 1) ∧ (s.ports[port].vfs[v].inv.reject = none)) ∧
    (∃ (s : State) (port : PortId) (v : VfId) (x : Word) (p : PanelId) (r : BitVec 4), (s.vfLive port v = true) ∧ (s.vfDust port v = false) ∧ (s.ports[port].vfs[v].bound = some p) ∧ (bit x 31 = true) ∧ (s.ports[port].vfs[v].inv.state ≠ 1) ∧ (s.ports[port].vfs[v].inv.reject = some r)) ∧
    (∃ (s : State) (port : PortId) (v : VfId) (e : EngineSel) (p : PanelId), (s.ports[port].vfs[v].bound = some p) ∧ (s.ports[port].vfs[v].inv.state = 1) ∧ (s.ports[port].vfs[v].inv.waitingFor = [e]) ∧ (s.acksAtOnce p e s.ports[port].vfs[v].inv = true)) ∧
    (∃ (s : State) (port q : PortId) (v : VfId), (s.ports[port].vfs[v].inv.state = 1) ∧ (s.ports[port].vfs[v].inv.waitingFor = [.aperture q])) ∧
    (∃ (s : State) (port : PortId) (v : VfId) (x : Word) (p : PanelId) (b n : Nat), (s.vfLive port v = true) ∧ (s.vfDust port v = false) ∧ (s.ports[port].vfs[v].bound = some p) ∧ (bit x 31 = true) ∧ (s.ports[port].vfs[v].flush.state ≠ 1) ∧ (b = s.ports[port].vfs[v].flush.base.toNat % 2 ^ 52) ∧ (n = s.ports[port].vfs[v].flush.length.toNat) ∧ (b % 65536 = 0 ∧ n % 65536 = 0 ∧ 0 < n) ∧ (coveredBy s.pnl.panels[p].ranges b n = true)) :=
  ⟨⟨tabled 0 (vfUp id), 0, 0, 0, .read, .array 0, .cube, 2, 2 ^ 48, 0, by decide +kernel, by decide +kernel, by decide +kernel⟩,
   ⟨walks aPointer 2, (levelRead (walks aPointer 2) 2).2, 0, 0, [], walkOf 2, aPointer, by decide +kernel, pair_of (by decide +kernel)⟩,
   ⟨walks aLeaf 0, (levelRead (walks aLeaf 0) 0).2, 0, 0, [], walkOf 0, aLeaf, .pa (2 ^ 48), by decide +kernel, pair_of (by decide +kernel), by decide +kernel, by decide +kernel, by decide +kernel⟩,
   ⟨vfUp id, 0, 0, 1, by decide +kernel, by decide +kernel, by decide +kernel⟩,
   ⟨vfUp fun v => { v with inv := { v.inv with length := 65536 } }, 0, 0, 2 ^ 31, 0, by decide +kernel, by decide +kernel, by decide +kernel, by decide +kernel, by decide +kernel, by decide +kernel⟩,
   ⟨vfUp fun v => { v with inv := { v.inv with length := 0 } }, 0, 0, 2 ^ 31, 0, 2, by decide +kernel, by decide +kernel, by decide +kernel, by decide +kernel, by decide +kernel, by decide +kernel⟩,
   ⟨vfUp fun v => { v with inv := { v.inv with state := 1, waitingFor := [.array 0] } }, 0, 0, .array 0, 0, by decide +kernel, by decide +kernel, by decide +kernel, by decide +kernel⟩,
   ⟨vfUp fun v => { v with inv := { v.inv with state := 1, waitingFor := [.aperture 0] } }, 0, 0, 0, by decide +kernel, by decide +kernel⟩,
   ⟨panelAs (fun x => { x with ranges := [{ base := 0, length := 65536 }] }) (vfUp fun v => { v with flush := { v.flush with length := 65536 } }), 0, 0, 2 ^ 31, 0, _, _, by decide +kernel, by decide +kernel, by decide +kernel, by decide +kernel, by decide +kernel, rfl, rfl, by decide +kernel, by decide +kernel⟩⟩

theorem witness_StackRequests :
    (∃ (s : State) (k : StackId) (pc : PcId) (n m : Nat) (er : List RawError) (r : WaitingRead) (x : Txn), (s.isolated (fieldOfStack k) (niOfStack k) = false) ∧ (chooseRead s.sclk n (s.hbm[k].readQ.filter fun r => decide (pcOfKey r.key = pc) && !s.hbm[k].keyHeld r.key && !s.readBehind r.id) = some r) ∧ (s.txn r.id = some x) ∧ (x.kind = .read m)) ∧
    (∃ (s : State) (k : StackId) (pc : PcId) (n m : Nat) (er : List RawError) (r : WaitingRead) (x : Txn), (s.isolated (fieldOfStack k) (niOfStack k) = false) ∧ (chooseRead s.sclk n (s.hbm[k].readQ.filter fun r => decide (pcOfKey r.key = pc) && !s.hbm[k].keyHeld r.key && !s.readBehind r.id) = some r) ∧ (s.txn r.id = some x) ∧ (x.kind = .read m) ∧ (((s.hbm[k].readQ.filter fun r => decide (pcOfKey r.key = pc) && !s.hbm[k].keyHeld r.key && !s.readBehind r.id).filter fun y => decide (y.id ≠ r.id) && decide (stripOfKey y.key = stripOfKey r.key)) = [])) ∧
    (∃ (s : State) (i : TxId) (x : Txn) (w : CodeWord) (k : StackId) (pc : PcId) (sn wn : Nat), (s.txn i = some x) ∧ (x.kind = .write [w]) ∧ (s.locate (x.pa &&& ~~~63#52) = some (.hbm k pc sn wn)) ∧ (x.stage = .atTarget) ∧ (s.locSunk (.hbm k pc sn wn) = false) ∧ (s.hbm[k].keyHeld (s.keyOf (.hbm k pc sn wn)) = false) ∧ (s.olderMeets x = false) ∧ (s.mirrorShort (x.pa &&& ~~~63#52) 1 = false) ∧ (s.hbm[k].queuedWords (pcOfKey (s.keyOf (.hbm k pc sn wn))) + 1 ≤ 128)) ∧
    (∃ (s : State) (k : StackId) (pc : PcId) (w : QueuedWrite), (s.hbm[k].writeQ.filter (fun w => decide (pcOfKey w.key = pc)) = [w]) ∧ ((s.hbm[k].readQ.any fun r => decide (pcOfKey r.key = pc)) = false) ∧ ((s.hbm[k].repairBusy && decide (pc = asFin 64 (fld s.hbm[k].repairReq.toNat 21 6))) = false)) ∧
    (∃ (s : State) (f : FieldId) (b : BankId) (er : List RawError) (r : BankAccess) (x : Txn) (ws : List CodeWord), (s.isolated f (niOfBank b.val) = false) ∧ (chooseAccess s.sclk (freeAccesses [] (s.fields[f].ft.queue.filter fun r => decide (bankOfKey r.key = s.fields[f].ft.bankMap[b].toNat) && !s.readBehind r.id)) = some r) ∧ (s.txn r.id = some x) ∧ (x.parts = []) ∧ (r.first = 0) ∧ (x.kind = .write ws) ∧ (r.isWrite = true) ∧ (r.words = ws) ∧ (r.count = ws.length) ∧ (s.mirrorShort r.pa ws.length = false)) ∧
    (∃ (s : State) (f : FieldId) (b : BankId) (er : List RawError) (r : BankAccess) (x : Txn) (m : Nat), (s.isolated f (niOfBank b.val) = false) ∧ (chooseAccess s.sclk (freeAccesses [] (s.fields[f].ft.queue.filter fun r => decide (bankOfKey r.key = s.fields[f].ft.bankMap[b].toNat) && !s.readBehind r.id)) = some r) ∧ (s.txn r.id = some x) ∧ (x.parts = []) ∧ (r.first = 0) ∧ (x.kind = .read m) ∧ (r.isWrite = false) ∧ (r.count = m)) ∧
    (∃ (s s₂ : State) (i : TxId) (er : List RawError) (x : Txn) (op : AtomicOp) (off : Fin 64) (a c : DWord) (m : Bool) (l : Loc) (r : Reply), (s.txn i = some x) ∧ (x.kind = .atomic op off a c m) ∧ (s.locate (x.pa &&& ~~~63#52) = some l) ∧ (x.stage = .atTarget) ∧ (s.coherentAt (x.pa &&& ~~~63#52) = false) ∧ (s.locSunk l = false) ∧ (s.olderMeets x = false) ∧ (s.locHeld l false = false) ∧ (s.mirrorShort (x.pa &&& ~~~63#52) 1 = false) ∧ (s.tableRoom (locNi l).1 (locNi l).2 i = true) ∧ (s.dedupOf (locNi l).1 (locNi l).2 i = none) ∧ (s.atomicLoc (txnAgent x) (x.pa &&& ~~~63#52) l op off.val a.toNat c.toNat m (flipsAt er 0) = (r, s₂))) ∧
    (∃ (s : State) (key : Nat) (x : PendingFix), ((s.ras.fixes.find? fun x => decide (x.key = key)) = some x)) :=
  ⟨⟨withTxn (nearTxn (.read 1)) (stackUp fun k => { k with readQ := [readWaiting] }), 0, 0, 0, 1, [], readWaiting, nearTxn (.read 1), by decide +kernel, by decide +kernel, by decide +kernel, by decide +kernel⟩,
   ⟨withTxn (nearTxn (.read 1)) (stackUp fun k => { k with readQ := [readWaiting] }), 0, 0, 0, 1, [], readWaiting, nearTxn (.read 1), by decide +kernel, by decide +kernel, by decide +kernel, by decide +kernel, by decide +kernel⟩,
   ⟨withTxn (nearTxn (.write [aWord])) (stackUp id), txId, nearTxn (.write [aWord]), aWord, 0, 0, 0, 0, by decide +kernel, by decide +kernel, by decide +kernel, by decide +kernel, by decide +kernel, by decide +kernel, by decide +kernel, by decide +kernel, by decide +kernel⟩,
   ⟨stackUp fun k => { k with writeQ := [{ key := 0, word := aWord }] }, 0, 0, { key := 0, word := aWord }, by decide +kernel, by decide +kernel, by decide +kernel⟩,
   ⟨bankUp (bankAcc true) (ftTxn (.write [aWord])), 0, 0, [], bankAcc true, ftTxn (.write [aWord]), [aWord], by decide +kernel, by decide +kernel, by decide +kernel, by decide +kernel, by decide +kernel, by decide +kernel, by decide +kernel, by decide +kernel, by decide +kernel, by decide +kernel⟩,
   ⟨bankUp (bankAcc false) (ftTxn (.read 1)), 0, 0, [], bankAcc false, ftTxn (.read 1), 1, by decide +kernel, by decide +kernel, by decide +kernel, by decide +kernel, by decide +kernel, by decide +kernel, by decide +kernel, by decide +kernel⟩,
   ⟨atomUp, atomOut.2, txId, [], atomTxn, .add32, 0, 1, 0, false, atomLoc, atomOut.1, by decide +kernel, by decide +kernel, by decide +kernel, by decide +kernel, by decide +kernel, by decide +kernel, by decide +kernel, by decide +kernel, by decide +kernel, by decide +kernel, by decide +kernel, atom_out⟩,
   ⟨{ State.reset with ras := { State.reset.ras with fixes := [{ key := 0, word := { data := 1, cls := .plain, err := 0 } }] } }, 0, { key := 0, word := { data := 1, cls := .plain, err := 0 } }, by decide +kernel⟩⟩

theorem witness_StackCare :
    (∃ (s : State) (k : StackId) (pc : PcId) (b : Nat) (w : Bool) (n : Nat) (m : Nat), (s.hbm[k].state = 4) ∧ (n = StackState.refreshUnit { s.hbm[k] with refreshRate := s.hbm[k].refreshNextRate, refreshMode := s.hbm[k].refreshNextMode } pc b) ∧ (StackState.bankReads { s.hbm[k] with refreshRate := s.hbm[k].refreshNextRate, refreshMode := s.hbm[k].refreshNextMode } pc b (fun _ => true) = false)) ∧
    (∃ (s : State) (k : StackId) (pc : PcId) (b : Nat) (n : Nat) (m : Nat), (s.hbm[k].state = 4) ∧ (n = StackState.refreshUnit { s.hbm[k] with refreshRate := s.hbm[k].refreshNextRate, refreshMode := s.hbm[k].refreshNextMode } pc b) ∧ (StackState.bankReads { s.hbm[k] with refreshRate := s.hbm[k].refreshNextRate, refreshMode := s.hbm[k].refreshNextMode } pc b (fun _ => true) = true)) ∧
    (∃ (s : State) (k : StackId) (pc : PcId) (b : Nat) (n : Nat) (m : Nat), (s.hbm[k].state = 4) ∧ (n = StackState.refreshUnit { s.hbm[k] with refreshRate := s.hbm[k].refreshNextRate, refreshMode := s.hbm[k].refreshNextMode } pc b) ∧ (StackState.bankReads { s.hbm[k] with refreshRate := s.hbm[k].refreshNextRate, refreshMode := s.hbm[k].refreshNextMode } pc b (fun r => r.critical) = true)) ∧
    (∃ (s : State) (k : StackId) (x : Byte), (s.hbm[k].training = false ∨ x.toNat < 105)) ∧
    (∃ (s : State) (k : StackId) (x : Byte), (s.hbm[k].training = true) ∧ (105 ≤ x.toNat)) ∧
    (∃ (s : State) (k : StackId) (x : Word), ((s.pf0Open 0 || s.pf0Open 1) = true) ∧ (s.stackOut k = false) ∧ (bit x 31 = true) ∧ (s.hbm[k].repairBusy = false) ∧ (s.hbm[k].pcActiveAt (fld x.toNat 21 6) = true) ∧ (fld x.toNat 0 21 < 1966080)) ∧
    (∃ (s : State) (k : StackId), (s.hbm[k].repairBusy = true)) ∧
    (∃ (s : State) (k : StackId), (s.hbm[k].repairBusy = true)) ∧
    (∃ (s : State) (k : StackId) (x : Word), ((s.pf0Open 0 || s.pf0Open 1) = true) ∧ (s.stackOut k = false) ∧ (x >>> 24 = 0xC5) ∧ (bit s.hbm[k].fenced (fld x.toNat 0 5) = false) ∧ (bit s.hbm[k].excluded (fld x.toNat 0 5) = false)) ∧
    (∃ (s : State) (k : StackId) (x : Word), ((s.pf0Open 0 || s.pf0Open 1) = true) ∧ (s.fields[fieldOfStack k].leftOut = false) ∧ (s.testUnlocked = true) ∧ (s.hbm[k].busyTraining = false) ∧ (bit x 31 = true)) ∧
    (∃ (s : State) (k : StackId) (x : Word), ((s.pf0Open 0 || s.pf0Open 1) = true) ∧ (s.fields[fieldOfStack k].leftOut = false) ∧ (s.testUnlocked = true) ∧ (s.hbm[k].busyTraining = false) ∧ (bit x 31 = false) ∧ (bit x 30 = true)) ∧
    (∃ (s : State) (k : StackId) (x : Word), ((s.pf0Open 0 || s.pf0Open 1) = true) ∧ (s.fields[fieldOfStack k].leftOut = false) ∧ (s.testUnlocked = true) ∧ (s.hbm[k].busyTraining = false) ∧ (bit x 31 = false) ∧ (bit x 30 = false)) ∧
    (∃ (s : State) (k : StackId) (b : Bool), (s.hbm[k].stage = .selfTest)) :=
  ⟨⟨stackUp id, 0, 0, 0, false, _, 0, by decide +kernel, rfl, by decide +kernel⟩,
   ⟨stackUp fun k => { k with refreshNextMode := 1, readQ := [readWaiting] }, 0, 0, 0, _, 0, by decide +kernel, rfl, by decide +kernel⟩,
   ⟨stackUp fun k => { k with refreshNextMode := 1, readQ := [readWaiting] }, 0, 0, 0, _, 0, by decide +kernel, rfl, by decide +kernel⟩,
   ⟨stackUp id, 0, 90, by decide +kernel⟩,
   ⟨stackUp (fun k => { k with stage := .interface }), 0, 105, by decide +kernel, by decide +kernel⟩,
   ⟨stackUp id, 0, 2 ^ 31, by decide +kernel, by decide +kernel, by decide +kernel, by decide +kernel, by decide +kernel, by decide +kernel⟩,
   ⟨stackUp (fun k => { k with repairBusy := true }), 0, by decide +kernel⟩,
   ⟨stackUp (fun k => { k with repairBusy := true }), 0, by decide +kernel⟩,
   ⟨stackUp id, 0, 0xC5000000, by decide +kernel, by decide +kernel, by decide +kernel, by decide +kernel, by decide +kernel⟩,
   ⟨{ stackUp id with lcs := { (stackUp id).lcs with state := 1 } }, 0, 2 ^ 31, by decide +kernel, by decide +kernel, by decide +kernel, by decide +kernel, by decide +kernel⟩,
   ⟨{ stackUp id with lcs := { (stackUp id).lcs with state := 1 } }, 0, 2 ^ 30, by decide +kernel, by decide +kernel, by decide +kernel, by decide +kernel, by decide +kernel, by decide +kernel⟩,
   ⟨{ stackUp id with lcs := { (stackUp id).lcs with state := 1 } }, 0, 0, by decide +kernel, by decide +kernel, by decide +kernel, by decide +kernel, by decide +kernel, by decide +kernel⟩,
   ⟨stackUp (fun k => { k with stage := .selfTest }), 0, true, by decide +kernel⟩⟩

theorem witness_StackTraining :
    (∃ (s : State) (k : StackId), (s.elementsMayStart = true) ∧ (s.hbm[k].stage = .idle) ∧ (s.hbm[k].attempt ≠ 3)) ∧
    (∃ (s : State) (k : StackId) (w : Word), (s.hbm[k].stage = .portCheck)) ∧
    (∃ (s : State) (k : StackId) (b : Bool) (w : Word), (s.hbm[k].stage = .laneRepair)) ∧
    (∃ (s : State) (k : StackId) (b : Bool) (w : Word), (s.hbm[k].stage = .hardRepair)) ∧
    (∃ (s : State) (k : StackId) (w : Word), (s.hbm[k].stage = .interface)) ∧
    (∃ (s : State) (k : StackId) (b : Bool), (s.hbm[k].stage = .channelCheck) ∧ (popCount s.hbm[k].excluded ≤ 4)) ∧
    (∃ (s : State) (k : StackId) (w : Word), (s.hbm[k].stage = .portCheck) ∧ (s.hbm[k].attempt ≠ 3)) ∧
    (∃ (s : State) (k : StackId), (s.hbm[k].inAttempt = true) ∧ (s.hbm[k].attempt = 3)) ∧
    (∃ (s : State) (k : StackId), (s.hbm[k].stage = .fill)) ∧
    (∃ (s : State) (f : FieldId), (s.elementsMayStart = true) ∧ (s.fields[f].ft.ready = false)) :=
  ⟨⟨stackUp (fun k => { k with stage := .idle }), 0, by decide +kernel, by decide +kernel, by decide +kernel⟩,
   ⟨stackUp (fun k => { k with stage := .portCheck }), 0, 0, by decide +kernel⟩,
   ⟨stackUp (fun k => { k with stage := .laneRepair }), 0, true, 0, by decide +kernel⟩,
   ⟨stackUp (fun k => { k with stage := .hardRepair }), 0, true, 0, by decide +kernel⟩,
   ⟨stackUp (fun k => { k with stage := .interface }), 0, 0, by decide +kernel⟩,
   ⟨stackUp (fun k => { k with stage := .channelCheck }), 0, true, by decide +kernel, by decide +kernel⟩,
   ⟨stackUp (fun k => { k with stage := .portCheck }), 0, 0, by decide +kernel, by decide +kernel⟩,
   ⟨stackUp (fun k => { k with stage := .interface, attempt := 3 }), 0, by decide +kernel, by decide +kernel⟩,
   ⟨stackUp (fun k => { k with stage := .fill }), 0, by decide +kernel⟩,
   ⟨hostOpens State.reset, 0, by decide +kernel, by decide +kernel⟩⟩

theorem witness_Integrity :
    (∃ (s s₂ : State) (k : StackId) (er : List RawError), (s.hbm[k].state = 4) ∧ (s.stackOut k = false) ∧ (s.hbm[k].skimInterval ≠ 0) ∧ (s.skimWords (fieldOfStack k) er 0 ((s.hbm[k].pcs.filter fun p => !(bit s.hbm[k].fenced (p.val / 2))).flatMap fun p => (List.range 8).map fun w => Loc.hbm k p s.hbm[k].skimStrip w) = s₂)) ∧
    (∃ (s s₂ : State) (f : FieldId) (er : List RawError), (s.fields[f].ft.ready = true) ∧ (s.fields[f].leftOut = false) ∧ (s.fields[f].ft.skimInterval ≠ 0) ∧ (s.skimWords f er 0 ((s.fields[f].ft.banks.filter fun b => !(bit s.fields[f].ft.fencedBanks b.val)).flatMap fun b => [Loc.ft f b s.fields[f].ft.skimRow 0, Loc.ft f b s.fields[f].ft.skimRow 1]) = s₂)) ∧
    (∃ (s : State) (n : Fin 8) (x : Word) (m : Nat), ((s.pf0Open 0 || s.pf0Open 1) = true) ∧ (bit x 31 = true) ∧ (s.ras.primers[n].state ≠ 1) ∧ (s.primerReason s.ras.primers[n] (slice x 2 0) = none)) ∧
    (∃ (s : State) (n : Fin 8) (x : Word) (m : Nat) (r : BitVec 4), ((s.pf0Open 0 || s.pf0Open 1) = true) ∧ (bit x 31 = true) ∧ (s.ras.primers[n].state ≠ 1) ∧ (s.primerReason s.ras.primers[n] (slice x 2 0) = some r)) ∧
    (∃ (s : State) (n : Fin 8) (x : Word) (m : Nat), (bit x 31 = false) ∧ (s.primerRuns n 0 = true)) ∧
    (∃ (s : State) (n : Fin 8) (x : Word) (m : Nat), (bit x 31 = false) ∧ (s.primerRuns n 3 = true)) ∧
    (∃ (s : State) (n : Fin 8) (x : Word) (m : Nat) (er : List RawError), (bit x 31 = false) ∧ (s.primerRuns n 1 = true)) ∧
    (∃ (s : State) (n : Fin 8) (x : Word) (m : Nat) (er : List RawError), (bit x 31 = false) ∧ (s.primerRuns n 2 = true)) ∧
    (∃ (s s₂ : State) (n : Fin 8) (x : Word) (pa : BitVec 52) (l : Loc), (bit x 31 = false) ∧ (s.primerRuns n 0 = true) ∧ (s.ras.primers[n].runLength = s.ras.primers[n].progress + 64) ∧ (pa = BitVec.ofNat 52 (s.ras.primers[n].runBase + s.ras.primers[n].progress)) ∧ (s.primerLoc pa = some l) ∧ ((s.primerTally n l).putCode pa l { data := 0, mark := false } = s₂)) ∧
    (∃ (s s₂ : State) (n : Fin 8) (x : Word) (pa : BitVec 52) (l : Loc), (bit x 31 = false) ∧ (s.primerRuns n 3 = true) ∧ (s.ras.primers[n].runLength = s.ras.primers[n].progress + 64) ∧ (pa = BitVec.ofNat 52 (s.ras.primers[n].runBase + s.ras.primers[n].progress)) ∧ (s.primerLoc pa = some l) ∧ ((s.primerTally n l).putCode pa l { data := 0, mark := true } = s₂)) ∧
    (∃ (s s₂ : State) (n : Fin 8) (x : Word) (pa : BitVec 52) (er : List RawError), (bit x 31 = false) ∧ (s.primerRuns n 1 = true) ∧ (s.ras.primers[n].runLength = s.ras.primers[n].progress + 64) ∧ (pa = BitVec.ofNat 52 (s.ras.primers[n].runBase + s.ras.primers[n].progress)) ∧ (s.primerRead n pa true (flipsAt er 0) = s₂)) ∧
    (∃ (s s₂ : State) (n : Fin 8) (x : Word) (pa : BitVec 52) (er : List RawError), (bit x 31 = false) ∧ (s.primerRuns n 2 = true) ∧ (s.ras.primers[n].runLength = s.ras.primers[n].progress + 64) ∧ (pa = BitVec.ofNat 52 (s.ras.primers[n].runBase + s.ras.primers[n].progress)) ∧ (s.primerRead n pa false (flipsAt er 0) = s₂)) ∧
    (∃ (s : State) (n : Fin 8), ((s.pf0Open 0 || s.pf0Open 1) = true) ∧ (s.ras.primers[n].state = 1)) ∧
    (∃ (s : State) (n : Fin 8), (s.ras.primers[n].state = 1) ∧ (s.ras.primers[n].runLength ≤ s.ras.primers[n].progress)) ∧
    (∃ (s : State) (x : Word), ((s.pf0Open 0 || s.pf0Open 1) = true)) ∧
    (∃ (s : State) (k : StackId) (x : Word) (pc : PcId) (g : Nat), ((s.pf0Open 0 || s.pf0Open 1) = true) ∧ (s.stackOut k = false) ∧ (x >>> 24 = 0xC5) ∧ (s.hbm[k].pageBusy = false) ∧ (pc = asFin 64 (fld x.toNat 14 6)) ∧ (g = fld x.toNat 0 14) ∧ (s.hbm[k].pcActiveAt pc.val = true) ∧ (g < 15360) ∧ ((s.hbm[k].pages.any fun m => decide (m.pc = pc ∧ m.page = g)) = false) ∧ ((s.hbm[k].pages.countP fun m => decide (m.pc = pc)) < 60)) ∧
    (∃ (s : State) (k : StackId) (pc : PcId), (s.hbm[k].pageBusy = true) ∧ (pc = asFin 64 (fld s.hbm[k].pageReq.toNat 14 6))) ∧
    (∃ (s : State) (f : FieldId) (x : Word) (b : BankId) (n : Nat), ((s.pf0Open 0 || s.pf0Open 1) = true) ∧ (s.fields[f].leftOut = false) ∧ (x >>> 24 = 0xC5) ∧ (s.fields[f].ft.retireBusy = false) ∧ (b = asFin 64 (fld x.toNat 0 6)) ∧ (bit s.fields[f].ft.lost b.val = false) ∧ (bit s.fields[f].ft.fencedBanks b.val = false) ∧ (s.fields[f].ft.freeBank = some n)) ∧
    (∃ (s : State) (f : FieldId) (x : Word) (b : BankId), ((s.pf0Open 0 || s.pf0Open 1) = true) ∧ (s.fields[f].leftOut = false) ∧ (x >>> 24 = 0xC5) ∧ (s.fields[f].ft.retireBusy = false) ∧ (b = asFin 64 (fld x.toNat 0 6)) ∧ (bit s.fields[f].ft.lost b.val = false) ∧ (bit s.fields[f].ft.fencedBanks b.val = false) ∧ (s.fields[f].ft.freeBank = none)) ∧
    (∃ (s : State) (f : FieldId) (n : Nat) (b : BankId), (s.fields[f].ft.retireBusy = true) ∧ (s.fields[f].ft.freeBank = some n) ∧ (b = asFin 64 s.fields[f].ft.retireBank.toNat)) :=
  ⟨⟨stackUp id, _, 0, [], by decide +kernel, by decide +kernel, by decide +kernel, rfl⟩,
   ⟨mapped 0 (vfUp id), _, 0, [], by decide +kernel, by decide +kernel, by decide +kernel, rfl⟩,
   ⟨priming 0 0 0, 0, 2 ^ 31, 1, by decide +kernel, by decide +kernel, by decide +kernel, by decide +kernel⟩,
   ⟨priming 0 0 0, 0, 2 ^ 31 + 7, 1, 3, by decide +kernel, by decide +kernel, by decide +kernel, by decide +kernel⟩,
   ⟨priming 0 1 4096, 0, 0, 1, by decide +kernel, by decide +kernel⟩,
   ⟨priming 3 1 4096, 0, 0, 1, by decide +kernel, by decide +kernel⟩,
   ⟨priming 1 1 4096, 0, 0, 1, [], by decide +kernel, by decide +kernel⟩,
   ⟨priming 2 1 4096, 0, 0, 1, [], by decide +kernel, by decide +kernel⟩,
   ⟨priming 0 1 64, _, 0, 0, _, .ft 0 0 0 0, by decide +kernel, by decide +kernel, by decide +kernel, rfl, by decide +kernel, rfl⟩,
   ⟨priming 3 1 64, _, 0, 0, _, .ft 0 0 0 0, by decide +kernel, by decide +kernel, by decide +kernel, rfl, by decide +kernel, rfl⟩,
   ⟨priming 1 1 64, _, 0, 0, _, [], by decide +kernel, by decide +kernel, by decide +kernel, rfl, rfl⟩,
   ⟨priming 2 1 64, _, 0, 0, _, [], by decide +kernel, by decide +kernel, by decide +kernel, rfl, rfl⟩,
   ⟨priming 0 1 64, 0, by decide +kernel, by decide +kernel⟩,
   ⟨priming 0 1 0, 0, by decide +kernel, by decide +kernel⟩,
   ⟨vfUp id, 1, by decide +kernel⟩,
   ⟨stackUp id, 0, 0xC5000000, _, _, by decide +kernel, by decide +kernel, by decide +kernel, by decide +kernel, rfl, rfl, by decide +kernel, by decide +kernel, by decide +kernel, by decide +kernel⟩,
   ⟨stackUp (fun k => { k with pageBusy := true }), 0, _, by decide +kernel, rfl⟩,
   ⟨mapped 0 (vfUp id), 0, 0xC5000000, _, 64, by decide +kernel, by decide +kernel, by decide +kernel, by decide +kernel, rfl, by decide +kernel, by decide +kernel, by decide +kernel⟩,
   ⟨(mapped 0 (vfUp id)).modFt 0 (fun t => { t with deadBanks := 3 * 2 ^ 64 }), 0, 0xC5000000, _, by decide +kernel, by decide +kernel, by decide +kernel, by decide +kernel, rfl, by decide +kernel, by decide +kernel, by decide +kernel⟩,
   ⟨(mapped 0 (vfUp id)).modFt 0 (fun t => { t with retireBusy := true }), 0, 64, _, by decide +kernel, by decide +kernel, rfl⟩⟩

theorem witness_Network :
    (∃ (s : State) (req : NetReq) (tag : BitVec 12) (pa : BitVec 52), (s.mayInject req = true) ∧ (s.freeTag req.field req.ni (reqHigh req.kind) = some tag) ∧ (pa = (match req.kind with | .read _ => s.nearCopy req.field req.pa | _ => req.pa)) ∧ ((∀ c, s.trunkTakes pa c = true))) ∧
    (∃ (s : State) (req : NetReq) (tag : BitVec 12) (pa : BitVec 52), (s.mayInject req = true) ∧ (s.freeTag req.field req.ni (reqHigh req.kind) = some tag) ∧ (pa = (match req.kind with | .read _ => s.nearCopy req.field req.pa | _ => req.pa)) ∧ ((∀ c, s.trunkTakes pa c = true)) ∧ (req.mover = false)) ∧
    (∃ (s : State) (req : NetReq) (pa : BitVec 52), (s.mayInject req = true) ∧ (s.freeTag req.field req.ni (reqHigh req.kind) = none) ∧ (pa = (match req.kind with | .read _ => s.nearCopy req.field req.pa | _ => req.pa))) ∧
    (∃ (s : State) (id : TxId) (x : Txn) (g : FieldId) (mi : NiId) (l : Loc) (n : Nat) (hops : List (Fin 10)), (s.txn id = some x) ∧ (x.stage = .inFlight) ∧ (x.kind = .read n) ∧ (s.txDest x = some (g, mi)) ∧ (13 ≤ mi.val ∧ mi.val < 16) ∧ (s.route x.id.field x.id.ni g mi = .ok hops) ∧ (s.isolated g mi = false) ∧ ((s.tally g mi false x.tint n).1 = true) ∧ (s.locate (x.pa &&& ~~~63#52) = some l) ∧ (s.locFenced l = false) ∧ (s.heldBack x = false) ∧ (s.queueFull x = false)) ∧
    (∃ (s : State) (id : TxId) (x : Txn) (g : FieldId) (mi : NiId) (k : StackId) (pc : PcId) (sn wn : Nat) (n : Nat) (hops : List (Fin 10)), (s.txn id = some x) ∧ (x.stage = .inFlight) ∧ (x.kind = .read n) ∧ (s.txDest x = some (g, mi)) ∧ (13 ≤ mi.val ∧ mi.val < 16) ∧ (s.route x.id.field x.id.ni g mi = .ok hops) ∧ (s.isolated g mi = false) ∧ ((s.tally g mi false x.tint n).1 = true) ∧ (s.locate (x.pa &&& ~~~63#52) = some (.hbm k pc sn wn)) ∧ (s.locFenced (.hbm k pc sn wn) = false) ∧ (s.heldBack x = false) ∧ (s.queueFull x = false)) ∧
    (∃ (s : State) (id : TxId) (x : Txn) (nclk : Nat) (g : FieldId × NiId) (hops : List (Fin 10)), (s.txn id = some x) ∧ (x.stage = .answered) ∧ (x.late = false) ∧ (s.txDest x = some g) ∧ (s.route g.1 g.2 id.field id.ni = .ok hops) ∧ (x.owner = .none) ∧ (x.dups = 0) ∧ (s.net.heldReqs = [])) ∧
    (∃ (s : State) (id : TxId) (x : Txn) (f : FieldId), (s.txn id = some x) ∧ (x.stage = .inFlight ∨ x.stage = .answered) ∧ (s.ras.flog.length < 1024)) ∧
    (∃ (s : State) (id : TxId) (x : Txn), (s.txn id = some x) ∧ (x.late = false) ∧ (x.stage ≠ .lost) ∧ (x.owner = .none) ∧ (s.ras.flog.length < 1024)) ∧
    (∃ (s : State) (id : TxId) (x : Txn), (s.txn id = some x) ∧ (reqHigh x.kind = true) ∧ (x.resends < 2) ∧ (x.late = false)) ∧
    (∃ (s : State) (id : TxId), (id ∈ s.net.quarantine) ∧ (s.net.heldReqs = [])) ∧
    (∃ (s : State) (f : FieldId) (ni : NiId) (injection : Bool) (c : BudgetCount), (c ∈ s.net.budgets) ∧ (c.field = f ∧ c.ni = ni ∧ c.injection = injection)) :=
  ⟨⟨netUp, ftReq (.read 1), 0, _, by decide +kernel, by decide +kernel, rfl, fun ⟨b, d⟩ => by cases d <;> (revert b; decide +kernel)⟩,
   ⟨netUp, ftReq (.read 1), 0, _, by decide +kernel, by decide +kernel, rfl, fun ⟨b, d⟩ => by cases d <;> (revert b; decide +kernel), by decide +kernel⟩,
   ⟨noTags, ftReq (.read 1), _, by decide +kernel, no_tag, rfl⟩,
   ⟨withTxn (coming (nearTxn (.read 1))) nearUp, txId, coming (nearTxn (.read 1)), 0, 13, .hbm 0 0 0 0, 1, [], by decide +kernel, by decide +kernel, by decide +kernel, by decide +kernel, by decide +kernel, by decide +kernel, by decide +kernel, by decide +kernel, by decide +kernel, by decide +kernel, by decide +kernel, by decide +kernel⟩,
   ⟨withTxn (coming (nearTxn (.read 1))) nearUp, txId, coming (nearTxn (.read 1)), 0, 13, 0, 0, 0, 0, 1, [], by decide +kernel, by decide +kernel, by decide +kernel, by decide +kernel, by decide +kernel, by decide +kernel, by decide +kernel, by decide +kernel, by decide +kernel, by decide +kernel, by decide +kernel, by decide +kernel⟩,
   ⟨withTxn answered netUp, txId, answered, 0, (0, 5), [], by decide +kernel, by decide +kernel, by decide +kernel, by decide +kernel, by decide +kernel, by decide +kernel, by decide +kernel, by decide +kernel⟩,
   ⟨withTxn (coming (ftTxn (.read 1))) netUp, txId, coming (ftTxn (.read 1)), 0, by decide +kernel, by decide +kernel, by decide +kernel⟩,
   ⟨withTxn (coming (ftTxn (.read 1))) netUp, txId, coming (ftTxn (.read 1)), by decide +kernel, by decide +kernel, by decide +kernel, by decide +kernel, by decide +kernel⟩,
   ⟨withTxn (coming atomTxn) netUp, txId, coming atomTxn, by decide +kernel, by decide +kernel, by decide +kernel, by decide +kernel⟩,
   ⟨netUp.modNet (fun n => { n with quarantine := [txId] }), txId, by decide +kernel, by decide +kernel⟩,
   ⟨netUp.modNet (fun n => { n with budgets := [{ field := 0, ni := 0, injection := true, tint := 0, words := 1, lastWords := 0, isOver := false, demotedWindows := 0, misses := 0 }] }), 0, 0, true, { field := 0, ni := 0, injection := true, tint := 0, words := 1, lastWords := 0, isOver := false, demotedWindows := 0, misses := 0 }, by decide +kernel, by decide +kernel⟩⟩

theorem witness_LathLinks :
    (∃ (s : State) (b : Fin 10), ((s.net.lath[b].lanes.all fun l => decide (l.buffer = [])) = true) ∧ (s.net.heldReqs = [])) ∧
    (∃ (s : State) (b : Fin 10) (link : Fin 34) (dir : LathDir) (seq : BitVec 12), (bit s.net.lath[b].inService link.val = true) ∧ (seq = (s.net.lath[b].lane link dir).expect) ∧ (((s.net.lath[b].lane link dir).buffer.any fun e => decide (e.1 = seq)) = true) ∧ (s.net.heldReqs = [])) ∧
    (∃ (s : State) (b : Fin 10) (link : Fin 34) (dir : LathDir), (bit s.net.lath[b].inService link.val = true) ∧ ((s.net.lath[b].lane link dir).rounds < 8) ∧ ((s.net.lath[b].lane link dir).buffer ≠ [])) ∧
    (∃ (s : State) (b : Fin 10) (link : Fin 34) (sp : Nat), (bit s.net.lath[b].inService link.val = true) ∧ ((s.net.lath[b].lanes.any fun l => l.link = link && decide (8 ≤ l.rounds)) = true) ∧ ((onBits s.net.lath[b].spare).head? = some sp) ∧ (s.ras.flog.length < 1024)) ∧
    (∃ (s : State) (b : Fin 10) (link : Fin 34), (bit s.net.lath[b].training link.val = true)) ∧
    (∃ (s : State) (id : TxId) (x : Txn) (g : FieldId) (mi : NiId), (s.txn id = some x) ∧ (x.stage = .inFlight) ∧ (s.txDest x = some (g, mi)) ∧ (s.isolated g mi = true)) ∧
    (∃ (s : State) (f : FieldId) (ni : NiId), (s.timeoutsDue f ni = true) ∧ (s.isolated f ni = false) ∧ (arrayOfNi f ni = none) ∧ (ni ≠ 16) ∧ (s.ras.flog.length < 1024)) ∧
    (∃ (s : State) (value : Word) (f : FieldId) (ni : NiId), ((s.pf0Open 0 || s.pf0Open 1) = true) ∧ (value >>> 24 = 0xC5) ∧ (f = asFin 8 (fld value.toNat 8 3)) ∧ (ni = asFin 32 (fld value.toNat 0 5)) ∧ (¬ (19 ≤ ni.val ∧ ni.val ≤ 22)) ∧ (s.isolated f ni = false) ∧ (arrayOfNi f ni = none) ∧ (ni ≠ 16) ∧ (s.ras.flog.length < 1024)) :=
  ⟨⟨State.reset, 0, by decide +kernel, by decide +kernel⟩,
   ⟨lathUp (fun x => { x with lanes := [laneOf [(0, txId)] 0] }), 0, 0, .up, 0, by decide +kernel, rfl, by decide +kernel, by decide +kernel⟩,
   ⟨lathUp (fun x => { x with lanes := [laneOf [(0, txId)] 0] }), 0, 0, .up, by decide +kernel, by decide +kernel, by decide +kernel⟩,
   ⟨lathUp (fun x => { x with lanes := [laneOf [(0, txId)] 8] }), 0, 0, 2, by decide +kernel, by decide +kernel, by decide +kernel, by decide +kernel⟩,
   ⟨lathUp (fun x => { x with training := 4 }), 0, 2, by decide +kernel⟩,
   ⟨(withTxn (coming (ftTxn (.read 1))) netUp).modNet (fun n => { n with sink := vset n.sink 0 0x20 }), txId, coming (ftTxn (.read 1)), 0, 5, by decide +kernel, by decide +kernel, by decide +kernel, by decide +kernel⟩,
   ⟨nearUp.modNet (fun n => { n with timeoutHits := [(14, 0), (14, 0), (14, 0)] }), 0, 14, by decide +kernel, by decide +kernel, by decide +kernel, by decide +kernel, by decide +kernel⟩,
   ⟨nearUp, 0xC500000E, 0, 14, by decide +kernel, by decide +kernel, rfl, rfl, by decide +kernel, by decide +kernel, by decide +kernel, by decide +kernel, by decide +kernel⟩⟩

theorem witness_CoherenceRequests :
    (∃ (s : State) (a : AgentId) (pa : BitVec 52) (tint : TintId), (a.val < 48) ∧ (s.agentMaySend a pa = true) ∧ (s.wants a pa (.rdS a false) = true) ∧ ((s.counted (agentNi a) (s.homeOf pa, 17) tint 1).wayOut (agentNi a) (s.homeOf pa, 17) = none) ∧ (s.clearLine (s.homeOf pa) (lineOf pa) (.rdS a false) = true)) ∧
    (∃ (s : State) (a : AgentId) (pa : BitVec 52) (tint : TintId), (¬ a.val < 40) ∧ (a.val < 48) ∧ (s.agentMaySend a pa = true) ∧ (s.wants a pa (.rdX a) = true) ∧ ((s.counted (agentNi a) (s.homeOf pa, 17) tint 1).wayOut (agentNi a) (s.homeOf pa, 17) = none) ∧ (s.clearLine (s.homeOf pa) (lineOf pa) (.rdX a) = true)) ∧
    (∃ (s : State) (a : AgentId) (pa : BitVec 52) (tint : TintId), (¬ a.val < 40) ∧ (a.val < 48) ∧ (s.agentMaySend a pa = true) ∧ (s.wants a pa (.upg a) = true) ∧ ((s.counted (agentNi a) (s.homeOf pa, 17) tint 0).wayOut (agentNi a) (s.homeOf pa, 17) = none) ∧ (s.clearLine (s.homeOf pa) (lineOf pa) (.upg a) = true)) ∧
    (∃ (s : State) (a : AgentId) (pa : BitVec 52) (tint : TintId), (¬ a.val < 40) ∧ (a.val < 48) ∧ (s.agentMaySend a pa = true) ∧ (s.wants a pa (.invX a) = true) ∧ ((s.counted (agentNi a) (s.homeOf pa, 17) tint 0).wayOut (agentNi a) (s.homeOf pa, 17) = none) ∧ (s.clearLine (s.homeOf pa) (lineOf pa) (.invX a) = true)) ∧
    (∃ (s : State) (id : TxId) (pa : BitVec 52) (x : Txn), (s.isolated (s.homeOf pa) 17 = false) ∧ ((s.coherentPanel pa).isSome = true) ∧ (s.clearLine (s.homeOf pa) (lineOf pa) (.rdC id) = true) ∧ (s.txn id = some x)) ∧
    (∃ (s : State) (id : TxId) (pa : BitVec 52) (x : Txn) (w : CodeWord), (s.isolated (s.homeOf pa) 17 = false) ∧ ((s.coherentPanel pa).isSome = true) ∧ (s.clearLine (s.homeOf pa) (lineOf pa) (.wrL id w) = true) ∧ (s.txn id = some x)) ∧
    (∃ (s : State) (id : TxId) (pa : BitVec 52) (x : Txn), (s.isolated (s.homeOf pa) 17 = false) ∧ ((s.coherentPanel pa).isSome = true) ∧ (s.clearLine (s.homeOf pa) (lineOf pa) (.flushL id) = true) ∧ (s.txn id = some x)) ∧
    (∃ (s : State) (id : TxId) (pa : BitVec 52) (op : AtomicOp) (off : Fin 64) (operand cmp : DWord) (x : Txn) (m : Bool), (s.dedupOf (s.homeOf pa) 17 id = none) ∧ (s.isolated (s.homeOf pa) 17 = false) ∧ ((s.coherentPanel pa).isSome = true) ∧ (s.clearLine (s.homeOf pa) (lineOf pa) (.atomic id op off operand cmp) = true) ∧ (s.txn id = some x) ∧ (x.kind = .atomic op off operand cmp m)) ∧
    (∃ (s : State) (a : AgentId) (pa : BitVec 52), (s.isCxl a = true) ∧ (s.sites[agentSite a].state = 3) ∧ (s.cxlMay (agentSite a) pa = true)) ∧
    (∃ (s : State) (n : SiteId) (pa : BitVec 52) (w : CodeWord) (tag : BitVec 12), (s.sites[n].state = 3) ∧ (s.cxlMay n pa = true)) :=
  ⟨⟨cohUp id, 40, lineA, 0, by decide +kernel, by decide +kernel, by decide +kernel, by decide +kernel, by decide +kernel⟩,
   ⟨cohUp id, 40, lineA, 0, by decide +kernel, by decide +kernel, by decide +kernel, by decide +kernel, by decide +kernel, by decide +kernel⟩,
   ⟨cohUp (fun c => { c with caches := [cleanC 40 .s none] }), 40, lineA, 0, by decide +kernel, by decide +kernel, by decide +kernel, by decide +kernel, by decide +kernel, by decide +kernel⟩,
   ⟨cohUp id, 40, lineA, 0, by decide +kernel, by decide +kernel, by decide +kernel, by decide +kernel, by decide +kernel, by decide +kernel⟩,
   ⟨withTxn (cohTxn (.read 1)) (cohUp id), txId, lineA, cohTxn (.read 1), by decide +kernel, by decide +kernel, by decide +kernel, by decide +kernel⟩,
   ⟨withTxn (cohTxn (.write [aWord])) (cohUp id), txId, lineA, cohTxn (.write [aWord]), aWord, by decide +kernel, by decide +kernel, by decide +kernel, by decide +kernel⟩,
   ⟨withTxn (cohTxn (.read 1)) (cohUp id), txId, lineA, cohTxn (.read 1), by decide +kernel, by decide +kernel, by decide +kernel, by decide +kernel⟩,
   ⟨withTxn atomTxn (cohUp id), txId, lineA, .add32, 0, 1, 0, atomTxn, false, by decide +kernel, by decide +kernel, by decide +kernel, by decide +kernel, by decide +kernel, by decide +kernel⟩,
   ⟨cxlUp, 48, lineA, by decide +kernel, by decide +kernel, by decide +kernel⟩,
   ⟨cxlUp, 0, lineA, aWord, 0, by decide +kernel, by decide +kernel⟩⟩

theorem witness_CoherenceAnswers :
    (∃ (s : State) (a : AgentId) (pa : BitVec 52) (tag : BitVec 12) (tint : TintId) (c : CacheLine), (a.val < 48) ∧ (s.cached a (lineOf pa) = some c) ∧ (c.wbTag = some tag) ∧ ((s.counted (agentNi a) (s.homeOf pa, 17) tint 1).wayOut (agentNi a) (s.homeOf pa, 17) = none) ∧ (({ agent := a, tag := some tag, line := lineOf pa } : StaleEntry) ∉ s.coh.slices[s.homeOf pa].stale) ∧ (((s.coh.slices[s.homeOf pa].blockedAt (lineOf pa)).any fun b => b.snoops.any fun m => m.agent = a) = false)) ∧
    (∃ (s : State) (n : SiteId) (pa : BitVec 52) (w : CodeWord), (s.sites[n].state = 3) ∧ (s.cxlMay n pa = true) ∧ (s.isCxl (s.cxlAgent n) = true) ∧ (((s.emit (.cxlAnswer n cxlWritePull none)).counted (agentNi (s.cxlAgent n)) (s.homeOf pa, 17) (s.cxlFrom n 0).tint 1).wayOut (agentNi (s.cxlAgent n)) (s.homeOf pa, 17) = none) ∧ (({ agent := s.cxlAgent n, tag := none, line := lineOf pa } : StaleEntry) ∉ s.coh.slices[s.homeOf pa].stale) ∧ (((s.coh.slices[s.homeOf pa].blockedAt (lineOf pa)).any fun b => b.snoops.any fun m => m.agent = s.cxlAgent n) = false)) ∧
    (∃ (s : State) (a : AgentId) (pa : BitVec 52) (b : Blocked), (s.coh.slices[s.homeOf pa].blockedAt (lineOf pa) = some b) ∧ ((b.snoops.any fun n => n.agent = a && n.kind = .snpS && n.answer = none) = true) ∧ (a.val < 48)) ∧
    (∃ (s : State) (a : AgentId) (pa : BitVec 52) (b : Blocked), (s.coh.slices[s.homeOf pa].blockedAt (lineOf pa) = some b) ∧ ((b.snoops.any fun n => n.agent = a && n.kind = .snpI && n.answer = none) = true) ∧ (a.val < 48)) ∧
    (∃ (s : State) (a : AgentId) (pa : BitVec 52) (b : Blocked), (s.coh.slices[s.homeOf pa].blockedAt (lineOf pa) = some b) ∧ ((b.snoops.any fun n => n.agent = a && n.kind = .snpC && n.answer = none) = true) ∧ (a.val < 48)) ∧
    (∃ (s : State) (a : AgentId) (pa : BitVec 52) (b : Blocked) (n : Snoop) (ans : SnoopAnswer), (s.coh.slices[s.homeOf pa].blockedAt (lineOf pa) = some b) ∧ ((b.snoops.find? fun m => m.agent = a) = some n) ∧ (n.answer = some ans) ∧ (ans.wbp = none) ∧ (s.isCxl a = false) ∧ (s.answerComes (s.homeOf pa) a = true) ∧ ((b.snoops.filter fun m => m.agent ≠ a) ≠ []) ∧ (s.coh.slices[s.homeOf pa].waiting = [])) ∧
    (∃ (s : State) (a : AgentId) (pa : BitVec 52) (b : Blocked) (st : AgentLine), (s.coh.slices[s.homeOf pa].blockedAt (lineOf pa) = some b) ∧ (b.req.agent = some a) ∧ (b.cmpTaken = false) ∧ (b.granted = some st) ∧ ((decide (a.val < 48) && s.cacheFull a (lineOf pa)) = false)) ∧
    (∃ (s : State) (pa : BitVec 52) (b : Blocked), (s.coh.slices[s.homeOf pa].blockedAt (lineOf pa) = some b) ∧ (b.cmpTaken = true) ∧ (s.coh.slices[s.homeOf pa].waiting = [])) ∧
    (∃ (s : State) (a : AgentId) (pa : BitVec 52) (b : Blocked), (s.coh.slices[s.homeOf pa].blockedAt (lineOf pa) = some b) ∧ (b.req.agent = some a) ∧ (b.cmpTaken = false) ∧ (b.granted = none) ∧ (s.coh.slices[s.homeOf pa].waiting = []) ∧ (¬ a.val < 48) ∧ (s.isCxl a = false)) ∧
    (∃ (s : State) (a : AgentId) (pa : BitVec 52) (b : Blocked), (s.coh.slices[s.homeOf pa].blockedAt (lineOf pa) = some b) ∧ ((b.snoops.any fun n => n.agent = a && n.answer = none) = true) ∧ ((b.snoops.filter fun m => m.agent ≠ a) ≠ []) ∧ (s.coh.slices[s.homeOf pa].waiting = [])) ∧
    (∃ (s : State) (pa : BitVec 52) (b : Blocked), (s.coh.slices[s.homeOf pa].blockedAt (lineOf pa) = some b) ∧ (b.granted.isSome = true) ∧ (s.coh.slices[s.homeOf pa].waiting = []) ∧ (s.ras.flog.length < 1024)) ∧
    (∃ (s : State) (f : FieldId) (i : Nat), (i < s.coh.slices[f].stale.length) ∧ (s.ras.flog.length < 1024)) ∧
    (∃ (s : State) (a : AgentId), (s.isolated (agentNi a).1 (agentNi a).2 = true) ∧ (s.agentDead a = false)) ∧
    (∃ (s : State) (p : PortId) (v : VfId) (n : PanelId), (s.ports[p].vfs[v].bound = some n) ∧ (s.ports[p].vfs[v].flush.state = 1) ∧ ((s.ports[p].vfs[v].flush.todo.any s.flushing) = false) ∧ (s.ports[p].vfs[v].flush.irq = false)) ∧
    (∃ (s : State) (a : AgentId) (pa : BitVec 52), ((a, lineOf pa) ∈ s.coh.wbAcks)) :=
  ⟨⟨cohUp (fun c => { c with caches := [cleanC 40 .m (some 5)] }), 40, lineA, 5, 0, cleanC 40 .m (some 5), by decide +kernel, by decide +kernel, by decide +kernel, by decide +kernel, by decide +kernel, by decide +kernel⟩,
   ⟨cxlUp, 0, lineA, aWord, by decide +kernel, by decide +kernel, by decide +kernel, by decide +kernel, by decide +kernel, by decide +kernel⟩,
   ⟨blockedAs (blockedBy (.rdX 41) [snoopOf 40 .snpS none]), 40, lineA, blockedBy (.rdX 41) [snoopOf 40 .snpS none], by decide +kernel, by decide +kernel, by decide +kernel⟩,
   ⟨blockedAs (blockedBy (.rdX 41) [snoopOf 40 .snpI none]), 40, lineA, blockedBy (.rdX 41) [snoopOf 40 .snpI none], by decide +kernel, by decide +kernel, by decide +kernel⟩,
   ⟨blockedAs (blockedBy (.rdX 41) [snoopOf 40 .snpC none]), 40, lineA, blockedBy (.rdX 41) [snoopOf 40 .snpC none], by decide +kernel, by decide +kernel, by decide +kernel⟩,
   ⟨blockedAs (blockedBy (.rdX 41) [snoopOf 40 .snpI (some anAnswer), snoopOf 42 .snpI none]), 40, lineA, blockedBy (.rdX 41) [snoopOf 40 .snpI (some anAnswer), snoopOf 42 .snpI none], snoopOf 40 .snpI (some anAnswer), anAnswer, by decide +kernel, by decide +kernel, by decide +kernel, by decide +kernel, by decide +kernel, by decide +kernel, by decide +kernel, by decide +kernel⟩,
   ⟨blockedAs ({ blockedBy (.rdX 41) [] with granted := some .e }), 41, lineA, { blockedBy (.rdX 41) [] with granted := some .e }, .e, by decide +kernel, by decide +kernel, by decide +kernel, by decide +kernel, by decide +kernel⟩,
   ⟨blockedAs ({ blockedBy (.rdX 41) [] with cmpTaken := true }), lineA, { blockedBy (.rdX 41) [] with cmpTaken := true }, by decide +kernel, by decide +kernel, by decide +kernel⟩,
   ⟨blockedAs (blockedBy (.rdX 48) []), 48, lineA, blockedBy (.rdX 48) [], by decide +kernel, by decide +kernel, by decide +kernel, by decide +kernel, by decide +kernel, by decide +kernel, by decide +kernel⟩,
   ⟨blockedAs (blockedBy (.rdX 41) [snoopOf 40 .snpI none, snoopOf 42 .snpI none]), 40, lineA, blockedBy (.rdX 41) [snoopOf 40 .snpI none, snoopOf 42 .snpI none], by decide +kernel, by decide +kernel, by decide +kernel, by decide +kernel⟩,
   ⟨blockedAs ({ blockedBy (.rdX 41) [] with granted := some .e }), lineA, { blockedBy (.rdX 41) [] with granted := some .e }, by decide +kernel, by decide +kernel, by decide +kernel, by decide +kernel⟩,
   ⟨cohUp (fun c => { c with slices := vset c.slices 0 { c.slices[0] with stale := [{ agent := 40, tag := some 0, line := 0 }] } }), 0, 0, by decide +kernel, by decide +kernel⟩,
   ⟨(cohUp id).modNet (fun n => { n with sink := vset n.sink 0 0x20000 }), 40, by decide +kernel, by decide +kernel⟩,
   ⟨(cohUp id).modVf 0 0 (fun v => { v with flush := { v.flush with state := 1 } }), 0, 0, 0, by decide +kernel, by decide +kernel, by decide +kernel, by decide +kernel⟩,
   ⟨cohUp (fun c => { c with wbAcks := [(40, lineOf lineA)] }), 40, lineA, by decide +kernel⟩⟩

theorem witness_SiteLives :
    (∃ (s : State) (n : SiteId), (s.sites[n].stage = .sideband) ∧ (s.sites[n].attempt ≠ 3)) ∧
    (∃ (s : State) (n : SiteId) (m : Fin 17) (r : Fin 3), (s.sites[n].stage = .training) ∧ (m ≠ 0)) ∧
    (∃ (s : State) (n : SiteId), (s.sites[n].stage = .descriptor) ∧ (s.sites[n].state = 2) ∧ (s.otherHalf n = none) ∧ (bit s.fuse.sitePop n.val = true)) ∧
    (∃ (s : State) (n : SiteId) (payload : DWord), (s.sites[n].stage = .descriptor) ∧ (s.sites[n].descNext = fld payload.toNat 58 6) ∧ (fld payload.toNat 58 6 ≠ 63)) ∧
    (∃ (s : State) (n : SiteId), (s.sites[n].stage = .negotiated) ∧ (bit s.sites[n].granted 5 = false)) ∧
    (∃ (s : State) (n : SiteId) (payload : DWord), ((s.sites[n].state = 2 ∨ s.sites[n].inService = true)) ∧ (bit payload 63 = false)) ∧
    (∃ (s : State) (n : SiteId), (s.sites[n].inService = true) ∧ (s.otherHalf n = none)) ∧
    (∃ (s : State) (n : SiteId) (sample average : BitVec 10), (s.sites[n].enabled = true) ∧ (s.sites[n].double = 0) ∧ (s.sites[n].throttle = false) ∧ (sample.toNat ≤ 216) ∧ (average.toNat ≤ 180)) ∧
    (∃ (s : State) (n : SiteId) (r : BitVec 16), (s.sites[n].state = 3) ∧ ((s.recentRetrains n).length < 2)) ∧
    (∃ (s : State) (n : SiteId) (m : Fin 17), (s.sites[n].state = 4) ∧ (m ≠ 0)) ∧
    (∃ (s : State) (n : SiteId) (code : Byte), (7 ≤ code.toNat ∧ code.toNat ≤ 0xA) ∧ (s.sites[n].inService = true) ∧ (s.otherHalf n = none)) ∧
    (∃ (s : State) (n : SiteId), (s.sites[n].state = 5) ∧ (s.sites[n].enabled = true)) :=
  ⟨⟨State.reset.modSite 0 (fun x => { x with stage := .sideband }), 0, by decide +kernel, by decide +kernel⟩,
   ⟨State.reset.modSite 0 (fun x => { x with stage := .training }), 0, 8, 0, by decide +kernel, by decide +kernel⟩,
   ⟨State.reset.modSite 0 (fun x => { x with stage := .descriptor, state := 2 }), 0, by decide +kernel, by decide +kernel, by decide +kernel, by decide +kernel⟩,
   ⟨State.reset.modSite 0 (fun x => { x with stage := .descriptor }), 0, 0, by decide +kernel, by decide +kernel, by decide +kernel⟩,
   ⟨State.reset.modSite 0 (fun x => { x with stage := .negotiated }), 0, by decide +kernel, by decide +kernel⟩,
   ⟨State.reset.modSite 0 (fun x => { x with state := 3 }), 0, 1, by decide +kernel, by decide +kernel⟩,
   ⟨State.reset.modSite 0 (fun x => { x with state := 3 }), 0, by decide +kernel, by decide +kernel⟩,
   ⟨State.reset.modSite 0 (fun x => { x with enabled := true }), 0, 100, 100, by decide +kernel, by decide +kernel, by decide +kernel, by decide +kernel, by decide +kernel⟩,
   ⟨State.reset.modSite 0 (fun x => { x with state := 3 }), 0, 0, by decide +kernel, by decide +kernel⟩,
   ⟨State.reset.modSite 0 (fun x => { x with state := 4 }), 0, 8, by decide +kernel, by decide +kernel⟩,
   ⟨State.reset.modSite 0 (fun x => { x with state := 3 }), 0, 7, by decide +kernel, by decide +kernel, by decide +kernel⟩,
   ⟨State.reset.modSite 0 (fun x => { x with state := 5, enabled := true }), 0, by decide +kernel, by decide +kernel⟩⟩

theorem witness_SiteStream :
    (∃ (s : State) (n : SiteId) (h : BitVec 128) (b : Binding) (e : Fin 16) (v : Nat), (s.sites[n].state = 3) ∧ ((siteMsg h).type = 5) ∧ (s.bindingOf n (siteMsg h).binding = some b) ∧ (bit s.sites[n].granted 4 = true) ∧ (((siteMsg h).reserved || (siteMsg h).status ≠ 0 || (siteMsg h).count ≠ 0 || (siteMsg h).poison ≠ 0) = false) ∧ ((siteMsg h).arg = 268435456 * e.val + v) ∧ (v < 65536) ∧ (e.val < s.sites[n].endpoints) ∧ (s.sites[n].held = [])) ∧
    (∃ (s : State) (n : SiteId) (h : BitVec 128) (b : Binding) (z : State) (pa : BitVec 52) (tag : BitVec 12), (s.sites[n].state = 3) ∧ ((siteMsg h).type = 1) ∧ (s.siteAdmit n (siteMsg h) 0 ((siteMsg h).reserved || (siteMsg h).status ≠ 0 || (siteMsg h).poison ≠ 0 || (siteMsg h).arg ≠ 0 || (siteMsg h).count = 0 || decide (4 < (siteMsg h).count) || (siteMsg h).va.toNat % 64 ≠ 0 || decide (256 < (siteMsg h).va.toNat % 256 + 64 * (siteMsg h).count) || (siteMsg h).tagWrong) = .ok b) ∧ (s.plainBusy (siteEng n b (siteMsg h).tag) .read (runVas (siteMsg h).va (siteMsg h).count) = false) ∧ (s.translate (siteEng n b (siteMsg h).tag).agent (siteEng n b (siteMsg h).tag).sel (siteEng n b (siteMsg h).tag).panel (siteEng n b (siteMsg h).tag).tint (siteMsg h).va .read = (.ok (.pa pa), z)) ∧ (z.coherentAt pa = false) ∧ (z.freeTag n 16 false = some tag) ∧ ((∀ c, z.trunkTakes (z.nearCopy n pa) c = true))) ∧
    (∃ (s : State) (n : SiteId) (h : BitVec 128) (b : Binding) (ws : List CodeWord) (z : State) (pa : BitVec 52) (tag : BitVec 12), (s.sites[n].state = 3) ∧ ((siteMsg h).type = 2) ∧ ((siteMsg h).count ≤ ws.length) ∧ (s.siteAdmit n (siteMsg h) 0 ((siteMsg h).reserved || (siteMsg h).status ≠ 0 || (siteMsg h).arg ≠ 0 || (siteMsg h).tagWrong) = .ok b) ∧ (((siteMsg h).va.toNat % 64 ≠ 0 || (siteMsg h).count = 0 || decide (4 < (siteMsg h).count) || decide (256 < (siteMsg h).va.toNat % 256 + 64 * (siteMsg h).count)) = false) ∧ (s.plainBusy (siteEng n b (siteMsg h).tag) .write (runVas (siteMsg h).va (siteMsg h).count) = false) ∧ (s.translate (siteEng n b (siteMsg h).tag).agent (siteEng n b (siteMsg h).tag).sel (siteEng n b (siteMsg h).tag).panel (siteEng n b (siteMsg h).tag).tint (siteMsg h).va .write = (.ok (.pa pa), z)) ∧ (z.coherentAt pa = false) ∧ (z.freeTag n 16 false = some tag) ∧ ((∀ c, z.trunkTakes pa c = true))) ∧
    (∃ (s : State) (n : SiteId) (h : BitVec 128) (b : Binding) (opd : CodeWord) (cmp : DWord) (op : AtomicOp) (z : State) (pa : BitVec 52) (tag : BitVec 12), (s.sites[n].state = 3) ∧ ((siteMsg h).type = 3) ∧ (atomicOfCode ((siteMsg h).arg / 2 ^ 28) = some op) ∧ (s.siteAdmit n (siteMsg h) 3 ((siteMsg h).reserved || (siteMsg h).status ≠ 0 || ((siteMsg h).arg % 64) % atomicSize op ≠ 0 || fld (siteMsg h).arg 6 22 ≠ 0 || !((siteMsg h).count = 1 || ((siteMsg h).count = 2 && op = .cas64)) || (siteMsg h).tagWrong) = .ok b) ∧ (s.translate (siteEng n b (siteMsg h).tag).agent (siteEng n b (siteMsg h).tag).sel (siteEng n b (siteMsg h).tag).panel (siteEng n b (siteMsg h).tag).tint (wordVa (siteMsg h).va) .atomic = (.ok (.pa pa), z)) ∧ (z.freeTag n 16 true = some tag) ∧ ((∀ c, z.trunkTakes pa c = true))) ∧
    (∃ (s : State) (n : SiteId) (h : BitVec 128) (b : Binding) (a : ArrayId) (tag : BitVec 12), (s.sites[n].state = 3) ∧ ((siteMsg h).type = 4) ∧ (s.siteAdmit n (siteMsg h) 0 ((siteMsg h).reserved || (siteMsg h).status ≠ 0 || (siteMsg h).count ≠ 0 || (siteMsg h).poison ≠ 0 || (siteMsg h).va ≠ 0 || fld (siteMsg h).arg 8 12 ≠ 0 || BitVec.ofNat 8 (siteMsg h).arg = 0 || (siteMsg h).tagWrong) = .ok b) ∧ (s.arrayOf b.panel (fld (siteMsg h).arg 26 6) = some a) ∧ (s.freeTag n 16 true = some tag) ∧ ((∀ c, s.trunkTakes 0 c = true))) ∧
    (∃ (s : State) (n : SiteId) (id : TxId) (e : Fin 16) (off : BitVec 20) (ws : List CodeWord) (x : Txn), (s.txn id = some x) ∧ (x.kind = .write ws) ∧ (x.stage = .atTarget) ∧ (s.sites[n].held = []) ∧ ((s.sites[n].requests.any fun r => r.id = id) = false) ∧ ((paPartner x.pa = false ∧ paSpace x.pa = 4 ∧ paField x.pa = n ∧ paNear x.pa = 0x8000000 + e.val * 0x100000 + off.toNat)) ∧ (s.sites[n].credit[e] < ws.length) ∧ (s.sites[n].state ≠ 4)) ∧
    (∃ (s : State) (id : TxId) (x : Txn) (n : SiteId) (sem : Fin 64) (inc : Byte) (slot : Fin 8) (p : PanelId) (y : SiteId × Byte) (b : Binding) (tag : Nat), (s.txn id = some x) ∧ (x.kind = .signal n 16 sem inc slot) ∧ (x.stage = .atTarget) ∧ (s.isolated n 16 = false) ∧ ((s.sites[n].requests.any fun r => r.id = id) = false) ∧ (s.dedupOf n 16 id = none) ∧ (x.panel = some p) ∧ (s.pnl.panels[p].slots[slot] = some y) ∧ (s.bindingOf n y.2 = some b) ∧ (s.sites[n].freeTag true = some tag) ∧ (s.sites[n].state = 3)) ∧
    (∃ (s : State) (n : SiteId) (h : BitVec 128) (ws : List CodeWord) (r : SiteReq), (s.sites[n].state = 3) ∧ (((siteMsg h).type = 8 ∨ (siteMsg h).type = 9 ∨ (siteMsg h).type = 10)) ∧ ((s.sites[n].requests.find? fun r => r.tag = (siteMsg h).tag) = some r)) ∧
    (∃ (s : State) (n : SiteId) (tag : BitVec 12) (r : SiteReq) (x : Txn), ((s.sites[n].requests.find? fun r => r.tag = tag) = some r) ∧ (s.txn r.id = some x)) ∧
    (∃ (s : State) (n : SiteId) (j : Fin 6) (h : BitVec 128) (w : CodeWord) (pa : BitVec 52) (src : CohFrom), (s.sites[n].state = 3) ∧ ((siteMsg h).type = 0x10) ∧ (s.cohAdmit n j (siteMsg h) = .ok (pa, src)) ∧ ((siteMsg h).arg % 16 = 0) ∧ (s.agentMaySend (nativeAgent n j) pa = true) ∧ ((s.counted (agentNi (nativeAgent n j)) (s.homeOf pa, 17) src.tint 1).wayOut (agentNi (nativeAgent n j)) (s.homeOf pa, 17) = none) ∧ (s.clearLine (s.homeOf pa) (lineOf pa) (.rdS (nativeAgent n j) false) = true)) ∧
    (∃ (s : State) (n : SiteId) (j : Fin 6) (h : BitVec 128) (w : CodeWord) (pa : BitVec 52) (src : CohFrom) (b : Blocked) (q : Snoop), (s.sites[n].state = 3) ∧ ((siteMsg h).type = 0x13) ∧ (s.cohAdmit n j (siteMsg h) = .ok (pa, src)) ∧ (s.coh.slices[s.homeOf pa].blockedAt (lineOf pa) = some b) ∧ ((b.snoops.find? fun m => m.agent = nativeAgent n j) = some q) ∧ (Nat.testBit (siteMsg h).arg 5 = false) ∧ (s.isCxl (nativeAgent n j) = false) ∧ ((b.snoops.filter fun m => m.agent ≠ nativeAgent n j) ≠ []) ∧ (s.coh.slices[s.homeOf pa].waiting = [])) ∧
    (∃ (s : State) (n : SiteId) (cls : CxlClass), (s.sites[n].state = 3) ∧ (s.ras.flog.length < 1024)) :=
  ⟨⟨portUp engineBound, 0, head 5 0 0 1, engineBound, 0, 1, by decide +kernel, by decide +kernel, by decide +kernel, by decide +kernel, by decide +kernel, by decide +kernel, by decide +kernel, by decide +kernel, by decide +kernel⟩,
   ⟨portUp engineBound, 0, head 1 1 0 0, engineBound, portUp engineBound, lineA, 0, by decide +kernel, by decide +kernel, by decide +kernel, by decide +kernel, pair_of (by decide +kernel), by decide +kernel, by decide +kernel, fun ⟨b, d⟩ => by cases d <;> (revert b; decide +kernel)⟩,
   ⟨portUp engineBound, 0, head 2 1 0 0, engineBound, [aWord], portUp engineBound, lineA, 0, by decide +kernel, by decide +kernel, by decide +kernel, by decide +kernel, by decide +kernel, by decide +kernel, pair_of (by decide +kernel), by decide +kernel, by decide +kernel, fun ⟨b, d⟩ => by cases d <;> (revert b; decide +kernel)⟩,
   ⟨portUp engineBound, 0, head 3 1 0 0, engineBound, aWord, 0, .add32, portUp engineBound, lineA, 3072, by decide +kernel, by decide +kernel, by decide +kernel, by decide +kernel, pair_of (by decide +kernel), by decide +kernel, fun ⟨b, d⟩ => by cases d <;> (revert b; decide +kernel)⟩,
   ⟨portUp engineBound, 0, head 4 0 0 1, engineBound, 0, 3072, by decide +kernel, by decide +kernel, by decide +kernel, by decide +kernel, by decide +kernel, fun ⟨b, d⟩ => by cases d <;> (revert b; decide +kernel)⟩,
   ⟨withTxn ({ txnOf (.write [aWord]) .atTarget with pa := 0x4000008000000 }) (portUp engineBound), 0, txId, 0, 0, [aWord], { txnOf (.write [aWord]) .atTarget with pa := 0x4000008000000 }, by decide +kernel, by decide +kernel, by decide +kernel, by decide +kernel, by decide +kernel, by decide +kernel, by decide +kernel, by decide +kernel⟩,
   ⟨withTxn ({ txnOf (.signal 0 16 0 1 0) .atTarget with panel := some 0 }) (panelAs (fun x => { x with slots := vset x.slots 0 (some (0, 1)) }) (portUp engineBound)), txId, { txnOf (.signal 0 16 0 1 0) .atTarget with panel := some 0 }, 0, 0, 1, 0, 0, (0, 1), engineBound, 3072, by decide +kernel, by decide +kernel, by decide +kernel, by decide +kernel, by decide +kernel, by decide +kernel, by decide +kernel, by decide +kernel, by decide +kernel, by decide +kernel, by decide +kernel⟩,
   ⟨(portUp engineBound).modSite 0 (fun x => { x with requests := [{ tag := 0, id := txId, first := 0, count := 1 }] }), 0, head 8 1 0 0, [aWord], { tag := 0, id := txId, first := 0, count := 1 }, by decide +kernel, by decide +kernel, by decide +kernel⟩,
   ⟨withTxn ({ txnOf (.write [aWord]) .atTarget with pa := 0x4000008000000 }) ((portUp engineBound).modSite 0 (fun x => { x with requests := [{ tag := 0, id := txId, first := 0, count := 1 }] })), 0, 0, { tag := 0, id := txId, first := 0, count := 1 }, { txnOf (.write [aWord]) .atTarget with pa := 0x4000008000000 }, by decide +kernel, by decide +kernel⟩,
   ⟨nativeUp [], 0, 0, head 0x10 0 0x3000000000000 0, aWord, lineA, nativeFrom, by decide +kernel, by decide +kernel, by decide +kernel, by decide +kernel, by decide +kernel, by decide +kernel, by decide +kernel⟩,
   ⟨nativeUp [blockedBy (.rdX 41) [snoopOf 48 .snpI none, snoopOf 42 .snpI none]], 0, 0, head 0x13 0 0x3000000000000 0, aWord, lineA, nativeFrom, blockedBy (.rdX 41) [snoopOf 48 .snpI none, snoopOf 42 .snpI none], snoopOf 48 .snpI none, by decide +kernel, by decide +kernel, by decide +kernel, by decide +kernel, by decide +kernel, by decide +kernel, by decide +kernel, by decide +kernel, by decide +kernel⟩,
   ⟨portUp engineBound, 0, .io, by decide +kernel, by decide +kernel⟩⟩

theorem witness_ImageLoads :
    (∃ (s : State) (v : Word), ((s.pf0Open 0 || s.pf0Open 1) = true) ∧ (bit v 31 = true) ∧ (s.img.status = 0) ∧ (s.guarded = false) ∧ (badLength s.img.length.toNat = false) ∧ ((∀ p : PortId, s.ports[p].l0 = true))) ∧
    (∃ (s : State) (bs : List Byte), (s.img.status = 1) ∧ (bs.length = s.img.length.toNat)) ∧
    (∃ (s : State) (bs : List Byte) (p : PortId) (n : Nat) (x : HostReadReq), (s.ports[p].l0 = true) ∧ ((s.ports[p].reads.find? fun x => x.serial = n) = some x) ∧ (x.use = .image) ∧ (s.img.status = 1) ∧ (bs.length = s.img.length.toNat) ∧ (s.mayRead p = true)) ∧
    (∃ (s : State) (p : PortId) (n : Nat) (x : HostReadReq), ((s.ports[p].reads.find? fun x => x.serial = n) = some x) ∧ (x.use = .image) ∧ (s.img.status = 1) ∧ (s.mayRead p = true)) ∧
    (∃ (s : State), (s.img.status = 2)) ∧
    (∃ (s : State) (i : Image), (s.img.status = 3) ∧ (s.checkImage = .ok i) ∧ (i.header.kind = 2)) ∧
    (∃ (s : State) (i : Image), (s.img.status = 4) ∧ (s.img.kind = 1) ∧ (s.checkImage = .ok i)) ∧
    (∃ (s : State) (i : Image) (p : PanelId), (s.img.status = 4) ∧ (s.img.kind = 2) ∧ (p = asFin 40 s.img.panel.toNat) ∧ ((s.modPanel p fun x => { x with state := 0 }).checkImage = .ok i)) ∧
    (∃ (s : State) (i : Image), (s.img.status = 4) ∧ (s.img.kind = 3) ∧ (s.checkImage = .ok i) ∧ (s.pnl.panels[imagePanel i.header].state ≠ 0) ∧ (s.pnl.panels[imagePanel i.header].state ≠ 5)) ∧
    (∃ (s : State) (i : Image), (s.img.status = 4) ∧ (s.img.kind = 4) ∧ (s.checkImage = .ok i)) ∧
    (∃ (s : State) (i : Image), (s.img.status = 5) ∧ (s.img.failing = false) ∧ ((s.img.newBinds.any fun y => !s.sites[y.1].inService) = false) ∧ ((s.img.newBinds.any fun y => (s.bindingAt y.1 y.2).all fun b => b.phase ≠ .bound) = false) ∧ (parseImage s.img.staging s.img.length.toNat = .ok i) ∧ (i.header.kind = 2)) :=
  ⟨⟨{ (port id).modPorts (fun x => { x with l0 := true }) with img := { (port id).img with length := 64 } }, 2 ^ 31, by decide +kernel, by decide +kernel, by decide +kernel, by decide +kernel, by decide +kernel, by decide +kernel⟩,
   ⟨reading, List.replicate 64 0, by decide +kernel, by decide +kernel⟩,
   ⟨reading, List.replicate 64 0, 0, 0, imgRead, by decide +kernel, by decide +kernel, by decide +kernel, by decide +kernel, by decide +kernel, by decide +kernel⟩,
   ⟨reading, 0, 0, imgRead, by decide +kernel, by decide +kernel, by decide +kernel, by decide +kernel⟩,
   ⟨reading.modImg (fun x => { x with status := 2 }), by decide +kernel⟩,
   ⟨createUp 3, imageOf (createUp 3), by decide +kernel, ok_of noImage _ (by decide +kernel), by decide +kernel⟩,
   ⟨baseUp.modImg (fun x => { x with status := 4 }), imageOf (baseUp.modImg (fun x => { x with status := 4 })), by decide +kernel, by decide +kernel, ok_of noImage _ (by decide +kernel)⟩,
   ⟨createUp 4, imageOf ((createUp 4).modPanel 0 fun x => { x with state := 0 }), 0, by decide +kernel, by decide +kernel, by decide +kernel, ok_of noImage _ (by decide +kernel)⟩,
   ⟨panelUp 3 [], imageOf (panelUp 3 []), by decide +kernel, by decide +kernel, ok_of noImage _ (by decide +kernel), by decide +kernel, by decide +kernel⟩,
   ⟨panelUp 4 [(0x13, [])], imageOf (panelUp 4 [(0x13, [])]), by decide +kernel, by decide +kernel, ok_of noImage _ (by decide +kernel)⟩,
   ⟨createUp 5, okOf noImage (parseImage (createUp 5).img.staging (createUp 5).img.length.toNat), by decide +kernel, by decide +kernel, by decide +kernel, by decide +kernel, ok_of noImage _ (by decide +kernel), by decide +kernel⟩⟩

theorem witness_SiteBindings :
    (∃ (s : State) (n : SiteId) (tag : Byte) (b : Binding), (s.bindingAt n tag = some b) ∧ (b.phase = .new) ∧ (s.sites[n].state = 3) ∧ (s.img.failing = false)) ∧
    (∃ (s : State) (n : SiteId) (tag : Byte) (b : Binding), (s.bindingAt n tag = some b) ∧ (b.phase = .sent) ∧ (s.sites[n].inService = true)) ∧
    (∃ (s : State) (n : SiteId) (tag : Byte) (b : Binding), (s.bindingAt n tag = some b) ∧ (b.phase = .sent) ∧ ((n, tag) ∈ s.img.newBinds) ∧ (s.img.status = 5)) ∧
    (∃ (s : State) (n : SiteId) (tag : Byte) (b : Binding), (s.bindingAt n tag = some b) ∧ (s.unbindDue n b = true)) ∧
    (∃ (s : State) (n : SiteId) (tag : Byte) (b : Binding), (s.bindingAt n tag = some b) ∧ (b.phase = .unbinding)) ∧
    (∃ (s : State) (n : SiteId) (tag : Byte) (b : Binding), (s.bindingAt n tag = some b) ∧ (b.phase = .unbinding)) :=
  ⟨⟨bindingOn .new (id), 0, 1, { engineBound with phase := .new }, by decide +kernel, by decide +kernel, by decide +kernel, by decide +kernel⟩,
   ⟨bindingOn .sent (id), 0, 1, { engineBound with phase := .sent }, by decide +kernel, by decide +kernel, by decide +kernel⟩,
   ⟨bindingOn .sent (fun s => s.modImg fun x => { x with newBinds := [(0, 1)], status := 5 }), 0, 1, { engineBound with phase := .sent }, by decide +kernel, by decide +kernel, by decide +kernel, by decide +kernel⟩,
   ⟨bindingOn .bound (fun s => s.modImg fun x => { x with oldBinds := [(0, 1)] }), 0, 1, { engineBound with phase := .bound }, by decide +kernel, by decide +kernel⟩,
   ⟨bindingOn .unbinding (id), 0, 1, { engineBound with phase := .unbinding }, by decide +kernel, by decide +kernel⟩,
   ⟨bindingOn .unbinding (id), 0, 1, { engineBound with phase := .unbinding }, by decide +kernel, by decide +kernel⟩⟩

theorem witness_DustSteps :
    (∃ (s : State) (p : PanelId), (s.dustAt p 1 = true) ∧ (s.panelStill p = true)) ∧
    (∃ (s : State) (p : PanelId), (s.dustAt p 2 = true) ∧ (((allFin 8).any fun n => s.sites[n].inService && s.sites[n].bindings.any fun b => b.panel = p) = false)) ∧
    (∃ (s : State) (p : PanelId), (s.dustAt p 3 = true) ∧ (((s.panelLines p).any s.flushing) = false)) ∧
    (∃ (s : State) (p : PanelId), (s.dustAt p 4 = true)) ∧
    (∃ (s : State) (p : PanelId) (a : ArrayId), (s.dustAt p 5 = true) ∧ (a ∈ s.pnl.panels[p].arrays.filterMap id)) ∧
    (∃ (s : State) (p : PanelId), (s.dustAt p 6 = true) ∧ (s.lcs.retiring = none)) ∧
    (∃ (s : State) (p : PanelId), (s.pnl.panels[p].fill = true)) :=
  ⟨⟨dust 1, 0, by decide +kernel, by decide +kernel⟩,
   ⟨dust 2, 0, by decide +kernel, by decide +kernel⟩,
   ⟨dust 3, 0, by decide +kernel, by decide +kernel⟩,
   ⟨dust 4, 0, by decide +kernel⟩,
   ⟨dust 5, 0, 0, by decide +kernel, by decide +kernel⟩,
   ⟨dust 6, 0, by decide +kernel, by decide +kernel⟩,
   ⟨panelAs (fun x => { x with fill := true }) (vfUp id), 0, by decide +kernel⟩⟩

theorem witness_MailboxCommands :
    (∃ (s z : State) (w : State) (block : HostRead) (bs : List Byte), ((s.pf0Open 0 || s.pf0Open 1) = true) ∧ (s.mailAccepted 2 (fun a => isOperator a || (isVendor a && s.fuse.operatorKey.isNone)) (fun i => decide (i < 15)) z) ∧ (fld (z.arg 2).toNat 0 12 = 2136) ∧ (z.mailRead (asFin 2 (fld (z.arg 2).toNat 31 1)) (z.argPair 0) 2136 block = (some bs, w))) ∧
    (∃ (s z : State) (p : PanelId), ((s.pf0Open 0 || s.pf0Open 1) = true) ∧ (s.mailAccepted 3 (isOperator) (fun i => decide (i < 12)) z) ∧ (panelNamed z.pnl.cmdPanel = some p) ∧ (¬ (z.pnl.panels[p].state = 0 ∨ z.pnl.panels[p].state = 1 ∨ z.pnl.panels[p].state = 5)) ∧ (z.pnl.panels[p].sealed_ = false)) ∧
    (∃ (s z : State) (p : PanelId), ((s.pf0Open 0 || s.pf0Open 1) = true) ∧ (s.mailAccepted 4 (isPanel) (fun _ => false) z) ∧ (p = asFin 40 z.pnl.cmdPanel.toNat) ∧ (z.pnl.panels[p].state ≠ 0) ∧ (z.pnl.panels[p].state ≠ 5)) ∧
    (∃ (s z : State) (w : State) (bundle : HostRead) (bs : List Byte) (b : Bundle), ((s.pf0Open 0 || s.pf0Open 1) = true) ∧ (s.mailAccepted 5 (isPanel) (fun i => decide (i < 5) || decide (i < 7)) z) ∧ (bit (s.arg 4) 31 = false) ∧ (z.mailRead (asFin 2 (fld (z.arg 4).toNat 8 1)) (z.argPair 0) (z.argPair 2) bundle = (some bs, w)) ∧ (parseBundle bs (z.argPair 2) = .ok b)) ∧
    (∃ (s z : State) (n : Fin 32), ((s.pf0Open 0 || s.pf0Open 1) = true) ∧ (s.mailAccepted 6 (isOperator) (fun i => decide (i < 7)) z) ∧ ((z.arg 0).toNat = n.val) ∧ (z.pnl.commons[n].state = 0) ∧ ((!z.copyOk (z.argPair 1) (z.argPair 5) || (z.argPair 3 ≠ 0 && !z.mirrorOk (z.argPair 1) (z.argPair 3) (z.argPair 5)) || z.claimed.any fun r => overlap (z.argPair 1) (z.argPair 5) r.base r.length || (z.argPair 3 ≠ 0 && overlap (z.argPair 3) (z.argPair 5) r.base r.length)) = false) ∧ (z.pnl.keyRanges.length + (if z.argPair 3 = 0 then 1 else 2) ≤ 256)) ∧
    (∃ (s z : State) (n : Fin 32), ((s.pf0Open 0 || s.pf0Open 1) = true) ∧ (s.mailAccepted 7 (isOperator) (fun i => i = 0) z) ∧ ((z.arg 0).toNat = n.val) ∧ ((z.pnl.commons[n].state = 2 ∨ z.pnl.commons[n].state = 4)) ∧ (z.regionGrants n = 0)) ∧
    (∃ (s z : State), ((s.pf0Open 0 || s.pf0Open 1) = true) ∧ (s.mailAccepted 8 (isVendor) (fun i => i = 0) z) ∧ ((z.lcs.state = lcsTestUnlocked ∨ z.lcs.state = lcsPersonalized)) ∧ (z.lcs.target ≠ some lcsFielded) ∧ ((bit (z.arg 0) 0 = true → z.sealedPanels = 0))) ∧
    (∃ (s z : State) (w : State) (data : HostRead) (bs : List Byte), ((s.pf0Open 0 || s.pf0Open 1) = true) ∧ (s.mailAccepted 9 (isPanel) (fun i => decide (i < 17)) z) ∧ (¬ (fld (z.arg 2).toNat 0 25 % 64 ≠ 0 ∨ 16777216 < fld (z.arg 2).toNat 0 25 ∨ z.argPair 3 % 64 ≠ 0 ∨ !z.inOwnGrant (asFin 40 z.pnl.cmdPanel.toNat) (z.argPair 3) (fld (z.arg 2).toNat 0 25))) ∧ (z.mailRead (asFin 2 (fld (z.arg 2).toNat 31 1)) (z.argPair 0) (fld (z.arg 2).toNat 0 25) data = (some bs, w))) ∧
    (∃ (s : State), ((s.pf0Open 0 || s.pf0Open 1) = true) ∧ (s.pnl.cmdState ≠ 1) ∧ (s.pnl.cmdState ≠ 2)) ∧
    (∃ (s : State) (v : Word), ((s.pf0Open 0 || s.pf0Open 1) = true) ∧ (bit v 31 = true) ∧ (¬ (2 ≤ fld v.toNat 0 8 ∧ fld v.toNat 0 8 ≤ 0x0A)) ∧ (s.pnl.cmdState ≠ 1) ∧ (s.pnl.cmdState ≠ 2)) :=
  ⟨⟨mail 1 [0, 0, 2136] (vfUp id), mailed 2 (mail 1 [0, 0, 2136] (vfUp id)), _, .ok (List.replicate 2136 0), List.replicate 2136 0, by decide +kernel, mail_of _ _ _ _ (by decide +kernel), by decide +kernel, pair_of (by decide +kernel)⟩,
   ⟨mail 2 [] (panelAs (fun x => { x with state := 2 }) ({ (vfUp id) with fuse := { (vfUp id).fuse with operatorKey := some 0 } })), mailed 3 (mail 2 [] (panelAs (fun x => { x with state := 2 }) ({ (vfUp id) with fuse := { (vfUp id).fuse with operatorKey := some 0 } }))), 0, by decide +kernel, mail_of _ _ _ _ (by decide +kernel), by decide +kernel, by decide +kernel, by decide +kernel⟩,
   ⟨keyed 4 [], keyedOut 4 [], 0, by decide +kernel, ⟨by decide +kernel, by decide +kernel, by decide +kernel, accept_keyed _ _ 0 0 (by decide +kernel) (by decide +kernel) (keyIn_mac _ _ (by decide +kernel) (by decide +kernel) (by decide +kernel)) (by decide +kernel), by decide +kernel⟩, by decide +kernel, by decide +kernel, by decide +kernel⟩,
   ⟨keyed 5 [0, 0, 448], keyedOut 5 [0, 0, 448], _, .ok bundle0, bundle0, bundleOf, by decide +kernel, ⟨by decide +kernel, by decide +kernel, by decide +kernel, accept_keyed _ _ 0 0 (by decide +kernel) (by decide +kernel) (keyIn_mac _ _ (by decide +kernel) (by decide +kernel) (by decide +kernel)) (by decide +kernel), by decide +kernel⟩, by decide +kernel, pair_of (by decide +kernel), ok_of _ _ (by decide +kernel)⟩,
   ⟨mail 2 [0, 65536, 65536, 0, 0, 65536] ({ stackUp id with fuse := { (stackUp id).fuse with operatorKey := some 0 } }), mailed 6 (mail 2 [0, 65536, 65536, 0, 0, 65536] ({ stackUp id with fuse := { (stackUp id).fuse with operatorKey := some 0 } })), 0, by decide +kernel, mail_of _ _ _ _ (by decide +kernel), by decide +kernel, by decide +kernel, by decide +kernel, by decide +kernel⟩,
   ⟨mail 2 [] (({ (vfUp id) with fuse := { (vfUp id).fuse with operatorKey := some 0 } }).modPnl fun x => { x with commons := vset x.commons 0 { state := 2 } }), mailed 7 (mail 2 [] (({ (vfUp id) with fuse := { (vfUp id).fuse with operatorKey := some 0 } }).modPnl fun x => { x with commons := vset x.commons 0 { state := 2 } })), 0, by decide +kernel, mail_of _ _ _ _ (by decide +kernel), by decide +kernel, by decide +kernel, by decide +kernel⟩,
   ⟨mail 1 [1] { vfUp id with lcs := { (vfUp id).lcs with state := 1 } }, mailed 8 (mail 1 [1] { vfUp id with lcs := { (vfUp id).lcs with state := 1 } }), by decide +kernel, mail_of _ _ _ _ (by decide +kernel), by decide +kernel, by decide +kernel, by decide +kernel⟩,
   ⟨keyed 9 [0, 0, 64, 0, 0x30000], keyedOut 9 [0, 0, 64, 0, 0x30000], _, .ok (List.replicate 64 0), List.replicate 64 0, by decide +kernel, ⟨by decide +kernel, by decide +kernel, by decide +kernel, accept_keyed _ _ 0 0 (by decide +kernel) (by decide +kernel) (keyIn_mac _ _ (by decide +kernel) (by decide +kernel) (by decide +kernel)) (by decide +kernel), by decide +kernel⟩, by decide +kernel, pair_of (by decide +kernel)⟩,
   ⟨vfUp id, by decide +kernel, by decide +kernel, by decide +kernel⟩,
   ⟨vfUp id, 2 ^ 31, by decide +kernel, by decide +kernel, by decide +kernel, by decide +kernel, by decide +kernel⟩⟩

theorem witness_DebugAndFaultLog :
    (∃ (s z : State) (pa : BitVec 52) (d : DbgData), ((s.pf0Open 0 || s.pf0Open 1) = true) ∧ (dbgLoc s.pnl.dbgLoc = .word pa) ∧ (s.debugWord pa = (d, z))) ∧
    (∃ (s : State) (pa : BitVec 52), ((s.pf0Open 0 || s.pf0Open 1) = true) ∧ (dbgLoc s.pnl.dbgLoc = .word pa) ∧ (s.commonsAt pa = none) ∧ (((s.ownerAt pa.toNat).any fun p => s.pnl.panels[p].sealed_) = false)) ∧
    (∃ (s : State) (v : Word), ((s.pf0Open 0 || s.pf0Open 1) = true) ∧ (bit v 31 = true) ∧ (s.pnl.traceEnable = false)) ∧
    (∃ (s : State) (v : Word), ((s.pf0Open 0 || s.pf0Open 1) = true)) ∧
    (∃ (s : State) (v : Word), ((s.pf0Open 0 || s.pf0Open 1) = true) ∧ (bit v 30 = true) ∧ (bit v 29 = true) ∧ (s.ras.flogSevere = true) ∧ (s.ras.pkgFault = none)) ∧
    (∃ (s : State) (r : PatchRec) (l : List PatchRec), (s.inReset = false) ∧ (storeFirst s.ras.patches = (l, some r))) ∧
    (∃ (s : State) (source : BitVec 5) (code : Byte), (s.inReset = false) ∧ (s.ras.pkgFault = none)) ∧
    (∃ (s w : State) (v : Word) (request : HostRead) (fails : Option Nat) (bs : List Byte) (k : Nat) (ks : List Nat) (f2 : Fuses) (rest : Option Nat), (s.lcsOpen = true) ∧ (bit v 31 = true) ∧ (s.lcs.status = 0) ∧ (s.lcs.invalid = false) ∧ (s.lcs.target = none) ∧ ((s.modLcs fun l => { l with port := asFin 2 (fld v.toNat 0 1) }).mailRead (asFin 2 (fld v.toNat 0 1)) (fld s.lcs.src.toNat 6 46 * 64) 3584 request = (some bs, w)) ∧ (w.lcs.state ≠ lcsTestLocked) ∧ ((parseTransition bs).to_ ≠ 5) ∧ (w.fuse.freeSlots = k :: ks) ∧ (w.fuse.burn fails (transitionBits k (parseTransition bs).to_ (w.fuse.stepsAfter w.lcs.state.toNat (parseTransition bs).to_)) = (f2, rest, true))) :=
  ⟨⟨debugging, (debugging.debugWord lineA).2, lineA, (debugging.debugWord lineA).1, by decide +kernel, by decide +kernel, Prod.mk.eta.symm⟩,
   ⟨debugging, lineA, by decide +kernel, by decide +kernel, by decide +kernel, by decide +kernel⟩,
   ⟨vfUp id, 2 ^ 31, by decide +kernel, by decide +kernel, by decide +kernel⟩,
   ⟨vfUp id, 1, by decide +kernel⟩,
   ⟨{ vfUp id with ras := { (vfUp id).ras with flogSevere := true } }, 0x60000000, by decide +kernel, by decide +kernel, by decide +kernel, by decide +kernel, by decide +kernel⟩,
   ⟨{ vfUp id with ras := { (vfUp id).ras with patches := [{ kind := 1, code := 0, boot := 0, failed := 0, spare := 0, stored := false }] } }, { kind := 1, code := 0, boot := 0, failed := 0, spare := 0, stored := true }, [{ kind := 1, code := 0, boot := 0, failed := 0, spare := 0, stored := true }], by decide +kernel, by decide +kernel⟩,
   ⟨vfUp id, 1, 2, by decide +kernel, by decide +kernel⟩,
   ⟨lcsUp, lcsTo, 2 ^ 31, .ok lcsReq, none, lcsReq, lcsTo.fuse.freeSlots.headD 0, lcsTo.fuse.freeSlots.tail, lcsBurnt.1, lcsBurnt.2.1, by decide +kernel, by decide +kernel, by decide +kernel, by decide +kernel, by decide +kernel, lcs_read, by decide +kernel, by decide +kernel, by decide +kernel, by decide +kernel⟩⟩

theorem witness_TwinLinks :
    (∃ (s : State) (k : PortId) (lanes : BitVec 34), (s.twin.ports[k].state = 1) ∧ (s.elementsMayStart = true) ∧ (s.twin.ports[k].lanes &&& ~~~lanes = 0) ∧ (BitVec.ofNat 6 (twinWidth (popCount s.twin.ports[k].lanes)) ≠ 0)) ∧
    (∃ (s : State) (k : PortId) (lane : Fin 34) (n : Nat), (s.twin.ports[k].state = 2) ∧ (bit s.twin.ports[k].lanes lane.val = true) ∧ ((onBits s.twin.ports[k].spareLanes).head? = some n) ∧ (BitVec.ofNat 6 (twinWidth (popCount (setBit s.twin.ports[k].lanes lane.val false))) ≠ 0)) ∧
    (∃ (s : State) (k : PortId) (lane : Fin 34), (bit s.twin.ports[k].training lane.val = true) ∧ (s.twin.ports[k].state = 2)) ∧
    (∃ (s : State) (k : PortId), ((s.twin.ports[k].state = 1 ∨ s.twin.ports[k].state = 2 ∨ s.twin.ports[k].state = 3))) ∧
    (∃ (s : State) (k : PortId), (s.twin.ports[k].state = 5) ∧ (s.twin.ports[k].width ≠ 0)) ∧
    (∃ (s : State) (k : PortId) (seq ack : BitVec 12), (s.twin.ports[k].state = 2) ∧ (seq = s.twin.ports[k].expect) ∧ (s.lines[k].waiting = [])) ∧
    (∃ (s : State) (k : PortId) (f : TwinFlit) (fs : List TwinFlit), (s.twin.ports[k].state = 2) ∧ (s.twin.ports[k].rounds < 4) ∧ (s.lines[k].buffer = f :: fs)) ∧
    (∃ (s : State) (k : PortId), (s.twin.ports[k].state = 2) ∧ (4 ≤ s.twin.ports[k].rounds)) ∧
    (∃ (s : State) (k : PortId), (s.twin.ports[k].state = 3)) ∧
    (∃ (s : State) (k : PortId) (d : BitVec 512), (s.twinUp k = true) ∧ (s.twinKeyed = false) ∧ (s.twin.ports[k].levelSent = true) ∧ (s.twin.ports[otherPort k].level = 0)) ∧
    (∃ (s : State) (k : PortId) (part : BitVec 16) (bytes : List Byte), (s.twinUp k = true) ∧ (s.twinKeyed = true) ∧ (s.twin.ports[k].level ≠ 0)) :=
  ⟨⟨twins (fun x => { x with state := 1 }) (id), 0, 0xFFFFFFFF, by decide +kernel, by decide +kernel, by decide +kernel, by decide +kernel⟩,
   ⟨twins (fun x => { x with lanes := 0x1FFFFFFFF }) (id), 0, 0, 32, by decide +kernel, by decide +kernel, by decide +kernel, by decide +kernel⟩,
   ⟨twins (fun x => { x with training := 1 }) (id), 0, 0, by decide +kernel, by decide +kernel⟩,
   ⟨twins id id, 0, by decide +kernel⟩,
   ⟨twins (fun x => { x with state := 5 }) (id), 0, by decide +kernel, by decide +kernel⟩,
   ⟨twins id id, 0, 0, 0, by decide +kernel, rfl, by decide +kernel⟩,
   ⟨(twins id id).modLine 0 (fun x => { x with buffer := [{ seq := 0, header := 0, words := [], part := 0 }] }), 0, { seq := 0, header := 0, words := [], part := 0 }, [], by decide +kernel, by decide +kernel, by decide +kernel⟩,
   ⟨twins (fun x => { x with rounds := 4 }) (id), 0, by decide +kernel, by decide +kernel⟩,
   ⟨twins (fun x => { x with state := 3 }) (id), 0, by decide +kernel⟩,
   ⟨twins (fun x => { x with levelSent := true }) (id), 0, 0, by decide +kernel, by decide +kernel, by decide +kernel, by decide +kernel⟩,
   ⟨{ twins id id with lcs := { (twins id id).lcs with state := 3 } }, 0, 0, [1], by decide +kernel, by decide +kernel, by decide +kernel⟩⟩

theorem witness_TwinRequests :
    (∃ (s : State) (k : PortId) (h : BitVec 128) (tag : BitVec 12), (s.twinUp k = true) ∧ (s.twin.ports[k].level ≠ 0) ∧ ((twinMsg h).type = 1) ∧ ((s.twinAdmits k (twinMsg h) && (twinMsg h).arg = 0 && 0 < (twinMsg h).count && (twinMsg h).count ≤ 4 && (twinMsg h).addr % 64 = 0 && s.twin.bindings[(twinMsg h).binding].exports (twinMsg h).addr (twinMsg h).count false) = true) ∧ (s.freeTag (fieldOfTwin k) 21 false = some tag) ∧ ((∀ c, s.trunkTakes (BitVec.ofNat 52 (twinMsg h).addr) c = true))) ∧
    (∃ (s : State) (k : PortId) (h : BitVec 128) (tag : BitVec 12) (ws : List CodeWord), (s.twinUp k = true) ∧ (s.twin.ports[k].level ≠ 0) ∧ ((twinMsg h).type = 2) ∧ ((twinMsg h).count ≤ ws.length) ∧ ((s.twinAdmits k (twinMsg h) && (twinMsg h).arg = 0 && 0 < (twinMsg h).count && (twinMsg h).count ≤ 4 && s.twin.bindings[(twinMsg h).binding].exports (twinMsg h).addr (twinMsg h).count true) = true) ∧ (s.freeTag (fieldOfTwin k) 21 false = some tag) ∧ ((∀ c, s.trunkTakes (BitVec.ofNat 52 (twinMsg h).addr) c = true))) ∧
    (∃ (s : State) (k : PortId) (h : BitVec 128) (tag : BitVec 12) (opd : CodeWord) (cmp : DWord) (op : AtomicOp), (s.twinUp k = true) ∧ (s.twin.ports[k].level ≠ 0) ∧ ((twinMsg h).type = 3) ∧ (atomicOfCode ((twinMsg h).arg / 2 ^ 20) = some op) ∧ ((s.twinAdmits k (twinMsg h) && ((twinMsg h).arg % 64) % atomicSize op = 0 && fld (twinMsg h).arg 6 14 = 0 && s.twin.bindings[(twinMsg h).binding].exports ((twinMsg h).addr / 64 * 64) 1 true) = true) ∧ (s.twinMapped k (twinMsg h) = none) ∧ (s.freeTag (fieldOfTwin k) 21 true = some tag) ∧ ((∀ c, s.trunkTakes (BitVec.ofNat 52 ((twinMsg h).addr / 64 * 64)) c = true))) ∧
    (∃ (s : State) (k : PortId) (h : BitVec 128) (tag : BitVec 12) (a : ArrayId), (s.twinUp k = true) ∧ (s.twin.ports[k].level ≠ 0) ∧ ((twinMsg h).type = 4) ∧ ((s.twinAdmits k (twinMsg h) && BitVec.ofNat 8 (twinMsg h).arg ≠ 0 && fld (twinMsg h).arg 8 4 = 0) = true) ∧ (s.arrayOf s.twin.bindings[(twinMsg h).binding].panel (fld (twinMsg h).arg 18 6) = some a) ∧ (s.twinMapped k (twinMsg h) = none) ∧ (s.freeTag (fieldOfTwin k) 21 true = some tag) ∧ ((∀ c, s.trunkTakes 0 c = true))) ∧
    (∃ (s : State) (k : PortId) (h : BitVec 128) (ws : List CodeWord) (id : TxId) (w : TxId × Nat) (x : Txn) (n : Nat), (s.twinUp k = true) ∧ (id = ⟨(twinMsg h).field, (twinMsg h).ni, (twinMsg h).tag⟩) ∧ ((s.twin.ports[k].waits.find? fun w => w.1 = id) = some w) ∧ (w.2 = 1) ∧ (s.txn id = some x) ∧ (x.kind = .read n) ∧ ((twinMsg h).type = 8) ∧ (x.status = 0)) ∧
    (∃ (s : State) (k : PortId) (id : TxId) (h : BitVec 128) (x : Txn), (s.txn id = some x) ∧ (x.owner = .twin k h)) ∧
    (∃ (s : State) (k : PortId) (id : TxId) (w : TxId × Nat) (x : Txn), ((s.twin.ports[k].waits.find? fun w => w.1 = id) = some w) ∧ (s.txn id = some x)) :=
  ⟨⟨twins id id, 0, thead 1 1 0x3000000000000 0, 0, by decide +kernel, by decide +kernel, by decide +kernel, by decide +kernel, by decide +kernel, fun ⟨b, d⟩ => by cases d <;> (revert b; decide +kernel)⟩,
   ⟨twins id id, 0, thead 2 1 0x3000000000000 0, 0, [aWord], by decide +kernel, by decide +kernel, by decide +kernel, by decide +kernel, by decide +kernel, by decide +kernel, fun ⟨b, d⟩ => by cases d <;> (revert b; decide +kernel)⟩,
   ⟨twins id id, 0, thead 3 1 0x3000000000000 0, 3072, aWord, 0, .add32, by decide +kernel, by decide +kernel, by decide +kernel, by decide +kernel, by decide +kernel, by decide +kernel, by decide +kernel, fun ⟨b, d⟩ => by cases d <;> (revert b; decide +kernel)⟩,
   ⟨twins id id, 0, thead 4 0 0 1, 3072, 0, by decide +kernel, by decide +kernel, by decide +kernel, by decide +kernel, by decide +kernel, by decide +kernel, by decide +kernel, fun ⟨b, d⟩ => by cases d <;> (revert b; decide +kernel)⟩,
   ⟨withTxn (txnOf (.read 1) .inFlight) (twins (fun x => { x with waits := [(txId, 1)] }) (id)), 0, thead 8 1 0 0, [aWord], txId, (txId, 1), txnOf (.read 1) .inFlight, 1, by decide +kernel, by decide +kernel, by decide +kernel, by decide +kernel, by decide +kernel, by decide +kernel, by decide +kernel, by decide +kernel⟩,
   ⟨withTxn twinTxn (twins id id), 0, txId, thead 1 1 0 0, twinTxn, by decide +kernel, by decide +kernel⟩,
   ⟨withTxn (txnOf (.read 1) .inFlight) (twins (fun x => { x with waits := [(txId, 1)] }) (id)), 0, txId, (txId, 1), txnOf (.read 1) .inFlight, by decide +kernel, by decide +kernel⟩⟩

theorem witness_TwinPairs :
    (∃ (s : State) (k : PortId) (h : BitVec 128) (b : BindId) (w : CodeWord) (r : PaRange), (s.twinUp k = true) ∧ ((twinMsg h).type = 0x20) ∧ ((twinMsg h).count = 1) ∧ (b = (twinMsg h).binding) ∧ (s.twin.bindings[b].valid = true) ∧ (s.twin.bindings[b].role = 2) ∧ (s.twin.bindings[b].state ≠ 8) ∧ (2 ≤ s.twin.ports[k].level) ∧ (s.twinSecret k b (twinMsg h) = true) ∧ (s.twin.bindings[b].ranges[(twinMsg h).range]? = some r) ∧ ((twinMsg h).addr % 64 = 0) ∧ ((twinMsg h).addr + 64 ≤ r.length) ∧ (s.coherentAt (BitVec.ofNat 52 (r.base + (twinMsg h).addr)) = false)) ∧
    (∃ (s : State) (k : PortId) (h : BitVec 128) (b : BindId) (e : DWord), (s.twinUp k = true) ∧ ((twinMsg h).type = 0x21) ∧ (b = (twinMsg h).binding) ∧ (s.twin.bindings[b].valid = true) ∧ (s.twin.bindings[b].role = 2) ∧ (s.twin.bindings[b].state ≠ 8) ∧ (2 ≤ s.twin.ports[k].level) ∧ (s.twinSecret k b (twinMsg h) = true) ∧ (Nat.testBit (twinMsg h).arg 1 = false)) ∧
    (∃ (s : State) (k : PortId) (h : BitVec 128) (b : BindId) (e : DWord), (s.twinUp k = true) ∧ ((twinMsg h).type = 0x22) ∧ (b = (twinMsg h).binding) ∧ (s.twin.bindings[b].valid = true) ∧ (s.twin.bindings[b].role = 1) ∧ (s.twinSecret k b (twinMsg h) = true) ∧ ((s.twin.bindings[b].marks.any fun n => n.1 = e.toNat) = true) ∧ (s.twin.bindings[b].fencing = false)) ∧
    (∃ (s : State) (k : PortId) (h : BitVec 128) (b : BindId) (d : BitVec 512), (s.twinUp k = true) ∧ ((twinMsg h).type = 0x28) ∧ (d.toNat % 256 ≠ 0xFF) ∧ (b = (twinMsg h).binding) ∧ (s.twin.bindings[b].valid = true) ∧ ((s.bindPanel b).sealed_ = false) ∧ (s.twinSends k (twinHeader 0x29 1 0 0 0 0 b.val 0 0 0 0) [{ data := s.bindPayload b, mark := false }] = true)) ∧
    (∃ (s : State) (k j : PortId) (h : BitVec 128) (b : BindId) (d : BitVec 512), (s.twinUp k = true) ∧ ((twinMsg h).type = 0x29) ∧ (b = (twinMsg h).binding) ∧ (s.twin.bindings[b].valid = true) ∧ (s.seedWaits b = true) ∧ (d.toNat % 256 = 2) ∧ (d.toNat / 256 % 2 ^ 312 = (s.bindPayload b).toNat / 256 % 2 ^ 312) ∧ (s.bindPort b = some j) ∧ (s.pairWorks j = true)) ∧
    (∃ (s : State) (k : PortId) (fatal : Bool) (count : BitVec 16), (s.twinUp k = true)) ∧
    (∃ (s : State) (k : PortId), (s.twin.heartStopped = false) ∧ (s.twinUp k = true) ∧ (s.twinSends k (twinHeader 0x30 0 0 0 0 0 0 0 0 0 (flag false 23 + s.twin.ports[k].heartCount.toNat)) [] = true)) ∧
    (∃ (s : State), (s.twin.silent = false)) ∧
    (∃ (s : State) (v : Word) (b : BindId), ((s.pf0Open 0 || s.pf0Open 1) = true) ∧ (fld v.toNat 24 8 = 0xC5) ∧ (s.twin.ctlState ≠ 1) ∧ (b = asFin 64 (fld v.toNat 0 6)) ∧ (fld v.toNat 8 2 = 0) ∧ (s.twin.bindings[b].valid = true) ∧ (s.twin.bindings[b].role = 1) ∧ (s.twin.bindings[b].state = 2)) ∧
    (∃ (s : State) (v : Word) (b : BindId), ((s.pf0Open 0 || s.pf0Open 1) = true) ∧ (fld v.toNat 24 8 = 0xC5) ∧ (s.twin.ctlState ≠ 1) ∧ (b = asFin 64 (fld v.toNat 0 6)) ∧ (fld v.toNat 8 2 = 1) ∧ (s.twin.bindings[b].valid = true) ∧ (s.twin.bindings[b].role = 2) ∧ ((s.twin.bindings[b].state = 4 ∨ s.twin.bindings[b].state = 6)) ∧ (s.twin.bindings[b].seeded = true)) ∧
    (∃ (s : State) (v : Word) (b : BindId), ((s.pf0Open 0 || s.pf0Open 1) = true) ∧ (fld v.toNat 24 8 = 0xC5) ∧ (s.twin.ctlState ≠ 1) ∧ (b = asFin 64 (fld v.toNat 0 6)) ∧ (fld v.toNat 8 2 = 2) ∧ (s.twin.bindings[b].valid = true) ∧ (s.twin.bindings[b].role = 1) ∧ (s.twin.bindings[b].state = 7)) ∧
    (∃ (s : State) (v : Word) (b : BindId), ((s.pf0Open 0 || s.pf0Open 1) = true) ∧ (fld v.toNat 24 8 = 0xC5) ∧ (s.twin.ctlState ≠ 1) ∧ (b = asFin 64 (fld v.toNat 0 6)) ∧ (fld v.toNat 8 2 = 3) ∧ (s.twin.bindings[b].valid = true) ∧ (s.twin.bindings[b].role = 1) ∧ ((s.twin.bindings[b].state = 4 ∨ s.twin.bindings[b].state = 5 ∨ s.twin.bindings[b].state = 6)) ∧ (s.twin.bindings[b].marks = [])) ∧
    (∃ (s : State), (s.seedWaits s.twin.ctlBinding = true)) ∧
    (∃ (s : State) (b : BindId), (s.twin.bindings[b].valid = true) ∧ (s.twin.bindings[b].role = 1) ∧ (s.twin.bindings[b].state = 3) ∧ (s.twin.bindings[b].marks = [])) :=
  ⟨⟨twins id (fun b => { b with role := 2, ranges := [{ base := 0x3000000000000, length := 65536 }] }), 0, thead 0x20 1 0 0, 0, aWord, { base := 0x3000000000000, length := 65536 }, by decide +kernel, by decide +kernel, by decide +kernel, by decide +kernel, by decide +kernel, by decide +kernel, by decide +kernel, by decide +kernel, by decide +kernel, by decide +kernel, by decide +kernel, by decide +kernel, by decide +kernel⟩,
   ⟨twins id (fun b => { b with role := 2 }), 0, thead 0x21 1 0 0, 0, 5, by decide +kernel, by decide +kernel, by decide +kernel, by decide +kernel, by decide +kernel, by decide +kernel, by decide +kernel, by decide +kernel, by decide +kernel⟩,
   ⟨twins id (fun b => { b with marks := [(5, 0)] }), 0, thead 0x22 1 0 0, 0, 5, by decide +kernel, by decide +kernel, by decide +kernel, by decide +kernel, by decide +kernel, by decide +kernel, by decide +kernel, by decide +kernel⟩,
   ⟨twins id id, 0, thead 0x28 1 0 0, 0, 2, by decide +kernel, by decide +kernel, by decide +kernel, by decide +kernel, by decide +kernel, by decide +kernel, by decide +kernel⟩,
   ⟨(twins id id).modTwin (fun x => { x with ctlState := 1 }), 0, 0, thead 0x29 1 0 0, 0, 2, by decide +kernel, by decide +kernel, by decide +kernel, by decide +kernel, by decide +kernel, by decide +kernel, by decide +kernel, by decide +kernel, by decide +kernel⟩,
   ⟨twins id id, 0, false, 1, by decide +kernel⟩,
   ⟨twins id id, 0, by decide +kernel, by decide +kernel, by decide +kernel⟩,
   ⟨twins id id, by decide +kernel⟩,
   ⟨twins id (fun b => { b with state := 2 }), 0xC5000000, 0, by decide +kernel, by decide +kernel, by decide +kernel, by decide +kernel, by decide +kernel, by decide +kernel, by decide +kernel, by decide +kernel⟩,
   ⟨twins id (fun b => { b with role := 2, state := 4, seeded := true }), 0xC5000100, 0, by decide +kernel, by decide +kernel, by decide +kernel, by decide +kernel, by decide +kernel, by decide +kernel, by decide +kernel, by decide +kernel, by decide +kernel⟩,
   ⟨twins id (fun b => { b with state := 7 }), 0xC5000200, 0, by decide +kernel, by decide +kernel, by decide +kernel, by decide +kernel, by decide +kernel, by decide +kernel, by decide +kernel, by decide +kernel⟩,
   ⟨twins id (fun b => { b with state := 4 }), 0xC5000300, 0, by decide +kernel, by decide +kernel, by decide +kernel, by decide +kernel, by decide +kernel, by decide +kernel, by decide +kernel, by decide +kernel, by decide +kernel⟩,
   ⟨(twins id id).modTwin (fun x => { x with ctlState := 1 }), by decide +kernel⟩,
   ⟨twins id (fun b => { b with state := 3 }), 0, by decide +kernel, by decide +kernel, by decide +kernel, by decide +kernel⟩⟩

theorem witness_Resets :
    (∃ (s : State) (pin : PowerGood), (s.inReset = true) ∧ (bit s.pins.pwrgd (goodBit pin) = false) ∧ (setBit s.pins.pwrgd (goodBit pin) true = 0b11111) ∧ (s.pins.pkgResetN = true)) ∧
    (∃ (s : State) (pin : PowerGood), (s.inReset = false) ∧ (bit s.pins.pwrgd (goodBit pin) = true)) ∧
    (∃ (s : State), (s.inReset = false)) ∧
    (∃ (s : State), (s.inReset = true) ∧ (s.pins.pwrgd = 0b11111)) ∧
    (∃ (s : State), (s.inReset = false) ∧ (s.stage = 0)) ∧
    (∃ (s : State) (passed : Bool), (s.inReset = false) ∧ (s.stage = 1)) ∧
    (∃ (s : State) (passed : Bool), (s.inReset = false) ∧ (s.stage = 2) ∧ (s.retired = false)) ∧
    (∃ (s : State), (s.inReset = false) ∧ (s.stage = 3)) ∧
    (∃ (s : State), (s.inReset = false) ∧ (s.stage = 3) ∧ (s.ras.pkgFault = none)) ∧
    (∃ (s : State) (f : FieldId), (s.elementsMayStart = true) ∧ (s.fields[f].selfTest = false)) :=
  ⟨⟨{ State.reset with inReset := true, pins := { State.reset.pins with pwrgd := 0b11110 } }, .aux, by decide +kernel, by decide +kernel, by decide +kernel, by decide +kernel⟩,
   ⟨State.reset, .core, by decide +kernel, by decide +kernel⟩,
   ⟨State.reset, by decide +kernel⟩,
   ⟨{ State.reset with inReset := true, pins := { State.reset.pins with pkgResetN := false } }, by decide +kernel, by decide +kernel⟩,
   ⟨{ State.reset with stage := 0 }, by decide +kernel, by decide +kernel⟩,
   ⟨{ State.reset with stage := 1 }, true, by decide +kernel, by decide +kernel⟩,
   ⟨{ State.reset with stage := 2 }, true, by decide +kernel, by decide +kernel, by decide +kernel⟩,
   ⟨{ State.reset with stage := 3 }, by decide +kernel, by decide +kernel⟩,
   ⟨{ State.reset with stage := 3 }, by decide +kernel, by decide +kernel, by decide +kernel⟩,
   ⟨hostOpens State.reset, 0, by decide +kernel, by decide +kernel⟩⟩

theorem witness_SiteRails :
    (∃ (s : State) (n : SiteId), (s.elementsMayStart = true) ∧ (s.nextSite = some n)) ∧
    (∃ (s : State) (n : SiteId), (bit s.pins.sitePg n.val = false) ∧ (s.inReset = false) ∧ (s.sites[n].stage = .waitPower)) ∧
    (∃ (s : State) (n : SiteId), (s.sites[n].stage = .waitPower)) ∧
    (∃ (s : State) (n : SiteId), (bit s.pins.sitePg n.val = true) ∧ (s.inReset = false) ∧ (s.ras.flog.length < 1024)) :=
  ⟨⟨{ hostOpens State.reset with fuse := { State.reset.fuse with sitePop := 2 } }, 1, by decide +kernel, by decide +kernel⟩,
   ⟨State.reset.modSite 0 (fun x => { x with stage := .waitPower }), 0, by decide +kernel, by decide +kernel, by decide +kernel⟩,
   ⟨State.reset.modSite 0 (fun x => { x with stage := .waitPower }), 0, by decide +kernel⟩,
   ⟨{ State.reset with inReset := false, pins := { State.reset.pins with sitePg := 1 } }, 0, by decide +kernel, by decide +kernel, by decide +kernel⟩⟩

theorem witness_PowerAndClocks :
    (∃ (s : State), (s.inReset = false) ∧ (s.ras.pkgFault = none)) ∧
    (∃ (s : State), (s.clk.coreLock = true) ∧ (s.ras.pkgFault = none)) ∧
    (∃ (s : State) (n : SiteId), (bit s.clk.siteLock n.val = true) ∧ (s.sites[n].inService = true) ∧ (s.otherHalf n = none)) ∧
    (∃ (s : State) (k : PortId), (bit s.clk.twinLock k.val = true)) ∧
    (∃ (s : State) (p1 p10 : BitVec 13) (ten below floor : Bool), (s.inReset = false) ∧ (8 ≤ s.pwr.d.toNat) ∧ (s.pwr.d.toNat ≤ 64)) ∧
    (∃ (s : State) (sensors : Vector Byte 32) (hot : Bool), (s.inReset = false) ∧ (s.pwr.thermEvent = false)) ∧
    (∃ (s : State) (value : Word), ((s.pf0Open 0 || s.pf0Open 1) = true)) ∧
    (∃ (s : State) (value : Word), ((s.pf0Open 0 || s.pf0Open 1) = true)) :=
  ⟨⟨State.reset, by decide +kernel, by decide +kernel⟩,
   ⟨{ State.reset with clk := { State.reset.clk with coreLock := true } }, by decide +kernel, by decide +kernel⟩,
   ⟨({ State.reset with clk := { State.reset.clk with siteLock := 1 } }).modSite 0 (fun x => { x with state := 3 }), 0, by decide +kernel, by decide +kernel, by decide +kernel⟩,
   ⟨{ State.reset with clk := { State.reset.clk with twinLock := 1 } }, 0, by decide +kernel⟩,
   ⟨State.reset, 100, 100, true, false, false, by decide +kernel, by decide +kernel, by decide +kernel⟩,
   ⟨State.reset, Vector.replicate 32 90, false, by decide +kernel, by decide +kernel⟩,
   ⟨vfUp id, 4000, by decide +kernel⟩,
   ⟨vfUp id, 90, by decide +kernel⟩⟩

theorem witness_Registers :
    (∃ (s : State) (p : PortId) (off : BitVec 28) (tee : Bool) (w : DWord), (s.pf0Takes p = true) ∧ (s.retired = false) ∧ (off.toNat % 4 = 0) ∧ (reservedExtent off.toNat = false) ∧ (s.regWide (s.aim (.pf0 off)) = some w)) ∧
    (∃ (s : State) (p : PortId) (off : BitVec 28) (tee : Bool) (w : DWord) (h : Word), (s.pf0Takes p = true) ∧ (s.retired = false) ∧ (off.toNat % 4 = 0) ∧ (reservedExtent off.toNat = false) ∧ (s.regWide (s.aim (.pf0 off)) = none) ∧ (s.regWide (lowOf (s.aim (.pf0 off))) = some w) ∧ (s.latchedHigh (lowOf (s.aim (.pf0 off))) = some h)) ∧
    (∃ (s : State) (p : PortId) (v : VfId) (o : BitVec 16) (tee : Bool), (s.takesMemory p = true) ∧ (s.vfLive p v = true) ∧ (s.pageRefused p v o.toNat tee = false) ∧ (o.toNat % 4 = 0) ∧ (s.regWide (.vf p v o) = none) ∧ (s.regWide (lowOf (.vf p v o)) = none)) ∧
    (∃ (s : State) (p : PortId) (v : VfId) (o : BitVec 16) (size : Nat) (tee : Bool), (s.takesMemory p = true) ∧ (s.vfLive p v = true) ∧ (s.pageRefused p v o.toNat tee = false) ∧ (size ≠ 4 ∨ o.toNat % 4 ≠ 0) ∧ (s.ras.flog.length < 1024)) ∧
    (∃ (s : State) (p : PortId) (v : VfId) (o : BitVec 16) (size : Nat) (tee : Bool) (value : Word), (s.takesMemory p = true) ∧ (s.vfLive p v = true) ∧ (s.vfDust p v = false) ∧ (s.pageRefused p v o.toNat tee = false) ∧ (size ≠ 4 ∨ o.toNat % 4 ≠ 0)) ∧
    (∃ (s : State) (p : PortId) (v : VfId) (tee : Bool) (value : Word), (s.takesMemory p = true) ∧ (s.vfLive p v = true) ∧ (s.vfDust p v = false) ∧ (s.pageRefused p v (BitVec.toNat (0xE040 : BitVec 16)) tee = false) ∧ ((s.vf p v).bound.isNone = false)) ∧
    (∃ (s : State) (p : PortId) (v : VfId) (tee : Bool) (value : Word), (s.takesMemory p = true) ∧ (s.vfLive p v = true) ∧ (s.vfDust p v = false) ∧ (s.pageRefused p v (BitVec.toNat (0xE044 : BitVec 16)) tee = false) ∧ ((s.vf p v).bound.isNone = false)) ∧
    (∃ (s : State) (p : PortId) (tee : Bool) (value : Word), (s.pf0Takes p = true) ∧ (s.retired = false)) ∧
    (∃ (s : State) (port : PortId) (off : BitVec 28) (write : Bool), (s.pf0Takes port = true) ∧ (reservedExtent off.toNat = true) ∧ (off.toNat % 4 = 0) ∧ (s.ras.flog.length < 1024)) ∧
    (∃ (s : State) (pa : BitVec 52) (value : Word), (s.inReset = false) ∧ (paPartner pa = false) ∧ (paSpace pa = 5) ∧ (fld pa.toNat 28 20 = 0)) ∧
    (∃ (s : State) (pa : BitVec 52) (size : Nat) (value : Word), (s.inReset = false) ∧ (paPartner pa = false) ∧ (paSpace pa = 5) ∧ (fld pa.toNat 28 20 = 0)) :=
  ⟨⟨vfUp id, 0, 0x1000010, false, ((vfUp id).regWide ((vfUp id).aim (.pf0 0x1000010))).getD 0, by decide +kernel, by decide +kernel, by decide +kernel, by decide +kernel, some_getD _ _ (by decide +kernel)⟩,
   ⟨{ vfUp id with latched := [(.pf0 0x1000010, 7)] }, 0, 0x1000014, false, (({ vfUp id with latched := [(.pf0 0x1000010, 7)] }).regWide (lowOf (({ vfUp id with latched := [(.pf0 0x1000010, 7)] }).aim (.pf0 0x1000014)))).getD 0, 7, by decide +kernel, by decide +kernel, by decide +kernel, by decide +kernel, by decide +kernel, some_getD _ _ (by decide +kernel), by decide +kernel⟩,
   ⟨vfUp id, 0, 0, 0x1010, false, by decide +kernel, by decide +kernel, by decide +kernel, by decide +kernel, by decide +kernel, by decide +kernel⟩,
   ⟨vfUp id, 0, 0, 0x1010, 2, false, by decide +kernel, by decide +kernel, by decide +kernel, by decide +kernel, by decide +kernel⟩,
   ⟨vfUp id, 0, 0, 0x1010, 2, false, 0, by decide +kernel, by decide +kernel, by decide +kernel, by decide +kernel, by decide +kernel⟩,
   ⟨vfUp id, 0, 0, false, 5, by decide +kernel, by decide +kernel, by decide +kernel, by decide +kernel, by decide +kernel⟩,
   ⟨vfUp id, 0, 0, false, 5, by decide +kernel, by decide +kernel, by decide +kernel, by decide +kernel, by decide +kernel⟩,
   ⟨vfUp id, 0, false, 5, by decide +kernel, by decide +kernel⟩,
   ⟨vfUp id, 0, 0x80C000, true, by decide +kernel, by decide +kernel, by decide +kernel, by decide +kernel⟩,
   ⟨vfUp id, 0x5000001000010, 0, by decide +kernel, by decide +kernel, by decide +kernel, by decide +kernel⟩,
   ⟨vfUp id, 0x5000001000010, 4, 0, by decide +kernel, by decide +kernel, by decide +kernel, by decide +kernel⟩⟩

theorem witness_ConfigurationSpace :
    (∃ (s : State) (p : PortId) (off : BitVec 12) (size : Nat) (tee : Bool), (s.ports[p].l0 = true) ∧ (s.stage = 4)) ∧
    (∃ (s : State) (p : PortId) (v : VfId) (off : BitVec 12) (size : Nat) (tee : Bool), (s.stage = 4) ∧ (s.vfThere p v = true) ∧ (s.ports[p].vfs[v].resetting = false)) ∧
    (∃ (s : State) (p : PortId) (tee : Bool) (value : Word), (s.ports[p].l0 = true) ∧ (s.stage = 4)) :=
  ⟨⟨port id, 0, 0, 4, false, by decide +kernel, by decide +kernel⟩,
   ⟨vfUp id, 0, 0, 0, 4, false, by decide +kernel, by decide +kernel, by decide +kernel⟩,
   ⟨port id, 0, false, 5, by decide +kernel, by decide +kernel⟩⟩

theorem witness_ManagementAndTest :
    (∃ (s : State) (method : I3cAssign) (address : BitVec 7), (bit s.pins.pwrgd 0 = true)) ∧
    (∃ (s : State) (bytes : List Byte), (s.i3cLive = true) ∧ (bytes.length = 4)) ∧
    (∃ (s : State) (bytes : List Byte), (s.i3cLive = true) ∧ (bytes.length = 8) ∧ (s.inReset = false)) ∧
    (∃ (s : State), (s.i3cLive = true)) ∧
    (∃ (s : State) (instr : TapInstr), (bit s.pins.pwrgd 0 = true)) :=
  ⟨⟨State.reset, .setaasa, 9, by decide +kernel⟩,
   ⟨{ State.reset with side := { State.reset.side with dynAddr := some 9 } }, [0, 0, 0, 0], by decide +kernel, by decide +kernel⟩,
   ⟨{ State.reset with side := { State.reset.side with dynAddr := some 9 } }, List.replicate 8 0, by decide +kernel, by decide +kernel, by decide +kernel⟩,
   ⟨{ State.reset with side := { State.reset.side with dynAddr := some 9 } }, by decide +kernel⟩,
   ⟨State.reset, .idcode, by decide +kernel⟩⟩

/-! ## The manual's worked examples -/

/-- R26, R29, the example of 02: a BF16 CFOLD of 1000 by 300 by 1000 takes 44 passes. -/
theorem test_cfold_of_44_passes :
    let w : BitVec 128 := BitVec.ofNat 128 (0x20 * 2 ^ 26 + 10 * 2 ^ 22 + 10 * 2 ^ 18 + 10 * 2 ^ 14 + (299 * 2 ^ 12 + 999) * 2 ^ 32 + 999 * 2 ^ 64)
    passCount w (State.reset.arrays[0].cube.shape w) = 44 := by decide +kernel

/-- R50, the example of 02: the words of a CFOLD taken apart. -/
theorem test_cfold_words :
    let w : BitVec 128 := 0x000000000A2067FF003FFFFF8046B000
    let h := State.reset.arrays[0].cube.shape w
    (h.m, h.n, h.k, h.afmt, h.bfmt, h.ofmt) = (4096, 1024, 2048, 1, 1, 10) ∧ (adescNo w, bdescNo w, cdescNo w) = (3, 4, 5) := by decide +kernel

/-- R110, the example of 04: the near pool of F2 under H = 160. -/
theorem test_near_pool_address :
    let s := { State.reset with hbm := Vector.replicate 24 { ({} : StackState) with ready := true, mapped := true }, img := { State.reset.img with h := 160, x := 8 } }
    (s.modFt 2 fun x => { x with ready := true }).locate 0x0001400234567A40 = some (.hbm 8 34 1407033 1) := by decide +kernel

/-- R108, the example of 04: where the near part of a stack of 62 pseudo-channels starts. -/
theorem test_near_part_of_62 : nearStart 42949672960 62 = 1353002 ∧ nearStart 42949672960 64 = 1310720 := by decide +kernel

/-- R221, the example of 08: the home group of a line. -/
theorem test_home_group : homeGroup 0x0001400234567A40 = 0 := by decide +kernel

/-- R259, R260, the example of 09: an engine's SIG. -/
theorem test_sig_header :
    let m := siteMsg 0x18C000012A0000000000000010000C01
    (m.type, m.tag, m.binding, m.arg % 256, fld m.arg 20 6, fld m.arg 26 6, m.reserved) = (4, 0xC01, 0x2A, 1, 12, 6, false) := by decide +kernel

/-- R186, the example of 07: the route of A2 to S20. -/
theorem test_route_to_s20 :
    (walkRoute (.station 0 (niStation 2)) [5, 0, 2, 0, 2, 0, 8, 6]).map (fun r => (r.field, r.ni, r.crossed.length)) = some (6, 15, 3) := by decide +kernel

/-- R157, the example of 06: the indices of a virtual address at levels 2, 1 and 0. -/
theorem test_table_indices :
    (fld 0x004000160000 (levelShift 2) 13, fld 0x004000160000 (levelShift 1) 13, fld 0x004000160000 (levelShift 0) 13) = (0, 512, 22) := by decide +kernel

/-- R196, the example of 07: the budgets of tint 6 at S15's NI and at A25's. -/
theorem test_budgets :
    let s := State.reset.modNet fun n => { n with tints := vset n.tints 6 (2 ^ 31 + 3 * 2 ^ 24 + 40 * 2 ^ 16 + 128 * 2 ^ 8) }
    (s.budget 5 13 false 6, s.budget 5 0 true 6) = (7500, 18000) := by decide +kernel

end Sys2Proof.Tests
end

section
/-!
PROOFS. R5, R413, R414: the three ways an access reaches the register interface (space 5, the register window, a VF's
page), and what each of them leaves of an access that is not an aligned 32-bit word.
-/

namespace Sys2Proof.Machine

/-- The command of a host's register read is the port's read. -/
theorem exec_lowWordReadLatch_reg (s : State) (p : PortId) (r : RegAddr) (size : Nat) (tee : Bool) :
    exec (.lowWordReadLatch ⟨p, .reg r, size, tee⟩) s = .next (s.portRead p r size tee) := rfl

/-- The command of a host's register write is the port's write. -/
theorem exec_registerWrite_reg (s : State) (p : PortId) (r : RegAddr) (size : Nat) (tee : Bool) (value : Word) :
    exec (.registerWrite p ⟨.reg r, tee⟩ size value) s = .next (s.portWrite p r size tee value) := rfl

/-- R414: out of reset, an access within the first 256 MiB of the package's own space 5 is one to PF0's register at that
offset. -/
theorem exec_space5Access_own {s : State} {pa : BitVec 52} (write : Bool) (size : Nat) (value : Word)
    (hreset : s.inReset = false) (hown : paPartner pa = false) (hspace : paSpace pa = 5) (hlow : fld pa.toNat 28 20 = 0) :
    exec (.space5Access pa write size value) s =
      .next (if write then s.busWrite (.pf0 (pa.setWidth 28)) size value else s.readBack (.pf0 (pa.setWidth 28)) size) := by
  have taken : ¬ (s.inReset || paPartner pa || decide (paSpace pa ≠ 5)) = true := by simp [hreset, hown, hspace]
  show execSpace5Access pa write size value s = _
  unfold execSpace5Access
  dsimp only
  rw [if_neg taken, if_neg (not_not_intro hlow)]

/-- The register that space 5 names is out of alignment exactly when the address is: 4 divides 256 MiB. -/
theorem setWidth28_mod_four (pa : BitVec 52) : (pa.setWidth 28).toNat % 4 = pa.toNat % 4 := by
  rw [fold28]
  exact Nat.mod_mod_of_dvd _ (by decide)

/-- Settles O11: on each of the three ways the access reaches the register interface at its own offset (the lemmas above,
`pf0_read`, `pf0_write`, `page_read`, `page_write`), and `odd_access` says what that leaves. -/
theorem accessesOfOtherSizesAreLogged : Obligations.AccessesOfOtherSizesAreLogged := by
  unfold Obligations.AccessesOfOtherSizesAreLogged
  refine ⟨fun s pa size value hreset hown hspace hlow odd room => ?space5, fun s p off size tee value takes odd room => ?window,
    fun s p v o size tee value takes live dust unrefused odd room => ?page⟩
  case space5 =>
    rw [← setWidth28_mod_four] at odd
    rw [← fold28]
    obtain ⟨read, write⟩ := odd_access s (.pf0 (pa.setWidth 28)) size value odd room
    exact ⟨⟨_, exec_space5Access_own false size value hreset hown hspace hlow, read⟩,
      ⟨_, exec_space5Access_own true size value hreset hown hspace hlow, write⟩⟩
  case window =>
    obtain ⟨read, write⟩ := odd_access s (.pf0 off) size value odd room
    rw [← pf0_read size tee takes] at read
    rw [← pf0_write size tee value takes] at write
    exact ⟨⟨_, exec_lowWordReadLatch_reg .., read⟩, ⟨_, exec_registerWrite_reg .., write⟩⟩
  case page =>
    obtain ⟨read, write⟩ := odd_access s (.vf p v o) size value odd room
    rw [← page_read size tee takes live unrefused] at read
    rw [← page_write size tee value takes live dust unrefused] at write
    exact ⟨⟨_, exec_lowWordReadLatch_reg .., read⟩, ⟨_, exec_registerWrite_reg .., write⟩⟩

end Sys2Proof.Machine
end

section
/-!
PROOFS. R64, R413: the register block of an array in PF0's window, and the two words of its 64-bit registers.
-/

namespace Sys2Proof.Machine

/-- R413: the window's offset of an array's register does not wrap: the last field's arrays end below 0x900_0000. -/
theorem arrayOff_toNat (a : ArrayId) {k : Nat} (hk : k < 0x100000) :
    (arrayOff a k).toNat = 0x1000000 * (a.val / 5 + 1) + 0x100000 * (a.val % 5) + k := by
  have ha := a.isLt
  unfold arrayOff
  rw [BitVec.toNat_ofNat]
  exact Nat.mod_eq_of_lt (by omega)

/-- R412, R415: no part of an array's block is reserved. -/
theorem reservedExtent_arrayOff (a : ArrayId) {k : Nat} (hk : k < 0x100000) : reservedExtent (arrayOff a k).toNat = false := by
  have ha := a.isLt
  rw [arrayOff_toNat a hk]
  simp only [reservedExtent, Bool.or_eq_false_iff, decide_eq_false_iff_not]
  omega

/-- R413: the window's offset of an array's register names that array and the offset in its block. -/
theorem State.regWide_arrayOff (s : State) (a : ArrayId) {k : Nat} (hk : k < 0x100000) :
    s.regWide (.pf0 (arrayOff a k)) = s.arrayWide a k := by
  have ha := a.isLt
  have hoff := arrayOff_toNat a hk
  have hfrom : 0x1000000 ≤ (arrayOff a k).toNat := by omega
  have hto : (arrayOff a k).toNat < 0x9000000 := by omega
  have hfield : (arrayOff a k).toNat % 0x1000000 < 0x500000 := by omega
  have hblock : (arrayOff a k).toNat % 0x100000 = k := by omega
  have hnumber : 5 * ((arrayOff a k).toNat / 0x1000000 - 1) + (arrayOff a k).toNat % 0x1000000 / 0x100000 = a.val := by omega
  rw [far_wide s (arrayOff a k) a hfrom hto hfield (by rw [hnumber]; exact Fin.ofNat_val_eq_self a), hblock]

/-- R5, R271: over a port that takes it, a host's aligned read of an array's register is the register's own read. -/
theorem State.portRead_arrayOff {s : State} {p : PortId} (a : ArrayId) {k : Nat} (tee : Bool) (hk : k < 0x100000)
    (haligned : k % 4 = 0) (htakes : s.pf0Takes p = true) (hretired : s.retired = false) :
    s.portRead p (.pf0 (arrayOff a k)) 4 tee =
      (s.regRead (.pf0 (arrayOff a k))).2.emit (.regRead (.pf0 (arrayOff a k)) (s.regRead (.pf0 (arrayOff a k))).1) := by
  have hoff := arrayOff_toNat a hk
  exact far_read s p (arrayOff a k) tee (by omega) (by omega) (reservedExtent_arrayOff a hk) htakes hretired

/-- R64: the 64-bit register at ARR_PASSES is the pass count of an array in service. -/
theorem State.regWide_passesLow {s : State} {a : ArrayId} (hserves : s.arrays[a].st = 0) :
    s.regWide (passesLow a) = some s.arrays[a].cube.passes :=
  (s.regWide_arrayOff a (by decide)).trans (congrArg some (if_pos hserves))

/-- No 64-bit register begins at the high word of ARR_PASSES. -/
theorem State.regWide_passesHigh (s : State) (a : ArrayId) : s.regWide (passesHigh a) = none :=
  (s.regWide_arrayOff a (by decide)).trans rfl

/-- The high word of ARR_PASSES belongs to the register at its low word. -/
theorem lowOf_passesHigh (a : ArrayId) : lowOf (passesHigh a) = passesLow a := by
  have hhigh := arrayOff_toNat a (show 0x14 < 0x100000 by decide)
  have hlow := arrayOff_toNat a (show 0x10 < 0x100000 by decide)
  have hoff : arrayOff a 0x14 - 4 = arrayOff a 0x10 := by bv_omega
  exact congrArg RegAddr.pf0 hoff

/-- Settles O12: both words reach the register interface (`State.portRead_arrayOff`); the low word is read as the word of
a 64-bit register that begins there (`low_step`), the high word as the rest of it (`high_step`). -/
theorem passCountReadsLatchTheirHighWord : Obligations.PassCountReadsLatchTheirHighWord := by
  unfold Obligations.PassCountReadsLatchTheirHighWord
  intro s p tee a htakes hretired hserves
  have low := low_step s p tee (passesLow a) _ (State.regWide_passesLow hserves)
    (State.portRead_arrayOff a tee (by decide) (by decide) htakes hretired)
  have high := high_step s p tee (passesHigh a) (passesLow a) _ (lowOf_passesHigh a) (s.regWide_passesHigh a)
    (State.regWide_passesLow hserves) (State.portRead_arrayOff a tee (by decide) (by decide) htakes hretired)
  exact ⟨⟨_, exec_lowWordReadLatch_reg .., low⟩, ⟨_, exec_lowWordReadLatch_reg .., high⟩⟩

end Sys2Proof.Machine
end

section
/-!
PROOFS. The frame of every command: what it leads to changes only the parts of the state that `touches` lists for it.
-/

namespace Sys2Proof.Machine

/-- Each command leads on within its row of `touches`: what its own `..._leads` lemma says of its meaning, with that row
for the parts that may change. -/
theorem exec_leads (c : Instr) {s t : State} (e : exec c s = .next t) : s.Leads (fun p => (touches c).contains p = true) t := by
  have start := State.Leads.same s (fun p => (touches c).contains p = true)
  cases c with
  | cfold a corrected => apply execCfold_leads start a corrected e <;> rfl
  | cstream a corrected => apply execCstream_leads start a corrected e <;> rfl
  | csload a corrected => apply execCsload_leads start a corrected e <;> rfl
  | passBoundary a => apply execPassBoundary_leads start a e <;> rfl
  | haltRequest a source => apply execHaltRequest_leads start a source e <;> rfl
  | drain a => apply execDrain_leads start a e <;> rfl
  | stationarySlotValid a slot => apply execStationarySlotValid_leads start a slot e <;> rfl
  | cubeInstructionRetire a => apply execCubeInstructionRetire_leads start a e <;> rfl
  | arrayHardwareFault a code info => apply execArrayHardwareFault_leads start a code info e <;> rfl
  | signalForwardWindowEnd a => exact execSignalForwardWindowEnd_leads start a e rfl
  | arrFaultRead a => apply execArrFaultRead_leads start a e <;> rfl
  | seqFaultRead a => apply execSeqFaultRead_leads start a e <;> rfl
  | lowWordReadLatch req => apply execLowWordReadLatch_leads start req e <;> rfl
  | vectorIssue a core op => apply execVectorIssue_leads start a core op e <;> rfl
  | vectorLoad a core gather => apply execVectorLoad_leads start a core gather e <;> rfl
  | vectorStore a core => apply execVectorStore_leads start a core e <;> rfl
  | vatom a core => apply execVatom_leads start a core e <;> rfl
  | vmxq a core fmt => apply execVmxq_leads start a core fmt e <;> rfl
  | vtx a core => apply execVtx_leads start a core e <;> rfl
  | vtxdone a core => apply execVtxdone_leads start a core e <;> rfl
  | kernelRetire a launch => apply execKernelRetire_leads start a launch e <;> rfl
  | scheduleFetch a => apply execScheduleFetch_leads start a e <;> rfl
  | step a => apply execStep_leads start a e <;> rfl
  | stepend a => apply execStepend_leads start a e <;> rfl
  | stepCommit a => apply execStepCommit_leads start a e <;> rfl
  | signal a => apply execSignal_leads start a e <;> rfl
  | waitc a => apply execWaitc_leads start a e <;> rfl
  | loop a => apply execLoop_leads start a e <;> rfl
  | endloop a => apply execEndloop_leads start a e <;> rfl
  | dload a => apply execDload_leads start a e <;> rfl
  | kload a => apply execKload_leads start a e <;> rfl
  | vlaunch a => exact execVlaunch_leads start a e rfl
  | move a => apply execMove_leads start a e <;> rfl
  | moveRetire a channel => apply execMoveRetire_leads start a channel e <;> rfl
  | endSchedule a => apply execEndSchedule_leads start a e <;> rfl
  | nop a => apply execNop_leads start a e <;> rfl
  | semaphoreSignal id => apply execSemaphoreSignal_leads start id e <;> rfl
  | watchdogExpiry a => apply execWatchdogExpiry_leads start a e <;> rfl
  | livenessReport a => exact execLivenessReport_leads start a e rfl
  | arraySilent a => apply execArraySilent_leads start a e <;> rfl
  | stateCarryReadTimeout a => apply execStateCarryReadTimeout_leads start a e <;> rfl
  | stepRerun a => exact execStepRerun_leads start a e rfl
  | seqHalt a => apply execSeqHalt_leads start a e <;> rfl
  | seqResume a => apply execSeqResume_leads start a e <;> rfl
  | seqStepOne a => apply execSeqStepOne_leads start a e <;> rfl
  | invoke port v q => apply execInvoke_leads start port v q e <;> rfl
  | abort port v q => apply execAbort_leads start port v q e <;> rfl
  | nopCommand port v q => apply execNopCommand_leads start port v q e <;> rfl
  | invocationStart port v q => apply execInvocationStart_leads start port v q e <;> rfl
  | invocationComplete port v q => apply execInvocationComplete_leads start port v q e <;> rfl
  | invocationTimeout port v q => apply execInvocationTimeout_leads start port v q e <;> rfl
  | siteEngineSignal n tag array sem inc => apply execSiteEngineSignal_leads start n tag array sem inc e <;> rfl
  | hbmRead stack pc pick errors => apply execHbmRead_leads start stack pc pick errors e <;> rfl
  | hbmWrite id => apply execHbmWrite_leads start id e <;> rfl
  | hbmWriteDrain stack pc => apply execHbmWriteDrain_leads start stack pc e <;> rfl
  | fastTierAccess f bank errors => apply execFastTierAccess_leads start f bank errors e <;> rfl
  | networkAtomicPerform id errors => apply execNetworkAtomicPerform_leads start id errors e <;> rfl
  | conditionalWriteBack key => apply execConditionalWriteBack_leads start key e <;> rfl
  | refresh stack pc bank postpone makeUp => exact execRefresh_leads start stack pc bank postpone makeUp e rfl
  | hbmTempReadout stack temp => apply execHbmTempReadout_leads start stack temp e <;> rfl
  | hbmRepair stack value => apply execHbmRepair_leads start stack value e <;> rfl
  | softRepairDone stack resourceLeft => apply execSoftRepairDone_leads start stack resourceLeft e <;> rfl
  | stackTrainingAttempt stack => exact execStackTrainingAttempt_leads start stack e rfl
  | trainingStageDone stack passed failing => apply execTrainingStageDone_leads start stack passed failing e <;> rfl
  | trainingAttemptTimeout stack => apply execTrainingAttemptTimeout_leads start stack e <;> rfl
  | stackFillDone stack => apply execStackFillDone_leads start stack e <;> rfl
  | fastTierFillDone f => apply execFastTierFillDone_leads start f e <;> rfl
  | hbmRetire stack value => apply execHbmRetire_leads start stack value e <;> rfl
  | hbmTestRetrain stack value => apply execHbmTestRetrain_leads start stack value e <;> rfl
  | hbmTestSelftest stack value => apply execHbmTestSelftest_leads start stack value e <;> rfl
  | stackSelftestDone stack passed => exact execStackSelftestDone_leads start stack passed e rfl
  | hbmTestRate8g stack value => apply execHbmTestRate8g_leads start stack value e <;> rfl
  | skimHbmStrip stack errors => apply execSkimHbmStrip_leads start stack errors e <;> rfl
  | skimFtRow f errors => apply execSkimFtRow_leads start f errors e <;> rfl
  | primerZero slot value words => apply execPrimerZero_leads start slot value words e <;> rfl
  | primerCheck slot value words errors => apply execPrimerCheck_leads start slot value words errors e <;> rfl
  | primerSummarise slot value words errors => apply execPrimerSummarise_leads start slot value words errors e <;> rfl
  | primerMark slot value words => apply execPrimerMark_leads start slot value words e <;> rfl
  | primerAbort slot => exact execPrimerAbort_leads start slot e rfl
  | primerDone slot => exact execPrimerDone_leads start slot e rfl
  | rasMlogPop value => exact execRasMlogPop_leads start value e rfl
  | hbmPageRetire stack value => apply execHbmPageRetire_leads start stack value e <;> rfl
  | pageCopyDone stack => apply execPageCopyDone_leads start stack e <;> rfl
  | ftBankRetire f value => apply execFtBankRetire_leads start f value e <;> rfl
  | bankCopyDone f => apply execBankCopyDone_leads start f e <;> rfl
  | pageWalk f panel va access asker => apply execPageWalk_leads start f panel va access asker e <;> rfl
  | walkLevelRead f walk errors => apply execWalkLevelRead_leads start f walk errors e <;> rfl
  | midtileFault a va => apply execMidtileFault_leads start a va e <;> rfl
  | faultRecordWrite panel => apply execFaultRecordWrite_leads start panel e <;> rfl
  | fringHeadWrite port v value => apply execFringHeadWrite_leads start port v value e <;> rfl
  | fringEnable port v value => apply execFringEnable_leads start port v value e <;> rfl
  | fringArm port v value => apply execFringArm_leads start port v value e <;> rfl
  | faultResumeRetry port v value => apply execFaultResumeRetry_leads start port v value e <;> rfl
  | faultResumeAbort port v value => apply execFaultResumeAbort_leads start port v value e <;> rfl
  | trRootWrite port v high => apply execTrRootWrite_leads start port v high e <;> rfl
  | invalidationGo set value => apply execInvalidationGo_leads start set value e <;> rfl
  | engineInvalidationAck set engine => apply execEngineInvalidationAck_leads start set engine e <;> rfl
  | invalidationForce set => apply execInvalidationForce_leads start set e <;> rfl
  | networkRequestInject req => apply execNetworkRequestInject_leads start req e <;> rfl
  | networkDelivery id => apply execNetworkDelivery_leads start id e <;> rfl
  | networkResponse id nclk => apply execNetworkResponse_leads start id nclk e <;> rfl
  | routerDiscard id f => apply execRouterDiscard_leads start id f e <;> rfl
  | budgetWindowOpen f ni injection => exact execBudgetWindowOpen_leads start f ni injection e rfl
  | transactionTimeout id => apply execTransactionTimeout_leads start id e <;> rfl
  | atomicResend id => exact execAtomicResend_leads start id e rfl
  | dedupEntryExpiry f ni id => exact execDedupEntryExpiry_leads start f ni id e rfl
  | tagQuarantineEnd id => apply execTagQuarantineEnd_leads start id e <;> rfl
  | trunkHashChange boundary => apply execTrunkHashChange_leads start boundary e <;> rfl
  | lathFlitReceive boundary link dir seq crcOk => apply execLathFlitReceive_leads start boundary link dir seq crcOk e <;> rfl
  | lathReplay boundary link dir => apply execLathReplay_leads start boundary link dir e <;> rfl
  | lathLinkRetire boundary link => apply execLathLinkRetire_leads start boundary link e <;> rfl
  | lathSpareInService boundary link => exact execLathSpareInService_leads start boundary link e rfl
  | groutSinkAnswer id => apply execGroutSinkAnswer_leads start id e <;> rfl
  | timeoutIsolation f ni => apply execTimeoutIsolation_leads start f ni e <;> rfl
  | netIsolate value => apply execNetIsolate_leads start value e <;> rfl
  | cohRds agent ask => apply execCohRds_leads start agent ask e <;> rfl
  | cohRdx agent ask => apply execCohRdx_leads start agent ask e <;> rfl
  | cohUpg agent ask => apply execCohUpg_leads start agent ask e <;> rfl
  | cohInvx agent ask => apply execCohInvx_leads start agent ask e <;> rfl
  | cohRdc id pa => apply execCohRdc_leads start id pa e <;> rfl
  | cohWrl id pa word => apply execCohWrl_leads start id pa word e <;> rfl
  | cohFlushl id pa => apply execCohFlushl_leads start id pa e <;> rfl
  | cohAtomic id pa op off operand compare => apply execCohAtomic_leads start id pa op off operand compare e <;> rfl
  | cohWb agent pa tag tint => apply execCohWb_leads start agent pa tag tint e <;> rfl
  | cohEvc agent pa => exact execCohEvc_leads start agent pa e rfl
  | cxlDirtyEvict n pa word => apply execCxlDirtyEvict_leads start n pa word e <;> rfl
  | cxlCacheRequest n req pa word tag => apply execCxlCacheRequest_leads start n req pa word tag e <;> rfl
  | snoopSnps agent pa => exact execSnoopSnps_leads start agent pa e rfl
  | snoopSnpi agent pa => exact execSnoopSnpi_leads start agent pa e rfl
  | snoopSnpc agent pa => exact execSnoopSnpc_leads start agent pa e rfl
  | snoopResponse agent pa => apply execSnoopResponse_leads start agent pa e <;> rfl
  | cohCmpReceive agent pa => apply execCohCmpReceive_leads start agent pa e <;> rfl
  | cohAck src => apply execCohAck_leads start src e <;> rfl
  | cohHold pa => exact execCohHold_leads start pa e rfl
  | snoopTimeout agent pa => apply execSnoopTimeout_leads start agent pa e <;> rfl
  | ackTimeout pa => apply execAckTimeout_leads start pa e <;> rfl
  | staleEntryExpiry f index => apply execStaleEntryExpiry_leads start f index e <;> rfl
  | agentDead agent => apply execAgentDead_leads start agent e <;> rfl
  | cohFlushGo set value => apply execCohFlushGo_leads start set value e <;> rfl
  | cohFlushDone set => apply execCohFlushDone_leads start set e <;> rfl
  | siteBringupAttempt n answered => apply execSiteBringupAttempt_leads start n answered e <;> rfl
  | siteLinkTrained n modules rate => apply execSiteLinkTrained_leads start n modules rate e <;> rfl
  | siteAttemptTimeout n => apply execSiteAttemptTimeout_leads start n e <;> rfl
  | desc n payload => apply execDesc_leads start n payload e <;> rfl
  | siteInService n => apply execSiteInService_leads start n e <;> rfl
  | live n payload => apply execLive_leads start n payload e <;> rfl
  | liveTimeout n => apply execLiveTimeout_leads start n e <;> rfl
  | bind n tag => apply execBind_leads start n tag e <;> rfl
  | bound n tag => apply execBound_leads start n tag e <;> rfl
  | boundTimeout n tag => apply execBoundTimeout_leads start n tag e <;> rfl
  | unbind n tag => apply execUnbind_leads start n tag e <;> rfl
  | cleared n tag => apply execCleared_leads start n tag e <;> rfl
  | clearedTimeout n tag => apply execClearedTimeout_leads start n tag e <;> rfl
  | sitePowerSample n sample average => apply execSitePowerSample_leads start n sample average e <;> rfl
  | siteAdapterRetryTimeout x => apply execSiteAdapterRetryTimeout_leads start x e <;> rfl
  | siteRetrainDone n modules passed => apply execSiteRetrainDone_leads start n modules passed e <;> rfl
  | siteDeath n code => apply execSiteDeath_leads start n code e <;> rfl
  | siteRailRemoval n => apply execSiteRailRemoval_leads start n e <;> rfl
  | credit n header => apply execCredit_leads start n header e <;> rfl
  | endpointWrite n id endpoint offset words => apply execEndpointWrite_leads start n id endpoint offset words e <;> rfl
  | siteRd n header => apply execSiteRd_leads start n header e <;> rfl
  | siteWr n header words => apply execSiteWr_leads start n header words e <;> rfl
  | siteAt n header operand compare => apply execSiteAt_leads start n header operand compare e <;> rfl
  | siteSig n header => apply execSiteSig_leads start n header e <;> rfl
  | siteSignalToEngine id => apply execSiteSignalToEngine_leads start id e <;> rfl
  | siteResponse n header words => apply execSiteResponse_leads start n header words e <;> rfl
  | siteRequestTimeout n tag => apply execSiteRequestTimeout_leads start n tag e <;> rfl
  | cohReq n agent header word => apply execCohReq_leads start n agent header word e <;> rfl
  | cohRsp n agent header word => apply execCohRsp_leads start n agent header word e <;> rfl
  | cxlUnsupported n cls => apply execCxlUnsupported_leads start n cls e <;> rfl
  | linkTraining port rate width flit => apply execLinkTraining_leads start port rate width flit e <;> rfl
  | linkSpeedReached port rate => apply execLinkSpeedReached_leads start port rate e <;> rfl
  | linkDown port => apply execLinkDown_leads start port e <;> rfl
  | intaLevelChange port => apply execIntaLevelChange_leads start port e <;> rfl
  | msiXSend port v vector => apply execMsiXSend_leads start port v vector e <;> rfl
  | aspmL1Entry port substate => apply execAspmL1Entry_leads start port substate e <;> rfl
  | l0pNarrow port => apply execL0pNarrow_leads start port e <;> rfl
  | linkPmExit port => apply execLinkPmExit_leads start port e <;> rfl
  | sqTail port v q value => apply execSqTail_leads start port v q value e <;> rfl
  | cqHead port v q value => apply execCqHead_leads start port v q value e <;> rfl
  | queueEnable port v q value => apply execQueueEnable_leads start port v q value e <;> rfl
  | queueDisable port v q value => apply execQueueDisable_leads start port v q value e <;> rfl
  | commandTake port v q => apply execCommandTake_leads start port v q e <;> rfl
  | completionWrite port v q => apply execCompletionWrite_leads start port v q e <;> rfl
  | hostReadCompletion port read result => apply execHostReadCompletion_leads start port read result e <;> rfl
  | hostReadTimeout port read => apply execHostReadTimeout_leads start port read e <;> rfl
  | commandReadRetry port v q => apply execCommandReadRetry_leads start port v q e <;> rfl
  | bar2Read port v place bytes => apply execBar2Read_leads start port v place bytes e <;> rfl
  | bar2Write port v place poisoned bytes => apply execBar2Write_leads start port v place poisoned bytes e <;> rfl
  | inboundUnsupported port posted => apply execInboundUnsupported_leads start port posted e <;> rfl
  | spdmRequest port req => apply execSpdmRequest_leads start port req e <;> rfl
  | ideKm port stream key => exact execIdeKm_leads start port stream key e rfl
  | lockInterface port v => apply execLockInterface_leads start port v e <;> rfl
  | panelKeySet port v key => apply execPanelKeySet_leads start port v key e <;> rfl
  | startInterface port v => apply execStartInterface_leads start port v e <;> rfl
  | stopInterface port v => apply execStopInterface_leads start port v e <;> rfl
  | tdiError port v event => apply execTdiError_leads start port v event e <;> rfl
  | flr port v => apply execFlr_leads start port v e <;> rfl
  | functionResetComplete port v => apply execFunctionResetComplete_leads start port v e <;> rfl
  | bmeClear port v => apply execBmeClear_leads start port v e <;> rfl
  | vfEnableClear port => apply execVfEnableClear_leads start port e <;> rfl
  | d3hotEntry port vf => apply execD3hotEntry_leads start port vf e <;> rfl
  | pf0Flr port => apply execPf0Flr_leads start port e <;> rfl
  | hotReset port => apply execHotReset_leads start port e <;> rfl
  | numvfsWrite port value => apply execNumvfsWrite_leads start port value e <;> rfl
  | imgGo value => apply execImgGo_leads start value e <;> rfl
  | imageReadDone result => apply execImageReadDone_leads start result e <;> rfl
  | imageWaitEnd expired => exact execImageWaitEnd_leads start expired e rfl
  | imageCheckDone => apply execImageCheckDone_leads start e <;> rfl
  | baseImageApply => apply execBaseImageApply_leads start e <;> rfl
  | panelCreateApply => apply execPanelCreateApply_leads start e <;> rfl
  | panelDestroyApply => apply execPanelDestroyApply_leads start e <;> rfl
  | panelRebindApply => apply execPanelRebindApply_leads start e <;> rfl
  | imageBindingDone => apply execImageBindingDone_leads start e <;> rfl
  | dustHaltEnd p => apply execDustHaltEnd_leads start p e <;> rfl
  | dustUnbindEnd p => apply execDustUnbindEnd_leads start p e <;> rfl
  | dustFlushEnd p => apply execDustFlushEnd_leads start p e <;> rfl
  | dustKeysEnd p => exact execDustKeysEnd_leads start p e rfl
  | dustZeroEnd p => apply execDustZeroEnd_leads start p e <;> rfl
  | dustReleaseEnd p => apply execDustReleaseEnd_leads start p e <;> rfl
  | sealedFillDone p => apply execSealedFillDone_leads start p e <;> rfl
  | opkeyRotate block => apply execOpkeyRotate_leads start block e <;> rfl
  | panelAuthSet => apply execPanelAuthSet_leads start e <;> rfl
  | panelDestroy => apply execPanelDestroy_leads start e <;> rfl
  | bundleLoad bundle => apply execBundleLoad_leads start bundle e <;> rfl
  | commonsDefine => apply execCommonsDefine_leads start e <;> rfl
  | commonsRelease => apply execCommonsRelease_leads start e <;> rfl
  | debugEnable => apply execDebugEnable_leads start e <;> rfl
  | panelWrite data => apply execPanelWrite_leads start data e <;> rfl
  | lifeCycleMailboxRequest => apply execLifeCycleMailboxRequest_leads start e <;> rfl
  | debugRead => apply execDebugRead_leads start e <;> rfl
  | debugWrite => apply execDebugWrite_leads start e <;> rfl
  | traceEnable value => exact execTraceEnable_leads start value e rfl
  | lcsGo value request burnFails => apply execLcsGo_leads start value request burnFails e <;> rfl
  | rasFlogPop value => exact execRasFlogPop_leads start value e rfl
  | flogSevereClear value => apply execFlogSevereClear_leads start value e <;> rfl
  | patchStoreWrite => apply execPatchStoreWrite_leads start e <;> rfl
  | packageFault source code => apply execPackageFault_leads start source code e <;> rfl
  | twinTraining k lanes => apply execTwinTraining_leads start k lanes e <;> rfl
  | twinLaneRetire k lane => apply execTwinLaneRetire_leads start k lane e <;> rfl
  | twinSpareInService k lane => exact execTwinSpareInService_leads start k lane e rfl
  | twinPortDark k => apply execTwinPortDark_leads start k e <;> rfl
  | twinFlitReceive k seq ack crcOk => apply execTwinFlitReceive_leads start k seq ack crcOk e <;> rfl
  | twinReplay k => apply execTwinReplay_leads start k e <;> rfl
  | twinRetrain k => apply execTwinRetrain_leads start k e <;> rfl
  | twinRd k header => apply execTwinRd_leads start k header e <;> rfl
  | twinWr k header words => apply execTwinWr_leads start k header words e <;> rfl
  | twinAt k header operand compare => apply execTwinAt_leads start k header operand compare e <;> rfl
  | twinSig k header => apply execTwinSig_leads start k header e <;> rfl
  | twinResponse k header words => apply execTwinResponse_leads start k header words e <;> rfl
  | twinRemoteBound k id => apply execTwinRemoteBound_leads start k id e <;> rfl
  | twinLocalBound k id => apply execTwinLocalBound_leads start k id e <;> rfl
  | level k payload => apply execLevel_leads start k payload e <;> rfl
  | keyx k part last bytes => apply execKeyx_leads start k part last bytes e <;> rfl
  | ckpt k header words => apply execCkpt_leads start k header words e <;> rfl
  | ckptMark k header epoch => apply execCkptMark_leads start k header epoch e <;> rfl
  | ckptAck k header epoch => apply execCkptAck_leads start k header epoch e <;> rfl
  | bindQuery k header payload => apply execBindQuery_leads start k header payload e <;> rfl
  | bindReply k header payload => apply execBindReply_leads start k header payload e <;> rfl
  | heart k fatal count => apply execHeart_leads start k fatal count e <;> rfl
  | heartSend k => apply execHeartSend_leads start k e <;> rfl
  | heartSilence => apply execHeartSilence_leads start e <;> rfl
  | twinPortReturn k => apply execTwinPortReturn_leads start k e <;> rfl
  | seed value => apply execSeed_leads start value e <;> rfl
  | seedScanDone b => apply execSeedScanDone_leads start b e <;> rfl
  | seedQueryTimeout => exact execSeedQueryTimeout_leads start e rfl
  | promote value => apply execPromote_leads start value e <;> rfl
  | unfence value => apply execUnfence_leads start value e <;> rfl
  | fence value => apply execFence_leads start value e <;> rfl
  | pwrgdRise pin => apply execPwrgdRise_leads start pin e <;> rfl
  | pwrgdFall pin => apply execPwrgdFall_leads start pin e <;> rfl
  | pkgResetAssert => apply execPkgResetAssert_leads start e <;> rfl
  | pkgResetRelease => apply execPkgResetRelease_leads start e <;> rfl
  | perstAssert port => apply execPerstAssert_leads start port e <;> rfl
  | perstRelease port => apply execPerstRelease_leads start port e <;> rfl
  | bootStageDone passed => apply execBootStageDone_leads start passed e <;> rfl
  | siteEnSlot => apply execSiteEnSlot_leads start e <;> rfl
  | sitePgRise n => apply execSitePgRise_leads start n e <;> rfl
  | sitePgWaitTimeout n => exact execSitePgWaitTimeout_leads start n e rfl
  | sitePgFall n => apply execSitePgFall_leads start n e <;> rfl
  | refclkLoss => apply execRefclkLoss_leads start e <;> rfl
  | pllLockLoss pll => apply execPllLockLoss_leads start pll e <;> rfl
  | powerSample p1 p10 tenMicroseconds belowFor100 floorFor10ms => apply execPowerSample_leads start p1 p10 tenMicroseconds belowFor100 floorFor10ms e <;> rfl
  | tempSample sensors hotFor1ms => apply execTempSample_leads start sensors hotFor1ms e <;> rfl
  | pwrLimitWrite value => exact execPwrLimitWrite_leads start value e rfl
  | pwrThermWrite value => exact execPwrThermWrite_leads start value e rfl
  | i3cPrivateWrite bytes => apply execI3cPrivateWrite_leads start bytes e <;> rfl
  | i3cPrivateRead => apply execI3cPrivateRead_leads start e <;> rfl
  | i3cDynamicAddress method address => exact execI3cDynamicAddress_leads start method address e rfl
  | tapInstruction instr => apply execTapInstruction_leads start instr e <;> rfl
  | registerWrite port place size value => apply execRegisterWrite_leads start port place size value e <;> rfl
  | reservedExtentAccess port off kind => apply execReservedExtentAccess_leads start port off kind e <;> rfl
  | space5Access pa write size value => apply execSpace5Access_leads start pa write size value e <;> rfl
  | twinRetrainDone k passed => apply execTwinRetrainDone_leads start k passed e <;> rfl
  | fieldSelfTestDone f => apply execFieldSelfTestDone_leads start f e <;> rfl
  | wback agent pa => exact execWback_leads start agent pa e rfl
  | coreHardwareFault a core => apply execCoreHardwareFault_leads start a core e <;> rfl
  | moverHardwareFault a channel => apply execMoverHardwareFault_leads start a channel e <;> rfl
  | busMasterEnableSet port v => apply execBusMasterEnableSet_leads start port v e <;> rfl
  | undefinedMailboxOp value => apply execUndefinedMailboxOp_leads start value e <;> rfl

/-- A part of the state that a command's row does not list stands as before. -/
theorem exec_same {c : Instr} {s t : State} (e : exec c s = .next t) (p : Piece) (unlisted : (touches c).contains p = false) :
    s.Same p t :=
  (exec_leads c e).parts p (ne_true_of_eq_false unlisted)

end Sys2Proof.Machine
end

section
/-!
PROOFS. R392 to R396: the hub is in reset exactly while one of its six inputs is low. Two commands raise such an input
and two lower one (`kept_rise`, `kept_release`, `kept_fall`, `kept_assert`); four move another pin, the end of a boot
stage moves the boot registers but not the reset, and the rest leave both alone.
-/

namespace Sys2Proof.Machine

/-- R395: PERST_p_N is none of the six inputs, and the reset of a port moves no pin. -/
theorem perstAssert_allGood {s t : State} (port : PortId) (e : execPerstAssert port s = .next t) : t.pins.allGood = s.pins.allGood := by
  cases e
  split
  · rfl
  · split
    · rfl
    · exact (congrArg Pins.allGood (State.portReset_pins _ port)).trans rfl

/-- R395: nor is its release one of the six going high. -/
theorem perstRelease_allGood {s t : State} (port : PortId) (e : execPerstRelease port s = .next t) : t.pins.allGood = s.pins.allGood := by
  cases e
  split <;> rfl

/-- R394: SITE_PG_n is none of the six inputs, and a site's bring-up moves no input. -/
theorem sitePgRise_allGood {s t : State} (n : SiteId) (e : execSitePgRise n s = .next t) : t.pins.allGood = s.pins.allGood := by
  cases e
  split
  · rfl
  · split
    · rfl
    · exact (congrArg Pins.allGood (State.siteBegins_pins _ n)).trans rfl

/-- R394: nor does a log entry for a site that loses its power. -/
theorem sitePgFall_allGood {s t : State} (n : SiteId) (e : execSitePgFall n s = .next t) : t.pins.allGood = s.pins.allGood := by
  cases e
  split
  · rfl
  · split
    · rfl
    · split
      · exact (congrArg Pins.allGood (State.noteSite_pins _ n 0)).trans rfl
      · rfl

/-- Every command keeps the reset in step with the six inputs. -/
theorem kept_exec (c : Instr) {s t : State} (h : s.inReset = (!s.pins.allGood)) (e : exec c s = .next t) : ResetKept s t := by
  cases c with
  | pwrgdRise pin => exact kept_rise s pin t h e
  | pwrgdFall pin => exact kept_fall s pin t h e
  | pkgResetAssert => exact kept_assert s t e
  | pkgResetRelease => exact kept_release s t h e
  | bootStageDone passed => exact kept_same s t h (boot_inReset passed s t e) (congrArg Pins.allGood (exec_same e .pins rfl))
  | perstAssert port => exact kept_same s t h (exec_same e .boot rfl).1 (perstAssert_allGood port e)
  | perstRelease port => exact kept_same s t h (exec_same e .boot rfl).1 (perstRelease_allGood port e)
  | sitePgRise n => exact kept_same s t h (exec_same e .boot rfl).1 (sitePgRise_allGood n e)
  | sitePgFall n => exact kept_same s t h (exec_same e .boot rfl).1 (sitePgFall_allGood n e)
  | _ => exact kept_same s t h (exec_same e .boot rfl).1 (congrArg Pins.allGood (exec_same e .pins rfl))

/-- A tick of SCLK moves neither the reset nor a pin. -/
theorem kept_tick {s : State} (h : s.inReset = (!s.pins.allGood)) : ResetKept s s.tick := by
  have _ : Fact (Piece.sclk ≠ .boot ∧ Piece.sclk ≠ .pins) := ⟨by decide⟩
  have _ : Fact (Piece.twin ≠ .boot ∧ Piece.twin ≠ .pins) := ⟨by decide⟩
  have _ : Fact (Piece.lines ≠ .boot ∧ Piece.lines ≠ .pins) := ⟨by decide⟩
  have _ : Fact (Piece.out ≠ .boot ∧ Piece.out ≠ .pins) := ⟨by decide⟩
  have led := State.tick_leads (P := fun p => p ≠ .boot ∧ p ≠ .pins) (.same s _)
  exact kept_same s _ h (led.parts .boot (by decide)).1 (congrArg Pins.allGood (led.parts .pins (by decide)))

/-- A step is a tick, or a command over the rest of the queue, which neither the reset nor the pins know of. -/
theorem kept_step {s t : State} (h : s.inReset = (!s.pins.allGood)) (e : step s = .next t) : ResetKept s t := by
  unfold step at e
  split at e
  next =>
    cases e
    exact kept_tick h
  next c rest _ => exact kept_exec c (s := { s with pending := rest }) h e

/-- Settles O10: from reset, where all inputs are high, and by `kept_step` over every step. -/
theorem resetFollowsTheSixInputs : Obligations.ResetFollowsTheSixInputs := by
  unfold Obligations.ResetFollowsTheSixInputs
  exact ⟨rfl, good_iff, fun _ _ h e => kept_step h e⟩

end Sys2Proof.Machine
end

section
/-!
PROOFS. R402, R403: the power sample that raises a package fault.
-/

namespace Sys2Proof.Machine

/-- R403: out of reset, the sample is stored and the package fault raised on what it leaves. -/
theorem exec_powerSample_overLimit {s : State} {p1 : BitVec 13} (p10 : BitVec 13) (ten below : Bool)
    (hreset : s.inReset = false) (hfloor : s.pwr.d = 8) (hover : 4300 < p1.toNat) :
    ∃ f : PwrState → PwrState, exec (.powerSample p1 p10 ten below true) s = .next ((s.modPwr f).packageFault 17 3) := by
  have awake : ¬ s.inReset = true := by simp [hreset]
  exact ⟨_, congrArg _ ((if_neg awake).trans (if_pos ⟨hover, rfl, hfloor⟩))⟩

/-- Settles O13: the sample changes the power registers alone before the fault is raised, so that what `pkg_flog` and
`State.packageFault_sites` say of the fault is said of the log and the sites before the sample. -/
theorem powerAboveTheFloorIsAPackageFault : Obligations.PowerAboveTheFloorIsAPackageFault := by
  unfold Obligations.PowerAboveTheFloorIsAPackageFault
  intro s p1 p10 ten below hreset hfloor hover room
  obtain ⟨f, sampled⟩ := exec_powerSample_overLimit p10 ten below hreset hfloor hover
  obtain ⟨logged, severe, first⟩ := pkg_flog (s.modPwr f) 17 3 room
  exact ⟨_, sampled, logged, severe, first, State.packageFault_sites _ 17 3⟩

end Sys2Proof.Machine
end

section
/-!
PROOFS. The rules of every step: which parts a command changes, what it keeps, and that it always answers.
-/

namespace Sys2Proof.Machine

/-- What a command answers, by an equation for the state it leaves. -/
theorem next_of_eq {t u : State} (e : u = t) : (Host.Outcome.next u : Host.Outcome State Fault Refusal) = .next t := congrArg _ e

/-- Settles O6, by the row of `touches` that each command leads on within. -/
theorem commandsTouchOnlyTheirParts : Obligations.CommandsTouchOnlyTheirParts := by
  unfold Obligations.CommandsTouchOnlyTheirParts
  intro c s t e p unlisted
  exact exec_same e p (by simpa using unlisted)

/-- Settles O7. -/
theorem commandsKeepQueueAndOutputs : Obligations.CommandsKeepQueueAndOutputs := by
  unfold Obligations.CommandsKeepQueueAndOutputs
  intro c s t e
  have led := exec_leads c e
  exact ⟨led.queue, led.sent⟩

/-- The parts that a tick of SCLK may change. -/
def tickParts (p : Piece) : Prop := p = .sclk ∨ p = .twin ∨ p = .lines ∨ p = .out

/-- What a tick leads to: the count goes on, and the mirrors send (R381, R399). -/
theorem State.tick_leads_within (s : State) : s.Leads tickParts s.tick := by
  have _ : Fact (tickParts .sclk) := ⟨.inl rfl⟩
  have _ : Fact (tickParts .twin) := ⟨.inr (.inl rfl)⟩
  have _ : Fact (tickParts .lines) := ⟨.inr (.inr (.inl rfl))⟩
  have _ : Fact (tickParts .out) := ⟨.inr (.inr (.inr rfl))⟩
  exact State.tick_leads (.same s _)

/-- A step leads on from the state in which the command it takes has left the queue. -/
theorem step_leads {s t : State} (e : step s = .next t) :
    ∃ (q : List Instr) (P : Piece → Prop), { s with pending := q }.Leads P t := by
  unfold step at e
  split at e
  next =>
    cases e
    exact ⟨s.pending, tickParts, s.tick_leads_within⟩
  next c rest _ => exact ⟨rest, _, exec_leads c e⟩

/-- Settles O5: soundness does not speak of the queue, and a step leads on. -/
theorem stepsKeepSoundness : Obligations.StepsKeepSoundness := by
  unfold Obligations.StepsKeepSoundness
  intro s t sound e
  obtain ⟨q, P, led⟩ := step_leads e
  exact led.sound ⟨sound.mem, sound.pwr, sound.ras⟩

/-- Settles O8: nor do the fuses. -/
theorem fusesOnlyRise : Obligations.FusesOnlyRise := by
  unfold Obligations.FusesOnlyRise
  intro s t e
  obtain ⟨q, P, led⟩ := step_leads e
  exact led.fuse

/-- Settles O1. -/
theorem stepRunsFrontCommand : Obligations.StepRunsFrontCommand := by
  unfold Obligations.StepRunsFrontCommand
  intro c s rest front
  unfold step
  rw [front]

/-- On an empty queue a step is a tick. -/
theorem step_of_idle {s : State} (idle : s.pending = []) : step s = .next s.tick := by
  unfold step
  rw [idle]

/-- Settles O2. -/
theorem idleBlockTicks : Obligations.IdleBlockTicks := by
  unfold Obligations.IdleBlockTicks
  intro s idle
  have led := s.tick_leads_within
  refine ⟨fun asleep => ?_, fun awake => ⟨_, step_of_idle idle, ?_, led.queue.trans idle, ?_⟩⟩
  · rw [step_of_idle idle, State.tick, if_pos asleep]
  · rw [State.tick, if_neg (by simp [awake])]
  · intro p sclk twin lines out
    exact led.parts p (by simp [tickParts, *])

/-- Settles O3. -/
theorem resetStateIsSound : Obligations.ResetStateIsSound := by
  unfold Obligations.ResetStateIsSound
  constructor
  case mem => rfl
  case pwr => unfold PwrState.InRange; decide
  case ras => unfold RasState.InRange; decide

/-- Settles O4. -/
theorem resetLeavesRegisterValues : Obligations.ResetLeavesRegisterValues := by
  unfold Obligations.ResetLeavesRegisterValues
  refine ⟨rfl, rfl, rfl, rfl, rfl, rfl, rfl, rfl, rfl, by decide, by decide, by decide, by decide, rfl, rfl⟩

/-- Settles O9: the meaning of each command ends in a next state, whatever it chooses before. -/
theorem everyCommandCompletes : Obligations.EveryCommandCompletes := by
  unfold Obligations.EveryCommandCompletes
  intro c s
  cases c <;> exact ⟨_, rfl⟩

end Sys2Proof.Machine
end

section
/-!
PROOFS. R38 to R58: the issue of cube instructions.
-/

namespace Sys2Proof.Machine

/-- An instruction that nothing holds and whose checks accept it is queued with its descriptors, and launched. -/
theorem State.issueCube_of_accepted {s : State} {a : ArrayId} {op : Nat} {p : PanelId} {w : BitVec 128} (n : Nat)
    (hand : s.toIssue a op = some (p, w)) (going : (s.arrays[a].cube.ops.any fun o => o.stalled) = false)
    (slot : s.arrays[a].cube.slotBusy w = false) (acc : s.arrays[a].cube.slotWanting op = false)
    (ok : s.arrays[a].cube.reject s.arrays[a].mode w = none)
    (lines : s.linesBusy (s.cubeEng a p) .read
      (readVas ((s.arrays[a].cube.makeOp w (s.insPc a)).parts (s.arrays[a].cube.shape w) 0)) = false) :
    s.issueCube a op n = ((s.queueOp a (s.arrays[a].cube.makeOp w (s.insPc a))).launchOp a p
      (s.arrays[a].cube.makeOp w (s.insPc a))).storeEcc n := by
  unfold State.issueCube
  simp [-Fin.getElem_fin, hand, going, slot, acc, ok, lines]

/-- A cube instruction in hand that accumulates wants no stationary slot of its own. -/
theorem slotBusy_of_toIssue {s : State} {a : ArrayId} {op : Nat} {p : PanelId} {w : BitVec 128}
    (hand : s.toIssue a op = some (p, w)) (other : op ≠ opSload) : s.arrays[a].cube.slotBusy w = false :=
  slotBusy_not_sload _ _ (toIssue_op hand ▸ other)

theorem slotWanting_of_free {x : CubeState} {op : Nat} (free : x.freeAcc.isSome = true) : x.slotWanting op = false := by
  simp [CubeState.slotWanting, Option.isNone_eq_false_iff, free]

theorem slotWanting_sload (x : CubeState) : x.slotWanting opSload = false := rfl

/-- R51: what an accepted instruction leaves in flight and in hand, whatever its launch does. -/
theorem issued_ops {s : State} {a : ArrayId} (p : PanelId) (w : BitVec 128) (n : Nat) :
    let t := ((s.queueOp a (s.arrays[a].cube.makeOp w (s.insPc a))).launchOp a p (s.arrays[a].cube.makeOp w (s.insPc a))).storeEcc n
    t.arrays[a].cube.ops.map (fun o => (o.word, o.aDesc, o.bDesc)) = s.arrays[a].cube.ops.map (fun o => (o.word, o.aDesc, o.bDesc)) ++
        [(w, s.arrays[a].cube.descs[adescNo w], s.arrays[a].cube.descs[bdescNo w])] ∧
      t.arrays[a].seq.ir = none := by
  obtain ⟨ops, hand⟩ := passKey_launchOp (s.queueOp a (s.arrays[a].cube.makeOp w (s.insPc a))) a p (s.arrays[a].cube.makeOp w (s.insPc a))
  refine ⟨ops.trans ?_, hand.trans ?_⟩ <;> simp [-Fin.getElem_fin, passKey, State.queueOp, State.issued, opKey, CubeState.makeOp]

/-- An array whose instructions have all begun their passes has none stalled. -/
theorem none_stalled {l : List CubeOp} (h : (l.all fun q => decide (q.passes ≤ q.started) && !q.stalled) = true) :
    (l.any fun o => o.stalled) = false := by
  rw [List.any_eq_false]
  intro o mem
  have := List.all_eq_true.mp h o mem
  simp at this
  simp [this.2]

/-- Checking the footprint of a queued instruction moves neither its array nor a port. -/
theorem checkParts_queueOp {s s₁ : State} {a : ArrayId} {o : CubeOp} {e : Eng} {parts : List Part}
    (checked : (s.queueOp a o).checkParts e 0 parts = (none, s₁)) :
    s₁.arrays = (s.queueOp a o).arrays ∧ s₁.ports = s.ports :=
  ⟨(congrArg (fun r => r.2.arrays) checked).symm.trans (State.checkParts_arrays _ _ _ _),
    (congrArg (fun r => r.2.ports) checked).symm.trans (State.checkParts_ports _ _ _ _)⟩

/-- What a queued instruction leaves of its array. -/
theorem State.queueOp_array (s : State) (a : ArrayId) (o : CubeOp) :
    (s.queueOp a o).arrays[a] = { s.arrays[a] with
      cube := { s.arrays[a].cube with ops := s.arrays[a].cube.ops ++ [o], nextSerial := s.arrays[a].cube.nextSerial + 1 }
      seq := { s.arrays[a].seq with ir := none, afterStepend := false } } := by
  simp [-Fin.getElem_fin, State.queueOp, State.issued]

/-- The engine of an array's cubes is the same before and after the instruction is queued and its footprint checked. -/
theorem cubeEng_checked {s s₁ : State} {a : ArrayId} {o : CubeOp} (p : PanelId)
    (arrays : s₁.arrays = (s.queueOp a o).arrays) (ports : s₁.ports = s.ports) : s₁.cubeEng a p = s.cubeEng a p :=
  (cubeEng_congr (s := s.queueOp a o) a p ports (by rw [arrays]) (by rw [arrays]) (by rw [arrays])).trans (cubeEng_queueOp s a p o)

/-- R168: a queued instruction whose footprint translates fills its slot, or starts its first pass. -/
theorem State.launchOp_of_checked {s s₁ : State} {a : ArrayId} {p : PanelId} {o : CubeOp} {h : Shape} (unbegun : o.started = 0)
    (shape : s.arrays[a].cube.shape o.word = h)
    (checked : (s.queueOp a o).checkParts (s.cubeEng a p) 0 (o.parts h 0) = (none, s₁)) :
    (s.queueOp a o).launchOp a p o = if insField o.word 0 26 6 = opSload then s₁.fillSlot a p o else s₁.startPass a := by
  have shape' : (s.queueOp a o).arrays[a].cube.shape o.word = h := by rw [State.queueOp_array]; exact shape
  unfold State.launchOp
  dsimp only
  rw [shape', cubeEng_queueOp, unbegun, checked]

/-- R39, R47, R55: an accumulating instruction that is launched behind instructions whose passes have all begun starts its
first pass in the lowest free slot. -/
theorem launched_pass {s s₁ s₂ s₃ : State} {a : ArrayId} {p : PanelId} {w : BitVec 128} {slot : Fin 4}
    {init : Tile} {x y : Operand} (n : Nat) {op : Nat} (o : CubeOp) (made : o = s.arrays[a].cube.makeOp w (s.insPc a))
    (hand : s.toIssue a op = some (p, w)) (acc : op ≠ opSload)
    (begun : (s.arrays[a].cube.ops.all fun q => decide (q.passes ≤ q.started) && !q.stalled) = true)
    (some_pass : 0 < o.passes) (nohalt : s.arrays[a].cube.haltReq = none)
    (idle : (s.arrays[a].cube.acc.any fun t => decide (t.phase = .running)) = false)
    (free : s.arrays[a].cube.freeAcc = some slot)
    (filled : op = opStream → s.arrays[a].cube.stat[slotOf w].phase = .valid)
    (checked : (s.queueOp a o).checkParts (s.cubeEng a p) 0 (o.parts (s.arrays[a].cube.shape w) 0) = (none, s₁))
    (start : s₁.readInit (s.cubeEng a p) o (s.arrays[a].cube.shape w) (o.passAt (s.arrays[a].cube.shape w) 0).row
      (o.passAt (s.arrays[a].cube.shape w) 0).rows (o.passAt (s.arrays[a].cube.shape w) 0).col
      (o.passAt (s.arrays[a].cube.shape w) 0).cols = (.ok init, s₂))
    (operands : s₂.passOperands a (s.cubeEng a p) o (s.arrays[a].cube.shape w) (o.passAt (s.arrays[a].cube.shape w) 0) = (.ok (x, y), s₃))
    (lines : s₁.linesBusy (s.cubeEng a p) .read (readVas (o.parts (s.arrays[a].cube.shape w) 0)) = false) :
    (((s.queueOp a o).launchOp a p o).storeEcc n).arrays[a].cube.acc[slot] =
      ⟨.running, (passTile (s.arrays[a].cube.shape w) init x y).1, o.serial,
        (o.passAt (s.arrays[a].cube.shape w) 0).row, (o.passAt (s.arrays[a].cube.shape w) 0).col⟩ := by
  obtain ⟨word, unbegun, fresh⟩ : o.word = w ∧ o.started = 0 ∧ o.stalled = false := by rw [made]; exact ⟨rfl, rfl, rfl⟩
  clear made
  have opcode : insField w 0 26 6 = op := toIssue_op hand
  obtain ⟨panel, -, st, running, -⟩ := toIssue_run hand
  obtain ⟨arrays, ports⟩ := checkParts_queueOp checked
  have eng := cubeEng_checked p arrays ports
  have array : s₁.arrays[a] = _ := (congrArg (·[a]) arrays).trans (s.queueOp_array a o)
  have next : s₁.arrays[a].cube.nextOp = some o := by
    rw [array]
    simp only [CubeState.nextOp, all_done_next _ o begun (by rw [unbegun]; exact some_pass), fresh]
    rfl
  subst word
  rw [State.launchOp_of_checked unbegun rfl checked, opcode, if_neg acc]
  have shape : s₁.arrays[a].cube.shape o.word = s.arrays[a].cube.shape o.word := by rw [array]; rfl
  have started := startPass_starts s₁ s₁ s₂ s₃ a p o slot init x y
  rw [shape, eng] at started
  refine started ?_ ?_ ?_ ?_ ?_ next ?_ ?_ unbegun start operands lines
  all_goals rw [array]
  · exact nohalt
  · exact idle
  · exact running
  · exact st
  · exact panel
  · exact free
  · exact fun e => filled (opcode.symm.trans e)

/-- R45: a stationary load whose footprint translates, and whose operand reads, fills its slot. -/
theorem launched_load {s s₁ s₂ : State} {a : ArrayId} {p : PanelId} {w : BitVec 128} {x : Operand} (n : Nat)
    (o : CubeOp) (made : o = s.arrays[a].cube.makeOp w (s.insPc a)) (hand : s.toIssue a opSload = some (p, w))
    (checked : (s.queueOp a o).checkParts (s.cubeEng a p) 0 (o.parts (sloadShape w) 0) = (none, s₁))
    (operand : s₁.readOperand (s.cubeEng a p) o.bDesc (sloadShape w).bfmt 0 (sloadShape w).n (sloadShape w).k = (.ok x, s₂)) :
    (((s.queueOp a o).launchOp a p o).storeEcc n).arrays[a].cube.stat[slotOf w] =
      ⟨.filling, BitVec.ofNat 4 (sloadShape w).bfmt, (sloadShape w).k, (sloadShape w).n, x.rows, x.scales⟩ := by
  obtain ⟨word, unbegun⟩ : o.word = w ∧ o.started = 0 := by rw [made]; exact ⟨rfl, rfl⟩
  clear made
  subst word
  have opcode : insField o.word 0 26 6 = opSload := toIssue_op hand
  have shape : s.arrays[a].cube.shape o.word = sloadShape o.word := by unfold CubeState.shape; rw [opcode]; rfl
  obtain ⟨arrays, ports⟩ := checkParts_queueOp checked
  rw [State.launchOp_of_checked unbegun shape checked, if_pos opcode]
  unfold State.fillSlot
  dsimp only
  rw [cubeEng_checked p arrays ports, operand]
  simp [-Fin.getElem_fin, State.storeEcc]

/-- Settles O14: `State.issueCube_of_accepted` says what is launched, and `issued_ops`, `launched_pass` and `launched_load`
what the launch leaves. -/
theorem cubeIssue : Obligations.CubeIssue := by
  unfold Obligations.CubeIssue
  refine ⟨?fold, ?stream, ?sload, ?foldPass, ?streamPass, ?fill⟩
  case fold =>
    intro s a n p w hand going free ok lines
    exact ⟨_, next_of_eq (State.issueCube_of_accepted n hand going (slotBusy_of_toIssue hand (by decide)) (slotWanting_of_free free) ok lines),
      issued_ops p w n⟩
  case stream =>
    intro s a n p w hand going free ok lines
    exact ⟨_, next_of_eq (State.issueCube_of_accepted n hand going (slotBusy_of_toIssue hand (by decide)) (slotWanting_of_free free) ok lines),
      issued_ops p w n⟩
  case sload =>
    intro s a n p w hand going slot ok lines
    exact ⟨_, next_of_eq (State.issueCube_of_accepted n hand going slot (slotWanting_sload _) ok lines), issued_ops p w n⟩
  case foldPass =>
    rintro s s₁ s₂ s₃ a n p w _ slot init x y hand begun ok rfl pass nohalt lines idle free checked start operands clear
    exact ⟨_, next_of_eq (State.issueCube_of_accepted n hand (none_stalled begun) (slotBusy_of_toIssue hand (by decide))
        (slotWanting_of_free (Option.isSome_of_eq_some free)) ok lines),
      launched_pass n _ rfl hand (by decide) begun pass nohalt idle free (fun e => absurd e (by decide)) checked start operands clear⟩
  case streamPass =>
    rintro s s₁ s₂ s₃ a n p w _ slot init x y hand begun ok rfl pass nohalt lines idle free filled checked start operands clear
    exact ⟨_, next_of_eq (State.issueCube_of_accepted n hand (none_stalled begun) (slotBusy_of_toIssue hand (by decide))
        (slotWanting_of_free (Option.isSome_of_eq_some free)) ok lines),
      launched_pass n _ rfl hand (by decide) begun pass nohalt idle free (fun _ => filled) checked start operands clear⟩
  case fill =>
    rintro s s₁ s₂ a n p w _ x hand going slot ok rfl lines checked operand
    exact ⟨_, next_of_eq (State.issueCube_of_accepted n hand going slot (slotWanting_sload _) ok lines),
      launched_load n _ rfl hand checked operand⟩

end Sys2Proof.Machine
end

section
/-!
PROOFS. R48, R55, R62, R93: pass boundaries, halts and drains.
-/

namespace Sys2Proof.Machine

/-- R55, R62: what the end of the pass in slot `i` makes of the grid, before the next one may start. -/
def CubeState.passEnded (x : CubeState) (i : Fin 4) (n : Nat) : CubeState :=
  { x.modOp x.acc[i].serial (fun o => { o with ended := o.ended + 1 }) with
    acc := vmod x.acc i fun t => { t with phase := .queued }
    drainQ := x.drainQ ++ [i], pass := BitVec.ofNat 24 (min n 0xFFFFFF), passes := x.passes + 1 }

theorem exec_passBoundary {s : State} {a : ArrayId} {i : Fin 4}
    (running : ((allFin 4).find? fun i => decide (s.arrays[a].cube.acc[i].phase = .running)) = some i) :
    ∃ n, exec (.passBoundary a) s =
      .next ((((s.modCube a fun x => x.passEnded i n).progress a).haltPending a).startPass a) := by
  refine ⟨((s.arrays[a].cube.ops.find? fun o => o.serial = s.arrays[a].cube.acc[i].serial).map (·.ended)).getD 0 + 1, ?_⟩
  refine next_of_eq ?_
  dsimp only
  rw [running]
  dsimp only
  unfold State.modCube State.modArray
  simp only [vmod, vset, CubeState.passEnded]
  rfl

/-- With every pass begun and none stalled, the end of one leaves it so. -/
theorem passEnded_done {x : CubeState} (i : Fin 4) (n : Nat)
    (begun : (x.ops.all fun q => decide (q.passes ≤ q.started) && !q.stalled) = true) :
    ((x.passEnded i n).ops.all fun q => decide (q.passes ≤ q.started) && !q.stalled) = true :=
  modOp_done x _ _ (fun _ => ⟨rfl, rfl, rfl⟩) begun

theorem State.haltPending_none {s : State} {a : ArrayId} (h : s.arrays[a].cube.haltReq = none) : s.haltPending a = s := by
  unfold State.haltPending
  rw [h]

theorem State.haltPending_some {s : State} {a : ArrayId} {k : HaltKind} (h : s.arrays[a].cube.haltReq = some k) :
    s.haltPending a = s.haltEffect a k := by
  unfold State.haltPending
  rw [h]

/-- A halt leaves the grid no pass to start. -/
theorem startPass_haltEffect (s : State) (a : ArrayId) (k : HaltKind) : (s.haltEffect a k).startPass a = s.haltEffect a k :=
  startPass_done _ a (by rw [(haltEffect_array s a k).1]; exact halt_done _ _)

/-- R48, R93: the halt that a request of each source asks for. -/
def haltKindOf : HaltSource → HaltKind
  | .debug => .debug
  | .other => .other

/-- R48: a halt request reaches an array in service. -/
theorem exec_haltRequest {s : State} {a : ArrayId} (x : HaltSource) (st : s.arrays[a].st = 0) :
    exec (.haltRequest a x) s = .next (s.haltArray a (haltKindOf x)) := by
  refine next_of_eq ((if_neg (by simp [-Fin.getElem_fin, st])).trans ?_)
  cases x <;> rfl

/-- R48: where no pass runs, a halt takes effect at once. -/
theorem State.haltArray_of_idle {s : State} {a : ArrayId} (k : HaltKind)
    (idle : (s.arrays[a].cube.acc.any fun t => decide (t.phase = .running)) = false) : s.haltArray a k = s.haltEffect a k :=
  if_neg (by simp [-Fin.getElem_fin, idle])

/-- R48: otherwise the first request waits. -/
theorem State.haltArray_of_running {s : State} {a : ArrayId} (k : HaltKind)
    (running : (s.arrays[a].cube.acc.any fun t => decide (t.phase = .running)) = true) (first : s.arrays[a].cube.haltReq = none) :
    (s.haltArray a k).arrays[a] = { s.arrays[a] with cube := { s.arrays[a].cube with haltReq := some k } } := by
  unfold State.haltArray
  simp only [running, if_true, State.modCube_arrays, vmod_self, first]

/-- What a drain of the head of the queue comes to. -/
theorem exec_drain {s : State} {a : ArrayId} {i : Fin 4} {r : List (Fin 4)} {p : PanelId} {o : CubeOp}
    (head : s.arrays[a].cube.drainQ = i :: r) (panel : s.arrays[a].panel = some p)
    (owner : (s.arrays[a].cube.ops.find? fun q => decide (q.serial = s.arrays[a].cube.acc[i].serial)) = some o) :
    exec (.drain a) s = .next (if o.dest then s.drainToExchange a i else s.drainToMemory a p o i) := by
  refine next_of_eq ?_
  dsimp only
  rw [head, panel]
  dsimp only
  rw [owner]

theorem drainedSlot_done {x : CubeState} (i : Fin 4)
    (begun : (x.ops.all fun q => decide (q.passes ≤ q.started) && !q.stalled) = true) :
    ((x.drainedSlot i).ops.all fun q => decide (q.passes ≤ q.started) && !q.stalled) = true :=
  modOp_done x _ _ (fun _ => ⟨rfl, rfl, rfl⟩) begun

/-- R74: a tile that finds a free exchange slot, with no pass left to start. -/
theorem drainToExchange_cube {s : State} {a : ArrayId} {i e : Fin 4} (free : s.arrays[a].cube.freeExch = some e)
    (begun : (s.arrays[a].cube.ops.all fun q => decide (q.passes ≤ q.started) && !q.stalled) = true) :
    (s.drainToExchange a i).arrays[a].cube = { s.arrays[a].cube.drainedSlot i with
      exch := vset s.arrays[a].cube.exch e ⟨true, s.arrays[a].cube.exchOrder, s.arrays[a].cube.acc[i].tile, []⟩
      exchOrder := s.arrays[a].cube.exchOrder + 1 } := by
  unfold State.drainToExchange
  dsimp only
  rw [free]
  dsimp only
  rw [startPass_done]
  · rw [feed_cube]
    simp [-Fin.getElem_fin, CubeState.drainedSlot, CubeState.modOp]
  · rw [feed_cube]
    simp only [State.modCube_arrays, vmod_self]
    exact drainedSlot_done i begun

/-- Rows of unmarked words record no poison. -/
theorem State.poisonDrain_unmarked (s : State) (a : ArrayId) (p : PanelId) (i : Fin 4) (rows : List (DrainRow × OutFlags))
    (clean : (rows.all fun x => x.1.words.all fun w => !w.mark) = true) : s.poisonDrain a p i (rows.map fun x => x.1) = s := by
  have none : ((rows.map fun x => x.1).flatMap fun r => r.words).countP (fun w => w.mark) = 0 := by
    rw [List.countP_eq_zero]
    intro w mem
    obtain ⟨row, inRows, inRow⟩ := List.mem_flatMap.mp mem
    obtain ⟨x, inList, rfl⟩ := List.mem_map.mp inRows
    have := List.all_eq_true.mp (List.all_eq_true.mp clean x inList) w inRow
    simpa using this
  unfold State.poisonDrain
  exact if_pos none

/-- R42, R43, R53: a tile whose rows are all answered with status 0 and unmarked, with no pass left to start. -/
theorem drainToMemory_done {s s₁ : State} {a : ArrayId} {i : Fin 4} {p : PanelId} {o : CubeOp} {rows : List (DrainRow × OutFlags)}
    (made : rows = s.arrays[a].cube.drainRows o s.arrays[a].cube.acc[i] s.draws)
    (sent : (State.sendRows { s with draws := s.draws + 96 * 96 } ((s.cubeEng a p).at (.cube o.serial)) (rows.map fun x => x.1)) = (.ok (some 0), s₁))
    (clean : (rows.all fun x => x.1.words.all fun w => !w.mark) = true)
    (begun : (s₁.arrays[a].cube.ops.all fun q => decide (q.passes ≤ q.started) && !q.stalled) = true) :
    ∃ n : CubeState → BitVec 5, s.drainToMemory a p o i = s₁.modCube a fun y => { y.drainedSlot i with
      merge := rows.filterMap fun x => x.1.keep, numeric := n y } := by
  subst made
  unfold State.drainToMemory
  dsimp only
  rw [sent]
  dsimp only
  rw [State.poisonDrain_unmarked _ _ _ _ _ clean, State.writeDone, if_pos rfl, startPass_done]
  · exact ⟨_, rfl⟩
  · simp only [State.modCube_arrays, vmod_self]
    exact drainedSlot_done i begun

/-- The rows of a drain leave the arrays alone. -/
theorem State.sendRows_leaves {s s₁ : State} {e : Eng} {rows : List DrainRow} {r : Except VaFault (Option (BitVec 3))}
    (sent : s.sendRows e rows = (r, s₁)) : s₁.arrays = s.arrays :=
  (congrArg (fun x => x.2.arrays) sent).symm.trans (State.sendRows_arrays _ _ _)

theorem exec_stationarySlotValid {s : State} {a : ArrayId} {k : Fin 2} (filling : s.arrays[a].cube.stat[k].phase = .filling) :
    exec (.stationarySlotValid a k) s =
      .next ((s.modCube a fun x => { x with stat := vmod x.stat k fun t => { t with phase := .valid } }).startPass a) :=
  next_of_eq (if_pos filling)

/-- R76: the oldest instruction leaves the grid, and the rest of the grid stands. -/
theorem exec_cubeInstructionRetire {s : State} {a : ArrayId} {o : CubeOp} {r : List CubeOp} (oldest : s.arrays[a].cube.ops = o :: r)
    (done : s.arrays[a].cube.opDone o = true) (answered : s.workOwes a (.cube o.serial) = false) :
    ∃ t, exec (.cubeInstructionRetire a) s = .next t ∧ t.arrays[a].cube = { s.arrays[a].cube with ops := r } := by
  refine ⟨_, rfl, ?_⟩
  dsimp only
  rw [oldest]
  dsimp only
  rw [if_pos ⟨done, by simp [answered]⟩]
  split
  · rw [insRetired_cube, progress_cube]
    simp only [State.modCube_arrays, vmod_self]
  · simp only [State.modCube_arrays, vmod_self]

/-- Settles O15, by what each of these commands comes to, as the lemmas above say it. -/
theorem cubePasses : Obligations.CubePasses := by
  unfold Obligations.CubePasses
  refine ⟨?boundary, ?haltAtBoundary, ?haltNow, ?haltWaits, ?exchange, ?memory, ?slotValid, ?retire⟩
  case boundary =>
    intro s a i running nohalt begun
    obtain ⟨n, ran⟩ := exec_passBoundary running
    have cube : ((s.modCube a fun x => x.passEnded i n).progress a).arrays[a].cube = s.arrays[a].cube.passEnded i n := by
      rw [progress_cube]; simp only [State.modCube_arrays, vmod_self]
    rw [State.haltPending_none (by rw [cube]; exact nohalt), startPass_done _ a (by rw [cube]; exact passEnded_done i n begun)] at ran
    refine ⟨_, ran, ?_⟩
    rw [cube]
    simp [-Fin.getElem_fin, CubeState.passEnded]
  case haltAtBoundary =>
    intro s a i k running halt
    obtain ⟨n, ran⟩ := exec_passBoundary running
    have cube : ((s.modCube a fun x => x.passEnded i n).progress a).arrays[a].cube = s.arrays[a].cube.passEnded i n := by
      rw [progress_cube]; simp only [State.modCube_arrays, vmod_self]
    rw [State.haltPending_some (by rw [cube]; exact halt), startPass_haltEffect] at ran
    obtain ⟨grid, state, ctxs, moves, -, -⟩ := haltEffect_array ((s.modCube a fun x => x.passEnded i n).progress a) a k
    refine ⟨_, ran, state, ?_, ?_, ctxs, moves⟩
    · rw [grid]; rfl
    · rw [grid, cube]; rfl
  case haltNow =>
    intro s a st idle
    refine ⟨_, (exec_haltRequest .other st).trans (next_of_eq (State.haltArray_of_idle .other idle)), ?_⟩
    obtain ⟨grid, state, ctxs, moves, closed, -⟩ := haltEffect_array s a .other
    refine ⟨state, ?_, ?_, ctxs, moves, ?_⟩
    · rw [grid]; simp [CubeState.halt]
    · rw [closed]; simp
    · rw [grid]; rfl
  case haltWaits =>
    intro s a x st running first
    refine ⟨_, exec_haltRequest x st, ?_⟩
    rw [State.haltArray_of_running _ running first]
    cases x <;> exact ⟨rfl, rfl, rfl⟩
  case exchange =>
    intro s a i e r p o head panel owner dest free begun
    refine ⟨_, (exec_drain head panel owner).trans (next_of_eq (if_pos dest)), ?_⟩
    rw [drainToExchange_cube free begun]
    simp [-Fin.getElem_fin, CubeState.drainedSlot, CubeState.modOp, head]
  case memory =>
    intro s s₁ a i r p o rows head panel owner dest made sent clean begun
    have arrays : s₁.arrays = s.arrays := State.sendRows_leaves (s := { s with draws := s.draws + 96 * 96 }) sent
    obtain ⟨n, drained⟩ := drainToMemory_done made sent clean (by rw [arrays]; exact begun)
    refine ⟨_, (exec_drain head panel owner).trans (next_of_eq ((if_neg (by simp [dest])).trans drained)), ?_⟩
    simp [-Fin.getElem_fin, CubeState.drainedSlot, CubeState.modOp, arrays, head]
  case slotValid =>
    intro s a k filling
    refine ⟨_, exec_stationarySlotValid filling, ?_⟩
    have key := passKey_startPass (s.modCube a fun x => { x with stat := vmod x.stat k fun t => { t with phase := .valid } }) a
    simp only [passKey, Prod.mk.injEq] at key
    obtain ⟨-, hand, stat⟩ := key
    rw [hand, stat]
    simp [-Fin.getElem_fin]
  case retire =>
    intro s a o r oldest done answered
    obtain ⟨t, ran, cube⟩ := exec_cubeInstructionRetire oldest done answered
    exact ⟨t, ran, by rw [cube], by rw [cube]⟩

end Sys2Proof.Machine
end

section
/-!
PROOFS. R58, R61, R88, R89, R365 to R368: hardware faults of arrays, and the fault registers.
-/

namespace Sys2Proof.Machine

/-- R367, R368: an array in service is retired with its record, whatever its fault registers took first. -/
theorem retired_with_record {s u : State} {a : ArrayId} (source : BitVec 3) (code : Byte) (info : BitVec 16)
    (st : s.arrays[a].st = 0) (sts : ∀ b : ArrayId, u.arrays[b].st = s.arrays[b].st) (ras : u.ras = s.ras) :
    (u.retireArray a source code info).arrays[a].st = 3 ∧ (u.retireArray a source code info).arrays[a].panel = none ∧
      (u.retireArray a source code info).ras.patches = s.ras.patches ++
        [⟨1, code, s.ras.patchBoot, BitVec.ofNat 32 a.val, ((s.chooseSpare a).map fun b => BitVec.ofNat 32 b.val).getD noSpare, false⟩] := by
  have retired := retire_st u a source code info ((sts a).trans st)
  rwa [ras, chooseSpare_congr sts] at retired

/-- R58: the three codes of a hardware fault. -/
theorem hardware_codes {code : Byte} (h : 6 ≤ code.toNat ∧ code.toNat ≤ 8) : code = 6 ∨ code = 7 ∨ code = 8 := by
  simp only [← BitVec.toNat_inj]
  show code.toNat = 6 ∨ code.toNat = 7 ∨ code.toNat = 8
  omega

/-- R367: where a spare is chosen for a panel's array, it takes over the array. -/
theorem State.retireArray_patched {s : State} {a b : ArrayId} {p : PanelId} (source : BitVec 3) (code : Byte) (info : BitVec 16)
    (st : s.arrays[a].st = 0) (spare : s.chooseSpare a = some b) (panel : s.arrays[a].panel = some p) :
    s.retireArray a source code info =
      (((((retireStart s a).logArray a 2 source code info (retireStart s a).nextPatch).addPatch 1 code (BitVec.ofNat 32 a.val)
        (BitVec.ofNat 32 b.val)).replaceArray a b p (code = 0x19)).checkGrade).continueOn b p code := by
  unfold State.retireArray
  rw [if_neg (by simp [-Fin.getElem_fin, st]), spare, panel]
  rfl

/-- R61, R367: what the spare holds of the failed array, and its place in the panel. -/
theorem spare_takes_over {s : State} {a b : ArrayId} {p : PanelId} (source : BitVec 3) (code : Byte) (info : BitVec 16)
    (st : s.arrays[a].st = 0) (spare : s.chooseSpare a = some b) (panel : s.arrays[a].panel = some p) :
    arrKey (s.retireArray a source code info).arrays[b] = arrKey ((retireStart s a).arrays[b].takeOver (retireStart s a).arrays[a]) ∧
      (s.retireArray a source code info).pnl.panels[p].arrays =
        s.pnl.panels[p].arrays.set (retireStart s a).arrays[a].logical.toNat (some b) := by
  have other : b ≠ a := by
    rintro rfl
    have := chooseSpare_st spare
    rw [st] at this
    exact absurd this (by decide)
  rw [State.retireArray_patched source code info st spare panel]
  constructor
  · rw [continueOn_key, checkGrade_arrays, replaceArray_new _ _ _ _ _ other, addPatch_arrays, logArray_arrays]
  · rw [continueOn_panelArrays, checkGrade_pnl, replaceArray_panel, addPatch_pnl, logArray_pnl, addPatch_arrays, logArray_arrays]
    have kept : (retireStart s a).pnl.panels[p].arrays = s.pnl.panels[p].arrays := stopAt_panelArrays s a .fault p
    rw [kept]

/-- R365: a record made, with its event logged, joins the working copy. -/
theorem patches_recorded (s : State) (a : ArrayId) (c src : BitVec 3) (lc : Byte) (info : BitVec 16) (next : Word)
    (kind : BitVec 4) (code : Byte) (failed spare : Word) (fs : BitVec 3) (fc : Byte) (fi : BitVec 16) :
    (((s.logArray a c src lc info next).seqFault a fs fc fi).addPatch kind code failed spare).ras.patches =
      s.ras.patches ++ [⟨kind, code, s.ras.patchBoot, failed, spare, false⟩] := by
  obtain ⟨patches, boot⟩ := logArray_patches s a c src lc info next
  rw [addPatch_patches]
  show (s.logArray a c src lc info next).ras.patches ++ _ = _
  rw [patches]
  show _ ++ [(⟨kind, code, (s.logArray a c src lc info next).ras.patchBoot, failed, spare, false⟩ : PatchRec)] = _
  rw [boot]

/-- R89: the spare core in the place of a core at fault, with its record. -/
def State.coreSpared (s : State) (a : ArrayId) (c : Fin 17) : State :=
  (((s.logArray a 2 2 0x24 (BitVec.ofNat 16 c.val) s.nextPatch).seqFault a 2 0x24 (BitVec.ofNat 16 c.val)).addPatch 2 0x24
    (BitVec.ofNat 32 (a.val * 256 + c.val)) (BitVec.ofNat 32 (a.val * 256 + s.arrays[a].vec.spare.toNat))).modArray a fun y =>
      { y with corePatched := true, vec := { y.vec with
          active := setBit (setBit y.vec.active c.val false) y.vec.spare.toNat true, spare := 0x1F } }

theorem State.coreSpared_array (s : State) (a : ArrayId) (c : Fin 17) :
    (s.coreSpared a c).arrays[a].st = s.arrays[a].st ∧ (s.coreSpared a c).arrays[a].corePatched = true ∧
      (s.coreSpared a c).arrays[a].vec.spare = 0x1F ∧ (s.coreSpared a c).arrays[a].vec.active =
        setBit (setBit s.arrays[a].vec.active c.val false) s.arrays[a].vec.spare.toNat true := by
  unfold State.coreSpared
  simp only [State.modArray_arrays, vmod_self, addPatch_arrays, State.seqFault, State.modSeq_arrays, logArray_arrays, and_self]

/-- R89: an unused spare core serves for a core at fault; an open step is re-run or ends, which touches neither. -/
theorem State.retireCore_spared {s : State} {a : ArrayId} (c : Fin 17) (st : s.arrays[a].st = 0)
    (unused : s.arrays[a].vec.spare ≠ 0x1F) :
    arrKey (s.retireCore a c).arrays[a] = arrKey (s.coreSpared a c).arrays[a] ∧
      (s.retireCore a c).ras = (s.coreSpared a c).ras := by
  unfold State.retireCore
  dsimp only
  rw [if_neg (by simp [-Fin.getElem_fin, st]), if_pos unused]
  split
  case isTrue => exact ⟨rfl, rfl⟩
  case isFalse =>
    split
    · exact ⟨stopAt_key _ a a .rerun, State.stopAt_ras _ a .rerun⟩
    · exact ⟨(endInvOf_key _ a _ 0x24 a).trans (stopAt_key _ a a .fault),
        (State.endInvOf_ras _ a _ 0x24).trans (State.stopAt_ras _ a .fault)⟩

/-- R88: a silent array's spare ends its invocation with status 3 and code 0x19. -/
theorem State.carryLost_found {s : State} {a : ArrayId} {f : Forward}
    (found : (s.net.forwards.find? fun f => decide (f.failed = a ∧ f.silent = true)) = some f) :
    s.carryLost a = (((s.modSeq f.spare fun y => { y with
      state := if y.inv.isSome then seqFaulted else seqIdle, stepOpen := false, sems := Vector.replicate 64 0 }).modVec f.spare
        fun v => { v with codeStore := [] }).endInvOf f.spare 3 0x19) := by
  unfold State.carryLost
  rw [found]

/-- R63: the two fault registers are read while a port accepts requests for PF0. -/
theorem State.byPf0_open {s : State} (f : State → State) (h : (s.pf0Open 0 || s.pf0Open 1) = true) : s.byPf0 f = f s := if_pos h

/-- R211: an NI that has gone behind the grout sink is isolated. -/
theorem setSink_isolated (s : State) (f : FieldId) (ni : NiId) : (s.setSink f ni true).isolated f ni = true := by
  show bit (vmod s.net.sink f fun w => setBit w ni.val true)[f] ni.val = true
  rw [vmod_self]
  exact bit_setBit_self _ _ ni.isLt

/-- R61: what an array that takes over another's place has from it. -/
theorem key_takeOver {x y z : ArrayState} (h : arrKey z = arrKey (x.takeOver y)) :
    z.st = 0 ∧ z.panel = y.panel ∧ z.logical = y.logical ∧ z.mode = y.mode ∧ z.cube.descs = y.cube.descs ∧
      z.vec.codeStore = y.vec.codeStore ∧ z.seq.sems = y.seq.sems := by
  obtain ⟨st, panel, logical, mode, -, code, -, -, -, sems, -, descs⟩ := key_st h
  exact ⟨st, panel, logical, mode, descs, code, sems⟩

/-- R62: what a fault leaves of an array but for the fault itself. -/
theorem key_faulted {x y z : ArrayState} {f : FaultRec} (h : arrKey z = arrKey y) (e : y = { x with seq := { x.seq with fault := f } }) :
    z.panel = x.panel ∧ z.logical = x.logical ∧ z.mode = x.mode ∧ z.cube.descs = x.cube.descs ∧
      z.vec.codeStore = x.vec.codeStore ∧ z.seq.sems = x.seq.sems := by
  subst e
  obtain ⟨-, panel, logical, mode, -, code, -, -, -, sems, -, descs⟩ := key_st h
  exact ⟨panel, logical, mode, descs, code, sems⟩

/-- Settles O16, by what a retirement leaves (`retired_with_record`, `spare_takes_over`, `State.retireCore_spared`). -/
theorem arrayFaults : Obligations.ArrayFaults := by
  unfold Obligations.ArrayFaults
  refine ⟨?array, ?mover, ?silent, ?takeOver, ?core, ?window, ?carry, ?arrRead, ?arrReadOut, ?seqRead, ?seqReadOut⟩
  case array =>
    intro s a code info range st
    refine ⟨_, next_of_eq (if_pos (hardware_codes range)), retired_with_record 1 code info st (fun b => ?_) rfl⟩
    rw [seqFault_key, arrFault_st]
  case mover =>
    intro s a c st
    refine ⟨_, next_of_eq (congrArg (State.retireArray · a 3 0x33 _) (if_pos st)),
      retired_with_record 3 0x33 _ st (fun b => seqFault_key _ _ _ _ _ _) rfl⟩
  case silent =>
    intro s a st
    exact ⟨_, next_of_eq (congrArg (State.retireArray · a 0 0x19 0) (if_pos st)),
      retired_with_record 0 0x19 0 st (fun b => seqFault_key _ _ _ _ _ _) rfl⟩
  case takeOver =>
    intro s a b p st spare panel _
    refine ⟨_, next_of_eq (congrArg (State.retireArray · a 0 0x19 0) (if_pos st)), ?_⟩
    have faulted : (s.seqFault a 0 0x19 0).arrays[a] = { s.arrays[a] with seq := { s.arrays[a].seq with fault := s.arrays[a].seq.fault.add 0 0x19 0 } } := by
      simp only [State.seqFault, State.modSeq_arrays, vmod_self]
    have spare' : (s.seqFault a 0 0x19 0).chooseSpare a = some b :=
      (chooseSpare_congr (fun b => seqFault_key _ _ _ _ _ _) a).trans spare
    obtain ⟨key, arrays⟩ := spare_takes_over 0 0x19 0 (by rw [faulted]; exact st) spare' (by rw [faulted]; exact panel)
    obtain ⟨st', panel', logical, mode, descs, code, sems⟩ := key_takeOver key
    obtain ⟨oldPanel, oldLogical, oldMode, oldDescs, oldCode, oldSems⟩ :=
      key_faulted (retireStart_key (s.seqFault a 0 0x19 0) a a) faulted
    refine ⟨st', panel'.trans (oldPanel.trans panel), logical.trans oldLogical, mode.trans oldMode, descs.trans oldDescs,
      code.trans oldCode, sems.trans oldSems, arrays.trans ?_⟩
    rw [oldLogical]
    rfl
  case core =>
    intro s a c st unused
    refine ⟨_, rfl, ?_⟩
    obtain ⟨key, ras⟩ := State.retireCore_spared c st unused
    obtain ⟨st', -, -, -, patched, -, active, spare, -⟩ := key_st key
    obtain ⟨stNow, patchedNow, spareNow, activeNow⟩ := s.coreSpared_array a c
    refine ⟨spare.trans spareNow, patched.trans patchedNow, st'.trans (stNow.trans st), active.trans activeNow, ?_⟩
    rw [ras]
    exact patches_recorded s a 2 2 0x24 (BitVec.ofNat 16 c.val) s.nextPatch 2 0x24 _ _ 2 0x24 (BitVec.ofNat 16 c.val)
  case window =>
    intro s a forwards
    refine ⟨_, next_of_eq (if_pos forwards), rfl, ?_, rfl⟩
    exact setSink_isolated _ _ _
  case carry =>
    intro s a f q x found inv taken open_
    refine ⟨_, next_of_eq (State.carryLost_found found), ?_⟩
    have ended : ∀ u : State, u.arrays[f.spare].seq.inv = some q → u.endInvOf f.spare 3 0x19 = u.endInv q 3 0x19 (some f.spare) := by
      intro u h
      unfold State.endInvOf
      rw [h]
    rw [ended _ (by simp [-Fin.getElem_fin, inv])]
    refine ⟨?_, ?_, ?_, endInv_status _ q 3 0x19 _ x taken open_⟩
    all_goals rw [endInv_self]; simp [-Fin.getElem_fin, inv]
  case arrRead =>
    intro s a port st
    refine ⟨_, next_of_eq ((State.byPf0_open _ port).trans (if_pos st)), rfl, ?_⟩
    simp only [State.modCube_arrays, vmod_self]
  case arrReadOut =>
    intro s a port st
    exact ⟨_, next_of_eq ((State.byPf0_open _ port).trans (if_neg st)), rfl, rfl⟩
  case seqRead =>
    intro s a port st
    refine ⟨_, next_of_eq ((State.byPf0_open _ port).trans (if_pos st)), rfl, ?_⟩
    simp only [State.modSeq_arrays, vmod_self]
  case seqReadOut =>
    intro s a port st
    exact ⟨_, next_of_eq ((State.byPf0_open _ port).trans (if_neg st)), rfl, rfl⟩

end Sys2Proof.Machine
end

section
/-!
PROOFS. R66 to R70, R75: the issue of vector instructions.
-/

namespace Sys2Proof.Machine

/-- R69: an operation on lanes runs on every enabled lane. -/
theorem exec_vectorIssue_lanes {s : State} {a : ArrayId} {core : Fin 16} {p : PanelId} {c : Ctx} {w : DWord} {op : VecOp}
    (turn : s.toRun a core = some (p, c)) (bound : c.pc < 16384) (code : s.arrays[a].vec.codeAt c.pc = ⟨w, false⟩)
    (lanes : (laneOp op 0 0 0).isSome = true) :
    exec (.vectorIssue a core op) s = .next (s.vecIssued a c fun y => y.runLanes op (vins w)) := by
  cases op <;> simp [laneOp] at lanes <;> exact next_of_eq (vecStep_run s a core p c w turn bound code _)

/-- R69: so does a comparison, into a predicate register. -/
theorem exec_vectorIssue_cmp {s : State} {a : ArrayId} {core : Fin 16} {p : PanelId} {c : Ctx} {w : DWord} {op : VecOp}
    (turn : s.toRun a core = some (p, c)) (bound : c.pc < 16384) (code : s.arrays[a].vec.codeAt c.pc = ⟨w, false⟩)
    (cmp : op ∈ [VecOp.fcmpEq, .fcmpLt, .fcmpLe, .icmpEq, .icmpLt]) :
    exec (.vectorIssue a core op) s = .next (s.vecIssued a c fun y => y.runCmp op (vins w)) := by
  simp only [List.mem_cons, List.not_mem_nil, or_false] at cmp
  obtain rfl | rfl | rfl | rfl | rfl := cmp <;> exact next_of_eq (vecStep_run s a core p c w turn bound code _)

/-- R66: the core turns to the contexts after the one that has issued. -/
theorem vecIssued_last (s : State) (a : ArrayId) (c : Ctx) (f : Ctx → Ctx) :
    (s.vecIssued a c f).arrays[a].vec.lastIssued[c.core] = c.idx := by
  simp only [State.vecIssued, State.modVec_arrays, vmod_self, vset_self]

/-- An issue leaves the local stores and the launches of its array. -/
theorem vecIssued_stores (s : State) (a : ArrayId) (c : Ctx) (f : Ctx → Ctx) :
    (s.vecIssued a c f).arrays[a].vec.localStore = s.arrays[a].vec.localStore ∧
      (s.vecIssued a c f).arrays[a].vec.launches = s.arrays[a].vec.launches ∧
      (s.vecIssued a c f).arrays[a].vec.zeroed = s.arrays[a].vec.zeroed := by
  simp only [State.vecIssued, State.modCtx, State.modVec_arrays, vmod_self, and_self]

/-- What is put under a key in a list of written entries is what it holds there. -/
theorem localAt_putEntry (v : VecState) (k : Nat) (x : Elem) :
    ({ v with localStore := putEntry k x v.localStore } : VecState).localAt k = x := by
  simp only [VecState.localAt, find_putEntry, if_true, Option.map_some, Option.getD_some]

/-- R69: an enabled lane of a change of lanes takes its value, and every other keeps its own. -/
theorem mapLanes_lane_bit (c : Ctx) (i : VIns) (f : Nat → Elem) {l : Nat} (hl : l < 64) :
    (c.mapLanes i f).lane i.dest l = if bit (c.preg i.pred).bits l then f l else c.lane i.dest l := by
  rw [mapLanes_lane c i f l hl]
  exact if_congr (iff_of_eq (enabled_mem c i l hl)) rfl rfl

/-- Settles O17: `vecStep_run` gives what the instruction of a context does, and `vecIssued_find` what the context becomes. -/
theorem vectorIssue : Obligations.VectorIssue := by
  unfold Obligations.VectorIssue
  refine ⟨?lanes, ?branch, ?ended, ?storeNone, ?storeOne, ?undefined, ?cmp, ?select, ?shuffle, ?broadcast, ?add, ?max, ?load,
    ?toSequencer, ?vmxq⟩
  case lanes =>
    intro s a core p c w op turn bound code here lanes
    refine ⟨_, exec_vectorIssue_lanes turn bound code lanes, _, vecIssued_find s a c _ here (fun y => runLanes_ids y op (vins w)), ?_⟩
    refine ⟨runLanes_pc _ _ _, fun l hl => mapLanes_lane_bit _ _ _ hl, fun r l hl hr => mapLanes_other _ _ _ r l hl hr⟩
  case branch =>
    intro s a core p c w turn bound code here scalar clean
    refine ⟨s.vecIssued a c fun y => if (c.sreg ((vins w).src1 % 16)).bits ≠ 0 then { y with pc := (vins w).imm } else y,
      next_of_eq ((vecStep_run s a core p c w turn bound code _).trans ?_), ?_, vecIssued_last s a c _⟩
    · simp [State.vecBranch, scalar, clean]
    · rw [vecIssued_find s a c _ here (fun y => by split <;> exact ⟨rfl, rfl⟩)]
      by_cases zero : (c.sreg ((vins w).src1 % 16)).bits = 0
      · rw [if_neg (not_not.mpr zero), if_pos zero]
      · rw [if_pos zero, if_neg zero]
  case ended =>
    intro s a core p c w turn bound code
    refine ⟨(s.vecIssued a c id).modVec a fun v => { v with ctxs := v.ctxs.filter fun y => !isCtx c.core c.idx y },
      next_of_eq (vecStep_run s a core p c w turn bound code _), ?_, ?_⟩
    · simp only [State.modVec_arrays, vmod_self, List.all_filter]
      exact List.all_eq_true.mpr fun x _ => by simp
    · simp only [State.modVec_arrays, vmod_self]
      exact (vecIssued_stores s a c id).2.1
  case storeNone =>
    intro s a core p c w turn bound code clean none
    refine ⟨_, next_of_eq ((vecStep_run s a core p c w turn bound code _).trans (if_neg (by simp [clean]))), ?_, ?_⟩
    · simp only [none, List.foldl_nil, State.modVec_arrays, vmod_self]
      exact (vecIssued_stores s a c id).1
    · simp only [State.modVec_arrays, vmod_self]
      exact vecIssued_last s a c id
  case storeOne =>
    intro s a core p c w l turn bound code clean one
    refine ⟨_, next_of_eq ((vecStep_run s a core p c w turn bound code _).trans (if_neg (by simp [clean]))), ?_⟩
    simp only [one, List.foldl_cons, List.foldl_nil, State.modVec_arrays, vmod_self]
    exact localAt_putEntry _ _ _
  case undefined =>
    intro s a core p c w turn bound code clear
    refine ⟨_, next_of_eq (vecStep_run s a core p c w turn bound code _), endStep_fault s a 2 0x23 (coreInfo core) 1 clear⟩
  case cmp =>
    intro s a core p c w op turn bound code here cmp
    exact ⟨_, exec_vectorIssue_cmp turn bound code cmp, vecIssued_find s a c _ here (fun y => runCmp_ids y op (vins w)), vecIssued_last s a c _⟩
  case select =>
    rintro s a core p c w _ turn bound code here rfl
    exact ⟨s.vecIssued a c fun y => y.runSelect (vins w), next_of_eq (vecStep_run s a core p c w turn bound code _),
      vecIssued_find s a c _ here (fun y => runSelect_ids y (vins w)), vecIssued_last s a c _⟩
  case shuffle =>
    rintro s a core p c w _ turn bound code here rfl
    exact ⟨s.vecIssued a c fun y => y.runShuffle w (vins w) false, next_of_eq (vecStep_run s a core p c w turn bound code _),
      vecIssued_find s a c _ here (fun y => runShuffle_ids y w (vins w) false), vecIssued_last s a c _⟩
  case broadcast =>
    rintro s a core p c w _ turn bound code here rfl
    exact ⟨s.vecIssued a c fun y => y.runShuffle w (vins w) true, next_of_eq (vecStep_run s a core p c w turn bound code _),
      vecIssued_find s a c _ here (fun y => runShuffle_ids y w (vins w) true), vecIssued_last s a c _⟩
  case add =>
    rintro s a core p c w _ turn bound code here rfl
    exact ⟨s.vecIssued a c fun y => y.runReduce (vins w) Config.reduceAdd, next_of_eq (vecStep_run s a core p c w turn bound code _),
      vecIssued_find s a c _ here (fun y => runReduce_ids y (vins w) _), vecIssued_last s a c _⟩
  case max =>
    rintro s a core p c w _ turn bound code here rfl
    exact ⟨s.vecIssued a c fun y => y.runReduce (vins w) maxOf, next_of_eq (vecStep_run s a core p c w turn bound code _),
      vecIssued_find s a c _ here (fun y => runReduce_ids y (vins w) _), vecIssued_last s a c _⟩
  case load =>
    intro s a core p c w turn bound code here clean
    refine ⟨_, next_of_eq ((vecStep_run s a core p c w turn bound code _).trans (if_neg (by simp [clean]))), _,
      vecIssued_find s a c _ here (fun y => mapLanes_ids y (vins w) _), mapLanes_pc _ _ _, fun l hl => mapLanes_lane_bit _ _ _ hl⟩
  case toSequencer =>
    intro s a core p c w turn bound code here clean
    refine ⟨s.vecIssued a c id, next_of_eq ((vecStep_run s a core p c w turn bound code _).trans (if_neg (by simp [clean]))),
      vecIssued_find s a c id here (fun _ => ⟨rfl, rfl⟩), vecIssued_last s a c id⟩
  case vmxq =>
    intro s a core p c w f turn bound code here
    exact ⟨_, next_of_eq (vecStep_run s a core p c w turn bound code _), vecIssued_find s a c _ here (fun y => runVmxq_ids y f (vins w)),
      vecIssued_last s a c _⟩

end Sys2Proof.Machine
end

section
/-!
PROOFS. R71 to R75: vector memory, the tiles of the exchange buffer, and the end of a launch.
-/

namespace Sys2Proof.Machine

/-- An operation that answers with a state and moves no array, in the equation that names its answer. -/
theorem arrays_of_answer {α : Type} {s t : State} {r : α × State} {x : α} (e : r = (x, t)) (kept : r.2.arrays = s.arrays) :
    t.arrays = s.arrays := by
  rw [e] at kept
  exact kept

/-- The vector cores of an array after an operation that moves no array. -/
theorem find_of_arrays {s t : State} {a : ArrayId} {c d : Ctx} (h : t.arrays = s.arrays)
    (here : (s.arrays[a].vec.ctxs.find? fun x => isCtx c.core c.idx x) = some d) :
    (t.arrays[a].vec.ctxs.find? fun x => isCtx c.core c.idx x) = some d := by
  rw [h]
  exact here

/-- No lane of a load or atomic breaks the alignment. -/
theorem aligned_lanes {l : List Nat} {q : Nat → Nat} {n : Nat} (h : (l.all fun k => decide (q k % n = 0)) = true) :
    (l.any fun k => decide (q k % n ≠ 0)) = false := by
  rw [List.any_eq_false]
  intro k mem
  have := List.all_eq_true.mp h k mem
  simpa using this

/-- R71: a load that nothing keeps waiting and that translates issues with what it has read. -/
theorem exec_vectorLoad_done {s s₁ s₂ : State} {a : ArrayId} {core : Fin 16} {p : PanelId} {c : Ctx} {w : DWord} {g : Bool}
    {ws : List (BitVec 55 × CodeWord)} {vas : List (BitVec 55)} (turn : s.toRun a core = some (p, c)) (bound : c.pc < 16384)
    (code : s.arrays[a].vec.codeAt c.pc = ⟨w, false⟩) (clean : c.memMarked (vins w) g = false)
    (start : g = true ∨ (c.memStart (vins w)).toNat % 4 = 0)
    (aligned : ((c.enabled (vins w)).all fun l => decide ((c.laneVa (vins w) g l).toNat % 4 = 0)) = true)
    (named : vas = sortVas ((c.enabled (vins w)).map fun l => wordVa (c.laneVa (vins w) g l)))
    (lines : s.linesBusy (s.vectorEng a p) .read vas = false) (owes : s.laneOwes a p c .read vas = false)
    (checked : s.checkVas (s.vectorEng a p) .read vas = (none, s₁))
    (read : s₁.readWords (s.vectorEng a p) vas = (.ok ws, s₂)) :
    exec (.vectorLoad a core g) s =
      .next (s₂.vecIssued a c fun y => y.mapLanes (vins w) fun l => laneFrom ws (c.laneVa (vins w) g l)) := by
  subst named
  have startOk : (!g && decide ((c.memStart (vins w)).toNat % 4 ≠ 0)) = false := by
    obtain on | ok := start
    · simp [on]
    · simp [ok]
  refine next_of_eq ((vecStep_run s a core p c w turn bound code _).trans ?_)
  dsimp only
  rw [clean, startOk, aligned_lanes aligned, lines, owes, checked]
  dsimp only [Bool.false_or, Bool.false_eq_true, if_false]
  rw [read]
  rfl

/-- R71: what a lane of a load whose alignment is broken comes to. -/
theorem exec_vectorLoad_misaligned {s : State} {a : ArrayId} {core : Fin 16} {p : PanelId} {c : Ctx} {w : DWord} {g : Bool}
    (turn : s.toRun a core = some (p, c)) (bound : c.pc < 16384) (code : s.arrays[a].vec.codeAt c.pc = ⟨w, false⟩)
    (clean : c.memMarked (vins w) g = false)
    (broken : (g = false ∧ (c.memStart (vins w)).toNat % 4 ≠ 0) ∨
      ((c.enabled (vins w)).any fun l => decide ((c.laneVa (vins w) g l).toNat % 4 ≠ 0)) = true) :
    exec (.vectorLoad a core g) s = .next (s.vecFault a core 0x21) := by
  refine next_of_eq ((vecStep_run s a core p c w turn bound code _).trans ?_)
  refine (if_neg (by simp [clean])).trans (if_pos ?_)
  obtain ⟨off, start⟩ | lane := broken
  · simp [off, start]
  · rw [lane, Bool.or_true]

/-- R75, R140: a store of unmarked words counts none. -/
theorem State.poisonStore_unmarked (s : State) (a : ArrayId) (p : PanelId) {ws : List (BitVec 55 × CodeWord)}
    (clean : (ws.all fun x => !x.2.mark) = true) : s.poisonStore a p ws = s := by
  have none : (ws.find? fun x => x.2.mark) = none := by
    rw [List.find?_eq_none]
    intro x mem
    have := List.all_eq_true.mp clean x mem
    simpa using this
  unfold State.poisonStore
  rw [none]

/-- R71, R72: a store whose words are all answered with status 0. -/
theorem exec_vectorStore_done {s s₁ s₂ : State} {a : ArrayId} {core : Fin 16} {p : PanelId} {c : Ctx} {w : DWord}
    {ws : List (BitVec 55 × CodeWord)} (turn : s.toRun a core = some (p, c)) (bound : c.pc < 16384)
    (code : s.arrays[a].vec.codeAt c.pc = ⟨w, false⟩) (clean : c.memMarked (vins w) false = false)
    (enabled : c.enableMarked (vins w) = false) (aligned : (c.memStart (vins w)).toNat % 64 = 0)
    (words : c.storeWords (vins w) = some ws) (unmarked : (ws.all fun x => !x.2.mark) = true)
    (lines : s.linesBusy ((s.vectorEng a p).at (.kernel c.launch)) .write (ws.map fun x => x.1) = false)
    (owes : s.laneOwes a p c .write (ws.map fun x => x.1) = false)
    (checked : s.checkVas ((s.vectorEng a p).at (.kernel c.launch)) .write (ws.map fun x => x.1) = (none, s₁))
    (sent : (s₁.siteWrites a p (ws.map fun x => x.1)).sendWords ((s.vectorEng a p).at (.kernel c.launch)) ws = (.done 0, s₂)) :
    exec (.vectorStore a core) s = .next (s₂.vecIssued a c id) := by
  refine next_of_eq ((vecStep_run s a core p c w turn bound code _).trans ?_)
  refine (if_neg (by simp [clean, enabled])).trans ((if_neg (not_not.mpr aligned)).trans ?_)
  rw [words]
  dsimp only
  rw [lines, owes, checked]
  simp only [Bool.or_self, Bool.false_eq_true, if_false]
  rw [sent]
  exact (if_pos rfl).trans (State.poisonStore_unmarked _ a p unmarked)

/-- R71: a store that is misaligned, or that enables a word in part. -/
theorem exec_vectorStore_misaligned {s : State} {a : ArrayId} {core : Fin 16} {p : PanelId} {c : Ctx} {w : DWord}
    (turn : s.toRun a core = some (p, c)) (bound : c.pc < 16384) (code : s.arrays[a].vec.codeAt c.pc = ⟨w, false⟩)
    (clean : c.memMarked (vins w) false = false) (enabled : c.enableMarked (vins w) = false)
    (broken : (c.memStart (vins w)).toNat % 64 ≠ 0 ∨ c.storeWords (vins w) = none) :
    exec (.vectorStore a core) s = .next (s.vecFault a core 0x20) := by
  refine next_of_eq ((vecStep_run s a core p c w turn bound code _).trans ?_)
  refine (if_neg (by simp [clean, enabled])).trans ?_
  by_cases aligned : (c.memStart (vins w)).toNat % 64 = 0
  · rw [if_neg (not_not.mpr aligned), broken.resolve_left (not_not.mpr aligned)]
  · exact if_pos aligned

/-- R74: a context of the launch that takes tiles reads its tile. -/
theorem exec_vtx_taken {s : State} {a : ArrayId} {core : Fin 16} {p : PanelId} {c : Ctx} {w : DWord} {k : Fin 4}
    (turn : s.toRun a core = some (p, c)) (bound : c.pc < 16384) (code : s.arrays[a].vec.codeAt c.pc = ⟨w, false⟩)
    (tile : s.arrays[a].cube.tileFor c = some k) (taker : s.arrays[a].vec.taker.map (fun l => l.serial) = some c.launch)
    (clean : (c.sreg ((vins w).src1 % 16)).mark = false) :
    exec (.vtx a core) s = .next (s.vecIssued a c fun y => y.mapLanes (vins w) fun l =>
      tileElem s.arrays[a].cube.exch[k].tile s.draws ((c.sreg ((vins w).src1 % 16)).bits.toNat + (vins w).imm + l)).drawn := by
  refine next_of_eq ((vecStep_run s a core p c w turn bound code _).trans ?_)
  dsimp only
  rw [tile]
  dsimp only
  rw [if_neg (not_not.mpr taker), if_neg (by simp [clean])]

/-- R74: a context that ends its work on a tile, with the launch that takes tiles. -/
theorem exec_vtxdone {s : State} {a : ArrayId} {core : Fin 16} {p : PanelId} {c : Ctx} {w : DWord} {k : Fin 4} {l : Launch}
    (turn : s.toRun a core = some (p, c)) (bound : c.pc < 16384) (code : s.arrays[a].vec.codeAt c.pc = ⟨w, false⟩)
    (tile : s.arrays[a].cube.tileFor c = some k) (taker : s.arrays[a].vec.taker = some l) (mine : l.serial = c.launch) :
    exec (.vtxdone a core) s = .next (
      if l.contexts ≤ s.arrays[a].cube.exch[k].doneBy.length + 1 then
        ((((s.vecIssued a c id).modCube a fun y => { y with exch := vset y.exch k {} }).modVec a fun v =>
          { v with launches := modFirst (fun m => m.serial = l.serial) (fun m => { m with tilesLeft := m.tilesLeft - 1 }) v.launches }).feed a)
      else (s.vecIssued a c id).modCube a fun y =>
        { y with exch := vmod y.exch k fun t => { t with doneBy := s.arrays[a].cube.exch[k].doneBy ++ [c.number] } }) := by
  refine next_of_eq ((vecStep_run s a core p c w turn bound code _).trans ?_)
  dsimp only
  rw [tile, taker]
  dsimp only
  rw [if_neg (not_not.mpr mine)]
  simp only [List.length_append, List.length_cons, List.length_nil, Nat.zero_add]

theorem vecIssued_cube (s : State) (a : ArrayId) (c : Ctx) (f : Ctx → Ctx) : (s.vecIssued a c f).arrays[a].cube = s.arrays[a].cube := by
  simp only [State.vecIssued, State.modCtx, State.modVec_arrays, vmod_self]

theorem feed_launches (s : State) (a : ArrayId) : (s.feed a).arrays[a].vec.launches = s.arrays[a].vec.launches := by
  simp only [State.feed, State.modVec_arrays, vmod_self]

/-- R72, R76: a launch retires once its tiles and contexts are gone and its writes answered. -/
theorem exec_kernelRetire {s : State} {a : ArrayId} {n : Nat} {l : Launch}
    (found : (s.arrays[a].vec.launches.find? fun l => decide (l.serial = n)) = some l) (tiles : l.tilesLeft = 0)
    (ctxs : (s.arrays[a].vec.ctxs.all fun c => decide (c.launch ≠ n)) = true) (owes : s.workOwes a (.kernel n) = false) :
    exec (.kernelRetire a n) s = .next
      (((s.modVec a fun x => { x with launches := x.launches.filter fun m => m.serial ≠ n }).progress a).insRetired a opVlaunch l.pc) := by
  refine next_of_eq ?_
  dsimp only
  rw [found]
  exact if_pos ⟨tiles, ctxs, by simp [owes]⟩

/-- Settles O18, by what each command comes to. -/
theorem vectorMemory : Obligations.VectorMemory := by
  unfold Obligations.VectorMemory
  refine ⟨?load, ?misload, ?store, ?misstore, ?atomic, ?tile, ?tileDone, ?tileLast, ?retire⟩
  case load =>
    intro s s₁ s₂ a core p c w g ws vas turn bound code here clean start aligned named lines owes checked read
    have arrays : s₂.arrays = s.arrays :=
      (arrays_of_answer read (State.readWords_arrays _ _ _)).trans (arrays_of_answer checked (State.checkVas_arrays _ _ _ _))
    exact ⟨_, exec_vectorLoad_done turn bound code clean start aligned named lines owes checked read, _,
      vecIssued_find s₂ a c _ (find_of_arrays arrays here) (fun y => mapLanes_ids y (vins w) _), mapLanes_pc _ _ _,
      fun l hl => mapLanes_lane_bit _ _ _ hl⟩
  case misload =>
    intro s a core p c w g turn bound code clean broken clear
    exact ⟨_, exec_vectorLoad_misaligned turn bound code clean broken, endStep_fault s a 2 0x21 (coreInfo core) 1 clear⟩
  case store =>
    intro s s₁ s₂ a core p c w ws turn bound code here clean enabled aligned words unmarked lines owes checked sent
    have ctxs : s₂.arrays[a].vec.ctxs = s.arrays[a].vec.ctxs := by
      rw [arrays_of_answer sent (State.sendWords_arrays _ _ _), siteWrites_vec,
        arrays_of_answer checked (State.checkVas_arrays _ _ _ _)]
    refine ⟨_, exec_vectorStore_done turn bound code clean enabled aligned words unmarked lines owes checked sent, ?_, rfl, rfl, rfl⟩
    exact vecIssued_find s₂ a c id (by rw [ctxs]; exact here) (fun _ => ⟨rfl, rfl⟩)
  case misstore =>
    intro s a core p c w turn bound code clean enabled broken clear
    exact ⟨_, exec_vectorStore_misaligned turn bound code clean enabled broken, endStep_fault s a 2 0x20 (coreInfo core) 1 clear,
      State.endStep_mem _ _ _ _ _ _⟩
  case atomic =>
    intro s s₁ s₃ a core p c w turn bound code clean enabled aligned checked sent
    refine ⟨s₃, next_of_eq ((vecStep_run s a core p c w turn bound code _).trans ?_), rfl⟩
    dsimp only
    rw [clean, enabled, aligned_lanes aligned, checked]
    simp only [Bool.or_self, Bool.false_eq_true, if_false]
    rw [sent]
    exact if_pos rfl
  case tile =>
    intro s a core p c w k turn bound code here tile taker clean
    refine ⟨_, exec_vtx_taken turn bound code tile taker clean, ?_⟩
    rw [State.drawn_arrays]
    exact ⟨_, vecIssued_find s a c _ here (fun y => mapLanes_ids y (vins w) _), mapLanes_pc _ _ _, fun l hl => mapLanes_lane_bit _ _ _ hl⟩
  case tileDone =>
    intro s a core p c w k l turn bound code tile taker mine more
    refine ⟨_, (exec_vtxdone turn bound code tile taker mine).trans (next_of_eq (if_neg (by omega))), ?_, ?_⟩
    · simp only [State.modCube_arrays, vmod_self, vecIssued_cube]
    · simp only [State.modCube_arrays, vmod_self]
      exact (vecIssued_stores s a c id).2.1
  case tileLast =>
    intro s a core p c w k l turn bound code tile taker mine last
    refine ⟨_, (exec_vtxdone turn bound code tile taker mine).trans (next_of_eq (if_pos last)), ?_, ?_⟩
    · rw [feed_cube]
      simp only [State.modVec_arrays, State.modCube_arrays, vmod_self, vset_self]
    · rw [feed_launches]
      simp only [State.modVec_arrays, State.modCube_arrays, vmod_self]
      rw [(vecIssued_stores s a c id).2.1]
  case retire =>
    intro s a n l found tiles ctxs owes
    refine ⟨_, exec_kernelRetire found tiles ctxs owes, ?_, ?_⟩
    all_goals
      rw [insRetired_vec, progress_vec]
      simp only [State.modVec_arrays, vmod_self]

end Sys2Proof.Machine
end

section
/-!
PROOFS. R76 to R82: the fetch of schedule instructions, steps, loops and waits.
-/

namespace Sys2Proof.Machine

/-- R76, R82: a fetch that reads an instruction without a fault or a mark, of a defined opcode and in range. -/
theorem exec_scheduleFetch_good {s s₁ : State} {a : ArrayId} {p : PanelId} {ws : List CodeWord} {w : BitVec 128}
    (panel : s.arrays[a].panel = some p) (st : s.arrays[a].st = 0) (running : s.arrays[a].seq.state = seqRunning)
    (empty : s.arrays[a].seq.ir = none) (going : s.arrays[a].seq.stalled = false) (free : s.arrays[a].seq.singleStep = false)
    (lines : s.linesBusy (s.seqEng a p) .fetch (coverVas s.arrays[a].seq.pc 16) = false)
    (read : s.readTile a p .fetch s.arrays[a].seq.pc 16 = (.ok ws, s₁)) (clean : markAt s.arrays[a].seq.pc 0 16 ws = false)
    (word : w = BitVec.ofNat 128 (natOf (bytesAt s.arrays[a].seq.pc 16 ws))) (defined : definedOpcode (insField w 0 26 6) = true)
    (good : scheduleBad w = none) :
    exec (.scheduleFetch a) s = .next (s₁.modSeq a fun y => { y with ir := some w, pc := y.pc + 16 }) := by
  subst word
  refine next_of_eq ?_
  dsimp only
  rw [panel]
  dsimp only
  rw [if_neg (by simp [-Fin.getElem_fin, st, running, empty, going, free]), lines, read]
  simp only [Bool.false_eq_true, if_false, clean, defined, Bool.not_true, good]

/-- The step that STEP opens, before its wait list is looked at (R77, R81). -/
def State.stepTaken (s : State) (a : ArrayId) (w : BitVec 128) : State :=
  ((s.issued a).wdStop a).modSeq a fun x => { x with
    state := seqWaiting, attempt := 1, stepId := BitVec.ofNat 24 (insField w 0 0 24), atomic := insField w 0 25 1 = 1,
    atomicIssued := false, stepOpen := false, waits := BitVec.ofNat 64 (fld w.toNat 32 64), waitIdx := 0,
    savedLoops := x.loops, stepPc := x.pc }

theorem exec_step {s : State} {a : ArrayId} {p : PanelId} {w : BitVec 128} (hand : s.toIssue a opStep = some (p, w))
    (outside : (s.arrays[a].seq.loops.any fun l => l.inStep) = false) :
    exec (.step a) s = .next ((s.stepTaken a w).evalWaits a) := by
  refine next_of_eq ?_
  rw [hand]
  exact if_neg (by rw [outside]; decide)

/-- The sequencer once STEP has opened a step. -/
theorem State.stepTaken_seq (s : State) (a : ArrayId) (w : BitVec 128) :
    (s.stepTaken a w).arrays[a].seq = { s.arrays[a].seq with
      ir := none, afterStepend := false, wdRemain := s.arrays[a].seq.wdLeft s.sclk, wdRunning := false
      state := seqWaiting, attempt := 1, stepId := BitVec.ofNat 24 (insField w 0 0 24), atomic := insField w 0 25 1 = 1,
      atomicIssued := false, stepOpen := false, waits := BitVec.ofNat 64 (fld w.toNat 32 64), waitIdx := 0,
      savedLoops := s.arrays[a].seq.loops, stepPc := s.arrays[a].seq.pc } := by
  unfold State.stepTaken State.wdStop State.issued
  simp only [State.modSeq_arrays, vmod_self]
  rfl

/-- R77: an entry that is not met holds the wait list where it is. -/
theorem takeWaits_held (n : Nat) {x : SeqState} (left : x.waitIdx < 4)
    (unmet : x.sems[(waitEntry x.waits x.waitIdx).1].toNat < (waitEntry x.waits x.waitIdx).2) : x.takeWaits (n + 1) = x :=
  (if_neg (Nat.not_le.mpr left)).trans (if_neg (Nat.not_le.mpr unmet))

/-- An entry of an empty wait list asks for no count. -/
theorem waitEntry_zero (i : Nat) : (waitEntry 0 i).2 = 0 := by simp [waitEntry, fld]

theorem vmod_sub_zero (v : Vector (BitVec 16) 64) (i : Fin 64) : vmod v i (fun x => x - BitVec.ofNat 16 0) = v := by
  simp [vmod, vset]

theorem waitIdx_full {x : SeqState} (full : x.waitIdx = 4) : { x with waitIdx := 4 } = x := by
  cases x
  cases full
  rfl

/-- R77: an empty wait list is passed entry by entry, and takes nothing from a semaphore. -/
theorem takeWaits_empty (n : Nat) {x : SeqState} (empty : x.waits = 0) (room : x.waitIdx ≤ 4) (fuel : 4 - x.waitIdx ≤ n) :
    x.takeWaits n = { x with waitIdx := 4 } := by
  induction n generalizing x with
  | zero =>
    show x = _
    exact (waitIdx_full (by omega)).symm
  | succ n ih =>
    unfold SeqState.takeWaits
    by_cases full : 4 ≤ x.waitIdx
    · exact (if_pos full).trans (waitIdx_full (by omega)).symm
    · have none : (waitEntry x.waits x.waitIdx).2 = 0 := by
        rw [empty]
        exact waitEntry_zero _
      refine (if_neg full).trans ((if_pos (none.le.trans (Nat.zero_le _))).trans ?_)
      rw [none, vmod_sub_zero]
      exact ih (x := { x with waitIdx := x.waitIdx + 1 }) empty (Nat.lt_of_not_le full) (by show 4 - (x.waitIdx + 1) ≤ n; omega)

/-- R77: a step whose first wait is not met goes on waiting. -/
theorem State.evalWaits_held {s : State} {a : ArrayId} (waiting : s.arrays[a].seq.state = seqWaiting)
    (held : s.arrays[a].seq.takeWaits 5 = s.arrays[a].seq) (left : s.arrays[a].seq.waitIdx < 4) :
    (s.evalWaits a).arrays[a].seq = s.arrays[a].seq := by
  unfold State.evalWaits
  rw [if_neg (not_not.mpr waiting)]
  have seq : (s.modSeq a fun x => x.takeWaits 5).arrays[a].seq = s.arrays[a].seq := by
    simp only [State.modSeq_arrays, vmod_self, held]
  dsimp only
  rw [if_pos (by rw [seq]; exact left), seq]

/-- R77, R87: a step whose wait list has been passed is open, and its watchdog is loaded. -/
theorem State.evalWaits_passed {s : State} {a : ArrayId} {x : SeqState} (waiting : s.arrays[a].seq.state = seqWaiting)
    (passed : s.arrays[a].seq.takeWaits 5 = x) (done : x.waitIdx = 4) (free : x.singleStep = false) :
    (s.evalWaits a).arrays[a].seq = { x with
      state := seqRunning, stepOpen := true, wdRunning := true, wdRemain := 937500, wdSince := s.sclk, lastReport := s.sclk } := by
  unfold State.evalWaits
  rw [if_neg (not_not.mpr waiting)]
  dsimp only
  rw [if_neg (by simp [-Fin.getElem_fin, passed, done]), insRetired_same]
  · simp only [State.wdLoad, State.modSeq_arrays, vmod_self, passed]
    rfl
  · simp only [State.wdLoad, State.modSeq_arrays, vmod_self, passed, free]

/-- R78, R82: STEPEND outside a loop of its step, whose signals all name a target. -/
theorem exec_stepend {s : State} {a : ArrayId} {p : PanelId} {w : BitVec 128} (hand : s.toIssue a opStepend = some (p, w))
    (outside : (s.arrays[a].seq.loops.any fun l => l.inStep) = false) (named : s.signalFault a (signalEntries w) = none) :
    exec (.stepend a) s = .next ((s.issued a).modSeq a fun x => { x with state := seqCommitting, commitSignals := signalEntries w }) := by
  refine next_of_eq ?_
  dsimp only
  rw [hand]
  dsimp only
  rw [outside, if_neg Bool.false_ne_true, named]

/-- R78: a step commits once its work is done and answered, and its signals are sent. -/
theorem exec_stepCommit {s s₂ : State} {a : ArrayId} (committing : s.arrays[a].seq.state = seqCommitting)
    (quiet : s.arrays[a].quiet = true) (owes : s.arrayOwes a = false)
    (sent : (s.modSeq a fun y => { y with state := seqRunning, stepOpen := false, commitSignals := [], afterStepend := true }).sendSignals
      a s.arrays[a].seq.commitSignals = some s₂) :
    exec (.stepCommit a) s = .next (s₂.insRetired a opStepend (s.insPc a)) := by
  refine next_of_eq ((if_pos ⟨committing, quiet, by simp [owes]⟩).trans ?_)
  dsimp only
  rw [sent]

/-- What a step that commits without signals leaves. -/
theorem sendSignals_none (s : State) (a : ArrayId) {l : List Word} (none : l = []) : s.sendSignals a l = some s := by
  rw [none]
  rfl

theorem insRetired_net (s : State) (a : ArrayId) (op : Nat) (pc : BitVec 55) : (s.insRetired a op pc).net = s.net := by
  unfold State.insRetired State.wdStop
  dsimp only
  split <;> exact State.traceSchedule_net _ _ _ _

/-- R82: SIGNAL right after STEPEND, with all targets named and its signals sent. -/
theorem exec_signal_sent {s s₁ : State} {a : ArrayId} {p : PanelId} {w : BitVec 128} (hand : s.toIssue a opSignal = some (p, w))
    (after : s.arrays[a].seq.afterStepend = true) (named : s.signalFault a (signalEntries w) = none)
    (sent : s.sendSignals a (signalEntries w) = some s₁) :
    exec (.signal a) s = .next ((s₁.insDone a opSignal).modSeq a fun x => { x with afterStepend := true }) := by
  refine next_of_eq ?_
  dsimp only
  rw [hand]
  dsimp only
  rw [after, if_neg (by decide), named]
  dsimp only
  rw [sent]

/-- R82: SIGNAL elsewhere is a fault. -/
theorem exec_signal_misplaced {s : State} {a : ArrayId} {p : PanelId} {w : BitVec 128} (hand : s.toIssue a opSignal = some (p, w))
    (after : s.arrays[a].seq.afterStepend = false) : exec (.signal a) s = .next ((s.issued a).endStep a 0 0x12 0 1) := by
  refine next_of_eq ?_
  dsimp only
  rw [hand]
  exact if_pos (by rw [after]; rfl)

/-- An instruction that has left the sequencer leaves its fault record. -/
theorem issued_seq (s : State) (a : ArrayId) : (s.issued a).arrays[a].seq = { s.arrays[a].seq with ir := none, afterStepend := false } := by
  simp only [State.issued, State.modSeq_arrays, vmod_self]

/-- A fault met by the instruction in hand, where no other was recorded. -/
theorem endStep_issued_fault {s : State} {a : ArrayId} (code : Byte) (info : BitVec 16) (clear : s.arrays[a].seq.fault.valid = false) :
    ((s.issued a).endStep a 0 code info 1).arrays[a].seq.fault = ⟨true, s.arrays[a].seq.fault.overflow, 0, code, info⟩ := by
  have seq := issued_seq s a
  rw [endStep_fault _ a 0 code info 1 (by rw [seq]; exact clear), seq]

theorem exec_waitc {s : State} {a : ArrayId} {p : PanelId} {w : BitVec 128} (hand : s.toIssue a opWaitc = some (p, w)) :
    exec (.waitc a) s = .next (
      if (insField w 0 25 1 = 0 ∨ s.arrays[a].cube.ops.length ≤ insField w 0 0 16) ∧
          (insField w 0 24 1 = 0 ∨ s.arrays[a].vec.launches.length ≤ insField w 0 0 16) ∧
          (insField w 0 23 1 = 0 ∨ s.arrays[a].moves.length ≤ insField w 0 0 16) then s.insDone a opWaitc else s) := by
  refine next_of_eq ?_
  dsimp only
  rw [hand]

theorem exec_loop {s : State} {a : ArrayId} {p : PanelId} {w : BitVec 128} (hand : s.toIssue a opLoop = some (p, w)) :
    exec (.loop a) s = .next (
      if 4 ≤ s.arrays[a].seq.loops.length then
        (s.issued a).endStep a 0 0x13 (BitVec.ofNat 16 (s.arrays[a].seq.loops.length + 1)) 1
      else (s.insDone a opLoop).modSeq a fun y =>
        { y with loops := ⟨s.arrays[a].seq.pc, insField w 0 0 24, s.arrays[a].seq.stepOpen⟩ :: y.loops }) := by
  refine next_of_eq ?_
  dsimp only
  rw [hand]

/-- R81: ENDLOOP of a loop that was opened on its side of the step. -/
theorem exec_endloop {s : State} {a : ArrayId} {p : PanelId} {w : BitVec 128} {fr : LoopFrame} {r : List LoopFrame}
    (hand : s.toIssue a opEndloop = some (p, w)) (loops : s.arrays[a].seq.loops = fr :: r)
    (side : fr.inStep = s.arrays[a].seq.stepOpen) :
    exec (.endloop a) s = .next (
      if 1 < fr.left then
        (s.insDone a opEndloop).modSeq a fun y => { y with loops := { fr with left := fr.left - 1 } :: r, pc := fr.start }
      else (s.insDone a opEndloop).modSeq a fun y => { y with loops := r }) := by
  refine next_of_eq ?_
  dsimp only
  rw [hand]
  dsimp only
  rw [loops]
  exact if_neg (not_not.mpr side)

theorem exec_endloop_none {s : State} {a : ArrayId} {p : PanelId} {w : BitVec 128}
    (hand : s.toIssue a opEndloop = some (p, w)) (loops : s.arrays[a].seq.loops = []) :
    exec (.endloop a) s = .next ((s.issued a).endStep a 0 0x13 0 1) := by
  refine next_of_eq ?_
  dsimp only
  rw [hand]
  dsimp only
  rw [loops]

/-- The array that END leaves, before its invocation learns of it (R97). -/
def State.scheduleEnded (s : State) (a : ArrayId) : State :=
  (((s.issued a).traceSchedule a opEnd (s.insPc a)).wdStop a).modSeq a fun x =>
    { x with state := seqIdle, attempt := 0, ended := true, stepOpen := false, singleStep := false }

theorem exec_endSchedule {s : State} {a : ArrayId} {p : PanelId} {w : BitVec 128} {q : QRef}
    (hand : s.toIssue a opEnd = some (p, w)) (quiet : s.arrays[a].quiet = true) (owes : s.arrayOwes a = false)
    (inv : s.arrays[a].seq.inv = some q) :
    exec (.endSchedule a) s = .next ((s.scheduleEnded a).modTaken q fun t =>
      { t with endedArrays := t.endedArrays ++ [asFin 40 s.arrays[a].logical.toNat] }) := by
  refine next_of_eq ?_
  dsimp only
  rw [hand]
  dsimp only
  rw [if_neg (by simp [-Fin.getElem_fin, quiet, owes]), inv]
  rfl

/-- Settles O19, by what each instruction comes to. -/
theorem scheduleFlow : Obligations.ScheduleFlow := by
  unfold Obligations.ScheduleFlow
  refine ⟨?fetch, ?step, ?waits, ?opens, ?stepend, ?commit, ?committed, ?signal, ?misplaced, ?waitc, ?waitcHolds, ?loop,
    ?deep, ?again, ?last, ?noLoop, ?nop, ?ended⟩
  case fetch =>
    intro s s₁ a p ws w panel st running empty going free lines read clean word defined good
    refine ⟨_, exec_scheduleFetch_good panel st running empty going free lines read clean word defined good, ?_⟩
    simp only [State.modSeq_arrays, vmod_self, arrays_of_answer read (State.readTile_arrays _ _ _ _ _ _)]
  case step =>
    intro s a p w hand outside
    refine ⟨_, exec_step hand outside, ?_⟩
    obtain ⟨attempt, stepId, atomic, stepPc, saved, ir⟩ := evalWaits_keep (s.stepTaken a w) a
    rw [attempt, stepId, atomic, stepPc, saved, ir, s.stepTaken_seq]
    exact ⟨rfl, rfl, rfl, rfl, rfl, rfl⟩
  case waits =>
    intro s a p w hand outside unmet
    refine ⟨_, exec_step hand outside, ?_⟩
    have seq := s.stepTaken_seq a w
    have held : (s.stepTaken a w).arrays[a].seq.takeWaits 5 = (s.stepTaken a w).arrays[a].seq :=
      takeWaits_held 4 (by rw [seq]; exact Nat.zero_lt_succ 3) (by rw [seq]; exact unmet)
    rw [State.evalWaits_held (by rw [seq]) held (by rw [seq]; exact Nat.zero_lt_succ 3), seq]
    exact ⟨rfl, rfl, rfl, rfl, rfl⟩
  case opens =>
    intro s a p w hand outside empty free
    refine ⟨_, exec_step hand outside, ?_⟩
    have seq := s.stepTaken_seq a w
    have passed := takeWaits_empty 5 (x := (s.stepTaken a w).arrays[a].seq) (by rw [seq]; simp [empty]) (by rw [seq]; exact Nat.zero_le 4) (by omega)
    rw [State.evalWaits_passed (by rw [seq]) passed rfl (by rw [seq]; exact free), seq]
    exact ⟨rfl, rfl, rfl, rfl, rfl⟩
  case stepend =>
    intro s a p w hand outside named
    refine ⟨_, exec_stepend hand outside named, ?_⟩
    simp only [State.modSeq_arrays, vmod_self, issued_seq, and_self]
  case commit =>
    intro s s₂ a committing quiet owes sent
    exact ⟨_, exec_stepCommit committing quiet owes sent, insRetired_net _ _ _ _, insRetired_cube _ _ _ _⟩
  case committed =>
    intro s a committing quiet owes none free
    refine ⟨_, exec_stepCommit committing quiet owes (sendSignals_none _ a none), ?_⟩
    rw [insRetired_same _ _ _ _ (by simp [-Fin.getElem_fin, free])]
    simp only [State.modSeq_arrays, vmod_self, and_self]
  case signal =>
    intro s s₁ a p w hand after named sent
    refine ⟨_, exec_signal_sent hand after named sent, ?_, ?_, insRetired_net _ _ _ _⟩
    · simp only [State.modSeq_arrays, vmod_self]
    · simp only [State.modSeq_arrays, vmod_self]
      exact (insDone_keep s₁ a opSignal).2.2.1
  case misplaced =>
    intro s a p w hand after clear
    exact ⟨_, exec_signal_misplaced hand after, endStep_issued_fault 0x12 0 clear, State.endStep_net _ _ _ _ _ _⟩
  case waitc =>
    intro s a p w hand cubes vectors moves
    obtain ⟨-, pc, ir, after⟩ := insDone_keep s a opWaitc
    exact ⟨_, (exec_waitc hand).trans (next_of_eq (if_pos ⟨cubes, vectors, moves⟩)), ir, pc, after⟩
  case waitcHolds =>
    intro s a p w hand counts more
    refine ⟨s, (exec_waitc hand).trans (next_of_eq (if_neg ?_)), rfl⟩
    rintro ⟨off | few, -⟩ <;> omega
  case loop =>
    intro s a p w hand room
    obtain ⟨loops, -, ir, -⟩ := insDone_keep s a opLoop
    refine ⟨_, (exec_loop hand).trans (next_of_eq (if_neg (by omega))), ?_, ?_⟩
    · simp only [State.modSeq_arrays, vmod_self, loops]
    · simp only [State.modSeq_arrays, vmod_self, ir]
  case deep =>
    intro s a p w hand full clear
    exact ⟨_, (exec_loop hand).trans (next_of_eq (if_pos full)), endStep_issued_fault 0x13 _ clear⟩
  case again =>
    intro s a p w fr r hand loops side more
    refine ⟨_, (exec_endloop hand loops side).trans (next_of_eq (if_pos more)), ?_⟩
    simp only [State.modSeq_arrays, vmod_self, and_self]
  case last =>
    intro s a p w fr r hand loops side last
    obtain ⟨-, pc, -, -⟩ := insDone_keep s a opEndloop
    refine ⟨_, (exec_endloop hand loops side).trans (next_of_eq (if_neg (by omega))), ?_⟩
    simp only [State.modSeq_arrays, vmod_self, pc, and_self]
  case noLoop =>
    intro s a p w hand loops clear
    exact ⟨_, exec_endloop_none hand loops, endStep_issued_fault 0x13 0 clear⟩
  case nop =>
    intro s a p w hand free
    refine ⟨_, next_of_eq (if_pos (by rw [hand]; rfl)), ?_, insDone_cube s a opNop, insDone_vec s a opNop⟩
    rw [State.insDone, insRetired_same _ _ _ _ (by rw [issued_seq]; exact free), issued_seq]
  case ended =>
    intro s a p w q x hand quiet owes inv taken
    refine ⟨_, exec_endSchedule hand quiet owes inv, ?_⟩
    rw [State.modTaken_arrays, modTaken_self]
    have kept : (s.scheduleEnded a).taken q = some x := by
      rw [← taken]
      exact congrFun (taken_ports (State.traceSchedule_ports _ _ _ _)) q
    rw [kept]
    simp [-Fin.getElem_fin, State.scheduleEnded, State.wdStop]

end Sys2Proof.Machine
end

section
/-!
PROOFS. R83 to R87: loads, launches and moves.
-/

namespace Sys2Proof.Machine

/-- R83: tile descriptor `i` of the bytes that a DLOAD of `n` descriptors reads. -/
def descRead (va : BitVec 55) (n : Nat) (ws : List CodeWord) (i : Nat) : BitVec 256 :=
  BitVec.ofNat 256 (natOf (((bytesAt va (32 * n) ws).drop (32 * i)).take 32))

/-- R83: word `i` of the code store in the bytes that a KLOAD reads, with its mark. -/
def codeRead (va : BitVec 55) (size : Nat) (ws : List CodeWord) (i : Nat) : CodeEntry :=
  ⟨BitVec.ofNat 64 (natOf (((bytesAt va size ws).drop (8 * i)).take 8)), markAt va (8 * i) 8 ws⟩

/-- R83: a DLOAD that reads unmarked descriptors without a fault. -/
theorem exec_dload {s s₁ : State} {a : ArrayId} {p : PanelId} {w : BitVec 128} {va : BitVec 55} {ws : List CodeWord}
    (hand : s.toIssue a opDload = some (p, w)) (address : va = s.arrays[a].seq.address w 25)
    (lines : s.linesBusy (s.seqEng a p) .read (coverVas va (32 * (insField w 0 6 6 + 1))) = false)
    (read : s.readTile a p .read va (32 * (insField w 0 6 6 + 1)) = (.ok ws, s₁))
    (clean : ((List.range (insField w 0 6 6 + 1)).find? fun i => markAt va (32 * i) 32 ws) = none) :
    exec (.dload a) s = .next (((s₁.modCube a fun x => (List.range (insField w 0 6 6 + 1)).foldl (fun x i =>
      { x with descs := vset x.descs (asFin 64 (insField w 0 0 6 + i)) (descRead va (insField w 0 6 6 + 1) ws i) }) x).progress a).insDone
        a opDload) := by
  subst address
  refine next_of_eq ?_
  dsimp only
  rw [hand]
  dsimp only
  rw [lines, read]
  simp only [Bool.false_eq_true, if_false, clean]
  rfl

/-- R83: a KLOAD that reads without a fault, with no launch in the array. -/
theorem exec_kload {s s₁ : State} {a : ArrayId} {p : PanelId} {w : BitVec 128} {va : BitVec 55} {ws : List CodeWord}
    (hand : s.toIssue a opKload = some (p, w)) (none : s.arrays[a].vec.launches = [])
    (address : va = s.arrays[a].seq.address w 25)
    (lines : s.linesBusy (s.seqEng a p) .read (coverVas va (insField w 3 0 32)) = false)
    (read : s.readTile a p .read va (insField w 3 0 32) = (.ok ws, s₁)) :
    exec (.kload a) s = .next (((s₁.modVec a fun v => { v with
      codeStore := (List.range (insField w 3 0 32 / 8)).foldl (fun c i => putEntry (insField w 0 0 14 + i)
        (codeRead va (insField w 3 0 32) ws i) c) v.codeStore }).progress a).insDone a opKload) := by
  subst address
  refine next_of_eq ?_
  dsimp only
  rw [hand]
  dsimp only
  rw [if_neg (not_not.mpr none), lines, read]
  simp only [Bool.false_eq_true, if_false]
  rfl

/-- The code store after entries have been put into it one by one. -/
theorem codeAt_putCodes (v : VecState) (off n : Nat) (g : Nat → CodeEntry) (j : Nat) :
    ({ v with codeStore := (List.range n).foldl (fun c i => putEntry (off + i) (g i) c) v.codeStore } : VecState).codeAt j =
      if off ≤ j ∧ j < off + n then g (j - off) else v.codeAt j := by
  unfold VecState.codeAt
  rw [putCodes off g n v.codeStore j]
  split <;> rfl

/-- The launch that VLAUNCH adds (R74, R83). -/
def State.newLaunch (s : State) (a : ArrayId) (w : BitVec 128) : Launch :=
  { serial := s.arrays[a].vec.nextLaunch, trigger := insField w 0 25 1 = 1,
    tilesLeft := if insField w 0 25 1 = 1 then insField w 3 0 32 else 0, contexts := insField w 0 0 10 + 1, pc := s.insPc a }

/-- R83: a VLAUNCH for which enough contexts are free. -/
theorem exec_vlaunch {s : State} {a : ArrayId} {p : PanelId} {w : BitVec 128} (hand : s.toIssue a opVlaunch = some (p, w))
    (room : s.arrays[a].vec.ctxs.length + (insField w 0 0 10 + 1) ≤ 1024) :
    exec (.vlaunch a) s = .next ((s.issued a).modVec a fun v =>
      VecState.startCtxs 2048 { v with launches := v.launches ++ [s.newLaunch a w], nextLaunch := v.nextLaunch + 1 }
        (insField w 0 0 10 + 1) 0 (insField w 0 10 14) s.arrays[a].vec.nextLaunch ((s.arrays[a].seq.address w 24).setWidth 64)) := by
  refine next_of_eq ?_
  rw [hand]
  exact if_neg (by omega)

/-- R83: on cores without a context, the first is started on core 0, context 0. -/
theorem startCtxs_first {v : VecState} (entry serial : Nat) (arg : DWord) (empty : v.ctxs = []) :
    (v.startCtxs 2048 1 0 entry serial arg).ctxs =
      [⟨0, 0, entry, serial, serial, [], [(0, ⟨arg, false⟩)], [], false, false, [], false⟩] := by
  have free : v.freeCtx (asFin 16 0) = some 0 := by
    unfold VecState.freeCtx
    rw [empty]
    rfl
  rw [VecState.startCtxs, free]
  dsimp only
  rw [ VecState.startCtxs]
  · rw [empty]
    rfl
  · decide

theorem issued_vec (s : State) (a : ArrayId) : (s.issued a).arrays[a].vec = s.arrays[a].vec := by
  simp only [State.issued, State.modSeq_arrays, vmod_self]

theorem issued_moves (s : State) (a : ArrayId) : (s.issued a).arrays[a].moves = s.arrays[a].moves := by
  simp only [State.issued, State.modSeq_arrays, vmod_self]

/-- Two changes of an array that make the same of it are the same change. -/
theorem modArray_congr {s : State} {a : ArrayId} {f g : ArrayState → ArrayState} (h : f s.arrays[a] = g s.arrays[a]) :
    s.modArray a f = s.modArray a g := by
  unfold State.modArray vmod
  rw [h]

/-- The transfer that MOVE starts (R84). -/
def State.newMove (s : State) (a : ArrayId) (w : BitVec 128) (d : BitVec 512) : MoveOp :=
  { serial := s.arrays[a].nextMove, channel := asFin 8 (insField w 0 0 3), desc := d, next := 0, done := false, stalled := false,
    pc := s.insPc a }

/-- The array with that transfer on its way. -/
def State.moveIssued (s : State) (a : ArrayId) (m : MoveOp) : State :=
  (s.issued a).modArray a fun x => { x with moves := x.moves ++ [m], nextMove := x.nextMove + 1 }

/-- R85: a MOVE whose descriptor lies at its alignment, reads unmarked and breaks no rule starts its transfer. -/
theorem exec_move_good {s s₁ : State} {a : ArrayId} {p : PanelId} {w : BitVec 128} {va : BitVec 55} {ws : List CodeWord}
    (hand : s.toIssue a opMove = some (p, w)) (address : va = s.arrays[a].seq.address w 25) (aligned : va.toNat % 64 = 0)
    (lines : s.linesBusy (s.seqEng a p) .read (coverVas va 64) = false)
    (read : s.readTile a p .read va 64 = (.ok ws, s₁)) (clean : markAt va 0 64 ws = false)
    (good : moveBad (bytesWord (bytesAt va 64 ws)) = none) :
    exec (.move a) s = .next ((s₁.moveIssued a (s.newMove a w (bytesWord (bytesAt va 64 ws)))).runMove
      ((s₁.moveIssued a (s.newMove a w (bytesWord (bytesAt va 64 ws)))).moveFuel a) a p (asFin 8 (insField w 0 0 3))) := by
  subst address
  refine next_of_eq ?_
  dsimp only
  rw [hand]
  dsimp only
  rw [if_neg (not_not.mpr aligned), lines, read]
  simp only [Bool.false_eq_true, if_false, clean, good]
  rfl

/-- R85: a descriptor that breaks a rule is fault 0x30, with the word at fault. -/
theorem exec_move_bad {s s₁ : State} {a : ArrayId} {p : PanelId} {w : BitVec 128} {va : BitVec 55} {ws : List CodeWord} {k : Nat}
    (hand : s.toIssue a opMove = some (p, w)) (address : va = s.arrays[a].seq.address w 25) (aligned : va.toNat % 64 = 0)
    (lines : s.linesBusy (s.seqEng a p) .read (coverVas va 64) = false)
    (read : s.readTile a p .read va 64 = (.ok ws, s₁)) (clean : markAt va 0 64 ws = false)
    (bad : moveBad (bytesWord (bytesAt va 64 ws)) = some k) :
    exec (.move a) s = .next
      ((s₁.issued a).endStep a 3 0x30 (BitVec.ofNat 16 ((asFin 8 (insField w 0 0 3)).val * 32 + k)) 1) := by
  subst address
  refine next_of_eq ?_
  dsimp only
  rw [hand]
  dsimp only
  rw [if_neg (not_not.mpr aligned), lines, read]
  simp only [Bool.false_eq_true, if_false, clean, bad]

/-- The first transfer of an array. -/
theorem State.moveIssued_first {s : State} {a : ArrayId} (m : MoveOp) (none : s.arrays[a].moves = []) :
    s.moveIssued a m = (s.issued a).modArray a fun x => { x with moves := [m], nextMove := x.nextMove + 1 } :=
  modArray_congr (by simp only [issued_moves, none, List.nil_append])

theorem State.moveIssued_moves {s : State} {a : ArrayId} (m : MoveOp) (none : s.arrays[a].moves = []) :
    (s.moveIssued a m).arrays[a].moves = [m] := by
  simp only [State.moveIssued_first m none, State.modArray_arrays, vmod_self]

/-- R84: a channel with no transfer in hand has nothing to run. -/
theorem runMove_none {s : State} {a : ArrayId} {p : PanelId} {c : Fin 8} (n : Nat)
    (none : (s.arrays[a].moves.find? fun m => m.channel = c && !m.done) = none) : s.runMove n a p c = s := by
  cases n with
  | zero => rfl
  | succ n =>
    unfold State.runMove
    rw [none]

/-- R84: a transfer whose tiles are all done is done. -/
theorem runMove_done {s : State} {a : ArrayId} {p : PanelId} {c : Fin 8} {m : MoveOp} (n : Nat)
    (found : (s.arrays[a].moves.find? fun m => m.channel = c && !m.done) = some m) (going : m.stalled = false)
    (complete : moveTiles m.desc ≤ m.next) :
    s.runMove (n + 1) a p c = (s.modMove a c fun y => { y with done := true }).runMove n a p c := by
  rw [State.runMove, found]
  dsimp only
  rw [going, if_neg Bool.false_ne_true, if_pos complete]

/-- R84, R167: a tile that is read and written with status 0. -/
theorem runMove_tile {s s₁ : State} {a : ArrayId} {p : PanelId} {c : Fin 8} {m : MoveOp} (n : Nat)
    (found : (s.arrays[a].moves.find? fun m => m.channel = c && !m.done) = some m) (going : m.stalled = false)
    (left : m.next < moveTiles m.desc)
    (ran : s.runTile a p m.serial (moveZero m.desc) (moveTile m.desc m.next) = (.done 0, s₁)) :
    s.runMove (n + 1) a p c = (s₁.modMove a c fun y => { y with next := y.next + 1 }).runMove n a p c := by
  rw [State.runMove, found]
  dsimp only
  rw [going, if_neg Bool.false_ne_true, if_neg (Nat.not_le.mpr left), ran]
  exact if_pos rfl

theorem modMove_moves (s : State) (a : ArrayId) (c : Fin 8) (f : MoveOp → MoveOp) :
    (s.modMove a c f).arrays[a].moves = modFirst (fun m => m.channel = c && !m.done) f s.arrays[a].moves := by
  simp only [State.modMove, State.modArray_arrays, vmod_self]

theorem modMove_seq (s : State) (a : ArrayId) (c : Fin 8) (f : MoveOp → MoveOp) : (s.modMove a c f).arrays[a].seq = s.arrays[a].seq := by
  simp only [State.modMove, State.modArray_arrays, vmod_self]

/-- R84: the only transfer of an array, of one tile, that is read and written with status 0, runs to its end. -/
theorem runMove_single {s s₁ : State} {a : ArrayId} {p : PanelId} {c : Fin 8} (n : Nat) {m : MoveOp} (only : s.arrays[a].moves = [m])
    (channel : m.channel = c) (fresh : m.next = 0 ∧ m.done = false ∧ m.stalled = false) (tiles : moveTiles m.desc = 1)
    (ran : s.runTile a p m.serial (moveZero m.desc) (moveTile m.desc 0) = (.done 0, s₁)) :
    s.runMove (n + 2) a p c =
        (s₁.modMove a c fun y => { y with next := y.next + 1 }).modMove a c (fun y => { y with done := true }) ∧
      (s.runMove (n + 2) a p c).arrays[a].moves = [{ m with next := 1, done := true }] ∧
      (s.runMove (n + 2) a p c).arrays[a].seq.ir = s.arrays[a].seq.ir := by
  obtain ⟨next, undone, going⟩ := fresh
  have kept := runTile_keep s a p m.serial (moveZero m.desc) (moveTile m.desc 0)
  rw [ran] at kept
  obtain ⟨moves, ir⟩ := kept
  dsimp only at moves ir
  have first : (s₁.modMove a c fun y => { y with next := y.next + 1 }).arrays[a].moves = [{ m with next := 1 }] := by
    rw [modMove_moves, moves, only]
    simp [modFirst, channel, undone, next]
  have last : ((s₁.modMove a c fun y => { y with next := y.next + 1 }).modMove a c fun y => { y with done := true }).arrays[a].moves =
      [{ m with next := 1, done := true }] := by
    rw [modMove_moves, first]
    simp [modFirst, channel, undone]
  have whole : s.runMove (n + 2) a p c =
      (s₁.modMove a c fun y => { y with next := y.next + 1 }).modMove a c (fun y => { y with done := true }) := by
    rw [runMove_tile (m := m) (n + 1) (by rw [only]; simp [channel, undone]) going (by rw [tiles, next]; decide) (by rw [next]; exact ran),
      runMove_done (m := { m with next := 1 }) n (by rw [first]; simp [channel, undone]) going (by rw [tiles]),
      runMove_none n (by rw [last]; simp)]
  refine ⟨whole, by rw [whole, last], ?_⟩
  rw [whole, modMove_seq, modMove_seq, ir]

/-- R84, R87: the transfer of a channel whose transfers are all done retires. -/
theorem exec_moveRetire {s : State} {a : ArrayId} {c : Fin 8} {p : PanelId} {m : MoveOp} (panel : s.arrays[a].panel = some p)
    (found : (s.arrays[a].moves.find? fun m => decide (m.channel = c)) = some m)
    (done : (s.arrays[a].moves.all fun m => decide (m.channel ≠ c) || m.done) = true)
    (owes : s.workOwes a (.move m.serial) = false) :
    exec (.moveRetire a c) s = .next
      (((s.modArray a fun x => { x with moves := x.moves.eraseP fun y => y.channel = c }).progress a).insRetired a opMove m.pc) := by
  have idle : (s.arrays[a].moves.find? fun m => m.channel = c && !m.done) = none := by
    rw [List.find?_eq_none]
    intro x mem
    have := List.all_eq_true.mp done x mem
    by_cases same : x.channel = c <;> simp_all
  have ended : m.done = true := by
    have := List.all_eq_true.mp done m (List.mem_of_find?_eq_some found)
    have same : m.channel = c := by simpa using List.find?_some found
    simpa [same] using this
  refine next_of_eq ?_
  rw [panel]
  dsimp only
  rw [runMove_none _ idle, found]
  exact if_pos ⟨ended, by simp [owes]⟩

/-- Settles O20, by what each of these commands comes to. -/
theorem scheduleLoads : Obligations.ScheduleLoads := by
  unfold Obligations.ScheduleLoads
  refine ⟨?dload, ?kload, ?context, ?launch, ?move, ?moveBad, ?retire⟩
  case dload =>
    intro s s₁ a p w va ws j hand address lines read clean room
    refine ⟨_, exec_dload hand address lines read clean, ?_, (insDone_keep _ _ _).2.2.1⟩
    rw [insDone_cube, progress_cube]
    simp only [State.modCube_arrays, vmod_self]
    rw [putDescs (insField w 0 0 6) (descRead va (insField w 0 6 6 + 1) ws) _ (by omega) _ j, arrays_of_answer read (State.readTile_arrays _ _ _ _ _ _)]
    exact if_congr (by omega) rfl rfl
  case kload =>
    intro s s₁ a p w va ws j hand none address lines read
    refine ⟨_, exec_kload hand none address lines read, ?_, (insDone_keep _ _ _).2.2.1⟩
    rw [insDone_vec, progress_vec]
    simp only [State.modVec_arrays, vmod_self]
    rw [codeAt_putCodes, arrays_of_answer read (State.readTile_arrays _ _ _ _ _ _)]
    rfl
  case context =>
    intro s a p w hand empty one
    refine ⟨_, exec_vlaunch hand (by rw [empty, one]; decide), ?_, ?_⟩
    · simp only [State.modVec_arrays, vmod_self, issued_vec, one]
      exact startCtxs_first _ _ _ empty
    · simp only [State.modVec_arrays, vmod_self, issued_seq]
  case launch =>
    intro s a p w hand room
    refine ⟨_, exec_vlaunch hand room, ?_⟩
    simp only [State.modVec_arrays, vmod_self, issued_vec, startCtxs_launches]
    rfl
  case move =>
    rintro s s₁ a p w va ws _ s₃ hand address aligned lines read clean rfl good none tiles ran
    have arrays : s₁.arrays = s.arrays := arrays_of_answer read (State.readTile_arrays _ _ _ _ _ _)
    have none₁ : s₁.arrays[a].moves = [] := by rw [arrays]; exact none
    refine ⟨_, exec_move_good hand address aligned lines read clean good, ?_⟩
    have only := State.moveIssued_moves (s.newMove a w (bytesWord (bytesAt va 64 ws))) none₁
    have fuel : (s₁.moveIssued a (s.newMove a w (bytesWord (bytesAt va 64 ws)))).moveFuel a = 2 + 2 := by
      unfold State.moveFuel
      rw [only]
      exact congrArg (· + 2 + 0 + 1) tiles
    obtain ⟨whole, moves, ir⟩ := runMove_single 2 only rfl ⟨rfl, rfl, rfl⟩ tiles
      ((congrArg (State.runTile · a p _ _ _) (State.moveIssued_first _ none₁)).trans ran)
    rw [fuel]
    refine ⟨ir.trans ?_, moves, (congrArg State.mem whole).trans rfl, (congrArg State.net whole).trans rfl⟩
    simp only [State.moveIssued, State.modArray_arrays, vmod_self, issued_seq]
  case moveBad =>
    rintro s s₁ a p w va ws _ k hand address aligned lines read clean rfl bad clear
    have arrays : s₁.arrays = s.arrays := arrays_of_answer read (State.readTile_arrays _ _ _ _ _ _)
    refine ⟨_, exec_move_bad hand address aligned lines read clean bad, ?_⟩
    have seq : (s₁.issued a).arrays[a].seq = { s.arrays[a].seq with ir := none, afterStepend := false } := by rw [issued_seq, arrays]
    rw [endStep_fault _ a 3 0x30 _ 1 (by rw [seq]; exact clear), seq]
  case retire =>
    intro s a c p m panel found done owes
    refine ⟨_, exec_moveRetire panel found done owes, ?_, ?_⟩
    · rw [insRetired_moves, progress_moves]
      simp only [State.modArray_arrays, vmod_self]
    · rw [insRetired_mem, progress_mem]
      rfl

end Sys2Proof.Machine
end

section
/-!
PROOFS. R79, R87 to R92, R102: semaphores, the watchdog, re-runs and debug halts.
-/

namespace Sys2Proof.Machine

/-- R79, R208: a signal that reaches an array in service which does not remember it, with room to do so. -/
theorem exec_semaphoreSignal_new {s : State} {id : TxId} {x : Txn} {f : FieldId} {ni : NiId} {sem : Fin 64} {inc : Byte} {slot : Fin 8}
    {a : ArrayId} (txn : s.txn id = some x) (kind : x.kind = .signal f ni sem inc slot) (stage : x.stage = .atTarget)
    (target : s.signalArray f ni = some a) (joined : s.isolated f ni = false) (st : s.arrays[a].st = 0)
    (fresh : s.dedupOf (fieldOfArray a) (niOfArray a) id = none) (room : s.tableRoom (fieldOfArray a) (niOfArray a) id = true) :
    exec (.semaphoreSignal id) s =
      .next (((s.addSem a sem inc).remember (fieldOfArray a) (niOfArray a) id 0 []).answerTxn id 0 []) := by
  refine next_of_eq ?_
  rw [txn]
  dsimp only
  rw [kind, stage]
  dsimp only
  rw [target]
  dsimp only
  rw [if_neg (by simp [-Fin.getElem_fin, joined, st]), fresh]
  exact if_neg (by simp [room])

/-- R208: one that the array remembers is answered again. -/
theorem exec_semaphoreSignal_again {s : State} {id : TxId} {x : Txn} {f : FieldId} {ni : NiId} {sem : Fin 64} {inc : Byte} {slot : Fin 8}
    {a : ArrayId} {e : DedupEntry} (txn : s.txn id = some x) (kind : x.kind = .signal f ni sem inc slot) (stage : x.stage = .atTarget)
    (target : s.signalArray f ni = some a) (joined : s.isolated f ni = false) (st : s.arrays[a].st = 0)
    (known : s.dedupOf (fieldOfArray a) (niOfArray a) id = some e) :
    exec (.semaphoreSignal id) s = .next (s.answerTxn id e.status e.data) := by
  refine next_of_eq ?_
  rw [txn]
  dsimp only
  rw [kind, stage]
  dsimp only
  rw [target]
  dsimp only
  rw [if_neg (by simp [-Fin.getElem_fin, joined, st]), known]

/-- R79: the semaphores after an increment that fits, of an array that does not wait. -/
theorem addSem_fits {s : State} {a : ArrayId} {sem : Fin 64} {inc : Byte} (busy : s.arrays[a].seq.state ≠ seqWaiting)
    (fits : s.arrays[a].seq.sems[sem].toNat + inc.toNat ≤ 65535) :
    (s.addSem a sem inc).arrays[a].seq.sems =
      vset s.arrays[a].seq.sems sem (BitVec.ofNat 16 (s.arrays[a].seq.sems[sem].toNat + inc.toNat)) := by
  unfold State.addSem
  dsimp only
  rw [if_neg (by omega), Nat.min_eq_left fits, State.evalWaits, if_pos (by simpa [-Fin.getElem_fin] using busy)]
  simp only [State.modSeq_arrays, vmod_self]

/-- R79: one that overflows holds the semaphore at its top, and is fault 0x15. -/
theorem addSem_overflows {s : State} {a : ArrayId} {sem : Fin 64} {inc : Byte}
    (beyond : 65535 < s.arrays[a].seq.sems[sem].toNat + inc.toNat) (clear : s.arrays[a].seq.fault.valid = false) :
    (s.addSem a sem inc).arrays[a].seq.sems[sem] = 0xFFFF ∧ (s.addSem a sem inc).arrays[a].seq.fault =
      ⟨true, s.arrays[a].seq.fault.overflow, 0, 0x15, BitVec.ofNat 16 sem.val⟩ := by
  unfold State.addSem
  dsimp only
  rw [if_pos beyond, Nat.min_eq_right (Nat.le_of_lt beyond)]
  constructor
  · rw [endStep_sems]
    simp only [State.modSeq_arrays, vmod_self, vset_self]
    rfl
  · rw [endStep_fault _ a 0 0x15 _ 1 (by simpa [-Fin.getElem_fin] using clear)]
    simp only [State.modSeq_arrays, vmod_self]

/-- The sequencer whose watchdog has run out, and what it reports (R88, R89). -/
def State.wdExpired (s : State) (a : ArrayId) : State :=
  s.modSeq a fun y => { y with wdRemain := 0, wdRunning := false, lastReport := s.sclk }

theorem exec_watchdogExpiry {s : State} {a : ArrayId} (running : s.arrays[a].seq.wdRunning = true)
    (step : s.arrays[a].seq.stepOpen = true) :
    exec (.watchdogExpiry a) s = .next ((s.wdExpired a).attemptEnds a 0 0x16 (s.arrays[a].seq.attempt.setWidth 16)) :=
  next_of_eq (if_pos ⟨running, step⟩)

theorem State.wdExpired_array (s : State) (a : ArrayId) :
    (s.wdExpired a).arrays[a] = { s.arrays[a] with
      seq := { s.arrays[a].seq with wdRemain := 0, wdRunning := false, lastReport := s.sclk } } := by
  simp only [State.wdExpired, State.modSeq_arrays, vmod_self]

/-- An attempt's fault as it is recorded and logged. -/
theorem faultLogged_array (s : State) (a : ArrayId) (cls src : BitVec 3) (code : Byte) (info : BitVec 16) :
    ((s.seqFault a src code info).logArray a cls src code info).arrays[a] =
      { s.arrays[a] with seq := { s.arrays[a].seq with fault := s.arrays[a].seq.fault.add src code info } } := by
  rw [logArray_arrays]
  simp only [State.seqFault, State.modSeq_arrays, vmod_self]

/-- R89: an attempt that is not the last of a step that may be repeated awaits its re-run. -/
theorem attemptEnds_rerun {s : State} {a : ArrayId} (src : BitVec 3) (code : Byte) (info : BitVec 16)
    (repeats : (s.arrays[a].seq.atomic && s.arrays[a].seq.atomicIssued) = false) (more : s.arrays[a].seq.attempt ≠ 3) :
    s.attemptEnds a src code info = ((s.seqFault a src code info).logArray a 1 src code info).haltArray a .rerun := by
  unfold State.attemptEnds
  dsimp only
  rw [if_neg (by simp [-Fin.getElem_fin, repeats]), if_neg more]

/-- R89: the third attempt ends the invocation with status 3. -/
theorem attemptEnds_last {s : State} {a : ArrayId} (src : BitVec 3) (code : Byte) (info : BitVec 16)
    (repeats : (s.arrays[a].seq.atomic && s.arrays[a].seq.atomicIssued) = false) (last : s.arrays[a].seq.attempt = 3) :
    s.attemptEnds a src code info =
      (((s.seqFault a src code info).logArray a 0 src code info).haltArray a .fault).endInvOf a 3 code := by
  unfold State.attemptEnds
  dsimp only
  rw [if_neg (by simp [-Fin.getElem_fin, repeats]), if_pos last]

theorem endInvOf_of_inv {s : State} {a : ArrayId} {q : QRef} (status code : Byte) (inv : s.arrays[a].seq.inv = some q) :
    s.endInvOf a status code = s.endInv q status code (some a) := by
  unfold State.endInvOf
  rw [inv]

/-- R89: a re-run that nothing of the attempt before it holds back. -/
theorem exec_stepRerun {s : State} {a : ArrayId} (st : s.arrays[a].st = 0) (due : s.arrays[a].seq.state = seqRerun)
    (quiet : s.arrays[a].quiet = true) (owes : s.arrayOwes a = false) :
    exec (.stepRerun a) s = .next ((s.modSeq a fun x => { x.restart with attempt := x.attempt + 1 }).wdLoad a) :=
  next_of_eq (if_pos ⟨st, due, quiet, by simp [owes]⟩)

/-- R102: a debug halt of an array in service whose schedule runs. -/
theorem debugHalt_running {s : State} {a : ArrayId} (st : s.arrays[a].st = 0) (running : s.arrays[a].seq.state = seqRunning) :
    s.debugHalt a = s.haltArray a .debug :=
  if_neg (by simp [-Fin.getElem_fin, st, running])

/-- Settles O21, by what each of these commands comes to. -/
theorem scheduleControl : Obligations.ScheduleControl := by
  unfold Obligations.ScheduleControl
  refine ⟨?fits, ?again, ?overflows, ?expires, ?expiresLast, ?report, ?rerun, ?halt, ?resume, ?stepOne⟩
  case fits =>
    intro s id x f ni sem inc slot a txn kind stage target joined st fresh room busy fits
    refine ⟨_, exec_semaphoreSignal_new txn kind stage target joined st fresh room, ?_⟩
    rw [State.answerTxn_arrays, State.remember_arrays, addSem_fits busy fits]
    refine ⟨?_, fun k other => vset_other _ _ other⟩
    rw [vset_self]
    exact Nat.mod_eq_of_lt (by omega)
  case again =>
    intro s id x f ni sem inc slot a e txn kind stage target joined st known
    refine ⟨_, exec_semaphoreSignal_again txn kind stage target joined st known, ?_⟩
    rw [State.answerTxn_arrays]
  case overflows =>
    intro s id x f ni sem inc slot a txn kind stage target joined st fresh room beyond clear
    refine ⟨_, exec_semaphoreSignal_new txn kind stage target joined st fresh room, ?_⟩
    rw [State.answerTxn_arrays, State.remember_arrays]
    exact addSem_overflows beyond clear
  case expires =>
    intro s a running step more repeats idle clear
    have array := s.wdExpired_array a
    have logged := faultLogged_array (s.wdExpired a) a 1 0 0x16 (s.arrays[a].seq.attempt.setWidth 16)
    refine ⟨_, (exec_watchdogExpiry running step).trans (next_of_eq
      ((attemptEnds_rerun 0 0x16 _ (by rw [array]; exact repeats) (by rw [array]; exact more)).trans
        (State.haltArray_of_idle .rerun (by rw [logged, array]; exact idle)))), ?_⟩
    obtain ⟨-, state, -, -, kept, -⟩ := haltEffect_array
      (((s.wdExpired a).seqFault a 0 0x16 (s.arrays[a].seq.attempt.setWidth 16)).logArray a 1 0 0x16 (s.arrays[a].seq.attempt.setWidth 16)) a .rerun
    obtain ⟨-, -, -, -, -, -, -, -, fault, -⟩ := key_st (haltEffect_key
      (((s.wdExpired a).seqFault a 0 0x16 (s.arrays[a].seq.attempt.setWidth 16)).logArray a 1 0 0x16 (s.arrays[a].seq.attempt.setWidth 16)) a a .rerun)
    refine ⟨state, ?_, haltEffect_wd _ _ _, ?_⟩
    · rw [kept, logged, array]
      simp [-Fin.getElem_fin, step]
    · rw [fault, logged, array]
      simp only [FaultRec.add, clear, Bool.false_eq_true, if_false]
  case expiresLast =>
    intro s a q x running step last repeats inv taken open_
    have array := s.wdExpired_array a
    have logged := faultLogged_array (s.wdExpired a) a 0 0 0x16 (s.arrays[a].seq.attempt.setWidth 16)
    refine ⟨_, (exec_watchdogExpiry running step).trans (next_of_eq
      ((attemptEnds_last 0 0x16 _ (by rw [array]; exact repeats) (by rw [array]; exact last)).trans
        (endInvOf_of_inv 3 0x16 (q := q) ?_))), endInv_status _ q 3 0x16 _ x ?_ open_⟩
    · obtain ⟨-, -, -, -, -, -, -, -, -, -, kept, -⟩ := key_st (haltArray_key
        (((s.wdExpired a).seqFault a 0 0x16 (s.arrays[a].seq.attempt.setWidth 16)).logArray a 0 0 0x16 (s.arrays[a].seq.attempt.setWidth 16)) a a .fault)
      rw [kept, logged, array]
      exact inv
    · rw [haltArray_taken, ← taken]
      exact congrFun (taken_ports (logArray_ports _ _ _ _ _ _ _)) q
  case report =>
    intro s a st
    refine ⟨_, next_of_eq (if_pos st), ?_⟩
    simp only [State.modSeq_arrays, vmod_self]
  case rerun =>
    intro s a st due quiet owes
    refine ⟨_, exec_stepRerun st due quiet owes, ?_⟩
    simp only [State.wdLoad, State.modSeq_arrays, vmod_self, SeqState.restart, and_self]
  case halt =>
    intro s a port st running idle
    refine ⟨_, next_of_eq ((State.byPf0_open _ port).trans
      ((debugHalt_running st running).trans (State.haltArray_of_idle .debug idle))), ?_⟩
    obtain ⟨grid, state, -, -, step, -⟩ := haltEffect_array s a .debug
    refine ⟨state, ?_, ?_⟩
    · rw [grid]
      simp [CubeState.halt]
    · rw [step]
      simp
  case resume =>
    intro s a port st debug inv step
    have left : (s.modSeq a fun x => { x with singleStep := false }).leaveHalt a =
        (s.modSeq a fun x => { x with singleStep := false }).modSeq a SeqState.restart :=
      leaveHalt_open _ a (by simpa [-Fin.getElem_fin] using inv) (by simpa [-Fin.getElem_fin] using step)
    refine ⟨_, next_of_eq ((State.byPf0_open _ port).trans ((if_pos ⟨st, debug⟩).trans ((congrArg (fun u : State =>
      if u.arrays[a].seq.stepOpen then u.wdResume a else u) left).trans (if_pos ?_)))), ?_⟩
    · simp only [State.modSeq_arrays, vmod_self, SeqState.restart]
    · simp only [State.wdResume, State.modSeq_arrays, vmod_self, SeqState.restart, and_self]
  case stepOne =>
    intro s a port st debug inv step first
    refine ⟨_, next_of_eq ((State.byPf0_open _ port).trans ((if_pos ⟨st, debug⟩).trans ((if_neg (by simp [-Fin.getElem_fin, first])).trans
      (leaveHalt_open _ a (by simpa [-Fin.getElem_fin] using inv) (by simpa [-Fin.getElem_fin] using step))))), ?_⟩
    simp only [State.modSeq_arrays, vmod_self, SeqState.restart, and_self]

end Sys2Proof.Machine
end

section
/-!
PROOFS. R270 to R279: links, link power and interrupts of the host ports.
-/

namespace Sys2Proof.Machine

theorem State.modPort_self (s : State) (p : PortId) (f : PortState → PortState) : (s.modPort p f).ports[p] = f s.ports[p] :=
  vmod_self s.ports p f

/-- A port without the readiness that it has announced. -/
def PortState.bareReady (x : PortState) : PortState := { x with irqStatus := 0, frsSent := false }

/-- What a port and the same port with other status bits share of their link. -/
theorem link_of_bareReady {x y : PortState} (e : x.bareReady = y.bareReady) :
    x.l0 = y.l0 ∧ x.rate = y.rate ∧ x.width = y.width ∧ x.activeWidth = y.activeWidth ∧ x.pm = y.pm ∧ x.slow = y.slow ∧
      x.flit = y.flit := by
  unfold PortState.bareReady at e
  injection e
  exact ⟨‹_›, ‹_›, ‹_›, ‹_›, ‹_›, ‹_›, ‹_›⟩

theorem bareReady_modPort (s : State) (p q : PortId) (f : PortState → PortState) (kept : ∀ x, (f x).bareReady = x.bareReady) :
    (s.modPort p f).ports[q].bareReady = s.ports[q].bareReady := by
  rw [State.modPort_ports, vmod_get]
  split
  next => exact kept _
  next => rfl

/-- A port whose link has reached L0 (R270, R271). -/
def PortState.trained (x : PortState) (rate : Fin 7) (width : Fin 17) (flit : Bool) : PortState := { x with
  l0 := true, slow := decide (rate.val < 4), flit := flit, rate := BitVec.ofNat 3 rate.val
  width := BitVec.ofNat 5 width.val, activeWidth := BitVec.ofNat 5 width.val, pm := 0 }

/-- A port whose link is down (R295). -/
def PortState.downed (x : PortState) : PortState := { x.resetConfig with
  l0 := false, slow := false, flit := false, rate := 0, width := 0, activeWidth := 0, pm := 0, intaSent := false
  frsSent := false, reads := [] }

theorem readyMessage_port (s : State) (p q : PortId) : (s.readyMessage p).ports[q].bareReady = s.ports[q].bareReady := by
  unfold State.readyMessage
  split
  next => exact bareReady_modPort s p q _ (fun _ => rfl)
  next => rfl

theorem readyFrom_port (s b : State) (q : PortId) : (s.readyFrom b).ports[q].bareReady = s.ports[q].bareReady := by
  unfold State.readyFrom
  split
  next => rfl
  next => rw [irq_key]; rfl

/-- What a link leaves of its port as it comes up, the status bits aside. -/
theorem linkTrained_port (s : State) (port : PortId) (f : PortState → PortState) (o : Out) :
    ((((s.modPort port f).emit o).readyMessage port).readyFrom s).ports[port].bareReady = (f s.ports[port]).bareReady := by
  rw [readyFrom_port, readyMessage_port, State.emit_ports, State.modPort_self]

/-- And as it changes its speed. -/
theorem linkSpeed_port (s : State) (port : PortId) (f : PortState → PortState) :
    (((s.modPort port f).readyMessage port).readyFrom s).ports[port].bareReady = (f s.ports[port]).bareReady := by
  rw [readyFrom_port, readyMessage_port, State.modPort_self]

theorem exec_linkTraining_up {s : State} {port : PortId} {rate : Fin 7} {width : Fin 17} {flit : Bool} (awake : s.inReset = false)
    (perst : s.ports[port].perst = false) (down : s.ports[port].l0 = false) (wide : linkWidth width.val = true)
    (mode : flitAt rate.val flit = true) :
    exec (.linkTraining port rate width flit) s = .next ((((s.modPort port fun y => y.trained rate width flit).emit (.speedChange port)).readyMessage
      port).readyFrom s) :=
  next_of_eq (if_neg (by simp [-Fin.getElem_fin, awake, perst, down, wide, mode]))

theorem exec_linkSpeedReached_up {s : State} {port : PortId} {rate : Fin 7} (up : s.ports[port].l0 = true)
    (mode : flitAt rate.val s.ports[port].flit = true) :
    exec (.linkSpeedReached port rate) s = .next (((s.modPort port fun y =>
      { y with rate := BitVec.ofNat 3 rate.val, slow := decide (rate.val < 4) }).readyMessage port).readyFrom s) :=
  next_of_eq (if_neg (by simp [-Fin.getElem_fin, up, mode]))

/-- R295: the port of a reset of it, its status bits aside. -/
theorem portReset_port {s : State} (port : PortId) (idle : s.img.status ≠ 1) :
    (s.portReset port).ports[port].bareReady = (s.resetAll port).ports[port].downed.bareReady := by
  unfold State.portReset
  dsimp only
  rw [readyFrom_port, if_neg (fun h => idle h.1), State.modPort_self]
  rfl

/-- What a port that has gone down reads as, whatever readiness it has announced. -/
theorem downed_of_bare {x y : PortState} (e : x.bareReady = y.downed.bareReady) :
    x.l0 = false ∧ x.vfEnable = false ∧ x.numVfs = 0 ∧ x.session = none ∧ x.reads = [] ∧ x.pm = 0 :=
  ⟨congrArg PortState.l0 e, congrArg PortState.vfEnable e, congrArg PortState.numVfs e, congrArg PortState.session e,
    congrArg PortState.reads e, congrArg PortState.pm e⟩

/-- What O22 says of a port that goes down. -/
theorem portReset_down {s : State} (port : PortId) (idle : s.img.status ≠ 1) :
    (s.portReset port).ports[port].l0 = false ∧ (s.portReset port).ports[port].vfEnable = false ∧
      (s.portReset port).ports[port].numVfs = 0 ∧ (s.portReset port).ports[port].session = none ∧
      (s.portReset port).ports[port].reads = [] ∧ (s.portReset port).ports[port].pm = 0 :=
  downed_of_bare (portReset_port port idle)

/-- R278: a vector that waits, of a function that may send. -/
theorem exec_msiXSend_taken {s : State} {port : PortId} {v : VfId} {k : Fin 32} (waits : k ∈ s.ports[port].vfs[v].waitingMsix)
    (bme : s.ports[port].vfs[v].bme = true) (up : s.ports[port].l0 = true) (bound : s.ports[port].vfs[v].bound.isSome = true)
    (steady : s.ports[port].vfs[v].resetting = false) (enabled : s.ports[port].vfs[v].msixEnable = true) :
    exec (.msiXSend port v k) s = .next (
      if s.ports[port].vfs[v].msixMask ∨ s.ports[port].vfs[v].msix[k].masked then
        (s.modVf port v fun y => { y with waitingMsix := y.waitingMsix.erase k }).modVf port v
          fun y => { y with pba := setBit y.pba k.val true }
      else (s.modVf port v fun y => { y with waitingMsix := y.waitingMsix.erase k }).emit (.msix port v k)) := by
  have known : s.ports[port].vfs[v].bound.isNone = false := by rw [← Option.not_isSome, bound]; rfl
  refine next_of_eq (if_neg ?_)
  simp [-Fin.getElem_fin, State.vf, waits, bme, up, known, steady, enabled]

/-- Settles O22, by what each of these commands comes to. -/
theorem hostLinks : Obligations.HostLinks := by
  unfold Obligations.HostLinks
  refine ⟨?trains, ?speed, ?down, ?hot, ?l1, ?narrow, ?exits, ?inta, ?sent, ?pending⟩
  case trains =>
    intro s port rate width flit awake perst down wide mode
    refine ⟨_, exec_linkTraining_up awake perst down wide mode, ?_⟩
    exact link_of_bareReady (linkTrained_port s port (fun y => y.trained rate width flit) (.speedChange port))
  case speed =>
    intro s port rate up mode
    refine ⟨_, exec_linkSpeedReached_up up mode, ?_⟩
    obtain ⟨-, speed, width, -, -, slow, -⟩ := link_of_bareReady (linkSpeed_port s port fun y =>
      { y with rate := BitVec.ofNat 3 rate.val, slow := decide (rate.val < 4) })
    exact ⟨speed, slow, width⟩
  case down =>
    intro s port up idle
    exact ⟨_, next_of_eq (if_pos up), portReset_down port idle⟩
  case hot =>
    intro s port up idle
    exact ⟨_, next_of_eq (if_pos up), portReset_down port idle⟩
  case l1 =>
    intro s port k up fast may deeper
    have small : (BitVec.ofNat 3 (2 + k.val)).toNat = 2 + k.val := Nat.mod_eq_of_lt (by omega)
    refine ⟨_, next_of_eq (if_neg ?_), ?_, rfl⟩
    · simp [-Fin.getElem_fin, -BitVec.toNat_ofNat, up, fast, may, small, deeper]
    · simp only [State.emit_ports, State.modPort_ports, vmod_self]
  case narrow =>
    intro s port up fast flit l0p shallow wide
    refine ⟨_, next_of_eq (if_neg ?_), ?_⟩
    · simp [-Fin.getElem_fin, up, fast, flit, l0p, shallow, wide]
    · simp only [State.emit_ports, State.modPort_ports, vmod_self]
      exact ⟨trivial, trivial, trivial, rfl⟩
  case exits =>
    intro s port up deep
    refine ⟨_, next_of_eq (if_neg ?_), ?_, rfl⟩
    · simpa [-Fin.getElem_fin, up] using deep
    · simp only [State.emit_ports, State.modPort_ports, vmod_self]
  case inta =>
    intro s port up moved
    refine ⟨_, next_of_eq (if_neg ?_), ?_, rfl⟩
    · simp [-Fin.getElem_fin, up, moved]
    · simp only [State.emit_ports, State.modPort_ports, vmod_self]
  case sent =>
    intro s port v k waits bme up bound steady enabled open_ unmasked
    refine ⟨_, (exec_msiXSend_taken waits bme up bound steady enabled).trans (next_of_eq (if_neg ?_)), rfl, ?_⟩
    · simp [-Fin.getElem_fin, open_, unmasked]
    · simp only [State.emit_ports, State.modVf_ports, vmod_self, and_self]
  case pending =>
    intro s port v k waits bme up bound steady enabled masked
    refine ⟨_, (exec_msiXSend_taken waits bme up bound steady enabled).trans (next_of_eq (if_pos masked)), rfl, ?_⟩
    simp only [State.modVf_ports, vmod_self, and_self]

end Sys2Proof.Machine
end

section
/-!
PROOFS. R276, R280, R290: reads and writes through BAR2, and requests that a port does not take.
-/

namespace Sys2Proof.Machine

/-- R276: a read through BAR2 whose addresses all translate. -/
theorem exec_bar2Read_read {s s₁ : State} {port : PortId} {v : VfId} {off : Word} {tee : Bool} {n : Nat} {p : PanelId} {rs : List Reply}
    (up : s.ports[port].l0 = true) (live : s.vfLive port v = true) (kept : s.vfDust port v = false) (open_ : s.teeRefused port v tee = false)
    (posted : s.postedWaits port = false) (sized : 0 < n ∧ n ≤ 4096 ∧ off.toNat + n ≤ 2 ^ 32) (bound : s.ports[port].vfs[v].bound = some p)
    (free : s.plainBusy (portEng port p s.ports[port].vfs[v].tint) .read (coverVas (s.ports[port].vfs[v].apertureVa off) n) = false)
    (read : s.readPlainVas (portEng port p s.ports[port].vfs[v].tint) .read (coverVas (s.ports[port].vfs[v].apertureVa off) n) = (.ok rs, s₁)) :
    exec (.bar2Read port v ⟨off, tee⟩ n) s =
      .next (s₁.bar2Answer port (portEng port p s.ports[port].vfs[v].tint) (s.ports[port].vfs[v].apertureVa off) n rs) := by
  obtain ⟨some_, few, fits⟩ := sized
  refine next_of_eq ?_
  dsimp only [State.vf]
  rw [if_neg (by simp [-Fin.getElem_fin, up]; omega), if_neg (by simp [-Fin.getElem_fin, live, kept, open_]), bound]
  dsimp only
  rw [if_neg (by simp [-Fin.getElem_fin, free, posted]), read]

/-- R290: one that its function does not take. -/
theorem exec_bar2Read_refused {s : State} {port : PortId} {v : VfId} {off : Word} {tee : Bool} {n : Nat} (up : s.ports[port].l0 = true)
    (sized : 0 < n ∧ n ≤ 4096 ∧ off.toNat + n ≤ 2 ^ 32) (refused : (s.vfLive port v && !s.vfDust port v && !s.teeRefused port v tee) = false) :
    exec (.bar2Read port v ⟨off, tee⟩ n) s = .next ((s.noteHost port 0).unsupported port) := by
  obtain ⟨some_, few, fits⟩ := sized
  refine next_of_eq ((if_neg (by simp [-Fin.getElem_fin, up]; omega)).trans (if_pos ?_))
  revert refused
  cases s.vfLive port v <;> cases s.vfDust port v <;> simp

/-- R276: an answered read sends its bytes after what it logs. -/
theorem bar2Answer_data {s : State} {port : PortId} {e : Eng} {va : BitVec 55} {n : Nat} {rs : List Reply} (ok : worstStatus rs = 0) :
    (s.bar2Answer port e va n rs).out = .bar2Data port (bytesAt va n (rs.map fun r => r.word)) ((rs.map fun r => r.word).any fun w => w.mark) :: s.out ∧
      (s.bar2Answer port e va n rs).mem = s.mem := by
  unfold State.bar2Answer
  rw [if_neg (by simp [ok])]
  dsimp only
  constructor
  · rw [← State.egress_out s e.agent]
    rfl
  · rw [State.emit_mem, State.egress_mem]

/-- R280: a write that a live function takes, by its offset and length. -/
theorem exec_bar2Write_taken {s : State} {port : PortId} {v : VfId} {off : Word} {tee mark : Bool} {bs : List Byte} {p : PanelId}
    (up : s.ports[port].l0 = true) (live : s.vfLive port v = true) (kept : s.vfDust port v = false) (open_ : s.teeRefused port v tee = false)
    (sized : 0 < bs.length ∧ bs.length ≤ 512 ∧ off.toNat + bs.length ≤ 2 ^ 32) (bound : s.ports[port].vfs[v].bound = some p) :
    exec (.bar2Write port v ⟨off, tee⟩ mark bs) s = .next (
      if off.toNat % 64 ≠ 0 ∨ bs.length % 64 ≠ 0 then
        s.accessEvent 8 (portEng port p s.ports[port].vfs[v].tint).agent (s.leadsTo (portEng port p s.ports[port].vfs[v].tint) .write
          (wordVa (s.ports[port].vfs[v].apertureVa off)))
      else if s.plainBusy (portEng port p s.ports[port].vfs[v].tint) .write (runVas (s.ports[port].vfs[v].apertureVa off) (bs.length / 64)) ||
          s.postedWaits port then s
      else (s.bar2Words port p (portEng port p s.ports[port].vfs[v].tint) ((runVas (s.ports[port].vfs[v].apertureVa off) (bs.length / 64)).zip
        ((toWords (bs.length / 64) bs).map fun d => ({ data := d, mark := mark } : CodeWord)))).getD s) := by
  obtain ⟨some_, few, fits⟩ := sized
  refine next_of_eq ?_
  dsimp only [State.vf]
  rw [if_neg (by simp [-Fin.getElem_fin, -List.length_eq_zero_iff, up]; omega), if_neg (by simp [-Fin.getElem_fin, live, kept]), if_neg (by simp [open_]), bound]

/-- Settles O23, by what each of these commands comes to. -/
theorem hostAccess : Obligations.HostAccess := by
  unfold Obligations.HostAccess
  refine ⟨?read, ?refused, ?write, ?uneven, ?unsupported⟩
  case read =>
    intro s s₁ port v off tee n p rs up live kept open_ posted sized bound free read ok
    exact ⟨_, exec_bar2Read_read up live kept open_ posted sized bound free read, bar2Answer_data ok⟩
  case refused =>
    intro s port v off tee n up sized refused
    refine ⟨_, exec_bar2Read_refused up sized refused, rfl, ?_⟩
    exact s.noteHost_mem port 0
  case write =>
    intro s s₁ port v off tee mark bs p up live kept open_ posted sized whole bound free words
    refine ⟨_, (exec_bar2Write_taken up live kept open_ sized bound).trans (next_of_eq ?_), rfl⟩
    rw [if_neg (by simp [whole]), if_neg (by simp [-Fin.getElem_fin, free, posted]), words]
    rfl
  case uneven =>
    intro s port v off tee mark bs p up live kept open_ posted sized uneven bound room
    exact ⟨_, (exec_bar2Write_taken up live kept open_ sized bound).trans (next_of_eq (if_pos uneven)),
      accessEvent_hard s 8 _ _ (by decide) room⟩
  case unsupported =>
    intro s port posted up room
    obtain ⟨logged, sent⟩ := noteHost_flog s port 0 room
    refine ⟨_, next_of_eq (if_neg (by simp [-Fin.getElem_fin, up])), ?_⟩
    cases posted
    · exact ⟨(State.modPort_self _ _ _).trans (by rw [State.noteHost_ports]), congrArg _ sent, logged⟩
    · exact ⟨(State.modPort_self _ _ _).trans (by rw [State.noteHost_ports]), sent, logged⟩

end Sys2Proof.Machine
end

section
/-!
PROOFS. R273, R294, R295, R395, R425: resets of functions and ports, and configuration writes.
-/

namespace Sys2Proof.Machine

theorem State.modVf_self (s : State) (p : PortId) (v : VfId) (f : VfState → VfState) :
    (s.modVf p v f).ports[p].vfs[v] = f s.ports[p].vfs[v] := by
  simp only [State.modVf_ports, vmod_self]

theorem exec_flr_there {s : State} {port : PortId} {v : VfId} (booted : s.stage = 4) (there : s.vfThere port v = true) :
    exec (.flr port v) s = .next ((s.startReset port v).modVf port v VfState.resetConfig) :=
  next_of_eq ((byConfig_open s port _ (vfThere_l0 there) booted).trans (if_pos there))

/-- R294: a reset of a VF that is not being reset, and whose panel is not in dust sheet. -/
theorem startReset_starts {s : State} {port : PortId} {v : VfId} (steady : s.ports[port].vfs[v].resetting = false)
    (kept : s.vfDust port v = false) :
    s.startReset port v = (s.quiesce port v).modVf port v fun x => { x with resetting := true } :=
  if_neg (by simp [-Fin.getElem_fin, State.vf, steady, kept])

theorem startReset_resets {s : State} {port : PortId} {v : VfId} (steady : s.ports[port].vfs[v].resetting = false)
    (kept : s.vfDust port v = false) : (s.startReset port v).ports[port].vfs[v].resetting = true := by
  rw [startReset_starts steady kept, State.modVf_self]

/-- R294: a VF page after its reset. -/
def VfState.afterReset (x : VfState) : VfState := { x.resetPage with resetting := false }

/-- A state whose function has been reset and, where its link is up, says so. -/
def State.resetTold (s : State) (port : PortId) (v : VfId) (up : Bool) : State :=
  if up then (s.modVf port v VfState.afterReset).emit (.frs port (some v)) else s.modVf port v VfState.afterReset

theorem State.resetTold_vf (s : State) (port : PortId) (v : VfId) (up : Bool) :
    (s.resetTold port v up).ports[port].vfs[v] = s.ports[port].vfs[v].afterReset := by
  cases up
  · exact s.modVf_self port v _
  · exact s.modVf_self port v _

theorem State.resetTold_out (s : State) (port : PortId) (v : VfId) (up : Bool) :
    (s.resetTold port v up).out = (if up then [.frs port (some v)] else []) ++ s.out := by
  cases up
  · rfl
  · rfl

theorem State.resetTold_pnl (s : State) (port : PortId) (v : VfId) (up : Bool) : (s.resetTold port v up).pnl = s.pnl := by
  cases up
  · rfl
  · rfl

theorem exec_functionResetComplete_unbound {s : State} {port : PortId} {v : VfId} (resets : s.ports[port].vfs[v].resetting = true)
    (bound : s.ports[port].vfs[v].bound = none) :
    exec (.functionResetComplete port v) s = .next (s.resetTold port v s.ports[port].l0) := by
  refine next_of_eq ((if_neg (by simp [-Fin.getElem_fin, State.vf, resets, bound])).trans ?_)
  simp only [State.vf, bound]
  rfl

theorem exec_functionResetComplete_bound {s : State} {port : PortId} {v : VfId} {p : PanelId} (resets : s.ports[port].vfs[v].resetting = true)
    (bound : s.ports[port].vfs[v].bound = some p) (still : s.panelStill p = true) :
    exec (.functionResetComplete port v) s = .next (((s.endHalted p).resetTold port v s.ports[port].l0).enterDust p) := by
  refine next_of_eq ((if_neg (by simp [-Fin.getElem_fin, State.vf, resets, bound, still])).trans ?_)
  simp only [State.vf, bound]
  rfl

/-- A configuration write to a VF that exists and is not being reset. -/
theorem vfConfig_taken {s : State} {port : PortId} {v : VfId} {f : State → State} (booted : s.stage = 4) (there : s.vfThere port v = true)
    (steady : s.ports[port].vfs[v].resetting = false) : (s.byConfig port fun s => s.vfConfig port v f) = f s :=
  (byConfig_open s port _ (vfThere_l0 there) booted).trans (vfConfig_open s port v f there steady)

theorem clearBme_clears {s : State} {port : PortId} {v : VfId} (on : s.ports[port].vfs[v].bme = true) :
    s.clearBme port v = ((s.tdiError port v).startReset port v).modVf port v fun x => { x with bme := false } :=
  if_neg (by simp [-Fin.getElem_fin, State.vf, on])

/-- R425: Bus Master Enable written 1 stays set through what it lets go on. -/
theorem setBme_bme {s : State} {port : PortId} {v : VfId} (off : s.ports[port].vfs[v].bme = false) :
    (s.setBme port v).ports[port].vfs[v].bme = true := by
  have fetched : ∀ u : State, u.ports[port].vfs[v].bme = true → (u.fetchVf port v).ports[port].vfs[v].bme = true := by
    intro u set
    have kept := congrArg VfState.bme (hostKey_getVf (hostKey_fetchVf u port v) port v)
    simp only [vfKey] at kept
    rw [kept, set]
  have set : ((s.tdiError port v).modVf port v fun y => { y with bme := true }).ports[port].vfs[v].bme = true := by rw [State.modVf_self]
  rw [State.setBme, if_neg (by simp [-Fin.getElem_fin, State.vf, off])]
  dsimp only [State.vf]
  refine fetched _ ?_
  cases s.ports[port].vfs[v].bound with
  | none => exact set
  | some p => exact (releaseRecords_bme _ p port v).1.trans set

/-- Settles O24, by what each of these commands comes to. -/
theorem hostResets : Obligations.HostResets := by
  unfold Obligations.HostResets
  refine ⟨?flr, ?flrStarts, ?complete, ?completeBound, ?bmeClear, ?bmeSet, ?bmeRetry, ?vfEnable, ?pf0Sleeps, ?vfSleeps, ?pf0Flr, ?numVfs,
    ?assert, ?release⟩
  case flr =>
    intro s port v booted there
    refine ⟨_, exec_flr_there booted there, ?_⟩
    rw [State.modVf_self]
    exact ⟨rfl, rfl, rfl, rfl⟩
  case flrStarts =>
    intro s port v booted there steady kept
    refine ⟨_, exec_flr_there booted there, ?_⟩
    rw [startReset_starts steady kept, State.modVf_self, State.modVf_self]
    exact ⟨rfl, quiesce_vf s port v⟩
  case complete =>
    intro s port v resets bound
    exact ⟨_, exec_functionResetComplete_unbound resets bound, s.resetTold_vf port v _, s.resetTold_out port v _⟩
  case completeBound =>
    intro s port v p resets bound still live
    refine ⟨_, exec_functionResetComplete_bound resets bound still, ?_⟩
    have kept : ((s.endHalted p).resetTold port v s.ports[port].l0).pnl.panels[p].state = 3 := by
      rw [State.resetTold_pnl, endHalted_pnl, live]
    exact enterDust_panel _ p (by rw [kept]; decide) (by rw [kept]; decide)
  case bmeClear =>
    intro s port v booted there steady on kept
    obtain ⟨reset, dust⟩ := tdiError_reset s port v
    refine ⟨_, next_of_eq ((vfConfig_taken booted there steady).trans (clearBme_clears on)), ?_⟩
    rw [State.modVf_self]
    exact ⟨rfl, startReset_resets (reset.trans steady) (dust.trans kept)⟩
  case bmeSet =>
    intro s port v booted there steady off
    exact ⟨_, next_of_eq (vfConfig_taken booted there steady), setBme_bme off⟩
  case bmeRetry =>
    intro s port v booted there resets
    refine ⟨_, next_of_eq ((byConfig_open s port _ (vfThere_l0 there) booted).trans
      ((if_neg (by simp [there])).trans (if_pos ?_))), rfl⟩
    exact resets
  case vfEnable =>
    intro s port up booted on
    obtain ⟨count, each⟩ := resetAll_vf s port
    refine ⟨_, next_of_eq ((byConfig_open s port _ up booted).trans (if_neg (by simp [-Fin.getElem_fin, on]))), ?_⟩
    rw [State.modPort_self]
    dsimp only
    exact ⟨rfl, count, fun v kept => (each v).resolve_right (by simp [kept])⟩
  case pf0Sleeps =>
    intro s port up booted
    exact ⟨_, next_of_eq (byConfig_open s port _ up booted), State.modPort_self _ _ _⟩
  case vfSleeps =>
    intro s port v booted there steady awake kept
    refine ⟨_, next_of_eq ((vfConfig_taken booted there steady).trans (if_neg (by simp [-Fin.getElem_fin, State.vf, awake]))), ?_⟩
    rw [State.modVf_self]
    exact ⟨rfl, startReset_resets steady kept⟩
  case pf0Flr =>
    intro s port up booted
    refine ⟨_, next_of_eq (byConfig_open s port _ up booted), ?_⟩
    rw [State.flrPf0, State.modPort_self]
    dsimp only [PortState.resetConfig]
    exact ⟨(resetAll_l0 s port).trans up, rfl, rfl, rfl, rfl, rfl, rfl⟩
  case numVfs =>
    intro s port n up booted off
    exact ⟨_, next_of_eq ((byConfig_open s port _ up booted).trans (if_neg (by simp [-Fin.getElem_fin, off]))), State.modPort_self _ _ _⟩
  case assert =>
    intro s port high awake idle
    refine ⟨_, next_of_eq ((if_neg (by simp [-Fin.getElem_fin, high])).trans (if_neg (by simp [awake]))), ?_⟩
    obtain ⟨down, enable, count, -⟩ := portReset_down (s := s.modPins fun x => { x with perstN := vset x.perstN port false }) port idle
    rw [State.modPort_self, State.modPort_pins, State.portReset_pins]
    exact ⟨vset_self _ _ _, rfl, down, enable, count⟩
  case release =>
    intro s port low
    refine ⟨_, next_of_eq (if_neg (by simp [-Fin.getElem_fin, low])), ?_⟩
    rw [State.modPort_self, State.modPort_pins]
    exact ⟨vset_self _ _ _, rfl⟩

end Sys2Proof.Machine
end

section
/-!
PROOFS. R291 to R293, R320, R328, R329: IDE keys, SPDM answers, and the states of a TDISP interface.
-/

namespace Sys2Proof.Machine

theorem State.modPanel_self (s : State) (p : PanelId) (f : PanelState → PanelState) :
    (s.modPanel p f).pnl.panels[p] = f s.pnl.panels[p] := by
  simp only [State.modPanel_pnl, vmod_self]

/-- What an SPDM request that is answered leaves, before it is answered. -/
def State.spdmServed (s : State) (port : PortId) : SpdmReq → State
  | .startSession id _ => s.modPort port fun x => { x with session := some id }
  | .endSession _ => s.modPort port fun x => { x with session := none }
  | .panelDestroy panel counter mac => (s.destroyPanel panel counter mac (List.replicate 80 0)).2
  | _ => s

theorem exec_spdmRequest_answered {s : State} {port : PortId} {req : SpdmReq} {bs : List Byte} (up : s.ports[port].l0 = true)
    (booted : s.stage = 4) (reply : s.spdmReply port req = some bs) :
    exec (.spdmRequest port req) s = .next ((s.spdmServed port req).emit (.spdmAnswer port bs)) := by
  refine next_of_eq ((if_neg (by simp [-Fin.getElem_fin, up, booted])).trans ?_)
  rw [reply]
  cases req <;> rfl

theorem exec_spdmRequest_refused {s : State} {port : PortId} {req : SpdmReq} (up : s.ports[port].l0 = true) (booted : s.stage = 4)
    (reply : s.spdmReply port req = none) : exec (.spdmRequest port req) s = .next (s.emit (.spdmError port)) := by
  refine next_of_eq ((if_neg (by simp [-Fin.getElem_fin, up, booted])).trans ?_)
  rw [reply]

theorem exec_lockInterface_locks {s : State} {port : PortId} {v : VfId} (there : s.vfThere port v = true)
    (session : s.ports[port].session.isSome = true) (free : s.ports[port].vfs[v].tdi = 0) (bound : s.ports[port].vfs[v].bound.isSome = true)
    (steady : s.ports[port].vfs[v].resetting = false) (kept : s.vfDust port v = false) :
    exec (.lockInterface port v) s = .next ((s.modVf port v fun y =>
      { y with tdi := 1, lockSession := s.ports[port].session }).emit (.spdmAnswer port [])) := by
  have opened : s.ports[port].session.isNone = false := by rw [← Option.not_isSome, session]; rfl
  have known : s.ports[port].vfs[v].bound.isNone = false := by rw [← Option.not_isSome, bound]; rfl
  exact next_of_eq ((if_neg (by simp [there])).trans
    (if_neg (by simp [-Fin.getElem_fin, State.vf, opened, free, known, steady, kept])))

theorem exec_panelKeySet_sets {s : State} {port : PortId} {v : VfId} {key : BitVec 384} {p : PanelId} (there : s.vfThere port v = true)
    (session : s.ports[port].session.isSome = true) (own : s.ports[port].vfs[v].lockSession = s.ports[port].session)
    (locked : s.ports[port].vfs[v].tdi = 1) (bound : s.ports[port].vfs[v].bound = some p) (fresh : s.pnl.panels[p].authKey = none)
    (sealed_ : s.pnl.panels[p].sealed_ = true) :
    exec (.panelKeySet port v key) s = .next ((s.modPanel p fun y =>
      { y with authKey := some key, counter := 0 }).emit (.spdmAnswer port [])) := by
  have opened : s.ports[port].session.isNone = false := by rw [← Option.not_isSome, session]; rfl
  refine next_of_eq ((if_neg (by simp [there])).trans
    ((if_neg (by simp [-Fin.getElem_fin, State.vf, opened, own, locked])).trans ?_))
  rw [State.vf, bound]
  exact if_neg (by simp [-Fin.getElem_fin, fresh, sealed_])

theorem exec_startInterface_starts {s : State} {port : PortId} {v : VfId} {p : PanelId} (there : s.vfThere port v = true)
    (session : s.ports[port].session.isSome = true) (own : s.ports[port].vfs[v].lockSession = s.ports[port].session)
    (locked : s.ports[port].vfs[v].tdi = 1) (bound : s.ports[port].vfs[v].bound = some p)
    (key : s.pnl.panels[p].authKey.isSome = true) (filled : s.pnl.panels[p].fill = false) (waits : s.pnl.panels[p].state = 2) :
    exec (.startInterface port v) s = .next ((((s.modVf port v fun y => { y with tdi := 2 }).modPanel p fun y =>
      { y with state := 3 }).emit (.spdmAnswer port [])).fetchVf port v) := by
  have opened : s.ports[port].session.isNone = false := by rw [← Option.not_isSome, session]; rfl
  refine next_of_eq ((if_neg (by simp [there])).trans
    ((if_neg (by simp [-Fin.getElem_fin, State.vf, opened, own, locked, bound, key, filled])).trans ?_))
  dsimp only
  rw [State.vf, bound]
  dsimp only
  rw [if_pos waits]

theorem exec_startInterface_closed {s : State} {port : PortId} {v : VfId} (there : s.vfThere port v = true)
    (session : s.ports[port].session = none) : exec (.startInterface port v) s = .next (s.emit (.spdmError port)) :=
  next_of_eq ((if_neg (by simp [there])).trans (if_pos (by simp [-Fin.getElem_fin, session])))

/-- R293, R294: the acts of a reset upon a VF that is bound. -/
theorem State.quiesce_bound {s : State} {port : PortId} {v : VfId} {p : PanelId} (bound : s.ports[port].vfs[v].bound = some p) :
    s.quiesce port v = (s.quiesceVf port v).stopRing p := by
  unfold State.quiesce
  dsimp only [State.vf]
  rw [bound]

/-- R293, R320: a locked or running interface of a sealed panel that awaits admission or is live. -/
theorem tdiError_sealed {s : State} {port : PortId} {v : VfId} {p : PanelId} (there : s.vfThere port v = true)
    (locked : s.ports[port].vfs[v].tdi = 1 ∨ s.ports[port].vfs[v].tdi = 2) (bound : s.ports[port].vfs[v].bound = some p)
    (sealed_ : s.pnl.panels[p].sealed_ = true) (live : s.pnl.panels[p].state = 2 ∨ s.pnl.panels[p].state = 3) :
    s.tdiError port v = (((s.quiesceVf port v).stopRing p).modVf port v fun y => { y with tdi := 3 }).modPanel p
      fun z => { z with state := 4 } := by
  unfold State.tdiError
  dsimp only [State.vf]
  rw [if_neg (by rcases locked with one | two <;> simp [-Fin.getElem_fin, *]), bound, State.quiesce_bound bound]
  exact if_pos (by simpa [-Fin.getElem_fin, sealed_] using live)

theorem exec_stopInterface_bound {s : State} {port : PortId} {v : VfId} {p : PanelId} (there : s.vfThere port v = true)
    (bound : s.ports[port].vfs[v].bound = some p) :
    exec (.stopInterface port v) s = .next ((s.modVf port v fun y => { y with tdi := 0, lockSession := none }).enterDust p) := by
  refine next_of_eq ((if_neg (by simp [there])).trans ?_)
  rw [State.vf, bound]

/-- Settles O25, by what each of these commands comes to. -/
theorem hostSecurity : Obligations.HostSecurity := by
  unfold Obligations.HostSecurity
  refine ⟨?ideKm, ?answered, ?session, ?refused, ?lock, ?key, ?start, ?closed, ?error, ?stop⟩
  case ideKm =>
    intro s port k key up session
    have opened : s.ports[port].session.isNone = false := by rw [← Option.not_isSome, session]; rfl
    refine ⟨_, next_of_eq (if_neg (by simp [-Fin.getElem_fin, up, opened])), ?_⟩
    rw [State.modPort_self]
  case answered =>
    intro s port req bs up booted reply
    exact ⟨_, exec_spdmRequest_answered up booted reply, rfl⟩
  case session =>
    intro s port id key up booted
    refine ⟨_, exec_spdmRequest_answered (bs := []) up booted rfl, ?_, rfl⟩
    rw [State.emit_ports, State.spdmServed, State.modPort_self]
  case refused =>
    intro s port req up booted reply
    exact ⟨_, exec_spdmRequest_refused up booted reply, rfl⟩
  case lock =>
    intro s port v there session free bound steady kept
    refine ⟨_, exec_lockInterface_locks there session free bound steady kept, ?_, rfl⟩
    rw [State.emit_ports, State.modVf_self]
  case key =>
    intro s port v key p there session own locked bound fresh sealed_
    refine ⟨_, exec_panelKeySet_sets there session own locked bound fresh sealed_, ?_, rfl⟩
    rw [State.emit_pnl, State.modPanel_self]
  case start =>
    intro s port v p there session own locked bound key filled waits
    refine ⟨_, exec_startInterface_starts there session own locked bound key filled waits, fetchVf_keep _ port v p 3 ?_ ?_⟩
    · rw [State.emit_ports, State.modPanel_ports, State.modVf_self]
    · rw [State.emit_pnl, State.modPanel_self]
  case closed =>
    intro s port v there session
    exact ⟨_, exec_startInterface_closed there session, rfl⟩
  case error =>
    intro s port v e p booted there locked bound sealed_ live
    refine ⟨_, next_of_eq ((byConfig_open s port _ (vfThere_l0 there) booted).trans (tdiError_sealed there locked bound sealed_ live)), ?_⟩
    rw [State.modPanel_ports, State.modVf_self, State.modPanel_self, State.modVf_pnl, State.stopRing, State.modPanel_self]
    exact ⟨rfl, rfl, rfl⟩
  case stop =>
    intro s port v p there bound live
    have interface := enterDust_vf (s.modVf port v fun y => { y with tdi := 0, lockSession := none }) p port v
    rw [State.modVf_self] at interface
    have unlocked := congrArg VfState.tdi interface
    have closed := congrArg VfState.lockSession interface
    have dust := enterDust_panel (s.modVf port v fun y => { y with tdi := 0, lockSession := none }) p
      (by rw [State.modVf_pnl, live]; decide) (by rw [State.modVf_pnl, live]; decide)
    simp only [vfKey] at unlocked closed
    exact ⟨_, exec_stopInterface_bound there bound, unlocked, closed, dust⟩

end Sys2Proof.Machine
end

section
/-!
PROOFS. R282, R283, R296: doorbells, and the enabling and disabling of queues.
-/

namespace Sys2Proof.Machine

theorem State.modQueue_self (s : State) (port : PortId) (v : VfId) (q : QueueId) (f : QueueState → QueueState) :
    (s.modQueue port v q f).ports[port].vfs[v].queues[q] = f s.ports[port].vfs[v].queues[q] :=
  modQ_queue s port v q f

/-- A queue keeps all but the entries that it has read ahead while it fetches. -/
theorem fetchAhead_queue (s : State) (port : PortId) (v : VfId) (q : QueueId) :
    qKey (s.fetchAhead ⟨port, v, q⟩).ports[port].vfs[v].queues[q] = qKey s.ports[port].vfs[v].queues[q] :=
  qk_get (qk_fetchAhead s ⟨port, v, q⟩) port v q

/-- What two queues share that differ in what they have read ahead. -/
theorem queue_of_qKey {x y : QueueState} (e : qKey x = qKey y) :
    x.sqTail = y.sqTail ∧ x.sqHead = y.sqHead ∧ x.taken = y.taken ∧ x.expected = y.expected ∧ x.comps = y.comps ∧
      x.rejects = y.rejects ∧ x.dups = y.dups := by
  have fields := fun (α : Type) (g : QueueState → α) => congrArg g e
  exact ⟨fields _ (·.sqTail), fields _ (·.sqHead), fields _ (·.taken), fields _ (·.expected), fields _ (·.comps), fields _ (·.rejects),
    fields _ (·.dups)⟩

theorem sqTailWrite_within {s : State} {port : PortId} {v : VfId} {q : QueueId} {x : Word}
    (within : (x.setWidth 12 : BitVec 12).toNat < s.ports[port].vfs[v].queues[q].sqSize) :
    s.sqTailWrite port v q x = (s.modQ ⟨port, v, q⟩ fun y => { y with sqTail := x.setWidth 12 }).fetchAhead ⟨port, v, q⟩ :=
  if_neg (Nat.not_le.mpr within)

theorem queueDisable_stops {s : State} {port : PortId} {v : VfId} {q : QueueId} {x : Word} (on : s.ports[port].vfs[v].queues[q].enable = true)
    (off : bit x 31 = false) (free : s.ports[port].vfs[v].queues[q].taken = none) :
    s.queueDisable port v q x = s.modQ ⟨port, v, q⟩ fun y => { y with enable := false, ahead := [], stopping := y.taken.isSome } :=
  (if_neg (by simp [off])).trans ((if_neg (by simp [-Fin.getElem_fin, State.queue, on])).trans
    (if_neg (by simp [-Fin.getElem_fin, State.taken, State.queue, free])))

theorem queueDisable_configures {s : State} {port : PortId} {v : VfId} {q : QueueId} {x : Word}
    (on : s.ports[port].vfs[v].queues[q].enable = false) (off : bit x 31 = false) :
    s.queueDisable port v q x = s.modQ ⟨port, v, q⟩ fun y => y.configure x :=
  (if_neg (by simp [off])).trans (if_pos (by simp [-Fin.getElem_fin, State.queue, on]))

/-- Settles O26, by what each of these commands comes to. -/
theorem hostQueues : Obligations.HostQueues := by
  unfold Obligations.HostQueues
  refine ⟨?tail, ?beyond, ?head, ?enable, ?enabled, ?disable, ?configure⟩
  case tail =>
    intro s port v q x live kept bound within
    refine ⟨_, next_of_eq ((pageWrite_live s port v _ live kept bound).trans (sqTailWrite_within within)), ?_⟩
    obtain ⟨tail, head, taken, -⟩ := queue_of_qKey
      (fetchAhead_queue (s.modQ ⟨port, v, q⟩ fun y => { y with sqTail := x.setWidth 12 }) port v q)
    rw [tail, head, taken, modQ_queue]
    exact ⟨rfl, rfl, rfl⟩
  case beyond =>
    intro s port v q x live kept bound beyond room
    exact ⟨_, next_of_eq ((pageWrite_live s port v _ live kept bound).trans (if_pos beyond)), s.noteHost_ports port 0,
      (noteHost_flog s port 0 room).1⟩
  case head =>
    intro s port v q x live kept bound within
    exact ⟨_, next_of_eq ((pageWrite_live s port v _ live kept bound).trans (if_neg (Nat.not_le.mpr within))), modQ_queue s port v q _⟩
  case enable =>
    intro s port v q x live kept bound off on
    refine ⟨_, next_of_eq (pageWrite_live s port v _ live kept bound), ?_⟩
    rw [State.queueEnable, State.modQueue_self, if_neg (by simp [-Fin.getElem_fin, off, on])]
  case enabled =>
    intro s port v q x live kept bound on
    refine ⟨_, next_of_eq (pageWrite_live s port v _ live kept bound), ?_⟩
    rw [State.queueEnable, State.modQueue_self, if_pos (by simp [-Fin.getElem_fin, on])]
  case disable =>
    intro s port v q x live kept bound on off free
    refine ⟨_, next_of_eq ((pageWrite_live s port v _ live kept bound).trans (queueDisable_stops on off free)), ?_⟩
    simp only [modQ_queue, free, Option.isSome_none]
  case configure =>
    intro s port v q x live kept bound on off
    exact ⟨_, next_of_eq ((pageWrite_live s port v _ live kept bound).trans (queueDisable_configures on off)), modQ_queue s port v q _⟩

end Sys2Proof.Machine
end

section
/-!
PROOFS. R283 to R289: taking a command, writing a completion, and reading an entry again.
-/

namespace Sys2Proof.Machine

/-- The queue after the entry at its head has left it. -/
def QueueState.pop (x : QueueState) : QueueState :=
  { x with sqHead := BitVec.ofNat 12 ((x.sqHead.toNat + 1) % x.sqSize), ahead := x.ahead.drop 1 }

/-- The command of the entry at the head, as it is taken. -/
def QueueState.headCmd (x : QueueState) (b : BitVec 1024) (order : Nat) : Taken :=
  { bits := b, sqHead := BitVec.ofNat 12 ((x.sqHead.toNat + 1) % x.sqSize), order := order }

/-- R283: taking the entry at the head, whatever it holds. -/
theorem exec_commandTake_head {s : State} {port : PortId} {v : VfId} {q : QueueId} {e : Ahead} {r : List Ahead}
    (head : e :: r = s.ports[port].vfs[v].queues[q].ahead) (may : s.ports[port].vfs[v].queues[q].mayTake = true)
    (open_ : s.queuesHeld ⟨port, v, q⟩ = false) : ∃ t order, exec (.commandTake port v q) s = .next t ∧
      qKey t.ports[port].vfs[v].queues[q] = qKey (s.ports[port].vfs[v].queues[q].take e.entry (s.vfOpen port v) order) := by
  have taken : ∀ (u : State) order, u.ports = s.ports → qKey ((u.modQ ⟨port, v, q⟩ fun y =>
      y.take e.entry (s.vfOpen port v) order).fetchAhead ⟨port, v, q⟩).ports[port].vfs[v].queues[q] =
        qKey (s.ports[port].vfs[v].queues[q].take e.entry (s.vfOpen port v) order) := by
    intro u order same
    rw [fetchAhead_queue, modQ_queue, same]
  have first : (s.queue ⟨port, v, q⟩).ahead.head? = some e := by rw [State.queue, ← head]; rfl
  cases bound : s.qPanel ⟨port, v, q⟩ with
  | none =>
    refine ⟨_, _, next_of_eq ?_, taken s 0 rfl⟩
    dsimp only
    rw [first]
    refine (if_neg (by simpa [-Fin.getElem_fin, State.queue, open_] using may)).trans ?_
    simp only [bound]
    rfl
  | some p =>
    refine ⟨_, _, next_of_eq ?_, taken (s.modPanel p fun y => { y with nextOrder := y.nextOrder + 1 }) s.pnl.panels[p].nextOrder rfl⟩
    dsimp only
    rw [first]
    refine (if_neg (by simpa [-Fin.getElem_fin, State.queue, open_] using may)).trans ?_
    simp only [bound]
    rfl

theorem mayTake_free {x : QueueState} (may : x.mayTake = true) : x.taken = none := by
  unfold QueueState.mayTake at may
  simp only [Bool.and_eq_true, Option.isNone_iff_eq_none] at may
  exact may.1.2

/-- R285: what a command in sequence comes to. -/
theorem take_inSequence {x : QueueState} {b : BitVec 1024} {free : Bool} {order : Nat} (seq : wordOf b 1 = x.expected)
    (good : commandBad b free = none) :
    x.take (.ready b) free order = { x.pop with
      expected := x.expected + 1, hist := histAdd { seq := wordOf b 1, comp := none } x.hist, taken := some (x.headCmd b order) } := by
  unfold QueueState.take
  dsimp only
  rw [if_pos (by rw [seq, BitVec.sub_self]; rfl), good]
  rfl

theorem take_rejected {x : QueueState} {b : BitVec 1024} {free : Bool} {order : Nat} {st : Byte} (seq : wordOf b 1 = x.expected)
    (bad : commandBad b free = some st) :
    x.take (.ready b) free order = { x.pop with
      expected := x.expected + 1, rejects := satAdd x.rejects 1
      hist := histAdd { seq := wordOf b 1, comp := some { (x.headCmd b order).base with cstatus := st } } x.hist
      comps := x.comps ++ [{ comp := { (x.headCmd b order).base with cstatus := st }, epoch := none }] } := by
  unfold QueueState.take
  dsimp only
  rw [if_pos (by rw [seq, BitVec.sub_self]; rfl), bad]
  rfl

/-- R285: one out of sequence, beyond what the history reaches. -/
theorem take_outOfSequence {x : QueueState} {b : BitVec 1024} {free : Bool} {order : Nat} (past : 256 < (x.expected - wordOf b 1).toNat) :
    x.take (.ready b) free order = { x.pop with
      rejects := satAdd x.rejects 1, comps := x.comps ++ [{ comp := { (x.headCmd b order).base with cstatus := 2 }, epoch := none }] } := by
  unfold QueueState.take
  dsimp only
  rw [if_neg (by omega), if_neg (by omega)]
  rfl

/-- R285: a duplicate of a command whose completion the history holds. -/
theorem take_duplicate {x : QueueState} {b : BitVec 1024} {free : Bool} {order : Nat} {h : HistEntry} {c : Completion}
    (past : 0 < (x.expected - wordOf b 1).toNat ∧ (x.expected - wordOf b 1).toNat ≤ 256)
    (known : (x.hist.find? fun h => decide (h.seq = wordOf b 1)) = some h) (done : h.comp = some c) :
    x.take (.ready b) free order = { x.pop with
      dups := satAdd x.dups 1, comps := placeDup { c with dup := true, sqHead := x.pop.sqHead } x.comps } := by
  obtain ⟨behind, near⟩ := past
  unfold QueueState.take
  dsimp only
  rw [if_neg (by omega), if_pos near, known, Option.bind_some, done]
  rfl

/-- A completion as it is sent: the write that leaves, and the queue after it (R286, R287). -/
def State.compSent (s : State) (port : PortId) (v : VfId) (q : QueueId) (c : PendingComp) (r : List PendingComp) : State :=
  (s.emit (.hostWrite port (some v) (s.ports[port].vfs[v].queues[q].cqBase + BitVec.ofNat 64 (32 * s.ports[port].vfs[v].queues[q].cqTail.toNat))
    (completionBytes q s.ports[port].vfs[v].queues[q].phase c.comp))).modQ ⟨port, v, q⟩ fun y => { y with
      comps := r, cqTail := BitVec.ofNat 12 ((y.cqTail.toNat + 1) % y.cqSize)
      phase := y.phase != decide (s.ports[port].vfs[v].queues[q].cqTail.toNat + 1 = s.ports[port].vfs[v].queues[q].cqSize) }

/-- R281: and the interrupt of the queue. -/
def State.compTold (s : State) (port : PortId) (v : VfId) (x : QueueState) : State :=
  if x.irq then s.raiseMsix port v x.vector else s

theorem exec_completionWrite_sends {s : State} {port : PortId} {v : VfId} {q : QueueId} {c : PendingComp} {r : List PendingComp}
    (waits : s.ports[port].vfs[v].queues[q].comps = c :: r) (released : c.epoch = none) (room : s.ports[port].vfs[v].queues[q].cqFull = false)
    (may : s.maySend ⟨port, v, q⟩ = true) (steady : s.ports[port].vfs[v].resetting = false) :
    exec (.completionWrite port v q) s = .next (
      if c.comp.dup then (s.compSent port v q c r).compTold port v s.ports[port].vfs[v].queues[q]
      else ((s.compSent port v q c r).compTold port v s.ports[port].vfs[v].queues[q]).abortsDone ⟨port, v, q⟩ c.comp.seq) := by
  refine next_of_eq ?_
  dsimp only [State.queue]
  rw [waits]
  exact if_neg (by simp [-Fin.getElem_fin, State.vf, released, room, may, steady])

theorem compSent_queue (s : State) (port : PortId) (v : VfId) (q : QueueId) (c : PendingComp) (r : List PendingComp) :
    (s.compSent port v q c r).ports[port].vfs[v].queues[q].cqTail =
        BitVec.ofNat 12 ((s.ports[port].vfs[v].queues[q].cqTail.toNat + 1) % s.ports[port].vfs[v].queues[q].cqSize) ∧
      (s.compSent port v q c r).ports[port].vfs[v].queues[q].phase = (s.ports[port].vfs[v].queues[q].phase !=
        decide (s.ports[port].vfs[v].queues[q].cqTail.toNat + 1 = s.ports[port].vfs[v].queues[q].cqSize)) := by
  rw [State.compSent, modQ_queue]
  exact ⟨rfl, rfl⟩

theorem raiseMsix_queue (s : State) (port : PortId) (v : VfId) (q : QueueId) (k : BitVec 5) :
    (s.raiseMsix port v k).ports[port].vfs[v].queues[q] = s.ports[port].vfs[v].queues[q] := by
  rw [State.raiseMsix, State.modVf_self]

theorem compTold_queue (s : State) (port : PortId) (v : VfId) (q : QueueId) (x : QueueState) :
    (s.compTold port v x).ports[port].vfs[v].queues[q] = s.ports[port].vfs[v].queues[q] := by
  cases on : x.irq with
  | false => rw [State.compTold, if_neg (by simp [on])]
  | true => rw [State.compTold, if_pos on, raiseMsix_queue]

theorem compTold_out (s : State) (port : PortId) (v : VfId) (x : QueueState) : (s.compTold port v x).out = s.out := by
  unfold State.compTold
  split
  next => rfl
  next => rfl

theorem abortsDone_sent (s : State) (q : QRef) (seq : Word) : s.out <:+ (s.abortsDone q seq).out := by
  have _ : Fact True := ⟨trivial⟩
  exact (State.abortsDone_leads (P := fun _ => True) (.same s _) q seq).sent

/-- R289: an entry whose read failed, and is not in flight. -/
theorem exec_commandReadRetry_reads {s : State} {port : PortId} {v : VfId} {q : QueueId} {y : Ahead}
    (ahead : s.ports[port].vfs[v].queues[q].ahead = [y]) (failed : y.entry = .reading 1) (idle : s.entryInFlight ⟨port, v, q⟩ y.index = false)
    (open_ : s.queuesHeld ⟨port, v, q⟩ = false) (may : s.maySend ⟨port, v, q⟩ = true) (room : s.mayRead port = true) :
    exec (.commandReadRetry port v q) s = .next (s.readEntry ⟨port, v, q⟩ y.index) := by
  refine next_of_eq ?_
  dsimp only [State.queue]
  rw [ahead, List.find?_cons_of_pos (by rw [failed, idle]; rfl)]
  exact if_neg (by simp [open_, may, room])

/-- Settles O27, by what each of these commands comes to. -/
theorem queueCommands : Obligations.QueueCommands := by
  unfold Obligations.QueueCommands
  refine ⟨?accepted, ?rejected, ?early, ?duplicate, ?completes, ?retries⟩
  case accepted =>
    intro s port v q e r b head may open_ ready seq good
    obtain ⟨t, order, whole, queue⟩ := exec_commandTake_head head may open_
    rw [ready, take_inSequence seq good] at queue
    obtain ⟨-, sqHead, taken, expected, comps, -⟩ := queue_of_qKey queue
    exact ⟨t, whole, by rw [taken]; rfl, sqHead, expected, comps⟩
  case rejected =>
    intro s port v q e r b st head may open_ ready seq bad
    have free := mayTake_free may
    obtain ⟨t, order, whole, queue⟩ := exec_commandTake_head head may open_
    rw [ready, take_rejected seq bad] at queue
    obtain ⟨-, sqHead, taken, expected, comps, rejects, -⟩ := queue_of_qKey queue
    exact ⟨t, whole, taken.trans free, sqHead, expected, rejects, by rw [comps, List.map_append]; rfl⟩
  case early =>
    intro s port v q e r b head may open_ ready past
    have free := mayTake_free may
    obtain ⟨t, order, whole, queue⟩ := exec_commandTake_head head may open_
    rw [ready, take_outOfSequence past] at queue
    obtain ⟨-, sqHead, taken, expected, comps, rejects, -⟩ := queue_of_qKey queue
    exact ⟨t, whole, taken.trans free, sqHead, expected, rejects, by rw [comps, List.map_append]; rfl⟩
  case duplicate =>
    intro s port v q e r b h c head may open_ ready past known done none_
    have free := mayTake_free may
    obtain ⟨t, order, whole, queue⟩ := exec_commandTake_head head may open_
    rw [ready, take_duplicate past known done, none_] at queue
    obtain ⟨-, -, taken, expected, comps, -, dups⟩ := queue_of_qKey queue
    exact ⟨t, whole, taken.trans free, expected, dups, comps⟩
  case completes =>
    intro s port v q c r waits released room may steady
    obtain ⟨tail, phase⟩ := compSent_queue s port v q c r
    have queue := compTold_queue (s.compSent port v q c r) port v q s.ports[port].vfs[v].queues[q]
    have out := compTold_out (s.compSent port v q c r) port v s.ports[port].vfs[v].queues[q]
    refine ⟨_, exec_completionWrite_sends waits released room may steady, ?_⟩
    split
    next => exact ⟨⟨[], out⟩, by rw [queue]; exact tail, by rw [queue]; exact phase⟩
    next =>
      obtain ⟨l, sent⟩ := abortsDone_sent ((s.compSent port v q c r).compTold port v s.ports[port].vfs[v].queues[q]) ⟨port, v, q⟩ c.comp.seq
      have ring := abortsDone_ring ((s.compSent port v q c r).compTold port v s.ports[port].vfs[v].queues[q]) ⟨port, v, q⟩ c.comp.seq port v q
      have tail' := congrArg Prod.fst ring
      have phase' := congrArg Prod.snd ring
      dsimp only at tail' phase'
      rw [tail', phase', queue]
      exact ⟨⟨l, by rw [← sent, out]; rfl⟩, tail, phase⟩
  case retries =>
    intro s port v q y ahead failed idle open_ may room
    refine ⟨_, exec_commandReadRetry_reads ahead failed idle open_ may room, rfl, ?_⟩
    rw [State.readEntry, State.issueRead, State.modPort_self]
    rfl

end Sys2Proof.Machine
end

section
/-!
PROOFS. R94 to R99, R285, R288: operator invocations, ABORT and NOP.
-/

namespace Sys2Proof.Machine

/-- R94: the states of an invocation whose descriptor and schedule table read well, as it begins to wait. -/
theorem invoke_waits {s s₁ s₂ : State} {q : QRef} {p : PanelId} {x : Taken} {bs : List Byte} {d : BitVec 1024} {rs : List StartOut} {ns : List Nat}
    (aligned : (BitVec.ofNat 55 (fld x.bits.toNat 128 55) : BitVec 55).toNat % 128 = 0 ∧ fld x.bits.toNat 192 55 % 64 = 0)
    (free : s.plainBusy (s.startEng q.port p (asFin 16 (fld x.bits.toNat 19 4))) .read (coverVas (BitVec.ofNat 55 (fld x.bits.toNat 128 55)) 128) = false)
    (read : s.startRead (s.startEng q.port p (asFin 16 (fld x.bits.toNat 19 4))) p (BitVec.ofNat 55 (fld x.bits.toNat 128 55)) 128 = (.bytes bs, s₁))
    (desc : d = BitVec.ofNat 1024 (natOf bs)) (good : s₁.opdescStatus p d = none)
    (free₁ : s₁.plainBusy (s.startEng q.port p (asFin 16 (fld x.bits.toNat 19 4))) .read
      (coverVas (BitVec.ofNat 55 (fld d.toNat 160 55)) (16 * (maskArrays d).length)) = false)
    (entries : s₁.readEntries (s.startEng q.port p (asFin 16 (fld x.bits.toNat 19 4))) p
      ((List.range (maskArrays d).length).map fun i => BitVec.ofNat 55 (fld d.toNat 160 55) + BitVec.ofNat 55 (16 * i)) = (rs, s₂))
    (numbers : entriesOut rs = .ok ns) :
    s.invoke q p x = s₂.modTaken q fun y => { y with
      phase := .waiting, arrays := maskArrays d, siteMask := BitVec.ofNat 8 (fld d.toNat 8 8)
      tint := if bit x.bits 23 then asFin 16 (fld x.bits.toNat 19 4) else asFin 16 (fld d.toNat 0 4)
      entries := ns.map (BitVec.ofNat 55) } := by
  subst desc
  unfold State.invoke
  dsimp only
  rw [if_neg (by omega), if_neg (by simp [free]), read]
  dsimp only
  rw [good]
  dsimp only
  rw [if_neg (by rw [List.length_map, List.length_range, free₁]; decide), entries]
  dsimp only
  rw [numbers]

theorem exec_invoke_taken {s : State} {port : PortId} {v : VfId} {q : QueueId} {x : Taken} {p : PanelId}
    (fresh : s.fresh ⟨port, v, q⟩ opInvoke = some x) (panel : s.qPanel ⟨port, v, q⟩ = some p) (open_ : s.queuesHeld ⟨port, v, q⟩ = false) :
    exec (.invoke port v q) s = .next (s.invoke ⟨port, v, q⟩ p x) := by
  refine next_of_eq ?_
  dsimp only
  rw [fresh, panel]
  exact if_neg (by simp [open_])

/-- What a command that is finished leaves in its queue, when its completion is wanted. -/
theorem finishCmd_completes {s : State} {port : PortId} {v : VfId} {q : QueueId} {x : Taken} (taken : s.taken ⟨port, v, q⟩ = some x)
    (wanted : x.noCompletion = false) (c : Completion) (e : Option Nat) :
    (s.finishCmd ⟨port, v, q⟩ c e).ports[port].vfs[v].queues[q].taken = none ∧
      (s.finishCmd ⟨port, v, q⟩ c e).ports[port].vfs[v].queues[q].comps = s.ports[port].vfs[v].queues[q].comps ++ [⟨c, e⟩] := by
  obtain ⟨none_, comps⟩ := finishCmd_queue s port v q c e
  refine ⟨none_, comps.trans (if_neg ?_)⟩
  rw [taken]
  simp [wanted]

/-- R96: an invocation of one array that is free, in service and waited for by none before it. -/
theorem exec_invocationStart_one {s : State} {port : PortId} {v : VfId} {q : QueueId} {x : Taken} {p : PanelId} {n : Fin 40} {a : ArrayId}
    {pc : BitVec 55} (taken : s.taken ⟨port, v, q⟩ = some x) (panel : s.qPanel ⟨port, v, q⟩ = some p) (op : cmdOp x.bits = opInvoke)
    (phase : x.phase = .waiting) (open_ : s.queuesHeld ⟨port, v, q⟩ = false) (kept : s.inDust p = false) (arrays : x.arrays = [n])
    (entries : x.entries = [pc]) (array : s.arrayOf p n.val = some a) (free : s.arrays[a].seq.inv = none) (st : s.arrays[a].st = 0)
    (first : s.earlierWaits ⟨port, v, q⟩ x = false) (sites : x.siteMask &&& s.pnl.panels[p].slotHold = 0) :
    exec (.invocationStart port v q) s = .next ((s.startArray ⟨port, v, q⟩ (BitVec.ofNat 55 (fld x.bits.toNat 192 55)) (a, pc)).modTaken
      ⟨port, v, q⟩ fun y => { y with phase := .running, started := some s.sclk, timerOn := true }) := by
  have found : (x.arrays.filterMap fun n => s.arrayOf p n.val) = [a] := by simp [arrays, array]
  refine next_of_eq ?_
  dsimp only
  rw [taken, panel]
  refine (if_neg (by simp [op, phase, open_, kept])).trans ?_
  rw [found, arrays, entries]
  exact (if_neg (by simp)).trans (if_neg (by simp [-Fin.getElem_fin, free, st, first, sites]))

/-- What an array is as it starts on an invocation (R97). -/
theorem startArray_seq (s : State) (q : QRef) (args : BitVec 55) (a : ArrayId) (pc : BitVec 55) :
    (s.startArray q args (a, pc)).arrays[a].seq = s.arrays[a].seq.begin q args pc := by
  simp only [State.startArray, State.modCube_arrays, State.modSeq_arrays, vmod_self, State.dropControl, State.modCoh_arrays]

/-- Freeing the arrays of an invocation leaves the rest of the package. -/
theorem freeArrays_rest (l : List ArrayId) (s : State) :
    ((l.foldl (fun x a => x.modSeq a SeqState.free) s).ports, (l.foldl (fun x a => x.modSeq a SeqState.free) s).pnl,
      (l.foldl (fun x a => x.modSeq a SeqState.free) s).sclk) = (s.ports, s.pnl, s.sclk) :=
  foldl_keep (fun u => (u.ports, u.pnl, u.sclk)) (fun x a => x.modSeq a SeqState.free) (fun _ _ => rfl) l s

theorem closeEpoch_plain {s : State} {p : PanelId} (single : s.pnl.panels[p].twin = none) : s.closeEpoch p = (none, s) := by
  unfold State.closeEpoch
  rw [single]

/-- R97, R286: an invocation that has started, of a panel without a twin. -/
theorem finishInv_started {s : State} {q : QRef} {x : Taken} {p : PanelId} {n : Nat} (status : Byte) (taken : s.taken q = some x)
    (panel : s.qPanel q = some p) (single : s.pnl.panels[p].twin = none) (started : x.started = some n) :
    s.finishInv q status = s.finishCmd q { x.base with
      istatus := status, poisonCommits := x.poisonCommits, elapsed := elapsedUs n s.sclk
      faultCode := if status = 1 then x.faultCode else 0, faultArray := if status = 1 then x.faultArray else 0 } none := by
  unfold State.finishInv
  rw [taken]
  dsimp only
  rw [started, panel]
  dsimp only
  rw [closeEpoch_plain single]
  rfl

theorem exec_invocationComplete_over {s : State} {port : PortId} {v : VfId} {q : QueueId} {x : Taken} (taken : s.taken ⟨port, v, q⟩ = some x)
    (phase : x.phase = .running ∨ x.phase = .ending)
    (finished : ((s.invArrays ⟨port, v, q⟩).any fun a => !s.arrayOver x a || s.arrayWrites a) = false)
    (settled : x.former.any s.arrayWrites = false) :
    exec (.invocationComplete port v q) s = .next (((s.invArrays ⟨port, v, q⟩).foldl (fun x a => x.modSeq a SeqState.free) s).finishInv
      ⟨port, v, q⟩ (x.status.getD 0)) := by
  refine next_of_eq ?_
  dsimp only
  rw [taken]
  refine if_neg ?_
  rintro (other | busy | owed)
  · exact absurd phase (by simpa using other)
  · exact absurd busy (by rw [finished]; decide)
  · exact absurd owed (by rw [settled]; decide)

/-- The end of one invocation leaves what the other queues have taken, their arrays' requests aside. -/
theorem endInv_taken_other {s : State} {q r : QRef} (status code : Byte) (a : Option ArrayId) (other : r ≠ q) :
    (s.endInv q status code a).taken r = s.taken r := by
  unfold State.endInv
  split
  next => rfl
  next =>
    split
    next => rfl
    next =>
      refine (foldl_keep (fun u : State => u.taken r) _ (fun t b => ?_) _ _).trans (modTaken_other s r q _ other)
      split
      next => rfl
      next =>
        split
        next => rfl
        next => exact haltArray_taken t b .other r

/-- R288: the state in which an ABORT whose target is found waits for it. -/
def State.abortWaits (s : State) (q : QRef) : State := s.modTaken q fun y => { y with phase := .waiting }

theorem exec_abort_found {s : State} {port : PortId} {v : VfId} {q k : QueueId} {x y : Taken} {n : Nat}
    (fresh : s.fresh ⟨port, v, q⟩ opAbort = some x) (target : k = asFin 16 (fld x.bits.toNat 288 4)) (other : k ≠ q)
    (taken : s.taken ⟨port, v, k⟩ = some y) (op : cmdOp y.bits = opInvoke) (seq : wordOf y.bits 1 = wordOf x.bits 10)
    (started : y.started = some n) :
    exec (.abort port v q) s = .next ((s.abortWaits ⟨port, v, q⟩).endInv ⟨port, v, k⟩ 6 0 none) := by
  have kept : (s.abortWaits ⟨port, v, q⟩).taken ⟨port, v, k⟩ = some y :=
    (modTaken_other s ⟨port, v, k⟩ ⟨port, v, q⟩ _ (by simp [other])).trans taken
  subst target
  refine next_of_eq ?_
  dsimp only
  rw [fresh]
  dsimp only
  refine (if_pos (by rw [taken]; simp [op, seq])).trans ?_
  refine (show _ = (s.abortWaits ⟨port, v, q⟩).abortInv _ from rfl).trans ?_
  rw [State.abortInv, kept]
  exact if_pos (by simp [started])

theorem exec_abort_missing {s : State} {port : PortId} {v : VfId} {q : QueueId} {x : Taken} (fresh : s.fresh ⟨port, v, q⟩ opAbort = some x)
    (missing : (s.taken ⟨port, v, asFin 16 (fld x.bits.toNat 288 4)⟩).all
      (fun y => decide (cmdOp y.bits ≠ opInvoke) || decide (wordOf y.bits 1 ≠ wordOf x.bits 10)) = true) :
    exec (.abort port v q) s = .next (s.finishCmd ⟨port, v, q⟩ { x.base with cstatus := 6 } none) := by
  refine next_of_eq ?_
  dsimp only
  rw [fresh]
  refine if_neg ?_
  cases target : s.taken ⟨port, v, asFin 16 (fld x.bits.toNat 288 4)⟩ with
  | none => simp
  | some y =>
    rw [target] at missing
    simpa [or_iff_not_imp_left] using missing

theorem exec_nopCommand {s : State} {port : PortId} {v : VfId} {q : QueueId} {x : Taken} (fresh : s.fresh ⟨port, v, q⟩ opNopCmd = some x) :
    exec (.nopCommand port v q) s = .next (s.finishCmd ⟨port, v, q⟩ x.base none) := by
  refine next_of_eq ?_
  dsimp only
  rw [fresh]

/-- R79, R99: the sequencer after an increment that fits, of an array that does not wait. -/
theorem addSem_seq {s : State} {a : ArrayId} {sem : Fin 64} {inc : Byte} (busy : s.arrays[a].seq.state ≠ seqWaiting)
    (fits : s.arrays[a].seq.sems[sem].toNat + inc.toNat ≤ 65535) :
    (s.addSem a sem inc).arrays[a].seq = { s.arrays[a].seq with
      sems := vset s.arrays[a].seq.sems sem (BitVec.ofNat 16 (s.arrays[a].seq.sems[sem].toNat + inc.toNat)) } := by
  unfold State.addSem
  dsimp only
  rw [if_neg (by omega), Nat.min_eq_left fits, evalWaits_idle _ _ (by simpa [-Fin.getElem_fin] using busy)]
  simp only [State.modSeq_arrays, vmod_self]

/-- Settles O28, by what each of these commands comes to. -/
theorem invocations : Obligations.Invocations := by
  unfold Obligations.Invocations
  refine ⟨?waits, ?misaligned, ?starts, ?completes, ?timesOut, ?aborts, ?missing, ?nop, ?signal⟩
  case waits =>
    intro s s₁ s₂ port v q x p e a tb bs d rs ns fresh panel open_ addr eng aligned free read desc good table free₁ entries numbers taken
    subst addr eng table
    refine ⟨_, (exec_invoke_taken fresh panel open_).trans (next_of_eq
      (invoke_waits aligned free read desc good free₁ entries numbers)), ?_⟩
    rw [modTaken_self, taken]
    rfl
  case misaligned =>
    intro s port v q x p fresh panel open_ uneven unstarted wanted
    obtain ⟨taken, -, -⟩ := fresh_some fresh
    have first : (BitVec.ofNat 55 (fld x.bits.toNat 128 55) : BitVec 55).toNat % 128 ≠ 0 ∨ fld x.bits.toNat 192 55 % 64 ≠ 0 := by
      rwa [BitVec.toNat_ofNat, Nat.mod_mod_of_dvd _ (by decide : (128 : Nat) ∣ 2 ^ 55)]
    exact ⟨_, (exec_invoke_taken fresh panel open_).trans (next_of_eq ((if_pos first).trans (finishInv_plain s _ 7 x taken unstarted))),
      finishCmd_completes taken wanted _ none⟩
  case starts =>
    intro s port v q x p n a pc taken panel op phase open_ kept arrays entries array free st first sites
    refine ⟨_, exec_invocationStart_one taken panel op phase open_ kept arrays entries array free st first sites, ?_, ?_⟩
    · rw [modTaken_self]
      exact congrArg _ taken
    · have seq := startArray_seq s ⟨port, v, q⟩ (BitVec.ofNat 55 (fld x.bits.toNat 192 55)) a pc
      rw [State.modTaken_arrays, seq]
      exact ⟨rfl, rfl, rfl, rfl, rfl⟩
  case completes =>
    intro s port v q x p n taken panel single phase started wanted finished settled
    have rest := freeArrays_rest (s.invArrays ⟨port, v, q⟩) s
    simp only [Prod.mk.injEq] at rest
    obtain ⟨ports, pnl, sclk⟩ := rest
    have taken' : ((s.invArrays ⟨port, v, q⟩).foldl (fun x a => x.modSeq a SeqState.free) s).taken ⟨port, v, q⟩ = some x := by
      rw [State.taken, State.queue, ports]
      exact taken
    have panel' : ((s.invArrays ⟨port, v, q⟩).foldl (fun x a => x.modSeq a SeqState.free) s).qPanel ⟨port, v, q⟩ = some p := by
      rw [State.qPanel, ports]
      exact panel
    have whole := finishInv_started (x.status.getD 0) taken' panel' (by rw [pnl]; exact single) started
    obtain ⟨none_, comps⟩ := finishCmd_completes taken' wanted { x.base with
      istatus := x.status.getD 0, poisonCommits := x.poisonCommits, elapsed := elapsedUs n s.sclk
      faultCode := if x.status.getD 0 = 1 then x.faultCode else 0, faultArray := if x.status.getD 0 = 1 then x.faultArray else 0 } none
    rw [sclk] at whole
    refine ⟨_, (exec_invocationComplete_over taken phase finished settled).trans (next_of_eq whole), none_, fun a member => ?_, ?_⟩
    · rw [finishCmd_arrays]
      exact free_all _ s a (.inl member)
    · rw [comps, ports]
  case timesOut =>
    intro s port v q x taken phase timer unset
    refine ⟨_, next_of_eq ?_, endInv_status s ⟨port, v, q⟩ 5 0 none x taken unset⟩
    dsimp only
    rw [taken]
    exact if_pos ⟨phase, timer⟩
  case aborts =>
    intro s port v q x y k n fresh target other taken op seq started unset
    obtain ⟨own, -, -⟩ := fresh_some fresh
    have kept : (s.abortWaits ⟨port, v, q⟩).taken ⟨port, v, k⟩ = some y :=
      (modTaken_other s ⟨port, v, k⟩ ⟨port, v, q⟩ _ (by simp [other])).trans taken
    have ended := congrArg (Option.map Prod.fst) (endInv_status (s.abortWaits ⟨port, v, q⟩) ⟨port, v, k⟩ 6 0 none y kept unset)
    refine ⟨_, exec_abort_found fresh target other taken op seq started, ?_, ?_⟩
    · rw [Option.map_map] at ended
      exact ended
    · rw [endInv_taken_other 6 0 none (by simp [Ne.symm other]), State.abortWaits, modTaken_self, own]
      rfl
  case missing =>
    intro s port v q x fresh missing wanted
    exact ⟨_, exec_abort_missing fresh missing, finishCmd_completes (fresh_some fresh).1 wanted _ none⟩
  case nop =>
    intro s port v q x fresh wanted
    exact ⟨_, exec_nopCommand fresh, finishCmd_completes (fresh_some fresh).1 wanted _ none⟩
  case signal =>
    intro s n tag m sem inc b a binding array busy fits
    refine ⟨_, next_of_eq ?_, addSem_seq busy fits⟩
    rw [binding, Option.bind_some, array]

end Sys2Proof.Machine
end

section
/-!
PROOFS. R171 to R178: the fault ring and FAULT_RESUME.
-/

namespace Sys2Proof.Machine

/-- R172: the record of a cube tile that stalls reaches the ring writer of its panel. -/
theorem stallOp_arrivals (s : State) (a : ArrayId) (p : PanelId) (o : CubeOp) (i part : Nat) (f : VaFault) (midtile : Bool) :
    (s.stallOp a p o i part f midtile).pnl.panels[p].ring.arrivals = s.pnl.panels[p].ring.arrivals ++
      [s.faultInfo (s.arrayKey a 0 (BitVec.ofNat 13 part)) f.fault f.access f.va s.arrays[a].seq.stepId midtile true] := by
  have step : (s.modCube a fun x => x.rewind o.serial (o.tileOf i)).arrays[a].seq.stepId = s.arrays[a].seq.stepId := by
    simp only [State.modCube_arrays, vmod_self]
  unfold State.stallOp State.stall State.arrive
  rw [State.wdStop, State.modSeq_pnl, State.modPanel_self, step]
  rfl

theorem exec_midtileFault_faults {s s₁ : State} {a : ArrayId} {va w : BitVec 55} {p : PanelId} {o : CubeOp} {i : Nat} {x : Part} {f : TransFault}
    (panel : s.arrays[a].panel = some p) (op : (s.arrays[a].cube.ops.find? fun o => decide (o.drained < o.started)) = some o)
    (part : ((List.range (o.parts (s.arrays[a].cube.shape o.word) o.drained).length).zip (o.parts (s.arrays[a].cube.shape o.word) o.drained)).find?
      (fun y => y.2.vas.any fun w => decide (w.toNat / 65536 = va.toNat / 65536)) = some (i, x))
    (first : (x.vas.find? fun w => decide (w.toNat / 65536 = va.toNat / 65536)) = some w)
    (fault : s.translate (s.arrayAgent a 0) (.array a) p (s.tintOf a) w x.access = (.error f, s₁)) :
    exec (.midtileFault a va) s = .next (s₁.stallOp a p o o.drained i { fault := f, va := w, access := x.access } true) := by
  refine next_of_eq ?_
  dsimp only
  rw [panel, op]
  dsimp only
  rw [part]
  dsimp only
  rw [first, Option.getD_some, fault]

/-- The TOKEN that the next engine to stall gets (R172). -/
def RingWriter.token (r : RingWriter) : BitVec 16 :=
  nextToken (r.stalled.filterMap (fun x => x.token)) ((r.stalled.filterMap (fun x => x.token)).length + 1) r.lastToken

/-- R173, R174: a record written at the tail of a ring, before its interrupt. -/
def State.recordSent (s : State) (p : PanelId) (port : PortId) (v : VfId) (i : FaultInfo) (token : BitVec 16) : State :=
  ((s.emit (.hostWrite port (some v) (s.ports[port].vfs[v].ringBase +
      BitVec.ofNat 64 (64 * (s.ports[port].vfs[v].tail.toNat % s.ports[port].vfs[v].ringSize)))
      (faultRecord i (decide (s.ports[port].vfs[v].tail.toNat / s.ports[port].vfs[v].ringSize % 2 = 0)) token))).modPanel p fun x =>
    { x with ring := { x.ring with
      lastToken := if i.stalls then token else x.ring.lastToken
      stalled := if i.stalls then x.ring.stalled ++ [{ info := i, token := some token }] else x.ring.stalled } }).modVf port v
    fun z => { z with tail := z.tail + 1, arm := false }

theorem writeRecord_sends (s : State) (p : PanelId) (port : PortId) (v : VfId) (i : FaultInfo) :
    s.writeRecord p port v i =
      if s.ports[port].vfs[v].arm then
        (s.recordSent p port v i (if i.stalls then s.pnl.panels[p].ring.token else 0)).raiseMsix port v s.ports[port].vfs[v].fringVector
      else s.recordSent p port v i (if i.stalls then s.pnl.panels[p].ring.token else 0) := rfl

theorem writeRecord_out (s : State) (p : PanelId) (port : PortId) (v : VfId) (i : FaultInfo) :
    (s.writeRecord p port v i).out = .hostWrite port (some v) (s.ports[port].vfs[v].ringBase +
      BitVec.ofNat 64 (64 * (s.ports[port].vfs[v].tail.toNat % s.ports[port].vfs[v].ringSize)))
      (faultRecord i (decide (s.ports[port].vfs[v].tail.toNat / s.ports[port].vfs[v].ringSize % 2 = 0))
        (if i.stalls then s.pnl.panels[p].ring.token else 0)) :: s.out := by
  rw [writeRecord_sends]
  split
  next => rfl
  next => rfl

theorem writeRecord_page (s : State) (p : PanelId) (port : PortId) (v : VfId) (i : FaultInfo) :
    (s.writeRecord p port v i).ports[port].vfs[v].tail = s.ports[port].vfs[v].tail + 1 ∧
      (s.writeRecord p port v i).ports[port].vfs[v].arm = false := by
  rw [writeRecord_sends]
  cases s.ports[port].vfs[v].arm with
  | true =>
    rw [if_pos rfl, State.raiseMsix, State.modVf_self, State.recordSent, State.modVf_self]
    exact ⟨rfl, rfl⟩
  | false =>
    rw [if_neg (by decide), State.recordSent, State.modVf_self]
    exact ⟨rfl, rfl⟩

theorem writeRecord_ring (s : State) (p : PanelId) (port : PortId) (v : VfId) (i : FaultInfo) :
    (s.writeRecord p port v i).pnl.panels[p].ring = { s.pnl.panels[p].ring with
      lastToken := if i.stalls then (if i.stalls then s.pnl.panels[p].ring.token else 0) else s.pnl.panels[p].ring.lastToken
      stalled := if i.stalls then s.pnl.panels[p].ring.stalled ++
        [{ info := i, token := some (if i.stalls then s.pnl.panels[p].ring.token else 0) }] else s.pnl.panels[p].ring.stalled } := by
  have pnl : (s.writeRecord p port v i).pnl = (s.recordSent p port v i (if i.stalls then s.pnl.panels[p].ring.token else 0)).pnl := by
    rw [writeRecord_sends]
    split
    next => rfl
    next => rfl
  rw [pnl, State.recordSent, State.modVf_pnl, State.modPanel_self]
  rfl

/-- The ring of a panel whose next fault has been taken up. -/
def State.takeArrival (s : State) (p : PanelId) (r : List FaultInfo) : State :=
  s.modPanel p fun x => { x with ring := { x.ring with arrivals := r } }

theorem takeArrival_ring (s : State) (p : PanelId) (r : List FaultInfo) :
    (s.takeArrival p r).pnl.panels[p].ring = { s.pnl.panels[p].ring with arrivals := r } := by
  rw [State.takeArrival, State.modPanel_self]

theorem exec_faultRecordWrite_writes {s : State} {p : PanelId} {port : PortId} {v : VfId} {i : FaultInfo} {r : List FaultInfo}
    (arrived : s.pnl.panels[p].ring.arrivals = i :: r) (open_ : s.pnl.panels[p].ring.stopped = false) (ring : s.ringOf p = some (port, v))
    (sends : s.ringSends port v = true) (on : s.ports[port].vfs[v].fringEnable = true)
    (room : s.ports[port].vfs[v].ringHeld < s.ports[port].vfs[v].ringSize) :
    exec (.faultRecordWrite p) s = .next ((s.takeArrival p r).writeRecord p port v i) := by
  refine next_of_eq ?_
  dsimp only
  rw [arrived]
  dsimp only
  rw [open_, ring]
  dsimp only
  rw [if_neg (by decide), if_pos sends]
  exact (if_neg (by simpa [-Fin.getElem_fin, State.vf] using on)).trans (if_neg (Nat.not_le.mpr room))

/-- The state in which the engine stalled under the one TOKEN of a ring has been let go. -/
def State.unstalled (s : State) (p : PanelId) (token : BitVec 16) : State :=
  s.modPanel p fun x => { x with ring := { x.ring with stalled := x.ring.stalled.filter fun u => u.token ≠ some token } }

/-- R176: a resume of the only engine that is stalled. -/
theorem faultResume_only {s : State} {port : PortId} {v : VfId} {x : Word} {p : PanelId} {i : FaultInfo}
    (bound : s.ports[port].vfs[v].bound = some p) (known : fld x.toNat 16 2 < 2)
    (stalled : s.pnl.panels[p].ring.stalled = [⟨i, some (slice x 15 0)⟩]) :
    s.faultResume port v x =
      if fld x.toNat 16 2 = 1 then
        (s.unstalled p (slice x 15 0)).endStep (asFin 40 i.key.phys.toNat) 0 0x18 (slice x 15 0) (if i.type = 5 then 2 else 1)
      else (s.unstalled p (slice x 15 0)).replayTile p i := by
  unfold State.faultResume
  rw [State.vf, bound]
  dsimp only
  rw [stalled, if_neg (by omega)]
  simp only [List.filterMap_cons, List.filterMap_nil, List.filter_cons, List.filter_nil, decide_true, Bool.or_true, if_true]
  rw [if_neg (by simp)]
  simp only [List.foldl_cons, List.foldl_nil, State.resumeOne, stalled, List.find?_cons, decide_true]
  simp only [decide_eq_true_eq]
  rfl

/-- R87: what a watchdog that may run again leaves of its sequencer. -/
theorem stallOver_seq (s : State) (a : ArrayId) :
    (s.stallOver a).arrays[a].seq.stalled = s.arrays[a].seq.stalled ∧ (s.stallOver a).arrays[a].seq.pc = s.arrays[a].seq.pc ∧
      (s.stallOver a).pnl = s.pnl := by
  have either : s.stallOver a = s ∨ s.stallOver a = s.wdResume a := ite_eq_or_eq _ _ _
  rcases either with same | runs
  · rw [same]
    exact ⟨rfl, rfl, rfl⟩
  · rw [runs, State.wdResume, State.modSeq_arrays, vmod_self]
    exact ⟨rfl, rfl, rfl⟩

/-- R176: the sequencer that a record names goes on. -/
theorem replayTile_sequencer {s : State} {p : PanelId} {i : FaultInfo} (engine : i.key.engine = 3) :
    s.replayTile p i = (s.modSeq (asFin 40 i.key.phys.toNat) fun x => { x with stalled := false }).stallOver (asFin 40 i.key.phys.toNat) := by
  unfold State.replayTile
  dsimp only
  rw [engine, if_neg (by decide), if_neg (by decide), if_neg (by decide)]

theorem unstalled_ring {s : State} {p : PanelId} {i : FaultInfo} {token : BitVec 16}
    (stalled : s.pnl.panels[p].ring.stalled = [⟨i, some token⟩]) : (s.unstalled p token).pnl.panels[p].ring.stalled = [] := by
  rw [State.unstalled, State.modPanel_self, stalled]
  simp

/-- R176: a TOKEN that no engine holds. -/
theorem faultResume_stale {s : State} {port : PortId} {v : VfId} {x : Word} {p : PanelId} (bound : s.ports[port].vfs[v].bound = some p)
    (one : bit x 31 = false) (known : fld x.toNat 16 2 < 2) (stalled : s.pnl.panels[p].ring.stalled = []) :
    s.faultResume port v x = s.modVf port v fun y => { y with stale := satAdd y.stale 1 } := by
  unfold State.faultResume
  rw [State.vf, bound]
  dsimp only
  rw [stalled, if_neg (by omega)]
  exact if_pos ⟨rfl, by simp [one]⟩

theorem configRing_starts {y : VfState} {x : Word} (off : y.fringEnable = false) (on : bit x 31 = true) :
    (y.configRing x).fringEnable = true ∧ (y.configRing x).tail = 0 ∧ (y.configRing x).head = 0 ∧ (y.configRing x).ringBase = y.fringBase ∧
      (y.configRing x).fringVector = slice x 12 8 ∧ (y.configRing x).ringLog = (y.configRing x).fringLog := by
  unfold VfState.configRing
  dsimp only
  rw [if_neg (by simp [off]), if_pos on]
  exact ⟨rfl, rfl, rfl, rfl, rfl, rfl⟩

/-- Settles O29, by what each of these commands comes to. -/
theorem faultRing : Obligations.FaultRing := by
  unfold Obligations.FaultRing
  refine ⟨?midtile, ?record, ?token, ?head, ?enable, ?arm, ?retry, ?abort, ?stale⟩
  case midtile =>
    intro s s₁ a va p o i x w f panel op part first fault
    have arrays : s₁.arrays = s.arrays := arrays_of_answer fault (State.translate_arrays s _ _ p _ w x.access)
    have pnl : s₁.pnl = s.pnl := by
      have kept := State.translate_pnl s (s.arrayAgent a 0) (.array a) p (s.tintOf a) w x.access
      rwa [fault] at kept
    refine ⟨_, exec_midtileFault_faults panel op part first fault, ?_, rfl⟩
    rw [stallOp_arrivals, pnl, State.arrayKey, State.arrayKey, arrays]
  case record =>
    intro s p port v i r arrived open_ ring sends on room flows
    have page := writeRecord_page (s.takeArrival p r) p port v i
    have out := writeRecord_out (s.takeArrival p r) p port v i
    have after := congrArg RingWriter.arrivals (writeRecord_ring (s.takeArrival p r) p port v i)
    rw [flows] at out
    rw [takeArrival_ring] at after
    exact ⟨_, exec_faultRecordWrite_writes arrived open_ ring sends on room, out, page.1, page.2, after⟩
  case token =>
    intro s p port v i r k arrived open_ ring sends on room stalls token
    have out := writeRecord_out (s.takeArrival p r) p port v i
    have after := writeRecord_ring (s.takeArrival p r) p port v i
    have same : (s.takeArrival p r).pnl.panels[p].ring.token = k := by
      rw [takeArrival_ring]
      exact token.symm
    rw [stalls, if_pos rfl, same] at out
    rw [stalls, if_pos rfl, if_pos rfl, if_pos rfl, same, takeArrival_ring] at after
    exact ⟨_, exec_faultRecordWrite_writes arrived open_ ring sends on room, out, congrArg RingWriter.stalled after,
      congrArg RingWriter.lastToken after⟩
  case head =>
    intro s port v x p live kept bound empty within
    refine ⟨_, next_of_eq ((pageWrite_live s port v _ live kept (by rw [bound]; rfl)).trans ((if_neg (Nat.not_lt.mpr within)).trans ?_)),
      State.modVf_self s port v fun z => { z with head := x }⟩
    rw [State.vf, bound]
    exact releaseRecords_none _ p port v empty
  case enable =>
    intro s port v x p live kept bound empty off on
    have whole : s.fringConfig port v x = s.modVf port v fun y => y.configRing x := by
      unfold State.fringConfig
      rw [State.vf, bound]
      exact releaseRecords_none _ p port v empty
    refine ⟨_, next_of_eq ((pageWrite_live s port v _ live kept (by rw [bound]; rfl)).trans whole), ?_⟩
    rw [State.modVf_self]
    exact configRing_starts off on
  case arm =>
    intro s port v x live kept bound
    exact ⟨_, next_of_eq (pageWrite_live s port v _ live kept bound), State.modVf_self s port v _⟩
  case retry =>
    intro s port v x p i a live kept bound one action stalled engine array
    subst array
    obtain ⟨flows, pc, pnl⟩ := stallOver_seq ((s.unstalled p (slice x 15 0)).modSeq (asFin 40 i.key.phys.toNat) fun x =>
      { x with stalled := false }) (asFin 40 i.key.phys.toNat)
    refine ⟨_, next_of_eq ((pageWrite_live s port v _ live kept (by rw [bound]; rfl)).trans ((faultResume_only bound (by omega) stalled).trans
      ((if_neg (by omega)).trans (replayTile_sequencer engine)))), ?_, ?_, ?_⟩
    · rw [pnl]
      exact unstalled_ring stalled
    · rw [flows, State.modSeq_arrays, vmod_self]
    · rw [pc, State.modSeq_arrays, vmod_self]
      rfl
  case abort =>
    intro s port v x p i a live kept bound one action stalled array clear
    subst array
    refine ⟨_, next_of_eq ((pageWrite_live s port v _ live kept (by rw [bound]; rfl)).trans ((faultResume_only bound (by omega) stalled).trans
      (if_pos action))), ?_⟩
    exact endStep_fault (s.unstalled p (slice x 15 0)) (asFin 40 i.key.phys.toNat) 0 0x18 (slice x 15 0) _ clear
  case stale =>
    intro s port v x p live kept bound one action stalled
    exact ⟨_, next_of_eq ((pageWrite_live s port v _ live kept (by rw [bound]; rfl)).trans
      (faultResume_stale bound one (by omega) stalled)), State.modVf_self s port v _⟩

end Sys2Proof.Machine
end

section
/-!
PROOFS. R159, R164, R166, R179 to R182, R236: page walks, the root, invalidations and range flushes.
-/

namespace Sys2Proof.Machine

theorem modTu_self (s : State) (f : FieldId) (h : TuState → TuState) : (s.modTu f h).fields[f].tu = h s.fields[f].tu :=
  (modTu_fields s f f h).trans (if_pos rfl)

theorem exec_pageWalk_starts {s : State} {f : FieldId} {p : PanelId} {va : BitVec 55} {acc : Access} {e : EngineSel} {ask : WalkUnit} {n : Nat}
    {tb : BitVec 52} {nm : DWord} (home : tuField e = f) (room : s.fields[f].tu.walks.length < 32) (start : s.walkStart p va f = .ok (n, tb, nm)) :
    exec (.pageWalk f p va acc ⟨e, ask⟩) s = .next (s.modTu f fun u =>
      { u with walks := u.walks ++ [⟨s.fields[f].tu.nextWalk, p, va, acc, e, ask, [], n, tb, nm⟩], nextWalk := u.nextWalk + 1 }) := by
  refine next_of_eq ((if_neg ?_).trans ?_)
  · rintro (elsewhere | full)
    · exact elsewhere home
    · exact absurd full (Nat.not_le.mpr room)
  · rw [start]

/-- The entry that a walk has read (R164). -/
def Walk.entry (w : Walk) (pte : DWord) : TlbEntry :=
  { panel := w.panel, level := w.level, index := w.va.toNat >>> levelShift w.level, pte := pte }

/-- R159: a walk that has come to a pointer goes on one level down. -/
theorem exec_walkLevelRead_pointer {s s₁ : State} {f : FieldId} {k : Nat} {er : List RawError} {w : Walk} {pte : DWord}
    (walk : (s.fields[f].tu.walks.find? fun w => decide (w.serial = k)) = some w)
    (read : s.walkLevel (s.walkAgent w.panel w.engine w.asker) w.panel (s.walkTint w.panel w.engine) w.va w.level w.table w.namer
      (flipsAt er 0) = (.pointer pte, s₁)) :
    exec (.walkLevelRead f k er) s = .next (s₁.modTu f fun u => { u with walks := modFirst (fun y => decide (y.serial = k)) (fun y =>
      { y with level := y.level - 1, table := BitVec.ofNat 52 (pteAddr pte), namer := pte, found := y.found ++ [w.entry pte] }) u.walks }) := by
  refine next_of_eq ?_
  rw [walk]
  dsimp only
  rw [read]
  rfl

/-- R164: one that has come to a leaf leaves it with its engine. -/
theorem exec_walkLevelRead_leaf {s s₁ : State} {f : FieldId} {k : Nat} {er : List RawError} {w : Walk} {pte : DWord} {g : Target}
    (walk : (s.fields[f].tu.walks.find? fun w => decide (w.serial = k)) = some w)
    (read : s.walkLevel (s.walkAgent w.panel w.engine w.asker) w.panel (s.walkTint w.panel w.engine) w.va w.level w.table w.namer
      (flipsAt er 0) = (.leaf pte, s₁)) (direct : w.found = [])
    (used : (s₁.modTu f fun u => { u with walks := u.walks.filter fun y => decide (y.serial ≠ k) }).useLeaf w.panel w.va w.access w.level pte =
      .ok g) :
    exec (.walkLevelRead f k er) s = .next ((s₁.modTu f fun u =>
      { u with walks := u.walks.filter fun y => decide (y.serial ≠ k) }).cacheLeaf w.engine (w.entry pte)) := by
  refine next_of_eq ?_
  rw [walk]
  dsimp only
  rw [read]
  dsimp only
  rw [used, direct]
  rfl

theorem setOwn_walks (t : TuState) (g : EngineSel) (c : List TlbEntry) : (t.setOwn g c).walks = t.walks := by
  cases g with
  | array a => rfl
  | site n => rfl
  | aperture p => rfl

theorem own_fieldTlb (t : TuState) (g : EngineSel) (c : List TlbEntry) : ({ t with fieldTlb := c } : TuState).own g = t.own g := by
  cases g with
  | array a => rfl
  | site n => rfl
  | aperture p => rfl

/-- R164: what a leaf leaves in the translation unit of its engine. -/
theorem cacheLeaf_tu (s : State) (g : EngineSel) (e : TlbEntry) :
    (s.cacheLeaf g e).fields[tuField g].tu.walks = s.fields[tuField g].tu.walks ∧ e ∈ (s.cacheLeaf g e).fields[tuField g].tu.own g ∧
      (s.cacheLeaf g e).draws = s.draws + 1 := by
  unfold State.cacheLeaf
  simp only [State.drawn_fields, modTu_self]
  refine ⟨setOwn_walks _ g _, ?_, rfl⟩
  rw [own_fieldTlb, own_setOwn]
  exact cacheAdd_mem _ _ _ _

/-- The registers of a VF page's invalidation set as GO leaves them before it is judged (R181, R182). -/
def State.invGone (s : State) (port : PortId) (v : VfId) (x : Word) : State :=
  s.modInv (.page port v) fun y => { (y.control (.page port v) x) with reason := 0, forced := 0 }

theorem invGone_set (s : State) (port : PortId) (v : VfId) (x : Word) :
    (s.invGone port v x).invSet (.page port v) =
      { (s.ports[port].vfs[v].inv.control (.page port v) x) with reason := 0, forced := 0 } :=
  congrArg VfState.inv (s.modVf_self port v _)

theorem invGone_reject (s : State) (port : PortId) (v : VfId) (x : Word) :
    ((s.invGone port v x).invSet (.page port v)).reject = s.ports[port].vfs[v].inv.reject := by
  rw [invGone_set]
  rfl

/-- R181: GO of a range that is refused. -/
theorem invControl_rejected {s : State} {port : PortId} {v : VfId} {x : Word} {r : BitVec 4} (go : bit x 31 = true)
    (idle : s.ports[port].vfs[v].inv.state ≠ 1) (refused : s.ports[port].vfs[v].inv.reject = some r) :
    s.invControl (.page port v) x = (s.invGone port v x).modInv (.page port v) fun y => { y with state := 4, reason := r } := by
  have judged := (invGone_reject s port v x).trans refused
  unfold State.invGone at judged
  refine (if_neg (by simp [go])).trans ((if_neg idle).trans ?_)
  dsimp only at judged ⊢
  rw [judged]
  rfl

/-- R179: the translation units as GO of a VF page leaves them. -/
def State.invSwept (s : State) (port : PortId) (v : VfId) (x : Word) (p : PanelId) : State :=
  (allFin 8).foldl (fun t f => t.modTu f fun u =>
    u.invalidate p ((s.invGone port v x).invSet (.page port v)).base.toNat ((s.invGone port v x).invSet (.page port v)).length.toNat
      ((s.invGone port v x).invSet (.page port v)).walk) (s.invGone port v x)

/-- R179: the engines that do not acknowledge at once. -/
def State.invLeft (s : State) (port : PortId) (v : VfId) (x : Word) (p : PanelId) : List EngineSel :=
  ((s.invSwept port v x p).panelEngines p).filter fun g =>
    !(s.invSwept port v x p).acksAtOnce p g ((s.invGone port v x).invSet (.page port v))

/-- R179: GO of a range that is taken. -/
theorem invControl_taken {s : State} {port : PortId} {v : VfId} {x : Word} {p : PanelId} (bound : s.ports[port].vfs[v].bound = some p)
    (go : bit x 31 = true) (idle : s.ports[port].vfs[v].inv.state ≠ 1) (taken : s.ports[port].vfs[v].inv.reject = none) :
    s.invControl (.page port v) x =
      if s.invLeft port v x p = [] then ((s.invSwept port v x p).modInv (.page port v) fun z =>
        { z with state := 1, waitingFor := s.invLeft port v x p }).invDone (.page port v) 2
      else (s.invSwept port v x p).modInv (.page port v) fun z => { z with state := 1, waitingFor := s.invLeft port v x p } := by
  have judged := (invGone_reject s port v x).trans taken
  unfold State.invGone at judged
  refine (if_neg (by simp [go])).trans ((if_neg idle).trans ?_)
  dsimp only at judged ⊢
  rw [judged, State.setPanel, State.vf, bound]
  rfl

theorem invControl_fields {s : State} {port : PortId} {v : VfId} {x : Word} {p : PanelId} (bound : s.ports[port].vfs[v].bound = some p)
    (go : bit x 31 = true) (idle : s.ports[port].vfs[v].inv.state ≠ 1) (taken : s.ports[port].vfs[v].inv.reject = none) :
    (s.invControl (.page port v) x).fields = (s.invSwept port v x p).fields := by
  rw [invControl_taken bound go idle taken]
  split
  next => rw [invDone_fields, modInv_fields]
  next => rw [modInv_fields]

theorem invSwept_tu (s : State) (port : PortId) (v : VfId) (x : Word) (p : PanelId) (f : FieldId) :
    (s.invSwept port v x p).fields[f].tu = s.fields[f].tu.invalidate p s.ports[port].vfs[v].inv.base.toNat
      s.ports[port].vfs[v].inv.length.toNat (bit x 1) := by
  unfold State.invSwept
  rw [fold_modTu _ (fun t => invalidate_twice t p _ _ _), if_pos (mem_allFin f), invGone_set, State.invGone, modInv_fields]
  rfl

/-- R179, R182: the set of a VF page whose invalidation is over. -/
theorem invDone_set (s : State) (port : PortId) (v : VfId) (st : BitVec 4) :
    (s.invDone (.page port v) st).ports[port].vfs[v].inv = { s.ports[port].vfs[v].inv with state := st, waitingFor := [] } := by
  have told : ∀ (u : State) k, (u.raiseMsix port v k).ports[port].vfs[v].inv = u.ports[port].vfs[v].inv := by
    intro u k
    rw [State.raiseMsix, State.modVf_self]
  have done : (s.modInv (.page port v) fun x => { x with state := st, waitingFor := [] }).ports[port].vfs[v].inv =
      { s.ports[port].vfs[v].inv with state := st, waitingFor := [] } := congrArg VfState.inv (s.modVf_self port v _)
  have either : s.invDone (.page port v) st = (s.modInv (.page port v) fun x => { x with state := st, waitingFor := [] }).raiseMsix port v
      (s.vf port v).inv.vector ∨ s.invDone (.page port v) st = s.modInv (.page port v) fun x => { x with state := st, waitingFor := [] } :=
    ite_eq_or_eq _ _ _
  rcases either with tells | quiet
  · rw [tells, told, done]
  · rw [quiet, done]

/-- R179: the last engine to acknowledge. -/
theorem exec_engineInvalidationAck_last {s : State} {port : PortId} {v : VfId} {e : EngineSel} {p : PanelId}
    (bound : s.ports[port].vfs[v].bound = some p) (runs : s.ports[port].vfs[v].inv.state = 1)
    (last : s.ports[port].vfs[v].inv.waitingFor = [e]) (acks : s.acksAtOnce p e s.ports[port].vfs[v].inv = true) :
    exec (.engineInvalidationAck (.page port v) e) s = .next ((s.modInv (.page port v) fun y =>
      { y with waitingFor := y.waitingFor.filter fun g => g ≠ e }).invDone (.page port v) 2) := by
  have left : ((s.modInv (.page port v) fun y => { y with waitingFor := y.waitingFor.filter fun g => g ≠ e }).invSet (.page port v)).waitingFor
      = [] := by
    rw [State.invSet, State.vf, State.modInv, State.modVf_self, last]
    simp
  refine next_of_eq ?_
  dsimp only
  rw [State.setPanel, State.vf, bound]
  refine (if_neg ?_).trans (if_pos left)
  simp [-Fin.getElem_fin, State.invSet, State.vf, runs, last, acks]

/-- R180: an aperture path that has not acknowledged is refused from now on. -/
theorem forceEngine_refuses (s : State) (q : PortId) :
    .aperture q ∈ (s.forceEngine (.aperture q)).fields[fieldOfPort q].tu.refused ∧ (s.forceEngine (.aperture q)).ports = s.ports := by
  refine ⟨?_, State.logFault_ports _ _⟩
  unfold State.forceEngine
  dsimp only
  rw [State.logFault_fields, tuField, modTu_self]
  dsimp only
  split
  next known => exact known
  next => simp

theorem exec_invalidationForce_one {s : State} {port q : PortId} {v : VfId} (runs : s.ports[port].vfs[v].inv.state = 1)
    (waits : s.ports[port].vfs[v].inv.waitingFor = [.aperture q]) :
    exec (.invalidationForce (.page port v)) s = .next (((s.forceEngine (.aperture q)).modInv (.page port v) fun y =>
      { y with forced := 1 }).invDone (.page port v) 3) := by
  refine next_of_eq ((if_neg (not_not_intro runs)).trans ?_)
  simp only [State.invSet, State.vf, waits]
  rfl

/-- R236: a flush of a range that is taken. -/
theorem exec_cohFlushGo_starts {s : State} {port : PortId} {v : VfId} {x : Word} {p : PanelId} {b n : Nat} (live : s.vfLive port v = true)
    (kept : s.vfDust port v = false) (bound : s.ports[port].vfs[v].bound = some p) (go : bit x 31 = true)
    (idle : s.ports[port].vfs[v].flush.state ≠ 1) (base : b = s.ports[port].vfs[v].flush.base.toNat % 2 ^ 52)
    (length : n = s.ports[port].vfs[v].flush.length.toNat) (sized : b % 65536 = 0 ∧ n % 65536 = 0 ∧ 0 < n)
    (covered : coveredBy s.pnl.panels[p].ranges b n = true) :
    exec (.cohFlushGo (.page port v) x) s = .next ((s.setFlush (.page port v) { s.ports[port].vfs[v].flush with
      vector := slice x 12 8, irq := bit x 0, state := 1, reason := 0, todo := s.linesIn b n }).flushLines (s.flushTint p) (s.linesIn b n)) := by
  subst base length
  refine next_of_eq ((pageWrite_live s port v _ live kept (by rw [bound]; rfl)).trans ?_)
  unfold State.flushControl
  rw [State.flushOf, bound]
  dsimp only [Option.map_some]
  refine (if_neg (by simp [go])).trans ((if_neg idle).trans ((if_neg (by omega)).trans ((if_neg (by simp [-Fin.getElem_fin, -Nat.reducePow, covered])).trans rfl)))

/-- Settles O30, by what each of these commands comes to. -/
theorem translation : Obligations.Translation := by
  unfold Obligations.Translation
  refine ⟨?starts, ?pointer, ?leaf, ?root, ?go, ?rejected, ?acknowledged, ?forced, ?flush⟩
  case starts =>
    intro s f p va acc e ask n tb nm home room start
    exact ⟨_, exec_pageWalk_starts home room start, modTu_self s f _⟩
  case pointer =>
    intro s s₁ f k er w pte walk read
    refine ⟨_, exec_walkLevelRead_pointer walk read, ?_⟩
    rw [modTu_self]
    exact ⟨rfl, rfl⟩
  case leaf =>
    intro s s₁ f k er w pte g walk read home direct used
    subst home
    obtain ⟨walks, held, draws⟩ := cacheLeaf_tu (s₁.modTu (tuField w.engine) fun u =>
      { u with walks := u.walks.filter fun y => decide (y.serial ≠ k) }) w.engine (w.entry pte)
    refine ⟨_, exec_walkLevelRead_leaf walk read direct used, ?_, held, draws⟩
    rw [walks, modTu_self]
  case root =>
    intro s port v x live kept bound
    exact ⟨_, next_of_eq (pageWrite_live s port v _ live kept bound), State.modVf_self s port v _⟩
  case go =>
    intro s port v x p live kept bound go idle taken
    refine ⟨_, next_of_eq (pageWrite_live s port v _ live kept (by rw [bound]; rfl)), fun f => ?_⟩
    rw [invControl_fields bound go idle taken, invSwept_tu]
  case rejected =>
    intro s port v x p r live kept bound go idle refused
    refine ⟨_, next_of_eq ((pageWrite_live s port v _ live kept (by rw [bound]; rfl)).trans (invControl_rejected go idle refused)), ?_, ?_⟩
    · rw [modInv_fields, State.invGone, modInv_fields]
    · rw [State.modInv, State.modVf_self]
      exact ⟨rfl, rfl⟩
  case acknowledged =>
    intro s port v e p bound runs last acks
    refine ⟨_, exec_engineInvalidationAck_last bound runs last acks, ?_⟩
    rw [invDone_set]
    exact ⟨rfl, rfl⟩
  case forced =>
    intro s port q v runs waits
    refine ⟨_, exec_invalidationForce_one runs waits, ?_⟩
    rw [invDone_set, invDone_fields, modInv_fields, State.modInv, State.modVf_self]
    exact ⟨rfl, rfl, (forceEngine_refuses s q).1⟩
  case flush =>
    intro s port v x p b n live kept bound go idle base length sized covered
    refine ⟨_, exec_cohFlushGo_starts live kept bound go idle base length sized covered, ?_⟩
    rw [State.flushLines_ports, State.setFlush, State.modVf_self]
    exact ⟨rfl, rfl⟩

end Sys2Proof.Machine
end

section
/-!
PROOFS. R113 to R118, R135 to R137: requests to HBM stacks and fast-tier banks.
-/

namespace Sys2Proof.Machine

/-- A code word's address. -/
abbrev wordPa (pa : BitVec 52) : BitVec 52 := pa &&& ~~~63#52

/-- The reads that may be served of a pseudo-channel (R116, R117). -/
def State.readable (s : State) (k : StackId) (pc : PcId) : List WaitingRead :=
  s.hbm[k].readQ.filter fun r => decide (pcOfKey r.key = pc) && !s.hbm[k].keyHeld r.key && !s.readBehind r.id

/-- The other reads of a strip. -/
def sameStrip (l : List WaitingRead) (r : WaitingRead) : List WaitingRead :=
  l.filter fun y => decide (y.id ≠ r.id) && decide (stripOfKey y.key = stripOfKey r.key)

theorem exec_hbmRead_chosen {s : State} {k : StackId} {pc : PcId} {n : Nat} {er : List RawError} {r : WaitingRead}
    (joined : s.isolated (fieldOfStack k) (niOfStack k) = false) (chosen : chooseRead s.sclk n (s.readable k pc) = some r) :
    exec (.hbmRead k pc n er) s = .next ((sameStrip (s.readable k pc) r).foldl (fun t x => t.serveWaiting k [] x) (s.serveWaiting k er r)) := by
  refine next_of_eq ((if_neg (by simp [joined])).trans ?_)
  unfold State.readable at chosen
  rw [chosen]
  rfl

/-- A read that leaves its queue: the words that it is answered with. -/
def State.servedRead (s : State) (k : StackId) (er : List RawError) (r : WaitingRead) (x : Txn) (m : Nat) : List CodeWord × State :=
  (s.modStack k fun y => { y with readQ := passOlder r y.readQ }).serveWords x.id (txnAgent x) (wordPa x.pa) er 0 m

theorem serveWaiting_read {s : State} {k : StackId} {er : List RawError} {r : WaitingRead} {x : Txn} {m : Nat} (txn : s.txn r.id = some x)
    (kind : x.kind = .read m) : s.serveWaiting k er r = (s.servedRead k er r x m).2.answerTxn x.id 0 (s.servedRead k er r x m).1 := by
  unfold State.serveWaiting
  dsimp only
  rw [txn]
  dsimp only
  unfold State.serveRead
  rw [kind]
  rfl

theorem servedRead_txn {s : State} {k : StackId} {er : List RawError} {r : WaitingRead} {x : Txn} {m : Nat} (txn : s.txn r.id = some x) :
    ∃ y, (s.servedRead k er r x m).2.txn r.id = some y := by
  have kept := (serveWords_txn m (s.modStack k fun y => { y with readQ := passOlder r y.readQ }) x.id (txnAgent x) (wordPa x.pa) er 0 r.id).1
  exact Option.isSome_iff_exists.mp (kept.trans (congrArg Option.isSome txn))

/-- R117: a word in its controller's write queue leaves what is stored, and what is in flight. -/
theorem enqueueWrite_writeQ {s : State} {k : StackId} {pa : BitVec 52} {w : CodeWord} {l : Loc} (loc : s.locate pa = some l) :
    (s.enqueueWrite k pa w).hbm[k].writeQ = s.hbm[k].writeQ ++ [⟨s.keyOf l, s.encipher pa w⟩] := by
  unfold State.enqueueWrite
  rw [loc]
  dsimp only
  rw [State.mirror_hbm, State.modStack_hbm, vmod_self]
  rfl

theorem exec_hbmWrite_queues {s : State} {i : TxId} {x : Txn} {w : CodeWord} {k : StackId} {pc : PcId} {sn wn : Nat} (txn : s.txn i = some x)
    (kind : x.kind = .write [w]) (loc : s.locate (wordPa x.pa) = some (.hbm k pc sn wn)) (stage : x.stage = .atTarget)
    (joined : s.locSunk (.hbm k pc sn wn) = false) (free : s.hbm[k].keyHeld (s.keyOf (.hbm k pc sn wn)) = false)
    (first : s.olderMeets x = false) (copied : s.mirrorShort (wordPa x.pa) 1 = false)
    (room : s.hbm[k].queuedWords (pcOfKey (s.keyOf (.hbm k pc sn wn))) + 1 ≤ 128) :
    exec (.hbmWrite i) s = .next ((s.enqueueWrites k (wordPa x.pa) [w]).answerTxn i 0 []) := by
  refine next_of_eq ?_
  rw [txn]
  dsimp only
  rw [kind, loc]
  dsimp only [locStack]
  refine if_neg ?_
  simp only [not_or, List.length_singleton]
  exact ⟨not_not_intro stage, by simp [joined], by simp [-Fin.getElem_fin, free], by simp [first], ne_true_of_eq_false copied, Nat.not_lt.mpr room⟩

/-- R116: a batch of the one word that waits. -/
theorem exec_hbmWriteDrain_one {s : State} {k : StackId} {pc : PcId} {w : QueuedWrite}
    (mine : s.hbm[k].writeQ.filter (fun w => decide (pcOfKey w.key = pc)) = [w])
    (quiet : (s.hbm[k].readQ.any fun r => decide (pcOfKey r.key = pc)) = false)
    (free : (s.hbm[k].repairBusy && decide (pc = asFin 64 (fld s.hbm[k].repairReq.toNat 21 6))) = false) :
    exec (.hbmWriteDrain k pc) s = .next ((s.modStack k fun x =>
      { x with writeQ := x.writeQ.filter fun y => decide (pcOfKey y.key ≠ pc) || !inBatch [w] y }).storeAt w.key (stored w.word)) := by
  refine next_of_eq ?_
  dsimp only
  rw [mine, quiet, if_neg (by simpa [-Fin.getElem_fin] using free), List.filter_cons_of_pos (inBatch_one w)]
  rfl

/-- What is left of the write queue is what waits for other pseudo-channels. -/
theorem drained_one {l : List QueuedWrite} {pc : PcId} {w : QueuedWrite} (mine : l.filter (fun w => decide (pcOfKey w.key = pc)) = [w]) :
    (l.filter fun y => decide (pcOfKey y.key ≠ pc) || !inBatch [w] y) = l.filter fun y => decide (pcOfKey y.key ≠ pc) := by
  refine List.filter_congr fun y member => ?_
  by_cases own : pcOfKey y.key = pc
  · have only : y = w := by
      have kept : y ∈ l.filter (fun w => decide (pcOfKey w.key = pc)) := List.mem_filter.mpr ⟨member, decide_eq_true own⟩
      rw [mine] at kept
      exact List.mem_singleton.mp kept
    subst only
    simp [own, inBatch_one]
  · simp [own]

/-- The accesses that a bank may serve next (R118). -/
def State.bankReady (s : State) (f : FieldId) (b : BankId) : List BankAccess :=
  freeAccesses [] (s.fields[f].ft.queue.filter fun r => decide (bankOfKey r.key = s.fields[f].ft.bankMap[b].toNat) && !s.readBehind r.id)

/-- The state in which a bank has taken an access from its queue. -/
def State.bankTakes (s : State) (f : FieldId) (r : BankAccess) : State :=
  s.modFt f fun y => { y with queue := y.queue.filter fun z => !(decide (z.id = r.id) && decide (z.key = r.key)) }

theorem exec_fastTierAccess_write {s : State} {f : FieldId} {b : BankId} {er : List RawError} {r : BankAccess} {x : Txn}
    (joined : s.isolated f (niOfBank b.val) = false) (chosen : chooseAccess s.sclk (s.bankReady f b) = some r) (txn : s.txn r.id = some x)
    (write : r.isWrite = true) (copied : s.mirrorShort r.pa r.words.length = false) :
    exec (.fastTierAccess f b er) s = .next (((s.bankTakes f r).putWords r.pa r.words).partServed x r.first r.count []) := by
  refine next_of_eq ((if_neg (by simp [joined])).trans ?_)
  unfold State.bankReady at chosen
  rw [chosen]
  dsimp only
  rw [txn]
  exact (if_neg (by simp [copied])).trans (if_pos write)

theorem exec_fastTierAccess_read {s : State} {f : FieldId} {b : BankId} {er : List RawError} {r : BankAccess} {x : Txn}
    (joined : s.isolated f (niOfBank b.val) = false) (chosen : chooseAccess s.sclk (s.bankReady f b) = some r) (txn : s.txn r.id = some x)
    (read : r.isWrite = false) :
    exec (.fastTierAccess f b er) s = .next (((s.bankTakes f r).serveWords x.id (txnAgent x) r.pa er 0 r.count).2.partServed
      (((s.bankTakes f r).serveWords x.id (txnAgent x) r.pa er 0 r.count).2.txnNow x) r.first r.count
        ((s.bankTakes f r).serveWords x.id (txnAgent x) r.pa er 0 r.count).1) := by
  refine next_of_eq ((if_neg (by simp [joined])).trans ?_)
  unfold State.bankReady at chosen
  rw [chosen]
  dsimp only
  rw [txn]
  exact (if_neg (by simp [read])).trans (if_neg (by simp [read]))

/-- R114: the only part of a request answers it. -/
theorem partServed_whole {s : State} {x : Txn} {n : Nat} (ws : List CodeWord) (first : x.parts = []) (run : reqRun x.kind = some n) :
    ∃ data, s.partServed x 0 n ws = s.answerTxn x.id 0 data ∧ (ws = [] → data = []) := by
  unfold State.partServed
  rw [first, run]
  dsimp only
  refine ⟨_, if_pos (by simp), fun none_ => ?_⟩
  subst none_
  simp

/-- R208: what a target keeps of a request that it has performed. -/
theorem dedupOf_remember {s : State} {f : FieldId} {ni : NiId} {i : TxId} (status : BitVec 3) (data : List CodeWord)
    (fresh : s.dedupOf f ni i = none) : (s.remember f ni i status data).dedupOf f ni i = some ⟨f, ni, i, status, data⟩ := by
  have absent : (s.net.dedup.find? fun e => decide (e.field = f ∧ e.ni = ni ∧ e.id = i)) = none := fresh
  unfold State.dedupOf State.remember
  rw [State.modNet_net, List.find?_append, absent]
  simp

/-- R135: an atomic that its target performs. -/
theorem exec_networkAtomicPerform_new {s s₂ : State} {i : TxId} {er : List RawError} {x : Txn} {op : AtomicOp} {off : Fin 64} {a c : DWord}
    {m : Bool} {l : Loc} {r : Reply} (txn : s.txn i = some x) (kind : x.kind = .atomic op off a c m) (loc : s.locate (wordPa x.pa) = some l)
    (stage : x.stage = .atTarget) (plain : s.coherentAt (wordPa x.pa) = false) (joined : s.locSunk l = false) (first : s.olderMeets x = false)
    (free : s.locHeld l false = false) (copied : s.mirrorShort (wordPa x.pa) 1 = false) (room : s.tableRoom (locNi l).1 (locNi l).2 i = true)
    (fresh : s.dedupOf (locNi l).1 (locNi l).2 i = none)
    (performed : s.atomicLoc (txnAgent x) (wordPa x.pa) l op off.val a.toNat c.toNat m (flipsAt er 0) = (r, s₂)) :
    exec (.networkAtomicPerform i er) s =
      .next ((s₂.remember (locNi l).1 (locNi l).2 i r.status [r.word]).answerTxn i r.status [r.word]) := by
  refine next_of_eq ?_
  rw [txn]
  dsimp only
  rw [kind, loc]
  refine (if_neg ?_).trans ?_
  · simp only [not_or]
    exact ⟨not_not_intro stage, ne_true_of_eq_false plain, by simp [joined], by simp [first], by simp [free], ne_true_of_eq_false copied⟩
  · rw [fresh]
    dsimp only
    rw [if_neg (by simp [room]), performed]

/-- Settles O31, by what each of these commands comes to. -/
theorem stackRequests : Obligations.StackRequests := by
  unfold Obligations.StackRequests
  refine ⟨?read, ?readAlone, ?write, ?drain, ?bankWrite, ?bankRead, ?atomic, ?fix⟩
  case read =>
    intro s k pc n m er r x joined chosen txn kind
    obtain ⟨y, kept⟩ := servedRead_txn (k := k) (er := er) (m := m) txn
    have others : ∀ z ∈ sameStrip (s.readable k pc) r, r.id ≠ z.id := by
      intro z member
      have other := (List.mem_filter.mp member).2
      simp only [Bool.and_eq_true, decide_eq_true_eq] at other
      exact Ne.symm other.1
    refine ⟨_, exec_hbmRead_chosen joined chosen, ?_⟩
    rw [foldl_serve_other k [] r.id _ _ others, serveWaiting_read txn kind, txn_id txn, answerTxn_txn _ _ _ _ y kept]
    rw [State.servedRead, txn_id txn]
    rfl
  case readAlone =>
    intro s k pc n m er r x joined chosen txn kind alone
    have whole := exec_hbmRead_chosen (er := er) joined chosen
    rw [show sameStrip (s.readable k pc) r = [] from alone, List.foldl_nil, serveWaiting_read txn kind] at whole
    exact ⟨_, whole, State.answerTxn_hbm _ _ _ _, State.answerTxn_mem _ _ _ _⟩
  case write =>
    intro s i x w k pc sn wn txn kind loc stage joined free first copied room
    have kept : (s.enqueueWrites k (wordPa x.pa) [w]).txn i = some x :=
      (congrFun (txn_net (State.enqueueWrites_net s [w] k (wordPa x.pa))) i).trans txn
    refine ⟨_, exec_hbmWrite_queues txn kind loc stage joined free first copied room, answerTxn_txn _ _ _ _ x kept, ?_, ?_⟩
    · rw [State.answerTxn_mem, State.enqueueWrites_mem]
    · rw [State.answerTxn_hbm]
      exact enqueueWrite_writeQ loc
  case drain =>
    intro s k pc w mine quiet free
    refine ⟨_, exec_hbmWriteDrain_one mine quiet free, rfl, ?_⟩
    rw [State.storeAt_hbm, State.modStack_hbm, vmod_self]
    exact drained_one mine
  case bankWrite =>
    intro s f b er r x ws joined chosen txn unserved whole kind write words count copied
    subst words
    obtain ⟨data, answered, plain⟩ := partServed_whole (s := (s.bankTakes f r).putWords r.pa r.words) (n := r.count) [] unserved
      (by rw [kind, count]; rfl)
    have kept : ((s.bankTakes f r).putWords r.pa r.words).txn x.id = some x :=
      (congrFun (txn_net (State.putWords_net _ _ _)) x.id).trans ((congrArg s.txn (txn_id txn)).trans txn)
    rw [plain rfl] at answered
    have exact_ := exec_fastTierAccess_write (er := er) joined chosen txn write copied
    rw [whole, answered] at exact_
    refine ⟨_, exact_, answerTxn_txn _ _ _ _ x kept, State.answerTxn_mem _ _ _ _, ?_⟩
    rw [State.answerTxn_fields, State.putWords_fields, State.bankTakes]
    simp only [State.modFt, State.modField_fields, vmod_self]
  case bankRead =>
    intro s f b er r x m joined chosen txn unserved whole kind read count
    subst count
    have keyed := serveWords_kind r.count (s.bankTakes f r) x.id (txnAgent x) r.pa er 0 x.id
    have own : (s.bankTakes f r).txn x.id = some x := (congrArg s.txn (txn_id txn)).trans txn
    rw [own] at keyed
    obtain ⟨y, kept, same⟩ := Option.map_eq_some_iff.mp keyed
    simp only [Prod.mk.injEq] at same
    obtain ⟨sameId, sameParts, sameKind⟩ := same
    have now : ((s.bankTakes f r).serveWords x.id (txnAgent x) r.pa er 0 r.count).2.txnNow x = y := by rw [State.txnNow, kept, Option.getD_some]
    obtain ⟨data, answered, -⟩ := partServed_whole (s := ((s.bankTakes f r).serveWords x.id (txnAgent x) r.pa er 0 r.count).2) (x := y)
      (n := r.count) ((s.bankTakes f r).serveWords x.id (txnAgent x) r.pa er 0 r.count).1 (sameParts.trans unserved) (by rw [sameKind, kind]; rfl)
    have exact_ := exec_fastTierAccess_read (er := er) joined chosen txn read
    rw [whole, now, answered, sameId] at exact_
    refine ⟨_, exact_, ?_, State.answerTxn_mem _ _ _ _⟩
    rw [answerTxn_txn _ _ _ _ y kept]
    rfl
  case atomic =>
    intro s s₂ i er x op off a c m l r txn kind loc stage plain joined first free copied room fresh performed
    have net : s₂.net = s.net := by
      have kept := State.atomicLoc_net s (txnAgent x) (wordPa x.pa) l op off.val a.toNat c.toNat m (flipsAt er 0)
      rwa [performed] at kept
    have kept : (s₂.remember (locNi l).1 (locNi l).2 i r.status [r.word]).txn i = some x :=
      (congrFun (txn_net (s := s) net) i : s₂.txn i = s.txn i).trans txn
    refine ⟨_, exec_networkAtomicPerform_new txn kind loc stage plain joined first free copied room fresh performed,
      answerTxn_txn _ _ _ _ x kept, ?_, ?_⟩
    · rw [State.answerTxn_mem, State.remember_mem]
    · have unknown : s₂.dedupOf (locNi l).1 (locNi l).2 i = none := by
        rw [State.dedupOf, net]
        exact fresh
      exact dedupOf_remember r.status [r.word] unknown
  case fix =>
    intro s key x due
    refine ⟨{ s with mem := Mem.put s.mem key x.word, ras := { s.ras with fixes := s.ras.fixes.erase x } }, next_of_eq ?_, rfl, rfl⟩
    rw [due]

end Sys2Proof.Machine
end

section
/-!
PROOFS. R119 to R129: refresh, temperature, repair, fences and tests of a stack.
-/

namespace Sys2Proof.Machine

theorem State.modStack_self (s : State) (k : StackId) (f : StackState → StackState) : (s.modStack k f).hbm[k] = f s.hbm[k] := by
  rw [State.modStack_hbm, vmod_self]

/-- A stack whose rate and mode of refresh have come into effect (R119). -/
def StackState.retimed (k : StackState) : StackState := { k with refreshRate := k.refreshNextRate, refreshMode := k.refreshNextMode }

theorem bankReads_of_critical {k : StackState} {pc : PcId} {b : Nat} (critical : k.bankReads pc b (fun r => r.critical) = true) :
    k.bankReads pc b (fun _ => true) = true := by
  by_contra none_
  rw [noReads_critical (Bool.eq_false_iff.mpr none_)] at critical
  exact absurd critical (by decide)

/-- R119: a refresh that no read waits for, with those postponed that there is time for. -/
theorem refreshed_idle {k : StackState} {pc : PcId} {b : Nat} (w : Bool) (m : Nat) (idle : k.retimed.bankReads pc b (fun _ => true) = false) :
    k.refreshed pc b w m = { k.retimed.setPostponed (k.retimed.refreshUnit pc b) (k.retimed.postponedOf (k.retimed.refreshUnit pc b) - m) with
      refreshesIssued := k.refreshesIssued + 1 + min (k.retimed.postponedOf (k.retimed.refreshUnit pc b)) m } := by
  unfold StackState.refreshed
  have calm := noReads_critical idle
  unfold StackState.retimed at idle calm
  dsimp only
  rw [if_neg (by simp [calm]), if_neg (by simp [idle])]
  rfl

/-- R119: one that is not put off. -/
theorem refreshed_due {k : StackState} {pc : PcId} {b : Nat} {w : Bool} (m : Nat) (waits : k.retimed.bankReads pc b (fun _ => true) = true)
    (due : (w && decide (k.retimed.postponedOf (k.retimed.refreshUnit pc b) < Config.refreshLimit)) = false) :
    k.refreshed pc b w m = { k.retimed with refreshesIssued := k.refreshesIssued + 1 } := by
  unfold StackState.refreshed
  unfold StackState.retimed at waits due
  dsimp only
  refine (if_neg ?_).trans (if_pos waits)
  intro put
  simp only [Bool.and_eq_true] at put
  obtain ⟨⟨postpone, -⟩, room⟩ := put
  rw [postpone, room] at due
  exact absurd due (by decide)

/-- R119: one put off behind a critical read. -/
theorem refreshed_postponed {k : StackState} {pc : PcId} {b : Nat} (m : Nat) (critical : k.retimed.bankReads pc b (fun r => r.critical) = true)
    (room : k.retimed.postponedOf (k.retimed.refreshUnit pc b) < Config.refreshLimit) :
    k.refreshed pc b true m =
      k.retimed.setPostponed (k.retimed.refreshUnit pc b) (k.retimed.postponedOf (k.retimed.refreshUnit pc b) + 1) := by
  unfold StackState.refreshed
  unfold StackState.retimed at critical room
  dsimp only
  exact if_pos (by simp only [critical, Bool.true_and, decide_eq_true_eq]; exact room)

theorem exec_refresh_trained {s : State} {k : StackId} (pc : PcId) (b : Nat) (w : Bool) (m : Nat) (trained : s.hbm[k].state = 4) :
    exec (.refresh k pc b w m) s = .next (s.modStack k fun x => x.refreshed pc b w m) :=
  next_of_eq (if_pos trained)

/-- R122: a repair that is asked for, and may be. -/
theorem hbmRepairWrite_starts {s : State} {k : StackId} {x : Word} (in_ : s.stackOut k = false) (go : bit x 31 = true)
    (idle : s.hbm[k].repairBusy = false) (active : s.hbm[k].pcActiveAt (fld x.toNat 21 6) = true) (strip : fld x.toNat 0 21 < 1966080) :
    s.hbmRepairWrite k x = (s.modStack k fun y => { y with repairBusy := true, repairReq := x }).excuseHeld k := by
  refine (if_neg (by simp [in_, go])).trans ((if_neg (by simp [-Fin.getElem_fin, idle])).trans (if_neg ?_))
  simp [-Fin.getElem_fin, active, strip]

/-- R122: a hard repair that a fuse holds. -/
def State.fuseRepair (s : State) (k : StackId) (e : PcId × Nat) : State :=
  s.modFuse fun f => { f with hardRepair := vmod f.hardRepair k fun l => l ++ [e] }

theorem fuseRepair_fuse (s : State) (k : StackId) (e : PcId × Nat) : (s.fuseRepair k e).fuse.hardRepair[k] = s.fuse.hardRepair[k] ++ [e] :=
  vmod_self s.fuse.hardRepair k _

/-- R122: what a repair with a resource left comes to, before the fuse of a hard one. -/
def State.softRepaired (s : State) (k : StackId) : State :=
  (s.rewriteRow k (asFin 64 (fld s.hbm[k].repairReq.toNat 21 6)) (fld s.hbm[k].repairReq.toNat 0 21)).modStack k fun x => { x with
    repairBusy := false, softCount := satAdd x.softCount 1
    repairResult := if !(bit s.hbm[k].repairReq 30) then 1 else if decide (s.fuse.hardRepair[k].length < 16) then 2 else 5 }

theorem exec_softRepairDone_left {s : State} {k : StackId} (busy : s.hbm[k].repairBusy = true) :
    exec (.softRepairDone k true) s = .next (
      if bit s.hbm[k].repairReq 30 && decide (s.fuse.hardRepair[k].length < 16) then
        (s.softRepaired k).fuseRepair k (asFin 64 (fld s.hbm[k].repairReq.toNat 21 6), fld s.hbm[k].repairReq.toNat 0 21)
      else s.softRepaired k) :=
  next_of_eq ((if_neg (by simp [-Fin.getElem_fin, busy])).trans (if_neg (by decide)))

theorem softRepaired_hbm (s : State) (k : StackId) : (s.softRepaired k).hbm[k].repairBusy = false ∧
    (s.softRepaired k).hbm[k].repairResult =
      (if bit s.hbm[k].repairReq 30 = false then 1 else if s.fuse.hardRepair[k].length < 16 then 2 else 5) := by
  rw [State.softRepaired, State.modStack_self]
  refine ⟨rfl, ?_⟩
  cases bit s.hbm[k].repairReq 30
  · rfl
  · simp only [decide_eq_true_eq]
    rfl

/-- R126: the state in which a fence has been logged. -/
def State.fenceLogged (s : State) (k : StackId) (c : Nat) : State :=
  ((s.logFault { cls := 3, source := 6, element := channelElement k c, patch := s.nextPatch }).addPatch 5 0 (channelElement k c)
    noSpare).logMem { cls := 0xE, tier := 0, loc := BitVec.ofNat 32 (k.val * 2 ^ 27 + 2 * c * 2 ^ 21) }

theorem hbmRetireWrite_fences {s : State} {k : StackId} {x : Word} (in_ : s.stackOut k = false) (magic : x >>> 24 = 0xC5)
    (open_ : bit s.hbm[k].fenced (fld x.toNat 0 5) = false) (active : bit s.hbm[k].excluded (fld x.toNat 0 5) = false) :
    s.hbmRetireWrite k x = (s.fenceLogged k (fld x.toNat 0 5)).modStack k fun y =>
      { y with fenced := setBit y.fenced (fld x.toNat 0 5) true } :=
  (if_neg (by simp [in_])).trans ((if_neg (not_not_intro magic)).trans (if_neg (by simp [-Fin.getElem_fin, open_, active])))

theorem fenceLogged_rest (s : State) (k : StackId) (c : Nat) : (s.fenceLogged k c).hbm = s.hbm ∧ (s.fenceLogged k c).mem = s.mem := by
  unfold State.fenceLogged
  simp only [State.logMem_hbm, State.logMem_mem, State.addPatch_hbm, State.addPatch_mem, State.logFault_hbm, State.logFault_mem, and_self]

/-- R129: a stack taken out of service. -/
theorem stackTakenOut_hbm (s : State) (k : StackId) (stage : TrainStage) (st : BitVec 3) : (s.stackTakenOut k stage st).hbm[k] = { s.hbm[k] with
    ready := false, state := st, stage := stage, attempt := 0, failCode := 0, readQ := [], writeQ := [], repairBusy := false
    pageBusy := false } := by
  unfold State.stackTakenOut
  rw [State.readyFrom_hbm, State.setSink_hbm, State.modStack_self]

/-- R129: a write of HBM_TEST that an unlocked part takes. -/
theorem hbmTestWrite_taken {s : State} {k : StackId} {x : Word} (in_ : s.fields[fieldOfStack k].leftOut = false) (open_ : s.testUnlocked = true)
    (idle : s.hbm[k].busyTraining = false) : s.hbmTestWrite k x =
      if bit x 31 then (s.modStack k fun y => { y with rate8g := bit x 0 }).stackTakenOut k .selfTest 1
      else if bit x 30 then (s.modStack k fun y => { y with rate8g := bit x 0 }).stackTakenOut k .idle 0
      else s.modStack k fun y => { y with rate8g := bit x 0 } :=
  (if_neg (by simp [-Fin.getElem_fin, in_])).trans ((if_neg (by simp [open_])).trans (if_neg (by simp [-Fin.getElem_fin, idle])))

/-- Settles O32, by what each of these commands comes to. -/
theorem stackCare : Obligations.StackCare := by
  unfold Obligations.StackCare
  refine ⟨?refreshed, ?due, ?postponed, ?temp, ?critTemp, ?repair, ?none_, ?left, ?fence, ?selfTest, ?retrain, ?rate, ?tested⟩
  case refreshed =>
    intro s k pc b w n m trained unit idle
    subst unit
    refine ⟨_, exec_refresh_trained pc b w m trained, ?_⟩
    rw [State.modStack_self, refreshed_idle w m idle]
    generalize s.hbm[k] = x
    exact ⟨rfl, rfl, rfl, setPostponed_at x.retimed _ _⟩
  case due =>
    intro s k pc b n m trained unit waits
    refine ⟨_, exec_refresh_trained pc b false m trained, ?_⟩
    rw [State.modStack_self, refreshed_due m waits rfl]
    exact ⟨rfl, rfl⟩
  case postponed =>
    intro s k pc b n m trained unit critical
    subst unit
    refine ⟨_, exec_refresh_trained pc b true m trained, fun room => ?_, fun full => ?_⟩
    · rw [State.modStack_self, refreshed_postponed m critical room]
      generalize s.hbm[k] = x
      exact ⟨rfl, setPostponed_at x.retimed _ _⟩
    · rw [State.modStack_self, refreshed_due (w := true) m (bankReads_of_critical critical) (decide_eq_false (Nat.not_lt.mpr full))]
      exact ⟨rfl, rfl⟩
  case temp =>
    intro s k x cool
    refine ⟨_, next_of_eq (if_neg ?_), ?_⟩
    · rcases cool with still | low
      · simp [-Fin.getElem_fin, still]
      · simp [low]
    · rw [State.thermal_hbm, State.modStack_self]
      rfl
  case critTemp =>
    intro s k x training hot
    refine ⟨_, next_of_eq (if_pos (by simp [-Fin.getElem_fin, training, hot])), ?_⟩
    rw [State.thermal_hbm, thermal_hbmFail, State.modStack_self]
    exact ⟨rfl, rfl, rfl, rfl, rfl⟩
  case repair =>
    intro s k x open_ in_ go idle active strip
    exact ⟨_, next_of_eq ((State.byPf0_open _ open_).trans (hbmRepairWrite_starts in_ go idle active strip)), State.modStack_self s k _⟩
  case none_ =>
    intro s k busy
    exact ⟨_, next_of_eq ((if_neg (by simp [-Fin.getElem_fin, busy])).trans (if_pos rfl)), State.modStack_self s k _⟩
  case left =>
    intro s k busy
    obtain ⟨idle, result⟩ := softRepaired_hbm s k
    refine ⟨_, exec_softRepairDone_left busy, ?_⟩
    split
    next both =>
      refine ⟨idle, result, fun _ _ => ?_⟩
      rw [fuseRepair_fuse, State.softRepaired, State.modStack_fuse, rewriteRow_fuse]
    next neither =>
      refine ⟨idle, result, fun hard room => absurd ?_ neither⟩
      rw [hard]
      exact decide_eq_true room
  case fence =>
    intro s k x open_ in_ magic unfenced active
    obtain ⟨hbm, mem⟩ := fenceLogged_rest s k (fld x.toNat 0 5)
    refine ⟨_, next_of_eq ((State.byPf0_open _ open_).trans (hbmRetireWrite_fences in_ magic unfenced active)), ?_, mem⟩
    rw [State.modStack_self, hbm]
  case selfTest =>
    intro s k x open_ in_ unlocked idle go
    refine ⟨_, next_of_eq ((State.byPf0_open _ open_).trans ((hbmTestWrite_taken in_ unlocked idle).trans (if_pos go))), ?_⟩
    rw [stackTakenOut_hbm, State.modStack_self]
    exact ⟨rfl, rfl, rfl, rfl, rfl⟩
  case retrain =>
    intro s k x open_ in_ unlocked idle off go
    refine ⟨_, next_of_eq ((State.byPf0_open _ open_).trans ((hbmTestWrite_taken in_ unlocked idle).trans
      ((if_neg (by simp [off])).trans (if_pos go)))), ?_⟩
    rw [stackTakenOut_hbm, State.modStack_self]
    exact ⟨rfl, rfl, rfl, rfl, rfl⟩
  case rate =>
    intro s k x open_ in_ unlocked idle off off₁
    exact ⟨_, next_of_eq ((State.byPf0_open _ open_).trans ((hbmTestWrite_taken in_ unlocked idle).trans
      ((if_neg (by simp [off])).trans (if_neg (by simp [off₁]))))), State.modStack_self s k _⟩
  case tested =>
    intro s k b testing
    exact ⟨_, next_of_eq (if_pos testing), State.modStack_self s k _⟩

end Sys2Proof.Machine
end

section
/-!
PROOFS. R123 to R125, R132: training of a stack and the first fills.
-/

namespace Sys2Proof.Machine

theorem attemptFails_more {s : State} {k : StackId} (code : Byte) (more : s.hbm[k].attempt ≠ 3) :
    s.attemptFails k code = s.modStack k fun x => { x with stage := .idle } :=
  if_neg more

/-- R125: the channel check of a stack whose channels all pass. -/
theorem channelCheck_passes {s : State} {k : StackId} (few : popCount s.hbm[k].excluded ≤ 4) :
    s.channelCheck k 0 = s.modStack k fun x => { x with stage := .fill } := by
  have none_ : onBits (0 : Word) = [] := by decide
  unfold State.channelCheck
  rw [none_]
  exact if_neg (Nat.not_lt.mpr few)

/-- R123, R132: a stack as its fill leaves it. -/
def State.stackFilled (s : State) (k : StackId) : State :=
  (s.fillUnwritten (stackKeys k.val) (stackKeys (k.val + 1))).modStack k fun x => { x with
    ready := true, mapped := true, state := 4, stage := .done, failCode := 0, softCount := 0, pcActive := BitVec.ofNat 7 x.p
    readQ := [], writeQ := [] }

theorem exec_stackFillDone_fills {s : State} {k : StackId} (filling : s.hbm[k].stage = .fill) :
    exec (.stackFillDone k) s = .next (State.readyFrom (
      if s.stackNamed k then (s.stackFilled k).setSink (fieldOfStack k) (niOfStack k) false else s.stackFilled k) s) :=
  next_of_eq (if_pos filling)

/-- Opening the sink of a stack, or not, leaves memory and the stacks. -/
theorem stackJoined_rest (s : State) (f : FieldId) (ni : NiId) (b : Bool) :
    (if b then s.setSink f ni false else s).mem = s.mem ∧ (if b then s.setSink f ni false else s).hbm = s.hbm := by
  cases b
  · exact ⟨rfl, rfl⟩
  · exact ⟨State.setSink_mem s f ni false, State.setSink_hbm s f ni false⟩

/-- Settles O33, by what each of these commands comes to. -/
theorem stackTraining : Obligations.StackTraining := by
  unfold Obligations.StackTraining
  refine ⟨?attempt, ?portCheck, ?laneRepair, ?hardRepair, ?interface, ?channelCheck, ?fails, ?failsLast, ?fill, ?tierFill⟩
  case attempt =>
    intro s k start idle more
    exact ⟨_, next_of_eq (if_pos (by simpa [-Fin.getElem_fin, start, idle] using more)), State.modStack_self s k _⟩
  case portCheck =>
    intro s k w stage
    refine ⟨_, next_of_eq ?_, State.modStack_self s k fun x => { x with stage := .laneRepair }⟩
    rw [stage]
    exact if_pos rfl
  case laneRepair =>
    intro s k b w stage
    refine ⟨_, next_of_eq ?_, State.modStack_self s k fun x => { x with stage := .hardRepair, state := 2 }⟩
    rw [stage]
  case hardRepair =>
    intro s k b w stage
    refine ⟨(s.modFuse fun f => { f with hardRepair := vset f.hardRepair k [] }).modStack k fun x => { x with stage := .interface, state := 3 },
      next_of_eq ?_, State.modStack_self _ k _, vset_self s.fuse.hardRepair k []⟩
    rw [stage]
  case interface =>
    intro s k w stage
    refine ⟨_, next_of_eq ?_, State.modStack_self s k fun x =>
      { x with stage := .channelCheck, rate := if x.rate8g = true ∧ s.testUnlocked = true then 1 else 0 }⟩
    rw [stage]
    exact if_pos rfl
  case channelCheck =>
    intro s k b stage few
    refine ⟨_, next_of_eq ?_, State.modStack_self s k fun x => { x with stage := .fill }⟩
    rw [stage]
    exact channelCheck_passes few
  case fails =>
    intro s k w stage more
    refine ⟨_, next_of_eq ?_, State.modStack_self s k fun x => { x with stage := .idle }⟩
    rw [stage]
    exact (if_neg (by decide)).trans (attemptFails_more 1 more)
  case failsLast =>
    intro s k training last
    refine ⟨_, next_of_eq ((if_pos training).trans (if_pos last)), ?_⟩
    rw [thermal_hbmFail, State.failStack_fields]
    exact ⟨rfl, rfl, rfl, rfl, rfl⟩
  case fill =>
    intro s k filling
    obtain ⟨mem, hbm⟩ := stackJoined_rest (s.stackFilled k) (fieldOfStack k) (niOfStack k) (s.stackNamed k)
    refine ⟨_, exec_stackFillDone_fills filling, ?_⟩
    rw [State.readyFrom_mem, State.readyFrom_hbm, mem, hbm, State.stackFilled, State.modStack_self]
    exact ⟨rfl, rfl, rfl, rfl, rfl⟩
  case tierFill =>
    intro s f start empty
    refine ⟨_, next_of_eq (if_pos (by simp [-Fin.getElem_fin, start, empty])), ?_⟩
    rw [State.readyFrom_mem, State.readyFrom_fields]
    simp only [State.modFt, State.modField_fields, vmod_self]
    exact ⟨rfl, trivial⟩

end Sys2Proof.Machine
end

section
/-!
PROOFS. R141 to R152: skim, primer passes, the memory error log, and the retirement of pages and banks.
-/

namespace Sys2Proof.Machine

theorem State.modFt_self (s : State) (f : FieldId) (g : FtState → FtState) : (s.modFt f g).fields[f].ft = g s.fields[f].ft := by
  simp only [State.modFt, State.modField_fields, vmod_self]

theorem State.modPrimer_self (s : State) (n : Fin 8) (f : PrimerSlot → PrimerSlot) : (s.modPrimer n f).ras.primers[n] = f s.ras.primers[n] :=
  vmod_self s.ras.primers n f

/-- R143: GO of a slot that does not run. -/
theorem primerGo_refused {s : State} {n : Fin 8} {x : Word} {r : BitVec 4} (idle : s.ras.primers[n].state ≠ 1)
    (refused : s.primerReason s.ras.primers[n] (slice x 2 0) = some r) :
    s.primerGo n x = s.modPrimer n fun _ =>
      { s.ras.primers[n] with op := slice x 2 0, tint := asFin 16 (fld x.toNat 24 4), state := 3, reason := r } := by
  refine (if_neg idle).trans ?_
  rw [refused]

theorem primerGo_taken {s : State} {n : Fin 8} {x : Word} (idle : s.ras.primers[n].state ≠ 1)
    (taken : s.primerReason s.ras.primers[n] (slice x 2 0) = none) :
    s.primerGo n x = s.modPrimer n fun _ => { s.ras.primers[n] with
      op := slice x 2 0, tint := asFin 16 (fld x.toNat 24 4)
      state := 1, reason := 0, progress := 0, clean := 0, corrected := 0, uncorr := 0, marked := 0, unwritten := 0
      firstBad := 0xFFFFFFFFFFFFFFFF, runOp := slice x 2 0, runBase := s.ras.primers[n].base.toNat % 2 ^ 52
      runLength := s.ras.primers[n].length.toNat } := by
  refine (if_neg idle).trans ?_
  rw [taken]

/-- R144: what the next words of a pass leave of its slot, and of memory. -/
theorem primerRun_rest (s : State) (n : Fin 8) (m : Nat) (f : State → BitVec 52 → Nat → State) :
    (s.primerRun n m f).ras.primers[n].progress = s.ras.primers[n].progress + 64 * s.primerSpan n m ∧
      (s.primerRun n m f).mem = ((List.range (s.primerSpan n m)).foldl (fun t i =>
        f t (BitVec.ofNat 52 (s.ras.primers[n].runBase + s.ras.primers[n].progress + 64 * i)) i) s).mem := by
  unfold State.primerRun
  rw [State.modPrimer_self]
  exact ⟨rfl, rfl⟩

/-- R144, R145: the last word of a pass. -/
theorem primerRun_last {s : State} {n : Fin 8} (f : State → BitVec 52 → Nat → State)
    (last : s.ras.primers[n].runLength = s.ras.primers[n].progress + 64) :
    s.primerRun n 1 f = (f s (BitVec.ofNat 52 (s.ras.primers[n].runBase + s.ras.primers[n].progress)) 0).modPrimer n fun y =>
      { y with progress := s.ras.primers[n].progress + 64 } := by
  unfold State.primerRun
  dsimp only
  rw [last, lastWord]
  rfl

theorem primerWrite_at {s : State} {n : Fin 8} {pa : BitVec 52} {l : Loc} (w : CodeWord) (loc : s.primerLoc pa = some l) :
    s.primerWrite n pa w = (s.primerTally n l).putCode pa l w := by
  unfold State.primerWrite
  rw [loc]

/-- R151: a page whose retirement may begin. -/
theorem pageRetire_starts {s : State} {k : StackId} {x : Word} {pc : PcId} {g : Nat} (in_ : s.stackOut k = false) (magic : x >>> 24 = 0xC5)
    (idle : s.hbm[k].pageBusy = false) (channel : pc = asFin 64 (fld x.toNat 14 6)) (page : g = fld x.toNat 0 14)
    (active : s.hbm[k].pcActiveAt pc.val = true) (mapped : g < 15360)
    (fresh : (s.hbm[k].pages.any fun m => decide (m.pc = pc ∧ m.page = g)) = false)
    (room : (s.hbm[k].pages.countP fun m => decide (m.pc = pc)) < 60) :
    s.pageRetire k x = s.modStack k fun y => { y with pageBusy := true, pageReq := x, pageReqPc := some pc } := by
  subst channel page
  refine (if_neg (by simp [in_])).trans ((if_neg ?_).trans ((if_neg ?_).trans ((if_neg ?_).trans (if_neg (Nat.not_le.mpr room)))))
  · rintro (other | busy)
    · exact other magic
    · exact absurd busy (by rw [idle]; decide)
  · rintro (gone | beyond)
    · exact absurd gone (by rw [active]; decide)
    · exact absurd beyond (Nat.not_le.mpr mapped)
  · exact ne_true_of_eq_false fresh

/-- R152: a bank that may be retired, whether a spare is left or not. -/
theorem bankRetire_taken {s : State} {f : FieldId} {x : Word} {b : BankId} (in_ : s.fields[f].leftOut = false) (magic : x >>> 24 = 0xC5)
    (idle : s.fields[f].ft.retireBusy = false) (bank : b = asFin 64 (fld x.toNat 0 6)) (held : bit s.fields[f].ft.lost b.val = false)
    (open_ : bit s.fields[f].ft.fencedBanks b.val = false) :
    (∀ n, s.fields[f].ft.freeBank = some n →
      s.bankRetire f x = s.modFt f fun y => { y with retireBusy := true, retireBank := BitVec.ofNat 6 b.val }) ∧
    (s.fields[f].ft.freeBank = none → s.bankRetire f x = s.fenceBank f b) := by
  subst bank
  have misuse : ¬ (x >>> 24 ≠ 0xC5 ∨ s.fields[f].ft.retireBusy = true) := by
    rintro (other | busy)
    · exact other magic
    · exact absurd busy (by rw [idle]; decide)
  constructor
  · intro n spare
    refine (if_neg (by simp [-Fin.getElem_fin, in_])).trans ((if_neg misuse).trans ((if_neg (ne_true_of_eq_false held)).trans
      ((if_neg (ne_true_of_eq_false open_)).trans ?_)))
    rw [spare]
  · intro spent
    refine (if_neg (by simp [-Fin.getElem_fin, in_])).trans ((if_neg misuse).trans ((if_neg (ne_true_of_eq_false held)).trans
      ((if_neg (ne_true_of_eq_false open_)).trans ?_)))
    rw [spent]

theorem fenceBank_mem (s : State) (f : FieldId) (b : BankId) : (s.fenceBank f b).mem = s.mem := by
  simp only [State.fenceBank, State.modFt, State.modField_mem, State.logMem_mem, State.addPatch_mem, State.logFault_mem]

/-- Settles O34, by what each of these commands comes to. -/
theorem integrity : Obligations.Integrity := by
  unfold Obligations.Integrity
  refine ⟨?skimStrip, ?skimRow, ?starts, ?refused, ?zero, ?mark, ?check, ?summarise, ?zeroLast, ?markLast, ?checkLast, ?summariseLast,
    ?aborts, ?ends, ?pop, ?page, ?pageCopied, ?bank, ?bankFenced, ?bankCopied⟩
  case skimStrip =>
    intro s s₂ k er trained in_ paced read
    subst read
    refine ⟨_, next_of_eq (if_neg ?_), State.modStack_self _ k _, rfl, rfl⟩
    simp only [not_or]
    exact ⟨not_not_intro trained, by simp [in_], paced⟩
  case skimRow =>
    intro s s₂ f er ready in_ paced read
    subst read
    refine ⟨_, next_of_eq (if_neg ?_), State.modFt_self _ f _, rfl, rfl⟩
    simp only [not_or]
    exact ⟨by simp [-Fin.getElem_fin, ready], by simp [-Fin.getElem_fin, in_], paced⟩
  case starts =>
    intro s n x m open_ go idle taken
    refine ⟨_, next_of_eq ((if_pos go).trans ((State.byPf0_open _ open_).trans (primerGo_taken idle taken))), ?_⟩
    rw [State.modPrimer_self]
    exact ⟨rfl, rfl, rfl, rfl, rfl, rfl, rfl⟩
  case refused =>
    intro s n x m r open_ go idle refused
    refine ⟨_, next_of_eq ((if_pos go).trans ((State.byPf0_open _ open_).trans (primerGo_refused idle refused))), ?_⟩
    rw [State.modPrimer_self]
    exact ⟨rfl, rfl, rfl⟩
  case zero =>
    intro s n x m next_ runs
    exact ⟨_, next_of_eq ((if_neg (ne_true_of_eq_false next_)).trans (if_pos runs)), primerRun_rest s n m _⟩
  case mark =>
    intro s n x m next_ runs
    exact ⟨_, next_of_eq ((if_neg (ne_true_of_eq_false next_)).trans (if_pos runs)), primerRun_rest s n m _⟩
  case check =>
    intro s n x m er next_ runs
    exact ⟨_, next_of_eq ((if_neg (ne_true_of_eq_false next_)).trans (if_pos runs)), primerRun_rest s n m _⟩
  case summarise =>
    intro s n x m er next_ runs
    exact ⟨_, next_of_eq ((if_neg (ne_true_of_eq_false next_)).trans (if_pos runs)), primerRun_rest s n m _⟩
  case zeroLast =>
    intro s s₂ n x pa l next_ runs last addr loc stored_
    subst addr stored_
    refine ⟨_, next_of_eq ((if_neg (ne_true_of_eq_false next_)).trans ((if_pos runs).trans (primerRun_last _ last))), ?_⟩
    rw [State.modPrimer_self, primerWrite_at _ loc]
    exact ⟨rfl, rfl⟩
  case markLast =>
    intro s s₂ n x pa l next_ runs last addr loc stored_
    subst addr stored_
    refine ⟨_, next_of_eq ((if_neg (ne_true_of_eq_false next_)).trans ((if_pos runs).trans (primerRun_last _ last))), ?_⟩
    rw [State.modPrimer_self, primerWrite_at _ loc]
    exact ⟨rfl, rfl⟩
  case checkLast =>
    intro s s₂ n x pa er next_ runs last addr read
    subst addr read
    exact ⟨_, next_of_eq ((if_neg (ne_true_of_eq_false next_)).trans ((if_pos runs).trans (primerRun_last _ last))), rfl,
      State.modPrimer_self _ n _, rfl, rfl⟩
  case summariseLast =>
    intro s s₂ n x pa er next_ runs last addr read
    subst addr read
    exact ⟨_, next_of_eq ((if_neg (ne_true_of_eq_false next_)).trans ((if_pos runs).trans (primerRun_last _ last))), rfl,
      State.modPrimer_self _ n _, rfl, rfl⟩
  case aborts =>
    intro s n open_ runs
    exact ⟨_, next_of_eq ((State.byPf0_open _ open_).trans (if_pos runs)), State.modPrimer_self s n _⟩
  case ends =>
    intro s n runs over_
    exact ⟨_, next_of_eq (if_pos ⟨runs, over_⟩), State.modPrimer_self s n _⟩
  case pop =>
    intro s x open_
    exact ⟨_, next_of_eq (State.byPf0_open _ open_), rfl⟩
  case page =>
    intro s k x pc g open_ in_ magic idle channel page active mapped fresh room
    exact ⟨_, next_of_eq ((State.byPf0_open _ open_).trans (pageRetire_starts in_ magic idle channel page active mapped fresh room)),
      State.modStack_self s k _, rfl⟩
  case pageCopied =>
    intro s k pc busy channel
    subst channel
    refine ⟨_, next_of_eq (if_pos busy), ?_⟩
    rw [State.retirePage, State.modStack_self]
    exact ⟨rfl, rfl, List.mem_append_right _ (List.mem_singleton.mpr rfl)⟩
  case bank =>
    intro s f x b n open_ in_ magic idle bank held unfenced spare
    exact ⟨_, next_of_eq ((State.byPf0_open _ open_).trans ((bankRetire_taken in_ magic idle bank held unfenced).1 n spare)),
      State.modFt_self s f _, rfl⟩
  case bankFenced =>
    intro s f x b open_ in_ magic idle bank held unfenced spent
    refine ⟨_, next_of_eq ((State.byPf0_open _ open_).trans ((bankRetire_taken in_ magic idle bank held unfenced).2 spent)), ?_⟩
    rw [fenceBank_mem, State.fenceBank, State.modFt_self]
    exact ⟨rfl, rfl, bit_setBit_self _ _ b.isLt, rfl⟩
  case bankCopied =>
    intro s f n b busy spare bank
    subst bank
    refine ⟨s.replaceBank f (asFin 64 s.fields[f].ft.retireBank.toNat) n, next_of_eq ?_, ?_⟩
    · dsimp only
      rw [busy, spare]
    · rw [State.replaceBank, State.modFt_self]
      exact ⟨vset_self _ _ _, rfl, rfl, rfl⟩

end Sys2Proof.Machine
end

section
/-!
PROOFS. Requests, responses, timeouts and budget windows of the hub network.
-/

namespace Sys2Proof.Machine

/-! ## Injection, R205 -/

/-- R200, R201: what an injected request of a mover leaves: its promise does not hold. -/
def State.moverUnpromised (req : NetReq) (r : TxId × State) : State :=
  if req.mover then r.2.modTxn r.1 fun t => { t with promised := false } else r.2

theorem moverUnpromised_length (req : NetReq) (r : TxId × State) :
    (State.moverUnpromised req r).net.flight.length = r.2.net.flight.length := by
  unfold State.moverUnpromised
  split
  · exact modFirst_length _ _ _
  · rfl

/-- R200: the address that a request goes to. -/
def State.sentPa (s : State) (req : NetReq) : BitVec 52 :=
  match req.kind with
  | .read _ => s.nearCopy req.field req.pa
  | _ => req.pa

theorem exec_inject_sent (s : State) (req : NetReq) (r : TxId × State) (may : s.mayInject req = true)
    (sent : s.inject req.field req.ni req.tint req.panel (s.sentPa req) req.kind (s.ownerOf req) = some r) :
    exec (.networkRequestInject req) s = .next (State.moverUnpromised req r) := by
  refine next_of_eq ((if_pos may).trans ?_)
  show (match s.inject req.field req.ni req.tint req.panel (s.sentPa req) req.kind (s.ownerOf req) with
    | some r => State.moverUnpromised req r
    | none => _) = _
  rw [sent]

theorem exec_inject_held (s : State) (req : NetReq) (may : s.mayInject req = true)
    (sent : s.inject req.field req.ni req.tint req.panel (s.sentPa req) req.kind (s.ownerOf req) = none) :
    exec (.networkRequestInject req) s =
      .next (s.holdReq ⟨req.field, req.ni, req.tint, req.panel, s.sentPa req, req.kind, s.ownerOf req⟩) := by
  refine next_of_eq ((if_pos may).trans ?_)
  show (match s.inject req.field req.ni req.tint req.panel (s.sentPa req) req.kind (s.ownerOf req) with
    | some r => State.moverUnpromised req r
    | none => _) = _
  rw [sent]
  rfl

/-- R205: without a free tag nothing is injected. -/
theorem inject_none_of_freeTag (s : State) (f : FieldId) (ni : NiId) (tint : TintId) (p : Option PanelId) (pa : BitVec 52) (k : ReqKind) (o : TxOwner)
    (h : s.freeTag f ni (reqHigh k) = none) : s.inject f ni tint p pa k o = none := by
  unfold State.inject
  rw [h]
  rfl

/-! ## Delivery, R190 -/

/-- R197: counting at a point changes the counters alone. -/
theorem setCount_budgets (s : State) (c : BudgetCount) : ∃ b, s.setCount c = s.modNet fun net => { net with budgets := b } := by
  unfold State.setCount State.modNet
  dsimp only
  split
  · exact ⟨_, rfl⟩
  · exact ⟨_, rfl⟩

/-- The state of the network after a request within its budget has arrived at its target. -/
theorem arrival_within (s : State) (x : Txn) (g : FieldId) (mi : NiId) (n : Nat) (kind : x.kind = .read n) (txn : s.txn x.id = some x)
    (within : (s.tally g mi false x.tint n).1 = true) :
    ∃ net : NetState, (s.tallyTarget x g mi).stamp x.id = { s with net := net } ∧ net.sink = s.net.sink ∧
      State.txn { s with net := net } x.id = some { x with arrived := net.arrivals - 1 } := by
  have counted : ∃ b, s.tallyTarget x g mi = s.modNet fun net => { net with budgets := b } := by
    unfold State.tallyTarget
    split
    · exact ⟨s.net.budgets, rfl⟩
    · rw [kind]
      dsimp only [reqWords]
      rw [if_pos within]
      exact setCount_budgets s _
  obtain ⟨b, e⟩ := counted
  rw [e]
  exact ⟨_, rfl, rfl, modTxn_txn s x.id (fun t => { t with arrived := s.net.arrivals }) x (fun _ => rfl) txn⟩

/-- R105: a read at the local port of a memory target waits there. -/
theorem deliverAt_read (z : State) (y : Txn) (g : FieldId) (mi : NiId) (l : Loc) (n : Nat) (kind : y.kind = .read n)
    (memory : 13 ≤ mi.val ∧ mi.val < 16) (joined : z.isolated g mi = false) (loc : z.locate (y.pa &&& ~~~63#52) = some l)
    (open_ : z.locFenced l = false) : z.deliverAt y g mi = z.queueAtLoc y l := by
  have served : z.deliverMemory y = z.queueAtLoc y l := by
    unfold State.deliverMemory
    dsimp only
    rw [loc]
    refine (if_neg (ne_true_of_eq_false open_)).trans ?_
    rw [kind]
  have fresh : z.storedAnswer y g mi = none := by
    unfold State.storedAnswer
    rw [kind]
    rfl
  obtain ⟨lo, hi⟩ := memory
  unfold State.deliverAt
  refine (if_neg (ne_true_of_eq_false joined)).trans ?_
  rw [fresh]
  dsimp only
  rw [kind]
  dsimp only
  rw [if_neg (fun e => by subst e; revert hi; decide), if_neg (fun e => by subst e; revert hi; decide), if_neg (fun e => by subst e; revert hi; decide)]
  exact served

theorem exec_networkDelivery_read (s : State) (id : TxId) (x : Txn) (g : FieldId) (mi : NiId) (l : Loc) (n : Nat) (hops : List (Fin 10))
    (txn : s.txn id = some x) (stage : x.stage = .inFlight) (kind : x.kind = .read n) (dest : s.txDest x = some (g, mi))
    (memory : 13 ≤ mi.val ∧ mi.val < 16) (route : s.route x.id.field x.id.ni g mi = .ok hops) (joined : s.isolated g mi = false)
    (within : (s.tally g mi false x.tint n).1 = true) (loc : s.locate (x.pa &&& ~~~63#52) = some l) (open_ : s.locFenced l = false)
    (free : s.heldBack x = false) (room : s.queueFull x = false) :
    ∃ (net : NetState) (y : Txn), exec (.networkDelivery id) s = .next (State.queueAtLoc { s with net := net } y l) ∧
      y.id = id ∧ y.kind = .read n ∧ State.txn { s with net := net } id = some y := by
  have own : x.id = id := txn_id txn
  subst own
  obtain ⟨net, e, sink, now⟩ := arrival_within s x g mi n kind txn within
  refine ⟨net, { x with arrived := net.arrivals - 1 }, ?_, rfl, kind, now⟩
  refine next_of_eq ?_
  rw [txn]
  dsimp only
  rw [if_neg (not_not_intro stage), if_neg (by rw [free, room]; decide), dest]
  dsimp only
  rw [route]
  dsimp only
  rw [e, State.txnNow, now, Option.getD_some]
  refine deliverAt_read _ _ g mi l n kind memory ?_ loc open_
  unfold State.isolated at joined ⊢
  dsimp only
  rw [sink]
  exact joined

/-! ## Responses and timeouts, R207 to R209 -/

/-- R203, R341: what the checks of a response leave of the requests on their way. -/
theorem checkPromise_net (s : State) (t : Txn) (nclk : Nat) :
    ∃ b, (s.checkPromise t nclk).net = { s.net with budgets := b } := by
  unfold State.checkPromise
  split
  · exact ⟨s.net.budgets, rfl⟩
  · split
    · exact ⟨s.net.budgets, rfl⟩
    · split
      · rw [State.logFault_net]
        obtain ⟨b, e⟩ := setCount_budgets s { s.countOf t.id.field t.id.ni true t.tint with misses := satAdd (s.countOf t.id.field t.id.ni true t.tint).misses 1 }
        exact ⟨b, congrArg State.net e⟩
      · exact ⟨s.net.budgets, rfl⟩

theorem traceHeader_net (s : State) (t : Txn) (st : BitVec 3) (nclk : Nat) : (s.traceHeader t st nclk).net = s.net := by
  have _ : Fact (Piece.pnl ≠ .net) := ⟨by decide⟩
  have _ : Fact (Piece.out ≠ .net) := ⟨by decide⟩
  exact (State.traceHeader_leads (P := fun p => p ≠ .net) (.same s _) t st nclk).parts .net (by simp)

/-- A response without an owner leaves its NI, and only its tag may stay behind. -/
theorem exec_networkResponse_plain (s : State) (id : TxId) (x : Txn) (nclk : Nat) (g : FieldId × NiId) (hops : List (Fin 10))
    (txn : s.txn id = some x) (stage : x.stage = .answered) (late : x.late = false) (dest : s.txDest x = some g)
    (route : s.route g.1 g.2 id.field id.ni = .ok hops) (owner : x.owner = .none) (dups : x.dups = 0) :
    exec (.networkResponse id nclk) s =
      .next (((((s.checkPromise x nclk).traceHeader x x.status nclk).retireTag x).dropTxn x.id).releaseReqs) := by
  refine next_of_eq ?_
  rw [txn]
  dsimp only
  rw [if_neg (not_not_intro stage), if_neg (ne_true_of_eq_false late), dest, Option.getD_some, route]
  dsimp only
  rw [State.ownerDone, owner, State.closeTxn, if_neg (by rw [dups]; exact Nat.lt_irrefl 0)]

theorem networkResponse_net (s : State) (x : Txn) (nclk : Nat) :
    (((((s.checkPromise x nclk).traceHeader x x.status nclk).retireTag x).dropTxn x.id)).net.heldReqs = s.net.heldReqs ∧
    (((((s.checkPromise x nclk).traceHeader x x.status nclk).retireTag x).dropTxn x.id)).net.quarantine =
      if reqHigh x.kind then s.net.quarantine ++ [x.id] else s.net.quarantine := by
  obtain ⟨b, e⟩ := checkPromise_net s x nclk
  have n : ((s.checkPromise x nclk).traceHeader x x.status nclk).net = { s.net with budgets := b } := (traceHeader_net _ _ _ _).trans e
  unfold State.dropTxn State.retireTag
  rw [State.modNet_net]
  split
  · rw [State.modNet_net, n]
    exact ⟨rfl, rfl⟩
  · rw [n]
    exact ⟨rfl, rfl⟩

theorem exec_networkResponse_leaves (s : State) (id : TxId) (x : Txn) (nclk : Nat) (g : FieldId × NiId) (hops : List (Fin 10))
    (txn : s.txn id = some x) (stage : x.stage = .answered) (late : x.late = false) (dest : s.txDest x = some g)
    (route : s.route g.1 g.2 id.field id.ni = .ok hops) (owner : x.owner = .none) (dups : x.dups = 0) (none_held : s.net.heldReqs = []) :
    ∃ u, exec (.networkResponse id nclk) s = .next u ∧ u.txn id = none ∧
      u.net.quarantine = if reqHigh x.kind then s.net.quarantine ++ [x.id] else s.net.quarantine := by
  obtain ⟨held, tags⟩ := networkResponse_net s x nclk
  refine ⟨_, exec_networkResponse_plain s id x nclk g hops txn stage late dest route owner dups, ?_⟩
  rw [releaseReqs_none _ (held.trans none_held), ← txn_id txn]
  exact ⟨dropTxn_txn _ _, tags⟩

theorem exec_routerDiscard_way (s : State) (id : TxId) (x : Txn) (f : FieldId) (txn : s.txn id = some x)
    (stage : x.stage = .inFlight ∨ x.stage = .answered) :
    exec (.routerDiscard id f) s = .next (((s.modTxn id fun t => { t with stage := .lost }).modNet fun n =>
      { n with dropsRouter := satAdd n.dropsRouter 1 }).logFault
        { source := 8, panel := panelByte x.panel, element := BitVec.ofNat 32 (f.val * 256) }) := by
  refine next_of_eq ?_
  rw [txn]
  exact if_pos stage

/-- R207: the state in which a request that has timed out is marked late. -/
def State.leftLate (s : State) (id : TxId) (x : Txn) : State :=
  let g := (s.txDest x).getD (id.field, id.ni)
  ((((s.modNet fun n => { n with timeouts := satAdd n.timeouts 1, quarantine := n.quarantine ++ [id] }).logFault
    { source := 8, code := 3, panel := panelByte x.panel, element := niElement g.1 g.2 }).noteTimeout g.1 g.2).modTxn id
      fun t => { t with late := true })

theorem exec_transactionTimeout_late (s : State) (id : TxId) (x : Txn) (txn : s.txn id = some x) (late : x.late = false)
    (stage : x.stage ≠ .lost) (owner : x.owner = .none) : exec (.transactionTimeout id) s = .next (s.leftLate id x) := by
  refine next_of_eq ?_
  rw [txn]
  dsimp only
  rw [if_neg (ne_true_of_eq_false late), if_neg stage, State.ownerDone, owner]
  rfl

theorem leftLate_net (s : State) (id : TxId) (x : Txn) : ∃ h,
    (s.leftLate id x).net = { s.net with
      timeouts := satAdd s.net.timeouts 1, quarantine := s.net.quarantine ++ [id], timeoutHits := h
      flight := modFirst (fun t => t.id = id) (fun t => { t with late := true }) s.net.flight } := by
  refine ⟨(s.leftLate id x).net.timeoutHits, ?_⟩
  unfold State.leftLate State.modTxn State.noteTimeout
  simp only [State.modNet_net, State.logFault_net]

theorem leftLate_flog (s : State) (id : TxId) (x : Txn) (room : s.ras.flog.length < 1024) :
    (s.leftLate id x).ras.flog.length = s.ras.flog.length + 1 := by
  unfold State.leftLate State.modTxn State.noteTimeout
  dsimp only
  rw [State.modNet_ras, State.modNet_ras, logFault_flog (s.modNet _) _ room]
  exact List.length_append

theorem exec_atomicResend_more (s : State) (id : TxId) (x : Txn) (txn : s.txn id = some x) (high : reqHigh x.kind = true)
    (resends : x.resends < 2) (late : x.late = false) :
    exec (.atomicResend id) s = .next (s.modTxn id fun x => { x with
      resends := x.resends + 1, stage := if x.stage = .lost then .inFlight else x.stage
      copies := if x.stage = .lost then x.copies else x.copies + 1 }) := by
  refine next_of_eq ?_
  rw [txn]
  exact if_pos (by rw [high, late, decide_eq_true resends]; rfl)

/-! ## Kept answers, quarantined tags and budget windows -/

theorem dedup_expired (s : State) (f : FieldId) (ni : NiId) (id : TxId) :
    (s.modNet fun n => { n with dedup := n.dedup.filter fun e => !(e.field = f ∧ e.ni = ni ∧ e.id = id) }).dedupOf f ni id = none := by
  refine List.find?_eq_none.mpr fun e h => ?_
  have kept := (List.mem_filter.mp h).2
  simp only [Bool.not_eq_true', decide_eq_false_iff_not] at kept
  exact fun a => kept (of_decide_eq_true a)

theorem exec_tagQuarantineEnd_held (s : State) (id : TxId) (h : id ∈ s.net.quarantine) (none_held : s.net.heldReqs = []) :
    exec (.tagQuarantineEnd id) s = .next (s.modNet fun n => { n with
      quarantine := n.quarantine.filter fun i => i ≠ id, flight := n.flight.filter fun t => !(t.id = id ∧ t.late)
      heldReqs := [] }) := by
  refine next_of_eq ((if_pos h).trans ?_)
  exact releaseReqs_none _ none_held

/-- Settles O35, by what each of these commands comes to. -/
theorem network : Obligations.Network := by
  unfold Obligations.Network
  refine ⟨?inject, ?injectPlain, ?held, ?delivery, ?deliveryHbm, ?response, ?discard, ?timeout, ?resend, ?expiry, ?quarantine, ?window⟩
  case inject =>
    intro s req tag pa may free hpa hc
    obtain ⟨r, sent, len, -⟩ := inject_some s req.field req.ni req.tint req.panel pa req.kind (s.ownerOf req) tag free hc
    have to_ : pa = s.sentPa req := hpa
    exact ⟨_, exec_inject_sent s req r may (to_ ▸ sent), (moverUnpromised_length req r).trans len⟩
  case injectPlain =>
    intro s req tag pa may free hpa hc plain
    obtain ⟨r, sent, -, x, flight, own, kind, px, -, tint, stage, panel, demoted, injected⟩ :=
      inject_some s req.field req.ni req.tint req.panel pa req.kind (s.ownerOf req) tag free hc
    have to_ : pa = s.sentPa req := hpa
    have left : State.moverUnpromised req r = r.2 := if_neg (ne_true_of_eq_false plain)
    exact ⟨_, exec_inject_sent s req r may (to_ ▸ sent), x, left ▸ flight, own, kind, px, stage, tint, panel, demoted, injected⟩
  case held =>
    intro s req pa may free hpa
    have to_ : pa = s.sentPa req := hpa
    exact ⟨_, exec_inject_held s req may (inject_none_of_freeTag _ _ _ _ _ _ _ _ free), rfl, to_ ▸ rfl⟩
  case delivery =>
    intro s id x g mi l n hops txn stage kind dest memory route joined within loc open_ free room
    obtain ⟨net, y, e, own, -, now⟩ := exec_networkDelivery_read s id x g mi l n hops txn stage kind dest memory route joined within loc open_ free room
    subst own
    exact ⟨_, e, queueAtLoc_stage _ y l now⟩
  case deliveryHbm =>
    intro s id x g mi k pc sn wn n hops txn stage kind dest memory route joined within loc open_ free room
    obtain ⟨net, y, e, own, read, -⟩ := exec_networkDelivery_read s id x g mi _ n hops txn stage kind dest memory route joined within loc open_ free room
    subst own
    exact ⟨_, e, queueAtLoc_hbm { s with net := net } y k pc sn wn n read⟩
  case response =>
    intro s id x nclk g hops txn stage late dest route owner dups held
    exact exec_networkResponse_leaves s id x nclk g hops txn stage late dest route owner dups held
  case discard =>
    intro s id x f txn stage room
    refine ⟨_, exec_routerDiscard_way s id x f txn stage, ?_, ?_, ?_⟩
    · rw [txn_net (State.logFault_net _ _)]
      exact modTxn_txn s id (fun t => { t with stage := .lost }) x (fun _ => rfl) txn
    · rw [State.logFault_net]
      rfl
    · exact logFault_flog _ _ room
  case timeout =>
    intro s id x txn late stage owner room
    obtain ⟨h, e⟩ := leftLate_net s id x
    refine ⟨_, exec_transactionTimeout_late s id x txn late stage owner, ?_, by rw [e], by rw [e], leftLate_flog s id x room⟩
    rw [txn_flight (s := s.modTxn id fun t => { t with late := true }) (by rw [e]; rfl)]
    exact modTxn_txn s id (fun t => { t with late := true }) x (fun _ => rfl) txn
  case resend =>
    intro s id x txn high resends late
    exact ⟨_, exec_atomicResend_more s id x txn high resends late, modTxn_txn s id _ x (fun _ => rfl) txn⟩
  case expiry =>
    intro s f ni id
    exact ⟨_, rfl, dedup_expired s f ni id, fun e h other => List.mem_filter.mpr ⟨h, Bool.not_eq_true' _ ▸ decide_eq_false other⟩⟩
  case quarantine =>
    intro s id h held
    exact ⟨_, exec_tagQuarantineEnd_held s id h held, fun m => by simpa using (List.mem_filter.mp m).2,
      fun i m ne => List.mem_filter.mpr ⟨m, by simpa using ne⟩, fun x m other => List.mem_filter.mpr ⟨m, Bool.not_eq_true' _ ▸ decide_eq_false other⟩⟩
  case window =>
    intro s f ni injection c h point
    exact ⟨_, rfl, List.mem_map.mpr ⟨c, h, if_pos point⟩, List.length_map _⟩

end Sys2Proof.Machine
end

section
/-!
PROOFS. Lath links, the grout sink and isolation.
-/

namespace Sys2Proof.Machine

/-- A boundary's links after a change of them. -/
theorem State.modLath_self (s : State) (b : Fin 10) (f : LathState → LathState) : (s.modLath b f).net.lath[b] = f s.net.lath[b] :=
  vmod_self _ _ _

/-- R205: with no held request, a release changes no link. -/
theorem releaseReqs_lath (s : State) (h : s.net.heldReqs = []) : s.releaseReqs.net.lath = s.net.lath ∧ s.releaseReqs.out = s.out := by
  rw [releaseReqs_none s h]
  exact ⟨rfl, rfl⟩

/-! ## Flits, R184 and R191 -/

theorem exec_trunkHashChange_empty (s : State) (b : Fin 10) (empty : (s.net.lath[b].lanes.all fun l => decide (l.buffer = [])) = true) :
    exec (.trunkHashChange b) s = .next ((s.modLath b fun x => { x with hashSet := x.inService }).releaseReqs) :=
  next_of_eq (if_pos empty)

theorem exec_lathFlitReceive_next (s : State) (b : Fin 10) (link : Fin 34) (dir : LathDir) (seq : BitVec 12)
    (up : bit s.net.lath[b].inService link.val = true) (next : seq = (s.net.lath[b].lane link dir).expect)
    (waits : ((s.net.lath[b].lane link dir).buffer.any fun e => decide (e.1 = seq)) = true) :
    exec (.lathFlitReceive b link dir seq true) s = .next (((s.modLath b fun y => y.setLane { s.net.lath[b].lane link dir with
      expect := seq + 1, buffer := (s.net.lath[b].lane link dir).buffer.filter fun e => decide (e.1 ≠ seq), rounds := 0 }).emit
        (.lathAck b link dir seq)).releaseReqs) := by
  refine next_of_eq (if_neg ?_)
  rw [up, waits, decide_eq_false (not_not_intro next)]
  decide

/-- The state after the flits of a link have been sent again. -/
def State.resentFlits (s : State) (b : Fin 10) (link : Fin 34) (dir : LathDir) : State :=
  let l := s.net.lath[b].lane link dir
  ((s.modLath b fun y => { y.setLane { l with rounds := l.rounds + 1 } with replays := satAdd y.replays 1 }).modNet
    fun n => { n with
      flight := n.flight.map fun t => if (l.buffer.any fun e => e.2 = t.id) then { t with excused := true } else t }).emit (.lathReplay b link dir)

theorem exec_lathReplay_round (s : State) (b : Fin 10) (link : Fin 34) (dir : LathDir) (up : bit s.net.lath[b].inService link.val = true)
    (rounds : (s.net.lath[b].lane link dir).rounds < 8) (waits : (s.net.lath[b].lane link dir).buffer ≠ []) :
    exec (.lathReplay b link dir) s = .next (s.resentFlits b link dir) := by
  refine next_of_eq (if_neg ?_)
  rw [up, decide_eq_false (Nat.not_le.mpr rounds), decide_eq_false waits]
  decide

theorem resentFlits_replays (s : State) (b : Fin 10) (link : Fin 34) (dir : LathDir) :
    (s.resentFlits b link dir).net.lath[b].replays = satAdd s.net.lath[b].replays 1 :=
  congrArg LathState.replays (State.modLath_self s b _)

/-! ## Links retired and spares, R192 -/

/-- R192: the state of a boundary whose link is retired onto a spare. -/
def LathState.spared (y : LathState) (link : Fin 34) (sp : Nat) : LathState :=
  { y with
    inService := setBit y.inService link.val false, spare := setBit y.spare sp false, training := setBit y.training sp true
    lanes := y.lanes.map fun l => if l.link = link then { l with link := asFin 34 sp, rounds := 0 } else l }

theorem exec_lathLinkRetire_spare (s : State) (b : Fin 10) (link : Fin 34) (sp : Nat) (up : bit s.net.lath[b].inService link.val = true)
    (worn : (s.net.lath[b].lanes.any fun l => l.link = link && decide (8 ≤ l.rounds)) = true)
    (spare : (onBits s.net.lath[b].spare).head? = some sp) :
    exec (.lathLinkRetire b link) s = .next (((s.logFault
      { cls := 2, source := 7, element := lathElement b link.val, patch := s.nextPatch }).addPatch 6 0 (lathElement b link.val)
        (lathElement b sp)).modLath b fun y => { y.spared link sp with
          inService := setBit s.net.lath[b].inService link.val false }) := by
  refine next_of_eq ((if_neg ?_).trans ?_)
  · rw [up, worn]
    decide
  · dsimp only
    rw [spare]
    rfl

theorem exec_lathSpareInService_trained (s : State) (b : Fin 10) (link : Fin 34) (h : bit s.net.lath[b].training link.val = true) :
    exec (.lathSpareInService b link) s = .next (s.modLath b fun x => { x with
      training := setBit x.training link.val false, inService := setBit x.inService link.val true }) :=
  next_of_eq (if_pos h)

/-! ## The grout sink and isolation, R210 and R211 -/

theorem exec_groutSinkAnswer_way (s : State) (id : TxId) (x : Txn) (g : FieldId) (mi : NiId) (txn : s.txn id = some x)
    (stage : x.stage = .inFlight) (dest : s.txDest x = some (g, mi)) (sunk : s.isolated g mi = true) :
    exec (.groutSinkAnswer id) s = .next (s.refuseTxn x 1) := by
  refine next_of_eq ?_
  rw [txn]
  dsimp only
  rw [stage, dest]
  exact if_pos sunk

/-- R211: the isolation of an NI that is neither an array's nor a site's. -/
theorem isolateNi_plain (s : State) (f : FieldId) (ni : NiId) (joined : s.isolated f ni = false) (plain : arrayOfNi f ni = none) (site : ni ≠ 16) :
    s.isolateNi f ni = (((s.setSink f ni true).stackSunk f ni).logFault { cls := 4, source := 8, element := niElement f ni }).readyFrom s := by
  unfold State.isolateNi
  rw [plain]
  exact (if_neg (ne_true_of_eq_false joined)).trans (if_neg fun h => site h.1)

/-- R211: what the isolation of such an NI leaves; `s` is the state with the fault log and the clock before it. -/
theorem isolateNi_recorded (s z : State) (f : FieldId) (ni : NiId) (same : z.ras = s.ras ∧ z.sclk = s.sclk) (joined : z.isolated f ni = false)
    (plain : arrayOfNi f ni = none) (site : ni ≠ 16) (room : s.ras.flog.length < 1024) :
    bit (z.isolateNi f ni).net.sink[f] ni.val = true ∧
      (z.isolateNi f ni).ras.flog = s.ras.flog ++ [faultEntry { cls := 4, source := 8, element := niElement f ni } s.now] ∧
      (z.isolateNi f ni).net.timeoutHits = z.net.timeoutHits := by
  rw [isolateNi_plain z f ni joined plain site]
  exact ⟨isolate_bit z f ni, isolate_flog s z f ni same room, isolate_hits z z f ni _⟩

theorem exec_timeoutIsolation_due (s : State) (f : FieldId) (ni : NiId) (due : s.timeoutsDue f ni = true) :
    exec (.timeoutIsolation f ni) s =
      .next ((s.modNet fun n => { n with timeoutHits := n.timeoutHits.filter fun h => h.1 ≠ 32 * f.val + ni.val }).isolateNi f ni) :=
  next_of_eq (if_pos due)

theorem exec_netIsolate_key (s : State) (value : Word) (open_ : (s.pf0Open 0 || s.pf0Open 1) = true) (key : value >>> 24 = 0xC5)
    (ni : ¬ (19 ≤ (asFin 32 (fld value.toNat 0 5)).val ∧ (asFin 32 (fld value.toNat 0 5)).val ≤ 22)) :
    exec (.netIsolate value) s = .next (s.isolateNi (asFin 8 (fld value.toNat 8 3)) (asFin 32 (fld value.toNat 0 5))) := by
  refine next_of_eq ((State.byPf0_open _ open_).trans (if_neg ?_))
  rintro (a | b)
  · exact a key
  · exact ni b

/-- Settles O36, by what each of these commands comes to. -/
theorem lathLinks_hold : Obligations.LathLinks := by
  unfold Obligations.LathLinks
  refine ⟨?hash, ?flit, ?replay, ?retire, ?spare, ?sink, ?timeouts, ?operator⟩
  case hash =>
    intro s b empty held
    refine ⟨_, exec_trunkHashChange_empty s b empty, ?_⟩
    rw [(releaseReqs_lath (s.modLath b _) held).1]
    exact State.modLath_self s b _
  case flit =>
    intro s b link dir seq up next waits held
    refine ⟨_, exec_lathFlitReceive_next s b link dir seq up next waits, ?_⟩
    obtain ⟨lath, out⟩ := releaseReqs_lath ((s.modLath b fun y => y.setLane { s.net.lath[b].lane link dir with
      expect := seq + 1, buffer := (s.net.lath[b].lane link dir).buffer.filter fun e => decide (e.1 ≠ seq), rounds := 0 }).emit
        (.lathAck b link dir seq)) held
    rw [lath, out]
    exact ⟨State.modLath_self s b _, rfl⟩
  case replay =>
    intro s b link dir up rounds waits
    exact ⟨_, exec_lathReplay_round s b link dir up rounds waits, resentFlits_replays s b link dir, rfl⟩
  case retire =>
    intro s b link sp up worn spare room
    refine ⟨_, exec_lathLinkRetire_spare s b link sp up worn spare, ?_⟩
    rw [State.modLath_self]
    refine ⟨rfl, ?_, ?_, ?_, ?_⟩
    · exact congrArg (fun n : NetState => setBit n.lath[b].spare sp false) (State.logFault_net s _)
    · exact congrArg (fun n : NetState => setBit n.lath[b].training sp true) (State.logFault_net s _)
    · show (_ ++ [_]).length = _
      rw [logFault_patches]
      exact List.length_append
    · exact logFault_flog s _ room
  case spare =>
    intro s b link h
    exact ⟨_, exec_lathSpareInService_trained s b link h, State.modLath_self s b _⟩
  case sink =>
    intro s id x g mi txn stage dest sunk
    refine ⟨_, exec_groutSinkAnswer_way s id x g mi txn stage dest sunk, ?_⟩
    have own : x.id = id := txn_id txn
    subst own
    exact answerTxn_txn s x.id 1 _ x txn
  case timeouts =>
    intro s f ni due joined plain site room
    obtain ⟨sunk, flog, hits⟩ := isolateNi_recorded s
      (s.modNet fun n => { n with timeoutHits := n.timeoutHits.filter fun h => h.1 ≠ 32 * f.val + ni.val }) f ni ⟨rfl, rfl⟩ joined plain site room
    refine ⟨_, exec_timeoutIsolation_due s f ni due, sunk, flog, fun h m => ?_⟩
    rw [hits] at m
    simpa using (List.mem_filter.mp m).2
  case operator =>
    intro s value f ni open_ key hf hni other joined plain site room
    subst hf hni
    obtain ⟨sunk, flog, -⟩ := isolateNi_recorded s s _ _ ⟨rfl, rfl⟩ joined plain site room
    exact ⟨_, exec_netIsolate_key s value open_ key other, sunk, flog⟩

end Sys2Proof.Machine
end

section
/-!
PROOFS. Coherence requests at the home of a line that no agent holds.
-/

namespace Sys2Proof.Machine

/-! ## The home's action, a request at a time (R225, R226) -/

section finish

variable {x : State} {f : FieldId} {line : Nat} {b : Blocked} (at_ : x.coh.slices[f].blockedAt line = some b)
include at_

theorem finishCoh_rdS {a : AgentId} {sh : Bool} (req : b.req = .rdS a sh) (alone : x.coh.slices[f].entry line = none) (clean : b.gotDirty = false) :
    x.finishCoh f line = (x.homeData f line b).2.complete f line a b (x.uncachedGrant a sh) (some (x.homeData f line b).1)
      (soleEntry line a (x.uncachedGrant a sh)) := by
  unfold State.finishCoh
  rw [at_]
  dsimp only
  rw [req]
  dsimp only
  rw [alone, clean]
  unfold State.rdsGrant
  dsimp only
  rw [if_neg (by decide), keepF_none]

theorem finishCoh_rdX {a : AgentId} (req : b.req = .rdX a) (clean : b.gotDirty = false) :
    x.finishCoh f line = (x.homeData f line b).2.complete f line a b .e (some (x.homeData f line b).1) (soleEntry line a .e) := by
  unfold State.finishCoh
  rw [at_]
  dsimp only
  rw [req]
  dsimp only
  rw [clean, if_neg (by decide)]

theorem finishCoh_upg {a : AgentId} (req : b.req = .upg a) (alone : x.coh.slices[f].entry line = none) (clean : b.gotDirty = false) :
    x.finishCoh f line = (x.homeData f line b).2.complete f line a b .e (some (x.homeData f line b).1) (soleEntry line a .e) := by
  unfold State.finishCoh
  rw [at_]
  dsimp only
  rw [req]
  dsimp only
  rw [alone]
  dsimp only [Option.map_none]
  rw [clean, if_neg (by decide)]

theorem finishCoh_invX {a : AgentId} (req : b.req = .invX a) :
    x.finishCoh f line = (x.homeStore f line b).complete f line a b .e none (soleEntry line a .e) := by
  unfold State.finishCoh
  rw [at_]
  dsimp only
  rw [req]

theorem finishCoh_rdC {id : TxId} (req : b.req = .rdC id) :
    x.finishCoh f line = (x.homeData f line b).2.completePlain f line b id 0 [(x.homeData f line b).1] := by
  unfold State.finishCoh
  rw [at_]
  dsimp only
  rw [req]

theorem finishCoh_wrL {id : TxId} {w : CodeWord} (req : b.req = .wrL id w) :
    x.finishCoh f line = ((x.homeWrite f b.src.tint line w).2.modSlice f fun y => y.drop line).completePlain f line b id
      (x.homeWrite f b.src.tint line w).1 [] := by
  unfold State.finishCoh
  rw [at_]
  dsimp only
  rw [req]

theorem finishCoh_flushL {id : TxId} (req : b.req = .flushL id) :
    x.finishCoh f line = ((x.homeStore f line b).modSlice f fun y => y.drop line).completePlain f line b id 0 [] := by
  unfold State.finishCoh
  rw [at_]
  dsimp only
  rw [req]

/-- R135, R225: an atomic at the home, with the mark of its transaction. -/
theorem finishCoh_atomic {id : TxId} {op : AtomicOp} {off : Fin 64} {operand cmp : DWord} {m : Bool} {t : Txn}
    (req : b.req = .atomic id op off operand cmp) (none_brought : b.gotData = none) (txn : x.txn id = some t) (kind : t.kind = .atomic op off operand cmp m) :
    ∃ r, r = (x.modSlice f fun y => y.drop line).homeAtomic f b.src.tint line op off.val operand.toNat cmp.toNat m ∧
      x.finishCoh f line =
        ((r.2.completePlain f line b id r.1.status [r.1.word]).remember f 17 id r.1.status [r.1.word]).unblock f line := by
  refine ⟨_, rfl, ?_⟩
  have stored : x.homeStore f line b = x := by
    unfold State.homeStore
    rw [none_brought]
  have marked : ((x.modSlice f fun y => y.drop line).txn id) = some t := txn
  unfold State.finishCoh
  rw [at_]
  dsimp only
  rw [req]
  dsimp only
  rw [stored, marked]
  dsimp only [Option.any_some]
  rw [kind]

end finish

/-- A fresh line's data comes from memory, and nothing of it goes there. -/
theorem homeData_fresh (s : State) (f : FieldId) (line : Nat) (req : CohReq) (src : CohFrom) :
    s.homeData f line (freshBlocked line req src) = ((s.homeRead f src.tint line).1.word, (s.homeRead f src.tint line).2) := rfl

theorem homeStore_fresh (s : State) (f : FieldId) (line : Nat) (req : CohReq) (src : CohFrom) :
    s.homeStore f line (freshBlocked line req src) = s := rfl

theorem homeRead_txn (s : State) (f : FieldId) (t : TintId) (line : Nat) : (s.homeRead f t line).2.txn = s.txn :=
  txn_flight (fetchCode_flight _ _ _ _ _ _)

theorem homeWrite_txn (s : State) (f : FieldId) (t : TintId) (line : Nat) (w : CodeWord) : (s.homeWrite f t line w).2.txn = s.txn :=
  txn_flight (storeCode_flight _ _ _ _ _ _)

/-! ## Requests of caching agents -/

/-- An agent's request that its home grants at once. -/
theorem agentRequest_granted (s : State) (a : AgentId) (pa : BitVec 52) (req : CohReq) (src : CohFrom) (st : AgentLine)
    (may : s.agentMaySend a pa = true) (wants : s.wants a pa req = true)
    (way : (s.counted (agentNi a) (s.homeOf pa, 17) src.tint (cohWords req)).wayOut (agentNi a) (s.homeOf pa, 17) = none)
    (clear : s.clearLine (s.homeOf pa) (lineOf pa) req = true)
    (finish : ∀ z : State, z.clearLine (s.homeOf pa) (lineOf pa) req = true →
      ∃ (y : State) (b : Blocked) (w : Option CodeWord), y.coh = (z.blockLine (s.homeOf pa) (lineOf pa) req src).coh ∧
        (z.blockLine (s.homeOf pa) (lineOf pa) req src).finishCoh (s.homeOf pa) (lineOf pa) =
          y.complete (s.homeOf pa) (lineOf pa) a b st w (soleEntry (lineOf pa) a st)) :
    (s.agentRequest a pa req src).coh.slices[s.homeOf pa].entry (lineOf pa) = some (soleEntry (lineOf pa) a st) ∧
      ((s.agentRequest a pa req src).coh.slices[s.homeOf pa].blockedAt (lineOf pa)).bind (·.granted) = some st := by
  have coh : (s.counted (agentNi a) (s.homeOf pa, 17) src.tint (cohWords req)).coh = s.coh := State.counted_coh _ _ _ _ _
  have clear' := (clearLine_coh coh _ _ _).trans clear
  have alive := (agentDead_coh coh a).trans (maySend_alive may)
  obtain ⟨t, e, granted⟩ := request_granted _ _ _ req src a st clear' alive (finish _ clear')
  rw [agentRequest_home src may wants way, e]
  exact granted

theorem finish_rdS (z : State) (f : FieldId) (line : Nat) (a : AgentId) (src : CohFrom) (s : State) (clear : z.clearLine f line (.rdS a false) = true) :
    ∃ (y : State) (b : Blocked) (w : Option CodeWord), y.coh = (z.blockLine f line (.rdS a false) src).coh ∧
      (z.blockLine f line (.rdS a false) src).finishCoh f line = y.complete f line a b (s.uncachedGrant a false) w (soleEntry line a (s.uncachedGrant a false)) := by
  rw [uncachedGrant_any s (z.blockLine f line (.rdS a false) src)]
  exact ⟨_, _, _, homeData_dead _ _ _ _, finishCoh_rdS (blockLine_at z f line _ src clear) rfl (blockLine_entry z f line _ src clear) rfl⟩

theorem finish_rdX (z : State) (f : FieldId) (line : Nat) (a : AgentId) (src : CohFrom) (clear : z.clearLine f line (.rdX a) = true) :
    ∃ (y : State) (b : Blocked) (w : Option CodeWord), y.coh = (z.blockLine f line (.rdX a) src).coh ∧
      (z.blockLine f line (.rdX a) src).finishCoh f line = y.complete f line a b .e w (soleEntry line a .e) :=
  ⟨_, _, _, homeData_dead _ _ _ _, finishCoh_rdX (blockLine_at z f line _ src clear) rfl rfl⟩

theorem finish_upg (z : State) (f : FieldId) (line : Nat) (a : AgentId) (src : CohFrom) (clear : z.clearLine f line (.upg a) = true) :
    ∃ (y : State) (b : Blocked) (w : Option CodeWord), y.coh = (z.blockLine f line (.upg a) src).coh ∧
      (z.blockLine f line (.upg a) src).finishCoh f line = y.complete f line a b .e w (soleEntry line a .e) :=
  ⟨_, _, _, homeData_dead _ _ _ _, finishCoh_upg (blockLine_at z f line _ src clear) rfl (blockLine_entry z f line _ src clear) rfl⟩

theorem finish_invX (z : State) (f : FieldId) (line : Nat) (a : AgentId) (src : CohFrom) (clear : z.clearLine f line (.invX a) = true) :
    ∃ (y : State) (b : Blocked) (w : Option CodeWord), y.coh = (z.blockLine f line (.invX a) src).coh ∧
      (z.blockLine f line (.invX a) src).finishCoh f line = y.complete f line a b .e w (soleEntry line a .e) :=
  ⟨_, _, _, homeStore_dead _ _ _ _, finishCoh_invX (blockLine_at z f line _ src clear) rfl⟩

theorem hubRequest_hub (s : State) (a : AgentId) (pa : BitVec 52) (req : CohReq) (tint : TintId) (hub : a.val < 48) :
    s.hubRequest a pa req tint = s.agentRequest a pa req (hubFrom tint) := if_pos hub

theorem ownerRequest_field (s : State) (a : AgentId) (pa : BitVec 52) (req : CohReq) (tint : TintId) (owner : ¬ a.val < 40) (hub : a.val < 48) :
    s.ownerRequest a pa req tint = s.agentRequest a pa req (hubFrom tint) := (if_neg owner).trans (if_pos hub)

/-! ## Requests of transactions -/

/-- A request of a transaction that its home takes up at once. -/
theorem plainRequest_clear (s : State) (id : TxId) (pa : BitVec 52) (req : CohReq) (x : Txn) (joined : s.isolated (s.homeOf pa) 17 = false)
    (coherent : (s.coherentPanel pa).isSome = true) (clear : s.clearLine (s.homeOf pa) (lineOf pa) req = true) (txn : s.txn id = some x) :
    s.plainRequest id pa req (s.plainFrom id) =
      ((s.blockLine (s.homeOf pa) (lineOf pa) req (hubFrom x.tint)).finishCoh (s.homeOf pa) (lineOf pa)).pump (s.homeOf pa) := by
  have src : s.plainFrom id = hubFrom x.tint := by
    unfold State.plainFrom
    rw [txn]
    rfl
  rw [src]
  unfold State.plainRequest
  exact (if_neg (ne_true_of_eq_false joined)).trans ((if_pos coherent).trans (requestCoh_clear s _ _ req _ clear))

section plain

variable (s : State) (f : FieldId) (line : Nat) (id : TxId) (t : TintId) (x : Txn) (txn : s.txn id = some x)
include txn

theorem finish_rdC (clear : s.clearLine f line (.rdC id) = true) :
    (((s.blockLine f line (.rdC id) (hubFrom t)).finishCoh f line).pump f).mem =
      ((s.blockLine f line (.rdC id) (hubFrom t)).homeRead f t line).2.mem ∧
    (((s.blockLine f line (.rdC id) (hubFrom t)).finishCoh f line).pump f).txn id =
      some { x with stage := .answered, status := 0, data := [((s.blockLine f line (.rdC id) (hubFrom t)).homeRead f t line).1.word] } := by
  rw [finishCoh_rdC (blockLine_at s f line _ _ clear) rfl, homeData_fresh]
  obtain ⟨answered, mem⟩ := completePlain_slice ((s.blockLine f line (.rdC id) (hubFrom t)).homeRead f t line).2 f line
    (freshBlocked line (.rdC id) (hubFrom t)) id 0 [((s.blockLine f line (.rdC id) (hubFrom t)).homeRead f t line).1.word] x rfl
    ((congrArg (fun c : CohState => c.slices[f].waiting) (State.homeRead_coh _ f t line)).trans (blockLine_waiting s f line _ _ clear))
    ((congrFun (homeRead_txn _ f t line) id).trans txn)
  exact ⟨mem, answered⟩

theorem finish_wrL (w : CodeWord) (clear : s.clearLine f line (.wrL id w) = true) :
    (((s.blockLine f line (.wrL id w) (hubFrom t)).finishCoh f line).pump f).mem =
      ((s.blockLine f line (.wrL id w) (hubFrom t)).homeWrite f t line w).2.mem ∧
    (((s.blockLine f line (.wrL id w) (hubFrom t)).finishCoh f line).pump f).txn id =
      some { x with stage := .answered, status := ((s.blockLine f line (.wrL id w) (hubFrom t)).homeWrite f t line w).1, data := [] } := by
  rw [finishCoh_wrL (blockLine_at s f line _ _ clear) rfl]
  have calm : (((s.blockLine f line (.wrL id w) (hubFrom t)).homeWrite f t line w).2.modSlice f fun y => y.drop line).coh.slices[f].waiting = [] := by
    rw [modSlice_self, State.homeWrite_coh]
    exact blockLine_waiting s f line _ _ clear
  obtain ⟨answered, mem⟩ := completePlain_slice
    (((s.blockLine f line (.wrL id w) (hubFrom t)).homeWrite f t line w).2.modSlice f fun y => y.drop line) f line
    (freshBlocked line (.wrL id w) (hubFrom t)) id ((s.blockLine f line (.wrL id w) (hubFrom t)).homeWrite f t line w).1 [] x rfl calm
    ((congrFun (homeWrite_txn _ f t line w) id).trans txn)
  exact ⟨mem, answered⟩

theorem finish_flushL (clear : s.clearLine f line (.flushL id) = true) :
    (((s.blockLine f line (.flushL id) (hubFrom t)).finishCoh f line).pump f).mem = s.mem ∧
    (((s.blockLine f line (.flushL id) (hubFrom t)).finishCoh f line).pump f).txn id =
      some { x with stage := .answered, status := 0, data := [] } := by
  rw [finishCoh_flushL (blockLine_at s f line _ _ clear) rfl, homeStore_fresh]
  have calm : ((s.blockLine f line (.flushL id) (hubFrom t)).modSlice f fun y => y.drop line).coh.slices[f].waiting = [] := by
    rw [modSlice_self]
    exact blockLine_waiting s f line _ _ clear
  obtain ⟨answered, mem⟩ := completePlain_slice ((s.blockLine f line (.flushL id) (hubFrom t)).modSlice f fun y => y.drop line) f line
    (freshBlocked line (.flushL id) (hubFrom t)) id 0 [] x rfl calm txn
  exact ⟨mem, answered⟩

omit txn in
/-- R208: an answer kept and a line freed change no transaction. -/
theorem remember_unblock_txn (ni : NiId) (st : BitVec 3) (d : List CodeWord) : ((s.remember f ni id st d).unblock f line).txn = s.txn := rfl

omit txn in
/-- R208: nor a slice's queue. -/
theorem remember_unblock_waiting (ni : NiId) (st : BitVec 3) (d : List CodeWord) :
    ((s.remember f ni id st d).unblock f line).coh.slices[f].waiting = s.coh.slices[f].waiting := by
  unfold State.unblock
  rw [modSlice_self]
  rfl

/-- What the home leaves of an atomic: the answer of memory, kept for a copy of the request, and the line free. -/
theorem finish_atomic (op : AtomicOp) (off : Fin 64) (operand cmp : DWord) (m : Bool) (kind : x.kind = .atomic op off operand cmp m)
    (clear : s.clearLine f line (.atomic id op off operand cmp) = true) :
    ∃ r, r = ((s.blockLine f line (.atomic id op off operand cmp) (hubFrom t)).modSlice f fun y => y.drop line).homeAtomic f t line op off.val
        operand.toNat cmp.toNat m ∧
      (((s.blockLine f line (.atomic id op off operand cmp) (hubFrom t)).finishCoh f line).pump f).mem = r.2.mem ∧
      (((s.blockLine f line (.atomic id op off operand cmp) (hubFrom t)).finishCoh f line).pump f).txn id =
        some { x with stage := .answered, status := r.1.status, data := [r.1.word] } ∧
      (((s.blockLine f line (.atomic id op off operand cmp) (hubFrom t)).finishCoh f line).pump f).coh.slices[f].blockedAt line = none := by
  obtain ⟨r, hr, e⟩ := finishCoh_atomic (m := m) (blockLine_at s f line _ (hubFrom t) clear) rfl rfl (t := x) txn kind
  refine ⟨r, hr, ?_⟩
  have here : r.2.txn id = some x := by
    rw [hr]
    exact (congrFun (txn_flight (homeAtomic_flight _ _ _ _ _ _ _ _ _)) id).trans txn
  have waits : r.2.coh.slices[f].waiting = [] := by
    rw [hr, State.homeAtomic_coh, modSlice_self]
    exact blockLine_waiting s f line _ _ clear
  rw [e, answer_plain _ _ _ _ _ _ _ rfl, pump_nil]
  · refine ⟨rfl, ?_, ?_⟩
    · rw [remember_unblock_txn]
      exact answerTxn_txn _ id _ _ x here
    · unfold State.unblock
      rw [modSlice_self]
      exact blockedAt_drop _ line
  · rw [remember_unblock_waiting, State.answerTxn_coh, modSlice_self]
    exact waits

end plain

theorem exec_cohAtomic_new (s : State) (id : TxId) (pa : BitVec 52) (op : AtomicOp) (off : Fin 64) (operand cmp : DWord)
    (fresh : s.dedupOf (s.homeOf pa) 17 id = none) :
    exec (.cohAtomic id pa op off operand cmp) s = .next (s.plainRequest id pa (.atomic id op off operand cmp) (s.plainFrom id)) := by
  refine next_of_eq ?_
  rw [fresh]

/-! ## Clean evictions, R232 -/

theorem exec_cohEvc_taken (s : State) (a : AgentId) (pa : BitVec 52) (cxl : s.isCxl a = true) (up : s.sites[agentSite a].state = 3)
    (may : s.cxlMay (agentSite a) pa = true) : exec (.cohEvc a pa) s = .next (s.cleanEvict a pa) :=
  next_of_eq (if_pos (by rw [cxl, may, decide_eq_true up]; rfl))

theorem exec_cxlCacheRequest_cleanEvict (s : State) (n : SiteId) (pa : BitVec 52) (w : CodeWord) (tag : BitVec 12) (up : s.sites[n].state = 3)
    (may : s.cxlMay n pa = true) :
    exec (.cxlCacheRequest n .cleanEvict pa w tag) s = .next ((s.cleanEvict (s.cxlAgent n) pa).emit (.cxlAnswer n cxlWritePullDrop none)) :=
  next_of_eq ((if_neg (not_not_intro up)).trans (if_neg (by rw [may]; decide)))

/-- Settles O37, by what each of these commands comes to. -/
theorem coherenceRequests : Obligations.CoherenceRequests := by
  unfold Obligations.CoherenceRequests
  refine ⟨?rds, ?rdx, ?upg, ?invx, ?rdc, ?wrl, ?flushl, ?atomic, ?evc, ?cxl⟩
  case rds =>
    intro s a pa tint hub may wants way clear
    exact ⟨_, next_of_eq (hubRequest_hub s a pa _ tint hub), agentRequest_granted s a pa _ (hubFrom tint) _ may wants way clear
      fun z c => finish_rdS z _ _ a _ s c⟩
  case rdx =>
    intro s a pa tint owner hub may wants way clear
    exact ⟨_, next_of_eq (ownerRequest_field s a pa _ tint owner hub), agentRequest_granted s a pa _ (hubFrom tint) _ may wants way clear
      fun z c => finish_rdX z _ _ a _ c⟩
  case upg =>
    intro s a pa tint owner hub may wants way clear
    exact ⟨_, next_of_eq (ownerRequest_field s a pa _ tint owner hub), agentRequest_granted s a pa _ (hubFrom tint) _ may wants way clear
      fun z c => finish_upg z _ _ a _ c⟩
  case invx =>
    intro s a pa tint owner hub may wants way clear
    exact ⟨_, next_of_eq (ownerRequest_field s a pa _ tint owner hub), agentRequest_granted s a pa _ (hubFrom tint) _ may wants way clear
      fun z c => finish_invX z _ _ a _ c⟩
  case rdc =>
    intro s id pa x joined coherent clear txn
    exact ⟨_, next_of_eq (plainRequest_clear s id pa _ x joined coherent clear txn), finish_rdC s _ _ id x.tint x txn clear⟩
  case wrl =>
    intro s id pa x w joined coherent clear txn
    exact ⟨_, next_of_eq (plainRequest_clear s id pa _ x joined coherent clear txn), finish_wrL s _ _ id x.tint x txn w clear⟩
  case flushl =>
    intro s id pa x joined coherent clear txn
    exact ⟨_, next_of_eq (plainRequest_clear s id pa _ x joined coherent clear txn), finish_flushL s _ _ id x.tint x txn clear⟩
  case atomic =>
    intro s id pa op off operand cmp x m fresh joined coherent clear txn kind
    obtain ⟨r, rfl, done⟩ := finish_atomic s _ _ id x.tint x txn op off operand cmp m kind clear
    exact ⟨_, (exec_cohAtomic_new s id pa op off operand cmp fresh).trans
      (congrArg _ (plainRequest_clear s id pa _ x joined coherent clear txn)), done⟩
  case evc =>
    intro s a pa cxl up may
    exact ⟨_, exec_cohEvc_taken s a pa cxl up may, modSlice_self _ _ _⟩
  case cxl =>
    intro s n pa w tag up may
    exact ⟨_, exec_cxlCacheRequest_cleanEvict s n pa w tag up may, modSlice_self _ _ _, rfl⟩

end Sys2Proof.Machine
end

section
/-!
PROOFS. Write-backs, snoops, completions, timeouts and flushes of the home slices.
-/

namespace Sys2Proof.Machine

/-! ## Write-backs, R229 and R232 -/

theorem exec_cohWb_sent (s : State) (a : AgentId) (pa : BitVec 52) (tag : BitVec 12) (tint : TintId) (c : CacheLine) (hub : a.val < 48)
    (cached : s.cached a (lineOf pa) = some c) (own : c.wbTag = some tag) :
    exec (.cohWb a pa tag tint) s = .next (s.sendWb a pa tag c.word (hubFrom tint)) := by
  refine next_of_eq ((if_pos hub).trans ?_)
  rw [cached]
  exact if_pos own

theorem exec_cxlDirtyEvict_sent (s : State) (n : SiteId) (pa : BitVec 52) (w : CodeWord) (up : s.sites[n].state = 3) (may : s.cxlMay n pa = true)
    (fresh : ({ agent := s.cxlAgent n, tag := none, line := lineOf pa } : StaleEntry) ∉ s.coh.slices[s.homeOf pa].stale) :
    exec (.cxlDirtyEvict n pa w) s =
      .next ((s.emit (.cxlAnswer n cxlWritePull none)).sendWb (s.cxlAgent n) pa 0 w (s.cxlFrom n 0)) :=
  next_of_eq ((if_neg (not_not_intro up)).trans ((if_pos may).trans (if_neg fresh)))

theorem isCxl_counted (s : State) (o : Out) (src dst : FieldId × NiId) (t : TintId) (n : Nat) (a : AgentId) :
    ((s.emit o).counted src dst t n).isCxl a = s.isCxl a :=
  isCxl_sites (counted_sites (s.emit o) src dst t n) a

/-! ## Snoops of hub agents, R227 -/

theorem answerSnoop_answers (s : State) (a : AgentId) (pa : BitVec 52) (k : SnoopKind) (b : Blocked)
    (at_ : s.coh.slices[s.homeOf pa].blockedAt (lineOf pa) = some b)
    (asked : (b.snoops.any fun n => n.agent = a && n.kind = k && n.answer = none) = true) (hub : a.val < 48) :
    (s.answerSnoop a pa k).sentAnswer a pa = some (s.hubAnswer a (lineOf pa) k).1 ∧
      (s.answerSnoop a pa k).coh.caches = (s.hubAnswer a (lineOf pa) k).2.coh.caches := by
  have e : s.answerSnoop a pa k = (s.hubAnswer a (lineOf pa) k).2.modSlice (s.homeOf pa) fun x => x.modBlocked (lineOf pa) fun b => { b with
      snoops := modFirst (fun n => n.agent = a) (fun n => { n with answer := some (s.hubAnswer a (lineOf pa) k).1 }) b.snoops } := by
    unfold State.answerSnoop
    dsimp only
    rw [at_]
    exact if_pos (by rw [Option.any_some, asked, decide_eq_true hub]; rfl)
  rw [e]
  refine ⟨answerSnoop_sent s _ a pa b _ at_ (any_mono _ _ _ (fun n h => ?_) asked) (hubAnswer_slices s a (lineOf pa) k), rfl⟩
  simp only [Bool.and_eq_true] at h
  exact h.1.1

theorem sentAnswer_of (s : State) (a : AgentId) (pa : BitVec 52) (b : Blocked) (n : Snoop) (at_ : s.coh.slices[s.homeOf pa].blockedAt (lineOf pa) = some b)
    (found : (b.snoops.find? fun m => m.agent = a) = some n) : s.sentAnswer a pa = n.answer := by
  unfold State.sentAnswer
  rw [at_]
  show (b.snoops.find? fun m => m.agent = a).bind (·.answer) = n.answer
  rw [found]
  rfl

theorem exec_snoopResponse_comes (s : State) (a : AgentId) (pa : BitVec 52) (ans : SnoopAnswer) (sent : s.sentAnswer a pa = some ans)
    (comes : s.answerComes (s.homeOf pa) a = true) :
    exec (.snoopResponse a pa) s = .next ((s.takeAnswer (s.homeOf pa) (lineOf pa) a ans).pump (s.homeOf pa)) := by
  refine next_of_eq ?_
  rw [sent]
  exact if_pos comes

/-! ## Completions and acknowledgements, R228, R223, R233 -/

theorem sentCmp_of (s : State) (a : AgentId) (pa : BitVec 52) (b : Blocked) (st : AgentLine)
    (at_ : s.coh.slices[s.homeOf pa].blockedAt (lineOf pa) = some b) (own : b.req.agent = some a) (waits : b.cmpTaken = false)
    (granted : b.granted = some st) : s.sentCmp a pa = some (st, b.cmpData) := by
  unfold State.sentCmp
  rw [at_]
  show (if b.req.agent = some a ∧ !b.cmpTaken then b.granted.map fun g => (g, b.cmpData) else none) = _
  rw [if_pos ⟨own, by rw [waits]; rfl⟩, granted]
  rfl

theorem exec_cohCmpReceive_taken (s : State) (a : AgentId) (pa : BitVec 52) (st : AgentLine) (w : Option CodeWord)
    (sent : s.sentCmp a pa = some (st, w)) (room : (decide (a.val < 48) && s.cacheFull a (lineOf pa)) = false) :
    ∃ z : State, z.coh.slices = s.coh.slices ∧
      exec (.cohCmpReceive a pa) s = .next (z.modSlice (s.homeOf pa) fun x => x.modBlocked (lineOf pa) fun b => { b with cmpTaken := true }) := by
  have taken : (if a.val < 48 then s.takeLine a (lineOf pa) st (w.getD (((s.cached a (lineOf pa)).map (·.word)).getD poisonWord)) else s).coh.slices =
      s.coh.slices := by
    split
    · exact takeLine_slices _ _ _ _ _
    · rfl
  refine ⟨_, taken, next_of_eq ?_⟩
  rw [sent]
  exact if_neg (ne_true_of_eq_false room)

theorem exec_cohAck_hub (s : State) (pa : BitVec 52) (b : Blocked) (at_ : s.coh.slices[s.homeOf pa].blockedAt (lineOf pa) = some b)
    (taken : b.cmpTaken = true) :
    exec (.cohAck (.hub pa)) s = .next ((s.unblock (s.homeOf pa) (lineOf pa)).pump (s.homeOf pa)) := by
  refine next_of_eq ?_
  show s.ackLine pa none = _
  unfold State.ackLine
  dsimp only
  rw [at_]
  exact if_pos (by rw [taken]; rfl)

/-- A line unblocked at a home where nothing else waits. -/
theorem unblock_pump (s : State) (f : FieldId) (line : Nat) (calm : s.coh.slices[f].waiting = []) :
    (s.unblock f line).pump f = s.unblock f line ∧ (s.unblock f line).coh.slices[f].blockedAt line = none := by
  have slice : (s.unblock f line).coh.slices[f] = { s.coh.slices[f] with blocked := s.coh.slices[f].blocked.filter fun b => b.line ≠ line } :=
    modSlice_self _ _ _
  refine ⟨pump_nil _ _ ?_, ?_⟩
  · rw [slice]
    exact calm
  · rw [slice]
    exact blockedAt_drop _ line

theorem exec_cohHold_requester (s : State) (a : AgentId) (pa : BitVec 52) (b : Blocked)
    (at_ : s.coh.slices[s.homeOf pa].blockedAt (lineOf pa) = some b) (own : b.req.agent = some a) (waits : b.cmpTaken = false)
    (open_ : b.granted = none) (calm : s.coh.slices[s.homeOf pa].waiting = []) :
    exec (.cohHold pa) s = .next (s.tellHold a b.src (lineOf pa)) := by
  refine next_of_eq ?_
  rw [at_, calm]
  simp only [Option.toList_some, List.filterMap_cons, List.filterMap_nil, open_, waits]
  show s.holdAgent (lineOf pa) (b.req, b.src) = _
  unfold State.holdAgent
  rw [own]

theorem exec_snoopTimeout_lost (s : State) (a : AgentId) (pa : BitVec 52) (b : Blocked)
    (at_ : s.coh.slices[s.homeOf pa].blockedAt (lineOf pa) = some b) (asked : (b.snoops.any fun n => n.agent = a && n.answer = none) = true) :
    exec (.snoopTimeout a pa) s = .next ((s.snoopLost (s.homeOf pa) b.src.tint (lineOf pa) a).pump (s.homeOf pa)) := by
  refine next_of_eq ?_
  rw [at_]
  refine if_pos (any_mono _ _ _ (fun n h => ?_) asked)
  simp only [Bool.and_eq_true] at h
  rw [h.1, h.2]
  rfl

/-! ## Acknowledgements that do not come, R233 -/

/-- The state in which an acknowledgement that did not come has been counted and logged. -/
def State.ackMissed (s : State) (f : FieldId) (b : Blocked) : State :=
  ((s.modSlice f fun x => { x with ackTimeouts := satAdd x.ackTimeouts 1 }).logFault
    { source := 13, code := 3, element := BitVec.ofNat 32 f.val }).noteTimeout b.senderNi.1 b.senderNi.2

theorem exec_ackTimeout_missed (s : State) (pa : BitVec 52) (b : Blocked) (at_ : s.coh.slices[s.homeOf pa].blockedAt (lineOf pa) = some b)
    (granted : b.granted.isSome = true) :
    exec (.ackTimeout pa) s = .next (((s.ackMissed (s.homeOf pa) b).unblock (s.homeOf pa) (lineOf pa)).pump (s.homeOf pa)) := by
  refine next_of_eq ?_
  rw [at_]
  exact if_pos (by rw [granted]; rfl)

theorem ackMissed_slice (s : State) (f : FieldId) (b : Blocked) :
    (s.ackMissed f b).coh.slices[f] = { s.coh.slices[f] with ackTimeouts := satAdd s.coh.slices[f].ackTimeouts 1 } := by
  unfold State.ackMissed State.noteTimeout
  rw [State.modNet_coh, State.logFault_coh, modSlice_self]

theorem ackMissed_flog (s : State) (f : FieldId) (b : Blocked) (room : s.ras.flog.length < 1024) :
    (s.ackMissed f b).ras.flog = s.ras.flog ++ [faultEntry { source := 13, code := 3, element := BitVec.ofNat 32 f.val } s.now] :=
  logFault_flog (s.modSlice f _) _ room

theorem ackMissed_hits (s : State) (f : FieldId) (b : Blocked) :
    (s.ackMissed f b).net.timeoutHits = s.net.timeoutHits ++ [(32 * b.senderNi.1.val + b.senderNi.2.val, s.sclk)] := by
  unfold State.ackMissed State.noteTimeout
  rw [State.modNet_net, State.logFault_net, logFault_sclk]
  rfl

/-! ## Stale entries, dead agents, range flushes and released lines -/

theorem exec_staleEntryExpiry_oldest (s : State) (f : FieldId) (i : Nat) (h : i < s.coh.slices[f].stale.length) :
    exec (.staleEntryExpiry f i) s =
      .next ((s.modSlice f fun x => { x with stale := x.stale.eraseIdx i }).logFault { source := 13, element := BitVec.ofNat 32 f.val }) :=
  next_of_eq (if_pos h)

theorem exec_agentDead_isolated (s : State) (a : AgentId) (sunk : s.isolated (agentNi a).1 (agentNi a).2 = true) (alive : s.agentDead a = false) :
    ∃ u, exec (.agentDead a) s = .next u ∧ u.agentDead a = true := by
  refine ⟨_, next_of_eq ((if_pos sunk).trans (if_neg (ne_true_of_eq_false alive))), ?_⟩
  unfold State.agentDead
  rw [killFold_dead]
  exact bit_setBit_self _ _ a.isLt

theorem exec_cohFlushDone_page (s : State) (p : PortId) (v : VfId) (n : PanelId) (bound : s.ports[p].vfs[v].bound = some n)
    (running : s.ports[p].vfs[v].flush.state = 1) (done : (s.ports[p].vfs[v].flush.todo.any s.flushing) = false)
    (quiet : s.ports[p].vfs[v].flush.irq = false) :
    exec (.cohFlushDone (.page p v)) s =
      .next (s.modVf p v fun y => { y with flush := { s.ports[p].vfs[v].flush with state := 2, todo := [] } }) := by
  have shown : s.flushOf (.page p v) = some (n, s.ports[p].vfs[v].flush) := by
    unfold State.flushOf
    dsimp only
    rw [bound]
    rfl
  refine next_of_eq ?_
  rw [shown]
  exact (if_pos ⟨running, by rw [done]; rfl⟩).trans (if_neg (ne_true_of_eq_false quiet))

theorem exec_wback_acked (s : State) (a : AgentId) (pa : BitVec 52) (h : (a, lineOf pa) ∈ s.coh.wbAcks) :
    exec (.wback a pa) s = .next ((s.dropCached a (lineOf pa)).modCoh fun c => { c with wbAcks := c.wbAcks.erase (a, lineOf pa) }) :=
  next_of_eq (if_pos h)

theorem dropCached_cached (s : State) (a : AgentId) (line : Nat) : (s.dropCached a line).cached a line = none := by
  refine List.find?_eq_none.mpr fun c h => ?_
  have kept := (List.mem_filter.mp h).2
  simp only [Bool.not_eq_true', decide_eq_false_iff_not] at kept
  exact fun t => kept (of_decide_eq_true t)

/-- Settles O38, by what each of these commands comes to. -/
theorem coherenceAnswers : Obligations.CoherenceAnswers := by
  unfold Obligations.CoherenceAnswers
  refine ⟨?wb, ?evict, ?snpS, ?snpI, ?snpC, ?response, ?cmp, ?ack, ?hold, ?snoopTimeout, ?ackTimeout, ?stale, ?dead, ?flush, ?wback⟩
  case wb =>
    intro s a pa tag tint c hub cached own way fresh quiet
    obtain ⟨mem, slice, acks⟩ := sendWb_home s _ a pa tag c.word (hubFrom tint) rfl (State.counted_coh _ _ _ _ _) way
      (by rw [isCxl_hub _ hub]; exact fresh) quiet
    exact ⟨_, exec_cohWb_sent s a pa tag tint c hub cached own, mem, slice, acks hub⟩
  case evict =>
    intro s n pa w up may cxl way fresh quiet
    obtain ⟨mem, slice, -⟩ := sendWb_home (s.emit (.cxlAnswer n cxlWritePull none)) _ (s.cxlAgent n) pa 0 w (s.cxlFrom n 0) rfl
      (State.counted_coh _ _ _ _ _) way
      (by rw [isCxl_counted, if_pos cxl]; exact fresh) quiet
    exact ⟨_, exec_cxlDirtyEvict_sent s n pa w up may fresh, mem, slice⟩
  case snpS =>
    intro s a pa b at_ asked hub
    exact ⟨_, rfl, answerSnoop_answers s a pa .snpS b at_ asked hub⟩
  case snpI =>
    intro s a pa b at_ asked hub
    exact ⟨_, rfl, answerSnoop_answers s a pa .snpI b at_ asked hub⟩
  case snpC =>
    intro s a pa b at_ asked hub
    exact ⟨_, rfl, answerSnoop_answers s a pa .snpC b at_ asked hub⟩
  case response =>
    intro s a pa b n ans at_ found answered wbp cxl comes more calm
    obtain ⟨left, waits, -⟩ := takeAnswer_more s (s.homeOf pa) (lineOf pa) a ans b n at_ found wbp cxl more
    refine ⟨_, exec_snoopResponse_comes s a pa ans ((sentAnswer_of s a pa b n at_ found).trans answered) comes, ?_⟩
    rw [pump_nil _ _ (waits.trans calm)]
    exact left
  case cmp =>
    intro s a pa b st at_ own waits granted room
    obtain ⟨z, slices, e⟩ := exec_cohCmpReceive_taken s a pa st b.cmpData (sentCmp_of s a pa b st at_ own waits granted) room
    refine ⟨_, e, ?_⟩
    rw [modSlice_self, slices]
    exact blockedAt_mod _ _ (fun b => { b with cmpTaken := true }) b (fun _ => rfl) at_
  case ack =>
    intro s pa b at_ taken calm
    obtain ⟨still, free⟩ := unblock_pump s (s.homeOf pa) (lineOf pa) calm
    exact ⟨_, (exec_cohAck_hub s pa b at_ taken).trans (congrArg _ still), free⟩
  case hold =>
    intro s a pa b at_ own waits open_ calm site cxl
    refine ⟨_, exec_cohHold_requester s a pa b at_ own waits open_ calm, ?_⟩
    unfold State.tellHold
    rw [if_neg (by rw [cxl]; exact fun h => h.elim site (by decide))]
    rfl
  case snoopTimeout =>
    intro s a pa b at_ asked more calm
    obtain ⟨still, left, counted, dir⟩ := snoopLost_more s (s.homeOf pa) b.src.tint (lineOf pa) a b at_ more calm
    exact ⟨_, (exec_snoopTimeout_lost s a pa b at_ asked).trans (congrArg _ still), left, counted, dir⟩
  case ackTimeout =>
    intro s pa b at_ granted calm room
    have slice := ackMissed_slice s (s.homeOf pa) b
    obtain ⟨still, free⟩ := unblock_pump (s.ackMissed (s.homeOf pa) b) (s.homeOf pa) (lineOf pa) (by rw [slice]; exact calm)
    refine ⟨_, (exec_ackTimeout_missed s pa b at_ granted).trans (congrArg _ still), free, ?_, ?_, ackMissed_flog s _ b room, ackMissed_hits s _ b⟩
    · unfold State.unblock
      rw [modSlice_self, slice]
    · unfold State.unblock
      rw [modSlice_self, slice]
  case stale =>
    intro s f i h room
    refine ⟨_, exec_staleEntryExpiry_oldest s f i h, ?_, logFault_flog (s.modSlice f _) _ room⟩
    rw [State.logFault_coh, modSlice_self]
  case dead =>
    intro s a sunk alive
    exact exec_agentDead_isolated s a sunk alive
  case flush =>
    intro s p v n bound running done quiet
    exact ⟨_, exec_cohFlushDone_page s p v n bound running done quiet, congrArg VfState.flush (State.modVf_self s p v _)⟩
  case wback =>
    intro s a pa h
    exact ⟨_, exec_wback_acked s a pa h, dropCached_cached s a (lineOf pa), rfl⟩

end Sys2Proof.Machine
end

section
/-!
PROOFS. Bring-up, liveness, power, retraining and death of a chiplet site.
-/

namespace Sys2Proof.Machine

/-! ## Bring-up, R244 -/

theorem exec_siteBringupAttempt_answered (s : State) (n : SiteId) (stage : s.sites[n].stage = .sideband) (more : s.sites[n].attempt ≠ 3) :
    exec (.siteBringupAttempt n true) s =
      .next (s.modSite n fun x => { x with attempt := x.attempt + 1, state := 1, stage := .training, descNext := 0 }) :=
  next_of_eq ((if_neg fun h => h.elim (fun a => a stage) more).trans (if_pos rfl))

theorem exec_siteLinkTrained_modules (s : State) (n : SiteId) (m : Fin 17) (r : Fin 3) (stage : s.sites[n].stage = .training) (some_ : m ≠ 0) :
    exec (.siteLinkTrained n m r) s = .next (s.modSite n fun x => { x with
      stage := .descriptor, state := 2, modules := BitVec.ofNat 5 m.val, rate := BitVec.ofNat 2 r.val
      trainedRate := BitVec.ofNat 2 r.val, descNext := 0 }) :=
  next_of_eq ((if_neg (not_not_intro stage)).trans (if_neg some_))

theorem exec_siteAttemptTimeout_descriptor (s : State) (n : SiteId) (stage : s.sites[n].stage = .descriptor) :
    exec (.siteAttemptTimeout n) s = .next (s.endSite n 3) := by
  refine next_of_eq ?_
  rw [stage]

theorem exec_desc_word (s : State) (n : SiteId) (payload : DWord) (stage : s.sites[n].stage = .descriptor)
    (next : s.sites[n].descNext = fld payload.toNat 58 6) (more : fld payload.toNat 58 6 ≠ 63) :
    exec (.desc n payload) s = .next (s.modSite n fun y => { y with
      desc := vset y.desc (asFin 64 (fld payload.toNat 58 6)) (payload.setWidth 32), descNext := fld payload.toNat 58 6 + 1
      chipMax := if fld payload.toNat 58 6 = 0 then slice payload 15 8 else y.chipMax
      chipMin := if fld payload.toNat 58 6 = 0 then slice payload 7 0 else y.chipMin }) :=
  next_of_eq ((if_neg (not_not_intro stage)).trans ((if_neg (not_not_intro next)).trans (if_neg more)))

/-- R244 stage 5: the site in service; its NI leaves the grout sink when no image leaves it out. -/
def State.siteServed (s : State) (n : SiteId) : State :=
  let s1 := s.modSite n fun x => { x with
    stage := .done, state := 3, ready := !s.fields[n].leftOut, failCode := 0, credit := Vector.replicate 16 0 }
  if !s.img.loaded || bit s.img.siteMask n.val then s1.setSink n 16 false else s1

theorem siteServed_site (s : State) (n : SiteId) : (s.siteServed n).sites[n] = { s.sites[n] with
    stage := .done, state := 3, ready := !s.fields[n].leftOut, failCode := 0, credit := Vector.replicate 16 0 } := by
  unfold State.siteServed
  dsimp only
  split
  · exact (sites_at n (State.setSink_sites _ _ _ _)).trans (modSite_self s n _)
  · exact modSite_self s n _

theorem exec_siteInService_native (s : State) (n : SiteId) (stage : s.sites[n].stage = .negotiated) (native : bit s.sites[n].granted 5 = false) :
    exec (.siteInService n) s = .next ((s.siteServed n).readyFrom s) := by
  refine next_of_eq ((if_neg (not_not_intro stage)).trans ?_)
  rw [native]
  rfl

/-! ## Liveness and power, R241 and R253 -/

theorem exec_live_report (s : State) (n : SiteId) (payload : DWord) (up : s.sites[n].state = 2 ∨ s.sites[n].inService = true)
    (well : bit payload 63 = false) :
    exec (.live n payload) s = .next (s.modSite n fun y => { y with live := payload.setWidth 16, liveSeen := true }) :=
  next_of_eq ((if_neg (by rw [decide_eq_true up]; decide)).trans (if_neg (ne_true_of_eq_false well)))

/-- R253: a site's registers after a sample that asks for nothing. -/
def SiteState.sampled (x : SiteState) (average : BitVec 10) : SiteState :=
  { x with
    avgW := average, maxW := if x.maxW.toNat < average.toNat then average else x.maxW, throttleSamples := 0
    belowSamples := if average.toNat < 180 then x.belowSamples + 1 else 0 }

theorem exec_sitePowerSample_within (s : State) (n : SiteId) (sample average : BitVec 10) (on : s.sites[n].enabled = true)
    (single : s.sites[n].double = 0) (free : s.sites[n].throttle = false) (peak : sample.toNat ≤ 216) (mean : average.toNat ≤ 180) :
    ∃ u, exec (.sitePowerSample n sample average) s = .next u ∧ u.sites[n] = s.sites[n].sampled average := by
  have site : (s.modSite n fun x => { x with avgW := average, maxW := if x.maxW.toNat < average.toNat then average else x.maxW }).sites[n] =
      { s.sites[n] with avgW := average, maxW := if s.sites[n].maxW.toNat < average.toNat then average else s.sites[n].maxW } :=
    modSite_self s n _
  generalize hz : (s.modSite n fun x => { x with avgW := average, maxW := if x.maxW.toNat < average.toNat then average else x.maxW }) = z at site
  have half : z.sharedHalf n = none := if_neg (by rw [site]; exact not_not_intro single)
  have unthrottled : z.sites[n].throttle = false := by rw [site]; exact free
  refine ⟨z.modSite n fun y => { y with
    throttleSamples := if y.throttle then y.throttleSamples + 1 else 0
    belowSamples := if average.toNat + 0 < 180 then z.sites[n].belowSamples + 1 else 0 }, next_of_eq ((if_neg (by rw [on]; decide)).trans ?_), ?_⟩
  · dsimp only
    rw [hz, half, unthrottled]
    simp only [Option.isSome_none, Bool.false_eq_true, if_false, Bool.false_and, or_false, false_and]
    rw [if_neg (by omega), if_neg (by omega)]
  · rw [modSite_self, if_neg (ne_true_of_eq_false unthrottled), site]
    rfl

/-! ## Retrains and death, R240 and R268 -/

/-- The state of a site whose link retrains: its counters, and the retrains that count. -/
def State.retraining (s : State) (n : SiteId) (rounds : BitVec 16) : State :=
  ((s.modSite n fun y => { y with replays := satAdd y.replays rounds.toNat, retrainAt := s.recentRetrains n ++ [s.sclk] }).modSite n
    fun y => { y with state := 4 }).logFault { cls := 1, source := 9, element := BitVec.ofNat 32 n.val }

theorem exec_siteAdapterRetryTimeout_retrains (s : State) (n : SiteId) (r : BitVec 16) (up : s.sites[n].state = 3)
    (few : (s.recentRetrains n).length < 2) :
    exec (.siteAdapterRetryTimeout ⟨n, r⟩) s = .next ((s.siteTxns n).foldl (fun t i => t.siteGiveUp n i) (s.retraining n r)) :=
  next_of_eq ((if_neg (not_not_intro up)).trans (if_neg (Nat.not_le.mpr few)))

theorem retraining_site (s : State) (n : SiteId) (r : BitVec 16) :
    (s.retraining n r).sites[n] = { s.sites[n] with
      replays := satAdd s.sites[n].replays r.toNat, retrainAt := s.recentRetrains n ++ [s.sclk], state := 4 } := by
  unfold State.retraining
  rw [sites_at n (State.logFault_sites _ _), modSite_self, modSite_self]

theorem exec_siteRetrainDone_passed (s : State) (n : SiteId) (m : Fin 17) (down : s.sites[n].state = 4) (some_ : m ≠ 0) :
    ∃ u, exec (.siteRetrainDone n m true) s = .next u ∧
      u.sites = (s.modSite n fun y => { y with state := 3, modules := BitVec.ofNat 5 (min m.val s.sites[n].modules.toNat) }).sites := by
  refine ⟨_, next_of_eq ((if_neg (not_not_intro down)).trans (if_neg ?_)), ?sites⟩
  · rintro (a | b)
    · exact absurd a (by decide)
    · exact some_ b
  · dsimp only
    split
    · exact State.logFault_sites _ _
    · rfl

theorem exec_siteDeath_cause (s : State) (n : SiteId) (code : Byte) (cause : 7 ≤ code.toNat ∧ code.toNat ≤ 0xA) :
    exec (.siteDeath n code) s = .next (s.killSite n code) := next_of_eq (if_pos cause)

theorem exec_siteRailRemoval_dead (s : State) (n : SiteId) (dead : s.sites[n].state = 5) (on : s.sites[n].enabled = true) :
    exec (.siteRailRemoval n) s = .next ((s.modSite n fun x => { x with enabled := false }).emit (.siteEnable n false)) :=
  next_of_eq ((if_pos dead).trans (if_pos on))

/-- Settles O39, by what each of these commands comes to. -/
theorem siteLives : Obligations.SiteLives := by
  unfold Obligations.SiteLives
  refine ⟨?attempt, ?trained, ?timeout, ?desc, ?up, ?live, ?silent, ?power, ?retry, ?retrained, ?death, ?rail⟩
  case attempt =>
    intro s n stage more
    exact ⟨_, exec_siteBringupAttempt_answered s n stage more, modSite_self s n _⟩
  case trained =>
    intro s n m r stage some_
    exact ⟨_, exec_siteLinkTrained_modules s n m r stage some_, modSite_self s n _⟩
  case timeout =>
    intro s n stage state alone there
    exact ⟨_, exec_siteAttemptTimeout_descriptor s n stage, refuse_site s n 3 (by unfold SiteState.comingUp; rw [state]; decide) there alone⟩
  case desc =>
    intro s n payload stage next more
    refine ⟨_, exec_desc_word s n payload stage next more, ?_⟩
    rw [modSite_self]
    exact ⟨rfl, rfl⟩
  case up =>
    intro s n stage native
    exact ⟨_, exec_siteInService_native s n stage native, (sites_at n (State.readyFrom_sites _ s)).trans (siteServed_site s n)⟩
  case live =>
    intro s n payload up well
    exact ⟨_, exec_live_report s n payload up well, modSite_self s n _⟩
  case silent =>
    intro s n up alone
    exact ⟨_, rfl, killSite_site s n 8 up alone⟩
  case power =>
    intro s n sample average on single free peak mean
    exact exec_sitePowerSample_within s n sample average on single free peak mean
  case retry =>
    intro s n r up few
    refine ⟨_, exec_siteAdapterRetryTimeout_retrains s n r up few, ?_⟩
    obtain ⟨state, replays, at_⟩ := giveUps_keep n (s.siteTxns n) (s.retraining n r)
    rw [state, replays, at_, retraining_site]
    exact ⟨rfl, rfl, rfl⟩
  case retrained =>
    intro s n m down some_
    obtain ⟨u, e, sites⟩ := exec_siteRetrainDone_passed s n m down some_
    exact ⟨u, e, (sites_at n sites).trans (modSite_self s n _)⟩
  case death =>
    intro s n code cause up alone
    exact ⟨_, exec_siteDeath_cause s n code cause, killSite_site s n code up alone⟩
  case rail =>
    intro s n dead on
    exact ⟨_, exec_siteRailRemoval_dead s n dead on, modSite_self s n _, rfl⟩

end Sys2Proof.Machine
end

section
/-!
PROOFS. Requests, responses, credits and coherence messages of the site stream.
-/

namespace Sys2Proof.Machine

/-! ## Requests sent into the network, R262 -/

/-- One request more is on its way: from an NI under a tag, for an owner. -/
def State.Sent (s u : State) (id : TxId) (kind : ReqKind) (pa : BitVec 52) (owner : TxOwner) (tint : TintId) : Prop :=
  u.net.flight.length = s.net.flight.length + 1 ∧ ∃ x : Txn, u.net.flight = s.net.flight ++ [x] ∧ x.id = id ∧ x.kind = kind ∧ x.pa = pa ∧
    x.owner = owner ∧ x.tint = tint

/-- `z` is the state after the address has been translated, `s0` the one that stays when no tag is free. -/
theorem siteInject_sent (s z s0 : State) (n : SiteId) (b : Binding) (pa : BitVec 52) (kind : ReqKind) (m : SiteMsg) (tag : BitVec 12)
    (same : z.net.flight = s.net.flight) (free : z.freeTag n 16 (reqHigh kind) = some tag) (trunks : ∀ c, z.trunkTakes pa c = true) :
    s.Sent (z.siteInject s0 n b pa kind m) ⟨n, 16, tag⟩ kind pa (.site n m.tag b.tag) b.tint := by
  obtain ⟨r, sent, len, x, flight, id, k, at_, owner, tint, -⟩ :=
    inject_some z n 16 b.tint (some b.panel) pa kind (.site n m.tag b.tag) tag free trunks (askedVa kind m)
  have e : z.siteInject s0 n b pa kind m = r.2 := by
    unfold State.siteInject
    rw [sent]
  rw [same] at len flight
  rw [e]
  exact ⟨len, x, flight, id, k, at_, owner, tint⟩

/-- The state after a translation has the requests of the state before it. -/
theorem translated_flight {s z : State} {g : Agent} {eng : EngineSel} {p : PanelId} {t : TintId} {va : BitVec 55} {acc : Access} {r : Except TransFault Target}
    (h : s.translate g eng p t va acc = (r, z)) : z.net.flight = s.net.flight := by
  have e := translate_flight s g eng p t va acc
  rwa [h] at e

theorem exec_siteRd_pa (s : State) (n : SiteId) (h : BitVec 128) (b : Binding) (z : State) (pa : BitVec 52) (up : s.sites[n].state = 3)
    (type : (siteMsg h).type = 1)
    (bindOk : s.siteAdmit n (siteMsg h) 0 ((siteMsg h).reserved || (siteMsg h).status ≠ 0 || (siteMsg h).poison ≠ 0 || (siteMsg h).arg ≠ 0 ||
      (siteMsg h).count = 0 || decide (4 < (siteMsg h).count) || (siteMsg h).va.toNat % 64 ≠ 0 ||
      decide (256 < (siteMsg h).va.toNat % 256 + 64 * (siteMsg h).count) || (siteMsg h).tagWrong) = .ok b)
    (busy : s.plainBusy (siteEng n b (siteMsg h).tag) .read (runVas (siteMsg h).va (siteMsg h).count) = false)
    (trans : s.translate (siteEng n b (siteMsg h).tag).agent (siteEng n b (siteMsg h).tag).sel (siteEng n b (siteMsg h).tag).panel
      (siteEng n b (siteMsg h).tag).tint (siteMsg h).va .read = (.ok (.pa pa), z)) (plain : z.coherentAt pa = false) :
    exec (.siteRd n h) s = .next (z.siteInject s n b (z.nearCopy n pa) (.read (siteMsg h).count) (siteMsg h)) := by
  refine next_of_eq ((if_neg (not_not_intro up)).trans ((if_neg (not_not_intro (by rw [type]; decide))).trans ((if_neg (not_not_intro type)).trans ?_)))
  dsimp only
  rw [bindOk]
  dsimp only
  rw [if_neg (ne_true_of_eq_false busy), trans]
  exact if_neg (ne_true_of_eq_false plain)

theorem exec_siteWr_pa (s : State) (n : SiteId) (h : BitVec 128) (b : Binding) (ws : List CodeWord) (z : State) (pa : BitVec 52)
    (up : s.sites[n].state = 3) (type : (siteMsg h).type = 2) (long : (siteMsg h).count ≤ ws.length)
    (bindOk : s.siteAdmit n (siteMsg h) 0 ((siteMsg h).reserved || (siteMsg h).status ≠ 0 || (siteMsg h).arg ≠ 0 || (siteMsg h).tagWrong) = .ok b)
    (whole : ((siteMsg h).va.toNat % 64 ≠ 0 || (siteMsg h).count = 0 || decide (4 < (siteMsg h).count) ||
      decide (256 < (siteMsg h).va.toNat % 256 + 64 * (siteMsg h).count)) = false)
    (busy : s.plainBusy (siteEng n b (siteMsg h).tag) .write (runVas (siteMsg h).va (siteMsg h).count) = false)
    (trans : s.translate (siteEng n b (siteMsg h).tag).agent (siteEng n b (siteMsg h).tag).sel (siteEng n b (siteMsg h).tag).panel
      (siteEng n b (siteMsg h).tag).tint (siteMsg h).va .write = (.ok (.pa pa), z)) (plain : z.coherentAt pa = false) :
    exec (.siteWr n h ws) s = .next (z.siteInject s n b pa (.write ((siteMsg h).words ws)) (siteMsg h)) := by
  refine next_of_eq ((if_neg ?_).trans ?_)
  · rintro (a | a | a)
    · exact a up
    · exact a type
    · omega
  · dsimp only
    rw [bindOk]
    dsimp only
    rw [if_neg (ne_true_of_eq_false whole), if_neg (ne_true_of_eq_false busy), trans]
    exact if_neg (ne_true_of_eq_false plain)

/-- R73: the request that an atomic's message makes. -/
def SiteMsg.atomicKind (m : SiteMsg) (op : AtomicOp) (opd : CodeWord) (cmp : DWord) : ReqKind :=
  .atomic op (asFin 64 (m.arg % 64)) (BitVec.ofNat 64 (fld opd.data.toNat (8 * (m.arg % 64)) (8 * atomicSize op))) cmp
    (opd.mark || Nat.testBit m.poison 0)

theorem exec_siteAt_pa (s : State) (n : SiteId) (h : BitVec 128) (b : Binding) (opd : CodeWord) (cmp : DWord) (op : AtomicOp) (z : State)
    (pa : BitVec 52) (up : s.sites[n].state = 3) (type : (siteMsg h).type = 3) (code : atomicOfCode ((siteMsg h).arg / 2 ^ 28) = some op)
    (bindOk : s.siteAdmit n (siteMsg h) 3 ((siteMsg h).reserved || (siteMsg h).status ≠ 0 || ((siteMsg h).arg % 64) % atomicSize op ≠ 0 ||
      fld (siteMsg h).arg 6 22 ≠ 0 || !((siteMsg h).count = 1 || ((siteMsg h).count = 2 && op = .cas64)) || (siteMsg h).tagWrong) = .ok b)
    (trans : s.translate (siteEng n b (siteMsg h).tag).agent (siteEng n b (siteMsg h).tag).sel (siteEng n b (siteMsg h).tag).panel
      (siteEng n b (siteMsg h).tag).tint (wordVa (siteMsg h).va) .atomic = (.ok (.pa pa), z)) :
    exec (.siteAt n h opd cmp) s = .next (z.siteInject s n b pa ((siteMsg h).atomicKind op opd cmp) (siteMsg h)) := by
  refine next_of_eq ((if_neg ?_).trans ?_)
  · rintro (a | a)
    · exact a up
    · exact a type
  · dsimp only
    rw [code]
    simp only [Option.isNone_some, Bool.or_false, Option.map_some, Option.getD_some, Option.some.injEq]
    rw [bindOk]
    dsimp only
    rw [trans]
    rfl

theorem exec_siteSig_array (s : State) (n : SiteId) (h : BitVec 128) (b : Binding) (a : ArrayId) (up : s.sites[n].state = 3)
    (type : (siteMsg h).type = 4)
    (bindOk : s.siteAdmit n (siteMsg h) 0 ((siteMsg h).reserved || (siteMsg h).status ≠ 0 || (siteMsg h).count ≠ 0 || (siteMsg h).poison ≠ 0 ||
      (siteMsg h).va ≠ 0 || fld (siteMsg h).arg 8 12 ≠ 0 || BitVec.ofNat 8 (siteMsg h).arg = 0 || (siteMsg h).tagWrong) = .ok b)
    (array : s.arrayOf b.panel (fld (siteMsg h).arg 26 6) = some a) :
    exec (.siteSig n h) s = .next (s.siteInject s n b 0
      (.signal (fieldOfArray a) (niOfArray a) (asFin 64 (fld (siteMsg h).arg 20 6)) (BitVec.ofNat 8 (siteMsg h).arg) 0) (siteMsg h)) := by
  refine next_of_eq ((if_neg ?_).trans ?_)
  · rintro (a | a)
    · exact a up
    · exact a type
  · rw [bindOk]
    dsimp only
    rw [array]

/-! ## Credits and endpoints, R256 -/

/-- R256: the state after credit has been added for an endpoint. -/
def State.credited (s : State) (n : SiteId) (e : Fin 16) (v : Nat) : State :=
  let s1 := s.modSite n fun x => { x with credit := vset x.credit e (min (s.sites[n].credit[e] + v) 16384) }
  if 16384 < s.sites[n].credit[e] + v then s1.noteSite n 0 else s1

theorem credited_site (s : State) (n : SiteId) (e : Fin 16) (v : Nat) :
    (s.credited n e v).sites[n] = { s.sites[n] with credit := vset s.sites[n].credit e (min (s.sites[n].credit[e] + v) 16384) } := by
  unfold State.credited
  dsimp only
  split
  · exact (sites_at n (State.logFault_sites _ _)).trans (modSite_self s n _)
  · exact modSite_self s n _

theorem exec_credit_added (s : State) (n : SiteId) (h : BitVec 128) (b : Binding) (e : Fin 16) (v : Nat) (up : s.sites[n].state = 3)
    (type : (siteMsg h).type = 5) (bound : s.bindingOf n (siteMsg h).binding = some b) (granted : bit s.sites[n].granted 4 = true)
    (well : ((siteMsg h).reserved || (siteMsg h).status ≠ 0 || (siteMsg h).count ≠ 0 || (siteMsg h).poison ≠ 0) = false)
    (arg : (siteMsg h).arg = 268435456 * e.val + v) (small : v < 65536) (there : e.val < s.sites[n].endpoints) (none_held : s.sites[n].held = []) :
    exec (.credit n h) s = .next (s.credited n e v) := by
  obtain ⟨bindOk, endpoint, count, -⟩ := credit_add s n (siteMsg h) b e v type bound granted well arg small there none_held
  have released : (s.credited n e v).releaseHeld n e (s.credited n e v).sites[n].held.length = s.credited n e v := by
    rw [show (s.credited n e v).sites[n].held = [] from (congrArg SiteState.held (credited_site s n e v)).trans none_held]
    rfl
  refine next_of_eq ((if_neg ?_).trans ?_)
  · rintro (a | a)
    · exact a up
    · exact a type
  · dsimp only
    rw [bindOk]
    dsimp only
    simp only [endpoint, count]
    exact released

theorem exec_endpointWrite_held (s : State) (n : SiteId) (id : TxId) (e : Fin 16) (off : BitVec 20) (ws : List CodeWord) (x : Txn)
    (txn : s.txn id = some x) (kind : x.kind = .write ws) (stage : x.stage = .atTarget) (none_held : s.sites[n].held = [])
    (none_asked : (s.sites[n].requests.any fun r => r.id = id) = false)
    (here : paPartner x.pa = false ∧ paSpace x.pa = 4 ∧ paField x.pa = n ∧ paNear x.pa = 0x8000000 + e.val * 0x100000 + off.toNat)
    (poor : s.sites[n].credit[e] < ws.length) (up : s.sites[n].state ≠ 4) :
    exec (.endpointWrite n id e off ws) s = .next (s.modSite n fun y => { y with
      held := y.held ++ [{ id := id, endpoint := e, offset := off, words := ws }] }) := by
  obtain ⟨own, space, field, near⟩ := here
  refine next_of_eq ?_
  rw [txn]
  dsimp only
  rw [if_neg up, if_neg ?there, none_held]
  · show State.releaseHeld _ n e 1 = _
    unfold State.releaseHeld
    rw [modSite_self]
    dsimp only
    rw [none_held, List.nil_append, List.find?_cons_of_pos (by exact decide_eq_true rfl)]
    exact if_pos poor
  case there =>
    rw [none_asked, none_held, own, decide_eq_true space, decide_eq_true field, decide_eq_true near]
    rintro (a | a | a | a)
    · exact a kind
    · exact a stage
    · exact absurd a Bool.false_ne_true
    · exact absurd a Bool.false_ne_true

/-! ## Signals to an engine, responses and timeouts, R261, R265 and R266 -/

theorem exec_siteSignalToEngine_sent (s : State) (id : TxId) (x : Txn) (n : SiteId) (sem : Fin 64) (inc : Byte) (slot : Fin 8) (p : PanelId)
    (y : SiteId × Byte) (b : Binding) (tag : Nat) (txn : s.txn id = some x) (kind : x.kind = .signal n 16 sem inc slot) (stage : x.stage = .atTarget)
    (joined : s.isolated n 16 = false) (none_asked : (s.sites[n].requests.any fun r => r.id = id) = false) (fresh : s.dedupOf n 16 id = none)
    (panel : x.panel = some p) (bound : s.pnl.panels[p].slots[slot] = some y) (binding : s.bindingOf n y.2 = some b)
    (free : s.sites[n].freeTag true = some tag) (up : s.sites[n].state = 3) :
    exec (.siteSignalToEngine id) s = .next ((s.emit (.siteStream n (siteHeader 4 0 0 0 tag 0 b.tag.toNat
      (b.target.toNat * 2 ^ 28 + sem.val * 2 ^ 20 + inc.toNat)) [])).modSite n fun y =>
        { y with requests := y.requests ++ [{ tag := BitVec.ofNat 12 tag, id := id, first := 0, count := 0 }] }) := by
  refine next_of_eq ?_
  rw [txn]
  dsimp only
  rw [kind, stage]
  dsimp only
  rw [if_neg ?open_, fresh]
  · dsimp only
    rw [panel, Option.bind_some, bound, Option.bind_some, binding]
    dsimp only
    rw [free]
  case open_ =>
    rw [joined, none_asked]
    rintro (a | a | a | a)
    · exact a rfl
    · exact absurd a (by decide)
    · exact a up
    · exact absurd a (by decide)

theorem exec_siteResponse_answers (s : State) (n : SiteId) (h : BitVec 128) (ws : List CodeWord) (r : SiteReq) (up : s.sites[n].state = 3)
    (type : (siteMsg h).type = 8 ∨ (siteMsg h).type = 9 ∨ (siteMsg h).type = 10)
    (found : (s.sites[n].requests.find? fun r => r.tag = (siteMsg h).tag) = some r) :
    exec (.siteResponse n h ws) s = .next (s.siteAnswered n r (siteStatus (siteMsg h).status) ((siteMsg h).words ws)) := by
  refine next_of_eq ((if_neg ?_).trans ?_)
  · rintro (a | a)
    · exact a up
    · rw [decide_eq_true type] at a
      exact absurd a (by decide)
  · rw [found]

theorem siteSettle_sites (s : State) (n : SiteId) (id : TxId) : (s.siteSettle n id).sites = s.sites := by
  unfold State.siteSettle
  split
  · rfl
  · split
    · unfold State.siteRemember
      split
      · split <;> rfl
      · rfl
    · rfl

theorem siteAnswered_site (s : State) (n : SiteId) (r : SiteReq) (st : BitVec 3) (ws : List CodeWord) :
    (s.siteAnswered n r st ws).sites[n] = { s.sites[n] with requests := s.sites[n].requests.filter fun q => q.tag ≠ r.tag } := by
  unfold State.siteAnswered
  exact (sites_at n (siteSettle_sites _ _ _)).trans (modSite_self s n _)

theorem exec_siteRequestTimeout_found (s : State) (n : SiteId) (tag : BitVec 12) (r : SiteReq)
    (found : (s.sites[n].requests.find? fun r => r.tag = tag) = some r) :
    exec (.siteRequestTimeout n tag) s = .next ((s.siteGiveUp n r.id).timedOut ((s.txn r.id).bind (·.panel)) (n, 16)) := by
  refine next_of_eq ?_
  rw [found]

/-- R266: the state after a transaction at a site port has been given up. -/
theorem siteGiveUp_refused (s : State) (n : SiteId) (id : TxId) (x : Txn) (txn : s.txn id = some x) :
    s.siteGiveUp n id = (s.modSite n fun x => { x with
      requests := x.requests.filter fun r => r.id ≠ id, held := x.held.filter fun h => h.id ≠ id }).refuseTxn x 3 := by
  unfold State.siteGiveUp
  dsimp only
  rw [show State.txn (s.modSite n _) id = some x from txn]

theorem timedOut_txn (s : State) (p : Option PanelId) (dst : FieldId × NiId) : (s.timedOut p dst).txn = s.txn := by
  refine txn_flight ?_
  unfold State.timedOut
  rw [noteTimeout_flight, State.logFault_net]
  rfl

theorem timedOut_hits (s : State) (p : Option PanelId) (dst : FieldId × NiId) :
    (s.timedOut p dst).net.timeoutHits = s.net.timeoutHits ++ [(32 * dst.1.val + dst.2.val, s.sclk)] := by
  unfold State.timedOut State.noteTimeout
  rw [State.modNet_net, State.logFault_net, logFault_sclk]
  rfl

/-! ## Coherence messages and CXL, R257 to R260 -/

theorem exec_cohReq_rdS (s : State) (n : SiteId) (j : Fin 6) (h : BitVec 128) (w : CodeWord) (pa : BitVec 52) (src : CohFrom)
    (up : s.sites[n].state = 3) (type : (siteMsg h).type = 0x10) (bindOk : s.cohAdmit n j (siteMsg h) = .ok (pa, src)) (k : (siteMsg h).arg % 16 = 0) :
    exec (.cohReq n j h w) s = .next (s.agentRequest (nativeAgent n j) pa (.rdS (nativeAgent n j) false) src) := by
  refine next_of_eq ((if_neg ?_).trans ?_)
  · rintro (a | a)
    · exact a up
    · exact a type
  · dsimp only
    rw [bindOk]
    exact if_pos k

theorem exec_cohRsp_taken (s : State) (n : SiteId) (j : Fin 6) (h : BitVec 128) (w : CodeWord) (pa : BitVec 52) (src : CohFrom)
    (up : s.sites[n].state = 3) (type : (siteMsg h).type = 0x13) (bindOk : s.cohAdmit n j (siteMsg h) = .ok (pa, src)) :
    exec (.cohRsp n j h w) s =
      .next ((s.takeAnswer (s.homeOf pa) (lineOf pa) (nativeAgent n j) ((siteMsg h).snoopAnswer w)).pump (s.homeOf pa)) := by
  refine next_of_eq ((if_neg ?_).trans ?_)
  · rintro (a | a)
    · exact a up
    · exact a type
  · dsimp only
    rw [bindOk]

/-- Settles O40, by what each of these commands comes to. -/
theorem siteStream : Obligations.SiteStream := by
  unfold Obligations.SiteStream
  refine ⟨?credit, ?rd, ?wr, ?at_, ?sig, ?endpoint, ?engine, ?response, ?timeout, ?cohReq, ?cohRsp, ?cxl⟩
  case credit =>
    intro s n h b e v up type bound granted well arg small there held
    exact ⟨_, exec_credit_added s n h b e v up type bound granted well arg small there held, credited_site s n e v⟩
  case rd =>
    intro s n h b z pa tag up type bindOk busy trans plain free trunks
    exact ⟨_, exec_siteRd_pa s n h b z pa up type bindOk busy trans plain,
      siteInject_sent s z s n b _ (.read (siteMsg h).count) (siteMsg h) tag (translated_flight trans) free trunks⟩
  case wr =>
    intro s n h b ws z pa tag up type long bindOk whole busy trans plain free trunks
    exact ⟨_, exec_siteWr_pa s n h b ws z pa up type long bindOk whole busy trans plain,
      siteInject_sent s z s n b pa (.write ((siteMsg h).words ws)) (siteMsg h) tag (translated_flight trans) free trunks⟩
  case at_ =>
    intro s n h b opd cmp op z pa tag up type code bindOk trans free trunks
    exact ⟨_, exec_siteAt_pa s n h b opd cmp op z pa up type code bindOk trans,
      siteInject_sent s z s n b pa ((siteMsg h).atomicKind op opd cmp) (siteMsg h) tag (translated_flight trans) free trunks⟩
  case sig =>
    intro s n h b a tag up type bindOk array free trunks
    exact ⟨_, exec_siteSig_array s n h b a up type bindOk array, siteInject_sent s s s n b 0 (.signal _ _ _ _ 0) (siteMsg h) tag rfl free trunks⟩
  case endpoint =>
    intro s n id e off ws x txn kind stage held asked here poor up
    refine ⟨_, exec_endpointWrite_held s n id e off ws x txn kind stage held asked here poor up, ?_⟩
    rw [modSite_self, held]
    rfl
  case engine =>
    intro s id x n sem inc slot p y b tag txn kind stage joined asked fresh panel bound binding free up
    exact ⟨_, exec_siteSignalToEngine_sent s id x n sem inc slot p y b tag txn kind stage joined asked fresh panel bound binding free up,
      modSite_self _ n _, rfl⟩
  case response =>
    intro s n h ws r up type found
    exact ⟨_, exec_siteResponse_answers s n h ws r up type found, siteAnswered_site s n r _ _⟩
  case timeout =>
    intro s n tag r x found txn
    refine ⟨_, exec_siteRequestTimeout_found s n tag r found, ?_⟩
    have own : x.id = r.id := txn_id txn
    rw [siteGiveUp_refused s n r.id x txn, timedOut_txn, timedOut_hits, sites_at n (timedOut_sites _ _ _), ← own]
    refine ⟨?_, ?_, rfl⟩
    · exact answerTxn_txn (s.modSite n _) x.id 3 _ x (own ▸ txn)
    · exact congrArg SiteState.requests (modSite_self s n _)
  case cohReq =>
    intro s n j h w pa src up type bindOk k may way clear
    exact ⟨_, exec_cohReq_rdS s n j h w pa src up type bindOk k,
      agentRequest_granted s (nativeAgent n j) pa _ src _ may (by unfold State.wants; rw [decide_eq_true (nativeAgent_high n j)]; rfl) way clear
        fun z c => finish_rdS z _ _ _ src s c⟩
  case cohRsp =>
    intro s n j h w pa src b q up type bindOk at_ found tag cxl more calm
    have wbp : ((siteMsg h).snoopAnswer w).wbp = none := if_neg (ne_true_of_eq_false tag)
    obtain ⟨left, waits, -⟩ := takeAnswer_more s (s.homeOf pa) (lineOf pa) (nativeAgent n j) ((siteMsg h).snoopAnswer w) b q at_ found wbp cxl more
    refine ⟨_, exec_cohRsp_taken s n j h w pa src up type bindOk, ?_⟩
    rw [pump_nil _ _ (waits.trans calm)]
    exact left
  case cxl =>
    intro s n cls up room
    exact ⟨_, next_of_eq (if_neg (not_not_intro up)), note_out _ _ rfl, logFault_flog (s.emit _) _ room⟩

end Sys2Proof.Machine
end

section
/-!
PROOFS. Loading and applying a hub image, and what a host read came to.
-/

namespace Sys2Proof.Machine

theorem State.imageDone_img (s : State) : s.imageDone.img = { s.img with status := 6, error := 0, section_ := 0, entry := 0 } :=
  imageEnd_img s 6 { error := 0 }

/-! ## The request and its read, R310 and R311 -/

/-- R310: the state after the bits of a request have been taken. -/
def State.imageAsked (s : State) (v : Word) : State :=
  (s.modImg fun i => { i with commitSvn := bit v 2, wait := bit v 1, port := asFin 2 (fld v.toNat 0 1) }).modImg fun i => { i with kind := 0, panel := 0 }

theorem exec_imgGo_request (s : State) (v : Word) (open_ : (s.pf0Open 0 || s.pf0Open 1) = true) (go : bit v 31 = true) (idle : s.img.status = 0)
    (plain : s.guarded = false) (length : badLength s.img.length.toNat = false) :
    exec (.imgGo v) s = .next ((s.imageAsked v).requestImage) := by
  refine next_of_eq ((State.byPf0_open _ open_).trans ((if_neg ?_).trans ((if_neg (by rw [go]; decide)).trans ?_)))
  · rw [idle, go]
    decide
  · dsimp only
    rw [plain]
    exact if_neg (ne_true_of_eq_false length)

theorem requestImage_img (s : State) (up : s.ports[s.img.port].l0 = true) :
    s.requestImage.img = { s.img with status := 1, error := 0, section_ := 0, entry := 0, staging := [], newBinds := [], failing := false } := by
  unfold State.requestImage
  dsimp only
  rw [if_pos up]
  exact State.issueRead_img _ _ _ _ _ _

/-- R311: the image in the staging store. -/
theorem imageRead_ok (s : State) (bs : List Byte) (whole : bs.length = s.img.length.toNat) :
    (s.imageRead (.ok bs)).img = { s.img with
      staging := bs, kind := BitVec.ofNat 8 (fld (wordAt bs 1) 8 8), panel := BitVec.ofNat 8 (wordAt bs 8)
      status := if fld (wordAt bs 1) 8 8 = 1 ∧ s.img.wait = true then 2 else 3 } := by
  unfold State.imageRead
  dsimp only
  rw [if_neg (not_not_intro whole)]
  rfl

theorem imageRead_silent (s : State) : (s.imageRead .silent).img.status = 7 ∧ (s.imageRead .silent).img.error = 2 := imageRefused_status _ _

theorem readAnswered_image (s : State) (p : PortId) (n : Nat) (x : HostReadReq) (r : HostRead) (found : (s.ports[p].reads.find? fun x => x.serial = n) = some x)
    (use : x.use = .image) (status : s.img.status = 1) (may : s.mayRead p = true) :
    s.readAnswered p n r = (s.modPort p fun y => { y with reads := y.reads.filter fun z => z.serial ≠ n }).imageRead r := by
  unfold State.readAnswered
  rw [found]
  dsimp only
  rw [use, if_pos may]
  exact if_pos status

theorem exec_imageWaitEnd_expired (s : State) (waits : s.img.status = 2) :
    exec (.imageWaitEnd true) s = .next (s.modImg fun i => { i with status := 3 }) :=
  next_of_eq (if_pos (by rw [waits]; rfl))

theorem exec_imageCheckDone_create (s : State) (i : Image) (status : s.img.status = 3) (checked : s.checkImage = .ok i) (kind : i.header.kind = 2) :
    exec .imageCheckDone s = .next ((s.modImg fun j => { j with status := 4 }).modPanel (imagePanel i.header) fun _ => { state := 1 }) := by
  refine next_of_eq ((if_neg (not_not_intro status)).trans ?_)
  rw [checked]
  exact if_pos kind

/-! ## Base images, R303 to R305 -/

theorem exec_baseImageApply_checked (s : State) (i : Image) (status : s.img.status = 4) (kind : s.img.kind = 1) (checked : s.checkImage = .ok i) :
    exec .baseImageApply s = .next (s.applyBase i) := by
  refine next_of_eq ((if_neg fun h => h.elim (fun a => a status) fun a => a kind).trans ?_)
  rw [checked]

/-- The end of a base image's act: the load is in effect, and what the image has given stands. -/
theorem baseEnd (y b : State) (c : Prop) [Decidable c] (f : Fuses → Fuses) :
    ((if c then y.modFuse f else y).imageDone.readyFrom b).img = { y.img with status := 6, error := 0, section_ := 0, entry := 0 } ∧
      ((if c then y.modFuse f else y).imageDone.readyFrom b).net = y.net ∧ ((if c then y.modFuse f else y).imageDone.readyFrom b).coh = y.coh := by
  rw [State.readyFrom_img, State.readyFrom_net, State.readyFrom_coh, State.imageDone_img, State.imageDone_net, State.imageDone_coh]
  split <;> exact ⟨rfl, rfl, rfl⟩

theorem applyBase_state (s : State) (i : Image) :
    (s.applyBase i).img.status = 6 ∧ (s.applyBase i).img.loaded = true ∧ (s.applyBase i).img.baseId = i.header.imageId ∧
      (s.applyBase i).img.fieldMask = (parseBase i).fields ∧ (s.applyBase i).net.tableValid = true ∧
      (s.applyBase i).net.stencils = (parseBase i).stencils ∧ (s.applyBase i).coh.tableValid = true ∧
      (s.applyBase i).coh.homeMap = (parseBase i).homes ∧ (s.applyBase i).coh.owner = (parseBase i).owner ∧
      (s.applyBase i).coh.valid = (parseBase i).valid := by
  unfold State.applyBase
  dsimp only
  generalize (allFin 10).foldl (State.holdLinks (parseBase i)) _ = z
  obtain ⟨img, net, coh⟩ := baseEnd _ s (s.img.commitSvn = true) fun f =>
    { f with svnMin := if f.svnMin.toNat < i.header.svn.toNat then i.header.svn else f.svnMin }
  rw [img, net, coh]
  exact ⟨rfl, rfl, rfl, rfl, rfl, rfl, rfl, rfl, rfl, rfl⟩

/-! ## Create, destroy and rebind images, R314 to R317 -/

theorem exec_panelCreateApply_checked (s : State) (i : Image) (status : s.img.status = 4) (kind : s.img.kind = 2)
    (checked : (s.modPanel (asFin 40 s.img.panel.toNat) fun x => { x with state := 0 }).checkImage = .ok i) :
    exec .panelCreateApply s = .next (s.applyCreate i (asFin 40 s.img.panel.toNat)) := by
  refine next_of_eq ((if_neg fun h => h.elim (fun a => a status) fun a => a kind).trans ?_)
  rw [checked]

/-- R314: the panel that a create image makes. -/
theorem applyCreate_panel (s : State) (i : Image) (p : PanelId) :
    (s.applyCreate i p).img.status = 5 ∧ (s.applyCreate i p).pnl.panels[p].state = 1 ∧
      (s.applyCreate i p).pnl.panels[p].sealed_ = (parsePanel i).sealed_ ∧
      (s.applyCreate i p).pnl.panels[p].arrays = (parsePanel i).named.map (fun a => some (asFin 40 a)) ∧
      (s.applyCreate i p).pnl.panels[p].grants = i.grantEntries.map grantOf ∧ (s.applyCreate i p).pnl.panels[p].ranges = i.cohEntries := by
  refine ⟨rfl, ?_⟩
  unfold State.applyCreate
  dsimp only
  rw [State.modImg_pnl, (foldBind_keep p i.bindEntries _).1]
  have drawn : ∀ (c : Bool) (z : State), (if c = true then z.drawn else z).pnl = z.pnl := by
    intro c z
    cases c <;> rfl
  rw [drawn]
  exact create_panel _ _ (fun r => r ++ i.keyRanges p (freshKeys s.draws)) i p

theorem exec_panelDestroyApply_checked (s : State) (i : Image) (status : s.img.status = 4) (kind : s.img.kind = 3) (checked : s.checkImage = .ok i) :
    exec .panelDestroyApply s = .next ((s.enterDust (imagePanel i.header)).imageDone) := by
  refine next_of_eq ((if_neg fun h => h.elim (fun a => a status) fun a => a kind).trans ?_)
  rw [checked]

theorem exec_panelRebindApply_checked (s : State) (i : Image) (status : s.img.status = 4) (kind : s.img.kind = 4) (checked : s.checkImage = .ok i) :
    exec .panelRebindApply s = .next (((i.bindEntries.filter fun e => !s.keptBind (imagePanel i.header) e).foldl
      (State.addBind (imagePanel i.header)) s).modImg fun g => { g with status := 5 }) := by
  refine next_of_eq ((if_neg fun h => h.elim (fun a => a status) fun a => a kind).trans ?_)
  rw [checked]

/-! ## The end of the binding phase, R267 and R314 -/

theorem exec_imageBindingDone_create (s : State) (i : Image) (status : s.img.status = 5) (going : s.img.failing = false)
    (alive : (s.img.newBinds.any fun y => !s.sites[y.1].inService) = false)
    (bound : (s.img.newBinds.any fun y => (s.bindingAt y.1 y.2).all fun b => b.phase ≠ .bound) = false)
    (parsed : parseImage s.img.staging s.img.length.toNat = .ok i) (kind : i.header.kind = 2) :
    exec .imageBindingDone s = .next (((s.finishCreate i (imagePanel i.header)).modImg fun g => { g with newBinds := [] }).imageDone) := by
  refine next_of_eq ((if_neg ?_).trans ((if_neg (ne_true_of_eq_false alive)).trans ((if_neg (ne_true_of_eq_false bound)).trans ?_)))
  · rw [going]
    exact fun h => h.elim (fun a => a status) (by decide)
  · rw [parsed]
    dsimp only
    rw [if_pos kind]

theorem finishCreate_panel (s : State) (i : Image) (p : PanelId) :
    (s.finishCreate i p).pnl.panels[p] = { s.pnl.panels[p] with
      state := if (parsePanel i).sealed_ then 2 else 3, vf := some (asFin 40 ((parsePanel i).vf - 1)), slots := i.slots, fill := (parsePanel i).sealed_ } :=
  State.modPanel_self s p _

/-- Settles O41, by what each of these commands comes to. -/
theorem imageLoads : Obligations.ImageLoads := by
  unfold Obligations.ImageLoads
  refine ⟨?go, ?read, ?hostRead, ?silent, ?wait, ?check, ?base, ?create, ?destroy, ?rebind, ?bound⟩
  case go =>
    intro s v open_ go idle plain length up
    refine ⟨_, exec_imgGo_request s v open_ go idle plain length, ?_⟩
    rw [requestImage_img (s.imageAsked v) (up _)]
    exact ⟨rfl, rfl, rfl, rfl, rfl⟩
  case read =>
    intro s bs status whole
    refine ⟨_, next_of_eq (if_pos status), ?_⟩
    rw [imageRead_ok s bs whole]
    exact ⟨rfl, rfl, rfl⟩
  case hostRead =>
    intro s bs p n x up found use status whole may
    refine ⟨_, next_of_eq ((if_pos up).trans (readAnswered_image s p n x (.ok bs) found use status may)), ?_⟩
    rw [imageRead_ok (s.modPort p _) bs whole]
    exact ⟨rfl, rfl, rfl⟩
  case silent =>
    intro s p n x found use status may
    exact ⟨_, next_of_eq (readAnswered_image s p n x .silent found use status may), imageRead_silent _⟩
  case wait =>
    intro s waits
    exact ⟨_, exec_imageWaitEnd_expired s waits, rfl⟩
  case check =>
    intro s i status checked kind
    exact ⟨_, exec_imageCheckDone_create s i status checked kind, rfl, congrArg PanelState.state (State.modPanel_self _ _ _)⟩
  case base =>
    intro s i status kind checked
    exact ⟨_, exec_baseImageApply_checked s i status kind checked, applyBase_state s i⟩
  case create =>
    intro s i p status kind hp checked
    subst hp
    exact ⟨_, exec_panelCreateApply_checked s i status kind checked, applyCreate_panel s i _⟩
  case destroy =>
    intro s i status kind checked live out
    obtain ⟨state, phase⟩ := enterDust_panel s (imagePanel i.header) live out
    refine ⟨_, exec_panelDestroyApply_checked s i status kind checked, ?_⟩
    rw [State.imageDone_img, State.imageDone_pnl]
    exact ⟨rfl, state, phase⟩
  case rebind =>
    intro s i status kind checked
    exact ⟨_, exec_panelRebindApply_checked s i status kind checked, rfl, foldBind_keep _ _ s⟩
  case bound =>
    intro s i status going alive bound parsed kind
    refine ⟨_, exec_imageBindingDone_create s i status going alive bound parsed kind, ?_⟩
    rw [State.imageDone_img, State.imageDone_pnl, State.modImg_pnl, finishCreate_panel]
    exact ⟨rfl, rfl, rfl, rfl, rfl⟩

end Sys2Proof.Machine
end

section
/-!
PROOFS. Site bindings: BIND, BOUND, UNBIND, CLEARED and their timeouts.
-/

namespace Sys2Proof.Machine

section command

variable (s : State) (n : SiteId) (tag : Byte) (b : Binding) (at_ : s.bindingAt n tag = some b)
include at_

theorem exec_bind_sent (new : b.phase = .new) (up : s.sites[n].state = 3) (going : s.img.failing = false) :
    exec (.bind n tag) s = .next ((s.modBinding n tag fun y => { y with phase := .sent }).tellSite n 5
      (tag.toNat + b.slot.val * 2 ^ 8 + b.target.toNat * 2 ^ 12 + flag s.pnl.panels[b.panel].sealed_ 16)) := by
  refine next_of_eq ?_
  rw [at_]
  refine if_neg ?_
  rw [going]
  rintro (a | a | a)
  · exact a new
  · exact a up
  · exact Bool.false_ne_true a

theorem exec_bound_acked (sent : b.phase = .sent) (up : s.sites[n].inService = true) :
    exec (.bound n tag) s = .next ((s.modBinding n tag fun y => { y with phase := .bound }).clearCredit n b) := by
  refine next_of_eq ?_
  rw [at_]
  refine if_neg ?_
  rw [up]
  rintro (a | a)
  · exact a sent
  · exact Bool.false_ne_true a

theorem exec_boundTimeout_fails (sent : b.phase = .sent) (new : (n, tag) ∈ s.img.newBinds) (status : s.img.status = 5) :
    exec (.boundTimeout n tag) s = .next (s.dropBinding n tag).failLoad := by
  refine next_of_eq ?_
  rw [at_]
  refine if_neg ?_
  rintro (a | a | a)
  · exact a sent
  · exact a new
  · exact a status

theorem exec_unbind_sent (due : s.unbindDue n b = true) :
    exec (.unbind n tag) s =
      .next (((s.modBinding n tag fun y => { y with phase := .unbinding }).clearCredit n b).tellSite n 7 tag.toNat) := by
  refine next_of_eq ?_
  rw [at_]
  exact if_pos due

theorem exec_cleared_acked (gone : b.phase = .unbinding) : exec (.cleared n tag) s = .next (s.dropBinding n tag).settleLoad := by
  refine next_of_eq ?_
  rw [at_]
  exact if_pos gone

theorem exec_clearedTimeout_kills (gone : b.phase = .unbinding) :
    exec (.clearedTimeout n tag) s = .next (((s.killSite n 0xA).dropBinding n tag).settleLoad) := by
  refine next_of_eq ?_
  rw [at_]
  exact if_pos gone

end command

/-- Settles O42, by what each of these commands comes to. -/
theorem siteBindings : Obligations.SiteBindings := by
  unfold Obligations.SiteBindings
  refine ⟨?bind, ?bound, ?boundTimeout, ?unbind, ?cleared, ?clearedTimeout⟩
  case bind =>
    intro s n tag b at_ new up going
    exact ⟨_, exec_bind_sent s n tag b at_ new up going, modBinding_at s n tag _ b (fun _ => rfl) at_, rfl⟩
  case bound =>
    intro s n tag b at_ sent up
    exact ⟨_, exec_bound_acked s n tag b at_ sent up, (clearCredit_at _ n n tag b).trans (modBinding_at s n tag _ b (fun _ => rfl) at_)⟩
  case boundTimeout =>
    intro s n tag b at_ sent new status
    exact ⟨_, exec_boundTimeout_fails s n tag b at_ sent new status, failLoad_none _ n tag (dropBinding_at s n tag)⟩
  case unbind =>
    intro s n tag b at_ due
    exact ⟨_, exec_unbind_sent s n tag b at_ due, (clearCredit_at _ n n tag b).trans (modBinding_at s n tag _ b (fun _ => rfl) at_), _, rfl⟩
  case cleared =>
    intro s n tag b at_ gone
    exact ⟨_, exec_cleared_acked s n tag b at_ gone, settleLoad_none _ n tag (dropBinding_at s n tag)⟩
  case clearedTimeout =>
    intro s n tag b at_ gone
    exact ⟨_, exec_clearedTimeout_kills s n tag b at_ gone, settleLoad_none _ n tag (dropBinding_at _ n tag)⟩

end Sys2Proof.Machine
end

section
/-!
PROOFS. The phases of dust sheet, and the fill of a sealed panel.
-/

namespace Sys2Proof.Machine

/-! ## Phases, R322 -/

theorem dustAt_parts {s : State} {p : PanelId} {phase : BitVec 3} (h : s.dustAt p phase = true) :
    s.pnl.panels[p].state = 5 ∧ s.pnl.panels[p].phase = phase := by
  unfold State.dustAt at h
  simpa only [Bool.and_eq_true, decide_eq_true_eq] using h

/-- A panel in dust sheet goes on to a phase, from a state that left its panel as it was. -/
theorem toPhase_panel {s z : State} {p : PanelId} (phase : BitVec 3) (same : z.pnl = s.pnl) (dust : s.pnl.panels[p].state = 5) :
    (z.toPhase p phase).pnl.panels[p].phase = phase ∧ (z.toPhase p phase).pnl.panels[p].state = 5 := by
  unfold State.toPhase
  rw [State.modPanel_self, same]
  exact ⟨rfl, dust⟩

/-- What a step of a list establishes, and every step keeps, holds once the list has been run through. -/
theorem foldl_establishes {α β : Type} (Q : β → Prop) (g : β → α → β) (keep : ∀ t x, Q t → Q (g t x)) {a : α} (once : ∀ t, Q (g t a)) :
    ∀ (l : List α) (s : β), a ∈ l → Q (l.foldl g s) := by
  have kept : ∀ (l : List α) (s : β), Q s → Q (l.foldl g s) := by
    intro l
    induction l with
    | nil => exact fun _ h => h
    | cons x xs ih => exact fun s h => ih _ (keep s x h)
  intro l
  induction l with
  | nil => exact fun _ h => absurd h List.not_mem_nil
  | cons x xs ih =>
    intro s h
    rcases List.mem_cons.mp h with rfl | h
    · exact kept xs _ (once s)
    · exact ih _ h

/-! ## Translations, keys and stores forgotten -/

/-- R322 phase 3: the state in which every translation unit has forgotten a panel. -/
def State.forgotten (s : State) (p : PanelId) : State := (allFin 8).foldl (fun t f => t.modTu f fun u => u.forget p) s

theorem forgotten_pnl (s : State) (p : PanelId) : (s.forgotten p).pnl = s.pnl :=
  foldl_keep State.pnl (fun t f => t.modTu f fun u => u.forget p) (fun _ _ => rfl) _ s

theorem forget_siteTlb (u : TuState) (p : PanelId) : ∀ e ∈ (u.forget p).siteTlb, e.panel ≠ p :=
  fun _ h => of_decide_eq_true (List.mem_filter.mp h).2

theorem forgotten_siteTlb (s : State) (p : PanelId) (f : FieldId) : ∀ e ∈ (s.forgotten p).fields[f].tu.siteTlb, e.panel ≠ p := by
  refine foldl_establishes (fun t : State => ∀ e ∈ t.fields[f].tu.siteTlb, e.panel ≠ p) _ (fun t x kept => ?_) (fun t => ?_) _ s (mem_allFin f)
  · rw [modTu_fields]
    split
    · exact forget_siteTlb _ p
    · exact kept
  · rw [modTu_self]
    exact forget_siteTlb _ p

theorem dropKeys_panel (s : State) (p : PanelId) : (s.dropKeys p).pnl.panels[p] = { s.pnl.panels[p] with keys := 0 } := State.modPanel_self _ p _

/-- R322 phase 5: the state in which the stores of a list of arrays are zero. -/
def State.arraysZeroed (s : State) (l : List ArrayId) : State := l.foldl State.zeroArray s

theorem arraysZeroed_rest (s : State) (l : List ArrayId) : (s.arraysZeroed l).pnl = s.pnl ∧ (s.arraysZeroed l).mem = s.mem :=
  ⟨foldl_keep State.pnl State.zeroArray (fun _ _ => rfl) l s, foldl_keep State.mem State.zeroArray (fun _ _ => rfl) l s⟩

theorem zeroArray_array (s : State) (a b : ArrayId) : (s.zeroArray b).arrays[a] = if a = b then s.arrays[a].zeroStores else s.arrays[a] :=
  vmod_get _ _ _ _

theorem arraysZeroed_array (s : State) (l : List ArrayId) (a : ArrayId) (h : a ∈ l) :
    (s.arraysZeroed l).arrays[a].vec.localStore = [] ∧ (s.arraysZeroed l).arrays[a].vec.zeroed = true := by
  refine foldl_establishes (fun t : State => t.arrays[a].vec.localStore = [] ∧ t.arrays[a].vec.zeroed = true) _ (fun t x kept => ?_) (fun t => ?_) l s h
  · rw [zeroArray_array]
    split
    · exact ⟨rfl, rfl⟩
    · exact kept
  · rw [zeroArray_array, if_pos rfl]
    exact ⟨rfl, rfl⟩

/-! ## Release, R322 phase 6 -/

theorem freePanel_panel (s : State) (p : PanelId) : (s.freePanel p).pnl.panels[p] = {} ∧ (s.freePanel p).img.panelIds[p] = 0 :=
  ⟨State.modPanel_self _ p _, vset_self _ _ _⟩

theorem settleRetire_none (s : State) (h : s.lcs.retiring = none) : s.settleRetire = s := by
  unfold State.settleRetire
  rw [h]

/-- Settles O43, by what each of these commands comes to. -/
theorem dustSteps : Obligations.DustSteps := by
  unfold Obligations.DustSteps
  refine ⟨?halt, ?unbind, ?flush, ?keys, ?zero, ?release, ?fill⟩
  case halt =>
    intro s p dust still
    exact ⟨_, next_of_eq (if_pos (by rw [dust, still]; rfl)),
      toPhase_panel 2 ((State.withdrawTwin_pnl _ p).trans (endHalted_pnl s p)) (dustAt_parts dust).1⟩
  case unbind =>
    intro s p dust none_bound
    exact ⟨_, next_of_eq (if_pos (by rw [dust, none_bound]; rfl)), toPhase_panel 3 (State.flushLines_pnl _ _ _) (dustAt_parts dust).1⟩
  case flush =>
    intro s p dust flushed
    obtain ⟨phase, state⟩ := toPhase_panel 4 (forgotten_pnl s p) (dustAt_parts dust).1
    exact ⟨(s.forgotten p).toPhase p 4, next_of_eq (if_pos (by rw [dust, flushed]; rfl)), phase, state, forgotten_siteTlb s p⟩
  case keys =>
    intro s p dust
    refine ⟨_, next_of_eq (if_pos dust), ?_⟩
    unfold State.toPhase
    rw [State.modPanel_self, dropKeys_panel]
    exact ⟨rfl, (dustAt_parts dust).1, rfl, rfl⟩
  case zero =>
    intro s p a dust own
    obtain ⟨pnl, mem⟩ := arraysZeroed_rest (s.zeroGrants p fun g => g.pool) (s.pnl.panels[p].arrays.filterMap id)
    obtain ⟨phase, state⟩ := toPhase_panel 6 (pnl.trans (State.zeroGrants_pnl s p _)) (dustAt_parts dust).1
    exact ⟨((s.zeroGrants p fun g => g.pool).arraysZeroed (s.pnl.panels[p].arrays.filterMap id)).toPhase p 6, next_of_eq (if_pos dust),
      phase, state, mem, arraysZeroed_array _ _ a own⟩
  case release =>
    intro s p dust quiet
    exact ⟨_, next_of_eq ((if_pos dust).trans (settleRetire_none _ ((congrArg LcsState.retiring (State.freePanel_lcs s p)).trans quiet))),
      freePanel_panel s p⟩
  case fill =>
    intro s p fill
    refine ⟨_, next_of_eq (if_pos fill), ?_, rfl⟩
    rw [State.modPanel_self, State.zeroGrants_pnl]

end Sys2Proof.Machine
end

section
/-!
PROOFS. Critical commands of the mailbox.
-/

namespace Sys2Proof.Machine

/-! ## The end of a command, R335 -/

/-- R334: a command that is run ends with what it answers, on the state that it leaves. -/
theorem mailRun_answers {s z v : State} {op : Byte} {named used : Nat → Bool} {run : State → Byte × State} {r : Byte}
    (accepted : s.mailAccepted op named used z) (answer : run z = (r, v)) : s.mailRun op named used run = v.mailEnd r := by
  rw [mailRun_ok s op named used run z accepted, answer]

theorem mailEnd_done (v : State) : (v.mailEnd 0).pnl = { v.pnl with cmdState := 3, result := 0 } := mailEnd_ok v 0

theorem mailEnd_failed (v : State) {r : Byte} (h : r ≠ 0) : (v.mailEnd r).pnl = { v.pnl with cmdState := 4, result := r } := by
  rw [mailEnd_ok, if_neg h]

theorem mailEnd_mem (v : State) (r : Byte) : (v.mailEnd r).mem = v.mem := State.irq_mem _ _

theorem mailEnd_fuse (v : State) (r : Byte) : (v.mailEnd r).fuse = v.fuse := State.irq_fuse _ _

/-- A command's state and result, and that it leaves the rest of the panel state as `v` has it. -/
theorem mailEnd_shows (v : State) : (v.mailEnd 0).pnl.cmdState = 3 ∧ (v.mailEnd 0).pnl.result = 0 := by
  rw [mailEnd_done]
  exact ⟨rfl, rfl⟩

theorem mailEnd_refuses (v : State) {r : Byte} (h : r ≠ 0) : (v.mailEnd r).pnl.cmdState = 4 ∧ (v.mailEnd r).pnl.result = r := by
  rw [mailEnd_failed v h]
  exact ⟨rfl, rfl⟩

theorem mailEnd_panels (v : State) (r : Byte) : (v.mailEnd r).pnl.panels = v.pnl.panels := by rw [mailEnd_ok]

theorem mailEnd_commons (v : State) (r : Byte) : (v.mailEnd r).pnl.commons = v.pnl.commons ∧ (v.mailEnd r).pnl.keyRanges = v.pnl.keyRanges := by
  rw [mailEnd_ok]
  exact ⟨rfl, rfl⟩

/-! ## Keys, R330 and R334 -/

/-- What installing the keys of a block answers. -/
theorem installKeys_wrong (w : State) (bs : List Byte) (h : Config.sha384 bs ≠ BitVec.ofNat 384 (natOf (w.argBytes 3 12))) :
    w.installKeys bs = (0x0A, w) := if_pos h

theorem installKeys_opened (w : State) (bs k : List Byte) (h : Config.sha384 bs = BitVec.ofNat 384 (natOf (w.argBytes 3 12)))
    (opened : Config.keyUnwrap (operatorWrapKey w.rotateKey) ((bs.drop 2080).take 56) = some k) :
    w.installKeys bs = (0, w.modFuse fun f =>
      { f with operatorKey := some (BitVec.ofNat 384 (natOf k)), operatorEcdsa := bs.take 97, operatorMlDsa := (bs.drop 128).take 1952 }) := by
  refine (if_neg (not_not_intro h)).trans ?_
  rw [opened]

theorem exec_opkeyRotate_installs (s z w : State) (block : HostRead) (bs : List Byte) (open_ : (s.pf0Open 0 || s.pf0Open 1) = true)
    (accepted : s.mailAccepted 2 (fun a => isOperator a || (isVendor a && s.fuse.operatorKey.isNone)) (fun i => decide (i < 15)) z)
    (length : fld (z.arg 2).toNat 0 12 = 2136)
    (read : z.mailRead (asFin 2 (fld (z.arg 2).toNat 31 1)) (z.argPair 0) 2136 block = (some bs, w)) :
    exec (.opkeyRotate block) s = .next ((w.installKeys bs).2.mailEnd (w.installKeys bs).1) := by
  refine next_of_eq ((State.byPf0_open _ open_).trans (mailRun_answers accepted ?_))
  refine (if_neg (not_not_intro length)).trans ?_
  rw [length, read]

theorem exec_panelAuthSet_keyed (s z : State) (p : PanelId) (open_ : (s.pf0Open 0 || s.pf0Open 1) = true)
    (accepted : s.mailAccepted 3 isOperator (fun i => decide (i < 12)) z) (named : panelNamed z.pnl.cmdPanel = some p)
    (live : ¬ (z.pnl.panels[p].state = 0 ∨ z.pnl.panels[p].state = 1 ∨ z.pnl.panels[p].state = 5)) (plain : z.pnl.panels[p].sealed_ = false) :
    exec .panelAuthSet s = .next ((z.modPanel p fun y =>
      { y with authKey := some (BitVec.ofNat 384 (natOf (z.argBytes 0 12))), counter := 0 }).mailEnd 0) := by
  refine next_of_eq ((State.byPf0_open _ open_).trans (mailRun_answers accepted ?_))
  rw [named]
  exact (if_neg live).trans (if_neg (ne_true_of_eq_false plain))

theorem exec_panelDestroy_dust (s z : State) (open_ : (s.pf0Open 0 || s.pf0Open 1) = true) (accepted : s.mailAccepted 4 isPanel (fun _ => false) z) :
    exec .panelDestroy s = .next ((z.enterDust (asFin 40 z.pnl.cmdPanel.toNat)).mailEnd 0) :=
  next_of_eq ((State.byPf0_open _ open_).trans (mailRun_answers accepted rfl))

theorem exec_debugEnable_sets (s z : State) (open_ : (s.pf0Open 0 || s.pf0Open 1) = true) (accepted : s.mailAccepted 8 isVendor (fun i => i = 0) z)
    (state : z.lcs.state = lcsTestUnlocked ∨ z.lcs.state = lcsPersonalized) (target : z.lcs.target ≠ some lcsFielded)
    (none_sealed : bit (z.arg 0) 0 = true → z.sealedPanels = 0) :
    exec .debugEnable s = .next ((z.modPnl fun x => { x with debug := bit (z.arg 0) 0 }).mailEnd 0) := by
  refine next_of_eq ((State.byPf0_open _ open_).trans (mailRun_answers accepted (if_neg ?_)))
  rintro (⟨a, b⟩ | a | ⟨a, b⟩)
  · exact state.elim a b
  · exact target a
  · exact absurd b (by rw [none_sealed a]; exact Nat.lt_irrefl 0)

/-! ## Bundles and host bytes, R336 and R338 -/

theorem exec_bundleLoad_panel (s z w : State) (bundle : HostRead) (bs : List Byte) (b : Bundle) (open_ : (s.pf0Open 0 || s.pf0Open 1) = true)
    (accepted : s.mailAccepted 5 isPanel (fun i => decide (i < 5) || decide (i < 7)) z) (own : bit (s.arg 4) 31 = false)
    (read : z.mailRead (asFin 2 (fld (z.arg 4).toNat 8 1)) (z.argPair 0) (z.argPair 2) bundle = (some bs, w))
    (parsed : parseBundle bs (z.argPair 2) = .ok b) :
    exec (.bundleLoad bundle) s = .next ((w.loadPanel (asFin 40 z.pnl.cmdPanel.toNat) (z.argPair 5) b).2.mailEnd
      (w.loadPanel (asFin 40 z.pnl.cmdPanel.toNat) (z.argPair 5) b).1) := by
  refine next_of_eq ((State.byPf0_open _ open_).trans ?_)
  unfold State.bundleLoad
  dsimp only
  rw [own]
  refine mailRun_answers accepted ?_
  rw [read]
  dsimp only
  rw [parsed]
  rfl

/-- R424: the host port as the agent of the bytes it writes to a panel. -/
def writeAgent (p : PanelId) (port : PortId) : Agent := { kind := 4, id := BitVec.ofNat 16 port.val, panel := some p, field := fieldOfPort port }

/-- What the bytes of a PANEL_WRITE answer, once they have been read. -/
def State.writtenBytes (z w : State) (bs : List Byte) : Byte × State :=
  if Config.sha384 bs ≠ BitVec.ofNat 384 (natOf (z.argBytes 5 12)) then (0x0A, w)
  else (0, w.storeWords (writeAgent (asFin 40 z.pnl.cmdPanel.toNat) (asFin 2 (fld (z.arg 2).toNat 31 1))) (z.argPair 3) (codeWords bs))

theorem exec_panelWrite_read (s z w : State) (data : HostRead) (bs : List Byte) (open_ : (s.pf0Open 0 || s.pf0Open 1) = true)
    (accepted : s.mailAccepted 9 isPanel (fun i => decide (i < 17)) z)
    (fits : ¬ (fld (z.arg 2).toNat 0 25 % 64 ≠ 0 ∨ 16777216 < fld (z.arg 2).toNat 0 25 ∨ z.argPair 3 % 64 ≠ 0 ∨
      !z.inOwnGrant (asFin 40 z.pnl.cmdPanel.toNat) (z.argPair 3) (fld (z.arg 2).toNat 0 25)))
    (read : z.mailRead (asFin 2 (fld (z.arg 2).toNat 31 1)) (z.argPair 0) (fld (z.arg 2).toNat 0 25) data = (some bs, w)) :
    exec (.panelWrite data) s = .next ((z.writtenBytes w bs).2.mailEnd (z.writtenBytes w bs).1) := by
  refine next_of_eq ((State.byPf0_open _ open_).trans (mailRun_answers accepted ((if_neg fits).trans ?_)))
  rw [read]
  rfl

/-! ## Commons regions, R337 -/

/-- The region that an argument word numbers. -/
theorem region_of_number {w : Word} {n : Fin 32} (number : w.toNat = n.val) : n = asFin 32 w.toNat := by
  rw [number]
  exact Fin.ext (Nat.mod_eq_of_lt n.isLt).symm

theorem defineRegion_commons (s : State) (n : Fin 32) (primary mirror length : Nat) :
    (s.defineRegion n primary mirror length).pnl.commons[n] =
      { state := 2, mirrored := mirror ≠ 0, primary := primary, mirror := mirror, length := length, keys := freshKeys s.draws } := by
  unfold State.defineRegion
  dsimp only
  rw [State.putRegion_pnl]
  exact vmod_self _ _ _

theorem releaseRegion_commons (s : State) (n : Fin 32) :
    (s.releaseRegion n).pnl.commons[n] = {} ∧ (s.releaseRegion n).pnl.keyRanges = s.pnl.keyRanges.filter fun r => r.region ≠ some n := by
  unfold State.releaseRegion State.modCommons
  dsimp only
  rw [State.modPnl_pnl, State.putRegion_pnl]
  exact ⟨vmod_self _ _ _, rfl⟩

theorem exec_commonsDefine_region (s z : State) (n : Fin 32) (open_ : (s.pf0Open 0 || s.pf0Open 1) = true)
    (accepted : s.mailAccepted 6 isOperator (fun i => decide (i < 7)) z) (number : (z.arg 0).toNat = n.val) (free : z.pnl.commons[n].state = 0)
    (fits : (!z.copyOk (z.argPair 1) (z.argPair 5) || (z.argPair 3 ≠ 0 && !z.mirrorOk (z.argPair 1) (z.argPair 3) (z.argPair 5)) ||
      z.claimed.any fun r => overlap (z.argPair 1) (z.argPair 5) r.base r.length ||
        (z.argPair 3 ≠ 0 && overlap (z.argPair 3) (z.argPair 5) r.base r.length)) = false)
    (room : z.pnl.keyRanges.length + (if z.argPair 3 = 0 then 1 else 2) ≤ 256) :
    exec .commonsDefine s = .next ((z.defineRegion n (z.argPair 1) (z.argPair 3) (z.argPair 5)).mailEnd 0) := by
  refine next_of_eq ((State.byPf0_open _ open_).trans (mailRun_answers accepted ?_))
  have small : ¬ 32 ≤ (z.arg 0).toNat := by rw [number]; exact Nat.not_le.mpr n.isLt
  have own := region_of_number number
  subst own
  exact (if_neg small).trans ((if_neg (not_not_intro free)).trans ((if_neg (ne_true_of_eq_false fits)).trans (if_neg (Nat.not_lt.mpr room))))

theorem exec_commonsRelease_region (s z : State) (n : Fin 32) (open_ : (s.pf0Open 0 || s.pf0Open 1) = true)
    (accepted : s.mailAccepted 7 isOperator (fun i => i = 0) z) (number : (z.arg 0).toNat = n.val)
    (state : z.pnl.commons[n].state = 2 ∨ z.pnl.commons[n].state = 4) (none_left : z.regionGrants n = 0) :
    exec .commonsRelease s = .next ((z.releaseRegion n).mailEnd 0) := by
  refine next_of_eq ((State.byPf0_open _ open_).trans (mailRun_answers accepted ?_))
  have small : ¬ 32 ≤ (z.arg 0).toNat := by rw [number]; exact Nat.not_le.mpr n.isLt
  have own := region_of_number number
  subst own
  refine (if_neg small).trans (if_neg ?_)
  rintro (⟨a, b⟩ | a)
  · exact state.elim a b
  · exact absurd a (by rw [none_left]; exact Nat.lt_irrefl 0)

/-! ## OP values without a command, R335 -/

theorem exec_lifeCycleMailboxRequest_refused (s : State) (open_ : (s.pf0Open 0 || s.pf0Open 1) = true) (idle : s.pnl.cmdState ≠ 1)
    (free : s.pnl.cmdState ≠ 2) :
    exec .lifeCycleMailboxRequest s = .next ((s.modPnl fun x => { x with cmdOp := 0x0A }).mailEnd 4) :=
  next_of_eq ((State.byPf0_open _ open_).trans (if_neg fun h => h.elim idle free))

theorem exec_undefinedMailboxOp_refused (s : State) (v : Word) (open_ : (s.pf0Open 0 || s.pf0Open 1) = true) (go : bit v 31 = true)
    (other : ¬ (2 ≤ fld v.toNat 0 8 ∧ fld v.toNat 0 8 ≤ 0x0A)) (idle : s.pnl.cmdState ≠ 1) (free : s.pnl.cmdState ≠ 2) :
    exec (.undefinedMailboxOp v) s = .next ((s.writeCmdOp v).mailEnd 3) := by
  refine next_of_eq ((State.byPf0_open _ open_).trans ((if_neg ?_).trans (if_neg fun h => h.elim idle free)))
  rw [go, ← Bool.decide_and, decide_eq_false other]
  decide

/-- Settles O44, by what each of these commands comes to. -/
theorem mailboxCommands : Obligations.MailboxCommands := by
  unfold Obligations.MailboxCommands
  refine ⟨?rotate, ?auth, ?destroy, ?bundle, ?define, ?release, ?debug, ?write, ?lifeCycle, ?undefined⟩
  case rotate =>
    intro s z w block bs open_ accepted length read
    refine ⟨_, exec_opkeyRotate_installs s z w block bs open_ accepted length read, fun wrong => ?_, fun k same opened => ?_⟩
    · rw [installKeys_wrong w bs wrong]
      obtain ⟨state, result⟩ := mailEnd_refuses w (r := 0x0A) (by decide)
      exact ⟨state, result, mailEnd_fuse w _⟩
    · rw [installKeys_opened w bs k same opened]
      obtain ⟨state, result⟩ := mailEnd_shows (w.modFuse fun f =>
        { f with operatorKey := some (BitVec.ofNat 384 (natOf k)), operatorEcdsa := bs.take 97, operatorMlDsa := (bs.drop 128).take 1952 })
      exact ⟨state, result, mailEnd_fuse (w.modFuse _) _⟩
  case auth =>
    intro s z p open_ accepted named live plain
    refine ⟨_, exec_panelAuthSet_keyed s z p open_ accepted named live plain, ?_⟩
    rw [mailEnd_done, State.modPanel_self]
    exact ⟨rfl, rfl, rfl, rfl⟩
  case destroy =>
    intro s z p open_ accepted hp live out
    subst hp
    obtain ⟨state, phase⟩ := enterDust_panel z _ live out
    refine ⟨_, exec_panelDestroy_dust s z open_ accepted, ?_⟩
    rw [mailEnd_done]
    exact ⟨rfl, rfl, state, phase⟩
  case bundle =>
    intro s z w bundle bs b open_ accepted own read parsed
    refine ⟨_, exec_bundleLoad_panel s z w bundle bs b open_ accepted own read parsed, mailEnd_mem _ _, fun done => ?_⟩
    rw [done]
    exact mailEnd_shows _
  case define =>
    intro s z n open_ accepted number free fits room
    refine ⟨_, exec_commonsDefine_region s z n open_ accepted number free fits room, ?_⟩
    rw [mailEnd_done, defineRegion_commons]
    exact ⟨rfl, rfl, rfl⟩
  case release =>
    intro s z n open_ accepted number state none_left
    refine ⟨_, exec_commonsRelease_region s z n open_ accepted number state none_left, ?_⟩
    rw [mailEnd_done]
    exact ⟨rfl, rfl, releaseRegion_commons z n⟩
  case debug =>
    intro s z open_ accepted state target none_sealed
    refine ⟨_, exec_debugEnable_sets s z open_ accepted state target none_sealed, ?_⟩
    rw [mailEnd_done]
    exact ⟨rfl, rfl, rfl⟩
  case write =>
    intro s z w data bs open_ accepted fits read
    refine ⟨_, exec_panelWrite_read s z w data bs open_ accepted fits read, fun wrong => ?_, fun same => ?_⟩
    · rw [show z.writtenBytes w bs = (0x0A, w) from if_pos wrong]
      obtain ⟨state, result⟩ := mailEnd_refuses w (r := 0x0A) (by decide)
      exact ⟨state, result, mailEnd_mem w _⟩
    · rw [show z.writtenBytes w bs = (0, _) from if_neg (not_not_intro same)]
      obtain ⟨state, result⟩ := mailEnd_shows (w.storeWords (writeAgent (asFin 40 z.pnl.cmdPanel.toNat) (asFin 2 (fld (z.arg 2).toNat 31 1)))
        (z.argPair 3) (codeWords bs))
      exact ⟨state, result, mailEnd_mem _ _⟩
  case lifeCycle =>
    intro s open_ idle free
    refine ⟨_, exec_lifeCycleMailboxRequest_refused s open_ idle free, ?_⟩
    rw [mailEnd_failed _ (by decide)]
    exact ⟨rfl, rfl, rfl⟩
  case undefined =>
    intro s v open_ go other idle free
    refine ⟨_, exec_undefinedMailboxOp_refused s v open_ go other idle free, ?_⟩
    rw [mailEnd_failed _ (by decide)]
    exact ⟨rfl, rfl, rfl⟩

end Sys2Proof.Machine
end

section
/-!
PROOFS. The debug window, traces, the fault log, the patch store and a transition request.
-/

namespace Sys2Proof.Machine

/-! ## The debug window and traces, R340 and R341 -/

/-- R340: the state after a read of the debug window has delivered `d`. -/
def State.debugShown (z : State) (d : DbgData) : State :=
  (z.dbgEnd 2 d).modPnl fun x => { x with dbgData := Vector.ofFn fun i => wordOf d.data i.val }

theorem exec_debugRead_word (s z : State) (pa : BitVec 52) (d : DbgData) (open_ : (s.pf0Open 0 || s.pf0Open 1) = true)
    (loc : dbgLoc s.pnl.dbgLoc = .word pa) (read : s.debugWord pa = (d, z)) : exec .debugRead s = .next (z.debugShown d) := by
  refine next_of_eq ((State.byPf0_open _ open_).trans ?_)
  unfold State.debugRead
  rw [loc]
  dsimp only
  rw [read]
  rfl

theorem exec_debugWrite_word (s : State) (pa : BitVec 52) (open_ : (s.pf0Open 0 || s.pf0Open 1) = true) (loc : dbgLoc s.pnl.dbgLoc = .word pa)
    (commons : s.commonsAt pa = none) (plain : ((s.ownerAt pa.toNat).any fun p => s.pnl.panels[p].sealed_) = false) :
    exec .debugWrite s = .next ((s.writeCode (debugAgent pa) pa { data := s.pnl.dbgWord, mark := false }).2.dbgEnd 2
      { dbgNone with owner := panelByte (s.ownerAt pa.toNat) }) := by
  refine next_of_eq ((State.byPf0_open _ open_).trans ?_)
  unfold State.debugWrite
  rw [loc]
  dsimp only
  rw [commons, plain]
  rfl

/-- R341: the trace registers after the ring has started. -/
theorem exec_traceEnable_starts (s : State) (v : Word) (open_ : (s.pf0Open 0 || s.pf0Open 1) = true) (on : bit v 31 = true)
    (off : s.pnl.traceEnable = false) :
    ∃ size log, exec (.traceEnable v) s = .next (s.modPnl fun x => { x with
      traceSched := bit v 30, traceHdr := bit v 29, tracePort := asFin 2 (fld v.toNat 28 1), tracePanel := slice v 27 20
      traceRate := slice v 19 16, traceLog := size, traceEnable := bit v 31, traceRingBase := x.traceBase, traceRingLog := log
      traceTail := 0, traceHead := 0 }) :=
  ⟨_, _, next_of_eq ((State.byPf0_open _ open_).trans (if_pos (by rw [on, off]; rfl)))⟩

/-! ## The fault log and the patch store, R361 to R366 -/

theorem exec_flogSevereClear_clears (s : State) (v : Word) (open_ : (s.pf0Open 0 || s.pf0Open 1) = true) (severe : bit v 30 = true)
    (new : bit v 29 = true) (set : s.ras.flogSevere = true) (sound : s.ras.pkgFault = none) :
    exec (.flogSevereClear v) s = .next (((s.modRas fun r => { r with flogSevere := false }).emit (.faultN false)).modRas fun r =>
      { r with flogNew := false }) := by
  have cleared : s.clearSevere = (s.modRas fun r => { r with flogSevere := false }).emit (.faultN false) := if_pos (by rw [set, sound]; rfl)
  refine next_of_eq ((State.byPf0_open _ open_).trans ((if_pos new).trans ?_))
  rw [if_pos severe, cleared]

theorem exec_patchStoreWrite_first (s : State) (r : PatchRec) (l : List PatchRec) (up : s.inReset = false)
    (first : storeFirst s.ras.patches = (l, some r)) :
    exec .patchStoreWrite s = .next ((s.modRas fun x => { x with patches := l }).modFuse fun f => { f with patches := f.patches ++ [r] }) := by
  refine next_of_eq ((if_neg (ne_true_of_eq_false up)).trans ?_)
  rw [first]

theorem exec_packageFault_up (s : State) (source : BitVec 5) (code : Byte) (up : s.inReset = false) :
    exec (.packageFault source code) s = .next (s.packageFault source code) := next_of_eq (if_neg (ne_true_of_eq_false up))

/-! ## Transition requests, R350 to R353 -/

theorem lcsEnd_fuse (s : State) (status : BitVec 4) (result : Byte) : (s.lcsEnd status result).fuse = s.fuse := State.irq_fuse _ _

theorem lcsEnd_lcs (s : State) (status : BitVec 4) (result : Byte) :
    ∃ nonce, (s.lcsEnd status result).lcs = { s.lcs with status := status, result := result, nonce := nonce } :=
  ⟨_, State.irq_lcs _ _⟩

/-- R357: a transition to a state other than RETIRED takes no key. -/
theorem lcsTakes_other (s : State) (target : Nat) (h : target ≠ 5) :
    (s.lcsTakes target).fuse = s.fuse ∧
      (s.lcsTakes target).lcs = { s.lcs with resetRequired := true, target := some (BitVec.ofNat 3 target) } := by
  unfold State.lcsTakes
  dsimp only
  rw [if_neg h]
  split <;> exact ⟨rfl, rfl⟩

theorem lcsBurn_verified (s : State) (target : Nat) (fails : Option Nat) (k : Nat) (ks : List Nat) (f : Fuses) (rest : Option Nat)
    (slot : s.fuse.freeSlots = k :: ks)
    (burnt : s.fuse.burn fails (transitionBits k target (s.fuse.stepsAfter s.lcs.state.toNat target)) = (f, rest, true)) :
    s.lcsBurn target fails = ((s.modFuse fun _ => f).lcsTakes target).lcsEnd 4 0 := by
  unfold State.lcsBurn
  rw [slot]
  dsimp only
  rw [burnt]
  rfl

theorem exec_lcsGo_read (s w : State) (v : Word) (request : HostRead) (fails : Option Nat) (bs : List Byte) (open_ : s.lcsOpen = true)
    (go : bit v 31 = true) (idle : s.lcs.status = 0) (valid : s.lcs.invalid = false) (target : s.lcs.target = none)
    (read : (s.modLcs fun l => { l with port := asFin 2 (fld v.toNat 0 1) }).mailRead (asFin 2 (fld v.toNat 0 1))
      (fld s.lcs.src.toNat 6 46 * 64) 3584 request = (some bs, w)) (unlocked : w.lcs.state ≠ lcsTestLocked) :
    exec (.lcsGo v request fails) s = .next (w.runTransition (parseTransition bs) fails) := by
  refine next_of_eq ((if_pos open_).trans ((if_neg ?_).trans ((if_neg (by rw [go]; decide)).trans
    ((if_neg (ne_true_of_eq_false valid)).trans ((if_neg ?_).trans ?_)))))
  · rw [idle]
    simp
  · exact ne_true_of_eq_false (congrArg Option.isSome target)
  · dsimp only [State.modLcs_lcs]
    rw [read]
    exact if_neg fun h => unlocked h.1

theorem runTransition_refused (w : State) (t : Transition) (fails : Option Nat) (r : Byte) (h : w.checkTransition t = some r) :
    w.runTransition t fails = w.lcsRefused r := by
  unfold State.runTransition
  rw [h]

theorem runTransition_burns (w : State) (t : Transition) (fails : Option Nat) (h : w.checkTransition t = none) (other : t.to_ ≠ 5) :
    w.runTransition t fails = w.lcsBurn t.to_ fails := by
  unfold State.runTransition
  rw [h]
  exact if_neg other

/-- Settles O45, by what each of these commands comes to. -/
theorem debugAndFaultLog : Obligations.DebugAndFaultLog := by
  unfold Obligations.DebugAndFaultLog
  refine ⟨?read, ?write, ?trace, ?pop, ?severe, ?store, ?fault, ?lcs⟩
  case read =>
    intro s z pa d open_ loc read
    exact ⟨_, exec_debugRead_word s z pa d open_ loc read, rfl, rfl, rfl, rfl, rfl, rfl⟩
  case write =>
    intro s pa open_ loc commons plain
    exact ⟨_, exec_debugWrite_word s pa open_ loc commons plain, rfl, rfl⟩
  case trace =>
    intro s v open_ on off
    obtain ⟨size, log, e⟩ := exec_traceEnable_starts s v open_ on off
    exact ⟨_, e, on, rfl, rfl, rfl, rfl, rfl⟩
  case pop =>
    intro s v open_
    exact ⟨_, next_of_eq (State.byPf0_open _ open_), rfl⟩
  case severe =>
    intro s v open_ severe new set sound
    exact ⟨_, exec_flogSevereClear_clears s v open_ severe new set sound, rfl, rfl⟩
  case store =>
    intro s r l up first
    exact ⟨_, exec_patchStoreWrite_first s r l up first, rfl, rfl⟩
  case fault =>
    intro s source code up sound
    obtain ⟨kept, severe⟩ := pkg_ras s source code sound
    exact ⟨_, exec_packageFault_up s source code up, kept, severe, rfl⟩
  case lcs =>
    intro s w v request fails bs k ks f rest open_ go idle valid target read unlocked other slot burnt
    refine ⟨_, exec_lcsGo_read s w v request fails bs open_ go idle valid target read unlocked, fun ok => ?_, fun r bad => ?_⟩
    · rw [runTransition_burns w _ fails ok other, lcsBurn_verified w _ fails k ks f rest slot burnt, lcsEnd_fuse]
      obtain ⟨fuse, lcs⟩ := lcsTakes_other (w.modFuse fun _ => f) (parseTransition bs).to_ other
      obtain ⟨nonce, ended⟩ := lcsEnd_lcs ((w.modFuse fun _ => f).lcsTakes (parseTransition bs).to_) 4 0
      rw [ended, fuse, lcs]
      exact ⟨rfl, rfl, rfl, rfl, rfl⟩
    · rw [runTransition_refused w _ fails r bad, State.lcsRefused, lcsEnd_fuse]
      obtain ⟨nonce, ended⟩ := lcsEnd_lcs w 5 r
      rw [ended]
      exact ⟨rfl, rfl, rfl⟩

end Sys2Proof.Machine
end

section
/-!
PROOFS. Training, lanes, flits, identity and keys of the twin links.
-/

namespace Sys2Proof.Machine

/-- R374: the interrupt of the twin ports and the level of readiness leave the ports as they are. -/
theorem shown_ports (z s : State) (k : PortId) : ((z.irq irqTwin).readyFrom s).twin.ports[k] = z.twin.ports[k] :=
  ports_at k ((State.readyFrom_twin _ s).trans (State.irq_twin z irqTwin))

/-- R385: twinning resumed and the change of a port shown: every port is as before, but for its mirror. -/
theorem resumed_bare (z s : State) (k : PortId) :
    (((z.resumeTwins).irq irqTwin).readyFrom s).twin.ports[k].bare = z.twin.ports[k].bare := by
  rw [shown_ports]
  exact resumeTwins_bare z k

/-- R385: twinning suspended, shown by an interrupt: every port is as before, but for its mirror. -/
theorem suspended_bare (z s : State) (k : PortId) :
    (((z.suspendTwins).irq irqTwin).readyFrom s).twin.ports[k].bare = z.twin.ports[k].bare := by
  rw [shown_ports]
  exact suspendTwins_bare z k

/-! ## Training and lanes, R374 -/

/-- R374: the training of a port whose lanes have all trained. -/
theorem exec_twinTraining_all (s : State) (k : PortId) (lanes : BitVec 34) (state : s.twin.ports[k].state = 1)
    (may : s.elementsMayStart = true) (all : s.twin.ports[k].lanes &&& ~~~lanes = 0)
    (wide : BitVec.ofNat 6 (twinWidth (popCount s.twin.ports[k].lanes)) ≠ 0) :
    exec (.twinTraining k lanes) s =
      .next ((((s.modTwinPort k TwinPort.setWidth).twinStarts k).resumeTwins.irq irqTwin).readyFrom s) := by
  have kept : (onBits (s.twin.ports[k].lanes &&& ~~~lanes)).foldl (State.failLane k lanes) s = s := by
    rw [all]
    rfl
  refine next_of_eq ((if_neg ?_).trans ?_)
  · rw [may, state]
    decide
  · dsimp only
    rw [kept]
    refine if_neg fun narrow => wide ?_
    rw [modTwinPort_self] at narrow
    exact narrow

/-- R374: a lane retired onto a spare. -/
def TwinPort.laneRetired (y : TwinPort) (lane : Fin 34) (n : Nat) : TwinPort :=
  let z := { y with lanes := setBit y.lanes lane.val false }.setWidth
  { z with spareLanes := setBit z.spareLanes n false, training := setBit z.training n true }

/-- The state after a lane has been retired onto a spare. -/
def State.twinLaneRetired (s : State) (k : PortId) (lane : Fin 34) (n : Nat) : State :=
  (s.logLane k lane.val (some n)).modTwinPort k fun y => y.laneRetired lane n

theorem twinLaneRetired_port (s : State) (k : PortId) (lane : Fin 34) (n : Nat) :
    (s.twinLaneRetired k lane n).twin.ports[k] = s.twin.ports[k].laneRetired lane n :=
  (modTwinPort_self _ k _).trans
    (congrArg (fun y : TwinPort => y.laneRetired lane n) (ports_at k (logLane_twin s k lane.val (some n))))

theorem exec_twinLaneRetire_spare (s : State) (k : PortId) (lane : Fin 34) (n : Nat) (state : s.twin.ports[k].state = 2)
    (up : bit s.twin.ports[k].lanes lane.val = true) (spare : (onBits s.twin.ports[k].spareLanes).head? = some n)
    (wide : BitVec.ofNat 6 (twinWidth (popCount (setBit s.twin.ports[k].lanes lane.val false))) ≠ 0) :
    exec (.twinLaneRetire k lane) s = .next (s.twinLaneRetired k lane n) := by
  refine next_of_eq ((if_neg ?_).trans ?_)
  · rw [up, state]
    decide
  · dsimp only
    rw [spare]
    refine if_neg fun narrow => wide ?_
    exact (congrArg TwinPort.width (twinLaneRetired_port s k lane n)).symm.trans narrow

theorem exec_twinSpareInService_trained (s : State) (k : PortId) (lane : Fin 34)
    (h : bit s.twin.ports[k].training lane.val = true) (state : s.twin.ports[k].state = 2) :
    ∃ u, exec (.twinSpareInService k lane) s = .next u ∧ u.twin.ports[k] = { s.twin.ports[k] with
      lanes := setBit s.twin.ports[k].lanes lane.val true, training := setBit s.twin.ports[k].training lane.val false }.setWidth :=
  ⟨_, next_of_eq (if_pos h), (modTwinPort_self s k _).trans (if_pos state)⟩

theorem exec_twinPortDark_up (s : State) (k : PortId)
    (h : s.twin.ports[k].state = 1 ∨ s.twin.ports[k].state = 2 ∨ s.twin.ports[k].state = 3) :
    exec (.twinPortDark k) s =
      .next ((((s.modTwinPort k fun y => { y with state := 5 }).suspendTwins).irq irqTwin).readyFrom s) :=
  next_of_eq (if_pos h)

theorem exec_twinPortReturn_wide (s : State) (k : PortId) (state : s.twin.ports[k].state = 5) (wide : s.twin.ports[k].width ≠ 0) :
    exec (.twinPortReturn k) s = .next ((((s.twinStarts k).resumeTwins).irq irqTwin).readyFrom s) :=
  next_of_eq (if_pos ⟨state, wide⟩)

/-! ## Flits, R375 -/

/-- The state after a flit in sequence, with no message waiting. -/
def State.twinFlitTaken (s : State) (k : PortId) (seq ack : BitVec 12) : State :=
  ((s.modTwinPort k fun y => { y with
    expect := seq + 1, rounds := if s.lines[k].buffer.any fun f => f.seq = ack then 0 else y.rounds }).modLine k fun y =>
      y.acked ack).emit (.twinFlitAck k seq)

theorem exec_twinFlitReceive_next (s : State) (k : PortId) (seq ack : BitVec 12) (state : s.twin.ports[k].state = 2)
    (next : seq = s.twin.ports[k].expect) (none_ : s.lines[k].waiting = []) :
    exec (.twinFlitReceive k seq ack true) s = .next (s.twinFlitTaken k seq ack) := by
  refine next_of_eq ((if_neg ?_).trans ?_)
  · rw [state, decide_eq_false (not_not_intro next)]
    decide
  · dsimp only
    rw [none_]
    rfl

theorem exec_twinReplay_round (s : State) (k : PortId) (f : TwinFlit) (fs : List TwinFlit) (state : s.twin.ports[k].state = 2)
    (rounds : s.twin.ports[k].rounds < 4) (waits : s.lines[k].buffer = f :: fs) :
    exec (.twinReplay k) s = .next ((s.modTwinPort k fun y => { y with
      rounds := y.rounds + 1, replays := satAdd y.replays 1 }).emit (.twinReplay k f.seq)) := by
  refine next_of_eq ?_
  dsimp only
  rw [waits]
  refine if_neg ?_
  rintro (a | b)
  · exact a state
  · exact absurd rounds (Nat.not_lt.mpr b)

theorem exec_twinRetrain_worn (s : State) (k : PortId) (state : s.twin.ports[k].state = 2) (rounds : 4 ≤ s.twin.ports[k].rounds) :
    exec (.twinRetrain k) s =
      .next (((s.modTwinPort k fun y => { y with state := 3, rounds := 0 }).suspendTwins).readyFrom s) :=
  next_of_eq (if_pos ⟨state, rounds⟩)

/-- The state after a port has trained again. -/
def State.twinRetrained (s : State) (k : PortId) : State :=
  (s.modTwinPort k fun x => { x with state := 2 }).logFault { cls := 1, source := 11, element := BitVec.ofNat 32 k.val }

theorem exec_twinRetrainDone_passed (s : State) (k : PortId) (state : s.twin.ports[k].state = 3) :
    exec (.twinRetrainDone k true) s = .next ((((s.twinRetrained k).resumeTwins).irq irqTwin).readyFrom s) :=
  next_of_eq ((if_neg (not_not_intro state)).trans (if_neg Bool.false_ne_true))

theorem twinRetrained_port (s : State) (k : PortId) : (s.twinRetrained k).twin.ports[k] = { s.twin.ports[k] with state := 2 } :=
  (ports_at k (State.logFault_twin _ _)).trans (modTwinPort_self s k _)

/-! ## Identity and keys, R378 and R379 -/

theorem otherPort_ne (k : PortId) : otherPort k ≠ k := by
  revert k
  decide

/-- The partner as LEVEL names it. -/
def TwinState.levelled (t : TwinState) (d : BitVec 512) : TwinState :=
  { t with
    peerId := BitVec.ofNat 256 d.toNat, peerStepping := BitVec.ofNat 8 (fld d.toNat 256 8)
    peerMax := BitVec.ofNat 2 (min 3 (fld d.toNat 264 8)), peerSchema := BitVec.ofNat 16 (fld d.toNat 272 16) }

/-- The state after a LEVEL message of a partner whose other port has no level. -/
def State.levelTaken (s : State) (k : PortId) (d : BitVec 512) : State :=
  ((s.modTwin fun t => t.levelled d).modTwinPort k fun x => { x with level := BitVec.ofNat 2 (min 2 (fld d.toNat 264 8)) }).modTwinPort
    (otherPort k) fun x => if x.level = 0 then x else { x with level := BitVec.ofNat 2 (min 2 (fld d.toNat 264 8)) }

theorem exec_level_first (s : State) (k : PortId) (d : BitVec 512) (up : s.twinUp k = true) (open_ : s.twinKeyed = false)
    (sent : s.twin.ports[k].levelSent = true) (alone : s.twin.ports[otherPort k].level = 0) :
    exec (.level k d) s = .next (s.levelTaken k d) := by
  refine next_of_eq ((if_neg ?_).trans ((if_neg (ne_true_of_eq_false open_)).trans ((if_pos sent).trans ?_)))
  · rw [up]
    decide
  · rw [alone]
    rfl

theorem levelTaken_port (s : State) (k : PortId) (d : BitVec 512) :
    (s.levelTaken k d).twin.ports[k].level = BitVec.ofNat 2 (min 2 (fld d.toNat 264 8)) :=
  congrArg TwinPort.level ((vmod_other _ _ (otherPort_ne k).symm).trans (modTwinPort_self _ k _))

/-- R379: what the last part of the exchange comes to. -/
def State.keysChecked (s : State) (k : PortId) (got : List Byte) : State :=
  if Config.chainValid got = some s.twin.peerId then s.modTwinPort k fun x => { x with secure := true, keyParts := [] }
  else (s.modTwinPort k fun x => { x with keyParts := [] }).noteTwin k 0

theorem exec_keyx_last (s : State) (k : PortId) (part : BitVec 16) (bytes : List Byte) (up : s.twinUp k = true)
    (keyed : s.twinKeyed = true) (level : s.twin.ports[k].level ≠ 0) :
    exec (.keyx k part true bytes) s =
      .next (s.keysChecked k ((if part = 0 then [] else s.twin.ports[k].keyParts) ++ bytes)) := by
  refine next_of_eq ((if_neg ?_).trans (if_neg Bool.false_ne_true))
  rw [up, keyed, decide_eq_false level]
  decide

theorem keysChecked_port (s : State) (k : PortId) (got : List Byte) (valid : Config.chainValid got = some s.twin.peerId) :
    (s.keysChecked k got).twin.ports[k] = { s.twin.ports[k] with secure := true, keyParts := [] } :=
  (congrArg (fun z : State => z.twin.ports[k]) (if_pos valid)).trans (modTwinPort_self s k _)

/-- Settles O46, by what each of these commands comes to. -/
theorem twinLinks_hold : Obligations.TwinLinks := by
  unfold Obligations.TwinLinks
  refine ⟨?training, ?retire, ?spare, ?dark, ?back, ?flit, ?replay, ?retrain, ?retrained, ?level, ?keys⟩
  case training =>
    intro s k lanes state may all wide
    refine ⟨_, exec_twinTraining_all s k lanes state may all wide, ?_⟩
    obtain ⟨st, ln, wd, sent, secure, -, -⟩ := bare_fields (resumed_bare ((s.modTwinPort k TwinPort.setWidth).twinStarts k) s k)
    rw [st, ln, wd, sent, secure, twinStarts_port, modTwinPort_self]
    exact ⟨rfl, rfl, rfl, rfl, rfl⟩
  case retire =>
    intro s k lane n state up spare wide
    refine ⟨_, exec_twinLaneRetire_spare s k lane n state up spare wide, ?_⟩
    rw [twinLaneRetired_port]
    exact ⟨rfl, rfl, rfl, rfl⟩
  case spare =>
    intro s k lane trained state
    obtain ⟨u, run, port⟩ := exec_twinSpareInService_trained s k lane trained state
    refine ⟨u, run, ?_⟩
    rw [port]
    exact ⟨rfl, rfl, rfl⟩
  case dark =>
    intro s k up
    refine ⟨_, exec_twinPortDark_up s k up, ?_⟩
    obtain ⟨st, ln, wd, -⟩ := bare_fields (suspended_bare (s.modTwinPort k fun y => { y with state := 5 }) s k)
    rw [st, ln, wd, modTwinPort_self]
    exact ⟨rfl, rfl, rfl⟩
  case back =>
    intro s k state wide
    refine ⟨_, exec_twinPortReturn_wide s k state wide, ?_⟩
    obtain ⟨st, -, wd, sent, -, expect, -⟩ := bare_fields (resumed_bare (s.twinStarts k) s k)
    rw [st, wd, sent, expect, twinStarts_port]
    exact ⟨rfl, rfl, rfl, rfl⟩
  case flit =>
    intro s k seq ack state next none_
    exact ⟨_, exec_twinFlitReceive_next s k seq ack state next none_,
      congrArg TwinPort.expect (modTwinPort_self s k _), modLine_self (s.modTwinPort k _) k _, rfl⟩
  case replay =>
    intro s k f fs state rounds waits
    exact ⟨_, exec_twinReplay_round s k f fs state rounds waits, modTwinPort_self s k _, rfl⟩
  case retrain =>
    intro s k state rounds
    refine ⟨_, exec_twinRetrain_worn s k state rounds, ?_⟩
    obtain ⟨st, -, wd, -, -, -, rd⟩ := bare_fields ((congrArg TwinPort.bare (ports_at k (State.readyFrom_twin _ s))).trans
      (suspendTwins_bare (s.modTwinPort k fun y => { y with state := 3, rounds := 0 }) k))
    rw [st, wd, rd, modTwinPort_self]
    exact ⟨rfl, rfl, rfl⟩
  case retrained =>
    intro s k state
    refine ⟨_, exec_twinRetrainDone_passed s k state, ?_⟩
    obtain ⟨st, ln, wd, -⟩ := bare_fields (resumed_bare (s.twinRetrained k) s k)
    rw [st, ln, wd, twinRetrained_port]
    exact ⟨rfl, rfl, rfl⟩
  case level =>
    intro s k d up open_ sent alone
    exact ⟨_, exec_level_first s k d up open_ sent alone, rfl, rfl, levelTaken_port s k d⟩
  case keys =>
    intro s k part bytes up keyed level
    exact ⟨_, exec_keyx_last s k part bytes up keyed level, keysChecked_port s k _⟩

end Sys2Proof.Machine
end

section
/-!
PROOFS. Remote requests over the twin links: what a port injects, and how each leg of a request ends.
-/

namespace Sys2Proof.Machine

/-- R377: a port in service with a level takes the messages of a type; the condition under which it drops one. -/
theorem twinTakes (s : State) (k : PortId) {type want : Nat} (up : s.twinUp k = true) (level : s.twin.ports[k].level ≠ 0)
    (h : type = want) : ¬ ((!s.twinUp k || decide (s.twin.ports[k].level = 0) || decide (type ≠ want)) = true) := by
  rw [up, decide_eq_false level, decide_eq_false (not_not_intro h)]
  decide

/-! ## Requests of the partner -/

theorem exec_twinRd_admitted (s : State) (k : PortId) (h : BitVec 128) (up : s.twinUp k = true) (level : s.twin.ports[k].level ≠ 0)
    (type : (twinMsg h).type = 1)
    (good : (s.twinAdmits k (twinMsg h) && (twinMsg h).arg = 0 && 0 < (twinMsg h).count && (twinMsg h).count ≤ 4 &&
      (twinMsg h).addr % 64 = 0 && s.twin.bindings[(twinMsg h).binding].exports (twinMsg h).addr (twinMsg h).count false) = true) :
    exec (.twinRd k h) s = .next (s.twinInject k h (BitVec.ofNat 52 (twinMsg h).addr) (.read (twinMsg h).count)) :=
  next_of_eq ((if_neg (twinTakes s k up level type)).trans (if_pos good))

theorem exec_twinWr_admitted (s : State) (k : PortId) (h : BitVec 128) (ws : List CodeWord) (up : s.twinUp k = true)
    (level : s.twin.ports[k].level ≠ 0) (type : (twinMsg h).type = 2) (words : (twinMsg h).count ≤ ws.length)
    (good : (s.twinAdmits k (twinMsg h) && (twinMsg h).arg = 0 && 0 < (twinMsg h).count && (twinMsg h).count ≤ 4 &&
      s.twin.bindings[(twinMsg h).binding].exports (twinMsg h).addr (twinMsg h).count true) = true) :
    exec (.twinWr k h ws) s = .next (s.twinInject k h (BitVec.ofNat 52 (twinMsg h).addr) (.write ((twinMsg h).words ws))) := by
  refine next_of_eq ((if_neg ?_).trans (if_pos good))
  rw [Bool.or_eq_true]
  rintro (drop | short)
  · exact twinTakes s k up level type drop
  · exact absurd (of_decide_eq_true short) (Nat.not_lt.mpr words)

/-- R135: the atomic that a TWIN_AT asks for. -/
def twinAtomic (h : BitVec 128) (operand : CodeWord) (compare : DWord) (op : AtomicOp) : ReqKind :=
  .atomic op (asFin 64 ((twinMsg h).arg % 64))
    (BitVec.ofNat 64 (fld operand.data.toNat (8 * ((twinMsg h).arg % 64)) (8 * atomicSize op))) compare
    (operand.mark || Nat.testBit (twinMsg h).poison 0)

theorem exec_twinAt_admitted (s : State) (k : PortId) (h : BitVec 128) (operand : CodeWord) (compare : DWord) (op : AtomicOp)
    (up : s.twinUp k = true) (level : s.twin.ports[k].level ≠ 0) (type : (twinMsg h).type = 3)
    (code : atomicOfCode ((twinMsg h).arg / 2 ^ 20) = some op)
    (good : (s.twinAdmits k (twinMsg h) && ((twinMsg h).arg % 64) % atomicSize op = 0 && fld (twinMsg h).arg 6 14 = 0 &&
      s.twin.bindings[(twinMsg h).binding].exports ((twinMsg h).addr / 64 * 64) 1 true) = true) :
    exec (.twinAt k h operand compare) s =
      .next (s.twinInjectOnce k h (BitVec.ofNat 52 ((twinMsg h).addr / 64 * 64)) (twinAtomic h operand compare op)) := by
  refine next_of_eq ((if_neg (twinTakes s k up level type)).trans ?_)
  rw [code]
  refine if_pos ?_
  rw [Option.isSome_some, Bool.and_true]
  exact good

theorem exec_twinSig_admitted (s : State) (k : PortId) (h : BitVec 128) (a : ArrayId) (up : s.twinUp k = true)
    (level : s.twin.ports[k].level ≠ 0) (type : (twinMsg h).type = 4)
    (good : (s.twinAdmits k (twinMsg h) && BitVec.ofNat 8 (twinMsg h).arg ≠ 0 && fld (twinMsg h).arg 8 4 = 0) = true)
    (array : s.arrayOf s.twin.bindings[(twinMsg h).binding].panel (fld (twinMsg h).arg 18 6) = some a) :
    exec (.twinSig k h) s = .next (s.twinInjectOnce k h 0 (.signal (fieldOfArray a) (niOfArray a) (asFin 64 (fld (twinMsg h).arg 12 6))
      (BitVec.ofNat 8 (twinMsg h).arg) 0)) := by
  refine next_of_eq ((if_neg (twinTakes s k up level type)).trans ?_)
  rw [if_pos good, array]

/-- R208: an atomic or signal that the partner sends for the first time. -/
theorem twinInjectOnce_first (s : State) (k : PortId) (h : BitVec 128) (pa : BitVec 52) (kind : ReqKind)
    (first : s.twinMapped k (twinMsg h) = none) : s.twinInjectOnce k h pa kind = s.twinInject k h pa kind := by
  unfold State.twinInjectOnce
  dsimp only
  rw [first]

/-! ## Answers and bounds -/

theorem exec_twinResponse_last (s : State) (k : PortId) (h : BitVec 128) (ws : List CodeWord) (id : TxId) (w : TxId × Nat) (x : Txn)
    (up : s.twinUp k = true) (named : id = ⟨(twinMsg h).field, (twinMsg h).ni, (twinMsg h).tag⟩)
    (wait : (s.twin.ports[k].waits.find? fun w => w.1 = id) = some w) (txn : s.txn id = some x)
    (type : (twinMsg h).type = answerType x.kind) :
    exec (.twinResponse k h ws) s = .next (s.twinAnswered k x w.2 (BitVec.ofNat 3 (twinMsg h).status) ((twinMsg h).words ws)) := by
  subst named
  refine next_of_eq ((if_neg ?_).trans ?_)
  · rw [up]
    decide
  · rw [wait, txn]
    exact if_pos type

/-- R377: the last answer of a read. -/
theorem twinAnswered_read (s : State) (k : PortId) (x : Txn) (n : Nat) (status : BitVec 3) (ws : List CodeWord)
    (kind : x.kind = .read n) (clean : x.status = 0) :
    s.twinAnswered k x 1 status ws = (s.modTwinPort k fun y => { y with waits := y.waits.filter fun w => w.1 ≠ x.id }).answerTxn x.id
      status ((ws ++ List.replicate n poisonWord).take n) := by
  unfold State.twinAnswered
  dsimp only
  rw [kind, if_pos clean, if_pos (Nat.le_refl 1)]

/-- The waits of a port after a request has been answered. -/
theorem answered_waits (s : State) (k : PortId) (id i : TxId) (st : BitVec 3) (d : List CodeWord) :
    ((s.modTwinPort k fun y => { y with waits := y.waits.filter fun w => w.1 ≠ id }).answerTxn i st d).twin.ports[k].waits =
      s.twin.ports[k].waits.filter fun w => w.1 ≠ id :=
  congrArg TwinPort.waits (modTwinPort_self s k _)

theorem exec_twinRemoteBound_own (s : State) (k : PortId) (id : TxId) (h : BitVec 128) (x : Txn) (txn : s.txn id = some x)
    (owner : x.owner = .twin k h) : exec (.twinRemoteBound k id) s =
      .next ((s.modTxn id fun y => { y with owner := .none }).answerTwin k h x.kind 3 (refusedData x.kind)) := by
  refine next_of_eq ?_
  rw [txn]
  dsimp only
  rw [owner]
  exact if_pos rfl

theorem exec_twinLocalBound_waits (s : State) (k : PortId) (id : TxId) (w : TxId × Nat) (x : Txn)
    (wait : (s.twin.ports[k].waits.find? fun w => w.1 = id) = some w) (txn : s.txn id = some x) :
    exec (.twinLocalBound k id) s =
      .next ((s.modTwinPort k fun y => { y with waits := y.waits.filter fun w => w.1 ≠ id }).refuseTxn x 3) := by
  refine next_of_eq ?_
  rw [wait, txn]

/-- Settles O47, by what each of these commands comes to. -/
theorem twinRequests : Obligations.TwinRequests := by
  unfold Obligations.TwinRequests
  refine ⟨?read, ?write, ?atomic, ?signal, ?response, ?remote, ?local_⟩
  case read =>
    intro s k h tag up level type good free trunk
    exact ⟨_, exec_twinRd_admitted s k h up level type good, twinInject_some s k h _ _ tag free trunk⟩
  case write =>
    intro s k h tag ws up level type words good free trunk
    exact ⟨_, exec_twinWr_admitted s k h ws up level type words good, twinInject_some s k h _ _ tag free trunk⟩
  case atomic =>
    intro s k h tag operand compare op up level type code good first free trunk
    refine ⟨_, exec_twinAt_admitted s k h operand compare op up level type code good, ?_⟩
    rw [twinInjectOnce_first s k h _ _ first]
    exact twinInject_some s k h _ _ tag free trunk
  case signal =>
    intro s k h tag a up level type good array first free trunk
    refine ⟨_, exec_twinSig_admitted s k h a up level type good array, ?_⟩
    rw [twinInjectOnce_first s k h _ _ first]
    exact twinInject_some s k h _ _ tag free trunk
  case response =>
    intro s k h ws id w x n up named wait last txn kind type clean
    refine ⟨_, exec_twinResponse_last s k h ws id w x up named wait txn (type.trans (by rw [kind]; rfl)), ?_⟩
    rw [last, twinAnswered_read s k x n _ _ kind clean, ← txn_id txn]
    exact ⟨answered_own (s.modTwinPort k _) x.id x _ _ ((txn_id txn).symm ▸ txn), answered_waits s k x.id x.id _ _⟩
  case remote =>
    intro s k id h x txn owner
    refine ⟨_, exec_twinRemoteBound_own s k id h x txn owner, ?_⟩
    rw [txn_net (State.answerTwin_net _ _ _ _ _ _)]
    exact modTxn_txn s id _ x (fun _ => rfl) txn
  case local_ =>
    intro s k id w x wait txn
    exact ⟨_, exec_twinLocalBound_waits s k id w x wait txn,
      answered_own (s.modTwinPort k _) id x _ _ txn, answered_waits s k id x.id _ _⟩

end Sys2Proof.Machine
end

section
/-!
PROOFS. Twinned panels: checkpoint streams, seeds, heartbeats and silence, and the actions of TWN_CONTROL.
-/

namespace Sys2Proof.Machine

/-! ## Checkpoint streams, R381 and R382 -/

/-- R377: the one word of a message of one word. -/
theorem words_single (m : TwinMsg) (w : CodeWord) (one : m.count = 1) :
    m.words [w] = [{ data := w.data, mark := w.mark || Nat.testBit m.poison 0 }] := by
  unfold TwinMsg.words
  rw [one]
  rfl

/-- The state after a checkpoint word has been written in its range. -/
def State.ckptStored (s : State) (k : PortId) (h : BitVec 128) (r : PaRange) (w : CodeWord) : State :=
  s.twinStore (twinAgent k s.twin.bindings[(twinMsg h).binding].panel) s.twin.bindings[(twinMsg h).binding].panel
    s.twin.bindings[(twinMsg h).binding].tint (BitVec.ofNat 52 (r.base + (twinMsg h).addr))
    [{ data := w.data, mark := w.mark || Nat.testBit (twinMsg h).poison 0 }]

theorem exec_ckpt_word (s : State) (k : PortId) (h : BitVec 128) (w : CodeWord) (r : PaRange) (up : s.twinUp k = true)
    (type : (twinMsg h).type = 0x20) (one : (twinMsg h).count = 1) (valid : s.twin.bindings[(twinMsg h).binding].valid = true)
    (role : s.twin.bindings[(twinMsg h).binding].role = 2) (state : s.twin.bindings[(twinMsg h).binding].state ≠ 8)
    (level : 2 ≤ s.twin.ports[k].level) (secret : s.twinSecret k (twinMsg h).binding (twinMsg h) = true)
    (range : s.twin.bindings[(twinMsg h).binding].ranges[(twinMsg h).range]? = some r) (aligned : (twinMsg h).addr % 64 = 0)
    (fits : (twinMsg h).addr + 64 ≤ r.length) :
    exec (.ckpt k h [w]) s = .next (s.ckptStored k h r w) := by
  refine next_of_eq ((if_neg ?_).trans ((if_neg ?_).trans ((if_neg ?_).trans ?_)))
  · rw [up, decide_eq_false (not_not_intro type), one]
    exact Bool.false_ne_true
  · rw [valid]
    decide
  · rw [role, decide_eq_false state, decide_eq_false (BitVec.not_lt.mpr level)]
    decide
  · rw [range]
    refine (if_neg ?_).trans ?_
    · rw [secret, decide_eq_false (not_not_intro aligned), one, Nat.mul_one, decide_eq_false (Nat.not_lt.mpr fits)]
      decide
    · rw [words_single _ w one]
      rfl

/-- The state after a mark: its epoch kept, and a seed's mark makes the binding synchronised. -/
def State.marked (s : State) (b : BindId) (seed : Bool) (epoch : DWord) : State :=
  if seed then (s.modBind b fun y => { y with epoch := epoch }).modBind b fun y => { y with state := 4, seeded := true }
  else s.modBind b fun y => { y with epoch := epoch }

theorem marked_bind (s : State) (b : BindId) (seed : Bool) (epoch : DWord) :
    (s.marked b seed epoch).twin.bindings[b].epoch = epoch ∧
      (seed = true → (s.marked b seed epoch).twin.bindings[b].state = 4 ∧ (s.marked b seed epoch).twin.bindings[b].seeded = true) := by
  cases seed with
  | false => exact ⟨congrArg TwinBinding.epoch (modBind_self s b _), fun h => absurd h Bool.false_ne_true⟩
  | true =>
    have both : (s.marked b true epoch).twin.bindings[b] =
        { s.twin.bindings[b] with epoch := epoch, state := 4, seeded := true } :=
      (modBind_self (s.modBind b _) b _).trans (congrArg (fun y : TwinBinding => { y with state := 4, seeded := true }) (modBind_self s b _))
    rw [both]
    exact ⟨rfl, fun _ => ⟨rfl, rfl⟩⟩

theorem exec_ckptMark_taken (s : State) (k : PortId) (h : BitVec 128) (epoch : DWord) (up : s.twinUp k = true)
    (type : (twinMsg h).type = 0x21) (valid : s.twin.bindings[(twinMsg h).binding].valid = true)
    (role : s.twin.bindings[(twinMsg h).binding].role = 2) (state : s.twin.bindings[(twinMsg h).binding].state ≠ 8)
    (level : 2 ≤ s.twin.ports[k].level) (secret : s.twinSecret k (twinMsg h).binding (twinMsg h) = true)
    (synced : Nat.testBit (twinMsg h).arg 1 = false) :
    exec (.ckptMark k h epoch) s = .next ((s.marked (twinMsg h).binding (Nat.testBit (twinMsg h).arg 0) epoch).tellBind
      (twinMsg h).binding 0x22 0 (some (epochWord epoch.toNat))) := by
  refine next_of_eq ((if_neg ?_).trans ((if_neg ?_).trans ((if_neg ?_).trans (if_neg (ne_true_of_eq_false synced)))))
  · rw [up, decide_eq_false (not_not_intro type)]
    decide
  · rw [valid]
    decide
  · rw [role, decide_eq_false state, decide_eq_false (BitVec.not_lt.mpr level), secret]
    decide

/-- R382, R383: a binding after an acknowledgement; that of a seed's epoch ends the seed. -/
def TwinBinding.acked (x : TwinBinding) (e : Nat) : TwinBinding :=
  if x.state = 3 ∧ e = 0 then { x.ack e with state := 4, seeded := true, nextEpoch := 1 } else x.ack e

/-- R382: the state with an acknowledgement recorded in its binding. -/
def State.ackRecorded (s : State) (b : BindId) (e : Nat) : State :=
  if s.twin.bindings[b].state = 3 ∧ e = 0 then
    (s.modBind b fun y => y.ack e).modBind b fun y => { y with state := 4, seeded := true, nextEpoch := 1 }
  else s.modBind b fun y => y.ack e

theorem ackRecorded_bind (s : State) (b : BindId) (e : Nat) :
    (s.ackRecorded b e).twin.bindings[b] = s.twin.bindings[b].acked e := by
  unfold State.ackRecorded TwinBinding.acked
  by_cases seed : s.twin.bindings[b].state = 3 ∧ e = 0
  · rw [if_pos seed, if_pos seed, modBind_self, modBind_self]
  · rw [if_neg seed, if_neg seed, modBind_self]

/-- R382: the completions of a binding's panel that an epoch held are released. -/
def State.epochReleased (t s : State) (p : PanelId) (e : Nat) : State :=
  match s.pnl.panels[p].vf with
  | some v => t.releaseComps s.pnl.panels[p].port v fun n => n ≤ e
  | none => t

theorem epochReleased_twin (t s : State) (p : PanelId) (e : Nat) : (t.epochReleased s p e).twin = t.twin := by
  unfold State.epochReleased
  split
  · exact State.releaseComps_twin _ _ _ _
  · rfl

theorem exec_ckptAck_marked (s : State) (k : PortId) (h : BitVec 128) (epoch : DWord) (up : s.twinUp k = true)
    (type : (twinMsg h).type = 0x22) (valid : s.twin.bindings[(twinMsg h).binding].valid = true)
    (role : s.twin.bindings[(twinMsg h).binding].role = 1) (secret : s.twinSecret k (twinMsg h).binding (twinMsg h) = true)
    (mark : (s.twin.bindings[(twinMsg h).binding].marks.any fun n => n.1 = epoch.toNat) = true) :
    exec (.ckptAck k h epoch) s = .next (((s.ackRecorded (twinMsg h).binding epoch.toNat).epochReleased s
      s.twin.bindings[(twinMsg h).binding].panel epoch.toNat).fenceDone (twinMsg h).binding) := by
  refine next_of_eq ((if_neg ?_).trans rfl)
  rw [up, decide_eq_false (not_not_intro type), valid, role, secret, mark]
  decide

/-- R382: an acknowledgement leaves the fencing of a binding. -/
theorem acked_fencing (x : TwinBinding) (e : Nat) : (x.acked e).fencing = x.fencing := by
  unfold TwinBinding.acked TwinBinding.ack
  split <;> split <;> rfl

/-! ## Seeds, R383 -/

theorem exec_bindQuery_held (s : State) (k : PortId) (h : BitVec 128) (d : BitVec 512) (up : s.twinUp k = true)
    (type : (twinMsg h).type = 0x28) (present : d.toNat % 256 ≠ 0xFF) (valid : s.twin.bindings[(twinMsg h).binding].valid = true)
    (plain : (s.bindPanel (twinMsg h).binding).sealed_ = false) :
    exec (.bindQuery k h d) s = .next (s.tellTwin k (twinHeader 0x29 1 0 0 0 0 (twinMsg h).binding.val 0 0 0 0) false
      [{ data := s.bindPayload (twinMsg h).binding, mark := false }]) := by
  refine next_of_eq ((if_neg ?_).trans ((if_neg ?_).trans (by rw [plain])))
  · rw [up, decide_eq_false (not_not_intro type), decide_eq_false present]
    decide
  · rw [valid]
    decide

/-- The state after a seed's reply that its checks accept. -/
def State.seedBegun (s : State) (b : BindId) : State :=
  (s.modBind b fun y => { y with state := 3, pendingWords := 0, marks := [], seedAt := 0 }).ctlDone

theorem exec_bindReply_accepted (s : State) (k j : PortId) (h : BitVec 128) (d : BitVec 512) (up : s.twinUp k = true)
    (type : (twinMsg h).type = 0x29) (valid : s.twin.bindings[(twinMsg h).binding].valid = true)
    (waits : s.seedWaits (twinMsg h).binding = true) (shadow : d.toNat % 256 = 2)
    (same : d.toNat / 256 % 2 ^ 312 = (s.bindPayload (twinMsg h).binding).toNat / 256 % 2 ^ 312)
    (port : s.bindPort (twinMsg h).binding = some j) (works : s.pairWorks j = true) :
    exec (.bindReply k h d) s = .next (s.seedBegun (twinMsg h).binding) := by
  refine next_of_eq ((if_neg ?_).trans ((if_neg ?_).trans ((if_pos waits).trans
    ((if_neg (not_not_intro shadow)).trans ((if_neg (not_not_intro same)).trans (if_neg ?_))))))
  · rw [up, decide_eq_false (not_not_intro type), valid]
    decide
  · rw [shadow]
    decide
  · rw [port, Option.getD_some, works]
    decide

theorem exec_seedQueryTimeout_waits (s : State) (h : s.seedWaits s.twin.ctlBinding = true) :
    exec .seedQueryTimeout s = .next (s.ctlRefuse 4) :=
  next_of_eq (if_pos h)

/-- R381, R383: where a seed's scan stops, with its mark when no word is left. -/
def State.seedScanned (s : State) (b : BindId) : State :=
  if (rangeWord 0 s.twin.bindings[b].ranges (s.seedSome b).twin.bindings[b].seedAt).isNone then (s.seedSome b).queueMark b true 0
  else s.seedSome b

theorem exec_seedScanDone_seeding (s : State) (b : BindId) (valid : s.twin.bindings[b].valid = true)
    (role : s.twin.bindings[b].role = 1) (state : s.twin.bindings[b].state = 3) (marks : s.twin.bindings[b].marks = []) :
    exec (.seedScanDone b) s = .next (s.seedScanned b) := by
  refine next_of_eq (if_neg ?_)
  rw [valid, role, state, marks]
  decide

/-- R382: the mark that a binding queues. -/
theorem queueMark_bind (s : State) (b : BindId) (seed : Bool) (epoch : Nat) :
    (s.queueMark b seed epoch).twin.bindings[b] = { s.twin.bindings[b] with
      marks := s.twin.bindings[b].marks ++ [(epoch, s.twin.bindings[b].pendingWords - (s.twin.bindings[b].marks.map Prod.snd).sum)] } :=
  modBind_self s b _

theorem seedScanned_bind (s : State) (b : BindId) (state : s.twin.bindings[b].state = 3) (marks : s.twin.bindings[b].marks = []) :
    (s.seedScanned b).twin.bindings[b].state = 3 ∧
      ((rangeWord 0 s.twin.bindings[b].ranges (s.seedSome b).twin.bindings[b].seedAt).isNone = true →
        ∃ n, (s.seedScanned b).twin.bindings[b].marks = [(0, n)]) ∧
      ((rangeWord 0 s.twin.bindings[b].ranges (s.seedSome b).twin.bindings[b].seedAt).isNone = false → s.seedScanned b = s.seedSome b) := by
  obtain ⟨keptMarks, keptState⟩ := seedSome_valid s b
  unfold State.seedScanned
  cases ended : (rangeWord 0 s.twin.bindings[b].ranges (s.seedSome b).twin.bindings[b].seedAt).isNone with
  | true =>
    rw [if_pos rfl, queueMark_bind, keptMarks, marks]
    exact ⟨keptState.trans state, fun _ => ⟨_, rfl⟩, fun h => absurd h.symm Bool.false_ne_true⟩
  | false =>
    rw [if_neg Bool.false_ne_true]
    exact ⟨keptState.trans state, fun h => absurd h Bool.false_ne_true, fun _ => rfl⟩

/-! ## Heartbeats and silence, R385 -/

/-- SILENT and CAUSE, read from the two together. -/
theorem silence_shown {u : State} {silent : Bool} {cause : BitVec 2} (h : hush u = (silent, cause)) :
    u.twin.silent = silent ∧ u.twin.cause = cause :=
  ⟨congrArg Prod.fst h, congrArg Prod.snd h⟩

/-- R385: the state with a heartbeat recorded. -/
def State.heard (s : State) (fatal : Bool) : State :=
  let t := s.modTwin fun t => { t with lastHeart := s.sclk, fatalSeen := fatal, silent := false, cause := 0 }
  if s.twin.silent then t.irq irqTwin else t

theorem exec_heart_up (s : State) (k : PortId) (fatal : Bool) (count : BitVec 16) (up : s.twinUp k = true) :
    exec (.heart k fatal count) s = .next ((allFin 64).foldl State.heartOne (s.heard fatal)) := by
  refine next_of_eq (if_neg ?_)
  rw [up]
  decide

theorem heard_twin (s : State) (fatal : Bool) :
    (s.heard fatal).twin = { s.twin with lastHeart := s.sclk, fatalSeen := fatal, silent := false, cause := 0 } := by
  unfold State.heard
  dsimp only
  split
  · exact State.irq_twin _ _
  · rfl

theorem exec_heartSend_beats (s : State) (k : PortId) (beats : s.twin.heartStopped = false) :
    exec (.heartSend k) s = .next (s.sendHeart k false) :=
  next_of_eq (if_neg (ne_true_of_eq_false beats))

theorem sendHeart_port (s : State) (k : PortId) (fatal : Bool) (up : s.twinUp k = true) :
    (s.sendHeart k fatal).twin.ports[k] = { s.twin.ports[k] with heartCount := s.twin.ports[k].heartCount + 1 } := by
  unfold State.sendHeart
  rw [if_neg (by rw [up]; decide), modTwinPort_self, ports_at k (State.tellTwin_twin _ _ _ _ _)]

theorem exec_heartSilence_first (s : State) (heard : s.twin.silent = false) :
    exec .heartSilence s = .next ((allFin 64).foldl (State.silenceOne (s.silenceCause = 3))
      ((s.modTwin fun t => { t with silent := true, cause := s.silenceCause }).irq irqTwin)) :=
  next_of_eq (if_neg (ne_true_of_eq_false heard))

/-! ## TWN_CONTROL, R387 -/

/-- R387: a write with the key, while no action runs, is not passed over. -/
theorem twinControl_runs (s : State) (v : Word) (key : fld v.toNat 24 8 = 0xC5) (free : s.twin.ctlState ≠ 1) :
    ¬ ((decide (fld v.toNat 24 8 ≠ 0xC5) || decide (s.twin.ctlState = 1)) = true) := by
  rw [decide_eq_false (not_not_intro key), decide_eq_false free]
  decide

theorem twinControl_seed (s : State) (v : Word) (key : fld v.toNat 24 8 = 0xC5) (free : s.twin.ctlState ≠ 1)
    (action : fld v.toNat 8 2 = 0) : s.twinControl v = s.seedBind (asFin 64 (fld v.toNat 0 6)) :=
  (if_neg (twinControl_runs s v key free)).trans (if_pos action)

theorem twinControl_promote (s : State) (v : Word) (key : fld v.toNat 24 8 = 0xC5) (free : s.twin.ctlState ≠ 1)
    (action : fld v.toNat 8 2 = 1) : s.twinControl v = s.promoteAction (asFin 64 (fld v.toNat 0 6)) :=
  (if_neg (twinControl_runs s v key free)).trans ((if_neg (by rw [action]; decide)).trans (if_pos action))

theorem twinControl_unfence (s : State) (v : Word) (key : fld v.toNat 24 8 = 0xC5) (free : s.twin.ctlState ≠ 1)
    (action : fld v.toNat 8 2 = 2) : s.twinControl v = s.unfenceBind (asFin 64 (fld v.toNat 0 6)) :=
  (if_neg (twinControl_runs s v key free)).trans
    ((if_neg (by rw [action]; decide)).trans ((if_neg (by rw [action]; decide)).trans (if_pos action)))

theorem twinControl_fence (s : State) (v : Word) (key : fld v.toNat 24 8 = 0xC5) (free : s.twin.ctlState ≠ 1)
    (action : fld v.toNat 8 2 = 3) : s.twinControl v = s.fenceBind (asFin 64 (fld v.toNat 0 6)) :=
  (if_neg (twinControl_runs s v key free)).trans
    ((if_neg (by rw [action]; decide)).trans ((if_neg (by rw [action]; decide)).trans (if_neg (by rw [action]; decide))))

/-- R383: a seed of a primary that is not synchronised asks the partner. -/
theorem seedBind_twin (s : State) (b : BindId) (valid : s.twin.bindings[b].valid = true) (role : s.twin.bindings[b].role = 1)
    (state : s.twin.bindings[b].state = 2) :
    (s.seedBind b).twin = { s.twin with ctlState := 1, ctlReason := 0, ctlBinding := b } := by
  unfold State.seedBind
  dsimp only
  rw [if_pos (by rw [valid, role, state]; decide)]
  exact tellBind_twin _ _ _ _ _

/-- R386: a shadow promoted. -/
theorem promoteBind_twin (s : State) (b : BindId) : (s.promoteBind b).twin = (s.bindTo b 8).twin :=
  (State.logFault_twin _ _).trans ((State.irq_twin _ _).trans (State.fetchPanel_twin _ _))

theorem promoteAction_seeded (s : State) (b : BindId) (valid : s.twin.bindings[b].valid = true)
    (role : s.twin.bindings[b].role = 2) (state : s.twin.bindings[b].state = 4 ∨ s.twin.bindings[b].state = 6)
    (seeded : s.twin.bindings[b].seeded = true) : s.promoteAction b = (s.promoteBind b).ctlDone := by
  refine if_pos ?_
  rw [valid, role, seeded]
  obtain synced | alone := state
  · rw [synced]
    decide
  · rw [alone]
    decide

theorem unfenceBind_fenced (s : State) (b : BindId) (valid : s.twin.bindings[b].valid = true)
    (role : s.twin.bindings[b].role = 1) (state : s.twin.bindings[b].state = 7) :
    s.unfenceBind b =
      (((s.bindTo b 6).fetchPanel s.twin.bindings[b].panel).releasePanel s.twin.bindings[b].panel).ctlDone := by
  refine if_pos ?_
  rw [valid, role, state]
  decide

/-- R387: the state with a fence begun, before it is found complete. -/
def State.fenceBegun (s : State) (b : BindId) : State :=
  ((s.modTwin fun t => { t with ctlState := 1, ctlReason := 0, ctlBinding := b }).modBind b fun y => { y with fencing := true }).haltPanel
    s.twin.bindings[b].panel

theorem fenceBegun_bind (s : State) (b : BindId) : (s.fenceBegun b).twin.bindings[b] = { s.twin.bindings[b] with fencing := true } :=
  (binds_at b (State.haltPanel_twin _ _)).trans (modBind_self _ b _)

theorem fenceBind_primary (s : State) (b : BindId) (valid : s.twin.bindings[b].valid = true) (role : s.twin.bindings[b].role = 1)
    (state : s.twin.bindings[b].state = 4 ∨ s.twin.bindings[b].state = 5 ∨ s.twin.bindings[b].state = 6) :
    s.fenceBind b = (s.fenceBegun b).fenceDone b := by
  refine if_pos ?_
  rw [valid, role]
  obtain a | a | a := state
  · rw [a]
    decide
  · rw [a]
    decide
  · rw [a]
    decide

/-- R387: a fence with no mark outstanding is complete. -/
theorem fenceDone_clear (s : State) (b : BindId) (fencing : s.twin.bindings[b].fencing = true) (marks : s.twin.bindings[b].marks = []) :
    s.fenceDone b = (s.modBind b fun y => { y with fencing := false, state := 7 }).modTwin fun t => { t with ctlState := 2, ctlReason := 0 } := by
  refine if_pos ?_
  rw [fencing, marks]
  rfl

/-- Settles O48, by what each of these commands comes to. -/
theorem twinPairs : Obligations.TwinPairs := by
  unfold Obligations.TwinPairs
  refine ⟨?ckpt, ?mark, ?ack, ?query, ?reply, ?heart, ?heartSend, ?silence, ?seed, ?promote, ?unfence, ?fence, ?timeout, ?scan⟩
  case ckpt =>
    intro s k h b w r up type one named valid role state level secret range aligned fits plain
    subst named
    exact ⟨_, exec_ckpt_word s k h w r up type one valid role state level secret range aligned fits,
      congrArg State.mem (twinStore_one s _ _ _ _ _ plain)⟩
  case mark =>
    intro s k h b e up type named valid role state level secret synced
    subst named
    refine ⟨_, exec_ckptMark_taken s k h e up type valid role state level secret synced, ?_⟩
    rw [tellBind_twin]
    exact marked_bind s _ _ e
  case ack =>
    intro s k h b e up type named valid role secret mark idle
    subst named
    refine ⟨_, exec_ckptAck_marked s k h e up type valid role secret mark, ?_⟩
    have bind := (binds_at (twinMsg h).binding (epochReleased_twin (s.ackRecorded (twinMsg h).binding e.toNat) s
      s.twin.bindings[(twinMsg h).binding].panel e.toNat)).trans (ackRecorded_bind s _ e.toNat)
    rw [fenceDone_idle _ _ (by rw [bind, acked_fencing, idle]), bind]
    rfl
  case query =>
    intro s k h b d up type present named valid plain sends
    subst named
    exact ⟨_, exec_bindQuery_held s k h d up type present valid plain, tellTwin_out s k _ _ sends⟩
  case reply =>
    intro s k j h b d up type named valid waits shadow same port works
    subst named
    exact ⟨_, exec_bindReply_accepted s k j h d up type valid waits shadow same port works, modBind_self s _ _, rfl, rfl⟩
  case heart =>
    intro s k fatal count up
    refine ⟨_, exec_heart_up s k fatal count up, ?_⟩
    obtain ⟨last, silent, seen, cause⟩ := hearts_keep (allFin 64) (s.heard fatal)
    rw [last, silent, seen, cause, heard_twin]
    exact ⟨rfl, rfl, rfl, rfl⟩
  case heartSend =>
    intro s k beats up sends
    exact ⟨_, exec_heartSend_beats s k beats, sendHeart_port s k false up, heart_out s k false up sends⟩
  case silence =>
    intro s heard
    refine ⟨_, exec_heartSilence_first s heard, ?_⟩
    exact silence_shown ((silence_hush (s.silenceCause = 3) (allFin 64) _).trans
      (hush_eq (State.irq_twin (s.modTwin fun t => { t with silent := true, cause := s.silenceCause }) irqTwin)))
  case seed =>
    intro s v b open_ key free named action valid role state
    subst named
    refine ⟨_, next_of_eq ((State.byPf0_open _ open_).trans (twinControl_seed s v key free action)), ?_⟩
    rw [seedBind_twin s _ valid role state]
    exact ⟨rfl, rfl, rfl⟩
  case promote =>
    intro s v b open_ key free named action valid role state seeded
    subst named
    refine ⟨_, next_of_eq ((State.byPf0_open _ open_).trans ((twinControl_promote s v key free action).trans
      (promoteAction_seeded s _ valid role state seeded))), ?_, rfl, rfl⟩
    exact congrArg TwinBinding.state ((binds_at _ (promoteBind_twin s _)).trans (modBind_self s _ _))
  case unfence =>
    intro s v b open_ key free named action valid role state
    subst named
    refine ⟨_, next_of_eq ((State.byPf0_open _ open_).trans ((twinControl_unfence s v key free action).trans
      (unfenceBind_fenced s _ valid role state))), ?_, rfl, rfl⟩
    exact congrArg TwinBinding.state ((binds_at _ ((State.releasePanel_twin _ _).trans (State.fetchPanel_twin _ _))).trans
      (modBind_self s _ _))
  case fence =>
    intro s v b open_ key free named action valid role state marks
    subst named
    have bind := fenceBegun_bind s (asFin 64 (fld v.toNat 0 6))
    refine ⟨_, next_of_eq ((State.byPf0_open _ open_).trans ((twinControl_fence s v key free action).trans
      ((fenceBind_primary s _ valid role state).trans (fenceDone_clear _ _ (by rw [bind]) (by rw [bind]; exact marks))))), ?_, rfl, rfl⟩
    refine (modBind_self (s.fenceBegun _) _ _).trans ?_
    rw [bind]
  case timeout =>
    intro s waits
    exact ⟨_, exec_seedQueryTimeout_waits s waits, rfl, rfl, rfl⟩
  case scan =>
    intro s b valid role state marks
    exact ⟨_, exec_seedScanDone_seeding s b valid role state marks, seedScanned_bind s b state marks⟩

end Sys2Proof.Machine
end

section
/-!
PROOFS. Power-good inputs, package reset, and the stages of the boot.
-/

namespace Sys2Proof.Machine

/-! ## Reset, R392 -/

/-- R392: with its six inputs high the hub leaves reset. -/
theorem maybeLeave_leaves (s : State) (held : s.inReset = true) (good : s.pins.pkgResetN = true) (power : s.pins.pwrgd = 0b11111) :
    s.maybeLeave = s.atReset := by
  refine if_pos ?_
  unfold Pins.allGood
  rw [held, good, power]
  decide

/-- R392: what a reset leaves of the state before it. -/
theorem atReset_keeps (s : State) :
    s.atReset.inReset = false ∧ s.atReset.stage = 0 ∧ s.atReset.mem = [] ∧ s.atReset.fuse = s.fuse ∧ s.atReset.pending = s.pending ∧
      s.atReset.pins = s.pins ∧ s.atReset.side = s.side :=
  ⟨rfl, rfl, rfl, rfl, rfl, rfl, rfl⟩

/-- R392: what is left of the state in which the hub enters reset. -/
theorem enterReset_keeps (s : State) :
    s.enterReset.inReset = true ∧ s.enterReset.stage = 0 ∧ s.enterReset.mem = [] ∧ s.enterReset.ras.flog = [] ∧
      s.enterReset.fuse = s.fuse ∧ s.enterReset.pending = s.pending ∧ s.enterReset.pins = s.pins :=
  ⟨rfl, rfl, rfl, rfl, State.releasePins_fuse s, State.releasePins_pending s, State.releasePins_pins s⟩

/-- The state with a power-good input risen, before the hub may leave reset; the AUX rail wakes its own domain. -/
def State.railUp (s : State) (pin : PowerGood) : State :=
  let t := s.modPins fun p => { p with pwrgd := setBit p.pwrgd (goodBit pin) true }
  if pin = .aux then t.auxUp else t

theorem railUp_keeps (s : State) (pin : PowerGood) :
    (s.railUp pin).inReset = s.inReset ∧ (s.railUp pin).fuse = s.fuse ∧ (s.railUp pin).pending = s.pending ∧
      (s.railUp pin).pins = { s.pins with pwrgd := setBit s.pins.pwrgd (goodBit pin) true } := by
  unfold State.railUp
  dsimp only
  split
  · exact ⟨rfl, rfl, rfl, rfl⟩
  · exact ⟨rfl, rfl, rfl, rfl⟩

theorem exec_pwrgdRise_last (s : State) (pin : PowerGood) (held : s.inReset = true) (low : bit s.pins.pwrgd (goodBit pin) = false)
    (last : setBit s.pins.pwrgd (goodBit pin) true = 0b11111) (released : s.pins.pkgResetN = true) :
    exec (.pwrgdRise pin) s = .next (s.railUp pin).atReset := by
  obtain ⟨reset, -, -, pins⟩ := railUp_keeps s pin
  refine next_of_eq ((if_neg (ne_true_of_eq_false low)).trans
    (maybeLeave_leaves (s.railUp pin) (reset.trans held) ?_ ?_))
  · rw [pins]
    exact released
  · rw [pins]
    exact last

/-- The state with a power-good input fallen and the last heartbeats sent, before the reset. -/
def State.railDown (s : State) (pin : PowerGood) : State :=
  ((s.modPins fun p => { p with pwrgd := setBit p.pwrgd (goodBit pin) false }).sendHeart 0 true).sendHeart 1 true

theorem railDown_keeps (s : State) (pin : PowerGood) :
    (s.railDown pin).fuse = s.fuse ∧ (s.railDown pin).pending = s.pending ∧
      (s.railDown pin).pins = { s.pins with pwrgd := setBit s.pins.pwrgd (goodBit pin) false } :=
  ⟨(State.sendHeart_fuse _ 1 true).trans (State.sendHeart_fuse _ 0 true),
    (State.sendHeart_pending _ 1 true).trans (State.sendHeart_pending _ 0 true),
    (State.sendHeart_pins _ 1 true).trans (State.sendHeart_pins _ 0 true)⟩

theorem exec_pwrgdFall_up (s : State) (pin : PowerGood) (up : s.inReset = false) (high : bit s.pins.pwrgd (goodBit pin) = true) :
    exec (.pwrgdFall pin) s = .next (s.railDown pin).enterReset := by
  refine next_of_eq ((if_neg ?_).trans (if_neg (ne_true_of_eq_false up)))
  rw [high]
  decide

theorem exec_pkgResetAssert_up (s : State) (up : s.inReset = false) :
    exec .pkgResetAssert s = .next (s.modPins fun p => { p with pkgResetN := false }).enterReset :=
  next_of_eq (if_neg (ne_true_of_eq_false up))

theorem exec_pkgResetRelease_good (s : State) (held : s.inReset = true) (power : s.pins.pwrgd = 0b11111) :
    exec .pkgResetRelease s = .next (s.modPins fun p => { p with pkgResetN := true }).atReset :=
  next_of_eq (maybeLeave_leaves (s.modPins fun p => { p with pkgResetN := true }) held rfl power)

/-! ## Boot stages, R396 -/

/-- The state after the first stage: every clock is locked. -/
def State.clocked (s : State) : State :=
  { s.modClk fun _ => { coreLock := true, twinLock := 3, pcieLock := 3, siteLock := s.fuse.sitePop, hbmLock := 0xFF } with stage := 1 }

theorem exec_bootStageDone_clocks (s : State) (up : s.inReset = false) (stage : s.stage = 0) :
    exec (.bootStageDone true) s = .next s.clocked :=
  next_of_eq ((if_neg (ne_true_of_eq_false up)).trans ((if_pos stage).trans (if_pos rfl)))

/-- R348, R349: the life-cycle state that the vote of the copies gives. -/
theorem vote_state (s : State) :
    s.vote.lcs.state = (if wordValid s.fuse.resolve.1.voted then wordState s.fuse.resolve.1.voted else lcsRetired) ∧
      s.vote.retired = decide (s.vote.lcs.state = lcsRetired) := by
  unfold State.vote
  generalize s.fuse.resolve = r
  exact ⟨rfl, rfl⟩

theorem exec_bootStageDone_vote (s : State) (passed : Bool) (up : s.inReset = false) (stage : s.stage = 1) :
    exec (.bootStageDone passed) s = .next { s.vote with stage := 2 } :=
  next_of_eq ((if_neg (ne_true_of_eq_false up)).trans ((if_neg (by rw [stage]; decide)).trans (if_pos stage)))

theorem exec_bootStageDone_store (s : State) (passed : Bool) (up : s.inReset = false) (stage : s.stage = 2) (runs : s.retired = false) :
    exec (.bootStageDone passed) s = .next { s.applyStore with stage := 3 } :=
  next_of_eq ((if_neg (ne_true_of_eq_false up)).trans ((if_neg (by rw [stage]; decide)).trans ((if_neg (by rw [stage]; decide)).trans
    ((if_pos stage).trans (if_neg (ne_true_of_eq_false runs))))))

/-- R344: the state of the fourth stage, in which the firmware of the security root has been checked. -/
theorem bootStage_firmware (s : State) (passed : Bool) (up : s.inReset = false) (stage : s.stage = 3) :
    exec (.bootStageDone passed) s =
      .next (if passed then s.makeKeys.bootDone else ({ s with stage := 5 } : State).packageFault 15 0) :=
  next_of_eq ((if_neg (ne_true_of_eq_false up)).trans ((if_neg (by rw [stage]; decide)).trans ((if_neg (by rw [stage]; decide)).trans
    ((if_neg (by rw [stage]; decide)).trans (if_pos stage)))))

/-- R366: the records of the store in their order leave the fuses. -/
theorem applyStore_fuse (s : State) : s.applyStore.fuse = { s.fuse with bootCount := satAdd s.fuse.bootCount 1 } :=
  (State.checkGrade_fuse _).trans (patches_fuse s.fuse.patches _)

/-- R396: what the end of the boot leaves of the state before it. -/
theorem bootDone_keeps (s : State) : s.bootDone.stage = 4 ∧ s.bootDone.bootMs = s.bootTime ∧ s.bootDone.fuse = s.fuse := by
  unfold State.bootDone
  rw [State.readyFrom_stage, State.readyMessage_stage, State.readyMessage_stage, State.readyFrom_bootMs, State.readyMessage_bootMs,
    State.readyMessage_bootMs, State.readyFrom_fuse, State.readyMessage_fuse, State.readyMessage_fuse]
  exact ⟨rfl, rfl, rfl⟩

/-- R345: in PERSONALIZED the security root has its bundle key after the first boot. -/
theorem makeKeys_bundle (s : State) (h : s.lcs.state = lcsPersonalized) : s.makeKeys.fuse.bundleKey.isSome = true := by
  unfold State.makeKeys
  rw [h]
  cases key : s.fuse.bundleKey with
  | none => rfl
  | some k => exact congrArg Option.isSome key

theorem makeKeys_time (s : State) : s.makeKeys.bootTime = s.bootTime := by
  unfold State.makeKeys
  split
  · rfl
  · rfl

/-- R396: the state after the self-tests of a field's arrays. -/
def State.fieldTested (s : State) (f : FieldId) : State :=
  (List.range 5).foldl (fun t i => t.modArray (asFin 40 (5 * f.val + i)) fun x => { x with selfTested := true }) s

theorem fieldTested_fields (s : State) (f : FieldId) : (s.fieldTested f).fields = s.fields :=
  selfTested_fields (fun i => asFin 40 (5 * f.val + i)) (List.range 5) s

theorem fieldTested_array (s : State) (f : FieldId) (i : Nat) (lt : i < 5) :
    (s.fieldTested f).arrays[asFin 40 (5 * f.val + i)].selfTested = true :=
  selfTested_at (fun i => asFin 40 (5 * f.val + i)) (List.range 5) s i (List.mem_range.mpr lt)

theorem exec_fieldSelfTestDone_first (s : State) (f : FieldId) (may : s.elementsMayStart = true) (first : s.fields[f].selfTest = false) :
    exec (.fieldSelfTestDone f) s = .next (((s.fieldTested f).modField f fun x => { x with selfTest := true }).readyFrom s) := by
  refine next_of_eq (if_neg ?_)
  rw [may, first]
  decide

/-- Settles O49, by what each of these commands comes to. -/
theorem resets : Obligations.Resets := by
  unfold Obligations.Resets
  refine ⟨?rise, ?fall, ?assert, ?release, ?clocks, ?vote, ?store, ?boot, ?firmware, ?field⟩
  case rise =>
    intro s pin held low last released
    obtain ⟨reset, stage, mem, fuse, pending, -, side⟩ := atReset_keeps (s.railUp pin)
    obtain ⟨-, fuse', pending', -⟩ := railUp_keeps s pin
    refine ⟨_, exec_pwrgdRise_last s pin held low last released, reset, stage, mem, fuse.trans fuse', pending.trans pending', ?_⟩
    rintro rfl
    rw [side]
    exact ⟨rfl, rfl⟩
  case fall =>
    intro s pin up high
    obtain ⟨reset, -, mem, log, fuse, pending, pins⟩ := enterReset_keeps (s.railDown pin)
    obtain ⟨fuse', pending', pins'⟩ := railDown_keeps s pin
    refine ⟨_, exec_pwrgdFall_up s pin up high, reset, mem, log, fuse.trans fuse', pending.trans pending', pins.trans pins', ?_⟩
    intro k works sends
    exact fatal_hearts (s.modPins _) k works sends
  case assert =>
    intro s up
    obtain ⟨reset, stage, mem, -, fuse, pending, pins⟩ := enterReset_keeps (s.modPins fun p => { p with pkgResetN := false })
    exact ⟨_, exec_pkgResetAssert_up s up, reset, stage, mem, fuse, pending, pins⟩
  case release =>
    intro s held power
    obtain ⟨reset, stage, mem, fuse, pending, pins, -⟩ := atReset_keeps (s.modPins fun p => { p with pkgResetN := true })
    exact ⟨_, exec_pkgResetRelease_good s held power, reset, stage, mem, fuse, pending, congrArg Pins.pkgResetN pins⟩
  case clocks =>
    intro s up stage
    exact ⟨_, exec_bootStageDone_clocks s up stage, rfl, rfl, rfl, rfl⟩
  case vote =>
    intro s passed up stage
    exact ⟨_, exec_bootStageDone_vote s passed up stage, rfl, vote_state s⟩
  case store =>
    intro s passed up stage runs
    exact ⟨_, exec_bootStageDone_store s passed up stage runs, rfl, applyStore_fuse s, rfl⟩
  case boot =>
    intro s up stage
    obtain ⟨booted, time, fuse⟩ := bootDone_keeps s.makeKeys
    refine ⟨_, (bootStage_firmware s true up stage).trans (next_of_eq (if_pos rfl)), booted, time.trans (makeKeys_time s), ?_⟩
    intro personal
    rw [fuse]
    exact makeKeys_bundle s personal
  case firmware =>
    intro s up stage none_
    exact ⟨_, (bootStage_firmware s false up stage).trans (next_of_eq (if_neg Bool.false_ne_true)), State.packageFault_stage _ 15 0,
      (pkg_ras { s with stage := 5 } 15 0 none_).1⟩
  case field =>
    intro s f may first
    refine ⟨_, exec_fieldSelfTestDone_first s f may first, ?_, ?_⟩
    · rw [State.readyFrom_fields]
      exact (vmod_self _ _ _).trans
        (congrArg (fun v : Vector FieldState 8 => { v[f] with selfTest := true }) (fieldTested_fields s f))
    · intro i lt
      rw [State.readyFrom_arrays]
      generalize tested : s.fieldTested f = z
      have done := fieldTested_array s f i lt
      rw [tested] at done
      exact done

end Sys2Proof.Machine
end

section
/-!
PROOFS. Enables and power of the chiplet sites.
-/

namespace Sys2Proof.Machine

theorem raiseSite_self (s : State) (n : SiteId) :
    (s.raiseSite n).sites[n] = { s.sites[n] with enabled := true, stage := .waitPower } := modSite_self s n _

/-- R394: the state after a slot, in which both halves of a double site are enabled. -/
def State.slotTaken (s : State) (n : SiteId) : State :=
  if s.pairFused n.val then { (s.raiseSite n).raiseSite (asFin 8 (n.val + 1)) with siteSlot := n.val + 2 }
  else { s.raiseSite n with siteSlot := n.val + 1 }

theorem slotTaken_pair (s : State) (n : SiteId) (pair : s.pairFused n.val = true) :
    s.slotTaken n = { (s.raiseSite n).raiseSite (asFin 8 (n.val + 1)) with siteSlot := n.val + 2 } := if_pos pair

theorem slotTaken_single (s : State) (n : SiteId) (single : s.pairFused n.val = false) :
    s.slotTaken n = { s.raiseSite n with siteSlot := n.val + 1 } := if_neg (ne_true_of_eq_false single)

theorem exec_siteEnSlot_next (s : State) (n : SiteId) (may : s.elementsMayStart = true) (next : s.nextSite = some n) :
    exec .siteEnSlot s = .next (s.slotTaken n) := by
  refine next_of_eq ((if_neg ?_).trans ?_)
  · rw [may]
    decide
  · rw [next]
    rfl

/-- R244: a site that waits for its power goes on to its sideband. -/
theorem siteBegins_waiting (s : State) (n : SiteId) (waits : s.sites[n].stage = .waitPower) :
    s.siteBegins n = s.modSite n fun x => { x with stage := .sideband } := if_pos waits

/-- The state after the power of a site has risen. -/
def State.sitePowered (s : State) (n : SiteId) : State :=
  (s.modPins fun p => { p with sitePg := setBit p.sitePg n.val true }).modSite n fun x => { x with power := true }

theorem sitePowered_site (s : State) (n : SiteId) : (s.sitePowered n).sites[n] = { s.sites[n] with power := true } :=
  modSite_self (s.modPins _) n _

theorem exec_sitePgRise_up (s : State) (n : SiteId) (low : bit s.pins.sitePg n.val = false) (up : s.inReset = false) :
    exec (.sitePgRise n) s = .next ((s.sitePowered n).siteBegins n) :=
  next_of_eq ((if_neg (ne_true_of_eq_false low)).trans (if_neg (ne_true_of_eq_false up)))

theorem exec_sitePgWaitTimeout_begins (s : State) (n : SiteId) : exec (.sitePgWaitTimeout n) s = .next (s.siteBegins n) := rfl

/-- The state with the power of a site fallen, before the log. -/
def State.siteUnpowered (s : State) (n : SiteId) : State :=
  (s.modPins fun p => { p with sitePg := setBit p.sitePg n.val false }).modSite n fun x => { x with power := false }

theorem siteUnpowered_site (s : State) (n : SiteId) : (s.siteUnpowered n).sites[n] = { s.sites[n] with power := false } :=
  modSite_self (s.modPins _) n _

theorem exec_sitePgFall_up (s : State) (n : SiteId) (high : bit s.pins.sitePg n.val = true) (up : s.inReset = false) :
    exec (.sitePgFall n) s =
      .next (if s.sites[n].inService then (s.siteUnpowered n).noteSite n 0 else s.siteUnpowered n) := by
  refine next_of_eq ((if_neg ?_).trans (if_neg (ne_true_of_eq_false up)))
  rw [high]
  decide

/-- Settles O50, by what each of these commands comes to. -/
theorem siteRails : Obligations.SiteRails := by
  unfold Obligations.SiteRails
  refine ⟨?slot, ?rise, ?timeout, ?fall⟩
  case slot =>
    intro s n may next
    refine ⟨_, exec_siteEnSlot_next s n may next, ?_⟩
    cases pair : s.pairFused n.val with
    | true =>
      have apart := next_half n (pairFused_lt s n.val pair)
      rw [slotTaken_pair s n pair, if_pos rfl]
      refine ⟨(raiseSite_other (s.raiseSite n) _ n apart).trans (raiseSite_self s n), ?_, rfl⟩
      intro m _ upper
      have half : m = asFin 8 (n.val + 1) := Fin.ext (upper.trans (Nat.mod_eq_of_lt (upper ▸ m.isLt)).symm)
      rw [← half] at apart ⊢
      refine (raiseSite_self (s.raiseSite n) m).trans ?_
      rw [raiseSite_other s n m apart.symm]
    | false =>
      rw [slotTaken_single s n pair, if_neg Bool.false_ne_true]
      exact ⟨raiseSite_self s n, fun _ h => absurd h Bool.false_ne_true, rfl⟩
  case rise =>
    intro s n low up waits
    refine ⟨_, exec_sitePgRise_up s n low up, ?_⟩
    rw [siteBegins_waiting _ n (by rw [sitePowered_site]; exact waits)]
    refine ⟨?_, rfl⟩
    rw [modSite_self, sitePowered_site]
  case timeout =>
    intro s n waits
    refine ⟨_, exec_sitePgWaitTimeout_begins s n, ?_⟩
    rw [siteBegins_waiting s n waits, modSite_self]
  case fall =>
    intro s n high up room
    refine ⟨_, exec_sitePgFall_up s n high up, ?_⟩
    cases serving : s.sites[n].inService with
    | true =>
      rw [if_pos rfl, if_pos rfl]
      exact ⟨(sites_at n (State.noteSite_sites _ n 0)).trans (siteUnpowered_site s n), State.noteSite_pins _ n 0,
        logFault_flog (s.siteUnpowered n) _ room⟩
    | false =>
      rw [if_neg Bool.false_ne_true, if_neg Bool.false_ne_true, List.append_nil]
      exact ⟨siteUnpowered_site s n, rfl, rfl⟩

end Sys2Proof.Machine
end

section
/-!
PROOFS. Clocks, power samples, the temperature sensors, and the limits.
-/

namespace Sys2Proof.Machine

/-! ## Clocks, R398 -/

theorem exec_refclkLoss_up (s : State) (up : s.inReset = false) : exec .refclkLoss s = .next (s.packageFault 17 1) :=
  next_of_eq (if_neg (ne_true_of_eq_false up))

theorem exec_pllLockLoss_core (s : State) (locked : s.clk.coreLock = true) :
    exec (.pllLockLoss .core) s = .next ((s.modClk fun c => { c with coreLock := false }).packageFault 17 2) :=
  next_of_eq (if_pos locked)

theorem exec_pllLockLoss_site (s : State) (n : SiteId) (locked : bit s.clk.siteLock n.val = true) :
    exec (.pllLockLoss (.site n)) s =
      .next ((s.modClk fun c => { c with siteLock := setBit c.siteLock n.val false }).killSite n 9) :=
  next_of_eq (if_pos locked)

theorem exec_pllLockLoss_twin (s : State) (k : PortId) (locked : bit s.clk.twinLock k.val = true) :
    exec (.pllLockLoss (.twin k)) s =
      .next ((s.modClk fun c => { c with twinLock := setBit c.twinLock k.val false }).twinFails k) :=
  next_of_eq (if_pos locked)

/-- R374: a port that has failed is not up. -/
theorem twinUp_failed (s : State) (k : PortId) (failed : s.twin.ports[k].state = 4) : s.twinUp k = false := by
  unfold State.twinUp
  rw [failed]
  rfl

/-! ## Power, R402 and R403 -/

/-- R402: far above the limit the allowance is halved. -/
theorem PwrState.nextD_over (x : PwrState) (p1 p10 : Nat) (ten below : Bool) (exceeds : 11 * x.limit4 < 40 * p10) :
    x.nextD p1 p10 ten below = max 8 (x.d.toNat / 2) :=
  if_pos exceeds

/-- R402: above the limit the allowance falls by four at a step. -/
theorem PwrState.nextD_above (x : PwrState) (p1 p10 : Nat) (below : Bool) (near : 40 * p10 ≤ 11 * x.limit4)
    (above : x.limit4 < 4 * p1) : x.nextD p1 p10 true below = max 8 (x.d.toNat - 4) :=
  (if_neg (Nat.not_lt.mpr near)).trans ((if_pos above).trans (if_pos rfl))

/-- R402: long enough below the limit the allowance rises by one at a step. -/
theorem PwrState.nextD_below (x : PwrState) (p1 p10 : Nat) (near : 40 * p10 ≤ 11 * x.limit4)
    (below : 400 * p1 < 98 * x.limit4) : x.nextD p1 p10 true true = min 64 (x.d.toNat + 1) := by
  have under : ¬ x.limit4 < 4 * p1 := by omega
  exact (if_neg (Nat.not_lt.mpr near)).trans ((if_neg under).trans (if_pos ⟨below, rfl, rfl⟩))

/-- R402, R406: the power registers after a sample. -/
def PwrState.sampled (x : PwrState) (p1 p10 : BitVec 13) (ten below : Bool) : PwrState :=
  let d := x.nextD p1.toNat p10.toNat ten below
  { x with
    p1 := p1, d := BitVec.ofNat 7 d, p1Max := if x.p1Max.toNat < p1.toNat then p1 else x.p1Max
    evCapped := x.evCapped || decide (d < 64), evFloor := x.evFloor || decide (d = 8) }

theorem sampled_p1Max (x : PwrState) (p1 p10 : BitVec 13) (ten below : Bool) :
    (x.sampled p1 p10 ten below).p1Max.toNat = max x.p1Max.toNat p1.toNat := by
  unfold PwrState.sampled
  dsimp only
  split
  next higher => exact (Nat.max_eq_right (Nat.le_of_lt higher)).symm
  next kept => exact (Nat.max_eq_left (Nat.not_lt.mp kept)).symm

/-- The allowance that a sample leaves, where it fits its register. -/
theorem sampled_d (x : PwrState) (p1 p10 : BitVec 13) (ten below : Bool) (d : Nat)
    (next : x.nextD p1.toNat p10.toNat ten below = d) (fits : d ≤ 64) : (x.sampled p1 p10 ten below).d.toNat = d := by
  show (BitVec.ofNat 7 (x.nextD p1.toNat p10.toNat ten below)).toNat = d
  rw [next, BitVec.toNat_ofNat]
  exact Nat.mod_eq_of_lt (by omega)

/-- The state after a sample, with the package fault of R403. -/
def State.powerSampled (s : State) (p1 p10 : BitVec 13) (ten below floor : Bool) : State :=
  let t := s.modPwr fun x => x.sampled p1 p10 ten below
  if 4300 < p1.toNat ∧ floor ∧ s.pwr.d = 8 then t.packageFault 17 3 else t

theorem exec_powerSample_up (s : State) (p1 p10 : BitVec 13) (ten below floor : Bool) (up : s.inReset = false) :
    exec (.powerSample p1 p10 ten below floor) s = .next (s.powerSampled p1 p10 ten below floor) :=
  next_of_eq (if_neg (ne_true_of_eq_false up))

theorem powerSampled_pwr (s : State) (p1 p10 : BitVec 13) (ten below floor : Bool) :
    (s.powerSampled p1 p10 ten below floor).pwr = s.pwr.sampled p1 p10 ten below := by
  unfold State.powerSampled
  dsimp only
  split
  · exact State.packageFault_pwr _ 17 3
  · rfl

theorem powerSampled_fault (s : State) (p1 p10 : BitVec 13) (ten below : Bool) (exceeds : 4300 < p1.toNat) (least : s.pwr.d = 8)
    (none_ : s.ras.pkgFault = none) : (s.powerSampled p1 p10 ten below true).ras.pkgFault = some (17, 3) := by
  unfold State.powerSampled
  dsimp only
  rw [if_pos ⟨exceeds, rfl, least⟩]
  exact (pkg_ras (s.modPwr _) 17 3 none_).1

/-! ## Temperature, R404 and R405 -/

/-- The state with the readings of the sensors and the thermal event that they begin or end. -/
def State.tempRead (s : State) (sensors : Vector Byte 32) : State :=
  (s.modPwr fun x => { x with temps := sensors, tmax := hottest sensors }).thermal

/-- The state after a sample of the sensors, with the package fault of R405. -/
def State.tempSampled (s : State) (sensors : Vector Byte 32) (hot : Bool) : State :=
  if hot ∧ 120 ≤ (hottest sensors).toNat then (s.tempRead sensors).packageFault 17 4 else s.tempRead sensors

theorem exec_tempSample_up (s : State) (sensors : Vector Byte 32) (hot : Bool) (up : s.inReset = false) :
    exec (.tempSample sensors hot) s = .next (s.tempSampled sensors hot) :=
  next_of_eq (if_neg (ne_true_of_eq_false up))

theorem tempRead_keeps (s : State) (sensors : Vector Byte 32) :
    (s.tempRead sensors).pwr.temps = sensors ∧ (s.tempRead sensors).pwr.tmax = hottest sensors ∧
      (s.tempRead sensors).ras.pkgFault = s.ras.pkgFault :=
  thermal_keeps _

theorem tempSampled_pwr (s : State) (sensors : Vector Byte 32) (hot : Bool) :
    (s.tempSampled sensors hot).pwr = (s.tempRead sensors).pwr := by
  unfold State.tempSampled
  split
  · exact State.packageFault_pwr _ 17 4
  · rfl

theorem tempSampled_out (s : State) (sensors : Vector Byte 32) (hot : Bool) (o : Out) (h : o ∈ (s.tempRead sensors).out) :
    o ∈ (s.tempSampled sensors hot).out := by
  unfold State.tempSampled
  split
  · exact pkg_out _ 17 4 o h
  · exact h

theorem tempSampled_fault (s : State) (sensors : Vector Byte 32) (high : 120 ≤ (hottest sensors).toNat)
    (none_ : s.ras.pkgFault = none) : (s.tempSampled sensors true).ras.pkgFault = some (17, 4) := by
  obtain ⟨-, -, kept⟩ := tempRead_keeps s sensors
  unfold State.tempSampled
  rw [if_pos ⟨rfl, high⟩]
  exact (pkg_ras (s.tempRead sensors) 17 4 (kept.trans none_)).1

/-- Settles O51, by what each of these commands comes to. -/
theorem powerAndClocks : Obligations.PowerAndClocks := by
  unfold Obligations.PowerAndClocks
  refine ⟨?refclk, ?core, ?site, ?twin, ?power, ?temp, ?limit, ?therm⟩
  case refclk =>
    intro s up none_
    exact ⟨_, exec_refclkLoss_up s up, pkg_ras s 17 1 none_⟩
  case core =>
    intro s locked none_
    exact ⟨_, exec_pllLockLoss_core s locked, State.packageFault_clk _ 17 2, (pkg_ras (s.modClk _) 17 2 none_).1⟩
  case site =>
    intro s n locked serving alone
    exact ⟨_, exec_pllLockLoss_site s n locked, State.killSite_clk _ n 9, killSite_site (s.modClk _) n 9 serving alone⟩
  case twin =>
    intro s k locked
    have failed := twinFails_state (s.modClk fun c => { c with twinLock := setBit c.twinLock k.val false }) k
    exact ⟨_, exec_pllLockLoss_twin s k locked, State.twinFails_clk _ k, failed, twinUp_failed _ k failed⟩
  case power =>
    intro s p1 p10 ten below floor up low high
    refine ⟨_, exec_powerSample_up s p1 p10 ten below floor up, ?_⟩
    rw [powerSampled_pwr]
    refine ⟨rfl, sampled_p1Max s.pwr p1 p10 ten below, ?_, ?_, ?_, ?_⟩
    · intro exceeds
      exact sampled_d _ _ _ _ _ _ (PwrState.nextD_over s.pwr _ _ ten below exceeds) (by omega)
    · rintro near above rfl
      exact sampled_d _ _ _ _ _ _ (PwrState.nextD_above s.pwr _ _ below near above) (by omega)
    · rintro near under rfl rfl
      exact sampled_d _ _ _ _ _ _ (PwrState.nextD_below s.pwr _ _ near under) (by omega)
    · rintro exceeds least rfl none_
      exact powerSampled_fault s p1 p10 ten below exceeds least none_
  case temp =>
    intro s sensors hot up calm
    obtain ⟨temps, tmax, -⟩ := tempRead_keeps s sensors
    refine ⟨_, exec_tempSample_up s sensors hot up, ?_⟩
    rw [tempSampled_pwr]
    refine ⟨temps, tmax, ?_, ?_⟩
    · intro high
      obtain ⟨event, shown, told⟩ := thermal_begins (s.modPwr fun x => { x with temps := sensors, tmax := hottest sensors }) high calm
      exact ⟨event, shown, tempSampled_out s sensors hot _ told⟩
    · rintro rfl high none_
      exact tempSampled_fault s sensors high none_
  case limit =>
    intro s value open_
    exact ⟨_, next_of_eq (State.byPf0_open _ open_), rfl, limit_clamped s value⟩
  case therm =>
    intro s value open_
    exact ⟨_, next_of_eq (State.byPf0_open _ open_), rfl, therm_clamped s value⟩

end Sys2Proof.Machine
end

section
/-!
PROOFS. Reads and writes of registers, through the host ports and through space 5.
-/

namespace Sys2Proof.Machine

/-! ## How the register interface serves an access, R5 to R8, R64 and R413 -/

/-- R5: an aligned access of four bytes is not out of place. -/
theorem aligned_access {off : Nat} (h : off % 4 = 0) : ¬ ((4 : Nat) ≠ 4 ∨ off % 4 ≠ 0) := by
  rintro (a | b)
  · exact a rfl
  · exact b h

/-- An aligned read of PF0's window, outside the reserved extents, is the read of the register it aims at. -/
theorem State.busRead_pf0 (s : State) (off : BitVec 28) (aligned : off.toNat % 4 = 0) (real : reservedExtent off.toNat = false)
    (runs : s.retired = false) : s.busRead (.pf0 off) 4 = s.regRead (s.aim (.pf0 off)) := by
  have shown : s.hiddenNow (.pf0 off) = false := by
    unfold State.hiddenNow
    rw [runs]
    rfl
  exact (if_neg (aligned_access aligned)).trans ((if_neg (ne_true_of_eq_false real)).trans (if_neg (ne_true_of_eq_false shown)))

/-- An aligned read of a VF's page is the read of its register. -/
theorem State.busRead_page (s : State) (p : PortId) (v : VfId) (o : BitVec 16) (aligned : o.toNat % 4 = 0) :
    s.busRead (.vf p v o) 4 = s.regRead (.vf p v o) :=
  (if_neg (aligned_access aligned)).trans ((if_neg Bool.false_ne_true).trans (if_neg Bool.false_ne_true))

/-- An aligned write of the page of a bound VF is the write of its register. -/
theorem State.busWrite_page (s : State) (p : PortId) (v : VfId) (o : BitVec 16) (value : Word) (aligned : o.toNat % 4 = 0)
    (bound : (s.vf p v).bound.isNone = false) : s.busWrite (.vf p v o) 4 value = s.regWrite (.vf p v o) value := by
  refine (if_neg (aligned_access aligned)).trans ((if_neg Bool.false_ne_true).trans (if_neg ?_))
  show ¬ ((false || (s.vf p v).bound.isNone || false) = true)
  rw [bound]
  decide

/-- R64: the low word of a 64-bit register is answered, and its high word latched. -/
theorem regRead_low (s : State) (r : RegAddr) (w : DWord) (wide : s.regWide r = some w) :
    s.regRead r = (lowWord w, s.latch r (highWord w)) := by
  unfold State.regRead
  rw [wide]

/-- R64: the high word is answered from what is latched. -/
theorem regRead_high (s : State) (r : RegAddr) (w : DWord) (h : Word) (narrow : s.regWide r = none)
    (wide : s.regWide (lowOf r) = some w) (latched : s.latchedHigh (lowOf r) = some h) : s.regRead r = (h, s.unlatch (lowOf r)) := by
  unfold State.regRead
  rw [narrow, wide, latched]
  rfl

/-- R8: a 32-bit register is answered, and loses the fields that a read clears. -/
theorem regRead_word (s : State) (r : RegAddr) (narrow : s.regWide r = none) (notHigh : s.regWide (lowOf r) = none) :
    s.regRead r = (s.regWord r, s.regClear r) := by
  unfold State.regRead
  rw [narrow, notHigh]

/-- What a read through a port sends back, and the state that it leaves. -/
theorem readBack_of {s t : State} {r : RegAddr} {size : Nat} {w : Word} (h : s.busRead r size = (w, t)) :
    s.readBack r size = t.emit (.regRead r w) := by
  unfold State.readBack
  rw [h]

/-- R413: a read of a reserved extent answers zero. -/
theorem State.busRead_reserved (s : State) (off : BitVec 28) (aligned : off.toNat % 4 = 0) (reserved : reservedExtent off.toNat = true) :
    s.busRead (.pf0 off) 4 = (0, s.noteAccess 2 off.toNat) :=
  (if_neg (aligned_access aligned)).trans (if_pos reserved)

theorem State.busWrite_reserved (s : State) (off : BitVec 28) (value : Word) (aligned : off.toNat % 4 = 0)
    (reserved : reservedExtent off.toNat = true) : s.busWrite (.pf0 off) 4 value = s.noteAccess 2 off.toNat :=
  (if_neg (aligned_access aligned)).trans (if_pos reserved)

/-- R413: what the note of an access leaves. -/
theorem noteAccess_leaves (s : State) (code : Byte) (off : Nat) (room : s.ras.flog.length < 1024) :
    (s.noteAccess code off).out = s.out ∧ (s.noteAccess code off).mem = s.mem ∧ (s.noteAccess code off).pwr = s.pwr ∧
      (s.noteAccess code off).ras.flog = s.ras.flog ++ [faultEntry { source := 16, code := code, info := BitVec.ofNat 32 off } s.now] :=
  ⟨note_out s _ rfl, State.logFault_mem s _, State.logFault_pwr s _, logFault_flog s _ room⟩

/-! ## Through the host ports -/

theorem exec_lowWordReadLatch_pf0 {s : State} {p : PortId} {off : BitVec 28} (size : Nat) (tee : Bool) (takes : s.pf0Takes p = true) :
    exec (.lowWordReadLatch ⟨p, .reg (.pf0 off), size, tee⟩) s = .next (s.readBack (.pf0 off) size) :=
  (exec_lowWordReadLatch_reg s p _ size tee).trans (next_of_eq (pf0_read size tee takes))

theorem exec_lowWordReadLatch_page {s : State} {p : PortId} {v : VfId} {o : BitVec 16} (size : Nat) (tee : Bool)
    (takes : s.takesMemory p = true) (live : s.vfLive p v = true) (allowed : s.pageRefused p v o.toNat tee = false) :
    exec (.lowWordReadLatch ⟨p, .reg (.vf p v o), size, tee⟩) s = .next (s.readBack (.vf p v o) size) :=
  (exec_lowWordReadLatch_reg s p _ size tee).trans (next_of_eq (page_read size tee takes live allowed))

theorem exec_registerWrite_page {s : State} {p : PortId} {v : VfId} {o : BitVec 16} (size : Nat) (tee : Bool) (value : Word)
    (takes : s.takesMemory p = true) (live : s.vfLive p v = true) (dust : s.vfDust p v = false)
    (allowed : s.pageRefused p v o.toNat tee = false) :
    exec (.registerWrite p ⟨.reg (.vf p v o), tee⟩ size value) s = .next (s.busWrite (.vf p v o) size value) :=
  (exec_registerWrite_reg s p _ size tee value).trans (next_of_eq (page_write size tee value takes live dust allowed))

/-- R6: the low word of INV_BASE is held. -/
theorem regWrite_invLow (s : State) (p : PortId) (v : VfId) (value : Word) :
    s.regWrite (.vf p v 0xE040) value = s.holdLow (.vf p v 0xE040) value :=
  if_pos (invWide s p v)

/-- R6: the high word of INV_BASE applies both. -/
theorem regWrite_invHigh (s : State) (p : PortId) (v : VfId) (value : Word) :
    s.regWrite (.vf p v 0xE044) value = s.wideWrite (lowOf (.vf p v 0xE044)) (both value (s.lowHeld (.vf p v 0xE040))) :=
  (if_neg (invHigh s p v)).trans (if_pos (invWide s p v))

theorem exec_reservedExtentAccess_read {s : State} {p : PortId} {off : BitVec 28} (takes : s.pf0Takes p = true)
    (aligned : off.toNat % 4 = 0) (reserved : reservedExtent off.toNat = true) :
    exec (.reservedExtentAccess p off ⟨false, 4⟩) s = .next ((s.noteAccess 2 off.toNat).emit (.regRead (.pf0 off) 0)) := by
  refine next_of_eq ((if_neg ?_).trans ((if_neg Bool.false_ne_true).trans
    ((pf0_read 4 true takes).trans (readBack_of (s.busRead_reserved off aligned reserved)))))
  rw [reserved]
  decide

theorem exec_reservedExtentAccess_write {s : State} {p : PortId} {off : BitVec 28} (takes : s.pf0Takes p = true)
    (aligned : off.toNat % 4 = 0) (reserved : reservedExtent off.toNat = true) :
    exec (.reservedExtentAccess p off ⟨true, 4⟩) s = .next (s.noteAccess 2 off.toNat) := by
  refine next_of_eq ((if_neg ?_).trans ((if_pos rfl).trans
    ((pf0_write 4 true 0 takes).trans (s.busWrite_reserved off 0 aligned reserved))))
  rw [reserved]
  decide

/-- Settles O52, by what each of these commands comes to. -/
theorem registers : Obligations.Registers := by
  unfold Obligations.Registers
  refine ⟨?low, ?high, ?narrow, ?oddRead, ?oddWrite, ?hold, ?both_, ?therm, ?reserved, ?spaceRead, ?spaceWrite⟩
  case low =>
    intro s p off tee w takes runs aligned real wide
    refine ⟨_, exec_lowWordReadLatch_pf0 4 tee takes, ?_⟩
    rw [readBack_of ((s.busRead_pf0 off aligned real runs).trans (regRead_low s _ w wide))]
    exact ⟨rfl, latched_here s _ _⟩
  case high =>
    intro s p off tee w h takes runs aligned real narrow wide latched
    refine ⟨_, exec_lowWordReadLatch_pf0 4 tee takes, ?_⟩
    rw [readBack_of ((s.busRead_pf0 off aligned real runs).trans (regRead_high s _ w h narrow wide latched))]
    exact ⟨rfl, unlatched_here s _⟩
  case narrow =>
    intro s p v o tee takes live allowed aligned narrow notHigh
    obtain ⟨out, latched⟩ := vfClear_rest s p v o.toNat
    refine ⟨_, exec_lowWordReadLatch_page 4 tee takes live allowed, ?_⟩
    rw [readBack_of ((s.busRead_page p v o aligned).trans (regRead_word s _ narrow notHigh))]
    exact ⟨congrArg (List.cons _) out, latched⟩
  case oddRead =>
    intro s p v o size tee takes live allowed odd room
    obtain ⟨⟨answered, noted, -⟩, -⟩ := odd_access s (.vf p v o) size 0 odd room
    exact ⟨_, exec_lowWordReadLatch_page size tee takes live allowed, answered, noted⟩
  case oddWrite =>
    intro s p v o size tee value takes live dust allowed odd
    exact ⟨_, exec_registerWrite_page size tee value takes live dust allowed, if_pos odd⟩
  case hold =>
    intro s p v tee value takes live dust allowed bound
    refine ⟨_, exec_registerWrite_page 4 tee value takes live dust allowed, ?_⟩
    rw [s.busWrite_page p v 0xE040 value (by decide) bound, regWrite_invLow]
    exact ⟨rfl, held_here s _ value⟩
  case both_ =>
    intro s p v tee value takes live dust allowed bound
    refine ⟨_, exec_registerWrite_page 4 tee value takes live dust allowed, ?_⟩
    rw [s.busWrite_page p v 0xE044 value (by decide) bound, regWrite_invHigh]
    exact wide_inv s p v value _
  case therm =>
    intro s p tee value takes runs
    refine ⟨_, (exec_registerWrite_reg s p _ 4 tee value).trans (next_of_eq ((pf0_write 4 tee value takes).trans
      (therm_write s value runs))), rfl, therm_clamped s value⟩
  case reserved =>
    intro s p off write takes reserved aligned room
    obtain ⟨out, mem, pwr, log⟩ := noteAccess_leaves s 2 off.toNat room
    cases write with
    | false => exact ⟨_, exec_reservedExtentAccess_read takes aligned reserved, congrArg (List.cons _) out, mem, pwr, log⟩
    | true => exact ⟨_, exec_reservedExtentAccess_write takes aligned reserved, out, mem, pwr, log⟩
  case spaceRead =>
    intro s pa value up own space low
    exact ⟨_, exec_space5Access_own false 4 value up own space low, rfl, rfl⟩
  case spaceWrite =>
    intro s pa size value up own space low
    exact ⟨_, exec_space5Access_own true size value up own space low, rfl⟩

end Sys2Proof.Machine
end

section
/-!
PROOFS. The configuration space of PF0 and of the VFs: reads, the chains of capabilities, and BAR0.
-/

namespace Sys2Proof.Machine

/-! ## The chains of capabilities, R272 -/

/-- A capability found at an offset is one of the list. -/
theorem capAt_mem {l : List (Nat × Nat)} {off : Nat} {c : Nat × Nat} (h : capAt l off = some c) : ∃ e ∈ l, e.2 = c.1 := by
  induction l with
  | nil => exact absurd h (Option.some_ne_none c).symm
  | cons e rest ih =>
    obtain ⟨o, id⟩ := e
    unfold capAt at h
    split at h
    next =>
      exact ⟨(o, id), List.mem_cons_self, congrArg Prod.fst (Option.some.inj h)⟩
    next =>
      obtain ⟨e, there, same⟩ := ih h
      exact ⟨e, List.mem_cons_of_mem _ there, same⟩

/-- Every extended capability of PF0 has an ID of 16 bits. -/
theorem pfExtCaps_id : ∀ e ∈ pfExtCaps, e.2 < 2 ^ 16 := by
  simp only [pfExtCaps, List.forall_mem_cons]
  exact ⟨by decide, by decide, by decide, by decide, by decide, by decide, by decide, by decide, by decide,
    Config.physicalLayer128.isLt, by decide, by decide, by decide, by decide, by decide, by decide, nofun⟩

/-- Bits 31:16 of the first word of a capability of PF0. -/
def pfCapUpper (o : Nat) : Nat := if o = 0x70 then cfgOpen false o 16 4 + cfgOpen false o 24 8 else cfgOpen false o 16 16

theorem pfCapUpper_high (o : Nat) : ∃ k, pfCapUpper o = k * 2 ^ 16 := by
  unfold pfCapUpper
  split
  · exact open_parts false o
  · exact open_high false o 16

/-- Bits 31:16 of the first word of a capability of a VF. -/
def VfState.capUpper (x : VfState) (o : Nat) : Nat :=
  if o = 0x50 then 31 * 2 ^ 16 + flag x.msixMask 30 + flag x.msixEnable 31
  else if o = 0x70 then cfgOpen true o 16 4 + cfgOpen true o 24 8 else cfgOpen true o 16 16

theorem capUpper_high (x : VfState) (o : Nat) : ∃ k, x.capUpper o = k * 2 ^ 16 := by
  unfold VfState.capUpper
  split
  · exact msix_high x.msixMask x.msixEnable
  · split
    · exact open_parts true o
    · exact open_high true o 16

theorem pfConfigWord_cap (s : State) (p : PortId) {o : Nat} {c : Nat × Nat} (h : capAt pfCaps o = some c) :
    s.pfConfigWord p o = capWord c (pfCapUpper o) := by
  unfold State.pfConfigWord
  rw [h]
  rfl

theorem pfConfigWord_ext (s : State) (p : PortId) {o : Nat} {c : Nat × Nat} (low : capAt pfCaps o = none)
    (h : capAt pfExtCaps o = some c) : s.pfConfigWord p o = extWord c (cfgOpen false o 16 4) := by
  unfold State.pfConfigWord
  rw [low, h]

theorem vfConfigWord_cap (s : State) (p : PortId) (v : VfId) {o : Nat} {c : Nat × Nat} (h : capAt vfCaps o = some c) :
    s.vfConfigWord p v o = capWord c ((s.vf p v).capUpper o) := by
  unfold State.vfConfigWord
  rw [h]
  rfl

theorem vfConfigWord_ext (s : State) (p : PortId) (v : VfId) {o : Nat} {c : Nat × Nat} (low : capAt vfCaps o = none)
    (h : capAt vfExtCaps o = some c) : s.vfConfigWord p v o = extWord c (cfgOpen true o 16 4) := by
  unfold State.vfConfigWord
  rw [low, h]

/-- R277: a VF has no interrupt pin. -/
theorem vfConfigWord_pin (s : State) (p : PortId) (v : VfId) : s.vfConfigWord p v 0x3C = 0 := by
  unfold State.vfConfigWord
  exact (if_neg (by decide)).trans ((if_neg (by decide)).trans ((if_neg (by decide)).trans (if_pos (by decide))))

/-- R272: the pointer of a capability of PF0 to the next. -/
theorem pfCap_next (s : State) (p : PortId) {o : Nat} {c : Nat × Nat} (h : capAt pfCaps o = some c) (id : c.1 < 2 ^ 8) (next : c.2 < 2 ^ 8) :
    fld (s.pfConfigWord p o).toNat 8 8 = c.2 := by
  rw [pfConfigWord_cap s p h]
  exact cap_next c.1 c.2 _ id next (pfCapUpper_high o)

/-- R272: the pointer of a VF's capability to the next. -/
theorem vfCap_next (s : State) (p : PortId) (v : VfId) {o : Nat} {c : Nat × Nat} (h : capAt vfCaps o = some c) (id : c.1 < 2 ^ 8)
    (next : c.2 < 2 ^ 8) : fld (s.vfConfigWord p v o).toNat 8 8 = c.2 := by
  rw [vfConfigWord_cap s p v h]
  exact cap_next c.1 c.2 _ id next (capUpper_high _ o)

/-- R272: the pointer of an extended capability of PF0 to the next. -/
theorem pfExt_next (s : State) (p : PortId) (o next : Nat) (low : capAt pfCaps o = none)
    (h : (capAt pfExtCaps o).map Prod.snd = some next) (small : next < 2 ^ 12) : fld (s.pfConfigWord p o).toNat 20 12 = next := by
  obtain ⟨c, found, rfl⟩ := Option.map_eq_some_iff.mp h
  obtain ⟨e, there, id⟩ := capAt_mem found
  rw [pfConfigWord_ext s p low found]
  exact ext_next c.1 c.2 _ (id ▸ pfExtCaps_id e there) small (open_mid false o)

/-! ## Reads and writes -/

theorem exec_lowWordReadLatch_pfConfig (s : State) (p : PortId) (off : BitVec 12) (size : Nat) (tee : Bool)
    (up : s.ports[p].l0 = true) (booted : s.stage = 4) :
    exec (.lowWordReadLatch ⟨p, .cfg none off, size, tee⟩) s =
      .next (s.emit (.cfgRead p none off (s.pfConfigWord p (off.toNat / 4 * 4)))) :=
  next_of_eq (byConfig_open s p _ up booted)

theorem exec_lowWordReadLatch_vfConfig (s : State) (p : PortId) (v : VfId) (off : BitVec 12) (size : Nat) (tee : Bool)
    (booted : s.stage = 4) (there : s.vfThere p v = true) (steady : s.ports[p].vfs[v].resetting = false) :
    exec (.lowWordReadLatch ⟨p, .cfg (some v) off, size, tee⟩) s =
      .next (s.emit (.cfgRead p (some v) off (s.vfConfigWord p v (off.toNat / 4 * 4)))) :=
  next_of_eq (vfConfig_taken (f := fun s => s.emit (.cfgRead p (some v) off (s.vfConfigWord p v (off.toNat / 4 * 4)))) booted there steady)

/-- A write of all four bytes leaves nothing of the word before it. -/
theorem mergeBytes_whole (old value : Word) : mergeBytes old 0 4 value = value := by
  unfold mergeBytes
  have ones : (BitVec.ofNat 32 (2 ^ (8 * 4) - 1)) <<< (8 * 0) = BitVec.allOnes 32 := by decide
  dsimp only
  rw [ones, BitVec.not_allOnes, BitVec.and_zero, BitVec.zero_or, Nat.mul_zero, BitVec.shiftLeft_zero, BitVec.and_allOnes]

/-- R270: a write of BAR0's low word keeps the bits that a window of 256 MiB leaves. -/
theorem exec_registerWrite_bar0 (s : State) (p : PortId) (tee : Bool) (value : Word) (up : s.ports[p].l0 = true) (booted : s.stage = 4) :
    exec (.registerWrite p ⟨.cfg none 0x10, tee⟩ 4 value) s =
      .next (s.modCfg p fun x => { x with bar0 := both (highWord x.bar0) (value &&& 0xF0000000) }) := by
  refine next_of_eq ((byConfig_open s p _ up booted).trans ((if_neg (by decide)).trans ?_))
  show s.pfConfigWrite p 0x10 (mergeBytes (s.pfConfigWord p 0x10) 0 4 value) (mergeBytes 0 0 4 value) = _
  rw [mergeBytes_whole]
  exact (if_neg (by decide)).trans (if_pos rfl)

/-- Settles O53: reads and the write of BAR0 by what these commands come to, the pointers by the lists of capabilities. -/
theorem configurationSpace : Obligations.ConfigurationSpace := by
  unfold Obligations.ConfigurationSpace
  refine ⟨?pfRead, ?vfRead, ?bar, ?chains, ?sriov⟩
  case pfRead =>
    intro s p off size tee up booted
    exact ⟨_, exec_lowWordReadLatch_pfConfig s p off size tee up booted, rfl⟩
  case vfRead =>
    intro s p v off size tee booted there steady
    exact ⟨_, exec_lowWordReadLatch_vfConfig s p v off size tee booted there steady, rfl⟩
  case bar =>
    intro s p tee value up booted
    exact ⟨_, exec_registerWrite_bar0 s p tee value up booted, State.modPort_self s p _⟩
  case chains =>
    intro s p v
    refine ⟨rfl, rfl, ?pin, ?vfPin, ?caps, ?vfCaps, ?ext, ?vfExt⟩
    case pin => exact intPin_read s.ports[p].cfg.intLine
    case vfPin =>
      rw [vfConfigWord_pin]
      rfl
    case caps =>
      simp only [List.forall_mem_cons]
      exact ⟨pfCap_next s p (o := 0x40) (c := (0x01, 0x70)) rfl (by decide) (by decide),
        pfCap_next s p (o := 0x70) (c := (0x10, 0)) rfl (by decide) (by decide), nofun⟩
    case vfCaps =>
      simp only [List.forall_mem_cons]
      exact ⟨vfCap_next s p v (o := 0x40) (c := (0x01, 0x50)) rfl (by decide) (by decide),
        vfCap_next s p v (o := 0x50) (c := (0x11, 0x70)) rfl (by decide) (by decide),
        vfCap_next s p v (o := 0x70) (c := (0x10, 0)) rfl (by decide) (by decide), nofun⟩
    case ext =>
      have chained : ∀ c ∈ [(0x100, 0x150), (0x150, 0x160), (0x160, 0x170), (0x170, 0x1B0), (0x1B0, 0x1E0), (0x1E0, 0x200),
          (0x200, 0x240), (0x240, 0x280), (0x280, 0x2C0), (0x2C0, 0x300), (0x300, 0x350), (0x350, 0x360), (0x360, 0x400),
          (0x400, 0x600), (0x600, 0x610), (0x610, 0)],
          capAt pfCaps c.1 = none ∧ (capAt pfExtCaps c.1).map Prod.snd = some c.2 ∧ c.2 < 2 ^ 12 := by decide
      intro c there
      obtain ⟨low, found, small⟩ := chained c there
      exact pfExt_next s p c.1 c.2 low found small
    case vfExt =>
      rw [vfConfigWord_ext s p v (o := 0x100) (c := (0x0E, 0)) rfl rfl]
      exact ext_next 0x0E 0 _ (by decide) (by decide) (open_mid true 0x100)
  case sriov =>
    intro s p
    have vfs : s.pfConfigWord p 0x17C = word (40 * 2 ^ 16 + 40) := rfl
    have offsets : s.pfConfigWord p 0x184 = word (2 ^ 16 + 1) := rfl
    rw [vfs, offsets]
    exact ⟨by decide, by decide, by decide, by decide, rfl⟩

end Sys2Proof.Machine
end

section
/-!
PROOFS. The management bus and the test access port.
-/

namespace Sys2Proof.Machine

/-! ## The management bus, R409 -/

/-- R409: the address that a method of assignment gives the target. -/
def State.assigned (s : State) (method : I3cAssign) (address : BitVec 7) : State :=
  s.modSide fun x => { x with dynAddr := some (if method = .setaasa then x.staticAddr else address) }

theorem exec_i3cDynamicAddress_up (s : State) (method : I3cAssign) (address : BitVec 7) (up : bit s.pins.pwrgd 0 = true) :
    exec (.i3cDynamicAddress method address) s = .next (s.assigned method address) := by
  refine next_of_eq ((if_neg ?_).trans ?_)
  · rw [up]
    decide
  · cases method with
    | setdasa => rfl
    | entdaa => rfl
    | setaasa => rfl

/-- A target that has its address serves what the bus sends it. -/
theorem i3cServes {s : State} (live : s.i3cLive = true) : ¬ ((!s.i3cLive) = true) := by
  rw [live]
  decide

theorem exec_i3cPrivateWrite_offset (s : State) (bytes : List Byte) (live : s.i3cLive = true) (four : bytes.length = 4) :
    exec (.i3cPrivateWrite bytes) s = .next (s.modSide fun x => { x with offset := BitVec.ofNat 32 (natOf bytes) }) := by
  refine next_of_eq ((if_neg (i3cServes live)).trans ((if_pos four).trans ?_))
  rw [List.take_of_length_le (Nat.le_of_eq four)]

/-- R406, R409: what a write of eight bytes leaves. -/
def State.i3cWritten (s : State) (bytes : List Byte) : State :=
  if natOf (bytes.take 4) = 0x808000 then s.writeLimit (BitVec.ofNat 32 (natOf (bytes.drop 4)))
  else if natOf (bytes.take 4) = 0x80800C then s.writeTherm (BitVec.ofNat 32 (natOf (bytes.drop 4)))
  else s.note

theorem exec_i3cPrivateWrite_register (s : State) (bytes : List Byte) (live : s.i3cLive = true) (eight : bytes.length = 8)
    (up : s.inReset = false) : exec (.i3cPrivateWrite bytes) s = .next (s.i3cWritten bytes) := by
  refine next_of_eq ((if_neg (i3cServes live)).trans ((if_neg ?_).trans (if_neg ?_)))
  · rw [eight]
    decide
  · rw [eight, up]
    decide

/-- R409: the two registers that the bus may write; every other write is only noted. -/
theorem i3cWritten_leaves (s : State) (bytes : List Byte) :
    (s.i3cWritten bytes).pwr = (if natOf (bytes.take 4) = 0x808000 then (s.writeLimit (BitVec.ofNat 32 (natOf (bytes.drop 4)))).pwr
      else if natOf (bytes.take 4) = 0x80800C then (s.writeTherm (BitVec.ofNat 32 (natOf (bytes.drop 4)))).pwr else s.pwr) ∧
      (s.i3cWritten bytes).side = s.side ∧ (s.i3cWritten bytes).ports = s.ports := by
  unfold State.i3cWritten
  split
  · exact ⟨rfl, rfl, rfl⟩
  · split
    · exact ⟨rfl, rfl, rfl⟩
    · exact ⟨State.note_pwr s, State.note_side s, State.note_ports s⟩

/-- R409: a read that finds no register answers all ones. -/
theorem exec_i3cPrivateRead_none (s : State) (live : s.i3cLive = true)
    (none_ : s.inReset = true ∨ s.stage.toNat < 2 ∨ i3cReadable s.side.offset.toNat = false) :
    exec .i3cPrivateRead s = .next (s.emit (.i3cData 0xFFFFFFFF)) := by
  refine next_of_eq ((if_neg (i3cServes live)).trans (if_pos ?_))
  rw [Bool.or_eq_true, Bool.or_eq_true, decide_eq_true_eq, Bool.not_eq_true']
  exact or_assoc.mpr none_

theorem exec_i3cPrivateRead_register (s : State) (live : s.i3cLive = true) (up : s.inReset = false) (booted : 2 ≤ s.stage.toNat)
    (readable : i3cReadable s.side.offset.toNat = true) :
    exec .i3cPrivateRead s = .next ((s.busRead (.pf0 (BitVec.ofNat 28 s.side.offset.toNat)) 4).2.emit
      (.i3cData (s.busRead (.pf0 (BitVec.ofNat 28 s.side.offset.toNat)) 4).1)) := by
  refine next_of_eq ((if_neg (i3cServes live)).trans (if_neg ?_))
  rw [up, decide_eq_false (Nat.not_lt.mpr booted), readable]
  decide

/-! ## The test access port, R410 -/

/-- R343, R410: the instruction that the port selects; the internal chains are closed while debug is. -/
def State.tapChoice (s : State) (instr : TapInstr) : TapInstr := if instr = .internalChain ∧ s.debugOpen = false then .bypass else instr

/-- R410: the state with an instruction selected. -/
def State.tapped (s : State) (i : TapInstr) : State :=
  let t := (s.modSide fun x => { x with tap := i }).emit (.tapSelected i)
  if i = .idcode then t.emit (.tapIdcode idcode) else t

theorem exec_tapInstruction_up (s : State) (instr : TapInstr) (up : bit s.pins.pwrgd 0 = true) :
    exec (.tapInstruction instr) s = .next (s.tapped (s.tapChoice instr)) := by
  refine next_of_eq ((if_neg ?_).trans ?_)
  · rw [up]
    decide
  · cases instr with
    | bypass => rfl
    | idcode => rfl
    | extest => rfl
    | sample => rfl
    | internalChain =>
      unfold State.tapChoice
      cases s.debugOpen with
      | false => rfl
      | true => rfl

theorem tapped_side (s : State) (i : TapInstr) : (s.tapped i).side = { s.side with tap := i } := by
  unfold State.tapped
  dsimp only
  split
  · rfl
  · rfl

theorem tapped_idcode (s : State) : .tapIdcode idcode ∈ (s.tapped .idcode).out := List.mem_cons_self

/-- Settles O54, by what each of these commands comes to. -/
theorem managementAndTest : Obligations.ManagementAndTest := by
  unfold Obligations.ManagementAndTest
  refine ⟨?address, ?offset, ?register, ?read, ?tap⟩
  case address =>
    intro s method address up
    exact ⟨_, exec_i3cDynamicAddress_up s method address up, rfl⟩
  case offset =>
    intro s bytes live four
    exact ⟨_, exec_i3cPrivateWrite_offset s bytes live four, rfl, rfl⟩
  case register =>
    intro s bytes live eight up
    exact ⟨_, exec_i3cPrivateWrite_register s bytes live eight up, i3cWritten_leaves s bytes⟩
  case read =>
    intro s live
    by_cases none_ : s.inReset = true ∨ s.stage.toNat < 2 ∨ i3cReadable s.side.offset.toNat = false
    · refine ⟨_, exec_i3cPrivateRead_none s live none_, fun _ => rfl, ?_⟩
      intro up booted readable
      obtain reset | early | closed := none_
      · exact absurd (up.symm.trans reset) Bool.false_ne_true
      · exact absurd booted (Nat.not_le.mpr early)
      · exact absurd (closed.symm.trans readable) Bool.false_ne_true
    · have up : s.inReset = false := eq_false_of_ne_true fun h => none_ (.inl h)
      have booted : 2 ≤ s.stage.toNat := Nat.not_lt.mp fun h => none_ (.inr (.inl h))
      have readable : i3cReadable s.side.offset.toNat = true := eq_true_of_ne_false fun h => none_ (.inr (.inr h))
      exact ⟨_, exec_i3cPrivateRead_register s live up booted readable, fun h => absurd h none_, fun _ _ _ => rfl⟩
  case tap =>
    intro s instr up
    refine ⟨_, exec_tapInstruction_up s instr up, tapped_side s _, ?_⟩
    rintro rfl
    exact tapped_idcode s

end Sys2Proof.Machine
end
